-- ==== Sys2Proof/Word.lean ====
section
/-!
DEFINITION. Words, small index types and the plainest bit arithmetic of the ZRT-6404 model.
-/

namespace Sys2Proof

/-- A register of the device window: 32 bits, little-endian, 4-byte aligned ("Registers and access"). -/
abbrev Word := BitVec 32

/-- One byte of a buffer, a flash image, a frame or a record. -/
abbrev Byte := BitVec 8

/-- A Skimlink lane: 0 to 63 are the ingest lanes (R37), 64 + 4p + j is lane j of mesh port p (R527). -/
abbrev LaneId := Fin 88

/-- A physical core position: 272 × die + 17 × cluster + position (Tables 4.13, 13.2). -/
abbrev CoreId := Fin 1088

/-- A physical cluster: 16 × die + cluster. -/
abbrev ClusterId := Fin 64

/-- A stack: stack k of C-die n is 3n + k (Table 3.12). -/
abbrev StackId := Fin 12

/-- A C-die. -/
abbrev DieId := Fin 4

/-- Bits lo .. lo + w - 1 of a natural number. -/
def bitsOf (x lo w : Nat) : Nat := (x >>> lo) % 2 ^ w

/-- x with bits lo .. lo + w - 1 replaced by the low w bits of v. -/
def putBits (x lo w v : Nat) : Nat :=
  x - (bitsOf x lo w) * 2 ^ lo + (v % 2 ^ w) * 2 ^ lo

/-- The ceiling of a / b, 0 when b is 0. -/
def ceilDiv (a b : Nat) : Nat := if b = 0 then 0 else (a + b - 1) / b

/-- The two's-complement reading of the low w bits of x. -/
def signedOf (w x : Nat) : Int :=
  let y := x % 2 ^ w
  if y < 2 ^ (w - 1) then (y : Int) else (y : Int) - (2 ^ w : Nat)

/-- The low w bits of an integer, as a natural number. -/
def lowBits (w : Nat) (x : Int) : Nat := (x % ((2 ^ w : Nat) : Int)).toNat

/-- x limited to the signed w-bit range. -/
def satSigned (w : Nat) (x : Int) : Int :=
  let m : Int := ((2 ^ (w - 1) : Nat) : Int)
  if x < -m then -m else if m - 1 < x then m - 1 else x

end Sys2Proof
end

