-- ==== Sys2Proof/Syntax.lean ====
section
/-!
DEFINITION. The commands of the block: one constructor of Instr per row of spec/opcode_table.json,
in the table's order, with the operands that its rule gives the step, and the small types they use.
What the world outside decides (a measured score, the outcome of a test, data read from host memory,
a timestamp) is an operand; what the device decides is computed by the command's meaning.
-/

namespace Sys2Proof

/-- Origin classes of Table 11.12. -/
inductive OriginClass where
  | primer | host | mesh | hmb | internal | fuse
  deriving DecidableEq, Repr

/-- The origin of a register access: class and 12-bit id (R412). -/
structure Origin where
  cls : OriginClass
  id : BitVec 12
  deriving DecidableEq, Repr

/-- A fabric token (Table 5.1); the reserved tag bits are ignored by receivers (R153). -/
structure Token where
  payload : BitVec 64
  free : Bool
  epoch : BitVec 2
  evslot : BitVec 8
  kind : BitVec 3
  degraded : Bool
  bseq : BitVec 4
  deriving DecidableEq, Repr

/-- What became of a die-link flit (R145, R146). -/
inductive FlitOutcome where
  | clean | corrected | uncorrectable
  deriving DecidableEq, Repr

/-- An access that is due on a port of a weight-store bank (R128): port B or A, the bank, its class, and whether it is the Roller's on
port A or the loader's on port B. -/
structure BankUse where
  portB : Bool
  bank : Fin 8
  timed : Bool
  first : Bool
  deriving DecidableEq, Repr

/-- The memory whose uncorrectable error fences a core (Table 4.16, FENCE_CAUSE). -/
inductive FenceCause where
  | weightStore | contextStore | registersOrSlots | memorySlice
  deriving DecidableEq, Repr

/-- The outcome of a core position's self-test (R449, R450): failed engines, spare rows used per weight-store bank, spare rows used
in the two slice banks, whether a weight-store bank needed a ninth, which of the slice's banks did, and whether another unit of the position,
its context store, counter unit or crossbar port, failed. -/
structure SelfTestResult where
  failedEngines : List (Fin 64)
  wsSpares : List (Fin 9)
  sliceSpares : List (Fin 9)
  wsNinth : Bool
  sliceNinth : List (Fin 2)
  otherFailed : Bool
  deriving DecidableEq, Repr

/-- Why a stack fails (Table 6.10, row 2). -/
inductive StackCause where
  | lossOfLock | ueLimit | catastrophicTemperature
  deriving DecidableEq, Repr

/-- Notices that make an event LATE (R299). -/
inductive NoticeKind where
  | timedOverflow | schedCollision | pass
  deriving DecidableEq, Repr

/-- X-die memories whose uncorrectable error leads to SAFE (R463). -/
inductive XdieMemory where
  | menuStore | decisionBuffers | eventSlotTables
  deriving DecidableEq, Repr

/-- X-die memories whose uncorrectable error does not (R464). -/
inductive LogMemory where
  | onDieLog | loaderStaging
  deriving DecidableEq, Repr

/-- The target of a capture-setting write (R114). -/
inductive CaptureSetting where
  | hwkFree (r : Fin 64)
  | stpRkeep (r : Fin 64)
  | stpRmode (r : Fin 64)
  | stpDband (c : Fin 8192)
  deriving DecidableEq, Repr

/-- The target of a profile write (R78, R91): a register of a profile, or a unit's offset. -/
inductive ProfileTarget where
  | profile (p : Fin 256) (w : Fin 8)
  | unitOffset (u : Fin 8192)
  deriving DecidableEq, Repr

/-- Parameter registers of a mark generator (Table 9.10, R350). -/
inductive MarkParam where
  | ctl | start0 | start1 | start2 | periodNs | periodFrac | width | count
  deriving DecidableEq, Repr

/-- A Sync or Follow_Up message of IEEE 1588 as the Ethernet port hands it on (R331): times in units
of 2^-16 ns, the origin time as the message carries it and the correction field beside it. -/
structure SyncMsg where
  followUp : Bool
  twoStep : Bool
  domain : Byte
  sender : BitVec 80
  seq : BitVec 16
  origin : Int
  correction : Int
  rxTime : Nat
  logSync : Int
  deriving DecidableEq, Repr

/-- An Announce message (R327, Table 9.1): the dataset of clause 9.3 and the time properties. -/
structure AnnounceMsg where
  domain : Byte
  sender : BitVec 80
  priority1 : Byte
  clockClass : Byte
  accuracy : Byte
  variance : BitVec 16
  priority2 : Byte
  gmIdentity : BitVec 64
  stepsRemoved : BitVec 16
  utcOffset : BitVec 16
  utcValid : Bool
  leap61 : Bool
  leap59 : Bool
  arb : Bool
  logAnnounce : Int
  deriving DecidableEq, Repr

/-- Reference inputs of Table 14.1. -/
inductive RefInput where
  | refA | refB | refClk | timeOsc
  deriving DecidableEq, Repr

/-- Gate targets of Table 14.3. -/
inductive GateTarget where
  | ingestGroup (g : Fin 4)
  | meshPort (p : Fin 6)
  | auxClk (n : Fin 2)
  | stackPhy (s : StackId)
  | recChannel (c : Fin 8)
  | dieLink (d : DieId) (k : Fin 4)
  deriving DecidableEq, Repr

/-- Clock generators whose divider steps (R481): XMAIN's and the two AUXCLK generators. -/
inductive ClockGen where
  | xmain | aux (n : Fin 2)
  deriving DecidableEq, Repr

/-- What PERST_N and the link training after it do (R374, R517). -/
inductive PerstEvent where
  | asserted
  | released (rate : BitVec 3) (width : BitVec 3) (flit : Bool)
  deriving DecidableEq, Repr

/-- The outcome of training a record-store channel (R384): trained with a module of the given
capacity in GiB and speed code, a module outside Table 10.11, or failure. -/
inductive ChannelResult where
  | up (capGib : BitVec 9) (speed : BitVec 2)
  | mismatch
  | failed
  deriving DecidableEq, Repr

/-- What the world decides about a start-up step: whether a flash read failed, whether VFUSE is in
range as programming begins and the bits of each word that are not programmed because it falls then (R519), whether the fitted-unit word
read back right (R3),
whether every X-die bank had spare rows enough (R451), and the clusters and links that failed
self-test (R452, R449). -/
structure StartEnv where
  flashError : Bool
  vfuseInRange : Bool
  fuseMissed : List (Fin 128 × Word)
  fittedReadback : Bool
  xdieSparesOk : Bool
  scrimFailed : List ClusterId
  statsFailed : List ClusterId
  linksDown : List (DieId × Fin 4)
  deriving DecidableEq, Repr

/-- Resets by pin (R514). -/
inductive ResetPin where
  | porN | devRstN
  deriving DecidableEq, Repr

/-- One command: one row of the opcode table. -/
inductive Instr where
  -- registers (00, 11)
  | registerWrite (o : Origin) (a : BitVec 24) (v : Word)
  | multiRegisterRead (o : Origin) (a : BitVec 24)
  | clkLossClear (o : Origin) (v : Word) (hw : BitVec 18)
  | logFwdWrite (anchorWreq : Bool) (o : Origin) (v : Word)
  -- the event grid (01, 08, 09)
  | eventWindowOpen (n : Nat)
  | admission (n : Nat) (tie : Bool)
  /-- tie: a notice, an input or the group result that reaches the Screed at this very instant is still to be taken (R301, R309); likewise at
  the local deadline. corrected: the words of the X-die's memories of R451 that have needed a correction since the release before (R469). -/
  | release (n : Nat) (tie : Bool) (corrected : Nat)
  /-- tie: an event is released at this very instant (R311). -/
  | decWidthExpiry (k : Fin 32) (tie : Bool)
  | screedArm
  | armWaitExpiry
  -- Skimlink lanes (02)
  /-- hdr and line are the line bits as the receiver decides them on a lane without FEC, before RX_INVERT; a lane with FEC takes the next
  block of its decoded codewords instead. tie: a lower-numbered row of Table 2.7 is triggered in the same block time (R61); likewise below. -/
  | blockReceived (l : LaneId) (hdr : BitVec 2) (line : BitVec 128) (tie : Bool)
  /-- The levels of a codeword's symbols as the receiver decides them, first one first. -/
  | codewordDecoded (l : LaneId) (levels : List (Fin 4))
  | dataBlock (l : Fin 64)
  | tagBlock (l : Fin 64)
  | linkBlockRx (l : LaneId)
  | linkBlockTx (l : LaneId)
  | fillerInsert (l : LaneId)
  | adminOffSet (o : Origin) (l : LaneId)
  | adminOffClear (o : Origin) (l : LaneId)
  | lossOfSignal (l : LaneId) (tie : Bool)
  | signalDetected (l : LaneId) (tie : Bool)
  /-- idle: block times of the try in which no block was received. -/
  | huntWindowEnd (l : LaneId) (idle : Nat) (tie : Bool)
  /-- The vertical openings of the lane's eyes as fractions of the nominal eye height, and the horizontal opening as a fraction of one unit
  interval (R65). -/
  | eyeMeasurement (l : LaneId) (v : List Rat) (h : Rat) (tie : Bool)
  | trainingWindowEnd (l : LaneId) (tie : Bool)
  | backoffEnd (l : LaneId) (tie : Bool)
  -- primitives, rings and records (03)
  | sampleDelivered
  | keepEntry (c : Fin 8192)
  | ringWrite (st : StackId)
  | stippleCaptureEnd (r : Fin 64)
  /-- corrected and bad are what the check codes of the stack find: how many bursts they correct, and the uncorrectable ones, as their numbers
  within the ring's region. -/
  | captureCopyOut (r : Fin 64) (count corrected : Nat) (bad : List Nat)
  | freeAppendixBlock (rec : Nat) (producer : BitVec 16) (data : List Byte) (last : Bool)
  | freeWaitExpiry (rec : Nat) (tie : Bool)
  | profileWrite (o : Origin) (t : ProfileTarget) (v : Word)
  | hawkPreWrite (o : Origin) (r : Fin 64) (v : Word)
  | hawkPostWrite (o : Origin) (r : Fin 64) (v : Word)
  | captureSettingWrite (o : Origin) (t : CaptureSetting) (v : Word)
  -- fabric (04, 05)
  | engineIssue (c : CoreId) (e : Fin 64) (bankWait : Nat) (rivals : List BankUse) (wsCorrected cmemCorrected : Nat)
  | countToken (c : CoreId) (k : Fin 16) (v : Word) (degraded : Bool)
  | tokenArrival (c : CoreId) (e : Fin 64) (q : Fin 2) (tok : Token)
  | wheelCrossing (link : BitVec 32)
  | paceWindow (cl : ClusterId) (count : BitVec 16)
  | stallTick (bankHeld : List (CoreId × Fin 64))
  | coreFence (c : CoreId) (cause : FenceCause)
  | selfTestComplete (c : CoreId) (r : SelfTestResult)
  | coreLoadComplete (c : CoreId) (tie : Option FenceCause) (corrected : Nat)
  | loadErrorRetire (c : CoreId) (cause : FenceCause)
  | dieLinkFlit (d : DieId) (k : Fin 4) (toX : Bool) (outcome : FlitOutcome)
  | dieLinkLossOfLock (d : DieId) (k : Fin 4)
  | dieLinkRetrain (d : DieId) (k : Fin 4) (ok : Bool)
  | switchRequest (g : Fin 64) (ctx : Fin 4)
  | ctxselWrite (o : Origin) (g : Fin 64) (v : Word)
  | switchAccept (g : Fin 64)
  | markerSend (circ : Nat)
  | receiveSwitchMarker (c : CoreId) (e : Fin 64) (tie : Option FenceCause)
  | counterUnitSwitch (c : CoreId) (tie : Option FenceCause)
  | sectionLoad (g : Fin 64) (bad : Option Nat) (corrected : Nat)
  | dripTimerExpiry (cl : ClusterId) (set : Fin 32) (tie : Bool)
  | dripSpillComplete (cl : ClusterId) (set : Fin 32)
  | dripRefill (cl : ClusterId) (set : Fin 32) (corrected : Nat)
  | drpFail (cl : ClusterId) (segment : Fin 4)
  | creditToken (cl : ClusterId) (k : Fin 64) (n : BitVec 7)
  -- stacks (06)
  | stackSlot (st : StackId) (corrected : Nat) (bad : List (Fin 64))
  | blockStaged (c : CoreId)
  | refresh (st : StackId) (bank : Fin 16)
  | stackFailed (st : StackId) (cause : StackCause)
  | stackTrainingComplete (st : StackId) (height : BitVec 2) (cap24 : Bool) (supported : Bool)
  | stackTrainingFail (st : StackId)
  | stackTestComplete (st : StackId) (ppr : Word) (bad : List Nat)
  | mirrorTakeover (st : StackId)
  -- numerics (07)
  | skewNotice (slot : Byte) (core : Fin 1024)
  /-- tie: the step closes in the handshake cycle in which the latest live write to its settings is accepted (R260). -/
  | stepClose (cl : ClusterId) (row : Fin 4096) (tie : Bool)
  | scaleToken (cl : ClusterId) (row : Fin 4096)
  | scrimPartial (cl : ClusterId) (row : Fin 4096) (outs : Nat) (corrected : Nat) (badWords : List Nat)
  | epochDigest (g : Fin 64) (corrected : List (CoreId × Nat))
  | shadowCopy (g : Fin 64) (corrected : List (CoreId × Nat))
  | scaleLimitsWrite (o : Origin) (cl : ClusterId) (k : Fin 16) (v : Word)
  | scaleHoldWrite (o : Origin) (v : Word)
  | adaptEnWrite (o : Origin) (v : Word)
  -- Screed and menu (08)
  | networkInput (k : Fin 4096) (slot : Byte) (v : Word) (degraded : Bool)
  | notice (kind : NoticeKind) (slot : Byte) (core : Fin 1024)
  | localDeadline (n : Nat) (tie : Bool)
  | collectionClose (n : Nat) (tie : Bool)
  | groupResult (n : Nat)
  | headroomWindow
  | setpointRaise (n : Nat)
  | setpointSettled
  | mnCtlWrite (o : Origin) (m : Fin 16384) (v : Word)
  | mnThrWrite (o : Origin) (m : Fin 16384) (k : Fin 4) (v : Word)
  | mnPrescaleWrite (o : Origin) (m : Fin 16384) (v : Word)
  | mnHoldnsWrite (o : Origin) (m : Fin 16384) (v : Word)
  | grpAbsentWrite (o : Origin) (v : Word)
  | rateFrame (m : Nat)
  | safeEntry (mem : XdieMemory) (rows : List Nat)
  -- time (09)
  | sync (m : SyncMsg)
  | announce (a : AnnounceMsg)
  | announceTimeout (tie : Bool)
  | delayReq (t3 : Nat)
  | delayResp (domain : Byte) (seq : BitVec 16) (t4 : Int)
  | tsyncRx (p : Fin 6) (t1 : Nat) (t2 : Nat) (seq : Byte) (state : Byte)
  | tsyncTimeout (p : Fin 6) (tie : Bool)
  | tsyncTx (p : Fin 72)
  | tinfoTx (p : Fin 72)
  | tinfoRx (p : Fin 6) (b : BitVec 120)
  | tdreqRx (p : Fin 72) (seq : Byte) (t : Nat)
  | tdreqTx (p : Fin 6) (t3 : Nat)
  | tdrespRx (p : Fin 6) (seq : Byte) (t4 : Nat)
  | jumpAccept (o : Origin) (v : Word)
  | jumpStep
  | ptAsymWrite (o : Origin) (p : Fin 72) (v : Word)
  | jumpMaxWrite (o : Origin) (v : Word)
  | mkModeArm (o : Origin) (g : Fin 16) (v : Word)
  | mkModeOff (o : Origin) (g : Fin 16) (v : Word)
  | mkParamWrite (o : Origin) (g : Fin 16) (r : MarkParam) (v : Word)
  | mark (g : Fin 16)
  | markBlock (g : Fin 16)
  | tmarkWidthEnd (g : Fin 16)
  -- mesh and host (10)
  | helloTx (p : Fin 6)
  /-- tie: a lower-numbered row of Table 10.2 is triggered in the same block time (R360). -/
  | hello (p : Fin 6) (b : BitVec 120) (tie : Bool)
  | keepaliveExpiry (p : Fin 6) (tie : Bool)
  | contrib (p : Fin 6) (b : BitVec 120)
  | wreq (p : Fin 6) (b : BitVec 120) (data : List (BitVec 128))
  | wcpl (p : Fin 6) (b : BitVec 120) (data : List (BitVec 128))
  | dmaw (p : Fin 6) (b : BitVec 120) (data : List (BitVec 128))
  | dmar (p : Fin 6) (b : BitVec 120) (host : List Byte)
  | dmac (p : Fin 6) (b : BitVec 120) (data : List (BitVec 128))
  | irq (p : Fin 6) (b : BitVec 120)
  | hstate (p : Fin 6) (b : BitVec 120)
  | hstateTx
  | ack (p : Fin 6) (b : BitVec 120)
  | ackTx (peer : Fin 64)
  | hostResend (peer : Fin 64)
  | barAccess (a : BitVec 30) (write : Bool) (v : Word)
  | windowReadTimeout (rtag : BitVec 16) (tie : Bool)
  | linkDown
  | perstN (e : PerstEvent)
  | d3hot (enter : Bool)
  | poll
  | pollData (late : Bool) (idx : List Word)
  | pollExpiry (tie : Bool)
  | descriptorFill (r : Fin 32) (bufAddr : BitVec 64) (bufLen : Word)
      (corrected : List (Fin 8))
  | flushExpiry (r : Fin 32)
  | labelEntry (entry : BitVec 256)
  | irqHoldExpiry (r : Fin 32)
  | hrEnableWrite (o : Origin) (r : Fin 32) (v : Word)
  | recordExpired (rec : Nat) (tie : Bool)
  | recordStoreUe (ch : Fin 8) (rec : Nat) (line : Nat)
  | channelFailed (ch : Fin 8)
  -- start-up, attestation and log (11)
  | porRelease (gid : BitVec 6) (testEn : Bool)
  | startUpStep (env : StartEnv)
  | sectionDigest (k : Nat)
  | sectionWatchdogExpiry (tie : Bool)
  | bootWatchdogExpiry (tie : Bool)
  | attestationRequest (o : Origin)
  | attestationReport
  | checkpoint
  | checkpointSignature
  | logMirrorWrite
  | logMemoryUe (mem : LogMemory) (first : BitVec 24) (count : Nat)
  -- wear and clocks (13, 14, 15)
  | wearWindow
  /-- rails and watts: the core rails as measured, in mV, and the input power, which the HPC reads beside the temperatures (Table 14.10). -/
  | temperatureRead (dieTemps stackTemps moduleTemps : List Byte) (rails : List (BitVec 10)) (watts : BitVec 16)
  /-- counts: cycles of the comparison clock in each of the latest windows of 2^16 cycles of the input (R471). -/
  | referenceQualified (r : RefInput) (counts : List Nat)
  | referenceLost (r : RefInput)
  | relock (loop : Fin 18)
  | timeoscRequalified
  | loopLock (loop : Fin 18)
  | loopLockTimeout
  | dividerStep (g : ClockGen)
  | forcedSwitch (tie : Bool) (lateEdge : Bool)
  | clkGateWrite (o : Origin) (v : Word)
  | quiesceAck (t : GateTarget)
  | gateTimeout (t : GateTarget) (tie : Bool)
  | hpcGateRetry (t : GateTarget)
  | auxCtlWrite (o : Origin) (n : Fin 2) (v : Word)
  | pinWrite (o : Origin) (v : Word)
  | domainPowerGood
  | railUndervoltage
  | railRecovery (gid : BitVec 6) (testEn : Bool)
  | porAssert (pin : ResetPin)
  | devRstRelease
  | mgtRequest (req : BitVec 4) (dev : BitVec 6) (op : BitVec 2) (ofs : BitVec 24) (data : Word)
      (check : Byte)
  | mgtWaitExpiry
  | flashRead (o : Origin) (len : Byte)
  | flashProgram (o : Origin) (len : Byte)
  | flashErase64k (o : Origin)
  | flashOperationDone (flashError : Bool)
  | channelTrainingComplete (ch : Fin 8) (r : ChannelResult)
  | ethernetLinkChange (up : Bool)
  | stackInterfaceRetrain (st : StackId) (slots : Nat)
  deriving DecidableEq, Repr

end Sys2Proof
end

