-- ==== Sys2Proof/Machine/Maps.lean ====
section
/-!
DEFINITION. Sparse maps from natural numbers in one canonical form: keys strictly rising, no entry equal
to what an unlisted key reads as (the map's default, a function of the key). The address spaces (registers,
flash, buffers, stack and cluster memories) and the per-unit records of the block are held this way, so
that equal contents are equal data.
-/

namespace Sys2Proof

/-- A sparse map: (key, value) pairs. -/
abbrev SMap (V : Type) := List (Nat × V)

/-- What key k reads as, dflt giving the unlisted keys. -/
def SMap.get {V : Type} (dflt : Nat → V) : SMap V → Nat → V
  | [], k => dflt k
  | (j, v) :: m, k => if k < j then dflt k else if k = j then v else SMap.get dflt m k

/-- The entries of a map above key k. -/
def SMap.above {V : Type} (k : Nat) : SMap V → SMap V
  | [] => []
  | (j, v) :: m => if j ≤ k then SMap.above k m else (j, v) :: m

/-- A map with key k reading v; an entry equal to the default is removed. -/
def SMap.set {V : Type} [DecidableEq V] (dflt : Nat → V) : SMap V → Nat → V → SMap V
  | [], k, v => if v = dflt k then [] else [(k, v)]
  | (j, w) :: m, k, v =>
    if k < j then (if v = dflt k then (j, w) :: m else (k, v) :: (j, w) :: m)
    else if k = j then (if v = dflt k then SMap.above k m else (k, v) :: m)
    else (j, w) :: SMap.set dflt m k v

/-- A map with the value of key k changed by f. -/
def SMap.modify {V : Type} [DecidableEq V] (dflt : Nat → V) (m : SMap V) (k : Nat) (f : V → V) : SMap V :=
  SMap.set dflt m k (f (SMap.get dflt m k))

/-- Keys strictly rising above lo. -/
def SMap.rising {V : Type} : Option Nat → SMap V → Bool
  | _, [] => true
  | none, (j, _) :: m => SMap.rising (some j) m
  | some lo, (j, _) :: m => decide (lo < j) && SMap.rising (some j) m

/-- The canonical form. -/
def SMap.wf {V : Type} [DecidableEq V] (dflt : Nat → V) (m : SMap V) : Bool :=
  SMap.rising none m && m.all (fun e => decide (e.2 ≠ dflt e.1))

/-- Consecutive values v written from key k on. -/
def SMap.setList {V : Type} [DecidableEq V] (dflt : Nat → V) (m : SMap V) (k : Nat) : List V → SMap V
  | [] => m
  | v :: vs => SMap.setList dflt (SMap.set dflt m k v) (k + 1) vs

/-- n consecutive values from key k on. -/
def SMap.getList {V : Type} (dflt : Nat → V) (m : SMap V) (k : Nat) : Nat → List V
  | 0 => []
  | n + 1 => SMap.get dflt m k :: SMap.getList dflt m (k + 1) n

/-- A little-endian number of a byte list. -/
def leNat : List Byte → Nat
  | [] => 0
  | b :: bs => b.toNat + 256 * leNat bs

/-- The n low bytes of x, least significant first. -/
def leBytes : Nat → Nat → List Byte
  | 0, _ => []
  | n + 1, x => BitVec.ofNat 8 x :: leBytes n (x / 256)

/-- The first n bytes of a list, zero filled. -/
def takeBytes : Nat → List Byte → List Byte
  | 0, _ => []
  | n + 1, [] => 0 :: takeBytes n []
  | n + 1, b :: bs => b :: takeBytes n bs

/-- n bytes of a list from index i on, zero filled. -/
def sliceBytes (bs : List Byte) (i n : Nat) : List Byte := takeBytes n (bs.drop i)

/-- The little-endian number in n bytes of a list from index i on. -/
def leAt (bs : List Byte) (i n : Nat) : Nat := leNat (sliceBytes bs i n)

/-- The number of bits set among the low n bits of x. -/
def popCount : Nat → Nat → Nat
  | 0, _ => 0
  | n + 1, x => x % 2 + popCount n (x / 2)

/-- Bit i of x. -/
def bitAt (x i : Nat) : Bool := (x >>> i) % 2 = 1

/-- 1 for true, 0 for false. -/
def bit01 (b : Bool) : Nat := if b then 1 else 0

/-- x with bit i set to b. -/
def putBit (x i : Nat) (b : Bool) : Nat := putBits x i 1 (bit01 b)

/-- The least element of a list, if any. -/
def listMin : List Nat → Option Nat
  | [] => none
  | x :: xs => match listMin xs with
    | none => some x
    | some y => some (if x ≤ y then x else y)

/-- The first index in 0 .. n − 1 that meets p, in rising order. -/
def findBelow (p : Nat → Bool) (n : Nat) : Option Nat := (List.range n).find? p

/-- A counter of w bits that counts upward and holds at all ones. -/
def satInc (w n x : Nat) : Nat := if x + n < 2 ^ w then x + n else 2 ^ w - 1

end Sys2Proof
end

