-- ==== Sys2Proof/Machine/Shake.lean ====
section
/-!
DEFINITION. SHAKE256 of FIPS 202, which every digest and the log's chain tag use (R396, R398, R422), and
Ed448 of RFC 8032, which signs the Primer, the attestation report and the log checkpoints (R398, Table 11.5).
The spec names the two standards; their constants and steps are the standards' own: PRESUMED (log entry 12).
-/

namespace Sys2Proof

/-- A 64-bit lane turned left by n places. -/
def rotLane (x n : Nat) : Nat := ((x <<< n) ||| (x >>> (64 - n))) % 2 ^ 64

/-- Lane i of a Keccak state of 25 lanes (lane x + 5y). -/
def laneAt (a : List Nat) (i : Nat) : Nat := a.getD i 0

/-- The parity of column x of a state: theta adds to each lane the parities of the columns beside its own. -/
def columnParity (a : List Nat) (x : Nat) : Nat := (List.range 5).foldl (fun p y => p ^^^ laneAt a (x % 5 + 5 * y)) 0

/-- Step theta on lane i. -/
def thetaLane (a : List Nat) (i : Nat) : Nat :=
  laneAt a i ^^^ columnParity a (i + 4) ^^^ rotLane (columnParity a (i + 1)) 1

/-- Steps rho and pi together: they walk through all lanes but lane 0, from (1, 0) on and from (x, y) to (y, 2x + 3y), and step t of the
walk turns the lane it carries by the t-th triangular number. Answered are the places reached and what they hold; n steps are left. -/
def carryLanes (a : List Nat) : (n i t : Nat) → List (Nat × Nat)
  | 0, _, _ => []
  | n + 1, i, t =>
    let place := i / 5 + 5 * ((2 * i + 3 * (i / 5)) % 5)
    (place, rotLane (laneAt a i) (t * (t + 1) / 2 % 64)) :: carryLanes a n place (t + 1)

/-- Step chi on lane i of the lanes that rho and pi have placed. -/
def chiLane (m : List Nat) (i : Nat) : Nat :=
  let beside (k : Nat) : Nat := laneAt m ((i + k) % 5 + i / 5 * 5)
  laneAt m i ^^^ (beside 2 &&& (beside 1 ^^^ (2 ^ 64 - 1)))

/-- The shift register that yields the bits of the round constants: 8 bits with the polynomial x^8 + x^6 + x^5 + x^4 + 1, moved by one. -/
def rcShift (r : Nat) : Nat := if r < 128 then 2 * r else (2 * r) ^^^ 0x171

/-- The register moved n times. -/
def rcShifts (r : Nat) : Nat → Nat
  | 0 => r
  | n + 1 => rcShift (rcShifts r n)

/-- The constant of a round that begins with register r: its next seven bits stand at places 0, 1, 3, 7, 15, 31 and 63. -/
def roundConst (r : Nat) : Nat :=
  (List.range 7).foldl (fun c j => c + rcShifts r j % 2 * 2 ^ (2 ^ j - 1)) 0

/-- A round on the state a with register r. -/
def keccakRound (a : List Nat) (r : Nat) : List Nat :=
  let th := (List.range 25).map (thetaLane a)
  let walk := (0, laneAt th 0) :: carryLanes th 24 1 1
  let placed := (List.range 25).map fun i => ((walk.find? fun e => e.1 == i).getD (i, 0)).2
  (List.range 25).map fun i => if i = 0 then chiLane placed 0 ^^^ roundConst r else chiLane placed i

/-- n rounds from register r on. -/
def keccakRounds : (n : Nat) → List Nat → Nat → List Nat
  | 0, a, _ => a
  | n + 1, a, r => keccakRounds n (keccakRound a r) (rcShifts r 7)

/-- The permutation: 24 rounds, the register at 1. -/
def keccakF (a : List Nat) : List Nat := keccakRounds 24 a 1

/-- Lanes of a block of 8n bytes. -/
def lanesOf : Nat → List Byte → List Nat
  | 0, _ => []
  | n + 1, bs => leNat (takeBytes 8 bs) :: lanesOf n (bs.drop 8)

/-- A block of 136 bytes taken into the state. -/
def absorbBlock (a : List Nat) (bs : List Byte) : List Nat :=
  let l := lanesOf 17 bs
  keccakF ((List.range 25).map fun i => laneAt a i ^^^ laneAt l i)

/-- n whole blocks taken in. -/
def absorbBlocks : Nat → List Nat → List Byte → List Nat
  | 0, a, _ => a
  | n + 1, a, bs => absorbBlocks n (absorbBlock a (bs.take 136)) (bs.drop 136)

/-- The bytes of the rate of a state. -/
def rateBytes (a : List Nat) : List Byte := ((List.range 17).map fun i => leBytes 8 (laneAt a i)).flatten

/-- n blocks of output. -/
def squeezeBlocks : Nat → List Nat → List Byte
  | 0, _ => []
  | n + 1, a => rateBytes a ++ squeezeBlocks n (keccakF a)

/-- The last block of a message of r < 136 bytes: domain bits 1111 and pad10*1. -/
def padBlock (bs : List Byte) : List Byte :=
  let r := bs.length
  if r = 135 then bs ++ [0x9F]
  else bs ++ [0x1F] ++ List.replicate (134 - r) 0 ++ [0x80]

/-- The first n bytes of SHAKE256 over a message. -/
def shake256 (msg : List Byte) (n : Nat) : List Byte :=
  let k := msg.length / 136
  let a := absorbBlocks k (List.replicate 25 0) msg
  let a := absorbBlock a (padBlock (msg.drop (136 * k)))
  (squeezeBlocks ((n + 135) / 136) a).take n

/-- SHAKE256-256: 32 bytes. -/
def shake256x32 (msg : List Byte) : List Byte := shake256 msg 32

/-- The bytes of a short ASCII text. -/
def asciiBytes (t : String) : List Byte := t.toList.map fun c => BitVec.ofNat 8 c.toNat

/-- The field prime of Ed448. -/
def edP : Nat := 2 ^ 448 - 2 ^ 224 - 1

/-- The order of the base point. -/
def edL : Nat := 2 ^ 446 - 13818066809895115352007386748515426880336692474882178609894547503885

/-- The curve constant d = -39081. -/
def edD : Nat := edP - 39081

/-- Powers modulo the field prime, by the bits of the exponent, most significant first. -/
def edPow (x e : Nat) : Nat :=
  (List.range 448).foldl (fun r i =>
    let r2 := r * r % edP
    if bitAt e (447 - i) then r2 * x % edP else r2) 1

/-- The inverse modulo the field prime. -/
def edInv (x : Nat) : Nat := edPow x (edP - 2)

/-- A point in projective coordinates. -/
structure EdPoint where
  x : Nat
  y : Nat
  z : Nat
  deriving DecidableEq, Repr

/-- The neutral point. -/
def edZero : EdPoint := ⟨0, 1, 1⟩

/-- The base point. -/
def edBase : EdPoint :=
  ⟨224580040295924300187604334099896036246789641632564134246125461686950415467406032909029192869357953282578032075146446173674602635247710,
   298819210078481492676017930443930673437544040154080242095928241372331506189835876003536878655418784733982303233503462500531545062832660, 1⟩

/-- The sum of two points. -/
def edAdd (p q : EdPoint) : EdPoint :=
  let a := p.z * q.z % edP
  let b := a * a % edP
  let c := p.x * q.x % edP
  let d := p.y * q.y % edP
  let e := edD * (c * d % edP) % edP
  let f := (b + edP - e) % edP
  let g := (b + e) % edP
  let h := (p.x + p.y) * (q.x + q.y) % edP
  ⟨a * (f * ((h + 2 * edP - c - d) % edP) % edP) % edP, a * (g * ((d + edP - c) % edP) % edP) % edP,
   f * g % edP⟩

/-- A scalar of at most 456 bits times a point. -/
def edMul (k : Nat) (p : EdPoint) : EdPoint :=
  (List.range 456).foldl (fun r i =>
    let r2 := edAdd r r
    if bitAt k (455 - i) then edAdd r2 p else r2) edZero

/-- The 57 bytes of a point. -/
def edEncode (p : EdPoint) : List Byte :=
  let zi := edInv p.z
  let x := p.x * zi % edP
  let y := p.y * zi % edP
  leBytes 56 y ++ [BitVec.ofNat 8 (128 * (x % 2))]

/-- The point of 57 bytes, if they spell one. -/
def edDecode (bs : List Byte) : Option EdPoint :=
  let s := leAt bs 56 1
  let y := leAt bs 0 56
  if s % 128 ≠ 0 then none
  else if edP ≤ y then none
  else
    let u := (y * y + edP - 1) % edP
    let v := (edD * (y * y % edP) + edP - 1) % edP
    let u3v := u * u % edP * u % edP * v % edP
    let x := u3v * edPow (u3v * u % edP * u % edP * v % edP * v % edP) ((edP - 3) / 4) % edP
    if v * (x * x % edP) % edP ≠ u then none
    else if x = 0 then (if s / 128 = 1 then none else some ⟨0, y, 1⟩)
    else some ⟨if x % 2 = s / 128 then x else edP - x, y, 1⟩

/-- Whether two projective points are equal. -/
def edEq (p q : EdPoint) : Bool :=
  decide (p.x * q.z % edP = q.x * p.z % edP) && decide (p.y * q.z % edP = q.y * p.z % edP)

/-- dom4 of RFC 8032 for Ed448 with a context. -/
def edDom (ctx : List Byte) : List Byte :=
  asciiBytes "SigEd448" ++ [0, BitVec.ofNat 8 ctx.length] ++ ctx

/-- The secret scalar and the second half of the digest of a 57-byte private key. -/
def edSecret (sk : List Byte) : Nat × List Byte :=
  let h := shake256 sk 114
  let a := leNat (h.take 55) / 4 * 4
  (a + (leAt h 55 1 % 128 + 128) * 2 ^ 440, h.drop 57)

/-- The public key of a private key. -/
def ed448Public (sk : List Byte) : List Byte := edEncode (edMul (edSecret sk).1 edBase)

/-- The 114-byte signature of a message under a private key and a context. -/
def ed448Sign (sk ctx msg : List Byte) : List Byte :=
  let (s, pre) := edSecret sk
  let pub := edEncode (edMul s edBase)
  let r := leNat (shake256 (edDom ctx ++ pre ++ msg) 114) % edL
  let rB := edEncode (edMul r edBase)
  let k := leNat (shake256 (edDom ctx ++ rB ++ pub ++ msg) 114) % edL
  rB ++ leBytes 57 ((r + k * s) % edL)

/-- Whether a 114-byte signature verifies. -/
def ed448Verify (pub ctx msg sig : List Byte) : Bool :=
  match edDecode (sliceBytes sig 0 57), edDecode pub with
  | some r, some a =>
    let s := leAt sig 57 57
    let k := leNat (shake256 (edDom ctx ++ sliceBytes sig 0 57 ++ pub ++ msg) 114) % edL
    let four (p : EdPoint) := edAdd (edAdd p p) (edAdd p p)
    decide (s < edL) && edEq (four (edMul s edBase)) (edAdd (four r) (four (edMul k a)))
  | _, _ => false

end Sys2Proof
end

