-- ==== Sys2Proof/Config.lean ====
section
/-!
DEFINITION. What the spec leaves open and the machine goes on: free values. Nothing in Lean can
evaluate them; a statement about the model holds for every choice of them. Each use is applied to the
step's own counter of free values (Machine/State.lean, Dev.freeCtr) and to a code that says which value it
is, so that two uses are never forced to agree.
-/

namespace Sys2Proof

/-- The codes of the values the spec leaves open, one constructor per place of use; the log entry of
each is named beside it. -/
inductive OpenValue where
  /-- Which way the rounding of a time quantity to the unit of its register goes (log entry 20). -/
  | roundTime
  /-- What a format conversion gives on an operand for which the spec states no result (log entry 21). -/
  | convert
  /-- What a shift by the operand's width or more gives (log entry 21). -/
  | wideShift
  /-- The row whose repair or spare is used where the spec gives no order (log entry 22). -/
  | repairChoice
  /-- The seed of a stochastic rounder before its first draw (log entry 23). -/
  | seed
  /-- A measurement that its field cannot hold (log entry 24). -/
  | measure
  /-- The empty half of the last word of a sample window with an odd number of positions (log entry 50). -/
  | halfWord
  /-- What a flash operation that ends in an error leaves in its target (log entry 58). -/
  | flash
  /-- What a slice returns for an address that another slice holds (log entry 47). -/
  | foreignBank
  /-- What the host's configuration writes set after the endpoint's reset (log entry 71). -/
  | pcieConfig
  deriving DecidableEq, Repr

/-- The free values: no body, so no proof can lean on one. DESIGN CHOICE (log entries 20 to 24, 47, 50 and 58): safe. -/
opaque freeValue : OpenValue → Nat → Nat

end Sys2Proof
end

