-- ==== Sys2Proof/Machine/RegNames.lean ====
section
/-!
DEFINITION. The register addresses and fields of the device window (R5 to R13), one address per register
and one field constant per field of the spec's register tables (Tables 0.2 to 14.11). An indexed register
is a function of its indices. Offsets are window offsets: the block's base included.
-/

namespace Sys2Proof

/-- A field of a register: its low bit and its width. -/
structure Fld where
  lo : Nat
  w : Nat
  deriving DecidableEq, Repr

/-! Block GLB -/

/-- GLB_ID (Table 0.3). -/
def Reg.glbId : Nat := 0x0
/-- GLB_ID.PART, RO. -/
def Fld.glbIdPart : Fld := ⟨0, 16⟩
/-- GLB_ID.VENDOR, RO. -/
def Fld.glbIdVendor : Fld := ⟨16, 16⟩

/-- GLB_STEPPING (Table 0.2). -/
def Reg.glbStepping : Nat := 0x4
/-- GLB_STEPPING.STEP, RO. -/
def Fld.glbSteppingStep : Fld := ⟨0, 8⟩

/-- GLB_FITTED_LO (Table 0.4). -/
def Reg.glbFittedLo : Nat := 0x10
/-- GLB_FITTED_LO.WORD, FU. -/
def Fld.glbFittedLoWord : Fld := ⟨0, 32⟩

/-- GLB_FITTED_HI (Table 0.4). -/
def Reg.glbFittedHi : Nat := 0x14
/-- GLB_FITTED_HI.WORD, FU. -/
def Fld.glbFittedHiWord : Fld := ⟨0, 32⟩

/-- GLB_STATE (Table 13.6). -/
def Reg.glbState : Nat := 0x8
/-- GLB_STATE.MODE, RO. -/
def Fld.glbStateMode : Fld := ⟨0, 2⟩
/-- GLB_STATE.READY, RO. -/
def Fld.glbStateReady : Fld := ⟨2, 1⟩
/-- GLB_STATE.FAULT, RO. -/
def Fld.glbStateFault : Fld := ⟨3, 1⟩
/-- GLB_STATE.WEAR, RO. -/
def Fld.glbStateWear : Fld := ⟨4, 1⟩
/-- GLB_STATE.SAFE_CAUSE, RO. -/
def Fld.glbStateSafeCause : Fld := ⟨5, 3⟩

/-- GLB_HEALTH_GEN (Table 13.6). -/
def Reg.glbHealthGen : Nat := 0xC
/-- GLB_HEALTH_GEN.GEN, RO. -/
def Fld.glbHealthGenGen : Fld := ⟨0, 32⟩

/-- GLB_WEAR_CFG0 (Table 13.6). -/
def Reg.glbWearCfg0 : Nat := 0x20
/-- GLB_WEAR_CFG0.WS_LOG2, PR. -/
def Fld.glbWearCfg0WsLog2 : Fld := ⟨0, 8⟩
/-- GLB_WEAR_CFG0.CMEM_LOG2, PR. -/
def Fld.glbWearCfg0CmemLog2 : Fld := ⟨8, 8⟩
/-- GLB_WEAR_CFG0.STK_LOG2, PR. -/
def Fld.glbWearCfg0StkLog2 : Fld := ⟨16, 8⟩
/-- GLB_WEAR_CFG0.REC_LOG2, PR. -/
def Fld.glbWearCfg0RecLog2 : Fld := ⟨24, 8⟩

/-- GLB_WEAR_CFG1 (Table 13.6). -/
def Reg.glbWearCfg1 : Nat := 0x24
/-- GLB_WEAR_CFG1.LINK_LOG2, PR. -/
def Fld.glbWearCfg1LinkLog2 : Fld := ⟨0, 8⟩
/-- GLB_WEAR_CFG1.SCRIM_LOG2, PR. -/
def Fld.glbWearCfg1ScrimLog2 : Fld := ⟨8, 8⟩
/-- GLB_WEAR_CFG1.WINDOWS, PR. -/
def Fld.glbWearCfg1Windows : Fld := ⟨16, 8⟩

/-- GLB_WEAR_COUNT (Table 13.6). -/
def Reg.glbWearCount : Nat := 0x28
/-- GLB_WEAR_COUNT.COUNT, RO. -/
def Fld.glbWearCountCount : Fld := ⟨0, 32⟩

/-- GLB_SECTION_FAIL (Table 13.6). -/
def Reg.glbSectionFail : Nat := 0x2C
/-- GLB_SECTION_FAIL.COUNT, RO. -/
def Fld.glbSectionFailCount : Fld := ⟨0, 32⟩

/-- GLB_XDIE_CE (Table 13.6). -/
def Reg.glbXdieCe : Nat := 0x30
/-- GLB_XDIE_CE.COUNT, RO. -/
def Fld.glbXdieCeCount : Fld := ⟨0, 32⟩

/-- GLB_XDIE_UE (Table 13.6). -/
def Reg.glbXdieUe : Nat := 0x34
/-- GLB_XDIE_UE.COUNT, RO. -/
def Fld.glbXdieUeCount : Fld := ⟨0, 32⟩

/-- GLB_LINK_RETRAIN (Table 13.6). -/
def Reg.glbLinkRetrain : Nat := 0x38
/-- GLB_LINK_RETRAIN.COUNT, RO. -/
def Fld.glbLinkRetrainCount : Fld := ⟨0, 32⟩

/-- GLB_HMAP (Table 13.6). -/
def Reg.glbHmap (i : Nat) : Nat := 0x1000 + 0x4 * i
/-- GLB_HMAP.MAP, RO. -/
def Fld.glbHmapMap : Fld := ⟨0, 32⟩

/-! Block BOOT -/

/-- BOOT_STAT (Table 11.18). -/
def Reg.bootStat : Nat := 0x10000
/-- BOOT_STAT.STEP, RO. -/
def Fld.bootStatStep : Fld := ⟨0, 4⟩
/-- BOOT_STAT.SLOT, RO. -/
def Fld.bootStatSlot : Fld := ⟨4, 2⟩
/-- BOOT_STAT.MODE, RO. -/
def Fld.bootStatMode : Fld := ⟨6, 2⟩
/-- BOOT_STAT.FUSE_FAIL, RO. -/
def Fld.bootStatFuseFail : Fld := ⟨8, 1⟩
/-- BOOT_STAT.UNPROVEN, RO. -/
def Fld.bootStatUnproven : Fld := ⟨9, 1⟩
/-- BOOT_STAT.ADVANCED, RO. -/
def Fld.bootStatAdvanced : Fld := ⟨10, 1⟩

/-- BOOT_REASON (Table 11.18). -/
def Reg.bootReason : Nat := 0x10004
/-- BOOT_REASON.SLOT_A, RO. -/
def Fld.bootReasonSlotA : Fld := ⟨0, 8⟩
/-- BOOT_REASON.SLOT_B, RO. -/
def Fld.bootReasonSlotB : Fld := ⟨8, 8⟩
/-- BOOT_REASON.SLOT_F, RO. -/
def Fld.bootReasonSlotF : Fld := ⟨16, 8⟩

/-- BOOT_ELAPSED (Table 11.18). -/
def Reg.bootElapsed : Nat := 0x10008
/-- BOOT_ELAPSED.MS, RO. -/
def Fld.bootElapsedMs : Fld := ⟨0, 32⟩

/-- BOOT_DIRSEQ (Table 11.18). -/
def Reg.bootDirseq : Nat := 0x1000C
/-- BOOT_DIRSEQ.SEQ, RO. -/
def Fld.bootDirseqSeq : Fld := ⟨0, 31⟩
/-- BOOT_DIRSEQ.COPY, RO. -/
def Fld.bootDirseqCopy : Fld := ⟨31, 1⟩

/-- BOOT_ROLLBACK (Table 11.18). -/
def Reg.bootRollback : Nat := 0x10010
/-- BOOT_ROLLBACK.IMAGE_V, RO. -/
def Fld.bootRollbackImageV : Fld := ⟨0, 7⟩
/-- BOOT_ROLLBACK.FUSE_C, RO. -/
def Fld.bootRollbackFuseC : Fld := ⟨8, 7⟩

/-- BOOT_POLICY_LO (Table 11.18). -/
def Reg.bootPolicyLo : Nat := 0x10014
/-- BOOT_POLICY_LO.HOST_ALLOW, RO. -/
def Fld.bootPolicyLoHostAllow : Fld := ⟨0, 16⟩
/-- BOOT_POLICY_LO.MESH_ALLOW, RO. -/
def Fld.bootPolicyLoMeshAllow : Fld := ⟨16, 16⟩

/-- BOOT_POLICY_HI (Table 11.18). -/
def Reg.bootPolicyHi : Nat := 0x10018
/-- BOOT_POLICY_HI.HMB_ALLOW, RO. -/
def Fld.bootPolicyHiHmbAllow : Fld := ⟨0, 16⟩

/-- BOOT_SECTIONS (Table 11.18). -/
def Reg.bootSections : Nat := 0x1001C
/-- BOOT_SECTIONS.COUNT, RO. -/
def Fld.bootSectionsCount : Fld := ⟨0, 16⟩

/-- BOOT_DIGEST (Table 11.18). -/
def Reg.bootDigest (i : Nat) : Nat := 0x10020 + 0x4 * i
/-- BOOT_DIGEST.DIGEST, RO. -/
def Fld.bootDigestDigest : Fld := ⟨0, 32⟩

/-- BOOT_BUILD (Table 11.18). -/
def Reg.bootBuild (i : Nat) : Nat := 0x10040 + 0x4 * i
/-- BOOT_BUILD.BUILD, RO. -/
def Fld.bootBuildBuild : Fld := ⟨0, 32⟩

/-! Block UND -/

/-- UND_FUSE (Table 11.19). -/
def Reg.undFuse (i : Nat) : Nat := 0x20000 + 0x4 * i
/-- UND_FUSE.WORD, FU. -/
def Fld.undFuseWord : Fld := ⟨0, 32⟩

/-- UND_ATT_NONCE (Table 11.19). -/
def Reg.undAttNonce (i : Nat) : Nat := 0x21000 + 0x4 * i
/-- UND_ATT_NONCE.NONCE, RW. -/
def Fld.undAttNonceNonce : Fld := ⟨0, 32⟩

/-- UND_ATT_CTL (Table 11.19). -/
def Reg.undAttCtl : Nat := 0x21020
/-- UND_ATT_CTL.GO, RW. -/
def Fld.undAttCtlGo : Fld := ⟨0, 1⟩
/-- UND_ATT_CTL.BUSY, RO. -/
def Fld.undAttCtlBusy : Fld := ⟨1, 1⟩
/-- UND_ATT_CTL.VALID, RO. -/
def Fld.undAttCtlValid : Fld := ⟨2, 1⟩

/-- UND_ATT_COUNT (Table 11.19). -/
def Reg.undAttCount : Nat := 0x21024
/-- UND_ATT_COUNT.COUNT, RO. -/
def Fld.undAttCountCount : Fld := ⟨0, 32⟩

/-- UND_ATT_IGNORED (Table 11.19). -/
def Reg.undAttIgnored : Nat := 0x21028
/-- UND_ATT_IGNORED.COUNT, RO. -/
def Fld.undAttIgnoredCount : Fld := ⟨0, 32⟩

/-- UND_DISAGREE (Table 11.19). -/
def Reg.undDisagree : Nat := 0x2102C
/-- UND_DISAGREE.COUNT, RO. -/
def Fld.undDisagreeCount : Fld := ⟨0, 32⟩

/-- UND_SERIAL_0 (Table 11.19). -/
def Reg.undSerial0 : Nat := 0x21040
/-- UND_SERIAL_0.SERIAL, RO. -/
def Fld.undSerial0Serial : Fld := ⟨0, 32⟩

/-- UND_SERIAL_1 (Table 11.19). -/
def Reg.undSerial1 : Nat := 0x21044
/-- UND_SERIAL_1.SERIAL, RO. -/
def Fld.undSerial1Serial : Fld := ⟨0, 32⟩

/-- UND_IDPUB (Table 11.19). -/
def Reg.undIdpub (i : Nat) : Nat := 0x21080 + 0x4 * i
/-- UND_IDPUB.PUBKEY, RO. -/
def Fld.undIdpubPubkey : Fld := ⟨0, 32⟩

/-- UND_ATT_REPORT (Table 11.19). -/
def Reg.undAttReport (i : Nat) : Nat := 0x21200 + 0x4 * i
/-- UND_ATT_REPORT.REPORT, RO. -/
def Fld.undAttReportReport : Fld := ⟨0, 32⟩

/-! Block LOG -/

/-- LOG_SEQ (Table 11.20). -/
def Reg.logSeq : Nat := 0x30000
/-- LOG_SEQ.SEQ, RO. -/
def Fld.logSeqSeq : Fld := ⟨0, 24⟩

/-- LOG_TAG (Table 11.20). -/
def Reg.logTag : Nat := 0x30004
/-- LOG_TAG.TAG, RO. -/
def Fld.logTagTag : Fld := ⟨0, 32⟩

/-- LOG_CKPT (Table 11.20). -/
def Reg.logCkpt : Nat := 0x30008
/-- LOG_CKPT.NUMBER, RO. -/
def Fld.logCkptNumber : Fld := ⟨0, 32⟩

/-- LOG_HELD (Table 11.20). -/
def Reg.logHeld : Nat := 0x3000C
/-- LOG_HELD.ENTRIES, RO. -/
def Fld.logHeldEntries : Fld := ⟨0, 17⟩

/-- LOG_MIRROR_HELD (Table 11.20). -/
def Reg.logMirrorHeld : Nat := 0x30010
/-- LOG_MIRROR_HELD.ENTRIES, RO. -/
def Fld.logMirrorHeldEntries : Fld := ⟨0, 32⟩

/-- LOG_HOSTTAG (Table 11.20). -/
def Reg.logHosttag : Nat := 0x30014
/-- LOG_HOSTTAG.TAG, RW. -/
def Fld.logHosttagTag : Fld := ⟨0, 6⟩

/-- LOG_FWD (Table 11.20). -/
def Reg.logFwd : Nat := 0x30018
/-- LOG_FWD.CLASS, RO. -/
def Fld.logFwdClass : Fld := ⟨0, 4⟩
/-- LOG_FWD.ID, RO. -/
def Fld.logFwdId : Fld := ⟨4, 12⟩

/-- LOG_WRRESULT (Table 11.20). -/
def Reg.logWrresult : Nat := 0x3001C
/-- LOG_WRRESULT.STATUS, RO. -/
def Fld.logWrresultStatus : Fld := ⟨0, 8⟩
/-- LOG_WRRESULT.SEQ, RO. -/
def Fld.logWrresultSeq : Fld := ⟨8, 24⟩

/-- LOG_RIDX (Table 11.20). -/
def Reg.logRidx : Nat := 0x30020
/-- LOG_RIDX.SEQ, RW. -/
def Fld.logRidxSeq : Fld := ⟨0, 24⟩

/-- LOG_RSTAT (Table 11.20). -/
def Reg.logRstat : Nat := 0x30024
/-- LOG_RSTAT.PRESENT, RO. -/
def Fld.logRstatPresent : Fld := ⟨0, 1⟩

/-- LOG_RDATA (Table 11.20). -/
def Reg.logRdata (i : Nat) : Nat := 0x30040 + 0x4 * i
/-- LOG_RDATA.ENTRY, RO. -/
def Fld.logRdataEntry : Fld := ⟨0, 32⟩

/-- LOG_ENTRIES (Table 11.20). -/
def Reg.logEntries : Nat := 0x30080
/-- LOG_ENTRIES.COUNT, RO. -/
def Fld.logEntriesCount : Fld := ⟨0, 32⟩

/-- LOG_LOST (Table 11.20). -/
def Reg.logLost : Nat := 0x30084
/-- LOG_LOST.COUNT, RO. -/
def Fld.logLostCount : Fld := ⟨0, 32⟩

/-- LOG_MIRROR_LOST (Table 11.20). -/
def Reg.logMirrorLost : Nat := 0x30088
/-- LOG_MIRROR_LOST.COUNT, RO. -/
def Fld.logMirrorLostCount : Fld := ⟨0, 32⟩

/-- LOG_UNLOGGED (Table 11.20). -/
def Reg.logUnlogged : Nat := 0x3008C
/-- LOG_UNLOGGED.COUNT, RO. -/
def Fld.logUnloggedCount : Fld := ⟨0, 32⟩

/-- LOG_REFUSALS (Table 11.20). -/
def Reg.logRefusals : Nat := 0x30090
/-- LOG_REFUSALS.COUNT, RO. -/
def Fld.logRefusalsCount : Fld := ⟨0, 32⟩

/-- LOG_CKPT_SIG (Table 11.20). -/
def Reg.logCkptSig (i : Nat) : Nat := 0x30100 + 0x4 * i
/-- LOG_CKPT_SIG.SIG, RO. -/
def Fld.logCkptSigSig : Fld := ⟨0, 32⟩

/-! Block CLK -/

/-- CLK_STAT (Table 14.8). -/
def Reg.clkStat : Nat := 0x40000
/-- CLK_STAT.REFA_Q, RO. -/
def Fld.clkStatRefaQ : Fld := ⟨0, 1⟩
/-- CLK_STAT.REFB_Q, RO. -/
def Fld.clkStatRefbQ : Fld := ⟨1, 1⟩
/-- CLK_STAT.REFCLK_Q, RO. -/
def Fld.clkStatRefclkQ : Fld := ⟨2, 1⟩
/-- CLK_STAT.TIMEOSC_Q, RO. -/
def Fld.clkStatTimeoscQ : Fld := ⟨3, 1⟩
/-- CLK_STAT.REF_IN_USE, RO. -/
def Fld.clkStatRefInUse : Fld := ⟨4, 2⟩
/-- CLK_STAT.REF_DISAGREE, RO. -/
def Fld.clkStatRefDisagree : Fld := ⟨6, 1⟩
/-- CLK_STAT.TIME_ON_OSC, RO. -/
def Fld.clkStatTimeOnOsc : Fld := ⟨7, 1⟩

/-- CLK_CFG (Table 14.8). -/
def Reg.clkCfg : Nat := 0x40004
/-- CLK_CFG.REF_PRIMARY, PR. -/
def Fld.clkCfgRefPrimary : Fld := ⟨0, 1⟩
/-- CLK_CFG.TIMEOSC_SEL, PR. -/
def Fld.clkCfgTimeoscSel : Fld := ⟨1, 2⟩
/-- CLK_CFG.MGMT_DIV, PR. -/
def Fld.clkCfgMgmtDiv : Fld := ⟨3, 2⟩

/-- CLK_LOCK (Table 14.8). -/
def Reg.clkLock : Nat := 0x40008
/-- CLK_LOCK.LOCKED, RO. -/
def Fld.clkLockLocked : Fld := ⟨0, 18⟩

/-- CLK_LOSS (Table 14.8). -/
def Reg.clkLoss : Nat := 0x4000C
/-- CLK_LOSS.LOSS, W1C. -/
def Fld.clkLossLoss : Fld := ⟨0, 18⟩

/-- CLK_FAILED (Table 14.8). -/
def Reg.clkFailed : Nat := 0x40010
/-- CLK_FAILED.FAILED, RO. -/
def Fld.clkFailedFailed : Fld := ⟨0, 18⟩

/-- CLK_GATE (Table 14.8). -/
def Reg.clkGate : Nat := 0x40014
/-- CLK_GATE.ING, LV. -/
def Fld.clkGateIng : Fld := ⟨0, 4⟩
/-- CLK_GATE.MESH, LV. -/
def Fld.clkGateMesh : Fld := ⟨4, 6⟩
/-- CLK_GATE.AUX, LV. -/
def Fld.clkGateAux : Fld := ⟨10, 2⟩

/-- CLK_GATED (Table 14.8). -/
def Reg.clkGated : Nat := 0x40018
/-- CLK_GATED.LIVE, RO. -/
def Fld.clkGatedLive : Fld := ⟨0, 12⟩
/-- CLK_GATED.STACK, RO. -/
def Fld.clkGatedStack : Fld := ⟨12, 12⟩
/-- CLK_GATED.REC, RO. -/
def Fld.clkGatedRec : Fld := ⟨24, 8⟩

/-- CLK_GATED_LINK (Table 14.8). -/
def Reg.clkGatedLink : Nat := 0x4001C
/-- CLK_GATED_LINK.LINK, RO. -/
def Fld.clkGatedLinkLink : Fld := ⟨0, 16⟩

/-- CLK_FORCED (Table 14.8). -/
def Reg.clkForced : Nat := 0x40020
/-- CLK_FORCED.COUNT, RO. -/
def Fld.clkForcedCount : Fld := ⟨0, 32⟩

/-- CLK_GATE_REFUSED (Table 14.8). -/
def Reg.clkGateRefused : Nat := 0x40024
/-- CLK_GATE_REFUSED.COUNT, RO. -/
def Fld.clkGateRefusedCount : Fld := ⟨0, 32⟩

/-- CLK_REF_LOSS (Table 14.8). -/
def Reg.clkRefLoss : Nat := 0x40028
/-- CLK_REF_LOSS.COUNT, RO. -/
def Fld.clkRefLossCount : Fld := ⟨0, 32⟩

/-- CLK_LATE_ARRIVAL (Table 14.8). -/
def Reg.clkLateArrival : Nat := 0x4002C
/-- CLK_LATE_ARRIVAL.COUNT, RO. -/
def Fld.clkLateArrivalCount : Fld := ⟨0, 32⟩

/-- CLK_RAMPS (Table 14.8). -/
def Reg.clkRamps : Nat := 0x40030
/-- CLK_RAMPS.COUNT, RO. -/
def Fld.clkRampsCount : Fld := ⟨0, 32⟩

/-- AUX_CTL (Table 14.8). -/
def Reg.auxCtl (i : Nat) : Nat := 0x40040 + 0x10 * i
/-- AUX_CTL.DIV, LV. -/
def Fld.auxCtlDiv : Fld := ⟨0, 8⟩
/-- AUX_CTL.SPREAD, LV. -/
def Fld.auxCtlSpread : Fld := ⟨8, 4⟩
/-- AUX_CTL.MODF_KHZ, LV. -/
def Fld.auxCtlModfKhz : Fld := ⟨12, 7⟩

/-- AUX_STAT (Table 14.8). -/
def Reg.auxStat (i : Nat) : Nat := 0x40044 + 0x10 * i
/-- AUX_STAT.DIV_NOW, RO. -/
def Fld.auxStatDivNow : Fld := ⟨0, 8⟩
/-- AUX_STAT.RAMPING, RO. -/
def Fld.auxStatRamping : Fld := ⟨8, 1⟩

/-! Block PWR -/

/-- PWR_STAT (Table 14.10). -/
def Reg.pwrStat : Nat := 0x50000
/-- PWR_STAT.VSET_MV, RO. -/
def Fld.pwrStatVsetMv : Fld := ⟨0, 10⟩
/-- PWR_STAT.TRACKING, RO. -/
def Fld.pwrStatTracking : Fld := ⟨10, 1⟩
/-- PWR_STAT.PINNED, RO. -/
def Fld.pwrStatPinned : Fld := ⟨11, 1⟩
/-- PWR_STAT.AT_CEIL, RO. -/
def Fld.pwrStatAtCeil : Fld := ⟨12, 1⟩
/-- PWR_STAT.AT_FLOOR, RO. -/
def Fld.pwrStatAtFloor : Fld := ⟨13, 1⟩
/-- PWR_STAT.OVERTEMP, RO. -/
def Fld.pwrStatOvertemp : Fld := ⟨14, 1⟩

/-- PWR_PIN (Table 14.10). -/
def Reg.pwrPin : Nat := 0x50004
/-- PWR_PIN.PIN_EN, LV. -/
def Fld.pwrPinPinEn : Fld := ⟨0, 1⟩
/-- PWR_PIN.PIN_MV, LV. -/
def Fld.pwrPinPinMv : Fld := ⟨1, 10⟩

/-- PWR_TRACK (Table 14.10). -/
def Reg.pwrTrack : Nat := 0x50008
/-- PWR_TRACK.VSTART_MV, PR. -/
def Fld.pwrTrackVstartMv : Fld := ⟨0, 10⟩

/-- PWR_DIE (Table 14.10). -/
def Reg.pwrDie (i : Nat) : Nat := 0x50040 + 0x4 * i
/-- PWR_DIE.VMEAS_MV, RO. -/
def Fld.pwrDieVmeasMv : Fld := ⟨0, 10⟩
/-- PWR_DIE.TJ_C, RO. -/
def Fld.pwrDieTjC : Fld := ⟨10, 8⟩

/-- HMB_FL_ADDR (Table 14.11). -/
def Reg.hmbFlAddr : Nat := 0x58000
/-- HMB_FL_ADDR.ADDR, RW. -/
def Fld.hmbFlAddrAddr : Fld := ⟨0, 32⟩

/-- HMB_FL_CTL (Table 14.11). -/
def Reg.hmbFlCtl : Nat := 0x58004
/-- HMB_FL_CTL.OP, RW. -/
def Fld.hmbFlCtlOp : Fld := ⟨0, 2⟩
/-- HMB_FL_CTL.LEN, RW. -/
def Fld.hmbFlCtlLen : Fld := ⟨2, 8⟩
/-- HMB_FL_CTL.GO, RW. -/
def Fld.hmbFlCtlGo : Fld := ⟨10, 1⟩
/-- HMB_FL_CTL.BUSY, RO. -/
def Fld.hmbFlCtlBusy : Fld := ⟨11, 1⟩
/-- HMB_FL_CTL.DONE, RO. -/
def Fld.hmbFlCtlDone : Fld := ⟨12, 1⟩
/-- HMB_FL_CTL.RESULT, RO. -/
def Fld.hmbFlCtlResult : Fld := ⟨13, 3⟩

/-- HMB_BAD_FRAME (Table 14.11). -/
def Reg.hmbBadFrame : Nat := 0x58008
/-- HMB_BAD_FRAME.COUNT, RO. -/
def Fld.hmbBadFrameCount : Fld := ⟨0, 32⟩

/-- HMB_FL_BUF (Table 14.11). -/
def Reg.hmbFlBuf (i : Nat) : Nat := 0x58100 + 0x4 * i
/-- HMB_FL_BUF.DATA, RW. -/
def Fld.hmbFlBufData : Fld := ⟨0, 32⟩

/-- PWR_DOM_ON_LO (Table 14.9). -/
def Reg.pwrDomOnLo : Nat := 0x50010
/-- PWR_DOM_ON_LO.DOMAINS, RO. -/
def Fld.pwrDomOnLoDomains : Fld := ⟨0, 32⟩

/-- PWR_DOM_ON_HI (Table 14.9). -/
def Reg.pwrDomOnHi : Nat := 0x50014
/-- PWR_DOM_ON_HI.DOMAINS, RO. -/
def Fld.pwrDomOnHiDomains : Fld := ⟨0, 32⟩

/-- PWR_RAISES (Table 14.9). -/
def Reg.pwrRaises : Nat := 0x50020
/-- PWR_RAISES.COUNT, RO. -/
def Fld.pwrRaisesCount : Fld := ⟨0, 32⟩

/-- PWR_LOWERS (Table 14.9). -/
def Reg.pwrLowers : Nat := 0x50024
/-- PWR_LOWERS.COUNT, RO. -/
def Fld.pwrLowersCount : Fld := ⟨0, 32⟩

/-- PWR_CEIL_EVENTS (Table 14.9). -/
def Reg.pwrCeilEvents : Nat := 0x50028
/-- PWR_CEIL_EVENTS.COUNT, RO. -/
def Fld.pwrCeilEventsCount : Fld := ⟨0, 32⟩

/-- PWR_PINNED_LOW (Table 14.9). -/
def Reg.pwrPinnedLow : Nat := 0x5002C
/-- PWR_PINNED_LOW.COUNT, RO. -/
def Fld.pwrPinnedLowCount : Fld := ⟨0, 32⟩

/-- PWR_WATTS (Table 14.9). -/
def Reg.pwrWatts : Nat := 0x50030
/-- PWR_WATTS.WATTS, RO. -/
def Fld.pwrWattsWatts : Fld := ⟨0, 16⟩

/-! Block TMS -/

/-- TMS_STAT (Table 9.8). -/
def Reg.tmsStat : Nat := 0x60000
/-- TMS_STAT.TIME_STATE, RO. -/
def Fld.tmsStatTimeState : Fld := ⟨0, 8⟩
/-- TMS_STAT.SOURCE, RO. -/
def Fld.tmsStatSource : Fld := ⟨8, 3⟩
/-- TMS_STAT.STEPS_REMOVED, RO. -/
def Fld.tmsStatStepsRemoved : Fld := ⟨16, 8⟩

/-- TMS_CFG (Table 9.8). -/
def Reg.tmsCfg : Nat := 0x60004
/-- TMS_CFG.SRC_A, PR. -/
def Fld.tmsCfgSrcA : Fld := ⟨0, 3⟩
/-- TMS_CFG.SRC_B, PR. -/
def Fld.tmsCfgSrcB : Fld := ⟨3, 3⟩
/-- TMS_CFG.ARM_POLICY, PR. -/
def Fld.tmsCfgArmPolicy : Fld := ⟨6, 1⟩
/-- TMS_CFG.ETH_RATE, PR. -/
def Fld.tmsCfgEthRate : Fld := ⟨7, 1⟩
/-- TMS_CFG.ETH_FEC, PR. -/
def Fld.tmsCfgEthFec : Fld := ⟨8, 1⟩
/-- TMS_CFG.PTP_DST, PR. -/
def Fld.tmsCfgPtpDst : Fld := ⟨9, 1⟩
/-- TMS_CFG.DOMAIN, PR. -/
def Fld.tmsCfgDomain : Fld := ⟨10, 8⟩

/-- TMS_SERVO (Table 9.8). -/
def Reg.tmsServo : Nat := 0x60008
/-- TMS_SERVO.KP_SHIFT, PR. -/
def Fld.tmsServoKpShift : Fld := ⟨0, 4⟩
/-- TMS_SERVO.KI_SHIFT, PR. -/
def Fld.tmsServoKiShift : Fld := ⟨4, 4⟩
/-- TMS_SERVO.DLY_SHIFT, PR. -/
def Fld.tmsServoDlyShift : Fld := ⟨8, 4⟩
/-- TMS_SERVO.LOCK_COUNT, PR. -/
def Fld.tmsServoLockCount : Fld := ⟨12, 8⟩

/-- TMS_LIMITS (Table 9.8). -/
def Reg.tmsLimits : Nat := 0x6000C
/-- TMS_LIMITS.LOCK_NS, PR. -/
def Fld.tmsLimitsLockNs : Fld := ⟨0, 16⟩
/-- TMS_LIMITS.SLEW_MAX_PPM, PR. -/
def Fld.tmsLimitsSlewMaxPpm : Fld := ⟨16, 9⟩

/-- TMS_JUMP_MAX (Table 9.8). -/
def Reg.tmsJumpMax : Nat := 0x60010
/-- TMS_JUMP_MAX.JUMP_MAX_NS, LV. -/
def Fld.tmsJumpMaxJumpMaxNs : Fld := ⟨0, 32⟩

/-- TMS_JUMP (Table 9.8). -/
def Reg.tmsJump : Nat := 0x60014
/-- TMS_JUMP.CORRECTION_NS, RO. -/
def Fld.tmsJumpCorrectionNs : Fld := ⟨0, 32⟩

/-- TMS_JUMP_SEQ (Table 9.8). -/
def Reg.tmsJumpSeq : Nat := 0x60018
/-- TMS_JUMP_SEQ.SEQ, RO. -/
def Fld.tmsJumpSeqSeq : Fld := ⟨0, 16⟩

/-- TMS_JUMP_ACCEPT (Table 9.8). -/
def Reg.tmsJumpAccept : Nat := 0x6001C
/-- TMS_JUMP_ACCEPT.SEQ, LV. -/
def Fld.tmsJumpAcceptSeq : Fld := ⟨0, 16⟩

/-- TMS_NOW_0 (Table 9.8). -/
def Reg.tmsNow0 : Nat := 0x60020
/-- TMS_NOW_0.NOW, RO. -/
def Fld.tmsNow0Now : Fld := ⟨0, 32⟩

/-- TMS_NOW_1 (Table 9.8). -/
def Reg.tmsNow1 : Nat := 0x60024
/-- TMS_NOW_1.NOW, RO. -/
def Fld.tmsNow1Now : Fld := ⟨0, 32⟩

/-- TMS_NOW_2 (Table 9.8). -/
def Reg.tmsNow2 : Nat := 0x60028
/-- TMS_NOW_2.NOW, RO. -/
def Fld.tmsNow2Now : Fld := ⟨0, 32⟩

/-- TMS_OFFSET (Table 9.8). -/
def Reg.tmsOffset : Nat := 0x6002C
/-- TMS_OFFSET.THETA, RO. -/
def Fld.tmsOffsetTheta : Fld := ⟨0, 32⟩

/-- TMS_DELAY (Table 9.8). -/
def Reg.tmsDelay : Nat := 0x60030
/-- TMS_DELAY.D, RO. -/
def Fld.tmsDelayD : Fld := ⟨0, 32⟩

/-- TMS_FREQ (Table 9.8). -/
def Reg.tmsFreq : Nat := 0x60034
/-- TMS_FREQ.Y, RO. -/
def Fld.tmsFreqY : Fld := ⟨0, 32⟩

/-- TMS_UTC (Table 9.8). -/
def Reg.tmsUtc : Nat := 0x60038
/-- TMS_UTC.UTC_OFS, RO. -/
def Fld.tmsUtcUtcOfs : Fld := ⟨0, 16⟩
/-- TMS_UTC.UTC_VALID, RO. -/
def Fld.tmsUtcUtcValid : Fld := ⟨16, 1⟩
/-- TMS_UTC.LEAP61, RO. -/
def Fld.tmsUtcLeap61 : Fld := ⟨17, 1⟩
/-- TMS_UTC.LEAP59, RO. -/
def Fld.tmsUtcLeap59 : Fld := ⟨18, 1⟩

/-- TMS_GM_0 (Table 9.8). -/
def Reg.tmsGm0 : Nat := 0x60040
/-- TMS_GM_0.GM_ID, RO. -/
def Fld.tmsGm0GmId : Fld := ⟨0, 32⟩

/-- TMS_GM_1 (Table 9.8). -/
def Reg.tmsGm1 : Nat := 0x60044
/-- TMS_GM_1.GM_ID, RO. -/
def Fld.tmsGm1GmId : Fld := ⟨0, 32⟩

/-- TMS_MAC_LO (Table 9.8). -/
def Reg.tmsMacLo : Nat := 0x60048
/-- TMS_MAC_LO.MAC_LO, PR. -/
def Fld.tmsMacLoMacLo : Fld := ⟨0, 32⟩

/-- TMS_MAC_HI (Table 9.8). -/
def Reg.tmsMacHi : Nat := 0x6004C
/-- TMS_MAC_HI.MAC_HI, PR. -/
def Fld.tmsMacHiMacHi : Fld := ⟨0, 16⟩

/-- TMS_PTP (Table 9.8). -/
def Reg.tmsPtp : Nat := 0x60050
/-- TMS_PTP.DREQ_LOG, PR. -/
def Fld.tmsPtpDreqLog : Fld := ⟨0, 4⟩
/-- TMS_PTP.ANN_TIMEOUT, PR. -/
def Fld.tmsPtpAnnTimeout : Fld := ⟨4, 4⟩
/-- TMS_PTP.TSYNC_LOG, PR. -/
def Fld.tmsPtpTsyncLog : Fld := ⟨8, 4⟩

/-- TMS_ARM (Table 9.8). -/
def Reg.tmsArm : Nat := 0x60054
/-- TMS_ARM.ARM_WAIT_S, PR. -/
def Fld.tmsArmArmWaitS : Fld := ⟨0, 8⟩

/-- PT_CFG (Table 9.9). -/
def Reg.ptCfg (i : Nat) : Nat := 0x61000 + 0x20 * i
/-- PT_CFG.TIME_EN, PR. -/
def Fld.ptCfgTimeEn : Fld := ⟨0, 1⟩

/-- PT_ASYM (Table 9.9). -/
def Reg.ptAsym (i : Nat) : Nat := 0x61004 + 0x20 * i
/-- PT_ASYM.ASYM, LV. -/
def Fld.ptAsymAsym : Fld := ⟨0, 32⟩

/-- PT_TXLAT (Table 9.9). -/
def Reg.ptTxlat (i : Nat) : Nat := 0x61008 + 0x20 * i
/-- PT_TXLAT.TXLAT, RO. -/
def Fld.ptTxlatTxlat : Fld := ⟨0, 32⟩

/-- PT_RXLAT (Table 9.9). -/
def Reg.ptRxlat (i : Nat) : Nat := 0x6100C + 0x20 * i
/-- PT_RXLAT.RXLAT, RO. -/
def Fld.ptRxlatRxlat : Fld := ⟨0, 32⟩

/-- PT_TSYNC_TX (Table 9.9). -/
def Reg.ptTsyncTx (i : Nat) : Nat := 0x61010 + 0x20 * i
/-- PT_TSYNC_TX.COUNT, RO. -/
def Fld.ptTsyncTxCount : Fld := ⟨0, 32⟩

/-- PT_DREQ_RX (Table 9.9). -/
def Reg.ptDreqRx (i : Nat) : Nat := 0x61014 + 0x20 * i
/-- PT_DREQ_RX.COUNT, RO. -/
def Fld.ptDreqRxCount : Fld := ⟨0, 32⟩

/-- MK_CTL (Table 9.10). -/
def Reg.mkCtl (i : Nat) : Nat := 0x62000 + 0x40 * i
/-- MK_CTL.MODE, LV. -/
def Fld.mkCtlMode : Fld := ⟨0, 2⟩
/-- MK_CTL.PIN_EN, PR. -/
def Fld.mkCtlPinEn : Fld := ⟨2, 1⟩
/-- MK_CTL.INVERT, PR. -/
def Fld.mkCtlInvert : Fld := ⟨3, 1⟩
/-- MK_CTL.ACTION, LV. -/
def Fld.mkCtlAction : Fld := ⟨4, 12⟩

/-- MK_START_0 (Table 9.10). -/
def Reg.mkStart0 (i : Nat) : Nat := 0x62004 + 0x40 * i
/-- MK_START_0.START, LV. -/
def Fld.mkStart0Start : Fld := ⟨0, 32⟩

/-- MK_START_1 (Table 9.10). -/
def Reg.mkStart1 (i : Nat) : Nat := 0x62008 + 0x40 * i
/-- MK_START_1.START, LV. -/
def Fld.mkStart1Start : Fld := ⟨0, 32⟩

/-- MK_START_2 (Table 9.10). -/
def Reg.mkStart2 (i : Nat) : Nat := 0x6200C + 0x40 * i
/-- MK_START_2.START, LV. -/
def Fld.mkStart2Start : Fld := ⟨0, 32⟩

/-- MK_PERIOD (Table 9.10). -/
def Reg.mkPeriod (i : Nat) : Nat := 0x62010 + 0x40 * i
/-- MK_PERIOD.PERIOD_NS, LV. -/
def Fld.mkPeriodPeriodNs : Fld := ⟨0, 32⟩

/-- MK_PFRAC (Table 9.10). -/
def Reg.mkPfrac (i : Nat) : Nat := 0x62014 + 0x40 * i
/-- MK_PFRAC.PERIOD_FRAC, LV. -/
def Fld.mkPfracPeriodFrac : Fld := ⟨0, 16⟩

/-- MK_WIDTH (Table 9.10). -/
def Reg.mkWidth (i : Nat) : Nat := 0x62018 + 0x40 * i
/-- MK_WIDTH.WIDTH_NS, LV. -/
def Fld.mkWidthWidthNs : Fld := ⟨0, 16⟩

/-- MK_COUNT (Table 9.10). -/
def Reg.mkCount (i : Nat) : Nat := 0x6201C + 0x40 * i
/-- MK_COUNT.COUNT, LV. -/
def Fld.mkCountCount : Fld := ⟨0, 32⟩

/-- MK_LANES_LO (Table 9.10). -/
def Reg.mkLanesLo (i : Nat) : Nat := 0x62020 + 0x40 * i
/-- MK_LANES_LO.LANES_LO, PR. -/
def Fld.mkLanesLoLanesLo : Fld := ⟨0, 32⟩

/-- MK_LANES_HI (Table 9.10). -/
def Reg.mkLanesHi (i : Nat) : Nat := 0x62024 + 0x40 * i
/-- MK_LANES_HI.LANES_HI, PR. -/
def Fld.mkLanesHiLanesHi : Fld := ⟨0, 32⟩

/-- MK_LEAD (Table 9.10). -/
def Reg.mkLead (i : Nat) : Nat := 0x62028 + 0x40 * i
/-- MK_LEAD.LEAD_NS, PR. -/
def Fld.mkLeadLeadNs : Fld := ⟨0, 20⟩

/-- MK_EMITTED (Table 9.10). -/
def Reg.mkEmitted (i : Nat) : Nat := 0x6202C + 0x40 * i
/-- MK_EMITTED.COUNT, RO. -/
def Fld.mkEmittedCount : Fld := ⟨0, 32⟩

/-- MK_SKIPPED (Table 9.10). -/
def Reg.mkSkipped (i : Nat) : Nat := 0x62030 + 0x40 * i
/-- MK_SKIPPED.COUNT, RO. -/
def Fld.mkSkippedCount : Fld := ⟨0, 32⟩

/-- MK_NEXT (Table 9.10). -/
def Reg.mkNext (i : Nat) : Nat := 0x62034 + 0x40 * i
/-- MK_NEXT.K, RO. -/
def Fld.mkNextK : Fld := ⟨0, 32⟩

/-- TMS_SYNC_RX (Table 9.7). -/
def Reg.tmsSyncRx : Nat := 0x60080
/-- TMS_SYNC_RX.COUNT, RO. -/
def Fld.tmsSyncRxCount : Fld := ⟨0, 32⟩

/-- TMS_RATE_DROP (Table 9.7). -/
def Reg.tmsRateDrop : Nat := 0x60084
/-- TMS_RATE_DROP.COUNT, RO. -/
def Fld.tmsRateDropCount : Fld := ⟨0, 32⟩

/-- TMS_OUTLIERS (Table 9.7). -/
def Reg.tmsOutliers : Nat := 0x60088
/-- TMS_OUTLIERS.COUNT, RO. -/
def Fld.tmsOutliersCount : Fld := ⟨0, 32⟩

/-- TMS_JUMPS_REFUSED (Table 9.7). -/
def Reg.tmsJumpsRefused : Nat := 0x6008C
/-- TMS_JUMPS_REFUSED.COUNT, RO. -/
def Fld.tmsJumpsRefusedCount : Fld := ⟨0, 32⟩

/-- TMS_JUMPS_APPLIED (Table 9.7). -/
def Reg.tmsJumpsApplied : Nat := 0x60090
/-- TMS_JUMPS_APPLIED.COUNT, RO. -/
def Fld.tmsJumpsAppliedCount : Fld := ⟨0, 32⟩

/-- TMS_SRC_LOSS (Table 9.7). -/
def Reg.tmsSrcLoss : Nat := 0x60094
/-- TMS_SRC_LOSS.COUNT, RO. -/
def Fld.tmsSrcLossCount : Fld := ⟨0, 32⟩

/-- TMS_LATE_ARRIVAL (Table 9.7). -/
def Reg.tmsLateArrival : Nat := 0x60098
/-- TMS_LATE_ARRIVAL.COUNT, RO. -/
def Fld.tmsLateArrivalCount : Fld := ⟨0, 32⟩

/-- TMS_PAUSE_DROP (Table 9.7). -/
def Reg.tmsPauseDrop : Nat := 0x6009C
/-- TMS_PAUSE_DROP.COUNT, RO. -/
def Fld.tmsPauseDropCount : Fld := ⟨0, 32⟩

/-- TMS_HOLDOVER_MS (Table 9.7). -/
def Reg.tmsHoldoverMs : Nat := 0x600A0
/-- TMS_HOLDOVER_MS.COUNT, RO. -/
def Fld.tmsHoldoverMsCount : Fld := ⟨0, 32⟩

/-- TMS_UNMATCHED (Table 9.7). -/
def Reg.tmsUnmatched : Nat := 0x600A4
/-- TMS_UNMATCHED.COUNT, RO. -/
def Fld.tmsUnmatchedCount : Fld := ⟨0, 32⟩

/-! Block ING -/

/-- ING_ADMIT (Table 2.9). -/
def Reg.ingAdmit : Nat := 0x80000
/-- ING_ADMIT.LANE_FOM_MIN, PR. -/
def Fld.ingAdmitLaneFomMin : Fld := ⟨0, 8⟩
/-- ING_ADMIT.LANE_FOM_HYST, PR. -/
def Fld.ingAdmitLaneFomHyst : Fld := ⟨8, 8⟩
/-- ING_ADMIT.LANE_DOWN_TRIES, PR. -/
def Fld.ingAdmitLaneDownTries : Fld := ⟨16, 8⟩

/-- ING_AHEAD (Table 2.10). -/
def Reg.ingAhead : Nat := 0x80004
/-- ING_AHEAD.ING_AHEAD_MAX_NS, PR. -/
def Fld.ingAheadIngAheadMaxNs : Fld := ⟨0, 16⟩

/-- ING_LCFG (Table 2.11). -/
def Reg.ingLcfg (i : Nat) : Nat := 0x81000 + 0x80 * i
/-- ING_LCFG.RATE, PR. -/
def Fld.ingLcfgRate : Fld := ⟨0, 2⟩
/-- ING_LCFG.FEC, PR. -/
def Fld.ingLcfgFec : Fld := ⟨2, 2⟩
/-- ING_LCFG.ENABLE, PR. -/
def Fld.ingLcfgEnable : Fld := ⟨4, 1⟩
/-- ING_LCFG.RX_INVERT, PR. -/
def Fld.ingLcfgRxInvert : Fld := ⟨5, 1⟩
/-- ING_LCFG.TX_INVERT, PR. -/
def Fld.ingLcfgTxInvert : Fld := ⟨6, 1⟩
/-- ING_LCFG.ADMIN_OFF, LV. -/
def Fld.ingLcfgAdminOff : Fld := ⟨8, 1⟩

/-- ING_LSTATE (Table 2.12). -/
def Reg.ingLstate (i : Nat) : Nat := 0x81004 + 0x80 * i
/-- ING_LSTATE.STATE, RO. -/
def Fld.ingLstateState : Fld := ⟨0, 3⟩
/-- ING_LSTATE.DOWN, RO. -/
def Fld.ingLstateDown : Fld := ⟨3, 1⟩
/-- ING_LSTATE.FAILS, RO. -/
def Fld.ingLstateFails : Fld := ⟨8, 8⟩
/-- ING_LSTATE.BACKOFF_MS, RO. -/
def Fld.ingLstateBackoffMs : Fld := ⟨16, 11⟩

/-- ING_LFOM (Table 2.13). -/
def Reg.ingLfom (i : Nat) : Nat := 0x81008 + 0x80 * i
/-- ING_LFOM.EYE, RO. -/
def Fld.ingLfomEye : Fld := ⟨0, 8⟩
/-- ING_LFOM.PARTNER_EYE, RO. -/
def Fld.ingLfomPartnerEye : Fld := ⟨8, 8⟩
/-- ING_LFOM.PARTNER_STATE, RO. -/
def Fld.ingLfomPartnerState : Fld := ⟨16, 3⟩
/-- ING_LFOM.PARTNER_VALID, RO. -/
def Fld.ingLfomPartnerValid : Fld := ⟨19, 1⟩

/-- ING_LMAP (Table 2.14). -/
def Reg.ingLmap (i : Nat) : Nat := 0x8100C + 0x80 * i
/-- ING_LMAP.WIDTH, PR. -/
def Fld.ingLmapWidth : Fld := ⟨0, 2⟩
/-- ING_LMAP.ENTRIES, PR. -/
def Fld.ingLmapEntries : Fld := ⟨8, 8⟩

/-- ING_LPERIOD (Table 2.14). -/
def Reg.ingLperiod (i : Nat) : Nat := 0x81010 + 0x80 * i
/-- ING_LPERIOD.T_S, PR. -/
def Fld.ingLperiodTS : Fld := ⟨0, 32⟩

/-- ING_INVALID_HDR (Table 2.14). -/
def Reg.ingInvalidHdr (i : Nat) : Nat := 0x81014 + 0x80 * i
/-- ING_INVALID_HDR.COUNT, RO. -/
def Fld.ingInvalidHdrCount : Fld := ⟨0, 32⟩

/-- ING_FEC_CORR (Table 2.14). -/
def Reg.ingFecCorr (i : Nat) : Nat := 0x81018 + 0x80 * i
/-- ING_FEC_CORR.COUNT, RO. -/
def Fld.ingFecCorrCount : Fld := ⟨0, 32⟩

/-- ING_FEC_UNCORR (Table 2.14). -/
def Reg.ingFecUncorr (i : Nat) : Nat := 0x8101C + 0x80 * i
/-- ING_FEC_UNCORR.COUNT, RO. -/
def Fld.ingFecUncorrCount : Fld := ⟨0, 32⟩

/-- ING_LOCK_LOSS (Table 2.14). -/
def Reg.ingLockLoss (i : Nat) : Nat := 0x81020 + 0x80 * i
/-- ING_LOCK_LOSS.COUNT, RO. -/
def Fld.ingLockLossCount : Fld := ⟨0, 32⟩

/-- ING_LOS_EVENTS (Table 2.14). -/
def Reg.ingLosEvents (i : Nat) : Nat := 0x81024 + 0x80 * i
/-- ING_LOS_EVENTS.COUNT, RO. -/
def Fld.ingLosEventsCount : Fld := ⟨0, 32⟩

/-- ING_FILL_VIOL (Table 2.14). -/
def Reg.ingFillViol (i : Nat) : Nat := 0x81028 + 0x80 * i
/-- ING_FILL_VIOL.COUNT, RO. -/
def Fld.ingFillViolCount : Fld := ⟨0, 32⟩

/-- ING_ELASTIC_OVF (Table 2.14). -/
def Reg.ingElasticOvf (i : Nat) : Nat := 0x8102C + 0x80 * i
/-- ING_ELASTIC_OVF.COUNT, RO. -/
def Fld.ingElasticOvfCount : Fld := ⟨0, 32⟩

/-- ING_LATE_ARRIVAL (Table 2.14). -/
def Reg.ingLateArrival (i : Nat) : Nat := 0x81030 + 0x80 * i
/-- ING_LATE_ARRIVAL.COUNT, RO. -/
def Fld.ingLateArrivalCount : Fld := ⟨0, 32⟩

/-- ING_TAG_AHEAD (Table 2.14). -/
def Reg.ingTagAhead (i : Nat) : Nat := 0x81034 + 0x80 * i
/-- ING_TAG_AHEAD.COUNT, RO. -/
def Fld.ingTagAheadCount : Fld := ⟨0, 32⟩

/-- ING_BURST_BROKEN (Table 2.14). -/
def Reg.ingBurstBroken (i : Nat) : Nat := 0x81038 + 0x80 * i
/-- ING_BURST_BROKEN.COUNT, RO. -/
def Fld.ingBurstBrokenCount : Fld := ⟨0, 32⟩

/-- ING_BURST_LOST (Table 2.14). -/
def Reg.ingBurstLost (i : Nat) : Nat := 0x8103C + 0x80 * i
/-- ING_BURST_LOST.COUNT, RO. -/
def Fld.ingBurstLostCount : Fld := ⟨0, 32⟩

/-- ING_ORPHAN (Table 2.14). -/
def Reg.ingOrphan (i : Nat) : Nat := 0x81040 + 0x80 * i
/-- ING_ORPHAN.COUNT, RO. -/
def Fld.ingOrphanCount : Fld := ⟨0, 32⟩

/-- ING_DUP (Table 2.14). -/
def Reg.ingDup (i : Nat) : Nat := 0x81044 + 0x80 * i
/-- ING_DUP.COUNT, RO. -/
def Fld.ingDupCount : Fld := ⟨0, 32⟩

/-- ING_CTRL_UNKNOWN (Table 2.14). -/
def Reg.ingCtrlUnknown (i : Nat) : Nat := 0x81048 + 0x80 * i
/-- ING_CTRL_UNKNOWN.COUNT, RO. -/
def Fld.ingCtrlUnknownCount : Fld := ⟨0, 32⟩

/-- ING_TRIES (Table 2.14). -/
def Reg.ingTries (i : Nat) : Nat := 0x8104C + 0x80 * i
/-- ING_TRIES.COUNT, RO. -/
def Fld.ingTriesCount : Fld := ⟨0, 32⟩

/-- ING_CHMAP (Table 2.15). -/
def Reg.ingChmap (i : Nat) (j : Nat) : Nat := 0x90000 + 0x400 * i + 0x4 * j
/-- ING_CHMAP.DEV_CHANNEL, PR. -/
def Fld.ingChmapDevChannel : Fld := ⟨0, 13⟩
/-- ING_CHMAP.VALID, PR. -/
def Fld.ingChmapValid : Fld := ⟨13, 1⟩

/-- ING_INSERVICE_0 (Table 2.8). -/
def Reg.ingInservice0 : Nat := 0x80010
/-- ING_INSERVICE_0.LANES, RO. -/
def Fld.ingInservice0Lanes : Fld := ⟨0, 32⟩

/-- ING_INSERVICE_1 (Table 2.8). -/
def Reg.ingInservice1 : Nat := 0x80014
/-- ING_INSERVICE_1.LANES, RO. -/
def Fld.ingInservice1Lanes : Fld := ⟨0, 32⟩

/-- ING_DOWN_0 (Table 2.8). -/
def Reg.ingDown0 : Nat := 0x80018
/-- ING_DOWN_0.LANES, RO. -/
def Fld.ingDown0Lanes : Fld := ⟨0, 32⟩

/-- ING_DOWN_1 (Table 2.8). -/
def Reg.ingDown1 : Nat := 0x8001C
/-- ING_DOWN_1.LANES, RO. -/
def Fld.ingDown1Lanes : Fld := ⟨0, 32⟩

/-- ING_MISSING_EV (Table 2.8). -/
def Reg.ingMissingEv : Nat := 0x80020
/-- ING_MISSING_EV.COUNT, RO. -/
def Fld.ingMissingEvCount : Fld := ⟨0, 32⟩

/-! Block PRM -/

/-- PRM_PCFG (Table 3.9). -/
def Reg.prmPcfg (i : Nat) : Nat := 0xA1000 + 0x20 * i
/-- PRM_PCFG.TYPE, PR. -/
def Fld.prmPcfgType : Fld := ⟨0, 3⟩
/-- PRM_PCFG.POL, PR. -/
def Fld.prmPcfgPol : Fld := ⟨3, 2⟩
/-- PRM_PCFG.COMPARE, PR. -/
def Fld.prmPcfgCompare : Fld := ⟨5, 3⟩
/-- PRM_PCFG.HOLDOFF_MODE, LV. -/
def Fld.prmPcfgHoldoffMode : Fld := ⟨8, 2⟩
/-- PRM_PCFG.HOLDOFF_EV, LV. -/
def Fld.prmPcfgHoldoffEv : Fld := ⟨16, 8⟩

/-- PRM_PTHA (Table 3.9). -/
def Reg.prmPtha (i : Nat) : Nat := 0xA1004 + 0x20 * i
/-- PRM_PTHA.PTHA, LV. -/
def Fld.prmPthaPtha : Fld := ⟨0, 24⟩

/-- PRM_PTHB (Table 3.9). -/
def Reg.prmPthb (i : Nat) : Nat := 0xA1008 + 0x20 * i
/-- PRM_PTHB.PTHB, LV. -/
def Fld.prmPthbPthb : Fld := ⟨0, 24⟩

/-- PRM_PHYS (Table 3.9). -/
def Reg.prmPhys (i : Nat) : Nat := 0xA100C + 0x20 * i
/-- PRM_PHYS.PHYS, LV. -/
def Fld.prmPhysPhys : Fld := ⟨0, 24⟩

/-- PRM_PT1 (Table 3.9). -/
def Reg.prmPt1 (i : Nat) : Nat := 0xA1010 + 0x20 * i
/-- PRM_PT1.T1, LV. -/
def Fld.prmPt1T1 : Fld := ⟨0, 32⟩

/-- PRM_PT2 (Table 3.9). -/
def Reg.prmPt2 (i : Nat) : Nat := 0xA1014 + 0x20 * i
/-- PRM_PT2.T2, LV. -/
def Fld.prmPt2T2 : Fld := ⟨0, 32⟩

/-- PRM_PHOLD (Table 3.9). -/
def Reg.prmPhold (i : Nat) : Nat := 0xA1018 + 0x20 * i
/-- PRM_PHOLD.PHOLD, LV. -/
def Fld.prmPholdPhold : Fld := ⟨0, 32⟩

/-- PRM_USEL (Table 3.10). -/
def Reg.prmUsel (i : Nat) : Nat := 0xA4000 + 0x4 * i
/-- PRM_USEL.PROF0, PR. -/
def Fld.prmUselProf0 : Fld := ⟨0, 8⟩
/-- PRM_USEL.PROF1, PR. -/
def Fld.prmUselProf1 : Fld := ⟨8, 8⟩
/-- PRM_USEL.PROF2, PR. -/
def Fld.prmUselProf2 : Fld := ⟨16, 8⟩
/-- PRM_USEL.PROF3, PR. -/
def Fld.prmUselProf3 : Fld := ⟨24, 8⟩

/-- PRM_DEAD (Table 3.10). -/
def Reg.prmDead (i : Nat) : Nat := 0xAC000 + 0x4 * i
/-- PRM_DEAD.DEAD_NS, RO. -/
def Fld.prmDeadDeadNs : Fld := ⟨0, 21⟩

/-- PRM_UOFS (Table 3.10). -/
def Reg.prmUofs (i : Nat) : Nat := 0xB4000 + 0x4 * i
/-- PRM_UOFS.OFFSET, LV. -/
def Fld.prmUofsOffset : Fld := ⟨0, 24⟩

/-- PRM_TOKENS (Table 3.8). -/
def Reg.prmTokens : Nat := 0xA0000
/-- PRM_TOKENS.COUNT, RO. -/
def Fld.prmTokensCount : Fld := ⟨0, 32⟩

/-- PRM_HELD (Table 3.8). -/
def Reg.prmHeld : Nat := 0xA0004
/-- PRM_HELD.COUNT, RO. -/
def Fld.prmHeldCount : Fld := ⟨0, 32⟩

/-- PRM_CARRIED (Table 3.8). -/
def Reg.prmCarried : Nat := 0xA0008
/-- PRM_CARRIED.COUNT, RO. -/
def Fld.prmCarriedCount : Fld := ⟨0, 32⟩

/-- PRM_RESTARTS (Table 3.8). -/
def Reg.prmRestarts : Nat := 0xA000C
/-- PRM_RESTARTS.COUNT, RO. -/
def Fld.prmRestartsCount : Fld := ⟨0, 32⟩

/-- PRM_GAPS (Table 3.8). -/
def Reg.prmGaps : Nat := 0xA0010
/-- PRM_GAPS.COUNT, RO. -/
def Fld.prmGapsCount : Fld := ⟨0, 32⟩

/-- PRM_DEAD_SEQ (Table 3.8). -/
def Reg.prmDeadSeq : Nat := 0xA0014
/-- PRM_DEAD_SEQ.COUNT, RO. -/
def Fld.prmDeadSeqCount : Fld := ⟨0, 32⟩

/-- PRM_LAST_EFFECT (Table 3.8). -/
def Reg.prmLastEffect : Nat := 0xA0018
/-- PRM_LAST_EFFECT.COUNT, RO. -/
def Fld.prmLastEffectCount : Fld := ⟨0, 32⟩

/-- PRM_DISCARDED (Table 3.8). -/
def Reg.prmDiscarded : Nat := 0xA001C
/-- PRM_DISCARDED.COUNT, RO. -/
def Fld.prmDiscardedCount : Fld := ⟨0, 32⟩

/-! Block SCR -/

/-- SCR_CFG (Table 8.10). -/
def Reg.scrCfg : Nat := 0xC0000
/-- SCR_CFG.L_NS, PR. -/
def Fld.scrCfgLNs : Fld := ⟨0, 13⟩
/-- SCR_CFG.A_NS, PR. -/
def Fld.scrCfgANs : Fld := ⟨16, 13⟩

/-- SCR_TEV (Table 8.10). -/
def Reg.scrTev : Nat := 0xC0004
/-- SCR_TEV.TEV_NS, PR. -/
def Fld.scrTevTevNs : Fld := ⟨0, 17⟩

/-- SCR_STATE (Table 8.10). -/
def Reg.scrState : Nat := 0xC0008
/-- SCR_STATE.STATE, RO. -/
def Fld.scrStateState : Fld := ⟨0, 2⟩
/-- SCR_STATE.UNPROVEN, RO. -/
def Fld.scrStateUnproven : Fld := ⟨2, 1⟩

/-- SCR_GCFG (Table 8.10). -/
def Reg.scrGcfg : Nat := 0xC000C
/-- SCR_GCFG.GRP_MODE, PR. -/
def Fld.scrGcfgGrpMode : Fld := ⟨0, 1⟩
/-- SCR_GCFG.GRP_ABSENT, LV. -/
def Fld.scrGcfgGrpAbsent : Fld := ⟨1, 1⟩
/-- SCR_GCFG.GBUDGET_NS, PR. -/
def Fld.scrGcfgGbudgetNs : Fld := ⟨16, 13⟩

/-- SCR_RF_CFG (Table 8.10). -/
def Reg.scrRfCfg : Nat := 0xC0010
/-- SCR_RF_CFG.RF_ETHERTYPE, PR. -/
def Fld.scrRfCfgRfEthertype : Fld := ⟨0, 16⟩
/-- SCR_RF_CFG.RF_EN, PR. -/
def Fld.scrRfCfgRfEn : Fld := ⟨16, 1⟩
/-- SCR_RF_CFG.JUMBO, PR. -/
def Fld.scrRfCfgJumbo : Fld := ⟨17, 1⟩

/-- SCR_RF_DST_LO (Table 8.10). -/
def Reg.scrRfDstLo : Nat := 0xC0014
/-- SCR_RF_DST_LO.DST_LO, PR. -/
def Fld.scrRfDstLoDstLo : Fld := ⟨0, 32⟩

/-- SCR_RF_DST_HI (Table 8.10). -/
def Reg.scrRfDstHi : Nat := 0xC0018
/-- SCR_RF_DST_HI.DST_HI, PR. -/
def Fld.scrRfDstHiDstHi : Fld := ⟨0, 16⟩

/-- SCR_HEADROOM (Table 8.10). -/
def Reg.scrHeadroom : Nat := 0xC001C
/-- SCR_HEADROOM.MIN, RO. -/
def Fld.scrHeadroomMin : Fld := ⟨0, 24⟩

/-- SCR_HEADROOM_LAST (Table 8.10). -/
def Reg.scrHeadroomLast : Nat := 0xC0020
/-- SCR_HEADROOM_LAST.LAST, RO. -/
def Fld.scrHeadroomLastLast : Fld := ⟨0, 24⟩

/-- SCR_EVENTS (Table 8.11). -/
def Reg.scrEvents : Nat := 0xC0040
/-- SCR_EVENTS.COUNT, RO. -/
def Fld.scrEventsCount : Fld := ⟨0, 32⟩

/-- SCR_ACCEPTS (Table 8.11). -/
def Reg.scrAccepts : Nat := 0xC0044
/-- SCR_ACCEPTS.COUNT, RO. -/
def Fld.scrAcceptsCount : Fld := ⟨0, 32⟩

/-- SCR_NODEC (Table 8.11). -/
def Reg.scrNodec : Nat := 0xC0048
/-- SCR_NODEC.COUNT, RO. -/
def Fld.scrNodecCount : Fld := ⟨0, 32⟩

/-- SCR_LATE (Table 8.11). -/
def Reg.scrLate : Nat := 0xC004C
/-- SCR_LATE.COUNT, RO. -/
def Fld.scrLateCount : Fld := ⟨0, 32⟩

/-- SCR_DEGRADED (Table 8.11). -/
def Reg.scrDegraded : Nat := 0xC0050
/-- SCR_DEGRADED.COUNT, RO. -/
def Fld.scrDegradedCount : Fld := ⟨0, 32⟩

/-- SCR_SKEW_NOTICES (Table 8.11). -/
def Reg.scrSkewNotices : Nat := 0xC0054
/-- SCR_SKEW_NOTICES.COUNT, RO. -/
def Fld.scrSkewNoticesCount : Fld := ⟨0, 32⟩

/-- SCR_NOTICE_LATE (Table 8.11). -/
def Reg.scrNoticeLate : Nat := 0xC0058
/-- SCR_NOTICE_LATE.COUNT, RO. -/
def Fld.scrNoticeLateCount : Fld := ⟨0, 32⟩

/-- SCR_LATE_INPUTS (Table 8.11). -/
def Reg.scrLateInputs : Nat := 0xC005C
/-- SCR_LATE_INPUTS.COUNT, RO. -/
def Fld.scrLateInputsCount : Fld := ⟨0, 32⟩

/-- SCR_GRP_MISSED (Table 8.11). -/
def Reg.scrGrpMissed : Nat := 0xC0060
/-- SCR_GRP_MISSED.COUNT, RO. -/
def Fld.scrGrpMissedCount : Fld := ⟨0, 32⟩

/-- SCR_ABSENT (Table 8.11). -/
def Reg.scrAbsent : Nat := 0xC0064
/-- SCR_ABSENT.COUNT, RO. -/
def Fld.scrAbsentCount : Fld := ⟨0, 32⟩

/-- SCR_RF_SENT (Table 8.11). -/
def Reg.scrRfSent : Nat := 0xC0068
/-- SCR_RF_SENT.COUNT, RO. -/
def Fld.scrRfSentCount : Fld := ⟨0, 32⟩

/-- SCR_RF_UNSENT (Table 8.11). -/
def Reg.scrRfUnsent : Nat := 0xC006C
/-- SCR_RF_UNSENT.COUNT, RO. -/
def Fld.scrRfUnsentCount : Fld := ⟨0, 32⟩

/-- SCR_DEC (Table 8.12). -/
def Reg.scrDec (i : Nat) : Nat := 0xC0100 + 0x4 * i
/-- SCR_DEC.SRC, PR. -/
def Fld.scrDecSrc : Fld := ⟨0, 3⟩
/-- SCR_DEC.INVERT, PR. -/
def Fld.scrDecInvert : Fld := ⟨3, 1⟩
/-- SCR_DEC.WIDTH_NS, PR. -/
def Fld.scrDecWidthNs : Fld := ⟨4, 8⟩

/-- SCR_CTXSEL (Table 8.12). -/
def Reg.scrCtxsel (i : Nat) : Nat := 0xC0200 + 0x4 * i
/-- SCR_CTXSEL.TARGET, LV. -/
def Fld.scrCtxselTarget : Fld := ⟨0, 2⟩
/-- SCR_CTXSEL.ACTIVE, RO. -/
def Fld.scrCtxselActive : Fld := ⟨2, 2⟩
/-- SCR_CTXSEL.PENDING, RO. -/
def Fld.scrCtxselPending : Fld := ⟨4, 1⟩
/-- SCR_CTXSEL.USED, PR. -/
def Fld.scrCtxselUsed : Fld := ⟨5, 1⟩

/-- SCR_INPUT (Table 8.13). -/
def Reg.scrInput (i : Nat) : Nat := 0xC4000 + 0x4 * i
/-- SCR_INPUT.EN, PR. -/
def Fld.scrInputEn : Fld := ⟨0, 1⟩
/-- SCR_INPUT.FP32, PR. -/
def Fld.scrInputFp32 : Fld := ⟨1, 1⟩
/-- SCR_INPUT.PRIM, PR. -/
def Fld.scrInputPrim : Fld := ⟨2, 1⟩
/-- SCR_INPUT.DGROUP, PR. -/
def Fld.scrInputDgroup : Fld := ⟨4, 8⟩
/-- SCR_INPUT.UNIT, PR. -/
def Fld.scrInputUnit : Fld := ⟨12, 13⟩
/-- SCR_INPUT.PSLOT, PR. -/
def Fld.scrInputPslot : Fld := ⟨25, 2⟩
/-- SCR_INPUT.PFIELD, PR. -/
def Fld.scrInputPfield : Fld := ⟨27, 2⟩

/-- SCR_LAST_EFFECT (Table 8.9). -/
def Reg.scrLastEffect : Nat := 0xC0024
/-- SCR_LAST_EFFECT.EVENT, RO. -/
def Fld.scrLastEffectEvent : Fld := ⟨0, 32⟩

/-- SCR_DGROUP (Table 8.9). -/
def Reg.scrDgroup (i : Nat) (j : Nat) : Nat := 0xC8000 + 0x80 * i + 0x4 * j
/-- SCR_DGROUP.CORES, PR. -/
def Fld.scrDgroupCores : Fld := ⟨0, 32⟩

/-! Block HWK -/

/-- HWK_RCFG (Table 3.12). -/
def Reg.hwkRcfg (i : Nat) : Nat := 0xD1000 + 0x100 * i
/-- HWK_RCFG.ENABLE, PR. -/
def Fld.hwkRcfgEnable : Fld := ⟨0, 1⟩
/-- HWK_RCFG.MODE, PR. -/
def Fld.hwkRcfgMode : Fld := ⟨1, 1⟩

/-- HWK_RBASE (Table 3.12). -/
def Reg.hwkRbase (i : Nat) : Nat := 0xD1004 + 0x100 * i
/-- HWK_RBASE.STACK, PR. -/
def Fld.hwkRbaseStack : Fld := ⟨0, 4⟩
/-- HWK_RBASE.BASE_64K, PR. -/
def Fld.hwkRbaseBase64k : Fld := ⟨4, 19⟩

/-- HWK_RSIZE (Table 3.12). -/
def Reg.hwkRsize (i : Nat) : Nat := 0xD1008 + 0x100 * i
/-- HWK_RSIZE.SIZE_64K, PR. -/
def Fld.hwkRsizeSize64k : Fld := ⟨0, 15⟩

/-- HWK_PRE (Table 3.12). -/
def Reg.hwkPre (i : Nat) : Nat := 0xD100C + 0x100 * i
/-- HWK_PRE.HAWK_PRE, LV. -/
def Fld.hwkPreHawkPre : Fld := ⟨0, 32⟩

/-- HWK_POST (Table 3.12). -/
def Reg.hwkPost (i : Nat) : Nat := 0xD1010 + 0x100 * i
/-- HWK_POST.HAWK_POST, LV. -/
def Fld.hwkPostHawkPost : Fld := ⟨0, 32⟩

/-- HWK_CAP (Table 3.12). -/
def Reg.hwkCap (i : Nat) : Nat := 0xD1014 + 0x100 * i
/-- HWK_CAP.CAP, RO. -/
def Fld.hwkCapCap : Fld := ⟨0, 32⟩

/-- HWK_ROWB (Table 3.12). -/
def Reg.hwkRowb (i : Nat) : Nat := 0xD1018 + 0x100 * i
/-- HWK_ROWB.ROW_BYTES, RO. -/
def Fld.hwkRowbRowBytes : Fld := ⟨0, 16⟩
/-- HWK_ROWB.MEMBERS, RO. -/
def Fld.hwkRowbMembers : Fld := ⟨16, 14⟩

/-- HWK_FREE (Table 3.12). -/
def Reg.hwkFree (i : Nat) : Nat := 0xD101C + 0x100 * i
/-- HWK_FREE.FREE_WAIT_US, LV. -/
def Fld.hwkFreeFreeWaitUs : Fld := ⟨0, 16⟩
/-- HWK_FREE.FREE_MODE, LV. -/
def Fld.hwkFreeFreeMode : Fld := ⟨16, 1⟩

/-- HWK_OUTSTANDING (Table 3.12). -/
def Reg.hwkOutstanding (i : Nat) : Nat := 0xD1020 + 0x100 * i
/-- HWK_OUTSTANDING.COUNT, RO. -/
def Fld.hwkOutstandingCount : Fld := ⟨0, 5⟩

/-- HWK_CAPTURES (Table 3.12). -/
def Reg.hwkCaptures (i : Nat) : Nat := 0xD1024 + 0x100 * i
/-- HWK_CAPTURES.COUNT, RO. -/
def Fld.hwkCapturesCount : Fld := ⟨0, 32⟩

/-- HWK_TRUNC (Table 3.12). -/
def Reg.hwkTrunc (i : Nat) : Nat := 0xD1028 + 0x100 * i
/-- HWK_TRUNC.COUNT, RO. -/
def Fld.hwkTruncCount : Fld := ⟨0, 32⟩

/-- HWK_OVERRUN (Table 3.12). -/
def Reg.hwkOverrun (i : Nat) : Nat := 0xD102C + 0x100 * i
/-- HWK_OVERRUN.COUNT, RO. -/
def Fld.hwkOverrunCount : Fld := ⟨0, 32⟩

/-- HWK_BUSY (Table 3.12). -/
def Reg.hwkBusy (i : Nat) : Nat := 0xD1030 + 0x100 * i
/-- HWK_BUSY.COUNT, RO. -/
def Fld.hwkBusyCount : Fld := ⟨0, 32⟩

/-- HWK_PHASE (Table 3.12). -/
def Reg.hwkPhase (i : Nat) : Nat := 0xD1034 + 0x100 * i
/-- HWK_PHASE.COUNT, RO. -/
def Fld.hwkPhaseCount : Fld := ⟨0, 32⟩

/-- HWK_LATE_ARRIVAL (Table 3.12). -/
def Reg.hwkLateArrival (i : Nat) : Nat := 0xD1038 + 0x100 * i
/-- HWK_LATE_ARRIVAL.COUNT, RO. -/
def Fld.hwkLateArrivalCount : Fld := ⟨0, 32⟩

/-- HWK_SHORT_PRE (Table 3.12). -/
def Reg.hwkShortPre (i : Nat) : Nat := 0xD103C + 0x100 * i
/-- HWK_SHORT_PRE.COUNT, RO. -/
def Fld.hwkShortPreCount : Fld := ⟨0, 32⟩

/-- HWK_MEAS (Table 3.12). -/
def Reg.hwkMeas (i : Nat) (j : Nat) : Nat := 0xD1040 + 0x100 * i + 0x4 * j
/-- HWK_MEAS.CHANNEL, PR. -/
def Fld.hwkMeasChannel : Fld := ⟨0, 13⟩
/-- HWK_MEAS.EN, PR. -/
def Fld.hwkMeasEn : Fld := ⟨13, 1⟩
/-- HWK_MEAS.NEG, PR. -/
def Fld.hwkMeasNeg : Fld := ⟨14, 1⟩

/-- HWK_ENABLED_0 (Table 3.11). -/
def Reg.hwkEnabled0 : Nat := 0xD0000
/-- HWK_ENABLED_0.RINGS, RO. -/
def Fld.hwkEnabled0Rings : Fld := ⟨0, 32⟩

/-- HWK_ENABLED_1 (Table 3.11). -/
def Reg.hwkEnabled1 : Nat := 0xD0004
/-- HWK_ENABLED_1.RINGS, RO. -/
def Fld.hwkEnabled1Rings : Fld := ⟨0, 32⟩

/-- HWK_ROWS_DROPPED (Table 3.11). -/
def Reg.hwkRowsDropped : Nat := 0xD0008
/-- HWK_ROWS_DROPPED.COUNT, RO. -/
def Fld.hwkRowsDroppedCount : Fld := ⟨0, 32⟩

/-- HWK_CHRING (Table 3.11). -/
def Reg.hwkChring (i : Nat) : Nat := 0xD8000 + 0x4 * i
/-- HWK_CHRING.RING, PR. -/
def Fld.hwkChringRing : Fld := ⟨0, 6⟩
/-- HWK_CHRING.MEMBER, PR. -/
def Fld.hwkChringMember : Fld := ⟨6, 1⟩

/-! Block STP -/

/-- STP_ENTRIES (Table 3.13). -/
def Reg.stpEntries : Nat := 0xE0000
/-- STP_ENTRIES.COUNT, RO. -/
def Fld.stpEntriesCount : Fld := ⟨0, 32⟩

/-- STP_DROPPED (Table 3.13). -/
def Reg.stpDropped : Nat := 0xE0004
/-- STP_DROPPED.COUNT, RO. -/
def Fld.stpDroppedCount : Fld := ⟨0, 32⟩

/-- STP_KEEPS (Table 3.13). -/
def Reg.stpKeeps : Nat := 0xE0008
/-- STP_KEEPS.COUNT, RO. -/
def Fld.stpKeepsCount : Fld := ⟨0, 32⟩

/-- STP_RKEEP (Table 3.13). -/
def Reg.stpRkeep (i : Nat) : Nat := 0xE1000 + 0x40 * i
/-- STP_RKEEP.KEEP_NS, LV. -/
def Fld.stpRkeepKeepNs : Fld := ⟨0, 32⟩

/-- STP_RMODE (Table 3.13). -/
def Reg.stpRmode (i : Nat) : Nat := 0xE1004 + 0x40 * i
/-- STP_RMODE.KEEP_MODE, LV. -/
def Fld.stpRmodeKeepMode : Fld := ⟨0, 1⟩

/-- STP_RFILL (Table 3.13). -/
def Reg.stpRfill (i : Nat) : Nat := 0xE1008 + 0x40 * i
/-- STP_RFILL.PROTECTED, RO. -/
def Fld.stpRfillProtected : Fld := ⟨0, 32⟩

/-- STP_RENTRIES (Table 3.13). -/
def Reg.stpRentries (i : Nat) : Nat := 0xE100C + 0x40 * i
/-- STP_RENTRIES.ENTRIES, RO. -/
def Fld.stpRentriesEntries : Fld := ⟨0, 32⟩

/-- STP_DBAND (Table 3.13). -/
def Reg.stpDband (i : Nat) : Nat := 0xF0000 + 0x4 * i
/-- STP_DBAND.DEADBAND, LV. -/
def Fld.stpDbandDeadband : Fld := ⟨0, 24⟩

/-! Block MSH -/

/-- MSH_ID (Table 10.13). -/
def Reg.mshId : Nat := 0x100000
/-- MSH_ID.DEVICE_ID, RO. -/
def Fld.mshIdDeviceId : Fld := ⟨0, 6⟩
/-- MSH_ID.ANCHOR, PR. -/
def Fld.mshIdAnchor : Fld := ⟨6, 6⟩
/-- MSH_ID.IS_ANCHOR, RO. -/
def Fld.mshIdIsAnchor : Fld := ⟨12, 1⟩
/-- MSH_ID.DIAMETER, PR. -/
def Fld.mshIdDiameter : Fld := ⟨13, 6⟩
/-- MSH_ID.DETOUR_HOPS, PR. -/
def Fld.mshIdDetourHops : Fld := ⟨19, 3⟩

/-- MSH_TIMING (Table 10.13). -/
def Reg.mshTiming : Nat := 0x100004
/-- MSH_TIMING.FLIGHT_NS, PR. -/
def Fld.mshTimingFlightNs : Fld := ⟨0, 8⟩
/-- MSH_TIMING.Q_MAX, RO. -/
def Fld.mshTimingQMax : Fld := ⟨8, 8⟩
/-- MSH_TIMING.GMIN_NS, RO. -/
def Fld.mshTimingGminNs : Fld := ⟨16, 13⟩

/-- MP_CFG (Table 10.14). -/
def Reg.mpCfg (i : Nat) : Nat := 0x101000 + 0x400 * i
/-- MP_CFG.PARTNER_ID, PR. -/
def Fld.mpCfgPartnerId : Fld := ⟨0, 6⟩
/-- MP_CFG.PARTNER_PORT, PR. -/
def Fld.mpCfgPartnerPort : Fld := ⟨6, 3⟩
/-- MP_CFG.USED, PR. -/
def Fld.mpCfgUsed : Fld := ⟨9, 1⟩
/-- MP_CFG.STATE, RO. -/
def Fld.mpCfgState : Fld := ⟨10, 3⟩
/-- MP_CFG.LEAD, RO. -/
def Fld.mpCfgLead : Fld := ⟨13, 2⟩

/-- MP_HELLO_RX (Table 10.14). -/
def Reg.mpHelloRx (i : Nat) : Nat := 0x101004 + 0x400 * i
/-- MP_HELLO_RX.COUNT, RO. -/
def Fld.mpHelloRxCount : Fld := ⟨0, 32⟩

/-- MP_KEEP_LOSS (Table 10.14). -/
def Reg.mpKeepLoss (i : Nat) : Nat := 0x101008 + 0x400 * i
/-- MP_KEEP_LOSS.COUNT, RO. -/
def Fld.mpKeepLossCount : Fld := ⟨0, 32⟩

/-- MP_MISMATCH (Table 10.14). -/
def Reg.mpMismatch (i : Nat) : Nat := 0x10100C + 0x400 * i
/-- MP_MISMATCH.COUNT, RO. -/
def Fld.mpMismatchCount : Fld := ⟨0, 32⟩

/-- MP_DOWNS (Table 10.14). -/
def Reg.mpDowns (i : Nat) : Nat := 0x101010 + 0x400 * i
/-- MP_DOWNS.COUNT, RO. -/
def Fld.mpDownsCount : Fld := ⟨0, 32⟩

/-- MSH_MEMBERS_LO (Table 10.12). -/
def Reg.mshMembersLo : Nat := 0x100008
/-- MSH_MEMBERS_LO.MASK, PR. -/
def Fld.mshMembersLoMask : Fld := ⟨0, 32⟩

/-- MSH_MEMBERS_HI (Table 10.12). -/
def Reg.mshMembersHi : Nat := 0x10000C
/-- MSH_MEMBERS_HI.MASK, PR. -/
def Fld.mshMembersHiMask : Fld := ⟨0, 32⟩

/-- MSH_TOPO_DIGEST (Table 10.12). -/
def Reg.mshTopoDigest : Nat := 0x100010
/-- MSH_TOPO_DIGEST.DIGEST, RO. -/
def Fld.mshTopoDigestDigest : Fld := ⟨0, 32⟩

/-- MSH_CONTRIB_TX (Table 10.12). -/
def Reg.mshContribTx : Nat := 0x100040
/-- MSH_CONTRIB_TX.COUNT, RO. -/
def Fld.mshContribTxCount : Fld := ⟨0, 32⟩

/-- MSH_CONTRIB_RX (Table 10.12). -/
def Reg.mshContribRx : Nat := 0x100044
/-- MSH_CONTRIB_RX.COUNT, RO. -/
def Fld.mshContribRxCount : Fld := ⟨0, 32⟩

/-- MSH_CONTRIB_LATE (Table 10.12). -/
def Reg.mshContribLate : Nat := 0x100048
/-- MSH_CONTRIB_LATE.COUNT, RO. -/
def Fld.mshContribLateCount : Fld := ⟨0, 32⟩

/-- MSH_DUP (Table 10.12). -/
def Reg.mshDup : Nat := 0x10004C
/-- MSH_DUP.COUNT, RO. -/
def Fld.mshDupCount : Fld := ⟨0, 32⟩

/-- MSH_DETOURS (Table 10.12). -/
def Reg.mshDetours : Nat := 0x100050
/-- MSH_DETOURS.COUNT, RO. -/
def Fld.mshDetoursCount : Fld := ⟨0, 32⟩

/-- MSH_DETOUR_DROP (Table 10.12). -/
def Reg.mshDetourDrop : Nat := 0x100054
/-- MSH_DETOUR_DROP.COUNT, RO. -/
def Fld.mshDetourDropCount : Fld := ⟨0, 32⟩

/-- MSH_HOST_DISCARD (Table 10.12). -/
def Reg.mshHostDiscard : Nat := 0x100058
/-- MSH_HOST_DISCARD.COUNT, RO. -/
def Fld.mshHostDiscardCount : Fld := ⟨0, 32⟩

/-- MSH_HOST_RESEND (Table 10.12). -/
def Reg.mshHostResend : Nat := 0x10005C
/-- MSH_HOST_RESEND.COUNT, RO. -/
def Fld.mshHostResendCount : Fld := ⟨0, 32⟩

/-- MSH_CONTRIB_BAD (Table 10.12). -/
def Reg.mshContribBad : Nat := 0x100060
/-- MSH_CONTRIB_BAD.COUNT, RO. -/
def Fld.mshContribBadCount : Fld := ⟨0, 32⟩

/-- MSH_FWD (Table 10.12). -/
def Reg.mshFwd (i : Nat) : Nat := 0x104000 + 0x4 * i
/-- MSH_FWD.PORTS, PR. -/
def Fld.mshFwdPorts : Fld := ⟨0, 6⟩

/-- MSH_ROUTE (Table 10.12). -/
def Reg.mshRoute (i : Nat) : Nat := 0x104100 + 0x4 * i
/-- MSH_ROUTE.PRIMARY, PR. -/
def Fld.mshRoutePrimary : Fld := ⟨0, 3⟩
/-- MSH_ROUTE.ALT, PR. -/
def Fld.mshRouteAlt : Fld := ⟨3, 3⟩
/-- MSH_ROUTE.IN_USE, RO. -/
def Fld.mshRouteInUse : Fld := ⟨6, 3⟩

/-! Block HST -/

/-- HST_LINK (Table 10.16). -/
def Reg.hstLink : Nat := 0x120000
/-- HST_LINK.RATE, RO. -/
def Fld.hstLinkRate : Fld := ⟨0, 3⟩
/-- HST_LINK.WIDTH, RO. -/
def Fld.hstLinkWidth : Fld := ⟨3, 3⟩
/-- HST_LINK.FLIT, RO. -/
def Fld.hstLinkFlit : Fld := ⟨6, 1⟩
/-- HST_LINK.D3HOT, RO. -/
def Fld.hstLinkD3hot : Fld := ⟨7, 1⟩
/-- HST_LINK.EPOCH, RO. -/
def Fld.hstLinkEpoch : Fld := ⟨8, 16⟩

/-- HST_POLL (Table 10.16). -/
def Reg.hstPoll : Nat := 0x120004
/-- HST_POLL.HST_POLL_NS, LV. -/
def Fld.hstPollHstPollNs : Fld := ⟨0, 20⟩

/-- HST_SUM (Table 10.16). -/
def Reg.hstSum : Nat := 0x120018
/-- HST_SUM.SUM_MASK, LV. -/
def Fld.hstSumSumMask : Fld := ⟨0, 4⟩
/-- HST_SUM.FLUSH_US, LV. -/
def Fld.hstSumFlushUs : Fld := ⟨16, 16⟩

/-- HR_CFG (Table 10.17). -/
def Reg.hrCfg (i : Nat) : Nat := 0x121000 + 0x40 * i
/-- HR_CFG.ENABLE, LV. -/
def Fld.hrCfgEnable : Fld := ⟨0, 1⟩
/-- HR_CFG.KIND, RW. -/
def Fld.hrCfgKind : Fld := ⟨1, 3⟩
/-- HR_CFG.IRQ_EN, RW. -/
def Fld.hrCfgIrqEn : Fld := ⟨4, 1⟩
/-- HR_CFG.VECTOR, RW. -/
def Fld.hrCfgVector : Fld := ⟨16, 11⟩

/-- HR_SIZE (Table 10.17). -/
def Reg.hrSize (i : Nat) : Nat := 0x121004 + 0x40 * i
/-- HR_SIZE.LOG2_N, RW. -/
def Fld.hrSizeLog2N : Fld := ⟨0, 5⟩

/-- HR_BASE_0 (Table 10.17). -/
def Reg.hrBase0 (i : Nat) : Nat := 0x121008 + 0x40 * i
/-- HR_BASE_0.BASE, RW. -/
def Fld.hrBase0Base : Fld := ⟨0, 32⟩

/-- HR_BASE_1 (Table 10.17). -/
def Reg.hrBase1 (i : Nat) : Nat := 0x12100C + 0x40 * i
/-- HR_BASE_1.BASE, RW. -/
def Fld.hrBase1Base : Fld := ⟨0, 32⟩

/-- HR_HOLD (Table 10.17). -/
def Reg.hrHold (i : Nat) : Nat := 0x121010 + 0x40 * i
/-- HR_HOLD.IRQ_HOLD_US, RW. -/
def Fld.hrHoldIrqHoldUs : Fld := ⟨0, 16⟩

/-- HR_STATE (Table 10.17). -/
def Reg.hrState (i : Nat) : Nat := 0x121014 + 0x40 * i
/-- HR_STATE.STATE, RO. -/
def Fld.hrStateState : Fld := ⟨0, 2⟩
/-- HR_STATE.CHAIN, RO. -/
def Fld.hrStateChain : Fld := ⟨2, 1⟩
/-- HR_STATE.ERR_CAUSE, RO. -/
def Fld.hrStateErrCause : Fld := ⟨3, 3⟩

/-- HR_PRODUCE (Table 10.17). -/
def Reg.hrProduce (i : Nat) : Nat := 0x121018 + 0x40 * i
/-- HR_PRODUCE.COUNT, RO. -/
def Fld.hrProduceCount : Fld := ⟨0, 32⟩

/-- HR_CONSUME (Table 10.17). -/
def Reg.hrConsume (i : Nat) : Nat := 0x12101C + 0x40 * i
/-- HR_CONSUME.COUNT, RO. -/
def Fld.hrConsumeCount : Fld := ⟨0, 32⟩

/-- HR_ERR_AT (Table 10.17). -/
def Reg.hrErrAt (i : Nat) : Nat := 0x121020 + 0x40 * i
/-- HR_ERR_AT.INDEX, RO. -/
def Fld.hrErrAtIndex : Fld := ⟨0, 32⟩

/-- HR_DELIVERED (Table 10.17). -/
def Reg.hrDelivered (i : Nat) : Nat := 0x121024 + 0x40 * i
/-- HR_DELIVERED.COUNT, RO. -/
def Fld.hrDeliveredCount : Fld := ⟨0, 32⟩

/-- HST_IDX_ADDR_LO (Table 10.15). -/
def Reg.hstIdxAddrLo : Nat := 0x120008
/-- HST_IDX_ADDR_LO.ADDR, RW. -/
def Fld.hstIdxAddrLoAddr : Fld := ⟨0, 32⟩

/-- HST_IDX_ADDR_HI (Table 10.15). -/
def Reg.hstIdxAddrHi : Nat := 0x12000C
/-- HST_IDX_ADDR_HI.ADDR, RW. -/
def Fld.hstIdxAddrHiAddr : Fld := ⟨0, 32⟩

/-- HST_STAT_ADDR_LO (Table 10.15). -/
def Reg.hstStatAddrLo : Nat := 0x120010
/-- HST_STAT_ADDR_LO.ADDR, RW. -/
def Fld.hstStatAddrLoAddr : Fld := ⟨0, 32⟩

/-- HST_STAT_ADDR_HI (Table 10.15). -/
def Reg.hstStatAddrHi : Nat := 0x120014
/-- HST_STAT_ADDR_HI.ADDR, RW. -/
def Fld.hstStatAddrHiAddr : Fld := ⟨0, 32⟩

/-- HST_RMAP_NC (Table 10.15). -/
def Reg.hstRmapNc : Nat := 0x12001C
/-- HST_RMAP_NC.RING, RW. -/
def Fld.hstRmapNcRing : Fld := ⟨0, 5⟩
/-- HST_RMAP_NC.VALID, RW. -/
def Fld.hstRmapNcValid : Fld := ⟨5, 1⟩

/-- HST_POLLS (Table 10.15). -/
def Reg.hstPolls : Nat := 0x120040
/-- HST_POLLS.COUNT, RO. -/
def Fld.hstPollsCount : Fld := ⟨0, 32⟩

/-- HST_POLL_FAIL (Table 10.15). -/
def Reg.hstPollFail : Nat := 0x120044
/-- HST_POLL_FAIL.COUNT, RO. -/
def Fld.hstPollFailCount : Fld := ⟨0, 32⟩

/-- HST_LATE_ARRIVAL (Table 10.15). -/
def Reg.hstLateArrival : Nat := 0x120048
/-- HST_LATE_ARRIVAL.COUNT, RO. -/
def Fld.hstLateArrivalCount : Fld := ⟨0, 32⟩

/-- HST_WIN_TIMEOUT (Table 10.15). -/
def Reg.hstWinTimeout : Nat := 0x12004C
/-- HST_WIN_TIMEOUT.COUNT, RO. -/
def Fld.hstWinTimeoutCount : Fld := ⟨0, 32⟩

/-- HST_WIN_UNREACH (Table 10.15). -/
def Reg.hstWinUnreach : Nat := 0x120050
/-- HST_WIN_UNREACH.COUNT, RO. -/
def Fld.hstWinUnreachCount : Fld := ⟨0, 32⟩

/-- HST_SUM_DROP (Table 10.15). -/
def Reg.hstSumDrop : Nat := 0x120054
/-- HST_SUM_DROP.COUNT, RO. -/
def Fld.hstSumDropCount : Fld := ⟨0, 32⟩

/-- HST_RING_ERRS (Table 10.15). -/
def Reg.hstRingErrs : Nat := 0x120058
/-- HST_RING_ERRS.COUNT, RO. -/
def Fld.hstRingErrsCount : Fld := ⟨0, 32⟩

/-- HST_IRQS (Table 10.15). -/
def Reg.hstIrqs : Nat := 0x12005C
/-- HST_IRQS.COUNT, RO. -/
def Fld.hstIrqsCount : Fld := ⟨0, 32⟩

/-- HST_RMAP (Table 10.15). -/
def Reg.hstRmap (i : Nat) : Nat := 0x122000 + 0x4 * i
/-- HST_RMAP.RING, RW. -/
def Fld.hstRmapRing : Fld := ⟨0, 5⟩
/-- HST_RMAP.VALID, RW. -/
def Fld.hstRmapValid : Fld := ⟨5, 1⟩

/-! Block REC -/

/-- REC_STAT (Table 10.18). -/
def Reg.recStat : Nat := 0x140000
/-- REC_STAT.UP, RO. -/
def Fld.recStatUp : Fld := ⟨0, 8⟩
/-- REC_STAT.FAILED, RO. -/
def Fld.recStatFailed : Fld := ⟨8, 8⟩
/-- REC_STAT.SPEED, RO. -/
def Fld.recStatSpeed : Fld := ⟨16, 2⟩

/-- REC_PAGES_TOTAL (Table 10.18). -/
def Reg.recPagesTotal : Nat := 0x140004
/-- REC_PAGES_TOTAL.PAGES, RO. -/
def Fld.recPagesTotalPages : Fld := ⟨0, 32⟩

/-- REC_PAGES_FREE (Table 10.18). -/
def Reg.recPagesFree : Nat := 0x140008
/-- REC_PAGES_FREE.PAGES, RO. -/
def Fld.recPagesFreePages : Fld := ⟨0, 32⟩

/-- REC_RETAIN (Table 10.18). -/
def Reg.recRetain : Nat := 0x14000C
/-- REC_RETAIN.RETENTION_S, LV. -/
def Fld.recRetainRetentionS : Fld := ⟨0, 16⟩

/-- REC_SUM_RESERVE (Table 10.18). -/
def Reg.recSumReserve : Nat := 0x140010
/-- REC_SUM_RESERVE.PAGES, PR. -/
def Fld.recSumReservePages : Fld := ⟨0, 32⟩

/-- REC_LOG_SIZE (Table 10.18). -/
def Reg.recLogSize : Nat := 0x140014
/-- REC_LOG_SIZE.PAGES, PR. -/
def Fld.recLogSizePages : Fld := ⟨0, 32⟩

/-- REC_HELD (Table 10.18). -/
def Reg.recHeld : Nat := 0x140018
/-- REC_HELD.RECORDS, RO. -/
def Fld.recHeldRecords : Fld := ⟨0, 32⟩

/-- REC_RECORDS (Table 10.18). -/
def Reg.recRecords : Nat := 0x140040
/-- REC_RECORDS.COUNT, RO. -/
def Fld.recRecordsCount : Fld := ⟨0, 32⟩

/-- REC_DROPPED (Table 10.18). -/
def Reg.recDropped : Nat := 0x140044
/-- REC_DROPPED.COUNT, RO. -/
def Fld.recDroppedCount : Fld := ⟨0, 32⟩

/-- REC_LOST (Table 10.18). -/
def Reg.recLost : Nat := 0x140048
/-- REC_LOST.COUNT, RO. -/
def Fld.recLostCount : Fld := ⟨0, 32⟩

/-- REC_EXPIRED (Table 10.18). -/
def Reg.recExpired : Nat := 0x14004C
/-- REC_EXPIRED.COUNT, RO. -/
def Fld.recExpiredCount : Fld := ⟨0, 32⟩

/-- REC_APPX_DROP (Table 10.18). -/
def Reg.recAppxDrop : Nat := 0x140050
/-- REC_APPX_DROP.COUNT, RO. -/
def Fld.recAppxDropCount : Fld := ⟨0, 32⟩

/-- REC_CE (Table 10.18). -/
def Reg.recCe : Nat := 0x140054
/-- REC_CE.COUNT, RO. -/
def Fld.recCeCount : Fld := ⟨0, 32⟩

/-- REC_UE (Table 10.18). -/
def Reg.recUe : Nat := 0x140058
/-- REC_UE.COUNT, RO. -/
def Fld.recUeCount : Fld := ⟨0, 32⟩

/-- REC_DELIVERED (Table 10.18). -/
def Reg.recDelivered : Nat := 0x14005C
/-- REC_DELIVERED.COUNT, RO. -/
def Fld.recDeliveredCount : Fld := ⟨0, 32⟩

/-- CH_STAT (Table 10.18). -/
def Reg.chStat (i : Nat) : Nat := 0x141000 + 0x40 * i
/-- CH_STAT.STATE, RO. -/
def Fld.chStatState : Fld := ⟨0, 3⟩
/-- CH_STAT.CAP_GIB, RO. -/
def Fld.chStatCapGib : Fld := ⟨16, 9⟩

/-- CH_CE (Table 10.18). -/
def Reg.chCe (i : Nat) : Nat := 0x141004 + 0x40 * i
/-- CH_CE.COUNT, RO. -/
def Fld.chCeCount : Fld := ⟨0, 32⟩

/-- CH_UE (Table 10.18). -/
def Reg.chUe (i : Nat) : Nat := 0x141008 + 0x40 * i
/-- CH_UE.COUNT, RO. -/
def Fld.chUeCount : Fld := ⟨0, 32⟩

/-- CH_TEMP (Table 10.18). -/
def Reg.chTemp (i : Nat) : Nat := 0x14100C + 0x40 * i
/-- CH_TEMP.DEG_C, RO. -/
def Fld.chTempDegC : Fld := ⟨0, 8⟩

/-! Block STK -/

/-- STK_SCFG (Table 6.14). -/
def Reg.stkScfg (i : Nat) : Nat := 0x161000 + 0x400 * i
/-- STK_SCFG.HEIGHT, RO. -/
def Fld.stkScfgHeight : Fld := ⟨0, 2⟩
/-- STK_SCFG.CAP24, RO. -/
def Fld.stkScfgCap24 : Fld := ⟨2, 1⟩
/-- STK_SCFG.STATE, RO. -/
def Fld.stkScfgState : Fld := ⟨3, 3⟩
/-- STK_SCFG.MIRROR_ACTIVE, RO. -/
def Fld.stkScfgMirrorActive : Fld := ⟨6, 1⟩

/-- STK_PLANSUM (Table 6.14). -/
def Reg.stkPlansum (i : Nat) : Nat := 0x161004 + 0x400 * i
/-- STK_PLANSUM.ROLLER_T, RO. -/
def Fld.stkPlansumRollerT : Fld := ⟨0, 8⟩
/-- STK_PLANSUM.ROLLER_F, RO. -/
def Fld.stkPlansumRollerF : Fld := ⟨8, 8⟩
/-- STK_PLANSUM.MIRROR, RO. -/
def Fld.stkPlansumMirror : Fld := ⟨16, 8⟩
/-- STK_PLANSUM.OPEN, RO. -/
def Fld.stkPlansumOpen : Fld := ⟨24, 8⟩

/-- STK_CE (Table 6.14). -/
def Reg.stkCe (i : Nat) : Nat := 0x161008 + 0x400 * i
/-- STK_CE.COUNT, RO. -/
def Fld.stkCeCount : Fld := ⟨0, 32⟩

/-- STK_UE (Table 6.14). -/
def Reg.stkUe (i : Nat) : Nat := 0x16100C + 0x400 * i
/-- STK_UE.COUNT, RO. -/
def Fld.stkUeCount : Fld := ⟨0, 32⟩

/-- STK_SCHED_COLL (Table 6.14). -/
def Reg.stkSchedColl (i : Nat) : Nat := 0x161010 + 0x400 * i
/-- STK_SCHED_COLL.COUNT, RO. -/
def Fld.stkSchedCollCount : Fld := ⟨0, 32⟩

/-- STK_STANDIN (Table 6.14). -/
def Reg.stkStandin (i : Nat) : Nat := 0x161014 + 0x400 * i
/-- STK_STANDIN.COUNT, RO. -/
def Fld.stkStandinCount : Fld := ⟨0, 32⟩

/-- STK_RING_WAIT (Table 6.14). -/
def Reg.stkRingWait (i : Nat) : Nat := 0x161018 + 0x400 * i
/-- STK_RING_WAIT.COUNT, RO. -/
def Fld.stkRingWaitCount : Fld := ⟨0, 32⟩

/-- STK_REFRESH_LATE (Table 6.14). -/
def Reg.stkRefreshLate (i : Nat) : Nat := 0x16101C + 0x400 * i
/-- STK_REFRESH_LATE.COUNT, RO. -/
def Fld.stkRefreshLateCount : Fld := ⟨0, 32⟩

/-- STK_PPR (Table 6.14). -/
def Reg.stkPpr (i : Nat) : Nat := 0x161020 + 0x400 * i
/-- STK_PPR.COUNT, RO. -/
def Fld.stkPprCount : Fld := ⟨0, 32⟩

/-- STK_BAD_UNITS (Table 6.14). -/
def Reg.stkBadUnits (i : Nat) : Nat := 0x161024 + 0x400 * i
/-- STK_BAD_UNITS.COUNT, RO. -/
def Fld.stkBadUnitsCount : Fld := ⟨0, 32⟩

/-- STK_TEMP (Table 6.14). -/
def Reg.stkTemp (i : Nat) : Nat := 0x161028 + 0x400 * i
/-- STK_TEMP.DEG_C, RO. -/
def Fld.stkTempDegC : Fld := ⟨0, 8⟩

/-- STK_AREA_LO (Table 6.14). -/
def Reg.stkAreaLo (i : Nat) (j : Nat) : Nat := 0x161100 + 0x400 * i + 0x8 * j
/-- STK_AREA_LO.KIND, PR. -/
def Fld.stkAreaLoKind : Fld := ⟨0, 3⟩
/-- STK_AREA_LO.BASE_64K, PR. -/
def Fld.stkAreaLoBase64k : Fld := ⟨4, 19⟩

/-- STK_AREA_HI (Table 6.14). -/
def Reg.stkAreaHi (i : Nat) (j : Nat) : Nat := 0x161104 + 0x400 * i + 0x8 * j
/-- STK_AREA_HI.SIZE_64K, PR. -/
def Fld.stkAreaHiSize64k : Fld := ⟨0, 19⟩
/-- STK_AREA_HI.PEER_STACK, PR. -/
def Fld.stkAreaHiPeerStack : Fld := ⟨19, 4⟩
/-- STK_AREA_HI.PEER_AREA, PR. -/
def Fld.stkAreaHiPeerArea : Fld := ⟨23, 5⟩

/-- STK_PLAN (Table 6.14). -/
def Reg.stkPlan (i : Nat) (j : Nat) : Nat := 0x161200 + 0x400 * i + 0x4 * j
/-- STK_PLAN.SLOTS, PR. -/
def Fld.stkPlanSlots : Fld := ⟨0, 32⟩

/-- DST_CFG (Table 6.16). -/
def Reg.dstCfg (i : Nat) : Nat := 0x164000 + 0x40 * i
/-- DST_CFG.E_P, PR. -/
def Fld.dstCfgEP : Fld := ⟨0, 6⟩
/-- DST_CFG.TIMED_STACK, PR. -/
def Fld.dstCfgTimedStack : Fld := ⟨6, 1⟩

/-- DST_PASSES (Table 6.16). -/
def Reg.dstPasses (i : Nat) : Nat := 0x164004 + 0x40 * i
/-- DST_PASSES.COUNT, RO. -/
def Fld.dstPassesCount : Fld := ⟨0, 32⟩

/-- DST_LATE_PASSES (Table 6.16). -/
def Reg.dstLatePasses (i : Nat) : Nat := 0x164008 + 0x40 * i
/-- DST_LATE_PASSES.COUNT, RO. -/
def Fld.dstLatePassesCount : Fld := ⟨0, 32⟩

/-- DST_LAST_EVENT (Table 6.16). -/
def Reg.dstLastEvent (i : Nat) : Nat := 0x16400C + 0x40 * i
/-- DST_LAST_EVENT.EVENT, RO. -/
def Fld.dstLastEventEvent : Fld := ⟨0, 32⟩

/-- STK_STAT (Table 6.13). -/
def Reg.stkStat : Nat := 0x160000
/-- STK_STAT.UP, RO. -/
def Fld.stkStatUp : Fld := ⟨0, 12⟩
/-- STK_STAT.FAILED, RO. -/
def Fld.stkStatFailed : Fld := ⟨12, 12⟩

/-- STK_GCFG (Table 6.13). -/
def Reg.stkGcfg : Nat := 0x160004
/-- STK_GCFG.STK_UE_LIMIT, PR. -/
def Fld.stkGcfgStkUeLimit : Fld := ⟨0, 8⟩

/-! Block FAB -/

/-- CL_STAT (Table 4.14). -/
def Reg.clStat (i : Nat) : Nat := 0x200000 + 0x20000 * i
/-- CL_STAT.ACTIVE_CORES, RO. -/
def Fld.clStatActiveCores : Fld := ⟨0, 5⟩
/-- CL_STAT.SHORT, RO. -/
def Fld.clStatShort : Fld := ⟨5, 1⟩
/-- CL_STAT.SCRIM_OK, RO. -/
def Fld.clStatScrimOk : Fld := ⟨6, 1⟩
/-- CL_STAT.STATS_OK, RO. -/
def Fld.clStatStatsOk : Fld := ⟨7, 1⟩
/-- CL_STAT.REPLACED, RO. -/
def Fld.clStatReplaced : Fld := ⟨8, 5⟩

/-- CL_PACE (Table 4.14). -/
def Reg.clPace (i : Nat) : Nat := 0x200004 + 0x20000 * i
/-- CL_PACE.PACE_MHZ, RO. -/
def Fld.clPacePaceMhz : Fld := ⟨0, 16⟩
/-- CL_PACE.PACE_MIN_MHZ, RO. -/
def Fld.clPacePaceMinMhz : Fld := ⟨16, 16⟩

/-- CL_CMEM_CE (Table 4.14). -/
def Reg.clCmemCe (i : Nat) : Nat := 0x200008 + 0x20000 * i
/-- CL_CMEM_CE.COUNT, RO. -/
def Fld.clCmemCeCount : Fld := ⟨0, 32⟩

/-- CL_CMEM_UE (Table 4.14). -/
def Reg.clCmemUe (i : Nat) : Nat := 0x20000C + 0x20000 * i
/-- CL_CMEM_UE.COUNT, RO. -/
def Fld.clCmemUeCount : Fld := ⟨0, 32⟩

/-- CL_STANDIN (Table 4.14). -/
def Reg.clStandin (i : Nat) : Nat := 0x200010 + 0x20000 * i
/-- CL_STANDIN.COUNT, RO. -/
def Fld.clStandinCount : Fld := ⟨0, 32⟩

/-- CL_TIME (Table 4.14). -/
def Reg.clTime (i : Nat) : Nat := 0x200014 + 0x20000 * i
/-- CL_TIME.NS, RO. -/
def Fld.clTimeNs : Fld := ⟨0, 32⟩

/-- CL_BANK (Table 4.14). -/
def Reg.clBank (i : Nat) (j : Nat) : Nat := 0x200100 + 0x20000 * i + 0x4 * j
/-- CL_BANK.SPARES_USED, RO. -/
def Fld.clBankSparesUsed : Fld := ⟨0, 4⟩
/-- CL_BANK.MAPPED_OUT, RO. -/
def Fld.clBankMappedOut : Fld := ⟨4, 1⟩

/-- DIE_STAT (Table 4.15). -/
def Reg.dieStat (i : Nat) : Nat := 0x21F000 + 0x200000 * i
/-- DIE_STAT.LINKS_UP, RO. -/
def Fld.dieStatLinksUp : Fld := ⟨0, 4⟩
/-- DIE_STAT.STACKS_UP, RO. -/
def Fld.dieStatStacksUp : Fld := ⟨4, 3⟩
/-- DIE_STAT.CLUSTERS_FULL, RO. -/
def Fld.dieStatClustersFull : Fld := ⟨8, 5⟩

/-- DIE_PACE_MIN (Table 4.15). -/
def Reg.diePaceMin (i : Nat) : Nat := 0x21F004 + 0x200000 * i
/-- DIE_PACE_MIN.PACE_MIN_MHZ, RO. -/
def Fld.diePaceMinPaceMinMhz : Fld := ⟨0, 16⟩

/-- DIE_LINK_CORR (Table 4.15). -/
def Reg.dieLinkCorr (i : Nat) (j : Nat) : Nat := 0x21F010 + 0x200000 * i + 0x8 * j
/-- DIE_LINK_CORR.COUNT, RO. -/
def Fld.dieLinkCorrCount : Fld := ⟨0, 32⟩

/-- DIE_LINK_UNCORR (Table 4.15). -/
def Reg.dieLinkUncorr (i : Nat) (j : Nat) : Nat := 0x21F014 + 0x200000 * i + 0x8 * j
/-- DIE_LINK_UNCORR.COUNT, RO. -/
def Fld.dieLinkUncorrCount : Fld := ⟨0, 32⟩

/-- DIE_STANDIN (Table 4.15). -/
def Reg.dieStandin (i : Nat) : Nat := 0x21F030 + 0x200000 * i
/-- DIE_STANDIN.COUNT, RO. -/
def Fld.dieStandinCount : Fld := ⟨0, 32⟩

/-- CO_STAT (Table 4.16). -/
def Reg.coStat (i : Nat) (j : Nat) : Nat := 0x201000 + 0x20000 * i + 0x1000 * j
/-- CO_STAT.STATE, RO. -/
def Fld.coStatState : Fld := ⟨0, 3⟩
/-- CO_STAT.SPARE_POS, RO. -/
def Fld.coStatSparePos : Fld := ⟨3, 1⟩
/-- CO_STAT.LOGICAL, RO. -/
def Fld.coStatLogical : Fld := ⟨4, 5⟩
/-- CO_STAT.FENCE_CAUSE, RO. -/
def Fld.coStatFenceCause : Fld := ⟨9, 3⟩

/-- CO_CTX (Table 4.16). -/
def Reg.coCtx (i : Nat) (j : Nat) : Nat := 0x201004 + 0x20000 * i + 0x1000 * j
/-- CO_CTX.ACTIVE, RO. -/
def Fld.coCtxActive : Fld := ⟨0, 2⟩
/-- CO_CTX.EPOCH, RO. -/
def Fld.coCtxEpoch : Fld := ⟨2, 2⟩
/-- CO_CTX.LOADED, RO. -/
def Fld.coCtxLoaded : Fld := ⟨4, 4⟩

/-- CO_SWITCHES (Table 4.16). -/
def Reg.coSwitches (i : Nat) (j : Nat) : Nat := 0x201008 + 0x20000 * i + 0x1000 * j
/-- CO_SWITCHES.COUNT, RO. -/
def Fld.coSwitchesCount : Fld := ⟨0, 32⟩

/-- CO_STALE (Table 4.16). -/
def Reg.coStale (i : Nat) (j : Nat) : Nat := 0x20100C + 0x20000 * i + 0x1000 * j
/-- CO_STALE.COUNT, RO. -/
def Fld.coStaleCount : Fld := ⟨0, 32⟩

/-- CO_TIMED_OVF (Table 4.16). -/
def Reg.coTimedOvf (i : Nat) (j : Nat) : Nat := 0x201010 + 0x20000 * i + 0x1000 * j
/-- CO_TIMED_OVF.COUNT, RO. -/
def Fld.coTimedOvfCount : Fld := ⟨0, 32⟩

/-- CO_SCHED_COLL (Table 4.16). -/
def Reg.coSchedColl (i : Nat) (j : Nat) : Nat := 0x201014 + 0x20000 * i + 0x1000 * j
/-- CO_SCHED_COLL.COUNT, RO. -/
def Fld.coSchedCollCount : Fld := ⟨0, 32⟩

/-- CO_SKEW (Table 4.16). -/
def Reg.coSkew (i : Nat) (j : Nat) : Nat := 0x201018 + 0x20000 * i + 0x1000 * j
/-- CO_SKEW.COUNT, RO. -/
def Fld.coSkewCount : Fld := ⟨0, 32⟩

/-- CO_WS_CE (Table 4.16). -/
def Reg.coWsCe (i : Nat) (j : Nat) : Nat := 0x20101C + 0x20000 * i + 0x1000 * j
/-- CO_WS_CE.COUNT, RO. -/
def Fld.coWsCeCount : Fld := ⟨0, 32⟩

/-- CO_WS_UE (Table 4.16). -/
def Reg.coWsUe (i : Nat) (j : Nat) : Nat := 0x201020 + 0x20000 * i + 0x1000 * j
/-- CO_WS_UE.COUNT, RO. -/
def Fld.coWsUeCount : Fld := ⟨0, 32⟩

/-- CO_WS_SPARE (Table 4.16). -/
def Reg.coWsSpare (i : Nat) (j : Nat) : Nat := 0x201024 + 0x20000 * i + 0x1000 * j
/-- CO_WS_SPARE.USED, RO. -/
def Fld.coWsSpareUsed : Fld := ⟨0, 32⟩

/-- CO_STALL_LO (Table 4.16). -/
def Reg.coStallLo (i : Nat) (j : Nat) (k : Nat) : Nat := 0x201040 + 0x20000 * i + 0x1000 * j + 0x8 * k
/-- CO_STALL_LO.COUNT, RO. -/
def Fld.coStallLoCount : Fld := ⟨0, 32⟩

/-- CO_STALL_HI (Table 4.16). -/
def Reg.coStallHi (i : Nat) (j : Nat) (k : Nat) : Nat := 0x201044 + 0x20000 * i + 0x1000 * j + 0x8 * k
/-- CO_STALL_HI.COUNT, RO. -/
def Fld.coStallHiCount : Fld := ⟨0, 32⟩

/-- CO_OPS_LO (Table 4.16). -/
def Reg.coOpsLo (i : Nat) (j : Nat) : Nat := 0x201080 + 0x20000 * i + 0x1000 * j
/-- CO_OPS_LO.COUNT, RO. -/
def Fld.coOpsLoCount : Fld := ⟨0, 32⟩

/-- CO_OPS_HI (Table 4.16). -/
def Reg.coOpsHi (i : Nat) (j : Nat) : Nat := 0x201084 + 0x20000 * i + 0x1000 * j
/-- CO_OPS_HI.COUNT, RO. -/
def Fld.coOpsHiCount : Fld := ⟨0, 32⟩

/-- ENG_STAT (Table 4.17). -/
def Reg.engStat (i : Nat) (j : Nat) (k : Nat) : Nat := 0x201100 + 0x20000 * i + 0x1000 * j + 0x4 * k
/-- ENG_STAT.TEST_FAIL, RO. -/
def Fld.engStatTestFail : Fld := ⟨0, 1⟩
/-- ENG_STAT.IQ0_FILL, RO. -/
def Fld.engStatIq0Fill : Fld := ⟨1, 4⟩
/-- ENG_STAT.IQ1_FILL, RO. -/
def Fld.engStatIq1Fill : Fld := ⟨5, 4⟩
/-- ENG_STAT.CLASS, RO. -/
def Fld.engStatClass : Fld := ⟨9, 4⟩

/-- DRP_CFG (Table 5.11). -/
def Reg.drpCfg (i : Nat) : Nat := 0x200400 + 0x20000 * i
/-- DRP_CFG.DRIP_WAIT_NS, PR. -/
def Fld.drpCfgDripWaitNs : Fld := ⟨0, 16⟩
/-- DRP_CFG.DRIP_EN, PR. -/
def Fld.drpCfgDripEn : Fld := ⟨16, 1⟩

/-- DRP_AREA (Table 5.11). -/
def Reg.drpArea (i : Nat) : Nat := 0x200404 + 0x20000 * i
/-- DRP_AREA.STACK, PR. -/
def Fld.drpAreaStack : Fld := ⟨0, 4⟩
/-- DRP_AREA.BASE_64K, PR. -/
def Fld.drpAreaBase64k : Fld := ⟨4, 19⟩

/-- DRP_ASIZE (Table 5.11). -/
def Reg.drpAsize (i : Nat) : Nat := 0x200408 + 0x20000 * i
/-- DRP_ASIZE.SIZE_64K, PR. -/
def Fld.drpAsizeSize64k : Fld := ⟨0, 15⟩

/-- DRP_SPILLS (Table 5.11). -/
def Reg.drpSpills (i : Nat) : Nat := 0x20040C + 0x20000 * i
/-- DRP_SPILLS.COUNT, RO. -/
def Fld.drpSpillsCount : Fld := ⟨0, 32⟩

/-- DRP_TOKENS (Table 5.11). -/
def Reg.drpTokens (i : Nat) : Nat := 0x200410 + 0x20000 * i
/-- DRP_TOKENS.COUNT, RO. -/
def Fld.drpTokensCount : Fld := ⟨0, 32⟩

/-- DRP_OPEN (Table 5.11). -/
def Reg.drpOpen (i : Nat) : Nat := 0x200414 + 0x20000 * i
/-- DRP_OPEN.OPEN, RO. -/
def Fld.drpOpenOpen : Fld := ⟨0, 3⟩

/-- DRP_USED (Table 5.11). -/
def Reg.drpUsed (i : Nat) : Nat := 0x200418 + 0x20000 * i
/-- DRP_USED.TOKENS, RO. -/
def Fld.drpUsedTokens : Fld := ⟨0, 32⟩

/-- DRP_FULL (Table 5.11). -/
def Reg.drpFull (i : Nat) : Nat := 0x20041C + 0x20000 * i
/-- DRP_FULL.COUNT, RO. -/
def Fld.drpFullCount : Fld := ⟨0, 32⟩

/-- DRP_LATE_ARRIVAL (Table 5.11). -/
def Reg.drpLateArrival (i : Nat) : Nat := 0x200420 + 0x20000 * i
/-- DRP_LATE_ARRIVAL.COUNT, RO. -/
def Fld.drpLateArrivalCount : Fld := ⟨0, 32⟩

/-- DRP_FAIL (Table 5.11). -/
def Reg.drpFail (i : Nat) : Nat := 0x200424 + 0x20000 * i
/-- DRP_FAIL.COUNT, RO. -/
def Fld.drpFailCount : Fld := ⟨0, 32⟩

/-- CRL_BOUND_TOTAL (Table 5.11). -/
def Reg.crlBoundTotal (i : Nat) : Nat := 0x200428 + 0x20000 * i
/-- CRL_BOUND_TOTAL.COUNT, RO. -/
def Fld.crlBoundTotalCount : Fld := ⟨0, 32⟩

/-- DRP_SET (Table 5.12). -/
def Reg.drpSet (i : Nat) (j : Nat) : Nat := 0x200500 + 0x20000 * i + 0x4 * j
/-- DRP_SET.EN, PR. -/
def Fld.drpSetEn : Fld := ⟨0, 1⟩
/-- DRP_SET.QUEUES, PR. -/
def Fld.drpSetQueues : Fld := ⟨1, 4⟩
/-- DRP_SET.BLOCKED, RO. -/
def Fld.drpSetBlocked : Fld := ⟨5, 1⟩
/-- DRP_SET.OPEN, RO. -/
def Fld.drpSetOpen : Fld := ⟨6, 1⟩
/-- DRP_SET.SPILLS, RO. -/
def Fld.drpSetSpills : Fld := ⟨16, 16⟩

/-- CRL_LOOP (Table 5.13). -/
def Reg.crlLoop (i : Nat) (j : Nat) : Nat := 0x200600 + 0x20000 * i + 0x8 * j
/-- CRL_LOOP.CORE, PR. -/
def Fld.crlLoopCore : Fld := ⟨0, 4⟩
/-- CRL_LOOP.CONTEXT, PR. -/
def Fld.crlLoopContext : Fld := ⟨4, 2⟩
/-- CRL_LOOP.COUNTER, PR. -/
def Fld.crlLoopCounter : Fld := ⟨6, 4⟩
/-- CRL_LOOP.BOUND, PR. -/
def Fld.crlLoopBound : Fld := ⟨10, 7⟩
/-- CRL_LOOP.EN, PR. -/
def Fld.crlLoopEn : Fld := ⟨17, 1⟩

/-- CRL_STAT (Table 5.13). -/
def Reg.crlStat (i : Nat) (j : Nat) : Nat := 0x200604 + 0x20000 * i + 0x8 * j
/-- CRL_STAT.AVAIL, RO. -/
def Fld.crlStatAvail : Fld := ⟨0, 7⟩
/-- CRL_STAT.EXCEEDED, RO. -/
def Fld.crlStatExceeded : Fld := ⟨16, 16⟩

/-! Block MENU -/

/-- MN_CTL (Table 8.14). -/
def Reg.mnCtl (i : Nat) : Nat := 0xA00000 + 0x40 * i
/-- MN_CTL.EN, PR. -/
def Fld.mnCtlEn : Fld := ⟨0, 1⟩
/-- MN_CTL.RATE_EN, PR. -/
def Fld.mnCtlRateEn : Fld := ⟨1, 1⟩
/-- MN_CTL.MASKED, LV. -/
def Fld.mnCtlMasked : Fld := ⟨2, 1⟩
/-- MN_CTL.OWNER_LOCK, PR. -/
def Fld.mnCtlOwnerLock : Fld := ⟨3, 1⟩
/-- MN_CTL.LATE_ACTION, LV. -/
def Fld.mnCtlLateAction : Fld := ⟨4, 2⟩
/-- MN_CTL.DEGR_MODE, LV. -/
def Fld.mnCtlDegrMode : Fld := ⟨6, 2⟩
/-- MN_CTL.HOLDOFF_MODE, LV. -/
def Fld.mnCtlHoldoffMode : Fld := ⟨8, 2⟩
/-- MN_CTL.HOLDOFF_EV, LV. -/
def Fld.mnCtlHoldoffEv : Fld := ⟨10, 8⟩
/-- MN_CTL.DEC, PR. -/
def Fld.mnCtlDec : Fld := ⟨18, 5⟩
/-- MN_CTL.DEC_EN, PR. -/
def Fld.mnCtlDecEn : Fld := ⟨23, 1⟩
/-- MN_CTL.PRIO, PR. -/
def Fld.mnCtlPrio : Fld := ⟨24, 8⟩

/-- MN_OWNER (Table 8.14). -/
def Reg.mnOwner (i : Nat) : Nat := 0xA00004 + 0x40 * i
/-- MN_OWNER.OWNER, PR. -/
def Fld.mnOwnerOwner : Fld := ⟨0, 12⟩

/-- MN_LUT (Table 8.14). -/
def Reg.mnLut (i : Nat) : Nat := 0xA00008 + 0x40 * i
/-- MN_LUT.LUT, PR. -/
def Fld.mnLutLut : Fld := ⟨0, 16⟩

/-- MN_TERM01 (Table 8.14). -/
def Reg.mnTerm01 (i : Nat) : Nat := 0xA0000C + 0x40 * i
/-- MN_TERM01.IN0, PR. -/
def Fld.mnTerm01In0 : Fld := ⟨0, 12⟩
/-- MN_TERM01.OP0, PR. -/
def Fld.mnTerm01Op0 : Fld := ⟨12, 3⟩
/-- MN_TERM01.IN1, PR. -/
def Fld.mnTerm01In1 : Fld := ⟨16, 12⟩
/-- MN_TERM01.OP1, PR. -/
def Fld.mnTerm01Op1 : Fld := ⟨28, 3⟩

/-- MN_TERM23 (Table 8.14). -/
def Reg.mnTerm23 (i : Nat) : Nat := 0xA00010 + 0x40 * i
/-- MN_TERM23.IN2, PR. -/
def Fld.mnTerm23In2 : Fld := ⟨0, 12⟩
/-- MN_TERM23.OP2, PR. -/
def Fld.mnTerm23Op2 : Fld := ⟨12, 3⟩
/-- MN_TERM23.IN3, PR. -/
def Fld.mnTerm23In3 : Fld := ⟨16, 12⟩
/-- MN_TERM23.OP3, PR. -/
def Fld.mnTerm23Op3 : Fld := ⟨28, 3⟩

/-- MN_THR (Table 8.14). -/
def Reg.mnThr (i : Nat) (j : Nat) : Nat := 0xA00014 + 0x40 * i + 0x4 * j
/-- MN_THR.THR, LV. -/
def Fld.mnThrThr : Fld := ⟨0, 32⟩

/-- MN_PRESCALE (Table 8.14). -/
def Reg.mnPrescale (i : Nat) : Nat := 0xA00024 + 0x40 * i
/-- MN_PRESCALE.PRESCALE, LV. -/
def Fld.mnPrescalePrescale : Fld := ⟨0, 24⟩

/-- MN_HOLDNS (Table 8.14). -/
def Reg.mnHoldns (i : Nat) : Nat := 0xA00028 + 0x40 * i
/-- MN_HOLDNS.HOLD_NS, LV. -/
def Fld.mnHoldnsHoldNs : Fld := ⟨0, 32⟩

/-- MN_CAP_LO (Table 8.14). -/
def Reg.mnCapLo (i : Nat) : Nat := 0xA0002C + 0x40 * i
/-- MN_CAP_LO.CAP_LO, PR. -/
def Fld.mnCapLoCapLo : Fld := ⟨0, 32⟩

/-- MN_CAP_HI (Table 8.14). -/
def Reg.mnCapHi (i : Nat) : Nat := 0xA00030 + 0x40 * i
/-- MN_CAP_HI.CAP_HI, PR. -/
def Fld.mnCapHiCapHi : Fld := ⟨0, 32⟩

/-- MN_STAT (Table 8.14). -/
def Reg.mnStat (i : Nat) : Nat := 0xA00034 + 0x40 * i
/-- MN_STAT.DEGRADED, RO. -/
def Fld.mnStatDegraded : Fld := ⟨0, 1⟩
/-- MN_STAT.IN_HOLDOFF, RO. -/
def Fld.mnStatInHoldoff : Fld := ⟨1, 1⟩
/-- MN_STAT.PS_COUNT, RO. -/
def Fld.mnStatPsCount : Fld := ⟨2, 24⟩

/-- MN_ACCEPTS (Table 8.14). -/
def Reg.mnAccepts (i : Nat) : Nat := 0xA00038 + 0x40 * i
/-- MN_ACCEPTS.COUNT, RO. -/
def Fld.mnAcceptsCount : Fld := ⟨0, 32⟩

/-- MN_HITS (Table 8.14). -/
def Reg.mnHits (i : Nat) : Nat := 0xA0003C + 0x40 * i
/-- MN_HITS.COUNT, RO. -/
def Fld.mnHitsCount : Fld := ⟨0, 32⟩

/-! Block NUM -/

/-- NUM_SAT (Table 7.9). -/
def Reg.numSat (i : Nat) : Nat := 0xC00000 + 0x10000 * i
/-- NUM_SAT.COUNT, RO. -/
def Fld.numSatCount : Fld := ⟨0, 32⟩

/-- NUM_NAN_IN (Table 7.9). -/
def Reg.numNanIn (i : Nat) : Nat := 0xC00004 + 0x10000 * i
/-- NUM_NAN_IN.COUNT, RO. -/
def Fld.numNanInCount : Fld := ⟨0, 32⟩

/-- NUM_ACC_SAT (Table 7.9). -/
def Reg.numAccSat (i : Nat) : Nat := 0xC00008 + 0x10000 * i
/-- NUM_ACC_SAT.COUNT, RO. -/
def Fld.numAccSatCount : Fld := ⟨0, 32⟩

/-- NUM_RISES (Table 7.9). -/
def Reg.numRises (i : Nat) : Nat := 0xC0000C + 0x10000 * i
/-- NUM_RISES.COUNT, RO. -/
def Fld.numRisesCount : Fld := ⟨0, 32⟩

/-- NUM_FALLS (Table 7.9). -/
def Reg.numFalls (i : Nat) : Nat := 0xC00010 + 0x10000 * i
/-- NUM_FALLS.COUNT, RO. -/
def Fld.numFallsCount : Fld := ⟨0, 32⟩

/-- NUM_CLAMP (Table 7.9). -/
def Reg.numClamp (i : Nat) : Nat := 0xC00014 + 0x10000 * i
/-- NUM_CLAMP.COUNT, RO. -/
def Fld.numClampCount : Fld := ⟨0, 32⟩

/-- NUM_STAT_LATE (Table 7.9). -/
def Reg.numStatLate (i : Nat) : Nat := 0xC00018 + 0x10000 * i
/-- NUM_STAT_LATE.COUNT, RO. -/
def Fld.numStatLateCount : Fld := ⟨0, 32⟩

/-- NUM_PROMOTIONS (Table 7.9). -/
def Reg.numPromotions (i : Nat) : Nat := 0xC0001C + 0x10000 * i
/-- NUM_PROMOTIONS.COUNT, RO. -/
def Fld.numPromotionsCount : Fld := ⟨0, 32⟩

/-- NUM_SEG_FAULT (Table 7.9). -/
def Reg.numSegFault (i : Nat) : Nat := 0xC00020 + 0x10000 * i
/-- NUM_SEG_FAULT.COUNT, RO. -/
def Fld.numSegFaultCount : Fld := ⟨0, 32⟩

/-- NUM_CWIN (Table 7.9). -/
def Reg.numCwin (i : Nat) : Nat := 0xC00024 + 0x10000 * i
/-- NUM_CWIN.CWIN_STEPS, PR. -/
def Fld.numCwinCwinSteps : Fld := ⟨0, 16⟩

/-- NUM_SCRIM_OPS (Table 7.9). -/
def Reg.numScrimOps (i : Nat) : Nat := 0xC00200 + 0x10000 * i
/-- NUM_SCRIM_OPS.COUNT, RO. -/
def Fld.numScrimOpsCount : Fld := ⟨0, 32⟩

/-- NUM_SCRIM_CE (Table 7.9). -/
def Reg.numScrimCe (i : Nat) : Nat := 0xC00204 + 0x10000 * i
/-- NUM_SCRIM_CE.COUNT, RO. -/
def Fld.numScrimCeCount : Fld := ⟨0, 32⟩

/-- NUM_SCRIM_UE (Table 7.9). -/
def Reg.numScrimUe (i : Nat) : Nat := 0xC00208 + 0x10000 * i
/-- NUM_SCRIM_UE.COUNT, RO. -/
def Fld.numScrimUeCount : Fld := ⟨0, 32⟩

/-- NUM_RC_CFG (Table 7.10). -/
def Reg.numRcCfg (i : Nat) (j : Nat) : Nat := 0xC00100 + 0x10000 * i + 0x10 * j
/-- NUM_RC_CFG.FORMAT, PR. -/
def Fld.numRcCfgFormat : Fld := ⟨0, 4⟩
/-- NUM_RC_CFG.MODE, PR. -/
def Fld.numRcCfgMode : Fld := ⟨4, 1⟩
/-- NUM_RC_CFG.STEP_KIND, PR. -/
def Fld.numRcCfgStepKind : Fld := ⟨5, 1⟩
/-- NUM_RC_CFG.LAG, PR. -/
def Fld.numRcCfgLag : Fld := ⟨8, 6⟩

/-- NUM_RC_LIMITS (Table 7.10). -/
def Reg.numRcLimits (i : Nat) (j : Nat) : Nat := 0xC00104 + 0x10000 * i + 0x10 * j
/-- NUM_RC_LIMITS.SAT_LIMIT, LV. -/
def Fld.numRcLimitsSatLimit : Fld := ⟨0, 6⟩
/-- NUM_RC_LIMITS.SHRINK_STEPS, LV. -/
def Fld.numRcLimitsShrinkSteps : Fld := ⟨8, 8⟩

/-- NUM_ROW (Table 7.11). -/
def Reg.numRow (i : Nat) (j : Nat) : Nat := 0xC01000 + 0x10000 * i + 0x4 * j
/-- NUM_ROW.E, RO. -/
def Fld.numRowE : Fld := ⟨0, 8⟩
/-- NUM_ROW.CLASS, PR. -/
def Fld.numRowClass : Fld := ⟨8, 4⟩
/-- NUM_ROW.IN_USE, PR. -/
def Fld.numRowInUse : Fld := ⟨12, 1⟩
/-- NUM_ROW.MARKED, PR. -/
def Fld.numRowMarked : Fld := ⟨13, 3⟩
/-- NUM_ROW.PROMOTED, RO. -/
def Fld.numRowPromoted : Fld := ⟨16, 2⟩
/-- NUM_ROW.SHRINK, RO. -/
def Fld.numRowShrink : Fld := ⟨24, 8⟩

/-- NUM_RSTAT (Table 7.11). -/
def Reg.numRstat (i : Nat) (j : Nat) : Nat := 0xC05000 + 0x10000 * i + 0x4 * j
/-- NUM_RSTAT.MAXABS, RO. -/
def Fld.numRstatMaxabs : Fld := ⟨0, 24⟩
/-- NUM_RSTAT.SAT, RO. -/
def Fld.numRstatSat : Fld := ⟨24, 8⟩

/-- NUM_CSTAT (Table 7.12). -/
def Reg.numCstat (i : Nat) (j : Nat) : Nat := 0xC09000 + 0x10000 * i + 0x4 * j
/-- NUM_CSTAT.MAXABS, RO. -/
def Fld.numCstatMaxabs : Fld := ⟨0, 24⟩
/-- NUM_CSTAT.STREAK, RO. -/
def Fld.numCstatStreak : Fld := ⟨24, 4⟩
/-- NUM_CSTAT.SCRIM, RO. -/
def Fld.numCstatScrim : Fld := ⟨28, 1⟩

/-- NUM_CMAP (Table 7.12). -/
def Reg.numCmap (i : Nat) (j : Nat) : Nat := 0xC0B000 + 0x10000 * i + 0x4 * j
/-- NUM_CMAP.ROW, PR. -/
def Fld.numCmapRow : Fld := ⟨0, 12⟩
/-- NUM_CMAP.POS, PR. -/
def Fld.numCmapPos : Fld := ⟨12, 6⟩
/-- NUM_CMAP.EN, PR. -/
def Fld.numCmapEn : Fld := ⟨18, 1⟩

/-- NUM_GCFG (Table 7.13). -/
def Reg.numGcfg : Nat := 0xC0F000
/-- NUM_GCFG.ADAPT_EN, LV. -/
def Fld.numGcfgAdaptEn : Fld := ⟨0, 1⟩
/-- NUM_GCFG.SCALE_HOLD, LV. -/
def Fld.numGcfgScaleHold : Fld := ⟨1, 1⟩
/-- NUM_GCFG.PROV_APPENDIX, PR. -/
def Fld.numGcfgProvAppendix : Fld := ⟨2, 1⟩

/-- NUM_SCALE_EPOCH (Table 7.13). -/
def Reg.numScaleEpoch : Nat := 0xC0F004
/-- NUM_SCALE_EPOCH.COUNT, RO. -/
def Fld.numScaleEpochCount : Fld := ⟨0, 32⟩

/-- NUM_ADAPT_EPOCH (Table 7.13). -/
def Reg.numAdaptEpoch : Nat := 0xC0F008
/-- NUM_ADAPT_EPOCH.EPOCH, RO. -/
def Fld.numAdaptEpochEpoch : Fld := ⟨0, 32⟩

/-- NUM_SKEW_LATE (Table 7.13). -/
def Reg.numSkewLate : Nat := 0xC0F00C
/-- NUM_SKEW_LATE.COUNT, RO. -/
def Fld.numSkewLateCount : Fld := ⟨0, 32⟩

/-- NUM_PROMO_TOTAL (Table 7.13). -/
def Reg.numPromoTotal : Nat := 0xC0F010
/-- NUM_PROMO_TOTAL.COUNT, RO. -/
def Fld.numPromoTotalCount : Fld := ⟨0, 32⟩

/-- NUM_COMMIT_HELD (Table 7.13). -/
def Reg.numCommitHeld : Nat := 0xC0F014
/-- NUM_COMMIT_HELD.COUNT, RO. -/
def Fld.numCommitHeldCount : Fld := ⟨0, 32⟩

/-- NUM_PROVROWS (Table 7.13). -/
def Reg.numProvrows : Nat := 0xC0F018
/-- NUM_PROVROWS.COUNT, PR. -/
def Fld.numProvrowsCount : Fld := ⟨0, 9⟩

/-- NUM_ADAPT_DIGEST (Table 7.13). -/
def Reg.numAdaptDigest (i : Nat) : Nat := 0xC0F020 + 0x4 * i
/-- NUM_ADAPT_DIGEST.DIGEST, RO. -/
def Fld.numAdaptDigestDigest : Fld := ⟨0, 32⟩

/-- NUM_PROVROW (Table 7.13). -/
def Reg.numProvrow (i : Nat) : Nat := 0xC0F400 + 0x4 * i
/-- NUM_PROVROW.ROW, PR. -/
def Fld.numProvrowRow : Fld := ⟨0, 12⟩
/-- NUM_PROVROW.CLUSTER, PR. -/
def Fld.numProvrowCluster : Fld := ⟨12, 4⟩
/-- NUM_PROVROW.DIE, PR. -/
def Fld.numProvrowDie : Fld := ⟨16, 2⟩
/-- NUM_PROVROW.EN, PR. -/
def Fld.numProvrowEn : Fld := ⟨18, 1⟩

end Sys2Proof
end

