-- ==== Sys2Proof/Machine/RegTable.lean ====
section
/-!
DEFINITION. The register catalogue: for every register its reset word and which of its bits carry each access
code (R8 to R11, Tables 0.6 and 2.9 to 14.11), which policy classes it holds (Table 11.14) and its place
in a value that spans registers (R12).
-/

namespace Sys2Proof

/-- One register of the catalogue: its lowest address, its indices (count and stride, wide strides
first), its reset word, the bits of each access code, the policy classes of its LV fields, and its
place and the length of the value that spans registers. -/
structure RegRow where
  base : Nat
  dims : List (Nat × Nat)
  reset : Nat
  lv : Nat
  pr : Nat
  fu : Nat
  rw : Nat
  w1c : Nat
  cls : Nat
  pos : Nat
  len : Nat
  deriving DecidableEq, Repr

/-- Whether a remaining offset is an instant of the indices. -/
def dimsHit : List (Nat × Nat) → Nat → Bool
  | [], r => r == 0
  | (n, s) :: ds, r => decide (r / s < n) && dimsHit ds (r % s)

/-- Whether a row holds the register at address a. -/
def RegRow.hit (r : RegRow) (a : Nat) : Bool := decide (r.base ≤ a) && dimsHit r.dims (a - r.base)

/-- Registers of block GLB. -/
def rowsGlb : List RegRow := [
  -- GLB_ID
  ⟨0x0, [], 0x0, 0x0, 0x0, 0x0, 0x0, 0x0, 0x0, 0, 1⟩,
  -- GLB_STEPPING
  ⟨0x4, [], 0x0, 0x0, 0x0, 0x0, 0x0, 0x0, 0x0, 0, 1⟩,
  -- GLB_FITTED_LO
  ⟨0x10, [], 0x0, 0x0, 0x0, 0xFFFFFFFF, 0x0, 0x0, 0x0, 0, 2⟩,
  -- GLB_FITTED_HI
  ⟨0x14, [], 0x0, 0x0, 0x0, 0xFFFFFFFF, 0x0, 0x0, 0x0, 1, 2⟩,
  -- GLB_STATE
  ⟨0x8, [], 0x0, 0x0, 0x0, 0x0, 0x0, 0x0, 0x0, 0, 1⟩,
  -- GLB_HEALTH_GEN
  ⟨0xC, [], 0x0, 0x0, 0x0, 0x0, 0x0, 0x0, 0x0, 0, 1⟩,
  -- GLB_WEAR_CFG0
  ⟨0x20, [], 0xC0C0604, 0x0, 0xFFFFFFFF, 0x0, 0x0, 0x0, 0x0, 0, 1⟩,
  -- GLB_WEAR_CFG1
  ⟨0x24, [], 0x30410, 0x0, 0xFFFFFF, 0x0, 0x0, 0x0, 0x0, 0, 1⟩,
  -- GLB_WEAR_COUNT
  ⟨0x28, [], 0x0, 0x0, 0x0, 0x0, 0x0, 0x0, 0x0, 0, 1⟩,
  -- GLB_SECTION_FAIL
  ⟨0x2C, [], 0x0, 0x0, 0x0, 0x0, 0x0, 0x0, 0x0, 0, 1⟩,
  -- GLB_XDIE_CE
  ⟨0x30, [], 0x0, 0x0, 0x0, 0x0, 0x0, 0x0, 0x0, 0, 1⟩,
  -- GLB_XDIE_UE
  ⟨0x34, [], 0x0, 0x0, 0x0, 0x0, 0x0, 0x0, 0x0, 0, 1⟩,
  -- GLB_LINK_RETRAIN
  ⟨0x38, [], 0x0, 0x0, 0x0, 0x0, 0x0, 0x0, 0x0, 0, 1⟩,
  -- GLB_HMAP
  ⟨0x1000, [(1024, 0x4)], 0x0, 0x0, 0x0, 0x0, 0x0, 0x0, 0x0, 0, 1024⟩]

/-- Registers of block BOOT. -/
def rowsBoot : List RegRow := [
  -- BOOT_STAT
  ⟨0x10000, [], 0x31, 0x0, 0x0, 0x0, 0x0, 0x0, 0x0, 0, 1⟩,
  -- BOOT_REASON
  ⟨0x10004, [], 0x0, 0x0, 0x0, 0x0, 0x0, 0x0, 0x0, 0, 1⟩,
  -- BOOT_ELAPSED
  ⟨0x10008, [], 0x0, 0x0, 0x0, 0x0, 0x0, 0x0, 0x0, 0, 1⟩,
  -- BOOT_DIRSEQ
  ⟨0x1000C, [], 0x0, 0x0, 0x0, 0x0, 0x0, 0x0, 0x0, 0, 1⟩,
  -- BOOT_ROLLBACK
  ⟨0x10010, [], 0x0, 0x0, 0x0, 0x0, 0x0, 0x0, 0x0, 0, 1⟩,
  -- BOOT_POLICY_LO
  ⟨0x10014, [], 0x0, 0x0, 0x0, 0x0, 0x0, 0x0, 0x0, 0, 2⟩,
  -- BOOT_POLICY_HI
  ⟨0x10018, [], 0x0, 0x0, 0x0, 0x0, 0x0, 0x0, 0x0, 1, 2⟩,
  -- BOOT_SECTIONS
  ⟨0x1001C, [], 0x0, 0x0, 0x0, 0x0, 0x0, 0x0, 0x0, 0, 1⟩,
  -- BOOT_DIGEST
  ⟨0x10020, [(8, 0x4)], 0x0, 0x0, 0x0, 0x0, 0x0, 0x0, 0x0, 0, 8⟩,
  -- BOOT_BUILD
  ⟨0x10040, [(4, 0x4)], 0x0, 0x0, 0x0, 0x0, 0x0, 0x0, 0x0, 0, 4⟩]

/-- Registers of block UND. -/
def rowsUnd : List RegRow := [
  -- UND_FUSE
  ⟨0x20000, [(128, 0x4)], 0x0, 0x0, 0x0, 0xFFFFFFFF, 0x0, 0x0, 0x0, 0, 1⟩,
  -- UND_ATT_NONCE
  ⟨0x21000, [(8, 0x4)], 0x0, 0x0, 0x0, 0x0, 0xFFFFFFFF, 0x0, 0x0, 0, 8⟩,
  -- UND_ATT_CTL
  ⟨0x21020, [], 0x0, 0x0, 0x0, 0x0, 0x1, 0x0, 0x0, 0, 1⟩,
  -- UND_ATT_COUNT
  ⟨0x21024, [], 0x0, 0x0, 0x0, 0x0, 0x0, 0x0, 0x0, 0, 1⟩,
  -- UND_ATT_IGNORED
  ⟨0x21028, [], 0x0, 0x0, 0x0, 0x0, 0x0, 0x0, 0x0, 0, 1⟩,
  -- UND_DISAGREE
  ⟨0x2102C, [], 0x0, 0x0, 0x0, 0x0, 0x0, 0x0, 0x0, 0, 1⟩,
  -- UND_SERIAL_0
  ⟨0x21040, [], 0x0, 0x0, 0x0, 0x0, 0x0, 0x0, 0x0, 0, 2⟩,
  -- UND_SERIAL_1
  ⟨0x21044, [], 0x0, 0x0, 0x0, 0x0, 0x0, 0x0, 0x0, 1, 2⟩,
  -- UND_IDPUB
  ⟨0x21080, [(15, 0x4)], 0x0, 0x0, 0x0, 0x0, 0x0, 0x0, 0x0, 0, 15⟩,
  -- UND_ATT_REPORT
  ⟨0x21200, [(128, 0x4)], 0x0, 0x0, 0x0, 0x0, 0x0, 0x0, 0x0, 0, 128⟩]

/-- Registers of block LOG. -/
def rowsLog : List RegRow := [
  -- LOG_SEQ
  ⟨0x30000, [], 0x0, 0x0, 0x0, 0x0, 0x0, 0x0, 0x0, 0, 1⟩,
  -- LOG_TAG
  ⟨0x30004, [], 0x0, 0x0, 0x0, 0x0, 0x0, 0x0, 0x0, 0, 1⟩,
  -- LOG_CKPT
  ⟨0x30008, [], 0x0, 0x0, 0x0, 0x0, 0x0, 0x0, 0x0, 0, 1⟩,
  -- LOG_HELD
  ⟨0x3000C, [], 0x0, 0x0, 0x0, 0x0, 0x0, 0x0, 0x0, 0, 1⟩,
  -- LOG_MIRROR_HELD
  ⟨0x30010, [], 0x0, 0x0, 0x0, 0x0, 0x0, 0x0, 0x0, 0, 1⟩,
  -- LOG_HOSTTAG
  ⟨0x30014, [], 0x0, 0x0, 0x0, 0x0, 0x3F, 0x0, 0x0, 0, 1⟩,
  -- LOG_FWD
  ⟨0x30018, [], 0x1, 0x0, 0x0, 0x0, 0x0, 0x0, 0x0, 0, 1⟩,
  -- LOG_WRRESULT
  ⟨0x3001C, [], 0x0, 0x0, 0x0, 0x0, 0x0, 0x0, 0x0, 0, 1⟩,
  -- LOG_RIDX
  ⟨0x30020, [], 0x0, 0x0, 0x0, 0x0, 0xFFFFFF, 0x0, 0x0, 0, 1⟩,
  -- LOG_RSTAT
  ⟨0x30024, [], 0x0, 0x0, 0x0, 0x0, 0x0, 0x0, 0x0, 0, 1⟩,
  -- LOG_RDATA
  ⟨0x30040, [(8, 0x4)], 0x0, 0x0, 0x0, 0x0, 0x0, 0x0, 0x0, 0, 8⟩,
  -- LOG_ENTRIES
  ⟨0x30080, [], 0x0, 0x0, 0x0, 0x0, 0x0, 0x0, 0x0, 0, 1⟩,
  -- LOG_LOST
  ⟨0x30084, [], 0x0, 0x0, 0x0, 0x0, 0x0, 0x0, 0x0, 0, 1⟩,
  -- LOG_MIRROR_LOST
  ⟨0x30088, [], 0x0, 0x0, 0x0, 0x0, 0x0, 0x0, 0x0, 0, 1⟩,
  -- LOG_UNLOGGED
  ⟨0x3008C, [], 0x0, 0x0, 0x0, 0x0, 0x0, 0x0, 0x0, 0, 1⟩,
  -- LOG_REFUSALS
  ⟨0x30090, [], 0x0, 0x0, 0x0, 0x0, 0x0, 0x0, 0x0, 0, 1⟩,
  -- LOG_CKPT_SIG
  ⟨0x30100, [(30, 0x4)], 0x0, 0x0, 0x0, 0x0, 0x0, 0x0, 0x0, 0, 30⟩]

/-- Registers of block CLK. -/
def rowsClk : List RegRow := [
  -- CLK_STAT
  ⟨0x40000, [], 0x20, 0x0, 0x0, 0x0, 0x0, 0x0, 0x0, 0, 1⟩,
  -- CLK_CFG
  ⟨0x40004, [], 0x8, 0x0, 0x1F, 0x0, 0x0, 0x0, 0x0, 0, 1⟩,
  -- CLK_LOCK
  ⟨0x40008, [], 0x0, 0x0, 0x0, 0x0, 0x0, 0x0, 0x0, 0, 1⟩,
  -- CLK_LOSS
  ⟨0x4000C, [], 0x0, 0x0, 0x0, 0x0, 0x0, 0x3FFFF, 0x0, 0, 1⟩,
  -- CLK_FAILED
  ⟨0x40010, [], 0x0, 0x0, 0x0, 0x0, 0x0, 0x0, 0x0, 0, 1⟩,
  -- CLK_GATE
  ⟨0x40014, [], 0x0, 0xFFF, 0x0, 0x0, 0x0, 0x0, 0x800, 0, 1⟩,
  -- CLK_GATED
  ⟨0x40018, [], 0x0, 0x0, 0x0, 0x0, 0x0, 0x0, 0x0, 0, 1⟩,
  -- CLK_GATED_LINK
  ⟨0x4001C, [], 0x0, 0x0, 0x0, 0x0, 0x0, 0x0, 0x0, 0, 1⟩,
  -- CLK_FORCED
  ⟨0x40020, [], 0x0, 0x0, 0x0, 0x0, 0x0, 0x0, 0x0, 0, 1⟩,
  -- CLK_GATE_REFUSED
  ⟨0x40024, [], 0x0, 0x0, 0x0, 0x0, 0x0, 0x0, 0x0, 0, 1⟩,
  -- CLK_REF_LOSS
  ⟨0x40028, [], 0x0, 0x0, 0x0, 0x0, 0x0, 0x0, 0x0, 0, 1⟩,
  -- CLK_LATE_ARRIVAL
  ⟨0x4002C, [], 0x0, 0x0, 0x0, 0x0, 0x0, 0x0, 0x0, 0, 1⟩,
  -- CLK_RAMPS
  ⟨0x40030, [], 0x0, 0x0, 0x0, 0x0, 0x0, 0x0, 0x0, 0, 1⟩,
  -- AUX_CTL
  ⟨0x40040, [(2, 0x10)], 0x20019, 0x7FFFF, 0x0, 0x0, 0x0, 0x0, 0x800, 0, 1⟩,
  -- AUX_STAT
  ⟨0x40044, [(2, 0x10)], 0x19, 0x0, 0x0, 0x0, 0x0, 0x0, 0x0, 0, 1⟩]

/-- Registers of block PWR. -/
def rowsPwr : List RegRow := [
  -- PWR_STAT
  ⟨0x50000, [], 0x2EE, 0x0, 0x0, 0x0, 0x0, 0x0, 0x0, 0, 1⟩,
  -- PWR_PIN
  ⟨0x50004, [], 0x5DC, 0x7FF, 0x0, 0x0, 0x0, 0x0, 0x800, 0, 1⟩,
  -- PWR_TRACK
  ⟨0x50008, [], 0x2EE, 0x0, 0x3FF, 0x0, 0x0, 0x0, 0x0, 0, 1⟩,
  -- PWR_DIE
  ⟨0x50040, [(5, 0x4)], 0x0, 0x0, 0x0, 0x0, 0x0, 0x0, 0x0, 0, 1⟩,
  -- HMB_FL_ADDR
  ⟨0x58000, [], 0x0, 0x0, 0x0, 0x0, 0xFFFFFFFF, 0x0, 0x0, 0, 1⟩,
  -- HMB_FL_CTL
  ⟨0x58004, [], 0x0, 0x0, 0x0, 0x0, 0x7FF, 0x0, 0x0, 0, 1⟩,
  -- HMB_BAD_FRAME
  ⟨0x58008, [], 0x0, 0x0, 0x0, 0x0, 0x0, 0x0, 0x0, 0, 1⟩,
  -- HMB_FL_BUF
  ⟨0x58100, [(64, 0x4)], 0x0, 0x0, 0x0, 0x0, 0xFFFFFFFF, 0x0, 0x0, 0, 1⟩,
  -- PWR_DOM_ON_LO
  ⟨0x50010, [], 0x1, 0x0, 0x0, 0x0, 0x0, 0x0, 0x0, 0, 2⟩,
  -- PWR_DOM_ON_HI
  ⟨0x50014, [], 0x0, 0x0, 0x0, 0x0, 0x0, 0x0, 0x0, 1, 2⟩,
  -- PWR_RAISES
  ⟨0x50020, [], 0x0, 0x0, 0x0, 0x0, 0x0, 0x0, 0x0, 0, 1⟩,
  -- PWR_LOWERS
  ⟨0x50024, [], 0x0, 0x0, 0x0, 0x0, 0x0, 0x0, 0x0, 0, 1⟩,
  -- PWR_CEIL_EVENTS
  ⟨0x50028, [], 0x0, 0x0, 0x0, 0x0, 0x0, 0x0, 0x0, 0, 1⟩,
  -- PWR_PINNED_LOW
  ⟨0x5002C, [], 0x0, 0x0, 0x0, 0x0, 0x0, 0x0, 0x0, 0, 1⟩,
  -- PWR_WATTS
  ⟨0x50030, [], 0x0, 0x0, 0x0, 0x0, 0x0, 0x0, 0x0, 0, 1⟩]

/-- Registers of block TMS, part 1. -/
def rowsTms1 : List RegRow := [
  -- TMS_STAT
  ⟨0x60000, [], 0x0, 0x0, 0x0, 0x0, 0x0, 0x0, 0x0, 0, 1⟩,
  -- TMS_CFG
  ⟨0x60004, [], 0x0, 0x0, 0x3FFFF, 0x0, 0x0, 0x0, 0x0, 0, 1⟩,
  -- TMS_SERVO
  ⟨0x60008, [], 0x10441, 0x0, 0xFFFFF, 0x0, 0x0, 0x0, 0x0, 0, 1⟩,
  -- TMS_LIMITS
  ⟨0x6000C, [], 0xFA0032, 0x0, 0x1FFFFFF, 0x0, 0x0, 0x0, 0x0, 0, 1⟩,
  -- TMS_JUMP_MAX
  ⟨0x60010, [], 0x3E8, 0xFFFFFFFF, 0x0, 0x0, 0x0, 0x0, 0x80, 0, 1⟩,
  -- TMS_JUMP
  ⟨0x60014, [], 0x0, 0x0, 0x0, 0x0, 0x0, 0x0, 0x0, 0, 1⟩,
  -- TMS_JUMP_SEQ
  ⟨0x60018, [], 0x0, 0x0, 0x0, 0x0, 0x0, 0x0, 0x0, 0, 1⟩,
  -- TMS_JUMP_ACCEPT
  ⟨0x6001C, [], 0x0, 0xFFFF, 0x0, 0x0, 0x0, 0x0, 0x100, 0, 1⟩,
  -- TMS_NOW_0
  ⟨0x60020, [], 0x0, 0x0, 0x0, 0x0, 0x0, 0x0, 0x0, 0, 3⟩,
  -- TMS_NOW_1
  ⟨0x60024, [], 0x0, 0x0, 0x0, 0x0, 0x0, 0x0, 0x0, 1, 3⟩,
  -- TMS_NOW_2
  ⟨0x60028, [], 0x0, 0x0, 0x0, 0x0, 0x0, 0x0, 0x0, 2, 3⟩,
  -- TMS_OFFSET
  ⟨0x6002C, [], 0x0, 0x0, 0x0, 0x0, 0x0, 0x0, 0x0, 0, 1⟩,
  -- TMS_DELAY
  ⟨0x60030, [], 0x0, 0x0, 0x0, 0x0, 0x0, 0x0, 0x0, 0, 1⟩,
  -- TMS_FREQ
  ⟨0x60034, [], 0x0, 0x0, 0x0, 0x0, 0x0, 0x0, 0x0, 0, 1⟩,
  -- TMS_UTC
  ⟨0x60038, [], 0x0, 0x0, 0x0, 0x0, 0x0, 0x0, 0x0, 0, 1⟩,
  -- TMS_GM_0
  ⟨0x60040, [], 0x0, 0x0, 0x0, 0x0, 0x0, 0x0, 0x0, 0, 2⟩,
  -- TMS_GM_1
  ⟨0x60044, [], 0x0, 0x0, 0x0, 0x0, 0x0, 0x0, 0x0, 1, 2⟩,
  -- TMS_MAC_LO
  ⟨0x60048, [], 0x0, 0x0, 0xFFFFFFFF, 0x0, 0x0, 0x0, 0x0, 0, 2⟩,
  -- TMS_MAC_HI
  ⟨0x6004C, [], 0x0, 0x0, 0xFFFF, 0x0, 0x0, 0x0, 0x0, 1, 2⟩,
  -- TMS_PTP
  ⟨0x60050, [], 0x734, 0x0, 0xFFF, 0x0, 0x0, 0x0, 0x0, 0, 1⟩,
  -- TMS_ARM
  ⟨0x60054, [], 0xA, 0x0, 0xFF, 0x0, 0x0, 0x0, 0x0, 0, 1⟩,
  -- PT_CFG
  ⟨0x61000, [(72, 0x20)], 0x0, 0x0, 0x1, 0x0, 0x0, 0x0, 0x0, 0, 1⟩,
  -- PT_ASYM
  ⟨0x61004, [(72, 0x20)], 0x0, 0xFFFFFFFF, 0x0, 0x0, 0x0, 0x0, 0x80, 0, 1⟩,
  -- PT_TXLAT
  ⟨0x61008, [(72, 0x20)], 0x0, 0x0, 0x0, 0x0, 0x0, 0x0, 0x0, 0, 1⟩,
  -- PT_RXLAT
  ⟨0x6100C, [(72, 0x20)], 0x0, 0x0, 0x0, 0x0, 0x0, 0x0, 0x0, 0, 1⟩,
  -- PT_TSYNC_TX
  ⟨0x61010, [(72, 0x20)], 0x0, 0x0, 0x0, 0x0, 0x0, 0x0, 0x0, 0, 1⟩,
  -- PT_DREQ_RX
  ⟨0x61014, [(72, 0x20)], 0x0, 0x0, 0x0, 0x0, 0x0, 0x0, 0x0, 0, 1⟩,
  -- MK_CTL
  ⟨0x62000, [(16, 0x40)], 0x0, 0xFFF3, 0xC, 0x0, 0x0, 0x0, 0x200, 0, 1⟩,
  -- MK_START_0
  ⟨0x62004, [(16, 0x40)], 0x0, 0xFFFFFFFF, 0x0, 0x0, 0x0, 0x0, 0x200, 0, 3⟩,
  -- MK_START_1
  ⟨0x62008, [(16, 0x40)], 0x0, 0xFFFFFFFF, 0x0, 0x0, 0x0, 0x0, 0x200, 1, 3⟩]

/-- Registers of block TMS, part 2. -/
def rowsTms2 : List RegRow := [
  -- MK_START_2
  ⟨0x6200C, [(16, 0x40)], 0x0, 0xFFFFFFFF, 0x0, 0x0, 0x0, 0x0, 0x200, 2, 3⟩,
  -- MK_PERIOD
  ⟨0x62010, [(16, 0x40)], 0x0, 0xFFFFFFFF, 0x0, 0x0, 0x0, 0x0, 0x200, 0, 1⟩,
  -- MK_PFRAC
  ⟨0x62014, [(16, 0x40)], 0x0, 0xFFFF, 0x0, 0x0, 0x0, 0x0, 0x200, 0, 1⟩,
  -- MK_WIDTH
  ⟨0x62018, [(16, 0x40)], 0x8, 0xFFFF, 0x0, 0x0, 0x0, 0x0, 0x200, 0, 1⟩,
  -- MK_COUNT
  ⟨0x6201C, [(16, 0x40)], 0x1, 0xFFFFFFFF, 0x0, 0x0, 0x0, 0x0, 0x200, 0, 1⟩,
  -- MK_LANES_LO
  ⟨0x62020, [(16, 0x40)], 0x0, 0x0, 0xFFFFFFFF, 0x0, 0x0, 0x0, 0x0, 0, 2⟩,
  -- MK_LANES_HI
  ⟨0x62024, [(16, 0x40)], 0x0, 0x0, 0xFFFFFFFF, 0x0, 0x0, 0x0, 0x0, 1, 2⟩,
  -- MK_LEAD
  ⟨0x62028, [(16, 0x40)], 0x0, 0x0, 0xFFFFF, 0x0, 0x0, 0x0, 0x0, 0, 1⟩,
  -- MK_EMITTED
  ⟨0x6202C, [(16, 0x40)], 0x0, 0x0, 0x0, 0x0, 0x0, 0x0, 0x0, 0, 1⟩,
  -- MK_SKIPPED
  ⟨0x62030, [(16, 0x40)], 0x0, 0x0, 0x0, 0x0, 0x0, 0x0, 0x0, 0, 1⟩,
  -- MK_NEXT
  ⟨0x62034, [(16, 0x40)], 0x0, 0x0, 0x0, 0x0, 0x0, 0x0, 0x0, 0, 1⟩,
  -- TMS_SYNC_RX
  ⟨0x60080, [], 0x0, 0x0, 0x0, 0x0, 0x0, 0x0, 0x0, 0, 1⟩,
  -- TMS_RATE_DROP
  ⟨0x60084, [], 0x0, 0x0, 0x0, 0x0, 0x0, 0x0, 0x0, 0, 1⟩,
  -- TMS_OUTLIERS
  ⟨0x60088, [], 0x0, 0x0, 0x0, 0x0, 0x0, 0x0, 0x0, 0, 1⟩,
  -- TMS_JUMPS_REFUSED
  ⟨0x6008C, [], 0x0, 0x0, 0x0, 0x0, 0x0, 0x0, 0x0, 0, 1⟩,
  -- TMS_JUMPS_APPLIED
  ⟨0x60090, [], 0x0, 0x0, 0x0, 0x0, 0x0, 0x0, 0x0, 0, 1⟩,
  -- TMS_SRC_LOSS
  ⟨0x60094, [], 0x0, 0x0, 0x0, 0x0, 0x0, 0x0, 0x0, 0, 1⟩,
  -- TMS_LATE_ARRIVAL
  ⟨0x60098, [], 0x0, 0x0, 0x0, 0x0, 0x0, 0x0, 0x0, 0, 1⟩,
  -- TMS_PAUSE_DROP
  ⟨0x6009C, [], 0x0, 0x0, 0x0, 0x0, 0x0, 0x0, 0x0, 0, 1⟩,
  -- TMS_HOLDOVER_MS
  ⟨0x600A0, [], 0x0, 0x0, 0x0, 0x0, 0x0, 0x0, 0x0, 0, 1⟩,
  -- TMS_UNMATCHED
  ⟨0x600A4, [], 0x0, 0x0, 0x0, 0x0, 0x0, 0x0, 0x0, 0, 1⟩]

/-- Registers of block TMS. -/
def rowsTms : List RegRow := rowsTms1 ++ rowsTms2

/-- Registers of block ING. -/
def rowsIng : List RegRow := [
  -- ING_ADMIT
  ⟨0x80000, [], 0x81060, 0x0, 0xFFFFFF, 0x0, 0x0, 0x0, 0x0, 0, 1⟩,
  -- ING_AHEAD
  ⟨0x80004, [], 0x3E8, 0x0, 0xFFFF, 0x0, 0x0, 0x0, 0x0, 0, 1⟩,
  -- ING_LCFG
  ⟨0x81000, [(64, 0x80)], 0x0, 0x100, 0x7F, 0x0, 0x0, 0x0, 0x40, 0, 1⟩,
  -- ING_LSTATE
  ⟨0x81004, [(64, 0x80)], 0x10000, 0x0, 0x0, 0x0, 0x0, 0x0, 0x0, 0, 1⟩,
  -- ING_LFOM
  ⟨0x81008, [(64, 0x80)], 0x0, 0x0, 0x0, 0x0, 0x0, 0x0, 0x0, 0, 1⟩,
  -- ING_LMAP
  ⟨0x8100C, [(64, 0x80)], 0x0, 0x0, 0xFF03, 0x0, 0x0, 0x0, 0x0, 0, 1⟩,
  -- ING_LPERIOD
  ⟨0x81010, [(64, 0x80)], 0x0, 0x0, 0xFFFFFFFF, 0x0, 0x0, 0x0, 0x0, 0, 1⟩,
  -- ING_INVALID_HDR
  ⟨0x81014, [(64, 0x80)], 0x0, 0x0, 0x0, 0x0, 0x0, 0x0, 0x0, 0, 1⟩,
  -- ING_FEC_CORR
  ⟨0x81018, [(64, 0x80)], 0x0, 0x0, 0x0, 0x0, 0x0, 0x0, 0x0, 0, 1⟩,
  -- ING_FEC_UNCORR
  ⟨0x8101C, [(64, 0x80)], 0x0, 0x0, 0x0, 0x0, 0x0, 0x0, 0x0, 0, 1⟩,
  -- ING_LOCK_LOSS
  ⟨0x81020, [(64, 0x80)], 0x0, 0x0, 0x0, 0x0, 0x0, 0x0, 0x0, 0, 1⟩,
  -- ING_LOS_EVENTS
  ⟨0x81024, [(64, 0x80)], 0x0, 0x0, 0x0, 0x0, 0x0, 0x0, 0x0, 0, 1⟩,
  -- ING_FILL_VIOL
  ⟨0x81028, [(64, 0x80)], 0x0, 0x0, 0x0, 0x0, 0x0, 0x0, 0x0, 0, 1⟩,
  -- ING_ELASTIC_OVF
  ⟨0x8102C, [(64, 0x80)], 0x0, 0x0, 0x0, 0x0, 0x0, 0x0, 0x0, 0, 1⟩,
  -- ING_LATE_ARRIVAL
  ⟨0x81030, [(64, 0x80)], 0x0, 0x0, 0x0, 0x0, 0x0, 0x0, 0x0, 0, 1⟩,
  -- ING_TAG_AHEAD
  ⟨0x81034, [(64, 0x80)], 0x0, 0x0, 0x0, 0x0, 0x0, 0x0, 0x0, 0, 1⟩,
  -- ING_BURST_BROKEN
  ⟨0x81038, [(64, 0x80)], 0x0, 0x0, 0x0, 0x0, 0x0, 0x0, 0x0, 0, 1⟩,
  -- ING_BURST_LOST
  ⟨0x8103C, [(64, 0x80)], 0x0, 0x0, 0x0, 0x0, 0x0, 0x0, 0x0, 0, 1⟩,
  -- ING_ORPHAN
  ⟨0x81040, [(64, 0x80)], 0x0, 0x0, 0x0, 0x0, 0x0, 0x0, 0x0, 0, 1⟩,
  -- ING_DUP
  ⟨0x81044, [(64, 0x80)], 0x0, 0x0, 0x0, 0x0, 0x0, 0x0, 0x0, 0, 1⟩,
  -- ING_CTRL_UNKNOWN
  ⟨0x81048, [(64, 0x80)], 0x0, 0x0, 0x0, 0x0, 0x0, 0x0, 0x0, 0, 1⟩,
  -- ING_TRIES
  ⟨0x8104C, [(64, 0x80)], 0x0, 0x0, 0x0, 0x0, 0x0, 0x0, 0x0, 0, 1⟩,
  -- ING_CHMAP
  ⟨0x90000, [(64, 0x400), (256, 0x4)], 0x0, 0x0, 0x3FFF, 0x0, 0x0, 0x0, 0x0, 0, 1⟩,
  -- ING_INSERVICE_0
  ⟨0x80010, [], 0x0, 0x0, 0x0, 0x0, 0x0, 0x0, 0x0, 0, 2⟩,
  -- ING_INSERVICE_1
  ⟨0x80014, [], 0x0, 0x0, 0x0, 0x0, 0x0, 0x0, 0x0, 1, 2⟩,
  -- ING_DOWN_0
  ⟨0x80018, [], 0x0, 0x0, 0x0, 0x0, 0x0, 0x0, 0x0, 0, 2⟩,
  -- ING_DOWN_1
  ⟨0x8001C, [], 0x0, 0x0, 0x0, 0x0, 0x0, 0x0, 0x0, 1, 2⟩,
  -- ING_MISSING_EV
  ⟨0x80020, [], 0x0, 0x0, 0x0, 0x0, 0x0, 0x0, 0x0, 0, 1⟩]

/-- Registers of block PRM. -/
def rowsPrm : List RegRow := [
  -- PRM_PCFG
  ⟨0xA1000, [(256, 0x20)], 0x10000, 0xFF0300, 0xFF, 0x0, 0x0, 0x0, 0x2, 0, 1⟩,
  -- PRM_PTHA
  ⟨0xA1004, [(256, 0x20)], 0x0, 0xFFFFFF, 0x0, 0x0, 0x0, 0x0, 0x2, 0, 1⟩,
  -- PRM_PTHB
  ⟨0xA1008, [(256, 0x20)], 0x0, 0xFFFFFF, 0x0, 0x0, 0x0, 0x0, 0x2, 0, 1⟩,
  -- PRM_PHYS
  ⟨0xA100C, [(256, 0x20)], 0x0, 0xFFFFFF, 0x0, 0x0, 0x0, 0x0, 0x2, 0, 1⟩,
  -- PRM_PT1
  ⟨0xA1010, [(256, 0x20)], 0x0, 0xFFFFFFFF, 0x0, 0x0, 0x0, 0x0, 0x2, 0, 1⟩,
  -- PRM_PT2
  ⟨0xA1014, [(256, 0x20)], 0x0, 0xFFFFFFFF, 0x0, 0x0, 0x0, 0x0, 0x2, 0, 1⟩,
  -- PRM_PHOLD
  ⟨0xA1018, [(256, 0x20)], 0x1, 0xFFFFFFFF, 0x0, 0x0, 0x0, 0x0, 0x2, 0, 1⟩,
  -- PRM_USEL
  ⟨0xA4000, [(8192, 0x4)], 0x0, 0x0, 0xFFFFFFFF, 0x0, 0x0, 0x0, 0x0, 0, 1⟩,
  -- PRM_DEAD
  ⟨0xAC000, [(8192, 0x4)], 0x0, 0x0, 0x0, 0x0, 0x0, 0x0, 0x0, 0, 1⟩,
  -- PRM_UOFS
  ⟨0xB4000, [(8192, 0x4)], 0x0, 0xFFFFFF, 0x0, 0x0, 0x0, 0x0, 0x2, 0, 1⟩,
  -- PRM_TOKENS
  ⟨0xA0000, [], 0x0, 0x0, 0x0, 0x0, 0x0, 0x0, 0x0, 0, 1⟩,
  -- PRM_HELD
  ⟨0xA0004, [], 0x0, 0x0, 0x0, 0x0, 0x0, 0x0, 0x0, 0, 1⟩,
  -- PRM_CARRIED
  ⟨0xA0008, [], 0x0, 0x0, 0x0, 0x0, 0x0, 0x0, 0x0, 0, 1⟩,
  -- PRM_RESTARTS
  ⟨0xA000C, [], 0x0, 0x0, 0x0, 0x0, 0x0, 0x0, 0x0, 0, 1⟩,
  -- PRM_GAPS
  ⟨0xA0010, [], 0x0, 0x0, 0x0, 0x0, 0x0, 0x0, 0x0, 0, 1⟩,
  -- PRM_DEAD_SEQ
  ⟨0xA0014, [], 0x0, 0x0, 0x0, 0x0, 0x0, 0x0, 0x0, 0, 1⟩,
  -- PRM_LAST_EFFECT
  ⟨0xA0018, [], 0x0, 0x0, 0x0, 0x0, 0x0, 0x0, 0x0, 0, 1⟩,
  -- PRM_DISCARDED
  ⟨0xA001C, [], 0x0, 0x0, 0x0, 0x0, 0x0, 0x0, 0x0, 0, 1⟩]

/-- Registers of block SCR. -/
def rowsScr : List RegRow := [
  -- SCR_CFG
  ⟨0xC0000, [], 0x0, 0x0, 0x1FFF1FFF, 0x0, 0x0, 0x0, 0x0, 0, 1⟩,
  -- SCR_TEV
  ⟨0xC0004, [], 0x0, 0x0, 0x1FFFF, 0x0, 0x0, 0x0, 0x0, 0, 1⟩,
  -- SCR_STATE
  ⟨0xC0008, [], 0x0, 0x0, 0x0, 0x0, 0x0, 0x0, 0x0, 0, 1⟩,
  -- SCR_GCFG
  ⟨0xC000C, [], 0x0, 0x2, 0x1FFF0001, 0x0, 0x0, 0x0, 0x1, 0, 1⟩,
  -- SCR_RF_CFG
  ⟨0xC0010, [], 0x0, 0x0, 0x3FFFF, 0x0, 0x0, 0x0, 0x0, 0, 1⟩,
  -- SCR_RF_DST_LO
  ⟨0xC0014, [], 0x0, 0x0, 0xFFFFFFFF, 0x0, 0x0, 0x0, 0x0, 0, 2⟩,
  -- SCR_RF_DST_HI
  ⟨0xC0018, [], 0x0, 0x0, 0xFFFF, 0x0, 0x0, 0x0, 0x0, 1, 2⟩,
  -- SCR_HEADROOM
  ⟨0xC001C, [], 0x0, 0x0, 0x0, 0x0, 0x0, 0x0, 0x0, 0, 1⟩,
  -- SCR_HEADROOM_LAST
  ⟨0xC0020, [], 0x0, 0x0, 0x0, 0x0, 0x0, 0x0, 0x0, 0, 1⟩,
  -- SCR_EVENTS
  ⟨0xC0040, [], 0x0, 0x0, 0x0, 0x0, 0x0, 0x0, 0x0, 0, 1⟩,
  -- SCR_ACCEPTS
  ⟨0xC0044, [], 0x0, 0x0, 0x0, 0x0, 0x0, 0x0, 0x0, 0, 1⟩,
  -- SCR_NODEC
  ⟨0xC0048, [], 0x0, 0x0, 0x0, 0x0, 0x0, 0x0, 0x0, 0, 1⟩,
  -- SCR_LATE
  ⟨0xC004C, [], 0x0, 0x0, 0x0, 0x0, 0x0, 0x0, 0x0, 0, 1⟩,
  -- SCR_DEGRADED
  ⟨0xC0050, [], 0x0, 0x0, 0x0, 0x0, 0x0, 0x0, 0x0, 0, 1⟩,
  -- SCR_SKEW_NOTICES
  ⟨0xC0054, [], 0x0, 0x0, 0x0, 0x0, 0x0, 0x0, 0x0, 0, 1⟩,
  -- SCR_NOTICE_LATE
  ⟨0xC0058, [], 0x0, 0x0, 0x0, 0x0, 0x0, 0x0, 0x0, 0, 1⟩,
  -- SCR_LATE_INPUTS
  ⟨0xC005C, [], 0x0, 0x0, 0x0, 0x0, 0x0, 0x0, 0x0, 0, 1⟩,
  -- SCR_GRP_MISSED
  ⟨0xC0060, [], 0x0, 0x0, 0x0, 0x0, 0x0, 0x0, 0x0, 0, 1⟩,
  -- SCR_ABSENT
  ⟨0xC0064, [], 0x0, 0x0, 0x0, 0x0, 0x0, 0x0, 0x0, 0, 1⟩,
  -- SCR_RF_SENT
  ⟨0xC0068, [], 0x0, 0x0, 0x0, 0x0, 0x0, 0x0, 0x0, 0, 1⟩,
  -- SCR_RF_UNSENT
  ⟨0xC006C, [], 0x0, 0x0, 0x0, 0x0, 0x0, 0x0, 0x0, 0, 1⟩,
  -- SCR_DEC
  ⟨0xC0100, [(32, 0x4)], 0x80, 0x0, 0xFFF, 0x0, 0x0, 0x0, 0x0, 0, 1⟩,
  -- SCR_CTXSEL
  ⟨0xC0200, [(64, 0x4)], 0x0, 0x3, 0x20, 0x0, 0x0, 0x0, 0x8, 0, 1⟩,
  -- SCR_INPUT
  ⟨0xC4000, [(4096, 0x4)], 0x0, 0x0, 0x1FFFFFF7, 0x0, 0x0, 0x0, 0x0, 0, 1⟩,
  -- SCR_LAST_EFFECT
  ⟨0xC0024, [], 0x0, 0x0, 0x0, 0x0, 0x0, 0x0, 0x0, 0, 1⟩,
  -- SCR_DGROUP
  ⟨0xC8000, [(256, 0x80), (32, 0x4)], 0x0, 0x0, 0xFFFFFFFF, 0x0, 0x0, 0x0, 0x0, 0, 1⟩]

/-- Registers of block HWK. -/
def rowsHwk : List RegRow := [
  -- HWK_RCFG
  ⟨0xD1000, [(64, 0x100)], 0x0, 0x0, 0x3, 0x0, 0x0, 0x0, 0x0, 0, 1⟩,
  -- HWK_RBASE
  ⟨0xD1004, [(64, 0x100)], 0x0, 0x0, 0x7FFFFF, 0x0, 0x0, 0x0, 0x0, 0, 1⟩,
  -- HWK_RSIZE
  ⟨0xD1008, [(64, 0x100)], 0x1, 0x0, 0x7FFF, 0x0, 0x0, 0x0, 0x0, 0, 1⟩,
  -- HWK_PRE
  ⟨0xD100C, [(64, 0x100)], 0x0, 0xFFFFFFFF, 0x0, 0x0, 0x0, 0x0, 0x4, 0, 1⟩,
  -- HWK_POST
  ⟨0xD1010, [(64, 0x100)], 0x0, 0xFFFFFFFF, 0x0, 0x0, 0x0, 0x0, 0x4, 0, 1⟩,
  -- HWK_CAP
  ⟨0xD1014, [(64, 0x100)], 0x0, 0x0, 0x0, 0x0, 0x0, 0x0, 0x0, 0, 1⟩,
  -- HWK_ROWB
  ⟨0xD1018, [(64, 0x100)], 0x0, 0x0, 0x0, 0x0, 0x0, 0x0, 0x0, 0, 1⟩,
  -- HWK_FREE
  ⟨0xD101C, [(64, 0x100)], 0x64, 0x1FFFF, 0x0, 0x0, 0x0, 0x0, 0x4, 0, 1⟩,
  -- HWK_OUTSTANDING
  ⟨0xD1020, [(64, 0x100)], 0x0, 0x0, 0x0, 0x0, 0x0, 0x0, 0x0, 0, 1⟩,
  -- HWK_CAPTURES
  ⟨0xD1024, [(64, 0x100)], 0x0, 0x0, 0x0, 0x0, 0x0, 0x0, 0x0, 0, 1⟩,
  -- HWK_TRUNC
  ⟨0xD1028, [(64, 0x100)], 0x0, 0x0, 0x0, 0x0, 0x0, 0x0, 0x0, 0, 1⟩,
  -- HWK_OVERRUN
  ⟨0xD102C, [(64, 0x100)], 0x0, 0x0, 0x0, 0x0, 0x0, 0x0, 0x0, 0, 1⟩,
  -- HWK_BUSY
  ⟨0xD1030, [(64, 0x100)], 0x0, 0x0, 0x0, 0x0, 0x0, 0x0, 0x0, 0, 1⟩,
  -- HWK_PHASE
  ⟨0xD1034, [(64, 0x100)], 0x0, 0x0, 0x0, 0x0, 0x0, 0x0, 0x0, 0, 1⟩,
  -- HWK_LATE_ARRIVAL
  ⟨0xD1038, [(64, 0x100)], 0x0, 0x0, 0x0, 0x0, 0x0, 0x0, 0x0, 0, 1⟩,
  -- HWK_SHORT_PRE
  ⟨0xD103C, [(64, 0x100)], 0x0, 0x0, 0x0, 0x0, 0x0, 0x0, 0x0, 0, 1⟩,
  -- HWK_MEAS
  ⟨0xD1040, [(64, 0x100), (16, 0x4)], 0x0, 0x0, 0x7FFF, 0x0, 0x0, 0x0, 0x0, 0, 1⟩,
  -- HWK_ENABLED_0
  ⟨0xD0000, [], 0x0, 0x0, 0x0, 0x0, 0x0, 0x0, 0x0, 0, 2⟩,
  -- HWK_ENABLED_1
  ⟨0xD0004, [], 0x0, 0x0, 0x0, 0x0, 0x0, 0x0, 0x0, 1, 2⟩,
  -- HWK_ROWS_DROPPED
  ⟨0xD0008, [], 0x0, 0x0, 0x0, 0x0, 0x0, 0x0, 0x0, 0, 1⟩,
  -- HWK_CHRING
  ⟨0xD8000, [(8192, 0x4)], 0x0, 0x0, 0x7F, 0x0, 0x0, 0x0, 0x0, 0, 1⟩]

/-- Registers of block STP. -/
def rowsStp : List RegRow := [
  -- STP_ENTRIES
  ⟨0xE0000, [], 0x0, 0x0, 0x0, 0x0, 0x0, 0x0, 0x0, 0, 1⟩,
  -- STP_DROPPED
  ⟨0xE0004, [], 0x0, 0x0, 0x0, 0x0, 0x0, 0x0, 0x0, 0, 1⟩,
  -- STP_KEEPS
  ⟨0xE0008, [], 0x0, 0x0, 0x0, 0x0, 0x0, 0x0, 0x0, 0, 1⟩,
  -- STP_RKEEP
  ⟨0xE1000, [(64, 0x40)], 0xF4240, 0xFFFFFFFF, 0x0, 0x0, 0x0, 0x0, 0x4, 0, 1⟩,
  -- STP_RMODE
  ⟨0xE1004, [(64, 0x40)], 0x1, 0x1, 0x0, 0x0, 0x0, 0x0, 0x4, 0, 1⟩,
  -- STP_RFILL
  ⟨0xE1008, [(64, 0x40)], 0x0, 0x0, 0x0, 0x0, 0x0, 0x0, 0x0, 0, 1⟩,
  -- STP_RENTRIES
  ⟨0xE100C, [(64, 0x40)], 0x0, 0x0, 0x0, 0x0, 0x0, 0x0, 0x0, 0, 1⟩,
  -- STP_DBAND
  ⟨0xF0000, [(8192, 0x4)], 0x0, 0xFFFFFF, 0x0, 0x0, 0x0, 0x0, 0x4, 0, 1⟩]

/-- Registers of block MSH, part 1. -/
def rowsMsh1 : List RegRow := [
  -- MSH_ID
  ⟨0x100000, [], 0x0, 0x0, 0x3FEFC0, 0x0, 0x0, 0x0, 0x0, 0, 1⟩,
  -- MSH_TIMING
  ⟨0x100004, [], 0x0, 0x0, 0xFF, 0x0, 0x0, 0x0, 0x0, 0, 1⟩,
  -- MP_CFG
  ⟨0x101000, [(6, 0x400)], 0x0, 0x0, 0x3FF, 0x0, 0x0, 0x0, 0x0, 0, 1⟩,
  -- MP_HELLO_RX
  ⟨0x101004, [(6, 0x400)], 0x0, 0x0, 0x0, 0x0, 0x0, 0x0, 0x0, 0, 1⟩,
  -- MP_KEEP_LOSS
  ⟨0x101008, [(6, 0x400)], 0x0, 0x0, 0x0, 0x0, 0x0, 0x0, 0x0, 0, 1⟩,
  -- MP_MISMATCH
  ⟨0x10100C, [(6, 0x400)], 0x0, 0x0, 0x0, 0x0, 0x0, 0x0, 0x0, 0, 1⟩,
  -- MP_DOWNS
  ⟨0x101010, [(6, 0x400)], 0x0, 0x0, 0x0, 0x0, 0x0, 0x0, 0x0, 0, 1⟩,
  -- MSH_MEMBERS_LO
  ⟨0x100008, [], 0x0, 0x0, 0xFFFFFFFF, 0x0, 0x0, 0x0, 0x0, 0, 2⟩,
  -- MSH_MEMBERS_HI
  ⟨0x10000C, [], 0x0, 0x0, 0xFFFFFFFF, 0x0, 0x0, 0x0, 0x0, 1, 2⟩,
  -- MSH_TOPO_DIGEST
  ⟨0x100010, [], 0x0, 0x0, 0x0, 0x0, 0x0, 0x0, 0x0, 0, 1⟩,
  -- MSH_CONTRIB_TX
  ⟨0x100040, [], 0x0, 0x0, 0x0, 0x0, 0x0, 0x0, 0x0, 0, 1⟩,
  -- MSH_CONTRIB_RX
  ⟨0x100044, [], 0x0, 0x0, 0x0, 0x0, 0x0, 0x0, 0x0, 0, 1⟩,
  -- MSH_CONTRIB_LATE
  ⟨0x100048, [], 0x0, 0x0, 0x0, 0x0, 0x0, 0x0, 0x0, 0, 1⟩,
  -- MSH_DUP
  ⟨0x10004C, [], 0x0, 0x0, 0x0, 0x0, 0x0, 0x0, 0x0, 0, 1⟩,
  -- MSH_DETOURS
  ⟨0x100050, [], 0x0, 0x0, 0x0, 0x0, 0x0, 0x0, 0x0, 0, 1⟩,
  -- MSH_DETOUR_DROP
  ⟨0x100054, [], 0x0, 0x0, 0x0, 0x0, 0x0, 0x0, 0x0, 0, 1⟩,
  -- MSH_HOST_DISCARD
  ⟨0x100058, [], 0x0, 0x0, 0x0, 0x0, 0x0, 0x0, 0x0, 0, 1⟩,
  -- MSH_HOST_RESEND
  ⟨0x10005C, [], 0x0, 0x0, 0x0, 0x0, 0x0, 0x0, 0x0, 0, 1⟩,
  -- MSH_CONTRIB_BAD
  ⟨0x100060, [], 0x0, 0x0, 0x0, 0x0, 0x0, 0x0, 0x0, 0, 1⟩,
  -- MSH_FWD
  ⟨0x104000, [(64, 0x4)], 0x0, 0x0, 0x3F, 0x0, 0x0, 0x0, 0x0, 0, 1⟩,
  -- MSH_ROUTE
  ⟨0x104100, [(64, 0x4)], 0x1FF, 0x0, 0x3F, 0x0, 0x0, 0x0, 0x0, 0, 1⟩,
  -- MESH_LANE_ING_LCFG
  ⟨0x101100, [(6, 0x400), (4, 0x80)], 0x0, 0x100, 0x7F, 0x0, 0x0, 0x0, 0x40, 0, 1⟩,
  -- MESH_LANE_ING_LSTATE
  ⟨0x101104, [(6, 0x400), (4, 0x80)], 0x10000, 0x0, 0x0, 0x0, 0x0, 0x0, 0x0, 0, 1⟩,
  -- MESH_LANE_ING_LFOM
  ⟨0x101108, [(6, 0x400), (4, 0x80)], 0x0, 0x0, 0x0, 0x0, 0x0, 0x0, 0x0, 0, 1⟩,
  -- MESH_LANE_ING_INVALID_HDR
  ⟨0x101114, [(6, 0x400), (4, 0x80)], 0x0, 0x0, 0x0, 0x0, 0x0, 0x0, 0x0, 0, 1⟩,
  -- MESH_LANE_ING_FEC_CORR
  ⟨0x101118, [(6, 0x400), (4, 0x80)], 0x0, 0x0, 0x0, 0x0, 0x0, 0x0, 0x0, 0, 1⟩,
  -- MESH_LANE_ING_FEC_UNCORR
  ⟨0x10111C, [(6, 0x400), (4, 0x80)], 0x0, 0x0, 0x0, 0x0, 0x0, 0x0, 0x0, 0, 1⟩,
  -- MESH_LANE_ING_LOCK_LOSS
  ⟨0x101120, [(6, 0x400), (4, 0x80)], 0x0, 0x0, 0x0, 0x0, 0x0, 0x0, 0x0, 0, 1⟩,
  -- MESH_LANE_ING_LOS_EVENTS
  ⟨0x101124, [(6, 0x400), (4, 0x80)], 0x0, 0x0, 0x0, 0x0, 0x0, 0x0, 0x0, 0, 1⟩,
  -- MESH_LANE_ING_FILL_VIOL
  ⟨0x101128, [(6, 0x400), (4, 0x80)], 0x0, 0x0, 0x0, 0x0, 0x0, 0x0, 0x0, 0, 1⟩]

/-- Registers of block MSH, part 2. -/
def rowsMsh2 : List RegRow := [
  -- MESH_LANE_ING_ELASTIC_OVF
  ⟨0x10112C, [(6, 0x400), (4, 0x80)], 0x0, 0x0, 0x0, 0x0, 0x0, 0x0, 0x0, 0, 1⟩,
  -- MESH_LANE_ING_CTRL_UNKNOWN
  ⟨0x101148, [(6, 0x400), (4, 0x80)], 0x0, 0x0, 0x0, 0x0, 0x0, 0x0, 0x0, 0, 1⟩,
  -- MESH_LANE_ING_TRIES
  ⟨0x10114C, [(6, 0x400), (4, 0x80)], 0x0, 0x0, 0x0, 0x0, 0x0, 0x0, 0x0, 0, 1⟩]

/-- Registers of block MSH. -/
def rowsMsh : List RegRow := rowsMsh1 ++ rowsMsh2

/-- Registers of block HST. -/
def rowsHst : List RegRow := [
  -- HST_LINK
  ⟨0x120000, [], 0x0, 0x0, 0x0, 0x0, 0x0, 0x0, 0x0, 0, 1⟩,
  -- HST_POLL
  ⟨0x120004, [], 0x2710, 0xFFFFF, 0x0, 0x0, 0x0, 0x0, 0x400, 0, 1⟩,
  -- HST_SUM
  ⟨0x120018, [], 0x640001, 0xFFFF000F, 0x0, 0x0, 0x0, 0x0, 0x400, 0, 1⟩,
  -- HR_CFG
  ⟨0x121000, [(32, 0x40)], 0x0, 0x1, 0x0, 0x0, 0x7FF001E, 0x0, 0x400, 0, 1⟩,
  -- HR_SIZE
  ⟨0x121004, [(32, 0x40)], 0x6, 0x0, 0x0, 0x0, 0x1F, 0x0, 0x0, 0, 1⟩,
  -- HR_BASE_0
  ⟨0x121008, [(32, 0x40)], 0x0, 0x0, 0x0, 0x0, 0xFFFFFFFF, 0x0, 0x0, 0, 2⟩,
  -- HR_BASE_1
  ⟨0x12100C, [(32, 0x40)], 0x0, 0x0, 0x0, 0x0, 0xFFFFFFFF, 0x0, 0x0, 1, 2⟩,
  -- HR_HOLD
  ⟨0x121010, [(32, 0x40)], 0x0, 0x0, 0x0, 0x0, 0xFFFF, 0x0, 0x0, 0, 1⟩,
  -- HR_STATE
  ⟨0x121014, [(32, 0x40)], 0x0, 0x0, 0x0, 0x0, 0x0, 0x0, 0x0, 0, 1⟩,
  -- HR_PRODUCE
  ⟨0x121018, [(32, 0x40)], 0x0, 0x0, 0x0, 0x0, 0x0, 0x0, 0x0, 0, 1⟩,
  -- HR_CONSUME
  ⟨0x12101C, [(32, 0x40)], 0x0, 0x0, 0x0, 0x0, 0x0, 0x0, 0x0, 0, 1⟩,
  -- HR_ERR_AT
  ⟨0x121020, [(32, 0x40)], 0x0, 0x0, 0x0, 0x0, 0x0, 0x0, 0x0, 0, 1⟩,
  -- HR_DELIVERED
  ⟨0x121024, [(32, 0x40)], 0x0, 0x0, 0x0, 0x0, 0x0, 0x0, 0x0, 0, 1⟩,
  -- HST_IDX_ADDR_LO
  ⟨0x120008, [], 0x0, 0x0, 0x0, 0x0, 0xFFFFFFFF, 0x0, 0x0, 0, 2⟩,
  -- HST_IDX_ADDR_HI
  ⟨0x12000C, [], 0x0, 0x0, 0x0, 0x0, 0xFFFFFFFF, 0x0, 0x0, 1, 2⟩,
  -- HST_STAT_ADDR_LO
  ⟨0x120010, [], 0x0, 0x0, 0x0, 0x0, 0xFFFFFFFF, 0x0, 0x0, 0, 2⟩,
  -- HST_STAT_ADDR_HI
  ⟨0x120014, [], 0x0, 0x0, 0x0, 0x0, 0xFFFFFFFF, 0x0, 0x0, 1, 2⟩,
  -- HST_RMAP_NC
  ⟨0x12001C, [], 0x0, 0x0, 0x0, 0x0, 0x3F, 0x0, 0x0, 0, 1⟩,
  -- HST_POLLS
  ⟨0x120040, [], 0x0, 0x0, 0x0, 0x0, 0x0, 0x0, 0x0, 0, 1⟩,
  -- HST_POLL_FAIL
  ⟨0x120044, [], 0x0, 0x0, 0x0, 0x0, 0x0, 0x0, 0x0, 0, 1⟩,
  -- HST_LATE_ARRIVAL
  ⟨0x120048, [], 0x0, 0x0, 0x0, 0x0, 0x0, 0x0, 0x0, 0, 1⟩,
  -- HST_WIN_TIMEOUT
  ⟨0x12004C, [], 0x0, 0x0, 0x0, 0x0, 0x0, 0x0, 0x0, 0, 1⟩,
  -- HST_WIN_UNREACH
  ⟨0x120050, [], 0x0, 0x0, 0x0, 0x0, 0x0, 0x0, 0x0, 0, 1⟩,
  -- HST_SUM_DROP
  ⟨0x120054, [], 0x0, 0x0, 0x0, 0x0, 0x0, 0x0, 0x0, 0, 1⟩,
  -- HST_RING_ERRS
  ⟨0x120058, [], 0x0, 0x0, 0x0, 0x0, 0x0, 0x0, 0x0, 0, 1⟩,
  -- HST_IRQS
  ⟨0x12005C, [], 0x0, 0x0, 0x0, 0x0, 0x0, 0x0, 0x0, 0, 1⟩,
  -- HST_RMAP
  ⟨0x122000, [(64, 0x4)], 0x0, 0x0, 0x0, 0x0, 0x3F, 0x0, 0x0, 0, 1⟩]

/-- Registers of block REC. -/
def rowsRec : List RegRow := [
  -- REC_STAT
  ⟨0x140000, [], 0x0, 0x0, 0x0, 0x0, 0x0, 0x0, 0x0, 0, 1⟩,
  -- REC_PAGES_TOTAL
  ⟨0x140004, [], 0x0, 0x0, 0x0, 0x0, 0x0, 0x0, 0x0, 0, 1⟩,
  -- REC_PAGES_FREE
  ⟨0x140008, [], 0x0, 0x0, 0x0, 0x0, 0x0, 0x0, 0x0, 0, 1⟩,
  -- REC_RETAIN
  ⟨0x14000C, [], 0x258, 0xFFFF, 0x0, 0x0, 0x0, 0x0, 0x400, 0, 1⟩,
  -- REC_SUM_RESERVE
  ⟨0x140010, [], 0x10000, 0x0, 0xFFFFFFFF, 0x0, 0x0, 0x0, 0x0, 0, 1⟩,
  -- REC_LOG_SIZE
  ⟨0x140014, [], 0x1000, 0x0, 0xFFFFFFFF, 0x0, 0x0, 0x0, 0x0, 0, 1⟩,
  -- REC_HELD
  ⟨0x140018, [], 0x0, 0x0, 0x0, 0x0, 0x0, 0x0, 0x0, 0, 1⟩,
  -- REC_RECORDS
  ⟨0x140040, [], 0x0, 0x0, 0x0, 0x0, 0x0, 0x0, 0x0, 0, 1⟩,
  -- REC_DROPPED
  ⟨0x140044, [], 0x0, 0x0, 0x0, 0x0, 0x0, 0x0, 0x0, 0, 1⟩,
  -- REC_LOST
  ⟨0x140048, [], 0x0, 0x0, 0x0, 0x0, 0x0, 0x0, 0x0, 0, 1⟩,
  -- REC_EXPIRED
  ⟨0x14004C, [], 0x0, 0x0, 0x0, 0x0, 0x0, 0x0, 0x0, 0, 1⟩,
  -- REC_APPX_DROP
  ⟨0x140050, [], 0x0, 0x0, 0x0, 0x0, 0x0, 0x0, 0x0, 0, 1⟩,
  -- REC_CE
  ⟨0x140054, [], 0x0, 0x0, 0x0, 0x0, 0x0, 0x0, 0x0, 0, 1⟩,
  -- REC_UE
  ⟨0x140058, [], 0x0, 0x0, 0x0, 0x0, 0x0, 0x0, 0x0, 0, 1⟩,
  -- REC_DELIVERED
  ⟨0x14005C, [], 0x0, 0x0, 0x0, 0x0, 0x0, 0x0, 0x0, 0, 1⟩,
  -- CH_STAT
  ⟨0x141000, [(8, 0x40)], 0x0, 0x0, 0x0, 0x0, 0x0, 0x0, 0x0, 0, 1⟩,
  -- CH_CE
  ⟨0x141004, [(8, 0x40)], 0x0, 0x0, 0x0, 0x0, 0x0, 0x0, 0x0, 0, 1⟩,
  -- CH_UE
  ⟨0x141008, [(8, 0x40)], 0x0, 0x0, 0x0, 0x0, 0x0, 0x0, 0x0, 0, 1⟩,
  -- CH_TEMP
  ⟨0x14100C, [(8, 0x40)], 0x0, 0x0, 0x0, 0x0, 0x0, 0x0, 0x0, 0, 1⟩]

/-- Registers of block STK. -/
def rowsStk : List RegRow := [
  -- STK_SCFG
  ⟨0x161000, [(12, 0x400)], 0x0, 0x0, 0x0, 0x0, 0x0, 0x0, 0x0, 0, 1⟩,
  -- STK_PLANSUM
  ⟨0x161004, [(12, 0x400)], 0x80000000, 0x0, 0x0, 0x0, 0x0, 0x0, 0x0, 0, 1⟩,
  -- STK_CE
  ⟨0x161008, [(12, 0x400)], 0x0, 0x0, 0x0, 0x0, 0x0, 0x0, 0x0, 0, 1⟩,
  -- STK_UE
  ⟨0x16100C, [(12, 0x400)], 0x0, 0x0, 0x0, 0x0, 0x0, 0x0, 0x0, 0, 1⟩,
  -- STK_SCHED_COLL
  ⟨0x161010, [(12, 0x400)], 0x0, 0x0, 0x0, 0x0, 0x0, 0x0, 0x0, 0, 1⟩,
  -- STK_STANDIN
  ⟨0x161014, [(12, 0x400)], 0x0, 0x0, 0x0, 0x0, 0x0, 0x0, 0x0, 0, 1⟩,
  -- STK_RING_WAIT
  ⟨0x161018, [(12, 0x400)], 0x0, 0x0, 0x0, 0x0, 0x0, 0x0, 0x0, 0, 1⟩,
  -- STK_REFRESH_LATE
  ⟨0x16101C, [(12, 0x400)], 0x0, 0x0, 0x0, 0x0, 0x0, 0x0, 0x0, 0, 1⟩,
  -- STK_PPR
  ⟨0x161020, [(12, 0x400)], 0x0, 0x0, 0x0, 0x0, 0x0, 0x0, 0x0, 0, 1⟩,
  -- STK_BAD_UNITS
  ⟨0x161024, [(12, 0x400)], 0x0, 0x0, 0x0, 0x0, 0x0, 0x0, 0x0, 0, 1⟩,
  -- STK_TEMP
  ⟨0x161028, [(12, 0x400)], 0x0, 0x0, 0x0, 0x0, 0x0, 0x0, 0x0, 0, 1⟩,
  -- STK_AREA_LO
  ⟨0x161100, [(12, 0x400), (32, 0x8)], 0x0, 0x0, 0x7FFFF7, 0x0, 0x0, 0x0, 0x0, 0, 1⟩,
  -- STK_AREA_HI
  ⟨0x161104, [(12, 0x400), (32, 0x8)], 0x0, 0x0, 0xFFFFFFF, 0x0, 0x0, 0x0, 0x0, 0, 1⟩,
  -- STK_PLAN
  ⟨0x161200, [(12, 0x400), (16, 0x4)], 0x0, 0x0, 0xFFFFFFFF, 0x0, 0x0, 0x0, 0x0, 0, 1⟩,
  -- DST_CFG
  ⟨0x164000, [(4, 0x40)], 0x1, 0x0, 0x7F, 0x0, 0x0, 0x0, 0x0, 0, 1⟩,
  -- DST_PASSES
  ⟨0x164004, [(4, 0x40)], 0x0, 0x0, 0x0, 0x0, 0x0, 0x0, 0x0, 0, 1⟩,
  -- DST_LATE_PASSES
  ⟨0x164008, [(4, 0x40)], 0x0, 0x0, 0x0, 0x0, 0x0, 0x0, 0x0, 0, 1⟩,
  -- DST_LAST_EVENT
  ⟨0x16400C, [(4, 0x40)], 0x0, 0x0, 0x0, 0x0, 0x0, 0x0, 0x0, 0, 1⟩,
  -- STK_STAT
  ⟨0x160000, [], 0x0, 0x0, 0x0, 0x0, 0x0, 0x0, 0x0, 0, 1⟩,
  -- STK_GCFG
  ⟨0x160004, [], 0x10, 0x0, 0xFF, 0x0, 0x0, 0x0, 0x0, 0, 1⟩]

/-- Registers of block FAB, part 1. -/
def rowsFab1 : List RegRow := [
  -- CL_STAT
  ⟨0x200000, [(64, 0x20000)], 0x1F00, 0x0, 0x0, 0x0, 0x0, 0x0, 0x0, 0, 1⟩,
  -- CL_PACE
  ⟨0x200004, [(64, 0x20000)], 0x0, 0x0, 0x0, 0x0, 0x0, 0x0, 0x0, 0, 1⟩,
  -- CL_CMEM_CE
  ⟨0x200008, [(64, 0x20000)], 0x0, 0x0, 0x0, 0x0, 0x0, 0x0, 0x0, 0, 1⟩,
  -- CL_CMEM_UE
  ⟨0x20000C, [(64, 0x20000)], 0x0, 0x0, 0x0, 0x0, 0x0, 0x0, 0x0, 0, 1⟩,
  -- CL_STANDIN
  ⟨0x200010, [(64, 0x20000)], 0x0, 0x0, 0x0, 0x0, 0x0, 0x0, 0x0, 0, 1⟩,
  -- CL_TIME
  ⟨0x200014, [(64, 0x20000)], 0x0, 0x0, 0x0, 0x0, 0x0, 0x0, 0x0, 0, 1⟩,
  -- CL_BANK
  ⟨0x200100, [(64, 0x20000), (34, 0x4)], 0x0, 0x0, 0x0, 0x0, 0x0, 0x0, 0x0, 0, 1⟩,
  -- DIE_STAT
  ⟨0x21F000, [(4, 0x200000)], 0x0, 0x0, 0x0, 0x0, 0x0, 0x0, 0x0, 0, 1⟩,
  -- DIE_PACE_MIN
  ⟨0x21F004, [(4, 0x200000)], 0x0, 0x0, 0x0, 0x0, 0x0, 0x0, 0x0, 0, 1⟩,
  -- DIE_LINK_CORR
  ⟨0x21F010, [(4, 0x200000), (4, 0x8)], 0x0, 0x0, 0x0, 0x0, 0x0, 0x0, 0x0, 0, 1⟩,
  -- DIE_LINK_UNCORR
  ⟨0x21F014, [(4, 0x200000), (4, 0x8)], 0x0, 0x0, 0x0, 0x0, 0x0, 0x0, 0x0, 0, 1⟩,
  -- DIE_STANDIN
  ⟨0x21F030, [(4, 0x200000)], 0x0, 0x0, 0x0, 0x0, 0x0, 0x0, 0x0, 0, 1⟩,
  -- CO_STAT, positions 0 to 15, and position 16, which shows SPARE_POS
  ⟨0x201000, [(64, 0x20000), (16, 0x1000)], 0x1F0, 0x0, 0x0, 0x0, 0x0, 0x0, 0x0, 0, 1⟩,
  ⟨0x211000, [(64, 0x20000)], 0x1F8, 0x0, 0x0, 0x0, 0x0, 0x0, 0x0, 0, 1⟩,
  -- CO_CTX
  ⟨0x201004, [(64, 0x20000), (17, 0x1000)], 0x0, 0x0, 0x0, 0x0, 0x0, 0x0, 0x0, 0, 1⟩,
  -- CO_SWITCHES
  ⟨0x201008, [(64, 0x20000), (17, 0x1000)], 0x0, 0x0, 0x0, 0x0, 0x0, 0x0, 0x0, 0, 1⟩,
  -- CO_STALE
  ⟨0x20100C, [(64, 0x20000), (17, 0x1000)], 0x0, 0x0, 0x0, 0x0, 0x0, 0x0, 0x0, 0, 1⟩,
  -- CO_TIMED_OVF
  ⟨0x201010, [(64, 0x20000), (17, 0x1000)], 0x0, 0x0, 0x0, 0x0, 0x0, 0x0, 0x0, 0, 1⟩,
  -- CO_SCHED_COLL
  ⟨0x201014, [(64, 0x20000), (17, 0x1000)], 0x0, 0x0, 0x0, 0x0, 0x0, 0x0, 0x0, 0, 1⟩,
  -- CO_SKEW
  ⟨0x201018, [(64, 0x20000), (17, 0x1000)], 0x0, 0x0, 0x0, 0x0, 0x0, 0x0, 0x0, 0, 1⟩,
  -- CO_WS_CE
  ⟨0x20101C, [(64, 0x20000), (17, 0x1000)], 0x0, 0x0, 0x0, 0x0, 0x0, 0x0, 0x0, 0, 1⟩,
  -- CO_WS_UE
  ⟨0x201020, [(64, 0x20000), (17, 0x1000)], 0x0, 0x0, 0x0, 0x0, 0x0, 0x0, 0x0, 0, 1⟩,
  -- CO_WS_SPARE
  ⟨0x201024, [(64, 0x20000), (17, 0x1000)], 0x0, 0x0, 0x0, 0x0, 0x0, 0x0, 0x0, 0, 1⟩,
  -- CO_STALL_LO
  ⟨0x201040, [(64, 0x20000), (17, 0x1000), (8, 0x8)], 0x0, 0x0, 0x0, 0x0, 0x0, 0x0, 0x0, 0, 2⟩,
  -- CO_STALL_HI
  ⟨0x201044, [(64, 0x20000), (17, 0x1000), (8, 0x8)], 0x0, 0x0, 0x0, 0x0, 0x0, 0x0, 0x0, 1, 2⟩,
  -- CO_OPS_LO
  ⟨0x201080, [(64, 0x20000), (17, 0x1000)], 0x0, 0x0, 0x0, 0x0, 0x0, 0x0, 0x0, 0, 2⟩,
  -- CO_OPS_HI
  ⟨0x201084, [(64, 0x20000), (17, 0x1000)], 0x0, 0x0, 0x0, 0x0, 0x0, 0x0, 0x0, 1, 2⟩,
  -- ENG_STAT
  ⟨0x201100, [(64, 0x20000), (17, 0x1000), (64, 0x4)], 0x0, 0x0, 0x0, 0x0, 0x0, 0x0, 0x0, 0, 1⟩,
  -- DRP_CFG
  ⟨0x200400, [(64, 0x20000)], 0x1000, 0x0, 0x1FFFF, 0x0, 0x0, 0x0, 0x0, 0, 1⟩,
  -- DRP_AREA
  ⟨0x200404, [(64, 0x20000)], 0x0, 0x0, 0x7FFFFF, 0x0, 0x0, 0x0, 0x0, 0, 1⟩,
  -- DRP_ASIZE
  ⟨0x200408, [(64, 0x20000)], 0x1, 0x0, 0x7FFF, 0x0, 0x0, 0x0, 0x0, 0, 1⟩]

/-- Registers of block FAB, part 2. -/
def rowsFab2 : List RegRow := [
  -- DRP_SPILLS
  ⟨0x20040C, [(64, 0x20000)], 0x0, 0x0, 0x0, 0x0, 0x0, 0x0, 0x0, 0, 1⟩,
  -- DRP_TOKENS
  ⟨0x200410, [(64, 0x20000)], 0x0, 0x0, 0x0, 0x0, 0x0, 0x0, 0x0, 0, 1⟩,
  -- DRP_OPEN
  ⟨0x200414, [(64, 0x20000)], 0x0, 0x0, 0x0, 0x0, 0x0, 0x0, 0x0, 0, 1⟩,
  -- DRP_USED
  ⟨0x200418, [(64, 0x20000)], 0x0, 0x0, 0x0, 0x0, 0x0, 0x0, 0x0, 0, 1⟩,
  -- DRP_FULL
  ⟨0x20041C, [(64, 0x20000)], 0x0, 0x0, 0x0, 0x0, 0x0, 0x0, 0x0, 0, 1⟩,
  -- DRP_LATE_ARRIVAL
  ⟨0x200420, [(64, 0x20000)], 0x0, 0x0, 0x0, 0x0, 0x0, 0x0, 0x0, 0, 1⟩,
  -- DRP_FAIL
  ⟨0x200424, [(64, 0x20000)], 0x0, 0x0, 0x0, 0x0, 0x0, 0x0, 0x0, 0, 1⟩,
  -- CRL_BOUND_TOTAL
  ⟨0x200428, [(64, 0x20000)], 0x0, 0x0, 0x0, 0x0, 0x0, 0x0, 0x0, 0, 1⟩,
  -- DRP_SET
  ⟨0x200500, [(64, 0x20000), (32, 0x4)], 0x0, 0x0, 0x1F, 0x0, 0x0, 0x0, 0x0, 0, 1⟩,
  -- CRL_LOOP
  ⟨0x200600, [(64, 0x20000), (64, 0x8)], 0x400, 0x0, 0x3FFFF, 0x0, 0x0, 0x0, 0x0, 0, 1⟩,
  -- CRL_STAT
  ⟨0x200604, [(64, 0x20000), (64, 0x8)], 0x0, 0x0, 0x0, 0x0, 0x0, 0x0, 0x0, 0, 1⟩]

/-- Registers of block FAB. -/
def rowsFab : List RegRow := rowsFab1 ++ rowsFab2

/-- Registers of block MENU. -/
def rowsMenu : List RegRow := [
  -- MN_CTL
  ⟨0xA00000, [(16384, 0x40)], 0x400, 0x3FFF4, 0xFFFC000B, 0x0, 0x0, 0x0, 0x1, 0, 1⟩,
  -- MN_OWNER
  ⟨0xA00004, [(16384, 0x40)], 0x0, 0x0, 0xFFF, 0x0, 0x0, 0x0, 0x0, 0, 1⟩,
  -- MN_LUT
  ⟨0xA00008, [(16384, 0x40)], 0x0, 0x0, 0xFFFF, 0x0, 0x0, 0x0, 0x0, 0, 1⟩,
  -- MN_TERM01
  ⟨0xA0000C, [(16384, 0x40)], 0x0, 0x0, 0x7FFF7FFF, 0x0, 0x0, 0x0, 0x0, 0, 1⟩,
  -- MN_TERM23
  ⟨0xA00010, [(16384, 0x40)], 0x0, 0x0, 0x7FFF7FFF, 0x0, 0x0, 0x0, 0x0, 0, 1⟩,
  -- MN_THR
  ⟨0xA00014, [(16384, 0x40), (4, 0x4)], 0x0, 0xFFFFFFFF, 0x0, 0x0, 0x0, 0x0, 0x1, 0, 1⟩,
  -- MN_PRESCALE
  ⟨0xA00024, [(16384, 0x40)], 0x1, 0xFFFFFF, 0x0, 0x0, 0x0, 0x0, 0x1, 0, 1⟩,
  -- MN_HOLDNS
  ⟨0xA00028, [(16384, 0x40)], 0x1, 0xFFFFFFFF, 0x0, 0x0, 0x0, 0x0, 0x1, 0, 1⟩,
  -- MN_CAP_LO
  ⟨0xA0002C, [(16384, 0x40)], 0x0, 0x0, 0xFFFFFFFF, 0x0, 0x0, 0x0, 0x0, 0, 2⟩,
  -- MN_CAP_HI
  ⟨0xA00030, [(16384, 0x40)], 0x0, 0x0, 0xFFFFFFFF, 0x0, 0x0, 0x0, 0x0, 1, 2⟩,
  -- MN_STAT
  ⟨0xA00034, [(16384, 0x40)], 0x0, 0x0, 0x0, 0x0, 0x0, 0x0, 0x0, 0, 1⟩,
  -- MN_ACCEPTS
  ⟨0xA00038, [(16384, 0x40)], 0x0, 0x0, 0x0, 0x0, 0x0, 0x0, 0x0, 0, 1⟩,
  -- MN_HITS
  ⟨0xA0003C, [(16384, 0x40)], 0x0, 0x0, 0x0, 0x0, 0x0, 0x0, 0x0, 0, 1⟩]

/-- Registers of block NUM. -/
def rowsNum : List RegRow := [
  -- NUM_SAT
  ⟨0xC00000, [(64, 0x10000)], 0x0, 0x0, 0x0, 0x0, 0x0, 0x0, 0x0, 0, 1⟩,
  -- NUM_NAN_IN
  ⟨0xC00004, [(64, 0x10000)], 0x0, 0x0, 0x0, 0x0, 0x0, 0x0, 0x0, 0, 1⟩,
  -- NUM_ACC_SAT
  ⟨0xC00008, [(64, 0x10000)], 0x0, 0x0, 0x0, 0x0, 0x0, 0x0, 0x0, 0, 1⟩,
  -- NUM_RISES
  ⟨0xC0000C, [(64, 0x10000)], 0x0, 0x0, 0x0, 0x0, 0x0, 0x0, 0x0, 0, 1⟩,
  -- NUM_FALLS
  ⟨0xC00010, [(64, 0x10000)], 0x0, 0x0, 0x0, 0x0, 0x0, 0x0, 0x0, 0, 1⟩,
  -- NUM_CLAMP
  ⟨0xC00014, [(64, 0x10000)], 0x0, 0x0, 0x0, 0x0, 0x0, 0x0, 0x0, 0, 1⟩,
  -- NUM_STAT_LATE
  ⟨0xC00018, [(64, 0x10000)], 0x0, 0x0, 0x0, 0x0, 0x0, 0x0, 0x0, 0, 1⟩,
  -- NUM_PROMOTIONS
  ⟨0xC0001C, [(64, 0x10000)], 0x0, 0x0, 0x0, 0x0, 0x0, 0x0, 0x0, 0, 1⟩,
  -- NUM_SEG_FAULT
  ⟨0xC00020, [(64, 0x10000)], 0x0, 0x0, 0x0, 0x0, 0x0, 0x0, 0x0, 0, 1⟩,
  -- NUM_CWIN
  ⟨0xC00024, [(64, 0x10000)], 0x400, 0x0, 0xFFFF, 0x0, 0x0, 0x0, 0x0, 0, 1⟩,
  -- NUM_SCRIM_OPS
  ⟨0xC00200, [(64, 0x10000)], 0x0, 0x0, 0x0, 0x0, 0x0, 0x0, 0x0, 0, 1⟩,
  -- NUM_SCRIM_CE
  ⟨0xC00204, [(64, 0x10000)], 0x0, 0x0, 0x0, 0x0, 0x0, 0x0, 0x0, 0, 1⟩,
  -- NUM_SCRIM_UE
  ⟨0xC00208, [(64, 0x10000)], 0x0, 0x0, 0x0, 0x0, 0x0, 0x0, 0x0, 0, 1⟩,
  -- NUM_RC_CFG
  ⟨0xC00100, [(64, 0x10000), (16, 0x10)], 0x100, 0x0, 0x3F3F, 0x0, 0x0, 0x0, 0x0, 0, 1⟩,
  -- NUM_RC_LIMITS
  ⟨0xC00104, [(64, 0x10000), (16, 0x10)], 0x1000, 0xFF3F, 0x0, 0x0, 0x0, 0x0, 0x10, 0, 1⟩,
  -- NUM_ROW
  ⟨0xC01000, [(64, 0x10000), (4096, 0x4)], 0x0, 0x0, 0xFF00, 0x0, 0x0, 0x0, 0x0, 0, 1⟩,
  -- NUM_RSTAT
  ⟨0xC05000, [(64, 0x10000), (4096, 0x4)], 0x0, 0x0, 0x0, 0x0, 0x0, 0x0, 0x0, 0, 1⟩,
  -- NUM_CSTAT
  ⟨0xC09000, [(64, 0x10000), (2048, 0x4)], 0x0, 0x0, 0x0, 0x0, 0x0, 0x0, 0x0, 0, 1⟩,
  -- NUM_CMAP
  ⟨0xC0B000, [(64, 0x10000), (2048, 0x4)], 0x0, 0x0, 0x7FFFF, 0x0, 0x0, 0x0, 0x0, 0, 1⟩,
  -- NUM_GCFG
  ⟨0xC0F000, [], 0x0, 0x3, 0x4, 0x0, 0x0, 0x0, 0x30, 0, 1⟩,
  -- NUM_SCALE_EPOCH
  ⟨0xC0F004, [], 0x0, 0x0, 0x0, 0x0, 0x0, 0x0, 0x0, 0, 1⟩,
  -- NUM_ADAPT_EPOCH
  ⟨0xC0F008, [], 0x0, 0x0, 0x0, 0x0, 0x0, 0x0, 0x0, 0, 1⟩,
  -- NUM_SKEW_LATE
  ⟨0xC0F00C, [], 0x0, 0x0, 0x0, 0x0, 0x0, 0x0, 0x0, 0, 1⟩,
  -- NUM_PROMO_TOTAL
  ⟨0xC0F010, [], 0x0, 0x0, 0x0, 0x0, 0x0, 0x0, 0x0, 0, 1⟩,
  -- NUM_COMMIT_HELD
  ⟨0xC0F014, [], 0x0, 0x0, 0x0, 0x0, 0x0, 0x0, 0x0, 0, 1⟩,
  -- NUM_PROVROWS
  ⟨0xC0F018, [], 0x0, 0x0, 0x1FF, 0x0, 0x0, 0x0, 0x0, 0, 1⟩,
  -- NUM_ADAPT_DIGEST
  ⟨0xC0F020, [(8, 0x4)], 0x0, 0x0, 0x0, 0x0, 0x0, 0x0, 0x0, 0, 8⟩,
  -- NUM_PROVROW
  ⟨0xC0F400, [(256, 0x4)], 0x0, 0x0, 0x7FFFF, 0x0, 0x0, 0x0, 0x0, 0, 1⟩]

/-- The rows of the block that holds address a. -/
def rowsAt (a : Nat) : List RegRow :=
  if a < 0x10000 then rowsGlb
  else if a < 0x20000 then rowsBoot
  else if a < 0x30000 then rowsUnd
  else if a < 0x40000 then rowsLog
  else if a < 0x50000 then rowsClk
  else if a < 0x60000 then rowsPwr
  else if a < 0x80000 then rowsTms
  else if a < 0xA0000 then rowsIng
  else if a < 0xC0000 then rowsPrm
  else if a < 0xD0000 then rowsScr
  else if a < 0xE0000 then rowsHwk
  else if a < 0x100000 then rowsStp
  else if a < 0x120000 then rowsMsh
  else if a < 0x140000 then rowsHst
  else if a < 0x160000 then rowsRec
  else if a < 0x200000 then rowsStk
  else if a < 0xA00000 then rowsFab
  else if a < 0xC00000 then rowsMenu
  else if a < 0x1000000 then rowsNum
  else []

/-- The catalogue row of the register at address a; reserved addresses have none (R11). -/
def regRow (a : Nat) : Option RegRow := (rowsAt a).find? (RegRow.hit · a)

/-- What the register at address a holds after POR and before the Primer (column Reset). -/
def resetWord (a : Nat) : Nat := match regRow a with
  | some r => r.reset
  | none => 0

/-- A value that spans registers: the address of its lowest register and its length. Registers that
stand alone are values of length 1. Indexed registers that make one value are counted by their index. -/
def spanOf (a : Nat) : Nat × Nat :=
  match regRow a with
  | none => (a, 1)
  | some r => if r.len = 1 then (a, 1)
    else if r.dims = [(r.len, 4)] then (r.base, r.len)
    else (a - 4 * r.pos, r.len)

end Sys2Proof
end

