-- ==== Sys2Proof/Machine/State.lean ====
section
/-!
DEFINITION. The state of the device as plain data: every register of the window (in one sparse map whose
unlisted addresses read the reset word), and beside it the queues, buffers, counters, modes and engines
that the chapters give the device and no register shows whole. `Dev` is the device, `State` the device
with its queue of waiting commands.
-/

namespace Sys2Proof.Machine

open Sys2Proof

/-- Why a step stops with a fault. -/
inductive Fault where
  /-- Raised by no command of this model: every command of the table has an effect on every state
  (safe: nothing stops). -/
  | noEffect
  deriving DecidableEq, Repr

/-- Why a step is refused. -/
inductive Refusal where
  /-- Raised by an arm of exec whose command has no meaning in this model (safe). -/
  | notModelled (mnemonic : String)
  deriving DecidableEq, Repr

/-! Registers, captures and the change log ("Primer, Undercoat, attestation and the change log") -/

/-- A value that spans registers, captured for one origin by a read of its lowest register (R12). -/
structure Captured where
  origin : Origin
  low : Nat
  words : List Nat
  deriving DecidableEq, Repr

/-- A log entry (Table 11.16); the time is network time in whole ns, and which entry since step 4 it is: its sequence
number is that modulo 2^24. -/
structure LogEntry where
  time : Nat
  origin : Origin
  object : Nat
  old : Nat
  new : Nat
  status : Nat
  num : Nat
  chain : Nat
  deriving DecidableEq, Repr

/-- The change log: the entries on the die (newest first) and how many it can hold (65,536 less the failed rows, R464), the entries written
since step 4, the latest entry's chain tag, the entries not yet mirrored, the mirror (newest first), the first entry that no
LOG ring has delivered (R425), and for each origin the result of its latest live write (R417). -/
structure LogSt where
  opened : Bool
  entries : List LogEntry
  cap : Nat
  written : Nat
  tag : Option Nat
  held : Nat
  mirror : List LogEntry
  delivered : Nat
  results : List (Origin × Nat)
  /-- The latest whole second of network time with a checkpoint (R423), and the sequence number of its entry. -/
  ckptSecond : Option Nat
  ckptPrev : Option Nat
  /-- The checkpoint entry whose signature is due, and the pieces still to write. -/
  ckptOpen : Option LogEntry
  deriving DecidableEq, Repr

/-! Ingest and Skimlink lanes ("Skimlink lanes and sample ingest") -/

/-- A block as the deframer sees it: its header judged (R41), its payload descrambled (R42); `gap` marks the place of a block lost to a
bad header, an uncorrectable codeword or a full buffer, where an open burst breaks (Table 2.5). -/
structure Blk where
  ctl : Bool
  payload : BitVec 128
  gap : Bool
  deriving DecidableEq, Repr

/-- The place of a lost block. -/
def Blk.lost : Blk := ⟨false, 0, true⟩

/-- A block on its way from the lane's input: header as received, after correction in a corrected codeword (R58), h0 in bit 1; payload line
bits; whether its codeword decodes and its marker matches (R57); whether its codeword is uncorrectable (R40); and the line bits from the
start of the try to the block's first bit (R59). -/
structure RxBlock where
  hdr : BitVec 2
  line : BitVec 128
  inCode : Bool
  lost : Bool
  at_ : Nat
  deriving DecidableEq, Repr

/-- An open data burst (R45): its tag in units of 2^-16 ns of network time, its length in data blocks,
and the number of the next data block. -/
structure Burst where
  tag : Int
  len : Nat
  next : Nat
  deriving DecidableEq, Repr

/-- What a lane holds beside its registers. -/
structure LaneRec where
  /-- The elastic buffer, read side first (R53). -/
  buf : List Blk
  /-- Consecutive valid headers in HUNT (R58). -/
  runValid : Nat
  /-- Whether each of the last blocks, newest first, had an invalid header (R58). -/
  recent : List Bool
  /-- Consecutive non-filler blocks received (R55) and sent (R52), and blocks sent since the last LINK (R44). -/
  rxRun : Nat
  txRun : Nat
  sinceLink : Nat
  /-- The scramblers' last 58 line bits, newest in bit 0 (R42). -/
  rxHist : BitVec 58
  txHist : BitVec 58
  /-- The transmitter is enabled (R56); loss of signal stands asserted, as it does before any signal (R62). -/
  txOn : Bool
  los : Bool
  /-- Blocks of decoded codewords not yet taken in, oldest first (R39), and the codeword count of the marker seen last (R57). -/
  decoded : List RxBlock
  rxMark : Option Nat
  /-- Line bits received since the start of the try (R59). -/
  tryBits : Nat
  /-- Blocks received since the last measurement and since the training window began (R60). -/
  eyeBlocks : Nat
  trainBlocks : Nat
  /-- The message bits sent of the running codeword, and codewords sent (R39). -/
  txWord : List Bool
  txMark : Nat
  /-- Consecutive measurements below the leaving threshold (Table 2.7, row 9). -/
  lowEyes : Nat
  /-- Device time at which the back-off interval ends (R63). -/
  backoffDue : Nat
  burst : Option Burst
  /-- SEQ of the latest TAG block received (Table 2.5). -/
  lastSeq : Option (BitVec 8)
  /-- Time TAG of the latest TAG block received, 0 with none (R528). -/
  lastP : Int
  /-- Blocks of a mesh lane that wait for a transmit slot, oldest first: class of R358, control or data, payload. -/
  txq : List (Nat × Bool × BitVec 128)
  /-- Device time, in units of 2^-16 ns, of the next free transmit slot. -/
  txFree : Nat
  deriving DecidableEq, Repr

/-- A lane after reset. -/
def LaneRec.init : LaneRec :=
  ⟨[], 0, [], 0, 0, 0, 0, 0, false, true, [], none, 0, 0, 0, [], 0, 0, 0, none, none, 0, [], 0⟩

/-- A sample as ingest hands it on: channel, time in units of 2^-16 ns, value, and the lane it came on. -/
structure Sample where
  ch : Nat
  t : Int
  v : Int
  lane : Nat
  deriving DecidableEq, Repr

/-- Ingest: the lanes (64 ingest lanes, then four lanes of each mesh port), the samples delivered and not
yet taken by their primitive units, and the channel, time and value of every sample delivered for events that can
still receive samples (R49, R439, R528). -/
structure IngSt where
  lanes : SMap LaneRec
  queue : List Sample
  seen : List (Nat × Int × Int)
  deriving DecidableEq, Repr

/-! The primitive array ("Primitive conditions, Hawk rings and Stipple capture") -/

/-- A started condition: the time of its start crossing and whether that crossing carries GAP. -/
structure Start where
  t : Int
  gap : Bool
  deriving DecidableEq, Repr

/-- One polarity of a condition slot: its comparator and its started condition. -/
structure PolRec where
  high : Bool
  start : Option Start
  deriving DecidableEq, Repr

/-- A condition slot. -/
structure SlotRec where
  /-- No sample has set the comparators since arming or the last effect boundary (R73, R92). -/
  fresh : Bool
  pos : PolRec
  neg : PolRec
  /-- End of the running hold-off of mode TIME; first and last suppressed event of each hold-off of mode EVENTS (R87). -/
  holdT : Option Int
  holdE : List (Nat × Nat)
  /-- Spans of time inside a hold-off, for the dead time of R89. -/
  spans : List (Int × Int)
  /-- The latest effect boundary that the slot has met (R92). -/
  boundary : Nat
  deriving DecidableEq, Repr

/-- A slot after reset. -/
def SlotRec.init : SlotRec := ⟨true, ⟨false, none⟩, ⟨false, none⟩, none, [], [], 0⟩

/-- A primitive unit: its last delivered sample and its four slots. -/
structure UnitRec where
  last : Option (Int × Int)
  s0 : SlotRec
  s1 : SlotRec
  s2 : SlotRec
  s3 : SlotRec
  deriving DecidableEq, Repr

/-- A unit after reset. -/
def UnitRec.init : UnitRec := ⟨none, SlotRec.init, SlotRec.init, SlotRec.init, SlotRec.init⟩

/-- What the tokens of one slot have put into one event so far (Table 3.4). -/
structure PwAcc where
  count : Nat
  carried : Bool
  gap : Bool
  held : Bool
  neg : Bool
  first : Nat
  firstSet : Bool
  meas : Nat
  deriving DecidableEq, Repr

/-- Nothing placed. -/
def PwAcc.init : PwAcc := ⟨0, false, false, false, false, 0, false, 0⟩

/-- An accepted live write that waits for the effect boundary (R91, R293): address, value, and the network
time of its acceptance in ns. -/
structure PendWrite where
  addr : Nat
  value : Nat
  at_ : Nat
  deriving DecidableEq, Repr

/-- A value replaced at an effect boundary: the boundary's event, the address and the value before. -/
structure Replaced where
  event : Nat
  addr : Nat
  old : Nat
  deriving DecidableEq, Repr

/-- The primitive array: units, words under way (key (event × 8192 + unit) × 4 + slot), dead time under way
in units of 2^-16 ns (key interval × 8192 + unit), the dead times in ns of the two intervals latched last (interval, and values by
unit), and the live writes on their way. -/
structure PrmSt where
  units : SMap UnitRec
  words : SMap PwAcc
  dead : SMap Nat
  latched : List (Nat × SMap Nat)
  pend : List PendWrite
  hist : List Replaced
  deriving DecidableEq, Repr
/-! Capture rings and records ("Primitive conditions, Hawk rings and Stipple capture", "The record store") -/

/-- A row of a HAWK ring (R94) or an entry of a STIPPLE ring (Table 3.5): its place in the order of writing, its
row number (HAWK), its time in units of 2^-16 ns, its channel and kind (STIPPLE), and every member's
sample, none where missing (HAWK), or the entry's one value (STIPPLE). -/
structure RingItem where
  w : Nat
  k : Nat
  t : Int
  ch : Nat
  kind : Nat
  vals : List (Option Int)
  deriving DecidableEq, Repr

/-- A HAWK row under assembly: its number, its instant, and the samples placed so far by member index. -/
structure OpenRow where
  k : Nat
  t : Int
  vals : List (Nat × Int)
  deriving DecidableEq, Repr

/-- An outstanding capture: its record, the rows of its window (first, boundary between pre and post, end;
HAWK), its window in time (STIPPLE), the places of its opening entries (R106), the next row number or
place to copy, the first dropped row at or after the boundary, and whether it has ended. -/
structure Capture where
  seq : Nat
  lo : Nat
  kb : Nat
  hi : Nat
  tLo : Int
  tHi : Int
  opens : List Nat
  next : Nat
  cut : Option Nat
  ended : Bool
  deriving DecidableEq, Repr

/-- A capture ring (R93). -/
structure RingRec where
  /-- Writing has begun (R95). -/
  began : Bool
  /-- The instant of row kBase, the latest of the first member's; row k lies (k − kBase) × T_s later (R95). -/
  phase : Option Int
  kBase : Nat
  opened : List OpenRow
  /-- The first row not yet closed, and the number of rows or entries placed so far. -/
  nextK : Nat
  written : Nat
  /-- The first row since writing began, and since it last resumed (R101); and the rows (HAWK) dropped that the ring's region could still span
  and the entries (STIPPLE), each by its time and the time of the last sample position processed before it (R100, R107, R223). -/
  startK : Nat
  resumeK : Nat
  drops : List Nat
  dropT : List (Int × Int)
  /-- Writing pauses before a protected row (R100, R107). -/
  paused : Bool
  /-- What the ring holds, newest first. -/
  items : List RingItem
  /-- Outstanding captures, oldest first (R99). -/
  caps : List Capture
  /-- Time of the last sample position processed while the writer did not pause (R107), and the time of the latest sample or missing position of
  a member taken (R114). -/
  lastPos : Int
  seen : Option Int
  deriving DecidableEq, Repr

/-- A ring after reset. -/
def RingRec.init : RingRec := ⟨false, none, 0, [], 0, 0, 0, 0, [], [], false, [], [], 0, none⟩

/-- A member of a STIPPLE ring (R103 to R105): value and time of its latest CHANGE or KEEP entry, the time of its latest entry
and of its first, whether the next sample is stored whatever its value, whether a missing run is open, and its
current sample. -/
structure StpRec where
  last : Int
  lastT : Int
  firstT : Option Int
  force : Bool
  missing : Bool
  cur : Option (Int × Int)
  deriving DecidableEq, Repr

/-- A member before its first sample. -/
def StpRec.init : StpRec := ⟨0, 0, none, true, false, none⟩

/-- The capture rings: ring by ring, STIPPLE member by channel, each stack's 64 KiB ring-write buffer, oldest first (R223), and the accepted
live writes of HWK and STP fields that wait for their ring's next sample position, newest first (address, value; R114). -/
structure AcqSt where
  rings : SMap RingRec
  stp : SMap StpRec
  bufs : SMap (List (Nat × RingItem))
  pend : List (Nat × Nat)
  deriving DecidableEq, Repr

/-- A record, under assembly or in the store (R110 to R113, R384 to R389). -/
structure RecordRec where
  /-- Store sequence number. -/
  seq : Nat
  event : Nat
  /-- Capture ring, or 255. -/
  ring : Nat
  /-- T_sample in ns. -/
  trig : Nat
  late : Bool
  /-- The event's completion in units of 2^-16 ns of network time, once measured (R529). -/
  completion : Option Nat
  skew : Bool
  degraded : Bool
  dec : BitVec 64
  comp : BitVec 64
  hits : List Nat
  prov : Nat
  pre : Nat
  post : Nat
  /-- 0: HAWK; 1: STIPPLE; 0xFF: no data. -/
  mode : Nat
  summary : Bool
  truncated : Bool
  shortPre : Bool
  freeInc : Bool
  captured : Nat
  preCaptured : Nat
  /-- Member channels, T_s in units of 2^-16 ns, and the WIDTH code; and the time TAG of each lane with a sample map as it stood at the event's
  admission (R528). -/
  phases : List (Nat × Int)
  members : List Nat
  ts : Nat
  width : Nat
  /-- Rows or entries copied out, in order. -/
  items : List RingItem
  appendix : List Byte
  /-- No more free-class results are waited for. -/
  freeDone : Bool
  /-- FREE_WAIT_US of its ring in force, with FREE_MODE = WAIT. -/
  freeWait : Option Nat
  /-- Device time at which the capture ended, and whether all of it is copied. -/
  endedAt : Option Nat
  copied : Bool
  /-- Device time of completion, and the record's bytes from then on. -/
  doneAt : Option Nat
  bytes : List Byte
  /-- The pages held, as runs of page numbers from a first to before a last, in the order of the record's bytes (R385). -/
  pages : List (Nat × Nat)
  /-- Offsets of its uncorrectable 64-byte lines (R389). -/
  bad : List Nat
  /-- Its last fragment has been sent to the anchor and not yet acknowledged (R380). -/
  sent : Bool
  deriving DecidableEq, Repr

/-- The record store: the records held, oldest first; the next sequence number; sequence number and ring of
records gone; the channels that were UP when the store was divided into pages, in ascending order, and the number of the first page of the
pool; the free pages of the pool and of the summary reserve, as runs of page numbers (R385); and the device times of uncorrectable lines by
channel (R389). -/
structure RecSt where
  recs : List RecordRec
  nextSeq : Nat
  past : List (Nat × Nat)
  chans : List Nat
  poolFrom : Nat
  pool : List (Nat × Nat)
  reserve : List (Nat × Nat)
  ueTimes : SMap (List Nat)
  deriving DecidableEq, Repr

/-! The memory stacks ("The Roller and the memory stacks") -/

/-- A bad 64 KiB unit of a stack (R229). -/
structure BadUnit where
  stack : Nat
  unit : Nat
  deriving DecidableEq, Repr

/-- A Roller block of a pass, to be read or on its way to a core (R211, R213): the core, context slot, timed class, the grid
index of the pass's first event, its phase in the core's stream, its area, byte address and size in the stack, the number of its pass,
whether a conflict rule has held its read back already (R224), and once its read has been issued its place in the order of reads, its
bytes, and whether a stand-in or an uncorrectable burst marks it degraded. -/
structure Flight where
  core : Nat
  ctx : Nat
  timed : Bool
  event : Nat
  phase : Nat
  area : Nat
  addr : Nat
  size : Nat
  pass : Nat
  displaced : Bool
  stamp : Nat
  data : List Byte
  degraded : Bool
  deriving DecidableEq, Repr

/-- A bank of a stack as the conflict rules see it (Table 6.6), in slots since the controller began: its latest read and activate, the
row open, and the slot in which its latest refresh ends. -/
structure BankHist where
  read : Option Nat
  act : Option Nat
  row : Option Nat
  busy : Nat
  deriving DecidableEq, Repr

/-- A bank that nothing has used. -/
def BankHist.init : BankHist := ⟨none, none, none, 0⟩

/-- A free-class request of a FREE area (R221, rank 5): the circuit it came on, whether it writes, byte address, data, the
requester's TAG, and its DEGRADED mark (R154). -/
structure OpenReq where
  circ : Nat
  write : Bool
  addr : Nat
  data : Nat
  tag : Nat
  degraded : Bool
  deriving DecidableEq, Repr

/-- A stack beside its registers: the place in the frame and the slots run, device times of uncorrectable bursts in the last ms,
device time of its failure, its failed trainings, timed and free-class reads of pass images not yet issued, the passes whose reads have
begun with whether they are read from mirrors (R233), blocks read and not yet staged, waiting requests of FREE areas, the rank of
the OPEN user that has the slot just run (Table 6.5; 0 for none), the latest slot used for a Roller or mirrored read (R223), the
banks, the latest read of each bank group, the latest four activates, latest first (Table 6.6), and the slot of each bank's
latest refresh (R225). -/
structure StkRec where
  slot : Nat
  total : Nat
  ueTimes : List Nat
  failedAt : Option Nat
  trains : Nat
  readsT : List Flight
  readsF : List Flight
  inPass : List (Nat × Bool)
  flights : List Flight
  reqs : List OpenReq
  grant : Nat
  lastUsed : Option Nat
  banks : SMap BankHist
  groups : SMap (Option Nat)
  acts : List Nat
  refreshed : SMap Nat
  deriving DecidableEq, Repr

/-- A stack after reset. -/
def StkRec.init : StkRec := ⟨0, 0, [], none, 0, [], [], [], [], [], 0, none, [], [], [], []⟩

/-- The stacks: each stack's record, their bytes (key stack × 2^35 + byte address; unlisted bytes read 0), their bad
units, the timed passes made LATE (die and pass) and their events whose windows have not opened yet, each with a core (R224), the passes begun so far and the reads issued so far, and for each die its latest
timed pass started (as floor(n / E_p) + 1), and the latest whose reads have begun. -/
structure StkSt where
  stk : SMap StkRec
  mem : SMap Byte
  bad : List BadUnit
  latePasses : List (Nat × Nat)
  lateAhead : List (Nat × Nat)
  passes : Nat
  reads : Nat
  started : SMap Nat
  begun : SMap Nat
  deriving DecidableEq, Repr


/-! The fabric ("Engines, cores, clusters and dies", "Dataflow, slot wheels, contexts and deadlock") -/

/-- A register, activation-slot word or accumulator: its bits, and whether it was computed from a degraded or
missing input (R154). -/
structure Val where
  v : Nat
  deg : Bool
  deriving DecidableEq, Repr

/-- An endpoint (chapter "What plenec and the device owe each other", endpoint encoding) on its physical cluster; `core` is the
logical core. -/
structure Endp where
  kind : Nat
  cl : Nat
  core : Nat
  eng : Nat
  idx : Nat
  num : Nat
  deriving DecidableEq, Repr

/-- A circuit (Table 12.7): key 2^16 × physical cluster + circuit number; its route as pairs of link (Table 12.8,
with the physical cluster) and OWN mask. -/
structure Circuit where
  key : Nat
  free : Bool
  stat : Bool
  ctxs : Nat
  kc : Nat
  src : Endp
  dst : Endp
  route : List (Nat × Nat)
  deriving DecidableEq, Repr

/-- A circuit in service: the epoch that its entry port stamps (R172), whether its marker of the running wave is
sent, and the event slot of the timed-class tokens that left its producer last (its entry port, or the port of its producer's core)
with how many have left for it (R137, R176). -/
structure CircSt where
  epoch : Nat
  marked : Bool
  slot : Option Nat
  sent : Nat
  /-- Address of a memory write whose data token has not come (log entry 47). -/
  addr : Option Nat
  deriving DecidableEq, Repr

/-- A circuit at load. -/
def CircSt.init : CircSt := ⟨0, false, none, 0, none⟩

/-- A token that waits to cross a hop, and its place in the order in which tokens came to wait in the fabric. -/
structure Waiting where
  tok : Token
  stamp : Nat
  deriving DecidableEq, Repr

/-- A slot wheel (R155): link and the sixteen 2-bit codes. -/
structure Wheel where
  link : Nat
  codes : Nat
  deriving DecidableEq, Repr

/-- A wheel in service: pointer, the free-class circuit served last (R156, R157). -/
structure WheelPos where
  ptr : Nat
  last : Option Nat
  deriving DecidableEq, Repr

/-- A counter (Tables 5.5, 5.6): settings, count, the value that the running count started from, whether a DATA
counter waits for its COUNT token, the triggers held meanwhile (value, TAG, DEGRADED), and whether the COUNT token that the running
count started from was degraded (R154). -/
structure CounterRec where
  mode : Nat
  bound : Nat
  tagsrc : Bool
  reload : Nat
  limit : Nat
  count : Nat
  start : Nat
  waiting : Bool
  held : List (Nat × Nat × Bool)
  deg : Bool
  deriving DecidableEq, Repr

/-- A counter that is OFF. -/
def CounterRec.init : CounterRec := ⟨0, 0, false, 0, 0, 0, 0, false, [], false⟩

/-- A control token of a counter unit, with the circuits it has still to leave on; none when a descriptor reads it (R167). -/
structure CuTok where
  tok : Token
  left : List Nat
  deriving DecidableEq, Repr

/-- A SCALE token that a free-class QUANT or LOAD has taken: its payload, BSEQ and DEGRADED mark (R252, R253). -/
structure HeldScale where
  payload : Nat
  bseq : Nat
  deg : Bool
  deriving DecidableEq, Repr

/-- A descriptor in service: the event slot it serves and its firings for that slot (R160), or for a block in the free class, its block count
(R252), whether its held output is already counted (R161), whether the event it serves lost a block (R254), the cycles that its next issue has
lost to other accesses (R128, R162), the SCALE token of its open block in the free class, and the BSEQ of a block that it is dropping (R253). -/
structure DescRec where
  slot : Option Nat
  fires : Nat
  blocks : Nat
  ovf : Bool
  lostBlock : Bool
  waited : Nat
  scale : Option HeldScale
  dropping : Option Nat
  deriving DecidableEq, Repr

/-- A descriptor at load. -/
def DescRec.init : DescRec := ⟨none, 0, 0, false, false, 0, none, none⟩

/-- A word in the weight latch: its bits, degraded mark, and the issues it has served (R205). -/
structure LatchWord where
  w : Nat
  deg : Bool
  used : Nat
  deriving DecidableEq, Repr

/-- An engine (Table 4.3): registers, slot words (8 × slot + word), accumulators, input queues oldest first, whether
a queue is closed behind a marker (R177), the weight latch, the number of the block to latch next and of words
released, descriptors in service (32 × context + descriptor), whether it has switched in the running wave, circuits whose marker it
has sent ahead (R180), and whether it issued, or lost a port of the weight store to another access, since the last tick (R128, R133). -/
structure EngRec where
  regs : SMap Val
  slots : SMap Val
  accs : SMap Val
  q0 : List Token
  q1 : List Token
  closed0 : Bool
  closed1 : Bool
  latch : List LatchWord
  nextBlock : Nat
  released : Nat
  descs : SMap DescRec
  switched : Bool
  ahead : List Nat
  looping : Bool
  busy : Bool
  lost : Bool
  deriving DecidableEq, Repr

/-- An engine after reset. -/
def EngRec.init : EngRec := ⟨[], [], [], [], [], false, false, [], 0, 0, [], false, [], false, false, false⟩

/-- A loaded context of a core (Table 12.6) with its Roller segments in order. -/
structure CtxRec where
  group : Nat
  flags : Nat
  qclass : Nat
  stream : Nat
  ring : Nat
  segs : List Nat
  descs : SMap Nat
  deriving DecidableEq, Repr

/-- A block in a core's staging ring (R215): the context whose stream it belongs to, the first event of its pass, its number in the
stream, its weight-store address, its degraded mark, and the engines that still have to read it. -/
structure Staged where
  ctx : Nat
  event : Nat
  block : Nat
  addr : Nat
  degraded : Bool
  left : List Nat
  deriving DecidableEq, Repr

/-- A core: contexts, counters (16 × context + counter), the counter unit's output, the free-class tokens that wait to enter it behind an open
spill whose segment is full (R193), whether that unit has switched
and the counters at whose input a marker stands, the xorshift state of R251, the staged blocks
and for each context the next place of its staging ring, in bytes from its base. -/
structure CoreRec where
  ctxs : SMap (Option CtxRec)
  counters : SMap CounterRec
  cuOut : List CuTok
  cuHeld : List CuTok
  cuSwitched : Bool
  cuMarks : List Nat
  rng : Option Nat
  staged : List Staged
  ringPos : SMap Nat
  /-- The core passed self-test (R136). -/
  passed : Bool
  /-- Why self-test retired it, as the health map says it (Table 13.3): 0 where it did not, or for a unit that the table does not name. -/
  cause : Nat
  deriving DecidableEq, Repr

/-- A core after reset. -/
def CoreRec.init : CoreRec := ⟨[], [], [], [], false, [], none, [], [], false, 0⟩

/-- A timed entry row or label entry row (Table 12.5) with the circuit's key. -/
structure EntryRow where
  circ : Nat
  source : Nat
  unit : Nat
  slot : Nat
  order : Nat
  deriving DecidableEq, Repr

/-- A switch under way in a group (R176): target context, new epoch, first event, section switch, adaptation switch, the
cores that have not completed, and the section it goes to. -/
structure Wave where
  ctx : Nat
  epoch : Nat
  first : Nat
  section_ : Bool
  adapt : Bool
  left : List Nat
  sec : Option Nat
  deriving DecidableEq, Repr

/-- A switch request (R173): its target, whether a section end or an adaptation epoch made it, and the section it asks for. -/
structure SwitchReq where
  ctx : Nat
  section_ : Bool
  adapt : Bool
  sec : Option Nat
  deriving DecidableEq, Repr

/-- A section of a group's section table (R445). -/
structure SectionRow where
  ctx : Nat
  endCore : Nat
  endCounter : Nat
  resident : Bool
  stack : Nat
  area : Nat
  ofs : Nat
  len : Nat
  deriving DecidableEq, Repr

/-- A switch group (R170): its cores, context and epoch in service, the request that waits, the wave under way,
its sections with the index of the running one, the sections that stand in their context slots and those of them that have run and
been switched away from (R185), the section being loaded, and whether a section load failed (R462). -/
structure GroupRec where
  cores : List Nat
  ctx : Nat
  epoch : Nat
  req : Option SwitchReq
  wave : Option Wave
  sections_ : List SectionRow
  sec : Nat
  loadedSecs : List Nat
  ranSecs : List Nat
  loading : Option Nat
  secFailed : Bool
  deriving DecidableEq, Repr

/-- A group before the load. -/
def GroupRec.init : GroupRec := ⟨[], 0, 0, none, none, [], 0, [], [], none, false⟩

/-- A request in a cluster-memory bank's queue (R141): the circuit it came on, whether it writes, its byte address, its data, its event
slot or TAG, its DEGRADED mark, its class, the crossbar port at which it entered, and the token that made it. -/
structure BankReq where
  circ : Nat
  write : Bool
  addr : Nat
  data : Nat
  tag : Nat
  degraded : Bool
  free : Bool
  port : Nat
  tok : Token
  deriving DecidableEq, Repr

/-- A token in a Drip segment or in a flit: its circuit, the hop it waits to cross next, the circuits a counter unit's token has still to
leave on, the request it stands for where it is one of a bank's queue (log entry 43), and in a flit its place: the wheel position at which it
crossed (R145). -/
structure DripTok where
  circ : Nat
  hop : Nat
  tok : Token
  left : List Nat
  req : Option BankReq
  pos : Nat
  deriving DecidableEq, Repr

/-- A token that waits to cross a hop of a circuit. -/
def DripTok.at (key h : Nat) (t : Token) : DripTok := ⟨key, h, t, [], none, 0⟩

/-- An open spill: its set, the index of its queue, its tokens oldest first and the number written so far, and whether a full
segment is already counted (R193). -/
structure Spill where
  set : Nat
  queue : Nat
  toks : List DripTok
  wrote : Nat
  fullCounted : Bool
  deriving DecidableEq, Repr

/-- A Drip set (R188, R189): its queues, the start of its timer, and the spill being written (queue, segment). -/
structure DripRec where
  queues : List Endp
  since : Option Nat
  spilling : Option (Nat × Nat)
  deriving DecidableEq, Repr

/-- A set not declared. -/
def DripRec.init : DripRec := ⟨[], none, none⟩

/-- A notice on its way to the Screed (R255, R299): skew or which kind, event slot, logical core of the device
(16 × physical cluster + logical core). -/
structure PendNotice where
  skew : Bool
  kind : NoticeKind
  slot : Nat
  core : Nat
  deriving DecidableEq, Repr

/-- A block-map entry (R442) with the core that serves it. -/
structure PassBlock where
  core : Nat
  phase : Nat
  ctx : Nat
  free : Bool
  deriving DecidableEq, Repr

/-- A stack's part of a pass image (R211): its stack, its number, and its blocks in the order of delivery. -/
structure PassImage where
  stack : Nat
  ref : Nat
  blocks : List PassBlock
  deriving DecidableEq, Repr

/-- The fabric. `wait` holds the tokens waiting to cross hop h of a circuit (key circuit × 256 + h); `banks` holds the request queues of
the cluster-memory banks, oldest first (34 × cluster + physical bank); `flits` the tokens of the flit under way on each die link (8 × die
+ link for flits received by a C-die, 8 × die + 4 + half for those received by the X-die); `ws`, `cmem` and `scrim` are the weight
stores (2^18 × core + byte), cluster memories (2^23 × cluster + byte) and Scrim column stores (2^20 × cluster + byte). -/
structure FabSt where
  cores : SMap CoreRec
  engs : SMap EngRec
  circuits : List Circuit
  cst : SMap CircSt
  wait : SMap (List Waiting)
  /-- Tokens that have come to wait in the fabric so far: the order of their arrival. -/
  stamp : Nat
  banks : SMap (List BankReq)
  flits : SMap (List DripTok)
  wheels : List Wheel
  wpos : SMap WheelPos
  entries : List EntryRow
  groups : SMap GroupRec
  drips : SMap DripRec
  spills : SMap (Option Spill)
  notices : List PendNotice
  images : List PassImage
  ws : SMap Byte
  cmem : SMap Byte
  scrim : SMap Byte
  /-- Lowest pace of each cluster in the running interval, and the interval. -/
  paceMin : SMap Nat
  paceIv : SMap Nat
  /-- Each die link (4 × die + link): 0 while it carries tokens; once it has lost lock, 1 + its failed attempts (R460). -/
  linkTries : SMap Nat
  deriving DecidableEq, Repr

/-! Numerics ("Number formats, scaling and online adaptation") -/

/-- What the statistics unit has seen of one step of a row (R256 to R258): largest magnitude code and saturated codes, DATA tokens taken
into account, codes of the running block passed, tokens of the row's circuit passed, the positions saturated and each position's magnitude. -/
structure StepStat where
  maxabs : Nat
  sat : Nat
  seen : Nat
  counted : Nat
  toks : Nat
  satPos : List Nat
  chanMax : SMap Nat
  deriving DecidableEq, Repr

/-- A step of which nothing is seen. -/
def StepStat.init : StepStat := ⟨0, 0, 0, 0, 0, [], []⟩

/-- A row of the statistics unit (R246, R257, R258): the running step, the complete steps that have not closed, oldest first, steps closed,
exponents decided, latest first (step + 1, or 0 for the initial one), SCALE tokens sent, promoted positions with the step + 1 of
their close, and what the latest SCALE tokens carried, latest first: the step, the exponent, and the close it was decided at. -/
structure RowRec where
  run : StepStat
  due : List StepStat
  closed : Nat
  exps : List (Nat × Int)
  sent : Nat
  promo : List (Nat × Nat)
  carried : List (Nat × Int × Nat)
  deriving DecidableEq, Repr

/-- A row at load. -/
def RowRec.init : RowRec := ⟨StepStat.init, [], 0, [], 0, [], []⟩

/-- A declared channel (R261): largest magnitude of the running window and its steps so far. -/
structure ChanRec where
  maxabs : Nat
  count : Nat
  deriving DecidableEq, Repr

/-- A Scrim directory entry (R442) on its physical cluster. -/
structure ScrimEntry where
  cl : Nat
  row : Nat
  pos : Nat
  marked : Bool
  promotable : Bool
  ofs : Nat
  deriving DecidableEq, Repr

/-- A Scrim token waiting for its row's partial: channel position, BF16 code, degraded, event slot or TAG. -/
structure ScrimTok where
  pos : Nat
  code : Nat
  degraded : Bool
  tag : Nat
  deriving DecidableEq, Repr

/-- An adaptation pair (R269 to R274): blocks the running epoch changed, a commit that waits for its digest, whether
the shadow copy is still to be made and of which blocks, writes held until it is (core, place, word; the place is an address in the weight
store, or 2^18 + 64 × engine + register), and the digest of the epoch on its
way. -/
structure AdaptRec where
  changed : List Nat
  committing : Bool
  copyDue : Bool
  copying : List Nat
  held : List (Nat × Nat × Val)
  digest : List Byte
  deriving DecidableEq, Repr

/-- A pair at load. -/
def AdaptRec.init : AdaptRec := ⟨[], false, false, [], [], []⟩

/-- Numerics: rows (4096 × cluster + row), declared channels (2048 × cluster + channel), the Scrim directory and
Scrim tokens on their way, adaptation by group, FIRST_EVENT of every adaptation switch completed, and the words that the latest accepted
live writes replaced in NUM_RC_LIMITS and NUM_GCFG (R260). -/
structure NumSt where
  rows : SMap RowRec
  chans : SMap ChanRec
  dir : List ScrimEntry
  scrimIn : SMap (List ScrimTok)
  adapt : SMap AdaptRec
  adaptFirsts : List Nat
  replaced : SMap (Option Nat)
  deriving DecidableEq, Repr


/-! The event grid and the Screed ("The event path", "The Screed, menu slots and decisions") -/

/-- A network input of one event: value, DEGRADED, and the network time at which it was present,
in units of 2^-16 ns. -/
structure InVal where
  v : Word
  degraded : Bool
  at_ : Nat
  deriving DecidableEq, Repr

/-- Slot outputs (R287). -/
inductive SlotOut where
  | accept | reject | noDecision
  deriving DecidableEq, Repr

/-- What a group result says (R308): the two words, and the members absent from it. -/
structure GroupRes where
  dec : BitVec 64
  comp : BitVec 64
  absent : BitVec 64
  deriving DecidableEq, Repr

/-- A member's contribution (R306): device id, decision word, companion word. -/
structure Contribution where
  dev : Nat
  dec : BitVec 64
  comp : BitVec 64
  deriving DecidableEq, Repr

/-- An event in its slot (R20). -/
structure Ev where
  n : Nat
  admitted : Bool
  released : Bool
  /-- Channels with a missing position in the window (R67), and whether there was any (R68). -/
  missing : List Nat
  /-- The latest time TAG of each lane in use at the admission time (R528). -/
  phases : List (Nat × Int)
  inputs : SMap (Option InVal)
  /-- Skew notices (R291) and the notices that make the event LATE (R299), with the logical core of each. -/
  skews : List Nat
  notices : List Nat
  /-- Completion in units of 2^-16 ns of network time, once measured (R283). -/
  completion : Option Nat
  /-- Enabled slots with their outputs, in ascending order, once decided. -/
  outs : List (Nat × SlotOut)
  late : Bool
  /-- The contribution formed at the local deadline (R306). -/
  own : Option Contribution
  /-- Contributions of other members and the members heard (R363, R364). -/
  heard : List Contribution
  group : Option GroupRes
  /-- The contribution collection is closed (R365). -/
  closed : Bool
  /-- The held decision or the event's slot lay in a failed row (R463). -/
  lost : Bool
  deriving DecidableEq, Repr

/-- A newly opened event. -/
def Ev.init (n : Nat) : Ev :=
  ⟨n, false, false, [], [], [], [], [], none, [], false, none, [], none, false, false⟩

/-- The hold-off of a menu slot: its end in ns of T_sample (TIME), or its last event (EVENTS). -/
structure MenuRec where
  holdT : Option Nat
  holdE : Option Nat
  deriving DecidableEq, Repr

/-- What an effect boundary does to a slot's own state (R293). -/
structure MenuFx where
  event : Nat
  slot : Nat
  prescale : Bool
  modeNone : Bool
  deriving DecidableEq, Repr

/-- The counts of one interval (Tables 8.6, 8.8). -/
structure RfAcc where
  events : Nat
  late : Nat
  nodec : Nat
  degraded : Nat
  skew : Nat
  missed : Nat
  absent : BitVec 64
  dropped : Nat
  lastEv : Option Nat
  jump : Bool
  deriving DecidableEq, Repr

/-- Nothing counted. -/
def RfAcc.init : RfAcc := ⟨0, 0, 0, 0, 0, 0, 0, 0, none, false⟩

/-- The counts of one slot in one interval (Table 8.7). -/
structure SlotAcc where
  hits : Nat
  held : Nat
  accepted : Nat
  late : Nat
  degr : Nat
  nodec : Nat
  deriving DecidableEq, Repr

/-- Nothing counted. -/
def SlotAcc.init : SlotAcc := ⟨0, 0, 0, 0, 0, 0⟩

/-- The Screed. -/
structure ScrSt where
  armed : Bool
  /-- Network time of arming, and the first event formed (R24). -/
  armedAt : Nat
  firstEv : Nat
  /-- Events never formed: windows of an accepted jump, first and last (R341). -/
  skips : List (Nat × Nat)
  /-- The latest events whose window opened, that were admitted, and that were released. -/
  opened : Option Nat
  admitted : Option Nat
  releasedEv : Option Nat
  /-- The 256 event slots (R20). -/
  slots : SMap (Option Ev)
  menu : SMap MenuRec
  fx : List MenuFx
  /-- The first event released in SAFE (R313, R463). -/
  safeFrom : Option Nat
  /-- Rate-frame counts by interval, and by interval × 16384 + slot; frames sent; the next
  interval that may be sent (R314, R342). -/
  rf : SMap RfAcc
  rfSlots : SMap SlotAcc
  rfSeq : Nat
  rfNext : Nat
  /-- End of the active level of each DEC output, in ns of network time (R311). -/
  dec : SMap (Option Nat)
  /-- Least headroom of the running window in units of 2^-16 ns (R303), and its start in device time. -/
  headMin : Option Int
  headStart : Nat
  deriving DecidableEq, Repr

/-! The time service ("Network time and time marks") -/

/-- A Sync or TSYNC held for a delay exchange: t1 and t2 in units of 2^-16 ns. -/
structure SyncRec where
  t1 : Int
  t2 : Int
  deriving DecidableEq, Repr

/-- A delay request under way: its sequence number, t3, and the latest Sync before it (R331). -/
structure DelayReq where
  seq : Nat
  t3 : Int
  sync : Option SyncRec
  /-- The sequence number of the two-step Sync received before the request whose Follow_Up is still out: the latest Sync (R331). -/
  pending : Option (BitVec 16)
  /-- t4 of a request answered while that Follow_Up is out. -/
  t4 : Option Int
  deriving DecidableEq, Repr

/-- What the time service keeps of a source (1: Ethernet; 2 to 7: mesh port 0 to 5). -/
structure SrcRec where
  qualified : Bool
  /-- A timeout has taken effect since the last arrival (R35). -/
  expired : Bool
  /-- Device time of the latest Announce or TSYNC. -/
  heardAt : Nat
  sync : Option SyncRec
  req : Option DelayReq
  nextSeq : Nat
  /-- D in units of 2^-16 ns (R331). -/
  delay : Option Rat
  /-- t1 of the last measurement used (R333). -/
  lastT1 : Option Int
  /-- θ of the latest consecutive outliers, newest first (R334). -/
  outliers : List Rat
  /-- Grandmaster, steps removed and time properties, as last announced. -/
  gm : BitVec 64
  steps : Nat
  utc : Nat
  arb : Bool
  logSync : Int
  /-- Device time from which its next delay request is due (R345, Table 9.1). -/
  reqDue : Nat
  deriving DecidableEq, Repr

/-- A source after reset. -/
def SrcRec.init : SrcRec := ⟨false, false, 0, none, none, 0, none, none, [], 0, 0, 0, false, 0, 0⟩

/-- A foreign time transmitter (Table 9.1) with the device time of its latest Announce. -/
structure Foreign where
  msg : AnnounceMsg
  heardAt : Nat
  deriving DecidableEq, Repr

/-- A Sync that waits for its Follow_Up. -/
structure TwoStep where
  seq : BitVec 16
  rx : Nat
  /-- The Sync's own correction field (Table 9.1). -/
  correction : Int
  deriving DecidableEq, Repr

/-- An accepted jump (Table 9.5): acceptance in ns of network time, the last event formed, and the
time of the step. -/
structure Jump where
  tA : Nat
  nLast : Option Nat
  tS : Nat
  deriving DecidableEq, Repr

/-- A mark generator beside its registers (R347 to R352): whether armed, next k, its last mark in units of
2^-16 ns, next k to send on the lanes, and the end of its pulse in ns of network time. -/
structure GenRec where
  armed : Bool
  mode : Nat
  k : Nat
  kSent : Nat
  lastMark : Option Nat
  pulseEnd : Option Nat
  deriving DecidableEq, Repr

/-- A generator after reset. -/
def GenRec.init : GenRec := ⟨false, 0, 0, 0, none, none⟩

/-- The time service. -/
structure TmsSt where
  /-- Network time has been set. -/
  netSet : Bool
  /-- The counter of network time in units of 2^-40 ns (R320). -/
  ctr : Nat
  /-- y in units of 2^-40, and the integral, dimensionless (R332). -/
  y : Int
  i : Rat
  /-- The last values of y fed in ACQUIRE or LOCKED, newest first, at most 16 (R335). -/
  ys : List Int
  src : SMap SrcRec
  foreign : List Foreign
  chosen : Option (BitVec 80)
  twoStep : Option TwoStep
  /-- Network time of the last measurement fed, in units of 2^-16 ns, and the source it came from (R332). -/
  lastFed : Option Nat
  lastFedSrc : Nat
  /-- Consecutive fed measurements within LOCK_NS and above 4 × LOCK_NS (Table 9.4, rows 8, 9). -/
  lockRun : Nat
  farRun : Nat
  /-- θ of the latest valid measurement, in units of 2^-16 ns. -/
  lastTheta : Option Rat
  jump : Option Jump
  /-- Live writes made while PAUSED (R343): address and value. -/
  paused : List (Nat × Nat)
  /-- ns of device time toward the next ms of TMS_HOLDOVER_MS. -/
  holdNs : Nat
  gens : SMap GenRec
  /-- Spans of network time passed over by forward steps, in units of 2^-16 ns (R352). -/
  passed : List (Nat × Nat)
  /-- The Ethernet link is up. -/
  ethUp : Bool
  /-- By TMS port p, device time from which its next TSYNC block is due at 2p, and its next TINFO and TASYM at 2p + 1 (R344). -/
  txDue : SMap Nat
  deriving DecidableEq, Repr
/-! The mesh and the host link ("The device group, the host link and the record store") -/

/-- A mesh port beside MP_CFG: device time of its latest matching HELLO, and the ms of device time in which its
latest HELLO was sent (R359, R360). -/
structure PortRec where
  matched : Nat
  sentMs : Option Nat
  deriving DecidableEq, Repr

/-- What a host message does for its sender once it is acknowledged: nothing, or it delivers a record (R380). -/
structure HostMsg where
  ty : Nat
  dst : Nat
  seq : Nat
  body : Nat
  data : List (BitVec 128)
  delivers : Option Nat
  deriving DecidableEq, Repr

/-- A host channel to and from one peer (R362): the next SEQ to give out, messages not yet sent, messages sent
and not acknowledged (oldest first), the device time since which the resend time runs, the next SEQ
expected, and the device time since which accepted messages wait for an ACK. -/
structure HostChan where
  nextSeq : Nat
  queue : List HostMsg
  unacked : List HostMsg
  since : Nat
  expect : Nat
  owed : Option Nat
  deriving DecidableEq, Repr

/-- A channel after reset. -/
def HostChan.init : HostChan := ⟨0, [], [], 0, 0, none⟩

/-- A forwarded read that has no completion yet (R372): RTAG, the device time it was sent, and who waits for its data: 0 the host,
1 the management bus (R492), 2 nobody, its WAIT clocks having passed (R493). -/
structure FwdRead where
  rtag : Nat
  sentAt : Nat
  waiter : Nat
  deriving DecidableEq, Repr

/-- The mesh: ports, host channels by peer, and the anchor's outstanding forwarded reads with the next RTAG. -/
structure MshSt where
  ports : SMap PortRec
  chans : SMap HostChan
  reads : List FwdRead
  nextTag : Nat
  /-- The ms of device time in which the latest periodic HSTATE was sent (R373). -/
  hstateMs : Option Nat
  /-- By member, the origin of the last access the anchor forwarded to it (R413). -/
  fwd : SMap (Option Origin)
  deriving DecidableEq, Repr

/-- A descriptor being filled with packed entries (R381): address, length, bytes used, device time of its
first entry. -/
structure OpenDesc where
  addr : Nat
  len : Nat
  used : Nat
  firstAt : Nat
  deriving DecidableEq, Repr

/-- A host ring beside its registers: the record of the fragment chain in progress, its bytes already
delivered and its next fragment; the descriptor being filled; the device time of the latest raise
and whether the status word has changed since (R383); on a LOG ring the next entry due (R425). -/
structure HostRing where
  chain : Option Nat
  done : Nat
  frag : Nat
  desc : Option OpenDesc
  /-- A record of a begun chain that has expired: its chain still needs the closing descriptor (R388). -/
  expiring : Option Nat
  raised : Option Nat
  changed : Bool
  /-- The number of the next summary or log entry that it takes (R381). -/
  next : Nat
  /-- Started while nothing could be written: its status word of 0 is written before the next poll (R376). -/
  zeroDue : Bool
  deriving DecidableEq, Repr

/-- A ring after reset. -/
def HostRing.init : HostRing := ⟨none, 0, 0, none, none, none, false, 0, false⟩

/-- What the host's configuration writes have set in the anchor's configuration space (Table 10.7): the base of BAR0 in units of its size, Relaxed
Ordering in Device Control (R379), and the enable and function mask of MSI-X (log entry 71). -/
structure PcieCfg where
  bar : Nat
  relaxed : Bool
  msixOn : Bool
  msixMask : Bool
  deriving DecidableEq, Repr

/-- One message at the anchor's host link (R372): a write with the record that it delivers; a read, and for a member's the SEQ that it answers and
what host memory gives; or a vector. -/
inductive HostJob where
  | write (addr : Nat) (data : List Byte) (ro : Bool) (delivers : Option Nat)
  | read (addr len : Nat) (answer : Option (Nat × List Byte))
  | vector (v : Nat)
  deriving DecidableEq, Repr

/-- The host side: rings, summaries on the die (oldest first), the polls under way (device time, and on a
member the SEQ of the message), the SEQs of expired polls whose data has not come, the device time of the
latest poll, PERST_N, and of the anchor its configuration space, its MSI-X table and pending bits, and the messages that wait for their turn at
its link, by source device, with the source served last and the device time of that service (R372). -/
structure HstSt where
  rings : SMap HostRing
  sums : List (List Byte)
  /-- Summaries that have left the buffer: the number of the oldest in it. -/
  sumBase : Nat
  polling : List (Nat × Nat)
  overdue : List Nat
  polledAt : Nat
  perst : Bool
  cfg : PcieCfg
  msix : SMap Nat
  pba : List Nat
  jobs : List (Nat × HostJob)
  jobLast : Nat
  jobAt : Option Nat
  deriving DecidableEq, Repr


/-! What the device sends out -/

/-- What the device sends: to lanes, pins, the Ethernet port, the host and the management bus. -/
inductive Output where
  /-- A Skimlink block on a lane: control or data, its payload, and the line bits after scrambling (R42). -/
  | block (lane : Nat) (ctl : Bool) (payload line : BitVec 128)
  /-- The levels on a lane's line, first one first: blocks with their headers, codeword markers and parity (R39, R41, R42, Table 2.11). -/
  | line (lane : Nat) (levels : List (Fin 4))
  /-- The decision and companion words of an event on the links (R298). -/
  | words (n : Nat) (dec comp : BitVec 64)
  /-- An edge of a DEC output to the given level, with the network time in ns at which it is due (R311). -/
  | decEdge (k : Nat) (level : Bool) (at_ : Nat)
  /-- An edge of a TMARK output, with its network time in units of 2^-16 ns (R348). -/
  | tmarkEdge (g : Nat) (level : Bool) (at_ : Nat)
  /-- An Ethernet frame: destination, source, EtherType, payload (R316, R326). -/
  | frame (dst src : BitVec 48) (etype : BitVec 16) (payload : List Byte)
  /-- A Delay_Req message on the Ethernet port: destination, source, domain, sequence (Table 9.1). -/
  | delayReq (dst src : BitVec 48) (domain : Nat) (seq : Nat)
  /-- A write to host memory: address, bytes, Relaxed Ordering (R379). -/
  | hostWrite (addr : Nat) (data : List Byte) (ro : Bool)
  /-- A read of host memory. -/
  | hostRead (addr len : Nat)
  /-- An MSI-X message: address and data (R383). -/
  | msix (addr data : Nat)
  /-- A response on the management bus: status, and the data of a read (Table 14.4). -/
  | mgtResponse (status : Nat) (data : Option Word)
  /-- The completion of a window read by the host: data (R370, R372). -/
  | windowData (v : Word)
  deriving DecidableEq, Repr

/-! Start-up ("Primer, Undercoat, attestation and the change log") -/

/-- The loader. -/
structure BootSt where
  /-- The flash: its bytes (unlisted bytes read 0xFF) and its size. -/
  flash : SMap Byte
  flashLen : Nat
  /-- The Undercoat's 128 words, ID_SEED included, as the first fuse of each bit holds them, and the bits of each word whose second and
  third fuse differ from the first (R406). -/
  und : SMap Nat
  undOdd : SMap Nat × SMap Nat
  /-- Slot under trial or loaded (0 A, 1 B, 2 F), slots rejected, and the first slot rejected for 0x0D. -/
  slot : Option Nat
  rejected : List Nat
  misfit : Option Nat
  /-- Table 11.2 has selected SAFE. -/
  safe : Bool
  /-- Next section whose digest is due, and the device time of the first flash read of the item under its watchdog. -/
  sec : Nat
  itemAt : Nat
  /-- A REGS section has passed its digest check in step 7: the time service and the Ethernet port have started (Table 11.1). -/
  regsIn : Bool
  /-- The image as read by the end of step 7. -/
  staged : SMap Byte
  /-- KEY_INDEX of the loaded image. -/
  keyIndex : Option Nat
  /-- The placement chosen (R443): physical cluster by logical cluster, 0xFF for none. -/
  place : List Nat
  /-- New starts of step 8 (R456). -/
  restarts : Nat
  /-- Device times: start of the running step, and REFB qualified (R472). -/
  stepAt : Nat
  refbAt : Option Nat
  /-- Cycles of the ring oscillator in the 8 windows with which REFA and REFB qualified; 0 while they have not (R471, R473). -/
  refSums : Nat × Nat
  /-- ns of step 9 spent waiting for LOCKED under ARM_POLICY = LOCK, which the boot watchdog leaves out (R392). -/
  waited : Nat
  /-- X-die, Scrim, statistics and link outcomes of self-test are taken. -/
  tested : Bool
  /-- Report bytes 0x000 to 0x13F under signature (R418). -/
  att : Option (List Byte)
  deriving DecidableEq, Repr
/-! Health and wear ("Faults, spares, wear and degraded running") -/

/-- The wear windows of R467: device time at which the running window began, each watched counter's value at that
moment and its consecutive windows over threshold (keyed by the counter's address), and the units warned. -/
structure WearSt where
  start : Option Nat
  base : SMap Nat
  runs : SMap Nat
  warned : List Nat
  deriving DecidableEq, Repr


/-! Clocks and power ("Clock islands and the 36 power domains") -/

/-- A gate request under way (R484): target, device time it began, and for a live request the write (origin, CLK_GATE
before, value written); none for a request of the HPC. -/
structure GateReq where
  target : GateTarget
  since : Nat
  live : Option (Origin × Nat × Nat)
  deriving DecidableEq, Repr

/-- A refused gate of the HPC, with the device time of its refusal (R486). -/
structure GateRetry where
  target : GateTarget
  at_ : Nat
  deriving DecidableEq, Repr

/-- A clock generator (R481): divider, target divider, for a change of source whether the old source is still selected, and the device
time since which it holds its divider. -/
structure GenDiv where
  div : Nat
  goal : Nat
  before : Bool
  at_ : Nat
  deriving DecidableEq, Repr

/-- The clocks: the ring oscillator's frequency in MHz (R470), loops that coast or relock, whether XMAIN runs from SYS, the
generator of XMAIN, whether a forced switch has happened, gate requests under way, refused ones of the HPC, and the device times since
which AUXCLK0 and AUXCLK1 hold their dividers. -/
structure ClkSt where
  ringMhz : Nat
  coasting : List Nat
  onSys : Bool
  xmain : GenDiv
  forced : Bool
  gates : List GateReq
  retries : List GateRetry
  aux0At : Nat
  aux1At : Nat
  deriving DecidableEq, Repr

/-- A change of the setpoint that has not settled. -/
inductive SetChange where
  | raise_ | lower | pin
  deriving DecidableEq, Repr

/-- An event measured with headroom below 0.08 × D and not yet judged (R503): event number and admission time in ns. -/
structure LowEvent where
  n : Nat
  adm : Nat
  deriving DecidableEq, Repr

/-- A flash bridge operation in progress (R495): code, flash address, bytes, page buffer as it was at GO, and whether it is
not carried out (R496). -/
structure FlashOp where
  op : Nat
  addr : Nat
  len : Nat
  data : List Byte
  refused : Bool
  deriving DecidableEq, Repr

/-- Power and the HMB: domains due on and not yet switched on; the change of setpoint under way; network time in units of 2^-16 ns
at which the latest raise settled; whether one occurred in the running window; whether a pin waits for a raise to settle; events to judge; the flash bridge;
and a watched rail out of range (R512), POR_N and DEV_RST_N as they stand. -/
structure PwrSt where
  due : List Nat
  change : Option SetChange
  settledAt : Nat
  raised : Bool
  pinWaits : Bool
  low : List LowEvent
  flashOp : Option FlashOp
  railLow : Bool
  porLow : Bool
  devRstLow : Bool
  deriving DecidableEq, Repr


/-- The device: its registers and the state of its blocks. -/
structure Dev where
  regs : SMap Nat
  caps : List Captured
  log : LogSt
  /-- Part code, stepping, GID straps and TEST_EN, as the board and the factory gave them. -/
  part : Nat
  step : Nat
  gid : BitVec 6
  testEn : Bool
  /-- Device time in ns since POR_N was released; held in reset. -/
  devNs : Nat
  inReset : Bool
  freeCtr : Nat
  outbox : List Output
  ing : IngSt
  prm : PrmSt
  scr : ScrSt
  tms : TmsSt
  acq : AcqSt
  store : RecSt
  stk : StkSt
  msh : MshSt
  hst : HstSt
  wear : WearSt
  fab : FabSt
  num : NumSt
  boot : BootSt
  clk : ClkSt
  pwr : PwrSt
  deriving DecidableEq, Repr

/-- The device with its queue of waiting commands, first in, first out. -/
structure State where
  dev : Dev
  pending : List Instr
  deriving DecidableEq, Repr

/-! Reset -/

/-- The device as it stands in reset, held there until POR_N is released: every register at its reset value (Tables 0.2 to 14.11),
every queue, buffer and memory empty. The part is a ZRT-6404 of stepping B0 on a blank flash, with FITTED fused and key 0 present
(Tables 0.1, 0.5, 11.10; log entry 11), its ring oscillator at 500 MHz (log entry 14). -/
def Dev.init : Dev where
  regs := []
  caps := []
  log := ⟨false, [], 65536, 0, none, 0, [], 0, [], none, none, none⟩
  part := 0x6404
  step := 0xB0
  gid := 0
  testEn := false
  devNs := 0
  inReset := true
  freeCtr := 0
  outbox := []
  ing := ⟨[], [], []⟩
  prm := ⟨[], [], [], [], [], []⟩
  scr := {
    armed := false, armedAt := 0, firstEv := 0, skips := [], opened := none, admitted := none, releasedEv := none,
    slots := [], menu := [], fx := [], safeFrom := none, rf := [], rfSlots := [], rfSeq := 0, rfNext := 0, dec := [],
    headMin := none, headStart := 0 }
  tms := {
    netSet := false, ctr := 0, y := 0, i := 0, ys := [], src := [], foreign := [], chosen := none, twoStep := none,
    lastFed := none, lastFedSrc := 0, lockRun := 0, farRun := 0, lastTheta := none, jump := none, paused := [],
    holdNs := 0, gens := [], passed := [], ethUp := false, txDue := [] }
  acq := ⟨[], [], [], []⟩
  store := ⟨[], 0, [], [], 0, [], [], []⟩
  stk := ⟨[], [], [], [], [], 0, 0, [], []⟩
  msh := ⟨[], [], [], 0, none, []⟩
  hst := ⟨[], [], 0, [], [], 0, false, ⟨0, false, false, false⟩, [], [], [], 0, none⟩
  wear := ⟨none, [], [], []⟩
  fab := {
    cores := [], engs := [], circuits := [], cst := [], wait := [], stamp := 0, banks := [], flits := [], wheels := [], wpos := [],
    entries := [], groups := [], drips := [], spills := [], notices := [], images := [], ws := [], cmem := [],
    scrim := [], paceMin := [], paceIv := [], linkTries := [] }
  num := ⟨[], [], [], [], [], [], []⟩
  boot := {
    flash := [], flashLen := 2 ^ 32, und := [(32, 1), (35, 0xFFFFFFFF), (36, 0x1001F)], undOdd := ([], []), slot := none, rejected := [],
    misfit := none, safe := false, sec := 0, itemAt := 0, regsIn := false, staged := [], keyIndex := none, place := [], restarts := 0,
    stepAt := 0, refbAt := none, refSums := (0, 0), waited := 0, tested := false, att := none }
  clk := ⟨500, [], false, ⟨1, 1, false, 0⟩, false, [], [], 0, 0⟩
  pwr := ⟨[], none, 0, false, false, [], none, false, true, false⟩

/-- The machine right after reset, before POR_N is released, with no command waiting. -/
def State.reset : State := ⟨Dev.init, []⟩

end Sys2Proof.Machine
end

