-- ==== Sys2Proof/Machine/Ops.lean ====
section
/-!
DEFINITION. The named operations every family uses: registers and fields, counters, outputs, free values,
the three time bases, event times, origins, the change log and the fitted-unit word.
-/

namespace Sys2Proof.Machine

open Sys2Proof

/-! Registers -/

/-- The word the register at address a holds. -/
def Dev.rd (d : Dev) (a : Nat) : Nat := SMap.get resetWord d.regs a

/-- The register at address a made to hold v. -/
def Dev.wr (d : Dev) (a v : Nat) : Dev := { d with regs := SMap.set resetWord d.regs a (v % 2 ^ 32) }

/-- A field of a word. -/
def fieldOf (v : Nat) (f : Fld) : Nat := bitsOf v f.lo f.w

/-- A field of the register at address a. -/
def Dev.fld (d : Dev) (a : Nat) (f : Fld) : Nat := bitsOf (d.rd a) f.lo f.w

/-- A one-bit field. -/
def Dev.flag (d : Dev) (a : Nat) (f : Fld) : Bool := d.fld a f = 1

/-- A field made to hold v. -/
def Dev.setFld (d : Dev) (a : Nat) (f : Fld) (v : Nat) : Dev := d.wr a (putBits (d.rd a) f.lo f.w v)

/-- A 32-bit counter up by n; it holds at all ones (R70, R114 and their like). -/
def Dev.countN (d : Dev) (a n : Nat) : Dev := d.wr a (satInc 32 n (d.rd a))

/-- A 32-bit counter up by one. -/
def Dev.count (d : Dev) (a : Nat) : Dev := d.countN a 1

/-- A counter up by one when b holds. -/
def Dev.countIf (d : Dev) (b : Bool) (a : Nat) : Dev := if b then d.count a else d

/-- The 64-bit counter in two registers, up by n; it holds at all ones (R152). -/
def Dev.count64 (d : Dev) (a n : Nat) : Dev :=
  let x := satInc 64 n (d.rd a + 2 ^ 32 * d.rd (a + 4))
  (d.wr a (x % 2 ^ 32)).wr (a + 4) (x / 2 ^ 32)

/-- Indices of a register, indexed once, whose field lo .. lo + w - 1 is not 0, in ascending order. The field's
reset value is 0, so an unlisted register is no such index. -/
def Dev.nonzero (d : Dev) (base stride n : Nat) (f : Fld) : List Nat :=
  d.regs.filterMap fun e =>
    if base ≤ e.1 then
      if (e.1 - base) % stride = 0 then
        if (e.1 - base) / stride < n then
          if bitsOf e.2 f.lo f.w ≠ 0 then some ((e.1 - base) / stride) else none
        else none
      else none
    else none

/-- One more output. -/
def Dev.emit (d : Dev) (o : Output) : Dev := { d with outbox := o :: d.outbox }

/-- A value the spec leaves open, and the device with its counter of such values advanced. -/
def Dev.open_ (d : Dev) (k : OpenValue) : Nat × Dev :=
  (freeValue k d.freeCtr, { d with freeCtr := d.freeCtr + 1 })

/-- A rational in units of a register: one of the two whole numbers around it, the spec saying not which
(log entry 20). -/
def Dev.roundOpen (d : Dev) (q : Rat) : Int × Dev :=
  if q.den = 1 then (q.num, d)
  else
    let (b, d) := d.open_ .roundTime
    (q.num / (q.den : Int) + ((b % 2 : Nat) : Int), d)

/-! Time bases (R32, Table 1.5) -/

/-- Network time in whole ns. -/
def Dev.netNs (d : Dev) : Nat := d.tms.ctr / 2 ^ 40

/-- Network time in units of 2^-16 ns (R320). -/
def Dev.net16 (d : Dev) : Nat := d.tms.ctr / 2 ^ 24

/-- Full time of R14 from a time in units of 2^-16 ns: seconds, ns, fraction. -/
def fullTime (t : Nat) : Nat :=
  (t / 2 ^ 16 / 1000000000) * 2 ^ 48 + (t / 2 ^ 16 % 1000000000) * 2 ^ 16 + t % 2 ^ 16

/-- The time in units of 2^-16 ns that a full time spells; ns above 999,999,999 count as they stand (DESIGN CHOICE, log entry 41). -/
def ofFullTime (x : Nat) : Nat := (x / 2 ^ 48 * 1000000000 + x / 2 ^ 16 % 2 ^ 32) * 2 ^ 16 + x % 2 ^ 16

/-- The whole-ns time that a 40-bit short tag names, taken within 2^39 ns of now (R15). -/
def Dev.shortTag (d : Dev) (tag : Nat) : Int :=
  let now : Nat := d.netNs
  let df : Nat := (tag + 2 ^ 40 - now % 2 ^ 40) % 2 ^ 40
  if df < 2 ^ 39 then Int.ofNat (now + df) else Int.ofNat now - Int.ofNat (2 ^ 40 - df)

/-! Event times (R17 to R22, R298, R306) -/

/-- T_ev in ns. -/
def Dev.tev (d : Dev) : Nat := d.fld Reg.scrTev Fld.scrTevTevNs

/-- L in ns. -/
def Dev.lNs (d : Dev) : Nat := d.fld Reg.scrCfg Fld.scrCfgLNs

/-- A in ns. -/
def Dev.aNs (d : Dev) : Nat := d.fld Reg.scrCfg Fld.scrCfgANs

/-- G in ns. -/
def Dev.gNs (d : Dev) : Nat := d.fld Reg.scrGcfg Fld.scrGcfgGbudgetNs

/-- Group mode. -/
def Dev.group (d : Dev) : Bool := d.flag Reg.scrGcfg Fld.scrGcfgGrpMode

/-- T_sample of event n (R19). -/
def Dev.tSample (d : Dev) (n : Nat) : Nat := (n + 1) * d.tev

/-- Admission time of event n (R22). -/
def Dev.admTime (d : Dev) (n : Nat) : Nat := d.tSample n + d.aNs

/-- Release time of event n (R298). -/
def Dev.relTime (d : Dev) (n : Nat) : Nat := d.tSample n + d.lNs

/-- The time at which event n must be complete: its release, or its local deadline in group mode (R306). -/
def Dev.deadline (d : Dev) (n : Nat) : Nat := if d.group then d.relTime n - d.gNs else d.relTime n

/-- The event whose window holds a time in whole ns (R17); T_ev of 0 makes none. -/
def Dev.eventOf (d : Dev) (t : Int) : Option Nat :=
  if t < 0 then none else if d.tev = 0 then none else some (t.toNat / d.tev)

/-- Whether event n has been admitted by now: its admission time has passed (R23), or it has been admitted. -/
def Dev.isAdmitted (d : Dev) (n : Nat) : Bool :=
  decide (d.admTime n * 2 ^ 40 < d.tms.ctr) || (match d.scr.admitted with
    | some m => decide (n ≤ m)
    | none => false)

/-- Whether the window of event n lies in a pause: opening 1,000 ns or more after the acceptance of a jump that
is not yet applied, or passed over by one that was (R340, R341). -/
def Dev.inPause (d : Dev) (n : Nat) : Bool :=
  (match d.tms.jump with
    | some j => decide (j.tA + 1000 ≤ n * d.tev)
    | none => false) ||
  d.scr.skips.any (fun r => decide (r.1 ≤ n) && decide (n ≤ r.2))

/-- Whether event n is never formed: before arming (R24) or in a pause (R341). -/
def Dev.neverFormed (d : Dev) (n : Nat) : Bool :=
  !d.scr.armed || decide (n < d.scr.firstEv) || d.inPause n

/-- The record of event n, if it stands in its slot (R20). -/
def Dev.evAt (d : Dev) (n : Nat) : Option Ev :=
  match SMap.get (fun _ => none) d.scr.slots (n % 256) with
  | some e => if e.n = n then some e else none
  | none => none

/-- An event's record put into its slot. -/
def Dev.putEv (d : Dev) (e : Ev) : Dev :=
  { d with scr := { d.scr with slots := SMap.set (fun _ => none) d.scr.slots (e.n % 256) (some e) } }

/-! Status codes (Table 0.7) -/

/-- Status codes. -/
inductive Status where
  | ok | refused | unfitted | range | policy | late | stale | skew | timedOverflow | schedCollision
  | slotClash | creditBound | segFault | truncated | degraded | timingUnproven | gateRefused
  | switchForced | jumpRefused | hstRingErr | recordDropped
  deriving DecidableEq, Repr

/-- The 8-bit code of a status (R16). -/
def Status.code : Status → Nat
  | .ok => 0x00 | .refused => 0x01 | .unfitted => 0x02 | .range => 0x03 | .policy => 0x04
  | .late => 0x05 | .stale => 0x06 | .skew => 0x07 | .timedOverflow => 0x08 | .schedCollision => 0x09
  | .slotClash => 0x0A | .creditBound => 0x0B | .segFault => 0x0C | .truncated => 0x0D
  | .degraded => 0x0E | .timingUnproven => 0x0F | .gateRefused => 0x10 | .switchForced => 0x11
  | .jumpRefused => 0x12 | .hstRingErr => 0x13 | .recordDropped => 0x14

/-! Origins (Table 11.12) -/

/-- The code of an origin class. -/
def classCode : OriginClass → Nat
  | .primer => 0 | .host => 1 | .mesh => 2 | .hmb => 3 | .internal => 4 | .fuse => 5

/-- The class of a code; the reserved codes are read as HOST. -/
def classOfCode (c : Nat) : OriginClass :=
  if c = 0 then .primer else if c = 2 then .mesh else if c = 3 then .hmb
  else if c = 4 then .internal else if c = 5 then .fuse else .host

/-- The 16-bit ORIGIN of a log entry (Table 11.16), which LOG_FWD holds too. -/
def originWord (o : Origin) : Nat := classCode o.cls + 16 * o.id.toNat

/-- The origin that a 16-bit word names. -/
def originOfWord (w : Nat) : Origin := ⟨classOfCode (w % 16), BitVec.ofNat 12 (w / 16)⟩

/-- The base of the register block of a window offset (R526): the die's window for FAB, the base of NUM for NUM. -/
def blockBase (a : Nat) : Nat :=
  if a < 0x60000 then a / 0x10000 * 0x10000
  else if a < 0xC0000 then a / 0x20000 * 0x20000
  else if a < 0x100000 then a / 0x10000 * 0x10000
  else if a < 0x160000 then a / 0x20000 * 0x20000
  else if a < 0x200000 then 0x160000
  else if a < 0xA00000 then a / 0x200000 * 0x200000
  else if a < 0xC00000 then 0xA00000
  else 0xC00000

/-- The INTERNAL origin of a change to an object (R526). -/
def internalOrigin (object : Nat) : Origin := ⟨.internal, BitVec.ofNat 12 (blockBase object / 0x10000)⟩

/-! Fuses and the fitted-unit word -/

/-- LOG_MANDATORY of the Undercoat (Table 11.10). -/
def Dev.logMandatory (d : Dev) : Bool := bitAt (d.rd (Reg.undFuse 38)) 17

/-- GLB_FITTED (Table 0.4). -/
def Dev.fitted (d : Dev) : Nat := d.rd Reg.glbFittedLo + 2 ^ 32 * d.rd Reg.glbFittedHi

/-- Whether bit b of GLB_FITTED is set. -/
def Dev.fit (d : Dev) (b : Nat) : Bool := bitAt d.fitted b

/-! The change log (R419 to R427) -/

/-- The bytes of a log entry but its chain tag. -/
def entryBytes (time : Nat) (o : Origin) (object old new status seq : Nat) : List Byte :=
  leBytes 8 time ++ leBytes 2 (originWord o) ++ leBytes 2 0 ++ leBytes 4 object ++ leBytes 4 old ++ leBytes 4 new ++
    leBytes 4 (status + 256 * seq)

/-- The chain tag before the next entry: the latest entry's, or for entry 0 the serial's (R422). -/
def Dev.prevTag (d : Dev) : Nat :=
  match d.log.tag with
  | some t => t
  | none => leNat (shake256 (leBytes 4 (d.rd Reg.undSerial0) ++ leBytes 4 (d.rd Reg.undSerial1)) 4)

/-- Bytes 0x00 to 0x1F of an entry. -/
def LogEntry.bytes (e : LogEntry) : List Byte :=
  entryBytes e.time e.origin e.object e.old e.new e.status (e.num % 2 ^ 24) ++ leBytes 4 e.chain

/-- The entry that would be written next. -/
def Dev.nextEntry (d : Dev) (o : Origin) (object old new : Nat) (st : Status) : LogEntry :=
  let seq := d.log.written % 2 ^ 24
  ⟨d.netNs, o, object, old, new, st.code, d.log.written,
   leNat (shake256 (leBytes 4 d.prevTag ++ entryBytes d.netNs o object old new st.code seq) 4)⟩

/-- Whether the on-die log is full of entries that are not mirrored. -/
def Dev.logFull (d : Dev) : Bool := decide (d.log.cap ≤ d.log.held)

/-- The record store has no pages: no channel was UP when its training ended at step 7, and the on-die log stands in the mirror's place
(R401). -/
def Dev.storeless (d : Dev) : Bool := decide (d.rd Reg.recPagesTotal = 0) && decide (8 ≤ d.fld Reg.bootStat Fld.bootStatStep)

/-- One entry written to the on-die log; a full log loses its oldest unmirrored entry (R426), which in the mirror's place is an undelivered
one (R401). -/
def Dev.logWrite (d : Dev) (o : Origin) (object old new : Nat) (st : Status) : Dev :=
  let e := d.nextEntry o object old new st
  let d' := (d.countIf d.logFull Reg.logLost).countIf (d.logFull && d.storeless) Reg.logMirrorLost
  { d' with log := { d'.log with
      entries := (e :: d'.log.entries).take d'.log.cap, written := d'.log.written + 1, tag := some e.chain,
      held := if d.logFull then d'.log.cap else d'.log.held + 1 } }

/-- An entry that is no refusal of a live write; before step 4 there is no log. -/
def Dev.logAdd (d : Dev) (o : Origin) (object old new : Nat) (st : Status) : Dev :=
  if d.log.opened then d.logWrite o object old new st else d

/-- An entry for a refusal: under LOG_MANDATORY a full log counts it in LOG_UNLOGGED instead (R427). -/
def Dev.logRefusal (d : Dev) (o : Origin) (object old new : Nat) (st : Status) : Dev :=
  if d.log.opened then
    if d.logMandatory && d.logFull then d.count Reg.logUnlogged
    else d.logWrite o object old new st
  else d

/-- An INTERNAL entry (R526). -/
def Dev.logInternal (d : Dev) (object old new : Nat) (st : Status) : Dev :=
  d.logAdd (internalOrigin object) object old new st

/-! Modes -/

/-- BOOT_STAT.MODE: 0 STARTING, 1 RUNNING, 2 SAFE, 3 FAULT. -/
def Dev.mode (d : Dev) : Nat := d.fld Reg.bootStat Fld.bootStatMode

/-- The device is in SAFE, or Table 11.2 has selected it (R313, R393). -/
def Dev.safeMode (d : Dev) : Bool := decide (d.mode = 2) || d.boot.safe

/-- The device is out of reset and has not stopped in FAULT. -/
def Dev.alive (d : Dev) : Bool := !d.inReset && decide (d.mode ≠ 3)

/-- An answer of a command: the device after it. -/
def State.next (s : State) (d : Dev) : Host.Outcome State Fault Refusal := .next { s with dev := d }

end Sys2Proof.Machine
end

