-- ==== Sys2Proof/Machine/Health.lean ====
section
/-!
DEFINITION. The health map, the modes and their pins, and wear warnings ("Faults, spares, wear and degraded
running").
-/

namespace Sys2Proof.Machine

open Sys2Proof

/-! Modes (R465) -/

/-- The device put into a mode: BOOT_STAT.MODE, GLB_STATE and the levels of READY and FAULT_N (Table 13.4). -/
def Dev.setMode (d : Dev) (m : Nat) : Dev :=
  (((d.setFld Reg.bootStat Fld.bootStatMode m).setFld Reg.glbState Fld.glbStateMode m).setFld Reg.glbState
    Fld.glbStateReady (bit01 (decide (m = 1 ∨ m = 2)))).setFld Reg.glbState Fld.glbStateFault
    (bit01 (decide (m = 2 ∨ m = 3)))

/-! The setpoint (R501, R504) -/

/-- The setpoint put at v mV; AT_CEIL and AT_FLOOR follow. -/
def Dev.setV (d : Dev) (v : Nat) : Dev :=
  ((d.setFld Reg.pwrStat Fld.pwrStatVsetMv v).setFld Reg.pwrStat Fld.pwrStatAtCeil (bit01 (decide (v = 850)))).setFld
    Reg.pwrStat Fld.pwrStatAtFloor (bit01 (decide (v = 600)))

/-! The health map (Tables 13.2, 13.3) -/

/-- A field of the health map: byte offset of its word, lowest bit, width. -/
def Dev.hmapFld (d : Dev) (ofs lo w : Nat) : Nat := d.fld (Reg.glbHmap (ofs / 4)) ⟨8 * (ofs % 4) + lo, w⟩

/-- A field of the health map made to hold v. -/
def Dev.setHmap (d : Dev) (ofs lo w v : Nat) : Dev := d.setFld (Reg.glbHmap (ofs / 4)) ⟨8 * (ofs % 4) + lo, w⟩ v

/-- Byte offsets of the entries. -/
def hmCore (c : Nat) : Nat := 0x040 + c
/-- A cluster's entry. -/
def hmCluster (c : Nat) : Nat := 0x480 + 2 * c
/-- A die's entry. -/
def hmDie (n : Nat) : Nat := 0x500 + 4 * n
/-- A stack's entry. -/
def hmStack (s : Nat) : Nat := 0x510 + 4 * s
/-- A record-store channel's entry. -/
def hmChannel (c : Nat) : Nat := 0x540 + 4 * c

/-- TIME of the map: network time, or device time before network time is first set. -/
def Dev.stampHmap (d : Dev) : Dev :=
  let t := if d.tms.netSet then d.netNs else d.devNs
  (d.wr (Reg.glbHmap 6) t).wr (Reg.glbHmap 7) (t / 2 ^ 32)

/-- One update: GEN up by 1, mirrored in GLB_HEALTH_GEN, and TIME set (R454). -/
def Dev.hmapUpdate (d : Dev) (ofs lo w v : Nat) : Dev :=
  let d := d.setHmap ofs lo w v
  let gen := d.rd (Reg.glbHmap 2) + 1
  ((d.wr (Reg.glbHmap 2) gen).wr Reg.glbHealthGen gen).stampHmap

/-- The map has been built (R453). -/
def Dev.mapBuilt (d : Dev) : Bool := decide (d.rd (Reg.glbHmap 0) = 0x5A484D41)

/-- An update of the map, once it is built: before, the change shows when it is (R453, R454). -/
def Dev.hmapChange (d : Dev) (ofs lo w v : Nat) : Dev := if d.mapBuilt then d.hmapUpdate ofs lo w v else d

/-- The 4,096 bytes of the map. -/
def Dev.hmapBytes (d : Dev) : List Byte := ((List.range 1024).map fun i => leBytes 4 (d.rd (Reg.glbHmap i))).flatten

/-- The entries of the bad-unit list and the overflow bits (R229, R455): ascending by stack and then by unit,
the first 640. -/
def Dev.writeBadList (d : Dev) (bad : List BadUnit) : Dev :=
  let sorted := bad.mergeSort fun a b => decide (a.stack < b.stack ∨ (a.stack = b.stack ∧ a.unit ≤ b.unit))
  let used := sorted.take 640
  let d := d.wr (Reg.glbHmap 3) used.length
  let d := (List.range used.length).foldl (fun e i =>
    let b := used.getD i ⟨0, 0⟩
    e.wr (Reg.glbHmap (0x180 + i)) (b.stack + 16 * b.unit)) d
  (sorted.drop 640).foldl (fun e b => e.setHmap (hmStack b.stack) 4 1 1) d

/-- The health map built at the end of step 7 (R453), from the registers that its entries repeat and the causes of retirements; the entries of
dies that are not fitted stay 0. -/
def Dev.buildHmap (d : Dev) (bad : List BadUnit) : Dev :=
  let d := ((d.wr (Reg.glbHmap 0) 0x5A484D41).wr (Reg.glbHmap 1) 0x10000001).wr (Reg.glbHmap 2) 0
  let d := ((d.wr Reg.glbHealthGen 0).wr (Reg.glbHmap 4) d.fitted).wr (Reg.glbHmap 5) (d.fitted / 2 ^ 32)
  let d := d.stampHmap
  let d := (List.range 1088).foldl (fun e c =>
    if e.fit (c / 272) then
      (e.setHmap (hmCore c) 0 3 (e.fld (Reg.coStat (c / 17) (c % 17)) Fld.coStatState)).setHmap (hmCore c) 4 3
        (SMap.get (fun _ => CoreRec.init) e.fab.cores c).cause
    else e) d
  let d := (List.range 64).foldl (fun e cl =>
    let s := e.rd (Reg.clStat cl)
    if e.fit (cl / 16) then (e.setHmap (hmCluster cl) 0 3 (bitsOf s 5 3)).setHmap (hmCluster cl) 5 5 (bitsOf s 8 5) else e) d
  let d := (List.range 4).foldl (fun e n =>
    let s := e.rd (Reg.dieStat n)
    if s = 0 then e
    else (e.setHmap (hmDie n) 0 4 (bitsOf s 0 4)).setHmap (hmDie n) 8 3 (bitsOf s 4 3)) d
  let d := (List.range 12).foldl (fun e s =>
    let c := e.rd (Reg.stkScfg s)
    if c = 0 then e
    else
      let n := (bad.filter fun b => b.stack = s).length
      let p := e.rd (Reg.stkPpr s)
      ((e.setHmap (hmStack s) 0 3 (bitsOf c 3 3)).setHmap (hmStack s) 8 8 (if p < 255 then p else 255)).setHmap
        (hmStack s) 16 16 (if n < 65535 then n else 65535)) d
  let d := (List.range 8).foldl (fun e c =>
    let s := e.rd (Reg.chStat c)
    if s = 0 then e
    else (e.setHmap (hmChannel c) 0 3 (bitsOf s 0 3)).setHmap (hmChannel c) 16 9 (bitsOf s 16 9)) d
  d.writeBadList bad

/-! Gates that the HPC asks for (Table 14.3) -/

/-- A gate request of the HPC begun, for a unit that fails at run time. -/
def Dev.hpcGate (d : Dev) (t : GateTarget) : Dev :=
  if d.mode = 1 ∨ d.mode = 2 then { d with clk := { d.clk with gates := d.clk.gates ++ [⟨t, d.devNs, none⟩] } } else d

/-! Wear (R467, R468, Table 13.5) -/

/-- A watched unit: its counter, its threshold exponent, and its WEAR bit in the map. -/
structure WearUnit where
  ctr : Nat
  x : Nat
  ofs : Nat
  bit : Nat
  deriving DecidableEq, Repr

/-- The watched units. -/
def Dev.wearUnits (d : Dev) : List WearUnit :=
  let c0 := d.rd Reg.glbWearCfg0
  let c1 := d.rd Reg.glbWearCfg1
  ((List.range 64).map fun cl => (List.range 17).map fun p =>
      WearUnit.mk (Reg.coWsCe cl p) (bitsOf c0 0 8) (hmCore (17 * cl + p)) 3).flatten ++
    ((List.range 64).map fun cl => WearUnit.mk (Reg.clCmemCe cl) (bitsOf c0 8 8) (hmCluster cl) 3) ++
    ((List.range 64).map fun cl => WearUnit.mk (Reg.numScrimCe cl) (bitsOf c1 8 8) (hmCluster cl) 4) ++
    ((List.range 12).map fun s => WearUnit.mk (Reg.stkCe s) (bitsOf c0 16 8) (hmStack s) 3) ++
    ((List.range 8).map fun c => WearUnit.mk (Reg.chCe c) (bitsOf c0 24 8) (hmChannel c) 3) ++
    ((List.range 4).map fun n => (List.range 4).map fun k =>
      WearUnit.mk (Reg.dieLinkCorr n k) (bitsOf c1 0 8) (hmDie n) (4 + k)).flatten

/-- One unit at the end of a wear window. -/
def Dev.wearCheck (d : Dev) (u : WearUnit) : Dev :=
  let now := d.rd u.ctr
  let rise := now - SMap.get (fun _ => 0) d.wear.base u.ctr
  let run := if 2 ^ u.x < rise then SMap.get (fun _ => 0) d.wear.runs u.ctr + 1 else 0
  let d := { d with wear := { d.wear with
    base := SMap.set (fun _ => 0) d.wear.base u.ctr now, runs := SMap.set (fun _ => 0) d.wear.runs u.ctr run } }
  if d.fld Reg.glbWearCfg1 Fld.glbWearCfg1Windows ≤ run ∧ 0 < run ∧ d.wear.warned.contains u.ctr = false then
    let d := { d with wear := { d.wear with warned := u.ctr :: d.wear.warned } }
    let d := (d.hmapUpdate u.ofs u.bit 1 1).setFld Reg.glbState Fld.glbStateWear 1
    (d.count Reg.glbWearCount).logInternal u.ctr (2 ^ u.x) (if rise < 2 ^ 32 then rise else 2 ^ 32 - 1) .ok
  else d

/-- The end of a wear window, if it is due. -/
def Dev.wearWindow (d : Dev) : Dev :=
  match d.wear.start with
  | none => d
  | some t =>
    if t + 1000000000 ≤ d.devNs then
      d.wearUnits.foldl Dev.wearCheck { d with wear := { d.wear with start := some (t + 1000000000) } }
    else d

/-- The wear windows begin (R467). -/
def Dev.startWear (d : Dev) : Dev :=
  { d with wear := { d.wear with
      start := some d.devNs,
      base := d.wearUnits.foldl (fun m u => SMap.set (fun _ => 0) m u.ctr (d.rd u.ctr)) [], runs := [] } }

end Sys2Proof.Machine
end

