-- ==== Sys2Proof/Machine/Stack.lean ====
section
/-!
DEFINITION. The memory stacks: states, bytes, uncorrectable bursts and failure ("The Roller and the memory
stacks", "Areas, ECC and repair", "Stack states, failure and mirrors").
-/

namespace Sys2Proof.Machine

open Sys2Proof

/-- What a stack holds beside its registers. -/
def Dev.stackRec (d : Dev) (s : Nat) : StkRec := SMap.get (fun _ => StkRec.init) d.stk.stk s

/-- A stack's record changed. -/
def Dev.setStack (d : Dev) (s : Nat) (r : StkRec) : Dev :=
  { d with stk := { d.stk with stk := SMap.set (fun _ => StkRec.init) d.stk.stk s r } }

/-- A stack's state code (Table 6.9). -/
def Dev.stackState (d : Dev) (s : Nat) : Nat := d.fld (Reg.stkScfg s) Fld.stkScfgState

/-- OFF. -/
def skOff : Nat := 0
/-- TRAIN. -/
def skTrain : Nat := 1
/-- TEST. -/
def skTest : Nat := 2
/-- UP. -/
def skUp : Nat := 3
/-- FAILED. -/
def skFailed : Nat := 4
/-- MISMATCH. -/
def skMismatch : Nat := 5

/-- The GLB_FITTED bit of a stack (Table 0.4). -/
def stackFitBit (s : Nat) : Nat := 4 + s

/-- A stack's capacity in bytes (R219, Table 6.2). -/
def Dev.stackBytes (d : Dev) (s : Nat) : Nat :=
  (if d.flag (Reg.stkScfg s) Fld.stkScfgCap24 then 24 else 16) * 2 ^ 30

/-- A stack's state code changed; DIE_STAT.STACKS_UP follows. -/
def Dev.setStackState (d : Dev) (s st : Nat) : Dev :=
  let d := d.setFld (Reg.stkScfg s) Fld.stkScfgState st
  let a := Reg.dieStat (s / 3)
  d.wr a (putBit (d.rd a) (4 + s % 3) (decide (st = skUp)))

/-! Bytes -/

/-- n bytes of a stack from byte address a on. -/
def Dev.stackRead (d : Dev) (s a n : Nat) : List Byte := SMap.getList (fun _ => 0) d.stk.mem (s * 2 ^ 35 + a) n

/-- Bytes written to a stack from byte address a on; a write to a FAILED stack is dropped (R461). -/
def Dev.stackWrite (d : Dev) (s a : Nat) (bs : List Byte) : Dev :=
  if d.stackState s = skFailed then d
  else { d with stk := { d.stk with mem := SMap.setList (fun _ => 0) d.stk.mem (s * 2 ^ 35 + a) bs } }

/-! Failure (Table 6.10) -/

/-- A stack enters FAILED or MISMATCH: its entry of the health map and, where it was UP, its die's, then the log (R454). -/
def Dev.stackOut (d : Dev) (s st : Nat) : Dev :=
  let before := d.rd (Reg.stkScfg s)
  let d := d.setStackState s st
  let d := d.setStack s { d.stackRec s with failedAt := some d.devNs }
  let d := d.hmapChange (hmStack s) 0 3 st
  let d := if bitAt before 3 && bitAt before 4 && !bitAt before 5 then d.hmapChange (hmDie (s / 3)) 8 3 (bitsOf (d.rd (Reg.dieStat (s / 3))) 4 3)
    else d
  (d.logInternal (Reg.stkScfg s) before (d.rd (Reg.stkScfg s)) .degraded).hpcGate
    (.stackPhy ⟨s % 12, Nat.mod_lt _ (by decide)⟩)

/-- Row 2: an UP stack fails. -/
def Dev.stackFail (d : Dev) (s : Nat) : Dev := if d.stackState s = skUp then d.stackOut s skFailed else d

/-- An uncorrectable burst: counted and logged, and the stack fails at STK_UE_LIMIT within 1 ms (R228, R230). -/
def Dev.stackUe (d : Dev) (s : Nat) : Dev :=
  let before := d.rd (Reg.stkUe s)
  let d := d.count (Reg.stkUe s)
  let d := d.logInternal (Reg.stkUe s) before (d.rd (Reg.stkUe s)) .degraded
  let ts := (d.devNs :: (d.stackRec s).ueTimes).filter fun t => decide (d.devNs < t + 1000000)
  let d := d.setStack s { d.stackRec s with ueTimes := ts }
  if d.fld Reg.stkGcfg Fld.stkGcfgStkUeLimit ≤ ts.length then d.stackFail s else d

/-- n uncorrectable bursts. -/
def Dev.stackUes (d : Dev) (s : Nat) : Nat → Dev
  | 0 => d
  | n + 1 => (d.stackUe s).stackUes s n

/-! Training and test (R229, R230) -/

/-- Row 5: start-up step 7 begins training of a fitted stack. -/
def Dev.stackTrain (d : Dev) (s : Nat) : Dev :=
  if d.fit (stackFitBit s) && d.stackState s = skOff then d.setStackState s skTrain else d

/-- Rows 3 and 6: training completes, or the configuration is not one of Table 6.2. -/
def Dev.stackTrained (d : Dev) (s height : Nat) (cap24 supported : Bool) : Dev :=
  if d.stackState s = skTrain then
    let d := (d.setFld (Reg.stkScfg s) Fld.stkScfgHeight height).setFld (Reg.stkScfg s) Fld.stkScfgCap24 (bit01 cap24)
    let fits := (decide (height = 0) && !cap24) || ((decide (height = 1) || decide (height = 2)) && cap24)
    if supported && fits then d.setStackState s skTest else d.stackOut s skMismatch
  else d

/-- Row 4: a failed training; the third takes the stack to FAILED. -/
def Dev.stackTrainFails (d : Dev) (s : Nat) : Dev :=
  if d.stackState s = skTrain then
    let n := (d.stackRec s).trains + 1
    let d := d.setStack s { d.stackRec s with trains := n }
    if 3 ≤ n then d.stackOut s skFailed else d
  else d

/-- Repairs logged one by one: OLD and NEW are the count of repairs before and after (R229). -/
def Dev.logRepairs (d : Dev) (s : Nat) : Nat → Dev
  | 0 => d
  | n + 1 =>
    let before := d.rd (Reg.stkPpr s)
    let d := d.count (Reg.stkPpr s)
    (d.logInternal (Reg.stkPpr s) before (d.rd (Reg.stkPpr s)) .ok).logRepairs s n

/-- Row 7: test and repair complete: repairs logged, bad units recorded, the stack UP. -/
def Dev.stackTested (d : Dev) (s ppr : Nat) (bad : List Nat) : Dev :=
  if d.stackState s = skTest then
    let units := bad.dedup.filter fun u => decide (u < d.stackBytes s / 65536)
    let d := (d.logRepairs s ppr).wr (Reg.stkBadUnits s) units.length
    let d := { d with stk := { d.stk with bad := d.stk.bad ++ units.map (BadUnit.mk s) } }
    d.setStackState s skUp
  else d

end Sys2Proof.Machine
end

