-- ==== Sys2Proof/Machine/Fec.lean ====
section
/-!
DEFINITION. The line coding of Skimlink: bit sequences, Gray-coded PAM4 levels and polarity (R42, Table 2.11), the interleaved short
code and RS(544,514) (R39). The order of coefficients within a Hamming sub-word and what IEEE 802.3 fixes for the Reed–Solomon code
(field polynomial, roots, symbol order) are PRESUMED (log entry 19).
-/

namespace Sys2Proof.Machine

open Sys2Proof

/-! Bit sequences -/

/-- The low n bits of x, bit 0 first. -/
def natBits (n x : Nat) : List Bool := (List.range n).map fun i => x.testBit i

/-- The number that a bit sequence spells, bit 0 first. -/
def bitsNat : List Bool → Nat
  | [] => 0
  | b :: bs => (if b then 1 else 0) + 2 * bitsNat bs

/-- n bits of a sequence from bit i on, zero filled. -/
def bitSlice (bs : List Bool) (i n : Nat) : List Bool := (List.range n).map fun j => bs.getD (i + j) false

/-- The bits at even places, and those at odd places. -/
def unzipBits : List Bool → List Bool × List Bool
  | [] => ([], [])
  | [a] => ([a], [])
  | a :: b :: bs => (a :: (unzipBits bs).1, b :: (unzipBits bs).2)

/-- Two sequences interleaved, the first one's bits at the even places. -/
def zipBits : List Bool → List Bool → List Bool
  | a :: as, b :: bs => a :: b :: zipBits as bs
  | as, [] => as
  | [], bs => bs

/-! Levels (R42, Table 2.11) -/

/-- The Gray code of a PAM4 symbol: level by its two bits, the first one more significant. -/
def grayLevel (a b : Bool) : Fin 4 := if a then (if b then 2 else 3) else (if b then 1 else 0)

/-- The two bits of a PAM4 level. -/
def grayBits (x : Fin 4) : List Bool := [decide (2 ≤ x.val), decide (x.val = 1 ∨ x.val = 2)]

/-- The levels of line bits: 0 and 1 under NRZ, one Gray-coded symbol for each pair under PAM4. -/
def lineLevels (pam4 : Bool) : List Bool → List (Fin 4)
  | [] => []
  | [a] => [if pam4 then grayLevel a false else if a then 1 else 0]
  | a :: b :: bs =>
    if pam4 then grayLevel a b :: lineLevels pam4 bs
    else (if a then 1 else 0) :: (if b then 1 else 0) :: lineLevels pam4 bs

/-- Levels of the opposite polarity. -/
def invertLevels (pam4 : Bool) (xs : List (Fin 4)) : List (Fin 4) :=
  xs.map fun x => if pam4 then 3 - x else if x = 0 then 1 else 0

/-- The line bits of levels. -/
def levelBits (pam4 : Bool) (xs : List (Fin 4)) : List Bool :=
  if pam4 then (xs.map grayBits).flatten else xs.map fun x => decide (x ≠ 0)

/-! The interleaved short code (R39) -/

/-- One more coefficient into a remainder modulo x^8 + x^4 + x^3 + x^2 + 1. -/
def hamStep (r : Nat) (b : Bool) : Nat :=
  let x := 2 * r + (if b then 1 else 0)
  if 256 ≤ x then x ^^^ 0x11D else x

/-- The remainder of a sub-word, its first bit the highest coefficient. -/
def hamRem (bs : List Bool) : Nat := bs.foldl hamStep 0

/-- The 8 parity bits of 130 bits, parity bit 0 first. -/
def hamParity (bs : List Bool) : List Bool := (natBits 8 (hamRem (bs ++ List.replicate 8 false))).reverse

/-- A sequence with bit i complemented. -/
def flipBit : List Bool → Nat → List Bool
  | [], _ => []
  | b :: bs, 0 => (!b) :: bs
  | b :: bs, i + 1 => b :: flipBit bs i

/-- A sub-word of 138 bits with at most one error put right, and whether there was one; none when no single error explains it. -/
def hamCorrect (bs : List Bool) : Option (List Bool × Bool) :=
  let s := hamRem bs
  if s = 0 then some (bs, false)
  else ((List.range 138).find? fun i => decide (hamRem (true :: List.replicate (137 - i) false) = s)).map fun i =>
    (flipBit bs i, true)

/-- The 16 parity bits of two consecutive blocks. -/
def shortParity (bs : List Bool) : List Bool :=
  let s := unzipBits bs
  zipBits (hamParity s.1) (hamParity s.2)

/-- A codeword of 276 bits decoded: its 260 bits of blocks, and whether a sub-word was corrected. -/
def shortDecode (bs : List Bool) : Option (List Bool × Bool) :=
  let s := unzipBits bs
  match hamCorrect s.1, hamCorrect s.2 with
  | some a, some b => some ((zipBits a.1 b.1).take 260, a.2 || b.2)
  | _, _ => none

/-! RS(544,514) over GF(2^10) (R39) -/

/-- A product in GF(2^10) modulo x^10 + x^3 + 1. -/
def gfMul (a b : Nat) : Nat :=
  (List.range 10).foldl (fun r i =>
    let x := 2 * r
    let x := if 1024 ≤ x then x ^^^ 0x409 else x
    if b.testBit (9 - i) then x ^^^ a else x) 0

/-- A power in GF(2^10). -/
def gfPow (a : Nat) : Nat → Nat
  | 0 => 1
  | n + 1 => gfMul a (gfPow a n)

/-- The inverse in GF(2^10). -/
def gfInv (a : Nat) : Nat := gfPow a 1022

/-- A polynomial's value, coefficients from the lowest power up. -/
def gfEval (p : List Nat) (x : Nat) : Nat := p.foldr (fun c r => c ^^^ gfMul x r) 0

/-- The sum of two polynomials. -/
def gfAdd : List Nat → List Nat → List Nat
  | a :: as, b :: bs => (a ^^^ b) :: gfAdd as bs
  | as, [] => as
  | [], bs => bs

/-- The product of two polynomials. -/
def gfProd : List Nat → List Nat → List Nat
  | [], _ => []
  | a :: as, q => gfAdd (q.map (gfMul a)) (0 :: gfProd as q)

/-- α^0 to α^29, the roots of the generator polynomial. -/
def rsRoots : List Nat := (List.range 30).map (gfPow 2)

/-- The generator polynomial, from the lowest power up, without its leading 1. -/
def rsGen : List Nat := (rsRoots.foldl (fun g r => gfProd [r, 1] g) [1]).take 30

/-- The symbols of a bit sequence, 10 bits each, the first bit of a symbol its bit 0. -/
def rsSymbols (n : Nat) (bs : List Bool) : List Nat := (List.range n).map fun i => bitsNat (bitSlice bs (10 * i) 10)

/-- The bits of symbols. -/
def rsBits (ss : List Nat) : List Bool := (ss.map (natBits 10)).flatten

/-- The remainder, from the highest power down, after one more message symbol. -/
def rsStep (g : List Nat) (rem : List Nat) (s : Nat) : List Nat :=
  match rem with
  | [] => []
  | h :: t => gfAdd (t ++ [0]) (g.reverse.map (gfMul (h ^^^ s)))

/-- The 300 parity bits of a message of 5,140 bits, its first symbol the highest power. -/
def rsParity (bs : List Bool) : List Bool :=
  rsBits ((rsSymbols 514 bs).foldl (rsStep rsGen) (List.replicate 30 0))

/-- The syndromes of a received word, first symbol the highest power. -/
def rsSyndromes (ss : List Nat) : List Nat := rsRoots.map fun r => ss.foldl (fun a s => gfMul a r ^^^ s) 0

/-- The search for the shortest error locator (Berlekamp and Massey): locator, earlier locator, length, shift and earlier discrepancy. -/
structure Locator where
  c : List Nat
  b : List Nat
  len : Nat
  m : Nat
  disc : Nat
  deriving DecidableEq, Repr

/-- One more syndrome of the list s, the n-th. -/
def Locator.step (s : List Nat) (x : Locator) (n : Nat) : Locator :=
  let d := (List.range (x.len + 1)).foldl (fun a i => a ^^^ gfMul (x.c.getD i 0) (if i ≤ n then s.getD (n - i) 0 else 0)) 0
  if d = 0 then { x with m := x.m + 1 }
  else
    let q := gfMul d (gfInv x.disc)
    let c := gfAdd x.c (List.replicate x.m 0 ++ x.b.map (gfMul q))
    if 2 * x.len ≤ n then ⟨c, x.c, n + 1 - x.len, 1, d⟩ else { x with c := c, m := x.m + 1 }

/-- The error at a power: X Ω(1/X) / Λ'(1/X). -/
def rsError (loc om : List Nat) (p : Nat) : Nat :=
  let x := gfPow 2 p
  let xi := gfInv x
  let odd := (List.range loc.length).map fun i => if i % 2 = 0 then loc.getD (i + 1) 0 else 0
  gfMul (gfMul x (gfEval om xi)) (gfInv (gfEval odd xi))

/-- A received word of 544 symbols with at most 15 symbol errors put right, and whether there was one; none when more than 15 must be. -/
def rsCorrect (ss : List Nat) : Option (List Nat × Bool) :=
  let s := rsSyndromes ss
  if s.all (· = 0) then some (ss, false)
  else
    let x := (List.range 30).foldl (Locator.step s) ⟨[1], [1], 0, 1, 1⟩
    let ps := (List.range 544).filter fun p => decide (gfEval x.c (gfInv (gfPow 2 p)) = 0)
    if x.len ≤ 15 ∧ ps.length = x.len then
      let om := (gfProd s x.c).take 30
      let fixed := ps.foldl (fun l p => l.modify (543 - p) (fun v => v ^^^ rsError x.c om p)) ss
      if (rsSyndromes fixed).all (· = 0) then some (fixed, true) else none
    else none

/-- A codeword of 5,440 bits decoded: its message of 5,140 bits, and whether it was corrected. -/
def rsDecode (bs : List Bool) : Option (List Bool × Bool) :=
  (rsCorrect (rsSymbols 544 bs)).map fun r => (rsBits (r.1.take 514), r.2)

/-! Codewords by FEC code of Table 2.11 -/

/-- Line bits of a codeword, of its blocks with what stands before them, and of what stands before them; and its blocks. -/
def fecLen (fec : Nat) : Nat := if fec = 1 then 276 else 5440
/-- Bits of a message. -/
def fecMsg (fec : Nat) : Nat := if fec = 1 then 260 else 5140
/-- Bits of the codeword marker. -/
def fecHead (fec : Nat) : Nat := if fec = 1 then 0 else 70
/-- Blocks in a codeword. -/
def fecBlocks (fec : Nat) : Nat := if fec = 1 then 2 else 39

/-- A codeword decoded: its message and whether it was corrected, none when uncorrectable (R40). -/
def fecDecode (fec : Nat) (bs : List Bool) : Option (List Bool × Bool) := if fec = 1 then shortDecode bs else rsDecode bs

/-- The parity bits that follow a message. -/
def fecParity (fec : Nat) (bs : List Bool) : List Bool := if fec = 1 then shortParity bs else rsParity bs

/-- The codeword marker of codeword n. -/
def fecMarker (fec n : Nat) : List Bool := if fec = 1 then [] else natBits 70 (0x5C3A * 2 ^ 54 + n % 256 * 2 ^ 46)

/-- The codeword count of a message's marker, when the marker is one (R57). -/
def markerCount (fec : Nat) (msg : List Bool) : Option Nat :=
  let m := bitsNat (bitSlice msg 0 70)
  if fec = 1 then some 0
  else if m / 2 ^ 54 = 0x5C3A ∧ m % 2 ^ 46 = 0 then some (m / 2 ^ 46 % 256) else none

/-- Block i of a message as 130 line bits, h0 first. -/
def fecBlock (fec : Nat) (msg : List Bool) (i : Nat) : Nat := bitsNat (bitSlice msg (fecHead fec + 130 * i) 130)

end Sys2Proof.Machine
end

