-- ==== Sys2Proof/Machine/Lanes.lean ====
section
/-!
DEFINITION. Skimlink lanes: the lane block's registers, the scrambler, sending a block, the lane state
machine of Table 2.7, the elastic buffer and the deframer ("Skimlink lanes and sample ingest"). The same
operations serve the mesh lanes (R527).
-/

namespace Sys2Proof.Machine

open Sys2Proof

/-! Lane registers -/

/-- The lane block of a lane: Tables 2.11 to 2.14, at its place in ING or MSH. -/
def laneBase (l : LaneId) : Nat :=
  if l.val < 64 then 0x81000 + 0x80 * l.val
  else 0x101100 + 0x400 * ((l.val - 64) / 4) + 0x80 * ((l.val - 64) % 4)

/-- The address of a lane's register, named by lane 0's. -/
def laneReg (l : LaneId) (r : Nat → Nat) : Nat := laneBase l + (r 0 - 0x81000)

/-- Whether a lane is one of the ingest lanes. -/
def isIngest (l : LaneId) : Bool := decide (l.val < 64)

/-- The GLB_FITTED bit of a lane (R37, Table 0.4). -/
def laneFitBit (l : LaneId) : Nat := if l.val < 64 then 24 + l.val / 16 else 28 + (l.val - 64) / 4

/-- What a lane holds beside its registers. -/
def Dev.lane (d : Dev) (l : LaneId) : LaneRec := SMap.get (fun _ => LaneRec.init) d.ing.lanes l.val

/-- A lane's record changed. -/
def Dev.setLane (d : Dev) (l : LaneId) (r : LaneRec) : Dev :=
  { d with ing := { d.ing with lanes := SMap.set (fun _ => LaneRec.init) d.ing.lanes l.val r } }

/-- The state code of Table 2.6. -/
def Dev.laneState (d : Dev) (l : LaneId) : Nat := d.fld (laneReg l Reg.ingLstate) Fld.ingLstateState

/-- A counter of the lane block up by one. -/
def Dev.laneCount (d : Dev) (l : LaneId) (r : Nat → Nat) : Dev := d.count (laneReg l r)

/-- Lane states (Table 2.6). -/
def lsDisabled : Nat := 0
/-- HUNT. -/
def lsHunt : Nat := 1
/-- TRAIN. -/
def lsTrain : Nat := 2
/-- SERVICE. -/
def lsService : Nat := 3
/-- BACKOFF. -/
def lsBackoff : Nat := 4
/-- OFFLINE. -/
def lsOffline : Nat := 5

/-- Whether a lane is in use: fitted and ENABLE set (R51), and for a mesh lane its port USED (R527). -/
def Dev.laneInUse (d : Dev) (l : LaneId) : Bool :=
  d.fit (laneFitBit l) && d.flag (laneReg l Reg.ingLcfg) Fld.ingLcfgEnable &&
    (isIngest l || d.flag (Reg.mpCfg ((l.val - 64) / 4)) Fld.mpCfgUsed)

/-! Scrambling (R42) -/

/-- One bit through the scrambler x^58 + x^39 + 1: (output, last 58 line bits). -/
def scrambleBit (acc : Nat × Nat) (b : Nat) (i : Nat) : Nat × Nat :=
  let s := (b + acc.2 / 2 ^ 38 % 2 + acc.2 / 2 ^ 57 % 2) % 2
  (acc.1 + s * 2 ^ i, (2 * acc.2 + s) % 2 ^ 58)

/-- A payload scrambled after the given line bits: the line bits sent, p0 first, and the new history. -/
def scramble (h : BitVec 58) (p : BitVec 128) : BitVec 128 × BitVec 58 :=
  let r := (List.range 128).foldl (fun acc i => scrambleBit acc (p.toNat / 2 ^ i % 2) i) (0, h.toNat)
  (BitVec.ofNat 128 r.1, BitVec.ofNat 58 r.2)

/-- One line bit through the descrambler. -/
def descrambleBit (acc : Nat × Nat) (s : Nat) (i : Nat) : Nat × Nat :=
  let b := (s + acc.2 / 2 ^ 38 % 2 + acc.2 / 2 ^ 57 % 2) % 2
  (acc.1 + b * 2 ^ i, (2 * acc.2 + s) % 2 ^ 58)

/-- Line bits descrambled: the payload and the new history. -/
def descramble (h : BitVec 58) (line : BitVec 128) : BitVec 128 × BitVec 58 :=
  let r := (List.range 128).foldl (fun acc i => descrambleBit acc (line.toNat / 2 ^ i % 2) i) (0, h.toNat)
  (BitVec.ofNat 128 r.1, BitVec.ofNat 58 r.2)

/-! The line (R39, R42, Table 2.11) -/

/-- FEC of a lane (Table 2.11). -/
def Dev.laneFec (d : Dev) (l : LaneId) : Nat := d.fld (laneReg l Reg.ingLcfg) Fld.ingLcfgFec

/-- Rates 0 and 1 are PAM4 (Table 2.1). -/
def Dev.lanePam4 (d : Dev) (l : LaneId) : Bool := decide (d.fld (laneReg l Reg.ingLcfg) Fld.ingLcfgRate < 2)

/-- Line bits as levels of the polarity that TX_INVERT sets. -/
def Dev.txLevels (d : Dev) (l : LaneId) (bs : List Bool) : List (Fin 4) :=
  let xs := lineLevels (d.lanePam4 l) bs
  if d.flag (laneReg l Reg.ingLcfg) Fld.ingLcfgTxInvert then invertLevels (d.lanePam4 l) xs else xs

/-- Line bits sent on a lane. -/
def Dev.sendBits (d : Dev) (l : LaneId) (bs : List Bool) : Dev := d.emit (.line l.val (d.txLevels l bs))

/-- The 130 bits of a block put on the line: under FEC behind the marker of a new codeword, and before the parity of a full one (R39). -/
def Dev.putLine (d : Dev) (l : LaneId) (bs : List Bool) : Dev :=
  let r := d.lane l
  let fec := d.laneFec l
  if fec = 0 then d.sendBits l bs
  else
    let head := if r.txWord = [] then fecMarker fec r.txMark else []
    let word := r.txWord ++ head ++ bs
    if word.length < fecMsg fec then (d.setLane l { r with txWord := word }).sendBits l (head ++ bs)
    else (d.setLane l { r with txWord := [], txMark := (r.txMark + 1) % 256 }).sendBits l (head ++ bs ++ fecParity fec word)

/-- Data-block capacity of Table 2.1 in units of 10^5 blocks per second; none for a combination not in the table. -/
def laneCapacity (rate fec : Nat) : Option Nat :=
  if rate = 0 ∧ fec = 1 then some 8076 else if rate = 0 ∧ fec = 2 then some 7990
  else if rate = 1 ∧ fec = 1 then some 4038 else if rate = 2 ∧ fec = 0 then some 2153
  else if rate = 2 ∧ fec = 1 then some 2028 else if rate = 3 ∧ fec = 0 then some 789 else none

/-- Rate and FEC codes of a lane. -/
def Dev.laneRate (d : Dev) (l : LaneId) : Nat × Nat :=
  (d.fld (laneReg l Reg.ingLcfg) Fld.ingLcfgRate, d.fld (laneReg l Reg.ingLcfg) Fld.ingLcfgFec)

/-! Sending (R44, R52, R56, R358) -/

/-- The type byte of a control block. -/
def blkType (p : BitVec 128) : Nat := p.toNat / 2 ^ 120

/-- A control block's payload: type byte and bits [119:0]. -/
def ctlPayload (ty : Nat) (b : Nat) : BitVec 128 := BitVec.ofNat 128 (ty * 2 ^ 120 + b % 2 ^ 120)

/-- The time of one block on a lane in units of 2^-16 ns (Table 2.1). -/
def Dev.blockTime (d : Dev) (l : LaneId) : Nat :=
  match laneCapacity (d.laneRate l).1 (d.laneRate l).2 with
  | some c => 655360000 / c
  | none => 0

/-- Device time in units of 2^-16 ns. -/
def Dev.dev16 (d : Dev) : Nat := d.devNs * 65536

/-- The slot after a block that goes out now: one block time on, back to back with the block before it where that ended within this ns. -/
def Dev.slotAfter (d : Dev) (l : LaneId) : Nat :=
  let f := (d.lane l).txFree
  (if d.dev16 ≤ f + 65536 then f else d.dev16) + d.blockTime l

/-- A block put on a lane's line: scrambled, behind its header (R41), counted toward the runs of R44 and R52. -/
def Dev.putBlock (d : Dev) (l : LaneId) (ctl : Bool) (p : BitVec 128) : Dev :=
  let r := d.lane l
  let (line, h) := scramble r.txHist p
  let filler := ctl && blkType p = 0
  let link := ctl && blkType p = 2
  ((d.setLane l { r with
      txHist := h, txRun := if filler then 0 else r.txRun + 1, txFree := d.slotAfter l,
      sinceLink := if link then 0 else r.sinceLink + 1 }).putLine l (ctl :: (!ctl) :: natBits 128 line.toNat)).emit
    (.block l.val ctl p line)

/-- A filler sent on a lane (R52). -/
def Dev.putFiller (d : Dev) (l : LaneId) : Dev := d.putBlock l true (ctlPayload 0 0)

/-- A block sent, after a filler when 1,023 non-filler blocks stand behind it (R52). -/
def Dev.putPaced (d : Dev) (l : LaneId) (ctl : Bool) (p : BitVec 128) : Dev :=
  (if (d.lane l).txRun < 1023 then d else d.putFiller l).putBlock l ctl p

/-- The payload of a LINK block (Table 2.4). -/
def Dev.linkPayload (d : Dev) (l : LaneId) : BitVec 128 :=
  let sender := d.fld Reg.mshId Fld.mshIdDeviceId * 2 ^ 10 + (if isIngest l then l.val else (l.val - 64) / 4)
  ctlPayload 0x02 (d.laneState l * 2 ^ 117 + d.fld (laneReg l Reg.ingLfom) Fld.ingLfomEye * 2 ^ 109 +
    d.fld (laneReg l Reg.ingLcfg) Fld.ingLcfgRate * 2 ^ 107 +
    d.fld (laneReg l Reg.ingLcfg) Fld.ingLcfgFec * 2 ^ 105 + sender * 2 ^ 89)

/-- A LINK block sent first when no other block may stand before the next one: 2^16 blocks must hold one, and a filler may have to stand before
it (R44, R52). -/
def Dev.linkDue (d : Dev) (l : LaneId) : Dev :=
  if (d.lane l).sinceLink < 65534 then d else d.putPaced l true (d.linkPayload l)

/-- A block sent in a free slot, with the LINK block and the filler that must stand before it (R44, R52). -/
def Dev.sendNow (d : Dev) (l : LaneId) (ctl : Bool) (p : BitVec 128) : Dev :=
  (if ctl && blkType p = 2 then d else d.linkDue l).putPaced l ctl p

/-- A lane has a transmit slot free for a block that comes now. -/
def Dev.laneFree (d : Dev) (l : LaneId) : Bool := (d.lane l).txq.isEmpty && decide ((d.lane l).txFree ≤ d.dev16)

/-- The class of a block for a mesh lane's slots: CONTRIB, TIME, LINK and HELLO, host messages (R358). -/
def blkClass (ctl : Bool) (p : BitVec 128) : Nat :=
  let ty := blkType p
  if ctl = false then 3
  else if ty = 0x41 then 0
  else if 0x10 ≤ ty ∧ ty ≤ 0x14 then 1
  else if ty = 2 ∨ ty = 0x40 then 2
  else 3

/-- A block sent on a lane whose transmitter is enabled (R56). On a mesh lane it waits for a slot while none is free (R358). -/
def Dev.sendBlock (d : Dev) (l : LaneId) (ctl : Bool) (p : BitVec 128) : Dev :=
  if (d.lane l).txOn then
    if isIngest l || d.laneFree l then d.sendNow l ctl p
    else d.setLane l { d.lane l with txq := (d.lane l).txq ++ [(blkClass ctl p, ctl, p)] }
  else d

/-- The waiting block that takes the next slot: the oldest of the first class that has one, and the blocks left. -/
def nextBlock (q : List (Nat × Bool × BitVec 128)) : Option ((Nat × Bool × BitVec 128) × List (Nat × Bool × BitVec 128)) :=
  match q.foldl (fun (best : Option (Nat × Bool × BitVec 128)) x => match best with
      | some b => if x.1 < b.1 then some x else some b
      | none => some x) none with
  | some b => some (b, q.erase b)
  | none => none

/-- A free slot of a mesh lane given to a waiting block (R358); a transmitter that is off sends none of them. -/
def Dev.laneSlot (d : Dev) (l : LaneId) : Dev :=
  let r := d.lane l
  if r.txOn = false then (if r.txq.isEmpty then d else d.setLane l { r with txq := [] })
  else if r.txFree ≤ d.dev16 then
    match nextBlock r.txq with
    | some (b, rest) => (d.setLane l { r with txq := rest }).sendNow l b.2.1 b.2.2
    | none => d
  else d

/-- Every mesh lane's slot of this ns. -/
def Dev.laneSlots (d : Dev) : Dev :=
  (List.range 24).foldl (fun e i => e.laneSlot ⟨(64 + i) % 88, Nat.mod_lt _ (by decide)⟩) d

/-- A filler sent on a lane with nothing else to send (R52). -/
def Dev.sendFiller (d : Dev) (l : LaneId) : Dev :=
  if (d.lane l).txOn && (d.lane l).txq.isEmpty then (d.linkDue l).putFiller l else d

/-! Bursts (Table 2.5) -/

/-- The open burst, if any, closed and counted in BURST_BROKEN (R48). Mesh lanes have no bursts. -/
def Dev.breakBurst (d : Dev) (l : LaneId) : Dev :=
  match (d.lane l).burst with
  | some _ => (d.setLane l { d.lane l with burst := none }).countIf (isIngest l) (laneReg l Reg.ingBurstBroken)
  | none => d

/-! The lane state machine (Tables 2.6, 2.7) -/

/-- A lane's state code changed, with what leaving TRAIN or SERVICE takes with it: EYE and PARTNER_VALID
clear outside both, and an open burst breaks outside SERVICE (R44, Tables 2.5, 2.13). -/
def Dev.laneTo (d : Dev) (l : LaneId) (st : Nat) : Dev :=
  let d := if st = lsService then d else d.breakBurst l
  let d := d.setFld (laneReg l Reg.ingLstate) Fld.ingLstateState st
  if st = lsTrain ∨ st = lsService then d
  else (d.setFld (laneReg l Reg.ingLfom) Fld.ingLfomEye 0).setFld (laneReg l Reg.ingLfom)
    Fld.ingLfomPartnerValid 0

/-- The data blocks waiting at the read side of an ingest lane. -/
def Dev.waitingData (d : Dev) (l : LaneId) : Nat :=
  if isIngest l then ((d.lane l).buf.filter fun b => !b.ctl && !b.gap).length else 0

/-- A lane's receiver stops or starts afresh in the given state: the blocks in its elastic buffer are gone, the data blocks among them with no
burst open (R48), and its search begins anew. -/
def Dev.restart (d : Dev) (l : LaneId) (st : Nat) : Dev :=
  let n := d.waitingData l
  let d := (d.laneTo l st).countN (laneReg l Reg.ingOrphan) n
  d.setLane l { d.lane l with
    buf := [], runValid := 0, recent := [], rxRun := 0, lowEyes := 0, tryBits := 0, eyeBlocks := 0, trainBlocks := 0, rxMark := none,
    decoded := if st = lsHunt then (d.lane l).decoded.map fun b => { b with inCode := false } else [] }

/-- A new try: HUNT, with its search begun afresh and its elastic buffer empty. Blocks of a codeword under way still count under R40. -/
def Dev.newTry (d : Dev) (l : LaneId) : Dev := (d.restart l lsHunt).laneCount l Reg.ingTries

/-- A try that fails, from HUNT or TRAIN (rows 6, 8): BACKOFF, FAILS up, and DOWN with its entry when FAILS
reaches LANE_DOWN_TRIES (R63, R64). OLD of the entry is the register before any of the failing try's changes to it (DESIGN CHOICE, log entry 74). -/
def Dev.tryFails (d : Dev) (l : LaneId) : Dev :=
  let a := laneReg l Reg.ingLstate
  let before := d.rd a
  let ms := d.fld a Fld.ingLstateBackoffMs
  let fails := if d.fld a Fld.ingLstateFails < 255 then d.fld a Fld.ingLstateFails + 1 else 255
  let d := (d.restart l lsBackoff).setFld a Fld.ingLstateFails fails
  let d := d.setFld a Fld.ingLstateBackoffMs (if 2 * ms < 1000 then 2 * ms else 1000)
  let d := d.setLane l { d.lane l with backoffDue := d.devNs + ms * 1000000 }
  if fails = d.fld Reg.ingAdmit Fld.ingAdmitLaneDownTries ∧ ¬ d.flag a Fld.ingLstateDown then
    let d := d.setFld a Fld.ingLstateDown 1
    d.logInternal a before (d.rd a) .degraded
  else d

/-- Whether the lane's receiver is shut by ADMIN_OFF or by its gate (R488): lanes 16g to 16g + 15 by gate g,
mesh port p's lanes by gate 4 + p. -/
def Dev.laneShut (d : Dev) (l : LaneId) : Bool :=
  d.flag (laneReg l Reg.ingLcfg) Fld.ingLcfgAdminOff ||
    bitAt (d.rd Reg.clkGated) (if l.val < 64 then l.val / 16 else 4 + (l.val - 64) / 4)

/-- Row 1: any state but DISABLED to OFFLINE. -/
def Dev.laneOff (d : Dev) (l : LaneId) : Dev :=
  if d.laneState l = lsDisabled then d else d.restart l lsOffline

/-- Row 2: OFFLINE to HUNT, FAILS and DOWN cleared, once neither ADMIN_OFF nor the gate holds it (R488). -/
def Dev.laneOn (d : Dev) (l : LaneId) : Dev :=
  if d.laneState l = lsOffline ∧ d.laneShut l = false then
    let a := laneReg l Reg.ingLstate
    ((d.setFld a Fld.ingLstateFails 0).setFld a Fld.ingLstateDown 0).newTry l
  else d

/-- Rows 12 and 13 at start-up step 9: the transmitter is enabled, and the lane hunts or is OFFLINE (R56). -/
def Dev.laneEnable (d : Dev) (l : LaneId) : Dev :=
  if d.laneInUse l && d.laneState l = lsDisabled then
    let d := d.setLane l { d.lane l with txOn := true }
    if d.flag (laneReg l Reg.ingLcfg) Fld.ingLcfgAdminOff then d.laneTo l lsOffline else d.newTry l
  else d

/-- Loss of signal asserted (R62, row 3): counted in HUNT, TRAIN and SERVICE, and a new try unless a lower row is triggered with it (R61). -/
def Dev.loseSignal (d : Dev) (l : LaneId) (tie : Bool) : Dev :=
  let st := d.laneState l
  let d := d.setLane l { d.lane l with los := true, runValid := 0 }
  let d := d.countIf (decide (st = lsHunt ∨ st = lsTrain ∨ st = lsService)) (laneReg l Reg.ingLosEvents)
  if (st = lsTrain ∨ st = lsService) ∧ tie = false then d.newTry l else d

/-- Signal detected (R61, row 10); the back-off interval is kept. -/
def Dev.seeSignal (d : Dev) (l : LaneId) (tie : Bool) : Dev :=
  let r := d.lane l
  let d := d.setLane l { r with los := false }
  if d.laneState l = lsBackoff ∧ r.los = true ∧ tie = false then d.newTry l else d

/-- Blocks of a measurement (R60). -/
def eyeSpan : Nat := 2 ^ 14
/-- Blocks of a training window (R60). -/
def trainSpan : Nat := 2 ^ 18
/-- Line bits of a hunt window (R59). -/
def huntSpan : Nat := 2 ^ 20 * 130

/-- The eye score of the openings of a lane's eyes and its horizontal opening (R65). -/
def eyeScore (v : List Rat) (h : Rat) : Nat :=
  let x := (255 * v.foldl min h).floor.toNat
  if x < 255 then x else 255

/-- A completed eye measurement (R65, R66; rows 7 and 9). -/
def Dev.eyeMeasured (d : Dev) (l : LaneId) (score : Nat) (tie : Bool) : Dev :=
  let a := laneReg l Reg.ingLstate
  let fmin := d.fld Reg.ingAdmit Fld.ingAdmitLaneFomMin
  let hyst := d.fld Reg.ingAdmit Fld.ingAdmitLaneFomHyst
  let st := d.laneState l
  if (st = lsTrain ∨ st = lsService) ∧ eyeSpan ≤ (d.lane l).eyeBlocks then
    let low := if score + hyst < fmin ∧ st = lsService then (d.lane l).lowEyes + 1 else 0
    let d := d.setFld (laneReg l Reg.ingLfom) Fld.ingLfomEye score
    let d := d.setLane l { d.lane l with eyeBlocks := (d.lane l).eyeBlocks - eyeSpan, lowEyes := low }
    if tie then d
    else if st = lsTrain ∧ fmin ≤ score then
      let d := (d.setFld a Fld.ingLstateFails 0).setFld a Fld.ingLstateDown 0
      (d.setFld a Fld.ingLstateBackoffMs 1).laneTo l lsService
    else if 2 ≤ low then
      let d := d.laneTo l lsTrain
      d.setLane l { d.lane l with lowEyes := 0, trainBlocks := 0 }
    else d
  else d

/-- The hunt window ends without lock (R59, row 6): its block times are those received and those in which no block came. -/
def Dev.huntEnds (d : Dev) (l : LaneId) (idle : Nat) (tie : Bool) : Dev :=
  if d.laneState l = lsHunt ∧ huntSpan ≤ (d.lane l).tryBits + 130 * idle ∧ tie = false then d.tryFails l else d

/-- The training window ends without admission (R60, row 8), once its last measurement is taken. -/
def Dev.trainingEnds (d : Dev) (l : LaneId) (tie : Bool) : Dev :=
  if d.laneState l = lsTrain ∧ trainSpan ≤ (d.lane l).trainBlocks ∧ (d.lane l).eyeBlocks < eyeSpan ∧ tie = false then d.tryFails l else d

/-- The back-off interval ends (R63, row 11). -/
def Dev.backoffEnds (d : Dev) (l : LaneId) (tie : Bool) : Dev :=
  if d.laneState l = lsBackoff ∧ (d.lane l).backoffDue ≤ d.devNs ∧ tie = false then d.newTry l else d

/-! Receiving blocks (R41, R43, R53 to R55, R58) -/

/-- Whether a control block's type is one the lane hands on: LINK, TIME, MARK, and MESH on a mesh lane; TAG on
an ingest lane (Tables 2.2, 9.6, 10.3, R43, R349). -/
def typeKnown (l : LaneId) (ty : Nat) : Bool :=
  decide (ty ≤ 2) || (decide (0x10 ≤ ty) && decide (ty ≤ 0x14)) || decide (ty = 0x20) ||
    (!isIngest l && decide (0x40 ≤ ty) && decide (ty ≤ 0x49))

/-- Whether the block at the read side waits for a deframer command: LINK blocks, and on an ingest lane TAG blocks and in SERVICE data blocks. -/
def waits (l : LaneId) (service : Bool) (b : Blk) : Bool :=
  if b.gap then false
  else if b.ctl then decide (blkType b.payload = 2) || (decide (blkType b.payload = 1) && isIngest l)
  else service && isIngest l

/-- What the read side does with a block that waits for no command: at the place of a lost block an open burst breaks (Table 2.5); fillers
vanish (R53); blocks of reserved types are counted in CTRL_UNKNOWN (R43); TIME, MARK and MESH blocks leave to their own handlers; and a data
block of an ingest lane outside SERVICE has no burst (R48). -/
def Dev.passBlock (d : Dev) (l : LaneId) (b : Blk) : Dev :=
  if b.gap then d.breakBurst l
  else (d.countIf (b.ctl && !typeKnown l (blkType b.payload)) (laneReg l Reg.ingCtrlUnknown)).countIf (!b.ctl && isIngest l)
    (laneReg l Reg.ingOrphan)

/-- The read side, up to the first block that waits for a command. The first number says how many blocks may be read. -/
def Dev.drain (l : LaneId) : Nat → Dev → Dev
  | 0, d => d
  | n + 1, d =>
    match (d.lane l).buf with
    | [] => d
    | b :: rest =>
      if waits l (d.laneState l = lsService) b then d
      else Dev.drain l n ((d.setLane l { d.lane l with buf := rest }).passBlock l b)

/-- The block at the read side taken by the deframer. -/
def Dev.popBlock (d : Dev) (l : LaneId) : Dev :=
  match (d.lane l).buf with
  | [] => d
  | _ :: rest => Dev.drain l rest.length (d.setLane l { d.lane l with buf := rest })

/-- One more header judged for loss of lock (R58): back to HUNT at 16 invalid among the last 64 (row 4), unless a lower row is triggered with
it. -/
def Dev.judgeHeader (d : Dev) (l : LaneId) (invalid tie : Bool) : Dev :=
  let r := d.lane l
  let recent := (invalid :: r.recent).take 64
  let d := d.setLane l { r with recent := recent }
  if 16 ≤ (recent.filter id).length ∧ tie = false then (d.laneCount l Reg.ingLockLoss).newTry l else d

/-- A block, or the place of a lost one, at the end of the elastic buffer, whose read side moves on. -/
def Dev.append (d : Dev) (l : LaneId) (b : Blk) : Dev :=
  let r := d.lane l
  Dev.drain l (r.buf.length + 1) (d.setLane l { r with buf := r.buf ++ [b] })

/-- Blocks held in the elastic buffer. -/
def LaneRec.occupancy (r : LaneRec) : Nat := (r.buf.filter fun b => !b.gap).length

/-- A block into the elastic buffer, or lost to a full one (R54), counted toward the filler rule (R55): a block lost to a full buffer lengthens a
run, or ends it when it is a filler, as one that is kept does (DESIGN CHOICE, log entry 26). -/
def Dev.enqueue (d : Dev) (l : LaneId) (b : Blk) : Dev :=
  let r := d.lane l
  let run := if b.ctl && blkType b.payload = 0 then 0 else r.rxRun + 1
  let d := (d.setLane l { r with rxRun := run }).countIf (decide (run = 1024)) (laneReg l Reg.ingFillViol)
  if r.occupancy < 16 then d.append l b else (d.laneCount l Reg.ingElasticOvf).append l Blk.lost

/-- Whether a header, written h0 h1, is "01" or "10" (R41, R57). -/
def hdrOk (h : BitVec 2) : Bool := h = 1 || h = 2

/-- A header judged in HUNT: the 64th consecutive valid one in a block of the hunt window locks the lane (R58, R59, row 5), unless a lower row
is triggered with it (R61, R62). -/
def Dev.seek (d : Dev) (l : LaneId) (valid tie : Bool) : Dev :=
  let r := d.lane l
  let n := if valid then r.runValid + 1 else 0
  let d := d.setLane l { r with runValid := n }
  if 64 ≤ n ∧ tie = false then
    let d := d.laneTo l lsTrain
    d.setLane l { d.lane l with
      runValid := 0, recent := [], rxRun := 0, lowEyes := 0, buf := [], los := false, eyeBlocks := 0, trainBlocks := 0 }
  else d

/-- A block at a lane's input (R41): header judged, lock sought or kept, the block taken in. The counters run in HUNT too (DEDUCED, log entry
26). -/
def Dev.receive (d : Dev) (l : LaneId) (b : RxBlock) (tie : Bool) : Dev :=
  let st := d.laneState l
  if st = lsHunt ∨ st = lsTrain ∨ st = lsService then
    let x := descramble (d.lane l).rxHist b.line
    let bad := b.lost || !hdrOk b.hdr
    let d := (d.setLane l { d.lane l with rxHist := x.2 }).countIf bad (laneReg l Reg.ingInvalidHdr)
    if st = lsHunt then d.seek l (!bad && b.inCode && decide (b.at_ < huntSpan)) tie
    else
      let r := d.lane l
      let d := d.setLane l { r with eyeBlocks := r.eyeBlocks + 1, trainBlocks := r.trainBlocks + 1 }
      let d := if bad then d.append l Blk.lost else d.enqueue l ⟨decide (b.hdr = 2), x.1, false⟩
      d.judgeHeader l (!hdrOk b.hdr) tie
  else d

/-- A header and payload bits of the polarity that RX_INVERT sets, on a lane without FEC, which is NRZ (Tables 2.1, 2.11). -/
def Dev.rxPolarity (d : Dev) (l : LaneId) (hdr : BitVec 2) (line : BitVec 128) : BitVec 2 × BitVec 128 :=
  if d.flag (laneReg l Reg.ingLcfg) Fld.ingLcfgRxInvert then (~~~hdr, ~~~line) else (hdr, line)

/-- A block received: on a lane without FEC the one on the line, on a lane with FEC the next of its decoded codewords, if any (R39). -/
def Dev.takeIn (d : Dev) (l : LaneId) (hdr : BitVec 2) (line : BitVec 128) (tie : Bool) : Dev :=
  let r := d.lane l
  if d.laneFec l = 0 then
    let x := d.rxPolarity l hdr line
    (d.setLane l { r with tryBits := r.tryBits + 130 }).receive l ⟨x.1, x.2, true, false, r.tryBits⟩ tie
  else
    match r.decoded with
    | [] => d
    | b :: rest => (d.setLane l { r with decoded := rest }).receive l b tie

/-- The block that 130 line bits spell, h0 first. -/
def rxBlockOf (x : Nat) (inCode lost : Bool) (at_ : Nat) : RxBlock :=
  ⟨BitVec.ofNat 2 (x % 2 * 2 + x / 2 % 2), BitVec.ofNat 128 (x / 4), inCode, lost, at_⟩

/-- An FEC codeword decoded (R39, R40): its blocks wait to be taken in, each with whether it lies in a codeword that decodes and whose marker
matches (R57); corrected and uncorrectable codewords are counted. An idle receiver and a lane without FEC decode none. -/
def Dev.codeword (d : Dev) (l : LaneId) (levels : List (Fin 4)) : Dev :=
  let st := d.laneState l
  let fec := d.laneFec l
  if (st = lsHunt ∨ st = lsTrain ∨ st = lsService) ∧ fec ≠ 0 then
    let r := d.lane l
    let pam4 := d.lanePam4 l
    let bits := levelBits pam4 (if d.flag (laneReg l Reg.ingLcfg) Fld.ingLcfgRxInvert then invertLevels pam4 levels else levels)
    let out := fecDecode fec (bitSlice bits 0 (fecLen fec))
    let msg := match out with
      | some x => x.1
      | none => bitSlice bits 0 (fecMsg fec)
    let seen := if out.isSome then markerCount fec msg else none
    let expect := r.rxMark.map fun m => (m + 1) % 256
    let ok := out.isSome && (match seen with
      | some m => decide (fec = 1) || decide (expect = none) || decide (expect = some m)
      | none => false)
    let blocks := (List.range (fecBlocks fec)).map fun i =>
      rxBlockOf (fecBlock fec msg i) ok out.isNone (r.tryBits + fecHead fec + 130 * i)
    let d := d.setLane l { r with
      decoded := r.decoded ++ blocks, tryBits := r.tryBits + fecLen fec,
      rxMark := if seen.isSome then seen else expect }
    match out with
    | none => d.laneCount l Reg.ingFecUncorr
    | some x => d.countIf x.2 (laneReg l Reg.ingFecCorr)
  else d

/-! The deframer (R44 to R50) -/

/-- Sample width in bits by WIDTH of ING_LMAP (Table 2.14). -/
def widthBits (c : Nat) : Nat := if c = 0 then 8 else if c = 1 then 12 else if c = 2 then 16 else 24

/-- W of an ingest lane. -/
def Dev.laneW (d : Dev) (n : Nat) : Nat := widthBits (d.fld (Reg.ingLmap n) Fld.ingLmapWidth)

/-- N of an ingest lane. -/
def Dev.laneN (d : Dev) (n : Nat) : Nat := d.fld (Reg.ingLmap n) Fld.ingLmapEntries + 1

/-- T_s of an ingest lane in units of 2^-16 ns. -/
def Dev.laneTs (d : Dev) (n : Nat) : Nat := d.rd (Reg.ingLperiod n)

/-- The device channel of entry k of a lane's map. -/
def Dev.laneCh (d : Dev) (n k : Nat) : Nat := d.fld (Reg.ingChmap n k) Fld.ingChmapDevChannel

/-- A TAG block (R45, R48, R528): the open burst breaks, skipped sequence numbers are counted, and in SERVICE a burst opens. In TRAIN it gives
the lane's time TAG and SEQ alone (DEDUCED, log entry 26). -/
def Dev.openBurst (d : Dev) (n : Fin 64) (p : BitVec 128) : Dev :=
  let l : LaneId := ⟨n.val, by omega⟩
  let d := d.breakBurst l
  let x := p.toNat
  let tag := d.shortTag (bitsOf x 80 40) * 65536 + (bitsOf x 64 16 : Int)
  let seq := BitVec.ofNat 8 (bitsOf x 48 8)
  let lost := match (d.lane l).lastSeq with
    | some q => (seq - q - 1).toNat
    | none => 0
  let d := d.countN (Reg.ingBurstLost n.val) lost
  d.setLane l { d.lane l with
    burst := if d.laneState l = lsService then some ⟨tag, bitsOf x 56 8 + 1, 0⟩ else none, lastSeq := some seq, lastP := tag }

/-- The samples of a data block: time in units of 2^-16 ns and value, oldest first (R45, R46). -/
def blockSamples (t0 ts : Int) (w : Nat) (p : BitVec 128) : List (Int × Int) :=
  (List.range (128 / w)).map fun (k : Nat) => (t0 + (k : Int) * ts, signedOf w (bitsOf p.toNat (k * w) w))

/-- Whether a delivered sample can still matter: it covers positions up to half a period after its own time (R528), at most 2^31 units of
2^-16 ns, and the event there has not been admitted. -/
def Dev.seenAlive (d : Dev) (x : Nat × Int × Int) : Bool :=
  match d.eventOf ((x.2.1 + 2 ^ 31) / 65536) with
  | some n => !d.isAdmitted n
  | none => decide ((d.netNs : Int) * 65536 < x.2.1 + 2 ^ 32)

/-- A sample placed (R23, R49, R341): (device, late, duplicate, in a pause). -/
def Dev.placeSample (acc : Dev × Bool × Bool × Bool) (ch lane : Nat) (s : Int × Int) :
    Dev × Bool × Bool × Bool :=
  let (d, late, dup, paused) := acc
  let ev := d.eventOf (s.1 / 65536)
  let isLate := match ev with
    | some n => d.isAdmitted n
    | none => decide (s.1 < 0)
  let inPause := match ev with
    | some n => d.inPause n
    | none => false
  if inPause then (d, late, dup, true)
  else if isLate then (d, true, dup, paused)
  else if d.ing.seen.any (fun x => decide (x.1 = ch) && decide (x.2.1 = s.1)) = true then (d, late, true, paused)
  else
    ({ d with ing := { d.ing with
        seen := (ch, s.1, s.2) :: d.ing.seen, queue := d.ing.queue ++ [⟨ch, s.1, s.2, lane⟩] } },
      late, dup, paused)

/-- A data block delivered by the deframer (R45 to R50). -/
def Dev.dataBlock (d : Dev) (n : Fin 64) (p : BitVec 128) : Dev :=
  let l : LaneId := ⟨n.val, by omega⟩
  match (d.lane l).burst with
  | none => d.count (Reg.ingOrphan n.val)
  | some b =>
    let w := d.laneW n.val
    let cnt := d.laneN n.val
    let ts : Int := d.laneTs n.val
    let t0 := b.tag + (((b.next / cnt) * (128 / w) : Nat) : Int) * ts
    let ch := d.laneCh n.val (b.next % cnt)
    let d := d.setLane l { d.lane l with
      burst := if b.next + 1 < b.len then some { b with next := b.next + 1 } else none }
    if Int.ofNat (d.net16 + d.fld Reg.ingAhead Fld.ingAheadIngAheadMaxNs * 65536) < t0 then d.count (Reg.ingTagAhead n.val)
    else
      let d := { d with ing := { d.ing with seen := d.ing.seen.filter d.seenAlive } }
      let (d, late, dup, paused) :=
        (blockSamples t0 ts w p).foldl (fun acc s => Dev.placeSample acc ch n.val s) (d, false, false, false)
      ((d.countIf late (Reg.ingLateArrival n.val)).countIf dup (Reg.ingDup n.val)).countIf paused
        Reg.tmsPauseDrop

/-- A LINK block received in TRAIN or SERVICE (R44, Table 2.4). -/
def Dev.linkRx (d : Dev) (l : LaneId) (p : BitVec 128) : Dev :=
  if d.laneState l = lsTrain ∨ d.laneState l = lsService then
    let a := laneReg l Reg.ingLfom
    ((d.setFld a Fld.ingLfomPartnerEye (bitsOf p.toNat 109 8)).setFld a Fld.ingLfomPartnerState
      (bitsOf p.toNat 117 3)).setFld a Fld.ingLfomPartnerValid 1
  else d

/-! Missing inputs (R67, R528) -/

/-- The ingest lanes in use, in ascending order. -/
def Dev.lanesInUse (d : Dev) : List Nat :=
  (d.nonzero (Reg.ingLcfg 0) 0x80 64 Fld.ingLcfgEnable).filter fun n => d.fit (24 + n / 16)

/-- The sample positions of a lane that lie in the window of event n, in units of 2^-16 ns (R528). -/
def Dev.positions (d : Dev) (lane n : Nat) : List Int :=
  let ts : Int := d.laneTs lane
  if ts = 0 then []
  else
    let p := (SMap.get (fun _ => LaneRec.init) d.ing.lanes lane).lastP
    let lo : Int := ((n * d.tev * 65536 : Nat) : Int)
    let hi : Int := (((n + 1) * d.tev * 65536 : Nat) : Int)
    let k0 := -((p - lo) / ts)
    let cnt := ((hi - (p + k0 * ts) + ts - 1) / ts).toNat
    (List.range cnt).map fun (j : Nat) => p + (k0 + Int.ofNat j) * ts

/-- Whether a sample of the channel covers a position (R528). -/
def Dev.delivered (d : Dev) (ch : Nat) (ts p : Int) : Bool :=
  d.ing.seen.any fun x => decide (x.1 = ch) && decide (2 * p - ts ≤ 2 * x.2.1) && decide (2 * x.2.1 < 2 * p + ts)

/-- The missing positions of event n: lane, channel and time of each (R67). -/
def Dev.missingPositions (d : Dev) (n : Nat) : List (Nat × Nat × Int) :=
  (d.lanesInUse.map fun l =>
    let ps := d.positions l n
    ((List.range (d.laneN l)).map fun k =>
      let ch := d.laneCh l k
      (ps.filter fun p => !d.delivered ch (d.laneTs l) p).map fun p => (l, ch, p)).flatten).flatten

end Sys2Proof.Machine
end

