-- ==== Sys2Proof/Machine/Prims.lean ====
section
/-!
DEFINITION. The primitive array ("Primitive conditions, Hawk rings and Stipple capture"): comparators and
crossings, the five conditions, tokens and primitive words, hold-off, dead time, and the effect boundary
of live changes.
-/

namespace Sys2Proof.Machine

open Sys2Proof

/-! Values in force for an event (R91, R293) -/

/-- The earliest replacement of an address at a boundary later than event n. -/
def laterReplaced (n a : Nat) : List Replaced → Option Replaced
  | [] => none
  | r :: rs =>
    let best := laterReplaced n a rs
    if r.addr = a ∧ n < r.event then
      match best with
      | some b => if b.event ≤ r.event then some b else some r
      | none => some r
    else best

/-- The first event whose window opens at least 1,000 ns after a live write was accepted: its effect boundary (R91). -/
def Dev.boundaryOf (d : Dev) (p : PendWrite) : Nat := ceilDiv (p.at_ + 1000 * 65536) (d.tev * 65536)

/-- Whether a live write takes effect at the opening of event n or before. -/
def Dev.due (d : Dev) (n : Nat) (p : PendWrite) : Bool :=
  decide (p.at_ + 1000 * 65536 ≤ n * d.tev * 65536)

/-- The word of a register as it stands for event n: boundaries later than n do not touch it, and a boundary up to n does, whether or not its
window has opened (R92). -/
def Dev.rdAt (d : Dev) (n a : Nat) : Nat :=
  match d.prm.pend.find? (fun p => decide (p.addr = a) && d.due n p) with
  | some p => p.value
  | none =>
    match laterReplaced n a d.prm.hist with
    | some r => r.old
    | none => d.rd a

/-- A field of a register as it stands for event n. -/
def Dev.fldAt (d : Dev) (n a : Nat) (f : Fld) : Nat := bitsOf (d.rdAt n a) f.lo f.w

/-- The value of a register once the live writes on their way have taken effect (R421). -/
def Dev.staged (d : Dev) (a : Nat) : Nat :=
  match d.prm.pend.find? (fun p => p.addr = a) with
  | some p => p.value
  | none => d.rd a

/-- A live write accepted, to take effect at the effect boundary (R91); the newest stands first. -/
def Dev.stage (d : Dev) (a v : Nat) : Dev :=
  { d with prm := { d.prm with pend := ⟨a, v, d.net16⟩ :: d.prm.pend } }

/-! Units and slots -/

/-- A primitive unit. -/
def Dev.unit (d : Dev) (u : Nat) : UnitRec := SMap.get (fun _ => UnitRec.init) d.prm.units u

/-- A primitive unit changed. -/
def Dev.setUnit (d : Dev) (u : Nat) (r : UnitRec) : Dev :=
  { d with prm := { d.prm with units := SMap.set (fun _ => UnitRec.init) d.prm.units u r } }

/-- Slot k of a unit. -/
def unitSlot (r : UnitRec) (k : Nat) : SlotRec :=
  if k = 0 then r.s0 else if k = 1 then r.s1 else if k = 2 then r.s2 else r.s3

/-- Slot k of a unit replaced. -/
def setUnitSlot (r : UnitRec) (k : Nat) (x : SlotRec) : UnitRec :=
  if k = 0 then { r with s0 := x } else if k = 1 then { r with s1 := x }
  else if k = 2 then { r with s2 := x } else { r with s3 := x }

/-- The profile that slot k of unit u follows (R71); 0 for none. -/
def Dev.slotProfile (d : Dev) (u k : Nat) : Nat := bitsOf (d.rd (Reg.prmUsel u)) (8 * k) 8

/-- Whether slot k of unit u is in use (R71). -/
def Dev.slotUsed (d : Dev) (u k : Nat) : Bool :=
  decide (d.slotProfile u k ≠ 0) &&
    decide (d.fld (Reg.prmPcfg (d.slotProfile u k)) Fld.prmPcfgType ≠ 0)

/-! Crossings (R73 to R75) -/

/-- The time of a crossing at level y between the last sample and (s, t), and whether it carries GAP. The interpolated time is
truncated toward the last sample (R74): both numerator and denominator are negative at a falling crossing. -/
def crossTime (prev : Option (Int × Int)) (gap : Bool) (y s t : Int) : Int × Bool :=
  match prev with
  | none => (t, true)
  | some (s0, t0) =>
    if gap ∨ t ≤ t0 ∨ s = s0 then (t, true)
    else (t0 + ((y - s0) * (t - t0)).tdiv (s - s0), false)

/-- A completion of a condition: token time, measured value (both in units of 2^-16 ns), GAP. -/
structure Done where
  neg : Bool
  t : Int
  v : Int
  gap : Bool
  deriving DecidableEq, Repr

/-- What one sample is to one polarity of a condition. -/
structure PolIn where
  ty : Nat
  either : Bool
  /-- Low level, hysteresis, high level (R76). -/
  x : Int
  h : Int
  hi : Int
  /-- T1 in units of 2^-16 ns. -/
  t1 : Int
  fresh : Bool
  prev : Option (Int × Int)
  gap : Bool
  s : Int
  t : Int
  deriving DecidableEq, Repr

/-- The comparator after the sample (R73); before its first one it is low, also for a sample between X − H and X (DESIGN CHOICE, log entry
30). -/
def polHigh (i : PolIn) (high : Bool) : Bool :=
  if i.x ≤ i.s then true else if i.s < i.x - i.h then false else high

/-- TIMEOUT on one sample (R79, R80): the started condition left, and the completion. The sample that makes the start crossing decides
nothing (DESIGN CHOICE, log entry 30). -/
def timeoutStep (i : PolIn) (st : Option Start) (cross : Option (Int × Bool)) : Option Start × Option Done :=
  match st with
  | none => (none, none)
  | some b =>
    let dl := b.t + i.t1
    let covered := i.gap && decide (dl < i.t) && (match i.prev with
      | some (_, t0) => decide (t0 < dl)
      | none => false)
    if covered then
      match cross with
      | some _ => (none, none)
      | none => (none, some ⟨false, dl, i.t1, true⟩)
    else
      let cancelled := match cross with
        | some (tc, _) => decide (tc ≤ dl)
        | none => false
      if cancelled then (none, none)
      else if dl < i.t then (none, some ⟨false, dl, i.t1, b.gap⟩)
      else (some b, none)

/-- One polarity of a condition on one sample (Table 3.1): the polarity after it, and the completion. -/
def polStep (i : PolIn) (r : PolRec) : PolRec × Option Done :=
  let high := polHigh i r.high
  let rising := !i.fresh && !r.high && high
  let falling := !i.fresh && r.high && !high
  let up := crossTime i.prev i.gap i.x i.s i.t
  let down := crossTime i.prev i.gap (i.x - i.h) i.s i.t
  if i.ty = 1 then
    (⟨high, none⟩, if rising then some ⟨false, up.1, 0, up.2⟩ else none)
  else if i.ty = 2 ∨ i.ty = 3 then
    let st := if rising then some ⟨up.1, up.2⟩ else r.start
    let st := if i.ty = 3 ∧ i.hi ≤ i.s then none else st
    match falling, st with
    | true, some b => (⟨high, none⟩, some ⟨false, down.1, down.1 - b.t, down.2⟩)
    | _, _ => (⟨high, st⟩, none)
  else if i.ty = 4 then
    let cancel := if falling then some down else if i.either ∧ rising then some up else none
    let (st, out) := timeoutStep i r.start cancel
    let begins := if rising then some up else if i.either ∧ falling then some down else none
    match begins with
    | some (tc, g) => (⟨high, some ⟨tc, g⟩⟩, out)
    | none => (⟨high, st⟩, out)
  else if i.ty = 5 then
    let st := if rising then some ⟨up.1, up.2⟩ else r.start
    match st with
    | none => (⟨high, none⟩, none)
    | some b =>
      if i.hi ≤ i.s then
        let at_ := crossTime i.prev i.gap i.hi i.s i.t
        (⟨high, none⟩, some ⟨false, at_.1, at_.1 - b.t, at_.2⟩)
      else if falling then (⟨high, none⟩, none)
      else (⟨high, some b⟩, none)
  else (⟨high, none⟩, none)

/-- The COMPARE test of Table 3.2; v in units of 2^-16 ns, T1 and T2 in units of 2^-8 ns. -/
def compareOk (code : Nat) (v t1 t2 : Int) : Bool :=
  if code = 1 then decide (t1 * 256 ≤ v) && decide (v ≤ t2 * 256)
  else if code = 2 then decide (v < t1 * 256) || decide (t2 * 256 < v)
  else if code = 3 then decide (v < t1 * 256)
  else if code = 4 then decide (t1 * 256 < v)
  else true

/-! Placing tokens (R83 to R88, R525) -/

/-- The earliest event not yet admitted: of all that Dev.isAdmitted denies, with the fraction of network time. -/
def Dev.earliestOpen (d : Dev) : Nat :=
  let byTime := ceilDiv (d.tms.ctr - d.aNs * 2 ^ 40) (d.tev * 2 ^ 40) - 1
  match d.scr.admitted with
  | some m => if byTime ≤ m then m + 1 else byTime
  | none => byTime

/-- The event a token of time t is placed in, and whether it is carried there; none when it is discarded. -/
def Dev.tokenEvent (d : Dev) (t : Int) : Option (Nat × Bool) :=
  match d.eventOf (t / 65536) with
  | none => none
  | some n =>
    if d.neverFormed n then none
    else if d.isAdmitted n then
      if d.neverFormed d.earliestOpen then none else some (d.earliestOpen, true)
    else some (n, false)

/-- The key of a primitive word under way. -/
def pwKey (n u k : Nat) : Nat := (n * 8192 + u) * 4 + k

/-- A primitive word under way. -/
def Dev.pw (d : Dev) (n u k : Nat) : PwAcc := SMap.get (fun _ => PwAcc.init) d.prm.words (pwKey n u k)

/-- A primitive word under way changed. -/
def Dev.setPw (d : Dev) (n u k : Nat) (x : PwAcc) : Dev :=
  { d with prm := { d.prm with words := SMap.set (fun _ => PwAcc.init) d.prm.words (pwKey n u k) x } }

/-- A token put into event m (Table 3.4). MEAS counts units of 2^-8 ns, saturating (Table 3.3): a measurement in finer units is floored to them,
and one below 0 counts as 0 (DESIGN CHOICE, log entries 30 and 74). -/
def Dev.putToken (d : Dev) (m u k : Nat) (carried : Bool) (c : Done) : Dev :=
  let a := d.pw m u k
  let meas := if c.v / 256 < 2 ^ 32 then (c.v / 256).toNat else 2 ^ 32 - 1
  let a := if a.count = 0 then { a with neg := c.neg, meas := meas } else a
  let a := if carried ∨ a.firstSet then a
    else { a with firstSet := true, first := ((c.t - ((m * d.tev * 65536 : Nat) : Int)) / 256).toNat }
  d.setPw m u k { a with
    count := if a.count < 7 then a.count + 1 else 7, carried := a.carried || carried, gap := a.gap || c.gap }

/-- The hold-off that a slot's firing starts (R87), by the profile values of event n. -/
def Dev.startHold (d : Dev) (n p m : Nat) (t : Int) (s : SlotRec) : SlotRec :=
  let mode := d.fldAt n (Reg.prmPcfg p) Fld.prmPcfgHoldoffMode
  if mode = 1 then
    let e := t + ((d.rdAt n (Reg.prmPhold p) * 65536 : Nat) : Int)
    { s with holdT := some e, spans := (t, e) :: s.spans }
  else if mode = 2 then
    let ev := d.fldAt n (Reg.prmPcfg p) Fld.prmPcfgHoldoffEv
    { s with holdE := (m + 1, m + ev) :: s.holdE,
             spans := ((((m + 1) * d.tev * 65536 : Nat) : Int), (((m + ev + 1) * d.tev * 65536 : Nat) : Int)) :: s.spans }
  else s

/-- Whether a completion falls into a slot's hold-off (R87). -/
def inHold (s : SlotRec) (t : Int) (m : Option Nat) : Bool :=
  (match s.holdT with
    | some e => decide (t < e)
    | none => false) ||
  (match m with
    | some x => s.holdE.any fun h => decide (h.1 ≤ x) && decide (x ≤ h.2)
    | none => false)

/-- A completion of slot k of unit u on a sample of event n (R77, R84, R88, R525). -/
def Dev.complete (d : Dev) (n u k : Nat) (c : Done) : Dev :=
  let p := d.slotProfile u k
  if compareOk (d.fld (Reg.prmPcfg p) Fld.prmPcfgCompare) c.v (d.rdAt n (Reg.prmPt1 p)) (d.rdAt n (Reg.prmPt2 p)) then
    let s := unitSlot (d.unit u) k
    let place := d.tokenEvent c.t
    if inHold s c.t (place.map Prod.fst) then
      let d := d.count Reg.prmHeld
      match place with
      | some (m, _) => d.setPw m u k { d.pw m u k with held := true }
      | none => d
    else
      let d := d.count Reg.prmTokens
      match place with
      | none => d.count Reg.prmDiscarded
      | some (m, carried) =>
        let d := (d.putToken m u k carried c).countIf carried Reg.prmCarried
        d.setUnit u (setUnitSlot (d.unit u) k (d.startHold n p m c.t (unitSlot (d.unit u) k)))
  else d

/-! Dead time in gaps (R89) -/

/-- T_s added to the dead time of a unit in the interval that holds time p. -/
def Dev.addDead (d : Dev) (u : Nat) (ts : Nat) (p : Int) : Dev :=
  let m := (p / 65536 / 1000000).toNat
  { d with prm := { d.prm with dead := SMap.modify (fun _ => 0) d.prm.dead (m * 8192 + u) (· + ts) } }

/-- The positions of a lane between the samples at t0 and t that neither covers (R75, R528). -/
def Dev.gapPositions (d : Dev) (lane : Nat) (t0 t : Int) : List Int :=
  let ts : Int := d.laneTs lane
  if ts = 0 then []
  else
    let p := (SMap.get (fun _ => LaneRec.init) d.ing.lanes lane).lastP
    let k0 := (2 * (t0 - p) + ts) / (2 * ts) + 1
    let cnt := ((2 * (t - p) - ts) / (2 * ts) - k0 + 1).toNat
    (List.range cnt).map fun (j : Nat) => p + (k0 + Int.ofNat j) * ts

/-- The positions of a gap that lie in windows never formed are dead; those of formed events are judged at their admission. -/
def Dev.gapDead (d : Dev) (u lane : Nat) (t0 t : Int) : Dev :=
  let ps := (d.gapPositions lane t0 t).filter fun p => match d.eventOf (p / 65536) with
    | some n => d.neverFormed n
    | none => false
  ps.foldl (fun e p => e.addDead u (e.laneTs lane) p) d

/-! One sample through a unit (R71 to R81, R92) -/

/-- Whether a replaced address bears on slot k of unit u. -/
def Dev.touches (d : Dev) (u k a : Nat) : Bool :=
  decide (a = Reg.prmUofs u) ||
    (decide (d.slotProfile u k ≠ 0) && decide (Reg.prmPcfg (d.slotProfile u k) ≤ a) &&
      decide (a < Reg.prmPcfg (d.slotProfile u k) + 0x20))

/-- Whether a boundary up to event n that a slot has not met yet bears on slot k of unit u: one passed, or one whose window has not opened. -/
def Dev.meets (d : Dev) (n u k : Nat) (s : SlotRec) : Bool :=
  d.prm.hist.any (fun r => decide (s.boundary < r.event) && decide (r.event ≤ n) && d.touches u k r.addr) ||
    d.prm.pend.any fun p => decide (s.boundary < d.boundaryOf p) && d.due n p && d.touches u k p.addr

/-- The effect boundaries up to event n that slot k has not met yet act on it (R92). -/
def Dev.meetBoundary (d : Dev) (n u k : Nat) : Dev :=
  let s := unitSlot (d.unit u) k
  if d.slotUsed u k && d.meets n u k s then
    let started := bit01 s.pos.start.isSome + bit01 s.neg.start.isSome
    let d := d.countN Reg.prmRestarts started
    d.setUnit u (setUnitSlot (d.unit u) k { s with
      fresh := true, pos := { s.pos with start := none }, neg := { s.neg with start := none }, boundary := n })
  else d

/-- Slot k of unit u on a sample of event n. -/
def Dev.slotSample (d : Dev) (n u k : Nat) (gap : Bool) (s t : Int) : Dev :=
  if d.slotUsed u k then
    let d := d.meetBoundary n u k
    let p := d.slotProfile u k
    let r := d.unit u
    let sl := unitSlot r k
    let ty := d.fld (Reg.prmPcfg p) Fld.prmPcfgType
    let pol := d.fld (Reg.prmPcfg p) Fld.prmPcfgPol
    let ofs := signedOf 24 (d.rdAt n (Reg.prmUofs u))
    let a := signedOf 24 (d.rdAt n (Reg.prmPtha p)) + ofs
    let b := signedOf 24 (d.rdAt n (Reg.prmPthb p)) + ofs
    let h : Int := d.fldAt n (Reg.prmPhys p) Fld.prmPhysPhys
    let t1 : Int := ((d.rdAt n (Reg.prmPt1 p) * 256 : Nat) : Int)
    let pairTy := ty = 3 ∨ ty = 5
    let inp : PolIn := ⟨ty, pol = 2, a, h, b, t1, sl.fresh, r.last, gap, s, t⟩
    let inn : PolIn := ⟨ty, pol = 2, if pairTy then -b else -a, h, -a, t1, sl.fresh,
      r.last.map (fun x => (-x.1, x.2)), gap, -s, t⟩
    let (pp, pc) := if pol = 1 then (sl.pos, none) else polStep inp sl.pos
    let (np, nc) := if pol = 0 then (sl.neg, none) else polStep inn sl.neg
    let d := d.setUnit u (setUnitSlot (d.unit u) k { sl with fresh := false, pos := pp, neg := np })
    let d := match pc with
      | some c => d.complete n u k c
      | none => d
    match nc with
    | some c => d.complete n u k { c with neg := true }
    | none => d
  else d

/-- A sample taken by primitive unit u (R71, R75, R525): its slots in ascending order. -/
def Dev.primSample (d : Dev) (x : Sample) : Dev :=
  if d.scr.armed then
    let u := x.ch
    let n := match d.eventOf (x.t / 65536) with
      | some n => n
      | none => 0
    let t0 := match (d.unit u).last with
      | some (_, t0) => t0
      | none => x.t
    let gap := decide ((3 * d.laneTs x.lane : Nat) < 2 * (x.t - t0))
    let d := if gap then (d.count Reg.prmGaps).gapDead u x.lane t0 x.t else d
    let d := (((d.slotSample n u 0 gap x.v x.t).slotSample n u 1 gap x.v x.t).slotSample n u 2 gap x.v x.t).slotSample
      n u 3 gap x.v x.t
    d.setUnit u { d.unit u with last := some (x.v, x.t) }
  else d

/-! Primitive words (R85, Table 3.4) -/

/-- The 64-bit primitive word of slot k of unit u for event n. FIRST is floored to its unit of 2^-8 ns, and MEAS to whole ns (DESIGN CHOICE, log
entry 74). -/
def Dev.primWord (d : Dev) (n u k : Nat) (missing : Bool) : BitVec 64 :=
  let a := d.pw n u k
  let meas := if a.meas / 256 < 65535 then a.meas / 256 else 65535
  BitVec.ofNat 64 (u + k * 2 ^ 13 + bit01 (decide (0 < a.count)) * 2 ^ 15 + a.count * 2 ^ 16 +
    bit01 a.carried * 2 ^ 19 + bit01 missing * 2 ^ 20 + bit01 a.gap * 2 ^ 21 + bit01 a.held * 2 ^ 22 +
    bit01 a.neg * 2 ^ 23 + a.first * 2 ^ 24 + meas * 2 ^ 48)

/-- The words of events before n dropped: nothing reads them any more. -/
def Dev.dropWords (d : Dev) (n : Nat) : Dev :=
  { d with prm := { d.prm with words := d.prm.words.filter fun e => decide (pwKey n 0 0 ≤ e.1) } }

/-! Dead time (R89, R90) -/

/-- Whether time p lies inside a hold-off of a slot. -/
def inSpan (s : SlotRec) (p : Int) : Bool := s.spans.any fun x => decide (x.1 ≤ p) && decide (p < x.2)

/-- Whether every in-use slot of a unit, and at least one, is inside a hold-off at time p (R89). -/
def Dev.allHeld (d : Dev) (u : Nat) (p : Int) : Bool :=
  let used := (List.range 4).filter fun k => d.slotUsed u k
  !used.isEmpty && used.all fun k => inSpan (unitSlot (d.unit u) k) p

/-- The dead positions of event n judged: its missing positions, and positions inside hold-off. -/
def Dev.judgeDead (d : Dev) (n : Nat) (missing : List (Nat × Nat × Int)) : Dev :=
  let d1 := missing.foldl (fun e x => e.addDead x.2.1 (d.laneTs x.1) x.2.2) d
  d.lanesInUse.foldl (fun e l =>
    (List.range (d.laneN l)).foldl (fun e k =>
      let u := d.laneCh l k
      if [0, 1, 2, 3].all (fun j => (unitSlot (d.unit u) j).spans.isEmpty) then e
      else (d.positions l n).foldl (fun e p =>
        if missing.contains (l, u, p) then e
        else if d.allHeld u p then e.addDead u (d.laneTs l) p else e) e) e) d1

/-- The dead time of interval m latched into PRM_DEAD (R90). PRM_DEAD_SEQ goes on modulo 2^32, as no table calls it a counter (DESIGN CHOICE,
log entry 74). -/
def Dev.latchDead (d : Dev) (m : Nat) : Dev :=
  let d := { d with regs := d.regs.filter fun e => !(decide (Reg.prmDead 0 ≤ e.1) && decide (e.1 < Reg.prmDead 8192)) }
  let d := d.prm.dead.foldl (fun e x =>
    if x.1 / 8192 = m then e.wr (Reg.prmDead (x.1 % 8192)) (x.2 / 65536) else e) d
  let vals := (d.prm.dead.filter fun x => decide (x.1 / 8192 = m)).map fun x => (x.1 % 8192, x.2 / 65536)
  let d := { d with prm := { d.prm with
    dead := d.prm.dead.filter fun x => decide (m < x.1 / 8192), latched := (m, vals) :: d.prm.latched.take 1 } }
  d.wr Reg.prmDeadSeq (d.rd Reg.prmDeadSeq + 1)

/-- The interval whose last nanosecond lies in the window of event n (R90). An interval whose last nanosecond lies in a window never formed is
not latched (DESIGN CHOICE, log entry 30). -/
def Dev.lastInterval (d : Dev) (n : Nat) : Option Nat :=
  let m1 := (n + 1) * d.tev / 1000000
  if 0 < m1 ∧ n * d.tev < m1 * 1000000 then some (m1 - 1) else none

/-! The effect boundary (R91 to R93, R293) -/

/-- One live write in effect from event n on: the old value stays for the events before. -/
def Dev.applyPend (d : Dev) (n : Nat) (p : PendWrite) : Dev :=
  let d' := { d with prm := { d.prm with hist := ⟨n, p.addr, d.rd p.addr⟩ :: d.prm.hist } }
  let slot := (p.addr - 0xA00000) / 0x40
  let ofs := (p.addr - 0xA00000) % 0x40
  let menu := decide (0xA00000 ≤ p.addr)
  let d' := if menu ∧ (ofs = 0x24 ∨ (ofs = 0 ∧ bitsOf p.value 8 2 = 0)) then
      { d' with scr := { d'.scr with fx := d'.scr.fx ++ [⟨n, slot, ofs = 0x24, ofs = 0⟩] } }
    else d'
  let d' := d'.wr p.addr p.value
  if 0xA0000 ≤ p.addr ∧ p.addr < 0xC0000 then d'.wr Reg.prmLastEffect n
  else d'.wr Reg.scrLastEffect n

/-- The opening of the window of event n: live writes accepted 1,000 ns before take effect, oldest first; values
replaced more than 2 ms ago are forgotten. -/
def Dev.effectBoundary (d : Dev) (n : Nat) : Dev :=
  let due := d.prm.pend.reverse.filter (d.due n)
  let d' := { d with prm := { d.prm with
    pend := d.prm.pend.filter (fun p => !d.due n p),
    hist := d.prm.hist.filter (fun r => decide (n * d.tev ≤ r.event * d.tev + 2000000)) } }
  due.foldl (fun e p => e.applyPend n p) d'

/-- Units with no sample in the boundary's window meet it once the windows before are admitted (log entry 31). -/
def Dev.meetAll (d : Dev) (n : Nat) : Dev :=
  (d.prm.units.map Prod.fst).foldl (fun e u =>
    (((e.meetBoundary n u 0).meetBoundary n u 1).meetBoundary n u 2).meetBoundary n u 3) d

/-- Hold-offs and their spans that end before event n dropped: no position and no placement to come lies in them. -/
def Dev.trimSpans (d : Dev) (n : Nat) : Dev :=
  let lo : Int := ((n * d.tev * 65536 : Nat) : Int)
  let trim (s : SlotRec) : SlotRec := { s with
    spans := s.spans.filter fun x => decide (lo < x.2), holdE := s.holdE.filter fun h => decide (n ≤ h.2) }
  (d.prm.units.map Prod.fst).foldl (fun e u =>
    let r := e.unit u
    e.setUnit u { r with s0 := trim r.s0, s1 := trim r.s1, s2 := trim r.s2, s3 := trim r.s3 }) d

end Sys2Proof.Machine
end

