-- ==== Sys2Proof/Machine/Screed.lean ====
section
/-!
DEFINITION. The Screed's decisions ("The Screed, menu slots and decisions"): menu inputs, slot logic, completion
and headroom, hold-off and prescale, late actions, the decision and companion words, combining a group,
and the counts of the rate frames.
-/

namespace Sys2Proof.Machine

open Sys2Proof

/-! Menu inputs (R281, R282) -/

/-- The enabled menu slots in ascending order. -/
def Dev.enabledSlots (d : Dev) : List Nat := d.nonzero (Reg.mnCtl 0) 0x40 16384 Fld.mnCtlEn

/-- Whether the device runs without its timed-class contexts (R305). -/
def Dev.unproven (d : Dev) : Bool := d.flag Reg.scrState Fld.scrStateUnproven

/-- The terms of a slot with an operator: term number, input, operator (R284). -/
def Dev.terms (d : Dev) (s : Nat) : List (Nat × Nat × Nat) :=
  let w0 := d.rd (Reg.mnTerm01 s)
  let w1 := d.rd (Reg.mnTerm23 s)
  [(0, bitsOf w0 0 12, bitsOf w0 12 3), (1, bitsOf w0 16 12, bitsOf w0 28 3),
   (2, bitsOf w1 0 12, bitsOf w1 12 3), (3, bitsOf w1 16 12, bitsOf w1 28 3)].filter fun t => decide (t.2.2 ≠ 0)

/-- Whether an input is a primitive input. -/
def Dev.isPrim (d : Dev) (i : Nat) : Bool := d.flag (Reg.scrInput i) Fld.scrInputPrim

/-- A primitive input: one field of one primitive word (R281). -/
def Dev.primInput (d : Dev) (e : Ev) (i : Nat) : Nat × Bool :=
  let u := d.fld (Reg.scrInput i) Fld.scrInputUnit
  let k := d.fld (Reg.scrInput i) Fld.scrInputPslot
  let f := d.fld (Reg.scrInput i) Fld.scrInputPfield
  let miss := e.missing.contains u
  let w := if d.slotUsed u k then (d.primWord e.n u k miss).toNat else 0
  (if f = 0 then bitsOf w 15 1 else if f = 1 then bitsOf w 16 3 else if f = 2 then bitsOf w 48 16
   else bitsOf w 24 24, bitAt w 20)

/-- A network input of an event, once present. -/
def evInput (e : Ev) (i : Nat) : Option InVal := SMap.get (fun _ => none) e.inputs i

/-- Value and DEGRADED of an input; an input not yet present reads 0 and is not degraded. -/
def Dev.inputOf (d : Dev) (e : Ev) (i : Nat) : Nat × Bool :=
  if d.isPrim i then d.primInput e i
  else match evInput e i with
    | some x => (x.v.toNat, x.degraded)
    | none => (0, false)

/-- When an input is present, in units of 2^-16 ns (R282). -/
def Dev.presentAt (d : Dev) (e : Ev) (i : Nat) : Option Nat :=
  if d.isPrim i then some (d.admTime e.n * 65536) else (evInput e i).map InVal.at_

/-! Completion (R283) -/

/-- The later of two times, either of which may not be known. -/
def laterOf (a b : Option Nat) : Option Nat :=
  match a, b with
  | some x, some y => some (if x ≤ y then y else x)
  | _, _ => none

/-- Whether a slot uses a network input. -/
def Dev.usesNet (d : Dev) (s : Nat) : Bool := (d.terms s).any fun t => !d.isPrim t.2.1

/-- A slot's completion, 12 ns after the latest of its terms' inputs; none while one is not present. -/
def Dev.slotDone (d : Dev) (e : Ev) (s : Nat) : Option Nat :=
  if d.unproven && d.usesNet s then some ((d.admTime e.n + 12) * 65536)
  else
    ((d.terms s).foldl (fun a t => laterOf a (d.presentAt e t.2.1)) (some (d.admTime e.n * 65536))).map (· + 12 * 65536)

/-- The event's completion: the latest of its enabled slots' (R283). -/
def Dev.evDone (d : Dev) (e : Ev) : Option Nat :=
  d.enabledSlots.foldl (fun a s => laterOf a (d.slotDone e s)) (some ((d.admTime e.n + 12) * 65536))

/-- The headroom of an event in units of 2^-16 ns (R303). -/
def Dev.headroom (d : Dev) (e : Ev) : Option Int :=
  e.completion.map fun c => Int.ofNat (d.deadline e.n * 65536) - Int.ofNat c

/-- The headroom of an event shown in SCR_HEADROOM_LAST, in units of 2^-4 ns. -/
def Dev.showHeadroom (d : Dev) (e : Ev) : Dev :=
  match d.headroom e with
  | some h => d.setFld Reg.scrHeadroomLast Fld.scrHeadroomLastLast (lowBits 24 (h / 4096))
  | none => d

/-- Whether an event is released in SAFE (R313). -/
def Dev.inSafe (d : Dev) (n : Nat) : Bool :=
  match d.scr.safeFrom with
  | some m => decide (m ≤ n)
  | none => false

/-- The completion measured, when every input is present (R283, R303). A headroom below 0.08 × D goes to the HPC (R503). -/
def Dev.measure (d : Dev) (e : Ev) : Dev × Ev :=
  if e.completion.isSome || !e.admitted then (d, e)
  else
    match d.evDone e with
    | none => (d, e)
    | some c =>
      let e := { e with completion := some c }
      let d := { d with store := { d.store with
        recs := d.store.recs.map fun (x : RecordRec) => if x.event = e.n ∧ x.doneAt.isNone then { x with completion := some c } else x } }
      let h := Int.ofNat (d.deadline e.n * 65536) - Int.ofNat c
      let d := { d with scr := { d.scr with headMin := match d.scr.headMin with
        | some m => some (if h < m then h else m)
        | none => some h } }
      let d := if 100 * h < Int.ofNat (8 * (d.deadline e.n - d.tSample e.n) * 65536) then
          { d with pwr := { d.pwr with low := d.pwr.low ++ [⟨e.n, d.admTime e.n⟩] } }
        else d
      (if e.released ∧ d.scr.releasedEv = some e.n then d.showHeadroom e else d, e)

/-! Slot logic (R284, R285) -/

/-- An FP32 word as an ordered integer; none for a NaN. -/
def fpKey (w : Nat) : Option Int :=
  let m := w % 2 ^ 31
  if 0x7F800000 < m then none else if bitAt w 31 then some (-(Int.ofNat m)) else some (Int.ofNat m)

/-- Whether a term's comparison holds (Table 8.1). -/
def termOk (fp : Bool) (op v t : Nat) : Bool :=
  if op = 5 then decide (v &&& t ≠ 0)
  else if op = 6 then decide (v &&& t = t)
  else
    let a := if fp then fpKey v else some (signedOf 32 v)
    let b := if fp then fpKey t else some (signedOf 32 t)
    match a, b with
    | some x, some y =>
      if op = 1 then decide (y ≤ x) else if op = 2 then decide (y < x)
      else if op = 3 then decide (x ≤ y) else if op = 4 then decide (x < y) else false
    | _, _ => false

/-- The slot's logic for an event (R285), by the thresholds in force for it. -/
def Dev.logic (d : Dev) (e : Ev) (s : Nat) : Bool :=
  let idx := (d.terms s).foldl (fun a t =>
    let fp := d.flag (Reg.scrInput t.2.1) Fld.scrInputFp32
    a + bit01 (termOk fp t.2.2 (d.inputOf e t.2.1).1 (d.rdAt e.n (Reg.mnThr s t.1))) * 2 ^ t.1) 0
  bitAt (d.fld (Reg.mnLut s) Fld.mnLutLut) idx

/-- Whether any term input of a slot is degraded for an event (R282). -/
def Dev.degradedIn (d : Dev) (e : Ev) (s : Nat) : Bool := (d.terms s).any fun t => (d.inputOf e t.2.1).2

/-- Whether a network input of a slot lies in a dependency group that holds logical core c (R291). -/
def Dev.dependsOn (d : Dev) (s c : Nat) : Bool :=
  (d.terms s).any fun t =>
    !d.isPrim t.2.1 &&
      bitAt (d.rd (Reg.scrDgroup (d.fld (Reg.scrInput t.2.1) Fld.scrInputDgroup) (c / 32))) (c % 32)

/-! Counts (R318) -/

/-- The interval of network time that holds an event's release (R27). -/
def Dev.relInterval (d : Dev) (n : Nat) : Nat := d.relTime n / 1000000

/-- An interval's counts changed. -/
def Dev.rfMod (d : Dev) (m : Nat) (f : RfAcc → RfAcc) : Dev :=
  { d with scr := { d.scr with rf := SMap.modify (fun _ => RfAcc.init) d.scr.rf m f } }

/-- A slot's counts in an interval changed. -/
def Dev.slotMod (d : Dev) (m s : Nat) (f : SlotAcc → SlotAcc) : Dev :=
  { d with scr := { d.scr with rfSlots := SMap.modify (fun _ => SlotAcc.init) d.scr.rfSlots (m * 16384 + s) f } }

/-- A menu slot's hold-off record. -/
def Dev.menuRec (d : Dev) (s : Nat) : MenuRec := SMap.get (fun _ => ⟨none, none⟩) d.scr.menu s

/-- A menu slot's hold-off record changed. -/
def Dev.setMenu (d : Dev) (s : Nat) (r : MenuRec) : Dev :=
  { d with scr := { d.scr with menu := SMap.set (fun _ => ⟨none, none⟩) d.scr.menu s r } }

/-! The slot output (R287 to R291, R300) -/

/-- Whether a slot is in hold-off at event n (R288). -/
def Dev.slotHeld (d : Dev) (s n : Nat) : Bool :=
  (match (d.menuRec s).holdT with
    | some t => decide (d.tSample n < t)
    | none => false) ||
  (match (d.menuRec s).holdE with
    | some m => decide (n ≤ m)
    | none => false)

/-- An ACCEPT at event n starts the slot's hold-off (R288). -/
def Dev.startSlotHold (d : Dev) (s n : Nat) : Dev :=
  let mode := d.fldAt n (Reg.mnCtl s) Fld.mnCtlHoldoffMode
  if mode = 1 then d.setMenu s ⟨some (d.tSample n + d.rdAt n (Reg.mnHoldns s)), none⟩
  else if mode = 2 then d.setMenu s ⟨none, some (n + d.fldAt n (Reg.mnCtl s) Fld.mnCtlHoldoffEv)⟩
  else d

/-- A hit past mask and hold-off meets the prescale (R287, R289). -/
def Dev.prescale (d : Dev) (s n : Nat) : Dev × SlotOut :=
  let c := d.fld (Reg.mnStat s) Fld.mnStatPsCount
  let p := d.fldAt n (Reg.mnPrescale s) Fld.mnPrescalePrescale
  let d := d.setFld (Reg.mnStat s) Fld.mnStatPsCount ((c + 1) % p)
  if c ≠ 0 then (d, .reject) else (d.startSlotHold s n, .accept)

/-- The procedure of R287 for a slot and an event with no late action. -/
def Dev.slotR287 (d : Dev) (e : Ev) (s : Nat) : Dev × SlotOut :=
  let m := d.relInterval e.n
  let mode := d.fldAt e.n (Reg.mnCtl s) Fld.mnCtlDegrMode
  if e.skews.any (d.dependsOn s) then (d, .noDecision)
  else
    let deg := d.degradedIn e s
    let d := if deg then d.slotMod m s fun a => { a with degr := satInc 18 1 a.degr } else d
    if deg ∧ mode = 0 then (d, .noDecision)
    else if deg ∧ mode = 2 then (d, .reject)
    else if d.logic e s = false then (d, .reject)
    else
      let d := (d.slotMod m s fun a => { a with hits := satInc 18 1 a.hits }).count (Reg.mnHits s)
      if d.fldAt e.n (Reg.mnCtl s) Fld.mnCtlMasked = 1 then (d, .reject)
      else if d.slotHeld s e.n then
        (d.slotMod m s fun a => { a with held := satInc 18 1 a.held }, .reject)
      else d.prescale s e.n

/-- The late action of a slot (Table 8.14). -/
def Dev.lateAction (d : Dev) (s n : Nat) : SlotOut :=
  let a := d.fldAt n (Reg.mnCtl s) Fld.mnCtlLateAction
  if a = 1 then .accept else if a = 2 then .reject else .noDecision

/-- Whether a slot is affected by the lateness of an event (R300). -/
def Dev.affected (d : Dev) (e : Ev) (s : Nat) : Bool :=
  (match d.slotDone e s with
    | some c => decide (d.deadline e.n * 65536 < c)
    | none => true) ||
  e.notices.any (d.dependsOn s)

/-- Whether an event is LATE at its deadline (R299). -/
def Dev.isLate (d : Dev) (e : Ev) : Bool :=
  (match d.evDone e with
    | some c => decide (d.deadline e.n * 65536 < c)
    | none => true) ||
  !e.notices.isEmpty

/-- One enabled slot's output for an event, with its counts (R287, R300, R305). -/
def Dev.slotOutput (d : Dev) (e : Ev) (late : Bool) (s : Nat) : Dev × SlotOut :=
  let m := d.relInterval e.n
  let (d, o) :=
    if d.unproven && d.usesNet s then (d, SlotOut.noDecision)
    else if late && d.affected e s then
      (d.slotMod m s fun a => { a with late := satInc 18 1 a.late }, d.lateAction s e.n)
    else d.slotR287 e s
  match o with
  | .accept => ((d.slotMod m s fun a => { a with accepted := satInc 18 1 a.accepted }).count (Reg.mnAccepts s), o)
  | .noDecision => (d.slotMod m s fun a => { a with nodec := satInc 18 1 a.nodec }, o)
  | .reject => (d, o)

/-- What effect boundaries up to event n do to slots' own state (R293), before the event is decided. -/
def Dev.applyFx (d : Dev) (n : Nat) : Dev :=
  let due := d.scr.fx.filter fun f => decide (f.event ≤ n)
  let d := { d with scr := { d.scr with fx := d.scr.fx.filter fun f => !decide (f.event ≤ n) } }
  due.foldl (fun e f =>
    let e := if f.prescale then e.setFld (Reg.mnStat f.slot) Fld.mnStatPsCount 0 else e
    if f.modeNone then e.setMenu f.slot ⟨none, none⟩ else e) d

/-! The words (R296, R297) -/

/-- The decision word from its fields (Table 8.2). -/
def decisionWord (n : Nat) (accept nodec late degraded group absent : Bool) (hits : Nat) : BitVec 64 :=
  BitVec.ofNat 64 (n % 2 ^ 48 + bit01 accept * 2 ^ 48 + bit01 nodec * 2 ^ 49 + bit01 late * 2 ^ 50 +
    bit01 degraded * 2 ^ 51 + bit01 group * 2 ^ 52 + bit01 absent * 2 ^ 53 + (if hits < 511 then hits else 511) * 2 ^ 54)

/-- The companion word from its fields (Table 8.3). -/
def companionWord (slot dev prio : Nat) (valid skew safe : Bool) (n present lateBy : Nat) : BitVec 64 :=
  BitVec.ofNat 64 (slot + dev * 2 ^ 14 + prio * 2 ^ 20 + bit01 valid * 2 ^ 28 + bit01 skew * 2 ^ 29 +
    bit01 safe * 2 ^ 30 + (n % 256) * 2 ^ 32 + present * 2 ^ 40 + lateBy * 2 ^ 48)

/-- Fields of a decision word. -/
def dwAccept (w : BitVec 64) : Bool := w.getLsbD 48
/-- NODECISION. -/
def dwNodec (w : BitVec 64) : Bool := w.getLsbD 49
/-- LATE. -/
def dwLate (w : BitVec 64) : Bool := w.getLsbD 50
/-- DEGRADED. -/
def dwDegraded (w : BitVec 64) : Bool := w.getLsbD 51
/-- HITS. -/
def dwHits (w : BitVec 64) : Nat := bitsOf w.toNat 54 9

/-- The device's own id in its group. -/
def Dev.devId (d : Dev) : Nat := d.fld Reg.mshId Fld.mshIdDeviceId

/-- The top slot among the ACCEPT outputs: highest PRIO, then lowest slot number (R297). -/
def Dev.topSlot (d : Dev) (outs : List (Nat × SlotOut)) : Option (Nat × Nat) :=
  outs.foldl (fun best x =>
    if x.2 = .accept then
      let p := d.fld (Reg.mnCtl x.1) Fld.mnCtlPrio
      match best with
      | some (s, q) => if q < p then some (x.1, p) else some (s, q)
      | none => some (x.1, p)
    else best) none

/-- The device's own words for a decided event (R296, R297). -/
def Dev.ownWords (d : Dev) (e : Ev) : BitVec 64 × BitVec 64 :=
  let accept := e.outs.any fun x => x.2 = .accept
  let nodec := !accept && e.outs.any fun x => x.2 = .noDecision
  let deg := !e.missing.isEmpty || !e.skews.isEmpty || d.enabledSlots.any (d.degradedIn e)
  let hits := (e.outs.filter fun x => x.2 = .accept).length
  let (s, p) := match d.topSlot e.outs with
    | some x => x
    | none => (0, 0)
  (decisionWord e.n accept nodec e.late deg false false hits,
   companionWord s d.devId p accept (!e.skews.isEmpty) false e.n 1 0)

/-- The words a device in SAFE gives (R313). -/
def Dev.safeWords (d : Dev) (e : Ev) : BitVec 64 × BitVec 64 :=
  let deg := !e.missing.isEmpty || !e.skews.isEmpty
  (decisionWord e.n false true false deg false false 0,
   companionWord 0 d.devId 0 false (!e.skews.isEmpty) true e.n 1 0)

/-- The words of an event whose held decision was lost (R463). -/
def Dev.lostWords (d : Dev) (e : Ev) : BitVec 64 × BitVec 64 :=
  (decisionWord e.n false true false true d.group false 0,
   companionWord 0 d.devId 0 false (!e.skews.isEmpty) false e.n 1 0)

/-- An event decided at its deadline: every enabled slot's output and the device's own words (R287, R299, R306). -/
def Dev.decideEvent (d : Dev) (e : Ev) : Dev × Ev :=
  if e.own.isSome then (d, e)
  else if d.inSafe e.n then
    let (w, c) := d.safeWords e
    (d, { e with own := some ⟨d.devId, w, c⟩ })
  else if e.lost then
    let (w, c) := d.lostWords e
    (d, { e with own := some ⟨d.devId, w, c⟩ })
  else
    let d := d.applyFx e.n
    let late := d.isLate e
    let (d, outs) := d.enabledSlots.foldl (fun (acc : Dev × List (Nat × SlotOut)) s =>
      let (d, o) := acc.1.slotOutput e late s
      (d, acc.2 ++ [(s, o)])) (d, [])
    let e := { e with outs := outs, late := late }
    let (w, c) := d.ownWords e
    ((d.countIf late Reg.scrLate).rfMod (d.relInterval e.n) fun a => { a with late := a.late + bit01 late },
     { e with own := some ⟨d.devId, w, c⟩ })

/-! Combining a group (R308) -/

/-- The contribution whose top slot ranks first: highest PRIO, then lowest device id (R297). -/
def topOf (cs : List Contribution) : Option Contribution :=
  cs.foldl (fun best x =>
    if x.comp.getLsbD 28 then
      match best with
      | some b =>
        let p := bitsOf x.comp.toNat 20 8
        let q := bitsOf b.comp.toNat 20 8
        if q < p ∨ (q = p ∧ bitsOf x.comp.toNat 14 6 < bitsOf b.comp.toNat 14 6) then some x else some b
      | none => some x
    else best) none

/-- The members declared in the topology with no contribution among the present ones. -/
def Dev.absentees (d : Dev) (cs : List Contribution) : BitVec 64 :=
  let mem := d.rd Reg.mshMembersLo + 2 ^ 32 * d.rd Reg.mshMembersHi
  BitVec.ofNat 64 ((List.range 64).foldl (fun a i =>
    if bitAt mem i && !cs.any (fun c => c.dev = i) then a + 2 ^ i else a) 0)

/-- The group result over the contributions present (Table 8.4). -/
def Dev.combine (d : Dev) (n : Nat) (cs : List Contribution) : GroupRes :=
  let absent := d.absentees cs
  let any (f : BitVec 64 → Bool) := cs.any fun c => f c.dec
  let accept := any dwAccept
  let ignore := d.fldAt n Reg.scrGcfg Fld.scrGcfgGrpAbsent = 1
  let nodec := !accept && (any dwNodec || (decide (absent ≠ 0) && !ignore))
  let hits := cs.foldl (fun a c => a + dwHits c.dec) 0
  let top := topOf cs
  let lateBy := cs.foldl (fun a c => if a < bitsOf c.comp.toNat 48 16 then bitsOf c.comp.toNat 48 16 else a) 0
  let (s, dv, p) := match top with
    | some c => (bitsOf c.comp.toNat 0 14, bitsOf c.comp.toNat 14 6, bitsOf c.comp.toNat 20 8)
    | none => (0, 0, 0)
  ⟨decisionWord n accept nodec (any dwLate) (any dwDegraded) true (decide (absent ≠ 0)) hits,
   companionWord s dv p accept (cs.any fun c => c.comp.getLsbD 29) (cs.any fun c => c.comp.getLsbD 30) n cs.length lateBy,
   absent⟩

/-- The words released for an event (R309, R313). -/
def Dev.releasedWords (d : Dev) (e : Ev) : BitVec 64 × BitVec 64 :=
  let own : BitVec 64 × BitVec 64 := match e.own with
    | some c => (c.dec, c.comp)
    | none => d.safeWords e
  if d.inSafe e.n then d.safeWords e
  else if e.lost then d.lostWords e
  else if d.group then
    match e.group with
    | some g => (g.dec, g.comp)
    | none => (own.1 ||| BitVec.ofNat 64 (2 ^ 53), own.2)
  else own

/-! DEC outputs (R310 to R312) -/

/-- Whether DEC output k asserts for a released event (Table 8.5); one whose evaluation is lost has no slot output (R463). -/
def Dev.decAsserts (d : Dev) (e : Ev) (w : BitVec 64) (k : Nat) : Bool :=
  let src := d.fld (Reg.scrDec k) Fld.scrDecSrc
  let safe := d.inSafe e.n
  if src = 1 then !safe && !e.lost && e.outs.any fun x =>
      decide (x.2 = .accept) && d.flag (Reg.mnCtl x.1) Fld.mnCtlDecEn && decide (d.fld (Reg.mnCtl x.1) Fld.mnCtlDec = k)
  else if src = 2 then !safe && dwAccept w
  else if src = 3 then dwNodec w
  else if src = 4 then !safe && dwLate w
  else false

/-- The end of the active level of DEC output k. -/
def Dev.decEnd (d : Dev) (k : Nat) : Option Nat := SMap.get (fun _ => none) d.scr.dec k

/-- The end of the active level of DEC output k set. -/
def Dev.setDecEnd (d : Dev) (k : Nat) (t : Option Nat) : Dev :=
  { d with scr := { d.scr with dec := SMap.set (fun _ => none) d.scr.dec k t } }

/-- The level of DEC output k when active or idle; INVERT swaps them. -/
def Dev.decLevel (d : Dev) (k : Nat) (active : Bool) : Bool :=
  active != d.flag (Reg.scrDec k) Fld.scrDecInvert

/-- DEC output k asserts at the release of event n: active for WIDTH_NS more; an edge only when it was idle. -/
def Dev.decAssert (d : Dev) (n k : Nat) : Dev :=
  let t := d.relTime n
  let d' := d.setDecEnd k (some (t + d.fld (Reg.scrDec k) Fld.scrDecWidthNs))
  match d.decEnd k with
  | some x => if t ≤ x then d' else d'.emit (.decEdge k (d.decLevel k true) t)
  | none => d'.emit (.decEdge k (d.decLevel k true) t)

/-- The width of DEC output k's pulse has passed: idle. A release at that very instant comes first and may keep it active (R311). -/
def Dev.decIdle (d : Dev) (k : Nat) (tie : Bool) : Dev :=
  match d.decEnd k with
  | some x => if x ≤ d.netNs ∧ ¬(tie = true ∧ x = d.netNs) then (d.setDecEnd k none).emit (.decEdge k (d.decLevel k false) x) else d
  | none => d

/-! The DEGRADED state of slots (R292, R305) -/

/-- Enabled slots that meet p go into the DEGRADED state, for good. -/
def Dev.degradeSlots (d : Dev) (p : Nat → Bool) : Dev :=
  d.enabledSlots.foldl (fun e s => if p s then e.setFld (Reg.mnStat s) Fld.mnStatDegraded 1 else e) d

end Sys2Proof.Machine
end

