-- ==== Sys2Proof/Machine/Time.lean ====
section
/-!
DEFINITION. The time service ("Network time and time marks"): sources and their qualification, measurements and
the servo, the time states of Table 9.4, refused and accepted jumps, TIME blocks and mark generators.
-/

namespace Sys2Proof.Machine

open Sys2Proof

/-! State and sources -/

/-- The state code of Table 9.3. -/
def Dev.timeState (d : Dev) : Nat := bitsOf (d.rd Reg.tmsStat) 0 3

/-- FREERUN. -/
def tsFreerun : Nat := 0
/-- ACQUIRE. -/
def tsAcquire : Nat := 1
/-- LOCKED. -/
def tsLocked : Nat := 2
/-- HOLDOVER. -/
def tsHoldover : Nat := 3
/-- PAUSED. -/
def tsPaused : Nat := 4

/-- The state code changed. -/
def Dev.setTimeState (d : Dev) (st : Nat) : Dev := d.setFld Reg.tmsStat ⟨0, 3⟩ st

/-- The time-state byte of R324. -/
def Dev.timeByte (d : Dev) : Nat := d.fld Reg.tmsStat Fld.tmsStatTimeState

/-- JUMP_PENDING (R324). -/
def Dev.jumpPending (d : Dev) : Bool := bitAt (d.rd Reg.tmsStat) 3

/-- JUMP_PENDING set or cleared. -/
def Dev.setJumpPending (d : Dev) (b : Bool) : Dev := d.setFld Reg.tmsStat ⟨3, 1⟩ (bit01 b)

/-- The source in use: 0 none, 1 Ethernet, 2 to 7 mesh port 0 to 5. -/
def Dev.source (d : Dev) : Nat := d.fld Reg.tmsStat Fld.tmsStatSource

/-- What the time service keeps of a source. -/
def Dev.src (d : Dev) (k : Nat) : SrcRec := SMap.get (fun _ => SrcRec.init) d.tms.src k

/-- A source's record changed. -/
def Dev.setSrc (d : Dev) (k : Nat) (r : SrcRec) : Dev :=
  { d with tms := { d.tms with src := SMap.set (fun _ => SrcRec.init) d.tms.src k r } }

/-- The TMS port block that a source's asymmetry stands in (R330): 0 for Ethernet, 1 to 6 for mesh ports. -/
def srcPort (k : Nat) : Nat := k - 1

/-- PT_ASYM of a port in units of 2^-16 ns, signed. -/
def Dev.asym (d : Dev) (port : Nat) : Int := signedOf 32 (d.rd (Reg.ptAsym port))

/-- A signed value saturated to a 32-bit register. -/
def sat32 (x : Int) : Nat := lowBits 32 (satSigned 32 x)

/-! The servo (R331 to R335) -/

/-- The largest |y|, dimensionless (R321). -/
def Dev.yMax (d : Dev) : Rat := (d.fld Reg.tmsLimits Fld.tmsLimitsSlewMaxPpm : Rat) / 1000000

/-- A rational limited to ± m. -/
def clampRat (x m : Rat) : Rat := if x < -m then -m else if m < x then m else x

/-- y set from its dimensionless value: quantised to 2^-40, kept within R321, and shown in TMS_FREQ. -/
def Dev.setY (d : Dev) (y : Rat) : Dev :=
  let (q, d) := d.roundOpen (y * 2 ^ 40)
  let m := (d.yMax * 2 ^ 40).floor
  let q := if q < -m then -m else if m < q then m else q
  { d with tms := { d.tms with y := q } }.wr Reg.tmsFreq (lowBits 32 q)

/-- Into HOLDOVER: y and the integral become the mean of the last values of y (R335). -/
def Dev.enterHoldover (d : Dev) : Dev :=
  let ys := d.tms.ys
  let mean : Rat := if ys.isEmpty then 0 else (ys.foldl (· + ·) 0 : Int) / (ys.length : Rat) / 2 ^ 40
  let d := d.setY mean
  { d with tms := { d.tms with i := mean, lockRun := 0, farRun := 0 } }.setTimeState tsHoldover

/-- Into ACQUIRE. -/
def Dev.enterAcquire (d : Dev) : Dev :=
  { d with tms := { d.tms with lockRun := 0, farRun := 0 } }.setTimeState tsAcquire

/-- A measurement fed to the servo (R332), and the runs that rows 8 and 9 of Table 9.4 judge. -/
def Dev.feedServo (d : Dev) (k : Nat) (theta : Rat) : Dev :=
  let r0 := d.src k
  let second : Rat := 1000000000 * 65536
  let tau : Rat := match d.tms.lastFed with
    | some t => if d.tms.lastFedSrc = k then (d.net16 : Rat) - t else
        if k = 1 then second * (2 : Rat) ^ r0.logSync else second / 2 ^ d.fld Reg.tmsPtp Fld.tmsPtpTsyncLog
    | none => if k = 1 then second * (2 : Rat) ^ r0.logSync else second / 2 ^ d.fld Reg.tmsPtp Fld.tmsPtpTsyncLog
  let r := theta / tau
  let i := clampRat (d.tms.i + r / 2 ^ d.fld Reg.tmsServo Fld.tmsServoKiShift) d.yMax
  let d := d.setY (clampRat (r / 2 ^ d.fld Reg.tmsServo Fld.tmsServoKpShift + i) d.yMax)
  let lockNs : Rat := d.fld Reg.tmsLimits Fld.tmsLimitsLockNs * 65536
  let lock := if |theta| ≤ lockNs then d.tms.lockRun + 1 else 0
  let far := if 4 * lockNs < |theta| then d.tms.farRun + 1 else 0
  { d with tms := { d.tms with
    i := i, ys := (d.tms.y :: d.tms.ys).take 16, lastFed := some d.net16, lastFedSrc := k,
    lockRun := lock, farRun := far } }.count Reg.tmsSyncRx

/-- Rows 8 and 9 of Table 9.4 at a fed measurement. -/
def Dev.judgeLock (d : Dev) : Dev :=
  if d.timeState = tsAcquire ∧ d.fld Reg.tmsServo Fld.tmsServoLockCount ≤ d.tms.lockRun then
    { d with tms := { d.tms with farRun := 0 } }.setTimeState tsLocked
  else if d.timeState = tsLocked ∧ 4 ≤ d.tms.farRun then d.enterAcquire
  else d

/-- A measurement fed in ACQUIRE or LOCKED. -/
def Dev.feed (d : Dev) (k : Nat) (theta : Rat) : Dev := (d.feedServo k theta).judgeLock

/-- Whole ns of a time in units of 2^-16 ns, toward zero. -/
def wholeNs (q : Rat) : Int := if q < 0 then -((-q / 65536).floor) else (q / 65536).floor

/-! Marks and steps of the counter (R347, R352) -/

/-- A generator beside its registers. -/
def Dev.gen (d : Dev) (g : Nat) : GenRec := SMap.get (fun _ => GenRec.init) d.tms.gens g

/-- A generator changed. -/
def Dev.setGen (d : Dev) (g : Nat) (r : GenRec) : Dev :=
  { d with tms := { d.tms with gens := SMap.set (fun _ => GenRec.init) d.tms.gens g r } }

/-- START in units of 2^-16 ns. -/
def Dev.mkStart (d : Dev) (g : Nat) : Nat :=
  ofFullTime (d.rd (Reg.mkStart0 g) + d.rd (Reg.mkStart1 g) * 2 ^ 32 + d.rd (Reg.mkStart2 g) * 2 ^ 64)

/-- PERIOD in units of 2^-16 ns. -/
def Dev.mkPeriod (d : Dev) (g : Nat) : Nat :=
  d.rd (Reg.mkPeriod g) * 65536 + d.fld (Reg.mkPfrac g) Fld.mkPfracPeriodFrac

/-- The time of mark k in units of 2^-16 ns (R347). -/
def Dev.markTime (d : Dev) (g k : Nat) : Nat := d.mkStart g + k * d.mkPeriod g

/-- The lanes of LANES. -/
def Dev.mkLanes (d : Dev) (g : Nat) : Nat := d.rd (Reg.mkLanesLo g) + 2 ^ 32 * d.rd (Reg.mkLanesHi g)

/-- Whether mark k is the last of its mode (R347). -/
def Dev.lastMark (d : Dev) (g k : Nat) : Bool :=
  let m := (d.gen g).mode
  decide (m = 1) || (decide (m = 2) && decide (d.rd (Reg.mkCount g) ≤ k + 1))

/-- One mark emitted: the pin's active edge, the counts, and OFF after the last mark (R347, R348). -/
def Dev.emitMark (d : Dev) (g : Nat) : Dev :=
  let r := d.gen g
  let t := d.markTime g r.k
  let pin := d.flag (Reg.mkCtl g) Fld.mkCtlPinEn
  let d := (d.count (Reg.mkEmitted g)).wr (Reg.mkNext g) (r.k + 1)
  let d := if pin then d.emit (.tmarkEdge g (!d.flag (Reg.mkCtl g) Fld.mkCtlInvert) t) else d
  let fin := d.lastMark g r.k
  let d := d.setGen g { r with
    k := r.k + 1, lastMark := some t, armed := !fin,
    pulseEnd := if pin then some (t + d.fld (Reg.mkWidth g) Fld.mkWidthWidthNs * 65536) else r.pulseEnd }
  if fin then d.setFld (Reg.mkCtl g) Fld.mkCtlMode 0 else d

/-- The next mark, if it is due. -/
def Dev.markDue (d : Dev) (g : Nat) : Dev :=
  let r := d.gen g
  if r.armed ∧ d.markTime g r.k ≤ d.net16 then d.emitMark g else d

/-- Every mark due at this moment, in order. -/
def Dev.marksDue (d : Dev) (g : Nat) : Dev :=
  let t := d.markTime g (d.gen g).k
  if (d.gen g).armed ∧ t ≤ d.net16 then
    (List.range (1 + if d.mkPeriod g = 0 then 0 else (d.net16 - t) / d.mkPeriod g)).foldl (fun e _ => e.markDue g) d
  else d

/-- n marks of a generator passed over: counted in MK_SKIPPED, none of them emitted and no block sent for them (R352). -/
def Dev.skipMarks (d : Dev) (g n : Nat) : Dev :=
  let r := d.gen g
  let total := if r.mode = 1 then 1 else d.rd (Reg.mkCount g)
  let n := if r.mode = 3 ∨ r.k + n ≤ total then n else total - r.k
  let d := (d.countN (Reg.mkSkipped g) n).wr (Reg.mkNext g) (r.k + n)
  let fin := decide (r.mode ≠ 3) && decide (total ≤ r.k + n)
  let d := d.setGen g { r with
    k := r.k + n, kSent := if r.kSent < r.k + n then r.k + n else r.kSent, armed := !fin }
  if fin then d.setFld (Reg.mkCtl g) Fld.mkCtlMode 0 else d

/-- A step of network time from t0 to t1: a pulse in progress keeps its width, and the marks after t0 and before t1 are passed over
(R348, R352; log entry 70 for a step that sets the counter). -/
def Dev.mkPass (d : Dev) (t0 t1 g : Nat) : Dev :=
  let d := d.setGen g { d.gen g with
    pulseEnd := (d.gen g).pulseEnd.map fun x => (Int.ofNat x + Int.ofNat t1 - Int.ofNat t0).toNat }
  let next := d.markTime g (d.gen g).k
  let per := d.mkPeriod g
  if (d.gen g).armed ∧ t0 < next ∧ next < t1 ∧ 0 < per then d.skipMarks g (ceilDiv (t1 - next) per) else d

/-- The local times that a source's record holds, moved with the counter by t (log entry 65). -/
def SrcRec.moved (t : Int) (r : SrcRec) : SrcRec :=
  let mv (x : SyncRec) : SyncRec := { x with t2 := x.t2 + t }
  { r with
    sync := r.sync.map mv
    req := r.req.map fun q => { q with t3 := q.t3 + t, sync := q.sync.map mv } }

/-- The spans that forward steps passed over and that time moved back to c has not reached again (R423). -/
def spansBefore (c : Nat) (xs : List (Nat × Nat)) : List (Nat × Nat) :=
  (xs.filter fun p => decide (p.1 < c)).map fun p => (p.1, min p.2 c)

/-- The counter moved by −θ: set to source time. Local times of exchanges under way, and of the last measurement fed, move with it
(log entry 65). -/
def Dev.moveCounter (d : Dev) (theta : Rat) : Dev :=
  let c := (Int.ofNat d.tms.ctr - (theta * 2 ^ 24).floor).toNat
  let t := Int.ofNat (c / 2 ^ 24) - Int.ofNat (d.tms.ctr / 2 ^ 24)
  let d := (List.range 7).foldl (fun e i => e.setSrc (i + 1) ((e.src (i + 1)).moved t)) d
  { d with tms := { d.tms with
      netSet := true, ctr := c, lastFed := d.tms.lastFed.map fun x => (Int.ofNat x + t).toNat,
      twoStep := d.tms.twoStep.map fun w => { w with rx := (Int.ofNat w.rx + t).toNat },
      passed := if d.tms.ctr / 2 ^ 24 < c / 2 ^ 24 then (d.tms.ctr / 2 ^ 24, c / 2 ^ 24) :: d.tms.passed
        else spansBefore (c / 2 ^ 24) d.tms.passed } }

/-- The outliers held of every source dropped: they were measured against the counter before a step (log entry 79). -/
def Dev.dropOutliers (d : Dev) : Dev :=
  (List.range 7).foldl (fun e i => e.setSrc (i + 1) { e.src (i + 1) with outliers := [] }) d

/-- The counter stepped by −θ, and the mark generators with it: the marks due before the step are emitted first (R352). -/
def Dev.stepCounter (d : Dev) (theta : Rat) : Dev :=
  let d := (List.range 16).foldl (fun f g => f.marksDue g) d
  let e := (d.moveCounter theta).dropOutliers
  (List.range 16).foldl (fun f g => f.mkPass d.net16 e.net16 g) e

/-- A jump refused (R338). -/
def Dev.refuseJump (d : Dev) (theta : Rat) : Dev :=
  let d := d.enterHoldover.setJumpPending true
  let d := (d.wr Reg.tmsJumpSeq ((d.rd Reg.tmsJumpSeq + 1) % 65536)).count Reg.tmsJumpsRefused
  let d := d.wr Reg.tmsJump (sat32 (-(wholeNs theta)))
  d.logInternal Reg.tmsJump 0 (lowBits 32 (-(wholeNs theta))) .jumpRefused

/-- Whether values all lie within m of one another. -/
def within (m : Rat) (xs : List Rat) : Bool := xs.all fun a => xs.all fun b => decide (|a - b| ≤ m)

/-- Whether the measurements held of a source form a confirmed jump: four that all exceed JUMP_MAX_NS and lie within it of one another
(R334). -/
def Dev.jumpConfirmed (d : Dev) (k : Nat) : Bool :=
  let m : Rat := d.rd Reg.tmsJumpMax * 65536
  let outs := (d.src k).outliers
  decide (outs.length = 4) && outs.all (fun x => decide (m < |x|)) && within m outs

/-- A confirmed jump of a source, if it has one (Table 9.4, rows 2 and 3): the counter is set by its latest measurement, or the jump is
refused. -/
def Dev.confirmJump (d : Dev) (k : Nat) : Dev :=
  if d.jumpConfirmed k then
    let theta := (d.src k).outliers.headD 0
    let st := d.timeState
    if d.scr.armed = false ∧ (st = tsFreerun ∨ st = tsAcquire ∨ st = tsLocked) then
      (d.stepCounter theta).enterAcquire.logInternal Reg.tmsJump 0 (lowBits 32 (-(wholeNs theta))) .ok
    else if d.scr.armed = true ∧ d.jumpPending = false ∧ st ≠ tsPaused then d.refuseJump theta
    else d
  else d

/-- A valid measurement that fails R334: an outlier, and perhaps a confirmed jump. -/
def Dev.outlier (d : Dev) (k : Nat) (theta : Rat) : Dev :=
  ((d.count Reg.tmsOutliers).setSrc k { d.src k with outliers := (theta :: (d.src k).outliers).take 4 }).confirmJump k

/-- A valid measurement of the source in use (R331 to R335, Table 9.4): θ in units of 2^-16 ns. -/
def Dev.measurement (d : Dev) (k : Nat) (theta : Rat) (t1 : Int) : Dev :=
  let (shown, d) := d.roundOpen theta
  let d := { d with tms := { d.tms with lastTheta := some theta } }.wr Reg.tmsOffset (sat32 shown)
  let d := if d.jumpPending then d.wr Reg.tmsJump (sat32 (-(wholeNs theta))) else d
  let early := match (d.src k).lastT1 with
    | some t => decide (t1 < t + 512000000000)
    | none => false
  if early then d.count Reg.tmsRateDrop
  else
    let d := d.setSrc k { d.src k with lastT1 := some t1 }
    if d.timeState = tsFreerun ∧ d.scr.armed = false then (d.stepCounter theta).enterAcquire
    else if (d.rd Reg.tmsJumpMax : Rat) * 65536 < |theta| then d.outlier k theta
    else
      let d := d.setSrc k { d.src k with outliers := [] }
      if d.timeState = tsPaused then d
      else if d.timeState = tsHoldover ∨ d.timeState = tsFreerun then
        (d.enterAcquire.setJumpPending false).feedServo k theta
      else d.feed k theta

/-! Choosing the source (R327, R328) -/

/-- The source's own claims shown: grandmaster, steps removed, UTC and ARB (R322). -/
def Dev.showSource (d : Dev) (k : Nat) : Dev :=
  let r := d.src k
  let d := (d.wr Reg.tmsGm0 (r.gm.toNat % 2 ^ 32)).wr Reg.tmsGm1 (r.gm.toNat / 2 ^ 32)
  let d := d.setFld Reg.tmsStat Fld.tmsStatStepsRemoved r.steps
  (d.wr Reg.tmsUtc (r.utc % 2 ^ 19)).setFld Reg.tmsStat ⟨4, 1⟩ (bit01 r.arb)

/-- The source the service draws from: SRC_A while it qualifies, then SRC_B, else none (R328). -/
def Dev.selectSource (d : Dev) : Dev :=
  let a := d.fld Reg.tmsCfg Fld.tmsCfgSrcA
  let b := d.fld Reg.tmsCfg Fld.tmsCfgSrcB
  let new := if a ≠ 0 ∧ (d.src a).qualified = true then a
    else if b ≠ 0 ∧ (d.src b).qualified = true then b else 0
  let old := d.source
  if new = old then d
  else
    let d := d.countIf (decide (old ≠ 0)) Reg.tmsSrcLoss
    let d := d.setFld Reg.tmsStat Fld.tmsStatSource new
    if new = 0 then
      if d.timeState = tsAcquire ∨ d.timeState = tsLocked then d.enterHoldover else d
    else d.showSource new

/-- Whether a source is named as SRC_A or SRC_B. -/
def Dev.named (d : Dev) (k : Nat) : Bool :=
  decide (k = d.fld Reg.tmsCfg Fld.tmsCfgSrcA) || decide (k = d.fld Reg.tmsCfg Fld.tmsCfgSrcB)

/-! Delay exchanges and Sync (R331) -/

/-- A Sync or TSYNC with its two times: kept, and a measurement once the source in use has a D. -/
def Dev.syncDone (d : Dev) (k : Nat) (t1 t2 : Int) : Dev :=
  let d := d.setSrc k { d.src k with sync := some ⟨t1, t2⟩ }
  match (d.src k).delay with
  | some dl => if d.source = k then d.measurement k ((t2 - t1 : Int) - dl - (d.asym (srcPort k) : Rat)) t1 else d
  | none => d

/-- The measurement of the Sync held, for a source that has its first D (log entry 63). -/
def Dev.measureHeld (d : Dev) (k : Nat) (dl : Rat) : Dev :=
  match (d.src k).sync with
  | some s => if d.source = k then d.measurement k ((s.t2 - s.t1 : Int) - dl - (d.asym (srcPort k) : Rat)) s.t1 else d
  | none => d

/-- D of a source shown in TMS_DELAY, if it is the source in use. -/
def Dev.showDelay (d : Dev) (k : Nat) (dl : Rat) : Dev :=
  let (shown, d) := d.roundOpen dl
  if d.source = k then d.wr Reg.tmsDelay (sat32 shown) else d

/-- A delay exchange completed with the Sync it uses: D takes the filtered raw delay (R331). -/
def Dev.takeDelay (d : Dev) (k : Nat) (q : DelayReq) (t4 : Int) : Dev :=
  match q.sync with
  | some s =>
    let raw : Rat := ((s.t2 - s.t1) + (t4 - q.t3) : Int) / 2
    let dl := match (d.src k).delay with
      | some x => x + (raw - x) / 2 ^ d.fld Reg.tmsServo Fld.tmsServoDlyShift
      | none => raw
    (d.setSrc k { d.src k with req := none, delay := some dl }).showDelay k dl
  | none => d.setSrc k { d.src k with req := none }

/-- A delay exchange completed, and the Sync held measured where it gave the source its first D (log entry 63). -/
def Dev.exchangeDone (d : Dev) (k : Nat) (q : DelayReq) (t4 : Int) : Dev :=
  let first := (d.src k).delay.isNone
  let d := d.takeDelay k q t4
  match (d.src k).delay with
  | some dl => if first then d.measureHeld k dl else d
  | none => d

/-- An answer to a delay request (R331). One that comes while the Follow_Up of the request's Sync is out is held for it (log
entry 79). -/
def Dev.exchange (d : Dev) (k : Nat) (seq : Nat) (t4 : Int) : Dev :=
  match (d.src k).req with
  | some q =>
    if q.seq = seq ∧ q.t4 = none then
      if q.pending.isSome then d.setSrc k { d.src k with req := some { q with t4 := some t4 } } else d.exchangeDone k q t4
    else d.count Reg.tmsUnmatched
  | none => d.count Reg.tmsUnmatched

/-- The Follow_Up of a request's Sync has come: the request uses that Sync, and D is formed if the answer is in. -/
def Dev.syncResolved (d : Dev) (k : Nat) (seq : BitVec 16) (x : SyncRec) : Dev :=
  match (d.src k).req with
  | some q =>
    if q.pending = some seq then
      let q := { q with sync := some x, pending := none }
      match q.t4 with
      | some t4 => d.takeDelay k q t4
      | none => d.setSrc k { d.src k with req := some q }
    else d
  | none => d

/-- A newer Sync came before the Follow_Up of a request's Sync: the request uses the one it had before (log entry 79). -/
def Dev.syncLost (d : Dev) (k : Nat) : Dev :=
  match (d.src k).req with
  | some q =>
    if q.pending.isSome then
      let q := { q with pending := none }
      match q.t4 with
      | some t4 => d.exchangeDone k q t4
      | none => d.setSrc k { d.src k with req := some q }
    else d
  | none => d

/-! The Ethernet port (R325 to R327) -/

/-- TMS_MAC (R326). -/
def Dev.mac (d : Dev) : BitVec 48 :=
  BitVec.ofNat 48 (d.rd Reg.tmsMacLo + d.fld Reg.tmsMacHi Fld.tmsMacHiMacHi * 2 ^ 32)

/-- The PTP destination of PTP_DST, first octet in bits [7:0] as in TMS_MAC (Table 9.1). -/
def Dev.ptpDst (d : Dev) : BitVec 48 :=
  if d.flag Reg.tmsCfg Fld.tmsCfgPtpDst then 0x0E0000C28001 else 0x000000191B01

/-- The dataset comparison of clause 9.3: whether a is better than b (PRESUMED, log entry 33). -/
def betterMaster (a b : AnnounceMsg) : Bool :=
  if a.gmIdentity = b.gmIdentity then
    if a.stepsRemoved = b.stepsRemoved then decide (a.sender.toNat < b.sender.toNat)
    else decide (a.stepsRemoved.toNat < b.stepsRemoved.toNat)
  else
    let key (m : AnnounceMsg) : List Nat :=
      [m.priority1.toNat, m.clockClass.toNat, m.accuracy.toNat, m.variance.toNat, m.priority2.toNat, m.gmIdentity.toNat]
    decide (key a < key b)

/-- The best of the foreign time transmitters. -/
def bestMaster (fs : List Foreign) : Option Foreign :=
  fs.foldl (fun best f => match best with
    | some b => if betterMaster f.msg b.msg then some f else some b
    | none => some f) none

/-- The Announce receipt timeout of a foreign time transmitter in ns (Table 9.1). -/
def Dev.announceLimit (d : Dev) (f : Foreign) : Nat :=
  ((d.fld Reg.tmsPtp Fld.tmsPtpAnnTimeout : Rat) * 1000000000 * (2 : Rat) ^ f.msg.logAnnounce).floor.toNat

/-- The properties a chosen time transmitter announces, as TMS_UTC holds them. -/
def utcWord (ofs : Nat) (valid l61 l59 : Bool) : Nat :=
  ofs % 65536 + bit01 valid * 2 ^ 16 + bit01 l61 * 2 ^ 17 + bit01 l59 * 2 ^ 18

/-- A change of time transmitter on the Ethernet port: what was learnt of the one before is dropped, and a source in use counts once in
TMS_SRC_LOSS, as for any move to another source (R328, log entry 70). -/
def Dev.newTransmitter (d : Dev) : Dev :=
  let d := d.countIf (decide (d.source = 1)) Reg.tmsSrcLoss
  { d with tms := { d.tms with twoStep := none, lastFedSrc := if d.tms.lastFedSrc = 1 then 0 else d.tms.lastFedSrc } }.setSrc 1
    { d.src 1 with sync := none, req := none, delay := none, lastT1 := none, outliers := [] }

/-- The choice among the foreign time transmitters made again. -/
def Dev.chooseMaster (d : Dev) : Dev :=
  match bestMaster d.tms.foreign with
  | some f =>
    let m := f.msg
    let d := if decide (d.tms.chosen.isSome) && decide (d.tms.chosen ≠ some m.sender) then d.newTransmitter else d
    let d := { d with tms := { d.tms with chosen := some m.sender } }
    let d := d.setSrc 1 { d.src 1 with
      qualified := true, heardAt := f.heardAt, gm := m.gmIdentity, steps := m.stepsRemoved.toNat % 256,
      utc := utcWord m.utcOffset.toNat m.utcValid m.leap61 m.leap59, arb := m.arb }
    let d := d.selectSource
    if d.source = 1 then d.showSource 1 else d
  | none =>
    let d := { d with tms := { d.tms with chosen := none } }
    (d.setSrc 1 { d.src 1 with qualified := false, expired := true }).selectSource

/-- An Announce received (R327, Table 9.1); other domains are ignored. -/
def Dev.announceRx (d : Dev) (a : AnnounceMsg) : Dev :=
  if d.tms.ethUp && decide (a.domain.toNat = d.fld Reg.tmsCfg Fld.tmsCfgDomain) then
    let others := d.tms.foreign.filter fun f =>
      decide (f.msg.sender ≠ a.sender) && decide (d.devNs < f.heardAt + d.announceLimit f)
    if others.length < 8 then
      let late := (d.src 1).expired
      let d := d.countIf late Reg.tmsLateArrival
      let d := d.setSrc 1 { d.src 1 with expired := false }
      ({ d with tms := { d.tms with foreign := others ++ [Foreign.mk a d.devNs] } }).chooseMaster
    else d
  else d

/-- The Announce receipt timeout of the chosen time transmitter (R327): the arrival wins a tie (R34). -/
def Dev.announceExpire (d : Dev) (tie : Bool) : Dev :=
  match d.tms.foreign.find? (fun f => some f.msg.sender = d.tms.chosen) with
  | some f =>
    if tie then d
    else if f.heardAt + d.announceLimit f ≤ d.devNs then
      let left := d.tms.foreign.filter fun g => decide (d.devNs < g.heardAt + d.announceLimit g)
      { d with tms := { d.tms with foreign := left } }.chooseMaster
    else d
  | none => d

/-- A Sync or Follow_Up of the chosen time transmitter (R331). -/
def Dev.ptpSync (d : Dev) (m : SyncMsg) : Dev :=
  if d.tms.ethUp && decide (m.domain.toNat = d.fld Reg.tmsCfg Fld.tmsCfgDomain) && decide (d.tms.chosen = some m.sender) then
    if m.followUp then
      match d.tms.twoStep with
      | some w =>
        if w.seq = m.seq then
          let t1 := m.origin + m.correction + w.correction
          ({ d with tms := { d.tms with twoStep := none } }.syncResolved 1 m.seq ⟨t1, w.rx⟩).syncDone 1 t1 w.rx
        else d
      | none => d
    else
      let d := d.setSrc 1 { d.src 1 with logSync := m.logSync }
      let d := d.syncLost 1
      if m.twoStep then { d with tms := { d.tms with twoStep := some (TwoStep.mk m.seq m.rxTime m.correction) } }
      else { d with tms := { d.tms with twoStep := none } }.syncDone 1 (m.origin + m.correction) m.rxTime
  else d

/-- The next moment of a sender that keeps a rate: one interval on, or one interval from now where it has fallen behind. -/
def nextDue (due now interval : Nat) : Nat := if now < due + interval then due + interval else now + interval

/-- The ns between messages sent 2^log times a second. -/
def perSecond (log : Nat) : Nat := 1000000000 / 2 ^ log

/-- A Delay_Req sent at t3, 2^DREQ_LOG of them a second (Table 9.1, R331). -/
def Dev.sendDelayReq (d : Dev) (t3 : Nat) : Dev :=
  if d.tms.ethUp && decide (d.tms.chosen.isSome) && d.named 1 && decide ((d.src 1).reqDue ≤ d.devNs) then
    let r := d.src 1
    (d.setSrc 1 { r with
      req := some ⟨r.nextSeq, t3, r.sync, d.tms.twoStep.map (·.seq), none⟩, nextSeq := (r.nextSeq + 1) % 65536,
      reqDue := nextDue r.reqDue d.devNs (perSecond (d.fld Reg.tmsPtp Fld.tmsPtpDreqLog)) }).emit
      (.delayReq d.ptpDst d.mac (d.fld Reg.tmsCfg Fld.tmsCfgDomain) r.nextSeq)
  else d

/-! TIME blocks (R344, R345, Table 9.6) -/

/-! Mesh port states (Table 10.1) -/

/-- The state code of Table 10.1. -/
def Dev.portState (d : Dev) (p : Nat) : Nat := d.fld (Reg.mpCfg p) Fld.mpCfgState

/-- A port's state changed. -/
def Dev.setPortState (d : Dev) (p st : Nat) : Dev := d.setFld (Reg.mpCfg p) Fld.mpCfgState st

/-- OFF. -/
def psOff : Nat := 0
/-- DOWN. -/
def psDown : Nat := 1
/-- HELLO_WAIT. -/
def psWait : Nat := 2
/-- UP. -/
def psUp : Nat := 3
/-- MISMATCH. -/
def psMismatch : Nat := 4

/-- Whether port p, below 6, is UP. -/
def Dev.portUp (d : Dev) (p : Nat) : Bool := decide (p < 6) && decide (d.portState p = psUp)

/-! The ports of TIME blocks -/

/-- Whether mesh port p has come out of OFF and DOWN: it has a lead lane. -/
def Dev.portLed (d : Dev) (p : Nat) : Bool := decide (psWait ≤ d.portState p)

/-- The lane that carries a TMS port's blocks: ingest lane p − 8, or the lead lane of mesh port p − 1, if it has one (R358, R361). -/
def Dev.portLane (d : Dev) (p : Nat) : Option LaneId :=
  if p = 0 ∨ p = 7 then none
  else if p ≤ 6 then
    let l := 64 + 4 * (p - 1) + d.fld (Reg.mpCfg (p - 1)) Fld.mpCfgLead
    if h : l < 88 then (if d.portLed (p - 1) then some ⟨l, h⟩ else none) else none
  else if h : p - 8 < 88 then some ⟨p - 8, h⟩ else none

/-- A control block sent on a TMS port. -/
def Dev.sendPort (d : Dev) (p ty b : Nat) : Dev :=
  match d.portLane p with
  | some l => d.sendBlock l true (ctlPayload ty b)
  | none => d

/-- Whether a TMS port carries TIME blocks: an ingest lane, or a mesh port that is UP (Table 10.1), whose transmitter is on. -/
def Dev.carriesTime (d : Dev) (p : Nat) : Bool :=
  match d.portLane p with
  | some l => (decide (6 < p) || d.portUp (p - 1)) && (d.lane l).txOn
  | none => false

/-- Whether the device gives time on a port: TIME_EN, out of FREERUN, the TMS unit fitted, and a port that carries TIME blocks (R344). -/
def Dev.givesTime (d : Dev) (p : Nat) : Bool :=
  d.fit 36 && d.flag (Reg.ptCfg p) Fld.ptCfgTimeEn && decide (d.timeState ≠ tsFreerun) && d.carriesTime p

/-- The device time from which a port's next TSYNC block, or its next TINFO and TASYM blocks, are due (log entry 70). -/
def Dev.txDue (d : Dev) (info : Bool) (p : Nat) : Nat := SMap.get (fun _ => 0) d.tms.txDue (2 * p + bit01 info)

/-- A port's next TSYNC, or TINFO and TASYM, one interval on. -/
def Dev.txNext (d : Dev) (info : Bool) (p interval : Nat) : Dev :=
  { d with tms := { d.tms with
    txDue := SMap.set (fun _ => 0) d.tms.txDue (2 * p + bit01 info) (nextDue (d.txDue info p) d.devNs interval) } }

/-- A TSYNC block sent, 2^TSYNC_LOG of them a second (R344). -/
def Dev.sendTsync (d : Dev) (p : Nat) : Dev :=
  if d.givesTime p ∧ d.txDue false p ≤ d.devNs then
    let d := d.txNext false p (perSecond (d.fld Reg.tmsPtp Fld.tmsPtpTsyncLog))
    (d.sendPort p 0x10 (fullTime d.net16 * 2 ^ 24 + d.rd (Reg.ptTsyncTx p) % 256 * 2 ^ 16 + d.timeByte * 2 ^ 8)).count
      (Reg.ptTsyncTx p)
  else d

/-- A TINFO and a TASYM block sent, once a second (R344). -/
def Dev.sendTinfo (d : Dev) (p : Nat) : Dev :=
  if d.givesTime p ∧ d.txDue true p ≤ d.devNs then
    let d := d.txNext true p (perSecond 0)
    let u := d.rd Reg.tmsUtc
    let gm := d.rd Reg.tmsGm0 + 2 ^ 32 * d.rd Reg.tmsGm1
    let steps := d.fld Reg.tmsStat Fld.tmsStatStepsRemoved + 1
    let flags := bitsOf u 16 3 + bitsOf (d.rd Reg.tmsStat) 4 1 * 8
    let d := d.sendPort p 0x13 (u % 65536 * 2 ^ 104 + flags * 2 ^ 96 + gm * 2 ^ 32 + steps % 256 * 2 ^ 24)
    d.sendPort p 0x14 (lowBits 32 (-(d.asym p)) * 2 ^ 88)
  else d

/-- A TDREQ answered (R345); t is the time its timestamp point reached the lands, in units of 2^-16 ns. -/
def Dev.answerTdreq (d : Dev) (p : Nat) (seq : Nat) (t : Nat) : Dev :=
  if d.timeState ≠ tsFreerun ∧ d.fit 36 = true ∧ d.carriesTime p = true then
    (d.sendPort p 0x12 (fullTime t * 2 ^ 24 + seq % 256 * 2 ^ 16)).count (Reg.ptDreqRx p)
  else d

/-- A TDREQ sent at t3 on a mesh port that is a source, 2^DREQ_LOG of them a second (R345). -/
def Dev.sendTdreq (d : Dev) (p : Nat) (t3 : Nat) : Dev :=
  let k := p + 2
  if d.named k ∧ d.portUp p = true ∧ (d.src k).reqDue ≤ d.devNs then
    let r := d.src k
    (d.setSrc k { r with
      req := some ⟨r.nextSeq % 256, t3, r.sync, none, none⟩, nextSeq := (r.nextSeq + 1) % 256,
      reqDue := nextDue r.reqDue d.devNs (perSecond (d.fld Reg.tmsPtp Fld.tmsPtpDreqLog)) }).sendPort
      (p + 1) 0x11 (r.nextSeq % 256 * 2 ^ 16)
  else d

/-- A TSYNC block received on a mesh port that is named as a source (R327, R331). -/
def Dev.tsync (d : Dev) (p : Nat) (t1 t2 : Nat) (state : Nat) : Dev :=
  let k := p + 2
  if d.named k && d.portUp p then
    let late := (d.src k).expired
    let d := d.countIf late Reg.tmsLateArrival
    let st := state % 8
    let ok := decide (st = tsAcquire ∨ st = tsLocked ∨ st = tsHoldover)
    let d := (d.setSrc k { d.src k with
      qualified := ok, expired := false, heardAt := d.devNs, arb := bitAt state 4 }).selectSource
    let d := if d.source = k then d.showSource k else d
    d.syncDone k t1 t2
  else d

/-- The TSYNC timeout of a mesh port (R327): the arrival wins a tie (R34). -/
def Dev.tsyncExpire (d : Dev) (p : Nat) (tie : Bool) : Dev :=
  let k := p + 2
  let limit := 4000000000 / 2 ^ d.fld Reg.tmsPtp Fld.tmsPtpTsyncLog
  if tie = false ∧ (d.src k).qualified = true ∧ (d.src k).heardAt + limit ≤ d.devNs then
    (d.setSrc k { d.src k with qualified := false, expired := true }).selectSource
  else d

/-- A TINFO block received: bits [119:0] as Table 9.6 lays them out (R322). -/
def Dev.tinfo (d : Dev) (p : Nat) (b : Nat) : Dev :=
  let k := p + 2
  if d.portUp p then
    let d := d.setSrc k { d.src k with
      gm := BitVec.ofNat 64 (bitsOf b 32 64), steps := bitsOf b 24 8,
      utc := utcWord (bitsOf b 104 16) (bitAt b 96) (bitAt b 97) (bitAt b 98), arb := bitAt b 99 }
    if d.source = k then d.showSource k else d
  else d

/-! Accepted jumps (R339 to R343) -/

/-- A jump accepted at the present moment (Table 9.4, row 4; Table 9.5, steps 1 and 2). -/
def Dev.acceptJump (d : Dev) : Dev :=
  let tA := ceilDiv d.net16 65536
  let nLast := ceilDiv (tA + 1000) d.tev - 1
  let tS := d.relTime nLast + 1000
  { (d.setJumpPending false).setTimeState tsPaused with tms :=
    { ((d.setJumpPending false).setTimeState tsPaused).tms with jump := some ⟨tA, some nLast, tS⟩ } }

/-! Mark generators (R347 to R352) -/

/-- The end of a TMARK pulse, if it is due (R348). -/
def Dev.markIdle (d : Dev) (g : Nat) : Dev :=
  match (d.gen g).pulseEnd with
  | some t => if t ≤ d.net16 then
      (d.setGen g { d.gen g with pulseEnd := none }).emit (.tmarkEdge g (d.flag (Reg.mkCtl g) Fld.mkCtlInvert) t)
    else d
  | none => d

/-- The MARK block of the next mark on each lane of LANES, if it is due (R349). -/
def Dev.markBlocks (d : Dev) (g : Nat) : Dev :=
  let r := d.gen g
  let lead := d.fld (Reg.mkLead g) Fld.mkLeadLeadNs * 65536
  let t := d.markTime g r.kSent
  let more := r.armed && (decide (r.mode = 3) || decide (r.mode = 1 ∧ r.kSent = 0) ||
    decide (r.mode = 2 ∧ r.kSent < d.rd (Reg.mkCount g)))
  if (more = true ∨ r.kSent < r.k) ∧ t ≤ d.net16 + lead then
    let b := fullTime t * 2 ^ 24 + r.kSent % 256 * 2 ^ 16 + g * 2 ^ 12 + d.fld (Reg.mkCtl g) Fld.mkCtlAction
    let d := (List.range 64).foldl (fun e i =>
      if bitAt (d.mkLanes g) i then e.sendPort (8 + i) 0x20 b else e) d
    d.setGen g { d.gen g with kSent := r.kSent + 1 }
  else d

/-- Why a write that arms a generator is refused with RANGE (R350). -/
def Dev.mkRangeBad (d : Dev) (g mode : Nat) : Bool :=
  let lead := d.fld (Reg.mkLead g) Fld.mkLeadLeadNs
  let width := d.fld (Reg.mkWidth g) Fld.mkWidthWidthNs
  decide (d.mkStart g < d.net16 + (10000 + lead) * 65536) ||
    decide (d.mkPeriod g < 8 * 65536) || (decide (d.mkLanes g ≠ 0) && decide (d.mkPeriod g < 1000 * 65536)) ||
    (decide (mode = 2 ∨ mode = 3) && decide (d.mkPeriod g < (width + 2) * 65536))

/-- A generator armed with the values held (R350). Marks timed at or before the last mark it emitted, which only a backward step
allows, are passed over (R352). -/
def Dev.mkArm (d : Dev) (g mode : Nat) : Dev :=
  let d := (d.setGen g { d.gen g with armed := true, mode := mode, k := 0, kSent := 0 }).wr (Reg.mkNext g) 0
  match (d.gen g).lastMark with
  | some t => if d.mkStart g ≤ t then d.skipMarks g ((t - d.mkStart g) / d.mkPeriod g + 1) else d
  | none => d

/-- A generator stopped: a mark due at this moment is emitted first (R351). -/
def Dev.mkStop (d : Dev) (g : Nat) : Dev :=
  let d := d.markDue g
  d.setGen g { d.gen g with armed := false, kSent := (d.gen g).k }

/-- A word written to MK_CTL of a generator in effect: armed or stopped by its MODE (R350, R351). -/
def Dev.mkWrite (d : Dev) (g v : Nat) : Dev :=
  let d := if v % 4 = 0 then d.mkStop g else d
  let d := d.wr (Reg.mkCtl g) v
  if v % 4 = 0 then d else d.mkArm g (v % 4)

/-- A TMS live write in effect (R343): MK_CTL arms or stops its generator, the rest take their value, and the outliers
held of the source in use are judged by a JUMP_MAX_NS written (R334). -/
def Dev.tmsWrite (d : Dev) (a v : Nat) : Dev :=
  if Reg.mkCtl 0 ≤ a ∧ a < Reg.mkCtl 16 ∧ (a - Reg.mkCtl 0) % 0x40 = 0 then d.mkWrite ((a - Reg.mkCtl 0) / 0x40) v
  else if a = Reg.tmsJumpMax then (d.wr a v).confirmJump (d.wr a v).source
  else d.wr a v

/-- The step of an accepted jump, once network time reaches t_s (Table 9.5, steps 4 and 5). -/
def Dev.applyJump (d : Dev) : Dev :=
  match d.tms.jump with
  | none => d
  | some j =>
    if d.netNs < j.tS then d
    else
      let theta := match d.tms.lastTheta with
        | some x => x
        | none => 0
      let before := d.net16
      let d := d.stepCounter theta
      let after := d.net16
      let d := (d.enterAcquire.count Reg.tmsJumpsApplied).logInternal Reg.tmsJump 0 (lowBits 32 (-(wholeNs theta))) .ok
      let d := if d.source = 0 then d.enterHoldover else d
      let first := ceilDiv (ceilDiv after 65536 + 1000) d.tev
      let nLast := match j.nLast with
        | some n => n
        | none => 0
      let skips := if nLast + 1 < first then (nLast + 1, first - 1) :: d.scr.skips else d.scr.skips
      let waiting := d.tms.paused.reverse
      let d := { d with scr := { d.scr with skips := skips }, tms := { d.tms with jump := none, paused := [] } }
      let d := waiting.foldl (fun e w => e.tmsWrite w.1 w.2) d
      let flag (m : Nat) (e : Dev) : Dev := e.rfMod m fun a => { a with jump := true }
      flag (after / 65536 / 1000000) (flag (before / 65536 / 1000000) d)

/-! Arming (R24, R337) -/

/-- The Screed arms now: the first event is the first window that opens at or after this moment. -/
def Dev.armScreed (d : Dev) : Dev :=
  let first := ceilDiv (ceilDiv d.net16 65536) d.tev
  let safe := d.safeMode
  ({ d with scr := { d.scr with
      armed := true, armedAt := d.net16, firstEv := first,
      safeFrom := if safe then some first else d.scr.safeFrom,
      rfNext := ceilDiv d.net16 65536000000 } }).setFld Reg.scrState Fld.scrStateState (if safe then 2 else 1)

/-! The passage of time (R32, R320) -/

/-- One ns of device time: the counter of network time advances by 1 ns less y (R320), and a ms spent in HOLDOVER, or in FREERUN
after arming, is counted. -/
def Dev.tick (d : Dev) : Dev :=
  if d.inReset then d
  else
    let d := { d with devNs := d.devNs + 1, tms := { d.tms with ctr := (Int.ofNat (d.tms.ctr + 2 ^ 40) - d.tms.y).toNat } }
    let held := decide (d.timeState = tsHoldover) || (decide (d.timeState = tsFreerun) && d.scr.armed)
    if held then
      if d.tms.holdNs + 1 = 1000000 then { d with tms := { d.tms with holdNs := 0 } }.count Reg.tmsHoldoverMs
      else { d with tms := { d.tms with holdNs := d.tms.holdNs + 1 } }
    else d

end Sys2Proof.Machine
end

