-- ==== Sys2Proof/Machine/Acq.lean ====
section
/-!
DEFINITION. Capture rings and records: HAWK rows, STIPPLE entries, the ring-write buffers, captures, copy-out,
measurements, and a record's bytes ("Primitive conditions, Hawk rings and Stipple capture"), with the
pages of the record store ("The record store").
-/

namespace Sys2Proof.Machine

open Sys2Proof

/-! Rings -/

/-- A ring beside its registers. -/
def Dev.ring (d : Dev) (r : Nat) : RingRec := SMap.get (fun _ => RingRec.init) d.acq.rings r

/-- A ring changed. -/
def Dev.setRing (d : Dev) (r : Nat) (x : RingRec) : Dev :=
  { d with acq := { d.acq with rings := SMap.set (fun _ => RingRec.init) d.acq.rings r x } }

/-- A STIPPLE member. -/
def Dev.stp (d : Dev) (c : Nat) : StpRec := SMap.get (fun _ => StpRec.init) d.acq.stp c

/-- A STIPPLE member changed. -/
def Dev.setStp (d : Dev) (c : Nat) (x : StpRec) : Dev :=
  { d with acq := { d.acq with stp := SMap.set (fun _ => StpRec.init) d.acq.stp c x } }

/-- Whether a ring is enabled. -/
def Dev.ringOn (d : Dev) (r : Nat) : Bool := d.flag (Reg.hwkRcfg r) Fld.hwkRcfgEnable

/-- Whether a ring runs in STIPPLE mode. -/
def Dev.stippled (d : Dev) (r : Nat) : Bool := d.flag (Reg.hwkRcfg r) Fld.hwkRcfgMode

/-- The enabled rings in ascending order. -/
def Dev.ringsOn (d : Dev) : List Nat := d.nonzero (Reg.hwkRcfg 0) 0x100 64 Fld.hwkRcfgEnable

/-- The members of a ring, by ascending channel number (R93). -/
def Dev.members (d : Dev) (r : Nat) : List Nat :=
  (d.nonzero (Reg.hwkChring 0) 4 8192 Fld.hwkChringMember).filter fun c =>
    decide (d.fld (Reg.hwkChring c) Fld.hwkChringRing = r)

/-- The lane whose map holds a channel. -/
def Dev.laneOf (d : Dev) (ch : Nat) : Option Nat :=
  d.lanesInUse.find? fun l => (List.range (d.laneN l)).any fun k => decide (d.laneCh l k = ch)

/-- The lane of a ring's first member; all members share its T_s and W (R93). -/
def Dev.ringLane (d : Dev) (r : Nat) : Option Nat := (d.members r).head?.bind d.laneOf

/-- T_s of a ring in units of 2^-16 ns. -/
def Dev.ringTs (d : Dev) (r : Nat) : Nat := ((d.ringLane r).map d.laneTs).getD 0

/-- The WIDTH code of a ring. -/
def Dev.ringWidth (d : Dev) (r : Nat) : Nat :=
  ((d.ringLane r).map fun l => d.fld (Reg.ingLmap l) Fld.ingLmapWidth).getD 0

/-- Bytes of a stored sample by WIDTH code (R94). -/
def sampleBytes (w : Nat) : Nat := if w = 0 then 1 else if w = 3 then 4 else 2

/-- n rounded up to a multiple of m. -/
def alignUp (m n : Nat) : Nat := ceilDiv n m * m

/-- ROW_BYTES for M members of WIDTH code w (R94). -/
def rowBytes (m w : Nat) : Nat := alignUp 8 (8 + ceilDiv m 8 + m * sampleBytes w)

/-- Rows or entries a ring's region holds (R96, Table 3.13). -/
def Dev.ringCap (d : Dev) (r : Nat) : Nat :=
  if d.stippled r then d.rd (Reg.stpRentries r) else d.rd (Reg.hwkCap r)

/-- Bytes of one row or entry of a ring. -/
def Dev.itemBytes (d : Dev) (r : Nat) : Nat := if d.stippled r then 16 else d.fld (Reg.hwkRowb r) Fld.hwkRowbRowBytes

/-- The stack that holds a ring. -/
def Dev.ringStack (d : Dev) (r : Nat) : Nat := d.fld (Reg.hwkRbase r) Fld.hwkRbaseStack

/-- A stack's ring-write buffer. -/
def Dev.ringBuf (d : Dev) (st : Nat) : List (Nat × RingItem) := SMap.get (fun _ => []) d.acq.bufs st

/-- A stack's ring-write buffer changed. -/
def Dev.setRingBuf (d : Dev) (st : Nat) (b : List (Nat × RingItem)) : Dev :=
  { d with acq := { d.acq with bufs := SMap.set (fun _ => []) d.acq.bufs st b } }

/-! Records and pages (R385 to R387) -/

/-- The record of a sequence number. -/
def Dev.record (d : Dev) (q : Nat) : Option RecordRec := d.store.recs.find? fun x => decide (x.seq = q)

/-- A record changed. -/
def Dev.modRecord (d : Dev) (q : Nat) (f : RecordRec → RecordRec) : Dev :=
  { d with store := { d.store with recs := d.store.recs.map fun x => if x.seq = q then f x else x } }

/-- The UP channels in ascending order. -/
def Dev.upChannels (d : Dev) : List Nat := (List.range 8).filter fun c => decide (d.fld (Reg.chStat c) Fld.chStatState = 2)

/-- The channel of page k: the k-th that was UP when the store was divided, modulo their number (R385). -/
def Dev.pageChannel (d : Dev) (k : Nat) : Nat := d.store.chans.getD (k % d.store.chans.length) 8

/-- Whether page k can be used: its channel is still UP (R389). -/
def Dev.pageUp (d : Dev) (k : Nat) : Bool := d.upChannels.contains (d.pageChannel k)

/-- The page numbers from lo to before hi that are i modulo n, for i below n. -/
def residues (lo hi n i : Nat) : Nat := (hi + n - 1 - i) / n - (lo + n - 1 - i) / n

/-- How many pages of a run can be used. -/
def Dev.usable (d : Dev) (p : Nat × Nat) : Nat :=
  let n := d.store.chans.length
  (((List.range n).filter fun i => d.upChannels.contains (d.store.chans.getD i 8)).map fun i => residues p.1 p.2 n i).sum

/-- Free pages of the pool. -/
def Dev.poolFree (d : Dev) : Nat := (d.store.pool.map d.usable).sum

/-- The usable pages of a run, one by one where some channel has failed, else as the run itself. -/
def Dev.usableRuns (d : Dev) (p : Nat × Nat) : List (Nat × Nat) :=
  if d.usable p = p.2 - p.1 then [p]
  else (((List.range (p.2 - p.1)).map fun i => p.1 + i).filter d.pageUp).map fun k => (k, k + 1)

/-- The m lowest usable pages of free runs, and the runs left (log entry 36). -/
def Dev.cutPages (d : Dev) : List (Nat × Nat) → Nat → List (Nat × Nat) × List (Nat × Nat)
  | ps, 0 => ([], ps)
  | [], _ => ([], [])
  | p :: ps, m + 1 =>
    let n := d.usable p
    if n ≤ m + 1 then
      let r := d.cutPages ps (m + 1 - n)
      (d.usableRuns p ++ r.1, r.2)
    else if n = p.2 - p.1 then ([(p.1, p.1 + (m + 1))], (p.1 + (m + 1), p.2) :: ps)
    else
      let got := (d.usableRuns (p.1, p.1 + d.store.chans.length * (m + 2))).take (m + 1)
      (got, ((got.getLast?.map Prod.snd).getD p.1, p.2) :: ps)

/-- A run of pages put among free runs in ascending order, joined to those it touches. -/
def putPages (p : Nat × Nat) : List (Nat × Nat) → List (Nat × Nat)
  | [] => [p]
  | q :: qs =>
    if p.2 < q.1 then p :: q :: qs
    else if p.2 = q.1 then (p.1, q.2) :: qs
    else if q.2 = p.1 then putPages (q.1, p.2) qs
    else q :: putPages p qs

/-- How many pages runs hold, and the page of an index into them. -/
def pageCount (ps : List (Nat × Nat)) : Nat := (ps.map fun p => p.2 - p.1).sum

/-- The page that stands at a place in the order of runs. -/
def pageAtIndex : List (Nat × Nat) → Nat → Option Nat
  | [], _ => none
  | p :: ps, i => if i < p.2 - p.1 then some (p.1 + i) else pageAtIndex ps (i - (p.2 - p.1))

/-- REC_PAGES_FREE and REC_HELD shown. -/
def Dev.showStore (d : Dev) : Dev :=
  (d.wr Reg.recPagesFree d.poolFree).wr Reg.recHeld (d.store.recs.filter fun x => x.doneAt.isSome).length

/-- n pages of the pool, if it has them. -/
def Dev.takePool (d : Dev) (n : Nat) : Option (Dev × List (Nat × Nat)) :=
  if n ≤ d.poolFree then
    let r := d.cutPages d.store.pool n
    some ({ d with store := { d.store with pool := r.2 } }.showStore, r.1)
  else none

/-- One page of the summary reserve, if it has one. -/
def Dev.takeReserve (d : Dev) : Option (Dev × List (Nat × Nat)) :=
  if 0 < (d.store.reserve.map d.usable).sum then
    let r := d.cutPages d.store.reserve 1
    some ({ d with store := { d.store with reserve := r.2 } }, r.1)
  else none

/-- A record's pages given back, each to the reserve or the pool by its number (R388); pages on a channel that is no longer UP cannot be used
there (R389). -/
def Dev.freePages (d : Dev) (x : RecordRec) : Dev :=
  (x.pages.foldl (fun e p =>
    if p.1 < e.store.poolFrom then { e with store := { e.store with reserve := putPages p e.store.reserve } }
    else { e with store := { e.store with pool := putPages p e.store.pool } }) d).showStore

/-- A record gone from the store. -/
def Dev.dropRecord (d : Dev) (q : Nat) : Dev :=
  match d.record q with
  | none => d
  | some x =>
    ({ d with store := { d.store with
        recs := d.store.recs.filter fun y => decide (y.seq ≠ q), past := (q, x.ring) :: d.store.past } }).freePages x

/-! A record's bytes (R94, R111, R112, Tables 3.5 to 3.7) -/

/-- A HAWK row as bytes. The fraction of its instant is truncated to units of 2^-8 ns (DESIGN CHOICE, log entry 74). -/
def rowImage (m w : Nat) (x : RingItem) : List Byte :=
  let b := sampleBytes w
  let miss := (List.range m).foldl (fun a i => a + bit01 ((x.vals.getD i none).isNone) * 2 ^ i) 0
  let any := decide (miss ≠ 0)
  let head := lowBits 40 (x.t / 65536) + lowBits 8 (x.t / 256) * 2 ^ 40 + bit01 any * 2 ^ 48
  let body := leBytes 8 head ++ leBytes (ceilDiv m 8) miss ++
    ((List.range m).map fun i => leBytes b (lowBits (8 * b) ((x.vals.getD i none).getD 0))).flatten
  takeBytes (rowBytes m w) body

/-- A STIPPLE entry as bytes (Table 3.5). -/
def entryImage (x : RingItem) : List Byte :=
  leBytes 16 (lowBits 40 (x.t / 65536) + lowBits 8 (x.t / 256) * 2 ^ 40 + x.ch * 2 ^ 48 + x.kind * 2 ^ 61 +
    lowBits 24 ((x.vals.getD 0 none).getD 0) * 2 ^ 64)

/-- A rational as a whole number of a field's unit, and none of it when the field cannot hold it: then the value is
open (log entry 24). -/
def Dev.measured (d : Dev) (w : Nat) (q : Rat) : Nat × Dev :=
  let (v, d) := d.roundOpen q
  if 0 ≤ v ∧ v < 2 ^ w then (v.toNat, d)
  else
    let (x, d) := d.open_ .measure
    (x % 2 ^ w, d)

/-- A crossing in the samples of a record: the index of the sample that makes it, and its time. -/
structure RecCross where
  idx : Nat
  t : Int
  deriving DecidableEq, Repr

/-- The rising crossings at level y with hysteresis h over a record's samples, which are scaled as y is; none stands for a missing
sample, and no crossing is interpolated across one (R73, R75, R108). -/
def risings (y h : Int) (xs : List (Int × Option Int)) : List RecCross :=
  ((List.range xs.length).foldl (fun (acc : List RecCross × Option (Bool × Int × Int) × Bool) i =>
    match xs.getD i (0, none) with
    | (_, none) => (acc.1, acc.2.1, true)
    | (t, some s) =>
      match acc.2.1 with
      | none => (acc.1, some (decide (y ≤ s), s, t), false)
      | some (high, s0, t0) =>
        let high' := if y ≤ s then true else if s < y - h then false else high
        let out := if !high && high' then
            acc.1 ++ [⟨i, (crossTime (some (s0, t0)) acc.2.2 y s t).1⟩]
          else acc.1
        (out, some (high', s, t), false)) ([], none, false)).1

/-- One measurement entry (Table 3.6) of a channel, from its samples in the record in order with the number that lie
before T_sample. Of a record that holds no rows it has MISSING set and VALID clear (DESIGN CHOICE, log entry 74). Which way BASE, RISE, PERIOD and AREA round is open (log entry 20). -/
def Dev.measureEntry (d : Dev) (ch : Nat) (neg : Bool) (ts : Nat) (pre : Nat) (xs : List (Int × Option Int)) :
    List Byte × Dev :=
  let present := xs.filterMap Prod.snd
  if present.isEmpty then (leBytes 4 (ch + 2 ^ 14 + 2 ^ 15 + 2 ^ 16) ++ leBytes 28 0, d)
  else
    let p := ((xs.take pre).filterMap Prod.snd).length
    let nb := if p = 0 then (if present.length < 16 then present.length else 16) else if p < 16 then p else 16
    let (base, d) := d.roundOpen ((((present.take nb).sum : Int) * 256 : Rat) / (nb : Rat))
    let sg : Int := if neg then -1 else 1
    let peak := present.foldl (fun m s => if sg * m < sg * s then s else m) (present.headD 0)
    let pi := (List.range xs.length).find? (fun i => (xs.getD i (0, none)).2 == some peak)
    let ampl := (peak * 256 - base).natAbs
    let sc := xs.map fun x => (x.1, x.2.map fun s => sg * s * 2560)
    let b := sg * base * 10
    let a : Int := Int.ofNat ampl
    let c10 := (risings (b + a) 0 sc).filter fun c => decide (c.idx ≤ pi.getD 0)
    let c90 := match c10.getLast? with
      | some (x : RecCross) => (risings (b + 9 * a) 0 sc).find? fun (c : RecCross) => decide (x.t < c.t)
      | none => none
    let (rise, noEdge, d) := match c10.getLast?, c90 with
      | some x, some y => if ampl = 0 then (0, true, d) else
        let (v, d) := d.measured 32 (((y.t - x.t : Int) : Rat) / 256)
        (v, false, d)
      | _, _ => (0, true, d)
    let mids := risings (b + 5 * a) a sc
    let (per, noPer, d) := match mids.head?, mids.getLast? with
      | some x, some y => if mids.length < 2 then (0, true, d) else
        let (v, d) := d.measured 32 (((y.t - x.t : Int) : Rat) / 256 / ((mids.length - 1 : Nat) : Rat))
        (v, false, d)
      | _, _ => (0, true, d)
    let (area, d) := d.roundOpen ((((present.map fun s => sg * (s * 256 - base)).sum * Int.ofNat ts : Int) : Rat) / 65536)
    let ctl := ch + 2 ^ 13 + bit01 noEdge * 2 ^ 14 + bit01 noPer * 2 ^ 15 +
      bit01 (decide (present.length < xs.length)) * 2 ^ 16
    (leBytes 4 ctl ++ leBytes 4 (lowBits 32 base) ++ leBytes 4 (lowBits 32 peak) ++ leBytes 4 ampl ++ leBytes 4 rise ++
      leBytes 4 per ++ leBytes 8 (lowBits 64 (satSigned 64 area)), d)

/-- The signal of a STIPPLE member at its n sample positions P + k × T_s from time t0 on (R109, R528): from a MISSING entry on it is missing until
the next CHANGE entry, which a KEEP entry is not. -/
def stippleSignal (items : List RingItem) (ch : Nat) (t0 p : Int) (ts n : Nat) : List (Int × Option Int) :=
  (List.range n).map fun i =>
    let t := t0 + (p - t0) % Int.ofNat ts + Int.ofNat (i * ts)
    let before := items.filter fun x => decide (x.ch = ch) && decide (x.t ≤ t)
    let latest := (before.mergeSort fun x y => decide (x.t ≤ y.t)).foldl (fun (m : Option RingItem) x =>
      match m with
      | some y => if y.kind = 2 ∧ x.kind = 1 then some y else some x
      | none => some x) none
    (t, match latest with
      | some x => if x.kind = 2 then none else x.vals.getD 0 none
      | none => none)

/-- The measured channels of a ring: channel and NEG, in order. -/
def Dev.measuredChannels (d : Dev) (r : Nat) : List (Nat × Bool) :=
  (List.range 16).filterMap fun j =>
    let w := d.rd (Reg.hwkMeas r j)
    if bitAt w 13 then some (bitsOf w 0 13, bitAt w 14) else none

/-- Offsets of a record with K measurement entries, M members and n bytes of rows or entries: measurement
section, data section, the end of the data (R111). With no measured channel the measurement section is absent (DESIGN CHOICE, log entry 74). -/
def recordOffsets (k m n : Nat) : Nat × Nat × Nat :=
  let meas := 0x880
  let data := if k = 0 then meas else meas + 8 + 32 * k
  (if k = 0 then 0 else meas, data, data + alignUp 8 (2 * m) + n)

/-- RECORD_LEN without an appendix. -/
def recordLen (k m n : Nat) : Nat := alignUp 64 (recordOffsets k m n).2.2

/-- LATE_BY of an event for its records, by its completion, once measured (R529). -/
def Dev.lateBy (d : Dev) (n : Nat) (late : Bool) (completion : Option Nat) : Nat :=
  if late then
    match completion with
    | some c =>
      let lim := d.deadline n * 65536
      if lim < c then (if ceilDiv (c - lim) 65536 < 65535 then ceilDiv (c - lim) 65536 else 65535) else 0
    | none => 65535
  else 0

/-- The time TAG of each lane in use, which places its channels' sample positions from now on (R528). -/
def Dev.lanePhases (d : Dev) : List (Nat × Int) :=
  d.lanesInUse.map fun l => (l, (SMap.get (fun _ => LaneRec.init) d.ing.lanes l).lastP)

/-- The time TAG that places a channel's sample positions in a record: as it stood at the admission of the record's event, for every position of
the record's window (R109, R528; DEDUCED, log entry 74). -/
def Dev.channelP (d : Dev) (phases : List (Nat × Int)) (ch : Nat) : Int :=
  match d.laneOf ch with
  | some l => ((phases.find? fun x => decide (x.1 = l)).map Prod.snd).getD 0
  | none => 0

/-- A record's bytes, CHECK filled in, and the device after its measurements. A SUMMARY record's STIPPLE flag is 0 whatever the ring's mode
(DESIGN CHOICE, log entry 74). -/
def Dev.recordImage (d : Dev) (x : RecordRec) : List Byte × Dev :=
  let body := x.mode ≠ 0xFF
  let mch := if body then d.measuredChannels x.ring else []
  let m := x.members.length
  let rows := if body then (x.items.map fun i => if x.mode = 1 then entryImage i else rowImage m x.width i).flatten else []
  let t0 := Int.ofNat (x.trig * 65536) - Int.ofNat (x.pre * x.ts)
  let (entries, d) := mch.foldl (fun (acc : List Byte × Dev) c =>
    let sig := if x.mode = 1 then stippleSignal x.items c.1 t0 (d.channelP x.phases c.1) x.ts x.captured
      else
        let j := x.members.idxOf c.1
        x.items.map fun i => (i.t, i.vals.getD j none)
    let (bs, d) := acc.2.measureEntry c.1 c.2 x.ts x.preCaptured sig
    (acc.1 ++ bs, d)) ([], d)
  let k := mch.length
  let (mo, dof, fin) := recordOffsets k m rows.length
  let fo := if body then fin else 0x880
  let len := alignUp 64 (fo + x.appendix.length)
  let comp := x.comp.toNat + d.lateBy x.event x.late x.completion * 2 ^ 48
  let flags := bit01 x.truncated + 2 * bit01 (decide (x.mode = 1)) + 4 * bit01 x.late + 8 * bit01 x.skew +
    16 * bit01 x.degraded + 32 * bit01 x.summary + 64 * bit01 x.freeInc + 128 * bit01 x.shortPre
  let hitmap := (List.range 2048).map fun i =>
    BitVec.ofNat 8 ((x.hits.filter fun s => decide (s / 8 = i)).foldl (fun a s => a + 2 ^ (s % 8)) 0)
  let head := leBytes 4 0x5A524543 ++ leBytes 2 1 ++ leBytes 1 d.devId ++ leBytes 1 x.ring ++
    leBytes 8 (x.event % 2 ^ 48) ++ leBytes 12 (fullTime (x.trig * 65536)) ++ leBytes 4 flags ++ leBytes 8 x.dec.toNat ++
    leBytes 8 comp ++ leBytes 4 x.pre ++ leBytes 4 x.post ++ leBytes 4 x.captured ++ leBytes 4 x.preCaptured ++
    leBytes 8 len ++ leBytes 4 0x80 ++ leBytes 4 (if body then mo else 0) ++ leBytes 4 (if body then dof else 0) ++
    leBytes 4 (if x.appendix.isEmpty then 0 else fo) ++ leBytes 8 x.prov ++ leBytes 4 x.ts ++ leBytes 2 m ++
    leBytes 1 x.width ++ leBytes 1 x.mode ++ leBytes 8 (if body then x.items.length else 0) ++ leBytes 8 0
  let meas := if k = 0 then [] else leBytes 8 k ++ entries
  let chans := if body then takeBytes (alignUp 8 (2 * m)) ((x.members.map fun c => leBytes 2 c).flatten) else []
  let tail := takeBytes (len - 0x880) (meas ++ chans ++ rows ++ x.appendix)
  let check := shake256 (head ++ leBytes 8 0 ++ hitmap ++ tail) 8
  (head ++ check ++ hitmap ++ tail, d)

/-- A record completes when its capture has ended and is copied and no free-class result is waited for (R113): it
gets its bytes and its CHECK and counts as stored. -/
def Dev.tryComplete (d : Dev) (q : Nat) : Dev :=
  match d.record q with
  | none => d
  | some x =>
    if x.doneAt.isNone && x.endedAt.isSome && x.copied && (x.freeWait.isNone || x.freeDone) then
      let (bs, d) := d.recordImage x
      let d := d.modRecord q fun y => { y with bytes := bs, doneAt := some d.devNs, items := [] }
      let d := (d.count Reg.recRecords).showStore
      if x.ring < 64 then
        (d.countIf x.truncated (Reg.hwkTrunc x.ring)).countIf x.shortPre (Reg.hwkShortPre x.ring)
      else d
    else d

/-! Writing into a ring (R100, R107, R223) -/

/-- Whether a capture has a row or entry in its window. -/
def Capture.covers (c : Capture) (stip : Bool) (x : RingItem) : Bool :=
  if stip then (decide (c.tLo ≤ x.t) && decide (x.t < c.tHi)) || c.opens.contains x.w
  else decide (c.lo ≤ x.k) && decide (x.k < c.hi)

/-- Whether a capture protects a row or entry: in its window and not yet copied. -/
def Capture.protects (c : Capture) (stip : Bool) (x : RingItem) : Bool :=
  c.covers stip x &&
    (if stip then decide (c.next ≤ x.w)
     else decide (c.next ≤ x.k) && (match c.cut with
      | some k => decide (x.k < k)
      | none => true))

/-- A capture's record marked TRUNCATED. -/
def Dev.markTruncated (d : Dev) (q : Nat) : Dev := d.modRecord q fun x => { x with truncated := true }

/-- A record without the rows before row k, of which the run that holds the boundary at row kb is not made (R100). -/
def Dev.forgetRows (d : Dev) (q k kb : Nat) : Dev :=
  d.modRecord q fun x =>
    let its := x.items.filter fun y => decide (k ≤ y.k)
    { x with items := its, captured := its.length, preCaptured := (its.filter fun y => decide (y.k < kb)).length }

/-- A capture once row k is dropped: of its window only the contiguous run of rows that contains the boundary is left (R100). -/
def Capture.without (c : Capture) (k : Nat) : Capture :=
  if k < c.lo ∨ c.hi ≤ k then c
  else if k < c.kb then { c with lo := k + 1, next := if c.next < k + 1 then k + 1 else c.next }
  else match c.cut with
    | some j => if k < j then { c with cut := some k } else c
    | none => { c with cut := some k }

/-- Row k of a HAWK ring dropped: the captures whose window contains it are TRUNCATED. -/
def Dev.rowDropped (d : Dev) (r k : Nat) : Dev :=
  let x := d.ring r
  let hit := x.caps.filter fun c => decide (c.lo ≤ k) && decide (k < c.hi)
  let d := hit.foldl (fun e c =>
    let e := e.markTruncated c.seq
    if k < c.kb then e.forgetRows c.seq (k + 1) c.kb else e) d
  let d := (d.count (Reg.hwkOverrun r)).count Reg.hwkRowsDropped
  d.setRing r { x with
    drops := k :: x.drops.filter fun j => decide (k < j + d.ringCap r), caps := x.caps.map fun c => c.without k }

/-- A record's capture has ended: with FREE_MODE = NONE it takes no more free-class results (R113). -/
def Dev.captureEnded (d : Dev) (q : Nat) : Dev :=
  d.modRecord q fun y => { y with
    endedAt := (match y.endedAt with
      | some t => some t
      | none => some d.devNs), freeDone := y.freeDone || y.freeWait.isNone }

/-- Sample positions per member that a STIPPLE record covers when its capture ends early, the last position processed being at time u: never more
than its window has (R107; DEDUCED, log entry 74). -/
def heldPositions (pre post ts : Nat) (tLo u : Int) : Nat :=
  let n : Nat := if ts = 0 then 0 else ((u - tLo) / Int.ofNat ts).toNat
  if n < pre + post then n else pre + post

/-- An entry of a STIPPLE ring dropped, with the captures it ends early (R107): all that run when the writer pauses, or those
whose window contains it. Its time stays, for captures requested later (R223). A record that waits for no free-class result takes none from now
on (R113). -/
def Dev.entryDropped (d : Dev) (r : Nat) (x : RingItem) (all : Bool) : Dev :=
  let rr := d.ring r
  let ts := d.ringTs r
  let ends (c : Capture) : Bool := !c.ended && (all || c.covers true x)
  let d := (rr.caps.filter ends).foldl (fun e c =>
    ((e.markTruncated c.seq).modRecord c.seq fun y =>
      let n := heldPositions y.pre y.post ts c.tLo rr.lastPos
      { y with captured := n, preCaptured := if n < y.pre then n else y.pre }).captureEnded c.seq) d
  (d.count Reg.stpDropped).setRing r { rr with
    dropT := (x.t, rr.lastPos) :: rr.dropT.take 65535,
    caps := rr.caps.map fun c =>
      if ends c then { c with tHi := (if c.tHi < rr.lastPos + 1 then c.tHi else rr.lastPos + 1), ended := true } else c }

/-- A row or entry given to the ring-write buffer, or dropped: by a pause of the writer, or by a full buffer.
The answer says whether it was stored. -/
def Dev.ringPut (d : Dev) (r : Nat) (x : RingItem) : Dev × Bool :=
  let stip := d.stippled r
  let rr := d.ring r
  let st := d.ringStack r
  let x := { x with w := rr.written }
  let cap := d.ringCap r
  let blocked := rr.items.any (fun y => decide (y.w + cap = rr.written) && rr.caps.any fun c => c.protects stip y)
  let used := ((d.ringBuf st).map fun e => d.itemBytes e.1).sum
  if rr.paused || blocked then
    let d := d.setRing r { rr with paused := true }
    (if stip then d.entryDropped r x (!rr.paused) else d.rowDropped r x.k, false)
  else if 65536 < used + d.itemBytes r then
    (if stip then d.entryDropped r x false else d.rowDropped r x.k, false)
  else
    let d := (d.setRing r { rr with written := rr.written + 1 }).setRingBuf st (d.ringBuf st ++ [(r, x)])
    (if stip then (d.count Reg.stpEntries).countIf (decide (x.kind = 1)) Reg.stpKeeps else d, true)

/-- Ended captures found, and those wholly copied removed from the outstanding ones (R98, R99). -/
def Dev.settleRing (d : Dev) (r : Nat) : Dev :=
  let stip := d.stippled r
  let rr := d.ring r
  let waiting := (d.ringBuf (d.ringStack r)).filter fun e => decide (e.1 = r)
  let isEnded (c : Capture) : Bool := c.ended ||
    (!stip && decide (c.hi ≤ rr.nextK) && !waiting.any fun e => decide (e.2.k < c.hi))
  let d := rr.caps.foldl (fun e c => if isEnded c then e.captureEnded c.seq else e) d
  let caps := rr.caps.map fun c => { c with ended := isEnded c }
  let isCopied (c : Capture) : Bool := c.ended && !rr.items.any (fun y => c.protects stip y) &&
    !waiting.any fun e => c.protects stip e.2
  let fin := caps.filter isCopied
  let d := d.setRing r { rr with caps := caps.filter fun c => !isCopied c }
  let d := d.setFld (Reg.hwkOutstanding r) Fld.hwkOutstandingCount (caps.length - fin.length)
  fin.foldl (fun e c => (e.modRecord c.seq fun y => { y with copied := true }).tryComplete c.seq) d

/-- A paused writer resumes once its next place is protected no more (R100): rows from then on are a new run, and every
STIPPLE member's next sample is stored (R103). -/
def Dev.resumeRing (d : Dev) (r : Nat) : Dev :=
  let stip := d.stippled r
  let rr := d.ring r
  let cap := d.ringCap r
  let blocked := rr.items.any (fun y => decide (y.w + cap = rr.written) && rr.caps.any fun c => c.protects stip y)
  if rr.paused && !blocked then
    let d := d.setRing r { rr with paused := false, resumeK := rr.nextK }
    if stip then (d.members r).foldl (fun e c => e.setStp c { e.stp c with force := true }) d else d
  else d

/-- The oldest waiting row or entry of a stack's buffer written to its ring (R223). -/
def Dev.ringWrite (d : Dev) (st : Nat) : Dev :=
  match d.ringBuf st with
  | [] => d
  | (r, x) :: rest =>
    let d := d.setRingBuf st rest
    let rr := d.ring r
    let d := d.setRing r { rr with items := (x :: rr.items).take (d.ringCap r) }
    d.settleRing r

/-! HAWK rows (R94, R95) -/

/-- The instant of row k: its own once a sample is placed in it, else by the latest instant of the grid. -/
def Dev.rowInstant (d : Dev) (r k : Nat) : Int :=
  let rr := d.ring r
  match rr.opened.find? fun o => decide (o.k = k) with
  | some o => o.t
  | none => rr.phase.getD 0 + (Int.ofNat k - Int.ofNat rr.kBase) * Int.ofNat (d.ringTs r)

/-- The first open row closed: missing members are marked so. Of two samples of one member nearest the same row the first placed is kept
(DESIGN CHOICE, log entry 74). -/
def Dev.closeRow (d : Dev) (r : Nat) : Dev :=
  let rr := d.ring r
  let k := rr.nextK
  let got := match rr.opened.find? fun o => decide (o.k = k) with
    | some o => o.vals
    | none => []
  let vals := (List.range (d.members r).length).map fun j => (got.find? fun v => decide (v.1 = j)).map Prod.snd
  let x : RingItem := ⟨0, k, d.rowInstant r k, 0, 0, vals⟩
  let d := d.setRing r { rr with nextK := k + 1, opened := rr.opened.filter fun o => decide (o.k ≠ k), lastPos := x.t }
  ((d.ringPut r x).1).settleRing r

/-- The rows before a ring's first passed over: they do not exist (R95), and a capture under way does not count them. -/
def Dev.firstRow (d : Dev) (r : Nat) : Dev :=
  let rr := d.ring r
  let caps := rr.caps.map fun c =>
    if c.kb ≤ rr.nextK ∧ rr.nextK < c.hi then { c with hi := c.hi + (rr.startK - rr.nextK) } else c
  if rr.nextK < rr.startK then d.setRing r { rr with nextK := rr.startK, caps := caps } else d

/-- Whether a sample of every member of a ring of M members is placed in a row. -/
def OpenRow.full (o : OpenRow) (m : Nat) : Bool := (List.range m).all fun j => o.vals.any fun v => decide (v.1 = j)

/-- Rows closed in order while every member's sample is in. -/
def Dev.closeFull (d : Dev) (r : Nat) : Nat → Dev
  | 0 => d
  | n + 1 =>
    let rr := d.ring r
    let first := if rr.nextK < rr.startK then rr.startK else rr.nextK
    match rr.opened.find? fun o => decide (o.k = first) with
    | some o => if o.full (d.members r).length then ((d.firstRow r).closeRow r).closeFull r n else d
    | none => d

/-- The grid of a ring's rows begun at a time: the rows before it whose samples may still come, timely, from other lanes are numbered too, and
the first that a sample is placed in is the ring's first (R95). -/
def RingRec.anchored (rr : RingRec) (t : Int) (slack : Nat) : RingRec :=
  match rr.phase with
  | some _ => rr
  | none => { rr with
      phase := some t, kBase := rr.nextK + slack, startK := rr.nextK + slack,
      resumeK := if rr.resumeK ≤ rr.startK then rr.nextK + slack else rr.resumeK }

/-- The ring's first row is k or before, until a row is closed. -/
def RingRec.reaches (rr : RingRec) (k : Nat) : RingRec :=
  if k < rr.startK then { rr with startK := k, resumeK := if rr.resumeK = rr.startK then k else rr.resumeK } else rr

/-- A member's sample placed in the row nearest its time (R95). The row instants follow those of the ring's first member's samples (DESIGN
CHOICE, log entry 74). -/
def Dev.rowSample (d : Dev) (r : Nat) (x : Sample) : Dev :=
  let ts := Int.ofNat (d.ringTs r)
  if ts = 0 then d
  else
    let rr := (d.ring r).anchored x.t (d.aNs * 65536 / d.ringTs r + 1)
    let ofs := (2 * (x.t - rr.phase.getD 0) + ts) / (2 * ts)
    let k := Int.ofNat rr.kBase + ofs
    let diff := x.t - rr.phase.getD 0 - ofs * ts
    let d := d.countIf (decide (ts < 4 * Int.ofNat diff.natAbs)) (Reg.hwkPhase r)
    if k < Int.ofNat rr.nextK then d.setRing r rr
    else
      let kn := k.toNat
      let j := (d.members r).idxOf x.ch
      let rr := rr.reaches kn
      let at_ := if j = 0 then x.t else rr.phase.getD 0 + ofs * ts
      let rr := if j = 0 then { rr with phase := some x.t, kBase := kn } else rr
      let opened := if rr.opened.any fun o => decide (o.k = kn)
        then rr.opened.map fun o => if o.k = kn then { o with vals := o.vals ++ [(j, x.v)] } else o
        else rr.opened ++ [⟨kn, at_, [(j, x.v)]⟩]
      let d := d.setRing r { rr with opened := opened }
      d.closeFull r opened.length

/-- Every row of a ring closed whose nearest samples are all timed before t (R95). -/
def Dev.closeRows (d : Dev) (r : Nat) (t : Int) : Dev :=
  let ts := Int.ofNat (d.ringTs r)
  if (d.ring r).phase.isNone || decide (ts = 0) || decide (t < d.rowInstant r (d.ring r).startK + ts / 2) then d
  else
    let d := d.firstRow r
    let n := ((2 * (t - d.rowInstant r (d.ring r).nextK) - ts) / (2 * ts) + 1).toNat
    (List.range n).foldl (fun e _ => e.closeRow r) d

/-- The instants of a ring's rows begin afresh after a step of network time (log entry 34). -/
def Dev.rephase (d : Dev) : Dev :=
  d.ringsOn.foldl (fun e r =>
    let rr := e.ring r
    if e.stippled r then (e.members r).foldl (fun f c => f.setStp c { f.stp c with force := true }) e
    else e.setRing r { rr with phase := none, opened := [], startK := rr.nextK, resumeK := rr.nextK, drops := [] }) d

/-! STIPPLE entries (R103 to R105) -/

/-- An entry of a member written, if the ring takes it. -/
def Dev.stpEntry (d : Dev) (r c kind : Nat) (t : Int) (v : Option Int) : Dev :=
  let (d, ok) := d.ringPut r ⟨0, 0, t, c, kind, [v]⟩
  if ok then
    let m := d.stp c
    d.setStp c { m with
      last := v.getD m.last, lastT := t, firstT := (match m.firstT with
        | some x => some x
        | none => some t),
      force := if kind = 0 then false else m.force }
  else d.settleRing r

/-- A missing run opened at position p (R105). -/
def Dev.stpMissing (d : Dev) (r c : Nat) (p : Int) : Dev :=
  let m := d.stp c
  if m.missing || m.cur.isNone then d
  else
    let d := d.setStp c { m with missing := true, force := true }
    d.stpEntry r c 2 p none

/-- A sample position of a STIPPLE ring processed; while the writer pauses, none is (R107). -/
def Dev.passed (d : Dev) (r : Nat) (t : Int) : Dev :=
  let rr := d.ring r
  if rr.paused ∨ t < rr.lastPos then d else d.setRing r { rr with lastPos := t }

/-- A member's sample on a STIPPLE ring. -/
def Dev.stpSample (d : Dev) (r : Nat) (x : Sample) : Dev :=
  let ts := Int.ofNat (d.ringTs r)
  let d := match (d.stp x.ch).cur with
    | some (_, t0) => if 3 * ts < 2 * (x.t - t0) then d.stpMissing r x.ch (t0 + ts) else d
    | none => d
  let m := d.stp x.ch
  let d := d.setStp x.ch { m with cur := some (x.v, x.t), missing := false }
  let d := if m.force ∨ d.fld (Reg.stpDband x.ch) Fld.stpDbandDeadband < (x.v - m.last).natAbs then
      d.stpEntry r x.ch 0 x.t (some x.v)
    else d
  d.passed r x.t

/-- A KEEP entry, if it is due (R104). -/
def Dev.keepEntry (d : Dev) (c : Nat) : Dev :=
  let r := d.fld (Reg.hwkChring c) Fld.hwkChringRing
  let m := d.stp c
  if d.flag (Reg.hwkChring c) Fld.hwkChringMember && d.ringOn r && d.stippled r && (d.ring r).began &&
      d.flag (Reg.stpRmode r) Fld.stpRmodeKeepMode && !m.missing then
    match m.cur with
    | some (v, t) =>
      if m.lastT + Int.ofNat (d.rd (Reg.stpRkeep r) * 65536) ≤ t then d.stpEntry r c 1 t (some v) else d
    | none => d
  else d

/-- FREE_WAIT_US of a ring with FREE_MODE = WAIT. -/
def Dev.freeWaitOf (d : Dev) (r : Nat) : Option Nat :=
  if r < 64 ∧ d.flag (Reg.hwkFree r) Fld.hwkFreeFreeMode = true then some (d.fld (Reg.hwkFree r) Fld.hwkFreeFreeWaitUs)
  else none

/-- HWK_FREE of a ring in force for its records that are not complete (R113, R114): with FREE_MODE = NONE, those whose capture has ended
complete. -/
def Dev.freeInForce (d : Dev) (r : Nat) : Dev :=
  let w := d.freeWaitOf r
  let qs := d.store.recs.filterMap fun x => if x.ring = r ∧ x.doneAt.isNone then some x.seq else none
  qs.foldl (fun e q => (e.modRecord q fun y => { y with
    freeWait := w, freeDone := y.freeDone || (w.isNone && y.endedAt.isSome) }).tryComplete q) d

/-- The ring that a live field of HWK or STP belongs to: a ring's own register, or a channel's DEADBAND. -/
def Dev.liveRing (d : Dev) (a : Nat) : Nat :=
  if Reg.stpDband 0 ≤ a ∧ a < Reg.stpDband 8192 then d.fld (Reg.hwkChring ((a - Reg.stpDband 0) / 4)) Fld.hwkChringRing
  else if a < Reg.stpRkeep 0 then (a - Reg.hwkRcfg 0) / 0x100
  else (a - Reg.stpRkeep 0) / (Reg.stpRkeep 1 - Reg.stpRkeep 0)

/-- A live field of HWK or STP in force. -/
def Dev.ringFieldSet (d : Dev) (a v : Nat) : Dev :=
  let d := d.wr a v
  if a < Reg.stpRkeep 0 ∧ a < Reg.stpDband 0 then d.freeInForce (d.liveRing a) else d

/-- A sample position of a ring at time t begun: the later of those seen so far (R114). -/
def Dev.seePosition (d : Dev) (r : Nat) (t : Int) : Dev :=
  d.setRing r { d.ring r with seen := some (match (d.ring r).seen with
    | some u => if u < t then t else u
    | none => t) }

/-- Whether time t lies in a sample position of a ring after every one it has taken: half a sample period after the latest or more. -/
def Dev.newPosition (d : Dev) (r : Nat) (t : Int) : Bool :=
  match (d.ring r).seen with
  | some u => decide (u < t) && decide (Int.ofNat (d.ringTs r) ≤ 2 * (t - u))
  | none => true

/-- The accepted live writes of a ring that wait for its next sample position take effect, oldest first (R114). -/
def Dev.livesInForce (d : Dev) (r : Nat) : Dev :=
  let now := d.acq.pend.reverse.filter fun p => decide (d.liveRing p.1 = r)
  let d' := { d with acq := { d.acq with pend := d.acq.pend.filter fun p => decide (d.liveRing p.1 ≠ r) } }
  now.foldl (fun e p => e.ringFieldSet p.1 p.2) d'

/-- A sample or a missing position of a member at time t: where it begins the ring's next position, the live writes that wait for that take
effect. -/
def Dev.ringLives (d : Dev) (r : Nat) (t : Int) : Dev := (if d.newPosition r t then d.livesInForce r else d).seePosition r t

/-- An accepted live write of a HWK or STP field: it waits for the next sample position of a ring that writes, and takes effect at once for
one that does not (DESIGN CHOICE, log entry 40). -/
def Dev.ringFieldWritten (d : Dev) (a v : Nat) : Dev :=
  if (d.ring (d.liveRing a)).began then { d with acq := { d.acq with pend := (a, v) :: d.acq.pend } } else d.ringFieldSet a v

/-- A delivered sample on its channel's ring (R93, R114). -/
def Dev.ringSample (d : Dev) (x : Sample) : Dev :=
  let r := d.fld (Reg.hwkChring x.ch) Fld.hwkChringRing
  if d.flag (Reg.hwkChring x.ch) Fld.hwkChringMember && d.ringOn r && (d.ring r).began then
    let d := d.ringLives r x.t
    if d.stippled r then d.stpSample r x else d.rowSample r x
  else d

/-- Missing positions of an admitted event on the rings (R94, R105), and rows of its window closed. -/
def Dev.ringAdmit (d : Dev) (n : Nat) (missing : List (Nat × Nat × Int)) : Dev :=
  let d := missing.foldl (fun e x =>
    let r := e.fld (Reg.hwkChring x.2.1) Fld.hwkChringRing
    let e := if e.flag (Reg.hwkChring x.2.1) Fld.hwkChringMember && e.ringOn r && (e.ring r).began then e.ringLives r x.2.2 else e
    if e.flag (Reg.hwkChring x.2.1) Fld.hwkChringMember && e.ringOn r && e.stippled r && (e.ring r).began &&
        (match (e.stp x.2.1).cur with
          | some (_, t) => decide (t < x.2.2)
          | none => false) then
      (e.stpMissing r x.2.1 x.2.2).passed r x.2.2
    else e) d
  d.ringsOn.foldl (fun e r =>
    if (e.ring r).began && !e.stippled r then e.closeRows r (Int.ofNat (e.tSample n * 65536)) else e) d

/-- Every enabled ring begins writing (R95). -/
def Dev.ringsBegin (d : Dev) : Dev := d.ringsOn.foldl (fun e r => e.setRing r { e.ring r with began := true }) d

/-! Captures (R97 to R101, R106) -/

/-- A record begun with the parts that every record of an event shares. -/
def Dev.newRecord (d : Dev) (e : Ev) (w c : BitVec 64) (ring mode : Nat) (prov : Nat) : RecordRec :=
  let hits := (e.outs.filter fun x => x.2 = .accept).map Prod.fst
  { seq := d.store.nextSeq, event := e.n, ring := ring, trig := d.tSample e.n, late := dwLate w, completion := e.completion, skew := !e.skews.isEmpty,
    degraded := dwDegraded w, dec := w, comp := c, hits := hits, prov := prov, pre := 0, post := 0, mode := mode,
    summary := decide (mode = 0xFF ∧ ring < 64), truncated := false, shortPre := false, freeInc := false, captured := 0,
    preCaptured := 0, phases := e.phases, members := [], ts := 0, width := 0, items := [], appendix := [], freeDone := false, freeWait := none,
    endedAt := none, copied := false, doneAt := none, bytes := [], pages := [], bad := [], sent := false }

/-- A record put into the store's hands under its sequence number. -/
def Dev.addRecord (d : Dev) (x : RecordRec) : Dev :=
  { d with store := { d.store with recs := d.store.recs ++ [x], nextSeq := d.store.nextSeq + 1 } }

/-- A free-class block for a record that takes one: its header and data, with the pages it needs (R113, R387). -/
def Dev.putAppendix (d : Dev) (q : Nat) (producer : BitVec 16) (data : List Byte) : Dev :=
  match d.record q with
  | none => d
  | some x =>
    let len := 8 + alignUp 8 data.length
    let blk := leBytes 8 (len + producer.toNat * 2 ^ 32) ++ takeBytes (len - 8) data
    let total := x.appendix.length + len
    match d.takePool (ceilDiv total 4096 - ceilDiv x.appendix.length 4096) with
    | some (d, ps) => d.modRecord q fun y => { y with appendix := y.appendix ++ blk, pages := y.pages ++ ps }
    | none => (d.count Reg.recAppxDrop).modRecord q fun y => { y with freeInc := true }

/-- A record in the store's hands, with the device's own appendix block, if it writes one (R278). -/
def Dev.beginRecord (d : Dev) (x : RecordRec) (own : Option (List Byte)) : Dev :=
  match own with
  | some bs => (d.addRecord x).putAppendix x.seq 0xFFFF bs
  | none => d.addRecord x

/-- The page of a record with no data, which a record reduced to a summary does not take from the pool. -/
def Dev.summaryPage (d : Dev) (reduced : Bool) : Option (Dev × List (Nat × Nat)) := if reduced then none else d.takePool 1

/-- A record with no data, whose capture counts as ended (R99, R386): one page of the pool, or of the summary reserve
for a record reduced to a summary, or the record is lost. -/
def Dev.summaryRecord (d : Dev) (x : RecordRec) (reduced : Bool) (own : Option (List Byte)) : Dev :=
  let x := { x with mode := 0xFF, copied := true, freeWait := d.freeWaitOf x.ring }
  match d.summaryPage reduced with
  | some (d, ps) => ((d.beginRecord { x with pages := ps } own).captureEnded x.seq).tryComplete x.seq
  | none =>
    let d := d.count Reg.recDropped
    match d.takeReserve with
    | some (d, ps) =>
      ((d.beginRecord { x with pages := ps, summary := true } own).captureEnded x.seq).tryComplete x.seq
    | none => d.count Reg.recLost

/-- The rate frame's count of records dropped in the running interval (Table 8.6). -/
def Dev.countDropped (before d : Dev) : Dev :=
  let n := d.rd Reg.recDropped - before.rd Reg.recDropped
  if n = 0 then d else d.rfMod (d.netNs / 1000000) fun a => { a with dropped := a.dropped + n }

/-- A capture on a HAWK ring: the last PRE rows before T_sample and the first POST rows from it on, by the instants of the rows stored, and else by
the grid of the rows to come. Rows from before writing began do not
exist; nor, for a capture whose boundary lies after it, do those from before writing last resumed: their want makes SHORT_PRE, not TRUNCATED
(R98, R101). Of a window with dropped rows, the run that contains the boundary is held (R100). -/
def Dev.hawkCapture (d : Dev) (r : Nat) (x : RecordRec) : Capture × RecordRec :=
  let rr := d.ring r
  let ts := Int.ofNat (d.ringTs r)
  let trig := Int.ofNat (x.trig * 65536)
  let k0 := match rr.phase with
    | none => Int.ofNat rr.nextK
    | some p => Int.ofNat rr.kBase + (trig - p + ts - 1) / ts
  let all := ((d.ringBuf (d.ringStack r)).filter fun e => decide (e.1 = r)).map Prod.snd ++ rr.items
  let k0 := all.foldl (fun (m : Int) y => if y.t < trig ∧ m ≤ Int.ofNat y.k then Int.ofNat (y.k + 1) else m) k0
  let k0 := all.foldl (fun (m : Int) y => if trig ≤ y.t ∧ Int.ofNat y.k < m then Int.ofNat y.k else m) k0
  let kb := if k0 < Int.ofNat rr.startK then rr.startK else k0.toNat
  let first := if rr.resumeK ≤ kb then rr.resumeK else rr.startK
  let want := if kb - x.pre < first then first else kb - x.pre
  let preDrops := rr.drops.filter fun k => decide (want ≤ k) && decide (k < kb)
  let postDrops := rr.drops.filter fun k => decide (kb ≤ k) && decide (k < kb + x.post)
  let lo := preDrops.foldl (fun m k => if m < k + 1 then k + 1 else m) want
  let cut := listMin postDrops
  (⟨x.seq, lo, kb, kb + x.post, 0, 0, [], lo, cut, false⟩,
   { x with shortPre := decide (kb < first + x.pre), truncated := !preDrops.isEmpty || !postDrops.isEmpty })

/-- A capture on a STIPPLE ring: its window in time and the opening entry of each member (R106). With an entry of its window dropped it ends
at once, at the last sample position processed before the first such entry, as R107 ends the captures that run (R223). -/
def Dev.stippleCapture (d : Dev) (r : Nat) (x : RecordRec) : Capture × RecordRec :=
  let rr := d.ring r
  let ts := Int.ofNat (d.ringTs r)
  let trig := Int.ofNat (x.trig * 65536)
  let tLo := trig - Int.ofNat x.pre * ts
  let tHi := trig + Int.ofNat x.post * ts
  let all := ((d.ringBuf (d.ringStack r)).filter fun e => decide (e.1 = r)).map Prod.snd ++ rr.items
  let opening (c : Nat) : Option Nat :=
    (all.filter fun y => decide (y.ch = c) && decide (y.t < tLo)).foldl (fun (m : Option RingItem) y =>
      match m with
      | some z => if z.t < y.t ∨ (z.t = y.t ∧ z.w < y.w) then some y else some z
      | none => some y) none |>.map RingItem.w
  let opens := (d.members r).filterMap opening
  let short := (d.members r).any fun c => (opening c).isNone && (match (d.stp c).firstT with
    | some t => decide (t < tLo)
    | none => false)
  let drops := rr.dropT.filter fun u => decide (tLo ≤ u.1) && decide (u.1 < tHi)
  let lost := !drops.isEmpty
  let tW := drops.foldl (fun m u => if u.2 < m then u.2 else m) rr.lastPos
  let held : Nat := if lost then heldPositions x.pre x.post (d.ringTs r) tLo tW else x.pre + x.post
  let tEnd := if lost = true ∧ tW + 1 < tHi then tW + 1 else tHi
  let first := (all.filter fun y => (decide (tLo ≤ y.t) && decide (y.t < tEnd)) || opens.contains y.w).map RingItem.w
  (⟨x.seq, 0, 0, 0, tLo, tEnd, opens, (listMin first).getD rr.written, none, lost⟩,
   { x with shortPre := short, truncated := lost, captured := held, preCaptured := if held < x.pre then held else x.pre })

/-- A capture requested on a ring at the release of an event (R97, R99, R386). -/
def Dev.requestCapture (d : Dev) (e : Ev) (w c : BitVec 64) (prov r : Nat) (own : Option (List Byte)) : Dev :=
  let rr := d.ring r
  let stip := d.stippled r
  let x := d.newRecord e w c r (bit01 stip) prov
  let x := { x with
    pre := d.rd (Reg.hwkPre r), post := d.rd (Reg.hwkPost r), members := d.members r, ts := d.ringTs r,
    width := d.ringWidth r, freeWait := d.freeWaitOf r }
  let d := d.count (Reg.hwkCaptures r)
  if 16 ≤ rr.caps.length then
    (d.count (Reg.hwkBusy r)).summaryRecord { x with mode := 0xFF, summary := true } false own
  else
    let k := (d.measuredChannels r).length
    let n := if stip then d.rd (Reg.stpRentries r) * 16 else (x.pre + x.post) * d.itemBytes r
    match d.takePool (ceilDiv (recordLen k x.members.length n) 4096) with
    | none => d.summaryRecord { x with mode := 0xFF, summary := true } true own
    | some (d, ps) =>
      let (cap, x) := if stip then d.stippleCapture r x else d.hawkCapture r x
      let d := d.beginRecord { x with pages := ps } own
      (d.setRing r { rr with caps := rr.caps ++ [cap] }).settleRing r

/-- The record of an accepted event that requests no capture (R110). -/
def Dev.plainRecord (d : Dev) (e : Ev) (w c : BitVec 64) (prov : Nat) (own : Option (List Byte)) : Dev :=
  d.summaryRecord (d.newRecord e w c 255 0xFF prov) false own

/-- The end of STIPPLE captures of a ring whose time has come (R106). -/
def Dev.stippleEnd (d : Dev) (r : Nat) : Dev :=
  if d.stippled r then
    let rr := d.ring r
    let now := Int.ofNat d.net16
    let a := Int.ofNat (d.aNs * 65536)
    let caps := rr.caps.map fun c => if now < c.tHi + a then c else { c with ended := true }
    (d.setRing r { rr with caps := caps }).settleRing r
  else d

/-- Where an item of a ring lies in its region, in bytes. -/
def Dev.itemAt (d : Dev) (r : Nat) (x : RingItem) : Nat :=
  x.w % d.ringCap r * d.itemBytes r

/-- Burst b of a ring's region holds a byte of an item. -/
def Dev.burstHits (d : Dev) (r : Nat) (x : RingItem) (b : Nat) : Bool :=
  decide (32 * b < d.itemAt r x + d.itemBytes r) && decide (d.itemAt r x < 32 * b + 32)

/-- The rows or entries of a ring's oldest outstanding capture that are still to be copied out. -/
def Dev.toCopy (d : Dev) (r : Nat) : List RingItem :=
  match (d.ring r).caps with
  | [] => []
  | c :: _ => (d.ring r).items.reverse.filter fun x => c.protects (d.stippled r) x

/-- The ring with the oldest outstanding capture among those of a stack that have something to copy out (R100, R221). -/
def Dev.copyWaits (d : Dev) (s : Nat) : Option Nat :=
  let rs := (List.range 64).filter fun r => decide (d.ringStack r = s) && !(d.toCopy r).isEmpty
  let seqOf (r : Nat) : Nat := (((d.ring r).caps.head?).map fun c => c.seq).getD 0
  (listMin (rs.map seqOf)).bind fun m => rs.find? fun r => decide (seqOf r = m)

/-- Up to n rows or entries of the oldest capture of a ring copied out: corrected of the bursts read were corrected, and those of the ring's
region numbered in bad are uncorrectable (R100, R227, R228, Table 6.8). -/
def Dev.copyOut (d : Dev) (r n corrected : Nat) (bad : List Nat) : Dev :=
  let rr := d.ring r
  let stip := d.stippled r
  match rr.caps with
  | [] => d
  | c :: rest =>
    let down := decide (d.stackState (d.ringStack r) ≠ skUp)
    let ready := (d.toCopy r).take n
    let isBad (i : Nat) : Bool := down || ((ready[i]?).map fun x => bad.any (d.burstHits r x)).getD false
    let got := (List.range ready.length).filterMap fun i =>
      match ready[i]? with
      | some x => if isBad i then (if stip then none else some { x with vals := x.vals.map fun _ => none }) else some x
      | none => none
    let nbad := ((List.range ready.length).filter isBad).length
    let next := match ready.getLast? with
      | some x => (if stip then x.w else x.k) + 1
      | none => c.next
    let d := d.modRecord c.seq fun x => { x with
      items := x.items ++ got,
      captured := if stip then x.captured else x.captured + ready.length,
      preCaptured := if stip then x.preCaptured
        else x.preCaptured + (ready.filter fun y => decide (y.k < c.kb)).length }
    let d := d.setRing r { rr with caps := { c with next := next } :: rest }
    let d := if stip then d.countN Reg.stpDropped nbad else d
    let ues := bad.filter fun b => ready.any fun x => d.burstHits r x b
    let d := if down then d else (d.countN (Reg.stkCe (d.ringStack r)) corrected).stackUes (d.ringStack r) ues.length
    (d.settleRing r).resumeRing r

/-! Free-class results (R113, R387) -/

/-- A free-class result block for a record. -/
def Dev.appendBlock (d : Dev) (q : Nat) (producer : BitVec 16) (data : List Byte) (last : Bool) : Dev :=
  match d.record q with
  | none =>
    match d.store.past.find? fun p => decide (p.1 = q) with
    | some (_, r) => d.countIf (decide (r < 64)) (Reg.hwkLateArrival r)
    | none => d
  | some x =>
    if x.doneAt.isSome || x.freeDone then d.countIf (decide (x.ring < 64)) (Reg.hwkLateArrival x.ring)
    else
      let d' := d.putAppendix q producer data
      let d' := if last then d'.modRecord q (fun y => { y with freeDone := true }) else d'
      d'.tryComplete q

/-- FREE_WAIT_US after its capture ended, a record completes with FREE_INCOMPLETE; an arrival that resolves together with the
expiry comes first (R34). -/
def Dev.freeExpire (d : Dev) (q : Nat) (tie : Bool) : Dev :=
  match d.record q with
  | none => d
  | some x =>
    match x.freeWait, x.endedAt with
    | some us, some t =>
      if tie = false ∧ x.doneAt.isNone ∧ x.freeDone = false ∧ t + us * 1000 ≤ d.devNs then
        (d.modRecord q fun y => { y with freeDone := true, freeInc := true }).tryComplete q
      else d
    | _, _ => d

end Sys2Proof.Machine
end

