-- ==== Sys2Proof/Machine/Mesh.lean ====
section
/-!
DEFINITION. The device group: mesh ports, HELLO, contributions flooded and detoured, host channels, and
HSTATE ("The device group, the host link and the record store").
-/

namespace Sys2Proof.Machine

open Sys2Proof

/-! Ports (Tables 10.1, 10.2) -/

/-- A mesh port beside MP_CFG. -/
def Dev.port (d : Dev) (p : Nat) : PortRec := SMap.get (fun _ => ⟨0, none⟩) d.msh.ports p

/-- A mesh port changed. -/
def Dev.setPort (d : Dev) (p : Nat) (r : PortRec) : Dev :=
  { d with msh := { d.msh with ports := SMap.set (fun _ => ⟨0, none⟩) d.msh.ports p r } }

/-- Lane j of mesh port p. -/
def meshLane (p j : Nat) : LaneId := ⟨(64 + 4 * p + j) % 88, Nat.mod_lt _ (by decide)⟩

/-- The lanes of a port in SERVICE, in ascending order. -/
def Dev.serviceLanes (d : Dev) (p : Nat) : List Nat :=
  (List.range 4).filter fun j => decide (d.laneState (meshLane p j) = lsService)

/-- A port follows its lanes (rows 1 and 5, R527): DOWN with no lane in SERVICE, HELLO_WAIT with one. -/
def Dev.portSync (d : Dev) (p : Nat) : Dev :=
  let st := d.portState p
  match d.serviceLanes p with
  | [] => if st = psWait ∨ st = psUp ∨ st = psMismatch then
      ((d.setPortState p psDown).setFld (Reg.mpCfg p) Fld.mpCfgLead 0).count (Reg.mpDowns p)
    else d
  | j :: _ =>
    let d := if st = psOff then d else d.setFld (Reg.mpCfg p) Fld.mpCfgLead j
    if st = psDown then d.setPortState p psWait else d

/-- The port of a lane follows it, for a mesh lane. -/
def Dev.laneSync (d : Dev) (l : LaneId) : Dev := if l.val < 64 then d else d.portSync ((l.val - 64) / 4)

/-- All ports follow their lanes. -/
def Dev.portsSync (d : Dev) : Dev := (List.range 6).foldl Dev.portSync d

/-- Row 6: a used port at start-up step 9. -/
def Dev.portEnable (d : Dev) (p : Nat) : Dev :=
  if d.portState p = psOff ∧ d.flag (Reg.mpCfg p) Fld.mpCfgUsed = true ∧ d.fit (28 + p) = true then
    d.setPortState p psDown
  else d

/-! HELLO (R359, Table 10.4) -/

/-- The HELLO payload of a port. -/
def Dev.helloBits (d : Dev) (p : Nat) : Nat :=
  d.devId * 2 ^ 114 + p * 2 ^ 111 + d.rd Reg.mshTopoDigest * 2 ^ 79 + d.tev % 2 ^ 17 * 2 ^ 62 +
    d.lNs % 2 ^ 13 * 2 ^ 49 + d.gNs % 2 ^ 13 * 2 ^ 36 + bit01 d.group * 2 ^ 35

/-- A HELLO sent on a port's lead lane, one in every ms of device time. -/
def Dev.sendHello (d : Dev) (p : Nat) : Dev :=
  let st := d.portState p
  let ms := d.devNs / 1000000
  if (st = psWait ∨ st = psUp ∨ st = psMismatch) ∧ (d.port p).sentMs ≠ some ms then
    (d.setPort p { d.port p with sentMs := some ms }).sendPort (p + 1) 0x40 (d.helloBits p)
  else d

/-- Whether a received HELLO matches (R359). -/
def Dev.helloMatches (d : Dev) (p b : Nat) : Bool :=
  decide (bitsOf b 114 6 = d.fld (Reg.mpCfg p) Fld.mpCfgPartnerId) &&
    decide (bitsOf b 111 3 = d.fld (Reg.mpCfg p) Fld.mpCfgPartnerPort) &&
    decide (bitsOf b 79 32 = d.rd Reg.mshTopoDigest) && decide (bitsOf b 62 17 = d.tev) &&
    decide (bitsOf b 49 13 = d.lNs) && decide (bitsOf b 36 13 = d.gNs) && (bitAt b 35 == d.group)

/-- A HELLO received (rows 3 and 4); where a lower-numbered row is triggered in the same block time (tie), the HELLO moves nothing. -/
def Dev.hello (d : Dev) (p b : Nat) (tie : Bool) : Dev :=
  let st := d.portState p
  if st = psWait ∨ st = psUp ∨ st = psMismatch then
    if d.helloMatches p b then
      let d := (d.count (Reg.mpHelloRx p)).setPort p { d.port p with matched := d.devNs }
      if st = psWait ∧ tie = false then d.setPortState p psUp else d
    else if st = psMismatch ∨ tie = true then d
    else
      let before := d.rd (Reg.mpCfg p)
      ((d.setPortState p psMismatch).count (Reg.mpMismatch p)).logInternal (Reg.mpCfg p) before
        (bitsOf b 114 6 + bitsOf b 111 3 * 64) .refused
  else d

/-- 4 ms without a matching HELLO (row 2); a HELLO that resolves together with it wins, as row 1 does (tie; R34, R360). -/
def Dev.keepaliveExpire (d : Dev) (p : Nat) (tie : Bool) : Dev :=
  if tie = false ∧ d.portState p = psUp ∧ (d.port p).matched + 4000000 ≤ d.devNs then
    (d.setPortState p psWait).count (Reg.mpKeepLoss p)
  else d

/-! Contributions (R363 to R366) -/

/-- A contribution as CONTRIB bits [119:30] (Table 10.4). -/
def contribBits (n : Nat) (c : Contribution) : Nat :=
  let w := c.dec.toNat
  let k := c.comp.toNat
  c.dev * 2 ^ 114 + n % 2 ^ 24 * 2 ^ 90 + bitsOf w 48 1 * 2 ^ 89 + bitsOf w 49 1 * 2 ^ 88 + bitsOf w 50 1 * 2 ^ 87 +
    bitsOf w 51 1 * 2 ^ 86 + bitsOf k 30 1 * 2 ^ 85 + bitsOf k 29 1 * 2 ^ 84 + bitsOf w 54 9 * 2 ^ 75 +
    bitsOf k 0 14 * 2 ^ 61 + bitsOf k 20 8 * 2 ^ 53 + bitsOf k 48 16 * 2 ^ 37

/-- The contribution to event n that CONTRIB bits spell. -/
def contribOf (n b : Nat) : Contribution :=
  let dev := bitsOf b 114 6
  ⟨dev, decisionWord n (bitAt b 89) (bitAt b 88) (bitAt b 87) (bitAt b 86) false false (bitsOf b 75 9),
   companionWord (bitsOf b 61 14) dev (bitsOf b 53 8) (bitAt b 89) (bitAt b 84) (bitAt b 85) n 1 (bitsOf b 37 16)⟩

/-- CONTRIB bits with the detour fields. -/
def withDetour (b dest hops : Nat) : Nat := b / 2 ^ 37 * 2 ^ 37 + 2 ^ 36 + dest * 2 ^ 30 + hops * 2 ^ 27

/-- CONTRIB bits with the detour fields clear. -/
def noDetour (b : Nat) : Nat := b / 2 ^ 37 * 2 ^ 37

/-- The unicast port toward a device: PRIMARY, or ALT when PRIMARY is not UP; none when neither is (R366). -/
def Dev.routeTo (d : Dev) (t : Nat) : Option Nat :=
  let p := d.fld (Reg.mshRoute t) Fld.mshRoutePrimary
  let a := d.fld (Reg.mshRoute t) Fld.mshRouteAlt
  if d.portUp p then some p else if d.portUp a then some a else none

/-- The lane of a port that a contribution takes: the lead lane while it has a free slot, else any lane in SERVICE that has one (R358). -/
def Dev.contribLane (d : Dev) (p : Nat) : Option LaneId :=
  match d.portLane (p + 1) with
  | some l =>
    if d.laneFree l then some l
    else match (d.serviceLanes p).find? fun j => d.laneFree (meshLane p j) with
      | some j => some (meshLane p j)
      | none => some l
  | none => none

/-- A contribution block sent on a port. -/
def Dev.sendContribBlock (d : Dev) (p b : Nat) : Dev :=
  match d.contribLane p with
  | some l => d.sendBlock l true (ctlPayload 0x41 b)
  | none => d

/-- A contribution block sent along a detour, or dropped (R366). -/
def Dev.detour (d : Dev) (b dest hops : Nat) : Dev :=
  if d.fld Reg.mshId Fld.mshIdDetourHops < hops then d.count Reg.mshDetourDrop
  else
    match d.routeTo dest with
    | some p => (d.count Reg.mshDetours).sendContribBlock p (withDetour b dest hops)
    | none => d.count Reg.mshDetourDrop

/-- A contribution block sent on every port that FWD names for its source (R363, R364). -/
def Dev.flood (d : Dev) (src b : Nat) : Dev :=
  let ports := d.fld (Reg.mshFwd src) Fld.mshFwdPorts
  (List.range 6).foldl (fun e p =>
    if bitAt ports p then
      if e.portUp p then e.sendContribBlock p (noDetour b)
      else e.detour b (e.fld (Reg.mpCfg p) Fld.mpCfgPartnerId) 0
    else e) d

/-- The member's own contribution sent at its local deadline, each block counted (R363). -/
def Dev.sendContrib (d : Dev) (n : Nat) (c : Contribution) : Dev :=
  let sent := popCount 6 (d.fld (Reg.mshFwd d.devId) Fld.mshFwdPorts)
  (d.countN Reg.mshContribTx sent).flood d.devId (contribBits n c)

/-- Whether a device is a declared member. -/
def Dev.isMember (d : Dev) (i : Nat) : Bool := bitAt (d.rd Reg.mshMembersLo + 2 ^ 32 * d.rd Reg.mshMembersHi) i

/-- The event whose number has the given low 24 bits: a formed event still in its slot. -/
def Dev.eventLow24 (d : Dev) (x : Nat) : Option Ev :=
  (d.scr.slots.filterMap Prod.snd).find? fun e => decide (e.n % 2 ^ 24 = x)

/-- A CONTRIB received on a port (R364 to R366). -/
def Dev.contrib (d : Dev) (p b : Nat) : Dev :=
  if d.portUp p = false then d
  else
    let src := bitsOf b 114 6
    if d.isMember src = false ∨ d.group = false then d.count Reg.mshContribBad
    else if bitAt b 36 ∧ bitsOf b 30 6 ≠ d.devId then d.detour b (bitsOf b 30 6) (bitsOf b 27 3 + 1)
    else
      match d.eventLow24 (bitsOf b 90 24) with
      | none => d.count Reg.mshContribLate
      | some e =>
        if src = d.devId ∨ e.heard.any (fun c => decide (c.dev = src)) = true then d.count Reg.mshDup
        else if e.closed = true ∨ (d.relTime e.n - 12) * 65536 < d.net16 then d.count Reg.mshContribLate
        else
          ((d.putEv { e with heard := e.heard ++ [contribOf e.n b] }).count Reg.mshContribRx).flood src b

/-! Host channels (R362) -/

/-- A host channel. -/
def Dev.chan (d : Dev) (t : Nat) : HostChan := SMap.get (fun _ => HostChan.init) d.msh.chans t

/-- A host channel changed. -/
def Dev.setChan (d : Dev) (t : Nat) (c : HostChan) : Dev :=
  { d with msh := { d.msh with chans := SMap.set (fun _ => HostChan.init) d.msh.chans t c } }

/-- The anchor's device id, and whether this device is the anchor. -/
def Dev.anchor (d : Dev) : Nat := d.fld Reg.mshId Fld.mshIdAnchor
/-- IS_ANCHOR. -/
def Dev.isAnchor (d : Dev) : Bool := decide (d.anchor = d.devId)

/-- A message's control block (Table 10.5). -/
def hostBits (src dst len seq body : Nat) : Nat :=
  src * 2 ^ 114 + dst * 2 ^ 108 + len * 2 ^ 99 + seq % 2 ^ 16 * 2 ^ 83 + body % 2 ^ 83

/-- A message and its data blocks sent on a port (R358). -/
def Dev.sendMessage (d : Dev) (p ty b : Nat) (data : List (BitVec 128)) : Dev :=
  let d := d.sendPort (p + 1) ty b
  match d.portLane (p + 1) with
  | some l => data.foldl (fun e x => e.sendBlock l false x) d
  | none => d

/-- A host message sent on the unicast route, if there is one UP. -/
def Dev.sendRouted (d : Dev) (m : HostMsg) : Dev :=
  match d.routeTo m.dst with
  | some p => d.sendMessage p m.ty (hostBits d.devId m.dst m.data.length m.seq m.body) m.data
  | none => d

/-- Waiting messages sent while fewer than 256 are unacknowledged. -/
def Dev.pumpChan (d : Dev) (t : Nat) : Nat → Dev
  | 0 => d
  | n + 1 =>
    let c := d.chan t
    match c.queue with
    | [] => d
    | m :: rest =>
      if c.unacked.length < 256 then
        let since := if c.unacked.isEmpty then d.devNs else c.since
        ((d.setChan t { c with queue := rest, unacked := c.unacked ++ [m], since := since }).sendRouted m).pumpChan t n
      else d

/-- A message put on the channel to a peer: it takes the next SEQ, which is the answer. -/
def Dev.hostSend (d : Dev) (t ty body : Nat) (data : List (BitVec 128)) (delivers : Option Nat) : Dev × Nat :=
  let c := d.chan t
  let m : HostMsg := ⟨ty, t, c.nextSeq % 2 ^ 16, body, data, delivers⟩
  ((d.setChan t { c with nextSeq := c.nextSeq + 1, queue := c.queue ++ [m] }).pumpChan t 256, c.nextSeq % 2 ^ 16)

/-- After 50 µs with no acknowledgement, the messages are sent again from the oldest (R362). -/
def Dev.hostResend (d : Dev) (t : Nat) : Dev :=
  let c := d.chan t
  if c.unacked.isEmpty = false ∧ c.since + 50000 ≤ d.devNs then
    let d := (d.setChan t { c with since := d.devNs }).count Reg.mshHostResend
    c.unacked.foldl Dev.sendRouted d
  else d

/-- An ACK sent for accepted messages (R362). -/
def Dev.sendAck (d : Dev) (t : Nat) : Dev :=
  let c := d.chan t
  match c.owed with
  | none => d
  | some _ =>
    match d.routeTo t with
    | some p => (d.setChan t { c with owed := none }).sendMessage p 0x49
        (hostBits d.devId t 0 0 (c.expect % 2 ^ 16 * 2 ^ 67)) []
    | none => d

/-- The ACKs of messages accepted 1 µs of device time ago (R362). -/
def Dev.acksDue (d : Dev) : Dev :=
  (d.msh.chans.map Prod.fst).foldl (fun e t => match (e.chan t).owed with
    | some x => if x + 1000 ≤ e.devNs then e.sendAck t else e
    | none => e) d

/-- A message received on a port: one for another device is sent on along its route; the next one expected on its channel is
accepted, any other discarded and counted. The answer says whether it is accepted here. -/
def Dev.hostReceive (d : Dev) (p ty b : Nat) (data : List (BitVec 128)) : Dev × Bool :=
  if d.portUp p = false then (d, false)
  else
    let src := bitsOf b 114 6
    let dst := bitsOf b 108 6
    if dst ≠ d.devId then
      (match d.routeTo dst with
        | some q => d.sendMessage q ty b data
        | none => d, false)
    else
      let c := d.chan src
      if bitsOf b 83 16 = c.expect % 2 ^ 16 then
        (d.setChan src { c with
          expect := c.expect + 1, owed := (match c.owed with
            | some t => some t
            | none => some d.devNs) }, true)
      else (d.count Reg.mshHostDiscard, false)

/-- The messages that an ACK of the next SEQ expected frees: those before it. -/
def ackFrees (next : Nat) : List HostMsg → List HostMsg × List HostMsg
  | [] => ([], [])
  | m :: ms =>
    if (next + 2 ^ 16 - m.seq - 1) % 2 ^ 16 < 256 then
      let r := ackFrees next ms
      (m :: r.1, r.2)
    else ([], m :: ms)

end Sys2Proof.Machine
end

