-- ==== Sys2Proof/Machine/Host.lean ====
section
/-!
DEFINITION. The host link and host rings: host-memory accesses, vectors, polls, descriptors, fragment chains,
packed rings, expiry, and link and power events ("The host link", "Host rings", "The record store").
-/

namespace Sys2Proof.Machine

open Sys2Proof

/-! Host memory (R369, R374, R379) -/

/-- Bytes as 16-byte data blocks, lowest byte first. -/
def toBlocks (bs : List Byte) : List (BitVec 128) :=
  (List.range (ceilDiv bs.length 16)).map fun i => BitVec.ofNat 128 (leAt bs (16 * i) 16)

/-- Data blocks as bytes. -/
def ofBlocks (xs : List (BitVec 128)) : List Byte := (xs.map fun x => leBytes 16 x.toNat).flatten

/-- Whether host-memory accesses and vectors may be issued (R374). -/
def Dev.hostUp (d : Dev) : Bool :=
  decide (d.fld Reg.hstLink Fld.hstLinkRate ≠ 0) && !d.flag Reg.hstLink Fld.hstLinkD3hot && !(d.isAnchor && d.hst.perst)

/-- The BODY of a DMAW or DMAR: address, RO, byte count. -/
def dmaBody (addr : Nat) (ro : Bool) (n : Nat) : Nat := addr % 2 ^ 64 * 2 ^ 19 + bit01 ro * 2 ^ 18 + n % 2 ^ 13 * 2 ^ 5

/-- BAR0's size, Vendor ID, and the vectors of MSI-X (Table 10.7). -/
def barSize : Nat := 2 ^ 30

/-- The configuration space of the anchor's endpoint, as far as Table 10.7 gives its contents: Vendor ID, Device ID, the Device Serial Number, BAR0's
base, Relaxed Ordering, and the MSI-X vectors, enable and function mask. -/
structure PcieSpace where
  vendor : Nat
  device : Nat
  serial : Nat
  bar : Nat
  relaxed : Bool
  vectors : Nat
  msixOn : Bool
  msixMask : Bool
  deriving DecidableEq, Repr

/-- The configuration space of this device: only the anchor has one (R369). -/
def Dev.configSpace (d : Dev) : Option PcieSpace :=
  if d.isAnchor then
    some ⟨0x5A56, d.fld Reg.glbId Fld.glbIdPart, d.rd Reg.undSerial0 + 2 ^ 32 * d.rd Reg.undSerial1, d.hst.cfg.bar * barSize, d.hst.cfg.relaxed,
      2048, d.hst.cfg.msixOn, d.hst.cfg.msixMask⟩
  else none

/-- The host configures the endpoint once its link is up: what it writes is open (log entry 71). -/
def Dev.configured (d : Dev) : Dev :=
  let (b, d) := d.open_ .pcieConfig
  { d with hst := { d.hst with cfg := ⟨b / 8 % 2 ^ 34, bitAt b 0, bitAt b 1, bitAt b 2⟩ } }

/-- A record delivered: counted, its pages returned. -/
def Dev.deliver (d : Dev) (q : Nat) : Dev :=
  match d.record q with
  | none => d
  | some _ => (d.dropRecord q).count Reg.recDelivered

/-- A word of the MSI-X table at reset: every vector is masked (log entry 13). -/
def msixReset (i : Nat) : Nat := if i % 4 = 3 then 1 else 0

/-- Whether a vector goes out when it is raised: MSI-X enabled, neither function nor vector masked (log entry 71), and the link up (R374). -/
def Dev.msixOpen (d : Dev) (v : Nat) : Bool :=
  d.hostUp && d.hst.cfg.msixOn && !d.hst.cfg.msixMask && decide (SMap.get msixReset d.hst.msix (4 * v + 3) % 2 = 0)

/-- A vector raised through the anchor's table: sent, or pending. -/
def Dev.raiseMsix (d : Dev) (v : Nat) : Dev :=
  let w (i : Nat) : Nat := SMap.get msixReset d.hst.msix (4 * v + i)
  if d.msixOpen v then d.emit (.msix (w 0 + 2 ^ 32 * w 1) (w 2))
  else { d with hst := { d.hst with pba := if d.hst.pba.contains v then d.hst.pba else v :: d.hst.pba } }

/-- Pending vectors that may go out now sent. -/
def Dev.pumpMsix (d : Dev) : Dev :=
  d.hst.pba.foldl (fun e v =>
    if e.msixOpen v then ({ e with hst := { e.hst with pba := e.hst.pba.filter fun x => decide (x ≠ v) } }).raiseMsix v else e) d

/-- A word of the MSI-X table written: an unmasked pending vector is sent (R374). -/
def Dev.writeMsix (d : Dev) (i v : Nat) : Dev :=
  let d := { d with hst := { d.hst with msix := SMap.set msixReset d.hst.msix i v } }
  if d.hst.pba.contains (i / 4) && d.msixOpen (i / 4) then
    ({ d with hst := { d.hst with pba := d.hst.pba.filter fun x => decide (x ≠ i / 4) } }).raiseMsix (i / 4)
  else d

/-! The anchor's link (R372) -/

/-- A message issued at the anchor's link: posted writes, with Relaxed Ordering only where the host has enabled it (R379); one read, a member's
answered with DMAC; or a vector. -/
def Dev.issueJob (d : Dev) (src : Nat) (j : HostJob) : Dev :=
  match j with
  | .write addr bs ro delivers =>
    let d := d.emit (.hostWrite addr bs (ro && d.hst.cfg.relaxed))
    match delivers with
    | some q => d.deliver q
    | none => d
  | .read addr n answer =>
    let d := d.emit (.hostRead addr n)
    match answer with
    | some (seq, host) => (d.hostSend src 0x46 (seq * 2 ^ 67) (toBlocks (host.take n)) none).1
    | none => d
  | .vector v => d.raiseMsix v

/-- A message that waits for its turn; a write waits in pieces of at most 4 KiB, the last of which delivers its record. -/
def Dev.queueJob (d : Dev) (src : Nat) (j : HostJob) : Dev :=
  let js := match j with
    | .write addr bs ro delivers =>
      let n := ceilDiv bs.length 4096
      (List.range n).map fun i => HostJob.write (addr + 4096 * i) ((bs.drop (4096 * i)).take 4096) ro (if i + 1 = n then delivers else none)
    | .read a n x => [.read a n x]
    | .vector v => [.vector v]
  { d with hst := { d.hst with jobs := d.hst.jobs ++ js.map fun x => (src, x) } }

/-- A message of the anchor's own rings: issued while none waits, else in its turn. -/
def Dev.ownJob (d : Dev) (j : HostJob) : Dev :=
  if d.hst.jobs.isEmpty then d.issueJob d.devId j else d.queueJob d.devId j

/-- A member's message at the anchor: one is served in a ns of device time, round robin by source (R372; log entry 80). -/
def Dev.memberJob (d : Dev) (src : Nat) (j : HostJob) : Dev :=
  if d.hst.jobs.isEmpty && decide (d.hst.jobAt ≠ some d.devNs) then
    { d with hst := { d.hst with jobLast := src, jobAt := some d.devNs } }.issueJob src j
  else d.queueJob src j

/-- The source served next: the next device id after the last served that has a message waiting, else the lowest. -/
def Dev.jobTurn (d : Dev) : Option Nat :=
  let srcs := d.hst.jobs.map Prod.fst
  match listMin (srcs.filter fun x => decide (d.hst.jobLast < x)) with
  | some x => some x
  | none => listMin srcs

/-- The turn of this ns of device time: one message of the next source. -/
def Dev.serveJob (d : Dev) : Dev :=
  match d.jobTurn with
  | some src =>
    match d.hst.jobs.find? fun x => decide (x.1 = src) with
    | some x =>
      { d with hst := { d.hst with jobs := d.hst.jobs.erase x, jobLast := src, jobAt := some d.devNs } }.issueJob src x.2
    | none => d
  | none => d

/-- A write to host memory: posted by the anchor, or sent to it as DMAW messages of at most 4 KiB; the last of them delivers a
record when it is acknowledged. -/
def Dev.hostWrite (d : Dev) (addr : Nat) (bs : List Byte) (ro : Bool) (delivers : Option Nat) : Dev :=
  if d.hostUp = false then d
  else if d.isAnchor then d.ownJob (.write addr bs ro delivers)
  else
    let n := ceilDiv bs.length 4096
    (List.range n).foldl (fun e i =>
      let piece := (bs.drop (4096 * i)).take 4096
      (e.hostSend d.anchor 0x44 (dmaBody (addr + 4096 * i) ro piece.length) (toBlocks piece)
        (if i + 1 = n then delivers else none)).1) d

/-- A read of host memory: issued by the anchor, or sent to it as a DMAR message, whose SEQ is the answer. -/
def Dev.hostRead (d : Dev) (addr n : Nat) : Dev × Nat :=
  if d.hostUp = false then (d, 0)
  else if d.isAnchor then (d.ownJob (.read addr n none), 0)
  else d.hostSend d.anchor 0x45 (dmaBody addr false n) [] none

/-! Vectors (R369, R383) -/

/-- A vector raised by this device. -/
def Dev.raiseVector (d : Dev) (v : Nat) : Dev :=
  if d.hostUp = false then d
  else
    let d := d.count Reg.hstIrqs
    if d.isAnchor then d.ownJob (.vector v) else (d.hostSend d.anchor 0x47 (v % 2 ^ 11 * 2 ^ 72) [] none).1

/-! Rings -/

/-- A host ring beside its registers. -/
def Dev.hring (d : Dev) (r : Nat) : HostRing := SMap.get (fun _ => HostRing.init) d.hst.rings r

/-- A host ring changed. -/
def Dev.setHring (d : Dev) (r : Nat) (x : HostRing) : Dev :=
  { d with hst := { d.hst with rings := SMap.set (fun _ => HostRing.init) d.hst.rings r x } }

/-- ENABLE of a ring. -/
def Dev.hrOn (d : Dev) (r : Nat) : Bool := d.flag (Reg.hrCfg r) Fld.hrCfgEnable

/-- KIND of a ring (Table 10.8). -/
def Dev.hrKind (d : Dev) (r : Nat) : Nat := d.fld (Reg.hrCfg r) Fld.hrCfgKind

/-- STATE of a ring: 0 STOPPED, 1 RUNNING, 2 ERROR. -/
def Dev.hrState (d : Dev) (r : Nat) : Nat := d.fld (Reg.hrState r) Fld.hrStateState

/-- Whether a ring of a kind takes entries. -/
def Dev.hrRuns (d : Dev) (r kind : Nat) : Bool :=
  d.hrOn r && decide (d.hrKind r = kind) && decide (d.hrState r = 1)

/-- N of a ring. -/
def Dev.hrN (d : Dev) (r : Nat) : Nat := 2 ^ d.fld (Reg.hrSize r) Fld.hrSizeLog2N

/-- Free descriptors of a ring (R378). -/
def Dev.hrFree (d : Dev) (r : Nat) : Nat := (d.rd (Reg.hrConsume r) + d.hrN r + 2 ^ 32 - d.rd (Reg.hrProduce r)) % 2 ^ 32

/-- The host address of entry i of a ring. -/
def Dev.hrAddr (d : Dev) (r i : Nat) : Nat := d.rd (Reg.hrBase0 r) + 2 ^ 32 * d.rd (Reg.hrBase1 r) + 32 * (i % d.hrN r)

/-- The host address of a ring's status word. -/
def Dev.statusAddr (d : Dev) (r : Nat) : Nat := d.rd Reg.hstStatAddrLo + 2 ^ 32 * d.rd Reg.hstStatAddrHi + 8 * r

/-- The vector of a ring whose status word was written: at once, or when its hold ends (R383). -/
def Dev.ringIrq (d : Dev) (r : Nat) : Dev :=
  if d.flag (Reg.hrCfg r) Fld.hrCfgIrqEn then
    let h := d.hring r
    let held := match h.raised with
      | some t => decide (d.devNs < t + d.fld (Reg.hrHold r) Fld.hrHoldIrqHoldUs * 1000)
      | none => false
    if held then d.setHring r { h with changed := true }
    else (d.setHring r { h with raised := some d.devNs, changed := false }).raiseVector (d.fld (Reg.hrCfg r) Fld.hrCfgVector)
  else d

/-- The end of a ring's hold, if its status word has changed since the latest raise. -/
def Dev.irqHoldEnd (d : Dev) (r : Nat) : Dev :=
  let h := d.hring r
  match h.raised with
  | some t =>
    if d.hostUp = true ∧ h.changed ∧ t + d.fld (Reg.hrHold r) Fld.hrHoldIrqHoldUs * 1000 ≤ d.devNs ∧ d.flag (Reg.hrCfg r) Fld.hrCfgIrqEn then
      (d.setHring r { h with raised := some d.devNs, changed := false }).raiseVector (d.fld (Reg.hrCfg r) Fld.hrCfgVector)
    else d
  | none => d

/-- A ring's status word written with its count, and then its vector (R379, R383). -/
def Dev.writeStatus (d : Dev) (r : Nat) (delivers : Option Nat) : Dev :=
  if d.hostUp then (d.hostWrite (d.statusAddr r) (leBytes 8 (d.rd (Reg.hrProduce r))) false delivers).ringIrq r else d

/-- A ring stopped on an error: counted and logged once; entries of a descriptor that is open stay in their buffer (R378). -/
def Dev.ringError (d : Dev) (r cause : Nat) : Dev :=
  let before := d.rd (Reg.hrState r)
  let d := d.setHring r { d.hring r with desc := none }
  let d := (d.setFld (Reg.hrState r) Fld.hrStateState 2).setFld (Reg.hrState r) Fld.hrStateErrCause cause
  ((d.wr (Reg.hrErrAt r) (d.rd (Reg.hrProduce r))).count Reg.hstRingErrs).logInternal (Reg.hrState r) before
    (d.rd (Reg.hrState r)) .hstRingErr

/-- A ring stopped: its chain and its open descriptor are given up; what was due in them stays. -/
def Dev.ringStop (d : Dev) (r : Nat) : Dev :=
  (d.wr (Reg.hrState r) 0).setHring r { d.hring r with chain := none, done := 0, frag := 0, desc := none, expiring := none, zeroDue := false }

/-- A ring started at count 0, its status word written, or before the first poll once the host can be reached (R376). A hold that runs goes on
(R383). -/
def Dev.ringStart (d : Dev) (r : Nat) : Dev :=
  let h := d.hring r
  let d := (((d.setHring r { HostRing.init with raised := h.raised, changed := h.changed, zeroDue := !d.hostUp }).wr (Reg.hrProduce r) 0).wr
    (Reg.hrConsume r) 0).wr (Reg.hrState r) 1
  d.writeStatus r none

/-- The device fields of descriptor i written, the count advanced, then the status word and the vector (R379). -/
def Dev.closeDescriptor (d : Dev) (r used flags frag recId : Nat) (delivers : Option Nat) : Dev :=
  let i := d.rd (Reg.hrProduce r)
  let d := d.hostWrite (d.hrAddr r i + 16)
    (leBytes 4 used ++ leBytes 2 flags ++ leBytes 2 (i + 1) ++ leBytes 4 frag ++ leBytes 4 recId) false none
  (d.wr (Reg.hrProduce r) (i + 1)).writeStatus r delivers

/-! Delivery of records (R380, R388) -/

/-- The host ring of a record: the one its capture ring is mapped to, when it is enabled as a RECORD ring. -/
def Dev.mappedRing (d : Dev) (x : RecordRec) : Option Nat :=
  let a := if x.ring < 64 then Reg.hstRmap x.ring else Reg.hstRmapNc
  let r := d.fld a Fld.hstRmapNcRing
  if d.flag a Fld.hstRmapNcValid && d.hrOn r && decide (d.hrKind r = 1) then some r else none

/-- The record due on a RECORD ring: the one whose chain is in progress, else the lowest sequence number mapped
to it, once complete. -/
def Dev.dueRecord (d : Dev) (r : Nat) : Option RecordRec :=
  match (d.hring r).chain with
  | some q => d.record q
  | none =>
    match d.store.recs.find? fun x => decide (d.mappedRing x = some r) && !x.sent with
    | some x => if x.doneAt.isSome then some x else none
    | none => none

/-- The page that holds a line of a record: its own pages in order, and from the first of those that its appendix took, the appendix (R387). -/
def RecordRec.pageOf (x : RecordRec) (line : Nat) : Option Nat :=
  let body := x.bytes.length - x.appendix.length
  let own := pageCount x.pages - ceilDiv x.appendix.length 4096
  pageAtIndex x.pages (if line < body then line / 4096 else own + (line - body) / 4096)

/-- Whether a line of a record reads as zeros with DATA_ERR (R389): uncorrectable, or on a channel that has failed. -/
def Dev.badLine (d : Dev) (x : RecordRec) (line : Nat) : Bool :=
  x.bad.contains line ||
    (match x.pageOf line with
      | some k => !d.pageUp k
      | none => false)

/-- One fragment of a record into a descriptor's buffer (R380). -/
def Dev.fillRecord (d : Dev) (r addr len : Nat) (x : RecordRec) : Dev :=
  let h := d.hring r
  let n := if len < x.bytes.length - h.done then len else x.bytes.length - h.done
  let piece := (x.bytes.drop h.done).take n
  let lines := (List.range (ceilDiv (h.done % 64 + n) 64)).map fun i => h.done / 64 * 64 + 64 * i
  let badL := lines.filter (d.badLine x)
  let data := if badL.isEmpty then piece
    else (List.range n).map fun i => if badL.contains ((h.done + i) / 64 * 64) then 0 else piece.getD i 0
  let last := decide (h.done + n = x.bytes.length)
  let flags := bit01 (decide (h.frag = 0)) + 2 * bit01 last + 4 * bit01 x.summary + 16 * bit01 (!badL.isEmpty)
  let d := d.hostWrite addr data true none
  let d := d.setHring r { h with
    chain := if last then none else some x.seq, done := if last then 0 else h.done + n,
    frag := if last then 0 else h.frag + 1 }
  let d := d.setFld (Reg.hrState r) Fld.hrStateChain (bit01 (!last))
  let d := if last then (d.count (Reg.hrDelivered r)).modRecord x.seq fun y => { y with sent := true } else d
  d.closeDescriptor r n flags h.frag x.seq (if last then some x.seq else none)

/-! Packed rings (R381) -/

/-- The log entries waiting for a LOG ring, oldest first, from the mirror, or with no record-store channel UP from the on-die log
(R401, R425). -/
def Dev.logDue (d : Dev) (r : Nat) : List LogEntry :=
  ((if d.upChannels.isEmpty then d.log.entries else d.log.mirror).filter fun e =>
    decide ((d.hring r).next ≤ e.num)).reverse

/-- How many of the summaries in the buffer a SUMMARY ring has taken. -/
def Dev.sumsTaken (d : Dev) (r : Nat) : Nat := (d.hring r).next - d.hst.sumBase

/-- The entries waiting for a packed ring, oldest first: summaries, each SUMMARY ring taking every one (R381), or log entries. -/
def Dev.packed (d : Dev) (r : Nat) : List (List Byte) :=
  if d.hrKind r = 2 then d.hst.sums.drop (d.sumsTaken r) else (d.logDue r).map LogEntry.bytes

/-- The summaries that every running SUMMARY ring has taken leave the buffer. -/
def Dev.trimSums (d : Dev) : Dev :=
  match ((List.range 32).filter fun r => d.hrRuns r 2).map d.sumsTaken with
  | [] => d
  | x :: xs =>
    let n := xs.foldl min x
    { d with hst := { d.hst with sums := d.hst.sums.drop n, sumBase := d.hst.sumBase + n } }

/-- Log entries delivered up to entry k: with no mirror they count as mirrored (R401). -/
def Dev.logDelivered (d : Dev) (k : Nat) : Dev :=
  let first := if d.log.delivered ≤ k then k + 1 else d.log.delivered
  let d := { d with log := { d.log with delivered := first } }
  if d.upChannels.isEmpty then
    { d with log := { d.log with held := (d.log.entries.filter fun e => decide (first ≤ e.num)).length } }
  else d

/-- n entries of a packed ring delivered. -/
def Dev.popPacked (d : Dev) (r n : Nat) : Dev :=
  let d := if d.hrKind r = 2 then (d.setHring r { d.hring r with next := d.hst.sumBase + d.sumsTaken r + n }).trimSums
    else match ((d.logDue r).take n).getLast? with
      | some e => (d.setHring r { d.hring r with next := e.num + 1 }).logDelivered e.num
      | none => d
  d.countN (Reg.hrDelivered r) n

/-- The open descriptor of a packed ring closed. -/
def Dev.closePacked (d : Dev) (r : Nat) : Dev :=
  match (d.hring r).desc with
  | none => d
  | some o =>
    let d := (d.setHring r { d.hring r with desc := none }).popPacked r (o.used / 32)
    d.closeDescriptor r o.used 0 0 0 none

/-- Waiting entries written into the open descriptor of a packed ring, which closes when it is full. -/
def Dev.fillPacked (d : Dev) (r : Nat) : Dev :=
  match (d.hring r).desc with
  | none => d
  | some o =>
    let room := o.len / 32 - o.used / 32
    let new := ((d.packed r).drop (o.used / 32)).take room
    let d := (List.range new.length).foldl (fun e i =>
      e.hostWrite (o.addr + o.used + 32 * i) (new.getD i []) false none) d
    let o' := { o with
      used := o.used + 32 * new.length,
      firstAt := if o.used = 0 ∧ new.isEmpty = false then d.devNs else o.firstAt }
    let d := d.setHring r { d.hring r with desc := some o' }
    if o'.len / 32 ≤ o'.used / 32 then d.closePacked r else d

/-- Every packed ring takes what waits for it. -/
def Dev.fillAllPacked (d : Dev) : Dev :=
  (List.range 32).foldl (fun e r => if (e.hring r).desc.isSome then e.fillPacked r else e) d

/-- FLUSH_US after its first entry, a partly filled descriptor is closed. -/
def Dev.flushExpire (d : Dev) (r : Nat) : Dev :=
  let d := d.fillPacked r
  match (d.hring r).desc with
  | some o => if 0 < o.used ∧ o.firstAt + d.fld Reg.hstSum Fld.hstSumFlushUs * 1000 ≤ d.devNs then d.closePacked r else d
  | none => d

/-- A summary of a released event (R381). -/
def Dev.addSummary (d : Dev) (e : Ev) (w c : BitVec 64) (records first : Nat) : Dev :=
  let mask := d.fld Reg.hstSum Fld.hstSumSumMask
  if mask = 0 ∨ mask &&& (bitsOf w.toNat 48 4) ≠ 0 then
    if d.hst.sums.length < 65536 then
      let third := d.tSample e.n % 2 ^ 40 + records % 256 * 2 ^ 40
      let bs := leBytes 8 w.toNat ++ leBytes 8 c.toNat ++ leBytes 8 third ++ leBytes 8 (first % 2 ^ 32)
      ({ d with hst := { d.hst with sums := d.hst.sums ++ [bs] } }).fillAllPacked
    else d.count Reg.hstSumDrop
  else d

/-! Filling a descriptor (R378) -/

/-- The device reads the host fields of the next free descriptor of a ring and fills it, or stops on an error. -/
def Dev.fillDescriptor (d : Dev) (r addr len : Nat) (corrected : List (Fin 8)) : Dev :=
  if d.hostUp && d.hrOn r && decide (d.hrState r = 1) && decide (0 < d.hrFree r) then
    let kind := d.hrKind r
    let h := d.hring r
    let due := (decide (kind = 1) && ((d.dueRecord r).isSome || h.expiring.isSome)) ||
      (decide (kind = 2 ∨ kind = 3) && h.desc.isNone && !(d.packed r).isEmpty)
    if due then
      let d := (d.hostRead (d.hrAddr r (d.rd (Reg.hrProduce r))) 16).1
      if len = 0 ∨ 16777216 < len then d.ringError r 1
      else if addr % 64 ≠ 0 then d.ringError r 2
      else if kind = 1 then
        match h.expiring with
        | some q =>
          let d := (d.setHring r { h with chain := none, done := 0, frag := 0, expiring := none }).setFld (Reg.hrState r)
            Fld.hrStateChain 0
          d.closeDescriptor r 0 10 h.frag q none
        | none =>
          match d.dueRecord r with
          | some x =>
            let d := corrected.foldl (fun e c => (e.count Reg.recCe).count (Reg.chCe c.val)) d
            d.fillRecord r addr len x
          | none => d
      else
        (d.setHring r { h with desc := some ⟨addr, len, 0, d.devNs⟩ }).fillPacked r
    else d
  else d

/-! Polls (R377) -/

/-- The status words of rings started while the host could not be reached, written before the poll (R376). -/
def Dev.writeZeros (d : Dev) : Dev :=
  (List.range 32).foldl (fun e r =>
    if (e.hring r).zeroDue then (e.setHring r { e.hring r with zeroDue := false }).writeStatus r none else e) d

/-- The device reads its index block, when a poll is due. -/
def Dev.poll (d : Dev) : Dev :=
  let any := (List.range 32).any d.hrOn
  if d.hostUp && any && decide (d.hst.polledAt + d.fld Reg.hstPoll Fld.hstPollHstPollNs ≤ d.devNs) then
    let d := d.writeZeros
    let (d, q) := d.hostRead (d.rd Reg.hstIdxAddrLo + 2 ^ 32 * d.rd Reg.hstIdxAddrHi) 256
    ({ d with hst := { d.hst with polling := d.hst.polling ++ [(d.devNs, q)], polledAt := d.devNs } }).count Reg.hstPolls
  else d

/-- The host's count for ring r in an index block. -/
def hostCount (idx : List Word) (r : Nat) : Nat := (idx.getD (2 * r) 0).toNat

/-- The host's counts taken from an index block, on every ring that is enabled; a running ring stops on a count that has passed its own. -/
def Dev.takeCounts (d : Dev) (idx : List Word) : Dev :=
  (List.range 32).foldl (fun e r =>
    if e.hrOn r then
      let v := hostCount idx r
      let e := e.wr (Reg.hrConsume r) v
      let kind := e.hrKind r
      if decide (e.hrState r = 1) && decide (kind = 1 ∨ kind = 2 ∨ kind = 3) && decide (e.hrN r < (e.rd (Reg.hrProduce r) + 2 ^ 32 - v) % 2 ^ 32) then
        e.ringError r 3
      else e
    else e) d

/-- Poll data arrives: for the oldest poll under way, or for an expired one, when it is discarded and counted. -/
def Dev.pollArrives (d : Dev) (late : Bool) (idx : List Word) : Dev :=
  if late then
    match d.hst.overdue with
    | [] => d
    | _ :: rest => ({ d with hst := { d.hst with overdue := rest } }).count Reg.hstLateArrival
  else
    match d.hst.polling with
    | [] => d
    | _ :: rest => ({ d with hst := { d.hst with polling := rest } }).takeCounts idx

/-- A poll without data for 1 ms; data that resolves together with the expiry is used (R34). -/
def Dev.pollExpire (d : Dev) (tie : Bool) : Dev :=
  match d.hst.polling with
  | [] => d
  | (t, q) :: rest =>
    if tie = false ∧ t + 1000000 ≤ d.devNs then
      ({ d with hst := { d.hst with polling := rest, overdue := d.hst.overdue ++ [q] } }).count Reg.hstPollFail
    else d

/-! Expiry and errors in the store (R388, R389) -/

/-- A record kept longer than the retention time; delivery wins a tie (R34). -/
def Dev.expireRecord (d : Dev) (q : Nat) (tie : Bool) : Dev :=
  match d.record q with
  | none => d
  | some x =>
    match x.doneAt with
    | none => d
    | some t =>
      if tie = false ∧ t + d.fld Reg.recRetain Fld.recRetainRetentionS * 1000000000 ≤ d.devNs then
        let d := (d.dropRecord q).count Reg.recExpired
        (List.range 32).foldl (fun e r =>
          if (e.hring r).chain = some q then e.setHring r { e.hring r with chain := none, expiring := some (q % 2 ^ 32) }
          else e) d
      else d

/-- A record-store channel enters FAILED: the health map, then the log; its free pages leave the pool. -/
def Dev.channelFails (d : Dev) (c : Nat) : Dev :=
  if d.fld (Reg.chStat c) Fld.chStatState = 2 then
    let before := d.rd (Reg.chStat c)
    let d := (d.setFld (Reg.chStat c) Fld.chStatState 3).showStore
    let d := d.hmapChange (hmChannel c) 0 3 3
    (d.logInternal (Reg.chStat c) before (d.rd (Reg.chStat c)) .degraded).hpcGate
      (.recChannel ⟨c % 8, Nat.mod_lt _ (by decide)⟩)
  else d

/-- An uncorrectable line of a record: counted, delivered as zeros, and its channel fails above 16 within 1 ms. -/
def Dev.storeUe (d : Dev) (c q line : Nat) : Dev :=
  let d := (d.count Reg.recUe).count (Reg.chUe c)
  let d := d.modRecord q fun x => { x with bad := line / 64 * 64 :: x.bad }
  let ts := (d.devNs :: SMap.get (fun _ => []) d.store.ueTimes c).filter fun t => decide (d.devNs < t + 1000000)
  let d := { d with store := { d.store with ueTimes := SMap.set (fun _ => []) d.store.ueTimes c ts } }
  if 16 < ts.length then d.channelFails c else d

/-! Link and power (R373, R374) -/

/-- HSTATE sent on every UP port that FWD names for the anchor (R373). -/
def Dev.floodHstate (d : Dev) (b : Nat) : Dev :=
  let ports := d.fld (Reg.mshFwd d.anchor) Fld.mshFwdPorts
  (List.range 6).foldl (fun e p => if bitAt ports p && e.portUp p then e.sendPort (p + 1) 0x48 b else e) d

/-- The anchor's HSTATE message. -/
def Dev.hstateBits (d : Dev) : Nat :=
  let rate := d.fld Reg.hstLink Fld.hstLinkRate
  hostBits d.devId 0 0 0 (rate * 2 ^ 80 + bit01 (decide (rate ≠ 0)) * 2 ^ 79 +
    d.fld Reg.hstLink Fld.hstLinkD3hot * 2 ^ 78 + d.fld Reg.hstLink Fld.hstLinkEpoch * 2 ^ 62)

/-- HSTATE flooded by the anchor on a change. -/
def Dev.sendHstate (d : Dev) : Dev := if d.isAnchor then d.floodHstate d.hstateBits else d

/-- A channel none of whose messages delivers a record any more. -/
def HostChan.noDelivery (c : HostChan) : HostChan :=
  { c with queue := c.queue.map fun m => { m with delivers := none }, unacked := c.unacked.map fun m => { m with delivers := none } }

/-- Host traffic given up at a link-down or in D3hot: what waits at the anchor's link is dropped, and a record whose delivery is not confirmed waits in
the store again (R373, R380; log entry 80). -/
def Dev.dropTraffic (d : Dev) : Dev :=
  let d : Dev := { d with hst := { d.hst with jobs := [] } }
  let d : Dev := { d with store := { d.store with recs := d.store.recs.map fun x => { x with sent := false } } }
  { d with msh := { d.msh with chans := d.msh.chans.map fun c => (c.1, c.2.noDelivery) } }

/-- A link-down: every ring's ENABLE cleared, each clear logged, and the rings stopped (R374). A poll under way goes on to its expiry (R377). -/
def Dev.clearRings (d : Dev) : Dev :=
  ((List.range 32).foldl (fun e r =>
    if e.hrOn r then
      let before := e.rd (Reg.hrCfg r)
      let e := (e.setFld (Reg.hrCfg r) Fld.hrCfgEnable 0).ringStop r
      e.logInternal (Reg.hrCfg r) before (e.rd (Reg.hrCfg r)) .ok
    else e) d).dropTraffic

/-- D3hot: the rings stop (R373). -/
def Dev.stopRings (d : Dev) : Dev := ((List.range 32).foldl (fun e r => if e.hrOn r then e.ringStop r else e) d).dropTraffic

/-- The anchor's link goes down: the epoch increases, the rings are cleared and HSTATE is flooded. -/
def Dev.linkDown (d : Dev) : Dev :=
  if d.isAnchor ∧ d.fld Reg.hstLink Fld.hstLinkRate ≠ 0 then
    let d := ((d.setFld Reg.hstLink Fld.hstLinkRate 0).setFld Reg.hstLink Fld.hstLinkWidth 0).setFld Reg.hstLink
      Fld.hstLinkFlit 0
    (d.setFld Reg.hstLink Fld.hstLinkEpoch (d.fld Reg.hstLink Fld.hstLinkEpoch + 1)).clearRings.sendHstate
  else d

/-- PERST_N asserted: the endpoint is reset, its function leaves D3hot and its link goes down, which HSTATE tells the members (R373, R374). -/
def Dev.perstOn (d : Dev) : Dev :=
  if d.isAnchor then
    let d3 := d.flag Reg.hstLink Fld.hstLinkD3hot
    let down := decide (d.fld Reg.hstLink Fld.hstLinkRate = 0)
    let d := { d with hst := { d.hst with perst := true, cfg := ⟨0, false, false, false⟩, msix := [], pba := [] } }.setFld Reg.hstLink
      Fld.hstLinkD3hot 0
    if down then (if d3 then d.sendHstate else d) else d.linkDown
  else d

/-- PERST_N released and the link trained: rate, width and mode shown, HSTATE flooded, and the host configures the endpoint. -/
def Dev.perstOff (d : Dev) (rate width : Nat) (flit : Bool) : Dev :=
  if d.isAnchor then
    let d := { d with hst := { d.hst with perst := false } }
    let d := ((d.setFld Reg.hstLink Fld.hstLinkRate rate).setFld Reg.hstLink Fld.hstLinkWidth width).setFld Reg.hstLink
      Fld.hstLinkFlit (bit01 flit)
    d.configured.sendHstate
  else d

/-- The function enters or leaves D3hot. -/
def Dev.powerState (d : Dev) (d3 : Bool) : Dev :=
  if d.isAnchor then
    let d := d.setFld Reg.hstLink Fld.hstLinkD3hot (bit01 d3)
    (if d3 then d.stopRings else d.pumpMsix).sendHstate
  else d

/-- A member learns the anchor's link and power state (R373), and floods it on. -/
def Dev.learnHstate (d : Dev) (b : Nat) : Dev :=
  let d := d.floodHstate b
  if d.isAnchor then d
  else
    let up := bitAt b 79
    let d3 := bitAt b 78
    let epoch := bitsOf b 62 16
    let fresh := decide (epoch ≠ d.fld Reg.hstLink Fld.hstLinkEpoch)
    let wasD3 := d.flag Reg.hstLink Fld.hstLinkD3hot
    let d := ((d.setFld Reg.hstLink Fld.hstLinkRate (if up then bitsOf b 80 3 else 0)).setFld Reg.hstLink
      Fld.hstLinkD3hot (bit01 d3)).setFld Reg.hstLink Fld.hstLinkEpoch epoch
    if !up || fresh then d.clearRings
    else if d3 && !wasD3 then d.stopRings
    else d

/-- An ACK received: messages before the SEQ it names are freed, and records that they deliver are delivered (R362). -/
def Dev.ackArrives (d : Dev) (src next : Nat) : Dev :=
  let c := d.chan src
  let (freed, left) := ackFrees next c.unacked
  let d := d.setChan src { c with unacked := left, since := d.devNs }
  let d := freed.foldl (fun e m => match m.delivers with
    | some q => e.deliver q
    | none => e) d
  d.pumpChan src 256

end Sys2Proof.Machine
end

