-- ==== Sys2Proof/Machine/Formats.lean ====
section
/-!
DEFINITION. Number formats and exact arithmetic ("Number formats, scaling and online adaptation"): the twelve external
formats, conversion with rounding to nearest and with stochastic rounding, the products of one multiply-add issue, the
FP32 sums and the reduction tree.
-/

namespace Sys2Proof.Machine

open Sys2Proof

/-! Exact values -/

/-- The exact value m × 2^e. -/
structure Dy where
  m : Int
  e : Int
  deriving DecidableEq, Repr

/-- The exact sum. -/
def Dy.add (a b : Dy) : Dy :=
  let e := if a.e ≤ b.e then a.e else b.e
  ⟨a.m * 2 ^ (a.e - e).toNat + b.m * 2 ^ (b.e - e).toNat, e⟩

/-- The exact product. -/
def Dy.mul (a b : Dy) : Dy := ⟨a.m * b.m, a.e + b.e⟩

/-- The value times 2^k. -/
def Dy.scale (a : Dy) (k : Int) : Dy := ⟨a.m, a.e + k⟩

/-- Zero. -/
def Dy.zero : Dy := ⟨0, 0⟩

/-- a < b. -/
def Dy.lt (a b : Dy) : Bool :=
  let e := if a.e ≤ b.e then a.e else b.e
  decide (a.m * 2 ^ (a.e - e).toNat < b.m * 2 ^ (b.e - e).toNat)

/-- The sum of a list. -/
def Dy.sum : List Dy → Dy
  | [] => Dy.zero
  | x :: xs => x.add (Dy.sum xs)

/-! Formats (Table 7.1) -/

/-- A format: float or integer; width; fraction bits and bias of a float; largest finite code without sign. -/
structure Fmt where
  float : Bool
  width : Nat
  frac : Nat
  bias : Nat
  top : Nat
  eMin : Int
  eMax : Int
  deriving DecidableEq, Repr

/-- The formats of Table 7.1 by code; a code outside the table is read as FP32 (no descriptor holds one, R438). -/
def fmtOf (c : Nat) : Fmt :=
  match c with
  | 1 => ⟨true, 16, 7, 127, 0x7F7F, 0, 0⟩
  | 2 => ⟨true, 16, 10, 15, 0x7BFF, -113, 112⟩
  | 3 => ⟨true, 8, 3, 7, 0x7E, -128, 119⟩
  | 4 => ⟨true, 8, 2, 15, 0x7B, -121, 112⟩
  | 5 => ⟨true, 6, 2, 3, 0x1F, -128, 123⟩
  | 6 => ⟨true, 6, 3, 1, 0x1F, -128, 125⟩
  | 7 => ⟨true, 4, 1, 1, 0x7, -128, 125⟩
  | 8 => ⟨false, 16, 0, 0, 32767, -128, 112⟩
  | 9 => ⟨false, 8, 0, 0, 127, -128, 120⟩
  | 10 => ⟨false, 4, 0, 0, 7, -128, 124⟩
  | 11 => ⟨false, 24, 0, 0, 8388607, -128, 104⟩
  | _ => ⟨true, 32, 23, 127, 0x7F7FFFFF, 0, 0⟩

/-- The class of a format (Table 4.4). -/
inductive FmtClass where
  | c8 | c4 | c16 | c32
  deriving DecidableEq, Repr

/-- The class of a format code. -/
def fmtClass (c : Nat) : FmtClass :=
  if c = 0 then .c32 else if c = 7 ∨ c = 10 then .c4 else if c = 1 ∨ c = 2 ∨ c = 8 ∨ c = 11 then .c16 else .c8

/-- Whether a format is scaled: its exponent range in Table 7.1 is more than 0. -/
def fmtScaled (c : Nat) : Bool := decide (c ≠ 0 ∧ c ≠ 1)

/-- Bits from one value to the next in a word, and values per word (Table 7.2). -/
def fmtStride (c : Nat) : Nat × Nat :=
  match fmtClass c with
  | .c8 => (8, 8)
  | .c4 => (4, 16)
  | .c16 => if c = 11 then (32, 2) else (16, 4)
  | .c32 => (32, 2)

/-- Value i's code in a word. -/
def codeAt (c word i : Nat) : Nat := bitsOf word ((fmtStride c).1 * i) (fmtOf c).width

/-- A code as it is written in its place of a word: an SMP24 code with its sign in bits [31:24] (R236). -/
def codeField (c code : Nat) : Nat := if c = 11 then lowBits 32 (signedOf 24 code) else code

/-- Whether a code is invalid (Table 7.1). -/
def codeInvalid (c code : Nat) : Bool :=
  let f := fmtOf c
  f.float && decide (c ≠ 5 ∧ c ≠ 6 ∧ c ≠ 7) && decide (f.top < code % 2 ^ (f.width - 1))

/-- The magnitude bits of a code: a float's code without its sign, an integer's magnitude. -/
def codeMag (c code : Nat) : Nat :=
  let f := fmtOf c
  if f.float then code % 2 ^ (f.width - 1) else (signedOf f.width code).natAbs

/-- The value of magnitude bits. -/
def magVal (c mag : Nat) : Dy :=
  let f := fmtOf c
  if f.float then
    let ex := mag / 2 ^ f.frac
    if ex = 0 then ⟨Int.ofNat mag, 1 - Int.ofNat f.bias - Int.ofNat f.frac⟩
    else ⟨Int.ofNat (2 ^ f.frac + mag % 2 ^ f.frac), Int.ofNat ex - Int.ofNat f.bias - Int.ofNat f.frac⟩
  else ⟨Int.ofNat mag, 0⟩

/-- The value of a code; an invalid code is the largest finite positive value (R237). -/
def codeVal (c code : Nat) : Dy :=
  let f := fmtOf c
  if f.float then
    if codeInvalid c code then magVal c f.top
    else
      let v := magVal c (code % 2 ^ (f.width - 1))
      if bitAt code (f.width - 1) then ⟨-v.m, v.e⟩ else v
  else ⟨signedOf f.width code, 0⟩

/-! Rounding (R243, R247 to R251) -/

/-- n / 2^s to nearest, ties to even. -/
def roundNearest (n s : Nat) : Nat :=
  if s = 0 then n
  else
    let q := n / 2 ^ s
    let r := n % 2 ^ s
    if 2 ^ (s - 1) < r ∨ (r = 2 ^ (s - 1) ∧ q % 2 = 1) then q + 1 else q

/-- The exponent of the spacing of a format's grid at magnitude n × 2^e, n not 0. -/
def gridExp (f : Fmt) (n : Nat) (e : Int) : Int :=
  if f.float then
    let u := e + Int.ofNat (Nat.log2 n) - Int.ofNat f.frac
    let least := 1 - Int.ofNat f.bias - Int.ofNat f.frac
    if u < least then least else u
  else 0

/-- A code from q steps of the grid spacing 2^u, limited to the largest magnitude. -/
def gridCode (f : Fmt) (neg : Bool) (q : Nat) (u : Int) : Nat :=
  let least := 1 - Int.ofNat f.bias - Int.ofNat f.frac
  let mag := if f.float then (u - least).toNat * 2 ^ f.frac + q else q
  let mag := if f.top < mag then f.top else mag
  if mag = 0 then 0
  else if f.float then mag + bit01 neg * 2 ^ (f.width - 1)
  else if neg then 2 ^ f.width - mag else mag

/-- The code nearest to a value (R247, R248). -/
def nearestCode (c : Nat) (v : Dy) : Nat :=
  let f := fmtOf c
  let n := v.m.natAbs
  if n = 0 then 0
  else
    let u := gridExp f n v.e
    let q := if v.e ≤ u then roundNearest n (u - v.e).toNat else n * 2 ^ (v.e - u).toNat
    gridCode f (decide (v.m < 0)) q u

/-- The code of a value rounded stochastically with k of 65,536 (R251). -/
def stochasticCode (c : Nat) (v : Dy) (k : Nat) : Nat :=
  let f := fmtOf c
  let n := v.m.natAbs
  if n = 0 then 0
  else
    let u := gridExp f n v.e
    let q :=
      if v.e ≤ u then (n * 65536 + k * 2 ^ (u - v.e).toNat) / (2 ^ (u - v.e).toNat * 65536)
      else (n * 2 ^ (v.e - u).toNat * 65536 + k) / 65536
    gridCode f (decide (v.m < 0)) q u

/-- Whether a code is saturated (R249). -/
def codeSaturated (c code : Nat) : Bool := decide (codeMag c code = (fmtOf c).top)

/-- Whether v lies beyond the largest finite FP32 magnitude once rounded. -/
def f32Beyond (v : Dy) : Bool :=
  let f := fmtOf 0
  let n := v.m.natAbs
  if n = 0 then false
  else
    let u := gridExp f n v.e
    let q := if v.e ≤ u then roundNearest n (u - v.e).toNat else n * 2 ^ (v.e - u).toNat
    decide (f.top < (u - (1 - Int.ofNat f.bias - Int.ofNat f.frac)).toNat * 2 ^ f.frac + q)

/-- A value rounded once to FP32, kept finite, with whether it went beyond (R243, R244). -/
def roundF32 (v : Dy) : Nat × Bool := (nearestCode 0 v, f32Beyond v)

/-- The value of FP32 bits. -/
def f32Val (b : Nat) : Dy := codeVal 0 b

/-- A sum of two FP32 values, rounded (R245). -/
def f32Add (a b : Nat) : Nat × Bool := roundF32 ((f32Val a).add (f32Val b))

/-! Multiply-add (Table 7.3) -/

/-- The pieces m2, m1, m0 of an FP32 value's significand (R241). -/
def f32Pieces (v : Dy) : List Dy :=
  let n := v.m.natAbs
  let s : Int := if v.m < 0 then -1 else 1
  [⟨s * Int.ofNat (n / 65536), v.e + 16⟩, ⟨s * Int.ofNat (n / 256 % 256), v.e + 8⟩, ⟨s * Int.ofNat (n % 256), v.e⟩]

/-- The product of two FP32 values without the product of their lowest pieces (R241). -/
def f32Product (a b : Dy) : Dy :=
  match f32Pieces a, f32Pieces b with
  | [a2, a1, a0], [b2, b1, b0] =>
    Dy.sum [a2.mul b2, a2.mul b1, a2.mul b0, a1.mul b2, a1.mul b1, a1.mul b0, a0.mul b2, a0.mul b1]
  | _, _ => Dy.zero

/-- An operand value: code × 2^e for a scaled format, the code's value otherwise. -/
def operandVal (c word i : Nat) (e : Int) : Dy :=
  if fmtScaled c then (codeVal c (codeAt c word i)).scale e else codeVal c (codeAt c word i)

/-- The products of one issue by accumulator: weight word and format, activation word and format, row exponents, and
the FP32 half h. -/
def macProducts (wf af w a : Nat) (we ae : Int) (h : Nat) : List (Nat × Dy) :=
  match fmtClass wf, fmtClass af with
  | .c8, .c8 => (List.range 8).map fun j => (j, (operandVal wf w j we).mul (operandVal af a j ae))
  | .c4, .c4 => (List.range 8).map fun j =>
      (j, ((operandVal wf w (2 * j) we).mul (operandVal af a (2 * j) ae)).add
        ((operandVal wf w (2 * j + 1) we).mul (operandVal af a (2 * j + 1) ae)))
  | .c16, .c16 => (List.range 4).map fun p =>
      (2 * p, (operandVal wf w p we).mul (operandVal af a (if af = 11 then p % 2 else p) ae))
  | .c32, .c32 => [(0, f32Product (operandVal wf w h we) (operandVal af a h ae))]
  | _, _ => []

/-- Invalid codes among the operands of one issue. -/
def macInvalid (wf af w a h : Nat) : Nat :=
  let cnt := fun (c word : Nat) =>
    let idx := if fmtClass c = .c32 then [h] else List.range (fmtStride c).2
    (idx.filter fun i => codeInvalid c (codeAt c word i)).length
  cnt wf w + cnt af a

/-! Stochastic rounding: the generator (R251) -/

/-- One step of the 64-bit generator. -/
def xorshift (x : Nat) : Nat :=
  let x := Nat.xor x (x * 2 ^ 13 % 2 ^ 64)
  let x := Nat.xor x (x / 2 ^ 7)
  Nat.xor x (x * 2 ^ 17 % 2 ^ 64)

end Sys2Proof.Machine
end

