-- ==== Sys2Proof/Machine/Fabric.lean ====
section
/-!
DEFINITION. The fabric's common operations ("Engines, cores, clusters and dies", "Dataflow, slot wheels, contexts and deadlock"):
cores and engines, descriptors, circuits and the tokens waiting on them, notices, network inputs of the Screed, input
queues, counters and credit loops, and Drip's segments.
-/

namespace Sys2Proof.Machine

open Sys2Proof

/-! Cores and engines -/

/-- The cluster of a core position. -/
def clOf (c : Nat) : Nat := c / 17

/-- The position of a core in its cluster. -/
def posOf (c : Nat) : Nat := c % 17

/-- A core's record. -/
def Dev.core (d : Dev) (c : Nat) : CoreRec := SMap.get (fun _ => CoreRec.init) d.fab.cores c

/-- A core's record changed. -/
def Dev.setCore (d : Dev) (c : Nat) (r : CoreRec) : Dev :=
  { d with fab := { d.fab with cores := SMap.set (fun _ => CoreRec.init) d.fab.cores c r } }

/-- An engine's record. -/
def Dev.eng (d : Dev) (c e : Nat) : EngRec := SMap.get (fun _ => EngRec.init) d.fab.engs (64 * c + e)

/-- An engine's record changed. -/
def Dev.setEng (d : Dev) (c e : Nat) (r : EngRec) : Dev :=
  { d with fab := { d.fab with engs := SMap.set (fun _ => EngRec.init) d.fab.engs (64 * c + e) r } }

/-- OFF. -/
def coOff : Nat := 0
/-- TEST. -/
def coTest : Nat := 1
/-- SPARE. -/
def coSpare : Nat := 2
/-- LOAD. -/
def coLoad : Nat := 3
/-- READY. -/
def coReady : Nat := 4
/-- RUN. -/
def coRun : Nat := 5
/-- FENCED. -/
def coFenced : Nat := 6
/-- RETIRED. -/
def coRetired : Nat := 7

/-- The address of a core's CO_STAT. -/
def coStatAddr (c : Nat) : Nat := Reg.coStat (clOf c) (posOf c)

/-- A core's state code (Table 4.6). -/
def Dev.coreState (d : Dev) (c : Nat) : Nat := d.fld (coStatAddr c) Fld.coStatState

/-- The logical core that a position serves; 31 for none. -/
def Dev.logicalOf (d : Dev) (c : Nat) : Nat := d.fld (coStatAddr c) Fld.coStatLogical

/-- The position that serves logical core l of a cluster ("FAB registers"). -/
def Dev.physCore (d : Dev) (cl l : Nat) : Nat :=
  if d.fld (Reg.clStat cl) Fld.clStatReplaced = l then 17 * cl + 16 else 17 * cl + l

/-- The core that a link of kind 0, 1 or 2 lies in. -/
def Dev.linkPhys (d : Dev) (l : Nat) : Nat := d.physCore (bitsOf l 23 6) (bitsOf l 4 4)

/-- The logical core of the device that dependency groups and notices name (R291). -/
def Dev.deviceCore (d : Dev) (c : Nat) : Nat := 16 * clOf c + d.logicalOf c % 16

/-- A context of a core, if loaded. -/
def Dev.ctxRec (d : Dev) (c k : Nat) : Option CtxRec := SMap.get (fun _ => none) (d.core c).ctxs k

/-- The context that CO_CTX shows. -/
def Dev.coreCtx (d : Dev) (c : Nat) : Nat := d.fld (Reg.coCtx (clOf c) (posOf c)) Fld.coCtxActive

/-- The epoch that CO_CTX shows. -/
def Dev.coreEpoch (d : Dev) (c : Nat) : Nat := d.fld (Reg.coCtx (clOf c) (posOf c)) Fld.coCtxEpoch

/-- A switch group's record. -/
def Dev.grp (d : Dev) (g : Nat) : GroupRec := SMap.get (fun _ => GroupRec.init) d.fab.groups g

/-- A switch group's record changed; ACTIVE and PENDING of its SCR_CTXSEL follow (Table 8.12). -/
def Dev.setGrp (d : Dev) (g : Nat) (r : GroupRec) : Dev :=
  let d := { d with fab := { d.fab with groups := SMap.set (fun _ => GroupRec.init) d.fab.groups g r } }
  if g < 64 then
    (d.setFld (Reg.scrCtxsel g) Fld.scrCtxselActive r.ctx).setFld (Reg.scrCtxsel g) Fld.scrCtxselPending
      (bit01 (r.req.isSome || r.wave.isSome))
  else d

/-- The switch group of a core. -/
def Dev.groupOf (d : Dev) (c : Nat) : Nat :=
  match d.ctxRec c (d.coreCtx c) with
  | some x => x.group
  | none => 64

/-- The wave under way in a core's group. -/
def Dev.waveOf (d : Dev) (c : Nat) : Option Wave := (d.grp (d.groupOf c)).wave

/-- The context an engine runs: its core's, or the wave's once it has switched (R182). -/
def Dev.engCtx (d : Dev) (c e : Nat) : Nat :=
  match d.waveOf c with
  | some w => if (d.eng c e).switched then w.ctx else d.coreCtx c
  | none => d.coreCtx c

/-- An engine's current epoch (R181). -/
def Dev.engEpoch (d : Dev) (c e : Nat) : Nat :=
  match d.waveOf c with
  | some w => if (d.eng c e).switched then w.epoch else d.coreEpoch c
  | none => d.coreEpoch c

/-- The context a core's counter unit runs. -/
def Dev.cuCtx (d : Dev) (c : Nat) : Nat :=
  match d.waveOf c with
  | some w => if (d.core c).cuSwitched then w.ctx else d.coreCtx c
  | none => d.coreCtx c

/-- The epoch of a core's counter unit. -/
def Dev.cuEpoch (d : Dev) (c : Nat) : Nat :=
  match d.waveOf c with
  | some w => if (d.core c).cuSwitched then w.epoch else d.coreEpoch c
  | none => d.coreEpoch c

/-! Descriptors (Table 12.9) -/

/-- A descriptor's fields. -/
structure Desc where
  op : Nat
  valid : Bool
  free : Bool
  wait : Nat
  wfmt : Nat
  afmt : Nat
  srcA : Nat
  srcB : Nat
  ctl : Nat
  ra : Nat
  rb : Nat
  rd : Nat
  aslot : Nat
  aword : Nat
  out0 : Nat
  out1 : Nat
  ctr : Nat
  ctrUse : Nat
  fires : Nat
  tag : Nat
  sr : Bool
  loopEntry : Bool
  commit : Bool
  imm : Nat
  deriving DecidableEq, Repr

/-- The fields of a descriptor word. -/
def Desc.of (x : Nat) : Desc :=
  ⟨bitsOf x 0 5, bitAt x 5, bitAt x 6, bitsOf x 7 3, bitsOf x 10 4, bitsOf x 14 4, bitsOf x 18 2, bitsOf x 20 2,
   bitsOf x 22 2, bitsOf x 24 6, bitsOf x 30 6, bitsOf x 36 6, bitsOf x 42 5, bitsOf x 47 3, bitsOf x 50 7,
   bitsOf x 57 7, bitsOf x 64 4, bitsOf x 68 2, bitsOf x 70 12, bitsOf x 82 8, bitAt x 90, bitAt x 91, bitAt x 92,
   bitsOf x 93 16⟩

/-- Descriptor k of engine e in a context. -/
def CtxRec.desc (x : CtxRec) (e k : Nat) : Desc := Desc.of (SMap.get (fun _ => 0) x.descs (32 * e + k))

/-- Descriptor k of an engine's current context. -/
def Dev.desc (d : Dev) (c e k : Nat) : Desc :=
  match d.ctxRec c (d.engCtx c e) with
  | some x => x.desc e k
  | none => Desc.of 0

/-- The valid descriptors of an engine's current context, ascending. -/
def Dev.descs (d : Dev) (c e : Nat) : List Nat := (List.range 32).filter fun k => (d.desc c e k).valid

/-- A descriptor in service. -/
def Dev.descRec (d : Dev) (c e k : Nat) : DescRec :=
  SMap.get (fun _ => DescRec.init) (d.eng c e).descs (32 * d.engCtx c e + k)

/-- A descriptor in service changed. -/
def Dev.setDescRec (d : Dev) (c e k : Nat) (r : DescRec) : Dev :=
  let x := d.eng c e
  d.setEng c e { x with descs := SMap.set (fun _ => DescRec.init) x.descs (32 * d.engCtx c e + k) r }

/-- Register r of an engine. -/
def Dev.reg (d : Dev) (c e r : Nat) : Val := SMap.get (fun _ => ⟨0, false⟩) (d.eng c e).regs r

/-- Register r of an engine written. -/
def Dev.setReg (d : Dev) (c e r : Nat) (v : Val) : Dev :=
  let x := d.eng c e
  d.setEng c e { x with regs := SMap.set (fun _ => ⟨0, false⟩) x.regs r v }

/-- Word w of an activation slot. -/
def Dev.slotWord (d : Dev) (c e s w : Nat) : Val := SMap.get (fun _ => ⟨0, false⟩) (d.eng c e).slots (8 * s + w)

/-- Word w of an activation slot written. -/
def Dev.setSlotWord (d : Dev) (c e s w : Nat) (v : Val) : Dev :=
  let x := d.eng c e
  d.setEng c e { x with slots := SMap.set (fun _ => ⟨0, false⟩) x.slots (8 * s + w) v }

/-- Accumulator a of an engine. -/
def Dev.acc (d : Dev) (c e a : Nat) : Val := SMap.get (fun _ => ⟨0, false⟩) (d.eng c e).accs a

/-- Accumulator a of an engine written. -/
def Dev.setAcc (d : Dev) (c e a : Nat) (v : Val) : Dev :=
  let x := d.eng c e
  d.setEng c e { x with accs := SMap.set (fun _ => ⟨0, false⟩) x.accs a v }

/-! Tokens (Tables 5.1, 5.2) -/

/-- A token from its fields. -/
def mkToken (payload : Nat) (free : Bool) (epoch ev kind : Nat) (deg : Bool) (bseq : Nat) : Token :=
  ⟨BitVec.ofNat 64 payload, free, BitVec.ofNat 2 epoch, BitVec.ofNat 8 ev, BitVec.ofNat 3 kind, deg, BitVec.ofNat 4 bseq⟩

/-- A stand-in for an event slot (R154). -/
def standIn (epoch ev : Nat) : Token := mkToken 0 false epoch ev 0 true 0

/-- A token is a switch marker. -/
def tokMarker (t : Token) : Bool := decide (t.kind.toNat = 3)

/-- A token makes a result degraded (R154): DEGRADED, or a MISSING token. -/
def tokBad (t : Token) : Bool := t.degraded || decide (t.kind.toNat = 4)

/-- The 96 bits of a token (Table 5.1). -/
def tokBits (t : Token) : Nat :=
  t.payload.toNat + bit01 t.free * 2 ^ 64 + t.epoch.toNat * 2 ^ 65 + t.evslot.toNat * 2 ^ 67 + t.kind.toNat * 2 ^ 75 +
    bit01 t.degraded * 2 ^ 78 + t.bseq.toNat * 2 ^ 79

/-! Circuits (R155, Tables 12.7, 12.8) -/

/-- The kind of a link id. -/
def linkKind (l : Nat) : Nat := bitsOf l 0 4
/-- XPORT of a link id. -/
def linkXport (l : Nat) : Nat := bitsOf l 17 6
/-- The cluster of a link id. -/
def linkCl (l : Nat) : Nat := bitsOf l 23 6

/-- CORE of a link id. -/
def linkCore (l : Nat) : Nat := bitsOf l 4 4

/-- A link is a clocked boundary: the crossbar toward its edge port. -/
def linkEdge (l : Nat) : Bool := decide (linkKind l = 3) && decide (linkXport l = 40)

/-- The die and link of a die link's edge port (Table 4.10); none for a cluster with no die link. -/
def edgeLink (cl : Nat) : Option (Nat × Nat) :=
  let k := cl % 16
  if k = 7 then some (cl / 16, 0) else if k = 11 then some (cl / 16, 1)
  else if k = 1 then some (cl / 16, 2) else if k = 13 then some (cl / 16, 3) else none

/-- The cluster at whose edge port a die link ends on its die (Table 4.10). -/
def linkEnd (dk : Nat × Nat) : Nat := 16 * dk.1 + (if dk.2 = 0 then 7 else if dk.2 = 1 then 11 else if dk.2 = 2 then 1 else 13)

/-- The other end of a link between C-dies. -/
def linkPeer (dk : Nat × Nat) : Nat × Nat :=
  if dk.2 = 2 then ((dk.1 + 3) % 4, 3) else if dk.2 = 3 then ((dk.1 + 1) % 4, 2) else dk

/-- The neighbour's cluster and its port at the other end of a die-mesh link. -/
def meshPeer (l : Nat) : Nat × Nat :=
  let p := linkXport l
  let k := linkCl l % 16
  let to_ := if p = 36 then k + 12 else if p = 37 then k + 1 else if p = 38 then k + 4 else k + 15
  (linkCl l / 16 * 16 + to_ % 16, 36 + (p - 36 + 2) % 4)

/-- Where a token stands before it crosses a link, or at its circuit's end (Table 4.11). -/
inductive Store where
  /-- A router port's output latch (R124). -/
  | latch (link : Nat)
  /-- The latch of an engine's spine port toward the engine (R124), and behind it, for what comes by the crossbar, its core port's buffer
  (R139). -/
  | spine (link : Nat)
  /-- A crossbar port's buffer toward the crossbar (R139); at an edge port the crossing FIFO before it (R147). -/
  | port (cl port : Nat)
  /-- A crossbar port's buffer out of the crossbar at a circuit's end (R139); at an edge port the crossing FIFO behind it too (R147). -/
  | portEnd (cl port : Nat)
  /-- A die-mesh port's buffer out of a crossbar and the buffer of the neighbour's port into the next one (R139). -/
  | mesh (link : Nat)
  /-- An edge port's buffer, the crossing FIFOs at both ends of its die link, and the buffer of the port at the other end (R147). -/
  | dieLink (link : Nat)
  deriving DecidableEq, Repr

/-- A crossbar port's buffer as a Drip set names it (R188): INDEX 0 for the buffer out of the crossbar, 1 for the one into it (log entry 43). -/
def portEndp (cl port idx : Nat) : Endp := ⟨3, cl, 0, 0, idx, port⟩

/-- The parts of a store, from the one at the next link back to the one a token enters by: each with its places of one class, and the crossbar
port buffer that it is, if it is one. -/
def Store.parts : Store → List (Option Endp × Nat)
  | .latch _ => [(none, 2)]
  | .spine l => [(none, 2), (some (portEndp (linkCl l) (linkCore l) 0), 4)]
  | .port cl p => if p = 40 then [(some (portEndp cl p 1), 4), (none, 64)] else [(some (portEndp cl p 1), 4)]
  | .portEnd cl p => if p = 40 then [(none, 64), (some (portEndp cl p 0), 4)] else [(some (portEndp cl p 0), 4)]
  | .mesh l => [(some (portEndp (meshPeer l).1 (meshPeer l).2 1), 4), (some (portEndp (linkCl l) (linkXport l) 0), 4)]
  | .dieLink l =>
    [((edgeLink (linkCl l)).map fun dk => portEndp (linkEnd (linkPeer dk)) 40 1, 4), (none, 128), (some (portEndp (linkCl l) 40 0), 4)]

/-- The places of one class in a store: at a spine port those of its latch, as a core port's buffer serves all the core's spines. -/
def Store.cap : Store → Nat
  | .spine _ => 2
  | s => (s.parts.map Prod.snd).sum

/-- The store of a token that has crossed link p last (none: it comes from its producer, at crossbar port q if it enters there) and
waits to cross link l. A token that waits in the core switch to cross toward the crossbar already holds its place in the core port's
buffer (log entry 42). -/
def storeAt (p : Option Nat) (q l : Nat) : Store :=
  if linkKind l = 0 then .latch l
  else if linkKind l = 1 then .spine l
  else if linkKind l = 2 then .port (linkCl l) (linkCore l)
  else match p with
    | none => .port (linkCl l) q
    | some k =>
      if linkKind k = 3 then (if linkEdge k then .dieLink k else .mesh k) else .port (linkCl l) (linkCore k)

/-- The crossbar port at which a producer's tokens enter: its own, or the edge port for an entry row. -/
def Endp.entryPort (e : Endp) : Nat := if e.kind = 5 then 40 else e.num

/-- A circuit by its key. -/
def Dev.circ (d : Dev) (key : Nat) : Option Circuit := d.fab.circuits.find? fun x => x.key = key

/-- A circuit belongs to a context. -/
def Circuit.inCtx (x : Circuit) (ctx : Nat) : Bool := bitAt x.ctxs ctx

/-- A circuit in service. -/
def Dev.cst (d : Dev) (key : Nat) : CircSt := SMap.get (fun _ => CircSt.init) d.fab.cst key

/-- A circuit in service changed. -/
def Dev.setCst (d : Dev) (key : Nat) (r : CircSt) : Dev :=
  { d with fab := { d.fab with cst := SMap.set (fun _ => CircSt.init) d.fab.cst key r } }

/-- What waits to cross hop h of a circuit, oldest first. -/
def Dev.waiting (d : Dev) (key h : Nat) : List Waiting := SMap.get (fun _ => []) d.fab.wait (key * 256 + h)

/-- What waits there changed. -/
def Dev.setWaiting (d : Dev) (key h : Nat) (ts : List Waiting) : Dev :=
  { d with fab := { d.fab with wait := SMap.set (fun _ => []) d.fab.wait (key * 256 + h) ts } }

/-- The tokens waiting to cross hop h of a circuit, oldest first. -/
def Dev.waitAt (d : Dev) (key h : Nat) : List Token := (d.waiting key h).map fun w => w.tok

/-- A token put before hop h of a circuit. -/
def Dev.placeAt (d : Dev) (key h : Nat) (t : Token) : Dev :=
  { d.setWaiting key h (d.waiting key h ++ [⟨t, d.fab.stamp⟩]) with
    fab := { (d.setWaiting key h (d.waiting key h ++ [⟨t, d.fab.stamp⟩])).fab with stamp := d.fab.stamp + 1 } }

/-- The link of hop h of a circuit. -/
def Circuit.link (x : Circuit) (h : Nat) : Nat := (x.route.getD h (0, 0)).1

/-- The hops at which a circuit crosses a link. -/
def Circuit.hopsOn (x : Circuit) (l : Nat) : List Nat := (List.range x.route.length).filter fun h => x.link h = l

/-- The last link of a circuit. -/
def Circuit.lastLink (x : Circuit) : Nat := x.link (x.route.length - 1)

/-- The store before hop h of a circuit, or at its end. -/
def Circuit.store (x : Circuit) (h : Nat) : Store :=
  if h = x.route.length then .portEnd (linkCl x.lastLink) (linkXport x.lastLink)
  else storeAt (if h = 0 then none else some (x.link (h - 1))) x.src.entryPort (x.link h)

/-- A circuit comes by the crossbar to a counter of a core: its tokens stand in the core port's buffer until the counter takes them. -/
def Circuit.counterEnd (x : Circuit) : Bool := decide (x.dst.kind = 2) && decide (linkKind x.lastLink = 3)

/-- A circuit comes to hop h by the crossbar. -/
def Circuit.byCrossbar (x : Circuit) (h : Nat) : Bool := decide (0 < h) && decide (linkKind (x.link (h - 1)) = 3)

/-- The parts of the store before hop h that a circuit's tokens pass through: what comes from another engine of the core enters a spine
port's latch at once (R124). -/
def Circuit.partsAt (x : Circuit) (h : Nat) : List (Option Endp × Nat) :=
  match x.store h with
  | .spine l => if x.byCrossbar h then (Store.spine l).parts else (Store.spine l).parts.take 1
  | s => s.parts

/-- The tokens of a flit under way (R145). -/
def Dev.flitOf (d : Dev) (k : Nat) : List DripTok := SMap.get (fun _ => []) d.fab.flits k

/-- Those tokens changed. -/
def Dev.setFlit (d : Dev) (k : Nat) (ts : List DripTok) : Dev :=
  { d with fab := { d.fab with flits := SMap.set (fun _ => []) d.fab.flits k ts } }

/-- Tokens of a circuit on their way to its hop h in flits. -/
def Dev.flying (d : Dev) (key h : Nat) : Nat :=
  (d.fab.flits.map fun f => (f.2.filter fun t => decide (t.circ = key ∧ t.hop = h)).length).sum

/-- Tokens of a circuit that stand in a store, those of flits on their way to it among them. -/
def Dev.circLoad (d : Dev) (x : Circuit) (s : Store) : Nat :=
  ((List.range (x.route.length + 1)).map fun h =>
    if x.store h = s then (d.waitAt x.key h).length + d.flying x.key h else 0).sum

/-- Tokens of one class in a store. What exceeds its places stands at the port that sends it: entry ports, the ports of fenced cores and
switching engines put stand-ins, entry rows and markers behind one another without a place (log entry 42). -/
def Dev.storeLoad (d : Dev) (s : Store) (free : Bool) : Nat :=
  ((d.fab.circuits.filter fun x => x.free = free).map fun x => d.circLoad x s).sum

/-- A token of a flit finds a place in the store that it comes to: of its class, the tokens that stand there are fewer than its places. -/
def Dev.landRoom (d : Dev) (x : Circuit) (h : Nat) : Bool :=
  let ys := d.fab.circuits.filter fun y => y.free = x.free
  let n := (ys.map fun y => ((List.range (y.route.length + 1)).map fun k =>
    if y.store k = x.store h then (d.waitAt y.key k).length else 0).sum).sum
  decide (n < (x.store h).cap)

/-- Tokens of one class that stand in a core port's buffer on their way into the core: those whose spine latch is full, and those that a
counter has still to take. -/
def Dev.portHeld (d : Dev) (cl core : Nat) (free : Bool) : Nat :=
  let ls := ((d.fab.circuits.map fun x => (x.route.map fun r => r.1).filter fun l =>
    decide (linkKind l = 1 ∧ linkCl l = cl ∧ linkCore l = core)).flatten).dedup
  (ls.map fun l => d.storeLoad (.spine l) free - 2).sum + d.storeLoad (.portEnd cl core) free

/-- A store has n places of a class free. -/
def Dev.storeRoom (d : Dev) (s : Store) (free : Bool) (n : Nat) : Bool := decide (d.storeLoad s free + n ≤ s.cap)

/-- A place of the circuit's class is free before its hop h: what comes into a core by the crossbar takes one of the core port's buffer, and
what goes on to its spine latch leaves it at once (R124, R139). -/
def Dev.hopRoom (d : Dev) (x : Circuit) (h : Nat) : Bool :=
  match x.store h with
  | .spine l => if x.byCrossbar h then decide (d.portHeld (linkCl l) (linkCore l) x.free < 4) else d.storeRoom (.spine l) x.free 1
  | .portEnd cl p => if p ≤ 16 then decide (d.portHeld cl p x.free < 4) else d.storeRoom (.portEnd cl p) x.free 1
  | s => d.storeRoom s x.free 1

/-- A timed token counted as sent for its event slot on a circuit (R137, R176). -/
def Dev.noteSent (d : Dev) (x : Circuit) (t : Token) : Dev :=
  if x.free || tokMarker t then d
  else
    let r := d.cst x.key
    if r.slot = some t.evslot.toNat then d.setCst x.key { r with sent := r.sent + 1 }
    else d.setCst x.key { r with slot := some t.evslot.toNat, sent := 1 }

/-- The circuits of a context from one source. -/
def Dev.circsFrom (d : Dev) (ctx : Nat) (p : Endp → Bool) : List Circuit :=
  d.fab.circuits.filter fun x => x.inCtx ctx && p x.src

/-- The circuits from output o of an engine in its current context. -/
def Dev.outCircs (d : Dev) (c e o : Nat) : List Circuit :=
  let l := d.logicalOf c
  d.circsFrom (d.engCtx c e) fun s =>
    decide (s.kind = 0 ∧ s.cl = clOf c ∧ s.core = l ∧ s.eng = e ∧ s.idx = o)

/-- The circuits from a crossbar port of a cluster. -/
def Dev.portCircs (d : Dev) (cl port : Nat) : List Circuit :=
  d.fab.circuits.filter fun x => decide (x.src.kind = 3 ∧ x.src.cl = cl ∧ x.src.num = port)

/-- The core that a circuit's producer lies in, if it is an engine or a counter unit. -/
def Dev.srcCore (d : Dev) (x : Circuit) : Option Nat :=
  if x.src.kind = 0 ∨ x.src.kind = 2 then some (d.physCore x.src.cl x.src.core) else none

/-- The core that a circuit ends in, if it ends at an engine or a counter. -/
def Dev.dstCore (d : Dev) (x : Circuit) : Option Nat :=
  if x.dst.kind = 1 ∨ x.dst.kind = 2 then some (d.physCore x.dst.cl x.dst.core) else none

/-- A circuit enters a switch group from outside it (R171). -/
def Dev.isEntry (d : Dev) (x : Circuit) : Bool :=
  (d.srcCore x).isNone && (d.dstCore x).isSome

/-! Notices and network inputs (R255, R282, R291, R299, R301, R302) -/

/-- A notice on its way to the Screed. -/
def Dev.postNotice (d : Dev) (skew : Bool) (kind : NoticeKind) (slot core : Nat) : Dev :=
  { d with fab := { d.fab with notices := d.fab.notices ++ [⟨skew, kind, slot, core⟩] } }

/-- A notice taken off the way, if it is there. -/
def Dev.takeNotice (d : Dev) (skew : Bool) (kind : NoticeKind) (slot core : Nat) : Dev :=
  { d with fab := { d.fab with notices := d.fab.notices.erase ⟨skew, kind, slot, core⟩ } }

/-- The event in an event slot. -/
def Dev.evInSlot (d : Dev) (slot : Nat) : Option Ev := SMap.get (fun _ => none) d.scr.slots (slot % 256)

/-- A network input's token reaches the Screed (R282); for a LATE event decided before, it only serves to measure completion
(R302). -/
def Dev.netInput (d : Dev) (i slot : Nat) (v : Word) (deg : Bool) : Dev :=
  match d.evInSlot slot with
  | none => d
  | some e =>
    if d.isPrim i || !d.flag (Reg.scrInput i) Fld.scrInputEn || (evInput e i).isSome || !e.admitted then d
    else
      let d := d.countIf (e.late && e.own.isSome) Reg.scrLateInputs
      let e := { e with inputs := SMap.set (fun _ => none) e.inputs i (some ⟨v, deg, d.net16⟩) }
      let (d, e) := d.measure e
      d.putEv e

/-- A notice reaches the Screed (R299, R301). In group mode one that comes after the local deadline changes nothing any more and counts as
late (DESIGN CHOICE, log entry 69). -/
def Dev.noticeArrives (d : Dev) (slot core : Nat) : Dev :=
  match d.evInSlot slot with
  | none => d.count Reg.scrNoticeLate
  | some e =>
    if e.own.isSome then d.count Reg.scrNoticeLate
    else d.putEv { e with notices := e.notices ++ [core] }

/-- Records of an event still under assembly carry SKEW (R255). -/
def Dev.skewRecords (d : Dev) (n : Nat) : Dev :=
  let f := fun (r : RecordRec) => if r.event = n ∧ r.doneAt.isNone then { r with skew := true } else r
  { d with store := { d.store with recs := d.store.recs.map f } }

/-- A skew notice reaches the Screed (R255, R291), and counts in the running interval (Table 8.8). -/
def Dev.skewArrives (d : Dev) (slot core : Nat) : Dev :=
  let d := (d.count Reg.scrSkewNotices).rfMod (d.netNs / 1000000) fun a => { a with skew := a.skew + 1 }
  match d.evInSlot slot with
  | none => d.count Reg.numSkewLate
  | some e =>
    if e.released then (d.count Reg.numSkewLate).skewRecords e.n
    else d.putEv { e with skews := e.skews ++ [core] }

/-! Drip's segments (R190, R191) -/

/-- An open spill in segment j of a cluster. -/
def Dev.spill (d : Dev) (cl j : Nat) : Option Spill := SMap.get (fun _ => none) d.fab.spills (4 * cl + j)

/-- A segment changed; DRP_OPEN and DRP_USED follow. -/
def Dev.setSpill (d : Dev) (cl j : Nat) (s : Option Spill) : Dev :=
  let d := { d with fab := { d.fab with spills := SMap.set (fun _ => none) d.fab.spills (4 * cl + j) s } }
  let all := (List.range 4).filterMap fun i => d.spill cl i
  (d.setFld (Reg.drpOpen cl) Fld.drpOpenOpen all.length).wr (Reg.drpUsed cl) ((all.map fun s => s.toks.length).sum)

/-- A Drip set of a cluster. -/
def Dev.drip (d : Dev) (cl s : Nat) : DripRec := SMap.get (fun _ => DripRec.init) d.fab.drips (32 * cl + s)

/-- A Drip set changed. -/
def Dev.setDrip (d : Dev) (cl s : Nat) (r : DripRec) : Dev :=
  { d with fab := { d.fab with drips := SMap.set (fun _ => DripRec.init) d.fab.drips (32 * cl + s) r } }

/-- Tokens that a segment holds: SIZE / 64 of 16 bytes, SIZE being the area's size in bytes (Table 5.11). -/
def Dev.segCap (d : Dev) (cl : Nat) : Nat := d.fld (Reg.drpAsize cl) Fld.drpAsizeSize64k * 65536 / 64

/-- Where token i of segment j lies in the cluster's Drip area. -/
def Dev.segAddr (d : Dev) (cl j i : Nat) : Nat :=
  d.fld (Reg.drpArea cl) Fld.drpAreaBase64k * 65536 + (j * d.segCap cl + i % d.segCap cl) * 16

/-- One token written at the tail of an open segment (R191, R192). -/
def Dev.segPush (d : Dev) (cl j : Nat) (s : Spill) (t : DripTok) : Dev :=
  let d := d.stackWrite (d.fld (Reg.drpArea cl) Fld.drpAreaStack) (d.segAddr cl j s.wrote) (leBytes 16 (tokBits t.tok))
  (d.setSpill cl j (some { s with toks := s.toks ++ [t], wrote := s.wrote + 1 })).count (Reg.drpTokens cl)

/-- The segment whose open spill takes a queue's tokens: set, queue index and segment. -/
def Dev.openSpillOf (d : Dev) (cl : Nat) (q : Endp) : Option (Nat × Spill) :=
  (List.range 4).findSome? fun j =>
    match d.spill cl j with
    | some s => if (d.drip cl s.set).queues.getD s.queue ⟨0, 0, 0, 0, 0, 0⟩ = q then some (j, s) else none
    | none => none

/-- The input queue of an engine as a Drip set names it. -/
def iqEndp (cl l e q : Nat) : Endp := ⟨1, cl, l, e, q, 0⟩

/-- The output queue of a core's counter unit as a Drip set names it. -/
def cuEndp (cl l : Nat) : Endp := ⟨2, cl, l, 0, 0, 0⟩

/-- The request queue of a logical cluster-memory bank as a Drip set names it (log entry 43). -/
def bankEndp (cl l : Nat) : Endp := ⟨3, cl, l / 2, 0, 2 + l % 2, 0⟩

/-- A transfer into or out of a queue: the timers of its set run anew, and each that comes while a spill is being written is
counted (R189, R194). -/
def Dev.dripTransfer (d : Dev) (q : Endp) : Dev :=
  (List.range 32).foldl (fun f s =>
    let r := f.drip q.cl s
    if r.queues.contains q then
      (f.countIf r.spilling.isSome (Reg.drpLateArrival q.cl)).setDrip q.cl s { r with since := r.since.map fun _ => f.devNs }
    else f) d

/-! Tokens put before a hop -/

/-- The buffers of a store's parts, given from the next link on, that a token which comes in behind n others passes through. -/
def buffersIn : Nat → List (Option Endp × Nat) → List Endp
  | _, [] => []
  | n, p :: ps => (if n < p.2 then p.1.toList else []) ++ (buffersIn (n - p.2) ps)

/-- The buffers that hold a token of n, of which the first leaves. -/
def buffersOut : Nat → List (Option Endp × Nat) → List Endp
  | _, [] => []
  | n, p :: ps => (if 0 < n then p.1.toList else []) ++ (buffersOut (n - p.2) ps)

/-- A token of a free-class circuit comes in before hop h, or the first goes: a transfer of each buffer that it or one behind it passes
(R189). -/
def Dev.storeTransfer (d : Dev) (x : Circuit) (h : Nat) (into : Bool) : Dev :=
  if x.free then
    let n := d.storeLoad (x.store h) true
    (if into then buffersIn n (x.partsAt h) else buffersOut n (x.partsAt h)).foldl (fun f q => f.dripTransfer q) d
  else d

/-- The open spill that a token meets on its way through the parts of a store, given from the next link on: the first from where it comes in
(R191). -/
def Dev.spillOf (d : Dev) (ps : List (Option Endp × Nat)) : Option (Nat × Nat × Spill) :=
  ps.reverse.findSome? fun p => p.1.bind fun q => (d.openSpillOf q.cl q).map fun s => (q.cl, s)

/-- The open spill that takes the tokens for the store before hop h of a free-class circuit (R191). -/
def Dev.spillAt (d : Dev) (x : Circuit) (h : Nat) : Option (Nat × Nat × Spill) := if x.free then d.spillOf (x.partsAt h) else none

/-- A token comes to wait before hop h of a circuit; one for a buffer with an open spill goes to the tail of the segment (R191). -/
def Dev.putHop (d : Dev) (x : Circuit) (h : Nat) (t : Token) : Dev :=
  match d.spillAt x h with
  | some (cl, j, s) => d.segPush cl j s (.at x.key h t)
  | none => (d.storeTransfer x h true).placeAt x.key h t

/-- The token at the head of hop h of a circuit taken away. -/
def Dev.dropHead (d : Dev) (x : Circuit) (h : Nat) : Dev :=
  let d := d.storeTransfer x h false
  d.setWaiting x.key h (d.waiting x.key h).tail

/-- A place is free for a circuit's next token before hop h: in the segment of an open spill, or in the store (R193). -/
def Dev.putRoom (d : Dev) (x : Circuit) (h : Nat) : Bool :=
  match d.spillAt x h with
  | some (cl, _, s) => decide (s.toks.length < d.segCap cl)
  | none => d.hopRoom x h

/-- A token put on a circuit by its producer. One that an entry port sends counts as sent there; one that a core sends counts when it
leaves by the core's port. -/
def Dev.send (d : Dev) (x : Circuit) (t : Token) : Dev :=
  (if x.src.kind = 0 ∨ x.src.kind = 2 then d else d.noteSent x t).putHop x 0 t

/-! Input queues (R123, R177, R181) -/

/-- Input queue q of an engine. -/
def Dev.iq (d : Dev) (c e q : Nat) : List Token := if q = 0 then (d.eng c e).q0 else (d.eng c e).q1

/-- Input queue q of an engine changed. -/
def Dev.setIq (d : Dev) (c e q : Nat) (ts : List Token) : Dev :=
  let x := d.eng c e
  d.setEng c e (if q = 0 then { x with q0 := ts } else { x with q1 := ts })

/-- Input queue q is closed behind a marker. -/
def Dev.iqClosed (d : Dev) (c e q : Nat) : Bool := if q = 0 then (d.eng c e).closed0 else (d.eng c e).closed1

/-- Input queue q closed or reopened. -/
def Dev.setClosed (d : Dev) (c e q : Nat) (b : Bool) : Dev :=
  let x := d.eng c e
  d.setEng c e (if q = 0 then { x with closed0 := b } else { x with closed1 := b })

/-- The class that an engine's context gives input queue q: free or timed; none while no context is loaded (R123). -/
def Dev.iqClass (d : Dev) (c e q : Nat) : Option Bool := (d.ctxRec c (d.engCtx c e)).map fun x => bitAt x.qclass (2 * e + q)

/-- Input queue q takes a token of a class now: open, of that class, and with a place of its eight (R123, R177, Table 4.11). -/
def Dev.iqRoom (d : Dev) (c e q : Nat) (free : Bool) : Bool :=
  !d.iqClosed c e q && decide (d.iqClass c e q ≠ some !free) && decide ((d.iq c e q).length < 8)

/-- A token reaches an input queue: discarded by a fenced core (R137), dropped as STALE when its epoch is not the
engine's (R181), closing the queue when it is a marker (R177). -/
def Dev.iqArrive (d : Dev) (c e q : Nat) (t : Token) : Dev :=
  if d.coreState c = coFenced then d
  else if d.iqRoom c e q t.free = false then d
  else if t.epoch.toNat ≠ d.engEpoch c e then d.count (Reg.coStale (clOf c) (posOf c))
  else
    let d := d.setIq c e q (d.iq c e q ++ [t])
    let d := if tokMarker t then d.setClosed c e q true else d
    if t.free then d.dripTransfer (iqEndp (clOf c) (d.logicalOf c) e q) else d

/-- Whether the token at the head of input queue q is of the free class. -/
def Dev.headFree (d : Dev) (c e q : Nat) : Bool :=
  match d.iq c e q with
  | t :: _ => t.free
  | [] => false

/-- The head of input queue q removed. -/
def Dev.iqPop (d : Dev) (c e q : Nat) : Dev :=
  let free := d.headFree c e q
  let d := d.setIq c e q (d.iq c e q).tail
  if free then d.dripTransfer (iqEndp (clOf c) (d.logicalOf c) e q) else d

/-- The open spill of an input queue that takes its free-class tokens (R191); a fenced core has none. -/
def Dev.iqSpill (d : Dev) (c e q : Nat) (free : Bool) : Option (Nat × Spill) :=
  if free && decide (d.coreState c ≠ coFenced) then d.openSpillOf (clOf c) (iqEndp (clOf c) (d.logicalOf c) e q) else none

/-- An input queue, or the segment of its open spill, takes a token of a class now (R123, R191, R193). -/
def Dev.iqTakes (d : Dev) (c e q : Nat) (free : Bool) : Bool :=
  match d.iqSpill c e q free with
  | some (_, s) => decide (d.iqClass c e q ≠ some !free) && decide (s.toks.length < d.segCap (clOf c))
  | none => d.iqRoom c e q free

/-- A token reaches an input queue, or the segment of its open spill; one that finds no place there is not taken. -/
def Dev.iqDeliver (d : Dev) (c e q : Nat) (t : Token) : Dev :=
  match d.iqSpill c e q t.free with
  | some (j, s) => if d.iqTakes c e q t.free then d.segPush (clOf c) j s ⟨0, 0, t, [], none, 0⟩ else d
  | none => d.iqArrive c e q t

/-! Switch requests (R173 to R175, R462) -/

/-- Every core of a group holds context k; a fenced core counts as having switched (R458). -/
def Dev.ctxLoaded (d : Dev) (g k : Nat) : Bool :=
  (d.grp g).cores.all fun c => d.coreState c = coFenced || (d.ctxRec c k).isSome

/-- The target of a request is loaded: the context, and where a section is asked for, that section in it (R175, R185). -/
def Dev.targetLoaded (d : Dev) (g : Nat) (r : SwitchReq) : Bool :=
  d.ctxLoaded g r.ctx && (match r.sec with
    | some i => (d.grp g).loadedSecs.contains i
    | none => true)

/-- The section table of a group schedules the load of a request's target. -/
def Dev.targetScheduled (d : Dev) (g : Nat) (r : SwitchReq) : Bool :=
  match r.sec with
  | some i => (((d.grp g).sections_[i]?).map fun s => !s.resident).getD false
  | none => (d.grp g).sections_.any fun s => decide (s.ctx = r.ctx) && !s.resident

/-- A group takes a request: it has cores, no request waits (R174), the target is loaded or scheduled (R175), and no load of its
section table has failed (R462). -/
def Dev.switchOk (d : Dev) (g : Nat) (r : SwitchReq) : Bool :=
  let x := d.grp g
  !x.cores.isEmpty && x.req.isNone && !(x.secFailed && x.sections_.any fun s => s.ctx = r.ctx) &&
    (d.targetLoaded g r || d.targetScheduled g r)

/-- A switch request of the device's own reaches a group: it waits for acceptance, or is refused and logged (R174, R175, R462).
The object of the log entry is the group's SCR_CTXSEL register; OLD is the context in service, NEW the one asked for. -/
def Dev.switchReq (d : Dev) (g : Nat) (r : SwitchReq) : Dev :=
  let x := d.grp g
  if d.switchOk g r then d.setGrp g { x with req := some r }
  else d.logInternal (Reg.scrCtxsel g) x.ctx r.ctx .refused

/-! Counters and control tokens (R165 to R167, R185) -/

/-- A counter of a core: its context, and its number; with the epoch of the tokens it emits. -/
structure CtrRef where
  core : Nat
  ctx : Nat
  epoch : Nat
  num : Nat
  deriving DecidableEq, Repr

/-- Counter k of a core in its counter unit's context. -/
def Dev.cuRef (d : Dev) (c k : Nat) : CtrRef := ⟨c, d.cuCtx c, d.cuEpoch c, k⟩

/-- Counter k of a core in the context that an engine runs (R165). -/
def Dev.engRef (d : Dev) (c e k : Nat) : CtrRef := ⟨c, d.engCtx c e, d.engEpoch c e, k⟩

/-- A counter. -/
def Dev.counter (d : Dev) (k : CtrRef) : CounterRec :=
  SMap.get (fun _ => CounterRec.init) (d.core k.core).counters (16 * k.ctx + k.num)

/-- That counter changed. -/
def Dev.setCounter (d : Dev) (k : CtrRef) (r : CounterRec) : Dev :=
  let x := d.core k.core
  d.setCore k.core { x with counters := SMap.set (fun _ => CounterRec.init) x.counters (16 * k.ctx + k.num) r }

/-- A section's end counter has emitted END: a request for the next section of the table (R185). -/
def Dev.sectionEnd (d : Dev) (k : CtrRef) : Dev :=
  let g := d.groupOf k.core
  let x := d.grp g
  let i := (x.sec + 1) % x.sections_.length
  match x.sections_[x.sec]? with
  | some s =>
    if s.endCounter = k.num ∧ s.endCore = d.deviceCore k.core ∧ s.ctx = k.ctx then
      match x.sections_[i]? with
      | some n => d.switchReq g ⟨n.ctx, true, false, some i⟩
      | none => d
    else d
  | none => d

/-- The circuits from a counter. -/
def Dev.ctrCircs (d : Dev) (k : CtrRef) : List Circuit :=
  let l := d.logicalOf k.core
  d.circsFrom k.ctx fun s => decide (s.kind = 2 ∧ s.cl = clOf k.core ∧ s.core = l ∧ s.idx = k.num)

/-- Some SWITCH or MERGE of the counter's context reads its tokens at the head of the counter unit's output (Table 12.9, CTL). -/
def Dev.ctrRead (d : Dev) (k : CtrRef) : Bool :=
  match d.ctxRec k.core k.ctx with
  | some x => x.descs.any fun p =>
      let y := Desc.of p.2
      y.valid && decide (y.op = 6 ∨ y.op = 7) && decide (y.ctl = 3) && decide (y.ctr = k.num)
  | none => false

/-- The control tokens of one class of a core's counter unit, oldest first: eight of them stand in its output queue, the others wait to
enter it (R161, R167). -/
def Dev.cuTokens (d : Dev) (c : Nat) (free : Bool) : List CuTok := (d.core c).cuOut.filter fun t => t.tok.free = free

/-- The free-class tokens held before the counter unit's output queue enter it, or the segment of its open spill, as far as there is room
(R191, R193). -/
def Dev.cuFeed (d : Dev) (c : Nat) : Nat → Dev
  | 0 => d
  | n + 1 =>
    let q := cuEndp (clOf c) (d.logicalOf c)
    let r := d.core c
    match r.cuHeld with
    | [] => d
    | t :: ts =>
      match d.openSpillOf (clOf c) q with
      | some (j, s) =>
        if s.toks.length < d.segCap (clOf c) then
          ((d.setCore c { r with cuHeld := ts }).segPush (clOf c) j s ⟨0, 0, t.tok, t.left, none, 0⟩).cuFeed c n
        else d
      | none => ((d.setCore c { r with cuHeld := ts, cuOut := r.cuOut ++ [t] }).dripTransfer q).cuFeed c n

/-- A control token enters the counter unit's output queue; a timed one that finds its eight places full is an overflow (R161). -/
def Dev.cuPut (d : Dev) (c : Nat) (t : CuTok) : Dev :=
  if t.tok.free then
    let r := d.core c
    (d.setCore c { r with cuHeld := r.cuHeld ++ [t] }).cuFeed c (r.cuHeld.length + 1)
  else
    let d := if 8 ≤ (d.cuTokens c false).length then
        (d.count (Reg.coTimedOvf (clOf c) (posOf c))).postNotice false .timedOverflow t.tok.evslot.toNat (d.deviceCore c)
      else d
    d.setCore c { d.core c with cuOut := (d.core c).cuOut ++ [t] }

/-- A control token leaves a counter: into the output queue, for its circuits or for a descriptor that reads it (R167). -/
def Dev.emitCtl (d : Dev) (k : CtrRef) (op v : Nat) (free : Bool) (ev : Nat) (deg : Bool) : Dev :=
  let t := mkToken (v % 2 ^ 32 + k.num * 2 ^ 32 + op * 2 ^ 36) free k.epoch ev 2 deg 0
  let outs := d.ctrCircs k
  let d := if outs.isEmpty && !d.ctrRead k then d else d.cuPut k.core ⟨t, outs.map fun x => x.key⟩
  if op = 2 then d.sectionEnd k else d

/-- One trigger acts on a counter (Table 5.6). -/
def Dev.trigger (d : Dev) (k : CtrRef) (v tag : Nat) (free : Bool) (ev : Nat) (deg : Bool) : Dev :=
  let r := d.counter k
  let out := if free then (if r.tagsrc then tag else 0) else ev
  if r.mode = 1 then
    if r.count ≤ 1 then (d.setCounter k { r with count := r.reload }).emitCtl k 2 r.reload free out deg
    else d.setCounter k { r with count := r.count - 1 }
  else if r.mode = 2 then
    if r.waiting then d.setCounter k { r with held := r.held ++ [(v, tag, deg)] }
    else if r.count ≤ 1 then
      (d.setCounter k { r with count := 0, waiting := true }).emitCtl k 2 r.start free out (deg || r.deg)
    else d.setCounter k { r with count := r.count - 1 }
  else if r.mode = 3 then
    d.emitCtl k 0 (bit01 (decide (signedOf 32 r.limit ≤ signedOf 32 v))) free out deg
  else d

/-- Held triggers applied in order until the counter waits again (R166). -/
def Dev.applyHeld (d : Dev) (k : CtrRef) : Nat → Dev
  | 0 => d
  | n + 1 =>
    let r := d.counter k
    match r.held with
    | [] => d
    | (v, tag, deg) :: rest =>
      if r.waiting then d
      else ((d.setCounter k { r with held := rest }).trigger k v tag true 0 deg).applyHeld k n

/-- A COUNT token reaches a DATA counter that waits for one (R166). -/
def Dev.countTok (d : Dev) (k : CtrRef) (v : Nat) (deg : Bool) : Dev :=
  let r := d.counter k
  if r.mode = 2 ∧ r.waiting then
    if v = 0 then d.emitCtl k 2 0 true 0 deg
    else (d.setCounter k { r with count := v, start := v, waiting := false, deg := deg }).applyHeld k r.held.length
  else d

/-! Credit loops (R198 to R200) -/

/-- A CREDIT token adds its count to a loop's available credits (R200). -/
def Dev.addCredits (d : Dev) (cl k n : Nat) : Dev :=
  if d.flag (Reg.crlLoop cl k) Fld.crlLoopEn then
    let bound := d.fld (Reg.crlLoop cl k) Fld.crlLoopBound
    let sum := d.fld (Reg.crlStat cl k) Fld.crlStatAvail + n
    if bound < sum then
      let d := d.setFld (Reg.crlStat cl k) Fld.crlStatAvail bound
      (d.setFld (Reg.crlStat cl k) Fld.crlStatExceeded
        (satInc 16 1 (d.fld (Reg.crlStat cl k) Fld.crlStatExceeded))).count (Reg.crlBoundTotal cl)
    else d.setFld (Reg.crlStat cl k) Fld.crlStatAvail sum
  else d

/-- The credit loop that a counter holds. -/
def Dev.loopOf (d : Dev) (k : CtrRef) : Option Nat :=
  let cl := clOf k.core
  let l := d.logicalOf k.core
  findBelow (fun i =>
    let w := d.rd (Reg.crlLoop cl i)
    bitAt w 17 && decide (bitsOf w 0 4 = l ∧ bitsOf w 4 2 = k.ctx ∧ bitsOf w 6 4 = k.num)) 64

/-- Credits available to a descriptor gated by a counter (R199). -/
def Dev.creditsOf (d : Dev) (k : CtrRef) : Nat :=
  match d.loopOf k with
  | some i => d.fld (Reg.crlStat (clOf k.core) i) Fld.crlStatAvail
  | none => 0

/-- One credit taken by an issue (R199). -/
def Dev.takeCredit (d : Dev) (k : CtrRef) : Dev :=
  match d.loopOf k with
  | some i =>
    let a := Reg.crlStat (clOf k.core) i
    d.setFld a Fld.crlStatAvail (d.fld a Fld.crlStatAvail - 1)
  | none => d

/-- A context's load sets the available credits of the loops it holds to BOUND (R198). -/
def Dev.loadCredits (d : Dev) (c ctx : Nat) : Dev :=
  let cl := clOf c
  let l := d.logicalOf c
  (List.range 64).foldl (fun f k =>
    let w := f.rd (Reg.crlLoop cl k)
    if bitAt w 17 && decide (bitsOf w 0 4 = l ∧ bitsOf w 4 2 = ctx) then
      f.setFld (Reg.crlStat cl k) Fld.crlStatAvail (f.fld (Reg.crlLoop cl k) Fld.crlLoopBound)
    else f) d

/-! Die links (R144 to R146, R460) -/

/-- The flit that a token enters as it crosses the edge port of a cluster toward its die link: of the X-die's end of the half, or of
the other C-die's end; none at a stack port. -/
def outFlit (cl : Nat) : Option Nat :=
  (edgeLink cl).map fun dk => if dk.2 < 2 then 8 * dk.1 + 4 + dk.2 else let e := linkPeer dk; 8 * e.1 + e.2

/-- Attempts of a link's retraining, plus 1; 0 while it carries tokens. -/
def Dev.linkTries (d : Dev) (dk : Nat × Nat) : Nat := SMap.get (fun _ => 0) d.fab.linkTries (4 * dk.1 + dk.2)

/-- A die link carries no tokens. -/
def Dev.linkLost (d : Dev) (dk : Nat × Nat) : Bool :=
  decide (0 < d.linkTries dk) || decide (0 < d.linkTries (linkPeer dk))

/-- The X-die half through which an entry row's circuit comes in: that of its first link's cluster. -/
def Circuit.entryLink (x : Circuit) : Option (Nat × Nat) :=
  if x.src.kind = 5 then edgeLink (linkCl (x.link 0)) else none

/-! Entry ports (R171, R172, R176) -/

/-- The marker of a wave on a circuit, in the old epoch (Table 5.8). -/
def markerTok (w : Wave) (old : Nat) (free : Bool) : Token :=
  mkToken (w.ctx + w.epoch * 4 + bit01 w.section_ * 16 + w.first % 2 ^ 48 * 2 ^ 8) free old
    (if free then 0 else (w.first + 255) % 256) 3 false 0

/-- The wave and group of the core that an entry circuit feeds. -/
def Dev.circWave (d : Dev) (x : Circuit) : Option Wave := (d.dstCore x).bind d.waveOf

/-- The marker goes out on an entry circuit, and the port stamps the new epoch from then on. -/
def Dev.putMarker (d : Dev) (x : Circuit) (w : Wave) : Dev :=
  let r := d.cst x.key
  let d := d.send x (markerTok w r.epoch x.free)
  d.setCst x.key { d.cst x.key with marked := true, epoch := w.epoch }

/-- A circuit is one of the old context of the wave that passes through its core, and has not carried the marker yet. -/
def Dev.awaitsMarker (d : Dev) (x : Circuit) : Bool :=
  !(d.cst x.key).marked && (match d.dstCore x with
    | some c => x.inCtx (d.coreCtx c)
    | none => false)

/-- An entry port passes a token into a group, with the epoch of the circuit in it; the first token of an event under the new context
finds the marker sent before it (R172, R176). -/
def Dev.entrySend (d : Dev) (x : Circuit) (t : Token) : Dev :=
  let d := match d.circWave x with
    | some w => if !x.free && d.awaitsMarker x && decide ((t.evslot.toNat + 256 - w.first % 256) % 256 < 128) then d.putMarker x w
      else d
    | none => d
  d.send x { t with epoch := BitVec.ofNat 2 (d.cst x.key).epoch, free := x.free }

/-- The crossing FIFO of an edge port into the crossbar, with the port's buffer and the tokens on the link to it, is full for a circuit that
comes in by it. -/
def Dev.entryFull (d : Dev) (x : Circuit) : Bool := !d.hopRoom x 0

/-- The X-die sends a token on an entry row's circuit: in the next flit of its link, or at once where no die link lies between; a lost
link's receiving port sends a stand-in for a timed-class one (R439, R460). A timed-class token that finds the crossing FIFO full is an
overflow (R161). -/
def Dev.xdieSend (d : Dev) (x : Circuit) (t : Token) : Dev :=
  match x.entryLink with
  | none => d.entrySend x t
  | some dk =>
    if d.linkLost dk then
      if x.free then d else (d.entrySend x (standIn 0 t.evslot.toNat)).count (Reg.dieStandin dk.1)
    else
      let d := if !x.free && d.entryFull x then
          d.postNotice false .timedOverflow t.evslot.toNat (((d.dstCore x).map d.deviceCore).getD 0)
        else d
      d.setFlit (8 * dk.1 + dk.2) (d.flitOf (8 * dk.1 + dk.2) ++ [.at x.key 0 t])

end Sys2Proof.Machine
end

