-- ==== Sys2Proof/Machine/Stats.lean ====
section
/-!
DEFINITION. The statistics unit, scale adaptation, Scrim lanes and adaptation epochs ("Number formats, scaling and online
adaptation").
-/

namespace Sys2Proof.Machine

open Sys2Proof

/-! Rows (R246, R256, R257) -/

/-- A row of the statistics unit. -/
def Dev.row (d : Dev) (cl r : Nat) : RowRec := SMap.get (fun _ => RowRec.init) d.num.rows (4096 * cl + r)

/-- A row changed. -/
def Dev.setRow (d : Dev) (cl r : Nat) (x : RowRec) : Dev :=
  { d with num := { d.num with rows := SMap.set (fun _ => RowRec.init) d.num.rows (4096 * cl + r) x } }

/-- The rows in use of a cluster, ascending. -/
def Dev.rowsUsed (d : Dev) (cl : Nat) : List Nat := d.nonzero (Reg.numRow cl 0) 4 4096 Fld.numRowInUse

/-- A row's configuration register. -/
def Dev.rowCfg (d : Dev) (cl r : Nat) : Nat := Reg.numRcCfg cl (d.fld (Reg.numRow cl r) Fld.numRowClass)

/-- A row's limits register. -/
def Dev.rowLimits (d : Dev) (cl r : Nat) : Nat := Reg.numRcLimits cl (d.fld (Reg.numRow cl r) Fld.numRowClass)

/-- A row's format code. -/
def Dev.rowFmt (d : Dev) (cl r : Nat) : Nat := d.fld (d.rowCfg cl r) Fld.numRcCfgFormat

/-- A row's current exponent. -/
def Dev.rowExp (d : Dev) (cl r : Nat) : Int := signedOf 8 (d.fld (Reg.numRow cl r) Fld.numRowE)

/-- The row that a circuit marked for statistics carries: the marked circuits of a cluster, ascending, are its rows in
use, ascending (log entry 46). -/
def Dev.rowOfCirc (d : Dev) (x : Circuit) : Option Nat :=
  let cl := x.key / 65536
  if x.stat then
    let i := ((d.fab.circuits.filter fun y => y.stat && decide (y.key / 65536 = cl ∧ y.key < x.key)).length)
    (d.rowsUsed cl)[i]?
  else none

/-- The output that a circuit starts from is a QUANT's, whose DATA tokens hold one code each (log entry 48). -/
def Dev.quantFed (d : Dev) (x : Circuit) : Bool :=
  let c := d.physCore x.src.cl x.src.core
  decide (x.src.kind = 0) && (d.descs c x.src.eng).any fun k =>
    let y := d.desc c x.src.eng k
    decide (y.op = 2 ∧ y.out0 = x.src.idx)

/-- One code of a row noted at its channel position (R249, R261). -/
def StepStat.see (w : StepStat) (f code : Nat) : StepStat :=
  let m := codeMag f code
  let sat := codeSaturated f code
  { w with
    maxabs := if w.maxabs < m then m else w.maxabs, sat := w.sat + bit01 sat, counted := (w.counted + 1) % 64,
    satPos := if sat then w.satPos ++ [w.counted] else w.satPos,
    chanMax := SMap.set (fun _ => 0) w.chanMax w.counted (max m (SMap.get (fun _ => 0) w.chanMax w.counted)) }

/-- The running step of a row is complete (R257). -/
def RowRec.complete (w : RowRec) : RowRec := { w with run := StepStat.init, due := w.due ++ [w.run] }

/-- A token of a marked circuit crosses the crossbar: the codes of a DATA token enter the row's statistics, at the channels that their
places in the block give, counted from its SCALE token (R261), and those of a degraded one are left out (R249, R256). The step of an EVENT row is complete with the last of the
tokens that its circuit declares for an event, stand-ins for missing ones among them (R257). -/
def Dev.observe (d : Dev) (x : Circuit) (t : Token) : Dev :=
  match d.rowOfCirc x with
  | none => d
  | some r =>
    if t.kind.toNat ≠ 0 ∧ t.kind.toNat ≠ 1 ∧ t.kind.toNat ≠ 4 then d
    else
      let cl := x.key / 65536
      let w := d.row cl r
      let f := d.rowFmt cl r
      let n := if d.quantFed x then 1 else (fmtStride f).2
      let run := { w.run with toks := w.run.toks + 1 }
      let run := if t.kind.toNat = 1 then { run with counted := 0 }
        else if tokBad t then { run with counted := (run.counted + n) % 64 }
        else
          let v := (List.range n).foldl (fun v j => v.see f (codeAt f t.payload.toNat j)) run
          { v with seen := v.seen + 1 }
      let w := { w with run := run }
      d.setRow cl r (if !d.flag (d.rowCfg cl r) Fld.numRcCfgStepKind && decide (run.toks = x.kc) then w.complete else w)

/-- The row classes of step kind BATCH that rows of a cluster are in, ascending. -/
def Dev.batchClasses (d : Dev) (cl : Nat) : List Nat :=
  (List.range 16).filter fun k => d.flag (Reg.numRcCfg cl k) Fld.numRcCfgStepKind &&
    (d.rowsUsed cl).any fun r => decide (d.fld (Reg.numRow cl r) Fld.numRowClass = k)

/-- A control token reaches the statistics port: the END token of a batch completes the step of the rows of a class, the circuits into the
port, ascending, serving the classes of step kind BATCH, ascending (R257, log entry 46). -/
def Dev.batchEnd (d : Dev) (x : Circuit) (t : Token) : Dev :=
  let cl := x.dst.cl
  let i := (d.fab.circuits.filter fun y => decide (y.dst.kind = 3 ∧ y.dst.cl = cl ∧ y.dst.num = 35 ∧ y.key < x.key)).length
  if t.kind.toNat = 2 ∧ bitsOf t.payload.toNat 36 3 = 2 then
    match (d.batchClasses cl)[i]? with
    | some k => ((d.rowsUsed cl).filter fun r => decide (d.fld (Reg.numRow cl r) Fld.numRowClass = k)).foldl (fun f r =>
        f.setRow cl r (f.row cl r).complete) d
    | none => d
  else d

/-! The close of a step (R257, R258, R260, R261, R265, R266) -/

/-- A change of an exponent or a promotion: NUM_SCALE_EPOCH up by 1. -/
def Dev.scaleEpoch (d : Dev) : Dev := d.count Reg.numScaleEpoch

/-- The exponent range of a row; BF16 rows of adaptation contexts use −128 to 127 (R246). -/
def rowRange (f : Nat) : Int × Int := if f = 1 then (-128, 127) else ((fmtOf f).eMin, (fmtOf f).eMax)

/-- The word that a live write is about to replace, kept for a step that closes in the same handshake cycle (R260). -/
def Dev.noteReplaced (d : Dev) (a : Nat) : Dev :=
  { d with num := { d.num with replaced := SMap.set (fun _ => none) d.num.replaced a (some (d.rd a)) } }

/-- A word of NUM_RC_LIMITS or NUM_GCFG as a closing step takes it: the one that the latest write replaced, if the step closes in the
handshake cycle of its acceptance (R260). -/
def Dev.stepWord (d : Dev) (a : Nat) (tie : Bool) : Nat :=
  match (if tie then SMap.get (fun _ => none) d.num.replaced a else none) with
  | some v => v
  | none => d.rd a

/-- The decision of R258. -/
def Dev.adaptRow (d : Dev) (cl r : Nat) (w : StepStat) (tie : Bool) : Dev :=
  let a := Reg.numRow cl r
  let f := d.rowFmt cl r
  let lim := d.stepWord (d.rowLimits cl r) tie
  if !d.flag (d.rowCfg cl r) Fld.numRcCfgMode || decide (fieldOf (d.stepWord Reg.numGcfg tie) Fld.numGcfgScaleHold = 1) then d
  else
    let e := d.rowExp cl r
    let (lo, hi) := rowRange f
    if fieldOf lim Fld.numRcLimitsSatLimit < w.sat then
      let d := d.setFld a Fld.numRowShrink 0
      if e < hi then ((d.setFld a Fld.numRowE (lowBits 8 (e + 1))).count (Reg.numRises cl)).scaleEpoch
      else d.count (Reg.numClamp cl)
    else if ((magVal f w.maxabs).scale 2).lt (magVal f (fmtOf f).top) then
      let s := d.fld a Fld.numRowShrink + 1
      if s = fieldOf lim Fld.numRcLimitsShrinkSteps then
        let d := d.setFld a Fld.numRowShrink 0
        if lo < e then ((d.setFld a Fld.numRowE (lowBits 8 (e - 1))).count (Reg.numFalls cl)).scaleEpoch
        else d.count (Reg.numClamp cl)
      else d.setFld a Fld.numRowShrink s
    else d.setFld a Fld.numRowShrink 0

/-- A declared channel beside its registers. -/
def Dev.dchan (d : Dev) (cl j : Nat) : ChanRec := SMap.get (fun _ => ⟨0, 0⟩) d.num.chans (2048 * cl + j)

/-- A declared channel changed. -/
def Dev.setDchan (d : Dev) (cl j : Nat) (x : ChanRec) : Dev :=
  { d with num := { d.num with chans := SMap.set (fun _ => ⟨0, 0⟩) d.num.chans (2048 * cl + j) x } }

/-- The declared channels of a row with their positions. -/
def Dev.chansOf (d : Dev) (cl r : Nat) : List (Nat × Nat) :=
  (d.nonzero (Reg.numCmap cl 0) 4 2048 Fld.numCmapEn).filterMap fun j =>
    if d.fld (Reg.numCmap cl j) Fld.numCmapRow = r then some (j, d.fld (Reg.numCmap cl j) Fld.numCmapPos) else none

/-- One declared channel at a step's close: its streak and its window (R261). -/
def Dev.closeChan (d : Dev) (cl : Nat) (w : StepStat) (j pos : Nat) : Dev :=
  let a := Reg.numCstat cl j
  let d := if w.seen = 0 then d
    else if w.satPos.contains pos then
      let s := d.fld a Fld.numCstatStreak
      d.setFld a Fld.numCstatStreak (if s < 8 then s + 1 else 8)
    else d.setFld a Fld.numCstatStreak 0
  let c := d.dchan cl j
  let m := SMap.get (fun _ => 0) w.chanMax pos
  let m := if c.maxabs < m then m else c.maxabs
  if d.fld (Reg.numCwin cl) Fld.numCwinCwinSteps ≤ c.count + 1 then
    (d.setFld a Fld.numCstatMaxabs m).setDchan cl j ⟨0, 0⟩
  else d.setDchan cl j ⟨m, c.count + 1⟩

/-- The Scrim directory entry of a channel position. -/
def Dev.scrimEntry (d : Dev) (cl r pos : Nat) : Option ScrimEntry :=
  d.num.dir.find? fun e => decide (e.cl = cl ∧ e.row = r ∧ e.pos = pos)

/-- A channel position is marked or promoted. -/
def Dev.isScrim (d : Dev) (cl r pos : Nat) : Bool :=
  (match d.scrimEntry cl r pos with
    | some e => e.marked
    | none => false) || (d.row cl r).promo.any fun p => p.1 = pos

/-- One declared channel promoted, if it qualifies (R265, R266). -/
def Dev.promote (d : Dev) (cl r j pos : Nat) : Dev :=
  let a := Reg.numRow cl r
  let n := d.fld a Fld.numRowPromoted
  let listed := match d.scrimEntry cl r pos with
    | some e => e.promotable
    | none => false
  if listed && decide (d.fld (Reg.numCstat cl j) Fld.numCstatStreak = 8) && !d.isScrim cl r pos && decide (n < 2) &&
      decide (d.fld a Fld.numRowMarked + n < 4) then
    let w := d.row cl r
    let d := d.setRow cl r { w with promo := w.promo ++ [(pos, w.closed + 1)] }
    let d := (d.setFld a Fld.numRowPromoted (n + 1)).setFld (Reg.numCstat cl j) Fld.numCstatScrim 1
    let d := ((d.count (Reg.numPromotions cl)).count Reg.numPromoTotal).scaleEpoch
    d.logInternal a 0 (pos + (n + 1) * 2 ^ 8) .ok
  else d

/-- The complete step of a row that closes next; the running one of a row whose circuit declares no count of tokens (log entry 46). -/
def Dev.closing (d : Dev) (cl r : Nat) : Option StepStat :=
  let w := d.row cl r
  let counts := d.flag (d.rowCfg cl r) Fld.numRcCfgStepKind ||
    d.fab.circuits.any fun x => decide (x.key / 65536 = cl ∧ d.rowOfCirc x = some r ∧ x.kc ≠ 0)
  match w.due with
  | x :: _ => some x
  | [] => if counts then none else some w.run

/-- A complete step of a row closes (R257). -/
def Dev.stepClose (d : Dev) (cl r : Nat) (tie : Bool) : Dev :=
  match (if d.flag (Reg.numRow cl r) Fld.numRowInUse then d.closing cl r else none) with
  | none => d
  | some w =>
    let d := (d.setFld (Reg.numRstat cl r) Fld.numRstatMaxabs w.maxabs).setFld (Reg.numRstat cl r) Fld.numRstatSat
      (if w.sat < 256 then w.sat else 255)
    let d := if w.seen = 0 then d else d.adaptRow cl r w tie
    let cs := d.chansOf cl r
    let d := cs.foldl (fun e x => e.closeChan cl w x.1 x.2) d
    let byPos := cs.mergeSort fun a b => decide (a.2 ≤ b.2)
    let d := byPos.foldl (fun e x => e.promote cl r x.1 x.2) d
    let v := d.row cl r
    let v := if v.due.isEmpty then { v with run := StepStat.init } else { v with due := v.due.tail }
    d.setRow cl r { v with closed := v.closed + 1, exps := ((v.closed + 1, d.rowExp cl r) :: v.exps).take 40 }

/-! SCALE tokens (R252, R259) -/

/-- The number of events formed before event n since arming: the step of an EVENT row that n is. -/
def Dev.stepOf (d : Dev) (n : Nat) : Nat :=
  (n - d.scr.firstEv) - (d.scr.skips.map fun s => if s.2 < n then s.2 + 1 - s.1 else 0).sum

/-- The event that step k of an EVENT row is. -/
def Dev.eventOfStep (d : Dev) (k : Nat) : Nat :=
  (d.scr.skips.mergeSort fun a b => decide (a.1 ≤ b.1)).foldl (fun n s => if s.1 ≤ n then n + (s.2 + 1 - s.1) else n)
    (d.scr.firstEv + k)

/-- The exponent that the SCALE token of step k carries, the close it was decided at, and whether the close it should
come from is still out (R259). -/
def Dev.scaleFor (d : Dev) (cl r k : Nat) : Int × Nat × Bool :=
  let w := d.row cl r
  let lag := d.fld (d.rowCfg cl r) Fld.numRcCfgLag
  let want := k + 1 - lag
  match w.exps.find? fun x => decide (x.1 = want) with
  | some x => (x.2, want, false)
  | none =>
    match w.exps with
    | x :: _ => (x.2, x.1, decide (x.1 < want))
    | [] => (d.rowExp cl r, 0, decide (0 < want))

/-- The payload of a SCALE token (Table 7.4). -/
def scalePayload (e : Int) (promo : List Nat) (step : Nat) : Nat :=
  lowBits 8 e +
    (match promo[0]? with
      | some p => p % 64 * 2 ^ 8 + 2 ^ 14
      | none => 0) +
    (match promo[1]? with
      | some p => p % 64 * 2 ^ 16 + 2 ^ 22
      | none => 0) + step % 2 ^ 24 * 2 ^ 24

/-- The index of a row among the rows in use of its cluster. -/
def Dev.rowIndex (d : Dev) (cl r : Nat) : Nat := ((d.rowsUsed cl).takeWhile fun x => x ≠ r).length

/-- Step k of a row has come: its event is formed and admitted, or the batch before it has ended. -/
def Dev.stepBegun (d : Dev) (cl r k : Nat) : Bool :=
  if d.flag (d.rowCfg cl r) Fld.numRcCfgStepKind then
    let w := d.row cl r
    decide (k ≤ w.closed + w.due.length)
  else match d.scr.admitted with
    | some n => decide (d.eventOfStep k ≤ n)
    | none => false

/-- The statistics unit sends a row's SCALE token for its next step, once it has come, on the row's circuit from the statistics port: the
circuits from that port, ascending, serve the rows in use, ascending (log entry 46). -/
def Dev.sendScale (d : Dev) (cl r : Nat) : Dev :=
  if d.flag (Reg.numRow cl r) Fld.numRowInUse && d.stepBegun cl r (d.row cl r).sent then
    let w := d.row cl r
    let k := w.sent
    let (e, idx, late) := d.scaleFor cl r k
    let d := (d.countIf late (Reg.numStatLate cl)).setRow cl r { w with sent := k + 1, carried := ((k, e, idx) :: w.carried).take 256 }
    let promo := (w.promo.filter fun p => decide (p.2 ≤ idx)).map fun p => p.1
    match (d.portCircs cl 35)[d.rowIndex cl r]? with
    | some x =>
      let ev := if x.free then 0 else d.eventOfStep k % 256
      d.entrySend x (mkToken (scalePayload e promo k) x.free 0 ev 1 false k)
    | none => d
  else d

/-- The exponent that the SCALE token of step k carried, and the close it was decided at; before it is sent, those it would carry. -/
def Dev.scaleCarried (d : Dev) (cl r k : Nat) : Int × Nat :=
  match (d.row cl r).carried.find? fun x => decide (x.1 = k) with
  | some x => x.2
  | none => ((d.scaleFor cl r k).1, (d.scaleFor cl r k).2.1)

/-- The bytes of the scale appendix of an event's records (R278). -/
def Dev.scaleAppendix (d : Dev) (n : Nat) : List Byte :=
  let k := d.stepOf n
  let rows := ((List.range (d.fld Reg.numProvrows Fld.numProvrowsCount)).filter fun i =>
    d.flag (Reg.numProvrow i) Fld.numProvrowEn).map fun i =>
      let w := d.rd (Reg.numProvrow i)
      let cl := 16 * bitsOf w 16 2 + bitsOf w 12 4
      BitVec.ofNat 8 (lowBits 8 (d.scaleCarried cl (bitsOf w 0 12) k).1)
  takeBytes (ceilDiv rows.length 8 * 8) rows

/-! Scrim lanes (R262, R263, R267) -/

/-- The rows of a cluster that its Scrim directory lists, ascending. -/
def Dev.scrimRows (d : Dev) (cl : Nat) : List Nat :=
  (((d.num.dir.filter fun e => e.cl = cl).map fun e => e.row).dedup).mergeSort fun a b => decide (a ≤ b)

/-- A Scrim token enters the Scrim port: the circuits into the port, ascending, serve the rows of the directory, ascending
(log entry 46). -/
def Dev.scrimArrive (d : Dev) (x : Circuit) (t : Token) : Dev :=
  let cl := x.dst.cl
  let i := ((d.fab.circuits.filter fun y =>
    decide (y.dst.kind = 3 ∧ y.dst.cl = cl ∧ y.dst.num = 34 ∧ y.key < x.key)).length)
  match (d.scrimRows cl)[i]? with
  | some r =>
    let k := 4096 * cl + r
    let s : ScrimTok := ⟨bitsOf t.payload.toNat 16 6, bitsOf t.payload.toNat 0 16, tokBad t, t.evslot.toNat⟩
    { d with num := { d.num with scrimIn := SMap.modify (fun _ => []) d.num.scrimIn k fun l => l ++ [s] } }
  | none => d

/-- A 16-bit code of the Scrim column store. -/
def Dev.scrimCode (d : Dev) (cl ofs i : Nat) : Nat :=
  leNat (SMap.getList (fun _ => 0) d.fab.scrim (cl * 2 ^ 20 + ofs * 64 + 2 * i) 2)

/-- Whether a bad word lies in the first n weights of a column. -/
def columnBad (ofs n : Nat) (bad : List Nat) : Bool :=
  bad.any fun w => decide (ofs * 8 ≤ w) && decide (w < ofs * 8 + ceilDiv n 4)

/-- One output row's partial over the tokens of a block (R263, R267): FP32 bits. -/
def Dev.partialSum (d : Dev) (cl r : Nat) (ts : List ScrimTok) (i n : Nat) (bad : List Nat) : Nat :=
  (roundF32 (Dy.sum (ts.map fun t =>
    match d.scrimEntry cl r t.pos with
    | some e =>
      if columnBad e.ofs n bad then Dy.zero else (codeVal 1 t.code).mul (codeVal 1 (d.scrimCode cl e.ofs i))
    | none => Dy.zero))).1

/-- The invalid codes among the operands of a block's products: the Scrim values, and the weights of their columns (R237). -/
def Dev.scrimInvalid (d : Dev) (cl r : Nat) (ts : List ScrimTok) (n : Nat) (bad : List Nat) : Nat :=
  (ts.map fun t => match d.scrimEntry cl r t.pos with
    | some e => bit01 (codeInvalid 1 t.code) +
        (if columnBad e.ofs n bad then 0 else ((List.range n).filter fun i => codeInvalid 1 (d.scrimCode cl e.ofs i)).length)
    | none => 0).sum

/-- Uncorrectable words of the column store counted and logged one by one (R267). -/
def Dev.scrimUes (d : Dev) (cl : Nat) : Nat → Dev
  | 0 => d
  | n + 1 =>
    let before := d.rd (Reg.numScrimUe cl)
    let d := d.count (Reg.numScrimUe cl)
    (d.logInternal (Reg.numScrimUe cl) before (d.rd (Reg.numScrimUe cl)) .degraded).scrimUes cl n

/-- The Scrim channels of a row in the block of an event slot: those the image marks, and the promotions in force with the block's SCALE
token (R262, R266). -/
def Dev.scrimCount (d : Dev) (cl r tag : Nat) : Nat :=
  let w := d.row cl r
  let event := if d.flag (d.rowCfg cl r) Fld.numRcCfgStepKind then none else d.evInSlot tag
  let promo := match event with
    | some e =>
      let idx := (d.scaleCarried cl r (d.stepOf e.n)).2
      w.promo.filter fun (p : Nat × Nat) => decide (p.2 ≤ idx)
    | none => w.promo
  (d.num.dir.filter fun e => decide (e.cl = cl ∧ e.row = r) && e.marked).length + promo.length

/-- The Scrim unit completes a row's block, once all its Scrim tokens are there: one partial per output row, on the row's circuit from the
Scrim port. -/
def Dev.scrimDone (d : Dev) (cl r outs corrected : Nat) (bad : List Nat) : Dev :=
  let k := 4096 * cl + r
  let all := SMap.get (fun _ => []) d.num.scrimIn k
  match all with
  | [] => d
  | t0 :: _ =>
    let ts := all.filter fun t => t.tag = t0.tag
    if ts.length < d.scrimCount cl r t0.tag then d else
    let d := { d with num := { d.num with
      scrimIn := SMap.set (fun _ => []) d.num.scrimIn k (all.filter fun t => t.tag ≠ t0.tag) } }
    let d := (d.countN (Reg.numScrimOps cl) ts.length).countN (Reg.numScrimCe cl) corrected
    let d := d.countN (Reg.numNanIn cl) (d.scrimInvalid cl r ts outs bad)
    let hit := ts.any fun t => match d.scrimEntry cl r t.pos with
      | some e => columnBad e.ofs outs bad
      | none => false
    let deg := hit || ts.any fun t => t.degraded
    let d := d.scrimUes cl bad.length
    match (d.portCircs cl 34)[((d.scrimRows cl).takeWhile fun x => x ≠ r).length]? with
    | some x => (List.range outs).foldl (fun f i =>
        f.entrySend x (mkToken (f.partialSum cl r ts i outs bad) x.free 0 t0.tag 0 deg 0)) d
    | none => d

/-! Adaptation (R269 to R275) -/

/-- The adaptation state of a group. -/
def Dev.adapt (d : Dev) (g : Nat) : AdaptRec := SMap.get (fun _ => AdaptRec.init) d.num.adapt g

/-- The adaptation state of a group changed. -/
def Dev.setAdapt (d : Dev) (g : Nat) (x : AdaptRec) : Dev :=
  { d with num := { d.num with adapt := SMap.set (fun _ => AdaptRec.init) d.num.adapt g x } }

/-- The context is a member of an adaptation pair. -/
def CtxRec.paired (x : CtxRec) : Bool := bitAt x.flags 1

/-- The other context of the pair. -/
def CtxRec.other (x : CtxRec) : Nat := bitsOf x.flags 2 2

/-- The weight-store blocks of a context's stream, in order: their byte addresses (R210). -/
def CtxRec.storeBlocks (x : CtxRec) : List Nat :=
  let size := if bitAt x.stream 2 then 256 else 512
  (x.segs.map fun s =>
    if bitAt s 6 then [] else (List.range (bitsOf s 19 12)).map fun i => bitsOf s 32 32 * 256 + i * size).flatten

/-- Bytes of a block of a context's stream. -/
def CtxRec.blockBytes (x : CtxRec) : Nat := if bitAt x.stream 2 then 256 else 512

/-- The bytes of a core's weight store from a on. -/
def Dev.wsRead (d : Dev) (c a n : Nat) : List Byte := SMap.getList (fun _ => 0) d.fab.ws (c * 2 ^ 18 + a) n

/-- Bytes written to a core's weight store. -/
def Dev.wsWrite (d : Dev) (c a : Nat) (bs : List Byte) : Dev :=
  { d with fab := { d.fab with ws := SMap.setList (fun _ => 0) d.fab.ws (c * 2 ^ 18 + a) bs } }

/-- An address lies in the shadow region: in a block of the other context of the pair that the active context does not
read (R269, R270). -/
def Dev.inShadow (d : Dev) (c a : Nat) : Bool :=
  match d.ctxRec c (d.coreCtx c) with
  | none => false
  | some x =>
    match d.ctxRec c x.other with
    | none => false
    | some y =>
      let inside := fun (z : CtxRec) => z.storeBlocks.any fun b => decide (b ≤ a) && decide (a < b + z.blockBytes)
      x.paired && inside y && !inside x

/-- A word written to the shadow region; the 512-byte block counts as changed by the epoch. -/
def Dev.shadowWrite (d : Dev) (c a w : Nat) : Dev :=
  let g := d.groupOf c
  let x := d.adapt g
  let b := c * 2 ^ 18 + a / 512 * 512
  let x := if x.changed.contains b then x else { x with changed := b :: x.changed }
  (d.setAdapt g x).wsWrite c (a / 8 * 8) (leBytes 8 w)

/-- A write outside the shadow region and its exponent registers is dropped: counted and logged (R270). -/
def Dev.segFault (d : Dev) (c : Nat) : Dev :=
  let o := Reg.numSegFault (clOf c)
  let before := d.rd o
  let d := d.count o
  d.logInternal o before (d.rd o) .segFault

/-- An adaptation write takes effect, at an address of the weight store or in a register of an engine. -/
def Dev.adaptPlace (d : Dev) (c a : Nat) (v : Val) : Dev :=
  if a < 2 ^ 18 then d.shadowWrite c a v.v else d.setReg c ((a - 2 ^ 18) / 64) (a % 64) v

/-- An adaptation write, held while the shadow copy is to be made (R274). -/
def Dev.adaptPut (d : Dev) (c a : Nat) (v : Val) : Dev :=
  let g := d.groupOf c
  let x := d.adapt g
  if x.copyDue then d.setAdapt g { x with held := x.held ++ [(c, a, v)] } else d.adaptPlace c a v

/-- An adaptation write through port B (R270, R274). -/
def Dev.adaptWrite (d : Dev) (c a w : Nat) : Dev :=
  let a := a % 2 ^ 32
  if d.inShadow c a then d.adaptPut c a ⟨w, false⟩ else d.segFault c

/-- Register r of engine e is the weight exponent register of a descriptor of context x that context y of its pair gives another (R269). -/
def CtxRec.expReg (x y : CtxRec) (e r : Nat) : Bool :=
  (List.range 32).any fun i =>
    let a := x.desc e i
    a.valid && decide (a.op = 0 ∧ a.rb = r) && decide ((y.desc e i).rb ≠ r)

/-- A descriptor's result written to a register. From an adaptation context's free-class work it may go to the exponent registers of the shadow
region but not to those of the live one (R270; DEDUCED, log entry 78). -/
def Dev.writeReg (d : Dev) (c e : Nat) (y : Desc) (v : Val) : Dev :=
  match d.ctxRec c (d.engCtx c e) with
  | none => d.setReg c e y.rd v
  | some live =>
    match (if y.free && bitAt live.flags 0 && live.paired then d.ctxRec c live.other else none) with
    | none => d.setReg c e y.rd v
    | some shadow =>
      if live.expReg shadow e y.rd then d.segFault c
      else if shadow.expReg live e y.rd then d.adaptPut c (2 ^ 18 + 64 * e + y.rd) v
      else d.setReg c e y.rd v

/-- A commit descriptor ends an epoch: its digest is due, or with ADAPT_EN 0 it is counted as held (R272, R275). -/
def Dev.commit (d : Dev) (c : Nat) : Dev :=
  if d.flag Reg.numGcfg Fld.numGcfgAdaptEn then
    let g := d.groupOf c
    d.setAdapt g { d.adapt g with committing := true }
  else d.count Reg.numCommitHeld

/-- The digest over the changed blocks, ascending, each after its address (R272). -/
def Dev.epochDigest (d : Dev) (g : Nat) : List Byte :=
  let bs := (d.adapt g).changed.mergeSort fun a b => decide (a ≤ b)
  shake256 ((bs.map fun b => leBytes 8 b ++ SMap.getList (fun _ => 0) d.fab.ws b 512).flatten) 32

/-- The other context of a group's pair. -/
def Dev.pairOther (d : Dev) (g : Nat) : Option Nat :=
  (d.grp g).cores.findSome? fun c =>
    match d.ctxRec c (d.coreCtx c) with
    | some x => if x.paired then some x.other else none
    | none => none

/-- The HSE has the digest: the switch to the other context of the pair is requested (R272); a refused one leaves the epoch
uncommitted (R275). -/
def Dev.digestDone (d : Dev) (g : Nat) : Dev :=
  let x := d.adapt g
  if x.committing then
    let d := d.setAdapt g { x with committing := false, digest := d.epochDigest g }
    match d.pairOther g with
    | some k => d.switchReq g ⟨k, false, true, none⟩
    | none => d
  else d

/-- An adaptation switch is complete: epoch number, two log entries, the digest, and the copy that is due; the
rounding generators are to be seeded anew (R251, R272 to R274). -/
def Dev.epochDone (d : Dev) (g : Nat) : Dev :=
  let x := d.adapt g
  let n := d.rd Reg.numAdaptEpoch
  let d := d.wr Reg.numAdaptEpoch (n + 1)
  let d := (List.range 8).foldl (fun e i => e.wr (Reg.numAdaptDigest i) (leAt x.digest (4 * i) 4)) d
  let d := d.logInternal Reg.numAdaptEpoch n (n + 1) .ok
  let d := d.logInternal (Reg.numAdaptDigest 0) 0 (leAt x.digest 0 4) .ok
  let d := d.setAdapt g { x with copyDue := true, copying := x.changed, changed := [], digest := [] }
  let unseed := fun (p : Nat × CoreRec) => (p.1, { p.2 with rng := none })
  { d with fab := { d.fab with cores := (d.fab.cores.map unseed).filter fun p => decide (p.2 ≠ CoreRec.init) } }

/-- One changed block copied to the same place of the new shadow region (R274). -/
def Dev.copyBlock (d : Dev) (b : Nat) : Dev :=
  let c := b / 2 ^ 18
  match d.ctxRec c (d.coreCtx c) with
  | none => d
  | some live =>
    match d.ctxRec c live.other with
    | none => d
    | some shadow =>
      let pairs := live.storeBlocks.zip shadow.storeBlocks
      pairs.foldl (fun e p =>
        if p.1 / 512 * 512 = b % 2 ^ 18 / 512 * 512 ∧ p.1 ≠ p.2 then e.wsWrite c p.2 (e.wsRead c p.1 live.blockBytes)
        else e) d

/-- The exponent registers of the new live region copied to those of the new shadow region (R269, R274). -/
def Dev.copyExps (d : Dev) (c : Nat) : Dev :=
  match d.ctxRec c (d.coreCtx c) with
  | none => d
  | some live =>
    match d.ctxRec c live.other with
    | none => d
    | some shadow =>
      if live.paired then
        (List.range 2048).foldl (fun f i =>
          let a := live.desc (i / 32) (i % 32)
          let b := shadow.desc (i / 32) (i % 32)
          if a.valid && decide (a.op = 0) && decide (a.rb ≠ b.rb) then f.setReg c (i / 32) b.rb (f.reg c (i / 32) a.rb)
          else f) d
      else d

/-- The shadow copy is made; writes held meanwhile follow (R274). -/
def Dev.shadowCopy (d : Dev) (g : Nat) : Dev :=
  let x := d.adapt g
  if !x.copyDue then d
  else
    let d := x.copying.foldl Dev.copyBlock d
    let d := (d.grp g).cores.foldl Dev.copyExps d
    let d := d.setAdapt g { d.adapt g with copyDue := false, copying := [], held := [] }
    x.held.foldl (fun e h => if h.2.1 < 2 ^ 18 && !e.inShadow h.1 h.2.1 then e.segFault h.1 else e.adaptPlace h.1 h.2.1 h.2.2) d

/-- The state of a core's generator, seeded by the epoch (R251); before the first epoch boundary the spec gives no seed. -/
def Dev.rngState (d : Dev) (c : Nat) : Nat × Dev :=
  match (d.core c).rng with
  | some x => (x, d)
  | none =>
    let n := d.rd Reg.numAdaptEpoch
    if n = 0 then
      let (v, d) := d.open_ .seed
      let x := v % 2 ^ 64
      (if x = 0 then 0x9E3779B97F4A7C15 else x, d)
    else
      let x := leNat (shake256 (leBytes 4 n ++ leBytes 4 (clOf c / 16) ++ leBytes 4 (clOf c % 16) ++
        leBytes 4 (d.logicalOf c)) 8)
      (if x = 0 then 0x9E3779B97F4A7C15 else x, d)

/-- One draw of k (R251). -/
def Dev.drawK (d : Dev) (c : Nat) : Nat × Dev :=
  let (x, d) := d.rngState c
  let y := xorshift x
  (y / 2 ^ 48, d.setCore c { d.core c with rng := some y })

end Sys2Proof.Machine
end

