-- ==== Sys2Proof/Machine/Engine.lean ====
section
/-!
DEFINITION. The engines and the tokens' way between them ("Engines, cores, clusters and dies", "Dataflow, slot wheels, contexts and
deadlock"): the weight latch, readiness, one issue with its operation, stall classes, the crossing of a link, and what
a token does at its circuit's end.
-/

namespace Sys2Proof.Machine

open Sys2Proof

/-! The weight latch (R203, R205, R207, R210, R215) -/

/-- Q of a context's stream. -/
def CtxRec.q (x : CtxRec) : Nat := bitsOf x.stream 3 5 + 1

/-- P_roll of a context's stream. -/
def CtxRec.period (x : CtxRec) : Nat := bitsOf x.stream 13 12 + 1

/-- The engines that use a context's stream: those with a valid MAC descriptor. -/
def CtxRec.consumers (x : CtxRec) : List Nat :=
  ((x.descs.filterMap fun p =>
    let y := Desc.of p.2
    if y.valid && decide (y.op = 0) then some (p.1 / 32) else none).dedup)

/-- The segment that holds phase b. -/
def CtxRec.segAt (x : CtxRec) (b : Nat) : Option Nat :=
  x.segs.find? fun s => decide (bitsOf s 7 12 ≤ b) && decide (b < bitsOf s 7 12 + bitsOf s 19 12)

/-- The word of a block that goes to engine e, and the block's bytes. -/
def CtxRec.wordOf (x : CtxRec) (e : Nat) : Nat := if bitAt x.stream 2 then e / 2 else e

/-- The bank of a weight-store byte address (R127). -/
def wsBank (a : Nat) : Nat := bitsOf a 3 3

/-- The bank row of a weight-store byte address (R127). -/
def wsRow (a : Nat) : Nat := bitsOf a 9 9

/-- An access of a class to the weight store's byte address a, on port B or A; first for the Roller on port A and the loader on port B. -/
def wsAccess (portB : Bool) (a : Nat) (timed first : Bool) : BankUse := ⟨portB, ⟨wsBank a % 8, Nat.mod_lt _ (by decide)⟩, timed, first⟩

/-- An access goes before another on the same port of the same bank: the timed-class one first, and within a class the
Roller on port A and the loader on port B (R128). -/
def bankUseBeats (r u : BankUse) : Bool :=
  decide (r.portB = u.portB ∧ r.bank = u.bank) && ((r.timed && !u.timed) || (r.timed == u.timed && r.first && !u.first))

/-- An access loses its port to one of those that are due in the same cycle (R128). -/
def losesPort (u : BankUse) (rivals : List BankUse) : Bool := rivals.any fun r => bankUseBeats r u

/-- An engine has lost a port of the weight store in this cycle: a tick places it in BANK (R133). -/
def Dev.portLost (d : Dev) (c e : Nat) : Dev := d.setEng c e { d.eng c e with lost := true }

/-- One word moved into an engine's weight latch, if its next block is there, the latch has a place, and the read on port A loses to none of
the accesses due with it. -/
def Dev.latchOne (d : Dev) (c e : Nat) (rivals : List BankUse) : Dev :=
  match d.ctxRec c (d.engCtx c e) with
  | none => d
  | some x =>
    let r := d.eng c e
    let b := r.nextBlock % x.period
    let waits := decide (b = 0) && decide (0 < r.nextBlock) &&
      x.consumers.any fun f => decide ((d.eng c f).released < r.nextBlock)
    if !bitAt x.stream 0 || decide (2 ≤ r.latch.length) || waits then d
    else
      match x.segAt b with
      | none => d
      | some s =>
        if bitAt s 6 then
          match (d.core c).staged.find? fun t => decide (t.ctx = d.engCtx c e) && decide (t.block = b) && t.left.contains e with
          | none => d
          | some t =>
            if losesPort (wsAccess false (t.addr + 8 * x.wordOf e) (!bitAt x.stream 1) true) rivals then d.portLost c e
            else
            let w := leNat (d.wsRead c (t.addr + 8 * x.wordOf e) 8)
            let upd := fun (u : Staged) => if u = t then { u with left := u.left.erase e } else u
            let k := d.core c
            let d := d.setCore c { k with staged := (k.staged.map upd).filter fun u => !u.left.isEmpty }
            d.setEng c e { r with latch := r.latch ++ [⟨w, t.degraded, 0⟩], nextBlock := r.nextBlock + 1 }
        else
          let a := bitsOf s 32 32 * 256 + (b - bitsOf s 7 12) * x.blockBytes + 8 * x.wordOf e
          if losesPort (wsAccess false a (!bitAt x.stream 1) true) rivals then d.portLost c e
          else d.setEng c e { r with latch := r.latch ++ [⟨leNat (d.wsRead c a 8), false, 0⟩], nextBlock := r.nextBlock + 1 }

/-- The latch filled as far as it can be. -/
def Dev.refill (d : Dev) (c e : Nat) (rivals : List BankUse) : Dev := (d.latchOne c e rivals).latchOne c e rivals

/-! Readiness (R126, R160, R168, R169, R199) -/

/-- How a descriptor's input stands. -/
inductive HeadSt where
  | absent | here | later
  deriving DecidableEq, Repr

/-- The head of input queue q for a descriptor that serves slot s (R160). -/
def Dev.headSt (d : Dev) (c e : Nat) (free : Bool) (s : Option Nat) (q : Nat) : HeadSt :=
  match d.iq c e q with
  | [] => .absent
  | t :: _ =>
    if tokMarker t then .absent
    else if free then .here
    else match s with
      | none => .here
      | some c0 =>
        let x := (t.evslot.toNat + 256 - c0 % 256) % 256
        if x = 0 then .here else if x ≤ 128 then .later else .absent

/-- The input queues a descriptor takes data tokens from. -/
def Desc.queues (y : Desc) : List Nat :=
  (if y.srcA = 1 ∨ y.srcA = 2 then [y.srcA - 1] else []) ++ (if y.srcB = 1 ∨ y.srcB = 2 then [y.srcB - 1] else [])

/-- The queue that a free-class QUANT or LOAD takes SCALE tokens from. -/
def Desc.scaleQueue (y : Desc) : Option Nat :=
  if y.free && decide (y.op = 2 ∨ y.op = 3) && decide (y.srcB = 1 ∨ y.srcB = 2) then some (y.srcB - 1) else none

/-- A free-class QUANT or LOAD goes on under the SCALE token that it holds: the former until the next one heads its queue, the latter while its
DATA tokens carry the same BSEQ (R253; DESIGN CHOICE, log entry 77). -/
def Dev.scaleHeld (d : Dev) (c e k : Nat) (y : Desc) : Bool :=
  match y.scaleQueue, (d.descRec c e k).scale with
  | some _, some h =>
    decide (y.op = 2) || (if y.srcA = 1 ∨ y.srcA = 2 then (d.iq c e (y.srcA - 1)).head?.any fun t => decide (t.bseq.toNat = h.bseq) else true)
  | _, _ => false

/-- The next SCALE token of a free-class QUANT is there: its next issue begins a block. -/
def Dev.scaleNext (d : Dev) (c e : Nat) (y : Desc) : Bool :=
  match y.scaleQueue with
  | some q => decide (y.op = 2) && (d.iq c e q).head?.any fun t => !tokMarker t
  | none => false

/-- The input queues that descriptor k waits for. -/
def Dev.waitsOn (d : Dev) (c e k : Nat) (y : Desc) : List Nat :=
  match y.scaleQueue with
  | some q => if d.scaleHeld c e k y then y.queues.erase q else y.queues
  | none => y.queues

/-- The control token of a SWITCH or MERGE, if there: from a queue, or the head of the counter unit's free-class output when it
comes from the counter named (Table 12.9, CTL). -/
def Dev.ctlToken (d : Dev) (c e : Nat) (y : Desc) : Option Token :=
  if y.ctl = 1 ∨ y.ctl = 2 then
    match d.iq c e (y.ctl - 1) with
    | t :: _ => if tokMarker t then none else some t
    | [] => none
  else if y.ctl = 3 then
    match (d.cuTokens c true).head? with
    | some t => if t.left.isEmpty ∧ bitsOf t.tok.payload.toNat 32 4 = y.ctr then some t.tok else none
    | none => none
  else none

/-- Whether a control token selects T: predicate 1, or END (R168, R169). -/
def selectsT (t : Token) : Bool :=
  decide (bitsOf t.payload.toNat 36 3 = 2) || bitAt t.payload.toNat 0

/-- The outputs that an issue of a descriptor gives a token to. -/
def Dev.outsOf (d : Dev) (c e : Nat) (y : Desc) : List Nat :=
  if y.op = 6 then
    match d.ctlToken c e y with
    | some t => if selectsT t then [y.out0] else [y.out1]
    | none => []
  else if y.op = 2 then [y.out0] ++ (if y.out1 = 127 then [] else [y.out1])
  else if y.op = 1 ∨ y.op = 5 then (if y.out0 = 127 then [] else [y.out0])
  else if y.op = 4 ∨ y.op = 7 ∨ y.op = 8 ∨ y.op = 10 ∨ y.op = 11 ∨ y.op = 13 then [y.out0]
  else []

/-- What holds a descriptor back. -/
inductive Hold where
  | ready | tokens | weight | full (cross : Bool)
  deriving DecidableEq, Repr

/-- The slot a timed descriptor serves; one that takes no token serves the first formed event first. -/
def Dev.servedSlot (d : Dev) (c e k : Nat) (y : Desc) : Option Nat :=
  match (d.descRec c e k).slot with
  | some s => some s
  | none => if y.free then none else if y.queues.isEmpty then some (d.scr.firstEv % 256) else none

/-- Whether the event of a slot has been admitted: what a timed descriptor without token inputs waits for (R159). -/
def Dev.slotAdmitted (d : Dev) (s : Nat) : Bool :=
  match d.scr.admitted with
  | some n => d.scr.armed && decide ((n + 256 - s % 256) % 256 < 128)
  | none => false

/-- Whether a descriptor's input tokens are there. -/
def Dev.tokensReady (d : Dev) (c e k : Nat) (y : Desc) : Bool :=
  if y.op = 6 then (d.ctlToken c e y).isSome && y.queues.all fun q => decide (d.headSt c e true none q = .here)
  else if y.op = 7 then
    match d.ctlToken c e y with
    | none => false
    | some t =>
      let s := if selectsT t then y.srcA else y.srcB
      if s = 1 ∨ s = 2 then decide (d.headSt c e true none (s - 1) = .here) else true
  else
    let sts := (d.waitsOn c e k y).map (d.headSt c e y.free (d.servedSlot c e k y))
    if y.free then sts.all fun x => decide (x = .here)
    else if y.queues.isEmpty then
      match d.servedSlot c e k y with
      | some s => d.slotAdmitted s
      | none => false
    else sts.contains .later || sts.all fun x => decide (x = .here)

/-- The tokens that an issue of descriptor k gives each of its outputs: a QUANT its SCALE token before the block's first DATA token, a
MEMWR address and data (Table 12.10). -/
def Dev.outCount (d : Dev) (c e k : Nat) (y : Desc) (o : Nat) : Nat :=
  if y.op = 11 ∨ (y.op = 2 ∧ o = y.out0 ∧ ((d.descRec c e k).fires = 0 ∨ d.scaleNext c e y = true)) then 2 else 1

/-- Whether output o of an engine has n places for each circuit that it feeds. -/
def Dev.outRoom (d : Dev) (c e o n : Nat) : Bool :=
  let xs := d.outCircs c e o
  xs.all fun x => d.storeRoom (x.store 0) x.free (n * (xs.filter fun y => y.store 0 = x.store 0).length)

/-- Requests of a class that wait behind a stack port: those its crossing FIFO and its port's buffer hold (Table 4.11). -/
def Dev.stackLoad (d : Dev) (cl : Nat) (free : Bool) : Nat :=
  ((d.stackRec (3 * (cl / 16) + cl % 16 / 4)).reqs.filter fun q => (d.circ q.circ).any fun x => x.free = free).length

/-- A circuit is backed up behind a full crossing FIFO. -/
def Dev.crossFull (d : Dev) (x : Circuit) : Bool :=
  ((List.range x.route.length).any fun h => match x.store h with
    | .dieLink l => decide (132 ≤ d.storeLoad (.dieLink l) x.free)
    | _ => false) ||
  (decide (x.dst.kind = 3 ∧ x.dst.num = 40) && decide (64 ≤ d.stackLoad x.dst.cl x.free))

/-- What holds descriptor k of an engine (R126, Table 4.5). -/
def Dev.holdOf (d : Dev) (c e k : Nat) : Hold :=
  let y := d.desc c e k
  if d.tokensReady c e k y = false then .tokens
  else if y.ctrUse = 2 ∧ d.creditsOf (d.engRef c e y.ctr) = 0 then .tokens
  else if y.op = 0 ∧ (d.eng c e).latch.isEmpty then .weight
  else
    let outs := d.outsOf c e y
    let room := fun o => d.outRoom c e o (d.outCount c e k y o)
    if outs.all room then .ready
    else .full (outs.any fun o => !room o && (d.outCircs c e o).any d.crossFull)

/-! Resynchronisation (R160, R253, R254) -/

/-- A head of a queue belongs to an event that every timed descriptor naming the queue has already served. -/
def Dev.staleHead (d : Dev) (c e q : Nat) : Bool :=
  match d.iq c e q with
  | [] => false
  | t :: _ =>
    if t.free || tokMarker t then false
    else
      let ks := (d.descs c e).filter fun k => let y := d.desc c e k; !y.free && y.queues.contains q
      !ks.isEmpty && ks.all fun k =>
        match (d.descRec c e k).slot with
        | some s =>
          let x := (s + 256 - t.evslot.toNat) % 256
          decide (1 ≤ x) && decide (x ≤ 127)
        | none => false

/-- Stale heads of a queue dropped and counted (R160). -/
def Dev.dropStale (d : Dev) (c e q : Nat) : Nat → Dev
  | 0 => d
  | n + 1 => if d.staleHead c e q then ((d.iqPop c e q).count (Reg.coStale (clOf c) (posOf c))).dropStale c e q n else d

/-- A block lost under R253 for the event of slot s: counted, results of the event marked, and a skew notice for a timed
descriptor, which serves that event, with stand-ins, if it has served none yet (R160, R254). -/
def Dev.skewed (d : Dev) (c e k : Nat) (y : Desc) (s : Nat) : Dev :=
  let d := d.count (Reg.coSkew (clOf c) (posOf c))
  let r := d.descRec c e k
  let d := if y.free then d.setDescRec c e k { r with lostBlock := true }
    else if r.slot = none ∨ r.slot = some s then d.setDescRec c e k { r with lostBlock := true, slot := some s } else d
  if y.free then d else d.postNotice true .pass s (d.deviceCore c)

/-- The DATA tokens of one block dropped from the head of a queue. -/
def Dev.dropBlock (d : Dev) (c e q b : Nat) : Nat → Dev
  | 0 => d
  | n + 1 =>
    match d.iq c e q with
    | t :: _ => if t.kind.toNat = 0 ∧ t.bseq.toNat = b then (d.iqPop c e q).dropBlock c e q b n else d
    | [] => d

/-- A block whose SCALE token was lost goes on to be dropped as its DATA tokens come, until another one's is there (R253). -/
def Dev.dropRest (d : Dev) (c e k : Nat) : Nat → Dev
  | 0 => d
  | n + 1 =>
    let y := d.desc c e k
    let r := d.descRec c e k
    match r.dropping, (if y.srcA = 1 ∨ y.srcA = 2 then (d.iq c e (y.srcA - 1)).head? else none) with
    | some b, some t =>
      if t.kind.toNat ≠ 0 then d
      else if t.bseq.toNat = b then (d.iqPop c e (y.srcA - 1)).dropRest c e k n
      else d.setDescRec c e k { r with dropping := none }
    | _, _ => d

/-- The BSEQ check of a LOAD descriptor, repeated with each next SCALE token (R253). -/
def Dev.bseqCheck (d : Dev) (c e k : Nat) : Nat → Dev
  | 0 => d
  | n + 1 =>
    let y := d.desc c e k
    if y.op = 3 ∧ (y.srcA = 1 ∨ y.srcA = 2) ∧ (y.srcB = 1 ∨ y.srcB = 2) then
      match d.iq c e (y.srcA - 1), d.iq c e (y.srcB - 1) with
      | t :: _, u :: _ =>
        if t.kind.toNat = 0 ∧ u.kind.toNat = 1 ∧ d.scaleHeld c e k y = false then
          let x := (t.bseq.toNat + 16 - u.bseq.toNat) % 16
          if x = 0 then d
          else if x ≤ 8 then ((d.iqPop c e (y.srcB - 1)).skewed c e k y u.evslot.toNat).bseqCheck c e k n
          else
            let d := (d.dropBlock c e (y.srcA - 1) t.bseq.toNat 8).skewed c e k y t.evslot.toNat
            (d.setDescRec c e k { d.descRec c e k with dropping := some t.bseq.toNat }).bseqCheck c e k n
        else d
      | _, _ => d
    else d

/-- Stale tokens and stray blocks dropped before an issue. -/
def Dev.resync (d : Dev) (c e : Nat) : Dev :=
  let d := (d.dropStale c e 0 8).dropStale c e 1 8
  (d.descs c e).foldl (fun f k => (f.dropRest c e k 8).bseqCheck c e k 16) d

/-! One issue (Table 12.10) -/

/-- What an operation has gathered from its inputs. -/
structure Issue where
  /-- The event slot or TAG of its outputs. -/
  ev : Nat
  /-- An input or the event is degraded (R154, R254). -/
  deg : Bool
  /-- The last firing for the event. -/
  last : Bool
  deriving DecidableEq, Repr

/-- The token of queue q for an issue: the head, or a stand-in where the head is not of the slot served (R160). -/
def Dev.peekIn (d : Dev) (c e : Nat) (y : Desc) (s : Option Nat) (q : Nat) : Token × Bool :=
  match d.iq c e q with
  | t :: _ =>
    if d.headSt c e y.free s q = .here then (t, true) else (standIn (d.engEpoch c e) (s.getD 0), false)
  | [] => (standIn (d.engEpoch c e) (s.getD 0), false)

/-- An operand: value, degraded, and the queue to pop. -/
def Dev.operand (d : Dev) (c e : Nat) (y : Desc) (s : Option Nat) (src r : Nat) : Val × Option Nat × Token :=
  if src = 1 ∨ src = 2 then
    let (t, real) := d.peekIn c e y s (src - 1)
    (⟨t.payload.toNat, tokBad t⟩, if real then some (src - 1) else none, t)
  else if src = 3 then
    let v := d.reg c e r
    (v, none, mkToken v.v y.free 0 0 0 v.deg 0)
  else (⟨0, false⟩, none, mkToken 0 y.free 0 0 0 false 0)

/-- A free-class QUANT or LOAD takes the SCALE token of the block that begins with this issue (R252, R253). -/
def Dev.takeScale (d : Dev) (c e k : Nat) (y : Desc) : Dev :=
  match y.scaleQueue.bind fun q => (d.iq c e q).head?.map fun t => (q, t) with
  | none => d
  | some (q, t) =>
    if tokMarker t || (decide (y.op = 3) && d.scaleHeld c e k y) then d
    else
      let r := d.descRec c e k
      (d.iqPop c e q).setDescRec c e k
        { r with
          scale := some ⟨t.payload.toNat, t.bseq.toNat, tokBad t⟩, fires := 0,
          blocks := if y.op = 2 ∧ r.fires ≠ 0 then (r.blocks + 1) % 16 else r.blocks }

/-- The scale operand of a QUANT or LOAD: the SCALE token held in the free class, else SRC_B's, and the queue to pop. -/
def Dev.scaleOperand (d : Dev) (c e k : Nat) (y : Desc) (s : Option Nat) : Val × Option Nat :=
  match y.scaleQueue with
  | some _ => match (d.descRec c e k).scale with
    | some h => (⟨h.payload, h.deg⟩, none)
    | none => (⟨0, false⟩, none)
  | none =>
    let (b, qb, _) := d.operand c e y s y.srcB y.rb
    (b, qb)

/-- A head taken. -/
def Dev.popIf (d : Dev) (c e : Nat) (q : Option Nat) : Dev :=
  match q with
  | some q => d.iqPop c e q
  | none => d

/-- A token given to output o of an engine: on each circuit in the circuit's class (R159). -/
def Dev.give (d : Dev) (c e o : Nat) (t : Token) : Dev := (d.outCircs c e o).foldl (fun f x => f.send x { t with free := x.free }) d

/-- A result token on output o. -/
def Dev.giveWord (d : Dev) (c e o : Nat) (y : Desc) (i : Issue) (payload kind : Nat) (deg : Bool) (bseq : Nat) : Dev :=
  d.give c e o (mkToken payload y.free (d.engEpoch c e) i.ev kind deg bseq)

/-- The issue of a word that a MAC makes, of total ones: in a timed-class stream the event decides which E_p-th part of them it meets, so
that event n meets them at the same place whether or not every event of the pass is formed (R208). -/
def Dev.sweepPos (d : Dev) (x : CtxRec) (y : Desc) (i : Issue) (used total : Nat) : Nat :=
  let ep := bitsOf x.stream 8 5 + 1
  let per := total / ep
  match d.evInSlot i.ev with
  | some v => if y.free ∨ per * ep ≠ total then used else v.n % ep * per + used % per
  | none => used

/-- MAC. -/
def Dev.opMac (d : Dev) (c e : Nat) (y : Desc) (i : Issue) : Dev :=
  match d.ctxRec c (d.engCtx c e), (d.eng c e).latch with
  | some x, lw :: rest =>
    let total := if y.wfmt = 0 then 2 * x.q else x.q
    let used := d.sweepPos x y i lw.used total
    let n := used % x.q
    let a := d.slotWord c e ((y.aslot + n) % 32) y.aword
    let ea := d.reg c e y.ra
    let ew := d.reg c e y.rb
    let h := used / x.q
    let deg := i.deg || lw.deg || a.deg || ea.deg || ew.deg
    let cl := clOf c
    let d := d.countN (Reg.numNanIn cl) (macInvalid y.wfmt y.afmt lw.w a.v h)
    let d := (macProducts y.wfmt y.afmt lw.w a.v (signedOf 8 ew.v) (signedOf 8 ea.v) h).foldl (fun f p =>
      let old := f.acc c e p.1
      let (v, sat) := roundF32 ((f32Val old.v).add p.2)
      (f.countIf sat (Reg.numAccSat cl)).setAcc c e p.1 ⟨v, old.deg || deg⟩) d
    let r := d.eng c e
    if total ≤ used + 1 then d.setEng c e { r with latch := rest, released := r.released + 1 }
    else d.setEng c e { r with latch := { lw with used := used + 1 } :: rest }
  | _, _ => d

/-- A rounded sum with its saturation counted. -/
def Dev.sumF32 (d : Dev) (c : Nat) (a b : Nat) : Nat × Dev :=
  let (v, sat) := f32Add a b
  (v, d.countIf sat (Reg.numAccSat (clOf c)))

/-- REDUCE (R245). -/
def Dev.opReduce (d : Dev) (c e : Nat) (y : Desc) (i : Issue) : Dev :=
  let v := fun a => if bitAt y.imm a then (d.acc c e a).v else 0
  let deg := i.deg || (List.range 8).any fun a => bitAt y.imm a && (d.acc c e a).deg
  let (p0, d1) := d.sumF32 c (v 0) (v 1)
  let (p1, d1) := d1.sumF32 c (v 2) (v 3)
  let (p2, d1) := d1.sumF32 c (v 4) (v 5)
  let (p3, d1) := d1.sumF32 c (v 6) (v 7)
  let (q0, d1) := d1.sumF32 c p0 p1
  let (q1, d1) := d1.sumF32 c p2 p3
  let (r, d1) := d1.sumF32 c q0 q1
  let d1 := (List.range 8).foldl (fun f a => if bitAt y.imm a then f.setAcc c e a ⟨0, false⟩ else f) d1
  let d1 := d1.writeReg c e y ⟨r, deg⟩
  if y.out0 = 127 then d1 else d1.giveWord c e y.out0 y i r 0 deg 0

/-- Whether position i of the row that a QUANT writes goes to the Scrim lanes (R262, R266). -/
def Dev.quantScrim (d : Dev) (c e : Nat) (y : Desc) (scale pos : Nat) : Bool :=
  let promo := (bitAt scale 14 && decide (bitsOf scale 8 6 = pos)) || (bitAt scale 22 && decide (bitsOf scale 16 6 = pos))
  let marked := (d.outCircs c e y.out0).any fun x =>
    match d.rowOfCirc x with
    | some r => (match d.scrimEntry (x.key / 65536) r pos with
      | some s => s.marked
      | none => false)
    | none => false
  decide (y.out1 ≠ 127) && (promo || marked)

/-- The row's step number that a SCALE payload carries (Table 7.4) for a producer without a SCALE token: of the row that its output is marked
for, or else the number of the event it serves; 0 where it has neither. -/
def Dev.stepNow (d : Dev) (c e : Nat) (y : Desc) (i : Issue) : Nat :=
  let batch := (d.outCircs c e y.out0).findSome? fun x => (d.rowOfCirc x).bind fun r =>
    if d.flag (d.rowCfg (x.key / 65536) r) Fld.numRcCfgStepKind then some (d.row (x.key / 65536) r) else none
  match batch with
  | some w => w.closed + w.due.length
  | none => if y.free then 0 else match d.evInSlot i.ev with
    | some v => d.stepOf v.n
    | none => 0

/-- QUANT (R247 to R251, R262): the SCALE token at the block's first firing, then one DATA token whose value 0 is the code
(log entry 48). With its exponent in a register the SCALE payload is formed from it. -/
def Dev.opQuant (d : Dev) (c e k : Nat) (y : Desc) (i : Issue) (s : Option Nat) : Dev :=
  let (a, qa, _) := d.operand c e y s y.srcA y.ra
  let (b, qb) := d.scaleOperand c e k y s
  let pay := if y.srcB = 1 ∨ y.srcB = 2 then b.v else b.v % 256 + d.stepNow c e y i % 2 ^ 24 * 2 ^ 24
  let r := d.descRec c e k
  let deg := i.deg || a.deg || b.deg
  let cl := clOf c
  let bits := a.v % 2 ^ 32
  let nan := codeInvalid 0 bits
  let d := d.countIf nan (Reg.numNanIn cl)
  let ex : Int := if fmtScaled y.afmt then signedOf 8 b.v else 0
  let top := (fmtOf y.afmt).top
  let v := (f32Val bits).scale (-ex)
  let scrim := d.quantScrim c e y pay r.fires
  let (code, d) :=
    if scrim then (0, d)
    else if nan then (top, d)
    else if y.sr then
      let (kk, d) := d.drawK c
      (stochasticCode y.afmt v kk, d)
    else (nearestCode y.afmt v, d)
  let d := d.countIf (!scrim && codeSaturated y.afmt code) (Reg.numSat cl)
  let d := (d.popIf c e qa).popIf c e (if i.last then qb else none)
  let d := if r.fires = 0 then d.giveWord c e y.out0 y i pay 1 deg r.blocks else d
  let d := d.giveWord c e y.out0 y i (codeField y.afmt code) 0 deg r.blocks
  if scrim then
    let v16 := if nan then (fmtOf 1).top else nearestCode 1 (f32Val bits)
    d.giveWord c e y.out1 y i (v16 + r.fires % 64 * 2 ^ 16) 0 deg r.blocks
  else d

/-- LOAD (R253). -/
def Dev.opLoad (d : Dev) (c e k : Nat) (y : Desc) (i : Issue) (s : Option Nat) : Dev :=
  let (a, qa, t) := d.operand c e y s y.srcA y.ra
  let (b, qb) := d.scaleOperand c e k y s
  let deg := i.deg || a.deg || b.deg
  let w := if t.kind.toNat = 4 then 0 else a.v
  let d := (d.popIf c e qa).popIf c e (if i.last then qb else none)
  let d := d.setSlotWord c e y.aslot y.aword ⟨w, deg⟩
  if y.srcB = 0 then d else d.writeReg c e y ⟨lowBits 32 (signedOf 8 b.v), deg⟩

/-- SEND. -/
def Dev.opSend (d : Dev) (c e : Nat) (y : Desc) (i : Issue) : Dev :=
  let v := if bitAt y.imm 0 then d.slotWord c e y.aslot y.aword else d.reg c e y.ra
  d.giveWord c e y.out0 y i v.v 0 (i.deg || v.deg) 0

/-- The integer operations of the register ALU on 32-bit words; none where the spec states no result. -/
def aluInt (f a b : Nat) : Option Nat :=
  if f = 0 then some ((a + b) % 2 ^ 32)
  else if f = 1 then some ((a + 2 ^ 32 - b) % 2 ^ 32)
  else if f = 2 then some (a * b % 2 ^ 32)
  else if f = 3 then some (if signedOf 32 a < signedOf 32 b then b else a)
  else if f = 4 then some (if signedOf 32 b < signedOf 32 a then b else a)
  else if f = 5 then some (a &&& b)
  else if f = 6 then some (a ||| b)
  else if f = 7 then some (Nat.xor a b)
  else if f = 8 then (if b < 32 then some (a * 2 ^ b % 2 ^ 32) else none)
  else if f = 9 then (if b < 32 then some (a / 2 ^ b) else none)
  else if f = 11 then some a
  else none

/-- FP32 bits kept valid: an infinity or a NaN is the largest finite positive value (R237, R244). -/
def f32Fix (b : Nat) : Nat := if codeInvalid 0 b then (fmtOf 0).top else b

/-- The FP32 operations of the register ALU. -/
def aluFloat (f a b : Nat) : Option Nat :=
  let x := f32Val a
  let y := f32Val b
  if f = 0 then some (roundF32 (x.add y)).1
  else if f = 1 then some (roundF32 (x.add ⟨-y.m, y.e⟩)).1
  else if f = 2 then some (roundF32 (x.mul y)).1
  else if f = 3 then some (if x.lt y then b else a)
  else if f = 4 then some (if y.lt x then b else a)
  else aluInt f a b

/-- CVT between BF16 and FP32 applies the row exponent that its second operand gives (R271): the result, and whether it is a saturated code;
none for a conversion that the spec does not state. -/
def cvtResult (y : Desc) (a b : Nat) : Option (Nat × Bool) :=
  let e := signedOf 8 b
  if y.wfmt = 1 ∧ y.afmt = 0 then some ((roundF32 ((codeVal 1 (a % 2 ^ 16)).scale e)).1, false)
  else if y.wfmt = 0 ∧ y.afmt = 1 then
    let code := if codeInvalid 0 a then (fmtOf 1).top else nearestCode 1 ((f32Val a).scale (-e))
    some (code, codeSaturated 1 code)
  else none

/-- ALU; any other CVT and a shift by the width or more give a value that the spec leaves open (log entry 21). With FP32 selected the result is
kept valid, and CVT counts an invalid code that it reads (R237, R244). -/
def Dev.opAlu (d : Dev) (c e : Nat) (y : Desc) (i : Issue) (s : Option Nat) : Dev :=
  let (a, qa, _) := d.operand c e y s y.srcA y.ra
  let (b, qb, _) := d.operand c e y s y.srcB y.rb
  let f := bitsOf y.imm 0 4
  let deg := i.deg || a.deg || b.deg
  let d := (d.popIf c e qa).popIf c e qb
  let fp := bitAt y.imm 4
  let cvt := fp && decide (f = 10)
  let from_ := if y.wfmt = 1 ∧ y.afmt = 0 then 1 else 0
  let d := d.countIf (cvt && codeInvalid from_ (a.v % 2 ^ 32)) (Reg.numNanIn (clOf c))
  let made := if cvt then cvtResult y (a.v % 2 ^ 32) b.v else none
  let d := d.countIf (made.any fun x => x.2) (Reg.numSat (clOf c))
  let res := if made.isSome then made.map fun x => x.1 else if fp then aluFloat f (a.v % 2 ^ 32) (b.v % 2 ^ 32) else aluInt f (a.v % 2 ^ 32) (b.v % 2 ^ 32)
  let (v, d) := match res with
    | some v => (v, d)
    | none =>
      let (w, d) := d.open_ (if f = 8 ∨ f = 9 then .wideShift else .convert)
      (w % 2 ^ 32, d)
  let v := if fp then f32Fix v else v
  let d := d.writeReg c e y ⟨v, deg⟩
  if y.out0 = 127 then d else d.giveWord c e y.out0 y i v 0 deg 0

/-- The control token of a SWITCH or MERGE taken. -/
def Dev.popCtl (d : Dev) (c e : Nat) (y : Desc) (t : Token) : Dev :=
  if y.ctl = 3 then
    (d.setCore c { d.core c with cuOut := (d.core c).cuOut.erase ⟨t, []⟩ }).dripTransfer (cuEndp (clOf c) (d.logicalOf c))
  else d.iqPop c e (y.ctl - 1)

/-- SWITCH (R168). -/
def Dev.opSwitch (d : Dev) (c e : Nat) (y : Desc) : Dev :=
  match d.ctlToken c e y with
  | none => d
  | some t =>
    let (_, q, x) := d.operand c e y none y.srcA y.ra
    let x := { x with epoch := BitVec.ofNat 2 (d.engEpoch c e), degraded := tokBad x || t.degraded }
    let o := if selectsT t then y.out0 else y.out1
    ((d.popIf c e q).popCtl c e y t).give c e o x

/-- MERGE (R169). -/
def Dev.opMerge (d : Dev) (c e : Nat) (y : Desc) : Dev :=
  match d.ctlToken c e y with
  | none => d
  | some t =>
    let (_, q, x) := if selectsT t then d.operand c e y none y.srcA y.ra else d.operand c e y none y.srcB y.rb
    let x := { x with epoch := BitVec.ofNat 2 (d.engEpoch c e), degraded := tokBad x || t.degraded }
    ((d.popCtl c e y t).popIf c e q).give c e y.out0 x

/-- SCRIMADD (R263). -/
def Dev.opScrimAdd (d : Dev) (c e : Nat) (y : Desc) (i : Issue) (s : Option Nat) : Dev :=
  let (a, qa, _) := d.operand c e y s y.srcA y.ra
  let old := d.acc c e 0
  let (v, d) := d.sumF32 c old.v (a.v % 2 ^ 32)
  (d.popIf c e qa).setAcc c e 0 ⟨v, i.deg || old.deg || a.deg⟩

/-- WSWRITE (R270): the 64-bit DATA token, or register RB into the half of the word that RA names. -/
def Dev.opWsWrite (d : Dev) (c e : Nat) (y : Desc) (s : Option Nat) : Dev :=
  let a := (d.reg c e y.ra).v
  if y.srcA = 1 ∨ y.srcA = 2 then
    let (v, q, _) := d.operand c e y s y.srcA y.ra
    (d.popIf c e q).adaptWrite c a v.v
  else
    let old := leNat (d.wsRead c (a % 2 ^ 18 / 8 * 8) 8)
    d.adaptWrite c a (putBits old (32 * (a / 4 % 2)) 32 (d.reg c e y.rb).v)

/-- The operation of descriptor k (Table 12.10). -/
def Dev.operate (d : Dev) (c e k : Nat) (y : Desc) (i : Issue) (s : Option Nat) : Dev :=
  match y.op with
  | 0 => d.opMac c e y i
  | 1 => d.opReduce c e y i
  | 2 => d.opQuant c e k y i s
  | 3 => d.opLoad c e k y i s
  | 4 => d.opSend c e y i
  | 5 => d.opAlu c e y i s
  | 6 => d.opSwitch c e y
  | 7 => d.opMerge c e y
  | 8 =>
    let v := d.reg c e y.ra
    d.giveWord c e y.out0 y i (v.v % 2 ^ 32 + 2 ^ 36) 2 (i.deg || v.deg) 0
  | 9 => d.opScrimAdd c e y i s
  | 10 =>
    let v := d.reg c e y.ra
    d.giveWord c e y.out0 y i (v.v % 2 ^ 32) 0 (i.deg || v.deg) 0
  | 11 =>
    let v := d.reg c e y.ra
    let (a, q, _) := d.operand c e y s y.srcA y.ra
    let d := d.popIf c e q
    let d := d.giveWord c e y.out0 y i (v.v % 2 ^ 32) 0 (i.deg || v.deg) 1
    d.giveWord c e y.out0 y i a.v 0 (i.deg || a.deg) 2
  | 12 => d.opWsWrite c e y s
  | 13 => d.giveWord c e y.out0 y i (bitsOf y.imm 0 6 + bitsOf y.imm 6 7 * 2 ^ 6) 5 i.deg 0
  | 14 => d.commit c
  | _ => d

/-- The slot that a descriptor serves after its last firing for slot s: the nearest later event at a head, or the next. -/
def Dev.nextSlot (d : Dev) (c e : Nat) (y : Desc) (s : Nat) : Nat :=
  let later := y.queues.filterMap fun q =>
    match d.iq c e q with
    | t :: _ => if d.headSt c e false (some s) q = .later then some ((t.evslot.toNat + 256 - s % 256) % 256) else none
    | [] => none
  match listMin later with
  | some x => (s + x) % 256
  | none => (s + 1) % 256

/-- A descriptor's firings and slot after an issue (R160). -/
def Dev.advance (d : Dev) (c e k : Nat) (y : Desc) (s : Option Nat) (last skip : Bool) : Dev :=
  let r := d.descRec c e k
  let r := { r with ovf := false, waited := 0 }
  if last then
    let r := { r with fires := 0, blocks := (r.blocks + 1) % 16, lostBlock := false }
    match s with
    | some x =>
      if y.free then d.setDescRec c e k r
      else d.setDescRec c e k { r with slot := some (if skip then d.nextSlot c e y x else (x + 1) % 256) }
    | none => d.setDescRec c e k r
  else d.setDescRec c e k { r with fires := r.fires + 1, slot := if y.free then r.slot else s }

/-- Descriptor k issues: its operation, its counter trigger or credit, its count, and what its wait exceeded
(R126, R162, R165, R199). -/
def Dev.fire (d : Dev) (c e k : Nat) (bankWait : Nat) : Dev :=
  let y := d.desc c e k
  let s := if y.free then none
    else match d.servedSlot c e k y with
      | some x => some x
      | none => (y.queues.filterMap fun q => (d.iq c e q).head?.map fun t => t.evslot.toNat).head?
  let skip := !y.free && y.queues.any fun q => decide (d.headSt c e false s q = .later)
  let d := d.takeScale c e k y
  let r := d.descRec c e k
  let last := if y.free then decide (y.op ≠ 2) || decide (63 ≤ r.fires) else decide (y.fires ≤ r.fires)
  let i : Issue := ⟨if y.free then y.tag else s.getD 0, r.lostBlock, last⟩
  let v := d.reg c e y.ra
  let d := d.operate c e k y i s
  let d := d.advance c e k y s last skip
  let d := if y.ctrUse = 1 then d.trigger (d.engRef c e y.ctr) v.v y.tag y.free i.ev (v.deg || i.deg)
    else if y.ctrUse = 2 then d.takeCredit (d.engRef c e y.ctr) else d
  let d := if !y.free && decide (y.wait < bankWait + r.waited) then
      (d.count (Reg.coSchedColl (clOf c) (posOf c))).postNotice false .schedCollision (s.getD 0) (d.deviceCore c)
    else d
  (d.count64 (Reg.coOpsLo (clOf c) (posOf c)) 1).setEng c e { d.eng c e with busy := true }

/-- Timed descriptors held only by a full output are overflows, counted once per held token (R161). -/
def Dev.overflows (d : Dev) (c e : Nat) : Dev :=
  (d.descs c e).foldl (fun f k =>
    let y := f.desc c e k
    let r := f.descRec c e k
    match f.holdOf c e k with
    | .full _ =>
      if y.free || r.ovf then f
      else
        let s := match f.servedSlot c e k y with
          | some x => x
          | none => ((y.queues.filterMap fun q => (f.iq c e q).head?.map fun t => t.evslot.toNat).head?).getD 0
        ((f.setDescRec c e k { r with ovf := true }).count (Reg.coTimedOvf (clOf c) (posOf c))).postNotice false
          .timedOverflow s (f.deviceCore c)
    | _ => f) d

/-- The descriptor that issues: the lowest ready timed one, else the lowest ready free one (R126). -/
def Dev.chosen (d : Dev) (c e : Nat) : Option Nat :=
  let ready := (d.descs c e).filter fun k => decide (d.holdOf c e k = .ready)
  match ready.find? fun k => !(d.desc c e k).free with
  | some k => some k
  | none => ready.head?

/-- A marked loop entry that selects its forward input while a marker heads it sends the marker into the loop body and takes
no further token from that input: the control token that selected it is taken, and the MERGE goes on with the next one (R180). -/
def Dev.loopMarker (d : Dev) (c e : Nat) : Dev :=
  (d.descs c e).foldl (fun f k =>
    let y := f.desc c e k
    if y.op = 7 && y.loopEntry && !(f.eng c e).looping && (y.srcA = 1 || y.srcA = 2) then
      match f.ctlToken c e y, f.iq c e (y.srcA - 1) with
      | some t, m :: _ =>
        if selectsT t && tokMarker m then
          let outs := f.outCircs c e y.out0
          let f := (f.setEng c e { f.eng c e with looping := true, ahead := outs.map fun x => x.key }).popCtl c e y t
          outs.foldl (fun g x => g.send x { m with free := x.free }) f
        else f
      | _, _ => f
    else f) d

/-- The weight-store access that an issue of a descriptor makes itself: a WSWRITE's, on port B (R128, R270). -/
def Dev.wsUse (d : Dev) (c e : Nat) (y : Desc) : Option BankUse :=
  if y.op = 12 then some (wsAccess true (d.reg c e y.ra).v (!y.free) false) else none

/-- Descriptor k's own access loses its port to one of those due in this cycle: it waits for a cycle (R128). -/
def Dev.issueLoses (d : Dev) (c e k : Nat) (rivals : List BankUse) : Bool :=
  (d.wsUse c e (d.desc c e k)).any fun u => losesPort u rivals

/-- Descriptor k waits for a cycle. -/
def Dev.waitPort (d : Dev) (c e k : Nat) : Dev :=
  let r := d.descRec c e k
  (d.setDescRec c e k { r with waited := r.waited + 1 }).portLost c e

/-- One handshake cycle of an engine's issue stage (R126): rivals are the weight-store accesses due in it besides the engine's own, and
wsFix and cmemFix the words that single-bit correction mended in the reads of this cycle (R130, R142). -/
def Dev.issue (d : Dev) (c e bankWait : Nat) (rivals : List BankUse) (wsFix cmemFix : Nat) : Dev :=
  if d.coreState c = coRun then
    let d := (d.countN (Reg.coWsCe (clOf c) (posOf c)) wsFix).countN (Reg.clCmemCe (clOf c)) cmemFix
    let d := (((d.refill c e rivals).resync c e).loopMarker c e).overflows c e
    match d.chosen c e with
    | some k => if d.issueLoses c e k rivals then d.waitPort c e k else d.fire c e k bankWait
    | none => d
  else d

/-! Stall classes (R133, Table 4.5) -/

/-- The class of an engine at a tick, as order − 1. -/
def Dev.stallClass (d : Dev) (c e : Nat) (bank : Bool) : Nat :=
  if (d.eng c e).busy then 0
  else
    let hs := (d.descs c e).map fun k => ((d.desc c e k).free, d.holdOf c e k)
    if hs.any fun h => decide (h.2 = .full true) then 1
    else if bank || (d.eng c e).lost then 2
    else if hs.any fun h => decide (h.2 = .weight) then 3
    else if hs.any fun h => decide (h.2 = .full false) then 4
    else if hs.any fun h => h.1 && decide (h.2 = .ready) then 5
    else if hs.isEmpty then 7 else 6

/-- One engine sampled at a tick. -/
def Dev.sampleEngine (d : Dev) (c e : Nat) (bank : Bool) : Dev :=
  let k := d.stallClass c e bank
  let a := Reg.engStat (clOf c) (posOf c) e
  let d := d.count64 (Reg.coStallLo (clOf c) (posOf c) k) 1
  let d := ((d.setFld a Fld.engStatIq0Fill (d.iq c e 0).length).setFld a Fld.engStatIq1Fill (d.iq c e 1).length).setFld a
    Fld.engStatClass k
  d.setEng c e { d.eng c e with busy := false, lost := false }

/-- The cores in a state. -/
def Dev.coresIn (d : Dev) (st : Nat) : List Nat := (List.range 1088).filter fun c => decide (d.coreState c = st)

/-- One tick: every engine of every core in RUN (R133). -/
def Dev.stallTick (d : Dev) (bank : List (Nat × Nat)) : Dev :=
  (d.coresIn coRun).foldl (fun f c => (List.range 64).foldl (fun g e => g.sampleEngine c e (bank.contains (c, e))) f) d

/-! Memory requests (R140, R141; Table 12.10, MEMRD and MEMWR; log entry 47) -/

/-- The circuit that carries a port's answer back to the engine that asked. -/
def Dev.replyCirc (d : Dev) (x : Circuit) : Option Circuit :=
  (d.portCircs x.dst.cl x.dst.num).find? fun r =>
    decide (r.dst.kind = 1 ∧ r.dst.cl = x.src.cl ∧ r.dst.core = x.src.core ∧ r.dst.eng = x.src.eng)

/-- The answer to a read on circuit x has a place at its port. -/
def Dev.replyRoom (d : Dev) (x : Circuit) : Bool :=
  match d.replyCirc x with
  | some r => d.putRoom r 0
  | none => true

/-- The answer of a read. -/
def Dev.reply (d : Dev) (x : Circuit) (w : Nat) (deg : Bool) (ev : Nat) : Dev :=
  match d.replyCirc x with
  | some r => d.entrySend r (mkToken w r.free 0 ev 0 deg 0)
  | none => d

/-- The logical bank of a cluster-memory byte address (R140). -/
def cmemBank (a : Nat) : Nat := bitsOf a 5 5

/-- The bank row of a cluster-memory byte address (R140). -/
def cmemRow (a : Nat) : Nat := bitsOf a 15 8

/-- The physical bank that holds logical bank l of a cluster: in the slice beside the core that serves logical core l / 2 (R140). -/
def Dev.physBank (d : Dev) (cl l : Nat) : Nat := 2 * posOf (d.physCore cl (l / 2)) + l % 2

/-- The logical core beside whose physical core the slice of a slice port stands. -/
def Dev.sliceCore (d : Dev) (cl port : Nat) : Nat := if port < 33 then port - 17 else d.logicalOf (17 * cl + 16)

/-- The request queue of a physical bank of a cluster. -/
def Dev.bankQ (d : Dev) (cl b : Nat) : List BankReq := SMap.get (fun _ => []) d.fab.banks (34 * cl + b)

/-- That queue changed. -/
def Dev.setBankQ (d : Dev) (cl b : Nat) (qs : List BankReq) : Dev :=
  { d with fab := { d.fab with banks := SMap.set (fun _ => []) d.fab.banks (34 * cl + b) qs } }

/-- Requests of one class in a physical bank's queue: four of them in the queue, the others in the slice port's buffer. -/
def Dev.bankLoad (d : Dev) (cl b : Nat) (free : Bool) : Nat := ((d.bankQ cl b).filter fun q => q.free = free).length

/-- The free-class requests that stand in the buffer of the slice port of physical banks 2 p and 2 p + 1, behind the banks' queues. -/
def Dev.slicePortReqs (d : Dev) (cl p : Nat) : List BankReq :=
  [2 * p, 2 * p + 1].flatMap fun b => ((d.bankQ cl b).filter fun q => q.free).drop 4

/-- The open spill that a free-class request for logical bank l meets first: that of the slice port's buffer, or of the bank's queue. -/
def Dev.bankSpill (d : Dev) (cl l : Nat) (free : Bool) : Option (Nat × Spill) :=
  if free then (d.openSpillOf cl (portEndp cl (17 + d.physBank cl l / 2) 0)).orElse fun _ => d.openSpillOf cl (bankEndp cl l) else none

/-- A request for logical bank l has a place: in the bank's queue, in the slice port's buffer behind it, or in the segment of an open
spill (Table 4.11, R191). -/
def Dev.bankRoom (d : Dev) (cl l : Nat) (free : Bool) : Bool :=
  match d.bankSpill cl l free with
  | some (_, s) => decide (s.toks.length < d.segCap cl)
  | none =>
    let b := d.physBank cl l
    let o := if b % 2 = 0 then b + 1 else b - 1
    decide (d.bankLoad cl b free < 4) || decide ((d.bankLoad cl b free - 4) + (d.bankLoad cl o free - 4) < 4)

/-- The crossbar port at which a circuit's tokens enter the last crossbar they cross. -/
def Circuit.lastPort (x : Circuit) : Nat :=
  match x.store (x.route.length - 1) with
  | .port _ p => p
  | .portEnd _ p => p
  | .mesh l => 36 + (linkXport l - 36 + 2) % 4
  | .dieLink _ => 40
  | .latch l => linkCore l
  | .spine l => linkCore l

/-- A free-class request comes into the queue of a bank, or the buffer of its slice port behind it: a transfer of that one (R189). -/
def Dev.bankTransfer (d : Dev) (cl l : Nat) : Dev :=
  d.dripTransfer (if d.bankLoad cl (d.physBank cl l) true < 4 then bankEndp cl l else portEndp cl (17 + d.physBank cl l / 2) 0)

/-- A request at the tail of a bank's queue. -/
def Dev.bankPush (d : Dev) (cl l : Nat) (q : BankReq) : Dev :=
  let d := if q.free then d.bankTransfer cl l else d
  d.setBankQ cl (d.physBank cl l) (d.bankQ cl (d.physBank cl l) ++ [q])

/-- A request enters a bank's queue, or the segment of an open spill on its way there. -/
def Dev.bankPut (d : Dev) (cl l : Nat) (q : BankReq) : Dev :=
  match d.bankSpill cl l q.free with
  | some (j, s) => d.segPush cl j s ⟨q.circ, 0, q.tok, [], some q, 0⟩
  | none => d.bankPush cl l q

/-- A bank serves a request: a read is answered on the way back, a write lands (R141). -/
def Dev.bankAccess (d : Dev) (cl : Nat) (q : BankReq) : Dev :=
  let a := cl * 2 ^ 23 + q.addr % 2 ^ 23 / 8 * 8
  if q.write then { d with fab := { d.fab with cmem := SMap.setList (fun _ => 0) d.fab.cmem a (leBytes 8 q.data) } }
  else match d.circ q.circ with
    | some x => d.reply x (leNat (SMap.getList (fun _ => 0) d.fab.cmem a 8)) q.degraded q.tag
    | none => d

/-- The requests that stand in a bank's queue, four of each class: those behind them are still in the slice port's buffer (R139, R141). -/
def queuedReqs (qs : List BankReq) : List BankReq := (qs.filter fun q => !q.free).take 4 ++ (qs.filter fun q => q.free).take 4

/-- The request that a bank serves next: of those of its queue that can be served, a timed-class one before a free-class one, and within a class the
one of the lowest crossbar port, the oldest of that port (R141). -/
def Dev.bankNext (d : Dev) (qs : List BankReq) : Option BankReq :=
  let ok := (queuedReqs qs).filter fun (q : BankReq) => q.write || (match d.circ q.circ with
    | some x => d.replyRoom x
    | none => true)
  let timed := ok.filter fun q => !q.free
  let cls := if timed.isEmpty then ok else timed
  (listMin (cls.map fun q => q.port)).bind fun p => cls.find? fun q => q.port = p

/-- One handshake cycle of a physical bank (R141). -/
def Dev.bankCycle (d : Dev) (cl b : Nat) : Dev :=
  match d.bankNext (d.bankQ cl b) with
  | none => d
  | some q =>
    let d := d.setBankQ cl b ((d.bankQ cl b).erase q)
    let d := if q.free then
        (if (d.slicePortReqs cl (b / 2)).isEmpty then d else d.dripTransfer (portEndp cl (17 + b / 2) 0)).dripTransfer
          (bankEndp cl (cmemBank q.addr))
      else d
    d.bankAccess cl q

/-- One handshake cycle of every bank of a cluster (log entry 44). -/
def Dev.banksCycle (d : Dev) (cl : Nat) : Dev := (List.range 34).foldl (fun f b => f.bankCycle cl b) d

/-- A request of a FREE area put among its stack's OPEN users. -/
def Dev.stackRequest (d : Dev) (x : Circuit) (write : Bool) (a w : Nat) (t : Token) : Dev :=
  let s := 3 * (x.dst.cl / 16) + x.dst.cl % 16 / 4
  let r := d.stackRec s
  d.setStack s { r with reqs := r.reqs ++ [⟨x.key, write, a * 8, w, t.evslot.toNat, tokBad t⟩] }

/-- A request reaches a slice port: it goes to its address's bank if the slice holds that bank. Of another slice's address the spec
states nothing: a read is answered with a free value, a write changes nothing (log entry 47). -/
def Dev.sliceRequest (d : Dev) (x : Circuit) (write : Bool) (a w : Nat) (t : Token) : Dev :=
  let cl := x.dst.cl
  let l := cmemBank a
  if l / 2 = d.sliceCore cl x.dst.num then
    d.bankPut cl l ⟨x.key, write, a % 2 ^ 23, w, t.evslot.toNat, tokBad t, x.free, x.lastPort, t⟩
  else if write then d
  else
    let (v, d) := d.open_ .foreignBank
    d.reply x (v % 2 ^ 64) (tokBad t) t.evslot.toNat

/-- The byte address and the kind of the request that a token makes at a memory port: BSEQ 0 reads, 1 gives a write's address, 2 its data. -/
def Dev.requestOf (d : Dev) (x : Circuit) (t : Token) : Option (Bool × Nat) :=
  if t.kind.toNat ≠ 0 then none
  else if t.bseq.toNat = 0 then some (false, t.payload.toNat % 2 ^ 32)
  else if t.bseq.toNat = 1 then none
  else (d.cst x.key).addr.map fun a => (true, a)

/-- A memory request token reaches a slice port or a stack's edge port. -/
def Dev.memArrive (d : Dev) (x : Circuit) (t : Token) : Dev :=
  let slice := decide (17 ≤ x.dst.num) && decide (x.dst.num ≤ 33)
  if t.kind.toNat = 0 ∧ t.bseq.toNat = 1 then d.setCst x.key { d.cst x.key with addr := some (t.payload.toNat % 2 ^ 32) }
  else match d.requestOf x t with
    | none => d
    | some (write, a) =>
      let d := if write then d.setCst x.key { d.cst x.key with addr := none } else d
      if slice then d.sliceRequest x write a t.payload.toNat t else d.stackRequest x write a t.payload.toNat t

/-- A memory port takes a token now: its request has a place in its bank's queue or behind its stack port (Table 4.11). -/
def Dev.memRoom (d : Dev) (x : Circuit) (t : Token) : Bool :=
  match d.requestOf x t with
  | none => true
  | some (_, a) =>
    if x.dst.num = 40 then decide (d.stackLoad x.dst.cl x.free < 68)
    else if cmemBank a / 2 = d.sliceCore x.dst.cl x.dst.num then d.bankRoom x.dst.cl (cmemBank a) x.free
    else d.replyRoom x

/-! Crossing a link (R155 to R157, R161, R177, R191) -/

/-- The engine input queue that a circuit ends in, as a Drip set names it. -/
def Circuit.dstQueue (x : Circuit) : Endp := iqEndp x.dst.cl x.dst.core x.dst.eng x.dst.idx

/-- Whether a circuit's end takes a token now. What comes to a counter behind a marker waits until the counter unit has switched
(R179). -/
def Dev.dstRoom (d : Dev) (x : Circuit) (t : Token) : Bool :=
  let c := d.physCore x.dst.cl x.dst.core
  if x.dst.kind = 1 then
    d.coreState c = coFenced || d.iqTakes c x.dst.eng x.dst.idx x.free
  else if x.dst.kind = 2 then
    d.coreState c = coFenced || (!(d.core c).cuMarks.contains x.dst.idx &&
      (decide (t.kind.toNat ≠ 2) || (d.counter (d.cuRef c x.dst.idx)).waiting ||
        decide ((d.counter (d.cuRef c x.dst.idx)).mode ≠ 2)))
  else if x.dst.kind = 3 ∧ (x.dst.num = 40 ∨ (17 ≤ x.dst.num ∧ x.dst.num ≤ 33)) then d.memRoom x t
  else true

/-- A token that reaches a counter: a marker waits there, a credit is added, and a count is loaded (R166, R179, R200). -/
def Dev.reachCounter (d : Dev) (x : Circuit) (t : Token) : Dev :=
  let c := d.physCore x.dst.cl x.dst.core
  if d.coreState c = coFenced then d
  else if tokMarker t then d.setCore c { d.core c with cuMarks := (d.core c).cuMarks ++ [x.dst.idx] }
  else if t.kind.toNat = 5 then d.addCredits x.dst.cl (bitsOf t.payload.toNat 0 6) (bitsOf t.payload.toNat 6 7)
  else if t.kind.toNat = 2 ∧ bitsOf t.payload.toNat 36 3 = 1 then
    d.countTok (d.cuRef c x.dst.idx) (bitsOf t.payload.toNat 0 32) (tokBad t)
  else d

/-- A token reaches its circuit's end. -/
def Dev.deliverTok (d : Dev) (x : Circuit) (t : Token) : Dev :=
  let c := d.physCore x.dst.cl x.dst.core
  if x.dst.kind = 1 then d.iqDeliver c x.dst.eng x.dst.idx t
  else if x.dst.kind = 2 then d.reachCounter x t
  else if x.dst.kind = 3 then
    if x.dst.num = 34 then d.scrimArrive x t
    else if x.dst.num = 35 then d.batchEnd x t
    else if x.dst.num = 40 ∨ (17 ≤ x.dst.num ∧ x.dst.num ≤ 33) then d.memArrive x t
    else d
  else if x.dst.kind = 4 then
    if tokMarker t then d
    else d.netInput x.dst.num t.evslot.toNat (BitVec.ofNat 32 t.payload.toNat) (tokBad t)
  else d

/-- Link l lies in a fenced core. -/
def Dev.linkFenced (d : Dev) (l : Nat) : Bool := decide (linkKind l ≤ 2) && decide (d.coreState (d.linkPhys l) = coFenced)

/-- The token that a circuit has ready to cross hop h: the one that has waited longest, or the head of its class of the counter unit's
output, if it leaves on this circuit (R167). -/
def Dev.headAt (d : Dev) (x : Circuit) (h : Nat) : Option Token :=
  if h = 0 ∧ x.src.kind = 2 then
    match (d.cuTokens (d.physCore x.src.cl x.src.core) x.free).head? with
    | some u => if u.left.contains x.key then some u.tok else none
    | none => none
  else (d.waitAt x.key h).head?

/-- That token taken away; a counter unit's token is gone once it has left on all its circuits. -/
def Dev.takeHead (d : Dev) (x : Circuit) (h : Nat) : Dev :=
  if h = 0 ∧ x.src.kind = 2 then
    let c := d.physCore x.src.cl x.src.core
    match (d.cuTokens c x.free).head? with
    | none => d
    | some u =>
      let left := u.left.erase x.key
      let r := d.core c
      if left.isEmpty then
        let d := d.setCore c { r with cuOut := r.cuOut.erase u }
        if x.free then d.dripTransfer (cuEndp (clOf c) (d.logicalOf c)) else d
      else d.setCore c { r with cuOut := r.cuOut.map fun w => if w = u then ⟨u.tok, left⟩ else w }
  else d.dropHead x h

/-- The flit that a token enters as it crosses link l; none where no die link follows. -/
def flitOn (l : Nat) : Option Nat := if linkEdge l then outFlit (linkCl l) else none

/-- A circuit ends behind a buffer of its last port: a core port's before a counter (R139), or an edge port's with its crossing FIFO before
the flits toward the X-die (R147). -/
def Circuit.bufferedEnd (x : Circuit) : Bool := x.counterEnd || (flitOn x.lastLink).isSome

/-- A token that crosses toward hop h of a circuit finds a place: in the next store, or at the circuit's end. A fenced core takes and
discards every token (R137). -/
def Dev.nextRoom (d : Dev) (x : Circuit) (h : Nat) (t : Token) : Bool :=
  if h < x.route.length then d.linkFenced (x.link h) || d.putRoom x h
  else if x.bufferedEnd then (x.counterEnd && decide (d.coreState (d.physCore x.dst.cl x.dst.core) = coFenced)) || d.putRoom x h
  else d.dstRoom x t

/-- Whether the token at the head of a circuit's hop can cross. Nothing moves inside a fenced core (R137). -/
def Dev.canCross (d : Dev) (x : Circuit) (h : Nat) : Bool :=
  match d.headAt x h with
  | none => false
  | some t => !d.linkFenced (x.link h) && d.nextRoom x (h + 1) t

/-- The tokens in a core port's buffer before a counter go on to it, the oldest first, as far as it takes them. -/
def Dev.drainEnd (d : Dev) (x : Circuit) : Nat → Dev
  | 0 => d
  | n + 1 =>
    match d.waitAt x.key x.route.length with
    | [] => d
    | t :: _ => if d.dstRoom x t then ((d.dropHead x x.route.length).reachCounter x t).drainEnd x n else d

/-- A token arrives before hop h of a circuit, or at its end. -/
def Dev.arrive (d : Dev) (x : Circuit) (h : Nat) (t : Token) : Dev :=
  if h < x.route.length then (if d.linkFenced (x.link h) then d else d.putHop x h t)
  else if x.counterEnd then (d.putHop x h t).drainEnd x ((d.waitAt x.key h).length + 1)
  else d.deliverTok x t

/-- Every core port's buffer drained into the counters behind it. -/
def Dev.drainEnds (d : Dev) : Dev :=
  d.fab.circuits.foldl (fun f x => if x.counterEnd then f.drainEnd x (f.waitAt x.key x.route.length).length else f) d

/-- Every counter unit takes what waits to enter its output queue. -/
def Dev.feedUnits (d : Dev) : Dev := d.fab.cores.foldl (fun f p => f.cuFeed p.1 p.2.cuHeld.length) d

/-- The hop on which a marked circuit's tokens are seen by the statistics unit: its first crossbar crossing (R256). -/
def Circuit.statHop (x : Circuit) : Option Nat :=
  (List.range x.route.length).find? fun h => decide (linkKind (x.link h) = 3)

/-- A crossing FIFO toward the die link or stack port behind link l is full for a circuit's class. -/
def Dev.fifoFull (d : Dev) (x : Circuit) (l : Nat) : Bool :=
  linkEdge l && (match edgeLink (linkCl l) with
    | some _ => decide (132 ≤ d.storeLoad (.dieLink l) x.free)
    | none => decide (64 ≤ d.stackLoad (linkCl l) x.free))

/-- A timed token that stands in a crossbar port's buffer before a full crossing FIFO is an overflow (R161, "Clocked boundaries"). -/
def Dev.fifoOverflow (d : Dev) (x : Circuit) (t : Token) : Dev :=
  match d.srcCore x with
  | some c =>
    (d.count (Reg.coTimedOvf (clOf c) (posOf c))).postNotice false .timedOverflow t.evslot.toNat (d.deviceCore c)
  | none => d.postNotice false .timedOverflow t.evslot.toNat (((d.dstCore x).map d.deviceCore).getD 0)

/-- A wheel in service. -/
def Dev.wpos (d : Dev) (l : Nat) : WheelPos := SMap.get (fun _ => ⟨0, none⟩) d.fab.wpos l

/-- The token at the head of a circuit's hop crosses; into a flit it goes at the place of the wheel position that it crosses in, which
the pointer has just left (R145, R156). -/
def Dev.cross (d : Dev) (x : Circuit) (h : Nat) : Dev :=
  match d.headAt x h with
  | none => d
  | some t =>
    let d := if !x.free && !tokMarker t && d.fifoFull x (x.link h) then d.fifoOverflow x t else d
    let d := d.takeHead x h
    let d := if linkKind (x.link h) = 2 then d.noteSent x t else d
    let d := if x.stat && decide (x.statHop = some h) then d.observe x t else d
    match flitOn (x.link h) with
    | some k => d.setFlit k (d.flitOf k ++ [{ DripTok.at x.key (h + 1) t with pos := ((d.wpos (x.link h)).ptr + 15) % 16 }])
    | none => d.arrive x (h + 1) t

/-- The circuit and hop that wheel position j would send: the owner's, or in a FREE position the ready free circuit that
follows the one served last (R156, R157). -/
def Dev.ownerReady (d : Dev) (l codes j : Nat) : Option (Circuit × Nat) :=
  let code := bitsOf codes (2 * j) 2
  if code = 1 then
    d.fab.circuits.findSome? fun x =>
      if x.free then none
      else (x.hopsOn l).findSome? fun h => if bitAt (x.route.getD h (0, 0)).2 j && d.canCross x h then some (x, h) else none
  else if code = 2 then
    let ready := d.fab.circuits.filterMap fun x =>
      if x.free then (((x.hopsOn l).find? fun h => d.canCross x h).map fun h => (x, h)) else none
    let sorted := ready.mergeSort fun a b => decide (a.1.key ≤ b.1.key)
    match (d.wpos l).last with
    | some k => (match sorted.find? fun p => decide (k < p.1.key) with
      | some p => some p
      | none => sorted.head?)
    | none => sorted.head?
  else none

/-- One crossing of a link (R156). -/
def Dev.wheelCross (d : Dev) (l : Nat) : Dev :=
  match d.fab.wheels.find? fun w => w.link = l with
  | none => d
  | some w =>
    let p := (d.wpos l).ptr
    match (List.range 16).findSome? fun i => (d.ownerReady l w.codes ((p + i) % 16)).map fun y => ((p + i) % 16, y) with
    | none => d
    | some (j, x, h) =>
      let last := if x.free then some x.key else (d.wpos l).last
      let d := { d with fab := { d.fab with wpos := SMap.set (fun _ => ⟨0, none⟩) d.fab.wpos l ⟨(j + 1) % 16, last⟩ } }
      d.cross x h

end Sys2Proof.Machine
end

