-- ==== Sys2Proof/Machine/Switch.lean ====
section
/-!
DEFINITION. Context switches by the marker wave, sections, core states and fences, self-test, die links, pace, and Drip
("Engines, cores, clusters and dies", "Dataflow, slot wheels, contexts and deadlock", "Faults, spares, wear and degraded running").
-/

namespace Sys2Proof.Machine

open Sys2Proof

/-! Accepting a switch (R174 to R176, R209) -/

/-- Circuits that end in a core of a group. -/
def Dev.groupCircs (d : Dev) (x : GroupRec) : List Circuit :=
  d.fab.circuits.filter fun y => match d.dstCore y with
    | some c => x.cores.contains c
    | none => match d.srcCore y with
      | some c => x.cores.contains c
      | none => false

/-- The group has timed-class circuits, in the context it runs or in the one it is to run. -/
def Dev.groupTimed (d : Dev) (x : GroupRec) (k : Nat) : Bool :=
  (d.groupCircs x).any fun y => !y.free && (y.inCtx x.ctx || y.inCtx k)

/-- E_p that FIRST_EVENT is a multiple of: over the timed streams of the group's two contexts (R209). -/
def Dev.groupEp (d : Dev) (x : GroupRec) (k : Nat) : Nat :=
  x.cores.foldl (fun a c => [x.ctx, k].foldl (fun b j =>
    match d.ctxRec c j with
    | some y => if bitAt y.stream 0 && !bitAt y.stream 1 then Nat.lcm b (bitsOf y.stream 8 5 + 1) else b
    | none => b) a) 1

/-- The first event whose admission time is at least 200 ns later (R176), a multiple of ep (R209). -/
def Dev.firstUnder (d : Dev) (ep : Nat) : Nat :=
  if d.tev = 0 then 0
  else
    let t := ceilDiv d.tms.ctr (2 ^ 40) + 200
    let n := if t ≤ d.aNs + d.tev then 0 else ceilDiv (t - d.aNs) d.tev - 1
    ceilDiv n ep * ep

/-- The input queues of an engine that a context uses. -/
def Dev.usedQueues (d : Dev) (c e ctx : Nat) : List Nat :=
  let l := d.logicalOf c
  [0, 1].filter fun q => d.fab.circuits.any fun x =>
    x.inCtx ctx && decide (x.dst.kind = 1 ∧ x.dst.cl = clOf c ∧ x.dst.core = l ∧ x.dst.eng = e ∧ x.dst.idx = q)

/-- The counters of a core that a context feeds by circuits. -/
def Dev.fedCounters (d : Dev) (c ctx : Nat) : List Nat :=
  let l := d.logicalOf c
  ((d.fab.circuits.filter fun x =>
    x.inCtx ctx && decide (x.dst.kind = 2 ∧ x.dst.cl = clOf c ∧ x.dst.core = l)).map fun x => x.dst.idx).dedup

/-! The wave (R177 to R182) -/

/-- The section that the loader writes next: the first after the running one, in the order of execution, that is not resident in the
image, does not stand in its context slot, and whose slot the group neither runs nor has yet to run (R185). -/
def GroupRec.nextLoad (x : GroupRec) : Option Nat :=
  let n := x.sections_.length
  ((List.range n).map fun i => (x.sec + 1 + i) % n).find? fun i =>
    match x.sections_[i]? with
    | some s => !s.resident && !x.loadedSecs.contains i && decide (s.ctx ≠ x.ctx) && x.loadedSecs.all fun j =>
        x.ranSecs.contains j || decide ((x.sections_[j]?).map (fun t => t.ctx) ≠ some s.ctx)
    | none => false

/-- A section switch of a group's record: the section left has run, and the loader turns to the next (R185). -/
def GroupRec.goSection (x : GroupRec) (i : Nat) : GroupRec :=
  let y := { x with sec := i, ranSecs := (x.sec :: x.ranSecs).filter fun j => j ≠ i }
  { y with loading := match y.loading with
    | some l => some l
    | none => y.nextLoad }

/-- A group's switch is complete: context and epoch in service, circuits on the new epoch, the log, and what follows
from a section switch or an adaptation switch (R182, R185, R272). -/
def Dev.groupDone (d : Dev) (g : Nat) (w : Wave) : Dev :=
  let x := d.grp g
  let d := (d.groupCircs x).foldl (fun f y => f.setCst y.key { f.cst y.key with epoch := w.epoch, marked := false }) d
  let clean := fun (f : Dev) (c : Nat) =>
    let f := (List.range 64).foldl (fun h e => h.setEng c e { h.eng c e with switched := false }) f
    f.setCore c { f.core c with cuSwitched := false }
  let d := x.cores.foldl clean d
  let y := { x with ctx := w.ctx, epoch := w.epoch, wave := none }
  let d := d.setGrp g (match w.sec with
    | some i => y.goSection i
    | none => y)
  let d := d.logInternal (Reg.scrCtxsel g) (x.ctx + 4 * x.epoch) (w.ctx + 4 * w.epoch + w.first % 2 ^ 24 * 2 ^ 8) .ok
  if w.adapt then { d.epochDone g with num := { (d.epochDone g).num with adaptFirsts := w.first :: (d.epochDone g).num.adaptFirsts } } else d

/-- A core has completed, or is fenced (R182, R458): it leaves the wave, which ends with the last one. -/
def Dev.waveLeave (d : Dev) (g c : Nat) : Dev :=
  let x := d.grp g
  match x.wave with
  | none => d
  | some w =>
    let w := { w with left := w.left.filter fun k => k ≠ c }
    let d := d.setGrp g { x with wave := some w }
    if w.left.isEmpty then d.groupDone g w else d

/-- The counter unit of a core switches: a marker on each of its circuits of the old context (R179). -/
def Dev.cuSwitch (d : Dev) (c : Nat) (w : Wave) : Dev :=
  let l := d.logicalOf c
  let outs := d.circsFrom (d.coreCtx c) fun s => decide (s.kind = 2 ∧ s.cl = clOf c ∧ s.core = l)
  let d := outs.foldl (fun f x => f.cuPut c ⟨markerTok w (f.coreEpoch c) x.free, [x.key]⟩) d
  d.setCore c { d.core c with cuSwitched := true, cuMarks := [] }

/-- A core's switch is complete once all its engines and its counter unit have switched (R182); a counter unit that no
circuit feeds switches with the last engine. -/
def Dev.coreCheck (d : Dev) (c : Nat) : Dev :=
  let g := d.groupOf c
  match (d.grp g).wave with
  | none => d
  | some w =>
    if w.left.contains c && (List.range 64).all fun e => (d.eng c e).switched then
      let d := if !(d.core c).cuSwitched && (d.fedCounters c (d.coreCtx c)).isEmpty then d.cuSwitch c w else d
      if (d.core c).cuSwitched then
        let a := Reg.coCtx (clOf c) (posOf c)
        let d := d.count (Reg.coSwitches (clOf c) (posOf c))
        let d := (d.setFld a Fld.coCtxActive w.ctx).setFld a Fld.coCtxEpoch w.epoch
        d.waveLeave g c
      else d
    else d

/-- The marked loop entry of an engine, if any (R180). -/
def Dev.hasLoopEntry (d : Dev) (c e : Nat) : Bool :=
  (d.descs c e).any fun k => let y := d.desc c e k; decide (y.op = 7) && y.loopEntry

/-- Whether an engine receives the switch marker now (R178, R180). -/
def Dev.markersIn (d : Dev) (c e : Nat) : Bool :=
  (d.usedQueues c e (d.coreCtx c)).all (fun q => match d.iq c e q with
    | t :: _ => tokMarker t
    | [] => false) && (!d.hasLoopEntry c e || (d.eng c e).looping)

/-- An engine switches: markers on the outputs that have none yet, the heads removed, the queues open, the old context's staged words
that it has not read given up, and the new context from its first event on (R178). -/
def Dev.engSwitch (d : Dev) (c e : Nat) (w : Wave) : Dev :=
  let l := d.logicalOf c
  let old := d.coreCtx c
  let outs := (d.circsFrom old fun s => decide (s.kind = 0 ∧ s.cl = clOf c ∧ s.core = l ∧ s.eng = e)).filter fun x =>
    !(d.eng c e).ahead.contains x.key
  let d := outs.foldl (fun f x => f.send x (markerTok w (f.coreEpoch c) x.free)) d
  let d := (d.usedQueues c e old).foldl (fun f q => (f.iqPop c e q).setClosed c e q false) d
  let k := d.core c
  let drop := fun (u : Staged) => if u.ctx = old then { u with left := u.left.erase e } else u
  let d := d.setCore c { k with staged := (k.staged.map drop).filter fun u => !u.left.isEmpty }
  let r := d.eng c e
  let keep := r.descs.filter fun p => decide (p.1 / 32 ≠ w.ctx)
  let d := d.setEng c e { r with
    switched := true, ahead := [], looping := false, latch := [], nextBlock := 0, released := 0, descs := keep }
  match d.ctxRec c w.ctx with
  | some x => (List.range 32).foldl (fun f k =>
      let y := x.desc e k
      if y.valid && !y.free then f.setDescRec c e k { DescRec.init with slot := some (w.first % 256) } else f) d
  | none => d

/-- An engine receives the switch marker, if markers stand at every input it uses. -/
def Dev.receiveMarker (d : Dev) (c e : Nat) : Dev :=
  match d.waveOf c with
  | none => d
  | some w =>
    if decide (d.coreState c = coRun) && w.left.contains c && !(d.eng c e).switched && d.markersIn c e then
      (d.engSwitch c e w).coreCheck c
    else d

/-- The counter unit of a core switches, if markers are at every counter input (R179). -/
def Dev.counterSwitch (d : Dev) (c : Nat) : Dev :=
  match d.waveOf c with
  | none => d
  | some w =>
    if decide (d.coreState c = coRun) && w.left.contains c && !(d.core c).cuSwitched &&
        (d.fedCounters c (d.coreCtx c)).all fun k => (d.core c).cuMarks.contains k then
      (d.cuSwitch c w).coreCheck c
    else d

/-- A group accepts its waiting request: FIRST_EVENT is fixed, circuits of the new context alone stamp the new epoch, and
engines without an input circuit receive the marker (R174 to R178). -/
def Dev.switchAccept (d : Dev) (g : Nat) : Dev :=
  let x := d.grp g
  match x.req with
  | none => d
  | some r =>
    if x.wave.isSome || !d.targetLoaded g r then d
    else
      let first := if d.groupTimed x r.ctx then d.firstUnder (d.groupEp x r.ctx) else 0
      let left := x.cores.filter fun c => decide (d.coreState c = coRun)
      let w : Wave := ⟨r.ctx, (x.epoch + 1) % 4, first, r.section_, r.adapt, left, r.sec⟩
      let d := d.setGrp g { x with req := none, wave := some w }
      let d := (d.groupCircs x).foldl (fun f y =>
        if y.inCtx r.ctx && !y.inCtx x.ctx then f.setCst y.key { f.cst y.key with epoch := w.epoch } else f) d
      if left.isEmpty then d.groupDone g w
      else left.foldl (fun f c => (List.range 64).foldl (fun h e =>
        if (h.usedQueues c e x.ctx).isEmpty then h.receiveMarker c e else h) f) d

/-! Entry ports (R171, R172, R176) -/

/-- Whether an entry circuit's marker is due: at once in the free class; in the timed class after the K_c-th token of the event before
FIRST_EVENT, or a token of a later event, has passed the port, or at once where no event before FIRST_EVENT was formed (R176). -/
def Dev.markerDue (d : Dev) (x : Circuit) (w : Wave) : Bool :=
  x.free || decide (w.first ≤ d.scr.firstEv) || (match (d.cst x.key).slot with
    | some s =>
      let k := (s + 257 - w.first % 256) % 256
      (decide (k = 0) && decide (x.kc ≤ (d.cst x.key).sent)) || (decide (1 ≤ k) && decide (k < 128))
    | none => false)

/-- An entry port sends its circuit's marker, if it is due. -/
def Dev.sendMarker (d : Dev) (key : Nat) : Dev :=
  match d.circ key with
  | none => d
  | some x =>
    match d.circWave x with
    | none => d
    | some w =>
      if d.isEntry x && d.awaitsMarker x && d.markerDue x w then d.putMarker x w else d

/-! Stand-ins and entry rows at admission (R137, R146, R439, R460) -/

/-- The hop at which a core's port hands a token to the crossbar. -/
def Circuit.portHop (x : Circuit) : Nat :=
  ((List.range x.route.length).find? fun h => decide (linkKind (x.link h) = 3)).getD 0

/-- n stand-ins for an event slot on a circuit of a fenced core (R137). -/
def Dev.standIns (d : Dev) (x : Circuit) (epoch slot : Nat) : Nat → Dev
  | 0 => d
  | n + 1 =>
    let t := standIn epoch slot
    (((d.noteSent x t).putHop x x.portHop t).count (Reg.clStandin x.src.cl)).standIns x epoch slot n

/-- The timed circuits of its context that leave a core. -/
def Dev.leaving (d : Dev) (c : Nat) : List Circuit :=
  d.fab.circuits.filter fun x => !x.free && x.inCtx (d.coreCtx c) && decide (d.srcCore x = some c) &&
    decide (d.dstCore x ≠ some c)

/-- K_c stand-ins for one event on each timed circuit that leaves a fenced core. -/
def Dev.fencedEvent (d : Dev) (c n : Nat) : Dev :=
  (d.leaving c).foldl (fun f x => f.standIns x (f.coreEpoch c) (n % 256) x.kc) d

/-- The hop of a circuit that crosses a lost die link. -/
def Dev.lostHop (d : Dev) (x : Circuit) : Option Nat :=
  (List.range x.route.length).find? fun h => linkEdge (x.link h) && (match edgeLink (linkCl (x.link h)) with
    | some dk => d.linkLost dk
    | none => false)

/-- n stand-ins past hop h of a circuit, from the receiving edge port of a lost link (R460). -/
def Dev.lostStandIns (d : Dev) (x : Circuit) (h slot : Nat) : Nat → Dev
  | 0 => d
  | n + 1 =>
    let die := linkCl (x.link h) / 16
    ((d.arrive x (h + 1) (standIn (d.cst x.key).epoch slot)).count (Reg.dieStandin die)).lostStandIns x h slot n

/-- The stand-ins of one event for circuits that cross a lost link between engines, ports and the Screed (R460). -/
def Dev.lostEvent (d : Dev) (n : Nat) : Dev :=
  d.fab.circuits.foldl (fun f x =>
    if x.free then f
    else match f.lostHop x with
      | some h => f.lostStandIns x h (n % 256) x.kc
      | none => f) d

/-- The SMP24 words of a lane's window for entry rows of source 1: two samples each, oldest first; a missing position makes
its word a MISSING token (R439, R67). An odd last sample shares its word with the value given (log entry 50). -/
def windowWords (ch half : Nat) : List (Option Int) → List (Nat × Bool)
  | [] => []
  | [a] => match a with
    | some x => [(lowBits 32 (signedOf 24 (lowBits 24 x)) + half % 2 ^ 32 * 2 ^ 32, false)]
    | none => [(ch, true)]
  | a :: b :: rest =>
    (match a, b with
      | some x, some y =>
        (lowBits 32 (signedOf 24 (lowBits 24 x)) + lowBits 32 (signedOf 24 (lowBits 24 y)) * 2 ^ 32, false)
      | _, _ => (ch, true)) :: windowWords ch half rest

/-- The tokens of the timed entry rows of one circuit for an event, in ORDER (R439): given words, each with whether it is
MISSING. -/
def Dev.entryTokens (d : Dev) (x : Circuit) (n : Nat) (ws : List (Nat × Bool)) : Dev :=
  ws.foldl (fun f w => f.xdieSend x (mkToken w.1 x.free 0 (n % 256) (if w.2 then 4 else 0) false 0)) d

/-- A circuit is in the context that its group runs for event n: the wave's from FIRST_EVENT on, the old one before. -/
def Dev.circRuns (d : Dev) (x : Circuit) (n : Nat) : Bool :=
  match d.dstCore x with
  | none => true
  | some c =>
    match d.waveOf c with
    | some w => x.inCtx (if w.first ≤ n then w.ctx else d.coreCtx c)
    | none => x.inCtx (d.coreCtx c)

/-! Core states (R134 to R137, R458, R196) -/

/-- A core's state code changed. -/
def Dev.setCoreState (d : Dev) (c st : Nat) : Dev := d.setFld (coStatAddr c) Fld.coStatState st

/-- The registers of a cluster that count its cores (Table 4.14), and the die's CLUSTERS_FULL. SHORT stands for the positions that serve now: in
step 7 it reads 1 until enough have left TEST (DESIGN CHOICE, log entry 74). -/
def Dev.countCores (d : Dev) (cl : Nat) : Dev :=
  let serving := ((List.range 17).filter fun p => let s := d.coreState (17 * cl + p); decide (3 ≤ s) && decide (s ≤ 6)).length
  let d := (d.setFld (Reg.clStat cl) Fld.clStatActiveCores serving).setFld (Reg.clStat cl) Fld.clStatShort
    (bit01 (decide (serving < 16)))
  let die := cl / 16
  let full := ((List.range 16).filter fun k =>
    decide (d.fld (Reg.clStat (16 * die + k)) Fld.clStatActiveCores = 16)).length
  d.setFld (Reg.dieStat die) Fld.dieStatClustersFull full

/-- Rows 7 and 8 of Table 4.7: position 16, once every other position has left TEST (R136). -/
def Dev.settleSpare (d : Dev) (cl : Nat) : Dev :=
  let s := 17 * cl + 16
  if (List.range 16).any fun p => decide (d.coreState (17 * cl + p) ≤ coTest) then d
  else
    if decide (d.coreState s = coTest) && (d.core s).passed then
        match findBelow (fun p => decide (d.coreState (17 * cl + p) = coRetired)) 16 with
        | some p => ((d.setCoreState s coLoad).setFld (coStatAddr s) Fld.coStatLogical p).setFld (Reg.clStat cl)
            Fld.clStatReplaced p
        | none => d.setCoreState s coSpare
    else d

/-- Some position is still under the memory march of self-test. -/
def Dev.marching (d : Dev) : Bool := (List.range 1088).any fun c => decide (d.coreState c = coTest) && !(d.core c).passed

/-- Self-test of a core position completes (R449, R450, rows 5 to 8). A unit of it that failed retires it, and with the last position the march
at 600 mV ends (R502; DESIGN CHOICE, log entry 75). -/
def Dev.coreTested (d : Dev) (c : Nat) (r : SelfTestResult) : Dev :=
  if d.coreState c = coTest ∧ (d.core c).passed = false then
    let cl := clOf c
    let p := posOf c
    let d := r.failedEngines.foldl (fun f e => f.setFld (Reg.engStat cl p e.val) Fld.engStatTestFail 1) d
    let d := (List.range 8).foldl (fun f j =>
      f.setFld (Reg.coWsSpare cl p) ⟨4 * j, 4⟩ (match r.wsSpares[j]? with
        | some n => n.val
        | none => 0)) d
    let d := (List.range 2).foldl (fun f j =>
      (f.setFld (Reg.clBank cl (2 * p + j)) Fld.clBankSparesUsed (match r.sliceSpares[j]? with
        | some n => n.val
        | none => 0)).setFld (Reg.clBank cl (2 * p + j)) Fld.clBankMappedOut
        (bit01 (r.sliceNinth.any fun b => decide (b.val = j)))) d
    let cause := if !r.failedEngines.isEmpty then 1 else if r.wsNinth then 2 else if !r.sliceNinth.isEmpty then 3 else 0
    let d := d.setCore c { d.core c with cause := cause }
    let d := if decide (cause ≠ 0) || r.otherFailed then d.setCoreState c coRetired
      else if p < 16 then (d.setCoreState c coLoad).setFld (coStatAddr c) Fld.coStatLogical p
      else d.setCore c { d.core c with passed := true }
    let d := (d.settleSpare cl).countCores cl
    if d.marching then d else d.setV 750
  else d

/-- An uncorrectable error of a core's memories is counted (R130, R142): causes 1 and 2 are the weight and context stores, 4 the memory
slice. -/
def Dev.countUe (d : Dev) (c cause : Nat) : Dev :=
  if cause = 4 then d.count (Reg.clCmemUe (clOf c)) else if cause ≤ 2 then d.count (Reg.coWsUe (clOf c) (posOf c)) else d

/-- Row 3: an uncorrectable error during loading. The core serves no logical core any more. -/
def Dev.coreLoadError (d : Dev) (c cause : Nat) : Dev :=
  if d.coreState c = coLoad then
    let before := d.rd (coStatAddr c)
    let cl := clOf c
    let d := d.countUe c cause
    let d := ((d.setCoreState c coRetired).setFld (coStatAddr c) Fld.coStatLogical 0x1F).countCores cl
    let d := if posOf c = 16 then d.setFld (Reg.clStat cl) Fld.clStatReplaced 0x1F else d
    let d := d.setFld (Reg.clStat cl) Fld.clStatShort 1
    let d := ((d.setCore c { d.core c with cause := 4 }).setHmap (hmCore c) 0 3 coRetired).setHmap (hmCore c) 4 3 4
    let d := d.setHmap (hmCluster cl) 0 1 1
    d.logInternal (coStatAddr c) before (d.rd (coStatAddr c)) .degraded
  else d

/-- Row 9: every context loaded and read back. -/
def Dev.coreLoaded (d : Dev) (c : Nat) : Dev := if d.coreState c = coLoad then d.setCoreState c coReady else d

/-- Row 10: the Screed arms, and every READY core runs. -/
def Dev.coresRun (d : Dev) : Dev := (d.coresIn coReady).foldl (fun f c => f.setCoreState c coRun) d

/-- A segment freed; the set's OPEN bit follows. -/
def Dev.closeSpill (d : Dev) (cl j s : Nat) : Dev :=
  let d := d.setSpill cl j none
  if ((List.range 4).any fun i => (d.spill cl i).any fun x => x.set = s) then d
  else d.setFld (Reg.drpSet cl (s % 32)) Fld.drpSetOpen 0

/-- A queue of a core: its engines', its counter unit's, its crossbar port's, and its slice's banks. -/
def Endp.ofCore (q : Endp) (l : Nat) : Bool :=
  if q.kind = 3 ∧ q.idx ≤ 1 then decide (q.num = l) else decide (q.core = l)

/-- The queue of an open spill. -/
def Dev.spillQueue (d : Dev) (cl : Nat) (s : Spill) : Endp := (d.drip cl s.set).queues.getD s.queue ⟨0, 0, 0, 0, 0, 0⟩

/-- The open spills of a core's queues abandoned and their segments freed (R196). -/
def Dev.abandonSpills (d : Dev) (c : Nat) : Dev :=
  let cl := clOf c
  let l := d.logicalOf c
  (List.range 4).foldl (fun f j =>
    match f.spill cl j with
    | some s => if (f.spillQueue cl s).ofCore l then f.closeSpill cl j s.set else f
    | none => f) d

/-- The tokens inside a core are gone: its port lets none of them out and discards what comes for it (R137). -/
def Dev.emptyCore (d : Dev) (c : Nat) : Dev :=
  d.fab.circuits.foldl (fun f x =>
    let f := (List.range x.route.length).foldl (fun g h =>
      if linkKind (x.link h) ≤ 2 ∧ g.linkPhys (x.link h) = c then g.setWaiting x.key h [] else g) f
    if x.counterEnd = true ∧ f.physCore x.dst.cl x.dst.core = c then f.setWaiting x.key x.route.length [] else f) d

/-- The events that are admitted and not yet released. -/
def Dev.owedEvents (d : Dev) : List Nat := d.scr.slots.filterMap fun s => match s.2 with
  | some e => if e.admitted && !e.released then some e.n else none
  | none => none

/-- A core is fenced (row 2, R137, R292, R454, R458): health map, log, stand-ins for the events it still owes, its slots
DEGRADED, its spills abandoned, its group not held. -/
def Dev.fence (d : Dev) (c : Nat) (cause : Nat) : Dev :=
  if d.coreState c = coRun then
    let before := d.rd (coStatAddr c)
    let d := d.countUe c cause
    let d := (d.setCoreState c coFenced).setFld (coStatAddr c) Fld.coStatFenceCause cause
    let d := d.setHmap (hmCore c) 4 3 5
    let d := d.hmapUpdate (hmCore c) 0 3 coFenced
    let d := d.logInternal (coStatAddr c) before (d.rd (coStatAddr c)) .degraded
    let owed := d.owedEvents
    let d := (d.leaving c).foldl (fun f x =>
      let r := f.cst x.key
      owed.foldl (fun h n =>
        match r.slot with
        | some s =>
          let k := (n + 256 - s) % 256
          if k = 0 then h.standIns x (h.coreEpoch c) (n % 256) (x.kc - r.sent)
          else if k ≤ 127 then h.standIns x (h.coreEpoch c) (n % 256) x.kc else h
        | none => h.standIns x (h.coreEpoch c) (n % 256) x.kc) f) d
    let core := d.deviceCore c
    let d := d.degradeSlots fun s => d.dependsOn s core
    let d := (d.abandonSpills c).emptyCore c
    d.waveLeave (d.groupOf c) c
  else d

/-- The code of a fence cause (Table 4.16). -/
def fenceCode : FenceCause → Nat
  | .weightStore => 1 | .contextStore => 2 | .registersOrSlots => 3 | .memorySlice => 4

/-- A trigger that fences a core in the cycle of a switch marker: the core is fenced and does not switch (R138). -/
def Dev.fenceOr (d : Dev) (c : Nat) (tie : Option FenceCause) (f : Dev → Dev) : Dev :=
  match tie with
  | some k => d.fence c (fenceCode k)
  | none => f d

/-! Die links (R144 to R146, R460) -/

/-- A link's LINKS_UP bit. -/
def Dev.linkUp (d : Dev) (dk : Nat × Nat) : Bool := bitAt (d.fld (Reg.dieStat dk.1) Fld.dieStatLinksUp) dk.2

/-- A link's record changed. -/
def Dev.setTries (d : Dev) (dk : Nat × Nat) (n : Nat) : Dev :=
  { d with fab := { d.fab with linkTries := SMap.set (fun _ => 0) d.fab.linkTries (4 * dk.1 + dk.2) n } }

/-- Loss of lock at run time. -/
def Dev.linkLoses (d : Dev) (dk : Nat × Nat) : Dev :=
  if d.linkUp dk && decide (d.linkTries dk = 0) then d.setTries dk 1 else d

/-- One attempt to retrain; the third failed one takes the link down for good. -/
def Dev.linkRetrain (d : Dev) (dk : Nat × Nat) (ok : Bool) : Dev :=
  let n := d.linkTries dk
  if 1 ≤ n ∧ n ≤ 3 then
    let d := d.count Reg.glbLinkRetrain
    if ok then d.setTries dk 0
    else if n < 3 then d.setTries dk (n + 1)
    else
      let a := Reg.dieStat dk.1
      let before := d.rd a
      let up := d.fld a Fld.dieStatLinksUp
      let d := (d.setTries dk 4).setFld a Fld.dieStatLinksUp (putBit up dk.2 false)
      let d := d.hmapUpdate (hmDie dk.1) dk.2 1 0
      (d.logInternal a before (d.rd a) .degraded).hpcGate
        (.dieLink ⟨dk.1 % 4, Nat.mod_lt _ (by decide)⟩ ⟨dk.2 % 4, Nat.mod_lt _ (by decide)⟩)
  else d

/-- The timed circuits whose positions a flit holds, each with the hop it waits to cross next and its number of positions. A flit holds one
turn of the sending link's wheel. The X-die's end of a half has no wheel in the image: each timed entry circuit that comes in by it has
one position (log entry 42). -/
def Dev.flitPositions (d : Dev) (dk : Nat × Nat) (toX : Bool) : List (Circuit × Nat × Nat) :=
  let timed := d.fab.circuits.filter fun x => !x.free
  if dk.2 < 2 ∧ toX = false then (timed.filter fun x => decide (x.entryLink = some dk)).map fun x => (x, 0, 1)
  else
    let from_ := if dk.2 < 2 then dk else linkPeer dk
    (timed.map fun x => ((List.range x.route.length).filter fun h => linkEdge (x.link h) &&
      decide (edgeLink (linkCl (x.link h)) = some from_)).map fun h => (x, h + 1, popCount 16 (x.route.getD h (0, 0)).2)).flatten

/-- A token of a flit taken by the receiving port: an entry circuit's into its group, another where it goes on. -/
def Dev.flitArrive (d : Dev) (x : Circuit) (h : Nat) (t : Token) : Dev :=
  if h = 0 then d.entrySend x t else d.arrive x h t

/-- The stand-ins for one circuit's positions in a lost flit, in the slots of the tokens it carried and, for empty positions, in that of the
event admitted last (log entry 42). -/
def Dev.flitStandIns (d : Dev) (die : Nat) (p : Circuit × Nat × Nat) (lost : List DripTok) : Dev :=
  let slots := (lost.filter fun t => decide (t.circ = p.1.key)).map fun t => t.tok.evslot.toNat
  (List.range p.2.2).foldl (fun f i =>
    (f.flitArrive p.1 p.2.1 (standIn (f.cst p.1.key).epoch (slots.getD i (f.scr.admitted.getD 0 % 256)))).count
      (Reg.dieStandin die)) d

/-- The tokens of one turn of the sending link's wheel: each stands at a later position than the one before it (R145). -/
def turnOf : Nat → List DripTok → List DripTok
  | _, [] => []
  | n, t :: ts => if n ≤ t.pos then t :: turnOf (t.pos + 1) ts else []

/-- The tokens that the X-die puts into one flit: at most 16, and of a timed circuit one, as it has one position (log entry 42). -/
def entryTurn : List Nat → List DripTok → List DripTok
  | _, [] => []
  | seen, t :: ts => if seen.contains t.circ && !t.tok.free then [] else t :: entryTurn (t.circ :: seen) ts

/-- The tokens of the next flit of link k's end. -/
def Dev.flitToks (d : Dev) (dk : Nat × Nat) (toX : Bool) : List DripTok :=
  let ts := d.flitOf (8 * dk.1 + dk.2 + (if toX then 4 else 0))
  if dk.2 < 2 ∧ toX = false then (entryTurn [] ts).take 16 else turnOf 0 ts

/-- The tokens of a flit go on where they find a place; a free-class one that finds none in the receiving port's crossing FIFO is held back
at the sender, with what it still has to send (R147). -/
def Dev.flitPass (d : Dev) (k : Nat) (ts : List DripTok) : Dev :=
  let (d, held) := ts.foldl (fun (a : Dev × List DripTok) t => match a.1.circ t.circ with
    | some x => if t.tok.free && decide (t.hop < x.route.length) && !a.1.landRoom x t.hop then (a.1, a.2 ++ [t])
      else (a.1.flitArrive x t.hop t.tok, a.2)
    | none => a) (d, [])
  d.setFlit k (held ++ d.flitOf k)

/-- A flit arrives on a die link at a C-die, or on a half at the X-die (R145, R146): its tokens go on; those of one that cannot be
corrected are lost, and each position that the wheel assigns to a circuit gets a stand-in. -/
def Dev.flit (d : Dev) (dk : Nat × Nat) (toX : Bool) (o : FlitOutcome) : Dev :=
  if d.linkUp dk && !d.linkLost dk then
    let k := 8 * dk.1 + dk.2 + (if toX then 4 else 0)
    let ts := d.flitToks dk toX
    let d := d.setFlit k ((d.flitOf k).drop ts.length)
    match o with
    | .clean => d.flitPass k ts
    | .corrected => (d.count (Reg.dieLinkCorr dk.1 dk.2)).flitPass k ts
    | .uncorrectable =>
      (d.flitPositions dk toX).foldl (fun f p => f.flitStandIns dk.1 p ts) (d.count (Reg.dieLinkUncorr dk.1 dk.2))
  else d

/-- A link carries tokens: it is not the edge of a lost die link. -/
def Dev.linkCarries (d : Dev) (l : Nat) : Bool :=
  !linkEdge l || (match edgeLink (linkCl l) with
    | some dk => !d.linkLost dk
    | none => true)

/-! Pace (R118) -/

/-- A pace monitor's 1 µs window closes with a count of cycles; the lowest of each 1 ms interval is shown when it closes. -/
def Dev.pace (d : Dev) (cl n : Nat) : Dev :=
  let iv := d.netNs / 1000000
  let was := SMap.get (fun _ => 0) d.fab.paceIv cl
  let low := SMap.get (fun _ => 65536) d.fab.paceMin cl
  let d := d.setFld (Reg.clPace cl) Fld.clPacePaceMhz n
  let (d, low) :=
    if was < iv then
      let d := if low < 65536 then d.setFld (Reg.clPace cl) Fld.clPacePaceMinMhz low else d
      let die := cl / 16
      let mins := (List.range 16).filterMap fun k =>
        let m := d.fld (Reg.clPace (16 * die + k)) Fld.clPacePaceMinMhz
        if m = 0 then none else some m
      (match listMin mins with
        | some m => d.setFld (Reg.diePaceMin die) Fld.diePaceMinPaceMinMhz m
        | none => d, 65536)
    else (d, low)
  { d with fab := { d.fab with
      paceIv := SMap.set (fun _ => 0) d.fab.paceIv cl iv,
      paceMin := SMap.set (fun _ => 65536) d.fab.paceMin cl (if n < low then n else low) } }

/-! Drip (R188 to R197) -/

/-- The places of a store before part q, given from the next link on, and those of the part itself; none where q is no part of it. -/
def partOf (q : Endp) : List (Option Endp × Nat) → Option (Nat × Nat)
  | [] => none
  | p :: ps => if p.1 = some q then some (0, p.2) else (partOf q ps).map fun x => (p.2 + x.1, x.2)

/-- The hops of the free-class circuits whose tokens stand in a store with a crossbar port's buffer q for a part. -/
def Dev.portHops (d : Dev) (q : Endp) : List (Circuit × Nat) :=
  ((d.fab.circuits.filter fun x => x.free).map fun x =>
    ((List.range (x.route.length + 1)).filter fun h => (partOf q (x.store h).parts).isSome).map fun h => (x, h)).flatten

/-- The free-class tokens that stand before some hops, in the order of their arrival. -/
def Dev.hopTokens (d : Dev) (hs : List (Circuit × Nat)) : List (Nat × DripTok) :=
  (hs.map fun p => (d.waiting p.1.key p.2).map fun w => (w.stamp, DripTok.at p.1.key p.2 w.tok)).flatten.mergeSort fun a b =>
    decide (a.1 ≤ b.1)

/-- What stands in a crossbar port's buffer and behind it, store by store, each with the places of the buffer: the places nearer to the next
link are left out. -/
def Dev.portStores (d : Dev) (q : Endp) : List (List (Nat × DripTok) × Nat) :=
  let hs := d.portHops q
  (hs.map fun p => p.1.store p.2).dedup.filterMap fun s => (partOf q s.parts).map fun x =>
    ((d.hopTokens (hs.filter fun p => p.1.store p.2 = s)).drop x.1, x.2)

/-- The tokens of a crossbar port's buffer and those behind it in its store, oldest first. -/
def Dev.portTokens (d : Dev) (q : Endp) : List (Nat × DripTok) :=
  ((d.portStores q).map fun p => p.1).flatten.mergeSort fun a b => decide (a.1 ≤ b.1)

/-- The physical bank of a bank's request queue as a Drip set names it. -/
def Dev.queueBank (d : Dev) (q : Endp) : Nat := d.physBank q.cl (2 * q.core + (q.idx - 2))

/-- A queue of a Drip set is the buffer of a slice port out of the crossbar: what stands there are requests of the slice's banks. -/
def Endp.slicePort (q : Endp) : Bool := decide (q.kind = 3 ∧ q.idx = 0 ∧ 17 ≤ q.num ∧ q.num ≤ 33)

/-- A request of a bank as a token of a spill. -/
def BankReq.drip (r : BankReq) : DripTok := ⟨r.circ, 0, r.tok, [], some r, 0⟩

/-- The free-class tokens that wait in a queue of a Drip set, and those behind it on their way into it, oldest first. The buffers of the
Scrim and statistics ports out of the crossbar hold none, as those units take a token at once (DESIGN CHOICE, log entry 43). -/
def Dev.queueTokens (d : Dev) (q : Endp) : List DripTok :=
  let c := d.physCore q.cl q.core
  if q.kind = 1 then ((d.iq c q.eng q.idx).filter fun t => t.free).map fun t => ⟨0, 0, t, [], none, 0⟩
  else if q.kind = 2 then (d.cuTokens c true).map fun t => ⟨0, 0, t.tok, t.left, none, 0⟩
  else if q.slicePort then (d.slicePortReqs q.cl (q.num - 17)).map BankReq.drip
  else if q.idx ≤ 1 then (d.portTokens q).map fun p => p.2
  else ((d.bankQ q.cl (d.queueBank q)).filter fun r => r.free).map BankReq.drip

/-- The free-class depth of a queue (Table 4.11). -/
def queueDepth (q : Endp) : Nat := if q.kind = 3 then 4 else 8

/-- Tokens in a queue itself. -/
def Dev.queueLen (d : Dev) (q : Endp) : Nat :=
  if q.kind = 3 ∧ q.idx ≤ 1 ∧ q.slicePort = false then ((d.portStores q).map fun p => min p.1.length p.2).sum
  else min (d.queueTokens q).length (queueDepth q)

/-- The answer of a read that a bank or a stack port holds back waits to enter circuit x. -/
def Dev.replyWaits (d : Dev) (x : Circuit) : Bool :=
  let asks := fun (k : Nat) => (d.circ k).any fun y => (d.replyCirc y).any fun z => decide (z.key = x.key)
  decide (x.src.kind = 3) &&
    ((d.fab.banks.any fun b => (queuedReqs b.2).any fun r => !r.write && asks r.circ) ||
      (d.stackRec (3 * (x.src.cl / 16) + x.src.cl % 16 / 4)).reqs.any fun r => !r.write && asks r.circ)

/-- A token waits to enter crossbar port buffer q by hop h of a free-class circuit that comes into its store there: before the link into it,
in a flit, or as an answer. -/
def Dev.hopWaits (d : Dev) (q : Endp) (x : Circuit) (h : Nat) : Bool :=
  decide (((x.partsAt h).getLast?.bind Prod.fst) = some q) &&
    (decide (0 < d.flying x.key h) || (if h = 0 then d.replyWaits x else (d.headAt x (h - 1)).isSome))

/-- The last hop of a circuit holds a request for a bank that meets the condition. -/
def Dev.requestWaits (d : Dev) (x : Circuit) (cl : Nat) (p : Nat → Bool) : Bool :=
  decide (x.dst.kind = 3 ∧ x.dst.cl = cl) && decide (17 ≤ x.dst.num ∧ x.dst.num ≤ 33) &&
    (match d.headAt x (x.route.length - 1) with
      | some t => (match d.requestOf x t with
        | some r => p (cmemBank r.2)
        | none => false)
      | none => false)

/-- A producer has a token waiting to enter a queue: one that its depth does not hold, or one that stands before the link into it. -/
def Dev.queueWaits (d : Dev) (q : Endp) : Bool :=
  let free := d.fab.circuits.filter fun x => x.free
  if q.kind = 1 then
    free.any fun x => decide (x.dst.kind = 1 ∧ x.dstQueue = q) && (d.headAt x (x.route.length - 1)).isSome
  else if q.kind = 2 then decide (8 < (d.cuTokens (d.physCore q.cl q.core) true).length) || !(d.core (d.physCore q.cl q.core)).cuHeld.isEmpty
  else if q.slicePort then free.any fun x => d.requestWaits x q.cl fun l => decide (17 + d.physBank q.cl l / 2 = q.num)
  else if q.idx ≤ 1 then
    (d.portStores q).any (fun p => decide (p.2 < p.1.length)) || (d.portHops q).any fun p => d.hopWaits q p.1 p.2
  else decide (4 < (d.queueTokens q).length) || free.any fun x => d.requestWaits x q.cl fun l => decide (bankEndp q.cl l = q)

/-- A set is blocked (R189). -/
def Dev.dripBlocked (d : Dev) (cl s : Nat) : Bool :=
  (d.drip cl s).queues.any fun q => decide (queueDepth q ≤ d.queueLen q) && d.queueWaits q

/-- The timers of the sets of a cluster follow what is blocked (R189, R197). -/
def Dev.dripScan (d : Dev) : Dev :=
  d.fab.drips.foldl (fun f p =>
    let cl := p.1 / 32
    let s := p.1 % 32
    let r := f.drip cl s
    let b := f.flag (Reg.drpCfg cl) Fld.drpCfgDripEn && f.flag (Reg.drpSet cl s) Fld.drpSetEn && f.dripBlocked cl s
    let since := if b then (match r.since with
      | some t => some t
      | none => some f.devNs) else none
    (f.setDrip cl s { r with since := since }).setFld (Reg.drpSet cl s) Fld.drpSetBlocked (bit01 b)) d

/-- The tokens of a queue taken out, oldest first; timed-class tokens stay (R190, R195). -/
def Dev.drainQueue (d : Dev) (q : Endp) : List DripTok × Dev :=
  let c := d.physCore q.cl q.core
  let ts := d.queueTokens q
  (ts,
    if q.kind = 1 then
      let d := d.setIq c q.eng q.idx ((d.iq c q.eng q.idx).filter fun t => !t.free)
      if ts.any fun t => tokMarker t.tok then d.setClosed c q.eng q.idx false else d
    else if q.kind = 2 then d.setCore c { d.core c with cuOut := (d.core c).cuOut.filter fun t => !t.tok.free }
    else if q.slicePort then
      [2 * (q.num - 17), 2 * (q.num - 17) + 1].foldl (fun f b =>
        let gone := ((f.bankQ q.cl b).filter fun r => r.free).drop 4
        f.setBankQ q.cl b ((f.bankQ q.cl b).filter fun r => !gone.contains r)) d
    else if q.idx ≤ 1 then
      let gone := (d.portTokens q).map fun p => p.1
      ts.foldl (fun f t => f.setWaiting t.circ t.hop ((f.waiting t.circ t.hop).filter fun w => !gone.contains w.stamp)) d
    else d.setBankQ q.cl (d.queueBank q) ((d.bankQ q.cl (d.queueBank q)).filter fun r => !r.free))

/-- A queue takes a token back: an input queue that is closed behind a marker, or that a new context gives the timed class, does not (R123,
R177). -/
def Dev.refillRoom (d : Dev) (q : Endp) : Bool :=
  let c := d.physCore q.cl q.core
  decide (d.queueLen q < 2) &&
    (decide (q.kind ≠ 1) || (!d.iqClosed c q.eng q.idx && decide (d.iqClass c q.eng q.idx ≠ some false)))

/-- A token of a spill of buffer q goes into it, and on toward the next link: another open spill nearer to that link takes it. -/
def Dev.refillHop (d : Dev) (q : Endp) (t : DripTok) : Dev :=
  match d.circ t.circ with
  | none => d
  | some x =>
    match d.spillOf ((x.partsAt t.hop).takeWhile fun p => p.1 ≠ some q) with
    | some (cl, j, s) => d.segPush cl j s t
    | none => d.placeAt t.circ t.hop t.tok

/-- A token moved back into its queue. One that reaches an input queue in another epoch than the engine's is STALE (R181). -/
def Dev.refillQueue (d : Dev) (q : Endp) (t : DripTok) : Dev :=
  let c := d.physCore q.cl q.core
  if q.kind = 1 then
    if t.tok.epoch.toNat ≠ d.engEpoch c q.eng then d.count (Reg.coStale (clOf c) (posOf c))
    else
      let d := d.setIq c q.eng q.idx (d.iq c q.eng q.idx ++ [t.tok])
      if tokMarker t.tok then d.setClosed c q.eng q.idx true else d
  else if q.kind = 2 then d.setCore c { d.core c with cuOut := (d.core c).cuOut ++ [⟨t.tok, t.left⟩] }
  else match t.req with
    | some r =>
      let l := cmemBank r.addr
      match (if q.slicePort then d.openSpillOf q.cl (bankEndp q.cl l) else none) with
      | some (j, s) => d.segPush q.cl j s t
      | none => d.setBankQ q.cl (d.physBank q.cl l) (d.bankQ q.cl (d.physBank q.cl l) ++ [r])
    | none => d.refillHop q t

/-- The queues of a set with an open spill. -/
def Dev.openQueues (d : Dev) (cl s : Nat) : List Nat :=
  (List.range 4).filterMap fun j => match d.spill cl j with
    | some x => if x.set = s then some x.queue else none
    | none => none

/-- A set's timer expires, if it is due: the fullest queue without an open spill is chosen, or the expiry is counted when all
four segments are open (R190, R193, R194). A transfer that resolves together with it wins. -/
def Dev.dripExpire (d : Dev) (cl s : Nat) (tie : Bool) : Dev :=
  let r := d.drip cl s
  match r.since with
  | none => d
  | some t =>
    if r.spilling.isSome || decide (d.devNs < t + d.fld (Reg.drpCfg cl) Fld.drpCfgDripWaitNs) then d
    else if !d.dripBlocked cl s then d.setDrip cl s { r with since := none }
    else if tie then d.setDrip cl s { r with since := some d.devNs }
    else
      let used := ((List.range 32).filterMap fun k => (d.drip cl k).spilling).map fun p => p.2
      match findBelow (fun j => (d.spill cl j).isNone && !used.contains j) 4 with
      | none => (d.count (Reg.drpFull cl)).setDrip cl s { r with since := some d.devNs }
      | some j =>
        let opened := d.openQueues cl s
        let best := (List.range r.queues.length).foldl (fun b i =>
          if opened.contains i then b
          else match b with
            | none => some i
            | some k => if d.queueLen (r.queues.getD k ⟨0, 0, 0, 0, 0, 0⟩) < d.queueLen (r.queues.getD i ⟨0, 0, 0, 0, 0, 0⟩)
              then some i else b) none
        match best with
        | some i => d.setDrip cl s { r with spilling := some (i, j), since := some d.devNs }
        | none => d.setDrip cl s { r with since := some d.devNs }

/-- All tokens of the chosen queue are in the segment: the spill is open (R190, R192). -/
def Dev.dripSpilled (d : Dev) (cl s : Nat) : Dev :=
  let r := d.drip cl s
  match r.spilling with
  | none => d
  | some (i, j) =>
    let (ts, d) := d.drainQueue (r.queues.getD i ⟨0, 0, 0, 0, 0, 0⟩)
    let d := d.setDrip cl s { r with spilling := none }
    let d := d.setSpill cl j (some ⟨s, i, [], 0, false⟩)
    let d := ts.foldl (fun f t => match f.spill cl j with
      | some x => f.segPush cl j x t
      | none => f) d
    let a := Reg.drpSet cl s
    let d := (d.setFld a Fld.drpSetOpen 1).setFld a Fld.drpSetSpills (satInc 16 1 (d.fld a Fld.drpSetSpills))
    d.count (Reg.drpSpills cl)

/-- A read of a Drip segment returns an uncorrectable error: the rest of that spill is discarded, counted and logged, and the producer
writes to the queue again (R196). The burst counts as its stack's where the stack still reads (R228, R231). -/
def Dev.dripFail (d : Dev) (cl j : Nat) : Dev :=
  match d.spill cl j with
  | none => d
  | some x =>
    let s := d.fld (Reg.drpArea cl) Fld.drpAreaStack
    let d := if d.stackState s = skUp then d.stackUe s else d
    let before := d.rd (Reg.drpFail cl)
    let d := (d.closeSpill cl j x.set).count (Reg.drpFail cl)
    d.logInternal (Reg.drpFail cl) before (d.rd (Reg.drpFail cl)) .degraded

/-- A set waits to read tokens that their queue takes back (R191). -/
def Dev.dripReads (d : Dev) (cl s : Nat) : Bool :=
  (List.range 4).any fun j => match d.spill cl j with
    | some x => decide (x.set = s) && d.refillRoom (d.spillQueue cl x)
    | none => false

/-- Tokens move from the head of a set's open segments into queues that hold fewer than 2 (R191); a FAILED stack returns none of them
(R231). corrected counts the bursts that the stack corrected (R227). -/
def Dev.dripRefills (d : Dev) (cl s corrected : Nat) : Dev :=
  let st := d.fld (Reg.drpArea cl) Fld.drpAreaStack
  let d := if d.stackState st = skUp then d.countN (Reg.stkCe st) corrected else d
  (List.range 4).foldl (fun f j =>
    match f.spill cl j with
    | some x =>
      let q := f.spillQueue cl x
      if x.set = s ∧ f.refillRoom q then
        if f.stackState (f.fld (Reg.drpArea cl) Fld.drpAreaStack) = skFailed then f.dripFail cl j
        else match x.toks with
        | [] => f.closeSpill cl j s
        | t :: ts =>
          let f := (f.refillQueue q t).dripTransfer q
          if ts.isEmpty then f.closeSpill cl j s else f.setSpill cl j (some { x with toks := ts, fullCounted := false })
      else f
    | none => f) d

/-- A producer that finds its queue's open segment full waits, counted once (R193). -/
def Dev.dripFullWaits (d : Dev) : Dev :=
  d.fab.spills.foldl (fun f p =>
    let cl := p.1 / 4
    match f.spill cl (p.1 % 4) with
    | some s =>
      if f.segCap cl ≤ s.toks.length ∧ s.fullCounted = false ∧ f.queueWaits (f.spillQueue cl s) then
        (f.count (Reg.drpFull cl)).setSpill cl (p.1 % 4) (some { s with fullCounted := true })
      else f
    | none => f) d

/-- After any movement of tokens: what waited before a counter or a counter unit's output goes on where it can, and the sets' timers
follow. -/
def Dev.settleDrip (d : Dev) : Dev := d.drainEnds.feedUnits.dripScan.dripFullWaits

/-- A crossing of a link by its wheel (R156); a lost die link carries nothing (R460). -/
def Dev.crossLink (d : Dev) (l : Nat) : Dev := if d.linkCarries l then (d.wheelCross l).settleDrip else d

/-- One handshake cycle of an engine and of the cluster-memory banks of its cluster, with what they do to Drip's timers. -/
def Dev.issueStep (d : Dev) (c e bankWait : Nat) (rivals : List BankUse) (wsFix cmemFix : Nat) : Dev :=
  ((d.banksCycle (clOf c)).issue c e bankWait rivals wsFix cmemFix).settleDrip

end Sys2Proof.Machine
end

