-- ==== Sys2Proof/Machine/Roller.lean ====
section
/-!
DEFINITION. The stacks at work ("The Roller and the memory stacks"): passes, window frames, reads of pass images and their
staging, mirrors, refresh, retraining of a stack's interface, and requests of FREE areas.
-/

namespace Sys2Proof.Machine

open Sys2Proof

/-! Areas (R226, R232) -/

/-- The base in bytes of the r-th ROLLER area of a stack, with its area index: pass image r (log entry 49). -/
def Dev.rollerArea (d : Dev) (s r : Nat) : Option (Nat × Nat) :=
  let as := (List.range 32).filter fun a => decide (d.fld (Reg.stkAreaLo s a) Fld.stkAreaLoKind = 1)
  as[r]?.map fun a => (a, d.fld (Reg.stkAreaLo s a) Fld.stkAreaLoBase64k * 65536)

/-- The MIRROR area of area a of stack s: its stack and base. -/
def Dev.mirrorOf (d : Dev) (s a : Nat) : Option (Nat × Nat) :=
  ((List.range 3).map fun k => s / 3 * 3 + k).findSome? fun m =>
    if m = s then none
    else (List.range 32).findSome? fun b =>
      if d.fld (Reg.stkAreaLo m b) Fld.stkAreaLoKind = 2 ∧ d.fld (Reg.stkAreaHi m b) Fld.stkAreaHiPeerStack = s ∧
          d.fld (Reg.stkAreaHi m b) Fld.stkAreaHiPeerArea = a then
        some (m, d.fld (Reg.stkAreaLo m b) Fld.stkAreaLoBase64k * 65536)
      else none

/-- Whether stack s has any mirrored area, and the stacks that mirror it. -/
def Dev.mirrorStacks (d : Dev) (s : Nat) : List Nat :=
  ((List.range 32).filterMap fun a =>
    if d.fld (Reg.stkAreaLo s a) Fld.stkAreaLoKind = 1 then (d.mirrorOf s a).map fun p => p.1 else none).dedup

/-- Whether a byte address of a stack lies in an area of a kind. -/
def Dev.inArea (d : Dev) (s kind a : Nat) : Bool :=
  (List.range 32).any fun k =>
    let base := d.fld (Reg.stkAreaLo s k) Fld.stkAreaLoBase64k * 65536
    decide (d.fld (Reg.stkAreaLo s k) Fld.stkAreaLoKind = kind) && decide (base ≤ a) &&
      decide (a < base + d.fld (Reg.stkAreaHi s k) Fld.stkAreaHiSize64k * 65536)

/-! Passes (R208, R211, R213, R217, R233) -/

/-- The context a core runs for event n. -/
def Dev.ctxFor (d : Dev) (c n : Nat) : Nat :=
  match d.waveOf c with
  | some w => if w.first ≤ n then w.ctx else d.coreCtx c
  | none => d.coreCtx c

/-- A context of a core has a stack-fed stream in service. -/
def Dev.streamOn (d : Dev) (c k : Nat) : Bool :=
  match d.ctxRec c k with
  | some x => bitAt x.stream 0
  | none => false

/-- The reads of an image's blocks of one class, for the contexts in service at event n, with addresses from the base of area a. A stream that was
not loaded is not read (R434). -/
def Dev.passReads (d : Dev) (im : PassImage) (a base n pass : Nat) (free : Bool) : List Flight :=
  (im.blocks.foldl (fun (acc : List Flight × Nat) b =>
    let size := match d.ctxRec b.core b.ctx with
      | some x => x.blockBytes
      | none => 512
    if b.free = free ∧ b.ctx = d.ctxFor b.core n ∧ d.streamOn b.core b.ctx = true then
      (acc.1 ++ [⟨b.core, b.ctx, !free, n, b.phase, a, base + acc.2, size, pass, false, 0, [], false⟩], acc.2 + size)
    else (acc.1, acc.2 + size)) ([], 0)).1

/-- The reads that a pass of a stack's images makes. -/
def Dev.imageReads (d : Dev) (s n pass : Nat) (free : Bool) : List Flight :=
  ((d.fab.images.filter fun im => im.stack = s).map fun im => match d.rollerArea s im.ref with
    | none => []
    | some (a, base) => d.passReads im a base n pass free).flatten

/-- A timed pass of one stack: the reads of its images join its queue (R213). -/
def Dev.stackPass (d : Dev) (s n pass : Nat) : Dev :=
  let r := d.stackRec s
  d.setStack s { r with readsT := r.readsT ++ d.imageReads s n pass false }

/-- The stacks of a die. -/
def stacksOf (die : Nat) : List Nat := [3 * die, 3 * die + 1, 3 * die + 2]

/-- A timed pass of event n's on the stacks of a die. -/
def Dev.diePass (d : Dev) (die n pass : Nat) : Dev :=
  let ep := d.fld (Reg.dstCfg die) Fld.dstCfgEP
  (stacksOf die).foldl (fun f s => f.stackPass s (n / ep * ep) pass) d

/-- Event n would start a pass on a die: the die has timed stack-fed streams, and the pass that event n belongs to has not started. -/
def Dev.startsPass (d : Dev) (die n : Nat) : Bool :=
  d.flag (Reg.dstCfg die) Fld.dstCfgTimedStack &&
    decide (SMap.get (fun _ => 0) d.stk.started die ≠ n / d.fld (Reg.dstCfg die) Fld.dstCfgEP + 1)

/-- Pass starts at the admission of event n: on every die with timed stack-fed streams, pass floor(n / E_p) starts with the first of its
events that is formed (R208, R213). -/
def Dev.passStarts (d : Dev) (n : Nat) : Dev :=
  (List.range 4).foldl (fun f die =>
    if f.startsPass die n then
      let p := n / f.fld (Reg.dstCfg die) Fld.dstCfgEP + 1
      let pass := f.stk.passes + 1
      ({ f with stk := { f.stk with passes := pass, started := SMap.set (fun _ => 0) f.stk.started die p } }).diePass die n pass
    else f) d

/-- A notice that event n is LATE for a core: sent now, or when the window of event n opens (R224). -/
def Dev.lateNotice (d : Dev) (n c : Nat) : Dev :=
  if (match d.scr.opened with
    | some m => decide (n ≤ m)
    | none => false) then d.postNotice false .pass (n % 256) c
  else { d with stk := { d.stk with lateAhead := d.stk.lateAhead ++ [(n, c)] } }

/-- The window of event n opens: the notices kept for it are sent. -/
def Dev.lateOpens (d : Dev) (n : Nat) : Dev :=
  let now := d.stk.lateAhead.filter fun x => decide (x.1 = n)
  now.foldl (fun f x => f.postNotice false .pass (n % 256) x.2)
    { d with stk := { d.stk with lateAhead := d.stk.lateAhead.filter fun x => decide (n < x.1) } }

/-- The timed pass of a read of stack s is LATE: counted once, and a notice for each of its events from each core that the stack still feeds
in it (R224, R299). -/
def Dev.latePass (d : Dev) (s : Nat) (x : Flight) : Dev :=
  if x.timed then
    let die := s / 3
    let ep := d.fld (Reg.dstCfg die) Fld.dstCfgEP
    let d := if d.stk.latePasses.contains (die, x.pass) then d
      else { d.count (Reg.dstLatePasses die) with stk := { d.stk with latePasses := (die, x.pass) :: d.stk.latePasses.take 64 } }
    let cores := ((d.stackRec s).readsT.filter fun y => y.pass = x.pass).map fun y => y.core
    cores.dedup.foldl (fun f c => (List.range ep).foldl (fun g i => g.lateNotice (x.event + i) (g.deviceCore c)) f) d
  else d

/-- The reads of a timed pass of a die begin: DST_PASSES and DST_LAST_EVENT, once for the die (Table 6.16). -/
def Dev.notePass (d : Dev) (s : Nat) (x : Flight) : Dev :=
  let die := s / 3
  if x.timed && decide (SMap.get (fun _ => 0) d.stk.begun die < x.pass) then
    let d := (d.count (Reg.dstPasses die)).wr (Reg.dstLastEvent die) x.event
    { d with stk := { d.stk with begun := SMap.set (fun _ => 0) d.stk.begun die x.pass } }
  else d

/-! Slots (R216, R220, R221, R223, R224, R228, R231) -/

/-- The plan's code of slot i. -/
def Dev.planCode (d : Dev) (s i : Nat) : Nat := bitsOf (d.rd (Reg.stkPlan s (i % 128 / 8))) (4 * (i % 8)) 4

/-- A place for a block in its core's staging ring, the blocks on their way there and those of this slot before it: room in bytes, and no
block at that place that is still to be read (R215, R216). -/
def Dev.stageRoom (d : Dev) (f : Flight) (taken : List Flight) : Bool :=
  match d.ctxRec f.core f.ctx with
  | none => false
  | some x =>
    let die := clOf f.core / 16
    let k := d.core f.core
    let flying := ((stacksOf die).map fun s => (d.stackRec s).flights.filter fun g => g.core = f.core ∧ g.ctx = f.ctx).flatten
    let ahead := ((flying ++ taken.filter fun g => g.core = f.core ∧ g.ctx = f.ctx).map fun g => g.size).sum
    let size := bitsOf x.ring 16 16 * 512
    let held := ((k.staged.filter fun u => u.ctx = f.ctx).map fun _ => x.blockBytes).sum
    let base := bitsOf x.ring 0 16 * 512
    let at_ := base + (SMap.get (fun _ => 0) k.ringPos f.ctx + ahead) % size
    decide (held + ahead + f.size ≤ size) && k.staged.all fun u =>
      decide (u.addr + x.blockBytes ≤ at_ ∨ at_ + f.size ≤ u.addr)

/-- Where a read goes on: after the bytes it already has. -/
def Flight.at (f : Flight) : Nat := f.addr + f.data.length

/-- The bytes that the slot of its 2 KiB unit reads of it: a block that runs into the next unit takes the slot of that unit too (R220). -/
def Flight.now (f : Flight) : Nat := min (f.size - f.data.length) (2048 - f.at % 2048)

/-- Its block is complete with those bytes. -/
def Flight.ends (f : Flight) : Bool := decide (f.data.length + f.now = f.size)

/-- The reads at the front of a queue that lie in one 2 KiB unit of one pass and have a place to go (R213, R220). -/
def Dev.slotReads (d : Dev) (first : Flight) : List Flight → List Flight → List Flight
  | [], _ => []
  | f :: fs, taken =>
    if f.at / 2048 = first.at / 2048 ∧ f.pass = first.pass ∧ d.stageRoom f taken then
      f :: (if f.ends then d.slotReads first fs (taken ++ [f]) else []) else []

/-- The queue of reads that a slot code serves. -/
def StkRec.reads (r : StkRec) (code : Nat) : List Flight := if code = 1 then r.readsT else if code = 2 then r.readsF else []

/-- That queue changed. -/
def StkRec.setReads (r : StkRec) (code : Nat) (fs : List Flight) : StkRec :=
  if code = 1 then { r with readsT := fs } else if code = 2 then { r with readsF := fs } else r

/-- The stack's controller runs its window frame (R220, R231). -/
def Dev.frameRuns (d : Dev) (s : Nat) : Bool := decide (d.stackState s = skUp ∨ d.stackState s = skFailed)

/-- 128 ns have passed since the failure of a stack: a pass of it whose reads begin now is read from the mirrors of its areas (R233). -/
def Dev.tookOver (d : Dev) (s : Nat) : Bool :=
  match (d.stackRec s).failedAt with
  | some t => decide (d.stackState s = skFailed) && decide (t + 128 ≤ d.devNs)
  | none => false

/-- A pass of a stack is read from its mirrors, where its areas have any: settled when its reads begin. -/
def Dev.passMirrored (d : Dev) (s pass : Nat) : Bool :=
  match (d.stackRec s).inPass.find? fun x => decide (x.1 = pass) with
  | some x => x.2
  | none => d.tookOver s

/-- The mirror that the next read of a FAILED stack's queue comes from, with the address there (R233). -/
def Dev.mirrorRead (d : Dev) (s : Nat) (x : Flight) : Option (Nat × Nat) :=
  if d.stackState s = skFailed ∧ d.passMirrored s x.pass = true then
    match d.mirrorOf s x.area with
    | some (m, mb) =>
      if d.frameRuns m then some (m, mb + (x.at - d.fld (Reg.stkAreaLo s x.area) Fld.stkAreaLoBase64k * 65536)) else none
    | none => none
  else none

/-- The queue that slot i of stack s serves with its plan's code, if a read waits there for this stack: its own queue, or in a MIRROR slot
the queue that the plan of the stack mirrored there gives the same slot (R220, R232, R233). -/
def Dev.slotQueue (d : Dev) (s i code : Nat) : Option (Nat × Nat × Flight) :=
  if code = 3 then
    ((stacksOf (s / 3)).findSome? fun p =>
      match ((d.stackRec p).reads (d.planCode p i)).head? with
      | some x => if p ≠ s ∧ (d.mirrorRead p x).map (fun m => m.1) = some s then some (p, d.planCode p i, x) else none
      | none => none)
  else match ((d.stackRec s).reads code).head? with
    | some x => if (d.mirrorRead s x).isSome then none else some (s, code, x)
    | none => none

/-- The 2 KiB units of a queue of reads, each with a read that begins or goes on there and the address. -/
def unitsOf (fs : List Flight) : List (Flight × Nat) :=
  fs.foldl (fun acc f =>
    let mine := if f.ends then [(f, f.at)] else [(f, f.at), (f, f.at + f.now)]
    acc ++ mine.filter fun y => !acc.any fun z => decide (z.2 / 2048 = y.2 / 2048 ∧ z.1.pass = y.1.pass)) []

/-- A free-class pass image is read again and again (R217): for each core in RUN whose reads are through, or whose context has changed, its
blocks are queued anew, and reads of a context no longer in service are dropped. Reads that have a place go before those that have none
(DESIGN CHOICE, log entry 76). -/
def Dev.freePass (d : Dev) (s : Nat) : Dev :=
  let r := d.stackRec s
  let n := d.scr.admitted.getD 0
  let live := r.readsF.filter fun f => decide (f.ctx = d.ctxFor f.core n) && d.streamOn f.core f.ctx && decide (d.coreState f.core = coRun)
  let pass := d.stk.passes + 1
  let new := (d.imageReads s n pass true).filter fun f =>
    decide (d.coreState f.core = coRun) && !live.any fun g => decide (g.core = f.core)
  let q := live ++ new
  ({ d with stk := { d.stk with passes := if new.isEmpty then d.stk.passes else pass } }).setStack s
    { r with readsF := (q.filter fun f => d.stageRoom f []) ++ q.filter fun f => !d.stageRoom f [] }

/-- An event formed but not yet admitted whose admission, within j ns, starts a pass on a die. -/
def Dev.passComing (d : Dev) (die j : Nat) : Option Nat :=
  ((d.scr.slots.filterMap fun e => e.2).find? fun e =>
    !e.admitted && d.startsPass die e.n && decide (d.admTime e.n ≤ d.netNs + j)).map fun e => e.n

/-- The queues of a die's stacks as they will stand j ns from now for want of anything else: with the pass that starts by then, and the
free-class images queued (R223, R225). -/
def Dev.ahead (d : Dev) (die j : Nat) : Dev :=
  let d := (stacksOf die).foldl (fun f s => f.freePass s) d
  match d.passComing die j with
  | some n => d.diePass die n (d.stk.passes + 1)
  | none => d

/-- Slot i + j of the frame will be used for a Roller or mirrored read: a read is left for it once the slots of its code before it have
had theirs, and is not held for want of a staging place (R216, R223). d is the device as it stands by then. -/
def Dev.willUse (d : Dev) (s i j : Nat) : Bool :=
  let code := d.planCode s (i + j)
  match d.slotQueue s (i + j) code with
  | none => false
  | some (p, q, x) =>
    let before := ((List.range (j - 1)).filter fun k => decide (d.planCode s (i + 1 + k) = code)).length
    d.stageRoom x [] && decide (before < (unitsOf ((d.stackRec p).reads q)).length)

/-- Whether a write may be issued in slot i, which is the t-th the stack runs: not within the 6 slots before or the 2 after a slot used for
Roller or mirrored reads (R223). -/
def Dev.writable (d : Dev) (s i t : Nat) : Bool :=
  !(match (d.stackRec s).lastUsed with
    | some u => decide (t ≤ u + 2)
    | none => false) && (List.range 6).all fun k => !(d.ahead (s / 3) (k + 1)).willUse s i (k + 1)

/-- The bytes of a block with those of the bad pseudo-channels' bursts read as 0, and whether it has any (Tables 6.3, 6.8). -/
def spoilt (a : Nat) (bs : List Byte) (bad : List Nat) : List Byte × Bool :=
  let hit := fun i => bad.contains ((a + i) / 32 % 64)
  ((bs.zipIdx.map fun p => if hit p.2 then 0 else p.1), (List.range bs.length).any hit)

/-- Uncorrectable and corrected bursts of a slot's reads counted (R227, R228). -/
def Dev.slotErrors (d : Dev) (s corrected : Nat) (bad : List Nat) : Dev := (d.countN (Reg.stkCe s) corrected).stackUes s bad.length

/-- A free-class request of a FREE area served: a write lands, a read is answered; on a FAILED stack, outside every FREE area, or
with an uncorrectable burst the answer is DEGRADED (R221, R228, R231, R461). -/
def Dev.serveReq (d : Dev) (s : Nat) (q : OpenReq) (bad : Bool) : Dev :=
  match d.circ q.circ with
  | none => d
  | some x =>
    let ok := d.inArea s 6 q.addr && decide (d.stackState s = skUp)
    if q.write then (if ok then d.stackWrite s q.addr (leBytes 8 q.data) else d)
    else if ok && !bad then d.reply x (leNat (d.stackRead s q.addr 8)) false q.tag
    else d.reply x 0 true q.tag

/-- The oldest request of a FREE area that slot i can serve: a write in a writable slot, a read whose answer has a place. -/
def Dev.openReq (d : Dev) (s i t : Nat) : Option OpenReq :=
  (d.stackRec s).reqs.find? fun q => if q.write then d.writable s i t else (match d.circ q.circ with
    | some x => d.replyRoom x
    | none => true)

/-- Some OPEN user takes slot i: one of the ranks that wait, or a request of a FREE area. -/
def Dev.openTaken (d : Dev) (s i t : Nat) (waits : List Nat) : Bool := !waits.isEmpty || (d.openReq s i t).isSome

/-- An OPEN slot, or one its owner leaves unused, goes to the highest-ranked user that waits and can use it (Table 6.5): ring writes,
copy-out, the loader and Drip have it until the next slot, and the oldest request of a FREE area is served in it (R221). -/
def Dev.openSlot (d : Dev) (s i t : Nat) (waits : List Nat) (corrected : Nat) (bad : List Nat) : Dev :=
  let r := d.stackRec s
  match listMin waits with
  | some k => d.setStack s { r with grant := k }
  | none =>
    match d.openReq s i t with
    | none => d
    | some q =>
      let hit := bad.contains (q.addr / 32 % 64)
      let d := d.setStack s { r with reqs := r.reqs.erase q }
      let d := if decide (d.stackState s = skUp) && !q.write then d.slotErrors s corrected (if hit then [0] else []) else d
      d.serveReq s q hit

/-! The address map and the conflict rules (R219, R224, Tables 6.3 and 6.6) -/

/-- The pseudo-channel of a stack byte address. -/
def stkPseudo (a : Nat) : Nat := bitsOf a 5 6
/-- The bank group of a stack byte address. -/
def stkGroup (a : Nat) : Nat := bitsOf a 11 1 + 2 * bitsOf a 17 1
/-- The bank of a stack byte address, bank groups counted through. -/
def stkBank (a : Nat) : Nat := 4 * stkGroup a + bitsOf a 18 2
/-- The row index of a stack byte address. -/
def stkRow (a : Nat) : Nat := bitsOf a 20 15
/-- The burst of a stack byte address within its row. -/
def stkColumn (a : Nat) : Nat := bitsOf a 12 5

/-- A bank of a stack. -/
def StkRec.bank (r : StkRec) (b : Nat) : BankHist := SMap.get (fun _ => BankHist.init) r.banks b

/-- At least n slots lie between an earlier slot, if any, and slot t. -/
def apart (n : Nat) (u : Option Nat) (t : Nat) : Bool :=
  match u with
  | some v => decide (v + n ≤ t)
  | none => true

/-- A read of byte address a in slot t keeps the rules of Table 6.6: its bank is not being refreshed, the latest read of its bank group
lies 2 slots back, and its row is open, or can be opened by an activate 16 slots before it (log entry 67). -/
def StkRec.readOk (r : StkRec) (t a : Nat) : Bool :=
  let h := r.bank (stkBank a)
  decide (h.busy ≤ t) && apart 2 (SMap.get (fun _ => none) r.groups (stkGroup a)) t &&
  (decide (h.row = some (stkRow a)) ||
    (decide (16 ≤ t) && decide (h.busy ≤ t - 16) && apart 12 h.read (t - 16) && apart 48 h.act (t - 16) &&
      apart 2 r.acts.head? (t - 16) && apart 16 (r.acts[3]?) (t - 16)))

/-- That read noted, with the activate before it if the row was not open. -/
def StkRec.noteRead (r : StkRec) (t a : Nat) : StkRec :=
  let b := stkBank a
  let h := r.bank b
  let opens := decide (h.row ≠ some (stkRow a))
  let h := { h with read := some t, row := some (stkRow a), act := if opens then some (t - 16) else h.act }
  { r with
    banks := SMap.set (fun _ => BankHist.init) r.banks b h,
    groups := SMap.set (fun _ => none) r.groups (stkGroup a) (some t),
    acts := if opens then ((t - 16) :: r.acts).take 4 else r.acts,
    lastUsed := some t }

/-! Reads of pass images in slots (R216, R217, R223, R224, R231, R233) -/

/-- Blocks whose reads stack s issues, or whose stand-ins it delivers, on their way: bytes and degraded mark are given. The pass is noted. -/
def Dev.flyBlocks (d : Dev) (s : Nat) (fs : List (Flight × List Byte × Bool)) : Dev :=
  fs.foldl (fun f x =>
    let f := f.notePass s x.1
    let r := f.stackRec s
    let y := { x.1 with data := x.2.1, degraded := x.2.2, stamp := f.stk.reads }
    { f.setStack s { r with flights := r.flights ++ [y] } with
      stk := { (f.setStack s { r with flights := r.flights ++ [y] }).stk with reads := f.stk.reads + 1 } }) d

/-- What a slot has read of a queue's first reads, with the bytes and whether they are degraded: a block cut by the end of its unit stays at the
front of the queue with what it has, and the others leave it. Whether the pass is read from mirrors is settled with its first read. -/
def Dev.takeReads (d : Dev) (p code : Nat) (fs : List (Flight × List Byte × Bool)) : Dev :=
  let r := d.stackRec p
  let cut := (fs.filter fun x => !x.1.ends).map fun x =>
    { x.1 with data := x.1.data ++ x.2.1, degraded := x.1.degraded || x.2.2, displaced := false }
  let q := cut ++ (r.reads code).drop fs.length
  let pass := (fs.map fun x => x.1.pass).headD 0
  let begun := if r.inPass.any fun x => decide (x.1 = pass) then r.inPass else r.inPass ++ [(pass, d.tookOver p)]
  let r := r.setReads code q
  d.setStack p { r with inPass := begun.filter fun x => (r.readsT ++ r.readsF).any fun y => decide (y.pass = x.1) }

/-- The blocks that a slot's reads complete. -/
def blocksOf (fs : List (Flight × List Byte × Bool)) : List (Flight × List Byte × Bool) :=
  (fs.filter fun x => x.1.ends).map fun x => (x.1, x.1.data ++ x.2.1, x.1.degraded || x.2.2)

/-- Slot i of stack s, its t-th, goes to the reads of queue `code` of stack p, whose first is x: issued, held for want of a staging place,
or held back by a conflict rule, which for a reserved slot's read is counted once and makes a timed pass LATE (R216, R224). The answer says
whether the slot was used. -/
def Dev.readSlot (d : Dev) (s p code t : Nat) (x : Flight) (reserved : Bool) (corrected : Nat) (bad : List Nat) : Dev × Bool :=
  let q := (d.stackRec p).reads code
  let fs := d.slotReads x q []
  let off := fun (y : Flight) => match d.mirrorRead p x with
    | some m => m.2 + (y.at - x.at)
    | none => y.at
  if fs.isEmpty then (d.countIf reserved (Reg.stkRingWait s), false)
  else if d.stackState s = skFailed then
    let got := fs.map fun y => (y, List.replicate y.now 0, true)
    (((d.takeReads p code got).countN (Reg.stkStandin s) (blocksOf got).length).flyBlocks s (blocksOf got), true)
  else if (d.stackRec s).readOk t (off x) then
    let got := fs.map fun y => (y, spoilt (off y) (d.stackRead s (off y) y.now) bad)
    let used := bad.filter fun b => fs.any fun y => (List.range (y.now / 32)).any fun k => decide (stkPseudo (off y + 32 * k) = b)
    let d := (d.takeReads p code got).slotErrors s corrected used
    let d := d.setStack s ((d.stackRec s).noteRead t (off x))
    (d.flyBlocks s (blocksOf got), true)
  else if x.displaced || !reserved then (d, false)
  else
    let r := d.stackRec p
    let d := d.setStack p (r.setReads code ({ x with displaced := true } :: q.tail))
    ((d.count (Reg.stkSchedColl s)).latePass p x, false)

/-- Slot i of stack s with its plan's code (R220, R221): the Roller's or the mirror's reads, or OPEN users; an OPEN slot that no OPEN user
takes reads the free-class image, and a MIRROR slot serves nothing but mirrored reads once the mirror is active (R217, R233). -/
def Dev.runSlot (d : Dev) (s i t code : Nat) (waits : List Nat) (corrected : Nat) (bad : List Nat) : Dev :=
  let open_ := fun (f : Dev) => f.openSlot s i t waits corrected bad
  if code = 0 then
    if d.openTaken s i t waits then open_ d
    else
      let d := d.freePass s
      match d.slotQueue s i 2 with
      | some (p, q, x) => (d.readSlot s p q t x false corrected bad).1
      | none => d
  else
    let d := if code = 2 then d.freePass s else d
    let lent := decide (code ≠ 3) || !d.flag (Reg.stkScfg s) Fld.stkScfgMirrorActive
    match d.slotQueue s i code with
    | none => if lent then open_ d else d
    | some (p, q, x) =>
      let (d, used) := d.readSlot s p q t x true corrected bad
      if used || !lent then d else open_ d

/-- One slot of a stack's window frame (R220): the frame runs on in FAILED as in UP (R231). waits are the ranks of Table 6.5 that wait and
could use it; what the bursts' check codes find comes from the silicon. -/
def Dev.stackSlot (d : Dev) (s : Nat) (waits : List Nat) (corrected : Nat) (bad : List Nat) : Dev :=
  if d.frameRuns s then
    let r := d.stackRec s
    let d := d.setStack s { r with slot := (r.slot + 1) % 128, total := r.total + 1, grant := 0 }
    d.runSlot s r.slot r.total (d.planCode s r.slot) waits corrected bad
  else d

/-- The slot that a stack has just run is an OPEN user's of a rank (Table 6.5). -/
def Dev.granted (d : Dev) (s rank : Nat) : Bool := decide ((d.stackRec s).grant = rank)

/-- An OPEN user of a rank is served now: in the slot it has, or at once, with an uncorrectable read, by a stack that runs no frame (log
entry 42). -/
def Dev.served (d : Dev) (s rank : Nat) : Bool := d.granted s rank || !d.frameRuns s

/-- That user has used its slot. -/
def Dev.useGrant (d : Dev) (s : Nat) : Dev := d.setStack s { d.stackRec s with grant := 0 }

/-! Staging (R214, R215) -/

/-- The last word of the oldest block on its way to a core is written into its staging ring, at the next place of its context's. -/
def Dev.blockStaged (d : Dev) (c : Nat) : Dev :=
  let die := clOf c / 16
  let here := ((stacksOf die).map fun s => ((d.stackRec s).flights.filter fun f => f.core = c).map fun f => (s, f)).flatten
  match (listMin (here.map fun x => x.2.stamp)).bind fun m => here.find? fun x => x.2.stamp = m with
  | none => d
  | some (s, f) =>
    let r := d.stackRec s
    let d := d.setStack s { r with flights := r.flights.erase f }
    match d.ctxRec c f.ctx with
    | none => d
    | some x =>
      let k := d.core c
      let size := bitsOf x.ring 16 16 * 512
      let pos := SMap.get (fun _ => 0) k.ringPos f.ctx
      let a := bitsOf x.ring 0 16 * 512 + pos
      let d := d.wsWrite c a f.data
      d.setCore c { k with
        staged := k.staged ++ [⟨f.ctx, f.event, f.phase, a, f.degraded, x.consumers⟩],
        ringPos := SMap.set (fun _ => 0) k.ringPos f.ctx (if size = 0 then 0 else (pos + f.size) % size) }

/-! Refresh, retraining, mirrors (R224, R225, R233) -/

/-- The slots from i on, up to n of them, for which a stack's plan has a code. -/
def Dev.slotsAhead (d : Dev) (s i n code : Nat) : Nat := ((List.range n).filter fun k => decide (d.planCode s (i + k) = code)).length

/-- A read of stack s in the next 176 slots lies in bank b, as the plan and the queues stand: of its own queues, or mirrored there. A row is
activated 16 slots before its first read (log entry 67), so this leaves the bank idle for 160 slots (R225). -/
def Dev.bankWanted (d : Dev) (s b : Nat) : Bool :=
  let d := d.ahead (s / 3) 176
  let i := (d.stackRec s).slot
  (stacksOf (s / 3)).any fun p => [1, 2].any fun code =>
    ((unitsOf ((d.stackRec p).reads code)).take (d.slotsAhead p i 176 code)).any fun u => match d.mirrorRead p u.1 with
      | some (m, a) => decide (m = s) && decide (stkBank (a + (u.2 - u.1.at)) = b)
      | none => decide (p = s) && decide (stkBank u.2 = b)

/-- A bank is refreshed: in a gap of 160 slots in which it is idle; once 1,950 slots have passed since its latest refresh it is refreshed
anyway, and counted. For 160 slots no read of the bank is issued (R225). -/
def Dev.refreshBank (d : Dev) (s b : Nat) : Dev :=
  let r := d.stackRec s
  let late := decide (SMap.get (fun _ => 0) r.refreshed b + 1950 < r.total)
  if d.stackState s = skUp && (late || !d.bankWanted s b) then
    let d := d.countIf late (Reg.stkRefreshLate s)
    d.setStack s { r with
      refreshed := SMap.set (fun _ => 0) r.refreshed b r.total,
      banks := SMap.set (fun _ => BankHist.init) r.banks b { r.bank b with row := none, busy := r.total + 160 } }
  else d

/-- The interface of a stack retrains and loses slots: each is counted, and the timed pass under way on it, its own or one it mirrors, is LATE
(R224). -/
def Dev.retrainStack (d : Dev) (s n : Nat) : Dev :=
  if d.stackState s = skUp then
    let r := d.stackRec s
    let d := d.setStack s { r with slot := (r.slot + n) % 128, total := r.total + n }
    let d := d.countN (Reg.stkSchedColl s) n
    (stacksOf (s / 3)).foldl (fun f p =>
      match (f.stackRec p).readsT.head? with
      | some x => if (match f.mirrorRead p x with
          | some (m, _) => decide (m = s)
          | none => decide (p = s)) then f.latePass p x else f
      | none => f) d
  else d

/-- The mirrors of a failed stack take over, 128 ns after its failure (R233). -/
def Dev.mirrorTakes (d : Dev) (s : Nat) : Dev :=
  match (d.stackRec s).failedAt with
  | none => d
  | some t =>
    if d.stackState s = skFailed ∧ t + 128 ≤ d.devNs then
      (d.mirrorStacks s).foldl (fun f m =>
        if f.stackState m = skUp then f.setFld (Reg.stkScfg m) Fld.stkScfgMirrorActive 1 else f) d
    else d

/-- The cores that draw a stack-fed segment of a loaded context from stack s, in an area without a mirror. -/
def Dev.unmirroredCores (d : Dev) (s : Nat) : List Nat :=
  ((d.fab.images.filter fun im => im.stack = s).map fun im =>
    match d.rollerArea s im.ref with
    | some (a, _) => if (d.mirrorOf s a).isSome then [] else im.blocks.map fun b => b.core
    | none => im.blocks.map fun b => b.core).flatten.dedup

/-- An UP stack fails (Table 6.10, row 2): the slots that depend on what only it fed are DEGRADED (R292). -/
def Dev.stackFails (d : Dev) (s : Nat) : Dev :=
  if d.stackState s = skUp then
    let d := d.stackFail s
    let cs := (d.unmirroredCores s).map d.deviceCore
    d.degradeSlots fun k => cs.any (d.dependsOn k)
  else d

end Sys2Proof.Machine
end

