-- ==== Sys2Proof/Machine/Event.lean ====
section
/-!
DEFINITION. The steps of an event ("The event path", "The Screed, menu slots and decisions"): its window, its
admission, its local deadline, its group result and its release; rate frames; headroom windows; the margin-tracking
setpoint (R501 to R505); arming; and SAFE at run time (R463, R464).
-/

namespace Sys2Proof.Machine

open Sys2Proof

/-! Admission (R22, R67, R85, R90, R137, R213, R439) -/

/-- The samples of a channel at the positions of a lane in the window of event n, none where missing. -/
def Dev.windowVals (d : Dev) (n ch : Nat) : List (Option Int) :=
  match d.laneOf ch with
  | none => []
  | some l =>
    let ts : Int := Int.ofNat (d.laneTs l)
    (d.positions l n).map fun p =>
      (d.ing.seen.find? fun x => decide (x.1 = ch) && decide (2 * p - ts ≤ 2 * x.2.1) && decide (2 * x.2.1 < 2 * p + ts)).map
        fun x => x.2.2

/-- The word of a timed entry row for event n, and whether it is MISSING: a primitive word, or for the j-th row of a
channel on its circuit the j-th word of the window (R439, log entry 50). -/
def Dev.rowWord (d : Dev) (n : Nat) (missing : List Nat) (row : EntryRow) (j half : Nat) : Nat × Bool :=
  if row.source = 0 then ((d.primWord n row.unit row.slot (missing.contains row.unit)).toNat, false)
  else (windowWords row.unit half (d.windowVals n row.unit)).getD j (row.unit, true)

/-- The tokens of the timed entry rows of one circuit for event n, in ORDER. -/
def Dev.circEntries (d : Dev) (n : Nat) (missing : List Nat) (x : Circuit) : Dev :=
  let rows := (d.fab.entries.filter fun r => decide (r.circ = x.key ∧ r.source ≠ 2)).mergeSort fun a b =>
    decide (a.order ≤ b.order)
  if rows.isEmpty || !d.circRuns x n then d
  else
    let (half, d) := d.open_ .halfWord
    let ws := (List.range rows.length).map fun i =>
      let r := rows.getD i ⟨0, 0, 0, 0, 0⟩
      d.rowWord n missing r ((rows.take i).filter fun q => decide (q.source = 1 ∧ q.unit = r.unit)).length half
    d.entryTokens x n ws

/-- Network time is exactly t, and something that is in time at t is still to be taken. -/
def Dev.tiedAt (d : Dev) (t : Nat) (tie : Bool) : Bool := tie && decide (d.tms.ctr = t * 2 ^ 40)

/-- Event n enters the fabric at its admission time, after the data blocks delivered at that instant: they are in time for it (R23), so with
one still to be placed (tie) it waits. -/
def Dev.admission (d : Dev) (n : Nat) (tie : Bool) : Dev :=
  match d.evAt n with
  | none => d
  | some e =>
    if d.alive && !e.admitted && decide (d.admTime n ≤ d.netNs) && !d.tiedAt (d.admTime n) tie then
      let missing := d.missingPositions n
      let chans := (missing.map fun x => x.2.1).dedup
      let d := d.countIf (!missing.isEmpty) Reg.ingMissingEv
      let d := (d.meetAll n).judgeDead n missing
      let d := match d.lastInterval n with
        | some m => d.latchDead m
        | none => d
      let d := (d.ringAdmit n missing).passStarts n
      let d := (d.coresIn coFenced).foldl (fun f c => f.fencedEvent c n) d
      let d := d.lostEvent n
      let d := (d.fab.circuits.filter fun x => !x.free && decide (x.src.kind = 5)).foldl
        (fun f x => f.circEntries n chans x) d
      let e := { e with admitted := true, missing := chans, phases := d.lanePhases }
      let (d, e) := ({ d with scr := { d.scr with admitted := some n } }).measure e
      (d.putEv e).trimSpans (n + 1)
    else d

/-! The group (R306, R308, R365) -/

/-- The contribution of event n is formed at its local deadline and sent, after what reaches the Screed at that instant (R299). -/
def Dev.localDeadline (d : Dev) (n : Nat) (tie : Bool) : Dev :=
  match d.evAt n with
  | none => d
  | some e =>
    if d.alive && d.group && e.own.isNone && e.admitted && decide (d.deadline n ≤ d.netNs) && !d.tiedAt (d.deadline n) tie then
      let (d, e) := d.decideEvent e
      let d := d.putEv e
      match e.own with
      | some c => d.sendContrib n c
      | none => d
    else d

/-- At 12 ns before release the collection of contributions closes, after those received at that instant, which are in time (R365). -/
def Dev.collectionClose (d : Dev) (n : Nat) (tie : Bool) : Dev :=
  match d.evAt n with
  | none => d
  | some e =>
    if d.alive && d.group && e.own.isSome && !e.closed && decide (d.relTime n - 12 ≤ d.netNs) && !d.tiedAt (d.relTime n - 12) tie then
      d.putEv { e with closed := true }
    else d

/-- The group result of event n, formed from the contributions held; after release it is discarded (R309). -/
def Dev.groupResult (d : Dev) (n : Nat) : Dev :=
  match d.evAt n with
  | none => d
  | some e =>
    match e.own with
    | none => d
    | some c =>
      if d.alive && e.closed && e.group.isNone && !e.released then
        d.putEv { e with group := some (d.combine n (c :: e.heard)) }
      else d

/-! Release (R298) -/

/-- The adaptation epoch under which event n was computed (R277): the epochs done less those that begin after it, and those under
way that began at or before it. -/
def Dev.adaptEpochOf (d : Dev) (n : Nat) : Nat :=
  let after := (d.num.adaptFirsts.filter fun f => decide (n < f)).length
  let under := ((d.fab.groups.map Prod.snd).filter fun g => match g.wave with
    | some w => w.adapt && decide (w.first ≤ n)
    | none => false).length
  d.rd Reg.numAdaptEpoch + under - after

/-- The provenance word of an event (Table 7.6). -/
def Dev.provWord (d : Dev) (n : Nat) : Nat :=
  d.rd Reg.numScaleEpoch % 2 ^ 16 + d.adaptEpochOf n % 2 ^ 16 * 2 ^ 16 + d.step % 256 * 2 ^ 32 +
    d.rd (Reg.bootDigest 0) % 2 ^ 24 * 2 ^ 40

/-- The rings that the ACCEPT slots of an event name, ascending (R97). -/
def Dev.captureRings (d : Dev) (e : Ev) : List Nat :=
  let masks := (e.outs.filter fun x => x.2 = .accept).map fun x => d.rd (Reg.mnCapLo x.1) + 2 ^ 32 * d.rd (Reg.mnCapHi x.1)
  let m := masks.foldl (fun a b => a ||| b) 0
  (List.range 64).filter fun r => bitAt m r && d.ringOn r

/-- The records of an accepted event: one per ring captured, or one with no data (R97, R110), with the scale appendix when PROV_APPENDIX asks for
it (R278). -/
def Dev.recordEvent (d : Dev) (e : Ev) (w c : BitVec 64) : Dev :=
  let p := d.provWord e.n
  let own := if d.flag Reg.numGcfg Fld.numGcfgProvAppendix then some (d.scaleAppendix e.n) else none
  let rings := d.captureRings e
  Dev.countDropped d
    (if rings.isEmpty then d.plainRecord e w c p own else rings.foldl (fun f r => f.requestCapture e w c p r own) d)

/-- Counts of a released event (Tables 8.8, 8.11). -/
def Dev.countRelease (d : Dev) (e : Ev) (w : BitVec 64) : Dev :=
  let own := !d.inSafe e.n && !e.lost
  let missed := own && d.group && e.group.isNone
  let absent : BitVec 64 := match e.group with
    | some g => g.absent
    | none => 0
  let d := ((((d.count Reg.scrEvents).countIf (dwAccept w) Reg.scrAccepts).countIf (dwNodec w) Reg.scrNodec).countIf
    (dwDegraded w) Reg.scrDegraded)
  let d := (d.countIf missed Reg.scrGrpMissed).countIf (decide (absent ≠ 0)) Reg.scrAbsent
  d.rfMod (d.relInterval e.n) fun a => { a with
    events := a.events + 1, nodec := a.nodec + bit01 (dwNodec w), degraded := a.degraded + bit01 (dwDegraded w),
    missed := a.missed + bit01 missed, absent := a.absent ||| absent, lastEv := some e.n }

/-- Event n is released: words, DEC edges, captures, records and counts, all at once, after what reaches the Screed at that instant (R301,
R309). -/
def Dev.release (d : Dev) (n : Nat) (tie : Bool) : Dev :=
  match d.evAt n with
  | none => d
  | some e =>
    if d.alive && e.admitted && !e.released && decide (d.relTime n ≤ d.netNs) && !d.tiedAt (d.relTime n) tie then
      let (d, e) := d.decideEvent e
      let (w, c) := d.releasedWords e
      let e := { e with released := true }
      let d := ({ d with scr := { d.scr with releasedEv := some n } }).putEv e
      let d := d.emit (.words n w c)
      let d := (List.range 32).foldl (fun f k => if f.decAsserts e w k then f.decAssert n k else f) d
      let d := (d.countRelease e w).showHeadroom e
      let first := d.store.nextSeq
      let d := if dwAccept w && !d.inSafe n && !e.lost then d.recordEvent e w c else d
      let d := d.addSummary e w c (d.store.nextSeq - first) first
      d.dropWords (n + 1)
    else d

/-! The window (R17 to R24) -/

/-- The event that slot n mod 256 still holds unreleased takes its admission and release, which are due when that slot's next window opens
(R20, R21). -/
def Dev.clearSlot (d : Dev) (n : Nat) : Dev :=
  match d.evInSlot n with
  | some e => if e.released then d else (d.admission e.n false).release e.n false
  | none => d

/-- The window of event n opens: the event before it in its slot is released, pending live writes take effect, and the event is formed in
its slot (R20, R91). -/
def Dev.windowOpen (d : Dev) (n : Nat) : Dev :=
  let later := match d.scr.opened with
    | some m => decide (m < n)
    | none => true
  if d.alive && decide (d.tev ≠ 0) && !d.neverFormed n && decide (n * d.tev ≤ d.netNs) && later then
    let d := (d.clearSlot n).effectBoundary n
    (({ d with scr := { d.scr with opened := some n } }).putEv (Ev.init n)).lateOpens n
  else d

/-! Rate frames (R314 to R318) -/

/-- The header of a segment (Table 8.6). -/
def Dev.segHeader (d : Dev) (m kind seg segs first count : Nat) (a : RfAcc) : List Byte :=
  let st := if d.mode = 2 then 1 else if d.unproven then 2 else 0
  leBytes 4 0x5A524652 ++ leBytes 2 1 ++ leBytes 1 kind ++ leBytes 1 d.devId ++ leBytes 8 m ++ leBytes 4 d.scr.rfSeq ++
    leBytes 2 seg ++ leBytes 2 segs ++ leBytes 2 first ++ leBytes 2 count ++ leBytes 4 a.events ++ leBytes 1 st ++
    leBytes 1 d.timeByte ++ leBytes 1 (bit01 a.jump) ++ leBytes 29 0

/-- The body of the HEALTH segment (Table 8.8). -/
def Dev.healthBody (d : Dev) (a : RfAcc) : List Byte :=
  let head := lowBits 32 (signedOf 24 (d.fld Reg.scrHeadroom Fld.scrHeadroomMin))
  let slotsDeg := ((List.range 16384).filter fun s => d.flag (Reg.mnStat s) Fld.mnStatDegraded).length
  let down := ((List.range 64).filter fun l => d.flag (Reg.ingLstate l) Fld.ingLstateDown).length
  let failed := (List.range 12).foldl (fun x s =>
    x + bit01 (decide (d.stackState s = skFailed ∨ d.stackState s = skMismatch)) * 2 ^ s) 0
  leBytes 4 head ++ leBytes 4 a.late ++ leBytes 4 a.nodec ++ leBytes 4 a.degraded ++ leBytes 4 a.skew ++
    leBytes 2 (d.coresIn coFenced).length ++ leBytes 2 slotsDeg ++ leBytes 2 down ++ leBytes 2 failed ++
    leBytes 4 a.missed ++ leBytes 8 a.absent.toNat ++ leBytes 4 a.dropped ++ leBytes 20 0

/-- The entry of a menu slot in interval m (Table 8.7). -/
def Dev.menuEntry (d : Dev) (m s : Nat) (a : RfAcc) : List Byte :=
  let x := SMap.get (fun _ => SlotAcc.init) d.scr.rfSlots (m * 16384 + s)
  let masked := match a.lastEv with
    | some n => d.fldAt n (Reg.mnCtl s) Fld.mnCtlMasked
    | none => bitsOf (d.staged (Reg.mnCtl s)) Fld.mnCtlMasked.lo Fld.mnCtlMasked.w
  leBytes 16 (s + masked * 2 ^ 14 + bit01 (d.flag (Reg.mnStat s) Fld.mnStatDegraded) * 2 ^ 15 + x.hits * 2 ^ 16 +
    x.held * 2 ^ 34 + x.accepted * 2 ^ 52 + x.late * 2 ^ 70 + x.degr * 2 ^ 88 + x.nodec * 2 ^ 106)

/-- The entry of a unit's dead time in frame m: that of interval m − 1 (R318). -/
def Dev.deadEntry (d : Dev) (m u : Nat) : List Byte :=
  let vals := match d.prm.latched.find? fun x => decide (x.1 + 1 = m) with
    | some x => x.2
    | none => []
  let x := SMap.get (fun _ => 0) vals u * 65536 / 1000000
  leBytes 2 (if x < 0xFFFF then x else 0xFFFF)

/-- The segments of rate frame m: payloads in the order sent. -/
def Dev.rateSegments (d : Dev) (m : Nat) : List (List Byte) :=
  let a := SMap.get (fun _ => RfAcc.init) d.scr.rf m
  let jumbo := d.flag Reg.scrRfCfg Fld.scrRfCfgJumbo
  let slots := d.nonzero (Reg.mnCtl 0) 0x40 16384 Fld.mnCtlRateEn
  let per := if jumbo then 512 else 64
  let dper := if jumbo then 4096 else 512
  let nm := ceilDiv slots.length per
  let nd := 8192 / dper
  let segs := 1 + nm + nd
  (d.segHeader m 1 0 segs 0 0 a ++ d.healthBody a) ::
    ((List.range nm).map fun i =>
      let xs := (slots.drop (i * per)).take per
      d.segHeader m 2 (1 + i) segs 0 xs.length a ++ (xs.map fun s => d.menuEntry m s a).flatten) ++
    (List.range nd).map fun i =>
      d.segHeader m 3 (1 + nm + i) segs (i * dper) dper a ++ ((List.range dper).map fun j => d.deadEntry m (i * dper + j)).flatten

/-- The destination address of the rate frames. -/
def Dev.rfDst (d : Dev) : BitVec 48 :=
  BitVec.ofNat 48 (d.rd Reg.scrRfDstLo + 2 ^ 32 * d.fld Reg.scrRfDstHi Fld.scrRfDstHiDstHi)

/-- A forward step of network time passed over the whole of interval m (R342). -/
def Dev.skippedInterval (d : Dev) (m : Nat) : Bool :=
  d.tms.passed.any fun p => decide (p.1 < m * 65536000000) && decide ((m + 1) * 65536000000 ≤ p.2)

/-- The rate frame of interval m, 50 µs after its end: sent, or counted as unsent while the link is down (R314, R315). -/
def Dev.rateFrame (d : Dev) (m : Nat) : Dev :=
  if d.alive && d.scr.armed && d.flag Reg.scrRfCfg Fld.scrRfCfgRfEn && decide (d.scr.rfNext ≤ m) && !d.skippedInterval m &&
      decide ((m + 1) * 1000000 + 50000 ≤ d.netNs) then
    let segs := d.rateSegments m
    let ty := BitVec.ofNat 16 (d.fld Reg.scrRfCfg Fld.scrRfCfgRfEthertype)
    let d' :=
      if d.tms.ethUp then
        let d1 := (segs.foldl (fun f p => f.emit (.frame f.rfDst f.mac ty p)) d).count Reg.scrRfSent
        { d1 with scr := { d1.scr with rfSeq := (d1.scr.rfSeq + 1) % 2 ^ 32 } }
      else d.count Reg.scrRfUnsent
    { d' with scr := { d'.scr with
        rfNext := m + 1, rf := d'.scr.rf.filter fun x => decide (m < x.1),
        rfSlots := d'.scr.rfSlots.filter fun x => decide (m < x.1 / 16384) } }
  else d

/-! The setpoint (R501 to R505) -/

/-- The setpoint in mV. -/
def Dev.vset (d : Dev) : Nat := d.fld Reg.pwrStat Fld.pwrStatVsetMv

/-- The setpoint moves to v; it settles later. -/
def Dev.moveV (d : Dev) (v : Nat) (c : SetChange) : Dev :=
  let d := d.setV v
  { d with pwr := { d.pwr with change := some c } }

/-- The setpoint follows headroom. -/
def Dev.tracking (d : Dev) : Bool := d.flag Reg.pwrStat Fld.pwrStatTracking

/-- A pin is in force. -/
def Dev.pinned (d : Dev) : Bool := d.flag Reg.pwrStat Fld.pwrStatPinned

/-- A raise has not settled. -/
def Dev.raising (d : Dev) : Bool := decide (d.pwr.change = some .raise_)

/-- The next step of at most 25 mV toward the pinned voltage (R505). -/
def Dev.pinStep (d : Dev) : Dev :=
  let g := d.fld Reg.pwrPin Fld.pwrPinPinMv
  let v := d.vset
  if v < g then d.moveV (if v + 25 < g then v + 25 else g) .pin
  else if g < v then d.moveV (if g + 25 < v then v - 25 else g) .pin
  else { d with pwr := { d.pwr with change := none } }

/-- A pin takes effect: tracking stops, and the setpoint starts toward PIN_MV. -/
def Dev.pinNow (d : Dev) : Dev :=
  let d := (d.setFld Reg.pwrStat Fld.pwrStatPinned 1).setFld Reg.pwrStat Fld.pwrStatTracking 0
  ({ d with pwr := { d.pwr with pinWaits := false } }).pinStep

/-- An accepted write of PWR_PIN in force: a pin, at once or once a raise has settled; or tracking resumed, once the Screed has armed and
not in SAFE (R502, R505). -/
def Dev.pinWritten (d : Dev) : Dev :=
  if d.flag Reg.pwrPin Fld.pwrPinPinEn then
    if d.raising then { d with pwr := { d.pwr with pinWaits := true } } else d.pinNow
  else
    let d := { d with pwr := { d.pwr with pinWaits := false } }
    (d.setFld Reg.pwrStat Fld.pwrStatPinned 0).setFld Reg.pwrStat Fld.pwrStatTracking
      (bit01 (d.scr.armed && !d.safeMode && d.scr.safeFrom.isNone))

/-- An event measured below 0.08 × D is judged (R503 to R505): it raises the setpoint, unless it was admitted before the latest
raise settled; at 850 mV it is counted, and likewise while pinned. -/
def Dev.setpointRaise (d : Dev) (n : Nat) : Dev :=
  match d.pwr.low.find? fun x => decide (x.n = n) with
  | none => d
  | some x =>
    let d := { d with pwr := { d.pwr with low := d.pwr.low.filter fun y => decide (y.n ≠ n) } }
    let v := d.vset
    let d := d.countIf (decide (v = 850)) Reg.pwrCeilEvents
    let d := d.countIf d.pinned Reg.pwrPinnedLow
    if d.tracking && !d.raising && decide (v < 850) && decide (d.pwr.settledAt ≤ x.adm * 65536) then
      let d := (d.moveV (if v + 25 < 850 then v + 25 else 850) .raise_).count Reg.pwrRaises
      { d with pwr := { d.pwr with raised := true } }
    else d

/-- A change of the setpoint has settled: raises are re-armed, a waiting pin takes effect, and the next pinning step begins. -/
def Dev.setpointSettled (d : Dev) : Dev :=
  match d.pwr.change with
  | none => d
  | some .raise_ =>
    let d := { d with pwr := { d.pwr with change := none, settledAt := d.net16 } }
    if d.pwr.pinWaits then d.pinNow else d
  | some .lower => { d with pwr := { d.pwr with change := none } }
  | some .pin => if d.pinned then d.pinStep else { d with pwr := { d.pwr with change := none } }

/-- The close of a headroom window of 1 ms of device time (R303), with the lowering of R503. -/
def Dev.headroomWindow (d : Dev) : Dev :=
  if d.scr.headStart + 1000000 ≤ d.devNs ∧ d.inReset = false then
    let d1 := match d.scr.headMin with
      | some h => d.setFld Reg.scrHeadroom Fld.scrHeadroomMin (lowBits 24 (h / 4096))
      | none => d
    let limit := Int.ofNat (15 * (if d.group then d.lNs - d.gNs else d.lNs) * 65536)
    let wide := match d.scr.headMin with
      | some h => decide (limit < 100 * h)
      | none => false
    let lowers := d.tracking && !d.pwr.raised && wide && decide (600 < d.vset)
    let d2 := if lowers then
        let v := d1.vset
        (if d1.raising then d1.setV (v - 5) else d1.moveV (v - 5) .lower).count Reg.pwrLowers
      else d1
    { d2 with
      scr := { d2.scr with headMin := none, headStart := d.scr.headStart + 1000000 }
      pwr := { d2.pwr with raised := false } }
  else d

/-! Arming (R24, R95, R337, R502) -/

/-- The Screed arms: rings begin, cores in READY run, and the setpoint becomes VSTART_MV unless pinned. -/
def Dev.arm (d : Dev) : Dev :=
  let d := (d.armScreed.ringsBegin).coresRun
  if d.pinned then d
  else
    (d.setV (d.fld Reg.pwrTrack Fld.pwrTrackVstartMv)).setFld Reg.pwrStat Fld.pwrStatTracking
      (bit01 (!d.safeMode && d.scr.safeFrom.isNone))

/-! SAFE at run time (R463, R464) -/

/-- The first event whose admission time is 200 ns of network time from now or later. -/
def Dev.safeEvent (d : Dev) : Nat :=
  if d.tev = 0 then 0 else ceilDiv (ceilDiv d.net16 65536 + 200 - d.aNs) d.tev - 1

/-- An uncorrectable error in the menu store, decision buffers or event-slot tables: events held in the failed rows are lost, and the
device is in SAFE from the event of R463 on. -/
def Dev.safeEntry (d : Dev) (rows : List Nat) : Dev :=
  if d.alive && d.scr.armed then
    let d := d.count Reg.glbXdieUe
    let d := rows.foldl (fun f r => match f.evInSlot r with
      | some e => if e.released then f else f.putEv { e with lost := true }
      | none => f) d
    if d.mode = 2 then d
    else
      let before := d.rd Reg.glbState
      let d := ({ d with scr := { d.scr with safeFrom := some d.safeEvent } }).setMode 2
      let d := (d.setFld Reg.glbState Fld.glbStateSafeCause 2).setFld Reg.scrState Fld.scrStateState 2
      let d := d.setFld Reg.pwrStat Fld.pwrStatTracking 0
      let d := if d.pinned then d else d.setV (d.fld Reg.pwrTrack Fld.pwrTrackVstartMv)
      d.logInternal Reg.glbState before (d.rd Reg.glbState) .degraded
  else d

end Sys2Proof.Machine
end

