-- ==== Sys2Proof/Machine/Image.lean ====
section
/-!
DEFINITION. The flash as the loader reads it ("Primer, Undercoat, attestation and the change log"): the directory
(Table 11.3), the Primer header (Table 11.4), section entries (Table 11.6), the Undercoat's keys and
rollback count (Table 11.10), and checks 1 to 8 of Table 11.8.
-/

namespace Sys2Proof.Machine

open Sys2Proof

/-! Reading flash and the staged image -/

/-- n bytes of a flash image from address a; unlisted bytes are erased (log entry 12). -/
def flashBytes (m : SMap Byte) (a n : Nat) : List Byte := SMap.getList (fun _ => 0xFF) m a n

/-- The little-endian number in n bytes of a flash image. -/
def flashNat (m : SMap Byte) (a n : Nat) : Nat := leNat (flashBytes m a n)

/-! The flash directory (R396, Table 11.3) -/

/-- A directory copy: write sequence, selected slot, and base and length of slots A, B and F. -/
structure Directory where
  seq : Nat
  select : Nat
  slots : List (Nat × Nat)
  deriving DecidableEq, Repr

/-- Whether two spans (base, length) overlap. -/
def spansMeet (x y : Nat × Nat) : Bool :=
  decide (x.2 ≠ 0) && decide (y.2 ≠ 0) && decide (x.1 < y.1 + y.2) && decide (y.1 < x.1 + x.2)

/-- Whether no two of a list of spans overlap. -/
def spansApart : List (Nat × Nat) → Bool
  | [] => true
  | x :: xs => xs.all (fun y => !spansMeet x y) && spansApart xs

/-- The directory copy at address a, when it is valid. -/
def directoryAt (m : SMap Byte) (len a : Nat) : Option Directory :=
  let slots := [0x10, 0x20, 0x30].map fun o => (flashNat m (a + o) 8, flashNat m (a + o + 8) 8)
  let clk := flashNat m (a + 6) 2
  if flashNat m a 4 = 0x5A444952 ∧ flashNat m (a + 4) 2 = 1 ∧
      flashBytes m (a + 0x78) 8 = shake256 (flashBytes m a 0x78) 8 ∧ 25 ≤ clk ∧ clk ≤ 200 ∧
      flashNat m (a + 0xC) 1 ≤ 1 then
    if slots.all (fun s => decide (s.2 = 0) ||
        (decide (s.1 % 0x10000 = 0) && decide (0xFFFF < s.1) && decide (s.1 + s.2 ≤ len))) && spansApart slots then
      some ⟨flashNat m (a + 8) 4, flashNat m (a + 0xC) 1, slots⟩
    else none
  else none

/-- Whether sequence y is later than x, modulo 2^32 as R15 decides it. -/
def seqLater (x y : Nat) : Bool :=
  let df := (y + 2 ^ 32 - x) % 2 ^ 32
  decide (0 < df) && decide (df < 2 ^ 31)

/-- The directory in use with the number of its copy (R396): the later SEQ, copy 0 on a tie. -/
def directoryOf (m : SMap Byte) (len : Nat) : Option (Nat × Directory) :=
  match directoryAt m len 0, directoryAt m len 0x1000 with
  | none, none => none
  | some x, none => some (0, x)
  | none, some y => some (1, y)
  | some x, some y => if seqLater x.seq y.seq then some (1, y) else some (0, x)

/-! The Primer (R397 to R399) -/

/-- A Primer header, with the base of its slot, its first 256 bytes, and what Table 11.4 has at 0. -/
structure Image where
  base : Nat
  imageLen : Nat
  part : Nat
  sections_ : Nat
  rollback : Nat
  keyIndex : Nat
  advance : Bool
  fitted : Nat
  steppings : List Nat
  dirOfs : Nat
  build : List Byte
  dirDigest : List Byte
  signed : List Byte
  pubkey : List Byte
  sig : List Byte
  reserved : List Byte
  deriving DecidableEq, Repr

/-- The header at a slot's base. -/
def imageAt (m : SMap Byte) (b : Nat) : Image :=
  { base := b, imageLen := flashNat m (b + 8) 8, part := flashNat m (b + 0x10) 2,
    sections_ := flashNat m (b + 0x12) 2, rollback := flashNat m (b + 0x14) 1,
    keyIndex := flashNat m (b + 0x15) 1, advance := bitAt (flashNat m (b + 0x16) 2) 0,
    fitted := flashNat m (b + 0x18) 8,
    steppings := ((List.range 8).map fun i => flashNat m (b + 0x20 + i) 1).filter fun x => decide (x ≠ 0),
    dirOfs := flashNat m (b + 0x28) 8, build := flashBytes m (b + 0x30) 16,
    dirDigest := flashBytes m (b + 0x40) 32, signed := flashBytes m b 256,
    pubkey := flashBytes m (b + 0x100) 57, sig := flashBytes m (b + 0x140) 114,
    reserved := flashBytes m (b + 0x60) 160 ++ flashBytes m (b + 0x139) 7 ++ flashBytes m (b + 0x1B2) 78 ++
      leBytes 2 (flashNat m (b + 0x16) 2 / 2) }

/-- The Primer digest (R398). -/
def Image.digest (i : Image) : List Byte := shake256x32 i.signed

/-- A section: type, instance, offset from the slot's base, length, digest and what Table 11.6 has at 0. -/
structure Sect where
  ty : Nat
  idx : Nat
  ofs : Nat
  len : Nat
  digest : List Byte
  reserved : Nat
  deriving DecidableEq, Repr

/-- Entry i of the section directory. -/
def sectAt (m : SMap Byte) (i : Image) (k : Nat) : Sect :=
  let a := i.base + i.dirOfs + 64 * k
  ⟨flashNat m a 2, flashNat m (a + 2) 2, flashNat m (a + 8) 8, flashNat m (a + 0x10) 8, flashBytes m (a + 0x18) 32,
    flashNat m (a + 4) 4 + flashNat m (a + 0x38) 8⟩

/-- The section directory. -/
def sectsOf (m : SMap Byte) (i : Image) : List Sect := (List.range i.sections_).map (sectAt m i)

/-- A section's bytes. -/
def sectBytes (m : SMap Byte) (i : Image) (s : Sect) : List Byte := flashBytes m (i.base + s.ofs) s.len

/-! Section types (Table 11.7) -/

def stRegs : Nat := 1
def stTiming : Nat := 2
def stContext : Nat := 3
def stWstore : Nat := 4
def stStack : Nat := 5
def stReloc : Nat := 6
def stExec : Nat := 7
def stTopology : Nat := 8
def stScrim : Nat := 9
def stNuminit : Nat := 10
def stPolicy : Nat := 11
def stFuse : Nat := 12

/-- Types marked as single. -/
def singleType (t : Nat) : Bool := decide (t ≠ stContext ∧ t ≠ stWstore ∧ t ≠ stStack ∧ t ≠ stScrim)

/-- The first section of a type. -/
def sectOf (ss : List Sect) (t : Nat) : Option Sect := ss.find? fun s => decide (s.ty = t)

/-- A section's bytes with the patches of R444 applied are held by their directory entry. -/
abbrev Body := Sect × List Byte

/-- The bodies of a type. -/
def bodies (bs : List Body) (t : Nat) : List Body := bs.filter fun b => decide (b.1.ty = t)

/-- The first body of a type, empty when the image has none. -/
def bodyOf (bs : List Body) (t : Nat) : List Byte := ((bodies bs t).head?.map fun b => b.2).getD []

/-- Whether the image has a section of a type. -/
def hasBody (bs : List Body) (t : Nat) : Bool := !(bodies bs t).isEmpty

/-- Whether the sections stand as R399 asks: known types, single ones once, a length of 1 to 512 MiB, offsets
multiples of 64, ascending, apart from one another, from the header and from the section directory, within the image, which the last of them
ends (R397), and the required types (REGS and RELOC; the conditional ones are checked with what they depend on). ROLLBACK lies in its range,
and what Tables 11.4 and 11.6 have at 0 is 0 (DEDUCED, log entry 75). -/
def arranged (i : Image) (ss : List Sect) : Bool :=
  decide (1 ≤ i.sections_ ∧ i.sections_ ≤ 4096 ∧ i.dirOfs % 64 = 0 ∧ 0x200 ≤ i.dirOfs) &&
  decide (i.rollback ≤ 64) && i.reserved.all (fun b => decide (b = 0)) && ss.all (fun s => decide (s.reserved = 0)) &&
  ss.all (fun s => decide (0x200 ≤ s.ofs) && !spansMeet (s.ofs, s.len) (i.dirOfs, 64 * i.sections_)) &&
  decide ((ss.map fun s => s.ofs + s.len).foldl max 0 = i.imageLen) &&
  ss.all (fun s => decide (1 ≤ s.ty ∧ s.ty ≤ 12 ∧ 1 ≤ s.len ∧ s.len ≤ 536870912 ∧ s.ofs % 64 = 0 ∧
    s.ofs + s.len ≤ i.imageLen)) &&
  (ss.zip ss.tail).all (fun p => decide (p.1.ofs + p.1.len ≤ p.2.ofs)) &&
  ss.all (fun s => !singleType s.ty || decide ((ss.filter fun x => decide (x.ty = s.ty)).length = 1)) &&
  ss.all (fun s => singleType s.ty ||
    decide ((ss.filter fun x => decide (x.ty = s.ty ∧ x.idx = s.idx)).length = 1)) &&
  (sectOf ss stRegs).isSome && (sectOf ss stReloc).isSome

/-! The Undercoat (Table 11.10) -/

/-- The three fuses of each bit of Undercoat word w. -/
def Dev.fuses (d : Dev) (w : Nat) : Nat × Nat × Nat :=
  let a := SMap.get (fun _ => 0) d.boot.und w
  (a, Nat.xor a (SMap.get (fun _ => 0) d.boot.undOdd.1 w), Nat.xor a (SMap.get (fun _ => 0) d.boot.undOdd.2 w))

/-- Undercoat word w as the majority of its fuses reads (R406). -/
def Dev.fuseWord (d : Dev) (w : Nat) : Nat :=
  let x := d.fuses w
  (x.1 &&& x.2.1) ||| (x.1 &&& x.2.2) ||| (x.2.1 &&& x.2.2)

/-- The bits of Undercoat word w whose fuses disagree. -/
def Dev.fuseOdd (d : Dev) (w : Nat) : Nat :=
  SMap.get (fun _ => 0) d.boot.undOdd.1 w ||| SMap.get (fun _ => 0) d.boot.undOdd.2 w

/-- The fuses of the bits b of Undercoat word w programmed; fuses change only from 0 to 1. -/
def Dev.burn (d : Dev) (w b : Nat) : Dev :=
  let x := d.boot
  let keep := fun (m : SMap Nat) => SMap.set (fun _ => 0) m w (SMap.get (fun _ => 0) m w &&& Nat.xor (2 ^ 32 - 1) (b % 2 ^ 32))
  { d with boot := { x with
      und := SMap.set (fun _ => 0) x.und w (SMap.get (fun _ => 0) x.und w ||| b), undOdd := (keep x.undOdd.1, keep x.undOdd.2) } }

/-- The digest of key k. -/
def Dev.keyDigest (d : Dev) (k : Nat) : List Byte := ((List.range 8).map fun j => leBytes 4 (d.fuseWord (8 * k + j))).flatten

/-- Key k is programmed; key k is revoked; key k may sign slot F. -/
def Dev.keyPresent (d : Dev) (k : Nat) : Bool := decide (k < 4) && bitAt (d.fuseWord 32) k
def Dev.keyRevoked (d : Dev) (k : Nat) : Bool := bitAt (d.fuseWord 32) (4 + k)
def Dev.keyForF (d : Dev) (k : Nat) : Bool :=
  decide (bitsOf (d.fuseWord 32) 8 4 = 0) || bitAt (d.fuseWord 32) (8 + k)

/-- Consecutive set bits of x from bit 0 on. -/
def onesFrom0 : Nat → Nat → Nat
  | 0, _ => 0
  | n + 1, x => if x % 2 = 1 then 1 + onesFrom0 n (x / 2) else 0

/-- The Undercoat rollback count C (R405). -/
def Dev.rollbackCount (d : Dev) : Nat := onesFrom0 64 (d.fuseWord 33 + 2 ^ 32 * d.fuseWord 34)

/-! Checks 1 to 8 of Table 11.8 -/

/-- Checks 2 to 7 on the header of a slot of the given length; c is the rollback count it must reach. The answer
is the reason code of the first check that fails. -/
def Dev.headerFault (d : Dev) (m : SMap Byte) (slot : Nat) (i : Image) (len c : Nat) : Option Nat :=
  if ¬(flashNat m i.base 4 = 0x5A50524D ∧ flashNat m (i.base + 4) 2 = 1 ∧ flashNat m (i.base + 6) 2 = 0x200 ∧
      0x200 ≤ i.imageLen ∧ i.imageLen ≤ len) then some 0x03
  else if ¬(i.part = d.part ∧ i.fitted = d.fitted) then some 0x04
  else if !(d.keyPresent i.keyIndex && !d.keyRevoked i.keyIndex && (decide (slot ≠ 2) || d.keyForF i.keyIndex)) then some 0x05
  else if shake256x32 i.pubkey ≠ d.keyDigest i.keyIndex then some 0x06
  else if !ed448Verify i.pubkey (asciiBytes "ZRT Primer") i.signed i.sig then some 0x07
  else if i.rollback < c then some 0x08
  else none

/-- Checks 1 to 8 on a slot of the directory in use; flashError says that a read failed. -/
def Dev.slotFault (d : Dev) (m : SMap Byte) (dir : Directory) (slot : Nat) (flashError : Bool) : Option Nat :=
  let s := dir.slots.getD slot (0, 0)
  let i := imageAt m s.1
  if s.2 = 0 then some 0x02
  else if flashError then some 0x0E
  else match d.headerFault m slot i s.2 d.rollbackCount with
    | some r => some r
    | none =>
      if shake256x32 (flashBytes m (i.base + i.dirOfs) (64 * i.sections_)) ≠ i.dirDigest then some 0x09 else none

/-! Names for the loader's use -/

/-- The image of the slot under trial, in the flash or in its staged copy. -/
def Dev.imageIn (d : Dev) (m : SMap Byte) : Option Image :=
  match d.boot.slot, directoryOf m d.boot.flashLen with
  | some k, some (_, dir) => some (imageAt m (dir.slots.getD k (0, 0)).1)
  | _, _ => none

/-- The records of a REGS section: window offset and value (Table 11.7). -/
def regRecords : Nat → List Byte → List (Nat × Nat)
  | 0, _ => []
  | n + 1, bs => (leAt bs 0 4, leAt bs 4 4) :: regRecords n (bs.drop 8)

/-- All records of a REGS section. -/
def regsOf (bs : List Byte) : List (Nat × Nat) := regRecords (bs.length / 8) bs

/-- Registers that read 0 and ignore writes whatever their row says: profile 0 (Table 3.8), TIME_EN of TMS port 0 (Table 9.9)
and TMS port 7 (Table 9.8). -/
def reservedReg (a : Nat) : Bool :=
  (decide (Reg.prmPcfg 0 ≤ a) && decide (a < Reg.prmPcfg 1)) || decide (a = Reg.ptCfg 0) ||
    (decide (Reg.ptCfg 7 ≤ a) && decide (a < Reg.ptCfg 8))

/-- A register with the PR and LV bits of a Primer record applied. -/
def Dev.primerWrite (d : Dev) (r : Nat × Nat) : Dev :=
  if reservedReg r.1 then d
  else match regRow r.1 with
  | none => d
  | some w =>
    let m := w.lv ||| w.pr
    d.wr r.1 ((d.rd r.1 &&& (m ^^^ (2 ^ 32 - 1))) ||| (r.2 % 2 ^ 32 &&& m))

end Sys2Proof.Machine
end

