-- ==== Sys2Proof/Machine/Clocks.lean ====
section
/-!
DEFINITION. References, loops, clock generators, gates, power domains, temperatures and FAULT ("Clock islands and the
36 power domains"; R465, R466), with the log entry of a live write.
-/

namespace Sys2Proof.Machine

open Sys2Proof

/-! The outcome of a live write (R414, R417, R427) -/

/-- LOG_WRRESULT of an origin. -/
def Dev.setResult (d : Dev) (o : Origin) (w : Nat) : Dev :=
  { d with log := { d.log with results := (o, w) :: d.log.results.filter fun x => decide (x.1 ≠ o) } }

/-- A live write logged once with its status; under LOG_MANDATORY a refusal with the on-die log full is counted instead. -/
def Dev.liveEntry (d : Dev) (o : Origin) (a old new : Nat) (st : Status) : Dev :=
  let d := d.countIf (decide (st ≠ .ok)) Reg.logRefusals
  if d.log.opened then
    if decide (st ≠ .ok) && d.logMandatory && d.logFull then
      (d.count Reg.logUnlogged).setResult o (st.code + 256 * ((d.log.written + 2 ^ 24 - 1) % 2 ^ 24))
    else (d.logWrite o a old new st).setResult o (st.code + 256 * (d.log.written % 2 ^ 24))
  else d.setResult o st.code

/-! Power domains (R497 to R499, Table 14.6) -/

/-- Whether bit b of the fitted-unit word as fused is set; GLB_FITTED shows it from step 4 on. -/
def Dev.fusedFit (d : Dev) (b : Nat) : Bool := bitAt (d.fuseWord 35 + 2 ^ 32 * d.fuseWord 36) b

/-- Whether one of the units of a domain is fitted. -/
def Dev.domFitted (d : Dev) (k : Nat) : Bool :=
  if k = 1 then d.fusedFit 36
  else if k = 7 then (List.range 4).any fun c => d.fusedFit (16 + c)
  else if k = 8 then (List.range 4).any fun c => d.fusedFit (20 + c)
  else if 9 ≤ k ∧ k ≤ 12 then d.fusedFit (24 + (k - 9))
  else if k = 13 ∨ k = 14 then (List.range 3).any fun p => d.fusedFit (28 + 3 * (k - 13) + p)
  else if 16 ≤ k ∧ k < 36 then
    let n := (k - 16) / 5
    let j := (k - 16) % 5
    if j < 2 then d.fusedFit n else d.fusedFit (stackFitBit (3 * n + (j - 2)))
  else decide (k < 16)

/-- The start-up step at whose beginning a domain switches on; 0 for XMAIN. -/
def domStep (k : Nat) : Nat :=
  if k = 0 then 0
  else if k = 1 ∨ k = 3 ∨ k = 15 then 3
  else if k < 9 then 7
  else if k < 15 then 9
  else if (k - 16) % 5 = 0 then 3 else 7

/-- A domain of step 9 has a lane with ENABLE or a used port. -/
def Dev.domUsed (d : Dev) (k : Nat) : Bool :=
  if 9 ≤ k ∧ k ≤ 12 then (List.range 16).any fun i => d.flag (Reg.ingLcfg (16 * (k - 9) + i)) Fld.ingLcfgEnable
  else if k = 13 ∨ k = 14 then (List.range 3).any fun p => d.flag (Reg.mpCfg (3 * (k - 13) + p)) Fld.mpCfgUsed
  else true

/-- PWR_DOM_ON as one word. -/
def Dev.domOn (d : Dev) : Nat := d.rd Reg.pwrDomOnLo + 2 ^ 32 * d.rd Reg.pwrDomOnHi

/-- A domain switched on or off. -/
def Dev.setDom (d : Dev) (k : Nat) (b : Bool) : Dev :=
  if k < 32 then d.wr Reg.pwrDomOnLo (putBit (d.rd Reg.pwrDomOnLo) k b)
  else d.wr Reg.pwrDomOnHi (putBit (d.rd Reg.pwrDomOnHi) (k - 32) b)

/-- The first domain due switches on. -/
def Dev.nextDom (d : Dev) : Dev :=
  match d.pwr.due with
  | [] => d
  | k :: _ => d.setDom k true

/-- The domains of a step become due, in ascending number. -/
def Dev.domsDue (d : Dev) (step : Nat) : Dev :=
  let ks := (List.range 36).filter fun k => decide (domStep k = step) && d.domFitted k && d.domUsed k
  ({ d with pwr := { d.pwr with due := d.pwr.due ++ ks } }).nextDom

/-- A domain reports power good, and the next one due switches on. -/
def Dev.powerGood (d : Dev) : Dev := ({ d with pwr := { d.pwr with due := d.pwr.due.drop 1 } }).nextDom

/-- Domains switched off, in descending number. -/
def Dev.domsOff (d : Dev) (ks : List Nat) : Dev :=
  let d := { d with pwr := { d.pwr with due := d.pwr.due.filter fun k => !ks.contains k } }
  ks.reverse.foldl (fun f k => f.setDom k false) d

/-- The domains that switch off at the end of step 8 (Table 14.6). -/
def Dev.idleDoms (d : Dev) : List Nat :=
  (if d.isAnchor then [] else [3]) ++
  ([7, 8].filter fun k => !d.upChannels.any fun c => decide (c / 4 = k - 7)) ++
  ((List.range 12).filter fun s => decide (d.stackState s ≠ skUp)).map fun s => 18 + 5 * (s / 3) + s % 3

/-! FAULT (R465, R466, R499) -/

/-- DEC and TMARK outputs idle. -/
def Dev.outputsIdle (d : Dev) : Dev :=
  let d := (List.range 32).foldl (fun f k => match f.decEnd k with
    | some _ => (f.setDecEnd k none).emit (.decEdge k (f.decLevel k false) f.netNs)
    | none => f) d
  (List.range 16).foldl (fun f g => match (f.gen g).pulseEnd with
    | some _ => (f.setGen g { f.gen g with pulseEnd := none }).emit
        (.tmarkEdge g (f.flag (Reg.mkCtl g) Fld.mkCtlInvert) f.net16)
    | none => f) d

/-- The device stops in FAULT: FAULT_N low, outputs idle, and after step 3 every domain off but XMAIN and XHOST. -/
def Dev.enterFault (d : Dev) : Dev :=
  let d := (d.setMode 3).outputsIdle
  if 3 < d.fld Reg.bootStat Fld.bootStatStep then d.domsOff ((List.range 36).filter fun k => decide (k ≠ 0 ∧ k ≠ 3)) else d

/-! Temperatures (R500) -/

/-- What the HPC measures beside the temperatures: the core rails of fitted dies (4 for the X-die) and the input power (Table 14.10). -/
def Dev.supplyRead (d : Dev) (rails : List (BitVec 10)) (watts : BitVec 16) : Dev :=
  let d := (List.range 5).foldl (fun f i => match rails[i]? with
    | some v => if i = 4 ∨ f.fusedFit i then f.setFld (Reg.pwrDie i) Fld.pwrDieVmeasMv v.toNat else f
    | none => f) d
  d.setFld Reg.pwrWatts Fld.pwrWattsWatts watts.toNat

/-- The readings of a temperature round: dies (4 for the X-die), stacks, modules. -/
def Dev.temperatures (d : Dev) (dies stks mods : List Byte) : Dev :=
  let ts := (List.range 5).filterMap fun i =>
    if i = 4 ∨ d.fusedFit i then (dies[i]?).map fun t => (i, t.toNat) else none
  let d := ts.foldl (fun f x => f.setFld (Reg.pwrDie x.1) Fld.pwrDieTjC x.2) d
  let d := (List.range 12).foldl (fun f s => match stks[s]? with
    | some t => if f.fit (stackFitBit s) then f.setFld (Reg.stkTemp s) Fld.stkTempDegC t.toNat else f
    | none => f) d
  let d := (List.range 8).foldl (fun f c => match mods[c]? with
    | some t => if f.fit (16 + c) then f.setFld (Reg.chTemp c) Fld.chTempDegC t.toNat else f
    | none => f) d
  let d :=
    if (ts.any fun x => decide (110 ≤ x.2)) && !d.flag Reg.pwrStat Fld.pwrStatOvertemp then
      let before := d.rd Reg.pwrStat
      let d := d.setFld Reg.pwrStat Fld.pwrStatOvertemp 1
      d.logInternal Reg.pwrStat before (d.rd Reg.pwrStat) .ok
    else if (ts.all fun x => decide (x.2 < 105)) && !ts.isEmpty then d.setFld Reg.pwrStat Fld.pwrStatOvertemp 0
    else d
  if (ts.any fun x => decide (120 ≤ x.2)) && decide (d.mode ≠ 3) then
    let before := d.rd Reg.glbState
    let d := d.enterFault
    d.logInternal Reg.glbState before (d.rd Reg.glbState) .degraded
  else d

/-! Loops (R476 to R479, Table 14.2) -/

/-- A unit that loop i clocks is fitted. -/
def Dev.loopFitted (d : Dev) (i : Nat) : Bool :=
  if i = 1 then d.fusedFit 36
  else if i = 2 then d.fusedFit 24 || d.fusedFit 25
  else if i = 3 then d.fusedFit 26 || d.fusedFit 27
  else if i = 4 then (List.range 6).any fun p => d.fusedFit (28 + p)
  else if i = 7 then (List.range 8).any fun c => d.fusedFit (16 + c)
  else if i < 10 then true
  else decide (i < 18) && d.fusedFit ((i - 10) / 2)

/-- Loop i is locked; it failed to lock at this start. -/
def Dev.locked (d : Dev) (i : Nat) : Bool := bitAt (d.rd Reg.clkLock) i
def Dev.loopFailed (d : Dev) (i : Nat) : Bool := bitAt (d.rd Reg.clkFailed) i

/-- The loop of a lane. -/
def laneLoop (l : LaneId) : Nat := if l.val < 32 then 2 else if l.val < 64 then 3 else 4

/-- Loop i takes the reference in use. -/
def Dev.onRef (d : Dev) (i : Nat) : Bool :=
  decide (i ≠ 6) && !(decide (i = 1) && d.flag Reg.clkStat Fld.clkStatTimeOnOsc)

/-- The reference of loop i is qualified. -/
def Dev.refGood (d : Dev) (i : Nat) : Bool :=
  if i = 6 then d.flag Reg.clkStat Fld.clkStatRefclkQ
  else if d.onRef i then
    let u := d.fld Reg.clkStat Fld.clkStatRefInUse
    decide (u < 2) && bitAt (d.rd Reg.clkStat) u
  else d.flag Reg.clkStat Fld.clkStatTimeoscQ

/-- TIMEOSC_LOST of the time state (R324). -/
def Dev.setOscLost (d : Dev) (b : Bool) : Dev := d.wr Reg.tmsStat (putBit (d.rd Reg.tmsStat) 5 b)

/-- The lanes of unlocked loops lose lock and hunt again; the Ethernet link drops with its loop (R478). -/
def Dev.islandsDrop (d : Dev) (ls : List Nat) : Dev :=
  let d := (List.range 88).foldl (fun f k =>
    let l : LaneId := ⟨k % 88, Nat.mod_lt _ (by decide)⟩
    if ls.contains (laneLoop l) ∧ (f.laneState l = lsTrain ∨ f.laneState l = lsService) then
      (f.laneCount l Reg.ingLockLoss).newTry l
    else f) d
  let d := d.portsSync
  if ls.contains 5 then { d with tms := { d.tms with ethUp := false } } else d

/-- Locked loops leave their reference: they coast (loss) or relock. -/
def Dev.unlock (d : Dev) (ls : List Nat) (loss : Bool) : Dev :=
  let ls := ls.filter d.locked
  let d := ls.foldl (fun f i =>
    let f := f.wr Reg.clkLock (putBit (f.rd Reg.clkLock) i false)
    if loss then f.wr Reg.clkLoss (putBit (f.rd Reg.clkLoss) i true) else f) d
  ({ d with clk := { d.clk with coasting := d.clk.coasting ++ ls } }).islandsDrop ls

/-- A loop locks at step 3, if its unit is fitted and its reference is there; SYS starts the move of XMAIN (R476, R483). -/
def Dev.loopLock (d : Dev) (i : Nat) : Dev :=
  if d.fld Reg.bootStat Fld.bootStatStep = 3 ∧ d.loopFitted i = true ∧ d.locked i = false ∧ d.loopFailed i = false ∧
      d.refGood i = true then
    let d := d.wr Reg.clkLock (putBit (d.rd Reg.clkLock) i true)
    if i = 0 then { d with clk := { d.clk with xmain := { d.clk.xmain with before := true } } } else d
  else d

/-- What the failure of a loop leaves of the units it clocks (R476): stacks and channels FAILED, TIMEOSC_LOST set; lanes and the
host endpoint look at CLK_FAILED when they would start. -/
def Dev.loopFails (d : Dev) (i : Nat) : Dev :=
  let d := d.wr Reg.clkFailed (putBit (d.rd Reg.clkFailed) i true)
  if i = 1 then d.setOscLost true
  else if i = 7 then (List.range 8).foldl (fun f c =>
    if f.fusedFit (16 + c) then f.setFld (Reg.chStat c) Fld.chStatState 3 else f) d
  else if 10 ≤ i ∧ i % 2 = 0 then (List.range 3).foldl (fun f k =>
    let s := 3 * ((i - 10) / 2) + k
    if f.fusedFit (stackFitBit s) then f.setStackState s skFailed else f) d
  else d

/-- 10 ms after step 3 began: every loop of a fitted unit that has not locked is failed; SYS failed stops start-up. -/
def Dev.loopTimeout (d : Dev) : Dev :=
  if d.fld Reg.bootStat Fld.bootStatStep = 3 ∧ d.boot.stepAt + 10000000 ≤ d.devNs then
    let late := (List.range 18).filter fun i => d.loopFitted i && !d.locked i && !d.loopFailed i
    let d := late.foldl Dev.loopFails d
    if late.contains 0 then d.enterFault else d
  else d

/-- A loop that coasts or relocks locks to its reference again. -/
def Dev.relock (d : Dev) (i : Nat) : Dev :=
  if d.clk.coasting.contains i && d.refGood i then
    let d := d.wr Reg.clkLock (putBit (d.rd Reg.clkLock) i true)
    { d with clk := { d.clk with coasting := d.clk.coasting.filter fun x => decide (x ≠ i) } }
  else d

/-! References (R470 to R475, R478, R479) -/

/-- TIME moves to a qualified TIMEOSC (R479, R323). -/
def Dev.timeToOsc (d : Dev) : Dev :=
  if d.flag Reg.clkStat Fld.clkStatTimeoscQ && !d.loopFailed 1 && !d.flag Reg.clkStat Fld.clkStatTimeOnOsc then
    (d.setFld Reg.clkStat Fld.clkStatTimeOnOsc 1).setOscLost false
  else d

/-- Nominal frequencies of an input and of its comparison clock in Hz, and its band in ppm below and above (Table 14.1; the ring oscillator's
is the middle of R470's range, log entry 68). -/
def refBand (r : RefInput) (sel : Nat) : Nat × Nat × Nat × Nat :=
  match r with
  | .refA => (156250000, 500000000, 250000, 250000)
  | .refB => (156250000, 500000000, 250000, 250000)
  | .refClk => (100000000, 1000000000, 5600, 600)
  | .timeOsc => (if sel = 1 then 10000000 else 100000000, 1000000000, 300, 300)

/-- The windows of an input qualify it (R471): 8 of them, each within 100 ppm of the first, with a mean in the input's band; one in the band
for REFCLK. -/
def windowsOk (r : RefInput) (sel : Nat) (counts : List Nat) : Bool :=
  let (x, y, lo, hi) := refBand r sel
  let first := counts.headD 0
  let cycles := 65536 * y * counts.length * 1000000
  let sum := counts.sum
  decide (x * (1000000 - lo) * sum ≤ cycles ∧ cycles ≤ x * (1000000 + hi) * sum) &&
    (if r = .refClk then decide (counts.length = 1)
     else decide (counts.length = 8) && counts.all fun c =>
      decide (1000000 * c ≤ 1000100 * first ∧ 999900 * first ≤ 1000000 * c))

/-- REFA and REFB have both qualified and differ by more than 500 ppm of REFA (R473, log entry 68). -/
def Dev.refsDisagree (d : Dev) : Bool :=
  let (a, b) := d.boot.refSums
  d.flag Reg.clkStat Fld.clkStatRefaQ && d.flag Reg.clkStat Fld.clkStatRefbQ &&
    decide (1000500 * b < 1000000 * a ∨ 1000000 * a < 999500 * b)

/-- The qualified bit of REFA or REFB set, with what its windows counted. -/
def Dev.refQualifies (d : Dev) (f : Fld) (sums : Nat × Nat) : Dev :=
  let d := { d.setFld Reg.clkStat f 1 with boot := { d.boot with refSums := sums } }
  if d.refsDisagree then d.setFld Reg.clkStat Fld.clkStatRefDisagree 1 else d

/-- An input qualifies, if its windows show it. TIMEOSC qualifies once the image has selected it, and TIME moves to it at its first
qualification of a start. -/
def Dev.refQualified (d : Dev) (r : RefInput) (counts : List Nat) : Dev :=
  let sel := d.fld Reg.clkCfg Fld.clkCfgTimeoscSel
  if !windowsOk r sel counts then d
  else match r with
  | .refA => d.refQualifies Fld.clkStatRefaQ (counts.sum, d.boot.refSums.2)
  | .refB =>
    let d := d.refQualifies Fld.clkStatRefbQ (d.boot.refSums.1, counts.sum)
    { d with boot := { d.boot with refbAt := some d.devNs } }
  | .refClk => if d.locked 0 then d.setFld Reg.clkStat Fld.clkStatRefclkQ 1 else d
  | .timeOsc =>
    if d.locked 0 ∧ (sel = 1 ∨ sel = 2) then
      let d := d.setFld Reg.clkStat Fld.clkStatTimeoscQ 1
      if bitAt (d.rd Reg.tmsStat) 5 then d else d.timeToOsc
    else d

/-- TIME returns to a TIMEOSC that has qualified again, and TIMEOSC_LOST clears (R323). -/
def Dev.oscRequalified (d : Dev) : Dev := if bitAt (d.rd Reg.tmsStat) 5 then d.timeToOsc else d

/-- The bit of an input in CLK_STAT. -/
def refBit : RefInput → Nat
  | .refA => 0 | .refB => 1 | .refClk => 2 | .timeOsc => 3

/-- A qualified input is lost: counted and logged; the loops that use it coast, and when it is the reference in use, the other of
REFA and REFB becomes that if it is qualified. TIME leaves a lost TIMEOSC for the reference in use (R323). -/
def Dev.refLost (d : Dev) (r : RefInput) : Dev :=
  let b := refBit r
  if bitAt (d.rd Reg.clkStat) b then
    let before := d.rd Reg.clkStat
    let d := (d.wr Reg.clkStat (putBit (d.rd Reg.clkStat) b false)).count Reg.clkRefLoss
    let d := d.logInternal Reg.clkStat before (d.rd Reg.clkStat) .ok
    if b = 2 then d.unlock [6] true
    else if b = 3 then
      if d.flag Reg.clkStat Fld.clkStatTimeOnOsc then
        ((d.unlock [1] true).setFld Reg.clkStat Fld.clkStatTimeOnOsc 0).setOscLost true
      else d
    else if d.fld Reg.clkStat Fld.clkStatRefInUse = b then
      let d := d.unlock ((List.range 18).filter d.onRef) true
      if bitAt (d.rd Reg.clkStat) (1 - b) then d.setFld Reg.clkStat Fld.clkStatRefInUse (1 - b) else d
    else d
  else d

/-- REF_PRIMARY of REFB at step 7, once REGS has passed (R474). -/
def Dev.takePrimary (d : Dev) : Dev :=
  if d.flag Reg.clkCfg Fld.clkCfgRefPrimary && decide (d.fld Reg.clkStat Fld.clkStatRefInUse = 0) then
    let before := d.rd Reg.clkStat
    if d.flag Reg.clkStat Fld.clkStatRefbQ then
      let d := (d.unlock ((List.range 18).filter d.onRef) false).setFld Reg.clkStat Fld.clkStatRefInUse 1
      d.logInternal Reg.clkStat before (d.rd Reg.clkStat) .ok
    else d.logInternal Reg.clkStat before before .refused
  else d

/-! Clock generators (R481 to R483, R489) -/

/-- The smallest divider of f MHz that gives at most XMAIN's floor of 125 MHz, one-eighth of its nominal 1 GHz. -/
def floorDiv (f : Nat) : Nat := ceilDiv f 125

/-- XMAIN takes its other source at that source's floor divider; counted. -/
def Dev.takeSource (d : Dev) (sys : Bool) : Dev :=
  ({ d with clk := { d.clk with
      onSys := sys, xmain := ⟨floorDiv (if sys then 1000 else d.clk.ringMhz), 1, false, d.devNs⟩ } }).count Reg.clkRamps

/-- A generator has held its divider for 256 cycles of its output (R481): XMAIN's from SYS or the ring oscillator, AUXCLK's from 2.5 GHz. -/
def Dev.divHeld (d : Dev) (g : ClockGen) : Bool :=
  match g with
  | .xmain =>
    decide (256000 * d.clk.xmain.div ≤ (d.devNs - d.clk.xmain.at_) * (if d.clk.onSys then 1000 else d.clk.ringMhz))
  | .aux n =>
    decide (1024 * d.fld (Reg.auxStat n.val) Fld.auxStatDivNow ≤
      10 * (d.devNs - (if n.val = 0 then d.clk.aux0At else d.clk.aux1At)))

/-- XMAIN's divider put at v. -/
def Dev.setXdiv (d : Dev) (v : Nat) : Dev :=
  { d with clk := { d.clk with xmain := { d.clk.xmain with div := v, at_ := d.devNs } } }

/-- An AUXCLK divider begins a new hold. -/
def Dev.auxHolds (d : Dev) (n : Fin 2) : Dev :=
  if n.val = 0 then { d with clk := { d.clk with aux0At := d.devNs } } else { d with clk := { d.clk with aux1At := d.devNs } }

/-- A generator's divider moves by 1 once it is held long enough: XMAIN's away from a source that it leaves, until the floor, or toward its
target; AUXCLK's toward DIV. -/
def Dev.divStep (d : Dev) (g : ClockGen) : Dev :=
  if !d.divHeld g then d
  else match g with
  | .xmain =>
    let x := d.clk.xmain
    if x.before then
      if x.div < floorDiv d.clk.ringMhz then d.setXdiv (x.div + 1) else d.takeSource true
    else if x.goal < x.div then d.setXdiv (x.div - 1)
    else d
  | .aux n =>
    let d := d.auxHolds n
    let a := Reg.auxStat n.val
    let v := d.fld a Fld.auxStatDivNow
    let goal := d.fld (Reg.auxCtl n.val) Fld.auxCtlDiv
    let v' := if v < goal then v + 1 else if goal < v then v - 1 else v
    (d.setFld a Fld.auxStatDivNow v').setFld a Fld.auxStatRamping (bit01 (decide (v' ≠ goal)))

/-- 64 ring-oscillator periods without an edge of the old source of XMAIN: a forced switch, counted and logged; an edge that
resolves together with the last period prevents it (R34), and one after it is ignored and counted. -/
def Dev.forcedSwitch (d : Dev) (tie lateEdge : Bool) : Dev :=
  if lateEdge then d.countIf d.clk.forced Reg.clkLateArrival
  else if tie then d
  else if d.clk.xmain.before || d.clk.onSys then
    let st := d.rd Reg.clkStat
    let d := (d.takeSource d.clk.xmain.before).count Reg.clkForced
    ({ d with clk := { d.clk with forced := true } }).logInternal Reg.clkStat st st .switchForced
  else d

/-! Gating (R484 to R488, Table 14.3) -/

/-- The bit of a live target in CLK_GATE and CLK_GATED. -/
def liveGate : GateTarget → Option Nat
  | .ingestGroup g => some g.val
  | .meshPort p => some (4 + p.val)
  | .auxClk n => some (10 + n.val)
  | _ => none

/-- The lanes behind a bit of CLK_GATE. -/
def gateLanes (b : Nat) : List LaneId :=
  let ks := if b < 4 then (List.range 16).map fun i => 16 * b + i
    else if b < 10 then (List.range 4).map fun j => 64 + 4 * (b - 4) + j
    else []
  ks.map fun k => ⟨k % 88, Nat.mod_lt _ (by decide)⟩

/-- The register and bit that show the gate of a target. -/
def gateReg : GateTarget → Nat × Nat
  | .ingestGroup g => (Reg.clkGated, g.val)
  | .meshPort p => (Reg.clkGated, 4 + p.val)
  | .auxClk n => (Reg.clkGated, 10 + n.val)
  | .stackPhy s => (Reg.clkGated, 12 + s.val)
  | .recChannel c => (Reg.clkGated, 24 + c.val)
  | .dieLink n k => (Reg.clkGatedLink, 4 * n.val + k.val)

/-- A gate in effect or lifted; gated lanes are OFFLINE, and ungated ones hunt unless ADMIN_OFF holds them (R488). -/
def Dev.setGate (d : Dev) (t : GateTarget) (b : Bool) : Dev :=
  let x := gateReg t
  let d := d.wr x.1 (putBit (d.rd x.1) x.2 b)
  match liveGate t with
  | some k => ((gateLanes k).foldl (fun f l => if b then f.laneOff l else f.laneOn l) d).portsSync
  | none => d

/-- CLK_GATE with the bit of a write applied, and the write logged. -/
def Dev.gateWritten (d : Dev) (o : Origin) (bit : Nat) (b : Bool) : Dev :=
  let before := d.rd Reg.clkGate
  let d := d.wr Reg.clkGate (putBit before bit b)
  d.liveEntry o Reg.clkGate before (d.rd Reg.clkGate) .ok

/-- The target of a bit of CLK_GATE. -/
def gateOfBit (b : Nat) : GateTarget :=
  if b < 4 then .ingestGroup ⟨b % 4, Nat.mod_lt _ (by decide)⟩
  else if b < 10 then .meshPort ⟨(b - 4) % 6, Nat.mod_lt _ (by decide)⟩
  else .auxClk ⟨(b - 10) % 2, Nat.mod_lt _ (by decide)⟩

/-- A CLK_GATE write that passed its checks and changes at most one bit: a request to gate lanes waits for its outcome; the rest
takes effect at once. -/
def Dev.gateWrite (d : Dev) (o : Origin) (v : Nat) : Dev :=
  let before := d.rd Reg.clkGate
  match (List.range 12).find? fun b => bitAt v b != bitAt before b with
  | none => d.liveEntry o Reg.clkGate before before .ok
  | some b =>
    let t := gateOfBit b
    if bitAt v b && decide (b < 10) then
      { d with clk := { d.clk with gates := d.clk.gates ++ [⟨t, d.devNs, some (o, before, v)⟩] } }
    else (d.gateWritten o b (bitAt v b)).setGate t (bitAt v b)

/-- The answer on the management bus to a CLK_GATE write of the HMB that waited for its outcome (R524). -/
def Dev.gateAnswer (d : Dev) (o : Origin) (st : Status) : Dev :=
  if o.cls = .hmb then d.emit (.mgtResponse st.code none) else d

/-- The interface of a target acknowledges: its requests take effect; an acknowledgement after the refusal is counted (R485). -/
def Dev.quiesced (d : Dev) (t : GateTarget) : Dev :=
  let mine := d.clk.gates.filter fun x => decide (x.target = t)
  if mine.isEmpty then d.count Reg.clkLateArrival
  else
    let d := { d with clk := { d.clk with
      gates := d.clk.gates.filter fun x => decide (x.target ≠ t),
      retries := d.clk.retries.filter fun x => decide (x.target ≠ t) } }
    let d := mine.foldl (fun f x => match x.live, liveGate t with
      | some w, some b => (f.gateWritten w.1 b true).gateAnswer w.1 .ok
      | _, _ => f) d
    d.setGate t true

/-- One request refused: the write's entry, or for the HPC the entry of its first refusal. -/
def Dev.gateRefused (d : Dev) (x : GateReq) : Dev :=
  let d := d.count Reg.clkGateRefused
  match x.live with
  | some w => (d.liveEntry w.1 Reg.clkGate (d.rd Reg.clkGate) w.2.2 .gateRefused).gateAnswer w.1 .gateRefused
  | none =>
    let again := d.clk.retries.any fun y => decide (y.target = x.target)
    let rest := d.clk.retries.filter fun y => decide (y.target ≠ x.target)
    let d := { d with clk := { d.clk with retries := rest ++ [⟨x.target, d.devNs⟩] } }
    let a := (gateReg x.target).1
    if again then d else d.logInternal a (d.rd a) (d.rd a) .gateRefused

/-- 4,096 ns of device time without an acknowledgement; one that resolves together with the expiry wins (R34). -/
def Dev.gateTimeout (d : Dev) (t : GateTarget) (tie : Bool) : Dev :=
  let due (x : GateReq) : Bool := decide (x.target = t) && decide (x.since + 4096 ≤ d.devNs)
  if tie then d
  else
    let out := d.clk.gates.filter due
    out.foldl Dev.gateRefused { d with clk := { d.clk with gates := d.clk.gates.filter fun x => !due x } }

/-- A refused gate of the HPC is requested again after a second. -/
def Dev.gateRetry (d : Dev) (t : GateTarget) : Dev :=
  let due := d.clk.retries.any fun x => decide (x.target = t) && decide (x.at_ + 1000000000 ≤ d.devNs)
  if due && !d.clk.gates.any (fun x => decide (x.target = t)) then
    { d with clk := { d.clk with gates := d.clk.gates ++ [⟨t, d.devNs, none⟩] } }
  else d

/-! AUXCLK (R489, R490) -/

/-- An accepted AUX_CTL in force: a new DIV ramps. -/
def Dev.auxWritten (d : Dev) (n : Nat) : Dev :=
  d.setFld (Reg.auxStat n) Fld.auxStatRamping
    (bit01 (decide (d.fld (Reg.auxStat n) Fld.auxStatDivNow ≠ d.fld (Reg.auxCtl n) Fld.auxCtlDiv)))

/-! The flash bridge (R495, R496) -/

/-- Free bytes, each of its own. -/
def Dev.openBytes (d : Dev) (k : OpenValue) (n : Nat) : List Byte × Dev :=
  ((List.range n).map fun i => BitVec.ofNat 8 (freeValue k (d.freeCtr + i)), { d with freeCtr := d.freeCtr + n })

/-- The page buffer. -/
def Dev.pageBuf (d : Dev) : List Byte := ((List.range 64).map fun i => leBytes 4 (d.rd (Reg.hmbFlBuf i))).flatten

/-- Bytes written into the page buffer from its beginning. -/
def Dev.setPageBuf (d : Dev) (bs : List Byte) : Dev :=
  let all := bs ++ d.pageBuf.drop bs.length
  (List.range 64).foldl (fun f i => f.wr (Reg.hmbFlBuf i) (leAt all (4 * i) 4)) d

/-- A write of HMB_FL_CTL with GO from the HMB: the operation begins, unless one is under way; between the beginnings of step 5 and step 8
it is not carried out (R496). -/
def Dev.flashGo (d : Dev) (op len : Nat) : Dev :=
  if d.flag Reg.hmbFlCtl Fld.hmbFlCtlBusy then d
  else
    let step := d.fld Reg.bootStat Fld.bootStatStep
    let d := d.wr Reg.hmbFlCtl (op % 4 + 4 * (len % 256) + 2 ^ 11)
    { d with pwr := { d.pwr with
        flashOp := some ⟨op % 4, d.rd Reg.hmbFlAddr, len % 256 + 1, d.pageBuf, decide (5 ≤ step ∧ step ≤ 7)⟩ } }

/-- Flash bytes written from address a on. -/
def Dev.setFlash (d : Dev) (a : Nat) (bs : List Byte) : Dev :=
  { d with boot := { d.boot with flash := SMap.setList (fun _ => 0xFF) d.boot.flash a bs } }

/-- Place i of a page program that begins at address a: it stays within its 256-byte page (log entry 57). -/
def pageAt (a i : Nat) : Nat := a / 256 * 256 + (a + i) % 256

/-- The flash with n bytes of a page programmed: programming only clears bits (log entry 57). -/
def Dev.programPage (d : Dev) (a : Nat) (bs : List Byte) : Dev :=
  (List.range bs.length).foldl (fun f i =>
    f.setFlash (pageAt a i) [SMap.get (fun _ => 0xFF) f.boot.flash (pageAt a i) &&& bs.getD i 0xFF]) d

/-- The bridge's operation ends; what a failed one leaves in its target is open. -/
def Dev.flashDone (d : Dev) (err : Bool) : Dev :=
  match d.pwr.flashOp with
  | none => d
  | some o =>
    let d := { d with pwr := { d.pwr with flashOp := none } }
    let stop (f : Dev) (r : Nat) : Dev :=
      ((f.setFld Reg.hmbFlCtl Fld.hmbFlCtlBusy 0).setFld Reg.hmbFlCtl Fld.hmbFlCtlDone 1).setFld Reg.hmbFlCtl
        Fld.hmbFlCtlResult r
    let last := if o.op = 0 then o.addr + o.len else o.addr + 1
    if o.refused then stop d 1
    else if d.boot.flashLen < last then stop d 3
    else if o.op = 0 then
      if err then
        let (bs, d) := d.openBytes .flash o.len
        stop (d.setPageBuf bs) 2
      else stop (d.setPageBuf (flashBytes d.boot.flash o.addr o.len)) 0
    else if o.op = 1 then
      if err then
        let (bs, d) := d.openBytes .flash o.len
        stop ((List.range o.len).foldl (fun f i => f.setFlash (pageAt o.addr i) [bs.getD i 0]) d) 2
      else stop (d.programPage o.addr (o.data.take o.len)) 0
    else
      let base := o.addr / 65536 * 65536
      if err then
        let (bs, d) := d.openBytes .flash 65536
        stop (d.setFlash base bs) 2
      else stop (d.setFlash base (List.replicate 65536 0xFF)) 0

/-! The record-store channels and the Ethernet link (R384, R385, R315) -/

/-- Training of a channel ends. -/
def Dev.channelTrained (d : Dev) (c : Nat) (r : ChannelResult) : Dev :=
  if d.fld (Reg.chStat c) Fld.chStatState = 1 then
    match r with
    | .failed => d.setFld (Reg.chStat c) Fld.chStatState 3
    | .mismatch => d.setFld (Reg.chStat c) Fld.chStatState 4
    | .up cap speed =>
      let g := cap.toNat
      if g = 32 ∨ g = 64 ∨ g = 128 ∨ g = 256 then
        let now := d.fld Reg.recStat Fld.recStatSpeed
        let s := if d.upChannels.isEmpty then speed.toNat else if speed.toNat < now then speed.toNat else now
        ((d.setFld (Reg.chStat c) Fld.chStatState 2).setFld (Reg.chStat c) Fld.chStatCapGib g).setFld Reg.recStat
          Fld.recStatSpeed s
      else d.setFld (Reg.chStat c) Fld.chStatState 4
  else d

/-- The Ethernet link comes up, with its loop locked and its port started, once the REGS section has passed (Table 11.1), or goes down. -/
def Dev.ethLink (d : Dev) (up : Bool) : Dev :=
  { d with tms := { d.tms with
      ethUp := up && d.locked 5 && (d.boot.regsIn || decide (8 ≤ d.fld Reg.bootStat Fld.bootStatStep)) } }

end Sys2Proof.Machine
end

