-- ==== Sys2Proof/Machine/Graph.lean ====
section
/-!
DEFINITION. The sections that describe the fabric as the loader reads them ("What plenec and the device owe each other"):
CONTEXT parts (Tables 12.5 to 12.9), chunks (R442), the RELOC section (R443, R444), section tables (R445) and
the TIMING section (Tables 12.2, 12.3).
-/

namespace Sys2Proof.Machine

open Sys2Proof

/-! CONTEXT sections (R435) -/

/-- A core context entry (Table 12.6); counters as (MODE, BOUND, TAGSRC, RELOAD, LIMIT), descriptors sparse. -/
structure LCtx where
  core : Nat
  ctx : Nat
  group : Nat
  flags : Nat
  qclass : Nat
  stream : Nat
  ring : Nat
  counters : List (Nat × Nat × Nat × Nat × Nat)
  descs : SMap Nat
  deriving DecidableEq, Repr

/-- A circuit entry (Table 12.7) with its route elements (link id, OWN). -/
structure LCirc where
  id : Nat
  flags : Nat
  kc : Nat
  dstCl : Nat
  src : Nat
  dst : Nat
  route : List (Nat × Nat)
  deriving DecidableEq, Repr

/-- A reconvergence entry: join endpoint, D_req, short-path circuits. -/
structure LRec where
  join : Nat
  dreq : Nat
  circs : List Nat
  deriving DecidableEq, Repr

/-- A Drip set declaration: its number and its queue ids. -/
structure LDrip where
  set : Nat
  queues : List Nat
  deriving DecidableEq, Repr

/-- A CONTEXT section: logical cluster, cores used, core contexts, Roller segments, circuits, wheels (link, codes), entry
rows, reconvergences and Drip sets. -/
structure LSect where
  cl : Nat
  mask : Nat
  ctxs : List LCtx
  segs : List Nat
  circs : List LCirc
  wheels : List (Nat × Nat)
  rows : List Nat
  recs : List LRec
  drips : List LDrip
  deriving DecidableEq, Repr

/-- Offset and count of part p: the header's eight pairs stand from byte 0x10 on, in the order of Table 12.5
(PRESUMED, log entry 51). -/
def partAt (b : List Byte) (p : Nat) : Nat × Nat := (leAt b (0x10 + 8 * p) 4, leAt b (0x14 + 8 * p) 4)

/-- The entries of part p, n bytes each. -/
def partEntries (b : List Byte) (p n : Nat) : List (List Byte) :=
  (List.range (partAt b p).2).map fun i => sliceBytes b ((partAt b p).1 + n * i) n

/-- Entry sizes of Table 12.5. -/
def partSizes : List Nat := [33024, 8, 24, 8, 8, 16, 16, 64]

/-- Whether a CONTEXT section is formed as R435 states. -/
def contextFormed (b : List Byte) : Bool :=
  decide (128 ≤ b.length) && decide (leAt b 0 4 = 0x5A435458) && decide (leAt b 4 2 = 1) &&
  (List.range 8).all fun p =>
    let x := partAt b p
    if x.2 = 0 then decide (x.1 = 0)
    else decide (x.1 % 64 = 0) && decide (128 ≤ x.1) && decide (x.1 + x.2 * partSizes.getD p 0 ≤ b.length)

/-- A core context. -/
def lctxOf (b : List Byte) : LCtx :=
  { core := leAt b 0 1, ctx := leAt b 1 1, group := leAt b 2 1, flags := leAt b 3 1, qclass := leAt b 4 16,
    stream := leAt b 0x14 4, ring := leAt b 0x18 4,
    counters := (List.range 16).map fun k =>
      let o := 0x20 + 12 * k
      (leAt b o 1, leAt b (o + 1) 1, leAt b (o + 2) 1, leAt b (o + 4) 4, leAt b (o + 8) 4),
    descs := ((List.range 2048).map fun k => (k, leAt b (0x100 + 16 * k) 16)).filter fun e => decide (e.2 ≠ 0) }

/-- A circuit with its route. -/
def lcircOf (routes : List (Nat × Nat)) (b : List Byte) : LCirc :=
  { id := leAt b 0 2, flags := leAt b 2 2, kc := leAt b 4 2, dstCl := leAt b 6 1, src := leAt b 8 4, dst := leAt b 12 4,
    route := (routes.drop (leAt b 16 4)).take (leAt b 7 1) }

/-- A CONTEXT section's contents. -/
def lsectOf (b : List Byte) : LSect :=
  let routes := (partEntries b 3 8).map fun e => (leAt e 0 4, leAt e 4 2)
  { cl := leAt b 6 2, mask := leAt b 8 2,
    ctxs := (partEntries b 0 33024).map lctxOf,
    segs := (partEntries b 1 8).map fun e => leAt e 0 8,
    circs := (partEntries b 2 24).map (lcircOf routes),
    wheels := (partEntries b 4 8).map fun e => (leAt e 0 4, leAt e 4 4),
    rows := (partEntries b 5 16).map fun e => leAt e 0 16,
    recs := (partEntries b 6 16).map fun e =>
      ⟨leAt e 0 4, bitsOf (leAt e 0 16) 32 12,
        (List.range (bitsOf (leAt e 0 16) 44 4)).map fun k => bitsOf (leAt e 0 16) (48 + 16 * k) 16⟩,
    drips := (partEntries b 7 64).map fun e =>
      ⟨bitsOf (leAt e 0 2) 0 5, (List.range (bitsOf (leAt e 0 2) 5 4 + 1)).map fun k => leAt e (2 + 3 * k) 3⟩ }

def LCirc.free (x : LCirc) : Bool := bitAt x.flags 0
def LCirc.stat (x : LCirc) : Bool := bitAt x.flags 1
def LCirc.ctxs (x : LCirc) : Nat := bitsOf x.flags 2 4
def LCirc.inCtx (x : LCirc) (k : Nat) : Bool := bitAt x.ctxs k

/-- K_c of a timed-class circuit; 0 for a free-class one. -/
def LCirc.k (x : LCirc) : Nat := if x.free then 0 else x.kc + 1

def LCtx.adaptive (x : LCtx) : Bool := bitAt x.flags 0
def LCtx.paired (x : LCtx) : Bool := bitAt x.flags 1
def LCtx.other (x : LCtx) : Nat := bitsOf x.flags 2 2
def LCtx.nonres (x : LCtx) : Bool := bitAt x.flags 4

/-- Descriptors of a context that are in use: engine, and fields. -/
def LCtx.used (x : LCtx) : List (Nat × Desc) :=
  (x.descs.map fun e => (e.1 / 32, Desc.of e.2)).filter fun y => y.2.valid

/-- Roller segments of a core's context. -/
def LSect.segsOf (s : LSect) (core ctx : Nat) : List Nat :=
  s.segs.filter fun g => decide (bitsOf g 0 4 = core) && decide (bitsOf g 4 2 = ctx)

/-- Fields of an endpoint (32 bits). -/
def epKind (x : Nat) : Nat := bitsOf x 0 4
def epCore (x : Nat) : Nat := bitsOf x 4 4
def epEng (x : Nat) : Nat := bitsOf x 8 6
def epIdx (x : Nat) : Nat := bitsOf x 14 6
def epNum (x : Nat) : Nat := bitsOf x 20 12

/-- An endpoint names an engine, a queue or a counter, which lie in a core. -/
def epInCore (x : Nat) : Bool := decide (epKind x ≤ 2)

/-- An endpoint on a physical cluster. -/
def endpOf (cl x : Nat) : Endp := ⟨epKind x, cl, epCore x, epEng x, epIdx x, epNum x⟩

/-! Chunks (R442) -/

/-- A chunk of a WSTORE, STACK or SCRIM section. -/
structure Chunk where
  kind : Nat
  ref : Nat
  ofs : Nat
  data : List Byte
  deriving DecidableEq, Repr

/-- The chunks of a section, by fuel; the answer's flag says that the section ends where a chunk with its padding of zeros ends. -/
def chunksOf : Nat → List Byte → List Chunk × Bool
  | 0, _ => ([], false)
  | n + 1, b =>
    if b = [] then ([], true)
    else
      let h := leAt b 0 16
      let len := bitsOf h 48 32
      let size := 16 + len
      let padded := ceilDiv size 64 * 64
      if b.length < padded ∨ bitsOf h 80 48 ≠ 0 ∨ ((b.take padded).drop size).any (fun x => decide (x ≠ 0)) = true then ([], false)
      else
        let r := chunksOf n (b.drop padded)
        (⟨bitsOf h 0 8, bitsOf h 8 8, bitsOf h 16 32, (b.drop 16).take len⟩ :: r.1, r.2)

/-- The chunks of a section's bytes. -/
def chunks (b : List Byte) : List Chunk × Bool := chunksOf (b.length + 1) b

/-- Entries of a block map (R442): logical core, cluster within the die, phase, context, class. -/
def blockMapOf (b : List Byte) : List (Nat × Nat × Nat × Nat × Bool) :=
  (List.range (b.length / 4)).map fun i =>
    let x := leAt b (4 * i) 4
    (bitsOf x 0 4, bitsOf x 4 4, bitsOf x 8 12, bitsOf x 20 2, bitAt x 22)

/-- Entries of a Scrim directory (R442): row, position, MARKED, PROMOTABLE, column offset. -/
def scrimDirOf (b : List Byte) : List (Nat × Nat × Bool × Bool × Nat) :=
  (List.range (b.length / 8)).map fun i =>
    let x := leAt b (8 * i) 8
    (bitsOf x 0 12, bitsOf x 12 6, bitAt x 18, bitAt x 19, bitsOf x 20 20)

/-! The RELOC section (R443, R444); its header holds the counts at bytes 4 and 8 (PRESUMED, log entry 51) -/

/-- A patch entry. -/
structure Patch where
  ty : Nat
  idx : Nat
  ofs : Nat
  kind : Nat
  width : Nat
  shift : Nat
  ref : Nat
  deriving DecidableEq, Repr

def relocPlaces (b : List Byte) : Nat := leAt b 4 4
def relocPatches (b : List Byte) : Nat := leAt b 8 4

/-- A RELOC section is formed as its part of R443 states. -/
def relocFormed (b : List Byte) : Bool :=
  decide (leAt b 0 4 = 0x5A524C43) && decide (1 ≤ relocPlaces b ∧ relocPlaces b ≤ 16) &&
    decide (b.length = 64 + 64 * relocPlaces b + 16 * relocPatches b)

/-- Placement i: physical cluster by logical cluster. -/
def placementAt (b : List Byte) (i : Nat) : List Nat := (sliceBytes b (64 + 64 * i) 64).map fun x => x.toNat

/-- The patch entries. -/
def patchesOf (b : List Byte) : List Patch :=
  (List.range (relocPatches b)).map fun i =>
    let x := leAt b (64 + 64 * relocPlaces b + 16 * i) 16
    ⟨bitsOf x 0 16, bitsOf x 16 16, bitsOf x 32 32, bitsOf x 64 8, bitsOf x 72 8, bitsOf x 80 8, bitsOf x 88 8⟩

/-- The physical cluster that serves a logical one. -/
def physCl (place : List Nat) (l : Nat) : Option Nat :=
  let p := place.getD l 0xFF
  if p < 64 then some p else none

/-- A link id on the physical cluster. -/
def physLink (place : List Nat) (l : Nat) : Nat := putBits l 23 6 ((physCl place (linkCl l)).getD 0)

/-- The value a patch writes: areas holds the relocated bases of the image's areas in order of stack and area index; the
stack of a cluster is the one at its stack port (Table 4.10), stack 0 of its die for a cluster without one (log entry 52). -/
def patchValue (place areas : List Nat) (p : Patch) : Option Nat :=
  match physCl place p.ref with
  | some c =>
    if p.kind = 0 then some (c / 16)
    else if p.kind = 1 then some (c % 16)
    else if p.kind = 2 then some (bitsOf (Reg.clStat c) 17 7)
    else if p.kind = 3 then some c
    else if p.kind = 4 then some (3 * (c / 16) + (if c % 16 = 4 then 1 else if c % 16 = 8 then 2 else 0))
    else if p.kind = 5 then areas[p.ref]?
    else none
  | none => if p.kind = 5 then areas[p.ref]? else none

/-- A body's bytes with a field written. -/
def patchBytes (b : List Byte) (p : Patch) (v : Nat) : List Byte :=
  let n := (p.shift + p.width + 7) / 8
  let w := putBits (leAt b p.ofs n) p.shift p.width v
  b.take p.ofs ++ leBytes n w ++ b.drop (p.ofs + n)

/-- One patch applied; none when it would write outside its section or names an absent REF. -/
def applyPatch (place areas : List Nat) (bs : List Body) (p : Patch) : Option (List Body) :=
  match patchValue place areas p, bs.find? (fun b => decide (b.1.ty = p.ty ∧ b.1.idx = p.idx)) with
  | some v, some b =>
    if 1 ≤ p.width ∧ p.width ≤ 32 ∧ p.ofs + (p.shift + p.width + 7) / 8 ≤ b.2.length then
      some (bs.map fun x => if x.1.ty = p.ty ∧ x.1.idx = p.idx then (x.1, patchBytes x.2 p v) else x)
    else none
  | _, _ => none

/-- All patches in order. -/
def applyPatches (place areas : List Nat) (bs : List Body) (ps : List Patch) : Option (List Body) :=
  ps.foldl (fun acc p => acc.bind fun x => applyPatch place areas x p) (some bs)

/-! Section tables (R445) -/

/-- An entry of the section table: group, context slot, order, end-counter core, end counter, RESIDENT, stack, area, offset and length. -/
structure LSec where
  group : Nat
  ctx : Nat
  order : Nat
  endCore : Nat
  endCounter : Nat
  resident : Bool
  stack : Nat
  area : Nat
  ofs : Nat
  len : Nat
  deriving DecidableEq, Repr

/-- The section table. -/
def sectionTable (b : List Byte) : List LSec :=
  (List.range (b.length / 32)).map fun i =>
    let x := leAt b (32 * i) 32
    ⟨bitsOf x 0 6, bitsOf x 6 2, bitsOf x 8 8, bitsOf x 16 4, bitsOf x 20 4, bitAt x 24, bitsOf x 32 4, bitsOf x 36 5,
      bitsOf x 64 32, bitsOf x 96 32⟩

/-! The TIMING section (R429) -/

/-- A stepping table with its proof records (INPUT, FIXED_PS, NOTICE_FIXED_PS, CYCLES, NOTICE_CYCLES). -/
structure LTab where
  step : Nat
  vProof : Nat
  pMin : Nat
  costs : List Nat
  l : Nat
  a : Nat
  g : Nat
  records : List (Nat × Nat × Nat × Nat × Nat)
  deriving DecidableEq, Repr

/-- n stepping tables from the bytes; the flag says that they end where the bytes end. -/
def tablesOf : Nat → List Byte → List LTab × Bool
  | 0, b => ([], b.isEmpty)
  | n + 1, b =>
    let r := leAt b 0x20 4
    let size := 64 + 16 * r
    if b.length < size then ([], false)
    else
      let t : LTab :=
        { step := leAt b 0 1, vProof := leAt b 2 2, pMin := leAt b 4 4,
          costs := (sliceBytes b 8 14).map fun x => x.toNat, l := leAt b 0x18 2, a := leAt b 0x1A 2, g := leAt b 0x1C 2,
          records := (List.range r).map fun i =>
            let o := 64 + 16 * i
            (leAt b o 2, leAt b (o + 2) 3, leAt b (o + 5) 3, leAt b (o + 8) 4, leAt b (o + 12) 4) }
      let rest := tablesOf n (b.drop size)
      (t :: rest.1, rest.2)

end Sys2Proof.Machine
end

