-- ==== Sys2Proof/Machine/Ranges.lean ====
section
/-!
DEFINITION. The ranges that the register tables state for PR and LV fields (R13, R416), as one judgement on the word
of a register; ranges that hang on other registers stand with the checks that use them.
-/

namespace Sys2Proof.Machine

open Sys2Proof

/-- Whether a field of a word lies from lo to hi inclusive. -/
def fieldIn (v : Nat) (f : Fld) (lo hi : Nat) : Bool := decide (lo ≤ fieldOf v f) && decide (fieldOf v f ≤ hi)

/-- A voltage in mV: 600 to 850 inclusive, in steps of 5 (Table 14.9). -/
def mvOk (v : Nat) : Bool := decide (600 ≤ v) && decide (v ≤ 850) && decide (v % 5 = 0)

/-- Stack window plan: sixteen 4-bit codes from 0 to 3 (Table 6.5). -/
def planOk (v : Nat) : Bool := (List.range 8).all fun i => decide (bitsOf v (4 * i) 4 ≤ 3)

/-- Ranges of blocks GLB to ING, by the lowest address of the register's row. -/
def rangeLow (b v : Nat) : Bool :=
  if b = Reg.glbWearCfg0 then (List.range 4).all fun i => decide (bitsOf v (8 * i) 8 ≤ 31)
  else if b = Reg.glbWearCfg1 then
    fieldIn v Fld.glbWearCfg1LinkLog2 0 31 && fieldIn v Fld.glbWearCfg1ScrimLog2 0 31 &&
      fieldIn v Fld.glbWearCfg1Windows 1 255
  else if b = Reg.clkCfg then fieldIn v Fld.clkCfgTimeoscSel 0 2 && fieldIn v Fld.clkCfgMgmtDiv 0 2
  else if b = Reg.auxCtl 0 then
    fieldIn v Fld.auxCtlDiv 10 250 && fieldIn v Fld.auxCtlSpread 0 10 && fieldIn v Fld.auxCtlModfKhz 20 64
  else if b = Reg.pwrPin then mvOk (fieldOf v Fld.pwrPinPinMv)
  else if b = Reg.pwrTrack then mvOk (fieldOf v Fld.pwrTrackVstartMv)
  else if b = Reg.tmsServo then fieldIn v Fld.tmsServoLockCount 1 255
  else if b = Reg.tmsLimits then fieldIn v Fld.tmsLimitsLockNs 1 65535 && fieldIn v Fld.tmsLimitsSlewMaxPpm 1 500
  else if b = Reg.tmsJumpMax then fieldIn v Fld.tmsJumpMaxJumpMaxNs 1 1000000
  else if b = Reg.tmsPtp then
    fieldIn v Fld.tmsPtpDreqLog 0 7 && fieldIn v Fld.tmsPtpAnnTimeout 2 10 && fieldIn v Fld.tmsPtpTsyncLog 0 7
  else if b = Reg.tmsArm then fieldIn v Fld.tmsArmArmWaitS 1 255
  else if b = Reg.mkWidth 0 then fieldIn v Fld.mkWidthWidthNs 2 65535
  else if b = Reg.mkCount 0 then fieldIn v Fld.mkCountCount 1 (2 ^ 32 - 1)
  else if b = Reg.mkLead 0 then fieldIn v Fld.mkLeadLeadNs 0 1000000
  else if b = Reg.ingAdmit then fieldIn v Fld.ingAdmitLaneDownTries 1 255
  else if b = Reg.ingLcfg 0 then fieldIn v Fld.ingLcfgFec 0 2
  else true

/-- Ranges of blocks PRM to REC. -/
def rangeMid (b v : Nat) : Bool :=
  if b = Reg.prmPcfg 0 then fieldIn v Fld.prmPcfgHoldoffMode 0 2 && fieldIn v Fld.prmPcfgHoldoffEv 1 255
  else if b = Reg.prmPhold 0 then fieldIn v Fld.prmPholdPhold 1 (2 ^ 32 - 1)
  else if b = Reg.scrCfg then
    fieldIn v Fld.scrCfgLNs 96 4096 && decide (fieldOf v Fld.scrCfgANs + 96 ≤ fieldOf v Fld.scrCfgLNs)
  else if b = Reg.scrTev then fieldIn v Fld.scrTevTevNs 4 65536
  else if b = Reg.scrInput 0 then decide (fieldOf v Fld.scrInputPrim = 0 ∨ fieldOf v Fld.scrInputFp32 = 0)
  else if b = Reg.scrDec 0 then fieldIn v Fld.scrDecSrc 0 4 && fieldIn v Fld.scrDecWidthNs 2 255
  else if b = Reg.hwkRbase 0 then fieldIn v Fld.hwkRbaseStack 0 11
  else if b = Reg.hwkRsize 0 then fieldIn v Fld.hwkRsizeSize64k 1 16384
  else if b = Reg.stpDband 0 then fieldIn v Fld.stpDbandDeadband 0 8388607
  else if b = Reg.stpRkeep 0 then fieldIn v Fld.stpRkeepKeepNs 1 (2 ^ 32 - 1)
  else if b = 0x101100 then fieldIn v Fld.ingLcfgFec 0 2
  else if b = Reg.hstPoll then fieldIn v Fld.hstPollHstPollNs 1000 1000000
  else if b = Reg.hstSum then fieldIn v Fld.hstSumFlushUs 1 65535
  else if b = Reg.recRetain then fieldIn v Fld.recRetainRetentionS 1 65535
  else if b = Reg.recSumReserve then fieldIn v Fld.recSumReservePages 1024 (2 ^ 24)
  else if b = Reg.recLogSize then fieldIn v Fld.recLogSizePages 512 (2 ^ 20)
  else true

/-- The format that a NUM_RC_CFG register gives its row class is scaled, or BF16 with step kind BATCH (R246). -/
def rowFormatOk (v : Nat) : Bool :=
  let f := fieldOf v Fld.numRcCfgFormat
  decide (1 ≤ f ∧ f ≤ 11) && (decide (f ≠ 1) || decide (fieldOf v Fld.numRcCfgStepKind = 1))

/-- Ranges of blocks STK to NUM. -/
def rangeHigh (b v : Nat) : Bool :=
  if b = Reg.stkAreaLo 0 0 then fieldIn v Fld.stkAreaLoKind 0 6
  else if b = Reg.stkAreaHi 0 0 then fieldIn v Fld.stkAreaHiSize64k 0 393216
  else if b = Reg.stkPlan 0 0 then planOk v
  else if b = Reg.stkGcfg then fieldIn v Fld.stkGcfgStkUeLimit 1 255
  else if b = Reg.dstCfg 0 then fieldIn v Fld.dstCfgEP 1 32
  else if b = Reg.drpCfg 0 then fieldIn v Fld.drpCfgDripWaitNs 64 65535
  else if b = Reg.drpArea 0 then fieldIn v Fld.drpAreaStack 0 11
  else if b = Reg.drpAsize 0 then fieldIn v Fld.drpAsizeSize64k 1 16384
  else if b = Reg.crlLoop 0 0 then fieldIn v Fld.crlLoopBound 1 64
  else if b = Reg.numCwin 0 then fieldIn v Fld.numCwinCwinSteps 1 65535
  else if b = Reg.numRcCfg 0 0 then fieldIn v Fld.numRcCfgLag 1 32 && rowFormatOk v
  else if b = Reg.numRcLimits 0 0 then fieldIn v Fld.numRcLimitsShrinkSteps 1 255
  else if b = Reg.numRow 0 0 then fieldIn v Fld.numRowMarked 0 4
  else if b = Reg.numProvrows then fieldIn v Fld.numProvrowsCount 0 256
  else if b = Reg.mnCtl 0 then
    decide (fieldOf v Fld.mnCtlLateAction ≠ 3) && decide (fieldOf v Fld.mnCtlDegrMode ≠ 3) &&
      decide (fieldOf v Fld.mnCtlHoldoffMode ≠ 3) && fieldIn v Fld.mnCtlHoldoffEv 1 255
  else if b = Reg.mnPrescale 0 then fieldIn v Fld.mnPrescalePrescale 1 (2 ^ 24 - 1)
  else if b = Reg.mnHoldns 0 then fieldIn v Fld.mnHoldnsHoldNs 1 (2 ^ 32 - 1)
  else true

/-- Whether a word lies in the ranges its register's table states (R13, R416). -/
def rangeOk (a v : Nat) : Bool :=
  match regRow a with
  | none => true
  | some r => if a < 0xA0000 then rangeLow r.base v else if a < 0x160000 then rangeMid r.base v else rangeHigh r.base v

end Sys2Proof.Machine
end

