-- ==== Sys2Proof/Machine/Checks.lean ====
section
/-!
DEFINITION. The Primer validation rules on registers, areas, topology and tables: each is a judgement on a candidate device
that holds the REGS values, and on the bytes of the section it names.
-/

namespace Sys2Proof.Machine

open Sys2Proof

/-! The event path and ingest -/

/-- R21. -/
def Dev.ok21 (d : Dev) : Bool := decide (d.lNs ≤ 255 * d.tev)

/-- Every lane. -/
def allLanes : List LaneId := (List.range 88).map fun i => ⟨i % 88, Nat.mod_lt _ (by decide)⟩

/-- R38, with the REGS section b: every lane that it sets, and every lane in use, has a combination of Table 2.1. The reset value is none of
them, and a lane that is not in use may keep it where no record sets the lane (DEDUCED, log entry 26). -/
def Dev.ok38 (d : Dev) (b : List Byte) : Bool :=
  allLanes.all fun l => (laneCapacity (d.laneRate l).1 (d.laneRate l).2).isSome ||
    (!d.laneInUse l && !(regsOf b).any fun r => decide (r.1 = laneReg l Reg.ingLcfg))

/-- R527: the four lanes of a used mesh port take one combination of Table 2.1. -/
def Dev.ok527 (d : Dev) : Bool :=
  (List.range 6).all fun p =>
    !d.flag (Reg.mpCfg p) Fld.mpCfgUsed ||
      (allLanes.filter fun l => decide (64 + 4 * p ≤ l.val ∧ l.val < 68 + 4 * p)).all fun l =>
        decide (d.laneRate l = d.laneRate ⟨(64 + 4 * p) % 88, Nat.mod_lt _ (by decide)⟩) &&
          (laneCapacity (d.laneRate l).1 (d.laneRate l).2).isSome

/-- The valid entries of a lane's map are entries 0 to N − 1 (Table 2.15). -/
def Dev.okMapValid (d : Dev) (n : Nat) : Bool :=
  (List.range 256).all fun k => d.flag (Reg.ingChmap n k) Fld.ingChmapValid == decide (k < d.laneN n)

/-- R51 and the ranges of Tables 2.14 and 2.15, for one lane in use. -/
def Dev.okLaneMap (d : Dev) (n : Nat) : Bool :=
  let c := (laneCapacity (d.fld (Reg.ingLcfg n) Fld.ingLcfgRate) (d.fld (Reg.ingLcfg n) Fld.ingLcfgFec)).getD 0
  let s := 128 / d.laneW n
  d.okMapValid n && decide (0x1000 ≤ d.laneTs n) &&
    decide (d.laneN n * 65536 * 10000 ≤ c * s * d.laneTs n)

/-- R51. -/
def Dev.ok51 (d : Dev) : Bool :=
  d.lanesInUse.all (fun n => d.okLaneMap n) &&
    decide ((d.lanesInUse.map fun n => (List.range (d.laneN n)).map (d.laneCh n)).flatten.Nodup)

/-! Primitives and capture -/

/-- R78 on a profile's settings: TYPE, POL, COMPARE, thresholds A and B, T1 and T2. -/
def profileOk (ty pol cmp : Nat) (a b : Int) (t1 t2 : Nat) : Bool :=
  decide (ty ≤ 5 ∧ pol ≤ 2 ∧ cmp ≤ 4) &&
  (decide (ty ≠ 1 ∧ ty ≠ 4) || decide (cmp = 0)) &&
  (decide (ty ≠ 3 ∧ ty ≠ 5) || decide (a < b)) &&
  (decide (cmp ≠ 1 ∧ cmp ≠ 2) || decide (t1 ≤ t2)) &&
  (decide (ty ≠ 4) || decide (0x100 ≤ t1))

/-- R78 on profile p with its registers as read by f. -/
def profileOkBy (f : Nat → Nat) (p : Nat) : Bool :=
  let c := f (Reg.prmPcfg p)
  profileOk (fieldOf c Fld.prmPcfgType) (fieldOf c Fld.prmPcfgPol) (fieldOf c Fld.prmPcfgCompare)
    (signedOf 24 (f (Reg.prmPtha p))) (signedOf 24 (f (Reg.prmPthb p))) (f (Reg.prmPt1 p)) (f (Reg.prmPt2 p))

/-- Profile p is in use (R78). -/
def Dev.profileUsed (d : Dev) (p : Nat) : Bool :=
  decide (p ≠ 0) && decide (d.fld (Reg.prmPcfg p) Fld.prmPcfgType ≠ 0) &&
    (List.range 8192).any fun u => (List.range 4).any fun k => decide (d.slotProfile u k = p)

/-- R78. -/
def Dev.ok78 (d : Dev) : Bool := (List.range 256).all fun p => !d.profileUsed p || profileOkBy d.rd p

/-- A ring's region as a span of its stack, in 64 KiB units. -/
def Dev.ringSpan (d : Dev) (r : Nat) : Nat × Nat :=
  (d.fld (Reg.hwkRbase r) Fld.hwkRbaseBase64k, d.fld (Reg.hwkRsize r) Fld.hwkRsizeSize64k)

/-- A span of 64 KiB units lies inside one area of the given kind of a stack. -/
def Dev.spanIn (d : Dev) (s kind : Nat) (x : Nat × Nat) : Bool :=
  (List.range 32).any fun k =>
    let b := d.fld (Reg.stkAreaLo s k) Fld.stkAreaLoBase64k
    decide (d.fld (Reg.stkAreaLo s k) Fld.stkAreaLoKind = kind) && decide (b ≤ x.1) &&
      decide (x.1 + x.2 ≤ b + d.fld (Reg.stkAreaHi s k) Fld.stkAreaHiSize64k)

/-- R93, for one enabled ring. -/
def Dev.okRing (d : Dev) (r : Nat) : Bool :=
  let ms := d.members r
  !ms.isEmpty &&
  ms.all (fun c => decide ((d.laneOf c).map d.laneTs = (d.ringLane r).map d.laneTs) &&
    decide ((d.laneOf c).map d.laneW = (d.ringLane r).map d.laneW)) &&
  d.spanIn (d.ringStack r) 3 (d.ringSpan r) && decide (1 ≤ (d.ringSpan r).2 ∧ (d.ringSpan r).2 ≤ 16384)

/-- R93. -/
def Dev.ok93 (d : Dev) : Bool :=
  d.ringsOn.all (fun r => d.okRing r) &&
  d.ringsOn.all fun r => d.ringsOn.all fun q =>
    decide (r = q) || decide (d.ringStack r ≠ d.ringStack q) || !spansMeet (d.ringSpan r) (d.ringSpan q)

/-- Rows that a HAWK ring's region holds (R96). -/
def Dev.hawkCap (d : Dev) (r : Nat) : Nat :=
  let b := rowBytes (d.members r).length (d.ringWidth r)
  (d.ringSpan r).2 * 65536 / b

/-- R96 with HAWK_PRE and HAWK_POST of the ring as given. A ring that is not enabled or has no members is judged with the ROW_BYTES and the T_s that
its empty membership gives (DESIGN CHOICE, log entry 40). -/
def Dev.windowOk (d : Dev) (r pre post : Nat) : Bool :=
  let nl := ceilDiv (d.lNs * 65536) (d.ringTs r) + 1
  decide (pre + post ≤ 2 ^ 32 - 1) && (d.stippled r || decide (pre + max post nl ≤ d.hawkCap r))

/-- R96, and the members that Table 3.12 asks of HWK_MEAS. -/
def Dev.ok96 (d : Dev) : Bool :=
  d.ringsOn.all fun r =>
    d.windowOk r (d.rd (Reg.hwkPre r)) (d.rd (Reg.hwkPost r)) &&
    (List.range 16).all fun j =>
      !d.flag (Reg.hwkMeas r j) Fld.hwkMeasEn || (d.members r).contains (d.fld (Reg.hwkMeas r j) Fld.hwkMeasChannel)

/-! Stacks -/

/-- The declared areas of a stack: kind, base and size in 64 KiB units. -/
def Dev.areasOf (d : Dev) (s : Nat) : List (Nat × Nat × Nat) :=
  ((List.range 32).map fun k =>
    (d.fld (Reg.stkAreaLo s k) Fld.stkAreaLoKind, d.fld (Reg.stkAreaLo s k) Fld.stkAreaLoBase64k,
      d.fld (Reg.stkAreaHi s k) Fld.stkAreaHiSize64k)).filter fun a => decide (a.1 ≠ 0)

/-- Drip areas in use: cluster. -/
def Dev.dripClusters (d : Dev) : List Nat :=
  (List.range 64).filter fun cl => d.flag (Reg.drpCfg cl) Fld.drpCfgDripEn

/-- R202. -/
def Dev.ok202 (d : Dev) : Bool :=
  d.dripClusters.all fun cl => d.fit (stackFitBit (d.fld (Reg.drpArea cl) Fld.drpAreaStack))

/-- A stack's capacity is known: it trained, whether or not it failed later. -/
def Dev.stackKnown (d : Dev) (s : Nat) : Bool :=
  decide (d.stackState s = skUp) || decide (d.stackState s = skTest) || (decide (d.stackState s = skFailed) && decide ((d.stackRec s).trains < 3))

/-- R226 for one stack: areas sized, apart, and within the capacity: the trained one of a stack that trained, and the largest of Table 6.1 of
one that did not, whose own is not known (log entry 20). -/
def Dev.okAreas (d : Dev) (s : Nat) : Bool :=
  let as := d.areasOf s
  as.all (fun a => decide (1 ≤ a.2.2)) && spansApart (as.map fun a => a.2) &&
    as.all fun a => decide ((a.2.1 + a.2.2) * 65536 ≤ if d.stackKnown s then d.stackBytes s else 24 * 2 ^ 30)

/-- R226 but its pass images and section contexts. A cluster has a Drip area where DRIP_EN is set or a size is given. -/
def Dev.ok226 (d : Dev) : Bool :=
  (List.range 12).all (fun s => d.okAreas s) &&
  ((List.range 64).filter fun cl => d.flag (Reg.drpCfg cl) Fld.drpCfgDripEn ||
      decide (d.fld (Reg.drpAsize cl) Fld.drpAsizeSize64k ≠ 0)).all fun cl =>
    d.spanIn (d.fld (Reg.drpArea cl) Fld.drpAreaStack) 4
      (d.fld (Reg.drpArea cl) Fld.drpAreaBase64k, d.fld (Reg.drpAsize cl) Fld.drpAsizeSize64k)

/-- A slot of a stack's frame holds a Roller or mirrored read, whatever uses it (R222). -/
def Dev.planReads (d : Dev) (s i : Nat) : Bool := decide (1 ≤ d.planCode s i ∧ d.planCode s i ≤ 3)

/-- Writable OPEN slots of a stack's frame (R222): those not within the 6 slots before, or the 2 after, a read. -/
def Dev.openSlots (d : Dev) (s : Nat) : Nat :=
  ((List.range 128).filter fun i =>
    decide (d.planCode s i = 0) &&
      !((List.range 9).any fun k => decide (k ≠ 2) && d.planReads s (i + 126 + k))).length

/-- Ring writes placed on a stack, in bytes per ns (R222). -/
def Dev.ringNeed (d : Dev) (s : Nat) : Rat :=
  ((d.ringsOn.filter fun r => decide (d.ringStack r = s)).map fun r =>
    let ts := d.ringTs r
    let b := if d.stippled r then 16 * (d.members r).length else rowBytes (d.members r).length (d.ringWidth r)
    if ts = 0 then (0 : Rat) else (b * 65536 : Nat) / (ts : Rat)).sum

/-- R222. -/
def Dev.ok222 (d : Dev) : Bool :=
  (List.range 12).all fun s => decide (d.ringNeed s * 128 ≤ (2 / 5 : Rat) * (d.openSlots s * 2048 : Nat))

/-- R232: each MIRROR area against the ROLLER area it mirrors. -/
def Dev.ok232 (d : Dev) : Bool :=
  (List.range 12).all fun m => (List.range 32).all fun b =>
    let p := d.fld (Reg.stkAreaHi m b) Fld.stkAreaHiPeerStack
    let a := d.fld (Reg.stkAreaHi m b) Fld.stkAreaHiPeerArea
    decide (d.fld (Reg.stkAreaLo m b) Fld.stkAreaLoKind ≠ 2) ||
    (decide (p ≠ m ∧ p / 3 = m / 3) && decide (d.fld (Reg.stkAreaLo p a) Fld.stkAreaLoKind = 1) &&
      decide (d.fld (Reg.stkAreaHi p a) Fld.stkAreaHiSize64k = d.fld (Reg.stkAreaHi m b) Fld.stkAreaHiSize64k) &&
      decide (d.fld (Reg.stkAreaLo p a) Fld.stkAreaLoBase64k % 2 = d.fld (Reg.stkAreaLo m b) Fld.stkAreaLoBase64k % 2) &&
      (List.range 128).all fun i =>
        decide (d.planCode m i = 3) == decide (d.planCode p i = 1 ∨ d.planCode p i = 2))

/-! Rows, menu, time, frames -/

/-- Clusters with rows in use, and those rows. -/
def Dev.allRows (d : Dev) : List (Nat × Nat) :=
  ((List.range 64).map fun cl => (d.rowsUsed cl).map fun r => (cl, r)).flatten

/-- R246 on the formats of the row classes of rows in use, whether or not the Primer writes their registers. That a BF16 class has rows of
adaptation contexts only is for the checks on contexts. -/
def Dev.ok246 (d : Dev) : Bool := d.allRows.all fun x => rowFormatOk (d.rd (d.rowCfg x.1 x.2))

/-- A slot's terms pass R286. -/
def Dev.okSlot286 (d : Dev) (s : Nat) : Bool :=
  let ts := d.terms s
  !ts.isEmpty && ts.all fun t =>
    decide (t.2.2 ≠ 7) && d.flag (Reg.scrInput t.2.1) Fld.scrInputEn

/-- No threshold of a slot on an FP32 input has exponent 255, whether or not the slot is enabled. -/
def Dev.okThr286 (d : Dev) (s : Nat) : Bool :=
  (d.terms s).all fun t =>
    !d.flag (Reg.scrInput t.2.1) Fld.scrInputFp32 || decide (bitsOf (d.rd (Reg.mnThr s t.1)) 23 8 ≠ 255)

/-- The slots with a term: an OP other than 0 in one of its four places. -/
def Dev.slotsWithTerms (d : Dev) : List Nat :=
  [(Reg.mnTerm01 0, 12), (Reg.mnTerm01 0, 28), (Reg.mnTerm23 0, 12), (Reg.mnTerm23 0, 28)].flatMap fun x =>
    d.nonzero x.1 0x40 16384 ⟨x.2, 3⟩

/-- R286. -/
def Dev.ok286 (d : Dev) : Bool := d.enabledSlots.all (fun s => d.okSlot286 s) && d.slotsWithTerms.all fun s => d.okThr286 s

/-- R307, but for G_min, which R368 judges; topo says whether the image holds a TOPOLOGY section. -/
def Dev.ok307 (d : Dev) (topo : Bool) : Bool :=
  !d.group || (topo && decide (d.gNs + d.aNs + 12 ≤ d.lNs))

/-- R316. -/
def Dev.ok316 (d : Dev) : Bool :=
  let t := d.fld Reg.scrRfCfg Fld.scrRfCfgRfEthertype
  !d.flag Reg.scrRfCfg Fld.scrRfCfgRfEn || (decide (0x600 ≤ t) && decide (t ≠ 0x88F7))

/-- R326. -/
def Dev.ok326 (d : Dev) : Bool :=
  decide (d.rd Reg.tmsMacLo ≠ 0 ∨ d.fld Reg.tmsMacHi Fld.tmsMacHiMacHi ≠ 0) && !bitAt (d.rd Reg.tmsMacLo) 0

/-- R337. -/
def Dev.ok337 (d : Dev) : Bool :=
  !(decide (d.fld Reg.tmsCfg Fld.tmsCfgSrcA = 0) && !d.flag Reg.tmsCfg Fld.tmsCfgArmPolicy)

/-! The topology (R355, R356, R368, R402) -/

/-- A TOPOLOGY section: anchor, D, members, X, F, and its bytes. -/
structure Topo where
  anchor : Nat
  dia : Nat
  members : Nat
  detour : Nat
  flight : Nat
  bytes : List Byte
  deriving DecidableEq, Repr

/-- A TOPOLOGY section's header. -/
def topoOf (b : List Byte) : Topo := ⟨leAt b 6 1, leAt b 7 1, leAt b 8 8, leAt b 0x10 1, leAt b 0x11 1, b⟩

def Topo.has (t : Topo) (m : Nat) : Bool := bitAt t.members m
def Topo.list (t : Topo) : List Nat := (List.range 64).filter t.has
def Topo.rec_ (t : Topo) (m o n : Nat) : Nat := leAt t.bytes (0x40 + 0xA0 * m + o) n

/-- Port p of member m: used, partner device, partner port. -/
def Topo.port (t : Topo) (m p : Nat) : Bool × Nat × Nat :=
  let x := t.rec_ m (2 * p) 2
  (bitAt x 0, bitsOf x 1 6, bitsOf x 7 3)

/-- FWD[m][s], and the PRIMARY and ALT ports of m toward destination t. -/
def Topo.fwd (t : Topo) (m s : Nat) : Nat := t.rec_ m (0x10 + s) 1
def Topo.route (t : Topo) (m dst : Nat) : Nat × Nat :=
  let x := t.rec_ m (0x50 + dst) 1
  (bitsOf x 0 3, bitsOf x 3 3)

/-- A TOPOLOGY section is formed as R402 states: length, marks, reserved bytes 0, records of non-members 0. -/
def topoFormed (b : List Byte) : Bool :=
  let t := topoOf b
  decide (b.length = 10304) && decide (leAt b 0 4 = 0x5A544F50) && decide (leAt b 4 2 = 1) &&
  decide (t.anchor ≤ 63 ∧ t.dia ≤ 63 ∧ t.detour ≤ 7) && decide (leAt b 0x12 46 = 0) &&
  (List.range 64).all fun m =>
    if t.has m then
      (List.range 6).all (fun p => decide (bitsOf (t.rec_ m (2 * p) 2) 10 6 = 0)) &&
      decide (t.rec_ m 0x0C 4 = 0) && decide (t.rec_ m 0x90 16 = 0) &&
      (List.range 64).all fun s => decide (t.fwd m s ≤ 63) && decide (t.rec_ m (0x50 + s) 1 ≤ 63)
    else decide (t.rec_ m 0 160 = 0)

/-- The ports of member m that a mask names and the topology declares used, with the members they lead to. -/
def Topo.nexts (t : Topo) (m mask : Nat) : List Nat :=
  ((List.range 6).filter fun p => bitAt mask p && (t.port m p).1).map fun p => (t.port m p).2.1

/-- The members that contributions of source s reach at each hop: what FWD sends on from the members of one hop. -/
def Topo.wave (t : Topo) (s : Nat) : Nat → List Nat → List Nat
  | 0, ms => ms
  | n + 1, ms => t.wave s n ((ms.map fun m => t.nexts m (t.fwd m s)).flatten)

/-- FWD from s reaches every other member exactly once, within D hops (R356). -/
def Topo.okFwd (t : Topo) (s : Nat) : Bool :=
  let ws := ((List.range 64).map fun k => t.wave s (k + 1) [s])
  let all := (ws.take t.dia).flatten
  (t.list.all fun m => decide (all.count m = if m = s then 0 else 1)) && (t.wave s (t.dia + 1) [s]).isEmpty &&
    t.list.all fun m => (List.range 6).all fun p => !bitAt (t.fwd m s) p || (t.port m p).1

/-- A unicast route from m to dst by PRIMARY ports, within n hops. -/
def Topo.reaches (t : Topo) (dst : Nat) : Nat → Nat → Bool
  | 0, m => decide (m = dst)
  | n + 1, m =>
    decide (m = dst) ||
    (let p := (t.route m dst).1
     decide (p < 6) && (t.port m p).1 && t.reaches dst n (t.port m p).2.1)

/-- The unicast routes of member m toward dst (R356): each declared one reaches it within 63 hops. -/
def Topo.okRoute (t : Topo) (m dst : Nat) : Bool :=
  let r := t.route m dst
  decide (m = dst) || !t.has dst ||
  ((decide (r.1 = 7) || t.reaches dst 63 m) &&
    (decide (r.2 = 7) || (decide (r.2 < 6) && (t.port m r.2).1 && t.reaches dst 62 (t.port m r.2).2.1)))

/-- R356 but its load and budget conditions, for device id dev on a part whose fitted ports the mask names. -/
def Topo.ok356 (t : Topo) (dev ports : Nat) : Bool :=
  t.has dev && t.has t.anchor &&
  (List.range 6).all (fun p => !(t.port dev p).1 || bitAt ports p) &&
  t.list.all (fun m => (List.range 6).all fun p =>
    let x := t.port m p
    !x.1 || (t.has x.2.1 && decide (x.2.2 < 6) && decide (t.port x.2.1 x.2.2 = (true, m, p)))) &&
  t.list.all (fun s => t.okFwd s) &&
  t.list.all fun m => t.list.all fun dst => t.okRoute m dst

/-- Q: the most sources on any one port of any member (R368). -/
def Topo.q (t : Topo) : Nat :=
  (t.list.map fun m => ((List.range 6).map fun p =>
    (t.list.filter fun s => bitAt (t.fwd m s) p).length).foldl max 0).foldl max 0

/-- H in ns and R in units of 10^-4 blocks per ns (Table 10.6). -/
def hopOf (rate fec : Nat) : Nat × Nat :=
  if rate = 0 ∧ fec = 1 then (58, 32304) else if rate = 0 then (142, 31960)
  else if rate = 1 then (61, 16152) else if rate = 2 ∧ fec = 0 then (53, 8612)
  else if rate = 2 then (65, 8112) else (69, 3156)

/-- The worst H and R over a member's used ports, from its own lane settings; none with no used port. -/
def Dev.worstHop (d : Dev) (t : Topo) : Option (Nat × Nat) :=
  let ls := ((List.range 6).filter fun p => (t.port d.devId p).1).map fun p =>
    ((List.range 4).map fun j => hopOf (d.laneRate (meshLane' p j)).1 (d.laneRate (meshLane' p j)).2)
  match ls.flatten with
  | [] => none
  | x :: xs => some (xs.foldl (fun a y => (max a.1 y.1, min a.2 y.2)) x)
where
  /-- Lane j of mesh port p. -/
  meshLane' (p j : Nat) : LaneId := ⟨(64 + 4 * p + j) % 88, Nat.mod_lt _ (by decide)⟩

/-- G_min of R368. -/
def Dev.gMin (d : Dev) (t : Topo) : Nat :=
  match d.worstHop t with
  | none => 36
  | some x => 24 + (t.dia + t.detour) * (x.1 + t.flight) + ceilDiv (t.q * 10000) x.2 + 12

/-- R368. -/
def Dev.ok368 (d : Dev) (t : Topo) : Bool :=
  !d.group || (decide (d.gMin t ≤ d.gNs) && (match d.worstHop t with
    | none => true
    | some x => decide (t.q * 20000 ≤ d.tev * x.2)))

/-! NUMINIT, POLICY, FUSE (R403, R415, R409) -/

/-- The entries of a NUMINIT section: logical cluster, row, exponent. -/
def numinitOf (b : List Byte) : List (Nat × Nat × Int) :=
  (List.range (leAt b 4 4)).map fun i =>
    let x := leAt b (16 + 4 * i) 4
    (bitsOf x 20 6, bitsOf x 8 12, signedOf 8 x)

/-- Pairs of a list, each with its successor, meet a strict order of (cluster, row). -/
def rowsAscend : List (Nat × Nat × Int) → Bool
  | x :: y :: zs => decide (x.1 < y.1 ∨ (x.1 = y.1 ∧ x.2.1 < y.2.1)) && rowsAscend (y :: zs)
  | _ => true

/-- R403, with the rows in use on their physical clusters. -/
def Dev.ok403 (d : Dev) (place : List Nat) (b : List Byte) : Bool :=
  let es := numinitOf b
  decide (leAt b 0 4 = 0x5A4E554D) && decide (leAt b 8 8 = 0) && decide (b.length = 16 + 4 * leAt b 4 4) &&
  rowsAscend es &&
  es.all (fun e => match physCl place e.1 with
    | none => false
    | some c =>
      let r := rowRange (d.rowFmt c e.2.1)
      d.flag (Reg.numRow c e.2.1) Fld.numRowInUse && decide (r.1 ≤ e.2.2 ∧ e.2.2 ≤ r.2)) &&
  d.allRows.all fun x => es.any fun e => decide (physCl place e.1 = some x.1 ∧ e.2.1 = x.2)

/-- A POLICY section is formed as R415 states. -/
def policyFormed (b : List Byte) : Bool := decide (b.length = 8) && decide (leAt b 6 2 = 0)

/-- The Undercoat word that a FUSE section requests, for words 0 to 31, 32, 37 and 38 (Table 11.11). -/
def fuseRequest (b : List Byte) (w : Nat) : Nat :=
  let pol := leAt b 0x8C 4
  let polV := bitAt pol 0
  if w < 32 then (if bitAt (leAt b 4 4) (w / 8) then leAt b (8 + 4 * w) 4 else 0)
  else if w = 32 then (leAt b 4 4 % 16) ||| (leAt b 0x88 4 &&& 0xFF0)
  else if w = 37 then (if polV then leAt b 0x90 4 else 0)
  else if w = 38 then
    (if polV then (leAt b 0x94 4 % 2 ^ 16) ||| 2 ^ 16 else 0) ||| (if bitAt pol 1 then 2 ^ 17 else 0) |||
      (if bitAt pol 2 then 2 ^ 18 else 0)
  else 0

/-- R409, for an image signed by key k. A request for bits [11:4] of word 32 that has a programmed one at 0 would clear it (DEDUCED, log entry
75). -/
def Dev.ok409 (d : Dev) (b : List Byte) (k : Nat) : Bool :=
  let set := leAt b 4 4
  let ctl := d.fuseWord 32 ||| fuseRequest b 32
  decide (b.length = 176) && decide (leAt b 0 4 = 0x5A465553) &&
  (List.range 4).all (fun j => !bitAt set j || !d.keyPresent j || decide (sliceBytes b (8 + 32 * j) 32 = d.keyDigest j)) &&
  (List.range 4).all (fun j => !bitAt set j || (List.range 8).all fun w =>
    decide (d.fuseWord (8 * j + w) &&& fuseRequest b (8 * j + w) = d.fuseWord (8 * j + w))) &&
  decide (leAt b 0x88 4 &&& 0xFF0 = leAt b 0x88 4) && decide (d.fuseWord 32 &&& 0xFF0 &&& leAt b 0x88 4 = d.fuseWord 32 &&& 0xFF0) &&
  !bitAt (leAt b 0x88 4) (4 + k) &&
  (List.range 4).any (fun j => bitAt ctl j && !bitAt ctl (4 + j)) &&
  (!bitAt (d.fuseWord 38) 16 || !bitAt (leAt b 0x8C 4) 0 ||
    decide (leAt b 0x90 4 = d.fuseWord 37 ∧ leAt b 0x94 4 % 2 ^ 16 = d.fuseWord 38 % 2 ^ 16)) &&
  (!bitAt (leAt b 0x8C 4) 0 ||
    decide (d.fuseWord 37 &&& leAt b 0x90 4 = d.fuseWord 37 ∧
      (d.fuseWord 38 % 2 ^ 16) &&& leAt b 0x94 4 = d.fuseWord 38 % 2 ^ 16))

/-! REGS (Table 11.7, R402, R416) -/

/-- A register that the TOPOLOGY section sets (R402). -/
def topoReg (a : Nat) : Bool :=
  decide (a = Reg.mshMembersLo ∨ a = Reg.mshMembersHi ∨ a = Reg.mshId ∨ a = Reg.mshTiming) ||
    (decide (Reg.mshFwd 0 ≤ a) && decide (a < Reg.mshRoute 64)) ||
    (List.range 6).any fun p => decide (a = Reg.mpCfg p)

/-- Each register of a REGS section appears once, none is the topology's, and every value it gives lies in range on the
candidate; SCR_CFG and SCR_TEV are judged whether or not the section names them. -/
def Dev.okRegs (d : Dev) (b : List Byte) : Bool :=
  let rs := regsOf b
  decide (b.length % 8 = 0) && decide ((rs.map fun r => r.1).Nodup) &&
  rs.all (fun r => !topoReg r.1 && rangeOk r.1 (d.rd r.1)) &&
  rangeOk Reg.scrCfg (d.rd Reg.scrCfg) && rangeOk Reg.scrTev (d.rd Reg.scrTev)

/-- Every register-based rule on a candidate. -/
def Dev.okAll (d : Dev) (topo : Bool) : Bool :=
  d.ok21 && d.ok527 && d.ok51 && d.ok78 && d.ok93 && d.ok96 && d.ok202 && d.ok226 && d.ok222 && d.ok232 && d.ok246 &&
    d.ok286 && d.ok307 topo && d.ok316 && d.ok326 && d.ok337

end Sys2Proof.Machine
end

