-- ==== Sys2Proof/Machine/CtxChecks.lean ====
section
/-!
DEFINITION. The loader's checks on contexts (R446, Table 12.11): each answers the first core, on its logical cluster, that breaks
the check, with the status to log. The candidate device holds the REGS values; place is the placement.
-/

namespace Sys2Proof.Machine

open Sys2Proof

/-- What the checks read: the placement, the CONTEXT sections, the section table, and the chunks of each STACK, WSTORE and SCRIM
section with its type and index. -/
structure Graph where
  place : List Nat
  sects : List LSect
  table : List LSec
  chunks : List (Nat × Nat × List Chunk)
  deriving DecidableEq, Repr

/-- A core of the image: logical cluster and logical core. -/
abbrev LCore := Nat × Nat

/-- Core contexts with their section. -/
def Graph.ctxs (g : Graph) : List (LSect × LCtx) := (g.sects.map fun s => s.ctxs.map fun x => (s, x)).flatten

/-- Circuits with their section. -/
def Graph.circs (g : Graph) : List (LSect × LCirc) := (g.sects.map fun s => s.circs.map fun x => (s, x)).flatten

/-- The physical cluster of a logical one, 0 for one that is not placed. -/
def Graph.phys (g : Graph) (l : Nat) : Nat := (physCl g.place l).getD 0

/-- The core that a circuit's refusal names: its source's, else its destination's, else core 0 of its section. -/
def circCore (s : LSect) (x : LCirc) : LCore :=
  if epInCore x.src then (s.cl, epCore x.src) else if epInCore x.dst then (x.dstCl, epCore x.dst) else (s.cl, 0)

/-- The first core context that breaks a judgement. -/
def Graph.firstCtx (g : Graph) (bad : LSect → LCtx → Bool) : Option LCore :=
  (g.ctxs.find? fun p => bad p.1 p.2).map fun p => (p.1.cl, p.2.core)

/-- The first circuit that breaks a judgement. -/
def Graph.firstCirc (g : Graph) (bad : LSect → LCirc → Bool) : Option LCore :=
  (g.circs.find? fun p => bad p.1 p.2).map fun p => circCore p.1 p.2

/-! Descriptors (R438, R242, R250, R204) -/

/-- Formats whose values go in two pieces (R241); FP32, which Table 7.3 pairs with itself, stands apart. -/
def splitFmt (f : Nat) : Bool := decide (f = 8 ∨ f = 11)

/-- A MAC pairs its formats as R242 allows. -/
def pairOk (w a : Nat) : Bool :=
  decide (fmtClass w = fmtClass a) && !(splitFmt w && splitFmt a) &&
    (decide (w ≠ 11) || decide (a = 1 ∨ a = 2)) && (decide (a ≠ 11) || decide (w = 1 ∨ w = 2))

/-- A descriptor passes R438, R242 and R250; loops says which credit loops are enabled. -/
def descOk (loops : Nat → Bool) (adaptive : Bool) (y : Desc) : Bool :=
  decide (y.op ≤ 0x0E) && decide (y.wfmt ≤ 11 ∧ y.afmt ≤ 11) &&
  (!y.free || decide (y.wait = 0)) &&
  (decide (y.ctl ≠ 3) || decide (y.ctrUse ≤ 1)) &&
  (decide (y.op ≠ 7) || decide (y.ctl = 0 ∨ y.ctl = 3) || (decide (y.srcA ≠ y.ctl) && decide (y.srcB ≠ y.ctl))) &&
  (decide (y.op ≠ 0x0C ∧ y.op ≠ 0x0E) || adaptive) &&
  (decide (y.op ≠ 0x0D ∧ y.ctrUse ≠ 2) || y.free) &&
  (decide (y.op ≠ 0x0D) || loops (bitsOf y.imm 0 6)) &&
  (decide (y.op ≠ 0) || pairOk y.wfmt y.afmt) &&
  (!y.sr || (y.free && adaptive))

/-- Weights of a paired stream are in a 4-bit-class format (R204). -/
def pairedOk (x : LCtx) : Bool :=
  !(bitAt x.stream 0 && bitAt x.stream 2) || x.used.all fun y => decide (y.2.op ≠ 0) || decide (fmtClass y.2.wfmt = fmtClass 7)

/-- Descriptor fields and operand pairing. -/
def Graph.checkDesc (g : Graph) (d : Dev) : Option LCore :=
  g.firstCtx fun s x =>
    let cl := g.phys s.cl
    !(x.used.all fun y => descOk (fun k => d.flag (Reg.crlLoop cl k) Fld.crlLoopEn) x.adaptive y.2) || !pairedOk x

/-! Ports and links (R125, R143, R144) -/

/-- A router port at the edge of the 8 × 8 array: engine e stands at column e mod 8, row e / 8, with north at row 0 (log
entry 53). -/
def edgePort (l : Nat) : Bool :=
  let e := bitsOf l 8 6
  let p := bitsOf l 14 3
  decide (linkKind l = 0) &&
    ((decide (p = 0) && decide (e / 8 = 0)) || (decide (p = 2) && decide (e / 8 = 7)) ||
      (decide (p = 3) && decide (e % 8 = 0)) || (decide (p = 1) && decide (e % 8 = 7)))

/-- A link id on its physical cluster leads over an edge port without a link, or to a C-die that is not fitted. -/
def Dev.downEdge (d : Dev) (l : Nat) : Bool :=
  let cl := linkCl l
  let n := cl / 16
  linkEdge l &&
    (match cl % 16 with
      | 0 | 4 | 8 | 7 | 11 => false
      | 1 => !d.fit ((n + 3) % 4)
      | 13 => !d.fit ((n + 1) % 4)
      | _ => true)

/-- Unconnected router ports, closed Scrim port, down die links. -/
def Graph.checkPorts (g : Graph) (d : Dev) : Option LCore :=
  g.firstCirc fun _ x => x.route.any fun r =>
    let l := physLink g.place r.1
    edgePort l || (decide (linkKind l = 3) && decide (linkXport l = 34) && !d.fit 34) || d.downEdge l

/-! Slot wheels (R155, R158, R436) -/

/-- The codes of a link's wheel; a link without one has sixteen UNUSED positions. -/
def Graph.codes (g : Graph) (l : Nat) : Nat :=
  ((g.sects.findSome? fun s => s.wheels.find? fun w => decide (w.1 = l)).map fun w => w.2).getD 0

def codeOf (codes j : Nat) : Nat := bitsOf codes (2 * j) 2

/-- How many OWN bits name position j of a link. -/
def Graph.owners (g : Graph) (l j : Nat) : Nat :=
  (g.circs.map fun p => (p.2.route.filter fun r => decide (r.1 = l) && bitAt r.2 j).length).sum

/-- A circuit crosses a link as R155 asks. -/
def Graph.crossOk (g : Graph) (x : LCirc) (r : Nat × Nat) : Bool :=
  let c := g.codes r.1
  if x.free then (List.range 16).any fun j => decide (codeOf c j = 2)
  else (List.range 16).any fun j => decide (codeOf c j = 1) && bitAt r.2 j

/-- Every position of a wheel is claimed as its code says. -/
def Graph.wheelOk (g : Graph) (w : Nat × Nat) : Bool :=
  (List.range 16).all fun j =>
    let n := g.owners w.1 j
    decide (codeOf w.2 j ≠ 3) && decide (n = if codeOf w.2 j = 1 then 1 else 0)

/-- Slot wheel ownership. -/
def Graph.checkWheels (g : Graph) : Option LCore :=
  match g.firstCirc (fun _ x => x.route.any fun r =>
      !g.crossOk x r || (List.range 16).any fun j => bitAt r.2 j && decide (codeOf (g.codes r.1) j ≠ 1)) with
  | some c => some c
  | none => (g.sects.findSome? fun s => s.wheels.find? fun w => !g.wheelOk w).map fun w => (linkCl w.1, bitsOf w.1 4 4)

/-! The static timed class and entry rows (R159, R439) -/

/-- The node a timed circuit leaves or enters: an engine, a counter, a port. -/
def epNode (cl x : Nat) : Nat :=
  if epKind x ≤ 1 then (cl * 16 + epCore x) * 64 + epEng x
  else 2 ^ 20 * (1 + epKind x) + (cl * 4096 + (if epKind x = 2 then epCore x * 16 + epIdx x else epNum x))

/-- Edges left once those that leave a node no edge enters are taken away, n times. -/
def pruneEdges : Nat → List (Nat × Nat) → List (Nat × Nat)
  | 0, es => es
  | n + 1, es => pruneEdges n (es.filter fun e => es.any fun f => decide (f.2 = e.1))

/-- The timed-class circuits of context k form no cycle (R159). -/
def Graph.acyclic (g : Graph) (k : Nat) : Bool :=
  let es := (g.circs.filter fun p => !p.2.free && p.2.inCtx k).map fun p => (epNode p.1.cl p.2.src, epNode p.2.dstCl p.2.dst)
  (pruneEdges es.length es).isEmpty

/-- The timed-class part of a core context passes R159. -/
def timedOk (x : LCtx) : Bool :=
  x.used.all fun y => y.2.free ||
    (decide (y.2.op ≠ 6 ∧ y.2.op ≠ 7) && decide (y.2.ctrUse ≠ 2) &&
      (decide (y.2.ctrUse ≠ 1) || decide ((x.counters.getD y.2.ctr (0, 0, 0, 0, 0)).1 = 1)))

/-- The entry rows of a section's circuit: ORDER values. -/
def LSect.orders (s : LSect) (id : Nat) : List Nat :=
  (s.rows.filter fun r => decide (bitsOf r 0 16 = id) && decide (bitsOf r 16 3 ≠ 2)).map fun r => bitsOf r 34 12

/-- Descriptors of an engine of a core context. -/
def Graph.engDescs (g : Graph) (k : Nat) (c : LCore) (e : Nat) : List Desc :=
  ((g.ctxs.filter fun p => decide ((p.1.cl, p.2.core) = c ∧ p.2.ctx = k)).map fun p =>
    (p.2.used.filter fun y => decide (y.1 = e)).map fun y => y.2).flatten

/-- The outputs that a descriptor's operation uses (Tables 12.9, 12.10). -/
def Desc.outputs (y : Desc) : List Nat :=
  if y.op = 1 ∨ y.op = 5 then (if y.out0 = 127 then [] else [y.out0])
  else if y.op = 2 then y.out0 :: (if y.out1 = 127 then [] else [y.out1])
  else if y.op = 6 then [y.out0, y.out1]
  else if y.op = 4 ∨ y.op = 7 ∨ y.op = 8 ∨ y.op = 10 ∨ y.op = 11 ∨ y.op = 13 then [y.out0]
  else []

/-- The tokens that a timed-class descriptor gives output o per event (Tables 12.9, 12.10): one each firing, a QUANT its SCALE token
besides, a MEMWR two each firing. -/
def tokensPerEvent (y : Desc) (o : Nat) : Nat :=
  if y.free then 0
  else if y.op = 2 then (if y.out0 = o then y.fires + 2 else 0)
  else if y.op = 11 then (if y.out0 = o then 2 * (y.fires + 1) else 0)
  else if y.op = 1 ∨ y.op = 4 ∨ y.op = 5 ∨ y.op = 8 ∨ y.op = 10 then (if y.out0 = o then y.fires + 1 else 0)
  else 0

/-- The triggers that the timed-class descriptors of a core context give counter j per event. -/
def LCtx.triggers (x : LCtx) (j : Nat) : Nat :=
  (x.used.map fun y => if !y.2.free ∧ y.2.ctrUse = 1 ∧ y.2.ctr = j then y.2.fires + 1 else 0).sum

/-- The producer of a timed-class circuit gives it its K_c tokens per event, in context k (R159): an engine by the firings of its
descriptors, where no Scrim output of a QUANT, which follows the data, shares the output; a FIXED counter by its triggers. A free-class
descriptor that named the output, or triggered the counter, would add tokens that no event fixes (R29). What a memory port returns is taken as
declared (log entry 60). -/
def Graph.kcOk (g : Graph) (s : LSect) (x : LCirc) (k : Nat) : Bool :=
  let c : LCore := (s.cl, epCore x.src)
  if epKind x.src = 0 then
    let ds := g.engDescs k c (epEng x.src)
    (ds.all fun y => !y.free || !y.outputs.contains (epIdx x.src)) &&
    ((ds.any fun y => !y.free && decide (y.op = 2 ∧ y.out1 = epIdx x.src)) ||
      decide ((ds.map fun y => tokensPerEvent y (epIdx x.src)).sum = x.k))
  else if epKind x.src = 2 then
    g.ctxs.all fun p => decide ((p.1.cl, p.2.core) ≠ c ∨ p.2.ctx ≠ k) ||
      ((p.2.used.all fun y => !y.2.free || decide (y.2.ctrUse ≠ 1 ∨ y.2.ctr ≠ epIdx x.src)) &&
        decide ((p.2.triggers (epIdx x.src)) = x.k * (p.2.counters.getD (epIdx x.src) (0, 0, 0, 0, 0)).2.2.2.1))
  else true

/-- A timed-class circuit carries 1 to 4,096 tokens, as many as its producer gives, and one from entry rows has exactly K_c of them, in
order 0 to K_c − 1. Entry rows name no timed-class circuit with another source (DEDUCED, log entry 75). -/
def Graph.rowsOk (g : Graph) (s : LSect) (x : LCirc) : Bool :=
  let os := s.orders x.id
  x.free || (decide (x.k ≤ 4096) && (List.range 4).all (fun k => !x.inCtx k || g.kcOk s x k) && ((decide (epKind x.src ≠ 5) && os.isEmpty) ||
    (decide (epKind x.src = 5) && decide (os.length = x.k) && (List.range x.k).all fun i => os.contains i)))

/-- Static timed class, entry rows. -/
def Graph.checkTimed (g : Graph) : Option LCore :=
  match g.firstCtx (fun _ x => !timedOk x) with
  | some c => some c
  | none =>
    match g.firstCirc (fun s x => !g.rowsOk s x) with
    | some c => some c
    | none => if (List.range 4).all g.acyclic then none else g.firstCirc fun _ x => !x.free

/-! Counters (Tables 5.5, 5.6) -/

/-- A counter's settings. -/
def counterOk (k : Nat × Nat × Nat × Nat × Nat) : Bool :=
  decide (k.1 ≤ 4) && (decide (k.1 ≠ 1) || decide (1 ≤ k.2.2.2.1)) &&
    (decide (k.1 ≠ 4) || decide (1 ≤ k.2.1 ∧ k.2.1 ≤ 64))

def Graph.checkCounters (g : Graph) : Option LCore := g.firstCtx fun _ x => !(x.counters.all counterOk)

/-! Switch groups and sections (R170, R186, R187, R445) -/

/-- The group of a core. -/
def Graph.group (g : Graph) (c : LCore) : Option Nat :=
  (g.ctxs.find? fun p => decide ((p.1.cl, p.2.core) = c)).map fun p => p.2.group

/-- No circuit leads from a core of one group to a core of another (R170), and a core belongs to one group. -/
def Graph.checkGroups (g : Graph) : Option LCore :=
  match g.firstCirc (fun s x => epInCore x.src && epInCore x.dst &&
      decide (g.group (s.cl, epCore x.src) ≠ g.group (x.dstCl, epCore x.dst))) with
  | some c => some c
  | none => g.firstCtx fun s x => decide (g.group (s.cl, x.core) ≠ some x.group)

/-- The timed-class descriptors of a core context. -/
def LCtx.timedDescs (x : LCtx) : List (Nat × Nat) := x.descs.filter fun e => (Desc.of e.2).valid && !(Desc.of e.2).free

/-- The context slots a group's section table names. -/
def Graph.slots (g : Graph) (grp : Nat) : List Nat :=
  ((g.table.filter fun t => decide (t.group = grp)).map fun t => t.ctx).dedup

/-- The timed-class Roller stream of a core context: stream, staging ring and segments; none where its stream is free-class (R434). -/
def LSect.timedStream (s : LSect) (x : LCtx) : Option (Nat × Nat × List Nat) :=
  if bitAt x.stream 0 && !bitAt x.stream 1 then
    some (x.stream, x.ring, (s.segsOf x.core x.ctx).map fun w => putBits w 4 2 0)
  else none

/-- Sections of a group change nothing of the timed class: its descriptors, its circuits and its Roller stream (R186, R187). -/
def Graph.checkSections (g : Graph) : Option LCore :=
  let named : LCtx → Bool := fun x => (g.slots x.group).contains x.ctx
  match g.firstCtx (fun s x => named x && g.ctxs.any fun p =>
      decide (p.1.cl = s.cl ∧ p.2.core = x.core) && named p.2 &&
        (decide (p.2.timedDescs ≠ x.timedDescs) || decide (p.1.timedStream p.2 ≠ s.timedStream x))) with
  | some c => some c
  | none => g.firstCirc fun s x =>
      let c := circCore s x
      let ks := ((g.group c).map g.slots).getD []
      !x.free && ks.any (fun k => x.inCtx k) && !ks.all fun k => x.inCtx k

/-- Sections of a group in order of execution. -/
def Graph.sections (g : Graph) (grp : Nat) : List LSec :=
  (g.table.filter fun t => decide (t.group = grp)).mergeSort fun a b => decide (a.order ≤ b.order)

/-- A group's first core: that of its first core context, core 0 of logical cluster 0 for a group without one. -/
def Graph.groupCore (g : Graph) (grp : Nat) : LCore :=
  ((g.ctxs.find? fun p => p.2.group = grp).map fun p => (p.1.cl, p.2.core)).getD (0, 0)

/-- Each group's first section is RESIDENT (R445); the refusal names the group's first core. -/
def Graph.checkTable (g : Graph) : Option LCore :=
  (findBelow (fun k => match (g.sections k).head? with
    | none => false
    | some t => !t.resident) 64).map g.groupCore

/-- Each section that is not resident lies in a SECTION area (R226) or in cluster memory. -/
def Graph.tableOk (g : Graph) (d : Dev) : Bool :=
  g.table.all fun t => t.resident || decide (t.area = 0x1F) ||
    (decide (d.fld (Reg.stkAreaLo t.stack t.area) Fld.stkAreaLoKind = 5) &&
      decide (t.ofs + t.len ≤ d.fld (Reg.stkAreaHi t.stack t.area) Fld.stkAreaHiSize64k * 65536))

/-! Buffering (R440, R201) -/

/-- Something with places for tokens on a circuit's way: a store, the buffer of the core port before a spine latch, or the queue or port at
its end. -/
inductive Place where
  | store (s : Store)
  | corePort (cl core : Nat)
  | atEnd (cl ep : Nat)
  deriving DecidableEq, Repr

/-- The places of one class on a circuit's way (Table 4.11): every router output latch, crossbar buffer, crossing FIFO and input queue. -/
def LCirc.places (x : LCirc) : List (Place × Nat) :=
  let link := fun h => (x.route.getD h (0, 0)).1
  let q := if epKind x.src = 5 then 40 else epNum x.src
  let hops := (List.range x.route.length).map fun h =>
    let s := storeAt (if h = 0 then none else some (link (h - 1))) q (link h)
    (.store s, s.cap) :: (match s with
      | .spine l => if h = 0 then [] else [(Place.corePort (linkCl l) (linkCore l), 4)]
      | _ => [])
  let last := link (x.route.length - 1)
  hops.flatten ++ (if epKind x.dst = 1 then [(.atEnd x.dstCl x.dst, 8)]
    else if linkKind last = 3 then [(.atEnd (linkCl last) (linkXport last), if linkEdge last then 68 else 4)] else [])

/-- The buffering of some circuits in their class: what they share counts once (R164). -/
def buffering (xs : List LCirc) : Nat := (((xs.map LCirc.places).flatten.dedup).map fun p => p.2).sum

/-- Reconvergence buffering. -/
def Graph.checkRecs (g : Graph) : Option LCore :=
  g.sects.findSome? fun s => (s.recs.find? fun r =>
    decide (buffering (s.circs.filter fun x => r.circs.contains x.id) < r.dreq)).map fun r =>
      (s.cl, epCore r.join)

/-- Free-class circuits of context k that leave an engine by one of the given outputs. -/
def Graph.leaving (g : Graph) (k : Nat) (c : LCore) (e : Nat) (outs : List Nat) : List (LSect × LCirc) :=
  g.circs.filter fun p => p.2.free && p.2.inCtx k && decide (epKind p.2.src = 0) &&
    decide ((p.1.cl, epCore p.2.src) = c ∧ epEng p.2.src = e) && outs.contains (epIdx p.2.src)

/-- The circuits of a credit loop's forward path: from the gated descriptors on, through the engines they reach, as far as those
that return the loop's credits (log entry 54). -/
def Graph.forward (g : Graph) (k loop : Nat) : Nat → List (LSect × LCirc) → List (LSect × LCirc)
  | 0, xs => xs
  | n + 1, xs =>
    let more := (xs.map fun p =>
      let c : LCore := (p.2.dstCl, epCore p.2.dst)
      let ds := g.engDescs k c (epEng p.2.dst)
      if epKind p.2.dst ≠ 1 ∨ ds.any (fun y => decide (y.op = 0x0D ∧ bitsOf y.imm 0 6 = loop)) then []
      else g.leaving k c (epEng p.2.dst) (List.range 64)).flatten
    g.forward k loop n (xs ++ (more.filter fun p => !xs.contains p)).dedup

/-- Credit loops. -/
def Graph.checkCredits (g : Graph) (d : Dev) : Option LCore :=
  g.sects.findSome? fun s => (List.range 64).findSome? fun k =>
    let a := Reg.crlLoop (g.phys s.cl) k
    let c : LCore := (s.cl, d.fld a Fld.crlLoopCore)
    let ctx := d.fld a Fld.crlLoopContext
    let gated := (List.range 64).map fun e =>
      ((g.engDescs ctx c e).filter fun y => decide (y.ctrUse = 2 ∧ y.ctr = d.fld a Fld.crlLoopCounter)).map fun y =>
        g.leaving ctx c e y.outputs
    let path := g.forward ctx k 64 gated.flatten.flatten
    if d.flag a Fld.crlLoopEn && decide (buffering (path.map fun p => p.2) < d.fld a Fld.crlLoopBound) then some c else none

/-! Roller streams, pass images and mirrors (R206, R211, R212, R215, R232) -/

/-- Stack-fed segments of a core context. -/
def LSect.stackFed (s : LSect) (x : LCtx) : Bool := (s.segsOf x.core x.ctx).any fun g => bitAt g 6

/-- E_p of a context's stream. -/
def LCtx.ep (x : LCtx) : Nat := bitsOf x.stream 8 5 + 1

/-- A core context's stream feeds descriptors of its class, from a staging ring of 2 to 32 KiB when it is stack-fed, and its
timed-class stack-fed streams of a die share one E_p. -/
def Graph.streamOk (g : Graph) (s : LSect) (x : LCtx) : Bool :=
  !bitAt x.stream 0 ||
  (x.used.all (fun y => decide (y.2.op ≠ 0) || (y.2.free == bitAt x.stream 1)) &&
    (!s.stackFed x || (decide (4 ≤ bitsOf x.ring 16 16) && decide (bitsOf x.ring 16 16 ≤ 64))) &&
    (!s.stackFed x || bitAt x.stream 1 || g.ctxs.all fun p =>
      decide (g.phys p.1.cl / 16 ≠ g.phys s.cl / 16) || !bitAt p.2.stream 0 || !p.1.stackFed p.2 || bitAt p.2.stream 1 ||
        decide (p.2.ep = x.ep)))

/-- Bytes of a block of a pass image: 256 in paired delivery, else 512. -/
def Graph.blockSize (g : Graph) (cl core ctx : Nat) : Nat :=
  match g.ctxs.find? fun p => decide (p.1.cl = cl ∧ p.2.core = core ∧ p.2.ctx = ctx) with
  | some p => if bitAt p.2.stream 2 then 256 else 512
  | none => 512

/-- The bytes from offset ofs on that some chunks leave in their destination, 0 where none of them writes. -/
def chunkBytes (cs : List Chunk) (ofs len : Nat) : List Byte :=
  cs.foldl (fun bs c => bs.zipIdx.map fun p =>
    if c.ofs ≤ ofs + p.2 ∧ ofs + p.2 < c.ofs + c.data.length then c.data.getD (ofs + p.2 - c.ofs) 0 else p.1) (List.replicate len 0)

/-- The block map of pass image r of stack st: what the image's chunks of it leave, each at its OFFSET (R442). -/
def Graph.blockMap (g : Graph) (st r : Nat) : List (Nat × Nat × Nat × Nat × Bool) :=
  let cs := ((g.chunks.filter fun b => decide (b.1 = stStack ∧ b.2.1 = st)).map fun b =>
    b.2.2.filter fun c => decide (c.kind = 3 ∧ c.ref = r)).flatten
  blockMapOf (chunkBytes cs 0 ((cs.map fun c => c.ofs + c.data.length).foldl max 0))

/-- The blocks of a pass image of stack st go to cores of its die, and the image lies inside its ROLLER area (R212, R226). -/
def Graph.imageOk (g : Graph) (d : Dev) (st : Nat) (c : Chunk) : Bool :=
  let bs := g.blockMap st c.ref
  let die := st / 3
  match d.rollerArea st c.ref with
  | none => false
  | some a =>
    bs.all (fun b => decide (g.phys (16 * die + b.2.1) / 16 = die)) &&
      decide ((bs.map fun b => g.blockSize (16 * die + b.2.1) b.1 b.2.2.2.1).sum ≤
        d.fld (Reg.stkAreaHi st a.1) Fld.stkAreaHiSize64k * 65536)

/-- Roller streams, pass images and mirrors; a pass image's refusal names the core of its first block. -/
def Graph.checkRoller (g : Graph) (d : Dev) : Option LCore :=
  match g.firstCtx (fun s x => !g.streamOk s x) with
  | some c => some c
  | none =>
    match g.chunks.findSome? fun b => if b.1 = stStack then
        (b.2.2.find? fun c => decide (c.kind = 3) && !g.imageOk d b.2.1 c).map fun c => (b.2.1, c) else none with
    | some x => some (match blockMapOf x.2.data with
      | b :: _ => (16 * (x.1 / 3) + b.2.1, b.1)
      | [] => (16 * (x.1 / 3), 0))
    | none => if d.ok232 then none else g.firstCtx fun _ _ => true

/-! Statistics, Scrim and adaptation pairs (R246, R256, R268, R269) -/

/-- A circuit marked for statistics crosses its own cluster's crossbar (R256). -/
def statOk (s : LSect) (x : LCirc) : Bool :=
  !x.stat || x.route.any fun r => decide (linkKind r.1 = 3) && decide (linkCl r.1 = s.cl)

/-- A row, in use or not, marks Scrim channels, or the Scrim directory lists any, on a part without Scrim (R268). -/
def Graph.scrimBad (g : Graph) (d : Dev) : Bool :=
  !d.fit 34 && ((List.range 64).any (fun cl => !(d.nonzero (Reg.numRow cl 0) 4 4096 Fld.numRowMarked).isEmpty) ||
    g.chunks.any fun b => decide (b.1 = stScrim) && b.2.2.any fun c => decide (c.kind = 5) &&
      (scrimDirOf c.data).any fun e => e.2.2.1 || e.2.2.2.1)

/-- The entries of the directory that mark channels of a row, in all SCRIM sections of its cluster. -/
def Graph.marksOf (g : Graph) (idx row : Nat) : Nat :=
  ((g.chunks.filter fun b => decide (b.1 = stScrim ∧ b.2.1 = idx)).map fun b => ((b.2.2.filter fun c => decide (c.kind = 5)).map fun c =>
    ((scrimDirOf c.data).filter fun e => decide (e.1 = row) && e.2.2.1).length).sum).sum

/-- No row has more than 4 marked channels (R262). -/
def Graph.marksOk (g : Graph) : Bool :=
  g.chunks.all fun b => decide (b.1 ≠ stScrim) || b.2.2.all fun c => decide (c.kind ≠ 5) ||
    (scrimDirOf c.data).all fun e => decide (g.marksOf b.2.1 e.1 ≤ 4)

/-- The registers that hold an engine's weight exponents in a core context: RB of its MACs. -/
def LCtx.expRegs (x : LCtx) (e : Nat) : List Nat := (x.used.filter fun y => decide (y.1 = e ∧ y.2.op = 0)).map fun y => y.2.rb

/-- Two descriptors of a pair's contexts agree but for the registers that hold the engine's weight exponents: RB of a MAC, and RD of one that
writes such a register. -/
def descPair (x y : LCtx) (e a b : Nat) : Bool :=
  decide (a = b) ||
  (decide (bitsOf a 0 5 = 0) && decide (putBits a 30 6 0 = putBits b 30 6 0)) ||
  (decide (bitsOf a 0 5 ≠ 0) && decide (putBits a 36 6 0 = putBits b 36 6 0) &&
    (x.expRegs e).contains (bitsOf a 36 6) && (y.expRegs e).contains (bitsOf b 36 6))

/-- A segment without its weight-store address. -/
def segShape (s : Nat) : Nat := if bitAt s 6 then putBits s 4 2 0 else putBits (putBits s 32 32 0) 4 2 0

/-- An adaptation pair is identical but for its live and shadow regions and its weight exponent registers, and has store-fed blocks
(R269). -/
def Graph.pairOk (g : Graph) (s : LSect) (x : LCtx) : Bool :=
  !x.paired ||
  (match s.ctxs.find? fun y => decide (y.core = x.core ∧ y.ctx = x.other) with
    | none => false
    | some y =>
      y.paired && decide (y.other = x.ctx) && decide (y.group = x.group ∧ y.qclass = x.qclass ∧ y.stream = x.stream ∧
        y.ring = x.ring ∧ y.counters = x.counters) && (x.adaptive == y.adaptive) && (x.nonres == y.nonres) &&
      decide (y.descs.map (fun e => e.1) = x.descs.map fun e => e.1) &&
      (x.descs.zip y.descs).all (fun p => descPair x y (p.1.1 / 32) p.1.2 p.2.2) &&
      decide ((s.segsOf y.core y.ctx).map segShape = (s.segsOf x.core x.ctx).map segShape) &&
      ((s.segsOf x.core x.ctx).any fun w => !bitAt w 6) &&
      g.circs.all fun c => !((epInCore c.2.src && decide (c.1.cl = s.cl ∧ epCore c.2.src = x.core)) ||
        (epInCore c.2.dst && decide (c.2.dstCl = s.cl ∧ epCore c.2.dst = x.core))) || (c.2.inCtx x.ctx == c.2.inCtx y.ctx))

/-- BF16 rows belong to adaptation contexts: the circuit that carries a row's blocks is the one of the same place among those
its section marks for statistics (log entry 46), and a BF16 row without one belongs to none. -/
def Graph.batchOk (g : Graph) (d : Dev) (s : LSect) : Bool :=
  let cl := g.phys s.cl
  let cs := (s.circs.filter fun x => x.stat).mergeSort fun a b => decide (a.id ≤ b.id)
  (d.rowsUsed cl).zipIdx.all fun p => decide (d.rowFmt cl p.1 ≠ 1) ||
    (match cs[p.2]? with
      | some c => s.ctxs.all fun x => !(decide (x.core = epCore c.src) && c.inCtx x.ctx) || x.adaptive
      | none => false)

/-- Every BF16 row lies in a cluster with a section, whose checks judge it. -/
def Graph.batchPlaced (g : Graph) (d : Dev) : Bool :=
  d.allRows.all fun x => decide (d.rowFmt x.1 x.2 ≠ 1) || g.sects.any fun s => decide (g.phys s.cl = x.1)

/-- Statistics, Scrim and adaptation pairs. -/
def Graph.checkNum (g : Graph) (d : Dev) : Option LCore :=
  match g.firstCirc (fun s x => !statOk s x) with
  | some c => some c
  | none =>
    match g.firstCtx (fun s x => !g.pairOk s x) with
    | some c => some c
    | none =>
      if g.scrimBad d || !g.marksOk then some ((g.firstCtx fun _ _ => true).getD (0, 0))
      else (g.sects.find? fun s => !g.batchOk d s).map fun s => (s.cl, 0)

/-! All checks, in the order of Table 12.11 -/

/-- A context check failed with a status, at a core. -/
def Graph.firstOf (g : Graph) (d : Dev) : Option (Status × LCore) :=
  let r (st : Status) (x : Option LCore) : Option (Status × LCore) := x.map fun c => (st, c)
  [r .refused (g.checkDesc d), r .refused (g.checkPorts d), r .slotClash g.checkWheels, r .refused g.checkTimed,
    r .refused g.checkCounters, r .refused g.checkGroups, r .refused g.checkSections, r .refused g.checkTable,
    r .refused g.checkRecs,
    r .refused (g.checkCredits d), r .refused (g.checkRoller d), r .refused (g.checkNum d)].findSome? id

/-! Sections that are not resident: each is checked as it will stand in its context slot (R446) -/

/-- The logical cluster of a group's first core. -/
def Graph.groupCl (g : Graph) (grp : Nat) : Nat := ((g.ctxs.find? fun p => p.2.group = grp).map fun p => p.1.cl).getD 0

/-- The bytes that the image's chunks leave where an entry of the section table points. -/
def Graph.sectionBytes (g : Graph) (t : LSec) : List Byte :=
  let cs := (g.chunks.filter fun b => if t.area = 0x1F then decide (b.1 = stWstore ∧ b.2.1 = g.groupCl t.group)
    else decide (b.1 = stStack ∧ b.2.1 = t.stack)).map fun b =>
      b.2.2.filter fun c => if t.area = 0x1F then decide (c.kind = 1) else decide (c.kind = 2 ∧ c.ref = t.area)
  chunkBytes cs.flatten t.ofs t.len

/-- A section as it stands once another one, l, is loaded into context slot k: l's contexts, segments and circuits of the slot in place of
those there, and its wheels in place of those of the same links. -/
def LSect.join (s l : LSect) (k : Nat) : LSect :=
  let mine := l.ctxs.filter fun y => decide (y.ctx = k)
  let cores := mine.map fun y => y.core
  let from_ : LCirc → Bool := fun y => y.free && (if epInCore y.src then cores.contains (epCore y.src)
    else epInCore y.dst && decide (y.dstCl = s.cl) && cores.contains (epCore y.dst))
  let new := l.circs.filter fun y => y.inCtx k
  let cut := (s.circs.map fun y => if from_ y then { y with flags := putBit y.flags (2 + k) false } else y).filter
    fun y => decide (y.ctxs ≠ 0) || !from_ y
  { s with
    ctxs := (s.ctxs.filter fun x => !(decide (x.ctx = k) && cores.contains x.core)) ++ mine,
    segs := (s.segs.filter fun w => !(decide (bitsOf w 4 2 = k) && cores.contains (bitsOf w 0 4))) ++
      l.segs.filter fun w => decide (bitsOf w 4 2 = k),
    circs := (cut.filter fun y => !new.any fun z => decide (z.id = y.id)) ++ new,
    wheels := (s.wheels.filter fun w => !l.wheels.any fun v => decide (v.1 = w.1)) ++ l.wheels,
    rows := s.rows ++ l.rows.filter fun r => !s.rows.contains r,
    recs := s.recs ++ l.recs.filter fun r => !s.recs.contains r }

/-- The graph with a section in its slot. -/
def Graph.joined (g : Graph) (t : LSec) (l : LSect) : Graph :=
  { g with sects := g.sects.map fun s => if s.cl = l.cl then s.join l t.ctx else s }

/-- The TIMED positions of a wheel's codes. -/
def timedMask (c : Nat) : List Nat := (List.range 16).filter fun j => codeOf c j = 1

/-- A circuit of a section starts or ends in a core of a switch group. -/
def Graph.inGroup (g : Graph) (s : LSect) (grp : Nat) (x : LCirc) : Bool := decide (g.group (circCore s x) = some grp)

/-- Two circuit entries are one but for the contexts that hold them. -/
def LCirc.same (x y : LCirc) : Bool :=
  decide (({ x with flags := 0 } : LCirc) = { y with flags := 0 }) && x.stat == y.stat && x.free == y.free

/-- The timed-class entry rows of a section's circuit. -/
def LSect.timedRows (s : LSect) (id : Nat) : List Nat := s.rows.filter fun r => decide (bitsOf r 0 16 = id)

/-- A section for slot k of a group holds the timed class that its cluster holds already, no more and no less: every timed-class circuit of
the group with its entry rows, and the TIMED positions of the wheels (R186, R187). -/
def Graph.sameTimed (g : Graph) (l : LSect) (t : LSec) : Bool :=
  g.sects.all fun s => decide (s.cl ≠ l.cl) ||
    ((l.circs.all fun y => y.free || s.circs.any fun x => x.same y && decide (s.timedRows x.id = l.timedRows y.id)) &&
    (s.circs.all fun x => x.free || !g.inGroup s t.group x || !(g.slots t.group).any x.inCtx ||
      l.circs.any fun y => x.same y && y.inCtx t.ctx) &&
    l.wheels.all fun w => decide (timedMask w.2 = timedMask (g.codes w.1)))

/-- The first context check that the image fails, the sections that are not resident among its contexts; one that is no CONTEXT section,
or that would change the timed class, is refused at its group's first core. -/
def Graph.firstFault (g : Graph) (d : Dev) : Option (Status × LCore) :=
  match g.firstOf d with
  | some f => some f
  | none => (g.table.filter fun t => !t.resident).findSome? fun t =>
      let b := g.sectionBytes t
      let l := lsectOf b
      if contextFormed b && g.sameTimed l t then (g.joined t l).firstOf d else some (.refused, g.groupCore t.group)

/-- The image holds a timed-class context: a timed-class descriptor or circuit. -/
def Graph.timed (g : Graph) : Bool :=
  g.ctxs.any (fun p => !p.2.timedDescs.isEmpty) || g.circs.any fun p => !p.2.free

/-! Chunks (R442) -/

/-- The bytes that a chunk's destination holds; none where its KIND is not allowed in a section of the type, or names nothing. -/
def Graph.chunkRoom (_ : Graph) (d : Dev) (ty idx : Nat) (c : Chunk) : Option Nat :=
  if ty = stWstore ∧ c.kind = 0 ∧ c.ref < 16 then some (2 ^ 18)
  else if ty = stWstore ∧ c.kind = 1 then some (2 ^ 23)
  else if ty = stStack ∧ c.kind = 2 ∧ c.ref < 32 ∧ d.fld (Reg.stkAreaLo idx c.ref) Fld.stkAreaLoKind ≠ 0 then
    some (d.fld (Reg.stkAreaHi idx c.ref) Fld.stkAreaHiSize64k * 65536)
  else if ty = stStack ∧ c.kind = 3 then some (2 ^ 32)
  else if ty = stScrim ∧ c.kind = 4 then some (2 ^ 20)
  else if ty = stScrim ∧ c.kind = 5 then some (8 * 4096 * 64)
  else none

/-- Every chunk of the image lies within its destination. -/
def Graph.chunksOk (g : Graph) (d : Dev) : Bool :=
  g.chunks.all fun b => b.2.2.all fun c => match g.chunkRoom d b.1 b.2.1 c with
    | none => false
    | some n => decide (c.ofs + c.data.length ≤ n)

/-! TIMING (R429 to R431) -/

/-- The cycle costs of Table 4.9, and the minimum pace of Table 4.2 in MHz by row from 600 mV, for stepping B0; else A1. -/
def costTable (step : Nat) : List Nat :=
  if step = 0xB0 then [1, 4, 5, 3, 2, 1, 2, 2, 3, 3, 3, 6, 2, 1] else [1, 5, 6, 3, 2, 1, 2, 3, 4, 3, 3, 8, 2, 1]
def paceTable (step : Nat) : List Nat :=
  if step = 0xB0 then [1040, 1240, 1420, 1570, 1700, 1810] else [980, 1170, 1340, 1480, 1600, 1710]

/-- P_min at a voltage, taken from the next lower row. -/
def paceMin (step mv : Nat) : Nat := (paceTable step).getD (min ((mv - 600) / 50) 5) 0

/-- The enabled network inputs. -/
def Dev.netInputs (d : Dev) : List Nat :=
  (List.range 4096).filter fun i => d.flag (Reg.scrInput i) Fld.scrInputEn && !d.isPrim i

/-- ceil(cycles × 10^6 / pace), in ps. -/
def cyclePs (cycles pace : Nat) : Nat := ceilDiv (cycles * 1000000) pace

/-- A stepping table passes R430 and R431. -/
def Dev.tableOk (d : Dev) (t : LTab) : Bool :=
  let dl := (if d.group then d.lNs - d.gNs else d.lNs) * 1000
  let a := d.aNs * 1000
  decide (600 ≤ t.vProof ∧ t.vProof ≤ 850) &&
  (t.costs.zip (costTable t.step)).all (fun p => decide (p.2 ≤ p.1)) &&
  decide (1 ≤ t.pMin ∧ t.pMin ≤ paceMin t.step t.vProof) && decide (t.l = d.lNs ∧ t.a = d.aNs) &&
  decide (t.g = if d.group then d.gNs else 0) &&
  decide (t.records.length = d.netInputs.length) && decide ((t.records.map fun r => r.1 % 4096).Nodup) &&
  t.records.all fun r =>
    d.netInputs.contains (r.1 % 4096) &&
    decide (a + cyclePs r.2.2.2.1 t.pMin + r.2.1 + 12000 ≤ dl) &&
    decide (a + cyclePs r.2.2.2.2 t.pMin + r.2.2.1 + 64000 ≤ dl)

/-- A TIMING section passes R429 to R431 for the image's STEPPINGS. -/
def Dev.timingOk (d : Dev) (b : List Byte) (steppings : List Nat) : Bool :=
  let n := leAt b 4 1
  let ts := tablesOf n (b.drop 64)
  decide (leAt b 0 4 = 0x5A54494D) && ts.2 && decide (ts.1.map LTab.step = steppings) && ts.1.all fun t => d.tableOk t

end Sys2Proof.Machine
end

