-- ==== Sys2Proof/Machine/Load.lean ====
section
/-!
DEFINITION. What the loader makes of an image ("What plenec and the device owe each other"; Table 11.1, steps 7 and 8): placement
and relocation, validation, and the registers, contexts, weights, stacks and tables that it fills.
-/

namespace Sys2Proof.Machine

open Sys2Proof

/-! Discarding (R393) -/

/-- The PR and LV fields of a register at their reset values. -/
def Dev.discardReg (d : Dev) (a : Nat) : Dev :=
  match regRow a with
  | none => d
  | some w =>
    let k := w.lv ||| w.pr
    d.wr a ((d.rd a &&& (k ^^^ (2 ^ 32 - 1))) ||| (w.reset &&& k))

/-- What a stack keeps of its record when the image is discarded: its place in the frame, its errors and its banks. -/
def StkRec.emptied (r : StkRec) : StkRec :=
  { r with readsT := [], readsF := [], inPass := [], flights := [], reqs := [], grant := 0 }

/-- The registers that the device derives from a loaded image: R97, R105 and Table 6.16. -/
def derivedRegs : List Nat :=
  (List.range 64).map Reg.hwkCap ++ (List.range 64).map Reg.hwkRowb ++ (List.range 64).map Reg.stpRentries ++
    (List.range 12).map Reg.stkPlansum

/-- Those registers at reset. -/
def Dev.underive (d : Dev) : Dev :=
  derivedRegs.foldl (fun f a => if f.rd a = resetWord a then f else f.wr a (resetWord a)) d

/-- Registers that show what an image has filled and hold nothing else before the Screed arms: the NUM block's, the available credits, the
menu slots' states, and the effective allow masks. -/
def loadedReg (a : Nat) : Bool :=
  decide (0xC00000 ≤ a) || decide (a = Reg.bootPolicyLo ∨ a = Reg.bootPolicyHi) ||
  (decide (Reg.crlStat 0 0 ≤ a ∧ a < 0xA00000) && decide ((a - 0x200000) % 0x20000 < 0x800) &&
    decide (0x600 ≤ (a - 0x200000) % 0x20000 ∧ (a - 0x200000) % 8 = 4)) ||
  (decide (Reg.mnStat 0 ≤ a ∧ a < 0xC00000) && decide ((a - Reg.mnStat 0) % 0x40 = 0))

/-- Those registers at reset, and UNPROVEN cleared. -/
def Dev.unshow (d : Dev) : Dev :=
  let d := (d.regs.map fun e => e.1).foldl (fun f a => if loadedReg a then f.wr a (resetWord a) else f) d
  let d := if d.flag Reg.bootStat Fld.bootStatUnproven then d.setFld Reg.bootStat Fld.bootStatUnproven 0 else d
  if d.flag Reg.scrState Fld.scrStateUnproven then d.setFld Reg.scrState Fld.scrStateUnproven 0 else d

/-- Everything loaded from a slot discarded: PR and LV fields at reset, what shows an image's contents too, no contexts, no fabric or stack
contents from the image (R393). -/
def Dev.discard (d : Dev) : Dev :=
  let d := ((d.regs.map fun e => e.1).foldl (fun f a => f.discardReg a) d).unshow
  let d := d.underive
  let d := (List.range 64).foldl (fun f cl => (List.range 17).foldl (fun h p =>
    if h.rd (Reg.coCtx cl p) = 0 then h else h.wr (Reg.coCtx cl p) 0) f) d
  { d with
    fab := { d.fab with
      cores := d.fab.cores.map fun e => (e.1, { CoreRec.init with passed := e.2.passed, cause := e.2.cause }),
      engs := [], circuits := [], cst := [], wait := [], banks := [], flits := [], wheels := [], wpos := [], entries := [],
      groups := [], drips := [], spills := [], notices := [], images := [], ws := [], cmem := [], scrim := [] },
    stk := { d.stk with stk := d.stk.stk.map fun e => (e.1, e.2.emptied), mem := [], latePasses := [], lateAhead := [], started := [], begun := [] },
    num := ⟨[], [], [], [], [], [], []⟩ }

/-! Placement (R443, R229, R457) -/

/-- The image's areas, in order of stack and area index: stack and area. -/
def Dev.areaRefs (d : Dev) : List (Nat × Nat) :=
  ((List.range 12).map fun s => ((List.range 32).filter fun k =>
    decide (d.fld (Reg.stkAreaLo s k) Fld.stkAreaLoKind ≠ 0)).map fun k => (s, k)).flatten

/-- Base and size of an area in 64 KiB units. -/
def Dev.areaSpan (d : Dev) (a : Nat × Nat) : Nat × Nat :=
  (d.fld (Reg.stkAreaLo a.1 a.2) Fld.stkAreaLoBase64k, d.fld (Reg.stkAreaHi a.1 a.2) Fld.stkAreaHiSize64k)

/-- A span of a stack holds a bad unit. -/
def Dev.spanBad (d : Dev) (s : Nat) (x : Nat × Nat) : Bool :=
  d.stk.bad.any fun b => decide (b.stack = s ∧ x.1 ≤ b.unit ∧ b.unit < x.1 + x.2)

/-- Another base for an area with a bad unit: the lowest in its stack that keeps its offset within the 128 KiB unit, is
clear of bad units and of the other areas (R229; the lowest is log entry 55). -/
def Dev.newBase (d : Dev) (a : Nat × Nat) : Option Nat :=
  let x := d.areaSpan a
  let others := (d.areaRefs.filter fun y => decide (y.1 = a.1 ∧ y.2 ≠ a.2)).map d.areaSpan
  findBelow (fun b => decide (b % 2 = x.1 % 2) && decide ((b + x.2) * 65536 ≤ d.stackBytes a.1) && !d.spanBad a.1 (b, x.2) &&
    others.all fun o => !spansMeet (b, x.2) o) (d.stackBytes a.1 / 65536)

/-- An area of a stack that is UP cannot stay where it is: it holds a bad unit, or its stack has more of them than the list holds (R229,
R455). -/
def Dev.mustMove (d : Dev) (a : Nat × Nat) : Bool :=
  decide (d.stackState a.1 = skUp) && (decide (d.hmapFld (hmStack a.1) 4 1 = 1) || d.spanBad a.1 (d.areaSpan a))

/-- The base that an area finds clear of bad units; none on a stack with more of them than the list holds. -/
def Dev.clearBase (d : Dev) (a : Nat × Nat) : Option Nat := if d.hmapFld (hmStack a.1) 4 1 = 1 then none else d.newBase a

/-- The areas moved off their bad units, in order, and those that find no base. -/
def Dev.relocate (d : Dev) : Dev × List (Nat × Nat) :=
  d.areaRefs.foldl (fun acc a =>
    if acc.1.mustMove a then
      match acc.1.clearBase a with
      | some b => (acc.1.setFld (Reg.stkAreaLo a.1 a.2) Fld.stkAreaLoBase64k b, acc.2)
      | none => (acc.1, acc.2 ++ [a])
    else acc) (d, [])

/-- The unit behind a crossbar port of a logical cluster is used by some circuit. -/
def Graph.usesPort (g : Graph) (l port : Nat) : Bool :=
  g.circs.any fun p => p.2.route.any fun r => decide (linkKind r.1 = 3 ∧ linkXport r.1 = port ∧ linkCl r.1 = l)

/-- Some circuit crosses the edge port of a logical cluster: toward its die link or stack, or in from an entry row. -/
def Graph.usesEdge (g : Graph) (l : Nat) : Bool :=
  g.usesPort l 40 || g.circs.any fun p => decide (epKind p.2.src = 5) && decide (linkCl (p.2.route.getD 0 (0, 0)).1 = l)

/-- A logical cluster fits on physical cluster p (R443). -/
def Dev.clusterFits (d : Dev) (g : Graph) (l p : Nat) : Bool :=
  let stat := d.rd (Reg.clStat p)
  d.fit (p / 16) && decide (bitsOf stat 5 1 = 0) &&
  (!g.usesPort l 34 || decide (bitsOf stat 6 1 = 1)) &&
  (!(g.usesPort l 35 || g.circs.any fun c => decide (c.1.cl = l) && c.2.stat) || decide (bitsOf stat 7 1 = 1)) &&
  (!g.usesEdge l || (match edgeLink p with
    | some dk => d.linkUp dk && d.linkUp (linkPeer dk)
    | none => decide (p % 16 = 0 ∨ p % 16 = 4 ∨ p % 16 = 8) && decide (d.stackState (3 * (p / 16) + p % 16 / 4) = skUp)))

/-- The dies a placement uses. -/
def placedDies (place : List Nat) : List Nat := ((place.filter fun p => decide (p < 64)).map fun p => p / 16).dedup

/-- An area of a placement: one on a stack of its dies. -/
def placedArea (place : List Nat) (a : Nat × Nat) : Bool := (placedDies place).contains (a.1 / 3)

/-- Every stack of the placement's dies with an area that its clusters use is UP, and none of the areas of its dies is among those that find no
clear base (R457, log entry 55). -/
def Dev.stacksFit (d : Dev) (place : List Nat) (stuck : List (Nat × Nat)) : Bool :=
  d.areaRefs.all (fun a => !placedArea place a ||
    decide (d.fld (Reg.stkAreaLo a.1 a.2) Fld.stkAreaLoKind = 3) || decide (d.stackState a.1 = skUp)) &&
    !stuck.any (placedArea place)

/-- A placement fits: its clusters, and the stacks of its areas, stuck being the areas that find no clear base. -/
def Dev.placeFits (d : Dev) (g : Graph) (stuck : List (Nat × Nat)) : Bool :=
  ((List.range 64).all fun l => match physCl g.place l with
    | some p => d.clusterFits g l p
    | none => decide (g.place.getD l 0xFF = 0xFF) && !g.sects.any fun s => decide (s.cl = l)) && d.stacksFit g.place stuck

/-! The image as the loader holds it -/

/-- What an image comes to under one placement: the candidate with REGS, TOPOLOGY and relocated areas, the patched bodies, the graph,
and whether it fits and validates. -/
structure Loaded where
  dev : Dev
  bodies : List Body
  graph : Graph
  fits : Bool
  fault : Option (Option (Status × LCore))

/-- The registers a TOPOLOGY section sets on this member (R402, R357, R368); stored is the section as the Primer holds it, over which the digest
goes. -/
def Dev.loadTopo (d : Dev) (b stored : List Byte) : Dev :=
  let t := topoOf b
  let me := d.devId
  let d := (d.wr Reg.mshMembersLo (t.members % 2 ^ 32)).wr Reg.mshMembersHi (t.members / 2 ^ 32)
  let d := ((d.setFld Reg.mshId Fld.mshIdAnchor t.anchor).setFld Reg.mshId Fld.mshIdDiameter t.dia).setFld Reg.mshId
    Fld.mshIdDetourHops t.detour
  let d := d.setFld Reg.mshTiming Fld.mshTimingFlightNs t.flight
  let d := (List.range 6).foldl (fun f p =>
    let x := t.port me p
    ((f.setFld (Reg.mpCfg p) Fld.mpCfgPartnerId x.2.1).setFld (Reg.mpCfg p) Fld.mpCfgPartnerPort x.2.2).setFld
      (Reg.mpCfg p) Fld.mpCfgUsed (bit01 x.1)) d
  let d := (List.range 64).foldl (fun f s => f.wr (Reg.mshFwd s) (t.fwd me s)) d
  let d := (List.range 64).foldl (fun f s =>
    let r := t.route me s
    (f.setFld (Reg.mshRoute s) Fld.mshRoutePrimary r.1).setFld (Reg.mshRoute s) Fld.mshRouteAlt r.2) d
  let d := d.wr Reg.mshTopoDigest (leNat (shake256 stored 4))
  (d.setFld Reg.mshTiming Fld.mshTimingQMax (if t.q < 255 then t.q else 255)).setFld Reg.mshTiming Fld.mshTimingGminNs
    (if d.gMin t < 8191 then d.gMin t else 8191)

/-- The bodies of an image as read. -/
def imageBodies (m : SMap Byte) (i : Image) : List Body := (sectsOf m i).map fun s => (s, sectBytes m i s)

/-- The graph of a list of bodies under a placement. -/
def graphOf (place : List Nat) (bs : List Body) : Graph :=
  { place := place,
    sects := (bodies bs stContext).map fun b => lsectOf b.2,
    table := sectionTable (bodyOf bs stExec),
    chunks := (bs.filter fun b => decide (b.1.ty = stWstore ∨ b.1.ty = stStack ∨ b.1.ty = stScrim)).map fun b =>
      (b.1.ty, b.1.idx, (chunks b.2).1) }

/-- Every section is formed as its type asks, and the conditional ones are there (Table 11.7). -/
def Dev.formed (c : Dev) (bs : List Body) (g : Graph) (i : Image) : Bool :=
  (bodies bs stContext).all (fun b => contextFormed b.2 && decide (leAt b.2 6 2 = b.1.idx)) &&
  (bs.filter fun b => decide (b.1.ty = stWstore ∨ b.1.ty = stStack ∨ b.1.ty = stScrim)).all (fun b => (chunks b.2).2) &&
  decide ((bodyOf bs stExec).length % 32 = 0) &&
  (!g.timed || hasBody bs stTiming) && (!hasBody bs stTiming || c.timingOk (bodyOf bs stTiming) i.steppings) &&
  (c.allRows.isEmpty || hasBody bs stNuminit) && g.batchPlaced c &&
  (!hasBody bs stNuminit || c.ok403 g.place (bodyOf bs stNuminit)) &&
  (!hasBody bs stPolicy || policyFormed (bodyOf bs stPolicy)) &&
  (!hasBody bs stFuse || c.ok409 (bodyOf bs stFuse) i.keyIndex)

/-- The topology's rules (R307, R356, R368, R402). -/
def Dev.topoOk (c : Dev) (bs : List Body) : Bool :=
  let meshUsed := (List.range 24).any fun k =>
    c.flag (laneReg ⟨(64 + k) % 88, Nat.mod_lt _ (by decide)⟩ Reg.ingLcfg) Fld.ingLcfgEnable
  if hasBody bs stTopology then
    let b := bodyOf bs stTopology
    topoFormed b && (topoOf b).ok356 c.devId (bitsOf c.fitted 28 6) && c.ok368 (topoOf b)
  else !meshUsed && !c.group

/-- An image under placement k: patched, applied to the candidate, judged (R443, R444). The fault is none when it validates,
and holds the context check that fails, if it is one. -/
def Dev.consider (d : Dev) (m : SMap Byte) (i : Image) (k : Nat) : Loaded :=
  let bs := imageBodies m i
  let rel := bodyOf bs stReloc
  let place := placementAt rel k
  let plain := (regsOf (bodyOf bs stRegs)).foldl Dev.primerWrite d
  let (moved, stuck) := plain.relocate
  let bases := moved.areaRefs.map fun a => (moved.areaSpan a).1
  match applyPatches place bases bs (patchesOf rel) with
  | none => ⟨d, bs, graphOf place bs, moved.placeFits (graphOf place bs) stuck, some none⟩
  | some ps =>
    let c := (regsOf (bodyOf ps stRegs)).foldl Dev.primerWrite d
    let (c, stuck) := c.relocate
    let c := if hasBody ps stTopology then c.loadTopo (bodyOf ps stTopology) (bodyOf bs stTopology) else c
    let g := graphOf place ps
    let ok := (List.range 12).all (fun s => plain.okAreas s) && c.okRegs (bodyOf ps stRegs) &&
      c.ok38 (bodyOf ps stRegs) && c.okAll (hasBody ps stTopology) && c.topoOk ps && c.formed ps g i && g.chunksOk c && g.tableOk c
    ⟨c, ps, g, c.placeFits g stuck,
      if !ok then some none else match g.firstFault c with
        | some f => some (some f)
        | none => none⟩

/-- The first placement that fits; when none does, the first (R443, log entry 56). -/
def Dev.choose (d : Dev) (m : SMap Byte) (i : Image) : Loaded :=
  let rel := bodyOf (imageBodies m i) stReloc
  let all := (List.range (relocPlaces rel)).map fun k => d.consider m i k
  match all.find? fun x => x.fits with
  | some x => x
  | none => all.headD (d.consider m i 0)

/-! Loading (step 8) -/

/-- Registers that show what the loader derives: HWK_CAP, HWK_ROWB and STP_RENTRIES of enabled rings, STK_PLANSUM. -/
def Dev.deriveRegs (d : Dev) : Dev :=
  let d := (List.range 64).foldl (fun f r =>
    let ms := (f.members r).length
    let f := f.setFld (Reg.hwkRowb r) Fld.hwkRowbMembers ms
    if f.stippled r then f.wr (Reg.stpRentries r) ((f.ringSpan r).2 * 4096)
    else (f.wr (Reg.hwkCap r) (f.hawkCap r)).setFld (Reg.hwkRowb r) Fld.hwkRowbRowBytes (rowBytes ms (f.ringWidth r))) d
  (List.range 12).foldl (fun f s =>
    let n (k : Nat) : Nat := ((List.range 128).filter fun i => decide (f.planCode s i = k)).length
    f.wr (Reg.stkPlansum s) (n 1 + 2 ^ 8 * n 2 + 2 ^ 16 * n 3 + 2 ^ 24 * n 0)) d

/-- A core context without its timed-class part (R434). -/
def LCtx.freePart (x : LCtx) : LCtx :=
  { x with
    descs := x.descs.filter fun e => (Desc.of e.2).free,
    stream := if bitAt x.stream 1 then x.stream else putBits x.stream 0 1 0 }

/-- The wheel codes without TIMED positions (R434). -/
def freeCodes (c : Nat) : Nat := (List.range 16).foldl (fun w j => if codeOf w j = 1 then putBits w (2 * j) 2 0 else w) c

/-- A counter as its context's load leaves it (Table 5.6). -/
def counterLoad (k : Nat × Nat × Nat × Nat × Nat) : CounterRec :=
  { CounterRec.init with
    mode := k.1, bound := k.2.1, tagsrc := bitAt k.2.2.1 0, reload := k.2.2.2.1, limit := k.2.2.2.2,
    count := if k.1 = 1 then k.2.2.2.1 else 0, start := if k.1 = 1 then k.2.2.2.1 else 0, waiting := decide (k.1 = 2) }

/-- A core context loaded into its core. -/
def Dev.loadCtx (d : Dev) (cl : Nat) (segs : List Nat) (x : LCtx) : Dev :=
  let c := d.physCore cl x.core
  let r := d.core c
  let rec_ : CtxRec := ⟨x.group, x.flags, x.qclass, x.stream, x.ring, segs, x.descs⟩
  let cs := (List.range 16).foldl (fun m k =>
    SMap.set (fun _ => CounterRec.init) m (16 * x.ctx + k) (counterLoad (x.counters.getD k (0, 0, 0, 0, 0)))) r.counters
  let d := d.setCore c { r with ctxs := SMap.set (fun _ => none) r.ctxs x.ctx (some rec_), counters := cs }
  let a := Reg.coCtx cl (posOf c)
  d.setFld a ⟨4 + x.ctx, 1⟩ 1

/-- A circuit on physical clusters. -/
def circuitOf (place : List Nat) (cl : Nat) (x : LCirc) : Circuit :=
  { key := 2 ^ 16 * cl + x.id, free := x.free, stat := x.stat, ctxs := x.ctxs, kc := x.k,
    src := endpOf cl x.src, dst := endpOf ((physCl place x.dstCl).getD 0) x.dst,
    route := x.route.map fun r => (physLink place r.1, r.2) }

/-- An entry row on a physical cluster. -/
def entryOf (cl r : Nat) : EntryRow :=
  ⟨2 ^ 16 * cl + bitsOf r 0 16, bitsOf r 16 3, bitsOf r 19 13, bitsOf r 32 2, bitsOf r 34 12⟩

/-- A queue of a Drip set from its three bytes (R188, Table 12.5): of a crossbar port, NUMBER has its low four bits there and CORE the
others; INDEX 2 and 3 are the two banks of the slice beside CORE (log entry 43). -/
def dripQueue (cl x : Nat) : Endp :=
  if epKind x = 3 then
    if epIdx x ≤ 1 then ⟨3, cl, 0, 0, epIdx x, bitsOf x 20 4 + 16 * epCore x⟩ else bankEndp cl (2 * epCore x + (epIdx x - 2))
  else if epKind x = 2 then cuEndp cl (epCore x)
  else iqEndp cl (epCore x) (epEng x) (epIdx x)

/-- A CONTEXT section loaded on its physical cluster; timed says that the stepping's timed class is proven. -/
def Dev.loadSect (d : Dev) (place : List Nat) (timed : Bool) (s : LSect) : Dev :=
  match physCl place s.cl with
  | none => d
  | some cl =>
    let cs := s.circs.filter fun x => timed || x.free
    let rows := s.rows.filter fun r => timed || bitsOf r 16 3 = 2 ||
      (s.circs.any fun x => decide (x.id = bitsOf r 0 16) && x.free)
    let d := (s.ctxs.filter fun x => !x.nonres).foldl (fun f x =>
      f.loadCtx cl (s.segsOf x.core x.ctx) (if timed then x else x.freePart)) d
    let d := { d with fab := { d.fab with
      circuits := d.fab.circuits ++ cs.map (circuitOf place cl),
      wheels := d.fab.wheels ++ s.wheels.map fun w => ⟨physLink place w.1, if timed then w.2 else freeCodes w.2⟩,
      entries := d.fab.entries ++ rows.map (entryOf cl) } }
    let d := s.drips.foldl (fun f x =>
      f.setDrip cl x.set { DripRec.init with queues := x.queues.map (dripQueue cl) }) d
    (List.range 64).foldl (fun f k =>
      if f.flag (Reg.crlLoop cl k) Fld.crlLoopEn then
        f.setFld (Reg.crlStat cl k) Fld.crlStatAvail (f.fld (Reg.crlLoop cl k) Fld.crlLoopBound)
      else f) d

/-- The entry of a group's section table, its end core on the lowest logical cluster of the group that uses it. -/
def Dev.sectionRow (d : Dev) (g : Graph) (t : LSec) : SectionRow :=
  let cl := ((g.ctxs.filter fun p => decide (p.2.group = t.group ∧ p.2.core = t.endCore)).map fun p => p.1.cl).foldl min 63
  let c := d.physCore (g.phys cl) t.endCore
  ⟨t.ctx, d.deviceCore c, t.endCounter, t.resident, t.stack, t.area, t.ofs, t.len⟩

/-- The switch groups of the image: cores, sections, those of them that are resident, and the one that the loader writes first. -/
def Dev.loadGroups (d : Dev) (g : Graph) : Dev :=
  (List.range 64).foldl (fun f k =>
    let cores := ((g.ctxs.filter fun p => decide (p.2.group = k)).map fun p => f.physCore (g.phys p.1.cl) p.2.core).dedup
    let secs := (g.sections k).map (f.sectionRow g)
    if cores.isEmpty then f
    else
      let r := { GroupRec.init with
        cores := cores.mergeSort fun a b => decide (a ≤ b), sections_ := secs,
        loadedSecs := (List.range secs.length).filter fun i => ((secs[i]?).map fun (s : SectionRow) => s.resident).getD false }
      f.setGrp k { r with loading := r.nextLoad }) d

/-- One chunk written to its destination (R442). -/
def Dev.loadChunk (d : Dev) (g : Graph) (ty idx : Nat) (c : Chunk) : Dev :=
  let cl := g.phys idx
  if ty = stWstore ∧ c.kind = 0 then
    { d with fab := { d.fab with
      ws := SMap.setList (fun _ => 0) d.fab.ws (d.physCore cl c.ref * 2 ^ 18 + c.ofs) c.data } }
  else if ty = stWstore ∧ c.kind = 1 then
    { d with fab := { d.fab with cmem := SMap.setList (fun _ => 0) d.fab.cmem (cl * 2 ^ 23 + c.ofs) c.data } }
  else if ty = stStack ∧ c.kind = 2 then
    d.stackWrite idx (d.fld (Reg.stkAreaLo idx c.ref) Fld.stkAreaLoBase64k * 65536 + c.ofs) c.data
  else if ty = stScrim ∧ c.kind = 4 then
    { d with fab := { d.fab with scrim := SMap.setList (fun _ => 0) d.fab.scrim (cl * 2 ^ 20 + c.ofs) c.data } }
  else d

/-- The pass images of a stack: for each one with a block map, what its chunks leave of it (R442). -/
def Dev.loadMaps (d : Dev) (g : Graph) (idx : Nat) (cs : List Chunk) : Dev :=
  let refs := ((cs.filter fun c => decide (c.kind = 3)).map fun c => c.ref).dedup
  refs.foldl (fun f r => { f with fab := { f.fab with images := f.fab.images ++ [⟨idx, r, (g.blockMap idx r).map fun b =>
    PassBlock.mk (f.physCore (g.phys (16 * (idx / 3) + b.2.1)) b.1) b.2.2.1 b.2.2.2.1 b.2.2.2.2⟩] } }) d

/-- The Scrim directory of a cluster: what its chunks leave of it; places that none writes hold no entry (R442). -/
def Dev.loadDir (d : Dev) (cl : Nat) (cs : List Chunk) : Dev :=
  let ds := cs.filter fun c => decide (c.kind = 5)
  let es := (scrimDirOf (chunkBytes ds 0 ((ds.map fun c => c.ofs + c.data.length).foldl max 0))).filter fun e =>
    decide (e ≠ (0, 0, false, false, 0))
  { d with num := { d.num with dir := d.num.dir ++ es.map fun e => ⟨cl, e.1, e.2.1, e.2.2.1, e.2.2.2.1, e.2.2.2.2⟩ } }

/-- A section of chunks loaded: what goes to memories chunk by chunk, and what the chunks of a map or a directory make together. -/
def Dev.loadChunks (d : Dev) (g : Graph) (ty idx : Nat) (cs : List Chunk) : Dev :=
  let d := cs.foldl (fun h c => h.loadChunk g ty idx c) d
  if ty = stStack then d.loadMaps g idx cs else if ty = stScrim then d.loadDir (g.phys idx) cs else d

/-- Row exponents of NUMINIT, and the channels the directory marks (R403, R246, Table 7.12). -/
def Dev.loadRows (d : Dev) (g : Graph) (b : List Byte) : Dev :=
  let d := (numinitOf b).foldl (fun f e =>
    let cl := g.phys e.1
    (f.setFld (Reg.numRow cl e.2.1) Fld.numRowE (lowBits 8 e.2.2)).setRow cl e.2.1
      { RowRec.init with exps := [(0, e.2.2)] }) d
  (List.range 64).foldl (fun f cl =>
    if f.num.dir.any fun x => decide (x.cl = cl) then
      (f.nonzero (Reg.numCmap cl 0) 4 2048 Fld.numCmapEn).foldl (fun h j =>
        let row := h.fld (Reg.numCmap cl j) Fld.numCmapRow
        let pos := h.fld (Reg.numCmap cl j) Fld.numCmapPos
        if h.num.dir.any fun x => decide (x.cl = cl ∧ x.row = row ∧ x.pos = pos) && x.marked then
          h.setFld (Reg.numCstat cl j) Fld.numCstatScrim 1
        else h) f
    else f) d

/-- The effective allow masks (R415). -/
def Dev.loadPolicy (d : Dev) (b : List Byte) : Dev :=
  let allow (k : Nat) : Nat := if b.isEmpty then 0xFFFF else leAt b (2 * k) 2
  let deny (w lo : Nat) : Nat := bitsOf (d.fuseWord w) lo 16
  let mask (k dn : Nat) : Nat := allow k &&& (dn ^^^ 0xFFFF)
  (d.wr Reg.bootPolicyLo (mask 0 (deny 37 0) + 2 ^ 16 * mask 1 (deny 37 16))).wr Reg.bootPolicyHi (mask 2 (deny 38 0))

/-- Whether GLB_STEPPING is among the image's STEPPINGS (R434). -/
def Dev.proven (d : Dev) (i : Image) : Bool := i.steppings.contains d.step

/-- What a refused timed class leaves: UNPROVEN shown, and the slots that use a network input DEGRADED (R305, R434). -/
def Dev.showUnproven (d : Dev) : Dev :=
  let d := (d.setFld Reg.bootStat Fld.bootStatUnproven 1).setFld Reg.scrState Fld.scrStateUnproven 1
  (d.enabledSlots.filter fun s => d.usesNet s).foldl (fun e s => e.setFld (Reg.mnStat s) Fld.mnStatDegraded 1) d

/-- An image loaded from its candidate (step 8, R434, R442, R446). -/
def Dev.loadImage (x : Loaded) (i : Image) : Dev :=
  let d := x.dev.deriveRegs
  let g := x.graph
  let timed := d.proven i
  let d := g.sects.foldl (fun f s => f.loadSect g.place timed s) d
  let d := d.loadGroups g
  let d := g.chunks.foldl (fun f b => f.loadChunks g b.1 b.2.1 b.2.2) d
  let d := if hasBody x.bodies stNuminit then d.loadRows g (bodyOf x.bodies stNuminit) else d
  let d := d.loadPolicy (bodyOf x.bodies stPolicy)
  let d := if timed then d else d.showUnproven
  { d with boot := { d.boot with place := g.place } }

/-! Sections that are not resident (R185, R445, R462) -/

/-- The bytes of a section of group g's table. -/
def Dev.sectionBytes (d : Dev) (g : Nat) (s : SectionRow) : List Byte :=
  if s.area = 0x1F then
    let cl := ((d.grp g).cores.map clOf).headD 0
    SMap.getList (fun _ => 0) d.fab.cmem (cl * 2 ^ 23 + s.ofs) s.len
  else d.stackRead s.stack (d.fld (Reg.stkAreaLo s.stack s.area) Fld.stkAreaLoBase64k * 65536 + s.ofs) s.len

/-- The load of a group's next section fails (R462). -/
def Dev.sectionFails (d : Dev) (g : Nat) : Dev :=
  (d.count Reg.glbSectionFail).setGrp g { d.grp g with loading := none, secFailed := true }

/-- Reads of cluster memory on the way: corrected words are counted, and an uncorrectable one, at byte off of the section, fences the core of
its slice (R142). -/
def Dev.cmemErrors (d : Dev) (g : Nat) (s : SectionRow) (bad : Option Nat) (corrected : Nat) : Dev :=
  let cl := ((d.grp g).cores.map clOf).headD 0
  let d := d.countN (Reg.clCmemCe cl) corrected
  match bad with
  | none => d
  | some off =>
    let c := 17 * cl + d.physBank cl (cmemBank (s.ofs + off)) / 2
    if d.coreState c = coRun then d.fence c 4 else d.countUe c 4

/-- A wheel's codes where another section of the link's cluster is loaded beside the running one: FREE where either has it (log entry 75). -/
def mergeCodes (a b : Nat) : Nat :=
  (List.range 16).foldl (fun w j => if codeOf w j = 0 ∧ codeOf b j = 2 then putBits w (2 * j) 2 2 else w) a

/-- The wheels in service with those of a section that is loaded: its free-class positions. -/
def joinWheels (old new : List Wheel) : List Wheel :=
  (old.map fun v => match new.find? fun w => decide (w.link = v.link) with
    | some w => { v with codes := mergeCodes v.codes w.codes }
    | none => v) ++ new.filter fun w => !old.any fun v => decide (v.link = w.link)

/-- A circuit of the free class that belongs to some cores of a context: it starts in one of them, or comes in from outside the fabric and
ends in one. -/
def Dev.circOfCores (d : Dev) (cs : List Nat) (y : Circuit) : Bool :=
  y.free && (match d.srcCore y with
    | some c => cs.contains c
    | none => (d.dstCore y).any fun c => cs.contains c)

/-- A section put into its context slot: its contexts, the free-class circuits with their entry rows in place of those of the section that
stood there, and its wheels (R185). The timed class is the same (R186). -/
def Dev.placeSection (d : Dev) (l : LSect) (k : Nat) : Dev :=
  let cl := (physCl d.boot.place l.cl).getD 0
  let mine := l.ctxs.filter fun y => decide (y.ctx = k)
  let cores := mine.map fun y => d.physCore cl y.core
  let gone := d.fab.circuits.filter fun y => d.circOfCores cores y && decide (putBit y.ctxs k false = 0)
  let cut := (d.fab.circuits.map fun y => if d.circOfCores cores y then { y with ctxs := putBit y.ctxs k false } else y).filter
    fun y => !gone.any fun z => decide (z.key = y.key)
  let new := (l.circs.filter fun y => y.free && y.inCtx k).map (circuitOf d.boot.place cl)
  let kept := cut.filter fun y => !new.any fun z => decide (z.key = y.key)
  let rows := (l.rows.map (entryOf cl)).filter fun r => new.any fun y => decide (y.key = r.circ)
  let old := d.fab.entries.filter fun r => !(gone.any fun y => decide (y.key = r.circ)) && !new.any fun y => decide (y.key = r.circ)
  let d := mine.foldl (fun f y =>
    f.loadCtx cl (l.segsOf y.core y.ctx) (if f.flag Reg.bootStat Fld.bootStatUnproven then y.freePart else y)) d
  let wheels := l.wheels.map fun w => Wheel.mk (physLink d.boot.place w.1) (freeCodes w.2)
  let d := { d with fab := { d.fab with circuits := kept ++ new, entries := old ++ rows, wheels := joinWheels d.fab.wheels wheels } }
  cores.foldl (fun f c => f.loadCredits c k) d

/-- The loader's write of a group's next section completes (R185): the bytes, a CONTEXT section, go into the context slot of the
section that has completed; on a read error the load fails (R462). bad is the byte of the section at which an uncorrectable read lies, if any,
and corrected counts what single-bit correction or the stack's code mended (R142, R227). -/
def Dev.sectionLoad (d : Dev) (g : Nat) (bad : Option Nat) (corrected : Nat) : Dev :=
  let x := d.grp g
  match x.loading, x.loading.bind fun i => x.sections_[i]? with
  | some i, some s =>
    let up := decide (s.area = 0x1F) || decide (d.stackState s.stack = skUp)
    let b := d.sectionBytes g s
    let d := if s.area = 0x1F then d.cmemErrors g s bad corrected
      else if up then d.countN (Reg.stkCe s.stack) corrected else d
    if bad.isNone && up && contextFormed b then
      let d := d.placeSection (lsectOf b) s.ctx
      let stays := fun j => decide ((x.sections_[j]?).map (fun t => t.ctx) ≠ some s.ctx)
      let y := { d.grp g with loadedSecs := i :: x.loadedSecs.filter stays, ranSecs := x.ranSecs.filter stays }
      d.setGrp g { y with loading := y.nextLoad }
    else
      (if decide (s.area ≠ 0x1F) && up && bad.isSome then d.stackUe s.stack else d).sectionFails g
  | _, _ => d

end Sys2Proof.Machine
end

