-- ==== Sys2Proof/Machine/Startup.lean ====
section
/-!
DEFINITION. Reset and the start-up sequence (Table 11.1), the rejection of slots (R393), fuse programming (R405, R410),
watchdogs (R392), attestation (R418), checkpoints (R423) and the log mirror (R424 to R427, R464).
-/

namespace Sys2Proof.Machine

open Sys2Proof

/-! Steps -/

/-- BOOT_STAT.STEP. -/
def Dev.stepNo (d : Dev) : Nat := d.fld Reg.bootStat Fld.bootStatStep

/-- Step k begins. -/
def Dev.beginStep (d : Dev) (k : Nat) : Dev :=
  let d := d.setFld Reg.bootStat Fld.bootStatStep k
  { d with boot := { d.boot with stepAt := d.devNs } }

/-- Start-up is under way. -/
def Dev.starting (d : Dev) : Bool := !d.inReset && decide (d.mode = 0)

/-! Reset (R514, R515, R512) -/

/-- The device in reset: everything at its reset value but what the board, the factory, the flash and the fuses hold. A flash operation
under way is cut off. -/
def Dev.toReset (d : Dev) : Dev :=
  if d.inReset then d
  else
    let d := (d.flashDone true).outputsIdle
    ({ Dev.init with
      part := d.part, step := d.step, gid := d.gid, testEn := d.testEn, freeCtr := d.freeCtr, outbox := d.outbox,
      boot := { Dev.init.boot with flash := d.boot.flash, flashLen := d.boot.flashLen, und := d.boot.und, undOdd := d.boot.undOdd },
      clk := { Dev.init.clk with ringMhz := d.clk.ringMhz },
      pwr := { Dev.init.pwr with railLow := d.pwr.railLow, porLow := d.pwr.porLow, devRstLow := d.pwr.devRstLow } }).wr
      Reg.pwrDomOnLo 0

/-- Step 1, once nothing holds the device in reset: device time starts at 0; a device whose TEST_EN was not low does not start
up (R510). -/
def Dev.startUp (d : Dev) : Dev :=
  if d.inReset && !d.pwr.porLow && !d.pwr.devRstLow && !d.pwr.railLow then
    let d := ({ d with inReset := false, devNs := 0 }).wr Reg.pwrDomOnLo 1
    let d := d.setFld Reg.mshId Fld.mshIdDeviceId d.gid.toNat
    if d.testEn then d.setMode 3 else d
  else d

/-- POR_N or DEV_RST_N held low. -/
def Dev.assertReset (d : Dev) (pin : ResetPin) : Dev :=
  let p := match pin with
    | .porN => { d.pwr with porLow := true }
    | .devRstN => { d.pwr with devRstLow := true }
  ({ d with pwr := p }).toReset

/-- POR_N released: GID and TEST_EN are sampled. -/
def Dev.porRelease (d : Dev) (gid : BitVec 6) (testEn : Bool) : Dev :=
  if d.pwr.porLow then ({ d with gid := gid, testEn := testEn, pwr := { d.pwr with porLow := false } }).startUp else d

/-- DEV_RST_N released. -/
def Dev.devRstRelease (d : Dev) : Dev :=
  if d.pwr.devRstLow then ({ d with pwr := { d.pwr with devRstLow := false } }).startUp else d

/-- A watched rail low for 2 µs resets as POR_N does. -/
def Dev.railLow (d : Dev) : Dev := ({ d with pwr := { d.pwr with railLow := true } }).toReset

/-- All watched rails in range for 1 ms: the reset is released and GID sampled again. -/
def Dev.railBack (d : Dev) (gid : BitVec 6) (testEn : Bool) : Dev :=
  if d.pwr.railLow then ({ d with gid := gid, testEn := testEn, pwr := { d.pwr with railLow := false } }).startUp else d

/-! Trying slots (R393, Table 11.2) -/

/-- Step 5 begins for a slot; none: the one that the directory selects. -/
def Dev.tryStep (d : Dev) (slot : Option Nat) : Dev :=
  let d := { d with boot := { d.boot with slot := slot, sec := 0, itemAt := d.devNs, staged := [], keyIndex := none } }
  d.beginStep 5

/-- The record store divided into pages: the log mirror's, the summary reserve's, and the pool's, in the order of their numbers (R385; log
entry 36). -/
def Dev.storePages (d : Dev) : Dev :=
  let chs := d.upChannels
  let per := (listMin (chs.map fun c => d.fld (Reg.chStat c) Fld.chStatCapGib)).getD 0 * 262144
  let total := chs.length * per
  let lg := min (d.rd Reg.recLogSize) total
  let rs := min (d.rd Reg.recSumReserve) (total - lg)
  let run (a b : Nat) : List (Nat × Nat) := if a < b then [(a, b)] else []
  let d := { d with store := { d.store with chans := chs, poolFrom := lg + rs, pool := run (lg + rs) total, reserve := run lg (lg + rs) } }
  (d.wr Reg.recPagesTotal total).showStore

/-- Step 9 begins: domains, transmitters and receivers of lanes whose loop has locked, and used mesh ports. -/
def Dev.beginStep9 (d : Dev) : Dev :=
  let d := (d.beginStep 9).domsDue 9
  let d := (List.range 88).foldl (fun f k =>
    let l : LaneId := ⟨k % 88, Nat.mod_lt _ (by decide)⟩
    if f.loopFailed (laneLoop l) then f else f.laneEnable l) d
  (List.range 6).foldl Dev.portEnable d

/-- The bodies of a slot's image, in the staged copy or the flash. -/
def Dev.slotBodies (d : Dev) (m : SMap Byte) (k : Nat) : List Body :=
  match directoryOf m d.boot.flashLen with
  | some (_, dir) => imageBodies m (imageAt m (dir.slots.getD k (0, 0)).1)
  | none => []

/-- SAFE with the REGS, TOPOLOGY and POLICY sections of slot k (Table 11.2). -/
def Dev.safeBoot (d : Dev) (m : SMap Byte) (k : Nat) : Dev :=
  let bs := d.slotBodies m k
  let d := ((regsOf (bodyOf bs stRegs)).foldl Dev.primerWrite d).deriveRegs
  let d := if hasBody bs stTopology then d.loadTopo (bodyOf bs stTopology) (bodyOf bs stTopology) else d
  let d := d.loadPolicy (bodyOf bs stPolicy)
  let d := { d with boot := { d.boot with safe := true, slot := none } }
  let d := d.storePages
  (d.domsOff d.idleDoms).beginStep9

/-- The field of a slot in BOOT_REASON. -/
def reasonFld (k : Nat) : Fld := ⟨8 * k, 8⟩

/-- A rejection noted: the slot, and whether it is the first one rejected for 0x0D. -/
def BootSt.rejects (b : BootSt) (k code : Nat) : BootSt :=
  { b with
    rejected := k :: b.rejected,
    misfit := if b.misfit.isSome then b.misfit else if code = 0x0D then some k else none }

/-- What follows the rejection of slot k (Table 11.2). -/
def Dev.afterReject (d : Dev) (k code : Nat) : Dev :=
  if k = 2 then
    match d.boot.misfit with
    | some x => d.safeBoot d.boot.flash x
    | none => d.enterFault
  else if decide (code = 0x0D) || d.boot.rejected.contains (1 - k) then d.tryStep (some 2)
  else d.tryStep (some (1 - k))

/-- The slot under trial rejected with a reason code. -/
def Dev.reject (d : Dev) (code : Nat) : Dev :=
  match d.boot.slot with
  | none => d
  | some k =>
    let d1 := d.setFld Reg.bootReason (reasonFld k) code
    let d2 := d1.logAdd ⟨.primer, BitVec.ofNat 12 k⟩ Reg.bootReason 0 (code + 256 * k) .refused
    let d3 := d2.discard
    ({ d3 with boot := d3.boot.rejects k code }).afterReject k code

/-! Steps 2 and 3 (R472, R473, R476) -/

/-- Step 2 completes with a reference. -/
def Dev.endStep2 (d : Dev) : Dev :=
  let take (u : Nat) (f : Dev) : Dev := ((f.setFld Reg.clkStat Fld.clkStatRefInUse u).beginStep 3).domsDue 3
  if d.flag Reg.clkStat Fld.clkStatRefaQ then take 0 d
  else if d.flag Reg.clkStat Fld.clkStatRefbQ then
    match d.boot.refbAt with
    | some t => if t + 6710887 ≤ d.devNs then take 1 d else d
    | none => d
  else d

/-- Step 3 completes when every loop of a fitted unit has locked or failed. -/
def Dev.endStep3 (d : Dev) : Dev :=
  if (List.range 18).all fun i => !d.loopFitted i || d.locked i || d.loopFailed i then d.beginStep 4 else d

/-! Step 4 (R3, R406 to R408) -/

/-- The identity seed as bytes. -/
def Dev.idSeed (d : Dev) : List Byte := ((List.range 8).map fun j => leBytes 4 (d.fuseWord (40 + j))).flatten

/-- The identity private key. -/
def Dev.idPrivate (d : Dev) : List Byte := shake256 (d.idSeed ++ asciiBytes "ZRT identity") 57

/-- The Undercoat read into UND, GLB_FITTED, the identity, and the change log. -/
def Dev.endStep4 (d : Dev) (env : StartEnv) : Dev :=
  let d := (List.range 128).foldl (fun f w => f.wr (Reg.undFuse w) (if 40 ≤ w ∧ w < 48 then 0 else f.fuseWord w)) d
  let d := (d.wr Reg.glbFittedLo (d.fuseWord 35)).wr Reg.glbFittedHi (d.fuseWord 36)
  let d := d.countN Reg.undDisagree (((List.range 128).map fun w => popCount 32 (d.fuseOdd w)).sum)
  let d := d.setFld Reg.bootRollback Fld.bootRollbackFuseC d.rollbackCount
  if env.fittedReadback then
    let pub := ed448Public d.idPrivate
    let ser := shake256 pub 8
    let d := (List.range 15).foldl (fun f j => f.wr (Reg.undIdpub j) (leAt pub (4 * j) 4)) d
    let d := (d.wr Reg.undSerial0 (leAt ser 0 4)).wr Reg.undSerial1 (leAt ser 4 4)
    let d := { d with log := { d.log with opened := true } }
    (d.logInternal Reg.bootStat 0 4 .ok).tryStep none
  else d.enterFault

/-! Steps 5 and 6 (R396, R404) -/

/-- The directory and the header are read, once no bridge operation holds the flash (R496). -/
def Dev.endStep5 (d : Dev) (env : StartEnv) : Dev :=
  if d.pwr.flashOp.isSome then d
  else match directoryOf d.boot.flash d.boot.flashLen with
    | none => d.enterFault
    | some (copy, dir) =>
      let d := d.wr Reg.bootDirseq (dir.seq % 2 ^ 31 + 2 ^ 31 * copy)
      let k := d.boot.slot.getD dir.select
      let d := { d with boot := { d.boot with slot := some k } }
      if (dir.slots.getD k (0, 0)).2 = 0 then d.reject 0x02
      else if env.flashError then d.reject 0x0E
      else d.beginStep 6

/-- Self-test and training begin (R449, R384). -/
def Dev.beginStep7 (d : Dev) : Dev :=
  let d := (d.beginStep 7).domsDue 7
  let d := (List.range 4).foldl (fun f n =>
    if f.fit n then (List.range 272).foldl (fun h j =>
      let c := 272 * n + j
      if h.coreState c = coOff then h.setCoreState c coTest else h) f
    else f) d
  let d := (List.range 12).foldl Dev.stackTrain d
  let d := (List.range 8).foldl (fun f c =>
    if f.fit (16 + c) && decide (f.fld (Reg.chStat c) Fld.chStatState = 0) then f.setFld (Reg.chStat c) Fld.chStatState 1
    else f) d
  let d := d.setV (if d.marching then 600 else 750)
  { d with boot := { d.boot with sec := 0, itemAt := d.devNs } }

/-- The header and the section directory are verified. -/
def Dev.endStep6 (d : Dev) (env : StartEnv) : Dev :=
  match d.boot.slot, directoryOf d.boot.flash d.boot.flashLen with
  | some k, some (_, dir) =>
    match d.slotFault d.boot.flash dir k env.flashError with
    | some code => d.reject code
    | none =>
      let i := imageAt d.boot.flash (dir.slots.getD k (0, 0)).1
      ({ d with boot := { d.boot with keyIndex := some i.keyIndex } }).beginStep7
  | _, _ => d

/-! Step 7 (R400, R449 to R453) -/

/-- What the REGS section sets at step 7: the time service and Ethernet port, and CLK_CFG, whose reference takes effect then. -/
def Dev.earlyRegs (d : Dev) (b : List Byte) : Dev :=
  let rs := (regsOf b).filter fun r => decide (r.1 = Reg.clkCfg ∨ blockBase r.1 = blockBase Reg.tmsCfg)
  (rs.foldl Dev.primerWrite d).takePrimary

/-- The next section's digest check completes. -/
def Dev.sectionDigest (d : Dev) (k : Nat) : Dev :=
  if d.starting && decide (d.stepNo = 7) && decide (k = d.boot.sec) then
    match d.imageIn d.boot.flash with
    | none => d
    | some i =>
      if k < i.sections_ then
        let s := sectAt d.boot.flash i k
        let b := sectBytes d.boot.flash i s
        if shake256x32 b = s.digest then
          let d := { d with boot := { d.boot with sec := k + 1, itemAt := d.devNs, regsIn := d.boot.regsIn || decide (s.ty = stRegs) } }
          if s.ty = stRegs then d.earlyRegs b else d
        else d.reject 0x0A
      else d
  else d

/-- Self-test, training and the digests of step 7 are complete. -/
def Dev.step7Done (d : Dev) (i : Image) : Bool :=
  decide (i.sections_ ≤ d.boot.sec) &&
  (List.range 1088).all (fun c => decide (d.coreState c ≠ coTest)) &&
  (List.range 12).all (fun s => decide (d.stackState s ≠ skTrain ∧ d.stackState s ≠ skTest)) &&
  (List.range 8).all (fun c => decide (d.fld (Reg.chStat c) Fld.chStatState ≠ 1))

/-- What self-test finds of Scrim and statistics units and of die links (R452, Table 4.15). -/
def Dev.takeTests (d : Dev) (env : StartEnv) : Dev :=
  if d.boot.tested then d
  else
    let d := (List.range 64).foldl (fun f cl =>
      if f.fit (cl / 16) then
        (f.setFld (Reg.clStat cl) Fld.clStatScrimOk
          (bit01 (f.fit 34 && !env.scrimFailed.any fun x => decide (x.val = cl)))).setFld (Reg.clStat cl) Fld.clStatStatsOk
          (bit01 (!env.statsFailed.any fun x => decide (x.val = cl)))
      else f) d
    let down (dk : Nat × Nat) : Bool := env.linksDown.any fun x => decide (x.1.val = dk.1 ∧ x.2.val = dk.2)
    let d := (List.range 4).foldl (fun f n =>
      if f.fit n then
        let up (k : Nat) : Bool := f.fit (linkPeer (n, k)).1 && !down (n, k) && !down (linkPeer (n, k))
        f.setFld (Reg.dieStat n) Fld.dieStatLinksUp
          (bit01 (up 0) + 2 * bit01 (up 1) + 4 * bit01 (up 2) + 8 * bit01 (up 3))
      else f) d
    { d with boot := { d.boot with tested := true } }

/-! Step 8 (R404, R442 to R446) -/

/-- The image validated and loaded, or rejected. -/
def Dev.tryLoad (d : Dev) : Dev :=
  match d.boot.slot, d.imageIn d.boot.staged with
  | some k, some i =>
    if !arranged i (sectsOf d.boot.staged i) || !relocFormed (bodyOf (imageBodies d.boot.staged i) stReloc) then
      d.reject 0x0B
    else
      let x := d.choose d.boot.staged i
      match x.fault with
      | some none => d.reject 0x0B
      | some (some (st, lc)) =>
        let a := coStatAddr (d.physCore (x.graph.phys lc.1) lc.2)
        (d.logAdd ⟨.primer, BitVec.ofNat 12 k⟩ a (d.rd a) (d.rd a) st).reject 0x0B
      | none => if x.fits then (Dev.loadImage x i).storePages else d.reject 0x0D
  | _, _ => d

/-- Step 7 ends: the health map is built, the image as read is kept, and step 8 validates and loads it. -/
def Dev.endStep7 (d : Dev) (env : StartEnv) : Dev :=
  match d.imageIn d.boot.flash with
  | none => d
  | some i =>
    if env.flashError then d.reject 0x0E
    else if d.step7Done i then
      if env.xdieSparesOk then
        let d := d.takeTests env
        let d := d.buildHmap d.stk.bad
        ({ d with boot := { d.boot with staged := d.boot.flash } }.beginStep 8).tryLoad
      else d.enterFault
    else d

/-- The device as step 8 begins again after core c has failed while it was loaded: everything loaded is discarded (R456). -/
def Dev.startOver (d : Dev) (c cause : Nat) : Dev :=
  let d := d.coreLoadError c cause
  { d with boot := { d.boot with restarts := d.boot.restarts + 1 } }.discard.beginStep 8

/-- A core fails while it is loaded: step 8 begins again; the fifth time, the slot does not fit (R456). -/
def Dev.loadErrorRetire (d : Dev) (c cause : Nat) : Dev :=
  if d.starting && decide (d.stepNo = 8) && decide (d.coreState c = coLoad) then
    if 4 ≤ d.boot.restarts then (d.coreLoadError c cause).reject 0x0D else (d.startOver c cause).tryLoad
  else d

/-- The bits of Undercoat word w that programming misses: all while VFUSE is out of range, else those not yet programmed when it falls
(R519). -/
def missedBits (env : StartEnv) (w : Nat) : Nat :=
  if env.vfuseInRange then ((env.fuseMissed.find? fun x => decide (x.1.val = w)).map fun x => x.2.toNat).getD 0 else 2 ^ 32 - 1

/-- One Undercoat word programmed toward a request and logged (R410); the word read back says whether it succeeded. -/
def Dev.programFuse (d : Dev) (w want : Nat) (env : StartEnv) : Dev :=
  let old := d.fuseWord w
  let goal := old ||| want
  if goal = old then d
  else
    let d := d.burn w (want &&& Nat.xor (2 ^ 32 - 1) old &&& Nat.xor (2 ^ 32 - 1) (missedBits env w))
    let new := d.fuseWord w
    let ok := decide (new = goal)
    let d := (d.wr (Reg.undFuse w) new).logAdd ⟨.fuse, 0⟩ (Reg.undFuse w) old new (if ok then .ok else .refused)
    if ok then d else d.setFld Reg.bootStat Fld.bootStatFuseFail 1

/-- The FUSE section applied (R410, R411). -/
def Dev.applyFuse (d : Dev) (b : List Byte) (env : StartEnv) : Dev :=
  ((List.range 33) ++ [37, 38]).foldl (fun f w => f.programFuse w (fuseRequest b w) env) d

/-- Slot F's header passes checks 1 to 7 with at least a rollback value (R405). -/
def Dev.slotFHolds (d : Dev) (v : Nat) (env : StartEnv) : Bool :=
  match directoryOf d.boot.flash d.boot.flashLen with
  | some (_, dir) =>
    let s := dir.slots.getD 2 (0, 0)
    decide (s.2 ≠ 0) && !env.flashError && (d.headerFault d.boot.flash 2 (imageAt d.boot.flash s.1) s.2 v).isNone
  | none => false

/-- The rollback advance (R405), with slot F's header as the flash holds it. -/
def Dev.advanceRollback (d : Dev) (i : Image) (env : StartEnv) : Dev :=
  let c := d.rollbackCount
  if i.advance && decide (c < i.rollback) then
    if d.slotFHolds i.rollback env then
      let bits := 2 ^ (min i.rollback 64) - 2 ^ c
      let d := (d.programFuse 33 (bits % 2 ^ 32) env).programFuse 34 (bits / 2 ^ 32) env
      if c < d.rollbackCount then d.setFld Reg.bootStat Fld.bootStatAdvanced 1 else d
    else
      let w := 33 + c / 32
      d.logAdd ⟨.fuse, 0⟩ (Reg.undFuse w) (d.fuseWord w) (d.fuseWord w) .refused
  else d

/-- Step 8 ends, once no core is in LOAD: fuses, with the allow masks under the deny masks as they stand then (R415), the rollback advance, the Primer load and its registers, idle domains off; step 9
begins. -/
def Dev.endStep8 (d : Dev) (env : StartEnv) : Dev :=
  if (List.range 1088).any fun c => decide (d.coreState c = coLoad) then d
  else match d.boot.slot, d.imageIn d.boot.staged with
    | some k, some i =>
      let bs := imageBodies d.boot.staged i
      let d := ((d.applyFuse (bodyOf bs stFuse) env).loadPolicy (bodyOf bs stPolicy)).advanceRollback i env
      let proven := !d.flag Reg.bootStat Fld.bootStatUnproven
      let d := d.logAdd ⟨.primer, BitVec.ofNat 12 k⟩ (Reg.bootDigest 0) 0 (leAt i.digest 0 4)
        (if proven then .ok else .timingUnproven)
      let d := (d.setFld Reg.bootStat Fld.bootStatSlot k).setFld Reg.bootReason (reasonFld k) 0x01
      let d := d.wr Reg.bootRollback (i.rollback + 256 * d.rollbackCount)
      let d := d.wr Reg.bootSections i.sections_
      let d := (List.range 8).foldl (fun f j => f.wr (Reg.bootDigest j) (leAt i.digest (4 * j) 4)) d
      let d := (List.range 4).foldl (fun f j => f.wr (Reg.bootBuild j) (leAt i.build (4 * j) 4)) d
      (d.domsOff d.idleDoms).beginStep9
    | _, _ => d

/-! Steps 9 and 10 -/

/-- ARM_POLICY is LOCK. -/
def Dev.lockPolicy (d : Dev) : Bool := !d.flag Reg.tmsCfg Fld.tmsCfgArmPolicy

/-- Step 9 completes once the Screed has armed. -/
def Dev.endStep9 (d : Dev) : Dev :=
  if d.scr.armed then
    let w := if d.lockPolicy then d.devNs - d.boot.stepAt else 0
    ({ d with boot := { d.boot with waited := w } }).beginStep 10
  else d

/-- READY: RUNNING, or SAFE where Table 11.2 selected it (R465); the wear windows begin. -/
def Dev.endStep10 (d : Dev) : Dev :=
  let d := if d.boot.safe then (d.setMode 2).setFld Reg.glbState Fld.glbStateSafeCause 1 else d.setMode 1
  (d.wr Reg.bootElapsed (d.devNs / 1000000)).startWear

/-- A start-up step completes, if what it waits for is there, and the next begins (R391). -/
def Dev.startUpStep (d : Dev) (env : StartEnv) : Dev :=
  if d.starting then
    let k := d.stepNo
    if k = 1 then d.beginStep 2
    else if k = 2 then d.endStep2
    else if k = 3 then d.endStep3
    else if k = 4 then d.endStep4 env
    else if k = 5 then d.endStep5 env
    else if k = 6 then d.endStep6 env
    else if k = 7 then d.endStep7 env
    else if k = 8 then d.endStep8 env
    else if k = 9 then d.endStep9
    else d.endStep10
  else d

/-- The Screed arms at step 9 when the time state is LOCKED, or once ARM_WAIT_S has passed under FREE (R337). -/
def Dev.armLocked (d : Dev) : Dev :=
  if d.starting && decide (d.stepNo = 9) && !d.scr.armed && decide (d.timeState = tsLocked) then d.arm else d
/-- The end of ARM_WAIT_S. -/
def Dev.armWaited (d : Dev) : Dev :=
  if d.starting && decide (d.stepNo = 9) && !d.scr.armed && !d.lockPolicy &&
      decide (d.boot.stepAt + d.fld Reg.tmsArm Fld.tmsArmArmWaitS * 1000000000 ≤ d.devNs) then d.arm
  else d

/-! Watchdogs (R392) -/

/-- 2 s of device time for the header and directory, or for a section; a digest check that resolves together with the expiry is
in time (R34). -/
def Dev.sectionWatchdog (d : Dev) (tie : Bool) : Dev :=
  let k := d.stepNo
  let waits := match d.imageIn d.boot.flash with
    | some i => decide (d.boot.sec < i.sections_)
    | none => false
  if d.starting && !tie && (decide (k = 5 ∨ k = 6) || (decide (k = 7) && waits)) &&
      decide (d.boot.itemAt + 2000000000 ≤ d.devNs) then
    match d.boot.slot, directoryOf d.boot.flash d.boot.flashLen with
    | some _, _ => d.reject 0x0C
    | none, some (_, dir) => ({ d with boot := { d.boot with slot := some dir.select } }).reject 0x0C
    | none, none => d.enterFault
  else d

/-- 30 s from the release of POR_N to READY, without the wait for LOCKED under ARM_POLICY = LOCK; READY resolved together with the expiry is
in time (R34). -/
def Dev.bootWatchdog (d : Dev) (tie : Bool) : Dev :=
  let wait := if decide (d.stepNo = 9) && d.lockPolicy then d.devNs - d.boot.stepAt else d.boot.waited
  if d.starting && !tie && decide (30000000000 + wait ≤ d.devNs) then
    let d := match d.boot.slot with
      | some k => d.setFld Reg.bootReason (reasonFld k) 0x0F
      | none => d
    d.enterFault
  else d

/-! Attestation (R418, Table 11.15) -/

/-- Count of cores in a state. -/
def Dev.coresCount (d : Dev) (st : Nat) : Nat := ((List.range 1088).filter fun c => decide (d.coreState c = st)).length

/-- A mask of indices below n that meet p. -/
def maskOf (n : Nat) (p : Nat → Bool) : Nat := ((List.range n).map fun i => if p i then 2 ^ i else 0).sum

/-- Words of registers as bytes. -/
def Dev.wordsAt (d : Dev) (f : Nat → Nat) (n : Nat) : List Byte := ((List.range n).map fun i => leBytes 4 (d.rd (f i))).flatten

/-- Report bytes 0x000 to 0x13F as the device stands. -/
def Dev.reportBody (d : Dev) : List Byte :=
  let w38 := d.fuseWord 38
  let flags := bit01 (bitAt w38 17) + 2 * bit01 (bitAt w38 18) + 4 * bit01 (bitAt w38 16) + 8 * bit01 d.safeMode +
    16 * d.fld Reg.bootStat Fld.bootStatUnproven + 32 * d.fld Reg.bootStat Fld.bootStatFuseFail
  let health := d.coresCount coRetired + 2 ^ 16 * d.coresCount coFenced +
    2 ^ 32 * ((List.range 64).filter fun cl => d.flag (Reg.clStat cl) Fld.clStatShort).length +
    2 ^ 40 * maskOf 12 (fun s => decide (d.stackState s = skFailed ∨ d.stackState s = skMismatch)) +
    2 ^ 52 * maskOf 8 (fun c => decide (d.fld (Reg.chStat c) Fld.chStatState = 3 ∨ d.fld (Reg.chStat c) Fld.chStatState = 4))
  let last := (d.log.written + 2 ^ 24 - 1) % 2 ^ 24
  leBytes 4 0x5A415454 ++ leBytes 2 1 ++ leBytes 2 0x200 ++ d.wordsAt Reg.undAttNonce 8 ++
  leBytes 4 (d.rd Reg.undSerial0) ++ leBytes 4 (d.rd Reg.undSerial1) ++ leBytes 2 d.part ++ leBytes 1 d.step ++
  leBytes 1 d.devId ++ leBytes 1 (d.fld Reg.bootStat Fld.bootStatSlot) ++
  leBytes 1 (if d.fld Reg.bootStat Fld.bootStatSlot = 3 then 0xFF else d.boot.keyIndex.getD 0xFF) ++
  leBytes 1 (d.fld Reg.bootRollback Fld.bootRollbackImageV) ++ leBytes 1 d.rollbackCount ++ leBytes 8 d.fitted ++
  d.wordsAt Reg.bootDigest 8 ++ shake256x32 (d.wordsAt Reg.undFuse 40) ++ leBytes 4 (d.rd (Reg.undFuse 32)) ++
  leBytes 4 (d.rd Reg.bootPolicyLo) ++ leBytes 4 (d.rd Reg.bootPolicyHi) ++ leBytes 4 flags ++
  shake256x32 d.hmapBytes ++ leBytes 16 health ++ leBytes 12 (fullTime d.net16) ++ leBytes 1 d.timeByte ++ leBytes 3 0 ++
  leBytes 4 last ++ leBytes 4 d.prevTag ++ leBytes 4 (d.rd Reg.numAdaptEpoch) ++ leBytes 4 (d.rd Reg.numScaleEpoch) ++
  leBytes 32 0 ++ takeBytes 57 (d.wordsAt Reg.undIdpub 15) ++ leBytes 7 0

/-- GO: the state is captured and goes under signature, from step 4 on; a GO while BUSY is counted. -/
def Dev.attestGo (d : Dev) : Dev :=
  if d.log.opened then
    if d.flag Reg.undAttCtl Fld.undAttCtlBusy then d.count Reg.undAttIgnored
    else
      let b := d.reportBody
      ({ d with boot := { d.boot with att := some b } }).setFld Reg.undAttCtl Fld.undAttCtlBusy 1
  else d

/-- The report is complete: signed, shown and counted. A checkpoint whose signature is due is signed first (R418). -/
def Dev.attestDone (d : Dev) : Dev :=
  match (if d.log.ckptOpen.isSome then none else d.boot.att) with
  | none => d
  | some b =>
    let all := b ++ takeBytes 192 (ed448Sign d.idPrivate (asciiBytes "ZRT Attest") b)
    let d := (List.range 128).foldl (fun f j => f.wr (Reg.undAttReport j) (leAt all (4 * j) 4)) d
    let d := { d with boot := { d.boot with att := none } }
    ((d.setFld Reg.undAttCtl Fld.undAttCtlBusy 0).setFld Reg.undAttCtl Fld.undAttCtlValid 1).count Reg.undAttCount

/-! Checkpoints (R423) -/

/-- A whole second of network time is reached as it counts: its checkpoint entry. -/
def Dev.checkpoint (d : Dev) : Dev :=
  let s := d.netNs / 1000000000
  let t := s * 1000000000 * 65536
  let over_ := d.tms.passed.any fun p => decide (p.1 < t ∧ t < p.2)
  let fresh := match d.log.ckptSecond with
    | some x => decide (x < s)
    | none => decide (0 < s)
  if d.log.opened && fresh && !over_ then
    let n := d.log.written % 2 ^ 24
    let e := d.nextEntry (internalOrigin Reg.logCkpt) Reg.logCkpt (d.log.ckptPrev.getD 0xFFFFFFFF) (d.rd Reg.logCkpt + 1) .ok
    let d := d.logInternal Reg.logCkpt (d.log.ckptPrev.getD 0xFFFFFFFF) (d.rd Reg.logCkpt + 1) .ok
    let d := d.count Reg.logCkpt
    { d with log := { d.log with ckptSecond := some s, ckptPrev := some n, ckptOpen := some e } }
  else d

/-- The signature of the latest checkpoint is complete: its 15 pieces are logged. -/
def Dev.checkpointSigned (d : Dev) : Dev :=
  match d.log.ckptOpen with
  | none => d
  | some e =>
    let sig := takeBytes 120 (ed448Sign d.idPrivate (asciiBytes "ZRT Log") e.bytes)
    let d := { d with log := { d.log with ckptOpen := none } }
    let d := (List.range 30).foldl (fun f i => f.wr (Reg.logCkptSig i) (leAt sig (4 * i) 4)) d
    (List.range 15).foldl (fun f k =>
      f.logInternal (Reg.logCkptSig (2 * k)) (leAt sig (8 * k) 4) (leAt sig (8 * k + 4) 4) .ok) d

/-! The mirror (R424 to R427) -/

/-- Entries the mirror holds at most. -/
def Dev.mirrorCap (d : Dev) : Nat := 128 * min (d.rd Reg.recLogSize) (d.rd Reg.recPagesTotal)

/-- Entries of the mirror that no LOG ring has delivered. -/
def Dev.undelivered (d : Dev) : Nat := (d.log.mirror.filter fun e => decide (d.log.delivered ≤ e.num)).length

/-- The oldest unmirrored entry is copied to the mirror, where it may overwrite the oldest; under LOG_MANDATORY never one that is not
delivered. -/
def Dev.mirrorWrite (d : Dev) : Dev :=
  let cap := d.mirrorCap
  match d.log.entries[d.log.held - 1]? with
  | none => d
  | some e =>
    if d.log.held = 0 ∨ cap = 0 ∨ d.upChannels.isEmpty = true then d
    else
      let full := decide (cap ≤ d.log.mirror.length)
      let loses := full && (match d.log.mirror.getLast? with
        | some x => decide (d.log.delivered ≤ x.num)
        | none => false)
      if loses && d.logMandatory then d
      else
        let d := d.countIf loses Reg.logMirrorLost
        ({ d with log := { d.log with mirror := (e :: d.log.mirror).take cap, held := d.log.held - 1 } }).fillAllPacked

/-! Uncorrectable errors in the log and in the staging memory (R464) -/

/-- A row of the on-die log fails and is not used again: its entries leave the die, those not mirrored are lost, and one entry tells
which. -/
def Dev.logRowFails (d : Dev) (first count : Nat) : Dev :=
  let inRow (e : LogEntry) : Bool := decide ((e.num + 2 ^ 24 - first) % 2 ^ 24 < count)
  let fresh := d.log.entries.take d.log.held
  let gone := fresh.filter inRow
  let d := (d.count Reg.glbXdieUe).countN Reg.logLost gone.length
  let d := { d with log := { d.log with
      entries := d.log.entries.filter fun e => !inRow e, held := (fresh.filter fun e => !inRow e).length,
      cap := d.log.cap - count } }
  match gone.getLast?, gone.head? with
  | some x, some y => d.logInternal Reg.logSeq (x.num % 2 ^ 24) (y.num % 2 ^ 24) .degraded
  | _, _ => d

/-- A section context load that goes through the staging memory fails (R462). -/
def Dev.stagingFails (d : Dev) : Dev :=
  let d := d.count Reg.glbXdieUe
  (List.range 64).foldl (fun f g => if (f.grp g).loading.isSome then f.sectionFails g else f) d

end Sys2Proof.Machine
end

