-- ==== Sys2Proof/Machine/Bus.lean ====
section
/-!
DEFINITION. Register accesses: reads with their captures, writes by access code, live writes with the checks of
Table 11.13, forwarded accesses, and the management bus ("Registers and access"; R370 to R372, R412 to R417, R489 to R496,
R524).
-/

namespace Sys2Proof.Machine

open Sys2Proof

/-! Which unit a register belongs to (R5) -/

/-- The GLB_FITTED bits of the units whose register ranges hold address a. -/
def unitBits (a : Nat) : List Nat :=
  if a < 0x60000 then []
  else if a < 0x80000 then
    if 0x61000 ≤ a ∧ a < 0x61900 then
      let p := (a - 0x61000) / 0x20
      if 1 ≤ p ∧ p ≤ 6 then [36, 28 + (p - 1)] else if 8 ≤ p then [36, 24 + (p - 8) / 16] else [36]
    else [36]
  else if a < 0x81000 then []
  else if a < 0x83000 then [24 + (a - 0x81000) / 0x80 / 16]
  else if 0x90000 ≤ a ∧ a < 0xA0000 then [24 + (a - 0x90000) / 0x400 / 16]
  else if 0xE0000 ≤ a ∧ a < 0x100000 then [35]
  else if 0x101000 ≤ a ∧ a < 0x102800 then [28 + (a - 0x101000) / 0x400]
  else if 0x141000 ≤ a ∧ a < 0x141200 then [16 + (a - 0x141000) / 0x40]
  else if 0x161000 ≤ a ∧ a < 0x164000 then [4 + (a - 0x161000) / 0x400]
  else if 0x164000 ≤ a ∧ a < 0x164100 then [(a - 0x164000) / 0x40]
  else if 0x200000 ≤ a ∧ a < 0xA00000 then [(a - 0x200000) / 0x200000]
  else if 0xC00000 ≤ a ∧ a < 0x1000000 then
    let ofs := (a - 0xC00000) % 0x10000
    if 0xC0F000 ≤ a ∧ a < 0xC10000 then []
    else (a - 0xC00000) / 0x100000 :: (if 0x200 ≤ ofs ∧ ofs < 0x300 then [34] else [])
  else []

/-- Whether the units that a register belongs to are fitted. -/
def Dev.unitFitted (d : Dev) (a : Nat) : Bool := (unitBits a).all d.fit

/-! Reading -/

/-- The log entry that LOG_RIDX names, if it is on the die. -/
def Dev.namedEntry (d : Dev) : Option LogEntry :=
  d.log.entries.find? fun e => decide (e.num % 2 ^ 24 = d.fld Reg.logRidx Fld.logRidxSeq)

/-- A register's value with the live writes accepted for it, whether or not they have taken effect (R420, R421; log entry 66). -/
def Dev.inHand (d : Dev) (a : Nat) : Nat :=
  match d.tms.paused.find? fun p => decide (p.1 = a) with
  | some p => p.2
  | none =>
    match d.acq.pend.find? fun p => decide (p.1 = a) with
    | some p => p.2
    | none => d.staged a

/-- The LOG registers as they read; LOG_WRRESULT apart. -/
def Dev.showLog (d : Dev) (a : Nat) : Nat :=
  if a = Reg.logSeq then (d.log.written - 1) % 2 ^ 24
  else if a = Reg.logTag then (match d.log.tag with
    | some t => t
    | none => 0)
  else if a = Reg.logHeld then d.log.held
  else if a = Reg.logMirrorHeld then d.undelivered
  else if a = Reg.logRstat then bit01 d.namedEntry.isSome
  else if a = Reg.logEntries then satInc 32 d.log.written 0
  else if Reg.logRdata 0 ≤ a ∧ a < Reg.logRdata 8 then
    match d.namedEntry with
    | some e => leAt e.bytes (a - Reg.logRdata 0) 4
    | none => 0
  else d.rd a

/-- Registers below PRM that are computed when they are read. -/
def Dev.showLow (d : Dev) (a : Nat) : Nat :=
  if a = Reg.glbId then d.part + 0x5A56 * 2 ^ 16
  else if a = Reg.glbStepping then d.step
  else if 0x30000 ≤ a ∧ a < 0x40000 then d.showLog a
  else if Reg.tmsNow0 ≤ a ∧ a ≤ Reg.tmsNow2 then bitsOf (fullTime d.net16) (8 * (a - Reg.tmsNow0)) 32
  else if a = Reg.ingInservice0 ∨ a = Reg.ingInservice1 then
    maskOf 32 fun i => decide (d.fld (Reg.ingLstate (8 * (a - Reg.ingInservice0) + i)) Fld.ingLstateState = lsService)
  else if a = Reg.ingDown0 ∨ a = Reg.ingDown1 then
    maskOf 32 fun i => d.flag (Reg.ingLstate (8 * (a - Reg.ingDown0) + i)) Fld.ingLstateDown
  else d.inHand a

/-- Whether a hold-off of a menu slot runs (MN_STAT.IN_HOLDOFF). -/
def Dev.menuHolds (d : Dev) (s : Nat) : Bool :=
  let r := d.menuRec s
  (match r.holdT with
    | some t => decide (d.netNs < t)
    | none => false) ||
  (match r.holdE, d.scr.opened with
    | some n, some m => decide (m ≤ n)
    | _, _ => false)

/-- Registers from PRM on that are computed when they are read. -/
def Dev.showHigh (d : Dev) (a : Nat) : Nat :=
  if a = Reg.hwkEnabled0 ∨ a = Reg.hwkEnabled1 then maskOf 32 fun i => d.ringOn (8 * (a - Reg.hwkEnabled0) + i)
  else if Reg.stpRfill 0 ≤ a ∧ a < Reg.stpRfill 64 ∧ (a - Reg.stpRfill 0) % 0x40 = 0 then
    let x := d.ring ((a - Reg.stpRfill 0) / 0x40)
    (x.items.filter fun i => x.caps.any fun c => c.protects true i).length
  else if a = Reg.mshId then d.rd a + bit01 d.isAnchor * 2 ^ 12
  else if Reg.mshRoute 0 ≤ a ∧ a < Reg.mshRoute 64 then
    putBits (d.rd a) 6 3 (match d.routeTo ((a - Reg.mshRoute 0) / 4) with
      | some p => p
      | none => 7)
  else if a = Reg.stkStat then
    maskOf 12 (fun s => decide (d.stackState s = skUp)) +
      2 ^ 12 * maskOf 12 (fun s => decide (d.stackState s = skFailed) || decide (d.stackState s = skMismatch))
  else if a = Reg.recStat then
    d.rd a + maskOf 8 (fun c => decide (d.fld (Reg.chStat c) Fld.chStatState = 2)) +
      2 ^ 8 * maskOf 8 (fun c => decide (3 ≤ d.fld (Reg.chStat c) Fld.chStatState))
  else if Reg.clTime 0 ≤ a ∧ a < Reg.clTime 64 ∧ (a - Reg.clTime 0) % 0x20000 = 0 then d.devNs % 2 ^ 32
  else if Reg.mnStat 0 ≤ a ∧ a < Reg.mnStat 16384 ∧ (a - Reg.mnStat 0) % 0x40 = 0 then
    putBits (d.rd a) 1 1 (bit01 (d.menuHolds ((a - Reg.mnStat 0) / 0x40)))
  else if d.isAnchor ∧ 0x130000 ≤ a ∧ a < 0x138000 then SMap.get msixReset d.hst.msix ((a - 0x130000) / 4)
  else if d.isAnchor ∧ 0x138000 ≤ a ∧ a < 0x138100 then
    maskOf 32 fun i => d.hst.pba.contains (8 * (a - 0x138000) + i)
  else d.inHand a

/-- What a register reads as: in FAULT only GLB, BOOT, UND and LOG read as usual (R466); the registers of a unit that is not
fitted read UNFITTED (R5). -/
def Dev.peek (d : Dev) (a : Nat) : Nat :=
  if d.mode = 3 ∧ 0x40000 ≤ a then 0
  else if d.unitFitted a = false then Status.unfitted.code
  else if reservedReg a then 0
  else if a < 0xA0000 then d.showLow a
  else d.showHigh a

/-- LOG_WRRESULT of an origin (R417). -/
def Dev.resultOf (d : Dev) (o : Origin) : Nat :=
  match d.log.results.find? fun x => decide (x.1 = o) with
  | some x => x.2
  | none => 0

/-- A register read: the lowest register of a value that spans registers captures the whole value for the origin, and the others
answer from the capture (R12). -/
def Dev.busRead (d : Dev) (o : Origin) (addr : Nat) : Nat × Dev :=
  let a := addr / 4 * 4
  if a = Reg.logWrresult then (d.resultOf o, d)
  else
    let low := (spanOf a).1
    let n := (spanOf a).2
    if n = 1 then (d.peek a, d)
    else if a = low then
      let ws := (List.range n).map fun i => d.peek (low + 4 * i)
      (d.peek a, { d with caps := ⟨o, low, ws⟩ :: d.caps.filter fun c => decide (c.origin ≠ o ∨ c.low ≠ low) })
    else
      match d.caps.find? fun c => decide (c.origin = o ∧ c.low = low) with
      | some c => (c.words.getD ((a - low) / 4) 0, d)
      | none => (d.peek a, d)

/-- The status of a read (R524). -/
def Dev.readStatus (d : Dev) (a : Nat) : Status := if d.unitFitted a then .ok else .unfitted

/-! Live writes (R9, R13, R414, Table 11.13) -/

/-- A register's word with the LV bits of a write. -/
def withLv (lv cur v : Nat) : Nat := (cur &&& (2 ^ 32 - 1 - lv)) ||| (v &&& lv)

/-- Check 3: the origin's effective allow mask permits every policy class of the register (R415). -/
def Dev.policyOk (d : Dev) (o : Origin) (cls : Nat) : Bool :=
  let allows (m : Nat) : Bool := decide (m &&& cls = cls)
  match o.cls with
  | .host => allows (d.fld Reg.bootPolicyLo Fld.bootPolicyLoHostAllow)
  | .mesh => allows (d.fld Reg.bootPolicyLo Fld.bootPolicyLoMeshAllow)
  | .hmb => allows (d.fld Reg.bootPolicyHi Fld.bootPolicyHiHmbAllow)
  | _ => true

/-- Check 4: under LOG_MANDATORY the log can take the entry (R427; R401 for a record store of no pages). -/
def Dev.logRoom (d : Dev) : Bool :=
  !d.logMandatory ||
    (decide (d.log.held ≤ 61440) && (decide (d.mirrorCap = 0) || decide (d.undelivered + 4096 ≤ d.mirrorCap)))

/-- Check 5: the slot's owner writes, or its OWNER_LOCK is 0 (R294). -/
def Dev.ownerOk (d : Dev) (o : Origin) (a : Nat) : Bool :=
  if 0xA00000 ≤ a ∧ a < 0xB00000 then
    let s := (a - 0xA00000) / 0x40
    !d.flag (Reg.mnCtl s) Fld.mnCtlOwnerLock || decide (o.id.toNat = d.fld (Reg.mnOwner s) Fld.mnOwnerOwner)
  else true

/-- The lane whose ING_LCFG is at an address. -/
def laneAt (a : Nat) : Option LaneId :=
  let n := if a < 0x100000 then (a - Reg.ingLcfg 0) / 0x80
    else 64 + 4 * ((a - 0x101000) / 0x400) + ((a - 0x101000) % 0x400 - 0x100) / 0x80
  if h : n < 88 then some ⟨n, h⟩ else none

/-- Whether a policy class stands alone in a register's row. -/
def ofClass (r : RegRow) (c : Nat) : Bool := decide (r.cls = 2 ^ c)

/-- Whether a live write is to a generator's MK_CTL. -/
def isMkCtl (r : RegRow) : Bool := decide (r.base = Reg.mkCtl 0)

/-- Whether the image declares a label circuit (R376, R382). -/
def Dev.labelled (d : Dev) : Bool := d.fab.entries.any fun e => decide (e.source = 2)

/-- Check 6: the state conditions of the register's chapter forbid the write: a DISABLED lane, a jump that is not pending or not
the one named (R339), a mark generator that runs (R350), a switch request that cannot be taken (R174, R175) or names an unused group (Table 8.12), more than one
gate changed (R486), or a LABEL ring of an image without a label circuit (R376). -/
def Dev.liveBlocked (d : Dev) (r : RegRow) (a old new : Nat) : Bool :=
  if ofClass r 6 then (match laneAt a with
    | some l => decide (d.laneState l = lsDisabled)
    | none => true)
  else if ofClass r 8 then
    !d.jumpPending || decide (new % 2 ^ 16 ≠ d.fld Reg.tmsJumpSeq Fld.tmsJumpSeqSeq)
  else if ofClass r 9 then
    let g := (a - Reg.mkCtl 0) / 0x40
    d.fld (Reg.mkCtl g) Fld.mkCtlMode ≠ 0 &&
      (!isMkCtl r || decide (fieldOf new Fld.mkCtlAction ≠ fieldOf old Fld.mkCtlAction))
  else if ofClass r 3 then
    let g := (a - Reg.scrCtxsel 0) / 4
    let x := d.grp g
    decide (d.fld (Reg.scrCtxsel g) Fld.scrCtxselUsed = 0) || !(decide (new % 4 = x.ctx) && x.req.isNone && x.wave.isNone) && !d.switchOk g ⟨new % 4, false, false, none⟩
  else if a = Reg.clkGate then
    decide (1 < ((List.range 12).filter fun b => bitAt new b != bitAt old b).length)
  else if r.base = Reg.hrCfg 0 then
    decide (new % 2 = 1) && decide (fieldOf new Fld.hrCfgKind = 4) && !d.labelled
  else false

/-- Check 7: the value lies within range (R13, R78, R96, R286, R350). The register's other fields stand as they are. ENABLE set on a host ring of
a reserved KIND is out of range (DESIGN CHOICE, log entry 41). -/
def Dev.liveInRange (d : Dev) (r : RegRow) (a new : Nat) : Bool :=
  rangeOk a new &&
  (if ofClass r 1 then
    if a < Reg.prmPcfg 256 then
      let p := (a - Reg.prmPcfg 0) / 0x20
      !d.profileUsed p || profileOkBy (fun b => if b = a then new else d.staged b) p
    else true
  else if r.base = Reg.hwkPre 0 then
    let k := (a - Reg.hwkPre 0) / 0x100
    d.windowOk k new (d.rd (Reg.hwkPost k))
  else if r.base = Reg.hwkPost 0 then
    let k := (a - Reg.hwkPost 0) / 0x100
    d.windowOk k (d.rd (Reg.hwkPre k)) new
  else if r.base = Reg.mnThr 0 0 then
    let s := (a - 0xA00000) / 0x40
    let k := ((a - 0xA00000) % 0x40 - 0x14) / 4
    (d.terms s).all fun t => decide (t.1 ≠ k) || !d.flag (Reg.scrInput t.2.1) Fld.scrInputFp32 ||
      decide (bitsOf new 23 8 ≠ 255)
  else if isMkCtl r then
    decide (fieldOf new Fld.mkCtlMode = 0) || !d.mkRangeBad ((a - Reg.mkCtl 0) / 0x40) (fieldOf new Fld.mkCtlMode)
  else if r.base = Reg.hrCfg 0 then
    decide (new % 2 = 0) || decide (fieldOf new Fld.hrCfgKind ≤ 4)
  else true)

/-- The first check of Table 11.13 from the second on that a live write fails. -/
def Dev.liveFault (d : Dev) (o : Origin) (r : RegRow) (a old new : Nat) : Option Status :=
  if d.scr.armed = false then some .refused
  else if d.policyOk o r.cls = false then some .policy
  else if d.logRoom = false then some .policy
  else if d.ownerOk o a = false then some .policy
  else if d.liveBlocked r a old new then some .refused
  else if d.liveInRange r a new = false then some .range
  else none

/-- ADMIN_OFF of a lane in force (Table 2.7, rows 1 and 2). -/
def Dev.adminWritten (d : Dev) (a : Nat) (new : Nat) : Dev :=
  let d := d.wr a new
  match laneAt a with
  | some l => (if fieldOf new Fld.ingLcfgAdminOff = 1 then d.laneOff l else d.laneOn l).laneSync l
  | none => d

/-- SCR_CTXSEL of a group written (R295). -/
def Dev.ctxWritten (d : Dev) (g k : Nat) : Dev :=
  let x := d.grp g
  let d := d.setFld (Reg.scrCtxsel g) Fld.scrCtxselTarget k
  if k = x.ctx ∧ x.req.isNone = true ∧ x.wave.isNone = true then d
  else d.setGrp g { d.grp g with req := some ⟨k, false, false, none⟩ }

/-- Whether a register's live fields take effect at the next sample position of their ring (R114). -/
def ringField (r : RegRow) : Bool :=
  decide (r.base = Reg.hwkFree 0) || decide (r.base = Reg.stpRkeep 0) || decide (r.base = Reg.stpRmode 0) ||
    decide (r.base = Reg.stpDband 0)

/-- An accepted live write in force, or on its way to the moment at which its chapter puts it in force (R91, R114, R293, R343). -/
def Dev.liveApply (d : Dev) (r : RegRow) (a new : Nat) : Dev :=
  if r.cls = 1 ∨ r.cls = 2 then d.stage a new
  else if ofClass r 6 then d.adminWritten a new
  else if ofClass r 8 then (d.wr a new).acceptJump
  else if ofClass r 7 ∨ ofClass r 9 then
    if d.timeState = tsPaused then { d with tms := { d.tms with paused := (a, new) :: d.tms.paused } }
    else d.tmsWrite a new
  else if ofClass r 3 then d.ctxWritten ((a - Reg.scrCtxsel 0) / 4) (new % 4)
  else if ringField r then d.ringFieldWritten a new
  else if a = Reg.pwrPin then (d.wr a new).pinWritten
  else if r.base = Reg.auxCtl 0 then (d.wr a new).auxWritten ((a - Reg.auxCtl 0) / 0x10)
  else if r.base = Reg.numRcLimits 0 0 ∨ a = Reg.numGcfg then (d.noteReplaced a).wr a new
  else d.wr a new

/-- A live write (R414). -/
def Dev.liveWrite (d : Dev) (o : Origin) (r : RegRow) (a v : Nat) : Dev × Option Status :=
  if d.unitFitted a = false then (d.liveEntry o a Status.unfitted.code v .unfitted, some .unfitted)
  else
    let old := d.inHand a
    let new := withLv r.lv old v
    match d.liveFault o r a old new with
    | some st => (d.liveEntry o a old v st, some st)
    | none =>
      if a = Reg.clkGate then
        let waits := d.clk.gates.length
        let d := d.gateWrite o new
        (d, if d.clk.gates.length = waits then some .ok else none)
      else
        let d := d.liveApply r a new
        (d.liveEntry o a old (if ofClass r 3 then d.rd a else new) .ok, some .ok)

/-! Writes to ring settings, the flash bridge and other registers -/

/-- A write refused and logged with its writer's origin (Table 11.17). -/
def Dev.refuseWrite (d : Dev) (o : Origin) (a v : Nat) : Dev × Option Status :=
  (d.logRefusal o a (d.peek a) v .refused, some .refused)

/-- A write to HR_CFG of a ring: ENABLE by the live-write checks, and the ring's settings by R376; settings that would change while
the ring was enabled are refused with an entry of their own (log entry 61). -/
def Dev.ringWritten (d : Dev) (o : Origin) (r : RegRow) (k v : Nat) : Dev × Option Status :=
  let a := Reg.hrCfg k
  let old := d.rd a
  let on := d.hrOn k
  let set := (old &&& (2 ^ 32 - 1 - r.rw)) ||| (v &&& r.rw)
  let base := if on then old else set
  let new := withLv r.lv base v
  let before := d
  let d := if on then d else d.wr a set
  let out := match before.liveFault o r a old new with
    | some st => (d.liveEntry o a old v st, some st)
    | none =>
      let d := d.wr a new
      let d := if !on && decide (new % 2 = 1) then d.ringStart k
        else if on && decide (new % 2 = 0) then d.ringStop k else d
      (d.liveEntry o a old new .ok, some .ok)
  if on && decide (v &&& r.rw ≠ old &&& r.rw) then (out.1.logRefusal o a old v .refused, out.2) else out

/-- Whether a register holds a ring's settings (R376), and the ring; none for settings of every ring. -/
def ringSetting (a : Nat) : Option (Option Nat) :=
  if a = Reg.hstIdxAddrLo ∨ a = Reg.hstIdxAddrHi ∨ a = Reg.hstStatAddrLo ∨ a = Reg.hstStatAddrHi then some none
  else if Reg.hrCfg 0 ≤ a ∧ a < Reg.hrCfg 32 then some (some ((a - Reg.hrCfg 0) / 0x40))
  else none

/-- A register of the flash bridge (R495). -/
def bridgeReg (a : Nat) : Bool :=
  decide (a = Reg.hmbFlAddr) || decide (a = Reg.hmbFlCtl) || (decide (Reg.hmbFlBuf 0 ≤ a) && decide (a < Reg.hmbFlBuf 64))

/-- The RW and W1C bits of a register written; hw are the W1C bits that hardware sets in the same access (R10). -/
def Dev.plainWrite (d : Dev) (r : RegRow) (a v hw : Nat) : Dev :=
  let cur := d.rd a
  let x := (cur &&& (2 ^ 32 - 1 - r.rw)) ||| (v &&& r.rw)
  d.wr a ((x &&& (2 ^ 32 - 1 - (v &&& r.w1c))) ||| (hw &&& r.w1c))

/-- HMB_FL_CTL written by the HMB: its settings, and an operation begun by GO. OP 3 begins none (log entry 59). -/
def Dev.bridgeWritten (d : Dev) (v : Nat) : Dev :=
  let d := d.wr Reg.hmbFlCtl (putBits (d.rd Reg.hmbFlCtl) 0 10 v)
  if fieldOf v Fld.hmbFlCtlGo = 1 ∧ v % 4 ≠ 3 then d.flashGo (v % 4) (bitsOf v 2 8) else d

/-- A write to a register with no LV field, by its access code (R8, R9, R11). Before start-up ends a bus write to a PR or FU register is
ignored and not logged (DESIGN CHOICE, log entry 41); so is, at any time, a write to a register that only reads 0 and ignores writes (PT_CFG of
port 0, profile 0), for whose entry the spec says nothing: it is answered OK (DESIGN CHOICE, log entry 41). -/
def Dev.otherWrite (d : Dev) (o : Origin) (r : RegRow) (a v : Nat) : Dev × Option Status :=
  if d.unitFitted a = false then (d, some .unfitted)
  else if reservedReg a then (d, some .ok)
  else if a = Reg.logFwd then d.refuseWrite o a v
  else if a = Reg.undAttCtl then (if v % 2 = 1 then d.attestGo else d, some .ok)
  else if bridgeReg a then
    if o.cls ≠ .hmb then d.refuseWrite o a v
    else (if a = Reg.hmbFlCtl then d.bridgeWritten v else d.plainWrite r a v 0, some .ok)
  else
    match (if r.rw = 0 then none else ringSetting a) with
    | some k =>
      let busy := match k with
        | some k => d.hrOn k
        | none => (List.range 32).any d.hrOn
      if busy then d.refuseWrite o a v else (d.plainWrite r a v 0, some .ok)
    | none =>
      if r.rw ≠ 0 ∨ r.w1c ≠ 0 then (d.plainWrite r a v 0, some .ok)
      else if (r.pr ≠ 0 ∨ r.fu ≠ 0) ∧ d.mode ≠ 0 then d.refuseWrite o a v
      else (d, some .ok)

/-- A register write, with its status; none while a gate request waits for its outcome (R524). -/
def Dev.busWrite (d : Dev) (o : Origin) (addr value : Nat) : Dev × Option Status :=
  let a := addr / 4 * 4
  let v := value % 2 ^ 32
  if d.mode = 3 ∧ 0x40000 ≤ a then (d, some .refused)
  else match regRow a with
    | none =>
      if d.unitFitted a = false then (d, some .unfitted)
      else if d.isAnchor ∧ 0x130000 ≤ a ∧ a < 0x138000 then
        let i := (a - 0x130000) / 4
        (d.writeMsix i (if i % 4 = 3 then v % 2 else v), some .ok)
      else (d, some .ok)
    | some r =>
      if r.lv = 0 ∨ reservedReg a then d.otherWrite o r a v
      else if r.base = Reg.hrCfg 0 then d.ringWritten o r ((a - Reg.hrCfg 0) / 0x40) v
      else d.liveWrite o r a v

/-- A register write whose status nobody takes. -/
def Dev.put (d : Dev) (o : Origin) (a v : Nat) : Dev := (d.busWrite o a v).1

/-- A write to LOG_FWD (R8, R413): an anchor's origin WREQ sets it; any other is dropped and logged. -/
def Dev.fwdWrite (d : Dev) (anchorWreq : Bool) (o : Origin) (v : Nat) : Dev :=
  if anchorWreq then d.wr Reg.logFwd (v % 2 ^ 16) else (d.refuseWrite o Reg.logFwd v).1

/-- A write of 1 bits to CLK_LOSS, with the bits that hardware sets in the same access (R10). -/
def Dev.clearLoss (d : Dev) (v hw : Nat) : Dev :=
  if d.mode = 3 then d
  else match regRow Reg.clkLoss with
    | some r => d.plainWrite r Reg.clkLoss v hw
    | none => d

/-! Forwarded accesses (R370 to R372, R413) -/

/-- The BODY of a WREQ: window offset, WRITE, read length in words, RTAG (Table 10.5). -/
def wreqBody (ofs : Nat) (write : Bool) (n rtag : Nat) : Nat :=
  ofs % 2 ^ 24 * 2 ^ 59 + bit01 write * 2 ^ 58 + n % 2 ^ 11 * 2 ^ 47 + rtag % 2 ^ 16 * 2 ^ 31

/-- A WREQ write of one word: the word stands in the low bits of its one data block (log entry 62). -/
def Dev.sendWrite (d : Dev) (t ofs v : Nat) : Dev :=
  (d.hostSend t 0x42 (wreqBody ofs true 1 0) [BitVec.ofNat 128 (v % 2 ^ 32)] none).1

/-- The data of a forwarded read reaches who waits for it. -/
def Dev.readDone (d : Dev) (waiter v : Nat) : Dev :=
  if waiter = 0 then d.emit (.windowData (BitVec.ofNat 32 v))
  else if waiter = 1 then d.emit (.mgtResponse Status.ok.code (some (BitVec.ofNat 32 v)))
  else d

/-- Whether the window of a device can be reached: a member with an UP route. -/
def Dev.reachable (d : Dev) (t : Nat) : Bool := d.isMember t && (d.routeTo t).isSome

/-- The origin WREQ ahead of an access whose origin differs from that of the last one forwarded. -/
def Dev.tellOrigin (d : Dev) (o : Origin) (t : Nat) : Dev :=
  if SMap.get (fun _ => none) d.msh.fwd t = some o then d
  else
    ({ d with msh := { d.msh with fwd := SMap.set (fun _ => none) d.msh.fwd t (some o) } }).sendWrite t Reg.logFwd (originWord o)

/-- A write forwarded to a member's window: whether it was put into the host channel. -/
def Dev.forwardWrite (d : Dev) (o : Origin) (t ofs v : Nat) : Dev × Bool :=
  if ofs / 4 * 4 = Reg.logFwd then ((d.refuseWrite o Reg.logFwd v).1, false)
  else if d.reachable t = false then (d.count Reg.hstWinUnreach, false)
  else ((d.tellOrigin o t).sendWrite t ofs v, true)

/-- A read forwarded to a member's window for the one who waits. -/
def Dev.forwardRead (d : Dev) (o : Origin) (t ofs waiter : Nat) : Dev :=
  if d.reachable t = false then (d.count Reg.hstWinUnreach).readDone waiter 0xFFFFFFFF
  else
    let d := d.tellOrigin o t
    let tag := d.msh.nextTag % 2 ^ 16
    let d := { d with msh := { d.msh with nextTag := d.msh.nextTag + 1, reads := d.msh.reads ++ [FwdRead.mk tag d.devNs waiter] } }
    (d.hostSend t 0x42 (wreqBody ofs false 1 tag) [] none).1

/-- The origin of a host access through the anchor (Table 11.12). -/
def Dev.hostOrigin (d : Dev) : Origin :=
  ⟨.host, BitVec.ofNat 12 (d.devId + 64 * d.fld Reg.logHosttag Fld.logHosttagTag)⟩

/-- An access to BAR0 (R370). -/
def Dev.barAccess (d : Dev) (addr : Nat) (write : Bool) (v : Nat) : Dev :=
  if (d.isAnchor && d.hostUp) = false then d
  else
    let t := addr / 2 ^ 24
    let ofs := addr % 2 ^ 24
    let o := d.hostOrigin
    if t = d.devId then
      if write then d.put o ofs v
      else
        let x := d.busRead o ofs
        x.2.emit (.windowData (BitVec.ofNat 32 x.1))
    else if write then (d.forwardWrite o t ofs v).1
    else d.forwardRead o t ofs 0

/-- n registers read in ascending order from an offset. -/
def Dev.readRun (d : Dev) (o : Origin) (ofs : Nat) : Nat → List Nat × Dev
  | 0 => ([], d)
  | n + 1 =>
    let x := d.busRead o ofs
    let r := x.2.readRun o (ofs + 4) n
    (x.1 :: r.1, r.2)

/-- A forwarded access accepted from the anchor: carried out under LOG_FWD's origin, a read answered with a WCPL. A WREQ from a device that is
not the anchor is ignored whole: no access, no entry, no WCPL (DESIGN CHOICE, log entry 41). -/
def Dev.takeWreq (d : Dev) (src b : Nat) (data : List (BitVec 128)) : Dev :=
  if src ≠ d.anchor then d
  else
    let ofs := bitsOf b 59 24
    let o := originOfWord (d.rd Reg.logFwd)
    if bitAt b 58 then
      let v := match data with
        | x :: _ => x.toNat % 2 ^ 32
        | [] => 0
      if ofs / 4 * 4 = Reg.logFwd then d.fwdWrite true o v else d.put o ofs v
    else
      let r := d.readRun o ofs (bitsOf b 47 11)
      (r.2.hostSend src 0x43 (bitsOf b 31 16 * 2 ^ 67) (toBlocks (r.1.map (leBytes 4)).flatten) none).1

/-- A completion of a forwarded read accepted by the anchor (R372). -/
def Dev.takeWcpl (d : Dev) (b : Nat) (data : List (BitVec 128)) : Dev :=
  let tag := bitsOf b 67 16
  match d.msh.reads.find? fun x => decide (x.rtag = tag) with
  | none => d.count Reg.hstLateArrival
  | some x =>
    let d := { d with msh := { d.msh with reads := d.msh.reads.filter fun y => decide (y.rtag ≠ tag) } }
    let v := match data with
      | w :: _ => if bitsOf b 64 3 = 0 then w.toNat % 2 ^ 32 else 0xFFFFFFFF
      | [] => 0xFFFFFFFF
    d.readDone x.waiter v

/-- 20 µs without a completion: a forwarded read completes with all ones; a completion that resolves together with the expiry
wins (R34). -/
def Dev.readExpire (d : Dev) (tag : Nat) (tie : Bool) : Dev :=
  match d.msh.reads.find? fun x => decide (x.rtag = tag) && decide (x.sentAt + 20000 ≤ d.devNs) with
  | none => d
  | some x =>
    if tie then d
    else
      (({ d with msh := { d.msh with reads := d.msh.reads.filter fun y => decide (y.rtag ≠ tag) } }).count
        Reg.hstWinTimeout).readDone x.waiter 0xFFFFFFFF

/-! The management bus (R491 to R493, R524) -/

/-- The check code over n bits of x, most significant first: generator x^8 + x^2 + x + 1. -/
def crc8 (crc x : Nat) : Nat → Nat
  | 0 => crc
  | n + 1 =>
    let top := (crc / 2 ^ 7 + bitsOf x n 1) % 2
    crc8 ((crc * 2 % 2 ^ 8) ^^^ (if top = 1 then 0x07 else 0)) x n

/-- CHECK of a request: over REQ to DATA. -/
def requestCheck (req dev op ofs data : Nat) : Nat :=
  let head := ((req * 2 ^ 6 + dev) * 2 ^ 2 + op) * 2 ^ 24 + ofs
  if op = 1 then crc8 0xFF (head * 2 ^ 32 + data) 68 else crc8 0xFF head 36

/-- A response on the management bus. -/
def Dev.answer (d : Dev) (st : Status) (v : Option Nat) : Dev :=
  d.emit (.mgtResponse st.code (v.map (BitVec.ofNat 32)))

/-- A request on the management bus. -/
def Dev.mgtRequest (d : Dev) (req dev op ofs data check : Nat) : Dev :=
  if 2 ≤ op ∨ check ≠ requestCheck req dev op ofs data then (d.count Reg.hmbBadFrame).answer .refused none
  else if dev = d.gid.toNat then
    let o : Origin := ⟨.hmb, BitVec.ofNat 12 req⟩
    if op = 0 then
      let x := d.busRead o ofs
      x.2.answer (d.readStatus (ofs / 4 * 4)) (some x.1)
    else
      let x := d.busWrite o ofs data
      match x.2 with
      | some st => x.1.answer st none
      | none => x.1
  else if d.isAnchor = false then d.answer .refused none
  else
    let o : Origin := ⟨.mesh, BitVec.ofNat 12 d.devId⟩
    if op = 0 then d.forwardRead o dev ofs 1
    else
      let x := d.forwardWrite o dev ofs data
      x.1.answer (if x.2 then .ok else .refused) none

/-- The oldest management read that still waits gets no answer: its 4,096 WAIT clocks have passed (R493). -/
def dropWaiter : List FwdRead → List FwdRead
  | [] => []
  | x :: xs => if x.waiter = 1 then { x with waiter := 2 } :: xs else x :: dropWaiter xs

end Sys2Proof.Machine
end

