-- ==== Sys2Proof/Machine/Operands.lean ====
section
/-!
DEFINITION. What the commands share: when a device answers a command at all, the words of operands, and messages
of the host channel.
-/

namespace Sys2Proof.Machine

open Sys2Proof

/-- A command that a device out of reset answers, FAULT included: register accesses, the log, attestation, clocks, the
management bus and the host endpoint (R466, R514). In reset it leaves no trace (log entry 64). -/
def State.up (s : State) (f : Dev → Dev) : Host.Outcome State Fault Refusal :=
  s.next (if s.dev.inReset then s.dev else f s.dev)

/-- A command that a device answers out of reset and out of FAULT (R466, R514); otherwise it leaves no trace. -/
def State.live (s : State) (f : Dev → Dev) : Host.Outcome State Fault Refusal :=
  s.next (if s.dev.alive then f s.dev else s.dev)

/-- A command of the time service, which needs the TMS unit (Table 0.4). -/
def State.timed (s : State) (f : Dev → Dev) : Host.Outcome State Fault Refusal :=
  s.live fun d => if d.fit 36 then f d else d

/-- A command that a pin or a rail gives: it acts in every mode, in reset too (R512 to R515). -/
def State.pin (s : State) (f : Dev → Dev) : Host.Outcome State Fault Refusal := s.next (f s.dev)

/-- A lane command, which its mesh port follows (R527). -/
def State.onLane (s : State) (l : LaneId) (f : Dev → Dev) : Host.Outcome State Fault Refusal :=
  s.live fun d => (f d).laneSync l

/-- An ingest lane as a lane. -/
def ingestLane (n : Fin 64) : LaneId := ⟨n.val, by omega⟩

/-- The window offset of a profile write's target (Tables 3.9, 3.10). -/
def profileAddr : ProfileTarget → Nat
  | .profile p w => Reg.prmPcfg p.val + 4 * w.val
  | .unitOffset u => Reg.prmUofs u.val

/-- The window offset of a capture setting (Tables 3.12, 3.13). -/
def captureAddr : CaptureSetting → Nat
  | .hwkFree r => Reg.hwkFree r.val
  | .stpRkeep r => Reg.stpRkeep r.val
  | .stpRmode r => Reg.stpRmode r.val
  | .stpDband c => Reg.stpDband c.val

/-- The window offset of a mark generator's parameter (Table 9.10). -/
def markAddr (g : Nat) : MarkParam → Nat
  | .ctl => Reg.mkCtl g
  | .start0 => Reg.mkStart0 g
  | .start1 => Reg.mkStart1 g
  | .start2 => Reg.mkStart2 g
  | .periodNs => Reg.mkPeriod g
  | .periodFrac => Reg.mkPfrac g
  | .width => Reg.mkWidth g
  | .count => Reg.mkCount g

/-- HMB_FL_CTL as a write that starts an operation: OP, LEN and GO (Table 14.11). -/
def bridgeWord (op : Nat) (len : Byte) : Nat := op + 4 * len.toNat + 2 ^ 10

/-- A message of the host channel received on a port: what it does once it is accepted here (R362). -/
def Dev.message (d : Dev) (p : Fin 6) (ty : Nat) (b : BitVec 120) (data : List (BitVec 128)) (f : Dev → Dev) : Dev :=
  let r := d.hostReceive p.val ty b.toNat data
  if r.2 then f r.1 else r.1

end Sys2Proof.Machine
end

