-- ==== Sys2Proof/Machine/Dataflow.lean ====
section
/-!
DEFINITION. Commands of the fabric ("Engines, cores, clusters and dies"; "Dataflow, slot wheels, contexts and deadlock").
-/

namespace Sys2Proof.Machine

open Sys2Proof

/-- ENGINE_ISSUE (R126): rivals are the weight-store accesses due in the cycle besides the engine's own (R128); bankWait is the number of
cycles that the issue has waited for a bank of a slice (R141); the last two count the words that single-bit correction mended in the cycle
(R130, R142). -/
def execEngineIssue (c : CoreId) (e : Fin 64) (bankWait : Nat) (rivals : List BankUse) (wsCorrected cmemCorrected : Nat)
    (s : State) : Host.Outcome State Fault Refusal :=
  s.live fun d => d.issueStep c.val e.val bankWait rivals wsCorrected cmemCorrected

/-- COUNT_TOKEN (R166). -/
def execCountToken (c : CoreId) (k : Fin 16) (v : Word) (degraded : Bool) (s : State) : Host.Outcome State Fault Refusal :=
  s.live fun d => if d.coreState c.val = coRun then (d.countTok (d.cuRef c.val k.val) v.toNat degraded).settleDrip else d

/-- TOKEN_ARRIVAL (R137, R177, R181). -/
def execTokenArrival (c : CoreId) (e : Fin 64) (q : Fin 2) (tok : Token) (s : State) : Host.Outcome State Fault Refusal :=
  s.live fun d => (d.iqDeliver c.val e.val q.val tok).settleDrip

/-- WHEEL_CROSSING (R156, R157). -/
def execWheelCrossing (link : BitVec 32) (s : State) : Host.Outcome State Fault Refusal :=
  s.live fun d => d.crossLink link.toNat

/-- PACE_WINDOW (R118). -/
def execPaceWindow (cl : ClusterId) (count : BitVec 16) (s : State) : Host.Outcome State Fault Refusal :=
  s.live fun d => d.pace cl.val count.toNat

/-- STALL_TICK (R133): bankHeld are the engines that a bank holds back. -/
def execStallTick (bankHeld : List (CoreId × Fin 64)) (s : State) : Host.Outcome State Fault Refusal :=
  s.live fun d => d.stallTick (bankHeld.map fun x => (x.1.val, x.2.val))

/-- CORE_FENCE (R137, R292, R458). -/
def execCoreFence (c : CoreId) (cause : FenceCause) (s : State) : Host.Outcome State Fault Refusal :=
  s.live fun d => (d.fence c.val (fenceCode cause)).settleDrip

/-- SELF_TEST_COMPLETE (R136, R449, R450). -/
def execSelfTestComplete (c : CoreId) (r : SelfTestResult) (s : State) : Host.Outcome State Fault Refusal :=
  s.live fun d => d.coreTested c.val r

/-- CORE_LOAD_COMPLETE (R134, row 9): an uncorrectable error of the load in the same cycle takes effect instead, as row 3 has the lower
number. corrected counts the words that single-bit correction mended as what was loaded was read back (R130). -/
def execCoreLoadComplete (c : CoreId) (tie : Option FenceCause) (corrected : Nat) (s : State) : Host.Outcome State Fault Refusal :=
  s.live fun d =>
    let d := if d.coreState c.val = coLoad then d.countN (Reg.coWsCe (clOf c.val) (posOf c.val)) corrected else d
    match tie with
    | some k => d.loadErrorRetire c.val (fenceCode k)
    | none => d.coreLoaded c.val

/-- LOAD_ERROR_RETIRE (R456). -/
def execLoadErrorRetire (c : CoreId) (cause : FenceCause) (s : State) : Host.Outcome State Fault Refusal :=
  s.live fun d => d.loadErrorRetire c.val (fenceCode cause)

/-- DIE_LINK_FLIT (R145, R146): a flit of link k of die n, received by the die, or on a half of the X-die link by the X-die. -/
def execDieLinkFlit (n : DieId) (k : Fin 4) (toX : Bool) (outcome : FlitOutcome) (s : State) : Host.Outcome State Fault Refusal :=
  s.live fun d => (d.flit (n.val, k.val) (toX && decide (k.val < 2)) outcome).settleDrip

/-- DIE_LINK_LOSS_OF_LOCK (R460). -/
def execDieLinkLossOfLock (n : DieId) (k : Fin 4) (s : State) : Host.Outcome State Fault Refusal :=
  s.live fun d => d.linkLoses (n.val, k.val)

/-- DIE_LINK_RETRAIN (R460). -/
def execDieLinkRetrain (n : DieId) (k : Fin 4) (ok : Bool) (s : State) : Host.Outcome State Fault Refusal :=
  s.live fun d => d.linkRetrain (n.val, k.val) ok

/-- SWITCH_REQUEST (R174, R175): a request of the device's own, from a section's end or an adaptation epoch. -/
def execSwitchRequest (g : Fin 64) (ctx : Fin 4) (s : State) : Host.Outcome State Fault Refusal :=
  s.live fun d => d.switchReq g.val ⟨ctx.val, false, false, none⟩

/-- SWITCH_ACCEPT (R176). -/
def execSwitchAccept (g : Fin 64) (s : State) : Host.Outcome State Fault Refusal := s.live fun d => (d.switchAccept g.val).settleDrip

/-- MARKER_SEND (R172). -/
def execMarkerSend (circ : Nat) (s : State) : Host.Outcome State Fault Refusal := s.live fun d => (d.sendMarker circ).settleDrip

/-- RECEIVE_SWITCH_MARKER (R178), or what fences the core in the same cycle (R138). -/
def execReceiveSwitchMarker (c : CoreId) (e : Fin 64) (tie : Option FenceCause) (s : State) : Host.Outcome State Fault Refusal :=
  s.live fun d => (d.fenceOr c.val tie fun f => f.receiveMarker c.val e.val).settleDrip

/-- COUNTER_UNIT_SWITCH (R179), or what fences the core in the same cycle (R138). -/
def execCounterUnitSwitch (c : CoreId) (tie : Option FenceCause) (s : State) : Host.Outcome State Fault Refusal :=
  s.live fun d => (d.fenceOr c.val tie fun f => f.counterSwitch c.val).settleDrip

/-- The stack that the loader reads a group's next section from (R185). -/
def Dev.loadStack (d : Dev) (g : Nat) : Option Nat :=
  match (d.grp g).loading.bind fun i => (d.grp g).sections_[i]? with
  | some x => if x.area = 0x1F then none else some x.stack
  | none => none

/-- SECTION_LOAD (R185, R221, R462): from cluster memory, or from a stack in a slot that the loader has. -/
def execSectionLoad (g : Fin 64) (bad : Option Nat) (corrected : Nat) (s : State) : Host.Outcome State Fault Refusal :=
  s.live fun d => match d.loadStack g.val with
    | none => (d.sectionLoad g.val bad corrected).settleDrip
    | some st => if d.served st 3 then ((d.sectionLoad g.val bad corrected).useGrant st).settleDrip else d

/-- DRIP_TIMER_EXPIRY (R189, R190, R193). -/
def execDripTimerExpiry (cl : ClusterId) (set : Fin 32) (tie : Bool) (s : State) : Host.Outcome State Fault Refusal :=
  s.live fun d => d.dripExpire cl.val set.val tie

/-- What Drip does of a cluster with its stack, in a slot that Drip has (R221). -/
def Dev.dripUse (d : Dev) (cl : Nat) (f : Dev → Dev) : Dev :=
  let st := d.fld (Reg.drpArea cl) Fld.drpAreaStack
  if d.served st 4 then (f d).settleDrip.useGrant st else d

/-- DRIP_SPILL_COMPLETE (R190, R194). -/
def execDripSpillComplete (cl : ClusterId) (set : Fin 32) (s : State) : Host.Outcome State Fault Refusal :=
  s.live fun d => d.dripUse cl.val fun f => f.dripSpilled cl.val set.val

/-- DRIP_REFILL (R191). -/
def execDripRefill (cl : ClusterId) (set : Fin 32) (corrected : Nat) (s : State) : Host.Outcome State Fault Refusal :=
  s.live fun d => d.dripUse cl.val fun f => f.dripRefills cl.val set.val corrected

/-- DRP_FAIL (R196): the segment is the one that was read. -/
def execDrpFail (cl : ClusterId) (segment : Fin 4) (s : State) : Host.Outcome State Fault Refusal :=
  s.live fun d => (d.dripFail cl.val segment.val).settleDrip

/-- CREDIT_TOKEN (R200). -/
def execCreditToken (cl : ClusterId) (k : Fin 64) (n : BitVec 7) (s : State) : Host.Outcome State Fault Refusal :=
  s.live fun d => d.addCredits cl.val k.val n.toNat

end Sys2Proof.Machine
end

