-- ==== Sys2Proof/Machine/Grid.lean ====
section
/-!
DEFINITION. Commands of the event grid and the Screed ("The event path and the twelve subsystems"; "The Screed, menu slots and
decisions").
-/

namespace Sys2Proof.Machine

open Sys2Proof

/-- EVENT_WINDOW_OPEN (R20, R24, R91). -/
def execEventWindowOpen (n : Nat) (s : State) : Host.Outcome State Fault Refusal := s.live fun d => d.windowOpen n

/-- ADMISSION (R22). -/
def execAdmission (n : Nat) (tie : Bool) (s : State) : Host.Outcome State Fault Refusal :=
  s.live fun d => (d.admission n tie).settleDrip

/-- RELEASE (R298), with the count of corrected words in the X-die's memories (Table 13.6). -/
def execRelease (n : Nat) (tie : Bool) (corrected : Nat) (s : State) : Host.Outcome State Fault Refusal :=
  s.live fun d => (d.countN Reg.glbXdieCe corrected).release n tie

/-- DEC_WIDTH_EXPIRY (R311). -/
def execDecWidthExpiry (k : Fin 32) (tie : Bool) (s : State) : Host.Outcome State Fault Refusal :=
  s.live fun d => d.decIdle k.val tie

/-- SCREED_ARM (R337). -/
def execScreedArm (s : State) : Host.Outcome State Fault Refusal := s.live fun d => d.armLocked

/-- ARM_WAIT_EXPIRY (R337). -/
def execArmWaitExpiry (s : State) : Host.Outcome State Fault Refusal := s.live fun d => d.armWaited

/-- NETWORK_INPUT (R282, R302). -/
def execNetworkInput (i : Fin 4096) (slot : Byte) (v : Word) (degraded : Bool) (s : State) :
    Host.Outcome State Fault Refusal :=
  s.live fun d => d.netInput i.val slot.toNat v degraded

/-- NOTICE (R299, R301). -/
def execNotice (kind : NoticeKind) (slot : Byte) (core : Fin 1024) (s : State) : Host.Outcome State Fault Refusal :=
  s.live fun d => (d.takeNotice false kind slot.toNat core.val).noticeArrives slot.toNat core.val

/-- SKEW_NOTICE (R255, R291). -/
def execSkewNotice (slot : Byte) (core : Fin 1024) (s : State) : Host.Outcome State Fault Refusal :=
  s.live fun d => (d.takeNotice true .timedOverflow slot.toNat core.val).skewArrives slot.toNat core.val

/-- LOCAL_DEADLINE (R306, R363). -/
def execLocalDeadline (n : Nat) (tie : Bool) (s : State) : Host.Outcome State Fault Refusal :=
  s.live fun d => d.localDeadline n tie

/-- COLLECTION_CLOSE (R365). -/
def execCollectionClose (n : Nat) (tie : Bool) (s : State) : Host.Outcome State Fault Refusal :=
  s.live fun d => d.collectionClose n tie

/-- GROUP_RESULT (R308, R309). -/
def execGroupResult (n : Nat) (s : State) : Host.Outcome State Fault Refusal := s.live fun d => d.groupResult n

/-- HEADROOM_WINDOW (R303, R503). -/
def execHeadroomWindow (s : State) : Host.Outcome State Fault Refusal := s.live fun d => d.headroomWindow

/-- SETPOINT_RAISE (R503, R504). -/
def execSetpointRaise (n : Nat) (s : State) : Host.Outcome State Fault Refusal := s.live fun d => d.setpointRaise n

/-- SETPOINT_SETTLED (R501, R505). -/
def execSetpointSettled (s : State) : Host.Outcome State Fault Refusal := s.live fun d => d.setpointSettled

/-- RATE_FRAME (R314, R315). -/
def execRateFrame (m : Nat) (s : State) : Host.Outcome State Fault Refusal := s.live fun d => d.rateFrame m

/-- SAFE_ENTRY (R463): the effect is the same for the three memories. -/
def execSafeEntry (_ : XdieMemory) (rows : List Nat) (s : State) : Host.Outcome State Fault Refusal :=
  s.live fun d => d.safeEntry rows

end Sys2Proof.Machine
end

