-- ==== Sys2Proof/Machine/Group.lean ====
section
/-!
DEFINITION. Commands of the device group, the host link, the host rings and the record store ("The device group, the host link
and the record store"). A message comes as the bits of its control block and its data blocks; data read from host memory is
an operand.
-/

namespace Sys2Proof.Machine

open Sys2Proof

/-- HELLO_TX (R359). -/
def execHelloTx (p : Fin 6) (s : State) : Host.Outcome State Fault Refusal := s.live fun d => d.sendHello p.val

/-- HELLO (R359, R360). -/
def execHello (p : Fin 6) (b : BitVec 120) (tie : Bool) (s : State) : Host.Outcome State Fault Refusal :=
  s.live fun d => d.hello p.val b.toNat tie

/-- KEEPALIVE_EXPIRY (R360, Table 10.2, row 2). -/
def execKeepaliveExpiry (p : Fin 6) (tie : Bool) (s : State) : Host.Outcome State Fault Refusal :=
  s.live fun d => d.keepaliveExpire p.val tie

/-- CONTRIB (R364 to R366). -/
def execContrib (p : Fin 6) (b : BitVec 120) (s : State) : Host.Outcome State Fault Refusal :=
  s.live fun d => d.contrib p.val b.toNat

/-- WREQ (R370 to R372). -/
def execWreq (p : Fin 6) (b : BitVec 120) (data : List (BitVec 128)) (s : State) : Host.Outcome State Fault Refusal :=
  s.live fun d => d.message p 0x42 b data fun e => e.takeWreq (bitsOf b.toNat 114 6) b.toNat data

/-- WCPL (R372): the anchor takes it. -/
def execWcpl (p : Fin 6) (b : BitVec 120) (data : List (BitVec 128)) (s : State) : Host.Outcome State Fault Refusal :=
  s.live fun d => d.message p 0x43 b data fun e => if e.isAnchor then e.takeWcpl b.toNat data else e

/-- The anchor issues a member's write in its turn (R372, Table 10.5). -/
def Dev.takeDmaw (d : Dev) (b : Nat) (data : List (BitVec 128)) : Dev :=
  if d.isAnchor && d.hostUp then
    d.memberJob (bitsOf b 114 6) (.write (bitsOf b 19 64) ((ofBlocks data).take (bitsOf b 5 13)) (bitAt b 18) none)
  else d

/-- DMAW (R362, R372). -/
def execDmaw (p : Fin 6) (b : BitVec 120) (data : List (BitVec 128)) (s : State) : Host.Outcome State Fault Refusal :=
  s.live fun d => d.message p 0x44 b data fun e => e.takeDmaw b.toNat data

/-- The anchor issues a member's read in its turn and returns the data, host being what host memory answers (R372). -/
def Dev.takeDmar (d : Dev) (b : Nat) (host : List Byte) : Dev :=
  if d.isAnchor && d.hostUp then
    d.memberJob (bitsOf b 114 6) (.read (bitsOf b 19 64) (bitsOf b 5 13) (some (bitsOf b 83 16, host)))
  else d

/-- DMAR (R362, R372). -/
def execDmar (p : Fin 6) (b : BitVec 120) (host : List Byte) (s : State) : Host.Outcome State Fault Refusal :=
  s.live fun d => d.message p 0x45 b [] fun e => e.takeDmar b.toNat host

/-- Data blocks as 32-bit words. -/
def wordsOfBlocks (xs : List (BitVec 128)) : List Word :=
  (xs.map fun x => (List.range 4).map fun i => BitVec.ofNat 32 (bitsOf x.toNat (32 * i) 32)).flatten

/-- Read data reaches the member that asked: an index block for its poll, discarded and counted after the poll expired
(R377); other data serves the descriptor whose filling asked for it. -/
def Dev.takeDmac (d : Dev) (b : Nat) (data : List (BitVec 128)) : Dev :=
  let q := bitsOf b 67 16
  if d.isAnchor then d
  else if d.hst.polling.any fun x => decide (x.2 = q) then
    ({ d with hst := { d.hst with polling := d.hst.polling.filter fun x => decide (x.2 ≠ q) } }).takeCounts
      (wordsOfBlocks data)
  else if d.hst.overdue.contains q then
    ({ d with hst := { d.hst with overdue := d.hst.overdue.erase q } }).count Reg.hstLateArrival
  else d

/-- DMAC (R362, R372, R377). -/
def execDmac (p : Fin 6) (b : BitVec 120) (data : List (BitVec 128)) (s : State) : Host.Outcome State Fault Refusal :=
  s.live fun d => d.message p 0x46 b data fun e => e.takeDmac b.toNat data

/-- IRQ (R383): the anchor's table applies, behind the writes of that member that wait (R362). -/
def execIrq (p : Fin 6) (b : BitVec 120) (s : State) : Host.Outcome State Fault Refusal :=
  s.live fun d => d.message p 0x47 b [] fun e =>
    if e.isAnchor && e.hostUp then
      let src := bitsOf b.toNat 114 6
      if e.hst.jobs.any fun x => decide (x.1 = src) then e.queueJob src (.vector (bitsOf b.toNat 72 11)) else e.raiseMsix (bitsOf b.toNat 72 11)
    else e

/-- HSTATE (R373): flooded, and not on a host channel. -/
def execHstate (p : Fin 6) (b : BitVec 120) (s : State) : Host.Outcome State Fault Refusal :=
  s.live fun d => if d.portUp p.val then d.learnHstate b.toNat else d

/-- The anchor's HSTATE of a ms of device time, once (R373). -/
def Dev.hstateDue (d : Dev) : Dev :=
  let ms := d.devNs / 1000000
  if d.isAnchor && decide (d.msh.hstateMs ≠ some ms) then
    ({ d with msh := { d.msh with hstateMs := some ms } }).sendHstate
  else d

/-- HSTATE_TX (R373). -/
def execHstateTx (s : State) : Host.Outcome State Fault Refusal := s.live Dev.hstateDue

/-- An ACK received: one for another device is sent on along its route (R362). -/
def Dev.takeAck (d : Dev) (p b : Nat) : Dev :=
  if d.portUp p then
    if bitsOf b 108 6 ≠ d.devId then
      match d.routeTo (bitsOf b 108 6) with
      | some q => d.sendMessage q 0x49 b []
      | none => d
    else d.ackArrives (bitsOf b 114 6) (bitsOf b 67 16)
  else d

/-- ACK (R362). -/
def execAck (p : Fin 6) (b : BitVec 120) (s : State) : Host.Outcome State Fault Refusal :=
  s.live fun d => d.takeAck p.val b.toNat

/-- ACK_TX (R362). -/
def execAckTx (peer : Fin 64) (s : State) : Host.Outcome State Fault Refusal := s.live fun d => d.sendAck peer.val

/-- HOST_RESEND (R362). -/
def execHostResend (peer : Fin 64) (s : State) : Host.Outcome State Fault Refusal := s.live fun d => d.hostResend peer.val

/-- BAR_ACCESS (R370 to R372). -/
def execBarAccess (a : BitVec 30) (write : Bool) (v : Word) (s : State) : Host.Outcome State Fault Refusal :=
  s.up fun d => d.barAccess a.toNat write v.toNat

/-- WINDOW_READ_TIMEOUT (R372). -/
def execWindowReadTimeout (rtag : BitVec 16) (tie : Bool) (s : State) : Host.Outcome State Fault Refusal :=
  s.up fun d => d.readExpire rtag.toNat tie

/-- LINK_DOWN (R373, R374). -/
def execLinkDown (s : State) : Host.Outcome State Fault Refusal := s.up Dev.linkDown

/-- PERST_N (R374, R517): it resets the host endpoint alone. The link does not train while the loop that clocks the endpoint
has failed (R476). -/
def execPerstN (e : PerstEvent) (s : State) : Host.Outcome State Fault Refusal :=
  s.up fun d => match e with
    | .asserted => d.perstOn
    | .released rate width flit =>
      if d.locked 6 && !d.loopFailed 6 then d.perstOff rate.toNat width.toNat flit else d.perstOff 0 0 false

/-- D3HOT (R373). -/
def execD3hot (enter : Bool) (s : State) : Host.Outcome State Fault Refusal := s.up fun d => d.powerState enter

/-- POLL (R377). -/
def execPoll (s : State) : Host.Outcome State Fault Refusal := s.live Dev.poll

/-- POLL_DATA (R377). -/
def execPollData (late : Bool) (idx : List Word) (s : State) : Host.Outcome State Fault Refusal :=
  s.live fun d => d.pollArrives late idx

/-- POLL_EXPIRY (R377). -/
def execPollExpiry (tie : Bool) (s : State) : Host.Outcome State Fault Refusal := s.live fun d => d.pollExpire tie

/-- DESCRIPTOR_FILL (R378 to R381): the operands are the host fields of the next free descriptor, and the channels whose lines
were corrected. -/
def execDescriptorFill (r : Fin 32) (bufAddr : BitVec 64) (bufLen : Word) (corrected : List (Fin 8)) (s : State) :
    Host.Outcome State Fault Refusal :=
  s.live fun d => d.fillDescriptor r.val bufAddr.toNat bufLen.toNat corrected

/-- FLUSH_EXPIRY (R381). -/
def execFlushExpiry (r : Fin 32) (s : State) : Host.Outcome State Fault Refusal := s.live fun d => d.flushExpire r.val

/-- The label circuit of the image, in the context in service (R382, R439). -/
def Dev.labelCircuit (d : Dev) : Option Circuit :=
  d.fab.circuits.find? fun x =>
    d.fab.entries.any (fun e => decide (e.circ = x.key ∧ e.source = 2)) &&
      (match d.dstCore x with
        | some c => x.inCtx (d.coreCtx c)
        | none => true)

/-- The next entry of a LABEL ring that the host has produced enters the label circuit as four tokens, when it has places for
them (R382). -/
def Dev.labelIn (d : Dev) (r : Nat) (entry : Nat) : Dev :=
  if d.hostUp && d.hrRuns r 4 && decide (d.rd (Reg.hrProduce r) ≠ d.rd (Reg.hrConsume r)) then
    match d.labelCircuit with
    | some x =>
      if d.storeRoom (x.store 0) true 4 then
        let i := d.rd (Reg.hrProduce r)
        let d := (d.hostRead (d.hrAddr r i) 32).1
        let d := (List.range 4).foldl (fun e k => e.xdieSend x (mkToken (bitsOf entry (64 * k) 64) true 0 0 0 false k)) d
        ((d.wr (Reg.hrProduce r) ((i + 1) % 2 ^ 32)).count (Reg.hrDelivered r)).writeStatus r none
      else d
    | none => d
  else d

/-- LABEL_ENTRY (R382): on the LABEL ring, of which there is one at most (Table 10.8). -/
def execLabelEntry (entry : BitVec 256) (s : State) : Host.Outcome State Fault Refusal :=
  s.live fun d => match (List.range 32).find? fun r => d.hrRuns r 4 with
    | some r => (d.labelIn r entry.toNat).settleDrip
    | none => d

/-- IRQ_HOLD_EXPIRY (R383). -/
def execIrqHoldExpiry (r : Fin 32) (s : State) : Host.Outcome State Fault Refusal := s.live fun d => d.irqHoldEnd r.val

/-- RECORD_EXPIRED (R388). -/
def execRecordExpired (rec : Nat) (tie : Bool) (s : State) : Host.Outcome State Fault Refusal :=
  s.live fun d => d.expireRecord rec tie

/-- RECORD_STORE_UE (R389). -/
def execRecordStoreUe (ch : Fin 8) (rec line : Nat) (s : State) : Host.Outcome State Fault Refusal :=
  s.live fun d => d.storeUe ch.val rec line

/-- CHANNEL_FAILED (R389). -/
def execChannelFailed (ch : Fin 8) (s : State) : Host.Outcome State Fault Refusal :=
  s.live fun d => d.channelFails ch.val

/-- CHANNEL_TRAINING_COMPLETE (R384). -/
def execChannelTrainingComplete (ch : Fin 8) (r : ChannelResult) (s : State) : Host.Outcome State Fault Refusal :=
  s.live fun d => d.channelTrained ch.val r

/-- ETHERNET_LINK_CHANGE (R315, R322, R476). -/
def execEthernetLinkChange (up : Bool) (s : State) : Host.Outcome State Fault Refusal := s.live fun d => d.ethLink up

end Sys2Proof.Machine
end

