-- ==== Sys2Proof/Machine/Memories.lean ====
section
/-!
DEFINITION. Commands of the memory stacks and of the numerics of the fabric ("The Roller and the memory stacks"; "Number formats,
scaling and online adaptation").
-/

namespace Sys2Proof.Machine

open Sys2Proof

/-- Some cluster's Drip area lies on a stack, and a set of it waits: to write, if the stack may, or to read (R190, R191). -/
def Dev.dripWaits (d : Dev) (s : Nat) (write : Bool) : Bool :=
  (d.fab.drips.any fun p => (write && p.2.spilling.isSome || d.dripReads (p.1 / 32) (p.1 % 32)) &&
    decide (d.fld (Reg.drpArea (p.1 / 32)) Fld.drpAreaStack = s))

/-- A group's next section is read from a stack (R185). -/
def Dev.loaderWaits (d : Dev) (s : Nat) : Bool :=
  d.fab.groups.any fun p => match p.2.loading.bind fun i => p.2.sections_[i]? with
    | some x => decide (x.area ≠ 0x1F) && decide (x.stack = s)
    | none => false

/-- The ranks of Table 6.5 above the FREE areas' that wait for a stack and could use its next slot, highest first. -/
def Dev.openWaits (d : Dev) (s : Nat) : List Nat :=
  let r := d.stackRec s
  let w := d.writable s r.slot r.total
  (if w && !(d.ringBuf s).isEmpty then [1] else []) ++ (if (d.copyWaits s).isSome then [2] else []) ++
    (if d.loaderWaits s then [3] else []) ++ (if d.dripWaits s w then [4] else [])

/-- STACK_SLOT (R220): corrected counts the corrected bursts of the slot's read, and bad names the pseudo-channels whose burst is
uncorrectable. -/
def execStackSlot (st : StackId) (corrected : Nat) (bad : List (Fin 64)) (s : State) : Host.Outcome State Fault Refusal :=
  s.live fun d => (d.stackSlot st.val (d.openWaits st.val) corrected (bad.map fun x => x.val)).settleDrip

/-- BLOCK_STAGED (R214, R215). -/
def execBlockStaged (c : CoreId) (s : State) : Host.Outcome State Fault Refusal := s.live fun d => d.blockStaged c.val

/-- REFRESH (R225). -/
def execRefresh (st : StackId) (bank : Fin 16) (s : State) : Host.Outcome State Fault Refusal :=
  s.live fun d => d.refreshBank st.val bank.val

/-- STACK_FAILED (R230, Table 6.10, row 2): the three causes have one effect. -/
def execStackFailed (st : StackId) (_ : StackCause) (s : State) : Host.Outcome State Fault Refusal :=
  s.live fun d => d.stackFails st.val

/-- STACK_TRAINING_COMPLETE (R230, rows 3 and 6). -/
def execStackTrainingComplete (st : StackId) (height : BitVec 2) (cap24 supported : Bool) (s : State) :
    Host.Outcome State Fault Refusal :=
  s.live fun d => d.stackTrained st.val height.toNat cap24 supported

/-- STACK_TRAINING_FAIL (R230, row 4). -/
def execStackTrainingFail (st : StackId) (s : State) : Host.Outcome State Fault Refusal :=
  s.live fun d => d.stackTrainFails st.val

/-- STACK_TEST_COMPLETE (R229, row 7): ppr counts the repairs made, bad lists the 64 KiB units that could not be repaired. -/
def execStackTestComplete (st : StackId) (ppr : Word) (bad : List Nat) (s : State) : Host.Outcome State Fault Refusal :=
  s.live fun d => d.stackTested st.val ppr.toNat bad

/-- MIRROR_TAKEOVER (R233). -/
def execMirrorTakeover (st : StackId) (s : State) : Host.Outcome State Fault Refusal := s.live fun d => d.mirrorTakes st.val

/-- STACK_INTERFACE_RETRAIN (R224): slots is the number of slots lost. -/
def execStackInterfaceRetrain (st : StackId) (slots : Nat) (s : State) : Host.Outcome State Fault Refusal :=
  s.live fun d => d.retrainStack st.val slots

/-- STEP_CLOSE (R257, R258). -/
def execStepClose (cl : ClusterId) (row : Fin 4096) (tie : Bool) (s : State) : Host.Outcome State Fault Refusal :=
  s.live fun d => (d.stepClose cl.val row.val tie).settleDrip

/-- SCALE_TOKEN (R259). -/
def execScaleToken (cl : ClusterId) (row : Fin 4096) (s : State) : Host.Outcome State Fault Refusal :=
  s.live fun d => (d.sendScale cl.val row.val).settleDrip

/-- SCRIM_PARTIAL (R263, R267): outs is the number of output rows; corrected and badWords are what the column store's codes find. -/
def execScrimPartial (cl : ClusterId) (row : Fin 4096) (outs corrected : Nat) (badWords : List Nat) (s : State) :
    Host.Outcome State Fault Refusal :=
  s.live fun d => if d.fit 34 then (d.scrimDone cl.val row.val outs corrected badWords).settleDrip else d

/-- The words of weight stores that single-bit correction mended, core by core (R130). -/
def Dev.countCes (d : Dev) (cs : List (CoreId × Nat)) : Dev :=
  cs.foldl (fun f x => f.countN (Reg.coWsCe (clOf x.1.val) (posOf x.1.val)) x.2) d

/-- EPOCH_DIGEST (R272): corrected counts what correction mended in the reads of the changed blocks. -/
def execEpochDigest (g : Fin 64) (corrected : List (CoreId × Nat)) (s : State) : Host.Outcome State Fault Refusal :=
  s.live fun d => (if (d.adapt g.val).committing then d.countCes corrected else d).digestDone g.val

/-- SHADOW_COPY (R274): corrected counts what correction mended in the reads of the copied blocks. -/
def execShadowCopy (g : Fin 64) (corrected : List (CoreId × Nat)) (s : State) : Host.Outcome State Fault Refusal :=
  s.live fun d => (if (d.adapt g.val).copyDue then d.countCes corrected else d).shadowCopy g.val

end Sys2Proof.Machine
end

