-- ==== Sys2Proof/Machine/Primer.lean ====
section
/-!
DEFINITION. Commands of reset and start-up, attestation and the change log ("Primer, Undercoat, attestation and the change log").
-/

namespace Sys2Proof.Machine

open Sys2Proof

/-- POR_RELEASE (R354, R391, R510). -/
def execPorRelease (gid : BitVec 6) (testEn : Bool) (s : State) : Host.Outcome State Fault Refusal :=
  s.pin fun d => d.porRelease gid testEn

/-- DEV_RST_RELEASE (R514, R515). -/
def execDevRstRelease (s : State) : Host.Outcome State Fault Refusal := s.pin Dev.devRstRelease

/-- START_UP_STEP (R391). -/
def execStartUpStep (env : StartEnv) (s : State) : Host.Outcome State Fault Refusal := s.live fun d => d.startUpStep env

/-- SECTION_DIGEST (R404, R391, step 7). -/
def execSectionDigest (i : Nat) (s : State) : Host.Outcome State Fault Refusal := s.live fun d => d.sectionDigest i

/-- SECTION_WATCHDOG_EXPIRY (R392). -/
def execSectionWatchdogExpiry (tie : Bool) (s : State) : Host.Outcome State Fault Refusal :=
  s.live fun d => d.sectionWatchdog tie

/-- BOOT_WATCHDOG_EXPIRY (R392). -/
def execBootWatchdogExpiry (tie : Bool) (s : State) : Host.Outcome State Fault Refusal := s.live fun d => d.bootWatchdog tie

/-- ATTESTATION_REPORT (R418). -/
def execAttestationReport (s : State) : Host.Outcome State Fault Refusal := s.up Dev.attestDone

/-- CHECKPOINT (R423). -/
def execCheckpoint (s : State) : Host.Outcome State Fault Refusal := s.up Dev.checkpoint

/-- CHECKPOINT_SIGNATURE (R423). -/
def execCheckpointSignature (s : State) : Host.Outcome State Fault Refusal := s.up Dev.checkpointSigned

/-- LOG_MIRROR_WRITE (R424, R425). -/
def execLogMirrorWrite (s : State) : Host.Outcome State Fault Refusal := s.live Dev.mirrorWrite

/-- LOG_MEMORY_UE (R462, R464). -/
def execLogMemoryUe (mem : LogMemory) (first : BitVec 24) (count : Nat) (s : State) : Host.Outcome State Fault Refusal :=
  s.up fun d => match mem with
    | .onDieLog => d.logRowFails first.toNat count
    | .loaderStaging => d.stagingFails

end Sys2Proof.Machine
end

