-- ==== Sys2Proof/Machine/Registers.lean ====
section
/-!
DEFINITION. Commands that read or write a register of the device's own window: plain accesses (R8 to R12) and every live
write of its own row (R414, Table 11.14).
-/

namespace Sys2Proof.Machine

open Sys2Proof

/-- REGISTER_WRITE (R8, R9, R11, R414). -/
def execRegisterWrite (o : Origin) (a : BitVec 24) (v : Word) (s : State) : Host.Outcome State Fault Refusal :=
  s.up fun d => d.put o a.toNat v.toNat

/-- MULTI_REGISTER_READ (R12): the word read goes out, and the lowest register of a value captures all of it. -/
def execMultiRegisterRead (o : Origin) (a : BitVec 24) (s : State) : Host.Outcome State Fault Refusal :=
  s.up fun d => (d.busRead o a.toNat).2.emit (.windowData (BitVec.ofNat 32 (d.busRead o a.toNat).1))

/-- CLK_LOSS_CLEAR (R10): hw are the bits that hardware sets in the same access. The origin plays no part: the register holds no LV
field. -/
def execClkLossClear (_ : Origin) (v : Word) (hw : BitVec 18) (s : State) : Host.Outcome State Fault Refusal :=
  s.up fun d => d.clearLoss v.toNat hw.toNat

/-- LOG_FWD_WRITE (R8, R413). -/
def execLogFwdWrite (anchorWreq : Bool) (o : Origin) (v : Word) (s : State) : Host.Outcome State Fault Refusal :=
  s.up fun d => d.fwdWrite anchorWreq o v.toNat

/-- ADMIN_OFF_SET (Table 2.7, row 1). -/
def execAdminOffSet (o : Origin) (l : LaneId) (s : State) : Host.Outcome State Fault Refusal :=
  s.up fun d => d.put o (laneReg l Reg.ingLcfg) 0x100

/-- ADMIN_OFF_CLEAR (Table 2.7, row 2). -/
def execAdminOffClear (o : Origin) (l : LaneId) (s : State) : Host.Outcome State Fault Refusal :=
  s.up fun d => d.put o (laneReg l Reg.ingLcfg) 0

/-- PROFILE_WRITE (R78, R91). -/
def execProfileWrite (o : Origin) (t : ProfileTarget) (v : Word) (s : State) : Host.Outcome State Fault Refusal :=
  s.up fun d => d.put o (profileAddr t) v.toNat

/-- HAWK_PRE_WRITE (R96, R102). -/
def execHawkPreWrite (o : Origin) (r : Fin 64) (v : Word) (s : State) : Host.Outcome State Fault Refusal :=
  s.up fun d => d.put o (Reg.hwkPre r.val) v.toNat

/-- HAWK_POST_WRITE (R96, R102). -/
def execHawkPostWrite (o : Origin) (r : Fin 64) (v : Word) (s : State) : Host.Outcome State Fault Refusal :=
  s.up fun d => d.put o (Reg.hwkPost r.val) v.toNat

/-- CAPTURE_SETTING_WRITE (R114). -/
def execCaptureSettingWrite (o : Origin) (t : CaptureSetting) (v : Word) (s : State) : Host.Outcome State Fault Refusal :=
  s.up fun d => d.put o (captureAddr t) v.toNat

/-- CTXSEL_WRITE (R295). -/
def execCtxselWrite (o : Origin) (g : Fin 64) (v : Word) (s : State) : Host.Outcome State Fault Refusal :=
  s.up fun d => d.put o (Reg.scrCtxsel g.val) v.toNat

/-- SCALE_LIMITS_WRITE (R260). -/
def execScaleLimitsWrite (o : Origin) (cl : ClusterId) (k : Fin 16) (v : Word) (s : State) :
    Host.Outcome State Fault Refusal :=
  s.up fun d => d.put o (Reg.numRcLimits cl.val k.val) v.toNat

/-- SCALE_HOLD_WRITE (R260): NUM_GCFG written. -/
def execScaleHoldWrite (o : Origin) (v : Word) (s : State) : Host.Outcome State Fault Refusal :=
  s.up fun d => d.put o Reg.numGcfg v.toNat

/-- ADAPT_EN_WRITE (R275): NUM_GCFG written. -/
def execAdaptEnWrite (o : Origin) (v : Word) (s : State) : Host.Outcome State Fault Refusal :=
  s.up fun d => d.put o Reg.numGcfg v.toNat

/-- MN_CTL_WRITE (R293, R294). -/
def execMnCtlWrite (o : Origin) (k : Fin 16384) (v : Word) (s : State) : Host.Outcome State Fault Refusal :=
  s.up fun d => d.put o (Reg.mnCtl k.val) v.toNat

/-- MN_THR_WRITE (R286, R293). -/
def execMnThrWrite (o : Origin) (k : Fin 16384) (j : Fin 4) (v : Word) (s : State) : Host.Outcome State Fault Refusal :=
  s.up fun d => d.put o (Reg.mnThr k.val j.val) v.toNat

/-- MN_PRESCALE_WRITE (R289, R293). -/
def execMnPrescaleWrite (o : Origin) (k : Fin 16384) (v : Word) (s : State) : Host.Outcome State Fault Refusal :=
  s.up fun d => d.put o (Reg.mnPrescale k.val) v.toNat

/-- MN_HOLDNS_WRITE (R293). -/
def execMnHoldnsWrite (o : Origin) (k : Fin 16384) (v : Word) (s : State) : Host.Outcome State Fault Refusal :=
  s.up fun d => d.put o (Reg.mnHoldns k.val) v.toNat

/-- GRP_ABSENT_WRITE (R293). -/
def execGrpAbsentWrite (o : Origin) (v : Word) (s : State) : Host.Outcome State Fault Refusal :=
  s.up fun d => d.put o Reg.scrGcfg v.toNat

/-- JUMP_ACCEPT (R339, R340). -/
def execJumpAccept (o : Origin) (v : Word) (s : State) : Host.Outcome State Fault Refusal :=
  s.up fun d => d.put o Reg.tmsJumpAccept v.toNat

/-- PT_ASYM_WRITE (R330, R343). -/
def execPtAsymWrite (o : Origin) (p : Fin 72) (v : Word) (s : State) : Host.Outcome State Fault Refusal :=
  s.up fun d => d.put o (Reg.ptAsym p.val) v.toNat

/-- JUMP_MAX_WRITE (R334, R343). -/
def execJumpMaxWrite (o : Origin) (v : Word) (s : State) : Host.Outcome State Fault Refusal :=
  s.up fun d => d.put o Reg.tmsJumpMax v.toNat

/-- MK_MODE_ARM (R350): MK_CTL written with a MODE that arms. -/
def execMkModeArm (o : Origin) (g : Fin 16) (v : Word) (s : State) : Host.Outcome State Fault Refusal :=
  s.up fun d => d.put o (Reg.mkCtl g.val) v.toNat

/-- MK_MODE_OFF (R351): MK_CTL written with MODE = OFF. -/
def execMkModeOff (o : Origin) (g : Fin 16) (v : Word) (s : State) : Host.Outcome State Fault Refusal :=
  s.up fun d => d.put o (Reg.mkCtl g.val) v.toNat

/-- MK_PARAM_WRITE (R350). -/
def execMkParamWrite (o : Origin) (g : Fin 16) (r : MarkParam) (v : Word) (s : State) : Host.Outcome State Fault Refusal :=
  s.up fun d => d.put o (markAddr g.val r) v.toNat

/-- HR_ENABLE_WRITE (R376). -/
def execHrEnableWrite (o : Origin) (r : Fin 32) (v : Word) (s : State) : Host.Outcome State Fault Refusal :=
  s.up fun d => d.put o (Reg.hrCfg r.val) v.toNat

/-- ATTESTATION_REQUEST (R418): GO written to UND_ATT_CTL. -/
def execAttestationRequest (o : Origin) (s : State) : Host.Outcome State Fault Refusal :=
  s.up fun d => d.put o Reg.undAttCtl 1

/-- CLK_GATE_WRITE (R486). -/
def execClkGateWrite (o : Origin) (v : Word) (s : State) : Host.Outcome State Fault Refusal :=
  s.up fun d => d.put o Reg.clkGate v.toNat

/-- AUX_CTL_WRITE (R489, R490). -/
def execAuxCtlWrite (o : Origin) (n : Fin 2) (v : Word) (s : State) : Host.Outcome State Fault Refusal :=
  s.up fun d => d.put o (Reg.auxCtl n.val) v.toNat

/-- PIN_WRITE (R505). -/
def execPinWrite (o : Origin) (v : Word) (s : State) : Host.Outcome State Fault Refusal :=
  s.up fun d => d.put o Reg.pwrPin v.toNat

/-- FLASH_READ (R495): GO with OP = READ. -/
def execFlashRead (o : Origin) (len : Byte) (s : State) : Host.Outcome State Fault Refusal :=
  s.up fun d => d.put o Reg.hmbFlCtl (bridgeWord 0 len)

/-- FLASH_PROGRAM (R495): GO with OP = PROGRAM. -/
def execFlashProgram (o : Origin) (len : Byte) (s : State) : Host.Outcome State Fault Refusal :=
  s.up fun d => d.put o Reg.hmbFlCtl (bridgeWord 1 len)

/-- FLASH_ERASE_64K (R495): GO with OP = ERASE_64K. -/
def execFlashErase64k (o : Origin) (s : State) : Host.Outcome State Fault Refusal :=
  s.up fun d => d.put o Reg.hmbFlCtl (bridgeWord 2 0)

end Sys2Proof.Machine
end

