-- ==== Sys2Proof/Machine/Sampling.lean ====
section
/-!
DEFINITION. Commands of the primitive array, the capture rings and the records under assembly ("Primitive conditions, Hawk rings
and Stipple capture").
-/

namespace Sys2Proof.Machine

open Sys2Proof

/-- The oldest delivered sample taken by its primitive unit and its ring (R71, R93). -/
def Dev.takeSample (d : Dev) : Dev :=
  match d.ing.queue with
  | [] => d
  | x :: rest => ((({ d with ing := { d.ing with queue := rest } }).primSample x).ringSample x)

/-- SAMPLE_DELIVERED (R71 to R88, R93 to R105). -/
def execSampleDelivered (s : State) : Host.Outcome State Fault Refusal := s.live fun d => d.takeSample

/-- KEEP_ENTRY (R104). -/
def execKeepEntry (c : Fin 8192) (s : State) : Host.Outcome State Fault Refusal := s.live fun d => d.keepEntry c.val

/-- RING_WRITE (R221, R223): the oldest write in the stack's buffer, in a slot that the ring writes have. -/
def execRingWrite (st : StackId) (s : State) : Host.Outcome State Fault Refusal :=
  s.live fun d => if d.granted st.val 1 then (d.ringWrite st.val).useGrant st.val else d

/-- STIPPLE_CAPTURE_END (R106). -/
def execStippleCaptureEnd (r : Fin 64) (s : State) : Host.Outcome State Fault Refusal := s.live fun d => d.stippleEnd r.val

/-- CAPTURE_COPY_OUT (R100, R221, Table 6.8): of the stack's oldest capture that has something to copy out, in a slot that copy-out has. -/
def execCaptureCopyOut (r : Fin 64) (count corrected : Nat) (bad : List Nat) (s : State) : Host.Outcome State Fault Refusal :=
  s.live fun d => if d.served (d.ringStack r.val) 2 && decide (d.copyWaits (d.ringStack r.val) = some r.val) then
    (d.copyOut r.val count corrected bad).useGrant (d.ringStack r.val) else d

/-- FREE_APPENDIX_BLOCK (R113, R387). -/
def execFreeAppendixBlock (rec : Nat) (producer : BitVec 16) (data : List Byte) (last : Bool) (s : State) :
    Host.Outcome State Fault Refusal :=
  s.live fun d => d.appendBlock rec producer data last

/-- FREE_WAIT_EXPIRY (R113). -/
def execFreeWaitExpiry (rec : Nat) (tie : Bool) (s : State) : Host.Outcome State Fault Refusal :=
  s.live fun d => d.freeExpire rec tie

end Sys2Proof.Machine
end

