-- ==== Sys2Proof/Machine/Skimlink.lean ====
section
/-!
DEFINITION. Commands of the Skimlink lanes ("Skimlink lanes and sample ingest").
-/

namespace Sys2Proof.Machine

open Sys2Proof

/-- BLOCK_RECEIVED (R41, R53 to R58). -/
def execBlockReceived (l : LaneId) (hdr : BitVec 2) (line : BitVec 128) (tie : Bool) (s : State) :
    Host.Outcome State Fault Refusal :=
  s.onLane l fun d => d.takeIn l hdr line tie

/-- CODEWORD_DECODED (R39, R40). -/
def execCodewordDecoded (l : LaneId) (levels : List (Fin 4)) (s : State) : Host.Outcome State Fault Refusal :=
  s.onLane l fun d => d.codeword l levels

/-- The block at the read side of a lane, if it is one that p names, taken and handed to f. -/
def Dev.takeBlock (d : Dev) (l : LaneId) (p : Blk → Bool) (f : Dev → BitVec 128 → Dev) : Dev :=
  match (d.lane l).buf with
  | [] => d
  | b :: _ => if p b then (f d b.payload).popBlock l else d

/-- DATA_BLOCK (R45 to R50). -/
def execDataBlock (n : Fin 64) (s : State) : Host.Outcome State Fault Refusal :=
  s.live fun d => d.takeBlock (ingestLane n) (fun b => !b.gap && !b.ctl) fun e p => e.dataBlock n p

/-- TAG_BLOCK (R45, R48). -/
def execTagBlock (n : Fin 64) (s : State) : Host.Outcome State Fault Refusal :=
  s.live fun d => d.takeBlock (ingestLane n) (fun b => !b.gap && b.ctl && decide (blkType b.payload = 1)) fun e p =>
    e.openBurst n p

/-- LINK_BLOCK_RX (R44). -/
def execLinkBlockRx (l : LaneId) (s : State) : Host.Outcome State Fault Refusal :=
  s.live fun d => d.takeBlock l (fun b => !b.gap && b.ctl && decide (blkType b.payload = 2)) fun e p => e.linkRx l p

/-- LINK_BLOCK_TX (R44). -/
def execLinkBlockTx (l : LaneId) (s : State) : Host.Outcome State Fault Refusal :=
  s.live fun d => d.sendBlock l true (d.linkPayload l)

/-- FILLER_INSERT (R52). -/
def execFillerInsert (l : LaneId) (s : State) : Host.Outcome State Fault Refusal := s.live fun d => d.sendFiller l

/-- LOSS_OF_SIGNAL (R62). -/
def execLossOfSignal (l : LaneId) (tie : Bool) (s : State) : Host.Outcome State Fault Refusal :=
  s.onLane l fun d => d.loseSignal l tie

/-- SIGNAL_DETECTED (R61, row 10). -/
def execSignalDetected (l : LaneId) (tie : Bool) (s : State) : Host.Outcome State Fault Refusal :=
  s.onLane l fun d => d.seeSignal l tie

/-- HUNT_WINDOW_END (R59). -/
def execHuntWindowEnd (l : LaneId) (idle : Nat) (tie : Bool) (s : State) : Host.Outcome State Fault Refusal :=
  s.onLane l fun d => d.huntEnds l idle tie

/-- EYE_MEASUREMENT (R60, R65, R66): three eyes under PAM4, one under NRZ. -/
def execEyeMeasurement (l : LaneId) (v : List Rat) (h : Rat) (tie : Bool) (s : State) : Host.Outcome State Fault Refusal :=
  s.onLane l fun d => d.eyeMeasured l (eyeScore (v.take (if d.lanePam4 l then 3 else 1)) h) tie

/-- TRAINING_WINDOW_END (R60). -/
def execTrainingWindowEnd (l : LaneId) (tie : Bool) (s : State) : Host.Outcome State Fault Refusal :=
  s.onLane l fun d => d.trainingEnds l tie

/-- BACKOFF_END (R63). -/
def execBackoffEnd (l : LaneId) (tie : Bool) (s : State) : Host.Outcome State Fault Refusal :=
  s.onLane l fun d => d.backoffEnds l tie

end Sys2Proof.Machine
end

