-- ==== Sys2Proof/Machine/Supply.lean ====
section
/-!
DEFINITION. Commands of wear, temperature, clocks, gating, power, pins and the management bus ("Faults, spares and wear",
"Clocks, gating and power management", "Package and electrical").
-/

namespace Sys2Proof.Machine

open Sys2Proof

/-- WEAR_WINDOW (R467). -/
def execWearWindow (s : State) : Host.Outcome State Fault Refusal := s.live Dev.wearWindow

/-- TEMPERATURE_READ (R500): readings of the dies, stacks and modules, with the rails and the power (Table 14.10). -/
def execTemperatureRead (dieTemps stackTemps moduleTemps : List Byte) (rails : List (BitVec 10)) (watts : BitVec 16) (s : State) :
    Host.Outcome State Fault Refusal :=
  s.live fun d => (d.supplyRead rails watts).temperatures dieTemps stackTemps moduleTemps

/-- REFERENCE_QUALIFIED (R471 to R473). -/
def execReferenceQualified (r : RefInput) (counts : List Nat) (s : State) : Host.Outcome State Fault Refusal :=
  s.live fun d => d.refQualified r counts

/-- REFERENCE_LOST (R475, R478, R479). -/
def execReferenceLost (r : RefInput) (s : State) : Host.Outcome State Fault Refusal := s.live fun d => d.refLost r

/-- RELOCK (R478). -/
def execRelock (loop : Fin 18) (s : State) : Host.Outcome State Fault Refusal := s.live fun d => d.relock loop.val

/-- TIMEOSC_REQUALIFIED (R323, R479). -/
def execTimeoscRequalified (s : State) : Host.Outcome State Fault Refusal := s.live Dev.oscRequalified

/-- LOOP_LOCK (R476). -/
def execLoopLock (loop : Fin 18) (s : State) : Host.Outcome State Fault Refusal := s.live fun d => d.loopLock loop.val

/-- LOOP_LOCK_TIMEOUT (R476). -/
def execLoopLockTimeout (s : State) : Host.Outcome State Fault Refusal := s.live Dev.loopTimeout

/-- DIVIDER_STEP (R481). -/
def execDividerStep (g : ClockGen) (s : State) : Host.Outcome State Fault Refusal := s.live fun d => d.divStep g

/-- FORCED_SWITCH (R482). -/
def execForcedSwitch (tie lateEdge : Bool) (s : State) : Host.Outcome State Fault Refusal :=
  s.live fun d => d.forcedSwitch tie lateEdge

/-- QUIESCE_ACK (R484). -/
def execQuiesceAck (t : GateTarget) (s : State) : Host.Outcome State Fault Refusal := s.live fun d => d.quiesced t

/-- GATE_TIMEOUT (R484). -/
def execGateTimeout (t : GateTarget) (tie : Bool) (s : State) : Host.Outcome State Fault Refusal :=
  s.live fun d => d.gateTimeout t tie

/-- HPC_GATE_RETRY (R486). -/
def execHpcGateRetry (t : GateTarget) (s : State) : Host.Outcome State Fault Refusal := s.live fun d => d.gateRetry t

/-- DOMAIN_POWER_GOOD (R498). -/
def execDomainPowerGood (s : State) : Host.Outcome State Fault Refusal := s.live Dev.powerGood

/-- RAIL_UNDERVOLTAGE (R512). -/
def execRailUndervoltage (s : State) : Host.Outcome State Fault Refusal := s.pin Dev.railLow

/-- RAIL_RECOVERY (R512). -/
def execRailRecovery (gid : BitVec 6) (testEn : Bool) (s : State) : Host.Outcome State Fault Refusal :=
  s.pin fun d => d.railBack gid testEn

/-- POR_ASSERT (R513, R514). -/
def execPorAssert (pin : ResetPin) (s : State) : Host.Outcome State Fault Refusal := s.pin fun d => d.assertReset pin

/-- MGT_REQUEST (R491, R524). -/
def execMgtRequest (req : BitVec 4) (dev : BitVec 6) (op : BitVec 2) (ofs : BitVec 24) (data : Word) (check : Byte)
    (s : State) : Host.Outcome State Fault Refusal :=
  s.up fun d => d.mgtRequest req.toNat dev.toNat op.toNat ofs.toNat data.toNat check.toNat

/-- MGT_WAIT_EXPIRY (R493). -/
def execMgtWaitExpiry (s : State) : Host.Outcome State Fault Refusal :=
  s.up fun d => { d with msh := { d.msh with reads := dropWaiter d.msh.reads } }

/-- FLASH_OPERATION_DONE (R495, R496). -/
def execFlashOperationDone (flashError : Bool) (s : State) : Host.Outcome State Fault Refusal :=
  s.up fun d => d.flashDone flashError

end Sys2Proof.Machine
end

