-- ==== Sys2Proof/Machine/TimeService.lean ====
section
/-!
DEFINITION. Commands of the time service and the mark generators ("Network time and time marks").
-/

namespace Sys2Proof.Machine

open Sys2Proof

/-- SYNC (R331). -/
def execSync (m : SyncMsg) (s : State) : Host.Outcome State Fault Refusal := s.timed fun d => d.ptpSync m

/-- ANNOUNCE (R327). -/
def execAnnounce (a : AnnounceMsg) (s : State) : Host.Outcome State Fault Refusal := s.timed fun d => d.announceRx a

/-- ANNOUNCE_TIMEOUT (R327). -/
def execAnnounceTimeout (tie : Bool) (s : State) : Host.Outcome State Fault Refusal := s.timed fun d => d.announceExpire tie

/-- DELAY_REQ (R325, Table 9.1). -/
def execDelayReq (t3 : Nat) (s : State) : Host.Outcome State Fault Refusal := s.timed fun d => d.sendDelayReq t3

/-- DELAY_RESP (R331): one of another domain is ignored (Table 9.1). -/
def execDelayResp (domain : Byte) (seq : BitVec 16) (t4 : Int) (s : State) : Host.Outcome State Fault Refusal :=
  s.timed fun d =>
    if d.tms.ethUp && decide (domain.toNat = d.fld Reg.tmsCfg Fld.tmsCfgDomain) then d.exchange 1 seq.toNat t4 else d

/-- TSYNC_RX (R327, R331). -/
def execTsyncRx (p : Fin 6) (t1 t2 : Nat) (_ : Byte) (state : Byte) (s : State) : Host.Outcome State Fault Refusal :=
  s.timed fun d => d.tsync p.val t1 t2 state.toNat

/-- TSYNC_TIMEOUT (R327). -/
def execTsyncTimeout (p : Fin 6) (tie : Bool) (s : State) : Host.Outcome State Fault Refusal :=
  s.timed fun d => d.tsyncExpire p.val tie

/-- TSYNC_TX (R344). -/
def execTsyncTx (p : Fin 72) (s : State) : Host.Outcome State Fault Refusal := s.timed fun d => d.sendTsync p.val

/-- TINFO_TX (R344). -/
def execTinfoTx (p : Fin 72) (s : State) : Host.Outcome State Fault Refusal := s.timed fun d => d.sendTinfo p.val

/-- TINFO_RX (R322). -/
def execTinfoRx (p : Fin 6) (b : BitVec 120) (s : State) : Host.Outcome State Fault Refusal :=
  s.timed fun d => d.tinfo p.val b.toNat

/-- TDREQ_RX (R345): t is the time at which its timestamp point reached the lands. -/
def execTdreqRx (p : Fin 72) (seq : Byte) (t : Nat) (s : State) : Host.Outcome State Fault Refusal :=
  s.timed fun d => d.answerTdreq p.val seq.toNat t

/-- TDREQ_TX (R345). -/
def execTdreqTx (p : Fin 6) (t3 : Nat) (s : State) : Host.Outcome State Fault Refusal := s.timed fun d => d.sendTdreq p.val t3

/-- TDRESP_RX (R331). -/
def execTdrespRx (p : Fin 6) (seq : Byte) (t4 : Nat) (s : State) : Host.Outcome State Fault Refusal :=
  s.timed fun d => if d.portUp p.val then d.exchange (p.val + 2) seq.toNat (Int.ofNat t4) else d

/-- An accepted jump applied at its time, and the instants of ring rows begun afresh (R340, R95). -/
def Dev.jumpNow (d : Dev) : Dev :=
  let e := d.applyJump
  if d.tms.jump.isSome && e.tms.jump.isNone then e.rephase else e

/-- JUMP_STEP (R340, R343). -/
def execJumpStep (s : State) : Host.Outcome State Fault Refusal := s.timed fun d => d.jumpNow

/-- MARK (R347, R348). -/
def execMark (g : Fin 16) (s : State) : Host.Outcome State Fault Refusal := s.timed fun d => d.markDue g.val

/-- MARK_BLOCK (R349). -/
def execMarkBlock (g : Fin 16) (s : State) : Host.Outcome State Fault Refusal := s.timed fun d => d.markBlocks g.val

/-- TMARK_WIDTH_END (R348). -/
def execTmarkWidthEnd (g : Fin 16) (s : State) : Host.Outcome State Fault Refusal := s.timed fun d => d.markIdle g.val

end Sys2Proof.Machine
end

