-- ==== Sys2Proof/Machine/Dispatch.lean ====
section
/-!
DEFINITION. The dispatch: one arm per command, each one call of the command's meaning.
-/

namespace Sys2Proof.Machine

open Sys2Proof

/-- The effect of a command on everything but the queue. -/
def exec (i : Instr) (s : State) : Host.Outcome State Fault Refusal :=
  match i with
  | .registerWrite o a v => Sys2Proof.Machine.execRegisterWrite o a v s
  | .multiRegisterRead o a => Sys2Proof.Machine.execMultiRegisterRead o a s
  | .clkLossClear o v hw => Sys2Proof.Machine.execClkLossClear o v hw s
  | .logFwdWrite anchorWreq o v => Sys2Proof.Machine.execLogFwdWrite anchorWreq o v s
  | .eventWindowOpen n => Sys2Proof.Machine.execEventWindowOpen n s
  | .admission n tie => Sys2Proof.Machine.execAdmission n tie s
  | .release n tie corrected => Sys2Proof.Machine.execRelease n tie corrected s
  | .decWidthExpiry k tie => Sys2Proof.Machine.execDecWidthExpiry k tie s
  | .screedArm => Sys2Proof.Machine.execScreedArm s
  | .armWaitExpiry => Sys2Proof.Machine.execArmWaitExpiry s
  | .blockReceived l hdr line tie => Sys2Proof.Machine.execBlockReceived l hdr line tie s
  | .codewordDecoded l levels => Sys2Proof.Machine.execCodewordDecoded l levels s
  | .dataBlock l => Sys2Proof.Machine.execDataBlock l s
  | .tagBlock l => Sys2Proof.Machine.execTagBlock l s
  | .linkBlockRx l => Sys2Proof.Machine.execLinkBlockRx l s
  | .linkBlockTx l => Sys2Proof.Machine.execLinkBlockTx l s
  | .fillerInsert l => Sys2Proof.Machine.execFillerInsert l s
  | .adminOffSet o l => Sys2Proof.Machine.execAdminOffSet o l s
  | .adminOffClear o l => Sys2Proof.Machine.execAdminOffClear o l s
  | .lossOfSignal l tie => Sys2Proof.Machine.execLossOfSignal l tie s
  | .signalDetected l tie => Sys2Proof.Machine.execSignalDetected l tie s
  | .huntWindowEnd l idle tie => Sys2Proof.Machine.execHuntWindowEnd l idle tie s
  | .eyeMeasurement l v h tie => Sys2Proof.Machine.execEyeMeasurement l v h tie s
  | .trainingWindowEnd l tie => Sys2Proof.Machine.execTrainingWindowEnd l tie s
  | .backoffEnd l tie => Sys2Proof.Machine.execBackoffEnd l tie s
  | .sampleDelivered => Sys2Proof.Machine.execSampleDelivered s
  | .keepEntry c => Sys2Proof.Machine.execKeepEntry c s
  | .ringWrite st => Sys2Proof.Machine.execRingWrite st s
  | .stippleCaptureEnd r => Sys2Proof.Machine.execStippleCaptureEnd r s
  | .captureCopyOut r count corrected bad => Sys2Proof.Machine.execCaptureCopyOut r count corrected bad s
  | .freeAppendixBlock rec producer data last => Sys2Proof.Machine.execFreeAppendixBlock rec producer data last s
  | .freeWaitExpiry rec tie => Sys2Proof.Machine.execFreeWaitExpiry rec tie s
  | .profileWrite o t v => Sys2Proof.Machine.execProfileWrite o t v s
  | .hawkPreWrite o r v => Sys2Proof.Machine.execHawkPreWrite o r v s
  | .hawkPostWrite o r v => Sys2Proof.Machine.execHawkPostWrite o r v s
  | .captureSettingWrite o t v => Sys2Proof.Machine.execCaptureSettingWrite o t v s
  | .engineIssue c e bankWait rivals wsCorrected cmemCorrected => Sys2Proof.Machine.execEngineIssue c e bankWait rivals wsCorrected cmemCorrected s
  | .countToken c k v degraded => Sys2Proof.Machine.execCountToken c k v degraded s
  | .tokenArrival c e q tok => Sys2Proof.Machine.execTokenArrival c e q tok s
  | .wheelCrossing link => Sys2Proof.Machine.execWheelCrossing link s
  | .paceWindow cl count => Sys2Proof.Machine.execPaceWindow cl count s
  | .stallTick bankHeld => Sys2Proof.Machine.execStallTick bankHeld s
  | .coreFence c cause => Sys2Proof.Machine.execCoreFence c cause s
  | .selfTestComplete c r => Sys2Proof.Machine.execSelfTestComplete c r s
  | .coreLoadComplete c tie corrected => Sys2Proof.Machine.execCoreLoadComplete c tie corrected s
  | .loadErrorRetire c cause => Sys2Proof.Machine.execLoadErrorRetire c cause s
  | .dieLinkFlit d k toX outcome => Sys2Proof.Machine.execDieLinkFlit d k toX outcome s
  | .dieLinkLossOfLock d k => Sys2Proof.Machine.execDieLinkLossOfLock d k s
  | .dieLinkRetrain d k ok => Sys2Proof.Machine.execDieLinkRetrain d k ok s
  | .switchRequest g ctx => Sys2Proof.Machine.execSwitchRequest g ctx s
  | .ctxselWrite o g v => Sys2Proof.Machine.execCtxselWrite o g v s
  | .switchAccept g => Sys2Proof.Machine.execSwitchAccept g s
  | .markerSend circ => Sys2Proof.Machine.execMarkerSend circ s
  | .receiveSwitchMarker c e tie => Sys2Proof.Machine.execReceiveSwitchMarker c e tie s
  | .counterUnitSwitch c tie => Sys2Proof.Machine.execCounterUnitSwitch c tie s
  | .sectionLoad g bad corrected => Sys2Proof.Machine.execSectionLoad g bad corrected s
  | .dripTimerExpiry cl set tie => Sys2Proof.Machine.execDripTimerExpiry cl set tie s
  | .dripSpillComplete cl set => Sys2Proof.Machine.execDripSpillComplete cl set s
  | .dripRefill cl set corrected => Sys2Proof.Machine.execDripRefill cl set corrected s
  | .drpFail cl segment => Sys2Proof.Machine.execDrpFail cl segment s
  | .creditToken cl k n => Sys2Proof.Machine.execCreditToken cl k n s
  | .stackSlot st corrected bad => Sys2Proof.Machine.execStackSlot st corrected bad s
  | .blockStaged c => Sys2Proof.Machine.execBlockStaged c s
  | .refresh st bank => Sys2Proof.Machine.execRefresh st bank s
  | .stackFailed st cause => Sys2Proof.Machine.execStackFailed st cause s
  | .stackTrainingComplete st height cap24 supported => Sys2Proof.Machine.execStackTrainingComplete st height cap24 supported s
  | .stackTrainingFail st => Sys2Proof.Machine.execStackTrainingFail st s
  | .stackTestComplete st ppr bad => Sys2Proof.Machine.execStackTestComplete st ppr bad s
  | .mirrorTakeover st => Sys2Proof.Machine.execMirrorTakeover st s
  | .skewNotice slot core => Sys2Proof.Machine.execSkewNotice slot core s
  | .stepClose cl row tie => Sys2Proof.Machine.execStepClose cl row tie s
  | .scaleToken cl row => Sys2Proof.Machine.execScaleToken cl row s
  | .scrimPartial cl row outs corrected badWords => Sys2Proof.Machine.execScrimPartial cl row outs corrected badWords s
  | .epochDigest g corrected => Sys2Proof.Machine.execEpochDigest g corrected s
  | .shadowCopy g corrected => Sys2Proof.Machine.execShadowCopy g corrected s
  | .scaleLimitsWrite o cl k v => Sys2Proof.Machine.execScaleLimitsWrite o cl k v s
  | .scaleHoldWrite o v => Sys2Proof.Machine.execScaleHoldWrite o v s
  | .adaptEnWrite o v => Sys2Proof.Machine.execAdaptEnWrite o v s
  | .networkInput k slot v degraded => Sys2Proof.Machine.execNetworkInput k slot v degraded s
  | .notice kind slot core => Sys2Proof.Machine.execNotice kind slot core s
  | .localDeadline n tie => Sys2Proof.Machine.execLocalDeadline n tie s
  | .collectionClose n tie => Sys2Proof.Machine.execCollectionClose n tie s
  | .groupResult n => Sys2Proof.Machine.execGroupResult n s
  | .headroomWindow => Sys2Proof.Machine.execHeadroomWindow s
  | .setpointRaise n => Sys2Proof.Machine.execSetpointRaise n s
  | .setpointSettled => Sys2Proof.Machine.execSetpointSettled s
  | .mnCtlWrite o m v => Sys2Proof.Machine.execMnCtlWrite o m v s
  | .mnThrWrite o m k v => Sys2Proof.Machine.execMnThrWrite o m k v s
  | .mnPrescaleWrite o m v => Sys2Proof.Machine.execMnPrescaleWrite o m v s
  | .mnHoldnsWrite o m v => Sys2Proof.Machine.execMnHoldnsWrite o m v s
  | .grpAbsentWrite o v => Sys2Proof.Machine.execGrpAbsentWrite o v s
  | .rateFrame m => Sys2Proof.Machine.execRateFrame m s
  | .safeEntry mem rows => Sys2Proof.Machine.execSafeEntry mem rows s
  | .sync m => Sys2Proof.Machine.execSync m s
  | .announce a => Sys2Proof.Machine.execAnnounce a s
  | .announceTimeout tie => Sys2Proof.Machine.execAnnounceTimeout tie s
  | .delayReq t3 => Sys2Proof.Machine.execDelayReq t3 s
  | .delayResp domain seq t4 => Sys2Proof.Machine.execDelayResp domain seq t4 s
  | .tsyncRx p t1 t2 seq state => Sys2Proof.Machine.execTsyncRx p t1 t2 seq state s
  | .tsyncTimeout p tie => Sys2Proof.Machine.execTsyncTimeout p tie s
  | .tsyncTx p => Sys2Proof.Machine.execTsyncTx p s
  | .tinfoTx p => Sys2Proof.Machine.execTinfoTx p s
  | .tinfoRx p b => Sys2Proof.Machine.execTinfoRx p b s
  | .tdreqRx p seq t => Sys2Proof.Machine.execTdreqRx p seq t s
  | .tdreqTx p t3 => Sys2Proof.Machine.execTdreqTx p t3 s
  | .tdrespRx p seq t4 => Sys2Proof.Machine.execTdrespRx p seq t4 s
  | .jumpAccept o v => Sys2Proof.Machine.execJumpAccept o v s
  | .jumpStep => Sys2Proof.Machine.execJumpStep s
  | .ptAsymWrite o p v => Sys2Proof.Machine.execPtAsymWrite o p v s
  | .jumpMaxWrite o v => Sys2Proof.Machine.execJumpMaxWrite o v s
  | .mkModeArm o g v => Sys2Proof.Machine.execMkModeArm o g v s
  | .mkModeOff o g v => Sys2Proof.Machine.execMkModeOff o g v s
  | .mkParamWrite o g r v => Sys2Proof.Machine.execMkParamWrite o g r v s
  | .mark g => Sys2Proof.Machine.execMark g s
  | .markBlock g => Sys2Proof.Machine.execMarkBlock g s
  | .tmarkWidthEnd g => Sys2Proof.Machine.execTmarkWidthEnd g s
  | .helloTx p => Sys2Proof.Machine.execHelloTx p s
  | .hello p b tie => Sys2Proof.Machine.execHello p b tie s
  | .keepaliveExpiry p tie => Sys2Proof.Machine.execKeepaliveExpiry p tie s
  | .contrib p b => Sys2Proof.Machine.execContrib p b s
  | .wreq p b data => Sys2Proof.Machine.execWreq p b data s
  | .wcpl p b data => Sys2Proof.Machine.execWcpl p b data s
  | .dmaw p b data => Sys2Proof.Machine.execDmaw p b data s
  | .dmar p b host => Sys2Proof.Machine.execDmar p b host s
  | .dmac p b data => Sys2Proof.Machine.execDmac p b data s
  | .irq p b => Sys2Proof.Machine.execIrq p b s
  | .hstate p b => Sys2Proof.Machine.execHstate p b s
  | .hstateTx => Sys2Proof.Machine.execHstateTx s
  | .ack p b => Sys2Proof.Machine.execAck p b s
  | .ackTx peer => Sys2Proof.Machine.execAckTx peer s
  | .hostResend peer => Sys2Proof.Machine.execHostResend peer s
  | .barAccess a write v => Sys2Proof.Machine.execBarAccess a write v s
  | .windowReadTimeout rtag tie => Sys2Proof.Machine.execWindowReadTimeout rtag tie s
  | .linkDown => Sys2Proof.Machine.execLinkDown s
  | .perstN e => Sys2Proof.Machine.execPerstN e s
  | .d3hot enter => Sys2Proof.Machine.execD3hot enter s
  | .poll => Sys2Proof.Machine.execPoll s
  | .pollData late idx => Sys2Proof.Machine.execPollData late idx s
  | .pollExpiry tie => Sys2Proof.Machine.execPollExpiry tie s
  | .descriptorFill r bufAddr bufLen corrected => Sys2Proof.Machine.execDescriptorFill r bufAddr bufLen corrected s
  | .flushExpiry r => Sys2Proof.Machine.execFlushExpiry r s
  | .labelEntry entry => Sys2Proof.Machine.execLabelEntry entry s
  | .irqHoldExpiry r => Sys2Proof.Machine.execIrqHoldExpiry r s
  | .hrEnableWrite o r v => Sys2Proof.Machine.execHrEnableWrite o r v s
  | .recordExpired rec tie => Sys2Proof.Machine.execRecordExpired rec tie s
  | .recordStoreUe ch rec line => Sys2Proof.Machine.execRecordStoreUe ch rec line s
  | .channelFailed ch => Sys2Proof.Machine.execChannelFailed ch s
  | .porRelease gid testEn => Sys2Proof.Machine.execPorRelease gid testEn s
  | .startUpStep env => Sys2Proof.Machine.execStartUpStep env s
  | .sectionDigest k => Sys2Proof.Machine.execSectionDigest k s
  | .sectionWatchdogExpiry tie => Sys2Proof.Machine.execSectionWatchdogExpiry tie s
  | .bootWatchdogExpiry tie => Sys2Proof.Machine.execBootWatchdogExpiry tie s
  | .attestationRequest o => Sys2Proof.Machine.execAttestationRequest o s
  | .attestationReport => Sys2Proof.Machine.execAttestationReport s
  | .checkpoint => Sys2Proof.Machine.execCheckpoint s
  | .checkpointSignature => Sys2Proof.Machine.execCheckpointSignature s
  | .logMirrorWrite => Sys2Proof.Machine.execLogMirrorWrite s
  | .logMemoryUe mem first count => Sys2Proof.Machine.execLogMemoryUe mem first count s
  | .wearWindow => Sys2Proof.Machine.execWearWindow s
  | .temperatureRead dieTemps stackTemps moduleTemps rails watts => Sys2Proof.Machine.execTemperatureRead dieTemps stackTemps moduleTemps rails watts s
  | .referenceQualified r counts => Sys2Proof.Machine.execReferenceQualified r counts s
  | .referenceLost r => Sys2Proof.Machine.execReferenceLost r s
  | .relock loop => Sys2Proof.Machine.execRelock loop s
  | .timeoscRequalified => Sys2Proof.Machine.execTimeoscRequalified s
  | .loopLock loop => Sys2Proof.Machine.execLoopLock loop s
  | .loopLockTimeout => Sys2Proof.Machine.execLoopLockTimeout s
  | .dividerStep g => Sys2Proof.Machine.execDividerStep g s
  | .forcedSwitch tie lateEdge => Sys2Proof.Machine.execForcedSwitch tie lateEdge s
  | .clkGateWrite o v => Sys2Proof.Machine.execClkGateWrite o v s
  | .quiesceAck t => Sys2Proof.Machine.execQuiesceAck t s
  | .gateTimeout t tie => Sys2Proof.Machine.execGateTimeout t tie s
  | .hpcGateRetry t => Sys2Proof.Machine.execHpcGateRetry t s
  | .auxCtlWrite o n v => Sys2Proof.Machine.execAuxCtlWrite o n v s
  | .pinWrite o v => Sys2Proof.Machine.execPinWrite o v s
  | .domainPowerGood => Sys2Proof.Machine.execDomainPowerGood s
  | .railUndervoltage => Sys2Proof.Machine.execRailUndervoltage s
  | .railRecovery gid testEn => Sys2Proof.Machine.execRailRecovery gid testEn s
  | .porAssert pin => Sys2Proof.Machine.execPorAssert pin s
  | .devRstRelease => Sys2Proof.Machine.execDevRstRelease s
  | .mgtRequest req dev op ofs data check => Sys2Proof.Machine.execMgtRequest req dev op ofs data check s
  | .mgtWaitExpiry => Sys2Proof.Machine.execMgtWaitExpiry s
  | .flashRead o len => Sys2Proof.Machine.execFlashRead o len s
  | .flashProgram o len => Sys2Proof.Machine.execFlashProgram o len s
  | .flashErase64k o => Sys2Proof.Machine.execFlashErase64k o s
  | .flashOperationDone flashError => Sys2Proof.Machine.execFlashOperationDone flashError s
  | .channelTrainingComplete ch r => Sys2Proof.Machine.execChannelTrainingComplete ch r s
  | .ethernetLinkChange up => Sys2Proof.Machine.execEthernetLinkChange up s
  | .stackInterfaceRetrain st slots => Sys2Proof.Machine.execStackInterfaceRetrain st slots s

end Sys2Proof.Machine
end

