-- ==== Sys2Proof/Machine/Step.lean ====
section
/-!
DEFINITION. One step of the block: the command at the front of the queue, or on an empty queue one nanosecond of time
(log entry 2).
-/

namespace Sys2Proof.Machine

open Sys2Proof

/-- A nanosecond in which nothing is commanded: time passes, the ACKs then due are sent, mesh lanes give their slots to waiting blocks, and the
anchor's link serves its next message (R32, R320, R358, R362, R372). -/
def Dev.idle (d : Dev) : Dev := if d.tick.alive then d.tick.acksDue.laneSlots.serveJob else d.tick

/-- The front command runs on the state with the rest of the queue; on an empty queue time passes. -/
def step (s : State) : Host.Outcome State Fault Refusal :=
  match s.pending with
  | [] => s.next s.dev.idle
  | i :: rest => exec i { s with pending := rest }

/-- The state with a command put at the front of its queue. -/
def State.push (s : State) (i : Instr) : State := { s with pending := i :: s.pending }

/-- The state with the command that a word spells in front of its queue; unchanged where it spells none. -/
def State.withFetchWord (s : State) (nbits w : Nat) : State :=
  match Sys2Proof.decodeTableWord nbits w with
  | some i => s.push i
  | none => s

end Sys2Proof.Machine
end

