-- ==== Sys2Proof/Safety.lean ====
section
/-!
DEFINITION. What holds of a sound device: the register window in its canonical form with 32-bit words, the event-slot table with
every event in its own slot, and the change log within its size. With it the terms claims are stated in.
-/

namespace Sys2Proof.Machine

open Sys2Proof

/-- The register window: canonical against the reset words, and every word of 32 bits. -/
def RegsOk (r : SMap Nat) : Prop := SMap.wf resetWord r = true ∧ ∀ e ∈ r, e.2 < 2 ^ 32

/-- The event-slot table: one slot for each number from 0 to 255, and event n in slot n mod 256 (R20). -/
def SlotsOk (t : SMap (Option Ev)) : Prop := ∀ x ∈ t, ∀ e, x.2 = some e → e.n % 256 = x.1

/-- The on-die log: at most 65,536 entries (R424), and no more of them unmirrored than it holds. -/
def LogOk (l : LogSt) : Prop := l.cap ≤ 65536 ∧ l.entries.length ≤ 65536 ∧ l.held ≤ l.entries.length

/-- A sound device. -/
def Dev.Ok (d : Dev) : Prop := RegsOk d.regs ∧ SlotsOk d.scr.slots ∧ LogOk d.log

/-- A sound state. -/
def State.Inv (s : State) : Prop := s.dev.Ok

/-! The terms of the claims: frames, and the answer of a command -/

/-- The parts of a device: its fields. -/
inductive Part where
  | regs | caps | log | part | step | gid | testEn | devNs | inReset | freeCtr | outbox | ing | prm | scr | tms | acq | store | stk | msh | hst | wear | fab | num | boot | clk | pwr
  deriving DecidableEq, Repr

/-- A part of e is that of d. -/
def Part.same (d e : Dev) : Part → Prop
  | .regs => e.regs = d.regs
  | .caps => e.caps = d.caps
  | .log => e.log = d.log
  | .part => e.part = d.part
  | .step => e.step = d.step
  | .gid => e.gid = d.gid
  | .testEn => e.testEn = d.testEn
  | .devNs => e.devNs = d.devNs
  | .inReset => e.inReset = d.inReset
  | .freeCtr => e.freeCtr = d.freeCtr
  | .outbox => e.outbox = d.outbox
  | .ing => e.ing = d.ing
  | .prm => e.prm = d.prm
  | .scr => e.scr = d.scr
  | .tms => e.tms = d.tms
  | .acq => e.acq = d.acq
  | .store => e.store = d.store
  | .stk => e.stk = d.stk
  | .msh => e.msh = d.msh
  | .hst => e.hst = d.hst
  | .wear => e.wear = d.wear
  | .fab => e.fab = d.fab
  | .num => e.num = d.num
  | .boot => e.boot = d.boot
  | .clk => e.clk = d.clk
  | .pwr => e.pwr = d.pwr

/-- The frame: every part of d but those listed is the same in e. -/
def Dev.keepsBut (ps : List Part) (d e : Dev) : Prop := ∀ p, ps.contains p = false → p.same d e

/-- The register frame: every register of d but those at the listed offsets reads the same in e. -/
def Dev.regsBut (as : List Nat) (d e : Dev) : Prop := ∀ a, a ∉ as → e.rd a = d.rd a

end Sys2Proof.Machine
end

