-- ==== Sys2Proof/Claims.lean ====
section
/-!
DEFINITION. The terms the claims are stated in: the answer of a command, the registers that a group of commands may touch, and the
checks that a live write meets.
-/

namespace Sys2Proof.Machine

open Sys2Proof

/-- Command i, run on s, answers a next state: the queue of s, and a device of which P holds. -/
def Gives (i : Instr) (s : State) (P : Dev → Prop) : Prop := ∃ d, exec i s = .next { s with dev := d } ∧ P d

/-- The registers that a change of a lane's state may touch: its own state and score, its counters, its mesh port's, and LOG_LOST. -/
def laneStateRegs (l : LaneId) : List Nat :=
  [laneReg l Reg.ingLstate, laneReg l Reg.ingLfom, laneReg l Reg.ingBurstBroken, laneReg l Reg.ingOrphan,
   laneReg l Reg.ingTries, laneReg l Reg.ingLosEvents, Reg.mpCfg ((l.val - 64) / 4), Reg.mpDowns ((l.val - 64) / 4), Reg.logLost, Reg.logMirrorLost]

/-- Log l' is log l with one entry more, of these words; before the log opens at step 4 of start-up there is none. -/
def LogSt.gains (l l' : LogSt) (o : Origin) (object old new : Nat) (st : Status) : Prop :=
  if l.opened then ∃ x, l'.entries = (x :: l.entries).take l.cap ∧ l'.written = l.written + 1 ∧ x.origin = o ∧
    x.object = object ∧ x.old = old ∧ x.new = new ∧ x.status = st.code
  else l'.entries = l.entries ∧ l'.written = l.written

/-! Live writes -/

/-- The register that a command writes by a live write, as origin, offset and value: a plain register write, and every live write with a
row of its own but those of CLK_GATE and HR_CFG. -/
def liveTarget : Instr → Option (Origin × Nat × Nat)
  | .registerWrite o a v => some (o, a.toNat / 4 * 4, v.toNat)
  | .adminOffSet o l => some (o, laneReg l Reg.ingLcfg, 0x100)
  | .adminOffClear o l => some (o, laneReg l Reg.ingLcfg, 0)
  | .profileWrite o t v => some (o, profileAddr t, v.toNat)
  | .hawkPreWrite o r v => some (o, Reg.hwkPre r.val, v.toNat)
  | .hawkPostWrite o r v => some (o, Reg.hwkPost r.val, v.toNat)
  | .captureSettingWrite o t v => some (o, captureAddr t, v.toNat)
  | .ctxselWrite o g v => some (o, Reg.scrCtxsel g.val, v.toNat)
  | .scaleLimitsWrite o cl k v => some (o, Reg.numRcLimits cl.val k.val, v.toNat)
  | .scaleHoldWrite o v => some (o, Reg.numGcfg, v.toNat)
  | .adaptEnWrite o v => some (o, Reg.numGcfg, v.toNat)
  | .mnCtlWrite o k v => some (o, Reg.mnCtl k.val, v.toNat)
  | .mnThrWrite o k j v => some (o, Reg.mnThr k.val j.val, v.toNat)
  | .mnPrescaleWrite o k v => some (o, Reg.mnPrescale k.val, v.toNat)
  | .mnHoldnsWrite o k v => some (o, Reg.mnHoldns k.val, v.toNat)
  | .grpAbsentWrite o v => some (o, Reg.scrGcfg, v.toNat)
  | .jumpAccept o v => some (o, Reg.tmsJumpAccept, v.toNat)
  | .ptAsymWrite o p v => some (o, Reg.ptAsym p.val, v.toNat)
  | .jumpMaxWrite o v => some (o, Reg.tmsJumpMax, v.toNat)
  | .mkModeArm o g v => some (o, Reg.mkCtl g.val, v.toNat)
  | .mkModeOff o g v => some (o, Reg.mkCtl g.val, v.toNat)
  | .mkParamWrite o g r v => some (o, markAddr g.val r, v.toNat)
  | .auxCtlWrite o n v => some (o, Reg.auxCtl n.val, v.toNat)
  | .pinWrite o v => some (o, Reg.pwrPin, v.toNat)
  | _ => none

/-- A live write reaches the checks of Table 11.13 from the second on: the device is out of reset and answers the offset, the register is
one with LV fields, and its units are fitted. HR_CFG and CLK_GATE have rules of their own. -/
def Dev.meetsChecks (d : Dev) (r : RegRow) (a v : Nat) : Prop :=
  d.inReset = false ∧ (d.mode = 3 → a < 0x40000) ∧ regRow a = some r ∧ r.lv ≠ 0 ∧ reservedReg a = false ∧
  r.base ≠ Reg.hrCfg 0 ∧ a ≠ Reg.clkGate ∧ d.unitFitted a = true ∧ a % 4 = 0 ∧ v < 2 ^ 32

/-- The word a live write would leave: its LV bits over the value in hand. -/
def Dev.liveWord (d : Dev) (r : RegRow) (a v : Nat) : Nat := withLv r.lv (d.inHand a) v

/-! Start-up -/

/-- What d becomes when slot j, A or B, is rejected for this reason: step 5 begins again on the other slot, or on F when that one is rejected
too or when the image merely does not fit the fitted units (R393, Table 11.2). -/
def Dev.rejectsTo (d : Dev) (j code : Nat) (e : Dev) : Prop :=
  e.fld Reg.bootReason (reasonFld j) = code % 256 ∧ e.stepNo = 5 ∧ e.boot.rejected = j :: d.boot.rejected ∧
    e.boot.slot = some (if code = 0x0D ∨ d.boot.rejected.contains (1 - j) then 2 else 1 - j)

/-! Capture rings -/

/-- A ring takes its next row or entry: it does not pause before a protected one, and its stack's buffer of 65,536 bytes has room (R100,
R107, R223). -/
def Dev.ringTakes (d : Dev) (r : Nat) : Prop :=
  (d.ring r).paused = false ∧
  (∀ y ∈ (d.ring r).items, y.w + d.ringCap r = (d.ring r).written → ∀ c ∈ (d.ring r).caps, c.protects (d.stippled r) y = false) ∧
  ((d.ringBuf (d.ringStack r)).map fun e => d.itemBytes e.1).sum + d.itemBytes r ≤ 65536

/-- A record may complete: its capture has ended and is copied, and no free-class result is waited for (R113). -/
def RecordRec.ready (x : RecordRec) : Bool := x.doneAt.isNone && x.endedAt.isSome && x.copied && (x.freeWait.isNone || x.freeDone)

/-- A channel is a member of a ring that is enabled and has begun writing. -/
def Dev.onRing (d : Dev) (c r : Nat) : Prop :=
  d.flag (Reg.hwkChring c) Fld.hwkChringMember = true ∧ d.fld (Reg.hwkChring c) Fld.hwkChringRing = r ∧ d.ringOn r = true ∧
    (d.ring r).began = true

/-! Blocks and messages of the mesh -/

/-- A lane's transmitter is enabled, neither a filler nor a LINK block must stand before the next block, and a mesh lane has a slot free (R44, R52,
R56, R358). -/
def Dev.sends (d : Dev) (l : LaneId) : Prop :=
  (d.lane l).txOn = true ∧ (d.lane l).txRun < 1023 ∧ (d.lane l).sinceLink < 65534 ∧ (isIngest l || d.laneFree l) = true

/-- The line bits that a block's bits bring: under FEC, a new codeword's marker before them and a full one's parity behind them (R39). -/
def Dev.lineBits (d : Dev) (l : LaneId) (bs : List Bool) : List Bool :=
  let w := (d.lane l).txWord
  let out := (if d.laneFec l ≠ 0 ∧ w = [] then fecMarker (d.laneFec l) (d.lane l).txMark else []) ++ bs
  if d.laneFec l = 0 ∨ (w ++ out).length < fecMsg (d.laneFec l) then out else out ++ fecParity (d.laneFec l) (w ++ out)

/-- The outputs of a block on a lane, newest first: the block, and its levels on the line (R41, R42). -/
def Dev.blockOut (d : Dev) (l : LaneId) (ctl : Bool) (p : BitVec 128) : List Output :=
  let x := (scramble (d.lane l).txHist p).1
  [.block l.val ctl p x, .line l.val (d.txLevels l (d.lineBits l (ctl :: (!ctl) :: natBits 128 x.toNat)))]

/-- The outputs of a control block on a lane. -/
def Dev.laneOut (d : Dev) (l : LaneId) (ty b : Nat) : List Output := d.blockOut l true (ctlPayload ty b)

/-- A message on the host channel received on port p is the next one of its sender, and for this device (R362). -/
def Dev.accepts (d : Dev) (p : Fin 6) (b : BitVec 120) : Prop :=
  d.portUp p.val = true ∧ bitsOf b.toNat 108 6 = d.devId ∧
    bitsOf b.toNat 83 16 = (d.chan (bitsOf b.toNat 114 6)).expect % 2 ^ 16

/-- The device once a message of the host channel is accepted: the next of its sender is expected, and an ACK is owed (R362). -/
def Dev.accepted (d : Dev) (b : BitVec 120) : Dev :=
  let c := d.chan (bitsOf b.toNat 114 6)
  d.setChan (bitsOf b.toNat 114 6) { c with
    expect := c.expect + 1, owed := (match c.owed with
      | some t => some t
      | none => some d.devNs) }

/-- A message put on the host channel to t: it is the last of those sent or waiting, under the next SEQ (R362). -/
def Dev.queued (d : Dev) (t ty body : Nat) (data : List (BitVec 128)) (delivers : Option Nat) (e : Dev) : Prop :=
  (e.chan t).unacked ++ (e.chan t).queue =
      (d.chan t).unacked ++ (d.chan t).queue ++ [⟨ty, t, (d.chan t).nextSeq % 2 ^ 16, body, data, delivers⟩] ∧
    (e.chan t).nextSeq = (d.chan t).nextSeq + 1

/-- What d has sent, e has sent too. -/
def Dev.outGrows (d e : Dev) : Prop := d.outbox <:+ e.outbox

/-! The fabric -/

/-- A register that Drip counts or shows itself in (Table 5.11). -/
def dripReg (a : Nat) : Prop := 0x20040C ≤ a ∧ 0x40C ≤ a % 0x20000 ∧ a % 0x20000 < 0x600

/-- Nothing but Drip's own state and registers differs. -/
def Dev.dripFrame (d e : Dev) : Prop :=
  (∃ x y, e.fab = { d.fab with drips := x, spills := y }) ∧ ∀ a, ¬ dripReg a → e.rd a = d.rd a

/-- A register that settling may change: Drip's own, the available credits of loops, the switch groups' (a counter's END asks for a section),
and the log's counters. -/
def settleReg (a : Nat) : Prop :=
  dripReg a ∨ (∃ cl k, a = Reg.crlStat cl k ∨ a = Reg.crlBoundTotal cl) ∨ (∃ g < 64, a = Reg.scrCtxsel g) ∨
    a = Reg.logLost ∨ a = Reg.logMirrorLost

/-- Command i, run on s, answers a next state whose device is what is left, once its tokens have settled, of a device of which P holds: what
waits before a counter or a counter unit's output goes on where it can, and Drip's timers follow (R167, R189). -/
def Settles (i : Instr) (s : State) (P : Dev → Prop) : Prop := Gives i s fun d => ∃ w : Dev, d = w.settleDrip ∧ P w

/-- The device at an engine's issue, once its cluster's banks have had their cycle, corrected words are counted, and the latch, stale
heads, loop markers and overflows are seen to (R126, R141, R160, R161, R180). -/
def Dev.atIssue (d : Dev) (c e : Nat) (rivals : List BankUse) (wsFix cmemFix : Nat) : Dev :=
  let d := ((d.banksCycle (clOf c)).countN (Reg.coWsCe (clOf c) (posOf c)) wsFix).countN (Reg.clCmemCe (clOf c)) cmemFix
  (((d.refill c e rivals).resync c e).loopMarker c e).overflows c e

/-! What a command may touch -/

/-- The parts of the device that a command may change; every other part is the same after it. -/
def mayChange : Instr → List Part
  | .registerWrite .. | .adminOffSet .. | .adminOffClear .. | .profileWrite .. | .hawkPreWrite .. | .hawkPostWrite ..
  | .captureSettingWrite .. | .ctxselWrite .. | .scaleLimitsWrite .. | .scaleHoldWrite .. | .adaptEnWrite .. | .mnCtlWrite ..
  | .mnThrWrite .. | .mnPrescaleWrite .. | .mnHoldnsWrite .. | .grpAbsentWrite .. | .jumpAccept .. | .ptAsymWrite ..
  | .jumpMaxWrite .. | .mkModeArm .. | .mkModeOff .. | .mkParamWrite .. | .hrEnableWrite .. | .attestationRequest ..
  | .clkGateWrite .. | .auxCtlWrite .. | .pinWrite .. | .flashRead .. | .flashProgram .. | .flashErase64k .. =>
    [.regs, .log, .freeCtr, .outbox, .ing, .prm, .tms, .acq, .store, .msh, .hst, .fab, .num, .boot, .clk, .pwr]
  | .multiRegisterRead .. => [.caps, .outbox]
  | .clkLossClear .. | .creditToken .. | .mirrorTakeover .. | .keepaliveExpiry .. | .timeoscRequalified
  | .channelTrainingComplete .. => [.regs]
  | .logFwdWrite .. | .checkpoint | .checkpointSignature => [.regs, .log]
  | .eventWindowOpen .. => [.regs, .log, .freeCtr, .outbox, .ing, .prm, .scr, .acq, .store, .stk, .msh, .hst, .fab, .num, .pwr]
  | .admission .. => [.regs, .log, .freeCtr, .prm, .scr, .acq, .store, .stk, .fab, .num, .pwr]
  | .release .. => [.regs, .log, .freeCtr, .outbox, .ing, .prm, .scr, .acq, .store, .msh, .hst]
  | .decWidthExpiry .. => [.outbox, .scr]
  | .screedArm | .armWaitExpiry => [.regs, .scr, .acq]
  | .blockReceived .. | .codewordDecoded .. | .dataBlock .. | .tagBlock .. | .linkBlockRx .. | .lossOfSignal ..
  | .signalDetected .. | .eyeMeasurement .. | .backoffEnd .. => [.regs, .ing]
  | .linkBlockTx .. | .fillerInsert .. => [.outbox, .ing]
  | .huntWindowEnd .. | .trainingWindowEnd .. => [.regs, .log, .ing]
  | .sampleDelivered => [.regs, .freeCtr, .ing, .prm, .acq, .store]
  | .keepEntry .. | .stippleCaptureEnd .. => [.regs, .freeCtr, .acq, .store]
  | .ringWrite .. => [.regs, .freeCtr, .acq, .store, .stk]
  | .captureCopyOut .. => [.regs, .log, .freeCtr, .acq, .store, .stk, .clk]
  | .freeAppendixBlock .. | .freeWaitExpiry .. => [.regs, .freeCtr, .store]
  | .engineIssue .. => [.regs, .log, .freeCtr, .stk, .fab, .num]
  | .countToken .. | .tokenArrival .. | .markerSend .. | .dripSpillComplete .. => [.regs, .log, .stk, .fab]
  | .wheelCrossing .. | .dieLinkFlit .. => [.regs, .log, .freeCtr, .scr, .store, .stk, .fab, .num, .pwr]
  | .paceWindow .. | .stallTick .. | .selfTestComplete .. | .dripTimerExpiry .. => [.regs, .fab]
  | .coreFence .. | .switchAccept .. | .receiveSwitchMarker .. | .counterUnitSwitch .. | .stepClose .. | .scaleToken ..
  | .scrimPartial .. => [.regs, .log, .stk, .fab, .num]
  | .coreLoadComplete .. | .loadErrorRetire .. | .sectionWatchdogExpiry .. =>
    [.regs, .log, .outbox, .ing, .scr, .tms, .store, .stk, .fab, .num, .boot, .pwr]
  | .dieLinkLossOfLock .. => [.fab]
  | .dieLinkRetrain .. => [.regs, .log, .fab, .clk]
  | .switchRequest .. | .logMemoryUe .. => [.regs, .log, .fab]
  | .sectionLoad .. => [.regs, .log, .stk, .fab, .num, .clk]
  | .dripRefill .. | .drpFail .. | .stackSlot .. => [.regs, .log, .stk, .fab, .clk]
  | .blockStaged .. => [.stk, .fab]
  | .refresh .. => [.regs, .stk]
  | .stackFailed .. | .stackTrainingComplete .. | .stackTrainingFail .. => [.regs, .log, .stk, .clk]
  | .stackTestComplete .. => [.regs, .log, .stk]
  | .skewNotice .. => [.regs, .scr, .store, .fab]
  | .epochDigest .. | .shadowCopy .. => [.regs, .log, .fab, .num]
  | .networkInput .. => [.regs, .scr, .store, .pwr]
  | .notice .. => [.regs, .scr, .fab]
  | .localDeadline .. | .contrib .. => [.regs, .outbox, .ing, .scr]
  | .collectionClose .. | .groupResult .. => [.scr]
  | .headroomWindow => [.regs, .scr, .pwr]
  | .setpointRaise .. | .setpointSettled | .domainPowerGood => [.regs, .pwr]
  | .rateFrame .. => [.regs, .outbox, .scr]
  | .safeEntry .. => [.regs, .log, .scr]
  | .sync .. | .delayResp .. | .tsyncRx .. | .tdrespRx .. => [.regs, .log, .freeCtr, .outbox, .tms]
  | .announce .. | .announceTimeout .. | .tsyncTimeout .. => [.regs, .freeCtr, .tms]
  | .delayReq .. | .tmarkWidthEnd .. => [.outbox, .tms]
  | .tsyncTx .. => [.regs, .outbox, .ing, .tms]
  | .tinfoTx .. | .tdreqTx .. | .markBlock .. => [.outbox, .ing, .tms]
  | .tinfoRx .. => [.regs, .tms]
  | .tdreqRx .. => [.regs, .outbox, .ing]
  | .jumpStep => [.regs, .log, .freeCtr, .outbox, .scr, .tms, .acq]
  | .mark .. => [.regs, .outbox, .tms]
  | .helloTx .. | .hstateTx | .ackTx .. => [.outbox, .ing, .msh]
  | .hello .. => [.regs, .log, .msh]
  | .wreq .. | .barAccess .. | .mgtRequest .. =>
    [.regs, .caps, .log, .freeCtr, .outbox, .ing, .prm, .tms, .acq, .store, .msh, .hst, .fab, .num, .boot, .clk, .pwr]
  | .wcpl .. | .hostResend .. => [.regs, .outbox, .ing, .msh]
  | .dmaw .. | .dmar .. | .d3hot .. | .poll | .irqHoldExpiry .. => [.regs, .outbox, .ing, .store, .msh, .hst]
  | .dmac .. => [.regs, .log, .outbox, .ing, .msh, .hst]
  | .irq .. => [.regs, .outbox, .ing, .msh, .hst]
  | .hstate .. | .linkDown | .descriptorFill .. | .flushExpiry .. | .logMirrorWrite =>
    [.regs, .log, .outbox, .ing, .store, .msh, .hst]
  | .ack .. => [.regs, .outbox, .ing, .store, .msh]
  | .windowReadTimeout .. => [.regs, .outbox, .msh]
  | .perstN .. => [.regs, .log, .freeCtr, .outbox, .ing, .store, .msh, .hst]
  | .pollData .. => [.regs, .log, .hst]
  | .pollExpiry .. => [.regs, .hst]
  | .labelEntry .. => [.regs, .log, .outbox, .ing, .store, .stk, .msh, .hst, .fab]
  | .recordExpired .. => [.regs, .store, .hst]
  | .recordStoreUe .. => [.regs, .log, .store, .clk]
  | .channelFailed .. | .forcedSwitch .. => [.regs, .log, .clk]
  | .porRelease .. | .railRecovery .. => [.regs, .gid, .testEn, .devNs, .inReset, .pwr]
  | .startUpStep .. => [.regs, .log, .outbox, .ing, .scr, .tms, .store, .stk, .wear, .fab, .num, .boot, .pwr]
  | .sectionDigest .. => [.regs, .log, .outbox, .ing, .scr, .tms, .store, .stk, .fab, .num, .boot, .clk, .pwr]
  | .bootWatchdogExpiry .. | .loopLockTimeout => [.regs, .outbox, .scr, .tms, .pwr]
  | .attestationReport | .referenceQualified .. => [.regs, .boot]
  | .wearWindow => [.regs, .log, .wear]
  | .temperatureRead .. => [.regs, .log, .outbox, .scr, .tms, .pwr]
  | .referenceLost .. => [.regs, .log, .ing, .tms, .clk]
  | .relock .. | .loopLock .. | .dividerStep .. => [.regs, .clk]
  | .quiesceAck .. => [.regs, .log, .outbox, .ing, .clk]
  | .gateTimeout .. => [.regs, .log, .outbox, .clk]
  | .hpcGateRetry .. => [.clk]
  | .railUndervoltage | .porAssert .. =>
    [.regs, .caps, .log, .devNs, .inReset, .freeCtr, .outbox, .ing, .prm, .scr, .tms, .acq, .store, .stk, .msh, .hst, .wear, .fab, .num, .boot, .clk, .pwr]
  | .devRstRelease => [.regs, .devNs, .inReset, .pwr]
  | .mgtWaitExpiry => [.msh]
  | .flashOperationDone .. => [.regs, .freeCtr, .boot, .pwr]
  | .ethernetLinkChange .. => [.tms]
  | .stackInterfaceRetrain .. => [.regs, .stk, .fab]

/-- The commands of a pin or a rail, which act in every mode, in reset too (R512 to R515). -/
def pinCommand : Instr → Bool
  | .porRelease .. | .railUndervoltage | .railRecovery .. | .porAssert .. | .devRstRelease => true
  | _ => false

/-- The commands that a device in FAULT answers besides: register accesses, the log, attestation, the host endpoint and the management
bus (R466). -/
def faultCommand : Instr → Bool
  | .registerWrite .. | .multiRegisterRead .. | .clkLossClear .. | .logFwdWrite .. | .adminOffSet .. | .adminOffClear ..
  | .profileWrite .. | .hawkPreWrite .. | .hawkPostWrite .. | .captureSettingWrite .. | .ctxselWrite .. | .scaleLimitsWrite ..
  | .scaleHoldWrite .. | .adaptEnWrite .. | .mnCtlWrite .. | .mnThrWrite .. | .mnPrescaleWrite .. | .mnHoldnsWrite ..
  | .grpAbsentWrite .. | .jumpAccept .. | .ptAsymWrite .. | .jumpMaxWrite .. | .mkModeArm .. | .mkModeOff .. | .mkParamWrite ..
  | .barAccess .. | .windowReadTimeout .. | .linkDown | .perstN .. | .d3hot .. | .hrEnableWrite .. | .attestationRequest ..
  | .attestationReport | .checkpoint | .checkpointSignature | .logMemoryUe .. | .clkGateWrite .. | .auxCtlWrite ..
  | .pinWrite .. | .mgtRequest .. | .mgtWaitExpiry | .flashRead .. | .flashProgram .. | .flashErase64k .. | .flashOperationDone .. =>
    true
  | _ => false

end Sys2Proof.Machine
end

