-- ==== Sys2Proof/Certificates/Slice0/Obligations.lean ====
section
/-!
DEFINITION. The statements of this model, in the order of OBLIGATIONS.json. Gives i s P says that command i answers a next state with the queue of s
and a device that meets P; keepsBut and regsBut name the parts of a device and the registers that may differ.
-/

section

open Sys2Proof Sys2Proof.Machine

/-- Loss of signal and its return (Table 2.7, rows 3 and 10; R62): in HUNT it ends no try. -/
def Obligations.LaneSignal : Prop :=
  (∀ (s : State) (l : LaneId), s.dev.alive = true → s.dev.laneState l = lsTrain ∨ s.dev.laneState l = lsService →
    Gives (.lossOfSignal l false) s fun d =>
      d.laneState l = lsHunt ∧ (d.lane l).los = true ∧ (d.lane l).buf = [] ∧
      d.rd (laneReg l Reg.ingTries) = satInc 32 1 (s.dev.rd (laneReg l Reg.ingTries)) ∧
      d.rd (laneReg l Reg.ingLosEvents) = satInc 32 1 (s.dev.rd (laneReg l Reg.ingLosEvents)) ∧
      d.fld (laneReg l Reg.ingLfom) Fld.ingLfomEye = 0 ∧ d.fld (laneReg l Reg.ingLfom) Fld.ingLfomPartnerValid = 0 ∧
      s.dev.regsBut (laneStateRegs l) d) ∧
  (∀ (s : State) (l : LaneId) (tie : Bool), s.dev.alive = true → s.dev.laneState l = lsHunt →
    Gives (.lossOfSignal l tie) s fun d =>
      d.laneState l = lsHunt ∧ (d.lane l).los = true ∧ (d.lane l).runValid = 0 ∧ (d.lane l).tryBits = (s.dev.lane l).tryBits ∧
      d.rd (laneReg l Reg.ingTries) = s.dev.rd (laneReg l Reg.ingTries) ∧
      d.rd (laneReg l Reg.ingLosEvents) = satInc 32 1 (s.dev.rd (laneReg l Reg.ingLosEvents)) ∧
      s.dev.regsBut (laneStateRegs l) d) ∧
  (∀ (s : State) (l : LaneId), s.dev.alive = true → s.dev.laneState l = lsBackoff → (s.dev.lane l).los = true →
    Gives (.signalDetected l false) s fun d =>
      d.laneState l = lsHunt ∧ (d.lane l).los = false ∧
      d.rd (laneReg l Reg.ingTries) = satInc 32 1 (s.dev.rd (laneReg l Reg.ingTries)) ∧
      d.fld (laneReg l Reg.ingLstate) Fld.ingLstateBackoffMs = s.dev.fld (laneReg l Reg.ingLstate) Fld.ingLstateBackoffMs ∧
      s.dev.regsBut (laneStateRegs l) d)

/-- A try that fails once its window is over (Table 2.7, rows 6 and 8; R59, R60, R63, R64), and the next one when the back-off interval is
over; none of the three has any effect on the lane when a lower row is triggered with it (R61). -/
def Obligations.LaneTries : Prop :=
  ∀ (s : State) (l : LaneId) (idle : Nat), s.dev.alive = true →
    let a := laneReg l Reg.ingLstate
    let fails := if s.dev.fld a Fld.ingLstateFails < 255 then s.dev.fld a Fld.ingLstateFails + 1 else 255
    let ms := s.dev.fld a Fld.ingLstateBackoffMs
    let after : Dev → Prop := fun d =>
      d.laneState l = lsBackoff ∧ d.fld a Fld.ingLstateFails = fails ∧
      d.fld a Fld.ingLstateBackoffMs = (if 2 * ms < 1000 then 2 * ms else 1000) ∧
      (d.lane l).backoffDue = s.dev.devNs + ms * 1000000 ∧
      d.fld a Fld.ingLstateDown =
        (if fails = s.dev.fld Reg.ingAdmit Fld.ingAdmitLaneDownTries then 1 else s.dev.fld a Fld.ingLstateDown) ∧
      s.dev.regsBut (laneStateRegs l) d
    (s.dev.laneState l = lsHunt → 2 ^ 20 * 130 ≤ (s.dev.lane l).tryBits + 130 * idle →
      Gives (.huntWindowEnd l idle false) s after) ∧
    (s.dev.laneState l = lsTrain → 2 ^ 18 ≤ (s.dev.lane l).trainBlocks → (s.dev.lane l).eyeBlocks < 2 ^ 14 →
      Gives (.trainingWindowEnd l false) s after) ∧
    (s.dev.laneState l = lsBackoff → (s.dev.lane l).backoffDue ≤ s.dev.devNs → Gives (.backoffEnd l false) s fun d =>
      d.laneState l = lsHunt ∧ d.rd (laneReg l Reg.ingTries) = satInc 32 1 (s.dev.rd (laneReg l Reg.ingTries)) ∧
      s.dev.regsBut (laneStateRegs l) d) ∧
    (∀ i ∈ [Instr.huntWindowEnd l idle true, .trainingWindowEnd l true, .backoffEnd l true], Gives i s fun d =>
      d.ing = s.dev.ing ∧ s.dev.regsBut [Reg.mpCfg ((l.val - 64) / 4), Reg.mpDowns ((l.val - 64) / 4)] d)

/-- A completed eye measurement (Table 2.7, rows 7 and 9; R65, R66): the score is 255 times the least of the openings of the lane's eyes, three
under PAM4 and one under NRZ, and the horizontal one. -/
def Obligations.LaneEye : Prop :=
  ∀ (s : State) (l : LaneId) (v : List Rat) (h : Rat), s.dev.alive = true → 2 ^ 14 ≤ (s.dev.lane l).eyeBlocks →
    let score := eyeScore (v.take (if s.dev.lanePam4 l then 3 else 1)) h
    let fmin := s.dev.fld Reg.ingAdmit Fld.ingAdmitLaneFomMin
    let low := score + s.dev.fld Reg.ingAdmit Fld.ingAdmitLaneFomHyst < fmin
    let a := laneReg l Reg.ingLstate
    let eye : Dev → Nat := fun d => d.fld (laneReg l Reg.ingLfom) Fld.ingLfomEye
    (s.dev.laneState l = lsTrain → fmin ≤ score → Gives (.eyeMeasurement l v h false) s fun d =>
      d.laneState l = lsService ∧ eye d = score ∧ d.fld a Fld.ingLstateFails = 0 ∧ d.fld a Fld.ingLstateDown = 0 ∧
      d.fld a Fld.ingLstateBackoffMs = 1 ∧ s.dev.regsBut (laneStateRegs l) d) ∧
    (s.dev.laneState l = lsTrain → score < fmin → Gives (.eyeMeasurement l v h false) s fun d =>
      d.laneState l = lsTrain ∧ eye d = score ∧ s.dev.regsBut (laneStateRegs l) d) ∧
    (s.dev.laneState l = lsService → (¬ low ∨ (s.dev.lane l).lowEyes = 0) → Gives (.eyeMeasurement l v h false) s fun d =>
      d.laneState l = lsService ∧ eye d = score ∧ s.dev.regsBut (laneStateRegs l) d) ∧
    (s.dev.laneState l = lsService → low → 1 ≤ (s.dev.lane l).lowEyes → Gives (.eyeMeasurement l v h false) s fun d =>
      d.laneState l = lsTrain ∧ eye d = score ∧ s.dev.regsBut (laneStateRegs l) d)

/-- A block received: lock found, a header counted as invalid, and lock lost (Table 2.7, rows 4 and 5; R41, R57, R58, R59); and an FEC codeword
decoded, whose blocks wait to be taken in, counted when it was corrected or is uncorrectable (R39, R40). -/
def Obligations.LaneLock : Prop :=
  ∀ (s : State) (l : LaneId), s.dev.alive = true →
    let inv := laneReg l Reg.ingInvalidHdr
    (∀ (hdr : BitVec 2) (p : BitVec 128), s.dev.laneFec l = 0 → s.dev.laneState l = lsHunt → hdrOk hdr = true →
      63 ≤ (s.dev.lane l).runValid → (s.dev.lane l).tryBits < 2 ^ 20 * 130 →
      Gives (.blockReceived l hdr p false) s fun d =>
        d.laneState l = lsTrain ∧ (d.lane l).buf = [] ∧ (d.lane l).eyeBlocks = 0 ∧ (d.lane l).trainBlocks = 0 ∧
        s.dev.regsBut (laneStateRegs l) d) ∧
    (∀ (hdr : BitVec 2) (p : BitVec 128) (tie : Bool), s.dev.laneFec l = 0 → s.dev.laneState l = lsHunt → hdrOk hdr = false →
      Gives (.blockReceived l hdr p tie) s fun d =>
        d.laneState l = lsHunt ∧ (d.lane l).runValid = 0 ∧ d.rd inv = satInc 32 1 (s.dev.rd inv) ∧
        s.dev.regsBut (inv :: laneStateRegs l) d) ∧
    (∀ (hdr : BitVec 2) (p : BitVec 128), s.dev.laneFec l = 0 → s.dev.laneState l = lsTrain ∨ s.dev.laneState l = lsService →
      hdrOk hdr = false →
      Gives (.blockReceived l hdr p false) s fun d =>
        d.rd inv = satInc 32 1 (s.dev.rd inv) ∧ ((s.dev.lane l).buf = [] → (d.lane l).burst = none) ∧
        d.laneState l =
          (if 16 ≤ ((true :: (s.dev.lane l).recent).take 64 |>.filter id).length then lsHunt else s.dev.laneState l) ∧
        s.dev.regsBut (inv :: laneReg l Reg.ingLockLoss :: laneReg l Reg.ingCtrlUnknown :: laneStateRegs l) d) ∧
    (∀ (hdr : BitVec 2) (p : BitVec 128) (b : RxBlock) (rest : List RxBlock), s.dev.laneFec l ≠ 0 → s.dev.laneState l = lsHunt →
      (s.dev.lane l).decoded = b :: rest → hdrOk b.hdr = true → b.lost = false → b.inCode = true → b.at_ < 2 ^ 20 * 130 →
      63 ≤ (s.dev.lane l).runValid →
      Gives (.blockReceived l hdr p false) s fun d =>
        d.laneState l = lsTrain ∧ (d.lane l).decoded = rest ∧ s.dev.regsBut (laneStateRegs l) d) ∧
    (∀ levels : List (Fin 4), s.dev.laneState l = lsHunt ∨ s.dev.laneState l = lsTrain ∨ s.dev.laneState l = lsService →
      s.dev.laneFec l ≠ 0 →
      let fec := s.dev.laneFec l
      let bits := levelBits (s.dev.lanePam4 l)
        (if s.dev.flag (laneReg l Reg.ingLcfg) Fld.ingLcfgRxInvert then invertLevels (s.dev.lanePam4 l) levels else levels)
      let out := fecDecode fec (bitSlice bits 0 (fecLen fec))
      Gives (.codewordDecoded l levels) s fun d =>
        (out = none → d.rd (laneReg l Reg.ingFecUncorr) = satInc 32 1 (s.dev.rd (laneReg l Reg.ingFecUncorr)) ∧
          d.rd (laneReg l Reg.ingFecCorr) = s.dev.rd (laneReg l Reg.ingFecCorr)) ∧
        (∀ msg fixed, out = some (msg, fixed) → d.rd (laneReg l Reg.ingFecUncorr) = s.dev.rd (laneReg l Reg.ingFecUncorr) ∧
          d.rd (laneReg l Reg.ingFecCorr) =
            (if fixed then satInc 32 1 (s.dev.rd (laneReg l Reg.ingFecCorr)) else s.dev.rd (laneReg l Reg.ingFecCorr))) ∧
        (∃ bs : List RxBlock, (d.lane l).decoded = (s.dev.lane l).decoded ++ bs ∧ bs.length = fecBlocks fec ∧
          ∀ b ∈ bs, b.lost = out.isNone) ∧
        d.laneState l = s.dev.laneState l ∧
        s.dev.regsBut (laneReg l Reg.ingFecCorr :: laneReg l Reg.ingFecUncorr :: laneStateRegs l) d)

/-- The deframer takes the block at the read side of an ingest lane in SERVICE: a data block outside a burst is an orphan, one inside advances
the burst (R48), and a TAG block opens a burst and counts the sequence numbers passed over (R45, R48); in TRAIN a TAG block gives the lane its
time alone (log entry 26); a LINK block tells what the partner sees (R44). -/
def Obligations.LaneDeframer : Prop :=
  (∀ (s : State) (n : Fin 64) (b : Blk) (rest : List Blk), s.dev.alive = true →
    let l := ingestLane n
    let tag := s.dev.shortTag (bitsOf b.payload.toNat 80 40) * 65536 + Int.ofNat (bitsOf b.payload.toNat 64 16)
    (s.dev.lane l).buf = b :: rest → b.gap = false → (∀ x ∈ rest, x.gap = false) →
    (s.dev.laneState l = lsService → b.ctl = false → (s.dev.lane l).burst = none →
      Gives (.dataBlock n) s fun d =>
        d.rd (Reg.ingOrphan n.val) = satInc 32 1 (s.dev.rd (Reg.ingOrphan n.val)) ∧
        d.ing.queue = s.dev.ing.queue ∧
        s.dev.regsBut [Reg.ingOrphan n.val, laneReg l Reg.ingCtrlUnknown] d) ∧
    (∀ u : Burst, s.dev.laneState l = lsService → b.ctl = false → (s.dev.lane l).burst = some u →
      Gives (.dataBlock n) s fun d =>
        (d.lane l).burst = (if u.next + 1 < u.len then some { u with next := u.next + 1 } else none) ∧
        d.rd (Reg.ingOrphan n.val) = s.dev.rd (Reg.ingOrphan n.val)) ∧
    (s.dev.laneState l = lsTrain ∨ s.dev.laneState l = lsService → b.ctl = true → blkType b.payload = 1 →
      Gives (.tagBlock n) s fun d =>
        (d.lane l).burst = (if s.dev.laneState l = lsService then some ⟨tag, bitsOf b.payload.toNat 56 8 + 1, 0⟩ else none) ∧
        (d.lane l).lastSeq = some (BitVec.ofNat 8 (bitsOf b.payload.toNat 48 8)) ∧ (d.lane l).lastP = tag ∧
        ∀ q, (s.dev.lane l).lastSeq = some q →
          d.rd (Reg.ingBurstLost n.val) = satInc 32 (BitVec.ofNat 8 (bitsOf b.payload.toNat 48 8) - q - 1).toNat
            (s.dev.rd (Reg.ingBurstLost n.val)))) ∧
  (∀ (s : State) (m : LaneId) (b : Blk) (rest : List Blk), s.dev.alive = true → (s.dev.lane m).buf = b :: rest → b.gap = false →
    s.dev.laneState m = lsTrain ∨ s.dev.laneState m = lsService → b.ctl = true → blkType b.payload = 2 →
    Gives (.linkBlockRx m) s fun d =>
      d.fld (laneReg m Reg.ingLfom) Fld.ingLfomPartnerEye = bitsOf b.payload.toNat 109 8 ∧
      d.fld (laneReg m Reg.ingLfom) Fld.ingLfomPartnerState = bitsOf b.payload.toNat 117 3 ∧
      d.fld (laneReg m Reg.ingLfom) Fld.ingLfomPartnerValid = 1 ∧
      s.dev.regsBut [laneReg m Reg.ingLfom, laneReg m Reg.ingCtrlUnknown, laneReg m Reg.ingOrphan, laneReg m Reg.ingBurstBroken] d)

/-- Blocks a lane sends of itself: a LINK block as Table 2.4 lays it out, which stands in front of any other when 2^16 blocks would else hold
none (R44), and a filler when nothing else is sent, which stands in front of the block after 1,023 others (R52); scrambled by R42 and coded
by R39, in front of the outputs. A LINK block waits its turn when a mesh lane has no slot free (R358; log entry 80). -/
def Obligations.LaneSends : Prop :=
  ∀ (s : State) (l : LaneId), s.dev.alive = true → (s.dev.lane l).txOn = true →
    let link := s.dev.linkPayload l
    let filler := ctlPayload 0 0
    let slot := (isIngest l || s.dev.laneFree l) = true
    let waits := (s.dev.lane l).txq
    (¬ slot → Gives (.linkBlockTx l) s fun d =>
      (d.lane l).txq = waits ++ [(blkClass true link, true, link)] ∧ s.dev.regsBut [] d ∧ s.dev.keepsBut [.ing] d) ∧
    (waits ≠ [] → Gives (.fillerInsert l) s fun d => d = s.dev) ∧
    (slot → (s.dev.lane l).txRun < 1023 → Gives (.linkBlockTx l) s fun d =>
      d.outbox = s.dev.blockOut l true link ++ s.dev.outbox ∧
      blkType link = 2 ∧ (d.lane l).sinceLink = 0 ∧ s.dev.regsBut [] d) ∧
    (slot → 1023 ≤ (s.dev.lane l).txRun → Gives (.linkBlockTx l) s fun d =>
      (∃ x y, d.outbox = x :: y :: (s.dev.blockOut l true filler ++ s.dev.outbox)) ∧
      (d.lane l).sinceLink = 0 ∧ (d.lane l).txRun = 1 ∧ s.dev.regsBut [] d) ∧
    (waits = [] → (s.dev.lane l).sinceLink < 65534 → Gives (.fillerInsert l) s fun d =>
      d.outbox = s.dev.blockOut l true filler ++ s.dev.outbox ∧
      (d.lane l).txRun = 0 ∧ s.dev.regsBut [] d) ∧
    (waits = [] → 65534 ≤ (s.dev.lane l).sinceLink → (s.dev.lane l).txRun < 1023 → Gives (.fillerInsert l) s fun d =>
      (∃ x y, d.outbox = x :: y :: (s.dev.blockOut l true link ++ s.dev.outbox)) ∧
      (d.lane l).txRun = 0 ∧ (d.lane l).sinceLink = 1 ∧ s.dev.regsBut [] d)

/-- An event's window opens and the event is formed in its slot; one that the slot still holds is released first, and one that is never formed
opens no window (R17, R20, R21, R24). The event enters the fabric at its admission time, after the data blocks of that instant (R22, R23).
An admitted event is released at T_sample + L with its two words: its own, the group's, or its own with a member absent (R298, R309); in
SAFE the decision word says NODECISION and nothing else but whether an input was degraded (R313). -/
def Obligations.EventsComeAndGo : Prop :=
  ((∀ (s : State) (n : Nat), s.dev.alive = true → s.dev.tev ≠ 0 → s.dev.neverFormed n = false →
     n * s.dev.tev ≤ s.dev.netNs → (∀ m, s.dev.scr.opened = some m → m < n) →
     Gives (.eventWindowOpen n) s fun d => d.scr.opened = some n ∧ d.evAt n = some (Ev.init n) ∧
       ((∀ e, s.dev.evInSlot n = some e → e.released = true) →
         (∀ m, m % 256 ≠ n % 256 → d.evAt m = s.dev.evAt m) ∧ s.dev.outGrows d) ∧
       (∀ e, s.dev.evInSlot n = some e → e.n % 256 = n % 256 → e.admitted = true → e.released = false →
         s.dev.relTime e.n ≤ s.dev.netNs → ∃ w c, .words e.n w c ∈ d.outbox)) ∧
   (∀ (s : State) (n : Nat), s.dev.alive = true → s.dev.neverFormed n = true → Gives (.eventWindowOpen n) s fun d => d = s.dev) ∧
   (∀ (s : State) (n : Nat) (e : Ev), s.dev.alive = true → s.dev.evAt n = some e → e.admitted = false →
     s.dev.admTime n ≤ s.dev.netNs →
     Gives (.admission n false) s fun d => d.scr.admitted = some n ∧
       ∃ c, d.evAt n = some { e with
         admitted := true, missing := ((s.dev.missingPositions n).map fun x => x.2.1).dedup, completion := c,
         phases := s.dev.lanePhases }) ∧
   (∀ (s : State) (n : Nat), s.dev.alive = true → s.dev.tms.ctr = s.dev.admTime n * 2 ^ 40 →
     Settles (.admission n true) s fun d => d = s.dev)) ∧
  (∀ (s : State) (n corrected : Nat) (e : Ev), s.dev.alive = true → s.dev.evAt n = some e → e.admitted = true → e.released = false →
    s.dev.relTime n ≤ s.dev.netNs →
    let D := s.dev.countN Reg.glbXdieCe corrected
    let r := D.decideEvent e
    let w := r.1.releasedWords r.2
    Gives (.release n false corrected) s fun d =>
      .words n w.1 w.2 ∈ d.outbox ∧ d.scr.releasedEv = some n ∧ (∃ x, d.evAt n = some x ∧ x.released = true ∧ x.missing = e.missing) ∧
      (∀ c, e.own = some c → e.lost = false → s.dev.inSafe n = false →
        (s.dev.group = false → .words n c.dec c.comp ∈ d.outbox) ∧
        (∀ g, s.dev.group = true → e.group = some g → .words n g.dec g.comp ∈ d.outbox) ∧
        (s.dev.group = true → e.group = none → .words n (c.dec ||| BitVec.ofNat 64 (2 ^ 53)) c.comp ∈ d.outbox)) ∧
      (s.dev.inSafe n = true → ∃ c,
        .words n (decisionWord n false true false (!e.missing.isEmpty || !e.skews.isEmpty) false false 0) c ∈ d.outbox))

/-- The Screed arms once, at step 9, when network time is locked (R24, R337) or when ARM_WAIT_S is over and the policy lets it: from the first
window that opens at the arming or later. The end of a DEC pulse (R311): its output goes to the idle level at the end of WIDTH_NS, but not
when a release of that instant may keep it active. Notices and inputs reach the Screed's slot of their event (R282, R291, R299, R301). -/
def Obligations.ScreedWork : Prop :=
  (∀ (s : State), s.dev.alive = true → s.dev.starting = true → s.dev.stepNo = 9 → s.dev.scr.armed = false →
     let after : Dev → Prop := fun d =>
       d.scr.armed = true ∧ d.scr.firstEv = ceilDiv (ceilDiv s.dev.net16 65536) s.dev.tev ∧ d.scr.armedAt = s.dev.net16 ∧
       d.scr.safeFrom = (if s.dev.safeMode then some d.scr.firstEv else s.dev.scr.safeFrom)
     (s.dev.timeState = tsLocked → Gives .screedArm s after) ∧
     (s.dev.lockPolicy = false →
       s.dev.boot.stepAt + s.dev.fld Reg.tmsArm Fld.tmsArmArmWaitS * 1000000000 ≤ s.dev.devNs →
       Gives .armWaitExpiry s after)) ∧
  (∀ (s : State) (k : Fin 32) (t : Nat) (tie : Bool), s.dev.alive = true → s.dev.decEnd k.val = some t →
     (t ≤ s.dev.netNs → tie = false ∨ t < s.dev.netNs → Gives (.decWidthExpiry k tie) s fun d =>
       d.decEnd k.val = none ∧
       d.outbox = .decEdge k.val (s.dev.flag (Reg.scrDec k.val) Fld.scrDecInvert) t :: s.dev.outbox ∧
       s.dev.keepsBut [.scr, .outbox] d) ∧
     (t = s.dev.netNs → Gives (.decWidthExpiry k true) s fun d => d = s.dev)) ∧
  (∀ (s : State) (slot : Byte) (e : Ev), s.dev.alive = true → s.dev.evInSlot slot.toNat = some e → e.n % 256 = slot.toNat →
     (∀ (kind : NoticeKind) (core : Fin 1024), e.own = none →
       Gives (.notice kind slot core) s fun d =>
         d.evAt e.n = some { e with notices := e.notices ++ [core.val] } ∧ s.dev.keepsBut [.scr, .fab] d) ∧
     (∀ (kind : NoticeKind) (core : Fin 1024), e.own.isSome = true →
       Gives (.notice kind slot core) s fun d =>
         d.rd Reg.scrNoticeLate = satInc 32 1 (s.dev.rd Reg.scrNoticeLate) ∧
         s.dev.regsBut [Reg.scrNoticeLate] d ∧ s.dev.keepsBut [.regs, .fab] d) ∧
     (∀ core : Fin 1024, e.released = false →
       Gives (.skewNotice slot core) s fun d =>
         d.evAt e.n = some { e with skews := e.skews ++ [core.val] } ∧
         d.rd Reg.scrSkewNotices = satInc 32 1 (s.dev.rd Reg.scrSkewNotices) ∧
         s.dev.regsBut [Reg.scrSkewNotices] d ∧ s.dev.keepsBut [.regs, .scr, .fab] d) ∧
     (∀ (k : Fin 4096) (v : Word) (deg : Bool), s.dev.isPrim k.val = false →
       s.dev.flag (Reg.scrInput k.val) Fld.scrInputEn = true → evInput e k.val = none → e.admitted = true →
       Gives (.networkInput k slot v deg) s fun d => ∃ x, d.evAt e.n = some x ∧
         evInput x k.val = some ⟨v, deg, s.dev.net16⟩ ∧ x.own = e.own ∧ x.notices = e.notices))

/-- A group member's event (R306, R308, R365): decided at its local deadline, collected until 12 ns before release, then combined; what comes
at the instant of either comes before it. -/
def Obligations.GroupEvent : Prop :=
  ∀ (s : State) (n : Nat) (e : Ev), s.dev.alive = true → s.dev.evAt n = some e →
    (s.dev.group = true → e.own = none → e.admitted = true → s.dev.deadline n ≤ s.dev.netNs →
      Gives (.localDeadline n false) s fun d => ∃ x, d.evAt n = some x ∧ x.own = (s.dev.decideEvent e).2.own ∧ x.own.isSome = true ∧
        x.heard = e.heard ∧ x.released = e.released) ∧
    (s.dev.tms.ctr = s.dev.deadline n * 2 ^ 40 → Gives (.localDeadline n true) s fun d => d = s.dev) ∧
    (s.dev.group = true → e.own.isSome = true → e.closed = false → s.dev.relTime n - 12 ≤ s.dev.netNs →
      Gives (.collectionClose n false) s fun d => d.evAt n = some { e with closed := true } ∧ s.dev.keepsBut [.scr] d) ∧
    (s.dev.tms.ctr = (s.dev.relTime n - 12) * 2 ^ 40 → Gives (.collectionClose n true) s fun d => d = s.dev) ∧
    (∀ c, e.own = some c → e.closed = true → e.group = none → e.released = false →
      Gives (.groupResult n) s fun d => d.evAt n = some { e with group := some (s.dev.combine n (c :: e.heard)) } ∧
        s.dev.keepsBut [.scr] d)

/-- The margin-tracking setpoint (R303, R503, R504): a raise of 25 mV up to 850 mV, its settling, and the close of a headroom window with its
lowering of 5 mV. -/
def Obligations.Setpoint : Prop :=
  (∀ (s : State) (n : Nat) (x : LowEvent), s.dev.alive = true → s.dev.pwr.low.find? (fun y => decide (y.n = n)) = some x →
    s.dev.tracking = true → s.dev.raising = false → s.dev.pinned = false → s.dev.vset < 850 →
    s.dev.pwr.settledAt ≤ x.adm * 65536 →
    Gives (.setpointRaise n) s fun d =>
      d.vset = (if s.dev.vset + 25 < 850 then s.dev.vset + 25 else 850) ∧ d.raising = true ∧ d.pwr.raised = true ∧
      d.rd Reg.pwrRaises = satInc 32 1 (s.dev.rd Reg.pwrRaises) ∧
      s.dev.regsBut [Reg.pwrStat, Reg.pwrRaises] d ∧ s.dev.keepsBut [.regs, .pwr] d) ∧
  (∀ s : State, s.dev.alive = true → s.dev.raising = true → s.dev.pwr.pinWaits = false →
    Gives .setpointSettled s fun d => d.raising = false ∧ d.pwr.settledAt = s.dev.net16 ∧ s.dev.keepsBut [.pwr] d) ∧
  (∀ (s : State) (h : Int), s.dev.alive = true → s.dev.scr.headStart + 1000000 ≤ s.dev.devNs → s.dev.scr.headMin = some h →
    s.dev.tracking = true → s.dev.pwr.raised = false → 600 < s.dev.vset →
    Int.ofNat (15 * (if s.dev.group then s.dev.lNs - s.dev.gNs else s.dev.lNs) * 65536) < 100 * h →
    Gives .headroomWindow s fun d =>
      d.vset = s.dev.vset - 5 ∧ d.rd Reg.pwrLowers = satInc 32 1 (s.dev.rd Reg.pwrLowers) ∧
      d.scr.headMin = none ∧ d.scr.headStart = s.dev.scr.headStart + 1000000 ∧
      s.dev.regsBut [Reg.pwrStat, Reg.pwrLowers, Reg.scrHeadroom] d ∧ s.dev.keepsBut [.regs, .pwr, .scr] d)

/-- The rate frame of an interval: one Ethernet frame for each of its segments when the link is up, else a count (R314, R315). SAFE at run
time (R463): after an uncorrectable error in the menu store, the decision buffers or the event-slot tables the mode is SAFE from the first
event admitted 200 ns later on, and tracking stops. -/
def Obligations.RateFramesAndSafe : Prop :=
  (∀ (s : State) (m : Nat), s.dev.alive = true → s.dev.scr.armed = true →
     s.dev.flag Reg.scrRfCfg Fld.scrRfCfgRfEn = true → s.dev.scr.rfNext ≤ m → s.dev.skippedInterval m = false →
     (m + 1) * 1000000 + 50000 ≤ s.dev.netNs →
     (s.dev.tms.ethUp = true → Gives (.rateFrame m) s fun d =>
       (∀ p ∈ s.dev.rateSegments m, .frame s.dev.rfDst s.dev.mac
         (BitVec.ofNat 16 (s.dev.fld Reg.scrRfCfg Fld.scrRfCfgRfEthertype)) p ∈ d.outbox) ∧
       d.rd Reg.scrRfSent = satInc 32 1 (s.dev.rd Reg.scrRfSent) ∧ d.scr.rfNext = m + 1 ∧
       d.scr.rfSeq = (s.dev.scr.rfSeq + 1) % 2 ^ 32 ∧
       s.dev.regsBut [Reg.scrRfSent] d ∧ s.dev.keepsBut [.regs, .scr, .outbox] d) ∧
     (s.dev.tms.ethUp = false → Gives (.rateFrame m) s fun d =>
       d.rd Reg.scrRfUnsent = satInc 32 1 (s.dev.rd Reg.scrRfUnsent) ∧ d.scr.rfNext = m + 1 ∧
       d.scr.rfSeq = s.dev.scr.rfSeq ∧
       s.dev.regsBut [Reg.scrRfUnsent] d ∧ s.dev.keepsBut [.regs, .scr] d)) ∧
  (∀ (s : State) (mem : XdieMemory), s.dev.alive = true → s.dev.scr.armed = true → s.dev.mode ≠ 2 →
     Gives (.safeEntry mem []) s fun d =>
       d.mode = 2 ∧ d.scr.safeFrom = some s.dev.safeEvent ∧ d.tracking = false ∧
       d.rd Reg.glbXdieUe = satInc 32 1 (s.dev.rd Reg.glbXdieUe) ∧
       d.fld Reg.glbState Fld.glbStateSafeCause = 2 ∧
       s.dev.keepsBut [.regs, .scr, .log] d)

/-- A live write that fails a check of Table 11.13 changes nothing but the log and its counters, and is logged once (R414, R419). -/
def Obligations.LiveWriteRefused : Prop :=
  ∀ (i : Instr) (s : State) (o : Origin) (r : RegRow) (a v : Nat) (st : Status),
    liveTarget i = some (o, a, v) → s.dev.meetsChecks r a v →
    s.dev.liveFault o r a (s.dev.inHand a) (s.dev.liveWord r a v) = some st →
    Gives i s fun d =>
      s.dev.regsBut [Reg.logLost, Reg.logMirrorLost, Reg.logUnlogged, Reg.logRefusals] d ∧ s.dev.keepsBut [.regs, .log] d ∧
      d.rd Reg.logRefusals = satInc 32 1 (s.dev.rd Reg.logRefusals)

/-- An accepted live write (R91, R114, R293, R343, R414): a menu slot or a profile keeps its old value in force until the effect boundary and
has the new one waiting; a time setting waits in PAUSED, and a field of a ring that writes waits for its next sample position; any other
register without an action of its own reads the new value (a field of a ring that does not write too: log entry 40). Each is logged once.
A smaller TMS_JUMP_MAX that confirms a jump at a device in use makes it pending and the time state HOLDOVER (R334; log entry 79). -/
def Obligations.LiveWriteAccepted : Prop :=
  ∀ (i : Instr) (s : State) (o : Origin) (r : RegRow) (a v : Nat),
    liveTarget i = some (o, a, v) → s.dev.meetsChecks r a v →
    s.dev.liveFault o r a (s.dev.inHand a) (s.dev.liveWord r a v) = none →
    a ≠ Reg.logLost → a ≠ Reg.logMirrorLost → a ≠ Reg.logUnlogged → a ≠ Reg.logRefusals →
    let logged : Dev → Prop := fun d => s.dev.log.opened = true → d.log.written = s.dev.log.written + 1
    let logs := [Reg.logLost, Reg.logMirrorLost, Reg.logUnlogged, Reg.logRefusals]
    (r.cls = 1 ∨ r.cls = 2 → Gives i s fun d =>
      d.staged a = s.dev.liveWord r a v ∧ s.dev.regsBut logs d ∧ logged d ∧ s.dev.keepsBut [.regs, .log, .prm] d) ∧
    (r.cls = 128 ∨ r.cls = 512 → s.dev.timeState = tsPaused → Gives i s fun d =>
      d.inHand a = s.dev.liveWord r a v ∧ s.dev.regsBut logs d ∧ logged d ∧ s.dev.keepsBut [.regs, .log, .tms] d) ∧
    (r.cls = 128 → s.dev.timeState ≠ tsPaused → (a < Reg.mkCtl 0 ∨ Reg.mkCtl 16 ≤ a) →
      (a = Reg.tmsJumpMax → s.dev.jumpPending = true ∨ (s.dev.wr a (s.dev.liveWord r a v)).jumpConfirmed s.dev.source = false) →
      Gives i s fun d =>
      d.rd a = s.dev.liveWord r a v % 2 ^ 32 ∧ s.dev.regsBut (a :: logs) d ∧ logged d ∧ s.dev.keepsBut [.regs, .log] d) ∧
    (r.cls = 128 → s.dev.timeState ≠ tsPaused → a = Reg.tmsJumpMax → s.dev.jumpPending = false →
      (s.dev.wr a (s.dev.liveWord r a v)).jumpConfirmed s.dev.source = true → Gives i s fun d =>
      d.rd a = s.dev.liveWord r a v % 2 ^ 32 ∧ d.timeState = tsHoldover ∧ d.jumpPending = true ∧
      d.rd Reg.tmsJumpSeq = (s.dev.rd Reg.tmsJumpSeq + 1) % 65536 ∧
      d.rd Reg.tmsJumpsRefused = satInc 32 1 (s.dev.rd Reg.tmsJumpsRefused) ∧
      s.dev.regsBut (a :: Reg.tmsStat :: Reg.tmsFreq :: Reg.tmsJump :: Reg.tmsJumpSeq :: Reg.tmsJumpsRefused :: logs) d ∧
      s.dev.keepsBut [.regs, .log, .freeCtr, .tms] d) ∧
    (r.cls = 4 ∨ r.cls = 16 ∨ r.cls = 32 ∨ r.cls = 48 → ringField r = false → a ≠ Reg.pwrPin → r.base ≠ Reg.auxCtl 0 → Gives i s fun d =>
      d.rd a = s.dev.liveWord r a v % 2 ^ 32 ∧ s.dev.regsBut (a :: logs) d ∧ logged d ∧ s.dev.keepsBut [.regs, .log, .num] d ∧
      (r.base ≠ Reg.numRcLimits 0 0 → a ≠ Reg.numGcfg → d.num = s.dev.num)) ∧
    (r.cls = 4 → ringField r = true → (s.dev.ring (s.dev.liveRing a)).began = true → Gives i s fun d =>
      d.acq = { s.dev.acq with pend := (a, s.dev.liveWord r a v) :: s.dev.acq.pend } ∧ s.dev.regsBut logs d ∧ logged d ∧
      s.dev.keepsBut [.regs, .log, .acq] d) ∧
    (r.cls = 4 → ringField r = true → (s.dev.ring (s.dev.liveRing a)).began = false →
      (r.base = Reg.hwkFree 0 → ∀ x ∈ s.dev.store.recs, x.ring = s.dev.liveRing a → x.doneAt.isSome = true) → Gives i s fun d =>
      d.rd a = s.dev.liveWord r a v % 2 ^ 32 ∧ s.dev.regsBut (a :: logs) d ∧ logged d ∧ s.dev.keepsBut [.regs, .log] d)

/-- Accepted live writes that act beyond their register: ADMIN_OFF turns a lane OFFLINE and lets it hunt again (Table 2.7, rows 1 and 2), a
jump is accepted and pauses until 1,000 ns after the release of the last event before it (Table 9.5), a context is requested for a switch group (R295), the divider of an AUX clock starts to ramp
(R481), and a pin holds the setpoint (R505). -/
def Obligations.LiveWriteActs : Prop :=
  ∀ (i : Instr) (s : State) (o : Origin) (r : RegRow) (a v : Nat),
    liveTarget i = some (o, a, v) → s.dev.meetsChecks r a v →
    s.dev.liveFault o r a (s.dev.inHand a) (s.dev.liveWord r a v) = none →
    let w := s.dev.liveWord r a v
    (∀ l : LaneId, a = laneReg l Reg.ingLcfg → r.cls = 64 → s.dev.laneState l ≠ lsDisabled → fieldOf w Fld.ingLcfgAdminOff = 1 →
      Gives i s fun d => d.laneState l = lsOffline ∧ (d.lane l).buf = [] ∧ d.rd a = w % 2 ^ 32) ∧
    (∀ l : LaneId, a = laneReg l Reg.ingLcfg → r.cls = 64 → s.dev.laneState l = lsOffline → fieldOf w Fld.ingLcfgAdminOff = 0 →
      bitAt (s.dev.rd Reg.clkGated) (if l.val < 64 then l.val / 16 else 4 + (l.val - 64) / 4) = false →
      Gives i s fun d => d.laneState l = lsHunt ∧ d.fld (laneReg l Reg.ingLstate) Fld.ingLstateFails = 0 ∧
        d.fld (laneReg l Reg.ingLstate) Fld.ingLstateDown = 0 ∧ d.rd a = w % 2 ^ 32) ∧
    (r.cls = 256 → Gives i s fun d =>
      let tA := ceilDiv s.dev.net16 65536
      let n := ceilDiv (tA + 1000) s.dev.tev - 1
      d.timeState = tsPaused ∧ d.jumpPending = false ∧ d.tms.jump = some ⟨tA, some n, s.dev.relTime n + 1000⟩) ∧
    (∀ g : Fin 64, a = Reg.scrCtxsel g.val → r.cls = 8 → w % 4 ≠ (s.dev.grp g.val).ctx → Gives i s fun d =>
      (d.grp g.val).req = some ⟨w % 4, false, false, none⟩) ∧
    (∀ n : Fin 2, a = Reg.auxCtl n.val → r.base = Reg.auxCtl 0 → r.cls = 2048 → Gives i s fun d =>
      d.rd a = w % 2 ^ 32 ∧
      d.fld (Reg.auxStat n.val) Fld.auxStatRamping =
        bit01 (decide (s.dev.fld (Reg.auxStat n.val) Fld.auxStatDivNow ≠ bitsOf w 0 8))) ∧
    (a = Reg.pwrPin → r.cls = 2048 → bitsOf w 0 1 = 1 → s.dev.raising = false → Gives i s fun d =>
      d.rd a = w % 2 ^ 32 ∧ d.pinned = true ∧ d.tracking = false)

/-- Mark generators under live writes in effect (R350, R351): MODE other than OFF arms the generator from its first mark after the last one it
emitted, and counts those before as skipped; OFF stops it, after a mark that is due; and the other parameters take their value. -/
def Obligations.MarkWrites : Prop :=
  ∀ (s : State) (o : Origin) (g : Fin 16) (r : RegRow) (v : Word), s.dev.timeState ≠ tsPaused → r.cls = 512 →
    let a := Reg.mkCtl g.val
    let gen := s.dev.gen g.val
    let logs := [Reg.logLost, Reg.logMirrorLost]
    (s.dev.meetsChecks r a v.toNat → s.dev.liveFault o r a (s.dev.inHand a) (s.dev.liveWord r a v.toNat) = none →
      let w := s.dev.liveWord r a v.toNat
      (w % 4 ≠ 0 → (∀ t, gen.lastMark = some t → t < s.dev.mkStart g.val) → Gives (.mkModeArm o g v) s fun d =>
        d.gen g.val = { gen with armed := true, mode := w % 4, k := 0, kSent := 0 } ∧
        d.rd a = w % 2 ^ 32 ∧ d.rd (Reg.mkNext g.val) = 0 ∧
        s.dev.regsBut (a :: Reg.mkNext g.val :: logs) d ∧ s.dev.keepsBut [.regs, .log, .tms] d) ∧
      (∀ t, w % 4 = 3 → gen.lastMark = some t → s.dev.mkStart g.val ≤ t → Gives (.mkModeArm o g v) s fun d =>
        let n := (t - s.dev.mkStart g.val) / s.dev.mkPeriod g.val + 1
        d.gen g.val = { gen with armed := true, mode := 3, k := n, kSent := n } ∧
        d.rd (Reg.mkSkipped g.val) = satInc 32 n (s.dev.rd (Reg.mkSkipped g.val)) ∧
        s.dev.regsBut (a :: Reg.mkNext g.val :: Reg.mkSkipped g.val :: logs) d ∧ s.dev.keepsBut [.regs, .log, .tms] d) ∧
      (w % 4 = 0 → gen.armed = false ∨ s.dev.net16 < s.dev.markTime g.val gen.k → Gives (.mkModeOff o g v) s fun d =>
        d.gen g.val = { gen with armed := false, kSent := gen.k } ∧ d.rd a = w % 2 ^ 32 ∧
        s.dev.regsBut (a :: logs) d ∧ s.dev.keepsBut [.regs, .log, .tms] d) ∧
      (w % 4 = 0 → gen.armed = true → s.dev.markTime g.val gen.k ≤ s.dev.net16 → Gives (.mkModeOff o g v) s fun d =>
        (d.gen g.val).armed = false ∧ (d.gen g.val).lastMark = some (s.dev.markTime g.val gen.k) ∧ d.rd a = w % 2 ^ 32 ∧
        d.rd (Reg.mkEmitted g.val) = satInc 32 1 (s.dev.rd (Reg.mkEmitted g.val)) ∧
        (s.dev.flag a Fld.mkCtlPinEn = true →
          d.outbox = .tmarkEdge g.val (!s.dev.flag a Fld.mkCtlInvert) (s.dev.markTime g.val gen.k) :: s.dev.outbox) ∧
        s.dev.regsBut (a :: Reg.mkEmitted g.val :: Reg.mkNext g.val :: logs) d ∧
        s.dev.keepsBut [.regs, .log, .outbox, .tms] d)) ∧
    (∀ q : MarkParam, q ≠ .ctl → s.dev.meetsChecks r (markAddr g.val q) v.toNat →
      s.dev.liveFault o r (markAddr g.val q) (s.dev.inHand (markAddr g.val q)) (s.dev.liveWord r (markAddr g.val q) v.toNat) = none →
      Gives (.mkParamWrite o g q v) s fun d =>
        d.rd (markAddr g.val q) = s.dev.liveWord r (markAddr g.val q) v.toNat % 2 ^ 32 ∧
        s.dev.regsBut (markAddr g.val q :: logs) d ∧ s.dev.keepsBut [.regs, .log] d)

/-- The register of a host ring: an accepted write that sets ENABLE on a disabled ring takes the settings and starts the ring at count 0, and
one that clears it on an enabled ring stops the ring (R376). -/
def Obligations.HostRingEnable : Prop :=
  ∀ (s : State) (o : Origin) (k : Fin 32) (v : Word) (r : RegRow), s.dev.inReset = false → s.dev.mode ≠ 3 →
    regRow (Reg.hrCfg k.val) = some r → r.base = Reg.hrCfg 0 → r.lv = 1 →
    let a := Reg.hrCfg k.val
    let old := s.dev.rd a
    let set := (old &&& (2 ^ 32 - 1 - r.rw)) ||| (v.toNat &&& r.rw)
    (s.dev.hrOn k.val = false → s.dev.liveFault o r a old (withLv r.lv set v.toNat) = none →
      withLv r.lv set v.toNat % 2 = 1 →
      Gives (.hrEnableWrite o k v) s fun d =>
        d.rd a = withLv r.lv set v.toNat % 2 ^ 32 ∧ d.hrState k.val = 1 ∧ d.rd (Reg.hrProduce k.val) = 0 ∧
        d.rd (Reg.hrConsume k.val) = 0) ∧
    (s.dev.hrOn k.val = true → s.dev.liveFault o r a old (withLv r.lv old v.toNat) = none →
      withLv r.lv old v.toNat % 2 = 0 → v.toNat &&& r.rw = old &&& r.rw →
      Gives (.hrEnableWrite o k v) s fun d =>
        d.rd a = withLv r.lv old v.toNat % 2 ^ 32 ∧ d.hrState k.val = 0 ∧ (d.hring k.val).desc = none)

/-- Requests that wait for an answer of their own: a gate request for receivers waits for their interface (R485), an attestation request for
its report (R408), and an operation of the flash bridge for the flash (R495). -/
def Obligations.RequestsWait : Prop :=
  (∀ (s : State) (o : Origin) (v : Word) (r : RegRow) (b : Nat), s.dev.inReset = false → s.dev.mode ≠ 3 →
    regRow Reg.clkGate = some r → r.lv ≠ 0 → s.dev.unitFitted Reg.clkGate = true →
    s.dev.liveFault o r Reg.clkGate (s.dev.inHand Reg.clkGate) (s.dev.liveWord r Reg.clkGate v.toNat) = none →
    let w := s.dev.liveWord r Reg.clkGate v.toNat
    (List.range 12).find? (fun b => bitAt w b != bitAt (s.dev.rd Reg.clkGate) b) = some b → b < 10 → bitAt w b = true →
    Gives (.clkGateWrite o v) s fun d =>
      d.clk.gates = s.dev.clk.gates ++ [⟨gateOfBit b, s.dev.devNs, some (o, s.dev.rd Reg.clkGate, w)⟩] ∧
      d.rd Reg.clkGate = s.dev.rd Reg.clkGate ∧ s.dev.keepsBut [.clk] d) ∧
  (∀ (s : State) (o : Origin), s.dev.inReset = false → s.dev.log.opened = true →
    s.dev.flag Reg.undAttCtl Fld.undAttCtlBusy = false →
    Gives (.attestationRequest o) s fun d =>
      d.boot.att = some s.dev.reportBody ∧ d.flag Reg.undAttCtl Fld.undAttCtlBusy = true ∧
      s.dev.regsBut [Reg.undAttCtl] d ∧ s.dev.keepsBut [.regs, .boot] d) ∧
  (∀ (s : State) (o : Origin) (len : Byte), s.dev.inReset = false → o.cls = .hmb → s.dev.mode ≠ 3 →
    s.dev.flag Reg.hmbFlCtl Fld.hmbFlCtlBusy = false →
    let step := s.dev.fld Reg.bootStat Fld.bootStatStep
    let after : Nat → Nat → Dev → Prop := fun op n d =>
      d.flag Reg.hmbFlCtl Fld.hmbFlCtlBusy = true ∧
      d.pwr.flashOp = some ⟨op, s.dev.rd Reg.hmbFlAddr, n, s.dev.pageBuf, decide (5 ≤ step ∧ step ≤ 7)⟩ ∧
      s.dev.regsBut [Reg.hmbFlCtl] d ∧ s.dev.keepsBut [.regs, .pwr] d
    Gives (.flashRead o len) s (after 0 (len.toNat + 1)) ∧ Gives (.flashProgram o len) s (after 1 (len.toNat + 1)) ∧
    Gives (.flashErase64k o) s (after 2 1))

/-- Reads of a value that spans registers (R12): the lowest register captures the whole value for the origin; the others answer from the
origin's capture, or with their current value while it has none. A register that stands alone answers with its current value. -/
def Obligations.SpanReads : Prop :=
  ∀ (s : State) (o : Origin) (w : BitVec 24), s.dev.inReset = false → w.toNat / 4 * 4 ≠ Reg.logWrresult →
    let a := w.toNat / 4 * 4
    let low := (spanOf a).1
    let n := (spanOf a).2
    let held := s.dev.caps.find? fun c => decide (c.origin = o ∧ c.low = low)
    let answers : Nat → List Captured → Prop := fun v caps => Gives (.multiRegisterRead o w) s fun d =>
      d.outbox = .windowData (BitVec.ofNat 32 v) :: s.dev.outbox ∧ d.caps = caps ∧ s.dev.keepsBut [.caps, .outbox] d
    (n = 1 → answers (s.dev.peek a) s.dev.caps) ∧
    (n ≠ 1 → a = low → answers (s.dev.peek a) (⟨o, low, (List.range n).map fun i => s.dev.peek (low + 4 * i)⟩ ::
      s.dev.caps.filter fun c => decide (c.origin ≠ o ∨ c.low ≠ low))) ∧
    (n ≠ 1 → a ≠ low → ∀ c, held = some c → answers (c.words.getD ((a - low) / 4) 0) s.dev.caps) ∧
    (n ≠ 1 → a ≠ low → held = none → answers (s.dev.peek a) s.dev.caps)

/-- Writes with rules of their own: a write of 1 clears a bit of CLK_LOSS, and a bit that hardware sets in the same access reads 1 (R10);
LOG_FWD takes the anchor's origin WREQ, and any other write of it is dropped and logged (R8, R413). -/
def Obligations.SpecialWrites : Prop :=
  (∀ (s : State) (o : Origin) (v : Word) (hw : BitVec 18), s.dev.inReset = false → s.dev.mode ≠ 3 →
    Gives (.clkLossClear o v hw) s fun d =>
      (∀ i < 18, bitAt (d.rd Reg.clkLoss) i = (bitAt hw.toNat i || (bitAt (s.dev.rd Reg.clkLoss) i && !bitAt v.toNat i))) ∧
      s.dev.regsBut [Reg.clkLoss] d ∧ s.dev.keepsBut [.regs] d) ∧
  (∀ (s : State) (o : Origin) (v : Word), s.dev.inReset = false →
    Gives (.logFwdWrite true o v) s fun d =>
      d.rd Reg.logFwd = v.toNat % 2 ^ 16 ∧ s.dev.regsBut [Reg.logFwd] d ∧ s.dev.keepsBut [.regs] d) ∧
  (∀ (s : State) (o : Origin) (v : Word), s.dev.inReset = false → (s.dev.logMandatory && s.dev.logFull) = false →
    Gives (.logFwdWrite false o v) s fun d =>
      d.rd Reg.logFwd = s.dev.rd Reg.logFwd ∧
      s.dev.log.gains d.log o Reg.logFwd (s.dev.peek Reg.logFwd) v.toNat .refused ∧
      s.dev.regsBut [Reg.logLost, Reg.logMirrorLost] d ∧ s.dev.keepsBut [.regs, .log] d)

/-- Inputs qualify once their windows show the band and the stability of Table 14.1 (R471): the bit of the input in CLK_STAT is set; REFA and
REFB qualified and more than 500 ppm apart set REF_DISAGREE (R473; ppm of REFA, log entry 68);
REFCLK and a selected TIMEOSC qualify once SYS has locked; and TIME moves to TIMEOSC when it qualifies, or qualifies again after a loss,
which clears TIMEOSC_LOST (R479, R323). A qualified input is lost (R475, R477, R478, R479): its bit in CLK_STAT is cleared, the loss is
counted and logged with origin INTERNAL and object CLK_STAT; the loops that use it are not locked and coast; the other of REFA and REFB,
if qualified, becomes the reference in use; and TIME leaves a lost TIMEOSC, which sets TIMEOSC_LOST. A loop that has its reference again
locks to it. -/
def Obligations.References : Prop :=
  ((∀ (s : State) (counts : List Nat), s.dev.alive = true →
     let sel := s.dev.fld Reg.clkCfg Fld.clkCfgTimeoscSel
     let apart : Nat → Nat → Bool := fun a b => decide (1000500 * b < 1000000 * a ∨ 1000000 * a < 999500 * b)
     (∀ r, windowsOk r sel counts = false → Gives (.referenceQualified r counts) s fun d => d = s.dev) ∧
     (windowsOk .refA sel counts = true → Gives (.referenceQualified .refA counts) s fun d =>
       d.flag Reg.clkStat Fld.clkStatRefaQ = true ∧
       d.flag Reg.clkStat Fld.clkStatRefDisagree = (s.dev.flag Reg.clkStat Fld.clkStatRefDisagree ||
         (s.dev.flag Reg.clkStat Fld.clkStatRefbQ && apart counts.sum s.dev.boot.refSums.2)) ∧
       d.boot = { s.dev.boot with refSums := (counts.sum, s.dev.boot.refSums.2) } ∧
       s.dev.regsBut [Reg.clkStat] d ∧ s.dev.keepsBut [.regs, .boot] d) ∧
     (windowsOk .refB sel counts = true → Gives (.referenceQualified .refB counts) s fun d =>
       d.flag Reg.clkStat Fld.clkStatRefbQ = true ∧
       d.flag Reg.clkStat Fld.clkStatRefDisagree = (s.dev.flag Reg.clkStat Fld.clkStatRefDisagree ||
         (s.dev.flag Reg.clkStat Fld.clkStatRefaQ && apart s.dev.boot.refSums.1 counts.sum)) ∧
       d.boot = { s.dev.boot with refSums := (s.dev.boot.refSums.1, counts.sum), refbAt := some s.dev.devNs } ∧
       s.dev.regsBut [Reg.clkStat] d ∧ s.dev.keepsBut [.regs, .boot] d) ∧
     (windowsOk .refClk sel counts = true → s.dev.locked 0 = true → Gives (.referenceQualified .refClk counts) s fun d =>
       d.flag Reg.clkStat Fld.clkStatRefclkQ = true ∧ s.dev.regsBut [Reg.clkStat] d ∧ s.dev.keepsBut [.regs] d) ∧
     (windowsOk .timeOsc sel counts = true → s.dev.locked 0 = true → sel = 1 ∨ sel = 2 →
       Gives (.referenceQualified .timeOsc counts) s fun d =>
       d.flag Reg.clkStat Fld.clkStatTimeoscQ = true ∧
       d.flag Reg.clkStat Fld.clkStatTimeOnOsc = (s.dev.flag Reg.clkStat Fld.clkStatTimeOnOsc ||
         (!bitAt (s.dev.rd Reg.tmsStat) 5 && !s.dev.loopFailed 1)) ∧
       s.dev.regsBut [Reg.clkStat, Reg.tmsStat] d ∧ s.dev.keepsBut [.regs] d)) ∧
   (∀ (s : State), s.dev.alive = true → bitAt (s.dev.rd Reg.tmsStat) 5 = true →
     s.dev.flag Reg.clkStat Fld.clkStatTimeoscQ = true → s.dev.loopFailed 1 = false →
     s.dev.flag Reg.clkStat Fld.clkStatTimeOnOsc = false →
     Gives .timeoscRequalified s fun d =>
       d.flag Reg.clkStat Fld.clkStatTimeOnOsc = true ∧ bitAt (d.rd Reg.tmsStat) 5 = false ∧
       s.dev.regsBut [Reg.clkStat, Reg.tmsStat] d ∧ s.dev.keepsBut [.regs] d)) ∧
  ((∀ (s : State) (r : RefInput), s.dev.alive = true → bitAt (s.dev.rd Reg.clkStat) (refBit r) = true →
     let uses : Nat → Prop := fun i => match r with
       | .refClk => i = 6
       | .timeOsc => i = 1 ∧ s.dev.flag Reg.clkStat Fld.clkStatTimeOnOsc = true
       | _ => s.dev.fld Reg.clkStat Fld.clkStatRefInUse = refBit r ∧ s.dev.onRef i = true
     Gives (.referenceLost r) s fun d =>
       bitAt (d.rd Reg.clkStat) (refBit r) = false ∧
       d.rd Reg.clkRefLoss = satInc 32 1 (s.dev.rd Reg.clkRefLoss) ∧
       s.dev.log.gains d.log (internalOrigin Reg.clkStat) Reg.clkStat (s.dev.rd Reg.clkStat)
         (putBit (s.dev.rd Reg.clkStat) (refBit r) false % 2 ^ 32) .ok ∧
       (∀ i < 18, uses i → d.locked i = false ∧ (s.dev.locked i = true → i ∈ d.clk.coasting)) ∧
       (∀ i < 18, ¬ uses i → d.locked i = s.dev.locked i) ∧
       (refBit r < 2 → s.dev.fld Reg.clkStat Fld.clkStatRefInUse = refBit r →
         bitAt (s.dev.rd Reg.clkStat) (1 - refBit r) = true → d.fld Reg.clkStat Fld.clkStatRefInUse = 1 - refBit r) ∧
       (r = .timeOsc → s.dev.flag Reg.clkStat Fld.clkStatTimeOnOsc = true →
         d.flag Reg.clkStat Fld.clkStatTimeOnOsc = false ∧ bitAt (d.rd Reg.tmsStat) 5 = true) ∧
       s.dev.keepsBut [.regs, .log, .ing, .tms, .clk] d) ∧
   (∀ (s : State) (i : Fin 18), s.dev.alive = true → s.dev.clk.coasting.contains i.val = true → s.dev.refGood i.val = true →
     Gives (.relock i) s fun d =>
       d.locked i.val = true ∧ i.val ∉ d.clk.coasting ∧ (∀ j < 18, j ≠ i.val → d.locked j = s.dev.locked j) ∧
       s.dev.regsBut [Reg.clkLock] d ∧ s.dev.keepsBut [.regs, .clk] d))

/-- Loops at step 3 (R476): a loop of a fitted unit whose reference is qualified locks, and SYS starts the move of XMAIN (R483); 10 ms after
the step began every loop of a fitted unit that has not locked is failed, and SYS failed puts the device in FAULT. -/
def Obligations.LoopsLock : Prop :=
  (∀ (s : State) (i : Fin 18), s.dev.alive = true → s.dev.fld Reg.bootStat Fld.bootStatStep = 3 → s.dev.loopFitted i.val = true →
    s.dev.locked i.val = false → s.dev.loopFailed i.val = false → s.dev.refGood i.val = true →
    Gives (.loopLock i) s fun d =>
      d.locked i.val = true ∧ (∀ j < 18, j ≠ i.val → d.locked j = s.dev.locked j) ∧
      (i.val = 0 → d.clk = { s.dev.clk with xmain := { s.dev.clk.xmain with before := true } }) ∧
      (i.val ≠ 0 → d.clk = s.dev.clk) ∧ s.dev.regsBut [Reg.clkLock] d ∧ s.dev.keepsBut [.regs, .clk] d) ∧
  (∀ (s : State), s.dev.alive = true → s.dev.fld Reg.bootStat Fld.bootStatStep = 3 → s.dev.boot.stepAt + 10000000 ≤ s.dev.devNs →
    let late : Nat → Bool := fun i => s.dev.loopFitted i && !s.dev.locked i && !s.dev.loopFailed i
    Gives .loopLockTimeout s fun d =>
      (∀ i < 18, d.loopFailed i = (s.dev.loopFailed i || late i)) ∧ (∀ i < 18, d.locked i = s.dev.locked i) ∧
      (late 0 = true → d.mode = 3) ∧ (late 0 = false → d.mode = s.dev.mode) ∧
      s.dev.keepsBut [.regs, .outbox, .scr, .tms, .pwr] d)

/-- Clock generators (R481 to R483): a divider moves by 1 once it is held for 256 cycles of its output, away from a source that is left until its floor and then toward the
target; AUXCLK ramps toward DIV; and a forced switch is counted and logged, unless an edge of the old source resolves with the last
period. -/
def Obligations.Generators : Prop :=
  (∀ (s : State), s.dev.alive = true →
    let x := s.dev.clk.xmain
    (s.dev.divHeld .xmain = false → Gives (.dividerStep .xmain) s fun d => d = s.dev) ∧
    (256000 * x.div ≤ (s.dev.devNs - x.at_) * (if s.dev.clk.onSys then 1000 else s.dev.clk.ringMhz) →
      Gives (.dividerStep .xmain) s fun d =>
      (x.before = true → x.div < floorDiv s.dev.clk.ringMhz →
        d.clk = { s.dev.clk with xmain := { x with div := x.div + 1, at_ := s.dev.devNs } } ∧ s.dev.keepsBut [.clk] d) ∧
      (x.before = true → floorDiv s.dev.clk.ringMhz ≤ x.div → d.clk.onSys = true ∧
        d.clk.xmain = ⟨floorDiv 1000, 1, false, s.dev.devNs⟩ ∧ d.rd Reg.clkRamps = satInc 32 1 (s.dev.rd Reg.clkRamps)) ∧
      (x.before = false → x.goal < x.div →
        d.clk = { s.dev.clk with xmain := { x with div := x.div - 1, at_ := s.dev.devNs } } ∧ s.dev.keepsBut [.clk] d) ∧
      s.dev.regsBut [Reg.clkRamps] d ∧ s.dev.keepsBut [.regs, .clk] d)) ∧
  (∀ (s : State) (n : Fin 2), s.dev.alive = true →
    let a := Reg.auxStat n.val
    let v := s.dev.fld a Fld.auxStatDivNow
    let goal := s.dev.fld (Reg.auxCtl n.val) Fld.auxCtlDiv
    let since := if n.val = 0 then s.dev.clk.aux0At else s.dev.clk.aux1At
    (s.dev.divHeld (.aux n) = false → Gives (.dividerStep (.aux n)) s fun d => d = s.dev) ∧
    (1024 * v ≤ 10 * (s.dev.devNs - since) → Gives (.dividerStep (.aux n)) s fun d =>
      (v < goal → d.fld a Fld.auxStatDivNow = v + 1) ∧ (goal < v → d.fld a Fld.auxStatDivNow = v - 1) ∧
      (v = goal → d.fld a Fld.auxStatDivNow = v) ∧
      d.flag a Fld.auxStatRamping = decide (d.fld a Fld.auxStatDivNow ≠ goal) ∧
      (if n.val = 0 then d.clk.aux0At else d.clk.aux1At) = s.dev.devNs ∧ s.dev.regsBut [a] d ∧ s.dev.keepsBut [.regs, .clk] d)) ∧
  (∀ (s : State), s.dev.alive = true →
    Gives (.forcedSwitch true false) s (fun d => d = s.dev) ∧
    Gives (.forcedSwitch false true) s (fun d =>
      d.rd Reg.clkLateArrival = (if s.dev.clk.forced then satInc 32 1 (s.dev.rd Reg.clkLateArrival) else s.dev.rd Reg.clkLateArrival) ∧
      s.dev.regsBut [Reg.clkLateArrival] d ∧ s.dev.keepsBut [.regs] d)) ∧
  (∀ (s : State), s.dev.alive = true → (s.dev.clk.xmain.before || s.dev.clk.onSys) = true →
    Gives (.forcedSwitch false false) s fun d =>
      d.clk.onSys = s.dev.clk.xmain.before ∧ d.clk.forced = true ∧
      d.rd Reg.clkForced = satInc 32 1 (s.dev.rd Reg.clkForced) ∧ d.rd Reg.clkRamps = satInc 32 1 (s.dev.rd Reg.clkRamps) ∧
      s.dev.log.gains d.log (internalOrigin Reg.clkStat) Reg.clkStat (s.dev.rd Reg.clkStat) (s.dev.rd Reg.clkStat) .switchForced ∧
      s.dev.regsBut [Reg.clkForced, Reg.clkRamps, Reg.logLost, Reg.logMirrorLost] d ∧ s.dev.keepsBut [.regs, .log, .clk] d)

/-- Gates (R484 to R488): the acknowledgement of a target's interface puts its request into effect, its lanes OFFLINE, and logs the write that
asked for it; an acknowledgement without a request is counted; a request without an acknowledgement for 4,096 ns is refused, counted and
logged, unless one resolves with the expiry (R34); and a refused request of the HPC is made again after a second. -/
def Obligations.Gates : Prop :=
  (∀ (s : State) (t : GateTarget) (x : GateReq), s.dev.alive = true →
    (s.dev.clk.gates.filter fun y => decide (y.target = t)) = [x] →
    Gives (.quiesceAck t) s fun d =>
      bitAt (d.rd (gateReg t).1) (gateReg t).2 = true ∧
      d.clk.gates = (s.dev.clk.gates.filter fun y => decide (y.target ≠ t)) ∧
      d.clk.retries = (s.dev.clk.retries.filter fun y => decide (y.target ≠ t)) ∧
      (∀ b, liveGate t = some b → ∀ l ∈ gateLanes b, s.dev.laneState l ≠ lsDisabled → d.laneState l = lsOffline) ∧
      (∀ b w, liveGate t = some b → x.live = some w → bitAt (d.rd Reg.clkGate) b = true ∧
        s.dev.log.gains d.log w.1 Reg.clkGate (s.dev.rd Reg.clkGate) (putBit (s.dev.rd Reg.clkGate) b true % 2 ^ 32) .ok) ∧
      s.dev.keepsBut [.regs, .log, .outbox, .ing, .clk] d) ∧
  (∀ (s : State) (t : GateTarget), s.dev.alive = true →
    (s.dev.clk.gates.filter fun y => decide (y.target = t)) = [] →
    Gives (.quiesceAck t) s fun d =>
      d.rd Reg.clkLateArrival = satInc 32 1 (s.dev.rd Reg.clkLateArrival) ∧ s.dev.regsBut [Reg.clkLateArrival] d ∧
      s.dev.keepsBut [.regs] d) ∧
  (∀ (s : State) (t : GateTarget) (x : GateReq), s.dev.alive = true → (s.dev.logMandatory && s.dev.logFull) = false →
    (s.dev.clk.gates.filter fun y => decide (y.target = t) && decide (y.since + 4096 ≤ s.dev.devNs)) = [x] →
    Gives (.gateTimeout t false) s fun d =>
      d.clk.gates = (s.dev.clk.gates.filter fun y => !(decide (y.target = t) && decide (y.since + 4096 ≤ s.dev.devNs))) ∧
      d.rd Reg.clkGateRefused = satInc 32 1 (s.dev.rd Reg.clkGateRefused) ∧
      (∀ w, x.live = some w → s.dev.log.gains d.log w.1 Reg.clkGate (s.dev.rd Reg.clkGate) w.2.2 .gateRefused) ∧
      (x.live = none → ⟨x.target, s.dev.devNs⟩ ∈ d.clk.retries ∧
        ((∀ y ∈ s.dev.clk.retries, y.target ≠ x.target) →
          s.dev.log.gains d.log (internalOrigin (gateReg x.target).1) (gateReg x.target).1 (s.dev.rd (gateReg x.target).1)
            (s.dev.rd (gateReg x.target).1) .gateRefused)) ∧
      s.dev.keepsBut [.regs, .log, .outbox, .clk] d) ∧
  (∀ (s : State) (t : GateTarget), s.dev.alive = true → Gives (.gateTimeout t true) s fun d => d = s.dev) ∧
  (∀ (s : State) (t : GateTarget) (x : GateRetry), s.dev.alive = true → x ∈ s.dev.clk.retries → x.target = t →
    x.at_ + 1000000000 ≤ s.dev.devNs → (∀ y ∈ s.dev.clk.gates, y.target ≠ t) →
    Gives (.hpcGateRetry t) s fun d =>
      d.clk = { s.dev.clk with gates := s.dev.clk.gates ++ [⟨t, s.dev.devNs, none⟩] } ∧ s.dev.keepsBut [.clk] d)

/-- Reset (R512 to R515): with POR_N or DEV_RST_N low, or a watched rail low, the device is in reset with every register at its reset word but
PWR_DOM_ON, and every other part at its value after reset but the part's identity, the flash, the fuses, the ring oscillator and the
sampled pins. Release from reset (R510, R512 to R515): once POR_N, DEV_RST_N and the rails all let it, device time starts at 0 with
XMAIN's domain on and the device's id from GID, which is sampled at the release of POR_N and at the recovery of the rails; TEST_EN high
then puts the device in FAULT. -/
def Obligations.ResetAndRelease : Prop :=
  (∀ (s : State) (i : Instr) (p : PwrSt), s.dev.inReset = false → s.dev.pwr.flashOp = none →
     ((i = .porAssert .porN ∧ p = { s.dev.pwr with porLow := true }) ∨
      (i = .porAssert .devRstN ∧ p = { s.dev.pwr with devRstLow := true }) ∨
      (i = .railUndervoltage ∧ p = { s.dev.pwr with railLow := true })) →
     Gives i s fun d =>
       d.inReset = true ∧ (∀ a, a ≠ Reg.pwrDomOnLo → d.rd a = resetWord a) ∧ d.rd Reg.pwrDomOnLo = 0 ∧
       d.part = s.dev.part ∧ d.step = s.dev.step ∧ d.gid = s.dev.gid ∧ d.testEn = s.dev.testEn ∧
       d.boot = { Dev.init.boot with
         flash := s.dev.boot.flash, flashLen := s.dev.boot.flashLen, und := s.dev.boot.und, undOdd := s.dev.boot.undOdd } ∧
       d.clk = { Dev.init.clk with ringMhz := s.dev.clk.ringMhz } ∧
       d.pwr = { Dev.init.pwr with railLow := p.railLow, porLow := p.porLow, devRstLow := p.devRstLow } ∧
       Dev.init.keepsBut [.regs, .part, .step, .gid, .testEn, .freeCtr, .outbox, .boot, .clk, .pwr] d) ∧
  (∀ (s : State) (i : Instr) (gid : BitVec 6) (te : Bool), s.dev.inReset = true →
     ((i = .porRelease gid te ∧ s.dev.pwr.porLow = true ∧ s.dev.pwr.devRstLow = false ∧ s.dev.pwr.railLow = false) ∨
      (i = .railRecovery gid te ∧ s.dev.pwr.railLow = true ∧ s.dev.pwr.porLow = false ∧ s.dev.pwr.devRstLow = false) ∨
      (i = .devRstRelease ∧ gid = s.dev.gid ∧ te = s.dev.testEn ∧ s.dev.pwr.devRstLow = true ∧ s.dev.pwr.porLow = false ∧
        s.dev.pwr.railLow = false)) →
     Gives i s fun d =>
       d.inReset = false ∧ d.devNs = 0 ∧ d.gid = gid ∧ d.testEn = te ∧
       d.pwr.porLow = false ∧ d.pwr.devRstLow = false ∧ d.pwr.railLow = false ∧
       d.rd Reg.pwrDomOnLo = 1 ∧ d.fld Reg.mshId Fld.mshIdDeviceId = gid.toNat ∧
       d.mode = (if te then 3 else s.dev.mode) ∧
       s.dev.regsBut [Reg.pwrDomOnLo, Reg.mshId, Reg.bootStat, Reg.glbState] d ∧
       s.dev.keepsBut [.regs, .gid, .testEn, .devNs, .inReset, .pwr] d)

/-- Temperatures (R500; Table 14.10): the readings stand in PWR_DIE, STK_TEMP and CH_TEMP of fitted units, with the rails and the power; OVERTEMP is set at 110 °C on any die and cleared
when every die is below 105 °C; and 120 °C on any die puts the device in FAULT. A domain that reports power good leaves the list of the
domains due, and the next one switches on (R498). -/
def Obligations.TemperatureAndPower : Prop :=
  (∀ (s : State) (dies stks mods : List Byte) (rails : List (BitVec 10)) (watts : BitVec 16), s.dev.alive = true →
    let read : Nat → Byte → Prop := fun i t => i < 5 ∧ (i = 4 ∨ s.dev.fusedFit i = true) ∧ dies[i]? = some t
    Gives (.temperatureRead dies stks mods rails watts) s fun d =>
      (∀ i < 5, ∀ v, (i = 4 ∨ s.dev.fusedFit i = true) → rails[i]? = some v → d.fld (Reg.pwrDie i) Fld.pwrDieVmeasMv = v.toNat) ∧
      d.fld Reg.pwrWatts Fld.pwrWattsWatts = watts.toNat ∧
      (∀ i t, read i t → d.fld (Reg.pwrDie i) Fld.pwrDieTjC = t.toNat) ∧
      (∀ i < 12, ∀ t, stks[i]? = some t → s.dev.fit (stackFitBit i) = true → d.fld (Reg.stkTemp i) Fld.stkTempDegC = t.toNat) ∧
      (∀ i < 8, ∀ t, mods[i]? = some t → s.dev.fit (16 + i) = true → d.fld (Reg.chTemp i) Fld.chTempDegC = t.toNat) ∧
      ((∃ i t, read i t ∧ 110 ≤ t.toNat) → d.flag Reg.pwrStat Fld.pwrStatOvertemp = true) ∧
      ((∃ i t, read i t) → (∀ i t, read i t → t.toNat < 105) → d.flag Reg.pwrStat Fld.pwrStatOvertemp = false) ∧
      ((∀ i t, read i t → t.toNat < 110) → (∃ i t, read i t ∧ 105 ≤ t.toNat) →
        d.flag Reg.pwrStat Fld.pwrStatOvertemp = s.dev.flag Reg.pwrStat Fld.pwrStatOvertemp) ∧
      ((∃ i t, read i t ∧ 120 ≤ t.toNat) → d.mode = 3) ∧
      ((∀ i t, read i t → t.toNat < 120) → d.mode = s.dev.mode) ∧
      s.dev.keepsBut [.regs, .log, .outbox, .scr, .tms, .pwr] d) ∧
  (∀ (s : State) (k : Nat) (ks : List Nat), s.dev.alive = true → s.dev.pwr.due = k :: ks →
    Gives .domainPowerGood s fun d =>
      d.pwr = { s.dev.pwr with due := ks } ∧
      (∀ j js, ks = j :: js → j < 36 →
        bitAt (d.rd (if j < 32 then Reg.pwrDomOnLo else Reg.pwrDomOnHi)) (j % 32) = true) ∧ (ks = [] → d.regs = s.dev.regs) ∧
      s.dev.regsBut [Reg.pwrDomOnLo, Reg.pwrDomOnHi] d ∧ s.dev.keepsBut [.regs, .pwr] d)

/-- Wear windows (R467, R468): at the end of a window of 1 s the next begins; a unit whose counter has risen by more than 2^x in each of
WINDOWS windows in a row raises a warning, once, with its bit, the flag and the count. -/
def Obligations.WearWindows : Prop :=
  ∀ (s : State) (t : Nat), s.dev.alive = true → s.dev.wear.start = some t → t + 1000000000 ≤ s.dev.devNs →
    Gives .wearWindow s fun d =>
      d.wear.start = some (t + 1000000000) ∧
      (∀ u ∈ s.dev.wearUnits,
        let rise := s.dev.rd u.ctr - SMap.get (fun _ => 0) s.dev.wear.base u.ctr
        let run := if 2 ^ u.x < rise then SMap.get (fun _ => 0) s.dev.wear.runs u.ctr + 1 else 0
        let warns := s.dev.fld Reg.glbWearCfg1 Fld.glbWearCfg1Windows ≤ run ∧ 0 < run
        SMap.get (fun _ => 0) d.wear.base u.ctr = s.dev.rd u.ctr ∧ SMap.get (fun _ => 0) d.wear.runs u.ctr = run ∧
        (u.ctr ∈ d.wear.warned ↔ u.ctr ∈ s.dev.wear.warned ∨ warns) ∧
        (warns → u.ctr ∉ s.dev.wear.warned → d.flag Reg.glbState Fld.glbStateWear = true)) ∧
      s.dev.keepsBut [.regs, .log, .wear] d

/-- Requests on the management bus (R491, R493, R524): a request whose check code or OP is wrong is refused and counted; one for this device
is a register access with the requester's HMB origin; one for another device is refused by a device that is not the anchor; and after
4,096 WAIT clocks the oldest forwarded read still waiting gets no answer. -/
def Obligations.ManagementBus : Prop :=
  (∀ (s : State) (req : BitVec 4) (dv : BitVec 6) (op : BitVec 2) (ofs : BitVec 24) (v : Word) (chk : Byte),
    s.dev.inReset = false →
    let good := op.toNat < 2 ∧ chk.toNat = requestCheck req.toNat dv.toNat op.toNat ofs.toNat v.toNat
    let o : Origin := ⟨.hmb, BitVec.ofNat 12 req.toNat⟩
    let r := s.dev.busRead o ofs.toNat
    let w := s.dev.busWrite o ofs.toNat v.toNat
    Gives (.mgtRequest req dv op ofs v chk) s fun d =>
      (¬ good → d.outbox = .mgtResponse Status.refused.code none :: s.dev.outbox ∧
        d.rd Reg.hmbBadFrame = satInc 32 1 (s.dev.rd Reg.hmbBadFrame) ∧ s.dev.regsBut [Reg.hmbBadFrame] d ∧
        s.dev.keepsBut [.regs, .outbox] d) ∧
      (good → dv = s.dev.gid → op = 0 →
        d.outbox = .mgtResponse (s.dev.readStatus (ofs.toNat / 4 * 4)).code (some (BitVec.ofNat 32 r.1)) :: s.dev.outbox ∧
        d.caps = r.2.caps ∧ s.dev.keepsBut [.caps, .outbox] d) ∧
      (good → dv = s.dev.gid → op = 1 →
        (∀ st, w.2 = some st → d.outbox = .mgtResponse st.code none :: w.1.outbox) ∧ (w.2 = none → d.outbox = w.1.outbox) ∧
        w.1.keepsBut [.outbox] d) ∧
      (good → dv ≠ s.dev.gid → s.dev.isAnchor = false →
        d.outbox = .mgtResponse Status.refused.code none :: s.dev.outbox ∧ s.dev.keepsBut [.outbox] d)) ∧
  (∀ (s : State) (pre post : List FwdRead) (x : FwdRead), s.dev.inReset = false → s.dev.msh.reads = pre ++ x :: post →
    (∀ y ∈ pre, y.waiter ≠ 1) → x.waiter = 1 →
    Gives .mgtWaitExpiry s fun d =>
      d.msh = { s.dev.msh with reads := pre ++ { x with waiter := 2 } :: post } ∧ s.dev.keepsBut [.msh] d)

/-- The end of an operation of the flash bridge (R495, R496): a read fills the page buffer, an erase leaves 64 KiB of ones, an operation begun
between steps 5 and 8 is not carried out, and one past the end of the flash fails; DONE is set, BUSY cleared, and RESULT says which. -/
def Obligations.FlashOperationEnds : Prop :=
  ∀ (s : State) (o : FlashOp), s.dev.inReset = false → s.dev.pwr.flashOp = some o →
    let past := s.dev.boot.flashLen < (if o.op = 0 then o.addr + o.len else o.addr + 1)
    let bytes := flashBytes s.dev.boot.flash o.addr o.len
    let all := bytes ++ s.dev.pageBuf.drop bytes.length
    Gives (.flashOperationDone false) s fun d =>
      d.flag Reg.hmbFlCtl Fld.hmbFlCtlBusy = false ∧ d.flag Reg.hmbFlCtl Fld.hmbFlCtlDone = true ∧
      d.pwr = { s.dev.pwr with flashOp := none } ∧
      d.fld Reg.hmbFlCtl Fld.hmbFlCtlResult = (if o.refused then 1 else if past then 3 else 0) ∧
      (o.refused = true ∨ past → d.boot = s.dev.boot ∧ ∀ i < 64, d.rd (Reg.hmbFlBuf i) = s.dev.rd (Reg.hmbFlBuf i)) ∧
      (o.refused = false → ¬ past → o.op = 0 → d.boot = s.dev.boot ∧ ∀ i < 64, d.rd (Reg.hmbFlBuf i) = leAt all (4 * i) 4 % 2 ^ 32) ∧
      (o.refused = false → ¬ past → 2 ≤ o.op → ∀ a, SMap.get (fun _ => 0xFF) d.boot.flash a =
        if o.addr / 65536 * 65536 ≤ a ∧ a < o.addr / 65536 * 65536 + 65536 then 0xFF else SMap.get (fun _ => 0xFF) s.dev.boot.flash a) ∧
      (o.refused = false → ¬ past → o.op = 1 → o.len ≤ 256 → ∀ a, SMap.get (fun _ => 0xFF) d.boot.flash a =
        match (List.range (o.data.take o.len).length).find? fun i => decide (pageAt o.addr i = a) with
        | some i => SMap.get (fun _ => 0xFF) s.dev.boot.flash a &&& (o.data.take o.len).getD i 0xFF
        | none => SMap.get (fun _ => 0xFF) s.dev.boot.flash a) ∧
      s.dev.keepsBut [.regs, .freeCtr, .boot, .pwr] d

/-- The steps of start-up (R391, R472, R473, R476, R396, R406, R465, R467): each completes when what it waits for is there, and the next begins;
a slot whose header or whose flash fails is rejected, with its reason, and the next is tried from step 5 on (R393); and a device whose FITTED
words or whose X-die spares fail goes to FAULT (Table 11.1). -/
def Obligations.StartUpSteps : Prop :=
  ∀ (s : State) (env : StartEnv), s.dev.alive = true → s.dev.mode = 0 →
    let k := s.dev.stepNo
    let begins : Nat → Dev → Prop := fun j d => d.stepNo = j ∧ d.boot.stepAt = s.dev.devNs ∧ d.mode = 0
    Gives (.startUpStep env) s fun d =>
      (k = 1 → begins 2 d) ∧
      (k = 2 → s.dev.flag Reg.clkStat Fld.clkStatRefaQ = true → begins 3 d ∧ d.fld Reg.clkStat Fld.clkStatRefInUse = 0) ∧
      (k = 2 → s.dev.flag Reg.clkStat Fld.clkStatRefaQ = false → s.dev.flag Reg.clkStat Fld.clkStatRefbQ = true →
        ∀ t, s.dev.boot.refbAt = some t →
          (t + 6710887 ≤ s.dev.devNs → begins 3 d ∧ d.fld Reg.clkStat Fld.clkStatRefInUse = 1) ∧
          (s.dev.devNs < t + 6710887 → d = s.dev)) ∧
      (k = 3 → (∀ i < 18, s.dev.loopFitted i = true → s.dev.locked i = true ∨ s.dev.loopFailed i = true) → begins 4 d) ∧
      (k = 3 → (∃ i < 18, s.dev.loopFitted i = true ∧ s.dev.locked i = false ∧ s.dev.loopFailed i = false) → d = s.dev) ∧
      (k = 4 → ∀ w < 128, d.rd (Reg.undFuse w) = if 40 ≤ w ∧ w < 48 then 0 else s.dev.fuseWord w % 2 ^ 32) ∧
      (k = 4 → env.fittedReadback = true → begins 5 d ∧ d.boot.slot = none ∧ d.log.opened = true ∧
        d.log.written = s.dev.log.written + 1) ∧
      (k = 4 → env.fittedReadback = false → d.mode = 3) ∧
      (k = 5 → s.dev.pwr.flashOp = none → directoryOf s.dev.boot.flash s.dev.boot.flashLen = none → d.mode = 3) ∧
      (k = 5 → s.dev.pwr.flashOp = none → env.flashError = false → ∀ c dir,
        directoryOf s.dev.boot.flash s.dev.boot.flashLen = some (c, dir) →
        (dir.slots.getD (s.dev.boot.slot.getD dir.select) (0, 0)).2 ≠ 0 →
        begins 6 d ∧ d.boot.slot = some (s.dev.boot.slot.getD dir.select) ∧
          d.rd Reg.bootDirseq = (dir.seq % 2 ^ 31 + 2 ^ 31 * c) % 2 ^ 32) ∧
      (k = 6 → ∀ j c dir, s.dev.boot.slot = some j → directoryOf s.dev.boot.flash s.dev.boot.flashLen = some (c, dir) →
        (s.dev.slotFault s.dev.boot.flash dir j env.flashError = none → begins 7 d ∧ d.boot.slot = some j ∧ d.boot.sec = 0) ∧
        (∀ code, s.dev.slotFault s.dev.boot.flash dir j env.flashError = some code → j < 2 → s.dev.rejectsTo j code d)) ∧
      (k = 7 → ∀ i, s.dev.imageIn s.dev.boot.flash = some i →
        (∀ j < 2, env.flashError = true → s.dev.boot.slot = some j → s.dev.rejectsTo j 0x0E d) ∧
        (env.flashError = false → s.dev.step7Done i = false → d = s.dev) ∧
        (env.flashError = false → s.dev.step7Done i = true → env.xdieSparesOk = false → d.mode = 3) ∧
        (env.flashError = false → s.dev.step7Done i = true → env.xdieSparesOk = true →
          d.stepNo = 8 ∨ d.stepNo = 5 ∨ (d.stepNo = 9 ∧ d.boot.safe = true) ∨ d.mode = 3)) ∧
      (k = 8 → (∃ c < 1088, s.dev.coreState c = coLoad) → d = s.dev) ∧
      (k = 8 → (∀ c < 1088, s.dev.coreState c ≠ coLoad) → ∀ j < 3, s.dev.boot.slot = some j →
        ∀ i, s.dev.imageIn s.dev.boot.staged = some i →
        d.stepNo = 9 ∧ d.fld Reg.bootStat Fld.bootStatSlot = j ∧ d.fld Reg.bootReason (reasonFld j) = 1 ∧
          d.rd Reg.bootSections = i.sections_ % 2 ^ 32) ∧
      (k = 9 → s.dev.scr.armed = true → begins 10 d) ∧ (k = 9 → s.dev.scr.armed = false → d = s.dev) ∧
      (10 ≤ k → d.mode = (if s.dev.boot.safe then 2 else 1) ∧ d.flag Reg.glbState Fld.glbStateReady = true ∧
        d.flag Reg.glbState Fld.glbStateFault = s.dev.boot.safe ∧
        d.rd Reg.bootElapsed = s.dev.devNs / 1000000 % 2 ^ 32 ∧ d.wear.start = some s.dev.devNs)

/-- Sections and watchdogs (R404, R392, R393, Table 11.2): the digest of the section in hand, right, moves on to the next; wrong, or 2 s
without an item of steps 5 to 7, rejects the slot, and the other slot or F is tried from step 5 on; a rejected F without an image that
merely does not fit, or a flash without a directory, puts the device in FAULT, and so do 30 s without READY. -/
def Obligations.SectionsAndWatchdogs : Prop :=
  (∀ (s : State) (i : Image), s.dev.alive = true → s.dev.mode = 0 → s.dev.stepNo = 7 → s.dev.imageIn s.dev.boot.flash = some i →
    s.dev.boot.sec < i.sections_ →
    let k := s.dev.boot.sec
    let x := sectAt s.dev.boot.flash i k
    (shake256x32 (sectBytes s.dev.boot.flash i x) = x.digest →
      Gives (.sectionDigest k) s fun d =>
        d.boot = { s.dev.boot with sec := k + 1, itemAt := s.dev.devNs, regsIn := s.dev.boot.regsIn || decide (x.ty = stRegs) } ∧
        (x.ty ≠ stRegs → s.dev.keepsBut [.boot] d) ∧ s.dev.keepsBut [.regs, .log, .ing, .tms, .boot, .clk] d) ∧
    (shake256x32 (sectBytes s.dev.boot.flash i x) ≠ x.digest →
      (∀ j < 2, s.dev.boot.slot = some j → Gives (.sectionDigest k) s (s.dev.rejectsTo j 0x0A)) ∧
      (s.dev.boot.slot = some 2 → s.dev.boot.misfit = none → Gives (.sectionDigest k) s fun d =>
        d.fld Reg.bootReason (reasonFld 2) = 0x0A ∧ d.mode = 3))) ∧
  (∀ (s : State), s.dev.alive = true → s.dev.mode = 0 → s.dev.boot.itemAt + 2000000000 ≤ s.dev.devNs →
    (s.dev.stepNo = 5 ∨ s.dev.stepNo = 6 ∨
      (s.dev.stepNo = 7 ∧ ∃ i, s.dev.imageIn s.dev.boot.flash = some i ∧ s.dev.boot.sec < i.sections_)) →
    (∀ j < 2, s.dev.boot.slot = some j → Gives (.sectionWatchdogExpiry false) s (s.dev.rejectsTo j 0x0C)) ∧
    (s.dev.boot.slot = some 2 → s.dev.boot.misfit = none → Gives (.sectionWatchdogExpiry false) s fun d =>
      d.fld Reg.bootReason (reasonFld 2) = 0x0C ∧ d.mode = 3) ∧
    (∀ c dir, s.dev.boot.slot = none → directoryOf s.dev.boot.flash s.dev.boot.flashLen = some (c, dir) → dir.select < 2 →
      Gives (.sectionWatchdogExpiry false) s (s.dev.rejectsTo dir.select 0x0C)) ∧
    (s.dev.boot.slot = none → directoryOf s.dev.boot.flash s.dev.boot.flashLen = none →
      Gives (.sectionWatchdogExpiry false) s fun d => d.mode = 3)) ∧
  (∀ (s : State), s.dev.alive = true → s.dev.mode = 0 → s.dev.stepNo = 7 →
    (∀ i, s.dev.imageIn s.dev.boot.flash = some i → i.sections_ ≤ s.dev.boot.sec) →
    Gives (.sectionWatchdogExpiry false) s fun d => d = s.dev) ∧
  (∀ (s : State), s.dev.alive = true → Gives (.sectionWatchdogExpiry true) s (fun d => d = s.dev) ∧
    Gives (.bootWatchdogExpiry true) s fun d => d = s.dev) ∧
  (∀ (s : State), s.dev.alive = true → s.dev.mode = 0 →
    30000000000 + (if s.dev.stepNo = 9 ∧ s.dev.lockPolicy = true then s.dev.devNs - s.dev.boot.stepAt else s.dev.boot.waited)
      ≤ s.dev.devNs →
    Gives (.bootWatchdogExpiry false) s fun d =>
      d.mode = 3 ∧ (∀ k < 3, s.dev.boot.slot = some k → d.fld Reg.bootReason (reasonFld k) = 0x0F))

/-- Attestation and checkpoints (R418, R423): a report under signature, once no checkpoint waits for its own, is shown with its signature after
it, VALID set, BUSY cleared, and counted; a whole second of network time that the counter reached by counting, and that no checkpoint has yet,
is logged as one; and its signature is shown, and logged in 15 pieces of 8 bytes. -/
def Obligations.ReportsAndCheckpoints : Prop :=
  (∀ (s : State) (b : List Byte), s.dev.inReset = false → s.dev.boot.att = some b → s.dev.log.ckptOpen = none →
    let all := b ++ takeBytes 192 (ed448Sign s.dev.idPrivate (asciiBytes "ZRT Attest") b)
    Gives .attestationReport s fun d =>
      d.flag Reg.undAttCtl Fld.undAttCtlBusy = false ∧ d.flag Reg.undAttCtl Fld.undAttCtlValid = true ∧
      d.rd Reg.undAttCount = satInc 32 1 (s.dev.rd Reg.undAttCount) ∧
      (∀ j < 128, d.rd (Reg.undAttReport j) = leAt all (4 * j) 4 % 2 ^ 32) ∧
      d.boot = { s.dev.boot with att := none } ∧
      s.dev.regsBut (Reg.undAttCtl :: Reg.undAttCount :: (List.range 128).map Reg.undAttReport) d ∧
      s.dev.keepsBut [.regs, .boot] d) ∧
  (∀ s : State, s.dev.inReset = false → s.dev.boot.att = none ∨ s.dev.log.ckptOpen.isSome = true →
    Gives .attestationReport s fun d => d = s.dev) ∧
  (∀ (s : State), s.dev.inReset = false → s.dev.log.opened = true →
    let sec := s.dev.netNs / 1000000000
    let due := match s.dev.log.ckptSecond with
      | some x => x < sec
      | none => 0 < sec
    let stepped := ∃ p ∈ s.dev.tms.passed, p.1 < sec * 1000000000 * 65536 ∧ sec * 1000000000 * 65536 < p.2
    (due → ¬ stepped → Gives .checkpoint s fun d =>
      s.dev.log.gains d.log (internalOrigin Reg.logCkpt) Reg.logCkpt (s.dev.log.ckptPrev.getD 0xFFFFFFFF) (s.dev.rd Reg.logCkpt + 1) .ok ∧
      d.rd Reg.logCkpt = satInc 32 1 (s.dev.rd Reg.logCkpt) ∧ d.log.ckptSecond = some sec ∧
      d.log.ckptPrev = some (s.dev.log.written % 2 ^ 24) ∧ d.log.ckptOpen.isSome = true ∧
      s.dev.regsBut [Reg.logCkpt, Reg.logLost, Reg.logMirrorLost] d ∧ s.dev.keepsBut [.regs, .log] d) ∧
    (¬ due ∨ stepped → Gives .checkpoint s fun d => d = s.dev)) ∧
  (∀ (s : State) (e : LogEntry), s.dev.inReset = false → s.dev.log.opened = true → s.dev.log.ckptOpen = some e →
    let sig := takeBytes 120 (ed448Sign s.dev.idPrivate (asciiBytes "ZRT Log") e.bytes)
    Gives .checkpointSignature s fun d =>
      (∀ i < 30, d.rd (Reg.logCkptSig i) = leAt sig (4 * i) 4 % 2 ^ 32) ∧ d.log.written = s.dev.log.written + 15 ∧
      (15 ≤ s.dev.log.cap → ∀ k < 15, ∃ x, d.log.entries[14 - k]? = some x ∧ x.origin = internalOrigin (Reg.logCkptSig (2 * k)) ∧
        x.object = Reg.logCkptSig (2 * k) ∧ x.old = leAt sig (8 * k) 4 ∧ x.new = leAt sig (8 * k + 4) 4 ∧
        x.status = Status.ok.code) ∧
      d.log.ckptOpen = none ∧
      s.dev.regsBut (Reg.logLost :: Reg.logMirrorLost :: (List.range 30).map Reg.logCkptSig) d ∧ s.dev.keepsBut [.regs, .log] d)

/-- The mirror, and failures of the log's memories (R424, R425, R462, R464): the oldest unmirrored entry moves to the mirror; a failed row of
the on-die log is out of use with its entries, those unmirrored counted as lost and told in one entry; and a failed staging memory fails
the section loads under way. -/
def Obligations.LogMemories : Prop :=
  (∀ (s : State) (e : LogEntry), s.dev.alive = true → s.dev.log.entries[s.dev.log.held - 1]? = some e → 0 < s.dev.log.held →
    0 < s.dev.mirrorCap → s.dev.upChannels.isEmpty = false →
    let loses := decide (s.dev.mirrorCap ≤ s.dev.log.mirror.length) && s.dev.log.mirror.getLast?.any fun x => decide (s.dev.log.delivered ≤ x.num)
    (loses && s.dev.logMandatory) = false →
    Gives .logMirrorWrite s fun d =>
      d.log.mirror = (e :: s.dev.log.mirror).take s.dev.mirrorCap ∧ d.log.entries = s.dev.log.entries ∧
      d.rd Reg.logMirrorLost = (if loses then satInc 32 1 (s.dev.rd Reg.logMirrorLost) else s.dev.rd Reg.logMirrorLost)) ∧
  (∀ (s : State) (first : BitVec 24) (count : Nat), s.dev.inReset = false → s.dev.log.opened = true →
    let inRow : LogEntry → Bool := fun e => decide ((e.num + 2 ^ 24 - first.toNat) % 2 ^ 24 < count)
    let fresh := s.dev.log.entries.take s.dev.log.held
    let lost := fresh.filter inRow
    Gives (.logMemoryUe .onDieLog first count) s fun d =>
      d.rd Reg.glbXdieUe = satInc 32 1 (s.dev.rd Reg.glbXdieUe) ∧ d.log.cap = s.dev.log.cap - count ∧
      (lost = [] → d.log.entries = (s.dev.log.entries.filter fun e => !inRow e) ∧
        d.rd Reg.logLost = satInc 32 0 (s.dev.rd Reg.logLost)) ∧
      (∀ x y, lost.getLast? = some x → lost.head? = some y → ∃ z, d.log.entries.head? = (if d.log.cap = 0 then none else some z) ∧
        z.object = Reg.logSeq ∧ z.old = x.num % 2 ^ 24 ∧ z.new = y.num % 2 ^ 24 ∧ z.status = Status.degraded.code ∧
        d.log.written = s.dev.log.written + 1)) ∧
  (∀ (s : State) (first : BitVec 24) (count : Nat), s.dev.inReset = false →
    Gives (.logMemoryUe .loaderStaging first count) s fun d =>
      d.rd Reg.glbXdieUe = satInc 32 1 (s.dev.rd Reg.glbXdieUe) ∧
      (∀ g < 64, ∀ i x, (s.dev.grp g).loading = some i → (s.dev.grp g).sections_[i]? = some x →
        (d.grp g).loading = none ∧ (d.grp g).secFailed = true) ∧
      (∀ g < 64, (s.dev.grp g).loading = none → d.grp g = s.dev.grp g) ∧ s.dev.keepsBut [.regs, .fab] d)

/-- Samples (R71, R75, R93, R103, R104, R223): the oldest delivered sample goes to its primitive unit and its ring; a STIPPLE member's sample
is stored when it is the first, or lies further than DEADBAND from the last one stored; a KEEP entry is stored when the member has been
silent for KEEP; a live field of the ring that waits takes effect before the first sample of a new sample position (R114); and a stack writes its oldest waiting row or entry into its
ring, in a slot that the ring writes have (R221). -/
def Obligations.SamplesTaken : Prop :=
  (∀ (s : State) (x : Sample) (rest : List Sample), s.dev.alive = true → s.dev.ing.queue = x :: rest →
    let r := s.dev.fld (Reg.hwkChring x.ch) Fld.hwkChringRing
    Gives .sampleDelivered s fun d =>
      d.ing = { s.dev.ing with queue := rest } ∧
      (s.dev.scr.armed = true → (d.unit x.ch).last = some (x.v, x.t)) ∧ (s.dev.scr.armed = false → d.prm = s.dev.prm) ∧
      (¬ s.dev.onRing x.ch r → d.acq = s.dev.acq ∧ d.store = s.dev.store) ∧
      (s.dev.onRing x.ch r → s.dev.stippled r = true → (∀ p ∈ s.dev.acq.pend, s.dev.liveRing p.1 ≠ r) →
        (d.stp x.ch).cur = some (x.v, x.t) ∧ (d.stp x.ch).missing = false) ∧
      (∀ v, s.dev.onRing x.ch r → s.dev.stippled r = true → s.dev.acq.pend = [(Reg.stpDband x.ch, v)] → x.ch < 8192 →
        s.dev.newPosition r x.t = true →
        d.rd (Reg.stpDband x.ch) = v % 2 ^ 32 ∧ d.acq.pend = [] ∧ (d.stp x.ch).cur = some (x.v, x.t)) ∧
      (s.dev.onRing x.ch r → s.dev.newPosition r x.t = false → d.acq.pend = s.dev.acq.pend) ∧
      (s.dev.onRing x.ch r → s.dev.stippled r = true → s.dev.ringTakes r → s.Inv →
        (∀ p ∈ s.dev.acq.pend, s.dev.liveRing p.1 ≠ r) →
        (∀ v t, (s.dev.stp x.ch).cur = some (v, t) → 2 * (x.t - t) ≤ 3 * Int.ofNat (s.dev.ringTs r)) →
        d.ringBuf (s.dev.ringStack r) = s.dev.ringBuf (s.dev.ringStack r) ++
          (if (s.dev.stp x.ch).force = true ∨ s.dev.fld (Reg.stpDband x.ch) Fld.stpDbandDeadband < (x.v - (s.dev.stp x.ch).last).natAbs
            then [(r, ⟨(s.dev.ring r).written, 0, x.t, x.ch, 0, [some x.v]⟩)] else [])) ∧
      s.dev.keepsBut [.regs, .freeCtr, .ing, .prm, .acq, .store] d) ∧
  (∀ (s : State) (c : Fin 8192) (v t : Int), s.dev.alive = true →
    let r := s.dev.fld (Reg.hwkChring c.val) Fld.hwkChringRing
    s.dev.onRing c.val r → s.dev.stippled r = true → s.dev.flag (Reg.stpRmode r) Fld.stpRmodeKeepMode = true →
    (s.dev.stp c.val).missing = false → (s.dev.stp c.val).cur = some (v, t) →
    (s.dev.stp c.val).lastT + Int.ofNat (s.dev.rd (Reg.stpRkeep r) * 65536) ≤ t → s.dev.ringTakes r →
    Gives (.keepEntry c) s fun d =>
      d.ringBuf (s.dev.ringStack r) = s.dev.ringBuf (s.dev.ringStack r) ++ [(r, ⟨(s.dev.ring r).written, 0, t, c.val, 1, [some v]⟩)] ∧
      d.rd Reg.stpEntries = satInc 32 1 (s.dev.rd Reg.stpEntries) ∧ d.rd Reg.stpKeeps = satInc 32 1 (s.dev.rd Reg.stpKeeps) ∧
      (d.stp c.val).last = v ∧ (d.stp c.val).lastT = t ∧ s.dev.regsBut [Reg.stpEntries, Reg.stpKeeps] d ∧
      s.dev.keepsBut [.regs, .acq, .store] d) ∧
  (∀ (s : State) (st : StackId) (r : Nat) (x : RingItem) (rest : List (Nat × RingItem)), s.dev.alive = true →
    (s.dev.stackRec st.val).grant = 1 → s.dev.ringBuf st.val = (r, x) :: rest →
    Gives (.ringWrite st) s fun d =>
      d.ringBuf st.val = rest ∧ (d.ring r).items = (x :: (s.dev.ring r).items).take (s.dev.ringCap r) ∧
      (d.stackRec st.val).grant = 0 ∧ s.dev.keepsBut [.regs, .freeCtr, .acq, .store, .stk] d)

/-- Captures and records (R100, R106, R113, R387, Table 6.8): a STIPPLE capture ends A ns after its window; a copy out adds the protected rows
of the oldest capture to its record, in a slot that copy-out has, a row with an uncorrectable burst with every member missing, and counts
the stack's corrected and uncorrectable bursts; a free-class block is appended to
its record, or marks it FREE_INCOMPLETE when no page is free, or is counted as late; and a record whose wait is over completes. -/
def Obligations.RecordsAssembled : Prop :=
  (∀ (s : State) (r : Fin 64), s.dev.alive = true → s.dev.stippled r.val = true →
    Gives (.stippleCaptureEnd r) s fun d =>
      (∀ c ∈ (s.dev.ring r.val).caps, c.tHi + Int.ofNat (s.dev.aNs * 65536) ≤ Int.ofNat s.dev.net16 →
        ∀ x, s.dev.record c.seq = some x → ∃ y, d.record c.seq = some y ∧ y.endedAt.isSome = true) ∧
      s.dev.keepsBut [.regs, .freeCtr, .acq, .store] d) ∧
  (∀ (s : State) (r : Fin 64) (n corrected : Nat) (bad : List Nat) (c : Capture) (rest : List Capture) (x : RecordRec), s.dev.alive = true →
    let k := s.dev.ringStack r.val
    s.dev.stippled r.val = false → s.dev.stackState k = skUp → (s.dev.stackRec k).grant = 2 → s.dev.copyWaits k = some r.val →
    (s.dev.ring r.val).caps = c :: rest →
    (∀ k ∈ c :: rest, k.ended = false ∧ (s.dev.ring r.val).nextK < k.hi) → s.dev.record c.seq = some x →
    let ready := ((s.dev.ring r.val).items.reverse.filter fun z => c.protects false z).take n
    Gives (.captureCopyOut r n corrected bad) s fun d => ∃ y, d.record c.seq = some y ∧ y.items.length = x.items.length + ready.length ∧
      (∀ i z, ready[i]? = some z →
        y.items[x.items.length + i]? = some (if bad.any (s.dev.burstHits r.val z) then { z with vals := z.vals.map fun _ => none } else z)) ∧
      y.captured = x.captured + ready.length ∧ d.rd (Reg.stkCe k) = satInc 32 corrected (s.dev.rd (Reg.stkCe k)) % 2 ^ 32 ∧
      ((bad.filter fun b => ready.any fun z => s.dev.burstHits r.val z b) = [] → d.rd (Reg.stkUe k) = s.dev.rd (Reg.stkUe k)) ∧
      (∀ b, (bad.filter fun b => ready.any fun z => s.dev.burstHits r.val z b) = [b] →
        d.rd (Reg.stkUe k) = satInc 32 1 (s.dev.rd (Reg.stkUe k))) ∧
      (d.stackRec k).grant = 0 ∧ s.dev.keepsBut [.regs, .log, .freeCtr, .acq, .store, .stk, .clk] d) ∧
  (∀ (s : State) (q : Nat) (p : BitVec 16) (b : List Byte) (x : RecordRec), s.dev.alive = true → s.dev.record q = some x →
    let len := 8 + alignUp 8 b.length
    let need := ceilDiv (x.appendix.length + len) 4096 - ceilDiv x.appendix.length 4096
    (x.doneAt = none → x.freeDone = false → x.freeWait.isSome = true →
      (need ≤ s.dev.poolFree → Gives (.freeAppendixBlock q p b false) s fun d => ∃ y, d.record q = some y ∧
        y.appendix = x.appendix ++ (leBytes 8 (len + p.toNat * 2 ^ 32) ++ takeBytes (len - 8) b) ∧ y.doneAt = none ∧
        y.freeInc = x.freeInc ∧ s.dev.keepsBut [.regs, .freeCtr, .store] d) ∧
      (s.dev.poolFree < need → Gives (.freeAppendixBlock q p b false) s fun d => d.record q = some { x with freeInc := true } ∧
        d.rd Reg.recAppxDrop = satInc 32 1 (s.dev.rd Reg.recAppxDrop) ∧ s.dev.regsBut [Reg.recAppxDrop] d ∧
        s.dev.keepsBut [.regs, .freeCtr, .store] d)) ∧
    (x.doneAt.isSome = true ∨ x.freeDone = true → x.ring < 64 → ∀ last, Gives (.freeAppendixBlock q p b last) s fun d =>
      d.rd (Reg.hwkLateArrival x.ring) = satInc 32 1 (s.dev.rd (Reg.hwkLateArrival x.ring)) ∧
      s.dev.regsBut [Reg.hwkLateArrival x.ring] d ∧ s.dev.keepsBut [.regs] d)) ∧
  (∀ (s : State) (q us t : Nat) (x : RecordRec), s.dev.alive = true → s.dev.record q = some x → x.freeWait = some us →
    x.endedAt = some t → x.copied = true → x.doneAt = none → x.freeDone = false → t + us * 1000 ≤ s.dev.devNs →
    Gives (.freeWaitExpiry q false) s fun d => (∃ y, d.record q = some y ∧ y.doneAt = some s.dev.devNs ∧ y.freeInc = true) ∧
      d.rd Reg.recRecords = satInc 32 1 (s.dev.rd Reg.recRecords) ∧ s.dev.keepsBut [.regs, .freeCtr, .store] d)

/-- Die links, pace and credits (R118, R145, R146, R147, R200, R460): a flit's token goes on, but a free-class one that finds the crossing FIFO
full waits (R147); a flit with a corrected or an uncorrectable error is
counted, and stand-ins take the places of the lost one's timed positions, in the slots of the tokens lost (in an empty position that of the
event admitted last: the model's choice, log entry 42); a link that loses lock carries nothing until a retraining succeeds, and is down after the third
that fails; a pace window is shown; and a CREDIT token adds to a loop's credits up to the bound. -/
def Obligations.LinksAndPace : Prop :=
  (∀ (s : State) (n : DieId) (k : Fin 4) (toX : Bool), s.dev.alive = true → s.dev.linkUp (n.val, k.val) = true →
    s.dev.linkLost (n.val, k.val) = false →
    let x := toX && decide (k.val < 2)
    let f := 8 * n.val + k.val + (if x then 4 else 0)
    let corr := Reg.dieLinkCorr n.val k.val
    let uncorr := Reg.dieLinkUncorr n.val k.val
    (∀ o, o ≠ FlitOutcome.uncorrectable → s.dev.flitOf f = [] → Settles (.dieLinkFlit n k toX o) s fun d =>
      d.rd corr = (if o = .corrected then satInc 32 1 (s.dev.rd corr) else s.dev.rd corr) ∧ d.fab.wait = s.dev.fab.wait ∧
      d.fab.engs = s.dev.fab.engs ∧ d.fab.cores = s.dev.fab.cores ∧ s.dev.regsBut [corr] d ∧ s.dev.keepsBut [.regs, .fab] d) ∧
    (∀ (o : FlitOutcome) (y : Circuit) (h p : Nat) (t : Token), o ≠ .uncorrectable →
      s.dev.flitOf f = [{ DripTok.at y.key h t with pos := p }] → s.dev.circ y.key = some y → h < y.route.length →
      (t.free = true → s.dev.landRoom y h = false → Settles (.dieLinkFlit n k toX o) s fun d =>
        d.flitOf f = s.dev.flitOf f ∧ d.fab.wait = s.dev.fab.wait) ∧
      ((t.free = true → s.dev.landRoom y h = true) → s.dev.linkFenced (y.link h) = false → s.dev.spillAt y h = none →
      (h = 0 → s.dev.circWave y = none) →
      Settles (.dieLinkFlit n k toX o) s fun d =>
        d.rd corr = (if o = .corrected then satInc 32 1 (s.dev.rd corr) else s.dev.rd corr) ∧ d.flitOf f = [] ∧
        d.waitAt y.key h = s.dev.waitAt y.key h ++
          [if h = 0 then { t with epoch := BitVec.ofNat 2 (s.dev.cst y.key).epoch, free := y.free } else t] ∧
        ∀ a, a ≠ corr → ¬ dripReg a → d.rd a = s.dev.rd a)) ∧
    (let ps := s.dev.flitPositions (n.val, k.val) x
     let total := (ps.map fun p => p.2.2).sum
     (∀ p ∈ ps, p.2.1 < p.1.route.length ∧ (p.2.1 = 0 → s.dev.circWave p.1 = none)) →
     Settles (.dieLinkFlit n k toX .uncorrectable) s fun d =>
      d.rd uncorr = satInc 32 1 (s.dev.rd uncorr) ∧
      d.flitOf f = (s.dev.flitOf f).drop (s.dev.flitToks (n.val, k.val) x).length ∧
      d.rd (Reg.dieStandin n.val) = (if total = 0 then s.dev.rd (Reg.dieStandin n.val)
        else satInc 32 total (s.dev.rd (Reg.dieStandin n.val))) ∧
      (∀ p ∈ ps, s.dev.linkFenced (p.1.link p.2.1) = false →
        ∃ m, d.waitAt p.1.key p.2.1 = s.dev.waitAt p.1.key p.2.1 ++ m ∧ p.2.2 ≤ m.length ∧
          ∀ t ∈ m, ∃ slot, t = standIn (s.dev.cst p.1.key).epoch slot) ∧
      (∀ (y : Circuit) (h p : Nat) (t : Token), ps = [(y, h, 1)] → s.dev.linkFenced (y.link h) = false →
        s.dev.flitOf f = [{ DripTok.at y.key h t with pos := p }] →
        d.waitAt y.key h = s.dev.waitAt y.key h ++ [standIn (s.dev.cst y.key).epoch t.evslot.toNat]) ∧
      (∀ (y : Circuit) (h : Nat), ps = [(y, h, 1)] → s.dev.linkFenced (y.link h) = false → s.dev.flitOf f = [] →
        d.waitAt y.key h = s.dev.waitAt y.key h ++ [standIn (s.dev.cst y.key).epoch (s.dev.scr.admitted.getD 0 % 256)]) ∧
      ∀ a, a ≠ uncorr → a ≠ Reg.dieStandin n.val → ¬ dripReg a → d.rd a = s.dev.rd a)) ∧
  (∀ (s : State) (n : DieId) (k : Fin 4), s.dev.alive = true → s.dev.linkUp (n.val, k.val) = true → s.dev.linkTries (n.val, k.val) = 0 →
    Gives (.dieLinkLossOfLock n k) s fun d => d.linkLost (n.val, k.val) = true ∧ d.linkTries (n.val, k.val) = 1 ∧ s.dev.regsBut [] d ∧
      s.dev.keepsBut [.fab] d) ∧
  (∀ (s : State) (n : DieId) (k : Fin 4), s.dev.alive = true → 1 ≤ s.dev.linkTries (n.val, k.val) → s.dev.linkTries (n.val, k.val) ≤ 3 →
    (Gives (.dieLinkRetrain n k true) s fun d => d.linkTries (n.val, k.val) = 0 ∧
      d.rd Reg.glbLinkRetrain = satInc 32 1 (s.dev.rd Reg.glbLinkRetrain) ∧ s.dev.regsBut [Reg.glbLinkRetrain] d) ∧
    (Gives (.dieLinkRetrain n k false) s fun d => d.linkTries (n.val, k.val) = s.dev.linkTries (n.val, k.val) + 1 ∧
      d.rd Reg.glbLinkRetrain = satInc 32 1 (s.dev.rd Reg.glbLinkRetrain) ∧
      (s.dev.linkTries (n.val, k.val) < 3 → s.dev.regsBut [Reg.glbLinkRetrain] d) ∧
      (s.dev.linkTries (n.val, k.val) = 3 → d.linkUp (n.val, k.val) = false ∧
        ∀ j < 4, j ≠ k.val → d.linkUp (n.val, j) = s.dev.linkUp (n.val, j)))) ∧
  (∀ (s : State) (cl : ClusterId) (n : BitVec 16), s.dev.alive = true →
    let shown := SMap.get (fun _ => 65536) s.dev.fab.paceMin cl.val
    Gives (.paceWindow cl n) s fun d =>
      d.fld (Reg.clPace cl.val) Fld.clPacePaceMhz = n.toNat ∧
      d.fld (Reg.clPace cl.val) Fld.clPacePaceMinMhz =
        (if SMap.get (fun _ => 0) s.dev.fab.paceIv cl.val < s.dev.netNs / 1000000 ∧ shown < 65536 then shown
         else s.dev.fld (Reg.clPace cl.val) Fld.clPacePaceMinMhz) ∧
      s.dev.regsBut [Reg.clPace cl.val, Reg.diePaceMin (cl.val / 16)] d ∧ s.dev.keepsBut [.regs, .fab] d) ∧
  (∀ (s : State) (cl : ClusterId) (k : Fin 64) (n : BitVec 7), s.dev.alive = true →
    s.dev.flag (Reg.crlLoop cl.val k.val) Fld.crlLoopEn = true →
    let a := Reg.crlStat cl.val k.val
    let bound := s.dev.fld (Reg.crlLoop cl.val k.val) Fld.crlLoopBound
    let sum := s.dev.fld a Fld.crlStatAvail + n.toNat
    (sum ≤ bound → Gives (.creditToken cl k n) s fun d => d.fld a Fld.crlStatAvail = sum ∧ s.dev.regsBut [a] d ∧ s.dev.keepsBut [.regs] d) ∧
    (bound < sum → Gives (.creditToken cl k n) s fun d => d.fld a Fld.crlStatAvail = bound ∧
      d.fld a Fld.crlStatExceeded = satInc 16 1 (s.dev.fld a Fld.crlStatExceeded) ∧
      d.rd (Reg.crlBoundTotal cl.val) = satInc 32 1 (s.dev.rd (Reg.crlBoundTotal cl.val)) ∧
      s.dev.regsBut [a, Reg.crlBoundTotal cl.val] d ∧ s.dev.keepsBut [.regs] d))

/-- Tokens (R137, R156, R157, R161, R165, R166, R177, R181, R191): a token joins an engine's input queue if it is of the queue's class and in
the engine's epoch, and is dropped and counted in another epoch; a queue with an open spill sends it to the segment's tail; a closed or full
queue, a queue of the other class, a full segment and a fenced core take none; a COUNT token gives a waiting DATA counter its count, which the
triggers held till then count down, or, when it is 0, makes it emit END into the output queue, where it waits before a full segment (R193); a
link's wheel, from its pointer on, serves the first position that has a token to send, which moves on: to the next hop, to the open
spill of its buffer, into a die link's flit, or to its circuit's end; and at a tick every running core's engines show what they hold. -/
def Obligations.Tokens : Prop :=
  (∀ (s : State) (c : CoreId) (e : Fin 64) (q : Fin 2) (t : Token), s.dev.alive = true →
    let spill := s.dev.iqSpill c.val e.val q.val t.free
    let takes := s.dev.iqTakes c.val e.val q.val t.free
    let stale := Reg.coStale (clOf c.val) (posOf c.val)
    (s.dev.coreState c.val ≠ coFenced → spill = none → takes = true → t.epoch.toNat = s.dev.engEpoch c.val e.val →
      Settles (.tokenArrival c e q t) s fun d => d.iq c.val e.val q.val = s.dev.iq c.val e.val q.val ++ [t] ∧
        d.iqClosed c.val e.val q.val = tokMarker t ∧ (∀ a, ¬ dripReg a → d.rd a = s.dev.rd a) ∧ s.dev.keepsBut [.regs, .fab] d) ∧
    (s.dev.coreState c.val ≠ coFenced → spill = none → takes = true → t.epoch.toNat ≠ s.dev.engEpoch c.val e.val →
      Settles (.tokenArrival c e q t) s fun d => d.rd stale = satInc 32 1 (s.dev.rd stale) ∧
        s.dev.regsBut [stale] d ∧ s.dev.keepsBut [.regs] d) ∧
    (∀ j sp, spill = some (j, sp) → takes = true → Settles (.tokenArrival c e q t) s fun d =>
      d.fab.engs = s.dev.fab.engs ∧ (∃ y, d.spill (clOf c.val) j = some y ∧ y.toks = sp.toks ++ [⟨0, 0, t, [], none, 0⟩]) ∧
      (∀ a, ¬ dripReg a → d.rd a = s.dev.rd a) ∧ s.dev.keepsBut [.regs, .stk, .fab] d) ∧
    (s.dev.coreState c.val = coFenced ∨ takes = false → Settles (.tokenArrival c e q t) s fun d => d = s.dev)) ∧
  (∀ (s : State) (c : CoreId) (k : Fin 16) (v : Word) (deg : Bool), s.dev.alive = true → s.dev.coreState c.val = coRun →
    let n := s.dev.cuRef c.val k.val
    let r := s.dev.counter n
    r.mode = 2 → r.waiting = true →
    let open_ := s.dev.openSpillOf (clOf c.val) (cuEndp (clOf c.val) (s.dev.logicalOf c.val))
    let ctl : CuTok := ⟨mkToken (k.val * 2 ^ 32 + 2 * 2 ^ 36) true n.epoch 0 2 deg 0, (s.dev.ctrCircs n).map fun x => x.key⟩
    (r.held = [] → v ≠ 0 → Settles (.countToken c k v deg) s fun d =>
      d.counter n = { r with count := v.toNat, start := v.toNat, waiting := false, deg := deg } ∧
      d.fab.engs = s.dev.fab.engs ∧ s.dev.keepsBut [.fab] d) ∧
    (∀ w tag g, r.held = [(w, tag, g)] → 1 < v.toNat → Settles (.countToken c k v deg) s fun d =>
      d.counter n = { r with count := v.toNat - 1, start := v.toNat, waiting := false, held := [], deg := deg } ∧
      d.fab.engs = s.dev.fab.engs ∧ s.dev.keepsBut [.fab] d) ∧
    (v = 0 → s.dev.ctrCircs n ≠ [] → open_ = none → (s.dev.core c.val).cuHeld = [] →
      Settles (.countToken c k v deg) s fun d => d.counter n = r ∧
        (d.core c.val).cuOut = (s.dev.core c.val).cuOut ++ [ctl] ∧
        d.fab.engs = s.dev.fab.engs ∧ s.dev.keepsBut [.regs, .log, .fab] d) ∧
    (∀ j sp, v = 0 → s.dev.ctrCircs n ≠ [] → open_ = some (j, sp) → s.dev.segCap (clOf c.val) ≤ sp.toks.length →
      Settles (.countToken c k v deg) s fun d => d.counter n = r ∧
        (d.core c.val).cuHeld = (s.dev.core c.val).cuHeld ++ [ctl] ∧ (d.core c.val).cuOut = (s.dev.core c.val).cuOut ∧
        d.fab.engs = s.dev.fab.engs ∧ s.dev.keepsBut [.regs, .log, .fab] d)) ∧
  (∀ (s : State) (link : BitVec 32) (w : Wheel) (i h : Nat) (x : Circuit) (t : Token) (ts : List Token), s.dev.alive = true →
    let l := link.toNat
    let p := (s.dev.wpos l).ptr
    let after : WheelPos := ⟨((p + i) % 16 + 1) % 16, if x.free then some x.key else (s.dev.wpos l).last⟩
    let ready : Prop := s.dev.linkCarries l = true ∧ (s.dev.fab.wheels.find? fun y => y.link = l) = some w ∧ i < 16 ∧
      (∀ j < i, s.dev.ownerReady l w.codes ((p + j) % 16) = none) ∧ s.dev.ownerReady l w.codes ((p + i) % 16) = some (x, h)
    let plain : Prop := s.dev.waitAt x.key h = t :: ts ∧ (0 < h ∨ x.src.kind ≠ 2) ∧ (x.stat = false ∨ x.statHop ≠ some h) ∧
      (x.free = true ∨ s.dev.fifoFull x (x.link h) = false)
    (ready → plain → flitOn (x.link h) = none → h + 1 < x.route.length → s.dev.linkFenced (x.link (h + 1)) = false →
      (s.dev.spillAt x (h + 1) = none → Settles (.wheelCrossing link) s fun d =>
        d.waitAt x.key h = ts ∧ d.waitAt x.key (h + 1) = s.dev.waitAt x.key (h + 1) ++ [t] ∧ d.wpos l = after ∧
        (∀ a, ¬ dripReg a → d.rd a = s.dev.rd a)) ∧
      (∀ cl j sp, s.dev.spillAt x (h + 1) = some (cl, j, sp) → Settles (.wheelCrossing link) s fun d =>
        d.waitAt x.key h = ts ∧ d.waitAt x.key (h + 1) = s.dev.waitAt x.key (h + 1) ∧ d.wpos l = after ∧
        ∃ y, d.spill cl j = some y ∧ y.toks = sp.toks ++ [.at x.key (h + 1) t])) ∧
    (∀ k, ready → plain → flitOn (x.link h) = some k → Settles (.wheelCrossing link) s fun d =>
      d.waitAt x.key h = ts ∧ d.flitOf k = s.dev.flitOf k ++ [{ DripTok.at x.key (h + 1) t with pos := (p + i) % 16 }] ∧ d.wpos l = after ∧
      (∀ a, ¬ dripReg a → d.rd a = s.dev.rd a)) ∧
    (let c := s.dev.physCore x.dst.cl x.dst.core
     ready → plain → flitOn (x.link h) = none → h + 1 = x.route.length → x.dst.kind = 1 → s.dev.coreState c ≠ coFenced →
      s.dev.iqSpill c x.dst.eng x.dst.idx t.free = none → s.dev.iqTakes c x.dst.eng x.dst.idx t.free = true →
      t.epoch.toNat = s.dev.engEpoch c x.dst.eng →
      Settles (.wheelCrossing link) s fun d =>
        d.waitAt x.key h = ts ∧ d.iq c x.dst.eng x.dst.idx = s.dev.iq c x.dst.eng x.dst.idx ++ [t] ∧ d.wpos l = after ∧
        (∀ a, ¬ dripReg a → d.rd a = s.dev.rd a)) ∧
    (s.dev.linkCarries l = false → Gives (.wheelCrossing link) s fun d => d = s.dev) ∧
    (s.dev.linkCarries l = true → (s.dev.fab.wheels.find? fun y => y.link = l) = some w →
      (∀ j < 16, s.dev.ownerReady l w.codes ((p + j) % 16) = none) →
      Settles (.wheelCrossing link) s fun d => d = s.dev)) ∧
  (∀ (s : State) (bank : List (CoreId × Fin 64)) (c : CoreId) (e : Fin 64), s.dev.alive = true → s.dev.coreState c.val = coRun →
    Gives (.stallTick bank) s fun d =>
      (d.eng c.val e.val).busy = false ∧ d.iq c.val e.val 0 = s.dev.iq c.val e.val 0 ∧ d.iq c.val e.val 1 = s.dev.iq c.val e.val 1 ∧
      d.fld (Reg.engStat (clOf c.val) (posOf c.val) e.val) Fld.engStatIq0Fill = (s.dev.iq c.val e.val 0).length % 16 ∧
      d.fld (Reg.engStat (clOf c.val) (posOf c.val) e.val) Fld.engStatIq1Fill = (s.dev.iq c.val e.val 1).length % 16 ∧
      ((s.dev.eng c.val e.val).busy = true → d.fld (Reg.engStat (clOf c.val) (posOf c.val) e.val) Fld.engStatClass = 0) ∧
      s.dev.keepsBut [.regs, .fab] d)

/-- Core positions (R130, R134 to R138, R142, R449, R450, R456, R458; Tables 4.6 and 4.7): self-test retires a position with a failure and lets
the others go on to loading; a loaded core is READY; one that fails while loading is RETIRED, its error counted, everything loaded is
discarded and step 8 begins again, or after four such restarts the slot is rejected, and a load error in the cycle of a completed load wins;
and a running core with an uncorrectable error is FENCED with its cause, its tokens gone, and stand-ins for the events it owes leave by
its port. -/
def Obligations.CoreStates : Prop :=
  (∀ (s : State) (c : CoreId) (r : SelfTestResult), s.dev.alive = true → s.dev.coreState c.val = coTest →
    (s.dev.core c.val).passed = false →
    Gives (.selfTestComplete c r) s fun d =>
      (r.failedEngines ≠ [] ∨ r.wsNinth = true ∨ r.sliceNinth ≠ [] ∨ r.otherFailed = true → d.coreState c.val = coRetired) ∧
      (r.failedEngines = [] → r.wsNinth = false → r.sliceNinth = [] → r.otherFailed = false →
        (posOf c.val < 16 → d.coreState c.val = coLoad ∧ d.logicalOf c.val = posOf c.val) ∧
        (posOf c.val = 16 → (d.core c.val).passed = true)) ∧
      (∀ j : Fin 2, d.flag (Reg.clBank (clOf c.val) (2 * posOf c.val + j.val)) Fld.clBankMappedOut = r.sliceNinth.contains j) ∧
      s.dev.keepsBut [.regs, .fab] d) ∧
  (∀ (s : State) (c : CoreId) (n : Nat), s.dev.alive = true → s.dev.coreState c.val = coLoad →
    let ce := Reg.coWsCe (clOf c.val) (posOf c.val)
    Gives (.coreLoadComplete c none n) s fun d => d.coreState c.val = coReady ∧ d.rd ce = satInc 32 n (s.dev.rd ce) ∧
      s.dev.regsBut [coStatAddr c.val, ce] d ∧ s.dev.keepsBut [.regs] d) ∧
  (∀ (s : State) (c : CoreId) (cause : FenceCause), s.dev.starting = true → s.dev.stepNo = 8 → s.dev.coreState c.val = coLoad →
    let E := s.dev.startOver c.val (fenceCode cause)
    let F := s.dev.coreLoadError c.val (fenceCode cause)
    E.coreState c.val = coRetired ∧ F.coreState c.val = coRetired ∧
    (∀ k : CoreId, k ≠ c → E.coreState k.val = s.dev.coreState k.val ∧ F.coreState k.val = s.dev.coreState k.val) ∧
    (cause = .weightStore ∨ cause = .contextStore → F.rd (Reg.coWsUe (clOf c.val) (posOf c.val)) =
      satInc 32 1 (s.dev.rd (Reg.coWsUe (clOf c.val) (posOf c.val)))) ∧
    (cause = .memorySlice → F.rd (Reg.clCmemUe (clOf c.val)) = satInc 32 1 (s.dev.rd (Reg.clCmemUe (clOf c.val)))) ∧
    E.boot = { s.dev.boot with restarts := s.dev.boot.restarts + 1, stepAt := s.dev.devNs } ∧ E.stepNo = 8 ∧
    E.fab.circuits = [] ∧ E.fab.groups = [] ∧ E.fab.engs = [] ∧
    (s.dev.boot.restarts < 4 → Gives (.loadErrorRetire c cause) s fun d => d = E.tryLoad) ∧
    (4 ≤ s.dev.boot.restarts → Gives (.loadErrorRetire c cause) s fun d => d = F.reject 0x0D) ∧
    (∀ n, let D := s.dev.countN (Reg.coWsCe (clOf c.val) (posOf c.val)) n
      (s.dev.boot.restarts < 4 → Gives (.coreLoadComplete c (some cause) n) s fun d =>
        d = (D.startOver c.val (fenceCode cause)).tryLoad) ∧
      (4 ≤ s.dev.boot.restarts → Gives (.coreLoadComplete c (some cause) n) s fun d =>
        d = (D.coreLoadError c.val (fenceCode cause)).reject 0x0D))) ∧
  (∀ (s : State) (c : CoreId) (cause : FenceCause), s.dev.alive = true → s.dev.coreState c.val = coRun →
    Settles (.coreFence c cause) s fun d =>
      d.coreState c.val = coFenced ∧ d.fld (coStatAddr c.val) Fld.coStatFenceCause = fenceCode cause ∧
      (∀ k : CoreId, k ≠ c → d.coreState k.val = s.dev.coreState k.val) ∧
      (cause = .weightStore ∨ cause = .contextStore → d.rd (Reg.coWsUe (clOf c.val) (posOf c.val)) =
        satInc 32 1 (s.dev.rd (Reg.coWsUe (clOf c.val) (posOf c.val)))) ∧
      (cause = .memorySlice → d.rd (Reg.clCmemUe (clOf c.val)) = satInc 32 1 (s.dev.rd (Reg.clCmemUe (clOf c.val)))) ∧
      (∀ x ∈ s.dev.fab.circuits, ∀ h < x.route.length, linkKind (x.link h) ≤ 2 → s.dev.linkPhys (x.link h) = c.val →
        d.waitAt x.key h = []) ∧
      (∀ x n, s.dev.leaving c.val = [x] → s.dev.owedEvents = [n] → (s.dev.cst x.key).slot = none → linkKind (x.link x.portHop) = 3 →
        (∀ y ∈ s.dev.fab.circuits, ∀ h < y.route.length, y.key * 256 + h = x.key * 256 + x.portHop → linkKind (y.link h) = 3) →
        d.waitAt x.key x.portHop = s.dev.waitAt x.key x.portHop ++
          List.replicate x.kc (standIn (s.dev.coreEpoch c.val) (n % 256))) ∧
      s.dev.keepsBut [.regs, .log, .stk, .fab, .num] d)

/-- A context switch (R138, R172 to R182, R185, R209, R221, R462): a request waits at its group or is refused and logged; an accepted one
starts a wave, whose FIRST_EVENT is the first that is admitted at least 200 ns later and divides as the group's timed streams ask; a marker
goes out on an entry circuit in the old epoch, and the new one is stamped from then on; an engine and a counter unit switch when markers
stand at every input they use, and a core that is fenced in the same cycle does not; and a section is loaded, from a stack in a slot that
the loader has, or from cluster memory, whose errors count as its own (R142), or its failure is counted and kept. -/
def Obligations.SwitchWave : Prop :=
  (∀ (s : State) (g : Fin 64) (k : Fin 4), s.dev.alive = true →
    let ok := (s.dev.grp g.val).cores ≠ [] ∧ (s.dev.grp g.val).req = none ∧
      ¬((s.dev.grp g.val).secFailed = true ∧ ∃ y ∈ (s.dev.grp g.val).sections_, y.ctx = k.val) ∧
      ((∀ c ∈ (s.dev.grp g.val).cores, s.dev.coreState c = coFenced ∨ (s.dev.ctxRec c k.val).isSome = true) ∨
        ∃ y ∈ (s.dev.grp g.val).sections_, y.ctx = k.val ∧ y.resident = false)
    Gives (.switchRequest g k) s fun d =>
      (ok → d.grp g.val = { s.dev.grp g.val with req := some ⟨k.val, false, false, none⟩ } ∧
        d.fld (Reg.scrCtxsel g.val) Fld.scrCtxselPending = 1 ∧ s.dev.regsBut [Reg.scrCtxsel g.val] d ∧ s.dev.keepsBut [.regs, .fab] d) ∧
      (¬ok → s.dev.log.gains d.log (internalOrigin (Reg.scrCtxsel g.val)) (Reg.scrCtxsel g.val) (s.dev.grp g.val).ctx k.val .refused ∧
        s.dev.keepsBut [.regs, .log] d)) ∧
  (∀ (s : State) (g : Fin 64) (r : SwitchReq), s.dev.alive = true →
    let x := s.dev.grp g.val
    let ep := s.dev.groupEp x r.ctx
    let notBefore := fun n => s.dev.tms.ctr + 200 * 2 ^ 40 ≤ (s.dev.aNs + (n + 1) * s.dev.tev) * 2 ^ 40
    x.req = some r → x.wave = none → (∀ c ∈ x.cores, s.dev.coreState c = coFenced ∨ (s.dev.ctxRec c r.ctx).isSome = true) →
    (∀ i, r.sec = some i → i ∈ x.loadedSecs) → (∃ c ∈ x.cores, s.dev.coreState c = coRun) →
    (∀ c ∈ x.cores, ∀ e < 64, s.dev.usedQueues c e x.ctx ≠ []) →
    Settles (.switchAccept g) s fun d => ∃ w : Wave, d.grp g.val = { x with req := none, wave := some w } ∧
      w.ctx = r.ctx ∧ w.epoch = (x.epoch + 1) % 4 ∧ w.section_ = r.section_ ∧ w.adapt = r.adapt ∧ w.sec = r.sec ∧
      (∀ c, c ∈ w.left ↔ c ∈ x.cores ∧ s.dev.coreState c = coRun) ∧
      (s.dev.groupTimed x r.ctx = true → s.dev.tev ≠ 0 → notBefore w.first ∧ ep ∣ w.first ∧ ∀ n, ep ∣ n → notBefore n → w.first ≤ n) ∧
      s.dev.keepsBut [.regs, .log, .stk, .fab, .num] d) ∧
  (∀ (s : State) (key : Nat) (x : Circuit) (w : Wave) (c : Nat), s.dev.alive = true → s.dev.circ key = some x →
    s.dev.srcCore x = none → s.dev.dstCore x = some c → s.dev.waveOf c = some w → x.inCtx (s.dev.coreCtx c) = true →
    (s.dev.cst x.key).marked = false → s.dev.spillAt x 0 = none →
    (x.free = true ∨ w.first ≤ s.dev.scr.firstEv ∨
      (∃ q, (s.dev.cst x.key).slot = some q ∧ (q + 257 - w.first % 256) % 256 = 0 ∧ x.kc ≤ (s.dev.cst x.key).sent) ∨
      (∃ q, (s.dev.cst x.key).slot = some q ∧ 1 ≤ (q + 257 - w.first % 256) % 256 ∧ (q + 257 - w.first % 256) % 256 < 128)) →
    Settles (.markerSend key) s fun d =>
      d.waitAt x.key 0 = s.dev.waitAt x.key 0 ++ [markerTok w (s.dev.cst x.key).epoch x.free] ∧
      (d.cst x.key).marked = true ∧ (d.cst x.key).epoch = w.epoch ∧ (∀ a, ¬ dripReg a → d.rd a = s.dev.rd a) ∧
      s.dev.keepsBut [.regs, .fab] d) ∧
  (∀ (s : State) (c : CoreId) (e : Fin 64) (w : Wave), s.dev.alive = true → s.dev.waveOf c.val = some w → s.dev.coreState c.val = coRun →
    c.val ∈ w.left → (s.dev.eng c.val e.val).switched = false → s.dev.markersIn c.val e.val = true →
    (∃ k < 64, k ≠ e.val ∧ (s.dev.eng c.val k).switched = false) →
    Settles (.receiveSwitchMarker c e none) s fun d =>
      (d.eng c.val e.val).switched = true ∧ (d.eng c.val e.val).looping = false ∧ (d.eng c.val e.val).ahead = [] ∧
      (d.eng c.val e.val).latch = [] ∧
      (∀ q ∈ s.dev.usedQueues c.val e.val (s.dev.coreCtx c.val), d.iq c.val e.val q = (s.dev.iq c.val e.val q).tail ∧
        d.iqClosed c.val e.val q = false) ∧
      (∀ k, k ≠ e.val → k < 64 → d.eng c.val k = s.dev.eng c.val k) ∧ s.dev.keepsBut [.regs, .log, .stk, .fab, .num] d) ∧
  (∀ (s : State) (c : CoreId) (w : Wave), s.dev.alive = true → s.dev.waveOf c.val = some w → s.dev.coreState c.val = coRun →
    c.val ∈ w.left → (s.dev.core c.val).cuSwitched = false →
    (∀ k ∈ s.dev.fedCounters c.val (s.dev.coreCtx c.val), k ∈ (s.dev.core c.val).cuMarks) →
    (∃ k < 64, (s.dev.eng c.val k).switched = false) →
    let outs := s.dev.circsFrom (s.dev.coreCtx c.val) fun y =>
      decide (y.kind = 2 ∧ y.cl = clOf c.val ∧ y.core = s.dev.logicalOf c.val)
    Settles (.counterUnitSwitch c none) s fun d => (d.core c.val).cuSwitched = true ∧ (d.core c.val).cuMarks = [] ∧
      (s.dev.openSpillOf (clOf c.val) (cuEndp (clOf c.val) (s.dev.logicalOf c.val)) = none → (s.dev.core c.val).cuHeld = [] →
        (d.core c.val).cuOut = (s.dev.core c.val).cuOut ++
          outs.map fun x => ⟨markerTok w (s.dev.coreEpoch c.val) x.free, [x.key]⟩) ∧
      d.fab.engs = s.dev.fab.engs ∧ d.fab.groups = s.dev.fab.groups ∧ s.dev.keepsBut [.regs, .log, .stk, .fab, .num] d) ∧
  (∀ (s : State) (c : CoreId) (e : Fin 64) (k : FenceCause), s.dev.alive = true → s.dev.coreState c.val = coRun →
    ∀ i, i = .receiveSwitchMarker c e (some k) ∨ i = .counterUnitSwitch c (some k) → Settles i s fun d =>
      d.coreState c.val = coFenced ∧ d.fld (coStatAddr c.val) Fld.coStatFenceCause = fenceCode k ∧
      d.rd (Reg.coSwitches (clOf c.val) (posOf c.val)) = s.dev.rd (Reg.coSwitches (clOf c.val) (posOf c.val)) ∧
      s.dev.keepsBut [.regs, .log, .stk, .fab, .num] d) ∧
  (∀ (s : State) (g : Fin 64) (bad : Option Nat) (n i : Nat) (y : SectionRow), s.dev.alive = true →
    (s.dev.grp g.val).loading = some i → (s.dev.grp g.val).sections_[i]? = some y →
    (y.area = 0x1F ∨ (s.dev.stackRec y.stack).grant = 3) →
    let cl := ((s.dev.grp g.val).cores.map clOf).headD 0
    Settles (.sectionLoad g bad n) s fun d =>
      (bad.isSome = true → (d.grp g.val).loading = none ∧ (d.grp g.val).secFailed = true ∧
        d.rd Reg.glbSectionFail = satInc 32 1 (s.dev.rd Reg.glbSectionFail)) ∧
      (bad = none → y.area = 0x1F → d.rd (Reg.clCmemCe cl) = satInc 32 n (s.dev.rd (Reg.clCmemCe cl))) ∧
      (∀ off, bad = some off → y.area = 0x1F →
        let c := 17 * cl + s.dev.physBank cl (cmemBank (y.ofs + off)) / 2
        c < 1088 → d.rd (Reg.clCmemUe (clOf c)) = satInc 32 1 (s.dev.rd (Reg.clCmemUe (clOf c))) ∧
          (s.dev.coreState c = coRun → d.coreState c = coFenced)) ∧
      (bad = none → (y.area = 0x1F ∨ s.dev.stackState y.stack = skUp) → contextFormed (s.dev.sectionBytes g.val y) = true →
        i ∈ (d.grp g.val).loadedSecs ∧ (d.grp g.val).secFailed = (s.dev.grp g.val).secFailed ∧
        (d.grp g.val).loading = (d.grp g.val).nextLoad) ∧
      (y.area ≠ 0x1F → (d.stackRec y.stack).grant = 0) ∧ s.dev.keepsBut [.regs, .log, .stk, .fab, .num, .clk] d)

/-- One handshake cycle of an engine and of its cluster's memory banks (R126, R128, R141, Tables 12.9 and 12.10; that a cluster's banks take
their cycle with it is the model's choice, log entry 44): of the descriptors that are ready, the first timed one issues, or else the first
free one, unless it loses a weight-store port and waits a cycle; nothing issues in a core that does not run; an ALU descriptor on registers leaves its result in its register, valid where FP32 is
selected, and counts a timed wait beyond its allowance; and a free-class SEND puts its word on its output's circuit. -/
def Obligations.EngineIssues : Prop :=
  (∀ (s : State) (c : CoreId) (e : Fin 64) (bw : Nat) (rv : List BankUse) (f g : Nat), s.dev.alive = true →
    s.dev.coreState c.val ≠ coRun →
    Settles (.engineIssue c e bw rv f g) s fun d => d = s.dev.banksCycle (clOf c.val)) ∧
  (∀ (s : State) (c : CoreId) (e : Fin 64) (bw : Nat) (rv : List BankUse) (f g : Nat), s.dev.alive = true →
    s.dev.coreState c.val = coRun →
    let D := s.dev.atIssue c.val e.val rv f g
    let ready := (D.descs c.val e.val).filter fun k => decide (D.holdOf c.val e.val k = .ready)
    let first := fun k => (ready.find? fun j => !(D.desc c.val e.val j).free) = some k ∨
      ((∀ j ∈ ready, (D.desc c.val e.val j).free = true) ∧ ready.head? = some k)
    (ready = [] → Settles (.engineIssue c e bw rv f g) s fun d => d = D) ∧
    (∀ k, first k → D.issueLoses c.val e.val k rv = true → Settles (.engineIssue c e bw rv f g) s fun d =>
      let r := D.descRec c.val e.val k
      d.descRec c.val e.val k = { r with waited := r.waited + 1 } ∧ (d.eng c.val e.val).lost = true ∧
        D.regsBut [] d ∧ D.keepsBut [.fab] d ∧ d.fab.wait = D.fab.wait ∧ d.fab.cores = D.fab.cores) ∧
    (∀ k, first k →
      let y := D.desc c.val e.val k
      let arg : Nat → Nat → Nat := fun src r => if src = 3 then (D.reg c.val e.val r).v % 2 ^ 32 else 0
      let coll := Reg.coSchedColl (clOf c.val) (posOf c.val)
      y.op = 5 → (y.srcA = 0 ∨ y.srcA = 3) → (y.srcB = 0 ∨ y.srcB = 3) → y.out0 = 127 → y.ctrUse = 0 →
      ¬ (bitAt y.imm 4 = true ∧ bitsOf y.imm 0 4 = 10) →
      (y.free = true → ∀ live, D.ctxRec c.val (D.engCtx c.val e.val) = some live → bitAt live.flags 0 = false ∨ live.paired = false) →
      ∀ v, (if bitAt y.imm 4 then aluFloat (bitsOf y.imm 0 4) (arg y.srcA y.ra) (arg y.srcB y.rb)
          else aluInt (bitsOf y.imm 0 4) (arg y.srcA y.ra) (arg y.srcB y.rb)) = some v →
      Settles (.engineIssue c e bw rv f g) s fun d =>
        (d.reg c.val e.val y.rd).v = (if bitAt y.imm 4 then f32Fix v else v) ∧ (d.eng c.val e.val).busy = true ∧
        (∀ r, r ≠ y.rd → d.reg c.val e.val r = D.reg c.val e.val r) ∧ d.iq c.val e.val 0 = D.iq c.val e.val 0 ∧
        d.iq c.val e.val 1 = D.iq c.val e.val 1 ∧ d.fab.wait = D.fab.wait ∧
        d.rd coll = (if y.free = false ∧ y.wait < bw + (D.descRec c.val e.val k).waited then satInc 32 1 (D.rd coll) else D.rd coll)) ∧
    (∀ k x, first k →
      let y := D.desc c.val e.val k
      let v := if bitAt y.imm 0 then D.slotWord c.val e.val y.aslot y.aword else D.reg c.val e.val y.ra
      y.op = 4 → y.free = true → y.ctrUse = 0 → D.outCircs c.val e.val y.out0 = [x] → D.spillAt x 0 = none →
      Settles (.engineIssue c e bw rv f g) s fun d =>
        d.waitAt x.key 0 = D.waitAt x.key 0 ++
          [mkToken v.v x.free (D.engEpoch c.val e.val) y.tag 0 ((D.descRec c.val e.val k).lostBlock || v.deg) 0] ∧
        (d.eng c.val e.val).busy = true ∧ ∀ r, d.reg c.val e.val r = D.reg c.val e.val r))

/-- Drip (R181, R189 to R196, R221, R227, R228, R231): the due timer of a set that is blocked no more stops; of one that is, it chooses the fullest queue without an open spill, of equals the lowest, and a
free segment, or is counted when all four are open; in a slot that Drip has, a spill holds its queue's free-class tokens in their order,
and refills take a segment's oldest token back into a queue that holds fewer than two, a stale one dropped and counted; and a failing read,
or a failed stack, discards the rest of the spill, which is counted and logged. What settles after any movement of tokens touches Drip's own
state, and what waits before a counter or for its unit's output (log entry 42). -/
def Obligations.DripSpills : Prop :=
  (∀ (s : State) (cl : ClusterId) (k : Fin 32) (tie : Bool) (t : Nat), s.dev.alive = true → (s.dev.drip cl.val k.val).since = some t →
    (s.dev.drip cl.val k.val).spilling = none → t + s.dev.fld (Reg.drpCfg cl.val) Fld.drpCfgDripWaitNs ≤ s.dev.devNs →
    let used := fun j => (s.dev.spill cl.val j).isSome = true ∨ ∃ i < 32, ∃ q, (s.dev.drip cl.val i).spilling = some (q, j)
    let q := fun i => (s.dev.drip cl.val k.val).queues.getD i ⟨0, 0, 0, 0, 0, 0⟩
    let opened := fun i => ∃ j < 4, ∃ x, s.dev.spill cl.val j = some x ∧ x.set = k.val ∧ x.queue = i
    (s.dev.dripBlocked cl.val k.val = false → Gives (.dripTimerExpiry cl k tie) s fun d =>
      d.drip cl.val k.val = { s.dev.drip cl.val k.val with since := none } ∧ s.dev.regsBut [] d ∧ s.dev.dripFrame d ∧
        s.dev.keepsBut [.fab] d) ∧
    (s.dev.dripBlocked cl.val k.val = true →
    Gives (.dripTimerExpiry cl k tie) s fun d => (d.drip cl.val k.val).since = some s.dev.devNs ∧
      (tie = true → d.drip cl.val k.val = { s.dev.drip cl.val k.val with since := some s.dev.devNs }) ∧
      (tie = false → (∀ j < 4, used j) → d.rd (Reg.drpFull cl.val) = satInc 32 1 (s.dev.rd (Reg.drpFull cl.val)) ∧
        (d.drip cl.val k.val).spilling = none) ∧
      (tie = false → (∃ j < 4, ¬used j) → (∃ i < (s.dev.drip cl.val k.val).queues.length, ¬opened i) →
        ∃ i j, (d.drip cl.val k.val).spilling = some (i, j) ∧ j < 4 ∧ ¬used j ∧ i < (s.dev.drip cl.val k.val).queues.length ∧ ¬opened i ∧
          ∀ n < (s.dev.drip cl.val k.val).queues.length, ¬opened n → s.dev.queueLen (q n) ≤ s.dev.queueLen (q i) ∧
            (n < i → s.dev.queueLen (q n) < s.dev.queueLen (q i))) ∧
      s.dev.dripFrame d ∧ s.dev.keepsBut [.regs, .fab] d)) ∧
  (∀ (s : State) (cl : ClusterId) (k : Fin 32) (i j : Nat), s.dev.alive = true → (s.dev.drip cl.val k.val).spilling = some (i, j) →
    let st := s.dev.fld (Reg.drpArea cl.val) Fld.drpAreaStack
    let q := (s.dev.drip cl.val k.val).queues.getD i ⟨0, 0, 0, 0, 0, 0⟩
    let c := s.dev.physCore q.cl q.core
    (s.dev.stackRec st).grant = 4 →
    Gives (.dripSpillComplete cl k) s fun e => (e.stackRec st).grant = 0 ∧ ∃ d : Dev, e = d.settleDrip.useGrant st ∧
      (∃ x, d.spill cl.val j = some x ∧ x.set = k.val ∧ x.queue = i ∧ x.wrote = x.toks.length ∧
        (q.kind = 1 → x.toks.map (fun t => t.tok) = (s.dev.iq c q.eng q.idx).filter (fun t => t.free) ∧
          d.iq c q.eng q.idx = (s.dev.iq c q.eng q.idx).filter fun t => !t.free) ∧
        (q.kind = 2 → x.toks.map (fun t => t.tok) = (s.dev.cuTokens c true).map (fun t => t.tok) ∧
          (d.core c).cuOut = (s.dev.core c).cuOut.filter fun t => !t.tok.free)) ∧
      (d.drip cl.val k.val).spilling = none ∧ d.fld (Reg.drpSet cl.val k.val) Fld.drpSetOpen = 1 ∧
      s.dev.keepsBut [.regs, .stk, .fab] d) ∧
  (∀ (s : State) (cl : ClusterId) (k : Fin 32) (n j : Nat) (x : Spill) (t : DripTok) (ts : List DripTok), s.dev.alive = true → j < 4 →
    s.dev.spill cl.val j = some x → x.set = k.val → (∀ m < 4, m ≠ j → ∀ y, s.dev.spill cl.val m = some y → y.set ≠ k.val) →
    x.toks = t :: ts →
    let st := s.dev.fld (Reg.drpArea cl.val) Fld.drpAreaStack
    let q := (s.dev.drip cl.val k.val).queues.getD x.queue ⟨0, 0, 0, 0, 0, 0⟩
    let c := s.dev.physCore q.cl q.core
    let stale := Reg.coStale (clOf c) (posOf c)
    (s.dev.stackRec st).grant = 4 → q.kind = 1 → s.dev.queueLen q < 2 → s.dev.iqClosed c q.eng q.idx = false →
    s.dev.iqClass c q.eng q.idx ≠ some false →
    (s.dev.stackState st ≠ skFailed → Gives (.dripRefill cl k n) s fun e => (e.stackRec st).grant = 0 ∧
      ∃ d : Dev, e = d.settleDrip.useGrant st ∧
      (t.tok.epoch.toNat = s.dev.engEpoch c q.eng → d.iq c q.eng q.idx = s.dev.iq c q.eng q.idx ++ [t.tok] ∧ d.rd stale = s.dev.rd stale) ∧
      (t.tok.epoch.toNat ≠ s.dev.engEpoch c q.eng → d.iq c q.eng q.idx = s.dev.iq c q.eng q.idx ∧
        d.rd stale = satInc 32 1 (s.dev.rd stale)) ∧
      (ts = [] → d.spill cl.val j = none ∧ d.fld (Reg.drpSet cl.val k.val) Fld.drpSetOpen = 0) ∧
      (ts ≠ [] → ∃ y, d.spill cl.val j = some y ∧ y.toks = ts) ∧
      (s.dev.stackState st = skUp → d.rd (Reg.stkCe st) = satInc 32 n (s.dev.rd (Reg.stkCe st)) % 2 ^ 32) ∧
      s.dev.keepsBut [.regs, .log, .stk, .fab, .clk] d) ∧
    (s.dev.stackState st = skFailed → Gives (.dripRefill cl k n) s fun e => ∃ d : Dev, e = d.settleDrip.useGrant st ∧
      d.iq c q.eng q.idx = s.dev.iq c q.eng q.idx ∧ d.spill cl.val j = none ∧
      d.rd (Reg.drpFail cl.val) = satInc 32 1 (s.dev.rd (Reg.drpFail cl.val)) ∧
      s.dev.keepsBut [.regs, .log, .stk, .fab, .clk] d)) ∧
  (∀ (s : State) (cl : ClusterId) (j : Fin 4) (x : Spill), s.dev.alive = true → s.dev.spill cl.val j.val = some x →
    let st := s.dev.fld (Reg.drpArea cl.val) Fld.drpAreaStack
    Settles (.drpFail cl j) s fun d => d.spill cl.val j.val = none ∧
      (∀ n < 4, n ≠ j.val → (d.spill cl.val n).map (fun y => y.toks) = (s.dev.spill cl.val n).map fun y => y.toks) ∧
      d.rd (Reg.drpFail cl.val) = satInc 32 1 (s.dev.rd (Reg.drpFail cl.val)) ∧
      (s.dev.stackState st ≠ skUp → s.dev.log.gains d.log (internalOrigin (Reg.drpFail cl.val)) (Reg.drpFail cl.val)
        (s.dev.rd (Reg.drpFail cl.val)) (satInc 32 1 (s.dev.rd (Reg.drpFail cl.val))) .degraded) ∧
      (s.dev.stackState st = skUp → d.rd (Reg.stkUe st) = satInc 32 1 (s.dev.rd (Reg.stkUe st))) ∧
      s.dev.keepsBut [.regs, .log, .stk, .fab, .clk] d) ∧
  (∀ d : Dev, d.keepsBut [.regs, .log, .stk, .fab] d.settleDrip ∧ (∀ a, ¬ settleReg a → d.settleDrip.rd a = d.rd a) ∧
    ((∀ x ∈ d.fab.circuits, x.counterEnd = true → d.waitAt x.key x.route.length = []) → (∀ p ∈ d.fab.cores, p.2.cuHeld = []) →
      d.dripFrame d.settleDrip))

/-- States of a stack (R229, R230, R233; Table 6.10): trained, it goes on to test if its configuration is one of Table 6.2, else to MISMATCH;
the third failed training fails it; its test records repairs and bad units and takes it UP; an UP stack fails; and its UP mirrors take
over 128 ns after that. -/
def Obligations.StackStates : Prop :=
  (∀ (s : State) (k : StackId) (h : BitVec 2) (cap24 ok : Bool), s.dev.alive = true → s.dev.stackState k.val = skTrain →
    let fits := ok = true ∧ ((h = 0 ∧ cap24 = false) ∨ ((h = 1 ∨ h = 2) ∧ cap24 = true))
    Gives (.stackTrainingComplete k h cap24 ok) s fun d =>
      (fits → d.stackState k.val = skTest ∧ s.dev.keepsBut [.regs] d) ∧
      (¬fits → d.stackState k.val = skMismatch ∧ (d.stackRec k.val).failedAt = some s.dev.devNs) ∧
      d.fld (Reg.stkScfg k.val) Fld.stkScfgHeight = h.toNat ∧ d.fld (Reg.stkScfg k.val) Fld.stkScfgCap24 = bit01 cap24 ∧
      s.dev.keepsBut [.regs, .log, .stk, .clk] d) ∧
  (∀ (s : State) (k : StackId), s.dev.alive = true → s.dev.stackState k.val = skTrain →
    Gives (.stackTrainingFail k) s fun d => (d.stackRec k.val).trains = (s.dev.stackRec k.val).trains + 1 ∧
      ((s.dev.stackRec k.val).trains < 2 → d.stackState k.val = skTrain ∧ s.dev.keepsBut [.stk] d) ∧
      (2 ≤ (s.dev.stackRec k.val).trains → d.stackState k.val = skFailed ∧ s.dev.log.gains d.log (internalOrigin (Reg.stkScfg k.val))
        (Reg.stkScfg k.val) (s.dev.rd (Reg.stkScfg k.val)) (d.rd (Reg.stkScfg k.val)) .degraded) ∧
      s.dev.keepsBut [.regs, .log, .stk, .clk] d) ∧
  (∀ (s : State) (k : StackId) (ppr : Word) (bad : List Nat), s.dev.alive = true → s.dev.stackState k.val = skTest →
    Gives (.stackTestComplete k ppr bad) s fun d => d.stackState k.val = skUp ∧
      bitAt (d.rd (Reg.dieStat (k.val / 3))) (4 + k.val % 3) = true ∧
      (s.dev.rd (Reg.stkPpr k.val) < 2 ^ 32 → d.rd (Reg.stkPpr k.val) = satInc 32 ppr.toNat (s.dev.rd (Reg.stkPpr k.val))) ∧
      (ppr = 1 → s.dev.log.gains d.log (internalOrigin (Reg.stkPpr k.val)) (Reg.stkPpr k.val) (s.dev.rd (Reg.stkPpr k.val))
        (satInc 32 1 (s.dev.rd (Reg.stkPpr k.val))) .ok) ∧
      d.rd (Reg.stkBadUnits k.val) = ((bad.dedup.filter fun u => decide (u < s.dev.stackBytes k.val / 65536)).length) % 2 ^ 32 ∧
      (∀ x, x ∈ d.stk.bad ↔ x ∈ s.dev.stk.bad ∨ (x.stack = k.val ∧ x.unit ∈ bad ∧ x.unit < s.dev.stackBytes k.val / 65536)) ∧
      s.dev.keepsBut [.regs, .log, .stk] d) ∧
  (∀ (s : State) (k : StackId) (cause : StackCause), s.dev.alive = true → s.dev.stackState k.val = skUp →
    Gives (.stackFailed k cause) s fun d => d.stackState k.val = skFailed ∧ (d.stackRec k.val).failedAt = some s.dev.devNs ∧
      bitAt (d.rd (Reg.dieStat (k.val / 3))) (4 + k.val % 3) = false ∧
      s.dev.log.gains d.log (internalOrigin (Reg.stkScfg k.val)) (Reg.stkScfg k.val) (s.dev.rd (Reg.stkScfg k.val))
        (d.rd (Reg.stkScfg k.val)) .degraded ∧
      s.dev.keepsBut [.regs, .log, .stk, .clk] d) ∧
  (∀ (s : State) (k : StackId) (t : Nat), s.dev.alive = true → s.dev.stackState k.val = skFailed →
    (s.dev.stackRec k.val).failedAt = some t → t + 128 ≤ s.dev.devNs →
    Gives (.mirrorTakeover k) s fun d =>
      (∀ m ∈ s.dev.mirrorStacks k.val, s.dev.stackState m = skUp → d.flag (Reg.stkScfg m) Fld.stkScfgMirrorActive = true) ∧
      (∀ m, d.stackState m = s.dev.stackState m) ∧ s.dev.keepsBut [.regs] d)

/-- Stacks at work (R214 to R216, R220, R221, R224, R225, R227, Tables 6.5 and 6.6): a slot reserved for timed reads issues those of one 2 KiB unit
of one pass that have a staging place and keep the conflict rules, a block that runs into the next unit staying in front with what it has; a read that breaks one is displaced, counted once, and makes its pass
LATE; one without a place is counted; a slot that is not used goes to the highest of the OPEN users that wait; the oldest block on its way
to a core is staged; a bank is refreshed in a gap, or late and counted; and a retrained interface loses its slots. -/
def Obligations.StackWork : Prop :=
  (∀ (s : State) (k : StackId) (n : Nat), s.dev.alive = true → s.dev.stackState k.val = skUp →
    s.dev.planCode k.val (s.dev.stackRec k.val).slot = 1 →
    let r := s.dev.stackRec k.val
    let late := Reg.dstLatePasses (k.val / 3)
    let coll := Reg.stkSchedColl k.val
    (r.readsT = [] → s.dev.openWaits k.val = [] → r.reqs = [] →
      Settles (.stackSlot k n []) s fun d => d.stackRec k.val = { r with slot := (r.slot + 1) % 128, total := r.total + 1, grant := 0 } ∧
        s.dev.keepsBut [.stk] d) ∧
    (r.readsT = [] → s.dev.openWaits k.val ≠ [] →
      Settles (.stackSlot k n []) s fun d => (∃ q ∈ s.dev.openWaits k.val, (∀ j ∈ s.dev.openWaits k.val, q ≤ j) ∧
        d.stackRec k.val = { r with slot := (r.slot + 1) % 128, total := r.total + 1, grant := q }) ∧ s.dev.keepsBut [.stk] d) ∧
    (∀ x xs, r.readsT = x :: xs → s.dev.stageRoom x [] = true → r.readOk r.total x.at = true →
      let fs := s.dev.slotReads x (x :: xs) []
      Settles (.stackSlot k n []) s fun d =>
        (d.stackRec k.val).slot = (r.slot + 1) % 128 ∧ (d.stackRec k.val).total = r.total + 1 ∧
        (d.stackRec k.val).lastUsed = some r.total ∧
        (d.stackRec k.val).readsT = ((fs.filter fun y => !y.ends).map fun y =>
          { y with data := y.data ++ s.dev.stackRead k.val y.at y.now, displaced := false }) ++ r.readsT.drop fs.length ∧
        (d.stackRec k.val).flights.map (fun y => (y.core, y.ctx, y.event, y.phase, y.data, y.degraded)) =
          r.flights.map (fun y => (y.core, y.ctx, y.event, y.phase, y.data, y.degraded)) ++ (fs.filter fun y => y.ends).map
            (fun y => (y.core, y.ctx, y.event, y.phase, y.data ++ s.dev.stackRead k.val y.at y.now, y.degraded)) ∧
        d.rd (Reg.stkCe k.val) = (satInc 32 n (s.dev.rd (Reg.stkCe k.val))) % 2 ^ 32 ∧ d.rd coll = s.dev.rd coll ∧
        d.stk.mem = s.dev.stk.mem ∧ s.dev.keepsBut [.regs, .log, .stk, .fab, .clk] d) ∧
    (∀ x xs, r.readsT = x :: xs → s.dev.stageRoom x [] = true → r.readOk r.total x.at = false → r.reqs = [] →
      Settles (.stackSlot k n []) s fun d =>
        (d.stackRec k.val).readsT = { x with displaced := true } :: xs ∧ (d.stackRec k.val).flights = r.flights ∧
        d.rd coll = (if x.displaced then s.dev.rd coll else satInc 32 1 (s.dev.rd coll)) ∧
        d.rd late = (if x.displaced = false ∧ x.timed = true ∧ (k.val / 3, x.pass) ∉ s.dev.stk.latePasses
          then satInc 32 1 (s.dev.rd late) else s.dev.rd late) ∧ d.stk.mem = s.dev.stk.mem) ∧
    (∀ x xs, r.readsT = x :: xs → s.dev.stageRoom x [] = false → r.reqs = [] →
      Settles (.stackSlot k n []) s fun d => (d.stackRec k.val).readsT = r.readsT ∧ (d.stackRec k.val).flights = r.flights ∧
        d.rd (Reg.stkRingWait k.val) = satInc 32 1 (s.dev.rd (Reg.stkRingWait k.val)) ∧ s.dev.regsBut [Reg.stkRingWait k.val] d)) ∧
  (∀ (s : State) (c : CoreId) (k : Nat) (f : Flight) (x : CtxRec), s.dev.alive = true →
    let die := clOf c.val / 16
    3 * die ≤ k → k < 3 * die + 3 → f ∈ (s.dev.stackRec k).flights → f.core = c.val →
    (∀ j g, 3 * die ≤ j → j < 3 * die + 3 → g ∈ (s.dev.stackRec j).flights → g.core = c.val →
      f.stamp ≤ g.stamp ∧ (f.stamp = g.stamp → j = k ∧ g = f)) → s.dev.ctxRec c.val f.ctx = some x →
    let size := bitsOf x.ring 16 16 * 512
    let pos := SMap.get (fun _ => 0) (s.dev.core c.val).ringPos f.ctx
    let a := bitsOf x.ring 0 16 * 512 + pos
    Gives (.blockStaged c) s fun d => (d.stackRec k).flights = (s.dev.stackRec k).flights.erase f ∧
      (d.core c.val).staged = (s.dev.core c.val).staged ++ [⟨f.ctx, f.event, f.phase, a, f.degraded, x.consumers⟩] ∧
      SMap.get (fun _ => 0) (d.core c.val).ringPos f.ctx = (if size = 0 then 0 else (pos + f.size) % size) ∧
      d.fab.ws = (s.dev.wsWrite c.val a f.data).fab.ws ∧ s.dev.keepsBut [.stk, .fab] d) ∧
  (∀ (s : State) (k : StackId) (b : Fin 16), s.dev.alive = true → s.dev.stackState k.val = skUp →
    let r := s.dev.stackRec k.val
    let late := SMap.get (fun _ => 0) r.refreshed b.val + 1950 < r.total
    let done := fun d : Dev => SMap.get (fun _ => 0) (d.stackRec k.val).refreshed b.val = r.total ∧
      (d.stackRec k.val).bank b.val = { r.bank b.val with row := none, busy := r.total + 160 }
    Gives (.refresh k b) s fun d =>
      (late → done d ∧ d.rd (Reg.stkRefreshLate k.val) = satInc 32 1 (s.dev.rd (Reg.stkRefreshLate k.val)) ∧
        s.dev.regsBut [Reg.stkRefreshLate k.val] d) ∧
      (¬late → s.dev.bankWanted k.val b.val = false → done d ∧ d.regs = s.dev.regs) ∧
      (¬late → s.dev.bankWanted k.val b.val = true → d = s.dev) ∧ s.dev.keepsBut [.regs, .stk] d) ∧
  (∀ (s : State) (k : StackId) (n : Nat), s.dev.alive = true → s.dev.stackState k.val = skUp →
    let r := s.dev.stackRec k.val
    let die := k.val / 3
    let late := Reg.dstLatePasses die
    Gives (.stackInterfaceRetrain k n) s fun d => d.stackRec k.val = { r with slot := (r.slot + n) % 128, total := r.total + n } ∧
      d.rd (Reg.stkSchedColl k.val) = (satInc 32 n (s.dev.rd (Reg.stkSchedColl k.val))) % 2 ^ 32 ∧
      (∀ x xs, r.readsT = x :: xs → x.timed = true → (∀ p, 3 * die ≤ p → p < 3 * die + 3 → p ≠ k.val → (s.dev.stackRec p).readsT = []) →
        d.rd late = if (die, x.pass) ∈ s.dev.stk.latePasses then s.dev.rd late else satInc 32 1 (s.dev.rd late)) ∧
      s.dev.keepsBut [.regs, .stk, .fab] d)

/-- Scaling and adaptation (R246, R257 to R260, R263, R267, R272, R274): the close of a row's complete step decides its exponent, by the limits
in force, or those that a live write of the same cycle replaced; a SCALE token carries the exponent of the close that it comes from, once its
step has come; a Scrim block, once all its tokens are there, gives one partial for each output row; words corrected by a read are counted; a digest ends the epoch with a request
for the other context; and the shadow copy leaves nothing to copy. -/
def Obligations.ScalesAndEpochs : Prop :=
  (∀ (s : State) (cl : ClusterId) (r : Fin 4096) (tie : Bool) (w : StepStat), s.dev.alive = true →
    s.dev.flag (Reg.numRow cl.val r.val) Fld.numRowInUse = true → s.dev.closing cl.val r.val = some w →
    let f := s.dev.rowFmt cl.val r.val
    let e := s.dev.rowExp cl.val r.val
    let lim := s.dev.stepWord (s.dev.rowLimits cl.val r.val) tie
    let clamp := Reg.numClamp cl.val
    let adapts := w.seen ≠ 0 ∧ s.dev.flag (s.dev.rowCfg cl.val r.val) Fld.numRcCfgMode = true ∧
      fieldOf (s.dev.stepWord Reg.numGcfg tie) Fld.numGcfgScaleHold ≠ 1
    let raises := fieldOf lim Fld.numRcLimitsSatLimit < w.sat
    let small := ((magVal f w.maxabs).scale 2).lt (magVal f (fmtOf f).top) = true
    let due := s.dev.fld (Reg.numRow cl.val r.val) Fld.numRowShrink + 1 = fieldOf lim Fld.numRcLimitsShrinkSteps
    Settles (.stepClose cl r tie) s fun d =>
      (¬adapts → d.rowExp cl.val r.val = e) ∧
      (adapts → raises → e < (rowRange f).2 → d.fld (Reg.numRow cl.val r.val) Fld.numRowE = lowBits 8 (e + 1) ∧
        d.rd (Reg.numRises cl.val) = satInc 32 1 (s.dev.rd (Reg.numRises cl.val))) ∧
      (adapts → raises → ¬ e < (rowRange f).2 → d.rowExp cl.val r.val = e ∧ d.rd clamp = satInc 32 1 (s.dev.rd clamp)) ∧
      (adapts → ¬raises → small → due → (rowRange f).1 < e → d.fld (Reg.numRow cl.val r.val) Fld.numRowE = lowBits 8 (e - 1) ∧
        d.rd (Reg.numFalls cl.val) = satInc 32 1 (s.dev.rd (Reg.numFalls cl.val))) ∧
      (adapts → ¬raises → small → due → ¬ (rowRange f).1 < e → d.rowExp cl.val r.val = e ∧ d.rd clamp = satInc 32 1 (s.dev.rd clamp)) ∧
      (adapts → ¬raises → ¬(small ∧ due) → d.rowExp cl.val r.val = e) ∧
      (d.row cl.val r.val).closed = (s.dev.row cl.val r.val).closed + 1 ∧
      (d.row cl.val r.val).due = (s.dev.row cl.val r.val).due.tail ∧
      ((s.dev.row cl.val r.val).due = [] → (d.row cl.val r.val).run = StepStat.init) ∧
      (d.row cl.val r.val).exps.head? = some ((s.dev.row cl.val r.val).closed + 1, d.rowExp cl.val r.val) ∧
      s.dev.keepsBut [.regs, .log, .num] d) ∧
  (∀ (s : State) (cl : ClusterId) (r : Fin 4096) (x : Circuit), s.dev.alive = true →
    s.dev.flag (Reg.numRow cl.val r.val) Fld.numRowInUse = true →
    let w := s.dev.row cl.val r.val
    let z := s.dev.scaleFor cl.val r.val w.sent
    let late := Reg.numStatLate cl.val
    s.dev.stepBegun cl.val r.val w.sent = true → (s.dev.portCircs cl.val 35)[s.dev.rowIndex cl.val r.val]? = some x →
    s.dev.circWave x = none → s.dev.spillAt x 0 = none →
    (∀ y : Nat × Int, (w.exps.find? fun v => decide (v.1 = w.sent + 1 - s.dev.fld (s.dev.rowCfg cl.val r.val) Fld.numRcCfgLag)) = some y →
      z = (y.2, w.sent + 1 - s.dev.fld (s.dev.rowCfg cl.val r.val) Fld.numRcCfgLag, false)) ∧
    Settles (.scaleToken cl r) s fun d => (d.row cl.val r.val).sent = w.sent + 1 ∧
      (d.row cl.val r.val).carried.head? = some (w.sent, z.1, z.2.1) ∧
      (∃ t : Token, d.waitAt x.key 0 = s.dev.waitAt x.key 0 ++ [t] ∧ t.kind = 1 ∧ t.free = x.free ∧ t.degraded = false ∧
        t.evslot = BitVec.ofNat 8 (if x.free then 0 else s.dev.eventOfStep w.sent % 256) ∧
        t.payload = BitVec.ofNat 64 (scalePayload z.1 ((w.promo.filter fun p => decide (p.2 ≤ z.2.1)).map fun p => p.1) w.sent)) ∧
      d.rd late = (if z.2.2 then satInc 32 1 (s.dev.rd late) else s.dev.rd late) ∧
      s.dev.keepsBut [.regs, .stk, .fab, .num] d) ∧
  (∀ (s : State) (cl : ClusterId) (r : Fin 4096) (outs corrected : Nat) (t0 : ScrimTok) (l : List ScrimTok) (x : Circuit),
    s.dev.alive = true → s.dev.fit 34 = true →
    SMap.get (fun _ => []) s.dev.num.scrimIn (4096 * cl.val + r.val) = t0 :: l →
    let ts := (t0 :: l).filter fun t => t.tag = t0.tag
    (ts.length < s.dev.scrimCount cl.val r.val t0.tag → Settles (.scrimPartial cl r outs corrected []) s fun d => d = s.dev) ∧
    (s.dev.scrimCount cl.val r.val t0.tag ≤ ts.length →
      (s.dev.portCircs cl.val 34)[((s.dev.scrimRows cl.val).takeWhile fun y => y ≠ r.val).length]? = some x →
      s.dev.circWave x = none → s.dev.spillAt x 0 = none →
      Settles (.scrimPartial cl r outs corrected []) s fun d =>
        SMap.get (fun _ => []) d.num.scrimIn (4096 * cl.val + r.val) = ((t0 :: l).filter fun t => t.tag ≠ t0.tag) ∧
        d.rd (Reg.numScrimOps cl.val) = (satInc 32 ts.length (s.dev.rd (Reg.numScrimOps cl.val))) % 2 ^ 32 ∧
        d.rd (Reg.numScrimCe cl.val) = (satInc 32 corrected (s.dev.rd (Reg.numScrimCe cl.val))) % 2 ^ 32 ∧
        d.rd (Reg.numNanIn cl.val) =
          (satInc 32 (s.dev.scrimInvalid cl.val r.val ts outs []) (s.dev.rd (Reg.numNanIn cl.val))) % 2 ^ 32 ∧
        (∃ us : List Token, d.waitAt x.key 0 = s.dev.waitAt x.key 0 ++ us ∧
          us.map (fun u => u.payload) = (List.range outs).map fun i => BitVec.ofNat 64 (s.dev.partialSum cl.val r.val ts i outs [])) ∧
        s.dev.keepsBut [.regs, .log, .stk, .fab, .num] d)) ∧
  (∀ (s : State) (g : Fin 64) (k : Nat) (corrected : List (CoreId × Nat)), s.dev.alive = true →
    (s.dev.adapt g.val).committing = true → s.dev.pairOther g.val = some k →
    let q : SwitchReq := ⟨k, false, true, none⟩
    let w := s.dev.countCes corrected
    Gives (.epochDigest g corrected) s fun d => (d.adapt g.val).committing = false ∧ (d.adapt g.val).digest = s.dev.epochDigest g.val ∧
      (∀ c : CoreId, d.rd (Reg.coWsCe (clOf c.val) (posOf c.val)) = w.rd (Reg.coWsCe (clOf c.val) (posOf c.val))) ∧
      (∀ c n, corrected = [(c, n)] → d.rd (Reg.coWsCe (clOf c.val) (posOf c.val)) =
        (satInc 32 n (s.dev.rd (Reg.coWsCe (clOf c.val) (posOf c.val)))) % 2 ^ 32) ∧
      (w.switchOk g.val q = true → (d.grp g.val).req = some q) ∧
      (w.switchOk g.val q = false → s.dev.log.gains d.log (internalOrigin (Reg.scrCtxsel g.val)) (Reg.scrCtxsel g.val)
        (s.dev.grp g.val).ctx k .refused) ∧
      s.dev.keepsBut [.regs, .log, .fab, .num] d) ∧
  (∀ (s : State) (g : Fin 64) (b p q : Nat) (live shadow : CtxRec) (corrected : List (CoreId × Nat)), s.dev.alive = true →
    (s.dev.adapt g.val).copyDue = true →
    (s.dev.adapt g.val).copying = [b] →
    (s.dev.adapt g.val).held = [] → s.dev.ctxRec (b / 2 ^ 18) (s.dev.coreCtx (b / 2 ^ 18)) = some live →
    s.dev.ctxRec (b / 2 ^ 18) live.other = some shadow → live.storeBlocks = [p] → shadow.storeBlocks = [q] → p ≠ q →
    p / 512 * 512 = b % 2 ^ 18 / 512 * 512 →
    Gives (.shadowCopy g corrected) s fun d => (d.adapt g.val).copying = [] ∧ (d.adapt g.val).copyDue = false ∧
      (∀ c n, corrected = [(c, n)] → d.rd (Reg.coWsCe (clOf c.val) (posOf c.val)) =
        (satInc 32 n (s.dev.rd (Reg.coWsCe (clOf c.val) (posOf c.val)))) % 2 ^ 32) ∧
      d.fab.ws = SMap.setList (fun _ => 0) s.dev.fab.ws (b / 2 ^ 18 * 2 ^ 18 + q) (s.dev.wsRead (b / 2 ^ 18) p live.blockBytes) ∧
      s.dev.keepsBut [.regs, .log, .fab, .num] d)

/-- The Ethernet port of the time service (R325, R327, R331): Announce messages and their receipt timeout choose the time transmitter; a Sync,
one-step or with its Follow_Up, is kept and measured once a delay is known; and delay exchanges are sent and matched. -/
def Obligations.PtpMessages : Prop :=
  (∀ (s : State) (a : AnnounceMsg), s.dev.alive = true → s.dev.fit 36 = true → s.dev.tms.ethUp = true →
    a.domain.toNat = s.dev.fld Reg.tmsCfg Fld.tmsCfgDomain →
    let others := s.dev.tms.foreign.filter fun f =>
      decide (f.msg.sender ≠ a.sender) && decide (s.dev.devNs < f.heardAt + s.dev.announceLimit f)
    others.length < 8 →
    Gives (.announce a) s fun d =>
      d.tms.foreign = others ++ [⟨a, s.dev.devNs⟩] ∧
      d.tms.chosen = (bestMaster d.tms.foreign).map (fun f => f.msg.sender) ∧ d.tms.chosen ≠ none ∧
      (d.src 1).qualified = true ∧ s.dev.keepsBut [.regs, .freeCtr, .tms] d) ∧
  (∀ (s : State) (tie : Bool) (f : Foreign), s.dev.alive = true → s.dev.fit 36 = true →
    (s.dev.tms.foreign.find? fun f => some f.msg.sender = s.dev.tms.chosen) = some f → f.heardAt + s.dev.announceLimit f ≤ s.dev.devNs →
    Gives (.announceTimeout tie) s fun d => (tie = true → d = s.dev) ∧
      (tie = false → d.tms.foreign = (s.dev.tms.foreign.filter fun g => decide (s.dev.devNs < g.heardAt + s.dev.announceLimit g)) ∧
        d.tms.chosen = (bestMaster d.tms.foreign).map (fun f => f.msg.sender) ∧
        (d.tms.chosen = none → (d.src 1).qualified = false)) ∧
      s.dev.keepsBut [.regs, .freeCtr, .tms] d) ∧
  (∀ (s : State) (m : SyncMsg), s.dev.alive = true → s.dev.fit 36 = true → s.dev.tms.ethUp = true →
    m.domain.toNat = s.dev.fld Reg.tmsCfg Fld.tmsCfgDomain → s.dev.tms.chosen = some m.sender →
    Gives (.sync m) s fun d =>
      ((∀ q, (s.dev.src 1).req = some q → q.pending = none) →
        (m.followUp = false → m.twoStep = true → d.tms.twoStep = some ⟨m.seq, m.rxTime, m.correction⟩ ∧ d.regs = s.dev.regs) ∧
        (m.followUp = false → m.twoStep = false → (s.dev.src 1).delay = none →
          (d.src 1).sync = some ⟨m.origin + m.correction, Int.ofNat m.rxTime⟩ ∧ d.tms.twoStep = none ∧ d.regs = s.dev.regs) ∧
        (∀ w, m.followUp = true → s.dev.tms.twoStep = some w → w.seq = m.seq → (s.dev.src 1).delay = none →
          (d.src 1).sync = some ⟨m.origin + m.correction + w.correction, Int.ofNat w.rx⟩ ∧ d.tms.twoStep = none) ∧
        (∀ dl, m.followUp = false → m.twoStep = false → (s.dev.src 1).delay = some dl → s.dev.source = 1 →
          d.tms.lastTheta = some ((Int.ofNat m.rxTime - (m.origin + m.correction) : Int) - dl - (s.dev.asym 0 : Rat)))) ∧
      (∀ q w, (s.dev.src 1).req = some q → q.pending = some m.seq → m.followUp = true → s.dev.tms.twoStep = some w → w.seq = m.seq →
        let y : SyncRec := ⟨m.origin + m.correction + w.correction, Int.ofNat w.rx⟩
        (q.t4 = none → (s.dev.src 1).delay = none → (d.src 1).req = some { q with sync := some y, pending := none }) ∧
        (∀ t4, q.t4 = some t4 → (s.dev.src 1).delay = none → s.dev.source ≠ 1 →
          (d.src 1).delay = some ((((y.t2 - y.t1) + (t4 - q.t3) : Int) : Rat) / 2))) ∧
      (∀ q, (s.dev.src 1).req = some q → q.t4 = none → q.pending ≠ none → m.followUp = false → m.twoStep = true →
        (d.src 1).req = some { q with pending := none }) ∧
      s.dev.keepsBut [.regs, .log, .freeCtr, .outbox, .tms] d) ∧
  (∀ (s : State) (t3 : Nat), s.dev.alive = true → s.dev.fit 36 = true → s.dev.tms.ethUp = true → s.dev.tms.chosen ≠ none →
    s.dev.named 1 = true → (s.dev.src 1).reqDue ≤ s.dev.devNs →
    Gives (.delayReq t3) s fun d =>
      d.src 1 = { s.dev.src 1 with
        req := some ⟨(s.dev.src 1).nextSeq, t3, (s.dev.src 1).sync, s.dev.tms.twoStep.map fun w => w.seq, none⟩
        nextSeq := ((s.dev.src 1).nextSeq + 1) % 65536
        reqDue := nextDue (s.dev.src 1).reqDue s.dev.devNs (perSecond (s.dev.fld Reg.tmsPtp Fld.tmsPtpDreqLog)) } ∧
      d.outbox = .delayReq s.dev.ptpDst s.dev.mac (s.dev.fld Reg.tmsCfg Fld.tmsCfgDomain) (s.dev.src 1).nextSeq :: s.dev.outbox ∧
      s.dev.keepsBut [.outbox, .tms] d) ∧
  (∀ (s : State) (domain : Byte) (seq : BitVec 16) (t4 : Int), s.dev.alive = true → s.dev.fit 36 = true → s.dev.tms.ethUp = true →
    Gives (.delayResp domain seq t4) s fun d =>
      (domain.toNat ≠ s.dev.fld Reg.tmsCfg Fld.tmsCfgDomain → d = s.dev) ∧
      (domain.toNat = s.dev.fld Reg.tmsCfg Fld.tmsCfgDomain →
        ((∀ q, (s.dev.src 1).req = some q → q.seq ≠ seq.toNat ∨ q.t4 ≠ none) →
          d.rd Reg.tmsUnmatched = satInc 32 1 (s.dev.rd Reg.tmsUnmatched) ∧ d.tms = s.dev.tms) ∧
        (∀ q, (s.dev.src 1).req = some q → q.seq = seq.toNat → q.t4 = none → q.pending ≠ none →
          d.src 1 = { s.dev.src 1 with req := some { q with t4 := some t4 } } ∧ d.regs = s.dev.regs) ∧
        (∀ q y, (s.dev.src 1).req = some q → q.seq = seq.toNat → q.t4 = none → q.pending = none → q.sync = some y →
          (s.dev.src 1).delay = none → (d.src 1).delay = some ((((y.t2 - y.t1) + (t4 - q.t3) : Int) : Rat) / 2)) ∧
        (∀ q y x, (s.dev.src 1).req = some q → q.seq = seq.toNat → q.t4 = none → q.pending = none → q.sync = some y →
          (s.dev.src 1).delay = some x →
          (d.src 1).delay =
            some (x + ((((y.t2 - y.t1) + (t4 - q.t3) : Int) : Rat) / 2 - x) / 2 ^ s.dev.fld Reg.tmsServo Fld.tmsServoDlyShift) ∧
          (d.src 1).req = none)) ∧
      s.dev.keepsBut [.regs, .log, .freeCtr, .outbox, .tms] d)

/-- TIME blocks (R322, R327, R331, R344, R345; Table 9.6): a TSYNC qualifies its source by the state it carries, and its timeout undoes that;
on a port that gives time a TSYNC goes out 2^TSYNC_LOG times a second and a TINFO with its TASYM once a second; a TINFO is kept; and delay
requests are sent 2^DREQ_LOG times a second, answered and matched. -/
def Obligations.TimeBlocks : Prop :=
  (∀ (s : State) (p : Fin 6) (t1 t2 : Nat) (sq st : Byte), s.dev.alive = true → s.dev.fit 36 = true →
    Gives (.tsyncRx p t1 t2 sq st) s fun d =>
      (s.dev.named (p.val + 2) = false ∨ s.dev.portUp p.val = false → d = s.dev) ∧
      (s.dev.named (p.val + 2) = true → s.dev.portUp p.val = true →
        ((d.src (p.val + 2)).qualified = true ↔ st.toNat % 8 = tsAcquire ∨ st.toNat % 8 = tsLocked ∨ st.toNat % 8 = tsHoldover) ∧
        (d.src (p.val + 2)).heardAt = s.dev.devNs ∧ (d.src (p.val + 2)).expired = false) ∧
      s.dev.keepsBut [.regs, .log, .freeCtr, .outbox, .tms] d) ∧
  (∀ (s : State) (p : Fin 6) (tie : Bool), s.dev.alive = true → s.dev.fit 36 = true → (s.dev.src (p.val + 2)).qualified = true →
    (s.dev.src (p.val + 2)).heardAt + 4000000000 / 2 ^ s.dev.fld Reg.tmsPtp Fld.tmsPtpTsyncLog ≤ s.dev.devNs →
    Gives (.tsyncTimeout p tie) s fun d => (tie = true → d = s.dev) ∧
      (tie = false → (d.src (p.val + 2)).qualified = false ∧ (d.src (p.val + 2)).expired = true) ∧
      s.dev.keepsBut [.regs, .freeCtr, .tms] d) ∧
  (∀ (s : State) (p : Fin 72) (l : LaneId), s.dev.alive = true → s.dev.givesTime p.val = true → s.dev.portLane p.val = some l →
    s.dev.txDue false p.val ≤ s.dev.devNs → s.dev.sends l →
    Gives (.tsyncTx p) s fun d =>
      d.outbox = s.dev.laneOut l 0x10
        (fullTime s.dev.net16 * 2 ^ 24 + s.dev.rd (Reg.ptTsyncTx p.val) % 256 * 2 ^ 16 + s.dev.timeByte * 2 ^ 8) ++ s.dev.outbox ∧
      d.txDue false p.val =
        nextDue (s.dev.txDue false p.val) s.dev.devNs (perSecond (s.dev.fld Reg.tmsPtp Fld.tmsPtpTsyncLog)) ∧
      d.rd (Reg.ptTsyncTx p.val) = satInc 32 1 (s.dev.rd (Reg.ptTsyncTx p.val)) ∧ s.dev.keepsBut [.regs, .outbox, .ing, .tms] d) ∧
  (∀ (s : State) (p : Fin 72) (l : LaneId), s.dev.alive = true → s.dev.givesTime p.val = true → s.dev.portLane p.val = some l →
    s.dev.txDue true p.val ≤ s.dev.devNs → s.dev.sends l → (s.dev.lane l).txRun < 1022 → (s.dev.lane l).sinceLink < 65533 →
    let info := s.dev.rd Reg.tmsUtc % 65536 * 2 ^ 104 + (bitsOf (s.dev.rd Reg.tmsUtc) 16 3 + bitsOf (s.dev.rd Reg.tmsStat) 4 1 * 8) * 2 ^ 96 +
      (s.dev.rd Reg.tmsGm0 + 2 ^ 32 * s.dev.rd Reg.tmsGm1) * 2 ^ 32 + (s.dev.fld Reg.tmsStat Fld.tmsStatStepsRemoved + 1) % 256 * 2 ^ 24
    let tasym := lowBits 32 (-(s.dev.asym p.val)) * 2 ^ 88
    Gives (.tinfoTx p) s fun d =>
      (isIngest l = true → ∃ e : Dev, d.outbox = e.laneOut l 0x14 tasym ++ s.dev.laneOut l 0x13 info ++ s.dev.outbox ∧
        (e.lane l).txHist = (scramble (s.dev.lane l).txHist (ctlPayload 0x13 info)).2 ∧ s.dev.keepsBut [.outbox, .ing, .tms] e) ∧
      (isIngest l = false → s.dev.dev16 < s.dev.slotAfter l → d.outbox = s.dev.laneOut l 0x13 info ++ s.dev.outbox ∧
        (d.lane l).txq = [(1, true, ctlPayload 0x14 tasym)]) ∧
      d.txDue true p.val = nextDue (s.dev.txDue true p.val) s.dev.devNs (perSecond 0) ∧
      s.dev.keepsBut [.outbox, .ing, .tms] d) ∧
  (∀ (s : State) (p : Fin 6) (b : BitVec 120), s.dev.alive = true → s.dev.fit 36 = true →
    Gives (.tinfoRx p b) s fun d => (s.dev.portUp p.val = false → d = s.dev) ∧
      (s.dev.portUp p.val = true → d.src (p.val + 2) = { s.dev.src (p.val + 2) with
        gm := BitVec.ofNat 64 (bitsOf b.toNat 32 64), steps := bitsOf b.toNat 24 8,
        utc := utcWord (bitsOf b.toNat 104 16) (bitAt b.toNat 96) (bitAt b.toNat 97) (bitAt b.toNat 98), arb := bitAt b.toNat 99 }) ∧
      (s.dev.source ≠ p.val + 2 → d.regs = s.dev.regs) ∧ s.dev.keepsBut [.regs, .tms] d) ∧
  (∀ (s : State) (p : Fin 72) (sq : Byte) (t : Nat) (l : LaneId), s.dev.alive = true → s.dev.fit 36 = true → s.dev.timeState ≠ tsFreerun →
    s.dev.portLane p.val = some l → s.dev.carriesTime p.val = true → s.dev.sends l →
    Gives (.tdreqRx p sq t) s fun d => d.outbox = s.dev.laneOut l 0x12 (fullTime t * 2 ^ 24 + sq.toNat % 256 * 2 ^ 16) ++ s.dev.outbox ∧
      d.rd (Reg.ptDreqRx p.val) = satInc 32 1 (s.dev.rd (Reg.ptDreqRx p.val)) ∧ s.dev.keepsBut [.regs, .outbox, .ing] d) ∧
  (∀ (s : State) (p : Fin 6) (t3 : Nat) (l : LaneId), s.dev.alive = true → s.dev.fit 36 = true → s.dev.named (p.val + 2) = true →
    s.dev.portUp p.val = true → s.dev.portLane (p.val + 1) = some l → (s.dev.src (p.val + 2)).reqDue ≤ s.dev.devNs → s.dev.sends l →
    Gives (.tdreqTx p t3) s fun d =>
      d.outbox = s.dev.laneOut l 0x11 ((s.dev.src (p.val + 2)).nextSeq % 256 * 2 ^ 16) ++ s.dev.outbox ∧
      (d.src (p.val + 2)).reqDue =
        nextDue (s.dev.src (p.val + 2)).reqDue s.dev.devNs (perSecond (s.dev.fld Reg.tmsPtp Fld.tmsPtpDreqLog)) ∧
      (d.src (p.val + 2)).req = some ⟨(s.dev.src (p.val + 2)).nextSeq % 256, t3, (s.dev.src (p.val + 2)).sync, none, none⟩ ∧
      (d.src (p.val + 2)).nextSeq = ((s.dev.src (p.val + 2)).nextSeq + 1) % 256 ∧ s.dev.keepsBut [.outbox, .ing, .tms] d) ∧
  (∀ (s : State) (p : Fin 6) (sq : Byte) (t4 : Nat), s.dev.alive = true → s.dev.fit 36 = true →
    Gives (.tdrespRx p sq t4) s fun d => (s.dev.portUp p.val = false → d = s.dev) ∧
      (s.dev.portUp p.val = true → (∀ q, (s.dev.src (p.val + 2)).req = some q → q.seq ≠ sq.toNat ∨ q.t4 ≠ none) →
        d.rd Reg.tmsUnmatched = satInc 32 1 (s.dev.rd Reg.tmsUnmatched) ∧ d.tms = s.dev.tms) ∧
      (∀ q y, s.dev.portUp p.val = true → (s.dev.src (p.val + 2)).req = some q → q.seq = sq.toNat → q.t4 = none → q.pending = none →
        q.sync = some y → (s.dev.src (p.val + 2)).delay = none →
        (d.src (p.val + 2)).delay = some ((((y.t2 - y.t1) + (Int.ofNat t4 - q.t3) : Int) : Rat) / 2)) ∧
      s.dev.keepsBut [.regs, .log, .freeCtr, .outbox, .tms] d)

/-- Marks (R340, R343, R347 to R349, R324): an accepted jump waits for its time, then steps the counter, enters ACQUIRE, or
HOLDOVER with no source, and is logged; a mark
that is due is counted, shown on its pin and followed by the next; its block goes out LEAD before it; and its pulse ends. -/
def Obligations.Marks : Prop :=
  (∀ (s : State), s.dev.alive = true → s.dev.fit 36 = true →
    Gives .jumpStep s fun d =>
      ((∀ j, s.dev.tms.jump = some j → s.dev.netNs < j.tS) → d = s.dev) ∧
      (∀ j x, s.dev.tms.jump = some j → j.tS ≤ s.dev.netNs → s.dev.tms.lastTheta = some x → s.dev.tms.paused = [] →
        d.tms.jump = none ∧ d.tms.paused = [] ∧ d.tms.ctr = (Int.ofNat s.dev.tms.ctr - (x * 2 ^ 24).floor).toNat ∧
        s.dev.log.gains d.log (internalOrigin Reg.tmsJump) Reg.tmsJump 0 (lowBits 32 (-(wholeNs x))) .ok ∧
        d.timeState = (if s.dev.source = 0 then tsHoldover else tsAcquire) ∧
        d.rd Reg.tmsJumpsApplied = satInc 32 1 (s.dev.rd Reg.tmsJumpsApplied)) ∧
      s.dev.keepsBut [.regs, .log, .freeCtr, .outbox, .scr, .tms, .acq] d) ∧
  (∀ (s : State) (g : Fin 16), s.dev.alive = true → s.dev.fit 36 = true →
    Gives (.mark g) s fun d =>
      (¬ ((s.dev.gen g.val).armed = true ∧ s.dev.markTime g.val (s.dev.gen g.val).k ≤ s.dev.net16) → d = s.dev) ∧
      ((s.dev.gen g.val).armed = true → s.dev.markTime g.val (s.dev.gen g.val).k ≤ s.dev.net16 →
        d.rd (Reg.mkEmitted g.val) = satInc 32 1 (s.dev.rd (Reg.mkEmitted g.val)) ∧
        d.rd (Reg.mkNext g.val) = ((s.dev.gen g.val).k + 1) % 2 ^ 32 ∧ (d.gen g.val).k = (s.dev.gen g.val).k + 1 ∧
        (d.gen g.val).lastMark = some (s.dev.markTime g.val (s.dev.gen g.val).k) ∧
        (d.gen g.val).armed = !s.dev.lastMark g.val (s.dev.gen g.val).k ∧
        (s.dev.lastMark g.val (s.dev.gen g.val).k = true → d.fld (Reg.mkCtl g.val) Fld.mkCtlMode = 0) ∧
        d.outbox = (if s.dev.flag (Reg.mkCtl g.val) Fld.mkCtlPinEn then
          Output.tmarkEdge g.val (!s.dev.flag (Reg.mkCtl g.val) Fld.mkCtlInvert) (s.dev.markTime g.val (s.dev.gen g.val).k) :: s.dev.outbox
          else s.dev.outbox)) ∧
      s.dev.keepsBut [.regs, .outbox, .tms] d) ∧
  (∀ (s : State) (g : Fin 16) (i : Fin 64), s.dev.alive = true → s.dev.fit 36 = true → s.dev.mkLanes g.val = 2 ^ i.val →
    s.dev.sends (ingestLane i) →
    (s.dev.gen g.val).armed = true ∧ (s.dev.gen g.val).mode = 3 ∨ (s.dev.gen g.val).kSent < (s.dev.gen g.val).k →
    s.dev.markTime g.val (s.dev.gen g.val).kSent ≤ s.dev.net16 + s.dev.fld (Reg.mkLead g.val) Fld.mkLeadLeadNs * 65536 →
    Gives (.markBlock g) s fun d => (d.gen g.val).kSent = (s.dev.gen g.val).kSent + 1 ∧
      d.outbox = s.dev.laneOut (ingestLane i) 0x20 (fullTime (s.dev.markTime g.val (s.dev.gen g.val).kSent) * 2 ^ 24 +
        (s.dev.gen g.val).kSent % 256 * 2 ^ 16 + g.val * 2 ^ 12 + s.dev.fld (Reg.mkCtl g.val) Fld.mkCtlAction) ++ s.dev.outbox ∧
      s.dev.keepsBut [.outbox, .ing, .tms] d) ∧
  (∀ (s : State) (g : Fin 16) (t : Nat), s.dev.alive = true → s.dev.fit 36 = true → (s.dev.gen g.val).pulseEnd = some t →
    Gives (.tmarkWidthEnd g) s fun d => (s.dev.net16 < t → d = s.dev) ∧
      (t ≤ s.dev.net16 → (d.gen g.val).pulseEnd = none ∧
        d.outbox = Output.tmarkEdge g.val (s.dev.flag (Reg.mkCtl g.val) Fld.mkCtlInvert) t :: s.dev.outbox) ∧
      s.dev.keepsBut [.outbox, .tms] d)

/-- Mesh ports (R359, R360, R363 to R366, Table 10.2, R315): a HELLO goes out once in a ms on a port with a lane in SERVICE; a matching HELLO
brings HELLO_WAIT to UP and any other, from HELLO_WAIT or UP, brings MISMATCH, logged, unless a trigger of a lower row meets it; 4 ms without one undo UP; a contribution is dropped
and counted where it is bad, late or heard before, and else joins its event and is sent on, by any lane in SERVICE while the leading one has no slot; the Ethernet link follows its event; and a
free transmit slot of a mesh lane goes to the oldest of its most urgent waiting blocks (R358). -/
def Obligations.MeshPorts : Prop :=
  (∀ (s : State) (p : Fin 6) (l : LaneId), s.dev.alive = true →
    (s.dev.portState p.val = psWait ∨ s.dev.portState p.val = psUp ∨ s.dev.portState p.val = psMismatch) →
    s.dev.portLane (p.val + 1) = some l → s.dev.sends l →
    Gives (.helloTx p) s fun d =>
      ((s.dev.port p.val).sentMs = some (s.dev.devNs / 1000000) → d = s.dev) ∧
      ((s.dev.port p.val).sentMs ≠ some (s.dev.devNs / 1000000) → (d.port p.val).sentMs = some (s.dev.devNs / 1000000) ∧
        d.outbox = s.dev.laneOut l 0x40 (s.dev.helloBits p.val) ++ s.dev.outbox) ∧ s.dev.keepsBut [.outbox, .ing, .msh] d) ∧
  (∀ (s : State) (p : Fin 6) (b : BitVec 120) (tie : Bool), s.dev.alive = true →
    Gives (.hello p b tie) s fun d =>
      (s.dev.portState p.val = psOff ∨ s.dev.portState p.val = psDown → d = s.dev) ∧
      (s.dev.portState p.val = psMismatch → d.portState p.val = psMismatch) ∧
      (s.dev.portState p.val = psWait ∨ s.dev.portState p.val = psUp →
        (s.dev.helloMatches p.val b.toNat = true →
          d.portState p.val = (if tie then s.dev.portState p.val else psUp) ∧ (d.port p.val).matched = s.dev.devNs ∧
          d.rd (Reg.mpHelloRx p.val) = satInc 32 1 (s.dev.rd (Reg.mpHelloRx p.val)) ∧ d.log = s.dev.log) ∧
        (s.dev.helloMatches p.val b.toNat = false → tie = true → d = s.dev) ∧
        (s.dev.helloMatches p.val b.toNat = false → tie = false → d.portState p.val = psMismatch ∧
          d.rd (Reg.mpMismatch p.val) = satInc 32 1 (s.dev.rd (Reg.mpMismatch p.val)) ∧
          s.dev.log.gains d.log (internalOrigin (Reg.mpCfg p.val)) (Reg.mpCfg p.val) (s.dev.rd (Reg.mpCfg p.val))
            (bitsOf b.toNat 114 6 + bitsOf b.toNat 111 3 * 64) .refused)) ∧
      s.dev.keepsBut [.regs, .log, .msh] d) ∧
  (∀ (s : State) (p : Fin 6) (tie : Bool), s.dev.alive = true → s.dev.portState p.val = psUp →
    (s.dev.port p.val).matched + 4000000 ≤ s.dev.devNs →
    Gives (.keepaliveExpiry p tie) s fun d => (tie = true → d = s.dev) ∧
      (tie = false → d.portState p.val = psWait ∧ d.rd (Reg.mpKeepLoss p.val) = satInc 32 1 (s.dev.rd (Reg.mpKeepLoss p.val)) ∧
        s.dev.regsBut [Reg.mpCfg p.val, Reg.mpKeepLoss p.val] d) ∧ s.dev.keepsBut [.regs] d) ∧
  (∀ (s : State) (p : Fin 6) (b : BitVec 120), s.dev.alive = true → s.dev.portUp p.val = true →
    Gives (.contrib p b) s fun d =>
      (s.dev.isMember (bitsOf b.toNat 114 6) = false ∨ s.dev.group = false →
        d.rd Reg.mshContribBad = satInc 32 1 (s.dev.rd Reg.mshContribBad) ∧ s.dev.regsBut [Reg.mshContribBad] d ∧ s.dev.keepsBut [.regs] d) ∧
      (s.dev.isMember (bitsOf b.toNat 114 6) = true → s.dev.group = true → bitAt b.toNat 36 = true → bitsOf b.toNat 30 6 ≠ s.dev.devId →
        (s.dev.fld Reg.mshId Fld.mshIdDetourHops < bitsOf b.toNat 27 3 + 1 ∨ s.dev.routeTo (bitsOf b.toNat 30 6) = none) →
        d.rd Reg.mshDetourDrop = satInc 32 1 (s.dev.rd Reg.mshDetourDrop) ∧ s.dev.regsBut [Reg.mshDetourDrop] d ∧ s.dev.keepsBut [.regs] d) ∧
      (s.dev.isMember (bitsOf b.toNat 114 6) = true → s.dev.group = true →
        (bitAt b.toNat 36 = false ∨ bitsOf b.toNat 30 6 = s.dev.devId) →
        (s.dev.eventLow24 (bitsOf b.toNat 90 24) = none →
          d.rd Reg.mshContribLate = satInc 32 1 (s.dev.rd Reg.mshContribLate) ∧ s.dev.regsBut [Reg.mshContribLate] d ∧ s.dev.keepsBut [.regs] d) ∧
        (∀ e, s.dev.eventLow24 (bitsOf b.toNat 90 24) = some e →
          (bitsOf b.toNat 114 6 = s.dev.devId ∨ e.heard.any (fun c => decide (c.dev = bitsOf b.toNat 114 6)) = true →
            d.rd Reg.mshDup = satInc 32 1 (s.dev.rd Reg.mshDup) ∧ s.dev.regsBut [Reg.mshDup] d ∧ s.dev.keepsBut [.regs] d) ∧
          (bitsOf b.toNat 114 6 ≠ s.dev.devId → e.heard.any (fun c => decide (c.dev = bitsOf b.toNat 114 6)) = false →
            e.closed = false → s.dev.net16 ≤ (s.dev.relTime e.n - 12) * 65536 →
            d.scr = (s.dev.putEv { e with heard := e.heard ++ [contribOf e.n b.toNat] }).scr ∧
            d.rd Reg.mshContribRx = satInc 32 1 (s.dev.rd Reg.mshContribRx) ∧
            (∀ q l, q < 6 → s.dev.fld (Reg.mshFwd (bitsOf b.toNat 114 6)) Fld.mshFwdPorts = 2 ^ q → s.dev.portUp q = true →
              s.dev.contribLane q = some l → s.dev.sends l →
              d.outbox = s.dev.laneOut l 0x41 (noDetour b.toNat) ++ s.dev.outbox)))) ∧
      s.dev.keepsBut [.regs, .outbox, .ing, .scr] d) ∧
  (∀ (s : State) (up : Bool), s.dev.alive = true →
    Gives (.ethernetLinkChange up) s fun d =>
      (d.tms.ethUp = true ↔ up = true ∧ s.dev.locked 5 = true ∧
        (s.dev.boot.regsIn = true ∨ 8 ≤ s.dev.fld Reg.bootStat Fld.bootStatStep)) ∧ s.dev.keepsBut [.tms] d) ∧
  (∀ (d : Dev) (l : LaneId) (b : Nat × Bool × BitVec 128) (rest : List (Nat × Bool × BitVec 128)), (d.lane l).txOn = true →
    (d.lane l).txFree ≤ d.dev16 → (d.lane l).txRun < 1023 → (d.lane l).sinceLink < 65534 → nextBlock (d.lane l).txq = some (b, rest) →
    (∃ u v, (d.lane l).txq = u ++ b :: v ∧ rest = u ++ v ∧ (∀ x ∈ u, b.1 < x.1) ∧ ∀ x ∈ v, b.1 ≤ x.1) ∧
      (d.laneSlot l).outbox = d.blockOut l b.2.1 b.2.2 ++ d.outbox ∧ ((d.laneSlot l).lane l).txq = rest ∧
      d.keepsBut [.outbox, .ing] (d.laneSlot l))

/-- Messages of the host channel (R362, R369 to R372, R377, R383): one for a device no route reaches is dropped, one out of turn is discarded
and counted; an accepted one is the anchor's access to a member's window, its completion at the anchor, or a member's access to host
memory, its data, or its vector, which the anchor serves in turn, round robin by source (log entry 80). -/
def Obligations.HostMessages : Prop :=
  (∀ (s : State) (i : Instr) (ty : Nat) (p : Fin 6) (b : BitVec 120) (data : List (BitVec 128)) (host : List Byte), s.dev.alive = true →
    (i, ty) = (.wreq p b data, 0x42) ∨ (i, ty) = (.wcpl p b data, 0x43) ∨ (i, ty) = (.dmaw p b data, 0x44) ∨
      (i, ty) = (.dmar p b host, 0x45) ∨ (i, ty) = (.dmac p b data, 0x46) ∨ (i, ty) = (.irq p b, 0x47) →
    (s.dev.portUp p.val = false ∨ (bitsOf b.toNat 108 6 ≠ s.dev.devId ∧ s.dev.routeTo (bitsOf b.toNat 108 6) = none) →
      Gives i s fun d => d = s.dev) ∧
    (∀ q l, s.dev.portUp p.val = true → bitsOf b.toNat 108 6 ≠ s.dev.devId → s.dev.routeTo (bitsOf b.toNat 108 6) = some q →
      s.dev.portLane (q + 1) = some l → s.dev.sends l →
      Gives i s fun d => (∃ more, d.outbox = more ++ s.dev.laneOut l ty b.toNat ++ s.dev.outbox) ∧ s.dev.keepsBut [.outbox, .ing] d) ∧
    (s.dev.portUp p.val = true → bitsOf b.toNat 108 6 = s.dev.devId →
      bitsOf b.toNat 83 16 ≠ (s.dev.chan (bitsOf b.toNat 114 6)).expect % 2 ^ 16 →
      Gives i s fun d => d.rd Reg.mshHostDiscard = satInc 32 1 (s.dev.rd Reg.mshHostDiscard) ∧ s.dev.regsBut [Reg.mshHostDiscard] d ∧
        s.dev.keepsBut [.regs] d)) ∧
  (∀ (s : State) (p : Fin 6) (b : BitVec 120) (data : List (BitVec 128)), s.dev.alive = true → s.dev.accepts p b →
    let o := originOfWord (s.dev.rd Reg.logFwd)
    let ofs := bitsOf b.toNat 59 24
    Gives (.wreq p b data) s fun d =>
      (bitsOf b.toNat 114 6 ≠ s.dev.anchor → d = s.dev.accepted b) ∧
      (bitsOf b.toNat 114 6 = s.dev.anchor → bitAt b.toNat 58 = true → ∀ x rest, data = x :: rest →
        (ofs / 4 * 4 = Reg.logFwd → d.rd Reg.logFwd = x.toNat % 2 ^ 16 ∧ (s.dev.accepted b).regsBut [Reg.logFwd] d) ∧
        (ofs / 4 * 4 ≠ Reg.logFwd → d = (s.dev.accepted b).put o ofs (x.toNat % 2 ^ 32))) ∧
      (bitsOf b.toNat 114 6 = s.dev.anchor → bitAt b.toNat 58 = false →
        let r := (s.dev.accepted b).readRun o ofs (bitsOf b.toNat 47 11)
        r.2.queued s.dev.anchor 0x43 (bitsOf b.toNat 31 16 * 2 ^ 67) (toBlocks (r.1.map (leBytes 4)).flatten) none d)) ∧
  (∀ (s : State) (p : Fin 6) (b : BitVec 120) (data : List (BitVec 128)), s.dev.alive = true → s.dev.accepts p b →
    (s.dev.isAnchor = false → Gives (.wcpl p b data) s fun d => d = s.dev.accepted b) ∧
    (s.dev.isAnchor = true → Gives (.wcpl p b data) s fun d =>
      ((∀ x ∈ s.dev.msh.reads, x.rtag ≠ bitsOf b.toNat 67 16) → d.rd Reg.hstLateArrival = satInc 32 1 (s.dev.rd Reg.hstLateArrival) ∧
        s.dev.keepsBut [.regs, .msh] d) ∧
      (∀ x v rest, s.dev.msh.reads.find? (fun x => decide (x.rtag = bitsOf b.toNat 67 16)) = some x → data = v :: rest →
        bitsOf b.toNat 64 3 = 0 →
        (∀ y ∈ d.msh.reads, y.rtag ≠ bitsOf b.toNat 67 16) ∧
        (x.waiter = 0 → d.outbox = .windowData (BitVec.ofNat 32 (v.toNat % 2 ^ 32)) :: s.dev.outbox) ∧
        (x.waiter = 1 → d.outbox = .mgtResponse Status.ok.code (some (BitVec.ofNat 32 (v.toNat % 2 ^ 32))) :: s.dev.outbox) ∧
        s.dev.keepsBut [.outbox, .msh] d))) ∧
  (∀ (s : State) (p : Fin 6) (b : BitVec 120) (data : List (BitVec 128)), s.dev.alive = true → s.dev.accepts p b →
    let bytes := (ofBlocks data).take (bitsOf b.toNat 5 13)
    let free := s.dev.hst.jobs = [] ∧ s.dev.hst.jobAt ≠ some s.dev.devNs
    Gives (.dmaw p b data) s fun d =>
      ((s.dev.isAnchor && s.dev.hostUp) = false → d = s.dev.accepted b) ∧
      ((s.dev.isAnchor && s.dev.hostUp) = true →
        (free → d.outbox = Output.hostWrite (bitsOf b.toNat 19 64) bytes (bitAt b.toNat 18 && s.dev.hst.cfg.relaxed) :: s.dev.outbox ∧
          d.hst = { s.dev.hst with jobLast := bitsOf b.toNat 114 6, jobAt := some s.dev.devNs }) ∧
        (¬ free → 0 < bytes.length → bytes.length ≤ 4096 → d.outbox = s.dev.outbox ∧ d.hst.jobs = s.dev.hst.jobs ++
          [(bitsOf b.toNat 114 6, .write (bitsOf b.toNat 19 64) bytes (bitAt b.toNat 18) none)])) ∧
      s.dev.keepsBut [.outbox, .msh, .hst] d) ∧
  (∀ (s : State) (p : Fin 6) (b : BitVec 120) (host : List Byte), s.dev.alive = true → s.dev.accepts p b →
    (s.dev.isAnchor && s.dev.hostUp) = true →
    let free := s.dev.hst.jobs = [] ∧ s.dev.hst.jobAt ≠ some s.dev.devNs
    Gives (.dmar p b host) s fun d =>
      (free → .hostRead (bitsOf b.toNat 19 64) (bitsOf b.toNat 5 13) ∈ d.outbox ∧
        (s.dev.accepted b).queued (bitsOf b.toNat 114 6) 0x46 (bitsOf b.toNat 83 16 * 2 ^ 67) (toBlocks (host.take (bitsOf b.toNat 5 13))) none d) ∧
      (¬ free → d = { s.dev.accepted b with hst := { s.dev.hst with jobs := s.dev.hst.jobs ++
        [(bitsOf b.toNat 114 6, .read (bitsOf b.toNat 19 64) (bitsOf b.toNat 5 13) (some (bitsOf b.toNat 83 16, host)))] } })) ∧
  (∀ (d : Dev) (src : Nat), d.jobTurn = some src → d.hst.jobs.any (fun x => decide (x.1 = src)) = true ∧
    ((d.hst.jobLast < src ∧ ∀ x ∈ d.hst.jobs, d.hst.jobLast < x.1 → src ≤ x.1) ∨
      ((∀ x ∈ d.hst.jobs, x.1 ≤ d.hst.jobLast) ∧ ∀ x ∈ d.hst.jobs, src ≤ x.1))) ∧
  (∀ (s : State) (p : Fin 6) (b : BitVec 120) (data : List (BitVec 128)), s.dev.alive = true → s.dev.accepts p b → s.dev.isAnchor = false →
    Gives (.dmac p b data) s fun d =>
      ((s.dev.hst.polling.any fun x => decide (x.2 = bitsOf b.toNat 67 16)) = true →
        d = ({ s.dev.accepted b with hst := { s.dev.hst with
          polling := s.dev.hst.polling.filter fun x => decide (x.2 ≠ bitsOf b.toNat 67 16) } }).takeCounts (wordsOfBlocks data)) ∧
      ((s.dev.hst.polling.any fun x => decide (x.2 = bitsOf b.toNat 67 16)) = false →
        s.dev.hst.overdue.contains (bitsOf b.toNat 67 16) = true →
        d.rd Reg.hstLateArrival = satInc 32 1 (s.dev.rd Reg.hstLateArrival) ∧
        d.hst.overdue = s.dev.hst.overdue.erase (bitsOf b.toNat 67 16) ∧ s.dev.keepsBut [.regs, .msh, .hst] d) ∧
      ((s.dev.hst.polling.any fun x => decide (x.2 = bitsOf b.toNat 67 16)) = false →
        s.dev.hst.overdue.contains (bitsOf b.toNat 67 16) = false → d = s.dev.accepted b)) ∧
  (∀ (s : State) (p : Fin 6) (b : BitVec 120), s.dev.alive = true → s.dev.accepts p b → (s.dev.isAnchor && s.dev.hostUp) = true →
    let v := bitsOf b.toNat 72 11
    Gives (.irq p b) s fun d =>
      (s.dev.hst.jobs.any (fun x => decide (x.1 = bitsOf b.toNat 114 6)) = false →
        (s.dev.msixOpen v = true → d.outbox = .msix (SMap.get msixReset s.dev.hst.msix (4 * v) +
          2 ^ 32 * SMap.get msixReset s.dev.hst.msix (4 * v + 1)) (SMap.get msixReset s.dev.hst.msix (4 * v + 2)) :: s.dev.outbox) ∧
        (s.dev.msixOpen v = false → v ∈ d.hst.pba ∧ d.outbox = s.dev.outbox)) ∧
      (s.dev.hst.jobs.any (fun x => decide (x.1 = bitsOf b.toNat 114 6)) = true → d.outbox = s.dev.outbox ∧
        d.hst = { s.dev.hst with jobs := s.dev.hst.jobs ++ [(bitsOf b.toNat 114 6, .vector v)] }) ∧
      s.dev.keepsBut [.outbox, .msh, .hst] d)

/-- The host channel's upkeep and HSTATE (R362, R373, R380): an ACK frees the messages it covers and delivers their records; ACKs owed are
sent; messages without one are sent again after 50 µs; and the anchor's link and power state reaches the members, whose rings it clears. -/
def Obligations.HostChannel : Prop :=
  (∀ (s : State) (p : Fin 6) (b : BitVec 120), s.dev.alive = true →
    Gives (.ack p b) s fun d =>
      (s.dev.portUp p.val = false → d = s.dev) ∧
      (s.dev.portUp p.val = true → bitsOf b.toNat 108 6 ≠ s.dev.devId → s.dev.routeTo (bitsOf b.toNat 108 6) = none → d = s.dev) ∧
      (∀ q l, s.dev.portUp p.val = true → bitsOf b.toNat 108 6 ≠ s.dev.devId → s.dev.routeTo (bitsOf b.toNat 108 6) = some q →
        s.dev.portLane (q + 1) = some l → s.dev.sends l →
        d.outbox = s.dev.laneOut l 0x49 b.toNat ++ s.dev.outbox ∧ s.dev.keepsBut [.outbox, .ing] d) ∧
      (s.dev.portUp p.val = true → bitsOf b.toNat 108 6 = s.dev.devId → (s.dev.chan (bitsOf b.toNat 114 6)).queue = [] →
        (d.chan (bitsOf b.toNat 114 6)).unacked = (ackFrees (bitsOf b.toNat 67 16) (s.dev.chan (bitsOf b.toNat 114 6)).unacked).2 ∧
        (d.chan (bitsOf b.toNat 114 6)).since = s.dev.devNs ∧
        ((∀ m ∈ (ackFrees (bitsOf b.toNat 67 16) (s.dev.chan (bitsOf b.toNat 114 6)).unacked).1, m.delivers = none) → s.dev.keepsBut [.msh] d)) ∧
      s.dev.keepsBut [.regs, .outbox, .ing, .store, .msh] d) ∧
  (∀ (s : State) (t : Fin 64) (q : Nat) (l : LaneId), s.dev.alive = true → s.dev.routeTo t.val = some q → s.dev.portLane (q + 1) = some l →
    s.dev.sends l →
    Gives (.ackTx t) s fun d =>
      ((s.dev.chan t.val).owed = none → d = s.dev) ∧
      (∀ u, (s.dev.chan t.val).owed = some u → (d.chan t.val).owed = none ∧
        d.outbox = s.dev.laneOut l 0x49 (hostBits s.dev.devId t.val 0 0 ((s.dev.chan t.val).expect % 2 ^ 16 * 2 ^ 67)) ++ s.dev.outbox) ∧
      s.dev.keepsBut [.outbox, .ing, .msh] d) ∧
  (∀ (s : State) (t : Fin 64), s.dev.alive = true →
    Gives (.hostResend t) s fun d =>
      ((s.dev.chan t.val).unacked = [] ∨ s.dev.devNs < (s.dev.chan t.val).since + 50000 → d = s.dev) ∧
      (∀ m ms q l, (s.dev.chan t.val).unacked = m :: ms → (s.dev.chan t.val).since + 50000 ≤ s.dev.devNs →
        s.dev.routeTo m.dst = some q → s.dev.portLane (q + 1) = some l → s.dev.sends l →
        d.rd Reg.mshHostResend = satInc 32 1 (s.dev.rd Reg.mshHostResend) ∧ (d.chan t.val).since = s.dev.devNs ∧
        (∃ more, d.outbox = more ++ s.dev.laneOut l m.ty (hostBits s.dev.devId m.dst m.data.length m.seq m.body) ++ s.dev.outbox) ∧
        s.dev.regsBut [Reg.mshHostResend] d) ∧
      s.dev.keepsBut [.regs, .outbox, .ing, .msh] d) ∧
  (∀ (s : State) (p : Fin 6) (b : BitVec 120), s.dev.alive = true →
    Gives (.hstate p b) s fun d =>
      (s.dev.portUp p.val = false → d = s.dev) ∧
      (s.dev.portUp p.val = true → s.dev.isAnchor = true → s.dev.keepsBut [.outbox, .ing] d) ∧
      (s.dev.portUp p.val = true → s.dev.isAnchor = false →
        d.fld Reg.hstLink Fld.hstLinkRate = (if bitAt b.toNat 79 then bitsOf b.toNat 80 3 else 0) ∧
        d.fld Reg.hstLink Fld.hstLinkEpoch = bitsOf b.toNat 62 16 ∧
        d.flag Reg.hstLink Fld.hstLinkD3hot = bitAt b.toNat 78 ∧
        (bitAt b.toNat 79 = false ∨ bitsOf b.toNat 62 16 ≠ s.dev.fld Reg.hstLink Fld.hstLinkEpoch → ∀ r, r < 32 → d.hrOn r = false) ∧
        (bitAt b.toNat 79 = true → bitsOf b.toNat 62 16 = s.dev.fld Reg.hstLink Fld.hstLinkEpoch → bitAt b.toNat 78 = false →
          s.dev.regsBut [Reg.hstLink] d ∧ s.dev.keepsBut [.regs, .outbox, .ing] d)) ∧
      s.dev.keepsBut [.regs, .log, .outbox, .ing, .store, .msh, .hst] d) ∧
  (∀ (s : State) (q : Nat) (l : LaneId), s.dev.alive = true → s.dev.isAnchor = true → q < 6 →
    s.dev.fld (Reg.mshFwd s.dev.anchor) Fld.mshFwdPorts = 2 ^ q → s.dev.portUp q = true → s.dev.portLane (q + 1) = some l →
    s.dev.sends l →
    Gives .hstateTx s fun d =>
      (s.dev.msh.hstateMs = some (s.dev.devNs / 1000000) → d = s.dev) ∧
      (s.dev.msh.hstateMs ≠ some (s.dev.devNs / 1000000) → d.msh.hstateMs = some (s.dev.devNs / 1000000) ∧
        d.outbox = s.dev.laneOut l 0x48 s.dev.hstateBits ++ s.dev.outbox) ∧
      s.dev.keepsBut [.outbox, .ing, .msh] d)

/-- Polls, holds and the LABEL ring (R377, R382, R383): the index block is read once in HST_POLL_NS while a ring is enabled, its data gives
the host's counts and stops a ring whose count is out of range, and a poll without data for 1 ms fails; a vector held back is raised when
its hold ends; and the next LABEL entry enters its circuit. -/
def Obligations.HostRings : Prop :=
  (∀ (s : State), s.dev.alive = true →
    let due := s.dev.hostUp = true ∧ ((List.range 32).any s.dev.hrOn) = true ∧
      s.dev.hst.polledAt + s.dev.fld Reg.hstPoll Fld.hstPollHstPollNs ≤ s.dev.devNs
    let addr := s.dev.rd Reg.hstIdxAddrLo + 2 ^ 32 * s.dev.rd Reg.hstIdxAddrHi
    Gives .poll s fun d =>
      (¬ due → d = s.dev) ∧
      (due → d.rd Reg.hstPolls = satInc 32 1 (s.dev.rd Reg.hstPolls) ∧ d.hst.polledAt = s.dev.devNs ∧
        (∀ r < 32, (d.hring r).zeroDue = false) ∧
        (s.dev.isAnchor = true → d.hst.polling = s.dev.hst.polling ++ [(s.dev.devNs, 0)]) ∧
        ((∀ r < 32, (s.dev.hring r).zeroDue = false) →
          (s.dev.isAnchor = true → s.dev.hst.jobs = [] → d.outbox = .hostRead addr 256 :: s.dev.outbox) ∧
          (s.dev.isAnchor = true → s.dev.hst.jobs ≠ [] →
            d.outbox = s.dev.outbox ∧ d.hst.jobs = s.dev.hst.jobs ++ [(s.dev.devId, .read addr 256 none)]) ∧
          (s.dev.isAnchor = false → s.dev.queued s.dev.anchor 0x45 (dmaBody addr false 256) [] none d ∧
            d.hst.polling = s.dev.hst.polling ++ [(s.dev.devNs, (s.dev.chan s.dev.anchor).nextSeq % 2 ^ 16)]))) ∧
      s.dev.keepsBut [.regs, .outbox, .ing, .store, .msh, .hst] d) ∧
  (∀ (s : State) (idx : List Word), s.dev.alive = true →
    Gives (.pollData true idx) s (fun d =>
      (s.dev.hst.overdue = [] → d = s.dev) ∧
      (∀ q rest, s.dev.hst.overdue = q :: rest → d.hst.overdue = rest ∧
        d.rd Reg.hstLateArrival = satInc 32 1 (s.dev.rd Reg.hstLateArrival) ∧ s.dev.regsBut [Reg.hstLateArrival] d) ∧
      s.dev.keepsBut [.regs, .hst] d) ∧
    Gives (.pollData false idx) s (fun d =>
      (s.dev.hst.polling = [] → d = s.dev) ∧
      (∀ q rest, s.dev.hst.polling = q :: rest → d.hst.polling = rest ∧
        ∀ r, r < 32 → s.dev.hrOn r = true → d.rd (Reg.hrConsume r) = hostCount idx r ∧ (s.dev.hrState r = 1 →
          (s.dev.hrKind r = 1 ∨ s.dev.hrKind r = 2 ∨ s.dev.hrKind r = 3 →
            s.dev.hrN r < (s.dev.rd (Reg.hrProduce r) + 2 ^ 32 - hostCount idx r) % 2 ^ 32 →
            d.hrState r = 2 ∧ d.fld (Reg.hrState r) Fld.hrStateErrCause = 3) ∧
          (¬ ((s.dev.hrKind r = 1 ∨ s.dev.hrKind r = 2 ∨ s.dev.hrKind r = 3) ∧
            s.dev.hrN r < (s.dev.rd (Reg.hrProduce r) + 2 ^ 32 - hostCount idx r) % 2 ^ 32) → d.hrState r = 1))) ∧
      s.dev.keepsBut [.regs, .log, .hst] d)) ∧
  (∀ (s : State) (tie : Bool) (t q : Nat) (rest : List (Nat × Nat)), s.dev.alive = true → s.dev.hst.polling = (t, q) :: rest →
    Gives (.pollExpiry tie) s fun d =>
      (tie = true ∨ s.dev.devNs < t + 1000000 → d = s.dev) ∧
      (tie = false → t + 1000000 ≤ s.dev.devNs → d.hst.polling = rest ∧ d.hst.overdue = s.dev.hst.overdue ++ [q] ∧
        d.rd Reg.hstPollFail = satInc 32 1 (s.dev.rd Reg.hstPollFail) ∧ s.dev.regsBut [Reg.hstPollFail] d) ∧
      s.dev.keepsBut [.regs, .hst] d) ∧
  (∀ (s : State) (r : Fin 32), s.dev.alive = true →
    let due := s.dev.hostUp = true ∧ ∃ t, (s.dev.hring r.val).raised = some t ∧ (s.dev.hring r.val).changed = true ∧
      t + s.dev.fld (Reg.hrHold r.val) Fld.hrHoldIrqHoldUs * 1000 ≤ s.dev.devNs ∧ s.dev.flag (Reg.hrCfg r.val) Fld.hrCfgIrqEn = true
    let v := s.dev.fld (Reg.hrCfg r.val) Fld.hrCfgVector
    Gives (.irqHoldExpiry r) s fun d =>
      (¬ due → d = s.dev) ∧
      (due → (d.hring r.val).raised = some s.dev.devNs ∧ (d.hring r.val).changed = false ∧
        d.rd Reg.hstIrqs = satInc 32 1 (s.dev.rd Reg.hstIrqs) ∧
        (s.dev.isAnchor = true → s.dev.hst.jobs = [] →
          (s.dev.msixOpen v = true → d.outbox = .msix (SMap.get msixReset s.dev.hst.msix (4 * v) +
            2 ^ 32 * SMap.get msixReset s.dev.hst.msix (4 * v + 1)) (SMap.get msixReset s.dev.hst.msix (4 * v + 2)) :: s.dev.outbox) ∧
          (s.dev.msixOpen v = false → v ∈ d.hst.pba ∧ d.outbox = s.dev.outbox)) ∧
        (s.dev.isAnchor = true → s.dev.hst.jobs ≠ [] → d.hst.jobs = s.dev.hst.jobs ++ [(s.dev.devId, .vector v)]) ∧
        (s.dev.isAnchor = false → s.dev.queued s.dev.anchor 0x47 (v % 2 ^ 11 * 2 ^ 72) [] none d)) ∧
      s.dev.keepsBut [.regs, .outbox, .ing, .store, .msh, .hst] d) ∧
  (∀ (s : State) (entry : BitVec 256) (r : Nat) (x : Circuit), s.dev.alive = true → s.dev.hostUp = true →
    ((List.range 32).find? fun r => s.dev.hrRuns r 4) = some r →
    s.dev.rd (Reg.hrProduce r) ≠ s.dev.rd (Reg.hrConsume r) → s.dev.labelCircuit = some x →
    s.dev.storeRoom (x.store 0) true 4 = true →
    Settles (.labelEntry entry) s fun d =>
      d.rd (Reg.hrProduce r) = (s.dev.rd (Reg.hrProduce r) + 1) % 2 ^ 32 ∧
      d.rd (Reg.hrDelivered r) = satInc 32 1 (s.dev.rd (Reg.hrDelivered r)) ∧
      s.dev.keepsBut [.regs, .outbox, .ing, .store, .stk, .msh, .hst, .fab] d)

/-- Descriptors (R378 to R381, R388): the next free descriptor is read; a bad length or address stops the ring; it takes the next fragment of
the record that is due, the end of an expired chain, or entries of a packed ring; its device fields, the count and the status word follow;
and a packed descriptor closes when it is full or its hold is over. -/
def Obligations.Descriptors : Prop :=
  (∀ (s : State) (r : Fin 32) (addr : BitVec 64) (len : Word) (fix : List (Fin 8)), s.dev.alive = true → s.dev.hostUp = true →
    s.dev.hrOn r.val = true → s.dev.hrState r.val = 1 → 0 < s.dev.hrFree r.val →
    let h := s.dev.hring r.val
    let i := s.dev.rd (Reg.hrProduce r.val)
    let plain := s.dev.isAnchor = true ∧ s.dev.flag (Reg.hrCfg r.val) Fld.hrCfgIrqEn = false ∧ s.dev.hst.jobs = []
    let status := Output.hostWrite (s.dev.statusAddr r.val) (leBytes 8 ((i + 1) % 2 ^ 32)) false
    let fields : Nat → Nat → Nat → Nat → Output := fun used flags frag rec => .hostWrite (s.dev.hrAddr r.val i + 16)
      (leBytes 4 used ++ leBytes 2 flags ++ leBytes 2 (i + 1) ++ leBytes 4 frag ++ leBytes 4 rec) false
    let due := (s.dev.hrKind r.val = 1 ∧ ((s.dev.dueRecord r.val).isSome = true ∨ h.expiring.isSome = true)) ∨
      ((s.dev.hrKind r.val = 2 ∨ s.dev.hrKind r.val = 3) ∧ h.desc = none ∧ s.dev.packed r.val ≠ [])
    let good := len.toNat ≠ 0 ∧ len.toNat ≤ 16777216 ∧ addr.toNat % 64 = 0
    Gives (.descriptorFill r addr len fix) s fun d =>
      (¬ due → d = s.dev) ∧
      (due → ¬ good → d.hrState r.val = 2 ∧
        d.fld (Reg.hrState r.val) Fld.hrStateErrCause = (if len.toNat = 0 ∨ 16777216 < len.toNat then 1 else 2) ∧
        d.rd (Reg.hrErrAt r.val) = i % 2 ^ 32 ∧ d.rd Reg.hstRingErrs = satInc 32 1 (s.dev.rd Reg.hstRingErrs) ∧
        s.dev.regsBut [Reg.hrState r.val, Reg.hrErrAt r.val, Reg.hstRingErrs, Reg.logLost, Reg.logMirrorLost] d) ∧
      (∀ q, good → s.dev.hrKind r.val = 1 → h.expiring = some q →
        d.rd (Reg.hrProduce r.val) = (i + 1) % 2 ^ 32 ∧ (d.hring r.val).expiring = none ∧ (d.hring r.val).chain = none ∧
        (plain → d.outbox = status :: fields 0 10 h.frag q :: .hostRead (s.dev.hrAddr r.val i) 16 :: s.dev.outbox)) ∧
      (∀ x, good → s.dev.hrKind r.val = 1 → h.expiring = none → s.dev.dueRecord r.val = some x →
        let n := if len.toNat < x.bytes.length - h.done then len.toNat else x.bytes.length - h.done
        let last := decide (h.done + n = x.bytes.length)
        d.rd (Reg.hrProduce r.val) = (i + 1) % 2 ^ 32 ∧ (d.hring r.val).chain = (if last then none else some x.seq) ∧
        (d.hring r.val).done = (if last then 0 else h.done + n) ∧ (d.hring r.val).frag = (if last then 0 else h.frag + 1) ∧
        d.rd (Reg.hrDelivered r.val) = (if last then satInc 32 1 (s.dev.rd (Reg.hrDelivered r.val)) else s.dev.rd (Reg.hrDelivered r.val)) ∧
        (∀ c, fix = [c] → d.rd Reg.recCe = satInc 32 1 (s.dev.rd Reg.recCe) ∧ d.rd (Reg.chCe c.val) = satInc 32 1 (s.dev.rd (Reg.chCe c.val))) ∧
        (plain → (∀ line, s.dev.badLine x line = false) → d.outbox = status ::
          fields n (bit01 (decide (h.frag = 0)) + 2 * bit01 last + 4 * bit01 x.summary) h.frag x.seq ::
          .hostWrite addr.toNat ((x.bytes.drop h.done).take n) s.dev.hst.cfg.relaxed :: .hostRead (s.dev.hrAddr r.val i) 16 ::
          s.dev.outbox) ∧
        (plain → 0 < n → n ≤ 64 → h.done % 64 = 0 → s.dev.badLine x h.done = true → d.outbox = status ::
          fields n (bit01 (decide (h.frag = 0)) + 2 * bit01 last + 4 * bit01 x.summary + 16) h.frag x.seq ::
          .hostWrite addr.toNat (List.replicate n 0) s.dev.hst.cfg.relaxed :: .hostRead (s.dev.hrAddr r.val i) 16 :: s.dev.outbox)) ∧
      (good → s.dev.hrKind r.val = 2 ∨ s.dev.hrKind r.val = 3 → h.desc = none → s.dev.packed r.val ≠ [] →
        (s.dev.packed r.val).length < len.toNat / 32 →
        (d.hring r.val).desc = some ⟨addr.toNat, len.toNat, 32 * (s.dev.packed r.val).length, s.dev.devNs⟩ ∧
        d.rd (Reg.hrProduce r.val) = i ∧ d.packed r.val = s.dev.packed r.val) ∧
      s.dev.keepsBut [.regs, .log, .outbox, .ing, .store, .msh, .hst] d) ∧
  (∀ (s : State) (r : Fin 32), s.dev.alive = true →
    Gives (.flushExpiry r) s fun d =>
      ((s.dev.hring r.val).desc = none → d = s.dev) ∧
      (∀ o, (s.dev.hring r.val).desc = some o → (s.dev.packed r.val).length ≤ o.used / 32 → o.used / 32 < o.len / 32 →
        (o.used = 0 ∨ s.dev.devNs < o.firstAt + s.dev.fld Reg.hstSum Fld.hstSumFlushUs * 1000 →
          (d.hring r.val).desc = some o ∧ d.regs = s.dev.regs ∧ d.outbox = s.dev.outbox) ∧
        (0 < o.used → o.firstAt + s.dev.fld Reg.hstSum Fld.hstSumFlushUs * 1000 ≤ s.dev.devNs →
          (d.hring r.val).desc = none ∧ d.rd (Reg.hrProduce r.val) = (s.dev.rd (Reg.hrProduce r.val) + 1) % 2 ^ 32 ∧
          d.rd (Reg.hrDelivered r.val) = satInc 32 (o.used / 32) (s.dev.rd (Reg.hrDelivered r.val)) ∧
          (s.dev.hrKind r.val = 2 → (d.hring r.val).next = s.dev.hst.sumBase + s.dev.sumsTaken r.val + o.used / 32 ∧
            (((List.range 32).filter fun q => s.dev.hrRuns q 2) = [r.val] →
              d.hst.sums = s.dev.hst.sums.drop (s.dev.sumsTaken r.val + o.used / 32))))) ∧
      s.dev.keepsBut [.regs, .log, .outbox, .ing, .store, .msh, .hst] d)

/-- The host endpoint (R370 to R374, R382, R517): an access to BAR0 reaches the anchor's own registers or goes to a member, and reads all ones where
none answers, or 20 µs after; a link down clears the rings under a new epoch; the reset of the endpoint clears its table; and D3hot stops
the rings. -/
def Obligations.HostLink : Prop :=
  (∀ (s : State) (a : BitVec 30) (v : Word), s.dev.inReset = false →
    let t := a.toNat / 2 ^ 24
    let ofs := a.toNat % 2 ^ 24
    ((s.dev.isAnchor && s.dev.hostUp) = false → ∀ w, Gives (.barAccess a w v) s fun d => d = s.dev) ∧
    ((s.dev.isAnchor && s.dev.hostUp) = true →
      (t = s.dev.devId →
        Gives (.barAccess a true v) s (fun d => d = s.dev.put s.dev.hostOrigin ofs v.toNat) ∧
        Gives (.barAccess a false v) s (fun d =>
          d.outbox = .windowData (BitVec.ofNat 32 (s.dev.busRead s.dev.hostOrigin ofs).1) :: s.dev.outbox ∧
          s.dev.keepsBut [.caps, .outbox] d)) ∧
      (t ≠ s.dev.devId → s.dev.reachable t = false →
        (ofs / 4 * 4 ≠ Reg.logFwd → Gives (.barAccess a true v) s (fun d => d.rd Reg.hstWinUnreach = satInc 32 1 (s.dev.rd Reg.hstWinUnreach) ∧
          s.dev.regsBut [Reg.hstWinUnreach] d ∧ s.dev.keepsBut [.regs] d)) ∧
        Gives (.barAccess a false v) s (fun d => d.rd Reg.hstWinUnreach = satInc 32 1 (s.dev.rd Reg.hstWinUnreach) ∧
          d.outbox = .windowData 0xFFFFFFFF :: s.dev.outbox ∧ s.dev.regsBut [Reg.hstWinUnreach] d ∧ s.dev.keepsBut [.regs, .outbox] d)) ∧
      (t ≠ s.dev.devId → s.dev.reachable t = true → SMap.get (fun _ => none) s.dev.msh.fwd t = some s.dev.hostOrigin →
        (ofs / 4 * 4 ≠ Reg.logFwd → Gives (.barAccess a true v) s (fun d =>
          s.dev.queued t 0x42 (wreqBody ofs true 1 0) [BitVec.ofNat 128 v.toNat] none d ∧ s.dev.keepsBut [.outbox, .ing, .msh] d)) ∧
        Gives (.barAccess a false v) s (fun d =>
          s.dev.queued t 0x42 (wreqBody ofs false 1 (s.dev.msh.nextTag % 2 ^ 16)) [] none d ∧
          d.msh.reads = s.dev.msh.reads ++ [⟨s.dev.msh.nextTag % 2 ^ 16, s.dev.devNs, 0⟩] ∧ s.dev.keepsBut [.outbox, .ing, .msh] d)))) ∧
  (∀ (s : State) (tag : BitVec 16) (tie : Bool), s.dev.inReset = false →
    let hit := s.dev.msh.reads.find? fun x => decide (x.rtag = tag.toNat) && decide (x.sentAt + 20000 ≤ s.dev.devNs)
    Gives (.windowReadTimeout tag tie) s fun d =>
      (hit = none ∨ tie = true → d = s.dev) ∧
      (∀ x, hit = some x → tie = false → (∀ y ∈ d.msh.reads, y.rtag ≠ tag.toNat) ∧
        d.rd Reg.hstWinTimeout = satInc 32 1 (s.dev.rd Reg.hstWinTimeout) ∧
        (x.waiter = 0 → d.outbox = .windowData 0xFFFFFFFF :: s.dev.outbox) ∧
        (x.waiter = 1 → d.outbox = .mgtResponse Status.ok.code (some 0xFFFFFFFF) :: s.dev.outbox)) ∧
      s.dev.keepsBut [.regs, .outbox, .msh] d) ∧
  (∀ (s : State), s.dev.inReset = false →
    Gives .linkDown s fun d =>
      (s.dev.isAnchor = false ∨ s.dev.fld Reg.hstLink Fld.hstLinkRate = 0 → d = s.dev) ∧
      (s.dev.isAnchor = true → s.dev.fld Reg.hstLink Fld.hstLinkRate ≠ 0 →
        d.fld Reg.hstLink Fld.hstLinkRate = 0 ∧ d.fld Reg.hstLink Fld.hstLinkWidth = 0 ∧
        d.fld Reg.hstLink Fld.hstLinkEpoch = (s.dev.fld Reg.hstLink Fld.hstLinkEpoch + 1) % 2 ^ 16 ∧
        (∀ r, r < 32 → d.hrOn r = false) ∧ d.hst.polling = s.dev.hst.polling ∧ d.hst.jobs = []) ∧
      s.dev.keepsBut [.regs, .log, .outbox, .ing, .store, .msh, .hst] d) ∧
  (∀ (s : State), s.dev.inReset = false →
    Gives (.perstN .asserted) s (fun d =>
      (s.dev.isAnchor = false → d = s.dev) ∧
      (s.dev.isAnchor = true → d.hst.perst = true ∧ d.hst.cfg = ⟨0, false, false, false⟩ ∧ d.hst.msix = [] ∧ d.hst.pba = [] ∧
        d.fld Reg.hstLink Fld.hstLinkD3hot = 0 ∧ d.fld Reg.hstLink Fld.hstLinkRate = 0) ∧
      s.dev.keepsBut [.regs, .log, .outbox, .ing, .store, .msh, .hst] d) ∧
    ∀ (rate width : BitVec 3) (flit : Bool), Gives (.perstN (.released rate width flit)) s fun d =>
      (s.dev.isAnchor = false → d = s.dev) ∧
      (s.dev.isAnchor = true → d.hst.perst = false ∧
        let trains := s.dev.locked 6 && !s.dev.loopFailed 6
        d.fld Reg.hstLink Fld.hstLinkRate = (if trains then rate.toNat else 0) ∧
        d.fld Reg.hstLink Fld.hstLinkWidth = (if trains then width.toNat else 0) ∧
        d.flag Reg.hstLink Fld.hstLinkFlit = (trains && flit) ∧ s.dev.regsBut [Reg.hstLink] d) ∧
      s.dev.keepsBut [.regs, .freeCtr, .outbox, .ing, .hst] d) ∧
  (∀ (s : State) (enter : Bool), s.dev.inReset = false →
    Gives (.d3hot enter) s fun d =>
      (s.dev.isAnchor = false → d = s.dev) ∧
      (s.dev.isAnchor = true → d.flag Reg.hstLink Fld.hstLinkD3hot = enter ∧
        (enter = true → d.hst.polling = s.dev.hst.polling ∧ d.hst.jobs = [] ∧ ∀ r, r < 32 → s.dev.hrOn r = true → d.hrState r = 0) ∧
        (enter = false → s.dev.regsBut [Reg.hstLink] d)) ∧
      s.dev.keepsBut [.regs, .outbox, .ing, .store, .msh, .hst] d)

/-- The record store (R384, R388, R389): training gives a channel its state, its module and the store its speed; a complete record kept longer
than the retention time is dropped and counted, unless it is delivered at that moment; an uncorrectable line is counted and remembered;
and a channel that fails is logged. -/
def Obligations.RecordStore : Prop :=
  (∀ (s : State) (q t : Nat) (x : RecordRec), s.dev.alive = true → s.dev.record q = some x → x.doneAt = some t →
    let due := t + s.dev.fld Reg.recRetain Fld.recRetainRetentionS * 1000000000 ≤ s.dev.devNs
    Gives (.recordExpired q true) s (fun d => d = s.dev) ∧
    Gives (.recordExpired q false) s fun d =>
      (¬ due → d = s.dev) ∧
      (due → d.record q = none ∧ d.rd Reg.recExpired = satInc 32 1 (s.dev.rd Reg.recExpired) ∧
        (∀ r, r < 32 → (s.dev.hring r).chain = some q → (d.hring r).chain = none ∧ (d.hring r).expiring = some (q % 2 ^ 32)) ∧
        (∀ r, r < 32 → (s.dev.hring r).chain ≠ some q → d.hring r = s.dev.hring r)) ∧
      s.dev.keepsBut [.regs, .store, .hst] d) ∧
  (∀ (s : State) (c : Fin 8) (q line : Nat) (x : RecordRec), s.dev.alive = true → s.dev.record q = some x →
    Gives (.recordStoreUe c q line) s fun d =>
      d.rd Reg.recUe = satInc 32 1 (s.dev.rd Reg.recUe) ∧ d.rd (Reg.chUe c.val) = satInc 32 1 (s.dev.rd (Reg.chUe c.val)) ∧
      d.record q = some { x with bad := line / 64 * 64 :: x.bad } ∧
      (((s.dev.devNs :: SMap.get (fun _ => []) s.dev.store.ueTimes c.val).filter fun t => decide (s.dev.devNs < t + 1000000)).length ≤ 16 →
        d.fld (Reg.chStat c.val) Fld.chStatState = s.dev.fld (Reg.chStat c.val) Fld.chStatState ∧ s.dev.regsBut [Reg.recUe, Reg.chUe c.val] d) ∧
      (16 < ((s.dev.devNs :: SMap.get (fun _ => []) s.dev.store.ueTimes c.val).filter fun t => decide (s.dev.devNs < t + 1000000)).length →
        s.dev.fld (Reg.chStat c.val) Fld.chStatState = 2 → d.fld (Reg.chStat c.val) Fld.chStatState = 3) ∧
      s.dev.keepsBut [.regs, .log, .store, .clk] d) ∧
  (∀ (s : State) (c : Fin 8), s.dev.alive = true →
    Gives (.channelFailed c) s fun d =>
      (s.dev.fld (Reg.chStat c.val) Fld.chStatState ≠ 2 → d = s.dev) ∧
      (s.dev.fld (Reg.chStat c.val) Fld.chStatState = 2 → d.fld (Reg.chStat c.val) Fld.chStatState = 3 ∧
        d.store = s.dev.store ∧
        s.dev.log.gains d.log (internalOrigin (Reg.chStat c.val)) (Reg.chStat c.val) (s.dev.rd (Reg.chStat c.val)) (d.rd (Reg.chStat c.val)) .degraded) ∧
      s.dev.keepsBut [.regs, .log, .clk] d) ∧
  (∀ (s : State) (c : Fin 8) (r : ChannelResult), s.dev.alive = true →
    let stat : Dev → Nat := fun d => d.fld (Reg.chStat c.val) Fld.chStatState
    Gives (.channelTrainingComplete c r) s fun d =>
      (stat s.dev ≠ 1 → d = s.dev) ∧
      (stat s.dev = 1 → r = .failed → stat d = 3) ∧ (stat s.dev = 1 → r = .mismatch → stat d = 4) ∧
      (∀ cap speed, stat s.dev = 1 → r = .up cap speed →
        (cap.toNat = 32 ∨ cap.toNat = 64 ∨ cap.toNat = 128 ∨ cap.toNat = 256 → stat d = 2 ∧
          (s.dev.upChannels = [] → d.fld Reg.recStat Fld.recStatSpeed = speed.toNat) ∧
          (s.dev.upChannels ≠ [] → d.fld Reg.recStat Fld.recStatSpeed = min speed.toNat (s.dev.fld Reg.recStat Fld.recStatSpeed))) ∧
        (¬ (cap.toNat = 32 ∨ cap.toNat = 64 ∨ cap.toNat = 128 ∨ cap.toNat = 256) → stat d = 4)) ∧
      s.dev.regsBut [Reg.chStat c.val, Reg.recStat] d ∧ s.dev.keepsBut [.regs] d)

/-- A step runs the command at the front of the queue on the state with the rest of it; with nothing waiting a nanosecond of time passes, and
in reset nothing does; the ACKs then due and the blocks whose slot has come go out, and the anchor's link takes its next message. The queue
and the idle step are the model's (log entries 1, 2 and 80). -/
def Obligations.StepRunsFront : Prop :=
  (∀ (i : Instr) (s : State), step (s.push i) = exec i s) ∧
  (∀ (s : State) (i : Instr) (rest : List Instr), s.pending = i :: rest → step s = exec i { s with pending := rest }) ∧
  (∀ s : State, s.pending = [] → s.dev.inReset = true → step s = .next s) ∧
  (∀ s : State, s.pending = [] → s.dev.inReset = false → ∃ d, step s = .next { s with dev := d } ∧ d.devNs = s.dev.devNs + 1 ∧
    d.tms.ctr = (Int.ofNat (s.dev.tms.ctr + 2 ^ 40) - s.dev.tms.y).toNat ∧
    (s.dev.hst.jobs = [] → s.dev.regsBut [Reg.tmsHoldoverMs] d ∧ s.dev.keepsBut [.regs, .devNs, .outbox, .ing, .tms, .msh] d) ∧
    (s.dev.hst.jobs = [] → (∀ t, (s.dev.chan t).owed = none) → (∀ l, (s.dev.lane l).txq = []) → s.dev.keepsBut [.regs, .devNs, .tms] d) ∧
    (∀ src j, s.dev.alive = true → s.dev.hst.jobs = [(src, j)] → d.hst.jobs = [] ∧ d.hst.jobLast = src) ∧
    s.dev.keepsBut [.regs, .devNs, .outbox, .ing, .tms, .store, .msh, .hst] d)

/-- After reset every register reads the value its table gives it (log entries name those of the model's own choice), nothing waits, nothing
is sent, no lane is up, time runs free, no event is formed, the log is empty, and the state is sound. -/
def Obligations.ResetState : Prop :=
  State.reset.pending = [] ∧ State.reset.dev.inReset = true ∧ State.reset.dev.outbox = [] ∧
  (∀ a, State.reset.dev.rd a = resetWord a) ∧ (∀ l, State.reset.dev.laneState l = lsDisabled) ∧ State.reset.dev.timeState = tsFreerun ∧
  State.reset.dev.mode = 0 ∧ State.reset.dev.vset = 750 ∧ State.reset.dev.scr.slots = [] ∧ State.reset.dev.log.entries = [] ∧ State.reset.Inv

/-- Every step keeps a sound state sound (R8, R20, R424): registers stay words of 32 bits in the canonical form of the window, event n stays
in slot n mod 256, and the change log stays within its 65,536 entries. -/
def Obligations.SoundKept : Prop :=
  ∀ s s' : State, s.Inv → step s = .next s' → s'.Inv

/-- Every command answers a next state with the same queue, whose device differs in the parts listed for that command and in nothing else;
what has been sent stays sent. -/
def Obligations.CommandFrame : Prop :=
  ∀ (i : Instr) (s : State), Gives i s fun d => s.dev.keepsBut (mayChange i) d ∧ s.dev.outGrows d

/-- In reset only the pins and rails act (R512 to R515), and in FAULT only they and the accesses that R466 leaves to the device: any other
command leaves no trace (log entry 64). -/
def Obligations.WhoActs : Prop :=
  ∀ (i : Instr) (s : State),
    (s.dev.inReset = true → pinCommand i = false → exec i s = .next s) ∧
    (s.dev.mode = 3 → pinCommand i = false → faultCommand i = false → exec i s = .next s)

/-- When a watchdog's expiry and the arrival it waits for are resolved together, the arrival wins and the watchdog does not expire (R34): no
expiry that can tie with an arrival has any effect then, but that the wait of a Drip set begins anew with the token that arrived (R194), or ends with the set's block. -/
def Obligations.ArrivalWins : Prop :=
  (∀ (s : State) (i : Instr), i ∈ [.announceTimeout true, .pollExpiry true, .sectionWatchdogExpiry true, .bootWatchdogExpiry true, .forcedSwitch true false] ∨
    (∃ rec, i = .freeWaitExpiry rec true) ∨ (∃ p, i = .tsyncTimeout p true) ∨ (∃ p, i = .keepaliveExpiry p true) ∨
    (∃ t, i = .windowReadTimeout t true) ∨ (∃ rec, i = .recordExpired rec true) ∨ (∃ t, i = .gateTimeout t true) → exec i s = .next s) ∧
  (∀ (s : State) cl set, Gives (.dripTimerExpiry cl set true) s fun d => d = s.dev ∨
    d = s.dev.setDrip cl.val set.val { s.dev.drip cl.val set.val with since := some s.dev.devNs } ∨
    (s.dev.dripBlocked cl.val set.val = false ∧
      d = s.dev.setDrip cl.val set.val { s.dev.drip cl.val set.val with since := none }))

/-- Register accesses that are no live write: the registers of a unit that is not fitted read UNFITTED and ignore writes but for the log (R5);
a write of a register with nothing to write is ignored (R8, R11); one of a register that holds only PR or FU fields is refused and logged
once start-up is over (R9); and the RW and W1C bits of any other register take the write. -/
def Obligations.RegisterWrites : Prop :=
  ∀ (s : State) (o : Origin) (w : BitVec 24) (v : Word), s.dev.inReset = false →
    let a := w.toNat / 4 * 4
    (s.dev.mode = 3 → a < 0x40000) →
    (s.dev.unitFitted a = false →
      (a ≠ Reg.logWrresult → ((spanOf a).2 = 1 ∨ a = (spanOf a).1 ∨ s.dev.caps = []) → Gives (.multiRegisterRead o w) s fun d =>
        d.outbox = .windowData 2 :: s.dev.outbox ∧ s.dev.keepsBut [.caps, .outbox] d) ∧
      ((∀ r, regRow a = some r → r.base ≠ Reg.hrCfg 0) → Gives (.registerWrite o w v) s fun d =>
        s.dev.regsBut [Reg.logLost, Reg.logMirrorLost, Reg.logUnlogged, Reg.logRefusals] d ∧ s.dev.keepsBut [.regs, .log] d)) ∧
    (∀ r : RegRow, regRow a = some r → r.lv = 0 → s.dev.unitFitted a = true → reservedReg a = false →
      a ≠ Reg.logFwd → a ≠ Reg.undAttCtl → bridgeReg a = false →
      (r.rw = 0 → r.w1c = 0 → ((r.pr = 0 ∧ r.fu = 0) ∨ s.dev.mode = 0) → exec (.registerWrite o w v) s = .next s) ∧
      (r.rw = 0 → r.w1c = 0 → (r.pr ≠ 0 ∨ r.fu ≠ 0) → s.dev.mode ≠ 0 → (s.dev.logMandatory && s.dev.logFull) = false →
        Gives (.registerWrite o w v) s fun d =>
          s.dev.log.gains d.log o a (s.dev.peek a) v.toNat .refused ∧ s.dev.regsBut [Reg.logLost, Reg.logMirrorLost] d ∧ s.dev.keepsBut [.regs, .log] d) ∧
      ((r.rw ≠ 0 ∨ r.w1c ≠ 0) → ringSetting a = none → Gives (.registerWrite o w v) s fun d =>
        d.rd a = (((s.dev.rd a &&& (2 ^ 32 - 1 - r.rw)) ||| (v.toNat &&& r.rw)) &&& (2 ^ 32 - 1 - (v.toNat &&& r.w1c))) % 2 ^ 32 ∧
        s.dev.regsBut [a] d ∧ s.dev.keepsBut [.regs] d))

end
end

