-- ==== Sys2Proof/Laws/Maps.lean ====
section
/-!
SUPPORT. Sparse maps: reading after writing, and that writing keeps the canonical form.
-/

namespace Sys2Proof

variable {V : Type} [DecidableEq V] {dflt : Nat → V}

omit [DecidableEq V] in
/-- Below the first key a map reads the default. -/
theorem SMap.get_above (m : SMap V) {k j : Nat} (h : k < j) : SMap.get dflt (SMap.above k m) j = SMap.get dflt m j := by
  induction m with
  | nil => rfl
  | cons e m ih =>
    obtain ⟨i, w⟩ := e
    simp only [SMap.above]
    split
    · rename_i hik
      rw [ih]
      simp only [SMap.get]
      rw [if_neg (by omega), if_neg (by omega)]
    · rfl

omit [DecidableEq V] in
theorem SMap.get_above_le (m : SMap V) {k j : Nat} (h : j ≤ k) : SMap.get dflt (SMap.above k m) j = dflt j := by
  induction m with
  | nil => rfl
  | cons e m ih =>
    obtain ⟨i, w⟩ := e
    simp only [SMap.above]
    split
    · exact ih
    · simp only [SMap.get]
      rw [if_pos (by omega)]

omit [DecidableEq V] in
@[simp] theorem SMap.get_nil (k : Nat) : SMap.get dflt [] k = dflt k := rfl

/-- The key written reads the value written. -/
@[simp] theorem SMap.get_set_same (m : SMap V) (k : Nat) (v : V) : SMap.get dflt (SMap.set dflt m k v) k = v := by
  induction m with
  | nil =>
    simp only [SMap.set]
    split
    · rename_i h; simp [SMap.get, h]
    · simp [SMap.get]
  | cons e m ih =>
    obtain ⟨j, w⟩ := e
    simp only [SMap.set]
    split
    · rename_i hkj
      split
      · rename_i h; simp [SMap.get, hkj, h]
      · simp [SMap.get]
    · split
      · rename_i h1 h2
        subst h2
        split
        · rename_i h; rw [SMap.get_above_le _ (Nat.le_refl _), h]
        · simp [SMap.get]
      · rename_i h1 h2
        simp only [SMap.get]
        rw [if_neg h1, if_neg h2, ih]

/-- Every other key reads as before. -/
theorem SMap.get_set_ne (m : SMap V) {k j : Nat} (v : V) (h : j ≠ k) :
    SMap.get dflt (SMap.set dflt m k v) j = SMap.get dflt m j := by
  induction m with
  | nil =>
    simp only [SMap.set]
    split
    · rfl
    · simp only [SMap.get, if_neg h]
      split <;> rfl
  | cons e m ih =>
    obtain ⟨i, w⟩ := e
    simp only [SMap.set]
    split
    · rename_i hki
      split
      · rfl
      · simp only [SMap.get]
        by_cases h1 : j < k
        · rw [if_pos h1, if_pos (by omega)]
        · rw [if_neg h1, if_neg h]
    · split
      · rename_i h1 h2
        subst h2
        by_cases hlt : j < k
        · split
          · rw [SMap.get_above_le _ (by omega)]; simp [SMap.get, hlt]
          · simp [SMap.get, hlt]
        · split
          · rw [SMap.get_above _ (by omega)]; simp only [SMap.get]; rw [if_neg hlt, if_neg h]
          · simp only [SMap.get]; rw [if_neg hlt, if_neg h, if_neg hlt, if_neg h]
      · simp only [SMap.get]
        rw [ih]

/-- Reading any key after a write. -/
theorem SMap.get_set (m : SMap V) (k j : Nat) (v : V) :
    SMap.get dflt (SMap.set dflt m k v) j = if j = k then v else SMap.get dflt m j := by
  split
  · rename_i h; rw [h, SMap.get_set_same]
  · rename_i h; exact SMap.get_set_ne m v h

omit [DecidableEq V] in
theorem SMap.mem_above {m : SMap V} {k : Nat} {e : Nat × V} (h : e ∈ SMap.above k m) : e ∈ m := by
  induction m with
  | nil => exact h
  | cons x m ih =>
    simp only [SMap.above] at h
    split at h
    · exact List.mem_cons_of_mem _ (ih h)
    · exact h

/-- Every entry after a write is an entry from before, or the key and value written. -/
theorem SMap.mem_set {m : SMap V} {k : Nat} {v : V} {e : Nat × V} (h : e ∈ SMap.set dflt m k v) : e ∈ m ∨ e = (k, v) := by
  induction m with
  | nil =>
    simp only [SMap.set] at h
    split at h
    · simp at h
    · simp at h; exact .inr h
  | cons x m ih =>
    obtain ⟨j, w⟩ := x
    simp only [SMap.set] at h
    split at h
    · split at h
      · exact .inl h
      · simp only [List.mem_cons] at h ⊢
        tauto
    · split at h
      · split at h
        · exact .inl (List.mem_cons_of_mem _ (SMap.mem_above h))
        · simp only [List.mem_cons] at h ⊢
          tauto
      · simp only [List.mem_cons] at h ⊢
        rcases h with h | h
        · tauto
        · have := ih h
          tauto

omit [DecidableEq V] in
theorem SMap.rising_above {lo : Option Nat} {m : SMap V} (k : Nat) (h : SMap.rising lo m = true) :
    SMap.rising (some k) (SMap.above k m) = true := by
  induction m generalizing lo with
  | nil => rfl
  | cons x m ih =>
    obtain ⟨j, w⟩ := x
    simp only [SMap.above]
    have hm : SMap.rising (some j) m = true := by
      cases lo with
      | none => simpa [SMap.rising] using h
      | some l => simp [SMap.rising] at h; exact h.2
    split
    · exact ih hm
    · rename_i hj
      simp only [SMap.rising, Bool.and_eq_true, decide_eq_true_eq]
      exact ⟨by omega, hm⟩

omit [DecidableEq V] in
theorem SMap.rising_weaken {a b : Nat} {m : SMap V} (hab : a ≤ b) (h : SMap.rising (some b) m = true) :
    SMap.rising (some a) m = true := by
  cases m with
  | nil => rfl
  | cons x m =>
    obtain ⟨j, w⟩ := x
    simp only [SMap.rising, Bool.and_eq_true, decide_eq_true_eq] at h ⊢
    exact ⟨by omega, h.2⟩

omit [DecidableEq V] in
theorem SMap.rising_none {a : Nat} {m : SMap V} (h : SMap.rising (some a) m = true) : SMap.rising none m = true := by
  cases m with
  | nil => rfl
  | cons x m =>
    obtain ⟨j, w⟩ := x
    simp only [SMap.rising, Bool.and_eq_true] at h ⊢
    exact h.2

/-- Writing keeps the keys rising. -/
theorem SMap.rising_set (lo : Option Nat) (m : SMap V) (k : Nat) (v : V) (hlo : ∀ l, lo = some l → l < k)
    (h : SMap.rising lo m = true) : SMap.rising lo (SMap.set dflt m k v) = true := by
  induction m generalizing lo with
  | nil =>
    simp only [SMap.set]
    split
    · exact h
    · cases lo with
      | none => rfl
      | some l => simp [SMap.rising, hlo l rfl]
  | cons x m ih =>
    obtain ⟨j, w⟩ := x
    have hm : SMap.rising (some j) m = true := by
      cases lo with
      | none => simpa [SMap.rising] using h
      | some l => simp [SMap.rising] at h; exact h.2
    simp only [SMap.set]
    split
    · rename_i hkj
      split
      · exact h
      · cases lo with
        | none => simp [SMap.rising, hkj, hm]
        | some l => simp [SMap.rising, hkj, hm, hlo l rfl]
    · split
      · rename_i h1 h2
        subst h2
        split
        · cases lo with
          | none => exact SMap.rising_none (SMap.rising_above k hm)
          | some l => exact SMap.rising_weaken (Nat.le_of_lt (hlo l rfl)) (SMap.rising_above k hm)
        · cases lo with
          | none => simpa [SMap.rising] using hm
          | some l => simp [SMap.rising, hm, hlo l rfl]
      · rename_i h1 h2
        have hs := ih (some j) (by intro l hl; injection hl with hl; omega) hm
        cases lo with
        | none => simpa [SMap.rising] using hs
        | some l =>
          have : l < j := by simp [SMap.rising] at h; exact h.1
          simp [SMap.rising, hs, this]

/-- A write keeps the canonical form. -/
theorem SMap.wf_set {m : SMap V} (k : Nat) (v : V) (h : SMap.wf dflt m = true) :
    SMap.wf dflt (SMap.set dflt m k v) = true := by
  simp only [SMap.wf, Bool.and_eq_true, List.all_eq_true, decide_eq_true_eq] at h ⊢
  refine ⟨SMap.rising_set none m k v (by simp) h.1, ?_⟩
  have key : ∀ (m : SMap V), (∀ x ∈ m, x.2 ≠ dflt x.1) → ∀ x ∈ SMap.set dflt m k v, x.2 ≠ dflt x.1 := by
    intro m hm
    induction m with
    | nil =>
      intro x hx
      simp only [SMap.set] at hx
      split at hx
      · simp at hx
      · rename_i hv
        simp at hx; subst hx; exact hv
    | cons y m ih =>
      obtain ⟨j, w⟩ := y
      intro x hx
      simp only [SMap.set] at hx
      split at hx
      · split at hx
        · exact hm x hx
        · rename_i hv
          rcases List.mem_cons.mp hx with rfl | hx
          · exact hv
          · exact hm x hx
      · split at hx
        · split at hx
          · exact hm x (List.mem_cons_of_mem _ (SMap.mem_above hx))
          · rename_i hv
            rcases List.mem_cons.mp hx with rfl | hx
            · exact hv
            · exact hm x (List.mem_cons_of_mem _ hx)
        · rcases List.mem_cons.mp hx with rfl | hx
          · exact hm _ List.mem_cons_self
          · exact ih (fun z hz => hm z (List.mem_cons_of_mem _ hz)) x hx
  exact key m h.2

omit [DecidableEq V] in
theorem SMap.rising_filter {lo : Option Nat} {m : SMap V} (p : Nat × V → Bool) (h : SMap.rising lo m = true) :
    SMap.rising lo (m.filter p) = true := by
  induction m generalizing lo with
  | nil => exact h
  | cons x m ih =>
    obtain ⟨j, w⟩ := x
    have hm : SMap.rising (some j) m = true := by
      cases lo with
      | none => simpa [SMap.rising] using h
      | some l => simp [SMap.rising] at h; exact h.2
    have hf := ih hm
    rw [List.filter_cons]
    split
    · cases lo with
      | none => simpa [SMap.rising] using hf
      | some l =>
        have : l < j := by simp [SMap.rising] at h; exact h.1
        simp [SMap.rising, hf, this]
    · cases lo with
      | none => exact SMap.rising_none hf
      | some l =>
        have : l < j := by simp [SMap.rising] at h; exact h.1
        exact SMap.rising_weaken (Nat.le_of_lt this) hf

/-- Dropping entries keeps the canonical form. -/
theorem SMap.wf_filter {m : SMap V} (p : Nat × V → Bool) (h : SMap.wf dflt m = true) :
    SMap.wf dflt (m.filter p) = true := by
  simp only [SMap.wf, Bool.and_eq_true, List.all_eq_true] at h ⊢
  exact ⟨SMap.rising_filter p h.1, fun x hx => h.2 x (List.mem_of_mem_filter hx)⟩

omit [DecidableEq V] in
/-- A canonical map's first key bounds the others from below. -/
theorem SMap.get_of_mem {m : SMap V} {e : Nat × V} (hw : SMap.rising none m = true) (h : e ∈ m) :
    SMap.get dflt m e.1 = e.2 := by
  have key : ∀ (lo : Option Nat) (m : SMap V), SMap.rising lo m = true → e ∈ m →
      SMap.get dflt m e.1 = e.2 ∧ ∀ l, lo = some l → l < e.1 := by
    intro lo m
    induction m generalizing lo with
    | nil => intro _ h; simp at h
    | cons x m ih =>
      obtain ⟨j, w⟩ := x
      intro hr hm
      have hj : SMap.rising (some j) m = true := by
        cases lo with
        | none => simpa [SMap.rising] using hr
        | some l => simp [SMap.rising] at hr; exact hr.2
      have hl : ∀ l, lo = some l → l < j := by
        intro l hl; subst hl; simp [SMap.rising] at hr; exact hr.1
      rcases List.mem_cons.mp hm with rfl | hm
      · exact ⟨by simp [SMap.get], hl⟩
      · obtain ⟨h1, h2⟩ := ih (some j) hj hm
        have hje := h2 j rfl
        refine ⟨?_, fun l hl' => Nat.lt_trans (hl l hl') hje⟩
        simp only [SMap.get]
        rw [if_neg (by omega), if_neg (by omega)]
        exact h1
  exact (key none m hw h).1

end Sys2Proof
end

