-- ==== Sys2Proof/Laws/Keep.lean ====
section
/-!
SUPPORT. Which parts of the device an operation may change: `Keeps S P` says that P outlives every change to the parts S, the
register window, the change log and the event-slot table changed soundly. One lemma per part here, one per operation in the other
files of this folder; P taken as `fun e => e.tms = d.tms` gives a frame, P taken as soundness gives the invariant.
-/

namespace Sys2Proof.Machine

open Sys2Proof

/-- The outputs x are those of d with more in front. -/
def Grows (d : Dev) (x : List Output) : Prop := ∃ l, x = l ++ d.outbox

/-- P outlives a change to one part. -/
def KeepsPart (P : Dev → Prop) : Part → Prop
  | .regs => ∀ (d : Dev) (x : SMap Nat), (RegsOk d.regs → RegsOk x) → P d → P { d with regs := x }
  | .caps => ∀ (d : Dev) (x : List Captured), P d → P { d with caps := x }
  | .log => ∀ (d : Dev) (x : LogSt), (LogOk d.log → LogOk x) → P d → P { d with log := x }
  | .part => ∀ (d : Dev) (x : Nat), P d → P { d with part := x }
  | .step => ∀ (d : Dev) (x : Nat), P d → P { d with step := x }
  | .gid => ∀ (d : Dev) (x : BitVec 6), P d → P { d with gid := x }
  | .testEn => ∀ (d : Dev) (x : Bool), P d → P { d with testEn := x }
  | .devNs => ∀ (d : Dev) (x : Nat), P d → P { d with devNs := x }
  | .inReset => ∀ (d : Dev) (x : Bool), P d → P { d with inReset := x }
  | .freeCtr => ∀ (d : Dev) (x : Nat), P d → P { d with freeCtr := x }
  | .outbox => ∀ (d : Dev) (x : List Output), (Grows d x) → P d → P { d with outbox := x }
  | .ing => ∀ (d : Dev) (x : IngSt), P d → P { d with ing := x }
  | .prm => ∀ (d : Dev) (x : PrmSt), P d → P { d with prm := x }
  | .scr => ∀ (d : Dev) (x : ScrSt), (SlotsOk d.scr.slots → SlotsOk x.slots) → P d → P { d with scr := x }
  | .tms => ∀ (d : Dev) (x : TmsSt), P d → P { d with tms := x }
  | .acq => ∀ (d : Dev) (x : AcqSt), P d → P { d with acq := x }
  | .store => ∀ (d : Dev) (x : RecSt), P d → P { d with store := x }
  | .stk => ∀ (d : Dev) (x : StkSt), P d → P { d with stk := x }
  | .msh => ∀ (d : Dev) (x : MshSt), P d → P { d with msh := x }
  | .hst => ∀ (d : Dev) (x : HstSt), P d → P { d with hst := x }
  | .wear => ∀ (d : Dev) (x : WearSt), P d → P { d with wear := x }
  | .fab => ∀ (d : Dev) (x : FabSt), P d → P { d with fab := x }
  | .num => ∀ (d : Dev) (x : NumSt), P d → P { d with num := x }
  | .boot => ∀ (d : Dev) (x : BootSt), P d → P { d with boot := x }
  | .clk => ∀ (d : Dev) (x : ClkSt), P d → P { d with clk := x }
  | .pwr => ∀ (d : Dev) (x : PwrSt), P d → P { d with pwr := x }

/-- P outlives changes to the parts S. -/
def Keeps (S : List Part) (P : Dev → Prop) : Prop := ∀ p ∈ S, KeepsPart P p

theorem Keeps.mono {S T : List Part} {P : Dev → Prop} (k : Keeps S P) (h : T.all (fun p => S.contains p) = true) :
    Keeps T P := by
  intro p hp
  apply k
  have := List.all_eq_true.mp h p hp
  simpa using this

theorem Keeps.at {S : List Part} {P : Dev → Prop} (k : Keeps S P) (p : Part) (h : S.contains p = true) : KeepsPart P p :=
  k p (by simpa using h)

/-- What a part was, it stays while other parts change. -/
theorem Part.same_keeps {S : List Part} {d : Dev} (p : Part) (h : S.contains p = false) : Keeps S (fun e => p.same d e) := by
  intro q hq
  have hne : q ≠ p := by rintro rfl; simp_all
  cases q <;> cases p <;> first
    | exact absurd rfl hne
    | (intro e x he; exact he)
    | (intro e x _ he; exact he)

/-- The frame of the parts S outlives changes to the parts S. -/
theorem keepsBut_keeps (S : List Part) (d : Dev) : Keeps S (d.keepsBut S) := by
  intro q hq
  have hp : ∀ p, S.contains p = false → q ≠ p := by rintro p h rfl; simp_all
  cases q
  all_goals
    first
      | (intro e x he p h
         have := he p h
         cases p <;> first | exact absurd rfl (hp _ h) | exact this)
      | (intro e x _ he p h
         have := he p h
         cases p <;> first | exact absurd rfl (hp _ h) | exact this)

theorem keepsBut_refl (S : List Part) (d : Dev) : d.keepsBut S d := by intro p _; cases p <;> rfl

/-- What was put out stays put out. -/
theorem outbox_keeps (S : List Part) (o : Output) : Keeps S (fun e => o ∈ e.outbox) := by
  intro q _
  cases q <;> first
    | (intro e x he; exact he)
    | (intro e x hx he; first
        | (obtain ⟨l, rfl⟩ := hx; exact List.mem_append_right l he)
        | exact he)

theorem upd_regs {P : Dev → Prop} {d : Dev} {x0 : SMap Nat} (k : Keeps [.regs] P) (hx0 : RegsOk d.regs → RegsOk x0) (h : P d) :
    P { d with regs := x0 } := k.at .regs rfl _ x0 hx0 h

theorem upd_caps {P : Dev → Prop} {d : Dev} {x0 : List Captured} (k : Keeps [.caps] P) (h : P d) :
    P { d with caps := x0 } := k.at .caps rfl _ x0 h

theorem upd_log {P : Dev → Prop} {d : Dev} {x0 : LogSt} (k : Keeps [.log] P) (hx0 : LogOk d.log → LogOk x0) (h : P d) :
    P { d with log := x0 } := k.at .log rfl _ x0 hx0 h

theorem upd_part {P : Dev → Prop} {d : Dev} {x0 : Nat} (k : Keeps [.part] P) (h : P d) :
    P { d with part := x0 } := k.at .part rfl _ x0 h

theorem upd_step {P : Dev → Prop} {d : Dev} {x0 : Nat} (k : Keeps [.step] P) (h : P d) :
    P { d with step := x0 } := k.at .step rfl _ x0 h

theorem upd_gid {P : Dev → Prop} {d : Dev} {x0 : BitVec 6} (k : Keeps [.gid] P) (h : P d) :
    P { d with gid := x0 } := k.at .gid rfl _ x0 h

theorem upd_gid_testEn_pwr {P : Dev → Prop} {d : Dev} {x0 : BitVec 6} {x1 : Bool} {x2 : PwrSt} (k : Keeps [.gid, .testEn, .pwr] P) (h : P d) :
    P { d with gid := x0, testEn := x1, pwr := x2 } := k.at .pwr rfl _ x2 (k.at .testEn rfl _ x1 (k.at .gid rfl _ x0 h))

theorem upd_testEn {P : Dev → Prop} {d : Dev} {x0 : Bool} (k : Keeps [.testEn] P) (h : P d) :
    P { d with testEn := x0 } := k.at .testEn rfl _ x0 h

theorem upd_devNs {P : Dev → Prop} {d : Dev} {x0 : Nat} (k : Keeps [.devNs] P) (h : P d) :
    P { d with devNs := x0 } := k.at .devNs rfl _ x0 h

theorem upd_devNs_inReset {P : Dev → Prop} {d : Dev} {x0 : Nat} {x1 : Bool} (k : Keeps [.devNs, .inReset] P) (h : P d) :
    P { d with devNs := x0, inReset := x1 } := k.at .inReset rfl _ x1 (k.at .devNs rfl _ x0 h)

theorem upd_devNs_tms {P : Dev → Prop} {d : Dev} {x0 : Nat} {x1 : TmsSt} (k : Keeps [.devNs, .tms] P) (h : P d) :
    P { d with devNs := x0, tms := x1 } := k.at .tms rfl _ x1 (k.at .devNs rfl _ x0 h)

theorem upd_inReset {P : Dev → Prop} {d : Dev} {x0 : Bool} (k : Keeps [.inReset] P) (h : P d) :
    P { d with inReset := x0 } := k.at .inReset rfl _ x0 h

theorem upd_freeCtr {P : Dev → Prop} {d : Dev} {x0 : Nat} (k : Keeps [.freeCtr] P) (h : P d) :
    P { d with freeCtr := x0 } := k.at .freeCtr rfl _ x0 h

theorem upd_outbox {P : Dev → Prop} {d : Dev} {x0 : List Output} (k : Keeps [.outbox] P) (hx0 : Grows d x0) (h : P d) :
    P { d with outbox := x0 } := k.at .outbox rfl _ x0 hx0 h

theorem upd_ing {P : Dev → Prop} {d : Dev} {x0 : IngSt} (k : Keeps [.ing] P) (h : P d) :
    P { d with ing := x0 } := k.at .ing rfl _ x0 h

theorem upd_prm {P : Dev → Prop} {d : Dev} {x0 : PrmSt} (k : Keeps [.prm] P) (h : P d) :
    P { d with prm := x0 } := k.at .prm rfl _ x0 h

theorem upd_scr {P : Dev → Prop} {d : Dev} {x0 : ScrSt} (k : Keeps [.scr] P) (hx0 : SlotsOk d.scr.slots → SlotsOk x0.slots) (h : P d) :
    P { d with scr := x0 } := k.at .scr rfl _ x0 hx0 h

theorem upd_scr_tms {P : Dev → Prop} {d : Dev} {x0 : ScrSt} {x1 : TmsSt} (k : Keeps [.scr, .tms] P) (hx0 : SlotsOk d.scr.slots → SlotsOk x0.slots) (h : P d) :
    P { d with scr := x0, tms := x1 } := k.at .tms rfl _ x1 (k.at .scr rfl _ x0 hx0 h)

theorem upd_scr_pwr {P : Dev → Prop} {d : Dev} {x0 : ScrSt} {x1 : PwrSt} (k : Keeps [.scr, .pwr] P) (hx0 : SlotsOk d.scr.slots → SlotsOk x0.slots) (h : P d) :
    P { d with scr := x0, pwr := x1 } := k.at .pwr rfl _ x1 (k.at .scr rfl _ x0 hx0 h)

theorem upd_tms {P : Dev → Prop} {d : Dev} {x0 : TmsSt} (k : Keeps [.tms] P) (h : P d) :
    P { d with tms := x0 } := k.at .tms rfl _ x0 h

theorem upd_acq {P : Dev → Prop} {d : Dev} {x0 : AcqSt} (k : Keeps [.acq] P) (h : P d) :
    P { d with acq := x0 } := k.at .acq rfl _ x0 h

theorem upd_store {P : Dev → Prop} {d : Dev} {x0 : RecSt} (k : Keeps [.store] P) (h : P d) :
    P { d with store := x0 } := k.at .store rfl _ x0 h

theorem upd_stk {P : Dev → Prop} {d : Dev} {x0 : StkSt} (k : Keeps [.stk] P) (h : P d) :
    P { d with stk := x0 } := k.at .stk rfl _ x0 h

theorem upd_msh {P : Dev → Prop} {d : Dev} {x0 : MshSt} (k : Keeps [.msh] P) (h : P d) :
    P { d with msh := x0 } := k.at .msh rfl _ x0 h

theorem upd_hst {P : Dev → Prop} {d : Dev} {x0 : HstSt} (k : Keeps [.hst] P) (h : P d) :
    P { d with hst := x0 } := k.at .hst rfl _ x0 h

theorem upd_wear {P : Dev → Prop} {d : Dev} {x0 : WearSt} (k : Keeps [.wear] P) (h : P d) :
    P { d with wear := x0 } := k.at .wear rfl _ x0 h

theorem upd_fab {P : Dev → Prop} {d : Dev} {x0 : FabSt} (k : Keeps [.fab] P) (h : P d) :
    P { d with fab := x0 } := k.at .fab rfl _ x0 h

theorem upd_stk_fab_num {P : Dev → Prop} {d : Dev} {x0 : StkSt} {x1 : FabSt} {x2 : NumSt} (k : Keeps [.stk, .fab, .num] P) (h : P d) :
    P { d with stk := x0, fab := x1, num := x2 } := k.at .num rfl _ x2 (k.at .fab rfl _ x1 (k.at .stk rfl _ x0 h))

theorem upd_num {P : Dev → Prop} {d : Dev} {x0 : NumSt} (k : Keeps [.num] P) (h : P d) :
    P { d with num := x0 } := k.at .num rfl _ x0 h

theorem upd_boot {P : Dev → Prop} {d : Dev} {x0 : BootSt} (k : Keeps [.boot] P) (h : P d) :
    P { d with boot := x0 } := k.at .boot rfl _ x0 h

theorem upd_boot_clk_pwr {P : Dev → Prop} {d : Dev} {x0 : BootSt} {x1 : ClkSt} {x2 : PwrSt} (k : Keeps [.boot, .clk, .pwr] P) (h : P d) :
    P { d with boot := x0, clk := x1, pwr := x2 } := k.at .pwr rfl _ x2 (k.at .clk rfl _ x1 (k.at .boot rfl _ x0 h))

theorem upd_clk {P : Dev → Prop} {d : Dev} {x0 : ClkSt} (k : Keeps [.clk] P) (h : P d) :
    P { d with clk := x0 } := k.at .clk rfl _ x0 h

theorem upd_pwr {P : Dev → Prop} {d : Dev} {x0 : PwrSt} (k : Keeps [.pwr] P) (h : P d) :
    P { d with pwr := x0 } := k.at .pwr rfl _ x0 h

theorem foldl_keeps {α : Type} {P : Dev → Prop} {l : List α} {f : Dev → α → Dev} {d : Dev}
    (hf : ∀ e x, P e → P (f e x)) (h : P d) : P (l.foldl f d) := by
  induction l generalizing d with
  | nil => exact h
  | cons x l ih => exact ih (hf d x h)

theorem foldl_fst_keeps {α β : Type} {P : Dev → Prop} {l : List α} {f : Dev × β → α → Dev × β} {d : Dev × β}
    (hf : ∀ e x, P e.1 → P (f e x).1) (h : P d.1) : P (l.foldl f d).1 := by
  induction l generalizing d with
  | nil => exact h
  | cons x l ih => exact ih (hf d x h)

theorem foldl_snd_keeps {α β : Type} {P : Dev → Prop} {l : List α} {f : β × Dev → α → β × Dev} {d : β × Dev}
    (hf : ∀ e x, P e.2 → P (f e x).2) (h : P d.2) : P (l.foldl f d).2 := by
  induction l generalizing d with
  | nil => exact h
  | cons x l ih => exact ih (hf d x h)

theorem of_fst {β : Type} {P : Dev → Prop} {x : Dev × β} {a : Dev} {b : β} (e : x = (a, b)) (h : P x.1) : P a := by
  subst e; exact h

theorem of_snd {β : Type} {P : Dev → Prop} {x : β × Dev} {a : β} {b : Dev} (e : x = (a, b)) (h : P x.2) : P b := by
  subst e; exact h

theorem SlotsOk.nil : SlotsOk [] := fun _ hx => absurd hx (List.not_mem_nil)

theorem RegsOk.nil : RegsOk [] := ⟨rfl, fun _ hx => absurd hx (List.not_mem_nil)⟩

theorem cut_keeps {A B : Prop} (a : A) (f : A → B) : B := f a

theorem ite_keeps {c : Prop} [Decidable c] {P : Dev → Prop} {a b : Dev} (ha : P a) (hb : P b) :
    P (if c then a else b) := by
  split <;> assumption

end Sys2Proof.Machine
end

