-- ==== Sys2Proof/Laws/KeepOps.lean ====
section
/-!
SUPPORT. What the operations of Machine/Ops.lean may change.
-/

namespace Sys2Proof.Machine

open Sys2Proof

/-- Writing a register keeps the window sound. -/
theorem RegsOk.set {r : SMap Nat} (h : RegsOk r) (a v : Nat) : RegsOk (SMap.set resetWord r a (v % 2 ^ 32)) := by
  refine ⟨SMap.wf_set a _ h.1, fun e he => ?_⟩
  rcases SMap.mem_set he with he | rfl
  · exact h.2 e he
  · exact Nat.mod_lt _ (by decide)

/-- Dropping registers keeps the window sound. -/
theorem RegsOk.filter {r : SMap Nat} (h : RegsOk r) (p : Nat × Nat → Bool) : RegsOk (r.filter p) :=
  ⟨SMap.wf_filter p h.1, fun e he => h.2 e (List.mem_of_mem_filter he)⟩

theorem Dev.wr_keeps {P : Dev → Prop} {d : Dev} {a v : Nat} (k : Keeps [.regs] P) (h : P d) : P (d.wr a v) :=
  upd_regs k (fun hr => RegsOk.set hr a v) h

theorem Dev.setFld_keeps {P : Dev → Prop} {d : Dev} {a : ℕ} {f : Sys2Proof.Fld} {v : ℕ} (k : Keeps [.regs] P) (h : P d) :
    P (Dev.setFld d a f v) := by
  unfold Dev.setFld
  repeat' (first | with_reducible assumption | with_reducible refine Dev.wr_keeps (k.mono rfl) ?_)

theorem Dev.countN_keeps {P : Dev → Prop} {d : Dev} {a : ℕ} {n : ℕ} (k : Keeps [.regs] P) (h : P d) :
    P (Dev.countN d a n) := by
  unfold Dev.countN
  repeat' (first | with_reducible assumption | with_reducible refine Dev.wr_keeps (k.mono rfl) ?_)

theorem Dev.count_keeps {P : Dev → Prop} {d : Dev} {a : ℕ} (k : Keeps [.regs] P) (h : P d) :
    P (Dev.count d a) := by
  unfold Dev.count
  repeat' (first | with_reducible assumption | with_reducible refine Dev.countN_keeps (k.mono rfl) ?_)

theorem Dev.countIf_keeps {P : Dev → Prop} {d : Dev} {b : Bool} {a : ℕ} (k : Keeps [.regs] P) (h : P d) :
    P (Dev.countIf d b a) := by
  unfold Dev.countIf
  repeat' (first
    | with_reducible assumption
    | with_reducible refine Dev.count_keeps (k.mono rfl) ?_
    | (fail_if_no_progress extract_lets +onlyGivenNames x)
    | split)

theorem Dev.count64_keeps {P : Dev → Prop} {d : Dev} {a : ℕ} {n : ℕ} (k : Keeps [.regs] P) (h : P d) :
    P (Dev.count64 d a n) := by
  unfold Dev.count64
  repeat' (first
    | with_reducible assumption
    | with_reducible refine Dev.wr_keeps (k.mono rfl) ?_)

theorem Dev.emit_keeps {P : Dev → Prop} {d : Dev} {o : Output} (k : Keeps [.outbox] P) (h : P d) : P (d.emit o) :=
  upd_outbox k ⟨[o], rfl⟩ h

theorem Dev.open_keeps {P : Dev → Prop} {d : Dev} {y1 : Sys2Proof.OpenValue} (k : Keeps [.freeCtr] P) (h : P d) :
    P (Dev.open_ d y1).2 := by
  unfold Dev.open_
  repeat' (first
    | with_reducible assumption
    | (dsimp only; done)
    | with_reducible refine upd_freeCtr (k.mono rfl) ?_)

theorem Dev.roundOpen_keeps {P : Dev → Prop} {d : Dev} {q : ℚ} (k : Keeps [.freeCtr] P) (h : P d) :
    P (Dev.roundOpen d q).2 := by
  unfold Dev.roundOpen
  repeat' (first
    | with_reducible assumption
    | with_reducible refine Dev.open_keeps (k.mono rfl) ?_
    | (with_reducible refine of_fst ‹_› ?_)
    | (with_reducible refine of_snd ‹_› ?_)
    | (fail_if_no_progress extract_lets +onlyGivenNames x)
    | split)

theorem Dev.putEv_keeps {P : Dev → Prop} {d : Dev} {e : Ev} (k : Keeps [.scr] P) (h : P d) : P (d.putEv e) := by
  refine upd_scr (k.mono rfl) ?_ h
  intro hs x hx y hy
  rcases SMap.mem_set hx with hx | rfl
  · exact hs x hx y hy
  · injection hy with hy; subst hy; rfl

theorem Dev.logWrite_keeps {P : Dev → Prop} {d : Dev} {o : Origin} {object old new : Nat} {st : Status}
    (k : Keeps [.regs, .log] P) (h : P d) : P (d.logWrite o object old new st) := by
  unfold Dev.logWrite
  extract_lets e d' src
  refine upd_log (k.mono rfl) ?_ (Dev.countIf_keeps (k.mono rfl) (Dev.countIf_keeps (k.mono rfl) h))
  have hl : d'.log = d.log := by simp only [d', Dev.countIf]; split <;> split <;> rfl
  have hs : src = d.log := hl
  intro hok
  rw [hl] at hok
  rw [hl, hs]
  obtain ⟨h1, h2, h3⟩ := hok
  refine ⟨h1, ?_, ?_⟩
  · simp only [List.length_take]; omega
  · simp only [List.length_take, List.length_cons]
    cases hf : d.logFull
    · have : ¬ d.log.cap ≤ d.log.held := by simpa [Dev.logFull] using hf
      simp; omega
    · have : d.log.cap ≤ d.log.held := by simpa [Dev.logFull] using hf
      simp; omega

theorem Dev.logAdd_keeps {P : Dev → Prop} {d : Dev} {o : Sys2Proof.Origin} {object : ℕ} {old : ℕ} {new : ℕ} {st : Status} (k : Keeps [.regs, .log] P) (h : P d) :
    P (Dev.logAdd d o object old new st) := by
  unfold Dev.logAdd
  repeat' (first
    | with_reducible assumption
    | with_reducible refine Dev.logWrite_keeps (k.mono rfl) ?_
    | (fail_if_no_progress extract_lets +onlyGivenNames x)
    | split)

theorem Dev.logRefusal_keeps {P : Dev → Prop} {d : Dev} {o : Sys2Proof.Origin} {object : ℕ} {old : ℕ} {new : ℕ} {st : Status} (k : Keeps [.regs, .log] P) (h : P d) :
    P (Dev.logRefusal d o object old new st) := by
  unfold Dev.logRefusal
  repeat' (first
    | with_reducible assumption
    | with_reducible refine Dev.count_keeps (k.mono rfl) ?_
    | with_reducible refine Dev.logWrite_keeps (k.mono rfl) ?_
    | (fail_if_no_progress extract_lets +onlyGivenNames x)
    | split)

theorem Dev.logInternal_keeps {P : Dev → Prop} {d : Dev} {object : ℕ} {old : ℕ} {new : ℕ} {st : Status} (k : Keeps [.regs, .log] P) (h : P d) :
    P (Dev.logInternal d object old new st) := by
  unfold Dev.logInternal
  repeat' (first | with_reducible assumption | with_reducible refine Dev.logAdd_keeps (k.mono rfl) ?_)

end Sys2Proof.Machine
end

