-- ==== Sys2Proof/Laws/KeepLanes.lean ====
section
/-!
SUPPORT. What the operations of Machine/Lanes.lean may change.
-/

namespace Sys2Proof.Machine

open Sys2Proof

theorem Dev.setLane_keeps {P : Dev → Prop} {d : Dev} {l : Sys2Proof.LaneId} {r : LaneRec} (k : Keeps [.ing] P) (h : P d) :
    P (Dev.setLane d l r) := by
  unfold Dev.setLane
  repeat' (first | with_reducible assumption | with_reducible refine upd_ing (k.mono rfl) ?_)

theorem Dev.laneCount_keeps {P : Dev → Prop} {d : Dev} {l : Sys2Proof.LaneId} {r : ℕ → ℕ} (k : Keeps [.regs] P) (h : P d) :
    P (Dev.laneCount d l r) := by
  unfold Dev.laneCount
  repeat' (first | with_reducible assumption | with_reducible refine Dev.count_keeps (k.mono rfl) ?_)

theorem Dev.sendBits_keeps {P : Dev → Prop} {d : Dev} {l : Sys2Proof.LaneId} {bs : List Bool} (k : Keeps [.outbox] P) (h : P d) :
    P (Dev.sendBits d l bs) := by
  unfold Dev.sendBits
  repeat' (first | with_reducible assumption | with_reducible refine Dev.emit_keeps (k.mono rfl) ?_)

theorem Dev.putLine_keeps {P : Dev → Prop} {d : Dev} {l : Sys2Proof.LaneId} {bs : List Bool} (k : Keeps [.outbox, .ing] P) (h : P d) :
    P (Dev.putLine d l bs) := by
  unfold Dev.putLine
  repeat' (first
    | with_reducible assumption
    | with_reducible refine Dev.sendBits_keeps (k.mono rfl) ?_
    | with_reducible refine Dev.setLane_keeps (k.mono rfl) ?_
    | (fail_if_no_progress extract_lets +onlyGivenNames x)
    | split)

theorem Dev.putBlock_keeps {P : Dev → Prop} {d : Dev} {l : Sys2Proof.LaneId} {ctl : Bool} {p : BitVec 128} (k : Keeps [.outbox, .ing] P) (h : P d) :
    P (Dev.putBlock d l ctl p) := by
  unfold Dev.putBlock
  repeat' (first
    | with_reducible assumption
    | with_reducible refine Dev.setLane_keeps (k.mono rfl) ?_
    | with_reducible refine Dev.putLine_keeps (k.mono rfl) ?_
    | with_reducible refine Dev.emit_keeps (k.mono rfl) ?_)

theorem Dev.putFiller_keeps {P : Dev → Prop} {d : Dev} {l : Sys2Proof.LaneId} (k : Keeps [.outbox, .ing] P) (h : P d) :
    P (Dev.putFiller d l) := by
  unfold Dev.putFiller
  repeat' (first | with_reducible assumption | with_reducible refine Dev.putBlock_keeps (k.mono rfl) ?_)

theorem Dev.putPaced_keeps {P : Dev → Prop} {d : Dev} {l : Sys2Proof.LaneId} {ctl : Bool} {p : BitVec 128} (k : Keeps [.outbox, .ing] P) (h : P d) :
    P (Dev.putPaced d l ctl p) := by
  unfold Dev.putPaced
  repeat' (first
    | with_reducible assumption
    | with_reducible refine Dev.putFiller_keeps (k.mono rfl) ?_
    | with_reducible refine Dev.putBlock_keeps (k.mono rfl) ?_
    | (fail_if_no_progress extract_lets +onlyGivenNames x)
    | split)

theorem Dev.linkDue_keeps {P : Dev → Prop} {d : Dev} {l : Sys2Proof.LaneId} (k : Keeps [.outbox, .ing] P) (h : P d) :
    P (Dev.linkDue d l) := by
  unfold Dev.linkDue
  repeat' (first
    | with_reducible assumption
    | with_reducible refine Dev.putPaced_keeps (k.mono rfl) ?_
    | (fail_if_no_progress extract_lets +onlyGivenNames x)
    | split)

theorem Dev.sendNow_keeps {P : Dev → Prop} {d : Dev} {l : Sys2Proof.LaneId} {ctl : Bool} {p : BitVec 128} (k : Keeps [.outbox, .ing] P) (h : P d) :
    P (Dev.sendNow d l ctl p) := by
  unfold Dev.sendNow
  repeat' (first
    | with_reducible assumption
    | with_reducible refine Dev.linkDue_keeps (k.mono rfl) ?_
    | with_reducible refine Dev.putPaced_keeps (k.mono rfl) ?_
    | (fail_if_no_progress extract_lets +onlyGivenNames x)
    | split)

theorem Dev.sendBlock_keeps {P : Dev → Prop} {d : Dev} {l : Sys2Proof.LaneId} {ctl : Bool} {p : BitVec 128} (k : Keeps [.outbox, .ing] P) (h : P d) :
    P (Dev.sendBlock d l ctl p) := by
  unfold Dev.sendBlock
  repeat' (first
    | with_reducible assumption
    | with_reducible refine Dev.sendNow_keeps (k.mono rfl) ?_
    | with_reducible refine Dev.setLane_keeps (k.mono rfl) ?_
    | (fail_if_no_progress extract_lets +onlyGivenNames x)
    | split)

theorem Dev.laneSlot_keeps {P : Dev → Prop} {d : Dev} {l : Sys2Proof.LaneId} (k : Keeps [.outbox, .ing] P) (h : P d) :
    P (Dev.laneSlot d l) := by
  unfold Dev.laneSlot
  repeat' (first
    | with_reducible assumption
    | with_reducible refine Dev.setLane_keeps (k.mono rfl) ?_
    | with_reducible refine Dev.sendNow_keeps (k.mono rfl) ?_
    | (fail_if_no_progress extract_lets +onlyGivenNames x)
    | split)

theorem Dev.laneSlots_keeps {P : Dev → Prop} {d : Dev} (k : Keeps [.outbox, .ing] P) (h : P d) :
    P (Dev.laneSlots d) := by
  unfold Dev.laneSlots
  repeat' (first
    | with_reducible assumption
    | with_reducible refine Dev.laneSlot_keeps (k.mono rfl) ?_
    | with_reducible refine foldl_keeps (fun e x he => ?_) ?_)

theorem Dev.sendFiller_keeps {P : Dev → Prop} {d : Dev} {l : Sys2Proof.LaneId} (k : Keeps [.outbox, .ing] P) (h : P d) :
    P (Dev.sendFiller d l) := by
  unfold Dev.sendFiller
  repeat' (first
    | with_reducible assumption
    | with_reducible refine Dev.linkDue_keeps (k.mono rfl) ?_
    | with_reducible refine Dev.putFiller_keeps (k.mono rfl) ?_
    | (fail_if_no_progress extract_lets +onlyGivenNames x)
    | split)

theorem Dev.breakBurst_keeps {P : Dev → Prop} {d : Dev} {l : Sys2Proof.LaneId} (k : Keeps [.regs, .ing] P) (h : P d) :
    P (Dev.breakBurst d l) := by
  unfold Dev.breakBurst
  repeat' (first
    | with_reducible assumption
    | with_reducible refine Dev.setLane_keeps (k.mono rfl) ?_
    | with_reducible refine Dev.countIf_keeps (k.mono rfl) ?_
    | (fail_if_no_progress extract_lets +onlyGivenNames x)
    | split)

theorem Dev.laneTo_keeps {P : Dev → Prop} {d : Dev} {l : Sys2Proof.LaneId} {st : ℕ} (k : Keeps [.regs, .ing] P) (h : P d) :
    P (Dev.laneTo d l st) := by
  unfold Dev.laneTo
  repeat' (first
    | with_reducible assumption
    | with_reducible refine Dev.breakBurst_keeps (k.mono rfl) ?_
    | with_reducible refine Dev.setFld_keeps (k.mono rfl) ?_
    | ((fail_if_no_progress extract_lets +onlyGivenNames x); refine cut_keeps (A := P x) ?_ (fun hx => ?_); on_goal 1 => subst x)
    | (fail_if_no_progress extract_lets +onlyGivenNames x)
    | split)

theorem Dev.restart_keeps {P : Dev → Prop} {d : Dev} {l : Sys2Proof.LaneId} {st : ℕ} (k : Keeps [.regs, .ing] P) (h : P d) :
    P (Dev.restart d l st) := by
  unfold Dev.restart
  repeat' (first
    | with_reducible assumption
    | with_reducible refine Dev.laneTo_keeps (k.mono rfl) ?_
    | with_reducible refine Dev.countN_keeps (k.mono rfl) ?_
    | with_reducible refine Dev.setLane_keeps (k.mono rfl) ?_)

theorem Dev.newTry_keeps {P : Dev → Prop} {d : Dev} {l : Sys2Proof.LaneId} (k : Keeps [.regs, .ing] P) (h : P d) :
    P (Dev.newTry d l) := by
  unfold Dev.newTry
  repeat' (first
    | with_reducible assumption
    | with_reducible refine Dev.restart_keeps (k.mono rfl) ?_
    | with_reducible refine Dev.laneCount_keeps (k.mono rfl) ?_)

theorem Dev.tryFails_keeps {P : Dev → Prop} {d : Dev} {l : Sys2Proof.LaneId} (k : Keeps [.regs, .log, .ing] P) (h : P d) :
    P (Dev.tryFails d l) := by
  unfold Dev.tryFails
  repeat' (first
    | with_reducible assumption
    | with_reducible refine Dev.restart_keeps (k.mono rfl) ?_
    | with_reducible refine Dev.setFld_keeps (k.mono rfl) ?_
    | with_reducible refine Dev.setLane_keeps (k.mono rfl) ?_
    | with_reducible refine Dev.logInternal_keeps (k.mono rfl) ?_
    | ((fail_if_no_progress extract_lets +onlyGivenNames x); refine cut_keeps (A := P x) ?_ (fun hx => ?_); on_goal 1 => subst x)
    | (fail_if_no_progress extract_lets +onlyGivenNames x)
    | split)

theorem Dev.laneOff_keeps {P : Dev → Prop} {d : Dev} {l : Sys2Proof.LaneId} (k : Keeps [.regs, .ing] P) (h : P d) :
    P (Dev.laneOff d l) := by
  unfold Dev.laneOff
  repeat' (first
    | with_reducible assumption
    | with_reducible refine Dev.restart_keeps (k.mono rfl) ?_
    | (fail_if_no_progress extract_lets +onlyGivenNames x)
    | split)

theorem Dev.laneOn_keeps {P : Dev → Prop} {d : Dev} {l : Sys2Proof.LaneId} (k : Keeps [.regs, .ing] P) (h : P d) :
    P (Dev.laneOn d l) := by
  unfold Dev.laneOn
  repeat' (first
    | with_reducible assumption
    | with_reducible refine Dev.setFld_keeps (k.mono rfl) ?_
    | with_reducible refine Dev.newTry_keeps (k.mono rfl) ?_
    | (fail_if_no_progress extract_lets +onlyGivenNames x)
    | split)

theorem Dev.laneEnable_keeps {P : Dev → Prop} {d : Dev} {l : Sys2Proof.LaneId} (k : Keeps [.regs, .ing] P) (h : P d) :
    P (Dev.laneEnable d l) := by
  unfold Dev.laneEnable
  repeat' (first
    | with_reducible assumption
    | with_reducible refine Dev.setLane_keeps (k.mono rfl) ?_
    | with_reducible refine Dev.laneTo_keeps (k.mono rfl) ?_
    | with_reducible refine Dev.newTry_keeps (k.mono rfl) ?_
    | ((fail_if_no_progress extract_lets +onlyGivenNames x); refine cut_keeps (A := P x) ?_ (fun hx => ?_); on_goal 1 => subst x)
    | (fail_if_no_progress extract_lets +onlyGivenNames x)
    | split)

theorem Dev.loseSignal_keeps {P : Dev → Prop} {d : Dev} {l : Sys2Proof.LaneId} {tie : Bool} (k : Keeps [.regs, .ing] P) (h : P d) :
    P (Dev.loseSignal d l tie) := by
  unfold Dev.loseSignal
  repeat' (first
    | with_reducible assumption
    | with_reducible refine Dev.setLane_keeps (k.mono rfl) ?_
    | with_reducible refine Dev.countIf_keeps (k.mono rfl) ?_
    | with_reducible refine Dev.newTry_keeps (k.mono rfl) ?_
    | ((fail_if_no_progress extract_lets +onlyGivenNames x); refine cut_keeps (A := P x) ?_ (fun hx => ?_); on_goal 1 => subst x)
    | (fail_if_no_progress extract_lets +onlyGivenNames x)
    | split)

theorem Dev.seeSignal_keeps {P : Dev → Prop} {d : Dev} {l : Sys2Proof.LaneId} {tie : Bool} (k : Keeps [.regs, .ing] P) (h : P d) :
    P (Dev.seeSignal d l tie) := by
  unfold Dev.seeSignal
  repeat' (first
    | with_reducible assumption
    | with_reducible refine Dev.setLane_keeps (k.mono rfl) ?_
    | with_reducible refine Dev.newTry_keeps (k.mono rfl) ?_
    | ((fail_if_no_progress extract_lets +onlyGivenNames x); refine cut_keeps (A := P x) ?_ (fun hx => ?_); on_goal 1 => subst x)
    | (fail_if_no_progress extract_lets +onlyGivenNames x)
    | split)

theorem Dev.eyeMeasured_keeps {P : Dev → Prop} {d : Dev} {l : Sys2Proof.LaneId} {score : ℕ} {tie : Bool} (k : Keeps [.regs, .ing] P) (h : P d) :
    P (Dev.eyeMeasured d l score tie) := by
  unfold Dev.eyeMeasured
  repeat' (first
    | with_reducible assumption
    | with_reducible refine Dev.setFld_keeps (k.mono rfl) ?_
    | with_reducible refine Dev.setLane_keeps (k.mono rfl) ?_
    | with_reducible refine Dev.laneTo_keeps (k.mono rfl) ?_
    | ((fail_if_no_progress extract_lets +onlyGivenNames x); refine cut_keeps (A := P x) ?_ (fun hx => ?_); on_goal 1 => subst x)
    | (fail_if_no_progress extract_lets +onlyGivenNames x)
    | split)

theorem Dev.huntEnds_keeps {P : Dev → Prop} {d : Dev} {l : Sys2Proof.LaneId} {idle : ℕ} {tie : Bool} (k : Keeps [.regs, .log, .ing] P) (h : P d) :
    P (Dev.huntEnds d l idle tie) := by
  unfold Dev.huntEnds
  repeat' (first
    | with_reducible assumption
    | with_reducible refine Dev.tryFails_keeps (k.mono rfl) ?_
    | (fail_if_no_progress extract_lets +onlyGivenNames x)
    | split)

theorem Dev.trainingEnds_keeps {P : Dev → Prop} {d : Dev} {l : Sys2Proof.LaneId} {tie : Bool} (k : Keeps [.regs, .log, .ing] P) (h : P d) :
    P (Dev.trainingEnds d l tie) := by
  unfold Dev.trainingEnds
  repeat' (first
    | with_reducible assumption
    | with_reducible refine Dev.tryFails_keeps (k.mono rfl) ?_
    | (fail_if_no_progress extract_lets +onlyGivenNames x)
    | split)

theorem Dev.backoffEnds_keeps {P : Dev → Prop} {d : Dev} {l : Sys2Proof.LaneId} {tie : Bool} (k : Keeps [.regs, .ing] P) (h : P d) :
    P (Dev.backoffEnds d l tie) := by
  unfold Dev.backoffEnds
  repeat' (first
    | with_reducible assumption
    | with_reducible refine Dev.newTry_keeps (k.mono rfl) ?_
    | (fail_if_no_progress extract_lets +onlyGivenNames x)
    | split)

theorem Dev.passBlock_keeps {P : Dev → Prop} {d : Dev} {l : Sys2Proof.LaneId} {b : Blk} (k : Keeps [.regs, .ing] P) (h : P d) :
    P (Dev.passBlock d l b) := by
  unfold Dev.passBlock
  repeat' (first
    | with_reducible assumption
    | with_reducible refine Dev.breakBurst_keeps (k.mono rfl) ?_
    | with_reducible refine Dev.countIf_keeps (k.mono rfl) ?_
    | (fail_if_no_progress extract_lets +onlyGivenNames x)
    | split)

theorem Dev.drain_keeps {P : Dev → Prop} {l : Sys2Proof.LaneId} {a : ℕ} {y2 : Dev} (k : Keeps [.regs, .ing] P) (h : P y2) :
    P (Dev.drain l a y2) := by
  induction a generalizing y2 with
  | zero => exact h
  | succ a ih =>
  rw [Dev.drain]
  repeat' (first
    | with_reducible assumption
    | with_reducible refine Dev.setLane_keeps (k.mono rfl) ?_
    | with_reducible refine Dev.passBlock_keeps (k.mono rfl) ?_
    | with_reducible refine ih ?_
    | (fail_if_no_progress extract_lets +onlyGivenNames x)
    | split)

theorem Dev.popBlock_keeps {P : Dev → Prop} {d : Dev} {l : Sys2Proof.LaneId} (k : Keeps [.regs, .ing] P) (h : P d) :
    P (Dev.popBlock d l) := by
  unfold Dev.popBlock
  repeat' (first
    | with_reducible assumption
    | with_reducible refine Dev.drain_keeps (k.mono rfl) ?_
    | with_reducible refine Dev.setLane_keeps (k.mono rfl) ?_
    | (fail_if_no_progress extract_lets +onlyGivenNames x)
    | split)

theorem Dev.judgeHeader_keeps {P : Dev → Prop} {d : Dev} {l : Sys2Proof.LaneId} {invalid : Bool} {tie : Bool} (k : Keeps [.regs, .ing] P) (h : P d) :
    P (Dev.judgeHeader d l invalid tie) := by
  unfold Dev.judgeHeader
  repeat' (first
    | with_reducible assumption
    | with_reducible refine Dev.setLane_keeps (k.mono rfl) ?_
    | with_reducible refine Dev.laneCount_keeps (k.mono rfl) ?_
    | with_reducible refine Dev.newTry_keeps (k.mono rfl) ?_
    | ((fail_if_no_progress extract_lets +onlyGivenNames x); refine cut_keeps (A := P x) ?_ (fun hx => ?_); on_goal 1 => subst x)
    | (fail_if_no_progress extract_lets +onlyGivenNames x)
    | split)

theorem Dev.append_keeps {P : Dev → Prop} {d : Dev} {l : Sys2Proof.LaneId} {b : Blk} (k : Keeps [.regs, .ing] P) (h : P d) :
    P (Dev.append d l b) := by
  unfold Dev.append
  repeat' (first
    | with_reducible assumption
    | with_reducible refine Dev.drain_keeps (k.mono rfl) ?_
    | with_reducible refine Dev.setLane_keeps (k.mono rfl) ?_)

theorem Dev.enqueue_keeps {P : Dev → Prop} {d : Dev} {l : Sys2Proof.LaneId} {b : Blk} (k : Keeps [.regs, .ing] P) (h : P d) :
    P (Dev.enqueue d l b) := by
  unfold Dev.enqueue
  repeat' (first
    | with_reducible assumption
    | with_reducible refine Dev.setLane_keeps (k.mono rfl) ?_
    | with_reducible refine Dev.countIf_keeps (k.mono rfl) ?_
    | with_reducible refine Dev.append_keeps (k.mono rfl) ?_
    | with_reducible refine Dev.laneCount_keeps (k.mono rfl) ?_
    | ((fail_if_no_progress extract_lets +onlyGivenNames x); refine cut_keeps (A := P x) ?_ (fun hx => ?_); on_goal 1 => subst x)
    | (fail_if_no_progress extract_lets +onlyGivenNames x)
    | split)

theorem Dev.seek_keeps {P : Dev → Prop} {d : Dev} {l : Sys2Proof.LaneId} {valid : Bool} {tie : Bool} (k : Keeps [.regs, .ing] P) (h : P d) :
    P (Dev.seek d l valid tie) := by
  unfold Dev.seek
  repeat' (first
    | with_reducible assumption
    | with_reducible refine Dev.setLane_keeps (k.mono rfl) ?_
    | with_reducible refine Dev.laneTo_keeps (k.mono rfl) ?_
    | ((fail_if_no_progress extract_lets +onlyGivenNames x); refine cut_keeps (A := P x) ?_ (fun hx => ?_); on_goal 1 => subst x)
    | (fail_if_no_progress extract_lets +onlyGivenNames x)
    | split)

theorem Dev.receive_keeps {P : Dev → Prop} {d : Dev} {l : Sys2Proof.LaneId} {b : RxBlock} {tie : Bool} (k : Keeps [.regs, .ing] P) (h : P d) :
    P (Dev.receive d l b tie) := by
  unfold Dev.receive
  repeat' (first
    | with_reducible assumption
    | with_reducible refine Dev.setLane_keeps (k.mono rfl) ?_
    | with_reducible refine Dev.countIf_keeps (k.mono rfl) ?_
    | with_reducible refine Dev.seek_keeps (k.mono rfl) ?_
    | with_reducible refine Dev.append_keeps (k.mono rfl) ?_
    | with_reducible refine Dev.enqueue_keeps (k.mono rfl) ?_
    | with_reducible refine Dev.judgeHeader_keeps (k.mono rfl) ?_
    | ((fail_if_no_progress extract_lets +onlyGivenNames x); refine cut_keeps (A := P x) ?_ (fun hx => ?_); on_goal 1 => subst x)
    | (fail_if_no_progress extract_lets +onlyGivenNames x)
    | split)

theorem Dev.takeIn_keeps {P : Dev → Prop} {d : Dev} {l : Sys2Proof.LaneId} {hdr : BitVec 2} {line : BitVec 128} {tie : Bool} (k : Keeps [.regs, .ing] P) (h : P d) :
    P (Dev.takeIn d l hdr line tie) := by
  unfold Dev.takeIn
  repeat' (first
    | with_reducible assumption
    | with_reducible refine Dev.setLane_keeps (k.mono rfl) ?_
    | with_reducible refine Dev.receive_keeps (k.mono rfl) ?_
    | (fail_if_no_progress extract_lets +onlyGivenNames x)
    | split)

theorem Dev.codeword_keeps {P : Dev → Prop} {d : Dev} {l : Sys2Proof.LaneId} {levels : List (Fin 4)} (k : Keeps [.regs, .ing] P) (h : P d) :
    P (Dev.codeword d l levels) := by
  unfold Dev.codeword
  repeat' (first
    | with_reducible assumption
    | with_reducible refine Dev.setLane_keeps (k.mono rfl) ?_
    | with_reducible refine Dev.laneCount_keeps (k.mono rfl) ?_
    | with_reducible refine Dev.countIf_keeps (k.mono rfl) ?_
    | ((fail_if_no_progress extract_lets +onlyGivenNames x); refine cut_keeps (A := P x) ?_ (fun hx => ?_); on_goal 1 => subst x)
    | (fail_if_no_progress extract_lets +onlyGivenNames x)
    | split
    | (clear_value *; split))

theorem Dev.openBurst_keeps {P : Dev → Prop} {d : Dev} {n : Fin 64} {p : BitVec 128} (k : Keeps [.regs, .ing] P) (h : P d) :
    P (Dev.openBurst d n p) := by
  unfold Dev.openBurst
  repeat' (first
    | with_reducible assumption
    | with_reducible refine Dev.breakBurst_keeps (k.mono rfl) ?_
    | with_reducible refine Dev.countN_keeps (k.mono rfl) ?_
    | with_reducible refine Dev.setLane_keeps (k.mono rfl) ?_)

theorem Dev.placeSample_keeps {P : Dev → Prop} {acc : Dev × Bool × Bool × Bool} {ch : ℕ} {lane : ℕ} {s : ℤ × ℤ} (k : Keeps [.ing] P) (h : P acc.1) :
    P (Dev.placeSample acc ch lane s).1 := by
  unfold Dev.placeSample
  repeat' (first
    | with_reducible assumption
    | (with_reducible refine of_fst ‹_› ?_)
    | (with_reducible refine of_snd ‹_› ?_)
    | (fail_if_no_progress extract_lets +onlyGivenNames x)
    | split
    | (dsimp only; done)
    | with_reducible refine upd_ing (k.mono rfl) ?_)

theorem Dev.dataBlock_keeps {P : Dev → Prop} {d : Dev} {n : Fin 64} {p : BitVec 128} (k : Keeps [.regs, .ing] P) (h : P d) :
    P (Dev.dataBlock d n p) := by
  unfold Dev.dataBlock
  repeat' (first
    | with_reducible assumption
    | with_reducible refine Dev.count_keeps (k.mono rfl) ?_
    | with_reducible refine Dev.setLane_keeps (k.mono rfl) ?_
    | with_reducible refine Dev.placeSample_keeps (k.mono rfl) ?_
    | with_reducible refine Dev.countIf_keeps (k.mono rfl) ?_
    | with_reducible refine foldl_keeps (fun e x he => ?_) ?_
    | with_reducible refine foldl_fst_keeps (fun e x he => ?_) ?_
    | with_reducible refine foldl_snd_keeps (fun e x he => ?_) ?_
    | (with_reducible refine of_fst ‹_› ?_)
    | (with_reducible refine of_snd ‹_› ?_)
    | ((fail_if_no_progress extract_lets +onlyGivenNames x); refine cut_keeps (A := P x) ?_ (fun hx => ?_); on_goal 1 => subst x)
    | (fail_if_no_progress extract_lets +onlyGivenNames x)
    | split
    | with_reducible refine upd_ing (k.mono rfl) ?_)

theorem Dev.linkRx_keeps {P : Dev → Prop} {d : Dev} {l : Sys2Proof.LaneId} {p : BitVec 128} (k : Keeps [.regs] P) (h : P d) :
    P (Dev.linkRx d l p) := by
  unfold Dev.linkRx
  repeat' (first
    | with_reducible assumption
    | with_reducible refine Dev.setFld_keeps (k.mono rfl) ?_
    | (fail_if_no_progress extract_lets +onlyGivenNames x)
    | split)

end Sys2Proof.Machine
end

