-- ==== Sys2Proof/Laws/KeepPrims.lean ====
section
/-!
SUPPORT. What the operations of Machine/Prims.lean may change.
-/

namespace Sys2Proof.Machine

open Sys2Proof

theorem Dev.stage_keeps {P : Dev → Prop} {d : Dev} {a : ℕ} {v : ℕ} (k : Keeps [.prm] P) (h : P d) :
    P (Dev.stage d a v) := by
  unfold Dev.stage
  repeat' (first | with_reducible assumption | with_reducible refine upd_prm (k.mono rfl) ?_)

theorem Dev.setUnit_keeps {P : Dev → Prop} {d : Dev} {u : ℕ} {r : UnitRec} (k : Keeps [.prm] P) (h : P d) :
    P (Dev.setUnit d u r) := by
  unfold Dev.setUnit
  repeat' (first | with_reducible assumption | with_reducible refine upd_prm (k.mono rfl) ?_)

theorem Dev.setPw_keeps {P : Dev → Prop} {d : Dev} {n : ℕ} {u : ℕ} {y3 : ℕ} {x : PwAcc} (k : Keeps [.prm] P) (h : P d) :
    P (Dev.setPw d n u y3 x) := by
  unfold Dev.setPw
  repeat' (first | with_reducible assumption | with_reducible refine upd_prm (k.mono rfl) ?_)

theorem Dev.putToken_keeps {P : Dev → Prop} {d : Dev} {m : ℕ} {u : ℕ} {y3 : ℕ} {carried : Bool} {c : Done} (k : Keeps [.prm] P) (h : P d) :
    P (Dev.putToken d m u y3 carried c) := by
  unfold Dev.putToken
  repeat' (first
    | with_reducible assumption
    | with_reducible refine Dev.setPw_keeps (k.mono rfl) ?_)

theorem Dev.complete_keeps {P : Dev → Prop} {d : Dev} {n : ℕ} {u : ℕ} {y3 : ℕ} {c : Done} (k : Keeps [.regs, .prm] P) (h : P d) :
    P (Dev.complete d n u y3 c) := by
  unfold Dev.complete
  repeat' (first
    | with_reducible assumption
    | with_reducible refine Dev.count_keeps (k.mono rfl) ?_
    | with_reducible refine Dev.setPw_keeps (k.mono rfl) ?_
    | with_reducible refine Dev.putToken_keeps (k.mono rfl) ?_
    | with_reducible refine Dev.countIf_keeps (k.mono rfl) ?_
    | with_reducible refine Dev.setUnit_keeps (k.mono rfl) ?_
    | ((fail_if_no_progress extract_lets +onlyGivenNames x); refine cut_keeps (A := P x) ?_ (fun hx => ?_); on_goal 1 => subst x)
    | (fail_if_no_progress extract_lets +onlyGivenNames x)
    | split
    | (clear_value *; split))

theorem Dev.addDead_keeps {P : Dev → Prop} {d : Dev} {u : ℕ} {ts : ℕ} {p : ℤ} (k : Keeps [.prm] P) (h : P d) :
    P (Dev.addDead d u ts p) := by
  unfold Dev.addDead
  repeat' (first
    | with_reducible assumption
    | (fail_if_no_progress extract_lets +onlyGivenNames x)
    | split
    | with_reducible refine upd_prm (k.mono rfl) ?_)

theorem Dev.gapDead_keeps {P : Dev → Prop} {d : Dev} {u : ℕ} {lane : ℕ} {t0 : ℤ} {t : ℤ} (k : Keeps [.prm] P) (h : P d) :
    P (Dev.gapDead d u lane t0 t) := by
  unfold Dev.gapDead
  repeat' (first
    | with_reducible assumption
    | with_reducible refine Dev.addDead_keeps (k.mono rfl) ?_
    | with_reducible refine foldl_keeps (fun e x he => ?_) ?_)

theorem Dev.meetBoundary_keeps {P : Dev → Prop} {d : Dev} {n : ℕ} {u : ℕ} {y3 : ℕ} (k : Keeps [.regs, .prm] P) (h : P d) :
    P (Dev.meetBoundary d n u y3) := by
  unfold Dev.meetBoundary
  repeat' (first
    | with_reducible assumption
    | with_reducible refine Dev.countN_keeps (k.mono rfl) ?_
    | with_reducible refine Dev.setUnit_keeps (k.mono rfl) ?_
    | ((fail_if_no_progress extract_lets +onlyGivenNames x); refine cut_keeps (A := P x) ?_ (fun hx => ?_); on_goal 1 => subst x)
    | (fail_if_no_progress extract_lets +onlyGivenNames x)
    | split)

theorem Dev.slotSample_keeps {P : Dev → Prop} {d : Dev} {n : ℕ} {u : ℕ} {y3 : ℕ} {gap : Bool} {s : ℤ} {t : ℤ} (k : Keeps [.regs, .prm] P) (h : P d) :
    P (Dev.slotSample d n u y3 gap s t) := by
  unfold Dev.slotSample
  repeat' (first
    | with_reducible assumption
    | with_reducible refine Dev.meetBoundary_keeps (k.mono rfl) ?_
    | with_reducible refine Dev.setUnit_keeps (k.mono rfl) ?_
    | with_reducible refine Dev.complete_keeps (k.mono rfl) ?_
    | (with_reducible refine of_fst ‹_› ?_)
    | (with_reducible refine of_snd ‹_› ?_)
    | ((fail_if_no_progress extract_lets +onlyGivenNames x); refine cut_keeps (A := P x) ?_ (fun hx => ?_); on_goal 1 => subst x)
    | (fail_if_no_progress extract_lets +onlyGivenNames x)
    | split)

theorem Dev.primSample_keeps {P : Dev → Prop} {d : Dev} {x : Sample} (k : Keeps [.regs, .prm] P) (h : P d) :
    P (Dev.primSample d x) := by
  unfold Dev.primSample
  repeat' (first
    | with_reducible assumption
    | with_reducible refine Dev.count_keeps (k.mono rfl) ?_
    | with_reducible refine Dev.gapDead_keeps (k.mono rfl) ?_
    | with_reducible refine Dev.slotSample_keeps (k.mono rfl) ?_
    | with_reducible refine Dev.setUnit_keeps (k.mono rfl) ?_
    | ((fail_if_no_progress extract_lets +onlyGivenNames x); refine cut_keeps (A := P x) ?_ (fun hx => ?_); on_goal 1 => subst x)
    | (fail_if_no_progress extract_lets +onlyGivenNames x)
    | split)

theorem Dev.dropWords_keeps {P : Dev → Prop} {d : Dev} {n : ℕ} (k : Keeps [.prm] P) (h : P d) :
    P (Dev.dropWords d n) := by
  unfold Dev.dropWords
  repeat' (first | with_reducible assumption | with_reducible refine upd_prm (k.mono rfl) ?_)

theorem Dev.judgeDead_keeps {P : Dev → Prop} {d : Dev} {n : ℕ} {missing : List (ℕ × ℕ × ℤ)} (k : Keeps [.prm] P) (h : P d) :
    P (Dev.judgeDead d n missing) := by
  unfold Dev.judgeDead
  repeat' (first
    | with_reducible assumption
    | with_reducible refine Dev.addDead_keeps (k.mono rfl) ?_
    | with_reducible refine foldl_keeps (fun e x he => ?_) ?_
    | with_reducible refine foldl_fst_keeps (fun e x he => ?_) ?_
    | with_reducible refine foldl_snd_keeps (fun e x he => ?_) ?_
    | (fail_if_no_progress extract_lets +onlyGivenNames x)
    | split)

theorem Dev.latchDead_keeps {P : Dev → Prop} {d : Dev} {m : Nat} (k : Keeps [.regs, .prm] P) (h : P d) :
    P (d.latchDead m) := by
  unfold Dev.latchDead
  extract_lets d1 d2 vals src d3
  have h1 : P d1 := upd_regs (k.mono rfl) (fun hr => RegsOk.filter hr _) h
  have h2 : P d2 := by
    refine foldl_keeps (fun e x he => ?_) h1
    split
    · exact Dev.wr_keeps (k.mono rfl) he
    · exact he
  exact Dev.wr_keeps (k.mono rfl) (upd_prm (k.mono rfl) h2)

theorem Dev.applyPend_keeps {P : Dev → Prop} {d : Dev} {n : ℕ} {p : PendWrite} (k : Keeps [.regs, .prm, .scr] P) (h : P d) :
    P (Dev.applyPend d n p) := by
  unfold Dev.applyPend
  repeat' (first
    | with_reducible assumption
    | with_reducible refine Dev.wr_keeps (k.mono rfl) ?_
    | ((fail_if_no_progress extract_lets +onlyGivenNames x); refine cut_keeps (A := P x) ?_ (fun hx => ?_); on_goal 1 => subst x)
    | (fail_if_no_progress extract_lets +onlyGivenNames x)
    | split
    | with_reducible refine upd_prm (k.mono rfl) ?_
    | with_reducible refine upd_scr (k.mono rfl) id ?_)

theorem Dev.effectBoundary_keeps {P : Dev → Prop} {d : Dev} {n : ℕ} (k : Keeps [.regs, .prm, .scr] P) (h : P d) :
    P (Dev.effectBoundary d n) := by
  unfold Dev.effectBoundary
  repeat' (first
    | with_reducible assumption
    | with_reducible refine Dev.applyPend_keeps (k.mono rfl) ?_
    | with_reducible refine foldl_keeps (fun e x he => ?_) ?_
    | with_reducible refine foldl_fst_keeps (fun e x he => ?_) ?_
    | with_reducible refine foldl_snd_keeps (fun e x he => ?_) ?_
    | (fail_if_no_progress extract_lets +onlyGivenNames x)
    | split
    | with_reducible refine upd_prm (k.mono rfl) ?_)

theorem Dev.meetAll_keeps {P : Dev → Prop} {d : Dev} {n : ℕ} (k : Keeps [.regs, .prm] P) (h : P d) :
    P (Dev.meetAll d n) := by
  unfold Dev.meetAll
  repeat' (first
    | with_reducible assumption
    | with_reducible refine Dev.meetBoundary_keeps (k.mono rfl) ?_
    | with_reducible refine foldl_keeps (fun e x he => ?_) ?_)

theorem Dev.trimSpans_keeps {P : Dev → Prop} {d : Dev} {n : ℕ} (k : Keeps [.prm] P) (h : P d) :
    P (Dev.trimSpans d n) := by
  unfold Dev.trimSpans
  repeat' (first
    | with_reducible assumption
    | with_reducible refine Dev.setUnit_keeps (k.mono rfl) ?_
    | with_reducible refine foldl_keeps (fun e x he => ?_) ?_)

end Sys2Proof.Machine
end

