-- ==== Sys2Proof/Laws/KeepHealth.lean ====
section
/-!
SUPPORT. What the operations of Machine/Health.lean may change.
-/

namespace Sys2Proof.Machine

open Sys2Proof

theorem Dev.setMode_keeps {P : Dev → Prop} {d : Dev} {m : ℕ} (k : Keeps [.regs] P) (h : P d) :
    P (Dev.setMode d m) := by
  unfold Dev.setMode
  repeat' (first | with_reducible assumption | with_reducible refine Dev.setFld_keeps (k.mono rfl) ?_)

theorem Dev.setV_keeps {P : Dev → Prop} {d : Dev} {v : ℕ} (k : Keeps [.regs] P) (h : P d) :
    P (Dev.setV d v) := by
  unfold Dev.setV
  repeat' (first | with_reducible assumption | with_reducible refine Dev.setFld_keeps (k.mono rfl) ?_)

theorem Dev.setHmap_keeps {P : Dev → Prop} {d : Dev} {ofs : ℕ} {lo : ℕ} {w : ℕ} {v : ℕ} (k : Keeps [.regs] P) (h : P d) :
    P (Dev.setHmap d ofs lo w v) := by
  unfold Dev.setHmap
  repeat' (first | with_reducible assumption | with_reducible refine Dev.setFld_keeps (k.mono rfl) ?_)

theorem Dev.stampHmap_keeps {P : Dev → Prop} {d : Dev} (k : Keeps [.regs] P) (h : P d) :
    P (Dev.stampHmap d) := by
  unfold Dev.stampHmap
  repeat' (first
    | with_reducible assumption
    | with_reducible refine Dev.wr_keeps (k.mono rfl) ?_)

theorem Dev.hmapUpdate_keeps {P : Dev → Prop} {d : Dev} {ofs : ℕ} {lo : ℕ} {w : ℕ} {v : ℕ} (k : Keeps [.regs] P) (h : P d) :
    P (Dev.hmapUpdate d ofs lo w v) := by
  unfold Dev.hmapUpdate
  repeat' (first
    | with_reducible assumption
    | with_reducible refine Dev.setHmap_keeps (k.mono rfl) ?_
    | with_reducible refine Dev.wr_keeps (k.mono rfl) ?_
    | with_reducible refine Dev.stampHmap_keeps (k.mono rfl) ?_)

theorem Dev.hmapChange_keeps {P : Dev → Prop} {d : Dev} {ofs : ℕ} {lo : ℕ} {w : ℕ} {v : ℕ} (k : Keeps [.regs] P) (h : P d) :
    P (Dev.hmapChange d ofs lo w v) := by
  unfold Dev.hmapChange
  repeat' (first
    | with_reducible assumption
    | with_reducible refine Dev.hmapUpdate_keeps (k.mono rfl) ?_
    | (fail_if_no_progress extract_lets +onlyGivenNames x)
    | split)

theorem Dev.writeBadList_keeps {P : Dev → Prop} {d : Dev} {bad : List BadUnit} (k : Keeps [.regs] P) (h : P d) :
    P (Dev.writeBadList d bad) := by
  unfold Dev.writeBadList
  repeat' (first
    | with_reducible assumption
    | with_reducible refine Dev.wr_keeps (k.mono rfl) ?_
    | with_reducible refine Dev.setHmap_keeps (k.mono rfl) ?_
    | with_reducible refine foldl_keeps (fun e x he => ?_) ?_)

theorem Dev.buildHmap_keeps {P : Dev → Prop} {d : Dev} {bad : List BadUnit} (k : Keeps [.regs] P) (h : P d) :
    P (Dev.buildHmap d bad) := by
  unfold Dev.buildHmap
  repeat' (first
    | with_reducible assumption
    | with_reducible refine Dev.wr_keeps (k.mono rfl) ?_
    | with_reducible refine Dev.stampHmap_keeps (k.mono rfl) ?_
    | with_reducible refine Dev.setHmap_keeps (k.mono rfl) ?_
    | with_reducible refine Dev.writeBadList_keeps (k.mono rfl) ?_
    | with_reducible refine foldl_keeps (fun e x he => ?_) ?_
    | with_reducible refine foldl_fst_keeps (fun e x he => ?_) ?_
    | with_reducible refine foldl_snd_keeps (fun e x he => ?_) ?_
    | (fail_if_no_progress extract_lets +onlyGivenNames x)
    | split)

theorem Dev.hpcGate_keeps {P : Dev → Prop} {d : Dev} {t : Sys2Proof.GateTarget} (k : Keeps [.clk] P) (h : P d) :
    P (Dev.hpcGate d t) := by
  unfold Dev.hpcGate
  repeat' (first
    | with_reducible assumption
    | (fail_if_no_progress extract_lets +onlyGivenNames x)
    | split
    | with_reducible refine upd_clk (k.mono rfl) ?_)

theorem Dev.wearCheck_keeps {P : Dev → Prop} {d : Dev} {u : WearUnit} (k : Keeps [.regs, .log, .wear] P) (h : P d) :
    P (Dev.wearCheck d u) := by
  unfold Dev.wearCheck
  repeat' (first
    | with_reducible assumption
    | with_reducible refine Dev.hmapUpdate_keeps (k.mono rfl) ?_
    | with_reducible refine Dev.setFld_keeps (k.mono rfl) ?_
    | with_reducible refine Dev.count_keeps (k.mono rfl) ?_
    | with_reducible refine Dev.logInternal_keeps (k.mono rfl) ?_
    | ((fail_if_no_progress extract_lets +onlyGivenNames x); refine cut_keeps (A := P x) ?_ (fun hx => ?_); on_goal 1 => subst x)
    | (fail_if_no_progress extract_lets +onlyGivenNames x)
    | split
    | with_reducible refine upd_wear (k.mono rfl) ?_)

theorem Dev.wearWindow_keeps {P : Dev → Prop} {d : Dev} (k : Keeps [.regs, .log, .wear] P) (h : P d) :
    P (Dev.wearWindow d) := by
  unfold Dev.wearWindow
  repeat' (first
    | with_reducible assumption
    | with_reducible refine Dev.wearCheck_keeps (k.mono rfl) ?_
    | with_reducible refine foldl_keeps (fun e x he => ?_) ?_
    | with_reducible refine foldl_fst_keeps (fun e x he => ?_) ?_
    | with_reducible refine foldl_snd_keeps (fun e x he => ?_) ?_
    | (fail_if_no_progress extract_lets +onlyGivenNames x)
    | split
    | with_reducible refine upd_wear (k.mono rfl) ?_)

theorem Dev.startWear_keeps {P : Dev → Prop} {d : Dev} (k : Keeps [.wear] P) (h : P d) :
    P (Dev.startWear d) := by
  unfold Dev.startWear
  repeat' (first
    | with_reducible assumption
    | with_reducible refine foldl_keeps (fun e x he => ?_) ?_
    | with_reducible refine foldl_fst_keeps (fun e x he => ?_) ?_
    | with_reducible refine foldl_snd_keeps (fun e x he => ?_) ?_
    | with_reducible refine upd_wear (k.mono rfl) ?_)

end Sys2Proof.Machine
end

