-- ==== Sys2Proof/Laws/KeepStack.lean ====
section
/-!
SUPPORT. What the operations of Machine/Stack.lean may change.
-/

namespace Sys2Proof.Machine

open Sys2Proof

theorem Dev.setStack_keeps {P : Dev → Prop} {d : Dev} {s : ℕ} {r : StkRec} (k : Keeps [.stk] P) (h : P d) :
    P (Dev.setStack d s r) := by
  unfold Dev.setStack
  repeat' (first | with_reducible assumption | with_reducible refine upd_stk (k.mono rfl) ?_)

theorem Dev.setStackState_keeps {P : Dev → Prop} {d : Dev} {s : ℕ} {st : ℕ} (k : Keeps [.regs] P) (h : P d) :
    P (Dev.setStackState d s st) := by
  unfold Dev.setStackState
  repeat' (first
    | with_reducible assumption
    | with_reducible refine Dev.setFld_keeps (k.mono rfl) ?_
    | with_reducible refine Dev.wr_keeps (k.mono rfl) ?_)

theorem Dev.stackWrite_keeps {P : Dev → Prop} {d : Dev} {s : ℕ} {a : ℕ} {bs : List Sys2Proof.Byte} (k : Keeps [.stk] P) (h : P d) :
    P (Dev.stackWrite d s a bs) := by
  unfold Dev.stackWrite
  repeat' (first
    | with_reducible assumption
    | (fail_if_no_progress extract_lets +onlyGivenNames x)
    | split
    | with_reducible refine upd_stk (k.mono rfl) ?_)

theorem Dev.stackOut_keeps {P : Dev → Prop} {d : Dev} {s : ℕ} {st : ℕ} (k : Keeps [.regs, .log, .stk, .clk] P) (h : P d) :
    P (Dev.stackOut d s st) := by
  unfold Dev.stackOut
  repeat' (first
    | with_reducible assumption
    | with_reducible refine Dev.setStackState_keeps (k.mono rfl) ?_
    | with_reducible refine Dev.setStack_keeps (k.mono rfl) ?_
    | with_reducible refine Dev.hmapChange_keeps (k.mono rfl) ?_
    | with_reducible refine Dev.logInternal_keeps (k.mono rfl) ?_
    | with_reducible refine Dev.hpcGate_keeps (k.mono rfl) ?_
    | (fail_if_no_progress extract_lets +onlyGivenNames x)
    | split)

theorem Dev.stackFail_keeps {P : Dev → Prop} {d : Dev} {s : ℕ} (k : Keeps [.regs, .log, .stk, .clk] P) (h : P d) :
    P (Dev.stackFail d s) := by
  unfold Dev.stackFail
  repeat' (first
    | with_reducible assumption
    | with_reducible refine Dev.stackOut_keeps (k.mono rfl) ?_
    | (fail_if_no_progress extract_lets +onlyGivenNames x)
    | split)

theorem Dev.stackUe_keeps {P : Dev → Prop} {d : Dev} {s : ℕ} (k : Keeps [.regs, .log, .stk, .clk] P) (h : P d) :
    P (Dev.stackUe d s) := by
  unfold Dev.stackUe
  repeat' (first
    | with_reducible assumption
    | with_reducible refine Dev.count_keeps (k.mono rfl) ?_
    | with_reducible refine Dev.logInternal_keeps (k.mono rfl) ?_
    | with_reducible refine Dev.setStack_keeps (k.mono rfl) ?_
    | with_reducible refine Dev.stackFail_keeps (k.mono rfl) ?_
    | ((fail_if_no_progress extract_lets +onlyGivenNames x); refine cut_keeps (A := P x) ?_ (fun hx => ?_); on_goal 1 => subst x)
    | (fail_if_no_progress extract_lets +onlyGivenNames x)
    | split)

theorem Dev.stackUes_keeps {P : Dev → Prop} {d : Dev} {s : ℕ} {a : ℕ} (k : Keeps [.regs, .log, .stk, .clk] P) (h : P d) :
    P (Dev.stackUes d s a) := by
  induction a generalizing d with
  | zero => exact h
  | succ a ih =>
  rw [Dev.stackUes]
  repeat' (first
    | with_reducible assumption
    | with_reducible refine Dev.stackUe_keeps (k.mono rfl) ?_
    | with_reducible refine ih ?_)

theorem Dev.stackTrain_keeps {P : Dev → Prop} {d : Dev} {s : ℕ} (k : Keeps [.regs] P) (h : P d) :
    P (Dev.stackTrain d s) := by
  unfold Dev.stackTrain
  repeat' (first
    | with_reducible assumption
    | with_reducible refine Dev.setStackState_keeps (k.mono rfl) ?_
    | (fail_if_no_progress extract_lets +onlyGivenNames x)
    | split)

theorem Dev.stackTrained_keeps {P : Dev → Prop} {d : Dev} {s : ℕ} {height : ℕ} {cap24 : Bool} {supported : Bool} (k : Keeps [.regs, .log, .stk, .clk] P) (h : P d) :
    P (Dev.stackTrained d s height cap24 supported) := by
  unfold Dev.stackTrained
  repeat' (first
    | with_reducible assumption
    | with_reducible refine Dev.setFld_keeps (k.mono rfl) ?_
    | with_reducible refine Dev.setStackState_keeps (k.mono rfl) ?_
    | with_reducible refine Dev.stackOut_keeps (k.mono rfl) ?_
    | ((fail_if_no_progress extract_lets +onlyGivenNames x); refine cut_keeps (A := P x) ?_ (fun hx => ?_); on_goal 1 => subst x)
    | (fail_if_no_progress extract_lets +onlyGivenNames x)
    | split)

theorem Dev.stackTrainFails_keeps {P : Dev → Prop} {d : Dev} {s : ℕ} (k : Keeps [.regs, .log, .stk, .clk] P) (h : P d) :
    P (Dev.stackTrainFails d s) := by
  unfold Dev.stackTrainFails
  repeat' (first
    | with_reducible assumption
    | with_reducible refine Dev.setStack_keeps (k.mono rfl) ?_
    | with_reducible refine Dev.stackOut_keeps (k.mono rfl) ?_
    | ((fail_if_no_progress extract_lets +onlyGivenNames x); refine cut_keeps (A := P x) ?_ (fun hx => ?_); on_goal 1 => subst x)
    | (fail_if_no_progress extract_lets +onlyGivenNames x)
    | split)

theorem Dev.logRepairs_keeps {P : Dev → Prop} {d : Dev} {s : ℕ} {a : ℕ} (k : Keeps [.regs, .log] P) (h : P d) :
    P (Dev.logRepairs d s a) := by
  induction a generalizing d with
  | zero => exact h
  | succ a ih =>
  rw [Dev.logRepairs]
  repeat' (first
    | with_reducible assumption
    | with_reducible refine Dev.count_keeps (k.mono rfl) ?_
    | with_reducible refine Dev.logInternal_keeps (k.mono rfl) ?_
    | with_reducible refine ih ?_)

theorem Dev.stackTested_keeps {P : Dev → Prop} {d : Dev} {s : ℕ} {ppr : ℕ} {bad : List ℕ} (k : Keeps [.regs, .log, .stk] P) (h : P d) :
    P (Dev.stackTested d s ppr bad) := by
  unfold Dev.stackTested
  repeat' (first
    | with_reducible assumption
    | with_reducible refine Dev.logRepairs_keeps (k.mono rfl) ?_
    | with_reducible refine Dev.wr_keeps (k.mono rfl) ?_
    | with_reducible refine Dev.setStackState_keeps (k.mono rfl) ?_
    | ((fail_if_no_progress extract_lets +onlyGivenNames x); refine cut_keeps (A := P x) ?_ (fun hx => ?_); on_goal 1 => subst x)
    | (fail_if_no_progress extract_lets +onlyGivenNames x)
    | split
    | with_reducible refine upd_stk (k.mono rfl) ?_)

end Sys2Proof.Machine
end

