-- ==== Sys2Proof/Laws/KeepScreed.lean ====
section
/-!
SUPPORT. What the operations of Machine/Screed.lean may change.
-/

namespace Sys2Proof.Machine

open Sys2Proof

theorem Dev.showHeadroom_keeps {P : Dev → Prop} {d : Dev} {e : Ev} (k : Keeps [.regs] P) (h : P d) :
    P (Dev.showHeadroom d e) := by
  unfold Dev.showHeadroom
  repeat' (first
    | with_reducible assumption
    | with_reducible refine Dev.setFld_keeps (k.mono rfl) ?_
    | (fail_if_no_progress extract_lets +onlyGivenNames x)
    | split)

theorem Dev.measure_keeps {P : Dev → Prop} {d : Dev} {e : Ev} (k : Keeps [.regs, .scr, .store, .pwr] P) (h : P d) :
    P (Dev.measure d e).1 := by
  unfold Dev.measure
  repeat' (first
    | with_reducible assumption
    | with_reducible refine Dev.showHeadroom_keeps (k.mono rfl) ?_
    | ((fail_if_no_progress extract_lets +onlyGivenNames x); refine cut_keeps (A := P x) ?_ (fun hx => ?_); on_goal 1 => subst x)
    | (fail_if_no_progress extract_lets +onlyGivenNames x)
    | split
    | with_reducible refine upd_store (k.mono rfl) ?_
    | with_reducible refine upd_scr (k.mono rfl) id ?_
    | with_reducible refine upd_pwr (k.mono rfl) ?_)

theorem Dev.rfMod_keeps {P : Dev → Prop} {d : Dev} {m : ℕ} {f : RfAcc → RfAcc} (k : Keeps [.scr] P) (h : P d) :
    P (Dev.rfMod d m f) := by
  unfold Dev.rfMod
  repeat' (first | with_reducible assumption | with_reducible refine upd_scr (k.mono rfl) id ?_)

theorem Dev.slotMod_keeps {P : Dev → Prop} {d : Dev} {m : ℕ} {s : ℕ} {f : SlotAcc → SlotAcc} (k : Keeps [.scr] P) (h : P d) :
    P (Dev.slotMod d m s f) := by
  unfold Dev.slotMod
  repeat' (first | with_reducible assumption | with_reducible refine upd_scr (k.mono rfl) id ?_)

theorem Dev.setMenu_keeps {P : Dev → Prop} {d : Dev} {s : ℕ} {r : MenuRec} (k : Keeps [.scr] P) (h : P d) :
    P (Dev.setMenu d s r) := by
  unfold Dev.setMenu
  repeat' (first | with_reducible assumption | with_reducible refine upd_scr (k.mono rfl) id ?_)

theorem Dev.startSlotHold_keeps {P : Dev → Prop} {d : Dev} {s : ℕ} {n : ℕ} (k : Keeps [.scr] P) (h : P d) :
    P (Dev.startSlotHold d s n) := by
  unfold Dev.startSlotHold
  repeat' (first
    | with_reducible assumption
    | with_reducible refine Dev.setMenu_keeps (k.mono rfl) ?_
    | (fail_if_no_progress extract_lets +onlyGivenNames x)
    | split)

theorem Dev.prescale_keeps {P : Dev → Prop} {d : Dev} {s : ℕ} {n : ℕ} (k : Keeps [.regs, .scr] P) (h : P d) :
    P (Dev.prescale d s n).1 := by
  unfold Dev.prescale
  repeat' (first
    | with_reducible assumption
    | with_reducible refine Dev.setFld_keeps (k.mono rfl) ?_
    | with_reducible refine Dev.startSlotHold_keeps (k.mono rfl) ?_
    | ((fail_if_no_progress extract_lets +onlyGivenNames x); refine cut_keeps (A := P x) ?_ (fun hx => ?_); on_goal 1 => subst x)
    | (fail_if_no_progress extract_lets +onlyGivenNames x)
    | split)

theorem Dev.slotR287_keeps {P : Dev → Prop} {d : Dev} {e : Ev} {s : ℕ} (k : Keeps [.regs, .scr] P) (h : P d) :
    P (Dev.slotR287 d e s).1 := by
  unfold Dev.slotR287
  repeat' (first
    | with_reducible assumption
    | with_reducible refine Dev.slotMod_keeps (k.mono rfl) ?_
    | with_reducible refine Dev.count_keeps (k.mono rfl) ?_
    | with_reducible refine Dev.prescale_keeps (k.mono rfl) ?_
    | (with_reducible refine of_fst ‹_› ?_)
    | (with_reducible refine of_snd ‹_› ?_)
    | ((fail_if_no_progress extract_lets +onlyGivenNames x); refine cut_keeps (A := P x) ?_ (fun hx => ?_); on_goal 1 => subst x)
    | (fail_if_no_progress extract_lets +onlyGivenNames x)
    | split)

theorem Dev.slotOutput_keeps {P : Dev → Prop} {d : Dev} {e : Ev} {late : Bool} {s : ℕ} (k : Keeps [.regs, .scr] P) (h : P d) :
    P (Dev.slotOutput d e late s).1 := by
  unfold Dev.slotOutput
  repeat' (first
    | with_reducible assumption
    | with_reducible refine Dev.slotMod_keeps (k.mono rfl) ?_
    | with_reducible refine Dev.slotR287_keeps (k.mono rfl) ?_
    | with_reducible refine Dev.count_keeps (k.mono rfl) ?_
    | (with_reducible refine of_fst ‹_› ?_)
    | (with_reducible refine of_snd ‹_› ?_)
    | (fail_if_no_progress extract_lets +onlyGivenNames x)
    | split)

theorem Dev.applyFx_keeps {P : Dev → Prop} {d : Dev} {n : ℕ} (k : Keeps [.regs, .scr] P) (h : P d) :
    P (Dev.applyFx d n) := by
  unfold Dev.applyFx
  repeat' (first
    | with_reducible assumption
    | with_reducible refine Dev.setFld_keeps (k.mono rfl) ?_
    | with_reducible refine Dev.setMenu_keeps (k.mono rfl) ?_
    | with_reducible refine foldl_keeps (fun e x he => ?_) ?_
    | with_reducible refine foldl_fst_keeps (fun e x he => ?_) ?_
    | with_reducible refine foldl_snd_keeps (fun e x he => ?_) ?_
    | ((fail_if_no_progress extract_lets +onlyGivenNames x); refine cut_keeps (A := P x) ?_ (fun hx => ?_); on_goal 1 => subst x)
    | (fail_if_no_progress extract_lets +onlyGivenNames x)
    | split
    | with_reducible refine upd_scr (k.mono rfl) id ?_)

theorem Dev.decideEvent_keeps {P : Dev → Prop} {d : Dev} {e : Ev} (k : Keeps [.regs, .scr] P) (h : P d) :
    P (Dev.decideEvent d e).1 := by
  unfold Dev.decideEvent
  repeat' (first
    | with_reducible assumption
    | with_reducible refine Dev.applyFx_keeps (k.mono rfl) ?_
    | with_reducible refine Dev.slotOutput_keeps (k.mono rfl) ?_
    | with_reducible refine Dev.countIf_keeps (k.mono rfl) ?_
    | with_reducible refine Dev.rfMod_keeps (k.mono rfl) ?_
    | with_reducible refine foldl_keeps (fun e x he => ?_) ?_
    | with_reducible refine foldl_fst_keeps (fun e x he => ?_) ?_
    | with_reducible refine foldl_snd_keeps (fun e x he => ?_) ?_
    | (with_reducible refine of_fst ‹_› ?_)
    | (with_reducible refine of_snd ‹_› ?_)
    | ((fail_if_no_progress extract_lets +onlyGivenNames x); refine cut_keeps (A := P x) ?_ (fun hx => ?_); on_goal 1 => subst x)
    | (fail_if_no_progress extract_lets +onlyGivenNames x)
    | split)

theorem Dev.setDecEnd_keeps {P : Dev → Prop} {d : Dev} {y1 : ℕ} {t : Option ℕ} (k : Keeps [.scr] P) (h : P d) :
    P (Dev.setDecEnd d y1 t) := by
  unfold Dev.setDecEnd
  repeat' (first | with_reducible assumption | with_reducible refine upd_scr (k.mono rfl) id ?_)

theorem Dev.decAssert_keeps {P : Dev → Prop} {d : Dev} {n : ℕ} {y2 : ℕ} (k : Keeps [.outbox, .scr] P) (h : P d) :
    P (Dev.decAssert d n y2) := by
  unfold Dev.decAssert
  repeat' (first
    | with_reducible assumption
    | with_reducible refine Dev.setDecEnd_keeps (k.mono rfl) ?_
    | with_reducible refine Dev.emit_keeps (k.mono rfl) ?_
    | ((fail_if_no_progress extract_lets +onlyGivenNames x); refine cut_keeps (A := P x) ?_ (fun hx => ?_); on_goal 1 => subst x)
    | (fail_if_no_progress extract_lets +onlyGivenNames x)
    | split)

theorem Dev.decIdle_keeps {P : Dev → Prop} {d : Dev} {y1 : ℕ} {tie : Bool} (k : Keeps [.outbox, .scr] P) (h : P d) :
    P (Dev.decIdle d y1 tie) := by
  unfold Dev.decIdle
  repeat' (first
    | with_reducible assumption
    | with_reducible refine Dev.setDecEnd_keeps (k.mono rfl) ?_
    | with_reducible refine Dev.emit_keeps (k.mono rfl) ?_
    | (fail_if_no_progress extract_lets +onlyGivenNames x)
    | split)

theorem Dev.degradeSlots_keeps {P : Dev → Prop} {d : Dev} {p : ℕ → Bool} (k : Keeps [.regs] P) (h : P d) :
    P (Dev.degradeSlots d p) := by
  unfold Dev.degradeSlots
  repeat' (first
    | with_reducible assumption
    | with_reducible refine Dev.setFld_keeps (k.mono rfl) ?_
    | with_reducible refine foldl_keeps (fun e x he => ?_) ?_
    | with_reducible refine foldl_fst_keeps (fun e x he => ?_) ?_
    | with_reducible refine foldl_snd_keeps (fun e x he => ?_) ?_
    | (fail_if_no_progress extract_lets +onlyGivenNames x)
    | split)

end Sys2Proof.Machine
end

