-- ==== Sys2Proof/Laws/KeepTime.lean ====
section
/-!
SUPPORT. What the operations of Machine/Time.lean may change.
-/

namespace Sys2Proof.Machine

open Sys2Proof

theorem Dev.setTimeState_keeps {P : Dev → Prop} {d : Dev} {st : ℕ} (k : Keeps [.regs] P) (h : P d) :
    P (Dev.setTimeState d st) := by
  unfold Dev.setTimeState
  repeat' (first | with_reducible assumption | with_reducible refine Dev.setFld_keeps (k.mono rfl) ?_)

theorem Dev.setJumpPending_keeps {P : Dev → Prop} {d : Dev} {b : Bool} (k : Keeps [.regs] P) (h : P d) :
    P (Dev.setJumpPending d b) := by
  unfold Dev.setJumpPending
  repeat' (first | with_reducible assumption | with_reducible refine Dev.setFld_keeps (k.mono rfl) ?_)

theorem Dev.setSrc_keeps {P : Dev → Prop} {d : Dev} {y1 : ℕ} {r : SrcRec} (k : Keeps [.tms] P) (h : P d) :
    P (Dev.setSrc d y1 r) := by
  unfold Dev.setSrc
  repeat' (first | with_reducible assumption | with_reducible refine upd_tms (k.mono rfl) ?_)

theorem Dev.setY_keeps {P : Dev → Prop} {d : Dev} {y : ℚ} (k : Keeps [.regs, .freeCtr, .tms] P) (h : P d) :
    P (Dev.setY d y) := by
  unfold Dev.setY
  repeat' (first
    | with_reducible assumption
    | with_reducible refine Dev.roundOpen_keeps (k.mono rfl) ?_
    | with_reducible refine Dev.wr_keeps (k.mono rfl) ?_
    | (with_reducible refine of_fst ‹_› ?_)
    | (with_reducible refine of_snd ‹_› ?_)
    | (fail_if_no_progress extract_lets +onlyGivenNames x)
    | split
    | with_reducible refine upd_tms (k.mono rfl) ?_)

theorem Dev.enterHoldover_keeps {P : Dev → Prop} {d : Dev} (k : Keeps [.regs, .freeCtr, .tms] P) (h : P d) :
    P (Dev.enterHoldover d) := by
  unfold Dev.enterHoldover
  repeat' (first
    | with_reducible assumption
    | with_reducible refine Dev.setY_keeps (k.mono rfl) ?_
    | with_reducible refine Dev.setTimeState_keeps (k.mono rfl) ?_
    | with_reducible refine foldl_keeps (fun e x he => ?_) ?_
    | with_reducible refine foldl_fst_keeps (fun e x he => ?_) ?_
    | with_reducible refine foldl_snd_keeps (fun e x he => ?_) ?_
    | (fail_if_no_progress extract_lets +onlyGivenNames x)
    | split
    | with_reducible refine upd_tms (k.mono rfl) ?_)

theorem Dev.enterAcquire_keeps {P : Dev → Prop} {d : Dev} (k : Keeps [.regs, .tms] P) (h : P d) :
    P (Dev.enterAcquire d) := by
  unfold Dev.enterAcquire
  repeat' (first
    | with_reducible assumption
    | with_reducible refine Dev.setTimeState_keeps (k.mono rfl) ?_
    | with_reducible refine upd_tms (k.mono rfl) ?_)

theorem Dev.feedServo_keeps {P : Dev → Prop} {d : Dev} {y1 : ℕ} {theta : ℚ} (k : Keeps [.regs, .freeCtr, .tms] P) (h : P d) :
    P (Dev.feedServo d y1 theta) := by
  unfold Dev.feedServo
  repeat' (first
    | with_reducible assumption
    | with_reducible refine Dev.setY_keeps (k.mono rfl) ?_
    | with_reducible refine Dev.count_keeps (k.mono rfl) ?_
    | (fail_if_no_progress extract_lets +onlyGivenNames x)
    | split
    | with_reducible refine upd_tms (k.mono rfl) ?_)

theorem Dev.judgeLock_keeps {P : Dev → Prop} {d : Dev} (k : Keeps [.regs, .tms] P) (h : P d) :
    P (Dev.judgeLock d) := by
  unfold Dev.judgeLock
  repeat' (first
    | with_reducible assumption
    | with_reducible refine Dev.setTimeState_keeps (k.mono rfl) ?_
    | with_reducible refine Dev.enterAcquire_keeps (k.mono rfl) ?_
    | (fail_if_no_progress extract_lets +onlyGivenNames x)
    | split
    | with_reducible refine upd_tms (k.mono rfl) ?_)

theorem Dev.feed_keeps {P : Dev → Prop} {d : Dev} {y1 : ℕ} {theta : ℚ} (k : Keeps [.regs, .freeCtr, .tms] P) (h : P d) :
    P (Dev.feed d y1 theta) := by
  unfold Dev.feed
  repeat' (first
    | with_reducible assumption
    | with_reducible refine Dev.feedServo_keeps (k.mono rfl) ?_
    | with_reducible refine Dev.judgeLock_keeps (k.mono rfl) ?_)

theorem Dev.setGen_keeps {P : Dev → Prop} {d : Dev} {g : ℕ} {r : GenRec} (k : Keeps [.tms] P) (h : P d) :
    P (Dev.setGen d g r) := by
  unfold Dev.setGen
  repeat' (first | with_reducible assumption | with_reducible refine upd_tms (k.mono rfl) ?_)

theorem Dev.emitMark_keeps {P : Dev → Prop} {d : Dev} {g : ℕ} (k : Keeps [.regs, .outbox, .tms] P) (h : P d) :
    P (Dev.emitMark d g) := by
  unfold Dev.emitMark
  repeat' (first
    | with_reducible assumption
    | with_reducible refine Dev.emit_keeps (k.mono rfl) ?_
    | with_reducible refine Dev.count_keeps (k.mono rfl) ?_
    | with_reducible refine Dev.wr_keeps (k.mono rfl) ?_
    | with_reducible refine Dev.setGen_keeps (k.mono rfl) ?_
    | with_reducible refine Dev.setFld_keeps (k.mono rfl) ?_
    | ((fail_if_no_progress extract_lets +onlyGivenNames x); refine cut_keeps (A := P x) ?_ (fun hx => ?_); on_goal 1 => subst x)
    | (fail_if_no_progress extract_lets +onlyGivenNames x)
    | split)

theorem Dev.markDue_keeps {P : Dev → Prop} {d : Dev} {g : ℕ} (k : Keeps [.regs, .outbox, .tms] P) (h : P d) :
    P (Dev.markDue d g) := by
  unfold Dev.markDue
  repeat' (first
    | with_reducible assumption
    | with_reducible refine Dev.emitMark_keeps (k.mono rfl) ?_
    | (fail_if_no_progress extract_lets +onlyGivenNames x)
    | split)

theorem Dev.marksDue_keeps {P : Dev → Prop} {d : Dev} {g : ℕ} (k : Keeps [.regs, .outbox, .tms] P) (h : P d) :
    P (Dev.marksDue d g) := by
  unfold Dev.marksDue
  repeat' (first
    | with_reducible assumption
    | with_reducible refine Dev.markDue_keeps (k.mono rfl) ?_
    | with_reducible refine foldl_keeps (fun e x he => ?_) ?_
    | with_reducible refine foldl_fst_keeps (fun e x he => ?_) ?_
    | with_reducible refine foldl_snd_keeps (fun e x he => ?_) ?_
    | (fail_if_no_progress extract_lets +onlyGivenNames x)
    | split)

theorem Dev.skipMarks_keeps {P : Dev → Prop} {d : Dev} {g : ℕ} {n : ℕ} (k : Keeps [.regs, .tms] P) (h : P d) :
    P (Dev.skipMarks d g n) := by
  unfold Dev.skipMarks
  repeat' (first
    | with_reducible assumption
    | with_reducible refine Dev.countN_keeps (k.mono rfl) ?_
    | with_reducible refine Dev.wr_keeps (k.mono rfl) ?_
    | with_reducible refine Dev.setGen_keeps (k.mono rfl) ?_
    | with_reducible refine Dev.setFld_keeps (k.mono rfl) ?_
    | ((fail_if_no_progress extract_lets +onlyGivenNames x); refine cut_keeps (A := P x) ?_ (fun hx => ?_); on_goal 1 => subst x)
    | (fail_if_no_progress extract_lets +onlyGivenNames x)
    | split)

theorem Dev.mkPass_keeps {P : Dev → Prop} {d : Dev} {t0 : ℕ} {t1 : ℕ} {g : ℕ} (k : Keeps [.regs, .tms] P) (h : P d) :
    P (Dev.mkPass d t0 t1 g) := by
  unfold Dev.mkPass
  repeat' (first
    | with_reducible assumption
    | with_reducible refine Dev.setGen_keeps (k.mono rfl) ?_
    | with_reducible refine Dev.skipMarks_keeps (k.mono rfl) ?_
    | ((fail_if_no_progress extract_lets +onlyGivenNames x); refine cut_keeps (A := P x) ?_ (fun hx => ?_); on_goal 1 => subst x)
    | (fail_if_no_progress extract_lets +onlyGivenNames x)
    | split)

theorem Dev.moveCounter_keeps {P : Dev → Prop} {d : Dev} {theta : ℚ} (k : Keeps [.tms] P) (h : P d) :
    P (Dev.moveCounter d theta) := by
  unfold Dev.moveCounter
  repeat' (first
    | with_reducible assumption
    | with_reducible refine Dev.setSrc_keeps (k.mono rfl) ?_
    | with_reducible refine foldl_keeps (fun e x he => ?_) ?_
    | with_reducible refine foldl_fst_keeps (fun e x he => ?_) ?_
    | with_reducible refine foldl_snd_keeps (fun e x he => ?_) ?_
    | ((fail_if_no_progress extract_lets +onlyGivenNames x); refine cut_keeps (A := P x) ?_ (fun hx => ?_); on_goal 1 => subst x)
    | (fail_if_no_progress extract_lets +onlyGivenNames x)
    | split
    | with_reducible refine upd_tms (k.mono rfl) ?_)

theorem Dev.dropOutliers_keeps {P : Dev → Prop} {d : Dev} (k : Keeps [.tms] P) (h : P d) :
    P (Dev.dropOutliers d) := by
  unfold Dev.dropOutliers
  repeat' (first
    | with_reducible assumption
    | with_reducible refine Dev.setSrc_keeps (k.mono rfl) ?_
    | with_reducible refine foldl_keeps (fun e x he => ?_) ?_)

theorem Dev.stepCounter_keeps {P : Dev → Prop} {d : Dev} {theta : ℚ} (k : Keeps [.regs, .outbox, .tms] P) (h : P d) :
    P (Dev.stepCounter d theta) := by
  unfold Dev.stepCounter
  repeat' (first
    | with_reducible assumption
    | with_reducible refine Dev.marksDue_keeps (k.mono rfl) ?_
    | with_reducible refine Dev.moveCounter_keeps (k.mono rfl) ?_
    | with_reducible refine Dev.dropOutliers_keeps (k.mono rfl) ?_
    | with_reducible refine Dev.mkPass_keeps (k.mono rfl) ?_
    | with_reducible refine foldl_keeps (fun e x he => ?_) ?_)

theorem Dev.refuseJump_keeps {P : Dev → Prop} {d : Dev} {theta : ℚ} (k : Keeps [.regs, .log, .freeCtr, .tms] P) (h : P d) :
    P (Dev.refuseJump d theta) := by
  unfold Dev.refuseJump
  repeat' (first
    | with_reducible assumption
    | with_reducible refine Dev.enterHoldover_keeps (k.mono rfl) ?_
    | with_reducible refine Dev.setJumpPending_keeps (k.mono rfl) ?_
    | with_reducible refine Dev.wr_keeps (k.mono rfl) ?_
    | with_reducible refine Dev.count_keeps (k.mono rfl) ?_
    | with_reducible refine Dev.logInternal_keeps (k.mono rfl) ?_)

theorem Dev.confirmJump_keeps {P : Dev → Prop} {d : Dev} {y1 : ℕ} (k : Keeps [.regs, .log, .freeCtr, .outbox, .tms] P) (h : P d) :
    P (Dev.confirmJump d y1) := by
  unfold Dev.confirmJump
  repeat' (first
    | with_reducible assumption
    | with_reducible refine Dev.stepCounter_keeps (k.mono rfl) ?_
    | with_reducible refine Dev.enterAcquire_keeps (k.mono rfl) ?_
    | with_reducible refine Dev.logInternal_keeps (k.mono rfl) ?_
    | with_reducible refine Dev.refuseJump_keeps (k.mono rfl) ?_
    | (fail_if_no_progress extract_lets +onlyGivenNames x)
    | split)

theorem Dev.outlier_keeps {P : Dev → Prop} {d : Dev} {y1 : ℕ} {theta : ℚ} (k : Keeps [.regs, .log, .freeCtr, .outbox, .tms] P) (h : P d) :
    P (Dev.outlier d y1 theta) := by
  unfold Dev.outlier
  repeat' (first
    | with_reducible assumption
    | with_reducible refine Dev.count_keeps (k.mono rfl) ?_
    | with_reducible refine Dev.setSrc_keeps (k.mono rfl) ?_
    | with_reducible refine Dev.confirmJump_keeps (k.mono rfl) ?_)

theorem Dev.measurement_keeps {P : Dev → Prop} {d : Dev} {y1 : ℕ} {theta : ℚ} {t1 : ℤ} (k : Keeps [.regs, .log, .freeCtr, .outbox, .tms] P) (h : P d) :
    P (Dev.measurement d y1 theta t1) := by
  unfold Dev.measurement
  repeat' (first
    | with_reducible assumption
    | with_reducible refine Dev.roundOpen_keeps (k.mono rfl) ?_
    | with_reducible refine Dev.wr_keeps (k.mono rfl) ?_
    | with_reducible refine Dev.count_keeps (k.mono rfl) ?_
    | with_reducible refine Dev.setSrc_keeps (k.mono rfl) ?_
    | with_reducible refine Dev.stepCounter_keeps (k.mono rfl) ?_
    | with_reducible refine Dev.enterAcquire_keeps (k.mono rfl) ?_
    | with_reducible refine Dev.outlier_keeps (k.mono rfl) ?_
    | with_reducible refine Dev.setJumpPending_keeps (k.mono rfl) ?_
    | with_reducible refine Dev.feedServo_keeps (k.mono rfl) ?_
    | with_reducible refine Dev.feed_keeps (k.mono rfl) ?_
    | (with_reducible refine of_fst ‹_› ?_)
    | (with_reducible refine of_snd ‹_› ?_)
    | ((fail_if_no_progress extract_lets +onlyGivenNames x); refine cut_keeps (A := P x) ?_ (fun hx => ?_); on_goal 1 => subst x)
    | (fail_if_no_progress extract_lets +onlyGivenNames x)
    | split
    | with_reducible refine upd_tms (k.mono rfl) ?_)

theorem Dev.showSource_keeps {P : Dev → Prop} {d : Dev} {y1 : ℕ} (k : Keeps [.regs] P) (h : P d) :
    P (Dev.showSource d y1) := by
  unfold Dev.showSource
  repeat' (first
    | with_reducible assumption
    | with_reducible refine Dev.wr_keeps (k.mono rfl) ?_
    | with_reducible refine Dev.setFld_keeps (k.mono rfl) ?_)

theorem Dev.selectSource_keeps {P : Dev → Prop} {d : Dev} (k : Keeps [.regs, .freeCtr, .tms] P) (h : P d) :
    P (Dev.selectSource d) := by
  unfold Dev.selectSource
  repeat' (first
    | with_reducible assumption
    | with_reducible refine Dev.countIf_keeps (k.mono rfl) ?_
    | with_reducible refine Dev.setFld_keeps (k.mono rfl) ?_
    | with_reducible refine Dev.enterHoldover_keeps (k.mono rfl) ?_
    | with_reducible refine Dev.showSource_keeps (k.mono rfl) ?_
    | ((fail_if_no_progress extract_lets +onlyGivenNames x); refine cut_keeps (A := P x) ?_ (fun hx => ?_); on_goal 1 => subst x)
    | (fail_if_no_progress extract_lets +onlyGivenNames x)
    | split)

theorem Dev.syncDone_keeps {P : Dev → Prop} {d : Dev} {y1 : ℕ} {t1 : ℤ} {t2 : ℤ} (k : Keeps [.regs, .log, .freeCtr, .outbox, .tms] P) (h : P d) :
    P (Dev.syncDone d y1 t1 t2) := by
  unfold Dev.syncDone
  repeat' (first
    | with_reducible assumption
    | with_reducible refine Dev.setSrc_keeps (k.mono rfl) ?_
    | with_reducible refine Dev.measurement_keeps (k.mono rfl) ?_
    | ((fail_if_no_progress extract_lets +onlyGivenNames x); refine cut_keeps (A := P x) ?_ (fun hx => ?_); on_goal 1 => subst x)
    | (fail_if_no_progress extract_lets +onlyGivenNames x)
    | split)

theorem Dev.measureHeld_keeps {P : Dev → Prop} {d : Dev} {y1 : ℕ} {dl : ℚ} (k : Keeps [.regs, .log, .freeCtr, .outbox, .tms] P) (h : P d) :
    P (Dev.measureHeld d y1 dl) := by
  unfold Dev.measureHeld
  repeat' (first
    | with_reducible assumption
    | with_reducible refine Dev.measurement_keeps (k.mono rfl) ?_
    | (fail_if_no_progress extract_lets +onlyGivenNames x)
    | split)

theorem Dev.showDelay_keeps {P : Dev → Prop} {d : Dev} {y1 : ℕ} {dl : ℚ} (k : Keeps [.regs, .freeCtr] P) (h : P d) :
    P (Dev.showDelay d y1 dl) := by
  unfold Dev.showDelay
  repeat' (first
    | with_reducible assumption
    | with_reducible refine Dev.roundOpen_keeps (k.mono rfl) ?_
    | with_reducible refine Dev.wr_keeps (k.mono rfl) ?_
    | (with_reducible refine of_fst ‹_› ?_)
    | (with_reducible refine of_snd ‹_› ?_)
    | (fail_if_no_progress extract_lets +onlyGivenNames x)
    | split)

theorem Dev.takeDelay_keeps {P : Dev → Prop} {d : Dev} {y1 : ℕ} {q : DelayReq} {t4 : ℤ} (k : Keeps [.regs, .freeCtr, .tms] P) (h : P d) :
    P (Dev.takeDelay d y1 q t4) := by
  unfold Dev.takeDelay
  repeat' (first
    | with_reducible assumption
    | with_reducible refine Dev.setSrc_keeps (k.mono rfl) ?_
    | with_reducible refine Dev.showDelay_keeps (k.mono rfl) ?_
    | (fail_if_no_progress extract_lets +onlyGivenNames x)
    | split)

theorem Dev.exchangeDone_keeps {P : Dev → Prop} {d : Dev} {y1 : ℕ} {q : DelayReq} {t4 : ℤ} (k : Keeps [.regs, .log, .freeCtr, .outbox, .tms] P) (h : P d) :
    P (Dev.exchangeDone d y1 q t4) := by
  unfold Dev.exchangeDone
  repeat' (first
    | with_reducible assumption
    | with_reducible refine Dev.takeDelay_keeps (k.mono rfl) ?_
    | with_reducible refine Dev.measureHeld_keeps (k.mono rfl) ?_
    | ((fail_if_no_progress extract_lets +onlyGivenNames x); refine cut_keeps (A := P x) ?_ (fun hx => ?_); on_goal 1 => subst x)
    | (fail_if_no_progress extract_lets +onlyGivenNames x)
    | split)

theorem Dev.exchange_keeps {P : Dev → Prop} {d : Dev} {y1 : ℕ} {seq : ℕ} {t4 : ℤ} (k : Keeps [.regs, .log, .freeCtr, .outbox, .tms] P) (h : P d) :
    P (Dev.exchange d y1 seq t4) := by
  unfold Dev.exchange
  repeat' (first
    | with_reducible assumption
    | with_reducible refine Dev.setSrc_keeps (k.mono rfl) ?_
    | with_reducible refine Dev.exchangeDone_keeps (k.mono rfl) ?_
    | with_reducible refine Dev.count_keeps (k.mono rfl) ?_
    | (fail_if_no_progress extract_lets +onlyGivenNames x)
    | split)

theorem Dev.syncResolved_keeps {P : Dev → Prop} {d : Dev} {y1 : ℕ} {seq : BitVec 16} {x : SyncRec} (k : Keeps [.regs, .freeCtr, .tms] P) (h : P d) :
    P (Dev.syncResolved d y1 seq x) := by
  unfold Dev.syncResolved
  repeat' (first
    | with_reducible assumption
    | with_reducible refine Dev.takeDelay_keeps (k.mono rfl) ?_
    | with_reducible refine Dev.setSrc_keeps (k.mono rfl) ?_
    | (fail_if_no_progress extract_lets +onlyGivenNames x)
    | split)

theorem Dev.syncLost_keeps {P : Dev → Prop} {d : Dev} {y1 : ℕ} (k : Keeps [.regs, .log, .freeCtr, .outbox, .tms] P) (h : P d) :
    P (Dev.syncLost d y1) := by
  unfold Dev.syncLost
  repeat' (first
    | with_reducible assumption
    | with_reducible refine Dev.exchangeDone_keeps (k.mono rfl) ?_
    | with_reducible refine Dev.setSrc_keeps (k.mono rfl) ?_
    | (fail_if_no_progress extract_lets +onlyGivenNames x)
    | split)

theorem Dev.newTransmitter_keeps {P : Dev → Prop} {d : Dev} (k : Keeps [.regs, .tms] P) (h : P d) :
    P (Dev.newTransmitter d) := by
  unfold Dev.newTransmitter
  repeat' (first
    | with_reducible assumption
    | with_reducible refine Dev.countIf_keeps (k.mono rfl) ?_
    | with_reducible refine Dev.setSrc_keeps (k.mono rfl) ?_
    | (fail_if_no_progress extract_lets +onlyGivenNames x)
    | split
    | with_reducible refine upd_tms (k.mono rfl) ?_)

theorem Dev.chooseMaster_keeps {P : Dev → Prop} {d : Dev} (k : Keeps [.regs, .freeCtr, .tms] P) (h : P d) :
    P (Dev.chooseMaster d) := by
  unfold Dev.chooseMaster
  repeat' (first
    | with_reducible assumption
    | with_reducible refine Dev.newTransmitter_keeps (k.mono rfl) ?_
    | with_reducible refine Dev.setSrc_keeps (k.mono rfl) ?_
    | with_reducible refine Dev.selectSource_keeps (k.mono rfl) ?_
    | with_reducible refine Dev.showSource_keeps (k.mono rfl) ?_
    | ((fail_if_no_progress extract_lets +onlyGivenNames x); refine cut_keeps (A := P x) ?_ (fun hx => ?_); on_goal 1 => subst x)
    | (fail_if_no_progress extract_lets +onlyGivenNames x)
    | split
    | with_reducible refine upd_tms (k.mono rfl) ?_)

theorem Dev.announceRx_keeps {P : Dev → Prop} {d : Dev} {a : Sys2Proof.AnnounceMsg} (k : Keeps [.regs, .freeCtr, .tms] P) (h : P d) :
    P (Dev.announceRx d a) := by
  unfold Dev.announceRx
  repeat' (first
    | with_reducible assumption
    | with_reducible refine Dev.countIf_keeps (k.mono rfl) ?_
    | with_reducible refine Dev.setSrc_keeps (k.mono rfl) ?_
    | with_reducible refine Dev.chooseMaster_keeps (k.mono rfl) ?_
    | ((fail_if_no_progress extract_lets +onlyGivenNames x); refine cut_keeps (A := P x) ?_ (fun hx => ?_); on_goal 1 => subst x)
    | (fail_if_no_progress extract_lets +onlyGivenNames x)
    | split
    | with_reducible refine upd_tms (k.mono rfl) ?_)

theorem Dev.announceExpire_keeps {P : Dev → Prop} {d : Dev} {tie : Bool} (k : Keeps [.regs, .freeCtr, .tms] P) (h : P d) :
    P (Dev.announceExpire d tie) := by
  unfold Dev.announceExpire
  repeat' (first
    | with_reducible assumption
    | with_reducible refine Dev.chooseMaster_keeps (k.mono rfl) ?_
    | (fail_if_no_progress extract_lets +onlyGivenNames x)
    | split
    | with_reducible refine upd_tms (k.mono rfl) ?_)

theorem Dev.ptpSync_keeps {P : Dev → Prop} {d : Dev} {m : Sys2Proof.SyncMsg} (k : Keeps [.regs, .log, .freeCtr, .outbox, .tms] P) (h : P d) :
    P (Dev.ptpSync d m) := by
  unfold Dev.ptpSync
  repeat' (first
    | with_reducible assumption
    | with_reducible refine Dev.syncResolved_keeps (k.mono rfl) ?_
    | with_reducible refine Dev.syncDone_keeps (k.mono rfl) ?_
    | with_reducible refine Dev.setSrc_keeps (k.mono rfl) ?_
    | with_reducible refine Dev.syncLost_keeps (k.mono rfl) ?_
    | ((fail_if_no_progress extract_lets +onlyGivenNames x); refine cut_keeps (A := P x) ?_ (fun hx => ?_); on_goal 1 => subst x)
    | (fail_if_no_progress extract_lets +onlyGivenNames x)
    | split
    | with_reducible refine upd_tms (k.mono rfl) ?_)

theorem Dev.sendDelayReq_keeps {P : Dev → Prop} {d : Dev} {t3 : ℕ} (k : Keeps [.outbox, .tms] P) (h : P d) :
    P (Dev.sendDelayReq d t3) := by
  unfold Dev.sendDelayReq
  repeat' (first
    | with_reducible assumption
    | with_reducible refine Dev.setSrc_keeps (k.mono rfl) ?_
    | with_reducible refine Dev.emit_keeps (k.mono rfl) ?_
    | (fail_if_no_progress extract_lets +onlyGivenNames x)
    | split)

theorem Dev.setPortState_keeps {P : Dev → Prop} {d : Dev} {p : ℕ} {st : ℕ} (k : Keeps [.regs] P) (h : P d) :
    P (Dev.setPortState d p st) := by
  unfold Dev.setPortState
  repeat' (first | with_reducible assumption | with_reducible refine Dev.setFld_keeps (k.mono rfl) ?_)

theorem Dev.sendPort_keeps {P : Dev → Prop} {d : Dev} {p : ℕ} {ty : ℕ} {b : ℕ} (k : Keeps [.outbox, .ing] P) (h : P d) :
    P (Dev.sendPort d p ty b) := by
  unfold Dev.sendPort
  repeat' (first
    | with_reducible assumption
    | with_reducible refine Dev.sendBlock_keeps (k.mono rfl) ?_
    | (fail_if_no_progress extract_lets +onlyGivenNames x)
    | split)

theorem Dev.txNext_keeps {P : Dev → Prop} {d : Dev} {info : Bool} {p : ℕ} {interval : ℕ} (k : Keeps [.tms] P) (h : P d) :
    P (Dev.txNext d info p interval) := by
  unfold Dev.txNext
  repeat' (first | with_reducible assumption | with_reducible refine upd_tms (k.mono rfl) ?_)

theorem Dev.sendTsync_keeps {P : Dev → Prop} {d : Dev} {p : ℕ} (k : Keeps [.regs, .outbox, .ing, .tms] P) (h : P d) :
    P (Dev.sendTsync d p) := by
  unfold Dev.sendTsync
  repeat' (first
    | with_reducible assumption
    | with_reducible refine Dev.txNext_keeps (k.mono rfl) ?_
    | with_reducible refine Dev.sendPort_keeps (k.mono rfl) ?_
    | with_reducible refine Dev.count_keeps (k.mono rfl) ?_
    | ((fail_if_no_progress extract_lets +onlyGivenNames x); refine cut_keeps (A := P x) ?_ (fun hx => ?_); on_goal 1 => subst x)
    | (fail_if_no_progress extract_lets +onlyGivenNames x)
    | split)

theorem Dev.sendTinfo_keeps {P : Dev → Prop} {d : Dev} {p : ℕ} (k : Keeps [.outbox, .ing, .tms] P) (h : P d) :
    P (Dev.sendTinfo d p) := by
  unfold Dev.sendTinfo
  repeat' (first
    | with_reducible assumption
    | with_reducible refine Dev.txNext_keeps (k.mono rfl) ?_
    | with_reducible refine Dev.sendPort_keeps (k.mono rfl) ?_
    | ((fail_if_no_progress extract_lets +onlyGivenNames x); refine cut_keeps (A := P x) ?_ (fun hx => ?_); on_goal 1 => subst x)
    | (fail_if_no_progress extract_lets +onlyGivenNames x)
    | split)

theorem Dev.answerTdreq_keeps {P : Dev → Prop} {d : Dev} {p : ℕ} {seq : ℕ} {t : ℕ} (k : Keeps [.regs, .outbox, .ing] P) (h : P d) :
    P (Dev.answerTdreq d p seq t) := by
  unfold Dev.answerTdreq
  repeat' (first
    | with_reducible assumption
    | with_reducible refine Dev.sendPort_keeps (k.mono rfl) ?_
    | with_reducible refine Dev.count_keeps (k.mono rfl) ?_
    | (fail_if_no_progress extract_lets +onlyGivenNames x)
    | split)

theorem Dev.sendTdreq_keeps {P : Dev → Prop} {d : Dev} {p : ℕ} {t3 : ℕ} (k : Keeps [.outbox, .ing, .tms] P) (h : P d) :
    P (Dev.sendTdreq d p t3) := by
  unfold Dev.sendTdreq
  repeat' (first
    | with_reducible assumption
    | with_reducible refine Dev.setSrc_keeps (k.mono rfl) ?_
    | with_reducible refine Dev.sendPort_keeps (k.mono rfl) ?_
    | (fail_if_no_progress extract_lets +onlyGivenNames x)
    | split)

theorem Dev.tsync_keeps {P : Dev → Prop} {d : Dev} {p : ℕ} {t1 : ℕ} {t2 : ℕ} {state : ℕ} (k : Keeps [.regs, .log, .freeCtr, .outbox, .tms] P) (h : P d) :
    P (Dev.tsync d p t1 t2 state) := by
  unfold Dev.tsync
  repeat' (first
    | with_reducible assumption
    | with_reducible refine Dev.countIf_keeps (k.mono rfl) ?_
    | with_reducible refine Dev.setSrc_keeps (k.mono rfl) ?_
    | with_reducible refine Dev.selectSource_keeps (k.mono rfl) ?_
    | with_reducible refine Dev.showSource_keeps (k.mono rfl) ?_
    | with_reducible refine Dev.syncDone_keeps (k.mono rfl) ?_
    | ((fail_if_no_progress extract_lets +onlyGivenNames x); refine cut_keeps (A := P x) ?_ (fun hx => ?_); on_goal 1 => subst x)
    | (fail_if_no_progress extract_lets +onlyGivenNames x)
    | split)

theorem Dev.tsyncExpire_keeps {P : Dev → Prop} {d : Dev} {p : ℕ} {tie : Bool} (k : Keeps [.regs, .freeCtr, .tms] P) (h : P d) :
    P (Dev.tsyncExpire d p tie) := by
  unfold Dev.tsyncExpire
  repeat' (first
    | with_reducible assumption
    | with_reducible refine Dev.setSrc_keeps (k.mono rfl) ?_
    | with_reducible refine Dev.selectSource_keeps (k.mono rfl) ?_
    | (fail_if_no_progress extract_lets +onlyGivenNames x)
    | split)

theorem Dev.tinfo_keeps {P : Dev → Prop} {d : Dev} {p : ℕ} {b : ℕ} (k : Keeps [.regs, .tms] P) (h : P d) :
    P (Dev.tinfo d p b) := by
  unfold Dev.tinfo
  repeat' (first
    | with_reducible assumption
    | with_reducible refine Dev.setSrc_keeps (k.mono rfl) ?_
    | with_reducible refine Dev.showSource_keeps (k.mono rfl) ?_
    | ((fail_if_no_progress extract_lets +onlyGivenNames x); refine cut_keeps (A := P x) ?_ (fun hx => ?_); on_goal 1 => subst x)
    | (fail_if_no_progress extract_lets +onlyGivenNames x)
    | split)

theorem Dev.acceptJump_keeps {P : Dev → Prop} {d : Dev} (k : Keeps [.regs, .tms] P) (h : P d) :
    P (Dev.acceptJump d) := by
  unfold Dev.acceptJump
  repeat' (first
    | with_reducible assumption
    | with_reducible refine Dev.setJumpPending_keeps (k.mono rfl) ?_
    | with_reducible refine Dev.setTimeState_keeps (k.mono rfl) ?_
    | (fail_if_no_progress extract_lets +onlyGivenNames x)
    | split
    | with_reducible refine upd_tms (k.mono rfl) ?_)

theorem Dev.markIdle_keeps {P : Dev → Prop} {d : Dev} {g : ℕ} (k : Keeps [.outbox, .tms] P) (h : P d) :
    P (Dev.markIdle d g) := by
  unfold Dev.markIdle
  repeat' (first
    | with_reducible assumption
    | with_reducible refine Dev.setGen_keeps (k.mono rfl) ?_
    | with_reducible refine Dev.emit_keeps (k.mono rfl) ?_
    | (fail_if_no_progress extract_lets +onlyGivenNames x)
    | split)

theorem Dev.markBlocks_keeps {P : Dev → Prop} {d : Dev} {g : ℕ} (k : Keeps [.outbox, .ing, .tms] P) (h : P d) :
    P (Dev.markBlocks d g) := by
  unfold Dev.markBlocks
  repeat' (first
    | with_reducible assumption
    | with_reducible refine Dev.sendPort_keeps (k.mono rfl) ?_
    | with_reducible refine Dev.setGen_keeps (k.mono rfl) ?_
    | with_reducible refine foldl_keeps (fun e x he => ?_) ?_
    | with_reducible refine foldl_fst_keeps (fun e x he => ?_) ?_
    | with_reducible refine foldl_snd_keeps (fun e x he => ?_) ?_
    | ((fail_if_no_progress extract_lets +onlyGivenNames x); refine cut_keeps (A := P x) ?_ (fun hx => ?_); on_goal 1 => subst x)
    | (fail_if_no_progress extract_lets +onlyGivenNames x)
    | split)

theorem Dev.mkArm_keeps {P : Dev → Prop} {d : Dev} {g : ℕ} {mode : ℕ} (k : Keeps [.regs, .tms] P) (h : P d) :
    P (Dev.mkArm d g mode) := by
  unfold Dev.mkArm
  repeat' (first
    | with_reducible assumption
    | with_reducible refine Dev.setGen_keeps (k.mono rfl) ?_
    | with_reducible refine Dev.wr_keeps (k.mono rfl) ?_
    | with_reducible refine Dev.skipMarks_keeps (k.mono rfl) ?_
    | ((fail_if_no_progress extract_lets +onlyGivenNames x); refine cut_keeps (A := P x) ?_ (fun hx => ?_); on_goal 1 => subst x)
    | (fail_if_no_progress extract_lets +onlyGivenNames x)
    | split)

theorem Dev.mkStop_keeps {P : Dev → Prop} {d : Dev} {g : ℕ} (k : Keeps [.regs, .outbox, .tms] P) (h : P d) :
    P (Dev.mkStop d g) := by
  unfold Dev.mkStop
  repeat' (first
    | with_reducible assumption
    | with_reducible refine Dev.markDue_keeps (k.mono rfl) ?_
    | with_reducible refine Dev.setGen_keeps (k.mono rfl) ?_)

theorem Dev.mkWrite_keeps {P : Dev → Prop} {d : Dev} {g : ℕ} {v : ℕ} (k : Keeps [.regs, .outbox, .tms] P) (h : P d) :
    P (Dev.mkWrite d g v) := by
  unfold Dev.mkWrite
  repeat' (first
    | with_reducible assumption
    | with_reducible refine Dev.mkStop_keeps (k.mono rfl) ?_
    | with_reducible refine Dev.wr_keeps (k.mono rfl) ?_
    | with_reducible refine Dev.mkArm_keeps (k.mono rfl) ?_
    | ((fail_if_no_progress extract_lets +onlyGivenNames x); refine cut_keeps (A := P x) ?_ (fun hx => ?_); on_goal 1 => subst x)
    | (fail_if_no_progress extract_lets +onlyGivenNames x)
    | split)

theorem Dev.tmsWrite_keeps {P : Dev → Prop} {d : Dev} {a : ℕ} {v : ℕ} (k : Keeps [.regs, .log, .freeCtr, .outbox, .tms] P) (h : P d) :
    P (Dev.tmsWrite d a v) := by
  unfold Dev.tmsWrite
  repeat' (first
    | with_reducible assumption
    | with_reducible refine Dev.mkWrite_keeps (k.mono rfl) ?_
    | with_reducible refine Dev.wr_keeps (k.mono rfl) ?_
    | with_reducible refine Dev.confirmJump_keeps (k.mono rfl) ?_
    | (fail_if_no_progress extract_lets +onlyGivenNames x)
    | split)

theorem Dev.applyJump_keeps {P : Dev → Prop} {d : Dev} (k : Keeps [.regs, .log, .freeCtr, .outbox, .scr, .tms] P) (h : P d) :
    P (Dev.applyJump d) := by
  unfold Dev.applyJump
  repeat' (first
    | with_reducible assumption
    | with_reducible refine Dev.stepCounter_keeps (k.mono rfl) ?_
    | with_reducible refine Dev.enterAcquire_keeps (k.mono rfl) ?_
    | with_reducible refine Dev.count_keeps (k.mono rfl) ?_
    | with_reducible refine Dev.logInternal_keeps (k.mono rfl) ?_
    | with_reducible refine Dev.enterHoldover_keeps (k.mono rfl) ?_
    | with_reducible refine Dev.tmsWrite_keeps (k.mono rfl) ?_
    | with_reducible refine Dev.rfMod_keeps (k.mono rfl) ?_
    | with_reducible refine foldl_keeps (fun e x he => ?_) ?_
    | with_reducible refine foldl_fst_keeps (fun e x he => ?_) ?_
    | with_reducible refine foldl_snd_keeps (fun e x he => ?_) ?_
    | ((fail_if_no_progress extract_lets +onlyGivenNames x); refine cut_keeps (A := P x) ?_ (fun hx => ?_); on_goal 1 => subst x)
    | (fail_if_no_progress extract_lets +onlyGivenNames x)
    | split
    | with_reducible refine upd_scr_tms (k.mono rfl) id ?_)

theorem Dev.armScreed_keeps {P : Dev → Prop} {d : Dev} (k : Keeps [.regs, .scr] P) (h : P d) :
    P (Dev.armScreed d) := by
  unfold Dev.armScreed
  repeat' (first
    | with_reducible assumption
    | with_reducible refine Dev.setFld_keeps (k.mono rfl) ?_
    | (fail_if_no_progress extract_lets +onlyGivenNames x)
    | split
    | with_reducible refine upd_scr (k.mono rfl) id ?_)

theorem Dev.tick_keeps {P : Dev → Prop} {d : Dev} (k : Keeps [.regs, .devNs, .tms] P) (h : P d) :
    P (Dev.tick d) := by
  unfold Dev.tick
  repeat' (first
    | with_reducible assumption
    | with_reducible refine Dev.count_keeps (k.mono rfl) ?_
    | ((fail_if_no_progress extract_lets +onlyGivenNames x); refine cut_keeps (A := P x) ?_ (fun hx => ?_); on_goal 1 => subst x)
    | (fail_if_no_progress extract_lets +onlyGivenNames x)
    | split
    | with_reducible refine upd_devNs_tms (k.mono rfl) ?_)

end Sys2Proof.Machine
end

