-- ==== Sys2Proof/Laws/KeepAcq.lean ====
section
/-!
SUPPORT. What the operations of Machine/Acq.lean may change.
-/

namespace Sys2Proof.Machine

open Sys2Proof

theorem Dev.setRing_keeps {P : Dev → Prop} {d : Dev} {r : ℕ} {x : RingRec} (k : Keeps [.acq] P) (h : P d) :
    P (Dev.setRing d r x) := by
  unfold Dev.setRing
  repeat' (first | with_reducible assumption | with_reducible refine upd_acq (k.mono rfl) ?_)

theorem Dev.setStp_keeps {P : Dev → Prop} {d : Dev} {c : ℕ} {x : StpRec} (k : Keeps [.acq] P) (h : P d) :
    P (Dev.setStp d c x) := by
  unfold Dev.setStp
  repeat' (first | with_reducible assumption | with_reducible refine upd_acq (k.mono rfl) ?_)

theorem Dev.setRingBuf_keeps {P : Dev → Prop} {d : Dev} {st : ℕ} {b : List (ℕ × RingItem)} (k : Keeps [.acq] P) (h : P d) :
    P (Dev.setRingBuf d st b) := by
  unfold Dev.setRingBuf
  repeat' (first | with_reducible assumption | with_reducible refine upd_acq (k.mono rfl) ?_)

theorem Dev.modRecord_keeps {P : Dev → Prop} {d : Dev} {q : ℕ} {f : RecordRec → RecordRec} (k : Keeps [.store] P) (h : P d) :
    P (Dev.modRecord d q f) := by
  unfold Dev.modRecord
  repeat' (first
    | with_reducible assumption
    | (fail_if_no_progress extract_lets +onlyGivenNames x)
    | split
    | with_reducible refine upd_store (k.mono rfl) ?_)

theorem Dev.showStore_keeps {P : Dev → Prop} {d : Dev} (k : Keeps [.regs] P) (h : P d) :
    P (Dev.showStore d) := by
  unfold Dev.showStore
  repeat' (first | with_reducible assumption | with_reducible refine Dev.wr_keeps (k.mono rfl) ?_)

theorem Dev.takePool_keeps {P : Dev → Prop} {d : Dev} {n : ℕ} (k : Keeps [.regs, .store] P) (h : P d) :
    ∀ y, Dev.takePool d n = some y → P y.1 := by
  unfold Dev.takePool
  repeat' (first
    | with_reducible assumption
    | with_reducible refine Dev.showStore_keeps (k.mono rfl) ?_
    | (intro y hy; cases hy)
    | (fail_if_no_progress extract_lets +onlyGivenNames x)
    | split
    | with_reducible refine upd_store (k.mono rfl) ?_)

theorem Dev.takeReserve_keeps {P : Dev → Prop} {d : Dev} (k : Keeps [.store] P) (h : P d) :
    ∀ y, Dev.takeReserve d = some y → P y.1 := by
  unfold Dev.takeReserve
  repeat' (first
    | with_reducible assumption
    | (intro y hy; cases hy)
    | (fail_if_no_progress extract_lets +onlyGivenNames x)
    | split
    | with_reducible refine upd_store (k.mono rfl) ?_)

theorem Dev.freePages_keeps {P : Dev → Prop} {d : Dev} {x : RecordRec} (k : Keeps [.regs, .store] P) (h : P d) :
    P (Dev.freePages d x) := by
  unfold Dev.freePages
  repeat' (first
    | with_reducible assumption
    | with_reducible refine Dev.showStore_keeps (k.mono rfl) ?_
    | with_reducible refine foldl_keeps (fun e x he => ?_) ?_
    | with_reducible refine foldl_fst_keeps (fun e x he => ?_) ?_
    | with_reducible refine foldl_snd_keeps (fun e x he => ?_) ?_
    | (fail_if_no_progress extract_lets +onlyGivenNames x)
    | split
    | with_reducible refine upd_store (k.mono rfl) ?_)

theorem Dev.dropRecord_keeps {P : Dev → Prop} {d : Dev} {q : ℕ} (k : Keeps [.regs, .store] P) (h : P d) :
    P (Dev.dropRecord d q) := by
  unfold Dev.dropRecord
  repeat' (first
    | with_reducible assumption
    | with_reducible refine Dev.freePages_keeps (k.mono rfl) ?_
    | (fail_if_no_progress extract_lets +onlyGivenNames x)
    | split
    | with_reducible refine upd_store (k.mono rfl) ?_)

theorem Dev.measured_keeps {P : Dev → Prop} {d : Dev} {w : ℕ} {q : ℚ} (k : Keeps [.freeCtr] P) (h : P d) :
    P (Dev.measured d w q).2 := by
  unfold Dev.measured
  repeat' (first
    | with_reducible assumption
    | with_reducible refine Dev.roundOpen_keeps (k.mono rfl) ?_
    | with_reducible refine Dev.open_keeps (k.mono rfl) ?_
    | (with_reducible refine of_fst ‹_› ?_)
    | (with_reducible refine of_snd ‹_› ?_)
    | (fail_if_no_progress extract_lets +onlyGivenNames x)
    | split)

theorem Dev.measureEntry_keeps {P : Dev → Prop} {d : Dev} {ch : ℕ} {neg : Bool} {ts : ℕ} {pre : ℕ} {xs : List (ℤ × Option ℤ)} (k : Keeps [.freeCtr] P) (h : P d) :
    P (Dev.measureEntry d ch neg ts pre xs).2 := by
  unfold Dev.measureEntry
  repeat' (first
    | with_reducible assumption
    | with_reducible refine Dev.roundOpen_keeps (k.mono rfl) ?_
    | with_reducible refine Dev.measured_keeps (k.mono rfl) ?_
    | with_reducible refine foldl_keeps (fun e x he => ?_) ?_
    | with_reducible refine foldl_fst_keeps (fun e x he => ?_) ?_
    | with_reducible refine foldl_snd_keeps (fun e x he => ?_) ?_
    | (with_reducible refine of_fst ‹_› ?_)
    | (with_reducible refine of_snd ‹_› ?_)
    | (fail_if_no_progress extract_lets +onlyGivenNames x)
    | split)

theorem Dev.recordImage_keeps {P : Dev → Prop} {d : Dev} {x : RecordRec} (k : Keeps [.freeCtr] P) (h : P d) :
    P (Dev.recordImage d x).2 := by
  unfold Dev.recordImage
  repeat' (first
    | with_reducible assumption
    | with_reducible refine Dev.measureEntry_keeps (k.mono rfl) ?_
    | with_reducible refine foldl_keeps (fun e x he => ?_) ?_
    | with_reducible refine foldl_fst_keeps (fun e x he => ?_) ?_
    | with_reducible refine foldl_snd_keeps (fun e x he => ?_) ?_)

theorem Dev.tryComplete_keeps {P : Dev → Prop} {d : Dev} {q : ℕ} (k : Keeps [.regs, .freeCtr, .store] P) (h : P d) :
    P (Dev.tryComplete d q) := by
  unfold Dev.tryComplete
  repeat' (first
    | with_reducible assumption
    | with_reducible refine Dev.recordImage_keeps (k.mono rfl) ?_
    | with_reducible refine Dev.modRecord_keeps (k.mono rfl) ?_
    | with_reducible refine Dev.count_keeps (k.mono rfl) ?_
    | with_reducible refine Dev.showStore_keeps (k.mono rfl) ?_
    | with_reducible refine Dev.countIf_keeps (k.mono rfl) ?_
    | (with_reducible refine of_fst ‹_› ?_)
    | (with_reducible refine of_snd ‹_› ?_)
    | ((fail_if_no_progress extract_lets +onlyGivenNames x); refine cut_keeps (A := P x) ?_ (fun hx => ?_); on_goal 1 => subst x)
    | (fail_if_no_progress extract_lets +onlyGivenNames x)
    | split)

theorem Dev.markTruncated_keeps {P : Dev → Prop} {d : Dev} {q : ℕ} (k : Keeps [.store] P) (h : P d) :
    P (Dev.markTruncated d q) := by
  unfold Dev.markTruncated
  repeat' (first | with_reducible assumption | with_reducible refine Dev.modRecord_keeps (k.mono rfl) ?_)

theorem Dev.forgetRows_keeps {P : Dev → Prop} {d : Dev} {q : ℕ} {y2 : ℕ} {kb : ℕ} (k : Keeps [.store] P) (h : P d) :
    P (Dev.forgetRows d q y2 kb) := by
  unfold Dev.forgetRows
  repeat' (first
    | with_reducible assumption
    | with_reducible refine Dev.modRecord_keeps (k.mono rfl) ?_)

theorem Dev.rowDropped_keeps {P : Dev → Prop} {d : Dev} {r : ℕ} {y2 : ℕ} (k : Keeps [.regs, .acq, .store] P) (h : P d) :
    P (Dev.rowDropped d r y2) := by
  unfold Dev.rowDropped
  repeat' (first
    | with_reducible assumption
    | with_reducible refine Dev.markTruncated_keeps (k.mono rfl) ?_
    | with_reducible refine Dev.forgetRows_keeps (k.mono rfl) ?_
    | with_reducible refine Dev.count_keeps (k.mono rfl) ?_
    | with_reducible refine Dev.setRing_keeps (k.mono rfl) ?_
    | with_reducible refine foldl_keeps (fun e x he => ?_) ?_
    | with_reducible refine foldl_fst_keeps (fun e x he => ?_) ?_
    | with_reducible refine foldl_snd_keeps (fun e x he => ?_) ?_
    | ((fail_if_no_progress extract_lets +onlyGivenNames x); refine cut_keeps (A := P x) ?_ (fun hx => ?_); on_goal 1 => subst x)
    | (fail_if_no_progress extract_lets +onlyGivenNames x)
    | split)

theorem Dev.captureEnded_keeps {P : Dev → Prop} {d : Dev} {q : ℕ} (k : Keeps [.store] P) (h : P d) :
    P (Dev.captureEnded d q) := by
  unfold Dev.captureEnded
  repeat' (first
    | with_reducible assumption
    | with_reducible refine Dev.modRecord_keeps (k.mono rfl) ?_)

theorem Dev.entryDropped_keeps {P : Dev → Prop} {d : Dev} {r : ℕ} {x : RingItem} {all : Bool} (k : Keeps [.regs, .acq, .store] P) (h : P d) :
    P (Dev.entryDropped d r x all) := by
  unfold Dev.entryDropped
  repeat' (first
    | with_reducible assumption
    | with_reducible refine Dev.markTruncated_keeps (k.mono rfl) ?_
    | with_reducible refine Dev.modRecord_keeps (k.mono rfl) ?_
    | with_reducible refine Dev.captureEnded_keeps (k.mono rfl) ?_
    | with_reducible refine Dev.count_keeps (k.mono rfl) ?_
    | with_reducible refine Dev.setRing_keeps (k.mono rfl) ?_
    | with_reducible refine foldl_keeps (fun e x he => ?_) ?_)

theorem Dev.ringPut_keeps {P : Dev → Prop} {d : Dev} {r : ℕ} {x : RingItem} (k : Keeps [.regs, .acq, .store] P) (h : P d) :
    P (Dev.ringPut d r x).1 := by
  unfold Dev.ringPut
  repeat' (first
    | with_reducible assumption
    | with_reducible refine Dev.setRing_keeps (k.mono rfl) ?_
    | with_reducible refine Dev.entryDropped_keeps (k.mono rfl) ?_
    | with_reducible refine Dev.rowDropped_keeps (k.mono rfl) ?_
    | with_reducible refine Dev.setRingBuf_keeps (k.mono rfl) ?_
    | with_reducible refine Dev.count_keeps (k.mono rfl) ?_
    | with_reducible refine Dev.countIf_keeps (k.mono rfl) ?_
    | ((fail_if_no_progress extract_lets +onlyGivenNames x); refine cut_keeps (A := P x) ?_ (fun hx => ?_); on_goal 1 => subst x)
    | (fail_if_no_progress extract_lets +onlyGivenNames x)
    | split)

theorem Dev.settleRing_keeps {P : Dev → Prop} {d : Dev} {r : ℕ} (k : Keeps [.regs, .freeCtr, .acq, .store] P) (h : P d) :
    P (Dev.settleRing d r) := by
  unfold Dev.settleRing
  repeat' (first
    | with_reducible assumption
    | with_reducible refine Dev.captureEnded_keeps (k.mono rfl) ?_
    | with_reducible refine Dev.setRing_keeps (k.mono rfl) ?_
    | with_reducible refine Dev.setFld_keeps (k.mono rfl) ?_
    | with_reducible refine Dev.modRecord_keeps (k.mono rfl) ?_
    | with_reducible refine Dev.tryComplete_keeps (k.mono rfl) ?_
    | with_reducible refine foldl_keeps (fun e x he => ?_) ?_
    | with_reducible refine foldl_fst_keeps (fun e x he => ?_) ?_
    | with_reducible refine foldl_snd_keeps (fun e x he => ?_) ?_
    | (fail_if_no_progress extract_lets +onlyGivenNames x)
    | split)

theorem Dev.resumeRing_keeps {P : Dev → Prop} {d : Dev} {r : ℕ} (k : Keeps [.acq] P) (h : P d) :
    P (Dev.resumeRing d r) := by
  unfold Dev.resumeRing
  repeat' (first
    | with_reducible assumption
    | with_reducible refine Dev.setRing_keeps (k.mono rfl) ?_
    | with_reducible refine Dev.setStp_keeps (k.mono rfl) ?_
    | with_reducible refine foldl_keeps (fun e x he => ?_) ?_
    | with_reducible refine foldl_fst_keeps (fun e x he => ?_) ?_
    | with_reducible refine foldl_snd_keeps (fun e x he => ?_) ?_
    | ((fail_if_no_progress extract_lets +onlyGivenNames x); refine cut_keeps (A := P x) ?_ (fun hx => ?_); on_goal 1 => subst x)
    | (fail_if_no_progress extract_lets +onlyGivenNames x)
    | split)

theorem Dev.ringWrite_keeps {P : Dev → Prop} {d : Dev} {st : ℕ} (k : Keeps [.regs, .freeCtr, .acq, .store] P) (h : P d) :
    P (Dev.ringWrite d st) := by
  unfold Dev.ringWrite
  repeat' (first
    | with_reducible assumption
    | with_reducible refine Dev.setRingBuf_keeps (k.mono rfl) ?_
    | with_reducible refine Dev.setRing_keeps (k.mono rfl) ?_
    | with_reducible refine Dev.settleRing_keeps (k.mono rfl) ?_
    | (fail_if_no_progress extract_lets +onlyGivenNames x)
    | split)

theorem Dev.closeRow_keeps {P : Dev → Prop} {d : Dev} {r : ℕ} (k : Keeps [.regs, .freeCtr, .acq, .store] P) (h : P d) :
    P (Dev.closeRow d r) := by
  unfold Dev.closeRow
  repeat' (first
    | with_reducible assumption
    | with_reducible refine Dev.setRing_keeps (k.mono rfl) ?_
    | with_reducible refine Dev.ringPut_keeps (k.mono rfl) ?_
    | with_reducible refine Dev.settleRing_keeps (k.mono rfl) ?_)

theorem Dev.firstRow_keeps {P : Dev → Prop} {d : Dev} {r : ℕ} (k : Keeps [.acq] P) (h : P d) :
    P (Dev.firstRow d r) := by
  unfold Dev.firstRow
  repeat' (first
    | with_reducible assumption
    | with_reducible refine Dev.setRing_keeps (k.mono rfl) ?_
    | (fail_if_no_progress extract_lets +onlyGivenNames x)
    | split)

theorem Dev.closeFull_keeps {P : Dev → Prop} {d : Dev} {r : ℕ} {a : ℕ} (k : Keeps [.regs, .freeCtr, .acq, .store] P) (h : P d) :
    P (Dev.closeFull d r a) := by
  induction a generalizing d with
  | zero => exact h
  | succ a ih =>
  rw [Dev.closeFull]
  repeat' (first
    | with_reducible assumption
    | with_reducible refine Dev.firstRow_keeps (k.mono rfl) ?_
    | with_reducible refine Dev.closeRow_keeps (k.mono rfl) ?_
    | with_reducible refine ih ?_
    | (fail_if_no_progress extract_lets +onlyGivenNames x)
    | split)

theorem Dev.rowSample_keeps {P : Dev → Prop} {d : Dev} {r : ℕ} {x : Sample} (k : Keeps [.regs, .freeCtr, .acq, .store] P) (h : P d) :
    P (Dev.rowSample d r x) := by
  unfold Dev.rowSample
  repeat' (first
    | with_reducible assumption
    | with_reducible refine Dev.countIf_keeps (k.mono rfl) ?_
    | with_reducible refine Dev.setRing_keeps (k.mono rfl) ?_
    | with_reducible refine Dev.closeFull_keeps (k.mono rfl) ?_
    | ((fail_if_no_progress extract_lets +onlyGivenNames x); refine cut_keeps (A := P x) ?_ (fun hx => ?_); on_goal 1 => subst x)
    | (fail_if_no_progress extract_lets +onlyGivenNames x)
    | split)

theorem Dev.closeRows_keeps {P : Dev → Prop} {d : Dev} {r : ℕ} {t : ℤ} (k : Keeps [.regs, .freeCtr, .acq, .store] P) (h : P d) :
    P (Dev.closeRows d r t) := by
  unfold Dev.closeRows
  repeat' (first
    | with_reducible assumption
    | with_reducible refine Dev.closeRow_keeps (k.mono rfl) ?_
    | with_reducible refine Dev.firstRow_keeps (k.mono rfl) ?_
    | with_reducible refine foldl_keeps (fun e x he => ?_) ?_
    | with_reducible refine foldl_fst_keeps (fun e x he => ?_) ?_
    | with_reducible refine foldl_snd_keeps (fun e x he => ?_) ?_
    | ((fail_if_no_progress extract_lets +onlyGivenNames x); refine cut_keeps (A := P x) ?_ (fun hx => ?_); on_goal 1 => subst x)
    | (fail_if_no_progress extract_lets +onlyGivenNames x)
    | split)

theorem Dev.rephase_keeps {P : Dev → Prop} {d : Dev} (k : Keeps [.acq] P) (h : P d) :
    P (Dev.rephase d) := by
  unfold Dev.rephase
  repeat' (first
    | with_reducible assumption
    | with_reducible refine Dev.setStp_keeps (k.mono rfl) ?_
    | with_reducible refine Dev.setRing_keeps (k.mono rfl) ?_
    | with_reducible refine foldl_keeps (fun e x he => ?_) ?_
    | with_reducible refine foldl_fst_keeps (fun e x he => ?_) ?_
    | with_reducible refine foldl_snd_keeps (fun e x he => ?_) ?_
    | (fail_if_no_progress extract_lets +onlyGivenNames x)
    | split)

theorem Dev.stpEntry_keeps {P : Dev → Prop} {d : Dev} {r : ℕ} {c : ℕ} {kind : ℕ} {t : ℤ} {v : Option ℤ} (k : Keeps [.regs, .freeCtr, .acq, .store] P) (h : P d) :
    P (Dev.stpEntry d r c kind t v) := by
  unfold Dev.stpEntry
  repeat' (first
    | with_reducible assumption
    | with_reducible refine Dev.ringPut_keeps (k.mono rfl) ?_
    | with_reducible refine Dev.setStp_keeps (k.mono rfl) ?_
    | with_reducible refine Dev.settleRing_keeps (k.mono rfl) ?_
    | (with_reducible refine of_fst ‹_› ?_)
    | (with_reducible refine of_snd ‹_› ?_)
    | (fail_if_no_progress extract_lets +onlyGivenNames x)
    | split)

theorem Dev.stpMissing_keeps {P : Dev → Prop} {d : Dev} {r : ℕ} {c : ℕ} {p : ℤ} (k : Keeps [.regs, .freeCtr, .acq, .store] P) (h : P d) :
    P (Dev.stpMissing d r c p) := by
  unfold Dev.stpMissing
  repeat' (first
    | with_reducible assumption
    | with_reducible refine Dev.setStp_keeps (k.mono rfl) ?_
    | with_reducible refine Dev.stpEntry_keeps (k.mono rfl) ?_
    | ((fail_if_no_progress extract_lets +onlyGivenNames x); refine cut_keeps (A := P x) ?_ (fun hx => ?_); on_goal 1 => subst x)
    | (fail_if_no_progress extract_lets +onlyGivenNames x)
    | split)

theorem Dev.passed_keeps {P : Dev → Prop} {d : Dev} {r : ℕ} {t : ℤ} (k : Keeps [.acq] P) (h : P d) :
    P (Dev.passed d r t) := by
  unfold Dev.passed
  repeat' (first
    | with_reducible assumption
    | with_reducible refine Dev.setRing_keeps (k.mono rfl) ?_
    | (fail_if_no_progress extract_lets +onlyGivenNames x)
    | split)

theorem Dev.stpSample_keeps {P : Dev → Prop} {d : Dev} {r : ℕ} {x : Sample} (k : Keeps [.regs, .freeCtr, .acq, .store] P) (h : P d) :
    P (Dev.stpSample d r x) := by
  unfold Dev.stpSample
  repeat' (first
    | with_reducible assumption
    | with_reducible refine Dev.stpMissing_keeps (k.mono rfl) ?_
    | with_reducible refine Dev.setStp_keeps (k.mono rfl) ?_
    | with_reducible refine Dev.stpEntry_keeps (k.mono rfl) ?_
    | with_reducible refine Dev.passed_keeps (k.mono rfl) ?_
    | (fail_if_no_progress extract_lets +onlyGivenNames x)
    | split)

theorem Dev.keepEntry_keeps {P : Dev → Prop} {d : Dev} {c : ℕ} (k : Keeps [.regs, .freeCtr, .acq, .store] P) (h : P d) :
    P (Dev.keepEntry d c) := by
  unfold Dev.keepEntry
  repeat' (first
    | with_reducible assumption
    | with_reducible refine Dev.stpEntry_keeps (k.mono rfl) ?_
    | (fail_if_no_progress extract_lets +onlyGivenNames x)
    | split)

theorem Dev.freeInForce_keeps {P : Dev → Prop} {d : Dev} {r : ℕ} (k : Keeps [.regs, .freeCtr, .store] P) (h : P d) :
    P (Dev.freeInForce d r) := by
  unfold Dev.freeInForce
  repeat' (first
    | with_reducible assumption
    | with_reducible refine Dev.modRecord_keeps (k.mono rfl) ?_
    | with_reducible refine Dev.tryComplete_keeps (k.mono rfl) ?_
    | with_reducible refine foldl_keeps (fun e x he => ?_) ?_)

theorem Dev.ringFieldSet_keeps {P : Dev → Prop} {d : Dev} {a : ℕ} {v : ℕ} (k : Keeps [.regs, .freeCtr, .store] P) (h : P d) :
    P (Dev.ringFieldSet d a v) := by
  unfold Dev.ringFieldSet
  repeat' (first
    | with_reducible assumption
    | with_reducible refine Dev.wr_keeps (k.mono rfl) ?_
    | with_reducible refine Dev.freeInForce_keeps (k.mono rfl) ?_
    | ((fail_if_no_progress extract_lets +onlyGivenNames x); refine cut_keeps (A := P x) ?_ (fun hx => ?_); on_goal 1 => subst x)
    | (fail_if_no_progress extract_lets +onlyGivenNames x)
    | split)

theorem Dev.seePosition_keeps {P : Dev → Prop} {d : Dev} {r : ℕ} {t : ℤ} (k : Keeps [.acq] P) (h : P d) :
    P (Dev.seePosition d r t) := by
  unfold Dev.seePosition
  repeat' (first
    | with_reducible assumption
    | with_reducible refine Dev.setRing_keeps (k.mono rfl) ?_)

theorem Dev.livesInForce_keeps {P : Dev → Prop} {d : Dev} {r : ℕ} (k : Keeps [.regs, .freeCtr, .acq, .store] P) (h : P d) :
    P (Dev.livesInForce d r) := by
  unfold Dev.livesInForce
  repeat' (first
    | with_reducible assumption
    | with_reducible refine Dev.ringFieldSet_keeps (k.mono rfl) ?_
    | with_reducible refine foldl_keeps (fun e x he => ?_) ?_
    | with_reducible refine foldl_fst_keeps (fun e x he => ?_) ?_
    | with_reducible refine foldl_snd_keeps (fun e x he => ?_) ?_
    | (fail_if_no_progress extract_lets +onlyGivenNames x)
    | split
    | with_reducible refine upd_acq (k.mono rfl) ?_)

theorem Dev.ringLives_keeps {P : Dev → Prop} {d : Dev} {r : ℕ} {t : ℤ} (k : Keeps [.regs, .freeCtr, .acq, .store] P) (h : P d) :
    P (Dev.ringLives d r t) := by
  unfold Dev.ringLives
  repeat' (first
    | with_reducible assumption
    | with_reducible refine Dev.livesInForce_keeps (k.mono rfl) ?_
    | with_reducible refine Dev.seePosition_keeps (k.mono rfl) ?_
    | (fail_if_no_progress extract_lets +onlyGivenNames x)
    | split)

theorem Dev.ringFieldWritten_keeps {P : Dev → Prop} {d : Dev} {a : ℕ} {v : ℕ} (k : Keeps [.regs, .freeCtr, .acq, .store] P) (h : P d) :
    P (Dev.ringFieldWritten d a v) := by
  unfold Dev.ringFieldWritten
  repeat' (first
    | with_reducible assumption
    | with_reducible refine Dev.ringFieldSet_keeps (k.mono rfl) ?_
    | (fail_if_no_progress extract_lets +onlyGivenNames x)
    | split
    | with_reducible refine upd_acq (k.mono rfl) ?_)

theorem Dev.ringSample_keeps {P : Dev → Prop} {d : Dev} {x : Sample} (k : Keeps [.regs, .freeCtr, .acq, .store] P) (h : P d) :
    P (Dev.ringSample d x) := by
  unfold Dev.ringSample
  repeat' (first
    | with_reducible assumption
    | with_reducible refine Dev.ringLives_keeps (k.mono rfl) ?_
    | with_reducible refine Dev.stpSample_keeps (k.mono rfl) ?_
    | with_reducible refine Dev.rowSample_keeps (k.mono rfl) ?_
    | ((fail_if_no_progress extract_lets +onlyGivenNames x); refine cut_keeps (A := P x) ?_ (fun hx => ?_); on_goal 1 => subst x)
    | (fail_if_no_progress extract_lets +onlyGivenNames x)
    | split)

theorem Dev.ringAdmit_keeps {P : Dev → Prop} {d : Dev} {n : ℕ} {missing : List (ℕ × ℕ × ℤ)} (k : Keeps [.regs, .freeCtr, .acq, .store] P) (h : P d) :
    P (Dev.ringAdmit d n missing) := by
  unfold Dev.ringAdmit
  repeat' (first
    | with_reducible assumption
    | with_reducible refine Dev.ringLives_keeps (k.mono rfl) ?_
    | with_reducible refine Dev.stpMissing_keeps (k.mono rfl) ?_
    | with_reducible refine Dev.passed_keeps (k.mono rfl) ?_
    | with_reducible refine Dev.closeRows_keeps (k.mono rfl) ?_
    | with_reducible refine foldl_keeps (fun e x he => ?_) ?_
    | with_reducible refine foldl_fst_keeps (fun e x he => ?_) ?_
    | with_reducible refine foldl_snd_keeps (fun e x he => ?_) ?_
    | ((fail_if_no_progress extract_lets +onlyGivenNames x); refine cut_keeps (A := P x) ?_ (fun hx => ?_); on_goal 1 => subst x)
    | (fail_if_no_progress extract_lets +onlyGivenNames x)
    | split)

theorem Dev.ringsBegin_keeps {P : Dev → Prop} {d : Dev} (k : Keeps [.acq] P) (h : P d) :
    P (Dev.ringsBegin d) := by
  unfold Dev.ringsBegin
  repeat' (first
    | with_reducible assumption
    | with_reducible refine Dev.setRing_keeps (k.mono rfl) ?_
    | with_reducible refine foldl_keeps (fun e x he => ?_) ?_)

theorem Dev.addRecord_keeps {P : Dev → Prop} {d : Dev} {x : RecordRec} (k : Keeps [.store] P) (h : P d) :
    P (Dev.addRecord d x) := by
  unfold Dev.addRecord
  repeat' (first | with_reducible assumption | with_reducible refine upd_store (k.mono rfl) ?_)

theorem Dev.putAppendix_keeps {P : Dev → Prop} {d : Dev} {q : ℕ} {producer : BitVec 16} {data : List Sys2Proof.Byte} (k : Keeps [.regs, .store] P) (h : P d) :
    P (Dev.putAppendix d q producer data) := by
  unfold Dev.putAppendix
  repeat' (first
    | with_reducible assumption
    | with_reducible refine Dev.takePool_keeps (k.mono rfl) ?_ (_, _) ‹_›
    | with_reducible refine Dev.modRecord_keeps (k.mono rfl) ?_
    | with_reducible refine Dev.count_keeps (k.mono rfl) ?_
    | (fail_if_no_progress extract_lets +onlyGivenNames x)
    | split)

theorem Dev.beginRecord_keeps {P : Dev → Prop} {d : Dev} {x : RecordRec} {own : Option (List Sys2Proof.Byte)} (k : Keeps [.regs, .store] P) (h : P d) :
    P (Dev.beginRecord d x own) := by
  unfold Dev.beginRecord
  repeat' (first
    | with_reducible assumption
    | with_reducible refine Dev.addRecord_keeps (k.mono rfl) ?_
    | with_reducible refine Dev.putAppendix_keeps (k.mono rfl) ?_
    | (fail_if_no_progress extract_lets +onlyGivenNames x)
    | split)

theorem Dev.summaryPage_keeps {P : Dev → Prop} {d : Dev} {reduced : Bool} (k : Keeps [.regs, .store] P) (h : P d) :
    ∀ y, Dev.summaryPage d reduced = some y → P y.1 := by
  unfold Dev.summaryPage
  repeat' (first
    | with_reducible assumption
    | with_reducible refine Dev.takePool_keeps (k.mono rfl) ?_ (_, _) ‹_›
    | (intro y hy; cases hy)
    | with_reducible exact Dev.takePool_keeps (k.mono rfl) ‹_›
    | (fail_if_no_progress extract_lets +onlyGivenNames x)
    | split)

theorem Dev.summaryRecord_keeps {P : Dev → Prop} {d : Dev} {x : RecordRec} {reduced : Bool} {own : Option (List Sys2Proof.Byte)} (k : Keeps [.regs, .freeCtr, .store] P) (h : P d) :
    P (Dev.summaryRecord d x reduced own) := by
  unfold Dev.summaryRecord
  repeat' (first
    | with_reducible assumption
    | with_reducible refine Dev.summaryPage_keeps (k.mono rfl) ?_ (_, _) ‹_›
    | with_reducible refine Dev.beginRecord_keeps (k.mono rfl) ?_
    | with_reducible refine Dev.captureEnded_keeps (k.mono rfl) ?_
    | with_reducible refine Dev.tryComplete_keeps (k.mono rfl) ?_
    | with_reducible refine Dev.count_keeps (k.mono rfl) ?_
    | with_reducible refine Dev.takeReserve_keeps (k.mono rfl) ?_ (_, _) ‹_›
    | ((fail_if_no_progress extract_lets +onlyGivenNames x); refine cut_keeps (A := P x) ?_ (fun hx => ?_); on_goal 1 => subst x)
    | (fail_if_no_progress extract_lets +onlyGivenNames x)
    | split)

theorem Dev.countDropped_keeps {P : Dev → Prop} {before : Dev} {d : Dev} (k : Keeps [.scr] P) (h : P d) :
    P (Dev.countDropped before d) := by
  unfold Dev.countDropped
  repeat' (first
    | with_reducible assumption
    | with_reducible refine Dev.rfMod_keeps (k.mono rfl) ?_
    | (fail_if_no_progress extract_lets +onlyGivenNames x)
    | split)

theorem Dev.requestCapture_keeps {P : Dev → Prop} {d : Dev} {e : Ev} {w : BitVec 64} {c : BitVec 64} {prov : ℕ} {r : ℕ} {own : Option (List Sys2Proof.Byte)} (k : Keeps [.regs, .freeCtr, .acq, .store] P) (h : P d) :
    P (Dev.requestCapture d e w c prov r own) := by
  unfold Dev.requestCapture
  repeat' (first
    | with_reducible assumption
    | with_reducible refine Dev.count_keeps (k.mono rfl) ?_
    | with_reducible refine Dev.summaryRecord_keeps (k.mono rfl) ?_
    | with_reducible refine Dev.takePool_keeps (k.mono rfl) ?_ (_, _) ‹_›
    | with_reducible refine Dev.beginRecord_keeps (k.mono rfl) ?_
    | with_reducible refine Dev.setRing_keeps (k.mono rfl) ?_
    | with_reducible refine Dev.settleRing_keeps (k.mono rfl) ?_
    | (with_reducible refine of_fst ‹_› ?_)
    | (with_reducible refine of_snd ‹_› ?_)
    | ((fail_if_no_progress extract_lets +onlyGivenNames x); refine cut_keeps (A := P x) ?_ (fun hx => ?_); on_goal 1 => subst x)
    | (fail_if_no_progress extract_lets +onlyGivenNames x)
    | split)

theorem Dev.plainRecord_keeps {P : Dev → Prop} {d : Dev} {e : Ev} {w : BitVec 64} {c : BitVec 64} {prov : ℕ} {own : Option (List Sys2Proof.Byte)} (k : Keeps [.regs, .freeCtr, .store] P) (h : P d) :
    P (Dev.plainRecord d e w c prov own) := by
  unfold Dev.plainRecord
  repeat' (first | with_reducible assumption | with_reducible refine Dev.summaryRecord_keeps (k.mono rfl) ?_)

theorem Dev.stippleEnd_keeps {P : Dev → Prop} {d : Dev} {r : ℕ} (k : Keeps [.regs, .freeCtr, .acq, .store] P) (h : P d) :
    P (Dev.stippleEnd d r) := by
  unfold Dev.stippleEnd
  repeat' (first
    | with_reducible assumption
    | with_reducible refine Dev.setRing_keeps (k.mono rfl) ?_
    | with_reducible refine Dev.settleRing_keeps (k.mono rfl) ?_
    | (fail_if_no_progress extract_lets +onlyGivenNames x)
    | split)

theorem Dev.copyOut_keeps {P : Dev → Prop} {d : Dev} {r : ℕ} {n : ℕ} {corrected : ℕ} {bad : List ℕ} (k : Keeps [.regs, .log, .freeCtr, .acq, .store, .stk, .clk] P) (h : P d) :
    P (Dev.copyOut d r n corrected bad) := by
  unfold Dev.copyOut
  repeat' (first
    | with_reducible assumption
    | with_reducible refine Dev.modRecord_keeps (k.mono rfl) ?_
    | with_reducible refine Dev.setRing_keeps (k.mono rfl) ?_
    | with_reducible refine Dev.countN_keeps (k.mono rfl) ?_
    | with_reducible refine Dev.stackUes_keeps (k.mono rfl) ?_
    | with_reducible refine Dev.settleRing_keeps (k.mono rfl) ?_
    | with_reducible refine Dev.resumeRing_keeps (k.mono rfl) ?_
    | (fail_if_no_progress extract_lets +onlyGivenNames x)
    | split)

theorem Dev.appendBlock_keeps {P : Dev → Prop} {d : Dev} {q : ℕ} {producer : BitVec 16} {data : List Sys2Proof.Byte} {last : Bool} (k : Keeps [.regs, .freeCtr, .store] P) (h : P d) :
    P (Dev.appendBlock d q producer data last) := by
  unfold Dev.appendBlock
  repeat' (first
    | with_reducible assumption
    | with_reducible refine Dev.countIf_keeps (k.mono rfl) ?_
    | with_reducible refine Dev.putAppendix_keeps (k.mono rfl) ?_
    | with_reducible refine Dev.modRecord_keeps (k.mono rfl) ?_
    | with_reducible refine Dev.tryComplete_keeps (k.mono rfl) ?_
    | ((fail_if_no_progress extract_lets +onlyGivenNames x); refine cut_keeps (A := P x) ?_ (fun hx => ?_); on_goal 1 => subst x)
    | (fail_if_no_progress extract_lets +onlyGivenNames x)
    | split)

theorem Dev.freeExpire_keeps {P : Dev → Prop} {d : Dev} {q : ℕ} {tie : Bool} (k : Keeps [.regs, .freeCtr, .store] P) (h : P d) :
    P (Dev.freeExpire d q tie) := by
  unfold Dev.freeExpire
  repeat' (first
    | with_reducible assumption
    | with_reducible refine Dev.modRecord_keeps (k.mono rfl) ?_
    | with_reducible refine Dev.tryComplete_keeps (k.mono rfl) ?_
    | (fail_if_no_progress extract_lets +onlyGivenNames x)
    | split)

end Sys2Proof.Machine
end

