-- ==== Sys2Proof/Laws/KeepMesh.lean ====
section
/-!
SUPPORT. What the operations of Machine/Mesh.lean may change.
-/

namespace Sys2Proof.Machine

open Sys2Proof

theorem Dev.setPort_keeps {P : Dev → Prop} {d : Dev} {p : ℕ} {r : PortRec} (k : Keeps [.msh] P) (h : P d) :
    P (Dev.setPort d p r) := by
  unfold Dev.setPort
  repeat' (first | with_reducible assumption | with_reducible refine upd_msh (k.mono rfl) ?_)

theorem Dev.portSync_keeps {P : Dev → Prop} {d : Dev} {p : ℕ} (k : Keeps [.regs] P) (h : P d) :
    P (Dev.portSync d p) := by
  unfold Dev.portSync
  repeat' (first
    | with_reducible assumption
    | with_reducible refine Dev.setPortState_keeps (k.mono rfl) ?_
    | with_reducible refine Dev.setFld_keeps (k.mono rfl) ?_
    | with_reducible refine Dev.count_keeps (k.mono rfl) ?_
    | ((fail_if_no_progress extract_lets +onlyGivenNames x); refine cut_keeps (A := P x) ?_ (fun hx => ?_); on_goal 1 => subst x)
    | (fail_if_no_progress extract_lets +onlyGivenNames x)
    | split)

theorem Dev.laneSync_keeps {P : Dev → Prop} {d : Dev} {l : Sys2Proof.LaneId} (k : Keeps [.regs] P) (h : P d) :
    P (Dev.laneSync d l) := by
  unfold Dev.laneSync
  repeat' (first
    | with_reducible assumption
    | with_reducible refine Dev.portSync_keeps (k.mono rfl) ?_
    | (fail_if_no_progress extract_lets +onlyGivenNames x)
    | split)

theorem Dev.portsSync_keeps {P : Dev → Prop} {d : Dev} (k : Keeps [.regs] P) (h : P d) :
    P (Dev.portsSync d) := by
  unfold Dev.portsSync
  repeat' (first
    | with_reducible assumption
    | with_reducible refine Dev.portSync_keeps (k.mono rfl) ?_
    | with_reducible refine foldl_keeps (fun e x he => ?_) ?_)

theorem Dev.portEnable_keeps {P : Dev → Prop} {d : Dev} {p : ℕ} (k : Keeps [.regs] P) (h : P d) :
    P (Dev.portEnable d p) := by
  unfold Dev.portEnable
  repeat' (first
    | with_reducible assumption
    | with_reducible refine Dev.setPortState_keeps (k.mono rfl) ?_
    | (fail_if_no_progress extract_lets +onlyGivenNames x)
    | split)

theorem Dev.sendHello_keeps {P : Dev → Prop} {d : Dev} {p : ℕ} (k : Keeps [.outbox, .ing, .msh] P) (h : P d) :
    P (Dev.sendHello d p) := by
  unfold Dev.sendHello
  repeat' (first
    | with_reducible assumption
    | with_reducible refine Dev.setPort_keeps (k.mono rfl) ?_
    | with_reducible refine Dev.sendPort_keeps (k.mono rfl) ?_
    | (fail_if_no_progress extract_lets +onlyGivenNames x)
    | split)

theorem Dev.hello_keeps {P : Dev → Prop} {d : Dev} {p : ℕ} {b : ℕ} {tie : Bool} (k : Keeps [.regs, .log, .msh] P) (h : P d) :
    P (Dev.hello d p b tie) := by
  unfold Dev.hello
  repeat' (first
    | with_reducible assumption
    | with_reducible refine Dev.count_keeps (k.mono rfl) ?_
    | with_reducible refine Dev.setPort_keeps (k.mono rfl) ?_
    | with_reducible refine Dev.setPortState_keeps (k.mono rfl) ?_
    | with_reducible refine Dev.logInternal_keeps (k.mono rfl) ?_
    | ((fail_if_no_progress extract_lets +onlyGivenNames x); refine cut_keeps (A := P x) ?_ (fun hx => ?_); on_goal 1 => subst x)
    | (fail_if_no_progress extract_lets +onlyGivenNames x)
    | split)

theorem Dev.keepaliveExpire_keeps {P : Dev → Prop} {d : Dev} {p : ℕ} {tie : Bool} (k : Keeps [.regs] P) (h : P d) :
    P (Dev.keepaliveExpire d p tie) := by
  unfold Dev.keepaliveExpire
  repeat' (first
    | with_reducible assumption
    | with_reducible refine Dev.setPortState_keeps (k.mono rfl) ?_
    | with_reducible refine Dev.count_keeps (k.mono rfl) ?_
    | (fail_if_no_progress extract_lets +onlyGivenNames x)
    | split)

theorem Dev.sendContribBlock_keeps {P : Dev → Prop} {d : Dev} {p : ℕ} {b : ℕ} (k : Keeps [.outbox, .ing] P) (h : P d) :
    P (Dev.sendContribBlock d p b) := by
  unfold Dev.sendContribBlock
  repeat' (first
    | with_reducible assumption
    | with_reducible refine Dev.sendBlock_keeps (k.mono rfl) ?_
    | (fail_if_no_progress extract_lets +onlyGivenNames x)
    | split)

theorem Dev.detour_keeps {P : Dev → Prop} {d : Dev} {b : ℕ} {dest : ℕ} {hops : ℕ} (k : Keeps [.regs, .outbox, .ing] P) (h : P d) :
    P (Dev.detour d b dest hops) := by
  unfold Dev.detour
  repeat' (first
    | with_reducible assumption
    | with_reducible refine Dev.count_keeps (k.mono rfl) ?_
    | with_reducible refine Dev.sendContribBlock_keeps (k.mono rfl) ?_
    | (fail_if_no_progress extract_lets +onlyGivenNames x)
    | split)

theorem Dev.flood_keeps {P : Dev → Prop} {d : Dev} {src : ℕ} {b : ℕ} (k : Keeps [.regs, .outbox, .ing] P) (h : P d) :
    P (Dev.flood d src b) := by
  unfold Dev.flood
  repeat' (first
    | with_reducible assumption
    | with_reducible refine Dev.sendContribBlock_keeps (k.mono rfl) ?_
    | with_reducible refine Dev.detour_keeps (k.mono rfl) ?_
    | with_reducible refine foldl_keeps (fun e x he => ?_) ?_
    | with_reducible refine foldl_fst_keeps (fun e x he => ?_) ?_
    | with_reducible refine foldl_snd_keeps (fun e x he => ?_) ?_
    | (fail_if_no_progress extract_lets +onlyGivenNames x)
    | split)

theorem Dev.sendContrib_keeps {P : Dev → Prop} {d : Dev} {n : ℕ} {c : Contribution} (k : Keeps [.regs, .outbox, .ing] P) (h : P d) :
    P (Dev.sendContrib d n c) := by
  unfold Dev.sendContrib
  repeat' (first
    | with_reducible assumption
    | with_reducible refine Dev.countN_keeps (k.mono rfl) ?_
    | with_reducible refine Dev.flood_keeps (k.mono rfl) ?_)

theorem Dev.contrib_keeps {P : Dev → Prop} {d : Dev} {p : ℕ} {b : ℕ} (k : Keeps [.regs, .outbox, .ing, .scr] P) (h : P d) :
    P (Dev.contrib d p b) := by
  unfold Dev.contrib
  repeat' (first
    | with_reducible assumption
    | with_reducible refine Dev.count_keeps (k.mono rfl) ?_
    | with_reducible refine Dev.detour_keeps (k.mono rfl) ?_
    | with_reducible refine Dev.putEv_keeps (k.mono rfl) ?_
    | with_reducible refine Dev.flood_keeps (k.mono rfl) ?_
    | (fail_if_no_progress extract_lets +onlyGivenNames x)
    | split)

theorem Dev.setChan_keeps {P : Dev → Prop} {d : Dev} {t : ℕ} {c : HostChan} (k : Keeps [.msh] P) (h : P d) :
    P (Dev.setChan d t c) := by
  unfold Dev.setChan
  repeat' (first | with_reducible assumption | with_reducible refine upd_msh (k.mono rfl) ?_)

theorem Dev.sendMessage_keeps {P : Dev → Prop} {d : Dev} {p : ℕ} {ty : ℕ} {b : ℕ} {data : List (BitVec 128)} (k : Keeps [.outbox, .ing] P) (h : P d) :
    P (Dev.sendMessage d p ty b data) := by
  unfold Dev.sendMessage
  repeat' (first
    | with_reducible assumption
    | with_reducible refine Dev.sendPort_keeps (k.mono rfl) ?_
    | with_reducible refine Dev.sendBlock_keeps (k.mono rfl) ?_
    | with_reducible refine foldl_keeps (fun e x he => ?_) ?_
    | with_reducible refine foldl_fst_keeps (fun e x he => ?_) ?_
    | with_reducible refine foldl_snd_keeps (fun e x he => ?_) ?_
    | ((fail_if_no_progress extract_lets +onlyGivenNames x); refine cut_keeps (A := P x) ?_ (fun hx => ?_); on_goal 1 => subst x)
    | (fail_if_no_progress extract_lets +onlyGivenNames x)
    | split)

theorem Dev.sendRouted_keeps {P : Dev → Prop} {d : Dev} {m : HostMsg} (k : Keeps [.outbox, .ing] P) (h : P d) :
    P (Dev.sendRouted d m) := by
  unfold Dev.sendRouted
  repeat' (first
    | with_reducible assumption
    | with_reducible refine Dev.sendMessage_keeps (k.mono rfl) ?_
    | (fail_if_no_progress extract_lets +onlyGivenNames x)
    | split)

theorem Dev.pumpChan_keeps {P : Dev → Prop} {d : Dev} {t : ℕ} {a : ℕ} (k : Keeps [.outbox, .ing, .msh] P) (h : P d) :
    P (Dev.pumpChan d t a) := by
  induction a generalizing d with
  | zero => exact h
  | succ a ih =>
  rw [Dev.pumpChan]
  repeat' (first
    | with_reducible assumption
    | with_reducible refine Dev.setChan_keeps (k.mono rfl) ?_
    | with_reducible refine Dev.sendRouted_keeps (k.mono rfl) ?_
    | with_reducible refine ih ?_
    | (fail_if_no_progress extract_lets +onlyGivenNames x)
    | split)

theorem Dev.hostSend_keeps {P : Dev → Prop} {d : Dev} {t : ℕ} {ty : ℕ} {body : ℕ} {data : List (BitVec 128)} {delivers : Option ℕ} (k : Keeps [.outbox, .ing, .msh] P) (h : P d) :
    P (Dev.hostSend d t ty body data delivers).1 := by
  unfold Dev.hostSend
  repeat' (first
    | with_reducible assumption
    | with_reducible refine Dev.setChan_keeps (k.mono rfl) ?_
    | with_reducible refine Dev.pumpChan_keeps (k.mono rfl) ?_)

theorem Dev.hostResend_keeps {P : Dev → Prop} {d : Dev} {t : ℕ} (k : Keeps [.regs, .outbox, .ing, .msh] P) (h : P d) :
    P (Dev.hostResend d t) := by
  unfold Dev.hostResend
  repeat' (first
    | with_reducible assumption
    | with_reducible refine Dev.setChan_keeps (k.mono rfl) ?_
    | with_reducible refine Dev.count_keeps (k.mono rfl) ?_
    | with_reducible refine Dev.sendRouted_keeps (k.mono rfl) ?_
    | with_reducible refine foldl_keeps (fun e x he => ?_) ?_
    | with_reducible refine foldl_fst_keeps (fun e x he => ?_) ?_
    | with_reducible refine foldl_snd_keeps (fun e x he => ?_) ?_
    | ((fail_if_no_progress extract_lets +onlyGivenNames x); refine cut_keeps (A := P x) ?_ (fun hx => ?_); on_goal 1 => subst x)
    | (fail_if_no_progress extract_lets +onlyGivenNames x)
    | split)

theorem Dev.sendAck_keeps {P : Dev → Prop} {d : Dev} {t : ℕ} (k : Keeps [.outbox, .ing, .msh] P) (h : P d) :
    P (Dev.sendAck d t) := by
  unfold Dev.sendAck
  repeat' (first
    | with_reducible assumption
    | with_reducible refine Dev.setChan_keeps (k.mono rfl) ?_
    | with_reducible refine Dev.sendMessage_keeps (k.mono rfl) ?_
    | (fail_if_no_progress extract_lets +onlyGivenNames x)
    | split)

theorem Dev.acksDue_keeps {P : Dev → Prop} {d : Dev} (k : Keeps [.outbox, .ing, .msh] P) (h : P d) :
    P (Dev.acksDue d) := by
  unfold Dev.acksDue
  repeat' (first
    | with_reducible assumption
    | with_reducible refine Dev.sendAck_keeps (k.mono rfl) ?_
    | with_reducible refine foldl_keeps (fun e x he => ?_) ?_
    | with_reducible refine foldl_fst_keeps (fun e x he => ?_) ?_
    | with_reducible refine foldl_snd_keeps (fun e x he => ?_) ?_
    | (fail_if_no_progress extract_lets +onlyGivenNames x)
    | split)

theorem Dev.hostReceive_keeps {P : Dev → Prop} {d : Dev} {p : ℕ} {ty : ℕ} {b : ℕ} {data : List (BitVec 128)} (k : Keeps [.regs, .outbox, .ing, .msh] P) (h : P d) :
    P (Dev.hostReceive d p ty b data).1 := by
  unfold Dev.hostReceive
  repeat' (first
    | with_reducible assumption
    | with_reducible refine Dev.sendMessage_keeps (k.mono rfl) ?_
    | with_reducible refine Dev.setChan_keeps (k.mono rfl) ?_
    | with_reducible refine Dev.count_keeps (k.mono rfl) ?_
    | (fail_if_no_progress extract_lets +onlyGivenNames x)
    | split)

end Sys2Proof.Machine
end

