-- ==== Sys2Proof/Laws/KeepHost.lean ====
section
/-!
SUPPORT. What the operations of Machine/Host.lean may change.
-/

namespace Sys2Proof.Machine

open Sys2Proof

theorem Dev.configured_keeps {P : Dev → Prop} {d : Dev} (k : Keeps [.freeCtr, .hst] P) (h : P d) :
    P (Dev.configured d) := by
  unfold Dev.configured
  repeat' (first
    | with_reducible assumption
    | with_reducible refine Dev.open_keeps (k.mono rfl) ?_
    | (with_reducible refine of_fst ‹_› ?_)
    | (with_reducible refine of_snd ‹_› ?_)
    | (fail_if_no_progress extract_lets +onlyGivenNames x)
    | split
    | with_reducible refine upd_hst (k.mono rfl) ?_)

theorem Dev.deliver_keeps {P : Dev → Prop} {d : Dev} {q : ℕ} (k : Keeps [.regs, .store] P) (h : P d) :
    P (Dev.deliver d q) := by
  unfold Dev.deliver
  repeat' (first
    | with_reducible assumption
    | with_reducible refine Dev.dropRecord_keeps (k.mono rfl) ?_
    | with_reducible refine Dev.count_keeps (k.mono rfl) ?_
    | (fail_if_no_progress extract_lets +onlyGivenNames x)
    | split)

theorem Dev.raiseMsix_keeps {P : Dev → Prop} {d : Dev} {v : ℕ} (k : Keeps [.outbox, .hst] P) (h : P d) :
    P (Dev.raiseMsix d v) := by
  unfold Dev.raiseMsix
  repeat' (first
    | with_reducible assumption
    | with_reducible refine Dev.emit_keeps (k.mono rfl) ?_
    | (fail_if_no_progress extract_lets +onlyGivenNames x)
    | split
    | with_reducible refine upd_hst (k.mono rfl) ?_)

theorem Dev.pumpMsix_keeps {P : Dev → Prop} {d : Dev} (k : Keeps [.outbox, .hst] P) (h : P d) :
    P (Dev.pumpMsix d) := by
  unfold Dev.pumpMsix
  repeat' (first
    | with_reducible assumption
    | with_reducible refine Dev.raiseMsix_keeps (k.mono rfl) ?_
    | with_reducible refine foldl_keeps (fun e x he => ?_) ?_
    | with_reducible refine foldl_fst_keeps (fun e x he => ?_) ?_
    | with_reducible refine foldl_snd_keeps (fun e x he => ?_) ?_
    | (fail_if_no_progress extract_lets +onlyGivenNames x)
    | split
    | with_reducible refine upd_hst (k.mono rfl) ?_)

theorem Dev.writeMsix_keeps {P : Dev → Prop} {d : Dev} {i : ℕ} {v : ℕ} (k : Keeps [.outbox, .hst] P) (h : P d) :
    P (Dev.writeMsix d i v) := by
  unfold Dev.writeMsix
  repeat' (first
    | with_reducible assumption
    | with_reducible refine Dev.raiseMsix_keeps (k.mono rfl) ?_
    | ((fail_if_no_progress extract_lets +onlyGivenNames x); refine cut_keeps (A := P x) ?_ (fun hx => ?_); on_goal 1 => subst x)
    | (fail_if_no_progress extract_lets +onlyGivenNames x)
    | split
    | with_reducible refine upd_hst (k.mono rfl) ?_)

theorem Dev.issueJob_keeps {P : Dev → Prop} {d : Dev} {src : ℕ} {j : HostJob} (k : Keeps [.regs, .outbox, .ing, .store, .msh, .hst] P) (h : P d) :
    P (Dev.issueJob d src j) := by
  unfold Dev.issueJob
  repeat' (first
    | with_reducible assumption
    | with_reducible refine Dev.deliver_keeps (k.mono rfl) ?_
    | with_reducible refine Dev.emit_keeps (k.mono rfl) ?_
    | with_reducible refine Dev.hostSend_keeps (k.mono rfl) ?_
    | with_reducible refine Dev.raiseMsix_keeps (k.mono rfl) ?_
    | (with_reducible refine of_fst ‹_› ?_)
    | (with_reducible refine of_snd ‹_› ?_)
    | ((fail_if_no_progress extract_lets +onlyGivenNames x); refine cut_keeps (A := P x) ?_ (fun hx => ?_); on_goal 1 => subst x)
    | (fail_if_no_progress extract_lets +onlyGivenNames x)
    | split)

theorem Dev.queueJob_keeps {P : Dev → Prop} {d : Dev} {src : ℕ} {j : HostJob} (k : Keeps [.hst] P) (h : P d) :
    P (Dev.queueJob d src j) := by
  unfold Dev.queueJob
  repeat' (first
    | with_reducible assumption
    | (fail_if_no_progress extract_lets +onlyGivenNames x)
    | split
    | with_reducible refine upd_hst (k.mono rfl) ?_)

theorem Dev.ownJob_keeps {P : Dev → Prop} {d : Dev} {j : HostJob} (k : Keeps [.regs, .outbox, .ing, .store, .msh, .hst] P) (h : P d) :
    P (Dev.ownJob d j) := by
  unfold Dev.ownJob
  repeat' (first
    | with_reducible assumption
    | with_reducible refine Dev.issueJob_keeps (k.mono rfl) ?_
    | with_reducible refine Dev.queueJob_keeps (k.mono rfl) ?_
    | (fail_if_no_progress extract_lets +onlyGivenNames x)
    | split)

theorem Dev.memberJob_keeps {P : Dev → Prop} {d : Dev} {src : ℕ} {j : HostJob} (k : Keeps [.regs, .outbox, .ing, .store, .msh, .hst] P) (h : P d) :
    P (Dev.memberJob d src j) := by
  unfold Dev.memberJob
  repeat' (first
    | with_reducible assumption
    | with_reducible refine Dev.issueJob_keeps (k.mono rfl) ?_
    | with_reducible refine Dev.queueJob_keeps (k.mono rfl) ?_
    | (fail_if_no_progress extract_lets +onlyGivenNames x)
    | split
    | with_reducible refine upd_hst (k.mono rfl) ?_)

theorem Dev.serveJob_keeps {P : Dev → Prop} {d : Dev} (k : Keeps [.regs, .outbox, .ing, .store, .msh, .hst] P) (h : P d) :
    P (Dev.serveJob d) := by
  unfold Dev.serveJob
  repeat' (first
    | with_reducible assumption
    | with_reducible refine Dev.issueJob_keeps (k.mono rfl) ?_
    | (fail_if_no_progress extract_lets +onlyGivenNames x)
    | split
    | with_reducible refine upd_hst (k.mono rfl) ?_)

theorem Dev.hostWrite_keeps {P : Dev → Prop} {d : Dev} {addr : ℕ} {bs : List Sys2Proof.Byte} {ro : Bool} {delivers : Option ℕ} (k : Keeps [.regs, .outbox, .ing, .store, .msh, .hst] P) (h : P d) :
    P (Dev.hostWrite d addr bs ro delivers) := by
  unfold Dev.hostWrite
  repeat' (first
    | with_reducible assumption
    | with_reducible refine Dev.ownJob_keeps (k.mono rfl) ?_
    | with_reducible refine Dev.hostSend_keeps (k.mono rfl) ?_
    | with_reducible refine foldl_keeps (fun e x he => ?_) ?_
    | with_reducible refine foldl_fst_keeps (fun e x he => ?_) ?_
    | with_reducible refine foldl_snd_keeps (fun e x he => ?_) ?_
    | (with_reducible refine of_fst ‹_› ?_)
    | (with_reducible refine of_snd ‹_› ?_)
    | (fail_if_no_progress extract_lets +onlyGivenNames x)
    | split)

theorem Dev.hostRead_keeps {P : Dev → Prop} {d : Dev} {addr : ℕ} {n : ℕ} (k : Keeps [.regs, .outbox, .ing, .store, .msh, .hst] P) (h : P d) :
    P (Dev.hostRead d addr n).1 := by
  unfold Dev.hostRead
  repeat' (first
    | with_reducible assumption
    | with_reducible refine Dev.ownJob_keeps (k.mono rfl) ?_
    | with_reducible refine Dev.hostSend_keeps (k.mono rfl) ?_
    | (with_reducible refine of_fst ‹_› ?_)
    | (with_reducible refine of_snd ‹_› ?_)
    | (fail_if_no_progress extract_lets +onlyGivenNames x)
    | split)

theorem Dev.raiseVector_keeps {P : Dev → Prop} {d : Dev} {v : ℕ} (k : Keeps [.regs, .outbox, .ing, .store, .msh, .hst] P) (h : P d) :
    P (Dev.raiseVector d v) := by
  unfold Dev.raiseVector
  repeat' (first
    | with_reducible assumption
    | with_reducible refine Dev.count_keeps (k.mono rfl) ?_
    | with_reducible refine Dev.ownJob_keeps (k.mono rfl) ?_
    | with_reducible refine Dev.hostSend_keeps (k.mono rfl) ?_
    | (with_reducible refine of_fst ‹_› ?_)
    | (with_reducible refine of_snd ‹_› ?_)
    | ((fail_if_no_progress extract_lets +onlyGivenNames x); refine cut_keeps (A := P x) ?_ (fun hx => ?_); on_goal 1 => subst x)
    | (fail_if_no_progress extract_lets +onlyGivenNames x)
    | split)

theorem Dev.setHring_keeps {P : Dev → Prop} {d : Dev} {r : ℕ} {x : HostRing} (k : Keeps [.hst] P) (h : P d) :
    P (Dev.setHring d r x) := by
  unfold Dev.setHring
  repeat' (first | with_reducible assumption | with_reducible refine upd_hst (k.mono rfl) ?_)

theorem Dev.ringIrq_keeps {P : Dev → Prop} {d : Dev} {r : ℕ} (k : Keeps [.regs, .outbox, .ing, .store, .msh, .hst] P) (h : P d) :
    P (Dev.ringIrq d r) := by
  unfold Dev.ringIrq
  repeat' (first
    | with_reducible assumption
    | with_reducible refine Dev.setHring_keeps (k.mono rfl) ?_
    | with_reducible refine Dev.raiseVector_keeps (k.mono rfl) ?_
    | (fail_if_no_progress extract_lets +onlyGivenNames x)
    | split)

theorem Dev.irqHoldEnd_keeps {P : Dev → Prop} {d : Dev} {r : ℕ} (k : Keeps [.regs, .outbox, .ing, .store, .msh, .hst] P) (h : P d) :
    P (Dev.irqHoldEnd d r) := by
  unfold Dev.irqHoldEnd
  repeat' (first
    | with_reducible assumption
    | with_reducible refine Dev.setHring_keeps (k.mono rfl) ?_
    | with_reducible refine Dev.raiseVector_keeps (k.mono rfl) ?_
    | (fail_if_no_progress extract_lets +onlyGivenNames x)
    | split)

theorem Dev.writeStatus_keeps {P : Dev → Prop} {d : Dev} {r : ℕ} {delivers : Option ℕ} (k : Keeps [.regs, .outbox, .ing, .store, .msh, .hst] P) (h : P d) :
    P (Dev.writeStatus d r delivers) := by
  unfold Dev.writeStatus
  repeat' (first
    | with_reducible assumption
    | with_reducible refine Dev.hostWrite_keeps (k.mono rfl) ?_
    | with_reducible refine Dev.ringIrq_keeps (k.mono rfl) ?_
    | (fail_if_no_progress extract_lets +onlyGivenNames x)
    | split)

theorem Dev.ringError_keeps {P : Dev → Prop} {d : Dev} {r : ℕ} {cause : ℕ} (k : Keeps [.regs, .log, .hst] P) (h : P d) :
    P (Dev.ringError d r cause) := by
  unfold Dev.ringError
  repeat' (first
    | with_reducible assumption
    | with_reducible refine Dev.setHring_keeps (k.mono rfl) ?_
    | with_reducible refine Dev.setFld_keeps (k.mono rfl) ?_
    | with_reducible refine Dev.wr_keeps (k.mono rfl) ?_
    | with_reducible refine Dev.count_keeps (k.mono rfl) ?_
    | with_reducible refine Dev.logInternal_keeps (k.mono rfl) ?_)

theorem Dev.ringStop_keeps {P : Dev → Prop} {d : Dev} {r : ℕ} (k : Keeps [.regs, .hst] P) (h : P d) :
    P (Dev.ringStop d r) := by
  unfold Dev.ringStop
  repeat' (first
    | with_reducible assumption
    | with_reducible refine Dev.wr_keeps (k.mono rfl) ?_
    | with_reducible refine Dev.setHring_keeps (k.mono rfl) ?_)

theorem Dev.ringStart_keeps {P : Dev → Prop} {d : Dev} {r : ℕ} (k : Keeps [.regs, .outbox, .ing, .store, .msh, .hst] P) (h : P d) :
    P (Dev.ringStart d r) := by
  unfold Dev.ringStart
  repeat' (first
    | with_reducible assumption
    | with_reducible refine Dev.setHring_keeps (k.mono rfl) ?_
    | with_reducible refine Dev.wr_keeps (k.mono rfl) ?_
    | with_reducible refine Dev.writeStatus_keeps (k.mono rfl) ?_)

theorem Dev.closeDescriptor_keeps {P : Dev → Prop} {d : Dev} {r : ℕ} {used : ℕ} {flags : ℕ} {frag : ℕ} {recId : ℕ} {delivers : Option ℕ} (k : Keeps [.regs, .outbox, .ing, .store, .msh, .hst] P) (h : P d) :
    P (Dev.closeDescriptor d r used flags frag recId delivers) := by
  unfold Dev.closeDescriptor
  repeat' (first
    | with_reducible assumption
    | with_reducible refine Dev.hostWrite_keeps (k.mono rfl) ?_
    | with_reducible refine Dev.wr_keeps (k.mono rfl) ?_
    | with_reducible refine Dev.writeStatus_keeps (k.mono rfl) ?_)

theorem Dev.fillRecord_keeps {P : Dev → Prop} {d : Dev} {r : ℕ} {addr : ℕ} {len : ℕ} {x : RecordRec} (k : Keeps [.regs, .outbox, .ing, .store, .msh, .hst] P) (h : P d) :
    P (Dev.fillRecord d r addr len x) := by
  unfold Dev.fillRecord
  repeat' (first
    | with_reducible assumption
    | with_reducible refine Dev.hostWrite_keeps (k.mono rfl) ?_
    | with_reducible refine Dev.setHring_keeps (k.mono rfl) ?_
    | with_reducible refine Dev.setFld_keeps (k.mono rfl) ?_
    | with_reducible refine Dev.count_keeps (k.mono rfl) ?_
    | with_reducible refine Dev.modRecord_keeps (k.mono rfl) ?_
    | with_reducible refine Dev.closeDescriptor_keeps (k.mono rfl) ?_
    | (fail_if_no_progress extract_lets +onlyGivenNames x)
    | split)

theorem Dev.trimSums_keeps {P : Dev → Prop} {d : Dev} (k : Keeps [.hst] P) (h : P d) :
    P (Dev.trimSums d) := by
  unfold Dev.trimSums
  repeat' (first
    | with_reducible assumption
    | with_reducible refine foldl_keeps (fun e x he => ?_) ?_
    | with_reducible refine foldl_fst_keeps (fun e x he => ?_) ?_
    | with_reducible refine foldl_snd_keeps (fun e x he => ?_) ?_
    | (fail_if_no_progress extract_lets +onlyGivenNames x)
    | split
    | with_reducible refine upd_hst (k.mono rfl) ?_)

theorem Dev.logDelivered_keeps {P : Dev → Prop} {d : Dev} {n : Nat} (k : Keeps [.log] P) (h : P d) :
    P (d.logDelivered n) := by
  unfold Dev.logDelivered
  extract_lets first src d1
  have h1 : P d1 := upd_log k id h
  split
  · exact upd_log k (fun hl => ⟨hl.1, hl.2.1, List.length_filter_le _ _⟩) h1
  · exact h1

theorem Dev.popPacked_keeps {P : Dev → Prop} {d : Dev} {r : ℕ} {n : ℕ} (k : Keeps [.regs, .log, .hst] P) (h : P d) :
    P (Dev.popPacked d r n) := by
  unfold Dev.popPacked
  repeat' (first
    | with_reducible assumption
    | with_reducible refine Dev.setHring_keeps (k.mono rfl) ?_
    | with_reducible refine Dev.trimSums_keeps (k.mono rfl) ?_
    | with_reducible refine Dev.logDelivered_keeps (k.mono rfl) ?_
    | with_reducible refine Dev.countN_keeps (k.mono rfl) ?_
    | (fail_if_no_progress extract_lets +onlyGivenNames x)
    | split)

theorem Dev.closePacked_keeps {P : Dev → Prop} {d : Dev} {r : ℕ} (k : Keeps [.regs, .log, .outbox, .ing, .store, .msh, .hst] P) (h : P d) :
    P (Dev.closePacked d r) := by
  unfold Dev.closePacked
  repeat' (first
    | with_reducible assumption
    | with_reducible refine Dev.setHring_keeps (k.mono rfl) ?_
    | with_reducible refine Dev.popPacked_keeps (k.mono rfl) ?_
    | with_reducible refine Dev.closeDescriptor_keeps (k.mono rfl) ?_
    | (fail_if_no_progress extract_lets +onlyGivenNames x)
    | split)

theorem Dev.fillPacked_keeps {P : Dev → Prop} {d : Dev} {r : ℕ} (k : Keeps [.regs, .log, .outbox, .ing, .store, .msh, .hst] P) (h : P d) :
    P (Dev.fillPacked d r) := by
  unfold Dev.fillPacked
  repeat' (first
    | with_reducible assumption
    | with_reducible refine Dev.hostWrite_keeps (k.mono rfl) ?_
    | with_reducible refine Dev.setHring_keeps (k.mono rfl) ?_
    | with_reducible refine Dev.closePacked_keeps (k.mono rfl) ?_
    | with_reducible refine foldl_keeps (fun e x he => ?_) ?_
    | with_reducible refine foldl_fst_keeps (fun e x he => ?_) ?_
    | with_reducible refine foldl_snd_keeps (fun e x he => ?_) ?_
    | ((fail_if_no_progress extract_lets +onlyGivenNames x); refine cut_keeps (A := P x) ?_ (fun hx => ?_); on_goal 1 => subst x)
    | (fail_if_no_progress extract_lets +onlyGivenNames x)
    | split)

theorem Dev.fillAllPacked_keeps {P : Dev → Prop} {d : Dev} (k : Keeps [.regs, .log, .outbox, .ing, .store, .msh, .hst] P) (h : P d) :
    P (Dev.fillAllPacked d) := by
  unfold Dev.fillAllPacked
  repeat' (first
    | with_reducible assumption
    | with_reducible refine Dev.fillPacked_keeps (k.mono rfl) ?_
    | with_reducible refine foldl_keeps (fun e x he => ?_) ?_
    | with_reducible refine foldl_fst_keeps (fun e x he => ?_) ?_
    | with_reducible refine foldl_snd_keeps (fun e x he => ?_) ?_
    | (fail_if_no_progress extract_lets +onlyGivenNames x)
    | split)

theorem Dev.flushExpire_keeps {P : Dev → Prop} {d : Dev} {r : ℕ} (k : Keeps [.regs, .log, .outbox, .ing, .store, .msh, .hst] P) (h : P d) :
    P (Dev.flushExpire d r) := by
  unfold Dev.flushExpire
  repeat' (first
    | with_reducible assumption
    | with_reducible refine Dev.fillPacked_keeps (k.mono rfl) ?_
    | with_reducible refine Dev.closePacked_keeps (k.mono rfl) ?_
    | ((fail_if_no_progress extract_lets +onlyGivenNames x); refine cut_keeps (A := P x) ?_ (fun hx => ?_); on_goal 1 => subst x)
    | (fail_if_no_progress extract_lets +onlyGivenNames x)
    | split)

theorem Dev.addSummary_keeps {P : Dev → Prop} {d : Dev} {e : Ev} {w : BitVec 64} {c : BitVec 64} {records : ℕ} {first : ℕ} (k : Keeps [.regs, .log, .outbox, .ing, .store, .msh, .hst] P) (h : P d) :
    P (Dev.addSummary d e w c records first) := by
  unfold Dev.addSummary
  repeat' (first
    | with_reducible assumption
    | with_reducible refine Dev.fillAllPacked_keeps (k.mono rfl) ?_
    | with_reducible refine Dev.count_keeps (k.mono rfl) ?_
    | (fail_if_no_progress extract_lets +onlyGivenNames x)
    | split
    | with_reducible refine upd_hst (k.mono rfl) ?_)

theorem Dev.fillDescriptor_keeps {P : Dev → Prop} {d : Dev} {r : ℕ} {addr : ℕ} {len : ℕ} {corrected : List (Fin 8)} (k : Keeps [.regs, .log, .outbox, .ing, .store, .msh, .hst] P) (h : P d) :
    P (Dev.fillDescriptor d r addr len corrected) := by
  unfold Dev.fillDescriptor
  repeat' (first
    | with_reducible assumption
    | with_reducible refine Dev.hostRead_keeps (k.mono rfl) ?_
    | with_reducible refine Dev.ringError_keeps (k.mono rfl) ?_
    | with_reducible refine Dev.setHring_keeps (k.mono rfl) ?_
    | with_reducible refine Dev.setFld_keeps (k.mono rfl) ?_
    | with_reducible refine Dev.closeDescriptor_keeps (k.mono rfl) ?_
    | with_reducible refine Dev.count_keeps (k.mono rfl) ?_
    | with_reducible refine Dev.fillRecord_keeps (k.mono rfl) ?_
    | with_reducible refine Dev.fillPacked_keeps (k.mono rfl) ?_
    | with_reducible refine foldl_keeps (fun e x he => ?_) ?_
    | with_reducible refine foldl_fst_keeps (fun e x he => ?_) ?_
    | with_reducible refine foldl_snd_keeps (fun e x he => ?_) ?_
    | (with_reducible refine of_fst ‹_› ?_)
    | (with_reducible refine of_snd ‹_› ?_)
    | ((fail_if_no_progress extract_lets +onlyGivenNames x); refine cut_keeps (A := P x) ?_ (fun hx => ?_); on_goal 1 => subst x)
    | (fail_if_no_progress extract_lets +onlyGivenNames x)
    | split)

theorem Dev.writeZeros_keeps {P : Dev → Prop} {d : Dev} (k : Keeps [.regs, .outbox, .ing, .store, .msh, .hst] P) (h : P d) :
    P (Dev.writeZeros d) := by
  unfold Dev.writeZeros
  repeat' (first
    | with_reducible assumption
    | with_reducible refine Dev.setHring_keeps (k.mono rfl) ?_
    | with_reducible refine Dev.writeStatus_keeps (k.mono rfl) ?_
    | with_reducible refine foldl_keeps (fun e x he => ?_) ?_
    | with_reducible refine foldl_fst_keeps (fun e x he => ?_) ?_
    | with_reducible refine foldl_snd_keeps (fun e x he => ?_) ?_
    | (fail_if_no_progress extract_lets +onlyGivenNames x)
    | split)

theorem Dev.poll_keeps {P : Dev → Prop} {d : Dev} (k : Keeps [.regs, .outbox, .ing, .store, .msh, .hst] P) (h : P d) :
    P (Dev.poll d) := by
  unfold Dev.poll
  repeat' (first
    | with_reducible assumption
    | with_reducible refine Dev.writeZeros_keeps (k.mono rfl) ?_
    | with_reducible refine Dev.hostRead_keeps (k.mono rfl) ?_
    | with_reducible refine Dev.count_keeps (k.mono rfl) ?_
    | (with_reducible refine of_fst ‹_› ?_)
    | (with_reducible refine of_snd ‹_› ?_)
    | ((fail_if_no_progress extract_lets +onlyGivenNames x); refine cut_keeps (A := P x) ?_ (fun hx => ?_); on_goal 1 => subst x)
    | (fail_if_no_progress extract_lets +onlyGivenNames x)
    | split
    | with_reducible refine upd_hst (k.mono rfl) ?_)

theorem Dev.takeCounts_keeps {P : Dev → Prop} {d : Dev} {idx : List Sys2Proof.Word} (k : Keeps [.regs, .log, .hst] P) (h : P d) :
    P (Dev.takeCounts d idx) := by
  unfold Dev.takeCounts
  repeat' (first
    | with_reducible assumption
    | with_reducible refine Dev.wr_keeps (k.mono rfl) ?_
    | with_reducible refine Dev.ringError_keeps (k.mono rfl) ?_
    | with_reducible refine foldl_keeps (fun e x he => ?_) ?_
    | with_reducible refine foldl_fst_keeps (fun e x he => ?_) ?_
    | with_reducible refine foldl_snd_keeps (fun e x he => ?_) ?_
    | ((fail_if_no_progress extract_lets +onlyGivenNames x); refine cut_keeps (A := P x) ?_ (fun hx => ?_); on_goal 1 => subst x)
    | (fail_if_no_progress extract_lets +onlyGivenNames x)
    | split)

theorem Dev.pollArrives_keeps {P : Dev → Prop} {d : Dev} {late : Bool} {idx : List Sys2Proof.Word} (k : Keeps [.regs, .log, .hst] P) (h : P d) :
    P (Dev.pollArrives d late idx) := by
  unfold Dev.pollArrives
  repeat' (first
    | with_reducible assumption
    | with_reducible refine Dev.count_keeps (k.mono rfl) ?_
    | with_reducible refine Dev.takeCounts_keeps (k.mono rfl) ?_
    | (fail_if_no_progress extract_lets +onlyGivenNames x)
    | split
    | with_reducible refine upd_hst (k.mono rfl) ?_)

theorem Dev.pollExpire_keeps {P : Dev → Prop} {d : Dev} {tie : Bool} (k : Keeps [.regs, .hst] P) (h : P d) :
    P (Dev.pollExpire d tie) := by
  unfold Dev.pollExpire
  repeat' (first
    | with_reducible assumption
    | with_reducible refine Dev.count_keeps (k.mono rfl) ?_
    | (fail_if_no_progress extract_lets +onlyGivenNames x)
    | split
    | with_reducible refine upd_hst (k.mono rfl) ?_)

theorem Dev.expireRecord_keeps {P : Dev → Prop} {d : Dev} {q : ℕ} {tie : Bool} (k : Keeps [.regs, .store, .hst] P) (h : P d) :
    P (Dev.expireRecord d q tie) := by
  unfold Dev.expireRecord
  repeat' (first
    | with_reducible assumption
    | with_reducible refine Dev.dropRecord_keeps (k.mono rfl) ?_
    | with_reducible refine Dev.count_keeps (k.mono rfl) ?_
    | with_reducible refine Dev.setHring_keeps (k.mono rfl) ?_
    | with_reducible refine foldl_keeps (fun e x he => ?_) ?_
    | with_reducible refine foldl_fst_keeps (fun e x he => ?_) ?_
    | with_reducible refine foldl_snd_keeps (fun e x he => ?_) ?_
    | ((fail_if_no_progress extract_lets +onlyGivenNames x); refine cut_keeps (A := P x) ?_ (fun hx => ?_); on_goal 1 => subst x)
    | (fail_if_no_progress extract_lets +onlyGivenNames x)
    | split)

theorem Dev.channelFails_keeps {P : Dev → Prop} {d : Dev} {c : ℕ} (k : Keeps [.regs, .log, .clk] P) (h : P d) :
    P (Dev.channelFails d c) := by
  unfold Dev.channelFails
  repeat' (first
    | with_reducible assumption
    | with_reducible refine Dev.setFld_keeps (k.mono rfl) ?_
    | with_reducible refine Dev.showStore_keeps (k.mono rfl) ?_
    | with_reducible refine Dev.hmapChange_keeps (k.mono rfl) ?_
    | with_reducible refine Dev.logInternal_keeps (k.mono rfl) ?_
    | with_reducible refine Dev.hpcGate_keeps (k.mono rfl) ?_
    | ((fail_if_no_progress extract_lets +onlyGivenNames x); refine cut_keeps (A := P x) ?_ (fun hx => ?_); on_goal 1 => subst x)
    | (fail_if_no_progress extract_lets +onlyGivenNames x)
    | split)

theorem Dev.storeUe_keeps {P : Dev → Prop} {d : Dev} {c : ℕ} {q : ℕ} {line : ℕ} (k : Keeps [.regs, .log, .store, .clk] P) (h : P d) :
    P (Dev.storeUe d c q line) := by
  unfold Dev.storeUe
  repeat' (first
    | with_reducible assumption
    | with_reducible refine Dev.count_keeps (k.mono rfl) ?_
    | with_reducible refine Dev.modRecord_keeps (k.mono rfl) ?_
    | with_reducible refine Dev.channelFails_keeps (k.mono rfl) ?_
    | ((fail_if_no_progress extract_lets +onlyGivenNames x); refine cut_keeps (A := P x) ?_ (fun hx => ?_); on_goal 1 => subst x)
    | (fail_if_no_progress extract_lets +onlyGivenNames x)
    | split
    | with_reducible refine upd_store (k.mono rfl) ?_)

theorem Dev.floodHstate_keeps {P : Dev → Prop} {d : Dev} {b : ℕ} (k : Keeps [.outbox, .ing] P) (h : P d) :
    P (Dev.floodHstate d b) := by
  unfold Dev.floodHstate
  repeat' (first
    | with_reducible assumption
    | with_reducible refine Dev.sendPort_keeps (k.mono rfl) ?_
    | with_reducible refine foldl_keeps (fun e x he => ?_) ?_
    | with_reducible refine foldl_fst_keeps (fun e x he => ?_) ?_
    | with_reducible refine foldl_snd_keeps (fun e x he => ?_) ?_
    | (fail_if_no_progress extract_lets +onlyGivenNames x)
    | split)

theorem Dev.sendHstate_keeps {P : Dev → Prop} {d : Dev} (k : Keeps [.outbox, .ing] P) (h : P d) :
    P (Dev.sendHstate d) := by
  unfold Dev.sendHstate
  repeat' (first
    | with_reducible assumption
    | with_reducible refine Dev.floodHstate_keeps (k.mono rfl) ?_
    | (fail_if_no_progress extract_lets +onlyGivenNames x)
    | split)

theorem Dev.dropTraffic_keeps {P : Dev → Prop} {d : Dev} (k : Keeps [.store, .msh, .hst] P) (h : P d) :
    P (Dev.dropTraffic d) := by
  unfold Dev.dropTraffic
  repeat' (first
    | with_reducible assumption
    | ((fail_if_no_progress extract_lets +onlyGivenNames x); refine cut_keeps (A := P x) ?_ (fun hx => ?_); on_goal 1 => subst x)
    | (fail_if_no_progress extract_lets +onlyGivenNames x)
    | split
    | with_reducible refine upd_hst (k.mono rfl) ?_
    | with_reducible refine upd_store (k.mono rfl) ?_
    | with_reducible refine upd_msh (k.mono rfl) ?_)

theorem Dev.clearRings_keeps {P : Dev → Prop} {d : Dev} (k : Keeps [.regs, .log, .store, .msh, .hst] P) (h : P d) :
    P (Dev.clearRings d) := by
  unfold Dev.clearRings
  repeat' (first
    | with_reducible assumption
    | with_reducible refine Dev.setFld_keeps (k.mono rfl) ?_
    | with_reducible refine Dev.ringStop_keeps (k.mono rfl) ?_
    | with_reducible refine Dev.logInternal_keeps (k.mono rfl) ?_
    | with_reducible refine Dev.dropTraffic_keeps (k.mono rfl) ?_
    | with_reducible refine foldl_keeps (fun e x he => ?_) ?_
    | with_reducible refine foldl_fst_keeps (fun e x he => ?_) ?_
    | with_reducible refine foldl_snd_keeps (fun e x he => ?_) ?_
    | ((fail_if_no_progress extract_lets +onlyGivenNames x); refine cut_keeps (A := P x) ?_ (fun hx => ?_); on_goal 1 => subst x)
    | (fail_if_no_progress extract_lets +onlyGivenNames x)
    | split)

theorem Dev.stopRings_keeps {P : Dev → Prop} {d : Dev} (k : Keeps [.regs, .store, .msh, .hst] P) (h : P d) :
    P (Dev.stopRings d) := by
  unfold Dev.stopRings
  repeat' (first
    | with_reducible assumption
    | with_reducible refine Dev.ringStop_keeps (k.mono rfl) ?_
    | with_reducible refine Dev.dropTraffic_keeps (k.mono rfl) ?_
    | with_reducible refine foldl_keeps (fun e x he => ?_) ?_
    | with_reducible refine foldl_fst_keeps (fun e x he => ?_) ?_
    | with_reducible refine foldl_snd_keeps (fun e x he => ?_) ?_
    | (fail_if_no_progress extract_lets +onlyGivenNames x)
    | split)

theorem Dev.linkDown_keeps {P : Dev → Prop} {d : Dev} (k : Keeps [.regs, .log, .outbox, .ing, .store, .msh, .hst] P) (h : P d) :
    P (Dev.linkDown d) := by
  unfold Dev.linkDown
  repeat' (first
    | with_reducible assumption
    | with_reducible refine Dev.setFld_keeps (k.mono rfl) ?_
    | with_reducible refine Dev.clearRings_keeps (k.mono rfl) ?_
    | with_reducible refine Dev.sendHstate_keeps (k.mono rfl) ?_
    | ((fail_if_no_progress extract_lets +onlyGivenNames x); refine cut_keeps (A := P x) ?_ (fun hx => ?_); on_goal 1 => subst x)
    | (fail_if_no_progress extract_lets +onlyGivenNames x)
    | split)

theorem Dev.perstOn_keeps {P : Dev → Prop} {d : Dev} (k : Keeps [.regs, .log, .outbox, .ing, .store, .msh, .hst] P) (h : P d) :
    P (Dev.perstOn d) := by
  unfold Dev.perstOn
  repeat' (first
    | with_reducible assumption
    | with_reducible refine Dev.setFld_keeps (k.mono rfl) ?_
    | with_reducible refine Dev.sendHstate_keeps (k.mono rfl) ?_
    | with_reducible refine Dev.linkDown_keeps (k.mono rfl) ?_
    | ((fail_if_no_progress extract_lets +onlyGivenNames x); refine cut_keeps (A := P x) ?_ (fun hx => ?_); on_goal 1 => subst x)
    | (fail_if_no_progress extract_lets +onlyGivenNames x)
    | split
    | with_reducible refine upd_hst (k.mono rfl) ?_)

theorem Dev.perstOff_keeps {P : Dev → Prop} {d : Dev} {rate : ℕ} {width : ℕ} {flit : Bool} (k : Keeps [.regs, .freeCtr, .outbox, .ing, .hst] P) (h : P d) :
    P (Dev.perstOff d rate width flit) := by
  unfold Dev.perstOff
  repeat' (first
    | with_reducible assumption
    | with_reducible refine Dev.setFld_keeps (k.mono rfl) ?_
    | with_reducible refine Dev.configured_keeps (k.mono rfl) ?_
    | with_reducible refine Dev.sendHstate_keeps (k.mono rfl) ?_
    | ((fail_if_no_progress extract_lets +onlyGivenNames x); refine cut_keeps (A := P x) ?_ (fun hx => ?_); on_goal 1 => subst x)
    | (fail_if_no_progress extract_lets +onlyGivenNames x)
    | split
    | with_reducible refine upd_hst (k.mono rfl) ?_)

theorem Dev.powerState_keeps {P : Dev → Prop} {d : Dev} {d3 : Bool} (k : Keeps [.regs, .outbox, .ing, .store, .msh, .hst] P) (h : P d) :
    P (Dev.powerState d d3) := by
  unfold Dev.powerState
  repeat' (first
    | with_reducible assumption
    | with_reducible refine Dev.setFld_keeps (k.mono rfl) ?_
    | with_reducible refine Dev.stopRings_keeps (k.mono rfl) ?_
    | with_reducible refine Dev.pumpMsix_keeps (k.mono rfl) ?_
    | with_reducible refine Dev.sendHstate_keeps (k.mono rfl) ?_
    | ((fail_if_no_progress extract_lets +onlyGivenNames x); refine cut_keeps (A := P x) ?_ (fun hx => ?_); on_goal 1 => subst x)
    | (fail_if_no_progress extract_lets +onlyGivenNames x)
    | split)

theorem Dev.learnHstate_keeps {P : Dev → Prop} {d : Dev} {b : ℕ} (k : Keeps [.regs, .log, .outbox, .ing, .store, .msh, .hst] P) (h : P d) :
    P (Dev.learnHstate d b) := by
  unfold Dev.learnHstate
  repeat' (first
    | with_reducible assumption
    | with_reducible refine Dev.floodHstate_keeps (k.mono rfl) ?_
    | with_reducible refine Dev.setFld_keeps (k.mono rfl) ?_
    | with_reducible refine Dev.clearRings_keeps (k.mono rfl) ?_
    | with_reducible refine Dev.stopRings_keeps (k.mono rfl) ?_
    | ((fail_if_no_progress extract_lets +onlyGivenNames x); refine cut_keeps (A := P x) ?_ (fun hx => ?_); on_goal 1 => subst x)
    | (fail_if_no_progress extract_lets +onlyGivenNames x)
    | split)

theorem Dev.ackArrives_keeps {P : Dev → Prop} {d : Dev} {src : ℕ} {next : ℕ} (k : Keeps [.regs, .outbox, .ing, .store, .msh] P) (h : P d) :
    P (Dev.ackArrives d src next) := by
  unfold Dev.ackArrives
  repeat' (first
    | with_reducible assumption
    | with_reducible refine Dev.setChan_keeps (k.mono rfl) ?_
    | with_reducible refine Dev.deliver_keeps (k.mono rfl) ?_
    | with_reducible refine Dev.pumpChan_keeps (k.mono rfl) ?_
    | with_reducible refine foldl_keeps (fun e x he => ?_) ?_
    | with_reducible refine foldl_fst_keeps (fun e x he => ?_) ?_
    | with_reducible refine foldl_snd_keeps (fun e x he => ?_) ?_
    | (with_reducible refine of_fst ‹_› ?_)
    | (with_reducible refine of_snd ‹_› ?_)
    | (fail_if_no_progress extract_lets +onlyGivenNames x)
    | split)

end Sys2Proof.Machine
end

