-- ==== Sys2Proof/Laws/KeepFabric.lean ====
section
/-!
SUPPORT. What the operations of Machine/Fabric.lean may change.
-/

namespace Sys2Proof.Machine

open Sys2Proof

theorem Dev.setCore_keeps {P : Dev → Prop} {d : Dev} {c : ℕ} {r : CoreRec} (k : Keeps [.fab] P) (h : P d) :
    P (Dev.setCore d c r) := by
  unfold Dev.setCore
  repeat' (first | with_reducible assumption | with_reducible refine upd_fab (k.mono rfl) ?_)

theorem Dev.setEng_keeps {P : Dev → Prop} {d : Dev} {c : ℕ} {e : ℕ} {r : EngRec} (k : Keeps [.fab] P) (h : P d) :
    P (Dev.setEng d c e r) := by
  unfold Dev.setEng
  repeat' (first | with_reducible assumption | with_reducible refine upd_fab (k.mono rfl) ?_)

theorem Dev.setGrp_keeps {P : Dev → Prop} {d : Dev} {g : ℕ} {r : GroupRec} (k : Keeps [.regs, .fab] P) (h : P d) :
    P (Dev.setGrp d g r) := by
  unfold Dev.setGrp
  repeat' (first
    | with_reducible assumption
    | with_reducible refine Dev.setFld_keeps (k.mono rfl) ?_
    | ((fail_if_no_progress extract_lets +onlyGivenNames x); refine cut_keeps (A := P x) ?_ (fun hx => ?_); on_goal 1 => subst x)
    | (fail_if_no_progress extract_lets +onlyGivenNames x)
    | split
    | with_reducible refine upd_fab (k.mono rfl) ?_)

theorem Dev.setDescRec_keeps {P : Dev → Prop} {d : Dev} {c : ℕ} {e : ℕ} {y3 : ℕ} {r : DescRec} (k : Keeps [.fab] P) (h : P d) :
    P (Dev.setDescRec d c e y3 r) := by
  unfold Dev.setDescRec
  repeat' (first
    | with_reducible assumption
    | with_reducible refine Dev.setEng_keeps (k.mono rfl) ?_)

theorem Dev.setReg_keeps {P : Dev → Prop} {d : Dev} {c : ℕ} {e : ℕ} {r : ℕ} {v : Val} (k : Keeps [.fab] P) (h : P d) :
    P (Dev.setReg d c e r v) := by
  unfold Dev.setReg
  repeat' (first
    | with_reducible assumption
    | with_reducible refine Dev.setEng_keeps (k.mono rfl) ?_)

theorem Dev.setSlotWord_keeps {P : Dev → Prop} {d : Dev} {c : ℕ} {e : ℕ} {s : ℕ} {w : ℕ} {v : Val} (k : Keeps [.fab] P) (h : P d) :
    P (Dev.setSlotWord d c e s w v) := by
  unfold Dev.setSlotWord
  repeat' (first
    | with_reducible assumption
    | with_reducible refine Dev.setEng_keeps (k.mono rfl) ?_)

theorem Dev.setAcc_keeps {P : Dev → Prop} {d : Dev} {c : ℕ} {e : ℕ} {a : ℕ} {v : Val} (k : Keeps [.fab] P) (h : P d) :
    P (Dev.setAcc d c e a v) := by
  unfold Dev.setAcc
  repeat' (first
    | with_reducible assumption
    | with_reducible refine Dev.setEng_keeps (k.mono rfl) ?_)

theorem Dev.setCst_keeps {P : Dev → Prop} {d : Dev} {key : ℕ} {r : CircSt} (k : Keeps [.fab] P) (h : P d) :
    P (Dev.setCst d key r) := by
  unfold Dev.setCst
  repeat' (first | with_reducible assumption | with_reducible refine upd_fab (k.mono rfl) ?_)

theorem Dev.setWaiting_keeps {P : Dev → Prop} {d : Dev} {key : ℕ} {y2 : ℕ} {ts : List Waiting} (k : Keeps [.fab] P) (h : P d) :
    P (Dev.setWaiting d key y2 ts) := by
  unfold Dev.setWaiting
  repeat' (first | with_reducible assumption | with_reducible refine upd_fab (k.mono rfl) ?_)

theorem Dev.placeAt_keeps {P : Dev → Prop} {d : Dev} {key : ℕ} {y2 : ℕ} {t : Sys2Proof.Token} (k : Keeps [.fab] P) (h : P d) :
    P (Dev.placeAt d key y2 t) := by
  unfold Dev.placeAt
  repeat' (first
    | with_reducible assumption
    | with_reducible refine Dev.setWaiting_keeps (k.mono rfl) ?_
    | with_reducible refine upd_fab (k.mono rfl) ?_)

theorem Dev.setFlit_keeps {P : Dev → Prop} {d : Dev} {y1 : ℕ} {ts : List DripTok} (k : Keeps [.fab] P) (h : P d) :
    P (Dev.setFlit d y1 ts) := by
  unfold Dev.setFlit
  repeat' (first | with_reducible assumption | with_reducible refine upd_fab (k.mono rfl) ?_)

theorem Dev.noteSent_keeps {P : Dev → Prop} {d : Dev} {x : Circuit} {t : Sys2Proof.Token} (k : Keeps [.fab] P) (h : P d) :
    P (Dev.noteSent d x t) := by
  unfold Dev.noteSent
  repeat' (first
    | with_reducible assumption
    | with_reducible refine Dev.setCst_keeps (k.mono rfl) ?_
    | (fail_if_no_progress extract_lets +onlyGivenNames x)
    | split)

theorem Dev.postNotice_keeps {P : Dev → Prop} {d : Dev} {skew : Bool} {kind : Sys2Proof.NoticeKind} {slot : ℕ} {core : ℕ} (k : Keeps [.fab] P) (h : P d) :
    P (Dev.postNotice d skew kind slot core) := by
  unfold Dev.postNotice
  repeat' (first | with_reducible assumption | with_reducible refine upd_fab (k.mono rfl) ?_)

theorem Dev.takeNotice_keeps {P : Dev → Prop} {d : Dev} {skew : Bool} {kind : Sys2Proof.NoticeKind} {slot : ℕ} {core : ℕ} (k : Keeps [.fab] P) (h : P d) :
    P (Dev.takeNotice d skew kind slot core) := by
  unfold Dev.takeNotice
  repeat' (first | with_reducible assumption | with_reducible refine upd_fab (k.mono rfl) ?_)

theorem Dev.netInput_keeps {P : Dev → Prop} {d : Dev} {i : ℕ} {slot : ℕ} {v : Sys2Proof.Word} {deg : Bool} (k : Keeps [.regs, .scr, .store, .pwr] P) (h : P d) :
    P (Dev.netInput d i slot v deg) := by
  unfold Dev.netInput
  repeat' (first
    | with_reducible assumption
    | with_reducible refine Dev.countIf_keeps (k.mono rfl) ?_
    | with_reducible refine Dev.measure_keeps (k.mono rfl) ?_
    | with_reducible refine Dev.putEv_keeps (k.mono rfl) ?_
    | (with_reducible refine of_fst ‹_› ?_)
    | (with_reducible refine of_snd ‹_› ?_)
    | ((fail_if_no_progress extract_lets +onlyGivenNames x); refine cut_keeps (A := P x) ?_ (fun hx => ?_); on_goal 1 => subst x)
    | (fail_if_no_progress extract_lets +onlyGivenNames x)
    | split)

theorem Dev.noticeArrives_keeps {P : Dev → Prop} {d : Dev} {slot : ℕ} {core : ℕ} (k : Keeps [.regs, .scr] P) (h : P d) :
    P (Dev.noticeArrives d slot core) := by
  unfold Dev.noticeArrives
  repeat' (first
    | with_reducible assumption
    | with_reducible refine Dev.count_keeps (k.mono rfl) ?_
    | with_reducible refine Dev.putEv_keeps (k.mono rfl) ?_
    | (fail_if_no_progress extract_lets +onlyGivenNames x)
    | split)

theorem Dev.skewRecords_keeps {P : Dev → Prop} {d : Dev} {n : ℕ} (k : Keeps [.store] P) (h : P d) :
    P (Dev.skewRecords d n) := by
  unfold Dev.skewRecords
  repeat' (first
    | with_reducible assumption
    | (fail_if_no_progress extract_lets +onlyGivenNames x)
    | split
    | with_reducible refine upd_store (k.mono rfl) ?_)

theorem Dev.skewArrives_keeps {P : Dev → Prop} {d : Dev} {slot : ℕ} {core : ℕ} (k : Keeps [.regs, .scr, .store] P) (h : P d) :
    P (Dev.skewArrives d slot core) := by
  unfold Dev.skewArrives
  repeat' (first
    | with_reducible assumption
    | with_reducible refine Dev.count_keeps (k.mono rfl) ?_
    | with_reducible refine Dev.rfMod_keeps (k.mono rfl) ?_
    | with_reducible refine Dev.skewRecords_keeps (k.mono rfl) ?_
    | with_reducible refine Dev.putEv_keeps (k.mono rfl) ?_
    | ((fail_if_no_progress extract_lets +onlyGivenNames x); refine cut_keeps (A := P x) ?_ (fun hx => ?_); on_goal 1 => subst x)
    | (fail_if_no_progress extract_lets +onlyGivenNames x)
    | split)

theorem Dev.setSpill_keeps {P : Dev → Prop} {d : Dev} {cl : ℕ} {j : ℕ} {s : Option Spill} (k : Keeps [.regs, .fab] P) (h : P d) :
    P (Dev.setSpill d cl j s) := by
  unfold Dev.setSpill
  repeat' (first
    | with_reducible assumption
    | with_reducible refine Dev.setFld_keeps (k.mono rfl) ?_
    | with_reducible refine Dev.wr_keeps (k.mono rfl) ?_
    | (fail_if_no_progress extract_lets +onlyGivenNames x)
    | split
    | with_reducible refine upd_fab (k.mono rfl) ?_)

theorem Dev.setDrip_keeps {P : Dev → Prop} {d : Dev} {cl : ℕ} {s : ℕ} {r : DripRec} (k : Keeps [.fab] P) (h : P d) :
    P (Dev.setDrip d cl s r) := by
  unfold Dev.setDrip
  repeat' (first | with_reducible assumption | with_reducible refine upd_fab (k.mono rfl) ?_)

theorem Dev.segPush_keeps {P : Dev → Prop} {d : Dev} {cl : ℕ} {j : ℕ} {s : Spill} {t : DripTok} (k : Keeps [.regs, .stk, .fab] P) (h : P d) :
    P (Dev.segPush d cl j s t) := by
  unfold Dev.segPush
  repeat' (first
    | with_reducible assumption
    | with_reducible refine Dev.stackWrite_keeps (k.mono rfl) ?_
    | with_reducible refine Dev.setSpill_keeps (k.mono rfl) ?_
    | with_reducible refine Dev.count_keeps (k.mono rfl) ?_)

theorem Dev.dripTransfer_keeps {P : Dev → Prop} {d : Dev} {q : Endp} (k : Keeps [.regs, .fab] P) (h : P d) :
    P (Dev.dripTransfer d q) := by
  unfold Dev.dripTransfer
  repeat' (first
    | with_reducible assumption
    | with_reducible refine Dev.countIf_keeps (k.mono rfl) ?_
    | with_reducible refine Dev.setDrip_keeps (k.mono rfl) ?_
    | with_reducible refine foldl_keeps (fun e x he => ?_) ?_
    | with_reducible refine foldl_fst_keeps (fun e x he => ?_) ?_
    | with_reducible refine foldl_snd_keeps (fun e x he => ?_) ?_
    | (fail_if_no_progress extract_lets +onlyGivenNames x)
    | split)

theorem Dev.storeTransfer_keeps {P : Dev → Prop} {d : Dev} {x : Circuit} {y2 : ℕ} {into : Bool} (k : Keeps [.regs, .fab] P) (h : P d) :
    P (Dev.storeTransfer d x y2 into) := by
  unfold Dev.storeTransfer
  repeat' (first
    | with_reducible assumption
    | with_reducible refine Dev.dripTransfer_keeps (k.mono rfl) ?_
    | with_reducible refine foldl_keeps (fun e x he => ?_) ?_
    | with_reducible refine foldl_fst_keeps (fun e x he => ?_) ?_
    | with_reducible refine foldl_snd_keeps (fun e x he => ?_) ?_
    | (fail_if_no_progress extract_lets +onlyGivenNames x)
    | split)

theorem Dev.putHop_keeps {P : Dev → Prop} {d : Dev} {x : Circuit} {y2 : ℕ} {t : Sys2Proof.Token} (k : Keeps [.regs, .stk, .fab] P) (h : P d) :
    P (Dev.putHop d x y2 t) := by
  unfold Dev.putHop
  repeat' (first
    | with_reducible assumption
    | with_reducible refine Dev.segPush_keeps (k.mono rfl) ?_
    | with_reducible refine Dev.storeTransfer_keeps (k.mono rfl) ?_
    | with_reducible refine Dev.placeAt_keeps (k.mono rfl) ?_
    | (fail_if_no_progress extract_lets +onlyGivenNames x)
    | split)

theorem Dev.dropHead_keeps {P : Dev → Prop} {d : Dev} {x : Circuit} {y2 : ℕ} (k : Keeps [.regs, .fab] P) (h : P d) :
    P (Dev.dropHead d x y2) := by
  unfold Dev.dropHead
  repeat' (first
    | with_reducible assumption
    | with_reducible refine Dev.storeTransfer_keeps (k.mono rfl) ?_
    | with_reducible refine Dev.setWaiting_keeps (k.mono rfl) ?_)

theorem Dev.send_keeps {P : Dev → Prop} {d : Dev} {x : Circuit} {t : Sys2Proof.Token} (k : Keeps [.regs, .stk, .fab] P) (h : P d) :
    P (Dev.send d x t) := by
  unfold Dev.send
  repeat' (first
    | with_reducible assumption
    | with_reducible refine Dev.noteSent_keeps (k.mono rfl) ?_
    | with_reducible refine Dev.putHop_keeps (k.mono rfl) ?_
    | (fail_if_no_progress extract_lets +onlyGivenNames x)
    | split)

theorem Dev.setIq_keeps {P : Dev → Prop} {d : Dev} {c : ℕ} {e : ℕ} {q : ℕ} {ts : List Sys2Proof.Token} (k : Keeps [.fab] P) (h : P d) :
    P (Dev.setIq d c e q ts) := by
  unfold Dev.setIq
  repeat' (first
    | with_reducible assumption
    | with_reducible refine Dev.setEng_keeps (k.mono rfl) ?_)

theorem Dev.setClosed_keeps {P : Dev → Prop} {d : Dev} {c : ℕ} {e : ℕ} {q : ℕ} {b : Bool} (k : Keeps [.fab] P) (h : P d) :
    P (Dev.setClosed d c e q b) := by
  unfold Dev.setClosed
  repeat' (first
    | with_reducible assumption
    | with_reducible refine Dev.setEng_keeps (k.mono rfl) ?_)

theorem Dev.iqArrive_keeps {P : Dev → Prop} {d : Dev} {c : ℕ} {e : ℕ} {q : ℕ} {t : Sys2Proof.Token} (k : Keeps [.regs, .fab] P) (h : P d) :
    P (Dev.iqArrive d c e q t) := by
  unfold Dev.iqArrive
  repeat' (first
    | with_reducible assumption
    | with_reducible refine Dev.count_keeps (k.mono rfl) ?_
    | with_reducible refine Dev.setIq_keeps (k.mono rfl) ?_
    | with_reducible refine Dev.setClosed_keeps (k.mono rfl) ?_
    | with_reducible refine Dev.dripTransfer_keeps (k.mono rfl) ?_
    | ((fail_if_no_progress extract_lets +onlyGivenNames x); refine cut_keeps (A := P x) ?_ (fun hx => ?_); on_goal 1 => subst x)
    | (fail_if_no_progress extract_lets +onlyGivenNames x)
    | split)

theorem Dev.iqPop_keeps {P : Dev → Prop} {d : Dev} {c : ℕ} {e : ℕ} {q : ℕ} (k : Keeps [.regs, .fab] P) (h : P d) :
    P (Dev.iqPop d c e q) := by
  unfold Dev.iqPop
  repeat' (first
    | with_reducible assumption
    | with_reducible refine Dev.setIq_keeps (k.mono rfl) ?_
    | with_reducible refine Dev.dripTransfer_keeps (k.mono rfl) ?_
    | ((fail_if_no_progress extract_lets +onlyGivenNames x); refine cut_keeps (A := P x) ?_ (fun hx => ?_); on_goal 1 => subst x)
    | (fail_if_no_progress extract_lets +onlyGivenNames x)
    | split)

theorem Dev.iqDeliver_keeps {P : Dev → Prop} {d : Dev} {c : ℕ} {e : ℕ} {q : ℕ} {t : Sys2Proof.Token} (k : Keeps [.regs, .stk, .fab] P) (h : P d) :
    P (Dev.iqDeliver d c e q t) := by
  unfold Dev.iqDeliver
  repeat' (first
    | with_reducible assumption
    | with_reducible refine Dev.segPush_keeps (k.mono rfl) ?_
    | with_reducible refine Dev.iqArrive_keeps (k.mono rfl) ?_
    | (fail_if_no_progress extract_lets +onlyGivenNames x)
    | split)

theorem Dev.switchReq_keeps {P : Dev → Prop} {d : Dev} {g : ℕ} {r : SwitchReq} (k : Keeps [.regs, .log, .fab] P) (h : P d) :
    P (Dev.switchReq d g r) := by
  unfold Dev.switchReq
  repeat' (first
    | with_reducible assumption
    | with_reducible refine Dev.setGrp_keeps (k.mono rfl) ?_
    | with_reducible refine Dev.logInternal_keeps (k.mono rfl) ?_
    | (fail_if_no_progress extract_lets +onlyGivenNames x)
    | split)

theorem Dev.setCounter_keeps {P : Dev → Prop} {d : Dev} {y1 : CtrRef} {r : CounterRec} (k : Keeps [.fab] P) (h : P d) :
    P (Dev.setCounter d y1 r) := by
  unfold Dev.setCounter
  repeat' (first
    | with_reducible assumption
    | with_reducible refine Dev.setCore_keeps (k.mono rfl) ?_)

theorem Dev.sectionEnd_keeps {P : Dev → Prop} {d : Dev} {y1 : CtrRef} (k : Keeps [.regs, .log, .fab] P) (h : P d) :
    P (Dev.sectionEnd d y1) := by
  unfold Dev.sectionEnd
  repeat' (first
    | with_reducible assumption
    | with_reducible refine Dev.switchReq_keeps (k.mono rfl) ?_
    | (fail_if_no_progress extract_lets +onlyGivenNames x)
    | split)

theorem Dev.cuFeed_keeps {P : Dev → Prop} {d : Dev} {c : ℕ} {a : ℕ} (k : Keeps [.regs, .stk, .fab] P) (h : P d) :
    P (Dev.cuFeed d c a) := by
  induction a generalizing d with
  | zero => exact h
  | succ a ih =>
  rw [Dev.cuFeed]
  repeat' (first
    | with_reducible assumption
    | with_reducible refine Dev.setCore_keeps (k.mono rfl) ?_
    | with_reducible refine Dev.segPush_keeps (k.mono rfl) ?_
    | with_reducible refine Dev.dripTransfer_keeps (k.mono rfl) ?_
    | with_reducible refine ih ?_
    | (fail_if_no_progress extract_lets +onlyGivenNames x)
    | split)

theorem Dev.cuPut_keeps {P : Dev → Prop} {d : Dev} {c : ℕ} {t : CuTok} (k : Keeps [.regs, .stk, .fab] P) (h : P d) :
    P (Dev.cuPut d c t) := by
  unfold Dev.cuPut
  repeat' (first
    | with_reducible assumption
    | with_reducible refine Dev.setCore_keeps (k.mono rfl) ?_
    | with_reducible refine Dev.cuFeed_keeps (k.mono rfl) ?_
    | with_reducible refine Dev.count_keeps (k.mono rfl) ?_
    | with_reducible refine Dev.postNotice_keeps (k.mono rfl) ?_
    | ((fail_if_no_progress extract_lets +onlyGivenNames x); refine cut_keeps (A := P x) ?_ (fun hx => ?_); on_goal 1 => subst x)
    | (fail_if_no_progress extract_lets +onlyGivenNames x)
    | split)

theorem Dev.emitCtl_keeps {P : Dev → Prop} {d : Dev} {y1 : CtrRef} {op : ℕ} {v : ℕ} {free : Bool} {ev : ℕ} {deg : Bool} (k : Keeps [.regs, .log, .stk, .fab] P) (h : P d) :
    P (Dev.emitCtl d y1 op v free ev deg) := by
  unfold Dev.emitCtl
  repeat' (first
    | with_reducible assumption
    | with_reducible refine Dev.cuPut_keeps (k.mono rfl) ?_
    | with_reducible refine Dev.sectionEnd_keeps (k.mono rfl) ?_
    | ((fail_if_no_progress extract_lets +onlyGivenNames x); refine cut_keeps (A := P x) ?_ (fun hx => ?_); on_goal 1 => subst x)
    | (fail_if_no_progress extract_lets +onlyGivenNames x)
    | split)

theorem Dev.trigger_keeps {P : Dev → Prop} {d : Dev} {y1 : CtrRef} {v : ℕ} {tag : ℕ} {free : Bool} {ev : ℕ} {deg : Bool} (k : Keeps [.regs, .log, .stk, .fab] P) (h : P d) :
    P (Dev.trigger d y1 v tag free ev deg) := by
  unfold Dev.trigger
  repeat' (first
    | with_reducible assumption
    | with_reducible refine Dev.setCounter_keeps (k.mono rfl) ?_
    | with_reducible refine Dev.emitCtl_keeps (k.mono rfl) ?_
    | (fail_if_no_progress extract_lets +onlyGivenNames x)
    | split)

theorem Dev.applyHeld_keeps {P : Dev → Prop} {d : Dev} {y1 : CtrRef} {a : ℕ} (k : Keeps [.regs, .log, .stk, .fab] P) (h : P d) :
    P (Dev.applyHeld d y1 a) := by
  induction a generalizing d with
  | zero => exact h
  | succ a ih =>
  rw [Dev.applyHeld]
  repeat' (first
    | with_reducible assumption
    | with_reducible refine Dev.setCounter_keeps (k.mono rfl) ?_
    | with_reducible refine Dev.trigger_keeps (k.mono rfl) ?_
    | with_reducible refine ih ?_
    | (fail_if_no_progress extract_lets +onlyGivenNames x)
    | split)

theorem Dev.countTok_keeps {P : Dev → Prop} {d : Dev} {y1 : CtrRef} {v : ℕ} {deg : Bool} (k : Keeps [.regs, .log, .stk, .fab] P) (h : P d) :
    P (Dev.countTok d y1 v deg) := by
  unfold Dev.countTok
  repeat' (first
    | with_reducible assumption
    | with_reducible refine Dev.emitCtl_keeps (k.mono rfl) ?_
    | with_reducible refine Dev.setCounter_keeps (k.mono rfl) ?_
    | with_reducible refine Dev.applyHeld_keeps (k.mono rfl) ?_
    | (fail_if_no_progress extract_lets +onlyGivenNames x)
    | split)

theorem Dev.addCredits_keeps {P : Dev → Prop} {d : Dev} {cl : ℕ} {y2 : ℕ} {n : ℕ} (k : Keeps [.regs] P) (h : P d) :
    P (Dev.addCredits d cl y2 n) := by
  unfold Dev.addCredits
  repeat' (first
    | with_reducible assumption
    | with_reducible refine Dev.setFld_keeps (k.mono rfl) ?_
    | with_reducible refine Dev.count_keeps (k.mono rfl) ?_
    | ((fail_if_no_progress extract_lets +onlyGivenNames x); refine cut_keeps (A := P x) ?_ (fun hx => ?_); on_goal 1 => subst x)
    | (fail_if_no_progress extract_lets +onlyGivenNames x)
    | split)

theorem Dev.takeCredit_keeps {P : Dev → Prop} {d : Dev} {y1 : CtrRef} (k : Keeps [.regs] P) (h : P d) :
    P (Dev.takeCredit d y1) := by
  unfold Dev.takeCredit
  repeat' (first
    | with_reducible assumption
    | with_reducible refine Dev.setFld_keeps (k.mono rfl) ?_
    | (fail_if_no_progress extract_lets +onlyGivenNames x)
    | split)

theorem Dev.loadCredits_keeps {P : Dev → Prop} {d : Dev} {c : ℕ} {ctx : ℕ} (k : Keeps [.regs] P) (h : P d) :
    P (Dev.loadCredits d c ctx) := by
  unfold Dev.loadCredits
  repeat' (first
    | with_reducible assumption
    | with_reducible refine Dev.setFld_keeps (k.mono rfl) ?_
    | with_reducible refine foldl_keeps (fun e x he => ?_) ?_
    | with_reducible refine foldl_fst_keeps (fun e x he => ?_) ?_
    | with_reducible refine foldl_snd_keeps (fun e x he => ?_) ?_
    | (fail_if_no_progress extract_lets +onlyGivenNames x)
    | split)

theorem Dev.putMarker_keeps {P : Dev → Prop} {d : Dev} {x : Circuit} {w : Wave} (k : Keeps [.regs, .stk, .fab] P) (h : P d) :
    P (Dev.putMarker d x w) := by
  unfold Dev.putMarker
  repeat' (first
    | with_reducible assumption
    | with_reducible refine Dev.send_keeps (k.mono rfl) ?_
    | with_reducible refine Dev.setCst_keeps (k.mono rfl) ?_)

theorem Dev.entrySend_keeps {P : Dev → Prop} {d : Dev} {x : Circuit} {t : Sys2Proof.Token} (k : Keeps [.regs, .stk, .fab] P) (h : P d) :
    P (Dev.entrySend d x t) := by
  unfold Dev.entrySend
  repeat' (first
    | with_reducible assumption
    | with_reducible refine Dev.putMarker_keeps (k.mono rfl) ?_
    | with_reducible refine Dev.send_keeps (k.mono rfl) ?_
    | (fail_if_no_progress extract_lets +onlyGivenNames x)
    | split)

theorem Dev.xdieSend_keeps {P : Dev → Prop} {d : Dev} {x : Circuit} {t : Sys2Proof.Token} (k : Keeps [.regs, .stk, .fab] P) (h : P d) :
    P (Dev.xdieSend d x t) := by
  unfold Dev.xdieSend
  repeat' (first
    | with_reducible assumption
    | with_reducible refine Dev.entrySend_keeps (k.mono rfl) ?_
    | with_reducible refine Dev.count_keeps (k.mono rfl) ?_
    | with_reducible refine Dev.postNotice_keeps (k.mono rfl) ?_
    | with_reducible refine Dev.setFlit_keeps (k.mono rfl) ?_
    | ((fail_if_no_progress extract_lets +onlyGivenNames x); refine cut_keeps (A := P x) ?_ (fun hx => ?_); on_goal 1 => subst x)
    | (fail_if_no_progress extract_lets +onlyGivenNames x)
    | split)

end Sys2Proof.Machine
end

