-- ==== Sys2Proof/Laws/KeepStats.lean ====
section
/-!
SUPPORT. What the operations of Machine/Stats.lean may change.
-/

namespace Sys2Proof.Machine

open Sys2Proof

theorem Dev.setRow_keeps {P : Dev → Prop} {d : Dev} {cl : ℕ} {r : ℕ} {x : RowRec} (k : Keeps [.num] P) (h : P d) :
    P (Dev.setRow d cl r x) := by
  unfold Dev.setRow
  repeat' (first | with_reducible assumption | with_reducible refine upd_num (k.mono rfl) ?_)

theorem Dev.observe_keeps {P : Dev → Prop} {d : Dev} {x : Circuit} {t : Sys2Proof.Token} (k : Keeps [.num] P) (h : P d) :
    P (Dev.observe d x t) := by
  unfold Dev.observe
  repeat' (first
    | with_reducible assumption
    | with_reducible refine Dev.setRow_keeps (k.mono rfl) ?_
    | with_reducible refine foldl_keeps (fun e x he => ?_) ?_
    | with_reducible refine foldl_fst_keeps (fun e x he => ?_) ?_
    | with_reducible refine foldl_snd_keeps (fun e x he => ?_) ?_
    | (fail_if_no_progress extract_lets +onlyGivenNames x)
    | split)

theorem Dev.batchEnd_keeps {P : Dev → Prop} {d : Dev} {x : Circuit} {t : Sys2Proof.Token} (k : Keeps [.num] P) (h : P d) :
    P (Dev.batchEnd d x t) := by
  unfold Dev.batchEnd
  repeat' (first
    | with_reducible assumption
    | with_reducible refine Dev.setRow_keeps (k.mono rfl) ?_
    | with_reducible refine foldl_keeps (fun e x he => ?_) ?_
    | with_reducible refine foldl_fst_keeps (fun e x he => ?_) ?_
    | with_reducible refine foldl_snd_keeps (fun e x he => ?_) ?_
    | (fail_if_no_progress extract_lets +onlyGivenNames x)
    | split)

theorem Dev.scaleEpoch_keeps {P : Dev → Prop} {d : Dev} (k : Keeps [.regs] P) (h : P d) :
    P (Dev.scaleEpoch d) := by
  unfold Dev.scaleEpoch
  repeat' (first | with_reducible assumption | with_reducible refine Dev.count_keeps (k.mono rfl) ?_)

theorem Dev.noteReplaced_keeps {P : Dev → Prop} {d : Dev} {a : ℕ} (k : Keeps [.num] P) (h : P d) :
    P (Dev.noteReplaced d a) := by
  unfold Dev.noteReplaced
  repeat' (first | with_reducible assumption | with_reducible refine upd_num (k.mono rfl) ?_)

theorem Dev.adaptRow_keeps {P : Dev → Prop} {d : Dev} {cl : ℕ} {r : ℕ} {w : StepStat} {tie : Bool} (k : Keeps [.regs] P) (h : P d) :
    P (Dev.adaptRow d cl r w tie) := by
  unfold Dev.adaptRow
  repeat' (first
    | with_reducible assumption
    | with_reducible refine Dev.setFld_keeps (k.mono rfl) ?_
    | with_reducible refine Dev.count_keeps (k.mono rfl) ?_
    | with_reducible refine Dev.scaleEpoch_keeps (k.mono rfl) ?_
    | (with_reducible refine of_fst ‹_› ?_)
    | (with_reducible refine of_snd ‹_› ?_)
    | ((fail_if_no_progress extract_lets +onlyGivenNames x); refine cut_keeps (A := P x) ?_ (fun hx => ?_); on_goal 1 => subst x)
    | (fail_if_no_progress extract_lets +onlyGivenNames x)
    | split)

theorem Dev.setDchan_keeps {P : Dev → Prop} {d : Dev} {cl : ℕ} {j : ℕ} {x : ChanRec} (k : Keeps [.num] P) (h : P d) :
    P (Dev.setDchan d cl j x) := by
  unfold Dev.setDchan
  repeat' (first | with_reducible assumption | with_reducible refine upd_num (k.mono rfl) ?_)

theorem Dev.closeChan_keeps {P : Dev → Prop} {d : Dev} {cl : ℕ} {w : StepStat} {j : ℕ} {pos : ℕ} (k : Keeps [.regs, .num] P) (h : P d) :
    P (Dev.closeChan d cl w j pos) := by
  unfold Dev.closeChan
  repeat' (first
    | with_reducible assumption
    | with_reducible refine Dev.setFld_keeps (k.mono rfl) ?_
    | with_reducible refine Dev.setDchan_keeps (k.mono rfl) ?_
    | ((fail_if_no_progress extract_lets +onlyGivenNames x); refine cut_keeps (A := P x) ?_ (fun hx => ?_); on_goal 1 => subst x)
    | (fail_if_no_progress extract_lets +onlyGivenNames x)
    | split)

theorem Dev.promote_keeps {P : Dev → Prop} {d : Dev} {cl : ℕ} {r : ℕ} {j : ℕ} {pos : ℕ} (k : Keeps [.regs, .log, .num] P) (h : P d) :
    P (Dev.promote d cl r j pos) := by
  unfold Dev.promote
  repeat' (first
    | with_reducible assumption
    | with_reducible refine Dev.setRow_keeps (k.mono rfl) ?_
    | with_reducible refine Dev.setFld_keeps (k.mono rfl) ?_
    | with_reducible refine Dev.count_keeps (k.mono rfl) ?_
    | with_reducible refine Dev.scaleEpoch_keeps (k.mono rfl) ?_
    | with_reducible refine Dev.logInternal_keeps (k.mono rfl) ?_
    | ((fail_if_no_progress extract_lets +onlyGivenNames x); refine cut_keeps (A := P x) ?_ (fun hx => ?_); on_goal 1 => subst x)
    | (fail_if_no_progress extract_lets +onlyGivenNames x)
    | split)

theorem Dev.stepClose_keeps {P : Dev → Prop} {d : Dev} {cl : ℕ} {r : ℕ} {tie : Bool} (k : Keeps [.regs, .log, .num] P) (h : P d) :
    P (Dev.stepClose d cl r tie) := by
  unfold Dev.stepClose
  repeat' (first
    | with_reducible assumption
    | with_reducible refine Dev.setFld_keeps (k.mono rfl) ?_
    | with_reducible refine Dev.adaptRow_keeps (k.mono rfl) ?_
    | with_reducible refine Dev.closeChan_keeps (k.mono rfl) ?_
    | with_reducible refine Dev.promote_keeps (k.mono rfl) ?_
    | with_reducible refine Dev.setRow_keeps (k.mono rfl) ?_
    | with_reducible refine foldl_keeps (fun e x he => ?_) ?_
    | with_reducible refine foldl_fst_keeps (fun e x he => ?_) ?_
    | with_reducible refine foldl_snd_keeps (fun e x he => ?_) ?_
    | (fail_if_no_progress extract_lets +onlyGivenNames x)
    | split)

theorem Dev.sendScale_keeps {P : Dev → Prop} {d : Dev} {cl : ℕ} {r : ℕ} (k : Keeps [.regs, .stk, .fab, .num] P) (h : P d) :
    P (Dev.sendScale d cl r) := by
  unfold Dev.sendScale
  repeat' (first
    | with_reducible assumption
    | with_reducible refine Dev.countIf_keeps (k.mono rfl) ?_
    | with_reducible refine Dev.setRow_keeps (k.mono rfl) ?_
    | with_reducible refine Dev.entrySend_keeps (k.mono rfl) ?_
    | (with_reducible refine of_fst ‹_› ?_)
    | (with_reducible refine of_snd ‹_› ?_)
    | ((fail_if_no_progress extract_lets +onlyGivenNames x); refine cut_keeps (A := P x) ?_ (fun hx => ?_); on_goal 1 => subst x)
    | (fail_if_no_progress extract_lets +onlyGivenNames x)
    | split)

theorem Dev.scrimArrive_keeps {P : Dev → Prop} {d : Dev} {x : Circuit} {t : Sys2Proof.Token} (k : Keeps [.num] P) (h : P d) :
    P (Dev.scrimArrive d x t) := by
  unfold Dev.scrimArrive
  repeat' (first
    | with_reducible assumption
    | (fail_if_no_progress extract_lets +onlyGivenNames x)
    | split
    | with_reducible refine upd_num (k.mono rfl) ?_)

theorem Dev.scrimUes_keeps {P : Dev → Prop} {d : Dev} {cl : ℕ} {a : ℕ} (k : Keeps [.regs, .log] P) (h : P d) :
    P (Dev.scrimUes d cl a) := by
  induction a generalizing d with
  | zero => exact h
  | succ a ih =>
  rw [Dev.scrimUes]
  repeat' (first
    | with_reducible assumption
    | with_reducible refine Dev.count_keeps (k.mono rfl) ?_
    | with_reducible refine Dev.logInternal_keeps (k.mono rfl) ?_
    | with_reducible refine ih ?_)

theorem Dev.scrimDone_keeps {P : Dev → Prop} {d : Dev} {cl : ℕ} {r : ℕ} {outs : ℕ} {corrected : ℕ} {bad : List ℕ} (k : Keeps [.regs, .log, .stk, .fab, .num] P) (h : P d) :
    P (Dev.scrimDone d cl r outs corrected bad) := by
  unfold Dev.scrimDone
  repeat' (first
    | with_reducible assumption
    | with_reducible refine Dev.countN_keeps (k.mono rfl) ?_
    | with_reducible refine Dev.scrimUes_keeps (k.mono rfl) ?_
    | with_reducible refine Dev.entrySend_keeps (k.mono rfl) ?_
    | with_reducible refine foldl_keeps (fun e x he => ?_) ?_
    | with_reducible refine foldl_fst_keeps (fun e x he => ?_) ?_
    | with_reducible refine foldl_snd_keeps (fun e x he => ?_) ?_
    | ((fail_if_no_progress extract_lets +onlyGivenNames x); refine cut_keeps (A := P x) ?_ (fun hx => ?_); on_goal 1 => subst x)
    | (fail_if_no_progress extract_lets +onlyGivenNames x)
    | split
    | (clear_value *; split)
    | with_reducible refine upd_num (k.mono rfl) ?_)

theorem Dev.setAdapt_keeps {P : Dev → Prop} {d : Dev} {g : ℕ} {x : AdaptRec} (k : Keeps [.num] P) (h : P d) :
    P (Dev.setAdapt d g x) := by
  unfold Dev.setAdapt
  repeat' (first | with_reducible assumption | with_reducible refine upd_num (k.mono rfl) ?_)

theorem Dev.wsWrite_keeps {P : Dev → Prop} {d : Dev} {c : ℕ} {a : ℕ} {bs : List Sys2Proof.Byte} (k : Keeps [.fab] P) (h : P d) :
    P (Dev.wsWrite d c a bs) := by
  unfold Dev.wsWrite
  repeat' (first | with_reducible assumption | with_reducible refine upd_fab (k.mono rfl) ?_)

theorem Dev.shadowWrite_keeps {P : Dev → Prop} {d : Dev} {c : ℕ} {a : ℕ} {w : ℕ} (k : Keeps [.fab, .num] P) (h : P d) :
    P (Dev.shadowWrite d c a w) := by
  unfold Dev.shadowWrite
  repeat' (first
    | with_reducible assumption
    | with_reducible refine Dev.setAdapt_keeps (k.mono rfl) ?_
    | with_reducible refine Dev.wsWrite_keeps (k.mono rfl) ?_)

theorem Dev.segFault_keeps {P : Dev → Prop} {d : Dev} {c : ℕ} (k : Keeps [.regs, .log] P) (h : P d) :
    P (Dev.segFault d c) := by
  unfold Dev.segFault
  repeat' (first
    | with_reducible assumption
    | with_reducible refine Dev.count_keeps (k.mono rfl) ?_
    | with_reducible refine Dev.logInternal_keeps (k.mono rfl) ?_)

theorem Dev.adaptPlace_keeps {P : Dev → Prop} {d : Dev} {c : ℕ} {a : ℕ} {v : Val} (k : Keeps [.fab, .num] P) (h : P d) :
    P (Dev.adaptPlace d c a v) := by
  unfold Dev.adaptPlace
  repeat' (first
    | with_reducible assumption
    | with_reducible refine Dev.shadowWrite_keeps (k.mono rfl) ?_
    | with_reducible refine Dev.setReg_keeps (k.mono rfl) ?_
    | (fail_if_no_progress extract_lets +onlyGivenNames x)
    | split)

theorem Dev.adaptPut_keeps {P : Dev → Prop} {d : Dev} {c : ℕ} {a : ℕ} {v : Val} (k : Keeps [.fab, .num] P) (h : P d) :
    P (Dev.adaptPut d c a v) := by
  unfold Dev.adaptPut
  repeat' (first
    | with_reducible assumption
    | with_reducible refine Dev.setAdapt_keeps (k.mono rfl) ?_
    | with_reducible refine Dev.adaptPlace_keeps (k.mono rfl) ?_
    | (fail_if_no_progress extract_lets +onlyGivenNames x)
    | split)

theorem Dev.adaptWrite_keeps {P : Dev → Prop} {d : Dev} {c : ℕ} {a : ℕ} {w : ℕ} (k : Keeps [.regs, .log, .fab, .num] P) (h : P d) :
    P (Dev.adaptWrite d c a w) := by
  unfold Dev.adaptWrite
  repeat' (first
    | with_reducible assumption
    | with_reducible refine Dev.adaptPut_keeps (k.mono rfl) ?_
    | with_reducible refine Dev.segFault_keeps (k.mono rfl) ?_
    | (fail_if_no_progress extract_lets +onlyGivenNames x)
    | split)

theorem Dev.writeReg_keeps {P : Dev → Prop} {d : Dev} {c : ℕ} {e : ℕ} {y : Desc} {v : Val} (k : Keeps [.regs, .log, .fab, .num] P) (h : P d) :
    P (Dev.writeReg d c e y v) := by
  unfold Dev.writeReg
  repeat' (first
    | with_reducible assumption
    | with_reducible refine Dev.setReg_keeps (k.mono rfl) ?_
    | with_reducible refine Dev.segFault_keeps (k.mono rfl) ?_
    | with_reducible refine Dev.adaptPut_keeps (k.mono rfl) ?_
    | (fail_if_no_progress extract_lets +onlyGivenNames x)
    | split)

theorem Dev.commit_keeps {P : Dev → Prop} {d : Dev} {c : ℕ} (k : Keeps [.regs, .num] P) (h : P d) :
    P (Dev.commit d c) := by
  unfold Dev.commit
  repeat' (first
    | with_reducible assumption
    | with_reducible refine Dev.setAdapt_keeps (k.mono rfl) ?_
    | with_reducible refine Dev.count_keeps (k.mono rfl) ?_
    | (fail_if_no_progress extract_lets +onlyGivenNames x)
    | split)

theorem Dev.digestDone_keeps {P : Dev → Prop} {d : Dev} {g : ℕ} (k : Keeps [.regs, .log, .fab, .num] P) (h : P d) :
    P (Dev.digestDone d g) := by
  unfold Dev.digestDone
  repeat' (first
    | with_reducible assumption
    | with_reducible refine Dev.setAdapt_keeps (k.mono rfl) ?_
    | with_reducible refine Dev.switchReq_keeps (k.mono rfl) ?_
    | ((fail_if_no_progress extract_lets +onlyGivenNames x); refine cut_keeps (A := P x) ?_ (fun hx => ?_); on_goal 1 => subst x)
    | (fail_if_no_progress extract_lets +onlyGivenNames x)
    | split)

theorem Dev.epochDone_keeps {P : Dev → Prop} {d : Dev} {g : ℕ} (k : Keeps [.regs, .log, .fab, .num] P) (h : P d) :
    P (Dev.epochDone d g) := by
  unfold Dev.epochDone
  repeat' (first
    | with_reducible assumption
    | with_reducible refine Dev.wr_keeps (k.mono rfl) ?_
    | with_reducible refine Dev.logInternal_keeps (k.mono rfl) ?_
    | with_reducible refine Dev.setAdapt_keeps (k.mono rfl) ?_
    | with_reducible refine foldl_keeps (fun e x he => ?_) ?_
    | with_reducible refine foldl_fst_keeps (fun e x he => ?_) ?_
    | with_reducible refine foldl_snd_keeps (fun e x he => ?_) ?_
    | ((fail_if_no_progress extract_lets +onlyGivenNames x); refine cut_keeps (A := P x) ?_ (fun hx => ?_); on_goal 1 => subst x)
    | (fail_if_no_progress extract_lets +onlyGivenNames x)
    | split
    | with_reducible refine upd_fab (k.mono rfl) ?_)

theorem Dev.copyBlock_keeps {P : Dev → Prop} {d : Dev} {b : ℕ} (k : Keeps [.fab] P) (h : P d) :
    P (Dev.copyBlock d b) := by
  unfold Dev.copyBlock
  repeat' (first
    | with_reducible assumption
    | with_reducible refine Dev.wsWrite_keeps (k.mono rfl) ?_
    | with_reducible refine foldl_keeps (fun e x he => ?_) ?_
    | with_reducible refine foldl_fst_keeps (fun e x he => ?_) ?_
    | with_reducible refine foldl_snd_keeps (fun e x he => ?_) ?_
    | (fail_if_no_progress extract_lets +onlyGivenNames x)
    | split)

theorem Dev.copyExps_keeps {P : Dev → Prop} {d : Dev} {c : ℕ} (k : Keeps [.fab] P) (h : P d) :
    P (Dev.copyExps d c) := by
  unfold Dev.copyExps
  repeat' (first
    | with_reducible assumption
    | with_reducible refine Dev.setReg_keeps (k.mono rfl) ?_
    | with_reducible refine foldl_keeps (fun e x he => ?_) ?_
    | with_reducible refine foldl_fst_keeps (fun e x he => ?_) ?_
    | with_reducible refine foldl_snd_keeps (fun e x he => ?_) ?_
    | (fail_if_no_progress extract_lets +onlyGivenNames x)
    | split)

theorem Dev.shadowCopy_keeps {P : Dev → Prop} {d : Dev} {g : ℕ} (k : Keeps [.regs, .log, .fab, .num] P) (h : P d) :
    P (Dev.shadowCopy d g) := by
  unfold Dev.shadowCopy
  repeat' (first
    | with_reducible assumption
    | with_reducible refine Dev.copyBlock_keeps (k.mono rfl) ?_
    | with_reducible refine Dev.copyExps_keeps (k.mono rfl) ?_
    | with_reducible refine Dev.setAdapt_keeps (k.mono rfl) ?_
    | with_reducible refine Dev.segFault_keeps (k.mono rfl) ?_
    | with_reducible refine Dev.adaptPlace_keeps (k.mono rfl) ?_
    | with_reducible refine foldl_keeps (fun e x he => ?_) ?_
    | with_reducible refine foldl_fst_keeps (fun e x he => ?_) ?_
    | with_reducible refine foldl_snd_keeps (fun e x he => ?_) ?_
    | ((fail_if_no_progress extract_lets +onlyGivenNames x); refine cut_keeps (A := P x) ?_ (fun hx => ?_); on_goal 1 => subst x)
    | (fail_if_no_progress extract_lets +onlyGivenNames x)
    | split)

theorem Dev.rngState_keeps {P : Dev → Prop} {d : Dev} {c : ℕ} (k : Keeps [.freeCtr] P) (h : P d) :
    P (Dev.rngState d c).2 := by
  unfold Dev.rngState
  repeat' (first
    | with_reducible assumption
    | with_reducible refine Dev.open_keeps (k.mono rfl) ?_
    | (with_reducible refine of_fst ‹_› ?_)
    | (with_reducible refine of_snd ‹_› ?_)
    | (fail_if_no_progress extract_lets +onlyGivenNames x)
    | split)

theorem Dev.drawK_keeps {P : Dev → Prop} {d : Dev} {c : ℕ} (k : Keeps [.freeCtr, .fab] P) (h : P d) :
    P (Dev.drawK d c).2 := by
  unfold Dev.drawK
  repeat' (first
    | with_reducible assumption
    | with_reducible refine Dev.rngState_keeps (k.mono rfl) ?_
    | with_reducible refine Dev.setCore_keeps (k.mono rfl) ?_)

end Sys2Proof.Machine
end

