-- ==== Sys2Proof/Laws/KeepEngine.lean ====
section
/-!
SUPPORT. What the operations of Machine/Engine.lean may change.
-/

namespace Sys2Proof.Machine

open Sys2Proof

theorem Dev.portLost_keeps {P : Dev → Prop} {d : Dev} {c : ℕ} {e : ℕ} (k : Keeps [.fab] P) (h : P d) :
    P (Dev.portLost d c e) := by
  unfold Dev.portLost
  repeat' (first | with_reducible assumption | with_reducible refine Dev.setEng_keeps (k.mono rfl) ?_)

theorem Dev.latchOne_keeps {P : Dev → Prop} {d : Dev} {c : ℕ} {e : ℕ} {rivals : List Sys2Proof.BankUse} (k : Keeps [.fab] P) (h : P d) :
    P (Dev.latchOne d c e rivals) := by
  unfold Dev.latchOne
  repeat' (first
    | with_reducible assumption
    | with_reducible refine Dev.portLost_keeps (k.mono rfl) ?_
    | with_reducible refine Dev.setCore_keeps (k.mono rfl) ?_
    | with_reducible refine Dev.setEng_keeps (k.mono rfl) ?_
    | ((fail_if_no_progress extract_lets +onlyGivenNames x); refine cut_keeps (A := P x) ?_ (fun hx => ?_); on_goal 1 => subst x)
    | (fail_if_no_progress extract_lets +onlyGivenNames x)
    | split)

theorem Dev.refill_keeps {P : Dev → Prop} {d : Dev} {c : ℕ} {e : ℕ} {rivals : List Sys2Proof.BankUse} (k : Keeps [.fab] P) (h : P d) :
    P (Dev.refill d c e rivals) := by
  unfold Dev.refill
  repeat' (first | with_reducible assumption | with_reducible refine Dev.latchOne_keeps (k.mono rfl) ?_)

theorem Dev.dropStale_keeps {P : Dev → Prop} {d : Dev} {c : ℕ} {e : ℕ} {q : ℕ} {a : ℕ} (k : Keeps [.regs, .fab] P) (h : P d) :
    P (Dev.dropStale d c e q a) := by
  induction a generalizing d with
  | zero => exact h
  | succ a ih =>
  rw [Dev.dropStale]
  repeat' (first
    | with_reducible assumption
    | with_reducible refine Dev.iqPop_keeps (k.mono rfl) ?_
    | with_reducible refine Dev.count_keeps (k.mono rfl) ?_
    | with_reducible refine ih ?_
    | (fail_if_no_progress extract_lets +onlyGivenNames x)
    | split)

theorem Dev.skewed_keeps {P : Dev → Prop} {d : Dev} {c : ℕ} {e : ℕ} {y3 : ℕ} {y : Desc} {s : ℕ} (k : Keeps [.regs, .fab] P) (h : P d) :
    P (Dev.skewed d c e y3 y s) := by
  unfold Dev.skewed
  repeat' (first
    | with_reducible assumption
    | with_reducible refine Dev.count_keeps (k.mono rfl) ?_
    | with_reducible refine Dev.setDescRec_keeps (k.mono rfl) ?_
    | with_reducible refine Dev.postNotice_keeps (k.mono rfl) ?_
    | ((fail_if_no_progress extract_lets +onlyGivenNames x); refine cut_keeps (A := P x) ?_ (fun hx => ?_); on_goal 1 => subst x)
    | (fail_if_no_progress extract_lets +onlyGivenNames x)
    | split)

theorem Dev.dropBlock_keeps {P : Dev → Prop} {d : Dev} {c : ℕ} {e : ℕ} {q : ℕ} {b : ℕ} {a : ℕ} (k : Keeps [.regs, .fab] P) (h : P d) :
    P (Dev.dropBlock d c e q b a) := by
  induction a generalizing d with
  | zero => exact h
  | succ a ih =>
  rw [Dev.dropBlock]
  repeat' (first
    | with_reducible assumption
    | with_reducible refine Dev.iqPop_keeps (k.mono rfl) ?_
    | with_reducible refine ih ?_
    | (fail_if_no_progress extract_lets +onlyGivenNames x)
    | split)

theorem Dev.dropRest_keeps {P : Dev → Prop} {d : Dev} {c : ℕ} {e : ℕ} {y3 : ℕ} {a : ℕ} (k : Keeps [.regs, .fab] P) (h : P d) :
    P (Dev.dropRest d c e y3 a) := by
  induction a generalizing d with
  | zero => exact h
  | succ a ih =>
  rw [Dev.dropRest]
  repeat' (first
    | with_reducible assumption
    | with_reducible refine Dev.iqPop_keeps (k.mono rfl) ?_
    | with_reducible refine Dev.setDescRec_keeps (k.mono rfl) ?_
    | with_reducible refine ih ?_
    | (fail_if_no_progress extract_lets +onlyGivenNames x)
    | split)

theorem Dev.bseqCheck_keeps {P : Dev → Prop} {d : Dev} {c : ℕ} {e : ℕ} {y3 : ℕ} {a : ℕ} (k : Keeps [.regs, .fab] P) (h : P d) :
    P (Dev.bseqCheck d c e y3 a) := by
  induction a generalizing d with
  | zero => exact h
  | succ a ih =>
  rw [Dev.bseqCheck]
  repeat' (first
    | with_reducible assumption
    | with_reducible refine Dev.iqPop_keeps (k.mono rfl) ?_
    | with_reducible refine Dev.skewed_keeps (k.mono rfl) ?_
    | with_reducible refine Dev.dropBlock_keeps (k.mono rfl) ?_
    | with_reducible refine Dev.setDescRec_keeps (k.mono rfl) ?_
    | with_reducible refine ih ?_
    | ((fail_if_no_progress extract_lets +onlyGivenNames x); refine cut_keeps (A := P x) ?_ (fun hx => ?_); on_goal 1 => subst x)
    | (fail_if_no_progress extract_lets +onlyGivenNames x)
    | split)

theorem Dev.resync_keeps {P : Dev → Prop} {d : Dev} {c : ℕ} {e : ℕ} (k : Keeps [.regs, .fab] P) (h : P d) :
    P (Dev.resync d c e) := by
  unfold Dev.resync
  repeat' (first
    | with_reducible assumption
    | with_reducible refine Dev.dropStale_keeps (k.mono rfl) ?_
    | with_reducible refine Dev.dropRest_keeps (k.mono rfl) ?_
    | with_reducible refine Dev.bseqCheck_keeps (k.mono rfl) ?_
    | with_reducible refine foldl_keeps (fun e x he => ?_) ?_)

theorem Dev.takeScale_keeps {P : Dev → Prop} {d : Dev} {c : ℕ} {e : ℕ} {y3 : ℕ} {y : Desc} (k : Keeps [.regs, .fab] P) (h : P d) :
    P (Dev.takeScale d c e y3 y) := by
  unfold Dev.takeScale
  repeat' (first
    | with_reducible assumption
    | with_reducible refine Dev.iqPop_keeps (k.mono rfl) ?_
    | with_reducible refine Dev.setDescRec_keeps (k.mono rfl) ?_
    | (fail_if_no_progress extract_lets +onlyGivenNames x)
    | split)

theorem Dev.popIf_keeps {P : Dev → Prop} {d : Dev} {c : ℕ} {e : ℕ} {q : Option ℕ} (k : Keeps [.regs, .fab] P) (h : P d) :
    P (Dev.popIf d c e q) := by
  unfold Dev.popIf
  repeat' (first
    | with_reducible assumption
    | with_reducible refine Dev.iqPop_keeps (k.mono rfl) ?_
    | (fail_if_no_progress extract_lets +onlyGivenNames x)
    | split)

theorem Dev.give_keeps {P : Dev → Prop} {d : Dev} {c : ℕ} {e : ℕ} {o : ℕ} {t : Sys2Proof.Token} (k : Keeps [.regs, .stk, .fab] P) (h : P d) :
    P (Dev.give d c e o t) := by
  unfold Dev.give
  repeat' (first
    | with_reducible assumption
    | with_reducible refine Dev.send_keeps (k.mono rfl) ?_
    | with_reducible refine foldl_keeps (fun e x he => ?_) ?_)

theorem Dev.giveWord_keeps {P : Dev → Prop} {d : Dev} {c : ℕ} {e : ℕ} {o : ℕ} {y : Desc} {i : Issue} {payload : ℕ} {kind : ℕ} {deg : Bool} {bseq : ℕ} (k : Keeps [.regs, .stk, .fab] P) (h : P d) :
    P (Dev.giveWord d c e o y i payload kind deg bseq) := by
  unfold Dev.giveWord
  repeat' (first | with_reducible assumption | with_reducible refine Dev.give_keeps (k.mono rfl) ?_)

theorem Dev.opMac_keeps {P : Dev → Prop} {d : Dev} {c : ℕ} {e : ℕ} {y : Desc} {i : Issue} (k : Keeps [.regs, .fab] P) (h : P d) :
    P (Dev.opMac d c e y i) := by
  unfold Dev.opMac
  repeat' (first
    | with_reducible assumption
    | with_reducible refine Dev.countN_keeps (k.mono rfl) ?_
    | with_reducible refine Dev.countIf_keeps (k.mono rfl) ?_
    | with_reducible refine Dev.setAcc_keeps (k.mono rfl) ?_
    | with_reducible refine Dev.setEng_keeps (k.mono rfl) ?_
    | with_reducible refine foldl_keeps (fun e x he => ?_) ?_
    | with_reducible refine foldl_fst_keeps (fun e x he => ?_) ?_
    | with_reducible refine foldl_snd_keeps (fun e x he => ?_) ?_
    | (with_reducible refine of_fst ‹_› ?_)
    | (with_reducible refine of_snd ‹_› ?_)
    | ((fail_if_no_progress extract_lets +onlyGivenNames x); refine cut_keeps (A := P x) ?_ (fun hx => ?_); on_goal 1 => subst x)
    | (fail_if_no_progress extract_lets +onlyGivenNames x)
    | split)

theorem Dev.sumF32_keeps {P : Dev → Prop} {d : Dev} {c : ℕ} {a : ℕ} {b : ℕ} (k : Keeps [.regs] P) (h : P d) :
    P (Dev.sumF32 d c a b).2 := by
  unfold Dev.sumF32
  repeat' (first
    | with_reducible assumption
    | with_reducible refine Dev.countIf_keeps (k.mono rfl) ?_)

theorem Dev.opReduce_keeps {P : Dev → Prop} {d : Dev} {c : ℕ} {e : ℕ} {y : Desc} {i : Issue} (k : Keeps [.regs, .log, .stk, .fab, .num] P) (h : P d) :
    P (Dev.opReduce d c e y i) := by
  unfold Dev.opReduce
  repeat' (first
    | with_reducible assumption
    | with_reducible refine Dev.sumF32_keeps (k.mono rfl) ?_
    | with_reducible refine Dev.setAcc_keeps (k.mono rfl) ?_
    | with_reducible refine Dev.writeReg_keeps (k.mono rfl) ?_
    | with_reducible refine Dev.giveWord_keeps (k.mono rfl) ?_
    | with_reducible refine foldl_keeps (fun e x he => ?_) ?_
    | with_reducible refine foldl_fst_keeps (fun e x he => ?_) ?_
    | with_reducible refine foldl_snd_keeps (fun e x he => ?_) ?_
    | (with_reducible refine of_fst ‹_› ?_)
    | (with_reducible refine of_snd ‹_› ?_)
    | ((fail_if_no_progress extract_lets +onlyGivenNames x); refine cut_keeps (A := P x) ?_ (fun hx => ?_); on_goal 1 => subst x)
    | (fail_if_no_progress extract_lets +onlyGivenNames x)
    | split)

theorem Dev.opQuant_keeps {P : Dev → Prop} {d : Dev} {c : ℕ} {e : ℕ} {y3 : ℕ} {y : Desc} {i : Issue} {s : Option ℕ} (k : Keeps [.regs, .freeCtr, .stk, .fab] P) (h : P d) :
    P (Dev.opQuant d c e y3 y i s) := by
  unfold Dev.opQuant
  repeat' (first
    | with_reducible assumption
    | with_reducible refine Dev.countIf_keeps (k.mono rfl) ?_
    | with_reducible refine Dev.drawK_keeps (k.mono rfl) ?_
    | with_reducible refine Dev.popIf_keeps (k.mono rfl) ?_
    | with_reducible refine Dev.giveWord_keeps (k.mono rfl) ?_
    | (with_reducible refine of_fst ‹_› ?_)
    | (with_reducible refine of_snd ‹_› ?_)
    | ((fail_if_no_progress extract_lets +onlyGivenNames x); refine cut_keeps (A := P x) ?_ (fun hx => ?_); on_goal 1 => subst x)
    | (fail_if_no_progress extract_lets +onlyGivenNames x)
    | split)

theorem Dev.opLoad_keeps {P : Dev → Prop} {d : Dev} {c : ℕ} {e : ℕ} {y3 : ℕ} {y : Desc} {i : Issue} {s : Option ℕ} (k : Keeps [.regs, .log, .fab, .num] P) (h : P d) :
    P (Dev.opLoad d c e y3 y i s) := by
  unfold Dev.opLoad
  repeat' (first
    | with_reducible assumption
    | with_reducible refine Dev.popIf_keeps (k.mono rfl) ?_
    | with_reducible refine Dev.setSlotWord_keeps (k.mono rfl) ?_
    | with_reducible refine Dev.writeReg_keeps (k.mono rfl) ?_
    | (with_reducible refine of_fst ‹_› ?_)
    | (with_reducible refine of_snd ‹_› ?_)
    | ((fail_if_no_progress extract_lets +onlyGivenNames x); refine cut_keeps (A := P x) ?_ (fun hx => ?_); on_goal 1 => subst x)
    | (fail_if_no_progress extract_lets +onlyGivenNames x)
    | split)

theorem Dev.opSend_keeps {P : Dev → Prop} {d : Dev} {c : ℕ} {e : ℕ} {y : Desc} {i : Issue} (k : Keeps [.regs, .stk, .fab] P) (h : P d) :
    P (Dev.opSend d c e y i) := by
  unfold Dev.opSend
  repeat' (first
    | with_reducible assumption
    | with_reducible refine Dev.giveWord_keeps (k.mono rfl) ?_)

theorem Dev.opAlu_keeps {P : Dev → Prop} {d : Dev} {c : ℕ} {e : ℕ} {y : Desc} {i : Issue} {s : Option ℕ} (k : Keeps [.regs, .log, .freeCtr, .stk, .fab, .num] P) (h : P d) :
    P (Dev.opAlu d c e y i s) := by
  unfold Dev.opAlu
  repeat' (first
    | with_reducible assumption
    | with_reducible refine Dev.popIf_keeps (k.mono rfl) ?_
    | with_reducible refine Dev.countIf_keeps (k.mono rfl) ?_
    | with_reducible refine Dev.open_keeps (k.mono rfl) ?_
    | with_reducible refine Dev.writeReg_keeps (k.mono rfl) ?_
    | with_reducible refine Dev.giveWord_keeps (k.mono rfl) ?_
    | (with_reducible refine of_fst ‹_› ?_)
    | (with_reducible refine of_snd ‹_› ?_)
    | ((fail_if_no_progress extract_lets +onlyGivenNames x); refine cut_keeps (A := P x) ?_ (fun hx => ?_); on_goal 1 => subst x)
    | (fail_if_no_progress extract_lets +onlyGivenNames x)
    | split
    | (clear_value *; split))

theorem Dev.popCtl_keeps {P : Dev → Prop} {d : Dev} {c : ℕ} {e : ℕ} {y : Desc} {t : Sys2Proof.Token} (k : Keeps [.regs, .fab] P) (h : P d) :
    P (Dev.popCtl d c e y t) := by
  unfold Dev.popCtl
  repeat' (first
    | with_reducible assumption
    | with_reducible refine Dev.setCore_keeps (k.mono rfl) ?_
    | with_reducible refine Dev.dripTransfer_keeps (k.mono rfl) ?_
    | with_reducible refine Dev.iqPop_keeps (k.mono rfl) ?_
    | (fail_if_no_progress extract_lets +onlyGivenNames x)
    | split)

theorem Dev.opSwitch_keeps {P : Dev → Prop} {d : Dev} {c : ℕ} {e : ℕ} {y : Desc} (k : Keeps [.regs, .stk, .fab] P) (h : P d) :
    P (Dev.opSwitch d c e y) := by
  unfold Dev.opSwitch
  repeat' (first
    | with_reducible assumption
    | with_reducible refine Dev.popIf_keeps (k.mono rfl) ?_
    | with_reducible refine Dev.popCtl_keeps (k.mono rfl) ?_
    | with_reducible refine Dev.give_keeps (k.mono rfl) ?_
    | (with_reducible refine of_fst ‹_› ?_)
    | (with_reducible refine of_snd ‹_› ?_)
    | (fail_if_no_progress extract_lets +onlyGivenNames x)
    | split)

theorem Dev.opMerge_keeps {P : Dev → Prop} {d : Dev} {c : ℕ} {e : ℕ} {y : Desc} (k : Keeps [.regs, .stk, .fab] P) (h : P d) :
    P (Dev.opMerge d c e y) := by
  unfold Dev.opMerge
  repeat' (first
    | with_reducible assumption
    | with_reducible refine Dev.popCtl_keeps (k.mono rfl) ?_
    | with_reducible refine Dev.popIf_keeps (k.mono rfl) ?_
    | with_reducible refine Dev.give_keeps (k.mono rfl) ?_
    | (with_reducible refine of_fst ‹_› ?_)
    | (with_reducible refine of_snd ‹_› ?_)
    | (fail_if_no_progress extract_lets +onlyGivenNames x)
    | split)

theorem Dev.opScrimAdd_keeps {P : Dev → Prop} {d : Dev} {c : ℕ} {e : ℕ} {y : Desc} {i : Issue} {s : Option ℕ} (k : Keeps [.regs, .fab] P) (h : P d) :
    P (Dev.opScrimAdd d c e y i s) := by
  unfold Dev.opScrimAdd
  repeat' (first
    | with_reducible assumption
    | with_reducible refine Dev.sumF32_keeps (k.mono rfl) ?_
    | with_reducible refine Dev.popIf_keeps (k.mono rfl) ?_
    | with_reducible refine Dev.setAcc_keeps (k.mono rfl) ?_)

theorem Dev.opWsWrite_keeps {P : Dev → Prop} {d : Dev} {c : ℕ} {e : ℕ} {y : Desc} {s : Option ℕ} (k : Keeps [.regs, .log, .fab, .num] P) (h : P d) :
    P (Dev.opWsWrite d c e y s) := by
  unfold Dev.opWsWrite
  repeat' (first
    | with_reducible assumption
    | with_reducible refine Dev.popIf_keeps (k.mono rfl) ?_
    | with_reducible refine Dev.adaptWrite_keeps (k.mono rfl) ?_
    | (with_reducible refine of_fst ‹_› ?_)
    | (with_reducible refine of_snd ‹_› ?_)
    | (fail_if_no_progress extract_lets +onlyGivenNames x)
    | split)

theorem Dev.operate_keeps {P : Dev → Prop} {d : Dev} {c : ℕ} {e : ℕ} {y3 : ℕ} {y : Desc} {i : Issue} {s : Option ℕ} (k : Keeps [.regs, .log, .freeCtr, .stk, .fab, .num] P) (h : P d) :
    P (Dev.operate d c e y3 y i s) := by
  unfold Dev.operate
  repeat' (first
    | with_reducible assumption
    | with_reducible refine Dev.opMac_keeps (k.mono rfl) ?_
    | with_reducible refine Dev.opReduce_keeps (k.mono rfl) ?_
    | with_reducible refine Dev.opQuant_keeps (k.mono rfl) ?_
    | with_reducible refine Dev.opLoad_keeps (k.mono rfl) ?_
    | with_reducible refine Dev.opSend_keeps (k.mono rfl) ?_
    | with_reducible refine Dev.opAlu_keeps (k.mono rfl) ?_
    | with_reducible refine Dev.opSwitch_keeps (k.mono rfl) ?_
    | with_reducible refine Dev.opMerge_keeps (k.mono rfl) ?_
    | with_reducible refine Dev.giveWord_keeps (k.mono rfl) ?_
    | with_reducible refine Dev.opScrimAdd_keeps (k.mono rfl) ?_
    | with_reducible refine Dev.popIf_keeps (k.mono rfl) ?_
    | with_reducible refine Dev.opWsWrite_keeps (k.mono rfl) ?_
    | with_reducible refine Dev.commit_keeps (k.mono rfl) ?_
    | (with_reducible refine of_fst ‹_› ?_)
    | (with_reducible refine of_snd ‹_› ?_)
    | (fail_if_no_progress extract_lets +onlyGivenNames x)
    | split)

theorem Dev.advance_keeps {P : Dev → Prop} {d : Dev} {c : ℕ} {e : ℕ} {y3 : ℕ} {y : Desc} {s : Option ℕ} {last : Bool} {skip : Bool} (k : Keeps [.fab] P) (h : P d) :
    P (Dev.advance d c e y3 y s last skip) := by
  unfold Dev.advance
  repeat' (first
    | with_reducible assumption
    | with_reducible refine Dev.setDescRec_keeps (k.mono rfl) ?_
    | (fail_if_no_progress extract_lets +onlyGivenNames x)
    | split)

theorem Dev.fire_keeps {P : Dev → Prop} {d : Dev} {c : ℕ} {e : ℕ} {y3 : ℕ} {bankWait : ℕ} (k : Keeps [.regs, .log, .freeCtr, .stk, .fab, .num] P) (h : P d) :
    P (Dev.fire d c e y3 bankWait) := by
  unfold Dev.fire
  repeat' (first
    | with_reducible assumption
    | with_reducible refine Dev.takeScale_keeps (k.mono rfl) ?_
    | with_reducible refine Dev.operate_keeps (k.mono rfl) ?_
    | with_reducible refine Dev.advance_keeps (k.mono rfl) ?_
    | with_reducible refine Dev.trigger_keeps (k.mono rfl) ?_
    | with_reducible refine Dev.takeCredit_keeps (k.mono rfl) ?_
    | with_reducible refine Dev.count_keeps (k.mono rfl) ?_
    | with_reducible refine Dev.postNotice_keeps (k.mono rfl) ?_
    | with_reducible refine Dev.count64_keeps (k.mono rfl) ?_
    | with_reducible refine Dev.setEng_keeps (k.mono rfl) ?_
    | (fail_if_no_progress extract_lets +onlyGivenNames x)
    | split)

theorem Dev.overflows_keeps {P : Dev → Prop} {d : Dev} {c : ℕ} {e : ℕ} (k : Keeps [.regs, .fab] P) (h : P d) :
    P (Dev.overflows d c e) := by
  unfold Dev.overflows
  repeat' (first
    | with_reducible assumption
    | with_reducible refine Dev.setDescRec_keeps (k.mono rfl) ?_
    | with_reducible refine Dev.count_keeps (k.mono rfl) ?_
    | with_reducible refine Dev.postNotice_keeps (k.mono rfl) ?_
    | with_reducible refine foldl_keeps (fun e x he => ?_) ?_
    | with_reducible refine foldl_fst_keeps (fun e x he => ?_) ?_
    | with_reducible refine foldl_snd_keeps (fun e x he => ?_) ?_
    | (fail_if_no_progress extract_lets +onlyGivenNames x)
    | split)

theorem Dev.loopMarker_keeps {P : Dev → Prop} {d : Dev} {c : ℕ} {e : ℕ} (k : Keeps [.regs, .stk, .fab] P) (h : P d) :
    P (Dev.loopMarker d c e) := by
  unfold Dev.loopMarker
  repeat' (first
    | with_reducible assumption
    | with_reducible refine Dev.setEng_keeps (k.mono rfl) ?_
    | with_reducible refine Dev.popCtl_keeps (k.mono rfl) ?_
    | with_reducible refine Dev.send_keeps (k.mono rfl) ?_
    | with_reducible refine foldl_keeps (fun e x he => ?_) ?_
    | with_reducible refine foldl_fst_keeps (fun e x he => ?_) ?_
    | with_reducible refine foldl_snd_keeps (fun e x he => ?_) ?_
    | ((fail_if_no_progress extract_lets +onlyGivenNames x); refine cut_keeps (A := P x) ?_ (fun hx => ?_); on_goal 1 => subst x)
    | (fail_if_no_progress extract_lets +onlyGivenNames x)
    | split)

theorem Dev.waitPort_keeps {P : Dev → Prop} {d : Dev} {c : ℕ} {e : ℕ} {y3 : ℕ} (k : Keeps [.fab] P) (h : P d) :
    P (Dev.waitPort d c e y3) := by
  unfold Dev.waitPort
  repeat' (first
    | with_reducible assumption
    | with_reducible refine Dev.setDescRec_keeps (k.mono rfl) ?_
    | with_reducible refine Dev.portLost_keeps (k.mono rfl) ?_)

theorem Dev.issue_keeps {P : Dev → Prop} {d : Dev} {c : ℕ} {e : ℕ} {bankWait : ℕ} {rivals : List Sys2Proof.BankUse} {wsFix : ℕ} {cmemFix : ℕ} (k : Keeps [.regs, .log, .freeCtr, .stk, .fab, .num] P) (h : P d) :
    P (Dev.issue d c e bankWait rivals wsFix cmemFix) := by
  unfold Dev.issue
  repeat' (first
    | with_reducible assumption
    | with_reducible refine Dev.countN_keeps (k.mono rfl) ?_
    | with_reducible refine Dev.refill_keeps (k.mono rfl) ?_
    | with_reducible refine Dev.resync_keeps (k.mono rfl) ?_
    | with_reducible refine Dev.loopMarker_keeps (k.mono rfl) ?_
    | with_reducible refine Dev.overflows_keeps (k.mono rfl) ?_
    | with_reducible refine Dev.waitPort_keeps (k.mono rfl) ?_
    | with_reducible refine Dev.fire_keeps (k.mono rfl) ?_
    | ((fail_if_no_progress extract_lets +onlyGivenNames x); refine cut_keeps (A := P x) ?_ (fun hx => ?_); on_goal 1 => subst x)
    | (fail_if_no_progress extract_lets +onlyGivenNames x)
    | split)

theorem Dev.sampleEngine_keeps {P : Dev → Prop} {d : Dev} {c : ℕ} {e : ℕ} {bank : Bool} (k : Keeps [.regs, .fab] P) (h : P d) :
    P (Dev.sampleEngine d c e bank) := by
  unfold Dev.sampleEngine
  repeat' (first
    | with_reducible assumption
    | with_reducible refine Dev.count64_keeps (k.mono rfl) ?_
    | with_reducible refine Dev.setFld_keeps (k.mono rfl) ?_
    | with_reducible refine Dev.setEng_keeps (k.mono rfl) ?_)

theorem Dev.stallTick_keeps {P : Dev → Prop} {d : Dev} {bank : List (ℕ × ℕ)} (k : Keeps [.regs, .fab] P) (h : P d) :
    P (Dev.stallTick d bank) := by
  unfold Dev.stallTick
  repeat' (first
    | with_reducible assumption
    | with_reducible refine Dev.sampleEngine_keeps (k.mono rfl) ?_
    | with_reducible refine foldl_keeps (fun e x he => ?_) ?_)

theorem Dev.reply_keeps {P : Dev → Prop} {d : Dev} {x : Circuit} {w : ℕ} {deg : Bool} {ev : ℕ} (k : Keeps [.regs, .stk, .fab] P) (h : P d) :
    P (Dev.reply d x w deg ev) := by
  unfold Dev.reply
  repeat' (first
    | with_reducible assumption
    | with_reducible refine Dev.entrySend_keeps (k.mono rfl) ?_
    | (fail_if_no_progress extract_lets +onlyGivenNames x)
    | split)

theorem Dev.setBankQ_keeps {P : Dev → Prop} {d : Dev} {cl : ℕ} {b : ℕ} {qs : List BankReq} (k : Keeps [.fab] P) (h : P d) :
    P (Dev.setBankQ d cl b qs) := by
  unfold Dev.setBankQ
  repeat' (first | with_reducible assumption | with_reducible refine upd_fab (k.mono rfl) ?_)

theorem Dev.bankTransfer_keeps {P : Dev → Prop} {d : Dev} {cl : ℕ} {l : ℕ} (k : Keeps [.regs, .fab] P) (h : P d) :
    P (Dev.bankTransfer d cl l) := by
  unfold Dev.bankTransfer
  repeat' (first
    | with_reducible assumption
    | with_reducible refine Dev.dripTransfer_keeps (k.mono rfl) ?_)

theorem Dev.bankPush_keeps {P : Dev → Prop} {d : Dev} {cl : ℕ} {l : ℕ} {q : BankReq} (k : Keeps [.regs, .fab] P) (h : P d) :
    P (Dev.bankPush d cl l q) := by
  unfold Dev.bankPush
  repeat' (first
    | with_reducible assumption
    | with_reducible refine Dev.bankTransfer_keeps (k.mono rfl) ?_
    | with_reducible refine Dev.setBankQ_keeps (k.mono rfl) ?_
    | (fail_if_no_progress extract_lets +onlyGivenNames x)
    | split)

theorem Dev.bankPut_keeps {P : Dev → Prop} {d : Dev} {cl : ℕ} {l : ℕ} {q : BankReq} (k : Keeps [.regs, .stk, .fab] P) (h : P d) :
    P (Dev.bankPut d cl l q) := by
  unfold Dev.bankPut
  repeat' (first
    | with_reducible assumption
    | with_reducible refine Dev.segPush_keeps (k.mono rfl) ?_
    | with_reducible refine Dev.bankPush_keeps (k.mono rfl) ?_
    | (fail_if_no_progress extract_lets +onlyGivenNames x)
    | split)

theorem Dev.bankAccess_keeps {P : Dev → Prop} {d : Dev} {cl : ℕ} {q : BankReq} (k : Keeps [.regs, .stk, .fab] P) (h : P d) :
    P (Dev.bankAccess d cl q) := by
  unfold Dev.bankAccess
  repeat' (first
    | with_reducible assumption
    | with_reducible refine Dev.reply_keeps (k.mono rfl) ?_
    | (fail_if_no_progress extract_lets +onlyGivenNames x)
    | split
    | with_reducible refine upd_fab (k.mono rfl) ?_)

theorem Dev.bankCycle_keeps {P : Dev → Prop} {d : Dev} {cl : ℕ} {b : ℕ} (k : Keeps [.regs, .stk, .fab] P) (h : P d) :
    P (Dev.bankCycle d cl b) := by
  unfold Dev.bankCycle
  repeat' (first
    | with_reducible assumption
    | with_reducible refine Dev.setBankQ_keeps (k.mono rfl) ?_
    | with_reducible refine Dev.dripTransfer_keeps (k.mono rfl) ?_
    | with_reducible refine Dev.bankAccess_keeps (k.mono rfl) ?_
    | (fail_if_no_progress extract_lets +onlyGivenNames x)
    | split)

theorem Dev.banksCycle_keeps {P : Dev → Prop} {d : Dev} {cl : ℕ} (k : Keeps [.regs, .stk, .fab] P) (h : P d) :
    P (Dev.banksCycle d cl) := by
  unfold Dev.banksCycle
  repeat' (first
    | with_reducible assumption
    | with_reducible refine Dev.bankCycle_keeps (k.mono rfl) ?_
    | with_reducible refine foldl_keeps (fun e x he => ?_) ?_)

theorem Dev.stackRequest_keeps {P : Dev → Prop} {d : Dev} {x : Circuit} {write : Bool} {a : ℕ} {w : ℕ} {t : Sys2Proof.Token} (k : Keeps [.stk] P) (h : P d) :
    P (Dev.stackRequest d x write a w t) := by
  unfold Dev.stackRequest
  repeat' (first
    | with_reducible assumption
    | with_reducible refine Dev.setStack_keeps (k.mono rfl) ?_)

theorem Dev.sliceRequest_keeps {P : Dev → Prop} {d : Dev} {x : Circuit} {write : Bool} {a : ℕ} {w : ℕ} {t : Sys2Proof.Token} (k : Keeps [.regs, .freeCtr, .stk, .fab] P) (h : P d) :
    P (Dev.sliceRequest d x write a w t) := by
  unfold Dev.sliceRequest
  repeat' (first
    | with_reducible assumption
    | with_reducible refine Dev.bankPut_keeps (k.mono rfl) ?_
    | with_reducible refine Dev.open_keeps (k.mono rfl) ?_
    | with_reducible refine Dev.reply_keeps (k.mono rfl) ?_
    | (with_reducible refine of_fst ‹_› ?_)
    | (with_reducible refine of_snd ‹_› ?_)
    | (fail_if_no_progress extract_lets +onlyGivenNames x)
    | split)

theorem Dev.memArrive_keeps {P : Dev → Prop} {d : Dev} {x : Circuit} {t : Sys2Proof.Token} (k : Keeps [.regs, .freeCtr, .stk, .fab] P) (h : P d) :
    P (Dev.memArrive d x t) := by
  unfold Dev.memArrive
  repeat' (first
    | with_reducible assumption
    | with_reducible refine Dev.setCst_keeps (k.mono rfl) ?_
    | with_reducible refine Dev.sliceRequest_keeps (k.mono rfl) ?_
    | with_reducible refine Dev.stackRequest_keeps (k.mono rfl) ?_
    | ((fail_if_no_progress extract_lets +onlyGivenNames x); refine cut_keeps (A := P x) ?_ (fun hx => ?_); on_goal 1 => subst x)
    | (fail_if_no_progress extract_lets +onlyGivenNames x)
    | split)

theorem Dev.reachCounter_keeps {P : Dev → Prop} {d : Dev} {x : Circuit} {t : Sys2Proof.Token} (k : Keeps [.regs, .log, .stk, .fab] P) (h : P d) :
    P (Dev.reachCounter d x t) := by
  unfold Dev.reachCounter
  repeat' (first
    | with_reducible assumption
    | with_reducible refine Dev.setCore_keeps (k.mono rfl) ?_
    | with_reducible refine Dev.addCredits_keeps (k.mono rfl) ?_
    | with_reducible refine Dev.countTok_keeps (k.mono rfl) ?_
    | (fail_if_no_progress extract_lets +onlyGivenNames x)
    | split)

theorem Dev.deliverTok_keeps {P : Dev → Prop} {d : Dev} {x : Circuit} {t : Sys2Proof.Token} (k : Keeps [.regs, .log, .freeCtr, .scr, .store, .stk, .fab, .num, .pwr] P) (h : P d) :
    P (Dev.deliverTok d x t) := by
  unfold Dev.deliverTok
  repeat' (first
    | with_reducible assumption
    | with_reducible refine Dev.iqDeliver_keeps (k.mono rfl) ?_
    | with_reducible refine Dev.reachCounter_keeps (k.mono rfl) ?_
    | with_reducible refine Dev.scrimArrive_keeps (k.mono rfl) ?_
    | with_reducible refine Dev.batchEnd_keeps (k.mono rfl) ?_
    | with_reducible refine Dev.memArrive_keeps (k.mono rfl) ?_
    | with_reducible refine Dev.netInput_keeps (k.mono rfl) ?_
    | (fail_if_no_progress extract_lets +onlyGivenNames x)
    | split)

theorem Dev.takeHead_keeps {P : Dev → Prop} {d : Dev} {x : Circuit} {y2 : ℕ} (k : Keeps [.regs, .fab] P) (h : P d) :
    P (Dev.takeHead d x y2) := by
  unfold Dev.takeHead
  repeat' (first
    | with_reducible assumption
    | with_reducible refine Dev.setCore_keeps (k.mono rfl) ?_
    | with_reducible refine Dev.dripTransfer_keeps (k.mono rfl) ?_
    | with_reducible refine Dev.dropHead_keeps (k.mono rfl) ?_
    | ((fail_if_no_progress extract_lets +onlyGivenNames x); refine cut_keeps (A := P x) ?_ (fun hx => ?_); on_goal 1 => subst x)
    | (fail_if_no_progress extract_lets +onlyGivenNames x)
    | split)

theorem Dev.drainEnd_keeps {P : Dev → Prop} {d : Dev} {x : Circuit} {a : ℕ} (k : Keeps [.regs, .log, .stk, .fab] P) (h : P d) :
    P (Dev.drainEnd d x a) := by
  induction a generalizing d with
  | zero => exact h
  | succ a ih =>
  rw [Dev.drainEnd]
  repeat' (first
    | with_reducible assumption
    | with_reducible refine Dev.dropHead_keeps (k.mono rfl) ?_
    | with_reducible refine Dev.reachCounter_keeps (k.mono rfl) ?_
    | with_reducible refine ih ?_
    | (fail_if_no_progress extract_lets +onlyGivenNames x)
    | split)

theorem Dev.arrive_keeps {P : Dev → Prop} {d : Dev} {x : Circuit} {y2 : ℕ} {t : Sys2Proof.Token} (k : Keeps [.regs, .log, .freeCtr, .scr, .store, .stk, .fab, .num, .pwr] P) (h : P d) :
    P (Dev.arrive d x y2 t) := by
  unfold Dev.arrive
  repeat' (first
    | with_reducible assumption
    | with_reducible refine Dev.putHop_keeps (k.mono rfl) ?_
    | with_reducible refine Dev.drainEnd_keeps (k.mono rfl) ?_
    | with_reducible refine Dev.deliverTok_keeps (k.mono rfl) ?_
    | (fail_if_no_progress extract_lets +onlyGivenNames x)
    | split)

theorem Dev.drainEnds_keeps {P : Dev → Prop} {d : Dev} (k : Keeps [.regs, .log, .stk, .fab] P) (h : P d) :
    P (Dev.drainEnds d) := by
  unfold Dev.drainEnds
  repeat' (first
    | with_reducible assumption
    | with_reducible refine Dev.drainEnd_keeps (k.mono rfl) ?_
    | with_reducible refine foldl_keeps (fun e x he => ?_) ?_
    | with_reducible refine foldl_fst_keeps (fun e x he => ?_) ?_
    | with_reducible refine foldl_snd_keeps (fun e x he => ?_) ?_
    | (fail_if_no_progress extract_lets +onlyGivenNames x)
    | split)

theorem Dev.feedUnits_keeps {P : Dev → Prop} {d : Dev} (k : Keeps [.regs, .stk, .fab] P) (h : P d) :
    P (Dev.feedUnits d) := by
  unfold Dev.feedUnits
  repeat' (first
    | with_reducible assumption
    | with_reducible refine Dev.cuFeed_keeps (k.mono rfl) ?_
    | with_reducible refine foldl_keeps (fun e x he => ?_) ?_)

theorem Dev.fifoOverflow_keeps {P : Dev → Prop} {d : Dev} {x : Circuit} {t : Sys2Proof.Token} (k : Keeps [.regs, .fab] P) (h : P d) :
    P (Dev.fifoOverflow d x t) := by
  unfold Dev.fifoOverflow
  repeat' (first
    | with_reducible assumption
    | with_reducible refine Dev.count_keeps (k.mono rfl) ?_
    | with_reducible refine Dev.postNotice_keeps (k.mono rfl) ?_
    | (fail_if_no_progress extract_lets +onlyGivenNames x)
    | split)

theorem Dev.cross_keeps {P : Dev → Prop} {d : Dev} {x : Circuit} {y2 : ℕ} (k : Keeps [.regs, .log, .freeCtr, .scr, .store, .stk, .fab, .num, .pwr] P) (h : P d) :
    P (Dev.cross d x y2) := by
  unfold Dev.cross
  repeat' (first
    | with_reducible assumption
    | with_reducible refine Dev.fifoOverflow_keeps (k.mono rfl) ?_
    | with_reducible refine Dev.takeHead_keeps (k.mono rfl) ?_
    | with_reducible refine Dev.noteSent_keeps (k.mono rfl) ?_
    | with_reducible refine Dev.observe_keeps (k.mono rfl) ?_
    | with_reducible refine Dev.setFlit_keeps (k.mono rfl) ?_
    | with_reducible refine Dev.arrive_keeps (k.mono rfl) ?_
    | ((fail_if_no_progress extract_lets +onlyGivenNames x); refine cut_keeps (A := P x) ?_ (fun hx => ?_); on_goal 1 => subst x)
    | (fail_if_no_progress extract_lets +onlyGivenNames x)
    | split)

theorem Dev.wheelCross_keeps {P : Dev → Prop} {d : Dev} {l : ℕ} (k : Keeps [.regs, .log, .freeCtr, .scr, .store, .stk, .fab, .num, .pwr] P) (h : P d) :
    P (Dev.wheelCross d l) := by
  unfold Dev.wheelCross
  repeat' (first
    | with_reducible assumption
    | with_reducible refine Dev.cross_keeps (k.mono rfl) ?_
    | (fail_if_no_progress extract_lets +onlyGivenNames x)
    | split
    | with_reducible refine upd_fab (k.mono rfl) ?_)

end Sys2Proof.Machine
end

