-- ==== Sys2Proof/Laws/KeepSwitch.lean ====
section
/-!
SUPPORT. What the operations of Machine/Switch.lean may change.
-/

namespace Sys2Proof.Machine

open Sys2Proof

theorem Dev.groupDone_keeps {P : Dev → Prop} {d : Dev} {g : ℕ} {w : Wave} (k : Keeps [.regs, .log, .fab, .num] P) (h : P d) :
    P (Dev.groupDone d g w) := by
  unfold Dev.groupDone
  repeat' (first
    | with_reducible assumption
    | with_reducible refine Dev.setCst_keeps (k.mono rfl) ?_
    | with_reducible refine Dev.setEng_keeps (k.mono rfl) ?_
    | with_reducible refine Dev.setCore_keeps (k.mono rfl) ?_
    | with_reducible refine Dev.setGrp_keeps (k.mono rfl) ?_
    | with_reducible refine Dev.logInternal_keeps (k.mono rfl) ?_
    | with_reducible refine Dev.epochDone_keeps (k.mono rfl) ?_
    | with_reducible refine foldl_keeps (fun e x he => ?_) ?_
    | with_reducible refine foldl_fst_keeps (fun e x he => ?_) ?_
    | with_reducible refine foldl_snd_keeps (fun e x he => ?_) ?_
    | ((fail_if_no_progress extract_lets +onlyGivenNames x); refine cut_keeps (A := P x) ?_ (fun hx => ?_); on_goal 1 => subst x)
    | (fail_if_no_progress extract_lets +onlyGivenNames x)
    | split
    | with_reducible refine upd_num (k.mono rfl) ?_)

theorem Dev.waveLeave_keeps {P : Dev → Prop} {d : Dev} {g : ℕ} {c : ℕ} (k : Keeps [.regs, .log, .fab, .num] P) (h : P d) :
    P (Dev.waveLeave d g c) := by
  unfold Dev.waveLeave
  repeat' (first
    | with_reducible assumption
    | with_reducible refine Dev.setGrp_keeps (k.mono rfl) ?_
    | with_reducible refine Dev.groupDone_keeps (k.mono rfl) ?_
    | ((fail_if_no_progress extract_lets +onlyGivenNames x); refine cut_keeps (A := P x) ?_ (fun hx => ?_); on_goal 1 => subst x)
    | (fail_if_no_progress extract_lets +onlyGivenNames x)
    | split)

theorem Dev.cuSwitch_keeps {P : Dev → Prop} {d : Dev} {c : ℕ} {w : Wave} (k : Keeps [.regs, .stk, .fab] P) (h : P d) :
    P (Dev.cuSwitch d c w) := by
  unfold Dev.cuSwitch
  repeat' (first
    | with_reducible assumption
    | with_reducible refine Dev.cuPut_keeps (k.mono rfl) ?_
    | with_reducible refine Dev.setCore_keeps (k.mono rfl) ?_
    | with_reducible refine foldl_keeps (fun e x he => ?_) ?_)

theorem Dev.coreCheck_keeps {P : Dev → Prop} {d : Dev} {c : ℕ} (k : Keeps [.regs, .log, .stk, .fab, .num] P) (h : P d) :
    P (Dev.coreCheck d c) := by
  unfold Dev.coreCheck
  repeat' (first
    | with_reducible assumption
    | with_reducible refine Dev.cuSwitch_keeps (k.mono rfl) ?_
    | with_reducible refine Dev.count_keeps (k.mono rfl) ?_
    | with_reducible refine Dev.setFld_keeps (k.mono rfl) ?_
    | with_reducible refine Dev.waveLeave_keeps (k.mono rfl) ?_
    | ((fail_if_no_progress extract_lets +onlyGivenNames x); refine cut_keeps (A := P x) ?_ (fun hx => ?_); on_goal 1 => subst x)
    | (fail_if_no_progress extract_lets +onlyGivenNames x)
    | split)

theorem Dev.engSwitch_keeps {P : Dev → Prop} {d : Dev} {c : ℕ} {e : ℕ} {w : Wave} (k : Keeps [.regs, .stk, .fab] P) (h : P d) :
    P (Dev.engSwitch d c e w) := by
  unfold Dev.engSwitch
  repeat' (first
    | with_reducible assumption
    | with_reducible refine Dev.send_keeps (k.mono rfl) ?_
    | with_reducible refine Dev.iqPop_keeps (k.mono rfl) ?_
    | with_reducible refine Dev.setClosed_keeps (k.mono rfl) ?_
    | with_reducible refine Dev.setCore_keeps (k.mono rfl) ?_
    | with_reducible refine Dev.setEng_keeps (k.mono rfl) ?_
    | with_reducible refine Dev.setDescRec_keeps (k.mono rfl) ?_
    | with_reducible refine foldl_keeps (fun e x he => ?_) ?_
    | with_reducible refine foldl_fst_keeps (fun e x he => ?_) ?_
    | with_reducible refine foldl_snd_keeps (fun e x he => ?_) ?_
    | ((fail_if_no_progress extract_lets +onlyGivenNames x); refine cut_keeps (A := P x) ?_ (fun hx => ?_); on_goal 1 => subst x)
    | (fail_if_no_progress extract_lets +onlyGivenNames x)
    | split)

theorem Dev.receiveMarker_keeps {P : Dev → Prop} {d : Dev} {c : ℕ} {e : ℕ} (k : Keeps [.regs, .log, .stk, .fab, .num] P) (h : P d) :
    P (Dev.receiveMarker d c e) := by
  unfold Dev.receiveMarker
  repeat' (first
    | with_reducible assumption
    | with_reducible refine Dev.engSwitch_keeps (k.mono rfl) ?_
    | with_reducible refine Dev.coreCheck_keeps (k.mono rfl) ?_
    | (fail_if_no_progress extract_lets +onlyGivenNames x)
    | split)

theorem Dev.counterSwitch_keeps {P : Dev → Prop} {d : Dev} {c : ℕ} (k : Keeps [.regs, .log, .stk, .fab, .num] P) (h : P d) :
    P (Dev.counterSwitch d c) := by
  unfold Dev.counterSwitch
  repeat' (first
    | with_reducible assumption
    | with_reducible refine Dev.cuSwitch_keeps (k.mono rfl) ?_
    | with_reducible refine Dev.coreCheck_keeps (k.mono rfl) ?_
    | (fail_if_no_progress extract_lets +onlyGivenNames x)
    | split)

theorem Dev.switchAccept_keeps {P : Dev → Prop} {d : Dev} {g : ℕ} (k : Keeps [.regs, .log, .stk, .fab, .num] P) (h : P d) :
    P (Dev.switchAccept d g) := by
  unfold Dev.switchAccept
  repeat' (first
    | with_reducible assumption
    | with_reducible refine Dev.setGrp_keeps (k.mono rfl) ?_
    | with_reducible refine Dev.setCst_keeps (k.mono rfl) ?_
    | with_reducible refine Dev.groupDone_keeps (k.mono rfl) ?_
    | with_reducible refine Dev.receiveMarker_keeps (k.mono rfl) ?_
    | with_reducible refine foldl_keeps (fun e x he => ?_) ?_
    | with_reducible refine foldl_fst_keeps (fun e x he => ?_) ?_
    | with_reducible refine foldl_snd_keeps (fun e x he => ?_) ?_
    | ((fail_if_no_progress extract_lets +onlyGivenNames x); refine cut_keeps (A := P x) ?_ (fun hx => ?_); on_goal 1 => subst x)
    | (fail_if_no_progress extract_lets +onlyGivenNames x)
    | split)

theorem Dev.sendMarker_keeps {P : Dev → Prop} {d : Dev} {key : ℕ} (k : Keeps [.regs, .stk, .fab] P) (h : P d) :
    P (Dev.sendMarker d key) := by
  unfold Dev.sendMarker
  repeat' (first
    | with_reducible assumption
    | with_reducible refine Dev.putMarker_keeps (k.mono rfl) ?_
    | (fail_if_no_progress extract_lets +onlyGivenNames x)
    | split)

theorem Dev.standIns_keeps {P : Dev → Prop} {d : Dev} {x : Circuit} {epoch : ℕ} {slot : ℕ} {a : ℕ} (k : Keeps [.regs, .stk, .fab] P) (h : P d) :
    P (Dev.standIns d x epoch slot a) := by
  induction a generalizing d with
  | zero => exact h
  | succ a ih =>
  rw [Dev.standIns]
  repeat' (first
    | with_reducible assumption
    | with_reducible refine Dev.noteSent_keeps (k.mono rfl) ?_
    | with_reducible refine Dev.putHop_keeps (k.mono rfl) ?_
    | with_reducible refine Dev.count_keeps (k.mono rfl) ?_
    | with_reducible refine ih ?_)

theorem Dev.fencedEvent_keeps {P : Dev → Prop} {d : Dev} {c : ℕ} {n : ℕ} (k : Keeps [.regs, .stk, .fab] P) (h : P d) :
    P (Dev.fencedEvent d c n) := by
  unfold Dev.fencedEvent
  repeat' (first
    | with_reducible assumption
    | with_reducible refine Dev.standIns_keeps (k.mono rfl) ?_
    | with_reducible refine foldl_keeps (fun e x he => ?_) ?_)

theorem Dev.lostStandIns_keeps {P : Dev → Prop} {d : Dev} {x : Circuit} {y2 : ℕ} {slot : ℕ} {a : ℕ} (k : Keeps [.regs, .log, .freeCtr, .scr, .store, .stk, .fab, .num, .pwr] P) (h : P d) :
    P (Dev.lostStandIns d x y2 slot a) := by
  induction a generalizing d with
  | zero => exact h
  | succ a ih =>
  rw [Dev.lostStandIns]
  repeat' (first
    | with_reducible assumption
    | with_reducible refine Dev.arrive_keeps (k.mono rfl) ?_
    | with_reducible refine Dev.count_keeps (k.mono rfl) ?_
    | with_reducible refine ih ?_)

theorem Dev.lostEvent_keeps {P : Dev → Prop} {d : Dev} {n : ℕ} (k : Keeps [.regs, .log, .freeCtr, .scr, .store, .stk, .fab, .num, .pwr] P) (h : P d) :
    P (Dev.lostEvent d n) := by
  unfold Dev.lostEvent
  repeat' (first
    | with_reducible assumption
    | with_reducible refine Dev.lostStandIns_keeps (k.mono rfl) ?_
    | with_reducible refine foldl_keeps (fun e x he => ?_) ?_
    | with_reducible refine foldl_fst_keeps (fun e x he => ?_) ?_
    | with_reducible refine foldl_snd_keeps (fun e x he => ?_) ?_
    | (fail_if_no_progress extract_lets +onlyGivenNames x)
    | split)

theorem Dev.entryTokens_keeps {P : Dev → Prop} {d : Dev} {x : Circuit} {n : ℕ} {ws : List (ℕ × Bool)} (k : Keeps [.regs, .stk, .fab] P) (h : P d) :
    P (Dev.entryTokens d x n ws) := by
  unfold Dev.entryTokens
  repeat' (first
    | with_reducible assumption
    | with_reducible refine Dev.xdieSend_keeps (k.mono rfl) ?_
    | with_reducible refine foldl_keeps (fun e x he => ?_) ?_)

theorem Dev.setCoreState_keeps {P : Dev → Prop} {d : Dev} {c : ℕ} {st : ℕ} (k : Keeps [.regs] P) (h : P d) :
    P (Dev.setCoreState d c st) := by
  unfold Dev.setCoreState
  repeat' (first | with_reducible assumption | with_reducible refine Dev.setFld_keeps (k.mono rfl) ?_)

theorem Dev.countCores_keeps {P : Dev → Prop} {d : Dev} {cl : ℕ} (k : Keeps [.regs] P) (h : P d) :
    P (Dev.countCores d cl) := by
  unfold Dev.countCores
  repeat' (first
    | with_reducible assumption
    | with_reducible refine Dev.setFld_keeps (k.mono rfl) ?_)

theorem Dev.settleSpare_keeps {P : Dev → Prop} {d : Dev} {cl : ℕ} (k : Keeps [.regs] P) (h : P d) :
    P (Dev.settleSpare d cl) := by
  unfold Dev.settleSpare
  repeat' (first
    | with_reducible assumption
    | with_reducible refine Dev.setCoreState_keeps (k.mono rfl) ?_
    | with_reducible refine Dev.setFld_keeps (k.mono rfl) ?_
    | (fail_if_no_progress extract_lets +onlyGivenNames x)
    | split)

theorem Dev.coreTested_keeps {P : Dev → Prop} {d : Dev} {c : ℕ} {r : Sys2Proof.SelfTestResult} (k : Keeps [.regs, .fab] P) (h : P d) :
    P (Dev.coreTested d c r) := by
  unfold Dev.coreTested
  repeat' (first
    | with_reducible assumption
    | with_reducible refine Dev.setFld_keeps (k.mono rfl) ?_
    | with_reducible refine Dev.setCore_keeps (k.mono rfl) ?_
    | with_reducible refine Dev.setCoreState_keeps (k.mono rfl) ?_
    | with_reducible refine Dev.settleSpare_keeps (k.mono rfl) ?_
    | with_reducible refine Dev.countCores_keeps (k.mono rfl) ?_
    | with_reducible refine Dev.setV_keeps (k.mono rfl) ?_
    | with_reducible refine foldl_keeps (fun e x he => ?_) ?_
    | with_reducible refine foldl_fst_keeps (fun e x he => ?_) ?_
    | with_reducible refine foldl_snd_keeps (fun e x he => ?_) ?_
    | ((fail_if_no_progress extract_lets +onlyGivenNames x); refine cut_keeps (A := P x) ?_ (fun hx => ?_); on_goal 1 => subst x)
    | (fail_if_no_progress extract_lets +onlyGivenNames x)
    | split)

theorem Dev.countUe_keeps {P : Dev → Prop} {d : Dev} {c : ℕ} {cause : ℕ} (k : Keeps [.regs] P) (h : P d) :
    P (Dev.countUe d c cause) := by
  unfold Dev.countUe
  repeat' (first
    | with_reducible assumption
    | with_reducible refine Dev.count_keeps (k.mono rfl) ?_
    | (fail_if_no_progress extract_lets +onlyGivenNames x)
    | split)

theorem Dev.coreLoadError_keeps {P : Dev → Prop} {d : Dev} {c : ℕ} {cause : ℕ} (k : Keeps [.regs, .log, .fab] P) (h : P d) :
    P (Dev.coreLoadError d c cause) := by
  unfold Dev.coreLoadError
  repeat' (first
    | with_reducible assumption
    | with_reducible refine Dev.countUe_keeps (k.mono rfl) ?_
    | with_reducible refine Dev.setCoreState_keeps (k.mono rfl) ?_
    | with_reducible refine Dev.setCore_keeps (k.mono rfl) ?_
    | with_reducible refine Dev.setFld_keeps (k.mono rfl) ?_
    | with_reducible refine Dev.countCores_keeps (k.mono rfl) ?_
    | with_reducible refine Dev.setHmap_keeps (k.mono rfl) ?_
    | with_reducible refine Dev.logInternal_keeps (k.mono rfl) ?_
    | ((fail_if_no_progress extract_lets +onlyGivenNames x); refine cut_keeps (A := P x) ?_ (fun hx => ?_); on_goal 1 => subst x)
    | (fail_if_no_progress extract_lets +onlyGivenNames x)
    | split)

theorem Dev.coreLoaded_keeps {P : Dev → Prop} {d : Dev} {c : ℕ} (k : Keeps [.regs] P) (h : P d) :
    P (Dev.coreLoaded d c) := by
  unfold Dev.coreLoaded
  repeat' (first
    | with_reducible assumption
    | with_reducible refine Dev.setCoreState_keeps (k.mono rfl) ?_
    | (fail_if_no_progress extract_lets +onlyGivenNames x)
    | split)

theorem Dev.coresRun_keeps {P : Dev → Prop} {d : Dev} (k : Keeps [.regs] P) (h : P d) :
    P (Dev.coresRun d) := by
  unfold Dev.coresRun
  repeat' (first
    | with_reducible assumption
    | with_reducible refine Dev.setCoreState_keeps (k.mono rfl) ?_
    | with_reducible refine foldl_keeps (fun e x he => ?_) ?_)

theorem Dev.closeSpill_keeps {P : Dev → Prop} {d : Dev} {cl : ℕ} {j : ℕ} {s : ℕ} (k : Keeps [.regs, .fab] P) (h : P d) :
    P (Dev.closeSpill d cl j s) := by
  unfold Dev.closeSpill
  repeat' (first
    | with_reducible assumption
    | with_reducible refine Dev.setSpill_keeps (k.mono rfl) ?_
    | with_reducible refine Dev.setFld_keeps (k.mono rfl) ?_
    | ((fail_if_no_progress extract_lets +onlyGivenNames x); refine cut_keeps (A := P x) ?_ (fun hx => ?_); on_goal 1 => subst x)
    | (fail_if_no_progress extract_lets +onlyGivenNames x)
    | split)

theorem Dev.abandonSpills_keeps {P : Dev → Prop} {d : Dev} {c : ℕ} (k : Keeps [.regs, .fab] P) (h : P d) :
    P (Dev.abandonSpills d c) := by
  unfold Dev.abandonSpills
  repeat' (first
    | with_reducible assumption
    | with_reducible refine Dev.closeSpill_keeps (k.mono rfl) ?_
    | with_reducible refine foldl_keeps (fun e x he => ?_) ?_
    | with_reducible refine foldl_fst_keeps (fun e x he => ?_) ?_
    | with_reducible refine foldl_snd_keeps (fun e x he => ?_) ?_
    | (fail_if_no_progress extract_lets +onlyGivenNames x)
    | split)

theorem Dev.emptyCore_keeps {P : Dev → Prop} {d : Dev} {c : ℕ} (k : Keeps [.fab] P) (h : P d) :
    P (Dev.emptyCore d c) := by
  unfold Dev.emptyCore
  repeat' (first
    | with_reducible assumption
    | with_reducible refine Dev.setWaiting_keeps (k.mono rfl) ?_
    | with_reducible refine foldl_keeps (fun e x he => ?_) ?_
    | with_reducible refine foldl_fst_keeps (fun e x he => ?_) ?_
    | with_reducible refine foldl_snd_keeps (fun e x he => ?_) ?_
    | ((fail_if_no_progress extract_lets +onlyGivenNames x); refine cut_keeps (A := P x) ?_ (fun hx => ?_); on_goal 1 => subst x)
    | (fail_if_no_progress extract_lets +onlyGivenNames x)
    | split)

theorem Dev.fence_keeps {P : Dev → Prop} {d : Dev} {c : ℕ} {cause : ℕ} (k : Keeps [.regs, .log, .stk, .fab, .num] P) (h : P d) :
    P (Dev.fence d c cause) := by
  unfold Dev.fence
  repeat' (first
    | with_reducible assumption
    | with_reducible refine Dev.countUe_keeps (k.mono rfl) ?_
    | with_reducible refine Dev.setCoreState_keeps (k.mono rfl) ?_
    | with_reducible refine Dev.setFld_keeps (k.mono rfl) ?_
    | with_reducible refine Dev.setHmap_keeps (k.mono rfl) ?_
    | with_reducible refine Dev.hmapUpdate_keeps (k.mono rfl) ?_
    | with_reducible refine Dev.logInternal_keeps (k.mono rfl) ?_
    | with_reducible refine Dev.standIns_keeps (k.mono rfl) ?_
    | with_reducible refine Dev.degradeSlots_keeps (k.mono rfl) ?_
    | with_reducible refine Dev.abandonSpills_keeps (k.mono rfl) ?_
    | with_reducible refine Dev.emptyCore_keeps (k.mono rfl) ?_
    | with_reducible refine Dev.waveLeave_keeps (k.mono rfl) ?_
    | with_reducible refine foldl_keeps (fun e x he => ?_) ?_
    | with_reducible refine foldl_fst_keeps (fun e x he => ?_) ?_
    | with_reducible refine foldl_snd_keeps (fun e x he => ?_) ?_
    | ((fail_if_no_progress extract_lets +onlyGivenNames x); refine cut_keeps (A := P x) ?_ (fun hx => ?_); on_goal 1 => subst x)
    | (fail_if_no_progress extract_lets +onlyGivenNames x)
    | split)

theorem Dev.fenceOr_keeps {P : Dev → Prop} {d : Dev} {c : ℕ} {tie : Option Sys2Proof.FenceCause} {f : Dev → Dev} (k : Keeps [.regs, .log, .stk, .fab, .num] P) (hf : ∀ e, P e → P (f e)) (h : P d) :
    P (Dev.fenceOr d c tie f) := by
  unfold Dev.fenceOr
  repeat' (first
    | with_reducible assumption
    | with_reducible refine Dev.fence_keeps (k.mono rfl) ?_
    | with_reducible refine hf _ ?_
    | (fail_if_no_progress extract_lets +onlyGivenNames x)
    | split)

theorem Dev.setTries_keeps {P : Dev → Prop} {d : Dev} {dk : ℕ × ℕ} {n : ℕ} (k : Keeps [.fab] P) (h : P d) :
    P (Dev.setTries d dk n) := by
  unfold Dev.setTries
  repeat' (first | with_reducible assumption | with_reducible refine upd_fab (k.mono rfl) ?_)

theorem Dev.linkLoses_keeps {P : Dev → Prop} {d : Dev} {dk : ℕ × ℕ} (k : Keeps [.fab] P) (h : P d) :
    P (Dev.linkLoses d dk) := by
  unfold Dev.linkLoses
  repeat' (first
    | with_reducible assumption
    | with_reducible refine Dev.setTries_keeps (k.mono rfl) ?_
    | (fail_if_no_progress extract_lets +onlyGivenNames x)
    | split)

theorem Dev.linkRetrain_keeps {P : Dev → Prop} {d : Dev} {dk : ℕ × ℕ} {ok : Bool} (k : Keeps [.regs, .log, .fab, .clk] P) (h : P d) :
    P (Dev.linkRetrain d dk ok) := by
  unfold Dev.linkRetrain
  repeat' (first
    | with_reducible assumption
    | with_reducible refine Dev.count_keeps (k.mono rfl) ?_
    | with_reducible refine Dev.setTries_keeps (k.mono rfl) ?_
    | with_reducible refine Dev.setFld_keeps (k.mono rfl) ?_
    | with_reducible refine Dev.hmapUpdate_keeps (k.mono rfl) ?_
    | with_reducible refine Dev.logInternal_keeps (k.mono rfl) ?_
    | with_reducible refine Dev.hpcGate_keeps (k.mono rfl) ?_
    | ((fail_if_no_progress extract_lets +onlyGivenNames x); refine cut_keeps (A := P x) ?_ (fun hx => ?_); on_goal 1 => subst x)
    | (fail_if_no_progress extract_lets +onlyGivenNames x)
    | split)

theorem Dev.flitArrive_keeps {P : Dev → Prop} {d : Dev} {x : Circuit} {y2 : ℕ} {t : Sys2Proof.Token} (k : Keeps [.regs, .log, .freeCtr, .scr, .store, .stk, .fab, .num, .pwr] P) (h : P d) :
    P (Dev.flitArrive d x y2 t) := by
  unfold Dev.flitArrive
  repeat' (first
    | with_reducible assumption
    | with_reducible refine Dev.entrySend_keeps (k.mono rfl) ?_
    | with_reducible refine Dev.arrive_keeps (k.mono rfl) ?_
    | (fail_if_no_progress extract_lets +onlyGivenNames x)
    | split)

theorem Dev.flitStandIns_keeps {P : Dev → Prop} {d : Dev} {die : ℕ} {p : Circuit × ℕ × ℕ} {lost : List DripTok} (k : Keeps [.regs, .log, .freeCtr, .scr, .store, .stk, .fab, .num, .pwr] P) (h : P d) :
    P (Dev.flitStandIns d die p lost) := by
  unfold Dev.flitStandIns
  repeat' (first
    | with_reducible assumption
    | with_reducible refine Dev.flitArrive_keeps (k.mono rfl) ?_
    | with_reducible refine Dev.count_keeps (k.mono rfl) ?_
    | with_reducible refine foldl_keeps (fun e x he => ?_) ?_)

theorem Dev.flitPass_keeps {P : Dev → Prop} {d : Dev} {y1 : ℕ} {ts : List DripTok} (k : Keeps [.regs, .log, .freeCtr, .scr, .store, .stk, .fab, .num, .pwr] P) (h : P d) :
    P (Dev.flitPass d y1 ts) := by
  unfold Dev.flitPass
  repeat' (first
    | with_reducible assumption
    | with_reducible refine Dev.flitArrive_keeps (k.mono rfl) ?_
    | with_reducible refine Dev.setFlit_keeps (k.mono rfl) ?_
    | with_reducible refine foldl_keeps (fun e x he => ?_) ?_
    | with_reducible refine foldl_fst_keeps (fun e x he => ?_) ?_
    | with_reducible refine foldl_snd_keeps (fun e x he => ?_) ?_
    | (with_reducible refine of_fst ‹_› ?_)
    | (with_reducible refine of_snd ‹_› ?_)
    | (fail_if_no_progress extract_lets +onlyGivenNames x)
    | split)

theorem Dev.flit_keeps {P : Dev → Prop} {d : Dev} {dk : ℕ × ℕ} {toX : Bool} {o : Sys2Proof.FlitOutcome} (k : Keeps [.regs, .log, .freeCtr, .scr, .store, .stk, .fab, .num, .pwr] P) (h : P d) :
    P (Dev.flit d dk toX o) := by
  unfold Dev.flit
  repeat' (first
    | with_reducible assumption
    | with_reducible refine Dev.setFlit_keeps (k.mono rfl) ?_
    | with_reducible refine Dev.flitPass_keeps (k.mono rfl) ?_
    | with_reducible refine Dev.count_keeps (k.mono rfl) ?_
    | with_reducible refine Dev.flitStandIns_keeps (k.mono rfl) ?_
    | with_reducible refine foldl_keeps (fun e x he => ?_) ?_
    | with_reducible refine foldl_fst_keeps (fun e x he => ?_) ?_
    | with_reducible refine foldl_snd_keeps (fun e x he => ?_) ?_
    | ((fail_if_no_progress extract_lets +onlyGivenNames x); refine cut_keeps (A := P x) ?_ (fun hx => ?_); on_goal 1 => subst x)
    | (fail_if_no_progress extract_lets +onlyGivenNames x)
    | split)

theorem Dev.pace_keeps {P : Dev → Prop} {d : Dev} {cl n : Nat} (k : Keeps [.regs, .fab] P) (h : P d) : P (d.pace cl n) := by
  unfold Dev.pace
  extract_lets iv was low d1
  have h1 : P d1 := Dev.setFld_keeps (k.mono rfl) h
  clear_value iv was low d1
  split
  rename_i d2 low2 heq
  have h2 : P d2 := by
    split at heq
    · rename_i d3 die mins _ _
      have h3 : P d3 := ite_keeps (Dev.setFld_keeps (k.mono rfl) h1) h1
      clear_value d3 die mins
      injection heq with heq _
      rw [← heq]
      split
      · exact Dev.setFld_keeps (k.mono rfl) h3
      · exact h3
    · injection heq with heq _
      rw [← heq]; exact h1
  exact upd_fab (k.mono rfl) h2

theorem Dev.dripScan_keeps {P : Dev → Prop} {d : Dev} (k : Keeps [.regs, .fab] P) (h : P d) :
    P (Dev.dripScan d) := by
  unfold Dev.dripScan
  repeat' (first
    | with_reducible assumption
    | with_reducible refine Dev.setDrip_keeps (k.mono rfl) ?_
    | with_reducible refine Dev.setFld_keeps (k.mono rfl) ?_
    | with_reducible refine foldl_keeps (fun e x he => ?_) ?_)

theorem Dev.drainQueue_keeps {P : Dev → Prop} {d : Dev} {q : Endp} (k : Keeps [.fab] P) (h : P d) :
    P (Dev.drainQueue d q).2 := by
  unfold Dev.drainQueue
  repeat' (first
    | with_reducible assumption
    | with_reducible refine Dev.setIq_keeps (k.mono rfl) ?_
    | with_reducible refine Dev.setClosed_keeps (k.mono rfl) ?_
    | with_reducible refine Dev.setCore_keeps (k.mono rfl) ?_
    | with_reducible refine Dev.setBankQ_keeps (k.mono rfl) ?_
    | with_reducible refine Dev.setWaiting_keeps (k.mono rfl) ?_
    | with_reducible refine foldl_keeps (fun e x he => ?_) ?_
    | with_reducible refine foldl_fst_keeps (fun e x he => ?_) ?_
    | with_reducible refine foldl_snd_keeps (fun e x he => ?_) ?_
    | ((fail_if_no_progress extract_lets +onlyGivenNames x); refine cut_keeps (A := P x) ?_ (fun hx => ?_); on_goal 1 => subst x)
    | (fail_if_no_progress extract_lets +onlyGivenNames x)
    | split)

theorem Dev.refillHop_keeps {P : Dev → Prop} {d : Dev} {q : Endp} {t : DripTok} (k : Keeps [.regs, .stk, .fab] P) (h : P d) :
    P (Dev.refillHop d q t) := by
  unfold Dev.refillHop
  repeat' (first
    | with_reducible assumption
    | with_reducible refine Dev.segPush_keeps (k.mono rfl) ?_
    | with_reducible refine Dev.placeAt_keeps (k.mono rfl) ?_
    | (fail_if_no_progress extract_lets +onlyGivenNames x)
    | split)

theorem Dev.refillQueue_keeps {P : Dev → Prop} {d : Dev} {q : Endp} {t : DripTok} (k : Keeps [.regs, .stk, .fab] P) (h : P d) :
    P (Dev.refillQueue d q t) := by
  unfold Dev.refillQueue
  repeat' (first
    | with_reducible assumption
    | with_reducible refine Dev.count_keeps (k.mono rfl) ?_
    | with_reducible refine Dev.setIq_keeps (k.mono rfl) ?_
    | with_reducible refine Dev.setClosed_keeps (k.mono rfl) ?_
    | with_reducible refine Dev.setCore_keeps (k.mono rfl) ?_
    | with_reducible refine Dev.segPush_keeps (k.mono rfl) ?_
    | with_reducible refine Dev.setBankQ_keeps (k.mono rfl) ?_
    | with_reducible refine Dev.refillHop_keeps (k.mono rfl) ?_
    | ((fail_if_no_progress extract_lets +onlyGivenNames x); refine cut_keeps (A := P x) ?_ (fun hx => ?_); on_goal 1 => subst x)
    | (fail_if_no_progress extract_lets +onlyGivenNames x)
    | split)

theorem Dev.dripExpire_keeps {P : Dev → Prop} {d : Dev} {cl : ℕ} {s : ℕ} {tie : Bool} (k : Keeps [.regs, .fab] P) (h : P d) :
    P (Dev.dripExpire d cl s tie) := by
  unfold Dev.dripExpire
  repeat' (first
    | with_reducible assumption
    | with_reducible refine Dev.setDrip_keeps (k.mono rfl) ?_
    | with_reducible refine Dev.count_keeps (k.mono rfl) ?_
    | with_reducible refine foldl_keeps (fun e x he => ?_) ?_
    | with_reducible refine foldl_fst_keeps (fun e x he => ?_) ?_
    | with_reducible refine foldl_snd_keeps (fun e x he => ?_) ?_
    | (fail_if_no_progress extract_lets +onlyGivenNames x)
    | split
    | (clear_value *; split))

theorem Dev.dripSpilled_keeps {P : Dev → Prop} {d : Dev} {cl : ℕ} {s : ℕ} (k : Keeps [.regs, .stk, .fab] P) (h : P d) :
    P (Dev.dripSpilled d cl s) := by
  unfold Dev.dripSpilled
  repeat' (first
    | with_reducible assumption
    | with_reducible refine Dev.drainQueue_keeps (k.mono rfl) ?_
    | with_reducible refine Dev.setDrip_keeps (k.mono rfl) ?_
    | with_reducible refine Dev.setSpill_keeps (k.mono rfl) ?_
    | with_reducible refine Dev.segPush_keeps (k.mono rfl) ?_
    | with_reducible refine Dev.setFld_keeps (k.mono rfl) ?_
    | with_reducible refine Dev.count_keeps (k.mono rfl) ?_
    | with_reducible refine foldl_keeps (fun e x he => ?_) ?_
    | with_reducible refine foldl_fst_keeps (fun e x he => ?_) ?_
    | with_reducible refine foldl_snd_keeps (fun e x he => ?_) ?_
    | (with_reducible refine of_fst ‹_› ?_)
    | (with_reducible refine of_snd ‹_› ?_)
    | (fail_if_no_progress extract_lets +onlyGivenNames x)
    | split)

theorem Dev.dripFail_keeps {P : Dev → Prop} {d : Dev} {cl : ℕ} {j : ℕ} (k : Keeps [.regs, .log, .stk, .fab, .clk] P) (h : P d) :
    P (Dev.dripFail d cl j) := by
  unfold Dev.dripFail
  repeat' (first
    | with_reducible assumption
    | with_reducible refine Dev.stackUe_keeps (k.mono rfl) ?_
    | with_reducible refine Dev.closeSpill_keeps (k.mono rfl) ?_
    | with_reducible refine Dev.count_keeps (k.mono rfl) ?_
    | with_reducible refine Dev.logInternal_keeps (k.mono rfl) ?_
    | ((fail_if_no_progress extract_lets +onlyGivenNames x); refine cut_keeps (A := P x) ?_ (fun hx => ?_); on_goal 1 => subst x)
    | (fail_if_no_progress extract_lets +onlyGivenNames x)
    | split)

theorem Dev.dripRefills_keeps {P : Dev → Prop} {d : Dev} {cl : ℕ} {s : ℕ} {corrected : ℕ} (k : Keeps [.regs, .log, .stk, .fab, .clk] P) (h : P d) :
    P (Dev.dripRefills d cl s corrected) := by
  unfold Dev.dripRefills
  repeat' (first
    | with_reducible assumption
    | with_reducible refine Dev.countN_keeps (k.mono rfl) ?_
    | with_reducible refine Dev.dripFail_keeps (k.mono rfl) ?_
    | with_reducible refine Dev.closeSpill_keeps (k.mono rfl) ?_
    | with_reducible refine Dev.refillQueue_keeps (k.mono rfl) ?_
    | with_reducible refine Dev.dripTransfer_keeps (k.mono rfl) ?_
    | with_reducible refine Dev.setSpill_keeps (k.mono rfl) ?_
    | with_reducible refine foldl_keeps (fun e x he => ?_) ?_
    | with_reducible refine foldl_fst_keeps (fun e x he => ?_) ?_
    | with_reducible refine foldl_snd_keeps (fun e x he => ?_) ?_
    | ((fail_if_no_progress extract_lets +onlyGivenNames x); refine cut_keeps (A := P x) ?_ (fun hx => ?_); on_goal 1 => subst x)
    | (fail_if_no_progress extract_lets +onlyGivenNames x)
    | split)

theorem Dev.dripFullWaits_keeps {P : Dev → Prop} {d : Dev} (k : Keeps [.regs, .fab] P) (h : P d) :
    P (Dev.dripFullWaits d) := by
  unfold Dev.dripFullWaits
  repeat' (first
    | with_reducible assumption
    | with_reducible refine Dev.count_keeps (k.mono rfl) ?_
    | with_reducible refine Dev.setSpill_keeps (k.mono rfl) ?_
    | with_reducible refine foldl_keeps (fun e x he => ?_) ?_
    | with_reducible refine foldl_fst_keeps (fun e x he => ?_) ?_
    | with_reducible refine foldl_snd_keeps (fun e x he => ?_) ?_
    | (fail_if_no_progress extract_lets +onlyGivenNames x)
    | split)

theorem Dev.settleDrip_keeps {P : Dev → Prop} {d : Dev} (k : Keeps [.regs, .log, .stk, .fab] P) (h : P d) :
    P (Dev.settleDrip d) := by
  unfold Dev.settleDrip
  repeat' (first
    | with_reducible assumption
    | with_reducible refine Dev.drainEnds_keeps (k.mono rfl) ?_
    | with_reducible refine Dev.feedUnits_keeps (k.mono rfl) ?_
    | with_reducible refine Dev.dripScan_keeps (k.mono rfl) ?_
    | with_reducible refine Dev.dripFullWaits_keeps (k.mono rfl) ?_)

theorem Dev.crossLink_keeps {P : Dev → Prop} {d : Dev} {l : ℕ} (k : Keeps [.regs, .log, .freeCtr, .scr, .store, .stk, .fab, .num, .pwr] P) (h : P d) :
    P (Dev.crossLink d l) := by
  unfold Dev.crossLink
  repeat' (first
    | with_reducible assumption
    | with_reducible refine Dev.wheelCross_keeps (k.mono rfl) ?_
    | with_reducible refine Dev.settleDrip_keeps (k.mono rfl) ?_
    | (fail_if_no_progress extract_lets +onlyGivenNames x)
    | split)

theorem Dev.issueStep_keeps {P : Dev → Prop} {d : Dev} {c : ℕ} {e : ℕ} {bankWait : ℕ} {rivals : List Sys2Proof.BankUse} {wsFix : ℕ} {cmemFix : ℕ} (k : Keeps [.regs, .log, .freeCtr, .stk, .fab, .num] P) (h : P d) :
    P (Dev.issueStep d c e bankWait rivals wsFix cmemFix) := by
  unfold Dev.issueStep
  repeat' (first
    | with_reducible assumption
    | with_reducible refine Dev.issue_keeps (k.mono rfl) ?_
    | with_reducible refine Dev.banksCycle_keeps (k.mono rfl) ?_
    | with_reducible refine Dev.settleDrip_keeps (k.mono rfl) ?_)

end Sys2Proof.Machine
end

