-- ==== Sys2Proof/Laws/KeepRoller.lean ====
section
/-!
SUPPORT. What the operations of Machine/Roller.lean may change.
-/

namespace Sys2Proof.Machine

open Sys2Proof

theorem Dev.stackPass_keeps {P : Dev → Prop} {d : Dev} {s : ℕ} {n : ℕ} {pass : ℕ} (k : Keeps [.stk] P) (h : P d) :
    P (Dev.stackPass d s n pass) := by
  unfold Dev.stackPass
  repeat' (first
    | with_reducible assumption
    | with_reducible refine Dev.setStack_keeps (k.mono rfl) ?_)

theorem Dev.diePass_keeps {P : Dev → Prop} {d : Dev} {die : ℕ} {n : ℕ} {pass : ℕ} (k : Keeps [.stk] P) (h : P d) :
    P (Dev.diePass d die n pass) := by
  unfold Dev.diePass
  repeat' (first
    | with_reducible assumption
    | with_reducible refine Dev.stackPass_keeps (k.mono rfl) ?_
    | with_reducible refine foldl_keeps (fun e x he => ?_) ?_)

theorem Dev.passStarts_keeps {P : Dev → Prop} {d : Dev} {n : ℕ} (k : Keeps [.stk] P) (h : P d) :
    P (Dev.passStarts d n) := by
  unfold Dev.passStarts
  repeat' (first
    | with_reducible assumption
    | with_reducible refine Dev.diePass_keeps (k.mono rfl) ?_
    | with_reducible refine foldl_keeps (fun e x he => ?_) ?_
    | with_reducible refine foldl_fst_keeps (fun e x he => ?_) ?_
    | with_reducible refine foldl_snd_keeps (fun e x he => ?_) ?_
    | (fail_if_no_progress extract_lets +onlyGivenNames x)
    | split
    | with_reducible refine upd_stk (k.mono rfl) ?_)

theorem Dev.lateNotice_keeps {P : Dev → Prop} {d : Dev} {n : ℕ} {c : ℕ} (k : Keeps [.stk, .fab] P) (h : P d) :
    P (Dev.lateNotice d n c) := by
  unfold Dev.lateNotice
  repeat' (first
    | with_reducible assumption
    | with_reducible refine Dev.postNotice_keeps (k.mono rfl) ?_
    | (fail_if_no_progress extract_lets +onlyGivenNames x)
    | split
    | with_reducible refine upd_stk (k.mono rfl) ?_)

theorem Dev.lateOpens_keeps {P : Dev → Prop} {d : Dev} {n : ℕ} (k : Keeps [.stk, .fab] P) (h : P d) :
    P (Dev.lateOpens d n) := by
  unfold Dev.lateOpens
  repeat' (first
    | with_reducible assumption
    | with_reducible refine Dev.postNotice_keeps (k.mono rfl) ?_
    | with_reducible refine foldl_keeps (fun e x he => ?_) ?_
    | with_reducible refine foldl_fst_keeps (fun e x he => ?_) ?_
    | with_reducible refine foldl_snd_keeps (fun e x he => ?_) ?_
    | (fail_if_no_progress extract_lets +onlyGivenNames x)
    | split
    | with_reducible refine upd_stk (k.mono rfl) ?_)

theorem Dev.latePass_keeps {P : Dev → Prop} {d : Dev} {s : ℕ} {x : Flight} (k : Keeps [.regs, .stk, .fab] P) (h : P d) :
    P (Dev.latePass d s x) := by
  unfold Dev.latePass
  repeat' (first
    | with_reducible assumption
    | with_reducible refine Dev.count_keeps (k.mono rfl) ?_
    | with_reducible refine Dev.lateNotice_keeps (k.mono rfl) ?_
    | with_reducible refine foldl_keeps (fun e x he => ?_) ?_
    | with_reducible refine foldl_fst_keeps (fun e x he => ?_) ?_
    | with_reducible refine foldl_snd_keeps (fun e x he => ?_) ?_
    | ((fail_if_no_progress extract_lets +onlyGivenNames x); refine cut_keeps (A := P x) ?_ (fun hx => ?_); on_goal 1 => subst x)
    | (fail_if_no_progress extract_lets +onlyGivenNames x)
    | split
    | with_reducible refine upd_stk (k.mono rfl) ?_)

theorem Dev.notePass_keeps {P : Dev → Prop} {d : Dev} {s : ℕ} {x : Flight} (k : Keeps [.regs, .stk] P) (h : P d) :
    P (Dev.notePass d s x) := by
  unfold Dev.notePass
  repeat' (first
    | with_reducible assumption
    | with_reducible refine Dev.count_keeps (k.mono rfl) ?_
    | with_reducible refine Dev.wr_keeps (k.mono rfl) ?_
    | ((fail_if_no_progress extract_lets +onlyGivenNames x); refine cut_keeps (A := P x) ?_ (fun hx => ?_); on_goal 1 => subst x)
    | (fail_if_no_progress extract_lets +onlyGivenNames x)
    | split
    | with_reducible refine upd_stk (k.mono rfl) ?_)

theorem Dev.freePass_keeps {P : Dev → Prop} {d : Dev} {s : ℕ} (k : Keeps [.stk] P) (h : P d) :
    P (Dev.freePass d s) := by
  unfold Dev.freePass
  repeat' (first
    | with_reducible assumption
    | with_reducible refine Dev.setStack_keeps (k.mono rfl) ?_
    | (fail_if_no_progress extract_lets +onlyGivenNames x)
    | split
    | with_reducible refine upd_stk (k.mono rfl) ?_)

theorem Dev.slotErrors_keeps {P : Dev → Prop} {d : Dev} {s : ℕ} {corrected : ℕ} {bad : List ℕ} (k : Keeps [.regs, .log, .stk, .clk] P) (h : P d) :
    P (Dev.slotErrors d s corrected bad) := by
  unfold Dev.slotErrors
  repeat' (first
    | with_reducible assumption
    | with_reducible refine Dev.countN_keeps (k.mono rfl) ?_
    | with_reducible refine Dev.stackUes_keeps (k.mono rfl) ?_)

theorem Dev.serveReq_keeps {P : Dev → Prop} {d : Dev} {s : ℕ} {q : OpenReq} {bad : Bool} (k : Keeps [.regs, .stk, .fab] P) (h : P d) :
    P (Dev.serveReq d s q bad) := by
  unfold Dev.serveReq
  repeat' (first
    | with_reducible assumption
    | with_reducible refine Dev.stackWrite_keeps (k.mono rfl) ?_
    | with_reducible refine Dev.reply_keeps (k.mono rfl) ?_
    | (fail_if_no_progress extract_lets +onlyGivenNames x)
    | split)

theorem Dev.openSlot_keeps {P : Dev → Prop} {d : Dev} {s : ℕ} {i : ℕ} {t : ℕ} {waits : List ℕ} {corrected : ℕ} {bad : List ℕ} (k : Keeps [.regs, .log, .stk, .fab, .clk] P) (h : P d) :
    P (Dev.openSlot d s i t waits corrected bad) := by
  unfold Dev.openSlot
  repeat' (first
    | with_reducible assumption
    | with_reducible refine Dev.setStack_keeps (k.mono rfl) ?_
    | with_reducible refine Dev.slotErrors_keeps (k.mono rfl) ?_
    | with_reducible refine Dev.serveReq_keeps (k.mono rfl) ?_
    | (fail_if_no_progress extract_lets +onlyGivenNames x)
    | split)

theorem Dev.flyBlocks_keeps {P : Dev → Prop} {d : Dev} {s : ℕ} {fs : List (Flight × List Sys2Proof.Byte × Bool)} (k : Keeps [.regs, .stk] P) (h : P d) :
    P (Dev.flyBlocks d s fs) := by
  unfold Dev.flyBlocks
  repeat' (first
    | with_reducible assumption
    | with_reducible refine Dev.notePass_keeps (k.mono rfl) ?_
    | with_reducible refine Dev.setStack_keeps (k.mono rfl) ?_
    | with_reducible refine foldl_keeps (fun e x he => ?_) ?_
    | with_reducible refine foldl_fst_keeps (fun e x he => ?_) ?_
    | with_reducible refine foldl_snd_keeps (fun e x he => ?_) ?_
    | (fail_if_no_progress extract_lets +onlyGivenNames x)
    | split
    | with_reducible refine upd_stk (k.mono rfl) ?_)

theorem Dev.takeReads_keeps {P : Dev → Prop} {d : Dev} {p : ℕ} {code : ℕ} {fs : List (Flight × List Sys2Proof.Byte × Bool)} (k : Keeps [.stk] P) (h : P d) :
    P (Dev.takeReads d p code fs) := by
  unfold Dev.takeReads
  repeat' (first
    | with_reducible assumption
    | with_reducible refine Dev.setStack_keeps (k.mono rfl) ?_)

theorem Dev.readSlot_keeps {P : Dev → Prop} {d : Dev} {s : ℕ} {p : ℕ} {code : ℕ} {t : ℕ} {x : Flight} {reserved : Bool} {corrected : ℕ} {bad : List ℕ} (k : Keeps [.regs, .log, .stk, .fab, .clk] P) (h : P d) :
    P (Dev.readSlot d s p code t x reserved corrected bad).1 := by
  unfold Dev.readSlot
  repeat' (first
    | with_reducible assumption
    | with_reducible refine Dev.countIf_keeps (k.mono rfl) ?_
    | with_reducible refine Dev.count_keeps (k.mono rfl) ?_
    | with_reducible refine Dev.takeReads_keeps (k.mono rfl) ?_
    | with_reducible refine Dev.countN_keeps (k.mono rfl) ?_
    | with_reducible refine Dev.flyBlocks_keeps (k.mono rfl) ?_
    | with_reducible refine Dev.slotErrors_keeps (k.mono rfl) ?_
    | with_reducible refine Dev.setStack_keeps (k.mono rfl) ?_
    | with_reducible refine Dev.latePass_keeps (k.mono rfl) ?_
    | ((fail_if_no_progress extract_lets +onlyGivenNames x); refine cut_keeps (A := P x) ?_ (fun hx => ?_); on_goal 1 => subst x)
    | (fail_if_no_progress extract_lets +onlyGivenNames x)
    | split)

theorem Dev.runSlot_keeps {P : Dev → Prop} {d : Dev} {s : ℕ} {i : ℕ} {t : ℕ} {code : ℕ} {waits : List ℕ} {corrected : ℕ} {bad : List ℕ} (k : Keeps [.regs, .log, .stk, .fab, .clk] P) (h : P d) :
    P (Dev.runSlot d s i t code waits corrected bad) := by
  unfold Dev.runSlot
  repeat' (first
    | with_reducible assumption
    | with_reducible refine Dev.openSlot_keeps (k.mono rfl) ?_
    | with_reducible refine Dev.freePass_keeps (k.mono rfl) ?_
    | with_reducible refine Dev.readSlot_keeps (k.mono rfl) ?_
    | (with_reducible refine of_fst ‹_› ?_)
    | (with_reducible refine of_snd ‹_› ?_)
    | ((fail_if_no_progress extract_lets +onlyGivenNames x); refine cut_keeps (A := P x) ?_ (fun hx => ?_); on_goal 1 => subst x)
    | (fail_if_no_progress extract_lets +onlyGivenNames x)
    | split)

theorem Dev.stackSlot_keeps {P : Dev → Prop} {d : Dev} {s : ℕ} {waits : List ℕ} {corrected : ℕ} {bad : List ℕ} (k : Keeps [.regs, .log, .stk, .fab, .clk] P) (h : P d) :
    P (Dev.stackSlot d s waits corrected bad) := by
  unfold Dev.stackSlot
  repeat' (first
    | with_reducible assumption
    | with_reducible refine Dev.setStack_keeps (k.mono rfl) ?_
    | with_reducible refine Dev.runSlot_keeps (k.mono rfl) ?_
    | ((fail_if_no_progress extract_lets +onlyGivenNames x); refine cut_keeps (A := P x) ?_ (fun hx => ?_); on_goal 1 => subst x)
    | (fail_if_no_progress extract_lets +onlyGivenNames x)
    | split)

theorem Dev.useGrant_keeps {P : Dev → Prop} {d : Dev} {s : ℕ} (k : Keeps [.stk] P) (h : P d) :
    P (Dev.useGrant d s) := by
  unfold Dev.useGrant
  repeat' (first | with_reducible assumption | with_reducible refine Dev.setStack_keeps (k.mono rfl) ?_)

theorem Dev.blockStaged_keeps {P : Dev → Prop} {d : Dev} {c : ℕ} (k : Keeps [.stk, .fab] P) (h : P d) :
    P (Dev.blockStaged d c) := by
  unfold Dev.blockStaged
  repeat' (first
    | with_reducible assumption
    | with_reducible refine Dev.setStack_keeps (k.mono rfl) ?_
    | with_reducible refine Dev.wsWrite_keeps (k.mono rfl) ?_
    | with_reducible refine Dev.setCore_keeps (k.mono rfl) ?_
    | ((fail_if_no_progress extract_lets +onlyGivenNames x); refine cut_keeps (A := P x) ?_ (fun hx => ?_); on_goal 1 => subst x)
    | (fail_if_no_progress extract_lets +onlyGivenNames x)
    | split)

theorem Dev.refreshBank_keeps {P : Dev → Prop} {d : Dev} {s : ℕ} {b : ℕ} (k : Keeps [.regs, .stk] P) (h : P d) :
    P (Dev.refreshBank d s b) := by
  unfold Dev.refreshBank
  repeat' (first
    | with_reducible assumption
    | with_reducible refine Dev.countIf_keeps (k.mono rfl) ?_
    | with_reducible refine Dev.setStack_keeps (k.mono rfl) ?_
    | ((fail_if_no_progress extract_lets +onlyGivenNames x); refine cut_keeps (A := P x) ?_ (fun hx => ?_); on_goal 1 => subst x)
    | (fail_if_no_progress extract_lets +onlyGivenNames x)
    | split)

theorem Dev.retrainStack_keeps {P : Dev → Prop} {d : Dev} {s : ℕ} {n : ℕ} (k : Keeps [.regs, .stk, .fab] P) (h : P d) :
    P (Dev.retrainStack d s n) := by
  unfold Dev.retrainStack
  repeat' (first
    | with_reducible assumption
    | with_reducible refine Dev.setStack_keeps (k.mono rfl) ?_
    | with_reducible refine Dev.countN_keeps (k.mono rfl) ?_
    | with_reducible refine Dev.latePass_keeps (k.mono rfl) ?_
    | with_reducible refine foldl_keeps (fun e x he => ?_) ?_
    | with_reducible refine foldl_fst_keeps (fun e x he => ?_) ?_
    | with_reducible refine foldl_snd_keeps (fun e x he => ?_) ?_
    | ((fail_if_no_progress extract_lets +onlyGivenNames x); refine cut_keeps (A := P x) ?_ (fun hx => ?_); on_goal 1 => subst x)
    | (fail_if_no_progress extract_lets +onlyGivenNames x)
    | split)

theorem Dev.mirrorTakes_keeps {P : Dev → Prop} {d : Dev} {s : ℕ} (k : Keeps [.regs] P) (h : P d) :
    P (Dev.mirrorTakes d s) := by
  unfold Dev.mirrorTakes
  repeat' (first
    | with_reducible assumption
    | with_reducible refine Dev.setFld_keeps (k.mono rfl) ?_
    | with_reducible refine foldl_keeps (fun e x he => ?_) ?_
    | with_reducible refine foldl_fst_keeps (fun e x he => ?_) ?_
    | with_reducible refine foldl_snd_keeps (fun e x he => ?_) ?_
    | (fail_if_no_progress extract_lets +onlyGivenNames x)
    | split)

theorem Dev.stackFails_keeps {P : Dev → Prop} {d : Dev} {s : ℕ} (k : Keeps [.regs, .log, .stk, .clk] P) (h : P d) :
    P (Dev.stackFails d s) := by
  unfold Dev.stackFails
  repeat' (first
    | with_reducible assumption
    | with_reducible refine Dev.stackFail_keeps (k.mono rfl) ?_
    | with_reducible refine Dev.degradeSlots_keeps (k.mono rfl) ?_
    | ((fail_if_no_progress extract_lets +onlyGivenNames x); refine cut_keeps (A := P x) ?_ (fun hx => ?_); on_goal 1 => subst x)
    | (fail_if_no_progress extract_lets +onlyGivenNames x)
    | split)

end Sys2Proof.Machine
end

