-- ==== Sys2Proof/Laws/KeepEvent.lean ====
section
/-!
SUPPORT. What the operations of Machine/Event.lean may change.
-/

namespace Sys2Proof.Machine

open Sys2Proof

theorem Dev.circEntries_keeps {P : Dev → Prop} {d : Dev} {n : ℕ} {missing : List ℕ} {x : Circuit} (k : Keeps [.regs, .freeCtr, .stk, .fab] P) (h : P d) :
    P (Dev.circEntries d n missing x) := by
  unfold Dev.circEntries
  repeat' (first
    | with_reducible assumption
    | with_reducible refine Dev.open_keeps (k.mono rfl) ?_
    | with_reducible refine Dev.entryTokens_keeps (k.mono rfl) ?_
    | (with_reducible refine of_fst ‹_› ?_)
    | (with_reducible refine of_snd ‹_› ?_)
    | (fail_if_no_progress extract_lets +onlyGivenNames x)
    | split)

theorem Dev.admission_keeps {P : Dev → Prop} {d : Dev} {n : ℕ} {tie : Bool} (k : Keeps [.regs, .log, .freeCtr, .prm, .scr, .acq, .store, .stk, .fab, .num, .pwr] P) (h : P d) :
    P (Dev.admission d n tie) := by
  unfold Dev.admission
  repeat' (first
    | with_reducible assumption
    | with_reducible refine Dev.countIf_keeps (k.mono rfl) ?_
    | with_reducible refine Dev.meetAll_keeps (k.mono rfl) ?_
    | with_reducible refine Dev.judgeDead_keeps (k.mono rfl) ?_
    | with_reducible refine Dev.latchDead_keeps (k.mono rfl) ?_
    | with_reducible refine Dev.ringAdmit_keeps (k.mono rfl) ?_
    | with_reducible refine Dev.passStarts_keeps (k.mono rfl) ?_
    | with_reducible refine Dev.fencedEvent_keeps (k.mono rfl) ?_
    | with_reducible refine Dev.lostEvent_keeps (k.mono rfl) ?_
    | with_reducible refine Dev.circEntries_keeps (k.mono rfl) ?_
    | with_reducible refine Dev.measure_keeps (k.mono rfl) ?_
    | with_reducible refine Dev.putEv_keeps (k.mono rfl) ?_
    | with_reducible refine Dev.trimSpans_keeps (k.mono rfl) ?_
    | with_reducible refine foldl_keeps (fun e x he => ?_) ?_
    | with_reducible refine foldl_fst_keeps (fun e x he => ?_) ?_
    | with_reducible refine foldl_snd_keeps (fun e x he => ?_) ?_
    | (with_reducible refine of_fst ‹_› ?_)
    | (with_reducible refine of_snd ‹_› ?_)
    | ((fail_if_no_progress extract_lets +onlyGivenNames x); refine cut_keeps (A := P x) ?_ (fun hx => ?_); on_goal 1 => subst x)
    | (fail_if_no_progress extract_lets +onlyGivenNames x)
    | split
    | with_reducible refine upd_scr (k.mono rfl) id ?_)

theorem Dev.localDeadline_keeps {P : Dev → Prop} {d : Dev} {n : ℕ} {tie : Bool} (k : Keeps [.regs, .outbox, .ing, .scr] P) (h : P d) :
    P (Dev.localDeadline d n tie) := by
  unfold Dev.localDeadline
  repeat' (first
    | with_reducible assumption
    | with_reducible refine Dev.decideEvent_keeps (k.mono rfl) ?_
    | with_reducible refine Dev.putEv_keeps (k.mono rfl) ?_
    | with_reducible refine Dev.sendContrib_keeps (k.mono rfl) ?_
    | (with_reducible refine of_fst ‹_› ?_)
    | (with_reducible refine of_snd ‹_› ?_)
    | ((fail_if_no_progress extract_lets +onlyGivenNames x); refine cut_keeps (A := P x) ?_ (fun hx => ?_); on_goal 1 => subst x)
    | (fail_if_no_progress extract_lets +onlyGivenNames x)
    | split)

theorem Dev.collectionClose_keeps {P : Dev → Prop} {d : Dev} {n : ℕ} {tie : Bool} (k : Keeps [.scr] P) (h : P d) :
    P (Dev.collectionClose d n tie) := by
  unfold Dev.collectionClose
  repeat' (first
    | with_reducible assumption
    | with_reducible refine Dev.putEv_keeps (k.mono rfl) ?_
    | (fail_if_no_progress extract_lets +onlyGivenNames x)
    | split)

theorem Dev.groupResult_keeps {P : Dev → Prop} {d : Dev} {n : ℕ} (k : Keeps [.scr] P) (h : P d) :
    P (Dev.groupResult d n) := by
  unfold Dev.groupResult
  repeat' (first
    | with_reducible assumption
    | with_reducible refine Dev.putEv_keeps (k.mono rfl) ?_
    | (fail_if_no_progress extract_lets +onlyGivenNames x)
    | split)

theorem Dev.recordEvent_keeps {P : Dev → Prop} {d : Dev} {e : Ev} {w : BitVec 64} {c : BitVec 64} (k : Keeps [.regs, .freeCtr, .scr, .acq, .store] P) (h : P d) :
    P (Dev.recordEvent d e w c) := by
  unfold Dev.recordEvent
  repeat' (first
    | with_reducible assumption
    | with_reducible refine Dev.countDropped_keeps (k.mono rfl) ?_
    | with_reducible refine Dev.plainRecord_keeps (k.mono rfl) ?_
    | with_reducible refine Dev.requestCapture_keeps (k.mono rfl) ?_
    | with_reducible refine foldl_keeps (fun e x he => ?_) ?_
    | with_reducible refine foldl_fst_keeps (fun e x he => ?_) ?_
    | with_reducible refine foldl_snd_keeps (fun e x he => ?_) ?_
    | (fail_if_no_progress extract_lets +onlyGivenNames x)
    | split)

theorem Dev.countRelease_keeps {P : Dev → Prop} {d : Dev} {e : Ev} {w : BitVec 64} (k : Keeps [.regs, .scr] P) (h : P d) :
    P (Dev.countRelease d e w) := by
  unfold Dev.countRelease
  repeat' (first
    | with_reducible assumption
    | with_reducible refine Dev.count_keeps (k.mono rfl) ?_
    | with_reducible refine Dev.countIf_keeps (k.mono rfl) ?_
    | with_reducible refine Dev.rfMod_keeps (k.mono rfl) ?_)

theorem Dev.release_keeps {P : Dev → Prop} {d : Dev} {n : ℕ} {tie : Bool} (k : Keeps [.regs, .log, .freeCtr, .outbox, .ing, .prm, .scr, .acq, .store, .msh, .hst] P) (h : P d) :
    P (Dev.release d n tie) := by
  unfold Dev.release
  repeat' (first
    | with_reducible assumption
    | with_reducible refine Dev.decideEvent_keeps (k.mono rfl) ?_
    | with_reducible refine Dev.putEv_keeps (k.mono rfl) ?_
    | with_reducible refine Dev.emit_keeps (k.mono rfl) ?_
    | with_reducible refine Dev.decAssert_keeps (k.mono rfl) ?_
    | with_reducible refine Dev.countRelease_keeps (k.mono rfl) ?_
    | with_reducible refine Dev.showHeadroom_keeps (k.mono rfl) ?_
    | with_reducible refine Dev.recordEvent_keeps (k.mono rfl) ?_
    | with_reducible refine Dev.addSummary_keeps (k.mono rfl) ?_
    | with_reducible refine Dev.dropWords_keeps (k.mono rfl) ?_
    | with_reducible refine foldl_keeps (fun e x he => ?_) ?_
    | with_reducible refine foldl_fst_keeps (fun e x he => ?_) ?_
    | with_reducible refine foldl_snd_keeps (fun e x he => ?_) ?_
    | (with_reducible refine of_fst ‹_› ?_)
    | (with_reducible refine of_snd ‹_› ?_)
    | (fail_if_no_progress extract_lets +onlyGivenNames x)
    | split
    | with_reducible refine upd_scr (k.mono rfl) id ?_)

theorem Dev.clearSlot_keeps {P : Dev → Prop} {d : Dev} {n : ℕ} (k : Keeps [.regs, .log, .freeCtr, .outbox, .ing, .prm, .scr, .acq, .store, .stk, .msh, .hst, .fab, .num, .pwr] P) (h : P d) :
    P (Dev.clearSlot d n) := by
  unfold Dev.clearSlot
  repeat' (first
    | with_reducible assumption
    | with_reducible refine Dev.release_keeps (k.mono rfl) ?_
    | with_reducible refine Dev.admission_keeps (k.mono rfl) ?_
    | (fail_if_no_progress extract_lets +onlyGivenNames x)
    | split)

theorem Dev.windowOpen_keeps {P : Dev → Prop} {d : Dev} {n : ℕ} (k : Keeps [.regs, .log, .freeCtr, .outbox, .ing, .prm, .scr, .acq, .store, .stk, .msh, .hst, .fab, .num, .pwr] P) (h : P d) :
    P (Dev.windowOpen d n) := by
  unfold Dev.windowOpen
  repeat' (first
    | with_reducible assumption
    | with_reducible refine Dev.clearSlot_keeps (k.mono rfl) ?_
    | with_reducible refine Dev.effectBoundary_keeps (k.mono rfl) ?_
    | with_reducible refine Dev.putEv_keeps (k.mono rfl) ?_
    | with_reducible refine Dev.lateOpens_keeps (k.mono rfl) ?_
    | ((fail_if_no_progress extract_lets +onlyGivenNames x); refine cut_keeps (A := P x) ?_ (fun hx => ?_); on_goal 1 => subst x)
    | (fail_if_no_progress extract_lets +onlyGivenNames x)
    | split
    | with_reducible refine upd_scr (k.mono rfl) id ?_)

theorem Dev.rateFrame_keeps {P : Dev → Prop} {d : Dev} {m : ℕ} (k : Keeps [.regs, .outbox, .scr] P) (h : P d) :
    P (Dev.rateFrame d m) := by
  unfold Dev.rateFrame
  repeat' (first
    | with_reducible assumption
    | with_reducible refine Dev.emit_keeps (k.mono rfl) ?_
    | with_reducible refine Dev.count_keeps (k.mono rfl) ?_
    | with_reducible refine foldl_keeps (fun e x he => ?_) ?_
    | with_reducible refine foldl_fst_keeps (fun e x he => ?_) ?_
    | with_reducible refine foldl_snd_keeps (fun e x he => ?_) ?_
    | ((fail_if_no_progress extract_lets +onlyGivenNames x); refine cut_keeps (A := P x) ?_ (fun hx => ?_); on_goal 1 => subst x)
    | (fail_if_no_progress extract_lets +onlyGivenNames x)
    | split
    | with_reducible refine upd_scr (k.mono rfl) id ?_)

theorem Dev.moveV_keeps {P : Dev → Prop} {d : Dev} {v : ℕ} {c : SetChange} (k : Keeps [.regs, .pwr] P) (h : P d) :
    P (Dev.moveV d v c) := by
  unfold Dev.moveV
  repeat' (first
    | with_reducible assumption
    | with_reducible refine Dev.setV_keeps (k.mono rfl) ?_
    | (fail_if_no_progress extract_lets +onlyGivenNames x)
    | split
    | with_reducible refine upd_pwr (k.mono rfl) ?_)

theorem Dev.pinStep_keeps {P : Dev → Prop} {d : Dev} (k : Keeps [.regs, .pwr] P) (h : P d) :
    P (Dev.pinStep d) := by
  unfold Dev.pinStep
  repeat' (first
    | with_reducible assumption
    | with_reducible refine Dev.moveV_keeps (k.mono rfl) ?_
    | (fail_if_no_progress extract_lets +onlyGivenNames x)
    | split
    | with_reducible refine upd_pwr (k.mono rfl) ?_)

theorem Dev.pinNow_keeps {P : Dev → Prop} {d : Dev} (k : Keeps [.regs, .pwr] P) (h : P d) :
    P (Dev.pinNow d) := by
  unfold Dev.pinNow
  repeat' (first
    | with_reducible assumption
    | with_reducible refine Dev.setFld_keeps (k.mono rfl) ?_
    | with_reducible refine Dev.pinStep_keeps (k.mono rfl) ?_
    | (fail_if_no_progress extract_lets +onlyGivenNames x)
    | split
    | with_reducible refine upd_pwr (k.mono rfl) ?_)

theorem Dev.pinWritten_keeps {P : Dev → Prop} {d : Dev} (k : Keeps [.regs, .pwr] P) (h : P d) :
    P (Dev.pinWritten d) := by
  unfold Dev.pinWritten
  repeat' (first
    | with_reducible assumption
    | with_reducible refine Dev.pinNow_keeps (k.mono rfl) ?_
    | with_reducible refine Dev.setFld_keeps (k.mono rfl) ?_
    | ((fail_if_no_progress extract_lets +onlyGivenNames x); refine cut_keeps (A := P x) ?_ (fun hx => ?_); on_goal 1 => subst x)
    | (fail_if_no_progress extract_lets +onlyGivenNames x)
    | split
    | with_reducible refine upd_pwr (k.mono rfl) ?_)

theorem Dev.setpointRaise_keeps {P : Dev → Prop} {d : Dev} {n : ℕ} (k : Keeps [.regs, .pwr] P) (h : P d) :
    P (Dev.setpointRaise d n) := by
  unfold Dev.setpointRaise
  repeat' (first
    | with_reducible assumption
    | with_reducible refine Dev.countIf_keeps (k.mono rfl) ?_
    | with_reducible refine Dev.count_keeps (k.mono rfl) ?_
    | with_reducible refine Dev.moveV_keeps (k.mono rfl) ?_
    | ((fail_if_no_progress extract_lets +onlyGivenNames x); refine cut_keeps (A := P x) ?_ (fun hx => ?_); on_goal 1 => subst x)
    | (fail_if_no_progress extract_lets +onlyGivenNames x)
    | split
    | with_reducible refine upd_pwr (k.mono rfl) ?_)

theorem Dev.setpointSettled_keeps {P : Dev → Prop} {d : Dev} (k : Keeps [.regs, .pwr] P) (h : P d) :
    P (Dev.setpointSettled d) := by
  unfold Dev.setpointSettled
  repeat' (first
    | with_reducible assumption
    | with_reducible refine Dev.pinNow_keeps (k.mono rfl) ?_
    | with_reducible refine Dev.pinStep_keeps (k.mono rfl) ?_
    | ((fail_if_no_progress extract_lets +onlyGivenNames x); refine cut_keeps (A := P x) ?_ (fun hx => ?_); on_goal 1 => subst x)
    | (fail_if_no_progress extract_lets +onlyGivenNames x)
    | split
    | with_reducible refine upd_pwr (k.mono rfl) ?_)

theorem Dev.headroomWindow_keeps {P : Dev → Prop} {d : Dev} (k : Keeps [.regs, .scr, .pwr] P) (h : P d) :
    P (Dev.headroomWindow d) := by
  unfold Dev.headroomWindow
  repeat' (first
    | with_reducible assumption
    | with_reducible refine Dev.setFld_keeps (k.mono rfl) ?_
    | with_reducible refine Dev.setV_keeps (k.mono rfl) ?_
    | with_reducible refine Dev.moveV_keeps (k.mono rfl) ?_
    | with_reducible refine Dev.count_keeps (k.mono rfl) ?_
    | ((fail_if_no_progress extract_lets +onlyGivenNames x); refine cut_keeps (A := P x) ?_ (fun hx => ?_); on_goal 1 => subst x)
    | (fail_if_no_progress extract_lets +onlyGivenNames x)
    | split
    | with_reducible refine upd_scr_pwr (k.mono rfl) id ?_)

theorem Dev.arm_keeps {P : Dev → Prop} {d : Dev} (k : Keeps [.regs, .scr, .acq] P) (h : P d) :
    P (Dev.arm d) := by
  unfold Dev.arm
  repeat' (first
    | with_reducible assumption
    | with_reducible refine Dev.armScreed_keeps (k.mono rfl) ?_
    | with_reducible refine Dev.ringsBegin_keeps (k.mono rfl) ?_
    | with_reducible refine Dev.coresRun_keeps (k.mono rfl) ?_
    | with_reducible refine Dev.setV_keeps (k.mono rfl) ?_
    | with_reducible refine Dev.setFld_keeps (k.mono rfl) ?_
    | ((fail_if_no_progress extract_lets +onlyGivenNames x); refine cut_keeps (A := P x) ?_ (fun hx => ?_); on_goal 1 => subst x)
    | (fail_if_no_progress extract_lets +onlyGivenNames x)
    | split)

theorem Dev.safeEntry_keeps {P : Dev → Prop} {d : Dev} {rows : List ℕ} (k : Keeps [.regs, .log, .scr] P) (h : P d) :
    P (Dev.safeEntry d rows) := by
  unfold Dev.safeEntry
  repeat' (first
    | with_reducible assumption
    | with_reducible refine Dev.count_keeps (k.mono rfl) ?_
    | with_reducible refine Dev.putEv_keeps (k.mono rfl) ?_
    | with_reducible refine Dev.setMode_keeps (k.mono rfl) ?_
    | with_reducible refine Dev.setFld_keeps (k.mono rfl) ?_
    | with_reducible refine Dev.setV_keeps (k.mono rfl) ?_
    | with_reducible refine Dev.logInternal_keeps (k.mono rfl) ?_
    | with_reducible refine foldl_keeps (fun e x he => ?_) ?_
    | with_reducible refine foldl_fst_keeps (fun e x he => ?_) ?_
    | with_reducible refine foldl_snd_keeps (fun e x he => ?_) ?_
    | ((fail_if_no_progress extract_lets +onlyGivenNames x); refine cut_keeps (A := P x) ?_ (fun hx => ?_); on_goal 1 => subst x)
    | (fail_if_no_progress extract_lets +onlyGivenNames x)
    | split
    | with_reducible refine upd_scr (k.mono rfl) id ?_)

end Sys2Proof.Machine
end

