-- ==== Sys2Proof/Laws/KeepImage.lean ====
section
/-!
SUPPORT. What the operations of Machine/Image.lean may change.
-/

namespace Sys2Proof.Machine

open Sys2Proof

theorem Dev.burn_keeps {P : Dev → Prop} {d : Dev} {w : ℕ} {b : ℕ} (k : Keeps [.boot] P) (h : P d) :
    P (Dev.burn d w b) := by
  unfold Dev.burn
  repeat' (first
    | with_reducible assumption
    | (fail_if_no_progress extract_lets +onlyGivenNames x)
    | split
    | with_reducible refine upd_boot (k.mono rfl) ?_)

theorem Dev.primerWrite_keeps {P : Dev → Prop} {d : Dev} {r : ℕ × ℕ} (k : Keeps [.regs] P) (h : P d) :
    P (Dev.primerWrite d r) := by
  unfold Dev.primerWrite
  repeat' (first
    | with_reducible assumption
    | with_reducible refine Dev.wr_keeps (k.mono rfl) ?_
    | (fail_if_no_progress extract_lets +onlyGivenNames x)
    | split)

end Sys2Proof.Machine
end

