-- ==== Sys2Proof/Laws/KeepClocks.lean ====
section
/-!
SUPPORT. What the operations of Machine/Clocks.lean may change.
-/

namespace Sys2Proof.Machine

open Sys2Proof

theorem Dev.setResult_keeps {P : Dev → Prop} {d : Dev} {o : Sys2Proof.Origin} {w : ℕ} (k : Keeps [.log] P) (h : P d) :
    P (Dev.setResult d o w) := by
  unfold Dev.setResult
  repeat' (first | with_reducible assumption | with_reducible refine upd_log (k.mono rfl) id ?_)

theorem Dev.liveEntry_keeps {P : Dev → Prop} {d : Dev} {o : Sys2Proof.Origin} {a : ℕ} {old : ℕ} {new : ℕ} {st : Status} (k : Keeps [.regs, .log] P) (h : P d) :
    P (Dev.liveEntry d o a old new st) := by
  unfold Dev.liveEntry
  repeat' (first
    | with_reducible assumption
    | with_reducible refine Dev.countIf_keeps (k.mono rfl) ?_
    | with_reducible refine Dev.count_keeps (k.mono rfl) ?_
    | with_reducible refine Dev.setResult_keeps (k.mono rfl) ?_
    | with_reducible refine Dev.logWrite_keeps (k.mono rfl) ?_
    | ((fail_if_no_progress extract_lets +onlyGivenNames x); refine cut_keeps (A := P x) ?_ (fun hx => ?_); on_goal 1 => subst x)
    | (fail_if_no_progress extract_lets +onlyGivenNames x)
    | split)

theorem Dev.setDom_keeps {P : Dev → Prop} {d : Dev} {y1 : ℕ} {b : Bool} (k : Keeps [.regs] P) (h : P d) :
    P (Dev.setDom d y1 b) := by
  unfold Dev.setDom
  repeat' (first
    | with_reducible assumption
    | with_reducible refine Dev.wr_keeps (k.mono rfl) ?_
    | (fail_if_no_progress extract_lets +onlyGivenNames x)
    | split)

theorem Dev.nextDom_keeps {P : Dev → Prop} {d : Dev} (k : Keeps [.regs] P) (h : P d) :
    P (Dev.nextDom d) := by
  unfold Dev.nextDom
  repeat' (first
    | with_reducible assumption
    | with_reducible refine Dev.setDom_keeps (k.mono rfl) ?_
    | (fail_if_no_progress extract_lets +onlyGivenNames x)
    | split)

theorem Dev.domsDue_keeps {P : Dev → Prop} {d : Dev} {step : ℕ} (k : Keeps [.regs, .pwr] P) (h : P d) :
    P (Dev.domsDue d step) := by
  unfold Dev.domsDue
  repeat' (first
    | with_reducible assumption
    | with_reducible refine Dev.nextDom_keeps (k.mono rfl) ?_
    | (fail_if_no_progress extract_lets +onlyGivenNames x)
    | split
    | with_reducible refine upd_pwr (k.mono rfl) ?_)

theorem Dev.powerGood_keeps {P : Dev → Prop} {d : Dev} (k : Keeps [.regs, .pwr] P) (h : P d) :
    P (Dev.powerGood d) := by
  unfold Dev.powerGood
  repeat' (first
    | with_reducible assumption
    | with_reducible refine Dev.nextDom_keeps (k.mono rfl) ?_
    | with_reducible refine upd_pwr (k.mono rfl) ?_)

theorem Dev.domsOff_keeps {P : Dev → Prop} {d : Dev} {ks : List ℕ} (k : Keeps [.regs, .pwr] P) (h : P d) :
    P (Dev.domsOff d ks) := by
  unfold Dev.domsOff
  repeat' (first
    | with_reducible assumption
    | with_reducible refine Dev.setDom_keeps (k.mono rfl) ?_
    | with_reducible refine foldl_keeps (fun e x he => ?_) ?_
    | with_reducible refine foldl_fst_keeps (fun e x he => ?_) ?_
    | with_reducible refine foldl_snd_keeps (fun e x he => ?_) ?_
    | (fail_if_no_progress extract_lets +onlyGivenNames x)
    | split
    | with_reducible refine upd_pwr (k.mono rfl) ?_)

theorem Dev.outputsIdle_keeps {P : Dev → Prop} {d : Dev} (k : Keeps [.outbox, .scr, .tms] P) (h : P d) :
    P (Dev.outputsIdle d) := by
  unfold Dev.outputsIdle
  repeat' (first
    | with_reducible assumption
    | with_reducible refine Dev.setDecEnd_keeps (k.mono rfl) ?_
    | with_reducible refine Dev.emit_keeps (k.mono rfl) ?_
    | with_reducible refine Dev.setGen_keeps (k.mono rfl) ?_
    | with_reducible refine foldl_keeps (fun e x he => ?_) ?_
    | with_reducible refine foldl_fst_keeps (fun e x he => ?_) ?_
    | with_reducible refine foldl_snd_keeps (fun e x he => ?_) ?_
    | (fail_if_no_progress extract_lets +onlyGivenNames x)
    | split)

theorem Dev.enterFault_keeps {P : Dev → Prop} {d : Dev} (k : Keeps [.regs, .outbox, .scr, .tms, .pwr] P) (h : P d) :
    P (Dev.enterFault d) := by
  unfold Dev.enterFault
  repeat' (first
    | with_reducible assumption
    | with_reducible refine Dev.setMode_keeps (k.mono rfl) ?_
    | with_reducible refine Dev.outputsIdle_keeps (k.mono rfl) ?_
    | with_reducible refine Dev.domsOff_keeps (k.mono rfl) ?_
    | ((fail_if_no_progress extract_lets +onlyGivenNames x); refine cut_keeps (A := P x) ?_ (fun hx => ?_); on_goal 1 => subst x)
    | (fail_if_no_progress extract_lets +onlyGivenNames x)
    | split)

theorem Dev.supplyRead_keeps {P : Dev → Prop} {d : Dev} {rails : List (BitVec 10)} {watts : BitVec 16} (k : Keeps [.regs] P) (h : P d) :
    P (Dev.supplyRead d rails watts) := by
  unfold Dev.supplyRead
  repeat' (first
    | with_reducible assumption
    | with_reducible refine Dev.setFld_keeps (k.mono rfl) ?_
    | with_reducible refine foldl_keeps (fun e x he => ?_) ?_
    | with_reducible refine foldl_fst_keeps (fun e x he => ?_) ?_
    | with_reducible refine foldl_snd_keeps (fun e x he => ?_) ?_
    | (fail_if_no_progress extract_lets +onlyGivenNames x)
    | split)

theorem Dev.temperatures_keeps {P : Dev → Prop} {d : Dev} {dies : List Sys2Proof.Byte} {stks : List Sys2Proof.Byte} {mods : List Sys2Proof.Byte} (k : Keeps [.regs, .log, .outbox, .scr, .tms, .pwr] P) (h : P d) :
    P (Dev.temperatures d dies stks mods) := by
  unfold Dev.temperatures
  repeat' (first
    | with_reducible assumption
    | with_reducible refine Dev.setFld_keeps (k.mono rfl) ?_
    | with_reducible refine Dev.logInternal_keeps (k.mono rfl) ?_
    | with_reducible refine Dev.enterFault_keeps (k.mono rfl) ?_
    | with_reducible refine foldl_keeps (fun e x he => ?_) ?_
    | with_reducible refine foldl_fst_keeps (fun e x he => ?_) ?_
    | with_reducible refine foldl_snd_keeps (fun e x he => ?_) ?_
    | ((fail_if_no_progress extract_lets +onlyGivenNames x); refine cut_keeps (A := P x) ?_ (fun hx => ?_); on_goal 1 => subst x)
    | (fail_if_no_progress extract_lets +onlyGivenNames x)
    | split)

theorem Dev.setOscLost_keeps {P : Dev → Prop} {d : Dev} {b : Bool} (k : Keeps [.regs] P) (h : P d) :
    P (Dev.setOscLost d b) := by
  unfold Dev.setOscLost
  repeat' (first | with_reducible assumption | with_reducible refine Dev.wr_keeps (k.mono rfl) ?_)

theorem Dev.islandsDrop_keeps {P : Dev → Prop} {d : Dev} {ls : List ℕ} (k : Keeps [.regs, .ing, .tms] P) (h : P d) :
    P (Dev.islandsDrop d ls) := by
  unfold Dev.islandsDrop
  repeat' (first
    | with_reducible assumption
    | with_reducible refine Dev.laneCount_keeps (k.mono rfl) ?_
    | with_reducible refine Dev.newTry_keeps (k.mono rfl) ?_
    | with_reducible refine Dev.portsSync_keeps (k.mono rfl) ?_
    | with_reducible refine foldl_keeps (fun e x he => ?_) ?_
    | with_reducible refine foldl_fst_keeps (fun e x he => ?_) ?_
    | with_reducible refine foldl_snd_keeps (fun e x he => ?_) ?_
    | ((fail_if_no_progress extract_lets +onlyGivenNames x); refine cut_keeps (A := P x) ?_ (fun hx => ?_); on_goal 1 => subst x)
    | (fail_if_no_progress extract_lets +onlyGivenNames x)
    | split
    | with_reducible refine upd_tms (k.mono rfl) ?_)

theorem Dev.unlock_keeps {P : Dev → Prop} {d : Dev} {ls : List ℕ} {loss : Bool} (k : Keeps [.regs, .ing, .tms, .clk] P) (h : P d) :
    P (Dev.unlock d ls loss) := by
  unfold Dev.unlock
  repeat' (first
    | with_reducible assumption
    | with_reducible refine Dev.wr_keeps (k.mono rfl) ?_
    | with_reducible refine Dev.islandsDrop_keeps (k.mono rfl) ?_
    | with_reducible refine foldl_keeps (fun e x he => ?_) ?_
    | with_reducible refine foldl_fst_keeps (fun e x he => ?_) ?_
    | with_reducible refine foldl_snd_keeps (fun e x he => ?_) ?_
    | (fail_if_no_progress extract_lets +onlyGivenNames x)
    | split
    | with_reducible refine upd_clk (k.mono rfl) ?_)

theorem Dev.loopLock_keeps {P : Dev → Prop} {d : Dev} {i : ℕ} (k : Keeps [.regs, .clk] P) (h : P d) :
    P (Dev.loopLock d i) := by
  unfold Dev.loopLock
  repeat' (first
    | with_reducible assumption
    | with_reducible refine Dev.wr_keeps (k.mono rfl) ?_
    | ((fail_if_no_progress extract_lets +onlyGivenNames x); refine cut_keeps (A := P x) ?_ (fun hx => ?_); on_goal 1 => subst x)
    | (fail_if_no_progress extract_lets +onlyGivenNames x)
    | split
    | with_reducible refine upd_clk (k.mono rfl) ?_)

theorem Dev.loopFails_keeps {P : Dev → Prop} {d : Dev} {i : ℕ} (k : Keeps [.regs] P) (h : P d) :
    P (Dev.loopFails d i) := by
  unfold Dev.loopFails
  repeat' (first
    | with_reducible assumption
    | with_reducible refine Dev.wr_keeps (k.mono rfl) ?_
    | with_reducible refine Dev.setOscLost_keeps (k.mono rfl) ?_
    | with_reducible refine Dev.setFld_keeps (k.mono rfl) ?_
    | with_reducible refine Dev.setStackState_keeps (k.mono rfl) ?_
    | with_reducible refine foldl_keeps (fun e x he => ?_) ?_
    | with_reducible refine foldl_fst_keeps (fun e x he => ?_) ?_
    | with_reducible refine foldl_snd_keeps (fun e x he => ?_) ?_
    | ((fail_if_no_progress extract_lets +onlyGivenNames x); refine cut_keeps (A := P x) ?_ (fun hx => ?_); on_goal 1 => subst x)
    | (fail_if_no_progress extract_lets +onlyGivenNames x)
    | split)

theorem Dev.loopTimeout_keeps {P : Dev → Prop} {d : Dev} (k : Keeps [.regs, .outbox, .scr, .tms, .pwr] P) (h : P d) :
    P (Dev.loopTimeout d) := by
  unfold Dev.loopTimeout
  repeat' (first
    | with_reducible assumption
    | with_reducible refine Dev.loopFails_keeps (k.mono rfl) ?_
    | with_reducible refine Dev.enterFault_keeps (k.mono rfl) ?_
    | with_reducible refine foldl_keeps (fun e x he => ?_) ?_
    | with_reducible refine foldl_fst_keeps (fun e x he => ?_) ?_
    | with_reducible refine foldl_snd_keeps (fun e x he => ?_) ?_
    | ((fail_if_no_progress extract_lets +onlyGivenNames x); refine cut_keeps (A := P x) ?_ (fun hx => ?_); on_goal 1 => subst x)
    | (fail_if_no_progress extract_lets +onlyGivenNames x)
    | split)

theorem Dev.relock_keeps {P : Dev → Prop} {d : Dev} {i : ℕ} (k : Keeps [.regs, .clk] P) (h : P d) :
    P (Dev.relock d i) := by
  unfold Dev.relock
  repeat' (first
    | with_reducible assumption
    | with_reducible refine Dev.wr_keeps (k.mono rfl) ?_
    | ((fail_if_no_progress extract_lets +onlyGivenNames x); refine cut_keeps (A := P x) ?_ (fun hx => ?_); on_goal 1 => subst x)
    | (fail_if_no_progress extract_lets +onlyGivenNames x)
    | split
    | with_reducible refine upd_clk (k.mono rfl) ?_)

theorem Dev.timeToOsc_keeps {P : Dev → Prop} {d : Dev} (k : Keeps [.regs] P) (h : P d) :
    P (Dev.timeToOsc d) := by
  unfold Dev.timeToOsc
  repeat' (first
    | with_reducible assumption
    | with_reducible refine Dev.setFld_keeps (k.mono rfl) ?_
    | with_reducible refine Dev.setOscLost_keeps (k.mono rfl) ?_
    | (fail_if_no_progress extract_lets +onlyGivenNames x)
    | split)

theorem Dev.refQualifies_keeps {P : Dev → Prop} {d : Dev} {f : Sys2Proof.Fld} {sums : ℕ × ℕ} (k : Keeps [.regs, .boot] P) (h : P d) :
    P (Dev.refQualifies d f sums) := by
  unfold Dev.refQualifies
  repeat' (first
    | with_reducible assumption
    | with_reducible refine Dev.setFld_keeps (k.mono rfl) ?_
    | ((fail_if_no_progress extract_lets +onlyGivenNames x); refine cut_keeps (A := P x) ?_ (fun hx => ?_); on_goal 1 => subst x)
    | (fail_if_no_progress extract_lets +onlyGivenNames x)
    | split
    | with_reducible refine upd_boot (k.mono rfl) ?_)

theorem Dev.refQualified_keeps {P : Dev → Prop} {d : Dev} {r : Sys2Proof.RefInput} {counts : List ℕ} (k : Keeps [.regs, .boot] P) (h : P d) :
    P (Dev.refQualified d r counts) := by
  unfold Dev.refQualified
  repeat' (first
    | with_reducible assumption
    | with_reducible refine Dev.refQualifies_keeps (k.mono rfl) ?_
    | with_reducible refine Dev.setFld_keeps (k.mono rfl) ?_
    | with_reducible refine Dev.timeToOsc_keeps (k.mono rfl) ?_
    | ((fail_if_no_progress extract_lets +onlyGivenNames x); refine cut_keeps (A := P x) ?_ (fun hx => ?_); on_goal 1 => subst x)
    | (fail_if_no_progress extract_lets +onlyGivenNames x)
    | split
    | with_reducible refine upd_boot (k.mono rfl) ?_)

theorem Dev.oscRequalified_keeps {P : Dev → Prop} {d : Dev} (k : Keeps [.regs] P) (h : P d) :
    P (Dev.oscRequalified d) := by
  unfold Dev.oscRequalified
  repeat' (first
    | with_reducible assumption
    | with_reducible refine Dev.timeToOsc_keeps (k.mono rfl) ?_
    | (fail_if_no_progress extract_lets +onlyGivenNames x)
    | split)

theorem Dev.refLost_keeps {P : Dev → Prop} {d : Dev} {r : Sys2Proof.RefInput} (k : Keeps [.regs, .log, .ing, .tms, .clk] P) (h : P d) :
    P (Dev.refLost d r) := by
  unfold Dev.refLost
  repeat' (first
    | with_reducible assumption
    | with_reducible refine Dev.wr_keeps (k.mono rfl) ?_
    | with_reducible refine Dev.count_keeps (k.mono rfl) ?_
    | with_reducible refine Dev.logInternal_keeps (k.mono rfl) ?_
    | with_reducible refine Dev.unlock_keeps (k.mono rfl) ?_
    | with_reducible refine Dev.setFld_keeps (k.mono rfl) ?_
    | with_reducible refine Dev.setOscLost_keeps (k.mono rfl) ?_
    | ((fail_if_no_progress extract_lets +onlyGivenNames x); refine cut_keeps (A := P x) ?_ (fun hx => ?_); on_goal 1 => subst x)
    | (fail_if_no_progress extract_lets +onlyGivenNames x)
    | split)

theorem Dev.takePrimary_keeps {P : Dev → Prop} {d : Dev} (k : Keeps [.regs, .log, .ing, .tms, .clk] P) (h : P d) :
    P (Dev.takePrimary d) := by
  unfold Dev.takePrimary
  repeat' (first
    | with_reducible assumption
    | with_reducible refine Dev.unlock_keeps (k.mono rfl) ?_
    | with_reducible refine Dev.setFld_keeps (k.mono rfl) ?_
    | with_reducible refine Dev.logInternal_keeps (k.mono rfl) ?_
    | ((fail_if_no_progress extract_lets +onlyGivenNames x); refine cut_keeps (A := P x) ?_ (fun hx => ?_); on_goal 1 => subst x)
    | (fail_if_no_progress extract_lets +onlyGivenNames x)
    | split)

theorem Dev.takeSource_keeps {P : Dev → Prop} {d : Dev} {sys : Bool} (k : Keeps [.regs, .clk] P) (h : P d) :
    P (Dev.takeSource d sys) := by
  unfold Dev.takeSource
  repeat' (first
    | with_reducible assumption
    | with_reducible refine Dev.count_keeps (k.mono rfl) ?_
    | (fail_if_no_progress extract_lets +onlyGivenNames x)
    | split
    | with_reducible refine upd_clk (k.mono rfl) ?_)

theorem Dev.setXdiv_keeps {P : Dev → Prop} {d : Dev} {v : ℕ} (k : Keeps [.clk] P) (h : P d) :
    P (Dev.setXdiv d v) := by
  unfold Dev.setXdiv
  repeat' (first | with_reducible assumption | with_reducible refine upd_clk (k.mono rfl) ?_)

theorem Dev.auxHolds_keeps {P : Dev → Prop} {d : Dev} {n : Fin 2} (k : Keeps [.clk] P) (h : P d) :
    P (Dev.auxHolds d n) := by
  unfold Dev.auxHolds
  repeat' (first
    | with_reducible assumption
    | (fail_if_no_progress extract_lets +onlyGivenNames x)
    | split
    | with_reducible refine upd_clk (k.mono rfl) ?_)

theorem Dev.divStep_keeps {P : Dev → Prop} {d : Dev} {g : Sys2Proof.ClockGen} (k : Keeps [.regs, .clk] P) (h : P d) :
    P (Dev.divStep d g) := by
  unfold Dev.divStep
  repeat' (first
    | with_reducible assumption
    | with_reducible refine Dev.setXdiv_keeps (k.mono rfl) ?_
    | with_reducible refine Dev.takeSource_keeps (k.mono rfl) ?_
    | with_reducible refine Dev.auxHolds_keeps (k.mono rfl) ?_
    | with_reducible refine Dev.setFld_keeps (k.mono rfl) ?_
    | (fail_if_no_progress extract_lets +onlyGivenNames x)
    | split)

theorem Dev.forcedSwitch_keeps {P : Dev → Prop} {d : Dev} {tie : Bool} {lateEdge : Bool} (k : Keeps [.regs, .log, .clk] P) (h : P d) :
    P (Dev.forcedSwitch d tie lateEdge) := by
  unfold Dev.forcedSwitch
  repeat' (first
    | with_reducible assumption
    | with_reducible refine Dev.countIf_keeps (k.mono rfl) ?_
    | with_reducible refine Dev.count_keeps (k.mono rfl) ?_
    | with_reducible refine Dev.takeSource_keeps (k.mono rfl) ?_
    | with_reducible refine Dev.logInternal_keeps (k.mono rfl) ?_
    | ((fail_if_no_progress extract_lets +onlyGivenNames x); refine cut_keeps (A := P x) ?_ (fun hx => ?_); on_goal 1 => subst x)
    | (fail_if_no_progress extract_lets +onlyGivenNames x)
    | split
    | with_reducible refine upd_clk (k.mono rfl) ?_)

theorem Dev.setGate_keeps {P : Dev → Prop} {d : Dev} {t : Sys2Proof.GateTarget} {b : Bool} (k : Keeps [.regs, .ing] P) (h : P d) :
    P (Dev.setGate d t b) := by
  unfold Dev.setGate
  repeat' (first
    | with_reducible assumption
    | with_reducible refine Dev.wr_keeps (k.mono rfl) ?_
    | with_reducible refine Dev.laneOff_keeps (k.mono rfl) ?_
    | with_reducible refine Dev.laneOn_keeps (k.mono rfl) ?_
    | with_reducible refine Dev.portsSync_keeps (k.mono rfl) ?_
    | with_reducible refine foldl_keeps (fun e x he => ?_) ?_
    | with_reducible refine foldl_fst_keeps (fun e x he => ?_) ?_
    | with_reducible refine foldl_snd_keeps (fun e x he => ?_) ?_
    | ((fail_if_no_progress extract_lets +onlyGivenNames x); refine cut_keeps (A := P x) ?_ (fun hx => ?_); on_goal 1 => subst x)
    | (fail_if_no_progress extract_lets +onlyGivenNames x)
    | split)

theorem Dev.gateWritten_keeps {P : Dev → Prop} {d : Dev} {o : Sys2Proof.Origin} {bit : ℕ} {b : Bool} (k : Keeps [.regs, .log] P) (h : P d) :
    P (Dev.gateWritten d o bit b) := by
  unfold Dev.gateWritten
  repeat' (first
    | with_reducible assumption
    | with_reducible refine Dev.wr_keeps (k.mono rfl) ?_
    | with_reducible refine Dev.liveEntry_keeps (k.mono rfl) ?_)

theorem Dev.gateWrite_keeps {P : Dev → Prop} {d : Dev} {o : Sys2Proof.Origin} {v : ℕ} (k : Keeps [.regs, .log, .ing, .clk] P) (h : P d) :
    P (Dev.gateWrite d o v) := by
  unfold Dev.gateWrite
  repeat' (first
    | with_reducible assumption
    | with_reducible refine Dev.liveEntry_keeps (k.mono rfl) ?_
    | with_reducible refine Dev.gateWritten_keeps (k.mono rfl) ?_
    | with_reducible refine Dev.setGate_keeps (k.mono rfl) ?_
    | (fail_if_no_progress extract_lets +onlyGivenNames x)
    | split
    | with_reducible refine upd_clk (k.mono rfl) ?_)

theorem Dev.gateAnswer_keeps {P : Dev → Prop} {d : Dev} {o : Sys2Proof.Origin} {st : Status} (k : Keeps [.outbox] P) (h : P d) :
    P (Dev.gateAnswer d o st) := by
  unfold Dev.gateAnswer
  repeat' (first
    | with_reducible assumption
    | with_reducible refine Dev.emit_keeps (k.mono rfl) ?_
    | (fail_if_no_progress extract_lets +onlyGivenNames x)
    | split)

theorem Dev.quiesced_keeps {P : Dev → Prop} {d : Dev} {t : Sys2Proof.GateTarget} (k : Keeps [.regs, .log, .outbox, .ing, .clk] P) (h : P d) :
    P (Dev.quiesced d t) := by
  unfold Dev.quiesced
  repeat' (first
    | with_reducible assumption
    | with_reducible refine Dev.count_keeps (k.mono rfl) ?_
    | with_reducible refine Dev.gateWritten_keeps (k.mono rfl) ?_
    | with_reducible refine Dev.gateAnswer_keeps (k.mono rfl) ?_
    | with_reducible refine Dev.setGate_keeps (k.mono rfl) ?_
    | with_reducible refine foldl_keeps (fun e x he => ?_) ?_
    | with_reducible refine foldl_fst_keeps (fun e x he => ?_) ?_
    | with_reducible refine foldl_snd_keeps (fun e x he => ?_) ?_
    | ((fail_if_no_progress extract_lets +onlyGivenNames x); refine cut_keeps (A := P x) ?_ (fun hx => ?_); on_goal 1 => subst x)
    | (fail_if_no_progress extract_lets +onlyGivenNames x)
    | split
    | with_reducible refine upd_clk (k.mono rfl) ?_)

theorem Dev.gateRefused_keeps {P : Dev → Prop} {d : Dev} {x : GateReq} (k : Keeps [.regs, .log, .outbox, .clk] P) (h : P d) :
    P (Dev.gateRefused d x) := by
  unfold Dev.gateRefused
  repeat' (first
    | with_reducible assumption
    | with_reducible refine Dev.count_keeps (k.mono rfl) ?_
    | with_reducible refine Dev.liveEntry_keeps (k.mono rfl) ?_
    | with_reducible refine Dev.gateAnswer_keeps (k.mono rfl) ?_
    | with_reducible refine Dev.logInternal_keeps (k.mono rfl) ?_
    | ((fail_if_no_progress extract_lets +onlyGivenNames x); refine cut_keeps (A := P x) ?_ (fun hx => ?_); on_goal 1 => subst x)
    | (fail_if_no_progress extract_lets +onlyGivenNames x)
    | split
    | with_reducible refine upd_clk (k.mono rfl) ?_)

theorem Dev.gateTimeout_keeps {P : Dev → Prop} {d : Dev} {t : Sys2Proof.GateTarget} {tie : Bool} (k : Keeps [.regs, .log, .outbox, .clk] P) (h : P d) :
    P (Dev.gateTimeout d t tie) := by
  unfold Dev.gateTimeout
  repeat' (first
    | with_reducible assumption
    | with_reducible refine Dev.gateRefused_keeps (k.mono rfl) ?_
    | with_reducible refine foldl_keeps (fun e x he => ?_) ?_
    | with_reducible refine foldl_fst_keeps (fun e x he => ?_) ?_
    | with_reducible refine foldl_snd_keeps (fun e x he => ?_) ?_
    | (fail_if_no_progress extract_lets +onlyGivenNames x)
    | split
    | with_reducible refine upd_clk (k.mono rfl) ?_)

theorem Dev.gateRetry_keeps {P : Dev → Prop} {d : Dev} {t : Sys2Proof.GateTarget} (k : Keeps [.clk] P) (h : P d) :
    P (Dev.gateRetry d t) := by
  unfold Dev.gateRetry
  repeat' (first
    | with_reducible assumption
    | (fail_if_no_progress extract_lets +onlyGivenNames x)
    | split
    | with_reducible refine upd_clk (k.mono rfl) ?_)

theorem Dev.auxWritten_keeps {P : Dev → Prop} {d : Dev} {n : ℕ} (k : Keeps [.regs] P) (h : P d) :
    P (Dev.auxWritten d n) := by
  unfold Dev.auxWritten
  repeat' (first | with_reducible assumption | with_reducible refine Dev.setFld_keeps (k.mono rfl) ?_)

theorem Dev.openBytes_keeps {P : Dev → Prop} {d : Dev} {y1 : Sys2Proof.OpenValue} {n : ℕ} (k : Keeps [.freeCtr] P) (h : P d) :
    P (Dev.openBytes d y1 n).2 := by
  unfold Dev.openBytes
  repeat' (first
    | with_reducible assumption
    | (dsimp only; done)
    | with_reducible refine upd_freeCtr (k.mono rfl) ?_)

theorem Dev.setPageBuf_keeps {P : Dev → Prop} {d : Dev} {bs : List Sys2Proof.Byte} (k : Keeps [.regs] P) (h : P d) :
    P (Dev.setPageBuf d bs) := by
  unfold Dev.setPageBuf
  repeat' (first
    | with_reducible assumption
    | with_reducible refine Dev.wr_keeps (k.mono rfl) ?_
    | with_reducible refine foldl_keeps (fun e x he => ?_) ?_)

theorem Dev.flashGo_keeps {P : Dev → Prop} {d : Dev} {op : ℕ} {len : ℕ} (k : Keeps [.regs, .pwr] P) (h : P d) :
    P (Dev.flashGo d op len) := by
  unfold Dev.flashGo
  repeat' (first
    | with_reducible assumption
    | with_reducible refine Dev.wr_keeps (k.mono rfl) ?_
    | ((fail_if_no_progress extract_lets +onlyGivenNames x); refine cut_keeps (A := P x) ?_ (fun hx => ?_); on_goal 1 => subst x)
    | (fail_if_no_progress extract_lets +onlyGivenNames x)
    | split
    | with_reducible refine upd_pwr (k.mono rfl) ?_)

theorem Dev.setFlash_keeps {P : Dev → Prop} {d : Dev} {a : ℕ} {bs : List Sys2Proof.Byte} (k : Keeps [.boot] P) (h : P d) :
    P (Dev.setFlash d a bs) := by
  unfold Dev.setFlash
  repeat' (first | with_reducible assumption | with_reducible refine upd_boot (k.mono rfl) ?_)

theorem Dev.programPage_keeps {P : Dev → Prop} {d : Dev} {a : ℕ} {bs : List Sys2Proof.Byte} (k : Keeps [.boot] P) (h : P d) :
    P (Dev.programPage d a bs) := by
  unfold Dev.programPage
  repeat' (first
    | with_reducible assumption
    | with_reducible refine Dev.setFlash_keeps (k.mono rfl) ?_
    | with_reducible refine foldl_keeps (fun e x he => ?_) ?_)

theorem Dev.flashDone_keeps {P : Dev → Prop} {d : Dev} {err : Bool} (k : Keeps [.regs, .freeCtr, .boot, .pwr] P) (h : P d) :
    P (Dev.flashDone d err) := by
  unfold Dev.flashDone
  repeat' (first
    | with_reducible assumption
    | with_reducible refine Dev.setFld_keeps (k.mono rfl) ?_
    | with_reducible refine Dev.openBytes_keeps (k.mono rfl) ?_
    | with_reducible refine Dev.setPageBuf_keeps (k.mono rfl) ?_
    | with_reducible refine Dev.setFlash_keeps (k.mono rfl) ?_
    | with_reducible refine Dev.programPage_keeps (k.mono rfl) ?_
    | with_reducible refine foldl_keeps (fun e x he => ?_) ?_
    | with_reducible refine foldl_fst_keeps (fun e x he => ?_) ?_
    | with_reducible refine foldl_snd_keeps (fun e x he => ?_) ?_
    | (with_reducible refine of_fst ‹_› ?_)
    | (with_reducible refine of_snd ‹_› ?_)
    | ((fail_if_no_progress extract_lets +onlyGivenNames x); refine cut_keeps (A := P x) ?_ (fun hx => ?_); on_goal 1 => subst x)
    | (fail_if_no_progress extract_lets +onlyGivenNames x)
    | split
    | with_reducible refine upd_pwr (k.mono rfl) ?_)

theorem Dev.channelTrained_keeps {P : Dev → Prop} {d : Dev} {c : ℕ} {r : Sys2Proof.ChannelResult} (k : Keeps [.regs] P) (h : P d) :
    P (Dev.channelTrained d c r) := by
  unfold Dev.channelTrained
  repeat' (first
    | with_reducible assumption
    | with_reducible refine Dev.setFld_keeps (k.mono rfl) ?_
    | (fail_if_no_progress extract_lets +onlyGivenNames x)
    | split)

theorem Dev.ethLink_keeps {P : Dev → Prop} {d : Dev} {up : Bool} (k : Keeps [.tms] P) (h : P d) :
    P (Dev.ethLink d up) := by
  unfold Dev.ethLink
  repeat' (first
    | with_reducible assumption
    | (fail_if_no_progress extract_lets +onlyGivenNames x)
    | split
    | with_reducible refine upd_tms (k.mono rfl) ?_)

end Sys2Proof.Machine
end

