-- ==== Sys2Proof/Laws/KeepLoad.lean ====
section
/-!
SUPPORT. What the operations of Machine/Load.lean may change.
-/

namespace Sys2Proof.Machine

open Sys2Proof

theorem foldl_opt_keeps {α : Type} {P : Dev → Prop} {l : List α} {f : Option Dev → α → Option Dev} {d : Option Dev}
    (hf : ∀ e x, (∀ y, e = some y → P y) → ∀ y, f e x = some y → P y) (h : ∀ y, d = some y → P y) :
    ∀ y, l.foldl f d = some y → P y := by
  induction l generalizing d with
  | nil => exact h
  | cons x l ih => exact ih (hf d x h)

theorem Dev.discardReg_keeps {P : Dev → Prop} {d : Dev} {a : ℕ} (k : Keeps [.regs] P) (h : P d) :
    P (Dev.discardReg d a) := by
  unfold Dev.discardReg
  repeat' (first
    | with_reducible assumption
    | with_reducible refine Dev.wr_keeps (k.mono rfl) ?_
    | (fail_if_no_progress extract_lets +onlyGivenNames x)
    | split)

theorem Dev.underive_keeps {P : Dev → Prop} {d : Dev} (k : Keeps [.regs] P) (h : P d) :
    P (Dev.underive d) := by
  unfold Dev.underive
  repeat' (first
    | with_reducible assumption
    | with_reducible refine Dev.wr_keeps (k.mono rfl) ?_
    | with_reducible refine foldl_keeps (fun e x he => ?_) ?_
    | with_reducible refine foldl_fst_keeps (fun e x he => ?_) ?_
    | with_reducible refine foldl_snd_keeps (fun e x he => ?_) ?_
    | (fail_if_no_progress extract_lets +onlyGivenNames x)
    | split)

theorem Dev.unshow_keeps {P : Dev → Prop} {d : Dev} (k : Keeps [.regs] P) (h : P d) :
    P (Dev.unshow d) := by
  unfold Dev.unshow
  repeat' (first
    | with_reducible assumption
    | with_reducible refine Dev.wr_keeps (k.mono rfl) ?_
    | with_reducible refine Dev.setFld_keeps (k.mono rfl) ?_
    | with_reducible refine foldl_keeps (fun e x he => ?_) ?_
    | with_reducible refine foldl_fst_keeps (fun e x he => ?_) ?_
    | with_reducible refine foldl_snd_keeps (fun e x he => ?_) ?_
    | ((fail_if_no_progress extract_lets +onlyGivenNames x); refine cut_keeps (A := P x) ?_ (fun hx => ?_); on_goal 1 => subst x)
    | (fail_if_no_progress extract_lets +onlyGivenNames x)
    | split)

theorem Dev.discard_keeps {P : Dev → Prop} {d : Dev} (k : Keeps [.regs, .stk, .fab, .num] P) (h : P d) :
    P (Dev.discard d) := by
  unfold Dev.discard
  repeat' (first
    | with_reducible assumption
    | with_reducible refine Dev.discardReg_keeps (k.mono rfl) ?_
    | with_reducible refine Dev.unshow_keeps (k.mono rfl) ?_
    | with_reducible refine Dev.underive_keeps (k.mono rfl) ?_
    | with_reducible refine Dev.wr_keeps (k.mono rfl) ?_
    | with_reducible refine foldl_keeps (fun e x he => ?_) ?_
    | with_reducible refine foldl_fst_keeps (fun e x he => ?_) ?_
    | with_reducible refine foldl_snd_keeps (fun e x he => ?_) ?_
    | ((fail_if_no_progress extract_lets +onlyGivenNames x); refine cut_keeps (A := P x) ?_ (fun hx => ?_); on_goal 1 => subst x)
    | (fail_if_no_progress extract_lets +onlyGivenNames x)
    | split
    | with_reducible refine upd_stk_fab_num (k.mono rfl) ?_)

theorem Dev.relocate_keeps {P : Dev → Prop} {d : Dev} (k : Keeps [.regs] P) (h : P d) :
    P (Dev.relocate d).1 := by
  unfold Dev.relocate
  repeat' (first
    | with_reducible assumption
    | with_reducible refine Dev.setFld_keeps (k.mono rfl) ?_
    | with_reducible refine foldl_keeps (fun e x he => ?_) ?_
    | with_reducible refine foldl_fst_keeps (fun e x he => ?_) ?_
    | with_reducible refine foldl_snd_keeps (fun e x he => ?_) ?_
    | (fail_if_no_progress extract_lets +onlyGivenNames x)
    | split)

theorem Dev.loadTopo_keeps {P : Dev → Prop} {d : Dev} {b : List Sys2Proof.Byte} {stored : List Sys2Proof.Byte} (k : Keeps [.regs] P) (h : P d) :
    P (Dev.loadTopo d b stored) := by
  unfold Dev.loadTopo
  repeat' (first
    | with_reducible assumption
    | with_reducible refine Dev.wr_keeps (k.mono rfl) ?_
    | with_reducible refine Dev.setFld_keeps (k.mono rfl) ?_
    | with_reducible refine foldl_keeps (fun e x he => ?_) ?_)

theorem Dev.consider_keeps {P : Dev → Prop} {d : Dev} {m : SMap Byte} {i : Image} {n : Nat} (k : Keeps [.regs] P) (h : P d) :
    P (d.consider m i n).dev := by
  unfold Dev.consider
  extract_lets bs rel place plain
  split
  rename_i moved stuck _
  extract_lets bases
  clear_value bases
  split
  · exact h
  · rename_i ps _
    extract_lets c1
    have h1 : P c1 := foldl_keeps (fun e x he => Dev.primerWrite_keeps (k.mono rfl) he) h
    split
    rename_i c2 stuck2 he
    have h2 : P c2 := of_fst he (Dev.relocate_keeps (k.mono rfl) h1)
    extract_lets c3 g
    exact ite_keeps (Dev.loadTopo_keeps (k.mono rfl) h2) h2

theorem Dev.choose_keeps {P : Dev → Prop} {d : Dev} {m : SMap Byte} {i : Image} (k : Keeps [.regs] P) (h : P d) :
    P (d.choose m i).dev := by
  unfold Dev.choose
  extract_lets rel all
  have hall : ∀ x ∈ all, P x.dev := by
    intro x hx
    obtain ⟨n, _, rfl⟩ := List.mem_map.mp hx
    exact Dev.consider_keeps k h
  clear_value all
  split
  · rename_i x hx
    exact hall x (List.mem_of_find?_eq_some hx)
  · cases all with
    | nil => exact Dev.consider_keeps k h
    | cons x xs => exact hall x List.mem_cons_self

theorem Dev.deriveRegs_keeps {P : Dev → Prop} {d : Dev} (k : Keeps [.regs] P) (h : P d) :
    P (Dev.deriveRegs d) := by
  unfold Dev.deriveRegs
  repeat' (first
    | with_reducible assumption
    | with_reducible refine Dev.setFld_keeps (k.mono rfl) ?_
    | with_reducible refine Dev.wr_keeps (k.mono rfl) ?_
    | with_reducible refine foldl_keeps (fun e x he => ?_) ?_
    | with_reducible refine foldl_fst_keeps (fun e x he => ?_) ?_
    | with_reducible refine foldl_snd_keeps (fun e x he => ?_) ?_
    | ((fail_if_no_progress extract_lets +onlyGivenNames x); refine cut_keeps (A := P x) ?_ (fun hx => ?_); on_goal 1 => subst x)
    | (fail_if_no_progress extract_lets +onlyGivenNames x)
    | split)

theorem Dev.loadCtx_keeps {P : Dev → Prop} {d : Dev} {cl : ℕ} {segs : List ℕ} {x : LCtx} (k : Keeps [.regs, .fab] P) (h : P d) :
    P (Dev.loadCtx d cl segs x) := by
  unfold Dev.loadCtx
  repeat' (first
    | with_reducible assumption
    | with_reducible refine Dev.setCore_keeps (k.mono rfl) ?_
    | with_reducible refine Dev.setFld_keeps (k.mono rfl) ?_)

theorem Dev.loadSect_keeps {P : Dev → Prop} {d : Dev} {place : List ℕ} {timed : Bool} {s : LSect} (k : Keeps [.regs, .fab] P) (h : P d) :
    P (Dev.loadSect d place timed s) := by
  unfold Dev.loadSect
  repeat' (first
    | with_reducible assumption
    | with_reducible refine Dev.loadCtx_keeps (k.mono rfl) ?_
    | with_reducible refine Dev.setDrip_keeps (k.mono rfl) ?_
    | with_reducible refine Dev.setFld_keeps (k.mono rfl) ?_
    | with_reducible refine foldl_keeps (fun e x he => ?_) ?_
    | with_reducible refine foldl_fst_keeps (fun e x he => ?_) ?_
    | with_reducible refine foldl_snd_keeps (fun e x he => ?_) ?_
    | (fail_if_no_progress extract_lets +onlyGivenNames x)
    | split
    | with_reducible refine upd_fab (k.mono rfl) ?_)

theorem Dev.loadGroups_keeps {P : Dev → Prop} {d : Dev} {g : Graph} (k : Keeps [.regs, .fab] P) (h : P d) :
    P (Dev.loadGroups d g) := by
  unfold Dev.loadGroups
  repeat' (first
    | with_reducible assumption
    | with_reducible refine Dev.setGrp_keeps (k.mono rfl) ?_
    | with_reducible refine foldl_keeps (fun e x he => ?_) ?_
    | with_reducible refine foldl_fst_keeps (fun e x he => ?_) ?_
    | with_reducible refine foldl_snd_keeps (fun e x he => ?_) ?_
    | (fail_if_no_progress extract_lets +onlyGivenNames x)
    | split)

theorem Dev.loadChunk_keeps {P : Dev → Prop} {d : Dev} {g : Graph} {ty : ℕ} {idx : ℕ} {c : Chunk} (k : Keeps [.stk, .fab] P) (h : P d) :
    P (Dev.loadChunk d g ty idx c) := by
  unfold Dev.loadChunk
  repeat' (first
    | with_reducible assumption
    | with_reducible refine Dev.stackWrite_keeps (k.mono rfl) ?_
    | (fail_if_no_progress extract_lets +onlyGivenNames x)
    | split
    | with_reducible refine upd_fab (k.mono rfl) ?_)

theorem Dev.loadMaps_keeps {P : Dev → Prop} {d : Dev} {g : Graph} {idx : ℕ} {cs : List Chunk} (k : Keeps [.fab] P) (h : P d) :
    P (Dev.loadMaps d g idx cs) := by
  unfold Dev.loadMaps
  repeat' (first
    | with_reducible assumption
    | with_reducible refine foldl_keeps (fun e x he => ?_) ?_
    | with_reducible refine foldl_fst_keeps (fun e x he => ?_) ?_
    | with_reducible refine foldl_snd_keeps (fun e x he => ?_) ?_
    | (fail_if_no_progress extract_lets +onlyGivenNames x)
    | split
    | with_reducible refine upd_fab (k.mono rfl) ?_)

theorem Dev.loadDir_keeps {P : Dev → Prop} {d : Dev} {cl : ℕ} {cs : List Chunk} (k : Keeps [.num] P) (h : P d) :
    P (Dev.loadDir d cl cs) := by
  unfold Dev.loadDir
  repeat' (first
    | with_reducible assumption
    | with_reducible refine foldl_keeps (fun e x he => ?_) ?_
    | with_reducible refine foldl_fst_keeps (fun e x he => ?_) ?_
    | with_reducible refine foldl_snd_keeps (fun e x he => ?_) ?_
    | (fail_if_no_progress extract_lets +onlyGivenNames x)
    | split
    | with_reducible refine upd_num (k.mono rfl) ?_)

theorem Dev.loadChunks_keeps {P : Dev → Prop} {d : Dev} {g : Graph} {ty : ℕ} {idx : ℕ} {cs : List Chunk} (k : Keeps [.stk, .fab, .num] P) (h : P d) :
    P (Dev.loadChunks d g ty idx cs) := by
  unfold Dev.loadChunks
  repeat' (first
    | with_reducible assumption
    | with_reducible refine Dev.loadChunk_keeps (k.mono rfl) ?_
    | with_reducible refine Dev.loadMaps_keeps (k.mono rfl) ?_
    | with_reducible refine Dev.loadDir_keeps (k.mono rfl) ?_
    | with_reducible refine foldl_keeps (fun e x he => ?_) ?_
    | with_reducible refine foldl_fst_keeps (fun e x he => ?_) ?_
    | with_reducible refine foldl_snd_keeps (fun e x he => ?_) ?_
    | ((fail_if_no_progress extract_lets +onlyGivenNames x); refine cut_keeps (A := P x) ?_ (fun hx => ?_); on_goal 1 => subst x)
    | (fail_if_no_progress extract_lets +onlyGivenNames x)
    | split)

theorem Dev.loadRows_keeps {P : Dev → Prop} {d : Dev} {g : Graph} {b : List Sys2Proof.Byte} (k : Keeps [.regs, .num] P) (h : P d) :
    P (Dev.loadRows d g b) := by
  unfold Dev.loadRows
  repeat' (first
    | with_reducible assumption
    | with_reducible refine Dev.setFld_keeps (k.mono rfl) ?_
    | with_reducible refine Dev.setRow_keeps (k.mono rfl) ?_
    | with_reducible refine foldl_keeps (fun e x he => ?_) ?_
    | with_reducible refine foldl_fst_keeps (fun e x he => ?_) ?_
    | with_reducible refine foldl_snd_keeps (fun e x he => ?_) ?_
    | (fail_if_no_progress extract_lets +onlyGivenNames x)
    | split)

theorem Dev.loadPolicy_keeps {P : Dev → Prop} {d : Dev} {b : List Sys2Proof.Byte} (k : Keeps [.regs] P) (h : P d) :
    P (Dev.loadPolicy d b) := by
  unfold Dev.loadPolicy
  repeat' (first
    | with_reducible assumption
    | with_reducible refine Dev.wr_keeps (k.mono rfl) ?_)

theorem Dev.showUnproven_keeps {P : Dev → Prop} {d : Dev} (k : Keeps [.regs] P) (h : P d) :
    P (Dev.showUnproven d) := by
  unfold Dev.showUnproven
  repeat' (first
    | with_reducible assumption
    | with_reducible refine Dev.setFld_keeps (k.mono rfl) ?_
    | with_reducible refine foldl_keeps (fun e x he => ?_) ?_)

theorem Dev.loadImage_keeps {P : Dev → Prop} {x : Loaded} {i : Image} (k : Keeps [.regs, .stk, .fab, .num, .boot] P) (h : P x.dev) :
    P (Dev.loadImage x i) := by
  unfold Dev.loadImage
  repeat' (first
    | with_reducible assumption
    | with_reducible refine Dev.deriveRegs_keeps (k.mono rfl) ?_
    | with_reducible refine Dev.loadSect_keeps (k.mono rfl) ?_
    | with_reducible refine Dev.loadGroups_keeps (k.mono rfl) ?_
    | with_reducible refine Dev.loadChunks_keeps (k.mono rfl) ?_
    | with_reducible refine Dev.loadRows_keeps (k.mono rfl) ?_
    | with_reducible refine Dev.loadPolicy_keeps (k.mono rfl) ?_
    | with_reducible refine Dev.showUnproven_keeps (k.mono rfl) ?_
    | with_reducible refine foldl_keeps (fun e x he => ?_) ?_
    | with_reducible refine foldl_fst_keeps (fun e x he => ?_) ?_
    | with_reducible refine foldl_snd_keeps (fun e x he => ?_) ?_
    | ((fail_if_no_progress extract_lets +onlyGivenNames x); refine cut_keeps (A := P x) ?_ (fun hx => ?_); on_goal 1 => subst x)
    | (fail_if_no_progress extract_lets +onlyGivenNames x)
    | split
    | with_reducible refine upd_boot (k.mono rfl) ?_)

theorem Dev.sectionFails_keeps {P : Dev → Prop} {d : Dev} {g : ℕ} (k : Keeps [.regs, .fab] P) (h : P d) :
    P (Dev.sectionFails d g) := by
  unfold Dev.sectionFails
  repeat' (first
    | with_reducible assumption
    | with_reducible refine Dev.count_keeps (k.mono rfl) ?_
    | with_reducible refine Dev.setGrp_keeps (k.mono rfl) ?_)

theorem Dev.cmemErrors_keeps {P : Dev → Prop} {d : Dev} {g : ℕ} {s : SectionRow} {bad : Option ℕ} {corrected : ℕ} (k : Keeps [.regs, .log, .stk, .fab, .num] P) (h : P d) :
    P (Dev.cmemErrors d g s bad corrected) := by
  unfold Dev.cmemErrors
  repeat' (first
    | with_reducible assumption
    | with_reducible refine Dev.countN_keeps (k.mono rfl) ?_
    | with_reducible refine Dev.fence_keeps (k.mono rfl) ?_
    | with_reducible refine Dev.countUe_keeps (k.mono rfl) ?_
    | ((fail_if_no_progress extract_lets +onlyGivenNames x); refine cut_keeps (A := P x) ?_ (fun hx => ?_); on_goal 1 => subst x)
    | (fail_if_no_progress extract_lets +onlyGivenNames x)
    | split)

theorem Dev.placeSection_keeps {P : Dev → Prop} {d : Dev} {l : LSect} {y2 : ℕ} (k : Keeps [.regs, .fab] P) (h : P d) :
    P (Dev.placeSection d l y2) := by
  unfold Dev.placeSection
  repeat' (first
    | with_reducible assumption
    | with_reducible refine Dev.loadCtx_keeps (k.mono rfl) ?_
    | with_reducible refine Dev.loadCredits_keeps (k.mono rfl) ?_
    | with_reducible refine foldl_keeps (fun e x he => ?_) ?_
    | with_reducible refine foldl_fst_keeps (fun e x he => ?_) ?_
    | with_reducible refine foldl_snd_keeps (fun e x he => ?_) ?_
    | (fail_if_no_progress extract_lets +onlyGivenNames x)
    | split
    | with_reducible refine upd_fab (k.mono rfl) ?_)

theorem Dev.sectionLoad_keeps {P : Dev → Prop} {d : Dev} {g : ℕ} {bad : Option ℕ} {corrected : ℕ} (k : Keeps [.regs, .log, .stk, .fab, .num, .clk] P) (h : P d) :
    P (Dev.sectionLoad d g bad corrected) := by
  unfold Dev.sectionLoad
  repeat' (first
    | with_reducible assumption
    | with_reducible refine Dev.cmemErrors_keeps (k.mono rfl) ?_
    | with_reducible refine Dev.countN_keeps (k.mono rfl) ?_
    | with_reducible refine Dev.placeSection_keeps (k.mono rfl) ?_
    | with_reducible refine Dev.setGrp_keeps (k.mono rfl) ?_
    | with_reducible refine Dev.stackUe_keeps (k.mono rfl) ?_
    | with_reducible refine Dev.sectionFails_keeps (k.mono rfl) ?_
    | ((fail_if_no_progress extract_lets +onlyGivenNames x); refine cut_keeps (A := P x) ?_ (fun hx => ?_); on_goal 1 => subst x)
    | (fail_if_no_progress extract_lets +onlyGivenNames x)
    | split)

end Sys2Proof.Machine
end

