-- ==== Sys2Proof/Laws/KeepStartup.lean ====
section
/-!
SUPPORT. What the operations of Machine/Startup.lean may change.
-/

namespace Sys2Proof.Machine

open Sys2Proof

/-- The log at reset is sound. -/
theorem LogOk.init : LogOk Dev.init.log := by simp [LogOk, Dev.init]

/-- Everything that a reset changes, changed. -/
theorem upd_reset {P : Dev → Prop} {d : Dev} (v0 : SMap Nat) (v1 : List Captured) (v2 : LogSt) (v7 : Nat) (v8 : Bool) (v11 : IngSt) (v12 : PrmSt) (v13 : ScrSt) (v14 : TmsSt) (v15 : AcqSt) (v16 : RecSt) (v17 : StkSt) (v18 : MshSt) (v19 : HstSt) (v20 : WearSt) (v21 : FabSt) (v22 : NumSt) (v23 : BootSt) (v24 : ClkSt) (v25 : PwrSt)
    (k : Keeps [.regs, .caps, .log, .devNs, .inReset, .freeCtr, .outbox, .ing, .prm, .scr, .tms, .acq, .store, .stk, .msh, .hst, .wear, .fab, .num, .boot, .clk, .pwr] P) (hr : RegsOk v0) (hl : LogOk v2) (hs : SlotsOk v13.slots) (h : P d) :
    P { d with regs := v0, caps := v1, log := v2, devNs := v7, inReset := v8, ing := v11, prm := v12, scr := v13, tms := v14, acq := v15, store := v16, stk := v17, msh := v18, hst := v19, wear := v20, fab := v21, num := v22, boot := v23, clk := v24, pwr := v25 } := by
  have h0 := k.at .regs rfl _ v0 (fun _ => hr) h
  have h1 := k.at .caps rfl _ v1 h0
  dsimp only at h1
  have h2 := k.at .log rfl _ v2 (fun _ => hl) h1
  dsimp only at h2
  have h3 := k.at .devNs rfl _ v7 h2
  dsimp only at h3
  have h4 := k.at .inReset rfl _ v8 h3
  dsimp only at h4
  have h5 := k.at .ing rfl _ v11 h4
  dsimp only at h5
  have h6 := k.at .prm rfl _ v12 h5
  dsimp only at h6
  have h7 := k.at .scr rfl _ v13 (fun _ => hs) h6
  dsimp only at h7
  have h8 := k.at .tms rfl _ v14 h7
  dsimp only at h8
  have h9 := k.at .acq rfl _ v15 h8
  dsimp only at h9
  have h10 := k.at .store rfl _ v16 h9
  dsimp only at h10
  have h11 := k.at .stk rfl _ v17 h10
  dsimp only at h11
  have h12 := k.at .msh rfl _ v18 h11
  dsimp only at h12
  have h13 := k.at .hst rfl _ v19 h12
  dsimp only at h13
  have h14 := k.at .wear rfl _ v20 h13
  dsimp only at h14
  have h15 := k.at .fab rfl _ v21 h14
  dsimp only at h15
  have h16 := k.at .num rfl _ v22 h15
  dsimp only at h16
  have h17 := k.at .boot rfl _ v23 h16
  dsimp only at h17
  have h18 := k.at .clk rfl _ v24 h17
  dsimp only at h18
  have h19 := k.at .pwr rfl _ v25 h18
  dsimp only at h19
  exact h19

theorem Dev.beginStep_keeps {P : Dev → Prop} {d : Dev} {y1 : ℕ} (k : Keeps [.regs, .boot] P) (h : P d) :
    P (Dev.beginStep d y1) := by
  unfold Dev.beginStep
  repeat' (first
    | with_reducible assumption
    | with_reducible refine Dev.setFld_keeps (k.mono rfl) ?_
    | (fail_if_no_progress extract_lets +onlyGivenNames x)
    | split
    | with_reducible refine upd_boot (k.mono rfl) ?_)

theorem Dev.toReset_keeps {P : Dev → Prop} {d : Dev} (k : Keeps [.regs, .caps, .log, .devNs, .inReset, .freeCtr, .outbox, .ing, .prm, .scr, .tms, .acq, .store, .stk, .msh, .hst, .wear, .fab, .num, .boot, .clk, .pwr] P) (h : P d) : P d.toReset := by
  unfold Dev.toReset
  split
  · exact h
  · extract_lets d1
    have h1 : P d1 := Dev.outputsIdle_keeps (k.mono rfl) (Dev.flashDone_keeps (k.mono rfl) h)
    exact Dev.wr_keeps (k.mono rfl)
      (upd_reset _ _ _ _ _ _ _ _ _ _ _ _ _ _ _ _ _ _ _ _ (k.mono rfl) RegsOk.nil LogOk.init SlotsOk.nil h1)

theorem Dev.startUp_keeps {P : Dev → Prop} {d : Dev} (k : Keeps [.regs, .devNs, .inReset] P) (h : P d) :
    P (Dev.startUp d) := by
  unfold Dev.startUp
  repeat' (first
    | with_reducible assumption
    | with_reducible refine Dev.wr_keeps (k.mono rfl) ?_
    | with_reducible refine Dev.setFld_keeps (k.mono rfl) ?_
    | with_reducible refine Dev.setMode_keeps (k.mono rfl) ?_
    | ((fail_if_no_progress extract_lets +onlyGivenNames x); refine cut_keeps (A := P x) ?_ (fun hx => ?_); on_goal 1 => subst x)
    | (fail_if_no_progress extract_lets +onlyGivenNames x)
    | split
    | with_reducible refine upd_devNs_inReset (k.mono rfl) ?_)

theorem Dev.assertReset_keeps {P : Dev → Prop} {d : Dev} {pin : Sys2Proof.ResetPin} (k : Keeps [.regs, .caps, .log, .devNs, .inReset, .freeCtr, .outbox, .ing, .prm, .scr, .tms, .acq, .store, .stk, .msh, .hst, .wear, .fab, .num, .boot, .clk, .pwr] P) (h : P d) :
    P (Dev.assertReset d pin) := by
  unfold Dev.assertReset
  repeat' (first
    | with_reducible assumption
    | with_reducible refine Dev.toReset_keeps (k.mono rfl) ?_
    | (fail_if_no_progress extract_lets +onlyGivenNames x)
    | split
    | with_reducible refine upd_pwr (k.mono rfl) ?_)

theorem Dev.porRelease_keeps {P : Dev → Prop} {d : Dev} {gid : BitVec 6} {testEn : Bool} (k : Keeps [.regs, .gid, .testEn, .devNs, .inReset, .pwr] P) (h : P d) :
    P (Dev.porRelease d gid testEn) := by
  unfold Dev.porRelease
  repeat' (first
    | with_reducible assumption
    | with_reducible refine Dev.startUp_keeps (k.mono rfl) ?_
    | (fail_if_no_progress extract_lets +onlyGivenNames x)
    | split
    | with_reducible refine upd_gid_testEn_pwr (k.mono rfl) ?_)

theorem Dev.devRstRelease_keeps {P : Dev → Prop} {d : Dev} (k : Keeps [.regs, .devNs, .inReset, .pwr] P) (h : P d) :
    P (Dev.devRstRelease d) := by
  unfold Dev.devRstRelease
  repeat' (first
    | with_reducible assumption
    | with_reducible refine Dev.startUp_keeps (k.mono rfl) ?_
    | (fail_if_no_progress extract_lets +onlyGivenNames x)
    | split
    | with_reducible refine upd_pwr (k.mono rfl) ?_)

theorem Dev.railLow_keeps {P : Dev → Prop} {d : Dev} (k : Keeps [.regs, .caps, .log, .devNs, .inReset, .freeCtr, .outbox, .ing, .prm, .scr, .tms, .acq, .store, .stk, .msh, .hst, .wear, .fab, .num, .boot, .clk, .pwr] P) (h : P d) :
    P (Dev.railLow d) := by
  unfold Dev.railLow
  repeat' (first
    | with_reducible assumption
    | with_reducible refine Dev.toReset_keeps (k.mono rfl) ?_
    | with_reducible refine upd_pwr (k.mono rfl) ?_)

theorem Dev.railBack_keeps {P : Dev → Prop} {d : Dev} {gid : BitVec 6} {testEn : Bool} (k : Keeps [.regs, .gid, .testEn, .devNs, .inReset, .pwr] P) (h : P d) :
    P (Dev.railBack d gid testEn) := by
  unfold Dev.railBack
  repeat' (first
    | with_reducible assumption
    | with_reducible refine Dev.startUp_keeps (k.mono rfl) ?_
    | (fail_if_no_progress extract_lets +onlyGivenNames x)
    | split
    | with_reducible refine upd_gid_testEn_pwr (k.mono rfl) ?_)

theorem Dev.tryStep_keeps {P : Dev → Prop} {d : Dev} {slot : Option ℕ} (k : Keeps [.regs, .boot] P) (h : P d) :
    P (Dev.tryStep d slot) := by
  unfold Dev.tryStep
  repeat' (first
    | with_reducible assumption
    | with_reducible refine Dev.beginStep_keeps (k.mono rfl) ?_
    | (fail_if_no_progress extract_lets +onlyGivenNames x)
    | split
    | with_reducible refine upd_boot (k.mono rfl) ?_)

theorem Dev.storePages_keeps {P : Dev → Prop} {d : Dev} (k : Keeps [.regs, .store] P) (h : P d) :
    P (Dev.storePages d) := by
  unfold Dev.storePages
  repeat' (first
    | with_reducible assumption
    | with_reducible refine Dev.wr_keeps (k.mono rfl) ?_
    | with_reducible refine Dev.showStore_keeps (k.mono rfl) ?_
    | (fail_if_no_progress extract_lets +onlyGivenNames x)
    | split
    | with_reducible refine upd_store (k.mono rfl) ?_)

theorem Dev.beginStep9_keeps {P : Dev → Prop} {d : Dev} (k : Keeps [.regs, .ing, .boot, .pwr] P) (h : P d) :
    P (Dev.beginStep9 d) := by
  unfold Dev.beginStep9
  repeat' (first
    | with_reducible assumption
    | with_reducible refine Dev.beginStep_keeps (k.mono rfl) ?_
    | with_reducible refine Dev.domsDue_keeps (k.mono rfl) ?_
    | with_reducible refine Dev.laneEnable_keeps (k.mono rfl) ?_
    | with_reducible refine Dev.portEnable_keeps (k.mono rfl) ?_
    | with_reducible refine foldl_keeps (fun e x he => ?_) ?_
    | with_reducible refine foldl_fst_keeps (fun e x he => ?_) ?_
    | with_reducible refine foldl_snd_keeps (fun e x he => ?_) ?_
    | (fail_if_no_progress extract_lets +onlyGivenNames x)
    | split)

theorem Dev.safeBoot_keeps {P : Dev → Prop} {d : Dev} {m : Sys2Proof.SMap Sys2Proof.Byte} {y2 : ℕ} (k : Keeps [.regs, .ing, .store, .boot, .pwr] P) (h : P d) :
    P (Dev.safeBoot d m y2) := by
  unfold Dev.safeBoot
  repeat' (first
    | with_reducible assumption
    | with_reducible refine Dev.primerWrite_keeps (k.mono rfl) ?_
    | with_reducible refine Dev.deriveRegs_keeps (k.mono rfl) ?_
    | with_reducible refine Dev.loadTopo_keeps (k.mono rfl) ?_
    | with_reducible refine Dev.loadPolicy_keeps (k.mono rfl) ?_
    | with_reducible refine Dev.storePages_keeps (k.mono rfl) ?_
    | with_reducible refine Dev.domsOff_keeps (k.mono rfl) ?_
    | with_reducible refine Dev.beginStep9_keeps (k.mono rfl) ?_
    | with_reducible refine foldl_keeps (fun e x he => ?_) ?_
    | with_reducible refine foldl_fst_keeps (fun e x he => ?_) ?_
    | with_reducible refine foldl_snd_keeps (fun e x he => ?_) ?_
    | (fail_if_no_progress extract_lets +onlyGivenNames x)
    | split
    | with_reducible refine upd_boot (k.mono rfl) ?_)

theorem Dev.afterReject_keeps {P : Dev → Prop} {d : Dev} {y1 : ℕ} {code : ℕ} (k : Keeps [.regs, .outbox, .ing, .scr, .tms, .store, .boot, .pwr] P) (h : P d) :
    P (Dev.afterReject d y1 code) := by
  unfold Dev.afterReject
  repeat' (first
    | with_reducible assumption
    | with_reducible refine Dev.safeBoot_keeps (k.mono rfl) ?_
    | with_reducible refine Dev.enterFault_keeps (k.mono rfl) ?_
    | with_reducible refine Dev.tryStep_keeps (k.mono rfl) ?_
    | (fail_if_no_progress extract_lets +onlyGivenNames x)
    | split)

theorem Dev.reject_keeps {P : Dev → Prop} {d : Dev} {code : ℕ} (k : Keeps [.regs, .log, .outbox, .ing, .scr, .tms, .store, .stk, .fab, .num, .boot, .pwr] P) (h : P d) :
    P (Dev.reject d code) := by
  unfold Dev.reject
  repeat' (first
    | with_reducible assumption
    | with_reducible refine Dev.setFld_keeps (k.mono rfl) ?_
    | with_reducible refine Dev.logAdd_keeps (k.mono rfl) ?_
    | with_reducible refine Dev.discard_keeps (k.mono rfl) ?_
    | with_reducible refine Dev.afterReject_keeps (k.mono rfl) ?_
    | (fail_if_no_progress extract_lets +onlyGivenNames x)
    | split
    | with_reducible refine upd_boot (k.mono rfl) ?_)

theorem Dev.endStep2_keeps {P : Dev → Prop} {d : Dev} (k : Keeps [.regs, .boot, .pwr] P) (h : P d) :
    P (Dev.endStep2 d) := by
  unfold Dev.endStep2
  repeat' (first
    | with_reducible assumption
    | with_reducible refine Dev.setFld_keeps (k.mono rfl) ?_
    | with_reducible refine Dev.beginStep_keeps (k.mono rfl) ?_
    | with_reducible refine Dev.domsDue_keeps (k.mono rfl) ?_
    | (fail_if_no_progress extract_lets +onlyGivenNames x)
    | split)

theorem Dev.endStep3_keeps {P : Dev → Prop} {d : Dev} (k : Keeps [.regs, .boot] P) (h : P d) :
    P (Dev.endStep3 d) := by
  unfold Dev.endStep3
  repeat' (first
    | with_reducible assumption
    | with_reducible refine Dev.beginStep_keeps (k.mono rfl) ?_
    | (fail_if_no_progress extract_lets +onlyGivenNames x)
    | split)

theorem Dev.endStep4_keeps {P : Dev → Prop} {d : Dev} {env : Sys2Proof.StartEnv} (k : Keeps [.regs, .log, .outbox, .scr, .tms, .boot, .pwr] P) (h : P d) :
    P (Dev.endStep4 d env) := by
  unfold Dev.endStep4
  repeat' (first
    | with_reducible assumption
    | with_reducible refine Dev.wr_keeps (k.mono rfl) ?_
    | with_reducible refine Dev.countN_keeps (k.mono rfl) ?_
    | with_reducible refine Dev.setFld_keeps (k.mono rfl) ?_
    | with_reducible refine Dev.logInternal_keeps (k.mono rfl) ?_
    | with_reducible refine Dev.tryStep_keeps (k.mono rfl) ?_
    | with_reducible refine Dev.enterFault_keeps (k.mono rfl) ?_
    | with_reducible refine foldl_keeps (fun e x he => ?_) ?_
    | with_reducible refine foldl_fst_keeps (fun e x he => ?_) ?_
    | with_reducible refine foldl_snd_keeps (fun e x he => ?_) ?_
    | ((fail_if_no_progress extract_lets +onlyGivenNames x); refine cut_keeps (A := P x) ?_ (fun hx => ?_); on_goal 1 => subst x)
    | (fail_if_no_progress extract_lets +onlyGivenNames x)
    | split
    | with_reducible refine upd_log (k.mono rfl) id ?_)

theorem Dev.endStep5_keeps {P : Dev → Prop} {d : Dev} {env : Sys2Proof.StartEnv} (k : Keeps [.regs, .log, .outbox, .ing, .scr, .tms, .store, .stk, .fab, .num, .boot, .pwr] P) (h : P d) :
    P (Dev.endStep5 d env) := by
  unfold Dev.endStep5
  repeat' (first
    | with_reducible assumption
    | with_reducible refine Dev.wr_keeps (k.mono rfl) ?_
    | with_reducible refine Dev.enterFault_keeps (k.mono rfl) ?_
    | with_reducible refine Dev.reject_keeps (k.mono rfl) ?_
    | with_reducible refine Dev.beginStep_keeps (k.mono rfl) ?_
    | ((fail_if_no_progress extract_lets +onlyGivenNames x); refine cut_keeps (A := P x) ?_ (fun hx => ?_); on_goal 1 => subst x)
    | (fail_if_no_progress extract_lets +onlyGivenNames x)
    | split
    | with_reducible refine upd_boot (k.mono rfl) ?_)

theorem Dev.beginStep7_keeps {P : Dev → Prop} {d : Dev} (k : Keeps [.regs, .boot, .pwr] P) (h : P d) :
    P (Dev.beginStep7 d) := by
  unfold Dev.beginStep7
  repeat' (first
    | with_reducible assumption
    | with_reducible refine Dev.beginStep_keeps (k.mono rfl) ?_
    | with_reducible refine Dev.domsDue_keeps (k.mono rfl) ?_
    | with_reducible refine Dev.setCoreState_keeps (k.mono rfl) ?_
    | with_reducible refine Dev.stackTrain_keeps (k.mono rfl) ?_
    | with_reducible refine Dev.setFld_keeps (k.mono rfl) ?_
    | with_reducible refine Dev.setV_keeps (k.mono rfl) ?_
    | with_reducible refine foldl_keeps (fun e x he => ?_) ?_
    | with_reducible refine foldl_fst_keeps (fun e x he => ?_) ?_
    | with_reducible refine foldl_snd_keeps (fun e x he => ?_) ?_
    | ((fail_if_no_progress extract_lets +onlyGivenNames x); refine cut_keeps (A := P x) ?_ (fun hx => ?_); on_goal 1 => subst x)
    | (fail_if_no_progress extract_lets +onlyGivenNames x)
    | split
    | with_reducible refine upd_boot (k.mono rfl) ?_)

theorem Dev.endStep6_keeps {P : Dev → Prop} {d : Dev} {env : Sys2Proof.StartEnv} (k : Keeps [.regs, .log, .outbox, .ing, .scr, .tms, .store, .stk, .fab, .num, .boot, .pwr] P) (h : P d) :
    P (Dev.endStep6 d env) := by
  unfold Dev.endStep6
  repeat' (first
    | with_reducible assumption
    | with_reducible refine Dev.reject_keeps (k.mono rfl) ?_
    | with_reducible refine Dev.beginStep7_keeps (k.mono rfl) ?_
    | (fail_if_no_progress extract_lets +onlyGivenNames x)
    | split
    | with_reducible refine upd_boot (k.mono rfl) ?_)

theorem Dev.earlyRegs_keeps {P : Dev → Prop} {d : Dev} {b : List Sys2Proof.Byte} (k : Keeps [.regs, .log, .ing, .tms, .clk] P) (h : P d) :
    P (Dev.earlyRegs d b) := by
  unfold Dev.earlyRegs
  repeat' (first
    | with_reducible assumption
    | with_reducible refine Dev.primerWrite_keeps (k.mono rfl) ?_
    | with_reducible refine Dev.takePrimary_keeps (k.mono rfl) ?_
    | with_reducible refine foldl_keeps (fun e x he => ?_) ?_)

theorem Dev.sectionDigest_keeps {P : Dev → Prop} {d : Dev} {y1 : ℕ} (k : Keeps [.regs, .log, .outbox, .ing, .scr, .tms, .store, .stk, .fab, .num, .boot, .clk, .pwr] P) (h : P d) :
    P (Dev.sectionDigest d y1) := by
  unfold Dev.sectionDigest
  repeat' (first
    | with_reducible assumption
    | with_reducible refine Dev.earlyRegs_keeps (k.mono rfl) ?_
    | with_reducible refine Dev.reject_keeps (k.mono rfl) ?_
    | ((fail_if_no_progress extract_lets +onlyGivenNames x); refine cut_keeps (A := P x) ?_ (fun hx => ?_); on_goal 1 => subst x)
    | (fail_if_no_progress extract_lets +onlyGivenNames x)
    | split
    | with_reducible refine upd_boot (k.mono rfl) ?_)

theorem Dev.takeTests_keeps {P : Dev → Prop} {d : Dev} {env : Sys2Proof.StartEnv} (k : Keeps [.regs, .boot] P) (h : P d) :
    P (Dev.takeTests d env) := by
  unfold Dev.takeTests
  repeat' (first
    | with_reducible assumption
    | with_reducible refine Dev.setFld_keeps (k.mono rfl) ?_
    | with_reducible refine foldl_keeps (fun e x he => ?_) ?_
    | with_reducible refine foldl_fst_keeps (fun e x he => ?_) ?_
    | with_reducible refine foldl_snd_keeps (fun e x he => ?_) ?_
    | ((fail_if_no_progress extract_lets +onlyGivenNames x); refine cut_keeps (A := P x) ?_ (fun hx => ?_); on_goal 1 => subst x)
    | (fail_if_no_progress extract_lets +onlyGivenNames x)
    | split
    | with_reducible refine upd_boot (k.mono rfl) ?_)

theorem Dev.tryLoad_keeps {P : Dev → Prop} {d : Dev} (k : Keeps [.regs, .log, .outbox, .ing, .scr, .tms, .store, .stk, .fab, .num, .boot, .pwr] P) (h : P d) :
    P (Dev.tryLoad d) := by
  unfold Dev.tryLoad
  repeat' (first
    | with_reducible assumption
    | with_reducible refine Dev.reject_keeps (k.mono rfl) ?_
    | with_reducible refine Dev.choose_keeps (k.mono rfl) ?_
    | with_reducible refine Dev.logAdd_keeps (k.mono rfl) ?_
    | with_reducible refine Dev.loadImage_keeps (k.mono rfl) ?_
    | with_reducible refine Dev.storePages_keeps (k.mono rfl) ?_
    | (fail_if_no_progress extract_lets +onlyGivenNames x)
    | split)

theorem Dev.endStep7_keeps {P : Dev → Prop} {d : Dev} {env : Sys2Proof.StartEnv} (k : Keeps [.regs, .log, .outbox, .ing, .scr, .tms, .store, .stk, .fab, .num, .boot, .pwr] P) (h : P d) :
    P (Dev.endStep7 d env) := by
  unfold Dev.endStep7
  repeat' (first
    | with_reducible assumption
    | with_reducible refine Dev.reject_keeps (k.mono rfl) ?_
    | with_reducible refine Dev.takeTests_keeps (k.mono rfl) ?_
    | with_reducible refine Dev.buildHmap_keeps (k.mono rfl) ?_
    | with_reducible refine Dev.beginStep_keeps (k.mono rfl) ?_
    | with_reducible refine Dev.tryLoad_keeps (k.mono rfl) ?_
    | with_reducible refine Dev.enterFault_keeps (k.mono rfl) ?_
    | ((fail_if_no_progress extract_lets +onlyGivenNames x); refine cut_keeps (A := P x) ?_ (fun hx => ?_); on_goal 1 => subst x)
    | (fail_if_no_progress extract_lets +onlyGivenNames x)
    | split
    | with_reducible refine upd_boot (k.mono rfl) ?_)

theorem Dev.startOver_keeps {P : Dev → Prop} {d : Dev} {c : ℕ} {cause : ℕ} (k : Keeps [.regs, .log, .stk, .fab, .num, .boot] P) (h : P d) :
    P (Dev.startOver d c cause) := by
  unfold Dev.startOver
  repeat' (first
    | with_reducible assumption
    | with_reducible refine Dev.coreLoadError_keeps (k.mono rfl) ?_
    | with_reducible refine Dev.discard_keeps (k.mono rfl) ?_
    | with_reducible refine Dev.beginStep_keeps (k.mono rfl) ?_
    | (fail_if_no_progress extract_lets +onlyGivenNames x)
    | split
    | with_reducible refine upd_boot (k.mono rfl) ?_)

theorem Dev.loadErrorRetire_keeps {P : Dev → Prop} {d : Dev} {c : ℕ} {cause : ℕ} (k : Keeps [.regs, .log, .outbox, .ing, .scr, .tms, .store, .stk, .fab, .num, .boot, .pwr] P) (h : P d) :
    P (Dev.loadErrorRetire d c cause) := by
  unfold Dev.loadErrorRetire
  repeat' (first
    | with_reducible assumption
    | with_reducible refine Dev.coreLoadError_keeps (k.mono rfl) ?_
    | with_reducible refine Dev.reject_keeps (k.mono rfl) ?_
    | with_reducible refine Dev.startOver_keeps (k.mono rfl) ?_
    | with_reducible refine Dev.tryLoad_keeps (k.mono rfl) ?_
    | (fail_if_no_progress extract_lets +onlyGivenNames x)
    | split)

theorem Dev.programFuse_keeps {P : Dev → Prop} {d : Dev} {w : ℕ} {want : ℕ} {env : Sys2Proof.StartEnv} (k : Keeps [.regs, .log, .boot] P) (h : P d) :
    P (Dev.programFuse d w want env) := by
  unfold Dev.programFuse
  repeat' (first
    | with_reducible assumption
    | with_reducible refine Dev.burn_keeps (k.mono rfl) ?_
    | with_reducible refine Dev.wr_keeps (k.mono rfl) ?_
    | with_reducible refine Dev.logAdd_keeps (k.mono rfl) ?_
    | with_reducible refine Dev.setFld_keeps (k.mono rfl) ?_
    | ((fail_if_no_progress extract_lets +onlyGivenNames x); refine cut_keeps (A := P x) ?_ (fun hx => ?_); on_goal 1 => subst x)
    | (fail_if_no_progress extract_lets +onlyGivenNames x)
    | split)

theorem Dev.applyFuse_keeps {P : Dev → Prop} {d : Dev} {b : List Sys2Proof.Byte} {env : Sys2Proof.StartEnv} (k : Keeps [.regs, .log, .boot] P) (h : P d) :
    P (Dev.applyFuse d b env) := by
  unfold Dev.applyFuse
  repeat' (first
    | with_reducible assumption
    | with_reducible refine Dev.programFuse_keeps (k.mono rfl) ?_
    | with_reducible refine foldl_keeps (fun e x he => ?_) ?_)

theorem Dev.advanceRollback_keeps {P : Dev → Prop} {d : Dev} {i : Image} {env : Sys2Proof.StartEnv} (k : Keeps [.regs, .log, .boot] P) (h : P d) :
    P (Dev.advanceRollback d i env) := by
  unfold Dev.advanceRollback
  repeat' (first
    | with_reducible assumption
    | with_reducible refine Dev.programFuse_keeps (k.mono rfl) ?_
    | with_reducible refine Dev.setFld_keeps (k.mono rfl) ?_
    | with_reducible refine Dev.logAdd_keeps (k.mono rfl) ?_
    | ((fail_if_no_progress extract_lets +onlyGivenNames x); refine cut_keeps (A := P x) ?_ (fun hx => ?_); on_goal 1 => subst x)
    | (fail_if_no_progress extract_lets +onlyGivenNames x)
    | split)

theorem Dev.endStep8_keeps {P : Dev → Prop} {d : Dev} {env : Sys2Proof.StartEnv} (k : Keeps [.regs, .log, .ing, .boot, .pwr] P) (h : P d) :
    P (Dev.endStep8 d env) := by
  unfold Dev.endStep8
  repeat' (first
    | with_reducible assumption
    | with_reducible refine Dev.applyFuse_keeps (k.mono rfl) ?_
    | with_reducible refine Dev.loadPolicy_keeps (k.mono rfl) ?_
    | with_reducible refine Dev.advanceRollback_keeps (k.mono rfl) ?_
    | with_reducible refine Dev.logAdd_keeps (k.mono rfl) ?_
    | with_reducible refine Dev.setFld_keeps (k.mono rfl) ?_
    | with_reducible refine Dev.wr_keeps (k.mono rfl) ?_
    | with_reducible refine Dev.domsOff_keeps (k.mono rfl) ?_
    | with_reducible refine Dev.beginStep9_keeps (k.mono rfl) ?_
    | with_reducible refine foldl_keeps (fun e x he => ?_) ?_
    | with_reducible refine foldl_fst_keeps (fun e x he => ?_) ?_
    | with_reducible refine foldl_snd_keeps (fun e x he => ?_) ?_
    | (fail_if_no_progress extract_lets +onlyGivenNames x)
    | split)

theorem Dev.endStep9_keeps {P : Dev → Prop} {d : Dev} (k : Keeps [.regs, .boot] P) (h : P d) :
    P (Dev.endStep9 d) := by
  unfold Dev.endStep9
  repeat' (first
    | with_reducible assumption
    | with_reducible refine Dev.beginStep_keeps (k.mono rfl) ?_
    | (fail_if_no_progress extract_lets +onlyGivenNames x)
    | split
    | with_reducible refine upd_boot (k.mono rfl) ?_)

theorem Dev.endStep10_keeps {P : Dev → Prop} {d : Dev} (k : Keeps [.regs, .wear] P) (h : P d) :
    P (Dev.endStep10 d) := by
  unfold Dev.endStep10
  repeat' (first
    | with_reducible assumption
    | with_reducible refine Dev.setMode_keeps (k.mono rfl) ?_
    | with_reducible refine Dev.setFld_keeps (k.mono rfl) ?_
    | with_reducible refine Dev.wr_keeps (k.mono rfl) ?_
    | with_reducible refine Dev.startWear_keeps (k.mono rfl) ?_
    | (fail_if_no_progress extract_lets +onlyGivenNames x)
    | split)

theorem Dev.startUpStep_keeps {P : Dev → Prop} {d : Dev} {env : Sys2Proof.StartEnv} (k : Keeps [.regs, .log, .outbox, .ing, .scr, .tms, .store, .stk, .wear, .fab, .num, .boot, .pwr] P) (h : P d) :
    P (Dev.startUpStep d env) := by
  unfold Dev.startUpStep
  repeat' (first
    | with_reducible assumption
    | with_reducible refine Dev.beginStep_keeps (k.mono rfl) ?_
    | with_reducible refine Dev.endStep2_keeps (k.mono rfl) ?_
    | with_reducible refine Dev.endStep3_keeps (k.mono rfl) ?_
    | with_reducible refine Dev.endStep4_keeps (k.mono rfl) ?_
    | with_reducible refine Dev.endStep5_keeps (k.mono rfl) ?_
    | with_reducible refine Dev.endStep6_keeps (k.mono rfl) ?_
    | with_reducible refine Dev.endStep7_keeps (k.mono rfl) ?_
    | with_reducible refine Dev.endStep8_keeps (k.mono rfl) ?_
    | with_reducible refine Dev.endStep9_keeps (k.mono rfl) ?_
    | with_reducible refine Dev.endStep10_keeps (k.mono rfl) ?_
    | (fail_if_no_progress extract_lets +onlyGivenNames x)
    | split)

theorem Dev.armLocked_keeps {P : Dev → Prop} {d : Dev} (k : Keeps [.regs, .scr, .acq] P) (h : P d) :
    P (Dev.armLocked d) := by
  unfold Dev.armLocked
  repeat' (first
    | with_reducible assumption
    | with_reducible refine Dev.arm_keeps (k.mono rfl) ?_
    | (fail_if_no_progress extract_lets +onlyGivenNames x)
    | split)

theorem Dev.armWaited_keeps {P : Dev → Prop} {d : Dev} (k : Keeps [.regs, .scr, .acq] P) (h : P d) :
    P (Dev.armWaited d) := by
  unfold Dev.armWaited
  repeat' (first
    | with_reducible assumption
    | with_reducible refine Dev.arm_keeps (k.mono rfl) ?_
    | (fail_if_no_progress extract_lets +onlyGivenNames x)
    | split)

theorem Dev.sectionWatchdog_keeps {P : Dev → Prop} {d : Dev} {tie : Bool} (k : Keeps [.regs, .log, .outbox, .ing, .scr, .tms, .store, .stk, .fab, .num, .boot, .pwr] P) (h : P d) :
    P (Dev.sectionWatchdog d tie) := by
  unfold Dev.sectionWatchdog
  repeat' (first
    | with_reducible assumption
    | with_reducible refine Dev.reject_keeps (k.mono rfl) ?_
    | with_reducible refine Dev.enterFault_keeps (k.mono rfl) ?_
    | (fail_if_no_progress extract_lets +onlyGivenNames x)
    | split
    | with_reducible refine upd_boot (k.mono rfl) ?_)

theorem Dev.bootWatchdog_keeps {P : Dev → Prop} {d : Dev} {tie : Bool} (k : Keeps [.regs, .outbox, .scr, .tms, .pwr] P) (h : P d) :
    P (Dev.bootWatchdog d tie) := by
  unfold Dev.bootWatchdog
  repeat' (first
    | with_reducible assumption
    | with_reducible refine Dev.setFld_keeps (k.mono rfl) ?_
    | with_reducible refine Dev.enterFault_keeps (k.mono rfl) ?_
    | ((fail_if_no_progress extract_lets +onlyGivenNames x); refine cut_keeps (A := P x) ?_ (fun hx => ?_); on_goal 1 => subst x)
    | (fail_if_no_progress extract_lets +onlyGivenNames x)
    | split)

theorem Dev.attestGo_keeps {P : Dev → Prop} {d : Dev} (k : Keeps [.regs, .boot] P) (h : P d) :
    P (Dev.attestGo d) := by
  unfold Dev.attestGo
  repeat' (first
    | with_reducible assumption
    | with_reducible refine Dev.count_keeps (k.mono rfl) ?_
    | with_reducible refine Dev.setFld_keeps (k.mono rfl) ?_
    | (fail_if_no_progress extract_lets +onlyGivenNames x)
    | split
    | with_reducible refine upd_boot (k.mono rfl) ?_)

theorem Dev.attestDone_keeps {P : Dev → Prop} {d : Dev} (k : Keeps [.regs, .boot] P) (h : P d) :
    P (Dev.attestDone d) := by
  unfold Dev.attestDone
  repeat' (first
    | with_reducible assumption
    | with_reducible refine Dev.wr_keeps (k.mono rfl) ?_
    | with_reducible refine Dev.setFld_keeps (k.mono rfl) ?_
    | with_reducible refine Dev.count_keeps (k.mono rfl) ?_
    | with_reducible refine foldl_keeps (fun e x he => ?_) ?_
    | with_reducible refine foldl_fst_keeps (fun e x he => ?_) ?_
    | with_reducible refine foldl_snd_keeps (fun e x he => ?_) ?_
    | (fail_if_no_progress extract_lets +onlyGivenNames x)
    | split
    | with_reducible refine upd_boot (k.mono rfl) ?_)

theorem Dev.checkpoint_keeps {P : Dev → Prop} {d : Dev} (k : Keeps [.regs, .log] P) (h : P d) :
    P (Dev.checkpoint d) := by
  unfold Dev.checkpoint
  repeat' (first
    | with_reducible assumption
    | with_reducible refine Dev.logInternal_keeps (k.mono rfl) ?_
    | with_reducible refine Dev.count_keeps (k.mono rfl) ?_
    | ((fail_if_no_progress extract_lets +onlyGivenNames x); refine cut_keeps (A := P x) ?_ (fun hx => ?_); on_goal 1 => subst x)
    | (fail_if_no_progress extract_lets +onlyGivenNames x)
    | split
    | with_reducible refine upd_log (k.mono rfl) id ?_)

theorem Dev.checkpointSigned_keeps {P : Dev → Prop} {d : Dev} (k : Keeps [.regs, .log] P) (h : P d) :
    P (Dev.checkpointSigned d) := by
  unfold Dev.checkpointSigned
  repeat' (first
    | with_reducible assumption
    | with_reducible refine Dev.wr_keeps (k.mono rfl) ?_
    | with_reducible refine Dev.logInternal_keeps (k.mono rfl) ?_
    | with_reducible refine foldl_keeps (fun e x he => ?_) ?_
    | with_reducible refine foldl_fst_keeps (fun e x he => ?_) ?_
    | with_reducible refine foldl_snd_keeps (fun e x he => ?_) ?_
    | ((fail_if_no_progress extract_lets +onlyGivenNames x); refine cut_keeps (A := P x) ?_ (fun hx => ?_); on_goal 1 => subst x)
    | (fail_if_no_progress extract_lets +onlyGivenNames x)
    | split
    | with_reducible refine upd_log (k.mono rfl) id ?_)

theorem Dev.mirrorWrite_keeps {P : Dev → Prop} {d : Dev} (k : Keeps [.regs, .log, .outbox, .ing, .store, .msh, .hst] P) (h : P d) :
    P d.mirrorWrite := by
  unfold Dev.mirrorWrite
  extract_lets cap full loses d1 src
  split
  · exact h
  · split
    · exact h
    · split
      · exact h
      · have h1 : P d1 := Dev.countIf_keeps (k.mono rfl) h
        exact Dev.fillAllPacked_keeps (k.mono rfl)
          (upd_log (k.mono rfl) (fun hl => ⟨hl.1, hl.2.1, Nat.le_trans (Nat.sub_le _ _) hl.2.2⟩) h1)

theorem Dev.logRowFails_keeps {P : Dev → Prop} {d : Dev} {first count : Nat} (k : Keeps [.regs, .log] P) (h : P d) :
    P (d.logRowFails first count) := by
  unfold Dev.logRowFails
  extract_lets inRow fresh gone d1 src d2
  have h1 : P d1 := Dev.countN_keeps (k.mono rfl) (Dev.count_keeps (k.mono rfl) h)
  have h2 : P d2 := by
    refine upd_log (k.mono rfl) (fun hl => ⟨Nat.le_trans (Nat.sub_le _ _) hl.1, ?_, ?_⟩) h1
    · exact Nat.le_trans (List.length_filter_le _ _) hl.2.1
    · exact ((List.take_sublist _ _).filter _).length_le
  split
  · exact Dev.logInternal_keeps (k.mono rfl) h2
  · exact h2

theorem Dev.stagingFails_keeps {P : Dev → Prop} {d : Dev} (k : Keeps [.regs, .fab] P) (h : P d) :
    P (Dev.stagingFails d) := by
  unfold Dev.stagingFails
  repeat' (first
    | with_reducible assumption
    | with_reducible refine Dev.count_keeps (k.mono rfl) ?_
    | with_reducible refine Dev.sectionFails_keeps (k.mono rfl) ?_
    | with_reducible refine foldl_keeps (fun e x he => ?_) ?_
    | with_reducible refine foldl_fst_keeps (fun e x he => ?_) ?_
    | with_reducible refine foldl_snd_keeps (fun e x he => ?_) ?_
    | (fail_if_no_progress extract_lets +onlyGivenNames x)
    | split)

end Sys2Proof.Machine
end

