-- ==== Sys2Proof/Laws/KeepBus.lean ====
section
/-!
SUPPORT. What the operations of Machine/Bus.lean may change.
-/

namespace Sys2Proof.Machine

open Sys2Proof

theorem Dev.busRead_keeps {P : Dev → Prop} {d : Dev} {o : Sys2Proof.Origin} {addr : ℕ} (k : Keeps [.caps] P) (h : P d) :
    P (Dev.busRead d o addr).2 := by
  unfold Dev.busRead
  repeat' (first
    | with_reducible assumption
    | (fail_if_no_progress extract_lets +onlyGivenNames x)
    | split
    | (dsimp only; done)
    | with_reducible refine upd_caps (k.mono rfl) ?_)

theorem Dev.adminWritten_keeps {P : Dev → Prop} {d : Dev} {a : ℕ} {new : ℕ} (k : Keeps [.regs, .ing] P) (h : P d) :
    P (Dev.adminWritten d a new) := by
  unfold Dev.adminWritten
  repeat' (first
    | with_reducible assumption
    | with_reducible refine Dev.wr_keeps (k.mono rfl) ?_
    | with_reducible refine Dev.laneOff_keeps (k.mono rfl) ?_
    | with_reducible refine Dev.laneOn_keeps (k.mono rfl) ?_
    | with_reducible refine Dev.laneSync_keeps (k.mono rfl) ?_
    | ((fail_if_no_progress extract_lets +onlyGivenNames x); refine cut_keeps (A := P x) ?_ (fun hx => ?_); on_goal 1 => subst x)
    | (fail_if_no_progress extract_lets +onlyGivenNames x)
    | split)

theorem Dev.ctxWritten_keeps {P : Dev → Prop} {d : Dev} {g : ℕ} {y2 : ℕ} (k : Keeps [.regs, .fab] P) (h : P d) :
    P (Dev.ctxWritten d g y2) := by
  unfold Dev.ctxWritten
  repeat' (first
    | with_reducible assumption
    | with_reducible refine Dev.setFld_keeps (k.mono rfl) ?_
    | with_reducible refine Dev.setGrp_keeps (k.mono rfl) ?_
    | ((fail_if_no_progress extract_lets +onlyGivenNames x); refine cut_keeps (A := P x) ?_ (fun hx => ?_); on_goal 1 => subst x)
    | (fail_if_no_progress extract_lets +onlyGivenNames x)
    | split)

theorem Dev.liveApply_keeps {P : Dev → Prop} {d : Dev} {r : Sys2Proof.RegRow} {a : ℕ} {new : ℕ} (k : Keeps [.regs, .log, .freeCtr, .outbox, .ing, .prm, .tms, .acq, .store, .fab, .num, .pwr] P) (h : P d) :
    P (Dev.liveApply d r a new) := by
  unfold Dev.liveApply
  repeat' (first
    | with_reducible assumption
    | with_reducible refine Dev.stage_keeps (k.mono rfl) ?_
    | with_reducible refine Dev.adminWritten_keeps (k.mono rfl) ?_
    | with_reducible refine Dev.wr_keeps (k.mono rfl) ?_
    | with_reducible refine Dev.acceptJump_keeps (k.mono rfl) ?_
    | with_reducible refine Dev.tmsWrite_keeps (k.mono rfl) ?_
    | with_reducible refine Dev.ctxWritten_keeps (k.mono rfl) ?_
    | with_reducible refine Dev.ringFieldWritten_keeps (k.mono rfl) ?_
    | with_reducible refine Dev.pinWritten_keeps (k.mono rfl) ?_
    | with_reducible refine Dev.auxWritten_keeps (k.mono rfl) ?_
    | with_reducible refine Dev.noteReplaced_keeps (k.mono rfl) ?_
    | (fail_if_no_progress extract_lets +onlyGivenNames x)
    | split
    | with_reducible refine upd_tms (k.mono rfl) ?_)

theorem Dev.liveWrite_keeps {P : Dev → Prop} {d : Dev} {o : Sys2Proof.Origin} {r : Sys2Proof.RegRow} {a : ℕ} {v : ℕ} (k : Keeps [.regs, .log, .freeCtr, .outbox, .ing, .prm, .tms, .acq, .store, .fab, .num, .clk, .pwr] P) (h : P d) :
    P (Dev.liveWrite d o r a v).1 := by
  unfold Dev.liveWrite
  repeat' (first
    | with_reducible assumption
    | with_reducible refine Dev.liveEntry_keeps (k.mono rfl) ?_
    | with_reducible refine Dev.gateWrite_keeps (k.mono rfl) ?_
    | with_reducible refine Dev.liveApply_keeps (k.mono rfl) ?_
    | ((fail_if_no_progress extract_lets +onlyGivenNames x); refine cut_keeps (A := P x) ?_ (fun hx => ?_); on_goal 1 => subst x)
    | (fail_if_no_progress extract_lets +onlyGivenNames x)
    | split)

theorem Dev.refuseWrite_keeps {P : Dev → Prop} {d : Dev} {o : Sys2Proof.Origin} {a : ℕ} {v : ℕ} (k : Keeps [.regs, .log] P) (h : P d) :
    P (Dev.refuseWrite d o a v).1 := by
  unfold Dev.refuseWrite
  repeat' (first
    | with_reducible assumption
    | with_reducible refine Dev.logRefusal_keeps (k.mono rfl) ?_)

theorem Dev.ringWritten_keeps {P : Dev → Prop} {d : Dev} {o : Sys2Proof.Origin} {r : Sys2Proof.RegRow} {y3 : ℕ} {v : ℕ} (k : Keeps [.regs, .log, .outbox, .ing, .store, .msh, .hst] P) (h : P d) :
    P (Dev.ringWritten d o r y3 v).1 := by
  unfold Dev.ringWritten
  repeat' (first
    | with_reducible assumption
    | with_reducible refine Dev.wr_keeps (k.mono rfl) ?_
    | with_reducible refine Dev.liveEntry_keeps (k.mono rfl) ?_
    | with_reducible refine Dev.ringStart_keeps (k.mono rfl) ?_
    | with_reducible refine Dev.ringStop_keeps (k.mono rfl) ?_
    | with_reducible refine Dev.logRefusal_keeps (k.mono rfl) ?_
    | ((fail_if_no_progress extract_lets +onlyGivenNames x); refine cut_keeps (A := P x.1) ?_ (fun hx => ?_); on_goal 1 => subst x)
    | ((fail_if_no_progress extract_lets +onlyGivenNames x); refine cut_keeps (A := P x) ?_ (fun hx => ?_); on_goal 1 => subst x)
    | (fail_if_no_progress extract_lets +onlyGivenNames x)
    | split)

theorem Dev.plainWrite_keeps {P : Dev → Prop} {d : Dev} {r : Sys2Proof.RegRow} {a : ℕ} {v : ℕ} {hw : ℕ} (k : Keeps [.regs] P) (h : P d) :
    P (Dev.plainWrite d r a v hw) := by
  unfold Dev.plainWrite
  repeat' (first
    | with_reducible assumption
    | with_reducible refine Dev.wr_keeps (k.mono rfl) ?_)

theorem Dev.bridgeWritten_keeps {P : Dev → Prop} {d : Dev} {v : ℕ} (k : Keeps [.regs, .pwr] P) (h : P d) :
    P (Dev.bridgeWritten d v) := by
  unfold Dev.bridgeWritten
  repeat' (first
    | with_reducible assumption
    | with_reducible refine Dev.wr_keeps (k.mono rfl) ?_
    | with_reducible refine Dev.flashGo_keeps (k.mono rfl) ?_
    | ((fail_if_no_progress extract_lets +onlyGivenNames x); refine cut_keeps (A := P x) ?_ (fun hx => ?_); on_goal 1 => subst x)
    | (fail_if_no_progress extract_lets +onlyGivenNames x)
    | split)

theorem Dev.otherWrite_keeps {P : Dev → Prop} {d : Dev} {o : Sys2Proof.Origin} {r : Sys2Proof.RegRow} {a : ℕ} {v : ℕ} (k : Keeps [.regs, .log, .boot, .pwr] P) (h : P d) :
    P (Dev.otherWrite d o r a v).1 := by
  unfold Dev.otherWrite
  repeat' (first
    | with_reducible assumption
    | with_reducible refine Dev.refuseWrite_keeps (k.mono rfl) ?_
    | with_reducible refine Dev.attestGo_keeps (k.mono rfl) ?_
    | with_reducible refine Dev.bridgeWritten_keeps (k.mono rfl) ?_
    | with_reducible refine Dev.plainWrite_keeps (k.mono rfl) ?_
    | (with_reducible refine of_fst ‹_› ?_)
    | (with_reducible refine of_snd ‹_› ?_)
    | (fail_if_no_progress extract_lets +onlyGivenNames x)
    | split)

theorem Dev.busWrite_keeps {P : Dev → Prop} {d : Dev} {o : Sys2Proof.Origin} {addr : ℕ} {value : ℕ} (k : Keeps [.regs, .log, .freeCtr, .outbox, .ing, .prm, .tms, .acq, .store, .msh, .hst, .fab, .num, .boot, .clk, .pwr] P) (h : P d) :
    P (Dev.busWrite d o addr value).1 := by
  unfold Dev.busWrite
  repeat' (first
    | with_reducible assumption
    | with_reducible refine Dev.writeMsix_keeps (k.mono rfl) ?_
    | with_reducible refine Dev.otherWrite_keeps (k.mono rfl) ?_
    | with_reducible refine Dev.ringWritten_keeps (k.mono rfl) ?_
    | with_reducible refine Dev.liveWrite_keeps (k.mono rfl) ?_
    | (with_reducible refine of_fst ‹_› ?_)
    | (with_reducible refine of_snd ‹_› ?_)
    | (fail_if_no_progress extract_lets +onlyGivenNames x)
    | split)

theorem Dev.put_keeps {P : Dev → Prop} {d : Dev} {o : Sys2Proof.Origin} {a : ℕ} {v : ℕ} (k : Keeps [.regs, .log, .freeCtr, .outbox, .ing, .prm, .tms, .acq, .store, .msh, .hst, .fab, .num, .boot, .clk, .pwr] P) (h : P d) :
    P (Dev.put d o a v) := by
  unfold Dev.put
  repeat' (first
    | with_reducible assumption
    | with_reducible refine Dev.busWrite_keeps (k.mono rfl) ?_)

theorem Dev.fwdWrite_keeps {P : Dev → Prop} {d : Dev} {anchorWreq : Bool} {o : Sys2Proof.Origin} {v : ℕ} (k : Keeps [.regs, .log] P) (h : P d) :
    P (Dev.fwdWrite d anchorWreq o v) := by
  unfold Dev.fwdWrite
  repeat' (first
    | with_reducible assumption
    | with_reducible refine Dev.wr_keeps (k.mono rfl) ?_
    | with_reducible refine Dev.refuseWrite_keeps (k.mono rfl) ?_
    | (with_reducible refine of_fst ‹_› ?_)
    | (with_reducible refine of_snd ‹_› ?_)
    | (fail_if_no_progress extract_lets +onlyGivenNames x)
    | split)

theorem Dev.clearLoss_keeps {P : Dev → Prop} {d : Dev} {v : ℕ} {hw : ℕ} (k : Keeps [.regs] P) (h : P d) :
    P (Dev.clearLoss d v hw) := by
  unfold Dev.clearLoss
  repeat' (first
    | with_reducible assumption
    | with_reducible refine Dev.plainWrite_keeps (k.mono rfl) ?_
    | (fail_if_no_progress extract_lets +onlyGivenNames x)
    | split)

theorem Dev.sendWrite_keeps {P : Dev → Prop} {d : Dev} {t : ℕ} {ofs : ℕ} {v : ℕ} (k : Keeps [.outbox, .ing, .msh] P) (h : P d) :
    P (Dev.sendWrite d t ofs v) := by
  unfold Dev.sendWrite
  repeat' (first
    | with_reducible assumption
    | with_reducible refine Dev.hostSend_keeps (k.mono rfl) ?_)

theorem Dev.readDone_keeps {P : Dev → Prop} {d : Dev} {waiter : ℕ} {v : ℕ} (k : Keeps [.outbox] P) (h : P d) :
    P (Dev.readDone d waiter v) := by
  unfold Dev.readDone
  repeat' (first
    | with_reducible assumption
    | with_reducible refine Dev.emit_keeps (k.mono rfl) ?_
    | (fail_if_no_progress extract_lets +onlyGivenNames x)
    | split)

theorem Dev.tellOrigin_keeps {P : Dev → Prop} {d : Dev} {o : Sys2Proof.Origin} {t : ℕ} (k : Keeps [.outbox, .ing, .msh] P) (h : P d) :
    P (Dev.tellOrigin d o t) := by
  unfold Dev.tellOrigin
  repeat' (first
    | with_reducible assumption
    | with_reducible refine Dev.sendWrite_keeps (k.mono rfl) ?_
    | (fail_if_no_progress extract_lets +onlyGivenNames x)
    | split
    | with_reducible refine upd_msh (k.mono rfl) ?_)

theorem Dev.forwardWrite_keeps {P : Dev → Prop} {d : Dev} {o : Sys2Proof.Origin} {t : ℕ} {ofs : ℕ} {v : ℕ} (k : Keeps [.regs, .log, .outbox, .ing, .msh] P) (h : P d) :
    P (Dev.forwardWrite d o t ofs v).1 := by
  unfold Dev.forwardWrite
  repeat' (first
    | with_reducible assumption
    | with_reducible refine Dev.refuseWrite_keeps (k.mono rfl) ?_
    | with_reducible refine Dev.count_keeps (k.mono rfl) ?_
    | with_reducible refine Dev.tellOrigin_keeps (k.mono rfl) ?_
    | with_reducible refine Dev.sendWrite_keeps (k.mono rfl) ?_
    | (with_reducible refine of_fst ‹_› ?_)
    | (with_reducible refine of_snd ‹_› ?_)
    | (fail_if_no_progress extract_lets +onlyGivenNames x)
    | split)

theorem Dev.forwardRead_keeps {P : Dev → Prop} {d : Dev} {o : Sys2Proof.Origin} {t : ℕ} {ofs : ℕ} {waiter : ℕ} (k : Keeps [.regs, .outbox, .ing, .msh] P) (h : P d) :
    P (Dev.forwardRead d o t ofs waiter) := by
  unfold Dev.forwardRead
  repeat' (first
    | with_reducible assumption
    | with_reducible refine Dev.count_keeps (k.mono rfl) ?_
    | with_reducible refine Dev.readDone_keeps (k.mono rfl) ?_
    | with_reducible refine Dev.tellOrigin_keeps (k.mono rfl) ?_
    | with_reducible refine Dev.hostSend_keeps (k.mono rfl) ?_
    | (with_reducible refine of_fst ‹_› ?_)
    | (with_reducible refine of_snd ‹_› ?_)
    | ((fail_if_no_progress extract_lets +onlyGivenNames x); refine cut_keeps (A := P x) ?_ (fun hx => ?_); on_goal 1 => subst x)
    | (fail_if_no_progress extract_lets +onlyGivenNames x)
    | split
    | with_reducible refine upd_msh (k.mono rfl) ?_)

theorem Dev.barAccess_keeps {P : Dev → Prop} {d : Dev} {addr : ℕ} {write : Bool} {v : ℕ} (k : Keeps [.regs, .caps, .log, .freeCtr, .outbox, .ing, .prm, .tms, .acq, .store, .msh, .hst, .fab, .num, .boot, .clk, .pwr] P) (h : P d) :
    P (Dev.barAccess d addr write v) := by
  unfold Dev.barAccess
  repeat' (first
    | with_reducible assumption
    | with_reducible refine Dev.put_keeps (k.mono rfl) ?_
    | with_reducible refine Dev.busRead_keeps (k.mono rfl) ?_
    | with_reducible refine Dev.emit_keeps (k.mono rfl) ?_
    | with_reducible refine Dev.forwardWrite_keeps (k.mono rfl) ?_
    | with_reducible refine Dev.forwardRead_keeps (k.mono rfl) ?_
    | (with_reducible refine of_fst ‹_› ?_)
    | (with_reducible refine of_snd ‹_› ?_)
    | (fail_if_no_progress extract_lets +onlyGivenNames x)
    | split)

theorem Dev.readRun_keeps {P : Dev → Prop} {d : Dev} {o : Sys2Proof.Origin} {ofs : ℕ} {a : ℕ} (k : Keeps [.caps] P) (h : P d) :
    P (Dev.readRun d o ofs a).2 := by
  induction a generalizing d ofs with
  | zero => exact h
  | succ a ih =>
  rw [Dev.readRun]
  repeat' (first
    | with_reducible assumption
    | with_reducible refine Dev.busRead_keeps (k.mono rfl) ?_
    | with_reducible refine ih ?_)

theorem Dev.takeWreq_keeps {P : Dev → Prop} {d : Dev} {src : ℕ} {b : ℕ} {data : List (BitVec 128)} (k : Keeps [.regs, .caps, .log, .freeCtr, .outbox, .ing, .prm, .tms, .acq, .store, .msh, .hst, .fab, .num, .boot, .clk, .pwr] P) (h : P d) :
    P (Dev.takeWreq d src b data) := by
  unfold Dev.takeWreq
  repeat' (first
    | with_reducible assumption
    | with_reducible refine Dev.fwdWrite_keeps (k.mono rfl) ?_
    | with_reducible refine Dev.put_keeps (k.mono rfl) ?_
    | with_reducible refine Dev.readRun_keeps (k.mono rfl) ?_
    | with_reducible refine Dev.hostSend_keeps (k.mono rfl) ?_
    | (with_reducible refine of_fst ‹_› ?_)
    | (with_reducible refine of_snd ‹_› ?_)
    | (fail_if_no_progress extract_lets +onlyGivenNames x)
    | split)

theorem Dev.takeWcpl_keeps {P : Dev → Prop} {d : Dev} {b : ℕ} {data : List (BitVec 128)} (k : Keeps [.regs, .outbox, .msh] P) (h : P d) :
    P (Dev.takeWcpl d b data) := by
  unfold Dev.takeWcpl
  repeat' (first
    | with_reducible assumption
    | with_reducible refine Dev.count_keeps (k.mono rfl) ?_
    | with_reducible refine Dev.readDone_keeps (k.mono rfl) ?_
    | ((fail_if_no_progress extract_lets +onlyGivenNames x); refine cut_keeps (A := P x) ?_ (fun hx => ?_); on_goal 1 => subst x)
    | (fail_if_no_progress extract_lets +onlyGivenNames x)
    | split
    | with_reducible refine upd_msh (k.mono rfl) ?_)

theorem Dev.readExpire_keeps {P : Dev → Prop} {d : Dev} {tag : ℕ} {tie : Bool} (k : Keeps [.regs, .outbox, .msh] P) (h : P d) :
    P (Dev.readExpire d tag tie) := by
  unfold Dev.readExpire
  repeat' (first
    | with_reducible assumption
    | with_reducible refine Dev.count_keeps (k.mono rfl) ?_
    | with_reducible refine Dev.readDone_keeps (k.mono rfl) ?_
    | (fail_if_no_progress extract_lets +onlyGivenNames x)
    | split
    | with_reducible refine upd_msh (k.mono rfl) ?_)

theorem Dev.answer_keeps {P : Dev → Prop} {d : Dev} {st : Status} {v : Option ℕ} (k : Keeps [.outbox] P) (h : P d) :
    P (Dev.answer d st v) := by
  unfold Dev.answer
  repeat' (first | with_reducible assumption | with_reducible refine Dev.emit_keeps (k.mono rfl) ?_)

theorem Dev.mgtRequest_keeps {P : Dev → Prop} {d : Dev} {req : ℕ} {dev : ℕ} {op : ℕ} {ofs : ℕ} {data : ℕ} {check : ℕ} (k : Keeps [.regs, .caps, .log, .freeCtr, .outbox, .ing, .prm, .tms, .acq, .store, .msh, .hst, .fab, .num, .boot, .clk, .pwr] P) (h : P d) :
    P (Dev.mgtRequest d req dev op ofs data check) := by
  unfold Dev.mgtRequest
  repeat' (first
    | with_reducible assumption
    | with_reducible refine Dev.count_keeps (k.mono rfl) ?_
    | with_reducible refine Dev.answer_keeps (k.mono rfl) ?_
    | with_reducible refine Dev.busRead_keeps (k.mono rfl) ?_
    | with_reducible refine Dev.busWrite_keeps (k.mono rfl) ?_
    | with_reducible refine Dev.forwardRead_keeps (k.mono rfl) ?_
    | with_reducible refine Dev.forwardWrite_keeps (k.mono rfl) ?_
    | (with_reducible refine of_fst ‹_› ?_)
    | (with_reducible refine of_snd ‹_› ?_)
    | (fail_if_no_progress extract_lets +onlyGivenNames x)
    | split)

end Sys2Proof.Machine
end

