-- ==== Sys2Proof/Laws/KeepOperands.lean ====
section
/-!
SUPPORT. What the operations of Machine/Operands.lean may change.
-/

namespace Sys2Proof.Machine

open Sys2Proof

theorem Dev.message_keeps {P : Dev → Prop} {d : Dev} {p : Fin 6} {ty : ℕ} {b : BitVec 120} {data : List (BitVec 128)} {f : Dev → Dev} (k : Keeps [.regs, .outbox, .ing, .msh] P) (hf : ∀ e, P e → P (f e)) (h : P d) :
    P (Dev.message d p ty b data f) := by
  unfold Dev.message
  repeat' (first
    | with_reducible assumption
    | with_reducible refine Dev.hostReceive_keeps (k.mono rfl) ?_
    | with_reducible refine hf _ ?_
    | (with_reducible refine of_fst ‹_› ?_)
    | (with_reducible refine of_snd ‹_› ?_)
    | (fail_if_no_progress extract_lets +onlyGivenNames x)
    | split)

end Sys2Proof.Machine
end

