-- ==== Sys2Proof/Laws/KeepSampling.lean ====
section
/-!
SUPPORT. What the operations of Machine/Sampling.lean may change.
-/

namespace Sys2Proof.Machine

open Sys2Proof

theorem Dev.takeSample_keeps {P : Dev → Prop} {d : Dev} (k : Keeps [.regs, .freeCtr, .ing, .prm, .acq, .store] P) (h : P d) :
    P (Dev.takeSample d) := by
  unfold Dev.takeSample
  repeat' (first
    | with_reducible assumption
    | with_reducible refine Dev.primSample_keeps (k.mono rfl) ?_
    | with_reducible refine Dev.ringSample_keeps (k.mono rfl) ?_
    | (fail_if_no_progress extract_lets +onlyGivenNames x)
    | split
    | with_reducible refine upd_ing (k.mono rfl) ?_)

end Sys2Proof.Machine
end

