-- ==== Sys2Proof/Laws/State.lean ====
section
/-!
SUPPORT. What each named update of the device leaves in each field, and registers read after they are written.
-/

namespace Sys2Proof.Machine

open Sys2Proof

@[simp] theorem Dev.wr_caps (d : Dev) (a v : Nat) : (d.wr a v).caps = d.caps := rfl
@[simp] theorem Dev.wr_log (d : Dev) (a v : Nat) : (d.wr a v).log = d.log := rfl
@[simp] theorem Dev.wr_part (d : Dev) (a v : Nat) : (d.wr a v).part = d.part := rfl
@[simp] theorem Dev.wr_step (d : Dev) (a v : Nat) : (d.wr a v).step = d.step := rfl
@[simp] theorem Dev.wr_gid (d : Dev) (a v : Nat) : (d.wr a v).gid = d.gid := rfl
@[simp] theorem Dev.wr_testEn (d : Dev) (a v : Nat) : (d.wr a v).testEn = d.testEn := rfl
@[simp] theorem Dev.wr_devNs (d : Dev) (a v : Nat) : (d.wr a v).devNs = d.devNs := rfl
@[simp] theorem Dev.wr_inReset (d : Dev) (a v : Nat) : (d.wr a v).inReset = d.inReset := rfl
@[simp] theorem Dev.wr_freeCtr (d : Dev) (a v : Nat) : (d.wr a v).freeCtr = d.freeCtr := rfl
@[simp] theorem Dev.wr_outbox (d : Dev) (a v : Nat) : (d.wr a v).outbox = d.outbox := rfl
@[simp] theorem Dev.wr_ing (d : Dev) (a v : Nat) : (d.wr a v).ing = d.ing := rfl
@[simp] theorem Dev.wr_prm (d : Dev) (a v : Nat) : (d.wr a v).prm = d.prm := rfl
@[simp] theorem Dev.wr_scr (d : Dev) (a v : Nat) : (d.wr a v).scr = d.scr := rfl
@[simp] theorem Dev.wr_tms (d : Dev) (a v : Nat) : (d.wr a v).tms = d.tms := rfl
@[simp] theorem Dev.wr_acq (d : Dev) (a v : Nat) : (d.wr a v).acq = d.acq := rfl
@[simp] theorem Dev.wr_store (d : Dev) (a v : Nat) : (d.wr a v).store = d.store := rfl
@[simp] theorem Dev.wr_stk (d : Dev) (a v : Nat) : (d.wr a v).stk = d.stk := rfl
@[simp] theorem Dev.wr_msh (d : Dev) (a v : Nat) : (d.wr a v).msh = d.msh := rfl
@[simp] theorem Dev.wr_hst (d : Dev) (a v : Nat) : (d.wr a v).hst = d.hst := rfl
@[simp] theorem Dev.wr_wear (d : Dev) (a v : Nat) : (d.wr a v).wear = d.wear := rfl
@[simp] theorem Dev.wr_fab (d : Dev) (a v : Nat) : (d.wr a v).fab = d.fab := rfl
@[simp] theorem Dev.wr_num (d : Dev) (a v : Nat) : (d.wr a v).num = d.num := rfl
@[simp] theorem Dev.wr_boot (d : Dev) (a v : Nat) : (d.wr a v).boot = d.boot := rfl
@[simp] theorem Dev.wr_clk (d : Dev) (a v : Nat) : (d.wr a v).clk = d.clk := rfl
@[simp] theorem Dev.wr_pwr (d : Dev) (a v : Nat) : (d.wr a v).pwr = d.pwr := rfl

@[simp] theorem Dev.setFld_caps (d : Dev) (a : Nat) (f : Fld) (v : Nat) : (d.setFld a f v).caps = d.caps := rfl
@[simp] theorem Dev.setFld_log (d : Dev) (a : Nat) (f : Fld) (v : Nat) : (d.setFld a f v).log = d.log := rfl
@[simp] theorem Dev.setFld_part (d : Dev) (a : Nat) (f : Fld) (v : Nat) : (d.setFld a f v).part = d.part := rfl
@[simp] theorem Dev.setFld_step (d : Dev) (a : Nat) (f : Fld) (v : Nat) : (d.setFld a f v).step = d.step := rfl
@[simp] theorem Dev.setFld_gid (d : Dev) (a : Nat) (f : Fld) (v : Nat) : (d.setFld a f v).gid = d.gid := rfl
@[simp] theorem Dev.setFld_testEn (d : Dev) (a : Nat) (f : Fld) (v : Nat) : (d.setFld a f v).testEn = d.testEn := rfl
@[simp] theorem Dev.setFld_devNs (d : Dev) (a : Nat) (f : Fld) (v : Nat) : (d.setFld a f v).devNs = d.devNs := rfl
@[simp] theorem Dev.setFld_inReset (d : Dev) (a : Nat) (f : Fld) (v : Nat) : (d.setFld a f v).inReset = d.inReset := rfl
@[simp] theorem Dev.setFld_freeCtr (d : Dev) (a : Nat) (f : Fld) (v : Nat) : (d.setFld a f v).freeCtr = d.freeCtr := rfl
@[simp] theorem Dev.setFld_outbox (d : Dev) (a : Nat) (f : Fld) (v : Nat) : (d.setFld a f v).outbox = d.outbox := rfl
@[simp] theorem Dev.setFld_ing (d : Dev) (a : Nat) (f : Fld) (v : Nat) : (d.setFld a f v).ing = d.ing := rfl
@[simp] theorem Dev.setFld_prm (d : Dev) (a : Nat) (f : Fld) (v : Nat) : (d.setFld a f v).prm = d.prm := rfl
@[simp] theorem Dev.setFld_scr (d : Dev) (a : Nat) (f : Fld) (v : Nat) : (d.setFld a f v).scr = d.scr := rfl
@[simp] theorem Dev.setFld_tms (d : Dev) (a : Nat) (f : Fld) (v : Nat) : (d.setFld a f v).tms = d.tms := rfl
@[simp] theorem Dev.setFld_acq (d : Dev) (a : Nat) (f : Fld) (v : Nat) : (d.setFld a f v).acq = d.acq := rfl
@[simp] theorem Dev.setFld_store (d : Dev) (a : Nat) (f : Fld) (v : Nat) : (d.setFld a f v).store = d.store := rfl
@[simp] theorem Dev.setFld_stk (d : Dev) (a : Nat) (f : Fld) (v : Nat) : (d.setFld a f v).stk = d.stk := rfl
@[simp] theorem Dev.setFld_msh (d : Dev) (a : Nat) (f : Fld) (v : Nat) : (d.setFld a f v).msh = d.msh := rfl
@[simp] theorem Dev.setFld_hst (d : Dev) (a : Nat) (f : Fld) (v : Nat) : (d.setFld a f v).hst = d.hst := rfl
@[simp] theorem Dev.setFld_wear (d : Dev) (a : Nat) (f : Fld) (v : Nat) : (d.setFld a f v).wear = d.wear := rfl
@[simp] theorem Dev.setFld_fab (d : Dev) (a : Nat) (f : Fld) (v : Nat) : (d.setFld a f v).fab = d.fab := rfl
@[simp] theorem Dev.setFld_num (d : Dev) (a : Nat) (f : Fld) (v : Nat) : (d.setFld a f v).num = d.num := rfl
@[simp] theorem Dev.setFld_boot (d : Dev) (a : Nat) (f : Fld) (v : Nat) : (d.setFld a f v).boot = d.boot := rfl
@[simp] theorem Dev.setFld_clk (d : Dev) (a : Nat) (f : Fld) (v : Nat) : (d.setFld a f v).clk = d.clk := rfl
@[simp] theorem Dev.setFld_pwr (d : Dev) (a : Nat) (f : Fld) (v : Nat) : (d.setFld a f v).pwr = d.pwr := rfl

@[simp] theorem Dev.countN_caps (d : Dev) (a n : Nat) : (d.countN a n).caps = d.caps := rfl
@[simp] theorem Dev.countN_log (d : Dev) (a n : Nat) : (d.countN a n).log = d.log := rfl
@[simp] theorem Dev.countN_part (d : Dev) (a n : Nat) : (d.countN a n).part = d.part := rfl
@[simp] theorem Dev.countN_step (d : Dev) (a n : Nat) : (d.countN a n).step = d.step := rfl
@[simp] theorem Dev.countN_gid (d : Dev) (a n : Nat) : (d.countN a n).gid = d.gid := rfl
@[simp] theorem Dev.countN_testEn (d : Dev) (a n : Nat) : (d.countN a n).testEn = d.testEn := rfl
@[simp] theorem Dev.countN_devNs (d : Dev) (a n : Nat) : (d.countN a n).devNs = d.devNs := rfl
@[simp] theorem Dev.countN_inReset (d : Dev) (a n : Nat) : (d.countN a n).inReset = d.inReset := rfl
@[simp] theorem Dev.countN_freeCtr (d : Dev) (a n : Nat) : (d.countN a n).freeCtr = d.freeCtr := rfl
@[simp] theorem Dev.countN_outbox (d : Dev) (a n : Nat) : (d.countN a n).outbox = d.outbox := rfl
@[simp] theorem Dev.countN_ing (d : Dev) (a n : Nat) : (d.countN a n).ing = d.ing := rfl
@[simp] theorem Dev.countN_prm (d : Dev) (a n : Nat) : (d.countN a n).prm = d.prm := rfl
@[simp] theorem Dev.countN_scr (d : Dev) (a n : Nat) : (d.countN a n).scr = d.scr := rfl
@[simp] theorem Dev.countN_tms (d : Dev) (a n : Nat) : (d.countN a n).tms = d.tms := rfl
@[simp] theorem Dev.countN_acq (d : Dev) (a n : Nat) : (d.countN a n).acq = d.acq := rfl
@[simp] theorem Dev.countN_store (d : Dev) (a n : Nat) : (d.countN a n).store = d.store := rfl
@[simp] theorem Dev.countN_stk (d : Dev) (a n : Nat) : (d.countN a n).stk = d.stk := rfl
@[simp] theorem Dev.countN_msh (d : Dev) (a n : Nat) : (d.countN a n).msh = d.msh := rfl
@[simp] theorem Dev.countN_hst (d : Dev) (a n : Nat) : (d.countN a n).hst = d.hst := rfl
@[simp] theorem Dev.countN_wear (d : Dev) (a n : Nat) : (d.countN a n).wear = d.wear := rfl
@[simp] theorem Dev.countN_fab (d : Dev) (a n : Nat) : (d.countN a n).fab = d.fab := rfl
@[simp] theorem Dev.countN_num (d : Dev) (a n : Nat) : (d.countN a n).num = d.num := rfl
@[simp] theorem Dev.countN_boot (d : Dev) (a n : Nat) : (d.countN a n).boot = d.boot := rfl
@[simp] theorem Dev.countN_clk (d : Dev) (a n : Nat) : (d.countN a n).clk = d.clk := rfl
@[simp] theorem Dev.countN_pwr (d : Dev) (a n : Nat) : (d.countN a n).pwr = d.pwr := rfl

@[simp] theorem Dev.count_caps (d : Dev) (a : Nat) : (d.count a).caps = d.caps := rfl
@[simp] theorem Dev.count_log (d : Dev) (a : Nat) : (d.count a).log = d.log := rfl
@[simp] theorem Dev.count_part (d : Dev) (a : Nat) : (d.count a).part = d.part := rfl
@[simp] theorem Dev.count_step (d : Dev) (a : Nat) : (d.count a).step = d.step := rfl
@[simp] theorem Dev.count_gid (d : Dev) (a : Nat) : (d.count a).gid = d.gid := rfl
@[simp] theorem Dev.count_testEn (d : Dev) (a : Nat) : (d.count a).testEn = d.testEn := rfl
@[simp] theorem Dev.count_devNs (d : Dev) (a : Nat) : (d.count a).devNs = d.devNs := rfl
@[simp] theorem Dev.count_inReset (d : Dev) (a : Nat) : (d.count a).inReset = d.inReset := rfl
@[simp] theorem Dev.count_freeCtr (d : Dev) (a : Nat) : (d.count a).freeCtr = d.freeCtr := rfl
@[simp] theorem Dev.count_outbox (d : Dev) (a : Nat) : (d.count a).outbox = d.outbox := rfl
@[simp] theorem Dev.count_ing (d : Dev) (a : Nat) : (d.count a).ing = d.ing := rfl
@[simp] theorem Dev.count_prm (d : Dev) (a : Nat) : (d.count a).prm = d.prm := rfl
@[simp] theorem Dev.count_scr (d : Dev) (a : Nat) : (d.count a).scr = d.scr := rfl
@[simp] theorem Dev.count_tms (d : Dev) (a : Nat) : (d.count a).tms = d.tms := rfl
@[simp] theorem Dev.count_acq (d : Dev) (a : Nat) : (d.count a).acq = d.acq := rfl
@[simp] theorem Dev.count_store (d : Dev) (a : Nat) : (d.count a).store = d.store := rfl
@[simp] theorem Dev.count_stk (d : Dev) (a : Nat) : (d.count a).stk = d.stk := rfl
@[simp] theorem Dev.count_msh (d : Dev) (a : Nat) : (d.count a).msh = d.msh := rfl
@[simp] theorem Dev.count_hst (d : Dev) (a : Nat) : (d.count a).hst = d.hst := rfl
@[simp] theorem Dev.count_wear (d : Dev) (a : Nat) : (d.count a).wear = d.wear := rfl
@[simp] theorem Dev.count_fab (d : Dev) (a : Nat) : (d.count a).fab = d.fab := rfl
@[simp] theorem Dev.count_num (d : Dev) (a : Nat) : (d.count a).num = d.num := rfl
@[simp] theorem Dev.count_boot (d : Dev) (a : Nat) : (d.count a).boot = d.boot := rfl
@[simp] theorem Dev.count_clk (d : Dev) (a : Nat) : (d.count a).clk = d.clk := rfl
@[simp] theorem Dev.count_pwr (d : Dev) (a : Nat) : (d.count a).pwr = d.pwr := rfl

@[simp] theorem Dev.countIf_caps (d : Dev) (b : Bool) (a : Nat) : (d.countIf b a).caps = d.caps := by
  unfold Dev.countIf; split <;> rfl
@[simp] theorem Dev.countIf_log (d : Dev) (b : Bool) (a : Nat) : (d.countIf b a).log = d.log := by
  unfold Dev.countIf; split <;> rfl
@[simp] theorem Dev.countIf_part (d : Dev) (b : Bool) (a : Nat) : (d.countIf b a).part = d.part := by
  unfold Dev.countIf; split <;> rfl
@[simp] theorem Dev.countIf_step (d : Dev) (b : Bool) (a : Nat) : (d.countIf b a).step = d.step := by
  unfold Dev.countIf; split <;> rfl
@[simp] theorem Dev.countIf_gid (d : Dev) (b : Bool) (a : Nat) : (d.countIf b a).gid = d.gid := by
  unfold Dev.countIf; split <;> rfl
@[simp] theorem Dev.countIf_testEn (d : Dev) (b : Bool) (a : Nat) : (d.countIf b a).testEn = d.testEn := by
  unfold Dev.countIf; split <;> rfl
@[simp] theorem Dev.countIf_devNs (d : Dev) (b : Bool) (a : Nat) : (d.countIf b a).devNs = d.devNs := by
  unfold Dev.countIf; split <;> rfl
@[simp] theorem Dev.countIf_inReset (d : Dev) (b : Bool) (a : Nat) : (d.countIf b a).inReset = d.inReset := by
  unfold Dev.countIf; split <;> rfl
@[simp] theorem Dev.countIf_freeCtr (d : Dev) (b : Bool) (a : Nat) : (d.countIf b a).freeCtr = d.freeCtr := by
  unfold Dev.countIf; split <;> rfl
@[simp] theorem Dev.countIf_outbox (d : Dev) (b : Bool) (a : Nat) : (d.countIf b a).outbox = d.outbox := by
  unfold Dev.countIf; split <;> rfl
@[simp] theorem Dev.countIf_ing (d : Dev) (b : Bool) (a : Nat) : (d.countIf b a).ing = d.ing := by
  unfold Dev.countIf; split <;> rfl
@[simp] theorem Dev.countIf_prm (d : Dev) (b : Bool) (a : Nat) : (d.countIf b a).prm = d.prm := by
  unfold Dev.countIf; split <;> rfl
@[simp] theorem Dev.countIf_scr (d : Dev) (b : Bool) (a : Nat) : (d.countIf b a).scr = d.scr := by
  unfold Dev.countIf; split <;> rfl
@[simp] theorem Dev.countIf_tms (d : Dev) (b : Bool) (a : Nat) : (d.countIf b a).tms = d.tms := by
  unfold Dev.countIf; split <;> rfl
@[simp] theorem Dev.countIf_acq (d : Dev) (b : Bool) (a : Nat) : (d.countIf b a).acq = d.acq := by
  unfold Dev.countIf; split <;> rfl
@[simp] theorem Dev.countIf_store (d : Dev) (b : Bool) (a : Nat) : (d.countIf b a).store = d.store := by
  unfold Dev.countIf; split <;> rfl
@[simp] theorem Dev.countIf_stk (d : Dev) (b : Bool) (a : Nat) : (d.countIf b a).stk = d.stk := by
  unfold Dev.countIf; split <;> rfl
@[simp] theorem Dev.countIf_msh (d : Dev) (b : Bool) (a : Nat) : (d.countIf b a).msh = d.msh := by
  unfold Dev.countIf; split <;> rfl
@[simp] theorem Dev.countIf_hst (d : Dev) (b : Bool) (a : Nat) : (d.countIf b a).hst = d.hst := by
  unfold Dev.countIf; split <;> rfl
@[simp] theorem Dev.countIf_wear (d : Dev) (b : Bool) (a : Nat) : (d.countIf b a).wear = d.wear := by
  unfold Dev.countIf; split <;> rfl
@[simp] theorem Dev.countIf_fab (d : Dev) (b : Bool) (a : Nat) : (d.countIf b a).fab = d.fab := by
  unfold Dev.countIf; split <;> rfl
@[simp] theorem Dev.countIf_num (d : Dev) (b : Bool) (a : Nat) : (d.countIf b a).num = d.num := by
  unfold Dev.countIf; split <;> rfl
@[simp] theorem Dev.countIf_boot (d : Dev) (b : Bool) (a : Nat) : (d.countIf b a).boot = d.boot := by
  unfold Dev.countIf; split <;> rfl
@[simp] theorem Dev.countIf_clk (d : Dev) (b : Bool) (a : Nat) : (d.countIf b a).clk = d.clk := by
  unfold Dev.countIf; split <;> rfl
@[simp] theorem Dev.countIf_pwr (d : Dev) (b : Bool) (a : Nat) : (d.countIf b a).pwr = d.pwr := by
  unfold Dev.countIf; split <;> rfl

@[simp] theorem Dev.emit_regs (d : Dev) (o : Output) : (d.emit o).regs = d.regs := rfl
@[simp] theorem Dev.emit_caps (d : Dev) (o : Output) : (d.emit o).caps = d.caps := rfl
@[simp] theorem Dev.emit_log (d : Dev) (o : Output) : (d.emit o).log = d.log := rfl
@[simp] theorem Dev.emit_part (d : Dev) (o : Output) : (d.emit o).part = d.part := rfl
@[simp] theorem Dev.emit_step (d : Dev) (o : Output) : (d.emit o).step = d.step := rfl
@[simp] theorem Dev.emit_gid (d : Dev) (o : Output) : (d.emit o).gid = d.gid := rfl
@[simp] theorem Dev.emit_testEn (d : Dev) (o : Output) : (d.emit o).testEn = d.testEn := rfl
@[simp] theorem Dev.emit_devNs (d : Dev) (o : Output) : (d.emit o).devNs = d.devNs := rfl
@[simp] theorem Dev.emit_inReset (d : Dev) (o : Output) : (d.emit o).inReset = d.inReset := rfl
@[simp] theorem Dev.emit_freeCtr (d : Dev) (o : Output) : (d.emit o).freeCtr = d.freeCtr := rfl
@[simp] theorem Dev.emit_ing (d : Dev) (o : Output) : (d.emit o).ing = d.ing := rfl
@[simp] theorem Dev.emit_prm (d : Dev) (o : Output) : (d.emit o).prm = d.prm := rfl
@[simp] theorem Dev.emit_scr (d : Dev) (o : Output) : (d.emit o).scr = d.scr := rfl
@[simp] theorem Dev.emit_tms (d : Dev) (o : Output) : (d.emit o).tms = d.tms := rfl
@[simp] theorem Dev.emit_acq (d : Dev) (o : Output) : (d.emit o).acq = d.acq := rfl
@[simp] theorem Dev.emit_store (d : Dev) (o : Output) : (d.emit o).store = d.store := rfl
@[simp] theorem Dev.emit_stk (d : Dev) (o : Output) : (d.emit o).stk = d.stk := rfl
@[simp] theorem Dev.emit_msh (d : Dev) (o : Output) : (d.emit o).msh = d.msh := rfl
@[simp] theorem Dev.emit_hst (d : Dev) (o : Output) : (d.emit o).hst = d.hst := rfl
@[simp] theorem Dev.emit_wear (d : Dev) (o : Output) : (d.emit o).wear = d.wear := rfl
@[simp] theorem Dev.emit_fab (d : Dev) (o : Output) : (d.emit o).fab = d.fab := rfl
@[simp] theorem Dev.emit_num (d : Dev) (o : Output) : (d.emit o).num = d.num := rfl
@[simp] theorem Dev.emit_boot (d : Dev) (o : Output) : (d.emit o).boot = d.boot := rfl
@[simp] theorem Dev.emit_clk (d : Dev) (o : Output) : (d.emit o).clk = d.clk := rfl
@[simp] theorem Dev.emit_pwr (d : Dev) (o : Output) : (d.emit o).pwr = d.pwr := rfl

@[simp] theorem Dev.putEv_regs (d : Dev) (e : Ev) : (d.putEv e).regs = d.regs := rfl
@[simp] theorem Dev.putEv_caps (d : Dev) (e : Ev) : (d.putEv e).caps = d.caps := rfl
@[simp] theorem Dev.putEv_log (d : Dev) (e : Ev) : (d.putEv e).log = d.log := rfl
@[simp] theorem Dev.putEv_part (d : Dev) (e : Ev) : (d.putEv e).part = d.part := rfl
@[simp] theorem Dev.putEv_step (d : Dev) (e : Ev) : (d.putEv e).step = d.step := rfl
@[simp] theorem Dev.putEv_gid (d : Dev) (e : Ev) : (d.putEv e).gid = d.gid := rfl
@[simp] theorem Dev.putEv_testEn (d : Dev) (e : Ev) : (d.putEv e).testEn = d.testEn := rfl
@[simp] theorem Dev.putEv_devNs (d : Dev) (e : Ev) : (d.putEv e).devNs = d.devNs := rfl
@[simp] theorem Dev.putEv_inReset (d : Dev) (e : Ev) : (d.putEv e).inReset = d.inReset := rfl
@[simp] theorem Dev.putEv_freeCtr (d : Dev) (e : Ev) : (d.putEv e).freeCtr = d.freeCtr := rfl
@[simp] theorem Dev.putEv_outbox (d : Dev) (e : Ev) : (d.putEv e).outbox = d.outbox := rfl
@[simp] theorem Dev.putEv_ing (d : Dev) (e : Ev) : (d.putEv e).ing = d.ing := rfl
@[simp] theorem Dev.putEv_prm (d : Dev) (e : Ev) : (d.putEv e).prm = d.prm := rfl
@[simp] theorem Dev.putEv_tms (d : Dev) (e : Ev) : (d.putEv e).tms = d.tms := rfl
@[simp] theorem Dev.putEv_acq (d : Dev) (e : Ev) : (d.putEv e).acq = d.acq := rfl
@[simp] theorem Dev.putEv_store (d : Dev) (e : Ev) : (d.putEv e).store = d.store := rfl
@[simp] theorem Dev.putEv_stk (d : Dev) (e : Ev) : (d.putEv e).stk = d.stk := rfl
@[simp] theorem Dev.putEv_msh (d : Dev) (e : Ev) : (d.putEv e).msh = d.msh := rfl
@[simp] theorem Dev.putEv_hst (d : Dev) (e : Ev) : (d.putEv e).hst = d.hst := rfl
@[simp] theorem Dev.putEv_wear (d : Dev) (e : Ev) : (d.putEv e).wear = d.wear := rfl
@[simp] theorem Dev.putEv_fab (d : Dev) (e : Ev) : (d.putEv e).fab = d.fab := rfl
@[simp] theorem Dev.putEv_num (d : Dev) (e : Ev) : (d.putEv e).num = d.num := rfl
@[simp] theorem Dev.putEv_boot (d : Dev) (e : Ev) : (d.putEv e).boot = d.boot := rfl
@[simp] theorem Dev.putEv_clk (d : Dev) (e : Ev) : (d.putEv e).clk = d.clk := rfl
@[simp] theorem Dev.putEv_pwr (d : Dev) (e : Ev) : (d.putEv e).pwr = d.pwr := rfl

@[simp] theorem Dev.emit_outbox (d : Dev) (o : Output) : (d.emit o).outbox = o :: d.outbox := rfl
@[simp] theorem Dev.emit_rd (d : Dev) (o : Output) (a : Nat) : (d.emit o).rd a = d.rd a := rfl
@[simp] theorem Dev.putEv_rd (d : Dev) (e : Ev) (a : Nat) : (d.putEv e).rd a = d.rd a := rfl

/-- The answer of a command: the same queue beside the device. -/
@[simp] theorem State.next_eq (s : State) (d : Dev) : s.next d = .next { s with dev := d } := rfl

theorem State.up_of (s : State) (f : Dev → Dev) (h : s.dev.inReset = false) : s.up f = .next { s with dev := f s.dev } := by
  simp [State.up, h]

theorem State.live_of (s : State) (f : Dev → Dev) (h : s.dev.alive = true) : s.live f = .next { s with dev := f s.dev } := by
  simp [State.live, h]

theorem State.timed_of (s : State) (f : Dev → Dev) (h : s.dev.alive = true) (hf : s.dev.fit 36 = true) :
    s.timed f = .next { s with dev := f s.dev } := by
  simp [State.timed, State.live, h, hf]

theorem State.pin_of (s : State) (f : Dev → Dev) : s.pin f = .next { s with dev := f s.dev } := rfl

theorem State.onLane_of (s : State) (l : LaneId) (f : Dev → Dev) (h : s.dev.alive = true) :
    s.onLane l f = .next { s with dev := (f s.dev).laneSync l } := by
  simp [State.onLane, State.live, h]

/-! Bits -/

theorem bitsOf_lt (x lo w : Nat) : bitsOf x lo w < 2 ^ w := Nat.mod_lt _ (Nat.two_pow_pos w)

theorem bitsOf_eq (x lo w : Nat) : bitsOf x lo w = x / 2 ^ lo % 2 ^ w := by
  simp [bitsOf, Nat.shiftRight_eq_div_pow]

theorem bitsOf_mul_le (x lo w : Nat) : bitsOf x lo w * 2 ^ lo ≤ x := by
  rw [bitsOf_eq]
  calc x / 2 ^ lo % 2 ^ w * 2 ^ lo ≤ x / 2 ^ lo * 2 ^ lo := Nat.mul_le_mul_right _ (Nat.mod_le _ _)
    _ ≤ x := Nat.div_mul_le_self _ _

/-- A word cut at a field: above, the field, below. -/
theorem bits_cut (x lo w : Nat) : x = x / 2 ^ (lo + w) * 2 ^ (lo + w) + bitsOf x lo w * 2 ^ lo + x % 2 ^ lo := by
  have h1 := Nat.div_add_mod x (2 ^ lo)
  have h2 := Nat.div_add_mod (x / 2 ^ lo) (2 ^ w)
  rw [Nat.div_div_eq_div_mul, ← Nat.pow_add] at h2
  rw [bitsOf_eq]
  generalize x / 2 ^ (lo + w) = q at *
  generalize x / 2 ^ lo % 2 ^ w = m at *
  rw [← h2] at h1
  rw [Nat.mul_add] at h1
  calc x = 2 ^ lo * (2 ^ w * q) + 2 ^ lo * m + x % 2 ^ lo := h1.symm
    _ = q * 2 ^ (lo + w) + m * 2 ^ lo + x % 2 ^ lo := by rw [Nat.pow_add]; ring

/-- A field put: the same cut with the field replaced. -/
theorem putBits_eq (x lo w v : Nat) :
    putBits x lo w v = x / 2 ^ (lo + w) * 2 ^ (lo + w) + v % 2 ^ w * 2 ^ lo + x % 2 ^ lo := by
  have h := bits_cut x lo w
  unfold putBits
  generalize v % 2 ^ w * 2 ^ lo = z
  generalize bitsOf x lo w * 2 ^ lo = y at *
  omega

/-- The field put reads the value put. -/
@[simp] theorem bitsOf_putBits_same (x lo w v : Nat) : bitsOf (putBits x lo w v) lo w = v % 2 ^ w := by
  rw [putBits_eq, bitsOf_eq]
  have hlo : 0 < 2 ^ lo := Nat.two_pow_pos lo
  have : x / 2 ^ (lo + w) * 2 ^ (lo + w) + v % 2 ^ w * 2 ^ lo + x % 2 ^ lo =
      x % 2 ^ lo + (x / 2 ^ (lo + w) * 2 ^ w + v % 2 ^ w) * 2 ^ lo := by rw [Nat.pow_add]; ring
  rw [this, Nat.add_mul_div_right _ _ hlo, Nat.div_eq_of_lt (Nat.mod_lt _ hlo), Nat.zero_add,
    Nat.mul_comm, Nat.mul_add_mod, Nat.mod_mod]

/-- Bits below a field are as they were. -/
theorem bitsOf_putBits_below (x lo w v lo' w' : Nat) (h : lo' + w' ≤ lo) :
    bitsOf (putBits x lo w v) lo' w' = bitsOf x lo' w' := by
  obtain ⟨k, rfl⟩ := Nat.exists_eq_add_of_le h
  rw [putBits_eq, bitsOf_eq, bitsOf_eq]
  have e1 : ∀ y, y / 2 ^ lo' % 2 ^ w' = (y % 2 ^ (lo' + w' + k)) / 2 ^ lo' % 2 ^ w' := by
    intro y
    rw [show lo' + w' + k = lo' + (w' + k) by omega, Nat.pow_add 2 lo' (w' + k), Nat.mod_mul_right_div_self,
      Nat.mod_mod_of_dvd _ (Nat.pow_dvd_pow 2 (Nat.le_add_right w' k))]
  rw [e1, e1 x]
  congr 2
  rw [Nat.pow_add 2 (lo' + w' + k) w]
  generalize 2 ^ (lo' + w' + k) = m
  rw [show x / (m * 2 ^ w) * (m * 2 ^ w) + v % 2 ^ w * m + x % m = x % m + m * (x / (m * 2 ^ w) * 2 ^ w + v % 2 ^ w) by ring,
    Nat.add_mul_mod_self_left, Nat.mod_mod]

/-- Bits above a field are as they were. -/
theorem bitsOf_putBits_above (x lo w v lo' w' : Nat) (h : lo + w ≤ lo') :
    bitsOf (putBits x lo w v) lo' w' = bitsOf x lo' w' := by
  obtain ⟨k, rfl⟩ := Nat.exists_eq_add_of_le h
  rw [bitsOf_eq, bitsOf_eq]
  have e1 : ∀ y, y / 2 ^ (lo + w + k) = y / 2 ^ (lo + w) / 2 ^ k := by
    intro y; rw [Nat.div_div_eq_div_mul, ← Nat.pow_add]
  rw [e1, e1 x]
  congr 2
  rw [putBits_eq]
  have hp : 0 < 2 ^ (lo + w) := Nat.two_pow_pos _
  have hlt : v % 2 ^ w * 2 ^ lo + x % 2 ^ lo < 2 ^ (lo + w) := by
    have h1 : v % 2 ^ w + 1 ≤ 2 ^ w := Nat.mod_lt _ (Nat.two_pow_pos w)
    have h2 : x % 2 ^ lo < 2 ^ lo := Nat.mod_lt _ (Nat.two_pow_pos lo)
    have h3 := Nat.mul_le_mul_right (2 ^ lo) h1
    rw [Nat.pow_add, Nat.mul_comm (2 ^ lo)]
    rw [Nat.add_mul, Nat.one_mul] at h3
    omega
  rw [Nat.add_assoc, Nat.add_comm, Nat.add_mul_div_right _ _ hp, Nat.div_eq_of_lt hlt, Nat.zero_add]

/-- Disjoint fields do not disturb each other. -/
theorem bitsOf_putBits_ne (x lo w v lo' w' : Nat) (h : lo' + w' ≤ lo ∨ lo + w ≤ lo') :
    bitsOf (putBits x lo w v) lo' w' = bitsOf x lo' w' := by
  rcases h with h | h
  · exact bitsOf_putBits_below x lo w v lo' w' h
  · exact bitsOf_putBits_above x lo w v lo' w' h

/-- A field of the low 32 bits is a field of the word. -/
theorem bitsOf_mod (x lo w : Nat) (h : lo + w ≤ 32) : bitsOf (x % 2 ^ 32) lo w = bitsOf x lo w := by
  rw [bitsOf_eq, bitsOf_eq]
  obtain ⟨k, hk⟩ := Nat.exists_eq_add_of_le h
  rw [hk, Nat.add_assoc, Nat.pow_add 2 lo (w + k), Nat.mod_mul_right_div_self,
    Nat.mod_mod_of_dvd _ (Nat.pow_dvd_pow 2 (Nat.le_add_right w k))]

/-! Registers -/

/-- The register written reads the low 32 bits of the value. -/
@[simp] theorem Dev.rd_wr_same (d : Dev) (a v : Nat) : (d.wr a v).rd a = v % 2 ^ 32 := SMap.get_set_same _ _ _

/-- Every other register reads as before. -/
theorem Dev.rd_wr_ne (d : Dev) {a b : Nat} (v : Nat) (h : b ≠ a) : (d.wr a v).rd b = d.rd b := SMap.get_set_ne _ _ h

theorem Dev.rd_wr (d : Dev) (a b v : Nat) : (d.wr a v).rd b = if b = a then v % 2 ^ 32 else d.rd b := SMap.get_set _ _ _ _

theorem Dev.rd_setFld_ne (d : Dev) {a b : Nat} (f : Fld) (v : Nat) (h : b ≠ a) : (d.setFld a f v).rd b = d.rd b :=
  Dev.rd_wr_ne d _ h

theorem Dev.rd_countN_ne (d : Dev) {a b : Nat} (n : Nat) (h : b ≠ a) : (d.countN a n).rd b = d.rd b := Dev.rd_wr_ne d _ h

theorem Dev.rd_count_ne (d : Dev) {a b : Nat} (h : b ≠ a) : (d.count a).rd b = d.rd b := Dev.rd_wr_ne d _ h

theorem Dev.rd_countIf_ne (d : Dev) {a b : Nat} (c : Bool) (h : b ≠ a) : (d.countIf c a).rd b = d.rd b := by
  unfold Dev.countIf; split
  · exact Dev.rd_count_ne d h
  · rfl

/-- A counter up by n, held at all ones. -/
theorem Dev.rd_countN (d : Dev) (a n : Nat) : (d.countN a n).rd a = satInc 32 n (d.rd a) := by
  unfold Dev.countN
  rw [Dev.rd_wr_same]
  apply Nat.mod_eq_of_lt
  unfold satInc
  split
  · assumption
  · decide

theorem Dev.rd_count (d : Dev) (a : Nat) : (d.count a).rd a = satInc 32 1 (d.rd a) := Dev.rd_countN d a 1

theorem Dev.fld_of_rd {d e : Dev} {a : Nat} (h : e.rd a = d.rd a) (f : Fld) : e.fld a f = d.fld a f := by
  simp [Dev.fld, h]

/-- The field set reads the value set. -/
theorem Dev.fld_setFld_same (d : Dev) (a : Nat) (f : Fld) (v : Nat) (h : f.lo + f.w ≤ 32) :
    (d.setFld a f v).fld a f = v % 2 ^ f.w := by
  unfold Dev.fld Dev.setFld
  rw [Dev.rd_wr_same, bitsOf_mod _ _ _ h, bitsOf_putBits_same]

/-- The other fields of the register read as before. -/
theorem Dev.fld_setFld_fld (d : Dev) (a : Nat) (f g : Fld) (v : Nat) (hg : g.lo + g.w ≤ 32)
    (h : g.lo + g.w ≤ f.lo ∨ f.lo + f.w ≤ g.lo) : (d.setFld a f v).fld a g = d.fld a g := by
  unfold Dev.fld Dev.setFld
  rw [Dev.rd_wr_same, bitsOf_mod _ _ _ hg, bitsOf_putBits_ne _ _ _ _ _ _ h]

/-- The fields of other registers read as before. -/
theorem Dev.fld_setFld_ne (d : Dev) {a b : Nat} (f g : Fld) (v : Nat) (h : b ≠ a) : (d.setFld a f v).fld b g = d.fld b g :=
  Dev.fld_of_rd (Dev.rd_setFld_ne d f v h) g

/-! The change log -/

@[simp] theorem Dev.logWrite_caps (d : Dev) (o : Origin) (object old new : Nat) (st : Status) : (d.logWrite o object old new st).caps = d.caps := by
  unfold Dev.logWrite Dev.countIf; split <;> split <;> rfl
@[simp] theorem Dev.logWrite_part (d : Dev) (o : Origin) (object old new : Nat) (st : Status) : (d.logWrite o object old new st).part = d.part := by
  unfold Dev.logWrite Dev.countIf; split <;> split <;> rfl
@[simp] theorem Dev.logWrite_step (d : Dev) (o : Origin) (object old new : Nat) (st : Status) : (d.logWrite o object old new st).step = d.step := by
  unfold Dev.logWrite Dev.countIf; split <;> split <;> rfl
@[simp] theorem Dev.logWrite_gid (d : Dev) (o : Origin) (object old new : Nat) (st : Status) : (d.logWrite o object old new st).gid = d.gid := by
  unfold Dev.logWrite Dev.countIf; split <;> split <;> rfl
@[simp] theorem Dev.logWrite_testEn (d : Dev) (o : Origin) (object old new : Nat) (st : Status) : (d.logWrite o object old new st).testEn = d.testEn := by
  unfold Dev.logWrite Dev.countIf; split <;> split <;> rfl
@[simp] theorem Dev.logWrite_devNs (d : Dev) (o : Origin) (object old new : Nat) (st : Status) : (d.logWrite o object old new st).devNs = d.devNs := by
  unfold Dev.logWrite Dev.countIf; split <;> split <;> rfl
@[simp] theorem Dev.logWrite_inReset (d : Dev) (o : Origin) (object old new : Nat) (st : Status) : (d.logWrite o object old new st).inReset = d.inReset := by
  unfold Dev.logWrite Dev.countIf; split <;> split <;> rfl
@[simp] theorem Dev.logWrite_freeCtr (d : Dev) (o : Origin) (object old new : Nat) (st : Status) : (d.logWrite o object old new st).freeCtr = d.freeCtr := by
  unfold Dev.logWrite Dev.countIf; split <;> split <;> rfl
@[simp] theorem Dev.logWrite_outbox (d : Dev) (o : Origin) (object old new : Nat) (st : Status) : (d.logWrite o object old new st).outbox = d.outbox := by
  unfold Dev.logWrite Dev.countIf; split <;> split <;> rfl
@[simp] theorem Dev.logWrite_ing (d : Dev) (o : Origin) (object old new : Nat) (st : Status) : (d.logWrite o object old new st).ing = d.ing := by
  unfold Dev.logWrite Dev.countIf; split <;> split <;> rfl
@[simp] theorem Dev.logWrite_prm (d : Dev) (o : Origin) (object old new : Nat) (st : Status) : (d.logWrite o object old new st).prm = d.prm := by
  unfold Dev.logWrite Dev.countIf; split <;> split <;> rfl
@[simp] theorem Dev.logWrite_scr (d : Dev) (o : Origin) (object old new : Nat) (st : Status) : (d.logWrite o object old new st).scr = d.scr := by
  unfold Dev.logWrite Dev.countIf; split <;> split <;> rfl
@[simp] theorem Dev.logWrite_tms (d : Dev) (o : Origin) (object old new : Nat) (st : Status) : (d.logWrite o object old new st).tms = d.tms := by
  unfold Dev.logWrite Dev.countIf; split <;> split <;> rfl
@[simp] theorem Dev.logWrite_acq (d : Dev) (o : Origin) (object old new : Nat) (st : Status) : (d.logWrite o object old new st).acq = d.acq := by
  unfold Dev.logWrite Dev.countIf; split <;> split <;> rfl
@[simp] theorem Dev.logWrite_store (d : Dev) (o : Origin) (object old new : Nat) (st : Status) : (d.logWrite o object old new st).store = d.store := by
  unfold Dev.logWrite Dev.countIf; split <;> split <;> rfl
@[simp] theorem Dev.logWrite_stk (d : Dev) (o : Origin) (object old new : Nat) (st : Status) : (d.logWrite o object old new st).stk = d.stk := by
  unfold Dev.logWrite Dev.countIf; split <;> split <;> rfl
@[simp] theorem Dev.logWrite_msh (d : Dev) (o : Origin) (object old new : Nat) (st : Status) : (d.logWrite o object old new st).msh = d.msh := by
  unfold Dev.logWrite Dev.countIf; split <;> split <;> rfl
@[simp] theorem Dev.logWrite_hst (d : Dev) (o : Origin) (object old new : Nat) (st : Status) : (d.logWrite o object old new st).hst = d.hst := by
  unfold Dev.logWrite Dev.countIf; split <;> split <;> rfl
@[simp] theorem Dev.logWrite_wear (d : Dev) (o : Origin) (object old new : Nat) (st : Status) : (d.logWrite o object old new st).wear = d.wear := by
  unfold Dev.logWrite Dev.countIf; split <;> split <;> rfl
@[simp] theorem Dev.logWrite_fab (d : Dev) (o : Origin) (object old new : Nat) (st : Status) : (d.logWrite o object old new st).fab = d.fab := by
  unfold Dev.logWrite Dev.countIf; split <;> split <;> rfl
@[simp] theorem Dev.logWrite_num (d : Dev) (o : Origin) (object old new : Nat) (st : Status) : (d.logWrite o object old new st).num = d.num := by
  unfold Dev.logWrite Dev.countIf; split <;> split <;> rfl
@[simp] theorem Dev.logWrite_boot (d : Dev) (o : Origin) (object old new : Nat) (st : Status) : (d.logWrite o object old new st).boot = d.boot := by
  unfold Dev.logWrite Dev.countIf; split <;> split <;> rfl
@[simp] theorem Dev.logWrite_clk (d : Dev) (o : Origin) (object old new : Nat) (st : Status) : (d.logWrite o object old new st).clk = d.clk := by
  unfold Dev.logWrite Dev.countIf; split <;> split <;> rfl
@[simp] theorem Dev.logWrite_pwr (d : Dev) (o : Origin) (object old new : Nat) (st : Status) : (d.logWrite o object old new st).pwr = d.pwr := by
  unfold Dev.logWrite Dev.countIf; split <;> split <;> rfl

@[simp] theorem Dev.logAdd_caps (d : Dev) (o : Origin) (object old new : Nat) (st : Status) : (d.logAdd o object old new st).caps = d.caps := by
  unfold Dev.logAdd; split
  · exact Dev.logWrite_caps ..
  · rfl
@[simp] theorem Dev.logAdd_part (d : Dev) (o : Origin) (object old new : Nat) (st : Status) : (d.logAdd o object old new st).part = d.part := by
  unfold Dev.logAdd; split
  · exact Dev.logWrite_part ..
  · rfl
@[simp] theorem Dev.logAdd_step (d : Dev) (o : Origin) (object old new : Nat) (st : Status) : (d.logAdd o object old new st).step = d.step := by
  unfold Dev.logAdd; split
  · exact Dev.logWrite_step ..
  · rfl
@[simp] theorem Dev.logAdd_gid (d : Dev) (o : Origin) (object old new : Nat) (st : Status) : (d.logAdd o object old new st).gid = d.gid := by
  unfold Dev.logAdd; split
  · exact Dev.logWrite_gid ..
  · rfl
@[simp] theorem Dev.logAdd_testEn (d : Dev) (o : Origin) (object old new : Nat) (st : Status) : (d.logAdd o object old new st).testEn = d.testEn := by
  unfold Dev.logAdd; split
  · exact Dev.logWrite_testEn ..
  · rfl
@[simp] theorem Dev.logAdd_devNs (d : Dev) (o : Origin) (object old new : Nat) (st : Status) : (d.logAdd o object old new st).devNs = d.devNs := by
  unfold Dev.logAdd; split
  · exact Dev.logWrite_devNs ..
  · rfl
@[simp] theorem Dev.logAdd_inReset (d : Dev) (o : Origin) (object old new : Nat) (st : Status) : (d.logAdd o object old new st).inReset = d.inReset := by
  unfold Dev.logAdd; split
  · exact Dev.logWrite_inReset ..
  · rfl
@[simp] theorem Dev.logAdd_freeCtr (d : Dev) (o : Origin) (object old new : Nat) (st : Status) : (d.logAdd o object old new st).freeCtr = d.freeCtr := by
  unfold Dev.logAdd; split
  · exact Dev.logWrite_freeCtr ..
  · rfl
@[simp] theorem Dev.logAdd_outbox (d : Dev) (o : Origin) (object old new : Nat) (st : Status) : (d.logAdd o object old new st).outbox = d.outbox := by
  unfold Dev.logAdd; split
  · exact Dev.logWrite_outbox ..
  · rfl
@[simp] theorem Dev.logAdd_ing (d : Dev) (o : Origin) (object old new : Nat) (st : Status) : (d.logAdd o object old new st).ing = d.ing := by
  unfold Dev.logAdd; split
  · exact Dev.logWrite_ing ..
  · rfl
@[simp] theorem Dev.logAdd_prm (d : Dev) (o : Origin) (object old new : Nat) (st : Status) : (d.logAdd o object old new st).prm = d.prm := by
  unfold Dev.logAdd; split
  · exact Dev.logWrite_prm ..
  · rfl
@[simp] theorem Dev.logAdd_scr (d : Dev) (o : Origin) (object old new : Nat) (st : Status) : (d.logAdd o object old new st).scr = d.scr := by
  unfold Dev.logAdd; split
  · exact Dev.logWrite_scr ..
  · rfl
@[simp] theorem Dev.logAdd_tms (d : Dev) (o : Origin) (object old new : Nat) (st : Status) : (d.logAdd o object old new st).tms = d.tms := by
  unfold Dev.logAdd; split
  · exact Dev.logWrite_tms ..
  · rfl
@[simp] theorem Dev.logAdd_acq (d : Dev) (o : Origin) (object old new : Nat) (st : Status) : (d.logAdd o object old new st).acq = d.acq := by
  unfold Dev.logAdd; split
  · exact Dev.logWrite_acq ..
  · rfl
@[simp] theorem Dev.logAdd_store (d : Dev) (o : Origin) (object old new : Nat) (st : Status) : (d.logAdd o object old new st).store = d.store := by
  unfold Dev.logAdd; split
  · exact Dev.logWrite_store ..
  · rfl
@[simp] theorem Dev.logAdd_stk (d : Dev) (o : Origin) (object old new : Nat) (st : Status) : (d.logAdd o object old new st).stk = d.stk := by
  unfold Dev.logAdd; split
  · exact Dev.logWrite_stk ..
  · rfl
@[simp] theorem Dev.logAdd_msh (d : Dev) (o : Origin) (object old new : Nat) (st : Status) : (d.logAdd o object old new st).msh = d.msh := by
  unfold Dev.logAdd; split
  · exact Dev.logWrite_msh ..
  · rfl
@[simp] theorem Dev.logAdd_hst (d : Dev) (o : Origin) (object old new : Nat) (st : Status) : (d.logAdd o object old new st).hst = d.hst := by
  unfold Dev.logAdd; split
  · exact Dev.logWrite_hst ..
  · rfl
@[simp] theorem Dev.logAdd_wear (d : Dev) (o : Origin) (object old new : Nat) (st : Status) : (d.logAdd o object old new st).wear = d.wear := by
  unfold Dev.logAdd; split
  · exact Dev.logWrite_wear ..
  · rfl
@[simp] theorem Dev.logAdd_fab (d : Dev) (o : Origin) (object old new : Nat) (st : Status) : (d.logAdd o object old new st).fab = d.fab := by
  unfold Dev.logAdd; split
  · exact Dev.logWrite_fab ..
  · rfl
@[simp] theorem Dev.logAdd_num (d : Dev) (o : Origin) (object old new : Nat) (st : Status) : (d.logAdd o object old new st).num = d.num := by
  unfold Dev.logAdd; split
  · exact Dev.logWrite_num ..
  · rfl
@[simp] theorem Dev.logAdd_boot (d : Dev) (o : Origin) (object old new : Nat) (st : Status) : (d.logAdd o object old new st).boot = d.boot := by
  unfold Dev.logAdd; split
  · exact Dev.logWrite_boot ..
  · rfl
@[simp] theorem Dev.logAdd_clk (d : Dev) (o : Origin) (object old new : Nat) (st : Status) : (d.logAdd o object old new st).clk = d.clk := by
  unfold Dev.logAdd; split
  · exact Dev.logWrite_clk ..
  · rfl
@[simp] theorem Dev.logAdd_pwr (d : Dev) (o : Origin) (object old new : Nat) (st : Status) : (d.logAdd o object old new st).pwr = d.pwr := by
  unfold Dev.logAdd; split
  · exact Dev.logWrite_pwr ..
  · rfl

@[simp] theorem Dev.logRefusal_caps (d : Dev) (o : Origin) (object old new : Nat) (st : Status) : (d.logRefusal o object old new st).caps = d.caps := by
  unfold Dev.logRefusal; repeat' split
  · rfl
  · exact Dev.logWrite_caps ..
  · rfl
@[simp] theorem Dev.logRefusal_part (d : Dev) (o : Origin) (object old new : Nat) (st : Status) : (d.logRefusal o object old new st).part = d.part := by
  unfold Dev.logRefusal; repeat' split
  · rfl
  · exact Dev.logWrite_part ..
  · rfl
@[simp] theorem Dev.logRefusal_step (d : Dev) (o : Origin) (object old new : Nat) (st : Status) : (d.logRefusal o object old new st).step = d.step := by
  unfold Dev.logRefusal; repeat' split
  · rfl
  · exact Dev.logWrite_step ..
  · rfl
@[simp] theorem Dev.logRefusal_gid (d : Dev) (o : Origin) (object old new : Nat) (st : Status) : (d.logRefusal o object old new st).gid = d.gid := by
  unfold Dev.logRefusal; repeat' split
  · rfl
  · exact Dev.logWrite_gid ..
  · rfl
@[simp] theorem Dev.logRefusal_testEn (d : Dev) (o : Origin) (object old new : Nat) (st : Status) : (d.logRefusal o object old new st).testEn = d.testEn := by
  unfold Dev.logRefusal; repeat' split
  · rfl
  · exact Dev.logWrite_testEn ..
  · rfl
@[simp] theorem Dev.logRefusal_devNs (d : Dev) (o : Origin) (object old new : Nat) (st : Status) : (d.logRefusal o object old new st).devNs = d.devNs := by
  unfold Dev.logRefusal; repeat' split
  · rfl
  · exact Dev.logWrite_devNs ..
  · rfl
@[simp] theorem Dev.logRefusal_inReset (d : Dev) (o : Origin) (object old new : Nat) (st : Status) : (d.logRefusal o object old new st).inReset = d.inReset := by
  unfold Dev.logRefusal; repeat' split
  · rfl
  · exact Dev.logWrite_inReset ..
  · rfl
@[simp] theorem Dev.logRefusal_freeCtr (d : Dev) (o : Origin) (object old new : Nat) (st : Status) : (d.logRefusal o object old new st).freeCtr = d.freeCtr := by
  unfold Dev.logRefusal; repeat' split
  · rfl
  · exact Dev.logWrite_freeCtr ..
  · rfl
@[simp] theorem Dev.logRefusal_outbox (d : Dev) (o : Origin) (object old new : Nat) (st : Status) : (d.logRefusal o object old new st).outbox = d.outbox := by
  unfold Dev.logRefusal; repeat' split
  · rfl
  · exact Dev.logWrite_outbox ..
  · rfl
@[simp] theorem Dev.logRefusal_ing (d : Dev) (o : Origin) (object old new : Nat) (st : Status) : (d.logRefusal o object old new st).ing = d.ing := by
  unfold Dev.logRefusal; repeat' split
  · rfl
  · exact Dev.logWrite_ing ..
  · rfl
@[simp] theorem Dev.logRefusal_prm (d : Dev) (o : Origin) (object old new : Nat) (st : Status) : (d.logRefusal o object old new st).prm = d.prm := by
  unfold Dev.logRefusal; repeat' split
  · rfl
  · exact Dev.logWrite_prm ..
  · rfl
@[simp] theorem Dev.logRefusal_scr (d : Dev) (o : Origin) (object old new : Nat) (st : Status) : (d.logRefusal o object old new st).scr = d.scr := by
  unfold Dev.logRefusal; repeat' split
  · rfl
  · exact Dev.logWrite_scr ..
  · rfl
@[simp] theorem Dev.logRefusal_tms (d : Dev) (o : Origin) (object old new : Nat) (st : Status) : (d.logRefusal o object old new st).tms = d.tms := by
  unfold Dev.logRefusal; repeat' split
  · rfl
  · exact Dev.logWrite_tms ..
  · rfl
@[simp] theorem Dev.logRefusal_acq (d : Dev) (o : Origin) (object old new : Nat) (st : Status) : (d.logRefusal o object old new st).acq = d.acq := by
  unfold Dev.logRefusal; repeat' split
  · rfl
  · exact Dev.logWrite_acq ..
  · rfl
@[simp] theorem Dev.logRefusal_store (d : Dev) (o : Origin) (object old new : Nat) (st : Status) : (d.logRefusal o object old new st).store = d.store := by
  unfold Dev.logRefusal; repeat' split
  · rfl
  · exact Dev.logWrite_store ..
  · rfl
@[simp] theorem Dev.logRefusal_stk (d : Dev) (o : Origin) (object old new : Nat) (st : Status) : (d.logRefusal o object old new st).stk = d.stk := by
  unfold Dev.logRefusal; repeat' split
  · rfl
  · exact Dev.logWrite_stk ..
  · rfl
@[simp] theorem Dev.logRefusal_msh (d : Dev) (o : Origin) (object old new : Nat) (st : Status) : (d.logRefusal o object old new st).msh = d.msh := by
  unfold Dev.logRefusal; repeat' split
  · rfl
  · exact Dev.logWrite_msh ..
  · rfl
@[simp] theorem Dev.logRefusal_hst (d : Dev) (o : Origin) (object old new : Nat) (st : Status) : (d.logRefusal o object old new st).hst = d.hst := by
  unfold Dev.logRefusal; repeat' split
  · rfl
  · exact Dev.logWrite_hst ..
  · rfl
@[simp] theorem Dev.logRefusal_wear (d : Dev) (o : Origin) (object old new : Nat) (st : Status) : (d.logRefusal o object old new st).wear = d.wear := by
  unfold Dev.logRefusal; repeat' split
  · rfl
  · exact Dev.logWrite_wear ..
  · rfl
@[simp] theorem Dev.logRefusal_fab (d : Dev) (o : Origin) (object old new : Nat) (st : Status) : (d.logRefusal o object old new st).fab = d.fab := by
  unfold Dev.logRefusal; repeat' split
  · rfl
  · exact Dev.logWrite_fab ..
  · rfl
@[simp] theorem Dev.logRefusal_num (d : Dev) (o : Origin) (object old new : Nat) (st : Status) : (d.logRefusal o object old new st).num = d.num := by
  unfold Dev.logRefusal; repeat' split
  · rfl
  · exact Dev.logWrite_num ..
  · rfl
@[simp] theorem Dev.logRefusal_boot (d : Dev) (o : Origin) (object old new : Nat) (st : Status) : (d.logRefusal o object old new st).boot = d.boot := by
  unfold Dev.logRefusal; repeat' split
  · rfl
  · exact Dev.logWrite_boot ..
  · rfl
@[simp] theorem Dev.logRefusal_clk (d : Dev) (o : Origin) (object old new : Nat) (st : Status) : (d.logRefusal o object old new st).clk = d.clk := by
  unfold Dev.logRefusal; repeat' split
  · rfl
  · exact Dev.logWrite_clk ..
  · rfl
@[simp] theorem Dev.logRefusal_pwr (d : Dev) (o : Origin) (object old new : Nat) (st : Status) : (d.logRefusal o object old new st).pwr = d.pwr := by
  unfold Dev.logRefusal; repeat' split
  · rfl
  · exact Dev.logWrite_pwr ..
  · rfl

@[simp] theorem Dev.logInternal_caps (d : Dev) (object old new : Nat) (st : Status) : (d.logInternal object old new st).caps = d.caps := Dev.logAdd_caps ..
@[simp] theorem Dev.logInternal_part (d : Dev) (object old new : Nat) (st : Status) : (d.logInternal object old new st).part = d.part := Dev.logAdd_part ..
@[simp] theorem Dev.logInternal_step (d : Dev) (object old new : Nat) (st : Status) : (d.logInternal object old new st).step = d.step := Dev.logAdd_step ..
@[simp] theorem Dev.logInternal_gid (d : Dev) (object old new : Nat) (st : Status) : (d.logInternal object old new st).gid = d.gid := Dev.logAdd_gid ..
@[simp] theorem Dev.logInternal_testEn (d : Dev) (object old new : Nat) (st : Status) : (d.logInternal object old new st).testEn = d.testEn := Dev.logAdd_testEn ..
@[simp] theorem Dev.logInternal_devNs (d : Dev) (object old new : Nat) (st : Status) : (d.logInternal object old new st).devNs = d.devNs := Dev.logAdd_devNs ..
@[simp] theorem Dev.logInternal_inReset (d : Dev) (object old new : Nat) (st : Status) : (d.logInternal object old new st).inReset = d.inReset := Dev.logAdd_inReset ..
@[simp] theorem Dev.logInternal_freeCtr (d : Dev) (object old new : Nat) (st : Status) : (d.logInternal object old new st).freeCtr = d.freeCtr := Dev.logAdd_freeCtr ..
@[simp] theorem Dev.logInternal_outbox (d : Dev) (object old new : Nat) (st : Status) : (d.logInternal object old new st).outbox = d.outbox := Dev.logAdd_outbox ..
@[simp] theorem Dev.logInternal_ing (d : Dev) (object old new : Nat) (st : Status) : (d.logInternal object old new st).ing = d.ing := Dev.logAdd_ing ..
@[simp] theorem Dev.logInternal_prm (d : Dev) (object old new : Nat) (st : Status) : (d.logInternal object old new st).prm = d.prm := Dev.logAdd_prm ..
@[simp] theorem Dev.logInternal_scr (d : Dev) (object old new : Nat) (st : Status) : (d.logInternal object old new st).scr = d.scr := Dev.logAdd_scr ..
@[simp] theorem Dev.logInternal_tms (d : Dev) (object old new : Nat) (st : Status) : (d.logInternal object old new st).tms = d.tms := Dev.logAdd_tms ..
@[simp] theorem Dev.logInternal_acq (d : Dev) (object old new : Nat) (st : Status) : (d.logInternal object old new st).acq = d.acq := Dev.logAdd_acq ..
@[simp] theorem Dev.logInternal_store (d : Dev) (object old new : Nat) (st : Status) : (d.logInternal object old new st).store = d.store := Dev.logAdd_store ..
@[simp] theorem Dev.logInternal_stk (d : Dev) (object old new : Nat) (st : Status) : (d.logInternal object old new st).stk = d.stk := Dev.logAdd_stk ..
@[simp] theorem Dev.logInternal_msh (d : Dev) (object old new : Nat) (st : Status) : (d.logInternal object old new st).msh = d.msh := Dev.logAdd_msh ..
@[simp] theorem Dev.logInternal_hst (d : Dev) (object old new : Nat) (st : Status) : (d.logInternal object old new st).hst = d.hst := Dev.logAdd_hst ..
@[simp] theorem Dev.logInternal_wear (d : Dev) (object old new : Nat) (st : Status) : (d.logInternal object old new st).wear = d.wear := Dev.logAdd_wear ..
@[simp] theorem Dev.logInternal_fab (d : Dev) (object old new : Nat) (st : Status) : (d.logInternal object old new st).fab = d.fab := Dev.logAdd_fab ..
@[simp] theorem Dev.logInternal_num (d : Dev) (object old new : Nat) (st : Status) : (d.logInternal object old new st).num = d.num := Dev.logAdd_num ..
@[simp] theorem Dev.logInternal_boot (d : Dev) (object old new : Nat) (st : Status) : (d.logInternal object old new st).boot = d.boot := Dev.logAdd_boot ..
@[simp] theorem Dev.logInternal_clk (d : Dev) (object old new : Nat) (st : Status) : (d.logInternal object old new st).clk = d.clk := Dev.logAdd_clk ..
@[simp] theorem Dev.logInternal_pwr (d : Dev) (object old new : Nat) (st : Status) : (d.logInternal object old new st).pwr = d.pwr := Dev.logAdd_pwr ..

/-- A log entry disturbs no register but LOG_LOST and LOG_MIRROR_LOST. -/
theorem Dev.logWrite_rd (d : Dev) (o : Origin) (object old new : Nat) (st : Status) {a : Nat} (h : a ≠ Reg.logLost)
    (h' : a ≠ Reg.logMirrorLost) : (d.logWrite o object old new st).rd a = d.rd a := by
  unfold Dev.logWrite Dev.countIf
  split <;> split
  · exact (Dev.rd_count_ne _ h').trans (Dev.rd_count_ne d h)
  · exact Dev.rd_count_ne d h'
  · exact Dev.rd_count_ne d h
  · rfl

theorem Dev.logAdd_rd (d : Dev) (o : Origin) (object old new : Nat) (st : Status) {a : Nat} (h : a ≠ Reg.logLost) (h' : a ≠ Reg.logMirrorLost) :
    (d.logAdd o object old new st).rd a = d.rd a := by
  unfold Dev.logAdd; split
  · exact Dev.logWrite_rd d o object old new st h h'
  · rfl

theorem Dev.logRefusal_rd (d : Dev) (o : Origin) (object old new : Nat) (st : Status) {a : Nat} (h : a ≠ Reg.logLost)
    (h' : a ≠ Reg.logMirrorLost) (hu : a ≠ Reg.logUnlogged) : (d.logRefusal o object old new st).rd a = d.rd a := by
  unfold Dev.logRefusal; repeat' split
  · exact Dev.rd_count_ne d hu
  · exact Dev.logWrite_rd d o object old new st h h'
  · rfl

theorem Dev.logInternal_rd (d : Dev) (object old new : Nat) (st : Status) {a : Nat} (h : a ≠ Reg.logLost) (h' : a ≠ Reg.logMirrorLost) :
    (d.logInternal object old new st).rd a = d.rd a := Dev.logAdd_rd d _ object old new st h h'

end Sys2Proof.Machine
end

