-- ==== Sys2Proof/Laws/Acq.lean ====
section
/-!
SUPPORT. Samples through the primitive array and the capture rings: what is read back, and the registers that stay.
-/

namespace Sys2Proof.Machine

open Sys2Proof

@[simp] theorem Dev.setUnit_unit (d : Dev) (u : Nat) (r : UnitRec) : (d.setUnit u r).unit u = r := SMap.get_set_same _ _ _
@[simp] theorem Dev.setRing_ring (d : Dev) (r : Nat) (x : RingRec) : (d.setRing r x).ring r = x := SMap.get_set_same _ _ _
theorem Dev.setRing_ring_ne (d : Dev) {r q : Nat} (x : RingRec) (h : q ≠ r) : (d.setRing r x).ring q = d.ring q :=
  SMap.get_set_ne _ _ h
@[simp] theorem Dev.setStp_stp (d : Dev) (c : Nat) (x : StpRec) : (d.setStp c x).stp c = x := SMap.get_set_same _ _ _
@[simp] theorem Dev.setRingBuf_ringBuf (d : Dev) (st : Nat) (b : List (Nat × RingItem)) : (d.setRingBuf st b).ringBuf st = b :=
  SMap.get_set_same _ _ _

/-! Registers that the primitive array counts in -/

theorem Dev.rd_of_regs {d e : Dev} (h : e.regs = d.regs) (a : Nat) : e.rd a = d.rd a := by unfold Dev.rd; rw [h]

/-- The counters of the primitive array. -/
def primCounters : List Nat := [Reg.prmHeld, Reg.prmTokens, Reg.prmDiscarded, Reg.prmCarried, Reg.prmRestarts, Reg.prmGaps]

/-- What counting leaves of the registers, the primitive array leaves of them. -/
def CountsIn (L : List Nat) (Q : SMap Nat → Prop) : Prop := ∀ m a v, a ∈ L → Q m → Q (SMap.set resetWord m a (v % 2 ^ 32))

theorem CountsIn.countN {L : List Nat} {Q : SMap Nat → Prop} (k : CountsIn L Q) {d : Dev} {a n : Nat} (h : a ∈ L) (hd : Q d.regs) :
    Q (d.countN a n).regs := k _ _ _ h hd

theorem CountsIn.countIf {L : List Nat} {Q : SMap Nat → Prop} (k : CountsIn L Q) {d : Dev} {b : Bool} {a : Nat} (h : a ∈ L)
    (hd : Q d.regs) : Q (d.countIf b a).regs := by
  unfold Dev.countIf
  split
  · exact k _ _ _ h hd
  · exact hd

theorem Dev.complete_counts {Q : SMap Nat → Prop} (q : CountsIn primCounters Q) (d : Dev) (n u k : Nat) (c : Done) (h : Q d.regs) :
    Q (d.complete n u k c).regs := by
  unfold Dev.complete
  dsimp only
  repeat' split
  · exact q.countN (by decide) h
  · exact q.countN (by decide) h
  · exact q.countN (by decide) (q.countN (d := d) (by decide) h)
  · exact CountsIn.countIf q (by decide) (q.countN (d := d) (by decide) h)
  · exact h

theorem Dev.meetBoundary_counts {Q : SMap Nat → Prop} (q : CountsIn primCounters Q) (d : Dev) (n u k : Nat) (h : Q d.regs) :
    Q (d.meetBoundary n u k).regs := by
  unfold Dev.meetBoundary
  dsimp only
  split
  · exact q.countN (by decide) h
  · exact h

theorem Dev.slotSample_counts {Q : SMap Nat → Prop} (q : CountsIn primCounters Q) (d : Dev) (n u k : Nat) (g : Bool) (x t : Int)
    (h : Q d.regs) : Q (d.slotSample n u k g x t).regs := by
  unfold Dev.slotSample
  split
  · extract_lets d1 p r sl ty pol ofs a1 b1 hh t1 pr inp inn
    have e1 : Q d1.regs := Dev.meetBoundary_counts q _ _ _ _ h
    clear_value d1
    generalize (if pol = 1 then (sl.pos, none) else polStep inp sl.pos) = A
    generalize (if pol = 0 then (sl.neg, none) else polStep inn sl.neg) = N
    obtain ⟨pp, pc⟩ := A
    obtain ⟨np, nc⟩ := N
    dsimp only
    generalize hD : d1.setUnit u _ = D
    have e2 : Q D.regs := by rw [← hD]; exact e1
    clear hD
    cases pc with
    | none =>
      cases nc with
      | none => exact e2
      | some c => exact Dev.complete_counts q _ _ _ _ _ e2
    | some c0 =>
      cases nc with
      | none => exact Dev.complete_counts q _ _ _ _ _ e2
      | some c => exact Dev.complete_counts q _ _ _ _ _ (Dev.complete_counts q _ _ _ _ _ e2)
  · exact h

theorem Dev.gapDead_regs (d : Dev) (u lane : Nat) (t0 t : Int) : (d.gapDead u lane t0 t).regs = d.regs :=
  Dev.gapDead_keeps (keepsBut_keeps [.prm] d) (keepsBut_refl _ _) .regs rfl

theorem Dev.primSample_counts {Q : SMap Nat → Prop} (q : CountsIn primCounters Q) (d : Dev) (x : Sample) (h : Q d.regs) :
    Q (d.primSample x).regs := by
  unfold Dev.primSample
  split
  · extract_lets u n t0 g d1 d2
    have h1 : Q d1.regs := by
      show Q (if g = true then _ else d).regs
      split
      · rw [Dev.gapDead_regs]; exact q.countN (by decide) h
      · exact h
    show Q d2.regs
    exact Dev.slotSample_counts q _ _ _ _ _ _ _ (Dev.slotSample_counts q _ _ _ _ _ _ _ (Dev.slotSample_counts q _ _ _ _ _ _ _
      (Dev.slotSample_counts q _ _ _ _ _ _ _ h1)))
  · exact h

theorem Dev.primSample_rd (d : Dev) (x : Sample) {a : Nat} (h : a ∉ primCounters) : (d.primSample x).rd a = d.rd a :=
  Dev.primSample_counts (Q := fun m => SMap.get resetWord m a = SMap.get resetWord d.regs a)
    (fun m b v hb hm => (SMap.get_set_ne _ _ (fun e => h (by rw [e]; exact hb))).trans hm) d x rfl

theorem SMap.above_rising {k : Nat} {m : SMap Nat} (h : SMap.rising (some k) m = true) : SMap.above k m = m := by
  cases m with
  | nil => rfl
  | cons e m =>
    obtain ⟨j, w⟩ := e
    simp only [SMap.rising, Bool.and_eq_true, decide_eq_true_eq] at h
    unfold SMap.above
    rw [if_neg (by omega)]

/-- A key that a reading of the map skips may change. -/
theorem SMap.filterMap_set {β : Type} (dflt : Nat → Nat) (g : Nat × Nat → Option β) (k v : Nat) (hg : ∀ w, g (k, w) = none)
    (m : SMap Nat) : ∀ lo, SMap.rising lo m = true → (SMap.set dflt m k v).filterMap g = m.filterMap g := by
  induction m with
  | nil =>
    intro lo _
    unfold SMap.set
    split
    · rfl
    · rw [List.filterMap_cons, hg]
  | cons e m ih =>
    intro lo h
    obtain ⟨j, w⟩ := e
    have hm : SMap.rising (some j) m = true := by
      cases lo <;> simp only [SMap.rising, Bool.and_eq_true] at h
      · exact h
      · exact h.2
    unfold SMap.set
    split
    · split
      · rfl
      · rw [List.filterMap_cons, hg]
    · split
      · rename_i _ hkj
        subst hkj
        split
        · rw [SMap.above_rising hm, List.filterMap_cons, hg]
        · rw [List.filterMap_cons, List.filterMap_cons, hg, hg]
      · rw [List.filterMap_cons, List.filterMap_cons, ih _ hm]

theorem Dev.primSample_nonzero (d : Dev) (x : Sample) (h : SMap.wf resetWord d.regs = true) (base stride n : Nat) (f : Fld)
    (hb : ∀ a ∈ primCounters, ¬ (base ≤ a ∧ (a - base) / stride < n)) : (d.primSample x).nonzero base stride n f = d.nonzero base stride n f := by
  have key := Dev.primSample_counts (Q := fun m => SMap.wf resetWord m = true ∧ ({ d with regs := m } : Dev).nonzero base stride n f = d.nonzero base stride n f)
    (fun m b v hm hw => ⟨SMap.wf_set _ _ hw.1, Eq.trans (SMap.filterMap_set resetWord _ b _ (fun w => by
      have := hb b hm
      dsimp only
      split
      · split
        · split
          · exfalso; omega
          · rfl
        · rfl
      · rfl) m none (by have := hw.1; simp only [SMap.wf, Bool.and_eq_true] at this; exact this.1)) hw.2⟩) d x ⟨h, rfl⟩
  exact key.2

theorem find_congr {α : Type} {p q : α → Bool} {l : List α} (h : ∀ x ∈ l, p x = q x) : l.find? p = l.find? q := by
  induction l with
  | nil => rfl
  | cons x l ih =>
    rw [List.find?_cons, List.find?_cons, h x (List.mem_cons_self ..), ih fun y hy => h y (List.mem_cons_of_mem _ hy)]

theorem any_congr {α : Type} {p q : α → Bool} {l : List α} (h : ∀ x ∈ l, p x = q x) : l.any p = l.any q := by
  induction l with
  | nil => rfl
  | cons x l ih =>
    rw [List.any_cons, List.any_cons, h x (List.mem_cons_self ..), ih fun y hy => h y (List.mem_cons_of_mem _ hy)]

theorem Dev.mem_nonzero {d : Dev} {base stride n : Nat} {f : Fld} {x : Nat} (h : x ∈ d.nonzero base stride n f) : x < n := by
  unfold Dev.nonzero at h
  rw [List.mem_filterMap] at h
  obtain ⟨e, -, h⟩ := h
  repeat' split at h
  all_goals first
    | (injection h with h; omega)
    | cases h

/-- The primitive array leaves T_s of a ring. -/
theorem Dev.primSample_ringTs (d : Dev) (x : Sample) (h : SMap.wf resetWord d.regs = true) (r : Nat) :
    (d.primSample x).ringTs r = d.ringTs r := by
  have big : ∀ a, 0xA0020 ≤ a ∨ a < 0xA0000 → (d.primSample x).rd a = d.rd a := by
    intro a h
    refine Dev.primSample_rd _ _ ?_
    simp only [primCounters, List.mem_cons, List.not_mem_nil, not_or, or_false, Reg.prmHeld, Reg.prmTokens, Reg.prmDiscarded,
      Reg.prmCarried, Reg.prmRestarts, Reg.prmGaps]
    omega
  have hnz : ∀ base stride n f, (∀ a ∈ primCounters, ¬ (base ≤ a ∧ (a - base) / stride < n)) →
      (d.primSample x).nonzero base stride n f = d.nonzero base stride n f := fun base stride n f hb =>
    Dev.primSample_nonzero _ x h base stride n f hb
  generalize d.primSample x = B at big hnz ⊢
  have hmem : B.members r = d.members r := by
    unfold Dev.members
    rw [hnz _ _ _ _ (by decide)]
    congr 1; funext c
    unfold Dev.fld
    rw [big _ (by simp only [Reg.hwkChring]; omega)]
  have hlu : B.lanesInUse = d.lanesInUse := by
    unfold Dev.lanesInUse
    rw [hnz _ _ _ _ (by decide)]
    congr 1; funext n
    unfold Dev.fit Dev.fitted
    rw [big _ (by decide), big _ (by decide)]
  have hl : ∀ l ∈ d.lanesInUse, l < 64 := by
    intro l hl
    exact Dev.mem_nonzero (List.mem_filter.mp hl).1
  have hlane : ∀ c, B.laneOf c = d.laneOf c := by
    intro c
    unfold Dev.laneOf
    rw [hlu]
    refine find_congr fun l hm => ?_
    have h64 := hl l hm
    have hn : B.laneN l = d.laneN l := by
      unfold Dev.laneN Dev.fld; rw [big _ (by simp only [Reg.ingLmap]; omega)]
    rw [hn]
    refine any_congr fun k hk => ?_
    have hk' : k < 256 := by
      have := List.mem_range.mp hk
      unfold Dev.laneN Dev.fld bitsOf at this
      have := Nat.mod_lt (d.rd (Reg.ingLmap l) / 2 ^ Fld.ingLmapEntries.lo) (show 0 < 2 ^ Fld.ingLmapEntries.w by decide)
      have e : 2 ^ Fld.ingLmapEntries.w ≤ 256 := by decide
      omega
    unfold Dev.laneCh Dev.fld
    rw [big _ (by simp only [Reg.ingChmap]; omega)]
  unfold Dev.ringTs Dev.ringLane
  rw [hmem]
  cases hh : (d.members r).head? with
  | none => rfl
  | some c =>
    simp only [Option.bind]
    rw [hlane]
    cases hc : d.laneOf c with
    | none => rfl
    | some l =>
      have h64 := hl l (List.mem_of_find?_eq_some hc)
      show B.laneTs l = d.laneTs l
      unfold Dev.laneTs
      rw [big _ (by simp only [Reg.ingLperiod]; omega)]

/-! Records -/

theorem find_map_seq (q : Nat) (f : RecordRec → RecordRec) (hf : ∀ x, (f x).seq = x.seq) (l : List RecordRec) (s : Nat) :
    ((l.map fun x => if x.seq = s then f x else x).find? fun x => decide (x.seq = q)) =
      if q = s then (l.find? fun x => decide (x.seq = q)).map f else l.find? fun x => decide (x.seq = q) := by
  induction l with
  | nil => split <;> rfl
  | cons x l ih =>
    rw [List.map_cons, List.find?_cons, List.find?_cons]
    by_cases hx : x.seq = s
    · rw [if_pos hx, hf]
      by_cases hq : x.seq = q
      · rw [decide_eq_true hq, if_pos (by rw [← hq, hx])]; rfl
      · rw [decide_eq_false hq]; exact ih
    · rw [if_neg hx]
      by_cases hq : x.seq = q
      · rw [decide_eq_true hq, if_neg (by rw [← hq]; exact hx)]
      · rw [decide_eq_false hq]; exact ih

/-- A change of one record that leaves its number: it reads changed, and the others as before. -/
theorem Dev.modRecord_record (d : Dev) (s q : Nat) (f : RecordRec → RecordRec) (hf : ∀ x, (f x).seq = x.seq) :
    (d.modRecord s f).record q = if q = s then (d.record q).map f else d.record q :=
  find_map_seq q f hf d.store.recs s

theorem Dev.record_of_recs {d e : Dev} (h : e.store.recs = d.store.recs) (q : Nat) : e.record q = d.record q := by
  unfold Dev.record; rw [h]

theorem Dev.record_seq {d : Dev} {q : Nat} {x : RecordRec} (h : d.record q = some x) : x.seq = q := by
  have := List.find?_some h
  simpa using this

/-- Settling a ring touches its own captures and COUNT, and nothing else of the rings. -/
theorem Dev.settleRing_acq (d : Dev) (r : Nat) :
    ∃ caps, (d.settleRing r).acq = (d.setRing r { d.ring r with caps := caps }).acq := by
  unfold Dev.settleRing
  extract_lets stip rr waiting isEnded d1 caps isCopied fin d2 d3
  have hf : ∀ (l : List Capture) (D : Dev), (l.foldl (fun e c => (e.modRecord c.seq fun y => { y with copied := true }).tryComplete c.seq) D).acq = D.acq := by
    intro l D
    exact foldl_keeps (P := fun e => e.acq = D.acq) (fun e c h =>
      Dev.tryComplete_keeps (P := fun e => Part.same D e .acq) (Part.same_keeps .acq rfl) (show (e.modRecord _ _).acq = D.acq from h)) rfl
  refine ⟨caps.filter fun c => !isCopied c, ?_⟩
  have h1 : d1.acq = d.acq := foldl_keeps (P := fun e => e.acq = d.acq) (fun e c h => by split <;> exact h) rfl
  refine (hf fin d3).trans ?_
  show (d1.setRing r _).acq = _
  unfold Dev.setRing
  dsimp only
  rw [h1]

theorem Dev.settleRing_ring (d : Dev) (r : Nat) : ∃ caps, (d.settleRing r).ring r = { d.ring r with caps := caps } := by
  obtain ⟨caps, h⟩ := Dev.settleRing_acq d r
  refine ⟨caps, ?_⟩
  have := Dev.setRing_ring d r { d.ring r with caps := caps }
  unfold Dev.ring at this ⊢
  rw [h]; exact this

theorem Dev.settleRing_ringBuf (d : Dev) (r st : Nat) : (d.settleRing r).ringBuf st = d.ringBuf st := by
  obtain ⟨caps, h⟩ := Dev.settleRing_acq d r
  unfold Dev.ringBuf; rw [h]; rfl

/-- Completion of a record: it gets its bytes and the time, and no other record changes. -/
theorem Dev.tryComplete_record (d : Dev) (q : Nat) : ∃ bs, ∀ p, (d.tryComplete q).record p =
    (d.record p).map fun x => if p = q ∧ x.ready = true then { x with bytes := bs, doneAt := some d.devNs, items := [] } else x := by
  have same : ∀ (o : Option RecordRec) (p : Nat), (∀ x, o = some x → ¬ (p = q ∧ x.ready = true)) →
      ∀ bs, o = o.map fun x => if p = q ∧ x.ready = true then { x with bytes := bs, doneAt := some d.devNs, items := [] } else x := by
    intro o p h bs
    cases o with
    | none => rfl
    | some x => rw [Option.map_some, if_neg (h x rfl)]
  unfold Dev.tryComplete
  cases h : d.record q with
  | none =>
    refine ⟨[], fun p => same _ _ (fun x hx hc => ?_) _⟩
    rw [← hc.1, hx] at h; cases h
  | some x =>
    dsimp only
    by_cases hr : x.ready = true
    · rw [if_pos (show (x.doneAt.isNone && x.endedAt.isSome && x.copied && (x.freeWait.isNone || x.freeDone)) = true from hr)]
      obtain ⟨bs, D, hD⟩ : ∃ bs D, d.recordImage x = (bs, D) := ⟨_, _, rfl⟩
      rw [hD]
      have hk : d.keepsBut [.freeCtr] D := by
        have := Dev.recordImage_keeps (d := d) (x := x) (keepsBut_keeps [.freeCtr] d) (keepsBut_refl _ _)
        rw [hD] at this; exact this
      refine ⟨bs, fun p => ?_⟩
      have h1 : ∀ E : Dev, E.store = (D.modRecord q fun y => { y with bytes := bs, doneAt := some D.devNs, items := [] }).store →
          E.record p = (d.record p).map fun x => if p = q ∧ x.ready = true then { x with bytes := bs, doneAt := some d.devNs, items := [] } else x := by
        intro E hE
        rw [(Dev.record_of_recs (show E.store.recs = _ by rw [hE]) p).trans
          (Dev.modRecord_record D q p (fun y => { y with bytes := bs, doneAt := some D.devNs, items := [] }) (fun _ => rfl))]
        rw [show D.record p = d.record p from Dev.record_of_recs (by rw [show D.store = d.store from hk .store rfl]) p, show D.devNs = d.devNs from hk .devNs rfl]
        by_cases hp : p = q
        · subst hp
          rw [if_pos rfl, h, Option.map_some, Option.map_some, if_pos ⟨rfl, hr⟩]
        · rw [if_neg hp]
          exact same _ _ (fun _ _ hc => hp hc.1) _
      dsimp only
      split
      · refine h1 _ ?_
        rw [Dev.countIf_store, Dev.countIf_store]
        rfl
      · exact h1 _ rfl
    · rw [if_neg (show ¬ (x.doneAt.isNone && x.endedAt.isSome && x.copied && (x.freeWait.isNone || x.freeDone)) = true from hr)]
      refine ⟨[], fun p => same _ _ (fun y hy hc => ?_) _⟩
      rw [hc.1, h] at hy
      injection hy with hy
      subst hy
      exact hr hc.2

/-- A ring none of whose captures has ended is settled already. -/
theorem Dev.settleRing_quiet (d : Dev) (r : Nat)
    (h : ∀ c ∈ (d.ring r).caps, c.ended = false ∧ (d.stippled r = true ∨ (d.ring r).nextK < c.hi)) :
    d.settleRing r = (d.setRing r (d.ring r)).setFld (Reg.hwkOutstanding r) Fld.hwkOutstandingCount (d.ring r).caps.length := by
  unfold Dev.settleRing
  extract_lets stip rr waiting isEnded d1 caps isCopied fin d2 d3
  have hE : ∀ c ∈ rr.caps, isEnded c = false := by
    intro c hc
    obtain ⟨h1, h2⟩ := h c hc
    show (c.ended || _) = false
    rw [h1, Bool.false_or]
    rcases h2 with h2 | h2
    · rw [show stip = true from h2]; rfl
    · rw [decide_eq_false (show ¬ c.hi ≤ rr.nextK from Nat.not_le.mpr h2), Bool.and_false, Bool.false_and]
  have fold : ∀ (l : List Capture) (D : Dev), (∀ c ∈ l, isEnded c = false) → l.foldl (fun e c =>
      if isEnded c then e.captureEnded c.seq else e) D = D := by
    intro l
    induction l with
    | nil => intro D _; rfl
    | cons c l ih =>
      intro D hl
      rw [List.foldl_cons, hl c (List.mem_cons_self ..), if_neg (by decide)]
      exact ih D fun x hx => hl x (List.mem_cons_of_mem _ hx)
  have hd1 : d1 = d := fold _ _ hE
  have hcaps : caps = rr.caps := by
    show rr.caps.map _ = _
    conv => rhs; rw [← List.map_id rr.caps]
    refine List.map_congr_left fun c hc => ?_
    rw [hE c hc]
    have := (h c hc).1
    cases c; simp only at this; subst this; rfl
  have hC : ∀ c ∈ caps, isCopied c = false := by
    intro c hc
    rw [hcaps] at hc
    show ((c.ended && _) && _) = false
    rw [(h c hc).1]; rfl
  have hfin : fin = [] := List.filter_eq_nil_iff.mpr fun c hc => by rw [hC c hc]; decide
  have hkeep : caps.filter (fun c => !isCopied c) = rr.caps := by
    rw [List.filter_eq_self.mpr fun c hc => by rw [hC c hc]; rfl, hcaps]
  show fin.foldl _ d3 = _
  rw [hfin]
  show d2.setFld _ _ (caps.length - fin.length) = _
  rw [hfin, hcaps]
  show (d1.setRing r { rr with caps := caps.filter fun c => !isCopied c }).setFld _ _ _ = _
  rw [hkeep, hd1]
  rfl

/-- A row or entry put into a ring leaves the STIPPLE members' records. -/
theorem Dev.ringPut_stp (d : Dev) (r : Nat) (x : RingItem) : (d.ringPut r x).1.acq.stp = d.acq.stp := by
  have mr : ∀ (D : Dev) q f, (D.modRecord q f).acq = D.acq := fun _ _ _ => rfl
  have rowD : ∀ (D : Dev) k, (D.rowDropped r k).acq.stp = D.acq.stp := by
    intro D k
    unfold Dev.rowDropped
    extract_lets x hit d1 d2
    show d2.acq.stp = _
    show d1.acq.stp = _
    refine foldl_keeps (P := fun e => e.acq.stp = D.acq.stp) (fun e c h => ?_) rfl
    dsimp only
    split <;> exact h
  have entD : ∀ (D : Dev) y all, (D.entryDropped r y all).acq.stp = D.acq.stp := by
    intro D y all
    unfold Dev.entryDropped
    extract_lets rr ts ends d1
    show d1.acq.stp = _
    exact foldl_keeps (P := fun e => e.acq.stp = D.acq.stp) (fun e c h => h) rfl
  unfold Dev.ringPut
  extract_lets stip rr x' cap blocked used e1 e2
  split
  · dsimp only
    split
    · exact entD _ _ _
    · exact rowD _ _
  · split
    · dsimp only
      split
      · exact entD _ _ _
      · exact rowD _ _
    · dsimp only
      split
      · rw [Dev.countIf_acq]; rfl
      · rfl

/-- A ring that takes its next row or entry puts it last in its stack's buffer. -/
theorem Dev.ringPut_takes (d : Dev) (r : Nat) (x : RingItem) (h : d.ringTakes r) :
    let st := d.ringStack r
    let e := (d.setRing r { d.ring r with written := (d.ring r).written + 1 }).setRingBuf st
      (d.ringBuf st ++ [(r, { x with w := (d.ring r).written })])
    d.ringPut r x = (if d.stippled r then (e.count Reg.stpEntries).countIf (decide (x.kind = 1)) Reg.stpKeeps else e, true) := by
  obtain ⟨h1, h2, h3⟩ := h
  intro st e
  unfold Dev.ringPut
  extract_lets stip rr x' cap blocked used e1 e2
  have hb : (rr.paused || blocked) = false := by
    rw [show rr.paused = false from h1, Bool.false_or, List.any_eq_false]
    intro y hy
    by_cases hw : y.w + cap = rr.written
    · rw [decide_eq_true hw, Bool.true_and, List.any_eq_true]
      rintro ⟨c, hc, hp⟩
      rw [h2 y hy hw c hc] at hp; cases hp
    · rw [decide_eq_false hw, Bool.false_and]; decide
  rw [hb, if_neg (by decide), if_neg (Nat.not_lt.mpr h3)]

end Sys2Proof.Machine
end

