-- ==== Sys2Proof/Laws/Bits.lean ====
section
/-!
SUPPORT. Single bits of a register word.
-/

namespace Sys2Proof.Machine

open Sys2Proof

theorem bitAt_bitsOf (x i : Nat) : bitAt x i = decide (bitsOf x i 1 = 1) := by
  unfold bitAt; rw [bitsOf_eq, Nat.shiftRight_eq_div_pow, Nat.pow_one]

theorem bitAt_testBit (x i : Nat) : bitAt x i = x.testBit i := by
  unfold bitAt; rw [Nat.testBit_eq_decide_div_mod_eq, Nat.shiftRight_eq_div_pow]

@[simp] theorem bitAt_putBit_same (x i : Nat) (b : Bool) : bitAt (putBit x i b) i = b := by
  rw [bitAt_bitsOf]; unfold putBit
  rw [bitsOf_putBits_same]
  cases b <;> rfl

theorem bitAt_putBit_ne (x : Nat) {i j : Nat} (b : Bool) (h : j ≠ i) : bitAt (putBit x i b) j = bitAt x j := by
  rw [bitAt_bitsOf, bitAt_bitsOf]; unfold putBit
  rw [bitsOf_putBits_ne _ _ _ _ _ _ (by omega)]

theorem bitAt_mod (x : Nat) {i : Nat} (h : i < 32) : bitAt (x % 2 ^ 32) i = bitAt x i := by
  rw [bitAt_bitsOf, bitAt_bitsOf, bitsOf_mod _ _ _ (by omega)]

theorem bitAt_and (x y i : Nat) : bitAt (x &&& y) i = (bitAt x i && bitAt y i) := by
  simp only [bitAt_testBit, Nat.testBit_and]

theorem bitAt_or (x y i : Nat) : bitAt (x ||| y) i = (bitAt x i || bitAt y i) := by
  simp only [bitAt_testBit, Nat.testBit_or]

theorem bitAt_not {x i : Nat} (h : x < 2 ^ 32) (hi : i < 32) : bitAt (2 ^ 32 - 1 - x) i = !bitAt x i := by
  rw [bitAt_testBit, bitAt_testBit, show 2 ^ 32 - 1 - x = 2 ^ 32 - (x + 1) by omega, Nat.testBit_two_pow_sub_succ h]
  simp [hi]

/-- A flag of a register is one of its bits. -/
theorem Dev.flag_bit (d : Dev) (a : Nat) (f : Fld) (h : f.w = 1) : d.flag a f = bitAt (d.rd a) f.lo := by
  unfold Dev.flag Dev.fld; rw [h, bitAt_bitsOf]

theorem Dev.flag_of_rd {d e : Dev} {a : Nat} (h : e.rd a = d.rd a) (f : Fld) : e.flag a f = d.flag a f := by
  unfold Dev.flag; rw [Dev.fld_of_rd h]

theorem Dev.flag_setFld_same (d : Dev) (a : Nat) (f : Fld) (v : Nat) (h : f.lo + f.w ≤ 32) :
    (d.setFld a f v).flag a f = decide (v % 2 ^ f.w = 1) := by
  unfold Dev.flag; rw [Dev.fld_setFld_same _ _ _ _ h]

theorem Dev.flag_setFld_fld (d : Dev) (a : Nat) (f g : Fld) (v : Nat) (hg : g.lo + g.w ≤ 32)
    (h : g.lo + g.w ≤ f.lo ∨ f.lo + f.w ≤ g.lo) : (d.setFld a f v).flag a g = d.flag a g := by
  unfold Dev.flag; rw [Dev.fld_setFld_fld _ _ _ _ _ hg h]

theorem Dev.flag_setFld_ne (d : Dev) {a b : Nat} (f g : Fld) (v : Nat) (h : b ≠ a) : (d.setFld a f v).flag b g = d.flag b g :=
  Dev.flag_of_rd (Dev.rd_setFld_ne _ _ _ h) _

/-- Bit i of a register after a write of that bit. -/
theorem Dev.bitAt_wr_putBit_same (d : Dev) (a : Nat) {i : Nat} (x : Nat) (b : Bool) (h : i < 32) :
    bitAt ((d.wr a (putBit x i b)).rd a) i = b := by
  rw [Dev.rd_wr_same, bitAt_mod _ h, bitAt_putBit_same]

theorem Dev.bitAt_wr_putBit_ne (d : Dev) (a : Nat) {i j : Nat} (x : Nat) (b : Bool) (h : j < 32) (hn : j ≠ i) :
    bitAt ((d.wr a (putBit x i b)).rd a) j = bitAt x j := by
  rw [Dev.rd_wr_same, bitAt_mod _ h, bitAt_putBit_ne _ _ hn]

/-- A fold of operations that each leave a register leaves it. -/
theorem Dev.foldl_rd {α : Type} (l : List α) (f : Dev → α → Dev) (a : Nat) (h : ∀ d, ∀ x ∈ l, (f d x).rd a = d.rd a) (d : Dev) :
    (l.foldl f d).rd a = d.rd a := by
  induction l generalizing d with
  | nil => rfl
  | cons x l ih =>
    rw [List.foldl_cons, ih (fun e y hy => h e y (List.mem_cons_of_mem _ hy))]
    exact h d x List.mem_cons_self

/-- A fold in which one element alone sets a field. -/
theorem Dev.foldl_fld {α : Type} (I : Dev → Prop) (step : Dev → α → Dev) (a : Nat) (f : Fld) (v : Nat) (x : α)
    (hI : ∀ e y, I e → I (step e y)) (hx : ∀ e, I e → (step e x).fld a f = v) (l : List α) (hm : x ∈ l) (hn : l.Nodup)
    (hne : ∀ e, ∀ y ∈ l, y ≠ x → (step e y).rd a = e.rd a) (d : Dev) (hd : I d) : (l.foldl step d).fld a f = v := by
  induction l generalizing d with
  | nil => cases hm
  | cons y l ih =>
    rw [List.foldl_cons]
    have hn' := List.nodup_cons.mp hn
    rcases List.mem_cons.mp hm with rfl | hm
    · rw [Dev.fld_of_rd (Dev.foldl_rd l step a (fun e z hz => hne e z (List.mem_cons_of_mem _ hz) (fun h => hn'.1 (h ▸ hz))) _)]
      exact hx d hd
    · exact ih hm hn'.2 (fun e z hz => hne e z (List.mem_cons_of_mem _ hz)) _ (hI d y hd)

/-- One entry more. -/
theorem Dev.logWrite_gains (d : Dev) (o : Origin) (object old new : Nat) (st : Status) (h : d.log.opened = true) :
    d.log.gains (d.logWrite o object old new st).log o object old new st := by
  unfold LogSt.gains
  rw [if_pos h]
  refine ⟨d.nextEntry o object old new st, ?_, ?_, rfl, rfl, rfl, rfl, rfl⟩ <;>
  · unfold Dev.logWrite; dsimp only; rw [Dev.countIf_log, Dev.countIf_log]

theorem Dev.logAdd_gains (d : Dev) (o : Origin) (object old new : Nat) (st : Status) :
    d.log.gains (d.logAdd o object old new st).log o object old new st := by
  unfold Dev.logAdd
  split
  · next h => exact Dev.logWrite_gains d o object old new st h
  · next h => unfold LogSt.gains; rw [if_neg h]; exact ⟨rfl, rfl⟩

theorem Dev.logInternal_gains (d : Dev) (object old new : Nat) (st : Status) :
    d.log.gains (d.logInternal object old new st).log (internalOrigin object) object old new st :=
  Dev.logAdd_gains ..

theorem Dev.logRefusal_gains (d : Dev) (o : Origin) (object old new : Nat) (st : Status)
    (h : (d.logMandatory && d.logFull) = false) :
    d.log.gains (d.logRefusal o object old new st).log o object old new st := by
  unfold Dev.logRefusal
  split
  · next h' => rw [h]; exact Dev.logWrite_gains d o object old new st h'
  · next h' => unfold LogSt.gains; rw [if_neg h']; exact ⟨rfl, rfl⟩

end Sys2Proof.Machine
end

