-- ==== Sys2Proof/Laws/Lanes.lean ====
section
/-!
SUPPORT. What the lane operations do: addresses of the lane block, state changes of Table 2.7, and the registers they leave.
-/

namespace Sys2Proof.Machine

open Sys2Proof

/-! Registers of the lane block are distinct from one another and from the mesh ports' -/

theorem laneReg_ne (l : LaneId) {r q : Nat → Nat} (hr : 0x81000 ≤ r 0) (hq : 0x81000 ≤ q 0) (h : r 0 ≠ q 0) :
    laneReg l r ≠ laneReg l q := by
  unfold laneReg; omega

theorem laneReg_ne_port (l : LaneId) {r : Nat → Nat} (h : r 0 < 0x81080) (p : Nat) :
    laneReg l r ≠ Reg.mpCfg p ∧ laneReg l r ≠ Reg.mpDowns p := by
  unfold laneReg laneBase Reg.mpCfg Reg.mpDowns
  have := l.isLt
  split <;> omega

theorem laneReg_ne_log (l : LaneId) (r : Nat → Nat) : laneReg l r ≠ Reg.logLost := by
  unfold laneReg laneBase Reg.logLost
  have := l.isLt
  split <;> omega

/-- A control block's type is the one it is built with. -/
theorem blkType_ctl (ty b : Nat) (h : ty < 256) : blkType (ctlPayload ty b) = ty := by
  unfold blkType ctlPayload
  rw [BitVec.toNat_ofNat]
  have hb : b % 2 ^ 120 < 2 ^ 120 := Nat.mod_lt _ (by decide)
  generalize b % 2 ^ 120 = x at hb
  rw [Nat.mod_eq_of_lt (by omega)]
  omega

/-! A lane's record -/

@[simp] theorem Dev.setLane_lane (d : Dev) (l : LaneId) (r : LaneRec) : (d.setLane l r).lane l = r :=
  SMap.get_set_same _ _ _
@[simp] theorem Dev.setLane_rd (d : Dev) (l : LaneId) (r : LaneRec) (a : Nat) : (d.setLane l r).rd a = d.rd a := rfl
@[simp] theorem Dev.setLane_fld (d : Dev) (l : LaneId) (r : LaneRec) (a : Nat) (f : Fld) :
    (d.setLane l r).fld a f = d.fld a f := rfl
@[simp] theorem Dev.setLane_laneState (d : Dev) (l m : LaneId) (r : LaneRec) :
    (d.setLane l r).laneState m = d.laneState m := rfl
@[simp] theorem Dev.setLane_devNs (d : Dev) (l : LaneId) (r : LaneRec) : (d.setLane l r).devNs = d.devNs := rfl
@[simp] theorem Dev.setFld_lane (d : Dev) (a : Nat) (f : Fld) (v : Nat) (l : LaneId) : (d.setFld a f v).lane l = d.lane l :=
  rfl
@[simp] theorem Dev.count_lane (d : Dev) (a : Nat) (l : LaneId) : (d.count a).lane l = d.lane l := rfl
@[simp] theorem Dev.countIf_lane (d : Dev) (b : Bool) (a : Nat) (l : LaneId) : (d.countIf b a).lane l = d.lane l := by
  unfold Dev.lane; rw [Dev.countIf_ing]
@[simp] theorem Dev.laneCount_lane (d : Dev) (r : Nat → Nat) (l m : LaneId) : (d.laneCount l r).lane m = d.lane m := rfl

theorem Dev.setLane_lane_ne (d : Dev) {l m : LaneId} (r : LaneRec) (h : m ≠ l) : (d.setLane l r).lane m = d.lane m :=
  SMap.get_set_ne _ _ (fun e => h (Fin.ext e))

/-! The state machine -/

theorem Dev.breakBurst_rd (d : Dev) (l : LaneId) {a : Nat} (h : a ≠ laneReg l Reg.ingBurstBroken) :
    (d.breakBurst l).rd a = d.rd a := by
  unfold Dev.breakBurst; split
  · exact Dev.rd_countIf_ne _ _ h
  · rfl

@[simp] theorem Dev.breakBurst_lane (d : Dev) (l : LaneId) : (d.breakBurst l).lane l = { d.lane l with burst := none } := by
  unfold Dev.breakBurst; split
  · rw [Dev.countIf_lane, Dev.setLane_lane]
  next h => cases hl : d.lane l; simp_all

@[simp] theorem Dev.breakBurst_devNs (d : Dev) (l : LaneId) : (d.breakBurst l).devNs = d.devNs := by
  unfold Dev.breakBurst; split
  · rw [Dev.countIf_devNs]; rfl
  · rfl

/-- A lane whose state is changed has the new state. -/
theorem Dev.laneTo_state (d : Dev) (l : LaneId) {st : Nat} (h : st < 8) : (d.laneTo l st).laneState l = st := by
  have hs : ∀ e : Dev, (e.setFld (laneReg l Reg.ingLstate) Fld.ingLstateState st).laneState l = st := by
    intro e; unfold Dev.laneState
    rw [Dev.fld_setFld_same _ _ _ _ (by decide)]; exact Nat.mod_eq_of_lt h
  have hn : laneReg l Reg.ingLstate ≠ laneReg l Reg.ingLfom := laneReg_ne l (by decide) (by decide) (by decide)
  unfold Dev.laneTo; dsimp only
  split
  · exact hs _
  · unfold Dev.laneState
    rw [Dev.fld_setFld_ne _ _ _ _ hn, Dev.fld_setFld_ne _ _ _ _ hn]; exact hs _

/-- Outside TRAIN and SERVICE no score of this partner stands (Table 2.13). -/
theorem Dev.laneTo_eye (d : Dev) (l : LaneId) {st : Nat} (h : st ≠ lsTrain) (h' : st ≠ lsService) :
    (d.laneTo l st).fld (laneReg l Reg.ingLfom) Fld.ingLfomEye = 0 ∧
      (d.laneTo l st).fld (laneReg l Reg.ingLfom) Fld.ingLfomPartnerValid = 0 := by
  unfold Dev.laneTo; dsimp only
  rw [if_neg (by rintro (e | e); exacts [h e, h' e])]
  constructor
  · rw [Dev.fld_setFld_fld _ _ _ _ _ (by decide) (by decide), Dev.fld_setFld_same _ _ _ _ (by decide)]; rfl
  · rw [Dev.fld_setFld_same _ _ _ _ (by decide)]; rfl

theorem Dev.laneTo_rd (d : Dev) (l : LaneId) (st : Nat) {a : Nat} (h : a ≠ laneReg l Reg.ingLstate)
    (hf : a ≠ laneReg l Reg.ingLfom) (hb : a ≠ laneReg l Reg.ingBurstBroken) : (d.laneTo l st).rd a = d.rd a := by
  have hd : (if st = lsService then d else d.breakBurst l).rd a = d.rd a := by
    split; exacts [rfl, Dev.breakBurst_rd d l hb]
  unfold Dev.laneTo; dsimp only
  split
  · rw [Dev.rd_setFld_ne _ _ _ h, hd]
  · rw [Dev.rd_setFld_ne _ _ _ hf, Dev.rd_setFld_ne _ _ _ hf, Dev.rd_setFld_ne _ _ _ h, hd]

theorem Dev.laneTo_lane (d : Dev) (l : LaneId) {st : Nat} (h : st ≠ lsService) :
    (d.laneTo l st).lane l = { d.lane l with burst := none } := by
  unfold Dev.laneTo; dsimp only
  rw [if_neg h]
  split <;> simp

theorem Dev.laneTo_service_lane (d : Dev) (l : LaneId) : (d.laneTo l lsService).lane l = d.lane l := by
  unfold Dev.laneTo; simp

theorem Dev.laneTo_devNs (d : Dev) (l : LaneId) (st : Nat) : (d.laneTo l st).devNs = d.devNs := by
  unfold Dev.laneTo; dsimp only; repeat' split
  all_goals simp

/-- The other fields of the state register outlive a change of state. -/
theorem Dev.laneTo_lstate (d : Dev) (l : LaneId) (st : Nat) (g : Fld) (hg : 3 ≤ g.lo ∧ g.lo + g.w ≤ 32) :
    (d.laneTo l st).fld (laneReg l Reg.ingLstate) g = d.fld (laneReg l Reg.ingLstate) g := by
  have hn : laneReg l Reg.ingLstate ≠ laneReg l Reg.ingLfom := laneReg_ne l (by decide) (by decide) (by decide)
  have hb : laneReg l Reg.ingLstate ≠ laneReg l Reg.ingBurstBroken := laneReg_ne l (by decide) (by decide) (by decide)
  have hd : (if st = lsService then d else d.breakBurst l).fld (laneReg l Reg.ingLstate) g =
      d.fld (laneReg l Reg.ingLstate) g := by
    split; exacts [rfl, Dev.fld_of_rd (Dev.breakBurst_rd d l hb) g]
  unfold Dev.laneTo; dsimp only
  have hs : ∀ e : Dev, (e.setFld (laneReg l Reg.ingLstate) Fld.ingLstateState st).fld (laneReg l Reg.ingLstate) g =
      e.fld (laneReg l Reg.ingLstate) g := fun e =>
    Dev.fld_setFld_fld _ _ _ _ _ hg.2 (Or.inr (by simpa [Fld.ingLstateState] using hg.1))
  split
  · rw [hs, hd]
  · rw [Dev.fld_setFld_ne _ _ _ _ hn, Dev.fld_setFld_ne _ _ _ _ hn, hs, hd]

/-! A receiver started or stopped afresh -/

theorem Dev.laneTo_buf (d : Dev) (l : LaneId) (st : Nat) (n : Nat) :
    (((d.laneTo l st).countN (laneReg l Reg.ingOrphan) n).lane l) = (d.laneTo l st).lane l := rfl

theorem Dev.restart_state (d : Dev) (l : LaneId) {st : Nat} (h : st < 8) : (d.restart l st).laneState l = st := by
  have hn : laneReg l Reg.ingLstate ≠ laneReg l Reg.ingOrphan := laneReg_ne l (by decide) (by decide) (by decide)
  unfold Dev.restart; dsimp only
  rw [Dev.setLane_laneState]
  exact (Dev.fld_of_rd (Dev.rd_countN_ne _ _ hn) _).trans (Dev.laneTo_state d l h)

/-- What is left of a lane's record: the search, the buffer and the window counts are new; the line's histories and marks stay. -/
theorem Dev.restart_lane (d : Dev) (l : LaneId) {st : Nat} (h : st ≠ lsService) :
    (d.restart l st).lane l =
      { d.lane l with
        burst := none, buf := [], runValid := 0, recent := [], rxRun := 0, lowEyes := 0, tryBits := 0, eyeBlocks := 0,
        trainBlocks := 0, rxMark := none,
        decoded := if st = lsHunt then (d.lane l).decoded.map fun b => { b with inCode := false } else [] } := by
  unfold Dev.restart; dsimp only
  rw [Dev.setLane_lane, Dev.laneTo_buf, Dev.laneTo_lane d l h]

theorem Dev.restart_rd (d : Dev) (l : LaneId) (st : Nat) {a : Nat} (h : a ≠ laneReg l Reg.ingLstate)
    (hf : a ≠ laneReg l Reg.ingLfom) (hb : a ≠ laneReg l Reg.ingBurstBroken) (ho : a ≠ laneReg l Reg.ingOrphan) :
    (d.restart l st).rd a = d.rd a := by
  unfold Dev.restart; dsimp only
  rw [Dev.setLane_rd, Dev.rd_countN_ne _ _ ho, Dev.laneTo_rd d l _ h hf hb]

/-- The data blocks in the buffer are orphans (R48). -/
theorem Dev.restart_orphan (d : Dev) (l : LaneId) (st : Nat) :
    (d.restart l st).rd (laneReg l Reg.ingOrphan) =
      satInc 32 (d.waitingData l) (d.rd (laneReg l Reg.ingOrphan)) := by
  unfold Dev.restart; dsimp only
  rw [Dev.setLane_rd, Dev.rd_countN, Dev.laneTo_rd] <;> exact laneReg_ne l (by decide) (by decide) (by decide)

theorem Dev.restart_eye (d : Dev) (l : LaneId) {st : Nat} (h : st ≠ lsTrain) (h' : st ≠ lsService) :
    (d.restart l st).fld (laneReg l Reg.ingLfom) Fld.ingLfomEye = 0 ∧
      (d.restart l st).fld (laneReg l Reg.ingLfom) Fld.ingLfomPartnerValid = 0 := by
  have hn : laneReg l Reg.ingLfom ≠ laneReg l Reg.ingOrphan := laneReg_ne l (by decide) (by decide) (by decide)
  obtain ⟨h1, h2⟩ := Dev.laneTo_eye d l h h'
  unfold Dev.restart; dsimp only
  exact ⟨(Dev.fld_of_rd (Dev.rd_countN_ne _ _ hn) _).trans h1, (Dev.fld_of_rd (Dev.rd_countN_ne _ _ hn) _).trans h2⟩

theorem Dev.restart_lstate (d : Dev) (l : LaneId) (st : Nat) (g : Fld) (hg : 3 ≤ g.lo ∧ g.lo + g.w ≤ 32) :
    (d.restart l st).fld (laneReg l Reg.ingLstate) g = d.fld (laneReg l Reg.ingLstate) g := by
  have hn : laneReg l Reg.ingLstate ≠ laneReg l Reg.ingOrphan := laneReg_ne l (by decide) (by decide) (by decide)
  unfold Dev.restart; dsimp only
  rw [Dev.setLane_fld]
  exact (Dev.fld_of_rd (Dev.rd_countN_ne _ _ hn) _).trans (Dev.laneTo_lstate d l st g hg)

theorem Dev.restart_devNs (d : Dev) (l : LaneId) (st : Nat) : (d.restart l st).devNs = d.devNs := by
  unfold Dev.restart; dsimp only
  rw [Dev.setLane_devNs, Dev.countN_devNs, Dev.laneTo_devNs]

/-- A new try hunts, with one more in TRIES and its search begun afresh. -/
theorem Dev.newTry_state (d : Dev) (l : LaneId) : (d.newTry l).laneState l = lsHunt := by
  have hn : laneReg l Reg.ingLstate ≠ laneReg l Reg.ingTries := laneReg_ne l (by decide) (by decide) (by decide)
  exact (Dev.fld_of_rd (Dev.rd_count_ne _ hn) _).trans (Dev.restart_state d l (by decide))

theorem Dev.newTry_tries (d : Dev) (l : LaneId) :
    (d.newTry l).rd (laneReg l Reg.ingTries) = satInc 32 1 (d.rd (laneReg l Reg.ingTries)) := by
  unfold Dev.newTry Dev.laneCount
  rw [Dev.rd_count, Dev.restart_rd] <;> exact laneReg_ne l (by decide) (by decide) (by decide)

theorem Dev.newTry_lane (d : Dev) (l : LaneId) :
    (d.newTry l).lane l =
      { d.lane l with
        burst := none, buf := [], runValid := 0, recent := [], rxRun := 0, lowEyes := 0, tryBits := 0, eyeBlocks := 0,
        trainBlocks := 0, rxMark := none, decoded := (d.lane l).decoded.map fun b => { b with inCode := false } } := by
  unfold Dev.newTry
  rw [Dev.laneCount_lane, Dev.restart_lane d l (by decide)]; rfl

theorem Dev.newTry_rd (d : Dev) (l : LaneId) {a : Nat} (h : a ≠ laneReg l Reg.ingLstate) (hf : a ≠ laneReg l Reg.ingLfom)
    (hb : a ≠ laneReg l Reg.ingBurstBroken) (ho : a ≠ laneReg l Reg.ingOrphan) (ht : a ≠ laneReg l Reg.ingTries) :
    (d.newTry l).rd a = d.rd a := by
  unfold Dev.newTry Dev.laneCount
  rw [Dev.rd_count_ne _ ht, Dev.restart_rd d l _ h hf hb ho]

theorem Dev.newTry_eye (d : Dev) (l : LaneId) : (d.newTry l).fld (laneReg l Reg.ingLfom) Fld.ingLfomEye = 0 ∧
    (d.newTry l).fld (laneReg l Reg.ingLfom) Fld.ingLfomPartnerValid = 0 := by
  have hn : laneReg l Reg.ingLfom ≠ laneReg l Reg.ingTries := laneReg_ne l (by decide) (by decide) (by decide)
  have h := Dev.restart_eye d l (st := lsHunt) (by decide) (by decide)
  exact ⟨(Dev.fld_of_rd (Dev.rd_count_ne _ hn) _).trans h.1, (Dev.fld_of_rd (Dev.rd_count_ne _ hn) _).trans h.2⟩

theorem Dev.newTry_lstate (d : Dev) (l : LaneId) (g : Fld) (hg : 3 ≤ g.lo ∧ g.lo + g.w ≤ 32) :
    (d.newTry l).fld (laneReg l Reg.ingLstate) g = d.fld (laneReg l Reg.ingLstate) g :=
  (Dev.fld_of_rd (Dev.rd_count_ne _ (laneReg_ne l (by decide) (by decide) (by decide))) _).trans
    (Dev.restart_lstate d l lsHunt g hg)

/-! A try that fails -/

/-- What a failed try leaves beside its log entry (rows 6, 8; R63). -/
def Dev.tryEnds (d : Dev) (l : LaneId) (fails : Nat) : Dev :=
  let a := laneReg l Reg.ingLstate
  let ms := d.fld a Fld.ingLstateBackoffMs
  let d := (d.restart l lsBackoff).setFld a Fld.ingLstateFails fails
  let d := d.setFld a Fld.ingLstateBackoffMs (if 2 * ms < 1000 then 2 * ms else 1000)
  d.setLane l { d.lane l with backoffDue := d.devNs + ms * 1000000 }

theorem Dev.tryEnds_state (d : Dev) (l : LaneId) (n : Nat) : (d.tryEnds l n).laneState l = lsBackoff := by
  unfold Dev.tryEnds Dev.laneState; dsimp only
  rw [Dev.setLane_fld, Dev.fld_setFld_fld _ _ _ _ _ (by decide) (by decide),
    Dev.fld_setFld_fld _ _ _ _ _ (by decide) (by decide)]
  exact Dev.restart_state d l (by decide)

theorem Dev.tryEnds_fails (d : Dev) (l : LaneId) (n : Nat) (h : n < 256) :
    (d.tryEnds l n).fld (laneReg l Reg.ingLstate) Fld.ingLstateFails = n := by
  unfold Dev.tryEnds; dsimp only
  rw [Dev.setLane_fld, Dev.fld_setFld_fld _ _ _ _ _ (by decide) (by decide), Dev.fld_setFld_same _ _ _ _ (by decide)]
  exact Nat.mod_eq_of_lt h

theorem Dev.tryEnds_backoff (d : Dev) (l : LaneId) (n : Nat) :
    (d.tryEnds l n).fld (laneReg l Reg.ingLstate) Fld.ingLstateBackoffMs =
      (if 2 * d.fld (laneReg l Reg.ingLstate) Fld.ingLstateBackoffMs < 1000 then
        2 * d.fld (laneReg l Reg.ingLstate) Fld.ingLstateBackoffMs else 1000) := by
  unfold Dev.tryEnds; dsimp only
  rw [Dev.setLane_fld, Dev.fld_setFld_same _ _ _ _ (by decide)]
  apply Nat.mod_eq_of_lt
  generalize d.fld (laneReg l Reg.ingLstate) Fld.ingLstateBackoffMs = ms
  show _ < 2048
  split <;> omega

theorem Dev.tryEnds_due (d : Dev) (l : LaneId) (n : Nat) :
    ((d.tryEnds l n).lane l).backoffDue =
      d.devNs + d.fld (laneReg l Reg.ingLstate) Fld.ingLstateBackoffMs * 1000000 := by
  unfold Dev.tryEnds; dsimp only
  rw [Dev.setLane_lane]
  dsimp only [Dev.setFld_devNs]; rw [Dev.restart_devNs]

theorem Dev.tryEnds_down (d : Dev) (l : LaneId) (n : Nat) :
    (d.tryEnds l n).fld (laneReg l Reg.ingLstate) Fld.ingLstateDown =
      d.fld (laneReg l Reg.ingLstate) Fld.ingLstateDown := by
  unfold Dev.tryEnds; dsimp only
  rw [Dev.setLane_fld, Dev.fld_setFld_fld _ _ _ _ _ (by decide) (by decide),
    Dev.fld_setFld_fld _ _ _ _ _ (by decide) (by decide)]
  exact Dev.restart_lstate d l _ _ (by decide)

theorem Dev.tryEnds_rd (d : Dev) (l : LaneId) (n : Nat) {a : Nat} (h : a ≠ laneReg l Reg.ingLstate)
    (hf : a ≠ laneReg l Reg.ingLfom) (hb : a ≠ laneReg l Reg.ingBurstBroken) (ho : a ≠ laneReg l Reg.ingOrphan) :
    (d.tryEnds l n).rd a = d.rd a := by
  unfold Dev.tryEnds; dsimp only
  rw [Dev.setLane_rd, Dev.rd_setFld_ne _ _ _ h, Dev.rd_setFld_ne _ _ _ h, Dev.restart_rd d l _ h hf hb ho]

/-- A failed try, and with FAILS at LANE_DOWN_TRIES and DOWN clear, DOWN and its entry (R64). -/
theorem Dev.tryFails_eq (d : Dev) (l : LaneId) :
    d.tryFails l =
      (let a := laneReg l Reg.ingLstate
       let fails := if d.fld a Fld.ingLstateFails < 255 then d.fld a Fld.ingLstateFails + 1 else 255
       let e := d.tryEnds l fails
       if fails = e.fld Reg.ingAdmit Fld.ingAdmitLaneDownTries ∧ ¬ e.flag a Fld.ingLstateDown then
         let e := e.setFld a Fld.ingLstateDown 1
         e.logInternal a (d.rd a) (e.rd a) .degraded
       else e) := by
  unfold Dev.tryFails Dev.tryEnds; rfl

/-! The read side -/

theorem Dev.passBlock_rd (d : Dev) (l : LaneId) (b : Blk) {a : Nat} (h : a ≠ laneReg l Reg.ingCtrlUnknown)
    (hb : a ≠ laneReg l Reg.ingBurstBroken) (ho : a ≠ laneReg l Reg.ingOrphan) : (d.passBlock l b).rd a = d.rd a := by
  unfold Dev.passBlock; split
  · exact Dev.breakBurst_rd d l hb
  · rw [Dev.rd_countIf_ne _ _ ho, Dev.rd_countIf_ne _ _ h]

/-- The read side at most closes the lane's open burst. -/
theorem Dev.passBlock_lane (d : Dev) (l : LaneId) (b : Blk) :
    (d.passBlock l b).ing.queue = d.ing.queue ∧
      ∃ u, (d.passBlock l b).lane l = { d.lane l with burst := u } := by
  unfold Dev.passBlock; split
  · refine ⟨?_, none, Dev.breakBurst_lane d l⟩
    unfold Dev.breakBurst; split
    · rw [Dev.countIf_ing]; rfl
    · rfl
  · refine ⟨by rw [Dev.countIf_ing, Dev.countIf_ing], (d.lane l).burst, ?_⟩
    rw [Dev.countIf_lane, Dev.countIf_lane]

/-- The read side touches three counters and the lane's record only. -/
theorem Dev.drain_rd (l : LaneId) (n : Nat) (d : Dev) {a : Nat} (h : a ≠ laneReg l Reg.ingCtrlUnknown)
    (hb : a ≠ laneReg l Reg.ingBurstBroken) (ho : a ≠ laneReg l Reg.ingOrphan) : (Dev.drain l n d).rd a = d.rd a := by
  induction n generalizing d with
  | zero => rfl
  | succ n ih =>
    unfold Dev.drain; split
    · rfl
    · split
      · rfl
      · rw [ih, Dev.passBlock_rd _ _ _ h hb ho]; rfl

theorem Dev.drain_lane (l : LaneId) (n : Nat) (d : Dev) :
    (Dev.drain l n d).ing.queue = d.ing.queue ∧
      ∃ rest u, (Dev.drain l n d).lane l = { d.lane l with buf := rest, burst := u } := by
  induction n generalizing d with
  | zero => exact ⟨rfl, _, _, rfl⟩
  | succ n ih =>
    unfold Dev.drain; split
    · exact ⟨rfl, _, _, rfl⟩
    · split
      · exact ⟨rfl, _, _, rfl⟩
      · next b rest _ _ =>
        obtain ⟨h1, r, u, h2⟩ := ih ((d.setLane l { d.lane l with buf := rest }).passBlock l b)
        obtain ⟨g1, u', g2⟩ := Dev.passBlock_lane (d.setLane l { d.lane l with buf := rest }) l b
        exact ⟨h1.trans g1, r, u, h2.trans (by rw [g2, Dev.setLane_lane])⟩

theorem Dev.popBlock_rd (d : Dev) (l : LaneId) {a : Nat} (h : a ≠ laneReg l Reg.ingCtrlUnknown)
    (hb : a ≠ laneReg l Reg.ingBurstBroken) (ho : a ≠ laneReg l Reg.ingOrphan) : (d.popBlock l).rd a = d.rd a := by
  unfold Dev.popBlock; split
  · rfl
  · rw [Dev.drain_rd l _ _ h hb ho]; rfl

theorem Dev.popBlock_lane (d : Dev) (l : LaneId) :
    (d.popBlock l).ing.queue = d.ing.queue ∧
      ∃ rest u, (d.popBlock l).lane l = { d.lane l with buf := rest, burst := u } := by
  unfold Dev.popBlock; split
  · exact ⟨rfl, _, _, rfl⟩
  · next rest _ =>
    obtain ⟨h1, r, u, h2⟩ := Dev.drain_lane l rest.length (d.setLane l { d.lane l with buf := rest })
    exact ⟨h1, r, u, h2.trans (by rw [Dev.setLane_lane])⟩

/-! Sending -/

theorem Dev.sendBits_outbox (d : Dev) (l : LaneId) (bs : List Bool) :
    (d.sendBits l bs).outbox = .line l.val (d.txLevels l bs) :: d.outbox := rfl

theorem Dev.putLine_outbox (d : Dev) (l : LaneId) (bs : List Bool) :
    (d.putLine l bs).outbox = .line l.val (d.txLevels l (d.lineBits l bs)) :: d.outbox := by
  have e : ∀ (r : LaneRec) (x : List Bool), (d.setLane l r).txLevels l x = d.txLevels l x := fun _ _ => rfl
  have o : ∀ r : LaneRec, (d.setLane l r).outbox = d.outbox := fun _ => rfl
  unfold Dev.putLine Dev.lineBits
  dsimp only
  by_cases hf : d.laneFec l = 0
  · rw [if_pos hf, Dev.sendBits_outbox, if_pos (Or.inl hf), if_neg (fun c => c.1 hf), List.nil_append]
  · have hh : (if d.laneFec l ≠ 0 ∧ (d.lane l).txWord = [] then fecMarker (d.laneFec l) (d.lane l).txMark else []) =
        if (d.lane l).txWord = [] then fecMarker (d.laneFec l) (d.lane l).txMark else [] := by simp [hf]
    rw [if_neg hf, hh]
    generalize (if (d.lane l).txWord = [] then fecMarker (d.laneFec l) (d.lane l).txMark else []) = head
    rw [List.append_assoc (d.lane l).txWord]
    split
    next h => rw [Dev.sendBits_outbox, e, o, if_pos (Or.inr h)]
    next h => rw [Dev.sendBits_outbox, e, o, if_neg (by rintro (x | x); exacts [hf x, h x])]

/-- A block put on a lane goes out, and its bits on the line. -/
theorem Dev.putBlock_outbox (d : Dev) (l : LaneId) (ctl : Bool) (p : BitVec 128) :
    (d.putBlock l ctl p).outbox = d.blockOut l ctl p ++ d.outbox := by
  unfold Dev.putBlock
  dsimp only
  show _ :: (Dev.putLine _ l _).outbox = _
  rw [Dev.putLine_outbox]
  have hb : ∀ (r : LaneRec) (bs : List Bool), r.txWord = (d.lane l).txWord → r.txMark = (d.lane l).txMark →
      (d.setLane l r).lineBits l bs = d.lineBits l bs := by
    intro r bs h1 h2
    unfold Dev.lineBits
    rw [Dev.setLane_lane, h1, h2]
    rfl
  rw [hb { d.lane l with
      txHist := (scramble (d.lane l).txHist p).2,
      txRun := if ctl && decide (blkType p = 0) then 0 else (d.lane l).txRun + 1, txFree := d.slotAfter l,
      sinceLink := if ctl && decide (blkType p = 2) then 0 else (d.lane l).sinceLink + 1 } _ rfl rfl]
  rfl

/-- A lane that is free to send sends the block alone. -/
theorem Dev.sendBlock_outbox (d : Dev) (l : LaneId) (ctl : Bool) (p : BitVec 128) (h : d.sends l) :
    (d.sendBlock l ctl p).outbox = d.blockOut l ctl p ++ d.outbox := by
  obtain ⟨h1, h2, h3, h4⟩ := h
  unfold Dev.sendBlock
  rw [if_pos h1, if_pos h4]
  unfold Dev.sendNow Dev.linkDue
  rw [if_pos h3, ite_self]
  unfold Dev.putPaced
  rw [if_pos h2]
  exact Dev.putBlock_outbox d l ctl p

/-! Mesh ports follow their lanes without touching a lane -/

theorem Dev.portSync_rd (d : Dev) (p : Nat) {a : Nat} (h : a ≠ Reg.mpCfg p) (h' : a ≠ Reg.mpDowns p) :
    (d.portSync p).rd a = d.rd a := by
  unfold Dev.portSync; dsimp only
  repeat' split
  all_goals simp [Dev.setPortState, Dev.rd_setFld_ne, Dev.rd_count_ne, h, h']

theorem Dev.portSync_ing (d : Dev) (p : Nat) : (d.portSync p).ing = d.ing := by
  unfold Dev.portSync; dsimp only
  repeat' split
  all_goals simp [Dev.setPortState]

/-- Only the registers of a mesh lane's port follow it. -/
theorem Dev.laneSync_rd_ne (d : Dev) (l : LaneId) {a : Nat} (h : a ≠ Reg.mpCfg ((l.val - 64) / 4))
    (h' : a ≠ Reg.mpDowns ((l.val - 64) / 4)) : (d.laneSync l).rd a = d.rd a := by
  unfold Dev.laneSync; split
  · rfl
  · exact Dev.portSync_rd d _ h h'

theorem Dev.laneSync_rd (d : Dev) (l m : LaneId) {r : Nat → Nat} (h : r 0 < 0x81080) :
    (d.laneSync l).rd (laneReg m r) = d.rd (laneReg m r) := by
  unfold Dev.laneSync; split
  · rfl
  · exact Dev.portSync_rd d _ (laneReg_ne_port m h _).1 (laneReg_ne_port m h _).2

theorem Dev.laneSync_fld (d : Dev) (l m : LaneId) {r : Nat → Nat} (h : r 0 < 0x81080) (f : Fld) :
    (d.laneSync l).fld (laneReg m r) f = d.fld (laneReg m r) f := Dev.fld_of_rd (Dev.laneSync_rd d l m h) f

theorem Dev.laneSync_state (d : Dev) (l m : LaneId) : (d.laneSync l).laneState m = d.laneState m :=
  Dev.laneSync_fld d l m (by decide) _

theorem Dev.laneSync_ing (d : Dev) (l : LaneId) : (d.laneSync l).ing = d.ing := by
  unfold Dev.laneSync; split
  · rfl
  · exact Dev.portSync_ing d _

theorem Dev.laneSync_lane (d : Dev) (l m : LaneId) : (d.laneSync l).lane m = d.lane m := by
  unfold Dev.lane; rw [Dev.laneSync_ing]

end Sys2Proof.Machine
end

