-- ==== Sys2Proof/Laws/Clocks.lean ====
section
/-!
SUPPORT. Loops that leave their reference, and what their islands touch.
-/

namespace Sys2Proof.Machine

open Sys2Proof

theorem laneReg_high (l : LaneId) (r : Nat → Nat) : 0x80000 ≤ laneReg l r := by
  unfold laneReg laneBase; have := l.isLt; split <;> omega

theorem Dev.portsSync_rd (d : Dev) {a : Nat} (h : a < 0x80000) : d.portsSync.rd a = d.rd a := by
  unfold Dev.portsSync
  refine Dev.foldl_rd _ _ _ (fun e p _ => Dev.portSync_rd e p ?_ ?_) d
  · unfold Reg.mpCfg; omega
  · unfold Reg.mpDowns; omega

theorem Dev.newTry_low (d : Dev) (l : LaneId) {a : Nat} (h : a < 0x80000) : (d.newTry l).rd a = d.rd a := by
  refine Dev.newTry_rd d l ?_ ?_ ?_ ?_ ?_ <;> exact fun e => by
    have := laneReg_high l Reg.ingLstate
    have := laneReg_high l Reg.ingLfom
    have := laneReg_high l Reg.ingBurstBroken
    have := laneReg_high l Reg.ingOrphan
    have := laneReg_high l Reg.ingTries
    omega

/-- The islands of a loop hold no register below the lanes'. -/
theorem Dev.islandsDrop_rd (d : Dev) (ls : List Nat) {a : Nat} (h : a < 0x80000) : (d.islandsDrop ls).rd a = d.rd a := by
  have key : ∀ e : Dev, (e.portsSync).rd a = e.rd a := fun e => Dev.portsSync_rd e h
  unfold Dev.islandsDrop
  dsimp only
  have h1 : ∀ e : Dev, (if ls.contains 5 then { e with tms := { e.tms with ethUp := false } } else e).rd a = e.rd a := by
    intro e; split <;> rfl
  rw [h1, key]
  refine Dev.foldl_rd _ _ _ (fun e k _ => ?_) d
  split
  · rw [Dev.newTry_low _ _ h]
    unfold Dev.laneCount
    exact Dev.rd_count_ne _ (fun e => by have := laneReg_high ⟨k % 88, Nat.mod_lt _ (by decide)⟩ Reg.ingLockLoss; omega)
  · rfl

/-- The locks cleared in CLK_LOCK. -/
theorem Dev.unlockFold_lock (ls : List Nat) (loss : Bool) (d : Dev) {i : Nat} (h : i < 32) :
    bitAt ((ls.foldl (fun f i =>
      let f := f.wr Reg.clkLock (putBit (f.rd Reg.clkLock) i false)
      if loss then f.wr Reg.clkLoss (putBit (f.rd Reg.clkLoss) i true) else f) d).rd Reg.clkLock) i =
      (bitAt (d.rd Reg.clkLock) i && !ls.contains i) := by
  induction ls generalizing d with
  | nil => simp
  | cons x xs ih =>
    rw [List.foldl_cons, ih]
    have e : ∀ f : Dev, (if loss then f.wr Reg.clkLoss (putBit (f.rd Reg.clkLoss) x true) else f).rd Reg.clkLock = f.rd Reg.clkLock := by
      intro f; split
      · exact Dev.rd_wr_ne _ _ (by decide)
      · rfl
    dsimp only
    rw [e]
    by_cases hx : i = x
    · subst hx; rw [Dev.bitAt_wr_putBit_same _ _ _ _ h]; simp
    · rw [Dev.bitAt_wr_putBit_ne _ _ _ _ h hx]; simp [hx]

theorem Dev.unlockFold_rd (ls : List Nat) (loss : Bool) (d : Dev) {a : Nat} (h : a ≠ Reg.clkLock) (h' : a ≠ Reg.clkLoss) :
    (ls.foldl (fun f i =>
      let f := f.wr Reg.clkLock (putBit (f.rd Reg.clkLock) i false)
      if loss then f.wr Reg.clkLoss (putBit (f.rd Reg.clkLoss) i true) else f) d).rd a = d.rd a := by
  refine Dev.foldl_rd _ _ _ (fun e k _ => ?_) d
  dsimp only
  split
  · rw [Dev.rd_wr_ne _ _ h', Dev.rd_wr_ne _ _ h]
  · exact Dev.rd_wr_ne _ _ h

/-- Loops that leave their reference are not locked; the others are as before. -/
theorem Dev.unlock_locked (d : Dev) (ls : List Nat) (loss : Bool) {i : Nat} (h : i < 32) :
    (d.unlock ls loss).locked i = (d.locked i && !ls.contains i) := by
  unfold Dev.unlock
  dsimp only
  unfold Dev.locked
  rw [Dev.islandsDrop_rd _ _ (by decide)]
  refine (Dev.unlockFold_lock _ _ _ h).trans ?_
  by_cases hx : bitAt (d.rd Reg.clkLock) i = true
  · simp [hx]
  · simp [Bool.not_eq_true _ ▸ hx]

theorem Dev.unlock_rd (d : Dev) (ls : List Nat) (loss : Bool) {a : Nat} (h : a < 0x80000) (h1 : a ≠ Reg.clkLock)
    (h2 : a ≠ Reg.clkLoss) : (d.unlock ls loss).rd a = d.rd a := by
  unfold Dev.unlock
  dsimp only
  rw [Dev.islandsDrop_rd _ _ h]
  exact Dev.unlockFold_rd _ _ _ h1 h2

/-- They coast until they lock again. -/
theorem Dev.unlock_coasting (d : Dev) (ls : List Nat) (loss : Bool) :
    (d.unlock ls loss).clk.coasting = d.clk.coasting ++ ls.filter d.locked := by
  unfold Dev.unlock
  dsimp only
  generalize hD : List.foldl _ _ _ = D
  have hc : D.clk = d.clk := by
    rw [← hD]
    refine foldl_keeps (P := fun e => e.clk = d.clk) (fun e x he => ?_) rfl
    split <;> exact he
  have := Dev.islandsDrop_keeps (P := fun e => Part.same
    { D with clk := { D.clk with coasting := D.clk.coasting ++ ls.filter d.locked } } e .clk)
    (ls := ls.filter d.locked) (Part.same_keeps .clk rfl) rfl
  rw [hc] at this
  rw [hc]
  exact congrArg ClkSt.coasting this

/-! Gated lanes -/

/-- Registers of different lanes are different. -/
theorem laneReg_lane {l m : LaneId} (h : l ≠ m) {r q : Nat → Nat} (hr : r 0 < 0x81080 ∧ 0x81000 ≤ r 0) (hq : q 0 < 0x81080 ∧ 0x81000 ≤ q 0) :
    laneReg l r ≠ laneReg m q := by
  have h1 : l.val ≠ m.val := fun e => h (Fin.ext e)
  unfold laneReg laneBase
  have := l.isLt; have := m.isLt
  split <;> split <;> omega

theorem Dev.laneState_of_rd {d e : Dev} {l : LaneId} (h : e.rd (laneReg l Reg.ingLstate) = d.rd (laneReg l Reg.ingLstate)) :
    e.laneState l = d.laneState l := Dev.fld_of_rd h _

theorem Dev.laneOff_state (d : Dev) (l m : LaneId) :
    (d.laneOff l).laneState m = if m = l ∧ d.laneState m ≠ lsDisabled then lsOffline else d.laneState m := by
  unfold Dev.laneOff
  by_cases hd : d.laneState l = lsDisabled
  · rw [if_pos hd]
    by_cases h : m = l
    · subst h; rw [if_neg (by simp [hd])]
    · rw [if_neg (by simp [h])]
  · rw [if_neg hd]
    by_cases h : m = l
    · subst h
      rw [if_pos ⟨rfl, hd⟩]; exact Dev.restart_state d m (by decide)
    · rw [if_neg (by simp [h])]
      refine Dev.laneState_of_rd (Dev.restart_rd d l _ ?_ ?_ ?_ ?_) <;> exact laneReg_lane h (by decide) (by decide)

theorem Dev.lanesOff_state (ls : List LaneId) (d : Dev) (m : LaneId) :
    (ls.foldl Dev.laneOff d).laneState m = if m ∈ ls ∧ d.laneState m ≠ lsDisabled then lsOffline else d.laneState m := by
  induction ls generalizing d with
  | nil => simp
  | cons l ls ih =>
    rw [List.foldl_cons, ih, Dev.laneOff_state]
    by_cases h : m = l
    · subst h
      by_cases hd : d.laneState m = lsDisabled
      · simp [hd]
      · have : lsOffline ≠ lsDisabled := by decide
        simp [hd, this]
    · simp [h]

theorem Dev.portsSync_state (d : Dev) (m : LaneId) : d.portsSync.laneState m = d.laneState m := by
  refine Dev.laneState_of_rd ?_
  unfold Dev.portsSync
  exact Dev.foldl_rd _ _ _ (fun e p _ => Dev.portSync_rd e p (laneReg_ne_port m (by decide) p).1 (laneReg_ne_port m (by decide) p).2) d

theorem Dev.laneOff_low (d : Dev) (l : LaneId) {a : Nat} (h : a < 0x80000) : (d.laneOff l).rd a = d.rd a := by
  unfold Dev.laneOff
  split
  · rfl
  · refine Dev.restart_rd d l _ ?_ ?_ ?_ ?_ <;> exact fun e => by
      have := laneReg_high l Reg.ingLstate
      have := laneReg_high l Reg.ingLfom
      have := laneReg_high l Reg.ingBurstBroken
      have := laneReg_high l Reg.ingOrphan
      omega

theorem gateReg_low (t : GateTarget) : (gateReg t).1 < 0x80000 ∧ (gateReg t).2 < 32 := by
  cases t <;> simp only [gateReg, Reg.clkGated, Reg.clkGatedLink] <;> omega

/-- A gate in effect shows in its register, and takes its lanes OFFLINE. -/
theorem Dev.setGate_true (d : Dev) (t : GateTarget) :
    bitAt ((d.setGate t true).rd (gateReg t).1) (gateReg t).2 = true ∧
    (∀ b, liveGate t = some b → ∀ l ∈ gateLanes b, d.laneState l ≠ lsDisabled → (d.setGate t true).laneState l = lsOffline) ∧
    (∀ a, a < 0x80000 → a ≠ (gateReg t).1 → (d.setGate t true).rd a = d.rd a) := by
  have hg := gateReg_low t
  have hb : bitAt ((d.wr (gateReg t).1 (putBit (d.rd (gateReg t).1) (gateReg t).2 true)).rd (gateReg t).1) (gateReg t).2 = true :=
    Dev.bitAt_wr_putBit_same _ _ _ _ hg.2
  have hs : ∀ l, (d.wr (gateReg t).1 (putBit (d.rd (gateReg t).1) (gateReg t).2 true)).laneState l = d.laneState l := fun l =>
    Dev.laneState_of_rd (Dev.rd_wr_ne _ _ (by have := laneReg_high l Reg.ingLstate; omega))
  have hr : ∀ a, a ≠ (gateReg t).1 → (d.wr (gateReg t).1 (putBit (d.rd (gateReg t).1) (gateReg t).2 true)).rd a = d.rd a :=
    fun a h => Dev.rd_wr_ne _ _ h
  unfold Dev.setGate
  dsimp only
  generalize d.wr (gateReg t).1 (putBit (d.rd (gateReg t).1) (gateReg t).2 true) = D at hb hs hr
  simp only [if_true]
  have hf : ∀ (k : Nat) (a : Nat), a < 0x80000 → ((gateLanes k).foldl Dev.laneOff D).portsSync.rd a = D.rd a := by
    intro k a h
    rw [Dev.portsSync_rd _ h]
    exact Dev.foldl_rd _ _ _ (fun e l _ => Dev.laneOff_low e l h) D
  cases ht : liveGate t with
  | none => exact ⟨hb, fun b h => (by cases h), fun a _ h => hr a h⟩
  | some k =>
    dsimp only
    refine ⟨by rw [hf k _ hg.1]; exact hb, fun b h l hl hd => ?_, fun a h h' => by rw [hf k a h]; exact hr a h'⟩
    obtain rfl : k = b := Option.some.inj h
    rw [Dev.portsSync_state]
    have h2 := Dev.lanesOff_state (gateLanes k) D l
    rw [if_pos ⟨hl, by rw [hs]; exact hd⟩] at h2
    exact h2

/-! FAULT -/

theorem Dev.outputsIdle_rd (d : Dev) (a : Nat) : d.outputsIdle.rd a = d.rd a := by
  have : d.outputsIdle.regs = d.regs := Dev.outputsIdle_keeps (P := fun e => Part.same d e .regs) (Part.same_keeps .regs rfl) rfl
  unfold Dev.rd; rw [this]

theorem Dev.setDom_rd (d : Dev) (k : Nat) (b : Bool) {a : Nat} (h : a ≠ Reg.pwrDomOnLo) (h' : a ≠ Reg.pwrDomOnHi) :
    (d.setDom k b).rd a = d.rd a := by
  unfold Dev.setDom; split
  · exact Dev.rd_wr_ne _ _ h
  · exact Dev.rd_wr_ne _ _ h'

theorem Dev.domsOff_rd (d : Dev) (ks : List Nat) {a : Nat} (h : a ≠ Reg.pwrDomOnLo) (h' : a ≠ Reg.pwrDomOnHi) :
    (d.domsOff ks).rd a = d.rd a := by
  unfold Dev.domsOff
  exact Dev.foldl_rd _ _ _ (fun e k _ => Dev.setDom_rd e k false h h') _

theorem Dev.setMode_mode (d : Dev) {m : Nat} (h : m < 4) : (d.setMode m).mode = m := by
  unfold Dev.setMode Dev.mode
  rw [Dev.fld_setFld_ne _ _ _ _ (by decide), Dev.fld_setFld_ne _ _ _ _ (by decide), Dev.fld_setFld_ne _ _ _ _ (by decide),
    Dev.fld_setFld_same _ _ _ _ (by decide)]
  exact Nat.mod_eq_of_lt h

theorem Dev.setMode_rd (d : Dev) (m : Nat) {a : Nat} (h : a ≠ Reg.bootStat) (h' : a ≠ Reg.glbState) : (d.setMode m).rd a = d.rd a := by
  unfold Dev.setMode
  rw [Dev.rd_setFld_ne _ _ _ h', Dev.rd_setFld_ne _ _ _ h', Dev.rd_setFld_ne _ _ _ h', Dev.rd_setFld_ne _ _ _ h]

theorem Dev.enterFault_mode (d : Dev) : d.enterFault.mode = 3 := by
  have h : (d.setMode 3).outputsIdle.mode = 3 := by
    unfold Dev.mode; rw [Dev.fld_of_rd (Dev.outputsIdle_rd _ _)]; exact Dev.setMode_mode d (by decide)
  unfold Dev.enterFault
  dsimp only
  split
  · unfold Dev.mode; rw [Dev.fld_of_rd (Dev.domsOff_rd _ _ (by decide) (by decide))]; exact h
  · exact h

theorem Dev.enterFault_rd (d : Dev) {a : Nat} (h1 : a ≠ Reg.bootStat) (h2 : a ≠ Reg.glbState) (h3 : a ≠ Reg.pwrDomOnLo)
    (h4 : a ≠ Reg.pwrDomOnHi) : d.enterFault.rd a = d.rd a := by
  unfold Dev.enterFault
  dsimp only
  split
  · rw [Dev.domsOff_rd _ _ h3 h4, Dev.outputsIdle_rd, Dev.setMode_rd _ _ h1 h2]
  · rw [Dev.outputsIdle_rd, Dev.setMode_rd _ _ h1 h2]

end Sys2Proof.Machine
end

