-- ==== Sys2Proof/Laws/Boot.lean ====
section
/-!
SUPPORT. Start-up steps, and what the rejection of a slot leaves.
-/

namespace Sys2Proof.Machine

open Sys2Proof

theorem Dev.beginStep_stepNo (d : Dev) {k : Nat} (h : k < 16) : (d.beginStep k).stepNo = k := by
  unfold Dev.beginStep Dev.stepNo
  exact (Dev.fld_setFld_same d _ _ _ (by decide)).trans (Nat.mod_eq_of_lt h)

theorem Dev.beginStep_rd (d : Dev) (k : Nat) {a : Nat} (h : a ≠ Reg.bootStat) : (d.beginStep k).rd a = d.rd a :=
  Dev.rd_setFld_ne d _ _ h

theorem Dev.beginStep_mode (d : Dev) (k : Nat) : (d.beginStep k).mode = d.mode :=
  Dev.fld_setFld_fld d _ _ _ _ (by decide) (by decide)

theorem Dev.tryStep_rd (d : Dev) (x : Option Nat) {a : Nat} (h : a ≠ Reg.bootStat) : (d.tryStep x).rd a = d.rd a := by
  unfold Dev.tryStep; dsimp only; rw [Dev.beginStep_rd _ _ h]; rfl

theorem Dev.tryStep_stepNo (d : Dev) (x : Option Nat) : (d.tryStep x).stepNo = 5 := Dev.beginStep_stepNo _ (by decide)

theorem Dev.tryStep_slot (d : Dev) (x : Option Nat) : (d.tryStep x).boot.slot = x := rfl

theorem Dev.tryStep_rejected (d : Dev) (x : Option Nat) : (d.tryStep x).boot.rejected = d.boot.rejected := rfl

theorem Dev.domsDue_rd (d : Dev) (k : Nat) {a : Nat} (h : a ≠ Reg.pwrDomOnLo) (h' : a ≠ Reg.pwrDomOnHi) : (d.domsDue k).rd a = d.rd a := by
  unfold Dev.domsDue Dev.nextDom
  dsimp only
  split
  · rfl
  · exact Dev.setDom_rd _ _ _ h h'

/-- Discarding what a slot loaded leaves a register that holds no PR or LV field. -/
theorem Dev.discardReg_fld (d : Dev) (b : Nat) {a : Nat} (h : ∀ r, regRow a = some r → r.lv ||| r.pr = 0) (f : Fld) (hf : f.lo + f.w ≤ 32) :
    (d.discardReg b).fld a f = d.fld a f := by
  unfold Dev.discardReg
  cases hr : regRow b with
  | none => rfl
  | some r =>
    dsimp only
    by_cases hb : a = b
    · subst hb
      rw [h r hr]
      unfold Dev.fld
      rw [Dev.rd_wr_same, bitsOf_mod _ _ _ hf, Nat.and_zero, Nat.or_zero, Nat.zero_xor, Nat.and_two_pow_sub_one_eq_mod, bitsOf_mod _ _ _ hf]
    · exact Dev.fld_of_rd (Dev.rd_wr_ne _ _ hb) _

theorem Dev.underive_rd (d : Dev) {a : Nat} (h : a ∉ derivedRegs) : d.underive.rd a = d.rd a := by
  unfold Dev.underive
  refine Dev.foldl_rd _ _ _ (fun e b hb => ?_) d
  split
  · rfl
  · exact Dev.rd_wr_ne _ _ (fun e => h (by rw [e]; exact hb))

theorem Dev.unshow_rd (d : Dev) {a : Nat} (h : loadedReg a = false) (h1 : a ≠ Reg.bootStat) (h2 : a ≠ Reg.scrState) : d.unshow.rd a = d.rd a := by
  unfold Dev.unshow
  extract_lets e f
  have he : e.rd a = d.rd a := by
    refine Dev.foldl_rd _ _ _ (fun e b _ => ?_) d
    split
    · next hb => exact Dev.rd_wr_ne _ _ (fun x => by rw [x, hb] at h; cases h)
    · rfl
  have hf : f.rd a = d.rd a := by
    show (if _ then _ else _ : Dev).rd a = _
    split
    · exact (Dev.rd_setFld_ne _ _ _ h1).trans he
    · exact he
  split
  · exact (Dev.rd_setFld_ne _ _ _ h2).trans hf
  · exact hf

theorem Dev.discard_fld (d : Dev) {a : Nat} (h : ∀ r, regRow a = some r → r.lv ||| r.pr = 0) (ha : ∀ cl p, a ≠ Reg.coCtx cl p)
    (hu : a ∉ derivedRegs) (hl : loadedReg a = false) (hb : a ≠ Reg.bootStat) (hs : a ≠ Reg.scrState) (f : Fld) (hf : f.lo + f.w ≤ 32) : d.discard.fld a f = d.fld a f := by
  have h1 : ∀ (l : List Nat) (e : Dev), (l.foldl (fun f a => f.discardReg a) e).fld a f = e.fld a f := by
    intro l
    induction l with
    | nil => intro e; rfl
    | cons x l ih => intro e; rw [List.foldl_cons, ih, Dev.discardReg_fld _ _ h _ hf]
  have h2 : ∀ e : Dev, ((List.range 64).foldl (fun f cl => (List.range 17).foldl (fun h p =>
      if h.rd (Reg.coCtx cl p) = 0 then h else h.wr (Reg.coCtx cl p) 0) f) e).rd a = e.rd a := by
    intro e
    refine Dev.foldl_rd _ _ _ (fun e cl _ => Dev.foldl_rd _ _ _ (fun e p _ => ?_) _) _
    split
    · rfl
    · exact Dev.rd_wr_ne _ _ (ha _ _)
  have h5 : ∀ (D : Dev) (x : FabSt) (z : StkSt) (y : NumSt), ({ D with fab := x, stk := z, num := y } : Dev).regs = D.regs := fun _ _ _ _ => rfl
  have h3 : d.discard.regs = ((List.range 64).foldl (fun f cl => (List.range 17).foldl (fun h p =>
      if h.rd (Reg.coCtx cl p) = 0 then h else h.wr (Reg.coCtx cl p) 0) f) ((d.regs.map fun e => e.1).foldl (fun f a => f.discardReg a) d).unshow.underive).regs := by
    unfold Dev.discard
    with_reducible exact h5 _ _ _ _
  have h4 : ∀ {e g : Dev}, e.regs = g.regs → e.rd a = g.rd a := fun h => by unfold Dev.rd; rw [h]
  exact (Dev.fld_of_rd ((h4 h3).trans ((h2 _).trans ((Dev.underive_rd _ hu).trans (Dev.unshow_rd _ hl hb hs)))) f).trans (h1 _ d)

theorem bootReason_plain : ∀ r, regRow Reg.bootReason = some r → r.lv ||| r.pr = 0 := by
  have h : (regRow Reg.bootReason).map (fun r => (r.lv, r.pr)) = some (0, 0) := by decide
  intro r hr
  rw [hr] at h
  have h := Option.some.inj h
  injection h with h1 h2
  rw [h1, h2]; rfl

theorem bootReason_drawn : Reg.bootReason ∉ derivedRegs := by
  unfold derivedRegs
  simp only [List.mem_append, List.mem_map, not_or, not_exists, not_and]
  refine ⟨⟨⟨?_, ?_⟩, ?_⟩, ?_⟩ <;> intro x _ <;>
    simp only [Reg.bootReason, Reg.hwkCap, Reg.hwkRowb, Reg.stpRentries, Reg.stkPlansum] <;> omega

/-- A slot other than F rejected for another reason than that it does not fit: its reason code stands, and the other slot, or F when that
one is rejected too, is tried from step 5 on. -/
theorem Dev.reject_next (d : Dev) {k code : Nat} (hs : d.boot.slot = some k) (hk : k < 2) (hc : code < 256) (hn : code ≠ 0x0D) :
    (d.reject code).fld Reg.bootReason (reasonFld k) = code ∧ (d.reject code).stepNo = 5 ∧
    (d.reject code).boot.slot = some (if d.boot.rejected.contains (1 - k) then 2 else 1 - k) ∧
    (d.reject code).boot.rejected = k :: d.boot.rejected := by
  unfold Dev.reject
  rw [hs]
  dsimp only
  generalize hd2 : (d.setFld Reg.bootReason (reasonFld k) code).logAdd _ _ _ _ _ = d2
  have h2 : d2.fld Reg.bootReason (reasonFld k) = code := by
    rw [← hd2, Dev.fld_of_rd (Dev.logAdd_rd _ _ _ _ _ _ (by decide) (by decide)), Dev.fld_setFld_same _ _ _ _ (by show 8 * k + 8 ≤ 32; omega)]
    exact Nat.mod_eq_of_lt hc
  have hb2 : d2.boot = d.boot := by rw [← hd2, Dev.logAdd_boot]; rfl
  have h3 : d2.discard.fld Reg.bootReason (reasonFld k) = code :=
    (Dev.discard_fld d2 bootReason_plain (fun cl p => by simp only [Reg.bootReason, Reg.coCtx]; omega) bootReason_drawn (by decide) (by decide) (by decide) _ (by show 8 * k + 8 ≤ 32; omega)).trans h2
  have hb3 : d2.discard.boot = d.boot :=
    (Dev.discard_keeps (P := fun e => Part.same d2 e .boot) (Part.same_keeps .boot rfl) rfl : d2.discard.boot = d2.boot).trans hb2
  generalize d2.discard = d3 at h3 hb3
  have hb : d3.boot.rejects k code = { d.boot with rejected := k :: d.boot.rejected, misfit := if d.boot.misfit.isSome then d.boot.misfit else none } := by
    unfold BootSt.rejects; rw [hb3, if_neg hn]
  rw [hb]
  generalize hD : ({ d3 with boot := _ } : Dev) = D
  have h5 : ∀ (D : Dev) (x : BootSt) (a : Nat) (f : Fld), ({ D with boot := x } : Dev).fld a f = D.fld a f := fun _ _ _ _ => rfl
  have hDf : D.fld Reg.bootReason (reasonFld k) = code := by rw [← hD]; exact (h5 _ _ _ _).trans h3
  have hDr : D.boot.rejected = k :: d.boot.rejected := by rw [← hD]
  clear hD
  have fin : ∀ x, (D.tryStep (some x)).fld Reg.bootReason (reasonFld k) = code ∧ (D.tryStep (some x)).stepNo = 5 ∧
      (D.tryStep (some x)).boot.slot = some x ∧ (D.tryStep (some x)).boot.rejected = k :: d.boot.rejected := by
    intro x
    exact ⟨(Dev.fld_of_rd (Dev.tryStep_rd D _ (by decide)) _).trans hDf, Dev.tryStep_stepNo _ _, Dev.tryStep_slot _ _,
      (Dev.tryStep_rejected _ _).trans hDr⟩
  unfold Dev.afterReject
  rw [if_neg (by omega), hDr]
  have e : (decide (code = 0x0D) || (k :: d.boot.rejected).contains (1 - k)) = d.boot.rejected.contains (1 - k) := by
    rw [List.contains_cons]
    have : (1 - k == k) = false := by rw [beq_eq_false_iff_ne]; omega
    rw [this, decide_eq_false hn]; simp
  rw [e]
  split
  · exact fin 2
  · exact fin (1 - k)

end Sys2Proof.Machine
end

