-- ==== Sys2Proof/Laws/Dataflow.lean ====
section
/-!
SUPPORT. Tokens, queues and links: what Drip's timers leave, and what is read back.
-/

namespace Sys2Proof.Machine

open Sys2Proof

theorem Dev.dripFrame_refl (d : Dev) : d.dripFrame d := ⟨⟨_, _, rfl⟩, fun _ _ => rfl⟩

theorem Dev.dripFrame.trans {d e f : Dev} (h : d.dripFrame e) (h' : e.dripFrame f) : d.dripFrame f := by
  obtain ⟨⟨x, y, h1⟩, h2⟩ := h
  obtain ⟨⟨x', y', h1'⟩, h2'⟩ := h'
  exact ⟨⟨x', y', by rw [h1', h1]⟩, fun a ha => (h2' a ha).trans (h2 a ha)⟩

theorem Dev.setDrip_dripFrame (d : Dev) (cl s : Nat) (r : DripRec) : d.dripFrame (d.setDrip cl s r) :=
  ⟨⟨_, _, rfl⟩, fun _ _ => rfl⟩

theorem Dev.setFld_dripFrame (d : Dev) {a : Nat} (f : Fld) (v : Nat) (h : dripReg a) : d.dripFrame (d.setFld a f v) :=
  ⟨⟨_, _, rfl⟩, fun b hb => Dev.rd_setFld_ne _ _ _ (fun e => hb (by rw [e]; exact h))⟩

theorem Dev.wr_dripFrame (d : Dev) {a : Nat} (v : Nat) (h : dripReg a) : d.dripFrame (d.wr a v) :=
  ⟨⟨_, _, rfl⟩, fun b hb => Dev.rd_wr_ne _ _ (fun e => hb (by rw [e]; exact h))⟩

theorem Dev.countIf_dripFrame (d : Dev) (b : Bool) {a : Nat} (h : dripReg a) : d.dripFrame (d.countIf b a) := by
  unfold Dev.countIf
  split
  · exact Dev.wr_dripFrame d _ h
  · exact d.dripFrame_refl

theorem Dev.setSpill_dripFrame (d : Dev) (cl j : Nat) (s : Option Spill) : d.dripFrame (d.setSpill cl j s) := by
  unfold Dev.setSpill
  extract_lets _ e all
  have h1 : d.dripFrame e := ⟨⟨_, _, rfl⟩, fun _ _ => rfl⟩
  exact (h1.trans (Dev.setFld_dripFrame e _ _ (by simp only [dripReg, Reg.drpOpen]; omega))).trans
    (Dev.wr_dripFrame _ _ (by simp only [dripReg, Reg.drpUsed]; omega))

/-- A transfer through a queue touches Drip's timers and its counters alone. -/
theorem Dev.dripTransfer_dripFrame (d : Dev) (q : Endp) : d.dripFrame (d.dripTransfer q) := by
  unfold Dev.dripTransfer
  refine foldl_keeps (P := d.dripFrame) (fun e s h => ?_) d.dripFrame_refl
  dsimp only
  split
  · exact (h.trans (Dev.countIf_dripFrame e _ (by simp only [dripReg, Reg.drpLateArrival]; omega))).trans
      (Dev.setDrip_dripFrame _ _ _ _)
  · exact h

/-- What the timers and the counts of full segments leave, once tokens have settled. -/
theorem Dev.dripScan_dripFrame (d : Dev) : d.dripFrame d.dripScan.dripFullWaits := by
  have h1 : d.dripFrame d.dripScan := by
    unfold Dev.dripScan
    refine foldl_keeps (P := d.dripFrame) (fun e p h => ?_) d.dripFrame_refl
    dsimp only
    refine (h.trans (Dev.setDrip_dripFrame e _ _ _)).trans (Dev.setFld_dripFrame _ _ _ ?_)
    simp only [dripReg, Reg.drpSet]; omega
  refine h1.trans ?_
  generalize d.dripScan = e
  unfold Dev.dripFullWaits
  refine foldl_keeps (P := e.dripFrame) (fun g p h => ?_) e.dripFrame_refl
  dsimp only
  split
  · split
    · exact (h.trans (Dev.wr_dripFrame g _ (by simp only [dripReg, Reg.drpFull]; omega))).trans (Dev.setSpill_dripFrame _ _ _ _)
    · exact h
  · exact h

/-! What is read through Drip's state -/

theorem Dev.dripFrame.engs {d e : Dev} (h : d.dripFrame e) : e.fab.engs = d.fab.engs := by
  obtain ⟨⟨x, y, h⟩, -⟩ := h; rw [h]
theorem Dev.dripFrame.cores {d e : Dev} (h : d.dripFrame e) : e.fab.cores = d.fab.cores := by
  obtain ⟨⟨x, y, h⟩, -⟩ := h; rw [h]
theorem Dev.dripFrame.groups {d e : Dev} (h : d.dripFrame e) : e.fab.groups = d.fab.groups := by
  obtain ⟨⟨x, y, h⟩, -⟩ := h; rw [h]
theorem Dev.dripFrame.wait {d e : Dev} (h : d.dripFrame e) : e.fab.wait = d.fab.wait := by
  obtain ⟨⟨x, y, h⟩, -⟩ := h; rw [h]
theorem Dev.dripFrame.wpos {d e : Dev} (h : d.dripFrame e) : e.fab.wpos = d.fab.wpos := by
  obtain ⟨⟨x, y, h⟩, -⟩ := h; rw [h]
theorem Dev.dripFrame.iq {d e : Dev} (h : d.dripFrame e) (c i q : Nat) : e.iq c i q = d.iq c i q := by
  unfold Dev.iq Dev.eng; rw [h.engs]
theorem Dev.dripFrame.iqClosed {d e : Dev} (h : d.dripFrame e) (c i q : Nat) : e.iqClosed c i q = d.iqClosed c i q := by
  unfold Dev.iqClosed Dev.eng; rw [h.engs]
theorem Dev.dripFrame.eng {d e : Dev} (h : d.dripFrame e) (c i : Nat) : e.eng c i = d.eng c i := by
  unfold Dev.eng; rw [h.engs]
theorem Dev.dripFrame.core {d e : Dev} (h : d.dripFrame e) (c : Nat) : e.core c = d.core c := by
  unfold Dev.core; rw [h.cores]
theorem Dev.dripFrame.waitAt {d e : Dev} (h : d.dripFrame e) (k j : Nat) : e.waitAt k j = d.waitAt k j := by
  unfold Dev.waitAt Dev.waiting; rw [h.wait]
theorem Dev.dripFrame.grp {d e : Dev} (h : d.dripFrame e) (g : Nat) : e.grp g = d.grp g := by
  unfold Dev.grp; rw [h.groups]

theorem not_dripReg_coStat (c : Nat) : ¬ dripReg (coStatAddr c) := by
  have := Nat.mod_lt c (show 0 < 17 by decide)
  simp only [dripReg, coStatAddr, Reg.coStat, clOf, posOf]; omega

@[simp] theorem Dev.setEng_eng (d : Dev) (c e : Nat) (r : EngRec) : (d.setEng c e r).eng c e = r := SMap.get_set_same _ _ _
theorem Dev.setEng_eng_ne (d : Dev) {c e c' e' : Nat} (r : EngRec) (h : 64 * c' + e' ≠ 64 * c + e) : (d.setEng c e r).eng c' e' = d.eng c' e' :=
  SMap.get_set_ne _ _ h
@[simp] theorem Dev.setCore_core (d : Dev) (c : Nat) (r : CoreRec) : (d.setCore c r).core c = r := SMap.get_set_same _ _ _
theorem Dev.setCore_core_ne (d : Dev) {c c' : Nat} (r : CoreRec) (h : c' ≠ c) : (d.setCore c r).core c' = d.core c' := SMap.get_set_ne _ _ h
theorem Dev.setIq_iq (d : Dev) (c e q : Nat) (ts : List Token) : (d.setIq c e q ts).iq c e q = ts := by
  unfold Dev.setIq Dev.iq
  dsimp only
  rw [Dev.setEng_eng]
  split <;> rfl
theorem Dev.setClosed_iq (d : Dev) (c e q : Nat) (b : Bool) : (d.setClosed c e q b).iq c e q = d.iq c e q := by
  unfold Dev.setClosed Dev.iq
  dsimp only
  rw [Dev.setEng_eng]
  split <;> rfl
theorem Dev.setClosed_closed (d : Dev) (c e q : Nat) (b : Bool) : (d.setClosed c e q b).iqClosed c e q = b := by
  unfold Dev.setClosed Dev.iqClosed
  dsimp only
  rw [Dev.setEng_eng]
  split <;> rfl
theorem Dev.setIq_closed (d : Dev) (c e q : Nat) (ts : List Token) : (d.setIq c e q ts).iqClosed c e q = d.iqClosed c e q := by
  unfold Dev.setIq Dev.iqClosed
  dsimp only
  rw [Dev.setEng_eng]
  split <;> rfl

/-! Tokens put before a hop and taken away -/

@[simp] theorem Dev.setWaiting_waiting (d : Dev) (k h : Nat) (ts : List Waiting) : (d.setWaiting k h ts).waiting k h = ts :=
  SMap.get_set_same _ _ _

/-- A token put before a hop stands last there. -/
theorem Dev.placeAt_waitAt (d : Dev) (k h : Nat) (t : Token) : (d.placeAt k h t).waitAt k h = d.waitAt k h ++ [t] := by
  unfold Dev.waitAt
  show List.map _ ((d.setWaiting k h (d.waiting k h ++ [⟨t, d.fab.stamp⟩])).waiting k h) = _
  rw [Dev.setWaiting_waiting, List.map_append]; rfl

/-- A transfer through a store touches Drip's timers and counters alone. -/
theorem Dev.storeTransfer_dripFrame (d : Dev) (x : Circuit) (h : Nat) (b : Bool) : d.dripFrame (d.storeTransfer x h b) := by
  unfold Dev.storeTransfer
  split
  · exact foldl_keeps (P := d.dripFrame) (fun e q he => he.trans (Dev.dripTransfer_dripFrame e q)) d.dripFrame_refl
  · exact d.dripFrame_refl

/-- A token that no open spill takes stands last before its hop. -/
theorem Dev.putHop_waitAt (d : Dev) (x : Circuit) (h : Nat) (t : Token) (hs : d.spillAt x h = none) :
    (d.putHop x h t).waitAt x.key h = d.waitAt x.key h ++ [t] := by
  unfold Dev.putHop
  rw [hs]
  dsimp only
  rw [Dev.placeAt_waitAt, (Dev.storeTransfer_dripFrame d x h true).waitAt]

/-- A head taken away leaves those behind it. -/
theorem Dev.dropHead_waitAt (d : Dev) (x : Circuit) (h : Nat) : (d.dropHead x h).waitAt x.key h = (d.waitAt x.key h).tail := by
  unfold Dev.dropHead
  rw [← (Dev.storeTransfer_dripFrame d x h false).waitAt]
  unfold Dev.waitAt
  dsimp only
  rw [Dev.setWaiting_waiting, List.map_tail]

/-- A token reaching a queue that has room for it is its last one. -/
theorem Dev.iqArrive_iq (d : Dev) (c e q : Nat) (t : Token) (h1 : d.coreState c ≠ coFenced) (h2 : d.iqRoom c e q t.free = true)
    (h3 : t.epoch.toNat = d.engEpoch c e) : (d.iqArrive c e q t).iq c e q = d.iq c e q ++ [t] := by
  unfold Dev.iqArrive
  rw [if_neg h1, if_neg (by simp [h2]), if_neg (by simp [h3])]
  dsimp only
  have h : ∀ (f : Bool) (D : Dev) (k : Endp), D.iq c e q = d.iq c e q ++ [t] →
      (if f = true then D.dripTransfer k else D).iq c e q = d.iq c e q ++ [t] := by
    intro f D k hD
    split
    · rw [(Dev.dripTransfer_dripFrame _ _).iq, hD]
    · exact hD
  refine h _ _ _ ?_
  split
  · rw [Dev.setClosed_iq, Dev.setIq_iq]
  · rw [Dev.setIq_iq]

end Sys2Proof.Machine
end

