-- ==== Sys2Proof/Laws/Health.lean ====
section
/-!
SUPPORT. The health map's registers, and the counters that wear windows watch.
-/

namespace Sys2Proof.Machine

open Sys2Proof

/-- An update of the map touches registers of the map and its generation only. -/
theorem Dev.hmapUpdate_rd (d : Dev) (ofs lo w v : Nat) {a : Nat} (ho : ofs < 0x1000) (h : 0x10000 ≤ a) :
    (d.hmapUpdate ofs lo w v).rd a = d.rd a := by
  unfold Dev.hmapUpdate Dev.setHmap Dev.stampHmap
  dsimp only
  rw [Dev.rd_wr_ne, Dev.rd_wr_ne, Dev.rd_wr_ne, Dev.rd_wr_ne, Dev.rd_setFld_ne]
  all_goals (simp only [Reg.glbHmap, Reg.glbHealthGen]; omega)

/-- Counters and map entries of the watched units, apart from their thresholds. -/
theorem mem_wearUnits {d : Dev} {u : WearUnit} (h : u ∈ d.wearUnits) : 0x141000 ≤ u.ctr ∧ u.ofs < 0x1000 := by
  unfold Dev.wearUnits at h
  simp only [List.mem_append, List.mem_flatten, List.mem_map, List.mem_range] at h
  rcases h with ((((⟨l, ⟨cl, hc, rfl⟩, hu⟩ | ⟨cl, hc, rfl⟩) | ⟨cl, hc, rfl⟩) | ⟨k, hc, rfl⟩) | ⟨k, hc, rfl⟩) | ⟨l, ⟨n, hc, rfl⟩, hu⟩
  · obtain ⟨p, hp, rfl⟩ := List.mem_map.mp hu
    have := List.mem_range.mp hp
    simp only [Reg.coWsCe, hmCore]; omega
  · simp only [Reg.clCmemCe, hmCluster]; omega
  · simp only [Reg.numScrimCe, hmCluster]; omega
  · simp only [Reg.stkCe, hmStack]; omega
  · simp only [Reg.chCe, hmChannel]; omega
  · obtain ⟨p, hp, rfl⟩ := List.mem_map.mp hu
    have := List.mem_range.mp hp
    simp only [Reg.dieLinkCorr, hmDie]; omega

/-- Each watched counter stands once. -/
theorem wearUnits_nodup (d : Dev) : (d.wearUnits.map WearUnit.ctr).Nodup := by
  have pair : ∀ (n m : Nat) (g : Nat → Nat → WearUnit), (∀ i < n, ∀ j < m, ∀ i' < n, ∀ j' < m, (g i j).ctr = (g i' j').ctr → i = i' ∧ j = j') →
      (((List.range n).map fun i => (List.range m).map fun j => g i j).flatten.map WearUnit.ctr).Nodup := by
    intro n m g hg
    rw [List.map_flatten, List.map_map]
    refine List.nodup_flatten.mpr ⟨fun l hl => ?_, ?_⟩
    · obtain ⟨i, hi, rfl⟩ := List.mem_map.mp hl
      have hi := List.mem_range.mp hi
      show (List.map WearUnit.ctr (List.map (g i) (List.range m))).Nodup
      rw [List.map_map]
      refine (List.nodup_map_iff_inj_on List.nodup_range).mpr fun x hx y hy h => ?_
      exact (hg i hi x (List.mem_range.mp hx) i hi y (List.mem_range.mp hy) h).2
    · refine List.pairwise_map.mpr ?_
      refine List.Pairwise.imp_of_mem (R := fun a b => a ≠ b) (fun {i j} hi hj hne => ?_) List.nodup_range
      intro x hx hx'
      obtain ⟨u, hu, rfl⟩ := List.mem_map.mp hx
      obtain ⟨v, hv, h⟩ := List.mem_map.mp hx'
      obtain ⟨p, hp, rfl⟩ := List.mem_map.mp hu
      obtain ⟨q, hq, rfl⟩ := List.mem_map.mp hv
      exact hne (hg j (List.mem_range.mp hj) q (List.mem_range.mp hq) i (List.mem_range.mp hi) p (List.mem_range.mp hp) h).1.symm
  have single : ∀ (n : Nat) (g : Nat → WearUnit), (∀ i < n, ∀ j < n, (g i).ctr = (g j).ctr → i = j) →
      (((List.range n).map g).map WearUnit.ctr).Nodup := by
    intro n g hg
    rw [List.map_map]
    exact (List.nodup_map_iff_inj_on List.nodup_range).mpr fun x hx y hy h => hg x (List.mem_range.mp hx) y (List.mem_range.mp hy) h
  have mem2 : ∀ (n m : Nat) (g : Nat → Nat → WearUnit) (x : Nat),
      x ∈ ((List.range n).map fun i => (List.range m).map fun j => g i j).flatten.map WearUnit.ctr → ∃ i < n, ∃ j < m, (g i j).ctr = x := by
    intro n m g x h
    obtain ⟨u, hu, rfl⟩ := List.mem_map.mp h
    obtain ⟨l, hl, hu⟩ := List.mem_flatten.mp hu
    obtain ⟨i, hi, rfl⟩ := List.mem_map.mp hl
    obtain ⟨k, hk, rfl⟩ := List.mem_map.mp hu
    exact ⟨i, List.mem_range.mp hi, k, List.mem_range.mp hk, rfl⟩
  have mem1 : ∀ (n : Nat) (g : Nat → WearUnit) (x : Nat), x ∈ ((List.range n).map g).map WearUnit.ctr → ∃ i < n, (g i).ctr = x := by
    intro n g x h
    obtain ⟨u, hu, rfl⟩ := List.mem_map.mp h
    obtain ⟨i, hi, rfl⟩ := List.mem_map.mp hu
    exact ⟨i, List.mem_range.mp hi, rfl⟩
  have cat : ∀ {l k : List WearUnit}, (l.map WearUnit.ctr).Nodup → (k.map WearUnit.ctr).Nodup →
      (∀ x ∈ l.map WearUnit.ctr, ∀ y ∈ k.map WearUnit.ctr, x ≠ y) → ((l ++ k).map WearUnit.ctr).Nodup := by
    intro l k h1 h2 h3
    rw [List.map_append]
    exact List.nodup_append.mpr ⟨h1, h2, h3⟩
  have off : ∀ {l k : List WearUnit} {y : Nat}, y ∈ (l ++ k).map WearUnit.ctr → y ∈ l.map WearUnit.ctr ∨ y ∈ k.map WearUnit.ctr := by
    intro l k y h; rw [List.map_append] at h; exact List.mem_append.mp h
  unfold Dev.wearUnits
  dsimp only
  refine cat (cat (cat (cat (cat (pair _ _ _ ?_) (single _ _ ?_) ?_) (single _ _ ?_) ?_) (single _ _ ?_) ?_) (single _ _ ?_) ?_)
    (pair _ _ _ ?_) ?_
  · intro i _ j _ i' _ j' _ h; simp only [Reg.coWsCe] at h; omega
  · intro i _ j _ h; simp only [Reg.clCmemCe] at h; omega
  · intro x hx y hy
    obtain ⟨i, _, j, _, rfl⟩ := mem2 _ _ _ _ hx
    obtain ⟨k, _, rfl⟩ := mem1 _ _ _ hy
    simp only [Reg.coWsCe, Reg.clCmemCe]; omega
  · intro i _ j _ h; simp only [Reg.numScrimCe] at h; omega
  · intro x hx y hy
    obtain ⟨k, _, rfl⟩ := mem1 _ _ _ hy
    rcases off hx with hx | hx
    · obtain ⟨i, _, j, _, rfl⟩ := mem2 _ _ _ _ hx
      simp only [Reg.coWsCe, Reg.numScrimCe]; omega
    · obtain ⟨i, _, rfl⟩ := mem1 _ _ _ hx
      simp only [Reg.clCmemCe, Reg.numScrimCe]; omega
  · intro i _ j _ h; simp only [Reg.stkCe] at h; omega
  · intro x hx y hy
    obtain ⟨k, _, rfl⟩ := mem1 _ _ _ hy
    rcases off hx with hx | hx
    · rcases off hx with hx | hx
      · obtain ⟨i, _, j, _, rfl⟩ := mem2 _ _ _ _ hx
        simp only [Reg.coWsCe, Reg.stkCe]; omega
      · obtain ⟨i, _, rfl⟩ := mem1 _ _ _ hx
        simp only [Reg.clCmemCe, Reg.stkCe]; omega
    · obtain ⟨i, _, rfl⟩ := mem1 _ _ _ hx
      simp only [Reg.numScrimCe, Reg.stkCe]; omega
  · intro i _ j _ h; simp only [Reg.chCe] at h; omega
  · intro x hx y hy
    obtain ⟨k, _, rfl⟩ := mem1 _ _ _ hy
    rcases off hx with hx | hx
    · rcases off hx with hx | hx
      · rcases off hx with hx | hx
        · obtain ⟨i, _, j, _, rfl⟩ := mem2 _ _ _ _ hx
          simp only [Reg.coWsCe, Reg.chCe]; omega
        · obtain ⟨i, _, rfl⟩ := mem1 _ _ _ hx
          simp only [Reg.clCmemCe, Reg.chCe]; omega
      · obtain ⟨i, _, rfl⟩ := mem1 _ _ _ hx
        simp only [Reg.numScrimCe, Reg.chCe]; omega
    · obtain ⟨i, _, rfl⟩ := mem1 _ _ _ hx
      simp only [Reg.stkCe, Reg.chCe]; omega
  · intro i _ j _ i' _ j' _ h; simp only [Reg.dieLinkCorr] at h; omega
  · intro x hx y hy
    obtain ⟨k, _, m, _, rfl⟩ := mem2 _ _ _ _ hy
    rcases off hx with hx | hx
    · rcases off hx with hx | hx
      · rcases off hx with hx | hx
        · rcases off hx with hx | hx
          · obtain ⟨i, _, j, _, rfl⟩ := mem2 _ _ _ _ hx
            simp only [Reg.coWsCe, Reg.dieLinkCorr]; omega
          · obtain ⟨i, _, rfl⟩ := mem1 _ _ _ hx
            simp only [Reg.clCmemCe, Reg.dieLinkCorr]; omega
        · obtain ⟨i, _, rfl⟩ := mem1 _ _ _ hx
          simp only [Reg.numScrimCe, Reg.dieLinkCorr]; omega
      · obtain ⟨i, _, rfl⟩ := mem1 _ _ _ hx
        simp only [Reg.stkCe, Reg.dieLinkCorr]; omega
    · obtain ⟨i, _, rfl⟩ := mem1 _ _ _ hx
      simp only [Reg.chCe, Reg.dieLinkCorr]; omega

/-- The check of a unit leaves every register above the health map and BOOT but LOG_LOST. -/
theorem Dev.wearCheck_rd (d : Dev) {u : WearUnit} (ho : u.ofs < 0x1000) {a : Nat} (h : 0x40000 ≤ a) : (d.wearCheck u).rd a = d.rd a := by
  unfold Dev.wearCheck
  dsimp only
  generalize (if 2 ^ u.x < (_ : Nat) then (_ : Nat) else 0) = run
  generalize (if (_ : Nat) < 2 ^ 32 then (_ : Nat) else 2 ^ 32 - 1) = rise
  split
  · rw [Dev.logInternal_rd _ _ _ _ _ (by simp only [Reg.logLost]; omega) (by simp only [Reg.logMirrorLost]; omega), Dev.rd_count_ne _ (by simp only [Reg.glbWearCount]; omega),
      Dev.rd_setFld_ne _ _ _ (by simp only [Reg.glbState]; omega), Dev.hmapUpdate_rd _ _ _ _ _ ho (by omega)]
    rfl
  · rfl

end Sys2Proof.Machine
end

