-- ==== Sys2Proof/Laws/Cores.lean ====
section
/-!
SUPPORT. The registers of core positions through the operations that change core states.
-/

namespace Sys2Proof.Machine

open Sys2Proof

/-- A register in the block of a core position. -/
def coreReg (a : Nat) : Prop := 0x200000 ≤ a ∧ a < 0xA00000 ∧ 0x1000 ≤ a % 0x20000 ∧ a % 0x20000 < 0x12000

theorem coreReg_coStat {c : Nat} (h : c < 1088) : coreReg (coStatAddr c) := by
  have := Nat.mod_lt c (show 0 < 17 by decide)
  simp only [coreReg, coStatAddr, Reg.coStat, clOf, posOf]; omega

theorem coStat_inj {c c' : Nat} (h : coStatAddr c = coStatAddr c') : c = c' := by
  have := Nat.mod_lt c (show 0 < 17 by decide)
  have := Nat.mod_lt c' (show 0 < 17 by decide)
  simp only [coStatAddr, Reg.coStat, clOf, posOf] at h; omega

theorem coreReg_notDrip {a : Nat} (h : coreReg a) : ¬ dripReg a := by simp only [coreReg, dripReg] at *; omega

theorem Dev.segPush_rd (d : Dev) (cl j : Nat) (s : Spill) (t : DripTok) {a : Nat} (h : ¬ dripReg a) : (d.segPush cl j s t).rd a = d.rd a := by
  unfold Dev.segPush
  extract_lets e
  have he : e.rd a = d.rd a := congrArg (fun m => SMap.get resetWord m a)
    (Dev.stackWrite_keeps (P := fun e => Part.same d e .regs) (Part.same_keeps .regs rfl) rfl : e.regs = d.regs)
  rw [Dev.rd_count_ne _ (fun e => h (by rw [e]; simp only [dripReg, Reg.drpTokens]; omega)), (Dev.setSpill_dripFrame e _ _ _).2 _ h, he]

/-- A token put before a hop leaves every register but Drip's. -/
theorem Dev.putHop_rd (d : Dev) (x : Circuit) (j : Nat) (t : Token) {a : Nat} (h : ¬ dripReg a) : (d.putHop x j t).rd a = d.rd a := by
  unfold Dev.putHop
  split
  · exact Dev.segPush_rd d _ _ _ _ h
  · exact (Dev.storeTransfer_dripFrame _ x j _).2 _ h

theorem Dev.noteSent_rd (d : Dev) (x : Circuit) (t : Token) (a : Nat) : (d.noteSent x t).rd a = d.rd a := by
  unfold Dev.noteSent
  split
  · rfl
  · dsimp only; split <;> rfl

theorem Dev.standIns_rd (n : Nat) : ∀ (d : Dev) (x : Circuit) (ep s : Nat) {a : Nat}, coreReg a → (d.standIns x ep s n).rd a = d.rd a := by
  induction n with
  | zero => intro d x ep s a _; rfl
  | succ n ih =>
    intro d x ep s a h
    unfold Dev.standIns
    dsimp only
    rw [ih _ _ _ _ h, Dev.rd_count_ne _ (by simp only [coreReg, Reg.clStandin] at *; omega)]
    rw [Dev.putHop_rd _ _ _ _ (coreReg_notDrip h), Dev.noteSent_rd]

theorem Dev.degradeSlots_rd (d : Dev) (p : Nat → Bool) {a : Nat} (h : coreReg a) : (d.degradeSlots p).rd a = d.rd a := by
  unfold Dev.degradeSlots
  refine Dev.foldl_rd _ _ _ (fun e s _ => ?_) d
  split
  · refine Dev.rd_setFld_ne _ _ _ ?_
    simp only [coreReg, Reg.mnStat] at *; omega
  · rfl

theorem Dev.closeSpill_dripFrame (d : Dev) (cl j s : Nat) : d.dripFrame (d.closeSpill cl j s) := by
  unfold Dev.closeSpill
  dsimp only
  split
  · exact Dev.setSpill_dripFrame d _ _ _
  · refine (Dev.setSpill_dripFrame d _ _ _).trans (Dev.setFld_dripFrame _ _ _ ?_)
    simp only [dripReg, Reg.drpSet]; omega

theorem Dev.abandonSpills_dripFrame (d : Dev) (c : Nat) : d.dripFrame (d.abandonSpills c) := by
  unfold Dev.abandonSpills
  refine foldl_keeps (P := d.dripFrame) (fun e j h => ?_) d.dripFrame_refl
  split
  · split
    · exact h.trans (Dev.closeSpill_dripFrame e _ _ _)
    · exact h
  · exact h

theorem Dev.setGrp_rd (d : Dev) (g : Nat) (r : GroupRec) {a : Nat} (h : coreReg a) : (d.setGrp g r).rd a = d.rd a := by
  unfold Dev.setGrp
  dsimp only
  split
  · rw [Dev.rd_setFld_ne _ _ _ (by simp only [coreReg, Reg.scrCtxsel] at *; omega), Dev.rd_setFld_ne _ _ _ (by simp only [coreReg, Reg.scrCtxsel] at *; omega)]
    rfl
  · rfl

theorem coreReg_ne {a b : Nat} (h : coreReg a) (hb : b < 0x200000 ∨ 0xA00000 ≤ b) : a ≠ b := by
  simp only [coreReg] at h; omega

theorem Dev.epochDone_rd (d : Dev) (g : Nat) {a : Nat} (h : coreReg a) : (d.epochDone g).rd a = d.rd a := by
  unfold Dev.epochDone
  extract_lets x n d1 d2 d3 d4 d5 un
  show d5.rd a = _
  show d4.rd a = _
  have h1 : d1.rd a = d.rd a := Dev.rd_wr_ne _ _ (coreReg_ne h (by decide))
  have h2 : d2.rd a = d.rd a := (Dev.foldl_rd _ _ _ (fun e i _ => Dev.rd_wr_ne _ _ (coreReg_ne h (by simp only [Reg.numAdaptDigest]; omega))) _).trans h1
  rw [Dev.logInternal_rd _ _ _ _ _ (coreReg_ne h (by decide)) (coreReg_ne h (by decide)), Dev.logInternal_rd _ _ _ _ _ (coreReg_ne h (by decide)) (coreReg_ne h (by decide))]
  exact h2

theorem Dev.groupDone_rd (d : Dev) (g : Nat) (w : Wave) {a : Nat} (h : coreReg a) : (d.groupDone g w).rd a = d.rd a := by
  unfold Dev.groupDone
  extract_lets x d1 clean d2 y d3 d4
  have h1 : d1.regs = d.regs := foldl_keeps (P := fun e => e.regs = d.regs) (fun e y he => he) rfl
  have hc : ∀ f c, (clean f c).regs = f.regs := by
    intro f c
    dsimp only [clean, Dev.setCore]
    generalize List.range 64 = l
    exact foldl_keeps (P := fun e => e.regs = f.regs) (fun e y he => he) rfl
  clear_value clean
  have h2 : d2.regs = d.regs := foldl_keeps (P := fun e => e.regs = d.regs) (fun e y he => (hc e y).trans he) h1
  have h3 : d3.rd a = d.rd a := (Dev.setGrp_rd d2 _ _ h).trans (by unfold Dev.rd; rw [h2])
  have h4 : d4.rd a = d.rd a := (Dev.logInternal_rd d3 _ _ _ _ (coreReg_ne h (by decide)) (coreReg_ne h (by decide))).trans h3
  split
  · exact (Dev.epochDone_rd d4 g h).trans h4
  · exact h4

theorem Dev.waveLeave_rd (d : Dev) (g c : Nat) {a : Nat} (h : coreReg a) : (d.waveLeave g c).rd a = d.rd a := by
  unfold Dev.waveLeave
  dsimp only
  split
  · rfl
  · split
    · rw [Dev.groupDone_rd _ _ _ h, Dev.setGrp_rd _ _ _ h]
    · rw [Dev.setGrp_rd _ _ _ h]

theorem Dev.countCores_rd (d : Dev) (cl : Nat) {a : Nat} (h : coreReg a) : (d.countCores cl).rd a = d.rd a := by
  unfold Dev.countCores
  dsimp only
  rw [Dev.rd_setFld_ne _ _ _ (by simp only [coreReg, Reg.dieStat] at *; omega), Dev.rd_setFld_ne _ _ _ (by simp only [coreReg, Reg.clStat] at *; omega),
    Dev.rd_setFld_ne _ _ _ (by simp only [coreReg, Reg.clStat] at *; omega)]

theorem Dev.setHmap_rd (d : Dev) (ofs lo w v : Nat) {a : Nat} (h : coreReg a) (ho : ofs < 0x1000) : (d.setHmap ofs lo w v).rd a = d.rd a := by
  unfold Dev.setHmap
  exact Dev.rd_setFld_ne _ _ _ (coreReg_ne h (by simp only [Reg.glbHmap]; omega))

theorem Dev.setCoreState_state (d : Dev) (c st : Nat) (h : st < 8) : (d.setCoreState c st).coreState c = st := by
  unfold Dev.setCoreState Dev.coreState
  rw [Dev.fld_setFld_same _ _ _ _ (by decide)]
  exact Nat.mod_eq_of_lt h

theorem Dev.setCoreState_ne (d : Dev) {c c' : Nat} (st : Nat) (h : c' ≠ c) : (d.setCoreState c st).coreState c' = d.coreState c' := by
  unfold Dev.setCoreState Dev.coreState
  exact Dev.fld_setFld_ne _ _ _ _ (fun e => h (coStat_inj e))

end Sys2Proof.Machine
end

