-- ==== Sys2Proof/Laws/Gives.lean ====
section
/-!
SUPPORT. From the wrapper of a command's meaning to its answer.
-/

namespace Sys2Proof.Machine

open Sys2Proof

theorem gives_next {i : Instr} {s : State} {P : Dev → Prop} {d : Dev} (e : exec i s = s.next d) (h : P d) : Gives i s P :=
  ⟨d, e, h⟩
theorem gives_live {i : Instr} {s : State} {P : Dev → Prop} {f : Dev → Dev} (e : exec i s = s.live f)
    (ha : s.dev.alive = true) (h : P (f s.dev)) : Gives i s P := ⟨_, e.trans (State.live_of s f ha), h⟩
theorem gives_up {i : Instr} {s : State} {P : Dev → Prop} {f : Dev → Dev} (e : exec i s = s.up f)
    (ha : s.dev.inReset = false) (h : P (f s.dev)) : Gives i s P := ⟨_, e.trans (State.up_of s f ha), h⟩
theorem gives_timed {i : Instr} {s : State} {P : Dev → Prop} {f : Dev → Dev} (e : exec i s = s.timed f)
    (ha : s.dev.alive = true) (hf : s.dev.fit 36 = true) (h : P (f s.dev)) : Gives i s P :=
  ⟨_, e.trans (State.timed_of s f ha hf), h⟩
theorem gives_pin {i : Instr} {s : State} {P : Dev → Prop} {f : Dev → Dev} (e : exec i s = s.pin f)
    (h : P (f s.dev)) : Gives i s P := ⟨_, e.trans (State.pin_of s f), h⟩
theorem gives_lane {i : Instr} {s : State} {P : Dev → Prop} {l : LaneId} {f : Dev → Dev} (e : exec i s = s.onLane l f)
    (ha : s.dev.alive = true) (h : P ((f s.dev).laneSync l)) : Gives i s P := ⟨_, e.trans (State.onLane_of s l f ha), h⟩

/-- Two things said of one answer. -/
theorem Gives.and {i : Instr} {s : State} {P Q : Dev → Prop} (h : Gives i s P) (h' : Gives i s Q) :
    Gives i s fun d => P d ∧ Q d := by
  obtain ⟨d, e, p⟩ := h
  obtain ⟨d', e', q⟩ := h'
  rw [e] at e'
  injection e' with e'
  injection e' with e'
  subst e'
  exact ⟨d, e, p, q⟩

theorem Gives.mono {i : Instr} {s : State} {P Q : Dev → Prop} (h : Gives i s P) (hq : ∀ d, P d → Q d) : Gives i s Q := by
  obtain ⟨d, e, p⟩ := h
  exact ⟨d, e, hq d p⟩

end Sys2Proof.Machine
end

