-- ==== Sys2Proof/Laws/Events.lean ====
section
/-!
SUPPORT. Event slots: an event's record put into its slot is the record read back (R20), and measuring completion changes nothing
else of it.
-/

namespace Sys2Proof.Machine

open Sys2Proof

theorem Dev.evAt_n {d : Dev} {n : Nat} {e : Ev} (h : d.evAt n = some e) : e.n = n := by
  unfold Dev.evAt at h
  split at h
  · split at h
    · next h' => cases h; exact h'
    · cases h
  · cases h

theorem Dev.evAt_putEv (d : Dev) (e : Ev) : (d.putEv e).evAt e.n = some e := by
  unfold Dev.evAt Dev.putEv
  simp [SMap.get_set_same]

theorem Dev.evAt_of_scr {d e : Dev} (h : e.scr = d.scr) (n : Nat) : e.evAt n = d.evAt n := by
  unfold Dev.evAt; rw [h]

/-- The record after its completion is measured. -/
theorem Dev.measure_snd (d : Dev) (e : Ev) : ∃ c, (d.measure e).2 = { e with completion := c } := by
  unfold Dev.measure
  repeat' split
  all_goals exact ⟨_, rfl⟩

end Sys2Proof.Machine
end

