-- ==== Sys2Proof/Laws/KeepDataflow.lean ====
section
/-!
SUPPORT. What the operations of Machine/Dataflow.lean may change.
-/

namespace Sys2Proof.Machine

open Sys2Proof

theorem Dev.dripUse_keeps {P : Dev → Prop} {d : Dev} {cl : ℕ} {f : Dev → Dev} (k : Keeps [.regs, .log, .stk, .fab] P) (hf : ∀ e, P e → P (f e)) (h : P d) :
    P (Dev.dripUse d cl f) := by
  unfold Dev.dripUse
  repeat' (first
    | with_reducible assumption
    | with_reducible refine Dev.settleDrip_keeps (k.mono rfl) ?_
    | with_reducible refine Dev.useGrant_keeps (k.mono rfl) ?_
    | with_reducible refine hf _ ?_
    | (fail_if_no_progress extract_lets +onlyGivenNames x)
    | split)

end Sys2Proof.Machine
end

