-- ==== Sys2Proof/Laws/KeepGroup.lean ====
section
/-!
SUPPORT. What the operations of Machine/Group.lean may change.
-/

namespace Sys2Proof.Machine

open Sys2Proof

theorem Dev.takeDmaw_keeps {P : Dev → Prop} {d : Dev} {b : ℕ} {data : List (BitVec 128)} (k : Keeps [.regs, .outbox, .ing, .store, .msh, .hst] P) (h : P d) :
    P (Dev.takeDmaw d b data) := by
  unfold Dev.takeDmaw
  repeat' (first
    | with_reducible assumption
    | with_reducible refine Dev.memberJob_keeps (k.mono rfl) ?_
    | (fail_if_no_progress extract_lets +onlyGivenNames x)
    | split)

theorem Dev.takeDmar_keeps {P : Dev → Prop} {d : Dev} {b : ℕ} {host : List Sys2Proof.Byte} (k : Keeps [.regs, .outbox, .ing, .store, .msh, .hst] P) (h : P d) :
    P (Dev.takeDmar d b host) := by
  unfold Dev.takeDmar
  repeat' (first
    | with_reducible assumption
    | with_reducible refine Dev.memberJob_keeps (k.mono rfl) ?_
    | (fail_if_no_progress extract_lets +onlyGivenNames x)
    | split)

theorem Dev.takeDmac_keeps {P : Dev → Prop} {d : Dev} {b : ℕ} {data : List (BitVec 128)} (k : Keeps [.regs, .log, .hst] P) (h : P d) :
    P (Dev.takeDmac d b data) := by
  unfold Dev.takeDmac
  repeat' (first
    | with_reducible assumption
    | with_reducible refine Dev.takeCounts_keeps (k.mono rfl) ?_
    | with_reducible refine Dev.count_keeps (k.mono rfl) ?_
    | (fail_if_no_progress extract_lets +onlyGivenNames x)
    | split
    | with_reducible refine upd_hst (k.mono rfl) ?_)

theorem Dev.hstateDue_keeps {P : Dev → Prop} {d : Dev} (k : Keeps [.outbox, .ing, .msh] P) (h : P d) :
    P (Dev.hstateDue d) := by
  unfold Dev.hstateDue
  repeat' (first
    | with_reducible assumption
    | with_reducible refine Dev.sendHstate_keeps (k.mono rfl) ?_
    | (fail_if_no_progress extract_lets +onlyGivenNames x)
    | split
    | with_reducible refine upd_msh (k.mono rfl) ?_)

theorem Dev.takeAck_keeps {P : Dev → Prop} {d : Dev} {p : ℕ} {b : ℕ} (k : Keeps [.regs, .outbox, .ing, .store, .msh] P) (h : P d) :
    P (Dev.takeAck d p b) := by
  unfold Dev.takeAck
  repeat' (first
    | with_reducible assumption
    | with_reducible refine Dev.sendMessage_keeps (k.mono rfl) ?_
    | with_reducible refine Dev.ackArrives_keeps (k.mono rfl) ?_
    | (fail_if_no_progress extract_lets +onlyGivenNames x)
    | split)

theorem Dev.labelIn_keeps {P : Dev → Prop} {d : Dev} {r : ℕ} {entry : ℕ} (k : Keeps [.regs, .outbox, .ing, .store, .stk, .msh, .hst, .fab] P) (h : P d) :
    P (Dev.labelIn d r entry) := by
  unfold Dev.labelIn
  repeat' (first
    | with_reducible assumption
    | with_reducible refine Dev.hostRead_keeps (k.mono rfl) ?_
    | with_reducible refine Dev.xdieSend_keeps (k.mono rfl) ?_
    | with_reducible refine Dev.wr_keeps (k.mono rfl) ?_
    | with_reducible refine Dev.count_keeps (k.mono rfl) ?_
    | with_reducible refine Dev.writeStatus_keeps (k.mono rfl) ?_
    | with_reducible refine foldl_keeps (fun e x he => ?_) ?_
    | with_reducible refine foldl_fst_keeps (fun e x he => ?_) ?_
    | with_reducible refine foldl_snd_keeps (fun e x he => ?_) ?_
    | (with_reducible refine of_fst ‹_› ?_)
    | (with_reducible refine of_snd ‹_› ?_)
    | ((fail_if_no_progress extract_lets +onlyGivenNames x); refine cut_keeps (A := P x) ?_ (fun hx => ?_); on_goal 1 => subst x)
    | (fail_if_no_progress extract_lets +onlyGivenNames x)
    | split)

end Sys2Proof.Machine
end

