-- ==== Sys2Proof/Laws/KeepMemories.lean ====
section
/-!
SUPPORT. What the operations of Machine/Memories.lean may change.
-/

namespace Sys2Proof.Machine

open Sys2Proof

theorem Dev.countCes_keeps {P : Dev → Prop} {d : Dev} {cs : List (Sys2Proof.CoreId × ℕ)} (k : Keeps [.regs] P) (h : P d) :
    P (Dev.countCes d cs) := by
  unfold Dev.countCes
  repeat' (first
    | with_reducible assumption
    | with_reducible refine Dev.countN_keeps (k.mono rfl) ?_
    | with_reducible refine foldl_keeps (fun e x he => ?_) ?_)

end Sys2Proof.Machine
end

