-- ==== Sys2Proof/Laws/KeepSkimlink.lean ====
section
/-!
SUPPORT. What the operations of Machine/Skimlink.lean may change.
-/

namespace Sys2Proof.Machine

open Sys2Proof

theorem Dev.takeBlock_keeps {P : Dev → Prop} {d : Dev} {l : Sys2Proof.LaneId} {p : Blk → Bool} {f : Dev → BitVec 128 → Dev} (k : Keeps [.regs, .ing] P) (hf : ∀ e b, P e → P (f e b)) (h : P d) :
    P (Dev.takeBlock d l p f) := by
  unfold Dev.takeBlock
  repeat' (first
    | with_reducible assumption
    | with_reducible refine Dev.popBlock_keeps (k.mono rfl) ?_
    | with_reducible refine hf _ _ ?_
    | (fail_if_no_progress extract_lets +onlyGivenNames x)
    | split)

end Sys2Proof.Machine
end

