-- ==== Sys2Proof/Laws/KeepTimeService.lean ====
section
/-!
SUPPORT. What the operations of Machine/TimeService.lean may change.
-/

namespace Sys2Proof.Machine

open Sys2Proof

theorem Dev.jumpNow_keeps {P : Dev → Prop} {d : Dev} (k : Keeps [.regs, .log, .freeCtr, .outbox, .scr, .tms, .acq] P) (h : P d) :
    P (Dev.jumpNow d) := by
  unfold Dev.jumpNow
  repeat' (first
    | with_reducible assumption
    | with_reducible refine Dev.applyJump_keeps (k.mono rfl) ?_
    | with_reducible refine Dev.rephase_keeps (k.mono rfl) ?_
    | ((fail_if_no_progress extract_lets +onlyGivenNames x); refine cut_keeps (A := P x) ?_ (fun hx => ?_); on_goal 1 => subst x)
    | (fail_if_no_progress extract_lets +onlyGivenNames x)
    | split)

end Sys2Proof.Machine
end

