-- ==== Sys2Proof/Laws/KeepStep.lean ====
section
/-!
SUPPORT. What the operations of Machine/Step.lean may change.
-/

namespace Sys2Proof.Machine

open Sys2Proof

theorem Dev.idle_keeps {P : Dev → Prop} {d : Dev} (k : Keeps [.regs, .devNs, .outbox, .ing, .tms, .store, .msh, .hst] P) (h : P d) :
    P (Dev.idle d) := by
  unfold Dev.idle
  repeat' (first
    | with_reducible assumption
    | with_reducible refine Dev.tick_keeps (k.mono rfl) ?_
    | with_reducible refine Dev.acksDue_keeps (k.mono rfl) ?_
    | with_reducible refine Dev.laneSlots_keeps (k.mono rfl) ?_
    | with_reducible refine Dev.serveJob_keeps (k.mono rfl) ?_
    | (fail_if_no_progress extract_lets +onlyGivenNames x)
    | split)

end Sys2Proof.Machine
end

