-- ==== Sys2Proof/Laws/KeepExec.lean ====
section
/-!
SUPPORT. What each command may change: every meaning answers a next state with the same queue, whose device keeps what the command's
parts cannot break.
-/

namespace Sys2Proof.Machine

open Sys2Proof

/-- A meaning answers a next state with the queue of s and a device of which P holds. -/
def Ends (P : Dev → Prop) (s : State) (r : Host.Outcome State Fault Refusal) : Prop :=
  ∃ d, r = .next { s with dev := d } ∧ P d

theorem State.up_ends {P : Dev → Prop} {s : State} {f : Dev → Dev} (hf : ∀ e, P e → P (f e)) (h : P s.dev) :
    Ends P s (s.up f) := ⟨_, rfl, by split; exacts [h, hf _ h]⟩

theorem State.live_ends {P : Dev → Prop} {s : State} {f : Dev → Dev} (hf : ∀ e, P e → P (f e)) (h : P s.dev) :
    Ends P s (s.live f) := ⟨_, rfl, by split; exacts [hf _ h, h]⟩

theorem State.pin_ends {P : Dev → Prop} {s : State} {f : Dev → Dev} (hf : ∀ e, P e → P (f e)) (h : P s.dev) :
    Ends P s (s.pin f) := ⟨_, rfl, hf _ h⟩

theorem State.timed_ends {P : Dev → Prop} {s : State} {f : Dev → Dev} (hf : ∀ e, P e → P (f e)) (h : P s.dev) :
    Ends P s (s.timed f) := State.live_ends (fun e he => by split; exacts [hf _ he, he]) h

theorem State.onLane_ends {P : Dev → Prop} {s : State} {l : LaneId} {f : Dev → Dev} (k : Keeps [.regs] P)
    (hf : ∀ e, P e → P (f e)) (h : P s.dev) : Ends P s (s.onLane l f) :=
  State.live_ends (fun _ he => Dev.laneSync_keeps k (hf _ he)) h

theorem execSync_keeps {P : Dev → Prop} {m : Sys2Proof.SyncMsg} {s : State} (k : Keeps [.regs, .log, .freeCtr, .outbox, .tms] P) (h : P s.dev) :
    Ends P s (execSync m s) := by
  refine State.timed_ends (fun e he => ?_) h
  repeat' (first | with_reducible assumption | with_reducible refine Dev.ptpSync_keeps (k.mono rfl) ?_)

theorem execAnnounce_keeps {P : Dev → Prop} {a : Sys2Proof.AnnounceMsg} {s : State} (k : Keeps [.regs, .freeCtr, .tms] P) (h : P s.dev) :
    Ends P s (execAnnounce a s) := by
  refine State.timed_ends (fun e he => ?_) h
  repeat' (first | with_reducible assumption | with_reducible refine Dev.announceRx_keeps (k.mono rfl) ?_)

theorem execAnnounceTimeout_keeps {P : Dev → Prop} {tie : Bool} {s : State} (k : Keeps [.regs, .freeCtr, .tms] P) (h : P s.dev) :
    Ends P s (execAnnounceTimeout tie s) := by
  refine State.timed_ends (fun e he => ?_) h
  repeat' (first | with_reducible assumption | with_reducible refine Dev.announceExpire_keeps (k.mono rfl) ?_)

theorem execDelayReq_keeps {P : Dev → Prop} {t3 : ℕ} {s : State} (k : Keeps [.outbox, .tms] P) (h : P s.dev) :
    Ends P s (execDelayReq t3 s) := by
  refine State.timed_ends (fun e he => ?_) h
  repeat' (first | with_reducible assumption | with_reducible refine Dev.sendDelayReq_keeps (k.mono rfl) ?_)

theorem execDelayResp_keeps {P : Dev → Prop} {domain : Sys2Proof.Byte} {seq : BitVec 16} {t4 : ℤ} {s : State} (k : Keeps [.regs, .log, .freeCtr, .outbox, .tms] P) (h : P s.dev) :
    Ends P s (execDelayResp domain seq t4 s) := by
  refine State.timed_ends (fun e he => ?_) h
  repeat' (first
    | with_reducible assumption
    | with_reducible refine Dev.exchange_keeps (k.mono rfl) ?_
    | (fail_if_no_progress extract_lets +onlyGivenNames x)
    | split)

theorem execTsyncRx_keeps {P : Dev → Prop} {p : Fin 6} {t1 : ℕ} {t2 : ℕ} {y3 : Sys2Proof.Byte} {state : Sys2Proof.Byte} {s : State} (k : Keeps [.regs, .log, .freeCtr, .outbox, .tms] P) (h : P s.dev) :
    Ends P s (execTsyncRx p t1 t2 y3 state s) := by
  refine State.timed_ends (fun e he => ?_) h
  repeat' (first | with_reducible assumption | with_reducible refine Dev.tsync_keeps (k.mono rfl) ?_)

theorem execTsyncTimeout_keeps {P : Dev → Prop} {p : Fin 6} {tie : Bool} {s : State} (k : Keeps [.regs, .freeCtr, .tms] P) (h : P s.dev) :
    Ends P s (execTsyncTimeout p tie s) := by
  refine State.timed_ends (fun e he => ?_) h
  repeat' (first | with_reducible assumption | with_reducible refine Dev.tsyncExpire_keeps (k.mono rfl) ?_)

theorem execTsyncTx_keeps {P : Dev → Prop} {p : Fin 72} {s : State} (k : Keeps [.regs, .outbox, .ing, .tms] P) (h : P s.dev) :
    Ends P s (execTsyncTx p s) := by
  refine State.timed_ends (fun e he => ?_) h
  repeat' (first | with_reducible assumption | with_reducible refine Dev.sendTsync_keeps (k.mono rfl) ?_)

theorem execTinfoTx_keeps {P : Dev → Prop} {p : Fin 72} {s : State} (k : Keeps [.outbox, .ing, .tms] P) (h : P s.dev) :
    Ends P s (execTinfoTx p s) := by
  refine State.timed_ends (fun e he => ?_) h
  repeat' (first | with_reducible assumption | with_reducible refine Dev.sendTinfo_keeps (k.mono rfl) ?_)

theorem execTinfoRx_keeps {P : Dev → Prop} {p : Fin 6} {b : BitVec 120} {s : State} (k : Keeps [.regs, .tms] P) (h : P s.dev) :
    Ends P s (execTinfoRx p b s) := by
  refine State.timed_ends (fun e he => ?_) h
  repeat' (first | with_reducible assumption | with_reducible refine Dev.tinfo_keeps (k.mono rfl) ?_)

theorem execTdreqRx_keeps {P : Dev → Prop} {p : Fin 72} {seq : Sys2Proof.Byte} {t : ℕ} {s : State} (k : Keeps [.regs, .outbox, .ing] P) (h : P s.dev) :
    Ends P s (execTdreqRx p seq t s) := by
  refine State.timed_ends (fun e he => ?_) h
  repeat' (first | with_reducible assumption | with_reducible refine Dev.answerTdreq_keeps (k.mono rfl) ?_)

theorem execTdreqTx_keeps {P : Dev → Prop} {p : Fin 6} {t3 : ℕ} {s : State} (k : Keeps [.outbox, .ing, .tms] P) (h : P s.dev) :
    Ends P s (execTdreqTx p t3 s) := by
  refine State.timed_ends (fun e he => ?_) h
  repeat' (first | with_reducible assumption | with_reducible refine Dev.sendTdreq_keeps (k.mono rfl) ?_)

theorem execTdrespRx_keeps {P : Dev → Prop} {p : Fin 6} {seq : Sys2Proof.Byte} {t4 : ℕ} {s : State} (k : Keeps [.regs, .log, .freeCtr, .outbox, .tms] P) (h : P s.dev) :
    Ends P s (execTdrespRx p seq t4 s) := by
  refine State.timed_ends (fun e he => ?_) h
  repeat' (first
    | with_reducible assumption
    | with_reducible refine Dev.exchange_keeps (k.mono rfl) ?_
    | (fail_if_no_progress extract_lets +onlyGivenNames x)
    | split)

theorem execJumpStep_keeps {P : Dev → Prop} {s : State} (k : Keeps [.regs, .log, .freeCtr, .outbox, .scr, .tms, .acq] P) (h : P s.dev) :
    Ends P s (execJumpStep s) := by
  refine State.timed_ends (fun e he => ?_) h
  repeat' (first | with_reducible assumption | with_reducible refine Dev.jumpNow_keeps (k.mono rfl) ?_)

theorem execMark_keeps {P : Dev → Prop} {g : Fin 16} {s : State} (k : Keeps [.regs, .outbox, .tms] P) (h : P s.dev) :
    Ends P s (execMark g s) := by
  refine State.timed_ends (fun e he => ?_) h
  repeat' (first | with_reducible assumption | with_reducible refine Dev.markDue_keeps (k.mono rfl) ?_)

theorem execMarkBlock_keeps {P : Dev → Prop} {g : Fin 16} {s : State} (k : Keeps [.outbox, .ing, .tms] P) (h : P s.dev) :
    Ends P s (execMarkBlock g s) := by
  refine State.timed_ends (fun e he => ?_) h
  repeat' (first | with_reducible assumption | with_reducible refine Dev.markBlocks_keeps (k.mono rfl) ?_)

theorem execTmarkWidthEnd_keeps {P : Dev → Prop} {g : Fin 16} {s : State} (k : Keeps [.outbox, .tms] P) (h : P s.dev) :
    Ends P s (execTmarkWidthEnd g s) := by
  refine State.timed_ends (fun e he => ?_) h
  repeat' (first | with_reducible assumption | with_reducible refine Dev.markIdle_keeps (k.mono rfl) ?_)

theorem execHelloTx_keeps {P : Dev → Prop} {p : Fin 6} {s : State} (k : Keeps [.outbox, .ing, .msh] P) (h : P s.dev) :
    Ends P s (execHelloTx p s) := by
  refine State.live_ends (fun e he => ?_) h
  repeat' (first | with_reducible assumption | with_reducible refine Dev.sendHello_keeps (k.mono rfl) ?_)

theorem execHello_keeps {P : Dev → Prop} {p : Fin 6} {b : BitVec 120} {tie : Bool} {s : State} (k : Keeps [.regs, .log, .msh] P) (h : P s.dev) :
    Ends P s (execHello p b tie s) := by
  refine State.live_ends (fun e he => ?_) h
  repeat' (first | with_reducible assumption | with_reducible refine Dev.hello_keeps (k.mono rfl) ?_)

theorem execKeepaliveExpiry_keeps {P : Dev → Prop} {p : Fin 6} {tie : Bool} {s : State} (k : Keeps [.regs] P) (h : P s.dev) :
    Ends P s (execKeepaliveExpiry p tie s) := by
  refine State.live_ends (fun e he => ?_) h
  repeat' (first | with_reducible assumption | with_reducible refine Dev.keepaliveExpire_keeps (k.mono rfl) ?_)

theorem execContrib_keeps {P : Dev → Prop} {p : Fin 6} {b : BitVec 120} {s : State} (k : Keeps [.regs, .outbox, .ing, .scr] P) (h : P s.dev) :
    Ends P s (execContrib p b s) := by
  refine State.live_ends (fun e he => ?_) h
  repeat' (first | with_reducible assumption | with_reducible refine Dev.contrib_keeps (k.mono rfl) ?_)

theorem execWreq_keeps {P : Dev → Prop} {p : Fin 6} {b : BitVec 120} {data : List (BitVec 128)} {s : State} (k : Keeps [.regs, .caps, .log, .freeCtr, .outbox, .ing, .prm, .tms, .acq, .store, .msh, .hst, .fab, .num, .boot, .clk, .pwr] P) (h : P s.dev) :
    Ends P s (execWreq p b data s) := by
  refine State.live_ends (fun e he => ?_) h
  repeat' (first
    | with_reducible assumption
    | with_reducible refine Dev.message_keeps (k.mono rfl) (fun e he => ?_) ?_
    | with_reducible refine Dev.takeWreq_keeps (k.mono rfl) ?_)

theorem execWcpl_keeps {P : Dev → Prop} {p : Fin 6} {b : BitVec 120} {data : List (BitVec 128)} {s : State} (k : Keeps [.regs, .outbox, .ing, .msh] P) (h : P s.dev) :
    Ends P s (execWcpl p b data s) := by
  refine State.live_ends (fun e he => ?_) h
  repeat' (first
    | with_reducible assumption
    | with_reducible refine Dev.message_keeps (k.mono rfl) (fun e he => ?_) ?_
    | with_reducible refine Dev.takeWcpl_keeps (k.mono rfl) ?_
    | (fail_if_no_progress extract_lets +onlyGivenNames x)
    | split)

theorem execDmaw_keeps {P : Dev → Prop} {p : Fin 6} {b : BitVec 120} {data : List (BitVec 128)} {s : State} (k : Keeps [.regs, .outbox, .ing, .store, .msh, .hst] P) (h : P s.dev) :
    Ends P s (execDmaw p b data s) := by
  refine State.live_ends (fun e he => ?_) h
  repeat' (first
    | with_reducible assumption
    | with_reducible refine Dev.message_keeps (k.mono rfl) (fun e he => ?_) ?_
    | with_reducible refine Dev.takeDmaw_keeps (k.mono rfl) ?_)

theorem execDmar_keeps {P : Dev → Prop} {p : Fin 6} {b : BitVec 120} {host : List Sys2Proof.Byte} {s : State} (k : Keeps [.regs, .outbox, .ing, .store, .msh, .hst] P) (h : P s.dev) :
    Ends P s (execDmar p b host s) := by
  refine State.live_ends (fun e he => ?_) h
  repeat' (first
    | with_reducible assumption
    | with_reducible refine Dev.message_keeps (k.mono rfl) (fun e he => ?_) ?_
    | with_reducible refine Dev.takeDmar_keeps (k.mono rfl) ?_)

theorem execDmac_keeps {P : Dev → Prop} {p : Fin 6} {b : BitVec 120} {data : List (BitVec 128)} {s : State} (k : Keeps [.regs, .log, .outbox, .ing, .msh, .hst] P) (h : P s.dev) :
    Ends P s (execDmac p b data s) := by
  refine State.live_ends (fun e he => ?_) h
  repeat' (first
    | with_reducible assumption
    | with_reducible refine Dev.message_keeps (k.mono rfl) (fun e he => ?_) ?_
    | with_reducible refine Dev.takeDmac_keeps (k.mono rfl) ?_)

theorem execIrq_keeps {P : Dev → Prop} {p : Fin 6} {b : BitVec 120} {s : State} (k : Keeps [.regs, .outbox, .ing, .msh, .hst] P) (h : P s.dev) :
    Ends P s (execIrq p b s) := by
  refine State.live_ends (fun e he => ?_) h
  repeat' (first
    | with_reducible assumption
    | with_reducible refine Dev.message_keeps (k.mono rfl) (fun e he => ?_) ?_
    | with_reducible refine Dev.queueJob_keeps (k.mono rfl) ?_
    | with_reducible refine Dev.raiseMsix_keeps (k.mono rfl) ?_
    | (fail_if_no_progress extract_lets +onlyGivenNames x)
    | split)

theorem execHstate_keeps {P : Dev → Prop} {p : Fin 6} {b : BitVec 120} {s : State} (k : Keeps [.regs, .log, .outbox, .ing, .store, .msh, .hst] P) (h : P s.dev) :
    Ends P s (execHstate p b s) := by
  refine State.live_ends (fun e he => ?_) h
  repeat' (first
    | with_reducible assumption
    | with_reducible refine Dev.learnHstate_keeps (k.mono rfl) ?_
    | (fail_if_no_progress extract_lets +onlyGivenNames x)
    | split)

theorem execHstateTx_keeps {P : Dev → Prop} {s : State} (k : Keeps [.outbox, .ing, .msh] P) (h : P s.dev) :
    Ends P s (execHstateTx s) := by
  refine State.live_ends (fun e he => ?_) h
  repeat' (first | with_reducible assumption | with_reducible refine Dev.hstateDue_keeps (k.mono rfl) ?_)

theorem execAck_keeps {P : Dev → Prop} {p : Fin 6} {b : BitVec 120} {s : State} (k : Keeps [.regs, .outbox, .ing, .store, .msh] P) (h : P s.dev) :
    Ends P s (execAck p b s) := by
  refine State.live_ends (fun e he => ?_) h
  repeat' (first | with_reducible assumption | with_reducible refine Dev.takeAck_keeps (k.mono rfl) ?_)

theorem execAckTx_keeps {P : Dev → Prop} {peer : Fin 64} {s : State} (k : Keeps [.outbox, .ing, .msh] P) (h : P s.dev) :
    Ends P s (execAckTx peer s) := by
  refine State.live_ends (fun e he => ?_) h
  repeat' (first | with_reducible assumption | with_reducible refine Dev.sendAck_keeps (k.mono rfl) ?_)

theorem execHostResend_keeps {P : Dev → Prop} {peer : Fin 64} {s : State} (k : Keeps [.regs, .outbox, .ing, .msh] P) (h : P s.dev) :
    Ends P s (execHostResend peer s) := by
  refine State.live_ends (fun e he => ?_) h
  repeat' (first | with_reducible assumption | with_reducible refine Dev.hostResend_keeps (k.mono rfl) ?_)

theorem execBarAccess_keeps {P : Dev → Prop} {a : BitVec 30} {write : Bool} {v : Sys2Proof.Word} {s : State} (k : Keeps [.regs, .caps, .log, .freeCtr, .outbox, .ing, .prm, .tms, .acq, .store, .msh, .hst, .fab, .num, .boot, .clk, .pwr] P) (h : P s.dev) :
    Ends P s (execBarAccess a write v s) := by
  refine State.up_ends (fun e he => ?_) h
  repeat' (first | with_reducible assumption | with_reducible refine Dev.barAccess_keeps (k.mono rfl) ?_)

theorem execWindowReadTimeout_keeps {P : Dev → Prop} {rtag : BitVec 16} {tie : Bool} {s : State} (k : Keeps [.regs, .outbox, .msh] P) (h : P s.dev) :
    Ends P s (execWindowReadTimeout rtag tie s) := by
  refine State.up_ends (fun e he => ?_) h
  repeat' (first | with_reducible assumption | with_reducible refine Dev.readExpire_keeps (k.mono rfl) ?_)

theorem execLinkDown_keeps {P : Dev → Prop} {s : State} (k : Keeps [.regs, .log, .outbox, .ing, .store, .msh, .hst] P) (h : P s.dev) :
    Ends P s (execLinkDown s) := by
  refine State.up_ends (fun e he => ?_) h
  repeat' (first | with_reducible assumption | with_reducible refine Dev.linkDown_keeps (k.mono rfl) ?_)

theorem execPerstN_keeps {P : Dev → Prop} {e : Sys2Proof.PerstEvent} {s : State} (k : Keeps [.regs, .log, .freeCtr, .outbox, .ing, .store, .msh, .hst] P) (h : P s.dev) :
    Ends P s (execPerstN e s) := by
  refine State.up_ends (fun e he => ?_) h
  repeat' (first
    | with_reducible assumption
    | with_reducible refine Dev.perstOn_keeps (k.mono rfl) ?_
    | with_reducible refine Dev.perstOff_keeps (k.mono rfl) ?_
    | (fail_if_no_progress extract_lets +onlyGivenNames x)
    | split)

theorem execD3hot_keeps {P : Dev → Prop} {enter : Bool} {s : State} (k : Keeps [.regs, .outbox, .ing, .store, .msh, .hst] P) (h : P s.dev) :
    Ends P s (execD3hot enter s) := by
  refine State.up_ends (fun e he => ?_) h
  repeat' (first | with_reducible assumption | with_reducible refine Dev.powerState_keeps (k.mono rfl) ?_)

theorem execPoll_keeps {P : Dev → Prop} {s : State} (k : Keeps [.regs, .outbox, .ing, .store, .msh, .hst] P) (h : P s.dev) :
    Ends P s (execPoll s) := by
  refine State.live_ends (fun e he => ?_) h
  repeat' (first | with_reducible assumption | with_reducible refine Dev.poll_keeps (k.mono rfl) ?_)

theorem execPollData_keeps {P : Dev → Prop} {late : Bool} {idx : List Sys2Proof.Word} {s : State} (k : Keeps [.regs, .log, .hst] P) (h : P s.dev) :
    Ends P s (execPollData late idx s) := by
  refine State.live_ends (fun e he => ?_) h
  repeat' (first | with_reducible assumption | with_reducible refine Dev.pollArrives_keeps (k.mono rfl) ?_)

theorem execPollExpiry_keeps {P : Dev → Prop} {tie : Bool} {s : State} (k : Keeps [.regs, .hst] P) (h : P s.dev) :
    Ends P s (execPollExpiry tie s) := by
  refine State.live_ends (fun e he => ?_) h
  repeat' (first | with_reducible assumption | with_reducible refine Dev.pollExpire_keeps (k.mono rfl) ?_)

theorem execDescriptorFill_keeps {P : Dev → Prop} {r : Fin 32} {bufAddr : BitVec 64} {bufLen : Sys2Proof.Word} {corrected : List (Fin 8)} {s : State} (k : Keeps [.regs, .log, .outbox, .ing, .store, .msh, .hst] P) (h : P s.dev) :
    Ends P s (execDescriptorFill r bufAddr bufLen corrected s) := by
  refine State.live_ends (fun e he => ?_) h
  repeat' (first | with_reducible assumption | with_reducible refine Dev.fillDescriptor_keeps (k.mono rfl) ?_)

theorem execFlushExpiry_keeps {P : Dev → Prop} {r : Fin 32} {s : State} (k : Keeps [.regs, .log, .outbox, .ing, .store, .msh, .hst] P) (h : P s.dev) :
    Ends P s (execFlushExpiry r s) := by
  refine State.live_ends (fun e he => ?_) h
  repeat' (first | with_reducible assumption | with_reducible refine Dev.flushExpire_keeps (k.mono rfl) ?_)

theorem execLabelEntry_keeps {P : Dev → Prop} {entry : BitVec 256} {s : State} (k : Keeps [.regs, .log, .outbox, .ing, .store, .stk, .msh, .hst, .fab] P) (h : P s.dev) :
    Ends P s (execLabelEntry entry s) := by
  refine State.live_ends (fun e he => ?_) h
  repeat' (first
    | with_reducible assumption
    | with_reducible refine Dev.labelIn_keeps (k.mono rfl) ?_
    | with_reducible refine Dev.settleDrip_keeps (k.mono rfl) ?_
    | (fail_if_no_progress extract_lets +onlyGivenNames x)
    | split)

theorem execIrqHoldExpiry_keeps {P : Dev → Prop} {r : Fin 32} {s : State} (k : Keeps [.regs, .outbox, .ing, .store, .msh, .hst] P) (h : P s.dev) :
    Ends P s (execIrqHoldExpiry r s) := by
  refine State.live_ends (fun e he => ?_) h
  repeat' (first | with_reducible assumption | with_reducible refine Dev.irqHoldEnd_keeps (k.mono rfl) ?_)

theorem execRecordExpired_keeps {P : Dev → Prop} {rec : ℕ} {tie : Bool} {s : State} (k : Keeps [.regs, .store, .hst] P) (h : P s.dev) :
    Ends P s (execRecordExpired rec tie s) := by
  refine State.live_ends (fun e he => ?_) h
  repeat' (first | with_reducible assumption | with_reducible refine Dev.expireRecord_keeps (k.mono rfl) ?_)

theorem execRecordStoreUe_keeps {P : Dev → Prop} {ch : Fin 8} {rec : ℕ} {line : ℕ} {s : State} (k : Keeps [.regs, .log, .store, .clk] P) (h : P s.dev) :
    Ends P s (execRecordStoreUe ch rec line s) := by
  refine State.live_ends (fun e he => ?_) h
  repeat' (first | with_reducible assumption | with_reducible refine Dev.storeUe_keeps (k.mono rfl) ?_)

theorem execChannelFailed_keeps {P : Dev → Prop} {ch : Fin 8} {s : State} (k : Keeps [.regs, .log, .clk] P) (h : P s.dev) :
    Ends P s (execChannelFailed ch s) := by
  refine State.live_ends (fun e he => ?_) h
  repeat' (first | with_reducible assumption | with_reducible refine Dev.channelFails_keeps (k.mono rfl) ?_)

theorem execChannelTrainingComplete_keeps {P : Dev → Prop} {ch : Fin 8} {r : Sys2Proof.ChannelResult} {s : State} (k : Keeps [.regs] P) (h : P s.dev) :
    Ends P s (execChannelTrainingComplete ch r s) := by
  refine State.live_ends (fun e he => ?_) h
  repeat' (first | with_reducible assumption | with_reducible refine Dev.channelTrained_keeps (k.mono rfl) ?_)

theorem execEthernetLinkChange_keeps {P : Dev → Prop} {up : Bool} {s : State} (k : Keeps [.tms] P) (h : P s.dev) :
    Ends P s (execEthernetLinkChange up s) := by
  refine State.live_ends (fun e he => ?_) h
  repeat' (first | with_reducible assumption | with_reducible refine Dev.ethLink_keeps (k.mono rfl) ?_)

theorem execEngineIssue_keeps {P : Dev → Prop} {c : Sys2Proof.CoreId} {e : Fin 64} {bankWait : ℕ} {rivals : List Sys2Proof.BankUse} {wsCorrected : ℕ} {cmemCorrected : ℕ} {s : State} (k : Keeps [.regs, .log, .freeCtr, .stk, .fab, .num] P) (h : P s.dev) :
    Ends P s (execEngineIssue c e bankWait rivals wsCorrected cmemCorrected s) := by
  refine State.live_ends (fun e he => ?_) h
  repeat' (first | with_reducible assumption | with_reducible refine Dev.issueStep_keeps (k.mono rfl) ?_)

theorem execCountToken_keeps {P : Dev → Prop} {c : Sys2Proof.CoreId} {y1 : Fin 16} {v : Sys2Proof.Word} {degraded : Bool} {s : State} (k : Keeps [.regs, .log, .stk, .fab] P) (h : P s.dev) :
    Ends P s (execCountToken c y1 v degraded s) := by
  refine State.live_ends (fun e he => ?_) h
  repeat' (first
    | with_reducible assumption
    | with_reducible refine Dev.countTok_keeps (k.mono rfl) ?_
    | with_reducible refine Dev.settleDrip_keeps (k.mono rfl) ?_
    | (fail_if_no_progress extract_lets +onlyGivenNames x)
    | split)

theorem execTokenArrival_keeps {P : Dev → Prop} {c : Sys2Proof.CoreId} {e : Fin 64} {q : Fin 2} {tok : Sys2Proof.Token} {s : State} (k : Keeps [.regs, .log, .stk, .fab] P) (h : P s.dev) :
    Ends P s (execTokenArrival c e q tok s) := by
  refine State.live_ends (fun e he => ?_) h
  repeat' (first
    | with_reducible assumption
    | with_reducible refine Dev.iqDeliver_keeps (k.mono rfl) ?_
    | with_reducible refine Dev.settleDrip_keeps (k.mono rfl) ?_)

theorem execWheelCrossing_keeps {P : Dev → Prop} {link : BitVec 32} {s : State} (k : Keeps [.regs, .log, .freeCtr, .scr, .store, .stk, .fab, .num, .pwr] P) (h : P s.dev) :
    Ends P s (execWheelCrossing link s) := by
  refine State.live_ends (fun e he => ?_) h
  repeat' (first | with_reducible assumption | with_reducible refine Dev.crossLink_keeps (k.mono rfl) ?_)

theorem execPaceWindow_keeps {P : Dev → Prop} {cl : Sys2Proof.ClusterId} {count : BitVec 16} {s : State} (k : Keeps [.regs, .fab] P) (h : P s.dev) :
    Ends P s (execPaceWindow cl count s) := by
  refine State.live_ends (fun e he => ?_) h
  repeat' (first | with_reducible assumption | with_reducible refine Dev.pace_keeps (k.mono rfl) ?_)

theorem execStallTick_keeps {P : Dev → Prop} {bankHeld : List (Sys2Proof.CoreId × Fin 64)} {s : State} (k : Keeps [.regs, .fab] P) (h : P s.dev) :
    Ends P s (execStallTick bankHeld s) := by
  refine State.live_ends (fun e he => ?_) h
  repeat' (first | with_reducible assumption | with_reducible refine Dev.stallTick_keeps (k.mono rfl) ?_)

theorem execCoreFence_keeps {P : Dev → Prop} {c : Sys2Proof.CoreId} {cause : Sys2Proof.FenceCause} {s : State} (k : Keeps [.regs, .log, .stk, .fab, .num] P) (h : P s.dev) :
    Ends P s (execCoreFence c cause s) := by
  refine State.live_ends (fun e he => ?_) h
  repeat' (first
    | with_reducible assumption
    | with_reducible refine Dev.fence_keeps (k.mono rfl) ?_
    | with_reducible refine Dev.settleDrip_keeps (k.mono rfl) ?_)

theorem execSelfTestComplete_keeps {P : Dev → Prop} {c : Sys2Proof.CoreId} {r : Sys2Proof.SelfTestResult} {s : State} (k : Keeps [.regs, .fab] P) (h : P s.dev) :
    Ends P s (execSelfTestComplete c r s) := by
  refine State.live_ends (fun e he => ?_) h
  repeat' (first | with_reducible assumption | with_reducible refine Dev.coreTested_keeps (k.mono rfl) ?_)

theorem execCoreLoadComplete_keeps {P : Dev → Prop} {c : Sys2Proof.CoreId} {tie : Option Sys2Proof.FenceCause} {corrected : ℕ} {s : State} (k : Keeps [.regs, .log, .outbox, .ing, .scr, .tms, .store, .stk, .fab, .num, .boot, .pwr] P) (h : P s.dev) :
    Ends P s (execCoreLoadComplete c tie corrected s) := by
  refine State.live_ends (fun e he => ?_) h
  repeat' (first
    | with_reducible assumption
    | with_reducible refine Dev.countN_keeps (k.mono rfl) ?_
    | with_reducible refine Dev.loadErrorRetire_keeps (k.mono rfl) ?_
    | with_reducible refine Dev.coreLoaded_keeps (k.mono rfl) ?_
    | ((fail_if_no_progress extract_lets +onlyGivenNames x); refine cut_keeps (A := P x) ?_ (fun hx => ?_); on_goal 1 => subst x)
    | (fail_if_no_progress extract_lets +onlyGivenNames x)
    | split)

theorem execLoadErrorRetire_keeps {P : Dev → Prop} {c : Sys2Proof.CoreId} {cause : Sys2Proof.FenceCause} {s : State} (k : Keeps [.regs, .log, .outbox, .ing, .scr, .tms, .store, .stk, .fab, .num, .boot, .pwr] P) (h : P s.dev) :
    Ends P s (execLoadErrorRetire c cause s) := by
  refine State.live_ends (fun e he => ?_) h
  repeat' (first | with_reducible assumption | with_reducible refine Dev.loadErrorRetire_keeps (k.mono rfl) ?_)

theorem execDieLinkFlit_keeps {P : Dev → Prop} {n : Sys2Proof.DieId} {y1 : Fin 4} {toX : Bool} {outcome : Sys2Proof.FlitOutcome} {s : State} (k : Keeps [.regs, .log, .freeCtr, .scr, .store, .stk, .fab, .num, .pwr] P) (h : P s.dev) :
    Ends P s (execDieLinkFlit n y1 toX outcome s) := by
  refine State.live_ends (fun e he => ?_) h
  repeat' (first
    | with_reducible assumption
    | with_reducible refine Dev.flit_keeps (k.mono rfl) ?_
    | with_reducible refine Dev.settleDrip_keeps (k.mono rfl) ?_)

theorem execDieLinkLossOfLock_keeps {P : Dev → Prop} {n : Sys2Proof.DieId} {y1 : Fin 4} {s : State} (k : Keeps [.fab] P) (h : P s.dev) :
    Ends P s (execDieLinkLossOfLock n y1 s) := by
  refine State.live_ends (fun e he => ?_) h
  repeat' (first | with_reducible assumption | with_reducible refine Dev.linkLoses_keeps (k.mono rfl) ?_)

theorem execDieLinkRetrain_keeps {P : Dev → Prop} {n : Sys2Proof.DieId} {y1 : Fin 4} {ok : Bool} {s : State} (k : Keeps [.regs, .log, .fab, .clk] P) (h : P s.dev) :
    Ends P s (execDieLinkRetrain n y1 ok s) := by
  refine State.live_ends (fun e he => ?_) h
  repeat' (first | with_reducible assumption | with_reducible refine Dev.linkRetrain_keeps (k.mono rfl) ?_)

theorem execSwitchRequest_keeps {P : Dev → Prop} {g : Fin 64} {ctx : Fin 4} {s : State} (k : Keeps [.regs, .log, .fab] P) (h : P s.dev) :
    Ends P s (execSwitchRequest g ctx s) := by
  refine State.live_ends (fun e he => ?_) h
  repeat' (first | with_reducible assumption | with_reducible refine Dev.switchReq_keeps (k.mono rfl) ?_)

theorem execSwitchAccept_keeps {P : Dev → Prop} {g : Fin 64} {s : State} (k : Keeps [.regs, .log, .stk, .fab, .num] P) (h : P s.dev) :
    Ends P s (execSwitchAccept g s) := by
  refine State.live_ends (fun e he => ?_) h
  repeat' (first
    | with_reducible assumption
    | with_reducible refine Dev.switchAccept_keeps (k.mono rfl) ?_
    | with_reducible refine Dev.settleDrip_keeps (k.mono rfl) ?_)

theorem execMarkerSend_keeps {P : Dev → Prop} {circ : ℕ} {s : State} (k : Keeps [.regs, .log, .stk, .fab] P) (h : P s.dev) :
    Ends P s (execMarkerSend circ s) := by
  refine State.live_ends (fun e he => ?_) h
  repeat' (first
    | with_reducible assumption
    | with_reducible refine Dev.sendMarker_keeps (k.mono rfl) ?_
    | with_reducible refine Dev.settleDrip_keeps (k.mono rfl) ?_)

theorem execReceiveSwitchMarker_keeps {P : Dev → Prop} {c : Sys2Proof.CoreId} {e : Fin 64} {tie : Option Sys2Proof.FenceCause} {s : State} (k : Keeps [.regs, .log, .stk, .fab, .num] P) (h : P s.dev) :
    Ends P s (execReceiveSwitchMarker c e tie s) := by
  refine State.live_ends (fun e he => ?_) h
  repeat' (first
    | with_reducible assumption
    | with_reducible refine Dev.fenceOr_keeps (k.mono rfl) (fun e he => ?_) ?_
    | with_reducible refine Dev.receiveMarker_keeps (k.mono rfl) ?_
    | with_reducible refine Dev.settleDrip_keeps (k.mono rfl) ?_)

theorem execCounterUnitSwitch_keeps {P : Dev → Prop} {c : Sys2Proof.CoreId} {tie : Option Sys2Proof.FenceCause} {s : State} (k : Keeps [.regs, .log, .stk, .fab, .num] P) (h : P s.dev) :
    Ends P s (execCounterUnitSwitch c tie s) := by
  refine State.live_ends (fun e he => ?_) h
  repeat' (first
    | with_reducible assumption
    | with_reducible refine Dev.fenceOr_keeps (k.mono rfl) (fun e he => ?_) ?_
    | with_reducible refine Dev.counterSwitch_keeps (k.mono rfl) ?_
    | with_reducible refine Dev.settleDrip_keeps (k.mono rfl) ?_)

theorem execSectionLoad_keeps {P : Dev → Prop} {g : Fin 64} {bad : Option ℕ} {corrected : ℕ} {s : State} (k : Keeps [.regs, .log, .stk, .fab, .num, .clk] P) (h : P s.dev) :
    Ends P s (execSectionLoad g bad corrected s) := by
  refine State.live_ends (fun e he => ?_) h
  repeat' (first
    | with_reducible assumption
    | with_reducible refine Dev.sectionLoad_keeps (k.mono rfl) ?_
    | with_reducible refine Dev.settleDrip_keeps (k.mono rfl) ?_
    | with_reducible refine Dev.useGrant_keeps (k.mono rfl) ?_
    | (fail_if_no_progress extract_lets +onlyGivenNames x)
    | split)

theorem execDripTimerExpiry_keeps {P : Dev → Prop} {cl : Sys2Proof.ClusterId} {set : Fin 32} {tie : Bool} {s : State} (k : Keeps [.regs, .fab] P) (h : P s.dev) :
    Ends P s (execDripTimerExpiry cl set tie s) := by
  refine State.live_ends (fun e he => ?_) h
  repeat' (first | with_reducible assumption | with_reducible refine Dev.dripExpire_keeps (k.mono rfl) ?_)

theorem execDripSpillComplete_keeps {P : Dev → Prop} {cl : Sys2Proof.ClusterId} {set : Fin 32} {s : State} (k : Keeps [.regs, .log, .stk, .fab] P) (h : P s.dev) :
    Ends P s (execDripSpillComplete cl set s) := by
  refine State.live_ends (fun e he => ?_) h
  repeat' (first
    | with_reducible assumption
    | with_reducible refine Dev.dripUse_keeps (k.mono rfl) (fun e he => ?_) ?_
    | with_reducible refine Dev.dripSpilled_keeps (k.mono rfl) ?_)

theorem execDripRefill_keeps {P : Dev → Prop} {cl : Sys2Proof.ClusterId} {set : Fin 32} {corrected : ℕ} {s : State} (k : Keeps [.regs, .log, .stk, .fab, .clk] P) (h : P s.dev) :
    Ends P s (execDripRefill cl set corrected s) := by
  refine State.live_ends (fun e he => ?_) h
  repeat' (first
    | with_reducible assumption
    | with_reducible refine Dev.dripUse_keeps (k.mono rfl) (fun e he => ?_) ?_
    | with_reducible refine Dev.dripRefills_keeps (k.mono rfl) ?_)

theorem execDrpFail_keeps {P : Dev → Prop} {cl : Sys2Proof.ClusterId} {segment : Fin 4} {s : State} (k : Keeps [.regs, .log, .stk, .fab, .clk] P) (h : P s.dev) :
    Ends P s (execDrpFail cl segment s) := by
  refine State.live_ends (fun e he => ?_) h
  repeat' (first
    | with_reducible assumption
    | with_reducible refine Dev.dripFail_keeps (k.mono rfl) ?_
    | with_reducible refine Dev.settleDrip_keeps (k.mono rfl) ?_)

theorem execCreditToken_keeps {P : Dev → Prop} {cl : Sys2Proof.ClusterId} {y1 : Fin 64} {n : BitVec 7} {s : State} (k : Keeps [.regs] P) (h : P s.dev) :
    Ends P s (execCreditToken cl y1 n s) := by
  refine State.live_ends (fun e he => ?_) h
  repeat' (first | with_reducible assumption | with_reducible refine Dev.addCredits_keeps (k.mono rfl) ?_)

theorem execBlockReceived_keeps {P : Dev → Prop} {l : Sys2Proof.LaneId} {hdr : BitVec 2} {line : BitVec 128} {tie : Bool} {s : State} (k : Keeps [.regs, .ing] P) (h : P s.dev) :
    Ends P s (execBlockReceived l hdr line tie s) := by
  refine State.onLane_ends (k.mono rfl) (fun e he => ?_) h
  repeat' (first | with_reducible assumption | with_reducible refine Dev.takeIn_keeps (k.mono rfl) ?_)

theorem execCodewordDecoded_keeps {P : Dev → Prop} {l : Sys2Proof.LaneId} {levels : List (Fin 4)} {s : State} (k : Keeps [.regs, .ing] P) (h : P s.dev) :
    Ends P s (execCodewordDecoded l levels s) := by
  refine State.onLane_ends (k.mono rfl) (fun e he => ?_) h
  repeat' (first | with_reducible assumption | with_reducible refine Dev.codeword_keeps (k.mono rfl) ?_)

theorem execDataBlock_keeps {P : Dev → Prop} {n : Fin 64} {s : State} (k : Keeps [.regs, .ing] P) (h : P s.dev) :
    Ends P s (execDataBlock n s) := by
  refine State.live_ends (fun e he => ?_) h
  repeat' (first
    | with_reducible assumption
    | with_reducible refine Dev.takeBlock_keeps (k.mono rfl) (fun e b he => ?_) ?_
    | with_reducible refine Dev.dataBlock_keeps (k.mono rfl) ?_)

theorem execTagBlock_keeps {P : Dev → Prop} {n : Fin 64} {s : State} (k : Keeps [.regs, .ing] P) (h : P s.dev) :
    Ends P s (execTagBlock n s) := by
  refine State.live_ends (fun e he => ?_) h
  repeat' (first
    | with_reducible assumption
    | with_reducible refine Dev.takeBlock_keeps (k.mono rfl) (fun e b he => ?_) ?_
    | with_reducible refine Dev.openBurst_keeps (k.mono rfl) ?_)

theorem execLinkBlockRx_keeps {P : Dev → Prop} {l : Sys2Proof.LaneId} {s : State} (k : Keeps [.regs, .ing] P) (h : P s.dev) :
    Ends P s (execLinkBlockRx l s) := by
  refine State.live_ends (fun e he => ?_) h
  repeat' (first
    | with_reducible assumption
    | with_reducible refine Dev.takeBlock_keeps (k.mono rfl) (fun e b he => ?_) ?_
    | with_reducible refine Dev.linkRx_keeps (k.mono rfl) ?_)

theorem execLinkBlockTx_keeps {P : Dev → Prop} {l : Sys2Proof.LaneId} {s : State} (k : Keeps [.outbox, .ing] P) (h : P s.dev) :
    Ends P s (execLinkBlockTx l s) := by
  refine State.live_ends (fun e he => ?_) h
  repeat' (first | with_reducible assumption | with_reducible refine Dev.sendBlock_keeps (k.mono rfl) ?_)

theorem execFillerInsert_keeps {P : Dev → Prop} {l : Sys2Proof.LaneId} {s : State} (k : Keeps [.outbox, .ing] P) (h : P s.dev) :
    Ends P s (execFillerInsert l s) := by
  refine State.live_ends (fun e he => ?_) h
  repeat' (first | with_reducible assumption | with_reducible refine Dev.sendFiller_keeps (k.mono rfl) ?_)

theorem execLossOfSignal_keeps {P : Dev → Prop} {l : Sys2Proof.LaneId} {tie : Bool} {s : State} (k : Keeps [.regs, .ing] P) (h : P s.dev) :
    Ends P s (execLossOfSignal l tie s) := by
  refine State.onLane_ends (k.mono rfl) (fun e he => ?_) h
  repeat' (first | with_reducible assumption | with_reducible refine Dev.loseSignal_keeps (k.mono rfl) ?_)

theorem execSignalDetected_keeps {P : Dev → Prop} {l : Sys2Proof.LaneId} {tie : Bool} {s : State} (k : Keeps [.regs, .ing] P) (h : P s.dev) :
    Ends P s (execSignalDetected l tie s) := by
  refine State.onLane_ends (k.mono rfl) (fun e he => ?_) h
  repeat' (first | with_reducible assumption | with_reducible refine Dev.seeSignal_keeps (k.mono rfl) ?_)

theorem execHuntWindowEnd_keeps {P : Dev → Prop} {l : Sys2Proof.LaneId} {idle : ℕ} {tie : Bool} {s : State} (k : Keeps [.regs, .log, .ing] P) (h : P s.dev) :
    Ends P s (execHuntWindowEnd l idle tie s) := by
  refine State.onLane_ends (k.mono rfl) (fun e he => ?_) h
  repeat' (first | with_reducible assumption | with_reducible refine Dev.huntEnds_keeps (k.mono rfl) ?_)

theorem execEyeMeasurement_keeps {P : Dev → Prop} {l : Sys2Proof.LaneId} {v : List ℚ} {y2 : ℚ} {tie : Bool} {s : State} (k : Keeps [.regs, .ing] P) (h : P s.dev) :
    Ends P s (execEyeMeasurement l v y2 tie s) := by
  refine State.onLane_ends (k.mono rfl) (fun e he => ?_) h
  repeat' (first
    | with_reducible assumption
    | with_reducible refine Dev.eyeMeasured_keeps (k.mono rfl) ?_)

theorem execTrainingWindowEnd_keeps {P : Dev → Prop} {l : Sys2Proof.LaneId} {tie : Bool} {s : State} (k : Keeps [.regs, .log, .ing] P) (h : P s.dev) :
    Ends P s (execTrainingWindowEnd l tie s) := by
  refine State.onLane_ends (k.mono rfl) (fun e he => ?_) h
  repeat' (first | with_reducible assumption | with_reducible refine Dev.trainingEnds_keeps (k.mono rfl) ?_)

theorem execBackoffEnd_keeps {P : Dev → Prop} {l : Sys2Proof.LaneId} {tie : Bool} {s : State} (k : Keeps [.regs, .ing] P) (h : P s.dev) :
    Ends P s (execBackoffEnd l tie s) := by
  refine State.onLane_ends (k.mono rfl) (fun e he => ?_) h
  repeat' (first | with_reducible assumption | with_reducible refine Dev.backoffEnds_keeps (k.mono rfl) ?_)

theorem execEventWindowOpen_keeps {P : Dev → Prop} {n : ℕ} {s : State} (k : Keeps [.regs, .log, .freeCtr, .outbox, .ing, .prm, .scr, .acq, .store, .stk, .msh, .hst, .fab, .num, .pwr] P) (h : P s.dev) :
    Ends P s (execEventWindowOpen n s) := by
  refine State.live_ends (fun e he => ?_) h
  repeat' (first | with_reducible assumption | with_reducible refine Dev.windowOpen_keeps (k.mono rfl) ?_)

theorem execAdmission_keeps {P : Dev → Prop} {n : ℕ} {tie : Bool} {s : State} (k : Keeps [.regs, .log, .freeCtr, .prm, .scr, .acq, .store, .stk, .fab, .num, .pwr] P) (h : P s.dev) :
    Ends P s (execAdmission n tie s) := by
  refine State.live_ends (fun e he => ?_) h
  repeat' (first
    | with_reducible assumption
    | with_reducible refine Dev.admission_keeps (k.mono rfl) ?_
    | with_reducible refine Dev.settleDrip_keeps (k.mono rfl) ?_)

theorem execRelease_keeps {P : Dev → Prop} {n : ℕ} {tie : Bool} {corrected : ℕ} {s : State} (k : Keeps [.regs, .log, .freeCtr, .outbox, .ing, .prm, .scr, .acq, .store, .msh, .hst] P) (h : P s.dev) :
    Ends P s (execRelease n tie corrected s) := by
  refine State.live_ends (fun e he => ?_) h
  repeat' (first
    | with_reducible assumption
    | with_reducible refine Dev.countN_keeps (k.mono rfl) ?_
    | with_reducible refine Dev.release_keeps (k.mono rfl) ?_)

theorem execDecWidthExpiry_keeps {P : Dev → Prop} {y0 : Fin 32} {tie : Bool} {s : State} (k : Keeps [.outbox, .scr] P) (h : P s.dev) :
    Ends P s (execDecWidthExpiry y0 tie s) := by
  refine State.live_ends (fun e he => ?_) h
  repeat' (first | with_reducible assumption | with_reducible refine Dev.decIdle_keeps (k.mono rfl) ?_)

theorem execScreedArm_keeps {P : Dev → Prop} {s : State} (k : Keeps [.regs, .scr, .acq] P) (h : P s.dev) :
    Ends P s (execScreedArm s) := by
  refine State.live_ends (fun e he => ?_) h
  repeat' (first | with_reducible assumption | with_reducible refine Dev.armLocked_keeps (k.mono rfl) ?_)

theorem execArmWaitExpiry_keeps {P : Dev → Prop} {s : State} (k : Keeps [.regs, .scr, .acq] P) (h : P s.dev) :
    Ends P s (execArmWaitExpiry s) := by
  refine State.live_ends (fun e he => ?_) h
  repeat' (first | with_reducible assumption | with_reducible refine Dev.armWaited_keeps (k.mono rfl) ?_)

theorem execNetworkInput_keeps {P : Dev → Prop} {i : Fin 4096} {slot : Sys2Proof.Byte} {v : Sys2Proof.Word} {degraded : Bool} {s : State} (k : Keeps [.regs, .scr, .store, .pwr] P) (h : P s.dev) :
    Ends P s (execNetworkInput i slot v degraded s) := by
  refine State.live_ends (fun e he => ?_) h
  repeat' (first | with_reducible assumption | with_reducible refine Dev.netInput_keeps (k.mono rfl) ?_)

theorem execNotice_keeps {P : Dev → Prop} {kind : Sys2Proof.NoticeKind} {slot : Sys2Proof.Byte} {core : Fin 1024} {s : State} (k : Keeps [.regs, .scr, .fab] P) (h : P s.dev) :
    Ends P s (execNotice kind slot core s) := by
  refine State.live_ends (fun e he => ?_) h
  repeat' (first
    | with_reducible assumption
    | with_reducible refine Dev.takeNotice_keeps (k.mono rfl) ?_
    | with_reducible refine Dev.noticeArrives_keeps (k.mono rfl) ?_)

theorem execSkewNotice_keeps {P : Dev → Prop} {slot : Sys2Proof.Byte} {core : Fin 1024} {s : State} (k : Keeps [.regs, .scr, .store, .fab] P) (h : P s.dev) :
    Ends P s (execSkewNotice slot core s) := by
  refine State.live_ends (fun e he => ?_) h
  repeat' (first
    | with_reducible assumption
    | with_reducible refine Dev.takeNotice_keeps (k.mono rfl) ?_
    | with_reducible refine Dev.skewArrives_keeps (k.mono rfl) ?_)

theorem execLocalDeadline_keeps {P : Dev → Prop} {n : ℕ} {tie : Bool} {s : State} (k : Keeps [.regs, .outbox, .ing, .scr] P) (h : P s.dev) :
    Ends P s (execLocalDeadline n tie s) := by
  refine State.live_ends (fun e he => ?_) h
  repeat' (first | with_reducible assumption | with_reducible refine Dev.localDeadline_keeps (k.mono rfl) ?_)

theorem execCollectionClose_keeps {P : Dev → Prop} {n : ℕ} {tie : Bool} {s : State} (k : Keeps [.scr] P) (h : P s.dev) :
    Ends P s (execCollectionClose n tie s) := by
  refine State.live_ends (fun e he => ?_) h
  repeat' (first | with_reducible assumption | with_reducible refine Dev.collectionClose_keeps (k.mono rfl) ?_)

theorem execGroupResult_keeps {P : Dev → Prop} {n : ℕ} {s : State} (k : Keeps [.scr] P) (h : P s.dev) :
    Ends P s (execGroupResult n s) := by
  refine State.live_ends (fun e he => ?_) h
  repeat' (first | with_reducible assumption | with_reducible refine Dev.groupResult_keeps (k.mono rfl) ?_)

theorem execHeadroomWindow_keeps {P : Dev → Prop} {s : State} (k : Keeps [.regs, .scr, .pwr] P) (h : P s.dev) :
    Ends P s (execHeadroomWindow s) := by
  refine State.live_ends (fun e he => ?_) h
  repeat' (first | with_reducible assumption | with_reducible refine Dev.headroomWindow_keeps (k.mono rfl) ?_)

theorem execSetpointRaise_keeps {P : Dev → Prop} {n : ℕ} {s : State} (k : Keeps [.regs, .pwr] P) (h : P s.dev) :
    Ends P s (execSetpointRaise n s) := by
  refine State.live_ends (fun e he => ?_) h
  repeat' (first | with_reducible assumption | with_reducible refine Dev.setpointRaise_keeps (k.mono rfl) ?_)

theorem execSetpointSettled_keeps {P : Dev → Prop} {s : State} (k : Keeps [.regs, .pwr] P) (h : P s.dev) :
    Ends P s (execSetpointSettled s) := by
  refine State.live_ends (fun e he => ?_) h
  repeat' (first | with_reducible assumption | with_reducible refine Dev.setpointSettled_keeps (k.mono rfl) ?_)

theorem execRateFrame_keeps {P : Dev → Prop} {m : ℕ} {s : State} (k : Keeps [.regs, .outbox, .scr] P) (h : P s.dev) :
    Ends P s (execRateFrame m s) := by
  refine State.live_ends (fun e he => ?_) h
  repeat' (first | with_reducible assumption | with_reducible refine Dev.rateFrame_keeps (k.mono rfl) ?_)

theorem execSafeEntry_keeps {P : Dev → Prop} {y0 : Sys2Proof.XdieMemory} {rows : List ℕ} {s : State} (k : Keeps [.regs, .log, .scr] P) (h : P s.dev) :
    Ends P s (execSafeEntry y0 rows s) := by
  refine State.live_ends (fun e he => ?_) h
  repeat' (first | with_reducible assumption | with_reducible refine Dev.safeEntry_keeps (k.mono rfl) ?_)

theorem execRegisterWrite_keeps {P : Dev → Prop} {o : Sys2Proof.Origin} {a : BitVec 24} {v : Sys2Proof.Word} {s : State} (k : Keeps [.regs, .log, .freeCtr, .outbox, .ing, .prm, .tms, .acq, .store, .msh, .hst, .fab, .num, .boot, .clk, .pwr] P) (h : P s.dev) :
    Ends P s (execRegisterWrite o a v s) := by
  refine State.up_ends (fun e he => ?_) h
  repeat' (first | with_reducible assumption | with_reducible refine Dev.put_keeps (k.mono rfl) ?_)

theorem execMultiRegisterRead_keeps {P : Dev → Prop} {o : Sys2Proof.Origin} {a : BitVec 24} {s : State} (k : Keeps [.caps, .outbox] P) (h : P s.dev) :
    Ends P s (execMultiRegisterRead o a s) := by
  refine State.up_ends (fun e he => ?_) h
  repeat' (first
    | with_reducible assumption
    | with_reducible refine Dev.busRead_keeps (k.mono rfl) ?_
    | with_reducible refine Dev.emit_keeps (k.mono rfl) ?_)

theorem execClkLossClear_keeps {P : Dev → Prop} {y0 : Sys2Proof.Origin} {v : Sys2Proof.Word} {hw : BitVec 18} {s : State} (k : Keeps [.regs] P) (h : P s.dev) :
    Ends P s (execClkLossClear y0 v hw s) := by
  refine State.up_ends (fun e he => ?_) h
  repeat' (first | with_reducible assumption | with_reducible refine Dev.clearLoss_keeps (k.mono rfl) ?_)

theorem execLogFwdWrite_keeps {P : Dev → Prop} {anchorWreq : Bool} {o : Sys2Proof.Origin} {v : Sys2Proof.Word} {s : State} (k : Keeps [.regs, .log] P) (h : P s.dev) :
    Ends P s (execLogFwdWrite anchorWreq o v s) := by
  refine State.up_ends (fun e he => ?_) h
  repeat' (first | with_reducible assumption | with_reducible refine Dev.fwdWrite_keeps (k.mono rfl) ?_)

theorem execAdminOffSet_keeps {P : Dev → Prop} {o : Sys2Proof.Origin} {l : Sys2Proof.LaneId} {s : State} (k : Keeps [.regs, .log, .freeCtr, .outbox, .ing, .prm, .tms, .acq, .store, .msh, .hst, .fab, .num, .boot, .clk, .pwr] P) (h : P s.dev) :
    Ends P s (execAdminOffSet o l s) := by
  refine State.up_ends (fun e he => ?_) h
  repeat' (first | with_reducible assumption | with_reducible refine Dev.put_keeps (k.mono rfl) ?_)

theorem execAdminOffClear_keeps {P : Dev → Prop} {o : Sys2Proof.Origin} {l : Sys2Proof.LaneId} {s : State} (k : Keeps [.regs, .log, .freeCtr, .outbox, .ing, .prm, .tms, .acq, .store, .msh, .hst, .fab, .num, .boot, .clk, .pwr] P) (h : P s.dev) :
    Ends P s (execAdminOffClear o l s) := by
  refine State.up_ends (fun e he => ?_) h
  repeat' (first | with_reducible assumption | with_reducible refine Dev.put_keeps (k.mono rfl) ?_)

theorem execProfileWrite_keeps {P : Dev → Prop} {o : Sys2Proof.Origin} {t : Sys2Proof.ProfileTarget} {v : Sys2Proof.Word} {s : State} (k : Keeps [.regs, .log, .freeCtr, .outbox, .ing, .prm, .tms, .acq, .store, .msh, .hst, .fab, .num, .boot, .clk, .pwr] P) (h : P s.dev) :
    Ends P s (execProfileWrite o t v s) := by
  refine State.up_ends (fun e he => ?_) h
  repeat' (first | with_reducible assumption | with_reducible refine Dev.put_keeps (k.mono rfl) ?_)

theorem execHawkPreWrite_keeps {P : Dev → Prop} {o : Sys2Proof.Origin} {r : Fin 64} {v : Sys2Proof.Word} {s : State} (k : Keeps [.regs, .log, .freeCtr, .outbox, .ing, .prm, .tms, .acq, .store, .msh, .hst, .fab, .num, .boot, .clk, .pwr] P) (h : P s.dev) :
    Ends P s (execHawkPreWrite o r v s) := by
  refine State.up_ends (fun e he => ?_) h
  repeat' (first | with_reducible assumption | with_reducible refine Dev.put_keeps (k.mono rfl) ?_)

theorem execHawkPostWrite_keeps {P : Dev → Prop} {o : Sys2Proof.Origin} {r : Fin 64} {v : Sys2Proof.Word} {s : State} (k : Keeps [.regs, .log, .freeCtr, .outbox, .ing, .prm, .tms, .acq, .store, .msh, .hst, .fab, .num, .boot, .clk, .pwr] P) (h : P s.dev) :
    Ends P s (execHawkPostWrite o r v s) := by
  refine State.up_ends (fun e he => ?_) h
  repeat' (first | with_reducible assumption | with_reducible refine Dev.put_keeps (k.mono rfl) ?_)

theorem execCaptureSettingWrite_keeps {P : Dev → Prop} {o : Sys2Proof.Origin} {t : Sys2Proof.CaptureSetting} {v : Sys2Proof.Word} {s : State} (k : Keeps [.regs, .log, .freeCtr, .outbox, .ing, .prm, .tms, .acq, .store, .msh, .hst, .fab, .num, .boot, .clk, .pwr] P) (h : P s.dev) :
    Ends P s (execCaptureSettingWrite o t v s) := by
  refine State.up_ends (fun e he => ?_) h
  repeat' (first | with_reducible assumption | with_reducible refine Dev.put_keeps (k.mono rfl) ?_)

theorem execCtxselWrite_keeps {P : Dev → Prop} {o : Sys2Proof.Origin} {g : Fin 64} {v : Sys2Proof.Word} {s : State} (k : Keeps [.regs, .log, .freeCtr, .outbox, .ing, .prm, .tms, .acq, .store, .msh, .hst, .fab, .num, .boot, .clk, .pwr] P) (h : P s.dev) :
    Ends P s (execCtxselWrite o g v s) := by
  refine State.up_ends (fun e he => ?_) h
  repeat' (first | with_reducible assumption | with_reducible refine Dev.put_keeps (k.mono rfl) ?_)

theorem execScaleLimitsWrite_keeps {P : Dev → Prop} {o : Sys2Proof.Origin} {cl : Sys2Proof.ClusterId} {y2 : Fin 16} {v : Sys2Proof.Word} {s : State} (k : Keeps [.regs, .log, .freeCtr, .outbox, .ing, .prm, .tms, .acq, .store, .msh, .hst, .fab, .num, .boot, .clk, .pwr] P) (h : P s.dev) :
    Ends P s (execScaleLimitsWrite o cl y2 v s) := by
  refine State.up_ends (fun e he => ?_) h
  repeat' (first | with_reducible assumption | with_reducible refine Dev.put_keeps (k.mono rfl) ?_)

theorem execScaleHoldWrite_keeps {P : Dev → Prop} {o : Sys2Proof.Origin} {v : Sys2Proof.Word} {s : State} (k : Keeps [.regs, .log, .freeCtr, .outbox, .ing, .prm, .tms, .acq, .store, .msh, .hst, .fab, .num, .boot, .clk, .pwr] P) (h : P s.dev) :
    Ends P s (execScaleHoldWrite o v s) := by
  refine State.up_ends (fun e he => ?_) h
  repeat' (first | with_reducible assumption | with_reducible refine Dev.put_keeps (k.mono rfl) ?_)

theorem execAdaptEnWrite_keeps {P : Dev → Prop} {o : Sys2Proof.Origin} {v : Sys2Proof.Word} {s : State} (k : Keeps [.regs, .log, .freeCtr, .outbox, .ing, .prm, .tms, .acq, .store, .msh, .hst, .fab, .num, .boot, .clk, .pwr] P) (h : P s.dev) :
    Ends P s (execAdaptEnWrite o v s) := by
  refine State.up_ends (fun e he => ?_) h
  repeat' (first | with_reducible assumption | with_reducible refine Dev.put_keeps (k.mono rfl) ?_)

theorem execMnCtlWrite_keeps {P : Dev → Prop} {o : Sys2Proof.Origin} {y1 : Fin 16384} {v : Sys2Proof.Word} {s : State} (k : Keeps [.regs, .log, .freeCtr, .outbox, .ing, .prm, .tms, .acq, .store, .msh, .hst, .fab, .num, .boot, .clk, .pwr] P) (h : P s.dev) :
    Ends P s (execMnCtlWrite o y1 v s) := by
  refine State.up_ends (fun e he => ?_) h
  repeat' (first | with_reducible assumption | with_reducible refine Dev.put_keeps (k.mono rfl) ?_)

theorem execMnThrWrite_keeps {P : Dev → Prop} {o : Sys2Proof.Origin} {y1 : Fin 16384} {j : Fin 4} {v : Sys2Proof.Word} {s : State} (k : Keeps [.regs, .log, .freeCtr, .outbox, .ing, .prm, .tms, .acq, .store, .msh, .hst, .fab, .num, .boot, .clk, .pwr] P) (h : P s.dev) :
    Ends P s (execMnThrWrite o y1 j v s) := by
  refine State.up_ends (fun e he => ?_) h
  repeat' (first | with_reducible assumption | with_reducible refine Dev.put_keeps (k.mono rfl) ?_)

theorem execMnPrescaleWrite_keeps {P : Dev → Prop} {o : Sys2Proof.Origin} {y1 : Fin 16384} {v : Sys2Proof.Word} {s : State} (k : Keeps [.regs, .log, .freeCtr, .outbox, .ing, .prm, .tms, .acq, .store, .msh, .hst, .fab, .num, .boot, .clk, .pwr] P) (h : P s.dev) :
    Ends P s (execMnPrescaleWrite o y1 v s) := by
  refine State.up_ends (fun e he => ?_) h
  repeat' (first | with_reducible assumption | with_reducible refine Dev.put_keeps (k.mono rfl) ?_)

theorem execMnHoldnsWrite_keeps {P : Dev → Prop} {o : Sys2Proof.Origin} {y1 : Fin 16384} {v : Sys2Proof.Word} {s : State} (k : Keeps [.regs, .log, .freeCtr, .outbox, .ing, .prm, .tms, .acq, .store, .msh, .hst, .fab, .num, .boot, .clk, .pwr] P) (h : P s.dev) :
    Ends P s (execMnHoldnsWrite o y1 v s) := by
  refine State.up_ends (fun e he => ?_) h
  repeat' (first | with_reducible assumption | with_reducible refine Dev.put_keeps (k.mono rfl) ?_)

theorem execGrpAbsentWrite_keeps {P : Dev → Prop} {o : Sys2Proof.Origin} {v : Sys2Proof.Word} {s : State} (k : Keeps [.regs, .log, .freeCtr, .outbox, .ing, .prm, .tms, .acq, .store, .msh, .hst, .fab, .num, .boot, .clk, .pwr] P) (h : P s.dev) :
    Ends P s (execGrpAbsentWrite o v s) := by
  refine State.up_ends (fun e he => ?_) h
  repeat' (first | with_reducible assumption | with_reducible refine Dev.put_keeps (k.mono rfl) ?_)

theorem execJumpAccept_keeps {P : Dev → Prop} {o : Sys2Proof.Origin} {v : Sys2Proof.Word} {s : State} (k : Keeps [.regs, .log, .freeCtr, .outbox, .ing, .prm, .tms, .acq, .store, .msh, .hst, .fab, .num, .boot, .clk, .pwr] P) (h : P s.dev) :
    Ends P s (execJumpAccept o v s) := by
  refine State.up_ends (fun e he => ?_) h
  repeat' (first | with_reducible assumption | with_reducible refine Dev.put_keeps (k.mono rfl) ?_)

theorem execPtAsymWrite_keeps {P : Dev → Prop} {o : Sys2Proof.Origin} {p : Fin 72} {v : Sys2Proof.Word} {s : State} (k : Keeps [.regs, .log, .freeCtr, .outbox, .ing, .prm, .tms, .acq, .store, .msh, .hst, .fab, .num, .boot, .clk, .pwr] P) (h : P s.dev) :
    Ends P s (execPtAsymWrite o p v s) := by
  refine State.up_ends (fun e he => ?_) h
  repeat' (first | with_reducible assumption | with_reducible refine Dev.put_keeps (k.mono rfl) ?_)

theorem execJumpMaxWrite_keeps {P : Dev → Prop} {o : Sys2Proof.Origin} {v : Sys2Proof.Word} {s : State} (k : Keeps [.regs, .log, .freeCtr, .outbox, .ing, .prm, .tms, .acq, .store, .msh, .hst, .fab, .num, .boot, .clk, .pwr] P) (h : P s.dev) :
    Ends P s (execJumpMaxWrite o v s) := by
  refine State.up_ends (fun e he => ?_) h
  repeat' (first | with_reducible assumption | with_reducible refine Dev.put_keeps (k.mono rfl) ?_)

theorem execMkModeArm_keeps {P : Dev → Prop} {o : Sys2Proof.Origin} {g : Fin 16} {v : Sys2Proof.Word} {s : State} (k : Keeps [.regs, .log, .freeCtr, .outbox, .ing, .prm, .tms, .acq, .store, .msh, .hst, .fab, .num, .boot, .clk, .pwr] P) (h : P s.dev) :
    Ends P s (execMkModeArm o g v s) := by
  refine State.up_ends (fun e he => ?_) h
  repeat' (first | with_reducible assumption | with_reducible refine Dev.put_keeps (k.mono rfl) ?_)

theorem execMkModeOff_keeps {P : Dev → Prop} {o : Sys2Proof.Origin} {g : Fin 16} {v : Sys2Proof.Word} {s : State} (k : Keeps [.regs, .log, .freeCtr, .outbox, .ing, .prm, .tms, .acq, .store, .msh, .hst, .fab, .num, .boot, .clk, .pwr] P) (h : P s.dev) :
    Ends P s (execMkModeOff o g v s) := by
  refine State.up_ends (fun e he => ?_) h
  repeat' (first | with_reducible assumption | with_reducible refine Dev.put_keeps (k.mono rfl) ?_)

theorem execMkParamWrite_keeps {P : Dev → Prop} {o : Sys2Proof.Origin} {g : Fin 16} {r : Sys2Proof.MarkParam} {v : Sys2Proof.Word} {s : State} (k : Keeps [.regs, .log, .freeCtr, .outbox, .ing, .prm, .tms, .acq, .store, .msh, .hst, .fab, .num, .boot, .clk, .pwr] P) (h : P s.dev) :
    Ends P s (execMkParamWrite o g r v s) := by
  refine State.up_ends (fun e he => ?_) h
  repeat' (first | with_reducible assumption | with_reducible refine Dev.put_keeps (k.mono rfl) ?_)

theorem execHrEnableWrite_keeps {P : Dev → Prop} {o : Sys2Proof.Origin} {r : Fin 32} {v : Sys2Proof.Word} {s : State} (k : Keeps [.regs, .log, .freeCtr, .outbox, .ing, .prm, .tms, .acq, .store, .msh, .hst, .fab, .num, .boot, .clk, .pwr] P) (h : P s.dev) :
    Ends P s (execHrEnableWrite o r v s) := by
  refine State.up_ends (fun e he => ?_) h
  repeat' (first | with_reducible assumption | with_reducible refine Dev.put_keeps (k.mono rfl) ?_)

theorem execAttestationRequest_keeps {P : Dev → Prop} {o : Sys2Proof.Origin} {s : State} (k : Keeps [.regs, .log, .freeCtr, .outbox, .ing, .prm, .tms, .acq, .store, .msh, .hst, .fab, .num, .boot, .clk, .pwr] P) (h : P s.dev) :
    Ends P s (execAttestationRequest o s) := by
  refine State.up_ends (fun e he => ?_) h
  repeat' (first | with_reducible assumption | with_reducible refine Dev.put_keeps (k.mono rfl) ?_)

theorem execClkGateWrite_keeps {P : Dev → Prop} {o : Sys2Proof.Origin} {v : Sys2Proof.Word} {s : State} (k : Keeps [.regs, .log, .freeCtr, .outbox, .ing, .prm, .tms, .acq, .store, .msh, .hst, .fab, .num, .boot, .clk, .pwr] P) (h : P s.dev) :
    Ends P s (execClkGateWrite o v s) := by
  refine State.up_ends (fun e he => ?_) h
  repeat' (first | with_reducible assumption | with_reducible refine Dev.put_keeps (k.mono rfl) ?_)

theorem execAuxCtlWrite_keeps {P : Dev → Prop} {o : Sys2Proof.Origin} {n : Fin 2} {v : Sys2Proof.Word} {s : State} (k : Keeps [.regs, .log, .freeCtr, .outbox, .ing, .prm, .tms, .acq, .store, .msh, .hst, .fab, .num, .boot, .clk, .pwr] P) (h : P s.dev) :
    Ends P s (execAuxCtlWrite o n v s) := by
  refine State.up_ends (fun e he => ?_) h
  repeat' (first | with_reducible assumption | with_reducible refine Dev.put_keeps (k.mono rfl) ?_)

theorem execPinWrite_keeps {P : Dev → Prop} {o : Sys2Proof.Origin} {v : Sys2Proof.Word} {s : State} (k : Keeps [.regs, .log, .freeCtr, .outbox, .ing, .prm, .tms, .acq, .store, .msh, .hst, .fab, .num, .boot, .clk, .pwr] P) (h : P s.dev) :
    Ends P s (execPinWrite o v s) := by
  refine State.up_ends (fun e he => ?_) h
  repeat' (first | with_reducible assumption | with_reducible refine Dev.put_keeps (k.mono rfl) ?_)

theorem execFlashRead_keeps {P : Dev → Prop} {o : Sys2Proof.Origin} {len : Sys2Proof.Byte} {s : State} (k : Keeps [.regs, .log, .freeCtr, .outbox, .ing, .prm, .tms, .acq, .store, .msh, .hst, .fab, .num, .boot, .clk, .pwr] P) (h : P s.dev) :
    Ends P s (execFlashRead o len s) := by
  refine State.up_ends (fun e he => ?_) h
  repeat' (first | with_reducible assumption | with_reducible refine Dev.put_keeps (k.mono rfl) ?_)

theorem execFlashProgram_keeps {P : Dev → Prop} {o : Sys2Proof.Origin} {len : Sys2Proof.Byte} {s : State} (k : Keeps [.regs, .log, .freeCtr, .outbox, .ing, .prm, .tms, .acq, .store, .msh, .hst, .fab, .num, .boot, .clk, .pwr] P) (h : P s.dev) :
    Ends P s (execFlashProgram o len s) := by
  refine State.up_ends (fun e he => ?_) h
  repeat' (first | with_reducible assumption | with_reducible refine Dev.put_keeps (k.mono rfl) ?_)

theorem execFlashErase64k_keeps {P : Dev → Prop} {o : Sys2Proof.Origin} {s : State} (k : Keeps [.regs, .log, .freeCtr, .outbox, .ing, .prm, .tms, .acq, .store, .msh, .hst, .fab, .num, .boot, .clk, .pwr] P) (h : P s.dev) :
    Ends P s (execFlashErase64k o s) := by
  refine State.up_ends (fun e he => ?_) h
  repeat' (first | with_reducible assumption | with_reducible refine Dev.put_keeps (k.mono rfl) ?_)

theorem execWearWindow_keeps {P : Dev → Prop} {s : State} (k : Keeps [.regs, .log, .wear] P) (h : P s.dev) :
    Ends P s (execWearWindow s) := by
  refine State.live_ends (fun e he => ?_) h
  repeat' (first | with_reducible assumption | with_reducible refine Dev.wearWindow_keeps (k.mono rfl) ?_)

theorem execTemperatureRead_keeps {P : Dev → Prop} {dieTemps : List Sys2Proof.Byte} {stackTemps : List Sys2Proof.Byte} {moduleTemps : List Sys2Proof.Byte} {rails : List (BitVec 10)} {watts : BitVec 16} {s : State} (k : Keeps [.regs, .log, .outbox, .scr, .tms, .pwr] P) (h : P s.dev) :
    Ends P s (execTemperatureRead dieTemps stackTemps moduleTemps rails watts s) := by
  refine State.live_ends (fun e he => ?_) h
  repeat' (first
    | with_reducible assumption
    | with_reducible refine Dev.supplyRead_keeps (k.mono rfl) ?_
    | with_reducible refine Dev.temperatures_keeps (k.mono rfl) ?_)

theorem execReferenceQualified_keeps {P : Dev → Prop} {r : Sys2Proof.RefInput} {counts : List ℕ} {s : State} (k : Keeps [.regs, .boot] P) (h : P s.dev) :
    Ends P s (execReferenceQualified r counts s) := by
  refine State.live_ends (fun e he => ?_) h
  repeat' (first | with_reducible assumption | with_reducible refine Dev.refQualified_keeps (k.mono rfl) ?_)

theorem execReferenceLost_keeps {P : Dev → Prop} {r : Sys2Proof.RefInput} {s : State} (k : Keeps [.regs, .log, .ing, .tms, .clk] P) (h : P s.dev) :
    Ends P s (execReferenceLost r s) := by
  refine State.live_ends (fun e he => ?_) h
  repeat' (first | with_reducible assumption | with_reducible refine Dev.refLost_keeps (k.mono rfl) ?_)

theorem execRelock_keeps {P : Dev → Prop} {loop : Fin 18} {s : State} (k : Keeps [.regs, .clk] P) (h : P s.dev) :
    Ends P s (execRelock loop s) := by
  refine State.live_ends (fun e he => ?_) h
  repeat' (first | with_reducible assumption | with_reducible refine Dev.relock_keeps (k.mono rfl) ?_)

theorem execTimeoscRequalified_keeps {P : Dev → Prop} {s : State} (k : Keeps [.regs] P) (h : P s.dev) :
    Ends P s (execTimeoscRequalified s) := by
  refine State.live_ends (fun e he => ?_) h
  repeat' (first | with_reducible assumption | with_reducible refine Dev.oscRequalified_keeps (k.mono rfl) ?_)

theorem execLoopLock_keeps {P : Dev → Prop} {loop : Fin 18} {s : State} (k : Keeps [.regs, .clk] P) (h : P s.dev) :
    Ends P s (execLoopLock loop s) := by
  refine State.live_ends (fun e he => ?_) h
  repeat' (first | with_reducible assumption | with_reducible refine Dev.loopLock_keeps (k.mono rfl) ?_)

theorem execLoopLockTimeout_keeps {P : Dev → Prop} {s : State} (k : Keeps [.regs, .outbox, .scr, .tms, .pwr] P) (h : P s.dev) :
    Ends P s (execLoopLockTimeout s) := by
  refine State.live_ends (fun e he => ?_) h
  repeat' (first | with_reducible assumption | with_reducible refine Dev.loopTimeout_keeps (k.mono rfl) ?_)

theorem execDividerStep_keeps {P : Dev → Prop} {g : Sys2Proof.ClockGen} {s : State} (k : Keeps [.regs, .clk] P) (h : P s.dev) :
    Ends P s (execDividerStep g s) := by
  refine State.live_ends (fun e he => ?_) h
  repeat' (first | with_reducible assumption | with_reducible refine Dev.divStep_keeps (k.mono rfl) ?_)

theorem execForcedSwitch_keeps {P : Dev → Prop} {tie : Bool} {lateEdge : Bool} {s : State} (k : Keeps [.regs, .log, .clk] P) (h : P s.dev) :
    Ends P s (execForcedSwitch tie lateEdge s) := by
  refine State.live_ends (fun e he => ?_) h
  repeat' (first | with_reducible assumption | with_reducible refine Dev.forcedSwitch_keeps (k.mono rfl) ?_)

theorem execQuiesceAck_keeps {P : Dev → Prop} {t : Sys2Proof.GateTarget} {s : State} (k : Keeps [.regs, .log, .outbox, .ing, .clk] P) (h : P s.dev) :
    Ends P s (execQuiesceAck t s) := by
  refine State.live_ends (fun e he => ?_) h
  repeat' (first | with_reducible assumption | with_reducible refine Dev.quiesced_keeps (k.mono rfl) ?_)

theorem execGateTimeout_keeps {P : Dev → Prop} {t : Sys2Proof.GateTarget} {tie : Bool} {s : State} (k : Keeps [.regs, .log, .outbox, .clk] P) (h : P s.dev) :
    Ends P s (execGateTimeout t tie s) := by
  refine State.live_ends (fun e he => ?_) h
  repeat' (first | with_reducible assumption | with_reducible refine Dev.gateTimeout_keeps (k.mono rfl) ?_)

theorem execHpcGateRetry_keeps {P : Dev → Prop} {t : Sys2Proof.GateTarget} {s : State} (k : Keeps [.clk] P) (h : P s.dev) :
    Ends P s (execHpcGateRetry t s) := by
  refine State.live_ends (fun e he => ?_) h
  repeat' (first | with_reducible assumption | with_reducible refine Dev.gateRetry_keeps (k.mono rfl) ?_)

theorem execDomainPowerGood_keeps {P : Dev → Prop} {s : State} (k : Keeps [.regs, .pwr] P) (h : P s.dev) :
    Ends P s (execDomainPowerGood s) := by
  refine State.live_ends (fun e he => ?_) h
  repeat' (first | with_reducible assumption | with_reducible refine Dev.powerGood_keeps (k.mono rfl) ?_)

theorem execRailUndervoltage_keeps {P : Dev → Prop} {s : State} (k : Keeps [.regs, .caps, .log, .devNs, .inReset, .freeCtr, .outbox, .ing, .prm, .scr, .tms, .acq, .store, .stk, .msh, .hst, .wear, .fab, .num, .boot, .clk, .pwr] P) (h : P s.dev) :
    Ends P s (execRailUndervoltage s) := by
  refine State.pin_ends (fun e he => ?_) h
  repeat' (first | with_reducible assumption | with_reducible refine Dev.railLow_keeps (k.mono rfl) ?_)

theorem execRailRecovery_keeps {P : Dev → Prop} {gid : BitVec 6} {testEn : Bool} {s : State} (k : Keeps [.regs, .gid, .testEn, .devNs, .inReset, .pwr] P) (h : P s.dev) :
    Ends P s (execRailRecovery gid testEn s) := by
  refine State.pin_ends (fun e he => ?_) h
  repeat' (first | with_reducible assumption | with_reducible refine Dev.railBack_keeps (k.mono rfl) ?_)

theorem execPorAssert_keeps {P : Dev → Prop} {pin : Sys2Proof.ResetPin} {s : State} (k : Keeps [.regs, .caps, .log, .devNs, .inReset, .freeCtr, .outbox, .ing, .prm, .scr, .tms, .acq, .store, .stk, .msh, .hst, .wear, .fab, .num, .boot, .clk, .pwr] P) (h : P s.dev) :
    Ends P s (execPorAssert pin s) := by
  refine State.pin_ends (fun e he => ?_) h
  repeat' (first | with_reducible assumption | with_reducible refine Dev.assertReset_keeps (k.mono rfl) ?_)

theorem execMgtRequest_keeps {P : Dev → Prop} {req : BitVec 4} {dev : BitVec 6} {op : BitVec 2} {ofs : BitVec 24} {data : Sys2Proof.Word} {check : Sys2Proof.Byte} {s : State} (k : Keeps [.regs, .caps, .log, .freeCtr, .outbox, .ing, .prm, .tms, .acq, .store, .msh, .hst, .fab, .num, .boot, .clk, .pwr] P) (h : P s.dev) :
    Ends P s (execMgtRequest req dev op ofs data check s) := by
  refine State.up_ends (fun e he => ?_) h
  repeat' (first | with_reducible assumption | with_reducible refine Dev.mgtRequest_keeps (k.mono rfl) ?_)

theorem execMgtWaitExpiry_keeps {P : Dev → Prop} {s : State} (k : Keeps [.msh] P) (h : P s.dev) :
    Ends P s (execMgtWaitExpiry s) := by
  refine State.up_ends (fun e he => ?_) h
  repeat' (first | with_reducible assumption | with_reducible refine upd_msh (k.mono rfl) ?_)

theorem execFlashOperationDone_keeps {P : Dev → Prop} {flashError : Bool} {s : State} (k : Keeps [.regs, .freeCtr, .boot, .pwr] P) (h : P s.dev) :
    Ends P s (execFlashOperationDone flashError s) := by
  refine State.up_ends (fun e he => ?_) h
  repeat' (first | with_reducible assumption | with_reducible refine Dev.flashDone_keeps (k.mono rfl) ?_)

theorem execStackSlot_keeps {P : Dev → Prop} {st : Sys2Proof.StackId} {corrected : ℕ} {bad : List (Fin 64)} {s : State} (k : Keeps [.regs, .log, .stk, .fab, .clk] P) (h : P s.dev) :
    Ends P s (execStackSlot st corrected bad s) := by
  refine State.live_ends (fun e he => ?_) h
  repeat' (first
    | with_reducible assumption
    | with_reducible refine Dev.stackSlot_keeps (k.mono rfl) ?_
    | with_reducible refine Dev.settleDrip_keeps (k.mono rfl) ?_)

theorem execBlockStaged_keeps {P : Dev → Prop} {c : Sys2Proof.CoreId} {s : State} (k : Keeps [.stk, .fab] P) (h : P s.dev) :
    Ends P s (execBlockStaged c s) := by
  refine State.live_ends (fun e he => ?_) h
  repeat' (first | with_reducible assumption | with_reducible refine Dev.blockStaged_keeps (k.mono rfl) ?_)

theorem execRefresh_keeps {P : Dev → Prop} {st : Sys2Proof.StackId} {bank : Fin 16} {s : State} (k : Keeps [.regs, .stk] P) (h : P s.dev) :
    Ends P s (execRefresh st bank s) := by
  refine State.live_ends (fun e he => ?_) h
  repeat' (first | with_reducible assumption | with_reducible refine Dev.refreshBank_keeps (k.mono rfl) ?_)

theorem execStackFailed_keeps {P : Dev → Prop} {st : Sys2Proof.StackId} {y1 : Sys2Proof.StackCause} {s : State} (k : Keeps [.regs, .log, .stk, .clk] P) (h : P s.dev) :
    Ends P s (execStackFailed st y1 s) := by
  refine State.live_ends (fun e he => ?_) h
  repeat' (first | with_reducible assumption | with_reducible refine Dev.stackFails_keeps (k.mono rfl) ?_)

theorem execStackTrainingComplete_keeps {P : Dev → Prop} {st : Sys2Proof.StackId} {height : BitVec 2} {cap24 : Bool} {supported : Bool} {s : State} (k : Keeps [.regs, .log, .stk, .clk] P) (h : P s.dev) :
    Ends P s (execStackTrainingComplete st height cap24 supported s) := by
  refine State.live_ends (fun e he => ?_) h
  repeat' (first | with_reducible assumption | with_reducible refine Dev.stackTrained_keeps (k.mono rfl) ?_)

theorem execStackTrainingFail_keeps {P : Dev → Prop} {st : Sys2Proof.StackId} {s : State} (k : Keeps [.regs, .log, .stk, .clk] P) (h : P s.dev) :
    Ends P s (execStackTrainingFail st s) := by
  refine State.live_ends (fun e he => ?_) h
  repeat' (first | with_reducible assumption | with_reducible refine Dev.stackTrainFails_keeps (k.mono rfl) ?_)

theorem execStackTestComplete_keeps {P : Dev → Prop} {st : Sys2Proof.StackId} {ppr : Sys2Proof.Word} {bad : List ℕ} {s : State} (k : Keeps [.regs, .log, .stk] P) (h : P s.dev) :
    Ends P s (execStackTestComplete st ppr bad s) := by
  refine State.live_ends (fun e he => ?_) h
  repeat' (first | with_reducible assumption | with_reducible refine Dev.stackTested_keeps (k.mono rfl) ?_)

theorem execMirrorTakeover_keeps {P : Dev → Prop} {st : Sys2Proof.StackId} {s : State} (k : Keeps [.regs] P) (h : P s.dev) :
    Ends P s (execMirrorTakeover st s) := by
  refine State.live_ends (fun e he => ?_) h
  repeat' (first | with_reducible assumption | with_reducible refine Dev.mirrorTakes_keeps (k.mono rfl) ?_)

theorem execStackInterfaceRetrain_keeps {P : Dev → Prop} {st : Sys2Proof.StackId} {slots : ℕ} {s : State} (k : Keeps [.regs, .stk, .fab] P) (h : P s.dev) :
    Ends P s (execStackInterfaceRetrain st slots s) := by
  refine State.live_ends (fun e he => ?_) h
  repeat' (first | with_reducible assumption | with_reducible refine Dev.retrainStack_keeps (k.mono rfl) ?_)

theorem execStepClose_keeps {P : Dev → Prop} {cl : Sys2Proof.ClusterId} {row : Fin 4096} {tie : Bool} {s : State} (k : Keeps [.regs, .log, .stk, .fab, .num] P) (h : P s.dev) :
    Ends P s (execStepClose cl row tie s) := by
  refine State.live_ends (fun e he => ?_) h
  repeat' (first
    | with_reducible assumption
    | with_reducible refine Dev.stepClose_keeps (k.mono rfl) ?_
    | with_reducible refine Dev.settleDrip_keeps (k.mono rfl) ?_)

theorem execScaleToken_keeps {P : Dev → Prop} {cl : Sys2Proof.ClusterId} {row : Fin 4096} {s : State} (k : Keeps [.regs, .log, .stk, .fab, .num] P) (h : P s.dev) :
    Ends P s (execScaleToken cl row s) := by
  refine State.live_ends (fun e he => ?_) h
  repeat' (first
    | with_reducible assumption
    | with_reducible refine Dev.sendScale_keeps (k.mono rfl) ?_
    | with_reducible refine Dev.settleDrip_keeps (k.mono rfl) ?_)

theorem execScrimPartial_keeps {P : Dev → Prop} {cl : Sys2Proof.ClusterId} {row : Fin 4096} {outs : ℕ} {corrected : ℕ} {badWords : List ℕ} {s : State} (k : Keeps [.regs, .log, .stk, .fab, .num] P) (h : P s.dev) :
    Ends P s (execScrimPartial cl row outs corrected badWords s) := by
  refine State.live_ends (fun e he => ?_) h
  repeat' (first
    | with_reducible assumption
    | with_reducible refine Dev.scrimDone_keeps (k.mono rfl) ?_
    | with_reducible refine Dev.settleDrip_keeps (k.mono rfl) ?_
    | (fail_if_no_progress extract_lets +onlyGivenNames x)
    | split)

theorem execEpochDigest_keeps {P : Dev → Prop} {g : Fin 64} {corrected : List (Sys2Proof.CoreId × ℕ)} {s : State} (k : Keeps [.regs, .log, .fab, .num] P) (h : P s.dev) :
    Ends P s (execEpochDigest g corrected s) := by
  refine State.live_ends (fun e he => ?_) h
  repeat' (first
    | with_reducible assumption
    | with_reducible refine Dev.countCes_keeps (k.mono rfl) ?_
    | with_reducible refine Dev.digestDone_keeps (k.mono rfl) ?_
    | (fail_if_no_progress extract_lets +onlyGivenNames x)
    | split)

theorem execShadowCopy_keeps {P : Dev → Prop} {g : Fin 64} {corrected : List (Sys2Proof.CoreId × ℕ)} {s : State} (k : Keeps [.regs, .log, .fab, .num] P) (h : P s.dev) :
    Ends P s (execShadowCopy g corrected s) := by
  refine State.live_ends (fun e he => ?_) h
  repeat' (first
    | with_reducible assumption
    | with_reducible refine Dev.countCes_keeps (k.mono rfl) ?_
    | with_reducible refine Dev.shadowCopy_keeps (k.mono rfl) ?_
    | (fail_if_no_progress extract_lets +onlyGivenNames x)
    | split)

theorem execPorRelease_keeps {P : Dev → Prop} {gid : BitVec 6} {testEn : Bool} {s : State} (k : Keeps [.regs, .gid, .testEn, .devNs, .inReset, .pwr] P) (h : P s.dev) :
    Ends P s (execPorRelease gid testEn s) := by
  refine State.pin_ends (fun e he => ?_) h
  repeat' (first | with_reducible assumption | with_reducible refine Dev.porRelease_keeps (k.mono rfl) ?_)

theorem execDevRstRelease_keeps {P : Dev → Prop} {s : State} (k : Keeps [.regs, .devNs, .inReset, .pwr] P) (h : P s.dev) :
    Ends P s (execDevRstRelease s) := by
  refine State.pin_ends (fun e he => ?_) h
  repeat' (first | with_reducible assumption | with_reducible refine Dev.devRstRelease_keeps (k.mono rfl) ?_)

theorem execStartUpStep_keeps {P : Dev → Prop} {env : Sys2Proof.StartEnv} {s : State} (k : Keeps [.regs, .log, .outbox, .ing, .scr, .tms, .store, .stk, .wear, .fab, .num, .boot, .pwr] P) (h : P s.dev) :
    Ends P s (execStartUpStep env s) := by
  refine State.live_ends (fun e he => ?_) h
  repeat' (first | with_reducible assumption | with_reducible refine Dev.startUpStep_keeps (k.mono rfl) ?_)

theorem execSectionDigest_keeps {P : Dev → Prop} {i : ℕ} {s : State} (k : Keeps [.regs, .log, .outbox, .ing, .scr, .tms, .store, .stk, .fab, .num, .boot, .clk, .pwr] P) (h : P s.dev) :
    Ends P s (execSectionDigest i s) := by
  refine State.live_ends (fun e he => ?_) h
  repeat' (first | with_reducible assumption | with_reducible refine Dev.sectionDigest_keeps (k.mono rfl) ?_)

theorem execSectionWatchdogExpiry_keeps {P : Dev → Prop} {tie : Bool} {s : State} (k : Keeps [.regs, .log, .outbox, .ing, .scr, .tms, .store, .stk, .fab, .num, .boot, .pwr] P) (h : P s.dev) :
    Ends P s (execSectionWatchdogExpiry tie s) := by
  refine State.live_ends (fun e he => ?_) h
  repeat' (first | with_reducible assumption | with_reducible refine Dev.sectionWatchdog_keeps (k.mono rfl) ?_)

theorem execBootWatchdogExpiry_keeps {P : Dev → Prop} {tie : Bool} {s : State} (k : Keeps [.regs, .outbox, .scr, .tms, .pwr] P) (h : P s.dev) :
    Ends P s (execBootWatchdogExpiry tie s) := by
  refine State.live_ends (fun e he => ?_) h
  repeat' (first | with_reducible assumption | with_reducible refine Dev.bootWatchdog_keeps (k.mono rfl) ?_)

theorem execAttestationReport_keeps {P : Dev → Prop} {s : State} (k : Keeps [.regs, .boot] P) (h : P s.dev) :
    Ends P s (execAttestationReport s) := by
  refine State.up_ends (fun e he => ?_) h
  repeat' (first | with_reducible assumption | with_reducible refine Dev.attestDone_keeps (k.mono rfl) ?_)

theorem execCheckpoint_keeps {P : Dev → Prop} {s : State} (k : Keeps [.regs, .log] P) (h : P s.dev) :
    Ends P s (execCheckpoint s) := by
  refine State.up_ends (fun e he => ?_) h
  repeat' (first | with_reducible assumption | with_reducible refine Dev.checkpoint_keeps (k.mono rfl) ?_)

theorem execCheckpointSignature_keeps {P : Dev → Prop} {s : State} (k : Keeps [.regs, .log] P) (h : P s.dev) :
    Ends P s (execCheckpointSignature s) := by
  refine State.up_ends (fun e he => ?_) h
  repeat' (first | with_reducible assumption | with_reducible refine Dev.checkpointSigned_keeps (k.mono rfl) ?_)

theorem execLogMirrorWrite_keeps {P : Dev → Prop} {s : State} (k : Keeps [.regs, .log, .outbox, .ing, .store, .msh, .hst] P) (h : P s.dev) :
    Ends P s (execLogMirrorWrite s) := by
  refine State.live_ends (fun e he => ?_) h
  repeat' (first | with_reducible assumption | with_reducible refine Dev.mirrorWrite_keeps (k.mono rfl) ?_)

theorem execLogMemoryUe_keeps {P : Dev → Prop} {mem : Sys2Proof.LogMemory} {first : BitVec 24} {count : ℕ} {s : State} (k : Keeps [.regs, .log, .fab] P) (h : P s.dev) :
    Ends P s (execLogMemoryUe mem first count s) := by
  refine State.up_ends (fun e he => ?_) h
  repeat' (first
    | with_reducible assumption
    | with_reducible refine Dev.logRowFails_keeps (k.mono rfl) ?_
    | with_reducible refine Dev.stagingFails_keeps (k.mono rfl) ?_
    | (fail_if_no_progress extract_lets +onlyGivenNames x)
    | split)

theorem execSampleDelivered_keeps {P : Dev → Prop} {s : State} (k : Keeps [.regs, .freeCtr, .ing, .prm, .acq, .store] P) (h : P s.dev) :
    Ends P s (execSampleDelivered s) := by
  refine State.live_ends (fun e he => ?_) h
  repeat' (first | with_reducible assumption | with_reducible refine Dev.takeSample_keeps (k.mono rfl) ?_)

theorem execKeepEntry_keeps {P : Dev → Prop} {c : Fin 8192} {s : State} (k : Keeps [.regs, .freeCtr, .acq, .store] P) (h : P s.dev) :
    Ends P s (execKeepEntry c s) := by
  refine State.live_ends (fun e he => ?_) h
  repeat' (first | with_reducible assumption | with_reducible refine Dev.keepEntry_keeps (k.mono rfl) ?_)

theorem execRingWrite_keeps {P : Dev → Prop} {st : Sys2Proof.StackId} {s : State} (k : Keeps [.regs, .freeCtr, .acq, .store, .stk] P) (h : P s.dev) :
    Ends P s (execRingWrite st s) := by
  refine State.live_ends (fun e he => ?_) h
  repeat' (first
    | with_reducible assumption
    | with_reducible refine Dev.ringWrite_keeps (k.mono rfl) ?_
    | with_reducible refine Dev.useGrant_keeps (k.mono rfl) ?_
    | (fail_if_no_progress extract_lets +onlyGivenNames x)
    | split)

theorem execStippleCaptureEnd_keeps {P : Dev → Prop} {r : Fin 64} {s : State} (k : Keeps [.regs, .freeCtr, .acq, .store] P) (h : P s.dev) :
    Ends P s (execStippleCaptureEnd r s) := by
  refine State.live_ends (fun e he => ?_) h
  repeat' (first | with_reducible assumption | with_reducible refine Dev.stippleEnd_keeps (k.mono rfl) ?_)

theorem execCaptureCopyOut_keeps {P : Dev → Prop} {r : Fin 64} {count : ℕ} {corrected : ℕ} {bad : List ℕ} {s : State} (k : Keeps [.regs, .log, .freeCtr, .acq, .store, .stk, .clk] P) (h : P s.dev) :
    Ends P s (execCaptureCopyOut r count corrected bad s) := by
  refine State.live_ends (fun e he => ?_) h
  repeat' (first
    | with_reducible assumption
    | with_reducible refine Dev.copyOut_keeps (k.mono rfl) ?_
    | with_reducible refine Dev.useGrant_keeps (k.mono rfl) ?_
    | (fail_if_no_progress extract_lets +onlyGivenNames x)
    | split)

theorem execFreeAppendixBlock_keeps {P : Dev → Prop} {rec : ℕ} {producer : BitVec 16} {data : List Sys2Proof.Byte} {last : Bool} {s : State} (k : Keeps [.regs, .freeCtr, .store] P) (h : P s.dev) :
    Ends P s (execFreeAppendixBlock rec producer data last s) := by
  refine State.live_ends (fun e he => ?_) h
  repeat' (first | with_reducible assumption | with_reducible refine Dev.appendBlock_keeps (k.mono rfl) ?_)

theorem execFreeWaitExpiry_keeps {P : Dev → Prop} {rec : ℕ} {tie : Bool} {s : State} (k : Keeps [.regs, .freeCtr, .store] P) (h : P s.dev) :
    Ends P s (execFreeWaitExpiry rec tie s) := by
  refine State.live_ends (fun e he => ?_) h
  repeat' (first | with_reducible assumption | with_reducible refine Dev.freeExpire_keeps (k.mono rfl) ?_)

end Sys2Proof.Machine
end

