-- ==== Sys2Proof/Laws/Exec.lean ====
section
/-!
SUPPORT. One lemma for all commands: a command ends in a next state whose device keeps what its parts cannot break.
-/

namespace Sys2Proof.Machine

open Sys2Proof

theorem exec_ends {P : Dev → Prop} (i : Instr) (s : State) (k : Keeps (mayChange i) P) (h : P s.dev) : Ends P s (exec i s) := by
  cases i with
  | registerWrite => exact execRegisterWrite_keeps k h
  | multiRegisterRead => exact execMultiRegisterRead_keeps k h
  | clkLossClear o v hw => exact execClkLossClear_keeps (y0 := o) k h
  | logFwdWrite => exact execLogFwdWrite_keeps k h
  | eventWindowOpen => exact execEventWindowOpen_keeps k h
  | admission => exact execAdmission_keeps k h
  | release => exact execRelease_keeps k h
  | decWidthExpiry => exact execDecWidthExpiry_keeps k h
  | screedArm => exact execScreedArm_keeps k h
  | armWaitExpiry => exact execArmWaitExpiry_keeps k h
  | blockReceived => exact execBlockReceived_keeps k h
  | codewordDecoded => exact execCodewordDecoded_keeps k h
  | dataBlock => exact execDataBlock_keeps k h
  | tagBlock => exact execTagBlock_keeps k h
  | linkBlockRx => exact execLinkBlockRx_keeps k h
  | linkBlockTx => exact execLinkBlockTx_keeps k h
  | fillerInsert => exact execFillerInsert_keeps k h
  | adminOffSet => exact execAdminOffSet_keeps k h
  | adminOffClear => exact execAdminOffClear_keeps k h
  | lossOfSignal => exact execLossOfSignal_keeps k h
  | signalDetected => exact execSignalDetected_keeps k h
  | huntWindowEnd => exact execHuntWindowEnd_keeps k h
  | eyeMeasurement => exact execEyeMeasurement_keeps k h
  | trainingWindowEnd => exact execTrainingWindowEnd_keeps k h
  | backoffEnd => exact execBackoffEnd_keeps k h
  | sampleDelivered => exact execSampleDelivered_keeps k h
  | keepEntry => exact execKeepEntry_keeps k h
  | ringWrite => exact execRingWrite_keeps k h
  | stippleCaptureEnd => exact execStippleCaptureEnd_keeps k h
  | captureCopyOut => exact execCaptureCopyOut_keeps k h
  | freeAppendixBlock => exact execFreeAppendixBlock_keeps k h
  | freeWaitExpiry => exact execFreeWaitExpiry_keeps k h
  | profileWrite => exact execProfileWrite_keeps k h
  | hawkPreWrite => exact execHawkPreWrite_keeps k h
  | hawkPostWrite => exact execHawkPostWrite_keeps k h
  | captureSettingWrite => exact execCaptureSettingWrite_keeps k h
  | engineIssue => exact execEngineIssue_keeps k h
  | countToken => exact execCountToken_keeps k h
  | tokenArrival => exact execTokenArrival_keeps k h
  | wheelCrossing => exact execWheelCrossing_keeps k h
  | paceWindow => exact execPaceWindow_keeps k h
  | stallTick => exact execStallTick_keeps k h
  | coreFence => exact execCoreFence_keeps k h
  | selfTestComplete => exact execSelfTestComplete_keeps k h
  | coreLoadComplete => exact execCoreLoadComplete_keeps k h
  | loadErrorRetire => exact execLoadErrorRetire_keeps k h
  | dieLinkFlit => exact execDieLinkFlit_keeps k h
  | dieLinkLossOfLock => exact execDieLinkLossOfLock_keeps k h
  | dieLinkRetrain => exact execDieLinkRetrain_keeps k h
  | switchRequest => exact execSwitchRequest_keeps k h
  | ctxselWrite => exact execCtxselWrite_keeps k h
  | switchAccept => exact execSwitchAccept_keeps k h
  | markerSend => exact execMarkerSend_keeps k h
  | receiveSwitchMarker => exact execReceiveSwitchMarker_keeps k h
  | counterUnitSwitch => exact execCounterUnitSwitch_keeps k h
  | sectionLoad => exact execSectionLoad_keeps k h
  | dripTimerExpiry => exact execDripTimerExpiry_keeps k h
  | dripSpillComplete => exact execDripSpillComplete_keeps k h
  | dripRefill => exact execDripRefill_keeps k h
  | drpFail => exact execDrpFail_keeps k h
  | creditToken => exact execCreditToken_keeps k h
  | stackSlot => exact execStackSlot_keeps k h
  | blockStaged => exact execBlockStaged_keeps k h
  | refresh => exact execRefresh_keeps k h
  | stackFailed _ cause => exact execStackFailed_keeps (y1 := cause) k h
  | stackTrainingComplete => exact execStackTrainingComplete_keeps k h
  | stackTrainingFail => exact execStackTrainingFail_keeps k h
  | stackTestComplete => exact execStackTestComplete_keeps k h
  | mirrorTakeover => exact execMirrorTakeover_keeps k h
  | skewNotice => exact execSkewNotice_keeps k h
  | stepClose => exact execStepClose_keeps k h
  | scaleToken => exact execScaleToken_keeps k h
  | scrimPartial => exact execScrimPartial_keeps k h
  | epochDigest => exact execEpochDigest_keeps k h
  | shadowCopy => exact execShadowCopy_keeps k h
  | scaleLimitsWrite => exact execScaleLimitsWrite_keeps k h
  | scaleHoldWrite => exact execScaleHoldWrite_keeps k h
  | adaptEnWrite => exact execAdaptEnWrite_keeps k h
  | networkInput => exact execNetworkInput_keeps k h
  | notice => exact execNotice_keeps k h
  | localDeadline => exact execLocalDeadline_keeps k h
  | collectionClose => exact execCollectionClose_keeps k h
  | groupResult => exact execGroupResult_keeps k h
  | headroomWindow => exact execHeadroomWindow_keeps k h
  | setpointRaise => exact execSetpointRaise_keeps k h
  | setpointSettled => exact execSetpointSettled_keeps k h
  | mnCtlWrite => exact execMnCtlWrite_keeps k h
  | mnThrWrite => exact execMnThrWrite_keeps k h
  | mnPrescaleWrite => exact execMnPrescaleWrite_keeps k h
  | mnHoldnsWrite => exact execMnHoldnsWrite_keeps k h
  | grpAbsentWrite => exact execGrpAbsentWrite_keeps k h
  | rateFrame => exact execRateFrame_keeps k h
  | safeEntry mem _ => exact execSafeEntry_keeps (y0 := mem) k h
  | sync => exact execSync_keeps k h
  | announce => exact execAnnounce_keeps k h
  | announceTimeout => exact execAnnounceTimeout_keeps k h
  | delayReq => exact execDelayReq_keeps k h
  | delayResp => exact execDelayResp_keeps k h
  | tsyncRx _ _ _ seq _ => exact execTsyncRx_keeps (y3 := seq) k h
  | tsyncTimeout => exact execTsyncTimeout_keeps k h
  | tsyncTx => exact execTsyncTx_keeps k h
  | tinfoTx => exact execTinfoTx_keeps k h
  | tinfoRx => exact execTinfoRx_keeps k h
  | tdreqRx => exact execTdreqRx_keeps k h
  | tdreqTx => exact execTdreqTx_keeps k h
  | tdrespRx => exact execTdrespRx_keeps k h
  | jumpAccept => exact execJumpAccept_keeps k h
  | jumpStep => exact execJumpStep_keeps k h
  | ptAsymWrite => exact execPtAsymWrite_keeps k h
  | jumpMaxWrite => exact execJumpMaxWrite_keeps k h
  | mkModeArm => exact execMkModeArm_keeps k h
  | mkModeOff => exact execMkModeOff_keeps k h
  | mkParamWrite => exact execMkParamWrite_keeps k h
  | mark => exact execMark_keeps k h
  | markBlock => exact execMarkBlock_keeps k h
  | tmarkWidthEnd => exact execTmarkWidthEnd_keeps k h
  | helloTx => exact execHelloTx_keeps k h
  | hello => exact execHello_keeps k h
  | keepaliveExpiry => exact execKeepaliveExpiry_keeps k h
  | contrib => exact execContrib_keeps k h
  | wreq => exact execWreq_keeps k h
  | wcpl => exact execWcpl_keeps k h
  | dmaw => exact execDmaw_keeps k h
  | dmar => exact execDmar_keeps k h
  | dmac => exact execDmac_keeps k h
  | irq => exact execIrq_keeps k h
  | hstate => exact execHstate_keeps k h
  | hstateTx => exact execHstateTx_keeps k h
  | ack => exact execAck_keeps k h
  | ackTx => exact execAckTx_keeps k h
  | hostResend => exact execHostResend_keeps k h
  | barAccess => exact execBarAccess_keeps k h
  | windowReadTimeout => exact execWindowReadTimeout_keeps k h
  | linkDown => exact execLinkDown_keeps k h
  | perstN => exact execPerstN_keeps k h
  | d3hot => exact execD3hot_keeps k h
  | poll => exact execPoll_keeps k h
  | pollData => exact execPollData_keeps k h
  | pollExpiry => exact execPollExpiry_keeps k h
  | descriptorFill => exact execDescriptorFill_keeps k h
  | flushExpiry => exact execFlushExpiry_keeps k h
  | labelEntry => exact execLabelEntry_keeps k h
  | irqHoldExpiry => exact execIrqHoldExpiry_keeps k h
  | hrEnableWrite => exact execHrEnableWrite_keeps k h
  | recordExpired => exact execRecordExpired_keeps k h
  | recordStoreUe => exact execRecordStoreUe_keeps k h
  | channelFailed => exact execChannelFailed_keeps k h
  | porRelease => exact execPorRelease_keeps k h
  | startUpStep => exact execStartUpStep_keeps k h
  | sectionDigest => exact execSectionDigest_keeps k h
  | sectionWatchdogExpiry => exact execSectionWatchdogExpiry_keeps k h
  | bootWatchdogExpiry => exact execBootWatchdogExpiry_keeps k h
  | attestationRequest => exact execAttestationRequest_keeps k h
  | attestationReport => exact execAttestationReport_keeps k h
  | checkpoint => exact execCheckpoint_keeps k h
  | checkpointSignature => exact execCheckpointSignature_keeps k h
  | logMirrorWrite => exact execLogMirrorWrite_keeps k h
  | logMemoryUe => exact execLogMemoryUe_keeps k h
  | wearWindow => exact execWearWindow_keeps k h
  | temperatureRead => exact execTemperatureRead_keeps k h
  | referenceQualified => exact execReferenceQualified_keeps k h
  | referenceLost => exact execReferenceLost_keeps k h
  | relock => exact execRelock_keeps k h
  | timeoscRequalified => exact execTimeoscRequalified_keeps k h
  | loopLock => exact execLoopLock_keeps k h
  | loopLockTimeout => exact execLoopLockTimeout_keeps k h
  | dividerStep => exact execDividerStep_keeps k h
  | forcedSwitch => exact execForcedSwitch_keeps k h
  | clkGateWrite => exact execClkGateWrite_keeps k h
  | quiesceAck => exact execQuiesceAck_keeps k h
  | gateTimeout => exact execGateTimeout_keeps k h
  | hpcGateRetry => exact execHpcGateRetry_keeps k h
  | auxCtlWrite => exact execAuxCtlWrite_keeps k h
  | pinWrite => exact execPinWrite_keeps k h
  | domainPowerGood => exact execDomainPowerGood_keeps k h
  | railUndervoltage => exact execRailUndervoltage_keeps k h
  | railRecovery => exact execRailRecovery_keeps k h
  | porAssert => exact execPorAssert_keeps k h
  | devRstRelease => exact execDevRstRelease_keeps k h
  | mgtRequest => exact execMgtRequest_keeps k h
  | mgtWaitExpiry => exact execMgtWaitExpiry_keeps k h
  | flashRead => exact execFlashRead_keeps k h
  | flashProgram => exact execFlashProgram_keeps k h
  | flashErase64k => exact execFlashErase64k_keeps k h
  | flashOperationDone => exact execFlashOperationDone_keeps k h
  | channelTrainingComplete => exact execChannelTrainingComplete_keeps k h
  | ethernetLinkChange => exact execEthernetLinkChange_keeps k h
  | stackInterfaceRetrain => exact execStackInterfaceRetrain_keeps k h

theorem ok_keeps (S : List Part) : Keeps S Dev.Ok := by
  intro p _
  cases p <;> first
    | (intro d x hx ⟨a, b, c⟩; exact ⟨hx a, b, c⟩)
    | (intro d x hx ⟨a, b, c⟩; exact ⟨a, hx b, c⟩)
    | (intro d x hx ⟨a, b, c⟩; exact ⟨a, b, hx c⟩)
    | (intro d x h; exact h)
    | (intro d x _ h; exact h)

theorem grows_keeps (S : List Part) (d : Dev) : Keeps S d.outGrows := by
  intro p _
  cases p <;> first
    | (intro e x he; exact he)
    | (intro e x hx he; obtain ⟨l, rfl⟩ := hx; exact he.trans (List.suffix_append l _))
    | (intro e x _ he; exact he)

end Sys2Proof.Machine
end

