-- ==== Sys2Proof/Laws/Time.lean ====
section
/-!
SUPPORT. The time service: what a measurement leaves of its sources, and blocks sent on a port.
-/

namespace Sys2Proof.Machine

open Sys2Proof

/-- What a source's record says of the source itself, with its delay. -/
def SrcRec.claims (r : SrcRec) : Bool × Bool × Nat × Option Rat × BitVec 64 × Nat × Nat × Bool :=
  (r.qualified, r.expired, r.heardAt, r.delay, r.gm, r.steps, r.utc, r.arb)

/-- Sources, their choice and the latest offset are the same. -/
def Dev.timeFrame (d e : Dev) : Prop :=
  e.tms.lastTheta = d.tms.lastTheta ∧ e.tms.foreign = d.tms.foreign ∧ e.tms.chosen = d.tms.chosen ∧
    e.tms.twoStep.isSome = d.tms.twoStep.isSome ∧ ∀ k, (e.src k).claims = (d.src k).claims

theorem Dev.timeFrame_refl (d : Dev) : d.timeFrame d := ⟨rfl, rfl, rfl, rfl, fun _ => rfl⟩

theorem Dev.timeFrame.trans {d e f : Dev} (h : d.timeFrame e) (h' : e.timeFrame f) : d.timeFrame f :=
  ⟨h'.1.trans h.1, h'.2.1.trans h.2.1, h'.2.2.1.trans h.2.2.1, h'.2.2.2.1.trans h.2.2.2.1, fun k => (h'.2.2.2.2 k).trans (h.2.2.2.2 k)⟩

theorem Dev.timeFrame_of_tms {d e : Dev} (h : e.tms = d.tms) : d.timeFrame e := by
  unfold Dev.timeFrame Dev.src; rw [h]; exact ⟨rfl, rfl, rfl, rfl, fun _ => rfl⟩

@[simp] theorem Dev.setSrc_src (d : Dev) (k : Nat) (r : SrcRec) : (d.setSrc k r).src k = r := SMap.get_set_same _ _ _
theorem Dev.setSrc_src_ne (d : Dev) {k j : Nat} (r : SrcRec) (h : j ≠ k) : (d.setSrc k r).src j = d.src j := SMap.get_set_ne _ _ h

theorem Dev.setSrc_timeFrame (d : Dev) (k : Nat) (r : SrcRec) (h : r.claims = (d.src k).claims) : d.timeFrame (d.setSrc k r) := by
  refine ⟨rfl, rfl, rfl, rfl, fun j => ?_⟩
  by_cases hj : j = k
  · rw [hj, Dev.setSrc_src, h]
  · rw [Dev.setSrc_src_ne _ _ hj]

theorem Dev.roundOpen_tms (d : Dev) (q : Rat) : (d.roundOpen q).2.tms = d.tms := by
  unfold Dev.roundOpen; split <;> rfl

theorem Dev.roundOpen_regs (d : Dev) (q : Rat) : (d.roundOpen q).2.regs = d.regs := by
  unfold Dev.roundOpen; split <;> rfl

theorem Dev.setY_timeFrame (d : Dev) (y : Rat) : d.timeFrame (d.setY y) := by
  unfold Dev.setY
  have h := Dev.roundOpen_tms d (y * 2 ^ 40)
  generalize d.roundOpen (y * 2 ^ 40) = p at h
  obtain ⟨q, e⟩ := p
  dsimp only at h ⊢
  refine (Dev.timeFrame_of_tms h).trans ⟨rfl, rfl, rfl, rfl, fun _ => rfl⟩

theorem Dev.enterHoldover_timeFrame (d : Dev) : d.timeFrame d.enterHoldover := by
  unfold Dev.enterHoldover
  dsimp only
  exact (Dev.setY_timeFrame d _).trans ⟨rfl, rfl, rfl, rfl, fun _ => rfl⟩

theorem Dev.enterAcquire_timeFrame (d : Dev) : d.timeFrame d.enterAcquire := ⟨rfl, rfl, rfl, rfl, fun _ => rfl⟩

theorem Dev.feedServo_timeFrame (d : Dev) (k : Nat) (theta : Rat) : d.timeFrame (d.feedServo k theta) := by
  unfold Dev.feedServo
  dsimp only
  generalize clampRat (d.tms.i + _) d.yMax = i
  generalize clampRat (_ + i) d.yMax = cv
  obtain ⟨e, he⟩ : ∃ e : Dev, e = d.setY cv := ⟨_, rfl⟩
  rw [← he]
  have h0 : d.timeFrame e := by rw [he]; exact Dev.setY_timeFrame d _
  exact h0.trans ⟨rfl, rfl, rfl, rfl, fun _ => rfl⟩

theorem Dev.judgeLock_timeFrame (d : Dev) : d.timeFrame d.judgeLock := by
  unfold Dev.judgeLock
  split
  · exact ⟨rfl, rfl, rfl, rfl, fun _ => rfl⟩
  · split
    · exact Dev.enterAcquire_timeFrame d
    · exact d.timeFrame_refl

theorem Dev.feed_timeFrame (d : Dev) (k : Nat) (theta : Rat) : d.timeFrame (d.feed k theta) :=
  (Dev.feedServo_timeFrame d k theta).trans (Dev.judgeLock_timeFrame _)

theorem Dev.emitMark_timeFrame (d : Dev) (g : Nat) : d.timeFrame (d.emitMark g) := by
  unfold Dev.emitMark
  extract_lets r t pin e f fin x
  have he : d.timeFrame e := Dev.timeFrame_of_tms rfl
  have hf : d.timeFrame f := by
    show d.timeFrame (if _ then _ else _)
    split
    · exact he.trans (Dev.timeFrame_of_tms rfl)
    · exact he
  have hx : d.timeFrame x := hf.trans ⟨rfl, rfl, rfl, rfl, fun _ => rfl⟩
  split
  · exact hx.trans (Dev.timeFrame_of_tms rfl)
  · exact hx

theorem Dev.marksDue_timeFrame (d : Dev) (g : Nat) : d.timeFrame (d.marksDue g) := by
  unfold Dev.marksDue
  dsimp only
  split
  · refine foldl_keeps (P := d.timeFrame) (fun f _ h => ?_) d.timeFrame_refl
    unfold Dev.markDue
    dsimp only
    split
    · exact h.trans (Dev.emitMark_timeFrame f g)
    · exact h
  · exact d.timeFrame_refl

theorem Dev.skipMarks_timeFrame (d : Dev) (g n : Nat) : d.timeFrame (d.skipMarks g n) := by
  unfold Dev.skipMarks
  extract_lets r total n e fin f
  have h : d.timeFrame f := ⟨rfl, rfl, rfl, rfl, fun _ => rfl⟩
  split
  · exact h.trans (Dev.timeFrame_of_tms rfl)
  · exact h

theorem Dev.mkPass_timeFrame (d : Dev) (t0 t1 g : Nat) : d.timeFrame (d.mkPass t0 t1 g) := by
  unfold Dev.mkPass
  extract_lets r e next per
  have h : d.timeFrame e := ⟨rfl, rfl, rfl, rfl, fun _ => rfl⟩
  split
  · exact h.trans (Dev.skipMarks_timeFrame _ _ _)
  · exact h

theorem Dev.moveCounter_timeFrame (d : Dev) (theta : Rat) : d.timeFrame (d.moveCounter theta) := by
  unfold Dev.moveCounter
  extract_lets c t e
  have h1 : d.timeFrame e := by
    show d.timeFrame (List.foldl _ _ _)
    generalize List.range 7 = l
    refine foldl_keeps (P := d.timeFrame) (fun f i h => h.trans (Dev.setSrc_timeFrame _ _ _ rfl)) d.timeFrame_refl
  refine h1.trans ⟨rfl, rfl, rfl, ?_, fun _ => rfl⟩
  show (Option.map _ _).isSome = _
  rw [Option.isSome_map]

theorem Dev.dropOutliers_timeFrame (d : Dev) : d.timeFrame d.dropOutliers := by
  unfold Dev.dropOutliers
  generalize List.range 7 = l
  exact foldl_keeps (P := d.timeFrame) (fun f i h => h.trans (Dev.setSrc_timeFrame _ _ _ rfl)) d.timeFrame_refl

theorem Dev.stepCounter_timeFrame (d : Dev) (theta : Rat) : d.timeFrame (d.stepCounter theta) := by
  unfold Dev.stepCounter
  extract_lets f e
  have hf : d.timeFrame f := by
    show d.timeFrame (List.foldl _ _ _)
    generalize List.range 16 = l
    exact foldl_keeps (P := d.timeFrame) (fun f g h => h.trans (Dev.marksDue_timeFrame _ _)) d.timeFrame_refl
  have he : d.timeFrame e := hf.trans ((Dev.moveCounter_timeFrame f theta).trans (Dev.dropOutliers_timeFrame _))
  exact foldl_keeps (P := d.timeFrame) (fun f g h => h.trans (Dev.mkPass_timeFrame _ _ _ _)) he

theorem Dev.refuseJump_timeFrame (d : Dev) (theta : Rat) : d.timeFrame (d.refuseJump theta) := by
  unfold Dev.refuseJump
  dsimp only
  have h := Dev.enterHoldover_timeFrame d
  generalize d.enterHoldover = e at h ⊢
  exact h.trans (Dev.timeFrame_of_tms (by rw [Dev.logInternal_tms]; rfl))

theorem Dev.confirmJump_timeFrame (d : Dev) (k : Nat) : d.timeFrame (d.confirmJump k) := by
  unfold Dev.confirmJump
  dsimp only
  generalize ((d.src k).outliers.headD 0) = q
  split
  · split
    · have h := (Dev.stepCounter_timeFrame d q).trans (Dev.enterAcquire_timeFrame (d.stepCounter q))
      generalize (d.stepCounter q).enterAcquire = e at h ⊢
      exact h.trans (Dev.timeFrame_of_tms (Dev.logInternal_tms ..))
    · split
      · exact Dev.refuseJump_timeFrame d _
      · exact d.timeFrame_refl
  · exact d.timeFrame_refl

theorem Dev.outlier_timeFrame (d : Dev) (k : Nat) (theta : Rat) : d.timeFrame (d.outlier k theta) := by
  unfold Dev.outlier
  refine Dev.timeFrame.trans ?_ (Dev.confirmJump_timeFrame _ k)
  exact (Dev.timeFrame_of_tms (e := d.count Reg.tmsOutliers) rfl).trans (Dev.setSrc_timeFrame _ _ _ rfl)

/-- A measurement sets the latest offset, and leaves what sources say. -/
theorem Dev.measurement_timeFrame (d : Dev) (k : Nat) (theta : Rat) (t1 : Int) :
    Dev.timeFrame { d with tms := { d.tms with lastTheta := some theta } } (d.measurement k theta t1) := by
  unfold Dev.measurement
  have h := Dev.roundOpen_tms d theta
  generalize d.roundOpen theta = p at h
  obtain ⟨q, e⟩ := p
  dsimp only at h ⊢
  have h0 : Dev.timeFrame { d with tms := { d.tms with lastTheta := some theta } } (({ e with tms := { e.tms with lastTheta := some theta } } : Dev).wr Reg.tmsOffset (sat32 q)) :=
    Dev.timeFrame_of_tms (by rw [← h]; rfl)
  refine h0.trans ?_
  generalize ({ e with tms := { e.tms with lastTheta := some theta } } : Dev).wr Reg.tmsOffset (sat32 q) = f
  have h1 : f.timeFrame (if f.jumpPending then f.wr Reg.tmsJump (sat32 (-(wholeNs theta))) else f) := by
    split
    · exact Dev.timeFrame_of_tms rfl
    · exact f.timeFrame_refl
  refine h1.trans ?_
  generalize (if f.jumpPending then f.wr Reg.tmsJump (sat32 (-(wholeNs theta))) else f) = g
  have tail : g.timeFrame (
      let d := g.setSrc k { g.src k with lastT1 := some t1 }
      if d.timeState = tsFreerun ∧ d.scr.armed = false then (d.stepCounter theta).enterAcquire
      else if (d.rd Reg.tmsJumpMax : Rat) * 65536 < |theta| then d.outlier k theta
      else
        let d := d.setSrc k { d.src k with outliers := [] }
        if d.timeState = tsPaused then d
        else if d.timeState = tsHoldover ∨ d.timeState = tsFreerun then
          (d.enterAcquire.setJumpPending false).feedServo k theta
        else d.feed k theta) := by
    refine (Dev.setSrc_timeFrame g k { g.src k with lastT1 := some t1 } rfl).trans ?_
    generalize g.setSrc k { g.src k with lastT1 := some t1 } = x
    dsimp only
    split
    · exact (Dev.stepCounter_timeFrame x theta).trans (Dev.enterAcquire_timeFrame _)
    · split
      · exact Dev.outlier_timeFrame x k theta
      · refine (Dev.setSrc_timeFrame x k { x.src k with outliers := [] } rfl).trans ?_
        generalize x.setSrc k { x.src k with outliers := [] } = y
        split
        · exact y.timeFrame_refl
        · split
          · refine ((Dev.enterAcquire_timeFrame y).trans (Dev.timeFrame_of_tms (e := y.enterAcquire.setJumpPending false) rfl)).trans (Dev.feedServo_timeFrame _ k theta)
          · exact Dev.feed_timeFrame y k theta
  cases (g.src k).lastT1 with
  | none => dsimp only; rw [if_neg (by decide)]; exact tail
  | some t =>
    dsimp only
    split
    · exact Dev.timeFrame_of_tms rfl
    · exact tail

theorem Dev.showSource_tms (d : Dev) (k : Nat) : (d.showSource k).tms = d.tms := rfl

theorem Dev.selectSource_timeFrame (d : Dev) : d.timeFrame d.selectSource := by
  unfold Dev.selectSource
  dsimp only
  generalize (if d.fld Reg.tmsCfg Fld.tmsCfgSrcA ≠ 0 ∧ (d.src (d.fld Reg.tmsCfg Fld.tmsCfgSrcA)).qualified = true then
      d.fld Reg.tmsCfg Fld.tmsCfgSrcA
    else if d.fld Reg.tmsCfg Fld.tmsCfgSrcB ≠ 0 ∧ (d.src (d.fld Reg.tmsCfg Fld.tmsCfgSrcB)).qualified = true then
      d.fld Reg.tmsCfg Fld.tmsCfgSrcB else 0) = new
  split
  · exact d.timeFrame_refl
  · have h : d.timeFrame ((d.countIf (decide (d.source ≠ 0)) Reg.tmsSrcLoss).setFld Reg.tmsStat Fld.tmsStatSource new) :=
      Dev.timeFrame_of_tms (by rw [show ∀ e : Dev, (e.setFld Reg.tmsStat Fld.tmsStatSource new).tms = e.tms from fun _ => rfl, Dev.countIf_tms])
    generalize (d.countIf (decide (d.source ≠ 0)) Reg.tmsSrcLoss).setFld Reg.tmsStat Fld.tmsStatSource new = e at h ⊢
    split
    · split
      · exact h.trans (Dev.enterHoldover_timeFrame e)
      · exact h
    · exact h.trans (Dev.timeFrame_of_tms rfl)

/-! Delay exchanges -/

theorem Dev.exchange_unmatched (d : Dev) (k seq : Nat) (t4 : Int) (h : ∀ q, (d.src k).req = some q → q.seq = seq → q.t4 ≠ none) :
    d.exchange k seq t4 = d.count Reg.tmsUnmatched := by
  unfold Dev.exchange
  cases hq : (d.src k).req with
  | none => rfl
  | some q => dsimp only; rw [if_neg (fun x => h q hq x.1 x.2)]

/-- TMS_DELAY shows the source in use alone. -/
theorem Dev.showDelay_tms (d : Dev) (k : Nat) (dl : Rat) : (d.showDelay k dl).tms = d.tms := by
  unfold Dev.showDelay
  have hr := Dev.roundOpen_tms d dl
  generalize d.roundOpen dl = p at hr ⊢
  obtain ⟨v, B⟩ := p
  dsimp only at hr ⊢
  split
  · exact hr
  · exact hr

/-- An exchange taken gives the source its delay and leaves the rest of what the source holds. -/
theorem Dev.takeDelay_src (d : Dev) (k : Nat) (q : DelayReq) (t4 : Int) {y : SyncRec} (h3 : q.sync = some y) :
    (d.takeDelay k q t4).src k = { d.src k with
      req := none
      delay := some (match (d.src k).delay with
        | some x => x + ((((y.t2 - y.t1) + (t4 - q.t3) : Int) : Rat) / 2 - x) / 2 ^ d.fld Reg.tmsServo Fld.tmsServoDlyShift
        | none => (((y.t2 - y.t1) + (t4 - q.t3) : Int) : Rat) / 2) } := by
  unfold Dev.takeDelay
  rw [h3]
  dsimp only
  generalize hA : ({ d.src k with req := none, delay := _ } : SrcRec) = A
  unfold Dev.src
  rw [Dev.showDelay_tms]
  exact Dev.setSrc_src d k A

/-- The first completed exchange of a source gives its delay. -/
theorem Dev.exchange_first (d : Dev) (k seq : Nat) (t4 : Int) {q : DelayReq} {y : SyncRec} (h1 : (d.src k).req = some q) (h2 : q.seq = seq)
    (hp : q.pending = none) (ht : q.t4 = none) (h3 : q.sync = some y) (h4 : (d.src k).delay = none) :
    ((d.exchange k seq t4).src k).delay = some ((((y.t2 - y.t1) + (t4 - q.t3) : Int) : Rat) / 2) := by
  unfold Dev.exchange
  rw [h1]
  dsimp only
  rw [if_pos ⟨h2, ht⟩, if_neg (by rw [hp]; simp)]
  unfold Dev.exchangeDone
  dsimp only
  have hs := Dev.takeDelay_src d k q t4 h3
  rw [h4] at hs
  dsimp only at hs
  generalize d.takeDelay k q t4 = A at hs
  have hc : (A.src k).delay = some ((((y.t2 - y.t1) + (t4 - q.t3) : Int) : Rat) / 2) := by rw [hs]
  rw [h4, hc]
  dsimp only
  rw [if_pos (show (none : Option Rat).isNone = true from rfl)]
  unfold Dev.measureHeld
  split
  · split
    · refine Eq.trans ?_ hc
      exact congrArg (fun c : Bool × Bool × Nat × Option Rat × BitVec 64 × Nat × Nat × Bool => c.2.2.2.1)
        ((Dev.measurement_timeFrame A k _ _).2.2.2.2 k)
    · exact hc
  · exact hc

/-- A later one moves the delay by a part of the difference. -/
theorem Dev.exchange_next (d : Dev) (k seq : Nat) (t4 : Int) {q : DelayReq} {y : SyncRec} {x : Rat} (h1 : (d.src k).req = some q) (h2 : q.seq = seq)
    (hp : q.pending = none) (ht : q.t4 = none) (h3 : q.sync = some y) (h4 : (d.src k).delay = some x) :
    (d.exchange k seq t4).src k = { d.src k with
      req := none
      delay := some (x + ((((y.t2 - y.t1) + (t4 - q.t3) : Int) : Rat) / 2 - x) / 2 ^ d.fld Reg.tmsServo Fld.tmsServoDlyShift) } := by
  unfold Dev.exchange
  rw [h1]
  dsimp only
  rw [if_pos ⟨h2, ht⟩, if_neg (by rw [hp]; simp)]
  unfold Dev.exchangeDone
  dsimp only
  have hs := Dev.takeDelay_src d k q t4 h3
  rw [h4] at hs ⊢
  dsimp only at hs
  generalize d.takeDelay k q t4 = A at hs
  rw [hs]
  exact hs

/-! Blocks on a port -/

theorem Dev.sendPort_out (d : Dev) {p ty b : Nat} {l : LaneId} (hp : d.portLane p = some l) (h : d.sends l) :
    (d.sendPort p ty b).outbox = d.laneOut l ty b ++ d.outbox := by
  unfold Dev.sendPort
  rw [hp]
  exact Dev.sendBlock_outbox d l _ _ h

theorem Dev.sendPort_regs (d : Dev) (p ty b : Nat) : (d.sendPort p ty b).regs = d.regs :=
  Dev.sendPort_keeps (P := fun e => e.regs = d.regs) (Part.same_keeps .regs rfl) rfl

theorem Dev.sendPort_tms (d : Dev) (p ty b : Nat) : (d.sendPort p ty b).tms = d.tms :=
  Dev.sendPort_keeps (P := fun e => e.tms = d.tms) (Part.same_keeps .tms rfl) rfl

end Sys2Proof.Machine
end

