-- ==== Sys2Proof/Laws/Mesh.lean ====
section
/-!
SUPPORT. Mesh ports, contributions sent on, messages of the host channel, and what is sent stays sent.
-/

namespace Sys2Proof.Machine

open Sys2Proof

theorem Dev.sendContribBlock_regs (d : Dev) (p b : Nat) : (d.sendContribBlock p b).regs = d.regs :=
  Dev.sendContribBlock_keeps (P := fun e => e.regs = d.regs) (Part.same_keeps .regs rfl) rfl

theorem Dev.detour_rd (d : Dev) (b t k a : Nat) (h : a ≠ Reg.mshDetours) (h' : a ≠ Reg.mshDetourDrop) : (d.detour b t k).rd a = d.rd a := by
  unfold Dev.detour
  split
  · exact Dev.rd_count_ne _ h'
  · split
    · rw [Dev.rd_of_regs (Dev.sendContribBlock_regs ..)]; exact Dev.rd_count_ne _ h
    · exact Dev.rd_count_ne _ h'

theorem Dev.flood_rd (d : Dev) (src b a : Nat) (h : a ≠ Reg.mshDetours) (h' : a ≠ Reg.mshDetourDrop) : (d.flood src b).rd a = d.rd a := by
  unfold Dev.flood
  refine foldl_keeps (P := fun e => e.rd a = d.rd a) (fun e p he => ?_) rfl
  split
  · split
    · rw [Dev.rd_of_regs (Dev.sendContribBlock_regs ..)]; exact he
    · rw [Dev.detour_rd _ _ _ _ _ h h']; exact he
  · exact he

theorem foldl_one {α : Type} {f : α → Nat → α} {i : Nat} (h : ∀ a j, j ≠ i → f a j = a) :
    ∀ (n : Nat) (a : α), i < n → (List.range n).foldl f a = f a i := by
  have h0 : ∀ (l : List Nat) (a : α), (∀ j ∈ l, j ≠ i) → l.foldl f a = a := by
    intro l
    induction l with
    | nil => intro a _; rfl
    | cons x l ih => intro a hl; rw [List.foldl_cons, h a x (hl x (by simp))]; exact ih a fun j hj => hl j (by simp [hj])
  intro n
  induction n with
  | zero => intro a hi; omega
  | succ n ih =>
    intro a hi
    rw [List.range_succ, List.foldl_append]
    by_cases hn : i = n
    · rw [h0 (List.range n) a (fun j hj => by have := List.mem_range.1 hj; omega), hn]; rfl
    · rw [ih a (by omega)]
      exact h _ n (by omega)

theorem bitAt_pow (i j : Nat) (h : j ≠ i) : bitAt (2 ^ i) j = false := by
  unfold bitAt
  rw [Nat.shiftRight_eq_div_pow]
  apply decide_eq_false
  rcases Nat.lt_or_ge i j with hl | hl
  · rw [Nat.div_eq_of_lt (Nat.pow_lt_pow_right (by omega) hl)]; omega
  · obtain ⟨k, rfl⟩ := Nat.exists_eq_add_of_lt (show j < i by omega)
    rw [show j + k + 1 = (k + 1) + j by omega, Nat.pow_add, Nat.mul_div_cancel _ (Nat.two_pow_pos j), Nat.pow_succ]
    omega

theorem bitAt_pow_same (i : Nat) : bitAt (2 ^ i) i = true := by
  unfold bitAt
  rw [Nat.shiftRight_eq_div_pow, Nat.div_self (Nat.two_pow_pos i)]; rfl

theorem Dev.setPort_port (d : Dev) (p : Nat) (r : PortRec) : (d.setPort p r).port p = r := SMap.get_set_same _ _ _

theorem Dev.setPortState_same (d : Dev) (p st : Nat) (h : st < 8) : (d.setPortState p st).portState p = st := by
  unfold Dev.setPortState Dev.portState
  rw [Dev.fld_setFld_same _ _ _ _ (by decide)]
  exact Nat.mod_eq_of_lt h

theorem Dev.message_accepted (d : Dev) {p : Fin 6} {ty : Nat} {b : BitVec 120} {data : List (BitVec 128)} {f : Dev → Dev} (h : d.accepts p b) :
    d.message p ty b data f = f (d.accepted b) := by
  have e : d.hostReceive p.val ty b.toNat data = (d.accepted b, true) := by
    unfold Dev.hostReceive
    rw [if_neg (by rw [h.1]; simp)]
    dsimp only
    rw [if_neg (by rw [h.2.1]; simp), if_pos h.2.2]
    rfl
  unfold Dev.message
  rw [e]
  rfl

theorem Dev.outGrows.trans {d e f : Dev} (h : d.outGrows e) (h' : e.outGrows f) : d.outGrows f := List.IsSuffix.trans h h'
theorem Dev.outGrows_of {d e : Dev} (h : e.outbox = d.outbox) : d.outGrows e := by unfold Dev.outGrows; rw [h]
theorem Dev.putBlock_grows (d : Dev) (l : LaneId) (c : Bool) (p : BitVec 128) : d.outGrows (d.putBlock l c p) := by
  unfold Dev.outGrows
  rw [Dev.putBlock_outbox]
  exact List.suffix_append ..
theorem Dev.putPaced_grows (d : Dev) (l : LaneId) (c : Bool) (p : BitVec 128) : d.outGrows (d.putPaced l c p) := by
  unfold Dev.putPaced
  split
  · exact Dev.putBlock_grows ..
  · exact (Dev.putBlock_grows d l true _).trans (Dev.putBlock_grows ..)
theorem Dev.sendBlock_grows (d : Dev) (l : LaneId) (c : Bool) (p : BitVec 128) : d.outGrows (d.sendBlock l c p) := by
  have h : d.outGrows (d.linkDue l) := by
    unfold Dev.linkDue
    split
    · exact Dev.outGrows_of rfl
    · exact Dev.putPaced_grows ..
  have hn : d.outGrows (d.sendNow l c p) := by
    unfold Dev.sendNow
    split
    · exact Dev.putPaced_grows ..
    · exact h.trans (Dev.putPaced_grows ..)
  unfold Dev.sendBlock
  split
  · split
    · exact hn
    · exact Dev.outGrows_of rfl
  · exact Dev.outGrows_of rfl
theorem Dev.sendPort_grows (d : Dev) (p ty b : Nat) : d.outGrows (d.sendPort p ty b) := by
  unfold Dev.sendPort
  split
  · exact Dev.sendBlock_grows ..
  · exact Dev.outGrows_of rfl
theorem Dev.sendMessage_grows (d : Dev) (p ty b : Nat) (x : List (BitVec 128)) : (d.sendPort (p + 1) ty b).outGrows (d.sendMessage p ty b x) := by
  unfold Dev.sendMessage
  dsimp only
  split
  · exact foldl_keeps (P := (d.sendPort (p + 1) ty b).outGrows) (fun e y h => h.trans (Dev.sendBlock_grows ..)) (Dev.outGrows_of rfl)
  · exact Dev.outGrows_of rfl
theorem Dev.sendRouted_grows (d : Dev) (m : HostMsg) : d.outGrows (d.sendRouted m) := by
  unfold Dev.sendRouted
  split
  · exact (Dev.sendPort_grows ..).trans (Dev.sendMessage_grows ..)
  · exact Dev.outGrows_of rfl
theorem Dev.setChan_grows (d : Dev) (t : Nat) (c : HostChan) : d.outGrows (d.setChan t c) := List.suffix_rfl
theorem Dev.pumpChan_grows (t n : Nat) : ∀ d : Dev, d.outGrows (d.pumpChan t n) := by
  induction n with
  | zero => intro d; exact Dev.outGrows_of rfl
  | succ n ih =>
    intro d
    unfold Dev.pumpChan
    dsimp only
    split
    · exact Dev.outGrows_of rfl
    · split
      · exact Dev.outGrows.trans (Dev.outGrows.trans (Dev.setChan_grows d t _) (Dev.sendRouted_grows _ _)) (ih _)
      · exact Dev.outGrows_of rfl
theorem Dev.hostSend_grows (d : Dev) (t ty body : Nat) (data : List (BitVec 128)) (del : Option Nat) : d.outGrows (d.hostSend t ty body data del).1 := by
  unfold Dev.hostSend
  dsimp only
  exact Dev.outGrows.trans (Dev.setChan_grows d t _) (Dev.pumpChan_grows t 256 _)

theorem Dev.sendMessage_msh (d : Dev) (p ty b : Nat) (x : List (BitVec 128)) : (d.sendMessage p ty b x).msh = d.msh :=
  Dev.sendMessage_keeps (P := fun e => Part.same d e .msh) (Part.same_keeps .msh rfl) rfl

theorem Dev.sendRouted_msh (d : Dev) (m : HostMsg) : (d.sendRouted m).msh = d.msh :=
  Dev.sendRouted_keeps (P := fun e => Part.same d e .msh) (Part.same_keeps .msh rfl) rfl

theorem Dev.chan_of_msh {d e : Dev} (h : e.msh = d.msh) (t : Nat) : e.chan t = d.chan t := by unfold Dev.chan; rw [h]

theorem Dev.setChan_chan (d : Dev) (t : Nat) (c : HostChan) : (d.setChan t c).chan t = c := SMap.get_set_same _ _ _

theorem Dev.pumpChan_chan (t n : Nat) : ∀ d : Dev, ((d.pumpChan t n).chan t).unacked ++ ((d.pumpChan t n).chan t).queue =
    (d.chan t).unacked ++ (d.chan t).queue ∧ ((d.pumpChan t n).chan t).nextSeq = (d.chan t).nextSeq := by
  induction n with
  | zero => intro d; exact ⟨rfl, rfl⟩
  | succ n ih =>
    intro d
    unfold Dev.pumpChan
    dsimp only
    split
    · exact ⟨rfl, rfl⟩
    · next m rest hq =>
      split
      · have := ih ((d.setChan t { d.chan t with queue := rest, unacked := (d.chan t).unacked ++ [m], since := (if (d.chan t).unacked.isEmpty then d.devNs else (d.chan t).since) }).sendRouted m)
        rw [Dev.chan_of_msh (Dev.sendRouted_msh _ _), Dev.setChan_chan] at this
        refine ⟨this.1.trans ?_, this.2⟩
        rw [hq, List.append_assoc]; rfl
      · exact ⟨rfl, rfl⟩

theorem Dev.hostSend_queued (d : Dev) (t ty body : Nat) (data : List (BitVec 128)) (delivers : Option Nat) :
    d.queued t ty body data delivers (d.hostSend t ty body data delivers).1 := by
  unfold Dev.hostSend Dev.queued
  dsimp only
  have := Dev.pumpChan_chan t 256 (d.setChan t { d.chan t with nextSeq := (d.chan t).nextSeq + 1, queue := (d.chan t).queue ++ [⟨ty, t, (d.chan t).nextSeq % 2 ^ 16, body, data, delivers⟩] })
  rw [Dev.setChan_chan] at this
  refine ⟨this.1.trans ?_, this.2⟩
  rw [List.append_assoc]

end Sys2Proof.Machine
end

