-- ==== Sys2Proof/Laws/HostRings.lean ====
section
/-!
SUPPORT. What raising an interrupt, writing host memory, clearing rings, taking counts and closing descriptors leave of the registers
and of the rings.
-/

namespace Sys2Proof.Machine

open Sys2Proof

theorem Dev.freePages_rd (d : Dev) (x : RecordRec) (a : Nat) (h : a < 0x140000) : (d.freePages x).rd a = d.rd a := by
  have hf : ∀ e : Dev, e.regs = d.regs → e.showStore.rd a = d.rd a := by
    intro e he
    unfold Dev.showStore
    rw [Dev.rd_wr_ne _ _ (by unfold Reg.recHeld; omega), Dev.rd_wr_ne _ _ (by unfold Reg.recPagesFree; omega)]
    exact Dev.rd_of_regs he a
  unfold Dev.freePages
  refine hf _ (foldl_keeps (P := fun e => e.regs = d.regs) (fun e p he => ?_) rfl)
  split <;> exact he

theorem Dev.dropRecord_rd (d : Dev) (q a : Nat) (h : a < 0x140000) : (d.dropRecord q).rd a = d.rd a := by
  unfold Dev.dropRecord
  split
  · rfl
  · exact Dev.freePages_rd _ _ _ h

theorem Dev.deliver_rd (d : Dev) (q a : Nat) (h : a < 0x140000) : (d.deliver q).rd a = d.rd a := by
  unfold Dev.deliver
  split
  · rfl
  · rw [Dev.rd_count_ne _ (by unfold Reg.recDelivered; omega), Dev.dropRecord_rd _ _ _ h]

theorem Dev.deliver_out (d : Dev) (q : Nat) : (d.deliver q).outbox = d.outbox :=
  Dev.deliver_keeps (P := fun e => Part.same d e .outbox) (Part.same_keeps .outbox rfl) rfl

theorem Dev.deliver_hst (d : Dev) (q : Nat) : (d.deliver q).hst = d.hst :=
  Dev.deliver_keeps (P := fun e => Part.same d e .hst) (Part.same_keeps .hst rfl) rfl

/-! Messages at the anchor's link -/

theorem Dev.hostSend_regs (d : Dev) (t ty b : Nat) (x : List (BitVec 128)) (m : Option Nat) : (d.hostSend t ty b x m).1.regs = d.regs :=
  Dev.hostSend_keeps (P := fun e => Part.same d e .regs) (Part.same_keeps .regs rfl) rfl

theorem Dev.hostSend_hst (d : Dev) (t ty b : Nat) (x : List (BitVec 128)) (m : Option Nat) : (d.hostSend t ty b x m).1.hst = d.hst :=
  Dev.hostSend_keeps (P := fun e => Part.same d e .hst) (Part.same_keeps .hst rfl) rfl

theorem Dev.raiseMsix_regs (d : Dev) (v : Nat) : (d.raiseMsix v).regs = d.regs :=
  Dev.raiseMsix_keeps (P := fun e => Part.same d e .regs) (Part.same_keeps .regs rfl) rfl

theorem Dev.queueJob_regs (d : Dev) (src : Nat) (j : HostJob) : (d.queueJob src j).regs = d.regs := rfl

/-- A message issued changes no register outside the record store's. -/
theorem Dev.issueJob_rd (d : Dev) (src : Nat) (j : HostJob) {a : Nat} (h : a < 0x140000) : (d.issueJob src j).rd a = d.rd a := by
  unfold Dev.issueJob
  split
  · dsimp only
    split
    · exact Dev.deliver_rd _ _ _ h
    · rfl
  · dsimp only
    split
    · exact Dev.rd_of_regs (Dev.hostSend_regs ..) ..
    · rfl
  · exact Dev.rd_of_regs (Dev.raiseMsix_regs ..) ..

/-- A message issued leaves the host side but for its waiting messages and pending vectors. -/
theorem Dev.issueJob_hst (d : Dev) (src : Nat) (j : HostJob) : ∃ p, (d.issueJob src j).hst = { d.hst with pba := p } := by
  unfold Dev.issueJob
  split
  · dsimp only
    split
    · exact ⟨_, Dev.deliver_hst _ _⟩
    · exact ⟨_, rfl⟩
  · dsimp only
    split
    · exact ⟨_, Dev.hostSend_hst ..⟩
    · exact ⟨_, rfl⟩
  · unfold Dev.raiseMsix
    dsimp only
    split
    · exact ⟨_, rfl⟩
    · exact ⟨_, rfl⟩

theorem Dev.ownJob_rd (d : Dev) (j : HostJob) {a : Nat} (h : a < 0x140000) : (d.ownJob j).rd a = d.rd a := by
  unfold Dev.ownJob
  split
  · exact Dev.issueJob_rd _ _ _ h
  · rfl

theorem Dev.ownJob_hst (d : Dev) (j : HostJob) : ∃ js p, (d.ownJob j).hst = { d.hst with jobs := js, pba := p } := by
  unfold Dev.ownJob
  split
  · obtain ⟨p, h⟩ := Dev.issueJob_hst d d.devId j
    exact ⟨d.hst.jobs, p, h⟩
  · exact ⟨_, d.hst.pba, rfl⟩

theorem Dev.hostWrite_rd (d : Dev) (addr : Nat) (bs : List Byte) (ro : Bool) (m : Option Nat) {a : Nat} (h : a < 0x140000) :
    (d.hostWrite addr bs ro m).rd a = d.rd a := by
  unfold Dev.hostWrite
  split
  · rfl
  · split
    · exact Dev.ownJob_rd _ _ h
    · refine Dev.foldl_rd _ _ _ (fun e i _ => ?_) d
      exact Dev.rd_of_regs (Dev.hostSend_regs ..) ..

/-- A write that delivers no record changes no register. -/
theorem Dev.hostWrite_plain (d : Dev) (addr : Nat) (bs : List Byte) (ro : Bool) : (d.hostWrite addr bs ro none).regs = d.regs := by
  unfold Dev.hostWrite
  split
  · rfl
  · split
    · unfold Dev.ownJob
      split <;> rfl
    · dsimp only
      exact foldl_keeps (P := fun e => e.regs = d.regs) (fun e i h => (Dev.hostSend_regs ..).trans h) rfl

theorem Dev.hostWrite_hst (d : Dev) (addr : Nat) (bs : List Byte) (ro : Bool) (m : Option Nat) :
    ∃ js p, (d.hostWrite addr bs ro m).hst = { d.hst with jobs := js, pba := p } := by
  unfold Dev.hostWrite
  split
  · exact ⟨d.hst.jobs, d.hst.pba, rfl⟩
  · split
    · exact Dev.ownJob_hst _ _
    · dsimp only
      exact ⟨d.hst.jobs, d.hst.pba, foldl_keeps (P := fun e => e.hst = d.hst) (fun e i h => (Dev.hostSend_hst ..).trans h) rfl⟩

/-- A write issued at once at the anchor. -/
theorem Dev.hostWrite_out (d : Dev) (addr : Nat) (bs : List Byte) (ro : Bool) (m : Option Nat) (hu : d.hostUp = true) (ha : d.isAnchor = true)
    (hj : d.hst.jobs = []) : (d.hostWrite addr bs ro m).outbox = .hostWrite addr bs (ro && d.hst.cfg.relaxed) :: d.outbox := by
  unfold Dev.hostWrite Dev.ownJob
  rw [if_neg (by rw [hu]; decide), if_pos ha, if_pos (by rw [hj]; rfl)]
  cases m with
  | none => rfl
  | some q => exact Dev.deliver_out _ q

theorem Dev.raiseVector_rd (d : Dev) (v : Nat) {a : Nat} (h : a < 0x140000) (h' : a ≠ Reg.hstIrqs) : (d.raiseVector v).rd a = d.rd a := by
  unfold Dev.raiseVector
  split
  · rfl
  · dsimp only
    split
    · exact (Dev.ownJob_rd _ _ h).trans (Dev.rd_count_ne _ h')
    · exact (Dev.rd_of_regs (Dev.hostSend_regs ..) ..).trans (Dev.rd_count_ne _ h')

theorem Dev.raiseVector_hst (d : Dev) (v : Nat) : ∃ js p, (d.raiseVector v).hst = { d.hst with jobs := js, pba := p } := by
  unfold Dev.raiseVector
  split
  · exact ⟨d.hst.jobs, d.hst.pba, rfl⟩
  · dsimp only
    split
    · exact Dev.ownJob_hst _ _
    · exact ⟨d.hst.jobs, d.hst.pba, Dev.hostSend_hst ..⟩

theorem Dev.ringIrq_rd (d : Dev) (r : Nat) {a : Nat} (hs : a < 0x140000) (h : a ≠ Reg.hstIrqs) : (d.ringIrq r).rd a = d.rd a := by
  unfold Dev.ringIrq
  split
  · dsimp only
    split
    · split <;> first | rfl | exact (Dev.raiseVector_rd _ _ hs h).trans rfl
    · exact (Dev.raiseVector_rd _ _ hs h).trans rfl
  · rfl

theorem Dev.pump_empty (d : Dev) (t n : Nat) (h : (d.chan t).queue = []) : d.pumpChan t (n + 1) = d := by
  unfold Dev.pumpChan
  dsimp only
  rw [h]

theorem Dev.deliver_msh (d : Dev) (q : Nat) : (d.deliver q).msh = d.msh :=
  Dev.deliver_keeps (P := fun e => Part.same d e .msh) (Part.same_keeps .msh rfl) rfl

theorem Dev.ringStop_rd (d : Dev) (r a : Nat) (h : a ≠ Reg.hrState r) : (d.ringStop r).rd a = d.rd a := by
  unfold Dev.ringStop
  exact Dev.rd_wr_ne _ _ h

/-- What one ring of clearRings does. -/
def Dev.clearOne (e : Dev) (r : Nat) : Dev :=
  if e.hrOn r then
    let before := e.rd (Reg.hrCfg r)
    let e := (e.setFld (Reg.hrCfg r) Fld.hrCfgEnable 0).ringStop r
    e.logInternal (Reg.hrCfg r) before (e.rd (Reg.hrCfg r)) .ok
  else e

theorem Dev.clearOne_rd (e : Dev) (r a : Nat) (h1 : a ≠ Reg.hrCfg r) (h2 : a ≠ Reg.hrState r) (h3 : a ≠ Reg.logLost) (h4 : a ≠ Reg.logMirrorLost) : (Dev.clearOne e r).rd a = e.rd a := by
  unfold Dev.clearOne
  split
  · dsimp only
    rw [Dev.logInternal_rd _ _ _ _ _ h3 h4, Dev.ringStop_rd _ _ _ h2]
    exact Dev.rd_setFld_ne _ _ _ h1
  · rfl

theorem Dev.clearOne_off (e : Dev) (r : Nat) (hr : r < 32) : (Dev.clearOne e r).hrOn r = false := by
  unfold Dev.clearOne
  split
  · dsimp only
    unfold Dev.hrOn
    rw [Dev.flag_of_rd ((Dev.logInternal_rd _ _ _ _ _ (by simp only [Reg.hrCfg, Reg.logLost]; omega) (by simp only [Reg.hrCfg, Reg.logMirrorLost]; omega)).trans (Dev.ringStop_rd _ _ _ (by simp only [Reg.hrCfg, Reg.hrState]; omega)))]
    unfold Dev.flag
    rw [Dev.fld_setFld_same _ _ _ _ (by decide)]; rfl
  · next h => simpa using h

theorem Dev.clearRings_rd (d : Dev) (a : Nat) (h : ∀ r, r < 32 → a ≠ Reg.hrCfg r ∧ a ≠ Reg.hrState r) (h3 : a ≠ Reg.logLost) (h4 : a ≠ Reg.logMirrorLost) : d.clearRings.rd a = d.rd a := by
  have : ∀ l : List Nat, (∀ r ∈ l, r < 32) → ∀ e : Dev, (l.foldl Dev.clearOne e).rd a = e.rd a := by
    intro l
    induction l with
    | nil => intro _ e; rfl
    | cons n l ih =>
      intro hl e
      have hn := h n (hl n (by simp))
      rw [List.foldl_cons]
      exact (ih (fun r hr => hl r (by simp [hr])) _).trans (Dev.clearOne_rd _ _ _ hn.1 hn.2 h3 h4)
  unfold Dev.clearRings
  generalize hl : List.range 32 = l
  exact (Dev.rd_of_regs rfl _).trans (this l (fun r hr => by rw [← hl] at hr; exact List.mem_range.1 hr) d)

theorem Dev.clearRings_off (d : Dev) (r : Nat) (hr : r < 32) : d.clearRings.hrOn r = false := by
  have : ∀ n, n ≤ 32 → r < n → ∀ e : Dev, ((List.range n).foldl Dev.clearOne e).hrOn r = false := by
    intro n
    induction n with
    | zero => intro _ h; omega
    | succ n ih =>
      intro hn h e
      rw [List.range_succ, List.foldl_append]
      by_cases hrn : r = n
      · subst hrn; exact Dev.clearOne_off _ _ hr
      · unfold Dev.hrOn
        rw [show List.foldl Dev.clearOne (List.foldl Dev.clearOne e (List.range n)) [n] = Dev.clearOne (List.foldl Dev.clearOne e (List.range n)) n from rfl,
          Dev.flag_of_rd (Dev.clearOne_rd _ _ _ (by simp only [Reg.hrCfg]; omega) (by simp only [Reg.hrCfg, Reg.hrState]; omega) (by simp only [Reg.hrCfg, Reg.logLost]; omega) (by simp only [Reg.hrCfg, Reg.logMirrorLost]; omega))]
        exact ih (by omega) (by omega) e
  have h := this 32 (Nat.le_refl _) hr d
  unfold Dev.clearRings
  generalize List.range 32 = l at h ⊢
  exact h

theorem Dev.anchor_of_rd {d e : Dev} (h : e.rd Reg.mshId = d.rd Reg.mshId) : e.anchor = d.anchor ∧ e.isAnchor = d.isAnchor := by
  unfold Dev.isAnchor Dev.anchor Dev.devId
  rw [Dev.fld_of_rd h, Dev.fld_of_rd h]
  exact ⟨rfl, rfl⟩

/-- What one ring takes of an index block. -/
def takeOne (idx : List Word) (e : Dev) (r : Nat) : Dev :=
  if e.hrOn r then
    let v := hostCount idx r
    let e := e.wr (Reg.hrConsume r) v
    let kind := e.hrKind r
    if decide (e.hrState r = 1) && decide (kind = 1 ∨ kind = 2 ∨ kind = 3) && decide (e.hrN r < (e.rd (Reg.hrProduce r) + 2 ^ 32 - v) % 2 ^ 32) then
      e.ringError r 3
    else e
  else e

theorem Dev.ringError_rd (d : Dev) (r c a : Nat) (h1 : a ≠ Reg.hrState r) (h2 : a ≠ Reg.hrErrAt r) (h3 : a ≠ Reg.hstRingErrs) (h4 : a ≠ Reg.logLost) (h5 : a ≠ Reg.logMirrorLost) :
    (d.ringError r c).rd a = d.rd a := by
  unfold Dev.ringError
  dsimp only
  rw [Dev.logInternal_rd _ _ _ _ _ h4 h5, Dev.rd_count_ne _ h3, Dev.rd_wr_ne _ _ h2, Dev.rd_setFld_ne _ _ _ h1, Dev.rd_setFld_ne _ _ _ h1]
  rfl

theorem Dev.ringError_state (d : Dev) (r c : Nat) (hr : r < 32) (hc : c < 4) : (d.ringError r c).hrState r = 2 ∧ (d.ringError r c).fld (Reg.hrState r) Fld.hrStateErrCause = c := by
  have : (d.ringError r c).rd (Reg.hrState r) = ((d.setFld (Reg.hrState r) Fld.hrStateState 2).setFld (Reg.hrState r) Fld.hrStateErrCause c).rd (Reg.hrState r) := by
    unfold Dev.ringError
    dsimp only
    rw [Dev.logInternal_rd _ _ _ _ _ (by simp only [Reg.hrState, Reg.logLost]; omega) (by simp only [Reg.hrState, Reg.logMirrorLost]; omega), Dev.rd_count_ne _ (by simp only [Reg.hrState, Reg.hstRingErrs]; omega),
      Dev.rd_wr_ne _ _ (by simp only [Reg.hrState, Reg.hrErrAt]; omega)]
    rfl
  refine ⟨?_, ?_⟩
  · unfold Dev.hrState
    rw [Dev.fld_of_rd this, Dev.fld_setFld_fld _ _ _ _ _ (by decide) (by decide), Dev.fld_setFld_same _ _ _ _ (by decide)]; rfl
  · rw [Dev.fld_of_rd this, Dev.fld_setFld_same _ _ _ _ (by decide)]
    exact Nat.mod_eq_of_lt (show c < 2 ^ Fld.hrStateErrCause.w from Nat.lt_of_lt_of_le hc (by decide))

theorem Dev.takeOne_rd (idx : List Word) (e : Dev) (r a : Nat) (h0 : a ≠ Reg.hrConsume r) (h1 : a ≠ Reg.hrState r) (h2 : a ≠ Reg.hrErrAt r) (h3 : a ≠ Reg.hstRingErrs) (h4 : a ≠ Reg.logLost) (h5 : a ≠ Reg.logMirrorLost) :
    (takeOne idx e r).rd a = e.rd a := by
  unfold takeOne
  split
  · dsimp only
    split
    · rw [Dev.ringError_rd _ _ _ _ h1 h2 h3 h4 h5]; exact Dev.rd_wr_ne _ _ h0
    · exact Dev.rd_wr_ne _ _ h0
  · rfl

/-- The registers of ring r that an index block concerns. -/
def countRegs (r a : Nat) : Prop := a = Reg.hrCfg r ∨ a = Reg.hrState r ∨ a = Reg.hrConsume r ∨ a = Reg.hrProduce r ∨ a = Reg.hrSize r

theorem Dev.takeOne_other (idx : List Word) (e : Dev) (r j a : Nat) (hr : r < 32) (_hj : j < 32) (h : j ≠ r) (ha : countRegs r a) : (takeOne idx e j).rd a = e.rd a := by
  unfold countRegs at ha
  apply Dev.takeOne_rd <;> (rcases ha with rfl | rfl | rfl | rfl | rfl <;> simp only [Reg.hrCfg, Reg.hrState, Reg.hrConsume, Reg.hrProduce, Reg.hrSize, Reg.hrErrAt, Reg.hstRingErrs, Reg.logLost, Reg.logMirrorLost] <;> omega)

theorem Dev.takeCounts_rd (d : Dev) (idx : List Word) (r a : Nat) (hr : r < 32) (ha : countRegs r a) : (d.takeCounts idx).rd a = (takeOne idx d r).rd a := by
  have st : ∀ (e f : Dev), (∀ a, countRegs r a → e.rd a = f.rd a) → ∀ a, countRegs r a → (takeOne idx e r).rd a = (takeOne idx f r).rd a := by
    intro e f h a ha
    have hc := h _ (.inl rfl : countRegs r (Reg.hrCfg r))
    have hs := h _ (.inr (.inl rfl) : countRegs r (Reg.hrState r))
    have hp := h _ (.inr (.inr (.inr (.inl rfl))) : countRegs r (Reg.hrProduce r))
    have hz := h _ (.inr (.inr (.inr (.inr rfl))) : countRegs r (Reg.hrSize r))
    have w : ∀ (a : Nat), countRegs r a → (e.wr (Reg.hrConsume r) (hostCount idx r)).rd a = (f.wr (Reg.hrConsume r) (hostCount idx r)).rd a := by
      intro a ha
      rw [Dev.rd_wr, Dev.rd_wr, h a ha]
    have c1 : e.hrOn r = f.hrOn r := by unfold Dev.hrOn; rw [Dev.flag_of_rd hc]
    unfold takeOne
    rw [c1]
    split
    · dsimp only
      obtain ⟨E, hE⟩ : ∃ E, E = e.wr (Reg.hrConsume r) (hostCount idx r) := ⟨_, rfl⟩
      obtain ⟨F, hF⟩ : ∃ F, F = f.wr (Reg.hrConsume r) (hostCount idx r) := ⟨_, rfl⟩
      rw [← hE, ← hF] at w ⊢
      have c2 : (decide (E.hrState r = 1) && decide (E.hrKind r = 1 ∨ E.hrKind r = 2 ∨ E.hrKind r = 3) && decide (E.hrN r < (E.rd (Reg.hrProduce r) + 2 ^ 32 - hostCount idx r) % 2 ^ 32)) =
          (decide (F.hrState r = 1) && decide (F.hrKind r = 1 ∨ F.hrKind r = 2 ∨ F.hrKind r = 3) && decide (F.hrN r < (F.rd (Reg.hrProduce r) + 2 ^ 32 - hostCount idx r) % 2 ^ 32)) := by
        unfold Dev.hrKind Dev.hrN Dev.hrState
        rw [Dev.fld_of_rd (w _ (.inr (.inl rfl))), Dev.fld_of_rd (w _ (.inl rfl)), Dev.fld_of_rd (w _ (.inr (.inr (.inr (.inr rfl))))), w _ (.inr (.inr (.inr (.inl rfl))))]
      rw [c2]
      split
      · by_cases hst : a = Reg.hrState r
        · have g : ∀ D : Dev, (D.ringError r 3).rd (Reg.hrState r) = ((D.setFld (Reg.hrState r) Fld.hrStateState 2).setFld (Reg.hrState r) Fld.hrStateErrCause 3).rd (Reg.hrState r) := by
            intro D
            unfold Dev.ringError
            dsimp only
            rw [Dev.logInternal_rd _ _ _ _ _ (by simp only [Reg.hrState, Reg.logLost]; omega) (by simp only [Reg.hrState, Reg.logMirrorLost]; omega), Dev.rd_count_ne _ (by simp only [Reg.hrState, Reg.hstRingErrs]; omega),
              Dev.rd_wr_ne _ _ (by simp only [Reg.hrState, Reg.hrErrAt]; omega)]
            rfl
          rw [hst, g, g]
          unfold Dev.setFld
          rw [Dev.rd_wr_same, Dev.rd_wr_same, Dev.rd_wr_same, Dev.rd_wr_same, w _ (.inr (.inl rfl))]
        · have x : ∀ D : Dev, (D.ringError r 3).rd a = D.rd a := fun D => by
            unfold countRegs at ha
            apply Dev.ringError_rd _ _ _ _ hst <;> (rcases ha with rfl | rfl | rfl | rfl | rfl <;> simp only [Reg.hrCfg, Reg.hrState, Reg.hrConsume, Reg.hrProduce, Reg.hrSize, Reg.hrErrAt, Reg.hstRingErrs, Reg.logLost, Reg.logMirrorLost] <;> omega)
          rw [x, x]; exact w a ha
      · exact w a ha
    · exact h a ha
  have key : ∀ n, n ≤ 32 → (∀ a, countRegs r a → ((List.range n).foldl (takeOne idx) d).rd a = if r < n then (takeOne idx d r).rd a else d.rd a) := by
    intro n
    induction n with
    | zero => intro _ a ha; rw [if_neg (by omega)]; rfl
    | succ n ih =>
      intro hn a ha
      have ih := ih (by omega)
      rw [List.range_succ, List.foldl_append]
      show (takeOne idx (List.foldl (takeOne idx) d (List.range n)) n).rd a = _
      by_cases h : n = r
      · subst h
        rw [if_pos (by omega)]
        refine st _ _ (fun a ha => ?_) a ha
        rw [ih a ha, if_neg (by omega)]
      · rw [Dev.takeOne_other idx _ r n a hr (by omega) h ha, ih a ha]
        by_cases h2 : r < n
        · rw [if_pos h2, if_pos (by omega)]
        · rw [if_neg h2, if_neg (by omega)]
  have := key 32 (Nat.le_refl _) a ha
  rw [if_pos hr] at this
  rw [← this]
  unfold Dev.takeCounts
  generalize List.range 32 = l
  rfl


theorem Dev.raiseVector_hring (d : Dev) (v r : Nat) : (d.raiseVector v).hring r = d.hring r := by
  obtain ⟨js, p, h⟩ := Dev.raiseVector_hst d v
  unfold Dev.hring; rw [h]

theorem Dev.hostWrite_hring (d : Dev) (addr : Nat) (bs : List Byte) (ro : Bool) (m : Option Nat) (r : Nat) :
    (d.hostWrite addr bs ro m).hring r = d.hring r := by
  obtain ⟨js, p, h⟩ := Dev.hostWrite_hst d addr bs ro m
  unfold Dev.hring; rw [h]

theorem Dev.setHring_hring (d : Dev) (r : Nat) (x : HostRing) : (d.setHring r x).hring r = x := SMap.get_set_same _ _ _

/-- The vector of a ring leaves its chain, its descriptor and what it delivers as they are. -/
theorem Dev.ringIrq_hring (d : Dev) (r : Nat) : ∃ t c, (d.ringIrq r).hring r = { d.hring r with raised := t, changed := c } := by
  unfold Dev.ringIrq
  split
  · dsimp only
    split
    · split
      · exact ⟨_, _, Dev.setHring_hring _ _ _⟩
      · exact ⟨_, _, (Dev.raiseVector_hring _ _ _).trans (Dev.setHring_hring _ _ _)⟩
    · split
      · next h => cases h
      · exact ⟨_, _, (Dev.raiseVector_hring _ _ _).trans (Dev.setHring_hring _ _ _)⟩
  · exact ⟨_, _, rfl⟩

theorem Dev.writeStatus_rd (d : Dev) (r : Nat) (m : Option Nat) {a : Nat} (hs : a < 0x140000) (h : a ≠ Reg.hstIrqs) :
    (d.writeStatus r m).rd a = d.rd a := by
  unfold Dev.writeStatus
  split
  · rw [Dev.ringIrq_rd _ _ hs h, Dev.hostWrite_rd _ _ _ _ _ hs]
  · rfl

theorem Dev.writeStatus_hring (d : Dev) (r : Nat) (m : Option Nat) : ∃ t c, (d.writeStatus r m).hring r = { d.hring r with raised := t, changed := c } := by
  unfold Dev.writeStatus
  split
  · obtain ⟨t, c, h⟩ := Dev.ringIrq_hring (d.hostWrite (d.statusAddr r) (leBytes 8 (d.rd (Reg.hrProduce r))) false m) r
    exact ⟨t, c, by rw [h, Dev.hostWrite_hring]⟩
  · exact ⟨_, _, rfl⟩

theorem Dev.closeDescriptor_rd (d : Dev) (r used flags frag rec : Nat) (m : Option Nat) {a : Nat} (hs : a < 0x140000) (h : a ≠ Reg.hstIrqs)
    (h' : a ≠ Reg.hrProduce r) : (d.closeDescriptor r used flags frag rec m).rd a = d.rd a := by
  unfold Dev.closeDescriptor
  dsimp only
  rw [Dev.writeStatus_rd _ _ _ hs h, Dev.rd_wr_ne _ _ h', Dev.hostWrite_rd _ _ _ _ _ hs]

theorem Dev.closeDescriptor_produce (d : Dev) (r used flags frag rec : Nat) (m : Option Nat) (hr : r < 32) :
    (d.closeDescriptor r used flags frag rec m).rd (Reg.hrProduce r) = (d.rd (Reg.hrProduce r) + 1) % 2 ^ 32 := by
  unfold Dev.closeDescriptor
  dsimp only
  rw [Dev.writeStatus_rd _ _ _ (by simp only [Reg.hrProduce]; omega) (by simp only [Reg.hrProduce, Reg.hstIrqs]; omega), Dev.rd_wr_same]

theorem Dev.closeDescriptor_hring (d : Dev) (r used flags frag rec : Nat) (m : Option Nat) :
    ∃ t c, (d.closeDescriptor r used flags frag rec m).hring r = { d.hring r with raised := t, changed := c } := by
  unfold Dev.closeDescriptor
  dsimp only
  generalize hE : Dev.wr _ _ _ = E
  obtain ⟨t, c, h⟩ := Dev.writeStatus_hring E r m
  refine ⟨t, c, h.trans ?_⟩
  rw [← hE]
  show ({ (Dev.hostWrite _ _ _ _ _).hring r with raised := t, changed := c } : HostRing) = _
  rw [Dev.hostWrite_hring]

/-- A descriptor closed at the anchor, with no vector and no message that waits: its device fields, then the status word. -/
theorem Dev.closeDescriptor_out (d : Dev) (r used flags frag rec : Nat) (m : Option Nat) (hr : r < 32) (hu : d.hostUp = true) (ha : d.isAnchor = true)
    (hj : d.hst.jobs = []) (hi : d.flag (Reg.hrCfg r) Fld.hrCfgIrqEn = false) :
    (d.closeDescriptor r used flags frag rec m).outbox =
      .hostWrite (d.statusAddr r) (leBytes 8 ((d.rd (Reg.hrProduce r) + 1) % 2 ^ 32)) false ::
      .hostWrite (d.hrAddr r (d.rd (Reg.hrProduce r)) + 16) (leBytes 4 used ++ leBytes 2 flags ++
        leBytes 2 (d.rd (Reg.hrProduce r) + 1) ++ leBytes 4 frag ++ leBytes 4 rec) false :: d.outbox := by
  have wr1 : ∀ x (y : List Byte), d.hostWrite x y false none = d.emit (.hostWrite x y false) := by
    intro x y
    unfold Dev.hostWrite Dev.ownJob
    rw [if_neg (by rw [hu]; decide), if_pos ha, if_pos (by rw [hj]; rfl)]
    rfl
  unfold Dev.closeDescriptor
  dsimp only
  rw [wr1]
  generalize hE : Output.hostWrite (d.hrAddr r (d.rd (Reg.hrProduce r)) + 16) (leBytes 4 used ++ leBytes 2 flags ++
        leBytes 2 (d.rd (Reg.hrProduce r) + 1) ++ leBytes 4 frag ++ leBytes 4 rec) false = out
  obtain ⟨E, hEd⟩ : ∃ E, E = (d.emit out).wr (Reg.hrProduce r) (d.rd (Reg.hrProduce r) + 1) := ⟨_, rfl⟩
  rw [← hEd]
  have hrd : ∀ a, a ≠ Reg.hrProduce r → E.rd a = d.rd a := fun a h => by rw [hEd, Dev.rd_wr_ne _ _ h]; rfl
  have h2 := (Dev.anchor_of_rd (hrd Reg.mshId (by simp only [Reg.mshId, Reg.hrProduce]; omega))).2
  have h1 : E.hostUp = true := by
    rw [← hu]; unfold Dev.hostUp
    rw [Dev.fld_of_rd (hrd _ (by simp only [Reg.hstLink, Reg.hrProduce]; omega)), Dev.flag_of_rd (hrd _ (by simp only [Reg.hstLink, Reg.hrProduce]; omega)), h2, hEd]
    rfl
  have h5 : E.hst.jobs = [] := by rw [hEd]; exact hj
  unfold Dev.writeStatus
  rw [if_pos h1]
  unfold Dev.ringIrq
  rw [if_neg (by
    rw [Dev.flag_of_rd ((Dev.hostWrite_rd E _ _ _ _ (by simp only [Reg.hrCfg]; omega)).trans (hrd _ (by simp only [Reg.hrCfg, Reg.hrProduce]; omega))) _, hi]; decide)]
  rw [Dev.hostWrite_out _ _ _ _ _ h1 (h2.trans ha) h5]
  have h3 : E.statusAddr r = d.statusAddr r := by
    unfold Dev.statusAddr
    rw [hrd _ (by simp only [Reg.hstStatAddrLo, Reg.hrProduce]; omega), hrd _ (by simp only [Reg.hstStatAddrHi, Reg.hrProduce]; omega)]
  have h4 : E.rd (Reg.hrProduce r) = (d.rd (Reg.hrProduce r) + 1) % 2 ^ 32 := by rw [hEd, Dev.rd_wr_same]
  rw [h3, h4, hEd]
  rfl

theorem Dev.logDelivered_regs (d : Dev) (k : Nat) : (d.logDelivered k).regs = d.regs :=
  Dev.logDelivered_keeps (P := fun e => Part.same d e .regs) (Part.same_keeps .regs rfl) rfl
theorem Dev.logDelivered_hst (d : Dev) (k : Nat) : (d.logDelivered k).hst = d.hst :=
  Dev.logDelivered_keeps (P := fun e => Part.same d e .hst) (Part.same_keeps .hst rfl) rfl

theorem Dev.trimSums_rings (d : Dev) : d.trimSums.hst.rings = d.hst.rings := by
  unfold Dev.trimSums; split <;> rfl
theorem Dev.trimSums_regs (d : Dev) : d.trimSums.regs = d.regs := by
  unfold Dev.trimSums; split <;> rfl

/-- Only the place of a packed ring's next entry moves. -/
theorem Dev.popPacked_hring (d : Dev) (r n : Nat) : ∃ k, (d.popPacked r n).hring r = { d.hring r with next := k } := by
  have hl : ∀ (D : Dev) k, (D.logDelivered k).hring r = D.hring r := by
    intro D k; unfold Dev.hring; rw [Dev.logDelivered_hst]
  have ht : ∀ D : Dev, D.trimSums.hring r = D.hring r := by
    intro D; unfold Dev.hring; rw [Dev.trimSums_rings]
  unfold Dev.popPacked
  dsimp only
  split
  · exact ⟨_, (ht _).trans (Dev.setHring_hring _ _ _)⟩
  · split
    · exact ⟨_, (hl _ _).trans (Dev.setHring_hring _ _ _)⟩
    · exact ⟨_, rfl⟩

theorem Dev.popPacked_regs (d : Dev) (r n : Nat) : ∃ e : Dev, e.regs = d.regs ∧ d.popPacked r n = e.countN (Reg.hrDelivered r) n := by
  unfold Dev.popPacked
  dsimp only
  refine ⟨_, ?_, rfl⟩
  split
  · exact Dev.trimSums_regs _
  · split
    · exact Dev.logDelivered_regs _ _
    · rfl

theorem Dev.ringIrq_sums (d : Dev) (r : Nat) : (d.ringIrq r).hst.sums = d.hst.sums := by
  have hv : ∀ (D : Dev) v, (D.raiseVector v).hst.sums = D.hst.sums := by
    intro D v
    obtain ⟨js, p, h⟩ := Dev.raiseVector_hst D v
    rw [h]
  unfold Dev.ringIrq
  split
  · dsimp only
    split
    · split
      · rfl
      · rw [hv]; rfl
    · split
      · rfl
      · rw [hv]; rfl
  · rfl

theorem Dev.closeDescriptor_sums (d : Dev) (r used flags frag rec : Nat) (m : Option Nat) : (d.closeDescriptor r used flags frag rec m).hst.sums = d.hst.sums := by
  have hw : ∀ (D : Dev) x y z w, (D.hostWrite x y z w).hst.sums = D.hst.sums := by
    intro D x y z w
    obtain ⟨js, p, h⟩ := Dev.hostWrite_hst D x y z w
    rw [h]
  unfold Dev.closeDescriptor Dev.writeStatus
  dsimp only
  split
  · rw [Dev.ringIrq_sums, hw]
    exact hw ..
  · exact hw ..

end Sys2Proof.Machine
end

