-- ==== Sys2Proof/Laws/LiveWrites.lean ====
section
/-!
SUPPORT. Live writes: what the entry of a live write leaves, and the way from a command to its live write.
-/

namespace Sys2Proof.Machine

open Sys2Proof

/-- The entry of a live write touches the log and its four counters only. -/
theorem Dev.liveEntry_rd (d : Dev) (o : Origin) (a old new : Nat) (st : Status) {b : Nat} (h : b ≠ Reg.logLost) (hm : b ≠ Reg.logMirrorLost)
    (hu : b ≠ Reg.logUnlogged) (hr : b ≠ Reg.logRefusals) : (d.liveEntry o a old new st).rd b = d.rd b := by
  have h0 : (d.countIf (decide (st ≠ .ok)) Reg.logRefusals).rd b = d.rd b := Dev.rd_countIf_ne _ _ hr
  unfold Dev.liveEntry Dev.setResult; dsimp only
  rw [← h0]
  generalize d.countIf (decide (st ≠ .ok)) Reg.logRefusals = e
  split
  · split
    · exact Dev.rd_count_ne _ hu
    · exact Dev.logWrite_rd e o a old new st h hm
  · rfl

/-- The other parts are as before. -/
theorem Dev.liveEntry_parts (d : Dev) (o : Origin) (a old new : Nat) (st : Status) :
    d.keepsBut [.regs, .log] (d.liveEntry o a old new st) := by
  have h0 : d.keepsBut [.regs, .log] (d.countIf (decide (st ≠ .ok)) Reg.logRefusals) := by
    unfold Dev.countIf; split <;> (intro p hp; cases p <;> first | rfl | cases hp)
  unfold Dev.liveEntry Dev.setResult; dsimp only
  generalize d.countIf (decide (st ≠ .ok)) Reg.logRefusals = e at h0
  have h1 : e.keepsBut [.regs, .log] (e.logWrite o a old new st) := by
    intro p hp
    cases p <;> first | (cases hp; done) | exact Dev.logWrite_caps .. | exact Dev.logWrite_part .. | exact Dev.logWrite_step .. |
      exact Dev.logWrite_gid .. | exact Dev.logWrite_testEn .. | exact Dev.logWrite_devNs .. | exact Dev.logWrite_inReset .. |
      exact Dev.logWrite_freeCtr .. | exact Dev.logWrite_outbox .. | exact Dev.logWrite_ing .. | exact Dev.logWrite_prm .. |
      exact Dev.logWrite_scr .. | exact Dev.logWrite_tms .. | exact Dev.logWrite_acq .. | exact Dev.logWrite_store .. |
      exact Dev.logWrite_stk .. | exact Dev.logWrite_msh .. | exact Dev.logWrite_hst .. | exact Dev.logWrite_wear .. |
      exact Dev.logWrite_fab .. | exact Dev.logWrite_num .. | exact Dev.logWrite_boot .. | exact Dev.logWrite_clk .. |
      exact Dev.logWrite_pwr ..
  split
  · split
    · intro p hp; have q := h0 p hp; cases p <;> first | exact q | cases hp
    · intro p hp; have q := h0 p hp; have q' := h1 p hp
      cases p <;> first | exact q'.trans q | cases hp
  · intro p hp; have q := h0 p hp; cases p <;> first | exact q | cases hp

/-- The entry of a live write that is written down. -/
theorem Dev.liveEntry_gains (d : Dev) (o : Origin) (a old new : Nat) (st : Status) (h : st = .ok ∨ (d.logMandatory && d.logFull) = false) :
    d.log.gains (d.liveEntry o a old new st).log o a old new st := by
  have hm : (d.countIf (decide (st ≠ .ok)) Reg.logRefusals).logMandatory = d.logMandatory := by
    unfold Dev.logMandatory; rw [Dev.rd_countIf_ne _ _ (by decide)]
  have hf : (d.countIf (decide (st ≠ .ok)) Reg.logRefusals).logFull = d.logFull := by
    unfold Dev.logFull; rw [Dev.countIf_log]
  have hl : (d.countIf (decide (st ≠ .ok)) Reg.logRefusals).log = d.log := Dev.countIf_log ..
  unfold Dev.liveEntry Dev.setResult; dsimp only
  generalize d.countIf (decide (st ≠ .ok)) Reg.logRefusals = e at hm hf hl
  by_cases ho : e.log.opened = true
  · rw [if_pos ho, if_neg]
    · have g := Dev.logWrite_gains e o a old new st ho
      unfold LogSt.gains at g ⊢
      rw [hl] at g ho
      rw [if_pos ho] at g ⊢
      exact g
    · rw [hm, hf]
      rcases h with h | h
      · simp [h]
      · rw [Bool.and_assoc, h]; simp
  · rw [if_neg ho]
    unfold LogSt.gains
    rw [← hl, if_neg ho]
    exact ⟨rfl, rfl⟩

/-- An accepted live write is logged once the log is open. -/
theorem Dev.liveEntry_ok_written (d : Dev) (o : Origin) (a old new : Nat) (h : d.log.opened = true) :
    (d.liveEntry o a old new .ok).log.written = d.log.written + 1 := by
  unfold Dev.liveEntry Dev.setResult Dev.countIf Dev.logWrite Dev.countIf
  simp only [h, ne_eq, not_true_eq_false, decide_false, Bool.false_and, if_true, Bool.false_eq_true, if_false]
  split <;> split <;> rfl

/-- A refused live write is counted. -/
theorem Dev.liveEntry_refusals (d : Dev) (o : Origin) (a old new : Nat) {st : Status} (h : st ≠ .ok) :
    (d.liveEntry o a old new st).rd Reg.logRefusals = satInc 32 1 (d.rd Reg.logRefusals) := by
  have h0 : (d.countIf (decide (st ≠ .ok)) Reg.logRefusals).rd Reg.logRefusals = satInc 32 1 (d.rd Reg.logRefusals) := by
    rw [decide_eq_true h]; exact Dev.rd_count _ _
  unfold Dev.liveEntry Dev.setResult; dsimp only
  rw [← h0]
  generalize d.countIf (decide (st ≠ .ok)) Reg.logRefusals = e
  split
  · split
    · exact Dev.rd_count_ne _ (by decide)
    · exact Dev.logWrite_rd e o a old new st (by decide) (by decide)
  · rfl

/-- The checks of Table 11.13 answer a refusal, a policy or a range status. -/
theorem Dev.liveFault_ne {d : Dev} {o : Origin} {r : RegRow} {a old new : Nat} {st : Status}
    (h : d.liveFault o r a old new = some st) : st ≠ .ok := by
  unfold Dev.liveFault at h
  repeat' split at h
  all_goals cases h
  all_goals decide

/-- A command of `liveTarget` is the live write it names. -/
theorem exec_live {i : Instr} {o : Origin} {a v : Nat} (h : liveTarget i = some (o, a, v)) (ha : a % 4 = 0) (s : State) :
    exec i s = s.up fun d => d.put o a v := by
  cases i <;> simp only [liveTarget, Option.some.injEq, Prod.mk.injEq, reduceCtorEq] at h <;> obtain ⟨rfl, rfl, rfl⟩ := h
  case registerWrite x y z =>
    show (s.up fun d => d.put _ y.toNat _) = _
    congr 1; funext d
    unfold Dev.put Dev.busWrite
    have e : y.toNat / 4 * 4 / 4 * 4 = y.toNat / 4 * 4 := by omega
    dsimp only
    rw [e]
  all_goals rfl

/-- A register write that meets the checks is a live write. -/
theorem Dev.put_live {d : Dev} {o : Origin} {r : RegRow} {a v : Nat} (h : d.meetsChecks r a v) :
    d.put o a v = (match d.liveFault o r a (d.inHand a) (d.liveWord r a v) with
      | some st => d.liveEntry o a (d.inHand a) v st
      | none => (d.liveApply r a (d.liveWord r a v)).liveEntry o a (d.inHand a)
          (if ofClass r 3 then (d.liveApply r a (d.liveWord r a v)).rd a else d.liveWord r a v) .ok) := by
  obtain ⟨-, hm, hr, hl, hres, hhr, hg, hf, h4, hv⟩ := h
  have ea : a / 4 * 4 = a := by omega
  unfold Dev.put Dev.busWrite
  dsimp only
  rw [ea, Nat.mod_eq_of_lt hv, if_neg (by rintro ⟨h1, h2⟩; have := hm h1; omega), hr]
  dsimp only
  rw [if_neg (by simp [hl, hres]), if_neg hhr]
  unfold Dev.liveWrite
  rw [if_neg (by simp [hf])]
  dsimp only
  show (match d.liveFault o r a (d.inHand a) (d.liveWord r a v) with
    | some st => _
    | none => _ : Dev × Option Status).1 = _
  cases d.liveFault o r a (d.inHand a) (d.liveWord r a v) with
  | some st => rfl
  | none => dsimp only; rw [if_neg hg]; rfl

end Sys2Proof.Machine
end

