-- ==== Sys2Proof/Laws/Stacks.lean ====
section
/-!
SUPPORT. Stacks: states and records read back, and what failure leaves.
-/

namespace Sys2Proof.Machine

open Sys2Proof

@[simp] theorem Dev.setStack_rec (d : Dev) (s : Nat) (r : StkRec) : (d.setStack s r).stackRec s = r := SMap.get_set_same _ _ _
theorem Dev.setStack_rec_ne (d : Dev) {s t : Nat} (r : StkRec) (h : t ≠ s) : (d.setStack s r).stackRec t = d.stackRec t :=
  SMap.get_set_ne _ _ h

theorem Dev.hpcGate_regs (d : Dev) (t : GateTarget) : (d.hpcGate t).regs = d.regs := by unfold Dev.hpcGate; split <;> rfl
theorem Dev.hpcGate_log (d : Dev) (t : GateTarget) : (d.hpcGate t).log = d.log := by unfold Dev.hpcGate; split <;> rfl
theorem Dev.hpcGate_stk (d : Dev) (t : GateTarget) : (d.hpcGate t).stk = d.stk := by unfold Dev.hpcGate; split <;> rfl
theorem Dev.hmapUpdate_stk (d : Dev) (ofs lo w v : Nat) : (d.hmapUpdate ofs lo w v).stk = d.stk := rfl

theorem Dev.hmapChange_stk (d : Dev) (ofs lo w v : Nat) : (d.hmapChange ofs lo w v).stk = d.stk := by unfold Dev.hmapChange; split <;> rfl
theorem Dev.hmapChange_log (d : Dev) (ofs lo w v : Nat) : (d.hmapChange ofs lo w v).log = d.log := by unfold Dev.hmapChange; split <;> rfl

/-- A change of the health map leaves every register above it. -/
theorem Dev.hmapChange_rd (d : Dev) (ofs lo w v : Nat) {a : Nat} (ho : ofs < 0x1000) (h : 0x10000 ≤ a) :
    (d.hmapChange ofs lo w v).rd a = d.rd a := by
  unfold Dev.hmapChange; split
  · exact Dev.hmapUpdate_rd _ _ _ _ _ ho h
  · rfl

theorem Dev.setStackState_state (d : Dev) {s st : Nat} (hs : s < 12) (h : st < 8) : (d.setStackState s st).stackState s = st := by
  unfold Dev.setStackState Dev.stackState
  dsimp only
  refine (Dev.fld_of_rd (Dev.rd_wr_ne _ _ (by simp only [Reg.stkScfg, Reg.dieStat]; omega)) _).trans ?_
  rw [Dev.fld_setFld_same _ _ _ _ (by decide)]
  exact Nat.mod_eq_of_lt h

theorem Dev.setStackState_fld (d : Dev) {s st : Nat} (hs : s < 12) (f : Fld) (hf : f.lo + f.w ≤ 32) (hd : f.lo + f.w ≤ 3 ∨ 6 ≤ f.lo) :
    (d.setStackState s st).fld (Reg.stkScfg s) f = d.fld (Reg.stkScfg s) f := by
  unfold Dev.setStackState
  dsimp only
  refine (Dev.fld_of_rd (Dev.rd_wr_ne _ _ (by simp only [Reg.stkScfg, Reg.dieStat]; omega)) _).trans ?_
  refine Dev.fld_setFld_fld _ _ _ _ _ hf ?_
  simp only [Fld.stkScfgState]; omega

theorem Dev.setStackState_rd (d : Dev) {s st a : Nat} (h : a ≠ Reg.stkScfg s) (h' : a ≠ Reg.dieStat (s / 3)) :
    (d.setStackState s st).rd a = d.rd a := by
  unfold Dev.setStackState
  dsimp only
  rw [Dev.rd_wr_ne _ _ h', Dev.rd_setFld_ne _ _ _ h]

theorem Dev.setStackState_up (d : Dev) {s st : Nat} :
    bitAt ((d.setStackState s st).rd (Reg.dieStat (s / 3))) (4 + s % 3) = decide (st = skUp) := by
  unfold Dev.setStackState
  dsimp only
  exact Dev.bitAt_wr_putBit_same _ _ _ _ (by omega)

theorem Dev.setStackState_stk (d : Dev) (s st : Nat) : (d.setStackState s st).stk = d.stk := rfl

/-- What a stack that goes out does to the map: its own entry, and its die's where it was UP. -/
def Dev.stackMap (d : Dev) (s st : Nat) : Dev :=
  let e := (d.setStackState s st).setStack s { (d.setStackState s st).stackRec s with failedAt := some (d.setStackState s st).devNs }
  let e := e.hmapChange (hmStack s) 0 3 st
  if bitAt (d.rd (Reg.stkScfg s)) 3 && bitAt (d.rd (Reg.stkScfg s)) 4 && !bitAt (d.rd (Reg.stkScfg s)) 5 then
    e.hmapChange (hmDie (s / 3)) 8 3 (bitsOf (e.rd (Reg.dieStat (s / 3))) 4 3)
  else e

theorem Dev.stackOut_eq (d : Dev) (s st : Nat) : d.stackOut s st =
    ((d.stackMap s st).logInternal (Reg.stkScfg s) (d.rd (Reg.stkScfg s)) ((d.stackMap s st).rd (Reg.stkScfg s)) .degraded).hpcGate
      (.stackPhy ⟨s % 12, Nat.mod_lt _ (by decide)⟩) := rfl

theorem Dev.stackMap_rd (d : Dev) {s st a : Nat} (hs : s < 12) (h : 0x10000 ≤ a) : (d.stackMap s st).rd a = (d.setStackState s st).rd a := by
  unfold Dev.stackMap
  dsimp only
  split
  · rw [Dev.hmapChange_rd _ _ _ _ _ (by simp only [hmDie]; omega) h, Dev.hmapChange_rd _ _ _ _ _ (by simp only [hmStack]; omega) h]; rfl
  · rw [Dev.hmapChange_rd _ _ _ _ _ (by simp only [hmStack]; omega) h]; rfl

theorem Dev.stackMap_stk (d : Dev) (s st : Nat) : (d.stackMap s st).stk = (d.setStack s { d.stackRec s with failedAt := some d.devNs }).stk := by
  unfold Dev.stackMap
  dsimp only
  split
  · rw [Dev.hmapChange_stk, Dev.hmapChange_stk]; rfl
  · rw [Dev.hmapChange_stk]; rfl

theorem Dev.stackMap_log (d : Dev) (s st : Nat) : (d.stackMap s st).log = d.log := by
  unfold Dev.stackMap
  dsimp only
  split
  · rw [Dev.hmapChange_log, Dev.hmapChange_log]; rfl
  · rw [Dev.hmapChange_log]; rfl

theorem Dev.stackOut_rd (d : Dev) {s st a : Nat} (hs : s < 12) (h : 0x10000 ≤ a) (hl : a ≠ Reg.logLost) (hm : a ≠ Reg.logMirrorLost) :
    (d.stackOut s st).rd a = (d.setStackState s st).rd a := by
  rw [Dev.stackOut_eq, Dev.rd_of_regs (Dev.hpcGate_regs _ _), Dev.logInternal_rd _ _ _ _ _ hl hm, Dev.stackMap_rd d hs h]

theorem Dev.stackOut_state (d : Dev) {s st : Nat} (hs : s < 12) (h : st < 8) : (d.stackOut s st).stackState s = st := by
  refine (Dev.fld_of_rd (Dev.stackOut_rd d hs ?_ ?_ ?_) _).trans (Dev.setStackState_state d hs h)
  · simp only [Reg.stkScfg]; omega
  · simp only [Reg.stkScfg, Reg.logLost]; omega
  · simp only [Reg.stkScfg, Reg.logMirrorLost]; omega

theorem Dev.stackOut_stk (d : Dev) (s st : Nat) : (d.stackOut s st).stk = (d.setStack s { d.stackRec s with failedAt := some d.devNs }).stk := by
  rw [Dev.stackOut_eq, Dev.hpcGate_stk, Dev.logInternal_stk, Dev.stackMap_stk]

theorem Dev.stackOut_gains (d : Dev) {s st : Nat} (hs : s < 12) : d.log.gains (d.stackOut s st).log (internalOrigin (Reg.stkScfg s)) (Reg.stkScfg s) (d.rd (Reg.stkScfg s))
    ((d.stackOut s st).rd (Reg.stkScfg s)) .degraded := by
  rw [Dev.stackOut_rd d hs (by simp only [Reg.stkScfg]; omega) (by simp only [Reg.stkScfg, Reg.logLost]; omega)
    (by simp only [Reg.stkScfg, Reg.logMirrorLost]; omega), Dev.stackOut_eq, Dev.hpcGate_log,
    Dev.stackMap_rd d hs (by simp only [Reg.stkScfg]; omega), ← Dev.stackMap_log d s st]
  exact Dev.logInternal_gains _ _ _ _ _

end Sys2Proof.Machine
end

