-- ==== Sys2Proof/WellFormed.lean ====
section
/-!
DEFINITION. What a well-formed command is: operands that its rule allows. Constructors' types bound most operands already; the
meanings are total and do not rest on this.
-/

namespace Sys2Proof

/-- A register address is a multiple of 4 ("Registers and access"). -/
def aligned (a : BitVec 24) : Bool := decide (a.toNat % 4 = 0)

/-- A control block's LEN is the number of data blocks that follow, at most 256 (Table 10.5). -/
def messageWf (b : BitVec 120) (n : Nat) : Bool := decide (bitsOf b.toNat 99 9 = n) && decide (n ≤ 256)

/-- A DMAW or DMAR moves 1 to 4,096 bytes (Table 10.5). -/
def bytesWf (b : BitVec 120) : Bool := decide (1 ≤ bitsOf b.toNat 5 13) && decide (bitsOf b.toNat 5 13 ≤ 4096)

/-- Engines and banks stand at most once in the outcome of a self-test. -/
def SelfTestResult.wf (r : SelfTestResult) : Bool := decide r.failedEngines.Nodup

/-- Failed clusters and links stand at most once in the outcome of a start-up step. -/
def StartEnv.wf (e : StartEnv) : Bool :=
  decide e.scrimFailed.Nodup && decide e.statsFailed.Nodup && decide e.linksDown.Nodup

/-- A command whose operands its rule allows. -/
def Instr.wf : Instr → Bool
  | .registerWrite _ a _ => aligned a
  | .multiRegisterRead _ a => aligned a
  | .clkLossClear .. | .logFwdWrite .. | .eventWindowOpen .. | .admission .. | .release .. | .decWidthExpiry ..
  | .screedArm | .armWaitExpiry | .blockReceived .. | .codewordDecoded .. | .dataBlock .. | .tagBlock ..
  | .linkBlockRx .. | .linkBlockTx .. | .fillerInsert .. | .adminOffSet .. | .adminOffClear .. | .lossOfSignal ..
  | .signalDetected .. | .huntWindowEnd .. | .eyeMeasurement .. | .trainingWindowEnd .. | .backoffEnd ..
  | .sampleDelivered | .keepEntry .. | .ringWrite .. | .stippleCaptureEnd .. => true
  | .captureCopyOut _ _ _ bad => decide bad.Nodup
  | .freeAppendixBlock _ producer data _ => decide (data.length % 8 = 0) && decide (producer ≠ 0xFFFF)
  | .freeWaitExpiry .. | .profileWrite .. | .hawkPreWrite .. | .hawkPostWrite .. | .captureSettingWrite ..
  | .engineIssue .. | .countToken .. | .tokenArrival .. | .wheelCrossing .. | .paceWindow .. => true
  | .stallTick bankHeld => decide bankHeld.Nodup
  | .coreFence .. => true
  | .selfTestComplete _ r => r.wf
  | .coreLoadComplete .. | .loadErrorRetire .. | .dieLinkFlit .. | .dieLinkLossOfLock .. | .dieLinkRetrain ..
  | .switchRequest .. | .ctxselWrite .. | .switchAccept .. | .markerSend .. | .receiveSwitchMarker ..
  | .counterUnitSwitch .. | .sectionLoad .. | .dripTimerExpiry .. | .dripSpillComplete .. | .dripRefill ..
  | .drpFail .. | .creditToken .. | .stackSlot .. | .blockStaged .. | .refresh .. | .stackFailed ..
  | .stackTrainingComplete .. | .stackTrainingFail .. => true
  | .stackTestComplete _ _ bad => decide bad.Nodup
  | .mirrorTakeover .. | .skewNotice .. | .stepClose .. | .scaleToken .. => true
  | .scrimPartial _ _ outs _ badWords => decide (outs < 2 ^ 64) && decide badWords.Nodup
  | .epochDigest .. | .shadowCopy .. | .scaleLimitsWrite .. | .scaleHoldWrite .. | .adaptEnWrite ..
  | .networkInput .. | .notice .. | .localDeadline .. | .collectionClose .. | .groupResult .. | .headroomWindow
  | .setpointRaise .. | .setpointSettled | .mnCtlWrite .. | .mnThrWrite .. | .mnPrescaleWrite .. | .mnHoldnsWrite ..
  | .grpAbsentWrite .. | .rateFrame .. => true
  | .safeEntry _ rows => decide rows.Nodup
  | .sync .. | .announce .. | .announceTimeout .. | .delayReq .. | .delayResp .. | .tsyncRx .. | .tsyncTimeout ..
  | .tsyncTx .. | .tinfoTx .. | .tinfoRx .. | .tdreqRx .. | .tdreqTx .. | .tdrespRx .. | .jumpAccept .. | .jumpStep
  | .ptAsymWrite .. | .jumpMaxWrite .. => true
  | .mkModeArm _ _ v => decide (bitsOf v.toNat 0 2 ≠ 0)
  | .mkModeOff _ _ v => decide (bitsOf v.toNat 0 2 = 0)
  | .mkParamWrite .. | .mark .. | .markBlock .. | .tmarkWidthEnd .. | .helloTx .. | .hello .. | .keepaliveExpiry ..
  | .contrib .. => true
  | .wreq _ b data => messageWf b data.length
  | .wcpl _ b data => messageWf b data.length
  | .dmaw _ b data => messageWf b data.length && bytesWf b && decide (data.length = ceilDiv (bitsOf b.toNat 5 13) 16)
  | .dmar _ b host => messageWf b 0 && bytesWf b && decide (host.length = bitsOf b.toNat 5 13)
  | .dmac _ b data => messageWf b data.length
  | .irq _ b => messageWf b 0
  | .hstate _ b => messageWf b 0
  | .hstateTx => true
  | .ack _ b => messageWf b 0
  | .ackTx .. | .hostResend .. => true
  | .barAccess a _ _ => decide (a.toNat % 4 = 0)
  | .windowReadTimeout .. | .linkDown | .perstN .. | .d3hot .. | .poll => true
  | .pollData _ idx => decide (idx.length = 64)
  | .pollExpiry .. | .descriptorFill .. | .flushExpiry .. | .labelEntry .. | .irqHoldExpiry .. | .hrEnableWrite ..
  | .recordExpired .. | .recordStoreUe .. | .channelFailed .. | .porRelease .. => true
  | .startUpStep env => env.wf
  | .sectionDigest .. | .sectionWatchdogExpiry .. | .bootWatchdogExpiry .. | .attestationRequest .. | .attestationReport
  | .checkpoint | .checkpointSignature | .logMirrorWrite | .logMemoryUe .. | .wearWindow => true
  | .temperatureRead dieTemps stackTemps moduleTemps rails _ =>
    decide (dieTemps.length = 5) && decide (rails.length = 5) && decide (stackTemps.length = 12) && decide (moduleTemps.length = 8)
  | .referenceQualified .. | .referenceLost .. | .relock .. | .timeoscRequalified | .loopLock .. | .loopLockTimeout
  | .dividerStep .. | .forcedSwitch .. | .clkGateWrite .. | .quiesceAck .. | .gateTimeout .. | .hpcGateRetry ..
  | .auxCtlWrite .. | .pinWrite .. | .domainPowerGood | .railUndervoltage | .railRecovery .. | .porAssert ..
  | .devRstRelease => true
  | .mgtRequest _ _ _ ofs _ _ => aligned ofs
  | .mgtWaitExpiry | .flashRead .. | .flashProgram .. | .flashErase64k .. | .flashOperationDone ..
  | .channelTrainingComplete .. | .ethernetLinkChange .. | .stackInterfaceRetrain .. => true

end Sys2Proof
end

