-- ==== Sys2Proof/Tests/Slice0.lean ====
section
/-!
SUPPORT. Tests: states that meet the hypotheses of the statements (witness_<statement>), ill-formed commands that WellFormed refuses
(test_wf_…), and examples worked in the spec (test_…_example).
-/

namespace Sys2Proof.Tests

open Sys2Proof Sys2Proof.Machine

/-! States for the witnesses: a device out of reset, with the units of a ZRT-6404 fitted and network time at 50 s -/

/-- The device after reset, released, fitted, 100 s of device time on. -/
def on : Dev :=
  ({ Dev.init with
      inReset := false, devNs := 100000000000, tms := { Dev.init.tms with ctr := 50000000000 * 2 ^ 40, ethUp := true } }.wr
    Reg.glbFittedLo 0xFFFFFFFF).wr Reg.glbFittedHi 0x1001F

/-- A state without waiting commands. -/
def at_ (d : Dev) : State := ⟨d, []⟩

/-- A host origin. -/
def host : Origin := ⟨.host, 0⟩

/-- Lane l put in a state, with a record. -/
def laneOn (l : LaneId) (k : Nat) (r : LaneRec) : Dev := (on.setFld (laneReg l Reg.ingLstate) Fld.ingLstateState k).setLane l r

/-! Lanes -/

theorem witness_LaneSignal :
    ((laneOn 3 lsTrain LaneRec.init).alive = true ∧ (laneOn 3 lsTrain LaneRec.init).laneState 3 = lsTrain) ∧
    ((laneOn 87 lsService LaneRec.init).alive = true ∧ (laneOn 87 lsService LaneRec.init).laneState 87 = lsService) ∧
    ((laneOn 3 lsHunt LaneRec.init).alive = true ∧ (laneOn 3 lsHunt LaneRec.init).laneState 3 = lsHunt) ∧
    ((laneOn 3 lsBackoff LaneRec.init).alive = true ∧ (laneOn 3 lsBackoff LaneRec.init).laneState 3 = lsBackoff ∧
      ((laneOn 3 lsBackoff LaneRec.init).lane 3).los = true) := by decide

theorem witness_LaneTries :
    (let d := laneOn 0 lsHunt { LaneRec.init with tryBits := (2 ^ 20 - 1) * 130 }
     d.laneState 0 = lsHunt ∧ 2 ^ 20 * 130 ≤ (d.lane 0).tryBits + 130 * 1 ∧ ¬ 2 ^ 20 * 130 ≤ (d.lane 0).tryBits + 130 * 0) ∧
    (let d := laneOn 0 lsTrain { LaneRec.init with trainBlocks := 2 ^ 18, eyeBlocks := 2 ^ 14 - 1 }
     d.laneState 0 = lsTrain ∧ 2 ^ 18 ≤ (d.lane 0).trainBlocks ∧ (d.lane 0).eyeBlocks < 2 ^ 14) ∧
    (let d := laneOn 0 lsBackoff { LaneRec.init with backoffDue := 100000000000 }
     d.alive = true ∧ d.laneState 0 = lsBackoff ∧ (d.lane 0).backoffDue ≤ d.devNs) := by decide

/-- ING_ADMIT with LANE_FOM_MIN 10 and LANE_FOM_HYST 2: scores on each side of both thresholds. -/
theorem witness_LaneEye :
    let d := ((laneOn 0 lsService { LaneRec.init with lowEyes := 1, eyeBlocks := 2 ^ 14 }).setFld Reg.ingAdmit
      Fld.ingAdmitLaneFomMin 10).setFld Reg.ingAdmit Fld.ingAdmitLaneFomHyst 2
    d.alive = true ∧ d.laneState 0 = lsService ∧ d.fld Reg.ingAdmit Fld.ingAdmitLaneFomMin = 10 ∧ 2 ^ 14 ≤ (d.lane 0).eyeBlocks ∧
    7 + d.fld Reg.ingAdmit Fld.ingAdmitLaneFomHyst < 10 ∧ ¬ 8 + d.fld Reg.ingAdmit Fld.ingAdmitLaneFomHyst < 10 ∧
    1 ≤ (d.lane 0).lowEyes := by decide

/-- R65: the least opening decides, and the score is a floor: of 7, 8 and 10 from openings of 7.5, 8 and 10 two-hundred-and-fifty-fifths. -/
theorem witness_LaneEye_score :
    eyeScore ([(1 : Rat), 15 / 510, 1 / 2].take 3) 1 = 7 ∧ eyeScore ([(8 : Rat) / 255, 0].take 1) 1 = 8 ∧
    eyeScore ([(1 : Rat)].take 3) (10 / 255) = 10 := by decide +kernel

theorem witness_LaneLock :
    (let d := laneOn 5 lsHunt { LaneRec.init with runValid := 63, tryBits := 2 ^ 20 * 130 - 1 }
     d.alive = true ∧ d.laneFec 5 = 0 ∧ d.laneState 5 = lsHunt ∧ hdrOk 1 = true ∧ 63 ≤ (d.lane 5).runValid ∧
     (d.lane 5).tryBits < 2 ^ 20 * 130) ∧
    ((laneOn 5 lsService LaneRec.init).laneFec 5 = 0 ∧ (laneOn 5 lsService LaneRec.init).laneState 5 = lsService) ∧
    (let b : RxBlock := ⟨1, 0, true, false, 2 ^ 20 * 130 - 1⟩
     let d := (laneOn 5 lsHunt { LaneRec.init with runValid := 63, decoded := [b] }).setFld (laneReg 5 Reg.ingLcfg) Fld.ingLcfgFec 2
     d.laneFec 5 = 2 ∧ d.laneState 5 = lsHunt ∧ (d.lane 5).decoded = b :: [] ∧ hdrOk b.hdr = true ∧ b.lost = false ∧ b.inCode = true ∧
     b.at_ < 2 ^ 20 * 130 ∧ 63 ≤ (d.lane 5).runValid) ∧
    hdrOk 0 = false ∧ hdrOk 3 = false := by decide

theorem witness_LaneDeframer :
    (let d := laneOn 0 lsService { LaneRec.init with buf := [⟨false, 0, false⟩] }
     d.alive = true ∧ (d.lane (ingestLane 0)).buf = ⟨false, 0, false⟩ :: [] ∧ d.laneState (ingestLane 0) = lsService ∧
     (d.lane (ingestLane 0)).burst = none) ∧
    (let d := laneOn 0 lsTrain { LaneRec.init with buf := [⟨true, 1 <<< 120, false⟩], burst := some ⟨0, 1, 0⟩ }
     d.laneState (ingestLane 0) = lsTrain ∧ (d.lane (ingestLane 0)).burst = some ⟨0, 1, 0⟩ ∧
     (d.lane (ingestLane 0)).buf = ⟨true, 1 <<< 120, false⟩ :: []) ∧
    blkType (1 <<< 120) = 1 ∧ blkType (2 <<< 120) = 2 := by decide

theorem witness_LaneSends :
    (let d := laneOn 0 lsService { LaneRec.init with txOn := true, txRun := 1022, sinceLink := 65534 }
     d.alive = true ∧ (d.lane 0).txOn = true ∧ (d.lane 0).txRun < 1023 ∧ 65534 ≤ (d.lane 0).sinceLink) ∧
    (let d := laneOn 0 lsService { LaneRec.init with txOn := true, txRun := 1023, sinceLink := 65533 }
     (d.lane 0).txOn = true ∧ 1023 ≤ (d.lane 0).txRun ∧ (d.lane 0).sinceLink < 65534 ∧ isIngest 0 = true ∧ (d.lane 0).txq = []) ∧
    (let d := on.setLane 87 { LaneRec.init with txOn := true, txq := [(3, false, 0)] }
     ¬ ((isIngest 87 || d.laneFree 87) = true) ∧ (d.lane 87).txq ≠ []) := by decide

/-! Events and the Screed -/

/-- The Screed armed, with windows of 100 ns, A of 60 ns and L of 320 ns. -/
def armed : Dev :=
  let d := ((on.setFld Reg.scrTev Fld.scrTevTevNs 100).setFld Reg.scrCfg Fld.scrCfgLNs 320).setFld Reg.scrCfg Fld.scrCfgANs 60
  { d with scr := { d.scr with armed := true } }

theorem witness_EventsComeAndGo :
    (let e := { Ev.init (500000000 - 256) with admitted := true }
     let d := armed.putEv e
     d.alive = true ∧ d.tev ≠ 0 ∧ d.neverFormed 500000000 = false ∧ 500000000 * d.tev ≤ d.netNs ∧ d.scr.opened = none ∧
     d.evInSlot 500000000 = some e ∧ e.n % 256 = 500000000 % 256 ∧ d.relTime e.n ≤ d.netNs) ∧
    on.neverFormed 7 = true ∧
    (let d := armed.putEv (Ev.init 7)
     d.evAt 7 = some (Ev.init 7) ∧ d.admTime 7 ≤ d.netNs) ∧
    (let d := { armed with tms := { armed.tms with ctr := armed.admTime 7 * 2 ^ 40 } }
     d.alive = true ∧ d.tms.ctr = d.admTime 7 * 2 ^ 40) ∧
    (let e := { Ev.init 7 with admitted := true }
     let d := armed.putEv e
     let f := { d with scr := { d.scr with safeFrom := some 7 } }
     d.evAt 7 = some e ∧ e.released = false ∧ d.relTime 7 ≤ d.netNs ∧ f.evAt 7 = some e ∧ f.inSafe 7 = true) := by decide

theorem witness_ScreedWork :
    (let d := ((on.setFld Reg.bootStat Fld.bootStatStep 9).setFld Reg.tmsStat ⟨0, 3⟩ tsLocked)
     d.alive = true ∧ d.starting = true ∧ d.stepNo = 9 ∧ d.scr.armed = false ∧ d.timeState = tsLocked) ∧
    (let d := ((on.setFld Reg.bootStat Fld.bootStatStep 9).setFld Reg.tmsCfg Fld.tmsCfgArmPolicy 1).setFld Reg.tmsArm
        Fld.tmsArmArmWaitS 100
     d.lockPolicy = false ∧ d.boot.stepAt + d.fld Reg.tmsArm Fld.tmsArmArmWaitS * 1000000000 ≤ d.devNs) ∧
    ((on.setDecEnd 31 (some 49999999999)).decEnd 31 = some 49999999999 ∧ 49999999999 < on.netNs ∧ 50000000000 = on.netNs) ∧
    (let e := { Ev.init 263 with admitted := true }
     let d := (armed.putEv e).setFld (Reg.scrInput 4095) Fld.scrInputEn 1
     d.evInSlot 7 = some e ∧ e.n % 256 = 7 ∧ e.own = none ∧ e.released = false ∧ d.isPrim 4095 = false ∧ evInput e 4095 = none ∧
     d.flag (Reg.scrInput 4095) Fld.scrInputEn = true ∧ e.admitted = true) ∧
    ({ Ev.init 7 with own := some ⟨0, 0, 0⟩ }).own.isSome = true := by decide

theorem witness_GroupEvent :
    let e := { Ev.init 7 with admitted := true }
    let m := armed.setFld Reg.scrGcfg Fld.scrGcfgGrpMode 1
    let d := m.putEv e
    let f := m.putEv { e with own := some ⟨1, 0, 0⟩ }
    let g := armed.putEv { e with own := some ⟨1, 0, 0⟩, closed := true }
    let at_ (t : Nat) := { f with tms := { f.tms with ctr := t * 2 ^ 40 } }
    (d.alive = true ∧ d.evAt 7 = some e ∧ d.group = true ∧ e.own = none ∧ d.deadline 7 ≤ d.netNs) ∧
    (f.group = true ∧ (f.evAt 7).isSome = true ∧ f.relTime 7 - 12 ≤ f.netNs) ∧
    ((at_ (f.deadline 7)).tms.ctr = (at_ (f.deadline 7)).deadline 7 * 2 ^ 40 ∧
      (at_ (f.relTime 7 - 12)).tms.ctr = ((at_ (f.relTime 7 - 12)).relTime 7 - 12) * 2 ^ 40) ∧
    (g.evAt 7 = some { e with own := some ⟨1, 0, 0⟩, closed := true }) := by decide

theorem witness_Setpoint :
    (let c := (on.setFld Reg.pwrStat Fld.pwrStatVsetMv 849).setFld Reg.pwrStat Fld.pwrStatTracking 1
     let d := { c with pwr := { c.pwr with low := [⟨7, 860⟩] } }
     d.alive = true ∧ d.pwr.low.find? (fun y => decide (y.n = 7)) = some ⟨7, 860⟩ ∧ d.tracking = true ∧ d.raising = false ∧
     d.pinned = false ∧ d.vset < 850 ∧ d.pwr.settledAt ≤ 860 * 65536) ∧
    (let d := { on with pwr := { on.pwr with change := some .raise_ } }
     d.raising = true ∧ d.pwr.pinWaits = false) ∧
    (let c := (armed.setFld Reg.pwrStat Fld.pwrStatVsetMv 605).setFld Reg.pwrStat Fld.pwrStatTracking 1
     let d := { c with scr := { c.scr with headMin := some 6000000 } }
     d.scr.headStart + 1000000 ≤ d.devNs ∧ d.tracking = true ∧ d.pwr.raised = false ∧ 600 < d.vset ∧
     Int.ofNat (15 * (if d.group then d.lNs - d.gNs else d.lNs) * 65536) < 100 * 6000000) := by decide

theorem witness_RateFramesAndSafe :
    let d := armed.setFld Reg.scrRfCfg Fld.scrRfCfgRfEn 1
    let e := { d with tms := { d.tms with ethUp := false } }
    (d.alive = true ∧ d.scr.armed = true ∧ d.flag Reg.scrRfCfg Fld.scrRfCfgRfEn = true ∧ d.scr.rfNext ≤ 49998 ∧
      d.skippedInterval 49998 = false ∧ (49998 + 1) * 1000000 + 50000 ≤ d.netNs ∧ d.tms.ethUp = true ∧ d.mode ≠ 2) ∧
    e.tms.ethUp = false := by decide

/-! Live writes and register accesses -/

/-- The Screed armed, and every policy class allowed to the host. -/
def live : Dev := armed.wr Reg.bootPolicyLo 0xFFFFFFFF

/-- The row of MN_THR. -/
def rowThr : RegRow := ⟨0xA00014, [(16384, 0x40), (4, 0x4)], 0x0, 0xFFFFFFFF, 0x0, 0x0, 0x0, 0x0, 0x1, 0, 1⟩
/-- The row of PWR_PIN. -/
def rowPin : RegRow := ⟨0x50004, [], 0x5DC, 0x7FF, 0x0, 0x0, 0x0, 0x0, 0x800, 0, 1⟩
/-- The row of TMS_JUMP_MAX. -/
def rowJumpMax : RegRow := ⟨0x60010, [], 0x3E8, 0xFFFFFFFF, 0x0, 0x0, 0x0, 0x0, 0x80, 0, 1⟩
/-- The row of STP_DBAND. -/
def rowDband : RegRow := ⟨0xF0000, [(8192, 0x4)], 0x0, 0xFFFFFF, 0x0, 0x0, 0x0, 0x0, 0x4, 0, 1⟩
/-- The row of ING_LCFG. -/
def rowLcfg : RegRow := ⟨0x81000, [(64, 0x80)], 0x0, 0x100, 0x7F, 0x0, 0x0, 0x0, 0x40, 0, 1⟩
/-- The row of MK_CTL. -/
def rowMkCtl : RegRow := ⟨0x62000, [(16, 0x40)], 0x0, 0xFFF3, 0xC, 0x0, 0x0, 0x0, 0x200, 0, 1⟩
/-- The row of MK_WIDTH. -/
def rowMkWidth : RegRow := ⟨0x62018, [(16, 0x40)], 0x8, 0xFFFF, 0x0, 0x0, 0x0, 0x0, 0x200, 0, 1⟩
/-- The row of HR_CFG. -/
def rowHrCfg : RegRow := ⟨0x121000, [(32, 0x40)], 0x0, 0x1, 0x0, 0x0, 0x7FF001E, 0x0, 0x400, 0, 1⟩
/-- The row of CLK_GATE. -/
def rowGate : RegRow := ⟨0x40014, [], 0x0, 0xFFF, 0x0, 0x0, 0x0, 0x0, 0x800, 0, 1⟩
/-- The row of SCR_CTXSEL. -/
def rowCtxsel : RegRow := ⟨0xC0200, [(64, 0x4)], 0x0, 0x3, 0x20, 0x0, 0x0, 0x0, 0x8, 0, 1⟩
/-- The row of AUX_CTL. -/
def rowAux : RegRow := ⟨0x40040, [(2, 0x10)], 0x20019, 0x7FFFF, 0x0, 0x0, 0x0, 0x0, 0x800, 0, 1⟩
/-- The row of TMS_JUMP_ACCEPT. -/
def rowJump : RegRow := ⟨0x6001C, [], 0x0, 0xFFFF, 0x0, 0x0, 0x0, 0x0, 0x100, 0, 1⟩

/-- A setpoint outside 600 to 850 mV is out of range; before the Screed has armed the write is refused. -/
theorem witness_LiveWriteRefused :
    liveTarget (.pinWrite host 0x4B1) = some (host, Reg.pwrPin, 0x4B1) ∧ live.meetsChecks rowPin Reg.pwrPin 0x4B1 ∧
    live.liveFault host rowPin Reg.pwrPin (live.inHand Reg.pwrPin) (live.liveWord rowPin Reg.pwrPin 0x4AF) = some .range ∧
    on.liveFault host rowPin Reg.pwrPin (on.inHand Reg.pwrPin) (on.liveWord rowPin Reg.pwrPin 0x4B1) = some .refused := by
  unfold Dev.meetsChecks; decide

theorem witness_LiveWriteAccepted_menu :
    liveTarget (.mnThrWrite host 5 3 0x1234) = some (host, Reg.mnThr 5 3, 0x1234) ∧ live.meetsChecks rowThr (Reg.mnThr 5 3) 0x1234 ∧
    live.liveFault host rowThr (Reg.mnThr 5 3) (live.inHand (Reg.mnThr 5 3)) (live.liveWord rowThr (Reg.mnThr 5 3) 0x1234) = none ∧
    rowThr.cls = 1 := by
  unfold Dev.meetsChecks; decide

theorem witness_LiveWriteAccepted_time :
    (liveTarget (.jumpMaxWrite host 0x10) = some (host, Reg.tmsJumpMax, 0x10) ∧ live.meetsChecks rowJumpMax Reg.tmsJumpMax 0x10 ∧
      live.liveFault host rowJumpMax Reg.tmsJumpMax (live.inHand Reg.tmsJumpMax) (live.liveWord rowJumpMax Reg.tmsJumpMax 0x10) = none ∧
      rowJumpMax.cls = 128 ∧ live.timeState ≠ tsPaused ∧ Reg.tmsJumpMax < Reg.mkCtl 0) ∧
    (let d := live.setFld Reg.tmsStat ⟨0, 3⟩ tsPaused
     d.timeState = tsPaused ∧
     d.liveFault host rowJumpMax Reg.tmsJumpMax (d.inHand Reg.tmsJumpMax) (d.liveWord rowJumpMax Reg.tmsJumpMax 0x10) = none) := by
  unfold Dev.meetsChecks; decide

/-- Four outliers of 3 µs, which a limit of 16 ns makes a confirmed jump. -/
theorem witness_LiveWriteAccepted_confirms :
    let d := (live.setFld Reg.tmsStat Fld.tmsStatSource 1).setSrc 1 { SrcRec.init with outliers := List.replicate 4 (196608000 : Rat) }
    d.liveFault host rowJumpMax Reg.tmsJumpMax (d.inHand Reg.tmsJumpMax) (d.liveWord rowJumpMax Reg.tmsJumpMax 0x10) = none ∧
    d.jumpPending = false ∧ (d.wr Reg.tmsJumpMax (d.liveWord rowJumpMax Reg.tmsJumpMax 0x10)).jumpConfirmed d.source = true := by
  refine ⟨by decide, by decide, ?_⟩
  decide +kernel

/-- STP_DBAND of a ring that writes and of one that does not. -/
theorem witness_LiveWriteAccepted_capture :
    let f := live.setRing 0 { RingRec.init with began := true }
    liveTarget (.captureSettingWrite host (.stpDband 9) 7) = some (host, Reg.stpDband 9, 7) ∧
    live.meetsChecks rowDband (Reg.stpDband 9) 7 ∧
    live.liveFault host rowDband (Reg.stpDband 9) (live.inHand (Reg.stpDband 9)) (live.liveWord rowDband (Reg.stpDband 9) 7) = none ∧
    rowDband.cls = 4 ∧ ringField rowDband = true ∧ (live.ring (live.liveRing (Reg.stpDband 9))).began = false ∧
    (f.ring (f.liveRing (Reg.stpDband 9))).began = true ∧
    f.liveFault host rowDband (Reg.stpDband 9) (f.inHand (Reg.stpDband 9)) (f.liveWord rowDband (Reg.stpDband 9) 7) = none := by
  unfold Dev.meetsChecks; decide

/-- NUM_RC_LIMITS, which takes effect at once. -/
theorem witness_LiveWriteAccepted_numerics :
    liveTarget (.scaleLimitsWrite host 5 3 0x1001) = some (host, Reg.numRcLimits 5 3, 0x1001) ∧
    ∃ r, live.meetsChecks r (Reg.numRcLimits 5 3) 0x1001 ∧ r.cls = 16 ∧ ringField r = false ∧
      live.liveFault host r (Reg.numRcLimits 5 3) (live.inHand (Reg.numRcLimits 5 3)) (live.liveWord r (Reg.numRcLimits 5 3) 0x1001) = none :=
  ⟨by decide, _, ⟨by decide, by decide, rfl, by decide⟩, by decide⟩

/-- ADMIN_OFF set and cleared. -/
theorem witness_LiveWriteActs_lane :
    (let d := live.setFld (laneReg 2 Reg.ingLstate) Fld.ingLstateState lsService
     liveTarget (.adminOffSet host 2) = some (host, laneReg 2 Reg.ingLcfg, 0x100) ∧ d.meetsChecks rowLcfg (laneReg 2 Reg.ingLcfg) 0x100 ∧
     d.liveFault host rowLcfg (laneReg 2 Reg.ingLcfg) (d.inHand (laneReg 2 Reg.ingLcfg))
       (d.liveWord rowLcfg (laneReg 2 Reg.ingLcfg) 0x100) = none ∧ d.laneState 2 ≠ lsDisabled ∧
     fieldOf (d.liveWord rowLcfg (laneReg 2 Reg.ingLcfg) 0x100) Fld.ingLcfgAdminOff = 1) ∧
    (let d := live.setFld (laneReg 2 Reg.ingLstate) Fld.ingLstateState lsOffline
     d.meetsChecks rowLcfg (laneReg 2 Reg.ingLcfg) 0 ∧
     d.liveFault host rowLcfg (laneReg 2 Reg.ingLcfg) (d.inHand (laneReg 2 Reg.ingLcfg))
       (d.liveWord rowLcfg (laneReg 2 Reg.ingLcfg) 0) = none ∧ d.laneState 2 = lsOffline ∧
     fieldOf (d.liveWord rowLcfg (laneReg 2 Reg.ingLcfg) 0) Fld.ingLcfgAdminOff = 0 ∧ bitAt (d.rd Reg.clkGated) 0 = false) := by
  unfold Dev.meetsChecks; decide

/-- A jump accepted, and the setpoint pinned. -/
theorem witness_LiveWriteActs_jump :
    (let d := (live.setFld Reg.tmsStat ⟨3, 1⟩ 1).setFld Reg.tmsJumpSeq Fld.tmsJumpSeqSeq 9
     liveTarget (.jumpAccept host 9) = some (host, Reg.tmsJumpAccept, 9) ∧ d.meetsChecks rowJump Reg.tmsJumpAccept 9 ∧
     d.liveFault host rowJump Reg.tmsJumpAccept (d.inHand Reg.tmsJumpAccept) (d.liveWord rowJump Reg.tmsJumpAccept 9) = none) ∧
    (live.meetsChecks rowPin Reg.pwrPin 0x4B1 ∧
      live.liveFault host rowPin Reg.pwrPin (live.inHand Reg.pwrPin) (live.liveWord rowPin Reg.pwrPin 0x4B1) = none ∧
      bitsOf (live.liveWord rowPin Reg.pwrPin 0x4B1) 0 1 = 1 ∧ live.raising = false) := by
  unfold Dev.meetsChecks; decide

/-- A core context of group 3 with nothing in it. -/
def ctx0 : CtxRec := ⟨3, 0, 0, 0, 0, [], []⟩

/-- Core 0 in service in group 3 with contexts 0 and 1 loaded. -/
def grouped (d : Dev) : Dev :=
  let d := d.setCore 0 { CoreRec.init with ctxs := [(0, some ctx0), (1, some ctx0)] }
  ((d.setGrp 3 { GroupRec.init with cores := [0] }).setFld (coStatAddr 0) Fld.coStatState coRun).setFld (Reg.scrCtxsel 3)
    Fld.scrCtxselUsed 1

/-- A context requested, and an AUXCLK divider changed. -/
theorem witness_LiveWriteActs_context :
    (let d := grouped live
     liveTarget (.ctxselWrite host 3 1) = some (host, Reg.scrCtxsel 3, 1) ∧ d.meetsChecks rowCtxsel (Reg.scrCtxsel 3) 1 ∧
     d.liveFault host rowCtxsel (Reg.scrCtxsel 3) (d.inHand (Reg.scrCtxsel 3)) (d.liveWord rowCtxsel (Reg.scrCtxsel 3) 1) = none ∧
     d.liveWord rowCtxsel (Reg.scrCtxsel 3) 1 % 4 ≠ (d.grp 3).ctx) ∧
    (liveTarget (.auxCtlWrite host 1 0x20018) = some (host, Reg.auxCtl 1, 0x20018) ∧ live.meetsChecks rowAux (Reg.auxCtl 1) 0x20018 ∧
     live.liveFault host rowAux (Reg.auxCtl 1) (live.inHand (Reg.auxCtl 1)) (live.liveWord rowAux (Reg.auxCtl 1) 0x20018) = none) := by
  unfold Dev.meetsChecks; decide

theorem witness_MarkWrites :
    (let d := (live.wr (Reg.mkStart1 15) (100 * 2 ^ 16)).wr (Reg.mkPeriod 15) 1000
     d.timeState ≠ tsPaused ∧ rowMkCtl.cls = 512 ∧ d.meetsChecks rowMkCtl (Reg.mkCtl 15) 1 ∧
     d.liveFault host rowMkCtl (Reg.mkCtl 15) (d.inHand (Reg.mkCtl 15)) (d.liveWord rowMkCtl (Reg.mkCtl 15) 1) = none ∧
     d.liveWord rowMkCtl (Reg.mkCtl 15) 1 % 4 ≠ 0) ∧
    (live.meetsChecks rowMkCtl (Reg.mkCtl 15) 0 ∧
      live.liveFault host rowMkCtl (Reg.mkCtl 15) (live.inHand (Reg.mkCtl 15)) (live.liveWord rowMkCtl (Reg.mkCtl 15) 0) = none ∧
      live.liveWord rowMkCtl (Reg.mkCtl 15) 0 % 4 = 0) ∧
    (live.meetsChecks rowMkWidth (markAddr 0 .width) 16 ∧
      live.liveFault host rowMkWidth (markAddr 0 .width) (live.inHand (markAddr 0 .width))
        (live.liveWord rowMkWidth (markAddr 0 .width) 16) = none) := by
  unfold Dev.meetsChecks; decide

/-- Generator 15 with its mark 5 emitted and the next one due; and, OFF, with a last mark past a START to come (a backward step). -/
theorem witness_MarkWrites_running :
    let d := ((live.wr (Reg.mkPeriod 15) 1000).wr (Reg.mkCtl 15) 3).setGen 15
      { GenRec.init with armed := true, mode := 3, k := 6, lastMark := some 5000 }
    d.liveFault host rowMkCtl (Reg.mkCtl 15) (d.inHand (Reg.mkCtl 15)) (d.liveWord rowMkCtl (Reg.mkCtl 15) 0) = none ∧
    (d.gen 15).armed = true ∧ d.markTime 15 (d.gen 15).k ≤ d.net16 ∧
    (let f := (d.setFld (Reg.mkCtl 15) Fld.mkCtlMode 0).wr (Reg.mkStart1 15) (100 * 2 ^ 16)
     let e := f.setGen 15 { GenRec.init with lastMark := some (f.mkStart 15 + 5000) }
     (e.gen 15).lastMark = some (f.mkStart 15 + 5000) ∧ e.mkStart 15 ≤ f.mkStart 15 + 5000 ∧
     e.liveWord rowMkCtl (Reg.mkCtl 15) 3 % 4 = 3 ∧
     e.liveFault host rowMkCtl (Reg.mkCtl 15) (e.inHand (Reg.mkCtl 15)) (e.liveWord rowMkCtl (Reg.mkCtl 15) 3) = none) := by
  decide

theorem witness_HostRingEnable :
    (let d := live.setFld Reg.hstLink Fld.hstLinkRate 1
     d.mode ≠ 3 ∧ regRow (Reg.hrCfg 31) = some rowHrCfg ∧ rowHrCfg.base = Reg.hrCfg 0 ∧ rowHrCfg.lv = 1 ∧ d.hrOn 31 = false ∧
     d.liveFault host rowHrCfg (Reg.hrCfg 31) (d.rd (Reg.hrCfg 31)) (withLv 1 3 3) = none ∧ withLv 1 3 3 % 2 = 1) ∧
    (let d := live.setFld (Reg.hrCfg 0) Fld.hrCfgEnable 1
     d.hrOn 0 = true ∧ d.liveFault host rowHrCfg (Reg.hrCfg 0) (d.rd (Reg.hrCfg 0)) (withLv 1 (d.rd (Reg.hrCfg 0)) 0) = none ∧
     withLv 1 (d.rd (Reg.hrCfg 0)) 0 % 2 = 0) := by decide

theorem witness_RequestsWait :
    (live.mode ≠ 3 ∧ regRow Reg.clkGate = some rowGate ∧ rowGate.lv ≠ 0 ∧ live.unitFitted Reg.clkGate = true ∧
      live.liveFault host rowGate Reg.clkGate (live.inHand Reg.clkGate) (live.liveWord rowGate Reg.clkGate 0x200) = none ∧
      (List.range 12).find? (fun b => bitAt (live.liveWord rowGate Reg.clkGate 0x200) b != bitAt (live.rd Reg.clkGate) b) = some 9 ∧
      bitAt (live.liveWord rowGate Reg.clkGate 0x200) 9 = true) ∧
    (let d := { live with log := { live.log with opened := true } }
     d.log.opened = true ∧ d.flag Reg.undAttCtl Fld.undAttCtlBusy = false) ∧
    (live.flag Reg.hmbFlCtl Fld.hmbFlCtlBusy = false ∧ (⟨.hmb, 0⟩ : Origin).cls = .hmb) := by decide

theorem witness_SpanReads :
    (spanOf Reg.hstIdxAddrLo = (Reg.hstIdxAddrLo, 2) ∧ spanOf (Reg.hstIdxAddrLo + 4) = (Reg.hstIdxAddrLo, 2) ∧
      (spanOf Reg.pwrPin).2 = 1) ∧
    (let d := { on with caps := [⟨host, Reg.hstIdxAddrLo, [1, 2]⟩] }
     d.caps.find? (fun c => decide (c.origin = host ∧ c.low = Reg.hstIdxAddrLo)) = some ⟨host, Reg.hstIdxAddrLo, [1, 2]⟩) := by decide

theorem witness_SpecialWrites : on.inReset = false ∧ on.mode ≠ 3 ∧ (on.logMandatory && on.logFull) = false := by decide

/-- A unit that is not fitted; a reserved word, a PR word, an RW word and a W1C word. -/
theorem witness_RegisterWrites :
    (let d := on.wr Reg.glbFittedHi 0x10018
     d.unitFitted (Reg.numScrimOps 0) = false) ∧
    (∃ r, regRow Reg.glbStepping = some r ∧ r.lv = 0 ∧ r.rw = 0 ∧ r.w1c = 0 ∧ r.pr = 0 ∧ r.fu = 0) ∧
    (∃ r, regRow Reg.glbWearCfg0 = some r ∧ r.lv = 0 ∧ r.rw = 0 ∧ r.w1c = 0 ∧ r.pr ≠ 0) ∧
    (let d := on.setFld Reg.bootStat Fld.bootStatMode 1
     d.mode ≠ 0 ∧ (d.logMandatory && d.logFull) = false ∧ reservedReg Reg.glbWearCfg0 = false) ∧
    (∃ r, regRow (Reg.hstRmap 63) = some r ∧ r.lv = 0 ∧ r.rw ≠ 0 ∧ ringSetting (Reg.hstRmap 63) = none ∧ bridgeReg (Reg.hstRmap 63) = false) ∧
    (∃ r, regRow Reg.clkLoss = some r ∧ r.lv = 0 ∧ r.w1c ≠ 0 ∧ on.unitFitted Reg.clkLoss = true) :=
  ⟨by decide, ⟨_, rfl, by decide⟩, ⟨_, rfl, by decide⟩, by decide, ⟨_, rfl, by decide⟩, ⟨_, rfl, by decide⟩⟩

/-! Clocks, gates, reset, power and the management bus -/

theorem witness_References :
    (let d := ((on.setFld Reg.clkLock ⟨0, 1⟩ 1).setFld Reg.clkCfg Fld.clkCfgTimeoscSel 1)
     d.alive = true ∧ d.locked 0 = true ∧ d.fld Reg.clkCfg Fld.clkCfgTimeoscSel = 1) ∧
    (windowsOk .refA 1 (List.replicate 8 209715) = true ∧ windowsOk .refB 1 (List.replicate 8 209720) = true ∧
      windowsOk .refClk 1 [655360] = true ∧ windowsOk .timeOsc 1 (List.replicate 8 6553600) = true ∧
      windowsOk .refA 1 [209715] = false) ∧
    (let d := (on.setFld Reg.tmsStat ⟨5, 1⟩ 1).setFld Reg.clkStat Fld.clkStatTimeoscQ 1
     bitAt (d.rd Reg.tmsStat) 5 = true ∧ d.flag Reg.clkStat Fld.clkStatTimeoscQ = true ∧ d.loopFailed 1 = false ∧
     d.flag Reg.clkStat Fld.clkStatTimeOnOsc = false) ∧
    (let d := (on.setFld Reg.clkStat Fld.clkStatRefaQ 1).setFld Reg.clkStat Fld.clkStatRefInUse 0
     bitAt (d.rd Reg.clkStat) (refBit .refA) = true ∧ d.fld Reg.clkStat Fld.clkStatRefInUse = refBit .refA ∧ d.onRef 0 = true) ∧
    (let c := (on.setFld Reg.clkStat Fld.clkStatRefaQ 1).setFld Reg.clkStat Fld.clkStatRefInUse 0
     let d := { c with clk := { c.clk with coasting := [17] } }
     d.clk.coasting.contains 17 = true ∧ d.refGood 17 = true) := by decide

theorem witness_LoopsLock :
    (let d := ((on.setFld Reg.clkStat Fld.clkStatRefaQ 1).setFld Reg.clkStat Fld.clkStatRefInUse 0).setFld Reg.bootStat
       Fld.bootStatStep 3
     d.alive = true ∧ d.fld Reg.bootStat Fld.bootStatStep = 3 ∧ d.loopFitted 0 = true ∧ d.locked 0 = false ∧
     d.loopFailed 0 = false ∧ d.refGood 0 = true ∧ d.boot.stepAt + 10000000 ≤ d.devNs) ∧
    (let d := { on with devNs := 10000000 }
     d.boot.stepAt + 10000000 ≤ d.devNs) := by decide

theorem witness_Generators :
    (let d := { on with clk := { on.clk with xmain := ⟨1, 1, true, 0⟩ } }
     d.alive = true ∧ d.clk.xmain.before = true ∧ d.clk.xmain.div < floorDiv d.clk.ringMhz ∧ (d.clk.xmain.before || d.clk.onSys) = true ∧
     256000 * d.clk.xmain.div ≤ (d.devNs - d.clk.xmain.at_) * (if d.clk.onSys then 1000 else d.clk.ringMhz)) ∧
    ({ on with clk := { on.clk with xmain := ⟨1, 1, true, 100000000000⟩ } }.divHeld .xmain = false) ∧
    (let d := { on with clk := { on.clk with xmain := ⟨floorDiv 500, 1, true, 0⟩ } }
     d.clk.xmain.before = true ∧ floorDiv d.clk.ringMhz ≤ d.clk.xmain.div) ∧
    (let d := { on with clk := { on.clk with xmain := ⟨2, 1, false, 0⟩ } }
     d.clk.xmain.before = false ∧ d.clk.xmain.goal < d.clk.xmain.div) ∧
    (let d := on.setFld (Reg.auxStat 1) Fld.auxStatDivNow 25
     d.divHeld (.aux 1) = true ∧ { d with clk := { d.clk with aux1At := 99999999000 } }.divHeld (.aux 1) = false) := by decide

theorem witness_Gates :
    (let x : GateReq := ⟨.ingestGroup 3, 99999995904, some (host, 0, 8)⟩
     let d := { on with clk := { on.clk with gates := [x] } }
     d.alive = true ∧ (d.clk.gates.filter fun y => decide (y.target = .ingestGroup 3)) = [x] ∧
     (d.clk.gates.filter fun y => decide (y.target = .meshPort 0)) = [] ∧ (d.logMandatory && d.logFull) = false ∧
     (d.clk.gates.filter fun y => decide (y.target = .ingestGroup 3) && decide (y.since + 4096 ≤ d.devNs)) = [x]) ∧
    (let d := { on with clk := { on.clk with retries := [⟨.stackPhy 11, 99000000000⟩] } }
     (⟨.stackPhy 11, 99000000000⟩ : GateRetry) ∈ d.clk.retries ∧ 99000000000 + 1000000000 ≤ d.devNs ∧
     ∀ y ∈ d.clk.gates, y.target ≠ .stackPhy 11) := by decide

theorem witness_ResetAndRelease :
    (on.inReset = false ∧ on.pwr.flashOp = none) ∧
    (Dev.init.inReset = true ∧ Dev.init.pwr.porLow = true ∧ Dev.init.pwr.devRstLow = false ∧ Dev.init.pwr.railLow = false) ∧
    (let d := { Dev.init with pwr := { Dev.init.pwr with porLow := false, railLow := true } }
     d.inReset = true ∧ d.pwr.railLow = true ∧ d.pwr.porLow = false) ∧
    (let d := { Dev.init with pwr := { Dev.init.pwr with porLow := false, devRstLow := true } }
     d.inReset = true ∧ d.pwr.devRstLow = true ∧ d.pwr.porLow = false) := by decide

theorem witness_TemperatureAndPower :
    (on.fusedFit 0 = true ∧ on.fit (stackFitBit 11) = true ∧ on.fit (16 + 7) = true) ∧
    (let d := { on with pwr := { on.pwr with due := [4, 35] } }
     d.alive = true ∧ d.pwr.due = 4 :: [35]) := by decide

theorem witness_WearWindows :
    let d := { on with wear := { on.wear with start := some 99000000000 } }
    d.alive = true ∧ d.wear.start = some 99000000000 ∧ 99000000000 + 1000000000 ≤ d.devNs := by decide

theorem witness_ManagementBus :
    (0 < 2 ∧ (BitVec.ofNat 8 (requestCheck 1 0 0 0x50004 0)).toNat = requestCheck 1 0 0 0x50004 0 ∧ (0 : BitVec 6) = on.gid) ∧
    ((1 : BitVec 6) ≠ on.gid ∧ (on.setFld Reg.mshId Fld.mshIdAnchor 5).isAnchor = false) ∧
    (let d := { on with msh := { on.msh with reads := [⟨4, 0, 0⟩, ⟨5, 0, 1⟩, ⟨6, 0, 1⟩] } }
     d.msh.reads = [⟨4, 0, 0⟩] ++ ⟨5, 0, 1⟩ :: [⟨6, 0, 1⟩] ∧ ∀ y ∈ [(⟨4, 0, 0⟩ : FwdRead)], y.waiter ≠ 1) := by decide

theorem witness_FlashOperationEnds :
    let d := { on with pwr := { on.pwr with flashOp := some ⟨1, 2 ^ 32 - 1, 1, [], false⟩ } }
    let e := { on with pwr := { on.pwr with flashOp := some ⟨0, 2 ^ 32 - 1, 2, [], false⟩ } }
    (d.inReset = false ∧ d.pwr.flashOp = some ⟨1, 2 ^ 32 - 1, 1, [], false⟩ ∧ ¬ d.boot.flashLen < 2 ^ 32 - 1 + 1) ∧
    e.boot.flashLen < 2 ^ 32 - 1 + 2 := by decide

/-! Start-up and the log -/

/-- Start-up at step k. -/
def startUp (k : Nat) : Dev := on.setFld Reg.bootStat Fld.bootStatStep k

theorem witness_StartUpSteps :
    ((startUp 1).alive = true ∧ (startUp 1).mode = 0 ∧ (startUp 1).stepNo = 1) ∧
    (let d := (startUp 2).setFld Reg.clkStat Fld.clkStatRefaQ 1
     d.stepNo = 2 ∧ d.flag Reg.clkStat Fld.clkStatRefaQ = true) ∧
    (let c := (startUp 2).setFld Reg.clkStat Fld.clkStatRefbQ 1
     let d := { c with boot := { c.boot with refbAt := some (100000000000 - 6710887) } }
     d.flag Reg.clkStat Fld.clkStatRefaQ = false ∧ d.flag Reg.clkStat Fld.clkStatRefbQ = true ∧
     (100000000000 - 6710887) + 6710887 ≤ d.devNs) ∧
    (let d := (startUp 3).wr Reg.clkLock 0x3FFFF
     d.stepNo = 3 ∧ ∀ i < 18, d.loopFitted i = true → d.locked i = true ∨ d.loopFailed i = true) ∧
    ((startUp 3).loopFitted 17 = true ∧ (startUp 3).locked 17 = false ∧ (startUp 3).loopFailed 17 = false) ∧
    (let d := { (startUp 9) with scr := { (startUp 9).scr with armed := true } }
     d.stepNo = 9 ∧ d.scr.armed = true) ∧ 10 ≤ (startUp 10).stepNo := by decide

/-- A flash whose directory gives slot A 0x1000 bytes from 0x10000 on. -/
def dirFlash : SMap Byte :=
  let zeros (n : Nat) : List Nat := List.replicate n 0
  SMap.setList (fun _ => 0xFF) [] 0
    (([0x52, 0x49, 0x44, 0x5A, 1, 0, 25, 0] ++ zeros 10 ++ [1] ++ zeros 6 ++ [16] ++ zeros 94 ++ [249, 151, 192, 80, 205, 9, 127, 238]).map
      fun x => BitVec.ofNat 8 x)

/-- Step 5 with no directory, and with one. -/
theorem witness_StartUpSteps_directory :
    (startUp 5).stepNo = 5 ∧ (startUp 5).pwr.flashOp = none ∧
    directoryOf (startUp 5).boot.flash (startUp 5).boot.flashLen = none ∧
    ((directoryOf dirFlash 0x20000).any fun x =>
      decide ((x.2.slots.getD ((startUp 5).boot.slot.getD x.2.select) (0, 0)).2 ≠ 0)) = true := by decide +kernel

/-- Step 4 with good fuses; step 6 with a slot that is empty; step 7 with a test still running, and with all done; step 8 with and
without a core that still loads; and a slot in hand there. -/
theorem witness_StartUpSteps_slots :
    ((startUp 4).stepNo = 4) ∧
    (let d := { startUp 6 with boot := { (startUp 6).boot with flash := dirFlash, flashLen := 0x20000, slot := some 1 } }
     d.boot.slot = some 1 ∧ ((directoryOf d.boot.flash d.boot.flashLen).any fun x =>
       decide (d.slotFault d.boot.flash x.2 1 false = some 0x02)) = true) ∧
    (let d := { startUp 7 with boot := { (startUp 7).boot with flash := dirFlash, flashLen := 0x20000, slot := some 0 } }
     (d.imageIn d.boot.flash).isSome = true ∧
     ((d.imageIn d.boot.flash).any fun i => !(d.setFld (coStatAddr 9) Fld.coStatState coTest).step7Done i) = true) ∧
    (let d := { startUp 8 with boot := { (startUp 8).boot with staged := dirFlash, flashLen := 0x20000, slot := some 0 } }
     (d.imageIn d.boot.staged).isSome = true ∧ (d.setFld (coStatAddr 9) Fld.coStatState coLoad).coreState 9 = coLoad) := by decide +kernel

/-- An expiry with an arrival. -/
theorem witness_ArrivalWins : Instr.pollExpiry true ∈
    [Instr.announceTimeout true, .pollExpiry true, .sectionWatchdogExpiry true, .bootWatchdogExpiry true, .forcedSwitch true false] := by
  decide

theorem witness_SectionsAndWatchdogs_watchdog :
    (let c := startUp 5
     let d := { c with boot := { c.boot with slot := some 1, itemAt := 98000000000 } }
     d.alive = true ∧ d.mode = 0 ∧ d.boot.itemAt + 2000000000 ≤ d.devNs ∧ d.stepNo = 5 ∧ d.boot.slot = some 1) ∧
    (let d := { startUp 9 with devNs := 30000000000 }
     30000000000 + (if d.stepNo = 9 ∧ d.lockPolicy = true then d.devNs - d.boot.stepAt else d.boot.waited) ≤ d.devNs ∨
       d.lockPolicy = true) ∧
    (let d := { startUp 8 with devNs := 30000000000 }
     30000000000 + (if d.stepNo = 9 ∧ d.lockPolicy = true then d.devNs - d.boot.stepAt else d.boot.waited) ≤ d.devNs) := by decide

/-- The watchdog in step 7, with no slot in hand, and with slot F in hand. -/
theorem witness_SectionsAndWatchdogs_slots :
    (let c := startUp 5
     let d := { c with boot := { c.boot with itemAt := 98000000000 } }
     d.boot.slot = none ∧ directoryOf d.boot.flash d.boot.flashLen = none ∧
     ((directoryOf dirFlash 0x20000).any fun x => decide (x.2.select < 2)) = true) ∧
    (let c := startUp 6
     let d := { c with boot := { c.boot with slot := some 2, itemAt := 98000000000 } }
     d.boot.slot = some 2 ∧ d.boot.misfit = none ∧ d.boot.itemAt + 2000000000 ≤ d.devNs) ∧
    (startUp 7).imageIn (startUp 7).boot.flash = none := by decide +kernel

/-- A flash whose directory gives slot A the base 0x10000, with an image of one empty section there, of type 2 and the digest given. -/
def flashOf (digest : List Nat) : SMap Byte :=
  let zeros (n : Nat) : List Nat := List.replicate n 0
  let dir : List Nat := [0x52, 0x49, 0x44, 0x5A, 1, 0, 25, 0] ++ zeros 10 ++ [1] ++ zeros 101
  let check : List Nat := [201, 84, 84, 250, 100, 11, 74, 115]
  let put (m : SMap Byte) (a : Nat) (bs : List Nat) : SMap Byte := SMap.setList (fun _ => 0xFF) m a (bs.map fun x => BitVec.ofNat 8 x)
  let m := put (put (put [] 0 (dir ++ check)) 0x10012 [1, 0]) 0x10028 ([0, 1] ++ zeros 6)
  put (put m 0x10100 ([2, 0] ++ zeros 22)) 0x10118 digest

/-- SHAKE256 of the empty message, 32 bytes. -/
def emptyDigest : List Nat :=
  [70, 185, 221, 43, 11, 168, 141, 19, 35, 59, 63, 235, 116, 62, 235, 36, 63, 205, 82, 234, 98, 184, 27, 130, 181, 12, 39, 100, 110,
   213, 118, 47]

/-- Step 7 with that flash and slot A in hand. -/
def sectDev (digest : List Nat) : Dev :=
  { startUp 7 with boot := { (startUp 7).boot with flash := flashOf digest, flashLen := 0x20000, slot := some 0 } }

/-- The digest of section 0 is right in the one flash and wrong in the other. -/
theorem witness_SectionsAndWatchdogs_digest :
    (sectDev emptyDigest).alive = true ∧ (sectDev emptyDigest).mode = 0 ∧ (sectDev emptyDigest).stepNo = 7 ∧
    (sectDev emptyDigest).boot.sec = 0 ∧
    (((sectDev emptyDigest).imageIn (sectDev emptyDigest).boot.flash).any fun i =>
      decide (i.sections_ = 1 ∧ (sectAt (flashOf emptyDigest) i 0).ty ≠ stRegs ∧
        shake256x32 (sectBytes (flashOf emptyDigest) i (sectAt (flashOf emptyDigest) i 0)) = (sectAt (flashOf emptyDigest) i 0).digest)) = true ∧
    (((sectDev []).imageIn (sectDev []).boot.flash).any fun i =>
      decide (0 < i.sections_ ∧
        shake256x32 (sectBytes (flashOf []) i (sectAt (flashOf []) i 0)) ≠ (sectAt (flashOf []) i 0).digest)) = true := by decide +kernel

/-- A log entry. -/
def entry (k : Nat) : LogEntry := ⟨0, host, 0, 0, 0, 0, k, 0⟩

theorem witness_ReportsAndCheckpoints :
    let d := { on with
      boot := { on.boot with att := some [1, 2] }, log := { on.log with opened := true, ckptSecond := some 49, ckptOpen := some (entry 0) } }
    d.inReset = false ∧ d.boot.att = some [1, 2] ∧ on.log.ckptOpen = none ∧ d.log.ckptOpen.isSome = true ∧ d.log.opened = true ∧
    49 < d.netNs / 1000000000 ∧
    (∀ p ∈ d.tms.passed, ¬ (p.1 < d.netNs / 1000000000 * 1000000000 * 65536 ∧ d.netNs / 1000000000 * 1000000000 * 65536 < p.2)) ∧
    d.log.ckptOpen = some (entry 0) := by decide

theorem witness_LogMemories :
    (let c := ((on.setFld (Reg.chStat 0) Fld.chStatState 2).wr Reg.recLogSize 2).wr Reg.recPagesTotal 16
     let d := { c with log := { c.log with opened := true, entries := [entry 1, entry 0], held := 2 } }
     d.alive = true ∧ d.log.entries[d.log.held - 1]? = some (entry 0) ∧ 0 < d.log.held ∧ 0 < d.mirrorCap ∧
     d.upChannels.isEmpty = false ∧
     ((decide (d.mirrorCap ≤ d.log.mirror.length) && d.log.mirror.getLast?.any fun x => decide (d.log.delivered ≤ x.num)) &&
       d.logMandatory) = false ∧
     (d.log.entries.take d.log.held).filter (fun e => decide ((e.num + 2 ^ 24 - 0) % 2 ^ 24 < 1)) = [entry 0] ∧
     (d.log.entries.take d.log.held).filter (fun e => decide ((e.num + 2 ^ 24 - 2) % 2 ^ 24 < 1)) = []) ∧
    (let x : GroupRec := { GroupRec.init with sections_ := [⟨0, 0, 0, true, 0, 0, 0, 0⟩], loading := some 0 }
     (on.setGrp 63 x).grp 63 = x ∧ x.sections_[0]? = some ⟨0, 0, 0, true, 0, 0, 0, 0⟩) := by decide

/-! Samples, rings and records -/

/-- Ring 63, enabled in STIPPLE mode on stack 0, with channel 8191 a member, 4 entries of room, and KEEP on. -/
def ringDev : Dev :=
  let d := ((armed.setFld (Reg.hwkRcfg 63) Fld.hwkRcfgEnable 1).setFld (Reg.hwkRcfg 63) Fld.hwkRcfgMode 1).wr (Reg.stpRentries 63) 4
  let d := ((d.setFld (Reg.hwkChring 8191) Fld.hwkChringMember 1).setFld (Reg.hwkChring 8191) Fld.hwkChringRing 63)
  let d := (d.setFld (Reg.stpRmode 63) Fld.stpRmodeKeepMode 1).setFld (Reg.stkScfg 0) Fld.stkScfgState skUp
  (d.setRing 63 { RingRec.init with began := true }).setStp 8191 { StpRec.init with force := false, cur := some (5, 65536000000) }

/-- An entry of a STIPPLE ring. -/
def item : RingItem := ⟨0, 0, 0, 8191, 0, [some 5]⟩

theorem witness_SamplesTaken :
    (let d := { ringDev with ing := { ringDev.ing with queue := [⟨8191, 65536000000, 9, 63⟩] } }
     d.alive = true ∧ d.ing.queue = ⟨8191, 65536000000, 9, 63⟩ :: [] ∧ d.onRing 8191 (d.fld (Reg.hwkChring 8191) Fld.hwkChringRing) ∧
     d.stippled 63 = true ∧ d.ringTakes 63 ∧ d.scr.armed = true ∧ d.acq.pend = [] ∧ d.newPosition 63 65536000000 = true ∧
     (d.setRing 63 { d.ring 63 with seen := some 65536000000 }).newPosition 63 65536000000 = false ∧
     2 * (65536000000 - 65536000000) ≤ 3 * Int.ofNat (d.ringTs 63)) ∧
    { ringDev with acq := { ringDev.acq with pend := [(Reg.stpDband 8191, 4)] } }.acq.pend = [(Reg.stpDband 8191, 4)] ∧
    (ringDev.flag (Reg.stpRmode 63) Fld.stpRmodeKeepMode = true ∧ (ringDev.stp 8191).missing = false ∧
      (ringDev.stp 8191).cur = some (5, 65536000000) ∧
      (ringDev.stp 8191).lastT + Int.ofNat (ringDev.rd (Reg.stpRkeep 63) * 65536) ≤ 65536000000) ∧
    (let c := { ringDev with acq := { ringDev.acq with bufs := [(0, [(63, item)])] } }
     let d := c.setStack 0 { StkRec.init with grant := 1 }
     (d.stackRec 0).grant = 1 ∧ d.ringBuf 0 = (63, item) :: []) := by
  unfold Dev.onRing Dev.ringTakes; decide

/-- The armed device is sound, as the last clause on samples asks. -/
theorem witness_SamplesTaken_sound : (at_ ringDev).Inv := by
  refine ⟨⟨by decide, by decide⟩, ?_, ?_⟩
  · intro x hx; simp [at_, ringDev, armed, on, Dev.setStp, Dev.setRing, Dev.setFld, Dev.wr, Dev.init] at hx
  · unfold LogOk; decide

/-- An open record of ring 9. -/
def rec0 : RecordRec :=
  { seq := 4, event := 7, ring := 9, trig := 800, late := false, completion := none, skew := false, degraded := false, dec := 0, comp := 0, hits := [],
    prov := 0, pre := 0, post := 0, mode := 0, summary := false, truncated := false, shortPre := false, freeInc := false, captured := 0,
    preCaptured := 0, members := [], ts := 0, width := 0, items := [], appendix := [], freeDone := false, freeWait := some 100,
    endedAt := some 99999900000, copied := true, doneAt := none, bytes := [], pages := [], phases := [], bad := [], sent := false }

/-- The device that holds one record. -/
def recDev (x : RecordRec) : Dev := { on with store := { on.store with recs := [x] } }

theorem witness_RecordsAssembled :
    (ringDev.alive = true ∧ ringDev.stippled 63 = true) ∧
    (let c : Capture := ⟨4, 0, 0, 8, 0, 0, [], 0, none, false⟩
     let x : RingItem := ⟨0, 3, 0, 0, 0, [some 5]⟩
     let d := (((((recDev rec0).setFld (Reg.stkScfg 0) Fld.stkScfgState skUp).wr (Reg.hwkCap 9) 16).wr (Reg.hwkRowb 9) 8).setRing 9
       { RingRec.init with caps := [c], nextK := 7, items := [x] }).setStack 0 { StkRec.init with grant := 2 }
     d.stippled 9 = false ∧ d.stackState (d.ringStack 9) = skUp ∧ (d.stackRec (d.ringStack 9)).grant = 2 ∧
     d.copyWaits (d.ringStack 9) = some 9 ∧ (d.ring 9).caps = c :: [] ∧
     (∀ k ∈ [c], k.ended = false ∧ (d.ring 9).nextK < k.hi) ∧ d.record c.seq = some rec0 ∧
     (((d.ring 9).items.reverse.filter fun z => c.protects false z).take 1) = [x] ∧
     d.burstHits 9 x 0 = true ∧ d.burstHits 9 x 1 = false) ∧
    ((recDev rec0).record 4 = some rec0 ∧ rec0.doneAt = none ∧ rec0.freeDone = false ∧ rec0.freeWait.isSome = true ∧
      (recDev rec0).poolFree < ceilDiv (0 + (8 + alignUp 8 8)) 4096 - ceilDiv 0 4096) ∧
    (let c := (recDev rec0).setFld (Reg.chStat 0) Fld.chStatState 2
     let d := { c with store := { c.store with chans := [0], pool := [(0, 1)] } }
     ceilDiv (0 + (8 + alignUp 8 8)) 4096 - ceilDiv 0 4096 ≤ d.poolFree) ∧
    ({ rec0 with freeDone := true }.freeDone = true ∧ rec0.ring < 64) ∧
    (rec0.freeWait = some 100 ∧ rec0.endedAt = some 99999900000 ∧ rec0.copied = true ∧ 99999900000 + 100 * 1000 ≤ (recDev rec0).devNs) := by
  decide

/-! The fabric -/

/-- A free-class circuit 5 of cluster 0 from port 35 to queue 0 of engine 0 of core 0, over two links. -/
def circA : Circuit := ⟨5, true, false, 1, 0, ⟨3, 0, 0, 0, 0, 35⟩, ⟨1, 0, 0, 0, 0, 0⟩, [(1, 1), (2, 1)]⟩

/-- A data token of the free class. -/
def tokA : Token := ⟨7, true, 0, 3, 0, false, 0⟩

/-- The edge port of cluster 45, toward the link that reaches die 3 as its link 2. -/
def edge45 : Nat := 3 + 40 * 2 ^ 17 + 45 * 2 ^ 23

/-- A timed circuit of cluster 45 over that link. -/
def circE : Circuit := { circA with free := false, route := [(edge45, 1), (2, 1)] }

/-- A timed entry circuit of cluster 7, which the X-die sends on half 0 of die 0. -/
def circX : Circuit := { circA with free := false, src := ⟨5, 7, 0, 0, 0, 0⟩, route := [(3 + 7 * 2 ^ 23, 1), (2, 1)] }

/-- Token A in a flit toward die 3 on its link 2. -/
def flitDev : Dev :=
  let c := on.setFld (Reg.dieStat 3) Fld.dieStatLinksUp 15
  { c with fab := { c.fab with circuits := [circE] } }.setFlit (8 * 3 + 2) [.at 5 1 { tokA with free := false }]

theorem witness_LinksAndPace_flits :
    (flitDev.alive = true ∧ flitDev.linkUp (3, 2) = true ∧ flitDev.linkLost (3, 2) = false ∧ flitDev.flitOf 24 = [] ∧
      flitDev.flitOf 26 = [.at circE.key 1 { tokA with free := false }] ∧ flitDev.circ circE.key = some circE ∧
      1 < circE.route.length ∧ flitDev.linkFenced (circE.link 1) = false ∧ flitDev.spillAt circE 1 = none ∧
      flitDev.flitPositions (3, 2) false = [(circE, 1, 1)]) ∧
    (let d := { on with fab := { on.fab with circuits := [circX] } }
     d.flitPositions (0, 0) false = [(circX, 0, 1)] ∧ d.circWave circX = none ∧ d.linkFenced (circX.link 0) = false ∧
     d.flitOf 0 = [] ∧ d.flitPositions (0, 0) true = []) := by decide

/-- A free-class token of a flit whose next store has room, and one whose store holds four. -/
theorem witness_LinksAndPace_room :
    let x := { circE with free := true }
    let d := { flitDev with fab := { flitDev.fab with circuits := [x] } }
    d.landRoom x 1 = true ∧ (d.setWaiting 5 1 (List.replicate 4 ⟨tokA, 0⟩)).landRoom x 1 = false := by decide

theorem witness_LinksAndPace :
    ((on.setFld (Reg.dieStat 3) Fld.dieStatLinksUp 15).linkUp (3, 0) = true ∧ on.linkTries (3, 0) = 0) ∧
    (let d := on.setTries (0, 2) 3
     1 ≤ d.linkTries (0, 2) ∧ d.linkTries (0, 2) ≤ 3) ∧
    (let d := ((on.setFld (Reg.crlLoop 63 63) Fld.crlLoopEn 1).setFld (Reg.crlLoop 63 63) Fld.crlLoopBound 8).setFld (Reg.crlStat 63 63)
       Fld.crlStatAvail 6
     d.flag (Reg.crlLoop 63 63) Fld.crlLoopEn = true ∧
     d.fld (Reg.crlStat 63 63) Fld.crlStatAvail + 2 ≤ d.fld (Reg.crlLoop 63 63) Fld.crlLoopBound ∧
     d.fld (Reg.crlLoop 63 63) Fld.crlLoopBound < d.fld (Reg.crlStat 63 63) Fld.crlStatAvail + 3) := by decide

theorem witness_Tokens_arrive :
    (let d := grouped on
     d.alive = true ∧ d.coreState 0 ≠ coFenced ∧ d.iqSpill 0 0 0 false = none ∧ d.iqTakes 0 0 0 false = true ∧ d.iqTakes 0 0 0 true = false ∧
     tokA.epoch.toNat = d.engEpoch 0 0 ∧ ({ tokA with epoch := 1 } : Token).epoch.toNat ≠ d.engEpoch 0 0) ∧
    ((on.setFld (coStatAddr 16) Fld.coStatState coFenced).coreState 16 = coFenced) ∧
    (let r := { CounterRec.init with mode := 2, waiting := true }
     let d := (grouped on).setCounter ((grouped on).cuRef 0 15) r
     d.coreState 0 = coRun ∧ (d.counter (d.cuRef 0 15)) = r ∧ r.mode = 2 ∧ r.waiting = true ∧ r.held = [] ∧
     d.openSpillOf (clOf 0) (cuEndp (clOf 0) (d.logicalOf 0)) = none ∧ (d.core 0).cuHeld = []) ∧
    (let d := (grouped on).setCounter ((grouped on).cuRef 0 15) { CounterRec.init with mode := 2, waiting := true, held := [(3, 1, false)] }
     (d.counter (d.cuRef 0 15)).held = [(3, 1, false)]) ∧
    (let c := grouped on
     let d := { c with fab := { c.fab with circuits := [{ circA with src := ⟨2, 0, c.logicalOf 0, 0, 15, 0⟩ }] } }
     d.ctrCircs (d.cuRef 0 15) ≠ []) := by decide

/-- Core 0 in service at logical position 0 with a free-class queue 0 of engine 0, whose spill is open, and one of its counter unit's output. -/
def spillDev : Dev :=
  let c : CtxRec := { ctx0 with qclass := 1 }
  let d := ((grouped on).setFld (coStatAddr 0) Fld.coStatLogical 0).setCore 0 { CoreRec.init with ctxs := [(0, some c)] }
  ((d.setDrip 0 0 ⟨[iqEndp 0 0 0 0, cuEndp 0 0], none, none⟩).setSpill 0 1 (some ⟨0, 0, [], 0, false⟩)).setSpill 0 2 (some ⟨0, 1, [], 0, false⟩)

theorem witness_Tokens_spill :
    (spillDev.iqSpill 0 0 0 true = some (1, ⟨0, 0, [], 0, false⟩) ∧ spillDev.iqTakes 0 0 0 true = true) ∧
    (let d := spillDev.setFld (Reg.drpAsize 0) Fld.drpAsizeSize64k 0
     d.openSpillOf (clOf 0) (cuEndp (clOf 0) (d.logicalOf 0)) = some (2, ⟨0, 1, [], 0, false⟩) ∧ d.segCap (clOf 0) ≤ 0 ∧
     d.iqTakes 0 0 0 true = false) := by decide

/-- A timed circuit whose position of its first link's wheel comes second, with a place before its second link. -/
theorem witness_Tokens_cross :
    let x : Circuit := { circA with free := false, route := [(1, 2), (2, 1)] }
    let c := { on with fab := { on.fab with circuits := [x], wheels := [⟨1, 4⟩] } }
    let d := c.setWaiting 5 0 [⟨{ tokA with free := false }, 0⟩]
    d.alive = true ∧ d.linkCarries 1 = true ∧ (d.fab.wheels.find? fun y => y.link = 1) = some ⟨1, 4⟩ ∧
    d.ownerReady 1 4 (((d.wpos 1).ptr + 0) % 16) = none ∧ d.ownerReady 1 4 (((d.wpos 1).ptr + 1) % 16) = some (x, 0) ∧
    d.waitAt 5 0 = { tokA with free := false } :: [] ∧ 0 + 1 < x.route.length ∧ (0 < 0 ∨ x.src.kind ≠ 2) ∧ x.stat = false ∧
    d.fifoFull x (x.link 0) = false ∧ flitOn (x.link 0) = none ∧ d.linkFenced (x.link 1) = false ∧ d.spillAt x 1 = none := by
  decide

/-- With one circuit ready, a free-class position serves it. -/
theorem ownerReady_one (d : Dev) (l codes j : Nat) (p : Circuit × Nat) (hc : bitsOf codes (2 * j) 2 = 2) (hl : (d.wpos l).last = none)
    (hr : (d.fab.circuits.filterMap fun x =>
      if x.free then (((x.hopsOn l).find? fun h => d.canCross x h).map fun h => (x, h)) else none) = [p]) :
    d.ownerReady l codes j = some p := by
  simp [Dev.ownerReady, hc, hl, hr]

/-- The inbound buffer of crossbar port 0 of cluster 0, as a queue of a Drip set. -/
def portQ : Endp := ⟨3, 0, 0, 0, 1, 0⟩

/-- A free-class position whose circuit's next store has no open spill. -/
theorem witness_Tokens_cross_free :
    let x : Circuit := { circA with route := [(1, 1), (2, 1)] }
    let c := { on with fab := { on.fab with circuits := [x], wheels := [⟨1, 2⟩] } }
    let d := c.setWaiting 5 0 [⟨tokA, 0⟩]
    d.ownerReady 1 2 (((d.wpos 1).ptr + 0) % 16) = some (x, 0) ∧ d.waitAt 5 0 = tokA :: [] ∧ x.free = true ∧
    d.spillAt x 1 = none := by
  refine ⟨ownerReady_one _ _ _ _ _ (by decide) (by decide) (by decide), by decide, by decide, by decide⟩

/-- The same with an open spill of that store. -/
theorem witness_Tokens_cross_spilt :
    let x : Circuit := { circA with route := [(1, 1), (2, 1)] }
    let sp : Spill := ⟨0, 0, [.at 5 1 tokA], 1, false⟩
    let b := { on with fab := { on.fab with circuits := [x], wheels := [⟨1, 2⟩] } }
    let d := (b.setWaiting 5 0 [⟨tokA, 0⟩] |>.setDrip 0 0 ⟨[portQ], none, none⟩).setSpill 0 1 (some sp)
    d.ownerReady 1 2 (((d.wpos 1).ptr + 0) % 16) = some (x, 0) ∧ d.waitAt 5 0 = tokA :: [] ∧ x.free = true ∧
    d.spillAt x 1 = some (0, 1, sp) := by
  refine ⟨ownerReady_one _ _ _ _ _ (by decide) (by decide) (by decide), by decide, by decide, by decide⟩

/-- The same toward a die link's flit. -/
theorem witness_Tokens_cross_flit :
    let c := { on with fab := { on.fab with circuits := [circE], wheels := [⟨edge45, 1⟩] } }
    let d := c.setWaiting 5 0 [⟨{ tokA with free := false }, 0⟩]
    d.linkCarries edge45 = true ∧ (d.fab.wheels.find? fun y => y.link = edge45) = some ⟨edge45, 1⟩ ∧
    d.ownerReady edge45 1 ((d.wpos edge45).ptr % 16) = some (circE, 0) ∧ d.waitAt circE.key 0 = { tokA with free := false } :: [] ∧
    circE.src.kind ≠ 2 ∧ circE.stat = false ∧ d.fifoFull circE (circE.link 0) = false ∧ flitOn (circE.link 0) = some 26 := by
  decide

/-- The same at a circuit's end, the input queue of a running engine. -/
theorem witness_Tokens_cross_end :
    let x : Circuit := { circA with free := false, route := [(1, 1)] }
    let g := grouped on
    let c := { g with fab := { g.fab with circuits := [x], wheels := [⟨1, 1⟩] } }
    let d := c.setWaiting 5 0 [⟨{ tokA with free := false }, 0⟩]
    d.ownerReady 1 1 ((d.wpos 1).ptr % 16) = some (x, 0) ∧ 0 + 1 = x.route.length ∧ x.dst.kind = 1 ∧
    d.coreState (d.physCore x.dst.cl x.dst.core) = coRun ∧ d.iqSpill (d.physCore x.dst.cl x.dst.core) x.dst.eng x.dst.idx false = none ∧
    d.iqTakes (d.physCore x.dst.cl x.dst.core) x.dst.eng x.dst.idx false = true ∧
    tokA.epoch.toNat = d.engEpoch (d.physCore x.dst.cl x.dst.core) x.dst.eng ∧
    (∀ j < 16, c.ownerReady 1 1 (((c.wpos 1).ptr + j) % 16) = none) := by
  decide

/-- Core 0 in service at logical position 0, with a timed circuit of K_c 2 to port 35, and event 7 admitted. -/
def owing : Dev :=
  let x : Circuit := ⟨5, false, false, 1, 2, ⟨0, 0, 0, 0, 0, 0⟩, ⟨3, 0, 0, 0, 0, 35⟩, [(1, 1), (3, 1)]⟩
  let d := grouped (armed.setFld (coStatAddr 0) Fld.coStatLogical 0)
  { d with fab := { d.fab with circuits := [x] } }.putEv { Ev.init 7 with admitted := true }

theorem witness_CoreStates :
    (let d := on.setFld (coStatAddr 1087) Fld.coStatState coTest
     d.alive = true ∧ d.coreState 1087 = coTest ∧ (d.core 1087).passed = false ∧ posOf 1087 = 16) ∧
    (let d := (startUp 8).setFld (coStatAddr 0) Fld.coStatState coLoad
     d.starting = true ∧ d.stepNo = 8 ∧ d.coreState 0 = coLoad ∧ d.boot.restarts < 4) ∧
    (let x : Circuit := ⟨5, false, false, 1, 2, ⟨0, 0, 0, 0, 0, 0⟩, ⟨3, 0, 0, 0, 0, 35⟩, [(1, 1), (3, 1)]⟩
     owing.alive = true ∧ owing.coreState 0 = coRun ∧ owing.leaving 0 = [x] ∧ owing.owedEvents = [7] ∧ (owing.cst x.key).slot = none ∧
     x.portHop = 1 ∧ linkKind (x.link x.portHop) = 3 ∧
     (∀ y ∈ owing.fab.circuits, ∀ h < y.route.length, y.key * 256 + h = x.key * 256 + x.portHop → linkKind (y.link h) = 3)) := by decide

/-- A wave to context 1 in group 3. -/
def wave1 : Wave := ⟨1, 1, 0, false, false, [0], none⟩

/-- A SWITCH marker. -/
def markTok : Token := { tokA with kind := 3 }

/-- Group 3 in the wave, circuit A into its core 0, and a marker at the head of the queue. -/
def waved : Dev :=
  let d := grouped (on.setFld (coStatAddr 0) Fld.coStatLogical 0)
  let d := { d with fab := { d.fab with circuits := [circA] } }
  (d.setIq 0 0 0 [markTok]).setGrp 3 { GroupRec.init with cores := [0], wave := some wave1 }

theorem witness_SwitchWave_request :
    (let d := grouped on
     d.alive = true ∧ (d.grp 3).cores ≠ [] ∧ (d.grp 3).req = none ∧ (d.grp 3).secFailed = false ∧
     (∀ c ∈ (d.grp 3).cores, d.coreState c = coFenced ∨ (d.ctxRec c 1).isSome = true)) ∧
    (on.grp 0).cores = [] := by decide

theorem witness_SwitchWave_marker :
    (let d := waved
     d.alive = true ∧ d.circ 5 = some circA ∧ d.srcCore circA = none ∧ d.dstCore circA = some 0 ∧ d.waveOf 0 = some wave1 ∧
     circA.inCtx (d.coreCtx 0) = true ∧ (d.cst circA.key).marked = false ∧ circA.free = true ∧ d.spillAt circA 0 = none) ∧
    (let d := waved
     d.coreState 0 = coRun ∧ 0 ∈ wave1.left ∧ (d.eng 0 0).switched = false ∧ d.usedQueues 0 0 (d.coreCtx 0) = [0] ∧
     d.markersIn 0 0 = true ∧ (d.eng 0 1).switched = false ∧ (d.core 0).cuSwitched = false ∧
     ∀ k ∈ d.fedCounters 0 (d.coreCtx 0), k ∈ (d.core 0).cuMarks) := by decide

/-- Every engine of core 0 is fed by a circuit, so that none switches at once when a request is accepted; engine 0 by a timed one. -/
def fedDev : Dev :=
  let d := grouped (armed.setFld (coStatAddr 0) Fld.coStatLogical 0)
  { d with fab := { d.fab with
      circuits := (List.range 64).map fun e => { circA with key := e, free := decide (e ≠ 0), dst := ⟨1, 0, 0, e, 0, 0⟩ } } }.setGrp 3
    { GroupRec.init with cores := [0], req := some ⟨1, false, false, none⟩ }

theorem witness_SwitchWave_accept :
    fedDev.alive = true ∧ (fedDev.grp 3).req = some ⟨1, false, false, none⟩ ∧ (fedDev.grp 3).wave = none ∧ fedDev.coreState 0 = coRun ∧
    (fedDev.ctxRec 0 1).isSome = true ∧ (∀ e < 64, fedDev.usedQueues 0 e (fedDev.grp 3).ctx ≠ []) ∧
    fedDev.groupTimed (fedDev.grp 3) 1 = true ∧ fedDev.tev ≠ 0 := by decide

theorem witness_SwitchWave_section :
    (let x : GroupRec := { GroupRec.init with sections_ := [⟨0, 0, 0, false, 0, 0x1F, 0, 128⟩], loading := some 0 }
     let c := { on with fab := { on.fab with cmem := [(0, 0x58), (1, 0x54), (2, 0x43), (3, 0x5A), (4, 1)] } }
     let d := c.setGrp 63 x
     d.alive = true ∧ (d.grp 63).loading = some 0 ∧ (d.grp 63).sections_[0]? = some ⟨0, 0, 0, false, 0, 0x1F, 0, 128⟩ ∧
     contextFormed (d.sectionBytes 63 ⟨0, 0, 0, false, 0, 0x1F, 0, 128⟩) = true) ∧
    (on.setStack 3 { StkRec.init with grant := 3 }).stackRec 3 = { StkRec.init with grant := 3 } ∧
    (on.setFld (Reg.stkScfg 3) Fld.stkScfgState skUp).stackState 3 = skUp := by decide +kernel

/-- A bad word of cluster memory at the start of a section's bytes lies in bank 0, core 0's. -/
theorem witness_SwitchWave_section_bad :
    17 * 0 + (grouped on).physBank 0 (cmemBank (0 + 0)) / 2 = 0 ∧ (grouped on).coreState 0 = coRun := by decide

/-- An ALU descriptor of engine 0: integer operation 0 on registers 0 and 1 into register 2, free class, no output. -/
def aluWord : Nat := 5 + 2 ^ 5 + 2 ^ 6 + 3 * 2 ^ 18 + 3 * 2 ^ 20 + 0 * 2 ^ 24 + 1 * 2 ^ 30 + 2 * 2 ^ 36 + 127 * 2 ^ 50 + 127 * 2 ^ 57

/-- Core 0 in service with that descriptor. -/
def aluDev : Dev :=
  (grouped on).setCore 0 { CoreRec.init with ctxs := [(0, some { ctx0 with descs := [(0, aluWord)] })] }

/-- A SEND descriptor of engine 0: register 0 on output 0, free class. -/
def sendWord : Nat := 4 + 2 ^ 5 + 2 ^ 6 + 127 * 2 ^ 57

/-- Core 0 in service at logical position 0 with that descriptor and a circuit from its output. -/
def sendDev : Dev :=
  let d := (grouped (on.setFld (coStatAddr 0) Fld.coStatLogical 0)).setCore 0
    { CoreRec.init with ctxs := [(0, some { ctx0 with descs := [(0, sendWord)] })] }
  { d with fab := { d.fab with circuits := [{ circA with src := ⟨0, 0, 0, 0, 0, 0⟩ }] } }

theorem witness_EngineIssues :
    (on.alive = true ∧ on.coreState 0 ≠ coRun) ∧
    (let D := aluDev.atIssue 0 0 [] 0 0
     aluDev.coreState 0 = coRun ∧ ((D.descs 0 0).filter fun k => decide (D.holdOf 0 0 k = .ready)) = [0] ∧
     (D.desc 0 0 0).free = true ∧ (D.desc 0 0 0).op = 5 ∧ (D.desc 0 0 0).srcA = 3 ∧ (D.desc 0 0 0).srcB = 3 ∧
     (D.desc 0 0 0).out0 = 127 ∧ (D.desc 0 0 0).ctrUse = 0 ∧ (aluInt 0 0 0).isSome = true) := by decide +kernel

theorem witness_EngineIssues_send :
    let D := sendDev.atIssue 0 0 [] 0 0
    let x : Circuit := { circA with src := ⟨0, 0, 0, 0, 0, 0⟩ }
    sendDev.coreState 0 = coRun ∧ ((D.descs 0 0).filter fun k => decide (D.holdOf 0 0 k = .ready)) = [0] ∧
    (D.desc 0 0 0).op = 4 ∧ (D.desc 0 0 0).free = true ∧ (D.desc 0 0 0).ctrUse = 0 ∧ D.outCircs 0 0 (D.desc 0 0 0).out0 = [x] ∧
    D.spillAt x 0 = none := by decide +kernel

/-- A WSWRITE descriptor of engine 0, free class. -/
def storeWord : Nat := 12 + 2 ^ 5 + 2 ^ 6 + 3 * 2 ^ 18 + 3 * 2 ^ 20 + 127 * 2 ^ 50 + 127 * 2 ^ 57

/-- Its access of port B of bank 0 loses to a timed one. -/
theorem witness_EngineIssues_loses :
    let s := (grouped on).setCore 0 { CoreRec.init with ctxs := [(0, some { ctx0 with descs := [(0, storeWord)] })] }
    let rivals : List BankUse := [⟨true, 0, true, false⟩]
    let D := s.atIssue 0 0 rivals 1 0
    s.coreState 0 = coRun ∧ ((D.descs 0 0).filter fun k => decide (D.holdOf 0 0 k = .ready)) = [0] ∧ (D.desc 0 0 0).free = true ∧
    D.issueLoses 0 0 0 rivals = true := by decide +kernel

/-- Queue 0 of engine 0 of core 0 as an endpoint. -/
def qA : Endp := ⟨1, 0, 0, 0, 0, 0⟩

theorem witness_DripSpills :
    (let r : DripRec := ⟨[qA], some 100, none⟩
     let d := on.setDrip 63 31 r
     d.alive = true ∧ (d.drip 63 31).since = some 100 ∧ (d.drip 63 31).spilling = none ∧
     100 + d.fld (Reg.drpCfg 63) Fld.drpCfgDripWaitNs ≤ d.devNs) ∧
    (let d := (on.setDrip 0 0 ⟨[qA], some 100, some (0, 3)⟩).setStack 0 { StkRec.init with grant := 4 }
     (d.drip 0 0).spilling = some (0, 3) ∧ ((d.drip 0 0).queues.getD 0 ⟨0, 0, 0, 0, 0, 0⟩).kind = 1 ∧
     d.fld (Reg.drpArea 0) Fld.drpAreaStack = 0 ∧ (d.stackRec 0).grant = 4) ∧
    (let x : Spill := ⟨0, 0, [.at 5 0 tokA], 1, false⟩
     let d := ((on.setDrip 0 0 ⟨[qA], none, none⟩).setSpill 0 3 (some x)).setStack 0 { StkRec.init with grant := 4 }
     d.spill 0 3 = some x ∧ (∀ m < 4, m ≠ 3 → d.spill 0 m = none) ∧ x.toks = .at 5 0 tokA :: [] ∧
     (d.stackRec 0).grant = 4 ∧ ((d.drip 0 0).queues.getD 0 ⟨0, 0, 0, 0, 0, 0⟩).kind = 1 ∧ d.queueLen qA < 2 ∧
     d.iqClosed (d.physCore 0 0) 0 0 = false ∧ d.iqClass (d.physCore 0 0) 0 0 ≠ some false ∧ d.stackState 0 ≠ skFailed) ∧
    ((on.setFld (Reg.stkScfg 0) Fld.stkScfgState skFailed).stackState 0 = skFailed ∧
      (on.setFld (Reg.stkScfg 0) Fld.stkScfgState skUp).stackState 0 = skUp) := by decide

/-- Queue A with eight tokens and a ninth waiting at its circuit's last hop: its set is blocked. -/
theorem witness_DripSpills_blocked :
    let x : Circuit := { circA with route := [(1, 1)] }
    let b := grouped (on.setFld (coStatAddr 0) Fld.coStatLogical 0)
    let c := { b with fab := { b.fab with circuits := [x] } }
    let d := ((c.setIq 0 0 0 (List.replicate 8 tokA)).setWaiting 5 0 [⟨tokA, 0⟩]).setDrip 0 0 ⟨[qA], some 100, none⟩
    (d.drip 0 0).since = some 100 ∧ (d.drip 0 0).spilling = none ∧ 100 + d.fld (Reg.drpCfg 0) Fld.drpCfgDripWaitNs ≤ d.devNs ∧
    d.dripBlocked 0 0 = true ∧ (∀ j < 4, d.spill 0 j = none) ∧ (on.setDrip 0 0 ⟨[qA], some 100, none⟩).dripBlocked 0 0 = false := by decide

/-! The stacks and the numerics -/

/-- Stack k in a state. -/
def stk (k st : Nat) : Dev := on.setFld (Reg.stkScfg k) Fld.stkScfgState st

theorem witness_StackStates :
    ((stk 11 skTrain).alive = true ∧ (stk 11 skTrain).stackState 11 = skTrain) ∧
    (let d := (stk 0 skTrain).setStack 0 { StkRec.init with trains := 2 }
     d.stackState 0 = skTrain ∧ 2 ≤ (d.stackRec 0).trains) ∧
    ((stk 3 skTest).stackState 3 = skTest ∧ (stk 3 skTest).rd (Reg.stkPpr 3) < 2 ^ 32) ∧ (stk 3 skUp).stackState 3 = skUp ∧
    (let d := (stk 3 skFailed).setStack 3 { StkRec.init with failedAt := some (100000000000 - 128) }
     d.stackState 3 = skFailed ∧ (d.stackRec 3).failedAt = some (100000000000 - 128) ∧ (100000000000 - 128) + 128 ≤ d.devNs) := by decide

/-- A context that stages 64 blocks of 512 bytes. -/
def ctxS : CtxRec := { ctx0 with ring := 64 * 2 ^ 16 }

/-- A block for core 0. -/
def flightA : Flight := ⟨0, 0, true, 0, 0, 0, 0, 512, 0, false, 0, [1], false⟩

/-- Stack 0 with that block to read in slot 0, after total slots. -/
def readDev (total : Nat) : Dev :=
  (((stk 0 skUp).wr (Reg.stkPlan 0 0) 1).setStack 0 { StkRec.init with total := total, readsT := [flightA] }).setCore 0
    { CoreRec.init with ctxs := [(0, some ctxS)] }

theorem witness_StackWork :
    (let d := (stk 0 skUp).wr (Reg.stkPlan 0 0) 1
     d.alive = true ∧ d.stackState 0 = skUp ∧ d.planCode 0 (d.stackRec 0).slot = 1 ∧ (d.stackRec 0).readsT = [] ∧
     (d.stackRec 0).reqs = [] ∧ d.openWaits 0 = [] ∧
     { d with acq := { d.acq with bufs := [(0, [(63, item)])] } }.openWaits 0 = [1]) ∧
    (let d := readDev 100
     d.planCode 0 (d.stackRec 0).slot = 1 ∧ (d.stackRec 0).readsT = flightA :: [] ∧ d.stageRoom flightA [] = true ∧
     (d.stackRec 0).readOk (d.stackRec 0).total flightA.addr = true ∧ (readDev 15).stageRoom flightA [] = true ∧
     ((readDev 15).stackRec 0).readOk ((readDev 15).stackRec 0).total flightA.addr = false ∧ (d.setCore 0 CoreRec.init).stageRoom flightA [] = false) ∧
    (let r := { StkRec.init with total := 1951 }
     SMap.get (fun _ => 0) r.refreshed 15 + 1950 < r.total ∧ ¬ SMap.get (fun _ => 0) { r with total := 1950 }.refreshed 15 + 1950 < 1950) ∧
    ((stk 0 skUp).bankWanted 0 0 = false ∧ (readDev 100).bankWanted 0 0 = true) := by decide

/-- Stack 2 with that block on its way to core 0. -/
def stagedDev : Dev :=
  ((stk 0 skUp).setStack 2 { StkRec.init with flights := [flightA] }).setCore 0 { CoreRec.init with ctxs := [(0, some ctxS)] }

theorem witness_StackWork_staged :
    flightA ∈ (stagedDev.stackRec 2).flights ∧ flightA.core = 0 ∧ stagedDev.ctxRec 0 flightA.ctx = some ctxS ∧
    ∀ j < 3, ∀ g ∈ (stagedDev.stackRec j).flights, g.core = 0 →
      flightA.stamp ≤ g.stamp ∧ (flightA.stamp = g.stamp → j = 2 ∧ g = flightA) := by decide

/-- Row 4095 of cluster 0 in use, with class 0 adapting by steps of tokens; one step is complete. -/
def rowDev : Dev :=
  ((((on.setFld (Reg.numRow 0 4095) Fld.numRowInUse 1).setFld (Reg.numRcCfg 0 0) Fld.numRcCfgMode 1).setFld (Reg.numRcCfg 0 0)
    Fld.numRcCfgStepKind 1).setFld (Reg.numRcLimits 0 0) Fld.numRcLimitsSatLimit 3).setRow 0 4095
    { RowRec.init with due := [{ StepStat.init with seen := 1, sat := 4 }], sent := 1, exps := [(1, 2)] }

theorem witness_ScalesAndEpochs_rows :
    (rowDev.alive = true ∧ rowDev.flag (Reg.numRow 0 4095) Fld.numRowInUse = true ∧
      rowDev.closing 0 4095 = some { StepStat.init with seen := 1, sat := 4 } ∧
      rowDev.flag (rowDev.rowCfg 0 4095) Fld.numRcCfgMode = true ∧ fieldOf (rowDev.stepWord Reg.numGcfg false) Fld.numGcfgScaleHold ≠ 1 ∧
      fieldOf (rowDev.stepWord (rowDev.rowLimits 0 4095) false) Fld.numRcLimitsSatLimit < 4) ∧
    (let d := { rowDev with fab := { rowDev.fab with circuits := [circA] } }
     ((d.row 0 4095).exps.find? fun z => decide (z.1 = (d.row 0 4095).sent + 1 - d.fld (d.rowCfg 0 4095) Fld.numRcCfgLag)) = some (1, 2) ∧
     d.stepBegun 0 4095 (d.row 0 4095).sent = true ∧ (d.portCircs 0 35)[d.rowIndex 0 4095]? = some circA ∧ d.circWave circA = none ∧
     d.spillAt circA 0 = none) := by decide

theorem witness_ScalesAndEpochs_scrim :
    let x : Circuit := { circA with src := ⟨3, 0, 0, 0, 0, 34⟩ }
    let c := { on with fab := { on.fab with circuits := [x] } }
    let d := { c with num := { c.num with scrimIn := [(0, [⟨0, 0, false, 3⟩])] } }
    let e := { d with num := { d.num with dir := [⟨0, 0, 0, true, false, 0⟩, ⟨0, 0, 1, true, false, 0⟩] } }
    d.alive = true ∧ d.fit 34 = true ∧ SMap.get (fun _ => []) d.num.scrimIn (4096 * 0 + 0) = ⟨0, 0, false, 3⟩ :: [] ∧
    d.scrimCount 0 0 3 ≤ 1 ∧ 1 < e.scrimCount 0 0 3 ∧ (d.portCircs 0 34)[0]? = some x ∧ d.circWave x = none ∧ d.spillAt x 0 = none := by decide

/-- The place of a row without entries in the Scrim directory is the first circuit's. -/
theorem witness_ScalesAndEpochs_place : ((on.scrimRows 0).takeWhile fun y => y ≠ 0).length = 0 := by
  simp [Dev.scrimRows, on, Dev.wr, Dev.init]

/-- Core 0 with a paired context in service; its live block is block 0 of the weight store and its shadow block 1. -/
def pairDev : Dev :=
  let live : CtxRec := ⟨3, 2 + 1 * 4, 0, 0, 0, [1 * 2 ^ 19], []⟩
  let shadow : CtxRec := ⟨3, 2 + 0 * 4, 0, 0, 0, [1 * 2 ^ 19 + 2 * 2 ^ 32], []⟩
  (grouped on).setCore 0 { CoreRec.init with ctxs := [(0, some live), (1, some shadow)] }

theorem witness_ScalesAndEpochs_epochs :
    (let d := pairDev.setAdapt 3 { AdaptRec.init with committing := true }
     d.alive = true ∧ (d.adapt 3).committing = true ∧ d.pairOther 3 = some 1) ∧
    (let d := pairDev.setAdapt 3 { AdaptRec.init with copyDue := true, copying := [0] }
     (d.adapt 3).copyDue = true ∧ (d.adapt 3).copying = [0] ∧ (d.adapt 3).held = [] ∧ (d.ctxRec 0 (d.coreCtx 0)).map CtxRec.storeBlocks = some [0] ∧
     (d.ctxRec 0 1).map CtxRec.storeBlocks = some [512] ∧ (d.ctxRec 0 0).map CtxRec.other = some 1 ∧ 0 / 512 * 512 = 0 % 2 ^ 18 / 512 * 512) := by
  decide

/-! The time service -/

/-- An Announce message of the grandmaster 1. -/
def annA : AnnounceMsg := ⟨0, 1, 128, 6, 0x20, 0, 128, 1, 0, 37, true, false, false, false, 0⟩

/-- The device with that time transmitter chosen. -/
def ptpDev : Dev := { on with tms := { on.tms with foreign := [⟨annA, 0⟩], chosen := some 1, twoStep := some ⟨5, 100, 0⟩ } }

theorem witness_PtpMessages :
    (on.alive = true ∧ on.fit 36 = true ∧ on.tms.ethUp = true ∧ annA.domain.toNat = on.fld Reg.tmsCfg Fld.tmsCfgDomain ∧
      (on.tms.foreign.filter fun f => decide (f.msg.sender ≠ annA.sender) && decide (on.devNs < f.heardAt + on.announceLimit f)).length < 8) ∧
    ((ptpDev.tms.foreign.find? fun f => some f.msg.sender = ptpDev.tms.chosen) = some ⟨annA, 0⟩ ∧
      ptpDev.fld Reg.tmsPtp Fld.tmsPtpAnnTimeout = 3 ∧ annA.logAnnounce = 0) ∧
    (ptpDev.tms.twoStep = some ⟨5, 100, 0⟩ ∧ (ptpDev.src 1).delay = none) ∧
    (let d := ptpDev.setFld Reg.tmsCfg Fld.tmsCfgSrcA 1
     d.tms.chosen ≠ none ∧ d.named 1 = true ∧ (d.src 1).reqDue ≤ d.devNs) ∧
    (let d := ptpDev.setSrc 1 { SrcRec.init with req := some ⟨9, 4, some ⟨1, 2⟩, none, none⟩ }
     (d.src 1).req = some ⟨9, 4, some ⟨1, 2⟩, none, none⟩ ∧ (d.src 1).delay = none) := by decide

/-- A Sync of that transmitter with no exchange pending; an exchange that waits for a Follow_Up, answered and not; a delay in hand; and a
domain of another service. -/
theorem witness_PtpMessages_exchange :
    (let m : SyncMsg := ⟨true, false, 0, 1, 5, 0, 0, 0, 0⟩
     let d := ptpDev.setSrc 1 { SrcRec.init with req := some ⟨9, 4, none, some 5, some 7⟩ }
     let e := ptpDev.setSrc 1 { SrcRec.init with req := some ⟨9, 4, none, some 5, none⟩ }
     m.domain.toNat = d.fld Reg.tmsCfg Fld.tmsCfgDomain ∧ d.tms.chosen = some m.sender ∧ (ptpDev.src 1).req = none ∧
     (d.src 1).req = some ⟨9, 4, none, some m.seq, some 7⟩ ∧ d.tms.twoStep = some ⟨m.seq, 100, 0⟩ ∧ d.source ≠ 1 ∧
     (e.src 1).req = some ⟨9, 4, none, some m.seq, none⟩ ∧ (d.src 1).delay = none) ∧
    (let d := (ptpDev.setFld Reg.tmsStat Fld.tmsStatSource 1).setSrc 1 { SrcRec.init with delay := some 0 }
     (d.src 1).delay = some 0 ∧ d.source = 1) ∧
    (1 : Byte).toNat ≠ ptpDev.fld Reg.tmsCfg Fld.tmsCfgDomain := by decide

/-- Mesh port 5 is UP and gives time, with its leading lane sending. -/
def timeDev : Dev :=
  ((((on.setFld (Reg.ptCfg 6) Fld.ptCfgTimeEn 1).setFld (laneReg 84 Reg.ingLcfg) Fld.ingLcfgFec 1).setFld Reg.tmsStat ⟨0, 3⟩
    tsLocked).setFld (Reg.mpCfg 5) Fld.mpCfgState psUp).setLane 84 { LaneRec.init with txOn := true, txRun := 1021, sinceLink := 65532 }

theorem witness_TimeBlocks :
    (let d := (timeDev.setFld Reg.tmsCfg Fld.tmsCfgSrcA 7).setSrc 7 { SrcRec.init with qualified := true, heardAt := 1 }
     d.alive = true ∧ d.fit 36 = true ∧ d.named 7 = true ∧ d.portUp 5 = true ∧ (d.src 7).qualified = true ∧
     (d.src 7).heardAt + 4000000000 / 2 ^ d.fld Reg.tmsPtp Fld.tmsPtpTsyncLog ≤ d.devNs ∧ (d.src 7).reqDue ≤ d.devNs) ∧
    (timeDev.givesTime 6 = true ∧ timeDev.timeState ≠ tsFreerun ∧ timeDev.portLane 6 = some 84 ∧ timeDev.carriesTime 6 = true ∧
      timeDev.sends 84 ∧ (timeDev.lane 84).txRun < 1022 ∧ (timeDev.lane 84).sinceLink < 65533 ∧
      timeDev.txDue false 6 ≤ timeDev.devNs ∧ timeDev.txDue true 6 ≤ timeDev.devNs ∧ isIngest 84 = false ∧
      timeDev.dev16 < timeDev.slotAfter 84) ∧
    (let d := ((on.setFld (Reg.ptCfg 8) Fld.ptCfgTimeEn 1).setFld Reg.tmsStat ⟨0, 3⟩ tsLocked).setLane 0 { LaneRec.init with txOn := true }
     d.givesTime 8 = true ∧ d.portLane 8 = some 0 ∧ isIngest 0 = true ∧ d.sends 0) ∧
    (on.named 7 = false ∧ on.portUp 5 = false ∧ on.source ≠ 7) := by unfold Dev.sends; decide

theorem witness_Marks :
    (let d := { on with tms := { on.tms with jump := some ⟨1, none, 2⟩, lastTheta := some 5 } }
     d.alive = true ∧ d.fit 36 = true ∧ d.tms.jump = some ⟨1, none, 2⟩ ∧ 2 ≤ d.netNs ∧ d.tms.lastTheta = some 5 ∧ d.tms.paused = []) ∧
    (let d := on.setGen 15 { GenRec.init with armed := true, mode := 3, pulseEnd := some 1 }
     (d.gen 15).armed = true ∧ d.markTime 15 (d.gen 15).k ≤ d.net16 ∧ (d.gen 15).pulseEnd = some 1 ∧ 1 ≤ d.net16) ∧
    (let d := ((on.setGen 0 { GenRec.init with armed := true, mode := 3 }).wr (Reg.mkLanesHi 0) (2 ^ 31)).setLane 63
       { LaneRec.init with txOn := true, txRun := 1022 }
     d.mkLanes 0 = 2 ^ 63 ∧ d.sends (ingestLane 63) ∧ (d.gen 0).armed = true ∧ (d.gen 0).mode = 3 ∧
     d.markTime 0 (d.gen 0).kSent ≤ d.net16 + d.fld (Reg.mkLead 0) Fld.mkLeadLeadNs * 65536) := by unfold Dev.sends; decide

/-- Its receipt timeout of 3 s is over after 100 s. -/
theorem witness_PtpMessages_timeout : 0 + ptpDev.announceLimit ⟨annA, 0⟩ ≤ ptpDev.devNs := by
  have h : ptpDev.fld Reg.tmsPtp Fld.tmsPtpAnnTimeout = 3 := by decide
  have h' : ptpDev.devNs = 100000000000 := rfl
  simp only [Dev.announceLimit, h, h', annA]
  have e : ((3 : Nat) : Rat) * 1000000000 * 2 ^ (0 : Int) = ((3000000000 : Int) : Rat) := by norm_num
  have f : (((3 : Nat) : Rat) * 1000000000 * 2 ^ (0 : Int)).floor = 3000000000 := by rw [e]; exact Rat.floor_intCast _
  rw [f]
  decide

/-! The group and the host -/

/-- Mesh port 5 in a state, its leading lane sending. -/
def portDev (st : Nat) : Dev :=
  (on.setFld (Reg.mpCfg 5) Fld.mpCfgState st).setLane 84 { LaneRec.init with txOn := true, txRun := 1022 }

/-- A block from device s to device t with SEQ 0 (Table 10.5). -/
def blkFrom (s t : Nat) : BitVec 120 := BitVec.ofNat 120 (s * 2 ^ 114 + t * 2 ^ 108)

theorem witness_MeshPorts :
    ((portDev psWait).alive = true ∧ (portDev psWait).portState 5 = psWait ∧ (portDev psWait).portLane 6 = some 84 ∧
      (portDev psWait).sends 84) ∧
    ((portDev psUp).portState 5 = psUp ∧ ((portDev psUp).port 5).matched + 4000000 ≤ (portDev psUp).devNs ∧
      (portDev psUp).portUp 5 = true ∧ (portDev psUp).group = false) ∧
    (let e := { Ev.init 500000000 with admitted := true }
     let c := (((armed.setFld (Reg.mpCfg 5) Fld.mpCfgState psUp).setFld Reg.scrGcfg Fld.scrGcfgGrpMode 1).wr Reg.mshMembersLo 3).putEv e
     bitsOf (blkFrom 1 0).toNat 114 6 = 1 ∧ c.isMember 1 = true ∧ c.group = true ∧ bitAt (blkFrom 1 0).toNat 36 = false ∧
     c.eventLow24 (500000000 % 2 ^ 24) = some e ∧ c.eventLow24 (bitsOf (blkFrom 1 0).toNat 90 24) = none ∧ e.closed = false ∧
     e.heard = [] ∧ c.net16 ≤ (c.relTime e.n - 12) * 65536) := by unfold Dev.sends; decide

/-- A member whose contributions go on by port 5; and two blocks that wait for lane 84's slot, the contribution the more urgent. -/
theorem witness_MeshPorts_slots :
    (let d := (portDev psUp).setFld (Reg.mshFwd 1) Fld.mshFwdPorts 32
     d.fld (Reg.mshFwd 1) Fld.mshFwdPorts = 2 ^ 5 ∧ d.contribLane 5 = some 84 ∧ d.sends 84) ∧
    (let c : Nat × Bool × BitVec 128 := (0, true, 0x41 <<< 120)
     let h : Nat × Bool × BitVec 128 := (3, false, 0)
     let d := on.setLane 84 { LaneRec.init with txOn := true, txq := [h, c] }
     (d.lane 84).txFree ≤ d.dev16 ∧ nextBlock (d.lane 84).txq = some (c, [h])) := by unfold Dev.sends; decide

/-- A member (anchor 1) with port 5 UP and the route to the anchor through it. -/
def member : Dev :=
  ((portDev psUp).setFld Reg.mshId Fld.mshIdAnchor 1).setFld (Reg.mshRoute 1) Fld.mshRoutePrimary 5

/-- The anchor, its host link up, with port 5 UP. -/
def anchorDev : Dev := ((portDev psUp).setFld Reg.hstLink Fld.hstLinkRate 6).setFld Reg.hstLink Fld.hstLinkWidth 4

theorem witness_HostMessages :
    ((on.portUp 5 = false) ∧ (member.portUp 5 = true ∧ bitsOf (blkFrom 0 1).toNat 108 6 ≠ member.devId ∧
      member.routeTo 1 = some 5 ∧ anchorDev.routeTo 2 = none ∧ member.portLane 6 = some 84)) ∧
    (member.accepts 5 (blkFrom 1 0) ∧ bitsOf (blkFrom 1 0).toNat 114 6 = member.anchor ∧ member.isAnchor = false) ∧
    (anchorDev.accepts 5 (blkFrom 1 0) ∧ bitsOf (blkFrom 1 0).toNat 114 6 ≠ anchorDev.anchor ∧
      (anchorDev.isAnchor && anchorDev.hostUp) = true) ∧
    (let d := member.setChan 1 { HostChan.init with expect := 1 }
     bitsOf (blkFrom 1 0).toNat 83 16 ≠ (d.chan 1).expect % 2 ^ 16) ∧
    (let d := { anchorDev with msh := { anchorDev.msh with reads := [⟨0, 0, 1⟩] } }
     d.msh.reads.find? (fun x => decide (x.rtag = bitsOf (blkFrom 1 0).toNat 67 16)) = some ⟨0, 0, 1⟩ ∧
     bitsOf (blkFrom 1 0).toNat 64 3 = 0) ∧
    (let d := { member with hst := { member.hst with polling := [(7, 0)], overdue := [3] } }
     (d.hst.polling.any fun x => decide (x.2 = bitsOf (blkFrom 1 0).toNat 67 16)) = true ∧ d.hst.overdue.contains 3 = true) ∧
    (SMap.get msixReset anchorDev.hst.msix (4 * 0 + 3) % 2 = 1 ∧ SMap.get msixReset [(3, 0)] (4 * 0 + 3) % 2 = 0) := by
  unfold Dev.accepts; decide

/-- The anchor's link with nothing waiting and with a message of device 1 waiting; a vector that may go out. -/
theorem witness_HostMessages_turns :
    (anchorDev.hst.jobs = [] ∧ anchorDev.hst.jobAt ≠ some anchorDev.devNs) ∧
    (let d := { anchorDev with hst := { anchorDev.hst with jobs := [(1, .vector 0)], jobLast := 1 } }
     d.jobTurn = some 1 ∧ (d.hst.jobs.any fun x => decide (x.1 = bitsOf (blkFrom 1 0).toNat 114 6)) = true) ∧
    (let d := { anchorDev with hst := { anchorDev.hst with cfg := ⟨0, false, true, false⟩, msix := [(3, 0)] } }
     d.msixOpen 0 = true ∧ anchorDev.msixOpen 0 = false) := by decide

theorem witness_HostChannel :
    (member.alive = true ∧ member.routeTo 1 = some 5 ∧ member.portLane (5 + 1) = some 84 ∧ member.sends 84 ∧
      (member.chan 0).queue = []) ∧
    ((member.setChan 1 { HostChan.init with owed := some 4 }).chan 1).owed = some 4 ∧
    (let m : HostMsg := ⟨0x47, 1, 0, 0, [], none⟩
     let d := member.setChan 1 { HostChan.init with unacked := [m], since := 99999950000 }
     (d.chan 1).unacked = m :: [] ∧ (d.chan 1).since + 50000 ≤ d.devNs ∧ d.routeTo m.dst = some 5) ∧
    (let d := anchorDev.setFld (Reg.mshFwd 0) Fld.mshFwdPorts 32
     d.isAnchor = true ∧ d.fld (Reg.mshFwd d.anchor) Fld.mshFwdPorts = 2 ^ 5 ∧ d.portUp 5 = true ∧ d.msh.hstateMs = none) := by unfold Dev.sends; decide

/-- Ring 31 of a kind, enabled and running, with two descriptors free. -/
def hrDev (kind : Nat) : Dev :=
  let d := ((anchorDev.setFld (Reg.hrCfg 31) Fld.hrCfgEnable 1).setFld (Reg.hrCfg 31) Fld.hrCfgKind kind).setFld (Reg.hrState 31)
    Fld.hrStateState 1
  (d.setFld (Reg.hrSize 31) Fld.hrSizeLog2N 4).wr (Reg.hrProduce 31) 14

theorem witness_HostRings :
    ((hrDev 1).hostUp = true ∧ ((List.range 32).any (hrDev 1).hrOn) = true ∧
      (hrDev 1).hst.polledAt + (hrDev 1).fld Reg.hstPoll Fld.hstPollHstPollNs ≤ (hrDev 1).devNs ∧
      (∀ r < 32, ((hrDev 1).hring r).zeroDue = false) ∧ (hrDev 1).isAnchor = true ∧ (hrDev 1).hst.jobs = []) ∧
    (let d := { (hrDev 1) with hst := { (hrDev 1).hst with polling := [(99999000000, 0)], overdue := [2] } }
     d.hst.polling = (99999000000, 0) :: [] ∧ d.hst.overdue = 2 :: [] ∧ 99999000000 + 1000000 ≤ d.devNs ∧ d.hrOn 31 = true ∧
     d.hrState 31 = 1 ∧ d.hrKind 31 = 1 ∧ ¬ d.hrN 31 < (d.rd (Reg.hrProduce 31) + 2 ^ 32 - 0) % 2 ^ 32 ∧
     d.hrN 31 < (d.rd (Reg.hrProduce 31) + 2 ^ 32 - 15) % 2 ^ 32) ∧
    (let d := ((hrDev 1).setFld (Reg.hrCfg 31) Fld.hrCfgIrqEn 1).setHring 31 { HostRing.init with raised := some 0, changed := true }
     (d.hring 31).raised = some 0 ∧ (d.hring 31).changed = true ∧
     0 + d.fld (Reg.hrHold 31) Fld.hrHoldIrqHoldUs * 1000 ≤ d.devNs ∧ d.flag (Reg.hrCfg 31) Fld.hrCfgIrqEn = true) ∧
    (let c := hrDev 4
     let x := { circX with free := true }
     let d := { c with fab := { c.fab with circuits := [x], entries := [⟨5, 2, 0, 0, 0⟩] } }
     ((List.range 32).find? fun r => d.hrRuns r 4) = some 31 ∧ d.rd (Reg.hrProduce 31) ≠ d.rd (Reg.hrConsume 31) ∧
     d.labelCircuit = some x ∧ d.storeRoom (x.store 0) true 4 = true) := by decide

theorem witness_Descriptors :
    ((hrDev 1).alive = true ∧ (hrDev 1).hostUp = true ∧ (hrDev 1).hrOn 31 = true ∧ (hrDev 1).hrState 31 = 1 ∧ 0 < (hrDev 1).hrFree 31 ∧
      (hrDev 1).isAnchor = true ∧ (hrDev 1).flag (Reg.hrCfg 31) Fld.hrCfgIrqEn = false ∧ (hrDev 1).hst.jobs = []) ∧
    (let c := (hrDev 1).setHring 31 { HostRing.init with chain := some 4, done := 64, frag := 1 }
     let x := { rec0 with doneAt := some 5, bytes := List.replicate 128 0 }
     let d := { c with store := { c.store with recs := [x] } }
     d.dueRecord 31 = some x ∧ (d.hring 31).expiring = none ∧ d.badLine x 0 = false ∧ d.badLine x 1 = false ∧
     128 - 64 ≤ 64 ∧ 64 % 64 = 0 ∧ d.badLine { x with bad := [64] } 64 = true) ∧
    ((hrDev 1).setHring 31 { HostRing.init with expiring := some 4 }).hrKind 31 = 1 ∧
    (let c := hrDev 2
     let d := { c with hst := { c.hst with sums := [[1]] } }
     d.hrKind 31 = 2 ∧ (d.hring 31).desc = none ∧ d.packed 31 ≠ [] ∧ (d.packed 31).length < 64 / 32 ∧
     ((List.range 32).filter fun q => d.hrRuns q 2) = [31]) ∧
    (let c := hrDev 3
     let d := { c with log := { c.log with opened := true, entries := [entry 0] } }
     d.hrKind 31 = 3 ∧ d.packed 31 ≠ [] ∧ (d.packed 31).length < 64 / 32) ∧
    (let d := (hrDev 2).setHring 31 { HostRing.init with desc := some ⟨0, 64, 32, 0⟩ }
     (d.hring 31).desc = some ⟨0, 64, 32, 0⟩ ∧ (d.packed 31).length ≤ 32 / 32 ∧ 32 / 32 < 64 / 32 ∧
     0 + d.fld Reg.hstSum Fld.hstSumFlushUs * 1000 ≤ d.devNs) := by decide

theorem witness_HostLink :
    ((anchorDev.isAnchor && anchorDev.hostUp) = true ∧ (member.isAnchor && member.hostUp) = false ∧
      (0x0050004 : BitVec 30).toNat / 2 ^ 24 = anchorDev.devId ∧ 1 ≠ anchorDev.devId ∧ anchorDev.reachable 1 = false) ∧
    (let c := (anchorDev.wr Reg.mshMembersLo 3).setFld (Reg.mshRoute 1) Fld.mshRoutePrimary 5
     let d := { c with msh := { c.msh with fwd := [(1, some c.hostOrigin)], reads := [⟨65535, 99999980000, 0⟩] } }
     d.reachable 1 = true ∧ SMap.get (fun _ => none) d.msh.fwd 1 = some d.hostOrigin ∧
     (d.msh.reads.find? fun x => decide (x.rtag = 65535) && decide (x.sentAt + 20000 ≤ d.devNs)) = some ⟨65535, 99999980000, 0⟩) ∧
    (anchorDev.fld Reg.hstLink Fld.hstLinkRate ≠ 0) := by decide

theorem witness_RecordStore :
    (let x := { rec0 with doneAt := some (100000000000 - 60000000000) }
     let d := (recDev x).setFld Reg.recRetain Fld.recRetainRetentionS 60
     d.alive = true ∧ d.record 4 = some x ∧ x.doneAt = some (100000000000 - 60000000000) ∧
     (100000000000 - 60000000000) + d.fld Reg.recRetain Fld.recRetainRetentionS * 1000000000 ≤ d.devNs) ∧
    (let d := on.setFld (Reg.chStat 7) Fld.chStatState 2
     d.fld (Reg.chStat 7) Fld.chStatState = 2 ∧ d.upChannels ≠ [] ∧ on.upChannels = []) ∧
    (on.setFld (Reg.chStat 7) Fld.chStatState 1).fld (Reg.chStat 7) Fld.chStatState = 1 := by decide

/-! The whole machine -/

theorem witness_StepRunsFront : Dev.init.inReset = true ∧ on.inReset = false ∧ (∀ t, (on.chan t).owed = none) ∧ (∀ l, (on.lane l).txq = []) ∧
    on.hst.jobs = [] :=
  ⟨by decide, by decide, fun _ => rfl, fun _ => rfl, rfl⟩

/-- The invariant holds at reset; the step from there is SoundKept's. -/
theorem witness_SoundKept : State.reset.Inv := by
  refine ⟨⟨by decide, by decide⟩, ?_, ?_⟩
  · intro x hx; simp [State.reset, Dev.init] at hx
  · unfold LogOk; decide

theorem witness_WhoActs :
    (Dev.init.inReset = true ∧ pinCommand .poll = false) ∧
    ((on.setFld Reg.bootStat Fld.bootStatMode 3).mode = 3 ∧ faultCommand .poll = false) := by decide

/-! Ill-formed commands that the check refuses, one per check -/

theorem test_wf_register_address : (Instr.registerWrite host 2 0).wf = false := by decide
theorem test_wf_multi_register_address : (Instr.multiRegisterRead host 1).wf = false := by decide
theorem test_wf_window_address : (Instr.barAccess 3 false 0).wf = false := by decide
theorem test_wf_management_offset : (Instr.mgtRequest 0 0 0 2 0 0).wf = false := by decide
/-- LEN 1 and no data block, on each kind of message. -/
theorem test_wf_message_length :
    (Instr.wreq 0 (1 <<< 99) []).wf = false ∧ (Instr.wcpl 0 (1 <<< 99) []).wf = false ∧
    (Instr.dmac 0 (1 <<< 99) []).wf = false ∧ (Instr.irq 0 (1 <<< 99)).wf = false ∧
    (Instr.hstate 0 (1 <<< 99)).wf = false ∧ (Instr.ack 0 (1 <<< 99)).wf = false := by decide
/-- No bytes to move, and 4,097. -/
theorem test_wf_dma_bytes :
    (Instr.dmaw 0 0 []).wf = false ∧ (Instr.dmar 0 0 []).wf = false ∧ bytesWf (4097 <<< 5) = false ∧
    bytesWf (4096 <<< 5) = true := by decide
theorem test_wf_self_test :
    (Instr.selfTestComplete 0 ⟨[3, 3], [], [], false, [], false⟩).wf = false := by decide
theorem test_wf_start_up :
    let e : StartEnv := ⟨false, true, [], true, true, [], [], []⟩
    (Instr.startUpStep e).wf = true ∧ (Instr.startUpStep { e with scrimFailed := [1, 1] }).wf = false ∧
    (Instr.startUpStep { e with statsFailed := [1, 1] }).wf = false ∧
    (Instr.startUpStep { e with linksDown := [(0, 1), (0, 1)] }).wf = false := by decide
theorem test_wf_copy_out :
    (Instr.captureCopyOut 0 4 0 [1, 1]).wf = false ∧ (Instr.captureCopyOut 0 4 0 [1, 3]).wf = true := by decide
theorem test_wf_appendix_block : (Instr.freeAppendixBlock 0 0 [1] false).wf = false := by decide
theorem test_wf_stall_tick : (Instr.stallTick [(0, 1), (0, 1)]).wf = false := by decide
theorem test_wf_stack_test : (Instr.stackTestComplete 0 0 [7, 7]).wf = false := by decide
theorem test_wf_scrim_partial :
    (Instr.scrimPartial 0 0 (2 ^ 64) 0 []).wf = false ∧ (Instr.scrimPartial 0 0 0 0 [2, 2]).wf = false := by decide
theorem test_wf_safe_rows : (Instr.safeEntry .menuStore [5, 5]).wf = false := by decide
/-- MK_CTL.MODE 0 is no arming write, another MODE no write that turns a generator off. -/
theorem test_wf_mark_mode :
    (Instr.mkModeArm host 0 0).wf = false ∧ (Instr.mkModeOff host 0 1).wf = false := by decide
theorem test_wf_poll_data : (Instr.pollData false [0]).wf = false := by decide
theorem test_wf_temperatures : (Instr.temperatureRead [0] [] [] [] 0).wf = false := by decide

/-! Examples worked by hand from the spec -/

/-- R74: a crossing instant truncates toward the earlier sample, falling as rising: a third of the way from 0 to 1 is 0. -/
theorem test_crossing_truncates :
    crossTime (some (10, 0)) false 5 3 1 = (0, false) ∧ crossTime (some (0, 0)) false 5 8 4 = (2, false) := by decide

/-- The example after R92: a WIDTH from 101.0 ns to 141.0 ns on samples of 2 ns, with A = 400 and H = 20; 40 ns lies inside 30 to 40. -/
theorem test_width_example :
    let i : PolIn := {
      ty := 2, either := false, x := 400, h := 20, hi := 0, t1 := 30 * 65536, fresh := false,
      prev := some (350, 100 * 65536), gap := false, s := 450, t := 102 * 65536 }
    polStep i ⟨false, none⟩ = (⟨true, some ⟨101 * 65536, false⟩⟩, none) ∧
    polStep { i with prev := some (390, 140 * 65536), s := 370, t := 142 * 65536 } ⟨true, some ⟨101 * 65536, false⟩⟩ =
      (⟨false, none⟩, some ⟨false, 141 * 65536, 40 * 65536, false⟩) ∧
    compareOk 1 (40 * 65536) 0x1E00 0x2800 = true := by decide

/-- The same example's TIMEOUT of 40 ns: the falling crossing at its D of 141.0 ns cancels it (R79). -/
theorem test_timeout_example :
    polStep {
      ty := 4, either := false, x := 400, h := 20, hi := 0, t1 := 40 * 65536, fresh := false,
      prev := some (390, 140 * 65536), gap := false, s := 370, t := 142 * 65536 } ⟨true, some ⟨101 * 65536, false⟩⟩ =
      (⟨false, none⟩, none) := by decide

/-- The example before R304: the words of event 40,000,000. -/
theorem test_words_example :
    decisionWord 40000000 true false true false false false 1 = 0x0045000002625A00 ∧
    companionWord 12 0 200 true false false 40000000 1 0 = 0x000001001C80000C ∧
    companionWord 12 0 200 true false false 40000000 1 15 = 0x000F01001C80000C := by decide

/-- Table 7.5 in FP8-E4M3: -2.5 is exact, 2.375 is a tie that goes to the even 2.5, 493.6 saturates at 448. -/
theorem test_quantise_example :
    nearestCode 3 ⟨-5, -1⟩ = 0xC2 ∧ nearestCode 3 ⟨19, -3⟩ = 0x42 ∧ nearestCode 3 ⟨4936, 0⟩ = 0x7E := by decide

/-- SHAKE256 of the empty message (FIPS 202's example). -/
theorem test_shake256_empty : shake256 [] 8 = [0x46, 0xb9, 0xdd, 0x2b, 0x0b, 0xa8, 0x8d, 0x13] := by decide +kernel

end Sys2Proof.Tests
end

section
/-!
SUPPORT. Every step, and the accesses of a device's own register window: what a read answers and captures, and what a write that is
no live write leaves.
-/

namespace Sys2Proof.Machine

open Sys2Proof

/-- What outlives every sound change of the device's parts outlives a step, idle or with a command. -/
theorem step_keeps {P : Dev → Prop} (k : ∀ S, Keeps S P) {s s' : State} (h : step s = .next s') (hs : P s.dev) : P s'.dev := by
  unfold step at h
  split at h
  · cases h
    exact Dev.idle_keeps (k _) hs
  · next i rest _ =>
    obtain ⟨d, hd, hP⟩ := exec_ends i { s with pending := rest } (k _) hs
    rw [hd] at h
    cases h
    exact hP

/-! The commands of this part, each the operation it runs out of reset. -/

theorem exec_registerWrite (s : State) (o : Origin) (w : BitVec 24) (v : Word) :
    exec (.registerWrite o w v) s = s.up fun d => d.put o w.toNat v.toNat := rfl

theorem exec_multiRegisterRead (s : State) (o : Origin) (w : BitVec 24) :
    exec (.multiRegisterRead o w) s =
      s.up fun d => (d.busRead o w.toNat).2.emit (.windowData (BitVec.ofNat 32 (d.busRead o w.toNat).1)) := rfl

theorem exec_clkLossClear (s : State) (o : Origin) (v : Word) (hw : BitVec 18) :
    exec (.clkLossClear o v hw) s = s.up fun d => d.clearLoss v.toNat hw.toNat := rfl

theorem exec_logFwdWrite (s : State) (anchorWreq : Bool) (o : Origin) (v : Word) :
    exec (.logFwdWrite anchorWreq o v) s = s.up fun d => d.fwdWrite anchorWreq o v.toNat := rfl

/-! Reads (R12) -/

section
variable {d : Dev} {o : Origin} {addr : Nat}

/-- A register that stands alone. -/
theorem Dev.busRead_alone (hr : addr / 4 * 4 ≠ Reg.logWrresult) (hn : (spanOf (addr / 4 * 4)).2 = 1) :
    d.busRead o addr = (d.peek (addr / 4 * 4), d) := by
  unfold Dev.busRead
  dsimp only
  rw [if_neg hr, if_pos hn]

/-- The lowest register of a value. -/
theorem Dev.busRead_lowest (hr : addr / 4 * 4 ≠ Reg.logWrresult) (hn : (spanOf (addr / 4 * 4)).2 ≠ 1)
    (hl : addr / 4 * 4 = (spanOf (addr / 4 * 4)).1) :
    d.busRead o addr = (d.peek (addr / 4 * 4), { d with
      caps := ⟨o, (spanOf (addr / 4 * 4)).1,
          (List.range (spanOf (addr / 4 * 4)).2).map fun i => d.peek ((spanOf (addr / 4 * 4)).1 + 4 * i)⟩ ::
        d.caps.filter fun c => decide (c.origin ≠ o ∨ c.low ≠ (spanOf (addr / 4 * 4)).1) }) := by
  unfold Dev.busRead
  dsimp only
  rw [if_neg hr, if_neg hn, if_pos hl]

/-- Another register of a value that the origin has captured. -/
theorem Dev.busRead_captured (hr : addr / 4 * 4 ≠ Reg.logWrresult) (hn : (spanOf (addr / 4 * 4)).2 ≠ 1)
    (hl : addr / 4 * 4 ≠ (spanOf (addr / 4 * 4)).1) {c : Captured}
    (hc : d.caps.find? (fun c => decide (c.origin = o ∧ c.low = (spanOf (addr / 4 * 4)).1)) = some c) :
    d.busRead o addr = (c.words.getD ((addr / 4 * 4 - (spanOf (addr / 4 * 4)).1) / 4) 0, d) := by
  unfold Dev.busRead
  dsimp only
  rw [if_neg hr, if_neg hn, if_neg hl, hc]

/-- Another register of a value that the origin has not captured. -/
theorem Dev.busRead_uncaptured (hr : addr / 4 * 4 ≠ Reg.logWrresult) (hn : (spanOf (addr / 4 * 4)).2 ≠ 1)
    (hl : addr / 4 * 4 ≠ (spanOf (addr / 4 * 4)).1)
    (hc : d.caps.find? (fun c => decide (c.origin = o ∧ c.low = (spanOf (addr / 4 * 4)).1)) = none) :
    d.busRead o addr = (d.peek (addr / 4 * 4), d) := by
  unfold Dev.busRead
  dsimp only
  rw [if_neg hr, if_neg hn, if_neg hl, hc]

/-- A read answers the register's current value, but for one that answers from a capture. -/
theorem Dev.busRead_current (hr : addr / 4 * 4 ≠ Reg.logWrresult)
    (hs : (spanOf (addr / 4 * 4)).2 = 1 ∨ addr / 4 * 4 = (spanOf (addr / 4 * 4)).1 ∨ d.caps = []) :
    (d.busRead o addr).1 = d.peek (addr / 4 * 4) := by
  by_cases hn : (spanOf (addr / 4 * 4)).2 = 1
  · rw [Dev.busRead_alone hr hn]
  by_cases hl : addr / 4 * 4 = (spanOf (addr / 4 * 4)).1
  · rw [Dev.busRead_lowest hr hn hl]
  · have hcaps : d.caps = [] := (hs.resolve_left hn).resolve_left hl
    rw [Dev.busRead_uncaptured hr hn hl (by rw [hcaps]; rfl)]

end

/-- A read command sends the word read, and leaves the captures of the read. -/
theorem gives_read {s : State} {o : Origin} {w : BitVec 24} {v : Nat} {e : Dev} (hs : s.dev.inReset = false)
    (h : s.dev.busRead o w.toNat = (v, e)) :
    Gives (.multiRegisterRead o w) s fun d => d.outbox = .windowData (BitVec.ofNat 32 v) :: s.dev.outbox ∧ d.caps = e.caps ∧
      s.dev.keepsBut [.caps, .outbox] d := by
  have hout : e.outbox = s.dev.outbox :=
    of_snd h (Dev.busRead_keeps (Part.same_keeps (d := s.dev) .outbox rfl) rfl)
  have hkeep : s.dev.keepsBut [.caps, .outbox] e :=
    of_snd h (Dev.busRead_keeps ((keepsBut_keeps [.caps, .outbox] s.dev).mono rfl) (keepsBut_refl _ _))
  refine gives_up (exec_multiRegisterRead ..) hs ?_
  rw [h]
  exact ⟨congrArg _ hout, rfl, Dev.emit_keeps ((keepsBut_keeps _ _).mono rfl) hkeep⟩

/-- The registers of a unit that is not fitted read UNFITTED (R5). -/
theorem Dev.peek_unfitted {d : Dev} {a : Nat} (hm : d.mode = 3 → a < 0x40000) (hf : d.unitFitted a = false) :
    d.peek a = Status.unfitted.code := by
  unfold Dev.peek
  rw [if_neg (fun h => absurd (hm h.1) (by omega)), if_pos hf]

/-! Writes -/

/-- A register written changes that register and nothing else. -/
theorem Dev.wr_frame (d : Dev) (a v : Nat) : d.regsBut [a] (d.wr a v) ∧ d.keepsBut [.regs] (d.wr a v) :=
  ⟨fun _ hb => Dev.rd_wr_ne d _ (List.ne_of_not_mem_cons hb), Dev.wr_keeps (keepsBut_keeps _ _) (keepsBut_refl _ _)⟩

/-- A register after its RW and W1C bits are written. -/
theorem Dev.plainWrite_rd (d : Dev) (r : RegRow) (a v hw : Nat) :
    (d.plainWrite r a v hw).rd a = ((((d.rd a &&& (2 ^ 32 - 1 - r.rw)) ||| (v &&& r.rw)) &&& (2 ^ 32 - 1 - (v &&& r.w1c))) |||
      (hw &&& r.w1c)) % 2 ^ 32 := Dev.rd_wr_same ..

/-- A W1C bit after a write: set when hardware sets it in the same access, and else cleared by a 1 (R10). -/
theorem Dev.plainWrite_w1c_bit {d : Dev} {r : RegRow} {a v hw i : Nat} (hi : i < 32) (hrw : r.rw < 2 ^ 32) (hw1c : r.w1c < 2 ^ 32)
    (hr : bitAt r.rw i = false) (hc : bitAt r.w1c i = true) :
    bitAt ((d.plainWrite r a v hw).rd a) i = (bitAt hw i || (bitAt (d.rd a) i && !bitAt v i)) := by
  rw [Dev.plainWrite_rd, bitAt_mod _ hi]
  simp only [bitAt_or, bitAt_and, bitAt_not hrw hi, bitAt_not (Nat.and_lt_two_pow v hw1c) hi, hr, hc]
  simp [Bool.or_comm]

/-- A refused write that the log can take is an entry like any other. -/
theorem Dev.refuseWrite_eq_logAdd {d : Dev} (o : Origin) (a v : Nat) (h : (d.logMandatory && d.logFull) = false) :
    (d.refuseWrite o a v).1 = d.logAdd o a (d.peek a) v .refused := by
  unfold Dev.refuseWrite Dev.logRefusal Dev.logAdd
  rw [h]
  rfl

/-- A refused write is logged, and changes nothing but the log and its counters of lost entries. -/
theorem Dev.refuseWrite_spec {d : Dev} (o : Origin) (a v : Nat) (h : (d.logMandatory && d.logFull) = false) :
    d.log.gains (d.refuseWrite o a v).1.log o a (d.peek a) v .refused ∧
      d.regsBut [Reg.logLost, Reg.logMirrorLost] (d.refuseWrite o a v).1 ∧ d.keepsBut [.regs, .log] (d.refuseWrite o a v).1 := by
  refine ⟨?_, fun b hb => ?_, Dev.refuseWrite_keeps (keepsBut_keeps _ _) (keepsBut_refl _ _)⟩
  · rw [Dev.refuseWrite_eq_logAdd o a v h]
    exact Dev.logAdd_gains ..
  · obtain ⟨hlost, hmirror⟩ : b ≠ Reg.logLost ∧ b ≠ Reg.logMirrorLost := by simpa using hb
    rw [Dev.refuseWrite_eq_logAdd o a v h]
    exact Dev.logAdd_rd _ _ _ _ _ _ hlost hmirror

section
variable {d : Dev} {o : Origin} {r : RegRow} {addr a v : Nat}

/-- A write to a unit that is not fitted leaves the device as it is, or is a live write refused with its entry (R5, R6). -/
theorem Dev.put_unfitted (hm : d.mode = 3 → addr / 4 * 4 < 0x40000) (hf : d.unitFitted (addr / 4 * 4) = false)
    (hb : ∀ r, regRow (addr / 4 * 4) = some r → r.base ≠ Reg.hrCfg 0) :
    d.put o addr v = d ∨
      d.put o addr v = d.liveEntry o (addr / 4 * 4) Status.unfitted.code (v % 2 ^ 32) .unfitted := by
  unfold Dev.put Dev.busWrite
  dsimp only
  rw [if_neg (fun h => absurd (hm h.1) (by omega))]
  cases hrow : regRow (addr / 4 * 4) with
  | none => left; dsimp only; rw [if_pos hf]
  | some r =>
    dsimp only
    by_cases hlv : r.lv = 0 ∨ reservedReg (addr / 4 * 4) = true
    · left; rw [if_pos hlv]; unfold Dev.otherWrite; rw [if_pos hf]
    · right; rw [if_neg hlv, if_neg (hb r hrow)]; unfold Dev.liveWrite; rw [if_pos hf]

/-- A write to a register without LV fields goes by its access codes. -/
theorem Dev.put_other (hm : d.mode = 3 → addr / 4 * 4 < 0x40000) (hr : regRow (addr / 4 * 4) = some r) (hl : r.lv = 0) :
    d.put o addr v = (d.otherWrite o r (addr / 4 * 4) (v % 2 ^ 32)).1 := by
  unfold Dev.put Dev.busWrite
  dsimp only
  rw [if_neg (fun h => absurd (hm h.1) (by omega)), hr]
  dsimp only
  rw [if_pos (.inl hl)]

variable (hf : d.unitFitted a = true) (hres : reservedReg a = false) (hfwd : a ≠ Reg.logFwd) (hatt : a ≠ Reg.undAttCtl)
  (hbr : bridgeReg a = false)
include hf hres hfwd hatt hbr

/-- RW and W1C bits take the write. -/
theorem Dev.otherWrite_plain (hx : r.rw ≠ 0 ∨ r.w1c ≠ 0) (hset : ringSetting a = none) :
    d.otherWrite o r a v = (d.plainWrite r a v 0, some .ok) := by
  simp [Dev.otherWrite, hf, hres, hfwd, hatt, hbr, hset, hx]

/-- PR and FU fields alone refuse the write once start-up is over (R9). -/
theorem Dev.otherWrite_refused (hrw : r.rw = 0) (hw1c : r.w1c = 0) (hx : r.pr ≠ 0 ∨ r.fu ≠ 0) (hmode : d.mode ≠ 0) :
    d.otherWrite o r a v = d.refuseWrite o a v := by
  simp [Dev.otherWrite, hf, hres, hfwd, hatt, hbr, hrw, hw1c, hx, hmode]

/-- With nothing to write, or before start-up is over, the write is ignored (R8, R11; log entry 41). -/
theorem Dev.otherWrite_ignored (hrw : r.rw = 0) (hw1c : r.w1c = 0) (hx : (r.pr = 0 ∧ r.fu = 0) ∨ d.mode = 0) :
    d.otherWrite o r a v = (d, some .ok) := by
  have hno : ¬ ((r.pr ≠ 0 ∨ r.fu ≠ 0) ∧ d.mode ≠ 0) := by tauto
  simp only [Dev.otherWrite, hf, hres, hbr, hrw, hw1c, hno, if_neg hfwd, if_neg hatt]
  simp

end

/-- The catalogue row of CLK_LOSS: 18 W1C bits and nothing else to write. -/
theorem regRow_clkLoss : ∃ r, regRow Reg.clkLoss = some r ∧ r.rw = 0 ∧ r.w1c = 2 ^ 18 - 1 := ⟨_, rfl, by decide, by decide⟩

/-- CLK_LOSS cleared outside FAULT. -/
theorem Dev.clearLoss_eq {d : Dev} {r : RegRow} (hm : d.mode ≠ 3) (hr : regRow Reg.clkLoss = some r) (v hw : Nat) :
    d.clearLoss v hw = d.plainWrite r Reg.clkLoss v hw := by
  unfold Dev.clearLoss
  rw [if_neg hm, hr]

end Sys2Proof.Machine
end

section
/-!
The statements of the scope of the model: the invariant, and the accesses of a device's own window.
-/

namespace Sys2Proof.Machine

open Sys2Proof

/-- Settles O56: soundness outlives every change that an operation may make to a part, and a step is made of such operations. -/
theorem soundKept : Obligations.SoundKept :=
  fun _ _ hs hstep => step_keeps ok_keeps hstep hs

/-- Settles O18, case by case of the read: alone, lowest, captured, not captured. -/
theorem spanReads : Obligations.SpanReads := by
  intro s o w hs hr
  refine ⟨fun hn => ?_, fun hn hl => ?_, fun hn hl c hc => ?_, fun hn hl hc => ?_⟩
  · exact gives_read hs (Dev.busRead_alone hr hn)
  · exact gives_read hs (Dev.busRead_lowest hr hn hl)
  · exact gives_read hs (Dev.busRead_captured hr hn hl hc)
  · exact gives_read hs (Dev.busRead_uncaptured hr hn hl hc)

/-- Writes of CLK_LOSS clear its bits by ones. -/
theorem clkLossClear_gives (s : State) (o : Origin) (v : Word) (hw : BitVec 18) (hs : s.dev.inReset = false) (hm : s.dev.mode ≠ 3) :
    Gives (.clkLossClear o v hw) s fun d =>
      (∀ i < 18, bitAt (d.rd Reg.clkLoss) i = (bitAt hw.toNat i || (bitAt (s.dev.rd Reg.clkLoss) i && !bitAt v.toNat i))) ∧
      s.dev.regsBut [Reg.clkLoss] d ∧ s.dev.keepsBut [.regs] d := by
  obtain ⟨r, hr, hrw, hw1c⟩ := regRow_clkLoss
  refine gives_up (exec_clkLossClear ..) hs ?_
  rw [Dev.clearLoss_eq hm hr]
  refine ⟨fun i hi => ?_, Dev.wr_frame _ _ _⟩
  refine Dev.plainWrite_w1c_bit (by omega) (by rw [hrw]; decide) (by rw [hw1c]; decide) (by rw [hrw, bitAt_testBit]; simp) ?_
  rw [hw1c, bitAt_testBit, Nat.testBit_two_pow_sub_one]
  exact decide_eq_true hi

/-- Settles O19: CLK_LOSS bit by bit, LOG_FWD written by the anchor, and LOG_FWD refused to any other. -/
theorem specialWrites : Obligations.SpecialWrites := by
  refine ⟨clkLossClear_gives, fun s o v hs => ?_, fun s o v hs hroom => ?_⟩
  · have hv : v.toNat % 2 ^ 16 % 2 ^ 32 = v.toNat % 2 ^ 16 := by omega
    exact gives_up (exec_logFwdWrite ..) hs ⟨(Dev.rd_wr_same ..).trans hv, Dev.wr_frame _ _ _⟩
  · obtain ⟨hlog, hregs, hparts⟩ := Dev.refuseWrite_spec o Reg.logFwd v.toNat hroom
    exact gives_up (exec_logFwdWrite ..) hs ⟨hregs _ (by decide), hlog, hregs, hparts⟩

/-- A unit that is not fitted reads UNFITTED. -/
theorem registerRead_unfitted {s : State} {w : BitVec 24} (o : Origin) (hs : s.dev.inReset = false)
    (hm : s.dev.mode = 3 → w.toNat / 4 * 4 < 0x40000) (hf : s.dev.unitFitted (w.toNat / 4 * 4) = false)
    (hr : w.toNat / 4 * 4 ≠ Reg.logWrresult)
    (hcap : (spanOf (w.toNat / 4 * 4)).2 = 1 ∨ w.toNat / 4 * 4 = (spanOf (w.toNat / 4 * 4)).1 ∨ s.dev.caps = []) :
    Gives (.multiRegisterRead o w) s fun d =>
      d.outbox = .windowData 2 :: s.dev.outbox ∧ s.dev.keepsBut [.caps, .outbox] d := by
  have hread : s.dev.busRead o w.toNat = (2, (s.dev.busRead o w.toNat).2) :=
    Prod.ext ((Dev.busRead_current hr hcap).trans (Dev.peek_unfitted hm hf)) rfl
  exact (gives_read hs hread).mono fun _ ⟨hout, _, hparts⟩ => ⟨hout, hparts⟩

/-- A unit that is not fitted ignores writes but for the log. -/
theorem registerWrite_unfitted {s : State} {w : BitVec 24} (o : Origin) (v : Word) (hs : s.dev.inReset = false)
    (hm : s.dev.mode = 3 → w.toNat / 4 * 4 < 0x40000) (hf : s.dev.unitFitted (w.toNat / 4 * 4) = false)
    (hb : ∀ r, regRow (w.toNat / 4 * 4) = some r → r.base ≠ Reg.hrCfg 0) :
    Gives (.registerWrite o w v) s fun d =>
      s.dev.regsBut [Reg.logLost, Reg.logMirrorLost, Reg.logUnlogged, Reg.logRefusals] d ∧ s.dev.keepsBut [.regs, .log] d := by
  refine gives_up (exec_registerWrite ..) hs ?_
  rcases Dev.put_unfitted (o := o) (v := v.toNat) hm hf hb with h | h <;> rw [h]
  · exact ⟨fun _ _ => rfl, keepsBut_refl _ _⟩
  · refine ⟨fun b hb => ?_, Dev.liveEntry_parts _ _ _ _ _ _⟩
    obtain ⟨hlost, hmirror, hunlogged, hrefusals⟩ :
        b ≠ Reg.logLost ∧ b ≠ Reg.logMirrorLost ∧ b ≠ Reg.logUnlogged ∧ b ≠ Reg.logRefusals := by simpa using hb
    exact Dev.liveEntry_rd _ _ _ _ _ _ hlost hmirror hunlogged hrefusals

/-- Settles O60: the accesses of a unit that is not fitted, and the writes without LV fields by their access codes. -/
theorem registerWrites : Obligations.RegisterWrites := by
  intro s o w v hs a hm
  refine ⟨fun hf => ⟨registerRead_unfitted o hs hm hf, registerWrite_unfitted o v hs hm hf⟩, ?_⟩
  intro r hr hl hf hres hfwd hatt hbr
  have hv : v.toNat % 2 ^ 32 = v.toNat := Nat.mod_eq_of_lt v.isLt
  have hput : s.dev.put o w.toNat v.toNat = (s.dev.otherWrite o r a v.toNat).1 := by rw [Dev.put_other hm hr hl, hv]
  refine ⟨fun hrw hw1c hx => ?_, fun hrw hw1c hx hmode hroom => ?_, fun hx hset => ?_⟩
  · rw [Dev.otherWrite_ignored hf hres hfwd hatt hbr hrw hw1c hx] at hput
    rw [exec_registerWrite, State.up_of _ _ hs, hput]
  · rw [Dev.otherWrite_refused hf hres hfwd hatt hbr hrw hw1c hx hmode] at hput
    refine gives_up (exec_registerWrite ..) hs ?_
    rw [hput]
    exact Dev.refuseWrite_spec o a v.toNat hroom
  · rw [Dev.otherWrite_plain hf hres hfwd hatt hbr hx hset] at hput
    refine gives_up (exec_registerWrite ..) hs ?_
    rw [hput]
    refine ⟨?_, Dev.wr_frame _ _ _⟩
    rw [Dev.plainWrite_rd, Nat.zero_and, Nat.or_zero]

end Sys2Proof.Machine
end

section
/-!
SUPPORT. Expiries that resolve together with the arrival they wait for (R34).
-/

namespace Sys2Proof.Machine

open Sys2Proof

section
variable {f : Dev → Dev}

/-- A command whose operation changes nothing leaves the state, whether the device is alive or not. -/
theorem State.live_same (h : ∀ d, f d = d) (s : State) : s.live f = .next s := by
  unfold State.live
  rw [h, ite_self]
  rfl

theorem State.timed_same (h : ∀ d, f d = d) (s : State) : s.timed f = .next s :=
  State.live_same (fun d => by rw [h, ite_self]) s

theorem State.up_same (h : ∀ d, f d = d) (s : State) : s.up f = .next s := by
  unfold State.up
  rw [h, ite_self]
  rfl

end

/-! Each expiry with an arrival changes nothing. -/

theorem Dev.announceExpire_tie (d : Dev) : d.announceExpire true = d := by
  unfold Dev.announceExpire
  split <;> rfl

theorem Dev.pollExpire_tie (d : Dev) : d.pollExpire true = d := by
  unfold Dev.pollExpire
  split
  · rfl
  · exact if_neg (by simp)

theorem Dev.sectionWatchdog_tie (d : Dev) : d.sectionWatchdog true = d := by
  unfold Dev.sectionWatchdog
  exact if_neg (by simp)

theorem Dev.bootWatchdog_tie (d : Dev) : d.bootWatchdog true = d := by
  unfold Dev.bootWatchdog
  exact if_neg (by simp)

theorem Dev.forcedSwitch_tie (d : Dev) : d.forcedSwitch true false = d := rfl

theorem Dev.freeExpire_tie (d : Dev) (q : Nat) : d.freeExpire q true = d := by
  unfold Dev.freeExpire
  split
  · rfl
  · split
    · exact if_neg (by simp)
    · rfl

theorem Dev.tsyncExpire_tie (d : Dev) (p : Nat) : d.tsyncExpire p true = d := by
  unfold Dev.tsyncExpire
  exact if_neg (by simp)

theorem Dev.keepaliveExpire_tie (d : Dev) (p : Nat) : d.keepaliveExpire p true = d := by
  unfold Dev.keepaliveExpire
  exact if_neg (by simp)

theorem Dev.readExpire_tie (d : Dev) (tag : Nat) : d.readExpire tag true = d := by
  unfold Dev.readExpire
  split <;> rfl

theorem Dev.expireRecord_tie (d : Dev) (q : Nat) : d.expireRecord q true = d := by
  unfold Dev.expireRecord
  split
  · rfl
  · split
    · rfl
    · exact if_neg (by simp)

theorem Dev.gateTimeout_tie (d : Dev) (t : GateTarget) : d.gateTimeout t true = d := rfl

/-- Drip's timer with a transfer: it does not run, or is not due, or the set is no longer blocked, or it begins anew (R194). -/
theorem Dev.dripExpire_tie (d : Dev) (cl s : Nat) : d.dripExpire cl s true = d ∨
    (d.dripBlocked cl s = false ∧ d.dripExpire cl s true = d.setDrip cl s { d.drip cl s with since := none }) ∨
    d.dripExpire cl s true = d.setDrip cl s { d.drip cl s with since := some d.devNs } := by
  unfold Dev.dripExpire
  dsimp only
  split
  · exact .inl rfl
  · split
    · exact .inl rfl
    · split
      · next h => exact .inr (.inl ⟨by simpa using h, rfl⟩)
      · exact .inr (.inr rfl)

end Sys2Proof.Machine
end

section
/-!
SUPPORT. The Screed's own commands: arming, the end of a DEC pulse, and what reaches the slot of an event.
-/

namespace Sys2Proof.Machine

open Sys2Proof

/-! The commands of this part, each the operation it runs on a live device. -/

theorem exec_screedArm (s : State) : exec .screedArm s = s.live fun d => d.armLocked := rfl

theorem exec_armWaitExpiry (s : State) : exec .armWaitExpiry s = s.live fun d => d.armWaited := rfl

theorem exec_decWidthExpiry (s : State) (k : Fin 32) (tie : Bool) :
    exec (.decWidthExpiry k tie) s = s.live fun d => d.decIdle k.val tie := rfl

theorem exec_notice (s : State) (kind : NoticeKind) (slot : Byte) (core : Fin 1024) :
    exec (.notice kind slot core) s =
      s.live fun d => (d.takeNotice false kind slot.toNat core.val).noticeArrives slot.toNat core.val := rfl

theorem exec_skewNotice (s : State) (slot : Byte) (core : Fin 1024) :
    exec (.skewNotice slot core) s =
      s.live fun d => (d.takeNotice true .timedOverflow slot.toNat core.val).skewArrives slot.toNat core.val := rfl

theorem exec_networkInput (s : State) (k : Fin 4096) (slot : Byte) (v : Word) (deg : Bool) :
    exec (.networkInput k slot v deg) s = s.live fun d => d.netInput k.val slot.toNat v deg := rfl

/-! Arming (R24, R337) -/

section
variable {d : Dev}

/-- Once the Screed is armed, the rings, the cores and the setpoint follow. -/
theorem Dev.arm_keeps_armed {P : Dev → Prop} (k : Keeps [.regs, .acq] P) (h : P d.armScreed) : P d.arm := by
  have hrun : P d.armScreed.ringsBegin.coresRun := Dev.coresRun_keeps (k.mono rfl) (Dev.ringsBegin_keeps (k.mono rfl) h)
  unfold Dev.arm
  dsimp only
  split
  · exact hrun
  · exact Dev.setFld_keeps (k.mono rfl) (Dev.setV_keeps (k.mono rfl) hrun)

theorem Dev.arm_scr : d.arm.scr = d.armScreed.scr :=
  Dev.arm_keeps_armed (Part.same_keeps (d := d.armScreed) .scr rfl) rfl

/-- What arming leaves of the Screed, whichever command arms it. -/
theorem Dev.arm_spec :
    d.arm.scr.armed = true ∧ d.arm.scr.firstEv = ceilDiv (ceilDiv d.net16 65536) d.tev ∧ d.arm.scr.armedAt = d.net16 ∧
      d.arm.scr.safeFrom = (if d.safeMode then some d.arm.scr.firstEv else d.scr.safeFrom) := by
  rw [Dev.arm_scr]
  exact ⟨rfl, rfl, rfl, rfl⟩

theorem Dev.armLocked_due (hs : d.starting = true) (h9 : d.stepNo = 9) (ha : d.scr.armed = false) (hl : d.timeState = tsLocked) :
    d.armLocked = d.arm := by
  unfold Dev.armLocked
  exact if_pos (by simp [hs, h9, ha, hl])

theorem Dev.armWaited_due (hs : d.starting = true) (h9 : d.stepNo = 9) (ha : d.scr.armed = false) (hp : d.lockPolicy = false)
    (ht : d.boot.stepAt + d.fld Reg.tmsArm Fld.tmsArmArmWaitS * 1000000000 ≤ d.devNs) : d.armWaited = d.arm := by
  unfold Dev.armWaited
  exact if_pos (by simp [hs, h9, ha, hp, ht])

/-! The end of a DEC pulse (R311) -/

theorem Dev.decIdle_due {k t : Nat} {tie : Bool} (h : d.decEnd k = some t) (ht : t ≤ d.netNs) (htie : tie = false ∨ t < d.netNs) :
    d.decIdle k tie = (d.setDecEnd k none).emit (.decEdge k (d.flag (Reg.scrDec k) Fld.scrDecInvert) t) := by
  have hfree : ¬(tie = true ∧ t = d.netNs) := by
    rintro ⟨rfl, rfl⟩
    simp at htie
  unfold Dev.decIdle Dev.decLevel
  rw [h]
  dsimp only
  rw [if_pos ⟨ht, hfree⟩, Bool.false_bne]

/-- A release of that very instant may keep the output active. -/
theorem Dev.decIdle_tie {k : Nat} (h : d.decEnd k = some d.netNs) : d.decIdle k true = d := by
  unfold Dev.decIdle
  rw [h]
  exact if_neg (fun hc => hc.2 ⟨rfl, rfl⟩)

theorem Dev.setDecEnd_decEnd (k : Nat) (t : Option Nat) : (d.setDecEnd k t).decEnd k = t := SMap.get_set_same _ _ _

/-! What reaches an event's slot (R282, R291, R299) -/

theorem Dev.takeNotice_evInSlot (skew : Bool) (kind : NoticeKind) (slot core j : Nat) :
    (d.takeNotice skew kind slot core).evInSlot j = d.evInSlot j := rfl

theorem Dev.rfMod_evInSlot (m : Nat) (f : RfAcc → RfAcc) (j : Nat) : (d.rfMod m f).evInSlot j = d.evInSlot j := rfl

theorem Dev.count_evInSlot (a j : Nat) : (d.count a).evInSlot j = d.evInSlot j := rfl

variable {slot : Nat} {e : Ev}

theorem Dev.noticeArrives_undecided (core : Nat) (h : d.evInSlot slot = some e) (ho : e.own = none) :
    d.noticeArrives slot core = d.putEv { e with notices := e.notices ++ [core] } := by
  unfold Dev.noticeArrives
  rw [h]
  exact if_neg (by simp [ho])

/-- A notice for an event that is decided counts as late (log entry 69). -/
theorem Dev.noticeArrives_decided (core : Nat) (h : d.evInSlot slot = some e) (ho : e.own.isSome = true) :
    d.noticeArrives slot core = d.count Reg.scrNoticeLate := by
  unfold Dev.noticeArrives
  rw [h]
  exact if_pos ho

theorem Dev.skewArrives_unreleased (core : Nat) (h : d.evInSlot slot = some e) (hr : e.released = false) :
    d.skewArrives slot core = ((d.count Reg.scrSkewNotices).rfMod (d.netNs / 1000000) fun a => { a with skew := a.skew + 1 }).putEv
      { e with skews := e.skews ++ [core] } := by
  unfold Dev.skewArrives
  dsimp only
  rw [Dev.rfMod_evInSlot, Dev.count_evInSlot, h]
  exact if_neg (by simp [hr])

/-- A network input that its event takes stands in the event's record, and nothing else of the record but its completion differs. -/
theorem Dev.netInput_taken {k : Nat} {v : Word} {deg : Bool} (h : d.evInSlot slot = some e) (hp : d.isPrim k = false)
    (hen : d.flag (Reg.scrInput k) Fld.scrInputEn = true) (hi : evInput e k = none) (ha : e.admitted = true) :
    ∃ c, (d.netInput k slot v deg).evAt e.n = some { e with
      inputs := SMap.set (fun _ => none) e.inputs k (some ⟨v, deg, d.net16⟩), completion := c } := by
  have hnet : ∀ b a, (d.countIf b a).net16 = d.net16 := fun b a => by unfold Dev.net16; rw [Dev.countIf_tms]
  unfold Dev.netInput
  rw [h]
  dsimp only
  rw [if_neg (by simp [hp, hen, hi, ha]), hnet]
  obtain ⟨c, hc⟩ := Dev.measure_snd (d.countIf (e.late && e.own.isSome) Reg.scrLateInputs)
    { e with inputs := SMap.set (fun _ => none) e.inputs k (some ⟨v, deg, d.net16⟩) }
  refine ⟨c, ?_⟩
  rw [hc]
  exact Dev.evAt_putEv ..

end

end Sys2Proof.Machine
end

section
/-!
SUPPORT. The steps of an event: what each leaves of the event-slot table, and the words of a release.
-/

namespace Sys2Proof.Machine

open Sys2Proof

/-! The commands of this part, each the operation it runs on a live device. -/

theorem exec_eventWindowOpen (s : State) (n : Nat) : exec (.eventWindowOpen n) s = s.live fun d => d.windowOpen n := rfl

theorem exec_admission (s : State) (n : Nat) (tie : Bool) :
    exec (.admission n tie) s = s.live fun d => (d.admission n tie).settleDrip := rfl

theorem exec_release (s : State) (n : Nat) (tie : Bool) (corrected : Nat) :
    exec (.release n tie corrected) s = s.live fun d => (d.countN Reg.glbXdieCe corrected).release n tie := rfl

/-! The event-slot table (R20) -/

theorem Dev.evAt_of_slots {d e : Dev} (h : e.scr.slots = d.scr.slots) (n : Nat) : e.evAt n = d.evAt n := by
  unfold Dev.evAt
  rw [h]

section
variable {d : Dev} {n : Nat} {e : Ev}

/-- An event's record leaves the other slots. -/
theorem Dev.evAt_putEv_ne {m : Nat} (h : m % 256 ≠ e.n % 256) : (d.putEv e).evAt m = d.evAt m := by
  unfold Dev.evAt Dev.putEv
  dsimp only
  rw [SMap.get_set_ne _ _ h]

/-- The event in a slot is found under its own number. -/
theorem Dev.evAt_of_evInSlot (h : d.evInSlot n = some e) (hn : e.n % 256 = n % 256) : d.evAt e.n = some e := by
  unfold Dev.evAt
  rw [hn, show SMap.get _ d.scr.slots (n % 256) = some e from h]
  exact if_pos rfl

theorem Dev.applyPend_slots (d : Dev) (n : Nat) (p : PendWrite) : (d.applyPend n p).scr.slots = d.scr.slots := by
  unfold Dev.applyPend
  dsimp only
  split <;> split <;> rfl

/-- Live writes that take effect leave the events. -/
theorem Dev.effectBoundary_slots (d : Dev) (n : Nat) : (d.effectBoundary n).scr.slots = d.scr.slots := by
  unfold Dev.effectBoundary
  exact foldl_keeps (P := fun e => e.scr.slots = d.scr.slots) (fun e p h => (Dev.applyPend_slots e n p).trans h) rfl

/-! The window (R17 to R24) -/

theorem Dev.windowOpen_neverFormed (h : d.neverFormed n = true) : d.windowOpen n = d := by
  unfold Dev.windowOpen
  exact if_neg (by simp [h])

theorem Dev.windowOpen_due (ha : d.alive = true) (ht : d.tev ≠ 0) (hf : d.neverFormed n = false) (hn : n * d.tev ≤ d.netNs)
    (ho : ∀ m, d.scr.opened = some m → m < n) :
    d.windowOpen n = (({ (d.clearSlot n).effectBoundary n with
      scr := { ((d.clearSlot n).effectBoundary n).scr with opened := some n } }).putEv (Ev.init n)).lateOpens n := by
  unfold Dev.windowOpen
  refine if_pos ?_
  cases h : d.scr.opened with
  | none => simp [ha, ht, hf, hn]
  | some m => simp [ha, ht, hf, hn, ho m h]

/-- A slot whose event is released, or that holds none, has nothing to clear. -/
theorem Dev.clearSlot_released (h : ∀ e, d.evInSlot n = some e → e.released = true) : d.clearSlot n = d := by
  unfold Dev.clearSlot
  split
  · next e he => exact if_pos (h e he)
  · rfl

theorem Dev.admission_admitted (tie : Bool) (h : d.evAt n = some e) (ha : e.admitted = true) : d.admission n tie = d := by
  unfold Dev.admission
  rw [h]
  exact if_neg (by simp [ha])

/-- An admitted event that its slot still holds is released. -/
theorem Dev.clearSlot_unreleased (h : d.evInSlot n = some e) (hn : e.n % 256 = n % 256) (ha : e.admitted = true)
    (hr : e.released = false) : d.clearSlot n = d.release e.n false := by
  unfold Dev.clearSlot
  rw [h]
  dsimp only
  rw [if_neg (by simp [hr]), Dev.admission_admitted false (Dev.evAt_of_evInSlot h hn) ha]

/-! Admission (R22, R23) -/

theorem Dev.measure_admitted (d : Dev) (e : Ev) : (d.measure e).1.scr.admitted = d.scr.admitted := by
  unfold Dev.measure
  split
  · rfl
  · split
    · rfl
    · dsimp only
      repeat' split
      all_goals rfl

theorem Dev.admission_tie (h : d.tms.ctr = d.admTime n * 2 ^ 40) : d.admission n true = d := by
  unfold Dev.admission
  split
  · rfl
  · exact if_neg (by simp [Dev.tiedAt, h])

theorem Dev.trimSpans_scr (d : Dev) (n : Nat) : (d.trimSpans n).scr = d.scr :=
  Dev.trimSpans_keeps (Part.same_keeps (d := d) .scr rfl) rfl

/-- The record of an event that is admitted. -/
theorem Dev.admission_ev (ha : d.alive = true) (h : d.evAt n = some e) (hadm : e.admitted = false) (ht : d.admTime n ≤ d.netNs) :
    (d.admission n false).scr.admitted = some n ∧ ∃ c ps, (d.admission n false).evAt n = some { e with
      admitted := true, missing := ((d.missingPositions n).map fun x => x.2.1).dedup, completion := c, phases := ps } := by
  obtain rfl : e.n = n := Dev.evAt_n h
  unfold Dev.admission
  rw [h]
  dsimp -zeta only
  rw [if_pos (by simp [ha, hadm, ht, Dev.tiedAt])]
  extract_lets missing chans d1 d2 d3 d4 d5 d6 d7 e1
  clear_value d7
  generalize hm : Dev.measure _ e1 = m
  obtain ⟨c, hc⟩ := Dev.measure_snd { d7 with scr := { d7.scr with admitted := some e.n } } e1
  have hadmitted := Dev.measure_admitted { d7 with scr := { d7.scr with admitted := some e.n } } e1
  rw [hm] at hc hadmitted
  obtain ⟨d8, e2⟩ := m
  obtain rfl : e2 = _ := hc
  rw [Dev.trimSpans_scr, Dev.evAt_of_scr (Dev.trimSpans_scr _ _)]
  exact ⟨hadmitted, c, d7.lanePhases, Dev.evAt_putEv _ _⟩

/-! The decision and the words of a release (R296 to R309, R313) -/

/-- Deciding an event leaves its number and its missing channels. -/
theorem Dev.decideEvent_snd (d : Dev) (e : Ev) : (d.decideEvent e).2.n = e.n ∧ (d.decideEvent e).2.missing = e.missing := by
  unfold Dev.decideEvent
  repeat' split
  all_goals exact ⟨rfl, rfl⟩

theorem Dev.decideEvent_decided {c : Contribution} (h : e.own = some c) : d.decideEvent e = (d, e) := by
  unfold Dev.decideEvent
  exact if_pos (by simp [h])

/-- In SAFE deciding an event changes its contribution alone. -/
theorem Dev.decideEvent_safe (h : d.inSafe e.n = true) : ∃ c, d.decideEvent e = (d, { e with own := c }) := by
  unfold Dev.decideEvent
  by_cases ho : e.own.isSome = true
  · exact ⟨e.own, if_pos ho⟩
  · rw [if_neg ho, if_pos h]
    exact ⟨_, rfl⟩

theorem Dev.releasedWords_safe (h : d.inSafe e.n = true) : d.releasedWords e = d.safeWords e := by
  unfold Dev.releasedWords
  exact if_pos h

section
variable {c : Contribution} (hs : d.inSafe e.n = false) (hl : e.lost = false)
include hs hl

theorem Dev.releasedWords_own (ho : e.own = some c) (hg : d.group = false) : d.releasedWords e = (c.dec, c.comp) := by
  unfold Dev.releasedWords
  simp [hs, hl, ho, hg]

theorem Dev.releasedWords_group {g : GroupRes} (hg : d.group = true) (he : e.group = some g) :
    d.releasedWords e = (g.dec, g.comp) := by
  unfold Dev.releasedWords
  simp [hs, hl, hg, he]

/-- A group result that is not there at release: the device's own words, with a member absent (R309). -/
theorem Dev.releasedWords_absent (ho : e.own = some c) (hg : d.group = true) (he : e.group = none) :
    d.releasedWords e = (c.dec ||| BitVec.ofNat 64 (2 ^ 53), c.comp) := by
  unfold Dev.releasedWords
  simp [hs, hl, ho, hg, he]

end

end

/-- The words of an event that is decided, is not lost and is not released in SAFE: its own, the group's, or its own with a member
absent (R309). -/
theorem Dev.releasedWords_decided {d : Dev} {e : Ev} {c : Contribution} (ho : e.own = some c) (hl : e.lost = false)
    (hs : d.inSafe e.n = false) :
    let w := (d.decideEvent e).1.releasedWords (d.decideEvent e).2
    (d.group = false → w = (c.dec, c.comp)) ∧ (∀ g, d.group = true → e.group = some g → w = (g.dec, g.comp)) ∧
      (d.group = true → e.group = none → w = (c.dec ||| BitVec.ofNat 64 (2 ^ 53), c.comp)) := by
  rw [Dev.decideEvent_decided ho]
  exact ⟨Dev.releasedWords_own hs hl ho, fun _ => Dev.releasedWords_group hs hl, Dev.releasedWords_absent hs hl ho⟩

/-- The decision word in SAFE says NODECISION, and whether an input was degraded (R313). -/
theorem Dev.releasedWords_inSafe {d : Dev} {e : Ev} (hs : d.inSafe e.n = true) :
    ((d.decideEvent e).1.releasedWords (d.decideEvent e).2).1 =
      decisionWord e.n false true false (!e.missing.isEmpty || !e.skews.isEmpty) false false 0 := by
  obtain ⟨own, hd⟩ := Dev.decideEvent_safe hs
  rw [hd, Dev.releasedWords_safe (e := { e with own := own }) hs]
  rfl

/-! Release (R298) -/

/-- Counting the X-die's corrected words (Table 13.6) leaves the mode, the grid and the group's settings. -/
theorem Dev.countCorrected_reads (d : Dev) (corrected : Nat) : (d.countN Reg.glbXdieCe corrected).alive = d.alive ∧
    (∀ n, (d.countN Reg.glbXdieCe corrected).relTime n = d.relTime n) ∧ (d.countN Reg.glbXdieCe corrected).group = d.group := by
  have hrd : ∀ {a}, a ≠ Reg.glbXdieCe → (d.countN Reg.glbXdieCe corrected).rd a = d.rd a := fun h => Dev.rd_countN_ne d _ h
  refine ⟨?_, fun n => ?_, Dev.flag_of_rd (hrd (by decide)) _⟩
  · unfold Dev.alive Dev.mode
    rw [Dev.fld_of_rd (hrd (by decide))]
    rfl
  · unfold Dev.relTime Dev.tSample Dev.tev Dev.lNs
    rw [Dev.fld_of_rd (hrd (by decide)), Dev.fld_of_rd (hrd (by decide))]

/-- Event n is released: its words are out, it is the latest released, and its slot holds x. -/
def Dev.ReleasedAs (n : Nat) (w c : BitVec 64) (x : Ev) (d : Dev) : Prop :=
  .words n w c ∈ d.outbox ∧ d.scr.releasedEv = some n ∧ d.evAt n = some x

section
variable {d : Dev} {n : Nat} {w c : BitVec 64} {x : Ev}

/-- What does not change the Screed leaves an event released. -/
theorem Dev.ReleasedAs.keeps {S : List Part} (h : S.contains .scr = false) : Keeps S (Dev.ReleasedAs n w c x) := by
  intro p hp
  have hscr : p ≠ .scr := by
    rintro rfl
    simp_all
  have hout := outbox_keeps S (.words n w c) p hp
  cases p <;> first
    | exact absurd rfl hscr
    | exact fun e y he => he
    | exact fun e y hy ⟨hwords, hlast, hev⟩ => ⟨hout e y hy hwords, hlast, hev⟩

/-- Counts of an interval are no part of it. -/
theorem Dev.ReleasedAs.rfMod (h : d.ReleasedAs n w c x) (m : Nat) (f : RfAcc → RfAcc) : (d.rfMod m f).ReleasedAs n w c x := h

theorem Dev.ReleasedAs.decAssert (h : d.ReleasedAs n w c x) (m k : Nat) : (d.decAssert m k).ReleasedAs n w c x := by
  have hset : ∀ t, (d.setDecEnd k t).ReleasedAs n w c x := fun _ => h
  have kp : Keeps [.outbox] (Dev.ReleasedAs n w c x) := Dev.ReleasedAs.keeps rfl
  unfold Dev.decAssert
  dsimp only
  split
  · split
    · exact hset _
    · exact Dev.emit_keeps (kp.mono rfl) (hset _)
  · exact Dev.emit_keeps (kp.mono rfl) (hset _)

theorem Dev.ReleasedAs.countRelease (h : d.ReleasedAs n w c x) (e : Ev) (v : BitVec 64) : (d.countRelease e v).ReleasedAs n w c x := by
  have kp : Keeps [.regs] (Dev.ReleasedAs n w c x) := Dev.ReleasedAs.keeps rfl
  have counted : ∀ {f : Dev} (b : Bool) (a : Nat), f.ReleasedAs n w c x → (f.countIf b a).ReleasedAs n w c x := fun b a hf =>
    Dev.countIf_keeps kp hf
  exact (counted _ _ (counted _ _ (counted _ _ (counted _ _ (counted _ _ (Dev.count_keeps kp h)))))).rfMod _ _

theorem Dev.ReleasedAs.recordEvent (h : d.ReleasedAs n w c x) (e : Ev) (u v : BitVec 64) : (d.recordEvent e u v).ReleasedAs n w c x := by
  have kp : Keeps [.regs, .freeCtr, .acq, .store] (Dev.ReleasedAs n w c x) := Dev.ReleasedAs.keeps rfl
  have counted : ∀ (before : Dev) {f : Dev}, f.ReleasedAs n w c x → (Dev.countDropped before f).ReleasedAs n w c x := by
    intro before f hf
    unfold Dev.countDropped
    dsimp only
    split
    · exact hf
    · exact hf.rfMod _ _
  refine counted _ ?_
  split
  · exact Dev.plainRecord_keeps (kp.mono rfl) h
  · exact foldl_keeps (fun f r hf => Dev.requestCapture_keeps (kp.mono rfl) hf) h

/-- An admitted event at its release time. -/
theorem Dev.release_due {e : Ev} (ha : d.alive = true) (h : d.evAt n = some e) (hadm : e.admitted = true) (hr : e.released = false)
    (ht : d.relTime n ≤ d.netNs) :
    (d.release n false).ReleasedAs n ((d.decideEvent e).1.releasedWords (d.decideEvent e).2).1
      ((d.decideEvent e).1.releasedWords (d.decideEvent e).2).2 { (d.decideEvent e).2 with released := true } := by
  have hn : (d.decideEvent e).2.n = n := (Dev.decideEvent_snd d e).1.trans (Dev.evAt_n h)
  unfold Dev.release
  rw [h]
  dsimp -zeta only
  rw [if_pos (by simp [ha, hadm, hr, ht, Dev.tiedAt])]
  generalize d.decideEvent e = r at hn ⊢
  obtain ⟨d1, e1⟩ := r
  dsimp -zeta only at hn ⊢
  subst hn
  generalize d1.releasedWords e1 = v
  obtain ⟨w, c⟩ := v
  dsimp -zeta only
  extract_lets ev e2 scr d2 d3 d4 d5 first d6 d7
  have kp : ∀ {S : List Part}, S.contains .scr = false → Keeps S (Dev.ReleasedAs e1.n w c e2) := Dev.ReleasedAs.keeps
  have h3 : d3.ReleasedAs e1.n w c e2 := 
    ⟨List.mem_cons_self, rfl, Dev.evAt_putEv { d1 with scr := { scr with releasedEv := some e1.n } } e2⟩
  have h4 : d4.ReleasedAs e1.n w c e2 := 
    foldl_keeps (P := Dev.ReleasedAs e1.n w c e2) (fun f k hf => ite_keeps (hf.decAssert _ _) hf) h3
  have h5 : d5.ReleasedAs e1.n w c e2 := Dev.showHeadroom_keeps (kp rfl) (h4.countRelease _ _)
  have h6 : d6.ReleasedAs e1.n w c e2 := ite_keeps (h5.recordEvent _ _ _) h5
  exact Dev.dropWords_keeps (kp rfl) (Dev.addSummary_keeps (kp rfl) h6)

end

end Sys2Proof.Machine
end

section
/-!
The statements of the event path: O59, O8, and O7 with what of it every state meets.
-/

namespace Sys2Proof.Machine

open Sys2Proof

/-- Settles O59, expiry by expiry. -/
theorem arrivalWins : Obligations.ArrivalWins := by
  refine ⟨fun s i hi => ?_, fun s cl set => ?_⟩
  · rcases hi with hi | ⟨rec, rfl⟩ | ⟨p, rfl⟩ | ⟨p, rfl⟩ | ⟨t, rfl⟩ | ⟨rec, rfl⟩ | ⟨t, rfl⟩
    · simp only [List.mem_cons, List.not_mem_nil, or_false] at hi
      rcases hi with rfl | rfl | rfl | rfl | rfl
      · exact State.timed_same Dev.announceExpire_tie s
      · exact State.live_same Dev.pollExpire_tie s
      · exact State.live_same Dev.sectionWatchdog_tie s
      · exact State.live_same Dev.bootWatchdog_tie s
      · exact State.live_same Dev.forcedSwitch_tie s
    · exact State.live_same (fun d => Dev.freeExpire_tie d _) s
    · exact State.timed_same (fun d => Dev.tsyncExpire_tie d _) s
    · exact State.live_same (fun d => Dev.keepaliveExpire_tie d _) s
    · exact State.up_same (fun d => Dev.readExpire_tie d _) s
    · exact State.live_same (fun d => Dev.expireRecord_tie d _) s
    · exact State.live_same (fun d => Dev.gateTimeout_tie d _) s
  · have he : exec (.dripTimerExpiry cl set true) s = s.live fun d => d.dripExpire cl.val set.val true := rfl
    cases ha : s.dev.alive with
    | false => exact gives_next (he.trans (by rw [State.live, ha]; rfl)) (.inl rfl)
    | true =>
      refine gives_live he ha ?_
      rcases Dev.dripExpire_tie s.dev cl.val set.val with h | ⟨hb, h⟩ | h
      · exact .inl h
      · exact .inr (.inr ⟨hb, h⟩)
      · exact .inr (.inl h)

/-! The Screed's own commands -/

/-- A notice that reaches its event before the event is decided. -/
theorem notice_undecided_gives {s : State} {slot : Byte} {e : Ev} (kind : NoticeKind) (core : Fin 1024) (hs : s.dev.alive = true)
    (h : s.dev.evInSlot slot.toNat = some e) (ho : e.own = none) :
    Gives (.notice kind slot core) s fun d =>
      d.evAt e.n = some { e with notices := e.notices ++ [core.val] } ∧ s.dev.keepsBut [.scr, .fab] d := by
  refine gives_live (exec_notice ..) hs ?_
  have k := keepsBut_keeps [.scr, .fab] s.dev
  rw [Dev.noticeArrives_undecided core.val ((Dev.takeNotice_evInSlot ..).trans h) ho]
  exact ⟨Dev.evAt_putEv .., Dev.putEv_keeps (k.mono rfl) (Dev.takeNotice_keeps (k.mono rfl) (keepsBut_refl _ _))⟩

theorem notice_decided_gives {s : State} {slot : Byte} {e : Ev} (kind : NoticeKind) (core : Fin 1024) (hs : s.dev.alive = true)
    (h : s.dev.evInSlot slot.toNat = some e) (ho : e.own.isSome = true) :
    Gives (.notice kind slot core) s fun d =>
      d.rd Reg.scrNoticeLate = satInc 32 1 (s.dev.rd Reg.scrNoticeLate) ∧
      s.dev.regsBut [Reg.scrNoticeLate] d ∧ s.dev.keepsBut [.regs, .fab] d := by
  refine gives_live (exec_notice ..) hs ?_
  have k := keepsBut_keeps [.regs, .fab] s.dev
  rw [Dev.noticeArrives_decided core.val ((Dev.takeNotice_evInSlot ..).trans h) ho]
  exact ⟨Dev.rd_count _ _, fun _ hb => Dev.rd_count_ne _ (List.ne_of_not_mem_cons hb),
    Dev.count_keeps (k.mono rfl) (Dev.takeNotice_keeps (k.mono rfl) (keepsBut_refl _ _))⟩

theorem skewNotice_gives {s : State} {slot : Byte} {e : Ev} (core : Fin 1024) (hs : s.dev.alive = true)
    (h : s.dev.evInSlot slot.toNat = some e) (hr : e.released = false) :
    Gives (.skewNotice slot core) s fun d =>
      d.evAt e.n = some { e with skews := e.skews ++ [core.val] } ∧
      d.rd Reg.scrSkewNotices = satInc 32 1 (s.dev.rd Reg.scrSkewNotices) ∧
      s.dev.regsBut [Reg.scrSkewNotices] d ∧ s.dev.keepsBut [.regs, .scr, .fab] d := by
  refine gives_live (exec_skewNotice ..) hs ?_
  have k := keepsBut_keeps [.regs, .scr, .fab] s.dev
  rw [Dev.skewArrives_unreleased core.val ((Dev.takeNotice_evInSlot ..).trans h) hr]
  refine ⟨Dev.evAt_putEv .., Dev.rd_count _ _, fun _ hb => Dev.rd_count_ne _ (List.ne_of_not_mem_cons hb), ?_⟩
  exact Dev.putEv_keeps (k.mono rfl) (Dev.rfMod_keeps (k.mono rfl) (Dev.count_keeps (k.mono rfl)
    (Dev.takeNotice_keeps (k.mono rfl) (keepsBut_refl _ _))))

/-- Settles O8: the two ways of arming, the two ends of a DEC pulse, and what reaches an event's slot. -/
theorem screedWork : Obligations.ScreedWork := by
  refine ⟨fun s hs hst h9 ha => ⟨fun hl => ?_, fun hp ht => ?_⟩, fun s k t tie hs h => ⟨fun ht htie => ?_, fun ht => ?_⟩,
    fun s slot e hs h _ => ⟨fun kind core => ?_, fun kind core => ?_, fun core => ?_, fun k v deg hp hen hi had => ?_⟩⟩
  · refine gives_live (exec_screedArm s) hs ?_
    rw [Dev.armLocked_due hst h9 ha hl]
    exact Dev.arm_spec
  · refine gives_live (exec_armWaitExpiry s) hs ?_
    rw [Dev.armWaited_due hst h9 ha hp ht]
    exact Dev.arm_spec
  · refine gives_live (exec_decWidthExpiry s k tie) hs ?_
    have kp := keepsBut_keeps [.scr, .outbox] s.dev
    have hk : s.dev.keepsBut [.scr, .outbox] (s.dev.decIdle k.val tie) := Dev.decIdle_keeps (kp.mono rfl) (keepsBut_refl _ _)
    rw [Dev.decIdle_due h ht htie] at hk ⊢
    exact ⟨Dev.setDecEnd_decEnd _ _, rfl, hk⟩
  · subst ht
    exact gives_live (exec_decWidthExpiry s k true) hs (Dev.decIdle_tie h)
  · exact notice_undecided_gives kind core hs h
  · exact notice_decided_gives kind core hs h
  · exact skewNotice_gives core hs h
  · refine gives_live (exec_networkInput ..) hs ?_
    obtain ⟨c, hc⟩ := Dev.netInput_taken (v := v) (deg := deg) h hp hen hi had
    exact ⟨_, hc, SMap.get_set_same _ _ _, rfl, rfl⟩

/-! The steps of an event -/

/-- The window of an event that is formed (R20, R24): the slot holds the event anew, and the admitted event it held before is released. -/
theorem eventWindowOpen_gives {s : State} {n : Nat} (hs : s.dev.alive = true) (ht : s.dev.tev ≠ 0) (hf : s.dev.neverFormed n = false)
    (hn : n * s.dev.tev ≤ s.dev.netNs) (ho : ∀ m, s.dev.scr.opened = some m → m < n) :
    Gives (.eventWindowOpen n) s fun d => d.scr.opened = some n ∧ d.evAt n = some (Ev.init n) ∧
      ((∀ e, s.dev.evInSlot n = some e → e.released = true) →
        (∀ m, m % 256 ≠ n % 256 → d.evAt m = s.dev.evAt m) ∧ s.dev.outGrows d) ∧
      (∀ e, s.dev.evInSlot n = some e → e.n % 256 = n % 256 → e.admitted = true → e.released = false →
        s.dev.relTime e.n ≤ s.dev.netNs → ∃ w c, .words e.n w c ∈ d.outbox) := by
  refine gives_live (exec_eventWindowOpen s n) hs ?_
  rw [Dev.windowOpen_due hs ht hf hn ho]
  generalize hC : s.dev.clearSlot n = C
  generalize hE : C.effectBoundary n = E
  have hslots : E.scr.slots = C.scr.slots := hE ▸ Dev.effectBoundary_slots C n
  have hscr : ∀ f : Dev, (f.lateOpens n).scr = f.scr := fun f =>
    Dev.lateOpens_keeps (Part.same_keeps (d := f) .scr rfl) rfl
  have hkeep : ∀ {P : Dev → Prop}, (∀ S, Keeps S P) → P C →
      P ((({ E with scr := { E.scr with opened := some n } }).putEv (Ev.init n)).lateOpens n) := fun k h =>
    Dev.lateOpens_keeps (k _) (Dev.putEv_keeps (k _) (upd_scr (k _) id (hE ▸ Dev.effectBoundary_keeps (k _) h)))
  refine ⟨by rw [hscr]; rfl, (Dev.evAt_of_scr (hscr _) n).trans (Dev.evAt_putEv _ (Ev.init n)), fun hr => ⟨fun m hm => ?_, ?_⟩,
    fun e he hen hea her hrt => ?_⟩
  · rw [Dev.evAt_of_scr (hscr _) m, Dev.evAt_putEv_ne (e := Ev.init n) hm]
    rw [← hC, Dev.clearSlot_released hr] at hslots
    exact Dev.evAt_of_slots hslots m
  · rw [← Dev.clearSlot_released hr, hC]
    exact hkeep (fun S => grows_keeps S C) (List.suffix_refl _)
  · rw [Dev.clearSlot_unreleased he hen hea her] at hC
    have hrel := (Dev.release_due hs (Dev.evAt_of_evInSlot he hen) hea her hrt).1
    rw [hC] at hrel
    exact ⟨_, _, hkeep (fun S => outbox_keeps S _) hrel⟩

/-- No window opens for an event that is never formed (R24). -/
theorem eventWindowOpen_neverFormed_gives {s : State} {n : Nat} (hs : s.dev.alive = true) (hf : s.dev.neverFormed n = true) :
    Gives (.eventWindowOpen n) s fun d => d = s.dev :=
  gives_live (exec_eventWindowOpen s n) hs (Dev.windowOpen_neverFormed hf)

/-- The release of an admitted event (R298, R309, R313). -/
theorem release_gives {s : State} {n : Nat} (corrected : Nat) {e : Ev} (hs : s.dev.alive = true) (h : s.dev.evAt n = some e)
    (hadm : e.admitted = true) (hr : e.released = false) (ht : s.dev.relTime n ≤ s.dev.netNs) :
    let D := s.dev.countN Reg.glbXdieCe corrected
    let r := D.decideEvent e
    let w := r.1.releasedWords r.2
    Gives (.release n false corrected) s fun d =>
      .words n w.1 w.2 ∈ d.outbox ∧ d.scr.releasedEv = some n ∧ (∃ x, d.evAt n = some x ∧ x.released = true ∧ x.missing = e.missing) ∧
      (∀ c, e.own = some c → e.lost = false → s.dev.inSafe n = false →
        (s.dev.group = false → .words n c.dec c.comp ∈ d.outbox) ∧
        (∀ g, s.dev.group = true → e.group = some g → .words n g.dec g.comp ∈ d.outbox) ∧
        (s.dev.group = true → e.group = none → .words n (c.dec ||| BitVec.ofNat 64 (2 ^ 53)) c.comp ∈ d.outbox)) ∧
      (s.dev.inSafe n = true → ∃ c,
        .words n (decisionWord n false true false (!e.missing.isEmpty || !e.skews.isEmpty) false false 0) c ∈ d.outbox) := by
  intro D r w
  obtain rfl : e.n = n := Dev.evAt_n h
  obtain ⟨halive, hrel, hgroup⟩ := Dev.countCorrected_reads s.dev corrected
  have hdue : (D.release e.n false).ReleasedAs e.n w.1 w.2 { r.2 with released := true } :=
    Dev.release_due (halive.trans hs) h hadm hr ((hrel e.n).trans_le ht)
  obtain ⟨hwords, hlast, hev⟩ := hdue
  have out : ∀ {v : BitVec 64 × BitVec 64}, w = v → .words e.n v.1 v.2 ∈ (D.release e.n false).outbox := fun hv => hv ▸ hwords
  refine gives_live (exec_release s e.n false corrected) hs ⟨hwords, hlast, ⟨_, hev, rfl, (Dev.decideEvent_snd D e).2⟩,
    fun c ho hl hsafe => ?_, fun hsafe => ?_⟩
  · obtain ⟨hown, hgrp, habsent⟩ := Dev.releasedWords_decided (d := D) ho hl hsafe
    exact ⟨fun hg => out (hown (hgroup.trans hg)), fun g hg he => out (hgrp g (hgroup.trans hg) he),
      fun hg he => out (habsent (hgroup.trans hg) he)⟩
  · exact ⟨w.2, Dev.releasedWords_inSafe (d := D) hsafe ▸ hwords⟩

/-- The admission of an event (R22): all of its record as stated, but which time TAGs it notes. -/
theorem admission_gives {s : State} {n : Nat} {e : Ev} (hs : s.dev.alive = true) (h : s.dev.evAt n = some e)
    (hadm : e.admitted = false) (ht : s.dev.admTime n ≤ s.dev.netNs) :
    Gives (.admission n false) s fun d => d.scr.admitted = some n ∧ ∃ c ps, d.evAt n = some { e with
      admitted := true, missing := ((s.dev.missingPositions n).map fun x => x.2.1).dedup, completion := c, phases := ps } := by
  have hscr : ∀ d : Dev, d.settleDrip.scr = d.scr := fun d =>
    Dev.settleDrip_keeps (Part.same_keeps (d := d) .scr rfl) rfl
  refine gives_live (exec_admission s n false) hs ?_
  rw [hscr, Dev.evAt_of_scr (hscr _)]
  exact Dev.admission_ev hs h hadm ht

/-- An admission waits for the data blocks of its instant (R23). -/
theorem admission_tie_settles {s : State} {n : Nat} (hs : s.dev.alive = true) (ht : s.dev.tms.ctr = s.dev.admTime n * 2 ^ 40) :
    Settles (.admission n true) s fun d => d = s.dev :=
  gives_live (exec_admission s n true) hs ⟨_, congrArg Dev.settleDrip (Dev.admission_tie ht), rfl⟩

/-! The one clause of O7 that fails: an admitted event need not note the time TAGs of the lanes in use before its admission -/

/-- A device with lane 0 in use, whose channel 0 has no sample in the window of event 0, and is the one member of ring 0. A live write
that waits for the ring's next position names no register of the ring, but ING_LCFG of lane 0, which nothing in a sound state forbids. -/
def strayWrite : Dev :=
  { Dev.init with
    inReset := false
    regs := [(Reg.glbFittedLo, 2 ^ 24), (Reg.ingLcfg 0, 2 ^ 4), (Reg.ingLperiod 0, 1000 * 65536), (Reg.scrTev, 1000),
      (Reg.hwkRcfg 0, 1), (Reg.hwkChring 0, 2 ^ 6)]
    tms := { Dev.init.tms with ctr := 1000 * 2 ^ 40 }
    acq := { Dev.init.acq with rings := [(0, { RingRec.init with began := true })], pend := [(Reg.ingLcfg 0, 0)] }
    scr := { Dev.init.scr with slots := [(0, some (Ev.init 0))] } }

theorem strayWrite_ok : strayWrite.Ok := by
  refine ⟨⟨by decide, by decide⟩, fun x hx e he => ?_, by decide, by decide, by decide⟩
  obtain rfl : x = (0, some (Ev.init 0)) := by simpa [strayWrite] using hx
  cases he
  rfl

theorem strayWrite_lanePhases : strayWrite.lanePhases = [(0, 0)] := by decide

/-- The missing position puts the waiting write in force, the lane is in use no more, and its TAG is not noted. -/
theorem strayWrite_admitted_phases : ((strayWrite.admission 0 false).settleDrip.evAt 0).map Ev.phases = some [] := by
  decide +kernel

/-- Refutes O7: a sound state can hold a live write that takes a lane out of use in the course of an admission, and the event's record
then does not note that lane's TAG. -/
theorem not_eventsComeAndGo : ¬ Obligations.EventsComeAndGo := by
  rintro ⟨⟨-, -, hadmission, -⟩, -⟩
  obtain ⟨d, hd, -, c, hev⟩ := hadmission ⟨strayWrite, []⟩ 0 (Ev.init 0) (by decide) (by decide) rfl (by decide)
  rw [exec_admission, State.live_of _ _ (by decide)] at hd
  injection hd with hd
  injection hd with hd
  have hphases := strayWrite_admitted_phases
  rw [hd, hev, Option.map_some, strayWrite_lanePhases] at hphases
  simp at hphases

end Sys2Proof.Machine
end

section
/-!
SUPPORT. Lane commands: the operation that each runs, the frames of the lane operations, and the registers of the lane block that a
change of state leaves.
-/

namespace Sys2Proof.Machine

open Sys2Proof

/-! The commands of the lanes, each the operation it runs on a live device. -/

theorem exec_lossOfSignal (s : State) (l : LaneId) (tie : Bool) :
    exec (.lossOfSignal l tie) s = s.onLane l fun d => d.loseSignal l tie := rfl

theorem exec_signalDetected (s : State) (l : LaneId) (tie : Bool) :
    exec (.signalDetected l tie) s = s.onLane l fun d => d.seeSignal l tie := rfl

theorem exec_huntWindowEnd (s : State) (l : LaneId) (idle : Nat) (tie : Bool) :
    exec (.huntWindowEnd l idle tie) s = s.onLane l fun d => d.huntEnds l idle tie := rfl

theorem exec_trainingWindowEnd (s : State) (l : LaneId) (tie : Bool) :
    exec (.trainingWindowEnd l tie) s = s.onLane l fun d => d.trainingEnds l tie := rfl

theorem exec_backoffEnd (s : State) (l : LaneId) (tie : Bool) :
    exec (.backoffEnd l tie) s = s.onLane l fun d => d.backoffEnds l tie := rfl

theorem exec_eyeMeasurement (s : State) (l : LaneId) (v : List Rat) (h : Rat) (tie : Bool) :
    exec (.eyeMeasurement l v h tie) s =
      s.onLane l fun d => d.eyeMeasured l (eyeScore (v.take (if d.lanePam4 l then 3 else 1)) h) tie := rfl

theorem exec_blockReceived (s : State) (l : LaneId) (hdr : BitVec 2) (p : BitVec 128) (tie : Bool) :
    exec (.blockReceived l hdr p tie) s = s.onLane l fun d => d.takeIn l hdr p tie := rfl

theorem exec_codewordDecoded (s : State) (l : LaneId) (levels : List (Fin 4)) :
    exec (.codewordDecoded l levels) s = s.onLane l fun d => d.codeword l levels := rfl

theorem exec_dataBlock (s : State) (n : Fin 64) :
    exec (.dataBlock n) s =
      s.live fun d => d.takeBlock (ingestLane n) (fun b => !b.gap && !b.ctl) fun e p => e.dataBlock n p := rfl

theorem exec_tagBlock (s : State) (n : Fin 64) :
    exec (.tagBlock n) s =
      s.live fun d => d.takeBlock (ingestLane n) (fun b => !b.gap && b.ctl && decide (blkType b.payload = 1)) fun e p =>
        e.openBurst n p := rfl

theorem exec_linkBlockRx (s : State) (l : LaneId) :
    exec (.linkBlockRx l) s =
      s.live fun d => d.takeBlock l (fun b => !b.gap && b.ctl && decide (blkType b.payload = 2)) fun e p => e.linkRx l p := rfl

theorem exec_linkBlockTx (s : State) (l : LaneId) :
    exec (.linkBlockTx l) s = s.live fun d => d.sendBlock l true (d.linkPayload l) := rfl

theorem exec_fillerInsert (s : State) (l : LaneId) : exec (.fillerInsert l) s = s.live fun d => d.sendFiller l := rfl

/-! Register frames: one after another, wider, and of one write. -/

section
variable {A B : List Nat} {d e f : Dev}

theorem Dev.regsBut_refl (A : List Nat) (d : Dev) : d.regsBut A d := fun _ _ => rfl

theorem Dev.regsBut.trans (h : d.regsBut A e) (h' : e.regsBut A f) : d.regsBut A f := fun a ha => (h' a ha).trans (h a ha)

theorem Dev.regsBut.mono (h : d.regsBut A e) (hAB : A ⊆ B) : d.regsBut B e := fun a ha => h a fun hA => ha (hAB hA)

theorem Dev.regsBut_of_regs (A : List Nat) (h : e.regs = d.regs) : d.regsBut A e := fun a _ => Dev.rd_of_regs h a

theorem Dev.regsBut.setLane (h : d.regsBut A e) (l : LaneId) (r : LaneRec) : d.regsBut A (e.setLane l r) :=
  h.trans (Dev.regsBut_of_regs A rfl)

variable {a : Nat} (ha : a ∈ A)
include ha

theorem Dev.regsBut.setFld (h : d.regsBut A e) (g : Fld) (v : Nat) : d.regsBut A (e.setFld a g v) :=
  h.trans fun _ hb => Dev.rd_setFld_ne _ _ _ (ne_of_mem_of_not_mem ha hb).symm

theorem Dev.regsBut.countN (h : d.regsBut A e) (n : Nat) : d.regsBut A (e.countN a n) :=
  h.trans fun _ hb => Dev.rd_countN_ne _ _ (ne_of_mem_of_not_mem ha hb).symm

theorem Dev.regsBut.count (h : d.regsBut A e) : d.regsBut A (e.count a) := h.countN ha 1

theorem Dev.regsBut.countIf (h : d.regsBut A e) (c : Bool) : d.regsBut A (e.countIf c a) :=
  h.trans fun _ hb => Dev.rd_countIf_ne _ _ (ne_of_mem_of_not_mem ha hb).symm

end

/-! The registers that a change of a lane's state may touch -/

theorem lstate_mem (l : LaneId) : laneReg l Reg.ingLstate ∈ laneStateRegs l := by simp [laneStateRegs]
theorem lfom_mem (l : LaneId) : laneReg l Reg.ingLfom ∈ laneStateRegs l := by simp [laneStateRegs]
theorem burstBroken_mem (l : LaneId) : laneReg l Reg.ingBurstBroken ∈ laneStateRegs l := by simp [laneStateRegs]
theorem orphan_mem (l : LaneId) : laneReg l Reg.ingOrphan ∈ laneStateRegs l := by simp [laneStateRegs]
theorem tries_mem (l : LaneId) : laneReg l Reg.ingTries ∈ laneStateRegs l := by simp [laneStateRegs]
theorem losEvents_mem (l : LaneId) : laneReg l Reg.ingLosEvents ∈ laneStateRegs l := by simp [laneStateRegs]
theorem portRegs_subset (l : LaneId) : [Reg.mpCfg ((l.val - 64) / 4), Reg.mpDowns ((l.val - 64) / 4)] ⊆ laneStateRegs l := by
  simp [laneStateRegs]
theorem logRegs_subset (l : LaneId) : [Reg.logLost, Reg.logMirrorLost] ⊆ laneStateRegs l := by simp [laneStateRegs]

theorem laneReg_ne_mirror (l : LaneId) (r : Nat → Nat) : laneReg l r ≠ Reg.logMirrorLost := by
  unfold laneReg laneBase Reg.logMirrorLost
  have := l.isLt
  split <;> omega

theorem laneReg_not_mem (l : LaneId) {r : Nat → Nat} {qs : List (Nat → Nat)}
    (h : 0x81000 ≤ r 0 ∧ ∀ q ∈ qs, 0x81000 ≤ q 0 ∧ r 0 ≠ q 0) : laneReg l r ∉ qs.map (laneReg l) := by
  rw [List.mem_map]
  rintro ⟨q, hq, he⟩
  obtain ⟨hlo, hne⟩ := h.2 q hq
  exact laneReg_ne l h.1 hlo hne he.symm

/-- A frame of lane registers leaves the lane's other registers. -/
theorem Dev.regsBut.laneReg_rd {d e : Dev} {l : LaneId} (qs : List (Nat → Nat)) (h : d.regsBut (qs.map (laneReg l)) e) {r : Nat → Nat}
    (hr : 0x81000 ≤ r 0 ∧ ∀ q ∈ qs, 0x81000 ≤ q 0 ∧ r 0 ≠ q 0) : e.rd (laneReg l r) = d.rd (laneReg l r) :=
  h _ (laneReg_not_mem l hr)

/-- The other registers of the lane block are none of them. -/
theorem laneReg_not_mem_laneStateRegs (l : LaneId) {r : Nat → Nat} (hhi : r 0 < 0x81080)
    (h : 0x81000 ≤ r 0 ∧ ∀ q ∈ [Reg.ingLstate, Reg.ingLfom, Reg.ingBurstBroken, Reg.ingOrphan, Reg.ingTries, Reg.ingLosEvents],
      0x81000 ≤ q 0 ∧ r 0 ≠ q 0) : laneReg l r ∉ laneStateRegs l := by
  obtain ⟨hcfg, hdowns⟩ := laneReg_ne_port l hhi ((l.val - 64) / 4)
  have hlane := laneReg_not_mem l h
  simp only [List.map_cons, List.map_nil, List.mem_cons, List.not_mem_nil, or_false, not_or] at hlane
  simp [laneStateRegs, hlane, hcfg, hdowns, laneReg_ne_log, laneReg_ne_mirror]

/-- LANE_DOWN_TRIES and the thresholds of the eye score stand in no lane block. -/
theorem admit_not_mem_laneStateRegs (l : LaneId) : Reg.ingAdmit ∉ laneStateRegs l := by
  have hlow : Reg.ingAdmit < laneBase l := by
    unfold laneBase Reg.ingAdmit
    split <;> omega
  have hlane : ∀ r, Reg.ingAdmit ≠ laneReg l r := fun r => (hlow.trans_le (Nat.le_add_right ..)).ne
  have hport : ∀ p, Reg.ingAdmit ≠ Reg.mpCfg p ∧ Reg.ingAdmit ≠ Reg.mpDowns p := fun p => by
    unfold Reg.ingAdmit Reg.mpCfg Reg.mpDowns
    omega
  simp [laneStateRegs, hlane, hport, show Reg.ingAdmit ≠ Reg.logLost by decide, show Reg.ingAdmit ≠ Reg.logMirrorLost by decide]

/-! Frames of the operations -/

theorem Dev.laneSync_regsBut (d : Dev) (l : LaneId) :
    d.regsBut [Reg.mpCfg ((l.val - 64) / 4), Reg.mpDowns ((l.val - 64) / 4)] (d.laneSync l) := fun _ ha =>
  Dev.laneSync_rd_ne d l (List.ne_of_not_mem_cons ha) (List.ne_of_not_mem_cons (List.not_mem_of_not_mem_cons ha))

/-- A frame that allows the lane's state allows its mesh port to follow. -/
theorem Dev.regsBut.laneSync {A : List Nat} {d e : Dev} {l : LaneId} (h : d.regsBut A e) (hA : laneStateRegs l ⊆ A) :
    d.regsBut A (e.laneSync l) :=
  h.trans ((Dev.laneSync_regsBut e l).mono (List.Subset.trans (portRegs_subset l) hA))

theorem Dev.laneTo_regsBut (d : Dev) (l : LaneId) (st : Nat) : d.regsBut (laneStateRegs l) (d.laneTo l st) := fun _ ha =>
  Dev.laneTo_rd d l st (ne_of_mem_of_not_mem (lstate_mem l) ha).symm (ne_of_mem_of_not_mem (lfom_mem l) ha).symm
    (ne_of_mem_of_not_mem (burstBroken_mem l) ha).symm

theorem Dev.newTry_regsBut (d : Dev) (l : LaneId) : d.regsBut (laneStateRegs l) (d.newTry l) := fun _ ha =>
  Dev.newTry_rd d l (ne_of_mem_of_not_mem (lstate_mem l) ha).symm (ne_of_mem_of_not_mem (lfom_mem l) ha).symm
    (ne_of_mem_of_not_mem (burstBroken_mem l) ha).symm (ne_of_mem_of_not_mem (orphan_mem l) ha).symm
    (ne_of_mem_of_not_mem (tries_mem l) ha).symm

theorem Dev.tryEnds_regsBut (d : Dev) (l : LaneId) (n : Nat) : d.regsBut (laneStateRegs l) (d.tryEnds l n) := fun _ ha =>
  Dev.tryEnds_rd d l n (ne_of_mem_of_not_mem (lstate_mem l) ha).symm (ne_of_mem_of_not_mem (lfom_mem l) ha).symm
    (ne_of_mem_of_not_mem (burstBroken_mem l) ha).symm (ne_of_mem_of_not_mem (orphan_mem l) ha).symm

theorem Dev.logInternal_regsBut (d : Dev) (object old new : Nat) (st : Status) :
    d.regsBut [Reg.logLost, Reg.logMirrorLost] (d.logInternal object old new st) := fun _ ha =>
  Dev.logInternal_rd d object old new st (List.ne_of_not_mem_cons ha)
    (List.ne_of_not_mem_cons (List.not_mem_of_not_mem_cons ha))

/-- A command that leaves a lane as it is leaves its registers but those of its mesh port. -/
theorem gives_lane_same {i : Instr} {s : State} {l : LaneId} {f : Dev → Dev} (e : exec i s = s.onLane l f)
    (hs : s.dev.alive = true) (h : f s.dev = s.dev) :
    Gives i s fun d => d.ing = s.dev.ing ∧ s.dev.regsBut [Reg.mpCfg ((l.val - 64) / 4), Reg.mpDowns ((l.val - 64) / 4)] d := by
  refine gives_lane e hs ?_
  rw [h]
  exact ⟨Dev.laneSync_ing _ l, Dev.laneSync_regsBut _ l⟩

end Sys2Proof.Machine
end

section
/-!
The lane state machine of Table 2.7: signals, tries and eye measurements.
-/

namespace Sys2Proof.Machine

open Sys2Proof

section
variable {d : Dev} {l : LaneId}

/-! Loss of signal and its return -/

/-- Loss of signal noted and counted in LOS_EVENTS (R62). -/
def Dev.noteLoss (d : Dev) (l : LaneId) : Dev :=
  (d.setLane l { d.lane l with los := true, runValid := 0 }).count (laneReg l Reg.ingLosEvents)

theorem Dev.noteLoss_lane (d : Dev) (l : LaneId) : (d.noteLoss l).lane l = { d.lane l with los := true, runValid := 0 } := by
  unfold Dev.noteLoss
  rw [Dev.count_lane, Dev.setLane_lane]

theorem Dev.noteLoss_losEvents (d : Dev) (l : LaneId) :
    (d.noteLoss l).rd (laneReg l Reg.ingLosEvents) = satInc 32 1 (d.rd (laneReg l Reg.ingLosEvents)) := Dev.rd_count _ _

theorem Dev.noteLoss_rd (d : Dev) (l : LaneId) {a : Nat} (h : a ≠ laneReg l Reg.ingLosEvents) : (d.noteLoss l).rd a = d.rd a :=
  Dev.rd_count_ne _ h

theorem Dev.noteLoss_state (d : Dev) (l : LaneId) : (d.noteLoss l).laneState l = d.laneState l :=
  Dev.laneState_of_rd (Dev.noteLoss_rd d l (laneReg_ne l (by decide) (by decide) (by decide)))

theorem Dev.noteLoss_tries (d : Dev) (l : LaneId) :
    (d.noteLoss l).rd (laneReg l Reg.ingTries) = d.rd (laneReg l Reg.ingTries) :=
  Dev.noteLoss_rd d l (laneReg_ne l (by decide) (by decide) (by decide))

theorem Dev.noteLoss_regsBut (d : Dev) (l : LaneId) : d.regsBut (laneStateRegs l) (d.noteLoss l) :=
  ((Dev.regsBut_refl _ d).setLane l _).count (losEvents_mem l)

/-- A new try is no loss of signal. -/
theorem Dev.newTry_losEvents (d : Dev) (l : LaneId) :
    (d.newTry l).rd (laneReg l Reg.ingLosEvents) = d.rd (laneReg l Reg.ingLosEvents) := by
  apply Dev.newTry_rd <;> exact laneReg_ne l (by decide) (by decide) (by decide)

theorem Dev.loseSignal_inService (h : d.laneState l = lsTrain ∨ d.laneState l = lsService) :
    d.loseSignal l false = (d.noteLoss l).newTry l := by
  unfold Dev.loseSignal Dev.noteLoss Dev.countIf
  dsimp only
  rw [if_pos ⟨h, rfl⟩, if_pos (decide_eq_true (.inr h))]

theorem Dev.loseSignal_hunt (tie : Bool) (h : d.laneState l = lsHunt) : d.loseSignal l tie = d.noteLoss l := by
  unfold Dev.loseSignal Dev.noteLoss Dev.countIf
  dsimp only
  rw [h, if_neg (fun hc => absurd hc.1 (by decide)), if_pos (by decide)]

theorem Dev.seeSignal_backoff (h : d.laneState l = lsBackoff) (hl : (d.lane l).los = true) :
    d.seeSignal l false = (d.setLane l { d.lane l with los := false }).newTry l := by
  unfold Dev.seeSignal
  exact if_pos ⟨h, hl, rfl⟩

/-! Ends of windows and intervals -/

theorem Dev.huntEnds_due {idle : Nat} (h : d.laneState l = lsHunt) (hw : 2 ^ 20 * 130 ≤ (d.lane l).tryBits + 130 * idle) :
    d.huntEnds l idle false = d.tryFails l := if_pos ⟨h, hw, rfl⟩

theorem Dev.trainingEnds_due (h : d.laneState l = lsTrain) (hw : 2 ^ 18 ≤ (d.lane l).trainBlocks)
    (he : (d.lane l).eyeBlocks < 2 ^ 14) : d.trainingEnds l false = d.tryFails l := if_pos ⟨h, hw, he, rfl⟩

theorem Dev.backoffEnds_due (h : d.laneState l = lsBackoff) (ht : (d.lane l).backoffDue ≤ d.devNs) :
    d.backoffEnds l false = d.newTry l := if_pos ⟨h, ht, rfl⟩

theorem Dev.huntEnds_tie (d : Dev) (l : LaneId) (idle : Nat) : d.huntEnds l idle true = d := if_neg (by simp)

theorem Dev.trainingEnds_tie (d : Dev) (l : LaneId) : d.trainingEnds l true = d := if_neg (by simp)

theorem Dev.backoffEnds_tie (d : Dev) (l : LaneId) : d.backoffEnds l true = d := if_neg (by simp)

/-! A try that fails -/

/-- A failed try is what `tryEnds` says, with DOWN set when FAILS reaches LANE_DOWN_TRIES (R64): the log entry touches no lane. -/
theorem Dev.tryFails_spec (d : Dev) (l : LaneId) :
    let a := laneReg l Reg.ingLstate
    let fails := if d.fld a Fld.ingLstateFails < 255 then d.fld a Fld.ingLstateFails + 1 else 255
    (d.tryFails l).lane l = (d.tryEnds l fails).lane l ∧
    (∀ g : Fld, 4 ≤ g.lo ∧ g.lo + g.w ≤ 32 ∨ g.lo + g.w ≤ 3 → (d.tryFails l).fld a g = (d.tryEnds l fails).fld a g) ∧
    (d.tryFails l).fld a Fld.ingLstateDown =
      (if fails = d.fld Reg.ingAdmit Fld.ingAdmitLaneDownTries then 1 else d.fld a Fld.ingLstateDown) ∧
    d.regsBut (laneStateRegs l) (d.tryFails l) := by
  intro a fails
  have htries : (d.tryEnds l fails).fld Reg.ingAdmit Fld.ingAdmitLaneDownTries = d.fld Reg.ingAdmit Fld.ingAdmitLaneDownTries :=
    Dev.fld_of_rd (Dev.tryEnds_regsBut d l fails _ (admit_not_mem_laneStateRegs l)) _
  have hdown : (d.tryEnds l fails).fld a Fld.ingLstateDown = d.fld a Fld.ingLstateDown := Dev.tryEnds_down d l fails
  have hframe := Dev.tryEnds_regsBut d l fails
  have heq := Dev.tryFails_eq d l
  dsimp only at heq
  rw [htries] at heq
  by_cases hc : fails = d.fld Reg.ingAdmit Fld.ingAdmitLaneDownTries ∧ ¬ (d.tryEnds l fails).flag a Fld.ingLstateDown
  · rw [if_pos hc] at heq
    have hlog : ∀ g, (d.tryFails l).fld a g = ((d.tryEnds l fails).setFld a Fld.ingLstateDown 1).fld a g := fun g => by
      rw [heq]
      exact Dev.fld_of_rd (Dev.logInternal_rd _ _ _ _ _ (laneReg_ne_log l _) (laneReg_ne_mirror l _)) g
    refine ⟨?_, fun g hg => ?_, ?_, ?_⟩
    · rw [heq]
      unfold Dev.lane
      rw [Dev.logInternal_ing, Dev.setFld_ing]
    · rw [hlog]
      have hoff : g.lo + g.w ≤ 3 ∨ 3 + 1 ≤ g.lo := by omega
      exact Dev.fld_setFld_fld _ _ _ _ _ (by omega) hoff
    · rw [hlog, if_pos hc.1]
      exact Dev.fld_setFld_same _ _ _ _ (by decide)
    · rw [heq]
      exact (hframe.setFld (lstate_mem l) _ _).trans ((Dev.logInternal_regsBut _ _ _ _ _).mono (logRegs_subset l))
  · rw [if_neg hc] at heq
    rw [heq]
    refine ⟨rfl, fun _ _ => rfl, ?_, hframe⟩
    rw [hdown]
    split
    next h => simpa [h, Dev.flag, ← hdown] using hc
    next => rfl

end

/-- A command that fails a try gives the state of a failed try. -/
theorem gives_tryFails {i : Instr} {s : State} {l : LaneId} {f : Dev → Dev} (e : exec i s = s.onLane l f)
    (hs : s.dev.alive = true) (h : f s.dev = s.dev.tryFails l) :
    let a := laneReg l Reg.ingLstate
    let fails := if s.dev.fld a Fld.ingLstateFails < 255 then s.dev.fld a Fld.ingLstateFails + 1 else 255
    let ms := s.dev.fld a Fld.ingLstateBackoffMs
    Gives i s fun d =>
      d.laneState l = lsBackoff ∧ d.fld a Fld.ingLstateFails = fails ∧
      d.fld a Fld.ingLstateBackoffMs = (if 2 * ms < 1000 then 2 * ms else 1000) ∧
      (d.lane l).backoffDue = s.dev.devNs + ms * 1000000 ∧
      d.fld a Fld.ingLstateDown =
        (if fails = s.dev.fld Reg.ingAdmit Fld.ingAdmitLaneDownTries then 1 else s.dev.fld a Fld.ingLstateDown) ∧
      s.dev.regsBut (laneStateRegs l) d := by
  intro a fails ms
  have hfails : fails < 256 := by simp only [fails]; split <;> omega
  obtain ⟨hlane, hfld, hdown, hframe⟩ := Dev.tryFails_spec s.dev l
  have hsync : ∀ g, ((s.dev.tryFails l).laneSync l).fld a g = (s.dev.tryFails l).fld a g := Dev.laneSync_fld _ l l (by decide)
  refine gives_lane e hs ?_
  rw [h, Dev.laneSync_state, Dev.laneSync_lane, hsync, hsync, hsync, hlane]
  exact ⟨(hfld _ (by decide)).trans (Dev.tryEnds_state ..), (hfld _ (by decide)).trans (Dev.tryEnds_fails _ _ _ hfails),
    (hfld _ (by decide)).trans (Dev.tryEnds_backoff ..), Dev.tryEnds_due .., hdown, hframe.laneSync (List.Subset.refl _)⟩

/-- Settles O1: loss of signal in TRAIN or SERVICE, in HUNT, and the return of the signal in BACKOFF. -/
theorem laneSignal : Obligations.LaneSignal := by
  refine ⟨fun s l hs h => gives_lane (exec_lossOfSignal ..) hs ?_, fun s l tie hs h => gives_lane (exec_lossOfSignal ..) hs ?_,
    fun s l hs h hl => gives_lane (exec_signalDetected ..) hs ?_⟩
  · obtain ⟨heye, hpartner⟩ := Dev.newTry_eye (s.dev.noteLoss l) l
    rw [Dev.loseSignal_inService h, Dev.laneSync_state, Dev.laneSync_lane, Dev.newTry_lane, Dev.noteLoss_lane,
      Dev.laneSync_rd _ _ _ (by decide), Dev.laneSync_rd _ _ _ (by decide), Dev.laneSync_fld _ _ _ (by decide),
      Dev.laneSync_fld _ _ _ (by decide), Dev.newTry_tries, Dev.noteLoss_tries, Dev.newTry_losEvents, Dev.noteLoss_losEvents]
    exact ⟨Dev.newTry_state _ l, rfl, rfl, rfl, rfl, heye, hpartner,
      ((Dev.noteLoss_regsBut _ l).trans (Dev.newTry_regsBut _ l)).laneSync (List.Subset.refl _)⟩
  · rw [Dev.loseSignal_hunt tie h, Dev.laneSync_state, Dev.laneSync_lane, Dev.noteLoss_lane,
      Dev.laneSync_rd _ _ _ (by decide), Dev.laneSync_rd _ _ _ (by decide)]
    exact ⟨(Dev.noteLoss_state _ l).trans h, rfl, rfl, rfl, Dev.noteLoss_tries _ l, Dev.noteLoss_losEvents _ l,
      (Dev.noteLoss_regsBut _ l).laneSync (List.Subset.refl _)⟩
  · rw [Dev.seeSignal_backoff h hl, Dev.laneSync_state, Dev.laneSync_lane, Dev.newTry_lane, Dev.setLane_lane,
      Dev.laneSync_rd _ _ _ (by decide), Dev.laneSync_fld _ _ _ (by decide)]
    exact ⟨Dev.newTry_state _ l, rfl, Dev.newTry_tries _ l, Dev.newTry_lstate _ l _ (by decide),
      (((Dev.regsBut_refl _ s.dev).setLane l _).trans (Dev.newTry_regsBut _ l)).laneSync (List.Subset.refl _)⟩

/-- Settles O2: the two windows that end a try, the interval that begins one, and the three that a lower row overrides. -/
theorem laneTries : Obligations.LaneTries := by
  intro s l idle hs a fails ms after
  refine ⟨fun h hw => ?_, fun h hw he => ?_, fun h ht => ?_, ?_⟩
  · exact gives_tryFails (exec_huntWindowEnd ..) hs (Dev.huntEnds_due h hw)
  · exact gives_tryFails (exec_trainingWindowEnd ..) hs (Dev.trainingEnds_due h hw he)
  · refine gives_lane (exec_backoffEnd ..) hs ?_
    rw [Dev.backoffEnds_due h ht, Dev.laneSync_state, Dev.laneSync_rd _ _ _ (by decide)]
    exact ⟨Dev.newTry_state .., Dev.newTry_tries .., (Dev.newTry_regsBut _ l).laneSync (List.Subset.refl _)⟩
  · simp only [List.forall_mem_cons]
    exact ⟨gives_lane_same (exec_huntWindowEnd ..) hs (Dev.huntEnds_tie ..),
      gives_lane_same (exec_trainingWindowEnd ..) hs (Dev.trainingEnds_tie ..),
      gives_lane_same (exec_backoffEnd ..) hs (Dev.backoffEnds_tie ..), by simp⟩

end Sys2Proof.Machine
end

section
/-!
Eye measurements (R65, R66; Table 2.7, rows 7 and 9).
-/

namespace Sys2Proof.Machine

open Sys2Proof

section
variable {d : Dev} {l : LaneId} {score : Nat}

/-- Low measurements in a row, one of this score included. -/
def Dev.lowEyesWith (d : Dev) (l : LaneId) (score : Nat) : Nat :=
  if score + d.fld Reg.ingAdmit Fld.ingAdmitLaneFomHyst < d.fld Reg.ingAdmit Fld.ingAdmitLaneFomMin ∧ d.laneState l = lsService then
    (d.lane l).lowEyes + 1
  else 0

theorem Dev.two_le_lowEyesWith_iff : 2 ≤ d.lowEyesWith l score ↔
    (score + d.fld Reg.ingAdmit Fld.ingAdmitLaneFomHyst < d.fld Reg.ingAdmit Fld.ingAdmitLaneFomMin ∧ d.laneState l = lsService) ∧
      1 ≤ (d.lane l).lowEyes := by
  unfold Dev.lowEyesWith
  split
  next h => simp [h]
  next h => simp [h]

/-- A score noted in EYE, and the blocks of the next measurement counted afresh. -/
def Dev.noteEye (d : Dev) (l : LaneId) (score : Nat) : Dev :=
  (d.setFld (laneReg l Reg.ingLfom) Fld.ingLfomEye score).setLane l
    { d.lane l with eyeBlocks := (d.lane l).eyeBlocks - eyeSpan, lowEyes := d.lowEyesWith l score }

theorem Dev.noteEye_state (d : Dev) (l : LaneId) (score : Nat) : (d.noteEye l score).laneState l = d.laneState l :=
  Dev.fld_setFld_ne _ _ _ _ (laneReg_ne l (by decide) (by decide) (by decide))

theorem Dev.noteEye_eye (d : Dev) (l : LaneId) (h : score < 256) :
    (d.noteEye l score).fld (laneReg l Reg.ingLfom) Fld.ingLfomEye = score :=
  (Dev.fld_setFld_same _ _ _ _ (by decide)).trans (Nat.mod_eq_of_lt h)

theorem Dev.noteEye_regsBut (d : Dev) (l : LaneId) (score : Nat) : d.regsBut (laneStateRegs l) (d.noteEye l score) :=
  ((Dev.regsBut_refl _ d).setFld (lfom_mem l) _ _).setLane l _

/-- A lane admitted to SERVICE (row 7): FAILS and DOWN clear, and the back-off interval is 1 ms again. -/
def Dev.enterService (d : Dev) (l : LaneId) : Dev :=
  let a := laneReg l Reg.ingLstate
  (((d.setFld a Fld.ingLstateFails 0).setFld a Fld.ingLstateDown 0).setFld a Fld.ingLstateBackoffMs 1).laneTo l lsService

/-- In TRAIN and SERVICE the score of the partner stands. -/
theorem Dev.laneTo_lfom (d : Dev) (l : LaneId) {st : Nat} (h : st = lsTrain ∨ st = lsService) :
    (d.laneTo l st).rd (laneReg l Reg.ingLfom) = d.rd (laneReg l Reg.ingLfom) := by
  have hstate : laneReg l Reg.ingLfom ≠ laneReg l Reg.ingLstate := laneReg_ne l (by decide) (by decide) (by decide)
  have hbroken : laneReg l Reg.ingLfom ≠ laneReg l Reg.ingBurstBroken := laneReg_ne l (by decide) (by decide) (by decide)
  unfold Dev.laneTo
  dsimp only
  rw [if_pos h, Dev.rd_setFld_ne _ _ _ hstate]
  split
  · rfl
  · exact Dev.breakBurst_rd d l hbroken

theorem Dev.enterService_spec (d : Dev) (l : LaneId) :
    let a := laneReg l Reg.ingLstate
    (d.enterService l).laneState l = lsService ∧ (d.enterService l).rd (laneReg l Reg.ingLfom) = d.rd (laneReg l Reg.ingLfom) ∧
      (d.enterService l).fld a Fld.ingLstateFails = 0 ∧ (d.enterService l).fld a Fld.ingLstateDown = 0 ∧
      (d.enterService l).fld a Fld.ingLstateBackoffMs = 1 ∧ d.regsBut (laneStateRegs l) (d.enterService l) := by
  intro a
  have hlfom : laneReg l Reg.ingLfom ≠ a := laneReg_ne l (by decide) (by decide) (by decide)
  have hframe := (((Dev.regsBut_refl _ d).setFld (lstate_mem l) Fld.ingLstateFails 0).setFld (lstate_mem l) Fld.ingLstateDown 0).setFld
    (lstate_mem l) Fld.ingLstateBackoffMs 1
  unfold Dev.enterService
  refine ⟨Dev.laneTo_state _ l (by decide), ?_, ?_, ?_, ?_, hframe.trans (Dev.laneTo_regsBut _ l _)⟩
  · rw [Dev.laneTo_lfom _ l (.inr rfl), Dev.rd_setFld_ne _ _ _ hlfom, Dev.rd_setFld_ne _ _ _ hlfom, Dev.rd_setFld_ne _ _ _ hlfom]
  · rw [Dev.laneTo_lstate _ _ _ _ (by decide), Dev.fld_setFld_fld _ _ _ _ _ (by decide) (by decide),
      Dev.fld_setFld_fld _ _ _ _ _ (by decide) (by decide), Dev.fld_setFld_same _ _ _ _ (by decide)]
    rfl
  · rw [Dev.laneTo_lstate _ _ _ _ (by decide), Dev.fld_setFld_fld _ _ _ _ _ (by decide) (by decide),
      Dev.fld_setFld_same _ _ _ _ (by decide)]
    rfl
  · rw [Dev.laneTo_lstate _ _ _ _ (by decide), Dev.fld_setFld_same _ _ _ _ (by decide)]
    rfl

/-- A lane that trains again from SERVICE (row 9). -/
def Dev.retrain (d : Dev) (l : LaneId) : Dev :=
  (d.laneTo l lsTrain).setLane l { (d.laneTo l lsTrain).lane l with lowEyes := 0, trainBlocks := 0 }

theorem Dev.retrain_spec (d : Dev) (l : LaneId) :
    (d.retrain l).laneState l = lsTrain ∧ (d.retrain l).rd (laneReg l Reg.ingLfom) = d.rd (laneReg l Reg.ingLfom) ∧
      d.regsBut (laneStateRegs l) (d.retrain l) :=
  ⟨Dev.laneTo_state d l (by decide), Dev.laneTo_lfom d l (.inl rfl), (Dev.laneTo_regsBut d l _).setLane l _⟩

/-- A measurement in TRAIN or SERVICE, once its blocks are received. -/
theorem Dev.eyeMeasured_eq (h : d.laneState l = lsTrain ∨ d.laneState l = lsService) (hspan : eyeSpan ≤ (d.lane l).eyeBlocks) :
    d.eyeMeasured l score false =
      if d.laneState l = lsTrain ∧ d.fld Reg.ingAdmit Fld.ingAdmitLaneFomMin ≤ score then (d.noteEye l score).enterService l
      else if 2 ≤ d.lowEyesWith l score then (d.noteEye l score).retrain l else d.noteEye l score := by
  unfold Dev.eyeMeasured
  dsimp only
  rw [if_pos ⟨h, hspan⟩, if_neg Bool.false_ne_true]
  rfl

end

theorem eyeScore_lt (v : List Rat) (h : Rat) : eyeScore v h < 256 := by
  unfold eyeScore
  dsimp only
  split <;> omega

/-- A measurement that leaves the lane in its state gives its score. -/
theorem gives_noteEye {s : State} {l : LaneId} {v : List Rat} {h : Rat} {score st : Nat}
    (hs : s.dev.alive = true) (hscore : score < 256) (hst : s.dev.laneState l = st)
    (he : s.dev.eyeMeasured l (eyeScore (v.take (if s.dev.lanePam4 l then 3 else 1)) h) false = s.dev.noteEye l score) :
    Gives (.eyeMeasurement l v h false) s fun d =>
      d.laneState l = st ∧ d.fld (laneReg l Reg.ingLfom) Fld.ingLfomEye = score ∧ s.dev.regsBut (laneStateRegs l) d := by
  refine gives_lane (exec_eyeMeasurement ..) hs ?_
  rw [he, Dev.laneSync_state, Dev.laneSync_fld _ _ _ (by decide)]
  exact ⟨(Dev.noteEye_state ..).trans hst, Dev.noteEye_eye _ l hscore, (Dev.noteEye_regsBut _ l _).laneSync (List.Subset.refl _)⟩

/-- Settles O3: admission, a score too low for it, a lane that stays in SERVICE, and the second low score in a row. -/
theorem laneEye : Obligations.LaneEye := by
  intro s l v h hs hspan score fmin low a eye
  have hscore : score < 256 := eyeScore_lt _ _
  have heye : (s.dev.noteEye l score).fld (laneReg l Reg.ingLfom) Fld.ingLfomEye = score := Dev.noteEye_eye _ l hscore
  have hframe := Dev.noteEye_regsBut s.dev l score
  have hne : lsService ≠ lsTrain := by decide
  refine ⟨fun ht hmin => gives_lane (exec_eyeMeasurement ..) hs ?_, fun ht hmin => gives_noteEye hs hscore ht ?_,
    fun ht hlow => gives_noteEye hs hscore ht ?_, fun ht hlow hn => gives_lane (exec_eyeMeasurement ..) hs ?_⟩
  · obtain ⟨hstate, hlfom, hfails, hdown, hms, henter⟩ := Dev.enterService_spec (s.dev.noteEye l score) l
    rw [Dev.eyeMeasured_eq (.inl ht) hspan, if_pos ⟨ht, hmin⟩, Dev.laneSync_state, Dev.laneSync_fld _ _ _ (by decide),
      Dev.laneSync_fld _ _ _ (by decide), Dev.laneSync_fld _ _ _ (by decide)]
    exact ⟨hstate, ((Dev.laneSync_fld _ _ _ (by decide) _).trans (Dev.fld_of_rd hlfom _)).trans heye, hfails, hdown, hms,
      (hframe.trans henter).laneSync (List.Subset.refl _)⟩
  · rw [Dev.eyeMeasured_eq (.inl ht) hspan, if_neg (fun hc => Nat.not_le.mpr hmin hc.2), if_neg]
    rw [Dev.two_le_lowEyesWith_iff]
    exact fun hc => hne (hc.1.2.symm.trans ht)
  · rw [Dev.eyeMeasured_eq (.inr ht) hspan, if_neg (fun hc => hne (ht.symm.trans hc.1)), if_neg]
    rw [Dev.two_le_lowEyesWith_iff]
    rintro ⟨⟨hc, -⟩, hn⟩
    exact hlow.elim (fun hno => hno hc) (fun h0 => by omega)
  · obtain ⟨hstate, hlfom, hretrain⟩ := Dev.retrain_spec (s.dev.noteEye l score) l
    rw [Dev.eyeMeasured_eq (.inr ht) hspan, if_neg (fun hc => hne (ht.symm.trans hc.1)),
      if_pos (Dev.two_le_lowEyesWith_iff.mpr ⟨⟨hlow, ht⟩, hn⟩), Dev.laneSync_state]
    exact ⟨hstate, ((Dev.laneSync_fld _ _ _ (by decide) _).trans (Dev.fld_of_rd hlfom _)).trans heye,
      (hframe.trans hretrain).laneSync (List.Subset.refl _)⟩

end Sys2Proof.Machine
end

section
/-!
Blocks and codewords received: block lock found and lost, invalid headers, and decoded codewords (R39 to R41, R57 to R59; Table 2.7,
rows 4 and 5).
-/

namespace Sys2Proof.Machine

open Sys2Proof

/-! Registers of the lane block that no change of state touches -/

theorem invalidHdr_not_mem (l : LaneId) : laneReg l Reg.ingInvalidHdr ∉ laneStateRegs l :=
  laneReg_not_mem_laneStateRegs l (by decide) (by decide)

section
variable {d : Dev} {l : LaneId}

/-! The search for lock -/

/-- A header that is no valid one of the hunt window begins the count again. -/
theorem Dev.seek_invalid (d : Dev) (l : LaneId) (tie : Bool) : d.seek l false tie = d.setLane l { d.lane l with runValid := 0 } := by
  unfold Dev.seek
  exact if_neg (by simp)

/-- The 64th consecutive valid header locks the lane (R58; row 5). -/
theorem Dev.seek_locks (h : 63 ≤ (d.lane l).runValid) :
    (d.seek l true false).laneState l = lsTrain ∧
      (d.seek l true false).lane l = { d.lane l with
        runValid := 0, recent := [], rxRun := 0, lowEyes := 0, buf := [], los := false, eyeBlocks := 0, trainBlocks := 0,
        burst := none } ∧
      d.regsBut (laneStateRegs l) (d.seek l true false) := by
  have hframe := (((Dev.regsBut_refl _ d).setLane l { d.lane l with runValid := (d.lane l).runValid + 1 }).trans
    (Dev.laneTo_regsBut _ l lsTrain))
  unfold Dev.seek
  dsimp only
  rw [if_pos rfl, if_pos ⟨by omega, rfl⟩, Dev.laneTo_lane _ _ (by decide), Dev.setLane_lane, Dev.setLane_lane, Dev.setLane_laneState]
  exact ⟨Dev.laneTo_state _ l (by decide), rfl, hframe.setLane l _⟩

/-! A block taken in -/

theorem Dev.receive_hunt {b : RxBlock} (tie : Bool) (h : d.laneState l = lsHunt) :
    d.receive l b tie =
      ((d.setLane l { d.lane l with rxHist := (descramble (d.lane l).rxHist b.line).2 }).countIf (b.lost || !hdrOk b.hdr)
        (laneReg l Reg.ingInvalidHdr)).seek l (!(b.lost || !hdrOk b.hdr) && b.inCode && decide (b.at_ < huntSpan)) tie := by
  unfold Dev.receive
  dsimp only
  rw [if_pos (.inl h), if_pos h]

/-- A block with a valid header, in a codeword that decodes, inside the hunt window, that is the 64th in a row. -/
theorem Dev.receive_locks {b : RxBlock} (h : d.laneState l = lsHunt) (hok : hdrOk b.hdr = true) (hlost : b.lost = false)
    (hin : b.inCode = true) (hat : b.at_ < 2 ^ 20 * 130) (hrun : 63 ≤ (d.lane l).runValid) :
    (d.receive l b false).laneState l = lsTrain ∧
      (∃ x, (d.receive l b false).lane l = { d.lane l with
        rxHist := x, runValid := 0, recent := [], rxRun := 0, lowEyes := 0, buf := [], los := false, eyeBlocks := 0,
        trainBlocks := 0, burst := none }) ∧
      d.regsBut (laneStateRegs l) (d.receive l b false) := by
  have hvalid : (!(b.lost || !hdrOk b.hdr) && b.inCode && decide (b.at_ < huntSpan)) = true := by
    rw [hok, hlost, hin, decide_eq_true (show b.at_ < huntSpan from hat)]
    rfl
  have hbad : (b.lost || !hdrOk b.hdr) = false := by simp [hok, hlost]
  rw [Dev.receive_hunt false h, hvalid, hbad]
  generalize hx : (descramble (d.lane l).rxHist b.line).2 = x
  obtain ⟨hstate, hlane, hframe⟩ := Dev.seek_locks (d := d.setLane l { d.lane l with rxHist := x }) (l := l)
    (by rw [Dev.setLane_lane]; exact hrun)
  rw [Dev.setLane_lane] at hlane
  exact ⟨hstate, ⟨x, hlane⟩, ((Dev.regsBut_refl _ d).setLane l _).trans hframe⟩

/-- An invalid header in HUNT. -/
theorem Dev.receive_hunt_invalid {b : RxBlock} (tie : Bool) (h : d.laneState l = lsHunt) (hok : hdrOk b.hdr = false) :
    (d.receive l b tie).laneState l = lsHunt ∧ ((d.receive l b tie).lane l).runValid = 0 ∧
      (d.receive l b tie).rd (laneReg l Reg.ingInvalidHdr) = satInc 32 1 (d.rd (laneReg l Reg.ingInvalidHdr)) ∧
      d.regsBut [laneReg l Reg.ingInvalidHdr] (d.receive l b tie) := by
  have hbad : (b.lost || !hdrOk b.hdr) = true := by simp [hok]
  have hne : laneReg l Reg.ingLstate ≠ laneReg l Reg.ingInvalidHdr := laneReg_ne l (by decide) (by decide) (by decide)
  rw [Dev.receive_hunt tie h, hbad]
  simp only [Bool.not_true, Bool.false_and]
  rw [Dev.seek_invalid, Dev.setLane_laneState, Dev.setLane_lane, Dev.setLane_rd]
  exact ⟨(Dev.laneState_of_rd (Dev.rd_count_ne _ hne)).trans h, rfl, Dev.rd_count _ _,
    (((Dev.regsBut_refl _ d).setLane l _).count List.mem_cons_self).setLane l _⟩

/-! The elastic buffer, and the loss of lock -/

/-- The place of a block at the end of the buffer touches three counters and the buffer, and an open burst at most. -/
theorem Dev.append_regsBut (d : Dev) (l : LaneId) (b : Blk) :
    d.regsBut [laneReg l Reg.ingCtrlUnknown, laneReg l Reg.ingBurstBroken, laneReg l Reg.ingOrphan] (d.append l b) := fun a ha => by
  obtain ⟨hunknown, hbroken, horphan⟩ : a ≠ laneReg l Reg.ingCtrlUnknown ∧ a ≠ laneReg l Reg.ingBurstBroken ∧
      a ≠ laneReg l Reg.ingOrphan := by simpa using ha
  unfold Dev.append
  dsimp only
  rw [Dev.drain_rd _ _ _ hunknown hbroken horphan, Dev.setLane_rd]

theorem Dev.append_lane (d : Dev) (l : LaneId) (b : Blk) :
    ∃ rest u, (d.append l b).lane l = { d.lane l with buf := rest, burst := u } := by
  obtain ⟨-, rest, u, h⟩ := Dev.drain_lane l ((d.lane l).buf.length + 1) (d.setLane l { d.lane l with buf := (d.lane l).buf ++ [b] })
  exact ⟨rest, u, h.trans (by rw [Dev.setLane_lane])⟩

theorem Dev.passBlock_gap {b : Blk} (h : b.gap = true) : d.passBlock l b = d.breakBurst l := if_pos h

/-- A block that waits for no command leaves the read side. -/
theorem Dev.drain_passes {b : Blk} {rest : List Blk} (n : Nat) (hb : (d.lane l).buf = b :: rest)
    (hw : waits l (d.laneState l = lsService) b = false) :
    Dev.drain l (n + 1) d = Dev.drain l n ((d.setLane l { d.lane l with buf := rest }).passBlock l b) := by
  rw [Dev.drain, hb]
  exact if_neg (by rw [hw]; exact Bool.false_ne_true)

/-- At the place of a lost block that comes to the read side at once an open burst breaks. -/
theorem Dev.append_lost_burst (h : (d.lane l).buf = []) : ((d.append l Blk.lost).lane l).burst = none := by
  have hbuf : ((d.setLane l { d.lane l with buf := [] ++ [Blk.lost] }).lane l).buf = Blk.lost :: [] := by
    rw [Dev.setLane_lane]
    rfl
  unfold Dev.append
  dsimp only
  rw [h, List.length_nil, Dev.drain_passes 0 hbuf rfl, Dev.passBlock_gap rfl]
  exact congrArg LaneRec.burst (Dev.breakBurst_lane ..)

/-- A header noted among the last 64. -/
def Dev.noteHeader (d : Dev) (l : LaneId) (invalid : Bool) : Dev :=
  d.setLane l { d.lane l with recent := (invalid :: (d.lane l).recent).take 64 }

theorem Dev.judgeHeader_eq (d : Dev) (l : LaneId) (invalid : Bool) :
    d.judgeHeader l invalid false =
      if 16 ≤ ((invalid :: (d.lane l).recent).take 64 |>.filter id).length then
        ((d.noteHeader l invalid).laneCount l Reg.ingLockLoss).newTry l
      else d.noteHeader l invalid := by
  unfold Dev.judgeHeader
  simp only [and_true]
  rfl

theorem Dev.judgeHeader_state (d : Dev) (l : LaneId) (invalid : Bool) :
    (d.judgeHeader l invalid false).laneState l =
      if 16 ≤ ((invalid :: (d.lane l).recent).take 64 |>.filter id).length then lsHunt else d.laneState l := by
  rw [Dev.judgeHeader_eq]
  split
  · exact Dev.newTry_state ..
  · rfl

theorem Dev.judgeHeader_burst (invalid : Bool) (h : (d.lane l).burst = none) :
    ((d.judgeHeader l invalid false).lane l).burst = none := by
  rw [Dev.judgeHeader_eq]
  split
  · rw [Dev.newTry_lane]
  · unfold Dev.noteHeader
    rw [Dev.setLane_lane]
    exact h

theorem Dev.judgeHeader_regsBut (d : Dev) (l : LaneId) (invalid : Bool) :
    d.regsBut (laneReg l Reg.ingLockLoss :: laneStateRegs l) (d.judgeHeader l invalid false) := by
  have hnote : ∀ A, d.regsBut A (d.noteHeader l invalid) := fun A => (Dev.regsBut_refl A d).setLane l _
  rw [Dev.judgeHeader_eq]
  split
  · exact ((hnote _).count List.mem_cons_self).trans ((Dev.newTry_regsBut _ l).mono (List.subset_cons_self _ _))
  · exact hnote _

/-- An invalid header past HUNT counted, and its block counted toward the measurement and the training window. -/
def Dev.noteInvalid (d : Dev) (l : LaneId) (b : RxBlock) : Dev :=
  let r := { d.lane l with rxHist := (descramble (d.lane l).rxHist b.line).2 }
  ((d.setLane l r).count (laneReg l Reg.ingInvalidHdr)).setLane l
    { r with eyeBlocks := r.eyeBlocks + 1, trainBlocks := r.trainBlocks + 1 }

theorem Dev.noteInvalid_lane (d : Dev) (l : LaneId) (b : RxBlock) :
    ((d.noteInvalid l b).lane l).buf = (d.lane l).buf ∧ ((d.noteInvalid l b).lane l).recent = (d.lane l).recent := by
  unfold Dev.noteInvalid
  dsimp only
  rw [Dev.setLane_lane]
  exact ⟨rfl, rfl⟩

theorem Dev.noteInvalid_invalidHdr (d : Dev) (l : LaneId) (b : RxBlock) :
    (d.noteInvalid l b).rd (laneReg l Reg.ingInvalidHdr) = satInc 32 1 (d.rd (laneReg l Reg.ingInvalidHdr)) :=
  Dev.rd_count (d.setLane l _) _

theorem Dev.noteInvalid_regsBut (d : Dev) (l : LaneId) (b : RxBlock) :
    d.regsBut [laneReg l Reg.ingInvalidHdr] (d.noteInvalid l b) :=
  (((Dev.regsBut_refl _ d).setLane l _).count List.mem_cons_self).setLane l _

theorem Dev.receive_invalid_eq {b : RxBlock} (h : d.laneState l = lsTrain ∨ d.laneState l = lsService) (hok : hdrOk b.hdr = false) :
    d.receive l b false = ((d.noteInvalid l b).append l Blk.lost).judgeHeader l true false := by
  have hne : d.laneState l ≠ lsHunt := by rcases h with h | h <;> rw [h] <;> decide
  unfold Dev.receive
  dsimp only
  rw [if_pos (.inr h), if_neg hne, hok]
  simp only [Bool.not_false, Bool.or_true, if_true, Dev.countIf, Dev.count_lane, Dev.setLane_lane]
  rfl

/-- An invalid header in TRAIN or SERVICE: counted, its block lost, and the lock judged (R58; row 4). -/
theorem Dev.receive_service_invalid {b : RxBlock} (h : d.laneState l = lsTrain ∨ d.laneState l = lsService)
    (hok : hdrOk b.hdr = false) :
    let e := d.receive l b false
    let inv := laneReg l Reg.ingInvalidHdr
    e.rd inv = satInc 32 1 (d.rd inv) ∧ ((d.lane l).buf = [] → (e.lane l).burst = none) ∧
      e.laneState l = (if 16 ≤ ((true :: (d.lane l).recent).take 64 |>.filter id).length then lsHunt else d.laneState l) ∧
      d.regsBut (inv :: laneReg l Reg.ingLockLoss :: laneReg l Reg.ingCtrlUnknown :: laneStateRegs l) e := by
  intro e inv
  have he : e = ((d.noteInvalid l b).append l Blk.lost).judgeHeader l true false := Dev.receive_invalid_eq h hok
  obtain ⟨hbuf, hrecent⟩ := Dev.noteInvalid_lane d l b
  obtain ⟨rest, u, happend⟩ := Dev.append_lane (d.noteInvalid l b) l Blk.lost
  have hjudge := Dev.judgeHeader_regsBut ((d.noteInvalid l b).append l Blk.lost) l true
  have hlost := Dev.append_regsBut (d.noteInvalid l b) l Blk.lost
  have hnote := Dev.noteInvalid_regsBut d l b
  rw [he]
  refine ⟨?_, fun h0 => Dev.judgeHeader_burst _ (Dev.append_lost_burst (hbuf.trans h0)), ?_, ?_⟩
  · have hinv := hlost.laneReg_rd [Reg.ingCtrlUnknown, Reg.ingBurstBroken, Reg.ingOrphan] (r := Reg.ingInvalidHdr) (by decide)
    rw [hjudge inv (List.not_mem_cons_of_ne_of_not_mem (laneReg_ne l (by decide) (by decide) (by decide)) (invalidHdr_not_mem l)), hinv]
    exact Dev.noteInvalid_invalidHdr d l b
  · rw [Dev.judgeHeader_state, happend, hrecent]
    have hstate : ((d.noteInvalid l b).append l Blk.lost).laneState l = d.laneState l := Dev.laneState_of_rd <|
      (hlost.laneReg_rd [Reg.ingCtrlUnknown, Reg.ingBurstBroken, Reg.ingOrphan] (by decide)).trans
        (hnote.laneReg_rd [Reg.ingInvalidHdr] (by decide))
    rw [hstate]
  · have hwider : laneReg l Reg.ingLockLoss :: laneStateRegs l ⊆
        inv :: laneReg l Reg.ingLockLoss :: laneReg l Reg.ingCtrlUnknown :: laneStateRegs l :=
      List.cons_subset.mpr ⟨by simp, fun _ ha => by simp [ha]⟩
    exact (hnote.mono (by simp [inv])).trans ((hlost.mono (by simp [laneStateRegs])).trans (hjudge.mono hwider))

/-! The line -/

theorem Dev.rxPolarity_hdrOk (d : Dev) (l : LaneId) (hdr : BitVec 2) (p : BitVec 128) :
    hdrOk (d.rxPolarity l hdr p).1 = hdrOk hdr := by
  unfold Dev.rxPolarity
  split
  · exact (by decide : ∀ h : BitVec 2, hdrOk (~~~h) = hdrOk h) hdr
  · rfl

/-- The block that comes on the line of a lane without FEC. -/
def Dev.lineBlock (d : Dev) (l : LaneId) (hdr : BitVec 2) (p : BitVec 128) : RxBlock :=
  ⟨(d.rxPolarity l hdr p).1, (d.rxPolarity l hdr p).2, true, false, (d.lane l).tryBits⟩

/-- A block's line bits counted toward the hunt window. -/
def Dev.countLine (d : Dev) (l : LaneId) : Dev := d.setLane l { d.lane l with tryBits := (d.lane l).tryBits + 130 }

theorem Dev.countLine_lane (d : Dev) (l : LaneId) :
    (d.countLine l).lane l = { d.lane l with tryBits := (d.lane l).tryBits + 130 } := Dev.setLane_lane ..

theorem Dev.countLine_regsBut (A : List Nat) (d : Dev) (l : LaneId) : d.regsBut A (d.countLine l) :=
  Dev.regsBut_of_regs A rfl

/-- On a lane without FEC the block on the line is taken in. -/
theorem Dev.takeIn_uncoded (h : d.laneFec l = 0) (hdr : BitVec 2) (p : BitVec 128) (tie : Bool) :
    d.takeIn l hdr p tie = (d.countLine l).receive l (d.lineBlock l hdr p) tie := if_pos h

/-- On a lane with FEC the oldest block of the decoded codewords is. -/
theorem Dev.takeIn_coded {b : RxBlock} {rest : List RxBlock} (h : d.laneFec l ≠ 0) (hb : (d.lane l).decoded = b :: rest)
    (hdr : BitVec 2) (p : BitVec 128) (tie : Bool) :
    d.takeIn l hdr p tie = (d.setLane l { d.lane l with decoded := rest }).receive l b tie := by
  unfold Dev.takeIn
  rw [if_neg h, hb]

/-- What the line bits of a codeword decode to (R39, R40). -/
def Dev.decodes (d : Dev) (l : LaneId) (levels : List (Fin 4)) : Option (List Bool × Bool) :=
  fecDecode (d.laneFec l) (bitSlice (levelBits (d.lanePam4 l)
    (if d.flag (laneReg l Reg.ingLcfg) Fld.ingLcfgRxInvert then invertLevels (d.lanePam4 l) levels else levels)) 0
    (fecLen (d.laneFec l)))

section
variable {levels : List (Fin 4)} (h : d.laneState l = lsHunt ∨ d.laneState l = lsTrain ∨ d.laneState l = lsService)
  (hfec : d.laneFec l ≠ 0)
include h hfec

/-- A codeword's blocks join those that wait. -/
theorem Dev.codeword_decoded :
    ∃ bs : List RxBlock, ((d.codeword l levels).lane l).decoded = (d.lane l).decoded ++ bs ∧ bs.length = fecBlocks (d.laneFec l) ∧
      ∀ b ∈ bs, b.lost = (d.decodes l levels).isNone := by
  unfold Dev.codeword Dev.decodes
  dsimp only
  rw [if_pos ⟨h, hfec⟩]
  split
  next hout =>
    rw [Dev.laneCount_lane, Dev.setLane_lane]
    exact ⟨_, rfl, by rw [List.length_map, List.length_range], by simp [hout, rxBlockOf]⟩
  next hout =>
    rw [Dev.countIf_lane, Dev.setLane_lane]
    exact ⟨_, rfl, by rw [List.length_map, List.length_range], by simp [hout, rxBlockOf]⟩

/-- An uncorrectable codeword is counted. -/
theorem Dev.codeword_uncorr (hout : d.decodes l levels = none) :
    (d.codeword l levels).regs = (d.count (laneReg l Reg.ingFecUncorr)).regs := by
  unfold Dev.decodes at hout
  unfold Dev.codeword
  dsimp only
  rw [if_pos ⟨h, hfec⟩, hout]
  rfl

/-- A codeword that decodes is counted when it was corrected. -/
theorem Dev.codeword_corr {msg : List Bool} {fixed : Bool} (hout : d.decodes l levels = some (msg, fixed)) :
    (d.codeword l levels).regs = (d.countIf fixed (laneReg l Reg.ingFecCorr)).regs := by
  unfold Dev.decodes at hout
  unfold Dev.codeword
  dsimp only
  rw [if_pos ⟨h, hfec⟩, hout]
  cases fixed <;> rfl

theorem Dev.codeword_regsBut : d.regsBut [laneReg l Reg.ingFecCorr, laneReg l Reg.ingFecUncorr] (d.codeword l levels) := by
  cases hout : d.decodes l levels with
  | none =>
    refine Dev.regsBut.trans (e := d.count (laneReg l Reg.ingFecUncorr)) ((Dev.regsBut_refl _ d).count (by simp)) ?_
    exact Dev.regsBut_of_regs _ (Dev.codeword_uncorr h hfec hout)
  | some x =>
    refine Dev.regsBut.trans (e := d.countIf x.2 (laneReg l Reg.ingFecCorr)) ((Dev.regsBut_refl _ d).countIf (by simp) _) ?_
    exact Dev.regsBut_of_regs _ (Dev.codeword_corr h hfec hout)

end

end

end Sys2Proof.Machine
end

section
/-!
Block lock, invalid headers and codewords, as commands.
-/

namespace Sys2Proof.Machine

open Sys2Proof

section
variable {s : State} {l : LaneId} (hs : s.dev.alive = true)
include hs

/-- An invalid header in HUNT begins the search again, whether or not a lower row is triggered with it. -/
theorem invalidHeader_hunt_gives {hdr : BitVec 2} (p : BitVec 128) (tie : Bool) (hfec : s.dev.laneFec l = 0)
    (hst : s.dev.laneState l = lsHunt) (hok : hdrOk hdr = false) :
    let inv := laneReg l Reg.ingInvalidHdr
    Gives (.blockReceived l hdr p tie) s fun d =>
      d.laneState l = lsHunt ∧ (d.lane l).runValid = 0 ∧ d.rd inv = satInc 32 1 (s.dev.rd inv) ∧
      s.dev.regsBut (inv :: laneStateRegs l) d := by
  intro inv
  refine gives_lane (exec_blockReceived ..) hs ?_
  obtain ⟨hstate, hrun, hinv, hframe⟩ := Dev.receive_hunt_invalid (d := s.dev.countLine l) (b := s.dev.lineBlock l hdr p) tie hst
    ((Dev.rxPolarity_hdrOk ..).trans hok)
  rw [Dev.takeIn_uncoded hfec, Dev.laneSync_state, Dev.laneSync_lane, Dev.laneSync_rd _ _ _ (by decide)]
  exact ⟨hstate, hrun, hinv, (((Dev.countLine_regsBut _ _ l).trans hframe).mono (by simp [inv])).laneSync
    (List.subset_cons_self _ _)⟩

/-- An invalid header in TRAIN or SERVICE is counted, breaks the burst at its place and can lose the lock (row 4). -/
theorem invalidHeader_service_gives {hdr : BitVec 2} (p : BitVec 128) (hfec : s.dev.laneFec l = 0)
    (hst : s.dev.laneState l = lsTrain ∨ s.dev.laneState l = lsService) (hok : hdrOk hdr = false) :
    let inv := laneReg l Reg.ingInvalidHdr
    Gives (.blockReceived l hdr p false) s fun d =>
      d.rd inv = satInc 32 1 (s.dev.rd inv) ∧ ((s.dev.lane l).buf = [] → (d.lane l).burst = none) ∧
      d.laneState l =
        (if 16 ≤ ((true :: (s.dev.lane l).recent).take 64 |>.filter id).length then lsHunt else s.dev.laneState l) ∧
      s.dev.regsBut (inv :: laneReg l Reg.ingLockLoss :: laneReg l Reg.ingCtrlUnknown :: laneStateRegs l) d := by
  intro inv
  refine gives_lane (exec_blockReceived ..) hs ?_
  obtain ⟨hinv, hburst, hstate, hframe⟩ := Dev.receive_service_invalid (d := s.dev.countLine l) (b := s.dev.lineBlock l hdr p) hst
    ((Dev.rxPolarity_hdrOk ..).trans hok)
  rw [Dev.countLine_lane] at hburst hstate
  rw [Dev.takeIn_uncoded hfec, Dev.laneSync_state, Dev.laneSync_lane, Dev.laneSync_rd _ _ _ (by decide)]
  exact ⟨hinv, hburst, hstate, ((Dev.countLine_regsBut _ _ l).trans hframe).laneSync fun _ ha => by simp [ha]⟩

/-- A codeword that a lane decodes. -/
theorem codewordDecoded_gives (levels : List (Fin 4)) (hfec : s.dev.laneFec l ≠ 0)
    (hst : s.dev.laneState l = lsHunt ∨ s.dev.laneState l = lsTrain ∨ s.dev.laneState l = lsService) :
    let corr := laneReg l Reg.ingFecCorr
    let uncorr := laneReg l Reg.ingFecUncorr
    let out := s.dev.decodes l levels
    Gives (.codewordDecoded l levels) s fun d =>
      (out = none → d.rd uncorr = satInc 32 1 (s.dev.rd uncorr) ∧ d.rd corr = s.dev.rd corr) ∧
      (∀ msg fixed, out = some (msg, fixed) → d.rd uncorr = s.dev.rd uncorr ∧
        d.rd corr = (if fixed then satInc 32 1 (s.dev.rd corr) else s.dev.rd corr)) ∧
      (∃ bs : List RxBlock, (d.lane l).decoded = (s.dev.lane l).decoded ++ bs ∧ bs.length = fecBlocks (s.dev.laneFec l) ∧
        ∀ b ∈ bs, b.lost = out.isNone) ∧
      d.laneState l = s.dev.laneState l ∧ s.dev.regsBut (corr :: uncorr :: laneStateRegs l) d := by
  intro corr uncorr out
  have hne : corr ≠ uncorr := laneReg_ne l (by decide) (by decide) (by decide)
  have hframe : s.dev.regsBut [corr, uncorr] (s.dev.codeword l levels) := Dev.codeword_regsBut hst hfec
  have hblocks := Dev.codeword_decoded (levels := levels) hst hfec
  refine gives_lane (exec_codewordDecoded ..) hs ?_
  rw [Dev.laneSync_state, Dev.laneSync_lane, Dev.laneSync_rd _ _ _ (by decide), Dev.laneSync_rd _ _ _ (by decide)]
  refine ⟨fun hout => ?_, fun msg fixed hout => ?_, hblocks, 
    Dev.laneState_of_rd (hframe.laneReg_rd [Reg.ingFecCorr, Reg.ingFecUncorr] (by decide)),
    (hframe.mono (by simp)).laneSync fun _ ha => by simp [ha]⟩
  · have hregs := Dev.codeword_uncorr hst hfec hout
    rw [Dev.rd_of_regs hregs, Dev.rd_of_regs hregs]
    exact ⟨Dev.rd_count _ _, Dev.rd_count_ne _ hne⟩
  · have hregs := Dev.codeword_corr hst hfec hout
    rw [Dev.rd_of_regs hregs, Dev.rd_of_regs hregs]
    refine ⟨Dev.rd_countIf_ne _ _ hne.symm, ?_⟩
    cases fixed with
    | false => rfl
    | true => exact Dev.rd_count _ _

end

/-- Settles O4: lock found, a header invalid in HUNT and past it, lock found under FEC, and a codeword decoded. -/
theorem laneLock : Obligations.LaneLock := by
  intro s l hs inv
  refine ⟨fun hdr p hfec hst hok hrun hbits => gives_lane (exec_blockReceived ..) hs ?_,
    fun hdr p tie hfec hst hok => invalidHeader_hunt_gives hs p tie hfec hst hok,
    fun hdr p hfec hst hok => invalidHeader_service_gives hs p hfec hst hok,
    fun hdr p b rest hfec hst hdec hok hlost hin hat hrun => gives_lane (exec_blockReceived ..) hs ?_,
    fun levels hst hfec => codewordDecoded_gives hs levels hfec hst⟩
  · obtain ⟨hstate, ⟨x, hlane⟩, hframe⟩ := Dev.receive_locks (d := s.dev.countLine l) (b := s.dev.lineBlock l hdr p) hst
      ((Dev.rxPolarity_hdrOk ..).trans hok) rfl rfl hbits (by rw [Dev.countLine_lane]; exact hrun)
    rw [Dev.takeIn_uncoded hfec, Dev.laneSync_state, Dev.laneSync_lane, hlane]
    exact ⟨hstate, rfl, rfl, rfl, ((Dev.countLine_regsBut _ _ l).trans hframe).laneSync (List.Subset.refl _)⟩
  · obtain ⟨hstate, ⟨x, hlane⟩, hframe⟩ := Dev.receive_locks (d := s.dev.setLane l { s.dev.lane l with decoded := rest }) (b := b)
      hst hok hlost hin hat (by rw [Dev.setLane_lane]; exact hrun)
    rw [Dev.takeIn_coded hfec hdec, Dev.laneSync_state, Dev.laneSync_lane, hlane, Dev.setLane_lane]
    exact ⟨hstate, rfl, (((Dev.regsBut_refl _ s.dev).setLane l _).trans hframe).laneSync (List.Subset.refl _)⟩

end Sys2Proof.Machine
end

section
/-!
The deframer: the blocks at the read side of a lane, data and TAG blocks of an ingest lane, and LINK blocks (R44 to R50).
-/

namespace Sys2Proof.Machine

open Sys2Proof

section
variable {d : Dev} {l : LaneId}

/-! A block taken -/

theorem Dev.takeBlock_head {b : Blk} {rest : List Blk} {p : Blk → Bool} (f : Dev → BitVec 128 → Dev)
    (hb : (d.lane l).buf = b :: rest) (hp : p b = true) : d.takeBlock l p f = (f d b.payload).popBlock l := by
  unfold Dev.takeBlock
  rw [hb]
  exact if_pos hp

/-! The read side without lost blocks -/

theorem Dev.passBlock_kept {b : Blk} (h : b.gap = false) :
    d.passBlock l b = (d.countIf (b.ctl && !typeKnown l (blkType b.payload)) (laneReg l Reg.ingCtrlUnknown)).countIf
      (!b.ctl && isIngest l) (laneReg l Reg.ingOrphan) := if_neg (by rw [h]; exact Bool.false_ne_true)

theorem Dev.passBlock_kept_lane {b : Blk} (h : b.gap = false) : (d.passBlock l b).lane l = d.lane l := by
  rw [Dev.passBlock_kept h, Dev.countIf_lane, Dev.countIf_lane]

/-- The read side stops at the first block that waits for a command, or passes one block on. -/
theorem Dev.drain_cases (n : Nat) (d : Dev) (l : LaneId) :
    Dev.drain l (n + 1) d = d ∨ ∃ b rest, (d.lane l).buf = b :: rest ∧ waits l (d.laneState l = lsService) b = false ∧
      Dev.drain l (n + 1) d = Dev.drain l n ((d.setLane l { d.lane l with buf := rest }).passBlock l b) := by
  cases hb : (d.lane l).buf with
  | nil => exact .inl (by rw [Dev.drain, hb])
  | cons b rest =>
    cases hw : waits l (d.laneState l = lsService) b with
    | true => exact .inl (by rw [Dev.drain, hb]; exact if_pos hw)
    | false => exact .inr ⟨b, rest, rfl, hw, Dev.drain_passes n hb hw⟩

/-- With no lost block in the buffer the open burst stays as it is. -/
theorem Dev.drain_burst (n : Nat) (d : Dev) (l : LaneId) (h : ∀ b ∈ (d.lane l).buf, b.gap = false) :
    ((Dev.drain l n d).lane l).burst = (d.lane l).burst := by
  induction n generalizing d with
  | zero => rfl
  | succ n ih =>
    obtain he | ⟨b, rest, hb, -, he⟩ := Dev.drain_cases n d l
    · rw [he]
    · rw [hb] at h
      have hlane : ((d.setLane l { d.lane l with buf := rest }).passBlock l b).lane l = { d.lane l with buf := rest } := by
        rw [Dev.passBlock_kept_lane (h b List.mem_cons_self), Dev.setLane_lane]
      rw [he, ih _ (by rw [hlane]; exact fun x hx => h x (List.mem_cons_of_mem _ hx)), hlane]

/-- In SERVICE, with no lost block in the buffer, an ingest lane's read side counts unknown control blocks alone: data blocks wait. -/
theorem Dev.drain_service_regsBut (n : Nat) (d : Dev) (hi : isIngest l = true) (hst : d.laneState l = lsService)
    (h : ∀ b ∈ (d.lane l).buf, b.gap = false) : d.regsBut [laneReg l Reg.ingCtrlUnknown] (Dev.drain l n d) := by
  induction n generalizing d with
  | zero => exact Dev.regsBut_refl _ d
  | succ n ih =>
    obtain he | ⟨b, rest, hb, hw, he⟩ := Dev.drain_cases n d l
    · rw [he]
      exact Dev.regsBut_refl _ d
    · rw [hb] at h
      have hgap : b.gap = false := h b List.mem_cons_self
      have hctl : b.ctl = true := by
        have hwaits : b.ctl = true ∧ ¬ blkType b.payload = 2 ∧ ¬ blkType b.payload = 1 := by
          simpa [waits, hgap, hst, hi] using hw
        exact hwaits.1
      have hframe : d.regsBut [laneReg l Reg.ingCtrlUnknown] ((d.setLane l { d.lane l with buf := rest }).passBlock l b) := by
        rw [Dev.passBlock_kept hgap, hctl]
        exact ((Dev.regsBut_refl _ d).setLane l _).countIf List.mem_cons_self _
      have hlane : ((d.setLane l { d.lane l with buf := rest }).passBlock l b).lane l = { d.lane l with buf := rest } := by
        rw [Dev.passBlock_kept_lane hgap, Dev.setLane_lane]
      have hstate := Dev.laneState_of_rd (hframe.laneReg_rd [Reg.ingCtrlUnknown] (r := Reg.ingLstate) (by decide))
      rw [he]
      exact hframe.trans (ih _ (hstate.trans hst) (by rw [hlane]; exact fun x hx => h x (List.mem_cons_of_mem _ hx)))

/-! The block at the read side gone -/

section
variable {b : Blk} {rest : List Blk} (hb : (d.lane l).buf = b :: rest)
include hb

theorem Dev.popBlock_eq : d.popBlock l = Dev.drain l rest.length (d.setLane l { d.lane l with buf := rest }) := by
  unfold Dev.popBlock
  rw [hb]

theorem Dev.popBlock_burst (h : ∀ x ∈ rest, x.gap = false) : ((d.popBlock l).lane l).burst = (d.lane l).burst := by
  rw [Dev.popBlock_eq hb, Dev.drain_burst _ _ _ (by rw [Dev.setLane_lane]; exact h), Dev.setLane_lane]

theorem Dev.popBlock_service_regsBut (hi : isIngest l = true) (hst : d.laneState l = lsService) (h : ∀ x ∈ rest, x.gap = false) :
    d.regsBut [laneReg l Reg.ingCtrlUnknown] (d.popBlock l) := by
  rw [Dev.popBlock_eq hb]
  exact ((Dev.regsBut_refl _ d).setLane l _).trans
    (Dev.drain_service_regsBut _ _ hi hst (by rw [Dev.setLane_lane]; exact h))

end

theorem Dev.popBlock_regsBut (d : Dev) (l : LaneId) :
    d.regsBut [laneReg l Reg.ingCtrlUnknown, laneReg l Reg.ingOrphan, laneReg l Reg.ingBurstBroken] (d.popBlock l) := fun a ha => by
  obtain ⟨hunknown, horphan, hbroken⟩ : a ≠ laneReg l Reg.ingCtrlUnknown ∧ a ≠ laneReg l Reg.ingOrphan ∧
      a ≠ laneReg l Reg.ingBurstBroken := by simpa using ha
  exact Dev.popBlock_rd d l hunknown hbroken horphan

/-! LINK blocks -/

/-- What a LINK block tells of the partner (R44, Table 2.4). -/
theorem Dev.linkRx_spec (p : BitVec 128) (h : d.laneState l = lsTrain ∨ d.laneState l = lsService) :
    let a := laneReg l Reg.ingLfom
    (d.linkRx l p).fld a Fld.ingLfomPartnerEye = bitsOf p.toNat 109 8 ∧
      (d.linkRx l p).fld a Fld.ingLfomPartnerState = bitsOf p.toNat 117 3 ∧
      (d.linkRx l p).fld a Fld.ingLfomPartnerValid = 1 ∧ d.regsBut [a] (d.linkRx l p) := by
  intro a
  unfold Dev.linkRx
  dsimp only
  rw [if_pos h]
  refine ⟨?_, ?_, Dev.fld_setFld_same _ _ _ _ (by decide), (((Dev.regsBut_refl _ d).setFld List.mem_cons_self _ _).setFld
    List.mem_cons_self _ _).setFld List.mem_cons_self _ _⟩
  · rw [Dev.fld_setFld_fld _ _ _ _ _ (by decide) (by decide), Dev.fld_setFld_fld _ _ _ _ _ (by decide) (by decide),
      Dev.fld_setFld_same _ _ _ _ (by decide)]
    exact Nat.mod_eq_of_lt (bitsOf_lt ..)
  · rw [Dev.fld_setFld_fld _ _ _ _ _ (by decide) (by decide), Dev.fld_setFld_same _ _ _ _ (by decide)]
    exact Nat.mod_eq_of_lt (bitsOf_lt ..)

end

/-! Data and TAG blocks of an ingest lane -/

/-- A register of the lane block by the number of an ingest lane. -/
theorem ingestReg_eq (n : Fin 64) {r : Nat → Nat} (h0 : 0x81000 ≤ r 0) (h : r n.val = r 0 + 0x80 * n.val) :
    r n.val = laneReg (ingestLane n) r := by
  have hn : (ingestLane n).val = n.val := rfl
  unfold laneReg laneBase
  rw [hn, if_pos n.isLt, h]
  omega

theorem ingOrphan_eq (n : Fin 64) : Reg.ingOrphan n.val = laneReg (ingestLane n) Reg.ingOrphan := ingestReg_eq n (by decide) rfl

theorem ingBurstLost_eq (n : Fin 64) : Reg.ingBurstLost n.val = laneReg (ingestLane n) Reg.ingBurstLost :=
  ingestReg_eq n (by decide) rfl

theorem isIngest_ingestLane (n : Fin 64) : isIngest (ingestLane n) = true := decide_eq_true n.isLt

section
variable {d : Dev} {n : Fin 64}

/-- A data block with no burst open is an orphan. -/
theorem Dev.dataBlock_orphan (p : BitVec 128) (h : (d.lane (ingestLane n)).burst = none) :
    d.dataBlock n p = d.count (Reg.ingOrphan n.val) := by
  unfold ingestLane at h
  unfold Dev.dataBlock
  dsimp only
  rw [h]

/-- A sample placed touches no register and no lane. -/
theorem Dev.placeSample_frame (acc : Dev × Bool × Bool × Bool) (ch lane : Nat) (x : Int × Int) :
    (Dev.placeSample acc ch lane x).1.regs = acc.1.regs ∧ (Dev.placeSample acc ch lane x).1.ing.lanes = acc.1.ing.lanes := by
  unfold Dev.placeSample
  dsimp only
  repeat' split
  all_goals exact ⟨rfl, rfl⟩

theorem Dev.placeSamples_frame (xs : List (Int × Int)) (acc : Dev × Bool × Bool × Bool) (ch lane : Nat) :
    (xs.foldl (fun acc x => Dev.placeSample acc ch lane x) acc).1.regs = acc.1.regs ∧
      (xs.foldl (fun acc x => Dev.placeSample acc ch lane x) acc).1.ing.lanes = acc.1.ing.lanes :=
  foldl_fst_keeps (P := fun e => e.regs = acc.1.regs ∧ e.ing.lanes = acc.1.ing.lanes)
    (fun e x he => ⟨(Dev.placeSample_frame e ch lane x).1.trans he.1, (Dev.placeSample_frame e ch lane x).2.trans he.2⟩) ⟨rfl, rfl⟩

/-- The counters of a data block's samples: ahead of time, late, delivered before, and in a pause (R46, R49, R341). -/
def sampleCounters (n : Nat) : List Nat := [Reg.ingTagAhead n, Reg.ingLateArrival n, Reg.ingDup n, Reg.tmsPauseDrop]

/-- They count no orphan, and stand outside the lane's state. -/
theorem sampleCounters_ne (n : Fin 64) :
    Reg.ingOrphan n.val ∉ sampleCounters n.val ∧ laneReg (ingestLane n) Reg.ingLstate ∉ sampleCounters n.val := by
  rw [← ingestReg_eq n (r := Reg.ingLstate) (by decide) rfl]
  simp only [sampleCounters, List.mem_cons, List.not_mem_nil, Reg.ingLstate, Reg.ingOrphan, Reg.ingTagAhead, Reg.ingLateArrival,
    Reg.ingDup, Reg.tmsPauseDrop, or_false, not_or]
  omega

/-- The burst after one data block more. -/
def Burst.advance (u : Burst) : Option Burst := if u.next + 1 < u.len then some { u with next := u.next + 1 } else none

/-- A data block inside a burst advances it (R48). -/
theorem Dev.dataBlock_burst {u : Burst} (p : BitVec 128) (h : (d.lane (ingestLane n)).burst = some u) :
    (d.dataBlock n p).lane (ingestLane n) = { d.lane (ingestLane n) with burst := u.advance } ∧
      d.regsBut (sampleCounters n.val) (d.dataBlock n p) := by
  have hburst := h
  unfold ingestLane at hburst
  unfold Dev.dataBlock
  dsimp only
  rw [hburst]
  dsimp only
  generalize he : d.setLane (ingestLane n) { d.lane (ingestLane n) with burst := u.advance } = e
  have hlane : e.lane (ingestLane n) = { d.lane (ingestLane n) with burst := u.advance } := he ▸ Dev.setLane_lane ..
  have hframe : d.regsBut (sampleCounters n.val) e := he ▸ (Dev.regsBut_refl _ d).setLane _ _
  unfold ingestLane Burst.advance at he
  rw [he]
  split
  · exact ⟨hlane, hframe.count (by simp [sampleCounters])⟩
  · generalize hacc : List.foldl _ _ _ = acc
    have hplaced : acc.1.regs = e.regs ∧ acc.1.ing.lanes = e.ing.lanes := hacc ▸ Dev.placeSamples_frame ..
    rw [Dev.countIf_lane, Dev.countIf_lane, Dev.countIf_lane]
    refine ⟨(congrArg (fun m => SMap.get _ m _) hplaced.2).trans hlane, ?_⟩
    have hstart : d.regsBut (sampleCounters n.val) acc.1 := hframe.trans (Dev.regsBut_of_regs _ hplaced.1)
    exact ((hstart.countIf (by simp [sampleCounters]) _).countIf (by simp [sampleCounters]) _).countIf (by simp [sampleCounters]) _

/-- The time that a TAG block names, in units of 2^-16 ns (R15, R45). -/
def Dev.tagTime (d : Dev) (p : BitVec 128) : Int := d.shortTag (bitsOf p.toNat 80 40) * 65536 + Int.ofNat (bitsOf p.toNat 64 16)

/-- SEQ of a TAG block. -/
def tagSeq (p : BitVec 128) : BitVec 8 := BitVec.ofNat 8 (bitsOf p.toNat 48 8)

/-- The sequence numbers that a TAG block passes over. -/
def Dev.tagsLost (d : Dev) (l : LaneId) (p : BitVec 128) : Nat :=
  match (d.lane l).lastSeq with
  | some q => (tagSeq p - q - 1).toNat
  | none => 0

/-- The open burst broken, and the sequence numbers passed over counted. -/
def Dev.countTags (d : Dev) (n : Fin 64) (p : BitVec 128) : Dev :=
  (d.breakBurst (ingestLane n)).countN (Reg.ingBurstLost n.val) ((d.breakBurst (ingestLane n)).tagsLost (ingestLane n) p)

theorem Dev.openBurst_eq (d : Dev) (n : Fin 64) (p : BitVec 128) :
    d.openBurst n p = (d.countTags n p).setLane (ingestLane n) { (d.countTags n p).lane (ingestLane n) with
      burst := if (d.countTags n p).laneState (ingestLane n) = lsService then
        some ⟨(d.breakBurst (ingestLane n)).tagTime p, bitsOf p.toNat 56 8 + 1, 0⟩ else none
      lastSeq := some (tagSeq p), lastP := (d.breakBurst (ingestLane n)).tagTime p } := rfl

theorem Dev.countTags_lane (d : Dev) (n : Fin 64) (p : BitVec 128) :
    (d.countTags n p).lane (ingestLane n) = { d.lane (ingestLane n) with burst := none } := Dev.breakBurst_lane ..

theorem Dev.countTags_state (d : Dev) (n : Fin 64) (p : BitVec 128) :
    (d.countTags n p).laneState (ingestLane n) = d.laneState (ingestLane n) := by
  refine Dev.laneState_of_rd ?_
  unfold Dev.countTags
  rw [ingBurstLost_eq, Dev.rd_countN_ne _ _ (laneReg_ne _ (by decide) (by decide) (by decide))]
  exact Dev.breakBurst_rd _ _ (laneReg_ne _ (by decide) (by decide) (by decide))

theorem Dev.breakBurst_tagTime (d : Dev) (l : LaneId) (p : BitVec 128) : (d.breakBurst l).tagTime p = d.tagTime p := by
  have htms : (d.breakBurst l).tms = d.tms := Dev.breakBurst_keeps (Part.same_keeps (d := d) .tms rfl) rfl
  unfold Dev.tagTime Dev.shortTag Dev.netNs
  rw [htms]

/-- A TAG block opens a burst in SERVICE, and gives the lane its time and SEQ (R45, R48). -/
theorem Dev.openBurst_lane (d : Dev) (n : Fin 64) (p : BitVec 128) :
    (d.openBurst n p).lane (ingestLane n) = { d.lane (ingestLane n) with
      burst := if d.laneState (ingestLane n) = lsService then some ⟨d.tagTime p, bitsOf p.toNat 56 8 + 1, 0⟩ else none
      lastSeq := some (tagSeq p), lastP := d.tagTime p } := by
  rw [Dev.openBurst_eq, Dev.setLane_lane, Dev.countTags_lane, Dev.countTags_state, Dev.breakBurst_tagTime]

theorem Dev.openBurst_burstLost {q : BitVec 8} (p : BitVec 128) (h : (d.lane (ingestLane n)).lastSeq = some q) :
    (d.openBurst n p).rd (Reg.ingBurstLost n.val) = satInc 32 (tagSeq p - q - 1).toNat (d.rd (Reg.ingBurstLost n.val)) := by
  have hlost : (d.breakBurst (ingestLane n)).tagsLost (ingestLane n) p = (tagSeq p - q - 1).toNat := by
    unfold Dev.tagsLost
    rw [Dev.breakBurst_lane, h]
  rw [Dev.openBurst_eq, Dev.setLane_rd]
  unfold Dev.countTags
  rw [hlost, Dev.rd_countN, Dev.breakBurst_rd]
  rw [ingBurstLost_eq]
  exact laneReg_ne _ (by decide) (by decide) (by decide)

end

/-! The deframer's commands -/

section
variable {s : State} (hs : s.dev.alive = true)
include hs

section
variable {n : Fin 64} {b : Blk} {rest : List Blk} (hb : (s.dev.lane (ingestLane n)).buf = b :: rest) (hgap : b.gap = false)
  (hrest : ∀ x ∈ rest, x.gap = false)
include hb hgap hrest

theorem dataBlock_orphan_gives (hst : s.dev.laneState (ingestLane n) = lsService) (hctl : b.ctl = false)
    (hu : (s.dev.lane (ingestLane n)).burst = none) :
    Gives (.dataBlock n) s fun d =>
      d.rd (Reg.ingOrphan n.val) = satInc 32 1 (s.dev.rd (Reg.ingOrphan n.val)) ∧ d.ing.queue = s.dev.ing.queue ∧
      s.dev.regsBut [Reg.ingOrphan n.val, laneReg (ingestLane n) Reg.ingCtrlUnknown] d := by
  have horphan : Reg.ingOrphan n.val ≠ laneReg (ingestLane n) Reg.ingCtrlUnknown := by
    rw [ingOrphan_eq]
    exact laneReg_ne _ (by decide) (by decide) (by decide)
  have hstate : (s.dev.count (Reg.ingOrphan n.val)).laneState (ingestLane n) = lsService := by
    refine (Dev.laneState_of_rd (Dev.rd_count_ne _ ?_)).trans hst
    rw [ingOrphan_eq]
    exact laneReg_ne _ (by decide) (by decide) (by decide)
  have hpop := Dev.popBlock_service_regsBut (d := s.dev.count (Reg.ingOrphan n.val)) hb (isIngest_ingestLane n) hstate hrest
  refine gives_live (exec_dataBlock ..) hs ?_
  rw [Dev.takeBlock_head _ hb (by simp [hgap, hctl]), Dev.dataBlock_orphan _ hu]
  refine ⟨?_, (Dev.popBlock_lane _ _).1, ((Dev.regsBut_refl _ s.dev).count List.mem_cons_self).trans (hpop.mono (by simp))⟩
  rw [hpop _ (by simpa using horphan), Dev.rd_count]

theorem dataBlock_burst_gives {u : Burst} (hst : s.dev.laneState (ingestLane n) = lsService) (hctl : b.ctl = false)
    (hu : (s.dev.lane (ingestLane n)).burst = some u) :
    Gives (.dataBlock n) s fun d =>
      (d.lane (ingestLane n)).burst = u.advance ∧ d.rd (Reg.ingOrphan n.val) = s.dev.rd (Reg.ingOrphan n.val) := by
  have horphan : Reg.ingOrphan n.val ≠ laneReg (ingestLane n) Reg.ingCtrlUnknown := by
    rw [ingOrphan_eq]
    exact laneReg_ne _ (by decide) (by decide) (by decide)
  obtain ⟨hlane, hframe⟩ := Dev.dataBlock_burst b.payload hu
  obtain ⟨hcount, hlstate⟩ := sampleCounters_ne n
  have hbuf : ((s.dev.dataBlock n b.payload).lane (ingestLane n)).buf = b :: rest := by rw [hlane]; exact hb
  have hstate := (Dev.laneState_of_rd (hframe _ hlstate)).trans hst
  have hpop := Dev.popBlock_service_regsBut hbuf (isIngest_ingestLane n) hstate hrest
  refine gives_live (exec_dataBlock ..) hs ?_
  rw [Dev.takeBlock_head _ hb (by simp [hgap, hctl]), Dev.popBlock_burst hbuf hrest, hlane, hpop _ (by simpa using horphan),
    hframe _ hcount]
  exact ⟨rfl, rfl⟩

theorem tagBlock_gives (hctl : b.ctl = true) (hty : blkType b.payload = 1) :
    Gives (.tagBlock n) s fun d =>
      (d.lane (ingestLane n)).burst = (if s.dev.laneState (ingestLane n) = lsService then
        some ⟨s.dev.tagTime b.payload, bitsOf b.payload.toNat 56 8 + 1, 0⟩ else none) ∧
      (d.lane (ingestLane n)).lastSeq = some (tagSeq b.payload) ∧ (d.lane (ingestLane n)).lastP = s.dev.tagTime b.payload ∧
      ∀ q, (s.dev.lane (ingestLane n)).lastSeq = some q →
        d.rd (Reg.ingBurstLost n.val) = satInc 32 (tagSeq b.payload - q - 1).toNat (s.dev.rd (Reg.ingBurstLost n.val)) := by
  have hlane := Dev.openBurst_lane s.dev n b.payload
  have hbuf : ((s.dev.openBurst n b.payload).lane (ingestLane n)).buf = b :: rest := by rw [hlane]; exact hb
  have hlost := (Dev.popBlock_regsBut (s.dev.openBurst n b.payload) (ingestLane n)).laneReg_rd
    [Reg.ingCtrlUnknown, Reg.ingOrphan, Reg.ingBurstBroken] (r := Reg.ingBurstLost) (by decide)
  obtain ⟨-, rest', u, hpop⟩ := Dev.popBlock_lane (s.dev.openBurst n b.payload) (ingestLane n)
  refine gives_live (exec_tagBlock ..) hs ?_
  rw [Dev.takeBlock_head _ hb (by simp [hgap, hctl, hty]), Dev.popBlock_burst hbuf hrest, hpop, hlane]
  refine ⟨rfl, rfl, rfl, fun q hq => ?_⟩
  rw [ingBurstLost_eq, hlost, ← ingBurstLost_eq]
  exact Dev.openBurst_burstLost b.payload hq

end

theorem linkBlockRx_gives {l : LaneId} {b : Blk} {rest : List Blk} (hb : (s.dev.lane l).buf = b :: rest) (hgap : b.gap = false)
    (hst : s.dev.laneState l = lsTrain ∨ s.dev.laneState l = lsService) (hctl : b.ctl = true) (hty : blkType b.payload = 2) :
    Gives (.linkBlockRx l) s fun d =>
      d.fld (laneReg l Reg.ingLfom) Fld.ingLfomPartnerEye = bitsOf b.payload.toNat 109 8 ∧
      d.fld (laneReg l Reg.ingLfom) Fld.ingLfomPartnerState = bitsOf b.payload.toNat 117 3 ∧
      d.fld (laneReg l Reg.ingLfom) Fld.ingLfomPartnerValid = 1 ∧
      s.dev.regsBut [laneReg l Reg.ingLfom, laneReg l Reg.ingCtrlUnknown, laneReg l Reg.ingOrphan, laneReg l Reg.ingBurstBroken] d := by
  obtain ⟨heye, hstate, hvalid, hframe⟩ := Dev.linkRx_spec b.payload hst
  have hpop := Dev.popBlock_regsBut (s.dev.linkRx l b.payload) l
  have hlfom := Dev.fld_of_rd (hpop.laneReg_rd [Reg.ingCtrlUnknown, Reg.ingOrphan, Reg.ingBurstBroken] (r := Reg.ingLfom) (by decide))
  refine gives_live (exec_linkBlockRx ..) hs ?_
  rw [Dev.takeBlock_head _ hb (by simp [hgap, hctl, hty]), hlfom, hlfom, hlfom]
  exact ⟨heye, hstate, hvalid, (hframe.mono (by simp)).trans (hpop.mono (by simp))⟩

end

/-- Settles O5: a data block outside a burst and inside one, a TAG block, and a LINK block. -/
theorem laneDeframer : Obligations.LaneDeframer :=
  ⟨fun _ _ _ _ hs hb hgap hrest => ⟨fun hst hctl hu => dataBlock_orphan_gives hs hb hgap hrest hst hctl hu,
      fun _ hst hctl hu => dataBlock_burst_gives hs hb hgap hrest hst hctl hu,
      fun _ hctl hty => tagBlock_gives hs hb hgap hrest hctl hty⟩,
    fun _ _ _ _ hs hb hgap hst hctl hty => linkBlockRx_gives hs hb hgap hst hctl hty⟩

end Sys2Proof.Machine
end

section
/-!
Blocks that a lane sends of itself: LINK blocks and fillers (R44, R52, R358).
-/

namespace Sys2Proof.Machine

open Sys2Proof

section
variable {d : Dev} {l : LaneId}

/-! A block on the line -/

/-- The bits on the line change nothing of a lane but its codeword. -/
theorem Dev.putLine_lane (d : Dev) (l : LaneId) (bs : List Bool) :
    ∃ w m, (d.putLine l bs).lane l = { d.lane l with txWord := w, txMark := m } := by
  unfold Dev.putLine
  dsimp only
  split
  · exact ⟨_, _, rfl⟩
  · generalize (if (d.lane l).txWord = [] then fecMarker (d.laneFec l) (d.lane l).txMark else []) = head
    split
    · exact ⟨_, _, Dev.setLane_lane ..⟩
    · exact ⟨_, _, Dev.setLane_lane ..⟩

/-- A control block sent is counted toward the runs of R44 and R52. -/
theorem Dev.putBlock_lane (d : Dev) (l : LaneId) (p : BitVec 128) :
    ∃ h t w m, (d.putBlock l true p).lane l = { d.lane l with
      txRun := if true && decide (blkType p = 0) then 0 else (d.lane l).txRun + 1
      sinceLink := if true && decide (blkType p = 2) then 0 else (d.lane l).sinceLink + 1
      txHist := h, txFree := t, txWord := w, txMark := m } := by
  obtain ⟨w, m, hlane⟩ := Dev.putLine_lane (d.setLane l _) l _
  exact ⟨_, _, w, m, hlane.trans (by rw [Dev.setLane_lane])⟩

theorem Dev.putBlock_runs (d : Dev) (l : LaneId) (p : BitVec 128) :
    ((d.putBlock l true p).lane l).txRun = (if blkType p = 0 then 0 else (d.lane l).txRun + 1) ∧
      ((d.putBlock l true p).lane l).sinceLink = (if blkType p = 2 then 0 else (d.lane l).sinceLink + 1) := by
  obtain ⟨h, t, w, m, hlane⟩ := Dev.putBlock_lane d l p
  simp [hlane]

theorem blkType_linkPayload (d : Dev) (l : LaneId) : blkType (d.linkPayload l) = 2 := blkType_ctl _ _ (by decide)

theorem blkType_filler : blkType (ctlPayload 0 0) = 0 := blkType_ctl _ _ (by decide)

theorem Dev.putLink_runs (d e : Dev) (l : LaneId) :
    ((d.putBlock l true (e.linkPayload l)).lane l).txRun = (d.lane l).txRun + 1 ∧
      ((d.putBlock l true (e.linkPayload l)).lane l).sinceLink = 0 := by
  obtain ⟨hrun, hsince⟩ := Dev.putBlock_runs d l (e.linkPayload l)
  rw [blkType_linkPayload] at hrun hsince
  exact ⟨hrun, hsince⟩

theorem Dev.putFiller_runs (d : Dev) (l : LaneId) :
    ((d.putFiller l).lane l).txRun = 0 ∧ ((d.putFiller l).lane l).sinceLink = (d.lane l).sinceLink + 1 := by
  obtain ⟨hrun, hsince⟩ := Dev.putBlock_runs d l (ctlPayload 0 0)
  rw [blkType_filler] at hrun hsince
  exact ⟨hrun, hsince⟩

/-- A block's two outputs. -/
theorem Dev.blockOut_append (d : Dev) (l : LaneId) (ctl : Bool) (p : BitVec 128) (os : List Output) :
    ∃ x y, d.blockOut l ctl p ++ os = x :: y :: os := ⟨_, _, rfl⟩

/-! LINK blocks and fillers -/

/-- A LINK block with a slot free goes out, behind a filler when 1,023 other blocks stand behind it. -/
theorem Dev.sendBlock_link (hon : (d.lane l).txOn = true) (hslot : (isIngest l || d.laneFree l) = true) :
    d.sendBlock l true (d.linkPayload l) =
      (if (d.lane l).txRun < 1023 then d else d.putFiller l).putBlock l true (d.linkPayload l) := by
  unfold Dev.sendBlock Dev.sendNow Dev.putPaced
  rw [if_pos hon, if_pos hslot, blkType_linkPayload]
  rfl

/-- A block without a slot waits its turn. -/
theorem Dev.sendBlock_waits (ctl : Bool) (p : BitVec 128) (hon : (d.lane l).txOn = true)
    (hslot : ¬ (isIngest l || d.laneFree l) = true) :
    d.sendBlock l ctl p = d.setLane l { d.lane l with txq := (d.lane l).txq ++ [(blkClass ctl p, ctl, p)] } := by
  unfold Dev.sendBlock
  rw [if_pos hon, if_neg hslot]

theorem Dev.sendFiller_waiting (h : (d.lane l).txq ≠ []) : d.sendFiller l = d := by
  unfold Dev.sendFiller
  exact if_neg (by simp [h])

theorem Dev.sendFiller_idle (hon : (d.lane l).txOn = true) (h : (d.lane l).txq = []) : d.sendFiller l = (d.linkDue l).putFiller l := by
  unfold Dev.sendFiller
  exact if_pos (by simp [hon, h])

/-- A LINK block that is due stands before the next block. -/
theorem Dev.linkDue_due (h : 65534 ≤ (d.lane l).sinceLink) (hrun : (d.lane l).txRun < 1023) :
    d.linkDue l = d.putBlock l true (d.linkPayload l) := by
  unfold Dev.linkDue Dev.putPaced
  rw [if_neg (Nat.not_lt.mpr h), if_pos hrun]

theorem Dev.linkDue_early (h : (d.lane l).sinceLink < 65534) : d.linkDue l = d := if_pos h

theorem Dev.sendBlock_regsBut (A : List Nat) (d : Dev) (l : LaneId) (ctl : Bool) (p : BitVec 128) :
    d.regsBut A (d.sendBlock l ctl p) :=
  Dev.regsBut_of_regs A (Dev.sendBlock_keeps (Part.same_keeps (d := d) .regs rfl) rfl)

theorem Dev.sendFiller_regsBut (A : List Nat) (d : Dev) (l : LaneId) : d.regsBut A (d.sendFiller l) :=
  Dev.regsBut_of_regs A (Dev.sendFiller_keeps (Part.same_keeps (d := d) .regs rfl) rfl)

end

/-- Settles O6: a LINK block that waits, alone and behind a filler, and a filler that does not go, alone and behind a LINK block. -/
theorem laneSends : Obligations.LaneSends := by
  intro s l hs hon link filler slot waits
  have hlink : ∀ {P : Dev → Prop}, P (s.dev.sendBlock l true link) → Gives (.linkBlockTx l) s P := fun h =>
    gives_live (exec_linkBlockTx ..) hs h
  have hfill : ∀ {P : Dev → Prop}, P (s.dev.sendFiller l) → Gives (.fillerInsert l) s P := fun h =>
    gives_live (exec_fillerInsert ..) hs h
  have hlinkRegs : s.dev.regsBut [] (s.dev.sendBlock l true link) := Dev.sendBlock_regsBut _ _ _ _ _
  have hfillRegs : s.dev.regsBut [] (s.dev.sendFiller l) := Dev.sendFiller_regsBut _ _ _
  refine ⟨fun hslot => hlink ?_, fun hw => hfill (Dev.sendFiller_waiting hw), fun hslot hrun => hlink ?_,
    fun hslot hrun => hlink ?_, fun hw hsince => hfill ?_, fun hw hsince hrun => hfill ?_⟩
  · rw [Dev.sendBlock_waits true link hon hslot] at hlinkRegs ⊢
    exact ⟨congrArg LaneRec.txq (Dev.setLane_lane ..), hlinkRegs,
      Dev.setLane_keeps ((keepsBut_keeps [.ing] s.dev).mono rfl) (keepsBut_refl _ _)⟩
  · rw [Dev.sendBlock_link hon hslot, if_pos hrun] at hlinkRegs ⊢
    exact ⟨Dev.putBlock_outbox .., blkType_linkPayload .., (Dev.putLink_runs ..).2, hlinkRegs⟩
  · rw [Dev.sendBlock_link hon hslot, if_neg (Nat.not_lt.mpr hrun)] at hlinkRegs ⊢
    obtain ⟨hrun', hsince'⟩ := Dev.putLink_runs (s.dev.putFiller l) s.dev l
    rw [(Dev.putFiller_runs s.dev l).1] at hrun'
    refine ⟨?_, hsince', hrun', hlinkRegs⟩
    rw [Dev.putBlock_outbox, show (s.dev.putFiller l).outbox = _ from Dev.putBlock_outbox ..]
    exact Dev.blockOut_append ..
  · rw [Dev.sendFiller_idle hon hw, Dev.linkDue_early hsince] at hfillRegs ⊢
    exact ⟨Dev.putBlock_outbox .., (Dev.putFiller_runs ..).1, hfillRegs⟩
  · rw [Dev.sendFiller_idle hon hw, Dev.linkDue_due hsince hrun] at hfillRegs ⊢
    obtain ⟨hrun', hsince'⟩ := Dev.putFiller_runs (s.dev.putBlock l true (s.dev.linkPayload l)) l
    rw [(Dev.putLink_runs s.dev s.dev l).2] at hsince'
    refine ⟨?_, hrun', hsince', hfillRegs⟩
    rw [show (Dev.putFiller _ l).outbox = _ from Dev.putBlock_outbox .., Dev.putBlock_outbox]
    exact Dev.blockOut_append ..

end Sys2Proof.Machine
end

section
/-!
Accepted live writes (R91, R114, R293, R334, R343): where each policy class takes its value, and the entry of the write.
-/

namespace Sys2Proof.Machine

open Sys2Proof

/-! From the command to the write in force and its entry -/

/-- The log's counters, which the entry of a live write may touch. -/
def entryRegs : List Nat := [Reg.logLost, Reg.logMirrorLost, Reg.logUnlogged, Reg.logRefusals]

/-- A command whose live write passes every check: the write in force, or on its way, and its entry. -/
theorem gives_accepted {i : Instr} {s : State} {o : Origin} {r : RegRow} {a v : Nat} {P : Dev → Prop}
    (hi : liveTarget i = some (o, a, v)) (hm : s.dev.meetsChecks r a v)
    (hf : s.dev.liveFault o r a (s.dev.inHand a) (s.dev.liveWord r a v) = none)
    (h : ∀ new, P ((s.dev.liveApply r a (s.dev.liveWord r a v)).liveEntry o a (s.dev.inHand a) new .ok)) : Gives i s P := by
  have hput := Dev.put_live (o := o) hm
  rw [hf] at hput
  obtain ⟨hreset, -, -, -, -, -, -, -, hal, -⟩ := hm
  refine gives_up (exec_live hi hal s) hreset ?_
  rw [hput]
  exact h _

/-- An accepted live write comes after arming. -/
theorem Dev.armed_of_accepted {d : Dev} {o : Origin} {r : RegRow} {a old new : Nat} (h : d.liveFault o r a old new = none) :
    d.scr.armed = true := by
  unfold Dev.liveFault at h
  split at h
  · cases h
  · next hs => exact Bool.eq_true_of_not_eq_false hs

section
variable {d e : Dev} {o : Origin} {a old new : Nat} {st : Status} {A : List Nat}

theorem Dev.liveEntry_rd_of_not_mem {b : Nat} (h : b ∉ entryRegs) : (d.liveEntry o a old new st).rd b = d.rd b := by
  obtain ⟨hlost, hmirror, hunlogged, hrefusals⟩ :
      b ≠ Reg.logLost ∧ b ≠ Reg.logMirrorLost ∧ b ≠ Reg.logUnlogged ∧ b ≠ Reg.logRefusals := by simpa [entryRegs] using h
  exact Dev.liveEntry_rd d o a old new st hlost hmirror hunlogged hrefusals

/-- The entry adds the log's counters to the registers that the write itself may touch. -/
theorem Dev.regsBut.liveEntry (h : d.regsBut A e) : d.regsBut (A ++ entryRegs) (e.liveEntry o a old new st) := fun _ hb =>
  have ⟨hA, hentry⟩ := not_or.mp (mt List.mem_append.mpr hb)
  (Dev.liveEntry_rd_of_not_mem hentry).trans (h _ hA)

/-- After a write that waits, the registers are those before it but for the log's counters. -/
theorem Dev.liveEntry_regsBut (h : e.regs = d.regs) : d.regsBut entryRegs (e.liveEntry o a old new st) := fun b hb =>
  (Dev.liveEntry_rd_of_not_mem hb).trans (Dev.rd_of_regs h b)

/-- The entry adds the registers and the log to the parts that the write itself may touch. -/
theorem Dev.keepsBut.liveEntry {ps : List Part} (h : d.keepsBut ps e) (hps : [Part.regs, .log].all (ps.contains ·) = true) :
    d.keepsBut ps (e.liveEntry o a old new st) :=
  Dev.liveEntry_keeps ((keepsBut_keeps ps d).mono hps) h

/-- The entry of an accepted write that left the log alone is the one entry logged. -/
theorem Dev.liveEntry_logs_once (h : e.log = d.log) (hopen : d.log.opened = true) :
    (e.liveEntry o a old new .ok).log.written = d.log.written + 1 := by
  rw [Dev.liveEntry_ok_written e o a old new (by rw [h, hopen]), h]

/-- A register written and the write's entry. -/
theorem Dev.wr_liveEntry_spec (d : Dev) {w : Nat} (ha : a ∉ entryRegs) :
    ((d.wr a w).liveEntry o a old new .ok).rd a = w % 2 ^ 32 ∧ d.regsBut (a :: entryRegs) ((d.wr a w).liveEntry o a old new .ok) ∧
      (d.log.opened = true → ((d.wr a w).liveEntry o a old new .ok).log.written = d.log.written + 1) ∧
      d.keepsBut [.regs, .log] ((d.wr a w).liveEntry o a old new .ok) :=
  ⟨(Dev.liveEntry_rd_of_not_mem ha).trans (Dev.rd_wr_same ..), (Dev.wr_frame d a w).1.liveEntry, Dev.liveEntry_logs_once rfl,
    Dev.keepsBut.liveEntry (Dev.wr_keeps ((keepsBut_keeps _ _).mono rfl) (keepsBut_refl _ _)) rfl⟩

end

/-! The write by its policy class -/

section
variable {d : Dev} {r : RegRow} {a w : Nat}

/-- Profiles and the menu: the write waits for its effect boundary (R91, R293). -/
theorem Dev.liveApply_boundary (h : r.cls = 1 ∨ r.cls = 2) : d.liveApply r a w = d.stage a w := by
  unfold Dev.liveApply
  rw [if_pos h]

/-- Time settings: the write waits in PAUSED (R343). -/
theorem Dev.liveApply_paused (h : r.cls = 128 ∨ r.cls = 512) (hp : d.timeState = tsPaused) :
    d.liveApply r a w = { d with tms := { d.tms with paused := (a, w) :: d.tms.paused } } := by
  rcases h with h | h <;> simp [Dev.liveApply, ofClass, h, hp]

/-- A time setting outside PAUSED. -/
theorem Dev.liveApply_time (h : r.cls = 128) (hp : d.timeState ≠ tsPaused) : d.liveApply r a w = d.tmsWrite a w := by
  simp [Dev.liveApply, ofClass, h, hp]

/-- A field of a capture ring (R114). -/
theorem Dev.liveApply_ring (h : r.cls = 4) (hr : ringField r = true) : d.liveApply r a w = d.ringFieldWritten a w := by
  simp [Dev.liveApply, ofClass, h, hr]

/-- A register without an action of its own takes its value at once; the numerics keep the word replaced for a step that closes in the
same cycle (R260). -/
theorem Dev.liveApply_plain (h : r.cls = 4 ∨ r.cls = 16 ∨ r.cls = 32 ∨ r.cls = 48) (hr : ringField r = false) (hpin : a ≠ Reg.pwrPin)
    (haux : r.base ≠ Reg.auxCtl 0) :
    d.liveApply r a w = if r.base = Reg.numRcLimits 0 0 ∨ a = Reg.numGcfg then (d.noteReplaced a).wr a w else d.wr a w := by
  unfold Dev.liveApply ofClass
  rcases h with h | h | h | h <;> simp [h, hr, hpin, haux]

/-! What is read of a write on its way -/

/-- The newest write that waits for an effect boundary is the one staged. -/
theorem Dev.staged_newest {p : PendWrite} {rest : List PendWrite} (h : d.prm.pend = p :: rest) : d.staged p.addr = p.value := by
  simp [Dev.staged, h]

/-- The newest write that waits in PAUSED is the one in hand. -/
theorem Dev.inHand_paused {p : Nat × Nat} {rest : List (Nat × Nat)} (h : d.tms.paused = p :: rest) : d.inHand p.1 = p.2 := by
  simp [Dev.inHand, h]

end

/-! Time settings that take effect (R334, R343) -/

/-- The registers that a refused jump may touch. -/
def jumpRegs : List Nat :=
  [Reg.tmsStat, Reg.tmsFreq, Reg.tmsJump, Reg.tmsJumpSeq, Reg.tmsJumpsRefused, Reg.logLost, Reg.logMirrorLost]

section
variable {d : Dev} {a v : Nat}

/-- A time setting that is no MK_CTL and confirms no jump takes its value. -/
theorem Dev.tmsWrite_plain (hmk : a < Reg.mkCtl 0 ∨ Reg.mkCtl 16 ≤ a) (harm : d.scr.armed = true)
    (h : a = Reg.tmsJumpMax → d.jumpPending = true ∨ (d.wr a v).jumpConfirmed d.source = false) : d.tmsWrite a v = d.wr a v := by
  unfold Dev.tmsWrite
  rw [if_neg (by omega)]
  split
  · next hmax =>
    have hsource : (d.wr a v).source = d.source := Dev.fld_of_rd (Dev.rd_wr_ne _ _ (by rw [hmax]; decide)) _
    have hpend : (d.wr a v).jumpPending = d.jumpPending :=
      congrArg (bitAt · 3) (Dev.rd_wr_ne d v (by rw [hmax]; decide))
    rw [hsource]
    unfold Dev.confirmJump
    rcases h hmax with h | h
    · simp [harm, hpend, h]
    · simp [h]
  · rfl

/-- A limit that confirms a jump in an armed device has the jump refused (R338). -/
theorem Dev.tmsWrite_confirms (harm : d.scr.armed = true) (hp : d.timeState ≠ tsPaused) (hpend : d.jumpPending = false)
    (h : (d.wr Reg.tmsJumpMax v).jumpConfirmed d.source = true) :
    ∃ theta, d.tmsWrite Reg.tmsJumpMax v = (d.wr Reg.tmsJumpMax v).refuseJump theta := by
  have hstat : (d.wr Reg.tmsJumpMax v).rd Reg.tmsStat = d.rd Reg.tmsStat := Dev.rd_wr_ne _ _ (by decide)
  have hsource : (d.wr Reg.tmsJumpMax v).source = d.source := Dev.fld_of_rd hstat _
  have hpend' : (d.wr Reg.tmsJumpMax v).jumpPending = false := (congrArg (bitAt · 3) hstat).trans hpend
  have hp' : (d.wr Reg.tmsJumpMax v).timeState ≠ tsPaused := fun he => hp ((congrArg (bitsOf · 0 3) hstat).symm.trans he)
  refine ⟨((d.wr Reg.tmsJumpMax v).src d.source).outliers.headD 0, ?_⟩
  unfold Dev.tmsWrite
  rw [if_neg (by decide), if_pos rfl, hsource]
  unfold Dev.confirmJump
  simp [h, harm, hpend', hp']

end

section
variable (d : Dev) (theta : Rat)

theorem Dev.setY_rd (y : Rat) {a : Nat} (h : a ≠ Reg.tmsFreq) : (d.setY y).rd a = d.rd a := by
  unfold Dev.setY
  exact (Dev.rd_wr_ne _ _ h).trans (Dev.rd_of_regs (Dev.roundOpen_regs d _) a)

theorem Dev.enterHoldover_rd {a : Nat} (hstat : a ≠ Reg.tmsStat) (hfreq : a ≠ Reg.tmsFreq) : d.enterHoldover.rd a = d.rd a := by
  unfold Dev.enterHoldover Dev.setTimeState
  exact (Dev.rd_setFld_ne _ _ _ hstat).trans (Dev.setY_rd d _ hfreq)

theorem Dev.enterHoldover_timeState : d.enterHoldover.timeState = tsHoldover :=
  Dev.fld_setFld_same _ Reg.tmsStat ⟨0, 3⟩ tsHoldover (by decide)

theorem Dev.setJumpPending_rd (b : Bool) {a : Nat} (h : a ≠ Reg.tmsStat) : (d.setJumpPending b).rd a = d.rd a :=
  Dev.rd_setFld_ne _ _ _ h

theorem Dev.setJumpPending_timeState (b : Bool) : (d.setJumpPending b).timeState = d.timeState :=
  Dev.fld_setFld_fld d Reg.tmsStat ⟨3, 1⟩ ⟨0, 3⟩ (bit01 b) (by decide) (by decide)

theorem Dev.setJumpPending_jumpPending : (d.setJumpPending true).jumpPending = true := by
  unfold Dev.jumpPending
  rw [bitAt_bitsOf]
  exact decide_eq_true (Dev.fld_setFld_same d Reg.tmsStat ⟨3, 1⟩ (bit01 true) (by decide))

/-- The registers of a refused jump past its state: the sequence number, the count, the offset and the entry. -/
theorem Dev.refuseJump_rd {a : Nat} (h : a ∉ [Reg.tmsJump, Reg.tmsJumpSeq, Reg.tmsJumpsRefused, Reg.logLost, Reg.logMirrorLost]) :
    (d.refuseJump theta).rd a = (d.enterHoldover.setJumpPending true).rd a := by
  simp only [List.mem_cons, List.not_mem_nil, or_false, not_or] at h
  obtain ⟨hjump, hseq, hrefused, hlost, hmirror⟩ := h
  unfold Dev.refuseJump
  rw [Dev.logInternal_rd _ _ _ _ _ hlost hmirror, Dev.rd_wr_ne _ _ hjump, Dev.rd_count_ne _ hrefused, Dev.rd_wr_ne _ _ hseq]

theorem Dev.refuseJump_regsBut : d.regsBut jumpRegs (d.refuseJump theta) := fun b hb => by
  simp only [jumpRegs, List.mem_cons, List.not_mem_nil, or_false, not_or] at hb
  obtain ⟨hstat, hfreq, hrest⟩ := hb
  rw [Dev.refuseJump_rd d theta (by simpa using hrest), Dev.setJumpPending_rd _ _ hstat, Dev.enterHoldover_rd _ hstat hfreq]

theorem Dev.refuseJump_stat : (d.refuseJump theta).rd Reg.tmsStat = (d.enterHoldover.setJumpPending true).rd Reg.tmsStat :=
  Dev.refuseJump_rd d theta (by decide)

theorem Dev.refuseJump_timeState : (d.refuseJump theta).timeState = tsHoldover := by
  have hstate := congrArg (bitsOf · 0 3) (Dev.refuseJump_stat d theta)
  exact hstate.trans ((Dev.setJumpPending_timeState _ _).trans (Dev.enterHoldover_timeState d))

theorem Dev.refuseJump_jumpPending : (d.refuseJump theta).jumpPending = true :=
  (congrArg (bitAt · 3) (Dev.refuseJump_stat d theta)).trans (Dev.setJumpPending_jumpPending _)

theorem Dev.refuseJump_seq : (d.refuseJump theta).rd Reg.tmsJumpSeq = (d.rd Reg.tmsJumpSeq + 1) % 65536 := by
  unfold Dev.refuseJump
  rw [Dev.logInternal_rd _ _ _ _ _ (by decide) (by decide), Dev.rd_wr_ne _ _ (by decide), Dev.rd_count_ne _ (by decide),
    Dev.rd_wr_same, Dev.setJumpPending_rd _ _ (by decide), Dev.enterHoldover_rd _ (by decide) (by decide)]
  omega

theorem Dev.refuseJump_refused : (d.refuseJump theta).rd Reg.tmsJumpsRefused = satInc 32 1 (d.rd Reg.tmsJumpsRefused) := by
  unfold Dev.refuseJump
  rw [Dev.logInternal_rd _ _ _ _ _ (by decide) (by decide), Dev.rd_wr_ne _ _ (by decide), Dev.rd_count, Dev.rd_wr_ne _ _ (by decide),
    Dev.setJumpPending_rd _ _ (by decide), Dev.enterHoldover_rd _ (by decide) (by decide)]

end

/-- TMS_JUMP_MAX written so that it has a jump refused, and the entry of the write. -/
theorem Dev.refusedJump_liveEntry_spec (d : Dev) (w : Nat) (theta : Rat) {o : Origin} {old new : Nat} {e : Dev}
    (he : e = ((d.wr Reg.tmsJumpMax w).refuseJump theta).liveEntry o Reg.tmsJumpMax old new .ok) :
    e.rd Reg.tmsJumpMax = w % 2 ^ 32 ∧ e.timeState = tsHoldover ∧ e.jumpPending = true ∧
      e.rd Reg.tmsJumpSeq = (d.rd Reg.tmsJumpSeq + 1) % 65536 ∧
      e.rd Reg.tmsJumpsRefused = satInc 32 1 (d.rd Reg.tmsJumpsRefused) ∧
      d.regsBut (Reg.tmsJumpMax :: Reg.tmsStat :: Reg.tmsFreq :: Reg.tmsJump :: Reg.tmsJumpSeq :: Reg.tmsJumpsRefused :: entryRegs) e ∧
      d.keepsBut [.regs, .log, .freeCtr, .tms] e := by
  have hrefused := Dev.refuseJump_regsBut (d.wr Reg.tmsJumpMax w) theta
  have hentry : ((d.wr Reg.tmsJumpMax w).refuseJump theta).regsBut entryRegs e := he ▸ Dev.liveEntry_regsBut rfl
  refine ⟨?_, ?_, ?_, ?_, ?_, fun b hb => ?_, ?_⟩
  · exact (hentry _ (by decide)).trans ((hrefused _ (by decide)).trans (Dev.rd_wr_same ..))
  · exact (congrArg (bitsOf · 0 3) (hentry _ (by decide))).trans (Dev.refuseJump_timeState _ _)
  · exact (congrArg (bitAt · 3) (hentry _ (by decide))).trans (Dev.refuseJump_jumpPending _ _)
  · rw [hentry _ (by decide), Dev.refuseJump_seq, Dev.rd_wr_ne _ _ (by decide)]
  · rw [hentry _ (by decide), Dev.refuseJump_refused, Dev.rd_wr_ne _ _ (by decide)]
  · simp only [entryRegs, List.mem_cons, List.not_mem_nil, or_false, not_or] at hb
    obtain ⟨hmax, hstat, hfreq, hjump, hseq, hcount, hlost, hmirror, hunlogged, hrefusals⟩ := hb
    rw [hentry _ (by simp [entryRegs, hlost, hmirror, hunlogged, hrefusals]),
      hrefused b (by simp [jumpRegs, hstat, hfreq, hjump, hseq, hcount, hlost, hmirror]), Dev.rd_wr_ne _ _ hmax]
  · rw [he]
    exact Dev.keepsBut.liveEntry (Dev.refuseJump_keeps (keepsBut_keeps _ _)
      (Dev.wr_keeps ((keepsBut_keeps _ _).mono rfl) (keepsBut_refl _ _))) rfl

/-! Fields of a capture ring (R114) -/

/-- A register lies at its row's base or above. -/
theorem regRow_base_le {a : Nat} {r : RegRow} (h : regRow a = some r) : r.base ≤ a := by
  unfold regRow at h
  have hhit : r.hit a = true := List.find?_some (p := (RegRow.hit · a)) h
  simp only [RegRow.hit, Bool.and_eq_true, decide_eq_true_eq] at hhit
  exact hhit.1

section
variable {d : Dev} {r : RegRow} {a v : Nat}

/-- A live field of a ring below STP is its HWK_FREE. -/
theorem base_of_ringField_hawk (hrow : regRow a = some r) (hr : ringField r = true) (ha : a < Reg.stpRkeep 0) :
    r.base = Reg.hwkFree 0 := by
  have hle := regRow_base_le hrow
  simp only [ringField, Bool.or_eq_true, decide_eq_true_eq] at hr
  simp only [Reg.stpRkeep, Reg.stpRmode, Reg.stpDband] at ha hr
  omega

/-- HWK_FREE has nothing to do with a ring all of whose records are complete. -/
theorem Dev.freeInForce_complete {q : Nat} (h : ∀ x ∈ d.store.recs, x.ring = q → x.doneAt.isSome = true) : d.freeInForce q = d := by
  have hnone : (d.store.recs.filterMap fun x => if x.ring = q ∧ x.doneAt.isNone then some x.seq else none) = [] := by
    refine List.filterMap_eq_nil_iff.mpr fun x hx => if_neg ?_
    rintro ⟨hq, hn⟩
    have hdone := h x hx hq
    rw [Option.isSome_iff_ne_none] at hdone
    exact hdone (Option.isNone_iff_eq_none.mp hn)
  unfold Dev.freeInForce
  rw [hnone]
  rfl

/-- A field of a ring that does not write takes its value (log entry 40). -/
theorem Dev.ringFieldSet_eq_wr (hrow : regRow a = some r) (hr : ringField r = true)
    (h : r.base = Reg.hwkFree 0 → ∀ x ∈ d.store.recs, x.ring = d.liveRing a → x.doneAt.isSome = true) :
    d.ringFieldSet a v = d.wr a v := by
  unfold Dev.ringFieldSet
  dsimp only
  split
  · next hlow =>
    have hring : (d.wr a v).liveRing a = d.liveRing a := by
      have hdband : ¬ (Reg.stpDband 0 ≤ a ∧ a < Reg.stpDband 8192) := fun h => Nat.not_lt.mpr h.1 hlow.2
      simp only [Dev.liveRing, if_neg hdband]
    rw [hring]
    exact Dev.freeInForce_complete (h (base_of_ringField_hawk hrow hr hlow.1))
  · rfl

theorem Dev.ringFieldWritten_waits (h : (d.ring (d.liveRing a)).began = true) :
    d.ringFieldWritten a v = { d with acq := { d.acq with pend := (a, v) :: d.acq.pend } } := by
  unfold Dev.ringFieldWritten
  rw [if_pos h]

theorem Dev.ringFieldWritten_atOnce (h : (d.ring (d.liveRing a)).began = false) : d.ringFieldWritten a v = d.ringFieldSet a v := by
  unfold Dev.ringFieldWritten
  rw [if_neg (by simp [h])]

end

/-- A register without an action of its own reads the word, and the others read as before. -/
theorem Dev.plainLive_spec (d : Dev) (r : RegRow) (a w : Nat) {e : Dev}
    (he : e = if r.base = Reg.numRcLimits 0 0 ∨ a = Reg.numGcfg then (d.noteReplaced a).wr a w else d.wr a w) :
    e.rd a = w % 2 ^ 32 ∧ d.regsBut [a] e ∧ e.log = d.log ∧ d.keepsBut [.regs, .log, .num] e ∧
      (r.base ≠ Reg.numRcLimits 0 0 → a ≠ Reg.numGcfg → e.num = d.num) := by
  subst he
  split
  · next hnum =>
    exact ⟨Dev.rd_wr_same .., (Dev.wr_frame (d.noteReplaced a) a w).1, rfl,
      Dev.wr_keeps ((keepsBut_keeps _ d).mono rfl) (Dev.noteReplaced_keeps ((keepsBut_keeps _ d).mono rfl) (keepsBut_refl _ d)),
      fun hbase ha => absurd hnum (not_or.mpr ⟨hbase, ha⟩)⟩
  · exact ⟨Dev.rd_wr_same .., (Dev.wr_frame d a w).1, rfl, Dev.wr_keeps ((keepsBut_keeps _ d).mono rfl) (keepsBut_refl _ d),
      fun _ _ => rfl⟩

/-- Settles O13, policy class by policy class: what waits for the effect boundary, what waits in PAUSED, a time setting without and with a
jump that it confirms, a register written at once, and a field of a ring that writes and of one that does not. -/
theorem liveWriteAccepted : Obligations.LiveWriteAccepted := by
  intro i s o r a v hi hm hf hlost hmirror hunlogged hrefusals logged logs
  have accepted := fun {P : Dev → Prop} => gives_accepted (P := P) hi hm hf
  have harm : s.dev.scr.armed = true := Dev.armed_of_accepted hf
  have hrow : regRow a = some r := hm.2.2.1
  have ha : a ∉ entryRegs := by simp [entryRegs, hlost, hmirror, hunlogged, hrefusals]
  clear hi hm hf hlost hmirror hunlogged hrefusals
  generalize s.dev.liveWord r a v = w at accepted ⊢
  generalize s.dev.inHand a = old at accepted
  refine ⟨fun hc => accepted fun new => ?_, fun hc hp => accepted fun new => ?_, fun hc hp hmk hmax => accepted fun new => ?_,
    fun hc hp hmax hpend hconf => accepted fun new => ?_, fun hc hr hpin haux => accepted fun new => ?_,
    fun hc hr hbegan => accepted fun new => ?_, fun hc hr hbegan hdone => accepted fun new => ?_⟩
  · rw [Dev.liveApply_boundary hc]
    refine ⟨?_, Dev.liveEntry_regsBut rfl, Dev.liveEntry_logs_once rfl,
      Dev.keepsBut.liveEntry (upd_prm ((keepsBut_keeps _ _).mono rfl) (keepsBut_refl _ _)) rfl⟩
    exact Dev.staged_newest (p := ⟨a, w, s.dev.net16⟩)
      (congrArg PrmSt.pend (Dev.liveEntry_parts (s.dev.stage a w) o a old new .ok .prm rfl))
  · rw [Dev.liveApply_paused hc hp]
    refine ⟨?_, Dev.liveEntry_regsBut rfl, Dev.liveEntry_logs_once rfl,
      Dev.keepsBut.liveEntry (upd_tms ((keepsBut_keeps _ _).mono rfl) (keepsBut_refl _ _)) rfl⟩
    exact Dev.inHand_paused (p := (a, w)) (congrArg TmsSt.paused (Dev.liveEntry_parts _ o a old new .ok .tms rfl))
  · rw [Dev.liveApply_time hc hp, Dev.tmsWrite_plain hmk harm hmax]
    exact s.dev.wr_liveEntry_spec ha
  · subst hmax
    obtain ⟨theta, hwrite⟩ := Dev.tmsWrite_confirms harm hp hpend hconf
    rw [Dev.liveApply_time hc hp, hwrite]
    exact s.dev.refusedJump_liveEntry_spec w theta rfl
  · obtain ⟨hrd, hregs, hlog, hparts, hnum⟩ := Dev.plainLive_spec s.dev r a w (Dev.liveApply_plain hc hr hpin haux)
    exact ⟨(Dev.liveEntry_rd_of_not_mem ha).trans hrd, hregs.liveEntry, Dev.liveEntry_logs_once hlog, hparts.liveEntry rfl,
      fun hbase hgcfg => (Dev.liveEntry_parts _ o a old new .ok .num rfl).trans (hnum hbase hgcfg)⟩
  · rw [Dev.liveApply_ring hc hr, Dev.ringFieldWritten_waits hbegan]
    exact ⟨Dev.liveEntry_parts _ o a old new .ok .acq rfl, Dev.liveEntry_regsBut rfl,
      Dev.liveEntry_logs_once rfl, Dev.keepsBut.liveEntry (upd_acq ((keepsBut_keeps _ _).mono rfl) (keepsBut_refl _ _)) rfl⟩
  · rw [Dev.liveApply_ring hc hr, Dev.ringFieldWritten_atOnce hbegan, Dev.ringFieldSet_eq_wr hrow hr hdone]
    exact s.dev.wr_liveEntry_spec ha

end Sys2Proof.Machine
end

section
/-!
Delivered samples: the one clause of the statement that an unsound register window breaks.
-/

namespace Sys2Proof.Machine

open Sys2Proof

theorem exec_sampleDelivered (s : State) : exec .sampleDelivered s = s.live fun d => d.takeSample := rfl

/-- A device whose register window is out of order: ING_LCFG of lane 0, which is in use, stands behind PRM_RESTARTS, and PRM_RESTARTS is
listed although it holds its reset word. Unit 0 meets an effect boundary at the sample that waits, with no started condition to count.
The sample lies in the position of ring 0 that the ring has seen last, and a live write waits for the next one. -/
def disordered : Dev :=
  { Dev.init with
    inReset := false
    regs := [(Reg.glbFittedLo, 2 ^ 24), (Reg.ingLperiod 0, 1000 * 65536), (Reg.prmRestarts, 0), (Reg.ingLcfg 0, 2 ^ 4),
      (Reg.prmPcfg 1, 1), (Reg.prmUsel 0, 1), (Reg.scrTev, 1000), (Reg.hwkRcfg 0, 1), (Reg.hwkChring 0, 2 ^ 6)]
    ing := { Dev.init.ing with queue := [⟨0, 1000 * 65536, 0, 0⟩] }
    prm := { Dev.init.prm with hist := [⟨1, Reg.prmUofs 0, 0⟩] }
    scr := { Dev.init.scr with armed := true }
    acq := { Dev.init.acq with
      rings := [(0, { RingRec.init with began := true, seen := some (1000 * 65536 - 1) })], pend := [(Reg.stpDband 0, 5)] } }

theorem disordered_onRing : disordered.onRing 0 0 := by
  unfold Dev.onRing
  decide

/-- The sample begins no new position: it comes less than half of T_s after the latest one. -/
theorem disordered_newPosition : disordered.newPosition 0 (1000 * 65536) = false := by decide

/-- Counting the restarts removes PRM_RESTARTS and the lane's register behind it, so the ring has no T_s any more, the sample begins a new
position, and the waiting write takes effect. -/
theorem disordered_takeSample_pend : disordered.takeSample.acq.pend = [] := by decide

/-- Refutes O33: the clause that a sample inside a position puts no waiting write in force does not ask for a sound state, and in a register
window out of order the primitive unit's count takes the lane out of use, and with it T_s of the ring. -/
theorem not_samplesTaken : ¬ Obligations.SamplesTaken := by
  rintro ⟨hsample, -, -⟩
  obtain ⟨d, hd, -, -, -, -, -, -, hsame, -⟩ := hsample ⟨disordered, []⟩ ⟨0, 1000 * 65536, 0, 0⟩ [] (by decide) rfl
  rw [exec_sampleDelivered, State.live_of _ _ (by decide)] at hd
  injection hd with hd
  injection hd with hd
  have hpend : d.acq.pend = disordered.acq.pend := hsame disordered_onRing disordered_newPosition
  rw [← hd, disordered_takeSample_pend] at hpend
  exact absurd hpend (by decide)

end Sys2Proof.Machine
end

section
/-!
Records under assembly: completion, captures that end and are copied out, and free-class results (R100, R106, R113, R387).
-/

namespace Sys2Proof.Machine

open Sys2Proof

/-! The commands of this part, each the operation it runs on a live device. -/

theorem exec_stippleCaptureEnd (s : State) (r : Fin 64) : exec (.stippleCaptureEnd r) s = s.live fun d => d.stippleEnd r.val := rfl

theorem exec_captureCopyOut (s : State) (r : Fin 64) (n corrected : Nat) (bad : List Nat) :
    exec (.captureCopyOut r n corrected bad) s = s.live fun d =>
      if d.served (d.ringStack r.val) 2 && decide (d.copyWaits (d.ringStack r.val) = some r.val) then
        (d.copyOut r.val n corrected bad).useGrant (d.ringStack r.val) else d := rfl

theorem exec_freeAppendixBlock (s : State) (q : Nat) (p : BitVec 16) (b : List Byte) (last : Bool) :
    exec (.freeAppendixBlock q p b last) s = s.live fun d => d.appendBlock q p b last := rfl

theorem exec_freeWaitExpiry (s : State) (q : Nat) (tie : Bool) : exec (.freeWaitExpiry q tie) s = s.live fun d => d.freeExpire q tie := rfl

/-! Completion of a record (R113) -/

section
variable {d : Dev} {q : Nat} {x : RecordRec}

theorem Dev.tryComplete_not_ready (hx : d.record q = some x) (h : x.ready = false) : d.tryComplete q = d := by
  unfold Dev.tryComplete
  rw [hx]
  exact if_neg fun hready => Bool.false_ne_true (h.symm.trans hready)

/-- The record that completes. -/
theorem Dev.tryComplete_ready (hx : d.record q = some x) (h : x.ready = true) :
    ∃ bs, (d.tryComplete q).record q = some { x with bytes := bs, doneAt := some d.devNs, items := [] } := by
  obtain ⟨bs, hrec⟩ := Dev.tryComplete_record d q
  exact ⟨bs, by rw [hrec q, hx, Option.map_some, if_pos ⟨rfl, h⟩]⟩

/-- A record that completes counts as stored. -/
theorem Dev.tryComplete_recRecords (hx : d.record q = some x) (h : x.ready = true) :
    (d.tryComplete q).rd Reg.recRecords = satInc 32 1 (d.rd Reg.recRecords) := by
  have himage : (d.recordImage x).2.rd Reg.recRecords = d.rd Reg.recRecords :=
    Dev.rd_of_regs (Dev.recordImage_keeps (d := d) (x := x) (Part.same_keeps (d := d) .regs rfl) rfl) _
  have hshow : ∀ e : Dev, e.showStore.rd Reg.recRecords = e.rd Reg.recRecords := fun e =>
    (Dev.rd_wr_ne _ _ (by decide)).trans (Dev.rd_wr_ne _ _ (by decide))
  unfold Dev.tryComplete
  rw [hx]
  dsimp only
  rw [if_pos (show (x.doneAt.isNone && x.endedAt.isSome && x.copied && (x.freeWait.isNone || x.freeDone)) = true from h)]
  split
  · next hring =>
    rw [Dev.rd_countIf_ne _ _ (by simp only [Reg.recRecords, Reg.hwkShortPre]; omega),
      Dev.rd_countIf_ne _ _ (by simp only [Reg.recRecords, Reg.hwkTrunc]; omega), hshow, Dev.rd_count]
    exact congrArg _ himage
  · rw [hshow, Dev.rd_count]
    exact congrArg _ himage

end

/-! A STIPPLE capture that ends (R106) -/

/-- What each step of a fold keeps, and one step of it makes true for good, holds after the fold. -/
theorem foldl_reaches {α : Type} {P Q : Dev → Prop} {f : Dev → α → Dev} {l : List α} {x : α} {d : Dev} (hP : ∀ e a, P e → P (f e a))
    (hQ : ∀ e a, Q e → Q (f e a)) (hx : ∀ e, P e → Q (f e x)) (hmem : x ∈ l) (h : P d) : Q (l.foldl f d) := by
  induction l generalizing d with
  | nil => exact absurd hmem List.not_mem_nil
  | cons y l ih =>
    rcases List.mem_cons.mp hmem with rfl | hmem
    · exact foldl_keeps (P := Q) (l := l) hQ (hx d h)
    · exact ih hmem (hP d y h)

/-- The record of a sequence number stands in the store, and its capture has ended. -/
def Dev.recordEnded (d : Dev) (q : Nat) : Prop := ∃ y, d.record q = some y ∧ y.endedAt.isSome = true

section
variable {d : Dev} {q : Nat}

/-- A record changed, under its number. -/
theorem Dev.modRecord_record_same {f : RecordRec → RecordRec} {x : RecordRec} (hf : ∀ y, (f y).seq = y.seq) (h : d.record q = some x) :
    (d.modRecord q f).record q = some (f x) := by
  rw [Dev.modRecord_record d q q f hf, if_pos rfl, h, Option.map_some]

theorem Dev.modRecord_recorded (p : Nat) {f : RecordRec → RecordRec} (hf : ∀ y, (f y).seq = y.seq) (h : (d.record q).isSome = true) :
    ((d.modRecord p f).record q).isSome = true := by
  rw [Dev.modRecord_record d p q f hf]
  split
  · rw [Option.isSome_map, h]
  · exact h

theorem Dev.recordEnded.modRecord (p : Nat) {f : RecordRec → RecordRec} (hf : ∀ y, (f y).seq = y.seq)
    (hend : ∀ y, y.endedAt.isSome = true → (f y).endedAt.isSome = true) (h : d.recordEnded q) : (d.modRecord p f).recordEnded q := by
  obtain ⟨y, hy, hyend⟩ := h
  by_cases hq : q = p
  · subst hq
    exact ⟨f y, Dev.modRecord_record_same hf hy, hend y hyend⟩
  · exact ⟨y, by rw [Dev.modRecord_record d p q f hf, if_neg hq, hy], hyend⟩

theorem Dev.recordEnded.captureEnded (p : Nat) (h : d.recordEnded q) : (d.captureEnded p).recordEnded q :=
  h.modRecord p (fun _ => rfl) fun y _ => by cases y.endedAt <;> simp

theorem Dev.captureEnded_ends (h : (d.record q).isSome = true) : (d.captureEnded q).recordEnded q := by
  obtain ⟨y, hy⟩ := Option.isSome_iff_exists.mp h
  exact ⟨_, Dev.modRecord_record_same (fun _ => rfl) hy, by cases y.endedAt <;> simp⟩

theorem Dev.recordEnded.tryComplete (p : Nat) (h : d.recordEnded q) : (d.tryComplete p).recordEnded q := by
  obtain ⟨y, hy, hend⟩ := h
  obtain ⟨bs, hrec⟩ := Dev.tryComplete_record d p
  rw [Dev.recordEnded, hrec q, hy, Option.map_some]
  split
  · exact ⟨_, rfl, hend⟩
  · exact ⟨y, rfl, hend⟩

/-- Settling a ring ends the records of its captures that have ended. -/
theorem Dev.settleRing_ends {r : Nat} {c : Capture} (hc : c ∈ (d.ring r).caps) (hend : c.ended = true)
    (hrec : (d.record c.seq).isSome = true) : (d.settleRing r).recordEnded c.seq := by
  unfold Dev.settleRing
  extract_lets stip rr waiting isEnded d1 caps isCopied fin d2 d3
  have hd1 : d1.recordEnded c.seq := by
    refine foldl_reaches (P := fun e => (e.record c.seq).isSome = true) (Q := fun e => e.recordEnded c.seq) (x := c) (fun e k h => ?_)
      (fun e k h => ?_) (fun e h => ?_) hc hrec
    · split
      · exact Dev.modRecord_recorded _ (fun _ => rfl) h
      · exact h
    · split
      · exact h.captureEnded _
      · exact h
    · rw [if_pos (show (c.ended || _) = true by rw [hend, Bool.true_or])]
      exact Dev.captureEnded_ends h
  have hd3 : d3.recordEnded c.seq := hd1
  exact foldl_keeps (P := fun e => e.recordEnded c.seq) (fun e k h => (h.modRecord k.seq (f := fun y => { y with copied := true }) (fun _ => rfl) fun _ hend => hend).tryComplete k.seq) hd3

end

/-- The end of STIPPLE captures, A ns after their windows. -/
theorem Dev.stippleEnd_ends {d : Dev} {r : Nat} {c : Capture} (hstip : d.stippled r = true) (hc : c ∈ (d.ring r).caps)
    (hdue : c.tHi + Int.ofNat (d.aNs * 65536) ≤ Int.ofNat d.net16) (hrec : (d.record c.seq).isSome = true) :
    (d.stippleEnd r).recordEnded c.seq := by
  unfold Dev.stippleEnd
  rw [if_pos hstip]
  refine Dev.settleRing_ends (c := { c with ended := true }) ?_ rfl hrec
  rw [Dev.setRing_ring]
  exact List.mem_map.mpr ⟨c, hc, if_neg (Int.not_lt.mpr hdue)⟩

/-! Uncorrectable bursts (R228, R230) -/

section
variable {d : Dev} {s a : Nat}

/-- Of the registers from the unit blocks up, a stack that goes out changes its state and its die's. -/
theorem Dev.stackOut_rd_of_ne {st : Nat} (hs : s < 16) (h : 0x40000 ≤ a) (hscfg : a ≠ Reg.stkScfg s) (hdie : a ≠ Reg.dieStat (s / 3)) :
    (d.stackOut s st).rd a = d.rd a := by
  have hmap : (d.stackMap s st).rd a = (d.setStackState s st).rd a := by
    unfold Dev.stackMap
    dsimp only
    split
    · rw [Dev.hmapChange_rd _ _ _ _ _ (by simp only [hmDie]; omega) (by omega),
        Dev.hmapChange_rd _ _ _ _ _ (by simp only [hmStack]; omega) (by omega)]
      rfl
    · rw [Dev.hmapChange_rd _ _ _ _ _ (by simp only [hmStack]; omega) (by omega)]
      rfl
  rw [Dev.stackOut_eq, Dev.rd_of_regs (Dev.hpcGate_regs _ _),
    Dev.logInternal_rd _ _ _ _ _ (by simp only [Reg.logLost]; omega) (by simp only [Reg.logMirrorLost]; omega), hmap,
    Dev.setStackState_rd _ hscfg hdie]

/-- An uncorrectable burst leaves the registers of the unit blocks but the stack's count and, where it fails, its state and its die's. -/
theorem Dev.stackUe_rd (hs : s < 16) (h : 0x40000 ≤ a) (hscfg : a ≠ Reg.stkScfg s) (hdie : a ≠ Reg.dieStat (s / 3)) :
    (d.stackUe s).rd a = (d.count (Reg.stkUe s)).rd a := by
  have hfail : ∀ e : Dev, (e.stackFail s).rd a = e.rd a := fun e => by
    unfold Dev.stackFail
    split
    · exact Dev.stackOut_rd_of_ne hs h hscfg hdie
    · rfl
  have hlog : ∀ before after, ((d.count (Reg.stkUe s)).logInternal (Reg.stkUe s) before after .degraded).rd a =
      (d.count (Reg.stkUe s)).rd a := fun before after =>
    Dev.logInternal_rd _ _ _ _ _ (by simp only [Reg.logLost]; omega) (by simp only [Reg.logMirrorLost]; omega)
  unfold Dev.stackUe
  dsimp only
  split
  · exact (hfail _).trans (hlog _ _)
  · exact hlog _ _

theorem Dev.stackUe_count (hs : s < 16) : (d.stackUe s).rd (Reg.stkUe s) = satInc 32 1 (d.rd (Reg.stkUe s)) := by
  rw [Dev.stackUe_rd hs (by simp only [Reg.stkUe]; omega) (by simp only [Reg.stkUe, Reg.stkScfg]; omega)
    (by simp only [Reg.stkUe, Reg.dieStat]; omega), Dev.rd_count]

theorem Dev.stackUes_rd (hs : s < 16) (h : 0x40000 ≤ a) (hscfg : a ≠ Reg.stkScfg s) (hdie : a ≠ Reg.dieStat (s / 3))
    (hue : a ≠ Reg.stkUe s) (n : Nat) : (d.stackUes s n).rd a = d.rd a := by
  induction n generalizing d with
  | zero => rfl
  | succ n ih => rw [Dev.stackUes, ih, Dev.stackUe_rd hs h hscfg hdie, Dev.rd_count_ne _ hue]

end

/-! Rows copied out (R100) -/

/-- Reading a list index by index reads the list. -/
theorem filterMap_range_getElem? {α β : Type} (l : List α) (g : α → β) :
    ((List.range l.length).filterMap fun i => l[i]?.map g) = l.map g := by
  induction l with
  | nil => rfl
  | cons x l ih =>
    rw [List.length_cons, List.range_succ_eq_map, List.filterMap_cons]
    simpa [List.filterMap_map, Function.comp_def] using ih

/-- The rows of a capture that are still to be copied out, oldest first: up to n of them. -/
def Dev.copyRows (d : Dev) (r : Nat) (c : Capture) (n : Nat) : List RingItem :=
  ((d.ring r).items.reverse.filter fun z => c.protects false z).take n

/-- A row as it is copied out: with every member missing where an uncorrectable burst hits it (Table 6.8). -/
def Dev.copiedRow (d : Dev) (r : Nat) (bad : List Nat) (z : RingItem) : RingItem :=
  if bad.any (d.burstHits r z) then { z with vals := z.vals.map fun _ => none } else z

/-- The uncorrectable bursts among those of the rows copied out. -/
def Dev.rowUes (d : Dev) (r : Nat) (bad : List Nat) (rows : List RingItem) : List Nat :=
  bad.filter fun b => rows.any fun z => d.burstHits r z b

/-- A record with rows copied out of a capture. -/
def RecordRec.withRows (x : RecordRec) (d : Dev) (r : Nat) (c : Capture) (bad : List Nat) (rows : List RingItem) : RecordRec :=
  { x with
    items := x.items ++ rows.map (d.copiedRow r bad)
    captured := x.captured + rows.length
    preCaptured := x.preCaptured + (rows.filter fun y => decide (y.k < c.kb)).length }

/-- The device once rows of a capture stand in its record and the bursts of the read are counted. -/
def Dev.rowsCopied (d : Dev) (r corrected : Nat) (bad : List Nat) (c : Capture) (rest : List Capture) (next : Nat) (rows : List RingItem) : Dev :=
  ((((d.modRecord c.seq fun x => x.withRows d r c bad rows).setRing r { d.ring r with caps := { c with next := next } :: rest }).countN
    (Reg.stkCe (d.ringStack r)) corrected).stackUes (d.ringStack r) (d.rowUes r bad rows).length)

section
variable {d : Dev} {r n corrected next : Nat} {bad : List Nat} {c : Capture} {rest : List Capture} {x : RecordRec} {rows : List RingItem}

/-- Rows copied out of a HAWK ring by a stack that is UP. -/
theorem Dev.copyOut_hawk (hstip : d.stippled r = false) (hup : d.stackState (d.ringStack r) = skUp) (hcaps : (d.ring r).caps = c :: rest) :
    ∃ next, d.copyOut r n corrected bad =
      ((d.rowsCopied r corrected bad c rest next (d.copyRows r c n)).settleRing r).resumeRing r := by
  unfold Dev.copyOut
  extract_lets rr stip down ready isBad got nbad
  have hrr : rr.caps = c :: rest := hcaps
  have hstip' : stip = false := hstip
  split
  · next h => rw [hrr] at h; cases h
  next h =>
    rw [hrr] at h
    cases h
    extract_lets next d1 d2 d3 ues d4
    have hdown : down = false := decide_eq_false fun hne => hne hup
    have hready : ready = d.copyRows r c n := by
      show (d.toCopy r).take n = _
      unfold Dev.toCopy
      rw [hcaps, hstip]
      rfl
    have hgot : got = ready.map (d.copiedRow r bad) := by
      rw [← filterMap_range_getElem?]
      refine List.filterMap_congr fun i _ => ?_
      cases hi : ready[i]? with
      | none => rfl
      | some z =>
        have hbad : isBad i = bad.any (d.burstHits r z) := by simp only [isBad, hdown, hi]; rfl
        dsimp only [Option.map_some]
        unfold Dev.copiedRow
        rw [hbad, hstip', if_neg Bool.false_ne_true]
        split <;> rfl
    refine ⟨next, ?_⟩
    have hd1 : d1 = d.modRecord c.seq fun x => x.withRows d r c bad ready := by
      simp only [d1, hgot, hstip']
      rfl
    have hd3 : d3 = d2 := if_neg (by rw [hstip']; exact Bool.false_ne_true)
    have hd4 : d4 = d.rowsCopied r corrected bad c rest next ready := by
      have hup' : d4 = (d3.countN (Reg.stkCe (d3.ringStack r)) corrected).stackUes (d3.ringStack r) ues.length :=
        if_neg (by rw [hdown]; exact Bool.false_ne_true)
      have hues : ues = bad.filter fun b => ready.any fun x => d3.burstHits r x b := rfl
      rw [hup', hues, hd3]
      unfold Dev.rowsCopied
      rw [← hd1]
      rfl
    rw [hd4, hready]

theorem Dev.rowsCopied_store : (d.rowsCopied r corrected bad c rest next rows).store =
    (d.modRecord c.seq fun x => x.withRows d r c bad rows).store :=
  Dev.stackUes_keeps (P := fun e => e.store = (d.modRecord c.seq fun x => x.withRows d r c bad rows).store)
    (Part.same_keeps .store rfl) rfl

theorem Dev.rowsCopied_record (hx : d.record c.seq = some x) :
    (d.rowsCopied r corrected bad c rest next rows).record c.seq = some (x.withRows d r c bad rows) :=
  (Dev.record_of_recs (congrArg RecSt.recs Dev.rowsCopied_store) _).trans (Dev.modRecord_record_same (fun _ => rfl) hx)

theorem Dev.rowsCopied_acq : (d.rowsCopied r corrected bad c rest next rows).acq =
    (d.setRing r { d.ring r with caps := { c with next := next } :: rest }).acq :=
  Dev.stackUes_keeps (P := fun e => e.acq = (d.setRing r { d.ring r with caps := { c with next := next } :: rest }).acq)
    (Part.same_keeps .acq rfl) rfl

theorem Dev.rowsCopied_ring : (d.rowsCopied r corrected bad c rest next rows).ring r =
    { d.ring r with caps := { c with next := next } :: rest } :=
  (congrArg (fun q : AcqSt => SMap.get (fun _ => RingRec.init) q.rings r) Dev.rowsCopied_acq).trans (Dev.setRing_ring ..)

/-- A ring lies on one of 16 stacks by its register's field. -/
theorem Dev.ringStack_lt (d : Dev) (r : Nat) : d.ringStack r < 16 := bitsOf_lt ..

/-- A read counts its corrected bursts. -/
theorem Dev.rowsCopied_stkCe : (d.rowsCopied r corrected bad c rest next rows).rd (Reg.stkCe (d.ringStack r)) =
    satInc 32 corrected (d.rd (Reg.stkCe (d.ringStack r))) % 2 ^ 32 := by
  have hk := d.ringStack_lt r
  unfold Dev.rowsCopied
  rw [Dev.stackUes_rd hk (by simp only [Reg.stkCe]; omega) (by simp only [Reg.stkCe, Reg.stkScfg]; omega)
    (by simp only [Reg.stkCe, Reg.dieStat]; omega) (by simp only [Reg.stkCe, Reg.stkUe]; omega)]
  exact Dev.rd_wr_same ..

theorem Dev.rowsCopied_stkUe_none (h : d.rowUes r bad rows = []) :
    (d.rowsCopied r corrected bad c rest next rows).rd (Reg.stkUe (d.ringStack r)) = d.rd (Reg.stkUe (d.ringStack r)) := by
  unfold Dev.rowsCopied
  rw [h]
  exact Dev.rd_countN_ne _ _ (by simp only [Reg.stkCe, Reg.stkUe]; omega)

theorem Dev.rowsCopied_stkUe_one {b : Nat} (h : d.rowUes r bad rows = [b]) :
    (d.rowsCopied r corrected bad c rest next rows).rd (Reg.stkUe (d.ringStack r)) =
      satInc 32 1 (d.rd (Reg.stkUe (d.ringStack r))) := by
  unfold Dev.rowsCopied
  rw [h]
  refine (Dev.stackUe_count (d.ringStack_lt r)).trans (congrArg _ ?_)
  exact Dev.rd_countN_ne _ _ (by simp only [Reg.stkCe, Reg.stkUe]; omega)

/-- A ring none of whose captures has ended settles to itself: no record changes, and of the registers COUNT alone may. -/
theorem Dev.settleRing_resumeRing_quiet (h : ∀ k ∈ (d.ring r).caps, k.ended = false ∧ (d.ring r).nextK < k.hi) :
    ((d.settleRing r).resumeRing r).store = d.store ∧ d.regsBut [Reg.hwkOutstanding r] ((d.settleRing r).resumeRing r) := by
  have hresume := Dev.resumeRing_keeps (d := d.settleRing r) (r := r) (keepsBut_keeps [.acq] (d.settleRing r)) (keepsBut_refl _ _)
  have hquiet := Dev.settleRing_quiet d r fun k hk => ⟨(h k hk).1, .inr (h k hk).2⟩
  refine ⟨(hresume .store rfl).trans (by rw [hquiet]; rfl), fun a ha => ?_⟩
  rw [Dev.rd_of_regs (hresume .regs rfl), hquiet, Dev.rd_setFld_ne _ _ _ (List.ne_of_not_mem_cons ha)]
  rfl

end

/-- The rows of a record with rows copied out behind its own. -/
theorem RecordRec.withRows_row {x : RecordRec} {d : Dev} {r : Nat} {c : Capture} {bad : List Nat} {rows : List RingItem} {i : Nat}
    {z : RingItem} (h : rows[i]? = some z) :
    (x.withRows d r c bad rows).items[x.items.length + i]? = some (d.copiedRow r bad z) := by
  show (x.items ++ rows.map (d.copiedRow r bad))[x.items.length + i]? = _
  rw [List.getElem?_append_right (Nat.le_add_right ..), Nat.add_sub_cancel_left, List.getElem?_map, h]
  rfl

/-! Free-class results (R113, R387) -/

/-- A free-class block as it stands in an appendix: its length and producer, and its data. -/
def appendixBlock (p : BitVec 16) (b : List Byte) : List Byte :=
  leBytes 8 (8 + alignUp 8 b.length + p.toNat * 2 ^ 32) ++ takeBytes (8 + alignUp 8 b.length - 8) b

/-- The pages that a free-class block needs beside those of the appendix before it. -/
def RecordRec.appendixNeed (x : RecordRec) (b : List Byte) : Nat :=
  ceilDiv (x.appendix.length + (8 + alignUp 8 b.length)) 4096 - ceilDiv x.appendix.length 4096

section
variable {d : Dev} {q : Nat} {x : RecordRec} {p : BitVec 16} {b : List Byte}

/-- Pages taken from the pool change no record. -/
theorem Dev.takePool_fits {n : Nat} (h : n ≤ d.poolFree) : ∃ e ps, d.takePool n = some (e, ps) ∧ e.store.recs = d.store.recs := by
  unfold Dev.takePool
  rw [if_pos h]
  exact ⟨_, _, rfl, rfl⟩

theorem Dev.putAppendix_fits (hx : d.record q = some x) (h : x.appendixNeed b ≤ d.poolFree) :
    ∃ ps, (d.putAppendix q p b).record q = some { x with appendix := x.appendix ++ appendixBlock p b, pages := x.pages ++ ps } := by
  obtain ⟨e, ps, htake, hrecs⟩ := Dev.takePool_fits h
  unfold RecordRec.appendixNeed at htake
  have hx' : e.record q = some x := (Dev.record_of_recs hrecs q).trans hx
  refine ⟨ps, ?_⟩
  unfold Dev.putAppendix
  rw [hx]
  dsimp only
  rw [htake]
  exact Dev.modRecord_record_same (f := fun y => { y with appendix := y.appendix ++ appendixBlock p b, pages := y.pages ++ ps })
    (fun _ => rfl) hx'

theorem Dev.putAppendix_full (hx : d.record q = some x) (h : d.poolFree < x.appendixNeed b) :
    d.putAppendix q p b = (d.count Reg.recAppxDrop).modRecord q fun y => { y with freeInc := true } := by
  have htake : d.takePool (ceilDiv (x.appendix.length + (8 + alignUp 8 b.length)) 4096 - ceilDiv x.appendix.length 4096) = none :=
    if_neg (Nat.not_le.mpr h)
  unfold Dev.putAppendix
  rw [hx]
  dsimp only
  rw [htake]

/-- A block that is not the last of a record that still takes results. -/
theorem Dev.appendBlock_more (hx : d.record q = some x) (hdone : x.doneAt = none) (hfree : x.freeDone = false) :
    d.appendBlock q p b false = (d.putAppendix q p b).tryComplete q := by
  unfold Dev.appendBlock
  rw [hx]
  simp [hdone, hfree]

/-- A block for a record that takes no more results counts as late. -/
theorem Dev.appendBlock_late (hx : d.record q = some x) (h : x.doneAt.isSome = true ∨ x.freeDone = true) (hring : x.ring < 64) (last : Bool) :
    d.appendBlock q p b last = d.count (Reg.hwkLateArrival x.ring) := by
  have hlate : (x.doneAt.isSome || x.freeDone) = true := by simpa using h
  unfold Dev.appendBlock
  rw [hx]
  dsimp only
  rw [if_pos hlate]
  unfold Dev.countIf
  rw [if_pos (decide_eq_true hring)]

/-- A record that waits for results is not ready. -/
theorem RecordRec.not_ready_of_waits (hfree : x.freeDone = false) (hwait : x.freeWait.isSome = true) : x.ready = false := by
  obtain ⟨us, hus⟩ := Option.isSome_iff_exists.mp hwait
  simp [RecordRec.ready, hfree, hus]

/-- The wait of a record whose capture has ended is over. -/
theorem Dev.freeExpire_due {us t : Nat} (hx : d.record q = some x) (hus : x.freeWait = some us) (hend : x.endedAt = some t)
    (hdone : x.doneAt = none) (hfree : x.freeDone = false) (hdue : t + us * 1000 ≤ d.devNs) :
    d.freeExpire q false = (d.modRecord q fun y => { y with freeDone := true, freeInc := true }).tryComplete q := by
  unfold Dev.freeExpire
  rw [hx]
  simp [hus, hend, hdone, hfree, hdue]

end

/-- Rows of a HAWK ring's oldest capture are copied out to its record, in copy-out's slot. -/
theorem captureCopyOut_gives {s : State} {r : Fin 64} {n corrected : Nat} {bad : List Nat} {c : Capture} {rest : List Capture} {x : RecordRec}
    (hs : s.dev.alive = true) (hstip : s.dev.stippled r.val = false) (hup : s.dev.stackState (s.dev.ringStack r.val) = skUp)
    (hgrant : (s.dev.stackRec (s.dev.ringStack r.val)).grant = 2) (hwaits : s.dev.copyWaits (s.dev.ringStack r.val) = some r.val)
    (hcaps : (s.dev.ring r.val).caps = c :: rest) (hopen : ∀ k ∈ c :: rest, k.ended = false ∧ (s.dev.ring r.val).nextK < k.hi)
    (hx : s.dev.record c.seq = some x) :
    let k := s.dev.ringStack r.val
    let ready := s.dev.copyRows r.val c n
    Gives (.captureCopyOut r n corrected bad) s fun d => d.record c.seq = some (x.withRows s.dev r.val c bad ready) ∧
      d.rd (Reg.stkCe k) = satInc 32 corrected (s.dev.rd (Reg.stkCe k)) % 2 ^ 32 ∧
      (s.dev.rowUes r.val bad ready = [] → d.rd (Reg.stkUe k) = s.dev.rd (Reg.stkUe k)) ∧
      (∀ b, s.dev.rowUes r.val bad ready = [b] → d.rd (Reg.stkUe k) = satInc 32 1 (s.dev.rd (Reg.stkUe k))) ∧
      (d.stackRec k).grant = 0 ∧ s.dev.keepsBut [.regs, .log, .freeCtr, .acq, .store, .stk, .clk] d := by
  intro k ready
  obtain ⟨next, hcopy⟩ := Dev.copyOut_hawk (n := n) (corrected := corrected) (bad := bad) hstip hup hcaps
  have hserved : (s.dev.served k 2 && decide (s.dev.copyWaits k = some r.val)) = true := by
    simp [Dev.served, Dev.granted, k, hgrant, hwaits]
  have hkeep : s.dev.keepsBut [.regs, .log, .freeCtr, .acq, .store, .stk, .clk] ((s.dev.copyOut r.val n corrected bad).useGrant k) :=
    Dev.useGrant_keeps ((keepsBut_keeps _ _).mono rfl) (Dev.copyOut_keeps (keepsBut_keeps _ _) (keepsBut_refl _ _))
  refine gives_live (exec_captureCopyOut ..) hs ?_
  rw [if_pos hserved]
  rw [hcopy] at hkeep ⊢
  obtain ⟨hstore, hregs⟩ := Dev.settleRing_resumeRing_quiet (d := s.dev.rowsCopied r.val corrected bad c rest next ready) (r := r.val) (by
    rw [Dev.rowsCopied_ring]
    intro k' hk'
    rcases List.mem_cons.mp hk' with rfl | hk'
    · exact hopen c (List.mem_cons_self ..)
    · exact hopen k' (List.mem_cons_of_mem _ hk'))
  generalize ((s.dev.rowsCopied r.val corrected bad c rest next ready).settleRing r.val).resumeRing r.val = e at hstore hregs hkeep ⊢
  have hrd : ∀ {a}, 0x160000 ≤ a → (e.useGrant k).rd a = (s.dev.rowsCopied r.val corrected bad c rest next ready).rd a := fun {a} ha => by
    refine hregs a ?_
    have := r.isLt
    simp only [Reg.hwkOutstanding, List.mem_singleton]
    omega
  have hce : 0x160000 ≤ Reg.stkCe k := by simp only [Reg.stkCe]; omega
  have hue : 0x160000 ≤ Reg.stkUe k := by simp only [Reg.stkUe]; omega
  refine ⟨?_, (hrd hce).trans Dev.rowsCopied_stkCe, fun hnone => (hrd hue).trans (Dev.rowsCopied_stkUe_none hnone),
    fun b hone => (hrd hue).trans (Dev.rowsCopied_stkUe_one hone), congrArg StkRec.grant (Dev.setStack_rec ..), hkeep⟩
  exact (Dev.record_of_recs (congrArg RecSt.recs hstore) _).trans (Dev.rowsCopied_record hx)

/-- A free-class block of a record that still takes results: appended, or dropped for want of pages. -/
theorem freeAppendixBlock_gives {s : State} {q : Nat} {x : RecordRec} (p : BitVec 16) (b : List Byte) (hs : s.dev.alive = true)
    (hx : s.dev.record q = some x) (hdone : x.doneAt = none) (hfree : x.freeDone = false) (hwait : x.freeWait.isSome = true) :
    (x.appendixNeed b ≤ s.dev.poolFree → Gives (.freeAppendixBlock q p b false) s fun d =>
      (∃ ps, d.record q = some { x with appendix := x.appendix ++ appendixBlock p b, pages := x.pages ++ ps }) ∧
        s.dev.keepsBut [.regs, .freeCtr, .store] d) ∧
    (s.dev.poolFree < x.appendixNeed b → Gives (.freeAppendixBlock q p b false) s fun d =>
      d.record q = some { x with freeInc := true } ∧ d.rd Reg.recAppxDrop = satInc 32 1 (s.dev.rd Reg.recAppxDrop) ∧
        s.dev.regsBut [Reg.recAppxDrop] d ∧ s.dev.keepsBut [.regs, .freeCtr, .store] d) := by
  have hkeep : s.dev.keepsBut [.regs, .freeCtr, .store] (s.dev.appendBlock q p b false) :=
    Dev.appendBlock_keeps (keepsBut_keeps _ _) (keepsBut_refl _ _)
  refine ⟨fun hfits => gives_live (exec_freeAppendixBlock ..) hs ?_, fun hfull => gives_live (exec_freeAppendixBlock ..) hs ?_⟩
  · obtain ⟨ps, hput⟩ := Dev.putAppendix_fits (p := p) hx hfits
    refine ⟨⟨ps, ?_⟩, hkeep⟩
    rw [Dev.appendBlock_more hx hdone hfree, Dev.tryComplete_not_ready hput (RecordRec.not_ready_of_waits hfree hwait), hput]
  · have hput := Dev.putAppendix_full (p := p) hx hfull
    have hrec : (s.dev.putAppendix q p b).record q = some { x with freeInc := true } := by
      rw [hput]
      exact Dev.modRecord_record_same (f := fun y => { y with freeInc := true }) (fun _ => rfl)
        ((Dev.record_of_recs (d := s.dev) rfl q).trans hx)
    rw [Dev.appendBlock_more hx hdone hfree, Dev.tryComplete_not_ready hrec (RecordRec.not_ready_of_waits hfree hwait)] at hkeep ⊢
    refine ⟨hrec, ?_, ?_, hkeep⟩ <;> rw [hput]
    · exact Dev.rd_count ..
    · exact fun a ha => Dev.rd_count_ne _ (List.ne_of_not_mem_cons ha)

/-- A record whose wait is over completes without the results still out. -/
theorem freeWaitExpiry_gives {s : State} {q us t : Nat} {x : RecordRec} (hs : s.dev.alive = true) (hx : s.dev.record q = some x)
    (hus : x.freeWait = some us) (hend : x.endedAt = some t) (hcopied : x.copied = true) (hdone : x.doneAt = none)
    (hfree : x.freeDone = false) (hdue : t + us * 1000 ≤ s.dev.devNs) :
    Gives (.freeWaitExpiry q false) s fun d => (∃ y, d.record q = some y ∧ y.doneAt = some s.dev.devNs ∧ y.freeInc = true) ∧
      d.rd Reg.recRecords = satInc 32 1 (s.dev.rd Reg.recRecords) ∧ s.dev.keepsBut [.regs, .freeCtr, .store] d := by
  have hrec := Dev.modRecord_record_same (f := fun y => { y with freeDone := true, freeInc := true }) (fun _ => rfl) hx
  have hready : RecordRec.ready { x with freeDone := true, freeInc := true } = true := by simp [RecordRec.ready, hend, hcopied, hdone]
  obtain ⟨bs, hcomplete⟩ := Dev.tryComplete_ready hrec hready
  have hkeep : s.dev.keepsBut [.regs, .freeCtr, .store] (s.dev.freeExpire q false) :=
    Dev.freeExpire_keeps (keepsBut_keeps _ _) (keepsBut_refl _ _)
  refine gives_live (exec_freeWaitExpiry ..) hs ?_
  rw [Dev.freeExpire_due hx hus hend hdone hfree hdue] at hkeep ⊢
  exact ⟨⟨_, hcomplete, rfl, rfl⟩, Dev.tryComplete_recRecords hrec hready, hkeep⟩

/-- Settles O34: STIPPLE captures ended, rows copied out, free-class blocks that come in time and late, and a wait that is over. -/
theorem recordsAssembled : Obligations.RecordsAssembled := by
  refine ⟨fun s r hs hstip => gives_live (exec_stippleCaptureEnd ..) hs ⟨fun c hc hdue x hx => ?_, ?_⟩, ?_, ?_, ?_⟩
  · exact Dev.stippleEnd_ends hstip hc hdue (Option.isSome_of_eq_some hx)
  · exact Dev.stippleEnd_keeps (keepsBut_keeps _ _) (keepsBut_refl _ _)
  · intro s r n corrected bad c rest x hs k hstip hup hgrant hwaits hcaps hopen hx ready
    refine (captureCopyOut_gives hs hstip hup hgrant hwaits hcaps hopen hx).mono ?_
    rintro d ⟨hrec, hce, hnone, hone, hused, hparts⟩
    exact ⟨_, hrec, by simp [RecordRec.withRows, Dev.copyRows, ready], fun i z hz => RecordRec.withRows_row hz, rfl, hce, hnone, hone,
      hused, hparts⟩
  · intro s q p b x hs hx len need
    refine ⟨fun hdone hfree hwait => ?_, fun hlate hring last => ?_⟩
    · obtain ⟨hfits, hfull⟩ := freeAppendixBlock_gives p b hs hx hdone hfree hwait
      refine ⟨fun h => (hfits h).mono ?_, hfull⟩
      rintro d ⟨⟨ps, hrec⟩, hparts⟩
      exact ⟨_, hrec, rfl, hdone, rfl, hparts⟩
    · refine gives_live (exec_freeAppendixBlock ..) hs ?_
      rw [Dev.appendBlock_late hx hlate hring]
      exact ⟨Dev.rd_count .., fun a ha => Dev.rd_count_ne _ (List.ne_of_not_mem_cons ha),
        Dev.count_keeps (keepsBut_keeps _ _) (keepsBut_refl _ _)⟩
  · intro s q us t x hs hx hus hend hcopied hdone hfree hdue
    exact freeWaitExpiry_gives hs hx hus hend hcopied hdone hfree hdue

end Sys2Proof.Machine
end

section
/-!
Die links (R145, R146): the stand-ins for a lost flit, where the hops of two circuits share their place among the waiting tokens.
-/

namespace Sys2Proof.Machine

open Sys2Proof

/-- The tokens that wait are found by 256 × circuit + hop alone. -/
theorem Dev.waitAt_of_place (d : Dev) {k h k' h' : Nat} (e : k * 256 + h = k' * 256 + h') : d.waitAt k h = d.waitAt k' h' := by
  unfold Dev.waitAt Dev.waiting
  rw [e]

theorem standIn_epoch (e s : Nat) : (standIn e s).epoch = BitVec.ofNat 2 e := rfl

/-- The crossbar link of cluster 7 toward its edge port, at the C-die's end of half 0 of die 0. -/
def halfEdge : Nat := 3 + 40 * 2 ^ 17 + 7 * 2 ^ 23

/-- A timed circuit of 258 hops, the 257th of which crosses half 0. -/
def farHop : Circuit :=
  ⟨0, false, false, 1, 1, ⟨0, 0, 0, 0, 0, 0⟩, ⟨4, 0, 0, 0, 0, 0⟩, List.replicate 256 (0, 0) ++ [(halfEdge, 1), (0, 0)]⟩

/-- The timed circuit with the next key, which crosses half 0 first. -/
def nearHop : Circuit := ⟨1, false, false, 1, 1, ⟨0, 0, 0, 0, 0, 0⟩, ⟨4, 0, 0, 0, 0, 0⟩, [(halfEdge, 1), (0, 0)]⟩

/-- A device whose two circuits go on past half 0 at hops with one place among the waiting tokens (257 = 256 + 1), in epochs 0 and 1. -/
def sharedPlace : Dev :=
  { Dev.init with
    inReset := false
    regs := [(Reg.dieStat 0, 1)]
    fab := { Dev.init.fab with circuits := [farHop, nearHop], cst := [(1, { CircSt.init with epoch := 1 })] } }

theorem sharedPlace_flitPositions : sharedPlace.flitPositions (0, 0) true = [(farHop, 257, 1), (nearHop, 1, 1)] := by decide +kernel

theorem sharedPlace_unfenced : sharedPlace.linkFenced (farHop.link 257) = false ∧ sharedPlace.linkFenced (nearHop.link 1) = false := by
  decide +kernel

/-- Refutes O35: the clause on stand-ins does not ask for routes of at most 256 hops, and where a longer one makes two circuits share a
place, the stand-ins there are of both their epochs, not of one. -/
theorem not_linksAndPace : ¬ Obligations.LinksAndPace := by
  rintro ⟨hflit, -⟩
  obtain ⟨-, -, hlost⟩ := hflit ⟨sharedPlace, []⟩ 0 0 true (by decide) (by decide) (by decide)
  obtain ⟨_, -, w, -, -, -, -, hstand, -⟩ := hlost (by decide +kernel)
  have hpositions := sharedPlace_flitPositions
  obtain ⟨hfar, hnear⟩ := sharedPlace_unfenced
  obtain ⟨m, hm, hlen, hepoch⟩ := hstand (farHop, 257, 1) (hpositions ▸ List.mem_cons_self) hfar
  obtain ⟨m', hm', -, hepoch'⟩ := hstand (nearHop, 1, 1) (hpositions ▸ List.mem_cons_of_mem _ List.mem_cons_self) hnear
  have hsame : m = m' := by
    have hplace : w.waitAt farHop.key 257 = w.waitAt nearHop.key 1 := w.waitAt_of_place rfl
    exact List.append_cancel_left (hm.symm.trans (hplace.trans hm'))
  obtain ⟨t, ht⟩ := List.exists_mem_of_length_pos hlen
  obtain ⟨s, hs⟩ := hepoch t ht
  obtain ⟨s', hs'⟩ := hepoch' t (hsame ▸ ht)
  have hboth := (congrArg Token.epoch hs).symm.trans (congrArg Token.epoch hs')
  rw [standIn_epoch, standIn_epoch] at hboth
  exact absurd hboth (by decide)

end Sys2Proof.Machine
end

section
/-!
SUPPORT. What settling (R167, R189) leaves: the circuits, the queues of Drip's sets and what they are spilling; and a count of late
arrivals that has begun goes on.
-/

namespace Sys2Proof.Machine

open Sys2Proof

/-- What a transfer through queue q is to set s of its cluster (R189, R194). -/
def Dev.transferAt (d : Dev) (q : Endp) (s : Nat) : Dev :=
  let r := d.drip q.cl s
  if r.queues.contains q then
    (d.countIf r.spilling.isSome (Reg.drpLateArrival q.cl)).setDrip q.cl s { r with since := r.since.map fun _ => d.devNs }
  else d

theorem Dev.dripTransfer_eq (d : Dev) (q : Endp) : d.dripTransfer q = (List.range 32).foldl (fun f s => f.transferAt q s) d := rfl

/-- Device e can have come from d by tokens settling: it has the circuits of d and Drip's sets with their queues and spills, and no count of
late arrivals has gone back to 0. -/
structure Dev.SettledFrom (d e : Dev) : Prop where
  circuits : e.fab.circuits = d.fab.circuits
  queues : ∀ cl s, (e.drip cl s).queues = (d.drip cl s).queues
  spilling : ∀ cl s, (e.drip cl s).spilling = (d.drip cl s).spilling
  late : ∀ cl, d.rd (Reg.drpLateArrival cl) ≠ 0 → e.rd (Reg.drpLateArrival cl) ≠ 0

namespace Dev.SettledFrom

theorem refl (d : Dev) : d.SettledFrom d := ⟨rfl, fun _ _ => rfl, fun _ _ => rfl, fun _ => id⟩

theorem trans {d e f : Dev} (h : d.SettledFrom e) (h' : e.SettledFrom f) : d.SettledFrom f :=
  ⟨h'.circuits.trans h.circuits, fun cl s => (h'.queues cl s).trans (h.queues cl s),
    fun cl s => (h'.spilling cl s).trans (h.spilling cl s), fun cl hd => h'.late cl (h.late cl hd)⟩

/-- Neither circuits nor Drip's sets nor counts of late arrivals differ. -/
theorem of_same {d e : Dev} (hc : e.fab.circuits = d.fab.circuits) (hs : e.fab.drips = d.fab.drips)
    (hl : ∀ cl, e.rd (Reg.drpLateArrival cl) = d.rd (Reg.drpLateArrival cl)) : d.SettledFrom e := by
  have hdrip : ∀ cl s, e.drip cl s = d.drip cl s := fun cl s => by unfold Dev.drip; rw [hs]
  exact ⟨hc, fun cl s => by rw [hdrip], fun cl s => by rw [hdrip], fun cl => by rw [hl]; exact id⟩

/-- Another register than a count of late arrivals is written. -/
theorem wr {d e : Dev} (h : d.SettledFrom e) {a : Nat} (v : Nat) (ha : ∀ cl, Reg.drpLateArrival cl ≠ a) : d.SettledFrom (e.wr a v) :=
  h.trans (of_same rfl rfl fun cl => Dev.rd_wr_ne _ _ (ha cl))

theorem setFld {d e : Dev} (h : d.SettledFrom e) {a : Nat} (f : Fld) (v : Nat) (ha : ∀ cl, Reg.drpLateArrival cl ≠ a) :
    d.SettledFrom (e.setFld a f v) := h.wr _ ha

theorem count {d e : Dev} (h : d.SettledFrom e) {a : Nat} (ha : ∀ cl, Reg.drpLateArrival cl ≠ a) : d.SettledFrom (e.count a) := h.wr _ ha

theorem satInc_one_ne_zero (x : Nat) : satInc 32 1 x ≠ 0 := by
  unfold satInc
  split <;> omega

/-- A late arrival is counted, or not. -/
theorem countLate {d e : Dev} (h : d.SettledFrom e) (b : Bool) (cl : Nat) : d.SettledFrom (e.countIf b (Reg.drpLateArrival cl)) := by
  unfold Dev.countIf
  split
  · refine h.trans ⟨rfl, fun _ _ => rfl, fun _ _ => rfl, fun k hk => ?_⟩
    by_cases hkc : Reg.drpLateArrival k = Reg.drpLateArrival cl
    · rw [hkc, Dev.rd_count]; exact satInc_one_ne_zero _
    · rwa [Dev.rd_count_ne _ hkc]
  · exact h

/-- A Drip set is changed in its timer alone. -/
theorem setDrip {d e : Dev} (h : d.SettledFrom e) {cl s : Nat} {r : DripRec} (hq : r.queues = (e.drip cl s).queues)
    (hs : r.spilling = (e.drip cl s).spilling) : d.SettledFrom (e.setDrip cl s r) := by
  have hdrip : ∀ cl' s', (e.setDrip cl s r).drip cl' s' = if 32 * cl' + s' = 32 * cl + s then r else e.drip cl' s' :=
    fun cl' s' => SMap.get_set _ _ _ _
  have hsame : ∀ cl' s', 32 * cl' + s' = 32 * cl + s → e.drip cl' s' = e.drip cl s := fun cl' s' he => by unfold Dev.drip; rw [he]
  refine h.trans ⟨rfl, fun cl' s' => ?_, fun cl' s' => ?_, fun _ => id⟩ <;> rw [hdrip] <;> split
  case _ he => rw [hsame _ _ he, hq]
  case _ => rfl
  case _ he => rw [hsame _ _ he, hs]
  case _ => rfl

theorem setSpill {d e : Dev} (h : d.SettledFrom e) (cl j : Nat) (s : Option Spill) : d.SettledFrom (e.setSpill cl j s) := by
  unfold Dev.setSpill
  extract_lets _ g all
  have hg : d.SettledFrom g := h.trans (of_same rfl rfl fun _ => rfl)
  refine (hg.setFld _ _ fun k => ?_).wr _ fun k => ?_
  · simp only [Reg.drpLateArrival, Reg.drpOpen]; omega
  · simp only [Reg.drpLateArrival, Reg.drpUsed]; omega

theorem segPush {d e : Dev} (h : d.SettledFrom e) (cl j : Nat) (s : Spill) (t : DripTok) : d.SettledFrom (e.segPush cl j s t) := by
  have hst : ∀ st a bs, d.SettledFrom (e.stackWrite st a bs) := fun st a bs =>
    have hregs : (e.stackWrite st a bs).regs = e.regs :=
      Dev.stackWrite_keeps (P := fun f => Part.same e f .regs) (Part.same_keeps .regs rfl) rfl
    have hfab : (e.stackWrite st a bs).fab = e.fab :=
      Dev.stackWrite_keeps (P := fun f => Part.same e f .fab) (Part.same_keeps .fab rfl) rfl
    h.trans (of_same (by rw [hfab]) (by rw [hfab]) fun _ => Dev.rd_of_regs hregs _)
  unfold Dev.segPush
  refine ((hst _ _ _).setSpill cl j _).count fun k => ?_
  simp only [Reg.drpLateArrival, Reg.drpTokens]; omega

theorem foldl {α : Type} {d e : Dev} (h : d.SettledFrom e) (l : List α) {f : Dev → α → Dev}
    (hf : ∀ g x, d.SettledFrom g → d.SettledFrom (f g x)) : d.SettledFrom (l.foldl f e) := foldl_keeps hf h

theorem transferAt {d e : Dev} (h : d.SettledFrom e) (q : Endp) (s : Nat) : d.SettledFrom (e.transferAt q s) := by
  unfold Dev.transferAt
  dsimp only
  split
  · exact (h.countLate _ _).setDrip (by unfold Dev.drip; rw [Dev.countIf_fab]) (by unfold Dev.drip; rw [Dev.countIf_fab])
  · exact h

theorem dripTransfer {d e : Dev} (h : d.SettledFrom e) (q : Endp) : d.SettledFrom (e.dripTransfer q) :=
  h.foldl _ fun _ s hg => hg.transferAt q s

theorem setCore {d e : Dev} (h : d.SettledFrom e) (c : Nat) (r : CoreRec) : d.SettledFrom (e.setCore c r) :=
  h.trans (of_same rfl rfl fun _ => rfl)

theorem storeTransfer {d e : Dev} (h : d.SettledFrom e) (x : Circuit) (k : Nat) (into : Bool) : d.SettledFrom (e.storeTransfer x k into) := by
  unfold Dev.storeTransfer
  split
  · exact h.foldl _ fun g q hg => hg.dripTransfer q
  · exact h

theorem dropHead {d e : Dev} (h : d.SettledFrom e) (x : Circuit) (k : Nat) : d.SettledFrom (e.dropHead x k) :=
  (h.storeTransfer x k false).trans (of_same rfl rfl fun _ => rfl)

theorem setGrp {d e : Dev} (h : d.SettledFrom e) (g : Nat) (r : GroupRec) : d.SettledFrom (e.setGrp g r) := by
  have h' := h.trans (of_same (e := { e with fab := { e.fab with groups := SMap.set (fun _ => GroupRec.init) e.fab.groups g r } }) rfl rfl
    fun _ => rfl)
  unfold Dev.setGrp
  dsimp only
  split
  · refine SettledFrom.setFld (SettledFrom.setFld h' _ _ fun k => ?_) _ _ fun k => ?_ <;>
      (simp only [Reg.drpLateArrival, Reg.scrCtxsel]; omega)
  · exact h'

theorem logInternal {d e : Dev} (h : d.SettledFrom e) (a old new : Nat) (st : Status) : d.SettledFrom (e.logInternal a old new st) :=
  h.trans (of_same (by rw [Dev.logInternal_fab]) (by rw [Dev.logInternal_fab]) fun cl => Dev.logInternal_rd _ _ _ _ _
    (by simp only [Reg.drpLateArrival, Reg.logLost]; omega) (by simp only [Reg.drpLateArrival, Reg.logMirrorLost]; omega))

theorem switchReq {d e : Dev} (h : d.SettledFrom e) (g : Nat) (r : SwitchReq) : d.SettledFrom (e.switchReq g r) := by
  unfold Dev.switchReq
  dsimp only
  split
  · exact h.setGrp g _
  · exact h.logInternal _ _ _ _

theorem sectionEnd {d e : Dev} (h : d.SettledFrom e) (k : CtrRef) : d.SettledFrom (e.sectionEnd k) := by
  unfold Dev.sectionEnd
  extract_lets g x i
  repeat' split
  · exact h.switchReq ..
  all_goals exact h

theorem cuFeed (n : Nat) : ∀ {d e : Dev} (_ : d.SettledFrom e) (c : Nat), d.SettledFrom (e.cuFeed c n) := by
  induction n with
  | zero => exact fun h c => h
  | succ n ih =>
    intro d e h c
    rw [Dev.cuFeed]
    repeat' split
    · exact h
    · exact ih ((h.setCore c _).segPush _ _ _ _) c
    · exact h
    · exact ih ((h.setCore c _).dripTransfer _) c

theorem cuPut {d e : Dev} (h : d.SettledFrom e) (c : Nat) (t : CuTok) : d.SettledFrom (e.cuPut c t) := by
  unfold Dev.cuPut
  dsimp only
  split
  · exact cuFeed _ (h.setCore c _) c
  · refine SettledFrom.setCore ?_ c _
    split
    · refine SettledFrom.trans (h.count (a := Reg.coTimedOvf (clOf c) (posOf c)) fun k => ?_) (of_same rfl rfl fun _ => rfl)
      have := Nat.mod_lt c (show 0 < 17 by decide)
      simp only [Reg.drpLateArrival, Reg.coTimedOvf, posOf]; omega
    · exact h

theorem emitCtl {d e : Dev} (h : d.SettledFrom e) (k : CtrRef) (op v : Nat) (free : Bool) (ev : Nat) (deg : Bool) :
    d.SettledFrom (e.emitCtl k op v free ev deg) := by
  unfold Dev.emitCtl
  extract_lets t outs g
  have hg : d.SettledFrom g := by
    show d.SettledFrom (if _ then _ else _)
    split
    · exact h
    · exact h.cuPut _ _
  split
  · exact hg.sectionEnd k
  · exact hg

theorem setCounter {d e : Dev} (h : d.SettledFrom e) (k : CtrRef) (r : CounterRec) : d.SettledFrom (e.setCounter k r) := h.setCore _ _

theorem trigger {d e : Dev} (h : d.SettledFrom e) (k : CtrRef) (v tag : Nat) (free : Bool) (ev : Nat) (deg : Bool) :
    d.SettledFrom (e.trigger k v tag free ev deg) := by
  unfold Dev.trigger
  extract_lets r out
  repeat' split
  · exact (h.setCounter k _).emitCtl ..
  · exact h.setCounter k _
  · exact h.setCounter k _
  · exact (h.setCounter k _).emitCtl ..
  · exact h.setCounter k _
  · exact h.emitCtl ..
  · exact h

theorem applyHeld (n : Nat) : ∀ {d e : Dev} (_ : d.SettledFrom e) (k : CtrRef), d.SettledFrom (e.applyHeld k n) := by
  induction n with
  | zero => exact fun h k => h
  | succ n ih =>
    intro d e h k
    rw [Dev.applyHeld]
    repeat' split
    · exact h
    · exact h
    · exact ih ((h.setCounter k _).trigger ..) k

theorem countTok {d e : Dev} (h : d.SettledFrom e) (k : CtrRef) (v : Nat) (deg : Bool) : d.SettledFrom (e.countTok k v deg) := by
  unfold Dev.countTok
  dsimp only
  repeat' split
  · exact h.emitCtl ..
  · exact applyHeld _ (h.setCounter k _) k
  · exact h

theorem addCredits {d e : Dev} (h : d.SettledFrom e) (cl : Nat) {k : Nat} (n : Nat) (_ : k < 64) : d.SettledFrom (e.addCredits cl k n) := by
  have hstat : ∀ j, Reg.drpLateArrival j ≠ Reg.crlStat cl k := fun j => by simp only [Reg.drpLateArrival, Reg.crlStat]; omega
  unfold Dev.addCredits
  dsimp only
  repeat' split
  · refine ((h.setFld _ _ hstat).setFld _ _ hstat).count fun j => ?_
    simp only [Reg.drpLateArrival, Reg.crlBoundTotal]; omega
  · exact h.setFld _ _ hstat
  · exact h

theorem reachCounter {d e : Dev} (h : d.SettledFrom e) (x : Circuit) (t : Token) : d.SettledFrom (e.reachCounter x t) := by
  unfold Dev.reachCounter
  dsimp only
  repeat' split
  · exact h
  · exact h.setCore _ _
  · exact h.addCredits _ _ (bitsOf_lt _ 0 6)
  · exact h.countTok ..
  · exact h

theorem drainEnd (n : Nat) : ∀ {d e : Dev} (_ : d.SettledFrom e) (x : Circuit), d.SettledFrom (e.drainEnd x n) := by
  induction n with
  | zero => exact fun h x => h
  | succ n ih =>
    intro d e h x
    rw [Dev.drainEnd]
    repeat' split
    · exact h
    · exact ih ((h.dropHead x _).reachCounter x _) x
    · exact h

theorem drainEnds {d e : Dev} (h : d.SettledFrom e) : d.SettledFrom e.drainEnds := by
  unfold Dev.drainEnds
  refine h.foldl _ fun g x hg => ?_
  split
  · exact drainEnd _ hg x
  · exact hg

/-- What follows the draining of the counters' ports. -/
theorem fedAndScanned {d e : Dev} (h : d.SettledFrom e) : d.SettledFrom e.feedUnits.dripScan.dripFullWaits := by
  have hfeed : d.SettledFrom e.feedUnits := h.foldl _ fun g p hg => cuFeed _ hg p.1
  have hscan : d.SettledFrom e.feedUnits.dripScan := by
    refine hfeed.foldl _ fun g p hg => ?_
    refine SettledFrom.setFld (hg.setDrip (by rfl) (by rfl)) _ _ fun k => ?_
    have := Nat.mod_lt p.1 (show 0 < 32 by decide)
    simp only [Reg.drpLateArrival, Reg.drpSet]; omega
  refine hscan.foldl _ fun g p hg => ?_
  dsimp only
  repeat' split
  · refine SettledFrom.setSpill (hg.count fun k => ?_) _ _ _
    simp only [Reg.drpLateArrival, Reg.drpFull]; omega
  · exact hg
  · exact hg

end Dev.SettledFrom

/-- Settling a device. -/
theorem Dev.settleDrip_settledFrom (d : Dev) : d.SettledFrom d.settleDrip :=
  (Dev.SettledFrom.refl d).drainEnds.fedAndScanned

end Sys2Proof.Machine
end

section
/-!
A core's port buffer at the end of a circuit (R137, R139): a fence empties it, and the stand-ins that share its place with it.
-/

namespace Sys2Proof.Machine

open Sys2Proof

theorem exec_coreFence (s : State) (c : CoreId) (cause : FenceCause) :
    exec (.coreFence c cause) s = s.live fun d => (d.fence c.val (fenceCode cause)).settleDrip := rfl

/-- A timed circuit from an engine of core 0 that leaves it by its port at hop 1, for the Screed. -/
def leavingCirc : Circuit := ⟨0, false, false, 1, 1, ⟨0, 0, 0, 0, 0, 0⟩, ⟨4, 0, 0, 0, 0, 0⟩, [(0, 0), (3, 0)]⟩

/-- A free-class circuit under the same key, of one hop, that ends at a counter of core 0 behind port 0's buffer. -/
def endingCirc : Circuit := ⟨0, true, false, 1, 1, ⟨3, 0, 0, 0, 0, 0⟩, ⟨2, 0, 0, 0, 0, 0⟩, [(3, 0)]⟩

/-- A device with core 0 in RUN, which owes a stand-in for event 0, and a Drip set of port 0's buffer that is being spilled. The end of
one circuit is the place of the other's hop 1. Core 16 is fenced, so that the counter's core is fenced whichever position serves it. -/
def sharedEnd : Dev :=
  { Dev.init with
    inReset := false
    regs := [(coStatAddr 0, coRun), (coStatAddr 16, coFenced)]
    scr := { Dev.init.scr with slots := [(0, some { Ev.init 0 with admitted := true })] }
    fab := { Dev.init.fab with circuits := [leavingCirc, endingCirc], drips := [(0, ⟨[portEndp 0 0 0], none, some (0, 0)⟩)] } }

theorem sharedEnd_leaving : sharedEnd.leaving 0 = [leavingCirc] := by decide +kernel

/-- The fence takes the stand-in away without a transfer through the buffer, so no late arrival is counted. -/
theorem sharedEnd_fenced : ((sharedEnd.fence 0 1).settleDrip).rd (Reg.drpLateArrival 0) = 0 ∧
    ((sharedEnd.fence 0 1).settleDrip).fab.circuits = [leavingCirc, endingCirc] ∧
    ((sharedEnd.fence 0 1).settleDrip).drip 0 0 = ⟨[portEndp 0 0 0], none, some (0, 0)⟩ := by decide +kernel

/-- A transfer through a queue of a set that is being spilled is a late arrival (R194). -/
theorem Dev.dripTransfer_late {d : Dev} {q : Endp} (hq : q ∈ (d.drip q.cl 0).queues) (hs : (d.drip q.cl 0).spilling.isSome = true) :
    (d.dripTransfer q).rd (Reg.drpLateArrival q.cl) ≠ 0 := by
  have hfirst : (d.transferAt q 0).rd (Reg.drpLateArrival q.cl) ≠ 0 := by
    unfold Dev.transferAt
    dsimp only
    rw [if_pos (List.contains_iff_mem.mpr hq), hs]
    show (d.count _).rd _ ≠ 0
    rw [Dev.rd_count]
    exact Dev.SettledFrom.satInc_one_ne_zero _
  rw [Dev.dripTransfer_eq, List.range_succ_eq_map, List.foldl_cons]
  exact ((Dev.SettledFrom.refl (d.transferAt q 0)).foldl _ fun _ s hg => hg.transferAt q s).late q.cl hfirst

/-- A token that waits at the end of a circuit of a fenced core is drained as its tokens settle. -/
theorem Dev.drainEnd_fenced {d : Dev} {x : Circuit} {t : Token} (ht : d.waitAt x.key x.route.length = [t]) (hk : x.dst.kind = 2)
    (hf : ∀ e : Dev, d.coreState (e.physCore x.dst.cl x.dst.core) = coFenced) :
    d.drainEnd x (d.waitAt x.key x.route.length).length = d.dropHead x x.route.length := by
  have hstate : ∀ k, (d.dropHead x x.route.length).coreState k = d.coreState k := fun k =>
    Dev.fld_of_rd ((Dev.storeTransfer_dripFrame d x x.route.length false).2 _ (not_dripReg_coStat k)) _
  have hroom : d.dstRoom x t = true := by simp [Dev.dstRoom, hk, hf d]
  have hreach : ∀ e : Dev, (∀ k, e.coreState k = d.coreState k) → e.reachCounter x t = e := fun e he => by
    unfold Dev.reachCounter
    dsimp only
    rw [if_pos ((he _).trans (hf e))]
  rw [ht, List.length_singleton, Dev.drainEnd, ht]
  dsimp only
  rw [if_pos hroom, Dev.drainEnd, hreach _ hstate]

/-- A free-class head dropped where a crossbar port's buffer ends a circuit is a transfer of that buffer. -/
theorem Dev.dropHead_endingCirc_late {w : Dev} {t : Token} (hc : w.fab.circuits = [leavingCirc, endingCirc])
    (hd : (w.drip 0 0).queues = [portEndp 0 0 0] ∧ (w.drip 0 0).spilling = some (0, 0)) (ht : w.waitAt 0 1 = [t]) :
    (w.dropHead endingCirc 1).rd (Reg.drpLateArrival 0) ≠ 0 := by
  obtain ⟨hqueues, hspilling⟩ := hd
  have hload : 0 < w.storeLoad (endingCirc.store 1) true := by
    have hstored : w.storeLoad (endingCirc.store 1) true = w.circLoad endingCirc (endingCirc.store 1) := by
      unfold Dev.storeLoad
      rw [hc]
      simp [leavingCirc, endingCirc]
    have hends : w.circLoad endingCirc (endingCirc.store 1) =
        (if endingCirc.store 0 = endingCirc.store 1 then (w.waitAt 0 0).length + w.flying 0 0 else 0) +
          ((w.waitAt 0 1).length + w.flying 0 1) := by
      unfold Dev.circLoad
      simp [endingCirc, List.range_succ]
    rw [hstored, hends, ht]
    simp only [List.length_singleton]
    omega
  show (w.storeTransfer endingCirc 1 false).rd _ ≠ 0
  have hbuffers : w.storeTransfer endingCirc 1 false = w.dripTransfer (portEndp 0 0 0) := by
    unfold Dev.storeTransfer
    rw [if_pos (by rfl : endingCirc.free = true)]
    dsimp only
    rw [show endingCirc.partsAt 1 = [(some (portEndp 0 0 0), 4)] from by decide]
    simp [buffersOut, hload]
  rw [hbuffers]
  exact Dev.dripTransfer_late (q := portEndp 0 0 0) (by rw [show (portEndp 0 0 0).cl = 0 from rfl, hqueues]; exact List.mem_singleton_self _)
    (by rw [show (portEndp 0 0 0).cl = 0 from rfl, hspilling]; rfl)

/-- Refutes O37: the clause on stand-ins looks at the hops that share the place of a core's port, but not at the ends of circuits. Where one
ends there behind the fenced core's port buffer, the fence discards the stand-ins. They cannot have gone as the tokens settled either, as
that would have counted a late arrival. -/
theorem not_coreStates : ¬ Obligations.CoreStates := by
  rintro ⟨-, -, -, hfence⟩
  obtain ⟨d, hd, w, rfl, hstate, -, hothers, -, -, -, hstand, -⟩ := hfence ⟨sharedEnd, []⟩ 0 .weightStore (by decide) (by decide)
  rw [exec_coreFence, State.live_of _ _ (by decide)] at hd
  injection hd with hd
  injection hd with hd
  obtain ⟨hlate, hcircs, hdrip⟩ := sharedEnd_fenced
  rw [show (sharedEnd.fence 0 1).settleDrip = w.settleDrip from hd] at hlate hcircs hdrip
  have hsettled := w.settleDrip_settledFrom
  have hwcircs : w.fab.circuits = [leavingCirc, endingCirc] := hsettled.circuits.symm.trans hcircs
  have hwdrip : (w.drip 0 0).queues = [portEndp 0 0 0] ∧ (w.drip 0 0).spilling = some (0, 0) :=
    ⟨(hsettled.queues 0 0).symm.trans (by rw [hdrip]), (hsettled.spilling 0 0).symm.trans (by rw [hdrip])⟩
  have hwait : w.waitAt 0 1 = [standIn (sharedEnd.coreEpoch 0) 0] :=
    hstand leavingCirc 0 sharedEnd_leaving (by decide) (by decide) (by decide) (by decide)
  have hfenced : ∀ e : Dev, w.coreState (e.physCore 0 0) = coFenced := fun e => by
    unfold Dev.physCore
    split
    · exact (hothers 16 (by decide)).trans (by decide)
    · exact hstate
  have hdrained : w.drainEnds = w.dropHead endingCirc 1 := by
    unfold Dev.drainEnds
    rw [hwcircs]
    exact Dev.drainEnd_fenced (x := endingCirc) hwait rfl hfenced
  have hrest : (w.dropHead endingCirc 1).SettledFrom w.settleDrip := hdrained ▸ (Dev.SettledFrom.refl w.drainEnds).fedAndScanned
  exact hrest.late 0 (Dev.dropHead_endingCirc_late hwcircs hwdrip hwait) hlate

end Sys2Proof.Machine
end

section
/-!
SUPPORT. The movement of tokens: what a transfer leaves, reads that do not see Drip's registers, and open spills.
-/

namespace Sys2Proof.Machine

open Sys2Proof

/-! Reads of registers that are not Drip's -/

/-- No register differs but those in which Drip counts or shows itself. -/
def Dev.offDrip (d e : Dev) : Prop := ∀ a, ¬ dripReg a → e.rd a = d.rd a

namespace Dev.offDrip

variable {d e f : Dev}

theorem refl (d : Dev) : d.offDrip d := fun _ _ => rfl

theorem trans (h : d.offDrip e) (h' : e.offDrip f) : d.offDrip f := fun a ha => (h' a ha).trans (h a ha)

theorem of_regs (h : e.regs = d.regs) : d.offDrip e := fun a _ => Dev.rd_of_regs h a

theorem coreState (h : d.offDrip e) (c : Nat) : e.coreState c = d.coreState c := Dev.fld_of_rd (h _ (not_dripReg_coStat c)) _

theorem logicalOf (h : d.offDrip e) (c : Nat) : e.logicalOf c = d.logicalOf c := Dev.fld_of_rd (h _ (not_dripReg_coStat c)) _

theorem physCore (h : d.offDrip e) (cl l : Nat) : e.physCore cl l = d.physCore cl l := by
  have hstat : ¬ dripReg (Reg.clStat cl) := by simp only [dripReg, Reg.clStat]; omega
  unfold Dev.physCore
  rw [Dev.fld_of_rd (h _ hstat)]

theorem coCtx (h : d.offDrip e) (c : Nat) : e.rd (Reg.coCtx (clOf c) (posOf c)) = d.rd (Reg.coCtx (clOf c) (posOf c)) := by
  have := Nat.mod_lt c (show 0 < 17 by decide)
  exact h _ (by simp only [dripReg, Reg.coCtx, clOf, posOf]; omega)

theorem coreCtx (h : d.offDrip e) (c : Nat) : e.coreCtx c = d.coreCtx c := Dev.fld_of_rd (h.coCtx c) _

theorem coreEpoch (h : d.offDrip e) (c : Nat) : e.coreEpoch c = d.coreEpoch c := Dev.fld_of_rd (h.coCtx c) _

theorem linkFenced (h : d.offDrip e) (l : Nat) : e.linkFenced l = d.linkFenced l := by
  unfold Dev.linkFenced Dev.linkPhys
  rw [h.physCore, h.coreState]

end Dev.offDrip

/-! The context that an engine runs, and the class of its queues -/

/-- The context, epoch and switch wave of every core are those of d: its registers, its contexts and the groups. -/
structure Dev.SameContexts (d e : Dev) : Prop where
  regs : d.offDrip e
  groups : e.fab.groups = d.fab.groups
  ctxs : ∀ c, (e.core c).ctxs = (d.core c).ctxs

namespace Dev.SameContexts

variable {d e : Dev}

theorem ctxRec (h : d.SameContexts e) (c k : Nat) : e.ctxRec c k = d.ctxRec c k := by
  unfold Dev.ctxRec; rw [h.ctxs]

theorem waveOf (h : d.SameContexts e) (c : Nat) : e.waveOf c = d.waveOf c := by
  unfold Dev.waveOf Dev.grp Dev.groupOf
  rw [h.groups, h.regs.coreCtx, h.ctxRec]

theorem engCtx (h : d.SameContexts e) {c i : Nat} (hs : (e.eng c i).switched = (d.eng c i).switched) : e.engCtx c i = d.engCtx c i := by
  unfold Dev.engCtx; rw [h.waveOf, h.regs.coreCtx, hs]

theorem engEpoch (h : d.SameContexts e) {c i : Nat} (hs : (e.eng c i).switched = (d.eng c i).switched) :
    e.engEpoch c i = d.engEpoch c i := by
  unfold Dev.engEpoch; rw [h.waveOf, h.regs.coreEpoch, hs]

end Dev.SameContexts

/-! Transfers -/

/-- Nothing differs but the timers of Drip's sets and Drip's counts. -/
structure Dev.TimersOnly (d e : Dev) : Prop where
  fab : ∃ x, e.fab = { d.fab with drips := x }
  queues : ∀ cl s, (e.drip cl s).queues = (d.drip cl s).queues
  regs : d.offDrip e

namespace Dev.TimersOnly

variable {d e f : Dev}

theorem refl (d : Dev) : d.TimersOnly d := ⟨⟨_, rfl⟩, fun _ _ => rfl, .refl d⟩

theorem trans (h : d.TimersOnly e) (h' : e.TimersOnly f) : d.TimersOnly f := by
  obtain ⟨x, hx⟩ := h.fab
  obtain ⟨y, hy⟩ := h'.fab
  exact ⟨⟨y, by rw [hy, hx]⟩, fun cl s => (h'.queues cl s).trans (h.queues cl s), h.regs.trans h'.regs⟩

theorem spills (h : d.TimersOnly e) : e.fab.spills = d.fab.spills := by obtain ⟨x, h⟩ := h.fab; rw [h]
theorem engs (h : d.TimersOnly e) : e.fab.engs = d.fab.engs := by obtain ⟨x, h⟩ := h.fab; rw [h]
theorem cores (h : d.TimersOnly e) : e.fab.cores = d.fab.cores := by obtain ⟨x, h⟩ := h.fab; rw [h]
theorem wait (h : d.TimersOnly e) : e.fab.wait = d.fab.wait := by obtain ⟨x, h⟩ := h.fab; rw [h]
theorem wpos (h : d.TimersOnly e) : e.fab.wpos = d.fab.wpos := by obtain ⟨x, h⟩ := h.fab; rw [h]
theorem eng (h : d.TimersOnly e) (c i : Nat) : e.eng c i = d.eng c i := by unfold Dev.eng; rw [h.engs]
theorem core (h : d.TimersOnly e) (c : Nat) : e.core c = d.core c := by unfold Dev.core; rw [h.cores]
theorem iq (h : d.TimersOnly e) (c i q : Nat) : e.iq c i q = d.iq c i q := by unfold Dev.iq; rw [h.eng]
theorem iqClosed (h : d.TimersOnly e) (c i q : Nat) : e.iqClosed c i q = d.iqClosed c i q := by unfold Dev.iqClosed; rw [h.eng]
theorem waitAt (h : d.TimersOnly e) (k j : Nat) : e.waitAt k j = d.waitAt k j := by unfold Dev.waitAt Dev.waiting; rw [h.wait]

end Dev.TimersOnly

theorem Dev.transferAt_timersOnly (d : Dev) (q : Endp) (s : Nat) : d.TimersOnly (d.transferAt q s) := by
  refine ⟨?_, ((Dev.SettledFrom.refl d).transferAt q s).queues, fun a ha => ?_⟩ <;> unfold Dev.transferAt <;> dsimp only <;> split
  · exact ⟨SMap.set (fun _ => DripRec.init) d.fab.drips (32 * q.cl + s) _, by unfold Dev.setDrip; rw [Dev.countIf_fab]⟩
  · exact ⟨_, rfl⟩
  · exact (Dev.countIf_dripFrame d _ (by simp only [dripReg, Reg.drpLateArrival]; omega)).2 a ha
  · rfl

theorem Dev.dripTransfer_timersOnly (d : Dev) (q : Endp) : d.TimersOnly (d.dripTransfer q) := by
  rw [Dev.dripTransfer_eq]
  exact foldl_keeps (P := d.TimersOnly) (fun e s h => h.trans (e.transferAt_timersOnly q s)) (.refl d)

theorem Dev.storeTransfer_timersOnly (d : Dev) (x : Circuit) (h : Nat) (b : Bool) : d.TimersOnly (d.storeTransfer x h b) := by
  unfold Dev.storeTransfer
  split
  · exact foldl_keeps (P := d.TimersOnly) (fun e q he => he.trans (e.dripTransfer_timersOnly q)) (.refl d)
  · exact .refl d

/-! Open spills -/

/-- The open spills and the queues of Drip's sets are those of d. -/
def Dev.sameSpills (d e : Dev) : Prop := e.fab.spills = d.fab.spills ∧ ∀ cl s, (e.drip cl s).queues = (d.drip cl s).queues

theorem Dev.TimersOnly.sameSpills {d e : Dev} (h : d.TimersOnly e) : d.sameSpills e := ⟨h.spills, h.queues⟩

namespace Dev.sameSpills

variable {d e f : Dev}

/-- Neither the spills nor Drip's sets differ. -/
theorem of_fab (hs : e.fab.spills = d.fab.spills) (hd : e.fab.drips = d.fab.drips) : d.sameSpills e :=
  ⟨hs, fun cl s => by unfold Dev.drip; rw [hd]⟩

theorem trans (h : d.sameSpills e) (h' : e.sameSpills f) : d.sameSpills f :=
  ⟨h'.1.trans h.1, fun cl s => (h'.2 cl s).trans (h.2 cl s)⟩

theorem openSpillOf (h : d.sameSpills e) (cl : Nat) (q : Endp) : e.openSpillOf cl q = d.openSpillOf cl q := by
  unfold Dev.openSpillOf Dev.spill
  simp only [h.1, h.2]

theorem spillAt (h : d.sameSpills e) (x : Circuit) (k : Nat) : e.spillAt x k = d.spillAt x k := by
  unfold Dev.spillAt Dev.spillOf
  simp only [h.openSpillOf]

theorem iqSpill (h : d.sameSpills e) (h' : d.offDrip e) (c i q : Nat) (free : Bool) : e.iqSpill c i q free = d.iqSpill c i q free := by
  unfold Dev.iqSpill
  rw [h'.coreState, h'.logicalOf, h.openSpillOf]

end Dev.sameSpills

/-- An open segment holds the spill put into it. -/
theorem Dev.setSpill_spill (d : Dev) (cl j : Nat) (s : Option Spill) : (d.setSpill cl j s).spill cl j = s := SMap.get_set_same _ _ _

/-- A token written at the tail of a segment. -/
theorem Dev.segPush_spill (d : Dev) (cl j : Nat) (s : Spill) (t : DripTok) :
    (d.segPush cl j s t).spill cl j = some { s with toks := s.toks ++ [t], wrote := s.wrote + 1 } := Dev.setSpill_spill ..

/-- A token written at the tail of a segment leaves the fabric but for the segments. -/
theorem Dev.segPush_fab (d : Dev) (cl j : Nat) (s : Spill) (t : DripTok) : ∃ x, (d.segPush cl j s t).fab = { d.fab with spills := x } := by
  have hpush : ∀ e : Dev, e.fab = d.fab → ∀ z a, ((e.setSpill cl j z).count a).fab =
      { d.fab with spills := SMap.set (fun _ => none) d.fab.spills (4 * cl + j) z } := fun e he z a => by rw [← he]; rfl
  exact ⟨_, hpush _ (Dev.stackWrite_keeps (P := fun e => Part.same d e .fab) (Part.same_keeps .fab rfl) rfl) _ _⟩

end Sys2Proof.Machine
end

section
/-!
Tokens that arrive at an engine's input queue (R123, R137, R177, R181, R191).
-/

namespace Sys2Proof.Machine

open Sys2Proof

theorem exec_tokenArrival (s : State) (c : CoreId) (e : Fin 64) (q : Fin 2) (t : Token) :
    exec (.tokenArrival c e q t) s = s.live fun d => (d.iqDeliver c.val e.val q.val t).settleDrip := rfl

/-- A live command whose operation settles its tokens. -/
theorem settles_live {i : Instr} {s : State} {P : Dev → Prop} {f : Dev → Dev} (e : exec i s = s.live fun d => (f d).settleDrip)
    (ha : s.dev.alive = true) (h : P (f s.dev)) : Settles i s P := gives_live e ha ⟨_, rfl, h⟩

section
variable {d : Dev} {c e q : Nat} {t : Token}

/-- The device with a token as the last one of an input queue, which a marker closes (R177). -/
def Dev.iqPut (d : Dev) (c e q : Nat) (t : Token) : Dev :=
  if tokMarker t then (d.setIq c e q (d.iq c e q ++ [t])).setClosed c e q true else d.setIq c e q (d.iq c e q ++ [t])

theorem Dev.iqPut_fab (d : Dev) (c e q : Nat) (t : Token) : ∃ x, (d.iqPut c e q t).fab = { d.fab with engs := x } := by
  unfold Dev.iqPut
  split <;> exact ⟨_, rfl⟩

theorem Dev.iqPut_regs (d : Dev) (c e q : Nat) (t : Token) : (d.iqPut c e q t).regs = d.regs := by
  unfold Dev.iqPut
  split <;> rfl

theorem Dev.iqPut_iq (d : Dev) (c e q : Nat) (t : Token) : (d.iqPut c e q t).iq c e q = d.iq c e q ++ [t] := by
  unfold Dev.iqPut
  split
  · rw [Dev.setClosed_iq, Dev.setIq_iq]
  · rw [Dev.setIq_iq]

theorem Dev.iqPut_closed (hopen : d.iqClosed c e q = false) : (d.iqPut c e q t).iqClosed c e q = tokMarker t := by
  unfold Dev.iqPut
  split
  · next hm => rw [Dev.setClosed_closed, hm]
  · next hm => rw [Dev.setIq_closed, hopen, Bool.eq_false_iff.mpr hm]

theorem Dev.iqRoom_open (h : d.iqRoom c e q t.free = true) : d.iqClosed c e q = false := by
  unfold Dev.iqRoom at h
  simp only [Bool.and_eq_true, Bool.not_eq_true'] at h
  exact h.1.1

/-- A token of the engine's epoch that finds room joins its queue; nothing else differs but Drip's timers (R181, R189). -/
theorem Dev.iqArrive_taken (hf : d.coreState c ≠ coFenced) (hroom : d.iqRoom c e q t.free = true) (he : t.epoch.toNat = d.engEpoch c e) :
    (d.iqPut c e q t).TimersOnly (d.iqArrive c e q t) := by
  unfold Dev.iqArrive
  rw [if_neg hf, if_neg (by simp [hroom]), if_neg (by simp [he])]
  show (d.iqPut c e q t).TimersOnly (if t.free = true then (d.iqPut c e q t).dripTransfer _ else d.iqPut c e q t)
  split
  · exact Dev.dripTransfer_timersOnly _ _
  · exact .refl _

theorem Dev.iqArrive_stale (hf : d.coreState c ≠ coFenced) (hroom : d.iqRoom c e q t.free = true) (he : t.epoch.toNat ≠ d.engEpoch c e) :
    d.iqArrive c e q t = d.count (Reg.coStale (clOf c) (posOf c)) := by
  unfold Dev.iqArrive
  rw [if_neg hf, if_neg (by simp [hroom]), if_pos he]

theorem Dev.iqTakes_noSpill {free : Bool} (hs : d.iqSpill c e q free = none) : d.iqTakes c e q free = d.iqRoom c e q free := by
  unfold Dev.iqTakes
  rw [hs]

theorem Dev.iqDeliver_noSpill (hs : d.iqSpill c e q t.free = none) : d.iqDeliver c e q t = d.iqArrive c e q t := by
  unfold Dev.iqDeliver
  rw [hs]

theorem Dev.iqDeliver_spill {j : Nat} {sp : Spill} (hs : d.iqSpill c e q t.free = some (j, sp)) (ht : d.iqTakes c e q t.free = true) :
    d.iqDeliver c e q t = d.segPush (clOf c) j sp ⟨0, 0, t, [], none, 0⟩ := by
  unfold Dev.iqDeliver
  rw [hs]
  exact if_pos ht

theorem Dev.iqSpill_fenced (free : Bool) (hf : d.coreState c = coFenced) : d.iqSpill c e q free = none := by
  unfold Dev.iqSpill
  rw [if_neg (by simp [hf])]

/-- A fenced core discards the token, and a queue that takes none leaves it where it is. -/
theorem Dev.iqDeliver_refused (h : d.coreState c = coFenced ∨ d.iqTakes c e q t.free = false) : d.iqDeliver c e q t = d := by
  by_cases hf : d.coreState c = coFenced
  · rw [Dev.iqDeliver_noSpill (Dev.iqSpill_fenced _ hf)]
    exact if_pos hf
  · have ht := h.resolve_left hf
    cases hs : d.iqSpill c e q t.free with
    | none =>
      rw [Dev.iqDeliver_noSpill hs]
      unfold Dev.iqArrive
      rw [if_neg hf, if_pos (Dev.iqTakes_noSpill hs ▸ ht)]
    | some p =>
      unfold Dev.iqDeliver
      rw [hs]
      exact if_neg (by simp [ht])

end

/-- The first clause of O36: an arrival at an input queue. -/
theorem tokenArrival_settles {s : State} (c : CoreId) (e : Fin 64) (q : Fin 2) (t : Token) (hs : s.dev.alive = true) :
    let spill := s.dev.iqSpill c.val e.val q.val t.free
    let takes := s.dev.iqTakes c.val e.val q.val t.free
    let stale := Reg.coStale (clOf c.val) (posOf c.val)
    (s.dev.coreState c.val ≠ coFenced → spill = none → takes = true → t.epoch.toNat = s.dev.engEpoch c.val e.val →
      Settles (.tokenArrival c e q t) s fun d => d.iq c.val e.val q.val = s.dev.iq c.val e.val q.val ++ [t] ∧
        d.iqClosed c.val e.val q.val = tokMarker t ∧ (∀ a, ¬ dripReg a → d.rd a = s.dev.rd a) ∧ s.dev.keepsBut [.regs, .fab] d) ∧
    (s.dev.coreState c.val ≠ coFenced → spill = none → takes = true → t.epoch.toNat ≠ s.dev.engEpoch c.val e.val →
      Settles (.tokenArrival c e q t) s fun d => d.rd stale = satInc 32 1 (s.dev.rd stale) ∧
        s.dev.regsBut [stale] d ∧ s.dev.keepsBut [.regs] d) ∧
    (∀ j sp, spill = some (j, sp) → takes = true → Settles (.tokenArrival c e q t) s fun d =>
      d.fab.engs = s.dev.fab.engs ∧ (∃ y, d.spill (clOf c.val) j = some y ∧ y.toks = sp.toks ++ [⟨0, 0, t, [], none, 0⟩]) ∧
      (∀ a, ¬ dripReg a → d.rd a = s.dev.rd a) ∧ s.dev.keepsBut [.regs, .stk, .fab] d) ∧
    (s.dev.coreState c.val = coFenced ∨ takes = false → Settles (.tokenArrival c e q t) s fun d => d = s.dev) := by
  intro spill takes stale
  refine ⟨fun hf hspill htakes hepoch => ?_, fun hf hspill htakes hepoch => ?_, fun j sp hspill htakes => ?_, fun hnot => ?_⟩ <;>
    refine settles_live (exec_tokenArrival ..) hs ?_
  · have hroom := (Dev.iqTakes_noSpill hspill).symm.trans htakes
    have hput := Dev.iqArrive_taken hf hroom hepoch
    rw [Dev.iqDeliver_noSpill hspill]
    exact ⟨(hput.iq ..).trans (Dev.iqPut_iq ..), (hput.iqClosed ..).trans (Dev.iqPut_closed (Dev.iqRoom_open hroom)),
      (Dev.offDrip.of_regs (Dev.iqPut_regs ..)).trans hput.regs, Dev.iqArrive_keeps (keepsBut_keeps _ _) (keepsBut_refl _ _)⟩
  · rw [Dev.iqDeliver_noSpill hspill, Dev.iqArrive_stale hf ((Dev.iqTakes_noSpill hspill).symm.trans htakes) hepoch]
    exact ⟨Dev.rd_count .., fun a ha => Dev.rd_count_ne _ (List.ne_of_not_mem_cons ha),
      Dev.count_keeps (keepsBut_keeps _ _) (keepsBut_refl _ _)⟩
  · rw [Dev.iqDeliver_spill hspill htakes]
    obtain ⟨x, hx⟩ := s.dev.segPush_fab (clOf c.val) j sp ⟨0, 0, t, [], none, 0⟩
    exact ⟨by rw [hx], ⟨_, Dev.segPush_spill .., rfl⟩, fun a ha => Dev.segPush_rd _ _ _ _ _ ha,
      Dev.segPush_keeps (keepsBut_keeps _ _) (keepsBut_refl _ _)⟩
  · exact Dev.iqDeliver_refused hnot

end Sys2Proof.Machine
end

section
/-!
COUNT tokens at a DATA counter (R165, R166, R193).
-/

namespace Sys2Proof.Machine

open Sys2Proof

theorem exec_countToken (s : State) (c : CoreId) (k : Fin 16) (v : Word) (deg : Bool) :
    exec (.countToken c k v deg) s = s.live fun d =>
      if d.coreState c.val = coRun then (d.countTok (d.cuRef c.val k.val) v.toNat deg).settleDrip else d := rfl

theorem countToken_settles_of {s : State} {c : CoreId} {k : Fin 16} {v : Word} {deg : Bool} {P : Dev → Prop} (hs : s.dev.alive = true)
    (hrun : s.dev.coreState c.val = coRun) (h : P (s.dev.countTok (s.dev.cuRef c.val k.val) v.toNat deg)) :
    Settles (.countToken c k v deg) s P :=
  gives_live (exec_countToken ..) hs (by rw [if_pos hrun]; exact ⟨_, rfl, h⟩)

section
variable {d : Dev} {n : CtrRef}

@[simp] theorem Dev.setCounter_counter (d : Dev) (n : CtrRef) (r : CounterRec) : (d.setCounter n r).counter n = r := by
  unfold Dev.setCounter Dev.counter
  dsimp only
  rw [Dev.setCore_core]
  exact SMap.get_set_same _ _ _

theorem Dev.counter_of_counters {e : Dev} (h : (e.core n.core).counters = (d.core n.core).counters) : e.counter n = d.counter n := by
  unfold Dev.counter; rw [h]

/-- A trigger of a DATA counter that counts and has more to come counts down (Table 5.6). -/
theorem Dev.trigger_countsDown (v tag : Nat) (free : Bool) (ev : Nat) (deg : Bool) (hmode : (d.counter n).mode = 2)
    (hwait : (d.counter n).waiting = false) (hcount : 1 < (d.counter n).count) :
    d.trigger n v tag free ev deg = d.setCounter n { d.counter n with count := (d.counter n).count - 1 } := by
  unfold Dev.trigger
  simp [hmode, hwait, Nat.not_le.mpr hcount]

/-- The one trigger that a counter holds, once it counts again (R166). -/
theorem Dev.applyHeld_one {v tag : Nat} {deg : Bool} (hheld : (d.counter n).held = [(v, tag, deg)]) (hwait : (d.counter n).waiting = false) :
    d.applyHeld n 1 = (d.setCounter n { d.counter n with held := [] }).trigger n v tag true 0 deg := by
  rw [Dev.applyHeld]
  simp only [hheld]
  rw [if_neg (by simp [hwait])]
  rfl

/-- A count that is not 0 is loaded into the counter, and the triggers held till then act (R166). -/
theorem Dev.countTok_loads {v : Nat} (deg : Bool) (hmode : (d.counter n).mode = 2) (hwait : (d.counter n).waiting = true) (hv : v ≠ 0) :
    d.countTok n v deg = (d.setCounter n { d.counter n with count := v, start := v, waiting := false, deg := deg }).applyHeld n
      (d.counter n).held.length := by
  unfold Dev.countTok
  dsimp only
  rw [if_pos ⟨hmode, hwait⟩, if_neg hv]

/-- A count of 0 makes the counter emit END at once, and it goes on waiting (R166). -/
theorem Dev.countTok_zero (deg : Bool) (hmode : (d.counter n).mode = 2) (hwait : (d.counter n).waiting = true) :
    d.countTok n 0 deg = d.emitCtl n 2 0 true 0 deg := by
  unfold Dev.countTok
  dsimp only
  rw [if_pos ⟨hmode, hwait⟩, if_pos rfl]

/-- What a section's end leaves: every core and every engine. -/
theorem Dev.sectionEnd_fab (d : Dev) (n : CtrRef) : (d.sectionEnd n).fab.cores = d.fab.cores ∧ (d.sectionEnd n).fab.engs = d.fab.engs := by
  have hreq : ∀ g r, (d.switchReq g r).fab.cores = d.fab.cores ∧ (d.switchReq g r).fab.engs = d.fab.engs := fun g r => by
    unfold Dev.switchReq Dev.setGrp
    dsimp only
    repeat' split
    · exact ⟨rfl, rfl⟩
    · exact ⟨rfl, rfl⟩
    · rw [Dev.logInternal_fab]; exact ⟨rfl, rfl⟩
  unfold Dev.sectionEnd
  extract_lets g x i
  repeat' split
  · exact hreq _ _
  all_goals exact ⟨rfl, rfl⟩

/-- END with payload v of a free-class counter that feeds circuits, as it enters the counter unit's output (Tables 5.1, 5.6). -/
def Dev.endTok (d : Dev) (n : CtrRef) (deg : Bool) : CuTok :=
  ⟨mkToken (n.num * 2 ^ 32 + 2 * 2 ^ 36) true n.epoch 0 2 deg 0, (d.ctrCircs n).map fun x => x.key⟩

theorem Dev.emitCtl_end (deg : Bool) (hcircs : d.ctrCircs n ≠ []) :
    d.emitCtl n 2 0 true 0 deg = (d.cuPut n.core (d.endTok n deg)).sectionEnd n := by
  have hne : (d.ctrCircs n).isEmpty = false := List.isEmpty_eq_false_iff.mpr hcircs
  simp [Dev.emitCtl, Dev.endTok, hne]

/-- A free-class control token waits to enter the counter unit's output, and what waits there goes on as far as there is room. -/
theorem Dev.cuPut_free {c : Nat} {t : CuTok} (ht : t.tok.free = true) : d.cuPut c t =
    (d.setCore c { d.core c with cuHeld := (d.core c).cuHeld ++ [t] }).cuFeed c ((d.core c).cuHeld.length + 1) := if_pos ht

/-- What waits before a full segment stays there (R193). -/
theorem Dev.cuFeed_full {c j n : Nat} {sp : Spill} (hopen : d.openSpillOf (clOf c) (cuEndp (clOf c) (d.logicalOf c)) = some (j, sp))
    (hfull : d.segCap (clOf c) ≤ sp.toks.length) : d.cuFeed c (n + 1) = d := by
  rw [Dev.cuFeed]
  simp only [hopen, if_neg (Nat.not_lt.mpr hfull)]
  split <;> rfl

/-- A free-class control token enters the output queue of a counter unit before which nothing waits, where no spill is open (R191). -/
theorem Dev.cuPut_enters {c : Nat} {t : CuTok} (ht : t.tok.free = true) (hheld : (d.core c).cuHeld = [])
    (hopen : d.openSpillOf (clOf c) (cuEndp (clOf c) (d.logicalOf c)) = none) :
    d.cuPut c t = ((d.setCore c { d.core c with cuHeld := [t] }).setCore c
      { d.core c with cuHeld := [], cuOut := (d.core c).cuOut ++ [t] }).dripTransfer (cuEndp (clOf c) (d.logicalOf c)) := by
  have hopen' : (d.setCore c { d.core c with cuHeld := [t] }).openSpillOf (clOf c) (cuEndp (clOf c)
    ((d.setCore c { d.core c with cuHeld := [t] }).logicalOf c)) = none := hopen
  rw [Dev.cuPut_free ht, hheld, List.length_nil, List.nil_append, Dev.cuFeed]
  simp only [Dev.setCore_core, hopen']
  rfl

/-- One waits before a full segment (R193). -/
theorem Dev.cuPut_waits {c j : Nat} {t : CuTok} {sp : Spill} (ht : t.tok.free = true)
    (hopen : d.openSpillOf (clOf c) (cuEndp (clOf c) (d.logicalOf c)) = some (j, sp)) (hfull : d.segCap (clOf c) ≤ sp.toks.length) :
    d.cuPut c t = d.setCore c { d.core c with cuHeld := (d.core c).cuHeld ++ [t] } :=
  (Dev.cuPut_free ht).trans (Dev.cuFeed_full (d := d.setCore c _) hopen hfull)

theorem Dev.sectionEnd_core (d : Dev) (n : CtrRef) (c : Nat) : (d.sectionEnd n).core c = d.core c := by
  unfold Dev.core; rw [(d.sectionEnd_fab n).1]

end

/-- The second clause of O36: a COUNT token that comes to a waiting DATA counter. -/
theorem countToken_settles {s : State} (c : CoreId) (k : Fin 16) (v : Word) (deg : Bool) (hs : s.dev.alive = true)
    (hrun : s.dev.coreState c.val = coRun) :
    let n := s.dev.cuRef c.val k.val
    let r := s.dev.counter n
    r.mode = 2 → r.waiting = true →
    let open_ := s.dev.openSpillOf (clOf c.val) (cuEndp (clOf c.val) (s.dev.logicalOf c.val))
    let ctl : CuTok := ⟨mkToken (k.val * 2 ^ 32 + 2 * 2 ^ 36) true n.epoch 0 2 deg 0, (s.dev.ctrCircs n).map fun x => x.key⟩
    (r.held = [] → v ≠ 0 → Settles (.countToken c k v deg) s fun d =>
      d.counter n = { r with count := v.toNat, start := v.toNat, waiting := false, deg := deg } ∧
      d.fab.engs = s.dev.fab.engs ∧ s.dev.keepsBut [.fab] d) ∧
    (∀ w tag g, r.held = [(w, tag, g)] → 1 < v.toNat → Settles (.countToken c k v deg) s fun d =>
      d.counter n = { r with count := v.toNat - 1, start := v.toNat, waiting := false, held := [], deg := deg } ∧
      d.fab.engs = s.dev.fab.engs ∧ s.dev.keepsBut [.fab] d) ∧
    (v = 0 → s.dev.ctrCircs n ≠ [] → open_ = none → (s.dev.core c.val).cuHeld = [] →
      Settles (.countToken c k v deg) s fun d => d.counter n = r ∧
        (d.core c.val).cuOut = (s.dev.core c.val).cuOut ++ [ctl] ∧
        d.fab.engs = s.dev.fab.engs ∧ s.dev.keepsBut [.regs, .log, .fab] d) ∧
    (∀ j sp, v = 0 → s.dev.ctrCircs n ≠ [] → open_ = some (j, sp) → s.dev.segCap (clOf c.val) ≤ sp.toks.length →
      Settles (.countToken c k v deg) s fun d => d.counter n = r ∧
        (d.core c.val).cuHeld = (s.dev.core c.val).cuHeld ++ [ctl] ∧ (d.core c.val).cuOut = (s.dev.core c.val).cuOut ∧
        d.fab.engs = s.dev.fab.engs ∧ s.dev.keepsBut [.regs, .log, .fab] d) := by
  intro n r hmode hwait open_ ctl
  refine ⟨fun hheld hv => ?_, fun w tag g hheld hv => ?_, fun hv hcircs hopen hheld => ?_, fun j sp hv hcircs hopen hfull => ?_⟩ <;>
    refine countToken_settles_of hs hrun ?_
  · have hloads := Dev.countTok_loads (d := s.dev) deg hmode hwait (v := v.toNat) (by simpa [BitVec.toNat_eq] using hv)
    rw [hloads, List.length_eq_zero_iff.mpr hheld]
    exact ⟨Dev.setCounter_counter .., rfl, Dev.setCounter_keeps (keepsBut_keeps _ _) (keepsBut_refl _ _)⟩
  · have hloads := Dev.countTok_loads (d := s.dev) deg hmode hwait (v := v.toNat) (by omega)
    rw [hloads, show (s.dev.counter (s.dev.cuRef c.val k.val)).held = [(w, tag, g)] from hheld, List.length_singleton,
      Dev.applyHeld_one (v := w) (tag := tag) (deg := g) (by rw [Dev.setCounter_counter]; exact hheld) (by rw [Dev.setCounter_counter]),
      Dev.trigger_countsDown _ _ _ _ _ (by simpa using hmode) (by simp) (by simpa using hv)]
    simp only [Dev.setCounter_counter]
    exact ⟨rfl, rfl, Dev.setCounter_keeps (keepsBut_keeps _ _) (Dev.setCounter_keeps (keepsBut_keeps _ _)
      (Dev.setCounter_keeps (keepsBut_keeps _ _) (keepsBut_refl _ _)))⟩
  · have hput := Dev.cuPut_enters (d := s.dev) (c := c.val) (t := s.dev.endTok n deg) rfl hheld hopen
    have hend := (Dev.countTok_zero (d := s.dev) deg hmode hwait).trans (Dev.emitCtl_end deg hcircs)
    rw [show v.toNat = 0 from by rw [hv]; rfl, hend, show n.core = c.val from rfl, hput]
    refine ⟨Dev.counter_of_counters ?_, ?_, (Dev.sectionEnd_fab _ n).2.trans (Dev.dripTransfer_timersOnly _ _).engs, ?_⟩
    · rw [Dev.sectionEnd_core, (Dev.dripTransfer_timersOnly _ _).core, show n.core = c.val from rfl, Dev.setCore_core]
    · rw [Dev.sectionEnd_core, (Dev.dripTransfer_timersOnly _ _).core, Dev.setCore_core]; rfl
    · have k := keepsBut_keeps [.regs, .log, .fab] s.dev
      exact Dev.sectionEnd_keeps k (Dev.dripTransfer_keeps (k.mono rfl) (Dev.setCore_keeps (k.mono rfl)
        (Dev.setCore_keeps (k.mono rfl) (keepsBut_refl _ _))))
  · have hput := Dev.cuPut_waits (d := s.dev) (c := c.val) (t := s.dev.endTok n deg) rfl hopen hfull
    have hend := (Dev.countTok_zero (d := s.dev) deg hmode hwait).trans (Dev.emitCtl_end deg hcircs)
    rw [show v.toNat = 0 from by rw [hv]; rfl, hend, show n.core = c.val from rfl, hput]
    refine ⟨Dev.counter_of_counters ?_, ?_, ?_, (Dev.sectionEnd_fab _ n).2, ?_⟩
    · rw [Dev.sectionEnd_core, show n.core = c.val from rfl, Dev.setCore_core]
    · rw [Dev.sectionEnd_core, Dev.setCore_core]; rfl
    · rw [Dev.sectionEnd_core, Dev.setCore_core]
    · have k := keepsBut_keeps [.regs, .log, .fab] s.dev
      exact Dev.sectionEnd_keeps k (Dev.setCore_keeps (k.mono rfl) (keepsBut_refl _ _))

end Sys2Proof.Machine
end

section
/-!
A link's wheel (R155 to R157, R161, R191): the position it serves, and where the token goes.
-/

namespace Sys2Proof.Machine

open Sys2Proof

theorem exec_wheelCrossing (s : State) (link : BitVec 32) : exec (.wheelCrossing link) s = s.live fun d => d.crossLink link.toNat := rfl

/-- A link that carries tokens turns its wheel and settles them. -/
theorem wheelCrossing_settles_of {s : State} {link : BitVec 32} {P : Dev → Prop} (hs : s.dev.alive = true)
    (hcarries : s.dev.linkCarries link.toNat = true) (h : P (s.dev.wheelCross link.toNat)) : Settles (.wheelCrossing link) s P :=
  gives_live (exec_wheelCrossing ..) hs ⟨_, if_pos hcarries, h⟩

theorem findSome?_range_first {α : Type} {f : Nat → Option α} {n i : Nat} {b : α} (hi : i < n) (hnone : ∀ j < i, f j = none)
    (hsome : f i = some b) : (List.range n).findSome? f = some b := by
  induction n with
  | zero => omega
  | succ n ih =>
    rw [List.range_succ, List.findSome?_append]
    rcases Nat.lt_succ_iff_lt_or_eq.mp hi with hlt | rfl
    · rw [ih hlt]; rfl
    · rw [List.findSome?_eq_none_iff.mpr fun j hj => hnone j (List.mem_range.mp hj)]
      simp [hsome]

section
variable {d : Dev} {l : Nat} {w : Wheel} {x : Circuit} {h : Nat} {t : Token} {ts : List Token}

/-- A wheel in service changed. -/
def Dev.setWpos (d : Dev) (l : Nat) (r : WheelPos) : Dev :=
  { d with fab := { d.fab with wpos := SMap.set (fun _ => ⟨0, none⟩) d.fab.wpos l r } }

theorem Dev.setWpos_wpos (d : Dev) (l : Nat) (r : WheelPos) : (d.setWpos l r).wpos l = r := SMap.get_set_same _ _ _

/-- The wheel after position j has sent a token of circuit x. -/
def Dev.turned (d : Dev) (l j : Nat) (x : Circuit) : Dev :=
  d.setWpos l ⟨(j + 1) % 16, if x.free then some x.key else (d.wpos l).last⟩

/-- The first position from the pointer on that has a token to send is served (R156). -/
theorem Dev.wheelCross_first {i : Nat} (hw : (d.fab.wheels.find? fun y => y.link = l) = some w) (hi : i < 16)
    (hnone : ∀ j < i, d.ownerReady l w.codes (((d.wpos l).ptr + j) % 16) = none)
    (hsome : d.ownerReady l w.codes (((d.wpos l).ptr + i) % 16) = some (x, h)) :
    d.wheelCross l = (d.turned l (((d.wpos l).ptr + i) % 16) x).cross x h := by
  unfold Dev.wheelCross
  rw [hw]
  dsimp only
  rw [findSome?_range_first (b := (((d.wpos l).ptr + i) % 16, x, h)) hi (fun j hj => by rw [hnone j hj]; rfl) (by rw [hsome]; rfl)]
  rfl

/-- A wheel none of whose positions has a token to send stands. -/
theorem Dev.wheelCross_none (hw : (d.fab.wheels.find? fun y => y.link = l) = some w)
    (hnone : ∀ j < 16, d.ownerReady l w.codes (((d.wpos l).ptr + j) % 16) = none) : d.wheelCross l = d := by
  unfold Dev.wheelCross
  rw [hw]
  dsimp only
  rw [List.findSome?_eq_none_iff.mpr fun j hj => by rw [hnone j (List.mem_range.mp hj)]; rfl]

theorem Circuit.link_of_hopsOn (hh : h ∈ x.hopsOn l) : x.link h = l := of_decide_eq_true (List.mem_filter.mp hh).2

/-- The one chosen of those sorted is one of them. -/
theorem sortedFirst_mem {ys : List (Circuit × Nat)} {last : Option Nat} {y : Circuit × Nat} (hy : (match last with
    | some k => (match ys.find? fun p => decide (k < p.1.key) with
      | some p => some p
      | none => ys.head?)
    | none => ys.head?) = some y) : y ∈ ys := by
  repeat' split at hy
  · cases hy; exact List.mem_of_find?_eq_some (by assumption)
  · exact List.mem_of_mem_head? hy
  · exact List.mem_of_mem_head? hy

/-- What a position sends crosses its link. -/
theorem Dev.ownerReady_link {codes j : Nat} (hr : d.ownerReady l codes j = some (x, h)) : x.link h = l := by
  unfold Dev.ownerReady at hr
  dsimp only at hr
  split at hr
  · obtain ⟨y, -, hy⟩ := List.exists_of_findSome?_eq_some hr
    split at hy
    · cases hy
    · obtain ⟨k, hk, hy⟩ := List.exists_of_findSome?_eq_some hy
      split at hy
      · cases hy; exact Circuit.link_of_hopsOn hk
      · cases hy
  · split at hr
    · rename_i hfree
      obtain ⟨y, -, hy⟩ := List.mem_filterMap.mp (List.mem_mergeSort.mp (sortedFirst_mem hr))
      split at hy
      · obtain ⟨k, hk, hy⟩ := Option.map_eq_some_iff.mp hy
        cases hy
        exact Circuit.link_of_hopsOn (List.mem_of_find?_eq_some hk)
      · cases hy
    · cases hr

/-! A token that leaves its hop -/

theorem Dev.headAt_of_waitAt (hsrc : 0 < h ∨ x.src.kind ≠ 2) (hw : d.waitAt x.key h = t :: ts) : d.headAt x h = some t := by
  unfold Dev.headAt
  rw [if_neg (by omega), hw]
  rfl

theorem Dev.takeHead_dropHead (hsrc : 0 < h ∨ x.src.kind ≠ 2) : d.takeHead x h = d.dropHead x h := if_neg (by omega)

/-- The device as token t, the head of hop h of a circuit, has left that hop (R137, R176). -/
def Dev.left (d : Dev) (x : Circuit) (h : Nat) (t : Token) : Dev :=
  if linkKind (x.link h) = 2 then (d.dropHead x h).noteSent x t else d.dropHead x h

/-- A token that neither a statistics unit sees nor a full crossing FIFO holds leaves its hop for a flit (R145). -/
theorem Dev.cross_flit {k : Nat} (hw : d.waitAt x.key h = t :: ts) (hsrc : 0 < h ∨ x.src.kind ≠ 2) (hstat : x.stat = false ∨ x.statHop ≠ some h)
    (hfifo : x.free = true ∨ d.fifoFull x (x.link h) = false) (hk : flitOn (x.link h) = some k) :
    d.cross x h = (d.left x h t).setFlit k ((d.left x h t).flitOf k ++
      [{ DripTok.at x.key (h + 1) t with pos := (((d.left x h t).wpos (x.link h)).ptr + 15) % 16 }]) := by
  unfold Dev.cross
  rw [Dev.headAt_of_waitAt hsrc hw]
  have hfull : (!x.free && !tokMarker t && d.fifoFull x (x.link h)) = false := by rcases hfifo with hf | hf <;> simp [hf]
  have hseen : (x.stat && decide (x.statHop = some h)) = false := by rcases hstat with hf | hf <;> simp [hf]
  simp only [hfull, hseen, hk, Dev.takeHead_dropHead hsrc, Bool.false_eq_true, if_false]
  rfl

/-- It leaves its hop for the next one, or the circuit's end. -/
theorem Dev.cross_arrive (hw : d.waitAt x.key h = t :: ts) (hsrc : 0 < h ∨ x.src.kind ≠ 2) (hstat : x.stat = false ∨ x.statHop ≠ some h)
    (hfifo : x.free = true ∨ d.fifoFull x (x.link h) = false) (hk : flitOn (x.link h) = none) :
    d.cross x h = (d.left x h t).arrive x (h + 1) t := by
  unfold Dev.cross
  rw [Dev.headAt_of_waitAt hsrc hw]
  have hfull : (!x.free && !tokMarker t && d.fifoFull x (x.link h)) = false := by rcases hfifo with hf | hf <;> simp [hf]
  have hseen : (x.stat && decide (x.statHop = some h)) = false := by rcases hstat with hf | hf <;> simp [hf]
  simp only [hfull, hseen, hk, Dev.takeHead_dropHead hsrc, Bool.false_eq_true, if_false]
  rfl

/-- Of the fabric, only Drip's timers, what waits, and what circuits have sent differ once a token has left its hop. -/
theorem Dev.left_fab (d : Dev) (x : Circuit) (h : Nat) (t : Token) :
    ∃ ds ws cs, (d.left x h t).fab = { d.fab with drips := ds, wait := ws, cst := cs } := by
  obtain ⟨ds, hds⟩ := (d.storeTransfer_timersOnly x h false).fab
  obtain ⟨ws, hdrop⟩ : ∃ ws, (d.dropHead x h).fab = { d.fab with drips := ds, wait := ws } := by
    unfold Dev.dropHead Dev.setWaiting
    dsimp only
    rw [hds]
    exact ⟨_, rfl⟩
  have hnote : ∀ e : Dev, ∃ cs, (e.noteSent x t).fab = { e.fab with cst := cs } := fun e => by
    unfold Dev.noteSent
    split
    · exact ⟨_, rfl⟩
    · dsimp only; split <;> exact ⟨_, rfl⟩
  unfold Dev.left
  split
  · obtain ⟨cs, hcs⟩ := hnote (d.dropHead x h)
    exact ⟨ds, ws, cs, by rw [hcs, hdrop]⟩
  · exact ⟨ds, ws, _, hdrop⟩

theorem Dev.dropHead_sameSpills (d : Dev) (x : Circuit) (h : Nat) : d.sameSpills (d.dropHead x h) :=
  (d.storeTransfer_timersOnly x h false).sameSpills.trans (.of_fab rfl rfl)

theorem Dev.noteSent_sameSpills (d : Dev) (x : Circuit) (t : Token) : d.sameSpills (d.noteSent x t) := by
  unfold Dev.noteSent
  split
  · exact .of_fab rfl rfl
  · dsimp only; split <;> exact .of_fab rfl rfl

theorem Dev.noteSent_waitAt (d : Dev) (x : Circuit) (t : Token) (k j : Nat) : (d.noteSent x t).waitAt k j = d.waitAt k j := by
  unfold Dev.noteSent
  split
  · rfl
  · dsimp only; split <;> rfl

theorem Dev.dropHead_offDrip (d : Dev) (x : Circuit) (h : Nat) : d.offDrip (d.dropHead x h) := (d.storeTransfer_timersOnly x h false).regs

theorem Dev.left_sameSpills (d : Dev) (x : Circuit) (h : Nat) (t : Token) : d.sameSpills (d.left x h t) := by
  unfold Dev.left
  split
  · exact (d.dropHead_sameSpills x h).trans (Dev.noteSent_sameSpills ..)
  · exact d.dropHead_sameSpills x h

theorem Dev.left_offDrip (d : Dev) (x : Circuit) (h : Nat) (t : Token) : d.offDrip (d.left x h t) := by
  unfold Dev.left
  split
  · exact (d.dropHead_offDrip x h).trans fun a _ => Dev.noteSent_rd ..
  · exact d.dropHead_offDrip x h

/-- The tokens behind one that leaves its hop wait on. -/
theorem Dev.left_waitAt (d : Dev) (x : Circuit) (h : Nat) (t : Token) : (d.left x h t).waitAt x.key h = (d.waitAt x.key h).tail := by
  unfold Dev.left
  split
  · rw [Dev.noteSent_waitAt, Dev.dropHead_waitAt]
  · exact Dev.dropHead_waitAt ..

/-- Tokens that wait elsewhere stay. -/
theorem Dev.setWaiting_waitAt_ne (d : Dev) {k h k' h' : Nat} (ws : List Waiting) (hne : k' * 256 + h' ≠ k * 256 + h) :
    (d.setWaiting k h ws).waitAt k' h' = d.waitAt k' h' := by
  unfold Dev.waitAt Dev.waiting Dev.setWaiting
  dsimp only
  rw [SMap.get_set_ne _ _ hne]

theorem Dev.left_waitAt_next (d : Dev) (x : Circuit) (h : Nat) (t : Token) :
    (d.left x h t).waitAt x.key (h + 1) = d.waitAt x.key (h + 1) := by
  have hdrop : (d.dropHead x h).waitAt x.key (h + 1) = d.waitAt x.key (h + 1) :=
    (Dev.setWaiting_waitAt_ne _ _ (by omega)).trans ((d.storeTransfer_timersOnly x h false).waitAt ..)
  unfold Dev.left
  split
  · rw [Dev.noteSent_waitAt, hdrop]
  · exact hdrop

/-! Where the token goes -/

theorem Dev.arrive_hop (hlt : h < x.route.length) (hf : d.linkFenced (x.link h) = false) : d.arrive x h t = d.putHop x h t := by
  unfold Dev.arrive
  rw [if_pos hlt, if_neg (by simp [hf])]

/-- A token at the end of a circuit that ends at an engine (Table 12.7). -/
theorem Dev.arrive_engine (hend : h = x.route.length) (hk : x.dst.kind = 1) :
    d.arrive x h t = d.iqDeliver (d.physCore x.dst.cl x.dst.core) x.dst.eng x.dst.idx t := by
  have hcounter : x.counterEnd = false := by simp [Circuit.counterEnd, hk]
  unfold Dev.arrive Dev.deliverTok
  rw [if_neg (by omega), if_neg (by simp [hcounter])]
  exact if_pos hk

theorem Dev.putHop_noSpill (hs : d.spillAt x h = none) : d.putHop x h t = (d.storeTransfer x h true).placeAt x.key h t := by
  unfold Dev.putHop
  rw [hs]

theorem Dev.putHop_spill {cl j : Nat} {sp : Spill} (hs : d.spillAt x h = some (cl, j, sp)) :
    d.putHop x h t = d.segPush cl j sp (.at x.key h t) := by
  unfold Dev.putHop
  rw [hs]

theorem Dev.putHop_wpos (d : Dev) (x : Circuit) (h : Nat) (t : Token) : (d.putHop x h t).fab.wpos = d.fab.wpos := by
  cases hs : d.spillAt x h with
  | none =>
    rw [Dev.putHop_noSpill hs]
    exact (d.storeTransfer_timersOnly x h true).wpos
  | some p =>
    obtain ⟨cl, j, sp⟩ := p
    rw [Dev.putHop_spill hs]
    obtain ⟨y, hy⟩ := d.segPush_fab cl j sp (.at x.key h t)
    rw [hy]

theorem Dev.segPush_waitAt (d : Dev) (cl j : Nat) (sp : Spill) (u : DripTok) (k h : Nat) : (d.segPush cl j sp u).waitAt k h = d.waitAt k h := by
  obtain ⟨y, hy⟩ := d.segPush_fab cl j sp u
  unfold Dev.waitAt Dev.waiting
  rw [hy]

theorem Dev.putHop_waitAt_ne {k h' : Nat} (hne : k * 256 + h' ≠ x.key * 256 + h) : (d.putHop x h t).waitAt k h' = d.waitAt k h' := by
  cases hs : d.spillAt x h with
  | none =>
    rw [Dev.putHop_noSpill hs]
    exact (Dev.setWaiting_waitAt_ne _ _ hne).trans ((d.storeTransfer_timersOnly x h true).waitAt ..)
  | some p =>
    obtain ⟨cl, j, sp⟩ := p
    rw [Dev.putHop_spill hs, Dev.segPush_waitAt]

end

end Sys2Proof.Machine
end

section
/-!
The wheel's crossings of O36: to the next hop, into a flit, and to an engine.
-/

namespace Sys2Proof.Machine

open Sys2Proof

/-- A token t, the head of hop h of circuit x, that neither a counter unit sends, nor a statistics unit sees, nor a full crossing FIFO
holds. -/
structure Dev.PlainHead (d : Dev) (x : Circuit) (h : Nat) (t : Token) (ts : List Token) : Prop where
  waits : d.waitAt x.key h = t :: ts
  source : 0 < h ∨ x.src.kind ≠ 2
  unseen : x.stat = false ∨ x.statHop ≠ some h
  fits : x.free = true ∨ d.fifoFull x (x.link h) = false

section
variable {d : Dev} {x : Circuit} {h : Nat} {t : Token} {ts : List Token}

theorem Dev.PlainHead.left_waitAt (hp : d.PlainHead x h t ts) : (d.left x h t).waitAt x.key h = ts := by
  rw [Dev.left_waitAt, hp.waits]
  rfl

theorem Dev.left_wpos (d : Dev) (x : Circuit) (h : Nat) (t : Token) : (d.left x h t).fab.wpos = d.fab.wpos := by
  obtain ⟨ds, ws, cs, hfab⟩ := d.left_fab x h t
  rw [hfab]

/-- A head crosses to the next hop, where no spill is open. -/
theorem Dev.cross_hop (hp : d.PlainHead x h t ts) (hk : flitOn (x.link h) = none) (hlt : h + 1 < x.route.length)
    (hf : d.linkFenced (x.link (h + 1)) = false) (hs : d.spillAt x (h + 1) = none) :
    (d.cross x h).waitAt x.key h = ts ∧ (d.cross x h).waitAt x.key (h + 1) = d.waitAt x.key (h + 1) ++ [t] ∧
      (d.cross x h).fab.wpos = d.fab.wpos ∧ d.offDrip (d.cross x h) := by
  have hs' := ((d.left_sameSpills x h t).spillAt x (h + 1)).trans hs
  rw [Dev.cross_arrive hp.waits hp.source hp.unseen hp.fits hk, Dev.arrive_hop hlt (((d.left_offDrip x h t).linkFenced _).trans hf)]
  refine ⟨?_, ?_, (Dev.putHop_wpos ..).trans (Dev.left_wpos ..), (d.left_offDrip x h t).trans fun a ha => Dev.putHop_rd _ _ _ _ ha⟩
  · rw [Dev.putHop_waitAt_ne (by omega), hp.left_waitAt]
  · rw [Dev.putHop_waitAt _ _ _ _ hs', Dev.left_waitAt_next]

/-- A head crosses to the tail of the open spill that takes what comes to the next hop (R191). -/
theorem Dev.cross_spill {cl j : Nat} {sp : Spill} (hp : d.PlainHead x h t ts) (hk : flitOn (x.link h) = none) (hlt : h + 1 < x.route.length)
    (hf : d.linkFenced (x.link (h + 1)) = false) (hs : d.spillAt x (h + 1) = some (cl, j, sp)) :
    (d.cross x h).waitAt x.key h = ts ∧ (d.cross x h).waitAt x.key (h + 1) = d.waitAt x.key (h + 1) ∧
      (d.cross x h).fab.wpos = d.fab.wpos ∧ ∃ y, (d.cross x h).spill cl j = some y ∧ y.toks = sp.toks ++ [.at x.key (h + 1) t] := by
  have hs' := ((d.left_sameSpills x h t).spillAt x (h + 1)).trans hs
  rw [Dev.cross_arrive hp.waits hp.source hp.unseen hp.fits hk, Dev.arrive_hop hlt (((d.left_offDrip x h t).linkFenced _).trans hf)]
  refine ⟨?_, ?_, (Dev.putHop_wpos ..).trans (Dev.left_wpos ..), ?_⟩
  · rw [Dev.putHop_waitAt_ne (by omega), hp.left_waitAt]
  · rw [Dev.putHop_spill hs', Dev.segPush_waitAt, Dev.left_waitAt_next]
  · rw [Dev.putHop_spill hs']
    exact ⟨_, Dev.segPush_spill .., rfl⟩

/-- A head crosses into a flit (R145). -/
theorem Dev.cross_intoFlit {k : Nat} (hp : d.PlainHead x h t ts) (hk : flitOn (x.link h) = some k) :
    (d.cross x h).waitAt x.key h = ts ∧
      (d.cross x h).flitOf k = d.flitOf k ++ [{ DripTok.at x.key (h + 1) t with pos := ((d.wpos (x.link h)).ptr + 15) % 16 }] ∧
      (d.cross x h).fab.wpos = d.fab.wpos ∧ d.offDrip (d.cross x h) := by
  obtain ⟨ds, ws, cs, hfab⟩ := d.left_fab x h t
  have hflit : (d.left x h t).flitOf k = d.flitOf k := by unfold Dev.flitOf; rw [hfab]
  have hpos : (d.left x h t).wpos (x.link h) = d.wpos (x.link h) := by unfold Dev.wpos; rw [Dev.left_wpos]
  rw [Dev.cross_flit hp.waits hp.source hp.unseen hp.fits hk, hflit, hpos]
  exact ⟨hp.left_waitAt, SMap.get_set_same _ _ _, Dev.left_wpos .., d.left_offDrip x h t⟩

/-- A head crosses into the input queue of the engine at which its circuit ends. -/
theorem Dev.cross_engine (hp : d.PlainHead x h t ts) (hk : flitOn (x.link h) = none) (hend : h + 1 = x.route.length) (hdst : x.dst.kind = 1)
    (hf : d.coreState (d.physCore x.dst.cl x.dst.core) ≠ coFenced)
    (hs : d.iqSpill (d.physCore x.dst.cl x.dst.core) x.dst.eng x.dst.idx t.free = none)
    (htakes : d.iqTakes (d.physCore x.dst.cl x.dst.core) x.dst.eng x.dst.idx t.free = true)
    (he : t.epoch.toNat = d.engEpoch (d.physCore x.dst.cl x.dst.core) x.dst.eng) :
    let c := d.physCore x.dst.cl x.dst.core
    (d.cross x h).waitAt x.key h = ts ∧ (d.cross x h).iq c x.dst.eng x.dst.idx = d.iq c x.dst.eng x.dst.idx ++ [t] ∧
      (d.cross x h).fab.wpos = d.fab.wpos ∧ d.offDrip (d.cross x h) := by
  intro c
  obtain ⟨ds, ws, cs, hfab⟩ := d.left_fab x h t
  have hoff := d.left_offDrip x h t
  have heng : ∀ i, (d.left x h t).eng c i = d.eng c i := fun i => by unfold Dev.eng; rw [hfab]
  have hctx : d.SameContexts (d.left x h t) := ⟨hoff, by rw [hfab], fun k => by unfold Dev.core; rw [hfab]⟩
  have hiq : ∀ q, (d.left x h t).iq c x.dst.eng q = d.iq c x.dst.eng q := fun q => by unfold Dev.iq; rw [heng]
  have hroom : (d.left x h t).iqRoom c x.dst.eng x.dst.idx t.free = d.iqRoom c x.dst.eng x.dst.idx t.free := by
    unfold Dev.iqRoom Dev.iqClosed Dev.iqClass
    rw [hiq, heng, hctx.engCtx (by rw [heng]), hctx.ctxRec]
  have hspill := ((d.left_sameSpills x h t).iqSpill hoff c x.dst.eng x.dst.idx t.free).trans hs
  have htaken := Dev.iqArrive_taken ((hoff.coreState c).trans_ne hf) (hroom.trans ((Dev.iqTakes_noSpill hs).symm.trans htakes))
    (he.trans (hctx.engEpoch (by rw [heng])).symm)
  have hput : ∀ k i, ((d.left x h t).iqPut c x.dst.eng x.dst.idx t).waitAt k i = (d.left x h t).waitAt k i := fun k i => by
    obtain ⟨es, hes⟩ := (d.left x h t).iqPut_fab c x.dst.eng x.dst.idx t
    unfold Dev.waitAt Dev.waiting
    rw [hes]
  rw [Dev.cross_arrive hp.waits hp.source hp.unseen hp.fits hk, Dev.arrive_engine hend hdst, hoff.physCore, Dev.iqDeliver_noSpill hspill]
  refine ⟨?_, ?_, ?_, ?_⟩
  · rw [htaken.waitAt, hput, hp.left_waitAt]
  · rw [htaken.iq, Dev.iqPut_iq, hiq]
  · obtain ⟨es, hes⟩ := (d.left x h t).iqPut_fab c x.dst.eng x.dst.idx t
    rw [htaken.wpos, hes]
    exact Dev.left_wpos ..
  · exact hoff.trans ((Dev.offDrip.of_regs (Dev.iqPut_regs ..)).trans htaken.regs)

end

/-- The device as the wheel of a link has moved past position j, for what crosses then. -/
theorem Dev.PlainHead.turned {d : Dev} {x : Circuit} {h : Nat} {t : Token} {ts : List Token} (hp : d.PlainHead x h t ts) (l j : Nat) :
    (d.turned l j x).PlainHead x h t ts := ⟨hp.waits, hp.source, hp.unseen, hp.fits⟩

end Sys2Proof.Machine
end

section
/-!
Stall ticks (R133): what each engine shows.
-/

namespace Sys2Proof.Machine

open Sys2Proof

theorem exec_stallTick (s : State) (bank : List (CoreId × Fin 64)) :
    exec (.stallTick bank) s = s.live fun d => d.stallTick (bank.map fun x => (x.1.val, x.2.val)) := rfl

/-- What one element's step of a fold makes true, and the steps of the others keep, holds after the fold, if the steps of those before it
keep what it needs. -/
theorem foldl_sets {α : Type} {P Q : Dev → Prop} {f : Dev → α → Dev} {l : List α} {x : α} {d : Dev} (hP : ∀ e, ∀ a ∈ l, a ≠ x → P e → P (f e a))
    (hQ : ∀ e, ∀ a ∈ l, a ≠ x → Q e → Q (f e a)) (hx : ∀ e, P e → Q (f e x)) (hmem : x ∈ l) (hl : l.Nodup) (h : P d) : Q (l.foldl f d) := by
  obtain ⟨l₁, l₂, rfl⟩ := List.append_of_mem hmem
  rw [List.nodup_append] at hl
  obtain ⟨-, hl₂, hne⟩ := hl
  have hbefore : P (l₁.foldl f d) := List.foldlRecOn l₁ f h fun e he a ha =>
    hP e a (List.mem_append_left _ ha) (hne a ha x List.mem_cons_self) he
  rw [List.foldl_append, List.foldl_cons]
  exact List.foldlRecOn l₂ f (hx _ hbefore) fun e he a ha =>
    hQ e a (List.mem_append_right _ (List.mem_cons_of_mem _ ha)) (fun hax => (List.nodup_cons.mp hl₂).1 (hax ▸ ha)) he

/-- What engine e of core c shows at a tick: what it holds, and that it issued. -/
structure Dev.Shows (d : Dev) (c e : Nat) (r : EngRec) : Prop where
  eng : d.eng c e = { r with busy := false, lost := false }
  fill0 : d.fld (Reg.engStat (clOf c) (posOf c) e) Fld.engStatIq0Fill = r.q0.length % 16
  fill1 : d.fld (Reg.engStat (clOf c) (posOf c) e) Fld.engStatIq1Fill = r.q1.length % 16
  issued : r.busy = true → d.fld (Reg.engStat (clOf c) (posOf c) e) Fld.engStatClass = 0

theorem Dev.stallClass_le (d : Dev) (c e : Nat) (b : Bool) : d.stallClass c e b ≤ 7 := by
  unfold Dev.stallClass
  dsimp only
  repeat' split
  all_goals decide

theorem Dev.rd_count64_ne (d : Dev) {a b : Nat} (n : Nat) (h : b ≠ a) (h' : b ≠ a + 4) : (d.count64 a n).rd b = d.rd b := by
  unfold Dev.count64
  rw [Dev.rd_wr_ne _ _ h', Dev.rd_wr_ne _ _ h]

theorem Dev.sampleEngine_eng (d : Dev) (c e : Nat) (b : Bool) :
    (d.sampleEngine c e b).eng c e = { d.eng c e with busy := false, lost := false } := Dev.setEng_eng ..

/-- What an engine's status shows after its sample. -/
theorem Dev.sampleEngine_fld (d : Dev) (c e : Nat) (b : Bool) (f : Fld) :
    (d.sampleEngine c e b).fld (Reg.engStat (clOf c) (posOf c) e) f =
      ((((d.count64 (Reg.coStallLo (clOf c) (posOf c) (d.stallClass c e b)) 1).setFld (Reg.engStat (clOf c) (posOf c) e) Fld.engStatIq0Fill
        (d.iq c e 0).length).setFld (Reg.engStat (clOf c) (posOf c) e) Fld.engStatIq1Fill (d.iq c e 1).length).setFld
        (Reg.engStat (clOf c) (posOf c) e) Fld.engStatClass (d.stallClass c e b)).fld (Reg.engStat (clOf c) (posOf c) e) f := rfl

theorem Dev.sampleEngine_shows (d : Dev) (c e : Nat) (b : Bool) : (d.sampleEngine c e b).Shows c e (d.eng c e) where
  eng := d.sampleEngine_eng c e b
  fill0 := by
    rw [d.sampleEngine_fld, Dev.fld_setFld_fld _ _ _ _ _ (by decide) (by decide), Dev.fld_setFld_fld _ _ _ _ _ (by decide) (by decide),
      Dev.fld_setFld_same _ _ _ _ (by decide)]
    rfl
  fill1 := by
    rw [d.sampleEngine_fld, Dev.fld_setFld_fld _ _ _ _ _ (by decide) (by decide), Dev.fld_setFld_same _ _ _ _ (by decide)]
    rfl
  issued := fun hbusy => by
    have hclass : d.stallClass c e b = 0 := if_pos hbusy
    rw [d.sampleEngine_fld, Dev.fld_setFld_same _ _ _ _ (by decide), hclass, Nat.zero_mod]

/-- The sample of one engine leaves the others and what they show. -/
theorem Dev.sampleEngine_frame (d : Dev) {c e c' e' : Nat} (b : Bool) (hne : (c', e') ≠ (c, e)) (he : e < 64) (he' : e' < 64) :
    (d.sampleEngine c' e' b).eng c e = d.eng c e ∧
      (d.sampleEngine c' e' b).rd (Reg.engStat (clOf c) (posOf c) e) = d.rd (Reg.engStat (clOf c) (posOf c) e) := by
  have hpair : ¬ (c' = c ∧ e' = e) := fun h => hne (Prod.ext h.1 h.2)
  have hpos : posOf c < 17 := Nat.mod_lt _ (by decide)
  have hpos' : posOf c' < 17 := Nat.mod_lt _ (by decide)
  have hclass := d.stallClass_le c' e' b
  have hcore : c = 17 * clOf c + posOf c := (Nat.div_add_mod c 17).symm
  have hcore' : c' = 17 * clOf c' + posOf c' := (Nat.div_add_mod c' 17).symm
  have hstat : Reg.engStat (clOf c) (posOf c) e ≠ Reg.engStat (clOf c') (posOf c') e' := by
    unfold Reg.engStat
    omega
  have hlo : Reg.engStat (clOf c) (posOf c) e ≠ Reg.coStallLo (clOf c') (posOf c') (d.stallClass c' e' b) := by
    unfold Reg.engStat Reg.coStallLo
    omega
  have hhi : Reg.engStat (clOf c) (posOf c) e ≠ Reg.coStallLo (clOf c') (posOf c') (d.stallClass c' e' b) + 4 := by
    unfold Reg.engStat Reg.coStallLo
    omega
  refine ⟨Dev.setEng_eng_ne _ _ (by omega), ?_⟩
  calc (d.sampleEngine c' e' b).rd (Reg.engStat (clOf c) (posOf c) e)
    _ = (d.count64 (Reg.coStallLo (clOf c') (posOf c') (d.stallClass c' e' b)) 1).rd (Reg.engStat (clOf c) (posOf c) e) :=
        (Dev.rd_setFld_ne _ _ _ hstat).trans ((Dev.rd_setFld_ne _ _ _ hstat).trans (Dev.rd_setFld_ne _ _ _ hstat))
    _ = d.rd (Reg.engStat (clOf c) (posOf c) e) := Dev.rd_count64_ne _ _ hlo hhi

/-- The sample of another engine leaves what an engine shows. -/
theorem Dev.Shows.sampleEngine {d : Dev} {c e c' e' : Nat} {r : EngRec} (h : d.Shows c e r) (b : Bool) (hne : (c', e') ≠ (c, e)) (he : e < 64)
    (he' : e' < 64) : (d.sampleEngine c' e' b).Shows c e r := by
  obtain ⟨heng, hrd⟩ := d.sampleEngine_frame b hne he he'
  exact ⟨heng.trans h.eng, (Dev.fld_of_rd hrd _).trans h.fill0, (Dev.fld_of_rd hrd _).trans h.fill1,
    fun hbusy => (Dev.fld_of_rd hrd _).trans (h.issued hbusy)⟩

/-- The samples of a core's engines: what one of them shows. -/
theorem Dev.sampleCore_shows {d : Dev} {c e : Nat} (b : Nat → Bool) (he : e < 64) :
    ((List.range 64).foldl (fun g e => g.sampleEngine c e (b e)) d).Shows c e (d.eng c e) :=
  foldl_sets (P := fun g => g.eng c e = d.eng c e) (Q := fun g => g.Shows c e (d.eng c e))
    (fun g e' he' hne h => (g.sampleEngine_frame (b e') (by simpa using hne) he (List.mem_range.mp he')).1.trans h)
    (fun _ e' he' hne h => h.sampleEngine (b e') (by simpa using hne) he (List.mem_range.mp he'))
    (fun g h => h ▸ g.sampleEngine_shows c e (b e)) (List.mem_range.mpr he) List.nodup_range rfl

theorem Dev.stallTick_shows {d : Dev} {c e : Nat} (bank : List (Nat × Nat)) (hrun : d.coreState c = coRun) (hc : c < 1088) (he : e < 64) :
    (d.stallTick bank).Shows c e (d.eng c e) := by
  have hmem : c ∈ d.coresIn coRun := List.mem_filter.mpr ⟨List.mem_range.mpr hc, by simpa using hrun⟩
  refine foldl_sets (P := fun g => g.eng c e = d.eng c e) (Q := fun g => g.Shows c e (d.eng c e)) (fun g c' _ hne h => ?_)
    (fun g c' _ hne h => ?_) (fun g h => h ▸ Dev.sampleCore_shows _ he) hmem (List.nodup_range.filter _) rfl
  · exact List.foldlRecOn (List.range 64) _ (motive := fun f => Dev.eng f c e = d.eng c e) h fun (f : Dev) hf e' he' =>
      (f.sampleEngine_frame _ (by simp [hne]) he (List.mem_range.mp he')).1.trans hf
  · exact List.foldlRecOn (List.range 64) _ (motive := fun f => Dev.Shows f c e (d.eng c e)) h fun (f : Dev) hf e' he' =>
      hf.sampleEngine _ (by simp [hne]) he (List.mem_range.mp he')

end Sys2Proof.Machine
end

section
/-!
O36: tokens arrive, count, cross links and stall.
-/

namespace Sys2Proof.Machine

open Sys2Proof

/-- A wheel in service and the head that it serves: that of the first position, i past its pointer, with a token to send (R156). -/
structure Dev.Serves (d : Dev) (l : Nat) (w : Wheel) (i : Nat) (x : Circuit) (h : Nat) : Prop where
  carries : d.linkCarries l = true
  wheel : (d.fab.wheels.find? fun y => y.link = l) = some w
  place : i < 16
  first : ∀ j < i, d.ownerReady l w.codes (((d.wpos l).ptr + j) % 16) = none
  owner : d.ownerReady l w.codes (((d.wpos l).ptr + i) % 16) = some (x, h)

/-- The device as the wheel has moved past the position that it serves. -/
abbrev Dev.past (d : Dev) (l i : Nat) (x : Circuit) : Dev := d.turned l (((d.wpos l).ptr + i) % 16) x

/-- What that wheel's place is then. -/
abbrev Dev.placeAfter (d : Dev) (l i : Nat) (x : Circuit) : WheelPos :=
  ⟨(((d.wpos l).ptr + i) % 16 + 1) % 16, if x.free then some x.key else (d.wpos l).last⟩

theorem Dev.wpos_past {d e : Dev} {l i : Nat} {x : Circuit} (h : e.fab.wpos = (d.past l i x).fab.wpos) : e.wpos l = d.placeAfter l i x := by
  unfold Dev.wpos
  rw [h]
  exact Dev.setWpos_wpos ..

section
variable {s : State} {link : BitVec 32} {w : Wheel} {i h : Nat} {x : Circuit} {t : Token} {ts : List Token}

theorem Dev.Serves.settles {P : Dev → Prop} (hr : s.dev.Serves link.toNat w i x h) (hs : s.dev.alive = true)
    (hP : P ((s.dev.past link.toNat i x).cross x h)) : Settles (.wheelCrossing link) s P :=
  wheelCrossing_settles_of hs hr.carries (by rw [Dev.wheelCross_first hr.wheel hr.place hr.first hr.owner]; exact hP)

/-- The wheel takes a head to the next hop, or to the open spill of its buffer (R157, R191). -/
theorem wheelCrossing_toHop (hs : s.dev.alive = true) (hr : s.dev.Serves link.toNat w i x h) (hp : s.dev.PlainHead x h t ts)
    (hk : flitOn (x.link h) = none) (hlt : h + 1 < x.route.length) (hf : s.dev.linkFenced (x.link (h + 1)) = false) :
    (s.dev.spillAt x (h + 1) = none → Settles (.wheelCrossing link) s fun d =>
      d.waitAt x.key h = ts ∧ d.waitAt x.key (h + 1) = s.dev.waitAt x.key (h + 1) ++ [t] ∧
      d.wpos link.toNat = s.dev.placeAfter link.toNat i x ∧ (∀ a, ¬ dripReg a → d.rd a = s.dev.rd a)) ∧
    (∀ cl j sp, s.dev.spillAt x (h + 1) = some (cl, j, sp) → Settles (.wheelCrossing link) s fun d =>
      d.waitAt x.key h = ts ∧ d.waitAt x.key (h + 1) = s.dev.waitAt x.key (h + 1) ∧
      d.wpos link.toNat = s.dev.placeAfter link.toNat i x ∧
      ∃ y, d.spill cl j = some y ∧ y.toks = sp.toks ++ [.at x.key (h + 1) t]) := by
  have hp' := hp.turned link.toNat (((s.dev.wpos link.toNat).ptr + i) % 16)
  refine ⟨fun hspill => hr.settles hs ?_, fun cl j sp hspill => hr.settles hs ?_⟩
  · obtain ⟨hat, hnext, hpos, hregs⟩ := Dev.cross_hop hp' hk hlt hf hspill
    exact ⟨hat, hnext, Dev.wpos_past hpos, hregs⟩
  · obtain ⟨hat, hnext, hpos, hsp⟩ := Dev.cross_spill hp' hk hlt hf hspill
    exact ⟨hat, hnext, Dev.wpos_past hpos, hsp⟩

/-- The wheel takes a head into a die link's flit, under the position it served (R145). -/
theorem wheelCrossing_toFlit {k : Nat} (hs : s.dev.alive = true) (hr : s.dev.Serves link.toNat w i x h) (hp : s.dev.PlainHead x h t ts)
    (hk : flitOn (x.link h) = some k) : Settles (.wheelCrossing link) s fun d =>
      d.waitAt x.key h = ts ∧
      d.flitOf k = s.dev.flitOf k ++ [{ DripTok.at x.key (h + 1) t with pos := ((s.dev.wpos link.toNat).ptr + i) % 16 }] ∧
      d.wpos link.toNat = s.dev.placeAfter link.toNat i x ∧ (∀ a, ¬ dripReg a → d.rd a = s.dev.rd a) := by
  obtain ⟨hat, hflit, hpos, hregs⟩ := Dev.cross_intoFlit (hp.turned link.toNat (((s.dev.wpos link.toNat).ptr + i) % 16)) hk
  refine hr.settles hs ⟨hat, ?_, Dev.wpos_past hpos, hregs⟩
  have hback : ((((s.dev.wpos link.toNat).ptr + i) % 16 + 1) % 16 + 15) % 16 = ((s.dev.wpos link.toNat).ptr + i) % 16 := by omega
  rw [hflit, Dev.ownerReady_link hr.owner, Dev.wpos_past (d := s.dev) (i := i) (x := x) rfl]
  dsimp only [Dev.placeAfter]
  rw [hback]
  rfl

/-- The wheel takes a head to the input queue at its circuit's end (R157, R166). -/
theorem wheelCrossing_toEngine (hs : s.dev.alive = true) (hr : s.dev.Serves link.toNat w i x h) (hp : s.dev.PlainHead x h t ts)
    (hk : flitOn (x.link h) = none) (hend : h + 1 = x.route.length) (hdst : x.dst.kind = 1)
    (hf : s.dev.coreState (s.dev.physCore x.dst.cl x.dst.core) ≠ coFenced)
    (hspill : s.dev.iqSpill (s.dev.physCore x.dst.cl x.dst.core) x.dst.eng x.dst.idx t.free = none)
    (htakes : s.dev.iqTakes (s.dev.physCore x.dst.cl x.dst.core) x.dst.eng x.dst.idx t.free = true)
    (he : t.epoch.toNat = s.dev.engEpoch (s.dev.physCore x.dst.cl x.dst.core) x.dst.eng) :
    Settles (.wheelCrossing link) s fun d =>
      let c := s.dev.physCore x.dst.cl x.dst.core
      d.waitAt x.key h = ts ∧ d.iq c x.dst.eng x.dst.idx = s.dev.iq c x.dst.eng x.dst.idx ++ [t] ∧
      d.wpos link.toNat = s.dev.placeAfter link.toNat i x ∧ (∀ a, ¬ dripReg a → d.rd a = s.dev.rd a) := by
  obtain ⟨hat, hiq, hpos, hregs⟩ :=
    Dev.cross_engine (hp.turned link.toNat (((s.dev.wpos link.toNat).ptr + i) % 16)) hk hend hdst hf hspill htakes he
  exact hr.settles hs ⟨hat, hiq, Dev.wpos_past hpos, hregs⟩

/-- A link that carries nothing, and a wheel with nothing to send, change nothing. -/
theorem wheelCrossing_idle (hs : s.dev.alive = true) :
    (s.dev.linkCarries link.toNat = false → Gives (.wheelCrossing link) s fun d => d = s.dev) ∧
    (s.dev.linkCarries link.toNat = true → (s.dev.fab.wheels.find? fun y => y.link = link.toNat) = some w →
      (∀ j < 16, s.dev.ownerReady link.toNat w.codes (((s.dev.wpos link.toNat).ptr + j) % 16) = none) →
      Settles (.wheelCrossing link) s fun d => d = s.dev) :=
  ⟨fun hoff => gives_live (exec_wheelCrossing ..) hs (if_neg (by simp [hoff])),
    fun hcarries hw hnone => wheelCrossing_settles_of hs hcarries (Dev.wheelCross_none hw hnone)⟩

end

/-- At a tick the engines of a running core show what they hold. -/
theorem stallTick_gives {s : State} (bank : List (CoreId × Fin 64)) (c : CoreId) (e : Fin 64) (hs : s.dev.alive = true)
    (hrun : s.dev.coreState c.val = coRun) : Gives (.stallTick bank) s fun d =>
      d.Shows c.val e.val (s.dev.eng c.val e.val) ∧ s.dev.keepsBut [.regs, .fab] d :=
  gives_live (exec_stallTick ..) hs
    ⟨Dev.stallTick_shows _ hrun c.isLt e.isLt, Dev.stallTick_keeps (keepsBut_keeps _ _) (keepsBut_refl _ _)⟩

/-- Settles O36: an arrival and a COUNT token clause by clause, a wheel by the position it serves and where its head goes, and a tick by
what each engine's sample shows. -/
theorem tokens : Obligations.Tokens := by
  unfold Obligations.Tokens
  refine ⟨fun s c e q t hs => tokenArrival_settles c e q t hs, fun s c k v deg hs hrun => countToken_settles c k v deg hs hrun, ?_, ?_⟩
  · intro s link w i h x t ts hs l p after ready plain
    have serves : ready → s.dev.Serves l w i x h := fun ⟨hcarries, hw, hi, hfirst, howner⟩ => ⟨hcarries, hw, hi, hfirst, howner⟩
    have head : plain → s.dev.PlainHead x h t ts := fun ⟨hwaits, hsrc, hstat, hfits⟩ => ⟨hwaits, hsrc, hstat, hfits⟩
    obtain ⟨hcut, hidle⟩ := wheelCrossing_idle (link := link) (w := w) hs
    exact ⟨fun hr hp hk hlt hf => wheelCrossing_toHop hs (serves hr) (head hp) hk hlt hf,
      fun k hr hp hk => wheelCrossing_toFlit hs (serves hr) (head hp) hk,
      fun hr hp hk hend hdst hf hspill htakes he => wheelCrossing_toEngine hs (serves hr) (head hp) hk hend hdst hf hspill htakes he,
      hcut, hidle⟩
  · intro s bank c e hs hrun
    obtain ⟨d, hexec, hshows, hkeeps⟩ := stallTick_gives bank c e hs hrun
    refine ⟨d, hexec, ?_, ?_, ?_, hshows.fill0, hshows.fill1, hshows.issued, hkeeps⟩
    · rw [hshows.eng]
    · exact (congrArg EngRec.q0 hshows.eng : (d.eng c.val e.val).q0 = _)
    · exact (congrArg EngRec.q1 hshows.eng : (d.eng c.val e.val).q1 = _)

end Sys2Proof.Machine
end

section
/-!
SUPPORT. The banks' cycle, and what follows an issue's operation (R126, R128, R141, Table 12.10).
-/

namespace Sys2Proof.Machine

open Sys2Proof

/-! The banks of a cluster -/

section
variable {d : Dev}

theorem Dev.setCst_offDrip (d : Dev) (k : Nat) (r : CircSt) : d.offDrip (d.setCst k r) := .of_regs rfl

theorem Dev.send_offDrip (d : Dev) (x : Circuit) (t : Token) : d.offDrip (d.send x t) := fun a ha => by
  unfold Dev.send
  split
  · exact Dev.putHop_rd _ _ _ _ ha
  · exact (Dev.putHop_rd _ _ _ _ ha).trans (Dev.noteSent_rd ..)

theorem Dev.putMarker_offDrip (d : Dev) (x : Circuit) (w : Wave) : d.offDrip (d.putMarker x w) :=
  (d.send_offDrip x _).trans (Dev.setCst_offDrip _ _ _)

theorem Dev.entrySend_offDrip (d : Dev) (x : Circuit) (t : Token) : d.offDrip (d.entrySend x t) := by
  refine Dev.offDrip.trans ?_ (Dev.send_offDrip _ _ _)
  split
  · split
    · exact d.putMarker_offDrip x _
    · exact .refl d
  · exact .refl d

theorem Dev.bankAccess_offDrip (d : Dev) (cl : Nat) (q : BankReq) : d.offDrip (d.bankAccess cl q) := by
  unfold Dev.bankAccess Dev.reply
  dsimp only
  split
  · exact .of_regs rfl
  · repeat' split
    · exact d.entrySend_offDrip _ _
    all_goals exact .refl d

theorem Dev.bankCycle_offDrip (d : Dev) (cl b : Nat) : d.offDrip (d.bankCycle cl b) := by
  unfold Dev.bankCycle
  split
  · exact .refl d
  · next q _ =>
    have hqueue : d.offDrip (d.setBankQ cl b ((d.bankQ cl b).erase q)) := .of_regs rfl
    refine (hqueue.trans ?_).trans (Dev.bankAccess_offDrip _ _ _)
    repeat' split
    · exact (Dev.dripTransfer_timersOnly ..).regs
    · exact ((Dev.dripTransfer_timersOnly ..).trans (Dev.dripTransfer_timersOnly ..)).regs
    · exact .refl _

/-- A cluster's banks leave every register that is not Drip's. -/
theorem Dev.banksCycle_offDrip (d : Dev) (cl : Nat) : d.offDrip (d.banksCycle cl) :=
  foldl_keeps (P := d.offDrip) (fun e b he => he.trans (e.bankCycle_offDrip cl b)) (.refl d)

end

/-! Which descriptor issues -/

section
variable {s : State} {c : CoreId} {e : Fin 64} {bw f g : Nat} {rv : List BankUse}

theorem exec_engineIssue (s : State) (c : CoreId) (e : Fin 64) (bw : Nat) (rv : List BankUse) (f g : Nat) :
    exec (.engineIssue c e bw rv f g) s =
      s.live fun d => ((d.banksCycle (clOf c.val)).issue c.val e.val bw rv f g).settleDrip := rfl

/-- Nothing issues in a core that does not run (R126). -/
theorem engineIssue_stands (hs : s.dev.alive = true) (hrun : s.dev.coreState c.val ≠ coRun) :
    Settles (.engineIssue c e bw rv f g) s fun d => d = s.dev.banksCycle (clOf c.val) :=
  settles_live (exec_engineIssue ..) hs (if_neg ((((s.dev.banksCycle_offDrip _).coreState c.val).trans_ne hrun)))

/-- The issue stage of a running core that has no descriptor to issue. -/
theorem Dev.issue_none {d : Dev} {c e : Nat} (bw : Nat) {rv : List BankUse} {f g : Nat} (hrun : d.coreState c = coRun)
    (hk : (d.atIssue c e rv f g).chosen c e = none) : (d.banksCycle (clOf c)).issue c e bw rv f g = d.atIssue c e rv f g := by
  have hrun' : (d.banksCycle (clOf c)).coreState c = coRun := ((d.banksCycle_offDrip _).coreState c).trans hrun
  unfold Dev.issue
  unfold Dev.atIssue at hk ⊢
  dsimp only at hk ⊢
  rw [if_pos hrun', hk]

/-- The issue stage of a running core that has one (R126, R128). -/
theorem Dev.issue_some {d : Dev} {c e k : Nat} (bw : Nat) {rv : List BankUse} {f g : Nat} (hrun : d.coreState c = coRun)
    (hk : (d.atIssue c e rv f g).chosen c e = some k) : (d.banksCycle (clOf c)).issue c e bw rv f g =
      if (d.atIssue c e rv f g).issueLoses c e k rv then (d.atIssue c e rv f g).waitPort c e k else (d.atIssue c e rv f g).fire c e k bw := by
  have hrun' : (d.banksCycle (clOf c)).coreState c = coRun := ((d.banksCycle_offDrip _).coreState c).trans hrun
  unfold Dev.issue
  unfold Dev.atIssue at hk ⊢
  dsimp only at hk ⊢
  rw [if_pos hrun', hk]

section
variable {P : Dev → Prop} {D : Dev} {k : Nat}

/-- With no descriptor ready the stage leaves what it found. -/
theorem engineIssue_idle (hs : s.dev.alive = true) (hrun : s.dev.coreState c.val = coRun) (hD : s.dev.atIssue c.val e.val rv f g = D)
    (hk : D.chosen c.val e.val = none) : Settles (.engineIssue c e bw rv f g) s fun d => d = D := by
  subst hD
  exact settles_live (exec_engineIssue ..) hs (Dev.issue_none bw hrun hk)

/-- The descriptor chosen loses its port, and waits (R128). -/
theorem engineIssue_loses (hs : s.dev.alive = true) (hrun : s.dev.coreState c.val = coRun) (hD : s.dev.atIssue c.val e.val rv f g = D)
    (hk : D.chosen c.val e.val = some k) (hlose : D.issueLoses c.val e.val k rv = true) (h : P (D.waitPort c.val e.val k)) :
    Settles (.engineIssue c e bw rv f g) s P := by
  subst hD
  exact settles_live (exec_engineIssue ..) hs (by rwa [Dev.issue_some bw hrun hk, if_pos hlose])

/-- The descriptor chosen issues. -/
theorem engineIssue_fires (hs : s.dev.alive = true) (hrun : s.dev.coreState c.val = coRun) (hD : s.dev.atIssue c.val e.val rv f g = D)
    (hk : D.chosen c.val e.val = some k) (hkeep : D.issueLoses c.val e.val k rv = false) (h : P (D.fire c.val e.val k bw)) :
    Settles (.engineIssue c e bw rv f g) s P := by
  subst hD
  exact settles_live (exec_engineIssue ..) hs (by rwa [Dev.issue_some bw hrun hk, if_neg (by simp [hkeep])])

end

end

/-- The first timed one of the ready descriptors, or with none of these the first, is chosen (R126). -/
theorem Dev.chosen_first {d : Dev} {c e k : Nat} {ready : List Nat}
    (hready : ready = (d.descs c e).filter fun k => decide (d.holdOf c e k = .ready))
    (hfirst : (ready.find? fun j => !(d.desc c e j).free) = some k ∨ ((∀ j ∈ ready, (d.desc c e j).free = true) ∧ ready.head? = some k)) :
    d.chosen c e = some k := by
  subst hready
  unfold Dev.chosen
  dsimp only
  rcases hfirst with hfind | ⟨hfree, hhead⟩
  · rw [hfind]
  · rw [List.find?_eq_none.mpr fun j hj => by simp [hfree j hj]]
    exact hhead

theorem Dev.chosen_none {d : Dev} {c e : Nat} (hready : ((d.descs c e).filter fun k => decide (d.holdOf c e k = .ready)) = []) :
    d.chosen c e = none := by
  unfold Dev.chosen
  rw [hready]
  rfl

/-! A wait for a port -/

/-- A change of an engine that has switched no more than before leaves the place where its descriptors in service stand. -/
theorem Dev.setEng_engCtx {d : Dev} {c e : Nat} {r : EngRec} (hr : r.switched = (d.eng c e).switched) :
    (d.setEng c e r).engCtx c e = d.engCtx c e :=
  Dev.SameContexts.engCtx (d := d) (e := d.setEng c e r) ⟨.of_regs rfl, rfl, fun _ => rfl⟩ ((congrArg EngRec.switched (d.setEng_eng c e r)).trans hr)

theorem Dev.setDescRec_descRec (d : Dev) (c e k : Nat) (r : DescRec) : (d.setDescRec c e k r).descRec c e k = r := by
  have hctx : (d.setDescRec c e k r).engCtx c e = d.engCtx c e := Dev.setEng_engCtx rfl
  unfold Dev.descRec
  rw [hctx]
  unfold Dev.setDescRec
  rw [Dev.setEng_eng]
  exact SMap.get_set_same _ _ _

theorem Dev.portLost_descRec (d : Dev) (c e k : Nat) : (d.portLost c e).descRec c e k = d.descRec c e k := by
  have hctx : (d.portLost c e).engCtx c e = d.engCtx c e := Dev.setEng_engCtx rfl
  unfold Dev.descRec
  rw [hctx]
  unfold Dev.portLost
  rw [Dev.setEng_eng]

theorem Dev.waitPort_descRec (d : Dev) (c e k : Nat) :
    (d.waitPort c e k).descRec c e k = { d.descRec c e k with waited := (d.descRec c e k).waited + 1 } :=
  (Dev.portLost_descRec ..).trans (Dev.setDescRec_descRec ..)

theorem Dev.waitPort_lost (d : Dev) (c e k : Nat) : ((d.waitPort c e k).eng c e).lost = true := by
  unfold Dev.waitPort Dev.portLost
  rw [Dev.setEng_eng]

/-- A wait for a port is seen in its engine only. -/
theorem Dev.waitPort_frame (d : Dev) (c e k : Nat) : d.regsBut [] (d.waitPort c e k) ∧ d.keepsBut [.fab] (d.waitPort c e k) ∧
    (d.waitPort c e k).fab.wait = d.fab.wait ∧ (d.waitPort c e k).fab.cores = d.fab.cores :=
  ⟨fun _ _ => rfl, Dev.setEng_keeps (keepsBut_keeps _ _) (Dev.setEng_keeps (keepsBut_keeps _ _) (keepsBut_refl _ _)), rfl, rfl⟩

/-! What follows an operation that uses no counter -/

/-- The firings and the slot after an issue, a wait beyond its allowance, and the engine's count of operations (R126, R160). -/
def Dev.retire (d : Dev) (c e k : Nat) (y : Desc) (s : Option Nat) (last skip late : Bool) : Dev :=
  let d := d.advance c e k y s last skip
  let d := if late then
      (d.count (Reg.coSchedColl (clOf c) (posOf c))).postNotice false .schedCollision (s.getD 0) (d.deviceCore c)
    else d
  (d.count64 (Reg.coOpsLo (clOf c) (posOf c)) 1).setEng c e { d.eng c e with busy := true }

/-- A descriptor that takes no SCALE token and uses no counter operates and is retired. -/
theorem Dev.fire_plain {d : Dev} {c e k : Nat} (bw : Nat) (hscale : (d.desc c e k).scaleQueue = none) (hctr : (d.desc c e k).ctrUse = 0) :
    ∃ (s : Option Nat) (i : Issue) (skip : Bool), ((d.desc c e k).free = true → i.ev = (d.desc c e k).tag) ∧ i.deg = (d.descRec c e k).lostBlock ∧
      d.fire c e k bw = (d.operate c e k (d.desc c e k) i s).retire c e k (d.desc c e k) s i.last skip
        (!(d.desc c e k).free && decide ((d.desc c e k).wait < bw + (d.descRec c e k).waited)) := by
  have htake : d.takeScale c e k (d.desc c e k) = d := by
    unfold Dev.takeScale
    rw [hscale]
    rfl
  unfold Dev.fire
  simp only [htake, hctr]
  exact ⟨_, ⟨_, _, _⟩, _, fun hfree => if_pos hfree, rfl, rfl⟩

section
variable (d : Dev) (c e k : Nat) (y : Desc) (s : Option Nat) (last skip late : Bool)

theorem Dev.advance_setEng : ∃ m, d.advance c e k y s last skip = d.setEng c e { d.eng c e with descs := m } := by
  unfold Dev.advance
  repeat' split
  all_goals exact ⟨_, rfl⟩

/-- A retired issue leaves its engine but for the descriptor in service, and what waits before the hops. -/
theorem Dev.retire_fab : (∃ m, (d.retire c e k y s last skip late).eng c e = { d.eng c e with descs := m, busy := true }) ∧
    (d.retire c e k y s last skip late).fab.wait = d.fab.wait := by
  obtain ⟨m, hadv⟩ := d.advance_setEng c e k y s last skip
  have heng : (d.advance c e k y s last skip).eng c e = { d.eng c e with descs := m } := by rw [hadv, Dev.setEng_eng]
  have hwait : (d.advance c e k y s last skip).fab.wait = d.fab.wait := by rw [hadv]; rfl
  unfold Dev.retire
  dsimp only
  refine ⟨⟨m, ?_⟩, ?_⟩
  · rw [Dev.setEng_eng]
    split
    · exact congrArg (fun r : EngRec => { r with busy := true }) heng
    · rw [heng]
  · split <;> exact hwait

/-- It counts as late or not (R126). -/
theorem Dev.retire_schedColl : (d.retire c e k y s last skip late).rd (Reg.coSchedColl (clOf c) (posOf c)) =
    if late = true then satInc 32 1 (d.rd (Reg.coSchedColl (clOf c) (posOf c))) else d.rd (Reg.coSchedColl (clOf c) (posOf c)) := by
  obtain ⟨m, hadv⟩ := d.advance_setEng c e k y s last skip
  have hrd : (d.advance c e k y s last skip).rd (Reg.coSchedColl (clOf c) (posOf c)) = d.rd (Reg.coSchedColl (clOf c) (posOf c)) := by
    rw [hadv]; rfl
  have hops : Reg.coSchedColl (clOf c) (posOf c) ≠ Reg.coOpsLo (clOf c) (posOf c) := by unfold Reg.coSchedColl Reg.coOpsLo; omega
  have hops' : Reg.coSchedColl (clOf c) (posOf c) ≠ Reg.coOpsLo (clOf c) (posOf c) + 4 := by unfold Reg.coSchedColl Reg.coOpsLo; omega
  refine (Dev.rd_count64_ne _ 1 hops hops').trans ?_
  split
  · exact (Dev.rd_count _ _).trans (by rw [hrd])
  · exact hrd

end

end Sys2Proof.Machine
end

section
/-!
O39: which descriptor issues, and what a register ALU descriptor and a SEND leave.
-/

namespace Sys2Proof.Machine

open Sys2Proof

section
variable {d : Dev} {c e k : Nat} {y : Desc}

/-! A register ALU descriptor -/

/-- The word that an operand names which is no queue's. -/
def Dev.regWord (d : Dev) (c e src r : Nat) : Nat := if src = 3 then (d.reg c e r).v % 2 ^ 32 else 0

/-- An operand that is no queue's takes no token. -/
theorem Dev.operand_register (s : Option Nat) {src : Nat} (r : Nat) (hsrc : src = 0 ∨ src = 3) :
    ∃ a t, d.operand c e y s src r = (a, none, t) ∧ a.v % 2 ^ 32 = d.regWord c e src r := by
  rcases hsrc with rfl | rfl
  · exact ⟨_, _, rfl, rfl⟩
  · exact ⟨_, _, rfl, rfl⟩

/-- What is no write from an adaptation context's free-class work goes to its register (R270). -/
theorem Dev.writeReg_plain (v : Val) (hlive : y.free = true → ∀ live, d.ctxRec c (d.engCtx c e) = some live →
    bitAt live.flags 0 = false ∨ live.paired = false) : d.writeReg c e y v = d.setReg c e y.rd v := by
  unfold Dev.writeReg
  split
  · rfl
  · next live heq =>
    have hadapt : (y.free && bitAt live.flags 0 && live.paired) = false := by
      cases hfree : y.free with
      | false => rfl
      | true => rcases hlive hfree live heq with h | h <;> simp [h]
    rw [hadapt]
    rfl

/-- The result of an ALU operation, but for CVT, that has one. -/
def aluResult (imm a b : Nat) : Option Nat := if bitAt imm 4 then aluFloat (bitsOf imm 0 4) a b else aluInt (bitsOf imm 0 4) a b

/-- A register ALU descriptor without an output leaves its result in its register (R244). -/
theorem Dev.opAlu_register {i : Issue} {s : Option Nat} {v : Nat} (hA : y.srcA = 0 ∨ y.srcA = 3) (hB : y.srcB = 0 ∨ y.srcB = 3)
    (hout : y.out0 = 127) (hcvt : ¬ (bitAt y.imm 4 = true ∧ bitsOf y.imm 0 4 = 10))
    (hlive : y.free = true → ∀ live, d.ctxRec c (d.engCtx c e) = some live → bitAt live.flags 0 = false ∨ live.paired = false)
    (hv : aluResult y.imm (d.regWord c e y.srcA y.ra) (d.regWord c e y.srcB y.rb) = some v) :
    ∃ deg, d.opAlu c e y i s = d.setReg c e y.rd ⟨if bitAt y.imm 4 then f32Fix v else v, deg⟩ := by
  obtain ⟨a, t, ha, hav⟩ := d.operand_register (c := c) (e := e) (y := y) s y.ra hA
  obtain ⟨b, u, hb, hbv⟩ := d.operand_register (c := c) (e := e) (y := y) s y.rb hB
  have hconv : (bitAt y.imm 4 && decide (bitsOf y.imm 0 4 = 10)) = false := by simpa using hcvt
  rw [← hav, ← hbv] at hv
  unfold aluResult at hv
  unfold Dev.opAlu
  simp only [ha, hb, hconv, Dev.popIf, hout, Bool.false_and, Bool.false_eq_true, if_false, Option.any_none, Option.isSome_none, hv,
    if_true]
  exact ⟨_, Dev.writeReg_plain _ hlive⟩

/-! A SEND descriptor -/

theorem Dev.outCircs_src {x : Circuit} {o : Nat} (hx : x ∈ d.outCircs c e o) : x.src.kind = 0 := by
  have hsrc := (List.mem_filter.mp hx).2
  simp only [Bool.and_eq_true, decide_eq_true_eq] at hsrc
  exact hsrc.2.1

/-- An output with one circuit puts its token before the circuit's first hop (R159). -/
theorem Dev.give_one {x : Circuit} {o : Nat} (t : Token) (hx : d.outCircs c e o = [x]) :
    d.give c e o t = d.putHop x 0 { t with free := x.free } := by
  have hsrc : x.src.kind = 0 := Dev.outCircs_src (d := d) (c := c) (e := e) (o := o) (by simp [hx])
  unfold Dev.give
  rw [hx]
  exact congrArg (fun f : Dev => f.putHop x 0 { t with free := x.free }) (if_pos (Or.inl hsrc))

theorem Dev.putHop_engs {x : Circuit} {h : Nat} (t : Token) (hs : d.spillAt x h = none) : (d.putHop x h t).fab.engs = d.fab.engs := by
  rw [Dev.putHop_noSpill hs]
  exact (d.storeTransfer_timersOnly x h true).engs

/-- The word that a SEND sends: an activation word, or a register's. -/
def Dev.sentWord (d : Dev) (c e : Nat) (y : Desc) : Val := if bitAt y.imm 0 then d.slotWord c e y.aslot y.aword else d.reg c e y.ra

theorem Dev.opSend_one {x : Circuit} {i : Issue} (hx : d.outCircs c e y.out0 = [x]) :
    d.opSend c e y i = d.putHop x 0
      (mkToken (d.sentWord c e y).v x.free (d.engEpoch c e) i.ev 0 (i.deg || (d.sentWord c e y).deg) 0) := Dev.give_one _ hx

/-! Neither makes an access to the weight store of its own -/

theorem Dev.issueLoses_false {n : Nat} (rv : List BankUse) (hop : (d.desc c e k).op = n) (hn : n ≠ 12) : d.issueLoses c e k rv = false := by
  unfold Dev.issueLoses Dev.wsUse
  rw [if_neg (hop.trans_ne hn)]
  rfl

theorem Desc.scaleQueue_none {y : Desc} (hop : y.op ≠ 2 ∧ y.op ≠ 3) : y.scaleQueue = none := by
  unfold Desc.scaleQueue
  simp [hop.1, hop.2]

/-- What an issued ALU descriptor on registers leaves (R126, R244). -/
theorem Dev.fire_alu {bw v : Nat} (hop : (d.desc c e k).op = 5) (hA : (d.desc c e k).srcA = 0 ∨ (d.desc c e k).srcA = 3)
    (hB : (d.desc c e k).srcB = 0 ∨ (d.desc c e k).srcB = 3) (hout : (d.desc c e k).out0 = 127) (hctr : (d.desc c e k).ctrUse = 0)
    (hcvt : ¬ (bitAt (d.desc c e k).imm 4 = true ∧ bitsOf (d.desc c e k).imm 0 4 = 10))
    (hlive : (d.desc c e k).free = true → ∀ live, d.ctxRec c (d.engCtx c e) = some live → bitAt live.flags 0 = false ∨ live.paired = false)
    (hv : aluResult (d.desc c e k).imm (d.regWord c e (d.desc c e k).srcA (d.desc c e k).ra)
      (d.regWord c e (d.desc c e k).srcB (d.desc c e k).rb) = some v) :
    let y := d.desc c e k
    let f := d.fire c e k bw
    let coll := Reg.coSchedColl (clOf c) (posOf c)
    (f.reg c e y.rd).v = (if bitAt y.imm 4 then f32Fix v else v) ∧ (f.eng c e).busy = true ∧
      (∀ r, r ≠ y.rd → f.reg c e r = d.reg c e r) ∧ f.iq c e 0 = d.iq c e 0 ∧ f.iq c e 1 = d.iq c e 1 ∧ f.fab.wait = d.fab.wait ∧
      f.rd coll = if y.free = false ∧ y.wait < bw + (d.descRec c e k).waited then satInc 32 1 (d.rd coll) else d.rd coll := by
  intro y f coll
  obtain ⟨s, i, skip, -, -, hfire⟩ := Dev.fire_plain (d := d) (c := c) (e := e) (k := k) bw (Desc.scaleQueue_none (by omega)) hctr
  obtain ⟨deg, halu⟩ := Dev.opAlu_register (i := i) (s := s) hA hB hout hcvt hlive hv
  have hoperate : d.operate c e k y i s = d.setReg c e y.rd ⟨if bitAt y.imm 4 then f32Fix v else v, deg⟩ := by
    unfold Dev.operate
    rw [show y.op = 5 from hop]
    exact halu
  have hf : f = (d.setReg c e y.rd ⟨if bitAt y.imm 4 then f32Fix v else v, deg⟩).retire c e k y s i.last skip
      (!y.free && decide (y.wait < bw + (d.descRec c e k).waited)) := by rw [← hoperate]; exact hfire
  obtain ⟨⟨m, heng⟩, hwait⟩ := (d.setReg c e y.rd ⟨if bitAt y.imm 4 then f32Fix v else v, deg⟩).retire_fab c e k y s i.last skip
    (!y.free && decide (y.wait < bw + (d.descRec c e k).waited))
  rw [← hf] at heng hwait
  unfold Dev.setReg at heng
  rw [Dev.setEng_eng] at heng
  have hregs : ∀ r, f.reg c e r = SMap.get (fun _ => ⟨0, false⟩)
      (SMap.set (fun _ => ⟨0, false⟩) (d.eng c e).regs y.rd ⟨if bitAt y.imm 4 then f32Fix v else v, deg⟩) r := fun r => by
    unfold Dev.reg
    rw [heng]
  refine ⟨?_, by rw [heng], fun r hr => ?_, (congrArg EngRec.q0 heng : (f.eng c e).q0 = _), (congrArg EngRec.q1 heng : (f.eng c e).q1 = _),
    hwait, ?_⟩
  · rw [hregs, SMap.get_set_same]
  · rw [hregs, SMap.get_set_ne _ _ hr]
    rfl
  · rw [hf, Dev.retire_schedColl]
    simp only [Bool.and_eq_true, Bool.not_eq_true', decide_eq_true_eq]
    rfl

/-- What an issued free-class SEND leaves (R126, R159). -/
theorem Dev.fire_send {bw : Nat} {x : Circuit} (hop : (d.desc c e k).op = 4) (hfree : (d.desc c e k).free = true)
    (hctr : (d.desc c e k).ctrUse = 0) (hx : d.outCircs c e (d.desc c e k).out0 = [x]) (hspill : d.spillAt x 0 = none) :
    let y := d.desc c e k
    let f := d.fire c e k bw
    f.waitAt x.key 0 = d.waitAt x.key 0 ++ [mkToken (d.sentWord c e y).v x.free (d.engEpoch c e) y.tag 0
        ((d.descRec c e k).lostBlock || (d.sentWord c e y).deg) 0] ∧
      (f.eng c e).busy = true ∧ ∀ r, f.reg c e r = d.reg c e r := by
  intro y f
  obtain ⟨s, i, skip, htag, hlost, hfire⟩ := Dev.fire_plain (d := d) (c := c) (e := e) (k := k) bw (Desc.scaleQueue_none (by omega)) hctr
  have hoperate : d.operate c e k y i s = d.putHop x 0
      (mkToken (d.sentWord c e y).v x.free (d.engEpoch c e) y.tag 0 ((d.descRec c e k).lostBlock || (d.sentWord c e y).deg) 0) := by
    unfold Dev.operate
    rw [show y.op = 4 from hop, ← htag hfree, ← hlost]
    exact Dev.opSend_one hx
  obtain ⟨⟨m, heng⟩, hwait⟩ := (d.operate c e k y i s).retire_fab c e k y s i.last skip
    (!y.free && decide (y.wait < bw + (d.descRec c e k).waited))
  rw [← show f = _ from hfire] at heng hwait
  rw [hoperate] at heng hwait
  have hput : ∀ t, (d.putHop x 0 t).eng c e = d.eng c e := fun t => by
    unfold Dev.eng
    rw [Dev.putHop_engs t hspill]
  refine ⟨?_, by rw [heng], fun r => ?_⟩
  · rw [← Dev.putHop_waitAt _ _ _ _ hspill]
    unfold Dev.waitAt Dev.waiting
    rw [hwait]
  · unfold Dev.reg
    rw [heng, hput]

end

/-- Settles O39: the banks leave what the issue stage reads of the core, the chosen descriptor waits or fires, and each of the two
operations followed by what retires it. -/
theorem engineIssues : Obligations.EngineIssues := by
  unfold Obligations.EngineIssues
  refine ⟨fun s c e bw rv f g hs hrun => engineIssue_stands hs hrun, fun s c e bw rv f g hs hrun => ?_⟩
  generalize hD : s.dev.atIssue c.val e.val rv f g = D
  intro _ ready first
  have hchosen : ∀ k, first k → D.chosen c.val e.val = some k := fun k hk => Dev.chosen_first rfl hk
  refine ⟨fun hnone => engineIssue_idle hs hrun hD (Dev.chosen_none hnone), fun k hk hlose => ?_, fun k hk => ?_, fun k x hk => ?_⟩
  · exact engineIssue_loses hs hrun hD (hchosen k hk) hlose
      ⟨Dev.waitPort_descRec _ _ _ _, Dev.waitPort_lost _ _ _ _, Dev.waitPort_frame _ _ _ _⟩
  · intro y arg coll hop hA hB hout hctr hcvt hlive v hv
    exact engineIssue_fires hs hrun hD (hchosen k hk) (Dev.issueLoses_false rv hop (by decide)) (Dev.fire_alu hop hA hB hout hctr hcvt hlive hv)
  · intro y v hop hfree hctr hx hspill
    exact engineIssue_fires hs hrun hD (hchosen k hk) (Dev.issueLoses_false rv hop (by decide)) (Dev.fire_send hop hfree hctr hx hspill)

end Sys2Proof.Machine
end

section
/-!
What settling touches (log entry 42): of the registers, Drip's own, the credits of loops, the switch groups' and the log's counters.
-/

namespace Sys2Proof.Machine

open Sys2Proof

/-- No register differs but those that settling may change. -/
def Dev.offSettle (d e : Dev) : Prop := ∀ a, ¬ settleReg a → e.rd a = d.rd a

theorem Dev.offDrip.offSettle {d e : Dev} (h : d.offDrip e) : d.offSettle e := fun a ha => h a fun hd => ha (.inl hd)

namespace Dev.offSettle

variable {d e f : Dev}

theorem refl (d : Dev) : d.offSettle d := fun _ _ => rfl

theorem trans (h : d.offSettle e) (h' : e.offSettle f) : d.offSettle f := fun a ha => (h' a ha).trans (h a ha)

theorem of_regs (h : e.regs = d.regs) : d.offSettle e := (Dev.offDrip.of_regs h).offSettle

theorem wr (d : Dev) {a : Nat} (v : Nat) (ha : settleReg a) : d.offSettle (d.wr a v) := fun _ hb =>
  Dev.rd_wr_ne d v fun hba => hb (hba ▸ ha)

end Dev.offSettle

theorem Dev.setGrp_offSettle (d : Dev) (g : Nat) (r : GroupRec) : d.offSettle (d.setGrp g r) := by
  unfold Dev.setGrp
  dsimp only
  split
  · next hg =>
    have hsel : settleReg (Reg.scrCtxsel g) := .inr (.inr (.inl ⟨g, hg, rfl⟩))
    exact ((Dev.offSettle.of_regs rfl).trans (.wr _ _ hsel)).trans (.wr _ _ hsel)
  · exact .of_regs rfl

theorem Dev.logInternal_offSettle (d : Dev) (object old new : Nat) (st : Status) : d.offSettle (d.logInternal object old new st) :=
  fun _ ha => Dev.logInternal_rd _ _ _ _ _ (fun h => ha (.inr (.inr (.inr (.inl h))))) fun h => ha (.inr (.inr (.inr (.inr h))))

theorem Dev.switchReq_offSettle (d : Dev) (g : Nat) (r : SwitchReq) : d.offSettle (d.switchReq g r) := by
  unfold Dev.switchReq
  dsimp only
  split
  · exact d.setGrp_offSettle g _
  · exact d.logInternal_offSettle _ _ _ _

theorem Dev.sectionEnd_offSettle (d : Dev) (n : CtrRef) : d.offSettle (d.sectionEnd n) := by
  unfold Dev.sectionEnd
  extract_lets g x i
  repeat' split
  · exact d.switchReq_offSettle _ _
  all_goals exact .refl d

/-- What enters a counter unit's output queue, or its open segment, is counted by Drip alone (R191). -/
theorem Dev.cuFeed_offDrip (c n : Nat) : ∀ d : Dev, d.offDrip (d.cuFeed c n) := by
  induction n with
  | zero => exact fun d => .refl d
  | succ n ih =>
    intro d
    have hcore : ∀ r, d.offDrip (d.setCore c r) := fun r => .of_regs rfl
    rw [Dev.cuFeed]
    repeat' split
    · exact .refl d
    · exact ((hcore _).trans fun a ha => Dev.segPush_rd _ _ _ _ _ ha).trans (ih _)
    · exact .refl d
    · exact ((hcore _).trans (Dev.dripTransfer_timersOnly _ _).regs).trans (ih _)

theorem Dev.cuPut_offDrip (d : Dev) (c : Nat) {t : CuTok} (ht : t.tok.free = true) : d.offDrip (d.cuPut c t) := by
  rw [Dev.cuPut_free ht]
  exact (Dev.offDrip.of_regs rfl).trans (Dev.cuFeed_offDrip c _ _)

theorem Dev.emitCtl_offSettle (d : Dev) (k : CtrRef) (op v ev : Nat) (deg : Bool) : d.offSettle (d.emitCtl k op v true ev deg) := by
  unfold Dev.emitCtl
  extract_lets t outs g
  have hg : d.offSettle g := by
    show d.offSettle (if _ then _ else _)
    split
    · exact .refl d
    · exact (d.cuPut_offDrip k.core rfl).offSettle
  split
  · exact hg.trans (g.sectionEnd_offSettle k)
  · exact hg

theorem Dev.setCounter_offSettle (d : Dev) (k : CtrRef) (r : CounterRec) : d.offSettle (d.setCounter k r) := .of_regs rfl

/-- A trigger of the free class: its control tokens wait before the output queue, and overflow nothing. -/
theorem Dev.trigger_offSettle (d : Dev) (k : CtrRef) (v tag ev : Nat) (deg : Bool) : d.offSettle (d.trigger k v tag true ev deg) := by
  unfold Dev.trigger
  extract_lets r out
  have hset : ∀ r, d.offSettle (d.setCounter k r) := d.setCounter_offSettle k
  repeat' split
  · exact (hset _).trans (Dev.emitCtl_offSettle _ _ _ _ _ _)
  · exact hset _
  · exact hset _
  · exact (hset _).trans (Dev.emitCtl_offSettle _ _ _ _ _ _)
  · exact hset _
  · exact Dev.emitCtl_offSettle _ _ _ _ _ _
  · exact .refl d

theorem Dev.applyHeld_offSettle (k : CtrRef) (n : Nat) : ∀ d : Dev, d.offSettle (d.applyHeld k n) := by
  induction n with
  | zero => exact fun d => .refl d
  | succ n ih =>
    intro d
    rw [Dev.applyHeld]
    repeat' split
    · exact .refl d
    · exact .refl d
    · exact ((d.setCounter_offSettle k _).trans (Dev.trigger_offSettle _ _ _ _ _ _)).trans (ih _)

theorem Dev.countTok_offSettle (d : Dev) (k : CtrRef) (v : Nat) (deg : Bool) : d.offSettle (d.countTok k v deg) := by
  unfold Dev.countTok
  dsimp only
  repeat' split
  · exact Dev.emitCtl_offSettle _ _ _ _ _ _
  · exact (d.setCounter_offSettle k _).trans (Dev.applyHeld_offSettle k _ _)
  · exact .refl d

theorem Dev.addCredits_offSettle (d : Dev) (cl k n : Nat) : d.offSettle (d.addCredits cl k n) := by
  have hstat : settleReg (Reg.crlStat cl k) := .inr (.inl ⟨cl, k, .inl rfl⟩)
  have htotal : settleReg (Reg.crlBoundTotal cl) := .inr (.inl ⟨cl, k, .inr rfl⟩)
  unfold Dev.addCredits
  dsimp only
  repeat' split
  · exact ((Dev.offSettle.wr d _ hstat).trans (.wr _ _ hstat)).trans (.wr _ _ htotal)
  · exact .wr d _ hstat
  · exact .refl d

theorem Dev.reachCounter_offSettle (d : Dev) (x : Circuit) (t : Token) : d.offSettle (d.reachCounter x t) := by
  unfold Dev.reachCounter
  dsimp only
  repeat' split
  · exact .refl d
  · exact .of_regs rfl
  · exact d.addCredits_offSettle _ _ _
  · exact d.countTok_offSettle _ _ _
  · exact .refl d

theorem Dev.drainEnd_offSettle (x : Circuit) (n : Nat) : ∀ d : Dev, d.offSettle (d.drainEnd x n) := by
  induction n with
  | zero => exact fun d => .refl d
  | succ n ih =>
    intro d
    rw [Dev.drainEnd]
    repeat' split
    · exact .refl d
    · exact ((d.dropHead_offDrip x _).offSettle.trans (Dev.reachCounter_offSettle _ x _)).trans (ih _)
    · exact .refl d

theorem Dev.drainEnds_offSettle (d : Dev) : d.offSettle d.drainEnds := by
  refine foldl_keeps (P := d.offSettle) (fun e x he => ?_) (.refl d)
  split
  · exact he.trans (Dev.drainEnd_offSettle x _ e)
  · exact he

/-- Settling changes no register but those that `settleReg` names. -/
theorem Dev.settleDrip_offSettle (d : Dev) : d.offSettle d.settleDrip := by
  have hfeed : d.drainEnds.offDrip d.drainEnds.feedUnits :=
    foldl_keeps (P := d.drainEnds.offDrip) (fun e p he => he.trans (Dev.cuFeed_offDrip p.1 _ e)) (.refl _)
  have hscan : d.drainEnds.feedUnits.offDrip d.settleDrip := (Dev.dripScan_dripFrame _).2
  exact d.drainEnds_offSettle.trans (hfeed.trans hscan).offSettle

/-- Where nothing waits before a counter or for a unit's output, settling touches Drip's own state alone. -/
theorem Dev.settleDrip_dripFrame {d : Dev} (hends : ∀ x ∈ d.fab.circuits, x.counterEnd = true → d.waitAt x.key x.route.length = [])
    (hunits : ∀ p ∈ d.fab.cores, p.2.cuHeld = []) : d.dripFrame d.settleDrip := by
  have hdrain : d.drainEnds = d := by
    refine List.foldlRecOn d.fab.circuits _ (motive := fun e => e = d) rfl fun e he x hx => ?_
    subst he
    split
    · next hc => rw [hends x hx hc]; rfl
    · rfl
  have hfeed : d.feedUnits = d := by
    refine List.foldlRecOn d.fab.cores _ (motive := fun e => e = d) rfl fun e he p hp => ?_
    rw [he, hunits p hp]
    rfl
  unfold Dev.settleDrip
  rw [hdrain, hfeed]
  exact d.dripScan_dripFrame

end Sys2Proof.Machine
end

section
/-!
Drip's timer (R189, R190, R193, R194): the free segment and the fullest queue that an expiry chooses.
-/

namespace Sys2Proof.Machine

open Sys2Proof

theorem exec_dripTimerExpiry (s : State) (cl : ClusterId) (k : Fin 32) (tie : Bool) :
    exec (.dripTimerExpiry cl k tie) s = s.live fun d => d.dripExpire cl.val k.val tie := rfl

/-! The fullest of some queues -/

/-- Of the first n queues that are not left out, the one with the greatest length, of equals the lowest. -/
def fullestOf (out : Nat → Bool) (len : Nat → Nat) (n : Nat) : Option Nat :=
  (List.range n).foldl (fun b i =>
    if out i then b
    else match b with
      | none => some i
      | some k => if len k < len i then some i else b) none

/-- Queue i is the fullest of the first n that are not left out, and of equals the lowest. -/
structure IsFullest (out : Nat → Bool) (len : Nat → Nat) (n i : Nat) : Prop where
  lt : i < n
  notOut : out i = false
  le : ∀ m < n, out m = false → len m ≤ len i
  first : ∀ m < i, out m = false → len m < len i

section
variable {out : Nat → Bool} {len : Nat → Nat} {n i : Nat}

/-- Queue n takes the place of the fullest before it when it is longer, and keeps off when it is not. -/
theorem IsFullest.succ (h : IsFullest out len n i) : IsFullest out len (n + 1) (if out n = false ∧ len i < len n then n else i) := by
  obtain ⟨hlt, hnot, hle, hfirst⟩ := h
  split
  · next hn =>
    refine ⟨by omega, hn.1, fun m hm ho => ?_, fun m hm ho => (hle m hm ho).trans_lt hn.2⟩
    rcases Nat.lt_succ_iff_lt_or_eq.mp hm with hmn | rfl
    · exact (hle m hmn ho).trans hn.2.le
    · exact le_rfl
  · next hn =>
    refine ⟨by omega, hnot, fun m hm ho => ?_, hfirst⟩
    rcases Nat.lt_succ_iff_lt_or_eq.mp hm with hmn | rfl
    · exact hle m hmn ho
    · exact not_lt.mp fun hlt => hn ⟨ho, hlt⟩

/-- The choice: none when all are left out, else the fullest. -/
theorem fullestOf_spec (out : Nat → Bool) (len : Nat → Nat) (n : Nat) :
    (fullestOf out len n = none ∧ ∀ m < n, out m = true) ∨ ∃ i, fullestOf out len n = some i ∧ IsFullest out len n i := by
  induction n with
  | zero => exact .inl ⟨rfl, fun m hm => absurd hm (Nat.not_lt_zero m)⟩
  | succ n ih =>
    unfold fullestOf at ih ⊢
    rw [List.range_succ, List.foldl_append, List.foldl_cons, List.foldl_nil]
    rcases ih with ⟨hnone, hout⟩ | ⟨i, hsome, hi⟩
    · rw [hnone]
      cases ho : out n with
      | true => exact .inl ⟨rfl, fun m hm => (Nat.lt_succ_iff_lt_or_eq.mp hm).elim (hout m) fun e => e ▸ ho⟩
      | false =>
        refine .inr ⟨n, rfl, Nat.lt_succ_self n, ho, fun m hm hm' => ?_, fun m hm hm' => absurd hm' (by rw [hout m hm]; decide)⟩
        rcases Nat.lt_succ_iff_lt_or_eq.mp hm with hmn | rfl
        · exact absurd hm' (by rw [hout m hmn]; decide)
        · exact le_rfl
    · refine .inr ⟨_, ?_, hi.succ⟩
      rw [hsome]
      cases ho : out n with
      | true => rfl
      | false =>
        dsimp only
        rw [if_neg (by decide)]
        split
        · next hlt => rw [if_pos ⟨rfl, hlt⟩]
        · next hlt => rw [if_neg fun h => hlt h.2]

end

/-! Segments -/

section
variable {d : Dev} {cl k : Nat}

/-- Segment j of a cluster is open, or a set is spilling to it. -/
def Dev.segTaken (d : Dev) (cl j : Nat) : Prop :=
  (d.spill cl j).isSome = true ∨ ∃ i < 32, ∃ q, (d.drip cl i).spilling = some (q, j)

/-- The lowest segment of a cluster that is free. -/
def Dev.freeSegment (d : Dev) (cl : Nat) : Option Nat :=
  let used := ((List.range 32).filterMap fun k => (d.drip cl k).spilling).map fun p => p.2
  findBelow (fun j => (d.spill cl j).isNone && !used.contains j) 4

/-- The queue of a set that its expiry chooses. -/
def Dev.fullestQueue (d : Dev) (cl k : Nat) : Option Nat :=
  let r := d.drip cl k
  fullestOf (fun i => (d.openQueues cl k).contains i) (fun i => d.queueLen (r.queues.getD i ⟨0, 0, 0, 0, 0, 0⟩)) r.queues.length

theorem Dev.segFree_iff (d : Dev) (cl j : Nat) :
    ((d.spill cl j).isNone && !(((List.range 32).filterMap fun k => (d.drip cl k).spilling).map fun p => p.2).contains j) = true ↔
      ¬ d.segTaken cl j := by
  have hused : (((List.range 32).filterMap fun k => (d.drip cl k).spilling).map fun p => p.2).contains j = true ↔
      ∃ i < 32, ∃ q, (d.drip cl i).spilling = some (q, j) := by
    simp only [List.contains_iff_mem, List.mem_map, List.mem_filterMap, List.mem_range, Prod.exists, exists_eq_right]
    exact ⟨fun ⟨q, i, h⟩ => ⟨i, h.1, q, h.2⟩, fun ⟨i, hi, q, h⟩ => ⟨q, i, hi, h⟩⟩
  unfold Dev.segTaken
  rw [← hused]
  simp

theorem Dev.freeSegment_none (h : d.freeSegment cl = none) : ∀ j < 4, d.segTaken cl j := fun j hj =>
  not_not.mp fun hn => List.find?_eq_none.mp h j (List.mem_range.mpr hj) ((d.segFree_iff cl j).mpr hn)

theorem Dev.freeSegment_some {j : Nat} (h : d.freeSegment cl = some j) : j < 4 ∧ ¬ d.segTaken cl j := by
  unfold Dev.freeSegment findBelow at h
  have hfree := List.find?_some h
  exact ⟨List.mem_range.mp (List.mem_of_find?_eq_some h), (d.segFree_iff cl j).mp hfree⟩

theorem Dev.mem_openQueues {i : Nat} : (d.openQueues cl k).contains i = true ↔
    ∃ j < 4, ∃ x, d.spill cl j = some x ∧ x.set = k ∧ x.queue = i := by
  have hmem : ∀ j, (match d.spill cl j with
      | some x => if x.set = k then some x.queue else none
      | none => none) = some i ↔ ∃ x, d.spill cl j = some x ∧ x.set = k ∧ x.queue = i := fun j => by
    cases d.spill cl j <;> simp
  rw [List.contains_iff_mem]
  unfold Dev.openQueues
  rw [List.mem_filterMap]
  exact exists_congr fun j => and_congr List.mem_range (hmem j)

/-! What an expiry does -/

variable {t : Nat} (tie : Bool) (hsince : (d.drip cl k).since = some t) (hspill : (d.drip cl k).spilling = none)
  (hdue : t + d.fld (Reg.drpCfg cl) Fld.drpCfgDripWaitNs ≤ d.devNs)
include hsince hspill hdue

/-- The due timer of a set that is blocked no more stops. -/
theorem Dev.dripExpire_idle (hb : d.dripBlocked cl k = false) : d.dripExpire cl k tie = d.setDrip cl k { d.drip cl k with since := none } := by
  unfold Dev.dripExpire
  simp [hsince, hspill, Nat.not_lt.mpr hdue, hb]

/-- A transfer that resolves together with the expiry wins (R194). -/
theorem Dev.dripExpire_beaten (hb : d.dripBlocked cl k = true) :
    d.dripExpire cl k true = d.setDrip cl k { d.drip cl k with since := some d.devNs } := by
  unfold Dev.dripExpire
  simp [hsince, hspill, Nat.not_lt.mpr hdue, hb]

/-- The expiry of a blocked set's timer: counted where no segment is free (R193), else the fullest queue spills (R190). -/
theorem Dev.dripExpire_chooses (hb : d.dripBlocked cl k = true) : d.dripExpire cl k false =
    match d.freeSegment cl, d.fullestQueue cl k with
    | none, _ => (d.count (Reg.drpFull cl)).setDrip cl k { d.drip cl k with since := some d.devNs }
    | some j, some i => d.setDrip cl k { d.drip cl k with spilling := some (i, j), since := some d.devNs }
    | some _, none => d.setDrip cl k { d.drip cl k with since := some d.devNs } := by
  have hopen : d.dripExpire cl k false = match d.freeSegment cl with
      | none => (d.count (Reg.drpFull cl)).setDrip cl k { d.drip cl k with since := some d.devNs }
      | some j => match d.fullestQueue cl k with
        | some i => d.setDrip cl k { d.drip cl k with spilling := some (i, j), since := some d.devNs }
        | none => d.setDrip cl k { d.drip cl k with since := some d.devNs } := by
    unfold Dev.dripExpire
    dsimp only
    rw [hsince]
    dsimp only
    rw [hspill, if_neg (by simp [Nat.not_lt.mpr hdue]), if_neg (by simp [hb]), if_neg (by decide)]
    rfl
  rw [hopen]
  cases d.freeSegment cl <;> cases d.fullestQueue cl k <;> rfl

end

theorem Dev.setDrip_drip (d : Dev) (cl k : Nat) (r : DripRec) : (d.setDrip cl k r).drip cl k = r := SMap.get_set_same _ _ _

/-- The first clause of O40: a set's due timer. -/
theorem dripTimerExpiry_gives {s : State} {cl : ClusterId} {k : Fin 32} {t : Nat} (tie : Bool) (hs : s.dev.alive = true)
    (hsince : (s.dev.drip cl.val k.val).since = some t) (hspill : (s.dev.drip cl.val k.val).spilling = none)
    (hdue : t + s.dev.fld (Reg.drpCfg cl.val) Fld.drpCfgDripWaitNs ≤ s.dev.devNs) :
    let q := fun i => (s.dev.drip cl.val k.val).queues.getD i ⟨0, 0, 0, 0, 0, 0⟩
    let opened := fun i => ∃ j < 4, ∃ x, s.dev.spill cl.val j = some x ∧ x.set = k.val ∧ x.queue = i
    (s.dev.dripBlocked cl.val k.val = false → Gives (.dripTimerExpiry cl k tie) s fun d =>
      d.drip cl.val k.val = { s.dev.drip cl.val k.val with since := none } ∧ s.dev.regsBut [] d ∧ s.dev.dripFrame d ∧
        s.dev.keepsBut [.fab] d) ∧
    (s.dev.dripBlocked cl.val k.val = true → Gives (.dripTimerExpiry cl k tie) s fun d =>
      (d.drip cl.val k.val).since = some s.dev.devNs ∧
      (tie = true → d.drip cl.val k.val = { s.dev.drip cl.val k.val with since := some s.dev.devNs }) ∧
      (tie = false → (∀ j < 4, s.dev.segTaken cl.val j) → d.rd (Reg.drpFull cl.val) = satInc 32 1 (s.dev.rd (Reg.drpFull cl.val)) ∧
        (d.drip cl.val k.val).spilling = none) ∧
      (tie = false → (∃ j < 4, ¬ s.dev.segTaken cl.val j) → (∃ i < (s.dev.drip cl.val k.val).queues.length, ¬opened i) →
        ∃ i j, (d.drip cl.val k.val).spilling = some (i, j) ∧ j < 4 ∧ ¬ s.dev.segTaken cl.val j ∧
          i < (s.dev.drip cl.val k.val).queues.length ∧ ¬opened i ∧
          ∀ n < (s.dev.drip cl.val k.val).queues.length, ¬opened n → s.dev.queueLen (q n) ≤ s.dev.queueLen (q i) ∧
            (n < i → s.dev.queueLen (q n) < s.dev.queueLen (q i))) ∧
      s.dev.dripFrame d ∧ s.dev.keepsBut [.regs, .fab] d) := by
  intro q opened
  have hkeeps : s.dev.keepsBut [.regs, .fab] (s.dev.dripExpire cl.val k.val tie) :=
    Dev.dripExpire_keeps (keepsBut_keeps _ _) (keepsBut_refl _ _)
  refine ⟨fun hb => gives_live (exec_dripTimerExpiry ..) hs ?_, fun hb => gives_live (exec_dripTimerExpiry ..) hs ?_⟩
  · rw [Dev.dripExpire_idle tie hsince hspill hdue hb]
    exact ⟨Dev.setDrip_drip .., fun _ _ => rfl, Dev.setDrip_dripFrame .., Dev.setDrip_keeps (keepsBut_keeps _ _) (keepsBut_refl _ _)⟩
  · cases tie with
    | true =>
      rw [Dev.dripExpire_beaten hsince hspill hdue hb] at hkeeps ⊢
      exact ⟨by rw [Dev.setDrip_drip], fun _ => Dev.setDrip_drip .., fun h => absurd h (by decide), fun h => absurd h (by decide),
        Dev.setDrip_dripFrame .., hkeeps⟩
    | false =>
      rw [Dev.dripExpire_chooses hsince hspill hdue hb] at hkeeps ⊢
      cases hj : s.dev.freeSegment cl.val with
      | none =>
        rw [hj] at hkeeps
        refine ⟨by rw [Dev.setDrip_drip], fun h => absurd h (by decide), fun _ _ => ⟨Dev.rd_count .., ?_⟩, fun _ hfree => ?_, ?_, hkeeps⟩
        · rw [Dev.setDrip_drip]; exact hspill
        · obtain ⟨j, hlt, hn⟩ := hfree
          exact absurd (Dev.freeSegment_none hj j hlt) hn
        · exact (Dev.wr_dripFrame _ _ (by have := cl.isLt; simp only [dripReg, Reg.drpFull]; omega)).trans (Dev.setDrip_dripFrame ..)
      | some j =>
        obtain ⟨hlt, hfree⟩ := Dev.freeSegment_some hj
        have hnotall : ¬ ∀ j < 4, s.dev.segTaken cl.val j := fun h => hfree (h j hlt)
        have hout : ∀ i, (s.dev.openQueues cl.val k.val).contains i = false ↔ ¬ opened i := fun i => by
          rw [← Bool.not_eq_true, Dev.mem_openQueues]
        rcases fullestOf_spec (fun i => (s.dev.openQueues cl.val k.val).contains i) (fun i => s.dev.queueLen (q i))
          (s.dev.drip cl.val k.val).queues.length with ⟨hnone, hall⟩ | ⟨i, hsome, hi⟩
        · have hi : s.dev.fullestQueue cl.val k.val = none := hnone
          rw [hj, hi] at hkeeps
          rw [hi]
          refine ⟨by rw [Dev.setDrip_drip], fun h => absurd h (by decide), fun _ h => absurd h hnotall, fun _ _ hex => ?_,
            Dev.setDrip_dripFrame .., hkeeps⟩
          obtain ⟨i, hilt, hio⟩ := hex
          exact absurd (Dev.mem_openQueues.mp (hall i hilt)) hio
        · have hf : s.dev.fullestQueue cl.val k.val = some i := hsome
          rw [hj, hf] at hkeeps
          rw [hf]
          refine ⟨by rw [Dev.setDrip_drip], fun h => absurd h (by decide), fun _ h => absurd h hnotall, fun _ _ _ => ?_,
            Dev.setDrip_dripFrame .., hkeeps⟩
          exact ⟨i, j, by rw [Dev.setDrip_drip], hlt, hfree, hi.lt, (hout i).mp hi.notOut,
            fun n hn hno => ⟨hi.le n hn ((hout n).mpr hno), fun hni => hi.first n hni ((hout n).mpr hno)⟩⟩

end Sys2Proof.Machine
end

section
/-!
A spill (R190 to R192, R195, R221): the queue it empties and the segment it opens.
-/

namespace Sys2Proof.Machine

open Sys2Proof

/-! The slot that Drip has -/

/-- The stack that a cluster's Drip area lies in. -/
def Dev.dripStack (d : Dev) (cl : Nat) : Nat := d.fld (Reg.drpArea cl) Fld.drpAreaStack

/-- What Drip does in a slot that it has, which it uses (R221). -/
theorem gives_dripUse {i : Instr} {s : State} {P : Dev → Prop} {cl : Nat} {f : Dev → Dev}
    (e : exec i s = s.live fun d => d.dripUse cl f) (hs : s.dev.alive = true)
    (hgrant : (s.dev.stackRec (s.dev.dripStack cl)).grant = 4) (h : P (f s.dev)) :
    Gives i s fun e => (e.stackRec (s.dev.dripStack cl)).grant = 0 ∧ ∃ d : Dev, e = d.settleDrip.useGrant (s.dev.dripStack cl) ∧ P d := by
  have huse : s.dev.dripUse cl f = (f s.dev).settleDrip.useGrant (s.dev.dripStack cl) :=
    if_pos (by unfold Dev.served Dev.granted; rw [Bool.or_eq_true]; exact .inl (decide_eq_true hgrant))
  refine gives_live e hs ⟨?_, f s.dev, huse, h⟩
  rw [huse]
  unfold Dev.useGrant
  rw [Dev.setStack_rec]

/-! Segments written -/

section
variable {d : Dev} {cl j k : Nat}

/-- Tokens written one after another at the tail of an open segment. -/
def Dev.segPushAll (d : Dev) (cl j : Nat) (ts : List DripTok) : Dev :=
  ts.foldl (fun f t => match f.spill cl j with
    | some x => f.segPush cl j x t
    | none => f) d

theorem Dev.segPushAll_spill (ts : List DripTok) : ∀ {d : Dev} {x : Spill}, d.spill cl j = some x →
    (d.segPushAll cl j ts).spill cl j = some { x with toks := x.toks ++ ts, wrote := x.wrote + ts.length } := by
  induction ts with
  | nil => intro d x hx; simpa [Dev.segPushAll] using hx
  | cons t ts ih =>
    intro d x hx
    have hstep : d.segPushAll cl j (t :: ts) = (d.segPush cl j x t).segPushAll cl j ts := by
      unfold Dev.segPushAll
      rw [List.foldl_cons, hx]
    rw [hstep, ih (Dev.segPush_spill ..)]
    simp [Nat.add_comm, Nat.add_left_comm]

/-- Tokens written into a segment leave the fabric but for the segments. -/
theorem Dev.segPushAll_fab (ts : List DripTok) (d : Dev) (cl j : Nat) : ∃ x, (d.segPushAll cl j ts).fab = { d.fab with spills := x } := by
  refine foldl_keeps (P := fun e => ∃ x, e.fab = { d.fab with spills := x }) (fun e t he => ?_) ⟨_, rfl⟩
  split
  · obtain ⟨x, hx⟩ := he
    obtain ⟨y, hy⟩ := e.segPush_fab cl j _ t
    exact ⟨y, by rw [hy, hx]⟩
  · exact he

/-! The queue emptied -/

/-- An input queue emptied of its free class (R190, R195). -/
theorem Dev.drainQueue_engine {q : Endp} (hk : q.kind = 1) :
    (d.drainQueue q).1.map (fun t => t.tok) = (d.iq (d.physCore q.cl q.core) q.eng q.idx).filter (fun t => t.free) ∧
    (d.drainQueue q).2.iq (d.physCore q.cl q.core) q.eng q.idx =
      (d.iq (d.physCore q.cl q.core) q.eng q.idx).filter fun t => !t.free := by
  unfold Dev.drainQueue Dev.queueTokens
  dsimp only
  rw [if_pos hk, if_pos hk]
  refine ⟨by rw [List.map_map]; exact List.map_id _, ?_⟩
  split
  · rw [Dev.setClosed_iq, Dev.setIq_iq]
  · rw [Dev.setIq_iq]

/-- A counter unit's output queue emptied of its free class. -/
theorem Dev.drainQueue_counterUnit {q : Endp} (hk : q.kind = 2) :
    (d.drainQueue q).1.map (fun t => t.tok) = (d.cuTokens (d.physCore q.cl q.core) true).map (fun t => t.tok) ∧
    ((d.drainQueue q).2.core (d.physCore q.cl q.core)).cuOut =
      (d.core (d.physCore q.cl q.core)).cuOut.filter fun t => !t.tok.free := by
  unfold Dev.drainQueue Dev.queueTokens
  dsimp only
  rw [if_neg (by omega), if_pos hk, if_neg (by omega), if_pos hk, Dev.setCore_core]
  exact ⟨by rw [List.map_map]; rfl, rfl⟩

/-! The spill -/

/-- The device once set k has spilled queue i into segment j: the tokens taken out stand there in their order, and the spill is open. -/
def Dev.spilled (d : Dev) (cl k i j : Nat) : Dev :=
  let p := d.drainQueue ((d.drip cl k).queues.getD i ⟨0, 0, 0, 0, 0, 0⟩)
  ((p.2.setDrip cl k { d.drip cl k with spilling := none }).setSpill cl j (some ⟨k, i, [], 0, false⟩)).segPushAll cl j p.1

theorem Dev.dripSpilled_eq {i : Nat} (hspill : (d.drip cl k).spilling = some (i, j)) : d.dripSpilled cl k =
    let e := d.spilled cl k i j
    let a := Reg.drpSet cl k
    ((e.setFld a Fld.drpSetOpen 1).setFld a Fld.drpSetSpills (satInc 16 1 (e.fld a Fld.drpSetSpills))).count (Reg.drpSpills cl) := by
  unfold Dev.dripSpilled
  dsimp only
  rw [hspill]
  rfl

theorem Dev.spilled_fab (d : Dev) (cl k i j : Nat) : ∃ x, (d.spilled cl k i j).fab =
    { ((d.drainQueue ((d.drip cl k).queues.getD i ⟨0, 0, 0, 0, 0, 0⟩)).2.setDrip cl k { d.drip cl k with spilling := none }).fab with
      spills := x } := by
  obtain ⟨x, hx⟩ := Dev.segPushAll_fab (d.drainQueue ((d.drip cl k).queues.getD i ⟨0, 0, 0, 0, 0, 0⟩)).1 (((d.drainQueue
    ((d.drip cl k).queues.getD i ⟨0, 0, 0, 0, 0, 0⟩)).2.setDrip cl k { d.drip cl k with spilling := none }).setSpill cl j
      (some ⟨k, i, [], 0, false⟩)) cl j
  exact ⟨x, hx⟩

theorem Dev.spilled_spill (d : Dev) (cl k i j : Nat) : (d.spilled cl k i j).spill cl j =
    some ⟨k, i, (d.drainQueue ((d.drip cl k).queues.getD i ⟨0, 0, 0, 0, 0, 0⟩)).1,
      (d.drainQueue ((d.drip cl k).queues.getD i ⟨0, 0, 0, 0, 0, 0⟩)).1.length, false⟩ := by
  unfold Dev.spilled
  dsimp only
  rw [Dev.segPushAll_spill _ (Dev.setSpill_spill ..)]
  simp

end

theorem exec_dripSpillComplete (s : State) (cl : ClusterId) (k : Fin 32) :
    exec (.dripSpillComplete cl k) s = s.live fun d => d.dripUse cl.val fun f => f.dripSpilled cl.val k.val := rfl

/-- What a spill that is complete leaves (R190, R192). -/
theorem Dev.dripSpilled_spec {d : Dev} {cl k i j : Nat} (hspill : (d.drip cl k).spilling = some (i, j)) :
    let q := (d.drip cl k).queues.getD i ⟨0, 0, 0, 0, 0, 0⟩
    let c := d.physCore q.cl q.core
    let e := d.dripSpilled cl k
    (∃ x, e.spill cl j = some x ∧ x.set = k ∧ x.queue = i ∧ x.wrote = x.toks.length ∧
      (q.kind = 1 → x.toks.map (fun t => t.tok) = (d.iq c q.eng q.idx).filter (fun t => t.free) ∧
        e.iq c q.eng q.idx = (d.iq c q.eng q.idx).filter fun t => !t.free) ∧
      (q.kind = 2 → x.toks.map (fun t => t.tok) = (d.cuTokens c true).map (fun t => t.tok) ∧
        (e.core c).cuOut = (d.core c).cuOut.filter fun t => !t.tok.free)) ∧
    (e.drip cl k).spilling = none ∧ e.fld (Reg.drpSet cl k) Fld.drpSetOpen = 1 := by
  intro q c e
  have heq : e = _ := Dev.dripSpilled_eq hspill
  dsimp only at heq
  have hfab : e.fab = (d.spilled cl k i j).fab := by rw [heq]; rfl
  obtain ⟨z, hz⟩ := d.spilled_fab cl k i j
  have hengs : e.fab.engs = (d.drainQueue q).2.fab.engs := by rw [hfab, hz]; rfl
  have hcores : e.fab.cores = (d.drainQueue q).2.fab.cores := by rw [hfab, hz]; rfl
  have hspills : e.spill cl j = (d.spilled cl k i j).spill cl j := by unfold Dev.spill; rw [hfab]
  refine ⟨⟨_, hspills.trans (d.spilled_spill cl k i j), rfl, rfl, rfl, fun hk => ?_, fun hk => ?_⟩, ?_, ?_⟩
  · refine ⟨(Dev.drainQueue_engine hk).1, Eq.trans ?_ (Dev.drainQueue_engine hk).2⟩
    unfold Dev.iq Dev.eng; rw [hengs]
  · refine ⟨(Dev.drainQueue_counterUnit hk).1, Eq.trans ?_ (Dev.drainQueue_counterUnit hk).2⟩
    unfold Dev.core; rw [hcores]
  · have hdrip : e.drip cl k = { d.drip cl k with spilling := none } := by
      unfold Dev.drip
      rw [hfab, hz]
      exact Dev.setDrip_drip ..
    rw [hdrip]
  · rw [heq, Dev.fld_of_rd (Dev.rd_count_ne _ (by simp only [Reg.drpSet, Reg.drpSpills]; omega)),
      Dev.fld_setFld_fld _ _ _ _ _ (by decide) (by decide), Dev.fld_setFld_same _ _ _ _ (by decide)]
    rfl

end Sys2Proof.Machine
end

section
/-!
Drip's reads (R181, R191, R196, R227, R228, R231): a refill of a queue, and a spill that fails.
-/

namespace Sys2Proof.Machine

open Sys2Proof

/-! Segments freed -/

section
variable {d : Dev} {cl j m k : Nat}

theorem Dev.setSpill_spill_ne (d : Dev) {cl j m : Nat} (r : Option Spill) (h : m ≠ j) : (d.setSpill cl j r).spill cl m = d.spill cl m :=
  SMap.get_set_ne _ _ (by omega)

theorem Dev.setSpill_iq (d : Dev) (cl j : Nat) (r : Option Spill) (c e q : Nat) : (d.setSpill cl j r).iq c e q = d.iq c e q := by
  have hfab : (d.setSpill cl j r).fab.engs = d.fab.engs := rfl
  unfold Dev.iq Dev.eng
  rw [hfab]

/-- Of the registers, a segment freed changes what its cluster's segments show, and its set's OPEN bit. -/
theorem Dev.closeSpill_rd {a : Nat} (hopen : a ≠ Reg.drpOpen cl) (hused : a ≠ Reg.drpUsed cl) (hset : a ≠ Reg.drpSet cl (k % 32)) :
    (d.closeSpill cl j k).rd a = d.rd a := by
  have hspill : (d.setSpill cl j none).rd a = d.rd a := by
    unfold Dev.setSpill
    dsimp only
    rw [Dev.rd_wr_ne _ _ hused, Dev.rd_setFld_ne _ _ _ hopen]
    rfl
  unfold Dev.closeSpill
  dsimp only
  split
  · exact hspill
  · rw [Dev.rd_setFld_ne _ _ _ hset, hspill]

theorem Dev.closeSpill_fab (d : Dev) (cl j k : Nat) : (d.closeSpill cl j k).fab = (d.setSpill cl j none).fab := by
  unfold Dev.closeSpill
  dsimp only
  split <;> rfl

theorem Dev.spill_of_fab {e : Dev} (h : e.fab = d.fab) (cl j : Nat) : e.spill cl j = d.spill cl j := by unfold Dev.spill; rw [h]

theorem Dev.closeSpill_spill (d : Dev) (cl j k : Nat) : (d.closeSpill cl j k).spill cl j = none :=
  (Dev.spill_of_fab (d.closeSpill_fab cl j k) cl j).trans (Dev.setSpill_spill ..)

theorem Dev.closeSpill_spill_ne (h : m ≠ j) : (d.closeSpill cl j k).spill cl m = d.spill cl m :=
  (Dev.spill_of_fab (d.closeSpill_fab cl j k) cl m).trans (Dev.setSpill_spill_ne d none h)

theorem Dev.closeSpill_iq (d : Dev) (cl j k c e q : Nat) : (d.closeSpill cl j k).iq c e q = d.iq c e q := by
  rw [← d.setSpill_iq cl j none]
  unfold Dev.iq Dev.eng
  rw [Dev.closeSpill_fab]

/-- The last open segment of a set freed: its OPEN bit clears. -/
theorem Dev.closeSpill_open (hk : k < 32) (h : ∀ m < 4, m ≠ j → ∀ y, d.spill cl m = some y → y.set ≠ k) :
    (d.closeSpill cl j k).fld (Reg.drpSet cl k) Fld.drpSetOpen = 0 := by
  have hnone : ¬ (((List.range 4).any fun i => ((d.setSpill cl j none).spill cl i).any fun x => x.set = k) = true) := by
    simp only [List.any_eq_true, List.mem_range, not_exists, not_and, Bool.not_eq_true]
    intro m hm
    by_cases hmj : m = j
    · rw [hmj, Dev.setSpill_spill]; rfl
    · rw [Dev.setSpill_spill_ne d none hmj]
      cases hy : d.spill cl m with
      | none => rfl
      | some y => exact decide_eq_false (h m hm hmj y hy)
  unfold Dev.closeSpill
  dsimp only
  rw [if_neg hnone, Nat.mod_eq_of_lt hk]
  exact Dev.fld_setFld_same _ _ _ _ (by decide)

end

/-! A spill that fails (R196, R228, R231) -/

/-- The device as a failing read finds it: its burst counts as the stack's where that reads (R228). -/
def Dev.burstCounted (d : Dev) (cl : Nat) : Dev := if d.stackState (d.dripStack cl) = skUp then d.stackUe (d.dripStack cl) else d

section
variable {d : Dev} {cl j m : Nat} {x : Spill}

/-- The device once a segment's spill is discarded and counted, not yet logged. -/
def Dev.spillLost (d : Dev) (cl j k : Nat) : Dev := ((d.burstCounted cl).closeSpill cl j k).count (Reg.drpFail cl)

theorem Dev.dripFail_eq (h : d.spill cl j = some x) : d.dripFail cl j =
    (d.spillLost cl j x.set).logInternal (Reg.drpFail cl) ((d.burstCounted cl).rd (Reg.drpFail cl))
      ((d.spillLost cl j x.set).rd (Reg.drpFail cl)) .degraded := by
  unfold Dev.dripFail
  rw [h]
  rfl

theorem Dev.dripStack_lt (d : Dev) (cl : Nat) : d.dripStack cl < 16 := bitsOf_lt _ _ 4

theorem Dev.burstCounted_fab (d : Dev) (cl : Nat) : (d.burstCounted cl).fab = d.fab := by
  unfold Dev.burstCounted
  split
  · exact Dev.stackUe_keeps (P := fun e => Part.same d e .fab) (Part.same_keeps .fab rfl) rfl
  · rfl

theorem Dev.burstCounted_rd {a : Nat} (h : 0x200000 ≤ a) (hdie : a % 0x20000 < 0x1F000) : (d.burstCounted cl).rd a = d.rd a := by
  have hst := d.dripStack_lt cl
  unfold Dev.burstCounted
  split
  · rw [Dev.stackUe_rd hst (by omega) (by simp only [Reg.stkScfg]; omega) (by simp only [Reg.dieStat]; omega),
      Dev.rd_count_ne _ (by simp only [Reg.stkUe]; omega)]
  · rfl

theorem Dev.spillLost_fab (d : Dev) (cl j k : Nat) : (d.spillLost cl j k).fab = ((d.burstCounted cl).closeSpill cl j k).fab := rfl

/-- The discarded spill is counted. -/
theorem Dev.spillLost_count (d : Dev) (cl j k : Nat) : (d.spillLost cl j k).rd (Reg.drpFail cl) = satInc 32 1 (d.rd (Reg.drpFail cl)) := by
  unfold Dev.spillLost
  rw [Dev.rd_count, Dev.closeSpill_rd (by simp only [Reg.drpFail, Reg.drpOpen]; omega) (by simp only [Reg.drpFail, Reg.drpUsed]; omega)
    (by simp only [Reg.drpFail, Reg.drpSet]; omega), Dev.burstCounted_rd (by simp only [Reg.drpFail]; omega)
    (by simp only [Reg.drpFail]; omega)]

section
variable (h : d.spill cl j = some x)
include h

theorem Dev.dripFail_fab : (d.dripFail cl j).fab = ((d.burstCounted cl).closeSpill cl j x.set).fab := by
  rw [Dev.dripFail_eq h, Dev.logInternal_fab, Dev.spillLost_fab]

theorem Dev.dripFail_spill : (d.dripFail cl j).spill cl j = none :=
  (Dev.spill_of_fab (Dev.dripFail_fab h) cl j).trans (Dev.closeSpill_spill ..)

theorem Dev.dripFail_spill_ne (hm : m ≠ j) : (d.dripFail cl j).spill cl m = d.spill cl m := by
  rw [Dev.spill_of_fab (Dev.dripFail_fab h), Dev.closeSpill_spill_ne hm, Dev.spill_of_fab (d.burstCounted_fab cl)]

theorem Dev.dripFail_iq (c e q : Nat) : (d.dripFail cl j).iq c e q = d.iq c e q := by
  calc (d.dripFail cl j).iq c e q
    _ = ((d.burstCounted cl).closeSpill cl j x.set).iq c e q := by unfold Dev.iq Dev.eng; rw [Dev.dripFail_fab h]
    _ = (d.burstCounted cl).iq c e q := Dev.closeSpill_iq ..
    _ = d.iq c e q := by unfold Dev.iq Dev.eng; rw [Dev.burstCounted_fab]

theorem Dev.dripFail_count : (d.dripFail cl j).rd (Reg.drpFail cl) = satInc 32 1 (d.rd (Reg.drpFail cl)) := by
  rw [Dev.dripFail_eq h, Dev.logInternal_rd _ _ _ _ _ (by simp only [Reg.drpFail, Reg.logLost]; omega)
    (by simp only [Reg.drpFail, Reg.logMirrorLost]; omega), Dev.spillLost_count]

/-- Where the stack does not read, the failure alone is logged. -/
theorem Dev.dripFail_gains (hst : d.stackState (d.dripStack cl) ≠ skUp) : d.log.gains (d.dripFail cl j).log
    (internalOrigin (Reg.drpFail cl)) (Reg.drpFail cl) (d.rd (Reg.drpFail cl)) (satInc 32 1 (d.rd (Reg.drpFail cl))) .degraded := by
  have hburst : d.burstCounted cl = d := if_neg hst
  have hlog : (d.spillLost cl j x.set).log = d.log := by
    unfold Dev.spillLost
    rw [hburst]
    exact Dev.closeSpill_keeps (P := fun e => e.log = d.log) (Part.same_keeps .log rfl) rfl
  have hgains := Dev.logInternal_gains (d.spillLost cl j x.set) (Reg.drpFail cl) (d.rd (Reg.drpFail cl))
    (satInc 32 1 (d.rd (Reg.drpFail cl))) .degraded
  rw [hlog] at hgains
  rw [Dev.dripFail_eq h, Dev.spillLost_count, hburst]
  exact hgains

/-- Where the stack reads, the burst counts as its own. -/
theorem Dev.dripFail_stackUe (hst : d.stackState (d.dripStack cl) = skUp) :
    (d.dripFail cl j).rd (Reg.stkUe (d.dripStack cl)) = satInc 32 1 (d.rd (Reg.stkUe (d.dripStack cl))) := by
  have hlt := d.dripStack_lt cl
  rw [Dev.dripFail_eq h, Dev.logInternal_rd _ _ _ _ _ (by simp only [Reg.stkUe, Reg.logLost]; omega)
    (by simp only [Reg.stkUe, Reg.logMirrorLost]; omega), Dev.spillLost, Dev.rd_count_ne _ (by simp only [Reg.stkUe, Reg.drpFail]; omega),
    Dev.closeSpill_rd (by simp only [Reg.stkUe, Reg.drpOpen]; omega) (by simp only [Reg.stkUe, Reg.drpUsed]; omega)
      (by simp only [Reg.stkUe, Reg.drpSet]; omega), Dev.burstCounted, if_pos hst, Dev.stackUe_count hlt]

end

end

theorem exec_drpFail (s : State) (cl : ClusterId) (j : Fin 4) :
    exec (.drpFail cl j) s = s.live fun d => (d.dripFail cl.val j.val).settleDrip := rfl

/-! A device whose clusters stand as another's -/

/-- The fabric and the clusters' registers are those of d. -/
structure Dev.SameClusters (d e : Dev) : Prop where
  fab : e.fab = d.fab
  regs : ∀ a, 0x200000 ≤ a → e.rd a = d.rd a

namespace Dev.SameClusters

variable {d e : Dev} (h : d.SameClusters e)
include h

theorem fld {a : Nat} (ha : 0x200000 ≤ a) (f : Fld) : e.fld a f = d.fld a f := Dev.fld_of_rd (h.regs a ha) f

theorem physCore (cl l : Nat) : e.physCore cl l = d.physCore cl l := by
  unfold Dev.physCore
  rw [h.fld (by simp only [Reg.clStat]; omega)]

theorem dripStack (cl : Nat) : e.dripStack cl = d.dripStack cl := h.fld (by simp only [Reg.drpArea]; omega) _

theorem spill (cl j : Nat) : e.spill cl j = d.spill cl j := Dev.spill_of_fab h.fab cl j

theorem iq (c i q : Nat) : e.iq c i q = d.iq c i q := by unfold Dev.iq Dev.eng; rw [h.fab]

theorem iqClosed (c i q : Nat) : e.iqClosed c i q = d.iqClosed c i q := by unfold Dev.iqClosed Dev.eng; rw [h.fab]

theorem coreCtx (c : Nat) : e.coreCtx c = d.coreCtx c := h.fld (by simp only [Reg.coCtx]; omega) _

theorem coreEpoch (c : Nat) : e.coreEpoch c = d.coreEpoch c := h.fld (by simp only [Reg.coCtx]; omega) _

theorem waveOf (c : Nat) : e.waveOf c = d.waveOf c := by
  unfold Dev.waveOf Dev.groupOf
  rw [h.coreCtx]
  unfold Dev.grp Dev.ctxRec Dev.core
  rw [h.fab]

theorem engEpoch (c i : Nat) : e.engEpoch c i = d.engEpoch c i := by
  unfold Dev.engEpoch
  rw [h.waveOf, h.coreEpoch]
  unfold Dev.eng
  rw [h.fab]

theorem iqClass (c i q : Nat) : e.iqClass c i q = d.iqClass c i q := by
  unfold Dev.iqClass Dev.engCtx
  rw [h.waveOf, h.coreCtx]
  unfold Dev.eng Dev.ctxRec Dev.core
  rw [h.fab]

theorem spillQueue (cl : Nat) (x : Spill) : e.spillQueue cl x = d.spillQueue cl x := by
  unfold Dev.spillQueue Dev.drip
  rw [h.fab]

/-- An input queue's length. -/
theorem queueLen {q : Endp} (hk : q.kind = 1) : e.queueLen q = d.queueLen q := by
  unfold Dev.queueLen
  rw [if_neg (by omega), if_neg (by omega)]
  unfold Dev.queueTokens
  dsimp only
  rw [if_pos hk, if_pos hk, h.physCore, h.iq]

theorem refillRoom {q : Endp} (hk : q.kind = 1) : e.refillRoom q = d.refillRoom q := by
  unfold Dev.refillRoom
  dsimp only
  rw [h.queueLen hk, h.physCore, h.iqClosed, h.iqClass]

end Dev.SameClusters

/-! Refills (R191, R227) -/

/-- The device once the bursts that the stack corrected are counted, where it reads (R227). -/
def Dev.countRead (d : Dev) (cl n : Nat) : Dev :=
  if d.stackState (d.dripStack cl) = skUp then d.countN (Reg.stkCe (d.dripStack cl)) n else d

/-- What a refill does about one segment. -/
def Dev.refillSegment (d : Dev) (cl k j : Nat) : Dev :=
  match d.spill cl j with
  | some x =>
    let q := d.spillQueue cl x
    if x.set = k ∧ d.refillRoom q then
      if d.stackState (d.dripStack cl) = skFailed then d.dripFail cl j
      else match x.toks with
      | [] => d.closeSpill cl j k
      | t :: ts =>
        let f := (d.refillQueue q t).dripTransfer q
        if ts.isEmpty then f.closeSpill cl j k else f.setSpill cl j (some { x with toks := ts, fullCounted := false })
    else d
  | none => d

theorem Dev.dripRefills_eq (d : Dev) (cl k n : Nat) :
    d.dripRefills cl k n = (List.range 4).foldl (fun f j => f.refillSegment cl k j) (d.countRead cl n) := rfl

section
variable {d : Dev} {cl j m k n : Nat} {x : Spill} {t : DripTok} {ts : List DripTok} {q : Endp}

theorem Dev.countRead_rd {a : Nat} (h : a ≠ Reg.stkCe (d.dripStack cl)) : (d.countRead cl n).rd a = d.rd a := by
  unfold Dev.countRead
  split
  · exact Dev.rd_countN_ne _ _ h
  · rfl

theorem Dev.countRead_sameClusters (d : Dev) (cl n : Nat) : d.SameClusters (d.countRead cl n) := by
  refine ⟨by unfold Dev.countRead; split <;> rfl, fun a ha => Dev.countRead_rd ?_⟩
  have := d.dripStack_lt cl
  simp only [Reg.stkCe]
  omega

theorem Dev.countRead_stackState (d : Dev) (cl n : Nat) : (d.countRead cl n).stackState (d.dripStack cl) = d.stackState (d.dripStack cl) :=
  Dev.fld_of_rd (Dev.countRead_rd (by simp only [Reg.stkScfg, Reg.stkCe]; omega)) _

/-- A segment of no spill of the set stays as it is. -/
theorem Dev.refillSegment_other (h : ∀ y, d.spill cl m = some y → y.set ≠ k) : d.refillSegment cl k m = d := by
  unfold Dev.refillSegment
  split
  · next y hy => exact if_neg fun hr => h y hy hr.1
  · rfl

section
variable (hx : d.spill cl j = some x) (hset : x.set = k) (hroom : d.refillRoom (d.spillQueue cl x) = true)
include hx hset hroom

/-- A FAILED stack returns no token (R231). -/
theorem Dev.refillSegment_failed (hst : d.stackState (d.dripStack cl) = skFailed) : d.refillSegment cl k j = d.dripFail cl j := by
  unfold Dev.refillSegment
  rw [hx]
  dsimp only
  rw [if_pos ⟨hset, hroom⟩, if_pos hst]

/-- The segment's oldest token moves back into the queue. -/
theorem Dev.refillSegment_takes (hst : d.stackState (d.dripStack cl) ≠ skFailed) (ht : x.toks = t :: ts) : d.refillSegment cl k j =
    if ts.isEmpty then ((d.refillQueue (d.spillQueue cl x) t).dripTransfer (d.spillQueue cl x)).closeSpill cl j k
    else ((d.refillQueue (d.spillQueue cl x) t).dripTransfer (d.spillQueue cl x)).setSpill cl j
      (some { x with toks := ts, fullCounted := false }) := by
  unfold Dev.refillSegment
  rw [hx]
  dsimp only
  rw [if_pos ⟨hset, hroom⟩, if_neg hst, ht]

end

/-- When a set has spilled to one segment alone, and what is done about it leaves the others, a refill is about that segment. -/
theorem Dev.dripRefills_one (hj : j < 4) (hone : ∀ m < 4, m ≠ j → ∀ y, d.spill cl m = some y → y.set ≠ k)
    (hrest : ∀ m ≠ j, ((d.countRead cl n).refillSegment cl k j).spill cl m = (d.countRead cl n).spill cl m) :
    d.dripRefills cl k n = (d.countRead cl n).refillSegment cl k j := by
  have hspill := (d.countRead_sameClusters cl n).spill cl
  rw [Dev.dripRefills_eq]
  refine foldl_sets (P := fun e => e = d.countRead cl n) (Q := fun e => e = (d.countRead cl n).refillSegment cl k j)
    (fun e m hm hmj he => ?_) (fun e m hm hmj he => ?_) (fun e he => ?_) (List.mem_range.mpr hj) List.nodup_range rfl
  · rw [he, Dev.refillSegment_other]
    rw [hspill]
    exact hone m (List.mem_range.mp hm) hmj
  · rw [he, Dev.refillSegment_other]
    rw [hrest m hmj, hspill]
    exact hone m (List.mem_range.mp hm) hmj
  · rw [he]

/-! A token taken back by an input queue -/

/-- A token moved back into an input queue, of the engine's epoch or STALE (R181). -/
theorem Dev.refillQueue_engine (hk : q.kind = 1) : d.refillQueue q t =
    if t.tok.epoch.toNat = d.engEpoch (d.physCore q.cl q.core) q.eng then d.iqPut (d.physCore q.cl q.core) q.eng q.idx t.tok
    else d.count (Reg.coStale (clOf (d.physCore q.cl q.core)) (posOf (d.physCore q.cl q.core))) := by
  unfold Dev.refillQueue
  dsimp only
  rw [if_pos hk, ite_not]
  rfl

/-- The engines alone of the fabric differ. -/
theorem Dev.refillQueue_fab (hk : q.kind = 1) : ∃ y, (d.refillQueue q t).fab = { d.fab with engs := y } := by
  rw [Dev.refillQueue_engine hk]
  split
  · exact Dev.iqPut_fab ..
  · exact ⟨_, rfl⟩

/-- Room in an input queue for a token that comes back (R123, R177, R191). -/
theorem Dev.refillRoom_engine (hlen : d.queueLen q < 2)
    (hopen : d.iqClosed (d.physCore q.cl q.core) q.eng q.idx = false) (hclass : d.iqClass (d.physCore q.cl q.core) q.eng q.idx ≠ some false) :
    d.refillRoom q = true := by
  unfold Dev.refillRoom
  simp [hlen, hopen, hclass]

/-- What the segment's oldest token leaves as it moves back: its segment freed where it was the last, else holding the rest. -/
structure Dev.Refilled (d : Dev) (cl k j : Nat) (q : Endp) (t : DripTok) (ts : List DripTok) (e : Dev) : Prop where
  joins : t.tok.epoch.toNat = d.engEpoch (d.physCore q.cl q.core) q.eng →
    e.iq (d.physCore q.cl q.core) q.eng q.idx = d.iq (d.physCore q.cl q.core) q.eng q.idx ++ [t.tok]
  staleDropped : t.tok.epoch.toNat ≠ d.engEpoch (d.physCore q.cl q.core) q.eng →
    e.iq (d.physCore q.cl q.core) q.eng q.idx = d.iq (d.physCore q.cl q.core) q.eng q.idx
  staleCounted : ∀ a, ¬ dripReg a → e.rd a =
    (if t.tok.epoch.toNat = d.engEpoch (d.physCore q.cl q.core) q.eng then d
      else d.count (Reg.coStale (clOf (d.physCore q.cl q.core)) (posOf (d.physCore q.cl q.core)))).rd a
  freed : ts = [] → e.spill cl j = none ∧ e.fld (Reg.drpSet cl k) Fld.drpSetOpen = 0
  holds : ts ≠ [] → ∃ y, e.spill cl j = some y ∧ y.toks = ts
  others : ∀ m ≠ j, e.spill cl m = d.spill cl m

/-- The device once the token is back in its input queue, before its segment shows it. -/
theorem Dev.refillQueue_refilled (hk : q.kind = 1) :
    let c := d.physCore q.cl q.core
    let e := (d.refillQueue q t).dripTransfer q
    (t.tok.epoch.toNat = d.engEpoch c q.eng → e.iq c q.eng q.idx = d.iq c q.eng q.idx ++ [t.tok]) ∧
    (t.tok.epoch.toNat ≠ d.engEpoch c q.eng → e.iq c q.eng q.idx = d.iq c q.eng q.idx) ∧
    (∀ a, ¬ dripReg a → e.rd a = (if t.tok.epoch.toNat = d.engEpoch c q.eng then d else d.count (Reg.coStale (clOf c) (posOf c))).rd a) ∧
    e.fab.spills = d.fab.spills := by
  intro c e
  have htimers : (d.refillQueue q t).TimersOnly e := Dev.dripTransfer_timersOnly _ _
  have hspills : e.fab.spills = d.fab.spills := by
    obtain ⟨y, hy⟩ := Dev.refillQueue_fab (d := d) (t := t) hk
    rw [htimers.spills, hy]
  have hq := Dev.refillQueue_engine (d := d) (t := t) hk
  by_cases he : t.tok.epoch.toNat = d.engEpoch c q.eng
  · rw [if_pos he] at hq
    refine ⟨fun _ => ?_, fun h => absurd he h, fun a ha => ?_, hspills⟩
    · rw [htimers.iq, hq, Dev.iqPut_iq]
    · rw [htimers.regs a ha, hq, if_pos he]
      exact Dev.rd_of_regs (Dev.iqPut_regs ..) a
  · rw [if_neg he] at hq
    refine ⟨fun h => absurd h he, fun _ => ?_, fun a ha => ?_, hspills⟩
    · rw [htimers.iq, hq]; rfl
    · rw [htimers.regs a ha, hq, if_neg he]

theorem Dev.refillSegment_refilled (hx : d.spill cl j = some x) (hset : x.set = k) (hroom : d.refillRoom (d.spillQueue cl x) = true)
    (hst : d.stackState (d.dripStack cl) ≠ skFailed) (ht : x.toks = t :: ts) (hq : d.spillQueue cl x = q) (hk : q.kind = 1) (hlt : k < 32)
    (hone : ∀ m < 4, m ≠ j → ∀ y, d.spill cl m = some y → y.set ≠ k) : d.Refilled cl k j q t ts (d.refillSegment cl k j) := by
  obtain ⟨hjoins, hdropped, hregs, hspills⟩ := Dev.refillQueue_refilled (d := d) (t := t) hk
  have hspill : ∀ m, ((d.refillQueue q t).dripTransfer q).spill cl m = d.spill cl m := fun m => by unfold Dev.spill; rw [hspills]
  rw [Dev.refillSegment_takes hx hset hroom hst ht, hq]
  cases ts with
  | nil =>
    rw [List.isEmpty_nil, if_pos rfl]
    refine ⟨fun h => ?_, fun h => ?_, fun a ha => ?_, fun _ => ⟨Dev.closeSpill_spill .., ?_⟩, fun h => absurd rfl h, fun m hm => ?_⟩
    · rw [Dev.closeSpill_iq, hjoins h]
    · rw [Dev.closeSpill_iq, hdropped h]
    · rw [(Dev.closeSpill_dripFrame _ cl j k).2 a ha, hregs a ha]
    · exact Dev.closeSpill_open hlt fun m hm hmj y hy => hone m hm hmj y (hspill m ▸ hy)
    · rw [Dev.closeSpill_spill_ne hm, hspill]
  | cons u us =>
    rw [List.isEmpty_cons, if_neg Bool.false_ne_true]
    refine ⟨fun h => ?_, fun h => ?_, fun a ha => ?_, fun h => absurd h (List.cons_ne_nil u us),
      fun _ => ⟨_, Dev.setSpill_spill .., rfl⟩, fun m hm => ?_⟩
    · rw [Dev.setSpill_iq, hjoins h]
    · rw [Dev.setSpill_iq, hdropped h]
    · rw [(Dev.setSpill_dripFrame _ cl j _).2 a ha, hregs a ha]
    · rw [Dev.setSpill_spill_ne _ _ hm, hspill]

end

theorem exec_dripRefill (s : State) (cl : ClusterId) (k : Fin 32) (n : Nat) :
    exec (.dripRefill cl k n) s = s.live fun d => d.dripUse cl.val fun f => f.dripRefills cl.val k.val n := rfl

/-! The clauses of O40 about reads -/

/-- The third clause of O40: a refill of an input queue. -/
theorem dripRefill_gives {s : State} {cl : ClusterId} {k : Fin 32} {n j : Nat} {x : Spill} {t : DripTok} {ts : List DripTok}
    (hs : s.dev.alive = true) (hj : j < 4) (hx : s.dev.spill cl.val j = some x) (hset : x.set = k.val)
    (hone : ∀ m < 4, m ≠ j → ∀ y, s.dev.spill cl.val m = some y → y.set ≠ k.val) (ht : x.toks = t :: ts) :
    let st := s.dev.dripStack cl.val
    let q := (s.dev.drip cl.val k.val).queues.getD x.queue ⟨0, 0, 0, 0, 0, 0⟩
    let c := s.dev.physCore q.cl q.core
    let stale := Reg.coStale (clOf c) (posOf c)
    (s.dev.stackRec st).grant = 4 → q.kind = 1 → s.dev.queueLen q < 2 → s.dev.iqClosed c q.eng q.idx = false →
    s.dev.iqClass c q.eng q.idx ≠ some false →
    (s.dev.stackState st ≠ skFailed → Gives (.dripRefill cl k n) s fun e => (e.stackRec st).grant = 0 ∧
      ∃ d : Dev, e = d.settleDrip.useGrant st ∧
      (t.tok.epoch.toNat = s.dev.engEpoch c q.eng → d.iq c q.eng q.idx = s.dev.iq c q.eng q.idx ++ [t.tok] ∧ d.rd stale = s.dev.rd stale) ∧
      (t.tok.epoch.toNat ≠ s.dev.engEpoch c q.eng → d.iq c q.eng q.idx = s.dev.iq c q.eng q.idx ∧
        d.rd stale = satInc 32 1 (s.dev.rd stale)) ∧
      (ts = [] → d.spill cl.val j = none ∧ d.fld (Reg.drpSet cl.val k.val) Fld.drpSetOpen = 0) ∧
      (ts ≠ [] → ∃ y, d.spill cl.val j = some y ∧ y.toks = ts) ∧
      (s.dev.stackState st = skUp → d.rd (Reg.stkCe st) = satInc 32 n (s.dev.rd (Reg.stkCe st)) % 2 ^ 32) ∧
      s.dev.keepsBut [.regs, .log, .stk, .fab, .clk] d) ∧
    (s.dev.stackState st = skFailed → Gives (.dripRefill cl k n) s fun e => ∃ d : Dev, e = d.settleDrip.useGrant st ∧
      d.iq c q.eng q.idx = s.dev.iq c q.eng q.idx ∧ d.spill cl.val j = none ∧
      d.rd (Reg.drpFail cl.val) = satInc 32 1 (s.dev.rd (Reg.drpFail cl.val)) ∧
      s.dev.keepsBut [.regs, .log, .stk, .fab, .clk] d) := by
  intro st q c stale hgrant hk hlen hopen hclass
  have hkeeps : s.dev.keepsBut [.regs, .log, .stk, .fab, .clk] (s.dev.dripRefills cl.val k.val n) :=
    Dev.dripRefills_keeps (keepsBut_keeps _ _) (keepsBut_refl _ _)
  have hsame := s.dev.countRead_sameClusters cl.val n
  have hx' := (hsame.spill cl.val j).trans hx
  have hq : (s.dev.countRead cl.val n).spillQueue cl.val x = q := by
    rw [hsame.spillQueue]
    unfold Dev.spillQueue
    rw [hset]
  have hroom : (s.dev.countRead cl.val n).refillRoom ((s.dev.countRead cl.val n).spillQueue cl.val x) = true := by
    rw [hq, hsame.refillRoom hk]
    exact Dev.refillRoom_engine hlen hopen hclass
  have hstate : (s.dev.countRead cl.val n).stackState ((s.dev.countRead cl.val n).dripStack cl.val) = s.dev.stackState st := by
    rw [hsame.dripStack, Dev.countRead_stackState]
  have hone' : ∀ m < 4, m ≠ j → ∀ y, (s.dev.countRead cl.val n).spill cl.val m = some y → y.set ≠ k.val := fun m hm hmj y hy =>
    hone m hm hmj y ((hsame.spill cl.val m).symm.trans hy)
  refine ⟨fun hst => gives_dripUse (exec_dripRefill ..) hs hgrant ?_, fun hst => ?_⟩
  · have hr := Dev.refillSegment_refilled hx' hset hroom (hstate ▸ hst) ht hq hk k.isLt hone'
    have heq := Dev.dripRefills_one (n := n) hj hone hr.others
    rw [heq] at hkeeps ⊢
    have hstale : stale ≠ Reg.stkCe st := by have := s.dev.dripStack_lt cl.val; simp only [stale, st, Reg.coStale, Reg.stkCe]; omega
    have hdrip : ¬ dripReg stale := by simp only [dripReg, stale, Reg.coStale, clOf, posOf]; omega
    obtain ⟨hjoins, hdropped, hregs, hfreed, hholds, -⟩ := hr
    rw [hsame.physCore, hsame.engEpoch, hsame.iq] at hjoins hdropped
    rw [hsame.physCore, hsame.engEpoch] at hregs
    refine ⟨fun he => ⟨hjoins he, ?_⟩, fun he => ⟨hdropped he, ?_⟩, hfreed, hholds, fun hup => ?_, hkeeps⟩
    · rw [hregs _ hdrip, if_pos he, Dev.countRead_rd hstale]
    · rw [hregs _ hdrip, if_neg he, Dev.rd_count, Dev.countRead_rd hstale]
    · have hce : Reg.stkCe st ≠ stale := hstale.symm
      have hlow : ¬ dripReg (Reg.stkCe st) := by have := s.dev.dripStack_lt cl.val; simp only [dripReg, st, Reg.stkCe]; omega
      have hread : (s.dev.countRead cl.val n).rd (Reg.stkCe st) = satInc 32 n (s.dev.rd (Reg.stkCe st)) % 2 ^ 32 := by
        unfold Dev.countRead
        rw [if_pos hup]
        exact Dev.rd_wr_same ..
      rw [hregs _ hlow, ← hread]
      split
      · rfl
      · exact Dev.rd_count_ne _ hce
  · have heq : (s.dev.countRead cl.val n).refillSegment cl.val k.val j = (s.dev.countRead cl.val n).dripFail cl.val j :=
      Dev.refillSegment_failed hx' hset hroom (hstate.trans hst)
    have hfail := Dev.dripRefills_one (n := n) hj hone fun m hm => by rw [heq]; exact Dev.dripFail_spill_ne hx' hm
    rw [heq] at hfail
    rw [hfail] at hkeeps
    have hiq : (s.dev.dripRefills cl.val k.val n).iq c q.eng q.idx = s.dev.iq c q.eng q.idx := by
      rw [hfail, Dev.dripFail_iq hx', hsame.iq]
    have hcount : (s.dev.dripRefills cl.val k.val n).rd (Reg.drpFail cl.val) = satInc 32 1 (s.dev.rd (Reg.drpFail cl.val)) := by
      rw [hfail, Dev.dripFail_count hx', hsame.regs _ (by simp only [Reg.drpFail]; omega)]
    have hspill : (s.dev.dripRefills cl.val k.val n).spill cl.val j = none := by rw [hfail, Dev.dripFail_spill hx']
    exact (gives_dripUse (P := fun d => d = s.dev.dripRefills cl.val k.val n) (exec_dripRefill s cl k n) hs hgrant rfl).mono
      fun e ⟨_, d, he, hd⟩ => ⟨d, he, by rw [hd]; exact ⟨hiq, hspill, hcount, hfail ▸ hkeeps⟩⟩

/-- The fourth clause of O40: a failing read. -/
theorem drpFail_settles {s : State} {cl : ClusterId} {j : Fin 4} {x : Spill} (hs : s.dev.alive = true)
    (hx : s.dev.spill cl.val j.val = some x) :
    let st := s.dev.dripStack cl.val
    Settles (.drpFail cl j) s fun d => d.spill cl.val j.val = none ∧
      (∀ n < 4, n ≠ j.val → (d.spill cl.val n).map (fun y => y.toks) = (s.dev.spill cl.val n).map fun y => y.toks) ∧
      d.rd (Reg.drpFail cl.val) = satInc 32 1 (s.dev.rd (Reg.drpFail cl.val)) ∧
      (s.dev.stackState st ≠ skUp → s.dev.log.gains d.log (internalOrigin (Reg.drpFail cl.val)) (Reg.drpFail cl.val)
        (s.dev.rd (Reg.drpFail cl.val)) (satInc 32 1 (s.dev.rd (Reg.drpFail cl.val))) .degraded) ∧
      (s.dev.stackState st = skUp → d.rd (Reg.stkUe st) = satInc 32 1 (s.dev.rd (Reg.stkUe st))) ∧
      s.dev.keepsBut [.regs, .log, .stk, .fab, .clk] d :=
  settles_live (exec_drpFail s cl j) hs ⟨Dev.dripFail_spill hx, fun n _ hn => by rw [Dev.dripFail_spill_ne hx hn], Dev.dripFail_count hx,
    Dev.dripFail_gains hx, Dev.dripFail_stackUe hx, Dev.dripFail_keeps (keepsBut_keeps _ _) (keepsBut_refl _ _)⟩

/-- Settles O40: the timer's expiry, a spill, a refill, a failing read, and what settling touches, each by its own rule above. -/
theorem dripSpills : Obligations.DripSpills := by
  unfold Obligations.DripSpills
  refine ⟨?_, ?_, ?_, ?_, ?_⟩
  · intro s cl k tie t hs hsince hspill hdue
    exact dripTimerExpiry_gives tie hs hsince hspill hdue
  · intro s cl k i j hs hspill st q c hgrant
    refine gives_dripUse (exec_dripSpillComplete s cl k) hs hgrant ?_
    obtain ⟨hseg, hdone, hopen⟩ := Dev.dripSpilled_spec (cl := cl.val) (k := k.val) hspill
    exact ⟨hseg, hdone, hopen, Dev.dripSpilled_keeps (keepsBut_keeps _ _) (keepsBut_refl _ _)⟩
  · intro s cl k n j x t ts hs hj hx hset hone ht
    exact dripRefill_gives hs hj hx hset hone ht
  · intro s cl j x hs hx
    exact drpFail_settles hs hx
  · intro d
    exact ⟨Dev.settleDrip_keeps (keepsBut_keeps _ _) (keepsBut_refl _ _), d.settleDrip_offSettle, Dev.settleDrip_dripFrame⟩

end Sys2Proof.Machine
end

section
/-!
A switch request and its acceptance (R172 to R176, R185, R209, R462).
-/

namespace Sys2Proof.Machine

open Sys2Proof

/-! A switch group's record written -/

section
variable (d : Dev) (g : Nat) (r : GroupRec)

theorem Dev.setGrp_fab : (d.setGrp g r).fab = { d.fab with groups := SMap.set (fun _ => GroupRec.init) d.fab.groups g r } := by
  unfold Dev.setGrp
  dsimp only
  split <;> rfl

@[simp] theorem Dev.setGrp_grp : (d.setGrp g r).grp g = r := by
  unfold Dev.grp
  rw [Dev.setGrp_fab]
  exact SMap.get_set_same _ _ _

theorem Dev.setGrp_rd_ne {a : Nat} (h : g < 64 → a ≠ Reg.scrCtxsel g) : (d.setGrp g r).rd a = d.rd a := by
  unfold Dev.setGrp
  dsimp only
  split
  · next hg => rw [Dev.rd_setFld_ne _ _ _ (h hg), Dev.rd_setFld_ne _ _ _ (h hg)]; rfl
  · rfl

theorem Dev.setGrp_pending (hg : g < 64) : (d.setGrp g r).fld (Reg.scrCtxsel g) Fld.scrCtxselPending =
    bit01 (r.req.isSome || r.wave.isSome) := by
  unfold Dev.setGrp
  dsimp only
  rw [if_pos hg, Dev.fld_setFld_same _ _ _ _ (by decide)]
  cases (r.req.isSome || r.wave.isSome) <;> rfl

end

/-! Requests (R174, R175, R462) -/

theorem exec_switchRequest (s : State) (g : Fin 64) (k : Fin 4) :
    exec (.switchRequest g k) s = s.live fun d => d.switchReq g.val ⟨k.val, false, false, none⟩ := rfl

/-- Every core of the group holds the context, a fenced one set aside (R175, R458). -/
theorem Dev.ctxLoaded_iff (d : Dev) (g k : Nat) :
    d.ctxLoaded g k = true ↔ ∀ c ∈ (d.grp g).cores, d.coreState c = coFenced ∨ (d.ctxRec c k).isSome = true := by
  simp [Dev.ctxLoaded]

/-- When a group takes the request for a context. -/
theorem Dev.switchOk_iff (d : Dev) (g k : Nat) : d.switchOk g ⟨k, false, false, none⟩ = true ↔
    (d.grp g).cores ≠ [] ∧ (d.grp g).req = none ∧ ¬((d.grp g).secFailed = true ∧ ∃ y ∈ (d.grp g).sections_, y.ctx = k) ∧
      ((∀ c ∈ (d.grp g).cores, d.coreState c = coFenced ∨ (d.ctxRec c k).isSome = true) ∨
        ∃ y ∈ (d.grp g).sections_, y.ctx = k ∧ y.resident = false) := by
  rw [← Dev.ctxLoaded_iff]
  simp [Dev.switchOk, Dev.targetLoaded, Dev.targetScheduled, and_assoc]
  intro _ _ _
  rw [← Bool.not_eq_true, imp_iff_not_or]

/-- The first clause of O38: a request. -/
theorem switchRequest_gives {s : State} (g : Fin 64) (k : Fin 4) (hs : s.dev.alive = true) :
    let ok := (s.dev.grp g.val).cores ≠ [] ∧ (s.dev.grp g.val).req = none ∧
      ¬((s.dev.grp g.val).secFailed = true ∧ ∃ y ∈ (s.dev.grp g.val).sections_, y.ctx = k.val) ∧
      ((∀ c ∈ (s.dev.grp g.val).cores, s.dev.coreState c = coFenced ∨ (s.dev.ctxRec c k.val).isSome = true) ∨
        ∃ y ∈ (s.dev.grp g.val).sections_, y.ctx = k.val ∧ y.resident = false)
    Gives (.switchRequest g k) s fun d =>
      (ok → d.grp g.val = { s.dev.grp g.val with req := some ⟨k.val, false, false, none⟩ } ∧
        d.fld (Reg.scrCtxsel g.val) Fld.scrCtxselPending = 1 ∧ s.dev.regsBut [Reg.scrCtxsel g.val] d ∧ s.dev.keepsBut [.regs, .fab] d) ∧
      (¬ok → s.dev.log.gains d.log (internalOrigin (Reg.scrCtxsel g.val)) (Reg.scrCtxsel g.val) (s.dev.grp g.val).ctx k.val .refused ∧
        s.dev.keepsBut [.regs, .log] d) := by
  intro ok
  refine gives_live (exec_switchRequest ..) hs ?_
  unfold Dev.switchReq
  dsimp only
  refine ⟨fun hok => ?_, fun hno => ?_⟩
  · rw [if_pos ((Dev.switchOk_iff ..).mpr hok)]
    exact ⟨Dev.setGrp_grp .., Dev.setGrp_pending _ _ _ g.isLt, fun a ha => Dev.setGrp_rd_ne _ _ _ fun _ h => ha (List.mem_singleton.mpr h),
      Dev.setGrp_keeps (keepsBut_keeps _ _) (keepsBut_refl _ _)⟩
  · rw [if_neg fun h => hno ((Dev.switchOk_iff ..).mp h)]
    exact ⟨Dev.logInternal_gains .., Dev.logInternal_keeps (keepsBut_keeps _ _) (keepsBut_refl _ _)⟩

/-! FIRST_EVENT (R176, R209) -/

theorem ceilDiv_le {a b n : Nat} (hb : 0 < b) : ceilDiv a b ≤ n ↔ a ≤ b * n := by
  unfold ceilDiv
  rw [if_neg (by omega), ← Nat.ceilDiv_eq_add_pred_div]
  exact ceilDiv_le_iff_le_mul hb

theorem Dev.groupEp_pos (d : Dev) (x : GroupRec) (k : Nat) : 0 < d.groupEp x k := by
  refine List.foldlRecOn x.cores _ (motive := fun n => 0 < n) Nat.one_pos fun n hn c _ => ?_
  refine List.foldlRecOn [x.ctx, k] _ (motive := fun n => 0 < n) hn fun m hm j _ => ?_
  split
  · split
    · exact Nat.lcm_pos hm (Nat.succ_pos _)
    · exact hm
  · exact hm

/-- Event n's admission is at least 200 ns later (R176). -/
def Dev.admittedLater (d : Dev) (n : Nat) : Prop := d.tms.ctr + 200 * 2 ^ 40 ≤ (d.aNs + (n + 1) * d.tev) * 2 ^ 40

/-- FIRST_EVENT is the least multiple of E_p that is admitted at least 200 ns later. -/
theorem Dev.firstUnder_least {d : Dev} {ep : Nat} (hep : 0 < ep) (htev : d.tev ≠ 0) :
    d.admittedLater (d.firstUnder ep) ∧ ep ∣ d.firstUnder ep ∧ ∀ n, ep ∣ n → d.admittedLater n → d.firstUnder ep ≤ n := by
  have htev' := Nat.pos_of_ne_zero htev
  let n₀ := if ceilDiv d.tms.ctr (2 ^ 40) + 200 ≤ d.aNs + d.tev then 0 else ceilDiv (ceilDiv d.tms.ctr (2 ^ 40) + 200 - d.aNs) d.tev - 1
  have hfirst : d.firstUnder ep = ceilDiv n₀ ep * ep := if_neg htev
  have hlater : ∀ n, d.admittedLater n ↔ n₀ ≤ n := fun n => by
    have hns : d.admittedLater n ↔ ceilDiv d.tms.ctr (2 ^ 40) + 200 ≤ d.aNs + (n + 1) * d.tev := by
      have hlow := ceilDiv_le (a := d.tms.ctr) (b := 2 ^ 40) (n := d.aNs + (n + 1) * d.tev - 200) (by decide)
      have hpos := ceilDiv_le (a := d.tms.ctr) (b := 2 ^ 40) (n := 0) (by decide)
      unfold Dev.admittedLater
      omega
    rw [hns]
    by_cases hsoon : ceilDiv d.tms.ctr (2 ^ 40) + 200 ≤ d.aNs + d.tev
    · have hn : n₀ = 0 := if_pos hsoon
      have hge : d.tev ≤ (n + 1) * d.tev := Nat.le_mul_of_pos_left _ (Nat.succ_pos n)
      omega
    · have hn : n₀ = ceilDiv (ceilDiv d.tms.ctr (2 ^ 40) + 200 - d.aNs) d.tev - 1 := if_neg hsoon
      have hle := ceilDiv_le (a := ceilDiv d.tms.ctr (2 ^ 40) + 200 - d.aNs) (n := n + 1) htev'
      rw [Nat.mul_comm] at hle
      omega
  rw [hfirst, hlater]
  refine ⟨?_, Dvd.intro_left _ rfl, ?_⟩
  · rw [Nat.mul_comm]
    exact (ceilDiv_le hep).mp le_rfl
  · rintro n ⟨m, rfl⟩ hn
    rw [Nat.mul_comm]
    exact Nat.mul_le_mul_left ep ((ceilDiv_le hep).mpr ((hlater _).mp hn))

/-! Acceptance -/

theorem exec_switchAccept (s : State) (g : Fin 64) : exec (.switchAccept g) s = s.live fun d => (d.switchAccept g.val).settleDrip := rfl

section
variable (d : Dev) (g : Nat) (r : SwitchReq)

/-- The wave of a request that group g accepts. -/
def Dev.newWave : Wave :=
  let x := d.grp g
  ⟨r.ctx, (x.epoch + 1) % 4, if d.groupTimed x r.ctx then d.firstUnder (d.groupEp x r.ctx) else 0, r.section_, r.adapt,
    x.cores.filter fun c => decide (d.coreState c = coRun), r.sec⟩

/-- The device as the wave starts: the circuits of the new context alone stamp its epoch (R174). -/
def Dev.waveStarted : Dev :=
  let x := d.grp g
  let e := d.setGrp g { x with req := none, wave := some (d.newWave g r) }
  (e.groupCircs x).foldl (fun f y =>
    if y.inCtx r.ctx && !y.inCtx x.ctx then f.setCst y.key { f.cst y.key with epoch := (d.newWave g r).epoch } else f) e

/-- A wave's start touches the groups, the circuits' state and SCR_CTXSEL. -/
theorem Dev.waveStarted_frame : (d.waveStarted g r).grp g = { d.grp g with req := none, wave := some (d.newWave g r) } ∧
    (d.waveStarted g r).fab.circuits = d.fab.circuits ∧ ∀ a, a ≠ Reg.scrCtxsel g → (d.waveStarted g r).rd a = d.rd a := by
  refine foldl_keeps (P := fun e => e.grp g = { d.grp g with req := none, wave := some (d.newWave g r) } ∧
    e.fab.circuits = d.fab.circuits ∧ ∀ a, a ≠ Reg.scrCtxsel g → e.rd a = d.rd a) (fun e y he => ?_) ?_
  · obtain ⟨hg, hc, hr⟩ := he
    split
    · exact ⟨hg, hc, hr⟩
    · exact ⟨hg, hc, hr⟩
  · exact ⟨Dev.setGrp_grp .., by rw [Dev.setGrp_fab], fun a ha => Dev.setGrp_rd_ne _ _ _ fun _ => ha⟩

/-- The queues that engines use are those of before. -/
theorem Dev.waveStarted_usedQueues (hg : g < 64) (c e k : Nat) : (d.waveStarted g r).usedQueues c e k = d.usedQueues c e k := by
  obtain ⟨-, hcircs, hregs⟩ := d.waveStarted_frame g r
  have hlog : (d.waveStarted g r).logicalOf c = d.logicalOf c :=
    Dev.fld_of_rd (hregs _ (by simp only [coStatAddr, Reg.coStat, Reg.scrCtxsel]; omega)) _
  unfold Dev.usedQueues
  rw [hlog, hcircs]

end

/-- What acceptance comes to where every engine waits for a circuit's marker. -/
theorem Dev.switchAccept_eq {d : Dev} {g : Nat} {r : SwitchReq} (hg : g < 64) (hreq : (d.grp g).req = some r)
    (hwave : (d.grp g).wave = none) (hloaded : d.targetLoaded g r = true) (hrun : ∃ c ∈ (d.grp g).cores, d.coreState c = coRun)
    (hfed : ∀ c ∈ (d.grp g).cores, ∀ e < 64, d.usedQueues c e (d.grp g).ctx ≠ []) : d.switchAccept g = d.waveStarted g r := by
  have hleft : (d.newWave g r).left.isEmpty = false := by
    obtain ⟨c, hc, hcr⟩ := hrun
    exact List.isEmpty_eq_false_iff.mpr (List.ne_nil_of_mem (List.mem_filter.mpr ⟨hc, decide_eq_true hcr⟩))
  have hgo : d.switchAccept g = if (d.newWave g r).left.isEmpty then (d.waveStarted g r).groupDone g (d.newWave g r)
      else (d.newWave g r).left.foldl (fun f c => (List.range 64).foldl (fun h e =>
        if (h.usedQueues c e (d.grp g).ctx).isEmpty then h.receiveMarker c e else h) f) (d.waveStarted g r) := by
    have haccepts : ¬ ((d.grp g).wave.isSome || !d.targetLoaded g r) = true := by simp [hwave, hloaded]
    unfold Dev.switchAccept
    dsimp only
    rw [hreq]
    exact if_neg haccepts
  rw [hgo, hleft, if_neg Bool.false_ne_true]
  refine List.foldlRecOn _ _ (motive := fun e => e = d.waveStarted g r) rfl fun f hf c hc => ?_
  refine List.foldlRecOn _ _ (motive := fun e => e = d.waveStarted g r) hf fun h hh e he => ?_
  have hused := hfed c (List.mem_filter.mp hc).1 e (List.mem_range.mp he)
  rw [hh, Dev.waveStarted_usedQueues d g r hg]
  exact if_neg fun h => hused (List.isEmpty_iff.mp h)

/-- The second clause of O38: acceptance. -/
theorem switchAccept_settles {s : State} (g : Fin 64) (r : SwitchReq) (hs : s.dev.alive = true) :
    let x := s.dev.grp g.val
    let ep := s.dev.groupEp x r.ctx
    let notBefore := fun n => s.dev.tms.ctr + 200 * 2 ^ 40 ≤ (s.dev.aNs + (n + 1) * s.dev.tev) * 2 ^ 40
    x.req = some r → x.wave = none → (∀ c ∈ x.cores, s.dev.coreState c = coFenced ∨ (s.dev.ctxRec c r.ctx).isSome = true) →
    (∀ i, r.sec = some i → i ∈ x.loadedSecs) → (∃ c ∈ x.cores, s.dev.coreState c = coRun) →
    (∀ c ∈ x.cores, ∀ e < 64, s.dev.usedQueues c e x.ctx ≠ []) →
    Settles (.switchAccept g) s fun d => ∃ w : Wave, d.grp g.val = { x with req := none, wave := some w } ∧
      w.ctx = r.ctx ∧ w.epoch = (x.epoch + 1) % 4 ∧ w.section_ = r.section_ ∧ w.adapt = r.adapt ∧ w.sec = r.sec ∧
      (∀ c, c ∈ w.left ↔ c ∈ x.cores ∧ s.dev.coreState c = coRun) ∧
      (s.dev.groupTimed x r.ctx = true → s.dev.tev ≠ 0 → notBefore w.first ∧ ep ∣ w.first ∧ ∀ n, ep ∣ n → notBefore n → w.first ≤ n) ∧
      s.dev.keepsBut [.regs, .log, .stk, .fab, .num] d := by
  intro x ep notBefore hreq hwave hctx hsec hrun hfed
  have hloaded : s.dev.targetLoaded g.val r = true := by
    unfold Dev.targetLoaded
    rw [Bool.and_eq_true, Dev.ctxLoaded_iff]
    refine ⟨hctx, ?_⟩
    split
    · next i hi => exact List.contains_iff_mem.mpr (hsec i hi)
    · rfl
  have hkeeps : s.dev.keepsBut [.regs, .log, .stk, .fab, .num] (s.dev.switchAccept g.val) :=
    Dev.switchAccept_keeps (keepsBut_keeps _ _) (keepsBut_refl _ _)
  have heq := Dev.switchAccept_eq g.isLt hreq hwave hloaded hrun hfed
  refine settles_live (exec_switchAccept s g) hs ⟨s.dev.newWave g.val r, ?_, rfl, rfl, rfl, rfl, rfl, fun c => ?_, fun htimed htev => ?_, hkeeps⟩
  · rw [heq]
    exact (s.dev.waveStarted_frame g.val r).1
  · show c ∈ x.cores.filter _ ↔ _
    rw [List.mem_filter, decide_eq_true_iff]
  · have hfirst : (s.dev.newWave g.val r).first = s.dev.firstUnder ep := if_pos htimed
    rw [hfirst]
    exact Dev.firstUnder_least (Dev.groupEp_pos ..) htev

end Sys2Proof.Machine
end

section
/-!
The marker that an entry port sends (R172, R176).
-/

namespace Sys2Proof.Machine

open Sys2Proof

theorem exec_markerSend (s : State) (key : Nat) : exec (.markerSend key) s = s.live fun d => (d.sendMarker key).settleDrip := rfl

theorem markerTok_marker (w : Wave) (old : Nat) (free : Bool) : tokMarker (markerTok w old free) = true := rfl

section
variable {d : Dev} {x : Circuit} {w : Wave}

/-- An entry port sends a marker that is due, on a circuit of the old context that has carried none. -/
theorem Dev.sendMarker_due {key c : Nat} (hx : d.circ key = some x) (hsrc : d.srcCore x = none) (hdst : d.dstCore x = some c)
    (hw : d.waveOf c = some w) (hctx : x.inCtx (d.coreCtx c) = true) (hmarked : (d.cst x.key).marked = false) (hdue : d.markerDue x w = true) :
    d.sendMarker key = d.putMarker x w := by
  have hwave : d.circWave x = some w := by unfold Dev.circWave; rw [hdst]; exact hw
  have hentry : d.isEntry x = true := by simp [Dev.isEntry, hsrc, hdst]
  have hawaits : d.awaitsMarker x = true := by simp [Dev.awaitsMarker, hmarked, hdst, hctx]
  unfold Dev.sendMarker
  rw [hx]
  dsimp only
  rw [hwave]
  exact if_pos (by rw [hentry, hawaits, hdue]; rfl)

/-- Where no open spill takes it, the marker comes to wait before the circuit's first hop. -/
theorem Dev.putMarker_noSpill (hs : d.spillAt x 0 = none) :
    let e := (d.storeTransfer x 0 true).placeAt x.key 0 (markerTok w (d.cst x.key).epoch x.free)
    d.putMarker x w = e.setCst x.key { e.cst x.key with marked := true, epoch := w.epoch } := by
  intro e
  have hsend : d.send x (markerTok w (d.cst x.key).epoch x.free) = e := by
    unfold Dev.send Dev.noteSent
    rw [markerTok_marker, Bool.or_true, if_pos rfl, ite_self]
    exact Dev.putHop_noSpill hs
  unfold Dev.putMarker
  dsimp only
  rw [hsend]

theorem Dev.setCst_waitAt (d : Dev) (k : Nat) (r : CircSt) (j h : Nat) : (d.setCst k r).waitAt j h = d.waitAt j h := rfl

theorem Dev.setCst_cst (d : Dev) (k : Nat) (r : CircSt) : (d.setCst k r).cst k = r := SMap.get_set_same _ _ _

end

/-- The third clause of O38: a marker. -/
theorem markerSend_settles {s : State} {key c : Nat} {x : Circuit} {w : Wave} (hs : s.dev.alive = true) (hx : s.dev.circ key = some x)
    (hsrc : s.dev.srcCore x = none) (hdst : s.dev.dstCore x = some c) (hw : s.dev.waveOf c = some w)
    (hctx : x.inCtx (s.dev.coreCtx c) = true) (hmarked : (s.dev.cst x.key).marked = false) (hspill : s.dev.spillAt x 0 = none)
    (hdue : x.free = true ∨ w.first ≤ s.dev.scr.firstEv ∨
      (∃ q, (s.dev.cst x.key).slot = some q ∧ (q + 257 - w.first % 256) % 256 = 0 ∧ x.kc ≤ (s.dev.cst x.key).sent) ∨
      (∃ q, (s.dev.cst x.key).slot = some q ∧ 1 ≤ (q + 257 - w.first % 256) % 256 ∧ (q + 257 - w.first % 256) % 256 < 128)) :
    Settles (.markerSend key) s fun d =>
      d.waitAt x.key 0 = s.dev.waitAt x.key 0 ++ [markerTok w (s.dev.cst x.key).epoch x.free] ∧
      (d.cst x.key).marked = true ∧ (d.cst x.key).epoch = w.epoch ∧ (∀ a, ¬ dripReg a → d.rd a = s.dev.rd a) ∧
      s.dev.keepsBut [.regs, .fab] d := by
  have hdue' : s.dev.markerDue x w = true := by
    unfold Dev.markerDue
    rcases hdue with hfree | hfirst | ⟨q, hq, hk, hsent⟩ | ⟨q, hq, hlow, hhigh⟩
    · simp [hfree]
    · simp [hfirst]
    · simp [hq, hk, hsent]
    · simp [hq, hlow, hhigh]
  refine settles_live (exec_markerSend s key) hs ?_
  have hregs := s.dev.putMarker_offDrip x w
  rw [Dev.sendMarker_due hx hsrc hdst hw hctx hmarked hdue']
  rw [Dev.putMarker_noSpill hspill] at hregs ⊢
  refine ⟨?_, by rw [Dev.setCst_cst], by rw [Dev.setCst_cst], hregs, ?_⟩
  · rw [Dev.setCst_waitAt, Dev.placeAt_waitAt, (s.dev.storeTransfer_timersOnly x 0 true).waitAt]
  · have hkeeps := keepsBut_keeps [.regs, .fab] s.dev
    exact Dev.setCst_keeps (hkeeps.mono rfl) (Dev.placeAt_keeps (hkeeps.mono rfl) (Dev.storeTransfer_keeps hkeeps (keepsBut_refl _ _)))

end Sys2Proof.Machine
end

section
/-!
An engine's switch (R177, R178, R180, R182).
-/

namespace Sys2Proof.Machine

open Sys2Proof

theorem exec_receiveSwitchMarker (s : State) (c : CoreId) (e : Fin 64) (tie : Option FenceCause) :
    exec (.receiveSwitchMarker c e tie) s = s.live fun d => (d.fenceOr c.val tie fun f => f.receiveMarker c.val e.val).settleDrip := rfl

/-! What circuits take changes no engine -/

/-- The engines, the circuits and the cores' registers are those of d. -/
structure Dev.SameEngines (d e : Dev) : Prop where
  engs : e.fab.engs = d.fab.engs
  circuits : e.fab.circuits = d.fab.circuits
  regs : d.offDrip e

namespace Dev.SameEngines

variable {d e f : Dev}

theorem refl (d : Dev) : d.SameEngines d := ⟨rfl, rfl, .refl d⟩

theorem trans (h : d.SameEngines e) (h' : e.SameEngines f) : d.SameEngines f :=
  ⟨h'.engs.trans h.engs, h'.circuits.trans h.circuits, h.regs.trans h'.regs⟩

theorem eng (h : d.SameEngines e) (c i : Nat) : e.eng c i = d.eng c i := by unfold Dev.eng; rw [h.engs]

theorem iq (h : d.SameEngines e) (c i q : Nat) : e.iq c i q = d.iq c i q := by unfold Dev.iq; rw [h.eng]

end Dev.SameEngines

/-- The input queues that a context uses are read off the circuits and the core's logical position. -/
theorem Dev.usedQueues_of {d e : Dev} (hc : e.fab.circuits = d.fab.circuits) (hr : d.offDrip e) (c i k : Nat) :
    e.usedQueues c i k = d.usedQueues c i k := by
  unfold Dev.usedQueues
  rw [hc, hr.logicalOf]

theorem Dev.storeTransfer_circuits (d : Dev) (x : Circuit) (h : Nat) (b : Bool) : (d.storeTransfer x h b).fab.circuits = d.fab.circuits := by
  obtain ⟨y, hy⟩ := (d.storeTransfer_timersOnly x h b).fab
  rw [hy]

theorem Dev.putHop_sameEngines (d : Dev) (x : Circuit) (h : Nat) (t : Token) : d.SameEngines (d.putHop x h t) := by
  have hfab : (d.putHop x h t).fab.engs = d.fab.engs ∧ (d.putHop x h t).fab.circuits = d.fab.circuits := by
    cases hs : d.spillAt x h with
    | none =>
      rw [Dev.putHop_noSpill hs]
      exact ⟨(d.storeTransfer_timersOnly x h true).engs, d.storeTransfer_circuits x h true⟩
    | some p =>
      obtain ⟨cl, j, sp⟩ := p
      obtain ⟨y, hy⟩ := d.segPush_fab cl j sp (.at x.key h t)
      rw [Dev.putHop_spill hs, hy]
      exact ⟨rfl, rfl⟩
  exact ⟨hfab.1, hfab.2, fun a ha => Dev.putHop_rd _ _ _ _ ha⟩

/-- A token that a circuit takes leaves the engines as they are. -/
theorem Dev.send_sameEngines (d : Dev) (x : Circuit) (t : Token) : d.SameEngines (d.send x t) := by
  have hnote : d.SameEngines (d.noteSent x t) := by
    unfold Dev.noteSent
    dsimp only
    split
    · exact .refl d
    · split <;> exact ⟨rfl, rfl, .of_regs rfl⟩
  unfold Dev.send
  split
  · exact Dev.putHop_sameEngines ..
  · exact hnote.trans (Dev.putHop_sameEngines ..)

/-! A marker taken off an input queue (R177) -/

/-- The marker at the head of an input queue removed, and the queue open again. -/
def Dev.takeMarker (d : Dev) (c e q : Nat) : Dev := (d.iqPop c e q).setClosed c e q false

section
variable {d : Dev} {c e q q' : Nat}

theorem Dev.iqPop_timersOnly (d : Dev) (c e q : Nat) : (d.setIq c e q (d.iq c e q).tail).TimersOnly (d.iqPop c e q) := by
  unfold Dev.iqPop
  dsimp only
  split
  · exact Dev.dripTransfer_timersOnly _ _
  · exact .refl _

theorem Dev.takeMarker_iq (d : Dev) (c e q : Nat) : (d.takeMarker c e q).iq c e q = (d.iq c e q).tail := by
  unfold Dev.takeMarker
  rw [Dev.setClosed_iq, (d.iqPop_timersOnly c e q).iq, Dev.setIq_iq]

theorem Dev.takeMarker_closed (d : Dev) (c e q : Nat) : (d.takeMarker c e q).iqClosed c e q = false := Dev.setClosed_closed ..

/-- The record that a marker's removal leaves: the engine's with that queue's fields changed. -/
theorem Dev.takeMarker_eng (d : Dev) (c e q : Nat) : (d.takeMarker c e q).eng c e =
    if q = 0 then { d.eng c e with q0 := (d.iq c e q).tail, closed0 := false }
    else { d.eng c e with q1 := (d.iq c e q).tail, closed1 := false } := by
  have hpop : (d.iqPop c e q).eng c e = if q = 0 then { d.eng c e with q0 := (d.iq c e q).tail } else { d.eng c e with q1 := (d.iq c e q).tail } := by
    rw [(d.iqPop_timersOnly c e q).eng]
    exact Dev.setEng_eng ..
  unfold Dev.takeMarker Dev.setClosed
  dsimp only
  rw [Dev.setEng_eng, hpop]
  split <;> rfl

/-- The other input queue stays as it is. -/
theorem Dev.takeMarker_other (h : q' = 0 ↔ q ≠ 0) : (d.takeMarker c e q').iq c e q = d.iq c e q ∧
    (d.takeMarker c e q').iqClosed c e q = d.iqClosed c e q := by
  unfold Dev.iq Dev.iqClosed
  rw [Dev.takeMarker_eng]
  by_cases hq : q = 0
  · have hq' : q' ≠ 0 := fun h' => h.mp h' hq
    simp [hq, hq']
  · simp [hq, h.mpr hq]

theorem Dev.takeMarker_eng_ne {k : Nat} (h : k ≠ e) : (d.takeMarker c e q).eng c k = d.eng c k := by
  have hset : ∀ (f : Dev) r, (f.setEng c e r).eng c k = f.eng c k := fun f r => Dev.setEng_eng_ne f r (by omega)
  calc (d.takeMarker c e q).eng c k
    _ = (d.iqPop c e q).eng c k := hset _ _
    _ = (d.setIq c e q (d.iq c e q).tail).eng c k := (d.iqPop_timersOnly c e q).eng c k
    _ = d.eng c k := hset _ _

end

/-! The markers taken, and the engine on its new context -/

/-- The device once an engine's markers have gone out on its outputs. -/
def Dev.markersOut (d : Dev) (c e : Nat) (w : Wave) : Dev :=
  let l := d.logicalOf c
  let outs := (d.circsFrom (d.coreCtx c) fun s => decide (s.kind = 0 ∧ s.cl = clOf c ∧ s.core = l ∧ s.eng = e)).filter fun x =>
    !(d.eng c e).ahead.contains x.key
  outs.foldl (fun f x => f.send x (markerTok w (f.coreEpoch c) x.free)) d

/-- The device once an engine's markers have been taken off its inputs. -/
def Dev.markersTaken (d : Dev) (c e k : Nat) : Dev := (d.usedQueues c e k).foldl (fun f q => f.takeMarker c e q) d

/-- An engine on the new context of a wave, its staged words given up. -/
def Dev.engRestart (d : Dev) (c e old : Nat) (w : Wave) : Dev :=
  let k := d.core c
  let drop := fun (u : Staged) => if u.ctx = old then { u with left := u.left.erase e } else u
  let d := d.setCore c { k with staged := (k.staged.map drop).filter fun u => !u.left.isEmpty }
  let r := d.eng c e
  let keep := r.descs.filter fun p => decide (p.1 / 32 ≠ w.ctx)
  let d := d.setEng c e { r with
    switched := true, ahead := [], looping := false, latch := [], nextBlock := 0, released := 0, descs := keep }
  match d.ctxRec c w.ctx with
  | some x => (List.range 32).foldl (fun f k =>
      let y := x.desc e k
      if y.valid && !y.free then f.setDescRec c e k { DescRec.init with slot := some (w.first % 256) } else f) d
  | none => d

theorem Dev.engSwitch_eq (d : Dev) (c e : Nat) (w : Wave) :
    d.engSwitch c e w = ((d.markersOut c e w).markersTaken c e (d.coreCtx c)).engRestart c e (d.coreCtx c) w := rfl

section
variable (d : Dev) (c e : Nat) (w : Wave)

theorem Dev.markersOut_sameEngines : d.SameEngines (d.markersOut c e w) :=
  foldl_keeps (P := d.SameEngines) (fun f x hf => hf.trans (f.send_sameEngines x _)) (.refl d)

theorem Dev.mem_usedQueues {d : Dev} {c e k q : Nat} (h : q ∈ d.usedQueues c e k) : q = 0 ∨ q = 1 := by
  have h' := (List.mem_filter.mp h).1
  simpa using h'

theorem Dev.usedQueues_nodup (k : Nat) : (d.usedQueues c e k).Nodup := List.Nodup.filter _ (by decide)

/-- Each queue that the old context uses loses its marker and opens. -/
theorem Dev.markersTaken_iq {k q : Nat} (hq : q ∈ d.usedQueues c e k) : (d.markersTaken c e k).iq c e q = (d.iq c e q).tail ∧
    (d.markersTaken c e k).iqClosed c e q = false := by
  have hother : ∀ q' ∈ d.usedQueues c e k, q' ≠ q → (q' = 0 ↔ q ≠ 0) := fun q' hq' hne => by
    have := Dev.mem_usedQueues hq
    have := Dev.mem_usedQueues hq'
    omega
  refine foldl_sets (P := fun f => f.iq c e q = d.iq c e q) (Q := fun f => f.iq c e q = (d.iq c e q).tail ∧ f.iqClosed c e q = false)
    (fun f q' hq' hne hf => ?_) (fun f q' hq' hne hf => ?_) (fun f hf => ?_) hq (d.usedQueues_nodup c e k) rfl
  · rw [(Dev.takeMarker_other (hother q' hq' hne)).1, hf]
  · obtain ⟨hiq, hclosed⟩ := Dev.takeMarker_other (d := f) (c := c) (e := e) (hother q' hq' hne)
    rw [hiq, hclosed]
    exact hf
  · rw [Dev.takeMarker_iq, hf]
    exact ⟨rfl, f.takeMarker_closed c e q⟩

theorem Dev.markersTaken_eng_ne {k i : Nat} (h : i ≠ e) : (d.markersTaken c e k).eng c i = d.eng c i :=
  foldl_keeps (P := fun f => f.eng c i = d.eng c i) (fun _ _ hf => (Dev.takeMarker_eng_ne h).trans hf) rfl

/-- The restarted engine: its input queues stand, and its block, latch and marker state start anew. -/
theorem Dev.engRestart_eng (old : Nat) : ∃ m, (d.engRestart c e old w).eng c e = { d.eng c e with
    switched := true, ahead := [], looping := false, latch := [], nextBlock := 0, released := 0, descs := m } := by
  unfold Dev.engRestart
  dsimp only
  split
  · refine foldl_keeps (P := fun f => ∃ m, f.eng c e = { d.eng c e with
      switched := true, ahead := [], looping := false, latch := [], nextBlock := 0, released := 0, descs := m }) (fun f k hf => ?_)
      ⟨_, Dev.setEng_eng ..⟩
    obtain ⟨m, hm⟩ := hf
    split
    · exact ⟨_, (Dev.setEng_eng ..).trans (by rw [hm])⟩
    · exact ⟨m, hm⟩
  · exact ⟨_, Dev.setEng_eng ..⟩

theorem Dev.engRestart_eng_ne (old : Nat) {i : Nat} (h : i ≠ e) : (d.engRestart c e old w).eng c i = d.eng c i := by
  have hset : ∀ (f : Dev) r, (f.setEng c e r).eng c i = f.eng c i := fun f r => Dev.setEng_eng_ne f r (by omega)
  unfold Dev.engRestart
  dsimp only
  split
  · refine foldl_keeps (P := fun f => f.eng c i = d.eng c i) (fun f k hf => ?_) (hset _ _)
    split
    · exact (hset _ _).trans hf
    · exact hf
  · exact hset _ _

end

/-- What an engine's switch leaves of its core's engines (R178). -/
theorem Dev.engSwitch_spec (d : Dev) (c e : Nat) (w : Wave) :
    let f := d.engSwitch c e w
    (f.eng c e).switched = true ∧ (f.eng c e).looping = false ∧ (f.eng c e).ahead = [] ∧ (f.eng c e).latch = [] ∧
    (∀ q ∈ d.usedQueues c e (d.coreCtx c), f.iq c e q = (d.iq c e q).tail ∧ f.iqClosed c e q = false) ∧
    ∀ k, k ≠ e → f.eng c k = d.eng c k := by
  intro f
  have hout := d.markersOut_sameEngines c e w
  obtain ⟨m, hm⟩ := ((d.markersOut c e w).markersTaken c e (d.coreCtx c)).engRestart_eng c e w (d.coreCtx c)
  have hf : f = _ := d.engSwitch_eq c e w
  rw [← hf] at hm
  refine ⟨by rw [hm], by rw [hm], by rw [hm], by rw [hm], fun q hq => ?_, fun k hk => ?_⟩
  · rw [← Dev.usedQueues_of hout.circuits hout.regs] at hq
    obtain ⟨hiq, hclosed⟩ := Dev.markersTaken_iq _ c e hq
    rw [hout.iq] at hiq
    refine ⟨Eq.trans ?_ hiq, Eq.trans ?_ hclosed⟩
    · unfold Dev.iq; rw [hm]
    · unfold Dev.iqClosed; rw [hm]
  · rw [hf]
    exact (Dev.engRestart_eng_ne _ c e w _ hk).trans ((Dev.markersTaken_eng_ne _ c e hk).trans (hout.eng c k))

/-- A core of which an engine has still to switch does not complete (R182). -/
theorem Dev.coreCheck_waits {d : Dev} {c k : Nat} (hk : k < 64) (hswitched : (d.eng c k).switched = false) : d.coreCheck c = d := by
  unfold Dev.coreCheck
  dsimp only
  split
  · rfl
  · refine if_neg fun h => ?_
    have hall := List.all_eq_true.mp (Bool.and_eq_true_iff.mp h).2 k (List.mem_range.mpr hk)
    rw [hswitched] at hall
    exact Bool.false_ne_true hall

/-- The fourth clause of O38: an engine's switch. -/
theorem receiveSwitchMarker_settles {s : State} {c : CoreId} {e : Fin 64} {w : Wave} (hs : s.dev.alive = true)
    (hw : s.dev.waveOf c.val = some w) (hrun : s.dev.coreState c.val = coRun) (hleft : c.val ∈ w.left)
    (hnot : (s.dev.eng c.val e.val).switched = false) (hmarkers : s.dev.markersIn c.val e.val = true)
    (hwaits : ∃ k < 64, k ≠ e.val ∧ (s.dev.eng c.val k).switched = false) :
    Settles (.receiveSwitchMarker c e none) s fun d =>
      (d.eng c.val e.val).switched = true ∧ (d.eng c.val e.val).looping = false ∧ (d.eng c.val e.val).ahead = [] ∧
      (d.eng c.val e.val).latch = [] ∧
      (∀ q ∈ s.dev.usedQueues c.val e.val (s.dev.coreCtx c.val), d.iq c.val e.val q = (s.dev.iq c.val e.val q).tail ∧
        d.iqClosed c.val e.val q = false) ∧
      (∀ k, k ≠ e.val → k < 64 → d.eng c.val k = s.dev.eng c.val k) ∧ s.dev.keepsBut [.regs, .log, .stk, .fab, .num] d := by
  have hkeeps : s.dev.keepsBut [.regs, .log, .stk, .fab, .num] (s.dev.receiveMarker c.val e.val) :=
    Dev.receiveMarker_keeps (keepsBut_keeps _ _) (keepsBut_refl _ _)
  obtain ⟨hsw, hloop, hahead, hlatch, hiq, hrest⟩ := s.dev.engSwitch_spec c.val e.val w
  have heq : s.dev.receiveMarker c.val e.val = s.dev.engSwitch c.val e.val w := by
    obtain ⟨k, hk, hne, hkn⟩ := hwaits
    unfold Dev.receiveMarker
    rw [hw]
    dsimp only
    rw [if_pos (by simp [hrun, hleft, hnot, hmarkers])]
    exact Dev.coreCheck_waits hk (by rw [hrest k hne, hkn])
  have hnow : s.dev.fenceOr c.val none (fun f => f.receiveMarker c.val e.val) = s.dev.engSwitch c.val e.val w := heq
  rw [heq] at hkeeps
  refine settles_live (exec_receiveSwitchMarker s c e none) hs ?_
  rw [hnow]
  exact ⟨hsw, hloop, hahead, hlatch, hiq, fun k hk _ => hrest k hk, hkeeps⟩

end Sys2Proof.Machine
end

section
/-!
A counter unit's switch (R161, R167, R179, R191).
-/

namespace Sys2Proof.Machine

open Sys2Proof

theorem exec_counterUnitSwitch (s : State) (c : CoreId) (tie : Option FenceCause) :
    exec (.counterUnitSwitch c tie) s = s.live fun d => (d.fenceOr c.val tie fun f => f.counterSwitch c.val).settleDrip := rfl

/-! What a counter unit's output leaves alone -/

/-- The engines and the switch groups are those of d. -/
def Dev.sameEngGroups (d e : Dev) : Prop := e.fab.engs = d.fab.engs ∧ e.fab.groups = d.fab.groups

namespace Dev.sameEngGroups

variable {d e f : Dev}

theorem refl (d : Dev) : d.sameEngGroups d := ⟨rfl, rfl⟩

theorem trans (h : d.sameEngGroups e) (h' : e.sameEngGroups f) : d.sameEngGroups f := ⟨h'.1.trans h.1, h'.2.trans h.2⟩

theorem of_timersOnly (h : d.TimersOnly e) : d.sameEngGroups e := by
  obtain ⟨x, hx⟩ := h.fab
  exact ⟨by rw [hx], by rw [hx]⟩

theorem segPush (d : Dev) (cl j : Nat) (s : Spill) (t : DripTok) : d.sameEngGroups (d.segPush cl j s t) := by
  obtain ⟨x, hx⟩ := d.segPush_fab cl j s t
  exact ⟨by rw [hx], by rw [hx]⟩

theorem setCore (d : Dev) (c : Nat) (r : CoreRec) : d.sameEngGroups (d.setCore c r) := ⟨rfl, rfl⟩

theorem cuFeed (c n : Nat) : ∀ d : Dev, d.sameEngGroups (d.cuFeed c n) := by
  induction n with
  | zero => exact fun d => .refl d
  | succ n ih =>
    intro d
    rw [Dev.cuFeed]
    repeat' split
    · exact .refl d
    · exact ((setCore d c _).trans (segPush ..)).trans (ih _)
    · exact .refl d
    · exact ((setCore d c _).trans (of_timersOnly (Dev.dripTransfer_timersOnly _ _))).trans (ih _)

theorem cuPut (d : Dev) (c : Nat) (t : CuTok) : d.sameEngGroups (d.cuPut c t) := by
  unfold Dev.cuPut
  dsimp only
  repeat' split
  · exact (setCore d c _).trans (cuFeed c _ _)
  · exact ⟨rfl, rfl⟩
  · exact setCore d c _

end Dev.sameEngGroups

theorem Dev.cuSwitch_sameEngGroups (d : Dev) (c : Nat) (w : Wave) : d.sameEngGroups (d.cuSwitch c w) :=
  (foldl_keeps (P := d.sameEngGroups) (fun e _ he => he.trans (.cuPut e c _)) (.refl d)).trans (.setCore _ c _)

/-! Tokens that enter a counter unit's output queue -/

/-- The tokens ts have entered the output queue of core c's counter unit, behind those of d. -/
structure Dev.Emitted (d : Dev) (c : Nat) (ts : List CuTok) (e : Dev) : Prop where
  core : e.core c = { d.core c with cuHeld := [], cuOut := (d.core c).cuOut ++ ts }
  spills : d.sameSpills e
  logicalOf : e.logicalOf c = d.logicalOf c
  coreEpoch : e.coreEpoch c = d.coreEpoch c

/-- A record of a unit before which nothing waits. -/
theorem CoreRec.out_of_held {r : CoreRec} (h : r.cuHeld = []) (us : List CuTok) :
    { r with cuOut := us } = { r with cuHeld := [], cuOut := us } := by
  cases r
  cases h
  rfl

section
variable {d : Dev} {c : Nat} (hheld : (d.core c).cuHeld = [])
  (hopen : d.openSpillOf (clOf c) (cuEndp (clOf c) (d.logicalOf c)) = none)
include hheld

/-- A timed control token enters the queue, over its eight places or not (R161). -/
theorem Dev.cuPut_emits_timed {t : CuTok} (ht : t.tok.free = false) : d.Emitted c [t] (d.cuPut c t) := by
  have hout : ∀ f : Dev, f.core c = d.core c → (f.setCore c { f.core c with cuOut := (f.core c).cuOut ++ [t] }).core c =
      { d.core c with cuHeld := [], cuOut := (d.core c).cuOut ++ [t] } := fun f hf => by
    rw [Dev.setCore_core, hf]
    exact CoreRec.out_of_held hheld _
  unfold Dev.cuPut
  rw [if_neg (by simp [ht])]
  dsimp only
  split
  · have hrd : ∀ a, a ≠ Reg.coTimedOvf (clOf c) (posOf c) → (d.count (Reg.coTimedOvf (clOf c) (posOf c))).rd a = d.rd a := fun a ha =>
      Dev.rd_count_ne d ha
    refine ⟨hout _ rfl, .of_fab rfl rfl, Dev.fld_of_rd (hrd _ ?_) _, Dev.fld_of_rd (hrd _ ?_) _⟩
    · simp only [coStatAddr, Reg.coStat, Reg.coTimedOvf, posOf]; omega
    · simp only [Reg.coCtx, Reg.coTimedOvf, posOf]; omega
  · exact ⟨hout d rfl, .of_fab rfl rfl, rfl, rfl⟩

include hopen

/-- A control token enters the queue of a unit before which nothing waits, where no spill of it is open. -/
theorem Dev.cuPut_emits (t : CuTok) : d.Emitted c [t] (d.cuPut c t) := by
  cases ht : t.tok.free with
  | false => exact Dev.cuPut_emits_timed hheld ht
  | true =>
    rw [Dev.cuPut_enters ht hheld hopen]
    let f := (d.setCore c { d.core c with cuHeld := [t] }).setCore c { d.core c with cuHeld := [], cuOut := (d.core c).cuOut ++ [t] }
    have htimers : f.TimersOnly (f.dripTransfer (cuEndp (clOf c) (d.logicalOf c))) := Dev.dripTransfer_timersOnly _ _
    have hregs : d.offDrip (f.dripTransfer (cuEndp (clOf c) (d.logicalOf c))) := (Dev.offDrip.of_regs rfl).trans htimers.regs
    have hspills : d.sameSpills f := .of_fab rfl rfl
    exact ⟨(htimers.core c).trans (Dev.setCore_core ..), hspills.trans htimers.sameSpills, hregs.logicalOf c,
      hregs.coreEpoch c⟩

end

/-- The markers of a counter unit's switch, in the core's old epoch, one on each of its circuits (R179). -/
theorem Dev.cuMarkers_emitted (c : Nat) (w : Wave) (outs : List Circuit) : ∀ d : Dev, (d.core c).cuHeld = [] →
    d.openSpillOf (clOf c) (cuEndp (clOf c) (d.logicalOf c)) = none →
    ((outs.foldl (fun f x => f.cuPut c ⟨markerTok w (f.coreEpoch c) x.free, [x.key]⟩) d).core c).cuOut =
      (d.core c).cuOut ++ outs.map fun x => ⟨markerTok w (d.coreEpoch c) x.free, [x.key]⟩ := by
  induction outs with
  | nil => intro d _ _; simp
  | cons x xs ih =>
    intro d hheld hopen
    have hput := Dev.cuPut_emits hheld hopen ⟨markerTok w (d.coreEpoch c) x.free, [x.key]⟩
    rw [List.foldl_cons, ih _ (by rw [hput.core]) (by rw [hput.logicalOf, hput.spills.openSpillOf, hopen]), hput.core, hput.coreEpoch]
    simp

/-! The clause of O38 -/

/-- The fifth clause of O38: a counter unit's switch. -/
theorem counterUnitSwitch_settles {s : State} {c : CoreId} {w : Wave} (hs : s.dev.alive = true) (hw : s.dev.waveOf c.val = some w)
    (hrun : s.dev.coreState c.val = coRun) (hleft : c.val ∈ w.left) (hnot : (s.dev.core c.val).cuSwitched = false)
    (hmarks : ∀ k ∈ s.dev.fedCounters c.val (s.dev.coreCtx c.val), k ∈ (s.dev.core c.val).cuMarks)
    (hwaits : ∃ k < 64, (s.dev.eng c.val k).switched = false) :
    let outs := s.dev.circsFrom (s.dev.coreCtx c.val) fun y =>
      decide (y.kind = 2 ∧ y.cl = clOf c.val ∧ y.core = s.dev.logicalOf c.val)
    Settles (.counterUnitSwitch c none) s fun d => (d.core c.val).cuSwitched = true ∧ (d.core c.val).cuMarks = [] ∧
      (s.dev.openSpillOf (clOf c.val) (cuEndp (clOf c.val) (s.dev.logicalOf c.val)) = none → (s.dev.core c.val).cuHeld = [] →
        (d.core c.val).cuOut = (s.dev.core c.val).cuOut ++
          outs.map fun x => ⟨markerTok w (s.dev.coreEpoch c.val) x.free, [x.key]⟩) ∧
      d.fab.engs = s.dev.fab.engs ∧ d.fab.groups = s.dev.fab.groups ∧ s.dev.keepsBut [.regs, .log, .stk, .fab, .num] d := by
  intro outs
  have hkeeps : s.dev.keepsBut [.regs, .log, .stk, .fab, .num] (s.dev.counterSwitch c.val) :=
    Dev.counterSwitch_keeps (keepsBut_keeps _ _) (keepsBut_refl _ _)
  obtain ⟨hengs, hgroups⟩ := s.dev.cuSwitch_sameEngGroups c.val w
  have heq : s.dev.counterSwitch c.val = s.dev.cuSwitch c.val w := by
    obtain ⟨k, hk, hkn⟩ := hwaits
    have hall : ((s.dev.fedCounters c.val (s.dev.coreCtx c.val)).all fun k => (s.dev.core c.val).cuMarks.contains k) = true :=
      List.all_eq_true.mpr fun k hk => List.contains_iff_mem.mpr (hmarks k hk)
    unfold Dev.counterSwitch
    rw [hw]
    dsimp only
    rw [if_pos (by rw [hall]; simp [hrun, hleft, hnot])]
    exact Dev.coreCheck_waits hk (by unfold Dev.eng at hkn ⊢; rw [hengs, hkn])
  have hcore : (s.dev.cuSwitch c.val w).core c.val =
      { (outs.foldl (fun f x => f.cuPut c.val ⟨markerTok w (f.coreEpoch c.val) x.free, [x.key]⟩) s.dev).core c.val with
        cuSwitched := true, cuMarks := [] } := Dev.setCore_core ..
  rw [heq] at hkeeps
  have hnow : s.dev.fenceOr c.val none (fun f => f.counterSwitch c.val) = s.dev.cuSwitch c.val w := heq
  refine settles_live (exec_counterUnitSwitch s c none) hs ?_
  rw [hnow, hcore]
  exact ⟨rfl, rfl, fun hopen hheld => Dev.cuMarkers_emitted c.val w outs s.dev hheld hopen, hengs, hgroups, hkeeps⟩

end Sys2Proof.Machine
end

section
/-!
A core that is fenced as a switch marker comes (R138), and the registers that a fence leaves alone.
-/

namespace Sys2Proof.Machine

open Sys2Proof

/-- A core whose wave is over: its engines and its counter unit have still to switch in the next. -/
def Dev.switchCleared (d : Dev) (k : Nat) : Dev :=
  let f := (List.range 64).foldl (fun h e => h.setEng k e { h.eng k e with switched := false }) d
  f.setCore k { f.core k with cuSwitched := false }

theorem Dev.switchCleared_rd (d : Dev) (k a : Nat) : (d.switchCleared k).rd a = d.rd a := by
  have hcore : ∀ (f : Dev) r, (f.setCore k r).rd a = f.rd a := fun _ _ => rfl
  have heng : ∀ (f : Dev) e r, (f.setEng k e r).rd a = f.rd a := fun _ _ _ => rfl
  unfold Dev.switchCleared
  dsimp only
  rw [hcore]
  exact Dev.foldl_rd _ _ _ (fun _ _ _ => heng ..) d

theorem Dev.emptyCore_regs (d : Dev) (c : Nat) : (d.emptyCore c).regs = d.regs :=
  Dev.emptyCore_keeps (P := fun e => Part.same d e .regs) (Part.same_keeps .regs rfl) rfl

/-! Registers that a fence of core c, past the core's own mark and its error's count, leaves alone -/

/-- GLB_SECTION_FAIL, or a register of a cluster that neither Drip nor a stand-in counts in, for a core of the device. -/
def fenceQuiet (c a : Nat) : Prop :=
  a = Reg.glbSectionFail ∨ (c < 1088 ∧ 0x200000 ≤ a ∧ a < 0xA00000 ∧ ¬ dripReg a ∧ a % 0x20000 ≠ 0x10)

namespace fenceQuiet

variable {c a : Nat} (h : fenceQuiet c a)
include h

theorem notDrip : ¬ dripReg a := by
  simp only [fenceQuiet, dripReg, Reg.glbSectionFail] at h ⊢; omega

theorem standin (cl : Nat) : a ≠ Reg.clStandin cl := by
  simp only [fenceQuiet, Reg.glbSectionFail, Reg.clStandin] at h ⊢; omega

theorem outside {b : Nat} (hb : (0x30 ≤ b ∧ b < 0x200000) ∨ 0xA00000 ≤ b) : a ≠ b := by
  simp only [fenceQuiet, Reg.glbSectionFail] at h; omega

theorem logInternal (d : Dev) (object old new : Nat) (st : Status) : (d.logInternal object old new st).rd a = d.rd a :=
  Dev.logInternal_rd _ _ _ _ _ (h.outside (by decide)) (h.outside (by decide))

theorem setGrp (d : Dev) (g : Nat) (r : GroupRec) : (d.setGrp g r).rd a = d.rd a :=
  Dev.setGrp_rd_ne _ _ _ fun hg => h.outside (by simp only [Reg.scrCtxsel]; omega)

/-- The stand-ins of one event. -/
theorem standIns (n : Nat) : ∀ (d : Dev) (x : Circuit) (ep s : Nat), (d.standIns x ep s n).rd a = d.rd a := by
  induction n with
  | zero => exact fun _ _ _ _ => rfl
  | succ n ih =>
    intro d x ep s
    unfold Dev.standIns
    dsimp only
    rw [ih, Dev.rd_count_ne _ (h.standin _), Dev.putHop_rd _ _ _ _ h.notDrip, Dev.noteSent_rd]

theorem degradeSlots (d : Dev) (p : Nat → Bool) : (d.degradeSlots p).rd a = d.rd a := by
  refine Dev.foldl_rd _ _ _ (fun e s _ => ?_) d
  split
  · exact Dev.rd_setFld_ne _ _ _ (h.outside (by simp only [Reg.mnStat]; omega))
  · rfl

/-! The end of a wave -/

theorem epochDone (d : Dev) (g : Nat) : (d.epochDone g).rd a = d.rd a := by
  have hdigest : ∀ (e : Dev) (w : Nat → Nat), ((List.range 8).foldl (fun f i => f.wr (Reg.numAdaptDigest i) (w i)) e).rd a = e.rd a :=
    fun e w => Dev.foldl_rd _ _ _ (fun f i _ => Dev.rd_wr_ne _ _ (h.outside (by simp only [Reg.numAdaptDigest]; omega))) e
  unfold Dev.epochDone
  extract_lets x n d1 d2 d3 d4 d5 un
  calc d4.rd a
    _ = d2.rd a := (h.logInternal d3 _ _ _ _).trans (h.logInternal d2 _ _ _ _)
    _ = d1.rd a := hdigest d1 _
    _ = d.rd a := Dev.rd_wr_ne _ _ (h.outside (by decide))

theorem groupDone (d : Dev) (g : Nat) (w : Wave) : (d.groupDone g w).rd a = d.rd a := by
  have hcircs : ∀ (l : List Circuit) (e : Dev),
      (l.foldl (fun f y => f.setCst y.key { f.cst y.key with epoch := w.epoch, marked := false }) e).rd a = e.rd a :=
    fun l e => by refine Dev.foldl_rd _ _ _ (fun _ _ _ => ?_) e; rfl
  have hcores : ∀ (l : List Nat) (e : Dev), (l.foldl Dev.switchCleared e).rd a = e.rd a :=
    fun l e => Dev.foldl_rd _ _ _ (fun f k _ => f.switchCleared_rd k a) e
  unfold Dev.groupDone
  extract_lets x d1 clean d2 y d3 d4
  have hlog : d4.rd a = d.rd a :=
    calc d4.rd a
      _ = d3.rd a := h.logInternal d3 _ _ _ _
      _ = d2.rd a := h.setGrp d2 _ _
      _ = d1.rd a := hcores _ d1
      _ = d.rd a := hcircs _ d
  split
  · exact (h.epochDone d4 g).trans hlog
  · exact hlog

theorem waveLeave (d : Dev) (g k : Nat) : (d.waveLeave g k).rd a = d.rd a := by
  unfold Dev.waveLeave
  dsimp only
  split
  · rfl
  · split
    · rw [h.groupDone, h.setGrp]
    · rw [h.setGrp]

/-! The health map -/

theorem setHmap (d : Dev) (lo w v : Nat) : (d.setHmap (hmCore c) lo w v).rd a = d.rd a := by
  refine Dev.rd_setFld_ne _ _ _ ?_
  simp only [fenceQuiet, Reg.glbSectionFail, Reg.glbHmap, hmCore] at h ⊢; omega

theorem hmapUpdate (d : Dev) (lo w v : Nat) : (d.hmapUpdate (hmCore c) lo w v).rd a = d.rd a := by
  have hgen : a ≠ Reg.glbHealthGen := by simp only [fenceQuiet, Reg.glbSectionFail, Reg.glbHealthGen] at h ⊢; omega
  have hmap : ∀ i < 16, a ≠ Reg.glbHmap i := fun i hi => h.outside (by simp only [Reg.glbHmap]; omega)
  unfold Dev.hmapUpdate Dev.stampHmap
  dsimp only
  rw [Dev.rd_wr_ne _ _ (hmap 7 (by decide)), Dev.rd_wr_ne _ _ (hmap 6 (by decide)), Dev.rd_wr_ne _ _ hgen,
    Dev.rd_wr_ne _ _ (hmap 2 (by decide)), h.setHmap]

end fenceQuiet

/-! A fence by its parts (R137, R454, R458) -/

section
variable (d : Dev) (c cause : Nat)

/-- The fence's error counted, and the core marked. -/
def Dev.fenceMarked : Dev := ((d.countUe c cause).setCoreState c coFenced).setFld (coStatAddr c) Fld.coStatFenceCause cause

/-- The stand-ins for the events that a fenced core still owes. -/
def Dev.fenceStandIns : Dev :=
  let owed := d.owedEvents
  (d.leaving c).foldl (fun f x =>
    let r := f.cst x.key
    owed.foldl (fun h n =>
      match r.slot with
      | some s =>
        let k := (n + 256 - s) % 256
        if k = 0 then h.standIns x (h.coreEpoch c) (n % 256) (x.kc - r.sent)
        else if k ≤ 127 then h.standIns x (h.coreEpoch c) (n % 256) x.kc else h
      | none => h.standIns x (h.coreEpoch c) (n % 256) x.kc) f) d

/-- A fenced core's slots DEGRADED, its spills abandoned, its tokens gone, and its group not held. -/
def Dev.fenceCleared : Dev :=
  let d := ((d.degradeSlots fun s => d.dependsOn s (d.deviceCore c)).abandonSpills c).emptyCore c
  d.waveLeave (d.groupOf c) c

/-- The health map's entry of a fenced core, and the log's. -/
def Dev.fenceShown (before : Nat) : Dev :=
  let d := (d.setHmap (hmCore c) 4 3 5).hmapUpdate (hmCore c) 0 3 coFenced
  d.logInternal (coStatAddr c) before (d.rd (coStatAddr c)) .degraded

variable {d c}

theorem Dev.fence_eq (hrun : d.coreState c = coRun) :
    d.fence c cause = (((d.fenceMarked c cause).fenceShown c (d.rd (coStatAddr c))).fenceStandIns c).fenceCleared c := if_pos hrun

/-- Past the core's mark, a fence leaves the quiet registers. -/
theorem Dev.fence_rd {a : Nat} (h : fenceQuiet c a) (hrun : d.coreState c = coRun) : (d.fence c cause).rd a = (d.fenceMarked c cause).rd a := by
  have hshown : ∀ (e : Dev) b, (e.fenceShown c b).rd a = e.rd a := fun e b => by
    unfold Dev.fenceShown
    dsimp only
    rw [h.logInternal, h.hmapUpdate, h.setHmap]
  have howed : ∀ e : Dev, (e.fenceStandIns c).rd a = e.rd a := fun e => by
    refine Dev.foldl_rd _ _ _ (fun f x _ => Dev.foldl_rd _ _ _ (fun g n _ => ?_) f) e
    split
    · dsimp only
      split
      · exact h.standIns ..
      · split
        · exact h.standIns ..
        · rfl
    · exact h.standIns ..
  have hcleared : ∀ e : Dev, (e.fenceCleared c).rd a = e.rd a := fun e => by
    unfold Dev.fenceCleared
    dsimp only
    rw [h.waveLeave, Dev.rd_of_regs (Dev.emptyCore_regs _ c), (Dev.abandonSpills_dripFrame _ c).2 a h.notDrip, h.degradeSlots]
  rw [Dev.fence_eq cause hrun, hcleared, howed, hshown]

theorem fenceQuiet_coStat (hc : c < 1088) : fenceQuiet c (coStatAddr c) := by
  simp only [fenceQuiet, dripReg, coStatAddr, Reg.coStat, clOf, posOf]; omega

/-- A fenced core's state and cause. -/
theorem Dev.fence_coStat (hc : c < 1088) (hrun : d.coreState c = coRun) : (d.fence c cause).coreState c = coFenced ∧
    (d.fence c cause).fld (coStatAddr c) Fld.coStatFenceCause = cause % 2 ^ Fld.coStatFenceCause.w := by
  have hstat := Dev.fence_rd cause (fenceQuiet_coStat hc) hrun
  refine ⟨(Dev.fld_of_rd hstat _).trans ?_, (Dev.fld_of_rd hstat _).trans (Dev.fld_setFld_same _ _ _ _ (by decide))⟩
  exact (Dev.fld_setFld_fld _ _ _ _ _ (by decide) (by decide)).trans (Dev.setCoreState_state _ _ _ (by decide))

theorem Dev.fenceMarked_rd {a : Nat} (h : a ≠ coStatAddr c) : (d.fenceMarked c cause).rd a = (d.countUe c cause).rd a := by
  unfold Dev.fenceMarked
  rw [Dev.rd_setFld_ne _ _ _ h]
  exact Dev.rd_setFld_ne _ _ _ h

theorem Dev.countUe_rd {a : Nat} (hcmem : a ≠ Reg.clCmemUe (clOf c)) (hws : a ≠ Reg.coWsUe (clOf c) (posOf c)) :
    (d.countUe c cause).rd a = d.rd a := by
  unfold Dev.countUe
  repeat' split
  · exact Dev.rd_count_ne _ hcmem
  · exact Dev.rd_count_ne _ hws
  · rfl

end

/-- The sixth clause of O38: a fence in the cycle of a switch. -/
theorem fenceTie_settles {s : State} (c : CoreId) (e : Fin 64) (k : FenceCause) (hs : s.dev.alive = true)
    (hrun : s.dev.coreState c.val = coRun) {i : Instr} (hi : i = .receiveSwitchMarker c e (some k) ∨ i = .counterUnitSwitch c (some k)) :
    Settles i s fun d =>
      d.coreState c.val = coFenced ∧ d.fld (coStatAddr c.val) Fld.coStatFenceCause = fenceCode k ∧
      d.rd (Reg.coSwitches (clOf c.val) (posOf c.val)) = s.dev.rd (Reg.coSwitches (clOf c.val) (posOf c.val)) ∧
      s.dev.keepsBut [.regs, .log, .stk, .fab, .num] d := by
  have hc : c.val < 1088 := c.isLt
  have hfence : exec i s = s.live fun d => (d.fence c.val (fenceCode k)).settleDrip := by rcases hi with rfl | rfl <;> rfl
  obtain ⟨hstate, hcause⟩ := Dev.fence_coStat (fenceCode k) hc hrun
  have hquiet : fenceQuiet c.val (Reg.coSwitches (clOf c.val) (posOf c.val)) := by
    simp only [fenceQuiet, dripReg, Reg.coSwitches, clOf, posOf]; omega
  refine settles_live hfence hs ⟨hstate, hcause.trans ?_, ?_, Dev.fence_keeps (keepsBut_keeps _ _) (keepsBut_refl _ _)⟩
  · cases k <;> rfl
  · rw [Dev.fence_rd _ hquiet hrun, Dev.fenceMarked_rd _ (by simp only [Reg.coSwitches, coStatAddr, Reg.coStat]; omega),
      Dev.countUe_rd _ (by simp only [Reg.coSwitches, Reg.clCmemUe, posOf]; omega) (by simp only [Reg.coSwitches, Reg.coWsUe]; omega)]

end Sys2Proof.Machine
end

section
/-!
The load of a section that is not resident (R142, R185, R221, R462), and the context switch of O38.
-/

namespace Sys2Proof.Machine

open Sys2Proof

/-! GLB_SECTION_FAIL through an uncorrectable burst of any stack -/

section
variable (d : Dev) (k : Nat)

theorem Dev.hmapChange_sectionFail (ofs lo w v : Nat) : (d.hmapChange ofs lo w v).rd Reg.glbSectionFail = d.rd Reg.glbSectionFail := by
  have hmap : ∀ i, Reg.glbSectionFail ≠ Reg.glbHmap i := fun i => by simp only [Reg.glbSectionFail, Reg.glbHmap]; omega
  unfold Dev.hmapChange Dev.hmapUpdate Dev.stampHmap Dev.setHmap
  dsimp only
  split
  · rw [Dev.rd_wr_ne _ _ (hmap 7), Dev.rd_wr_ne _ _ (hmap 6), Dev.rd_wr_ne _ _ (by decide), Dev.rd_wr_ne _ _ (hmap 2),
      Dev.rd_setFld_ne _ _ _ (hmap _)]
  · rfl

theorem Dev.stackOut_sectionFail (st : Nat) : (d.stackOut k st).rd Reg.glbSectionFail = d.rd Reg.glbSectionFail := by
  have hstate : (d.setStackState k st).rd Reg.glbSectionFail = d.rd Reg.glbSectionFail :=
    Dev.setStackState_rd _ (by simp only [Reg.glbSectionFail, Reg.stkScfg]; omega) (by simp only [Reg.glbSectionFail, Reg.dieStat]; omega)
  have hmap : (d.stackMap k st).rd Reg.glbSectionFail = d.rd Reg.glbSectionFail := by
    unfold Dev.stackMap
    dsimp only
    split
    · rw [Dev.hmapChange_sectionFail, Dev.hmapChange_sectionFail]; exact hstate
    · rw [Dev.hmapChange_sectionFail]; exact hstate
  rw [Dev.stackOut_eq, Dev.rd_of_regs (Dev.hpcGate_regs _ _), Dev.logInternal_rd _ _ _ _ _ (by decide) (by decide), hmap]

theorem Dev.stackUe_sectionFail : (d.stackUe k).rd Reg.glbSectionFail = d.rd Reg.glbSectionFail := by
  have hcount : ∀ before after, ((d.count (Reg.stkUe k)).logInternal (Reg.stkUe k) before after .degraded).rd Reg.glbSectionFail =
      d.rd Reg.glbSectionFail := fun before after => by
    rw [Dev.logInternal_rd _ _ _ _ _ (by decide) (by decide), Dev.rd_count_ne _ (by simp only [Reg.glbSectionFail, Reg.stkUe]; omega)]
  have hfail : ∀ e : Dev, (e.stackFail k).rd Reg.glbSectionFail = e.rd Reg.glbSectionFail := fun e => by
    unfold Dev.stackFail
    split
    · exact e.stackOut_sectionFail k skFailed
    · rfl
  unfold Dev.stackUe
  dsimp only
  split
  · exact (hfail _).trans (hcount _ _)
  · exact hcount _ _

end

/-! Cluster memory's errors on the way (R142) -/

section
variable (d : Dev) (g : Nat) (y : SectionRow) (n : Nat)

/-- The cluster that a group's sections in cluster memory lie in. -/
def Dev.loadCluster : Nat := ((d.grp g).cores.map clOf).headD 0

/-- The core of the slice that byte off of a section lies in. -/
def Dev.sliceOf (off : Nat) : Nat := 17 * d.loadCluster g + d.physBank (d.loadCluster g) (cmemBank (y.ofs + off)) / 2

/-- An uncorrectable word of core c's slice: it fences a core that runs, and counts in any case. -/
def Dev.sliceError (c : Nat) : Dev := if d.coreState c = coRun then d.fence c 4 else d.countUe c 4

theorem Dev.cmemErrors_good : d.cmemErrors g y none n = d.countN (Reg.clCmemCe (d.loadCluster g)) n := rfl

theorem Dev.cmemErrors_bad (off : Nat) :
    d.cmemErrors g y (some off) n = (d.countN (Reg.clCmemCe (d.loadCluster g)) n).sliceError (d.sliceOf g y off) := by
  have hphys : ∀ cl l, (d.countN (Reg.clCmemCe (d.loadCluster g)) n).physBank cl l = d.physBank cl l := fun cl l => by
    unfold Dev.physBank Dev.physCore
    rw [Dev.fld_of_rd (Dev.rd_countN_ne _ _ (by simp only [Reg.clStat, Reg.clCmemCe]; omega))]
  unfold Dev.sliceOf
  rw [← hphys]
  rfl

theorem Dev.sliceError_sectionFail (c : Nat) : (d.sliceError c).rd Reg.glbSectionFail = d.rd Reg.glbSectionFail := by
  have hcount : (d.countUe c 4).rd Reg.glbSectionFail = d.rd Reg.glbSectionFail :=
    Dev.countUe_rd 4 (by simp only [Reg.glbSectionFail, Reg.clCmemUe]; omega) (by simp only [Reg.glbSectionFail, Reg.coWsUe]; omega)
  unfold Dev.sliceError
  split
  · next hrun =>
    rw [Dev.fence_rd 4 (.inl rfl) hrun, Dev.fenceMarked_rd 4 (by simp only [Reg.glbSectionFail, coStatAddr, Reg.coStat]; omega), hcount]
  · exact hcount

/-- The word counts as its cluster memory's. -/
theorem Dev.sliceError_counts {c : Nat} (hc : c < 1088) :
    (d.sliceError c).rd (Reg.clCmemUe (clOf c)) = satInc 32 1 (d.rd (Reg.clCmemUe (clOf c))) := by
  have hcount : (d.countUe c 4).rd (Reg.clCmemUe (clOf c)) = satInc 32 1 (d.rd (Reg.clCmemUe (clOf c))) := Dev.rd_count ..
  have hquiet : fenceQuiet c (Reg.clCmemUe (clOf c)) := by simp only [fenceQuiet, dripReg, Reg.clCmemUe, clOf]; omega
  unfold Dev.sliceError
  split
  · next hrun =>
    rw [Dev.fence_rd 4 hquiet hrun, Dev.fenceMarked_rd 4 (by simp only [Reg.clCmemUe, coStatAddr, Reg.coStat]; omega), hcount]
  · exact hcount

/-- The core of the slice, where it runs, is fenced. -/
theorem Dev.sliceError_fences {c : Nat} (hc : c < 1088) (hrun : d.coreState c = coRun) : (d.sliceError c).coreState c = coFenced := by
  unfold Dev.sliceError
  rw [if_pos hrun]
  exact (Dev.fence_coStat 4 hc hrun).1

end

/-! A section placed in its context slot (R185) -/

section
variable (d : Dev)

/-- The switch groups stand, and the registers of the clusters' own blocks but those of contexts and credit loops. -/
def Dev.placeFrame (d e : Dev) : Prop :=
  e.fab.groups = d.fab.groups ∧ ∀ a, 0x200000 ≤ a → a % 0x20000 < 0x400 → e.rd a = d.rd a

theorem Dev.placeFrame.refl : d.placeFrame d := ⟨rfl, fun _ _ _ => rfl⟩

theorem Dev.placeFrame.trans {d e f : Dev} (h : d.placeFrame e) (h' : e.placeFrame f) : d.placeFrame f :=
  ⟨h'.1.trans h.1, fun a ha hb => (h'.2 a ha hb).trans (h.2 a ha hb)⟩

theorem Dev.loadCtx_placeFrame (cl : Nat) (segs : List Nat) (x : LCtx) : d.placeFrame (d.loadCtx cl segs x) := by
  refine ⟨rfl, fun a _ hb => ?_⟩
  have hne : a ≠ Reg.coCtx cl (posOf (d.physCore cl x.core)) := by
    have := Nat.mod_lt (d.physCore cl x.core) (show 0 < 17 by decide)
    simp only [Reg.coCtx, posOf]; omega
  exact Dev.rd_setFld_ne _ _ _ hne

theorem Dev.loadCredits_placeFrame (c k : Nat) : d.placeFrame (d.loadCredits c k) := by
  refine List.foldlRecOn _ _ (motive := d.placeFrame) (Dev.placeFrame.refl d) fun e he i hi => ?_
  dsimp only
  split
  · refine he.trans ⟨rfl, fun a _ hb => Dev.rd_setFld_ne _ _ _ ?_⟩
    have := List.mem_range.mp hi
    simp only [Reg.crlStat]; omega
  · exact he

theorem Dev.placeSection_placeFrame (l : LSect) (k : Nat) : d.placeFrame (d.placeSection l k) := by
  unfold Dev.placeSection
  extract_lets cl mine cores gone cut new kept rows old e wheels fab f
  have he : d.placeFrame e := foldl_keeps (P := d.placeFrame) (fun h x hh => hh.trans (h.loadCtx_placeFrame ..)) (Dev.placeFrame.refl d)
  have hf : d.placeFrame f := he.trans ⟨rfl, fun _ _ _ => rfl⟩
  exact foldl_keeps (P := d.placeFrame) (fun h c hh => hh.trans (h.loadCredits_placeFrame c k)) hf

end

/-! The load's ends -/

section
variable (d : Dev) (g i : Nat) (y : SectionRow) (bad : Option Nat) (n : Nat)

/-- The section's place answers reads: cluster memory, or a stack that is UP. -/
def Dev.loadReads : Bool := decide (y.area = 0x1F) || decide (d.stackState y.stack = skUp)

/-- The device once the section's reads have counted what they met. -/
def Dev.loadCounted : Dev :=
  if y.area = 0x1F then d.cmemErrors g y bad n else if d.loadReads y then d.countN (Reg.stkCe y.stack) n else d

/-- The device once an uncorrectable burst of a stack has counted as its own. -/
def Dev.loadBurst : Dev := if decide (y.area ≠ 0x1F) && d.loadReads y && bad.isSome then (d.loadCounted g y bad n).stackUe y.stack
  else d.loadCounted g y bad n

/-- The group's record once section i stands in its context slot, before the loader turns to the next. -/
def Dev.loadedGrp (e : Dev) (i : Nat) (y : SectionRow) : GroupRec :=
  let x := d.grp g
  let stays := fun j => decide ((x.sections_[j]?).map (fun t => t.ctx) ≠ some y.ctx)
  { e.grp g with loadedSecs := i :: x.loadedSecs.filter stays, ranSecs := x.ranSecs.filter stays }

/-- The device once the section stands in its context slot. -/
def Dev.loadPlaced : Dev := (d.loadCounted g y bad n).placeSection (lsectOf (d.sectionBytes g y)) y.ctx

variable {d g i y}
variable (hload : (d.grp g).loading = some i) (hrow : (d.grp g).sections_[i]? = some y)
include hload hrow

theorem Dev.sectionLoad_eq : d.sectionLoad g bad n =
    if bad.isNone && d.loadReads y && contextFormed (d.sectionBytes g y) then
      (d.loadPlaced g y bad n).setGrp g { d.loadedGrp g (d.loadPlaced g y bad n) i y with
        loading := (d.loadedGrp g (d.loadPlaced g y bad n) i y).nextLoad }
    else (d.loadBurst g y bad n).sectionFails g := by
  unfold Dev.sectionLoad
  dsimp only
  rw [hload]
  dsimp only [Option.bind_some]
  rw [hrow]
  rfl

end

section
variable (d : Dev) (g : Nat) (y : SectionRow) (bad : Option Nat) (n : Nat)

/-! A load that fails (R462) -/

theorem Dev.sectionFails_grp : (d.sectionFails g).grp g = { d.grp g with loading := none, secFailed := true } := Dev.setGrp_grp ..

theorem Dev.sectionFails_count : (d.sectionFails g).rd Reg.glbSectionFail = satInc 32 1 (d.rd Reg.glbSectionFail) :=
  (Dev.setGrp_rd_ne _ _ _ fun _ => by simp only [Reg.glbSectionFail, Reg.scrCtxsel]; omega).trans (Dev.rd_count ..)

theorem Dev.sectionFails_rd {a : Nat} (h : 0x200000 ≤ a) : (d.sectionFails g).rd a = d.rd a :=
  (Dev.setGrp_rd_ne _ _ _ fun hg => by simp only [Reg.scrCtxsel]; omega).trans
    (Dev.rd_count_ne _ (by simp only [Reg.glbSectionFail]; omega))

theorem Dev.loadCounted_sectionFail : (d.loadCounted g y bad n).rd Reg.glbSectionFail = d.rd Reg.glbSectionFail := by
  have hcmem : (d.countN (Reg.clCmemCe (d.loadCluster g)) n).rd Reg.glbSectionFail = d.rd Reg.glbSectionFail :=
    Dev.rd_countN_ne _ _ (by simp only [Reg.glbSectionFail, Reg.clCmemCe]; omega)
  unfold Dev.loadCounted
  split
  · cases bad with
    | none => rw [Dev.cmemErrors_good, hcmem]
    | some off => rw [Dev.cmemErrors_bad, Dev.sliceError_sectionFail, hcmem]
  · split
    · exact Dev.rd_countN_ne _ _ (by simp only [Reg.glbSectionFail, Reg.stkCe]; omega)
    · rfl

theorem Dev.loadBurst_sectionFail : (d.loadBurst g y bad n).rd Reg.glbSectionFail = d.rd Reg.glbSectionFail := by
  unfold Dev.loadBurst
  split
  · rw [Dev.stackUe_sectionFail, Dev.loadCounted_sectionFail]
  · exact Dev.loadCounted_sectionFail ..

/-- Cluster memory's errors are no burst of a stack. -/
theorem Dev.loadBurst_cmem (hy : y.area = 0x1F) : d.loadBurst g y bad n = d.cmemErrors g y bad n := by
  have hburst : d.loadBurst g y bad n = d.loadCounted g y bad n := if_neg (by simp [hy])
  rw [hburst]
  exact if_pos hy

/-! A section that is placed -/

theorem Dev.loadPlaced_grp : (d.loadPlaced g y none n).grp g = d.grp g := by
  have hcounted : (d.loadCounted g y none n).fab = d.fab := by
    unfold Dev.loadCounted
    repeat' split
    · rfl
    · rfl
    · rfl
  unfold Dev.loadPlaced Dev.grp
  rw [((d.loadCounted g y none n).placeSection_placeFrame _ _).1, hcounted]

theorem Dev.loadPlaced_cmemCe (hy : y.area = 0x1F) : (d.loadPlaced g y none n).rd (Reg.clCmemCe (d.loadCluster g)) =
    satInc 32 n (d.rd (Reg.clCmemCe (d.loadCluster g))) := by
  have hcounted : d.loadCounted g y none n = d.countN (Reg.clCmemCe (d.loadCluster g)) n := if_pos hy
  unfold Dev.loadPlaced
  rw [((d.loadCounted g y none n).placeSection_placeFrame _ _).2 _ (by simp only [Reg.clCmemCe]; omega) (by simp only [Reg.clCmemCe]; omega),
    hcounted, Dev.rd_countN]

end

/-! What a load comes to -/

/-- What the loader turns to next does not depend on what it loads now. -/
theorem GroupRec.nextLoad_loading (x : GroupRec) (l : Option Nat) : { x with loading := l }.nextLoad = x.nextLoad := rfl

section
variable {d : Dev} {g i : Nat} {y : SectionRow}
variable (hload : (d.grp g).loading = some i) (hrow : (d.grp g).sections_[i]? = some y)
include hload hrow

theorem Dev.sectionLoad_bad (off n : Nat) : d.sectionLoad g (some off) n = (d.loadBurst g y (some off) n).sectionFails g := by
  rw [Dev.sectionLoad_eq _ _ hload hrow]
  exact if_neg (by simp)

/-- A read that fails: the load ends, counted and kept (R462). -/
theorem Dev.sectionLoad_fails {bad : Option Nat} (n : Nat) (hbad : bad.isSome = true) :
    ((d.sectionLoad g bad n).grp g).loading = none ∧ ((d.sectionLoad g bad n).grp g).secFailed = true ∧
      (d.sectionLoad g bad n).rd Reg.glbSectionFail = satInc 32 1 (d.rd Reg.glbSectionFail) := by
  obtain ⟨off, rfl⟩ := Option.isSome_iff_exists.mp hbad
  rw [Dev.sectionLoad_bad hload hrow, Dev.sectionFails_grp, Dev.sectionFails_count, Dev.loadBurst_sectionFail]
  exact ⟨rfl, rfl, rfl⟩

/-- Words of cluster memory that were corrected on the way are counted (R142). -/
theorem Dev.sectionLoad_cmemCe (n : Nat) (hy : y.area = 0x1F) : (d.sectionLoad g none n).rd (Reg.clCmemCe (d.loadCluster g)) =
    satInc 32 n (d.rd (Reg.clCmemCe (d.loadCluster g))) := by
  rw [Dev.sectionLoad_eq _ _ hload hrow]
  split
  · rw [Dev.setGrp_rd_ne _ _ _ fun hg => by simp only [Reg.clCmemCe, Reg.scrCtxsel]; omega, Dev.loadPlaced_cmemCe _ _ _ _ hy]
  · rw [Dev.sectionFails_rd _ _ (by simp only [Reg.clCmemCe]; omega), Dev.loadBurst_cmem _ _ _ _ _ hy, Dev.cmemErrors_good, Dev.rd_countN]

/-- An uncorrectable word of cluster memory counts as its slice's, and fences the core beside it (R142). -/
theorem Dev.sectionLoad_cmemUe (off n : Nat) (hy : y.area = 0x1F) (hc : d.sliceOf g y off < 1088) :
    (d.sectionLoad g (some off) n).rd (Reg.clCmemUe (clOf (d.sliceOf g y off))) =
      satInc 32 1 (d.rd (Reg.clCmemUe (clOf (d.sliceOf g y off)))) ∧
    (d.coreState (d.sliceOf g y off) = coRun → (d.sectionLoad g (some off) n).coreState (d.sliceOf g y off) = coFenced) := by
  have hrd : ∀ a, a ≠ Reg.clCmemCe (d.loadCluster g) → (d.countN (Reg.clCmemCe (d.loadCluster g)) n).rd a = d.rd a := fun a ha =>
    Dev.rd_countN_ne _ _ ha
  rw [Dev.sectionLoad_bad hload hrow, Dev.loadBurst_cmem _ _ _ _ _ hy, Dev.cmemErrors_bad]
  refine ⟨?_, fun hrun => ?_⟩
  · rw [Dev.sectionFails_rd _ _ (by simp only [Reg.clCmemUe]; omega), Dev.sliceError_counts _ hc,
      hrd _ (by simp only [Reg.clCmemUe, Reg.clCmemCe]; omega)]
  · have hstat : coStatAddr (d.sliceOf g y off) ≠ Reg.clCmemCe (d.loadCluster g) := by
      simp only [coStatAddr, Reg.coStat, Reg.clCmemCe, posOf]; omega
    refine (Dev.fld_of_rd (Dev.sectionFails_rd _ _ ?_) _).trans (Dev.sliceError_fences _ hc ((Dev.fld_of_rd (hrd _ hstat) _).trans hrun))
    simp only [coStatAddr, Reg.coStat]; omega

/-- A section that reads and is formed is loaded, and the loader turns to the next (R185). -/
theorem Dev.sectionLoad_loads (n : Nat) (hreads : d.loadReads y = true) (hformed : contextFormed (d.sectionBytes g y) = true) :
    i ∈ ((d.sectionLoad g none n).grp g).loadedSecs ∧ ((d.sectionLoad g none n).grp g).secFailed = (d.grp g).secFailed ∧
      ((d.sectionLoad g none n).grp g).loading = ((d.sectionLoad g none n).grp g).nextLoad := by
  rw [Dev.sectionLoad_eq _ _ hload hrow, if_pos (by rw [hreads, hformed]; rfl), Dev.setGrp_grp]
  refine ⟨List.mem_cons_self, ?_, (GroupRec.nextLoad_loading ..).symm⟩
  show ((d.loadPlaced g y none n).grp g).secFailed = _
  rw [Dev.loadPlaced_grp]

end

/-! The command -/

theorem exec_sectionLoad (s : State) (g : Fin 64) (bad : Option Nat) (n : Nat) :
    exec (.sectionLoad g bad n) s = s.live fun d => match d.loadStack g.val with
      | none => (d.sectionLoad g.val bad n).settleDrip
      | some st => if d.served st 3 then ((d.sectionLoad g.val bad n).useGrant st).settleDrip else d := rfl

/-- The device once the loader's slot, where the section lies in a stack, is used (R221). -/
def Dev.loadServed (d : Dev) (g : Nat) (y : SectionRow) (bad : Option Nat) (n : Nat) : Dev :=
  if y.area = 0x1F then d.sectionLoad g bad n else (d.sectionLoad g bad n).useGrant y.stack

theorem Dev.loadServed_regs (d : Dev) (g : Nat) (y : SectionRow) (bad : Option Nat) (n : Nat) :
    (d.loadServed g y bad n).regs = (d.sectionLoad g bad n).regs ∧ (d.loadServed g y bad n).fab = (d.sectionLoad g bad n).fab := by
  unfold Dev.loadServed
  split <;> exact ⟨rfl, rfl⟩

theorem exec_sectionLoad_served {s : State} {g : Fin 64} {bad : Option Nat} {n i : Nat} {y : SectionRow}
    (hload : (s.dev.grp g.val).loading = some i) (hrow : (s.dev.grp g.val).sections_[i]? = some y)
    (hserved : y.area = 0x1F ∨ (s.dev.stackRec y.stack).grant = 3) (hs : s.dev.alive = true) {P : Dev → Prop}
    (h : P (s.dev.loadServed g.val y bad n)) : Settles (.sectionLoad g bad n) s P := by
  have hstack : s.dev.loadStack g.val = if y.area = 0x1F then none else some y.stack := by
    unfold Dev.loadStack
    rw [hload, Option.bind_some, hrow]
  refine gives_live (exec_sectionLoad ..) hs ⟨_, ?_, h⟩
  unfold Dev.loadServed
  by_cases hy : y.area = 0x1F
  · rw [if_pos hy] at hstack ⊢
    rw [hstack]
  · have hgrant : s.dev.served y.stack 3 = true := by
      unfold Dev.served Dev.granted
      rw [decide_eq_true (hserved.resolve_left hy), Bool.true_or]
    rw [if_neg hy] at hstack ⊢
    rw [hstack]
    exact if_pos hgrant

/-- The seventh clause of O38: a section's load. -/
theorem sectionLoad_settles {s : State} {g : Fin 64} {bad : Option Nat} {n i : Nat} {y : SectionRow} (hs : s.dev.alive = true)
    (hload : (s.dev.grp g.val).loading = some i) (hrow : (s.dev.grp g.val).sections_[i]? = some y)
    (hserved : y.area = 0x1F ∨ (s.dev.stackRec y.stack).grant = 3) :
    let cl := ((s.dev.grp g.val).cores.map clOf).headD 0
    Settles (.sectionLoad g bad n) s fun d =>
      (bad.isSome = true → (d.grp g.val).loading = none ∧ (d.grp g.val).secFailed = true ∧
        d.rd Reg.glbSectionFail = satInc 32 1 (s.dev.rd Reg.glbSectionFail)) ∧
      (bad = none → y.area = 0x1F → d.rd (Reg.clCmemCe cl) = satInc 32 n (s.dev.rd (Reg.clCmemCe cl))) ∧
      (∀ off, bad = some off → y.area = 0x1F →
        let c := 17 * cl + s.dev.physBank cl (cmemBank (y.ofs + off)) / 2
        c < 1088 → d.rd (Reg.clCmemUe (clOf c)) = satInc 32 1 (s.dev.rd (Reg.clCmemUe (clOf c))) ∧
          (s.dev.coreState c = coRun → d.coreState c = coFenced)) ∧
      (bad = none → (y.area = 0x1F ∨ s.dev.stackState y.stack = skUp) → contextFormed (s.dev.sectionBytes g.val y) = true →
        i ∈ (d.grp g.val).loadedSecs ∧ (d.grp g.val).secFailed = (s.dev.grp g.val).secFailed ∧
        (d.grp g.val).loading = (d.grp g.val).nextLoad) ∧
      (y.area ≠ 0x1F → (d.stackRec y.stack).grant = 0) ∧ s.dev.keepsBut [.regs, .log, .stk, .fab, .num, .clk] d := by
  intro cl
  obtain ⟨hregs, hfab⟩ := s.dev.loadServed_regs g.val y bad n
  have hrd : ∀ a, (s.dev.loadServed g.val y bad n).rd a = (s.dev.sectionLoad g.val bad n).rd a := Dev.rd_of_regs hregs
  have hgrp : (s.dev.loadServed g.val y bad n).grp g.val = (s.dev.sectionLoad g.val bad n).grp g.val := by unfold Dev.grp; rw [hfab]
  refine exec_sectionLoad_served hload hrow hserved hs ?_
  rw [hgrp, hrd, hrd]
  refine ⟨Dev.sectionLoad_fails hload hrow n, ?_, ?_, ?_, fun hy => ?_, ?_⟩
  · rintro rfl hy
    exact Dev.sectionLoad_cmemCe hload hrow n hy
  · rintro off rfl hy c hc
    rw [hrd]
    obtain ⟨hcount, hfenced⟩ := Dev.sectionLoad_cmemUe hload hrow off n hy hc
    exact ⟨hcount, fun hrun => (Dev.fld_of_rd (hrd _) _).trans (hfenced hrun)⟩
  · rintro rfl hup hformed
    exact Dev.sectionLoad_loads hload hrow n (by simpa [Dev.loadReads] using hup) hformed
  · unfold Dev.loadServed
    rw [if_neg hy]
    exact congrArg StkRec.grant (Dev.setStack_rec ..)
  · have hkeeps := keepsBut_keeps [.regs, .log, .stk, .fab, .num, .clk] s.dev
    have hloaded := Dev.sectionLoad_keeps (g := g.val) (bad := bad) (corrected := n) hkeeps (keepsBut_refl _ s.dev)
    unfold Dev.loadServed
    split
    · exact hloaded
    · exact Dev.useGrant_keeps (hkeeps.mono rfl) hloaded

/-- Settles O38: the request, its acceptance, an entry port's marker, the switches of an engine and of a counter unit, a fence in the same
cycle, and a section's load, each by its own rule above. -/
theorem switchWave : Obligations.SwitchWave := by
  unfold Obligations.SwitchWave
  refine ⟨?_, ?_, ?_, ?_, ?_, ?_, ?_⟩
  · intro s g k hs
    exact switchRequest_gives g k hs
  · intro s g r hs
    exact switchAccept_settles g r hs
  · intro s key x w c hs hx hsrc hdst hw hctx hmarked hspill hdue
    exact markerSend_settles hs hx hsrc hdst hw hctx hmarked hspill hdue
  · intro s c e w hs hw hrun hleft hnot hmarkers hwaits
    exact receiveSwitchMarker_settles hs hw hrun hleft hnot hmarkers hwaits
  · intro s c w hs hw hrun hleft hnot hmarks hwaits
    exact counterUnitSwitch_settles hs hw hrun hleft hnot hmarks hwaits
  · intro s c e k hs hrun i hi
    exact fenceTie_settles c e k hs hrun hi
  · intro s g bad n i y hs hload hrow hserved
    exact sectionLoad_settles hs hload hrow hserved

end Sys2Proof.Machine
end

section
/-!
States of a stack (R229, R230, R233; Table 6.10): training, test, failure and mirrors.
-/

namespace Sys2Proof.Machine

open Sys2Proof

theorem exec_stackTrainingComplete (s : State) (k : StackId) (h : BitVec 2) (cap24 ok : Bool) :
    exec (.stackTrainingComplete k h cap24 ok) s = s.live fun d => d.stackTrained k.val h.toNat cap24 ok := rfl

theorem exec_stackTrainingFail (s : State) (k : StackId) : exec (.stackTrainingFail k) s = s.live fun d => d.stackTrainFails k.val := rfl

theorem exec_stackTestComplete (s : State) (k : StackId) (ppr : Word) (bad : List Nat) :
    exec (.stackTestComplete k ppr bad) s = s.live fun d => d.stackTested k.val ppr.toNat bad := rfl

theorem exec_stackFailed (s : State) (k : StackId) (cause : StackCause) :
    exec (.stackFailed k cause) s = s.live fun d => d.stackFails k.val := rfl

theorem exec_mirrorTakeover (s : State) (k : StackId) : exec (.mirrorTakeover k) s = s.live fun d => d.mirrorTakes k.val := rfl

theorem Dev.stackRec_of_stk {d e : Dev} (h : e.stk = d.stk) (s : Nat) : e.stackRec s = d.stackRec s := by unfold Dev.stackRec; rw [h]

theorem Dev.stackOut_rec (d : Dev) (s st : Nat) : (d.stackOut s st).stackRec s = { d.stackRec s with failedAt := some d.devNs } :=
  (Dev.stackRec_of_stk (d.stackOut_stk s st) s).trans (Dev.setStack_rec ..)

/-- A stack that goes out keeps the fields of its configuration beside its state. -/
theorem Dev.stackOut_fld (d : Dev) {s st : Nat} (hs : s < 12) (f : Fld) (hf : f.lo + f.w ≤ 32) (hd : f.lo + f.w ≤ 3 ∨ 6 ≤ f.lo) :
    (d.stackOut s st).fld (Reg.stkScfg s) f = d.fld (Reg.stkScfg s) f := by
  refine (Dev.fld_of_rd (Dev.stackOut_rd d hs ?_ ?_ ?_) f).trans (Dev.setStackState_fld d hs f hf hd)
  · simp only [Reg.stkScfg]; omega
  · simp only [Reg.stkScfg, Reg.logLost]; omega
  · simp only [Reg.stkScfg, Reg.logMirrorLost]; omega

/-- A stack that goes to a state other than UP no longer counts among its die's. -/
theorem Dev.stackOut_down (d : Dev) {s st : Nat} (hs : s < 12) (hst : st ≠ skUp) :
    bitAt ((d.stackOut s st).rd (Reg.dieStat (s / 3))) (4 + s % 3) = false := by
  rw [Dev.stackOut_rd d hs (by simp only [Reg.dieStat]; omega) (by simp only [Reg.dieStat, Reg.logLost]; omega)
    (by simp only [Reg.dieStat, Reg.logMirrorLost]; omega), Dev.setStackState_up]
  exact decide_eq_false hst

/-! Training (R229, R230) -/

/-- The device with a stack's configuration as its training found it. -/
def Dev.stackConfigured (d : Dev) (s height : Nat) (cap24 : Bool) : Dev :=
  (d.setFld (Reg.stkScfg s) Fld.stkScfgHeight height).setFld (Reg.stkScfg s) Fld.stkScfgCap24 (bit01 cap24)

theorem Dev.stackConfigured_height (d : Dev) (s : Nat) {height : Nat} (cap24 : Bool) (h : height < 4) :
    (d.stackConfigured s height cap24).fld (Reg.stkScfg s) Fld.stkScfgHeight = height := by
  unfold Dev.stackConfigured
  rw [Dev.fld_setFld_fld _ _ _ _ _ (by decide) (by decide), Dev.fld_setFld_same _ _ _ _ (by decide)]
  exact Nat.mod_eq_of_lt h

theorem Dev.stackConfigured_cap24 (d : Dev) (s height : Nat) (cap24 : Bool) :
    (d.stackConfigured s height cap24).fld (Reg.stkScfg s) Fld.stkScfgCap24 = bit01 cap24 := by
  unfold Dev.stackConfigured
  rw [Dev.fld_setFld_same _ _ _ _ (by decide)]
  cases cap24 <;> rfl

theorem Dev.stackConfigured_keeps {P : Dev → Prop} {d : Dev} {s height : Nat} {cap24 : Bool} (k : Keeps [.regs] P) (h : P d) :
    P (d.stackConfigured s height cap24) := Dev.setFld_keeps k (Dev.setFld_keeps k h)

/-- A configuration is one of Table 6.2, and one that is supported. -/
def supportedConfig (height : BitVec 2) (cap24 ok : Bool) : Prop :=
  ok = true ∧ ((height = 0 ∧ cap24 = false) ∨ ((height = 1 ∨ height = 2) ∧ cap24 = true))

/-- The model's test of a configuration. -/
theorem supportedConfig_iff (height : BitVec 2) (cap24 ok : Bool) :
    (ok && ((decide (height.toNat = 0) && !cap24) || ((decide (height.toNat = 1) || decide (height.toNat = 2)) && cap24))) = true ↔
      supportedConfig height cap24 ok := by
  simp [supportedConfig, ← BitVec.toNat_inj]

/-- Rows 3 and 6 of Table 6.10. -/
theorem Dev.stackTrained_eq {d : Dev} {s : Nat} (height : BitVec 2) (cap24 ok : Bool) (h : d.stackState s = skTrain) :
    (supportedConfig height cap24 ok → d.stackTrained s height.toNat cap24 ok = (d.stackConfigured s height.toNat cap24).setStackState s skTest) ∧
      (¬supportedConfig height cap24 ok →
        d.stackTrained s height.toNat cap24 ok = (d.stackConfigured s height.toNat cap24).stackOut s skMismatch) := by
  unfold Dev.stackTrained
  dsimp only
  rw [if_pos h]
  exact ⟨fun hfit => if_pos ((supportedConfig_iff ..).mpr hfit), fun hfit => if_neg fun hc => hfit ((supportedConfig_iff ..).mp hc)⟩

/-- The first clause of O41: training completes. -/
theorem stackTrainingComplete_gives {s : State} (k : StackId) (h : BitVec 2) (cap24 ok : Bool) (hs : s.dev.alive = true)
    (hst : s.dev.stackState k.val = skTrain) : Gives (.stackTrainingComplete k h cap24 ok) s fun d =>
      (supportedConfig h cap24 ok → d.stackState k.val = skTest ∧ s.dev.keepsBut [.regs] d) ∧
      (¬supportedConfig h cap24 ok → d.stackState k.val = skMismatch ∧ (d.stackRec k.val).failedAt = some s.dev.devNs) ∧
      d.fld (Reg.stkScfg k.val) Fld.stkScfgHeight = h.toNat ∧ d.fld (Reg.stkScfg k.val) Fld.stkScfgCap24 = bit01 cap24 ∧
      s.dev.keepsBut [.regs, .log, .stk, .clk] d := by
  obtain ⟨htest, hmis⟩ := Dev.stackTrained_eq h cap24 ok hst
  have hheight := s.dev.stackConfigured_height k.val cap24 h.isLt
  have hcap := s.dev.stackConfigured_cap24 k.val h.toNat cap24
  refine gives_live (exec_stackTrainingComplete ..) hs ?_
  have hkeep := Dev.stackTrained_keeps (s := k.val) (height := h.toNat) (cap24 := cap24) (supported := ok)
    (keepsBut_keeps [.regs, .log, .stk, .clk] s.dev) (keepsBut_refl _ _)
  by_cases hfit : supportedConfig h cap24 ok
  · rw [htest hfit] at hkeep ⊢
    refine ⟨fun _ => ⟨Dev.setStackState_state _ k.isLt (by decide), ?_⟩, fun hc => absurd hfit hc, ?_, ?_, hkeep⟩
    · exact Dev.setStackState_keeps (keepsBut_keeps _ _) (Dev.stackConfigured_keeps (keepsBut_keeps _ _) (keepsBut_refl _ _))
    · exact (Dev.setStackState_fld _ k.isLt _ (by decide) (by decide)).trans hheight
    · exact (Dev.setStackState_fld _ k.isLt _ (by decide) (by decide)).trans hcap
  · rw [hmis hfit] at hkeep ⊢
    refine ⟨fun hc => absurd hc hfit, fun _ => ⟨Dev.stackOut_state _ k.isLt (by decide), ?_⟩, ?_, ?_, hkeep⟩
    · rw [Dev.stackOut_rec]; rfl
    · exact (Dev.stackOut_fld _ k.isLt _ (by decide) (by decide)).trans hheight
    · exact (Dev.stackOut_fld _ k.isLt _ (by decide) (by decide)).trans hcap

/-- The device with a failed training of a stack noted. -/
def Dev.trainNoted (d : Dev) (s : Nat) : Dev := d.setStack s { d.stackRec s with trains := (d.stackRec s).trains + 1 }

/-- Row 4 of Table 6.10: the stack trains again, or is out with its third failure. -/
theorem Dev.stackTrainFails_eq {d : Dev} {s : Nat} (h : d.stackState s = skTrain) :
    d.stackTrainFails s = if 3 ≤ (d.stackRec s).trains + 1 then (d.trainNoted s).stackOut s skFailed else d.trainNoted s := if_pos h

/-- The second clause of O41: training fails. -/
theorem stackTrainingFail_gives {s : State} (k : StackId) (hs : s.dev.alive = true) (hst : s.dev.stackState k.val = skTrain) :
    Gives (.stackTrainingFail k) s fun d => (d.stackRec k.val).trains = (s.dev.stackRec k.val).trains + 1 ∧
      ((s.dev.stackRec k.val).trains < 2 → d.stackState k.val = skTrain ∧ s.dev.keepsBut [.stk] d) ∧
      (2 ≤ (s.dev.stackRec k.val).trains → d.stackState k.val = skFailed ∧ s.dev.log.gains d.log (internalOrigin (Reg.stkScfg k.val))
        (Reg.stkScfg k.val) (s.dev.rd (Reg.stkScfg k.val)) (d.rd (Reg.stkScfg k.val)) .degraded) ∧
      s.dev.keepsBut [.regs, .log, .stk, .clk] d := by
  have hrec : (s.dev.trainNoted k.val).stackRec k.val = { s.dev.stackRec k.val with trains := (s.dev.stackRec k.val).trains + 1 } :=
    Dev.setStack_rec ..
  refine gives_live (exec_stackTrainingFail ..) hs ?_
  have hkeep := Dev.stackTrainFails_keeps (s := k.val) (keepsBut_keeps [.regs, .log, .stk, .clk] s.dev) (keepsBut_refl _ _)
  rw [Dev.stackTrainFails_eq hst] at hkeep ⊢
  split at hkeep
  · next hthird =>
    rw [if_pos hthird, Dev.stackOut_rec, hrec]
    refine ⟨rfl, fun hlt => by omega, fun _ => ⟨Dev.stackOut_state _ k.isLt (by decide), ?_⟩, hkeep⟩
    exact Dev.stackOut_gains (s.dev.trainNoted k.val) k.isLt
  · next hfewer =>
    rw [if_neg hfewer, hrec]
    exact ⟨rfl, fun _ => ⟨hst, Dev.setStack_keeps (keepsBut_keeps _ _) (keepsBut_refl _ _)⟩, fun hge => by omega, hkeep⟩

/-! Test and repair (R229) -/

theorem satInc_satInc_one {x : Nat} (n : Nat) : satInc 32 n (satInc 32 1 x) = satInc 32 (n + 1) x := by
  unfold satInc
  split <;> split <;> split <;> omega

theorem satInc_zero {x : Nat} (h : x < 2 ^ 32) : satInc 32 0 x = x := if_pos h

section
variable (d : Dev) {s : Nat}

/-- Repairs logged one by one are each counted. -/
theorem Dev.logRepairs_ppr (hppr : d.rd (Reg.stkPpr s) < 2 ^ 32) (n : Nat) :
    (d.logRepairs s n).rd (Reg.stkPpr s) = satInc 32 n (d.rd (Reg.stkPpr s)) := by
  have hlog : ∀ (e : Dev) (old new : Nat), (e.logInternal (Reg.stkPpr s) old new .ok).rd (Reg.stkPpr s) = e.rd (Reg.stkPpr s) :=
    fun e old new => Dev.logInternal_rd _ _ _ _ _ (by simp only [Reg.stkPpr, Reg.logLost]; omega)
      (by simp only [Reg.stkPpr, Reg.logMirrorLost]; omega)
  induction n generalizing d with
  | zero => exact (satInc_zero hppr).symm
  | succ n ih =>
    have hone : ∀ old new : Nat, ((d.count (Reg.stkPpr s)).logInternal (Reg.stkPpr s) old new .ok).rd (Reg.stkPpr s) =
        satInc 32 1 (d.rd (Reg.stkPpr s)) := fun old new => (hlog ..).trans (Dev.rd_count ..)
    have hlt : satInc 32 1 (d.rd (Reg.stkPpr s)) < 2 ^ 32 := by unfold satInc; split <;> omega
    rw [Dev.logRepairs]
    rw [ih _ (by rw [hone]; exact hlt), hone, satInc_satInc_one]

theorem Dev.logRepairs_one_gains : d.log.gains (d.logRepairs s 1).log (internalOrigin (Reg.stkPpr s)) (Reg.stkPpr s) (d.rd (Reg.stkPpr s))
    (satInc 32 1 (d.rd (Reg.stkPpr s))) .ok := by
  rw [← Dev.rd_count d (Reg.stkPpr s)]
  exact Dev.logInternal_gains (d.count (Reg.stkPpr s)) ..

/-- The 64 KiB units among those named that a stack has. -/
def Dev.badUnitsOf (s : Nat) (bad : List Nat) : List Nat := bad.dedup.filter fun u => decide (u < d.stackBytes s / 65536)

/-- The device with a stack's repairs logged and its bad units recorded. -/
def Dev.testRecorded (s ppr : Nat) (bad : List Nat) : Dev :=
  let e := (d.logRepairs s ppr).wr (Reg.stkBadUnits s) (d.badUnitsOf s bad).length
  { e with stk := { e.stk with bad := e.stk.bad ++ (d.badUnitsOf s bad).map (BadUnit.mk s) } }

theorem Dev.stackTested_eq {d : Dev} (ppr : Nat) (bad : List Nat) (h : d.stackState s = skTest) :
    d.stackTested s ppr bad = (d.testRecorded s ppr bad).setStackState s skUp := if_pos h

theorem Dev.testRecorded_badUnits (s ppr : Nat) (bad : List Nat) :
    (d.testRecorded s ppr bad).rd (Reg.stkBadUnits s) = (d.badUnitsOf s bad).length % 2 ^ 32 := Dev.rd_wr_same ..

theorem Dev.testRecorded_ppr (s ppr : Nat) (bad : List Nat) :
    (d.testRecorded s ppr bad).rd (Reg.stkPpr s) = (d.logRepairs s ppr).rd (Reg.stkPpr s) :=
  Dev.rd_wr_ne _ _ (by simp only [Reg.stkPpr, Reg.stkBadUnits]; omega)

theorem Dev.mem_testRecorded_bad (s ppr : Nat) (bad : List Nat) (x : BadUnit) : x ∈ (d.testRecorded s ppr bad).stk.bad ↔
    x ∈ d.stk.bad ∨ (x.stack = s ∧ x.unit ∈ bad ∧ x.unit < d.stackBytes s / 65536) := by
  have hstk : (d.logRepairs s ppr).stk = d.stk := Dev.logRepairs_keeps (Part.same_keeps (d := d) .stk rfl) rfl
  obtain ⟨st, u⟩ := x
  simp [Dev.testRecorded, Dev.badUnitsOf, hstk, and_assoc, and_comm, eq_comm]

end

/-- The third clause of O41: test and repair complete. -/
theorem stackTestComplete_gives {s : State} (k : StackId) (ppr : Word) (bad : List Nat) (hs : s.dev.alive = true)
    (hst : s.dev.stackState k.val = skTest) : Gives (.stackTestComplete k ppr bad) s fun d => d.stackState k.val = skUp ∧
      bitAt (d.rd (Reg.dieStat (k.val / 3))) (4 + k.val % 3) = true ∧
      (s.dev.rd (Reg.stkPpr k.val) < 2 ^ 32 → d.rd (Reg.stkPpr k.val) = satInc 32 ppr.toNat (s.dev.rd (Reg.stkPpr k.val))) ∧
      (ppr = 1 → s.dev.log.gains d.log (internalOrigin (Reg.stkPpr k.val)) (Reg.stkPpr k.val) (s.dev.rd (Reg.stkPpr k.val))
        (satInc 32 1 (s.dev.rd (Reg.stkPpr k.val))) .ok) ∧
      d.rd (Reg.stkBadUnits k.val) = (s.dev.badUnitsOf k.val bad).length % 2 ^ 32 ∧
      (∀ x, x ∈ d.stk.bad ↔ x ∈ s.dev.stk.bad ∨ (x.stack = k.val ∧ x.unit ∈ bad ∧ x.unit < s.dev.stackBytes k.val / 65536)) ∧
      s.dev.keepsBut [.regs, .log, .stk] d := by
  refine gives_live (exec_stackTestComplete ..) hs ?_
  have hkeep := Dev.stackTested_keeps (s := k.val) (ppr := ppr.toNat) (bad := bad) (keepsBut_keeps [.regs, .log, .stk] s.dev)
    (keepsBut_refl _ _)
  rw [Dev.stackTested_eq _ _ hst] at hkeep ⊢
  refine ⟨Dev.setStackState_state _ k.isLt (by decide), Dev.setStackState_up .., fun hppr => ?_, fun hone => ?_, ?_,
    Dev.mem_testRecorded_bad _ _ _ _, hkeep⟩
  · rw [Dev.setStackState_rd _ (by simp only [Reg.stkPpr, Reg.stkScfg]; omega) (by simp only [Reg.stkPpr, Reg.dieStat]; omega),
      Dev.testRecorded_ppr, Dev.logRepairs_ppr _ hppr]
  · rw [hone]
    exact s.dev.logRepairs_one_gains
  · rw [Dev.setStackState_rd _ (by simp only [Reg.stkBadUnits, Reg.stkScfg]; omega) (by simp only [Reg.stkBadUnits, Reg.dieStat]; omega),
      Dev.testRecorded_badUnits]

/-! Failure (R230, R292) -/

/-- Slots that turn DEGRADED show it in the Screed's registers, above every unit's. -/
theorem Dev.degradeSlots_rd_below (d : Dev) (p : Nat → Bool) {a : Nat} (h : a < 0xA00000) : (d.degradeSlots p).rd a = d.rd a := by
  unfold Dev.degradeSlots
  refine Dev.foldl_rd _ _ _ (fun e x _ => ?_) d
  split
  · exact Dev.rd_setFld_ne _ _ _ (by simp only [Reg.mnStat]; omega)
  · rfl

theorem Dev.stackFails_eq {d : Dev} {s : Nat} (h : d.stackState s = skUp) : ∃ p, d.stackFails s = (d.stackOut s skFailed).degradeSlots p := by
  unfold Dev.stackFails Dev.stackFail
  rw [if_pos h, if_pos h]
  exact ⟨_, rfl⟩

/-- The fourth clause of O41: an UP stack fails. -/
theorem stackFailed_gives {s : State} (k : StackId) (cause : StackCause) (hs : s.dev.alive = true)
    (hst : s.dev.stackState k.val = skUp) : Gives (.stackFailed k cause) s fun d => d.stackState k.val = skFailed ∧
      (d.stackRec k.val).failedAt = some s.dev.devNs ∧ bitAt (d.rd (Reg.dieStat (k.val / 3))) (4 + k.val % 3) = false ∧
      s.dev.log.gains d.log (internalOrigin (Reg.stkScfg k.val)) (Reg.stkScfg k.val) (s.dev.rd (Reg.stkScfg k.val))
        (d.rd (Reg.stkScfg k.val)) .degraded ∧
      s.dev.keepsBut [.regs, .log, .stk, .clk] d := by
  refine gives_live (exec_stackFailed ..) hs ?_
  have hkeep := Dev.stackFails_keeps (s := k.val) (keepsBut_keeps [.regs, .log, .stk, .clk] s.dev) (keepsBut_refl _ _)
  obtain ⟨p, hp⟩ := Dev.stackFails_eq hst
  rw [hp] at hkeep ⊢
  have hscfg := (s.dev.stackOut k.val skFailed).degradeSlots_rd_below p (a := Reg.stkScfg k.val) (by simp only [Reg.stkScfg]; omega)
  have hstk := Dev.degradeSlots_keeps (p := p) (Part.same_keeps (d := s.dev.stackOut k.val skFailed) .stk rfl) rfl
  have hlog : (Dev.degradeSlots _ p).log = _ :=
    Dev.degradeSlots_keeps (p := p) (Part.same_keeps (d := s.dev.stackOut k.val skFailed) .log rfl) rfl
  refine ⟨(Dev.fld_of_rd hscfg _).trans (Dev.stackOut_state _ k.isLt (by decide)), ?_, ?_, ?_, hkeep⟩
  · rw [Dev.stackRec_of_stk hstk, Dev.stackOut_rec]
  · rw [Dev.degradeSlots_rd_below _ _ (by simp only [Reg.dieStat]; omega)]
    exact Dev.stackOut_down _ k.isLt (by decide)
  · rw [hscfg, hlog]
    exact Dev.stackOut_gains _ k.isLt

/-! Mirrors (R233) -/

/-- A mirror that is UP becomes active. -/
def Dev.mirrorOn (d : Dev) (m : Nat) : Dev := if d.stackState m = skUp then d.setFld (Reg.stkScfg m) Fld.stkScfgMirrorActive 1 else d

theorem Dev.mirrorTakes_eq {d : Dev} {s t : Nat} (hf : (d.stackRec s).failedAt = some t) (hst : d.stackState s = skFailed)
    (ht : t + 128 ≤ d.devNs) : d.mirrorTakes s = (d.mirrorStacks s).foldl Dev.mirrorOn d := by
  unfold Dev.mirrorTakes
  rw [hf]
  exact if_pos ⟨hst, ht⟩

theorem Dev.mirrorOn_state (d : Dev) (m n : Nat) : (d.mirrorOn m).stackState n = d.stackState n := by
  unfold Dev.mirrorOn
  split
  · by_cases h : n = m
    · rw [h]; exact Dev.fld_setFld_fld _ _ _ _ _ (by decide) (by decide)
    · exact Dev.fld_setFld_ne _ _ _ _ (by simp only [Reg.stkScfg]; omega)
  · rfl

theorem Dev.mirrorOn_active (d : Dev) {m : Nat} (h : d.stackState m = skUp) :
    (d.mirrorOn m).flag (Reg.stkScfg m) Fld.stkScfgMirrorActive = true := by
  unfold Dev.mirrorOn
  rw [if_pos h, Dev.flag_setFld_same _ _ _ _ (by decide)]
  rfl

/-- An active mirror stays active. -/
theorem Dev.mirrorOn_stays {d : Dev} (m : Nat) {n : Nat} (h : d.flag (Reg.stkScfg n) Fld.stkScfgMirrorActive = true) :
    (d.mirrorOn m).flag (Reg.stkScfg n) Fld.stkScfgMirrorActive = true := by
  by_cases hup : d.stackState m = skUp
  · by_cases hn : n = m
    · rw [hn]; exact d.mirrorOn_active hup
    · unfold Dev.mirrorOn
      rw [if_pos hup, Dev.flag_setFld_ne _ _ _ _ (by simp only [Reg.stkScfg]; omega)]
      exact h
  · unfold Dev.mirrorOn
    rwa [if_neg hup]

/-- The fifth clause of O41: the mirrors of a failed stack take over. -/
theorem mirrorTakeover_gives {s : State} (k : StackId) {t : Nat} (hs : s.dev.alive = true) (hst : s.dev.stackState k.val = skFailed)
    (hf : (s.dev.stackRec k.val).failedAt = some t) (ht : t + 128 ≤ s.dev.devNs) : Gives (.mirrorTakeover k) s fun d =>
      (∀ m ∈ s.dev.mirrorStacks k.val, s.dev.stackState m = skUp → d.flag (Reg.stkScfg m) Fld.stkScfgMirrorActive = true) ∧
      (∀ m, d.stackState m = s.dev.stackState m) ∧ s.dev.keepsBut [.regs] d := by
  refine gives_live (exec_mirrorTakeover ..) hs ⟨fun m hm hup => ?_, fun m => ?_, Dev.mirrorTakes_keeps (keepsBut_keeps _ _) (keepsBut_refl _ _)⟩
  · rw [Dev.mirrorTakes_eq hf hst ht]
    exact foldl_reaches (P := fun e => e.stackState m = skUp)
      (Q := fun e => e.flag (Reg.stkScfg m) Fld.stkScfgMirrorActive = true) (fun e n he => (e.mirrorOn_state n m).trans he)
      (fun e n he => Dev.mirrorOn_stays n he) (fun e he => e.mirrorOn_active he) hm hup
  · rw [Dev.mirrorTakes_eq hf hst ht]
    exact foldl_keeps (P := fun e => e.stackState m = s.dev.stackState m) (fun e n he => (e.mirrorOn_state n m).trans he) rfl

/-- Settles O41: training, test, failure and the takeover of mirrors, each by its own rule above. -/
theorem stackStates : Obligations.StackStates := by
  unfold Obligations.StackStates
  refine ⟨?_, ?_, ?_, ?_, ?_⟩
  · intro s k h cap24 ok hs hst
    exact stackTrainingComplete_gives k h cap24 ok hs hst
  · intro s k hs hst
    exact stackTrainingFail_gives k hs hst
  · intro s k ppr bad hs hst
    exact stackTestComplete_gives k ppr bad hs hst
  · intro s k cause hs hst
    exact stackFailed_gives k cause hs hst
  · intro s k t hs hst hf ht
    exact mirrorTakeover_gives k hs hst hf ht

end Sys2Proof.Machine
end

section
/-!
Stacks at work (R214 to R216, R220, R221, R224, R225, R227; Tables 6.5 and 6.6): what a slot's step leaves.
-/

namespace Sys2Proof.Machine

open Sys2Proof

theorem exec_stackSlot (s : State) (k : StackId) (n : Nat) :
    exec (.stackSlot k n []) s = s.live fun d => (d.stackSlot k.val (d.openWaits k.val) n []).settleDrip := rfl

theorem exec_blockStaged (s : State) (c : CoreId) : exec (.blockStaged c) s = s.live fun d => d.blockStaged c.val := rfl

theorem exec_refresh (s : State) (k : StackId) (b : Fin 16) : exec (.refresh k b) s = s.live fun d => d.refreshBank k.val b.val := rfl

theorem exec_stackInterfaceRetrain (s : State) (k : StackId) (n : Nat) :
    exec (.stackInterfaceRetrain k n) s = s.live fun d => d.retrainStack k.val n := rfl

theorem mem_stacksOf {die s : Nat} : s ∈ stacksOf die ↔ 3 * die ≤ s ∧ s < 3 * die + 3 := by
  simp only [stacksOf, List.mem_cons, List.not_mem_nil, or_false]
  omega

theorem stacksOf_nodup (die : Nat) : (stacksOf die).Nodup := by simp [stacksOf]

/-! The least of a list -/

theorem listMin_eq_min? (l : List Nat) : listMin l = l.min? := by
  induction l with
  | nil => rfl
  | cons x l ih =>
    rw [listMin, ih, List.min?_cons]
    cases l.min? <;> rfl

theorem listMin_eq_some_iff {l : List Nat} {m : Nat} : listMin l = some m ↔ m ∈ l ∧ ∀ x ∈ l, m ≤ x := by
  rw [listMin_eq_min?, List.min?_eq_some_iff]

theorem exists_listMin {l : List Nat} (h : l ≠ []) : ∃ m, listMin l = some m := by
  rw [listMin_eq_min?]
  exact Option.isSome_iff_exists.mp (List.isSome_min?_of_ne_nil h)

/-! A slot begins (R220) -/

section
variable (d : Dev) (s : Nat)

/-- A stack's slot counted, and the grant of the slot before over. -/
def Dev.slotBegun : Dev :=
  d.setStack s { d.stackRec s with slot := ((d.stackRec s).slot + 1) % 128, total := (d.stackRec s).total + 1, grant := 0 }

theorem Dev.slotBegun_rec : (d.slotBegun s).stackRec s =
    { d.stackRec s with slot := ((d.stackRec s).slot + 1) % 128, total := (d.stackRec s).total + 1, grant := 0 } := Dev.setStack_rec ..

theorem Dev.slotBegun_keeps {P : Dev → Prop} {d : Dev} {s : Nat} (k : Keeps [.stk] P) (h : P d) : P (d.slotBegun s) := Dev.setStack_keeps k h

/-- A record of a stack with the same blocks on their way leaves the same places for others. -/
theorem Dev.setStack_stageRoom {r : StkRec} (hr : r.flights = (d.stackRec s).flights) (f : Flight) (taken : List Flight) :
    (d.setStack s r).stageRoom f taken = d.stageRoom f taken := by
  have hflights : ∀ t, ((d.setStack s r).stackRec t).flights = (d.stackRec t).flights := fun t => by
    by_cases h : t = s
    · rw [h, Dev.setStack_rec, hr]
    · rw [Dev.setStack_rec_ne _ _ h]
  have hctx : (d.setStack s r).ctxRec f.core f.ctx = d.ctxRec f.core f.ctx := rfl
  have hcore : (d.setStack s r).core f.core = d.core f.core := rfl
  unfold Dev.stageRoom
  rw [hctx]
  simp only [hflights, hcore]

theorem Dev.slotReads_of_stageRoom {d e : Dev} (h : ∀ f taken, e.stageRoom f taken = d.stageRoom f taken) (x : Flight) (q taken : List Flight) :
    e.slotReads x q taken = d.slotReads x q taken := by
  induction q generalizing taken with
  | nil => rfl
  | cons f q ih => simp only [Dev.slotReads, h, ih]

theorem Dev.slotBegun_stageRoom (f : Flight) (taken : List Flight) : (d.slotBegun s).stageRoom f taken = d.stageRoom f taken :=
  Dev.setStack_stageRoom d s (by rfl) f taken

theorem Dev.slotBegun_slotReads (x : Flight) (q : List Flight) : (d.slotBegun s).slotReads x q [] = d.slotReads x q [] :=
  Dev.slotReads_of_stageRoom (d.slotBegun_stageRoom s) x q []

end

/-- The first read of a queue is issued if it has a place, and otherwise none is (R216). -/
theorem Dev.slotReads_eq_nil_iff (d : Dev) (x : Flight) (xs : List Flight) : d.slotReads x (x :: xs) [] = [] ↔ d.stageRoom x [] = false := by
  simp [Dev.slotReads]

theorem Dev.slotReads_isEmpty (d : Dev) {x : Flight} {xs : List Flight} (h : d.stageRoom x [] = true) :
    (d.slotReads x (x :: xs) []).isEmpty = false := by
  rw [List.isEmpty_eq_false_iff, ne_eq, Dev.slotReads_eq_nil_iff, h]
  decide

section
variable {d : Dev} {s i t n : Nat} {waits bad : List Nat} {x : Flight} {xs : List Flight}

/-- An UP stack runs the slot that its plan reserves for timed reads. -/
theorem Dev.stackSlot_timed (hup : d.stackState s = skUp) (hplan : d.planCode s (d.stackRec s).slot = 1) :
    d.stackSlot s waits n bad = (d.slotBegun s).runSlot s (d.stackRec s).slot (d.stackRec s).total 1 waits n bad := by
  unfold Dev.stackSlot
  rw [if_pos (show d.frameRuns s = true from decide_eq_true (.inl hup))]
  exact congrArg (fun code => (d.slotBegun s).runSlot s (d.stackRec s).slot (d.stackRec s).total code waits n bad) hplan

/-- An UP stack reads its own areas. -/
theorem Dev.mirrorRead_up (hup : d.stackState s = skUp) (y : Flight) : d.mirrorRead s y = none := by
  unfold Dev.mirrorRead
  rw [if_neg (fun h => absurd (hup.symm.trans h.1) (by decide))]

/-! Slots that no timed read uses (R221, Table 6.5) -/

theorem Dev.runSlot_noReads (h : (d.stackRec s).readsT = []) : d.runSlot s i t 1 waits n bad = d.openSlot s i t waits n bad := by
  have hqueue : d.slotQueue s i 1 = none := by
    have hreads : (d.stackRec s).reads 1 = [] := h
    unfold Dev.slotQueue
    rw [hreads]
    rfl
  unfold Dev.runSlot
  simp [hqueue]

theorem Dev.runSlot_reads (hup : d.stackState s = skUp) (h : (d.stackRec s).readsT = x :: xs) : d.runSlot s i t 1 waits n bad =
    if (d.readSlot s s 1 t x true n bad).2 then (d.readSlot s s 1 t x true n bad).1
    else (d.readSlot s s 1 t x true n bad).1.openSlot s i t waits n bad := by
  have hqueue : d.slotQueue s i 1 = some (s, 1, x) := by
    have hreads : (d.stackRec s).reads 1 = x :: xs := h
    unfold Dev.slotQueue
    rw [hreads]
    simp [Dev.mirrorRead_up hup]
  unfold Dev.runSlot
  simp [hqueue]

theorem Dev.openSlot_none (h : (d.stackRec s).reqs = []) : d.openSlot s i t [] n bad = d := by
  have hreq : d.openReq s i t = none := by unfold Dev.openReq; rw [h]; rfl
  unfold Dev.openSlot
  simp [listMin, hreq]

theorem Dev.openSlot_grants {q : Nat} (h : listMin waits = some q) :
    d.openSlot s i t waits n bad = d.setStack s { d.stackRec s with grant := q } := by
  unfold Dev.openSlot
  rw [h]

/-- Registers and bytes of stacks as they are, and of a stack's own record no more than the grant of its slot new. -/
structure Dev.GrantOnly (d e : Dev) (s : Nat) : Prop where
  regs : e.regs = d.regs
  mem : e.stk.mem = d.stk.mem
  record : ∃ g, e.stackRec s = { d.stackRec s with grant := g }

/-- Where no request of a FREE area waits, an OPEN slot is granted or left unused. -/
theorem Dev.openSlot_grantOnly (h : (d.stackRec s).reqs = []) : d.GrantOnly (d.openSlot s i t waits n bad) s := by
  by_cases hw : waits = []
  · rw [hw, Dev.openSlot_none h]
    exact ⟨rfl, rfl, (d.stackRec s).grant, rfl⟩
  · obtain ⟨q, hq⟩ := exists_listMin hw
    rw [Dev.openSlot_grants hq]
    exact ⟨rfl, rfl, q, Dev.setStack_rec ..⟩

end

/-! Reads that are issued (R214, R216, R220, R227) -/

/-- A slot's reads with what they read, no burst being uncorrectable. -/
def Dev.readBytes (d : Dev) (s : Nat) (fs : List Flight) : List (Flight × List Byte × Bool) :=
  fs.map fun y => (y, d.stackRead s y.at y.now, false)

/-- A queue of timed reads once a slot has issued its first reads fs: blocks that end in the next 2 KiB unit stay in front. -/
def Dev.queueAfter (d : Dev) (s : Nat) (fs : List Flight) : List Flight :=
  ((fs.filter fun y => !y.ends).map fun y => { y with data := y.data ++ d.stackRead s y.at y.now, displaced := false }) ++
    (d.stackRec s).readsT.drop fs.length

/-- The blocks on their way that a slot's reads complete, with their bytes. -/
def Dev.blocksRead (d : Dev) (s : Nat) (fs : List Flight) : List (Flight × List Byte × Bool) :=
  (fs.filter fun y => y.ends).map fun y => (y, y.data ++ d.stackRead s y.at y.now, y.degraded)

theorem Dev.blocksOf_readBytes (d : Dev) (s : Nat) (fs : List Flight) : blocksOf (d.readBytes s fs) = d.blocksRead s fs := by
  simp [blocksOf, Dev.readBytes, Dev.blocksRead, List.filter_map, Function.comp_def]

theorem Dev.slotBegun_queueAfter (d : Dev) (s : Nat) (fs : List Flight) : (d.slotBegun s).queueAfter s fs = d.queueAfter s fs := by
  unfold Dev.queueAfter
  rw [Dev.slotBegun_rec]
  rfl

theorem Dev.takeReads_rec (d : Dev) (s : Nat) (fs : List Flight) :
    ∃ p, (d.takeReads s 1 (d.readBytes s fs)).stackRec s = { d.stackRec s with readsT := d.queueAfter s fs, inPass := p } := by
  have hcut : (((d.readBytes s fs).filter fun x => !x.1.ends).map fun x =>
      { x.1 with data := x.1.data ++ x.2.1, degraded := x.1.degraded || x.2.2, displaced := false }) =
      (fs.filter fun y => !y.ends).map fun y => { y with data := y.data ++ d.stackRead s y.at y.now, displaced := false } := by
    simp [Dev.readBytes, List.filter_map, Function.comp_def]
  have hlen : (d.readBytes s fs).length = fs.length := List.length_map ..
  unfold Dev.takeReads
  dsimp only
  rw [hcut, hlen]
  exact ⟨_, Dev.setStack_rec ..⟩

section
variable (d : Dev) (s : Nat)

/-- A block on its way to its core. -/
def Dev.flyBlock (x : Flight × List Byte × Bool) : Dev :=
  let f := d.notePass s x.1
  let y := { x.1 with data := x.2.1, degraded := x.2.2, stamp := f.stk.reads }
  let f := f.setStack s { f.stackRec s with flights := (f.stackRec s).flights ++ [y] }
  { f with stk := { f.stk with reads := (d.notePass s x.1).stk.reads + 1 } }

theorem Dev.flyBlocks_eq (fs : List (Flight × List Byte × Bool)) : d.flyBlocks s fs = fs.foldl (fun f x => f.flyBlock s x) d := rfl

theorem Dev.notePass_stk (x : Flight) : (d.notePass s x).stk.stk = d.stk.stk ∧ (d.notePass s x).stk.mem = d.stk.mem := by
  unfold Dev.notePass
  dsimp only
  split <;> exact ⟨rfl, rfl⟩

theorem Dev.stackRec_of_map {d e : Dev} (h : e.stk.stk = d.stk.stk) (s : Nat) : e.stackRec s = d.stackRec s := by unfold Dev.stackRec; rw [h]

/-- What cores are told of a block on its way. -/
def Flight.shown (y : Flight) : Nat × Nat × Nat × Nat × List Byte × Bool := (y.core, y.ctx, y.event, y.phase, y.data, y.degraded)

theorem Dev.flyBlock_rec (x : Flight × List Byte × Bool) : ∃ y : Flight, y.shown = (x.1.core, x.1.ctx, x.1.event, x.1.phase, x.2.1, x.2.2) ∧
    (d.flyBlock s x).stackRec s = { d.stackRec s with flights := (d.stackRec s).flights ++ [y] } := by
  refine ⟨{ x.1 with data := x.2.1, degraded := x.2.2, stamp := (d.notePass s x.1).stk.reads }, rfl, ?_⟩
  rw [← Dev.stackRec_of_map (d.notePass_stk s x.1).1 s]
  exact Dev.setStack_rec ..

theorem Dev.flyBlocks_rec (fs : List (Flight × List Byte × Bool)) : ∃ ys : List Flight,
    (d.flyBlocks s fs).stackRec s = { d.stackRec s with flights := (d.stackRec s).flights ++ ys } ∧
    ys.map Flight.shown = fs.map fun x => (x.1.core, x.1.ctx, x.1.event, x.1.phase, x.2.1, x.2.2) := by
  induction fs generalizing d with
  | nil => exact ⟨[], by rw [List.append_nil]; rfl, rfl⟩
  | cons x fs ih =>
    obtain ⟨y, hy, hrec⟩ := d.flyBlock_rec s x
    obtain ⟨ys, hrecs, hys⟩ := ih (d.flyBlock s x)
    refine ⟨y :: ys, ?_, by rw [List.map_cons, List.map_cons, hy, hys]⟩
    rw [Dev.flyBlocks_eq, List.foldl_cons, ← Dev.flyBlocks_eq, hrecs, hrec, List.append_assoc]
    rfl

theorem Dev.flyBlocks_mem (fs : List (Flight × List Byte × Bool)) : (d.flyBlocks s fs).stk.mem = d.stk.mem :=
  foldl_keeps (P := fun e => e.stk.mem = d.stk.mem) (fun e x he => (e.notePass_stk s x.1).2.trans he) rfl

/-- Blocks on their way count in the die's registers of passes (Table 6.16). -/
theorem Dev.flyBlocks_rd {a : Nat} (h : a < 0x164000) (fs : List (Flight × List Byte × Bool)) : (d.flyBlocks s fs).rd a = d.rd a := by
  refine Dev.foldl_rd _ _ _ (fun e x _ => ?_) d
  show (e.notePass s x.1).rd a = e.rd a
  unfold Dev.notePass
  dsimp only
  split
  · exact (Dev.rd_wr_ne _ _ (by simp only [Reg.dstLastEvent]; omega)).trans (Dev.rd_count_ne _ (by simp only [Reg.dstPasses]; omega))
  · rfl

end

theorem spoilt_none (a : Nat) (bs : List Byte) : spoilt a bs [] = (bs, false) := by
  simp [spoilt, List.zipIdx_map_fst]

/-- The device once slot t, the corrected bursts of its reads counted, has issued reads from the address of x. -/
def Dev.timedIssued (d : Dev) (s t : Nat) (x : Flight) (fs : List Flight) (n : Nat) : Dev :=
  let e := (d.takeReads s 1 (d.readBytes s fs)).countN (Reg.stkCe s) n
  (e.setStack s ((e.stackRec s).noteRead t x.at)).flyBlocks s (d.blocksRead s fs)

section
variable {d : Dev} {s t n : Nat} {x : Flight} {xs : List Flight}

theorem Dev.readSlot_issues (hup : d.stackState s = skUp) (hq : (d.stackRec s).readsT = x :: xs) (hroom : d.stageRoom x [] = true)
    (hok : (d.stackRec s).readOk t x.at = true) :
    d.readSlot s s 1 t x true n [] = (d.timedIssued s t x (d.slotReads x (x :: xs) []) n, true) := by
  have hreads : (d.stackRec s).reads 1 = x :: xs := hq
  have hsome := d.slotReads_isEmpty (xs := xs) hroom
  have hnot : d.stackState s ≠ skFailed := by rw [hup]; decide
  unfold Dev.readSlot Dev.timedIssued
  simp only [hreads, Dev.mirrorRead_up hup, spoilt_none, hsome, hnot, hok, if_true, if_false, ← Dev.blocksOf_readBytes]
  rfl

/-- A read without a place is counted (R216). -/
theorem Dev.readSlot_waits (hq : (d.stackRec s).readsT = x :: xs) (hroom : d.stageRoom x [] = false) {bad : List Nat} :
    d.readSlot s s 1 t x true n bad = (d.count (Reg.stkRingWait s), false) := by
  have hreads : (d.stackRec s).reads 1 = x :: xs := hq
  have hnone := (d.slotReads_eq_nil_iff x xs).mpr hroom
  unfold Dev.readSlot
  simp only [hreads, hnone, List.isEmpty_nil, if_true]
  rfl

/-- The device with the first timed read of a stack held back by a conflict rule: the first time it is displaced, counted, and its pass LATE
(R224). -/
def Dev.readHeld (d : Dev) (s : Nat) (x : Flight) (xs : List Flight) : Dev :=
  if x.displaced then d
  else ((d.setStack s { d.stackRec s with readsT := { x with displaced := true } :: xs }).count (Reg.stkSchedColl s)).latePass s x

theorem Dev.readSlot_breaks (hup : d.stackState s = skUp) (hq : (d.stackRec s).readsT = x :: xs) (hroom : d.stageRoom x [] = true)
    (hok : (d.stackRec s).readOk t x.at = false) {bad : List Nat} :
    d.readSlot s s 1 t x true n bad = (d.readHeld s x xs, false) := by
  have hreads : (d.stackRec s).reads 1 = x :: xs := hq
  have hsome := d.slotReads_isEmpty (xs := xs) hroom
  have hnot : d.stackState s ≠ skFailed := by rw [hup]; decide
  unfold Dev.readSlot Dev.readHeld
  simp only [hreads, Dev.mirrorRead_up hup, hsome, hnot, hok, if_false, Bool.false_eq_true, Bool.not_true, Bool.or_false, List.tail_cons]
  cases x.displaced <;> rfl

end

end Sys2Proof.Machine
end

section
/-!
Stacks at work (R214 to R216, R220, R221, R224, R225, R227; Tables 6.5 and 6.6): a slot, a block staged, a bank refreshed, an interface
retrained.
-/

namespace Sys2Proof.Machine

open Sys2Proof

/-! Late passes (R224) -/

section
variable (d : Dev) (s : Nat) (x : Flight)

/-- The device with the pass of a read counted LATE, the first time. -/
def Dev.lateCounted : Dev :=
  if x.timed then
    if d.stk.latePasses.contains (s / 3, x.pass) then d
    else { d.count (Reg.dstLatePasses (s / 3)) with stk := { d.stk with latePasses := (s / 3, x.pass) :: d.stk.latePasses.take 64 } }
  else d

/-- Registers, records and bytes of stacks are the same. -/
structure Dev.SameStacks (d e : Dev) : Prop where
  regs : e.regs = d.regs
  records : e.stk.stk = d.stk.stk
  mem : e.stk.mem = d.stk.mem

theorem Dev.SameStacks.refl : d.SameStacks d := ⟨rfl, rfl, rfl⟩

theorem Dev.SameStacks.trans {d e f : Dev} (h : d.SameStacks e) (h' : e.SameStacks f) : d.SameStacks f :=
  ⟨h'.regs.trans h.regs, h'.records.trans h.records, h'.mem.trans h.mem⟩

theorem Dev.lateNotice_sameStacks (n c : Nat) : d.SameStacks (d.lateNotice n c) := by
  unfold Dev.lateNotice
  exact ite_keeps (P := d.SameStacks) ⟨rfl, rfl, rfl⟩ ⟨rfl, rfl, rfl⟩

/-- Beside the count, a LATE pass is notices. -/
theorem Dev.latePass_sameStacks : (d.lateCounted s x).SameStacks (d.latePass s x) := by
  unfold Dev.latePass Dev.lateCounted
  split
  · refine foldl_keeps (fun e c he => foldl_keeps (fun f i hf => ?_) he) (Dev.SameStacks.refl _)
    exact hf.trans (Dev.lateNotice_sameStacks ..)
  · exact Dev.SameStacks.refl d

theorem Dev.lateCounted_stk : (d.lateCounted s x).stk.stk = d.stk.stk ∧ (d.lateCounted s x).stk.mem = d.stk.mem := by
  unfold Dev.lateCounted
  split
  · split <;> exact ⟨rfl, rfl⟩
  · exact ⟨rfl, rfl⟩

theorem Dev.latePass_rec (t : Nat) : (d.latePass s x).stackRec t = d.stackRec t :=
  Dev.stackRec_of_map ((d.latePass_sameStacks s x).records.trans (d.lateCounted_stk s x).1) t

theorem Dev.latePass_mem : (d.latePass s x).stk.mem = d.stk.mem := (d.latePass_sameStacks s x).mem.trans (d.lateCounted_stk s x).2

theorem Dev.latePass_rd_ne {a : Nat} (h : a ≠ Reg.dstLatePasses (s / 3)) : (d.latePass s x).rd a = d.rd a := by
  rw [Dev.rd_of_regs (d.latePass_sameStacks s x).regs]
  unfold Dev.lateCounted
  split
  · split
    · rfl
    · exact Dev.rd_count_ne d h
  · rfl

theorem Dev.latePass_count : (d.latePass s x).rd (Reg.dstLatePasses (s / 3)) =
    if x.timed = true ∧ (s / 3, x.pass) ∉ d.stk.latePasses then satInc 32 1 (d.rd (Reg.dstLatePasses (s / 3)))
    else d.rd (Reg.dstLatePasses (s / 3)) := by
  rw [Dev.rd_of_regs (d.latePass_sameStacks s x).regs]
  unfold Dev.lateCounted
  by_cases ht : x.timed = true
  · by_cases hc : (s / 3, x.pass) ∈ d.stk.latePasses
    · rw [if_pos ht, if_pos (List.contains_iff_mem.mpr hc), if_neg fun h => h.2 hc]
    · rw [if_pos ht, if_neg (fun h => hc (List.contains_iff_mem.mp h)), if_pos ⟨ht, hc⟩]
      exact Dev.rd_count ..
  · rw [if_neg ht, if_neg fun h => ht h.1]

end

/-! A slot with timed reads (R216, R220, R224) -/

section
variable {d : Dev} {s : Nat} {x : Flight} {xs : List Flight} (hq : (d.stackRec s).readsT = x :: xs)

include hq in
theorem Dev.readHeld_rec : (d.readHeld s x xs).stackRec s = { d.stackRec s with readsT := { x with displaced := true } :: xs } := by
  unfold Dev.readHeld
  split
  · next hd =>
    have hx : { x with displaced := true } = x := by rw [← hd]
    rw [hx, ← hq]
  · exact (Dev.latePass_rec ..).trans (Dev.setStack_rec ..)

theorem Dev.readHeld_mem : (d.readHeld s x xs).stk.mem = d.stk.mem := by
  unfold Dev.readHeld
  split
  · rfl
  · exact Dev.latePass_mem ..

theorem schedColl_ne_latePasses (_ : s < 12) (die : Nat) : Reg.stkSchedColl s ≠ Reg.dstLatePasses die := by
  simp only [Reg.stkSchedColl, Reg.dstLatePasses]; omega

theorem Dev.readHeld_coll (hs : s < 12) : (d.readHeld s x xs).rd (Reg.stkSchedColl s) =
    if x.displaced then d.rd (Reg.stkSchedColl s) else satInc 32 1 (d.rd (Reg.stkSchedColl s)) := by
  unfold Dev.readHeld
  split
  · rfl
  · exact (Dev.latePass_rd_ne _ _ _ (schedColl_ne_latePasses hs _)).trans (Dev.rd_count ..)

theorem Dev.readHeld_late (hs : s < 12) : (d.readHeld s x xs).rd (Reg.dstLatePasses (s / 3)) =
    if x.displaced = false ∧ x.timed = true ∧ (s / 3, x.pass) ∉ d.stk.latePasses then satInc 32 1 (d.rd (Reg.dstLatePasses (s / 3)))
    else d.rd (Reg.dstLatePasses (s / 3)) := by
  unfold Dev.readHeld
  split
  · next hd => exact (if_neg fun h => absurd (hd.symm.trans h.1) (by decide)).symm
  · next hd =>
    rw [Dev.latePass_count, Dev.rd_count_ne _ (schedColl_ne_latePasses hs _).symm]
    simp only [Bool.eq_false_of_not_eq_true hd, true_and]
    rfl

variable {i t n : Nat} {waits bad : List Nat} (hup : d.stackState s = skUp)
include hq hup

/-- A read that has a place but breaks a conflict rule is held back, and the slot is an OPEN user's. -/
theorem Dev.runSlot_breaks (hroom : d.stageRoom x [] = true) (hok : (d.stackRec s).readOk t x.at = false) (hreqs : (d.stackRec s).reqs = []) :
    (d.readHeld s x xs).GrantOnly (d.runSlot s i t 1 waits n bad) s := by
  rw [Dev.runSlot_reads hup hq, Dev.readSlot_breaks hup hq hroom hok, if_neg Bool.false_ne_true]
  exact Dev.openSlot_grantOnly ((congrArg StkRec.reqs (Dev.readHeld_rec hq)).trans hreqs)

/-- A read without a place is counted, and the slot is an OPEN user's. -/
theorem Dev.runSlot_waits (hroom : d.stageRoom x [] = false) (hreqs : (d.stackRec s).reqs = []) :
    (d.count (Reg.stkRingWait s)).GrantOnly (d.runSlot s i t 1 waits n bad) s := by
  rw [Dev.runSlot_reads hup hq, Dev.readSlot_waits hq hroom, if_neg Bool.false_ne_true]
  exact Dev.openSlot_grantOnly hreqs

theorem Dev.runSlot_issues (hroom : d.stageRoom x [] = true) (hok : (d.stackRec s).readOk t x.at = true) :
    d.runSlot s i t 1 waits n [] = d.timedIssued s t x (d.slotReads x (x :: xs) []) n := by
  rw [Dev.runSlot_reads hup hq, Dev.readSlot_issues hup hq hroom hok, if_pos rfl]

end

section
variable (d : Dev) (s t : Nat) (x : Flight) (fs : List Flight) (n : Nat)

/-- A stack's record once a slot has issued reads. -/
theorem Dev.timedIssued_rec : ∃ (p : List (Nat × Bool)) (ys : List Flight), (d.timedIssued s t x fs n).stackRec s =
      { StkRec.noteRead { d.stackRec s with readsT := d.queueAfter s fs, inPass := p } t x.at with
        flights := (d.stackRec s).flights ++ ys } ∧
    ys.map Flight.shown = (fs.filter fun y => y.ends).map
      fun y => (y.core, y.ctx, y.event, y.phase, y.data ++ d.stackRead s y.at y.now, y.degraded) := by
  obtain ⟨p, hp⟩ := d.takeReads_rec s fs
  obtain ⟨ys, hrec, hys⟩ := Dev.flyBlocks_rec ((d.takeReads s 1 (d.readBytes s fs)).countN (Reg.stkCe s) n |>.setStack s
    (((d.takeReads s 1 (d.readBytes s fs)).countN (Reg.stkCe s) n).stackRec s |>.noteRead t x.at)) s (d.blocksRead s fs)
  refine ⟨p, ys, ?_, hys.trans ?_⟩
  · refine hrec.trans ?_
    have hcount : ((d.takeReads s 1 (d.readBytes s fs)).countN (Reg.stkCe s) n).stackRec s = _ := hp
    rw [Dev.setStack_rec, hcount]
    rfl
  · simp [Dev.blocksRead, Function.comp_def]

theorem Dev.timedIssued_mem : (d.timedIssued s t x fs n).stk.mem = d.stk.mem := Dev.flyBlocks_mem ..

theorem Dev.timedIssued_ce (hs : s < 12) : (d.timedIssued s t x fs n).rd (Reg.stkCe s) = satInc 32 n (d.rd (Reg.stkCe s)) :=
  (Dev.flyBlocks_rd _ _ (by simp only [Reg.stkCe]; omega) _).trans (Dev.rd_countN ..)

theorem Dev.timedIssued_coll (hs : s < 12) : (d.timedIssued s t x fs n).rd (Reg.stkSchedColl s) = d.rd (Reg.stkSchedColl s) :=
  (Dev.flyBlocks_rd _ _ (by simp only [Reg.stkSchedColl]; omega) _).trans
    (Dev.rd_countN_ne _ _ (by simp only [Reg.stkSchedColl, Reg.stkCe]; omega))

end

/-- A counter holds within its 32 bits. -/
theorem satInc_mod (n x : Nat) : satInc 32 n x % 2 ^ 32 = satInc 32 n x := by
  refine Nat.mod_eq_of_lt ?_
  unfold satInc
  split <;> omega

/-! One slot (R216, R220, R221, R224; Table 6.5) -/

section
variable {s : State} (k : StackId) (n : Nat) (hs : s.dev.alive = true) (hup : s.dev.stackState k.val = skUp)
  (hplan : s.dev.planCode k.val (s.dev.stackRec k.val).slot = 1)
include hs hup hplan

/-- The answer of a slot reserved for timed reads. -/
theorem stackSlot_settles_of {P : Dev → Prop} (h : P ((s.dev.slotBegun k.val).runSlot k.val (s.dev.stackRec k.val).slot
    (s.dev.stackRec k.val).total 1 (s.dev.openWaits k.val) n [])) : Settles (.stackSlot k n []) s P := by
  refine settles_live (exec_stackSlot s k n) hs ?_
  rwa [Dev.stackSlot_timed hup hplan]

/-- A slot that nobody uses. -/
theorem stackSlot_unused (hq : (s.dev.stackRec k.val).readsT = []) (hw : s.dev.openWaits k.val = [])
    (hreqs : (s.dev.stackRec k.val).reqs = []) : Settles (.stackSlot k n []) s fun d => d.stackRec k.val =
      { s.dev.stackRec k.val with slot := ((s.dev.stackRec k.val).slot + 1) % 128, total := (s.dev.stackRec k.val).total + 1, grant := 0 } ∧
      s.dev.keepsBut [.stk] d := by
  refine stackSlot_settles_of k n hs hup hplan ?_
  have hrec := s.dev.slotBegun_rec k.val
  rw [Dev.runSlot_noReads (by rw [hrec]; exact hq), hw, Dev.openSlot_none (by rw [hrec]; exact hreqs)]
  exact ⟨hrec, Dev.slotBegun_keeps (keepsBut_keeps _ _) (keepsBut_refl _ _)⟩

/-- A slot without a timed read goes to the highest OPEN user that waits. -/
theorem stackSlot_granted (hq : (s.dev.stackRec k.val).readsT = []) (hw : s.dev.openWaits k.val ≠ []) :
    Settles (.stackSlot k n []) s fun d => (∃ q ∈ s.dev.openWaits k.val, (∀ j ∈ s.dev.openWaits k.val, q ≤ j) ∧ d.stackRec k.val =
      { s.dev.stackRec k.val with slot := ((s.dev.stackRec k.val).slot + 1) % 128, total := (s.dev.stackRec k.val).total + 1, grant := q }) ∧
      s.dev.keepsBut [.stk] d := by
  refine stackSlot_settles_of k n hs hup hplan ?_
  have hrec := s.dev.slotBegun_rec k.val
  obtain ⟨q, hq'⟩ := exists_listMin hw
  obtain ⟨hmem, hleast⟩ := listMin_eq_some_iff.mp hq'
  rw [Dev.runSlot_noReads (by rw [hrec]; exact hq), Dev.openSlot_grants hq']
  refine ⟨⟨q, hmem, hleast, ?_⟩, Dev.setStack_keeps (keepsBut_keeps _ _) (Dev.slotBegun_keeps (keepsBut_keeps _ _) (keepsBut_refl _ _))⟩
  rw [Dev.setStack_rec, hrec]

variable {x : Flight} {xs : List Flight} (hq : (s.dev.stackRec k.val).readsT = x :: xs)
include hq

/-- A read without a staging place is counted, and waits. -/
theorem stackSlot_waits (hroom : s.dev.stageRoom x [] = false) (hreqs : (s.dev.stackRec k.val).reqs = []) :
    Settles (.stackSlot k n []) s fun d => (d.stackRec k.val).readsT = (s.dev.stackRec k.val).readsT ∧
      (d.stackRec k.val).flights = (s.dev.stackRec k.val).flights ∧
      d.rd (Reg.stkRingWait k.val) = satInc 32 1 (s.dev.rd (Reg.stkRingWait k.val)) ∧ s.dev.regsBut [Reg.stkRingWait k.val] d := by
  refine stackSlot_settles_of k n hs hup hplan ?_
  have hrec := s.dev.slotBegun_rec k.val
  have hopen := Dev.runSlot_waits (d := s.dev.slotBegun k.val) (s := k.val) (xs := xs) (i := (s.dev.stackRec k.val).slot)
    (t := (s.dev.stackRec k.val).total) (n := n) (waits := s.dev.openWaits k.val) (bad := []) (by rw [hrec]; exact hq) hup
    ((s.dev.slotBegun_stageRoom k.val x []).trans hroom) (by rw [hrec]; exact hreqs)
  obtain ⟨g, hg⟩ := hopen.record
  have hcount : ((s.dev.slotBegun k.val).count (Reg.stkRingWait k.val)).stackRec k.val = _ := hrec
  rw [hcount] at hg
  refine ⟨by rw [hg], by rw [hg], ?_, fun a ha => ?_⟩
  · exact (Dev.rd_of_regs hopen.regs _).trans (Dev.rd_count ..)
  · exact (Dev.rd_of_regs hopen.regs a).trans (Dev.rd_count_ne _ (List.ne_of_not_mem_cons ha))

/-- A read that breaks a conflict rule is displaced and stays in front; the first time it is counted and its pass is LATE. -/
theorem stackSlot_displaces (hroom : s.dev.stageRoom x [] = true)
    (hok : (s.dev.stackRec k.val).readOk (s.dev.stackRec k.val).total x.at = false) (hreqs : (s.dev.stackRec k.val).reqs = []) :
    Settles (.stackSlot k n []) s fun d =>
      (d.stackRec k.val).readsT = { x with displaced := true } :: xs ∧ (d.stackRec k.val).flights = (s.dev.stackRec k.val).flights ∧
      d.rd (Reg.stkSchedColl k.val) = (if x.displaced then s.dev.rd (Reg.stkSchedColl k.val)
        else satInc 32 1 (s.dev.rd (Reg.stkSchedColl k.val))) ∧
      d.rd (Reg.dstLatePasses (k.val / 3)) =
        (if x.displaced = false ∧ x.timed = true ∧ (k.val / 3, x.pass) ∉ s.dev.stk.latePasses
          then satInc 32 1 (s.dev.rd (Reg.dstLatePasses (k.val / 3))) else s.dev.rd (Reg.dstLatePasses (k.val / 3))) ∧
      d.stk.mem = s.dev.stk.mem := by
  refine stackSlot_settles_of k n hs hup hplan ?_
  have hrec := s.dev.slotBegun_rec k.val
  have hq' : ((s.dev.slotBegun k.val).stackRec k.val).readsT = x :: xs := by rw [hrec]; exact hq
  have hopen := Dev.runSlot_breaks (i := (s.dev.stackRec k.val).slot) (t := (s.dev.stackRec k.val).total) (n := n)
    (waits := s.dev.openWaits k.val) (bad := []) hq' hup ((s.dev.slotBegun_stageRoom k.val x []).trans hroom)
    (by rw [hrec]; exact hok) (by rw [hrec]; exact hreqs)
  obtain ⟨g, hg⟩ := hopen.record
  rw [Dev.readHeld_rec hq', hrec] at hg
  refine ⟨by rw [hg], by rw [hg], ?_, ?_, hopen.mem.trans Dev.readHeld_mem⟩
  · exact (Dev.rd_of_regs hopen.regs _).trans (Dev.readHeld_coll k.isLt)
  · exact (Dev.rd_of_regs hopen.regs _).trans (Dev.readHeld_late k.isLt)

/-- A slot issues the reads of one 2 KiB unit that have a place. -/
theorem stackSlot_issues (hroom : s.dev.stageRoom x [] = true)
    (hok : (s.dev.stackRec k.val).readOk (s.dev.stackRec k.val).total x.at = true) {fs : List Flight}
    (hfs : s.dev.slotReads x (x :: xs) [] = fs) : Settles (.stackSlot k n []) s fun d =>
      (d.stackRec k.val).slot = ((s.dev.stackRec k.val).slot + 1) % 128 ∧ (d.stackRec k.val).total = (s.dev.stackRec k.val).total + 1 ∧
      (d.stackRec k.val).lastUsed = some (s.dev.stackRec k.val).total ∧ (d.stackRec k.val).readsT = s.dev.queueAfter k.val fs ∧
      (d.stackRec k.val).flights.map Flight.shown = (s.dev.stackRec k.val).flights.map Flight.shown ++
        (fs.filter fun y => y.ends).map
          (fun y => (y.core, y.ctx, y.event, y.phase, y.data ++ s.dev.stackRead k.val y.at y.now, y.degraded)) ∧
      d.rd (Reg.stkCe k.val) = (satInc 32 n (s.dev.rd (Reg.stkCe k.val))) % 2 ^ 32 ∧
      d.rd (Reg.stkSchedColl k.val) = s.dev.rd (Reg.stkSchedColl k.val) ∧
      d.stk.mem = s.dev.stk.mem ∧ s.dev.keepsBut [.regs, .log, .stk, .fab, .clk] d := by
  refine stackSlot_settles_of k n hs hup hplan ?_
  have hrec := s.dev.slotBegun_rec k.val
  have hkeep := Dev.runSlot_keeps (s := k.val) (i := (s.dev.stackRec k.val).slot) (t := (s.dev.stackRec k.val).total) (code := 1)
    (waits := s.dev.openWaits k.val) (corrected := n) (bad := []) (keepsBut_keeps [.regs, .log, .stk, .fab, .clk] s.dev)
    (Dev.slotBegun_keeps (s := k.val) ((keepsBut_keeps _ _).mono rfl) (keepsBut_refl _ _))
  rw [Dev.runSlot_issues (d := s.dev.slotBegun k.val) (xs := xs) (by rw [hrec]; exact hq) hup
    ((s.dev.slotBegun_stageRoom k.val x []).trans hroom) (by rw [hrec]; exact hok), Dev.slotBegun_slotReads, hfs] at hkeep ⊢
  obtain ⟨p, ys, hissued, hys⟩ := (s.dev.slotBegun k.val).timedIssued_rec k.val (s.dev.stackRec k.val).total x fs n
  rw [hissued, Dev.slotBegun_queueAfter, hrec, satInc_mod]
  refine ⟨rfl, rfl, rfl, rfl, ?_, Dev.timedIssued_ce _ _ _ _ _ _ k.isLt, Dev.timedIssued_coll _ _ _ _ _ _ k.isLt,
    Dev.timedIssued_mem .., hkeep⟩
  exact (List.map_append ..).trans (congrArg _ hys)

end

/-! A block is staged (R214, R215) -/

/-- The blocks on their way to a core, each with its stack. -/
def Dev.blocksTo (d : Dev) (c : Nat) : List (Nat × Flight) :=
  ((stacksOf (clOf c / 16)).map fun s => ((d.stackRec s).flights.filter fun f => f.core = c).map fun f => (s, f)).flatten

theorem Dev.mem_blocksTo {d : Dev} {c s : Nat} {f : Flight} :
    (s, f) ∈ d.blocksTo c ↔ s ∈ stacksOf (clOf c / 16) ∧ f ∈ (d.stackRec s).flights ∧ f.core = c := by
  simp [Dev.blocksTo]

/-- The oldest block on its way to a core. -/
def Dev.oldestTo (d : Dev) (c : Nat) : Option (Nat × Flight) :=
  (listMin ((d.blocksTo c).map fun x => x.2.stamp)).bind fun m => (d.blocksTo c).find? fun x => x.2.stamp = m

theorem Dev.oldestTo_eq {d : Dev} {c s : Nat} {f : Flight} (hmem : (s, f) ∈ d.blocksTo c)
    (hleast : ∀ x ∈ d.blocksTo c, f.stamp ≤ x.2.stamp ∧ (f.stamp = x.2.stamp → x = (s, f))) : d.oldestTo c = some (s, f) := by
  have hmin : listMin ((d.blocksTo c).map fun x => x.2.stamp) = some f.stamp := by
    rw [listMin_eq_some_iff]
    refine ⟨List.mem_map.mpr ⟨_, hmem, rfl⟩, fun m hm => ?_⟩
    obtain ⟨x, hx, rfl⟩ := List.mem_map.mp hm
    exact (hleast x hx).1
  unfold Dev.oldestTo
  rw [hmin, Option.bind_some]
  cases hfind : (d.blocksTo c).find? fun x => x.2.stamp = f.stamp with
  | none => exact absurd (List.find?_eq_none.mp hfind _ hmem) (by simp)
  | some x =>
    have hstamp : x.2.stamp = f.stamp := by simpa using List.find?_some hfind
    rw [(hleast x (List.mem_of_find?_eq_some hfind)).2 hstamp.symm]

theorem Dev.blockStaged_oldest {d : Dev} {c s : Nat} {f : Flight} {x : CtxRec} (h : d.oldestTo c = some (s, f)) (hx : d.ctxRec c f.ctx = some x) :
    let size := bitsOf x.ring 16 16 * 512
    let pos := SMap.get (fun _ => 0) (d.core c).ringPos f.ctx
    let a := bitsOf x.ring 0 16 * 512 + pos
    d.blockStaged c = ((d.setStack s { d.stackRec s with flights := (d.stackRec s).flights.erase f }).wsWrite c a f.data).setCore c { d.core c with
      staged := (d.core c).staged ++ [⟨f.ctx, f.event, f.phase, a, f.degraded, x.consumers⟩],
      ringPos := SMap.set (fun _ => 0) (d.core c).ringPos f.ctx (if size = 0 then 0 else (pos + f.size) % size) } := by
  have hctx : (d.setStack s { d.stackRec s with flights := (d.stackRec s).flights.erase f }).ctxRec c f.ctx = some x := hx
  unfold Dev.oldestTo Dev.blocksTo at h
  unfold Dev.blockStaged
  dsimp only
  rw [h]
  dsimp only
  rw [hctx]
  rfl

/-- The oldest block on its way to a core is staged. -/
theorem blockStaged_gives {s : State} {c : CoreId} {k : Nat} {f : Flight} {x : CtxRec} (hs : s.dev.alive = true)
    (hold : s.dev.oldestTo c.val = some (k, f)) (hx : s.dev.ctxRec c.val f.ctx = some x) :
    let size := bitsOf x.ring 16 16 * 512
    let pos := SMap.get (fun _ => 0) (s.dev.core c.val).ringPos f.ctx
    let a := bitsOf x.ring 0 16 * 512 + pos
    Gives (.blockStaged c) s fun d => (d.stackRec k).flights = (s.dev.stackRec k).flights.erase f ∧
      (d.core c.val).staged = (s.dev.core c.val).staged ++ [⟨f.ctx, f.event, f.phase, a, f.degraded, x.consumers⟩] ∧
      SMap.get (fun _ => 0) (d.core c.val).ringPos f.ctx = (if size = 0 then 0 else (pos + f.size) % size) ∧
      d.fab.ws = (s.dev.wsWrite c.val a f.data).fab.ws ∧ s.dev.keepsBut [.stk, .fab] d := by
  intro size pos a
  refine gives_live (exec_blockStaged s c) hs ?_
  have hkeep := Dev.blockStaged_keeps (c := c.val) (keepsBut_keeps [.stk, .fab] s.dev) (keepsBut_refl _ _)
  rw [Dev.blockStaged_oldest hold hx] at hkeep ⊢
  refine ⟨congrArg StkRec.flights (Dev.setStack_rec ..), ?_, ?_, rfl, hkeep⟩
  · rw [Dev.setCore_core]
  · rw [Dev.setCore_core]
    exact SMap.get_set_same _ _ _

/-! Refresh (R225) -/

section
variable {d : Dev} {s b : Nat}

/-- The slots since a bank's refresh have run out. -/
abbrev StkRec.refreshDue (r : StkRec) (b : Nat) : Prop := SMap.get (fun _ => 0) r.refreshed b + 1950 < r.total

/-- A stack's record with a bank refreshed. -/
def StkRec.bankRefreshed (r : StkRec) (b : Nat) : StkRec :=
  { r with
    refreshed := SMap.set (fun _ => 0) r.refreshed b r.total,
    banks := SMap.set (fun _ => BankHist.init) r.banks b { r.bank b with row := none, busy := r.total + 160 } }

theorem StkRec.bankRefreshed_refreshed (r : StkRec) (b : Nat) : SMap.get (fun _ => 0) (r.bankRefreshed b).refreshed b = r.total :=
  SMap.get_set_same _ _ _

theorem StkRec.bankRefreshed_bank (r : StkRec) (b : Nat) :
    (r.bankRefreshed b).bank b = { r.bank b with row := none, busy := r.total + 160 } := SMap.get_set_same _ _ _

theorem Dev.refreshBank_late (hup : d.stackState s = skUp) (h : (d.stackRec s).refreshDue b) :
    d.refreshBank s b = (d.count (Reg.stkRefreshLate s)).setStack s ((d.stackRec s).bankRefreshed b) := by
  unfold Dev.refreshBank
  dsimp only
  rw [decide_eq_true h, if_pos (by simp [hup])]
  rfl

theorem Dev.refreshBank_idle (hup : d.stackState s = skUp) (h : ¬(d.stackRec s).refreshDue b) (hidle : d.bankWanted s b = false) :
    d.refreshBank s b = d.setStack s ((d.stackRec s).bankRefreshed b) := by
  unfold Dev.refreshBank
  dsimp only
  rw [decide_eq_false h, if_pos (by simp [hup, hidle])]
  rfl

theorem Dev.refreshBank_wanted (h : ¬(d.stackRec s).refreshDue b) (hwanted : d.bankWanted s b = true) : d.refreshBank s b = d := by
  unfold Dev.refreshBank
  dsimp only
  rw [decide_eq_false h, if_neg (by simp [hwanted])]

end

/-- A bank is refreshed in a gap, or late and counted. -/
theorem refresh_gives {s : State} (k : StackId) (b : Fin 16) (hs : s.dev.alive = true) (hup : s.dev.stackState k.val = skUp) :
    let r := s.dev.stackRec k.val
    let done := fun d : Dev => SMap.get (fun _ => 0) (d.stackRec k.val).refreshed b.val = r.total ∧
      (d.stackRec k.val).bank b.val = { r.bank b.val with row := none, busy := r.total + 160 }
    Gives (.refresh k b) s fun d =>
      (r.refreshDue b.val → done d ∧ d.rd (Reg.stkRefreshLate k.val) = satInc 32 1 (s.dev.rd (Reg.stkRefreshLate k.val)) ∧
        s.dev.regsBut [Reg.stkRefreshLate k.val] d) ∧
      (¬r.refreshDue b.val → s.dev.bankWanted k.val b.val = false → done d ∧ d.regs = s.dev.regs) ∧
      (¬r.refreshDue b.val → s.dev.bankWanted k.val b.val = true → d = s.dev) ∧ s.dev.keepsBut [.regs, .stk] d := by
  intro r done
  have hdone : ∀ e : Dev, done (e.setStack k.val (r.bankRefreshed b.val)) := fun e => by
    dsimp only [done]
    rw [Dev.setStack_rec]
    exact ⟨r.bankRefreshed_refreshed b.val, r.bankRefreshed_bank b.val⟩
  refine gives_live (exec_refresh s k b) hs ⟨fun hlate => ?_, fun hgap hidle => ?_, fun hgap hwanted => ?_,
    Dev.refreshBank_keeps (keepsBut_keeps _ _) (keepsBut_refl _ _)⟩
  · rw [Dev.refreshBank_late hup hlate]
    exact ⟨hdone _, Dev.rd_count .., fun a ha => Dev.rd_count_ne _ (List.ne_of_not_mem_cons ha)⟩
  · rw [Dev.refreshBank_idle hup hgap hidle]
    exact ⟨hdone _, rfl⟩
  · exact Dev.refreshBank_wanted hgap hwanted

/-! Retraining of an interface (R224) -/

section
variable (d : Dev) (s : Nat)

/-- The device with slots of a stack lost and counted. -/
def Dev.slotsLost (n : Nat) : Dev :=
  (d.setStack s { d.stackRec s with slot := ((d.stackRec s).slot + n) % 128, total := (d.stackRec s).total + n }).countN (Reg.stkSchedColl s) n

/-- The device with the timed pass under way on stack p LATE, if stack s serves it. -/
def Dev.retrainLate (p : Nat) : Dev :=
  match (d.stackRec p).readsT.head? with
  | some x => if (match d.mirrorRead p x with
      | some (m, _) => decide (m = s)
      | none => decide (p = s)) then d.latePass p x else d
  | none => d

theorem Dev.retrainStack_eq (n : Nat) (hup : d.stackState s = skUp) :
    d.retrainStack s n = (stacksOf (s / 3)).foldl (fun f p => f.retrainLate s p) (d.slotsLost s n) := by
  unfold Dev.retrainStack
  exact if_pos hup

/-- A pass LATE or not, a stack's part in it is notices and the die's count. -/
theorem Dev.retrainLate_or (p : Nat) : d.retrainLate s p = d ∨ ∃ x, d.retrainLate s p = d.latePass p x := by
  unfold Dev.retrainLate
  cases (d.stackRec p).readsT.head? with
  | none => exact .inl rfl
  | some x => exact ite_keeps (P := fun e => e = d ∨ ∃ x, e = d.latePass p x) (.inr ⟨x, rfl⟩) (.inl rfl)

theorem Dev.retrainLate_rec (p t : Nat) : (d.retrainLate s p).stackRec t = d.stackRec t := by
  rcases d.retrainLate_or s p with h | ⟨x, h⟩ <;> rw [h]
  exact d.latePass_rec p x t

theorem Dev.retrainLate_coll (hs : s < 12) (p : Nat) : (d.retrainLate s p).rd (Reg.stkSchedColl s) = d.rd (Reg.stkSchedColl s) := by
  rcases d.retrainLate_or s p with h | ⟨x, h⟩ <;> rw [h]
  exact d.latePass_rd_ne p x (schedColl_ne_latePasses hs _)

theorem Dev.retrainLate_none {p : Nat} (h : (d.stackRec p).readsT = []) : d.retrainLate s p = d := by
  unfold Dev.retrainLate
  rw [h]
  rfl

theorem Dev.retrainLate_own {x : Flight} {xs : List Flight} (hup : d.stackState s = skUp) (h : (d.stackRec s).readsT = x :: xs) :
    d.retrainLate s s = d.latePass s x := by
  unfold Dev.retrainLate
  rw [h]
  simp [Dev.mirrorRead_up hup]

theorem Dev.slotsLost_rec (n : Nat) : (d.slotsLost s n).stackRec s =
    { d.stackRec s with slot := ((d.stackRec s).slot + n) % 128, total := (d.stackRec s).total + n } := Dev.setStack_rec ..

theorem Dev.slotsLost_state (n t : Nat) : (d.slotsLost s n).stackState t = d.stackState t :=
  Dev.fld_of_rd (Dev.rd_countN_ne _ _ (by simp only [Reg.stkScfg, Reg.stkSchedColl]; omega)) _

/-- Where no other stack of the die has a timed read left, the pass under way is the stack's own. -/
theorem Dev.retrainStack_late {d : Dev} {s : Nat} (n : Nat) {x : Flight} {xs : List Flight} (hs : s < 12) (hup : d.stackState s = skUp)
    (hq : (d.stackRec s).readsT = x :: xs) (ht : x.timed = true)
    (hothers : ∀ p ∈ stacksOf (s / 3), p ≠ s → (d.stackRec p).readsT = []) : (d.retrainStack s n).rd (Reg.dstLatePasses (s / 3)) =
      if (s / 3, x.pass) ∈ d.stk.latePasses then d.rd (Reg.dstLatePasses (s / 3)) else satInc 32 1 (d.rd (Reg.dstLatePasses (s / 3))) := by
  have hlost : (d.slotsLost s n).rd (Reg.dstLatePasses (s / 3)) = d.rd (Reg.dstLatePasses (s / 3)) :=
    Dev.rd_countN_ne _ _ (schedColl_ne_latePasses hs _).symm
  have hnone : ∀ p ∈ stacksOf (s / 3), p ≠ s → ((d.slotsLost s n).stackRec p).readsT = [] := fun p hp hne =>
    (congrArg StkRec.readsT (Dev.setStack_rec_ne _ _ hne)).trans (hothers p hp hne)
  have hown : ∀ e, e = d.slotsLost s n → e.retrainLate s s = e.latePass s x := by
    rintro e rfl
    exact Dev.retrainLate_own _ _ ((d.slotsLost_state s n s).trans hup) ((congrArg StkRec.readsT (d.slotsLost_rec s n)).trans hq)
  have hdone := foldl_sets (P := fun e => e = d.slotsLost s n)
    (Q := fun e => (∀ p, e.stackRec p = (d.slotsLost s n).stackRec p) ∧ e.rd (Reg.dstLatePasses (s / 3)) =
      if x.timed = true ∧ (s / 3, x.pass) ∉ d.stk.latePasses then satInc 32 1 (d.rd (Reg.dstLatePasses (s / 3)))
      else d.rd (Reg.dstLatePasses (s / 3)))
    (f := fun f p => f.retrainLate s p) (l := stacksOf (s / 3)) (x := s) ?_ ?_ ?_
    (mem_stacksOf.mpr (by omega)) (stacksOf_nodup _) rfl
  · obtain ⟨-, hcount⟩ := hdone
    rw [Dev.retrainStack_eq _ _ _ hup, hcount]
    simp [ht]
  · rintro e p hp hne rfl
    exact Dev.retrainLate_none _ _ (hnone p hp hne)
  · rintro e p hp hne ⟨hrec, hcount⟩
    rw [Dev.retrainLate_none _ _ ((congrArg StkRec.readsT (hrec p)).trans (hnone p hp hne))]
    exact ⟨hrec, hcount⟩
  · rintro e he
    rw [hown e he, he]
    refine ⟨fun p => Dev.latePass_rec .., (Dev.latePass_count ..).trans ?_⟩
    rw [hlost]
    rfl

end

/-- A retrained interface loses its slots. -/
theorem stackInterfaceRetrain_gives {s : State} (k : StackId) (n : Nat) (hs : s.dev.alive = true) (hup : s.dev.stackState k.val = skUp) :
    let r := s.dev.stackRec k.val
    let die := k.val / 3
    let late := Reg.dstLatePasses die
    Gives (.stackInterfaceRetrain k n) s fun d => d.stackRec k.val = { r with slot := (r.slot + n) % 128, total := r.total + n } ∧
      d.rd (Reg.stkSchedColl k.val) = (satInc 32 n (s.dev.rd (Reg.stkSchedColl k.val))) % 2 ^ 32 ∧
      (∀ x xs, r.readsT = x :: xs → x.timed = true →
        (∀ p, 3 * die ≤ p → p < 3 * die + 3 → p ≠ k.val → (s.dev.stackRec p).readsT = []) →
        d.rd late = if (die, x.pass) ∈ s.dev.stk.latePasses then s.dev.rd late else satInc 32 1 (s.dev.rd late)) ∧
      s.dev.keepsBut [.regs, .stk, .fab] d := by
  intro r die late
  refine gives_live (exec_stackInterfaceRetrain s k n) hs ⟨?_, ?_, fun x xs hq ht hothers => ?_,
    Dev.retrainStack_keeps (keepsBut_keeps _ _) (keepsBut_refl _ _)⟩
  · rw [Dev.retrainStack_eq _ _ _ hup]
    exact foldl_keeps (P := fun e => e.stackRec k.val = _) (fun e p he => (e.retrainLate_rec k.val p k.val).trans he)
      (s.dev.slotsLost_rec k.val n)
  · rw [Dev.retrainStack_eq _ _ _ hup, satInc_mod]
    exact foldl_keeps (P := fun e => e.rd (Reg.stkSchedColl k.val) = _) (fun e p he => (e.retrainLate_coll k.val k.isLt p).trans he)
      (Dev.rd_countN ..)
  · exact Dev.retrainStack_late n k.isLt hup hq ht fun p hp => hothers p (mem_stacksOf.mp hp).1 (mem_stacksOf.mp hp).2

/-- Settles O42: a slot by the reads and users that wait for it, the oldest block staged, a bank refreshed, and an interface retrained, each by
its own rule above. -/
theorem stackWork : Obligations.StackWork := by
  unfold Obligations.StackWork
  refine ⟨?_, ?_, ?_, ?_⟩
  · intro s k n hs hup hplan r late coll
    refine ⟨?_, ?_, ?_, ?_, ?_⟩
    · intro hq hw hreqs
      exact stackSlot_unused k n hs hup hplan hq hw hreqs
    · intro hq hw
      exact stackSlot_granted k n hs hup hplan hq hw
    · intro x xs hq hroom hok fs
      exact stackSlot_issues k n hs hup hplan hq hroom hok rfl
    · intro x xs hq hroom hok hreqs
      exact stackSlot_displaces k n hs hup hplan hq hroom hok hreqs
    · intro x xs hq hroom hreqs
      exact stackSlot_waits k n hs hup hplan hq hroom hreqs
  · intro s c k f x hs die hlo hhi hf hcore hleast hx
    refine blockStaged_gives hs (Dev.oldestTo_eq (Dev.mem_blocksTo.mpr ⟨mem_stacksOf.mpr ⟨hlo, hhi⟩, hf, hcore⟩) ?_) hx
    rintro ⟨j, g⟩ hg
    obtain ⟨hj, hgf, hgc⟩ := Dev.mem_blocksTo.mp hg
    obtain ⟨hjlo, hjhi⟩ := mem_stacksOf.mp hj
    obtain ⟨hle, huniq⟩ := hleast j g hjlo hjhi hgf hgc
    refine ⟨hle, fun hstamp => ?_⟩
    obtain ⟨rfl, rfl⟩ := huniq hstamp
    rfl
  · intro s k b hs hup
    exact refresh_gives k b hs hup
  · intro s k n hs hup
    exact stackInterfaceRetrain_gives k n hs hup

end Sys2Proof.Machine
end

section
/-!
The Scrim unit's partial (R237, R263): where the count of invalid operands lies under the context register of a core that no cluster has.
-/

namespace Sys2Proof.Machine

open Sys2Proof

theorem exec_scrimPartial (s : State) (cl : ClusterId) (r : Fin 4096) (outs corrected : Nat) (bad : List Nat) :
    exec (.scrimPartial cl r outs corrected bad) s =
      s.live fun d => if d.fit 34 then (d.scrimDone cl.val r.val outs corrected bad).settleDrip else d := rfl

/-! Settling leaves what waits in the fabric where no circuit ends at a counter -/

theorem Dev.cuFeed_waitAt (c n k h : Nat) : ∀ d : Dev, (d.cuFeed c n).waitAt k h = d.waitAt k h := by
  induction n with
  | zero => exact fun d => rfl
  | succ n ih =>
    intro d
    have hcore : ∀ r, (d.setCore c r).waitAt k h = d.waitAt k h := fun _ => rfl
    rw [Dev.cuFeed]
    repeat' split
    · rfl
    · rw [ih, Dev.segPush_waitAt, hcore]
    · rfl
    · rw [ih, (Dev.dripTransfer_timersOnly ..).waitAt, hcore]

theorem Dev.feedUnits_waitAt (d : Dev) (k h : Nat) : d.feedUnits.waitAt k h = d.waitAt k h :=
  foldl_keeps (P := fun e => e.waitAt k h = d.waitAt k h) (fun e p he => (e.cuFeed_waitAt p.1 _ k h).trans he) rfl

theorem Dev.drainEnds_of_no_counterEnd {d : Dev} (hends : ∀ x ∈ d.fab.circuits, x.counterEnd = false) : d.drainEnds = d := by
  refine List.foldlRecOn d.fab.circuits _ (motive := fun e => e = d) rfl fun e he x hx => ?_
  rw [if_neg (by simp [hends x hx]), he]

theorem Dev.settleDrip_waitAt {d : Dev} (hends : ∀ x ∈ d.fab.circuits, x.counterEnd = false) (k h : Nat) :
    d.settleDrip.waitAt k h = d.waitAt k h := by
  unfold Dev.settleDrip
  rw [Dev.drainEnds_of_no_counterEnd hends, d.feedUnits.dripScan_dripFrame.waitAt, Dev.feedUnits_waitAt]

/-! A device with such a circuit -/

/-- A timed circuit of all four contexts from the Scrim port of cluster 1 to core 15 of cluster 80, which no device has. -/
def offGridCirc : Circuit := ⟨0, false, false, 15, 1, ⟨3, 1, 0, 0, 0, 34⟩, ⟨1, 80, 15, 0, 0, 0⟩, [(0, 0)]⟩

/-- A switch to context 2 in epoch 1, from event 0 on. -/
def offGridWave : Wave := ⟨2, 1, 0, false, false, [], none⟩

/-- A Scrim token of event slot 0 whose code is a NaN. -/
def nanTok : ScrimTok := ⟨0, 0x7FC0, false, 0⟩

/-- A device with a Scrim unit, the one Scrim token of row 0 of cluster 1, and a wave under way in group 0, to which core 15 of cluster 80
belongs in its context 1 but not in its context 0. -/
def offGrid : Dev :=
  { Dev.init with
    inReset := false
    regs := [(Reg.glbFittedHi, 4)]
    num := { Dev.init.num with dir := [⟨1, 0, 0, true, false, 0⟩], scrimIn := [(4096, [nanTok])] }
    fab := { Dev.init.fab with
      circuits := [offGridCirc]
      cores := [(17 * 80 + 15, { CoreRec.init with ctxs := [(1, some ⟨0, 0, 0, 0, 0, [], []⟩)] })]
      groups := [(0, { GroupRec.init with wave := some offGridWave })] } }

/-- CO_CTX of core 15 of cluster 80 lies where NUM_NAN_IN of cluster 1 does: with the first invalid operand counted there, the core is read
in context 1, and its group's wave is the circuit's. -/
theorem offGrid_circWave : offGrid.circWave offGridCirc = none ∧
    (offGrid.count (Reg.numNanIn 1)).circWave offGridCirc = some offGridWave := by decide +kernel

theorem offGrid_place : (offGrid.portCircs 1 34)[((offGrid.scrimRows 1).takeWhile fun y => y ≠ 0).length]? = some offGridCirc := by
  decide +kernel

/-- The port sends that wave's marker before the partial. -/
theorem offGrid_answer : ((offGrid.scrimDone 1 0 1 0 []).settleDrip.waitAt 0 0).map (fun t => tokMarker t) = [true, false] ∧
    (offGrid.scrimDone 1 0 1 0 []).settleDrip.fab.circuits = [offGridCirc] := by decide +kernel

/-- Refutes O43: the clause on Scrim partials asks that no wave be under way for the circuit's core before the command. Where the circuit
ends at core 15 of cluster 80, the count of an invalid operand changes that core's context and with it the group that it is read in, and
the marker of that group's wave stands before the one partial. Settling cannot have put it there, as no circuit ends at a counter. -/
theorem not_scalesAndEpochs : ¬ Obligations.ScalesAndEpochs := by
  rintro ⟨-, -, hscrim, -⟩
  obtain ⟨-, hdone⟩ := hscrim ⟨offGrid, []⟩ 1 0 1 0 nanTok [] offGridCirc (by decide) (by decide) (by decide)
  obtain ⟨d, hd, w, rfl, -, -, -, -, ⟨us, hus, hpartials⟩, -⟩ := hdone (by decide) offGrid_place offGrid_circWave.1 (by decide)
  rw [exec_scrimPartial, State.live_of _ _ (by decide)] at hd
  injection hd with hd
  injection hd with hd
  obtain ⟨hwait, hcircs⟩ := offGrid_answer
  rw [show (offGrid.scrimDone 1 0 1 0 []).settleDrip = w.settleDrip from hd] at hwait hcircs
  have hwcircs : w.fab.circuits = [offGridCirc] := w.settleDrip_settledFrom.circuits.symm.trans hcircs
  have hends : ∀ x ∈ w.fab.circuits, x.counterEnd = false := by
    rw [hwcircs]
    decide
  have htokens : w.waitAt 0 0 = us := hus
  have hone : us.length = 1 := by simpa using congrArg List.length hpartials
  have htwo : us.length = 2 := by
    rw [← htokens, ← Dev.settleDrip_waitAt hends]
    simpa using congrArg List.length hwait
  omega

end Sys2Proof.Machine
end

section
/-!
A group member's event (R306, R308, R365): its local deadline, the close of its collection, and its group result.
-/

namespace Sys2Proof.Machine

open Sys2Proof

/-! The commands of this part, each the operation it runs on a live device. -/

theorem exec_localDeadline (s : State) (n : Nat) (tie : Bool) :
    exec (.localDeadline n tie) s = s.live fun d => d.localDeadline n tie := rfl

theorem exec_collectionClose (s : State) (n : Nat) (tie : Bool) :
    exec (.collectionClose n tie) s = s.live fun d => d.collectionClose n tie := rfl

theorem exec_groupResult (s : State) (n : Nat) : exec (.groupResult n) s = s.live fun d => d.groupResult n := rfl

/-- What the device has to take at this very instant is in time for t. -/
theorem Dev.tiedAt_now {d : Dev} {t : Nat} (h : d.tms.ctr = t * 2 ^ 40) : d.tiedAt t true = true := by
  simp [Dev.tiedAt, h]

section
variable {d : Dev} {n : Nat} {e : Ev}

/-! The local deadline (R306) -/

/-- Deciding an undecided event forms its contribution and notes its outputs and its lateness. -/
theorem Dev.decideEvent_undecided (d : Dev) (h : e.own = none) :
    ∃ c outs late, (d.decideEvent e).2 = { e with own := some c, outs := outs, late := late } := by
  unfold Dev.decideEvent
  rw [if_neg (by simp [h])]
  split
  · exact ⟨_, e.outs, e.late, rfl⟩
  · split
    · exact ⟨_, e.outs, e.late, rfl⟩
    · exact ⟨_, _, _, rfl⟩

/-- Sending a contribution leaves the events. -/
theorem Dev.sendContrib_evAt (d : Dev) (m : Nat) (c : Contribution) : (d.sendContrib m c).evAt n = d.evAt n :=
  Dev.evAt_of_scr (Dev.sendContrib_keeps (Part.same_keeps (d := d) .scr rfl) rfl) n

theorem Dev.localDeadline_tie (h : d.tms.ctr = d.deadline n * 2 ^ 40) : d.localDeadline n true = d := by
  unfold Dev.localDeadline
  split
  · rfl
  · exact if_neg (by simp [Dev.tiedAt_now h])

/-- At its local deadline an admitted event is decided. -/
theorem Dev.localDeadline_ev (ha : d.alive = true) (h : d.evAt n = some e) (hg : d.group = true) (ho : e.own = none)
    (hadm : e.admitted = true) (ht : d.deadline n ≤ d.netNs) :
    (d.localDeadline n false).evAt n = some (d.decideEvent e).2 := by
  obtain rfl : e.n = n := Dev.evAt_n h
  obtain ⟨c, outs, late, hdec⟩ := d.decideEvent_undecided ho
  unfold Dev.localDeadline
  rw [h]
  dsimp only
  rw [if_pos (by simp [ha, hg, ho, hadm, ht, Dev.tiedAt]), hdec]
  dsimp only
  rw [Dev.sendContrib_evAt]
  exact Dev.evAt_putEv _ { e with own := some c, outs := outs, late := late }

/-! The close of the collection (R365) -/

theorem Dev.collectionClose_tie (h : d.tms.ctr = (d.relTime n - 12) * 2 ^ 40) : d.collectionClose n true = d := by
  unfold Dev.collectionClose
  split
  · rfl
  · exact if_neg (by simp [Dev.tiedAt_now h])

theorem Dev.collectionClose_due (ha : d.alive = true) (h : d.evAt n = some e) (hg : d.group = true) (ho : e.own.isSome = true)
    (hc : e.closed = false) (ht : d.relTime n - 12 ≤ d.netNs) : d.collectionClose n false = d.putEv { e with closed := true } := by
  unfold Dev.collectionClose
  rw [h]
  exact if_pos (by simp only [ha, hg, ho, hc, ht, Dev.tiedAt]; rfl)

/-! The group result (R308) -/

theorem Dev.groupResult_due {c : Contribution} (ha : d.alive = true) (h : d.evAt n = some e) (ho : e.own = some c)
    (hc : e.closed = true) (hg : e.group = none) (hr : e.released = false) :
    d.groupResult n = d.putEv { e with group := some (d.combine n (c :: e.heard)) } := by
  unfold Dev.groupResult
  rw [h]
  dsimp only
  rw [ho]
  exact if_pos (by simp [ha, hc, hg, hr])

/-- An event's record put into its slot is found there, and only the Screed differs. -/
theorem Dev.putEv_spec (d : Dev) {x : Ev} (h : x.n = n) : (d.putEv x).evAt n = some x ∧ d.keepsBut [.scr] (d.putEv x) :=
  ⟨h ▸ Dev.evAt_putEv d x, Dev.putEv_keeps (keepsBut_keeps _ _) (keepsBut_refl _ _)⟩

end

/-- Settles O9: the local deadline and the close of the collection, each due and with an arrival, and the group result. -/
theorem groupEvent : Obligations.GroupEvent := by
  intro s n e hs h
  have hn : e.n = n := Dev.evAt_n h
  refine ⟨fun hg ho hadm ht => ?_, fun htie => ?_, fun hg ho hc ht => ?_, fun htie => ?_, fun c ho hc hg hr => ?_⟩
  · refine gives_live (exec_localDeadline s n false) hs ⟨_, Dev.localDeadline_ev hs h hg ho hadm ht, rfl, ?_⟩
    obtain ⟨c, outs, late, hdec⟩ := s.dev.decideEvent_undecided ho
    rw [hdec]
    exact ⟨rfl, rfl, rfl⟩
  · exact gives_live (exec_localDeadline s n true) hs (Dev.localDeadline_tie htie)
  · refine gives_live (exec_collectionClose s n false) hs ?_
    rw [Dev.collectionClose_due hs h hg ho hc ht]
    exact Dev.putEv_spec _ hn
  · exact gives_live (exec_collectionClose s n true) hs (Dev.collectionClose_tie htie)
  · refine gives_live (exec_groupResult s n) hs ?_
    rw [Dev.groupResult_due hs h ho hc hg hr]
    exact Dev.putEv_spec _ hn

end Sys2Proof.Machine
end

section
/-!
The setpoint (R303, R501 to R505): what a move of it leaves, a raise, its settling, and the close of a headroom window.
-/

namespace Sys2Proof.Machine

open Sys2Proof

/-! The commands of this part, each the operation it runs on a live device. -/

theorem exec_setpointRaise (s : State) (n : Nat) : exec (.setpointRaise n) s = s.live fun d => d.setpointRaise n := rfl

theorem exec_setpointSettled (s : State) : exec .setpointSettled s = s.live fun d => d.setpointSettled := rfl

theorem exec_headroomWindow (s : State) : exec .headroomWindow s = s.live fun d => d.headroomWindow := rfl

section
variable {d e : Dev}

/-! The setpoint put at a voltage -/

theorem Dev.vset_of_rd (h : e.rd Reg.pwrStat = d.rd Reg.pwrStat) : e.vset = d.vset := Dev.fld_of_rd h _

theorem Dev.vset_lt (d : Dev) : d.vset < 1024 := bitsOf_lt _ _ _

theorem Dev.setV_vset (d : Dev) {v : Nat} (h : v < 1024) : (d.setV v).vset = v := by
  unfold Dev.setV Dev.vset
  rw [Dev.fld_setFld_fld _ _ _ _ _ (by decide) (by decide), Dev.fld_setFld_fld _ _ _ _ _ (by decide) (by decide),
    Dev.fld_setFld_same _ _ _ _ (by decide)]
  exact Nat.mod_eq_of_lt h

theorem Dev.setV_regsBut (d : Dev) (v : Nat) : d.regsBut [Reg.pwrStat] (d.setV v) :=
  (((Dev.regsBut_refl _ d).setFld (by simp) _ _).setFld (by simp) _ _).setFld (by simp) _ _

/-- A move leaves TRACKING and PINNED. -/
theorem Dev.setV_flag (d : Dev) (v : Nat) {f : Fld} (h : 10 ≤ f.lo ∧ f.lo + f.w ≤ 12) :
    (d.setV v).flag Reg.pwrStat f = d.flag Reg.pwrStat f := by
  obtain ⟨hlo, hhi⟩ := h
  have hf : f.lo + f.w ≤ 32 := by omega
  unfold Dev.setV
  rw [Dev.flag_setFld_fld _ _ _ _ _ hf (.inl (by simp only [Fld.pwrStatAtFloor]; omega)),
    Dev.flag_setFld_fld _ _ _ _ _ hf (.inl (by simp only [Fld.pwrStatAtCeil]; omega)),
    Dev.flag_setFld_fld _ _ _ _ _ hf (.inr (by simp only [Fld.pwrStatVsetMv]; omega))]

theorem Dev.setV_tracking (d : Dev) (v : Nat) : (d.setV v).tracking = d.tracking := Dev.setV_flag d v (by decide)

/-- A move that is counted: the setpoint, the count, and nothing else of the registers. -/
theorem Dev.setV_count_spec (d : Dev) {v a : Nat} (hv : v < 1024) (ha : a ≠ Reg.pwrStat) :
    ((d.setV v).count a).vset = v ∧ ((d.setV v).count a).rd a = satInc 32 1 (d.rd a) ∧
      d.regsBut [Reg.pwrStat, a] ((d.setV v).count a) := by
  refine ⟨(Dev.vset_of_rd (Dev.rd_count_ne _ ha.symm)).trans (Dev.setV_vset d hv), ?_, ?_⟩
  · rw [Dev.rd_count, Dev.setV_regsBut d v _ (by simpa using ha)]
  · exact ((Dev.setV_regsBut d v).mono (by simp)).count (by simp)

/-! A raise (R503, R504) -/

/-- The setpoint of a raise: 25 mV more, and 850 mV at most. -/
def raisedV (v : Nat) : Nat := if v + 25 < 850 then v + 25 else 850

theorem raisedV_lt (v : Nat) : raisedV v < 1024 := by
  unfold raisedV
  split <;> omega

/-- A raise of the tracking setpoint below 850 mV by an event that no earlier raise has served. -/
theorem Dev.setpointRaise_due {n : Nat} {x : LowEvent} (h : d.pwr.low.find? (fun y => decide (y.n = n)) = some x)
    (ht : d.tracking = true) (hr : d.raising = false) (hp : d.pinned = false) (hv : d.vset < 850)
    (hs : d.pwr.settledAt ≤ x.adm * 65536) :
    d.setpointRaise n = { (d.setV (raisedV d.vset)).count Reg.pwrRaises with
      pwr := { d.pwr with low := d.pwr.low.filter fun y => decide (y.n ≠ n), change := some .raise_, raised := true } } := by
  unfold Dev.setpointRaise
  rw [h]
  dsimp only
  generalize hq : ({ d with pwr := { d.pwr with low := d.pwr.low.filter fun y => decide (y.n ≠ n) } } : Dev) = q
  obtain ⟨hvset, htrack, hpin, hraise, hsettled⟩ : q.vset = d.vset ∧ q.tracking = true ∧ q.pinned = false ∧ q.raising = false ∧
      q.pwr.settledAt = d.pwr.settledAt := hq ▸ ⟨rfl, ht, hp, hr, rfl⟩
  have hceil : q.countIf (decide (q.vset = 850)) Reg.pwrCeilEvents = q := by
    unfold Dev.countIf
    simp [hvset, hv.ne]
  have hlow : q.countIf q.pinned Reg.pwrPinnedLow = q := by
    unfold Dev.countIf
    simp [hpin]
  rw [hceil, hlow, if_pos (by simp [hvset, htrack, hraise, hsettled, hv, hs]), hvset]
  subst hq
  rfl

/-! Settling (R504, R505) -/

theorem Dev.setpointSettled_raise (hr : d.raising = true) (hp : d.pwr.pinWaits = false) :
    d.setpointSettled = { d with pwr := { d.pwr with change := none, settledAt := d.net16 } } := by
  have hc : d.pwr.change = some .raise_ := of_decide_eq_true hr
  unfold Dev.setpointSettled
  rw [hc]
  exact if_neg (by simp [hp])

/-! The close of a headroom window (R303, R503) -/

/-- The close of a window with a smallest headroom of more than 0.15 × D and no raise: the headroom shows, and the setpoint falls. -/
theorem Dev.headroomWindow_lowers {h : Int} (ha : d.inReset = false) (hw : d.scr.headStart + 1000000 ≤ d.devNs)
    (hm : d.scr.headMin = some h) (ht : d.tracking = true) (hr : d.pwr.raised = false) (hv : 600 < d.vset)
    (hwide : Int.ofNat (15 * (if d.group then d.lNs - d.gNs else d.lNs) * 65536) < 100 * h) :
    ∃ c, d.headroomWindow =
      { ((d.setFld Reg.scrHeadroom Fld.scrHeadroomMin (lowBits 24 (h / 4096))).setV (d.vset - 5)).count Reg.pwrLowers with
        scr := { d.scr with headMin := none, headStart := d.scr.headStart + 1000000 }
        pwr := { d.pwr with change := c, raised := false } } := by
  have hvset : (d.setFld Reg.scrHeadroom Fld.scrHeadroomMin (lowBits 24 (h / 4096))).vset = d.vset :=
    Dev.vset_of_rd (Dev.rd_setFld_ne _ _ _ (by decide))
  unfold Dev.headroomWindow
  rw [if_pos ⟨hw, ha⟩, hm]
  dsimp only
  rw [if_pos (by simp only [ht, hr, decide_eq_true hv, decide_eq_true hwide]; rfl), hvset]
  split
  · exact ⟨d.pwr.change, rfl⟩
  · exact ⟨some .lower, rfl⟩

end

/-- Settles O10: a raise, its settling, and the lowering at the close of a headroom window. -/
theorem setpoint : Obligations.Setpoint := by
  refine ⟨fun s n x hs h ht hr hp hv hset => ?_, fun s hs hr hp => ?_, fun s h hs hw hm ht hr hv hwide => ?_⟩
  · refine gives_live (exec_setpointRaise s n) hs ?_
    have hkeep := Dev.setpointRaise_keeps (n := n) (keepsBut_keeps [.regs, .pwr] s.dev) (keepsBut_refl _ _)
    obtain ⟨hvset, hcount, hregs⟩ := s.dev.setV_count_spec (raisedV_lt s.dev.vset) (a := Reg.pwrRaises) (by decide)
    rw [Dev.setpointRaise_due h ht hr hp hv hset] at hkeep ⊢
    exact ⟨hvset, rfl, rfl, hcount, hregs, hkeep⟩
  · refine gives_live (exec_setpointSettled s) hs ?_
    rw [Dev.setpointSettled_raise hr hp]
    exact ⟨rfl, rfl, upd_pwr (keepsBut_keeps [.pwr] s.dev) (keepsBut_refl _ _)⟩
  · refine gives_live (exec_headroomWindow s) hs ?_
    obtain ⟨hreset, -⟩ : s.dev.inReset = false ∧ s.dev.mode ≠ 3 := by simpa [Dev.alive] using hs
    have hkeep := Dev.headroomWindow_keeps ((keepsBut_keeps [.regs, .pwr, .scr] s.dev).mono rfl) (keepsBut_refl _ _)
    obtain ⟨c, hlow⟩ := Dev.headroomWindow_lowers hreset hw hm ht hr hv hwide
    rw [hlow] at hkeep ⊢
    have hv5 : s.dev.vset - 5 < 1024 := (Nat.sub_le _ _).trans_lt s.dev.vset_lt
    obtain ⟨hvset, hcount, hregs⟩ := (s.dev.setFld Reg.scrHeadroom Fld.scrHeadroomMin (lowBits 24 (h / 4096))).setV_count_spec hv5
      (a := Reg.pwrLowers) (by decide)
    refine ⟨hvset, hcount.trans (congrArg _ (Dev.rd_setFld_ne _ _ _ (by decide))), rfl, rfl, ?_, hkeep⟩
    exact ((Dev.regsBut_refl _ s.dev).setFld (by simp) _ _).trans (hregs.mono (by simp))

end Sys2Proof.Machine
end

section
/-!
Rate frames (R314, R315), and SAFE at run time (R463).
-/

namespace Sys2Proof.Machine

open Sys2Proof

/-! The commands of this part, each the operation it runs on a live device. -/

theorem exec_rateFrame (s : State) (m : Nat) : exec (.rateFrame m) s = s.live fun d => d.rateFrame m := rfl

theorem exec_safeEntry (s : State) (mem : XdieMemory) (rows : List Nat) :
    exec (.safeEntry mem rows) s = s.live fun d => d.safeEntry rows := rfl

section
variable {d : Dev}

/-! Rate frames -/

/-- The frames of the segments ps sent to the destination of the rate frames, in order. -/
def Dev.sendSegments (d : Dev) (ty : BitVec 16) (ps : List (List Byte)) : Dev :=
  ps.foldl (fun f p => f.emit (.frame f.rfDst f.mac ty p)) d

/-- Frames sent change the outbox alone, and each of them is in it. -/
theorem Dev.sendSegments_spec (d : Dev) (ty : BitVec 16) (ps : List (List Byte)) :
    ∃ out, d.sendSegments ty ps = { d with outbox := out } ∧ d.outbox ⊆ out ∧ ∀ p ∈ ps, .frame d.rfDst d.mac ty p ∈ out := by
  unfold Dev.sendSegments
  induction ps generalizing d with
  | nil => exact ⟨d.outbox, rfl, List.Subset.refl _, by simp⟩
  | cons p ps ih =>
    obtain ⟨out, heq, hold, hnew⟩ := ih (d.emit (.frame d.rfDst d.mac ty p))
    refine ⟨out, heq, fun _ hx => hold (List.mem_cons_of_mem _ hx), fun q hq => ?_⟩
    rcases List.mem_cons.mp hq with rfl | hq
    · exact hold List.mem_cons_self
    · exact hnew q hq

/-- The counts of the intervals up to m are gone once their frame is, and the next frame is that of m + 1. -/
def Dev.frameDone (d : Dev) (m : Nat) : Dev :=
  { d with scr := { d.scr with
      rfNext := m + 1, rf := d.scr.rf.filter fun x => decide (m < x.1),
      rfSlots := d.scr.rfSlots.filter fun x => decide (m < x.1 / 16384) } }

/-- A frame that is due: sent segment by segment, or counted. -/
theorem Dev.rateFrame_due {m : Nat} (ha : d.alive = true) (harm : d.scr.armed = true)
    (hen : d.flag Reg.scrRfCfg Fld.scrRfCfgRfEn = true) (hn : d.scr.rfNext ≤ m) (hskip : d.skippedInterval m = false)
    (ht : (m + 1) * 1000000 + 50000 ≤ d.netNs) :
    d.rateFrame m =
      if d.tms.ethUp then
        let e := (d.sendSegments (BitVec.ofNat 16 (d.fld Reg.scrRfCfg Fld.scrRfCfgRfEthertype)) (d.rateSegments m)).count Reg.scrRfSent
        { e with scr := { e.scr with rfSeq := (e.scr.rfSeq + 1) % 2 ^ 32 } }.frameDone m
      else (d.count Reg.scrRfUnsent).frameDone m := by
  unfold Dev.rateFrame
  rw [if_pos (by simp [ha, harm, hen, hn, hskip, ht])]
  dsimp only
  split <;> rfl

/-! SAFE -/

/-- Tracking stopped: the setpoint goes to VSTART_MV unless it is pinned. -/
def Dev.stopTracking (d : Dev) : Dev :=
  let e := d.setFld Reg.pwrStat Fld.pwrStatTracking 0
  if e.pinned then e else e.setV (e.fld Reg.pwrTrack Fld.pwrTrackVstartMv)

theorem Dev.stopTracking_regsBut (d : Dev) : d.regsBut [Reg.pwrStat] d.stopTracking := by
  have hstop := (Dev.regsBut_refl _ d).setFld (List.mem_singleton_self Reg.pwrStat) Fld.pwrStatTracking 0
  unfold Dev.stopTracking
  dsimp only
  split
  · exact hstop
  · exact hstop.trans (Dev.setV_regsBut _ _)

theorem Dev.stopTracking_tracking (d : Dev) : d.stopTracking.tracking = false := by
  have hstop : (d.setFld Reg.pwrStat Fld.pwrStatTracking 0).tracking = false :=
    Dev.flag_setFld_same d Reg.pwrStat Fld.pwrStatTracking 0 (by decide)
  unfold Dev.stopTracking
  dsimp only
  split
  · exact hstop
  · exact (Dev.setV_tracking _ _).trans hstop

/-- SAFE with its cause in GLB_STATE, as the modes and their pins show it (R465). -/
def Dev.showSafe (d : Dev) : Dev := (d.setMode 2).setFld Reg.glbState Fld.glbStateSafeCause 2

theorem Dev.showSafe_mode (d : Dev) : d.showSafe.mode = 2 :=
  (Dev.fld_setFld_ne _ _ _ _ (by decide)).trans (d.setMode_mode (by decide))

theorem Dev.showSafe_cause (d : Dev) : d.showSafe.fld Reg.glbState Fld.glbStateSafeCause = 2 :=
  Dev.fld_setFld_same _ _ _ _ (by decide)

/-- What SAFE at run time changes of the registers, but for the log's counters. -/
def Dev.enterSafe (d : Dev) : Dev := (d.showSafe.setFld Reg.scrState Fld.scrStateState 2).stopTracking

theorem Dev.enterSafe_rd_of_ne {a : Nat} (hscr : a ≠ Reg.scrState) (hpwr : a ≠ Reg.pwrStat) : d.enterSafe.rd a = d.showSafe.rd a :=
  (Dev.stopTracking_regsBut _ _ (by simpa using hpwr)).trans (Dev.rd_setFld_ne _ _ _ hscr)

theorem Dev.enterSafe_scr (d : Dev) : d.enterSafe.scr = d.scr := by
  unfold Dev.enterSafe Dev.stopTracking
  dsimp only
  split <;> rfl

/-- What SAFE at run time leaves: the mode, its cause, and a setpoint that does not follow headroom. -/
theorem Dev.enterSafe_spec (d : Dev) : d.enterSafe.mode = 2 ∧ d.enterSafe.fld Reg.glbState Fld.glbStateSafeCause = 2 ∧
    d.enterSafe.tracking = false ∧ d.enterSafe.rd Reg.glbXdieUe = d.rd Reg.glbXdieUe := by
  refine ⟨?_, ?_, Dev.stopTracking_tracking _, ?_⟩
  · exact (Dev.fld_of_rd (Dev.enterSafe_rd_of_ne (by decide) (by decide)) _).trans d.showSafe_mode
  · exact (Dev.fld_of_rd (Dev.enterSafe_rd_of_ne (by decide) (by decide)) _).trans d.showSafe_cause
  · rw [Dev.enterSafe_rd_of_ne (by decide) (by decide)]
    exact (Dev.rd_setFld_ne _ _ _ (by decide)).trans (Dev.setMode_rd d 2 (by decide) (by decide))

/-- SAFE begins: its first event is fixed, the registers show it, and it is logged. -/
theorem Dev.safeEntry_begins (ha : d.alive = true) (harm : d.scr.armed = true) (hm : d.mode ≠ 2) :
    ∃ old new, d.safeEntry [] =
      ({ d.count Reg.glbXdieUe with scr := { d.scr with safeFrom := some d.safeEvent } } : Dev).enterSafe.logInternal
        Reg.glbState old new .degraded := by
  have hmode : (d.count Reg.glbXdieUe).mode = d.mode := Dev.fld_of_rd (Dev.rd_count_ne _ (by decide)) _
  have hevent : (d.count Reg.glbXdieUe).safeEvent = d.safeEvent := by
    unfold Dev.safeEvent Dev.tev Dev.aNs
    rw [Dev.fld_of_rd (Dev.rd_count_ne d (by decide)), Dev.fld_of_rd (Dev.rd_count_ne d (by decide))]
    rfl
  unfold Dev.safeEntry
  rw [if_pos (by simp [ha, harm])]
  dsimp only [List.foldl_nil]
  rw [if_neg (hmode ▸ hm), hevent]
  exact ⟨_, _, rfl⟩

end

/-- Settles O11: a rate frame sent and one not sent, and SAFE entered by a device that is not in it. -/
theorem rateFramesAndSafe : Obligations.RateFramesAndSafe := by
  refine ⟨fun s m hs harm hen hn hskip ht => ⟨fun hup => ?_, fun hdown => ?_⟩, fun s mem hs harm hm => ?_⟩
  · refine gives_live (exec_rateFrame s m) hs ?_
    have hkeep := Dev.rateFrame_keeps (m := m) ((keepsBut_keeps [.regs, .scr, .outbox] s.dev).mono rfl) (keepsBut_refl _ _)
    obtain ⟨out, hsent, -, hframes⟩ :=
      s.dev.sendSegments_spec (BitVec.ofNat 16 (s.dev.fld Reg.scrRfCfg Fld.scrRfCfgRfEthertype)) (s.dev.rateSegments m)
    rw [Dev.rateFrame_due hs harm hen hn hskip ht, if_pos hup, hsent] at hkeep ⊢
    exact ⟨hframes, Dev.rd_count .., rfl, rfl, fun _ hb => Dev.rd_count_ne _ (List.ne_of_not_mem_cons hb), hkeep⟩
  · refine gives_live (exec_rateFrame s m) hs ?_
    rw [Dev.rateFrame_due hs harm hen hn hskip ht, if_neg (by simp [hdown])]
    have k := keepsBut_keeps [.regs, .scr] s.dev
    exact ⟨Dev.rd_count .., rfl, rfl, fun _ hb => Dev.rd_count_ne s.dev (List.ne_of_not_mem_cons hb),
      upd_scr (k.mono rfl) id (Dev.count_keeps (k.mono rfl) (keepsBut_refl _ _))⟩
  · refine gives_live (exec_safeEntry s mem []) hs ?_
    have hkeep := Dev.safeEntry_keeps (rows := []) ((keepsBut_keeps [.regs, .scr, .log] s.dev).mono rfl) (keepsBut_refl _ _)
    obtain ⟨old, new, hsafe⟩ := Dev.safeEntry_begins hs harm hm
    rw [hsafe] at hkeep ⊢
    generalize hq : ({ s.dev.count Reg.glbXdieUe with scr := { s.dev.scr with safeFrom := some s.dev.safeEvent } } : Dev) = q at hkeep ⊢
    obtain ⟨hmode, hcause, htrack, hue⟩ := q.enterSafe_spec
    have hrd : ∀ {a}, a ≠ Reg.logLost → a ≠ Reg.logMirrorLost →
        (q.enterSafe.logInternal Reg.glbState old new .degraded).rd a = q.enterSafe.rd a := fun hlost hmirror =>
      Dev.logInternal_rd _ _ _ _ _ hlost hmirror
    refine ⟨(Dev.fld_of_rd (hrd (by decide) (by decide)) _).trans hmode, ?_,
      (Dev.flag_of_rd (hrd (by decide) (by decide)) _).trans htrack, ?_,
      (Dev.fld_of_rd (hrd (by decide) (by decide)) _).trans hcause, hkeep⟩
    · rw [Dev.logInternal_scr, Dev.enterSafe_scr, ← hq]
    · rw [hrd (by decide) (by decide), hue, ← hq]
      exact Dev.rd_count s.dev Reg.glbXdieUe

end Sys2Proof.Machine
end

section
/-!
Live writes that act beyond their register (R295, R481, R505; Table 2.7, rows 1 and 2; Table 9.5): what each class does, and what of it
outlives the entry of the write.
-/

namespace Sys2Proof.Machine

open Sys2Proof

/-! What a write leaves past its entry -/

section
variable {d : Dev} {a b w old new : Nat} {o : Origin} {st : Status}

/-- The log's counters lie in LOG; the other blocks' registers outlive the entry of a live write. -/
theorem Dev.liveEntry_rd_above (h : 0x40000 ≤ b) : (d.liveEntry o a old new st).rd b = d.rd b := by
  have hbelow : ∀ c ∈ entryRegs, c < 0x40000 := by decide
  exact Dev.liveEntry_rd_of_not_mem fun hb => Nat.not_le.mpr (hbelow b hb) h

theorem Dev.fld_wr_same {f : Fld} (h : f.lo + f.w ≤ 32) : (d.wr a w).fld a f = fieldOf w f := by
  unfold Dev.fld fieldOf
  rw [Dev.rd_wr_same, bitsOf_mod _ _ _ h]

end

/-! ADMIN_OFF (Table 2.7, rows 1 and 2) -/

theorem le_laneReg (l : LaneId) (r : Nat → Nat) : 0x81000 ≤ laneReg l r := by
  unfold laneReg laneBase
  split <;> omega

theorem laneAt_lcfg : ∀ l : LaneId, laneAt (laneReg l Reg.ingLcfg) = some l := by decide

section
variable {d : Dev} {l : LaneId} {w : Nat}

theorem Dev.wr_lcfg_laneState (d : Dev) (l : LaneId) (w : Nat) : (d.wr (laneReg l Reg.ingLcfg) w).laneState l = d.laneState l :=
  Dev.laneState_of_rd (Dev.rd_wr_ne _ _ (laneReg_ne l (by decide) (by decide) (by decide)))

theorem Dev.adminWritten_off (hs : d.laneState l ≠ lsDisabled) (hw : fieldOf w Fld.ingLcfgAdminOff = 1) :
    d.adminWritten (laneReg l Reg.ingLcfg) w = ((d.wr (laneReg l Reg.ingLcfg) w).restart l lsOffline).laneSync l := by
  unfold Dev.adminWritten
  rw [laneAt_lcfg]
  dsimp only
  rw [if_pos hw, Dev.laneOff, if_neg (by rwa [Dev.wr_lcfg_laneState])]

/-- Row 1: the lane is OFFLINE, and its elastic buffer is empty. -/
theorem Dev.adminWritten_off_spec (hs : d.laneState l ≠ lsDisabled) (hw : fieldOf w Fld.ingLcfgAdminOff = 1) :
    let e := d.adminWritten (laneReg l Reg.ingLcfg) w
    e.laneState l = lsOffline ∧ (e.lane l).buf = [] ∧ e.rd (laneReg l Reg.ingLcfg) = w % 2 ^ 32 := by
  intro e
  have he : e = ((d.wr (laneReg l Reg.ingLcfg) w).restart l lsOffline).laneSync l := Dev.adminWritten_off hs hw
  rw [he, Dev.laneSync_state, Dev.laneSync_lane, Dev.laneSync_rd _ _ _ (by decide), Dev.restart_lane _ _ (by decide)]
  refine ⟨Dev.restart_state _ l (by decide), rfl, (Dev.restart_rd _ l _ ?_ ?_ ?_ ?_).trans (Dev.rd_wr_same ..)⟩ <;>
    exact laneReg_ne l (by decide) (by decide) (by decide)

/-- FAILS and DOWN cleared (Table 2.7, row 2). -/
def Dev.clearFails (d : Dev) (l : LaneId) : Dev :=
  (d.setFld (laneReg l Reg.ingLstate) Fld.ingLstateFails 0).setFld (laneReg l Reg.ingLstate) Fld.ingLstateDown 0

theorem Dev.clearFails_spec (d : Dev) (l : LaneId) :
    (d.clearFails l).fld (laneReg l Reg.ingLstate) Fld.ingLstateFails = 0 ∧
      (d.clearFails l).fld (laneReg l Reg.ingLstate) Fld.ingLstateDown = 0 := by
  unfold Dev.clearFails
  rw [Dev.fld_setFld_fld _ _ _ _ _ (by decide) (by decide)]
  exact ⟨Dev.fld_setFld_same _ _ _ _ (by decide), Dev.fld_setFld_same _ _ _ _ (by decide)⟩

theorem Dev.adminWritten_on (hs : d.laneState l = lsOffline) (hw : fieldOf w Fld.ingLcfgAdminOff = 0)
    (hg : bitAt (d.rd Reg.clkGated) (if l.val < 64 then l.val / 16 else 4 + (l.val - 64) / 4) = false) :
    d.adminWritten (laneReg l Reg.ingLcfg) w = (((d.wr (laneReg l Reg.ingLcfg) w).clearFails l).newTry l).laneSync l := by
  have hopen : (d.wr (laneReg l Reg.ingLcfg) w).laneShut l = false := by
    have hgate : Reg.clkGated ≠ laneReg l Reg.ingLcfg := ((show Reg.clkGated < 0x81000 by decide).trans_le (le_laneReg l _)).ne
    unfold Dev.laneShut Dev.flag
    rw [Dev.fld_wr_same (by decide), hw, Dev.rd_wr_ne _ _ hgate, hg]
    rfl
  unfold Dev.adminWritten
  rw [laneAt_lcfg]
  dsimp only
  rw [if_neg (by rw [hw]; decide), Dev.laneOn, if_pos ⟨(Dev.wr_lcfg_laneState ..).trans hs, hopen⟩]
  rfl

/-- Row 2: the lane hunts, with FAILS and DOWN clear. -/
theorem Dev.adminWritten_on_spec (hs : d.laneState l = lsOffline) (hw : fieldOf w Fld.ingLcfgAdminOff = 0)
    (hg : bitAt (d.rd Reg.clkGated) (if l.val < 64 then l.val / 16 else 4 + (l.val - 64) / 4) = false) :
    let e := d.adminWritten (laneReg l Reg.ingLcfg) w
    e.laneState l = lsHunt ∧ e.fld (laneReg l Reg.ingLstate) Fld.ingLstateFails = 0 ∧
      e.fld (laneReg l Reg.ingLstate) Fld.ingLstateDown = 0 ∧ e.rd (laneReg l Reg.ingLcfg) = w % 2 ^ 32 := by
  intro e
  have he : e = (((d.wr (laneReg l Reg.ingLcfg) w).clearFails l).newTry l).laneSync l := Dev.adminWritten_on hs hw hg
  have hstate : laneReg l Reg.ingLcfg ≠ laneReg l Reg.ingLstate := laneReg_ne l (by decide) (by decide) (by decide)
  obtain ⟨hfails, hdown⟩ := Dev.clearFails_spec (d.wr (laneReg l Reg.ingLcfg) w) l
  rw [he, Dev.laneSync_state, Dev.laneSync_fld _ _ _ (by decide), Dev.laneSync_fld _ _ _ (by decide), Dev.laneSync_rd _ _ _ (by decide),
    Dev.newTry_lstate _ _ _ (by decide), Dev.newTry_lstate _ _ _ (by decide)]
  refine ⟨Dev.newTry_state _ l, hfails, hdown, ?_⟩
  rw [Dev.newTry_regsBut _ l _ (laneReg_not_mem_laneStateRegs l (by decide) (by decide))]
  exact (Dev.rd_setFld_ne _ _ _ hstate).trans ((Dev.rd_setFld_ne _ _ _ hstate).trans (Dev.rd_wr_same ..))

end

/-! A jump accepted (Table 9.5) -/

/-- TMS_JUMP_ACCEPT alone has policy class 8. -/
theorem rowsAt_jump (a : Nat) :
    (rowsAt a).all (fun r => decide (r.cls = 256 → r.base = Reg.tmsJumpAccept ∧ r.dims = [])) = true := by
  unfold rowsAt
  repeat' refine iteInduction (motive := fun rows => List.all rows _ = true) (fun _ => ?_) (fun _ => ?_)
  all_goals decide

theorem eq_jumpAccept_of_cls {a : Nat} {r : RegRow} (h : regRow a = some r) (hc : r.cls = 256) : a = Reg.tmsJumpAccept := by
  obtain ⟨hbase, hdims⟩ := of_decide_eq_true (List.all_eq_true.mp (rowsAt_jump a) r (List.mem_of_find?_eq_some h)) hc
  have hhit : r.hit a = true := List.find?_some (p := (RegRow.hit · a)) h
  simp only [RegRow.hit, hbase, hdims, dimsHit, Bool.and_eq_true, decide_eq_true_eq, beq_iff_eq] at hhit
  omega

/-- The acceptance of a jump: PAUSED until 1,000 ns after the release of the last event before it. -/
theorem Dev.acceptJump_spec (d : Dev) :
    let tA := ceilDiv d.net16 65536
    let n := ceilDiv (tA + 1000) d.tev - 1
    d.acceptJump.timeState = tsPaused ∧ d.acceptJump.jumpPending = false ∧
      d.acceptJump.tms.jump = some ⟨tA, some n, d.relTime n + 1000⟩ := by
  refine ⟨Dev.fld_setFld_same _ Reg.tmsStat ⟨0, 3⟩ tsPaused (by decide), ?_, rfl⟩
  have hbit : ((d.setJumpPending false).setTimeState tsPaused).flag Reg.tmsStat ⟨3, 1⟩ = false :=
    (Dev.flag_setFld_fld _ _ _ _ _ (by decide) (by decide)).trans (Dev.flag_setFld_same _ _ _ _ (by decide))
  exact (Dev.flag_bit _ Reg.tmsStat ⟨3, 1⟩ rfl).symm.trans hbit

/-- TMS_JUMP_ACCEPT is no setting of the event grid. -/
theorem Dev.wr_jumpAccept_grid (d : Dev) (w : Nat) :
    (d.wr Reg.tmsJumpAccept w).tev = d.tev ∧ ∀ n, (d.wr Reg.tmsJumpAccept w).relTime n = d.relTime n := by
  have htev : (d.wr Reg.tmsJumpAccept w).tev = d.tev := Dev.fld_of_rd (Dev.rd_wr_ne d w (by decide)) _
  have hl : (d.wr Reg.tmsJumpAccept w).lNs = d.lNs := Dev.fld_of_rd (Dev.rd_wr_ne d w (by decide)) _
  refine ⟨htev, fun n => ?_⟩
  unfold Dev.relTime Dev.tSample
  rw [htev, hl]

/-! A context requested (R295) -/

theorem Dev.ctxWritten_req {d : Dev} {g k : Nat} (h : k ≠ (d.grp g).ctx) :
    ((d.ctxWritten g k).grp g).req = some ⟨k, false, false, none⟩ := by
  unfold Dev.ctxWritten
  dsimp only
  rw [if_neg (fun hc => h hc.1), Dev.setGrp_grp]

/-! An AUX clock's divider (R481) -/

/-- The divider ramps to another value than the one in use. -/
theorem Dev.auxWritten_spec (d : Dev) (n : Fin 2) (w : Nat) :
    let e := (d.wr (Reg.auxCtl n.val) w).auxWritten n.val
    e.rd (Reg.auxCtl n.val) = w % 2 ^ 32 ∧ e.fld (Reg.auxStat n.val) Fld.auxStatRamping =
      bit01 (decide (d.fld (Reg.auxStat n.val) Fld.auxStatDivNow ≠ bitsOf w 0 8)) := by
  have hne : Reg.auxCtl n.val ≠ Reg.auxStat n.val := by
    unfold Reg.auxCtl Reg.auxStat
    omega
  have hdiv : (d.wr (Reg.auxCtl n.val) w).fld (Reg.auxStat n.val) Fld.auxStatDivNow = d.fld (Reg.auxStat n.val) Fld.auxStatDivNow :=
    Dev.fld_of_rd (Dev.rd_wr_ne _ _ hne.symm) _
  have hset : (d.wr (Reg.auxCtl n.val) w).fld (Reg.auxCtl n.val) Fld.auxCtlDiv = bitsOf w 0 8 := Dev.fld_wr_same (by decide)
  refine ⟨(Dev.rd_setFld_ne _ _ _ hne).trans (Dev.rd_wr_same ..), ?_⟩
  unfold Dev.auxWritten
  rw [hdiv, hset, Dev.fld_setFld_same _ _ _ _ (by decide)]
  cases decide (d.fld (Reg.auxStat n.val) Fld.auxStatDivNow ≠ bitsOf w 0 8) <;> rfl

/-! A pin (R505) -/

section
variable {d : Dev}

/-- A step of pinning is a move of the setpoint, or none. -/
theorem Dev.pinStep_cases (d : Dev) : d.pinStep.regs = d.regs ∨ ∃ v, d.pinStep.regs = (d.setV v).regs := by
  unfold Dev.pinStep
  dsimp only
  split
  · exact .inr ⟨_, rfl⟩
  · split
    · exact .inr ⟨_, rfl⟩
    · exact .inl rfl

theorem Dev.pinStep_regsBut (d : Dev) : d.regsBut [Reg.pwrStat] d.pinStep := by
  rcases d.pinStep_cases with h | ⟨v, h⟩
  · exact Dev.regsBut_of_regs _ h
  · exact (Dev.setV_regsBut d v).trans (Dev.regsBut_of_regs _ h)

theorem Dev.pinStep_flag (d : Dev) {f : Fld} (hf : 10 ≤ f.lo ∧ f.lo + f.w ≤ 12) :
    d.pinStep.flag Reg.pwrStat f = d.flag Reg.pwrStat f := by
  rcases d.pinStep_cases with h | ⟨v, h⟩
  · exact Dev.flag_of_rd (Dev.rd_of_regs h _) f
  · exact (Dev.flag_of_rd (Dev.rd_of_regs h _) f).trans (Dev.setV_flag d v hf)

/-- A pin in force shows, and tracking has stopped; of the registers only PWR_STAT differs. -/
theorem Dev.pinNow_spec (d : Dev) : d.pinNow.pinned = true ∧ d.pinNow.tracking = false ∧ d.regsBut [Reg.pwrStat] d.pinNow := by
  have hmem : Reg.pwrStat ∈ [Reg.pwrStat] := List.mem_singleton_self _
  unfold Dev.pinNow
  refine ⟨(Dev.pinStep_flag _ (by decide)).trans ?_, (Dev.pinStep_flag _ (by decide)).trans ?_, ?_⟩
  · exact (Dev.flag_setFld_fld _ _ _ _ _ (by decide) (by decide)).trans (Dev.flag_setFld_same _ _ _ _ (by decide))
  · exact Dev.flag_setFld_same _ _ _ _ (by decide)
  · exact (((Dev.regsBut_refl _ d).setFld hmem _ _).setFld hmem _ _).trans (Dev.pinStep_regsBut _)

theorem Dev.pinWritten_atOnce (he : d.flag Reg.pwrPin Fld.pwrPinPinEn = true) (hr : d.raising = false) : d.pinWritten = d.pinNow := by
  unfold Dev.pinWritten
  rw [if_pos he, if_neg (by simp [hr])]

/-- PWR_PIN written with PIN_EN while no raise is under way. -/
theorem Dev.wr_pin_spec {w : Nat} (hw : bitsOf w 0 1 = 1) (hr : d.raising = false) :
    let e := (d.wr Reg.pwrPin w).pinWritten
    e.rd Reg.pwrPin = w % 2 ^ 32 ∧ e.pinned = true ∧ e.tracking = false := by
  intro e
  have hen : (d.wr Reg.pwrPin w).flag Reg.pwrPin Fld.pwrPinPinEn = true :=
    decide_eq_true ((Dev.fld_wr_same (by decide)).trans hw)
  have he : e = (d.wr Reg.pwrPin w).pinNow := Dev.pinWritten_atOnce hen hr
  obtain ⟨hpinned, htracking, hregs⟩ := (d.wr Reg.pwrPin w).pinNow_spec
  rw [he]
  exact ⟨(hregs _ (by decide)).trans (Dev.rd_wr_same ..), hpinned, htracking⟩

end

/-! The write by its policy class -/

section
variable {d : Dev} {r : RegRow} {a w : Nat}

theorem Dev.liveApply_admin (h : r.cls = 64) : d.liveApply r a w = d.adminWritten a w := by
  simp [Dev.liveApply, ofClass, h]

theorem Dev.liveApply_jump (h : r.cls = 256) : d.liveApply r a w = (d.wr a w).acceptJump := by
  simp [Dev.liveApply, ofClass, h]

theorem Dev.liveApply_context (h : r.cls = 8) : d.liveApply r a w = d.ctxWritten ((a - Reg.scrCtxsel 0) / 4) (w % 4) := by
  simp [Dev.liveApply, ofClass, h]

theorem Dev.liveApply_aux (h : r.cls = 2048) (hb : r.base = Reg.auxCtl 0) (ha : a ≠ Reg.pwrPin) :
    d.liveApply r a w = (d.wr a w).auxWritten ((a - Reg.auxCtl 0) / 0x10) := by
  have hring : ringField r = false := by
    unfold ringField
    rw [hb]
    decide
  simp [Dev.liveApply, ofClass, h, hring, hb, ha]

/-- PWR_PIN lies below the capture rings' registers. -/
theorem Dev.liveApply_pin (h : r.cls = 2048) (hrow : regRow Reg.pwrPin = some r) :
    d.liveApply r Reg.pwrPin w = (d.wr Reg.pwrPin w).pinWritten := by
  have hle := regRow_base_le hrow
  have hring : ringField r = false := by
    have hne : ∀ b, Reg.pwrPin < b → r.base ≠ b := fun b hb => (hle.trans_lt hb).ne
    simp [ringField, hne _ (show Reg.pwrPin < Reg.hwkFree 0 by decide), hne _ (show Reg.pwrPin < Reg.stpRkeep 0 by decide),
      hne _ (show Reg.pwrPin < Reg.stpRmode 0 by decide), hne _ (show Reg.pwrPin < Reg.stpDband 0 by decide)]
  simp [Dev.liveApply, ofClass, h, hring]

end

/-- Settles O14, register by register: ADMIN_OFF set and cleared, a jump, a context, an AUX clock and a pin. -/
theorem liveWriteActs : Obligations.LiveWriteActs := by
  intro i s o r a v hi hm hf w
  have accepted := fun {P : Dev → Prop} => gives_accepted (P := P) hi hm hf
  have hrow : regRow a = some r := hm.2.2.1
  have above : ∀ {e : Dev} {new b : Nat}, 0x40000 ≤ b → (e.liveEntry o a (s.dev.inHand a) new .ok).rd b = e.rd b :=
    Dev.liveEntry_rd_above
  have parts := fun (e : Dev) new => e.liveEntry_parts o a (s.dev.inHand a) new .ok
  have hlane : ∀ (l : LaneId) q, 0x40000 ≤ laneReg l q := fun l q => (show 0x40000 ≤ 0x81000 by decide).trans (le_laneReg l q)
  refine ⟨fun l ha hc hs hw => accepted fun new => ?_, fun l ha hc hs hw hg => accepted fun new => ?_, fun hc => accepted fun new => ?_,
    fun g ha hc hw => accepted fun new => ?_, fun n ha hb hc => accepted fun new => ?_, fun ha hc hw hr => accepted fun new => ?_⟩
  · subst ha
    obtain ⟨hstate, hbuf, hrd⟩ := Dev.adminWritten_off_spec hs hw
    rw [Dev.liveApply_admin hc]
    refine ⟨(Dev.laneState_of_rd (above (hlane _ _))).trans hstate, ?_, (above (hlane _ _)).trans hrd⟩
    unfold Dev.lane at hbuf ⊢
    rw [parts _ new .ing rfl]
    exact hbuf
  · subst ha
    obtain ⟨hstate, hfails, hdown, hrd⟩ := Dev.adminWritten_on_spec hs hw hg
    rw [Dev.liveApply_admin hc]
    exact ⟨(Dev.laneState_of_rd (above (hlane _ _))).trans hstate, (Dev.fld_of_rd (above (hlane _ _)) _).trans hfails,
      (Dev.fld_of_rd (above (hlane _ _)) _).trans hdown, (above (hlane _ _)).trans hrd⟩
  · obtain rfl := eq_jumpAccept_of_cls hrow hc
    obtain ⟨htev, hrel⟩ := s.dev.wr_jumpAccept_grid w
    obtain ⟨hstate, hpending, hjump⟩ := (s.dev.wr Reg.tmsJumpAccept w).acceptJump_spec
    rw [htev, hrel] at hjump
    rw [Dev.liveApply_jump hc]
    exact ⟨(congrArg (bitsOf · 0 3) (above (by decide))).trans hstate, (congrArg (bitAt · 3) (above (by decide))).trans hpending,
      (congrArg TmsSt.jump (parts _ new .tms rfl)).trans hjump⟩
  · subst ha
    have hg : (Reg.scrCtxsel g.val - Reg.scrCtxsel 0) / 4 = g.val := by
      unfold Reg.scrCtxsel
      omega
    rw [Dev.liveApply_context hc, hg]
    unfold Dev.grp
    rw [parts _ new .fab rfl]
    exact Dev.ctxWritten_req hw
  · subst ha
    have hn : (Reg.auxCtl n.val - Reg.auxCtl 0) / 0x10 = n.val := by
      unfold Reg.auxCtl
      omega
    have hpin : Reg.auxCtl n.val ≠ Reg.pwrPin := by
      unfold Reg.auxCtl Reg.pwrPin
      omega
    obtain ⟨hrd, hramp⟩ := s.dev.auxWritten_spec n w
    rw [Dev.liveApply_aux hc hb hpin, hn]
    exact ⟨(above (Nat.le_add_right_of_le (by decide))).trans hrd,
      (Dev.fld_of_rd (above (Nat.le_add_right_of_le (by decide))) _).trans hramp⟩
  · subst ha
    obtain ⟨hrd, hpinned, htracking⟩ := Dev.wr_pin_spec hw hr
    rw [Dev.liveApply_pin hc hrow]
    exact ⟨(above (by decide)).trans hrd, (Dev.flag_of_rd (above (by decide)) _).trans hpinned,
      (Dev.flag_of_rd (above (by decide)) _).trans htracking⟩

end Sys2Proof.Machine
end

section
/-!
Mark generators (R347 to R352): a mark emitted, marks passed over, and the writes that arm and stop a generator.
-/

namespace Sys2Proof.Machine

open Sys2Proof

/-! A generator's record and its settings -/

@[simp] theorem Dev.setGen_gen (d : Dev) (g : Nat) (r : GenRec) : (d.setGen g r).gen g = r := SMap.get_set_same _ _ _

theorem Dev.gen_of_tms {d e : Dev} (h : e.tms = d.tms) (g : Nat) : e.gen g = d.gen g := by
  unfold Dev.gen
  rw [h]

/-- The registers in which a generator shows what it does. -/
def markShows (g : Nat) : List Nat := [Reg.mkCtl g, Reg.mkEmitted g, Reg.mkSkipped g, Reg.mkNext g]

/-- The registers of a generator's settings, MK_CTL aside. -/
def markSettings (g : Nat) : List Nat :=
  [Reg.mkStart0 g, Reg.mkStart1 g, Reg.mkStart2 g, Reg.mkPeriod g, Reg.mkPfrac g, Reg.mkCount g]

theorem not_mem_markShows {g a : Nat} (h : a ∈ markSettings g) : a ∉ markShows g := by
  simp only [markSettings, markShows, List.mem_cons, List.not_mem_nil, or_false, Reg.mkStart0, Reg.mkStart1, Reg.mkStart2,
    Reg.mkPeriod, Reg.mkPfrac, Reg.mkCount, Reg.mkCtl, Reg.mkEmitted, Reg.mkSkipped, Reg.mkNext] at h ⊢
  omega

section
variable {d e : Dev} {g : Nat} (h : d.regsBut (markShows g) e)
include h

theorem Dev.regsBut.markSetting {a : Nat} (ha : a ∈ markSettings g) : e.rd a = d.rd a := h a (not_mem_markShows ha)

theorem Dev.regsBut.mkStart : e.mkStart g = d.mkStart g := by
  unfold Dev.mkStart
  rw [h.markSetting (by simp [markSettings]), h.markSetting (by simp [markSettings]), h.markSetting (by simp [markSettings])]

theorem Dev.regsBut.mkPeriod : e.mkPeriod g = d.mkPeriod g := by
  unfold Dev.mkPeriod
  rw [h.markSetting (by simp [markSettings]), Dev.fld_of_rd (h.markSetting (by simp [markSettings]))]

theorem Dev.regsBut.lastMark (ht : e.tms = d.tms) (k : Nat) : e.lastMark g k = d.lastMark g k := by
  unfold Dev.lastMark
  rw [Dev.gen_of_tms ht, h.markSetting (by simp [markSettings])]

end

/-! A mark emitted (R347, R348) -/

/-- A mark counted and shown: MK_EMITTED, MK_NEXT and the pin's active edge. -/
def Dev.markShown (d : Dev) (g : Nat) : Dev :=
  let e := (d.count (Reg.mkEmitted g)).wr (Reg.mkNext g) ((d.gen g).k + 1)
  if d.flag (Reg.mkCtl g) Fld.mkCtlPinEn then
    e.emit (.tmarkEdge g (!e.flag (Reg.mkCtl g) Fld.mkCtlInvert) (d.markTime g (d.gen g).k))
  else e

section
variable (d : Dev) (g : Nat)

theorem Dev.markShown_regs :
    (d.markShown g).regs = ((d.count (Reg.mkEmitted g)).wr (Reg.mkNext g) ((d.gen g).k + 1)).regs := by
  unfold Dev.markShown
  dsimp only
  split <;> rfl

theorem Dev.markShown_tms : (d.markShown g).tms = d.tms := by
  unfold Dev.markShown
  dsimp only
  split <;> rfl

theorem Dev.markShown_emitted : (d.markShown g).rd (Reg.mkEmitted g) = satInc 32 1 (d.rd (Reg.mkEmitted g)) := by
  rw [Dev.rd_of_regs (d.markShown_regs g), Dev.rd_wr_ne _ _ (by unfold Reg.mkEmitted Reg.mkNext; omega), Dev.rd_count]

theorem Dev.markShown_next : (d.markShown g).rd (Reg.mkNext g) = ((d.gen g).k + 1) % 2 ^ 32 := by
  rw [Dev.rd_of_regs (d.markShown_regs g), Dev.rd_wr_same]

theorem Dev.markShown_regsBut : d.regsBut [Reg.mkEmitted g, Reg.mkNext g] (d.markShown g) := fun b hb => by
  simp only [List.mem_cons, List.not_mem_nil, or_false, not_or] at hb
  rw [Dev.rd_of_regs (d.markShown_regs g), Dev.rd_wr_ne _ _ hb.2, Dev.rd_count_ne _ hb.1]

theorem Dev.markShown_shows : d.regsBut (markShows g) (d.markShown g) :=
  (d.markShown_regsBut g).mono (by simp [markShows])

theorem Dev.markShown_outbox : (d.markShown g).outbox =
    if d.flag (Reg.mkCtl g) Fld.mkCtlPinEn then
      .tmarkEdge g (!d.flag (Reg.mkCtl g) Fld.mkCtlInvert) (d.markTime g (d.gen g).k) :: d.outbox
    else d.outbox := by
  have hinv : ((d.count (Reg.mkEmitted g)).wr (Reg.mkNext g) ((d.gen g).k + 1)).flag (Reg.mkCtl g) Fld.mkCtlInvert =
      d.flag (Reg.mkCtl g) Fld.mkCtlInvert :=
    Dev.flag_of_rd ((Dev.rd_wr_ne _ _ (by unfold Reg.mkCtl Reg.mkNext; omega)).trans
      (Dev.rd_count_ne _ (by unfold Reg.mkCtl Reg.mkEmitted; omega))) _
  unfold Dev.markShown
  dsimp only
  rw [hinv]
  split <;> rfl

/-- MK_CTL shows OFF after the last mark. -/
def Dev.markEnded (d : Dev) (g : Nat) (last : Bool) : Dev := if last then d.setFld (Reg.mkCtl g) Fld.mkCtlMode 0 else d

theorem Dev.markEnded_parts (last : Bool) : d.keepsBut [.regs] (d.markEnded g last) := by
  unfold Dev.markEnded
  split
  · exact Dev.setFld_keeps (keepsBut_keeps _ _) (keepsBut_refl _ _)
  · exact keepsBut_refl _ _

theorem Dev.markEnded_regsBut (last : Bool) : d.regsBut [Reg.mkCtl g] (d.markEnded g last) := by
  unfold Dev.markEnded
  split
  · exact (Dev.regsBut_refl _ d).setFld (List.mem_singleton_self _) _ _
  · exact Dev.regsBut_refl _ d

/-- A mark emitted: counted and shown, the generator at its next mark, or OFF. -/
theorem Dev.emitMark_eq : ∃ pulse,
    d.emitMark g = ((d.markShown g).setGen g { d.gen g with
      k := (d.gen g).k + 1, lastMark := some (d.markTime g (d.gen g).k), armed := !d.lastMark g (d.gen g).k,
      pulseEnd := pulse }).markEnded g (d.lastMark g (d.gen g).k) := by
  have hlast := (d.markShown_shows g).lastMark (d.markShown_tms g) (d.gen g).k
  rw [← hlast]
  exact ⟨_, rfl⟩

/-- What a mark emitted leaves of its generator. -/
theorem Dev.emitMark_spec :
    let e := d.emitMark g
    let k := (d.gen g).k
    (∃ pulse, e.gen g = { d.gen g with
      k := k + 1, lastMark := some (d.markTime g k), armed := !d.lastMark g k, pulseEnd := pulse }) ∧
    e.rd (Reg.mkEmitted g) = satInc 32 1 (d.rd (Reg.mkEmitted g)) ∧ e.rd (Reg.mkNext g) = (k + 1) % 2 ^ 32 ∧
    (d.lastMark g k = true → e.fld (Reg.mkCtl g) Fld.mkCtlMode = 0) ∧
    e.outbox = (if d.flag (Reg.mkCtl g) Fld.mkCtlPinEn then
      .tmarkEdge g (!d.flag (Reg.mkCtl g) Fld.mkCtlInvert) (d.markTime g k) :: d.outbox else d.outbox) ∧
    d.regsBut [Reg.mkCtl g, Reg.mkEmitted g, Reg.mkNext g] e := by
  intro e k
  obtain ⟨pulse, he⟩ := d.emitMark_eq g
  have heq : e = _ := he
  generalize hx : (d.markShown g).setGen g _ = x at heq
  have hregs : x.regs = (d.markShown g).regs := hx ▸ rfl
  have hout : x.outbox = (d.markShown g).outbox := hx ▸ rfl
  have hparts := x.markEnded_parts g (d.lastMark g (d.gen g).k)
  have hctl := x.markEnded_regsBut g (d.lastMark g (d.gen g).k)
  rw [← heq] at hparts hctl
  have hrd : ∀ b, b ≠ Reg.mkCtl g → e.rd b = (d.markShown g).rd b := fun b hb =>
    (hctl b (by simpa using hb)).trans (Dev.rd_of_regs hregs b)
  refine ⟨⟨pulse, ?_⟩, ?_, ?_, fun hlast => ?_, ?_, fun b hb => ?_⟩
  · rw [Dev.gen_of_tms (hparts .tms rfl), ← hx, Dev.setGen_gen]
  · rw [hrd _ (by unfold Reg.mkEmitted Reg.mkCtl; omega), Dev.markShown_emitted]
  · rw [hrd _ (by unfold Reg.mkNext Reg.mkCtl; omega), Dev.markShown_next]
  · rw [heq, hlast]
    exact Dev.fld_setFld_same x _ _ _ (by decide)
  · rw [hparts .outbox rfl, hout, Dev.markShown_outbox]
  · simp only [List.mem_cons, List.not_mem_nil, or_false, not_or] at hb
    rw [hrd b hb.1, d.markShown_regsBut g b (by simp [hb])]

theorem Dev.emitMark_shows : d.regsBut (markShows g) (d.emitMark g) := by
  obtain ⟨-, -, -, -, -, hregs⟩ := d.emitMark_spec g
  exact hregs.mono (by simp [markShows])

end

/-- A mark that is due is emitted. -/
theorem Dev.markDue_due {d : Dev} {g : Nat} (ha : (d.gen g).armed = true) (ht : d.markTime g (d.gen g).k ≤ d.net16) :
    d.markDue g = d.emitMark g := by
  unfold Dev.markDue
  exact if_pos ⟨ha, ht⟩

theorem Dev.markDue_idle {d : Dev} {g : Nat} (h : ¬ ((d.gen g).armed = true ∧ d.markTime g (d.gen g).k ≤ d.net16)) :
    d.markDue g = d := by
  unfold Dev.markDue
  exact if_neg h

/-! Marks passed over (R350, R352) -/

theorem Dev.skipMarks_regsBut (d : Dev) (g n : Nat) : d.regsBut (markShows g) (d.skipMarks g n) := by
  have hskipped : Reg.mkSkipped g ∈ markShows g := by simp [markShows]
  have hnext : [Reg.mkNext g] ⊆ markShows g := by simp [markShows]
  unfold Dev.skipMarks
  extract_lets r total n e fin f
  have he : d.regsBut (markShows g) e :=
    ((Dev.regsBut_refl _ d).countN hskipped n).trans ((Dev.wr_frame _ _ _).1.mono hnext)
  have hf : d.regsBut (markShows g) f := he.trans (Dev.regsBut_of_regs _ rfl)
  split
  · exact hf.setFld (by simp [markShows]) _ _
  · exact hf

/-- Marks of a periodic generator passed over. -/
theorem Dev.skipMarks_periodic (d : Dev) (g n : Nat) (hm : (d.gen g).mode = 3) :
    d.skipMarks g n = ((d.countN (Reg.mkSkipped g) n).wr (Reg.mkNext g) ((d.gen g).k + n)).setGen g { d.gen g with
      k := (d.gen g).k + n,
      kSent := if (d.gen g).kSent < (d.gen g).k + n then (d.gen g).k + n else (d.gen g).kSent,
      armed := true } := by
  simp [Dev.skipMarks, hm]

/-! Arming and stopping (R350, R351) -/

/-- The generator from its first mark on, with MK_NEXT at 0. -/
def Dev.mkFresh (d : Dev) (g mode : Nat) : Dev :=
  (d.setGen g { d.gen g with armed := true, mode := mode, k := 0, kSent := 0 }).wr (Reg.mkNext g) 0

/-- Marks timed at or before the last one emitted passed over. -/
def Dev.passEmitted (d : Dev) (g : Nat) : Dev :=
  match (d.gen g).lastMark with
  | some t => if d.mkStart g ≤ t then d.skipMarks g ((t - d.mkStart g) / d.mkPeriod g + 1) else d
  | none => d

theorem Dev.mkArm_eq (d : Dev) (g mode : Nat) : d.mkArm g mode = (d.mkFresh g mode).passEmitted g := rfl

section
variable {d : Dev} {g mode : Nat}

theorem Dev.passEmitted_ahead (h : ∀ t, (d.gen g).lastMark = some t → t < d.mkStart g) : d.passEmitted g = d := by
  unfold Dev.passEmitted
  cases hl : (d.gen g).lastMark with
  | none => rfl
  | some t => exact if_neg (Nat.not_le.mpr (h t hl))

theorem Dev.passEmitted_behind {t : Nat} (hl : (d.gen g).lastMark = some t) (ht : d.mkStart g ≤ t) :
    d.passEmitted g = d.skipMarks g ((t - d.mkStart g) / d.mkPeriod g + 1) := by
  unfold Dev.passEmitted
  rw [hl]
  exact if_pos ht

theorem Dev.mkFresh_gen : (d.mkFresh g mode).gen g = { d.gen g with armed := true, mode := mode, k := 0, kSent := 0 } :=
  Dev.setGen_gen ..

theorem Dev.mkFresh_regsBut : d.regsBut [Reg.mkNext g] (d.mkFresh g mode) := fun _ hb =>
  Dev.rd_wr_ne _ _ (by simpa using hb)

theorem Dev.mkFresh_shows : d.regsBut (markShows g) (d.mkFresh g mode) := Dev.mkFresh_regsBut.mono (by simp [markShows])

/-- A generator none of whose marks lies behind the last one it emitted. -/
theorem Dev.mkArm_ahead (h : ∀ t, (d.gen g).lastMark = some t → t < d.mkStart g) : d.mkArm g mode = d.mkFresh g mode := by
  rw [Dev.mkArm_eq, Dev.passEmitted_ahead]
  rw [Dev.mkFresh_gen, Dev.mkFresh_shows.mkStart]
  exact h

/-- A generator with marks at or before the last one it emitted. -/
theorem Dev.mkArm_behind {t : Nat} (hl : (d.gen g).lastMark = some t) (ht : d.mkStart g ≤ t) :
    d.mkArm g mode = (d.mkFresh g mode).skipMarks g ((t - d.mkStart g) / d.mkPeriod g + 1) := by
  have hstart : (d.mkFresh g mode).mkStart g = d.mkStart g := Dev.mkFresh_shows.mkStart
  rw [Dev.mkArm_eq, Dev.passEmitted_behind (t := t) (by rw [Dev.mkFresh_gen, hl]) (by rwa [hstart]), hstart,
    Dev.mkFresh_shows.mkPeriod]

/-- A periodic generator armed behind the last mark it emitted: the marks up to it count as skipped. -/
theorem Dev.mkArm_behind_spec {t n : Nat} (hl : (d.gen g).lastMark = some t) (ht : d.mkStart g ≤ t)
    (hn : n = (t - d.mkStart g) / d.mkPeriod g + 1) :
    (d.mkArm g 3).gen g = { d.gen g with armed := true, mode := 3, k := n, kSent := n } ∧
      (d.mkArm g 3).rd (Reg.mkSkipped g) = satInc 32 n (d.rd (Reg.mkSkipped g)) ∧
      d.regsBut [Reg.mkNext g, Reg.mkSkipped g] (d.mkArm g 3) := by
  have hne : Reg.mkSkipped g ≠ Reg.mkNext g := by unfold Reg.mkSkipped Reg.mkNext; omega
  have hgen : (d.mkFresh g 3).gen g = _ := Dev.mkFresh_gen
  rw [Dev.mkArm_behind hl ht, ← hn, Dev.skipMarks_periodic _ _ _ (by rw [hgen]), hgen]
  refine ⟨?_, ?_, fun b hb => ?_⟩
  · have hpos : 0 < n := hn ▸ Nat.succ_pos _
    simp [Dev.setGen_gen, hpos]
  · refine (Dev.rd_wr_ne _ _ hne).trans ((Dev.rd_countN ..).trans ?_)
    rw [Dev.mkFresh_regsBut _ (by simpa using hne)]
  · simp only [List.mem_cons, List.not_mem_nil, or_false, not_or] at hb
    exact (Dev.rd_wr_ne _ _ hb.1).trans ((Dev.rd_countN_ne _ _ hb.2).trans (Dev.mkFresh_regsBut _ (by simpa using hb.1)))

end

section
variable {d : Dev} {g w : Nat}

theorem Dev.mkWrite_arms (h : w % 4 ≠ 0) : d.mkWrite g w = (d.wr (Reg.mkCtl g) w).mkArm g (w % 4) := by
  unfold Dev.mkWrite
  simp only [if_neg h]

theorem Dev.mkWrite_stops (h : w % 4 = 0) : d.mkWrite g w = (d.mkStop g).wr (Reg.mkCtl g) w := by
  unfold Dev.mkWrite
  simp only [if_pos h]

theorem Dev.wr_mkCtl_shows : d.regsBut (markShows g) (d.wr (Reg.mkCtl g) w) :=
  (d.wr_frame (Reg.mkCtl g) w).1.mono (by simp [markShows])

/-- A write to MK_CTL of a generator is one to its MODE. -/
theorem Dev.tmsWrite_mkCtl (d : Dev) (g : Fin 16) (w : Nat) : d.tmsWrite (Reg.mkCtl g.val) w = d.mkWrite g.val w := by
  have hg : (Reg.mkCtl g.val - Reg.mkCtl 0) / 0x40 = g.val := by unfold Reg.mkCtl; omega
  unfold Dev.tmsWrite
  rw [if_pos (by unfold Reg.mkCtl; omega), hg]

/-- The other parameters of a generator take their value. -/
theorem Dev.tmsWrite_markParam (d : Dev) (g : Fin 16) {q : MarkParam} (hq : q ≠ .ctl) (w : Nat) :
    d.tmsWrite (markAddr g.val q) w = d.wr (markAddr g.val q) w := by
  have haddr : (markAddr g.val q - Reg.mkCtl 0) % 0x40 ≠ 0 ∧ Reg.tmsJumpMax < markAddr g.val q := by
    cases q with
    | ctl => exact absurd rfl hq
    | _ =>
      simp only [markAddr, Reg.mkStart0, Reg.mkStart1, Reg.mkStart2, Reg.mkPeriod, Reg.mkPfrac, Reg.mkWidth, Reg.mkCount,
        Reg.mkCtl, Reg.tmsJumpMax]
      omega
  unfold Dev.tmsWrite
  rw [if_neg (fun hc => haddr.1 hc.2.2), if_neg haddr.2.ne']

end

end Sys2Proof.Machine
end

section
/-!
Live writes to the mark generators (R350, R351): the write in force, and what of it outlives its entry.
-/

namespace Sys2Proof.Machine

open Sys2Proof

/-! Frames one after another -/

section
variable {d e f : Dev}

theorem Part.same_trans {p : Part} (h : p.same d e) (h' : p.same e f) : p.same d f := by
  cases p <;> exact Eq.trans h' h

theorem Dev.keepsBut.mono {ps qs : List Part} (h : d.keepsBut ps e) (hps : ps.all (qs.contains ·) = true) : d.keepsBut qs e :=
  fun p hp => h p (by
    by_contra hc
    rw [List.all_eq_true.mp hps p (by simpa using hc)] at hp
    exact absurd hp (by decide))

theorem Dev.keepsBut.trans {ps : List Part} (h : d.keepsBut ps e) (h' : e.keepsBut ps f) : d.keepsBut ps f := fun p hp =>
  Part.same_trans (h p hp) (h' p hp)

theorem Dev.regsBut.append {A B : List Nat} (h : d.regsBut A e) (h' : e.regsBut B f) : d.regsBut (A ++ B) f := fun b hb =>
  have hmem := not_or.mp (mt List.mem_append.mpr hb)
  (h' b hmem.2).trans (h b hmem.1)

end

/-! The entry of an accepted write -/

/-- The log's counters that an accepted write may touch. -/
def lossRegs : List Nat := [Reg.logLost, Reg.logMirrorLost]

theorem mark_not_mem_lossRegs {a : Nat} (h : Reg.mkCtl 0 ≤ a) : a ∉ lossRegs := by
  simp only [lossRegs, Reg.logLost, Reg.logMirrorLost, Reg.mkCtl, List.mem_cons, List.not_mem_nil, or_false] at h ⊢
  omega

theorem Dev.liveEntry_ok_regsBut (d : Dev) (o : Origin) (a old new : Nat) : d.regsBut lossRegs (d.liveEntry o a old new .ok) :=
  fun b hb => by
    simp only [lossRegs, List.mem_cons, List.not_mem_nil, or_false, not_or] at hb
    unfold Dev.liveEntry
    simp only [ne_eq, not_true_eq_false, decide_false, Bool.false_and, Bool.false_eq_true, if_false, Dev.countIf]
    split
    · exact Dev.logWrite_rd d o a old new .ok hb.1 hb.2
    · rfl

theorem Dev.liveApply_mark {d : Dev} {r : RegRow} {a w : Nat} (h : r.cls = 512) (hp : d.timeState ≠ tsPaused) :
    d.liveApply r a w = d.tmsWrite a w := by
  simp [Dev.liveApply, ofClass, h, hp]

/-- An accepted write to a mark generator outside PAUSED: the write in force, but for its entry. -/
theorem gives_markWrite {i : Instr} {s : State} {o : Origin} {r : RegRow} {a v : Nat} {P : Dev → Prop}
    (hp : s.dev.timeState ≠ tsPaused) (hc : r.cls = 512) (hi : liveTarget i = some (o, a, v)) (hm : s.dev.meetsChecks r a v)
    (hf : s.dev.liveFault o r a (s.dev.inHand a) (s.dev.liveWord r a v) = none)
    (h : ∀ e, (s.dev.tmsWrite a (s.dev.liveWord r a v)).regsBut lossRegs e →
      (s.dev.tmsWrite a (s.dev.liveWord r a v)).keepsBut [.regs, .log] e → P e) : Gives i s P :=
  gives_accepted hi hm hf fun new => by
    rw [Dev.liveApply_mark hc hp]
    exact h _ (Dev.liveEntry_ok_regsBut _ _ _ _ _) (Dev.liveEntry_parts _ _ _ _ _ _)

theorem markShows_not_mem_lossRegs {g a : Nat} (h : a ∈ markShows g) : a ∉ lossRegs := by
  refine mark_not_mem_lossRegs ?_
  simp only [markShows, List.mem_cons, List.not_mem_nil, or_false, Reg.mkCtl, Reg.mkEmitted, Reg.mkSkipped, Reg.mkNext] at h ⊢
  omega

/-! The write in force -/

section
variable {d : Dev} {g w : Nat}

/-- MODE set on a generator none of whose marks lies behind the last one it emitted. -/
theorem Dev.mkWrite_ahead_spec (hw : w % 4 ≠ 0) (h : ∀ t, (d.gen g).lastMark = some t → t < d.mkStart g) :
    (d.mkWrite g w).gen g = { d.gen g with armed := true, mode := w % 4, k := 0, kSent := 0 } ∧
      (d.mkWrite g w).rd (Reg.mkCtl g) = w % 2 ^ 32 ∧ (d.mkWrite g w).rd (Reg.mkNext g) = 0 ∧
      d.regsBut [Reg.mkCtl g, Reg.mkNext g] (d.mkWrite g w) := by
  have hne : Reg.mkCtl g ≠ Reg.mkNext g := by unfold Reg.mkCtl Reg.mkNext; omega
  have hstart : (d.wr (Reg.mkCtl g) w).mkStart g = d.mkStart g := Dev.wr_mkCtl_shows.mkStart
  rw [Dev.mkWrite_arms hw, Dev.mkArm_ahead (by rw [hstart]; exact h)]
  refine ⟨Dev.mkFresh_gen, ?_, Dev.rd_wr_same .., (Dev.wr_frame d _ w).1.append Dev.mkFresh_regsBut⟩
  exact (Dev.mkFresh_regsBut _ (by simpa using hne)).trans (Dev.rd_wr_same ..)

/-- Periodic MODE set on a generator with marks up to the last one it emitted. -/
theorem Dev.mkWrite_behind_spec {t n : Nat} (hw : w % 4 = 3) (hl : (d.gen g).lastMark = some t) (ht : d.mkStart g ≤ t)
    (hn : n = (t - d.mkStart g) / d.mkPeriod g + 1) :
    (d.mkWrite g w).gen g = { d.gen g with armed := true, mode := 3, k := n, kSent := n } ∧
      (d.mkWrite g w).rd (Reg.mkSkipped g) = satInc 32 n (d.rd (Reg.mkSkipped g)) ∧
      d.regsBut [Reg.mkCtl g, Reg.mkNext g, Reg.mkSkipped g] (d.mkWrite g w) := by
  have hstart : (d.wr (Reg.mkCtl g) w).mkStart g = d.mkStart g := Dev.wr_mkCtl_shows.mkStart
  have hperiod : (d.wr (Reg.mkCtl g) w).mkPeriod g = d.mkPeriod g := Dev.wr_mkCtl_shows.mkPeriod
  obtain ⟨hgen, hskipped, hregs⟩ := Dev.mkArm_behind_spec (d := d.wr (Reg.mkCtl g) w) (n := n) hl (by rwa [hstart])
    (by rw [hstart, hperiod, hn])
  rw [Dev.mkWrite_arms (by omega), hw]
  refine ⟨hgen, hskipped.trans ?_, (Dev.wr_frame d _ w).1.append hregs⟩
  rw [Dev.rd_wr_ne _ _ (by unfold Reg.mkSkipped Reg.mkCtl; omega)]

/-- OFF with no mark due. -/
theorem Dev.mkWrite_idle_spec (hw : w % 4 = 0) (h : (d.gen g).armed = false ∨ d.net16 < d.markTime g (d.gen g).k) :
    (d.mkWrite g w).gen g = { d.gen g with armed := false, kSent := (d.gen g).k } ∧
      (d.mkWrite g w).rd (Reg.mkCtl g) = w % 2 ^ 32 ∧ d.regsBut [Reg.mkCtl g] (d.mkWrite g w) ∧
      d.keepsBut [.regs, .tms] (d.mkWrite g w) := by
  have hidle : d.markDue g = d := Dev.markDue_idle (by rcases h with h | h <;> simp [h])
  have k := keepsBut_keeps [.regs, .tms] d
  rw [Dev.mkWrite_stops hw, Dev.mkStop, hidle]
  refine ⟨Dev.setGen_gen .., Dev.rd_wr_same .., fun b hb => Dev.rd_wr_ne _ _ (by simpa using hb), ?_⟩
  exact Dev.wr_keeps (k.mono rfl) (Dev.setGen_keeps (k.mono rfl) (keepsBut_refl _ d))

/-- OFF with a mark due, which is emitted first. -/
theorem Dev.mkWrite_due_spec (hw : w % 4 = 0) (ha : (d.gen g).armed = true) (ht : d.markTime g (d.gen g).k ≤ d.net16) :
    ((d.mkWrite g w).gen g).armed = false ∧ ((d.mkWrite g w).gen g).lastMark = some (d.markTime g (d.gen g).k) ∧
      (d.mkWrite g w).rd (Reg.mkCtl g) = w % 2 ^ 32 ∧
      (d.mkWrite g w).rd (Reg.mkEmitted g) = satInc 32 1 (d.rd (Reg.mkEmitted g)) ∧
      (d.flag (Reg.mkCtl g) Fld.mkCtlPinEn = true → (d.mkWrite g w).outbox =
        .tmarkEdge g (!d.flag (Reg.mkCtl g) Fld.mkCtlInvert) (d.markTime g (d.gen g).k) :: d.outbox) ∧
      d.regsBut [Reg.mkCtl g, Reg.mkEmitted g, Reg.mkNext g] (d.mkWrite g w) := by
  have hne : Reg.mkEmitted g ≠ Reg.mkCtl g := by unfold Reg.mkEmitted Reg.mkCtl; omega
  obtain ⟨⟨pulse, hgen⟩, hemitted, -, -, hout, hregs⟩ := d.emitMark_spec g
  rw [Dev.mkWrite_stops hw, Dev.mkStop, Dev.markDue_due ha ht]
  dsimp only
  have hwr : ∀ r : GenRec, (((d.emitMark g).setGen g r).wr (Reg.mkCtl g) w).gen g = r := fun r => Dev.setGen_gen ..
  refine ⟨by rw [hwr], by rw [hwr, hgen], Dev.rd_wr_same .., (Dev.rd_wr_ne _ _ hne).trans hemitted,
    fun hpin => hout.trans (if_pos hpin), fun b hb => ?_⟩
  exact (Dev.rd_wr_ne _ _ (List.ne_of_not_mem_cons hb)).trans (hregs b hb)

end

/-- MODE other than OFF puts nothing out. -/
theorem Dev.mkWrite_arms_parts {d : Dev} {g w : Nat} (hw : w % 4 ≠ 0) : d.keepsBut [.regs, .tms] (d.mkWrite g w) := by
  have k := keepsBut_keeps [.regs, .tms] d
  rw [Dev.mkWrite_arms hw]
  exact Dev.mkArm_keeps (k.mono rfl) (Dev.wr_keeps (k.mono rfl) (keepsBut_refl _ d))

/-- Settles O15: MODE set ahead of and behind the last mark emitted, OFF without and with a mark due, and the other parameters. -/
theorem markWrites : Obligations.MarkWrites := by
  intro s o g r v hp hc a gen logs
  refine ⟨?_, fun q hq hm hf => ?_⟩
  · intro hm hf w
    have write : ∀ {i : Instr} {P : Dev → Prop}, liveTarget i = some (o, a, v.toNat) →
        (∀ e, (s.dev.mkWrite g.val w).regsBut lossRegs e → (s.dev.mkWrite g.val w).keepsBut [.regs, .log] e → P e) → Gives i s P :=
      fun hi h => gives_markWrite hp hc hi hm hf (by rw [Dev.tmsWrite_mkCtl]; exact h)
    have shown : ∀ {e : Dev} {b : Nat}, (s.dev.mkWrite g.val w).regsBut lossRegs e → b ∈ markShows g.val →
        e.rd b = (s.dev.mkWrite g.val w).rd b := fun hr hb => hr _ (markShows_not_mem_lossRegs hb)
    have record : ∀ {e : Dev}, (s.dev.mkWrite g.val w).keepsBut [.regs, .log] e → e.gen g.val = (s.dev.mkWrite g.val w).gen g.val :=
      fun hk => Dev.gen_of_tms (hk .tms rfl) _
    have parts : ∀ {e : Dev}, s.dev.keepsBut [.regs, .tms] (s.dev.mkWrite g.val w) →
        (s.dev.mkWrite g.val w).keepsBut [.regs, .log] e → s.dev.keepsBut [.regs, .log, .tms] e := fun h hk =>
      (h.mono rfl).trans (hk.mono rfl)
    refine ⟨fun hw hl => write rfl fun e hr hk => ?_, fun t hw hl ht => write rfl fun e hr hk => ?_,
      fun hw h => write rfl fun e hr hk => ?_, fun hw ha ht => write rfl fun e hr hk => ?_⟩
    · obtain ⟨hgen, hword, hzero, hregs⟩ := Dev.mkWrite_ahead_spec hw hl
      exact ⟨(record hk).trans hgen, (shown hr (by simp [markShows, a])).trans hword, (shown hr (by simp [markShows])).trans hzero,
        hregs.append hr, parts (Dev.mkWrite_arms_parts hw) hk⟩
    · obtain ⟨hgen, hcount, hregs⟩ := Dev.mkWrite_behind_spec hw hl ht rfl
      exact ⟨(record hk).trans hgen, (shown hr (by simp [markShows])).trans hcount, hregs.append hr,
        parts (Dev.mkWrite_arms_parts (by omega)) hk⟩
    · obtain ⟨hgen, hword, hregs, hparts⟩ := Dev.mkWrite_idle_spec hw h
      exact ⟨(record hk).trans hgen, (shown hr (by simp [markShows, a])).trans hword, hregs.append hr, parts hparts hk⟩
    · obtain ⟨harmed, hlast, hword, hcount, hout, hregs⟩ := Dev.mkWrite_due_spec hw ha ht
      have hparts := Dev.mkWrite_keeps (g := g.val) (v := w) ((keepsBut_keeps [.regs, .log, .outbox, .tms] s.dev).mono rfl)
        (keepsBut_refl _ _)
      rw [record hk]
      exact ⟨harmed, hlast, (shown hr (by simp [markShows, a])).trans hword, (shown hr (by simp [markShows])).trans hcount,
        fun hpin => (hk .outbox rfl).trans (hout hpin), hregs.append hr, hparts.trans (hk.mono rfl)⟩
  · have haddr : Reg.mkCtl 0 ≤ markAddr g.val q := by
      cases q <;> simp only [markAddr, Reg.mkStart0, Reg.mkStart1, Reg.mkStart2, Reg.mkPeriod, Reg.mkPfrac, Reg.mkWidth,
        Reg.mkCount, Reg.mkCtl] <;> omega
    refine gives_markWrite hp hc rfl hm hf fun e hr hk => ?_
    rw [Dev.tmsWrite_markParam _ _ hq] at hr hk
    obtain ⟨hregs, hparts⟩ := Dev.wr_frame s.dev (markAddr g.val q) (s.dev.liveWord r (markAddr g.val q) v.toNat)
    refine ⟨(hr _ (mark_not_mem_lossRegs haddr)).trans (Dev.rd_wr_same ..), hregs.append hr,
      (hparts.mono rfl).trans hk⟩

end Sys2Proof.Machine
end

section
/-!
Marks as time passes (R324, R340, R343, R347 to R349): an accepted jump at its time, marks, their blocks and the ends of their pulses.
-/

namespace Sys2Proof.Machine

open Sys2Proof

/-! The commands of this part, each the operation it runs on a live device with its time unit fitted. -/

theorem exec_jumpStep (s : State) : exec .jumpStep s = s.timed fun d => d.jumpNow := rfl

theorem exec_mark (s : State) (g : Fin 16) : exec (.mark g) s = s.timed fun d => d.markDue g.val := rfl

theorem exec_markBlock (s : State) (g : Fin 16) : exec (.markBlock g) s = s.timed fun d => d.markBlocks g.val := rfl

theorem exec_tmarkWidthEnd (s : State) (g : Fin 16) : exec (.tmarkWidthEnd g) s = s.timed fun d => d.markIdle g.val := rfl

/-! A step of the counter (R340, R352) -/

/-- What the mark generators leave alone: the registers below theirs, the counter, and the writes that wait in PAUSED. -/
def Dev.marksFrame (d e : Dev) : Prop :=
  (∀ a, a < Reg.mkCtl 0 → e.rd a = d.rd a) ∧ e.tms.ctr = d.tms.ctr ∧ e.tms.paused = d.tms.paused

theorem lt_mkCtl_not_mem_markShows {a : Nat} (h : a < Reg.mkCtl 0) (g : Nat) : a ∉ markShows g := by
  simp only [markShows, List.mem_cons, List.not_mem_nil, or_false, Reg.mkCtl, Reg.mkEmitted, Reg.mkSkipped, Reg.mkNext] at h ⊢
  omega

section
variable {d e f : Dev}

theorem Dev.marksFrame_refl (d : Dev) : d.marksFrame d := ⟨fun _ _ => rfl, rfl, rfl⟩

theorem Dev.marksFrame.trans (h : d.marksFrame e) (h' : e.marksFrame f) : d.marksFrame f := by
  obtain ⟨hrd, hctr, hpaused⟩ := h
  obtain ⟨hrd', hctr', hpaused'⟩ := h'
  exact ⟨fun a ha => (hrd' a ha).trans (hrd a ha), hctr'.trans hctr, hpaused'.trans hpaused⟩

/-- Registers that show a generator, with the counter and the waiting writes kept. -/
theorem Dev.regsBut.marksFrame {g : Nat} (h : d.regsBut (markShows g) e) (hctr : e.tms.ctr = d.tms.ctr)
    (hpaused : e.tms.paused = d.tms.paused) : d.marksFrame e :=
  ⟨fun _ ha => h _ (lt_mkCtl_not_mem_markShows ha g), hctr, hpaused⟩

end

theorem Dev.setSrc_marksFrame (d : Dev) (k : Nat) (r : SrcRec) : d.marksFrame (d.setSrc k r) := ⟨fun _ _ => rfl, rfl, rfl⟩

theorem Dev.emitMark_marksFrame (d : Dev) (g : Nat) : d.marksFrame (d.emitMark g) := by
  obtain ⟨pulse, he⟩ := d.emitMark_eq g
  have htms : (d.emitMark g).tms = _ := he ▸ (Dev.markEnded_parts _ g _) .tms rfl
  have hshown := d.markShown_tms g
  refine (d.emitMark_shows g).marksFrame ?_ ?_ <;>
  · rw [htms]
    simp only [Dev.setGen, hshown]

theorem Dev.markDue_marksFrame (d : Dev) (g : Nat) : d.marksFrame (d.markDue g) := by
  unfold Dev.markDue
  dsimp only
  split
  · exact d.emitMark_marksFrame g
  · exact d.marksFrame_refl

theorem Dev.marksDue_marksFrame (d : Dev) (g : Nat) : d.marksFrame (d.marksDue g) := by
  unfold Dev.marksDue
  dsimp only
  split
  · exact foldl_keeps (P := d.marksFrame) (fun e _ h => h.trans (e.markDue_marksFrame g)) d.marksFrame_refl
  · exact d.marksFrame_refl

theorem Dev.skipMarks_marksFrame (d : Dev) (g n : Nat) : d.marksFrame (d.skipMarks g n) := by
  have hclock : (d.skipMarks g n).tms.ctr = d.tms.ctr ∧ (d.skipMarks g n).tms.paused = d.tms.paused := by
    unfold Dev.skipMarks
    extract_lets r total n e fin f
    split <;> exact ⟨rfl, rfl⟩
  exact (d.skipMarks_regsBut g n).marksFrame hclock.1 hclock.2

theorem Dev.mkPass_marksFrame (d : Dev) (t0 t1 g : Nat) : d.marksFrame (d.mkPass t0 t1 g) := by
  unfold Dev.mkPass
  extract_lets r e next per
  have he : d.marksFrame e := ⟨fun _ _ => rfl, rfl, rfl⟩
  split
  · exact he.trans (e.skipMarks_marksFrame g _)
  · exact he

theorem Dev.dropOutliers_marksFrame (d : Dev) : d.marksFrame d.dropOutliers :=
  foldl_keeps (P := d.marksFrame) (fun e _ h => h.trans (e.setSrc_marksFrame _ _)) d.marksFrame_refl

/-- The counter set to source time, and nothing else of the frame. -/
theorem Dev.moveCounter_spec (d : Dev) (theta : Rat) :
    (∀ a, a < Reg.mkCtl 0 → (d.moveCounter theta).rd a = d.rd a) ∧
      (d.moveCounter theta).tms.ctr = (Int.ofNat d.tms.ctr - (theta * 2 ^ 24).floor).toNat ∧
      (d.moveCounter theta).tms.paused = d.tms.paused := by
  unfold Dev.moveCounter
  extract_lets c t e
  obtain ⟨hrd, -, hpaused⟩ : d.marksFrame e :=
    foldl_keeps (P := d.marksFrame) (fun e _ h => h.trans (e.setSrc_marksFrame _ _)) d.marksFrame_refl
  exact ⟨hrd, rfl, hpaused⟩

theorem Dev.stepCounter_spec (d : Dev) (theta : Rat) :
    (∀ a, a < Reg.mkCtl 0 → (d.stepCounter theta).rd a = d.rd a) ∧
      (d.stepCounter theta).tms.ctr = (Int.ofNat d.tms.ctr - (theta * 2 ^ 24).floor).toNat ∧
      (d.stepCounter theta).tms.paused = d.tms.paused := by
  unfold Dev.stepCounter
  extract_lets f e
  obtain ⟨hrd, hctr, hpaused⟩ : d.marksFrame f :=
    foldl_keeps (P := d.marksFrame) (fun e g h => h.trans (e.marksDue_marksFrame g)) d.marksFrame_refl
  obtain ⟨hrd', hctr', hpaused'⟩ := f.moveCounter_spec theta
  obtain ⟨hrd'', hctr'', hpaused''⟩ : (f.moveCounter theta).marksFrame
      ((List.range 16).foldl (fun x g => x.mkPass f.net16 e.net16 g) e) :=
    foldl_keeps (P := (f.moveCounter theta).marksFrame) (fun x g h => h.trans (x.mkPass_marksFrame _ _ g))
      (Dev.dropOutliers_marksFrame _)
  refine ⟨fun a ha => ?_, ?_, ?_⟩
  · rw [hrd'' a ha, hrd' a ha, hrd a ha]
  · rw [hctr'', hctr', hctr]
  · rw [hpaused'', hpaused', hpaused]

/-! An accepted jump (Table 9.5, steps 4 and 5) -/

/-- HOLDOVER changes neither the counter, nor the writes that wait in PAUSED. -/
theorem Dev.enterHoldover_clock (d : Dev) :
    d.enterHoldover.tms.ctr = d.tms.ctr ∧ d.enterHoldover.tms.paused = d.tms.paused := by
  have hround := fun q => d.roundOpen_tms q
  unfold Dev.enterHoldover Dev.setY Dev.setTimeState
  dsimp only [Dev.setFld_tms, Dev.wr_tms]
  simp only [hround, and_self]

/-- A jump's step taken: ACQUIRE, and the jump counted. -/
def Dev.jumpLanded (d : Dev) : Dev := d.enterAcquire.count Reg.tmsJumpsApplied

/-- A jump applied and logged: HOLDOVER with no source. -/
def Dev.jumpApplied (d : Dev) (theta : Rat) : Dev :=
  let e := (d.stepCounter theta).jumpLanded.logInternal Reg.tmsJump 0 (lowBits 32 (-(wholeNs theta))) .ok
  if e.source = 0 then e.enterHoldover else e

theorem Dev.jumpLanded_spec (d : Dev) :
    d.jumpLanded.tms.ctr = d.tms.ctr ∧ d.jumpLanded.tms.paused = d.tms.paused ∧ d.jumpLanded.log = d.log ∧
      d.jumpLanded.timeState = tsAcquire ∧ d.jumpLanded.source = d.source ∧
      d.jumpLanded.rd Reg.tmsJumpsApplied = satInc 32 1 (d.rd Reg.tmsJumpsApplied) := by
  have hstat : d.jumpLanded.rd Reg.tmsStat = d.enterAcquire.rd Reg.tmsStat := Dev.rd_count_ne _ (by decide)
  refine ⟨rfl, rfl, rfl, ?_, ?_, (Dev.rd_count ..).trans (congrArg _ (Dev.rd_setFld_ne _ _ _ (by decide)))⟩
  · exact (congrArg (bitsOf · 0 3) hstat).trans (Dev.fld_setFld_same _ Reg.tmsStat ⟨0, 3⟩ tsAcquire (by decide))
  · exact (Dev.fld_of_rd hstat _).trans (Dev.fld_setFld_fld _ _ _ _ _ (by decide) (by decide))

theorem Dev.jumpApplied_spec (d : Dev) (theta : Rat) :
    (d.jumpApplied theta).tms.ctr = (Int.ofNat d.tms.ctr - (theta * 2 ^ 24).floor).toNat ∧
      (d.jumpApplied theta).tms.paused = d.tms.paused ∧
      d.log.gains (d.jumpApplied theta).log (internalOrigin Reg.tmsJump) Reg.tmsJump 0 (lowBits 32 (-(wholeNs theta))) .ok ∧
      (d.jumpApplied theta).timeState = (if d.source = 0 then tsHoldover else tsAcquire) ∧
      (d.jumpApplied theta).rd Reg.tmsJumpsApplied = satInc 32 1 (d.rd Reg.tmsJumpsApplied) := by
  obtain ⟨hstep, hctr, hpaused⟩ := d.stepCounter_spec theta
  have hlog : (d.stepCounter theta).log = d.log :=
    Dev.stepCounter_keeps (P := fun e => e.log = d.log) (Part.same_keeps .log rfl) rfl
  have hsource : (d.stepCounter theta).source = d.source := Dev.fld_of_rd (hstep Reg.tmsStat (by decide)) _
  have hcount := hstep Reg.tmsJumpsApplied (by decide)
  unfold Dev.jumpApplied
  rw [← hctr, ← hpaused, ← hlog, ← hsource, ← hcount]
  generalize d.stepCounter theta = x
  obtain ⟨hctr, hpaused, hlog, hstate, hsource, hcount⟩ := x.jumpLanded_spec
  rw [← hctr, ← hpaused, ← hlog, ← hsource, ← hcount]
  generalize x.jumpLanded = y at hstate ⊢
  extract_lets e
  have hgains : y.log.gains e.log _ _ _ _ _ := y.logInternal_gains Reg.tmsJump 0 (lowBits 32 (-(wholeNs theta))) .ok
  have htms : e.tms = y.tms := Dev.logInternal_tms ..
  have hrd : ∀ {a}, a ≠ Reg.logLost → a ≠ Reg.logMirrorLost → e.rd a = y.rd a := Dev.logInternal_rd y _ _ _ _
  have hstat : e.rd Reg.tmsStat = y.rd Reg.tmsStat := hrd (by decide) (by decide)
  have happlied : e.rd Reg.tmsJumpsApplied = y.rd Reg.tmsJumpsApplied := hrd (by decide) (by decide)
  have hstate' : e.timeState = tsAcquire := (congrArg (bitsOf · 0 3) hstat).trans hstate
  have hsource' : e.source = y.source := Dev.fld_of_rd hstat _
  clear_value e
  rw [← htms, ← happlied, ← hsource']
  split
  · have hheld : e.enterHoldover.log = e.log :=
      Dev.enterHoldover_keeps (P := fun z => z.log = e.log) (Part.same_keeps .log rfl) rfl
    rw [hheld]
    exact ⟨e.enterHoldover_clock.1, e.enterHoldover_clock.2, hgains, e.enterHoldover_timeState,
      e.enterHoldover_rd (by decide) (by decide)⟩
  · exact ⟨rfl, rfl, hgains, hstate', rfl⟩

theorem Dev.jumpNow_idle {d : Dev} (h : ∀ j, d.tms.jump = some j → d.netNs < j.tS) : d.jumpNow = d := by
  unfold Dev.jumpNow Dev.applyJump
  cases hj : d.tms.jump with
  | none => simp
  | some j => simp [h j hj, hj]

/-- The jump is over and no write waits: the time service has neither, and the Screed its state scr. -/
def Dev.jumpCleared (d : Dev) (scr : ScrSt) : Dev :=
  { d with scr := scr, tms := { d.tms with jump := none, paused := [] } }

/-- A jump at its time, with no write waiting. -/
theorem Dev.applyJump_due {d : Dev} {j : Jump} {x : Rat} (hj : d.tms.jump = some j) (ht : j.tS ≤ d.netNs)
    (hx : d.tms.lastTheta = some x) (hp : d.tms.paused = []) : ∃ scr, d.applyJump = (d.jumpApplied x).jumpCleared scr := by
  obtain ⟨-, hpaused, -⟩ := d.jumpApplied_spec x
  unfold Dev.applyJump
  rw [hj]
  show ∃ scr, (if d.netNs < j.tS then d else _) = _
  rw [if_neg (Nat.not_lt.mpr ht), hx]
  extract_lets theta before stepped after logged applied first nLast skips waiting scr tms cleared written
  have happlied : applied = d.jumpApplied x := rfl
  have hwaiting : waiting = [] := by
    show applied.tms.paused.reverse = []
    rw [happlied, hpaused, hp]
    rfl
  have hwritten : written = cleared := congrArg (List.foldl _ cleared) hwaiting
  rw [hwritten, ← happlied]
  clear_value applied
  exact ⟨_, rfl⟩

/-- The instants of ring rows begin afresh with the step. -/
theorem Dev.jumpNow_due {d : Dev} {j : Jump} {x : Rat} (hj : d.tms.jump = some j) (ht : j.tS ≤ d.netNs)
    (hx : d.tms.lastTheta = some x) (hp : d.tms.paused = []) : ∃ scr, d.jumpNow = ((d.jumpApplied x).jumpCleared scr).rephase := by
  obtain ⟨scr, happly⟩ := Dev.applyJump_due hj ht hx hp
  refine ⟨scr, ?_⟩
  unfold Dev.jumpNow
  rw [happly, hj]
  rfl

/-! Blocks of marks (R349) -/

/-- A mark's block on the only lane of LANES. -/
theorem Dev.markBlocks_one {d : Dev} {g : Nat} {i : Fin 64} (hl : d.mkLanes g = 2 ^ i.val)
    (hm : (d.gen g).armed = true ∧ (d.gen g).mode = 3 ∨ (d.gen g).kSent < (d.gen g).k)
    (ht : d.markTime g (d.gen g).kSent ≤ d.net16 + d.fld (Reg.mkLead g) Fld.mkLeadLeadNs * 65536) :
    d.markBlocks g = (d.sendPort (8 + i.val) 0x20 (fullTime (d.markTime g (d.gen g).kSent) * 2 ^ 24 +
      (d.gen g).kSent % 256 * 2 ^ 16 + g * 2 ^ 12 + d.fld (Reg.mkCtl g) Fld.mkCtlAction)).setGen g
        { d.gen g with kSent := (d.gen g).kSent + 1 } := by
  have hmore : ((d.gen g).armed && (decide ((d.gen g).mode = 3) || decide ((d.gen g).mode = 1 ∧ (d.gen g).kSent = 0) ||
      decide ((d.gen g).mode = 2 ∧ (d.gen g).kSent < d.rd (Reg.mkCount g)))) = true ∨ (d.gen g).kSent < (d.gen g).k :=
    hm.imp_left fun ⟨harmed, hmode⟩ => by simp [harmed, hmode]
  unfold Dev.markBlocks
  dsimp only
  rw [if_pos ⟨hmore, ht⟩, hl, foldl_one (fun e k hk => if_neg (by rw [bitAt_pow _ _ hk]; decide)) 64 d i.isLt,
    if_pos (bitAt_pow_same _), Dev.gen_of_tms (Dev.sendPort_tms ..)]

/-- TMS ports 8 to 71 are the ingest lanes. -/
theorem Dev.portLane_ingest (d : Dev) (i : Fin 64) : d.portLane (8 + i.val) = some (ingestLane i) := by
  unfold Dev.portLane
  rw [if_neg (by omega), if_neg (by omega), dif_pos (by omega)]
  exact congrArg some (Fin.ext (Nat.add_sub_cancel_left ..))

/-! The end of a pulse (R348) -/

theorem Dev.markIdle_early {d : Dev} {g t : Nat} (hp : (d.gen g).pulseEnd = some t) (ht : d.net16 < t) : d.markIdle g = d := by
  unfold Dev.markIdle
  rw [hp]
  exact if_neg (Nat.not_le.mpr ht)

theorem Dev.markIdle_due {d : Dev} {g t : Nat} (hp : (d.gen g).pulseEnd = some t) (ht : t ≤ d.net16) :
    d.markIdle g = (d.setGen g { d.gen g with pulseEnd := none }).emit
      (.tmarkEdge g (d.flag (Reg.mkCtl g) Fld.mkCtlInvert) t) := by
  unfold Dev.markIdle
  rw [hp]
  exact if_pos ht

/-- Settles O46: a jump before and at its time, a mark, its block, and the end of its pulse. -/
theorem marks : Obligations.Marks := by
  refine ⟨fun s ha hf => gives_timed (exec_jumpStep s) ha hf ⟨Dev.jumpNow_idle, fun j x hj ht hx hp => ?_,
      Dev.jumpNow_keeps (keepsBut_keeps _ _) (keepsBut_refl _ _)⟩,
    fun s g ha hf => gives_timed (exec_mark s g) ha hf ⟨Dev.markDue_idle, fun harmed ht => ?_,
      Dev.markDue_keeps (keepsBut_keeps _ _) (keepsBut_refl _ _)⟩,
    fun s g i ha hf hl hs hm ht => gives_timed (exec_markBlock s g) ha hf ?_,
    fun s g t ha hf hp => gives_timed (exec_tmarkWidthEnd s g) ha hf ⟨Dev.markIdle_early hp, fun ht => ?_,
      Dev.markIdle_keeps (keepsBut_keeps _ _) (keepsBut_refl _ _)⟩⟩
  · obtain ⟨scr, hjump⟩ := Dev.jumpNow_due hj ht hx hp
    obtain ⟨hctr, -, hlog, hstate, hcount⟩ := s.dev.jumpApplied_spec x
    have hparts : ((s.dev.jumpApplied x).jumpCleared scr).keepsBut [.acq] s.dev.jumpNow :=
      hjump ▸ Dev.rephase_keeps (keepsBut_keeps _ _) (keepsBut_refl _ _)
    have hrd : ∀ a, s.dev.jumpNow.rd a = (s.dev.jumpApplied x).rd a := Dev.rd_of_regs (hparts .regs rfl)
    rw [hparts .tms rfl, hparts .log rfl, hrd]
    exact ⟨rfl, rfl, hctr, hlog, (congrArg (bitsOf · 0 3) (hrd _)).trans hstate, hcount⟩
  · obtain ⟨⟨pulse, hgen⟩, hemitted, hnext, hoff, hout, -⟩ := s.dev.emitMark_spec g.val
    rw [Dev.markDue_due harmed ht, hgen]
    exact ⟨hemitted, hnext, rfl, rfl, rfl, hoff, hout⟩
  · have hparts := Dev.markBlocks_keeps (g := g.val) (keepsBut_keeps _ _) (keepsBut_refl [.outbox, .ing, .tms] s.dev)
    rw [Dev.markBlocks_one hl hm ht] at hparts ⊢
    exact ⟨by rw [Dev.setGen_gen], Dev.sendPort_out _ (s.dev.portLane_ingest i) hs, hparts⟩
  · rw [Dev.markIdle_due hp ht]
    exact ⟨congrArg GenRec.pulseEnd (Dev.setGen_gen ..), rfl⟩

end Sys2Proof.Machine
end

section
/-!
PTP messages at the Ethernet port (R325, R327, R331): the choice of a time transmitter, Syncs, and delay exchanges.
-/

namespace Sys2Proof.Machine

open Sys2Proof

/-! The commands of this part, each the operation it runs on a live device with its time unit fitted. -/

theorem exec_announce (s : State) (a : AnnounceMsg) : exec (.announce a) s = s.timed fun d => d.announceRx a := rfl

theorem exec_announceTimeout (s : State) (tie : Bool) : exec (.announceTimeout tie) s = s.timed fun d => d.announceExpire tie := rfl

theorem exec_sync (s : State) (m : SyncMsg) : exec (.sync m) s = s.timed fun d => d.ptpSync m := rfl

theorem exec_delayReq (s : State) (t3 : Nat) : exec (.delayReq t3) s = s.timed fun d => d.sendDelayReq t3 := rfl

theorem exec_delayResp (s : State) (domain : Byte) (seq : BitVec 16) (t4 : Int) : exec (.delayResp domain seq t4) s = s.timed fun d =>
    if d.tms.ethUp && decide (domain.toNat = d.fld Reg.tmsCfg Fld.tmsCfgDomain) then d.exchange 1 seq.toNat t4 else d := rfl

theorem Dev.src_of_tms {d e : Dev} (h : e.tms = d.tms) (k : Nat) : e.src k = d.src k := by
  unfold Dev.src
  rw [h]

/-- What a source says of itself outlives what leaves its claims. -/
theorem SrcRec.qualified_of_claims {r r' : SrcRec} (h : r.claims = r'.claims) : r.qualified = r'.qualified :=
  congrArg Prod.fst h

theorem SrcRec.expired_of_claims {r r' : SrcRec} (h : r.claims = r'.claims) : r.expired = r'.expired :=
  congrArg (·.2.1) h

theorem SrcRec.heardAt_of_claims {r r' : SrcRec} (h : r.claims = r'.claims) : r.heardAt = r'.heardAt :=
  congrArg (·.2.2.1) h

/-! The choice of a time transmitter (R327) -/

/-- With a time transmitter heard there is a best one. -/
theorem bestMaster_append_ne_none (fs : List Foreign) (f : Foreign) : bestMaster (fs ++ [f]) ≠ none := by
  unfold bestMaster
  rw [List.foldl_append, List.foldl_cons, List.foldl_nil]
  split
  · split <;> exact Option.some_ne_none _
  · exact Option.some_ne_none _

theorem Dev.newTransmitter_foreign (d : Dev) : d.newTransmitter.tms.foreign = d.tms.foreign := by
  show (d.countIf (decide (d.source = 1)) Reg.tmsSrcLoss).tms.foreign = _
  rw [Dev.countIf_tms]

/-- The best time transmitter is chosen and qualifies the Ethernet port; without one the port does not qualify. -/
theorem Dev.chooseMaster_spec (d : Dev) :
    d.chooseMaster.tms.foreign = d.tms.foreign ∧
      d.chooseMaster.tms.chosen = (bestMaster d.tms.foreign).map (fun f => f.msg.sender) ∧
      (d.chooseMaster.src 1).qualified = (bestMaster d.tms.foreign).isSome := by
  unfold Dev.chooseMaster
  cases bestMaster d.tms.foreign with
  | none =>
    dsimp only
    obtain ⟨-, hforeign, hchosen, -, hclaims⟩ := Dev.selectSource_timeFrame
      (({ d with tms := { d.tms with chosen := none } } : Dev).setSrc 1 { d.src 1 with qualified := false, expired := true })
    refine ⟨hforeign, hchosen, (SrcRec.qualified_of_claims (hclaims 1)).trans ?_⟩
    rw [Dev.setSrc_src]
    rfl
  | some f =>
    dsimp -zeta only [Option.map_some, Option.isSome_some]
    extract_lets m x tms y old z shown
    have hx : x.tms.foreign = d.tms.foreign := by
      show (if _ then d.newTransmitter else d).tms.foreign = _
      split
      · exact d.newTransmitter_foreign
      · rfl
    have hz : z.timeFrame (if shown.source = 1 then shown.showSource 1 else shown) := by
      refine z.selectSource_timeFrame.trans ?_
      split
      · exact Dev.timeFrame_of_tms (Dev.showSource_tms ..)
      · exact Dev.timeFrame_refl _
    obtain ⟨-, hforeign, hchosen, -, hclaims⟩ := hz
    refine ⟨hforeign.trans hx, hchosen, (SrcRec.qualified_of_claims (hclaims 1)).trans ?_⟩
    rw [Dev.setSrc_src]

/-- An Announce of the domain is held with those that are not timed out, and the choice made again. -/
theorem Dev.announceRx_heard {d : Dev} {a : AnnounceMsg} (hup : d.tms.ethUp = true)
    (hdom : a.domain.toNat = d.fld Reg.tmsCfg Fld.tmsCfgDomain) {others : List Foreign}
    (hothers : others = d.tms.foreign.filter fun f =>
      decide (f.msg.sender ≠ a.sender) && decide (d.devNs < f.heardAt + d.announceLimit f))
    (hroom : others.length < 8) : ∃ e : Dev, d.announceRx a = e.chooseMaster ∧ e.tms.foreign = others ++ [⟨a, d.devNs⟩] := by
  have hns : (d.countIf (d.src 1).expired Reg.tmsLateArrival).devNs = d.devNs := Dev.countIf_devNs ..
  unfold Dev.announceRx
  rw [if_pos (by simp [hup, hdom]), ← hothers, if_pos hroom, ← hns]
  exact ⟨_, rfl, rfl⟩

/-- The chosen time transmitter times out: those that are not timed out stay, and the choice is made again. -/
theorem Dev.announceExpire_due {d : Dev} {f : Foreign}
    (hf : (d.tms.foreign.find? fun f => some f.msg.sender = d.tms.chosen) = some f) (ht : f.heardAt + d.announceLimit f ≤ d.devNs) :
    ∃ e : Dev, d.announceExpire false = e.chooseMaster ∧
      e.tms.foreign = d.tms.foreign.filter fun g => decide (d.devNs < g.heardAt + d.announceLimit g) := by
  unfold Dev.announceExpire
  rw [hf]
  exact ⟨_, (if_neg Bool.false_ne_true).trans (if_pos ht), rfl⟩

/-! A Sync and its two times (R331) -/

section
variable {d : Dev} {k : Nat} {t1 t2 : Int}

/-- The Sync is kept; without a delay, or on a source that is not in use, nothing is measured. -/
theorem Dev.syncDone_kept (h : (d.src k).delay = none ∨ d.source ≠ k) :
    d.syncDone k t1 t2 = d.setSrc k { d.src k with sync := some ⟨t1, t2⟩ } := by
  unfold Dev.syncDone
  dsimp only
  rw [Dev.setSrc_src]
  dsimp only
  split
  · next hd =>
    refine if_neg fun hs => ?_
    rcases h with h | h
    · rw [h] at hd
      cases hd
    · exact h hs
  · rfl

/-- On the source in use it gives the offset. -/
theorem Dev.syncDone_measured {dl : Rat} (hd : (d.src k).delay = some dl) (hs : d.source = k) :
    d.syncDone k t1 t2 = (d.setSrc k { d.src k with sync := some ⟨t1, t2⟩ }).measurement k
      ((t2 - t1 : Int) - dl - (d.asym (srcPort k) : Rat)) t1 := by
  unfold Dev.syncDone
  dsimp only
  rw [Dev.setSrc_src]
  dsimp only
  rw [hd]
  exact if_pos hs

/-- A Sync leaves what the sources say of themselves. -/
theorem Dev.syncDone_claims (d : Dev) (k : Nat) (t1 t2 : Int) (j : Nat) :
    ((d.syncDone k t1 t2).src j).claims = (d.src j).claims := by
  obtain ⟨-, -, -, -, hkept⟩ := d.setSrc_timeFrame k { d.src k with sync := some ⟨t1, t2⟩ } rfl
  by_cases h : (d.src k).delay = none ∨ d.source ≠ k
  · rw [Dev.syncDone_kept h]
    exact hkept j
  · obtain ⟨hdelay, hsource⟩ := not_or.mp h
    obtain ⟨dl, hdl⟩ := Option.ne_none_iff_exists'.mp hdelay
    rw [Dev.syncDone_measured hdl (not_not.mp hsource)]
    obtain ⟨-, -, -, -, hmeasured⟩ := (d.setSrc k { d.src k with sync := some ⟨t1, t2⟩ }).measurement_timeFrame k
      ((t2 - t1 : Int) - dl - (d.asym (srcPort k) : Rat)) t1
    exact (hmeasured j).trans (hkept j)

/-! Requests that wait for the Follow_Up of their Sync (log entry 79) -/

variable {q : DelayReq}

theorem Dev.syncLost_none (h : ∀ q, (d.src k).req = some q → q.pending = none) : d.syncLost k = d := by
  unfold Dev.syncLost
  split
  · next q hq =>
    rw [h q hq]
    rfl
  · rfl

theorem Dev.syncLost_waiting (hq : (d.src k).req = some q) (hp : q.pending ≠ none) (ht : q.t4 = none) :
    d.syncLost k = d.setSrc k { d.src k with req := some { q with pending := none } } := by
  unfold Dev.syncLost
  rw [hq]
  dsimp only
  rw [if_pos (Option.isSome_iff_ne_none.mpr hp), ht]

variable {seq : BitVec 16} {x : SyncRec}

theorem Dev.syncResolved_none (h : ∀ q, (d.src k).req = some q → q.pending = none) : d.syncResolved k seq x = d := by
  unfold Dev.syncResolved
  split
  · next q hq =>
    rw [h q hq]
    rfl
  · rfl

theorem Dev.syncResolved_waiting (hq : (d.src k).req = some q) (hp : q.pending = some seq) (ht : q.t4 = none) :
    d.syncResolved k seq x = d.setSrc k { d.src k with req := some { q with sync := some x, pending := none } } := by
  unfold Dev.syncResolved
  rw [hq]
  dsimp only
  rw [if_pos hp, ht]

theorem Dev.syncResolved_answered {t4 : Int} (hq : (d.src k).req = some q) (hp : q.pending = some seq) (ht : q.t4 = some t4) :
    d.syncResolved k seq x = d.takeDelay k { q with sync := some x, pending := none } t4 := by
  unfold Dev.syncResolved
  rw [hq]
  dsimp only
  rw [if_pos hp, ht]

/-- A delay taken shows in TMS_DELAY alone. -/
theorem Dev.takeDelay_source (d : Dev) (k : Nat) (q : DelayReq) (t4 : Int) : (d.takeDelay k q t4).source = d.source := by
  have hshow : ∀ (e : Dev) (dl : Rat), (e.showDelay k dl).rd Reg.tmsStat = e.rd Reg.tmsStat := fun e dl => by
    have hround := Dev.rd_of_regs (e.roundOpen_regs dl) Reg.tmsStat
    unfold Dev.showDelay
    dsimp only
    split
    · exact (Dev.rd_wr_ne _ _ (by decide)).trans hround
    · exact hround
  refine Dev.fld_of_rd ?_ _
  unfold Dev.takeDelay
  split
  · exact hshow _ _
  · rfl

/-- An answer that comes before the Follow_Up is held. -/
theorem Dev.exchange_waiting {n : Nat} {t4 : Int} (hq : (d.src k).req = some q) (hn : q.seq = n) (ht : q.t4 = none)
    (hp : q.pending ≠ none) : d.exchange k n t4 = d.setSrc k { d.src k with req := some { q with t4 := some t4 } } := by
  unfold Dev.exchange
  rw [hq]
  dsimp only
  rw [if_pos ⟨hn, ht⟩, if_pos (Option.isSome_iff_ne_none.mpr hp)]

end

/-! Sync messages (R331) -/

/-- A Sync comes: it sets the interval, and a request no longer waits for the Follow_Up of the one before. -/
def Dev.newSync (d : Dev) (m : SyncMsg) : Dev := (d.setSrc 1 { d.src 1 with logSync := m.logSync }).syncLost 1

/-- The port waits for the Follow_Up that w names, or for none. -/
def Dev.setTwoStep (d : Dev) (w : Option TwoStep) : Dev := { d with tms := { d.tms with twoStep := w } }

section
variable {d : Dev} {m : SyncMsg}

theorem Dev.newSync_kept (h : ∀ q, (d.src 1).req = some q → q.pending = none) :
    d.newSync m = d.setSrc 1 { d.src 1 with logSync := m.logSync } :=
  Dev.syncLost_none fun q hq => h q (by rwa [Dev.setSrc_src] at hq)

theorem Dev.newSync_waiting {q : DelayReq} (hq : (d.src 1).req = some q) (hp : q.pending ≠ none) (ht : q.t4 = none) :
    ((d.newSync m).src 1).req = some { q with pending := none } := by
  unfold Dev.newSync
  rw [Dev.syncLost_waiting (q := q) (by rwa [Dev.setSrc_src]) hp ht, Dev.setSrc_src]

variable (hup : d.tms.ethUp = true) (hdom : m.domain.toNat = d.fld Reg.tmsCfg Fld.tmsCfgDomain) (hsender : d.tms.chosen = some m.sender)
include hup hdom hsender

theorem Dev.ptpSync_twoStep (hf : m.followUp = false) (ht : m.twoStep = true) :
    d.ptpSync m = (d.newSync m).setTwoStep (some ⟨m.seq, m.rxTime, m.correction⟩) := by
  unfold Dev.ptpSync
  rw [if_pos (by simp [hup, hdom, hsender]), if_neg (by simp [hf])]
  exact if_pos ht

theorem Dev.ptpSync_oneStep (hf : m.followUp = false) (ht : m.twoStep = false) :
    d.ptpSync m = ((d.newSync m).setTwoStep none).syncDone 1 (m.origin + m.correction) (Int.ofNat m.rxTime) := by
  unfold Dev.ptpSync
  rw [if_pos (by simp [hup, hdom, hsender]), if_neg (by simp [hf])]
  exact if_neg (by simp [ht])

theorem Dev.ptpSync_followUp {w : TwoStep} (hf : m.followUp = true) (hw : d.tms.twoStep = some w) (hseq : w.seq = m.seq) :
    d.ptpSync m = ((d.setTwoStep none).syncResolved 1 m.seq ⟨m.origin + m.correction + w.correction, Int.ofNat w.rx⟩).syncDone 1
      (m.origin + m.correction + w.correction) (Int.ofNat w.rx) := by
  unfold Dev.ptpSync
  rw [if_pos (by simp [hup, hdom, hsender]), if_pos hf, hw]
  exact if_pos hseq

end

/-- A Sync, one-step or with its Follow_Up, while no request waits for a Follow_Up. -/
theorem Dev.ptpSync_spec {d : Dev} {m : SyncMsg} (hup : d.tms.ethUp = true)
    (hdom : m.domain.toNat = d.fld Reg.tmsCfg Fld.tmsCfgDomain) (hsender : d.tms.chosen = some m.sender)
    (hreq : ∀ q, (d.src 1).req = some q → q.pending = none) :
    (m.followUp = false → m.twoStep = true →
      (d.ptpSync m).tms.twoStep = some ⟨m.seq, m.rxTime, m.correction⟩ ∧ (d.ptpSync m).regs = d.regs) ∧
    (m.followUp = false → m.twoStep = false → (d.src 1).delay = none →
      ((d.ptpSync m).src 1).sync = some ⟨m.origin + m.correction, Int.ofNat m.rxTime⟩ ∧ (d.ptpSync m).tms.twoStep = none ∧
        (d.ptpSync m).regs = d.regs) ∧
    (∀ w, m.followUp = true → d.tms.twoStep = some w → w.seq = m.seq → (d.src 1).delay = none →
      ((d.ptpSync m).src 1).sync = some ⟨m.origin + m.correction + w.correction, Int.ofNat w.rx⟩ ∧
        (d.ptpSync m).tms.twoStep = none) ∧
    (∀ dl, m.followUp = false → m.twoStep = false → (d.src 1).delay = some dl → d.source = 1 →
      (d.ptpSync m).tms.lastTheta = some ((Int.ofNat m.rxTime - (m.origin + m.correction) : Int) - dl - (d.asym 0 : Rat))) := by
  have hnew : ((d.newSync m).setTwoStep none).src 1 = { d.src 1 with logSync := m.logSync } := by
    rw [Dev.newSync_kept hreq]
    exact Dev.setSrc_src ..
  refine ⟨fun hf ht => ?_, fun hf ht hd => ?_, fun w hf hw hseq hd => ?_, fun dl hf ht hd hs => ?_⟩
  · rw [Dev.ptpSync_twoStep hup hdom hsender hf ht, Dev.newSync_kept hreq]
    exact ⟨rfl, rfl⟩
  · rw [Dev.ptpSync_oneStep hup hdom hsender hf ht, Dev.syncDone_kept (.inl (by rw [hnew, hd])), Dev.setSrc_src,
      Dev.newSync_kept hreq]
    exact ⟨rfl, rfl, rfl⟩
  · rw [Dev.ptpSync_followUp hup hdom hsender hf hw hseq, Dev.syncResolved_none (d := d.setTwoStep none) hreq,
      Dev.syncDone_kept (d := d.setTwoStep none) (.inl hd), Dev.setSrc_src]
    exact ⟨rfl, rfl⟩
  · have hsource : ((d.newSync m).setTwoStep none).source = 1 := by
      rw [Dev.newSync_kept hreq]
      exact hs
    have hasym : ((d.newSync m).setTwoStep none).asym 0 = d.asym 0 := by
      rw [Dev.newSync_kept hreq]
      rfl
    rw [Dev.ptpSync_oneStep hup hdom hsender hf ht, Dev.syncDone_measured (by rw [hnew]; exact hd) hsource,
      (Dev.measurement_timeFrame _ _ _ _).1, ← hasym]
    rfl

/-- The Follow_Up that a request waits for: the request has its Sync, and with its answer in, the delay is known. -/
theorem Dev.ptpSync_resolves {d : Dev} {m : SyncMsg} (hup : d.tms.ethUp = true)
    (hdom : m.domain.toNat = d.fld Reg.tmsCfg Fld.tmsCfgDomain) (hsender : d.tms.chosen = some m.sender) {q : DelayReq} {w : TwoStep}
    (hq : (d.src 1).req = some q) (hp : q.pending = some m.seq) (hf : m.followUp = true) (hw : d.tms.twoStep = some w)
    (hseq : w.seq = m.seq) {y : SyncRec} (hy : y = ⟨m.origin + m.correction + w.correction, Int.ofNat w.rx⟩) :
    (q.t4 = none → (d.src 1).delay = none → ((d.ptpSync m).src 1).req = some { q with sync := some y, pending := none }) ∧
    (∀ t4, q.t4 = some t4 → (d.src 1).delay = none → d.source ≠ 1 →
      ((d.ptpSync m).src 1).delay = some ((((y.t2 - y.t1) + (t4 - q.t3) : Int) : Rat) / 2)) := by
  rw [Dev.ptpSync_followUp hup hdom hsender hf hw hseq, ← hy]
  refine ⟨fun ht hd => ?_, fun t4 ht hd hs => ?_⟩
  · rw [Dev.syncResolved_waiting (d := d.setTwoStep none) hq hp ht, Dev.syncDone_kept (.inl (by rw [Dev.setSrc_src]; exact hd)),
      Dev.setSrc_src, Dev.setSrc_src]
  · have hsrc := (d.setTwoStep none).takeDelay_src 1 { q with sync := some y, pending := none } t4 (y := y) rfl
    have hsource := (d.setTwoStep none).takeDelay_source 1 { q with sync := some y, pending := none } t4
    rw [Dev.syncResolved_answered (d := d.setTwoStep none) hq hp ht, Dev.syncDone_kept (.inr (by rw [hsource]; exact hs)),
      Dev.setSrc_src, hsrc, show ((d.setTwoStep none).src 1).delay = none from hd]

/-! Delay requests (R325, Table 9.1) -/

theorem Dev.sendDelayReq_due {d : Dev} {t3 : Nat} (hup : d.tms.ethUp = true) (hchosen : d.tms.chosen ≠ none) (hn : d.named 1 = true)
    (hdue : (d.src 1).reqDue ≤ d.devNs) :
    d.sendDelayReq t3 = (d.setSrc 1 { d.src 1 with
      req := some ⟨(d.src 1).nextSeq, t3, (d.src 1).sync, d.tms.twoStep.map fun w => w.seq, none⟩
      nextSeq := ((d.src 1).nextSeq + 1) % 65536
      reqDue := nextDue (d.src 1).reqDue d.devNs (perSecond (d.fld Reg.tmsPtp Fld.tmsPtpDreqLog)) }).emit
        (.delayReq d.ptpDst d.mac (d.fld Reg.tmsCfg Fld.tmsCfgDomain) (d.src 1).nextSeq) := by
  unfold Dev.sendDelayReq
  rw [if_pos (by simp [hup, hn, hdue, Option.isSome_iff_ne_none.mpr hchosen])]

/-- Settles O44, message by message: an Announce and the timeout of the chosen time transmitter, a Sync without and with a request that
waits for its Follow_Up, a delay request and its answer. -/
theorem ptpMessages : Obligations.PtpMessages := by
  refine ⟨?_, fun s tie f ha hf hfind hdue => ?_, fun s m ha hf hup hdom hsender => ?_, fun s t3 ha hf hup hchosen hn hdue => ?_,
    fun s domain seq t4 ha hf hup => ?_⟩
  · intro s a ha hf hup hdom others hroom
    refine gives_timed (exec_announce s a) ha hf ?_
    have hkeep := Dev.announceRx_keeps (a := a) (keepsBut_keeps _ _) (keepsBut_refl [.regs, .freeCtr, .tms] s.dev)
    obtain ⟨e, heq, hheard⟩ := Dev.announceRx_heard hup hdom rfl hroom
    have hbest := bestMaster_append_ne_none others ⟨a, s.dev.devNs⟩
    obtain ⟨hforeign, hchosen, hqualified⟩ := e.chooseMaster_spec
    rw [hheard] at hforeign hchosen hqualified
    rw [heq] at hkeep ⊢
    refine ⟨hforeign, by rw [hforeign, hchosen], ?_, hqualified.trans (Option.isSome_iff_ne_none.mpr hbest), hkeep⟩
    rw [hchosen]
    exact mt Option.map_eq_none_iff.mp hbest
  · refine gives_timed (exec_announceTimeout s tie) ha hf ⟨fun h => ?_, fun h => ?_,
      Dev.announceExpire_keeps (keepsBut_keeps _ _) (keepsBut_refl _ _)⟩
    · rw [h]
      exact s.dev.announceExpire_tie
    · obtain ⟨e, heq, hleft⟩ := Dev.announceExpire_due hfind hdue
      obtain ⟨hforeign, hchosen, hqualified⟩ := e.chooseMaster_spec
      rw [h, heq]
      refine ⟨hforeign.trans hleft, by rw [hforeign, hchosen], fun hnone => ?_⟩
      rw [hchosen, Option.map_eq_none_iff] at hnone
      rw [hqualified, hnone]
      rfl
  · refine gives_timed (exec_sync s m) ha hf ⟨Dev.ptpSync_spec hup hdom hsender, fun q w hq hp hfollow hw hseq => ?_,
      fun q hq ht hp hfollow htwo => ?_, Dev.ptpSync_keeps (keepsBut_keeps _ _) (keepsBut_refl _ _)⟩
    · exact Dev.ptpSync_resolves hup hdom hsender hq hp hfollow hw hseq rfl
    · rw [Dev.ptpSync_twoStep hup hdom hsender hfollow htwo]
      exact Dev.newSync_waiting hq hp ht
  · refine gives_timed (exec_delayReq s t3) ha hf ?_
    have hkeep := Dev.sendDelayReq_keeps (t3 := t3) (keepsBut_keeps _ _) (keepsBut_refl [.outbox, .tms] s.dev)
    rw [Dev.sendDelayReq_due hup hchosen hn hdue] at hkeep ⊢
    exact ⟨Dev.setSrc_src .., rfl, hkeep⟩
  · refine gives_timed (exec_delayResp s domain seq t4) ha hf ⟨fun hdom => if_neg (by simp [hdom]), fun hdom => ?_,
      ite_keeps (Dev.exchange_keeps (keepsBut_keeps _ _) (keepsBut_refl _ _)) (keepsBut_refl _ _)⟩
    rw [if_pos (by simp [hup, hdom])]
    refine ⟨fun h => ?_, fun q hq hseq ht hp => ?_, fun q y hq hseq ht hp hy hd => ?_, fun q y x hq hseq ht hp hy hd => ?_⟩
    · rw [Dev.exchange_unmatched _ _ _ _ fun q hq hseq => (h q hq).resolve_left (not_not.mpr hseq)]
      exact ⟨Dev.rd_count .., rfl⟩
    · rw [Dev.exchange_waiting hq hseq ht hp]
      exact ⟨Dev.setSrc_src .., rfl⟩
    · exact Dev.exchange_first _ _ _ _ hq hseq hp ht hy hd
    · rw [Dev.exchange_next _ _ _ _ hq hseq hp ht hy hd]
      exact ⟨rfl, rfl⟩

end Sys2Proof.Machine
end

section
/-!
TIME blocks (R322, R327, R331, R344, R345; Table 9.6): received on a mesh port, and sent at their rates.
-/

namespace Sys2Proof.Machine

open Sys2Proof

/-! The commands of this part, each the operation it runs on a live device with its time unit fitted. -/

theorem exec_tsyncRx (s : State) (p : Fin 6) (t1 t2 : Nat) (seq st : Byte) :
    exec (.tsyncRx p t1 t2 seq st) s = s.timed fun d => d.tsync p.val t1 t2 st.toNat := rfl

theorem exec_tsyncTimeout (s : State) (p : Fin 6) (tie : Bool) :
    exec (.tsyncTimeout p tie) s = s.timed fun d => d.tsyncExpire p.val tie := rfl

theorem exec_tsyncTx (s : State) (p : Fin 72) : exec (.tsyncTx p) s = s.timed fun d => d.sendTsync p.val := rfl

theorem exec_tinfoTx (s : State) (p : Fin 72) : exec (.tinfoTx p) s = s.timed fun d => d.sendTinfo p.val := rfl

theorem exec_tinfoRx (s : State) (p : Fin 6) (b : BitVec 120) : exec (.tinfoRx p b) s = s.timed fun d => d.tinfo p.val b.toNat := rfl

theorem exec_tdreqRx (s : State) (p : Fin 72) (seq : Byte) (t : Nat) :
    exec (.tdreqRx p seq t) s = s.timed fun d => d.answerTdreq p.val seq.toNat t := rfl

theorem exec_tdreqTx (s : State) (p : Fin 6) (t3 : Nat) : exec (.tdreqTx p t3) s = s.timed fun d => d.sendTdreq p.val t3 := rfl

theorem exec_tdrespRx (s : State) (p : Fin 6) (seq : Byte) (t4 : Nat) : exec (.tdrespRx p seq t4) s = s.timed fun d =>
    if d.portUp p.val then d.exchange (p.val + 2) seq.toNat (Int.ofNat t4) else d := rfl

/-! TSYNC and TINFO received (R322, R327) -/

section
variable {d : Dev} {p : Nat}

theorem Dev.tsync_ignored {t1 t2 st : Nat} (h : d.named (p + 2) = false ∨ d.portUp p = false) : d.tsync p t1 t2 st = d := by
  unfold Dev.tsync
  exact if_neg (by rcases h with h | h <;> simp [h])

/-- A TSYNC of a named source: the state it carries qualifies the source. -/
theorem Dev.tsync_heard {t1 t2 st : Nat} (hn : d.named (p + 2) = true) (hup : d.portUp p = true) :
    ((d.tsync p t1 t2 st).src (p + 2)).qualified = decide (st % 8 = tsAcquire ∨ st % 8 = tsLocked ∨ st % 8 = tsHoldover) ∧
      ((d.tsync p t1 t2 st).src (p + 2)).heardAt = d.devNs ∧ ((d.tsync p t1 t2 st).src (p + 2)).expired = false := by
  have hns : ∀ b a, (d.countIf b a).devNs = d.devNs := d.countIf_devNs
  unfold Dev.tsync
  extract_lets k late counted code ok old chosen shown
  rw [if_pos (by simp [k, hn, hup])]
  have hshown : chosen.timeFrame shown := by
    show chosen.timeFrame (if chosen.source = k then chosen.showSource k else chosen)
    split
    · exact Dev.timeFrame_of_tms (Dev.showSource_tms ..)
    · exact Dev.timeFrame_refl _
  obtain ⟨-, -, -, -, hclaims⟩ := (Dev.selectSource_timeFrame _).trans hshown
  have hall := (shown.syncDone_claims k (Int.ofNat t1) (Int.ofNat t2) k).trans (hclaims k)
  rw [Dev.setSrc_src] at hall
  exact ⟨SrcRec.qualified_of_claims hall, (SrcRec.heardAt_of_claims hall).trans (hns ..), SrcRec.expired_of_claims hall⟩

theorem Dev.tsyncExpire_due (hq : (d.src (p + 2)).qualified = true)
    (hdue : (d.src (p + 2)).heardAt + 4000000000 / 2 ^ d.fld Reg.tmsPtp Fld.tmsPtpTsyncLog ≤ d.devNs) :
    ((d.tsyncExpire p false).src (p + 2)).qualified = false ∧ ((d.tsyncExpire p false).src (p + 2)).expired = true := by
  unfold Dev.tsyncExpire
  dsimp only
  rw [if_pos ⟨rfl, hq, hdue⟩]
  obtain ⟨-, -, -, -, hclaims⟩ :=
    (d.setSrc (p + 2) { d.src (p + 2) with qualified := false, expired := true }).selectSource_timeFrame
  have hall := hclaims (p + 2)
  rw [Dev.setSrc_src] at hall
  exact ⟨SrcRec.qualified_of_claims hall, SrcRec.expired_of_claims hall⟩

theorem Dev.tinfo_ignored {b : Nat} (h : d.portUp p = false) : d.tinfo p b = d := by
  unfold Dev.tinfo
  exact if_neg (by simp [h])

/-- A TINFO is kept, and shown for the source in use. -/
theorem Dev.tinfo_kept {b : Nat} (h : d.portUp p = true) :
    (d.tinfo p b).src (p + 2) = { d.src (p + 2) with
      gm := BitVec.ofNat 64 (bitsOf b 32 64), steps := bitsOf b 24 8,
      utc := utcWord (bitsOf b 104 16) (bitAt b 96) (bitAt b 97) (bitAt b 98), arb := bitAt b 99 } := by
  unfold Dev.tinfo
  extract_lets k old kept
  rw [if_pos h]
  split
  · exact (Dev.src_of_tms (Dev.showSource_tms ..) _).trans (Dev.setSrc_src ..)
  · exact Dev.setSrc_src ..

theorem Dev.tinfo_regs {b : Nat} (h : d.source ≠ p + 2) : (d.tinfo p b).regs = d.regs := by
  unfold Dev.tinfo
  extract_lets k old kept
  split
  · rw [if_neg (show kept.source ≠ k from h)]
    rfl
  · rfl

end

/-! Blocks put on a port whose lane is free to send -/

section
variable {d : Dev} {p : Nat} {l : LaneId}

/-- A lane that is free to send puts the block on its line at once. -/
theorem Dev.sendBlock_sends (ctl : Bool) (b : BitVec 128) (h : d.sends l) : d.sendBlock l ctl b = d.putBlock l ctl b := by
  obtain ⟨hon, hrun, hsince, hslot⟩ := h
  unfold Dev.sendBlock Dev.sendNow
  rw [if_pos hon, if_pos hslot, Dev.linkDue_early hsince, ite_self, Dev.putPaced, if_pos hrun]

/-- What a control block leaves of its lane: its histories and runs, and the end of its slot. -/
theorem Dev.putBlock_sent (d : Dev) (l : LaneId) (b : BitVec 128) :
    ∃ w m, (d.putBlock l true b).lane l = { d.lane l with
      txHist := (scramble (d.lane l).txHist b).2
      txRun := if true && decide (blkType b = 0) then 0 else (d.lane l).txRun + 1
      txFree := d.slotAfter l
      sinceLink := if true && decide (blkType b = 2) then 0 else (d.lane l).sinceLink + 1
      txWord := w, txMark := m } := by
  obtain ⟨w, m, hlane⟩ := Dev.putLine_lane (d.setLane l _) l _
  rw [Dev.setLane_lane] at hlane
  exact ⟨w, m, hlane⟩

theorem Dev.sendPort_lane {ty b : Nat} (hp : d.portLane p = some l) (h : d.sends l) :
    d.sendPort p ty b = d.putBlock l true (ctlPayload ty b) := by
  unfold Dev.sendPort
  rw [hp]
  exact Dev.sendBlock_sends _ _ h

theorem Dev.portLane_of_regs {e : Dev} (h : e.regs = d.regs) (p : Nat) : e.portLane p = d.portLane p := by
  have hfld : ∀ a f, e.fld a f = d.fld a f := fun a f => Dev.fld_of_rd (Dev.rd_of_regs h a) f
  unfold Dev.portLane Dev.portLed Dev.portState
  simp only [hfld]

/-- A block behind another on an ingest lane goes out too. -/
theorem Dev.sendPort_second {ty b ty' b' : Nat} (hp : d.portLane p = some l) (h : d.sends l) (hi : isIngest l = true)
    (hrun : (d.lane l).txRun < 1022) (hsince : (d.lane l).sinceLink < 65533) :
    ((d.sendPort p ty b).sendPort p ty' b').outbox =
        (d.sendPort p ty b).laneOut l ty' b' ++ d.laneOut l ty b ++ d.outbox ∧
      ((d.sendPort p ty b).lane l).txHist = (scramble (d.lane l).txHist (ctlPayload ty b)).2 := by
  have hlane' : (d.sendPort p ty b).portLane p = some l := (Dev.portLane_of_regs (d.sendPort_regs ..) p).trans hp
  obtain ⟨w, m, hlane⟩ := d.putBlock_sent l (ctlPayload ty b)
  rw [← Dev.sendPort_lane hp h] at hlane
  have hsends : (d.sendPort p ty b).sends l := by
    unfold Dev.sends
    rw [hlane, hi]
    refine ⟨h.1, ?_, ?_, rfl⟩
    · dsimp only
      split <;> omega
    · dsimp only
      split <;> omega
  exact ⟨by rw [Dev.sendPort_out _ hlane' hsends, Dev.sendPort_out _ hp h, List.append_assoc], by rw [hlane]⟩

/-- A TIME block behind another on a mesh lane waits for the next slot. -/
theorem Dev.sendPort_waits {ty b ty' b' : Nat} (hp : d.portLane p = some l) (h : d.sends l) (hi : isIngest l = false)
    (hslot : d.dev16 < d.slotAfter l) (hty : 0x10 ≤ ty' ∧ ty' ≤ 0x14) :
    ((d.sendPort p ty b).sendPort p ty' b').outbox = d.laneOut l ty b ++ d.outbox ∧
      (((d.sendPort p ty b).sendPort p ty' b').lane l).txq = [(1, true, ctlPayload ty' b')] := by
  have hlane' : (d.sendPort p ty b).portLane p = some l := (Dev.portLane_of_regs (d.sendPort_regs ..) p).trans hp
  have ⟨hon, _, _, hfree⟩ := h
  have hempty : (d.lane l).txq = [] := by
    rw [hi, Bool.false_or, Dev.laneFree, Bool.and_eq_true] at hfree
    exact List.isEmpty_iff.mp hfree.1
  obtain ⟨w, m, hlane⟩ := d.putBlock_sent l (ctlPayload ty b)
  rw [← Dev.sendPort_lane hp h] at hlane
  have hnow : (d.sendPort p ty b).dev16 = d.dev16 :=
    congrArg (· * 65536) (Dev.sendPort_keeps (P := fun e => e.devNs = d.devNs) (Part.same_keeps .devNs rfl) rfl)
  have hbusy : ¬ (isIngest l || (d.sendPort p ty b).laneFree l) = true := by
    unfold Dev.laneFree
    rw [hlane, hi, hnow]
    simp [hslot]
  have hclass : blkClass true (ctlPayload ty' b') = 1 := by
    unfold blkClass
    rw [blkType_ctl _ _ (by omega)]
    simp [hty, show ty' ≠ 0x41 by omega]
  have hsecond : (d.sendPort p ty b).sendPort p ty' b' = (d.sendPort p ty b).setLane l { (d.sendPort p ty b).lane l with
      txq := ((d.sendPort p ty b).lane l).txq ++ [(blkClass true (ctlPayload ty' b'), true, ctlPayload ty' b')] } := by
    rw [Dev.sendPort, hlane']
    exact Dev.sendBlock_waits _ _ (by rw [hlane]; exact hon) hbusy
  rw [hsecond, Dev.setLane_lane, hclass, hlane]
  dsimp only
  rw [hempty]
  exact ⟨Dev.sendPort_out d hp h, rfl⟩

end

/-! TIME blocks sent at their rates (R344, R345; log entry 70) -/

section
variable {d : Dev} {p : Nat} {l : LaneId}

theorem Dev.fit_of_givesTime (h : d.givesTime p = true) : d.fit 36 = true := by
  simp only [Dev.givesTime, Bool.and_eq_true] at h
  exact h.1.1.1

theorem Dev.txDue_of_tms {e : Dev} (h : e.tms = d.tms) (info : Bool) (p : Nat) : e.txDue info p = d.txDue info p := by
  unfold Dev.txDue
  rw [h]

theorem Dev.txNext_txDue (d : Dev) (info : Bool) (p interval : Nat) :
    (d.txNext info p interval).txDue info p = nextDue (d.txDue info p) d.devNs interval := SMap.get_set_same _ _ _

/-- The time service's own state has no part in what a port sends. -/
theorem Dev.sendPort_out_retimed {ty b : Nat} (t : TmsSt) (hp : d.portLane p = some l) (h : d.sends l) :
    (({ d with tms := t } : Dev).sendPort p ty b).outbox = d.laneOut l ty b ++ d.outbox :=
  Dev.sendPort_out { d with tms := t } hp h

theorem Dev.sendTsync_due (hg : d.givesTime p = true) (hdue : d.txDue false p ≤ d.devNs) :
    d.sendTsync p = ((d.txNext false p (perSecond (d.fld Reg.tmsPtp Fld.tmsPtpTsyncLog))).sendPort p 0x10
      (fullTime d.net16 * 2 ^ 24 + d.rd (Reg.ptTsyncTx p) % 256 * 2 ^ 16 + d.timeByte * 2 ^ 8)).count (Reg.ptTsyncTx p) := by
  unfold Dev.sendTsync
  exact if_pos ⟨hg, hdue⟩

/-- The bits of a TINFO block (Table 9.6). -/
def Dev.tinfoBits (d : Dev) : Nat :=
  d.rd Reg.tmsUtc % 65536 * 2 ^ 104 + (bitsOf (d.rd Reg.tmsUtc) 16 3 + bitsOf (d.rd Reg.tmsStat) 4 1 * 8) * 2 ^ 96 +
    (d.rd Reg.tmsGm0 + 2 ^ 32 * d.rd Reg.tmsGm1) * 2 ^ 32 + (d.fld Reg.tmsStat Fld.tmsStatStepsRemoved + 1) % 256 * 2 ^ 24

/-- A TINFO goes out, and its TASYM behind it. -/
theorem Dev.sendTinfo_due (hg : d.givesTime p = true) (hdue : d.txDue true p ≤ d.devNs) :
    d.sendTinfo p = ((d.txNext true p (perSecond 0)).sendPort p 0x13 d.tinfoBits).sendPort p 0x14
      (lowBits 32 (-(d.asym p)) * 2 ^ 88) := by
  have hasym : ((d.txNext true p (perSecond 0)).sendPort p 0x13 d.tinfoBits).asym p = d.asym p :=
    congrArg (signedOf 32) (Dev.rd_of_regs (Dev.sendPort_regs ..) _)
  unfold Dev.sendTinfo
  rw [if_pos ⟨hg, hdue⟩, ← hasym]
  rfl

theorem Dev.answerTdreq_answers {n t : Nat} (ht : d.timeState ≠ tsFreerun) (hf : d.fit 36 = true) (hc : d.carriesTime p = true) :
    d.answerTdreq p n t = (d.sendPort p 0x12 (fullTime t * 2 ^ 24 + n % 256 * 2 ^ 16)).count (Reg.ptDreqRx p) := by
  unfold Dev.answerTdreq
  exact if_pos ⟨ht, hf, hc⟩

theorem Dev.sendTdreq_due {t3 : Nat} (hn : d.named (p + 2) = true) (hup : d.portUp p = true)
    (hdue : (d.src (p + 2)).reqDue ≤ d.devNs) :
    d.sendTdreq p t3 = (d.setSrc (p + 2) { d.src (p + 2) with
      req := some ⟨(d.src (p + 2)).nextSeq % 256, t3, (d.src (p + 2)).sync, none, none⟩
      nextSeq := ((d.src (p + 2)).nextSeq + 1) % 256
      reqDue := nextDue (d.src (p + 2)).reqDue d.devNs (perSecond (d.fld Reg.tmsPtp Fld.tmsPtpDreqLog)) }).sendPort (p + 1) 0x11
        ((d.src (p + 2)).nextSeq % 256 * 2 ^ 16) := by
  unfold Dev.sendTdreq
  exact if_pos ⟨hn, hup, hdue⟩

end

/-- Settles O45, block by block: a TSYNC and its timeout, a TSYNC and a TINFO sent, a TINFO, and delay requests answered, sent and
matched. -/
theorem timeBlocks : Obligations.TimeBlocks := by
  refine ⟨fun s p t1 t2 sq st ha hf => ?_, fun s p tie ha hf hq hdue => ?_, fun s p l ha hg hp hdue hs => ?_, ?_,
    fun s p b ha hf => ?_, fun s p sq t l ha hf ht hp hc hs => ?_, fun s p t3 l ha hf hn hup hp hdue hs => ?_,
    fun s p sq t4 ha hf => ?_⟩
  · refine gives_timed (exec_tsyncRx s p t1 t2 sq st) ha hf ⟨Dev.tsync_ignored, fun hn hup => ?_,
      Dev.tsync_keeps (keepsBut_keeps _ _) (keepsBut_refl _ _)⟩
    obtain ⟨hqualified, hheard, hexpired⟩ := Dev.tsync_heard (t1 := t1) (t2 := t2) (st := st.toNat) hn hup
    exact ⟨by rw [hqualified, decide_eq_true_iff], hheard, hexpired⟩
  · refine gives_timed (exec_tsyncTimeout s p tie) ha hf ⟨fun h => ?_, fun h => ?_,
      Dev.tsyncExpire_keeps (keepsBut_keeps _ _) (keepsBut_refl _ _)⟩
    · rw [h]
      exact s.dev.tsyncExpire_tie p.val
    · rw [h]
      exact Dev.tsyncExpire_due hq hdue
  · refine gives_timed (exec_tsyncTx s p) ha (Dev.fit_of_givesTime hg) ?_
    have hkeep := Dev.sendTsync_keeps (p := p.val) (keepsBut_keeps _ _) (keepsBut_refl [.regs, .outbox, .ing, .tms] s.dev)
    rw [Dev.sendTsync_due hg hdue] at hkeep ⊢
    refine ⟨Dev.sendPort_out_retimed _ hp hs, ?_, ?_, hkeep⟩
    · exact (Dev.txDue_of_tms (Dev.sendPort_tms ..) _ _).trans (Dev.txNext_txDue ..)
    · exact (Dev.rd_count ..).trans (congrArg _ (Dev.rd_of_regs (Dev.sendPort_regs ..) _))
  · intro s p l ha hg hp hdue hs hrun hsince info tasym
    refine gives_timed (exec_tinfoTx s p) ha (Dev.fit_of_givesTime hg) ?_
    have hkeep := Dev.sendTinfo_keeps (p := p.val) (keepsBut_keeps _ _) (keepsBut_refl [.outbox, .ing, .tms] s.dev)
    rw [Dev.sendTinfo_due hg hdue] at hkeep ⊢
    refine ⟨fun hi => ?_, fun hi hslot => ?_, ?_, hkeep⟩
    · obtain ⟨hout, hhist⟩ := Dev.sendPort_second (d := s.dev.txNext true p.val (perSecond 0)) (ty := 0x13) (b := info)
        (ty' := 0x14) (b' := tasym) hp hs hi hrun hsince
      have k := keepsBut_keeps [.outbox, .ing, .tms] s.dev
      exact ⟨_, hout, hhist, Dev.sendPort_keeps (k.mono rfl) (Dev.txNext_keeps (k.mono rfl) (keepsBut_refl _ _))⟩
    · exact Dev.sendPort_waits (d := s.dev.txNext true p.val (perSecond 0)) hp hs hi hslot (by decide)
    · exact (Dev.txDue_of_tms ((Dev.sendPort_tms ..).trans (Dev.sendPort_tms ..)) _ _).trans (Dev.txNext_txDue ..)
  · exact gives_timed (exec_tinfoRx s p b) ha hf ⟨Dev.tinfo_ignored, Dev.tinfo_kept, Dev.tinfo_regs,
      Dev.tinfo_keeps (keepsBut_keeps _ _) (keepsBut_refl _ _)⟩
  · refine gives_timed (exec_tdreqRx s p sq t) ha hf ?_
    have hkeep := Dev.answerTdreq_keeps (p := p.val) (seq := sq.toNat) (t := t) (keepsBut_keeps _ _)
      (keepsBut_refl [.regs, .outbox, .ing] s.dev)
    rw [Dev.answerTdreq_answers ht hf hc] at hkeep ⊢
    exact ⟨Dev.sendPort_out _ hp hs, (Dev.rd_count ..).trans (congrArg _ (Dev.rd_of_regs (Dev.sendPort_regs ..) _)), hkeep⟩
  · refine gives_timed (exec_tdreqTx s p t3) ha hf ?_
    have hkeep := Dev.sendTdreq_keeps (p := p.val) (t3 := t3) (keepsBut_keeps _ _) (keepsBut_refl [.outbox, .ing, .tms] s.dev)
    rw [Dev.sendTdreq_due hn hup hdue] at hkeep ⊢
    have hsrc := fun r => (Dev.src_of_tms (Dev.sendPort_tms (s.dev.setSrc (p.val + 2) r) (p.val + 1) 0x11
      ((s.dev.src (p.val + 2)).nextSeq % 256 * 2 ^ 16)) (p.val + 2)).trans (Dev.setSrc_src ..)
    rw [hsrc]
    exact ⟨Dev.sendPort_out_retimed _ hp hs, rfl, rfl, rfl, hkeep⟩
  · refine gives_timed (exec_tdrespRx s p sq t4) ha hf ⟨fun h => if_neg (by simp [h]), fun hup h => ?_,
      fun q y hup hq hseq ht hpend hy hd => ?_,
      ite_keeps (Dev.exchange_keeps (keepsBut_keeps _ _) (keepsBut_refl _ _)) (keepsBut_refl _ _)⟩
    · rw [if_pos hup, Dev.exchange_unmatched _ _ _ _ fun q hq hseq => (h q hq).resolve_left (not_not.mpr hseq)]
      exact ⟨Dev.rd_count .., rfl⟩
    · rw [if_pos hup]
      exact Dev.exchange_first _ _ _ _ hq hseq hpend ht hy hd

end Sys2Proof.Machine
end

section
/-!
HR_CFG of a host ring (R376): ENABLE set on a disabled ring and cleared on an enabled one.
-/

namespace Sys2Proof.Machine

open Sys2Proof

theorem exec_hrEnableWrite (s : State) (o : Origin) (k : Fin 32) (v : Word) :
    exec (.hrEnableWrite o k v) s = s.up fun d => d.put o (Reg.hrCfg k.val) v.toNat := rfl

/-- A register's word with the RW bits of a write. -/
def withRw (r : RegRow) (old v : Nat) : Nat := (old &&& (2 ^ 32 - 1 - r.rw)) ||| (v &&& r.rw)

section
variable {d : Dev} {o : Origin} {r : RegRow} {k v : Nat}

/-- HR_CFG lies in no reserved range and is written by the rules of its ring. -/
theorem Dev.put_hrCfg (hk : k < 32) (hv : v < 2 ^ 32) (hm : d.mode ≠ 3) (hr : regRow (Reg.hrCfg k) = some r)
    (hb : r.base = Reg.hrCfg 0) (hl : r.lv ≠ 0) : d.put o (Reg.hrCfg k) v = (d.ringWritten o r k v).1 := by
  have haligned : Reg.hrCfg k / 4 * 4 = Reg.hrCfg k := by unfold Reg.hrCfg; omega
  have hring : (Reg.hrCfg k - Reg.hrCfg 0) / 0x40 = k := by unfold Reg.hrCfg; omega
  have hres : reservedReg (Reg.hrCfg k) = false := by
    obtain ⟨hprofile, hports, hport⟩ : Reg.prmPcfg 1 ≤ Reg.hrCfg k ∧ Reg.ptCfg 8 ≤ Reg.hrCfg k ∧ Reg.hrCfg k ≠ Reg.ptCfg 0 := by
      unfold Reg.hrCfg Reg.prmPcfg Reg.ptCfg; omega
    simp [reservedReg, hprofile, hports, hport]
  unfold Dev.put Dev.busWrite
  dsimp only
  rw [haligned, Nat.mod_eq_of_lt hv, if_neg (fun h => hm h.1), hr]
  dsimp only
  rw [if_neg (by simp [hl, hres]), if_pos hb, hring]

/-- An accepted write that sets ENABLE on a disabled ring: its settings, its start, and the write's entry. -/
theorem Dev.ringWritten_starts (hoff : d.hrOn k = false)
    (hok : d.liveFault o r (Reg.hrCfg k) (d.rd (Reg.hrCfg k)) (withLv r.lv (withRw r (d.rd (Reg.hrCfg k)) v) v) = none)
    (hset : withLv r.lv (withRw r (d.rd (Reg.hrCfg k)) v) v % 2 = 1) :
    (d.ringWritten o r k v).1 =
      ((((d.wr (Reg.hrCfg k) (withRw r (d.rd (Reg.hrCfg k)) v)).wr (Reg.hrCfg k)
        (withLv r.lv (withRw r (d.rd (Reg.hrCfg k)) v) v)).ringStart k).liveEntry o (Reg.hrCfg k) (d.rd (Reg.hrCfg k))
        (withLv r.lv (withRw r (d.rd (Reg.hrCfg k)) v) v) .ok) := by
  unfold withRw at hok hset ⊢
  simp only [Dev.ringWritten, hoff, Bool.false_eq_true, if_false, hok, hset, Bool.not_false, decide_true, Bool.and_self, if_true,
    Bool.false_and]

/-- An accepted write that clears ENABLE on an enabled ring and leaves its settings: its stop, and the write's entry. -/
theorem Dev.ringWritten_stops (hon : d.hrOn k = true)
    (hok : d.liveFault o r (Reg.hrCfg k) (d.rd (Reg.hrCfg k)) (withLv r.lv (d.rd (Reg.hrCfg k)) v) = none)
    (hclear : withLv r.lv (d.rd (Reg.hrCfg k)) v % 2 = 0) (hkeep : v &&& r.rw = d.rd (Reg.hrCfg k) &&& r.rw) :
    (d.ringWritten o r k v).1 =
      ((d.wr (Reg.hrCfg k) (withLv r.lv (d.rd (Reg.hrCfg k)) v)).ringStop k).liveEntry o (Reg.hrCfg k) (d.rd (Reg.hrCfg k))
        (withLv r.lv (d.rd (Reg.hrCfg k)) v) .ok := by
  simp [Dev.ringWritten, hon, hok, hclear, hkeep]

/-- A ring started reads as before but for its counts and its state, the vector counter and the record store's registers. -/
theorem Dev.ringStart_rd {a : Nat} (ha : a < 0x140000) (hirq : a ≠ Reg.hstIrqs) :
    (d.ringStart k).rd a = (((d.wr (Reg.hrProduce k) 0).wr (Reg.hrConsume k) 0).wr (Reg.hrState k) 1).rd a := by
  unfold Dev.ringStart
  exact Dev.writeStatus_rd _ _ _ ha hirq

/-- A ring starts RUNNING at count 0, with its settings. -/
theorem Dev.ringStart_spec (hk : k < 32) :
    (d.ringStart k).rd (Reg.hrCfg k) = d.rd (Reg.hrCfg k) ∧ (d.ringStart k).rd (Reg.hrState k) = 1 ∧
      (d.ringStart k).rd (Reg.hrProduce k) = 0 ∧ (d.ringStart k).rd (Reg.hrConsume k) = 0 := by
  refine ⟨?_, ?_, ?_, ?_⟩ <;>
  · simp only [Reg.hrCfg, Reg.hrState, Reg.hrProduce, Reg.hrConsume]
    rw [Dev.ringStart_rd (by omega) (by unfold Reg.hstIrqs; omega)]
    simp [Dev.rd_wr, Reg.hrState, Reg.hrProduce, Reg.hrConsume]

/-- A ring stops STOPPED with no open descriptor, its settings kept. -/
theorem Dev.ringStop_spec :
    (d.ringStop k).rd (Reg.hrCfg k) = d.rd (Reg.hrCfg k) ∧ (d.ringStop k).rd (Reg.hrState k) = 0 ∧
      ((d.ringStop k).hring k).desc = none := by
  refine ⟨Dev.ringStop_rd _ _ _ (by unfold Reg.hrCfg Reg.hrState; omega), ?_, ?_⟩
  · exact Dev.rd_wr_same ..
  · rw [Dev.ringStop, Dev.setHring_hring]

theorem Dev.hrState_of_rd {st : Nat} (h : d.rd (Reg.hrState k) = st) (hst : st < 4) : d.hrState k = st := by
  unfold Dev.hrState Dev.fld
  rw [h, bitsOf_eq]
  simp only [Fld.hrStateState]
  omega

/-- A ring's own part outlives the entry of a write. -/
theorem Dev.liveEntry_hring {a old new : Nat} {st : Status} : (d.liveEntry o a old new st).hring k = d.hring k :=
  congrArg (fun h : HstSt => SMap.get (fun _ => HostRing.init) h.rings k) (d.liveEntry_parts o a old new st .hst rfl)

end

/-- Settles O16: ENABLE set on a disabled ring, and cleared on an enabled one. -/
theorem hostRingEnable : Obligations.HostRingEnable := by
  intro s o k v r hreset hm hr hb hl a old set
  have hput : s.dev.put o (Reg.hrCfg k.val) v.toNat = (s.dev.ringWritten o r k.val v.toNat).1 :=
    Dev.put_hrCfg k.isLt v.isLt hm hr hb (by omega)
  have habove : ∀ q : Nat → Nat, q ∈ [Reg.hrCfg, Reg.hrState, Reg.hrProduce, Reg.hrConsume] → 0x40000 ≤ q k.val := by
    simp [Reg.hrCfg, Reg.hrState, Reg.hrProduce, Reg.hrConsume]; omega
  refine ⟨fun hoff hok hset => ?_, fun hon hok hclear hkeep => ?_⟩
  · refine gives_up (exec_hrEnableWrite s o k v) hreset ?_
    rw [hput, Dev.ringWritten_starts hoff hok hset]
    obtain ⟨hcfg, hstate, hproduce, hconsume⟩ := Dev.ringStart_spec
      (d := (s.dev.wr a set).wr a (withLv r.lv set v.toNat)) k.isLt
    refine ⟨?_, Dev.hrState_of_rd ((Dev.liveEntry_rd_above (habove _ (by simp))).trans hstate) (by decide), ?_, ?_⟩
    · exact (Dev.liveEntry_rd_above (habove _ (by simp))).trans (hcfg.trans (Dev.rd_wr_same ..))
    · exact (Dev.liveEntry_rd_above (habove _ (by simp))).trans hproduce
    · exact (Dev.liveEntry_rd_above (habove _ (by simp))).trans hconsume
  · refine gives_up (exec_hrEnableWrite s o k v) hreset ?_
    rw [hput, Dev.ringWritten_stops hon hok hclear hkeep]
    obtain ⟨hcfg, hstate, hdesc⟩ := Dev.ringStop_spec (d := s.dev.wr a (withLv r.lv old v.toNat)) (k := k.val)
    refine ⟨?_, Dev.hrState_of_rd ((Dev.liveEntry_rd_above (habove _ (by simp))).trans hstate) (by decide), ?_⟩
    · exact (Dev.liveEntry_rd_above (habove _ (by simp))).trans (hcfg.trans (Dev.rd_wr_same ..))
    · exact (congrArg HostRing.desc Dev.liveEntry_hring).trans hdesc

end Sys2Proof.Machine
end

section
/-!
Messages of the host channel (R362, R369 to R372, R377, R383): the commands, what becomes of a message at a device that does not accept it,
and what each kind does once it is accepted.
-/

namespace Sys2Proof.Machine

open Sys2Proof

/-! The commands, each the message it takes on a live device -/

/-- IRQ accepted (R383): the vector is raised at the anchor's table, behind the messages of its source that wait. -/
def Dev.takeIrq (d : Dev) (b : Nat) : Dev :=
  if d.isAnchor && d.hostUp then
    if d.hst.jobs.any fun x => decide (x.1 = bitsOf b 114 6) then d.queueJob (bitsOf b 114 6) (.vector (bitsOf b 72 11))
    else d.raiseMsix (bitsOf b 72 11)
  else d

theorem exec_wreq (s : State) (p : Fin 6) (b : BitVec 120) (data : List (BitVec 128)) :
    exec (.wreq p b data) s = s.live fun d => d.message p 0x42 b data fun e => e.takeWreq (bitsOf b.toNat 114 6) b.toNat data := rfl

theorem exec_wcpl (s : State) (p : Fin 6) (b : BitVec 120) (data : List (BitVec 128)) :
    exec (.wcpl p b data) s =
      s.live fun d => d.message p 0x43 b data fun e => if e.isAnchor then e.takeWcpl b.toNat data else e := rfl

theorem exec_dmaw (s : State) (p : Fin 6) (b : BitVec 120) (data : List (BitVec 128)) :
    exec (.dmaw p b data) s = s.live fun d => d.message p 0x44 b data fun e => e.takeDmaw b.toNat data := rfl

theorem exec_dmar (s : State) (p : Fin 6) (b : BitVec 120) (host : List Byte) :
    exec (.dmar p b host) s = s.live fun d => d.message p 0x45 b [] fun e => e.takeDmar b.toNat host := rfl

theorem exec_dmac (s : State) (p : Fin 6) (b : BitVec 120) (data : List (BitVec 128)) :
    exec (.dmac p b data) s = s.live fun d => d.message p 0x46 b data fun e => e.takeDmac b.toNat data := rfl

theorem exec_irq (s : State) (p : Fin 6) (b : BitVec 120) :
    exec (.irq p b) s = s.live fun d => d.message p 0x47 b [] fun e => e.takeIrq b.toNat := rfl

/-- Each of the six messages is received on its port under its type. -/
theorem exec_hostMessage {i : Instr} {ty : Nat} {p : Fin 6} {b : BitVec 120} {data : List (BitVec 128)} {host : List Byte}
    (h : (i, ty) = (.wreq p b data, 0x42) ∨ (i, ty) = (.wcpl p b data, 0x43) ∨ (i, ty) = (.dmaw p b data, 0x44) ∨
      (i, ty) = (.dmar p b host, 0x45) ∨ (i, ty) = (.dmac p b data, 0x46) ∨ (i, ty) = (.irq p b, 0x47)) (s : State) :
    ∃ blocks f, exec i s = s.live fun d => d.message p ty b blocks f := by
  rcases h with h | h | h | h | h | h <;> cases h
  · exact ⟨_, _, exec_wreq s p b data⟩
  · exact ⟨_, _, exec_wcpl s p b data⟩
  · exact ⟨_, _, exec_dmaw s p b data⟩
  · exact ⟨_, _, exec_dmar s p b host⟩
  · exact ⟨_, _, exec_dmac s p b data⟩
  · exact ⟨_, _, exec_irq s p b⟩

/-! Messages that are not accepted (R362) -/

section
variable {d : Dev} {p : Fin 6} {ty : Nat} {b : BitVec 120} {data : List (BitVec 128)} {f : Dev → Dev}

/-- On a port that is not UP, or with no route on, a message is dropped. -/
theorem Dev.message_dropped (h : d.portUp p.val = false ∨
    (bitsOf b.toNat 108 6 ≠ d.devId ∧ d.routeTo (bitsOf b.toNat 108 6) = none)) : d.message p ty b data f = d := by
  by_cases hup : d.portUp p.val = false
  · simp [Dev.message, Dev.hostReceive, hup]
  · obtain ⟨hdst, hroute⟩ := h.resolve_left hup
    simp [Dev.message, Dev.hostReceive, hup, hdst, hroute]

/-- A message for another device is sent on along its route. -/
theorem Dev.message_routed {q : Nat} (hup : d.portUp p.val = true) (hdst : bitsOf b.toNat 108 6 ≠ d.devId)
    (hroute : d.routeTo (bitsOf b.toNat 108 6) = some q) : d.message p ty b data f = d.sendMessage q ty b.toNat data := by
  simp [Dev.message, Dev.hostReceive, hup, hdst, hroute]

/-- A message out of turn is counted. -/
theorem Dev.message_discarded (hup : d.portUp p.val = true) (hdst : bitsOf b.toNat 108 6 = d.devId)
    (hseq : bitsOf b.toNat 83 16 ≠ (d.chan (bitsOf b.toNat 114 6)).expect % 2 ^ 16) :
    d.message p ty b data f = d.count Reg.mshHostDiscard := by
  have hrec : d.hostReceive p.val ty b.toNat data = (d.count Reg.mshHostDiscard, false) := by
    unfold Dev.hostReceive
    rw [if_neg (by simp [hup])]
    dsimp only
    rw [if_neg (not_not.mpr hdst), if_neg hseq]
  rw [Dev.message, hrec]
  rfl

/-- A message on a port whose lane may send puts its control block out first. -/
theorem Dev.sendMessage_out {q m : Nat} {l : LaneId} (hp : d.portLane (q + 1) = some l) (hs : d.sends l) :
    ∃ more, (d.sendMessage q ty m data).outbox = more ++ d.laneOut l ty m ++ d.outbox := by
  obtain ⟨more, hmore⟩ := Dev.sendMessage_grows d q ty m data
  exact ⟨more, by rw [← hmore, Dev.sendPort_out d hp hs, List.append_assoc]⟩

end

/-! Messages that are accepted -/

section
variable {d e : Dev} {b : BitVec 120}

/-- A message accepted changes its channel alone. -/
theorem Dev.accepted_parts {ps : List Part} (h : [Part.msh].all (ps.contains ·) = true) : d.keepsBut ps (d.accepted b) :=
  Dev.setChan_keeps ((keepsBut_keeps ps d).mono h) (keepsBut_refl ps d)

/-- An accepted message gives what its kind does to the device that has taken it from its channel. -/
theorem gives_accepts {i : Instr} {s : State} {p : Fin 6} {ty : Nat} {data : List (BitVec 128)} {f : Dev → Dev} {P : Dev → Prop}
    (hi : exec i s = s.live fun d => d.message p ty b data f) (ha : s.dev.alive = true) (hacc : s.dev.accepts p b)
    (h : P (f (s.dev.accepted b))) : Gives i s P :=
  gives_live hi ha (by rwa [Dev.message_accepted _ hacc])

/-- What is queued depends on the channel alone. -/
theorem Dev.queued.of_chan {t ty body : Nat} {data : List (BitVec 128)} {delivers : Option Nat} {f : Dev}
    (hq : e.queued t ty body data delivers f) (h : e.chan t = d.chan t) : d.queued t ty body data delivers f := by
  unfold Dev.queued at hq ⊢
  rwa [h] at hq

end

/-! WREQ: an access to a member's window (R370 to R372) -/

section
variable {d : Dev} {src b : Nat} {x : BitVec 128} {data : List (BitVec 128)}

theorem Dev.takeWreq_stranger (h : src ≠ d.anchor) : d.takeWreq src b data = d := if_pos h

/-- The anchor's write of LOG_FWD tells the origin of what follows (R413). -/
theorem Dev.takeWreq_origin (hsrc : src = d.anchor) (hw : bitAt b 58 = true) (ha : bitsOf b 59 24 / 4 * 4 = Reg.logFwd) :
    d.takeWreq src b (x :: data) = d.wr Reg.logFwd (x.toNat % 2 ^ 32 % 2 ^ 16) := by
  simp [Dev.takeWreq, Dev.fwdWrite, hsrc, hw, ha]

theorem Dev.takeWreq_write (hsrc : src = d.anchor) (hw : bitAt b 58 = true) (ha : bitsOf b 59 24 / 4 * 4 ≠ Reg.logFwd) :
    d.takeWreq src b (x :: data) = d.put (originOfWord (d.rd Reg.logFwd)) (bitsOf b 59 24) (x.toNat % 2 ^ 32) := by
  simp [Dev.takeWreq, hsrc, hw, ha]

/-- A read is answered with a WCPL of the words read. -/
theorem Dev.takeWreq_answers (hsrc : src = d.anchor) (hw : bitAt b 58 = false) :
    let r := d.readRun (originOfWord (d.rd Reg.logFwd)) (bitsOf b 59 24) (bitsOf b 47 11)
    r.2.queued d.anchor 0x43 (bitsOf b 31 16 * 2 ^ 67) (toBlocks (r.1.map (leBytes 4)).flatten) none (d.takeWreq src b data) := by
  intro r
  have hsent : d.takeWreq src b data =
      (r.2.hostSend d.anchor 0x43 (bitsOf b 31 16 * 2 ^ 67) (toBlocks (r.1.map (leBytes 4)).flatten) none).1 := by
    simp [Dev.takeWreq, hsrc, hw, r]
  rw [hsent]
  exact Dev.hostSend_queued ..

end

/-! Forwarded reads that are answered, or given up (R372) -/

/-- The forwarded read of a tag waits no longer. -/
def Dev.dropRead (d : Dev) (tag : Nat) : Dev :=
  { d with msh := { d.msh with reads := d.msh.reads.filter fun y => decide (y.rtag ≠ tag) } }

section
variable {d : Dev} {b tag w v : Nat} {x : BitVec 128} {y : FwdRead} {data : List (BitVec 128)}

theorem Dev.dropRead_reads : ∀ y ∈ (d.dropRead tag).msh.reads, y.rtag ≠ tag := fun y hy => by
  simpa using (List.mem_filter.mp hy).2

theorem Dev.readDone_msh : (d.readDone w v).msh = d.msh :=
  Dev.readDone_keeps (P := fun e => Part.same d e .msh) (Part.same_keeps .msh rfl) rfl

theorem Dev.readDone_regs : (d.readDone w v).regs = d.regs :=
  Dev.readDone_keeps (P := fun e => Part.same d e .regs) (Part.same_keeps .regs rfl) rfl

/-- The host waits for a word. -/
theorem Dev.readDone_host (h : w = 0) : d.readDone w v = d.emit (.windowData (BitVec.ofNat 32 v)) := if_pos h

/-- The management bus waits for a response. -/
theorem Dev.readDone_mgt (h : w = 1) : d.readDone w v = d.emit (.mgtResponse Status.ok.code (some (BitVec.ofNat 32 v))) := by
  subst h
  rfl

/-- A completion that nobody waits for is counted. -/
theorem Dev.takeWcpl_late (h : ∀ y ∈ d.msh.reads, y.rtag ≠ bitsOf b 67 16) :
    d.takeWcpl b data = d.count Reg.hstLateArrival := by
  have hnone : (d.msh.reads.find? fun y => decide (y.rtag = bitsOf b 67 16)) = none :=
    List.find?_eq_none.mpr fun y hy => by simpa using h y hy
  unfold Dev.takeWcpl
  dsimp only
  rw [hnone]

/-- A completion with its word ends the read. -/
theorem Dev.takeWcpl_found (h : (d.msh.reads.find? fun y => decide (y.rtag = bitsOf b 67 16)) = some y) (hok : bitsOf b 64 3 = 0) :
    d.takeWcpl b (x :: data) = (d.dropRead (bitsOf b 67 16)).readDone y.waiter (x.toNat % 2 ^ 32) := by
  unfold Dev.takeWcpl
  dsimp only
  rw [h]
  dsimp only
  rw [if_pos hok]
  rfl

end

/-! Messages at the anchor's link (R372; log entry 80) -/

/-- No message waits at the anchor's link, and none has had its turn in this ns of device time. -/
def Dev.linkFree (d : Dev) : Prop := d.hst.jobs = [] ∧ d.hst.jobAt ≠ some d.devNs

/-- A source has had the turn of this ns of device time. -/
def Dev.turnTaken (d : Dev) (src : Nat) : Dev := { d with hst := { d.hst with jobLast := src, jobAt := some d.devNs } }

/-- A message waits behind the others. -/
def Dev.jobWaits (d : Dev) (src : Nat) (j : HostJob) : Dev := { d with hst := { d.hst with jobs := d.hst.jobs ++ [(src, j)] } }

section
variable {d : Dev} {src addr n b v : Nat} {bs : List Byte} {ro : Bool} {answer : Option (Nat × List Byte)} {j : HostJob}

theorem Dev.memberJob_free (h : d.linkFree) : d.memberJob src j = (d.turnTaken src).issueJob src j := by
  obtain ⟨hjobs, hat⟩ := h
  exact if_pos (by simp [hjobs, hat])

theorem Dev.memberJob_busy (h : ¬ d.linkFree) : d.memberJob src j = d.queueJob src j :=
  if_neg fun hc => h (by simpa [Dev.linkFree] using hc)

/-- A write of at most 4 KiB waits whole. -/
theorem Dev.queueJob_write (hpos : 0 < bs.length) (hlen : bs.length ≤ 4096) :
    d.queueJob src (.write addr bs ro none) = d.jobWaits src (.write addr bs ro none) := by
  have hpieces : ceilDiv bs.length 4096 = 1 := by
    unfold ceilDiv
    rw [if_neg (by decide)]
    omega
  simp [Dev.queueJob, Dev.jobWaits, hpieces, List.take_of_length_le hlen]

theorem Dev.queueJob_read : d.queueJob src (.read addr n answer) = d.jobWaits src (.read addr n answer) := rfl

theorem Dev.queueJob_vector : d.queueJob src (.vector v) = d.jobWaits src (.vector v) := rfl

/-- A member's write changes what is put out and the host side, and no more: it delivers no record of the anchor. -/
theorem Dev.memberJob_write_keeps {P : Dev → Prop} (k : Keeps [.outbox, .hst] P) (h : P d) :
    P (d.memberJob src (.write addr bs ro none)) :=
  ite_keeps (Dev.emit_keeps (k.mono rfl) (upd_hst (k.mono rfl) h)) (Dev.queueJob_keeps (k.mono rfl) h)

theorem Dev.takeDmaw_up {data : List (BitVec 128)} (h : (d.isAnchor && d.hostUp) = true) : d.takeDmaw b data =
    d.memberJob (bitsOf b 114 6) (.write (bitsOf b 19 64) ((ofBlocks data).take (bitsOf b 5 13)) (bitAt b 18) none) := if_pos h

theorem Dev.takeDmaw_keeps_link {P : Dev → Prop} {data : List (BitVec 128)} (k : Keeps [.outbox, .hst] P) (h : P d) :
    P (d.takeDmaw b data) := ite_keeps (Dev.memberJob_write_keeps k h) h

theorem Dev.takeDmar_up {host : List Byte} (h : (d.isAnchor && d.hostUp) = true) : d.takeDmar b host =
    d.memberJob (bitsOf b 114 6) (.read (bitsOf b 19 64) (bitsOf b 5 13) (some (bitsOf b 83 16, host))) := if_pos h

/-- The turn goes to the next source after the last one served that has a message waiting, or else to the first. -/
theorem Dev.jobTurn_spec (h : d.jobTurn = some src) : (∃ j, (src, j) ∈ d.hst.jobs) ∧
    ((d.hst.jobLast < src ∧ ∀ x ∈ d.hst.jobs, d.hst.jobLast < x.1 → src ≤ x.1) ∨
      ((∀ x ∈ d.hst.jobs, x.1 ≤ d.hst.jobLast) ∧ ∀ x ∈ d.hst.jobs, src ≤ x.1)) := by
  unfold Dev.jobTurn at h
  dsimp only at h
  split at h
  · next y hy =>
    obtain rfl : y = src := Option.some.inj h
    obtain ⟨hmem, hleast⟩ := listMin_eq_some_iff.mp hy
    obtain ⟨hmem, hafter⟩ := List.mem_filter.mp hmem
    refine ⟨by simpa using hmem, .inl ⟨by simpa using hafter, fun x hx hlast => hleast x.1 ?_⟩⟩
    exact List.mem_filter.mpr ⟨List.mem_map_of_mem hx, by simpa using hlast⟩
  · next hnone =>
    obtain ⟨hmem, hleast⟩ := listMin_eq_some_iff.mp h
    refine ⟨by simpa using hmem, .inr ⟨fun x hx => ?_, fun x hx => hleast x.1 (List.mem_map_of_mem hx)⟩⟩
    by_contra hlast
    obtain ⟨m, hm⟩ := exists_listMin (List.ne_nil_of_mem (List.mem_filter.mpr
      ⟨List.mem_map_of_mem (f := Prod.fst) hx, by simpa using hlast⟩ : x.1 ∈ (d.hst.jobs.map Prod.fst).filter fun x =>
        decide (d.hst.jobLast < x)))
    rw [hm] at hnone
    cases hnone

/-- A vector that may go out is sent as its table entry says. -/
theorem Dev.raiseMsix_open (h : d.msixOpen v = true) :
    d.raiseMsix v = d.emit (.msix (SMap.get msixReset d.hst.msix (4 * v) + 2 ^ 32 * SMap.get msixReset d.hst.msix (4 * v + 1))
      (SMap.get msixReset d.hst.msix (4 * v + 2))) := if_pos h

/-- A vector that may not go out is pending (log entry 71). -/
theorem Dev.raiseMsix_held (h : d.msixOpen v = false) : v ∈ (d.raiseMsix v).hst.pba ∧ (d.raiseMsix v).outbox = d.outbox := by
  unfold Dev.raiseMsix
  dsimp only
  rw [if_neg (by simp [h])]
  refine ⟨?_, rfl⟩
  split
  · next hp => simpa using hp
  · exact List.mem_cons_self

theorem Dev.takeIrq_free (hup : (d.isAnchor && d.hostUp) = true)
    (h : (d.hst.jobs.any fun x => decide (x.1 = bitsOf b 114 6)) = false) : d.takeIrq b = d.raiseMsix (bitsOf b 72 11) := by
  rw [Dev.takeIrq, if_pos hup, h]
  rfl

theorem Dev.takeIrq_busy (hup : (d.isAnchor && d.hostUp) = true)
    (h : (d.hst.jobs.any fun x => decide (x.1 = bitsOf b 114 6)) = true) :
    d.takeIrq b = d.jobWaits (bitsOf b 114 6) (.vector (bitsOf b 72 11)) := by
  rw [Dev.takeIrq, if_pos hup, if_pos h, Dev.queueJob_vector]

theorem Dev.takeIrq_keeps {P : Dev → Prop} (k : Keeps [.outbox, .hst] P) (h : P d) : P (d.takeIrq b) :=
  ite_keeps (ite_keeps (Dev.queueJob_keeps (k.mono rfl) h) (Dev.raiseMsix_keeps k h)) h

end

/-! DMAC: data that a member asked for (R377) -/

section
variable {d : Dev} {b : Nat} {data : List (BitVec 128)}

/-- The index block of a poll under way. -/
theorem Dev.takeDmac_polled (ha : d.isAnchor = false) (h : (d.hst.polling.any fun x => decide (x.2 = bitsOf b 67 16)) = true) :
    d.takeDmac b data = ({ d with hst := { d.hst with
      polling := d.hst.polling.filter fun x => decide (x.2 ≠ bitsOf b 67 16) } } : Dev).takeCounts (wordsOfBlocks data) := by
  unfold Dev.takeDmac
  dsimp only
  rw [if_neg (by simp [ha]), if_pos h]

/-- The index block of a poll that has expired. -/
theorem Dev.takeDmac_overdue (ha : d.isAnchor = false)
    (hp : (d.hst.polling.any fun x => decide (x.2 = bitsOf b 67 16)) = false) (h : d.hst.overdue.contains (bitsOf b 67 16) = true) :
    d.takeDmac b data =
      ({ d with hst := { d.hst with overdue := d.hst.overdue.erase (bitsOf b 67 16) } } : Dev).count Reg.hstLateArrival := by
  unfold Dev.takeDmac
  dsimp only
  rw [if_neg (by simp [ha]), if_neg (by simp [hp]), if_pos h]

/-- Data of no poll. -/
theorem Dev.takeDmac_other (ha : d.isAnchor = false)
    (hp : (d.hst.polling.any fun x => decide (x.2 = bitsOf b 67 16)) = false) (h : d.hst.overdue.contains (bitsOf b 67 16) = false) :
    d.takeDmac b data = d := by
  unfold Dev.takeDmac
  dsimp only
  rw [if_neg (by simp [ha]), if_neg (by simp [hp]), if_neg (by simp only [h]; decide)]

end

/-- Settles O48: messages that are not accepted, and each kind that is. -/
theorem hostMessages : Obligations.HostMessages := by
  refine ⟨fun s i ty p b data host ha hi => ?_, ?_, fun s p b data ha hacc => ?_, ?_, ?_, fun d src h => ?_,
    fun s p b data ha hacc hm => ?_, ?_⟩
  · obtain ⟨blocks, f, hexec⟩ := exec_hostMessage hi s
    refine ⟨fun h => gives_live hexec ha (Dev.message_dropped h), fun q l hup hdst hroute hl hs => gives_live hexec ha ?_,
      fun hup hdst hseq => gives_live hexec ha ?_⟩
    · rw [Dev.message_routed hup hdst hroute]
      exact ⟨Dev.sendMessage_out hl hs, Dev.sendMessage_keeps (keepsBut_keeps _ _) (keepsBut_refl _ _)⟩
    · rw [Dev.message_discarded hup hdst hseq]
      exact ⟨Dev.rd_count .., Dev.regsBut.count (by simp) (Dev.regsBut_refl _ _), (Dev.wr_frame ..).2⟩
  · intro s p b data ha hacc o ofs
    refine gives_accepts (exec_wreq s p b data) ha hacc ⟨fun hsrc => Dev.takeWreq_stranger hsrc, fun hsrc hw x rest hdata => ?_,
      fun hsrc hw => Dev.takeWreq_answers (d := s.dev.accepted b) hsrc hw⟩
    subst hdata
    refine ⟨fun hofs => ?_, fun hofs => Dev.takeWreq_write (d := s.dev.accepted b) hsrc hw hofs⟩
    rw [Dev.takeWreq_origin (d := s.dev.accepted b) hsrc hw hofs]
    exact ⟨by rw [Dev.rd_wr_same]; omega, (Dev.wr_frame ..).1⟩
  · refine ⟨fun hm => gives_accepts (exec_wcpl s p b data) ha hacc (if_neg (ne_true_of_eq_false hm)), fun hm =>
      gives_accepts (exec_wcpl s p b data) ha hacc ?_⟩
    rw [if_pos (show (s.dev.accepted b).isAnchor = true from hm)]
    refine ⟨fun hlate => ?_, fun y v rest hy hdata hok => ?_⟩
    · rw [Dev.takeWcpl_late (d := s.dev.accepted b) hlate]
      exact ⟨Dev.rd_count .., Dev.count_keeps ((keepsBut_keeps _ _).mono rfl) (Dev.accepted_parts rfl)⟩
    · subst hdata
      rw [Dev.takeWcpl_found (d := s.dev.accepted b) hy hok]
      exact ⟨by rw [Dev.readDone_msh]; exact Dev.dropRead_reads, fun hw => by rw [Dev.readDone_host hw]; rfl,
        fun hw => by rw [Dev.readDone_mgt hw]; rfl, Dev.readDone_keeps ((keepsBut_keeps _ _).mono rfl)
          (upd_msh ((keepsBut_keeps _ _).mono rfl) (Dev.accepted_parts rfl))⟩
  · intro s p b data ha hacc bytes free
    refine gives_accepts (exec_dmaw s p b data) ha hacc ⟨fun hdown => if_neg (ne_true_of_eq_false hdown), fun hup => ?_, ?_⟩
    · rw [Dev.takeDmaw_up (d := s.dev.accepted b) hup]
      refine ⟨fun hfree => ?_, fun hbusy hpos hlen => ?_⟩
      · rw [Dev.memberJob_free (d := s.dev.accepted b) hfree]
        exact ⟨rfl, rfl⟩
      · rw [Dev.memberJob_busy (d := s.dev.accepted b) hbusy, Dev.queueJob_write hpos hlen]
        exact ⟨rfl, rfl⟩
    · exact Dev.takeDmaw_keeps_link ((keepsBut_keeps _ _).mono rfl) (Dev.accepted_parts rfl)
  · intro s p b host ha hacc hup free
    refine gives_accepts (exec_dmar s p b host) ha hacc ?_
    rw [Dev.takeDmar_up (d := s.dev.accepted b) hup]
    refine ⟨fun hfree => ?_, fun hbusy => ?_⟩
    · rw [Dev.memberJob_free (d := s.dev.accepted b) hfree]
      exact ⟨(Dev.hostSend_grows ..).subset List.mem_cons_self, (Dev.hostSend_queued ..).of_chan rfl⟩
    · rw [Dev.memberJob_busy (d := s.dev.accepted b) hbusy, Dev.queueJob_read]
      rfl
  · obtain ⟨⟨j, hj⟩, hturn⟩ := Dev.jobTurn_spec h
    exact ⟨List.any_eq_true.mpr ⟨_, hj, by simp⟩, hturn⟩
  · refine gives_accepts (exec_dmac s p b data) ha hacc ⟨fun hp => Dev.takeDmac_polled (d := s.dev.accepted b) hm hp,
      fun hp ho => ?_, fun hp ho => Dev.takeDmac_other (d := s.dev.accepted b) hm hp ho⟩
    rw [Dev.takeDmac_overdue (d := s.dev.accepted b) hm hp ho]
    exact ⟨Dev.rd_count .., rfl, Dev.count_keeps ((keepsBut_keeps _ _).mono rfl)
      (upd_hst ((keepsBut_keeps _ _).mono rfl) (Dev.accepted_parts rfl))⟩
  · intro s p b ha hacc hup v
    refine gives_accepts (exec_irq s p b) ha hacc ⟨fun hfree => ?_, fun hbusy => ?_,
      Dev.takeIrq_keeps ((keepsBut_keeps _ _).mono rfl) (Dev.accepted_parts rfl)⟩
    · rw [Dev.takeIrq_free (d := s.dev.accepted b) hup hfree]
      exact ⟨fun hopen => by rw [Dev.raiseMsix_open (d := s.dev.accepted b) hopen]; rfl,
        fun hheld => Dev.raiseMsix_held (d := s.dev.accepted b) hheld⟩
    · rw [Dev.takeIrq_busy (d := s.dev.accepted b) hup hbusy]
      exact ⟨rfl, rfl⟩

end Sys2Proof.Machine
end

section
/-!
The host endpoint (R370 to R374, R517): accesses to BAR0, forwarded reads that time out, link-down, PERST_N and D3hot.
-/

namespace Sys2Proof.Machine

open Sys2Proof

/-! The commands, each the operation it runs out of reset -/

theorem exec_barAccess (s : State) (a : BitVec 30) (write : Bool) (v : Word) :
    exec (.barAccess a write v) s = s.up fun d => d.barAccess a.toNat write v.toNat := rfl

theorem exec_windowReadTimeout (s : State) (tag : BitVec 16) (tie : Bool) :
    exec (.windowReadTimeout tag tie) s = s.up fun d => d.readExpire tag.toNat tie := rfl

theorem exec_linkDown (s : State) : exec .linkDown s = s.up fun d => d.linkDown := rfl

theorem exec_perstN_asserted (s : State) : exec (.perstN .asserted) s = s.up fun d => d.perstOn := rfl

theorem exec_perstN_released (s : State) (rate width : BitVec 3) (flit : Bool) :
    exec (.perstN (.released rate width flit)) s = s.up fun d =>
      if d.locked 6 && !d.loopFailed 6 then d.perstOff rate.toNat width.toNat flit else d.perstOff 0 0 false := rfl

theorem exec_d3hot (s : State) (enter : Bool) : exec (.d3hot enter) s = s.up fun d => d.powerState enter := rfl

/-! Accesses to BAR0 (R370 to R372) -/

section
variable {d : Dev} {o : Origin} {t ofs v w a : Nat} {write : Bool}

theorem Dev.barAccess_closed (h : (d.isAnchor && d.hostUp) = false) : d.barAccess a write v = d := if_pos h

section
variable (hup : (d.isAnchor && d.hostUp) = true)
include hup

/-- The anchor's own window, written. -/
theorem Dev.barAccess_own_write (ht : a / 2 ^ 24 = d.devId) :
    d.barAccess a true v = d.put d.hostOrigin (a % 2 ^ 24) v := by
  unfold Dev.barAccess
  rw [if_neg (by simp [hup]), if_pos ht, if_pos rfl]

/-- The anchor's own window, read. -/
theorem Dev.barAccess_own_read (ht : a / 2 ^ 24 = d.devId) :
    d.barAccess a false v = (d.busRead d.hostOrigin (a % 2 ^ 24)).2.emit
      (.windowData (BitVec.ofNat 32 (d.busRead d.hostOrigin (a % 2 ^ 24)).1)) := by
  unfold Dev.barAccess
  rw [if_neg (by simp [hup]), if_pos ht, if_neg (by decide)]

/-- Another device's window, written. -/
theorem Dev.barAccess_forward_write (ht : a / 2 ^ 24 ≠ d.devId) :
    d.barAccess a true v = (d.forwardWrite d.hostOrigin (a / 2 ^ 24) (a % 2 ^ 24) v).1 := by
  unfold Dev.barAccess
  rw [if_neg (by simp [hup]), if_neg ht, if_pos rfl]

/-- Another device's window, read. -/
theorem Dev.barAccess_forward_read (ht : a / 2 ^ 24 ≠ d.devId) :
    d.barAccess a false v = d.forwardRead d.hostOrigin (a / 2 ^ 24) (a % 2 ^ 24) 0 := by
  unfold Dev.barAccess
  rw [if_neg (by simp [hup]), if_neg ht, if_neg (by decide)]

end

theorem Dev.forwardWrite_unreachable (ha : ofs / 4 * 4 ≠ Reg.logFwd) (h : d.reachable t = false) :
    (d.forwardWrite o t ofs v).1 = d.count Reg.hstWinUnreach := by
  rw [Dev.forwardWrite, if_neg ha, if_pos h]

theorem Dev.forwardRead_unreachable (h : d.reachable t = false) :
    d.forwardRead o t ofs w = (d.count Reg.hstWinUnreach).readDone w 0xFFFFFFFF := if_pos h

/-- A read awaits its completion under the next tag. -/
def Dev.awaitRead (d : Dev) (w : Nat) : Dev :=
  { d with msh := { d.msh with nextTag := d.msh.nextTag + 1, reads := d.msh.reads ++ [⟨d.msh.nextTag % 2 ^ 16, d.devNs, w⟩] } }

section
variable (hfwd : SMap.get (fun _ => none) d.msh.fwd t = some o)
include hfwd

/-- A member that knows the origin is not told it again (R413). -/
theorem Dev.tellOrigin_known : d.tellOrigin o t = d := if_pos hfwd

theorem Dev.forwardWrite_known (ha : ofs / 4 * 4 ≠ Reg.logFwd) (h : d.reachable t = true) :
    (d.forwardWrite o t ofs v).1 = d.sendWrite t ofs v := by
  rw [Dev.forwardWrite, if_neg ha, if_neg (by simp [h]), Dev.tellOrigin_known hfwd]

theorem Dev.forwardRead_known (h : d.reachable t = true) :
    d.forwardRead o t ofs w =
      ((d.awaitRead w).hostSend t 0x42 (wreqBody ofs false 1 (d.msh.nextTag % 2 ^ 16)) [] none).1 := by
  rw [Dev.forwardRead, if_neg (by simp [h]), Dev.tellOrigin_known hfwd]
  rfl

end

theorem Dev.sendWrite_queued (hv : v < 2 ^ 32) :
    d.queued t 0x42 (wreqBody ofs true 1 0) [BitVec.ofNat 128 v] none (d.sendWrite t ofs v) := by
  rw [Dev.sendWrite, Nat.mod_eq_of_lt hv]
  exact Dev.hostSend_queued ..

theorem Dev.pumpChan_reads (t n : Nat) : ∀ d : Dev, (d.pumpChan t n).msh.reads = d.msh.reads := by
  induction n with
  | zero => exact fun _ => rfl
  | succ n ih =>
    intro d
    unfold Dev.pumpChan
    dsimp only
    split
    · rfl
    · split
      · rw [ih, Dev.sendRouted_msh]
        rfl
      · rfl

theorem Dev.hostSend_reads {ty body : Nat} {data : List (BitVec 128)} {delivers : Option Nat} :
    (d.hostSend t ty body data delivers).1.msh.reads = d.msh.reads := Dev.pumpChan_reads ..

end

/-! Forwarded reads that time out (R372, R34) -/

section
variable {d : Dev} {tag : Nat} {tie : Bool} {x : FwdRead}

theorem Dev.readExpire_idle (h : (d.msh.reads.find? fun x => decide (x.rtag = tag) && decide (x.sentAt + 20000 ≤ d.devNs)) = none ∨
    tie = true) : d.readExpire tag tie = d := by
  unfold Dev.readExpire
  split
  · rfl
  · next hx =>
    rw [hx] at h
    exact if_pos (h.resolve_left (by simp))

theorem Dev.readExpire_due
    (h : (d.msh.reads.find? fun x => decide (x.rtag = tag) && decide (x.sentAt + 20000 ≤ d.devNs)) = some x) :
    d.readExpire tag false = ((d.dropRead tag).count Reg.hstWinTimeout).readDone x.waiter 0xFFFFFFFF := by
  unfold Dev.readExpire
  rw [h]
  rfl

end

/-! HSTATE changes what is put out and the lanes, and no more -/

section
variable (d : Dev)

theorem Dev.sendHstate_regs : d.sendHstate.regs = d.regs :=
  Dev.sendHstate_keeps (P := fun e => Part.same d e .regs) (Part.same_keeps .regs rfl) rfl

theorem Dev.sendHstate_hst : d.sendHstate.hst = d.hst :=
  Dev.sendHstate_keeps (P := fun e => Part.same d e .hst) (Part.same_keeps .hst rfl) rfl

end

/-! The rings of a link that is down, and of D3hot (R373, R374) -/

/-- The host side of e is that of d but for its rings. -/
def Dev.ringsApart (d e : Dev) : Prop := ∃ rings, e.hst = { d.hst with rings := rings }

/-- A ring that runs is stopped. -/
def Dev.stopOne (e : Dev) (r : Nat) : Dev := if e.hrOn r then e.ringStop r else e

section
variable {d e : Dev} {r a : Nat}

theorem Dev.ringsApart.ringStop (h : d.ringsApart e) : d.ringsApart (e.ringStop r) := by
  obtain ⟨rings, hrings⟩ := h
  exact ⟨(e.ringStop r).hst.rings, by rw [Dev.ringStop, Dev.setHring, Dev.wr_hst, hrings]⟩

theorem Dev.ringsApart.clearOne (h : d.ringsApart e) : d.ringsApart (Dev.clearOne e r) := by
  unfold Dev.clearOne
  split
  · obtain ⟨rings, hrings⟩ := Dev.ringsApart.ringStop (r := r) (e := e.setFld (Reg.hrCfg r) Fld.hrCfgEnable 0) h
    exact ⟨rings, by dsimp only; rw [Dev.logInternal_hst, hrings]⟩
  · exact h

theorem Dev.ringsApart.stopOne (h : d.ringsApart e) : d.ringsApart (e.stopOne r) := by
  unfold Dev.stopOne
  split
  · exact h.ringStop
  · exact h

theorem Dev.clearRings_eq (d : Dev) : d.clearRings = ((List.range 32).foldl Dev.clearOne d).dropTraffic := rfl

theorem Dev.stopRings_eq (d : Dev) : d.stopRings = ((List.range 32).foldl Dev.stopOne d).dropTraffic := rfl

theorem Dev.dropTraffic_regs (d : Dev) : d.dropTraffic.regs = d.regs := rfl

/-- What waited at the link is dropped (log entry 80), and the host side stays but for its rings. -/
theorem Dev.ringsApart.dropTraffic (h : d.ringsApart e) : ∃ rings, e.dropTraffic.hst = { d.hst with rings := rings, jobs := [] } := by
  obtain ⟨rings, hrings⟩ := h
  exact ⟨rings, by rw [Dev.dropTraffic, hrings]⟩

theorem Dev.clearRings_hst (d : Dev) : ∃ rings, d.clearRings.hst = { d.hst with rings := rings, jobs := [] } := by
  have hapart : d.ringsApart ((List.range 32).foldl Dev.clearOne d) := foldl_keeps (fun _ _ h => h.clearOne) ⟨_, rfl⟩
  rw [Dev.clearRings_eq]
  exact hapart.dropTraffic

theorem Dev.stopRings_hst (d : Dev) : ∃ rings, d.stopRings.hst = { d.hst with rings := rings, jobs := [] } := by
  have hapart : d.ringsApart ((List.range 32).foldl Dev.stopOne d) := foldl_keeps (fun _ _ h => h.stopOne) ⟨_, rfl⟩
  rw [Dev.stopRings_eq]
  exact hapart.dropTraffic

theorem Dev.stopOne_rd (h : a ≠ Reg.hrState r) : (e.stopOne r).rd a = e.rd a := by
  unfold Dev.stopOne
  split
  · exact Dev.ringStop_rd _ _ _ h
  · rfl

/-- Registers outside the host rings outlive the stop of the rings. -/
theorem Dev.stopRings_rd (h : a < Reg.hrCfg 0) : d.stopRings.rd a = d.rd a := by
  rw [Dev.stopRings_eq, Dev.rd_of_regs (Dev.dropTraffic_regs _)]
  exact Dev.foldl_rd _ _ _ (fun _ r _ => Dev.stopOne_rd (by unfold Reg.hrCfg at h; unfold Reg.hrState; omega)) d

/-- A ring that is enabled ends STOPPED. -/
theorem Dev.stopRings_state (hr : r < 32) (hon : d.hrOn r = true) : d.stopRings.hrState r = 0 := by
  rw [Dev.stopRings_eq, Dev.hrState, Dev.fld_of_rd (Dev.rd_of_regs (Dev.dropTraffic_regs _) _)]
  refine Dev.foldl_fld (fun e => e.hrOn r = true) Dev.stopOne (Reg.hrState r) Fld.hrStateState 0 r (fun e y he => ?_)
    (fun e he => ?_) (List.range 32) (List.mem_range.mpr hr) List.nodup_range (fun e y _ hy => ?_) d hon
  · exact (Dev.flag_of_rd (Dev.stopOne_rd (by unfold Reg.hrCfg Reg.hrState; omega)) _).trans he
  · rw [Dev.stopOne, if_pos he]
    obtain ⟨-, hstopped, -⟩ := Dev.ringStop_spec (d := e) (k := r)
    exact Dev.hrState_of_rd hstopped (by decide)
  · exact Dev.stopOne_rd (by unfold Reg.hrState; omega)

end

/-! The link (R373, R374) -/

/-- HST_LINK of a link that has gone down: no rate, no width, no FLIT mode, the next epoch. -/
def Dev.linkGone (d : Dev) : Dev :=
  let d := ((d.setFld Reg.hstLink Fld.hstLinkRate 0).setFld Reg.hstLink Fld.hstLinkWidth 0).setFld Reg.hstLink Fld.hstLinkFlit 0
  d.setFld Reg.hstLink Fld.hstLinkEpoch (d.fld Reg.hstLink Fld.hstLinkEpoch + 1)

/-- The endpoint in its reset: its configuration space and its MSI-X table cleared, and its function out of D3hot. -/
def Dev.endpointReset (d : Dev) : Dev :=
  { d with hst := { d.hst with perst := true, cfg := ⟨0, false, false, false⟩, msix := [], pba := [] } }.setFld Reg.hstLink
    Fld.hstLinkD3hot 0

/-- HST_LINK of a link that has trained, PERST_N released. -/
def Dev.linkTrained (d : Dev) (rate width : Nat) (flit : Bool) : Dev :=
  (({ d with hst := { d.hst with perst := false } }.setFld Reg.hstLink Fld.hstLinkRate rate).setFld Reg.hstLink
    Fld.hstLinkWidth width).setFld Reg.hstLink Fld.hstLinkFlit (bit01 flit)

section
variable {d : Dev} {rate width : Nat} {flit : Bool}

theorem Dev.linkGone_link :
    d.linkGone.fld Reg.hstLink Fld.hstLinkRate = 0 ∧ d.linkGone.fld Reg.hstLink Fld.hstLinkWidth = 0 ∧
      d.linkGone.fld Reg.hstLink Fld.hstLinkD3hot = d.fld Reg.hstLink Fld.hstLinkD3hot ∧
      d.linkGone.fld Reg.hstLink Fld.hstLinkEpoch = (d.fld Reg.hstLink Fld.hstLinkEpoch + 1) % 2 ^ 16 := by
  unfold Dev.linkGone
  refine ⟨?_, ?_, ?_, ?_⟩ <;> simp (disch := decide) only [Dev.fld_setFld_same, Dev.fld_setFld_fld]
  all_goals rfl

theorem Dev.linkDown_idle (h : d.isAnchor = false ∨ d.fld Reg.hstLink Fld.hstLinkRate = 0) : d.linkDown = d :=
  if_neg fun hc => h.elim (by simp [hc.1]) hc.2

theorem Dev.linkDown_up (ha : d.isAnchor = true) (h : d.fld Reg.hstLink Fld.hstLinkRate ≠ 0) :
    d.linkDown = d.linkGone.clearRings.sendHstate := if_pos ⟨ha, h⟩

/-- HST_LINK outlives the clear of the rings. -/
theorem Dev.clearRings_link (f : Fld) : d.clearRings.fld Reg.hstLink f = d.fld Reg.hstLink f :=
  Dev.fld_of_rd (Dev.clearRings_rd _ _ (fun r _ => by unfold Reg.hstLink Reg.hrCfg Reg.hrState; omega) (by decide) (by decide)) f

theorem Dev.sendHstate_fld (d : Dev) (a : Nat) (f : Fld) : d.sendHstate.fld a f = d.fld a f :=
  Dev.fld_of_rd (Dev.rd_of_regs d.sendHstate_regs a) f

/-- A link that goes down: HST_LINK, no ring enabled, and no message waiting. -/
theorem Dev.linkDown_spec (ha : d.isAnchor = true) (h : d.fld Reg.hstLink Fld.hstLinkRate ≠ 0) :
    (∀ f, d.linkDown.fld Reg.hstLink f = d.linkGone.fld Reg.hstLink f) ∧ (∀ r, r < 32 → d.linkDown.hrOn r = false) ∧
      ∃ rings, d.linkDown.hst = { d.hst with rings := rings, jobs := [] } := by
  rw [Dev.linkDown_up ha h]
  refine ⟨fun f => (Dev.sendHstate_fld ..).trans (Dev.clearRings_link f), fun r hr => ?_, ?_⟩
  · exact (Dev.flag_of_rd (Dev.rd_of_regs (Dev.sendHstate_regs _) _) _).trans (Dev.clearRings_off _ r hr)
  · rw [Dev.sendHstate_hst]
    exact Dev.clearRings_hst d.linkGone

/-! PERST_N (R374, R517) -/

theorem Dev.endpointReset_link :
    d.endpointReset.fld Reg.hstLink Fld.hstLinkD3hot = 0 ∧
      d.endpointReset.fld Reg.hstLink Fld.hstLinkRate = d.fld Reg.hstLink Fld.hstLinkRate := by
  unfold Dev.endpointReset
  refine ⟨?_, ?_⟩ <;> simp (disch := decide) only [Dev.fld_setFld_same, Dev.fld_setFld_fld]
  all_goals rfl

theorem Dev.endpointReset_isAnchor : d.endpointReset.isAnchor = d.isAnchor :=
  (Dev.anchor_of_rd (Dev.rd_setFld_ne _ _ _ (by decide))).2

theorem Dev.perstOn_idle (h : d.isAnchor = false) : d.perstOn = d := if_neg (by simp [h])

theorem Dev.perstOn_down (ha : d.isAnchor = true) (h : d.fld Reg.hstLink Fld.hstLinkRate = 0) :
    d.perstOn = if d.flag Reg.hstLink Fld.hstLinkD3hot then d.endpointReset.sendHstate else d.endpointReset := by
  unfold Dev.perstOn
  rw [if_pos ha]
  exact if_pos (decide_eq_true h)

theorem Dev.perstOn_up (ha : d.isAnchor = true) (h : d.fld Reg.hstLink Fld.hstLinkRate ≠ 0) :
    d.perstOn = d.endpointReset.linkDown := by
  unfold Dev.perstOn
  rw [if_pos ha]
  exact if_neg (by simp [h])

/-- PERST_N asserted leaves the endpoint in its reset, and its link down. -/
theorem Dev.perstOn_spec (ha : d.isAnchor = true) :
    d.perstOn.fld Reg.hstLink Fld.hstLinkD3hot = 0 ∧ d.perstOn.fld Reg.hstLink Fld.hstLinkRate = 0 ∧
      ∃ rings jobs, d.perstOn.hst = { d.endpointReset.hst with rings := rings, jobs := jobs } := by
  obtain ⟨hd3, hrate⟩ := d.endpointReset_link
  by_cases h : d.fld Reg.hstLink Fld.hstLinkRate = 0
  · rw [Dev.perstOn_down ha h]
    rw [h] at hrate
    split
    · exact ⟨(Dev.sendHstate_fld ..).trans hd3, (Dev.sendHstate_fld ..).trans hrate, _, _, Dev.sendHstate_hst _⟩
    · exact ⟨hd3, hrate, _, _, rfl⟩
  · rw [Dev.perstOn_up ha h]
    obtain ⟨hlink, -, rings, hhst⟩ := Dev.linkDown_spec (Dev.endpointReset_isAnchor.trans ha) (by rwa [hrate])
    obtain ⟨hrate', -, hd3', -⟩ := d.endpointReset.linkGone_link
    exact ⟨(hlink _).trans (hd3'.trans hd3), (hlink _).trans hrate', rings, _, hhst⟩

theorem Dev.linkTrained_link :
    (d.linkTrained rate width flit).fld Reg.hstLink Fld.hstLinkRate = rate % 2 ^ 3 ∧
      (d.linkTrained rate width flit).fld Reg.hstLink Fld.hstLinkWidth = width % 2 ^ 3 ∧
      (d.linkTrained rate width flit).flag Reg.hstLink Fld.hstLinkFlit = flit := by
  unfold Dev.linkTrained Dev.flag
  refine ⟨?_, ?_, ?_⟩ <;> simp (disch := decide) only [Dev.fld_setFld_same, Dev.fld_setFld_fld]
  all_goals cases flit <;> rfl

theorem Dev.linkTrained_regsBut : d.regsBut [Reg.hstLink] (d.linkTrained rate width flit) :=
  (((Dev.regsBut_of_regs _ rfl).setFld (by simp) _ _).setFld (by simp) _ _).setFld (by simp) _ _

theorem Dev.configured_regs (d : Dev) : d.configured.regs = d.regs :=
  Dev.configured_keeps (P := fun e => Part.same d e .regs) (Part.same_keeps .regs rfl) rfl

theorem Dev.perstOff_idle (h : d.isAnchor = false) : d.perstOff rate width flit = d := if_neg (by simp [h])

theorem Dev.perstOff_eq (ha : d.isAnchor = true) :
    d.perstOff rate width flit = (d.linkTrained rate width flit).configured.sendHstate := if_pos ha

/-- PERST_N released shows the link as it has trained. -/
theorem Dev.perstOff_spec (ha : d.isAnchor = true) :
    (d.perstOff rate width flit).hst.perst = false ∧ (d.perstOff rate width flit).fld Reg.hstLink Fld.hstLinkRate = rate % 2 ^ 3 ∧
      (d.perstOff rate width flit).fld Reg.hstLink Fld.hstLinkWidth = width % 2 ^ 3 ∧
      (d.perstOff rate width flit).flag Reg.hstLink Fld.hstLinkFlit = flit ∧ d.regsBut [Reg.hstLink] (d.perstOff rate width flit) := by
  have hregs : (d.perstOff rate width flit).regs = (d.linkTrained rate width flit).regs := by
    rw [Dev.perstOff_eq ha, Dev.sendHstate_regs, Dev.configured_regs]
  have hrd := Dev.rd_of_regs hregs Reg.hstLink
  obtain ⟨hrate, hwidth, hflit⟩ := d.linkTrained_link (rate := rate) (width := width) (flit := flit)
  refine ⟨?_, (Dev.fld_of_rd hrd _).trans hrate, (Dev.fld_of_rd hrd _).trans hwidth, (Dev.flag_of_rd hrd _).trans hflit,
    Dev.linkTrained_regsBut.trans (Dev.regsBut_of_regs _ hregs)⟩
  rw [Dev.perstOff_eq ha, Dev.sendHstate_hst]
  rfl

/-! D3hot (R373) -/

theorem Dev.powerState_idle {d3 : Bool} (h : d.isAnchor = false) : d.powerState d3 = d := if_neg (by simp [h])

theorem Dev.powerState_enter (ha : d.isAnchor = true) :
    d.powerState true = (d.setFld Reg.hstLink Fld.hstLinkD3hot 1).stopRings.sendHstate := by
  unfold Dev.powerState
  rw [if_pos ha]
  dsimp only
  rw [if_pos rfl]
  rfl

theorem Dev.powerState_leave (ha : d.isAnchor = true) :
    d.powerState false = (d.setFld Reg.hstLink Fld.hstLinkD3hot 0).pumpMsix.sendHstate := by
  unfold Dev.powerState
  rw [if_pos ha]
  dsimp only
  rw [if_neg (by decide)]
  rfl

theorem Dev.pumpMsix_regs (d : Dev) : d.pumpMsix.regs = d.regs :=
  Dev.pumpMsix_keeps (P := fun e => Part.same d e .regs) (Part.same_keeps .regs rfl) rfl

/-- D3hot entered: its flag, no message waiting, and every enabled ring STOPPED. -/
theorem Dev.powerState_enter_spec (ha : d.isAnchor = true) :
    (d.powerState true).flag Reg.hstLink Fld.hstLinkD3hot = true ∧
      (∃ rings, (d.powerState true).hst = { d.hst with rings := rings, jobs := [] }) ∧
      ∀ r, r < 32 → d.hrOn r = true → (d.powerState true).hrState r = 0 := by
  rw [Dev.powerState_enter ha]
  refine ⟨?_, ?_, fun r hr hon => ?_⟩
  · rw [Dev.flag_of_rd (Dev.rd_of_regs (Dev.sendHstate_regs _) _), Dev.flag_of_rd (Dev.stopRings_rd (by decide)),
      Dev.flag_setFld_same _ _ _ _ (by decide)]
    rfl
  · rw [Dev.sendHstate_hst]
    exact Dev.stopRings_hst (d.setFld Reg.hstLink Fld.hstLinkD3hot 1)
  · have hon' : (d.setFld Reg.hstLink Fld.hstLinkD3hot 1).hrOn r = true :=
      (Dev.flag_setFld_ne _ _ _ _ (by unfold Reg.hrCfg Reg.hstLink; omega)).trans hon
    exact (Dev.sendHstate_fld ..).trans (Dev.stopRings_state hr hon')

/-- D3hot left: its flag, and no other register. -/
theorem Dev.powerState_leave_spec (ha : d.isAnchor = true) :
    (d.powerState false).flag Reg.hstLink Fld.hstLinkD3hot = false ∧ d.regsBut [Reg.hstLink] (d.powerState false) := by
  have hregs : (d.powerState false).regs = (d.setFld Reg.hstLink Fld.hstLinkD3hot 0).regs := by
    rw [Dev.powerState_leave ha, Dev.sendHstate_regs, Dev.pumpMsix_regs]
  refine ⟨?_, ((Dev.regsBut_refl _ d).setFld (by simp) _ _).trans (Dev.regsBut_of_regs _ hregs)⟩
  rw [Dev.flag_of_rd (Dev.rd_of_regs hregs _), Dev.flag_setFld_same _ _ _ _ (by decide)]
  rfl

end

/-- Settles O52: BAR0, a forwarded read's timeout, the link down, PERST_N, and D3hot. -/
theorem hostLink : Obligations.HostLink := by
  refine ⟨?_, ?_, fun s hreset => ?_, fun s hreset => ⟨?_, fun rate width flit => ?_⟩, fun s enter hreset => ?_⟩
  · intro s a v hreset t ofs
    have hbar : ∀ w {P : Dev → Prop}, P (s.dev.barAccess a.toNat w v.toNat) → Gives (.barAccess a w v) s P :=
      fun w _ h => gives_up (exec_barAccess s a w v) hreset h
    refine ⟨fun hdown w => hbar w (Dev.barAccess_closed hdown), fun hup => ⟨fun ht => ⟨hbar _ ?_, hbar _ ?_⟩,
      fun ht hreach => ⟨fun hofs => hbar _ ?_, hbar _ ?_⟩, fun ht hreach hfwd => ⟨fun hofs => hbar _ ?_, hbar _ ?_⟩⟩⟩
    · exact Dev.barAccess_own_write hup ht
    · rw [Dev.barAccess_own_read hup ht]
      have hcaps : s.dev.keepsBut [.caps, .outbox] (s.dev.busRead s.dev.hostOrigin ofs).2 :=
        Dev.busRead_keeps ((keepsBut_keeps _ _).mono rfl) (keepsBut_refl _ _)
      have hout : (s.dev.busRead s.dev.hostOrigin ofs).2.outbox = s.dev.outbox :=
        Dev.busRead_keeps (Part.same_keeps (d := s.dev) .outbox rfl) rfl
      exact ⟨congrArg _ hout, Dev.emit_keeps ((keepsBut_keeps _ _).mono rfl) hcaps⟩
    · rw [Dev.barAccess_forward_write hup ht, Dev.forwardWrite_unreachable hofs hreach]
      exact ⟨Dev.rd_count .., (Dev.wr_frame ..).1, (Dev.wr_frame ..).2⟩
    · rw [Dev.barAccess_forward_read hup ht, Dev.forwardRead_unreachable hreach, Dev.readDone_host rfl]
      exact ⟨Dev.rd_count .., rfl, (Dev.wr_frame ..).1, Dev.emit_keeps ((keepsBut_keeps _ _).mono rfl)
        (Dev.count_keeps ((keepsBut_keeps _ _).mono rfl) (keepsBut_refl _ _))⟩
    · rw [Dev.barAccess_forward_write hup ht, Dev.forwardWrite_known hfwd hofs hreach]
      exact ⟨Dev.sendWrite_queued v.isLt, Dev.sendWrite_keeps (keepsBut_keeps _ _) (keepsBut_refl _ _)⟩
    · rw [Dev.barAccess_forward_read hup ht, Dev.forwardRead_known hfwd hreach]
      exact ⟨(Dev.hostSend_queued ..).of_chan rfl, Dev.hostSend_reads, Dev.hostSend_keeps (keepsBut_keeps _ _)
        (upd_msh ((keepsBut_keeps _ _).mono rfl) (keepsBut_refl _ _))⟩
  · intro s tag tie hreset hit
    refine gives_up (exec_windowReadTimeout s tag tie) hreset ⟨Dev.readExpire_idle, fun x hx htie => ?_,
      Dev.readExpire_keeps (keepsBut_keeps _ _) (keepsBut_refl _ _)⟩
    rw [htie, Dev.readExpire_due hx]
    exact ⟨by rw [Dev.readDone_msh]; exact Dev.dropRead_reads,
      (Dev.rd_of_regs Dev.readDone_regs _).trans (Dev.rd_count (s.dev.dropRead tag.toNat) _),
      fun hw => by rw [Dev.readDone_host hw]; rfl, fun hw => by rw [Dev.readDone_mgt hw]; rfl⟩
  · refine gives_up (exec_linkDown s) hreset ⟨Dev.linkDown_idle, fun ha hrate => ?_,
      Dev.linkDown_keeps (keepsBut_keeps _ _) (keepsBut_refl _ _)⟩
    obtain ⟨hlink, hoff, rings, hhst⟩ := Dev.linkDown_spec ha hrate
    obtain ⟨hrate', hwidth, -, hepoch⟩ := s.dev.linkGone_link
    exact ⟨(hlink _).trans hrate', (hlink _).trans hwidth, (hlink _).trans hepoch, hoff, by rw [hhst], by rw [hhst]⟩
  · refine gives_up (exec_perstN_asserted s) hreset ⟨Dev.perstOn_idle, fun ha => ?_,
      Dev.perstOn_keeps (keepsBut_keeps _ _) (keepsBut_refl _ _)⟩
    obtain ⟨hd3, hrate, rings, jobs, hhst⟩ := Dev.perstOn_spec ha
    rw [hhst]
    exact ⟨rfl, rfl, rfl, rfl, hd3, hrate⟩
  · refine gives_up (exec_perstN_released s rate width flit) hreset ?_
    have hkeep : ∀ rate width flit, s.dev.keepsBut [.regs, .freeCtr, .outbox, .ing, .hst] (s.dev.perstOff rate width flit) :=
      fun _ _ _ => Dev.perstOff_keeps (keepsBut_keeps _ _) (keepsBut_refl _ _)
    cases htrains : s.dev.locked 6 && !s.dev.loopFailed 6
    · refine ⟨Dev.perstOff_idle, fun ha => ?_, hkeep _ _ _⟩
      exact Dev.perstOff_spec (rate := 0) (width := 0) (flit := false) ha
    · refine ⟨Dev.perstOff_idle, fun ha => ?_, hkeep _ _ _⟩
      have hspec := Dev.perstOff_spec (rate := rate.toNat) (width := width.toNat) (flit := flit) ha
      rwa [Nat.mod_eq_of_lt rate.isLt, Nat.mod_eq_of_lt width.isLt] at hspec
  · refine gives_up (exec_d3hot s enter) hreset ⟨Dev.powerState_idle, fun ha => ?_,
      Dev.powerState_keeps (keepsBut_keeps _ _) (keepsBut_refl _ _)⟩
    cases enter
    · obtain ⟨hflag, hregs⟩ := Dev.powerState_leave_spec ha
      exact ⟨hflag, by simp, fun _ => hregs⟩
    · obtain ⟨hflag, ⟨rings, hhst⟩, hstop⟩ := Dev.powerState_enter_spec ha
      exact ⟨hflag, fun _ => ⟨by rw [hhst], by rw [hhst], hstop⟩, by simp⟩

end Sys2Proof.Machine
end

