-- ==== Sys2Proof/Laws/Steps.lean ====
section
/-!
SUPPORT. The step with nothing waiting: what the ns of time, the ACKs, the slots and the anchor's turn each leave, and the commands
that only a device out of FAULT answers.
-/

namespace Sys2Proof.Machine

open Sys2Proof

/-! A ns of device time -/

theorem Dev.tick_of_reset (d : Dev) (h : d.inReset = true) : d.tick = d := by simp [Dev.tick, h]

theorem Dev.alive_of_reset (d : Dev) (h : d.inReset = true) : d.alive = false := by simp [Dev.alive, h]

theorem Dev.idle_of_reset (d : Dev) (h : d.inReset = true) : d.idle = d := by
  rw [Dev.idle, Dev.tick_of_reset d h, Dev.alive_of_reset d h]; rfl

/-- What the passage of a ns does to a device out of reset (R32, R320). -/
def Dev.ticked (d e : Dev) : Prop :=
  e.devNs = d.devNs + 1 ∧ e.tms.ctr = (Int.ofNat (d.tms.ctr + 2 ^ 40) - d.tms.y).toNat ∧ d.regsBut [Reg.tmsHoldoverMs] e ∧
    d.keepsBut [.regs, .devNs, .tms] e

theorem Dev.tick_ticked (d : Dev) (h : d.inReset = false) : d.ticked d.tick := by
  have hk : d.keepsBut [.regs, .devNs, .tms] d.tick := Dev.tick_keeps (keepsBut_keeps _ d) (keepsBut_refl _ d)
  revert hk
  unfold Dev.tick
  rw [h]
  extract_lets e held
  split
  · contradiction
  · split
    · split
      · exact fun hk => ⟨rfl, rfl, (Dev.regsBut_refl _ _).count (List.mem_singleton_self _), hk⟩
      · exact fun hk => ⟨rfl, rfl, fun _ _ => rfl, hk⟩
    · exact fun hk => ⟨rfl, rfl, fun _ _ => rfl, hk⟩

theorem Dev.ticked.alive {d e : Dev} (h : d.ticked e) : e.alive = d.alive := by
  obtain ⟨-, -, hr, hk⟩ := h
  have hm : e.mode = d.mode := Dev.fld_of_rd (hr _ (by decide)) _
  have hi : e.inReset = d.inReset := hk .inReset rfl
  rw [Dev.alive, Dev.alive, hm, hi]

/-! What the ACKs, the slots and the turn leave -/

theorem Dev.acksDue_keepsBut (d : Dev) : d.keepsBut [.outbox, .ing, .msh] d.acksDue :=
  Dev.acksDue_keeps (keepsBut_keeps _ d) (keepsBut_refl _ d)

theorem Dev.laneSlots_keepsBut (d : Dev) : d.keepsBut [.outbox, .ing] d.laneSlots :=
  Dev.laneSlots_keeps (keepsBut_keeps _ d) (keepsBut_refl _ d)

/-- The blocks and ACKs of a ns, sent. -/
theorem Dev.sent_keepsBut (d : Dev) : d.keepsBut [.outbox, .ing, .msh] d.acksDue.laneSlots :=
  d.acksDue_keepsBut.trans (d.acksDue.laneSlots_keepsBut.mono rfl)

theorem Dev.serveJob_keepsBut (d : Dev) : d.keepsBut [.regs, .outbox, .ing, .store, .msh, .hst] d.serveJob :=
  Dev.serveJob_keeps (keepsBut_keeps _ d) (keepsBut_refl _ d)

theorem Dev.acksDue_of_none (d : Dev) (h : ∀ t, (d.chan t).owed = none) : d.acksDue = d := by
  unfold Dev.acksDue
  induction d.msh.chans.map Prod.fst with
  | nil => rfl
  | cons t ts ih => rw [List.foldl_cons, h t]; exact ih

theorem Dev.laneSlot_of_nil (d : Dev) (l : LaneId) (h : (d.lane l).txq = []) : d.laneSlot l = d := by
  have hn : nextBlock [] = none := rfl
  unfold Dev.laneSlot
  dsimp only
  rw [h, hn]
  split
  · rfl
  · split <;> rfl

theorem Dev.laneSlots_of_nil (d : Dev) (h : ∀ l, (d.lane l).txq = []) : d.laneSlots = d := by
  unfold Dev.laneSlots
  induction List.range 24 with
  | nil => rfl
  | cons i is ih => rw [List.foldl_cons, Dev.laneSlot_of_nil d _ (h _)]; exact ih

theorem Dev.serveJob_of_nil (d : Dev) (h : d.hst.jobs = []) : d.serveJob = d := by
  have ht : d.jobTurn = none := by rw [Dev.jobTurn, h]; rfl
  rw [Dev.serveJob, ht]

/-- The only source that waits has the turn (R372). -/
theorem Dev.jobTurn_single (d : Dev) {src : Nat} {j : HostJob} (h : d.hst.jobs = [(src, j)]) : d.jobTurn = some src := by
  rw [Dev.jobTurn, h]
  by_cases hl : d.hst.jobLast < src
  · simp [hl, listMin]
  · simp [hl, listMin]

theorem Dev.serveJob_single (d : Dev) {src : Nat} {j : HostJob} (h : d.hst.jobs = [(src, j)]) :
    d.serveJob.hst.jobs = [] ∧ d.serveJob.hst.jobLast = src := by
  have hf : d.hst.jobs.find? (fun x => decide (x.1 = src)) = some (src, j) := by rw [h]; simp
  unfold Dev.serveJob
  rw [d.jobTurn_single h]
  dsimp only
  rw [hf]
  dsimp only
  obtain ⟨p, hp⟩ := Dev.issueJob_hst { d with hst := { d.hst with jobs := d.hst.jobs.erase (src, j), jobLast := src, jobAt := some d.devNs } } src j
  rw [hp, h]
  exact ⟨List.erase_cons_head .., rfl⟩

/-- The idle step of a device out of reset: the ns passes, and what goes out after it. -/
theorem Dev.idle_cases (d : Dev) : (d.tick.alive = true ∧ d.idle = d.tick.acksDue.laneSlots.serveJob) ∨ (d.tick.alive = false ∧ d.idle = d.tick) := by
  by_cases h : d.tick.alive = true
  · exact .inl ⟨h, if_pos h⟩
  · exact .inr ⟨Bool.eq_false_of_not_eq_true h, if_neg h⟩

theorem Dev.idle_of_noJobs (d : Dev) (hr : d.inReset = false) (h : d.hst.jobs = []) :
    d.idle = d.tick ∨ d.idle = d.tick.acksDue.laneSlots := by
  obtain ⟨-, -, -, hk⟩ := d.tick_ticked hr
  have hh : d.tick.acksDue.laneSlots.hst = d.hst := (d.tick.sent_keepsBut .hst rfl).trans (hk .hst rfl)
  obtain ⟨-, e⟩ | ⟨-, e⟩ := d.idle_cases
  · rw [Dev.serveJob_of_nil _ (by rw [hh, h])] at e
    exact .inr e
  · exact .inl e

/-! Commands in reset and in FAULT -/

theorem State.timed_live (s : State) (f : Dev → Dev) : s.timed f = s.live fun d => if d.fit 36 then f d else d := rfl

theorem State.onLane_live (s : State) (l : LaneId) (f : Dev → Dev) : s.onLane l f = s.live fun d => (f d).laneSync l := rfl

/-- A command that no pin gives is answered only outside FAULT, or is one that FAULT leaves and is answered out of reset: every arm
is one of the wrappers of a command's meaning. -/
theorem exec_live_or_up (i : Instr) (s : State) (h : pinCommand i = false) :
    (∃ f, exec i s = s.live f) ∨ faultCommand i = true ∧ ∃ f, exec i s = s.up f := by
  unfold exec
  cases i <;> first
    | exact .inl ⟨_, rfl⟩
    | exact .inl ⟨_, State.timed_live s _⟩
    | exact .inl ⟨_, State.onLane_live s _ _⟩
    | exact .inr ⟨rfl, _, rfl⟩
    | exact absurd h Bool.noConfusion

theorem State.live_of_dead (s : State) (f : Dev → Dev) (h : s.dev.alive = false) : s.live f = .next s := by
  rw [State.live, h]; rfl

theorem State.up_of_reset (s : State) (f : Dev → Dev) (h : s.dev.inReset = true) : s.up f = .next s := by
  rw [State.up, h]; rfl

end Sys2Proof.Machine
end

