-- ==== Sys2Proof/Proofs/Steps.lean ====
section
/-!
The step, the state after reset, the frame of every command and who acts in reset and in FAULT.
-/

namespace Sys2Proof.Machine

open Sys2Proof

/-- Settles O57: every arm's own frame lemma, for the parts and for the outbox. -/
theorem commandFrame : Obligations.CommandFrame := fun i s =>
  Gives.and (exec_ends i s (keepsBut_keeps _ _) (keepsBut_refl _ _)) (exec_ends i s (grows_keeps _ _) (List.suffix_refl _))

/-- Settles O58: in reset every command that no pin gives is discarded; in FAULT those are discarded that are answered only outside it. -/
theorem whoActs : Obligations.WhoActs := by
  intro i s
  refine ⟨fun hr hp => ?_, fun hm hp hf => ?_⟩
  · obtain ⟨f, e⟩ | ⟨-, f, e⟩ := exec_live_or_up i s hp
    · rw [e, State.live_of_dead s f (Dev.alive_of_reset _ hr)]
    · rw [e, State.up_of_reset s f hr]
  · obtain ⟨f, e⟩ | ⟨hf', -⟩ := exec_live_or_up i s hp
    · rw [e, State.live_of_dead s f (by simp [Dev.alive, hm])]
    · rw [hf'] at hf; cases hf

/-- Settles O55: the register window after reset is empty, so that every register reads its reset word. -/
theorem resetState : Obligations.ResetState :=
  ⟨rfl, rfl, rfl, fun _ => rfl, by decide, by decide, by decide, by decide, rfl, rfl, RegsOk.nil, SlotsOk.nil, LogOk.init⟩

/-- Settles O54: the ns that passes, then the ACKs, the slots and the anchor's turn, each with what it leaves. -/
theorem stepRunsFront : Obligations.StepRunsFront := by
  unfold Obligations.StepRunsFront
  have hstep (s : State) (hq : s.pending = []) : step s = .next { s with dev := s.dev.idle } := by
    obtain ⟨d, q⟩ := s
    cases hq
    rfl
  refine ⟨fun _ _ => rfl, fun s i rest hq => by unfold step; rw [hq], fun s hq hr => ?_, fun s hq hr => ⟨s.dev.idle, hstep s hq, ?_⟩⟩
  · rw [hstep s hq, Dev.idle_of_reset _ hr]
  · obtain ⟨d, rest⟩ := s
    dsimp only at hr ⊢
    have ht := d.tick_ticked hr
    obtain ⟨hns, hctr, hregs, hk⟩ := ht
    have hs := d.tick.sent_keepsBut
    refine ⟨?_, ?_, fun hj => ?_, fun hj ho hx => ?_, fun src j ha hj => ?_, Dev.idle_keeps (keepsBut_keeps _ _) (keepsBut_refl _ _)⟩
    · obtain ⟨-, e⟩ | ⟨-, e⟩ := d.idle_cases
      · rw [e, ← hns]
        exact ((Dev.serveJob_keepsBut _) .devNs rfl).trans (hs .devNs rfl)
      · rw [e, hns]
    · obtain ⟨-, e⟩ | ⟨-, e⟩ := d.idle_cases
      · rw [e, ← hctr]
        exact congrArg TmsSt.ctr (((Dev.serveJob_keepsBut _) .tms rfl).trans (hs .tms rfl))
      · rw [e, hctr]
    · obtain e | e := d.idle_of_noJobs hr hj
      · rw [e]
        exact ⟨hregs, hk.mono rfl⟩
      · rw [e]
        exact ⟨hregs.trans (Dev.regsBut_of_regs _ (hs .regs rfl)), (hk.mono rfl).trans (hs.mono rfl)⟩
    · have hc (t : Nat) : (d.tick.chan t).owed = none := by
        rw [Dev.chan, hk .msh rfl]; exact ho t
      have hl (l : LaneId) : (d.tick.lane l).txq = [] := by
        rw [Dev.lane, hk .ing rfl]; exact hx l
      obtain e | e := d.idle_of_noJobs hr hj
      · rw [e]; exact hk
      · rw [e, Dev.acksDue_of_none _ hc, Dev.laneSlots_of_nil _ hl]; exact hk
    · have hh : d.tick.acksDue.laneSlots.hst = d.hst := (hs .hst rfl).trans (hk .hst rfl)
      obtain ⟨-, e⟩ | ⟨hd, -⟩ := d.idle_cases
      · rw [e]
        exact Dev.serveJob_single _ (by rw [hh, hj])
      · rw [(d.tick_ticked hr).alive, ha] at hd
        cases hd

end Sys2Proof.Machine
end

