-- ==== Sys2Proof/Laws/Loops.lean ====
section
/-!
SUPPORT. Loops, references and clock generators: the bits of CLK_LOCK, CLK_FAILED and CLK_STAT after each change.
-/

namespace Sys2Proof.Machine

open Sys2Proof

theorem exec_loopLock (s : State) (i : Fin 18) : exec (.loopLock i) s = s.live fun d => d.loopLock i.val := rfl

theorem exec_loopLockTimeout (s : State) : exec .loopLockTimeout s = s.live Dev.loopTimeout := rfl

theorem exec_dividerStep (s : State) (g : ClockGen) : exec (.dividerStep g) s = s.live fun d => d.divStep g := rfl

theorem exec_referenceQualified (s : State) (r : RefInput) (counts : List Nat) :
    exec (.referenceQualified r counts) s = s.live fun d => d.refQualified r counts := rfl

theorem exec_referenceLost (s : State) (r : RefInput) : exec (.referenceLost r) s = s.live fun d => d.refLost r := rfl

theorem exec_relock (s : State) (i : Fin 18) : exec (.relock i) s = s.live fun d => d.relock i.val := rfl

theorem exec_timeoscRequalified (s : State) : exec .timeoscRequalified s = s.live Dev.oscRequalified := rfl

/-! Locks and failures -/

theorem Dev.regsBut.wr {A : List Nat} {d e : Dev} {a : Nat} (h : d.regsBut A e) (ha : a ∈ A) (v : Nat) : d.regsBut A (e.wr a v) :=
  h.trans fun _ hb => Dev.rd_wr_ne _ _ (ne_of_mem_of_not_mem ha hb).symm

theorem Dev.locked_of_rd {d e : Dev} (h : e.rd Reg.clkLock = d.rd Reg.clkLock) (i : Nat) : e.locked i = d.locked i := by
  unfold Dev.locked; rw [h]

theorem Dev.loopFailed_of_rd {d e : Dev} (h : e.rd Reg.clkFailed = d.rd Reg.clkFailed) (i : Nat) : e.loopFailed i = d.loopFailed i := by
  unfold Dev.loopFailed; rw [h]

theorem Dev.locked_lockBit (d : Dev) {i j : Nat} (b : Bool) (h : j < 32) :
    (d.wr Reg.clkLock (putBit (d.rd Reg.clkLock) i b)).locked j = if j = i then b else d.locked j := by
  split
  · next e => rw [e]; exact Dev.bitAt_wr_putBit_same d _ _ _ (e ▸ h)
  · next e => exact Dev.bitAt_wr_putBit_ne d _ _ _ h e

/-- What a failed loop leaves of its units holds no register below the channels' but TMS_STAT. -/
theorem Dev.loopFails_rd (d : Dev) (i : Nat) {a : Nat} (ha : a < 0x141000) (ht : a ≠ Reg.tmsStat) :
    (d.loopFails i).rd a = (d.wr Reg.clkFailed (putBit (d.rd Reg.clkFailed) i true)).rd a := by
  unfold Dev.loopFails
  extract_lets e
  split
  · exact Dev.rd_wr_ne _ _ ht
  · split
    · refine Dev.foldl_rd _ _ _ (fun f c _ => ?_) e
      split
      · exact Dev.rd_setFld_ne _ _ _ (by unfold Reg.chStat; omega)
      · rfl
    · split
      · refine Dev.foldl_rd _ _ _ (fun f k _ => ?_) e
        dsimp only
        split
        · exact Dev.setStackState_rd _ (by unfold Reg.stkScfg; omega) (by unfold Reg.dieStat; omega)
        · rfl
      · rfl

theorem Dev.loopFails_failed (d : Dev) (i : Nat) {j : Nat} (h : j < 32) :
    (d.loopFails i).loopFailed j = (d.loopFailed j || decide (j = i)) := by
  rw [Dev.loopFailed_of_rd (d.loopFails_rd i (by decide) (by decide))]
  by_cases e : j = i
  · rw [decide_eq_true e, Bool.or_true, ← e]
    exact Dev.bitAt_wr_putBit_same d _ _ _ h
  · rw [decide_eq_false e, Bool.or_false]
    exact Dev.bitAt_wr_putBit_ne d _ _ _ h e

theorem Dev.loopsFail_failed (is : List Nat) (d : Dev) {j : Nat} (h : j < 32) :
    (is.foldl Dev.loopFails d).loopFailed j = (d.loopFailed j || decide (j ∈ is)) := by
  induction is generalizing d with
  | nil => simp
  | cons i is ih => rw [List.foldl_cons, ih, Dev.loopFails_failed d i h]; simp [Bool.or_assoc]

theorem Dev.loopsFail_rd (is : List Nat) (d : Dev) {a : Nat} (ha : a < 0x141000) (ht : a ≠ Reg.tmsStat) (hf : a ≠ Reg.clkFailed) :
    (is.foldl Dev.loopFails d).rd a = d.rd a :=
  Dev.foldl_rd _ _ _ (fun e i _ => (e.loopFails_rd i ha ht).trans (Dev.rd_wr_ne _ _ hf)) d

/-! CLK_STAT -/

/-- TIME moves to TIMEOSC where it can; else it stays (R323, R479). -/
theorem Dev.timeToOsc_spec (d : Dev) :
    d.timeToOsc.flag Reg.clkStat Fld.clkStatTimeOnOsc =
        (d.flag Reg.clkStat Fld.clkStatTimeOnOsc || (d.flag Reg.clkStat Fld.clkStatTimeoscQ && !d.loopFailed 1)) ∧
      d.timeToOsc.flag Reg.clkStat Fld.clkStatTimeoscQ = d.flag Reg.clkStat Fld.clkStatTimeoscQ ∧
      d.regsBut [Reg.clkStat, Reg.tmsStat] d.timeToOsc ∧ d.keepsBut [.regs] d.timeToOsc := by
  have hk : d.keepsBut [.regs] d.timeToOsc := Dev.timeToOsc_keeps (keepsBut_keeps _ d) (keepsBut_refl _ d)
  revert hk
  unfold Dev.timeToOsc Dev.setOscLost
  split
  · next h =>
    obtain ⟨⟨hq, hf⟩, ht⟩ := by simpa only [Bool.and_eq_true, Bool.not_eq_true'] using h
    refine fun hk => ⟨?_, ?_, ((Dev.regsBut_refl _ d).setFld (by decide) _ _).wr (by decide) _, hk⟩
    · rw [Dev.flag_of_rd (Dev.rd_wr_ne _ _ (by decide)), Dev.flag_setFld_same _ _ _ _ (by decide), hq, hf]
      exact (Bool.or_true _).symm
    · rw [Dev.flag_of_rd (Dev.rd_wr_ne _ _ (by decide)), Dev.flag_setFld_fld _ _ _ _ _ (by decide) (by decide)]
  · next h =>
    refine fun hk => ⟨?_, rfl, fun _ _ => rfl, hk⟩
    cases ht : d.flag Reg.clkStat Fld.clkStatTimeOnOsc
    · rw [ht] at h
      simpa using h
    · rfl

/-- REFA or REFB qualifies: its bit, and REF_DISAGREE where the two are apart (R473). -/
theorem Dev.refQualifies_spec (d : Dev) {f g : Fld} (sums : Nat × Nat)
    (h : (f, g) = (Fld.clkStatRefaQ, Fld.clkStatRefbQ) ∨ (f, g) = (Fld.clkStatRefbQ, Fld.clkStatRefaQ)) :
    (d.refQualifies f sums).flag Reg.clkStat f = true ∧
      (d.refQualifies f sums).flag Reg.clkStat Fld.clkStatRefDisagree = (d.flag Reg.clkStat Fld.clkStatRefDisagree ||
        (d.flag Reg.clkStat g && decide (1000500 * sums.2 < 1000000 * sums.1 ∨ 1000000 * sums.1 < 999500 * sums.2))) ∧
      (d.refQualifies f sums).boot = { d.boot with refSums := sums } ∧
      d.regsBut [Reg.clkStat] (d.refQualifies f sums) ∧ d.keepsBut [.regs, .boot] (d.refQualifies f sums) := by
  have hk : d.keepsBut [.regs, .boot] (d.refQualifies f sums) := Dev.refQualifies_keeps (keepsBut_keeps _ d) (keepsBut_refl _ d)
  revert hk
  unfold Dev.refQualifies
  extract_lets e1 src e
  have hregs : e.regs = (d.setFld Reg.clkStat f 1).regs := rfl
  have hflag (x : Fld) : e.flag Reg.clkStat x = (d.setFld Reg.clkStat f 1).flag Reg.clkStat x := Dev.flag_of_rd (Dev.rd_of_regs hregs _) _
  have hf : e.flag Reg.clkStat f = true := by
    rw [hflag]
    rcases h with h | h <;> cases h <;> exact Dev.flag_setFld_same _ _ _ _ (by decide)
  have hg : e.flag Reg.clkStat g = d.flag Reg.clkStat g := by
    rw [hflag]
    rcases h with h | h <;> cases h <;> exact Dev.flag_setFld_fld _ _ _ _ _ (by decide) (by decide)
  have hd : e.flag Reg.clkStat Fld.clkStatRefDisagree = d.flag Reg.clkStat Fld.clkStatRefDisagree := by
    rw [hflag]
    rcases h with h | h <;> cases h <;> exact Dev.flag_setFld_fld _ _ _ _ _ (by decide) (by decide)
  have hdis : e.refsDisagree =
      (d.flag Reg.clkStat g && decide (1000500 * sums.2 < 1000000 * sums.1 ∨ 1000000 * sums.1 < 999500 * sums.2)) := by
    have hs : e.boot.refSums = sums := rfl
    unfold Dev.refsDisagree
    rw [hs]
    dsimp only
    rcases h with h | h <;> cases h <;> rw [hf, hg] <;> simp
  have hr : d.regsBut [Reg.clkStat] e := ((Dev.regsBut_refl _ d).setFld (by decide) _ _).trans (Dev.regsBut_of_regs _ hregs)
  split
  · next ha =>
    refine fun hk => ⟨?_, ?_, rfl, hr.setFld (by decide) _ _, hk⟩
    · rw [← hf]
      rcases h with h | h <;> cases h <;> exact Dev.flag_setFld_fld _ _ _ _ _ (by decide) (by decide)
    · rw [← hdis, ha, Bool.or_true]
      exact Dev.flag_setFld_same _ _ _ _ (by decide)
  · next ha =>
    refine fun hk => ⟨hf, ?_, rfl, hr, hk⟩
    rw [← hdis, Bool.eq_false_of_not_eq_true ha, Bool.or_false, hd]

/-! A lost reference -/

/-- The bit of a lost input cleared, with the count and the entry of the loss (R475). -/
def Dev.lossLogged (d : Dev) (b : Nat) : Dev :=
  let e := (d.wr Reg.clkStat (putBit (d.rd Reg.clkStat) b false)).count Reg.clkRefLoss
  e.logInternal Reg.clkStat (d.rd Reg.clkStat) (e.rd Reg.clkStat) .ok

section
variable {d : Dev} {b : Nat}

theorem Dev.lossLogged_clkStat : (d.lossLogged b).rd Reg.clkStat = putBit (d.rd Reg.clkStat) b false % 2 ^ 32 := by
  unfold Dev.lossLogged
  extract_lets e
  rw [Dev.logInternal_rd _ _ _ _ _ (by decide) (by decide)]
  exact (Dev.rd_count_ne _ (by decide)).trans (Dev.rd_wr_same ..)

theorem Dev.lossLogged_refLoss : (d.lossLogged b).rd Reg.clkRefLoss = satInc 32 1 (d.rd Reg.clkRefLoss) := by
  unfold Dev.lossLogged
  extract_lets e
  rw [Dev.logInternal_rd _ _ _ _ _ (by decide) (by decide)]
  refine (Dev.rd_count _ _).trans ?_
  rw [Dev.rd_wr_ne _ _ (by decide)]

theorem Dev.lossLogged_gains : d.log.gains (d.lossLogged b).log (internalOrigin Reg.clkStat) Reg.clkStat (d.rd Reg.clkStat)
    (putBit (d.rd Reg.clkStat) b false % 2 ^ 32) .ok := by
  unfold Dev.lossLogged
  extract_lets e
  have hs : e.rd Reg.clkStat = putBit (d.rd Reg.clkStat) b false % 2 ^ 32 := (Dev.rd_count_ne _ (by decide)).trans (Dev.rd_wr_same ..)
  have hl : e.log = d.log := rfl
  rw [hs, ← hl]
  exact Dev.logInternal_gains ..

theorem Dev.lossLogged_rd {a : Nat} (h : a ∉ [Reg.clkStat, Reg.clkRefLoss, Reg.logLost, Reg.logMirrorLost]) :
    (d.lossLogged b).rd a = d.rd a := by
  obtain ⟨hs, hr, hl, hm⟩ : a ≠ Reg.clkStat ∧ a ≠ Reg.clkRefLoss ∧ a ≠ Reg.logLost ∧ a ≠ Reg.logMirrorLost := by simpa using h
  unfold Dev.lossLogged
  extract_lets e
  rw [Dev.logInternal_rd _ _ _ _ _ hl hm]
  exact (Dev.rd_count_ne _ hr).trans (Dev.rd_wr_ne _ _ hs)

theorem Dev.lossLogged_clk : (d.lossLogged b).clk = d.clk := Dev.logInternal_clk ..

theorem Dev.lossLogged_bit_same (h : b < 32) : bitAt ((d.lossLogged b).rd Reg.clkStat) b = false := by
  rw [Dev.lossLogged_clkStat, bitAt_mod _ h, bitAt_putBit_same]

theorem Dev.lossLogged_bit_ne {j : Nat} (h : j < 32) (hj : j ≠ b) : bitAt ((d.lossLogged b).rd Reg.clkStat) j = bitAt (d.rd Reg.clkStat) j := by
  rw [Dev.lossLogged_clkStat, bitAt_mod _ h, bitAt_putBit_ne _ _ hj]

/-- A field of CLK_STAT that does not hold the bit. -/
theorem Dev.lossLogged_fld {f : Fld} (hf : f.lo + f.w ≤ 32) (h : f.lo + f.w ≤ b ∨ b < f.lo) :
    (d.lossLogged b).fld Reg.clkStat f = d.fld Reg.clkStat f := by
  unfold Dev.fld
  rw [Dev.lossLogged_clkStat, bitsOf_mod _ _ _ hf]
  exact bitsOf_putBits_ne _ _ _ _ _ _ (by omega)

theorem Dev.lossLogged_locked (i : Nat) : (d.lossLogged b).locked i = d.locked i := Dev.locked_of_rd (Dev.lossLogged_rd (by decide)) i

end

/-- The loss of an input that is qualified, by what used it (R475 to R479). -/
theorem Dev.refLost_eq (d : Dev) (r : RefInput) (h : bitAt (d.rd Reg.clkStat) (refBit r) = true) :
    d.refLost r =
      let e := d.lossLogged (refBit r)
      if refBit r = 2 then e.unlock [6] true
      else if refBit r = 3 then
        if e.flag Reg.clkStat Fld.clkStatTimeOnOsc then
          ((e.unlock [1] true).setFld Reg.clkStat Fld.clkStatTimeOnOsc 0).setOscLost true
        else e
      else if e.fld Reg.clkStat Fld.clkStatRefInUse = refBit r then
        let f := e.unlock ((List.range 18).filter e.onRef) true
        if bitAt (f.rd Reg.clkStat) (1 - refBit r) then f.setFld Reg.clkStat Fld.clkStatRefInUse (1 - refBit r) else f
      else e := by
  unfold Dev.refLost
  rw [if_pos h]
  rfl

/-- The loops that use an input. -/
def Dev.usedBy (d : Dev) (r : RefInput) (i : Nat) : Prop :=
  match r with
  | .refClk => i = 6
  | .timeOsc => i = 1 ∧ d.flag Reg.clkStat Fld.clkStatTimeOnOsc = true
  | _ => d.fld Reg.clkStat Fld.clkStatRefInUse = refBit r ∧ d.onRef i = true

/-- What the loss of input b leaves, once the loops of ls have left it: those are not locked and coast, the others are as they were, and
the loss is counted and logged. -/
def Dev.lossLeaves (d : Dev) (b : Nat) (ls : Nat → Prop) (e : Dev) : Prop :=
  bitAt (e.rd Reg.clkStat) b = false ∧ e.rd Reg.clkRefLoss = satInc 32 1 (d.rd Reg.clkRefLoss) ∧ e.log = (d.lossLogged b).log ∧
    (∀ i < 18, ls i → e.locked i = false ∧ (d.locked i = true → i ∈ e.clk.coasting)) ∧ ∀ i < 18, ¬ ls i → e.locked i = d.locked i

theorem Dev.lossLogged_leaves (d : Dev) {b : Nat} (hb : b < 32) {ls : Nat → Prop} (h : ∀ i < 18, ¬ ls i) : d.lossLeaves b ls (d.lossLogged b) :=
  ⟨Dev.lossLogged_bit_same hb, Dev.lossLogged_refLoss, rfl, fun i hi hl => absurd hl (h i hi), fun i _ _ => Dev.lossLogged_locked i⟩

theorem Dev.unlock_clkStat (d : Dev) (ls : List Nat) : (d.unlock ls true).rd Reg.clkStat = d.rd Reg.clkStat :=
  Dev.unlock_rd _ _ _ (by decide) (by decide) (by decide)

theorem Dev.lossUnlock_leaves (d : Dev) {b : Nat} (hb : b < 32) (is : List Nat) {ls : Nat → Prop} (h : ∀ i < 18, i ∈ is ↔ ls i) :
    d.lossLeaves b ls ((d.lossLogged b).unlock is true) := by
  refine ⟨?_, ?_, ?_, fun i hi hl => ⟨?_, fun hlock => ?_⟩, fun i hi hl => ?_⟩
  · rw [Dev.unlock_clkStat]; exact Dev.lossLogged_bit_same hb
  · rw [Dev.unlock_rd _ _ _ (by decide) (by decide) (by decide)]; exact Dev.lossLogged_refLoss
  · exact Dev.unlock_keeps (P := fun e => Part.same (d.lossLogged b) e .log) (Part.same_keeps .log rfl) rfl
  · rw [Dev.unlock_locked _ _ _ (by omega)]; simp [(h i hi).mpr hl]
  · rw [Dev.unlock_coasting]
    exact List.mem_append_right _ (List.mem_filter.mpr ⟨(h i hi).mpr hl, (Dev.lossLogged_locked i).trans hlock⟩)
  · rw [Dev.unlock_locked _ _ _ (by omega), Dev.lossLogged_locked]; simp [mt (h i hi).mp hl]

/-- A change of CLK_STAT outside the bit of the input, or of TMS_STAT, leaves what the loss left. -/
theorem Dev.lossLeaves.of_rd {d e f : Dev} {b : Nat} {ls : Nat → Prop} (h : d.lossLeaves b ls e)
    (hb : bitAt (f.rd Reg.clkStat) b = bitAt (e.rd Reg.clkStat) b) (hr : e.regsBut [Reg.clkStat, Reg.tmsStat] f) (hk : e.keepsBut [.regs] f) :
    d.lossLeaves b ls f := by
  obtain ⟨hbit, hcount, hlog, huses, hothers⟩ := h
  have hl (i : Nat) : f.locked i = e.locked i := Dev.locked_of_rd (hr _ (by decide)) i
  refine ⟨hb.trans hbit, (hr _ (by decide)).trans hcount, (hk .log rfl).trans hlog, fun i hi hu => ?_, fun i hi hu => (hl i).trans (hothers i hi hu)⟩
  rw [hl, show f.clk = e.clk from hk .clk rfl]
  exact huses i hi hu

theorem Dev.bitAt_setFld_fld (d : Dev) (a : Nat) (f : Fld) (v : Nat) {b : Nat} (hb : b < 32) (h : b < f.lo ∨ f.lo + f.w ≤ b) :
    bitAt ((d.setFld a f v).rd a) b = bitAt (d.rd a) b := by
  have := d.flag_setFld_fld a f ⟨b, 1⟩ v (show b + 1 ≤ 32 by omega) (show b + 1 ≤ f.lo ∨ f.lo + f.w ≤ b by omega)
  rwa [Dev.flag_bit _ _ _ rfl, Dev.flag_bit _ _ _ rfl] at this

end Sys2Proof.Machine
end

