-- ==== Sys2Proof/Proofs/Loops.lean ====
section
/-!
Loops, references and clock generators.
-/

namespace Sys2Proof.Machine

open Sys2Proof

/-- A loop that may lock does, and SYS starts the move of XMAIN (R476, R483). -/
theorem loopLock_gives (s : State) (i : Fin 18) (ha : s.dev.alive = true) (hs : s.dev.fld Reg.bootStat Fld.bootStatStep = 3)
    (hfit : s.dev.loopFitted i.val = true) (hl : s.dev.locked i.val = false) (hf : s.dev.loopFailed i.val = false)
    (hg : s.dev.refGood i.val = true) :
    Gives (.loopLock i) s fun d =>
      d.locked i.val = true ∧ (∀ j < 18, j ≠ i.val → d.locked j = s.dev.locked j) ∧
      (i.val = 0 → d.clk = { s.dev.clk with xmain := { s.dev.clk.xmain with before := true } }) ∧
      (i.val ≠ 0 → d.clk = s.dev.clk) ∧ s.dev.regsBut [Reg.clkLock] d ∧ s.dev.keepsBut [.regs, .clk] d := by
  refine gives_live (exec_loopLock s i) ha ?_
  have hi := i.isLt
  have hlock (j : Nat) (hj : j < 18) := s.dev.locked_lockBit (i := i.val) (j := j) true (by omega)
  have hregs := (Dev.wr_frame s.dev Reg.clkLock (putBit (s.dev.rd Reg.clkLock) i.val true)).1
  have hk : s.dev.keepsBut [.regs, .clk] (s.dev.loopLock i.val) := Dev.loopLock_keeps (keepsBut_keeps _ _) (keepsBut_refl _ _)
  revert hk
  unfold Dev.loopLock
  rw [if_pos ⟨hs, hfit, hl, hf, hg⟩]
  split
  · next h => exact fun hk => ⟨(hlock _ hi).trans (if_pos rfl), fun j hj hn => (hlock j hj).trans (if_neg hn), fun _ => rfl, fun hn => absurd h hn, hregs, hk⟩
  · next h => exact fun hk => ⟨(hlock _ hi).trans (if_pos rfl), fun j hj hn => (hlock j hj).trans (if_neg hn), fun h0 => absurd h0 h, fun _ => rfl, hregs, hk⟩

/-- The loops that have not locked in 10 ms fail, and SYS among them stops start-up (R476). -/
theorem loopTimeout_spec (d : Dev) (hs : d.fld Reg.bootStat Fld.bootStatStep = 3) (ht : d.boot.stepAt + 10000000 ≤ d.devNs) :
    (∀ i < 18, d.loopTimeout.loopFailed i = (d.loopFailed i || (d.loopFitted i && !d.locked i && !d.loopFailed i))) ∧
      (∀ i < 18, d.loopTimeout.locked i = d.locked i) ∧
      ((d.loopFitted 0 && !d.locked 0 && !d.loopFailed 0) = true → d.loopTimeout.mode = 3) ∧
      ((d.loopFitted 0 && !d.locked 0 && !d.loopFailed 0) = false → d.loopTimeout.mode = d.mode) := by
  unfold Dev.loopTimeout
  rw [if_pos ⟨hs, ht⟩]
  extract_lets late e
  have hlate (i : Nat) (hi : i < 18) : decide (i ∈ late) = (d.loopFitted i && !d.locked i && !d.loopFailed i) := by
    rw [Bool.eq_iff_iff, decide_eq_true_iff, List.mem_filter]
    exact ⟨fun h => h.2, fun h => ⟨List.mem_range.mpr hi, h⟩⟩
  have hzero : late.contains 0 = (d.loopFitted 0 && !d.locked 0 && !d.loopFailed 0) := by
    rw [← hlate 0 (by decide), List.contains_eq_mem]
  have hfailed (i : Nat) (hi : i < 18) : e.loopFailed i = (d.loopFailed i || (d.loopFitted i && !d.locked i && !d.loopFailed i)) := by
    rw [← hlate i hi]
    exact Dev.loopsFail_failed late d (by omega)
  have hlocked (i : Nat) : e.locked i = d.locked i := Dev.locked_of_rd (Dev.loopsFail_rd late d (by decide) (by decide) (by decide)) i
  have hmode : e.mode = d.mode := Dev.fld_of_rd (Dev.loopsFail_rd late d (by decide) (by decide) (by decide)) _
  rw [hzero]
  split
  · next h =>
    refine ⟨fun i hi => (Dev.loopFailed_of_rd ?_ i).trans (hfailed i hi), fun i _ => (Dev.locked_of_rd ?_ i).trans (hlocked i),
      fun _ => Dev.enterFault_mode e, fun h' => absurd (h.symm.trans h') (by decide)⟩
    · exact Dev.enterFault_rd e (by decide) (by decide) (by decide) (by decide)
    · exact Dev.enterFault_rd e (by decide) (by decide) (by decide) (by decide)
  · next h => exact ⟨hfailed, fun i _ => hlocked i, fun h' => absurd h' h, fun _ => hmode⟩

/-- Settles O21: one bit of CLK_LOCK for a loop that locks, one of CLK_FAILED for each loop that is late. -/
theorem loopsLock : Obligations.LoopsLock := by
  unfold Obligations.LoopsLock
  refine ⟨fun s i => loopLock_gives s i, fun s ha hs ht => ?_⟩
  obtain ⟨hfailed, hlocked, hfault, hmode⟩ := loopTimeout_spec s.dev hs ht
  exact gives_live (exec_loopLockTimeout s) ha
    ⟨hfailed, hlocked, hfault, hmode, Dev.loopTimeout_keeps (keepsBut_keeps _ _) (keepsBut_refl _ _)⟩

/-! References -/

/-- The windows of the four inputs (R471, R473, R479). -/
theorem refQualified_gives (s : State) (counts : List Nat) (ha : s.dev.alive = true) :
    let sel := s.dev.fld Reg.clkCfg Fld.clkCfgTimeoscSel
    let apart : Nat → Nat → Bool := fun a b => decide (1000500 * b < 1000000 * a ∨ 1000000 * a < 999500 * b)
    (∀ r, windowsOk r sel counts = false → Gives (.referenceQualified r counts) s fun d => d = s.dev) ∧
    (windowsOk .refA sel counts = true → Gives (.referenceQualified .refA counts) s fun d =>
      d.flag Reg.clkStat Fld.clkStatRefaQ = true ∧
      d.flag Reg.clkStat Fld.clkStatRefDisagree = (s.dev.flag Reg.clkStat Fld.clkStatRefDisagree ||
        (s.dev.flag Reg.clkStat Fld.clkStatRefbQ && apart counts.sum s.dev.boot.refSums.2)) ∧
      d.boot = { s.dev.boot with refSums := (counts.sum, s.dev.boot.refSums.2) } ∧
      s.dev.regsBut [Reg.clkStat] d ∧ s.dev.keepsBut [.regs, .boot] d) ∧
    (windowsOk .refB sel counts = true → Gives (.referenceQualified .refB counts) s fun d =>
      d.flag Reg.clkStat Fld.clkStatRefbQ = true ∧
      d.flag Reg.clkStat Fld.clkStatRefDisagree = (s.dev.flag Reg.clkStat Fld.clkStatRefDisagree ||
        (s.dev.flag Reg.clkStat Fld.clkStatRefaQ && apart s.dev.boot.refSums.1 counts.sum)) ∧
      d.boot = { s.dev.boot with refSums := (s.dev.boot.refSums.1, counts.sum), refbAt := some s.dev.devNs } ∧
      s.dev.regsBut [Reg.clkStat] d ∧ s.dev.keepsBut [.regs, .boot] d) ∧
    (windowsOk .refClk sel counts = true → s.dev.locked 0 = true → Gives (.referenceQualified .refClk counts) s fun d =>
      d.flag Reg.clkStat Fld.clkStatRefclkQ = true ∧ s.dev.regsBut [Reg.clkStat] d ∧ s.dev.keepsBut [.regs] d) ∧
    (windowsOk .timeOsc sel counts = true → s.dev.locked 0 = true → sel = 1 ∨ sel = 2 →
      Gives (.referenceQualified .timeOsc counts) s fun d =>
      d.flag Reg.clkStat Fld.clkStatTimeoscQ = true ∧
      d.flag Reg.clkStat Fld.clkStatTimeOnOsc = (s.dev.flag Reg.clkStat Fld.clkStatTimeOnOsc ||
        (!bitAt (s.dev.rd Reg.tmsStat) 5 && !s.dev.loopFailed 1)) ∧
      s.dev.regsBut [Reg.clkStat, Reg.tmsStat] d ∧ s.dev.keepsBut [.regs] d) := by
  intro sel apart
  have hok (r : RefInput) (h : windowsOk r sel counts = true) : (!windowsOk r sel counts) = false := by rw [h]; rfl
  refine ⟨fun r h => gives_live (exec_referenceQualified s r counts) ha ?_, fun h => gives_live (exec_referenceQualified s _ counts) ha ?_,
    fun h => gives_live (exec_referenceQualified s _ counts) ha ?_, fun h hl => gives_live (exec_referenceQualified s _ counts) ha ?_,
    fun h hl hsel => gives_live (exec_referenceQualified s _ counts) ha ?_⟩ <;> unfold Dev.refQualified <;> dsimp only
  · rw [show (!windowsOk r (s.dev.fld Reg.clkCfg Fld.clkCfgTimeoscSel) counts) = true by rw [h]; rfl, if_pos rfl]
  · rw [hok _ h, if_neg Bool.false_ne_true]
    exact s.dev.refQualifies_spec _ (.inl rfl)
  · rw [hok _ h, if_neg Bool.false_ne_true]
    obtain ⟨hq, hd, hb, hr, hk⟩ := s.dev.refQualifies_spec (f := Fld.clkStatRefbQ) (s.dev.boot.refSums.1, counts.sum) (.inr rfl)
    refine ⟨hq, hd, ?_, hr, upd_boot ((keepsBut_keeps _ _).mono rfl) hk⟩
    rw [hb, hk .devNs rfl]
  · rw [hok _ h, if_neg Bool.false_ne_true, if_pos hl]
    exact ⟨Dev.flag_setFld_same _ _ _ _ (by decide), (Dev.regsBut_refl _ _).setFld (by decide) _ _,
      Dev.setFld_keeps (keepsBut_keeps _ _) (keepsBut_refl _ _)⟩
  · rw [hok _ h, if_neg Bool.false_ne_true, if_pos ⟨hl, hsel⟩]
    set e := s.dev.setFld Reg.clkStat Fld.clkStatTimeoscQ 1 with he
    have hq : e.flag Reg.clkStat Fld.clkStatTimeoscQ = true := Dev.flag_setFld_same _ _ _ _ (by decide)
    have ht : e.flag Reg.clkStat Fld.clkStatTimeOnOsc = s.dev.flag Reg.clkStat Fld.clkStatTimeOnOsc :=
      Dev.flag_setFld_fld _ _ _ _ _ (by decide) (by decide)
    have hf : e.loopFailed 1 = s.dev.loopFailed 1 := Dev.loopFailed_of_rd (Dev.rd_setFld_ne _ _ _ (by decide)) 1
    have hb : bitAt (e.rd Reg.tmsStat) 5 = bitAt (s.dev.rd Reg.tmsStat) 5 := by rw [he, Dev.rd_setFld_ne _ _ _ (by decide)]
    have hr : s.dev.regsBut [Reg.clkStat, Reg.tmsStat] e := (Dev.regsBut_refl _ _).setFld (by decide) _ _
    have hk : s.dev.keepsBut [.regs] e := Dev.setFld_keeps (keepsBut_keeps _ _) (keepsBut_refl _ _)
    rw [← hb]
    split
    · next h5 => exact ⟨hq, by rw [ht, h5]; simp, hr, hk⟩
    · next h5 =>
      obtain ⟨hon, hq', hr', hk'⟩ := e.timeToOsc_spec
      refine ⟨hq'.trans hq, ?_, hr.trans hr', hk.trans hk'⟩
      rw [hon, ht, hq, hf, Bool.eq_false_of_not_eq_true h5]
      rfl

/-- TIME moves back to a TIMEOSC that has qualified again (R323, R479). -/
theorem oscRequalified_gives (s : State) (ha : s.dev.alive = true) (hb : bitAt (s.dev.rd Reg.tmsStat) 5 = true)
    (hq : s.dev.flag Reg.clkStat Fld.clkStatTimeoscQ = true) (hf : s.dev.loopFailed 1 = false)
    (ht : s.dev.flag Reg.clkStat Fld.clkStatTimeOnOsc = false) :
    Gives .timeoscRequalified s fun d =>
      d.flag Reg.clkStat Fld.clkStatTimeOnOsc = true ∧ bitAt (d.rd Reg.tmsStat) 5 = false ∧
      s.dev.regsBut [Reg.clkStat, Reg.tmsStat] d ∧ s.dev.keepsBut [.regs] d := by
  refine gives_live (exec_timeoscRequalified s) ha ?_
  obtain ⟨hon, -, hr, hk⟩ := s.dev.timeToOsc_spec
  unfold Dev.oscRequalified
  rw [if_pos hb]
  refine ⟨by rw [hon, hq, hf]; simp, ?_, hr, hk⟩
  unfold Dev.timeToOsc
  rw [hq, hf, ht]
  exact Dev.bitAt_wr_putBit_same _ _ _ _ (by decide)

/-- REFA or REFB lost: when it is the reference in use, the other, if qualified, becomes that (R475, R477). -/
theorem refLost_leaves (d : Dev) (r : RefInput) (hr : refBit r < 2) (h : bitAt (d.rd Reg.clkStat) (refBit r) = true) :
    d.lossLeaves (refBit r) (fun i => d.fld Reg.clkStat Fld.clkStatRefInUse = refBit r ∧ d.onRef i = true) (d.refLost r) ∧
      (d.fld Reg.clkStat Fld.clkStatRefInUse = refBit r → bitAt (d.rd Reg.clkStat) (1 - refBit r) = true →
        (d.refLost r).fld Reg.clkStat Fld.clkStatRefInUse = 1 - refBit r) := by
  rw [d.refLost_eq r h]
  extract_lets e f
  have huse : e.fld Reg.clkStat Fld.clkStatRefInUse = d.fld Reg.clkStat Fld.clkStatRefInUse :=
    Dev.lossLogged_fld (by decide) (.inr (by show refBit r < 4; omega))
  have hosc : e.flag Reg.clkStat Fld.clkStatTimeOnOsc = d.flag Reg.clkStat Fld.clkStatTimeOnOsc := by
    unfold Dev.flag
    rw [Dev.lossLogged_fld (by decide) (.inr (by show refBit r < 7; omega))]
  have hon (i : Nat) : e.onRef i = d.onRef i := by unfold Dev.onRef; rw [hosc]
  rw [if_neg (by omega), if_neg (by omega), huse]
  by_cases hu : d.fld Reg.clkStat Fld.clkStatRefInUse = refBit r
  · rw [if_pos hu]
    have hf : d.lossLeaves (refBit r) (fun i => d.fld Reg.clkStat Fld.clkStatRefInUse = refBit r ∧ d.onRef i = true) f :=
      d.lossUnlock_leaves (by omega) _ fun i hi => by
        rw [List.mem_filter, List.mem_range, hon]
        exact ⟨fun hm => ⟨hu, hm.2⟩, fun hm => ⟨hi, hm.2⟩⟩
    have hbit : bitAt (f.rd Reg.clkStat) (1 - refBit r) = bitAt (d.rd Reg.clkStat) (1 - refBit r) := by
      rw [show f.rd Reg.clkStat = e.rd Reg.clkStat from e.unlock_clkStat _]
      exact Dev.lossLogged_bit_ne (by omega) (by omega)
    rw [hbit]
    split
    · refine ⟨hf.of_rd (Dev.bitAt_setFld_fld _ _ _ _ (by omega) (.inl (by show refBit r < 4; omega)))
        ((Dev.regsBut_refl _ _).setFld (by decide) _ _) (Dev.setFld_keeps (keepsBut_keeps _ _) (keepsBut_refl _ _)), fun _ _ => ?_⟩
      rw [Dev.fld_setFld_same _ _ _ _ (by decide)]
      exact Nat.mod_eq_of_lt (by show 1 - refBit r < 4; omega)
    · next hn => exact ⟨hf, fun _ h' => absurd h' hn⟩
  · rw [if_neg hu]
    exact ⟨d.lossLogged_leaves (by omega) fun i _ hl => hu hl.1, fun h' => absurd h' hu⟩

/-- TIMEOSC lost: TIME leaves it for the reference in use, and TIMEOSC_LOST is set (R323, R479). -/
theorem oscLost_leaves (d : Dev) (h : bitAt (d.rd Reg.clkStat) 3 = true) :
    d.lossLeaves 3 (fun i => i = 1 ∧ d.flag Reg.clkStat Fld.clkStatTimeOnOsc = true) (d.refLost .timeOsc) ∧
      (d.flag Reg.clkStat Fld.clkStatTimeOnOsc = true →
        (d.refLost .timeOsc).flag Reg.clkStat Fld.clkStatTimeOnOsc = false ∧ bitAt ((d.refLost .timeOsc).rd Reg.tmsStat) 5 = true) := by
  rw [d.refLost_eq .timeOsc h]
  extract_lets e f
  have hosc : e.flag Reg.clkStat Fld.clkStatTimeOnOsc = d.flag Reg.clkStat Fld.clkStatTimeOnOsc := by
    unfold Dev.flag
    rw [Dev.lossLogged_fld (by decide) (.inr (by decide))]
  rw [if_neg (by decide), if_pos (show refBit .timeOsc = 3 from rfl), hosc]
  by_cases hon : d.flag Reg.clkStat Fld.clkStatTimeOnOsc = true
  · rw [if_pos hon]
    have hl : d.lossLeaves 3 (fun i => i = 1 ∧ d.flag Reg.clkStat Fld.clkStatTimeOnOsc = true) (e.unlock [1] true) :=
      d.lossUnlock_leaves (by decide) _ fun i _ => by rw [List.mem_singleton, hon]; exact (and_iff_left rfl).symm
    refine ⟨hl.of_rd ?_ (((Dev.regsBut_refl _ _).setFld (by decide) _ _).wr (by decide) _)
      (Dev.wr_keeps (keepsBut_keeps _ _) (Dev.setFld_keeps (keepsBut_keeps _ _) (keepsBut_refl _ _))), fun _ => ⟨?_, ?_⟩⟩
    · unfold Dev.setOscLost
      rw [Dev.rd_wr_ne _ _ (by decide)]
      exact Dev.bitAt_setFld_fld _ _ _ _ (by decide) (.inl (by decide))
    · unfold Dev.setOscLost
      rw [Dev.flag_of_rd (Dev.rd_wr_ne _ _ (by decide))]
      exact Dev.flag_setFld_same _ _ _ _ (by decide)
    · exact Dev.bitAt_wr_putBit_same _ _ _ _ (by decide)
  · rw [if_neg hon]
    exact ⟨d.lossLogged_leaves (by decide) fun i _ hl => hon hl.2, fun h' => absurd h' hon⟩

/-- A qualified input is lost (R475, R477 to R479). -/
theorem refLost_spec (d : Dev) (r : RefInput) (h : bitAt (d.rd Reg.clkStat) (refBit r) = true) :
    d.lossLeaves (refBit r) (d.usedBy r) (d.refLost r) ∧
      (refBit r < 2 → d.fld Reg.clkStat Fld.clkStatRefInUse = refBit r →
        bitAt (d.rd Reg.clkStat) (1 - refBit r) = true → (d.refLost r).fld Reg.clkStat Fld.clkStatRefInUse = 1 - refBit r) ∧
      (r = .timeOsc → d.flag Reg.clkStat Fld.clkStatTimeOnOsc = true →
        (d.refLost r).flag Reg.clkStat Fld.clkStatTimeOnOsc = false ∧ bitAt ((d.refLost r).rd Reg.tmsStat) 5 = true) := by
  cases r with
  | refA => exact ⟨(refLost_leaves d .refA (by decide) h).1, fun _ => (refLost_leaves d .refA (by decide) h).2, fun e => nomatch e⟩
  | refB => exact ⟨(refLost_leaves d .refB (by decide) h).1, fun _ => (refLost_leaves d .refB (by decide) h).2, fun e => nomatch e⟩
  | refClk =>
    refine ⟨?_, fun h2 => absurd h2 (by decide), fun e => nomatch e⟩
    rw [d.refLost_eq .refClk h]
    exact d.lossUnlock_leaves (by decide) [6] fun i _ => List.mem_singleton
  | timeOsc => exact ⟨(oscLost_leaves d h).1, fun h2 => absurd h2 (by decide), fun _ => (oscLost_leaves d h).2⟩

/-- Settles O20: what qualifies an input sets its bit; what is lost is counted and logged, and the loops that used it leave it. -/
theorem references : Obligations.References := by
  unfold Obligations.References
  refine ⟨⟨refQualified_gives, oscRequalified_gives⟩, fun s r ha h => ?_, fun s i ha hc hg => ?_⟩
  · obtain ⟨⟨hbit, hcount, hlog, huses, hothers⟩, htakes, htime⟩ := refLost_spec s.dev r h
    refine gives_live (exec_referenceLost s r) ha ⟨hbit, hcount, ?_, huses, hothers, htakes, htime,
      Dev.refLost_keeps (keepsBut_keeps _ _) (keepsBut_refl _ _)⟩
    rw [hlog]
    exact Dev.lossLogged_gains
  · refine gives_live (exec_relock s i) ha ?_
    have hi := i.isLt
    have hlock (j : Nat) (hj : j < 18) := s.dev.locked_lockBit (i := i.val) (j := j) true (by omega)
    have hmay : (s.dev.clk.coasting.contains i.val && s.dev.refGood i.val) = true := by rw [hc, hg]; rfl
    unfold Dev.relock
    rw [if_pos hmay]
    exact ⟨(hlock _ hi).trans (if_pos rfl), by simp, fun j hj hn => (hlock j hj).trans (if_neg hn), (Dev.wr_frame ..).1,
      upd_clk ((keepsBut_keeps _ _).mono rfl) (Dev.wr_keeps ((keepsBut_keeps _ _).mono rfl) (keepsBut_refl _ _))⟩

end Sys2Proof.Machine
end

