-- ==== Sys2Proof/Proofs/Generators.lean ====
section
/-!
The clock generators: the divider steps of XMAIN and AUXCLK, and the forced switch.
-/

namespace Sys2Proof.Machine

open Sys2Proof

theorem exec_forcedSwitch (s : State) (tie late : Bool) : exec (.forcedSwitch tie late) s = s.live fun d => d.forcedSwitch tie late := rfl

theorem Dev.takeSource_ramps (d : Dev) (sys : Bool) :
    (d.takeSource sys).rd Reg.clkRamps = satInc 32 1 (d.rd Reg.clkRamps) ∧ d.regsBut [Reg.clkRamps] (d.takeSource sys) :=
  ⟨Dev.rd_count _ _, fun _ ha => Dev.rd_count_ne _ (List.ne_of_not_mem_cons ha)⟩

/-- XMAIN's divider once it is held: one more until the floor of the source that it leaves, which it then leaves; else one less toward its
target (R481, R483). -/
theorem divStep_xmain (d : Dev) (h : d.divHeld .xmain = true) :
    let x := d.clk.xmain
    let e := d.divStep .xmain
    (x.before = true → x.div < floorDiv d.clk.ringMhz →
        e.clk = { d.clk with xmain := { x with div := x.div + 1, at_ := d.devNs } } ∧ d.keepsBut [.clk] e) ∧
      (x.before = true → floorDiv d.clk.ringMhz ≤ x.div → e.clk.onSys = true ∧
        e.clk.xmain = ⟨floorDiv 1000, 1, false, d.devNs⟩ ∧ e.rd Reg.clkRamps = satInc 32 1 (d.rd Reg.clkRamps)) ∧
      (x.before = false → x.goal < x.div →
        e.clk = { d.clk with xmain := { x with div := x.div - 1, at_ := d.devNs } } ∧ d.keepsBut [.clk] e) ∧
      d.regsBut [Reg.clkRamps] e := by
  intro x e
  have hset (v : Nat) : d.keepsBut [.clk] (d.setXdiv v) := upd_clk (keepsBut_keeps _ _) (keepsBut_refl _ _)
  have he : e = if x.before then (if x.div < floorDiv d.clk.ringMhz then d.setXdiv (x.div + 1) else d.takeSource true)
      else if x.goal < x.div then d.setXdiv (x.div - 1) else d := by
    show d.divStep .xmain = _
    unfold Dev.divStep
    rw [h]
    rfl
  rw [he]
  by_cases hb : x.before = true
  · rw [if_pos hb]
    refine ⟨fun _ hg => ?_, fun _ hg => ?_, fun h' => absurd (hb.symm.trans h') nofun, ?_⟩
    · rw [if_pos hg]
      exact ⟨rfl, hset _⟩
    · rw [if_neg (by omega)]
      exact ⟨rfl, rfl, (d.takeSource_ramps true).1⟩
    · split
      · exact fun _ _ => rfl
      · exact (d.takeSource_ramps true).2
  · rw [if_neg hb]
    refine ⟨fun h' => absurd h' hb, fun h' => absurd h' hb, fun _ hg => ?_, ?_⟩
    · rw [if_pos hg]
      exact ⟨rfl, hset _⟩
    · split
      · exact fun _ _ => rfl
      · exact fun _ _ => rfl

/-- A value moved by one toward another. -/
def towards (v goal : Nat) : Nat := if v < goal then v + 1 else if goal < v then v - 1 else v

theorem towards_spec {v goal : Nat} (hv : v < 2 ^ 8) (hg : goal < 2 ^ 8) :
    (v < goal → towards v goal = v + 1) ∧ (goal < v → towards v goal = v - 1) ∧ (v = goal → towards v goal = v) ∧ towards v goal < 2 ^ 8 := by
  unfold towards
  split
  · exact ⟨fun _ => rfl, by omega, by omega, by omega⟩
  · split
    · exact ⟨by omega, fun _ => rfl, by omega, by omega⟩
    · exact ⟨by omega, by omega, fun _ => rfl, by omega⟩

theorem Dev.auxHolds_regs (d : Dev) (n : Fin 2) : (d.auxHolds n).regs = d.regs := by unfold Dev.auxHolds; split <;> rfl

theorem Dev.auxHolds_at (d : Dev) (n : Fin 2) :
    (if n.val = 0 then (d.auxHolds n).clk.aux0At else (d.auxHolds n).clk.aux1At) = d.devNs := by
  unfold Dev.auxHolds
  split
  · rfl
  · rfl

theorem decide_bit01 (b : Bool) : decide (bit01 b % 2 ^ 1 = 1) = b := by cases b <;> rfl

/-- An AUXCLK divider, held long enough, moves by one toward DIV (R481, R489). -/
theorem divStep_aux (d : Dev) (n : Fin 2) (h : d.divHeld (.aux n) = true) :
    let a := Reg.auxStat n.val
    let v := d.fld a Fld.auxStatDivNow
    let goal := d.fld (Reg.auxCtl n.val) Fld.auxCtlDiv
    let e := d.divStep (.aux n)
    (v < goal → e.fld a Fld.auxStatDivNow = v + 1) ∧ (goal < v → e.fld a Fld.auxStatDivNow = v - 1) ∧
      (v = goal → e.fld a Fld.auxStatDivNow = v) ∧ e.flag a Fld.auxStatRamping = decide (e.fld a Fld.auxStatDivNow ≠ goal) ∧
      (if n.val = 0 then e.clk.aux0At else e.clk.aux1At) = d.devNs ∧ d.regsBut [a] e ∧ d.keepsBut [.regs, .clk] e := by
  intro a v goal e
  have hk : d.keepsBut [.regs, .clk] e := Dev.divStep_keeps (keepsBut_keeps _ _) (keepsBut_refl _ _)
  have hv : v < 2 ^ 8 := bitsOf_lt _ _ _
  have hg : goal < 2 ^ 8 := bitsOf_lt _ _ _
  obtain ⟨hless, hmore, hsame, hlt⟩ := towards_spec hv hg
  have hrd (b : Nat) : (d.auxHolds n).rd b = d.rd b := Dev.rd_of_regs (d.auxHolds_regs n) b
  have he : e = ((d.auxHolds n).setFld a Fld.auxStatDivNow (towards v goal)).setFld a Fld.auxStatRamping (bit01 (decide (towards v goal ≠ goal))) := by
    show d.divStep (.aux n) = _
    have hv' : v = (d.auxHolds n).fld a Fld.auxStatDivNow := (Dev.fld_of_rd (hrd _) _).symm
    have hg' : goal = (d.auxHolds n).fld (Reg.auxCtl n.val) Fld.auxCtlDiv := (Dev.fld_of_rd (hrd _) _).symm
    rw [hv', hg']
    unfold Dev.divStep
    rw [h]
    rfl
  have hnow : e.fld a Fld.auxStatDivNow = towards v goal := by
    rw [he, Dev.fld_setFld_fld _ _ _ _ _ (by decide) (by decide), Dev.fld_setFld_same _ _ _ _ (by decide)]
    exact Nat.mod_eq_of_lt hlt
  rw [hnow]
  refine ⟨hless, hmore, hsame, ?_, ?_, ?_, hk⟩
  · rw [he, Dev.flag_setFld_same _ _ _ _ (by decide)]
    exact decide_bit01 _
  · rw [he]
    exact d.auxHolds_at n
  · rw [he]
    exact ((Dev.regsBut_of_regs _ (d.auxHolds_regs n)).setFld (List.mem_singleton_self _) _ _).setFld (List.mem_singleton_self _) _ _

/-- A forced switch has happened. -/
def Dev.switchForced (d : Dev) : Dev := { d with clk := { d.clk with forced := true } }

theorem Dev.switchForced_rd (d : Dev) (a : Nat) : d.switchForced.rd a = d.rd a := rfl

/-- The forced switch with its counts and its entry (R482). -/
theorem forcedSwitch_spec (d : Dev) (h : (d.clk.xmain.before || d.clk.onSys) = true) :
    let e := d.forcedSwitch false false
    e.clk.onSys = d.clk.xmain.before ∧ e.clk.forced = true ∧ e.rd Reg.clkForced = satInc 32 1 (d.rd Reg.clkForced) ∧
      e.rd Reg.clkRamps = satInc 32 1 (d.rd Reg.clkRamps) ∧
      d.log.gains e.log (internalOrigin Reg.clkStat) Reg.clkStat (d.rd Reg.clkStat) (d.rd Reg.clkStat) .switchForced ∧
      d.regsBut [Reg.clkForced, Reg.clkRamps, Reg.logLost, Reg.logMirrorLost] e := by
  intro e
  have he : e = ((d.takeSource d.clk.xmain.before).count Reg.clkForced).switchForced.logInternal Reg.clkStat (d.rd Reg.clkStat)
      (d.rd Reg.clkStat) .switchForced := by
    show d.forcedSwitch false false = _
    unfold Dev.forcedSwitch
    rw [if_neg Bool.false_ne_true, if_neg Bool.false_ne_true, if_pos h]
    rfl
  rw [he]
  set f := (d.takeSource d.clk.xmain.before).count Reg.clkForced with hf
  obtain ⟨hramps, hbut⟩ := d.takeSource_ramps d.clk.xmain.before
  have hlog : f.switchForced.log = d.log := rfl
  refine ⟨?_, ?_, ?_, ?_, ?_, ?_⟩
  · rw [Dev.logInternal_clk]; rfl
  · rw [Dev.logInternal_clk]; rfl
  · rw [Dev.logInternal_rd _ _ _ _ _ (by decide) (by decide), Dev.switchForced_rd, hf, Dev.rd_count, hbut _ (by decide)]
  · rw [Dev.logInternal_rd _ _ _ _ _ (by decide) (by decide), Dev.switchForced_rd, hf, Dev.rd_count_ne _ (by decide), hramps]
  · rw [← hlog]
    exact Dev.logInternal_gains ..
  · have hbut' : d.regsBut [Reg.clkForced, Reg.clkRamps, Reg.logLost, Reg.logMirrorLost] f := (hbut.mono (by decide)).count (by decide)
    exact (hbut'.trans (Dev.regsBut_of_regs _ rfl)).trans ((Dev.logInternal_regsBut _ _ _ _ _).mono (by decide))

/-- Settles O22: each generator's step by what it moves toward, and the forced switch by its counts and its entry. -/
theorem generators : Obligations.Generators := by
  unfold Obligations.Generators
  have hidle (s : State) (g : ClockGen) (ha : s.dev.alive = true) (h : s.dev.divHeld g = false) :
      Gives (.dividerStep g) s fun d => d = s.dev :=
    gives_live (exec_dividerStep s g) ha (by unfold Dev.divStep; rw [h]; rfl)
  refine ⟨fun s ha => ⟨hidle s _ ha, fun hheld => ?_⟩, fun s n ha => ⟨hidle s _ ha, fun hheld => ?_⟩, fun s ha => ⟨?_, ?_⟩, fun s ha hx => ?_⟩
  · obtain ⟨hup, hleave, hdown, hregs⟩ := divStep_xmain s.dev (decide_eq_true hheld)
    exact gives_live (exec_dividerStep s .xmain) ha
      ⟨hup, hleave, hdown, hregs, Dev.divStep_keeps (keepsBut_keeps _ _) (keepsBut_refl _ _)⟩
  · exact gives_live (exec_dividerStep s (.aux n)) ha (divStep_aux s.dev n (decide_eq_true hheld))
  · exact gives_live (exec_forcedSwitch s true false) ha rfl
  · refine gives_live (exec_forcedSwitch s false true) ha ?_
    have he : s.dev.forcedSwitch false true = s.dev.countIf s.dev.clk.forced Reg.clkLateArrival := rfl
    rw [he]
    refine ⟨?_, fun a ha => Dev.rd_countIf_ne _ _ (List.ne_of_not_mem_cons ha), Dev.countIf_keeps (keepsBut_keeps _ _) (keepsBut_refl _ _)⟩
    unfold Dev.countIf
    split
    · exact Dev.rd_count _ _
    · rfl
  · obtain ⟨hsys, hforced, hcount, hramps, hlog, hregs⟩ := forcedSwitch_spec s.dev hx
    exact gives_live (exec_forcedSwitch s false false) ha
      ⟨hsys, hforced, hcount, hramps, hlog, hregs, Dev.forcedSwitch_keeps (keepsBut_keeps _ _) (keepsBut_refl _ _)⟩

end Sys2Proof.Machine
end

