-- ==== Sys2Proof/Proofs/Gates.lean ====
section
/-!
Gate requests: acknowledged, refused after 4,096 ns, and made again.
-/

namespace Sys2Proof.Machine

open Sys2Proof

theorem exec_quiesceAck (s : State) (t : GateTarget) : exec (.quiesceAck t) s = s.live fun d => d.quiesced t := rfl

theorem exec_gateTimeout (s : State) (t : GateTarget) (tie : Bool) : exec (.gateTimeout t tie) s = s.live fun d => d.gateTimeout t tie := rfl

theorem exec_hpcGateRetry (s : State) (t : GateTarget) : exec (.hpcGateRetry t) s = s.live fun d => d.gateRetry t := rfl

theorem Dev.gateAnswer_keepsBut (d : Dev) (o : Origin) (st : Status) : d.keepsBut [.outbox] (d.gateAnswer o st) :=
  Dev.gateAnswer_keeps (keepsBut_keeps _ _) (keepsBut_refl _ _)

/-- CLK_GATE with one bit written, and the entry of the write. -/
theorem Dev.gateWritten_spec (d : Dev) (o : Origin) {bit : Nat} (hb : bit < 32) (b : Bool) :
    bitAt ((d.gateWritten o bit b).rd Reg.clkGate) bit = b ∧
      d.log.gains (d.gateWritten o bit b).log o Reg.clkGate (d.rd Reg.clkGate) (putBit (d.rd Reg.clkGate) bit b % 2 ^ 32) .ok ∧
      d.regsBut (Reg.clkGate :: entryRegs) (d.gateWritten o bit b) ∧ d.keepsBut [.regs, .log] (d.gateWritten o bit b) := by
  unfold Dev.gateWritten
  extract_lets before e
  have hrd : e.rd Reg.clkGate = putBit (d.rd Reg.clkGate) bit b % 2 ^ 32 := Dev.rd_wr_same ..
  have hlog : e.log = d.log := rfl
  have hw := Dev.wr_frame d Reg.clkGate (putBit before bit b)
  refine ⟨?_, ?_, hw.1.liveEntry, (hw.2.mono rfl).liveEntry rfl⟩
  · rw [Dev.liveEntry_rd_of_not_mem (by decide)]
    exact Dev.bitAt_wr_putBit_same _ _ _ _ hb
  · rw [hrd, ← hlog]
    exact Dev.liveEntry_gains _ _ _ _ _ _ (.inl rfl)

theorem liveGate_lt {t : GateTarget} {b : Nat} (h : liveGate t = some b) : b < 32 := by
  cases t <;> simp only [liveGate, Option.some.injEq, reduceCtorEq] at h <;> omega

/-- The device before its gate takes effect: the requests and the retries of the target are gone. -/
def Dev.gateCleared (d : Dev) (t : GateTarget) : Dev :=
  { d with clk := { d.clk with
      gates := d.clk.gates.filter fun x => decide (x.target ≠ t), retries := d.clk.retries.filter fun x => decide (x.target ≠ t) } }

/-- What an acknowledged request of a target leaves before its gate takes effect: for a live one the write that asked for it. -/
def Dev.gateDone (d : Dev) (t : GateTarget) (x : GateReq) : Dev :=
  match x.live, liveGate t with
  | some w, some b => (d.gateWritten w.1 b true).gateAnswer w.1 .ok
  | _, _ => d

theorem Dev.quiesced_single (d : Dev) (t : GateTarget) (x : GateReq) (h : (d.clk.gates.filter fun y => decide (y.target = t)) = [x]) :
    d.quiesced t = ((d.gateCleared t).gateDone t x).setGate t true := by
  unfold Dev.quiesced
  rw [h]
  rfl

theorem Dev.gateDone_frame (d : Dev) (t : GateTarget) (x : GateReq) :
    d.regsBut (Reg.clkGate :: entryRegs) (d.gateDone t x) ∧ d.keepsBut [.regs, .log, .outbox] (d.gateDone t x) := by
  unfold Dev.gateDone
  split
  · next w b _ hb =>
    obtain ⟨-, -, hr, hk⟩ := d.gateWritten_spec w.1 (liveGate_lt hb) true
    have ha := (d.gateWritten w.1 b true).gateAnswer_keepsBut w.1 .ok
    exact ⟨hr.trans (Dev.regsBut_of_regs _ (ha .regs rfl)), (hk.mono rfl).trans (ha.mono rfl)⟩
  · exact ⟨Dev.regsBut_refl _ _, keepsBut_refl _ _⟩

theorem Dev.gateDone_live (d : Dev) {t : GateTarget} {x : GateReq} {b : Nat} {w : Origin × Nat × Nat} (hb : liveGate t = some b)
    (hw : x.live = some w) :
    bitAt ((d.gateDone t x).rd Reg.clkGate) b = true ∧
      d.log.gains (d.gateDone t x).log w.1 Reg.clkGate (d.rd Reg.clkGate) (putBit (d.rd Reg.clkGate) b true % 2 ^ 32) .ok := by
  unfold Dev.gateDone
  rw [hw, hb]
  obtain ⟨hbit, hlog, -, -⟩ := d.gateWritten_spec w.1 (liveGate_lt hb) true
  have ha := (d.gateWritten w.1 b true).gateAnswer_keepsBut w.1 .ok
  exact ⟨(congrArg (bitAt · b) (Dev.rd_of_regs (ha .regs rfl) _)).trans hbit, (show _ = _ from ha .log rfl) ▸ hlog⟩

/-- A gate shows in CLK_GATED or, for a die link, in CLK_GATED_LINK. -/
theorem gateReg_fst (t : GateTarget) : (gateReg t).1 = Reg.clkGated ∨ (gateReg t).1 = Reg.clkGatedLink := by
  cases t <;> simp [gateReg]

theorem gateReg_ne {a : Nat} (t : GateTarget) (h : a ≠ Reg.clkGated) (h' : a ≠ Reg.clkGatedLink) : a ≠ (gateReg t).1 := by
  obtain e | e := gateReg_fst t
  · rwa [e]
  · rwa [e]

/-- The acknowledgement of a target's interface (R484, R485, R488). -/
theorem quiesced_gives (s : State) (t : GateTarget) (x : GateReq) (ha : s.dev.alive = true)
    (h : (s.dev.clk.gates.filter fun y => decide (y.target = t)) = [x]) :
    Gives (.quiesceAck t) s fun d =>
      bitAt (d.rd (gateReg t).1) (gateReg t).2 = true ∧
      d.clk.gates = (s.dev.clk.gates.filter fun y => decide (y.target ≠ t)) ∧
      d.clk.retries = (s.dev.clk.retries.filter fun y => decide (y.target ≠ t)) ∧
      (∀ b, liveGate t = some b → ∀ l ∈ gateLanes b, s.dev.laneState l ≠ lsDisabled → d.laneState l = lsOffline) ∧
      (∀ b w, liveGate t = some b → x.live = some w → bitAt (d.rd Reg.clkGate) b = true ∧
        s.dev.log.gains d.log w.1 Reg.clkGate (s.dev.rd Reg.clkGate) (putBit (s.dev.rd Reg.clkGate) b true % 2 ^ 32) .ok) ∧
      s.dev.keepsBut [.regs, .log, .outbox, .ing, .clk] d := by
  refine gives_live (exec_quiesceAck s t) ha ?_
  have hall : s.dev.keepsBut [.regs, .log, .outbox, .ing, .clk] (s.dev.quiesced t) := Dev.quiesced_keeps (keepsBut_keeps _ _) (keepsBut_refl _ _)
  revert hall
  rw [s.dev.quiesced_single t x h]
  set c := s.dev.gateCleared t
  have hcr (a : Nat) : c.rd a = s.dev.rd a := rfl
  obtain ⟨hr, hk⟩ := c.gateDone_frame t x
  obtain ⟨hbit, hlanes, hlow⟩ := (c.gateDone t x).setGate_true t
  have hg : (c.gateDone t x).keepsBut [.regs, .ing] ((c.gateDone t x).setGate t true) := Dev.setGate_keeps (keepsBut_keeps _ _) (keepsBut_refl _ _)
  have hclk : ((c.gateDone t x).setGate t true).clk = c.clk := (hg .clk rfl).trans (hk .clk rfl)
  refine fun hall => ⟨hbit, by rw [hclk]; rfl, by rw [hclk]; rfl, fun b hb l hl hd => hlanes b hb l hl ?_, fun b w hb hw => ?_, hall⟩
  · have hs : (c.gateDone t x).laneState l = s.dev.laneState l := Dev.laneState_of_rd ((hr _ ?_).trans (hcr _))
    · rwa [hs]
    · have := laneReg_high l Reg.ingLstate
      simp only [entryRegs, Reg.clkGate, Reg.logLost, Reg.logMirrorLost, Reg.logUnlogged, Reg.logRefusals, List.mem_cons, List.not_mem_nil, or_false]
      omega
  · obtain ⟨hbit', hlog⟩ := c.gateDone_live hb hw
    refine ⟨?_, (show _ = _ from hg .log rfl) ▸ hlog⟩
    rw [hlow _ (by decide) (gateReg_ne t (by decide) (by decide))]
    exact hbit'

/-- A refused request is counted; the write that asked for it is logged, or for the HPC its first refusal, and it is kept for another
request (R484 to R486). -/
theorem Dev.gateRefused_spec (d : Dev) (x : GateReq) (h : (d.logMandatory && d.logFull) = false) :
    (d.gateRefused x).clk.gates = d.clk.gates ∧ (d.gateRefused x).rd Reg.clkGateRefused = satInc 32 1 (d.rd Reg.clkGateRefused) ∧
      (∀ w, x.live = some w → d.log.gains (d.gateRefused x).log w.1 Reg.clkGate (d.rd Reg.clkGate) w.2.2 .gateRefused) ∧
      (x.live = none → ⟨x.target, d.devNs⟩ ∈ (d.gateRefused x).clk.retries ∧
        ((∀ y ∈ d.clk.retries, y.target ≠ x.target) →
          d.log.gains (d.gateRefused x).log (internalOrigin (gateReg x.target).1) (gateReg x.target).1 (d.rd (gateReg x.target).1)
            (d.rd (gateReg x.target).1) .gateRefused)) := by
  unfold Dev.gateRefused
  extract_lets e again rest src f a
  have hcount : e.rd Reg.clkGateRefused = satInc 32 1 (d.rd Reg.clkGateRefused) := Dev.rd_count _ _
  have hrd {a : Nat} (ha : a ≠ Reg.clkGateRefused) : e.rd a = d.rd a := Dev.rd_count_ne _ ha
  have hlog : e.log = d.log := rfl
  have hclk : e.clk = d.clk := rfl
  have hfull : (e.logMandatory && e.logFull) = false := by
    unfold Dev.logMandatory Dev.logFull
    rw [hrd (by decide), hlog]
    exact h
  split
  · next w hw =>
    have hp := e.liveEntry_parts w.1 Reg.clkGate (e.rd Reg.clkGate) w.2.2 .gateRefused
    have ha := (e.liveEntry w.1 Reg.clkGate (e.rd Reg.clkGate) w.2.2 .gateRefused).gateAnswer_keepsBut w.1 .gateRefused
    refine ⟨?_, ?_, fun w' hw' => ?_, fun hn => absurd (hw.symm.trans hn) nofun⟩
    · rw [show _ = _ from ha .clk rfl, show _ = _ from hp .clk rfl, hclk]
    · rw [Dev.rd_of_regs (ha .regs rfl), Dev.liveEntry_rd_of_not_mem (by decide), hcount]
    · obtain rfl := Option.some.inj (hw.symm.trans hw')
      rw [show _ = _ from ha .log rfl, ← hrd (a := Reg.clkGate) (by decide), ← hlog]
      exact Dev.liveEntry_gains _ _ _ _ _ _ (.inr hfull)
  · next hn =>
    have hf : f.clk.gates = d.clk.gates := rfl
    have hfr : f.rd Reg.clkGateRefused = satInc 32 1 (d.rd Reg.clkGateRefused) := hcount
    have hmem : (⟨x.target, d.devNs⟩ : GateRetry) ∈ f.clk.retries := List.mem_append_right _ (List.mem_singleton_self _)
    refine ⟨?_, ?_, fun w hw => absurd (hn.symm.trans hw) nofun, fun _ => ⟨?_, fun hfirst => ?_⟩⟩
    · split
      · exact hf
      · rw [Dev.logInternal_clk, hf]
    · split
      · exact hfr
      · rw [Dev.logInternal_rd _ _ _ _ _ (by decide) (by decide), hfr]
    · split
      · exact hmem
      · rw [Dev.logInternal_clk]; exact hmem
    · have hag : again = false := List.any_eq_false.mpr fun y hy => by simpa using hfirst y hy
      have har : f.rd a = d.rd a := hrd (gateReg_ne x.target (by decide) (by decide)).symm
      rw [if_neg (by rw [hag]; exact Bool.false_ne_true), har]
      exact Dev.logInternal_gains f a (d.rd a) (d.rd a) .gateRefused

/-- A request without an acknowledgement for 4,096 ns (R484). -/
theorem gateTimeout_gives (s : State) (t : GateTarget) (x : GateReq) (ha : s.dev.alive = true)
    (hm : (s.dev.logMandatory && s.dev.logFull) = false)
    (h : (s.dev.clk.gates.filter fun y => decide (y.target = t) && decide (y.since + 4096 ≤ s.dev.devNs)) = [x]) :
    Gives (.gateTimeout t false) s fun d =>
      d.clk.gates = (s.dev.clk.gates.filter fun y => !(decide (y.target = t) && decide (y.since + 4096 ≤ s.dev.devNs))) ∧
      d.rd Reg.clkGateRefused = satInc 32 1 (s.dev.rd Reg.clkGateRefused) ∧
      (∀ w, x.live = some w → s.dev.log.gains d.log w.1 Reg.clkGate (s.dev.rd Reg.clkGate) w.2.2 .gateRefused) ∧
      (x.live = none → ⟨x.target, s.dev.devNs⟩ ∈ d.clk.retries ∧
        ((∀ y ∈ s.dev.clk.retries, y.target ≠ x.target) →
          s.dev.log.gains d.log (internalOrigin (gateReg x.target).1) (gateReg x.target).1 (s.dev.rd (gateReg x.target).1)
            (s.dev.rd (gateReg x.target).1) .gateRefused)) ∧
      s.dev.keepsBut [.regs, .log, .outbox, .clk] d := by
  refine gives_live (exec_gateTimeout s t false) ha ?_
  have hall : s.dev.keepsBut [.regs, .log, .outbox, .clk] (s.dev.gateTimeout t false) := Dev.gateTimeout_keeps (keepsBut_keeps _ _) (keepsBut_refl _ _)
  revert hall
  unfold Dev.gateTimeout
  extract_lets due out src
  have hout : out = [x] := h
  rw [if_neg Bool.false_ne_true, hout]
  intro hall
  obtain ⟨hgates, hcount, hlive, hhpc⟩ :=
    Dev.gateRefused_spec { s.dev with clk := { s.dev.clk with gates := s.dev.clk.gates.filter fun x => !due x } } x hm
  exact ⟨hgates, hcount, hlive, hhpc, hall⟩

/-- Settles O23: the requests of a target by what answers them. -/
theorem gates : Obligations.Gates := by
  unfold Obligations.Gates
  refine ⟨quiesced_gives, fun s t ha h => ?_, gateTimeout_gives, fun s t ha => gives_live (exec_gateTimeout s t true) ha rfl,
    fun s t x ha hx ht hdue hnone => ?_⟩
  · refine gives_live (exec_quiesceAck s t) ha ?_
    have he : s.dev.quiesced t = s.dev.count Reg.clkLateArrival := by
      unfold Dev.quiesced
      rw [h]
      rfl
    rw [he]
    exact ⟨Dev.rd_count _ _, fun a ha => Dev.rd_count_ne _ (List.ne_of_not_mem_cons ha), Dev.count_keeps (keepsBut_keeps _ _) (keepsBut_refl _ _)⟩
  · refine gives_live (exec_hpcGateRetry s t) ha ?_
    have hany : (s.dev.clk.retries.any fun y => decide (y.target = t) && decide (y.at_ + 1000000000 ≤ s.dev.devNs)) = true :=
      List.any_eq_true.mpr ⟨x, hx, by rw [decide_eq_true ht, decide_eq_true hdue]; rfl⟩
    have hno : (s.dev.clk.gates.any fun y => decide (y.target = t)) = false :=
      List.any_eq_false.mpr fun y hy => by simpa using hnone y hy
    unfold Dev.gateRetry
    rw [hany, hno]
    exact ⟨rfl, upd_clk (keepsBut_keeps _ _) (keepsBut_refl _ _)⟩

end Sys2Proof.Machine
end

