-- ==== Sys2Proof/Proofs/Requests.lean ====
section
/-!
Requests that wait for an answer of their own: gates, attestation, the flash bridge.
-/

namespace Sys2Proof.Machine

open Sys2Proof

theorem exec_clkGateWrite (s : State) (o : Origin) (v : Word) : exec (.clkGateWrite o v) s = s.up fun d => d.put o Reg.clkGate v.toNat := rfl

theorem exec_attestationRequest (s : State) (o : Origin) : exec (.attestationRequest o) s = s.up fun d => d.put o Reg.undAttCtl 1 := rfl

theorem exec_flashRead (s : State) (o : Origin) (len : Byte) :
    exec (.flashRead o len) s = s.up fun d => d.put o Reg.hmbFlCtl (bridgeWord 0 len) := rfl

theorem exec_flashProgram (s : State) (o : Origin) (len : Byte) :
    exec (.flashProgram o len) s = s.up fun d => d.put o Reg.hmbFlCtl (bridgeWord 1 len) := rfl

theorem exec_flashErase64k (s : State) (o : Origin) :
    exec (.flashErase64k o) s = s.up fun d => d.put o Reg.hmbFlCtl (bridgeWord 2 0) := rfl

/-! The catalogue rows of the registers that take the requests. -/

theorem regRow_clkGate : ∃ r, regRow Reg.clkGate = some r ∧ r.base ≠ Reg.hrCfg 0 := ⟨_, rfl, by decide⟩

theorem regRow_undAttCtl : ∃ r, regRow Reg.undAttCtl = some r ∧ r.lv = 0 := ⟨_, rfl, by decide⟩

theorem regRow_hmbFlCtl : ∃ r, regRow Reg.hmbFlCtl = some r ∧ r.lv = 0 := ⟨_, rfl, by decide⟩

/-- A write of CLK_GATE that passes its checks goes to the gates. -/
theorem Dev.put_clkGate {d : Dev} {o : Origin} {r : RegRow} {v : Word} (hm : d.mode ≠ 3) (hr : regRow Reg.clkGate = some r) (hl : r.lv ≠ 0)
    (hf : d.unitFitted Reg.clkGate = true)
    (hok : d.liveFault o r Reg.clkGate (d.inHand Reg.clkGate) (d.liveWord r Reg.clkGate v.toNat) = none) :
    d.put o Reg.clkGate v.toNat = d.gateWrite o (d.liveWord r Reg.clkGate v.toNat) := by
  have hres : ¬(r.lv = 0 ∨ reservedReg Reg.clkGate = true) := by
    rintro (h | h)
    · exact hl h
    · exact absurd h (by decide)
  have hbase : r.base ≠ Reg.hrCfg 0 := by
    obtain ⟨r', hr', hb⟩ := regRow_clkGate
    rwa [Option.some.inj (hr.symm.trans hr')]
  have ha : Reg.clkGate / 4 * 4 = Reg.clkGate := by decide
  unfold Dev.liveWord at hok ⊢
  unfold Dev.put Dev.busWrite
  dsimp only
  rw [ha, Nat.mod_eq_of_lt v.isLt, if_neg fun h => hm h.1, hr]
  dsimp only
  rw [if_neg hres, if_neg hbase]
  unfold Dev.liveWrite
  rw [if_neg (by rw [hf]; nofun)]
  dsimp only
  rw [hok]
  rfl

/-- A change of one bit to 1 that gates lanes waits for their interface (R485). -/
theorem Dev.gateWrite_waits {d : Dev} {o : Origin} {v b : Nat}
    (h : (List.range 12).find? (fun b => bitAt v b != bitAt (d.rd Reg.clkGate) b) = some b) (hb : b < 10) (hv : bitAt v b = true) :
    d.gateWrite o v =
      { d with clk := { d.clk with gates := d.clk.gates ++ [⟨gateOfBit b, d.devNs, some (o, d.rd Reg.clkGate, v)⟩] } } := by
  unfold Dev.gateWrite
  dsimp only
  rw [h]
  dsimp only
  rw [hv, decide_eq_true hb]
  rfl

/-- A request for a report, with none under way. -/
theorem Dev.put_undAttCtl {d : Dev} (o : Origin) (hl : d.log.opened = true) (hb : d.flag Reg.undAttCtl Fld.undAttCtlBusy = false) :
    d.put o Reg.undAttCtl 1 = ({ d with boot := { d.boot with att := some d.reportBody } } : Dev).setFld Reg.undAttCtl Fld.undAttCtlBusy 1 := by
  obtain ⟨r, hr, hlv⟩ := regRow_undAttCtl
  rw [Dev.put_other (addr := Reg.undAttCtl) (fun _ => by decide) hr hlv]
  have hother : (d.otherWrite o r Reg.undAttCtl 1).1 = d.attestGo := rfl
  refine hother.trans ?_
  unfold Dev.attestGo
  rw [hl, hb]
  rfl

/-- An operation of the flash bridge begun by the HMB (R495, R496). -/
theorem Dev.put_hmbFlCtl {d : Dev} {o : Origin} {op : Nat} {len : Byte} (ho : o.cls = .hmb) (hm : d.mode ≠ 3) (hop : op < 3)
    (hb : d.flag Reg.hmbFlCtl Fld.hmbFlCtlBusy = false) :
    let e := d.put o Reg.hmbFlCtl (bridgeWord op len)
    let step := d.fld Reg.bootStat Fld.bootStatStep
    e.flag Reg.hmbFlCtl Fld.hmbFlCtlBusy = true ∧
      e.pwr.flashOp = some ⟨op, d.rd Reg.hmbFlAddr, len.toNat + 1, d.pageBuf, decide (5 ≤ step ∧ step ≤ 7)⟩ ∧
      d.regsBut [Reg.hmbFlCtl] e ∧ d.keepsBut [.regs, .pwr] e := by
  intro e step
  have hlen := len.isLt
  set w := bridgeWord op len with hw
  have hword : w = op + 4 * len.toNat + 1024 := rfl
  have hop4 : w % 4 = op := by omega
  have hlen8 : bitsOf w 2 8 = len.toNat := by rw [bitsOf_eq]; omega
  have hgo : fieldOf w Fld.hmbFlCtlGo = 1 := by
    show bitsOf w 10 1 = 1
    rw [bitsOf_eq]; omega
  set f := d.wr Reg.hmbFlCtl (putBits (d.rd Reg.hmbFlCtl) 0 10 w) with hf
  have hfr {a : Nat} (ha : a ≠ Reg.hmbFlCtl) : f.rd a = d.rd a := Dev.rd_wr_ne _ _ ha
  have hbusy : f.flag Reg.hmbFlCtl Fld.hmbFlCtlBusy = false := by
    rw [← hb]
    unfold Dev.flag Dev.fld
    rw [Dev.rd_wr_same, bitsOf_mod _ _ _ (by decide), bitsOf_putBits_ne _ _ _ _ _ _ (by decide)]
  have hbuf : f.pageBuf = d.pageBuf := by
    unfold Dev.pageBuf
    refine congrArg _ (List.map_congr_left fun i _ => ?_)
    rw [hfr (by unfold Reg.hmbFlBuf Reg.hmbFlCtl; omega)]
  have he : e = f.flashGo op len.toNat := by
    obtain ⟨r, hr, hlv⟩ := regRow_hmbFlCtl
    show d.put o Reg.hmbFlCtl w = _
    rw [Dev.put_other (addr := Reg.hmbFlCtl) (fun h => absurd h hm) hr hlv, Nat.mod_eq_of_lt (by omega)]
    have hother : (d.otherWrite o r Reg.hmbFlCtl w).1 = (if o.cls ≠ .hmb then d.refuseWrite o Reg.hmbFlCtl w else (d.bridgeWritten w, some .ok)).1 := rfl
    refine hother.trans ?_
    rw [if_neg fun h => h ho]
    show d.bridgeWritten w = _
    unfold Dev.bridgeWritten
    rw [if_pos ⟨hgo, by omega⟩, hop4, hlen8]
  rw [he]
  unfold Dev.flashGo
  rw [if_neg (by rw [hbusy]; nofun)]
  dsimp only
  have hk : d.keepsBut [.regs, .pwr] f := Dev.wr_keeps ((keepsBut_keeps _ _).mono rfl) (keepsBut_refl _ _)
  refine ⟨?_, ?_, ((Dev.wr_frame ..).1.wr (List.mem_singleton_self _) _).trans (Dev.regsBut_of_regs _ rfl),
    upd_pwr ((keepsBut_keeps _ _).mono rfl) (Dev.wr_keeps ((keepsBut_keeps _ _).mono rfl) hk)⟩
  · refine (Dev.flag_of_rd (d := f.wr Reg.hmbFlCtl (op % 4 + 4 * (len.toNat % 256) + 2 ^ 11)) rfl _).trans ?_
    unfold Dev.flag Dev.fld
    rw [Dev.rd_wr_same, bitsOf_mod _ _ _ (by decide), bitsOf_eq]
    refine decide_eq_true ?_
    show (op % 4 + 4 * (len.toNat % 256) + 2 ^ 11) / 2 ^ 11 % 2 ^ 1 = 1
    omega
  · have haddr : (f.wr Reg.hmbFlCtl (op % 4 + 4 * (len.toNat % 256) + 2 ^ 11)).rd Reg.hmbFlAddr = d.rd Reg.hmbFlAddr :=
      (Dev.rd_wr_ne _ _ (by decide)).trans (hfr (by decide))
    have hstep : f.fld Reg.bootStat Fld.bootStatStep = step := Dev.fld_of_rd (hfr (by decide)) _
    have hbuf' : (f.wr Reg.hmbFlCtl (op % 4 + 4 * (len.toNat % 256) + 2 ^ 11)).pageBuf = f.pageBuf := by
      unfold Dev.pageBuf
      refine congrArg _ (List.map_congr_left fun i _ => ?_)
      rw [Dev.rd_wr_ne _ _ (by unfold Reg.hmbFlBuf Reg.hmbFlCtl; omega)]
    rw [haddr, hstep, hbuf', hbuf, Nat.mod_eq_of_lt (show op < 4 by omega), Nat.mod_eq_of_lt hlen]

/-- Settles O17: each request is noted where its answer will find it. -/
theorem requestsWait : Obligations.RequestsWait := by
  unfold Obligations.RequestsWait
  refine ⟨?_, fun s o hs hl hb => ?_, fun s o len hs ho hm hb => ⟨?_, ?_, ?_⟩⟩
  · intro s o v r b hs hm hr hl hf hok w hfind hb hbit
    refine gives_up (exec_clkGateWrite s o v) hs ?_
    rw [Dev.put_clkGate hm hr hl hf hok, Dev.gateWrite_waits hfind hb hbit]
    exact ⟨rfl, rfl, upd_clk (keepsBut_keeps _ _) (keepsBut_refl _ _)⟩
  · refine gives_up (exec_attestationRequest s o) hs ?_
    rw [Dev.put_undAttCtl o hl hb]
    exact ⟨rfl, Dev.flag_setFld_same _ _ _ _ (by decide),
      (Dev.regsBut_of_regs _ rfl).setFld (List.mem_singleton_self _) _ _,
      Dev.setFld_keeps ((keepsBut_keeps _ _).mono rfl) (upd_boot ((keepsBut_keeps _ _).mono rfl) (keepsBut_refl _ _))⟩
  · exact gives_up (exec_flashRead s o len) hs (Dev.put_hmbFlCtl ho hm (by decide) hb)
  · exact gives_up (exec_flashProgram s o len) hs (Dev.put_hmbFlCtl ho hm (by decide) hb)
  · exact gives_up (exec_flashErase64k s o) hs (Dev.put_hmbFlCtl (len := 0) ho hm (by decide) hb)

end Sys2Proof.Machine
end

