-- ==== Sys2Proof/Proofs/ManagementBus.lean ====
section
/-!
The management bus and the end of an operation of the flash bridge.
-/

namespace Sys2Proof.Machine

open Sys2Proof

theorem exec_mgtRequest (s : State) (req : BitVec 4) (dv : BitVec 6) (op : BitVec 2) (ofs : BitVec 24) (v : Word) (chk : Byte) :
    exec (.mgtRequest req dv op ofs v chk) s =
      s.up fun d => d.mgtRequest req.toNat dv.toNat op.toNat ofs.toNat v.toNat chk.toNat := rfl

theorem exec_mgtWaitExpiry (s : State) :
    exec .mgtWaitExpiry s = s.up fun d => { d with msh := { d.msh with reads := dropWaiter d.msh.reads } } := rfl

theorem exec_flashOperationDone (s : State) (err : Bool) : exec (.flashOperationDone err) s = s.up fun d => d.flashDone err := rfl

theorem Dev.answer_keepsBut (d : Dev) (st : Status) (v : Option Nat) : d.keepsBut [.outbox] (d.answer st v) :=
  Dev.emit_keeps (keepsBut_keeps _ _) (keepsBut_refl _ _)

section
variable {d : Dev} {req dev op ofs data check : Nat}

/-- A request with a wrong check code or OP (R491). -/
theorem Dev.mgtRequest_bad (h : ¬(op < 2 ∧ check = requestCheck req dev op ofs data)) :
    d.mgtRequest req dev op ofs data check = (d.count Reg.hmbBadFrame).answer .refused none := by
  unfold Dev.mgtRequest
  rw [if_pos (by omega)]

variable (h : op < 2 ∧ check = requestCheck req dev op ofs data)
include h

/-- A read of this device's window. -/
theorem Dev.mgtRequest_read (hd : dev = d.gid.toNat) (ho : op = 0) :
    d.mgtRequest req dev op ofs data check =
      (d.busRead ⟨.hmb, BitVec.ofNat 12 req⟩ ofs).2.answer (d.readStatus (ofs / 4 * 4)) (some (d.busRead ⟨.hmb, BitVec.ofNat 12 req⟩ ofs).1) := by
  unfold Dev.mgtRequest
  rw [if_neg (by omega), if_pos hd]
  dsimp only
  rw [if_pos ho]

/-- A write of this device's window, answered unless its answer waits. -/
theorem Dev.mgtRequest_write (hd : dev = d.gid.toNat) (ho : op = 1) :
    let w := d.busWrite ⟨.hmb, BitVec.ofNat 12 req⟩ ofs data
    (∀ st, w.2 = some st → d.mgtRequest req dev op ofs data check = w.1.answer st none) ∧
      (w.2 = none → d.mgtRequest req dev op ofs data check = w.1) := by
  intro w
  unfold Dev.mgtRequest
  rw [if_neg (by omega), if_pos hd]
  extract_lets o r x
  rw [if_neg (by omega)]
  refine ⟨fun st h => ?_, fun h => ?_⟩
  · have hx : x.2 = some st := h
    rw [hx]
  · have hx : x.2 = none := h
    rw [hx]

/-- A request for another device at one that is not the anchor (R493). -/
theorem Dev.mgtRequest_other (hd : dev ≠ d.gid.toNat) (ha : d.isAnchor = false) :
    d.mgtRequest req dev op ofs data check = d.answer .refused none := by
  unfold Dev.mgtRequest
  rw [if_neg (by omega), if_neg hd, if_pos ha]

end

theorem dropWaiter_first {pre post : List FwdRead} {x : FwdRead} (hpre : ∀ y ∈ pre, y.waiter ≠ 1) (hx : x.waiter = 1) :
    dropWaiter (pre ++ x :: post) = pre ++ { x with waiter := 2 } :: post := by
  induction pre with
  | nil => exact if_pos hx
  | cons y ys ih =>
    have hy : y.waiter ≠ 1 := hpre y List.mem_cons_self
    show dropWaiter (y :: (ys ++ x :: post)) = _
    rw [dropWaiter, if_neg hy, ih fun z hz => hpre z (List.mem_cons_of_mem _ hz)]
    rfl

/-- Settles O27: a request by its check, its device and its operation. -/
theorem managementBus : Obligations.ManagementBus := by
  unfold Obligations.ManagementBus
  refine ⟨?_, fun s pre post x hs h hpre hx => ?_⟩
  · intro s req dv op ofs v chk hs good o r w
    refine gives_up (exec_mgtRequest s req dv op ofs v chk) hs ⟨fun hbad => ?_, fun hg hd hop => ?_, fun hg hd hop => ?_, fun hg hd ha => ?_⟩
    · rw [Dev.mgtRequest_bad hbad]
      exact ⟨rfl, Dev.rd_count _ _, fun a ha => Dev.rd_count_ne _ (List.ne_of_not_mem_cons ha),
        Dev.emit_keeps ((keepsBut_keeps _ _).mono rfl) (Dev.count_keeps ((keepsBut_keeps _ _).mono rfl) (keepsBut_refl _ _))⟩
    · rw [Dev.mgtRequest_read hg (congrArg BitVec.toNat hd) (congrArg BitVec.toNat hop)]
      have hout : r.2.outbox = s.dev.outbox := Dev.busRead_keeps (Part.same_keeps (d := s.dev) .outbox rfl) rfl
      have hkeep : s.dev.keepsBut [.caps, .outbox] r.2 := Dev.busRead_keeps ((keepsBut_keeps _ _).mono rfl) (keepsBut_refl _ _)
      exact ⟨congrArg _ hout, rfl, Dev.emit_keeps ((keepsBut_keeps _ _).mono rfl) hkeep⟩
    · obtain ⟨hsome, hnone⟩ := Dev.mgtRequest_write (d := s.dev) hg (congrArg BitVec.toNat hd) (congrArg BitVec.toNat hop)
      refine ⟨fun st h => ?_, fun h => ?_, ?_⟩
      · rw [hsome st h]
        rfl
      · rw [hnone h]
      · cases hw : w.2 with
        | none => rw [hnone hw]; exact keepsBut_refl _ _
        | some st => rw [hsome st hw]; exact Dev.answer_keepsBut _ _ _
    · rw [Dev.mgtRequest_other hg (fun h => hd (BitVec.eq_of_toNat_eq h)) ha]
      exact ⟨rfl, Dev.answer_keepsBut _ _ _⟩
  · refine gives_up (exec_mgtWaitExpiry s) hs ⟨?_, upd_msh (keepsBut_keeps _ _) (keepsBut_refl _ _)⟩
    dsimp only
    rw [h, dropWaiter_first hpre hx]

end Sys2Proof.Machine
end

