-- ==== Sys2Proof/Proofs/FlashBridge.lean ====
section
/-!
The end of an operation of the flash bridge: the page buffer, the erased block and the programmed page.
-/

namespace Sys2Proof.Machine

open Sys2Proof

/-! Lists of bytes in the flash -/

theorem SMap.get_setList {V : Type} [DecidableEq V] (dflt : Nat → V) (m : SMap V) (k : Nat) (vs : List V) (a : Nat) :
    SMap.get dflt (SMap.setList dflt m k vs) a = if k ≤ a then vs.getD (a - k) (SMap.get dflt m a) else SMap.get dflt m a := by
  induction vs generalizing m k with
  | nil => simp [SMap.setList]
  | cons v vs ih =>
    rw [SMap.setList, ih, SMap.get_set]
    by_cases h : a = k
    · subst h; simp
    · rw [if_neg h]
      by_cases hk : k ≤ a
      · have hs : a - k = (a - (k + 1)) + 1 := by omega
        rw [if_pos hk, if_pos (by omega), hs, List.getD_cons_succ]
      · rw [if_neg hk, if_neg (by omega)]

/-- The byte of the flash at an address. -/
def Dev.flashByte (d : Dev) (a : Nat) : Byte := SMap.get (fun _ => 0xFF) d.boot.flash a

theorem Dev.setFlash_byte (d : Dev) (k : Nat) (bs : List Byte) (a : Nat) :
    (d.setFlash k bs).flashByte a = if k ≤ a then bs.getD (a - k) (d.flashByte a) else d.flashByte a :=
  SMap.get_setList _ _ _ _ _

/-- A block of ones written over a block of the flash. -/
theorem Dev.setFlash_ones (d : Dev) (k n a : Nat) :
    (d.setFlash k (List.replicate n 0xFF)).flashByte a = if k ≤ a ∧ a < k + n then 0xFF else d.flashByte a := by
  rw [Dev.setFlash_byte]
  by_cases hk : k ≤ a
  · rw [if_pos hk]
    by_cases hn : a < k + n
    · rw [if_pos ⟨hk, hn⟩, List.getD_eq_getElem?_getD, List.getElem?_replicate, if_pos (by omega)]
      rfl
    · rw [if_neg fun h => hn h.2, List.getD_eq_getElem?_getD, List.getElem?_replicate, if_neg (by omega)]
      rfl
  · rw [if_neg hk, if_neg fun h => hk h.1]

theorem Dev.setFlash_one (d : Dev) (k : Nat) (b : Byte) (a : Nat) : (d.setFlash k [b]).flashByte a = if a = k then b else d.flashByte a := by
  rw [Dev.setFlash_byte]
  by_cases h : a = k
  · rw [if_pos (by omega), if_pos h, h, Nat.sub_self]; rfl
  · rw [if_neg h]
    split
    · obtain ⟨n, hn⟩ : ∃ n, a - k = n + 1 := ⟨a - k - 1, by omega⟩
      rw [hn]; rfl
    · rfl

/-! A programmed page -/

/-- Places below 256 in a page are different bytes of the flash. -/
theorem pageAt_inj {x i j : Nat} (hi : i < 256) (hj : j < 256) (h : pageAt x i = pageAt x j) : i = j := by
  unfold pageAt at h
  omega

/-- Place i of a page, programmed. -/
def Dev.programByte (x : Nat) (bs : List Byte) (d : Dev) (i : Nat) : Dev :=
  d.setFlash (pageAt x i) [d.flashByte (pageAt x i) &&& bs.getD i 0xFF]

theorem Dev.programPage_eq (d : Dev) (x : Nat) (bs : List Byte) : d.programPage x bs = (List.range bs.length).foldl (Dev.programByte x bs) d := rfl

/-- Programming different places of a page clears the bits of each, and leaves every other byte (log entry 57). -/
theorem Dev.programBytes_byte (x : Nat) (bs : List Byte) (is : List Nat) (hn : is.Nodup) (hlt : ∀ i ∈ is, i < 256) (d : Dev) (a : Nat) :
    (is.foldl (Dev.programByte x bs) d).flashByte a =
      match is.find? fun i => decide (pageAt x i = a) with
      | some i => d.flashByte a &&& bs.getD i 0xFF
      | none => d.flashByte a := by
  induction is generalizing d with
  | nil => rfl
  | cons i is ih =>
    obtain ⟨hni, hn'⟩ := List.nodup_cons.mp hn
    have hbyte : (Dev.programByte x bs d i).flashByte a =
        if a = pageAt x i then d.flashByte (pageAt x i) &&& bs.getD i 0xFF else d.flashByte a := Dev.setFlash_one _ _ _ _
    rw [List.foldl_cons, ih hn' fun j hj => hlt j (List.mem_cons_of_mem _ hj), hbyte, List.find?_cons]
    by_cases h : a = pageAt x i
    · subst h
      have hnone : is.find? (fun j => decide (pageAt x j = pageAt x i)) = none := by
        refine List.find?_eq_none.mpr fun j hj hp => hni ?_
        rwa [← pageAt_inj (hlt j (List.mem_cons_of_mem _ hj)) (hlt i List.mem_cons_self) (of_decide_eq_true hp)]
      rw [hnone, decide_eq_true rfl, if_pos rfl]
    · rw [decide_eq_false (Ne.symm h), if_neg h]

theorem Dev.programPage_byte (d : Dev) (x : Nat) {bs : List Byte} (h : bs.length ≤ 256) (a : Nat) :
    (d.programPage x bs).flashByte a =
      match (List.range bs.length).find? fun i => decide (pageAt x i = a) with
      | some i => d.flashByte a &&& bs.getD i 0xFF
      | none => d.flashByte a := by
  rw [Dev.programPage_eq, Dev.programBytes_byte x bs _ List.nodup_range (fun i hi => by have := List.mem_range.mp hi; omega)]

theorem Dev.programPage_same (d : Dev) (x : Nat) (bs : List Byte) : (d.programPage x bs).regs = d.regs ∧ (d.programPage x bs).pwr = d.pwr := by
  rw [Dev.programPage_eq]
  exact foldl_keeps (P := fun e => e.regs = d.regs ∧ e.pwr = d.pwr) (fun _ _ h => h) ⟨rfl, rfl⟩

/-! The page buffer -/

/-- Registers written one by one, each with a value of its own. -/
theorem Dev.foldl_wr_rd {a v : Nat → Nat} (ha : Function.Injective a) (is : List Nat) (d : Dev) {i : Nat} (hi : i ∈ is) :
    (is.foldl (fun f j => f.wr (a j) (v j)) d).rd (a i) = v i % 2 ^ 32 := by
  induction is generalizing d with
  | nil => cases hi
  | cons j js ih =>
    rw [List.foldl_cons]
    by_cases h : i ∈ js
    · exact ih _ h
    · obtain rfl : i = j := by simpa [h] using hi
      rw [Dev.foldl_rd _ _ _ fun e k hk => Dev.rd_wr_ne _ _ fun he => h (by rwa [ha he])]
      exact Dev.rd_wr_same ..

theorem hmbFlBuf_injective : Function.Injective Reg.hmbFlBuf := fun i j h => by unfold Reg.hmbFlBuf at h; omega

theorem hmbFlBuf_ne (i : Nat) : Reg.hmbFlBuf i ≠ Reg.hmbFlCtl := by unfold Reg.hmbFlBuf Reg.hmbFlCtl; omega

theorem Dev.setPageBuf_rd (d : Dev) (bs : List Byte) {i : Nat} (hi : i < 64) :
    (d.setPageBuf bs).rd (Reg.hmbFlBuf i) = leAt (bs ++ d.pageBuf.drop bs.length) (4 * i) 4 % 2 ^ 32 := by
  unfold Dev.setPageBuf
  extract_lets all
  exact Dev.foldl_wr_rd (v := fun j => leAt all (4 * j) 4) hmbFlBuf_injective (List.range 64) d (List.mem_range.mpr hi)

theorem Dev.setPageBuf_same (d : Dev) (bs : List Byte) : d.keepsBut [.regs] (d.setPageBuf bs) :=
  Dev.setPageBuf_keeps (keepsBut_keeps _ _) (keepsBut_refl _ _)

/-! The end of an operation -/

/-- HMB_FL_CTL at the end of an operation: BUSY cleared, DONE set, and its RESULT (R495). -/
def Dev.flashStop (d : Dev) (r : Nat) : Dev :=
  ((d.setFld Reg.hmbFlCtl Fld.hmbFlCtlBusy 0).setFld Reg.hmbFlCtl Fld.hmbFlCtlDone 1).setFld Reg.hmbFlCtl Fld.hmbFlCtlResult r

/-- No operation is under way. -/
def Dev.flashIdle (d : Dev) : Dev := { d with pwr := { d.pwr with flashOp := none } }

/-- The first byte past those that an operation needs. -/
def FlashOp.past (o : FlashOp) : Nat := if o.op = 0 then o.addr + o.len else o.addr + 1

theorem Dev.flashStop_spec (d : Dev) {r : Nat} (hr : r < 8) :
    (d.flashStop r).flag Reg.hmbFlCtl Fld.hmbFlCtlBusy = false ∧ (d.flashStop r).flag Reg.hmbFlCtl Fld.hmbFlCtlDone = true ∧
      (d.flashStop r).fld Reg.hmbFlCtl Fld.hmbFlCtlResult = r ∧ (∀ i, (d.flashStop r).rd (Reg.hmbFlBuf i) = d.rd (Reg.hmbFlBuf i)) ∧
      (d.flashStop r).pwr = d.pwr ∧ (d.flashStop r).boot = d.boot := by
  unfold Dev.flashStop
  refine ⟨?_, ?_, ?_, fun i => ?_, rfl, rfl⟩
  · rw [Dev.flag_setFld_fld _ _ _ _ _ (by decide) (by decide), Dev.flag_setFld_fld _ _ _ _ _ (by decide) (by decide),
      Dev.flag_setFld_same _ _ _ _ (by decide)]
    rfl
  · rw [Dev.flag_setFld_fld _ _ _ _ _ (by decide) (by decide), Dev.flag_setFld_same _ _ _ _ (by decide)]
    rfl
  · rw [Dev.fld_setFld_same _ _ _ _ (by decide)]
    exact Nat.mod_eq_of_lt hr
  · rw [Dev.rd_setFld_ne _ _ _ (hmbFlBuf_ne i), Dev.rd_setFld_ne _ _ _ (hmbFlBuf_ne i), Dev.rd_setFld_ne _ _ _ (hmbFlBuf_ne i)]

/-- How an operation without an error of the flash ends. -/
theorem Dev.flashDone_eq {d : Dev} {o : FlashOp} (h : d.pwr.flashOp = some o) :
    d.flashDone false =
      if o.refused then d.flashIdle.flashStop 1
      else if d.boot.flashLen < o.past then d.flashIdle.flashStop 3
      else if o.op = 0 then (d.flashIdle.setPageBuf (flashBytes d.boot.flash o.addr o.len)).flashStop 0
      else if o.op = 1 then (d.flashIdle.programPage o.addr (o.data.take o.len)).flashStop 0
      else (d.flashIdle.setFlash (o.addr / 65536 * 65536) (List.replicate 65536 0xFF)).flashStop 0 := by
  unfold Dev.flashDone
  rw [h]
  simp only [Bool.false_eq_true, if_false]
  rfl

/-- Settles O28: the operation by its refusal, its end past the flash, and its kind. -/
theorem flashOperationEnds : Obligations.FlashOperationEnds := by
  unfold Obligations.FlashOperationEnds
  intro s o hs h past bytes all
  refine gives_up (exec_flashOperationDone s false) hs ?_
  have hkeep : s.dev.keepsBut [.regs, .freeCtr, .boot, .pwr] (s.dev.flashDone false) := Dev.flashDone_keeps (keepsBut_keeps _ _) (keepsBut_refl _ _)
  have hpast : past ↔ s.dev.boot.flashLen < o.past := Iff.rfl
  revert hkeep
  rw [Dev.flashDone_eq h]
  by_cases href : o.refused = true
  · obtain ⟨hbusy, hdone, hres, hbuf, hpwr, hboot⟩ := s.dev.flashIdle.flashStop_spec (r := 1) (by decide)
    rw [if_pos href, href]
    exact fun hkeep => ⟨hbusy, hdone, hpwr, hres, fun _ => ⟨hboot, fun i _ => hbuf i⟩, nofun, nofun, nofun, hkeep⟩
  rw [if_neg href, Bool.eq_false_of_not_eq_true href]
  by_cases hp : past
  · obtain ⟨hbusy, hdone, hres, hbuf, hpwr, hboot⟩ := s.dev.flashIdle.flashStop_spec (r := 3) (by decide)
    rw [if_pos (hpast.mp hp)]
    exact fun hkeep => ⟨hbusy, hdone, hpwr, hres.trans (if_pos hp).symm, fun _ => ⟨hboot, fun i _ => hbuf i⟩, fun _ hn => absurd hp hn,
      fun _ hn => absurd hp hn, fun _ hn => absurd hp hn, hkeep⟩
  have hres0 : (if false = true then 1 else if past then 3 else 0) = 0 := if_neg hp
  have hnot : ¬(false = true ∨ past) := fun h => h.elim nofun hp
  rw [if_neg (mt hpast.mpr hp), hres0]
  by_cases h0 : o.op = 0
  · have hsame := s.dev.flashIdle.setPageBuf_same bytes
    obtain ⟨hbusy, hdone, hres, hbuf, hpwr, hboot⟩ := (s.dev.flashIdle.setPageBuf bytes).flashStop_spec (r := 0) (by decide)
    rw [if_pos h0]
    exact fun hkeep => ⟨hbusy, hdone, hpwr.trans (hsame .pwr rfl), hres, fun hn => absurd hn hnot,
      fun _ _ _ => ⟨hboot.trans (hsame .boot rfl), fun i hi => (hbuf i).trans (s.dev.flashIdle.setPageBuf_rd bytes hi)⟩,
      fun _ _ h2 => absurd h0 (by omega), fun _ _ h1 => absurd h0 (by omega), hkeep⟩
  rw [if_neg h0]
  by_cases h1 : o.op = 1
  · obtain ⟨hbusy, hdone, hres, hbuf, hpwr, hboot⟩ := (s.dev.flashIdle.programPage o.addr (o.data.take o.len)).flashStop_spec (r := 0) (by decide)
    rw [if_pos h1]
    refine fun hkeep => ⟨hbusy, hdone, hpwr.trans (Dev.programPage_same ..).2, hres, fun hn => absurd hn hnot, fun _ _ h => absurd h h0,
      fun _ _ h2 => absurd h1 (by omega), fun _ _ _ hlen a => ?_, hkeep⟩
    rw [hboot]
    exact s.dev.flashIdle.programPage_byte o.addr (by rw [List.length_take]; omega) a
  · obtain ⟨hbusy, hdone, hres, hbuf, hpwr, hboot⟩ :=
      (s.dev.flashIdle.setFlash (o.addr / 65536 * 65536) (List.replicate 65536 0xFF)).flashStop_spec (r := 0) (by decide)
    rw [if_neg h1]
    refine fun hkeep => ⟨hbusy, hdone, hpwr, hres, fun hn => absurd hn hnot, fun _ _ h => absurd h h0, fun _ _ _ a => ?_,
      fun _ _ h => absurd h h1, hkeep⟩
    have hones := s.dev.flashIdle.setFlash_ones (o.addr / 65536 * 65536) 65536 a
    unfold Dev.flashByte at hones
    rw [hboot, hones]
    rfl

end Sys2Proof.Machine
end

