-- ==== Sys2Proof/Proofs/Reset.lean ====
section
/-!
Reset and its release.
-/

namespace Sys2Proof.Machine

open Sys2Proof

theorem exec_porAssert (s : State) (pin : ResetPin) : exec (.porAssert pin) s = s.pin fun d => d.assertReset pin := rfl

theorem exec_railUndervoltage (s : State) : exec .railUndervoltage s = s.pin Dev.railLow := rfl

theorem exec_porRelease (s : State) (gid : BitVec 6) (te : Bool) : exec (.porRelease gid te) s = s.pin fun d => d.porRelease gid te := rfl

theorem exec_railRecovery (s : State) (gid : BitVec 6) (te : Bool) : exec (.railRecovery gid te) s = s.pin fun d => d.railBack gid te := rfl

theorem exec_devRstRelease (s : State) : exec .devRstRelease s = s.pin Dev.devRstRelease := rfl

/-- The device in reset, with what the board, the factory, the flash and the fuses hold taken from d (R512 to R515). -/
def Dev.inResetOf (d e : Dev) : Prop :=
  e.inReset = true ∧ (∀ a, a ≠ Reg.pwrDomOnLo → e.rd a = resetWord a) ∧ e.rd Reg.pwrDomOnLo = 0 ∧
    e.part = d.part ∧ e.step = d.step ∧ e.gid = d.gid ∧ e.testEn = d.testEn ∧
    e.boot = { Dev.init.boot with flash := d.boot.flash, flashLen := d.boot.flashLen, und := d.boot.und, undOdd := d.boot.undOdd } ∧
    e.clk = { Dev.init.clk with ringMhz := d.clk.ringMhz } ∧
    e.pwr = { Dev.init.pwr with railLow := d.pwr.railLow, porLow := d.pwr.porLow, devRstLow := d.pwr.devRstLow } ∧
    Dev.init.keepsBut [.regs, .part, .step, .gid, .testEn, .freeCtr, .outbox, .boot, .clk, .pwr] e

theorem Dev.flashDone_none {d : Dev} (h : d.pwr.flashOp = none) (err : Bool) : d.flashDone err = d := by unfold Dev.flashDone; rw [h]

/-- What reset leaves, with no operation of the flash under way. -/
theorem Dev.toReset_inReset {d : Dev} (hr : d.inReset = false) (hf : d.pwr.flashOp = none) : d.inResetOf d.toReset := by
  have hidle (p : Part) (hp : [Part.outbox, .scr, .tms].contains p = false) : p.same d d.outputsIdle :=
    Dev.outputsIdle_keeps (P := fun e => p.same d e) (Part.same_keeps p hp) (keepsBut_refl [] d p rfl)
  have hpart : d.outputsIdle.part = d.part := hidle .part rfl
  have hstep : d.outputsIdle.step = d.step := hidle .step rfl
  have hgid : d.outputsIdle.gid = d.gid := hidle .gid rfl
  have htest : d.outputsIdle.testEn = d.testEn := hidle .testEn rfl
  have hboot : d.outputsIdle.boot = d.boot := hidle .boot rfl
  have hclk : d.outputsIdle.clk = d.clk := hidle .clk rfl
  have hpwr : d.outputsIdle.pwr = d.pwr := hidle .pwr rfl
  unfold Dev.toReset
  rw [hr, Dev.flashDone_none hf, if_neg Bool.false_ne_true]
  dsimp only
  rw [hpart, hstep, hgid, htest, hboot, hclk, hpwr]
  refine ⟨rfl, fun a ha => Dev.rd_wr_ne _ _ ha, Dev.rd_wr_same .., rfl, rfl, rfl, rfl, rfl, rfl, rfl, fun p hp => ?_⟩
  cases p <;> first
    | exact absurd hp (by decide)
    | rfl

/-- What the release of a reset leaves: device time starts at 0 with XMAIN's domain on and the device's id; TEST_EN high is FAULT (R510). -/
def Dev.released (d e : Dev) : Prop :=
  e.inReset = false ∧ e.devNs = 0 ∧ e.rd Reg.pwrDomOnLo = 1 ∧ e.fld Reg.mshId Fld.mshIdDeviceId = d.gid.toNat ∧
    e.mode = (if d.testEn then 3 else d.mode) ∧ d.regsBut [Reg.pwrDomOnLo, Reg.mshId, Reg.bootStat, Reg.glbState] e ∧
    d.keepsBut [.regs, .devNs, .inReset] e

theorem Dev.startUp_released {d : Dev} (hr : d.inReset = true) (hp : d.pwr.porLow = false) (hd : d.pwr.devRstLow = false)
    (hl : d.pwr.railLow = false) : d.released d.startUp := by
  have hk : d.keepsBut [.regs, .devNs, .inReset] d.startUp := Dev.startUp_keeps (keepsBut_keeps _ _) (keepsBut_refl _ _)
  revert hk
  unfold Dev.startUp
  rw [hr, hp, hd, hl, if_pos (by rfl)]
  extract_lets f g
  have hregs : f.regs = (d.wr Reg.pwrDomOnLo 1).regs := rfl
  have hgid : f.gid = d.gid := rfl
  have htest : g.testEn = d.testEn := rfl
  have hdom : g.rd Reg.pwrDomOnLo = 1 := by
    refine (Dev.rd_setFld_ne _ _ _ (by decide)).trans ((Dev.rd_of_regs hregs _).trans ?_)
    exact Dev.rd_wr_same ..
  have hid : g.fld Reg.mshId Fld.mshIdDeviceId = d.gid.toNat := by
    refine (Dev.fld_setFld_same _ _ _ _ (by decide)).trans ?_
    rw [hgid]
    exact Nat.mod_eq_of_lt d.gid.isLt
  have hbut : d.regsBut [Reg.pwrDomOnLo, Reg.mshId, Reg.bootStat, Reg.glbState] g :=
    (((Dev.regsBut_refl _ d).wr (by decide) 1).trans (Dev.regsBut_of_regs _ hregs)).setFld (by decide) _ _
  have hmode : g.mode = d.mode := by
    refine (Dev.fld_setFld_ne _ _ _ _ (by decide)).trans (Dev.fld_of_rd ?_ _)
    exact (Dev.rd_of_regs hregs _).trans (Dev.rd_wr_ne _ _ (by decide))
  rw [htest]
  by_cases h : d.testEn = true
  · rw [if_pos h]
    refine fun hk => ⟨rfl, rfl, ?_, ?_, (Dev.setMode_mode _ (by decide)).trans (if_pos h).symm, fun a ha => ?_, hk⟩
    · exact (Dev.setMode_rd _ _ (by decide) (by decide)).trans hdom
    · exact (Dev.fld_of_rd (Dev.setMode_rd _ _ (by decide) (by decide)) _).trans hid
    · refine (Dev.setMode_rd _ _ ?_ ?_).trans (hbut a ha) <;> exact fun e => ha (by simp [e])
  · rw [if_neg h]
    exact fun hk => ⟨rfl, rfl, hdom, hid, hmode.trans (if_neg h).symm, hbut, hk⟩

/-- A release that samples the pins, or leaves them as they were. -/
theorem Dev.startUp_sampled {d e : Dev} {gid : BitVec 6} {te : Bool} {p : PwrSt} (he : e = { d with gid := gid, testEn := te, pwr := p })
    (hr : d.inReset = true) (hp : p.porLow = false) (hd : p.devRstLow = false) (hl : p.railLow = false) :
    e.startUp.inReset = false ∧ e.startUp.devNs = 0 ∧ e.startUp.gid = gid ∧ e.startUp.testEn = te ∧
      e.startUp.pwr.porLow = false ∧ e.startUp.pwr.devRstLow = false ∧ e.startUp.pwr.railLow = false ∧
      e.startUp.rd Reg.pwrDomOnLo = 1 ∧ e.startUp.fld Reg.mshId Fld.mshIdDeviceId = gid.toNat ∧
      e.startUp.mode = (if te then 3 else d.mode) ∧
      d.regsBut [Reg.pwrDomOnLo, Reg.mshId, Reg.bootStat, Reg.glbState] e.startUp ∧
      d.keepsBut [.regs, .gid, .testEn, .devNs, .inReset, .pwr] e.startUp := by
  subst he
  obtain ⟨hreset, hns, hdom, hid, hmode, hbut, hk⟩ :=
    Dev.startUp_released (d := { d with gid := gid, testEn := te, pwr := p }) hr hp hd hl
  have hpwr : ({ d with gid := gid, testEn := te, pwr := p } : Dev).startUp.pwr = p := hk .pwr rfl
  rw [hpwr]
  exact ⟨hreset, hns, hk .gid rfl, hk .testEn rfl, hp, hd, hl, hdom, hid, hmode, hbut,
    Dev.startUp_keeps ((keepsBut_keeps _ _).mono rfl) (upd_gid_testEn_pwr ((keepsBut_keeps _ _).mono rfl) (keepsBut_refl _ _))⟩

/-- Settles O24: every reset is the one reset of the device, and every release the one start of its time. -/
theorem resetAndRelease : Obligations.ResetAndRelease := by
  unfold Obligations.ResetAndRelease
  refine ⟨fun s i p hr hf hi => ?_, fun s i gid te hr hi => ?_⟩
  · rcases hi with ⟨rfl, rfl⟩ | ⟨rfl, rfl⟩ | ⟨rfl, rfl⟩
    · exact gives_pin (exec_porAssert s .porN)
        (Dev.toReset_inReset (d := { s.dev with pwr := { s.dev.pwr with porLow := true } }) hr hf)
    · exact gives_pin (exec_porAssert s .devRstN)
        (Dev.toReset_inReset (d := { s.dev with pwr := { s.dev.pwr with devRstLow := true } }) hr hf)
    · exact gives_pin (exec_railUndervoltage s)
        (Dev.toReset_inReset (d := { s.dev with pwr := { s.dev.pwr with railLow := true } }) hr hf)
  · rcases hi with ⟨rfl, hpor, hdev, hrail⟩ | ⟨rfl, hrail, hpor, hdev⟩ | ⟨rfl, rfl, rfl, hdev, hpor, hrail⟩
    · refine gives_pin (exec_porRelease s gid te) ?_
      unfold Dev.porRelease
      rw [if_pos hpor]
      exact Dev.startUp_sampled rfl hr rfl hdev hrail
    · refine gives_pin (exec_railRecovery s gid te) ?_
      unfold Dev.railBack
      rw [if_pos hrail]
      exact Dev.startUp_sampled rfl hr hpor hdev rfl
    · refine gives_pin (exec_devRstRelease s) ?_
      unfold Dev.devRstRelease
      rw [if_pos hdev]
      exact Dev.startUp_sampled rfl hr hpor rfl hrail

end Sys2Proof.Machine
end

