-- ==== Sys2Proof/Proofs/Temperatures.lean ====
section
/-!
Temperature rounds and the power domains.
-/

namespace Sys2Proof.Machine

open Sys2Proof

theorem exec_temperatureRead (s : State) (dies stks mods : List Byte) (rails : List (BitVec 10)) (watts : BitVec 16) :
    exec (.temperatureRead dies stks mods rails watts) s =
      s.live fun d => (d.supplyRead rails watts).temperatures dies stks mods := rfl

theorem exec_domainPowerGood (s : State) : exec .domainPowerGood s = s.live Dev.powerGood := rfl

/-! The round, part by part -/

/-- The rail of die i read (Table 14.10). -/
def Dev.railRead (rails : List (BitVec 10)) (f : Dev) (i : Nat) : Dev :=
  match rails[i]? with
  | some v => if i = 4 ∨ f.fusedFit i then f.setFld (Reg.pwrDie i) Fld.pwrDieVmeasMv v.toNat else f
  | none => f

/-- The readings of the dies that are fitted: 4 for the X-die. -/
def Dev.dieTemps (d : Dev) (dies : List Byte) : List (Nat × Nat) :=
  (List.range 5).filterMap fun i => if i = 4 ∨ d.fusedFit i then (dies[i]?).map fun t => (i, t.toNat) else none

def Dev.dieShown (f : Dev) (x : Nat × Nat) : Dev := f.setFld (Reg.pwrDie x.1) Fld.pwrDieTjC x.2

/-- The temperature of stack i read. -/
def Dev.stackTempRead (stks : List Byte) (f : Dev) (i : Nat) : Dev :=
  match stks[i]? with
  | some t => if f.fit (stackFitBit i) then f.setFld (Reg.stkTemp i) Fld.stkTempDegC t.toNat else f
  | none => f

/-- The temperature of module i read. -/
def Dev.moduleTempRead (mods : List Byte) (f : Dev) (i : Nat) : Dev :=
  match mods[i]? with
  | some t => if f.fit (16 + i) then f.setFld (Reg.chTemp i) Fld.chTempDegC t.toNat else f
  | none => f

/-- All readings of a round shown. -/
def Dev.tempsShown (d : Dev) (ts : List (Nat × Nat)) (stks mods : List Byte) : Dev :=
  (List.range 8).foldl (Dev.moduleTempRead mods) ((List.range 12).foldl (Dev.stackTempRead stks) (ts.foldl Dev.dieShown d))

/-- OVERTEMP after a round (R500). -/
def Dev.overtempSeen (d : Dev) (ts : List (Nat × Nat)) : Dev :=
  if (ts.any fun x => decide (110 ≤ x.2)) && !d.flag Reg.pwrStat Fld.pwrStatOvertemp then
    let before := d.rd Reg.pwrStat
    let d := d.setFld Reg.pwrStat Fld.pwrStatOvertemp 1
    d.logInternal Reg.pwrStat before (d.rd Reg.pwrStat) .ok
  else if (ts.all fun x => decide (x.2 < 105)) && !ts.isEmpty then d.setFld Reg.pwrStat Fld.pwrStatOvertemp 0
  else d

/-- FAULT after a round (R500). -/
def Dev.tooHot (d : Dev) (ts : List (Nat × Nat)) : Dev :=
  if (ts.any fun x => decide (120 ≤ x.2)) && decide (d.mode ≠ 3) then
    let before := d.rd Reg.glbState
    let d := d.enterFault
    d.logInternal Reg.glbState before (d.rd Reg.glbState) .degraded
  else d

theorem Dev.supplyRead_eq (d : Dev) (rails : List (BitVec 10)) (watts : BitVec 16) :
    d.supplyRead rails watts = ((List.range 5).foldl (Dev.railRead rails) d).setFld Reg.pwrWatts Fld.pwrWattsWatts watts.toNat := rfl

theorem Dev.temperatures_eq (d : Dev) (dies stks mods : List Byte) :
    d.temperatures dies stks mods = ((d.tempsShown (d.dieTemps dies) stks mods).overtempSeen (d.dieTemps dies)).tooHot (d.dieTemps dies) := rfl

/-! What a round leaves -/

/-- The registers that show the readings of a round. -/
def tempReg (a : Nat) : Prop := a = Reg.pwrWatts ∨ (∃ i < 5, a = Reg.pwrDie i) ∨ (∃ i < 12, a = Reg.stkTemp i) ∨ ∃ i < 8, a = Reg.chTemp i

/-- Only readings differ, so that the same units are fitted. -/
def Dev.readsOnly (d e : Dev) : Prop := e.boot = d.boot ∧ ∀ a, ¬ tempReg a → e.rd a = d.rd a

section
variable {d e : Dev}

theorem Dev.readsOnly_refl (d : Dev) : d.readsOnly d := ⟨rfl, fun _ _ => rfl⟩

theorem Dev.readsOnly.setFld {a : Nat} (h : d.readsOnly e) (ha : tempReg a) (f : Fld) (v : Nat) : d.readsOnly (e.setFld a f v) :=
  ⟨h.1, fun b hb => (Dev.rd_setFld_ne _ _ _ fun hab => hb (by rwa [hab])).trans (h.2 b hb)⟩

theorem Dev.fusedFit_of_boot (h : e.boot = d.boot) (b : Nat) : e.fusedFit b = d.fusedFit b := by
  unfold Dev.fusedFit Dev.fuseWord Dev.fuses
  rw [h]

theorem not_tempReg {a : Nat} (h : a < 0x50030) : ¬ tempReg a := by
  rintro (rfl | ⟨i, -, rfl⟩ | ⟨i, -, rfl⟩ | ⟨i, -, rfl⟩) <;> simp only [Reg.pwrWatts, Reg.pwrDie, Reg.stkTemp, Reg.chTemp] at h <;> omega

theorem Dev.readsOnly.rd (h : d.readsOnly e) {a : Nat} (ha : a < 0x50030) : e.rd a = d.rd a := h.2 a (not_tempReg ha)

theorem Dev.readsOnly.fit (h : d.readsOnly e) (b : Nat) : e.fit b = d.fit b := by
  unfold Dev.fit Dev.fitted
  rw [h.rd (by decide), h.rd (by decide)]

theorem Dev.readsOnly.railRead (h : d.readsOnly e) (rails : List (BitVec 10)) {i : Nat} (hi : i < 5) : d.readsOnly (e.railRead rails i) := by
  unfold Dev.railRead
  repeat' split
  · exact h.setFld (.inr (.inl ⟨i, hi, rfl⟩)) _ _
  · exact h
  · exact h

theorem Dev.readsOnly.stackTempRead (h : d.readsOnly e) (stks : List Byte) {i : Nat} (hi : i < 12) : d.readsOnly (e.stackTempRead stks i) := by
  unfold Dev.stackTempRead
  repeat' split
  · exact h.setFld (.inr (.inr (.inl ⟨i, hi, rfl⟩))) _ _
  · exact h
  · exact h

theorem Dev.readsOnly.moduleTempRead (h : d.readsOnly e) (mods : List Byte) {i : Nat} (hi : i < 8) : d.readsOnly (e.moduleTempRead mods i) := by
  unfold Dev.moduleTempRead
  repeat' split
  · exact h.setFld (.inr (.inr (.inr ⟨i, hi, rfl⟩))) _ _
  · exact h
  · exact h

theorem Dev.readsOnly.foldl {α : Type} {l : List α} {f : Dev → α → Dev} (hf : ∀ e, ∀ x ∈ l, d.readsOnly e → d.readsOnly (f e x)) (h : d.readsOnly e) :
    d.readsOnly (l.foldl f e) := by
  induction l generalizing e with
  | nil => exact h
  | cons x l ih => exact ih (fun e y hy => hf e y (List.mem_cons_of_mem _ hy)) (hf e x List.mem_cons_self h)

end

theorem Dev.mem_dieTemps (d : Dev) (dies : List Byte) (x : Nat × Nat) :
    x ∈ d.dieTemps dies ↔ x.1 < 5 ∧ (x.1 = 4 ∨ d.fusedFit x.1 = true) ∧ ∃ t, dies[x.1]? = some t ∧ t.toNat = x.2 := by
  obtain ⟨i, n⟩ := x
  unfold Dev.dieTemps
  rw [List.mem_filterMap]
  constructor
  · rintro ⟨j, hj, hx⟩
    split at hx
    · next hfit =>
      obtain ⟨t, ht, he⟩ := Option.map_eq_some_iff.mp hx
      obtain ⟨rfl, rfl⟩ := Prod.mk.inj he
      exact ⟨List.mem_range.mp hj, hfit, t, ht, rfl⟩
    · cases hx
  · rintro ⟨hi, hfit, t, ht, hn⟩
    dsimp only at hi hfit ht hn
    exact ⟨i, List.mem_range.mpr hi, by rw [if_pos hfit, ht, ← hn]; rfl⟩

theorem Dev.dieTemps_nodup (d : Dev) (dies : List Byte) : (d.dieTemps dies).Nodup := by
  refine List.Nodup.filterMap (fun i j x hi hj => ?_) List.nodup_range
  have hfst {k : Nat} (h : x ∈ if k = 4 ∨ d.fusedFit k = true then (dies[k]?).map fun t => (k, t.toNat) else none) : k = x.1 := by
    split at h
    · obtain ⟨t, -, he⟩ := Option.map_eq_some_iff.mp h
      exact congrArg Prod.fst he
    · cases h
  exact (hfst hi).trans (hfst hj).symm

theorem Dev.tempsShown_readsOnly (d : Dev) (dies stks mods : List Byte) : d.readsOnly (d.tempsShown (d.dieTemps dies) stks mods) := by
  unfold Dev.tempsShown
  refine Dev.readsOnly.foldl (fun e i hi h => h.moduleTempRead mods (List.mem_range.mp hi)) ?_
  refine Dev.readsOnly.foldl (fun e i hi h => h.stackTempRead stks (List.mem_range.mp hi)) ?_
  refine Dev.readsOnly.foldl (fun e x hx h => h.setFld (.inr (.inl ⟨x.1, ?_, rfl⟩)) _ _) d.readsOnly_refl
  exact ((d.mem_dieTemps dies x).mp hx).1

theorem Dev.supplyRead_readsOnly (d : Dev) (rails : List (BitVec 10)) (watts : BitVec 16) : d.readsOnly (d.supplyRead rails watts) := by
  rw [Dev.supplyRead_eq]
  exact (Dev.readsOnly.foldl (fun e i hi h => h.railRead rails (List.mem_range.mp hi)) d.readsOnly_refl).setFld (.inl rfl) _ _

theorem Dev.readsOnly.trans {d e f : Dev} (h : d.readsOnly e) (h' : e.readsOnly f) : d.readsOnly f :=
  ⟨h'.1.trans h.1, fun a ha => (h'.2 a ha).trans (h.2 a ha)⟩

/-! The readings shown -/

theorem Dev.stackTempRead_rd (f : Dev) (stks : List Byte) (i : Nat) {a : Nat} (h : a ≠ Reg.stkTemp i) : (f.stackTempRead stks i).rd a = f.rd a := by
  unfold Dev.stackTempRead
  repeat' split
  · exact Dev.rd_setFld_ne _ _ _ h
  · rfl
  · rfl

theorem Dev.moduleTempRead_rd (f : Dev) (mods : List Byte) (i : Nat) {a : Nat} (h : a ≠ Reg.chTemp i) : (f.moduleTempRead mods i).rd a = f.rd a := by
  unfold Dev.moduleTempRead
  repeat' split
  · exact Dev.rd_setFld_ne _ _ _ h
  · rfl
  · rfl

theorem Dev.railRead_rd (f : Dev) (rails : List (BitVec 10)) (i : Nat) {a : Nat} (h : a ≠ Reg.pwrDie i) : (f.railRead rails i).rd a = f.rd a := by
  unfold Dev.railRead
  repeat' split
  · exact Dev.rd_setFld_ne _ _ _ h
  · rfl
  · rfl

theorem pwrDie_ne {i j : Nat} (h : i ≠ j) : Reg.pwrDie i ≠ Reg.pwrDie j := by unfold Reg.pwrDie; omega
theorem stkTemp_ne {i j : Nat} (h : i ≠ j) : Reg.stkTemp i ≠ Reg.stkTemp j := by unfold Reg.stkTemp; omega
theorem chTemp_ne {i j : Nat} (h : i ≠ j) : Reg.chTemp i ≠ Reg.chTemp j := by unfold Reg.chTemp; omega

/-- The readings of a supply round. -/
theorem Dev.supplyRead_spec (d : Dev) (rails : List (BitVec 10)) (watts : BitVec 16) :
    (∀ i < 5, ∀ v, (i = 4 ∨ d.fusedFit i = true) → rails[i]? = some v → (d.supplyRead rails watts).fld (Reg.pwrDie i) Fld.pwrDieVmeasMv = v.toNat) ∧
      (d.supplyRead rails watts).fld Reg.pwrWatts Fld.pwrWattsWatts = watts.toNat := by
  rw [Dev.supplyRead_eq]
  refine ⟨fun i hi v hfit hv => ?_, ?_⟩
  · rw [Dev.fld_setFld_ne _ _ _ _ (by unfold Reg.pwrDie Reg.pwrWatts; omega)]
    refine Dev.foldl_fld (fun e => e.boot = d.boot) _ _ _ _ i (fun e j h => ?_) (fun e h => ?_) _ (List.mem_range.mpr hi) List.nodup_range
      (fun e j _ hj => e.railRead_rd rails j (pwrDie_ne hj.symm)) d rfl
    · unfold Dev.railRead
      repeat' split
      · exact h
      · exact h
      · exact h
    · unfold Dev.railRead
      rw [hv]
      dsimp only
      rw [if_pos (by rwa [Dev.fusedFit_of_boot h]), Dev.fld_setFld_same _ _ _ _ (by decide)]
      exact Nat.mod_eq_of_lt v.isLt
  · rw [Dev.fld_setFld_same _ _ _ _ (by decide)]
    exact Nat.mod_eq_of_lt watts.isLt

theorem Dev.stackTemps_rd (f : Dev) (stks : List Byte) {a : Nat} (h : a < 0x161028) :
    ((List.range 12).foldl (Dev.stackTempRead stks) f).rd a = f.rd a :=
  Dev.foldl_rd _ _ _ (fun e i _ => e.stackTempRead_rd stks i (by unfold Reg.stkTemp; omega)) f

theorem Dev.moduleTemps_rd (f : Dev) (mods : List Byte) {a : Nat} (h : a < 0x14100C ∨ 0x141200 ≤ a) :
    ((List.range 8).foldl (Dev.moduleTempRead mods) f).rd a = f.rd a :=
  Dev.foldl_rd _ _ _ (fun e i hi => e.moduleTempRead_rd mods i (by have := List.mem_range.mp hi; unfold Reg.chTemp; omega)) f

theorem Dev.dieTemps_rd (f : Dev) (ts : List (Nat × Nat)) {a : Nat} (h : a < 0x50040) : (ts.foldl Dev.dieShown f).rd a = f.rd a :=
  Dev.foldl_rd _ _ _ (fun _ x _ => Dev.rd_setFld_ne _ _ _ (by unfold Reg.pwrDie; omega)) f

theorem Dev.fit_of_rd {d e : Dev} (h : ∀ a < 0x50040, e.rd a = d.rd a) (b : Nat) : e.fit b = d.fit b := by
  unfold Dev.fit Dev.fitted
  rw [h _ (by decide), h _ (by decide)]

/-- The temperature that a die's reading shows. -/
theorem Dev.dieTemps_fld (d : Dev) (dies : List Byte) {i t : Nat} (hm : (i, t) ∈ d.dieTemps dies) (ht : t < 256) :
    ((d.dieTemps dies).foldl Dev.dieShown d).fld (Reg.pwrDie i) Fld.pwrDieTjC = t := by
  refine Dev.foldl_fld (fun _ => True) Dev.dieShown _ _ _ (i, t) (fun _ _ _ => trivial) (fun e _ => ?_) _ hm (d.dieTemps_nodup dies)
    (fun e y hy hne => Dev.rd_setFld_ne _ _ _ (pwrDie_ne fun hi => hne ?_)) d trivial
  · exact (Dev.fld_setFld_same _ _ _ _ (by decide)).trans (Nat.mod_eq_of_lt ht)
  · obtain ⟨-, -, x, hx, rfl⟩ := (d.mem_dieTemps dies _).mp hm
    obtain ⟨-, -, z, hz, hyz⟩ := (d.mem_dieTemps dies _).mp hy
    rw [← hi, hx] at hz
    obtain rfl := Option.some.inj hz
    exact Prod.ext hi.symm hyz.symm

theorem Dev.stackTemps_fld (d : Dev) (stks : List Byte) {i : Nat} (hi : i < 12) {t : Byte} (ht : stks[i]? = some t)
    (hf : d.fit (stackFitBit i) = true) :
    ((List.range 12).foldl (Dev.stackTempRead stks) d).fld (Reg.stkTemp i) Fld.stkTempDegC = t.toNat := by
  refine Dev.foldl_fld (fun e => ∀ a < 0x50040, e.rd a = d.rd a) _ _ _ _ i (fun e j h a ha => ?_) (fun e h => ?_) _ (List.mem_range.mpr hi)
    List.nodup_range (fun e j _ hj => e.stackTempRead_rd stks j (stkTemp_ne hj.symm)) d fun _ _ => rfl
  · exact (e.stackTempRead_rd stks j (by unfold Reg.stkTemp; omega)).trans (h a ha)
  · unfold Dev.stackTempRead
    rw [ht]
    dsimp only
    rw [if_pos (by rwa [Dev.fit_of_rd h]), Dev.fld_setFld_same _ _ _ _ (by decide)]
    exact Nat.mod_eq_of_lt t.isLt

theorem Dev.moduleTemps_fld (d : Dev) (mods : List Byte) {i : Nat} (hi : i < 8) {t : Byte} (ht : mods[i]? = some t)
    (hf : d.fit (16 + i) = true) :
    ((List.range 8).foldl (Dev.moduleTempRead mods) d).fld (Reg.chTemp i) Fld.chTempDegC = t.toNat := by
  refine Dev.foldl_fld (fun e => ∀ a < 0x50040, e.rd a = d.rd a) _ _ _ _ i (fun e j h a ha => ?_) (fun e h => ?_) _ (List.mem_range.mpr hi)
    List.nodup_range (fun e j _ hj => e.moduleTempRead_rd mods j (chTemp_ne hj.symm)) d fun _ _ => rfl
  · exact (e.moduleTempRead_rd mods j (by unfold Reg.chTemp; omega)).trans (h a ha)
  · unfold Dev.moduleTempRead
    rw [ht]
    dsimp only
    rw [if_pos (by rwa [Dev.fit_of_rd h]), Dev.fld_setFld_same _ _ _ _ (by decide)]
    exact Nat.mod_eq_of_lt t.isLt

/-- The readings of a temperature round; the rails and the power stand as they were. -/
theorem Dev.tempsShown_spec (d : Dev) (dies stks mods : List Byte) :
    let e := d.tempsShown (d.dieTemps dies) stks mods
    (∀ i t, i < 5 → t < 256 → (i, t) ∈ d.dieTemps dies → e.fld (Reg.pwrDie i) Fld.pwrDieTjC = t) ∧
      (∀ i < 12, ∀ t, stks[i]? = some t → d.fit (stackFitBit i) = true → e.fld (Reg.stkTemp i) Fld.stkTempDegC = t.toNat) ∧
      (∀ i < 8, ∀ t, mods[i]? = some t → d.fit (16 + i) = true → e.fld (Reg.chTemp i) Fld.chTempDegC = t.toNat) ∧
      (∀ i < 5, e.fld (Reg.pwrDie i) Fld.pwrDieVmeasMv = d.fld (Reg.pwrDie i) Fld.pwrDieVmeasMv) ∧ e.rd Reg.pwrWatts = d.rd Reg.pwrWatts := by
  intro e
  have hdie {a : Nat} (h : a < 0x14100C) : e.rd a = ((d.dieTemps dies).foldl Dev.dieShown d).rd a :=
    (Dev.moduleTemps_rd _ mods (.inl h)).trans (Dev.stackTemps_rd _ stks (by omega))
  have hlow {i : Nat} (hi : i < 5) : Reg.pwrDie i < 0x14100C := by unfold Reg.pwrDie; omega
  have hfit (f : Dev) (hf : ∀ a < 0x50040, f.rd a = ((d.dieTemps dies).foldl Dev.dieShown d).rd a) (b : Nat) : f.fit b = d.fit b :=
    Dev.fit_of_rd (fun a ha => (hf a ha).trans (Dev.dieTemps_rd _ _ ha)) b
  refine ⟨fun i t hi ht hm => (Dev.fld_of_rd (hdie (hlow hi)) _).trans (d.dieTemps_fld dies hm ht), fun i hi t ht hf => ?_,
    fun i hi t ht hf => ?_, fun i hi => (Dev.fld_of_rd (hdie (hlow hi)) _).trans ?_, (hdie (by decide)).trans (Dev.dieTemps_rd _ _ (by decide))⟩
  · refine (Dev.fld_of_rd (Dev.moduleTemps_rd _ mods (.inr (by unfold Reg.stkTemp; omega))) _).trans ?_
    exact Dev.stackTemps_fld _ stks hi ht ((hfit _ (fun _ _ => rfl) _).trans hf)
  · exact Dev.moduleTemps_fld _ mods hi ht ((hfit _ (fun a ha => Dev.stackTemps_rd _ stks (by omega)) _).trans hf)
  · refine foldl_keeps (P := fun f => f.fld (Reg.pwrDie i) Fld.pwrDieVmeasMv = d.fld (Reg.pwrDie i) Fld.pwrDieVmeasMv) (fun f x h => ?_) rfl
    by_cases hx : i = x.1
    · rw [← h, hx]
      exact Dev.fld_setFld_fld _ _ _ _ _ (by decide) (by decide)
    · exact (Dev.fld_setFld_ne _ _ _ _ (pwrDie_ne hx)).trans h

/-! OVERTEMP and FAULT -/

section
variable (d : Dev) (ts : List (Nat × Nat))

theorem Dev.overtempSeen_rd {a : Nat} (h : a ≠ Reg.pwrStat) (hl : a ≠ Reg.logLost) (hm : a ≠ Reg.logMirrorLost) :
    (d.overtempSeen ts).rd a = d.rd a := by
  unfold Dev.overtempSeen
  split
  · exact (Dev.logInternal_rd _ _ _ _ _ hl hm).trans (Dev.rd_setFld_ne _ _ _ h)
  · split
    · exact Dev.rd_setFld_ne _ _ _ h
    · rfl

theorem Dev.overtempSeen_set (h : (ts.any fun x => decide (110 ≤ x.2)) = true) :
    (d.overtempSeen ts).flag Reg.pwrStat Fld.pwrStatOvertemp = true := by
  unfold Dev.overtempSeen
  rw [h]
  split
  · rw [Dev.flag_of_rd (Dev.logInternal_rd _ _ _ _ _ (by decide) (by decide)), Dev.flag_setFld_same _ _ _ _ (by decide)]
    rfl
  · next hset =>
    have hflag : d.flag Reg.pwrStat Fld.pwrStatOvertemp = true := by simpa using hset
    rw [if_neg, hflag]
    intro hall
    obtain ⟨x, hx, hhot⟩ := List.any_eq_true.mp h
    have hcool := List.all_eq_true.mp (Bool.and_eq_true_iff.mp hall).1 x hx
    have := of_decide_eq_true hhot
    have := of_decide_eq_true hcool
    omega

theorem Dev.overtempSeen_clear (hne : ts ≠ []) (h : (ts.all fun x => decide (x.2 < 105)) = true) :
    (d.overtempSeen ts).flag Reg.pwrStat Fld.pwrStatOvertemp = false := by
  have hno : (ts.any fun x => decide (110 ≤ x.2)) = false := by
    refine List.any_eq_false.mpr fun x hx hhot => ?_
    have := of_decide_eq_true (List.all_eq_true.mp h x hx)
    have := of_decide_eq_true hhot
    omega
  unfold Dev.overtempSeen
  rw [hno, h, List.isEmpty_eq_false_iff.mpr hne]
  exact Dev.flag_setFld_same _ _ _ _ (by decide)

theorem Dev.overtempSeen_between (h : (ts.any fun x => decide (110 ≤ x.2)) = false) (h' : (ts.all fun x => decide (x.2 < 105)) = false) :
    d.overtempSeen ts = d := by
  unfold Dev.overtempSeen
  rw [h, h']
  rfl

theorem Dev.tooHot_rd {a : Nat} (h : 0x50018 ≤ a ∨ a = Reg.pwrStat) : (d.tooHot ts).rd a = d.rd a := by
  have hne {b : Nat} (hb : b < 0x50018) (hb' : b ≠ Reg.pwrStat) : a ≠ b := by rintro rfl; exact h.elim (fun h => by omega) hb'
  unfold Dev.tooHot
  split
  · refine (Dev.logInternal_rd _ _ _ _ _ (hne (by decide) (by decide)) (hne (by decide) (by decide))).trans ?_
    exact Dev.enterFault_rd d (hne (by decide) (by decide)) (hne (by decide) (by decide)) (hne (by decide) (by decide)) (hne (by decide) (by decide))
  · rfl

theorem Dev.tooHot_mode (h : (ts.any fun x => decide (120 ≤ x.2)) = true) : (d.tooHot ts).mode = 3 := by
  unfold Dev.tooHot
  rw [h]
  split
  · exact (Dev.fld_of_rd (Dev.logInternal_rd _ _ _ _ _ (by decide) (by decide)) _).trans d.enterFault_mode
  · next hm => simpa using hm

theorem Dev.tooHot_cool (h : (ts.any fun x => decide (120 ≤ x.2)) = false) : d.tooHot ts = d := by
  unfold Dev.tooHot
  rw [h]
  rfl

end

/-- A round of readings: what it shows, and what it finds (R500). -/
theorem temperatures_gives (s : State) (dies stks mods : List Byte) (rails : List (BitVec 10)) (watts : BitVec 16) (ha : s.dev.alive = true) :
    let read : Nat → Byte → Prop := fun i t => i < 5 ∧ (i = 4 ∨ s.dev.fusedFit i = true) ∧ dies[i]? = some t
    Gives (.temperatureRead dies stks mods rails watts) s fun d =>
      (∀ i < 5, ∀ v, (i = 4 ∨ s.dev.fusedFit i = true) → rails[i]? = some v → d.fld (Reg.pwrDie i) Fld.pwrDieVmeasMv = v.toNat) ∧
      d.fld Reg.pwrWatts Fld.pwrWattsWatts = watts.toNat ∧
      (∀ i t, read i t → d.fld (Reg.pwrDie i) Fld.pwrDieTjC = t.toNat) ∧
      (∀ i < 12, ∀ t, stks[i]? = some t → s.dev.fit (stackFitBit i) = true → d.fld (Reg.stkTemp i) Fld.stkTempDegC = t.toNat) ∧
      (∀ i < 8, ∀ t, mods[i]? = some t → s.dev.fit (16 + i) = true → d.fld (Reg.chTemp i) Fld.chTempDegC = t.toNat) ∧
      ((∃ i t, read i t ∧ 110 ≤ t.toNat) → d.flag Reg.pwrStat Fld.pwrStatOvertemp = true) ∧
      ((∃ i t, read i t) → (∀ i t, read i t → t.toNat < 105) → d.flag Reg.pwrStat Fld.pwrStatOvertemp = false) ∧
      ((∀ i t, read i t → t.toNat < 110) → (∃ i t, read i t ∧ 105 ≤ t.toNat) →
        d.flag Reg.pwrStat Fld.pwrStatOvertemp = s.dev.flag Reg.pwrStat Fld.pwrStatOvertemp) ∧
      ((∃ i t, read i t ∧ 120 ≤ t.toNat) → d.mode = 3) ∧
      ((∀ i t, read i t → t.toNat < 120) → d.mode = s.dev.mode) ∧
      s.dev.keepsBut [.regs, .log, .outbox, .scr, .tms, .pwr] d := by
  intro read
  refine gives_live (exec_temperatureRead s dies stks mods rails watts) ha ?_
  have hall : s.dev.keepsBut [.regs, .log, .outbox, .scr, .tms, .pwr] ((s.dev.supplyRead rails watts).temperatures dies stks mods) :=
    Dev.temperatures_keeps (keepsBut_keeps _ _) (Dev.supplyRead_keeps ((keepsBut_keeps _ _).mono rfl) (keepsBut_refl _ _))
  revert hall
  rw [Dev.temperatures_eq]
  have hsup := s.dev.supplyRead_readsOnly rails watts
  obtain ⟨hrails, hwatts⟩ := s.dev.supplyRead_spec rails watts
  set e := s.dev.supplyRead rails watts
  obtain ⟨hdies, hstks, hmods, hvs, hws⟩ := e.tempsShown_spec dies stks mods
  have hshown := hsup.trans (e.tempsShown_readsOnly dies stks mods)
  set ts := e.dieTemps dies
  set f := e.tempsShown ts stks mods
  have hread (i n : Nat) : (i, n) ∈ ts ↔ ∃ t, read i t ∧ t.toNat = n := by
    rw [e.mem_dieTemps dies, Dev.fusedFit_of_boot hsup.1]
    exact ⟨fun ⟨hi, hf, t, ht, hn⟩ => ⟨t, ⟨hi, hf, ht⟩, hn⟩, fun ⟨t, ⟨hi, hf, ht⟩, hn⟩ => ⟨hi, hf, t, ht, hn⟩⟩
  have hany (k : Nat) : (ts.any fun x => decide (k ≤ x.2)) = true ↔ ∃ i t, read i t ∧ k ≤ t.toNat := by
    rw [List.any_eq_true]
    constructor
    · rintro ⟨⟨i, n⟩, hx, hk⟩
      obtain ⟨t, ht, rfl⟩ := (hread i n).mp hx
      exact ⟨i, t, ht, of_decide_eq_true hk⟩
    · rintro ⟨i, t, ht, hk⟩
      exact ⟨(i, t.toNat), (hread i _).mpr ⟨t, ht, rfl⟩, decide_eq_true hk⟩
  have hnone (k : Nat) : (ts.any fun x => decide (k ≤ x.2)) = false ↔ ∀ i t, read i t → t.toNat < k := by
    rw [← Bool.not_eq_true, hany]
    exact ⟨fun h i t ht => Nat.lt_of_not_le fun hk => h ⟨i, t, ht, hk⟩, fun h ⟨i, t, ht, hk⟩ => absurd (h i t ht) (by omega)⟩
  have hcold : (ts.all fun x => decide (x.2 < 105)) = !(ts.any fun x => decide (105 ≤ x.2)) := by
    rw [List.not_any_eq_all_not]
    refine congrArg ts.all (funext fun x => ?_)
    rw [← decide_not]
    exact decide_eq_decide.mpr Nat.not_le.symm
  have hhigh {a : Nat} (h : 0x50030 ≤ a) : ((f.overtempSeen ts).tooHot ts).rd a = f.rd a :=
    (Dev.tooHot_rd _ _ (.inl (by omega))).trans
      (f.overtempSeen_rd ts (by unfold Reg.pwrStat; omega) (by unfold Reg.logLost; omega) (by unfold Reg.logMirrorLost; omega))
  have hstat : ((f.overtempSeen ts).tooHot ts).flag Reg.pwrStat Fld.pwrStatOvertemp = (f.overtempSeen ts).flag Reg.pwrStat Fld.pwrStatOvertemp :=
    Dev.flag_of_rd (Dev.tooHot_rd _ _ (.inr rfl)) _
  have hmode : (f.overtempSeen ts).mode = s.dev.mode :=
    Dev.fld_of_rd ((f.overtempSeen_rd ts (by decide) (by decide) (by decide)).trans (hshown.rd (by decide))) _
  refine fun hall => ⟨fun i hi v hfit hv => ?_, ?_, fun i t ht => ?_, fun i hi t ht hfit => ?_, fun i hi t ht hfit => ?_, fun h => ?_,
    fun hsome h => ?_, fun h h' => ?_, fun h => Dev.tooHot_mode _ _ ((hany 120).mpr h), fun h => ?_, hall⟩
  · rw [Dev.fld_of_rd (hhigh (by unfold Reg.pwrDie; omega)), hvs i hi]
    exact hrails i hi v hfit hv
  · rw [Dev.fld_of_rd (hhigh (by decide)), Dev.fld_of_rd hws]
    exact hwatts
  · rw [Dev.fld_of_rd (hhigh (by unfold Reg.pwrDie; omega))]
    exact hdies i _ ht.1 t.isLt ((hread i _).mpr ⟨t, ht, rfl⟩)
  · rw [Dev.fld_of_rd (hhigh (by unfold Reg.stkTemp; omega))]
    exact hstks i hi t ht ((hsup.fit _).trans hfit)
  · rw [Dev.fld_of_rd (hhigh (by unfold Reg.chTemp; omega))]
    exact hmods i hi t ht ((hsup.fit _).trans hfit)
  · rw [hstat]
    exact f.overtempSeen_set ts ((hany 110).mpr h)
  · obtain ⟨i, t, ht⟩ := hsome
    rw [hstat]
    refine f.overtempSeen_clear ts (List.ne_nil_of_mem ((hread i _).mpr ⟨t, ht, rfl⟩)) ?_
    rw [hcold, (hnone 105).mpr h]
    rfl
  · rw [hstat, f.overtempSeen_between ts ((hnone 110).mpr h) (by rw [hcold, (hany 105).mpr h']; rfl)]
    exact Dev.flag_of_rd (hshown.rd (by decide)) _
  · rw [Dev.tooHot_cool _ _ ((hnone 120).mpr h)]
    exact hmode

/-! Power domains (R498) -/

theorem Dev.setDom_bit (d : Dev) {k : Nat} (hk : k < 36) (b : Bool) :
    bitAt ((d.setDom k b).rd (if k < 32 then Reg.pwrDomOnLo else Reg.pwrDomOnHi)) (k % 32) = b := by
  unfold Dev.setDom
  split
  · next h =>
    rw [Nat.mod_eq_of_lt h]
    exact Dev.bitAt_wr_putBit_same _ _ _ _ h
  · next h =>
    rw [show k % 32 = k - 32 by omega]
    exact Dev.bitAt_wr_putBit_same _ _ _ _ (by omega)

/-- Settles O25: the readings register by register, and the domain that a power good lets on. -/
theorem temperatureAndPower : Obligations.TemperatureAndPower := by
  unfold Obligations.TemperatureAndPower
  refine ⟨temperatures_gives, fun s k ks ha h => gives_live (exec_domainPowerGood s) ha ?_⟩
  have hall : s.dev.keepsBut [.regs, .pwr] s.dev.powerGood := Dev.powerGood_keeps (keepsBut_keeps _ _) (keepsBut_refl _ _)
  revert hall
  unfold Dev.powerGood
  rw [h]
  cases ks with
  | nil => exact fun hall => ⟨rfl, nofun, fun _ => rfl, fun _ _ => rfl, hall⟩
  | cons j js =>
    refine fun hall => ⟨?_, ?_, nofun, fun a hb => Dev.setDom_rd _ j true ?_ ?_, hall⟩
    · exact Dev.setDom_keeps (P := fun e => e.pwr = { s.dev.pwr with due := j :: js }) (fun p hp => by
        obtain rfl := List.mem_singleton.mp hp
        exact fun _ _ _ h => h) rfl
    · rintro j' js' he hj
      obtain ⟨rfl, -⟩ := List.cons.inj he
      exact Dev.setDom_bit _ hj true
    · exact fun e => hb (by simp [e])
    · exact fun e => hb (by simp [e])

end Sys2Proof.Machine
end

