-- ==== Sys2Proof/Proofs/Attestation.lean ====
section
/-!
Attestation reports, checkpoints of the log, and their signatures.
-/

namespace Sys2Proof.Machine

open Sys2Proof

theorem exec_attestationReport (s : State) : exec .attestationReport s = s.up Dev.attestDone := rfl

theorem exec_checkpoint (s : State) : exec .checkpoint s = s.up Dev.checkpoint := rfl

theorem exec_checkpointSignature (s : State) : exec .checkpointSignature s = s.up Dev.checkpointSigned := rfl

/-! The report -/

theorem undAttReport_injective : Function.Injective Reg.undAttReport := fun i j h => by unfold Reg.undAttReport at h; omega

/-- The words of a report shown. -/
def Dev.reportShown (all : List Byte) (d : Dev) : Dev := (List.range 128).foldl (fun f j => f.wr (Reg.undAttReport j) (leAt all (4 * j) 4)) d

/-- No report is under signature. -/
def Dev.reportTaken (d : Dev) : Dev := { d with boot := { d.boot with att := none } }

theorem Dev.reportTaken_rd (d : Dev) (a : Nat) : d.reportTaken.rd a = d.rd a := rfl

theorem Dev.reportTaken_boot (d : Dev) : d.reportTaken.boot = { d.boot with att := none } := rfl

theorem Dev.reportShown_rd (d : Dev) (all : List Byte) {j : Nat} (hj : j < 128) :
    (d.reportShown all).rd (Reg.undAttReport j) = leAt all (4 * j) 4 % 2 ^ 32 :=
  Dev.foldl_wr_rd (v := fun j => leAt all (4 * j) 4) undAttReport_injective _ d (List.mem_range.mpr hj)

theorem Dev.reportShown_rd_ne (d : Dev) (all : List Byte) {a : Nat} (ha : a ∉ (List.range 128).map Reg.undAttReport) :
    (d.reportShown all).rd a = d.rd a :=
  Dev.foldl_rd _ _ _ (fun _ _ hj => Dev.rd_wr_ne _ _ fun he => ha (by rw [he]; exact List.mem_map_of_mem hj)) d

theorem Dev.reportShown_boot (d : Dev) (all : List Byte) : (d.reportShown all).boot = d.boot :=
  foldl_keeps (P := fun e => e.boot = d.boot) (fun _ _ h => h) rfl

theorem Dev.attestDone_eq {d : Dev} {b : List Byte} (hb : d.boot.att = some b) (hc : d.log.ckptOpen = none) :
    d.attestDone = (((d.reportShown (b ++ takeBytes 192 (ed448Sign d.idPrivate (asciiBytes "ZRT Attest") b))).reportTaken.setFld
      Reg.undAttCtl Fld.undAttCtlBusy 0).setFld Reg.undAttCtl Fld.undAttCtlValid 1).count Reg.undAttCount := by
  unfold Dev.attestDone
  rw [hc, hb]
  rfl

/-- A report under signature is shown with its signature (R418). -/
theorem attestDone_spec {d : Dev} {b : List Byte} (hb : d.boot.att = some b) (hc : d.log.ckptOpen = none) :
    let all := b ++ takeBytes 192 (ed448Sign d.idPrivate (asciiBytes "ZRT Attest") b)
    d.attestDone.flag Reg.undAttCtl Fld.undAttCtlBusy = false ∧ d.attestDone.flag Reg.undAttCtl Fld.undAttCtlValid = true ∧
      d.attestDone.rd Reg.undAttCount = satInc 32 1 (d.rd Reg.undAttCount) ∧
      (∀ j < 128, d.attestDone.rd (Reg.undAttReport j) = leAt all (4 * j) 4 % 2 ^ 32) ∧
      d.attestDone.boot = { d.boot with att := none } ∧
      d.regsBut (Reg.undAttCtl :: Reg.undAttCount :: (List.range 128).map Reg.undAttReport) d.attestDone := by
  intro all
  rw [Dev.attestDone_eq hb hc]
  have hshown (j : Nat) (hj : j < 128) : (d.reportShown all).reportTaken.rd (Reg.undAttReport j) = leAt all (4 * j) 4 % 2 ^ 32 := by
    rw [Dev.reportTaken_rd, d.reportShown_rd all hj]
  have hrest {a : Nat} (ha : a ∉ (List.range 128).map Reg.undAttReport) : (d.reportShown all).reportTaken.rd a = d.rd a := by
    rw [Dev.reportTaken_rd, d.reportShown_rd_ne all ha]
  have hboot : (d.reportShown all).reportTaken.boot = { d.boot with att := none } := by
    rw [Dev.reportTaken_boot, d.reportShown_boot all]
  have hlow {a : Nat} (ha : a < Reg.undAttReport 0) : a ∉ (List.range 128).map Reg.undAttReport := fun hm => by
    obtain ⟨j, -, rfl⟩ := List.mem_map.mp hm
    unfold Reg.undAttReport at ha
    omega
  have hreport (j : Nat) : Reg.undAttReport j ≠ Reg.undAttCtl ∧ Reg.undAttReport j ≠ Reg.undAttCount := by
    unfold Reg.undAttReport Reg.undAttCtl Reg.undAttCount
    omega
  generalize (d.reportShown all).reportTaken = g at hshown hrest hboot ⊢
  refine ⟨?_, ?_, ?_, fun j hj => ?_, hboot, fun a ha => ?_⟩
  · rw [Dev.flag_of_rd (Dev.rd_count_ne _ (by decide)), Dev.flag_setFld_fld _ _ _ _ _ (by decide) (by decide),
      Dev.flag_setFld_same _ _ _ _ (by decide)]
    rfl
  · rw [Dev.flag_of_rd (Dev.rd_count_ne _ (by decide)), Dev.flag_setFld_same _ _ _ _ (by decide)]
    rfl
  · rw [Dev.rd_count, Dev.rd_setFld_ne _ _ _ (by decide), Dev.rd_setFld_ne _ _ _ (by decide), hrest (hlow (by decide))]
  · rw [Dev.rd_count_ne _ (hreport j).2, Dev.rd_setFld_ne _ _ _ (hreport j).1, Dev.rd_setFld_ne _ _ _ (hreport j).1]
    exact hshown j hj
  · obtain ⟨hctl, ha⟩ := not_or.mp (mt List.mem_cons.mpr ha)
    obtain ⟨hcount, ha⟩ := not_or.mp (mt List.mem_cons.mpr ha)
    rw [Dev.rd_count_ne _ hcount, Dev.rd_setFld_ne _ _ _ hctl, Dev.rd_setFld_ne _ _ _ hctl]
    exact hrest ha

/-! Checkpoints -/

/-- A second of network time without a checkpoint yet. -/
def Dev.ckptFresh (d : Dev) : Bool :=
  match d.log.ckptSecond with
  | some x => decide (x < d.netNs / 1000000000)
  | none => decide (0 < d.netNs / 1000000000)

/-- A step passed over the beginning of the second. -/
def Dev.ckptStepped (d : Dev) : Bool :=
  d.tms.passed.any fun p => decide (p.1 < d.netNs / 1000000000 * 1000000000 * 65536 ∧ d.netNs / 1000000000 * 1000000000 * 65536 < p.2)

/-- The entry of a second. -/
def Dev.ckptEntered (d : Dev) : Dev := d.logInternal Reg.logCkpt (d.log.ckptPrev.getD 0xFFFFFFFF) (d.rd Reg.logCkpt + 1) .ok

theorem Dev.checkpoint_eq (d : Dev) :
    d.checkpoint = if d.log.opened && d.ckptFresh && !d.ckptStepped then
      { d.ckptEntered.count Reg.logCkpt with log := { d.ckptEntered.log with
          ckptSecond := some (d.netNs / 1000000000), ckptPrev := some (d.log.written % 2 ^ 24),
          ckptOpen := some (d.nextEntry (internalOrigin Reg.logCkpt) Reg.logCkpt (d.log.ckptPrev.getD 0xFFFFFFFF) (d.rd Reg.logCkpt + 1) .ok) } }
      else d := rfl

theorem Dev.checkpoint_spec {d : Dev} (h : (d.log.opened && d.ckptFresh && !d.ckptStepped) = true) :
    d.log.gains d.checkpoint.log (internalOrigin Reg.logCkpt) Reg.logCkpt (d.log.ckptPrev.getD 0xFFFFFFFF) (d.rd Reg.logCkpt + 1) .ok ∧
      d.checkpoint.rd Reg.logCkpt = satInc 32 1 (d.rd Reg.logCkpt) ∧ d.checkpoint.log.ckptSecond = some (d.netNs / 1000000000) ∧
      d.checkpoint.log.ckptPrev = some (d.log.written % 2 ^ 24) ∧ d.checkpoint.log.ckptOpen.isSome = true ∧
      d.regsBut [Reg.logCkpt, Reg.logLost, Reg.logMirrorLost] d.checkpoint := by
  have hgains : d.log.gains d.ckptEntered.log (internalOrigin Reg.logCkpt) Reg.logCkpt (d.log.ckptPrev.getD 0xFFFFFFFF)
      (d.rd Reg.logCkpt + 1) .ok := Dev.logInternal_gains ..
  have hregs : d.regsBut [Reg.logCkpt, Reg.logLost, Reg.logMirrorLost] d.ckptEntered :=
    (Dev.logInternal_regsBut d _ _ _ _).mono (by decide)
  rw [Dev.checkpoint_eq, if_pos h]
  refine ⟨?_, (Dev.rd_count _ _).trans ?_, rfl, rfl, rfl, (hregs.count (by decide)).trans (Dev.regsBut_of_regs _ rfl)⟩
  · unfold LogSt.gains at hgains ⊢
    exact hgains
  · rw [show d.ckptEntered.rd Reg.logCkpt = d.rd Reg.logCkpt from Dev.logInternal_rd _ _ _ _ _ (by decide) (by decide)]

/-! The signature of a checkpoint -/

/-- An entry put into an open log. -/
theorem Dev.logWrite_log (d : Dev) (o : Origin) (object old new : Nat) (st : Status) :
    (d.logWrite o object old new st).log.entries = (d.nextEntry o object old new st :: d.log.entries).take d.log.cap ∧
      (d.logWrite o object old new st).log.written = d.log.written + 1 ∧ (d.logWrite o object old new st).log.cap = d.log.cap ∧
      (d.logWrite o object old new st).log.opened = d.log.opened ∧ (d.logWrite o object old new st).log.ckptOpen = d.log.ckptOpen := by
  unfold Dev.logWrite
  dsimp only
  rw [Dev.countIf_log, Dev.countIf_log]
  exact ⟨rfl, rfl, rfl, rfl, rfl⟩

theorem Dev.logInternal_of_opened {d : Dev} (h : d.log.opened = true) (object old new : Nat) (st : Status) :
    d.logInternal object old new st = d.logWrite (internalOrigin object) object old new st := if_pos h

/-- Piece k of a signature, logged. -/
def Dev.sigPiece (sig : List Byte) (f : Dev) (k : Nat) : Dev :=
  f.logInternal (Reg.logCkptSig (2 * k)) (leAt sig (8 * k) 4) (leAt sig (8 * k + 4) 4) .ok

/-- The entry of piece k of a signature. -/
def isPiece (sig : List Byte) (k : Nat) (x : LogEntry) : Prop :=
  x.origin = internalOrigin (Reg.logCkptSig (2 * k)) ∧ x.object = Reg.logCkptSig (2 * k) ∧ x.old = leAt sig (8 * k) 4 ∧
    x.new = leAt sig (8 * k + 4) 4 ∧ x.status = Status.ok.code

/-- The first n pieces of a signature in the log, the latest first. -/
theorem Dev.sigPieces_log {d : Dev} (sig : List Byte) (h : d.log.opened = true) (n : Nat) :
    let e := (List.range n).foldl (Dev.sigPiece sig) d
    e.log.opened = true ∧ e.log.cap = d.log.cap ∧ e.log.ckptOpen = d.log.ckptOpen ∧ e.log.written = d.log.written + n ∧
      (n ≤ d.log.cap → ∀ k < n, ∃ x, e.log.entries[n - 1 - k]? = some x ∧ isPiece sig k x) := by
  induction n with
  | zero => exact ⟨h, rfl, rfl, rfl, fun _ k hk => absurd hk (Nat.not_lt_zero k)⟩
  | succ n ih =>
    rw [List.range_succ, List.foldl_append]
    obtain ⟨hopen, hcap, hckpt, hwritten, hpieces⟩ := ih
    set e := (List.range n).foldl (Dev.sigPiece sig) d
    have hstep : [n].foldl (Dev.sigPiece sig) e =
        e.logWrite (internalOrigin (Reg.logCkptSig (2 * n))) (Reg.logCkptSig (2 * n)) (leAt sig (8 * n) 4) (leAt sig (8 * n + 4) 4) .ok :=
      Dev.logInternal_of_opened hopen _ _ _ _
    rw [hstep]
    obtain ⟨hentries, hwritten', hcap', hopen', hckpt'⟩ :=
      e.logWrite_log (internalOrigin (Reg.logCkptSig (2 * n))) (Reg.logCkptSig (2 * n)) (leAt sig (8 * n) 4) (leAt sig (8 * n + 4) 4) .ok
    refine ⟨hopen'.trans hopen, hcap'.trans hcap, hckpt'.trans hckpt, by rw [hwritten', hwritten]; rfl, fun hn k hk => ?_⟩
    rw [hentries, hcap, List.getElem?_take_of_lt (by omega)]
    by_cases hkn : k = n
    · subst hkn
      exact ⟨_, by rw [show k + 1 - 1 - k = 0 by omega]; rfl, rfl, rfl, rfl, rfl, rfl⟩
    · obtain ⟨x, hx, hp⟩ := hpieces (by omega) k (by omega)
      refine ⟨x, ?_, hp⟩
      rw [show n + 1 - 1 - k = (n - 1 - k) + 1 by omega]
      exact hx

theorem Dev.sigPieces_rd {d : Dev} (sig : List Byte) (n : Nat) {a : Nat} (h : a ≠ Reg.logLost) (h' : a ≠ Reg.logMirrorLost) :
    ((List.range n).foldl (Dev.sigPiece sig) d).rd a = d.rd a :=
  Dev.foldl_rd _ _ _ (fun e _ _ => Dev.logInternal_rd e _ _ _ _ h h') d

theorem logCkptSig_injective : Function.Injective Reg.logCkptSig := fun i j h => by unfold Reg.logCkptSig at h; omega

/-- The words of a signature shown. -/
def Dev.sigShown (sig : List Byte) (d : Dev) : Dev := (List.range 30).foldl (fun f i => f.wr (Reg.logCkptSig i) (leAt sig (4 * i) 4)) d

theorem Dev.checkpointSigned_eq {d : Dev} {e : LogEntry} (h : d.log.ckptOpen = some e) :
    let sig := takeBytes 120 (ed448Sign d.idPrivate (asciiBytes "ZRT Log") e.bytes)
    d.checkpointSigned = (List.range 15).foldl (Dev.sigPiece sig) (Dev.sigShown sig { d with log := { d.log with ckptOpen := none } }) := by
  intro sig
  unfold Dev.checkpointSigned
  rw [h]
  rfl

/-- The signature of a checkpoint shown, and logged in 15 pieces (R423). -/
theorem checkpointSigned_spec {d : Dev} {e : LogEntry} (hl : d.log.opened = true) (h : d.log.ckptOpen = some e) :
    let sig := takeBytes 120 (ed448Sign d.idPrivate (asciiBytes "ZRT Log") e.bytes)
    (∀ i < 30, d.checkpointSigned.rd (Reg.logCkptSig i) = leAt sig (4 * i) 4 % 2 ^ 32) ∧
      d.checkpointSigned.log.written = d.log.written + 15 ∧
      (15 ≤ d.log.cap → ∀ k < 15, ∃ x, d.checkpointSigned.log.entries[14 - k]? = some x ∧ isPiece sig k x) ∧
      d.checkpointSigned.log.ckptOpen = none ∧
      d.regsBut (Reg.logLost :: Reg.logMirrorLost :: (List.range 30).map Reg.logCkptSig) d.checkpointSigned := by
  intro sig
  rw [Dev.checkpointSigned_eq h]
  set c : Dev := { d with log := { d.log with ckptOpen := none } } with hc
  set f := Dev.sigShown sig c with hf
  have hlog : f.log = c.log := foldl_keeps (P := fun e => e.log = c.log) (fun _ _ h => h) rfl
  have hshown (i : Nat) (hi : i < 30) : f.rd (Reg.logCkptSig i) = leAt sig (4 * i) 4 % 2 ^ 32 :=
    Dev.foldl_wr_rd (v := fun i => leAt sig (4 * i) 4) logCkptSig_injective _ c (List.mem_range.mpr hi)
  have hrest {a : Nat} (ha : a ∉ (List.range 30).map Reg.logCkptSig) : f.rd a = d.rd a :=
    Dev.foldl_rd _ _ _ (fun e j hj => Dev.rd_wr_ne _ _ fun he => ha (by rw [he]; exact List.mem_map_of_mem hj)) c
  have hopen : f.log.opened = true := by rw [hlog]; exact hl
  obtain ⟨-, -, hckpt, hwritten, hpieces⟩ := Dev.sigPieces_log sig hopen 15
  rw [hlog] at hckpt hwritten hpieces
  refine ⟨fun i hi => ?_, hwritten, hpieces, hckpt, fun a ha => ?_⟩
  · rw [Dev.sigPieces_rd sig 15 (by unfold Reg.logCkptSig Reg.logLost; omega) (by unfold Reg.logCkptSig Reg.logMirrorLost; omega)]
    exact hshown i hi
  · obtain ⟨hlost, ha⟩ := not_or.mp (mt List.mem_cons.mpr ha)
    obtain ⟨hmirror, ha⟩ := not_or.mp (mt List.mem_cons.mpr ha)
    rw [Dev.sigPieces_rd sig 15 hlost hmirror]
    exact hrest ha

/-- Settles O31: the report and the checkpoints, each by what is under way and what is due. -/
theorem reportsAndCheckpoints : Obligations.ReportsAndCheckpoints := by
  unfold Obligations.ReportsAndCheckpoints
  refine ⟨?_, fun s hs h => ?_, ?_, ?_⟩
  · intro s b hs hb hc all
    obtain ⟨hbusy, hvalid, hcount, hshown, hboot, hregs⟩ := attestDone_spec hb hc
    exact gives_up (exec_attestationReport s) hs
      ⟨hbusy, hvalid, hcount, hshown, hboot, hregs, Dev.attestDone_keeps (keepsBut_keeps _ _) (keepsBut_refl _ _)⟩
  · refine gives_up (exec_attestationReport s) hs ?_
    have hnone : (if s.dev.log.ckptOpen.isSome then none else s.dev.boot.att) = none := by
      rcases h with h | h
      · rw [h, ite_self]
      · rw [if_pos h]
    unfold Dev.attestDone
    rw [hnone]
  · intro s hs hl sec due stepped
    have hfresh : s.dev.ckptFresh = true ↔ due := by
      show s.dev.ckptFresh = true ↔ (match s.dev.log.ckptSecond with | some x => x < sec | none => 0 < sec)
      unfold Dev.ckptFresh
      cases s.dev.log.ckptSecond with
      | some x => exact decide_eq_true_iff
      | none => exact decide_eq_true_iff
    have hstep : s.dev.ckptStepped = true ↔ stepped := by
      unfold Dev.ckptStepped
      rw [List.any_eq_true]
      exact exists_congr fun p => and_congr_right fun _ => decide_eq_true_iff
    refine ⟨fun hd hn => ?_, fun h => ?_⟩
    · have hdue : (s.dev.log.opened && s.dev.ckptFresh && !s.dev.ckptStepped) = true := by
        rw [hl, hfresh.mpr hd, Bool.eq_false_of_not_eq_true (mt hstep.mp hn)]
        rfl
      obtain ⟨hlog, hcount, hsec, hprev, hopen, hregs⟩ := Dev.checkpoint_spec hdue
      exact gives_up (exec_checkpoint s) hs
        ⟨hlog, hcount, hsec, hprev, hopen, hregs, Dev.checkpoint_keeps (keepsBut_keeps _ _) (keepsBut_refl _ _)⟩
    · refine gives_up (exec_checkpoint s) hs ?_
      rw [Dev.checkpoint_eq, if_neg]
      intro hall
      obtain ⟨hall, hno⟩ := Bool.and_eq_true_iff.mp hall
      obtain ⟨-, hf⟩ := Bool.and_eq_true_iff.mp hall
      rcases h with h | h
      · exact h (hfresh.mp hf)
      · rw [hstep.mpr h] at hno
        cases hno
  · intro s e hs hl h sig
    obtain ⟨hshown, hwritten, hpieces, hopen, hregs⟩ := checkpointSigned_spec hl h
    exact gives_up (exec_checkpointSignature s) hs
      ⟨hshown, hwritten, hpieces, hopen, hregs, Dev.checkpointSigned_keeps (keepsBut_keeps _ _) (keepsBut_refl _ _)⟩

end Sys2Proof.Machine
end

