-- ==== Sys2Proof/Proofs/Rejection.lean ====
section
/-!
What the rejection of a slot leads to, the digests of sections, and the boot watchdogs.
-/

namespace Sys2Proof.Machine

open Sys2Proof

theorem exec_sectionDigest (k : Nat) (s : State) : exec (.sectionDigest k) s = s.live fun d => d.sectionDigest k := rfl

theorem exec_sectionWatchdogExpiry (tie : Bool) (s : State) :
    exec (.sectionWatchdogExpiry tie) s = s.live fun d => d.sectionWatchdog tie := rfl

theorem exec_bootWatchdogExpiry (tie : Bool) (s : State) :
    exec (.bootWatchdogExpiry tie) s = s.live fun d => d.bootWatchdog tie := rfl

theorem Dev.starting_of {d : Dev} (ha : d.alive = true) (hm : d.mode = 0) : d.starting = true := by
  unfold Dev.alive at ha
  unfold Dev.starting
  rw [(Bool.and_eq_true_iff.mp ha).1, hm]
  rfl

/-! The rejection of a slot -/

/-- The rejection of slot k noted and what it loaded discarded, before the next slot is tried. -/
def Dev.slotRejected (d : Dev) (k code : Nat) : Dev :=
  let e := ((d.setFld Reg.bootReason (reasonFld k) code).logAdd ⟨.primer, BitVec.ofNat 12 k⟩ Reg.bootReason 0 (code + 256 * k) .refused).discard
  { e with boot := e.boot.rejects k code }

theorem Dev.reject_eq {d : Dev} {k : Nat} (hs : d.boot.slot = some k) (code : Nat) :
    d.reject code = (d.slotRejected k code).afterReject k code := by
  unfold Dev.reject
  rw [hs]
  rfl

theorem Dev.slotRejected_boot (d : Dev) (k code : Nat) : (d.slotRejected k code).boot = d.boot.rejects k code := by
  have h : ((d.setFld Reg.bootReason (reasonFld k) code).logAdd ⟨.primer, BitVec.ofNat 12 k⟩ Reg.bootReason 0
      (code + 256 * k) .refused).discard.boot = d.boot :=
    Dev.discard_keeps (P := fun e => e.boot = d.boot) (Part.same_keeps .boot rfl) (Dev.logAdd_boot ..)
  exact congrArg (fun b : BootSt => b.rejects k code) h

theorem reasonFld_fits {k : Nat} (hk : k < 3) : (reasonFld k).lo + (reasonFld k).w ≤ 32 := by
  show 8 * k + 8 ≤ 32
  omega

theorem Dev.fld_boot (d : Dev) (b : BootSt) (a : Nat) (f : Fld) : ({ d with boot := b } : Dev).fld a f = d.fld a f := rfl

theorem Dev.discard_reason (d : Dev) {k : Nat} (hk : k < 3) :
    d.discard.fld Reg.bootReason (reasonFld k) = d.fld Reg.bootReason (reasonFld k) :=
  Dev.discard_fld d bootReason_plain (fun cl p => by simp only [Reg.bootReason, Reg.coCtx]; omega) bootReason_drawn (by decide)
    (by decide) (by decide) _ (reasonFld_fits hk)

theorem Dev.slotRejected_reason (d : Dev) {k : Nat} (code : Nat) (hk : k < 3) :
    (d.slotRejected k code).fld Reg.bootReason (reasonFld k) = code % 256 := by
  unfold Dev.slotRejected
  rw [Dev.fld_boot, Dev.discard_reason _ hk, Dev.fld_of_rd (Dev.logAdd_rd _ _ _ _ _ _ (by decide) (by decide)),
    Dev.fld_setFld_same _ _ _ _ (reasonFld_fits hk)]
  rfl

theorem Dev.afterReject_of_ne (d : Dev) {k : Nat} (code : Nat) (hk : k ≠ 2) :
    d.afterReject k code = d.tryStep (some (if decide (code = 0x0D) || d.boot.rejected.contains (1 - k) then 2 else 1 - k)) := by
  unfold Dev.afterReject
  rw [if_neg hk]
  split <;> rfl

/-- A slot other than F rejected: the other slot, or F, is tried from step 5 on (R393). -/
theorem Dev.reject_rejectsTo {d : Dev} {k : Nat} (hs : d.boot.slot = some k) (hk : k < 2) (code : Nat) :
    d.rejectsTo k code (d.reject code) := by
  rw [Dev.reject_eq hs, Dev.afterReject_of_ne _ _ (by omega)]
  have hother : (1 - k == k) = false := beq_eq_false_iff_ne.mpr (by omega)
  refine ⟨?_, Dev.tryStep_stepNo _ _, ?_, ?_⟩
  · rw [Dev.fld_of_rd (Dev.tryStep_rd _ _ (by decide)), Dev.slotRejected_reason _ _ (by omega)]
  · rw [Dev.tryStep_rejected, Dev.slotRejected_boot]
    rfl
  · rw [Dev.tryStep_slot, Dev.slotRejected_boot]
    simp only [BootSt.rejects, List.contains_cons, hother, Bool.false_or, Bool.or_eq_true, decide_eq_true_eq]

/-- Slot F rejected while no image merely does not fit the fitted units: FAULT (Table 11.2). -/
theorem Dev.reject_slotF {d : Dev} {code : Nat} (hs : d.boot.slot = some 2) (hm : d.boot.misfit = none) (hc : code ≠ 0x0D) :
    (d.reject code).fld Reg.bootReason (reasonFld 2) = code % 256 ∧ (d.reject code).mode = 3 := by
  have hfault : d.reject code = (d.slotRejected 2 code).enterFault := by
    rw [Dev.reject_eq hs]
    unfold Dev.afterReject
    rw [if_pos rfl, Dev.slotRejected_boot]
    simp only [BootSt.rejects, hm, Option.isSome_none, Bool.false_eq_true, if_false, if_neg hc]
  rw [hfault]
  refine ⟨?_, Dev.enterFault_mode _⟩
  rw [Dev.fld_of_rd (Dev.enterFault_rd _ (by decide) (by decide) (by decide) (by decide)), Dev.slotRejected_reason _ _ (by omega)]

/-! Digests of sections -/

theorem Dev.boot_keepsBut (d : Dev) (b : BootSt) {ps : List Part} (h : ps.contains .boot = true) :
    d.keepsBut ps { d with boot := b } := fun p hp => by
  cases p with
  | boot => rw [h] at hp; cases hp
  | _ => rfl

section
variable {d : Dev} {i : Image} (hs : d.starting = true) (h7 : d.stepNo = 7) (hi : d.imageIn d.boot.flash = some i)
  (hsec : d.boot.sec < i.sections_)
include hs h7 hi hsec

/-- The section in hand has the digest that the image gives it. -/
theorem Dev.sectionDigest_right {x : Sect} (hx : x = sectAt d.boot.flash i d.boot.sec)
    (hd : shake256x32 (sectBytes d.boot.flash i x) = x.digest) :
    d.sectionDigest d.boot.sec =
      if x.ty = stRegs then
        ({ d with boot := { d.boot with
            sec := d.boot.sec + 1, itemAt := d.devNs, regsIn := d.boot.regsIn || decide (x.ty = stRegs) } } : Dev).earlyRegs
          (sectBytes d.boot.flash i x)
      else { d with boot := { d.boot with
        sec := d.boot.sec + 1, itemAt := d.devNs, regsIn := d.boot.regsIn || decide (x.ty = stRegs) } } := by
  subst hx
  unfold Dev.sectionDigest
  rw [if_pos (by simp [hs, h7]), hi]
  dsimp only
  rw [if_pos hsec, if_pos hd]

/-- What the right digest of a section leaves (R404). -/
theorem Dev.sectionDigest_right_spec {x : Sect} (hx : x = sectAt d.boot.flash i d.boot.sec)
    (hd : shake256x32 (sectBytes d.boot.flash i x) = x.digest) :
    (d.sectionDigest d.boot.sec).boot = { d.boot with
        sec := d.boot.sec + 1, itemAt := d.devNs, regsIn := d.boot.regsIn || decide (x.ty = stRegs) } ∧
      (x.ty ≠ stRegs → d.keepsBut [.boot] (d.sectionDigest d.boot.sec)) ∧
      d.keepsBut [.regs, .log, .ing, .tms, .boot, .clk] (d.sectionDigest d.boot.sec) := by
  rw [Dev.sectionDigest_right hs h7 hi hsec hx hd]
  generalize hb : ({ d.boot with
    sec := d.boot.sec + 1, itemAt := d.devNs, regsIn := d.boot.regsIn || decide (x.ty = stRegs) } : BootSt) = b
  by_cases hr : x.ty = stRegs
  · rw [if_pos hr]
    exact ⟨Dev.earlyRegs_keeps (P := fun e => Part.same { d with boot := b } e .boot) (Part.same_keeps .boot rfl) rfl, fun hn => absurd hr hn,
      Dev.earlyRegs_keeps ((keepsBut_keeps [.regs, .log, .ing, .tms, .boot, .clk] d).mono rfl)
        (d.boot_keepsBut b (by decide))⟩
  · rw [if_neg hr]
    exact ⟨rfl, fun _ => d.boot_keepsBut b (by decide), d.boot_keepsBut b (by decide)⟩

theorem Dev.sectionDigest_wrong
    (hd : shake256x32 (sectBytes d.boot.flash i (sectAt d.boot.flash i d.boot.sec)) ≠ (sectAt d.boot.flash i d.boot.sec).digest) :
    d.sectionDigest d.boot.sec = d.reject 0x0A := by
  unfold Dev.sectionDigest
  rw [if_pos (by simp [hs, h7]), hi]
  dsimp only
  rw [if_pos hsec, if_neg hd]

end

/-! Watchdogs -/

/-- A section, or the header and directory, is still waited for. -/
def Dev.awaitsItem (d : Dev) : Prop :=
  d.stepNo = 5 ∨ d.stepNo = 6 ∨ (d.stepNo = 7 ∧ ∃ i, d.imageIn d.boot.flash = some i ∧ d.boot.sec < i.sections_)

/-- What the expiry of the section watchdog does. -/
def Dev.itemExpired (d : Dev) : Dev :=
  match d.boot.slot, directoryOf d.boot.flash d.boot.flashLen with
  | some _, _ => d.reject 0x0C
  | none, some (_, dir) => ({ d with boot := { d.boot with slot := some dir.select } }).reject 0x0C
  | none, none => d.enterFault

/-- A section of step 7 is still to come. -/
def Dev.sectionWaits (d : Dev) : Bool :=
  match d.imageIn d.boot.flash with
  | some i => decide (d.boot.sec < i.sections_)
  | none => false

theorem Dev.sectionWaits_iff (d : Dev) : d.sectionWaits = true ↔ ∃ i, d.imageIn d.boot.flash = some i ∧ d.boot.sec < i.sections_ := by
  unfold Dev.sectionWaits
  cases d.imageIn d.boot.flash with
  | none => simp
  | some i => simp

theorem Dev.sectionWatchdog_eq (d : Dev) :
    d.sectionWatchdog false = if d.starting && !false &&
        (decide (d.stepNo = 5 ∨ d.stepNo = 6) || (decide (d.stepNo = 7) && d.sectionWaits)) &&
        decide (d.boot.itemAt + 2000000000 ≤ d.devNs) then d.itemExpired else d := rfl

theorem Dev.sectionWatchdog_expired {d : Dev} (hs : d.starting = true) (hw : d.awaitsItem) (ht : d.boot.itemAt + 2000000000 ≤ d.devNs) :
    d.sectionWatchdog false = d.itemExpired := by
  have hitem : (decide (d.stepNo = 5 ∨ d.stepNo = 6) || (decide (d.stepNo = 7) && d.sectionWaits)) = true := by
    rcases hw with h | h | ⟨h, hi⟩
    · rw [h]; rfl
    · rw [h]; rfl
    · rw [h, d.sectionWaits_iff.mpr hi]; rfl
  rw [Dev.sectionWatchdog_eq, if_pos (by rw [hs, hitem, decide_eq_true ht]; rfl)]

theorem Dev.sectionWatchdog_idle {d : Dev} (h7 : d.stepNo = 7) (h : ∀ i, d.imageIn d.boot.flash = some i → i.sections_ ≤ d.boot.sec) :
    d.sectionWatchdog false = d := by
  have hw : d.sectionWaits = false := by
    refine Bool.eq_false_of_not_eq_true fun hw => ?_
    obtain ⟨i, hi, hlt⟩ := d.sectionWaits_iff.mp hw
    exact absurd hlt (Nat.not_lt.mpr (h i hi))
  rw [Dev.sectionWatchdog_eq, hw, h7, if_neg (by simp)]

theorem Dev.itemExpired_slot {d : Dev} {k : Nat} (hs : d.boot.slot = some k) : d.itemExpired = d.reject 0x0C := by
  unfold Dev.itemExpired
  rw [hs]

theorem Dev.itemExpired_selected {d : Dev} {c : Nat} {dir : Directory} (hs : d.boot.slot = none)
    (hd : directoryOf d.boot.flash d.boot.flashLen = some (c, dir)) :
    d.itemExpired = ({ d with boot := { d.boot with slot := some dir.select } } : Dev).reject 0x0C := by
  unfold Dev.itemExpired
  rw [hs, hd]

theorem Dev.itemExpired_none {d : Dev} (hs : d.boot.slot = none) (hd : directoryOf d.boot.flash d.boot.flashLen = none) :
    d.itemExpired = d.enterFault := by
  unfold Dev.itemExpired
  rw [hs, hd]

/-- The slot in hand gets a reason. -/
def Dev.reasonShown (d : Dev) (code : Nat) : Dev :=
  match d.boot.slot with
  | some k => d.setFld Reg.bootReason (reasonFld k) code
  | none => d

theorem Dev.reasonShown_reason {d : Dev} {k : Nat} (code : Nat) (hs : d.boot.slot = some k) (hk : k < 3) :
    (d.reasonShown code).fld Reg.bootReason (reasonFld k) = code % 256 := by
  unfold Dev.reasonShown
  rw [hs]
  exact Dev.fld_setFld_same _ _ _ _ (reasonFld_fits hk)

/-- Time of the 30 s that does not count: the wait for LOCKED. -/
def Dev.bootWait (d : Dev) : Nat := if decide (d.stepNo = 9) && d.lockPolicy then d.devNs - d.boot.stepAt else d.boot.waited

theorem Dev.bootWatchdog_eq (d : Dev) :
    d.bootWatchdog false = if d.starting && !false && decide (30000000000 + d.bootWait ≤ d.devNs) then (d.reasonShown 0x0F).enterFault
      else d := rfl

theorem Dev.bootWatchdog_expired {d : Dev} (hs : d.starting = true) (ht : 30000000000 + d.bootWait ≤ d.devNs) :
    d.bootWatchdog false = (d.reasonShown 0x0F).enterFault := by
  rw [Dev.bootWatchdog_eq, if_pos (by rw [hs, decide_eq_true ht]; rfl)]

/-- Settles O30: the branches of the digest check and of the two watchdogs, each ending in a rejection or in FAULT. -/
theorem sectionsAndWatchdogs : Obligations.SectionsAndWatchdogs := by
  refine ⟨fun s i ha hm h7 hi hsec => ?_, fun s ha hm ht hw => ?_, fun s ha _ h7 h => ?_, fun s ha => ?_, fun s ha hm ht => ?_⟩
  · intro k x
    refine ⟨fun hd => ?_, fun hd => ?_⟩
    · exact gives_live (exec_sectionDigest k s) ha (Dev.sectionDigest_right_spec (Dev.starting_of ha hm) h7 hi hsec rfl hd)
    · have hwrong := Dev.sectionDigest_wrong (Dev.starting_of ha hm) h7 hi hsec hd
      refine ⟨fun j hj hs => gives_live (exec_sectionDigest k s) ha ?_, fun hs hn => gives_live (exec_sectionDigest k s) ha ?_⟩
      · rw [hwrong]
        exact Dev.reject_rejectsTo hs hj _
      · rw [hwrong]
        exact Dev.reject_slotF hs hn (by decide)
  · have hexp := Dev.sectionWatchdog_expired (Dev.starting_of ha hm) hw ht
    refine ⟨fun j hj hs => ?_, fun hs hn => ?_, fun c dir hs hdir hsel => ?_, fun hs hdir => ?_⟩ <;>
      refine gives_live (exec_sectionWatchdogExpiry false s) ha ?_ <;> rw [hexp]
    · rw [Dev.itemExpired_slot hs]
      exact Dev.reject_rejectsTo hs hj _
    · rw [Dev.itemExpired_slot hs]
      exact Dev.reject_slotF hs hn (by decide)
    · rw [Dev.itemExpired_selected hs hdir]
      exact Dev.reject_rejectsTo (d := { s.dev with boot := { s.dev.boot with slot := some dir.select } }) rfl hsel _
    · rw [Dev.itemExpired_none hs hdir]
      exact Dev.enterFault_mode _
  · exact gives_live (exec_sectionWatchdogExpiry false s) ha (Dev.sectionWatchdog_idle h7 h)
  · exact ⟨gives_live (exec_sectionWatchdogExpiry true s) ha (Dev.sectionWatchdog_tie _),
      gives_live (exec_bootWatchdogExpiry true s) ha (Dev.bootWatchdog_tie _)⟩
  · have hwait : 30000000000 + s.dev.bootWait ≤ s.dev.devNs := by
      unfold Dev.bootWait
      simpa only [Bool.and_eq_true, decide_eq_true_eq] using ht
    refine gives_live (exec_bootWatchdogExpiry false s) ha ?_
    rw [Dev.bootWatchdog_expired (Dev.starting_of ha hm) hwait]
    refine ⟨Dev.enterFault_mode _, fun k hk hs => ?_⟩
    rw [Dev.fld_of_rd (Dev.enterFault_rd _ (by decide) (by decide) (by decide) (by decide)), Dev.reasonShown_reason _ hs hk]

end Sys2Proof.Machine
end

