-- ==== Sys2Proof/Proofs/StepFrames.lean ====
section
/-!
What the operations of start-up leave of the registers below those of power, and of BOOT_STAT.STEP, and where the rejection and the load of a
slot lead.
-/

namespace Sys2Proof.Machine

open Sys2Proof

/-! Steps 7 and 9 leave every register below those of power but BOOT_STAT. -/

section
variable (d : Dev) {a : Nat} (ha : a < 0x50000)
include ha

theorem Dev.laneTo_low (l : LaneId) (st : Nat) : (d.laneTo l st).rd a = d.rd a := by
  have hlane (r : Nat → Nat) : a ≠ laneReg l r := by
    have := laneReg_high l r
    omega
  exact Dev.laneTo_rd d l st (hlane _) (hlane _) (hlane _)

theorem Dev.laneEnable_low (l : LaneId) : (d.laneEnable l).rd a = d.rd a := by
  unfold Dev.laneEnable
  split
  · dsimp only
    split
    · exact Dev.laneTo_low _ ha l _
    · exact Dev.newTry_low _ l (by omega)
  · rfl

theorem Dev.portEnable_low (p : Nat) : (d.portEnable p).rd a = d.rd a := by
  unfold Dev.portEnable
  split
  · exact Dev.rd_setFld_ne _ _ _ (by unfold Reg.mpCfg; omega)
  · rfl

theorem Dev.stackTrain_low (s : Nat) : (d.stackTrain s).rd a = d.rd a := by
  unfold Dev.stackTrain
  split
  · exact Dev.setStackState_rd d (by unfold Reg.stkScfg; omega) (by unfold Reg.dieStat; omega)
  · rfl

theorem Dev.setCoreState_low (c st : Nat) : (d.setCoreState c st).rd a = d.rd a :=
  Dev.rd_setFld_ne _ _ _ (by unfold coStatAddr Reg.coStat; omega)

theorem Dev.setV_low (v : Nat) : (d.setV v).rd a = d.rd a :=
  Dev.setV_regsBut d v a fun h => by rw [List.mem_singleton.mp h] at ha; exact absurd ha (by decide)

theorem Dev.domsDue_low (k : Nat) : (d.domsDue k).rd a = d.rd a :=
  Dev.domsDue_rd d k (by unfold Reg.pwrDomOnLo; omega) (by unfold Reg.pwrDomOnHi; omega)

theorem Dev.domsOff_low (ks : List Nat) : (d.domsOff ks).rd a = d.rd a :=
  Dev.domsOff_rd d ks (by unfold Reg.pwrDomOnLo; omega) (by unfold Reg.pwrDomOnHi; omega)

theorem Dev.beginStep9_low : d.beginStep9.rd a = (d.beginStep 9).rd a := by
  unfold Dev.beginStep9
  extract_lets e f
  rw [Dev.foldl_rd _ _ _ fun g p _ => g.portEnable_low ha p, show f.rd a = e.rd a from Dev.foldl_rd _ _ _ (fun g k _ => ?_) e]
  · exact Dev.domsDue_low _ ha 9
  · dsimp only
    split
    · rfl
    · exact g.laneEnable_low ha _

theorem Dev.beginStep7_low : d.beginStep7.rd a = (d.beginStep 7).rd a := by
  unfold Dev.beginStep7
  extract_lets e f g h i
  have hf : f.rd a = e.rd a := by
    refine Dev.foldl_rd _ _ _ (fun x n _ => ?_) e
    split
    · refine Dev.foldl_rd _ _ _ (fun y j _ => ?_) x
      dsimp only
      split
      · exact y.setCoreState_low ha _ _
      · rfl
    · rfl
  have hg : g.rd a = f.rd a := Dev.foldl_rd _ _ _ (fun x s _ => x.stackTrain_low ha s) f
  have hh : h.rd a = g.rd a := by
    refine Dev.foldl_rd _ _ _ (fun x c _ => ?_) g
    split
    · exact Dev.rd_setFld_ne _ _ _ (by unfold Reg.chStat; omega)
    · rfl
  calc i.rd a = h.rd a := Dev.setV_low _ ha _
    _ = e.rd a := hh.trans (hg.trans hf)
    _ = (d.beginStep 7).rd a := Dev.domsDue_low _ ha 7

end

theorem Dev.beginStep9_stepNo (d : Dev) : d.beginStep9.stepNo = 9 :=
  (Dev.fld_of_rd (d.beginStep9_low (by decide)) _).trans (Dev.beginStep_stepNo d (by decide))

theorem Dev.beginStep7_stepNo (d : Dev) : d.beginStep7.stepNo = 7 :=
  (Dev.fld_of_rd (d.beginStep7_low (by decide)) _).trans (Dev.beginStep_stepNo d (by decide))

theorem Dev.beginStep7_mode (d : Dev) : d.beginStep7.mode = d.mode :=
  (Dev.fld_of_rd (d.beginStep7_low (by decide)) _).trans (Dev.beginStep_mode d 7)

theorem Dev.beginStep9_boot (d : Dev) : d.beginStep9.boot = { d.boot with stepAt := d.devNs } := by
  unfold Dev.beginStep9
  refine foldl_keeps (P := fun e => Part.same (d.beginStep 9) e .boot)
    (fun e p he => Dev.portEnable_keeps (Part.same_keeps .boot rfl) he) ?_
  refine foldl_keeps (fun e k he => ?_) (Dev.domsDue_keeps (Part.same_keeps .boot rfl) rfl)
  dsimp only
  split
  · exact he
  · exact Dev.laneEnable_keeps (Part.same_keeps .boot rfl) he

theorem Dev.beginStep7_boot (d : Dev) : d.beginStep7.boot = { d.boot with stepAt := d.devNs, sec := 0, itemAt := d.devNs } := by
  unfold Dev.beginStep7
  extract_lets e f g h i
  have k := keepsBut_keeps [.regs, .pwr] (d.beginStep 7)
  have he : (d.beginStep 7).keepsBut [.regs, .pwr] e := Dev.domsDue_keeps k (keepsBut_refl _ _)
  have hf : (d.beginStep 7).keepsBut [.regs, .pwr] f := by
    refine foldl_keeps (fun x n hx => ?_) he
    split
    · refine foldl_keeps (fun y j hy => ?_) hx
      dsimp only
      split
      · exact Dev.setCoreState_keeps (k.mono rfl) hy
      · exact hy
    · exact hx
  have hg : (d.beginStep 7).keepsBut [.regs, .pwr] g := foldl_keeps (fun x s hx => Dev.stackTrain_keeps (k.mono rfl) hx) hf
  have hh : (d.beginStep 7).keepsBut [.regs, .pwr] h := by
    refine foldl_keeps (fun x c hx => ?_) hg
    split
    · exact Dev.setFld_keeps (k.mono rfl) hx
    · exact hx
  have hi : (d.beginStep 7).keepsBut [.regs, .pwr] i := Dev.setV_keeps (k.mono rfl) hh
  have hb : i.boot = (d.beginStep 7).boot := hi .boot rfl
  have hn : i.devNs = (d.beginStep 7).devNs := hi .devNs rfl
  exact congrArg₂ (fun (b : BootSt) (t : Nat) => { b with sec := 0, itemAt := t }) hb hn

/-! What the loader leaves of BOOT_STAT.STEP -/

theorem Dev.stepNo_wr (d : Dev) {a : Nat} (v : Nat) (h : Reg.bootStat < a) : (d.wr a v).stepNo = d.stepNo :=
  Dev.fld_of_rd (Dev.rd_wr_ne d v (Nat.ne_of_lt h)) _

theorem Dev.stepNo_setFld (d : Dev) {a : Nat} (f : Fld) (v : Nat) (h : Reg.bootStat < a) : (d.setFld a f v).stepNo = d.stepNo :=
  d.stepNo_wr _ h

theorem bootStat_plain : ∀ r, regRow Reg.bootStat = some r → r.lv ||| r.pr = 0 := by
  have h : (regRow Reg.bootStat).map (fun r => r.lv ||| r.pr) = some 0 := by decide
  intro r hr
  rw [hr] at h
  exact Option.some.inj h

theorem Dev.primerWrite_stepNo (d : Dev) (r : Nat × Nat) : (d.primerWrite r).stepNo = d.stepNo := by
  unfold Dev.primerWrite
  split
  · rfl
  · cases hr : regRow r.1 with
    | none => rfl
    | some w =>
      dsimp only
      by_cases hb : Reg.bootStat = r.1
      · rw [bootStat_plain w (hb ▸ hr), ← hb]
        unfold Dev.stepNo Dev.fld
        rw [Dev.rd_wr_same, bitsOf_mod _ _ _ (by decide), Nat.and_zero, Nat.or_zero, Nat.zero_xor, Nat.and_two_pow_sub_one_eq_mod,
          bitsOf_mod _ _ _ (by decide)]
      · exact Dev.fld_of_rd (Dev.rd_wr_ne _ _ hb) _

section
variable {d : Dev} {k : Nat} (h : d.stepNo = k)
include h

/-- A fold of operations that each leave the step leaves it. -/
theorem foldl_stepNo {α : Type} {l : List α} {f : Dev → α → Dev} (hf : ∀ e x, (f e x).stepNo = e.stepNo) : (l.foldl f d).stepNo = k :=
  foldl_keeps (P := fun e => e.stepNo = k) (fun e x he => (hf e x).trans he) h

theorem Dev.relocate_stepNo : d.relocate.1.stepNo = k := by
  unfold Dev.relocate
  refine foldl_fst_keeps (P := fun e => e.stepNo = k) (fun e x he => ?_) h
  split
  · split
    · exact (Dev.stepNo_setFld _ _ _ (by unfold Reg.bootStat Reg.stkAreaLo; omega)).trans he
    · exact he
  · exact he

theorem Dev.loadTopo_stepNo (b stored : List Byte) : (d.loadTopo b stored).stepNo = k := by
  have hcfg (p : Nat) : Reg.bootStat < Reg.mpCfg p := by unfold Reg.bootStat Reg.mpCfg; omega
  have hfwd (s : Nat) : Reg.bootStat < Reg.mshFwd s := by unfold Reg.bootStat Reg.mshFwd; omega
  have hroute (s : Nat) : Reg.bootStat < Reg.mshRoute s := by unfold Reg.bootStat Reg.mshRoute; omega
  unfold Dev.loadTopo
  extract_lets t me e1 e2 e3 e4 e5 e6 e7
  have h3 : e3.stepNo = k := by
    unfold e3 e2 e1
    rw [Dev.stepNo_setFld _ _ _ (by decide), Dev.stepNo_setFld _ _ _ (by decide), Dev.stepNo_setFld _ _ _ (by decide),
      Dev.stepNo_setFld _ _ _ (by decide), Dev.stepNo_wr _ _ (by decide), Dev.stepNo_wr _ _ (by decide), h]
  have h4 : e4.stepNo = k := foldl_stepNo h3 fun e p => by
    dsimp only
    rw [Dev.stepNo_setFld _ _ _ (hcfg p), Dev.stepNo_setFld _ _ _ (hcfg p), Dev.stepNo_setFld _ _ _ (hcfg p)]
  have h5 : e5.stepNo = k := foldl_stepNo h4 fun e s => Dev.stepNo_wr _ _ (hfwd s)
  have h6 : e6.stepNo = k := foldl_stepNo h5 fun e s => by
    dsimp only
    rw [Dev.stepNo_setFld _ _ _ (hroute s), Dev.stepNo_setFld _ _ _ (hroute s)]
  rw [Dev.stepNo_setFld _ _ _ (by decide), Dev.stepNo_setFld _ _ _ (by decide)]
  exact (Dev.stepNo_wr _ _ (by decide)).trans h6

theorem Dev.consider_stepNo (m : SMap Byte) (i : Image) (n : Nat) : (d.consider m i n).dev.stepNo = k := by
  unfold Dev.consider
  extract_lets bs rel place plain
  split
  rename_i moved stuck _
  extract_lets bases
  clear_value bases
  split
  · exact h
  · rename_i ps _
    extract_lets c1
    have h1 : c1.stepNo = k := foldl_stepNo h Dev.primerWrite_stepNo
    split
    rename_i c2 stuck2 he
    have h2 : c2.stepNo = k := of_fst (P := fun e => e.stepNo = k) he (Dev.relocate_stepNo h1)
    extract_lets c3 g
    exact ite_keeps (P := fun e => e.stepNo = k) (Dev.loadTopo_stepNo h2 _ _) h2

theorem Dev.choose_stepNo (m : SMap Byte) (i : Image) : (d.choose m i).dev.stepNo = k := by
  unfold Dev.choose
  extract_lets rel all
  have hall (x : Loaded) (hx : x ∈ all) : x.dev.stepNo = k := by
    obtain ⟨n, _, rfl⟩ := List.mem_map.mp hx
    exact Dev.consider_stepNo h m i n
  clear_value all
  split
  · rename_i x hx
    exact hall x (List.mem_of_find?_eq_some hx)
  · cases all with
    | nil => exact Dev.consider_stepNo h m i 0
    | cons x xs => exact hall x List.mem_cons_self

theorem Dev.deriveRegs_stepNo : d.deriveRegs.stepNo = k := by
  unfold Dev.deriveRegs
  refine foldl_stepNo (foldl_stepNo h fun e r => ?_) fun e s => Dev.stepNo_wr _ _ (by unfold Reg.bootStat Reg.stkPlansum; omega)
  extract_lets ms f
  have hf : f.stepNo = e.stepNo := Dev.stepNo_setFld _ _ _ (by unfold Reg.bootStat Reg.hwkRowb; omega)
  split
  · exact (Dev.stepNo_wr _ _ (by unfold Reg.bootStat Reg.stpRentries; omega)).trans hf
  · exact (Dev.stepNo_setFld _ _ _ (by unfold Reg.bootStat Reg.hwkRowb; omega)).trans
      ((Dev.stepNo_wr _ _ (by unfold Reg.bootStat Reg.hwkCap; omega)).trans hf)

theorem Dev.loadSect_stepNo (place : List Nat) (timed : Bool) (s : LSect) : (d.loadSect place timed s).stepNo = k := by
  unfold Dev.loadSect
  split
  · exact h
  · extract_lets cs rows e fab f fresh g
    have he : e.stepNo = k := foldl_stepNo h fun x y => Dev.stepNo_setFld _ _ _ (by unfold Reg.bootStat Reg.coCtx; omega)
    have hg : g.stepNo = k := foldl_stepNo (d := f) he fun _ _ => rfl
    refine foldl_stepNo hg fun x j => ?_
    split
    · exact Dev.stepNo_setFld _ _ _ (by unfold Reg.bootStat Reg.crlStat; omega)
    · rfl

theorem Dev.setGrp_stepNo (g : Nat) (r : GroupRec) : (d.setGrp g r).stepNo = k := by
  have hctx : Reg.bootStat < Reg.scrCtxsel g := by unfold Reg.bootStat Reg.scrCtxsel; omega
  unfold Dev.setGrp
  dsimp only
  split
  · rw [Dev.stepNo_setFld _ _ _ hctx, Dev.stepNo_setFld _ _ _ hctx]
    exact h
  · exact h

theorem Dev.loadGroups_stepNo (g : Graph) : (d.loadGroups g).stepNo = k := by
  unfold Dev.loadGroups
  refine foldl_stepNo h fun e j => ?_
  dsimp only
  split
  · rfl
  · exact Dev.setGrp_stepNo rfl _ _

theorem Dev.loadRows_stepNo (g : Graph) (b : List Byte) : (d.loadRows g b).stepNo = k := by
  unfold Dev.loadRows
  refine foldl_stepNo (foldl_stepNo h fun e x => ?_) fun e cl => ?_
  · exact Dev.stepNo_setFld _ _ _ (by unfold Reg.bootStat Reg.numRow; omega)
  · split
    · refine foldl_stepNo rfl fun x j => ?_
      dsimp only
      split
      · exact Dev.stepNo_setFld _ _ _ (by unfold Reg.bootStat Reg.numCstat; omega)
      · rfl
    · rfl

theorem Dev.loadPolicy_stepNo (b : List Byte) : (d.loadPolicy b).stepNo = k := by
  unfold Dev.loadPolicy
  exact (Dev.stepNo_wr _ _ (by decide)).trans ((Dev.stepNo_wr _ _ (by decide)).trans h)

theorem Dev.showUnproven_stepNo : d.showUnproven.stepNo = k := by
  unfold Dev.showUnproven
  refine foldl_stepNo ?_ fun e s => Dev.stepNo_setFld _ _ _ (by unfold Reg.bootStat Reg.mnStat; omega)
  exact (Dev.stepNo_setFld _ _ _ (by decide)).trans ((Dev.fld_setFld_fld _ _ _ _ _ (by decide) (by decide)).trans h)

theorem Dev.loadChunks_stepNo (g : Graph) (ty idx : Nat) (cs : List Chunk) : (d.loadChunks g ty idx cs).stepNo = k :=
  (Dev.fld_of_rd (Dev.rd_of_regs (Dev.loadChunks_keeps (P := fun e => Part.same d e .regs) (Part.same_keeps .regs rfl) rfl) _) _).trans h

theorem Dev.storePages_stepNo : d.storePages.stepNo = k := by
  unfold Dev.storePages Dev.showStore
  dsimp only
  rw [Dev.stepNo_wr _ _ (by decide), Dev.stepNo_wr _ _ (by decide)]
  exact (Dev.stepNo_wr _ _ (by decide)).trans h

end

theorem Dev.loadImage_stepNo {x : Loaded} {k : Nat} (h : x.dev.stepNo = k) (i : Image) : (Dev.loadImage x i).stepNo = k := by
  unfold Dev.loadImage
  extract_lets e1 g timed e2 e3 e4 e5 e6 e7
  have h2 : e2.stepNo = k := foldl_stepNo (Dev.deriveRegs_stepNo h) fun e s => Dev.loadSect_stepNo rfl ..
  have h4 : e4.stepNo = k := foldl_stepNo (Dev.loadGroups_stepNo h2 g) fun e b => Dev.loadChunks_stepNo rfl ..
  have h5 : e5.stepNo = k := ite_keeps (P := fun e => e.stepNo = k) (Dev.loadRows_stepNo h4 ..) h4
  have h6 : e6.stepNo = k := Dev.loadPolicy_stepNo h5 _
  exact ite_keeps (P := fun e => e.stepNo = k) h6 (Dev.showUnproven_stepNo h6)

/-! Where a rejection and the load lead -/

/-- Another slot is tried from step 5 on, or SAFE has been selected and step 9 begins, or the device is in FAULT (R393, Table 11.2). -/
def Dev.slotLeft (d : Dev) : Prop := d.stepNo = 5 ∨ (d.stepNo = 9 ∧ d.boot.safe = true) ∨ d.mode = 3

theorem Dev.safeBoot_slotLeft (d : Dev) (m : SMap Byte) (k : Nat) : (d.safeBoot m k).slotLeft := by
  unfold Dev.safeBoot
  extract_lets bs e1 e2 e3 b e4 e5
  refine .inr (.inl ⟨Dev.beginStep9_stepNo _, ?_⟩)
  have h5 : e5.boot = e4.boot := Dev.storePages_keeps (P := fun e => Part.same e4 e .boot) (Part.same_keeps .boot rfl) rfl
  have hoff : (e5.domsOff e5.idleDoms).boot = e4.boot :=
    Dev.domsOff_keeps (P := fun e => Part.same e4 e .boot) (Part.same_keeps .boot rfl) h5
  rw [Dev.beginStep9_boot, hoff]

theorem Dev.afterReject_slotLeft (d : Dev) (k code : Nat) : (d.afterReject k code).slotLeft := by
  by_cases hk : k = 2
  · unfold Dev.afterReject
    rw [if_pos hk]
    split
    · exact Dev.safeBoot_slotLeft ..
    · exact .inr (.inr (Dev.enterFault_mode _))
  · rw [Dev.afterReject_of_ne _ _ hk]
    exact .inl (Dev.tryStep_stepNo _ _)

theorem Dev.reject_slotLeft {d : Dev} {k : Nat} (hs : d.boot.slot = some k) (code : Nat) : (d.reject code).slotLeft := by
  rw [Dev.reject_eq hs]
  exact Dev.afterReject_slotLeft ..

/-- The load at step 8 leaves the device in step 8, or rejects the slot. -/
theorem Dev.tryLoad_ends {d : Dev} (h : d.stepNo = 8) : d.tryLoad.stepNo = 8 ∨ d.tryLoad.slotLeft := by
  unfold Dev.tryLoad
  split
  · rename_i k i hs _
    have hx := Dev.choose_stepNo h d.boot.staged i
    split
    · exact .inr (Dev.reject_slotLeft hs _)
    · extract_lets x
      split
      · exact .inr (Dev.reject_slotLeft hs _)
      · exact .inr (Dev.reject_slotLeft ((congrArg BootSt.slot (Dev.logAdd_boot ..)).trans hs) _)
      · split
        · exact .inl (Dev.storePages_stepNo (Dev.loadImage_stepNo hx i))
        · exact .inr (Dev.reject_slotLeft hs _)
  · exact .inl h

end Sys2Proof.Machine
end

