-- ==== Sys2Proof/Proofs/StartUp.lean ====
section
/-!
The steps of start-up: what ends each of them, and what it leaves.
-/

namespace Sys2Proof.Machine

open Sys2Proof

theorem exec_startUpStep (env : StartEnv) (s : State) : exec (.startUpStep env) s = s.live fun d => d.startUpStep env := rfl

/-! Step k has begun -/

/-- Step k has begun at device time t, with start-up still under way. -/
def Dev.begun (t k : Nat) (d : Dev) : Prop := d.stepNo = k ∧ d.boot.stepAt = t ∧ d.mode = 0

theorem Dev.beginStep_begun {d : Dev} {k : Nat} (hm : d.mode = 0) (hk : k < 16) : (d.beginStep k).begun d.devNs k :=
  ⟨Dev.beginStep_stepNo d hk, rfl, (Dev.beginStep_mode d k).trans hm⟩

theorem Dev.domsDue_boot (d : Dev) (k : Nat) : (d.domsDue k).boot = d.boot :=
  Dev.domsDue_keeps (P := fun e => Part.same d e .boot) (Part.same_keeps .boot rfl) rfl

theorem Dev.begun.domsDue {t k : Nat} {d : Dev} (h : d.begun t k) (j : Nat) : (d.domsDue j).begun t k := by
  obtain ⟨hstep, hat, hmode⟩ := h
  have hfld (f : Fld) : (d.domsDue j).fld Reg.bootStat f = d.fld Reg.bootStat f := Dev.fld_of_rd (d.domsDue_low (by decide) j) f
  exact ⟨(hfld _).trans hstep, (congrArg BootSt.stepAt (d.domsDue_boot j)).trans hat, (hfld _).trans hmode⟩

/-! The operation of each step -/

section
variable {d : Dev} {env : StartEnv} (hs : d.starting = true)
include hs

theorem Dev.startUpStep_1 (hk : d.stepNo = 1) : d.startUpStep env = d.beginStep 2 := by simp [Dev.startUpStep, hs, hk]
theorem Dev.startUpStep_2 (hk : d.stepNo = 2) : d.startUpStep env = d.endStep2 := by simp [Dev.startUpStep, hs, hk]
theorem Dev.startUpStep_3 (hk : d.stepNo = 3) : d.startUpStep env = d.endStep3 := by simp [Dev.startUpStep, hs, hk]
theorem Dev.startUpStep_4 (hk : d.stepNo = 4) : d.startUpStep env = d.endStep4 env := by simp [Dev.startUpStep, hs, hk]
theorem Dev.startUpStep_5 (hk : d.stepNo = 5) : d.startUpStep env = d.endStep5 env := by simp [Dev.startUpStep, hs, hk]
theorem Dev.startUpStep_6 (hk : d.stepNo = 6) : d.startUpStep env = d.endStep6 env := by simp [Dev.startUpStep, hs, hk]
theorem Dev.startUpStep_7 (hk : d.stepNo = 7) : d.startUpStep env = d.endStep7 env := by simp [Dev.startUpStep, hs, hk]
theorem Dev.startUpStep_8 (hk : d.stepNo = 8) : d.startUpStep env = d.endStep8 env := by simp [Dev.startUpStep, hs, hk]
theorem Dev.startUpStep_9 (hk : d.stepNo = 9) : d.startUpStep env = d.endStep9 := by simp [Dev.startUpStep, hs, hk]

theorem Dev.startUpStep_10 (hk : 10 ≤ d.stepNo) : d.startUpStep env = d.endStep10 := by
  unfold Dev.startUpStep
  rw [if_pos hs]
  dsimp only
  rw [if_neg (by omega), if_neg (by omega), if_neg (by omega), if_neg (by omega), if_neg (by omega), if_neg (by omega),
    if_neg (by omega), if_neg (by omega), if_neg (by omega)]

end

/-! Steps 2 and 3 -/

/-- REFA or REFB taken as the reference, and step 3 begun. -/
def Dev.refTaken (d : Dev) (u : Nat) : Dev := ((d.setFld Reg.clkStat Fld.clkStatRefInUse u).beginStep 3).domsDue 3

theorem Dev.refTaken_spec {d : Dev} (hm : d.mode = 0) {u : Nat} (hu : u < 4) :
    (d.refTaken u).begun d.devNs 3 ∧ (d.refTaken u).fld Reg.clkStat Fld.clkStatRefInUse = u := by
  have hmode : (d.setFld Reg.clkStat Fld.clkStatRefInUse u).mode = 0 := (Dev.fld_setFld_ne _ _ _ _ (by decide)).trans hm
  refine ⟨(Dev.beginStep_begun hmode (by decide)).domsDue 3, ?_⟩
  unfold Dev.refTaken
  rw [Dev.fld_of_rd (Dev.domsDue_low _ (by decide) 3), Dev.fld_of_rd (Dev.beginStep_rd _ _ (by decide)),
    Dev.fld_setFld_same _ _ _ _ (by decide)]
  exact Nat.mod_eq_of_lt hu

theorem Dev.endStep2_refA {d : Dev} (ha : d.flag Reg.clkStat Fld.clkStatRefaQ = true) : d.endStep2 = d.refTaken 0 := by
  unfold Dev.endStep2
  rw [if_pos ha]
  rfl

theorem Dev.endStep2_refB {d : Dev} {t : Nat} (ha : d.flag Reg.clkStat Fld.clkStatRefaQ = false)
    (hb : d.flag Reg.clkStat Fld.clkStatRefbQ = true) (ht : d.boot.refbAt = some t) :
    d.endStep2 = if t + 6710887 ≤ d.devNs then d.refTaken 1 else d := by
  unfold Dev.endStep2
  rw [if_neg (by rw [ha]; exact Bool.false_ne_true), if_pos hb, ht]
  rfl

/-- Every loop of a fitted unit has locked or failed. -/
def Dev.loopsSettled (d : Dev) : Prop := ∀ i < 18, d.loopFitted i = true → d.locked i = true ∨ d.loopFailed i = true

theorem Dev.endStep3_settled {d : Dev} (h : d.loopsSettled) : d.endStep3 = d.beginStep 4 := by
  refine if_pos (List.all_eq_true.mpr fun i hi => ?_)
  cases hf : d.loopFitted i with
  | false => rfl
  | true => rcases h i (List.mem_range.mp hi) hf with h | h <;> simp [h]

theorem Dev.endStep3_waits {d : Dev} (h : ∃ i < 18, d.loopFitted i = true ∧ d.locked i = false ∧ d.loopFailed i = false) :
    d.endStep3 = d := by
  obtain ⟨i, hi, hf, hl, hx⟩ := h
  refine if_neg fun hall => ?_
  have := List.all_eq_true.mp hall i (List.mem_range.mpr hi)
  rw [hf, hl, hx] at this
  cases this

/-! Step 4 -/

theorem Dev.fuseWord_of_boot {d e : Dev} (h : e.boot = d.boot) (w : Nat) : e.fuseWord w = d.fuseWord w := by
  unfold Dev.fuseWord Dev.fuses
  rw [h]

theorem undFuse_injective : Function.Injective Reg.undFuse := fun i j h => by unfold Reg.undFuse at h; omega

/-- What UND shows of Undercoat word w: not the identity seed. -/
def Dev.fuseShown (d : Dev) (w : Nat) : Nat := if 40 ≤ w ∧ w < 48 then 0 else d.fuseWord w

/-- The Undercoat read into UND. -/
def Dev.fusesShown (d : Dev) : Dev := (List.range 128).foldl (fun f w => f.wr (Reg.undFuse w) (f.fuseShown w)) d

theorem Dev.fusesShown_eq (d : Dev) : d.fusesShown = (List.range 128).foldl (fun f w => f.wr (Reg.undFuse w) (d.fuseShown w)) d := by
  have h (l : List Nat) (e : Dev) (he : e.boot = d.boot) : l.foldl (fun f w => f.wr (Reg.undFuse w) (f.fuseShown w)) e =
      l.foldl (fun f w => f.wr (Reg.undFuse w) (d.fuseShown w)) e := by
    induction l generalizing e with
    | nil => rfl
    | cons w l ih =>
      rw [List.foldl_cons, List.foldl_cons, show e.fuseShown w = d.fuseShown w by
        unfold Dev.fuseShown; rw [Dev.fuseWord_of_boot he]]
      exact ih _ he
  exact h _ d rfl

theorem Dev.fusesShown_rd (d : Dev) {w : Nat} (hw : w < 128) : d.fusesShown.rd (Reg.undFuse w) = d.fuseShown w % 2 ^ 32 := by
  rw [Dev.fusesShown_eq]
  exact Dev.foldl_wr_rd (v := d.fuseShown) undFuse_injective _ d (List.mem_range.mpr hw)

/-- The fitted units, the fuses that disagree, and the rollback count shown. -/
def Dev.fittedShown (d : Dev) : Dev :=
  let e := (d.wr Reg.glbFittedLo (d.fuseWord 35)).wr Reg.glbFittedHi (d.fuseWord 36)
  let f := e.countN Reg.undDisagree (((List.range 128).map fun w => popCount 32 (e.fuseOdd w)).sum)
  f.setFld Reg.bootRollback Fld.bootRollbackFuseC f.rollbackCount

/-- The public key and the serial number shown. -/
def Dev.keyShown (d : Dev) (pub ser : List Byte) : Dev :=
  let e := (List.range 15).foldl (fun f j => f.wr (Reg.undIdpub j) (leAt pub (4 * j) 4)) d
  (e.wr Reg.undSerial0 (leAt ser 0 4)).wr Reg.undSerial1 (leAt ser 4 4)

/-- The log takes entries. -/
def Dev.logOpened (d : Dev) : Dev := { d with log := { d.log with opened := true } }

/-- The identity shown, and the log opened. -/
def Dev.identityShown (d : Dev) : Dev := (d.keyShown (ed448Public d.idPrivate) (shake256 (ed448Public d.idPrivate) 8)).logOpened

theorem Dev.endStep4_eq (d : Dev) (env : StartEnv) : d.endStep4 env =
    if env.fittedReadback then (d.fusesShown.fittedShown.identityShown.logInternal Reg.bootStat 0 4 .ok).tryStep none
    else d.fusesShown.fittedShown.enterFault := rfl

theorem Dev.fusesShown_frame (d : Dev) : d.keepsBut [.regs] d.fusesShown :=
  foldl_keeps (fun _ _ he => Dev.wr_keeps (keepsBut_keeps _ _) he) (keepsBut_refl _ _)

theorem Dev.fittedShown_frame (d : Dev) : d.keepsBut [.regs] d.fittedShown := by
  have k := keepsBut_keeps [.regs] d
  unfold Dev.fittedShown
  exact Dev.setFld_keeps k (Dev.countN_keeps k (Dev.wr_keeps k (Dev.wr_keeps k (keepsBut_refl _ _))))

theorem Dev.keyShown_frame (d : Dev) (pub ser : List Byte) : d.keepsBut [.regs] (d.keyShown pub ser) := by
  have k := keepsBut_keeps [.regs] d
  exact Dev.wr_keeps k (Dev.wr_keeps k (foldl_keeps (fun _ _ he => Dev.wr_keeps k he) (keepsBut_refl _ _)))

theorem Dev.logOpened_spec {d f : Dev} (h : d.keepsBut [.regs] f) : f.logOpened.log.opened = true ∧
    f.logOpened.log.written = d.log.written ∧ f.logOpened.devNs = d.devNs := by
  have hlog : f.log = d.log := h .log rfl
  refine ⟨rfl, ?_, h .devNs rfl⟩
  show f.log.written = _
  rw [hlog]

theorem Dev.identityShown_spec (d : Dev) : d.identityShown.log.opened = true ∧ d.identityShown.log.written = d.log.written ∧
    d.identityShown.devNs = d.devNs :=
  Dev.logOpened_spec (d.keyShown_frame _ _)

theorem Dev.logOpened_rd (d : Dev) (a : Nat) : d.logOpened.rd a = d.rd a := rfl

section
variable (d : Dev) {a : Nat} (ha : Reg.bootStat = a ∨ ∃ w < 128, Reg.undFuse w = a)
include ha

/-- The step and the Undercoat are shown in registers of their own. -/
theorem shown_ne {b : Nat} (hb : Reg.bootStat < b ∧ (b < Reg.undFuse 0 ∨ Reg.undFuse 128 ≤ b)) : a ≠ b := by
  obtain ⟨hstep, hund⟩ := hb
  rcases ha with rfl | ⟨w, hw, rfl⟩
  · exact Nat.ne_of_lt hstep
  · unfold Reg.undFuse at *
    omega

theorem Dev.fittedShown_rd : d.fittedShown.rd a = d.rd a := by
  have hlow : Reg.glbFittedLo < a ∧ Reg.glbFittedHi < a := by
    rcases ha with rfl | ⟨w, -, rfl⟩
    · decide
    · unfold Reg.glbFittedLo Reg.glbFittedHi Reg.undFuse
      omega
  unfold Dev.fittedShown
  extract_lets e f
  have he : e.rd a = d.rd a := (Dev.rd_wr_ne _ _ (Nat.ne_of_gt hlow.2)).trans (Dev.rd_wr_ne _ _ (Nat.ne_of_gt hlow.1))
  have hf : f.rd a = e.rd a := Dev.rd_countN_ne _ _ (shown_ne ha (by decide))
  clear_value f
  exact (Dev.rd_setFld_ne _ _ _ (shown_ne ha (by decide))).trans (hf.trans he)

theorem Dev.keyShown_rd (pub ser : List Byte) : (d.keyShown pub ser).rd a = d.rd a := by
  unfold Dev.keyShown
  extract_lets e
  have he : e.rd a = d.rd a := Dev.foldl_rd _ _ _ (fun x j _ => Dev.rd_wr_ne _ _ (shown_ne ha ⟨by
    unfold Reg.bootStat Reg.undIdpub; omega, .inr (by unfold Reg.undFuse Reg.undIdpub; omega)⟩)) d
  rw [Dev.rd_wr_ne _ _ (shown_ne ha (by decide)), Dev.rd_wr_ne _ _ (shown_ne ha (by decide)), he]

theorem Dev.identityShown_rd : d.identityShown.rd a = d.rd a := by
  unfold Dev.identityShown
  rw [Dev.logOpened_rd, Dev.keyShown_rd _ ha]

end

/-- UND shows the Undercoat but for the identity seed (R406). -/
theorem Dev.endStep4_und (d : Dev) (env : StartEnv) {w : Nat} (hw : w < 128) :
    (d.endStep4 env).rd (Reg.undFuse w) = d.fuseShown w % 2 ^ 32 := by
  have hund : Reg.bootStat = Reg.undFuse w ∨ ∃ v < 128, Reg.undFuse v = Reg.undFuse w := .inr ⟨w, hw, rfl⟩
  have hne {b : Nat} (hb : b < 0x20000 ∨ 0x20200 ≤ b) : Reg.undFuse w ≠ b := by
    unfold Reg.undFuse
    omega
  rw [Dev.endStep4_eq]
  split
  · rw [Dev.tryStep_rd _ _ (hne (by decide)), Dev.logInternal_rd _ _ _ _ _ (hne (by decide)) (hne (by decide)),
      Dev.identityShown_rd _ hund, Dev.fittedShown_rd _ hund, Dev.fusesShown_rd d hw]
  · rw [Dev.enterFault_rd _ (hne (by decide)) (hne (by decide)) (hne (by decide)) (hne (by decide)), Dev.fittedShown_rd _ hund,
      Dev.fusesShown_rd d hw]

theorem Dev.identityRead_spec {d : Dev} (hm : d.mode = 0) :
    let e := d.fusesShown.fittedShown.identityShown
    e.mode = 0 ∧ e.log.opened = true ∧ e.devNs = d.devNs ∧ e.log.written = d.log.written := by
  intro e
  have hstep : Reg.bootStat = Reg.bootStat ∨ ∃ w < 128, Reg.undFuse w = Reg.bootStat := .inl rfl
  have hrd : e.rd Reg.bootStat = d.rd Reg.bootStat := by
    unfold e
    rw [Dev.identityShown_rd _ hstep, Dev.fittedShown_rd _ hstep]
    exact Dev.foldl_rd _ _ _ (fun f w _ => Dev.rd_wr_ne _ _ (by unfold Reg.bootStat Reg.undFuse; omega)) d
  have hund : d.fusesShown.log = d.log ∧ d.fusesShown.devNs = d.devNs := ⟨d.fusesShown_frame .log rfl, d.fusesShown_frame .devNs rfl⟩
  have hfit : d.fusesShown.fittedShown.log = d.fusesShown.log ∧ d.fusesShown.fittedShown.devNs = d.fusesShown.devNs :=
    ⟨d.fusesShown.fittedShown_frame .log rfl, d.fusesShown.fittedShown_frame .devNs rfl⟩
  obtain ⟨hopened, hwritten, hns⟩ := d.fusesShown.fittedShown.identityShown_spec
  exact ⟨(Dev.fld_of_rd hrd _).trans hm, hopened, hns.trans (hfit.2.trans hund.2), by rw [hwritten, hfit.1, hund.1]⟩

theorem Dev.endStep4_read {d : Dev} {env : StartEnv} (hm : d.mode = 0) (he : env.fittedReadback = true) :
    (d.endStep4 env).begun d.devNs 5 ∧ (d.endStep4 env).boot.slot = none ∧ (d.endStep4 env).log.opened = true ∧
      (d.endStep4 env).log.written = d.log.written + 1 := by
  rw [Dev.endStep4_eq, if_pos he]
  obtain ⟨hmode, hopened, hns, hwritten⟩ := Dev.identityRead_spec hm
  generalize d.fusesShown.fittedShown.identityShown = f at hmode hopened hns hwritten ⊢
  have hgains := Dev.logInternal_gains f Reg.bootStat 0 4 .ok
  have hfmode : (f.logInternal Reg.bootStat 0 4 .ok).mode = 0 :=
    (Dev.fld_of_rd (Dev.logInternal_rd _ _ _ _ _ (by decide) (by decide)) _).trans hmode
  have hfns : (f.logInternal Reg.bootStat 0 4 .ok).devNs = d.devNs := (Dev.logInternal_devNs ..).trans hns
  unfold LogSt.gains at hgains
  rw [if_pos hopened] at hgains
  obtain ⟨x, -, hcount, -⟩ := hgains
  refine ⟨hfns ▸ Dev.beginStep_begun (d := { f.logInternal Reg.bootStat 0 4 .ok with boot := _ }) hfmode (by decide), rfl, ?_, ?_⟩
  · show (f.logInternal Reg.bootStat 0 4 .ok).log.opened = true
    rw [Dev.logInternal_of_opened hopened, (Dev.logWrite_log ..).2.2.2.1, hopened]
  · exact hcount.trans (congrArg (· + 1) hwritten)

/-! Step 5 -/

theorem Dev.endStep5_noDirectory {d : Dev} {env : StartEnv} (hf : d.pwr.flashOp = none)
    (hd : directoryOf d.boot.flash d.boot.flashLen = none) : (d.endStep5 env).mode = 3 := by
  unfold Dev.endStep5
  rw [hf, hd, if_neg (by decide)]
  exact Dev.enterFault_mode d

/-- The slot in hand, and the directory's sequence number, shown. -/
def Dev.slotChosen (d : Dev) (c : Nat) (dir : Directory) : Dev :=
  { d.wr Reg.bootDirseq (dir.seq % 2 ^ 31 + 2 ^ 31 * c) with boot := { d.boot with slot := some (d.boot.slot.getD dir.select) } }

theorem Dev.endStep5_read {d : Dev} {env : StartEnv} {c : Nat} {dir : Directory} (hf : d.pwr.flashOp = none) (he : env.flashError = false)
    (hd : directoryOf d.boot.flash d.boot.flashLen = some (c, dir))
    (hl : (dir.slots.getD (d.boot.slot.getD dir.select) (0, 0)).2 ≠ 0) : d.endStep5 env = (d.slotChosen c dir).beginStep 6 := by
  unfold Dev.endStep5
  rw [hf, hd]
  exact (if_neg hl).trans (if_neg (by rw [he]; exact Bool.false_ne_true))

theorem Dev.slotChosen_spec {d : Dev} (hm : d.mode = 0) (c : Nat) (dir : Directory) :
    ((d.slotChosen c dir).beginStep 6).begun d.devNs 6 ∧
      ((d.slotChosen c dir).beginStep 6).boot.slot = some (d.boot.slot.getD dir.select) ∧
      ((d.slotChosen c dir).beginStep 6).rd Reg.bootDirseq = (dir.seq % 2 ^ 31 + 2 ^ 31 * c) % 2 ^ 32 := by
  have hmode : (d.slotChosen c dir).mode = 0 := (Dev.fld_of_rd (Dev.rd_wr_ne _ _ (by decide)) _).trans hm
  exact ⟨Dev.beginStep_begun hmode (by decide), rfl, (Dev.beginStep_rd _ 6 (by decide)).trans (Dev.rd_wr_same d _ _)⟩

/-! Step 6 -/

section
variable {d : Dev} {env : StartEnv} {j c : Nat} {dir : Directory} (hs : d.boot.slot = some j)
  (hd : directoryOf d.boot.flash d.boot.flashLen = some (c, dir))
include hs hd

/-- The header and section directory are right: step 7 begins with the slot's first section. -/
theorem Dev.endStep6_right (hm : d.mode = 0) (h : d.slotFault d.boot.flash dir j env.flashError = none) :
    (d.endStep6 env).begun d.devNs 7 ∧ (d.endStep6 env).boot.slot = some j ∧ (d.endStep6 env).boot.sec = 0 := by
  unfold Dev.endStep6
  rw [hs, hd]
  dsimp only
  rw [h]
  dsimp only
  generalize hb : ({ d.boot with keyIndex := _ } : BootSt) = b
  have hboot := Dev.beginStep7_boot { d with boot := b }
  refine ⟨⟨Dev.beginStep7_stepNo _, by rw [hboot], (Dev.beginStep7_mode _).trans hm⟩, ?_, by rw [hboot]⟩
  rw [hboot, ← hb]
  exact hs

theorem Dev.endStep6_wrong {code : Nat} (h : d.slotFault d.boot.flash dir j env.flashError = some code) : d.endStep6 env = d.reject code := by
  unfold Dev.endStep6
  rw [hs, hd]
  dsimp only
  rw [h]

end

/-! Step 7 -/

section
variable {d : Dev} {env : StartEnv} {i : Image} (hi : d.imageIn d.boot.flash = some i)
include hi

theorem Dev.endStep7_flashError (he : env.flashError = true) : d.endStep7 env = d.reject 0x0E := by
  unfold Dev.endStep7
  rw [hi]
  exact if_pos he

variable (he : env.flashError = false)
include he

theorem Dev.endStep7_waits (hd : d.step7Done i = false) : d.endStep7 env = d := by
  unfold Dev.endStep7
  rw [hi]
  exact (if_neg (by rw [he]; exact Bool.false_ne_true)).trans (if_neg (by rw [hd]; exact Bool.false_ne_true))

theorem Dev.endStep7_badSpares (hd : d.step7Done i = true) (hx : env.xdieSparesOk = false) : (d.endStep7 env).mode = 3 := by
  unfold Dev.endStep7
  rw [hi]
  dsimp only
  rw [if_neg (by rw [he]; exact Bool.false_ne_true), if_pos hd, if_neg (by rw [hx]; exact Bool.false_ne_true)]
  exact Dev.enterFault_mode d

theorem Dev.endStep7_ends (hd : d.step7Done i = true) (hx : env.xdieSparesOk = true) :
    (d.endStep7 env).stepNo = 8 ∨ (d.endStep7 env).slotLeft := by
  unfold Dev.endStep7
  rw [hi]
  dsimp only
  rw [if_neg (by rw [he]; exact Bool.false_ne_true), if_pos hd, if_pos hx]
  exact Dev.tryLoad_ends (Dev.beginStep_stepNo _ (by decide))

end

/-! Step 8 -/

theorem Dev.endStep8_waits {d : Dev} (env : StartEnv) (h : ∃ c < 1088, d.coreState c = coLoad) : d.endStep8 env = d := by
  obtain ⟨c, hc, hl⟩ := h
  exact if_pos (List.any_eq_true.mpr ⟨c, List.mem_range.mpr hc, decide_eq_true hl⟩)

/-- The fuses, the allow masks, and the Primer load's entry, before the load is shown. -/
def Dev.fusesApplied (d : Dev) (k : Nat) (i : Image) (env : StartEnv) : Dev :=
  let bs := imageBodies d.boot.staged i
  let d := ((d.applyFuse (bodyOf bs stFuse) env).loadPolicy (bodyOf bs stPolicy)).advanceRollback i env
  let proven := !d.flag Reg.bootStat Fld.bootStatUnproven
  d.logAdd ⟨.primer, BitVec.ofNat 12 k⟩ (Reg.bootDigest 0) 0 (leAt i.digest 0 4) (if proven then .ok else .timingUnproven)

/-- The slot that has loaded, its reason and its number of sections shown. -/
def Dev.slotShown (d : Dev) (k : Nat) (i : Image) : Dev :=
  let d := (d.setFld Reg.bootStat Fld.bootStatSlot k).setFld Reg.bootReason (reasonFld k) 0x01
  let d := d.wr Reg.bootRollback (i.rollback + 256 * d.rollbackCount)
  d.wr Reg.bootSections i.sections_

/-- Its digest and build shown. -/
def Dev.digestShown (d : Dev) (i : Image) : Dev :=
  let d := (List.range 8).foldl (fun f j => f.wr (Reg.bootDigest j) (leAt i.digest (4 * j) 4)) d
  (List.range 4).foldl (fun f j => f.wr (Reg.bootBuild j) (leAt i.build (4 * j) 4)) d

/-- The domains that nothing uses switched off, and step 9 begun. -/
def Dev.toStep9 (d : Dev) : Dev := (d.domsOff d.idleDoms).beginStep9

theorem Dev.endStep8_loads {d : Dev} {env : StartEnv} {k : Nat} {i : Image} (h : ∀ c < 1088, d.coreState c ≠ coLoad)
    (hs : d.boot.slot = some k) (hi : d.imageIn d.boot.staged = some i) :
    d.endStep8 env = (((d.fusesApplied k i env).slotShown k i).digestShown i).toStep9 := by
  have hload : ¬ ((List.range 1088).any fun c => decide (d.coreState c = coLoad)) = true := fun hany => by
    obtain ⟨c, hc, hl⟩ := List.any_eq_true.mp hany
    exact h c (List.mem_range.mp hc) (of_decide_eq_true hl)
  unfold Dev.endStep8
  rw [if_neg hload, hs, hi]
  rfl

/-- Registers of BOOT below the digest's. -/
theorem Dev.digestShown_rd (d : Dev) (i : Image) {a : Nat} (ha : a < Reg.bootDigest 0) : (d.digestShown i).rd a = d.rd a := by
  unfold Dev.digestShown
  rw [Dev.foldl_rd _ _ _ fun e j _ => Dev.rd_wr_ne _ _ (by unfold Reg.bootDigest at ha; unfold Reg.bootBuild; omega),
    Dev.foldl_rd _ _ _ fun e j _ => Dev.rd_wr_ne _ _ (by unfold Reg.bootDigest at *; omega)]

theorem Dev.slotShown_spec (d : Dev) {k : Nat} (i : Image) (hk : k < 3) :
    (d.slotShown k i).fld Reg.bootStat Fld.bootStatSlot = k ∧ (d.slotShown k i).fld Reg.bootReason (reasonFld k) = 1 ∧
      (d.slotShown k i).rd Reg.bootSections = i.sections_ % 2 ^ 32 := by
  unfold Dev.slotShown
  extract_lets e f
  have hrd {a : Nat} (h1 : a ≠ Reg.bootSections) (h2 : a ≠ Reg.bootRollback) : (f.wr Reg.bootSections i.sections_).rd a = e.rd a :=
    (Dev.rd_wr_ne _ _ h1).trans (Dev.rd_wr_ne _ _ h2)
  refine ⟨?_, ?_, Dev.rd_wr_same _ _ _⟩
  · rw [Dev.fld_of_rd (hrd (by decide) (by decide)), Dev.fld_setFld_ne _ _ _ _ (by decide), Dev.fld_setFld_same _ _ _ _ (by decide)]
    exact Nat.mod_eq_of_lt (by show k < 4; omega)
  · rw [Dev.fld_of_rd (hrd (by decide) (by decide)), Dev.fld_setFld_same _ _ _ _ (reasonFld_fits hk)]
    rfl

theorem Dev.toStep9_rd (d : Dev) {a : Nat} (ha : a < 0x50000) (hb : a ≠ Reg.bootStat) : d.toStep9.rd a = d.rd a := by
  unfold Dev.toStep9
  rw [Dev.beginStep9_low _ ha, Dev.beginStep_rd _ _ hb, Dev.domsOff_low _ ha]

theorem Dev.toStep9_slot (d : Dev) : d.toStep9.fld Reg.bootStat Fld.bootStatSlot = d.fld Reg.bootStat Fld.bootStatSlot := by
  unfold Dev.toStep9
  rw [Dev.fld_of_rd (Dev.beginStep9_low _ (by decide))]
  exact (Dev.fld_setFld_fld _ _ _ _ _ (by decide) (by decide)).trans (Dev.fld_of_rd (Dev.domsOff_low _ (by decide) _) _)

theorem Dev.endStep8_spec {d : Dev} {env : StartEnv} {k : Nat} {i : Image} (h : ∀ c < 1088, d.coreState c ≠ coLoad) (hk : k < 3)
    (hs : d.boot.slot = some k) (hi : d.imageIn d.boot.staged = some i) :
    (d.endStep8 env).stepNo = 9 ∧ (d.endStep8 env).fld Reg.bootStat Fld.bootStatSlot = k ∧
      (d.endStep8 env).fld Reg.bootReason (reasonFld k) = 1 ∧ (d.endStep8 env).rd Reg.bootSections = i.sections_ % 2 ^ 32 := by
  rw [Dev.endStep8_loads h hs hi]
  obtain ⟨hslot, hreason, hsections⟩ := (d.fusesApplied k i env).slotShown_spec i hk
  generalize (d.fusesApplied k i env).slotShown k i = f at hslot hreason hsections
  have hrd {a : Nat} (ha : a < Reg.bootDigest 0) := f.digestShown_rd i ha
  refine ⟨Dev.beginStep9_stepNo _, ?_, ?_, ?_⟩
  · rw [Dev.toStep9_slot, Dev.fld_of_rd (hrd (by decide)), hslot]
  · rw [Dev.fld_of_rd (Dev.toStep9_rd _ (by decide) (by decide)), Dev.fld_of_rd (hrd (by decide)), hreason]
  · rw [Dev.toStep9_rd _ (by decide) (by decide), hrd (by decide), hsections]

/-! Steps 9 and 10 -/

theorem Dev.endStep9_armed {d : Dev} (hm : d.mode = 0) (ha : d.scr.armed = true) : d.endStep9.begun d.devNs 10 := by
  unfold Dev.endStep9
  rw [if_pos ha]
  exact Dev.beginStep_begun (d := { d with boot := _ }) hm (by decide)

theorem Dev.endStep9_waits {d : Dev} (ha : d.scr.armed = false) : d.endStep9 = d := by
  unfold Dev.endStep9
  rw [if_neg (by rw [ha]; exact Bool.false_ne_true)]

theorem Dev.setMode_flags (d : Dev) (m : Nat) : (d.setMode m).flag Reg.glbState Fld.glbStateReady = decide (m = 1 ∨ m = 2) ∧
    (d.setMode m).flag Reg.glbState Fld.glbStateFault = decide (m = 2 ∨ m = 3) := by
  have hbit (b : Bool) : decide (bit01 b % 2 ^ 1 = 1) = b := by cases b <;> rfl
  unfold Dev.setMode
  constructor
  · rw [Dev.flag_setFld_fld _ _ _ _ _ (by decide) (by decide), Dev.flag_setFld_same _ _ _ _ (by decide)]
    exact hbit _
  · rw [Dev.flag_setFld_same _ _ _ _ (by decide)]
    exact hbit _

/-- The mode of READY (R465). -/
def Dev.readyMode (d : Dev) : Dev :=
  if d.boot.safe then (d.setMode 2).setFld Reg.glbState Fld.glbStateSafeCause 1 else d.setMode 1

theorem Dev.readyMode_spec (d : Dev) : d.readyMode.mode = (if d.boot.safe then 2 else 1) ∧
    d.readyMode.flag Reg.glbState Fld.glbStateReady = true ∧ d.readyMode.flag Reg.glbState Fld.glbStateFault = d.boot.safe ∧
    d.readyMode.devNs = d.devNs := by
  unfold Dev.readyMode
  cases d.boot.safe with
  | false => exact ⟨Dev.setMode_mode d (by decide), (d.setMode_flags 1).1, (d.setMode_flags 1).2, rfl⟩
  | true =>
    obtain ⟨hready, hfault⟩ := d.setMode_flags 2
    exact ⟨(Dev.fld_setFld_ne _ _ _ _ (by decide)).trans (Dev.setMode_mode d (by decide)),
      (Dev.flag_setFld_fld _ _ _ _ _ (by decide) (by decide)).trans hready,
      (Dev.flag_setFld_fld _ _ _ _ _ (by decide) (by decide)).trans hfault, rfl⟩

theorem Dev.startWear_rd (d : Dev) (a : Nat) : d.startWear.rd a = d.rd a := rfl

theorem Dev.endStep10_eq (d : Dev) : d.endStep10 = (d.readyMode.wr Reg.bootElapsed (d.readyMode.devNs / 1000000)).startWear := rfl

theorem Dev.endStep10_spec (d : Dev) : d.endStep10.mode = (if d.boot.safe then 2 else 1) ∧
    d.endStep10.flag Reg.glbState Fld.glbStateReady = true ∧ d.endStep10.flag Reg.glbState Fld.glbStateFault = d.boot.safe ∧
    d.endStep10.rd Reg.bootElapsed = d.devNs / 1000000 % 2 ^ 32 ∧ d.endStep10.wear.start = some d.devNs := by
  obtain ⟨hmode, hready, hfault, hns⟩ := d.readyMode_spec
  rw [Dev.endStep10_eq, hns]
  have hrd {a : Nat} (ha : a ≠ Reg.bootElapsed) : (d.readyMode.wr Reg.bootElapsed (d.devNs / 1000000)).startWear.rd a = d.readyMode.rd a := by
    rw [Dev.startWear_rd, Dev.rd_wr_ne _ _ ha]
  refine ⟨(Dev.fld_of_rd (hrd (by decide)) _).trans hmode, (Dev.flag_of_rd (hrd (by decide)) _).trans hready,
    (Dev.flag_of_rd (hrd (by decide)) _).trans hfault, ?_, congrArg some hns⟩
  rw [Dev.startWear_rd, Dev.rd_wr_same]

/-- Settles O29: what each step of start-up leaves, by the number of the step. -/
theorem startUpSteps : Obligations.StartUpSteps := by
  intro s env ha hm k begins
  have hs := Dev.starting_of ha hm
  refine gives_live (exec_startUpStep env s) ha ⟨fun hk => ?_, fun hk hqa => ?_, fun hk hqa hqb t ht => ?_, fun hk hl => ?_, fun hk hl => ?_,
    fun hk w hw => ?_, fun hk he => ?_, fun hk he => ?_, fun hk hf hd => ?_, fun hk hf he c dir hd hl => ?_,
    fun hk j c dir hj hd => ⟨fun hr => ?_, fun code hr hlt => ?_⟩, fun hk i hi => ⟨fun j hlt he hj => ?_, fun he hd => ?_, fun he hd hx => ?_,
    fun he hd hx => ?_⟩, fun hk hl => ?_, fun hk hl j hlt hj i hi => ?_, fun hk harm => ?_, fun hk harm => ?_, fun hk => ?_⟩
  · rw [Dev.startUpStep_1 hs hk]
    exact Dev.beginStep_begun hm (by decide)
  · rw [Dev.startUpStep_2 hs hk, Dev.endStep2_refA hqa]
    exact Dev.refTaken_spec hm (by decide)
  · rw [Dev.startUpStep_2 hs hk, Dev.endStep2_refB hqa hqb ht]
    refine ⟨fun hle => ?_, fun hlt => if_neg (by omega)⟩
    rw [if_pos hle]
    exact Dev.refTaken_spec hm (by decide)
  · rw [Dev.startUpStep_3 hs hk, Dev.endStep3_settled hl]
    exact Dev.beginStep_begun hm (by decide)
  · rw [Dev.startUpStep_3 hs hk, Dev.endStep3_waits hl]
  · rw [Dev.startUpStep_4 hs hk, Dev.endStep4_und _ _ hw]
    unfold Dev.fuseShown
    split <;> rfl
  · rw [Dev.startUpStep_4 hs hk]
    exact Dev.endStep4_read hm he
  · rw [Dev.startUpStep_4 hs hk, Dev.endStep4_eq, if_neg (by rw [he]; exact Bool.false_ne_true)]
    exact Dev.enterFault_mode _
  · rw [Dev.startUpStep_5 hs hk]
    exact Dev.endStep5_noDirectory hf hd
  · rw [Dev.startUpStep_5 hs hk, Dev.endStep5_read hf he hd hl]
    exact Dev.slotChosen_spec hm c dir
  · rw [Dev.startUpStep_6 hs hk]
    exact Dev.endStep6_right hj hd hm hr
  · rw [Dev.startUpStep_6 hs hk, Dev.endStep6_wrong hj hd hr]
    exact Dev.reject_rejectsTo hj hlt code
  · rw [Dev.startUpStep_7 hs hk, Dev.endStep7_flashError hi he]
    exact Dev.reject_rejectsTo hj hlt _
  · rw [Dev.startUpStep_7 hs hk, Dev.endStep7_waits hi he hd]
  · rw [Dev.startUpStep_7 hs hk]
    exact Dev.endStep7_badSpares hi he hd hx
  · rw [Dev.startUpStep_7 hs hk]
    exact Dev.endStep7_ends hi he hd hx
  · rw [Dev.startUpStep_8 hs hk, Dev.endStep8_waits env hl]
  · rw [Dev.startUpStep_8 hs hk]
    exact Dev.endStep8_spec hl hlt hj hi
  · rw [Dev.startUpStep_9 hs hk]
    exact Dev.endStep9_armed hm harm
  · rw [Dev.startUpStep_9 hs hk, Dev.endStep9_waits harm]
  · rw [Dev.startUpStep_10 hs hk]
    exact Dev.endStep10_spec _

end Sys2Proof.Machine
end
